-- ==== Sys2Proof/Word.lean ====
section
/-! DEFINITION. Word types of the device and their plainest arithmetic (00 R12, R67: bytes, little-endian words). -/

namespace Sys2Proof

/-- A byte of memory. -/
abbrev Byte := BitVec 8
/-- A 16-bit word. -/
abbrev Half := BitVec 16
/-- A 32-bit word: the unit of INT32, FP32 and many descriptor fields. -/
abbrev Word := BitVec 32
/-- A 64-bit word: a register of the control space, an operand field of R101. -/
abbrev Dword := BitVec 64

end Sys2Proof
end

