-- ==== Sys2Proof/Syntax.lean ====
section
/-!
DEFINITION. The commands of the block: one constructor of `Instr` per row of spec/opcode_table.json, in the
table's order, with the operands the rules give each step. Units are named by plain numbers: a core by its
logical ID (R8), a cluster by its CD number (R9), an outer package, link or port by its number.
-/

namespace Sys2Proof

/-- The four engines of a core, R56, in the numbering of R108. -/
inductive Engine where
  | cube | vec | move | gather
  deriving DecidableEq, Repr

/-- The fields of an instruction word but its opcode, R101. -/
structure IFields where
  mods : Half := 0
  dest : Dword := 0
  srcA : Dword := 0
  srcB : Dword := 0
  aux  : BitVec 40 := 0
  deriving DecidableEq, Repr

/-- The two command paths of R422. -/
inductive Path where
  | ring | i2c
  deriving DecidableEq, Repr

/-- What names a fetched mailbox command: its path and its Seq (R431). -/
structure CmdHdr where
  path : Path
  seq  : Word
  deriving DecidableEq, Repr

/-- A buffer named by a command, R431 and R445: window 255 is the path's object buffer (R446).
`data` is what the device reads from host memory when the window is a host window. -/
structure BufRef where
  window : Nat
  buffer : Nat
  data   : List Byte := []
  deriving DecidableEq, Repr

/-- A signed object in the envelope of R569. `sigOk` is the outcome of verifying every signature,
`signer`/`signer2` the SHAKE256 hashes of the signing public keys. -/
structure SObj where
  wellFormed : Bool
  type    : Nat
  serial  : Dword
  counter : Nat
  signer  : BitVec 512
  signer2 : BitVec 512 := 0
  sigOk   : Bool
  body    : List Byte
  deriving DecidableEq, Repr

/-- Agents that send requests to slices (R196). -/
inductive Agent where
  | core (c : Nat) (e : Engine)
  | placer
  | rdma (qp : Nat)
  | service
  | link (l : Nat)
  | reduction (die : Nat)
  | guest
  deriving DecidableEq, Repr

/-- What a memory request does. -/
inductive Access where
  | read
  | write (bytes : List Byte) (poison : Bool)
  deriving DecidableEq, Repr

/-- A burst request at a slice controller: a core's, by its slot, or another agent's, by the number of its queue entry (R194, R196). -/
inductive BurstRef where
  | slot (n : Nat)
  | entry (n : Nat)
  deriving DecidableEq, Repr

/-- What a decoder under test shows for a pattern (R207, R245): the data, a correction at a symbol, a detected error, the poison
pattern, an address error, or a NAK. -/
inductive CheckOut where
  | data
  | corrected (symbol : Nat)
  | detected
  | poisoned
  | address
  | nak
  deriving DecidableEq, Repr

/-- An outcome seen in the self-test of a unit at a pattern, numbered down the rows of the table. -/
structure CheckSeen where
  unit    : Nat
  pattern : Nat
  out     : CheckOut
  deriving DecidableEq, Repr

/-- One of the instructions that an engine executes, numbered from the oldest (R121, R126). -/
structure EngineItem where
  engine : Engine
  nth    : Nat
  deriving DecidableEq, Repr

/-- The sideband kinds of a channel word, R347. -/
inductive WordKind where
  | data | endK | flushed
  deriving DecidableEq, Repr

/-- The completion token of R165 (fields only; Task_Seq and Wave name the tree it travels on). -/
structure Token where
  done : Nat
  failed : Nat
  minMark : Nat := 0xFFFFFFFF
  firstFailed : Nat := 0xFFFFFF
  firstStatus : Nat := 0
  clusters : Nat := 1
  poison : Bool := false
  deriving DecidableEq, Repr

/-- Handle of a tensor instance: program slot, Tensor_Id, instance number (04, before R149). -/
structure Handle where
  slot : Nat
  tensor : Nat
  inst : Nat
  deriving DecidableEq, Repr

/-- The task descriptor of R149 as submitted (Task_Id is assigned at admission). -/
structure TaskDesc where
  slot : Nat
  template : Nat
  epoch : Nat
  resume : Bool
  seed : Dword
  partFirst : Nat
  limitMs : Nat
  inInst : List Nat
  outInst : List Nat
  reservedZero : Bool := true
  deriving DecidableEq, Repr

/-- An entry of COMMIT, R441 (tensor 0xFFFFFFFF with slot and instance 0 is the default entry). -/
structure CommitEntry where
  handle : Handle
  accept : Nat
  deriving DecidableEq, Repr

/-- The decisions that R177 leaves to the placer, as PLACER_RECOMPUTE carries them out. -/
inductive PlacerAct where
  | setClusters (task : Nat) (cds : List Nat)
  | dropReplica (h : Handle) (shard : Nat)
  | demote (model : Nat)
  | spill (ctx : Nat) (toHost : Bool)
  | restore (ctx : Nat)
  | rotate (task : Nat) (by_ : Nat)
  | mergePages (ctx : Nat) (at_ : Nat) (count : Nat) (log2 : Nat)
  deriving DecidableEq, Repr

/-- The model record of R297. -/
structure ModelRec where
  id : Nat
  slot : Nat
  cls : Nat
  passMax : Nat
  weight : Nat
  draft : Nat
  specK : Nat
  tokeniser : Nat
  vocab : Nat
  maxContext : Nat
  fillWait : Nat
  chunk : Nat
  endToken : Nat
  window : Nat
  offset : Nat
  bytes : Nat
  digest : BitVec 512
  reservedZero : Bool := true
  deriving DecidableEq, Repr

/-- The adapter record of R299. -/
structure AdapterRec where
  id : Nat
  base : Nat
  rank : Nat
  format : Nat
  trainable : Bool
  alpha : Word
  window : Nat
  offset : Nat
  bytes : Nat
  digest : BitVec 512
  reservedZero : Bool := true
  deriving DecidableEq, Repr

/-- The REQUEST record of R308, header and input. -/
structure ReqRec where
  model : Nat
  adapter : Nat
  prefixId : Nat
  request : Nat
  seed : Dword
  context : Nat
  bytesIn : Bool
  detok : Bool
  keep : Bool
  spillable : Bool
  noSpec : Bool
  more : Bool
  maxNew : Nat
  temperature : Word
  topP : Word
  minP : Word
  topK : Nat
  stopCount : Nat
  ringVa : Nat
  ringRkey : Nat
  ringLog2 : Nat
  stops : List Nat
  input : List Nat
  deriving DecidableEq, Repr

/-- What the tasks of a pass yield for one sequence, named by queue pair and Request_Id: a poisoned row (R549), the logit rows, the draft
model's logit rows of a speculative step (R320), and the Empty_Rows of its status records (R283). -/
structure SeqLogits where
  qp : Nat := 0
  request : Nat
  poisoned : Bool
  rows : List (List Word)
  draft : List (List Word)
  emptyRows : Nat := 0
  deriving DecidableEq, Repr

/-- The parameters of a fine-tuning job, R326. -/
structure FtJob where
  window : Nat
  seqs : Nat
  steps : Nat
  lr : Word
  beta1 : Word
  beta2 : Word
  eps : Word
  lambda : Word
  deriving DecidableEq, Repr

/-- A Lysdel packet: flit header and packet header fields, R362 and R380. `poison` is the mark of each data byte, as the Poison
bit of its flit gives it; bytes past its end carry none. -/
structure LPacket where
  src : Nat
  dest : Nat
  vl : Nat
  cls : Nat
  poison : List Bool
  op : Nat
  status : Nat
  tag : Nat
  age : Nat
  alt : Bool
  turned : Bool
  address : Nat
  length : Nat
  instar : Nat
  rank : Nat
  step : Nat
  group : Nat
  data : List Byte
  deriving DecidableEq, Repr

/-- The collective descriptor of R387. -/
structure CollDesc where
  seq : Nat
  group : Nat
  op : Nat
  dtype : Nat
  outFormat : Nat
  anchor : Nat
  round : Nat
  count : Nat
  slot : Nat
  inTensor : Nat
  inInst : Nat
  outInst : Nat
  outTensor : Nat
  limitMs : Nat
  reservedZero : Bool := true
  deriving DecidableEq, Repr

/-- A frame control block as received, R361. `crcOk` is the check of Fcb_Crc. -/
structure Fcb where
  slotValid : Nat
  ackValid : Bool
  ackSeq : Nat
  nakReason : Nat
  nakSeq : Nat
  credits : List Nat
  heartbeat : Nat
  crcOk : Bool
  deriving DecidableEq, Repr

/-- A flit as received, R362: header fields and payload, with the raw check of R364. -/
structure Flit where
  seq : Nat
  vl : Nat
  cls : Nat
  pos : Nat
  dest : Nat
  src : Nat
  length : Nat
  poison : Bool
  reserved : Nat
  payload : List Byte
  crc : Word
  deriving DecidableEq, Repr

/-- What a received frame holds beyond its Ethernet header, as far as R399 to R407 tell frames apart. `upper` is the IP protocol
number, or for UDP 256 plus the destination port. -/
inductive FrameBody where
  | arp | pfc | ip (fragmentOrOptions : Bool) (upper : Nat) (icrcOk : Bool) (pkey : Nat) | other
  deriving DecidableEq, Repr

/-- The MACsec part of a received frame, R403: SCI, association number, packet number, and the ICV check. -/
structure SecTag where
  sci : Dword
  an : Nat
  pn : Nat
  icvOk : Bool
  deriving DecidableEq, Repr

/-- A received Ethernet frame, R399, R400, with the codewords of R396 that the FEC corrected and could not correct. -/
structure EthFrame where
  fecFixed : Nat := 0
  fecBad : Nat := 0
  size : Nat
  dst : BitVec 48
  etype : Half
  tags : List (Nat × Nat)   -- (PCP, VID) of each VLAN tag
  fcsOk : Bool
  sec : Option SecTag
  body : FrameBody
  deriving DecidableEq, Repr

/-- A Communication Manager REQ, R412. -/
structure CmReq where
  service : Dword
  rc : Bool
  mtu : Nat
  gidIndex : Nat
  srcGid : BitVec 128
  remoteQpn : Nat
  deriving DecidableEq, Repr

/-- The units of UNIT_REGS and REGISTER_WRITE, R441. -/
inductive RegUnit where
  | slice (c : Nat) | outer (m : Nat) | channel (ep : Nat) (i : Nat) | router (cd : Nat) | link (l : Nat) | port (p : Nat)
  | core (c : Nat) | dcs | lysId | clockPower | thermal
  deriving DecidableEq, Repr

/-- An I²C write: the 7-bit address of the target and the bytes after it (R42, R424). -/
structure I2cWrite where
  target : BitVec 7
  bytes : List Byte
  deriving DecidableEq, Repr

/-- Where an I²C read begins: the 7-bit address of the target and the register offset (R42, R424). -/
structure I2cAt where
  target : BitVec 7
  offset : Half
  deriving DecidableEq, Repr

/-- What ROM finds when it runs R461 and R462: the straps of the compute dies and the hub, that of the guest die, pins, the flash's answer and the outcome of the checks of
step 4 and 5 on slot A, slot B and the recovery image. -/
structure RomInput where
  diePos : List Nat
  guestDie : Option Nat
  guestPop : Bool
  recovLow : Bool
  flashOk : Bool
  hubOk : Bool
  slotAPass : Bool
  slotBPass : Bool
  recoveryPass : Bool
  deviceProfileOk : Bool
  networkProfileOk : Bool
  deriving DecidableEq, Repr

/-- A firmware bundle as staged, R456: header fields and what the checks of R461 find. -/
structure BundleInfo where
  major : Nat
  minor : Nat
  build : Nat
  secVersion : Nat
  keyIndex : Nat
  advanceSvn : Bool
  revokeKey0 : Bool
  size : Nat
  headerOk : Bool
  keyHash : BitVec 512
  signatureOk : Bool
  componentsOk : Bool
  digest : BitVec 512
  deriving DecidableEq, Repr

/-- One raw sample of a sensor channel: reading in 1/16 °C (R523) and the front end's open and short detection. -/
structure Sample where
  channel : Nat
  raw : Int
  open_ : Bool
  short : Bool
  deriving DecidableEq, Repr

/-- The firmware processors of R449. -/
inductive Proc where
  | security | power | scheduler | cluster (cd : Nat)
  deriving DecidableEq, Repr

/-- What the flow probe of R538 sees. -/
inductive ProbeEvent where
  | start | flowFound | stopped
  deriving DecidableEq, Repr

/-- The commands of the block: the rows of spec/opcode_table.json, in its order. -/
inductive Instr where
  -- sequencer instructions and their releases (03)
  | nop (c : Nat) (w : IFields)
  | endKernel (c : Nat) (w : IFields)
  | loop (c : Nat) (w : IFields)
  | waitq (c : Nat) (w : IFields)
  | waitqRelease (c : Nat)
  | drain (c : Nat) (w : IFields)
  | drainRelease (c : Nat)
  | bara (c : Nat) (w : IFields)
  | barw (c : Nat) (w : IFields)
  | barrierRelease (task : Nat) (cd : Nat) (id : Nat) (scope : Bool)
  | rdreg (c : Nat) (w : IFields)
  | pmark (c : Nat) (w : IFields)
  | chain (c : Nat) (w : IFields)
  | chainCycleZero (c : Nat) (offSchedule : Option Nat)
  -- cube instructions (02, 03)
  | aclr (c : Nat) (w : IFields)
  | cmma (c : Nat) (w : IFields)
  | ccvt (c : Nat) (w : IFields)
  | accst (c : Nat) (w : IFields)
  | accld (c : Nat) (w : IFields)
  -- vector instructions
  | vadd (c : Nat) (w : IFields)
  | vsub (c : Nat) (w : IFields)
  | vmul (c : Nat) (w : IFields)
  | vfma (c : Nat) (w : IFields)
  | vmax (c : Nat) (w : IFields)
  | vmin (c : Nat) (w : IFields)
  | vcvt (c : Nat) (w : IFields)
  | vcopy (c : Nat) (w : IFields)
  | vcmpgt (c : Nat) (w : IFields)
  | vexp (c : Nat) (w : IFields)
  | vlog (c : Nat) (w : IFields)
  | vrcp (c : Nat) (w : IFields)
  | vrsqrt (c : Nat) (w : IFields)
  | vtanh (c : Nat) (w : IFields)
  | verf (c : Nat) (w : IFields)
  | rowmax (c : Nat) (w : IFields)
  | rowsum (c : Nat) (w : IFields)
  | rowsumsq (c : Nat) (w : IFields)
  | viadd (c : Nat) (w : IFields)
  | vimul (c : Nat) (w : IFields)
  | vishr (c : Nat) (w : IFields)
  | viand (c : Nat) (w : IFields)
  | vimin (c : Nat) (w : IFields)
  | accadd (c : Nat) (w : IFields)
  | vrand (c : Nat) (w : IFields)
  -- move and gather instructions
  | mload (c : Nat) (w : IFields)
  | mstore (c : Nat) (w : IFields)
  | gload (c : Nat) (w : IFields)
  | gscat (c : Nat) (w : IFields)
  | gpage (c : Nat) (w : IFields)
  -- events of a core
  | sequencerStallRelease (c : Nat)
  | scoreboardRelease (c : Nat) (e : Engine)
  | watchEntryFree (c : Nat) (e : Engine)
  | engineInstrComplete (c : Nat) (e : Engine)
  | instrTimeLimit (c : Nat) (x : EngineItem)
  | externalScratchAccess (from_ : Agent) (addr : Nat) (len : Nat) (acc : Access)
  | imemLoad (c : Nat) (bank : Nat) (kernel : Nat) (code : List (BitVec 256)) (digest : BitVec 512)
  | imemLoadDone (c : Nat)
  | imemArm (c : Nat)
  | imemDisarm (c : Nat)
  -- tasks and placement (04)
  | taskFire (task : Nat)
  | waveStart (task : Nat) (cd : Nat)
  | loadRaiseWithdraw (cd : Nat)
  | completionToken (task : Nat) (wave : Nat) (node : Nat) (tok : Token)
  | dispatcherHeartbeat (cd : Nat)
  | heartbeatTimeout (cd : Nat)
  | taskTimeLimit (task : Nat)
  | shadowCopyDone (task : Nat)
  | commitAct (epoch : Nat)
  | placerRecompute (acts : List PlacerAct)
  | shardMove (h : Handle) (shard : Nat) (addr : Nat)
  | replicaCreate (h : Handle) (shard : Nat) (addr : Nat)
  | residencyRank
  -- private slices (05)
  | sliceBurstRequest (from_ : Agent) (addr : Nat) (len : Nat) (acc : Access)
  | retryReissue (c : Nat) (e : Engine)
  | correctedWriteBack (c : Nat) (codeword : Nat)
  | sliceRefresh (stack : Nat) (quadrant : Nat) (layer : Nat)
  | scrubBurst (c : Nat)
  | scrubAge (u : RegUnit) (due : Unit)
  | sliceFill
  | checkerSelftest (slices : List CheckSeen) (packages : List CheckSeen)
  | spareCopyDone (c : Nat) (page : Nat)
  | pageEmptied (tier : Nat) (unit : Nat) (page : Nat)
  | retirementTableWrite
  -- outer memory and proboscis units (06)
  | outerBlockRequest (from_ : Agent) (addr : Nat) (len : Nat) (acc : Access) (waiting : Bool)
  | creditReturn (m : Nat) (req : Nat)
  | outerSend (m : Nat)
  | outerWindowAge (m : Nat) (req : Nat)
  | outerParityNak (m : Nat) (req : Nat)
  | holdAssert (m : Nat)
  | holdRelease (m : Nat)
  | outerReadData (m : Nat) (req : Nat) (dieCorrected : Nat) (dieUe : List Nat) (busErrors : List (Nat × Byte)) (reread : List (Nat × Byte))
  | outerRequestTimeout (m : Nat) (req : Nat)
  | dieWriteBack (m : Nat) (codeword : Nat)
  | outerRefresh (m : Nat) (channel : Nat) (bank : Nat) (burst : Bool)
  | postponedRefresh (m : Nat) (channel : Nat) (bank : Nat)
  | outerScrub (m : Nat)
  | outerFill
  | outerSpareCopyDone (m : Nat) (page : Nat)
  | outerBusRetrain (m : Nat) (ok : Bool)
  | proboscisSubmit (m : Nat) (port : Nat) (record : List Byte) (poison : Bool) (c : Option Nat)
  | proboscisStart (m : Nat)
  | rotationWindow (m : Nat)
  | proboscisPublish (m : Nat) (port : Nat)
  | proboscisTimeout (m : Nat) (port : Nat)
  | busyReissue (c : Nat) (e : Engine)
  | resettingReissue (c : Nat) (e : Engine)
  -- the on-device service (08)
  | request (qp : Nat) (r : ReqRec)
  | requestContinuation (qp : Nat) (r : ReqRec)
  | cancel (qp : Nat) (request : Nat)
  | credit (qp : Nat) (request : Nat) (value : Nat)
  | close (qp : Nat) (context : Nat)
  | unknownRecord (qp : Nat) (request : Option Nat)
  | tokenise (qp : Nat) (request : Nat)
  | passForm (model : Nat)
  | fillWaitExpiry (model : Nat)
  | passCommit (pass : Nat) (results : List SeqLogits)
  | streamWrite (qp : Nat) (request : Nat) (count : Nat)
  | creditTimeout (qp : Nat) (request : Nat)
  | contextIdleTimeout (context : Nat)
  | modelFetch (model : Nat) (weights : List Byte)
  | modelStage (model : Nat)
  | adapterStage (pass : Nat) (adapter : Nat)
  | finetuneStep (adapter : Nat) (ok : Bool) (grads : List Word)
  -- silk and channels (09)
  | flitCrcReplay (cd : Nat) (dir : Nat)
  | resettingAnswerTimeout (cd : Nat)
  | clusterRelease (cd : Nat)
  | channelOpenRequest (ep : Nat) (i : Nat) (producer : Nat)
  | channelGrant (ep : Nat) (i : Nat)
  | channelWord (ep : Nat) (i : Nat) (producer : Nat) (data : List Byte) (kind : WordKind) (poison : Bool)
  | channelWordRead (ep : Nat) (i : Nat)
  | flush (ep : Nat) (i : Nat)
  | packetAbort (ep : Nat) (i : Nat) (producer : Nat)
  | chnCfgWrite (ep : Nat) (i : Nat) (value : Dword)
  -- Lysdel links and collectives (10)
  | linkFrameRx (l : Nat) (codewordErrors : List Nat) (flits : List Flit) (fcb : Fcb)
  | fcbRx (l : Nat) (fcb : Fcb)
  | flitRx (l : Nat) (flit : Flit)
  | crcNak (l : Nat) (seq : Nat)
  | protocolNak (l : Nat) (seq : Nat)
  | replayTimeout (l : Nat)
  | linkAttemptStart (l : Nat)
  | partnerDetected (l : Nat) (lanes : Nat)
  | equaliseDone (l : Nat) (goodRx : Nat) (goodTx : Nat)
  | deskewDone (l : Nat) (reversed : Bool) (polarity : Byte)
  | mgmtId (l : Nat) (system : Word) (device : Nat) (link : Nat) (version : Nat) (torus : Bool)
  | attemptTimeout (l : Nat)
  | attemptRetryTimer (l : Nat)
  | mismatchRetry (l : Nat)
  | linkLeaveUp (l : Nat)
  | linkRetrain (l : Nat)
  | linkDisable (l : Nat)
  | linkEnable (l : Nat)
  | linkDrainEnd (l : Nat)
  | linkQuarantine (l : Nat)
  | backoffEnd (l : Nat)
  | backoffRelax (l : Nat)
  | read (l : Nat) (p : LPacket)
  | write (l : Nat) (p : LPacket)
  | instarQ (l : Nat) (p : LPacket)
  | readData (l : Nat) (p : LPacket)
  | writeAck (l : Nat) (p : LPacket)
  | instarA (l : Nat) (p : LPacket)
  | nak (l : Nat) (p : LPacket)
  | collData (l : Nat) (p : LPacket)
  | collAck (l : Nat) (p : LPacket)
  | collAbort (l : Nat) (p : LPacket)
  | mgmtRoute (l : Nat) (p : LPacket)
  | packetForward (arrival : Option Nat) (p : LPacket) (dwell : Nat)
  | remoteAttemptTimeout (die : Nat) (tag : Nat)
  | collChunkTimeout (task : Nat) (step : Nat) (rank : Nat)
  | earlyChunkResend (task : Nat) (step : Nat) (rank : Nat)
  | collTimeLimit (task : Nat)
  -- Ethernet and RDMA (11)
  | portEnable (p : Nat)
  | portDisable (p : Nat)
  | portDrainEnd (p : Nat)
  | modeSelWrite (p : Nat) (v : Nat)
  | pfcMaskWrite (p : Nat) (v : Byte)
  | portUp (p : Nat)
  | portFault (p : Nat) (loc : Bool) (remote : Bool)
  | ethFrameRx (p : Nat) (f : EthFrame)
  | pfcRepeat (p : Nat) (prio : Nat)
  | pfcXon (p : Nat) (prio : Nat) (occupancy : Nat)
  | pfcFrameRx (p : Nat) (prio : Nat) (quanta : Nat)
  | ethPfcStorm (p : Nat) (prio : Nat)
  | frameTx (p : Nat) (prio : Nat) (size : Nat)
  | addressProbe (p : Nat) (v6 : Bool) (duplicate : Bool)
  | dhcpRenew (p : Nat) (v6 : Bool)
  | dhcpRebind (p : Nat) (v6 : Bool)
  | leaseExpiry (p : Nat) (v6 : Bool)
  | arp (p : Nat) (target : Word) (sender : Word) (senderMac : BitVec 48)
  | neighbourSolicitation (p : Nat) (target : BitVec 128)
  | routerAdvertisement (p : Nat) (router : BitVec 128)
  | echo (p : Nat) (v6 : Bool) (payload : Nat)
  | send (qp : Nat) (length : Nat)
  | rdmaWrite (qp : Nat) (rkey : Word) (va : Nat) (data : List Byte)
  | rdmaRead (qp : Nat) (rkey : Word) (va : Nat) (len : Nat)
  | rdmaReadResponse (qp : Nat) (data : List Byte)
  | ackTimeout (qp : Nat)
  | heldRequestRetry (qp : Nat)
  | holdLimitExpiry (qp : Nat)
  | cnpSend (qp : Nat)
  | cnp (qp : Nat)
  | rateRecoveryStep (qp : Nat)
  | req (p : Nat) (m : CmReq)
  | rep (p : Nat) (qp : Nat) (mtu : Nat) (remoteQpn : Nat)
  | rtu (qp : Nat)
  | dreq (qp : Nat)
  | drep (qp : Nat)
  | rej (qp : Nat)
  | rtuTimeout (qp : Nat)
  | deviceReqTimeout (qp : Nat)
  -- clock sources (11, 14)
  | clockOffer (candidate : Nat)
  | clockWithdraw (candidate : Nat)
  | candidateStable (candidate : Nat)
  | pllLock
  | dividerRampStep (cd : Nat)
  -- control space and mailbox engine (12)
  | cmdTailWrite (qp : Nat) (value : Half)
  | commandFetch
  | responseWrite
  | rspHeadWrite (qp : Nat) (value : Half)
  | ringReset (byI2c : Bool) (qp : Nat)
  | i2cGo
  | i2cWriteTransaction (x : I2cWrite)
  | i2cReadTransaction (x : I2cAt) (count : Nat)
  | alertClear (mask : Dword)
  | alertMaskWrite (value : Dword)
  | lysIdWrite (value : Dword)
  | activeMaxWrite (m : Nat) (value : Nat)
  | registerWrite (u : RegUnit) (offset : Nat) (value : Dword)
  | telemetryRewrite
  | commandTimeout (h : CmdHdr) (applied : Bool)
  -- the mailbox commands of R441
  | getInfo (h : CmdHdr)
  | computeReset (h : CmdHdr) (mode : Nat) (cds : List Nat)
  | deviceReset (h : CmdHdr)
  | config (h : CmdHdr) (op : Nat) (key : Word) (value : List Byte)
  | openSession (h : CmdHdr) (b : BufRef) (o : SObj)
  | submitProgram (h : CmdHdr) (b : BufRef)
  | removeProgram (h : CmdHdr) (slot : Nat)
  | registerModel (h : CmdHdr) (r : ModelRec)
  | removeModel (h : CmdHdr) (model : Nat)
  | setResidency (h : CmdHdr) (model : Nat) (cls : Nat) (weight : Nat)
  | registerAdapter (h : CmdHdr) (r : AdapterRec)
  | removeAdapter (h : CmdHdr) (adapter : Nat)
  | prefix_ (h : CmdHdr) (op : Nat) (model : Nat) (id : Nat) (b : BufRef)
  | registerTokeniser (h : CmdHdr) (slot : Nat) (b : BufRef) (splitMode : Nat) (vocab : List (List Byte)) (merges : List (Nat × Nat))
  | finetune (h : CmdHdr) (op : Nat) (adapter : Nat) (job : FtJob) (b : BufRef)
  | serviceSet (h : CmdHdr) (op : Nat) (set : Nat) (service : Dword) (port : Nat) (pfx : BitVec 128) (pfxLen : Nat) (qps : Nat)
  | getService (h : CmdHdr) (set : Nat)
  | submitTask (h : CmdHdr) (d : TaskDesc)
  | cancelTask (h : CmdHdr) (task : Nat)
  | getTaskState (h : CmdHdr) (task : Nat)
  | openEpoch (h : CmdHdr)
  | commit (h : CmdHdr) (epoch : Nat) (entries : List CommitEntry)
  | discard (h : CmdHdr) (epoch : Nat)
  | setReady (h : CmdHdr) (t : Handle)
  | submitCollective (h : CmdHdr) (d : CollDesc)
  | window (h : CmdHdr) (op : Nat) (w : Nat) (port : Nat) (gidIndex : Nat) (hostGid : BitVec 128) (va : Dword) (len : Dword) (rkey : Word)
  | region (h : CmdHdr) (op : Nat) (index : Nat) (base : Nat) (len : Nat) (rd : Bool) (wr : Bool) (domain : Nat)
  | retire (h : CmdHdr) (tier : Nat) (unit : Nat) (page : Nat) (bank : Bool)
  | unitRegs (h : CmdHdr) (op : Nat) (u : RegUnit) (offset : Nat) (value : Dword)
  | exportWindow (h : CmdHdr) (index : Nat) (base : Nat) (size : Nat) (rd : Bool) (wr : Bool)
  | setPowerCap (h : CmdHdr) (watts : Nat)
  | setProboscis (h : CmdHdr) (mask : Half) (activeMax : Nat)
  | domain (h : CmdHdr) (cd : Nat) (level : Nat) (on : Bool)
  | getPower (h : CmdHdr)
  | getThermal (h : CmdHdr) (mask : Word)
  | getRth (h : CmdHdr) (stack : Nat)
  | stageFirmware (h : CmdHdr) (b : BufRef) (info : BundleInfo) (readBackOk : Bool)
  | stagingEraseDone
  | activateFirmware (h : CmdHdr) (digest : BitVec 512)
  | getFirmware (h : CmdHdr)
  | takeOwnership (h : CmdHdr) (b : BufRef) (o : SObj)
  | tenant (h : CmdHdr) (op : Nat) (b : BufRef) (o : SObj)
  | getQuote (h : CmdHdr) (nonce : BitVec 256) (b : BufRef)
  | enterCocoon (h : CmdHdr) (b : BufRef)
  | getConditionReport (h : CmdHdr) (b : BufRef)
  | resetServiceCounters (h : CmdHdr) (b : BufRef) (o : SObj)
  | macsecKey (h : CmdHdr) (port : Nat) (tx : Bool) (an : Nat) (sci : Dword) (ssci : Word) (b : BufRef) (unwrapOk : Bool)
  | guestFirewall (h : CmdHdr) (index : Nat) (base : Nat) (size : Nat) (mask : Nat) (rate : Nat)
  | getErrorLog (h : CmdHdr) (first : Nat) (count : Nat) (b : BufRef)
  | injectError (h : CmdHdr) (unitType : Nat) (index : Nat) (cls : Nat) (kind : Nat)
  | link (h : CmdHdr) (l : Nat) (enable : Bool) (widthMax : Nat) (retrain : Bool)
  | setLysId (h : CmdHdr) (system : Word) (device : Nat) (torus : Bool)
  | writeRoutes (h : CmdHdr) (b : BufRef)
  | group (h : CmdHdr) (op : Nat) (id : Nat) (b : BufRef)
  | port (h : CmdHdr) (p : Nat) (enable : Bool) (modeSel : Nat)
  -- feeds and power (01, 14)
  | feedInRange (f : Nat)
  | feedOutOfRange (f : Nat)
  | feedOvervoltage (f : Nat)
  | feedReconnect (f : Nat)
  | feedMateOpen (f : Nat)
  | feedSwitchover
  | rstNAssert
  | rstNRelease
  | sag (orMv : Nat)
  | sagRecordDone (orMv : Nat)
  | feedReturn (f : Nat)
  | orNodeLow
  | firstStageStop
  | firstStageStart
  | powerMeasure (aMv : Nat) (bMv : Nat) (powerMw : Nat) (vpkgA : Nat)
  | capControlPeriod (mean1ms : Nat) (mean10ms : Nat)
  | fastLimit (windowW : Nat)
  | fastLimitRelease (windowW : Nat)
  | sustainedOver (mean1ms : Nat)
  | phaseFail (cd : Nat) (phase : Nat)
  | droop (cd : Nat) (sensor : Nat) (mv : Nat)
  | domainBudgetGrant (cd : Nat) (neighbourMa : Nat) (vpkgMa : Nat)
  | rampStep (cd : Nat)
  | engineGateClose (c : Nat) (e : Engine)
  | clusterGateIdle (cd : Nat)
  -- heat (15)
  | thermalZoneSample (zone : Nat) (samples : List Sample)
  | fastRise (channel : Nat)
  | thermalTrip (channel : Nat)
  | flowCompute (tachHz16 : Nat) (powerW : Nat)
  | lowFlowLeave
  | stackRestart (stack : Nat)
  | coolantAbsent
  | flowProbe (ev : ProbeEvent)
  | rthMeasure (stack : Nat) (tj0 : Int) (tc0 : Int) (p0 : Nat) (tj1 : Int) (tc1 : Int) (p1 : Nat)
  -- boot and firmware (13)
  | romEntry (i : RomInput)
  | bundleHash (componentsOk : Bool)
  | poweringDone (holdupUf : Nat)
  | guestAbsent
  | trainingDone (failedPackages : List Nat) (failedCores : List Nat)
  | fillDone
  | coreSelftest (failedClusters : List Nat) (repairedRows : Nat)
  | broadcastStart (chunks : Nat)
  | chunkWrite (die : Nat) (chunk : Nat) (missed : List Nat)
  | repairRequest (cd : Nat) (digestOk : Bool)
  | repairRoundTimeout (cd : Nat)
  | eclosion
  | lastGaspCopy (slot : Nat)
  | watchdogExpiry (p : Proc)
  | procRestartDone (p : Proc)
  | liveSwitchStep (p : Proc)
  | emergencyClear
  | rollback
  | svnAdvance
  | wavesStopped
  | resetSelftestDone (failedClusters : List Nat)
  -- faults and recovery (16)
  | clusterFence (cd : Nat) (event : Nat) (dispatcherAnswers : Bool)
  | deviceErrorReset (event : Nat)
  | errorRecordWrite (event : Nat) (unitType : Nat) (unitIndex : Nat)
  | serviceLifeCopy (index : Nat)
  -- identity, guest, cocoon (17)
  | counterBlockWrite
  | guestRequest (op : Nat) (addr : Nat) (len : Nat) (malformed : Bool) (data : List Byte)
  | cocoonWipeDone (slicesUnwiped : Nat) (packagesUnwiped : Half) (verifyFailures : Nat)
  | cocoonFlashDone
  | wipeCertificate
  -- rows added at the table's end
  | pauseTimeExpiry (p : Nat) (prio : Nat)
  | stormIgnoreEnd (p : Nat) (prio : Nat)
  | dhcpReply (p : Nat) (v6 : Bool) (addr : BitVec 128) (prefixLen : Nat) (router : Word)
  | arpReply (p : Nat) (ip : Word) (mac : BitVec 48)
  | neighbourAdvertisement (p : Nat) (ip : BitVec 128)
  | rdmaAcknowledgement (qp : Nat) (ok : Bool)
  | sessionLifetimeEnd (path : Path)
  | resetDelayExpiry
  | phaseEmergencyEnd
  | reportedFault (p : Proc)
  | housekeepingSupplyUp
  | outerWriteAcknowledge (m : Nat) (req : Nat) (busErrors : List (Nat × Byte))
  | sliceBurstComplete (c : Nat) (r : BurstRef)
  deriving DecidableEq, Repr

end Sys2Proof
end

