-- ==== Sys2Proof/Decode.lean ====
section
/-!
DEFINITION. The table's words and the words of core instructions. The table gives no row bits (every row's `fields` is empty and it
has no `fixed`), so no word of the table spells a command. An instruction word of R101 picks the command that stands for its fetch by
its opcode (R106).
-/

namespace Sys2Proof

/-- The command that a word spells by the table's bits: none, since no row of the table gives bits. -/
def decodeTableWord (_nbits _w : Nat) : Option Instr := none

/-- The fields of an instruction word but its opcode, R101. -/
def instrFields (w : BitVec 256) : IFields :=
  { mods := w.extractLsb' 8 16, dest := w.extractLsb' 24 64, srcA := w.extractLsb' 88 64, srcB := w.extractLsb' 152 64
    aux := w.extractLsb' 216 40 }

/-- The sequencer's instructions, by opcode (R106). -/
def sequencerCommand (c : Nat) (op : Nat) (f : IFields) : Option Instr :=
  match op with
  | 0x00 => some (.nop c f)
  | 0x01 => some (.endKernel c f)
  | 0x02 => some (.loop c f)
  | 0x03 => some (.waitq c f)
  | 0x04 => some (.drain c f)
  | 0x05 => some (.bara c f)
  | 0x06 => some (.barw c f)
  | 0x07 => some (.rdreg c f)
  | 0x08 => some (.pmark c f)
  | 0x09 => some (.chain c f)
  | _ => none

/-- The instructions of CUBE, MOVE and GATHER, by opcode (R106). -/
def cubeMoveCommand (c : Nat) (op : Nat) (f : IFields) : Option Instr :=
  match op with
  | 0x20 => some (.aclr c f)
  | 0x21 => some (.cmma c f)
  | 0x22 => some (.ccvt c f)
  | 0x23 => some (.accst c f)
  | 0x24 => some (.accld c f)
  | 0x80 => some (.mload c f)
  | 0x81 => some (.mstore c f)
  | 0xA0 => some (.gload c f)
  | 0xA1 => some (.gscat c f)
  | 0xA2 => some (.gpage c f)
  | _ => none

/-- The instructions of VEC, by opcode (R106). -/
def vecCommand (c : Nat) (op : Nat) (f : IFields) : Option Instr :=
  match op with
  | 0x40 => some (.vadd c f)
  | 0x41 => some (.vsub c f)
  | 0x42 => some (.vmul c f)
  | 0x43 => some (.vfma c f)
  | 0x44 => some (.vmax c f)
  | 0x45 => some (.vmin c f)
  | 0x46 => some (.vcvt c f)
  | 0x47 => some (.vcopy c f)
  | 0x48 => some (.vcmpgt c f)
  | 0x50 => some (.vexp c f)
  | 0x51 => some (.vlog c f)
  | 0x52 => some (.vrcp c f)
  | 0x53 => some (.vrsqrt c f)
  | 0x54 => some (.vtanh c f)
  | 0x55 => some (.verf c f)
  | 0x58 => some (.rowmax c f)
  | 0x59 => some (.rowsum c f)
  | 0x5A => some (.rowsumsq c f)
  | 0x60 => some (.viadd c f)
  | 0x61 => some (.vimul c f)
  | 0x62 => some (.vishr c f)
  | 0x63 => some (.viand c f)
  | 0x64 => some (.vimin c f)
  | 0x68 => some (.accadd c f)
  | 0x69 => some (.vrand c f)
  | _ => none

/-- The command that an instruction word picks on core `c`, by its Opcode [7:0] (R101, R106): none for a reserved or privileged value. -/
def coreCommand (c : Nat) (w : BitVec 256) : Option Instr :=
  let op := (w.extractLsb' 0 8).toNat
  let f := instrFields w
  (sequencerCommand c op f).orElse fun _ => (cubeMoveCommand c op f).orElse fun _ => vecCommand c op f

end Sys2Proof
end

