-- ==== Sys2Proof/Config.lean ====
section
/-!
DEFINITION. The free values: constants without a body for the values the spec leaves open. A meaning applies one to
`State.free`, the count of free values drawn so far (or to the operands the value depends on), so a claim about such
a value holds whatever it is. Log entry 4.
-/

namespace Sys2Proof

/-- The cycles a core has counted, CYCLE_CNT: it depends on timing, which the model leaves out. -/
opaque Config.freeCycles : Nat → Dword
/-- A byte that the spec leaves open, or that depends on timing (the queue depths of QDEPTH, R111). -/
opaque Config.freeByte : Nat → Byte
/-- Whether a die's code reports a word with more than two wrong bits, by codeword address and word: not guaranteed (R239). -/
opaque Config.dieSees : Nat → Nat → Bool
/-- Which content a codeword of an expired write holds: true for the new one (R237). -/
opaque Config.freeChoice : Nat → Bool
/-- The counter of the Philox block of one element of VRAND, from the instruction, the tile origin's row and column, and the element's
row and column: R96 names these inputs and gives no layout. -/
opaque Config.vrandCounter : IFields → Word → Word → Nat → Nat → Word × Word × Word × Word
/-- Which word of that block the element takes. -/
opaque Config.vrandPick : IFields → Word → Word → Nat → Nat → Fin 4
/-- Bytes of a signature or certificate the device makes (R571): the key is not part of the spec. -/
opaque Config.freeSignature : Nat → Nat → Byte
/-- Bytes written at manufacture that the spec does not give: public keys and signatures of the device's certificates (R568,
R571). The first number says which: 0 DIK, 1 DAK, 2 DWK, 3 device certificate, 4 DAK certificate, 5 hash of Grenian's key. -/
opaque Config.deviceByte : Nat → Nat → Byte
/-- An amount the spec leaves to the implementation or to timing (a count, a current, an address chosen by policy). -/
opaque Config.freeNat : Nat → Nat
/-- The token of a byte string that a vocabulary does not hold, from the vocabulary and the string (R316 gives none). -/
opaque Config.unknownToken : List (List Byte) → List Byte → Nat
/-- The index that sampling gives when no sum of R321 is a number, from the request, the logits, the position and word 1. -/
opaque Config.sampleIndex : ReqRec → List Word → Nat → Nat → Nat
end Sys2Proof
end

