-- ==== Sys2Proof/Machine/State.lean ====
section
/-!
DEFINITION. The state of the device as plain data: every register, memory, queue, table, mode and pin the spec
names, subsystem by subsystem, with the reset value of each as its field default. Tables are association lists
in rising key order; an absent key reads as the row's reset value. `State.reset` is the module right after reset:
state OFF, no feed in range (R18), everything at the spec's At-reset value or at the value the log names.
-/

namespace Sys2Proof.Machine

/-- A table keyed by numbers, keys strictly rising. -/
abbrev Tab (α : Type) := List (Nat × α)

/-! ### Memory (00 R12, 05, 06) -/

/-- The bytes of the device address map (slices, outer packages, scratchpad windows, mailbox region), the poison
marks of the carriers' units, injected symbol errors, and the page instars.
`cells`: addresses strictly rising, no byte equal to what an unlisted address reads as (zero).
`poison`: first address of each marked unit (32-byte row or slice codeword, 64-byte outer codeword; R63, R201, R239).
`flips`: error masks on stored symbols, keyed 128 × unit address + symbol (R200, R240).
`instars`: page base address to instar, zero not listed (R216, R253). -/
structure Mem where
  cells   : List Host.Cell := []
  poison  : List Nat := []
  flips   : Tab Byte := []
  instars : Tab Word := []
  deriving DecidableEq, Repr

/-! ### Cores (02, 03) -/

/-- An accumulator entry, R81 (EXACT) and R90 (F32). `flags` in the order of ACC96 bits [127:121] (R84):
bit 6 K_Limit, 5 Inexact_Lo, 4 Neg_Sat, 3 Pos_Sat, 2 Neg_Inf, 1 Pos_Inf, 0 Nan. -/
structure AccEntry where
  acc    : BitVec 96 := 0
  count  : Nat := 0
  flags  : BitVec 7 := 0
  f32    : Word := 0
  poison : Bool := false
  deriving DecidableEq, Repr

/-- Mode and anchor of an accumulator tile, R80, R81. -/
structure Tile where
  f32Mode : Bool := false
  anchor  : Int := 0
  deriving DecidableEq, Repr

/-- Why an instruction in an engine queue has not completed: it waits on the scoreboard (R65), on watch entries
(R220), for a reissue after BUSY, RETRY or TARGET_RESETTING (R264, R196, R342), on a free slot of its core (R194, R593), on a
remote or host answer, on the end of a proboscis operation (R255), on its chain (R128), or its transfer is done but not yet
released (R121). -/
inductive QStatus where
  | scoreboard | watch | busy | retry | resetting | slots | remote | host | store | chain | done
  deriving DecidableEq, Repr

/-- An instruction in an engine queue, with loop terms already added (R107, R108). -/
structure QItem where
  op     : Nat
  w      : IFields
  off    : Nat
  status : QStatus
  row    : Nat := 0     -- next row to transfer
  seq    : Nat := 0     -- place in program order
  tok    : Nat := 0     -- tokens that Tok_Step adds to the first token of a GPAGE (R123)
  plan   : List (Option Int) := []            -- address of each row of a long-running instruction; none: no transfer
  fails  : Bool := false                      -- a page descriptor past the planned rows is invalid (R125)
  pages  : List (Nat × Option Word) := []     -- source pages with their first instars, when judged at completion (R220)
  lasts  : Tab Word := []                     -- the instars of those pages with the last burst read from each (R220)
  desc   : Nat := 0                           -- the descriptor as read at the start (R119)
  tdesc  : Nat := 0                           -- the page-table descriptor of a GPAGE as read at the start
  tab    : Tab (BitVec 128 × Bool) := []      -- page descriptors read from a table of Kind 1 or 2, by entry, with their marks
  tpages : Tab Word := []                     -- pages of a remote page table that were read, with their instars (R217)
  deriving DecidableEq, Repr

/-- An instruction the sequencer has fetched and not yet dispatched. `iters` are the iteration indices of the
enclosing loops with their step fields, innermost first (R107). -/
structure SItem where
  op    : Nat
  w     : IFields
  off   : Nat
  iters : List (Nat × IFields) := []
  k     : Nat := 0               -- iterations of a LOOP begun
  count : Option Nat := none     -- iteration count of a LOOP once it is known
  deriving DecidableEq, Repr

/-- Why the sequencer holds dispatch: full queue (R57), WAITQ (R108), DRAIN and END (R109), BARW (R110), a LOOP
or RDREG that waits on the scoreboard (R107, R111), PMARK (R112). -/
inductive Hold where
  | none | stall (e : Engine) | waitq (e : Engine) (depth : Nat) | drain (mask : Nat) | barw (id : Nat) (scope : Bool)
  | endDrain | units | pmark
  deriving DecidableEq, Repr

/-- A page cursor of R124: descriptor slot, last entry used, its P, its descriptor's 128 bits. -/
structure Cursor where
  slot  : Nat
  entry : Nat
  p     : Nat
  desc  : BitVec 128
  deriving DecidableEq, Repr

/-- A static chain dispatched and not finished (R127, R128): tag, offset of its CHAIN, members as (offset, engine,
issue cycle), and whether chain cycle 0 has come. -/
structure ChainState where
  tag     : Nat
  off     : Nat
  members : List (Nat × Nat × IFields × Nat)   -- those not completed, in program order
  started : Bool := false
  deriving DecidableEq, Repr

/-- A watch-table entry of R217: source page (module × 2^48 + page base address, the own module as 2^15), instar
recorded with the first burst, hub time, the granules of the load that it belongs to and those of them not overwritten
since, the load itself for a reissue, and the query of a remote page's instar (R218). -/
structure WatchEntry where
  page     : Nat
  instar   : Option Word := none
  time     : Nat
  granules : List Nat
  left     : List Nat
  load     : QItem
  asked    : Bool := false
  answer   : Option Word := none
  deriving DecidableEq, Repr

/-- A load of instruction memory in progress, R132. -/
structure ImemLoad where
  kernel : Nat
  code   : List (BitVec 256)
  digest : BitVec 512
  deriving DecidableEq, Repr

/-- A core (R56). Scratchpad bytes live in `Mem` at the core's window address. -/
structure Core where
  fetching  : Bool := false          -- IMEM_CTL [1]
  task      : Nat := 0
  wave      : Nat := 0
  part      : Nat := 0
  tileRow   : Word := 0              -- TILE_ORIGIN
  tileCol   : Word := 0
  seed      : Dword := 0             -- TASK_SEED
  cubeFlags : BitVec 9 := 0          -- CUBE_FLAGS
  cycles    : Nat := 0               -- CYCLE_CNT, up to its last read (R112)
  accs      : Tab AccEntry := []     -- 256 entries
  tiles     : Tab Tile := []         -- T0 to T3
  nextOff   : Nat := 0
  stream    : List SItem := []
  hold      : Hold := .none
  qCube     : List QItem := []
  qVec      : List QItem := []
  qMove     : List QItem := []
  qGather   : List QItem := []
  seqNo     : Nat := 0                  -- place in program order of the next instruction dispatched
  baraWait  : List (Nat × Bool × Nat) := []   -- BARA ids, scopes and places that wait for earlier instructions
  arrived   : List (Nat × Bool) := []   -- barriers this core has arrived at and not passed
  released  : List (Nat × Bool) := []   -- barriers released by BARRIER_RELEASE
  mark      : Option Word := none
  ended     : Bool := false
  failed    : Option Nat := none        -- status of the error that ended the partition
  failOff   : Nat := 0xFFFF
  wrotePoison : Bool := false
  bank0     : List (BitVec 256) := []
  bank1     : List (BitVec 256) := []
  activeBank : Bool := false
  valid0    : Bool := false
  valid1    : Bool := false
  armed     : Bool := false
  loading   : Option ImemLoad := none
  kernActive   : Nat := 0xFFFF
  kernInactive : Nat := 0xFFFF
  descBase  : Nat := 0
  cursors   : Tab Cursor := []
  chains    : List ChainState := []     -- chains dispatched and not finished, oldest first (R128)
  watch     : List WatchEntry := []
  sliceSlots : List Nat := []           -- slice slots in use (R194), by request number
  outerSlots : List Nat := []           -- outer slots in use (R593)
  gatesClosed : List Engine := []       -- engine clock gates closed (R496)
  deriving DecidableEq, Repr

/-! ### Slice and outer controllers (05, 06) -/

/-- An outstanding burst request at a slice controller. -/
structure SReq where
  id    : Nat
  agent : Agent
  addr  : Nat
  len   : Nat
  write : Bool
  deriving DecidableEq, Repr

/-- A slice controller with its register block of R226. -/
structure Slice where
  pagesUsable : Nat := 192
  sparesFree  : Nat := 4
  bankRetired : Byte := 0
  uncorrectable : Nat := 0
  addressErr  : Nat := 0
  corrected   : Nat := 0
  scrubbed    : Tab Nat := []           -- page to the time at which its last scrub ended (R210)
  scrubFrom   : Nat := 0                -- time of the fill, from which a page not yet scrubbed counts
  lastLapMs   : Nat := 0
  laps        : Nat := 0
  refetches   : Nat := 0
  closingJudged : Nat := 0
  scrubEnable : Bool := true
  scrubShift  : Nat := 10
  spares      : List (Option Nat) := [none, none, none, none]   -- SLC_REMAP: page replaced by each spare
  sparesLost  : List Nat := []
  queue       : List SReq := []
  writeBacks  : List Nat := []          -- codeword addresses corrected and not yet written back (R203)
  recentCe    : Tab Nat := []           -- codeword address to the time of its write-back
  copying     : List (Nat × Nat) := []  -- page, spare of a retirement copy in progress (R212)
  retiring    : List Nat := []          -- pages in Retiring (R213)
  retired     : List Nat := []          -- pages that left the populated part
  scrubPos    : Nat := 0                -- next burst of the scrubber's walk
  lapStart    : Nat := 0
  deriving DecidableEq, Repr

/-- Refresh and cap step of one layer of one quadrant of one stack (R222, R224). -/
structure LayerSteps where
  refresh : Nat := 0
  cap     : Nat := 0
  refreshes : Nat := 0
  deriving DecidableEq, Repr

/-- A block request at an outer controller (R233 to R237). -/
structure OReq where
  id    : Nat
  agent : Agent
  addr  : Nat
  len   : Nat
  acc   : Access
  waiting : Bool := false                -- the Waiting bit of R338
  naks  : Nat := 0
  data  : List Byte := []                -- what its codewords held when the request was sent: for a read, those of its whole block
  marks : List Bool := []
  twin  : Option Nat := none             -- the read of the same block that it was sent with (R235)
  rewrote : List Nat := []                 -- its codewords that have been written since it was sent
  deriving DecidableEq, Repr

/-- A proboscis operation: port, the submitting core if it is on this module, the task's epoch, the record of R256
(64 bytes), its page claims once started, and the WRITE packet of a store from another module, which is acknowledged at the end
(R255). -/
structure ProbOp where
  port    : Nat
  core    : Option Nat
  epoch   : Nat
  record  : List Byte
  readPages  : List Nat := []
  writePages : List Nat := []
  reply   : Option LPacket := none
  deriving DecidableEq, Repr

/-- An outer controller and its package, with the register block of R268. -/
structure Outer where
  pagesRetired : Nat := 0
  degraded    : Bool := false
  checkPass   : Bool := false
  fillDone    : Bool := false
  trained     : Bool := false
  hold        : Bool := false
  derated     : Bool := false
  refreshStep : Nat := 0
  uncorrectable : Nat := 0
  busCorrected : Nat := 0
  dieCorrected : Nat := 0
  timeouts    : Nat := 0
  scrubbed    : Tab Nat := []           -- page to the time at which its last scrub ended (R210)
  scrubFrom   : Nat := 0                -- time of the fill, from which a page not yet scrubbed counts
  lastLapMs   : Nat := 0
  laps        : Nat := 0
  activeMax   : Nat := 16
  activeSaved : Option Nat := none      -- Active_Max set aside by R514
  scrubEnable : Bool := true
  scrubRate   : Nat := 3
  opsDone     : Nat := 0
  busyResponses : Nat := 0
  spares      : List (Option Nat) := List.replicate 16 none
  failed      : Bool := false
  issue       : List OReq := []         -- issue queue, 1,024 entries
  window      : List OReq := []         -- slotted, not yet sent
  sentReqs    : List OReq := []         -- slotted and sent
  runWrites   : Nat := 0                -- writes sent in the present run (R230)
  lastGroup   : Nat := 4                -- bank group last used; 4 for none
  openRows    : Tab Nat := []           -- channel-bank to open page
  writing     : Bool := false           -- bus direction
  pool        : Nat := 304              -- credits in the controller's pool
  holders     : Tab Nat := []           -- credits beyond (or short of) the cold-start number, by holder
  ops         : List ProbOp := []       -- accepted, not started
  running     : List ProbOp := []       -- started, not published
  grant       : Nat := 0                -- first rotation group granted
  postponed   : Tab Nat := []           -- postponed refreshes by channel-bank
  dieCeTime   : Tab Nat := []           -- last OUTER_CE_DIE report by channel-bank
  dieCeCount  : Tab Nat := []           -- words corrected since that report
  writeBacks  : List Nat := []
  faultTimes  : List Nat := []          -- times of timeouts and parity events (R559)
  retrains    : List Nat := []
  copying     : List (Nat × Nat) := []
  retiring    : List Nat := []
  retired     : List Nat := []
  scrubPos    : Nat := 0
  lapStart    : Nat := 0
  refreshes   : Nat := 0
  lateRecords : List (Nat × List Byte) := []   -- completion records that wait for the claims on their pages (R259, R263)
  deriving DecidableEq, Repr

/-! ### Tasks, epochs, placement (04, 07) -/

/-- State of a readiness entry, R150. -/
inductive RState where
  | free | pending | ready | specReady | broken
  deriving DecidableEq, Repr

/-- One generation of an instance, R150: Done, Expected, State, Poison of its producer. -/
structure GenSt where
  done     : Nat := 0
  expected : Nat := 0
  state    : RState := .pending
  poison   : Bool := false
  deriving DecidableEq, Repr

/-- A speculative generation of an instance inside an epoch (R170): its number in the epoch. -/
structure SpecGen where
  epoch : Nat
  num   : Nat
  st    : GenSt
  deriving DecidableEq, Repr

/-- A readiness entry, R150. `table` is 0 to 3 for a die table, 4 for the hub table. The generations that are still of
use are kept by number: the latest is the entry's Generation with its Done, Expected, State and Poison, and earlier
ones stand while a consumer waits for them (R152). Readers are counted from the admitted tasks. -/
structure Ready where
  handle   : Handle
  table    : Nat := 4
  gen      : Nat := 0
  gens     : Tab GenSt := []
  specs    : List SpecGen := []
  dataLost : Bool := false
  outside  : Bool := false               -- written by the host, the service engine or another module (R150)
  deriving DecidableEq, Repr

/-- Task states, R163. -/
inductive TState where
  | admitted | waiting | ready | running | done | specDone | committed | discarded | partialEnd | failed | cancelled
  deriving DecidableEq, Repr

/-- A wave in flight: number, first partition, partitions, cores per cluster, its cluster order, what each router
of the tree holds (node, tokens expected, tokens held), clusters started. -/
structure Wave where
  num    : Nat
  first  : Nat
  count  : Nat
  nc     : Nat
  cds    : List Nat
  started : List Nat := []
  finished : List Nat := []
  nodes  : List (Nat × Nat × List Token) := []
  moved  : List (Nat × Nat) := []        -- ranges of partitions moved to another wave (R183, R564)
  deriving DecidableEq, Repr

/-- An input as captured at admission (R152): the generation, committed or of the task's own epoch. -/
structure InCap where
  handle : Handle
  gen    : Nat
  spec   : Bool := false
  deriving DecidableEq, Repr

/-- An output with the generation that its admission recorded. -/
structure OutCap where
  handle : Handle
  gen    : Nat
  deriving DecidableEq, Repr

/-- An admitted task (R149, R154, R163) with the facts of its journal record (R184). -/
structure Task where
  id       : Nat
  desc     : TaskDesc
  state    : TState := .admitted
  status   : Nat := 0
  parts    : Nat
  gridCols : Nat := 1
  tileRows : Nat := 0
  tileCols : Nat := 0
  inputs   : List InCap := []
  outputs  : List OutCap := []
  cds      : List Nat                   -- placed clusters, in cluster order
  width    : Nat := 0
  farBudget : Nat := 1
  kernel   : Nat := 0
  loadClass : Nat := 0
  limitMs  : Nat := 2000
  restartable : Bool := false
  coll     : Bool := false              -- a collective (R386)
  passed   : Nat := 0                   -- times a later task fired first (R156)
  nextPart : Nat := 0
  nextWave : Nat := 0
  waves    : List Wave := []
  doneCount : Nat := 0                  -- partitions completed, those below Part_First included
  doneRanges : List (Nat × Nat) := []   -- completed partitions as [first, last) ranges
  partsFailed : Nat := 0
  lastMark : Nat := 0xFFFFFFFF
  wavesDone : Nat := 0
  firstFailed : Nat := 0xFFFFFFFF
  firstStatus : Nat := 0
  errorRef : Nat := 0xFFFFFFFF
  fenced   : Nat := 0
  stopping : Bool := false              -- no further wave starts
  timedOut : Bool := false
  cancelled : Bool := false
  poison   : Bool := false
  admitTime : Nat := 0
  endTime  : Nat := 0
  readyFrom : Option Nat := none        -- when it became READY, while it is (R176)
  kvHeld   : List Nat := []             -- KV pages that it captured (R290)
  appends  : List (Nat × Nat) := []     -- contexts whose tables are still to be prepared, and for how many rows (R291, R292)
  kvScale  : Option Nat := none         -- Scale of the pages allocated for it (R270)
  deriving DecidableEq, Repr

/-- A speculation epoch, R168; `commit` holds an admitted COMMIT with its entries and the command to answer, and
`commitGens` the generations that its admission recorded (R171). -/
structure Epoch where
  doomed  : Bool := false
  service : Bool := false                -- opened by the service engine for a pass or an optimiser step (R319, R327)
  commit  : Option (List CommitEntry × CmdHdr) := none
  commitGens : List OutCap := []
  deriving DecidableEq, Repr

/-- A shadow page, R169: its address, home page, epoch, and the instance it belongs to. -/
structure Shadow where
  epoch : Nat
  handle : Handle
  home  : Nat
  page  : Nat
  size  : Nat
  gen   : Nat := 0                       -- generation of the home content that it copies
  copied : Bool := false
  deriving DecidableEq, Repr

/-- A placed shard or replica of a tensor instance (R177). -/
structure Placed where
  handle  : Handle
  shard   : Nat
  replica : Nat
  addr    : Nat
  bytes   : Nat
  deriving DecidableEq, Repr

/-- The parsed parts of a registered image that the device acts on (R134 to R147). -/
structure Kernel where
  id : Nat
  code : List (BitVec 256)
  descFirst : Nat
  descCount : Nat
  farBudget : Nat
  digest : BitVec 512
  deriving DecidableEq, Repr

structure TensorDecl where
  id : Nat
  rank : Nat
  format : Nat
  cls : Nat
  dims : List Nat
  sizeBytes : Nat
  valueBound : Nat
  indexes : Nat
  deriving DecidableEq, Repr

structure Template where
  id : Nat
  kernel : Nat
  inputs : List Nat
  outputs : List Nat
  specCapable : Bool
  restartable : Bool
  gridRows : Nat
  gridCols : Nat
  tileRows : Nat
  tileCols : Nat
  widthMin : Nat
  widthMax : Nat
  limitMs : Nat
  loadClass : Nat
  affinity : Nat
  deriving DecidableEq, Repr

structure PlanEntry where
  tensor : Nat
  template : Nat
  split : Nat
  tier : Nat
  replicate : Nat
  affinity : Nat
  deriving DecidableEq, Repr

/-- A registered program. -/
structure Program where
  digest : BitVec 512
  nondet : Bool
  kernels : List Kernel
  tensors : List TensorDecl
  templates : List Template
  descs : List (BitVec 512)
  plan : List PlanEntry
  deriving DecidableEq, Repr

/-- A cached verification result, R144: key digests, and the report (none for a pass). Newest first. -/
structure CacheRow where
  image : BitVec 512
  bundle : BitVec 512
  report : Option (BitVec 128)
  deriving DecidableEq, Repr

/-- A collective in progress on this member (R386 to R391). -/
structure Coll where
  task : Nat
  desc : CollDesc
  members : List Nat
  rank : Nat
  fired : Bool := false
  matched : Bool := false
  sentUnacked : List (Nat × Nat) := []     -- (step, rank) of chunks sent and not acknowledged
  early : List (Nat × Nat) := []           -- chunks refused as early
  received : List (Nat × Nat × List Byte × List Bool) := []   -- step, rank, data, mark of each byte
  aborted : Bool := false
  deriving DecidableEq, Repr

/-- A page of a KV pool in the hub's allocator: its bytes and reference count (R290), and the Instar, Scale, Log2_Size and Format of its
descriptors (R286, R294). -/
structure KvPage where
  bytes  : Nat
  count  : Nat := 1
  instar : Nat
  scale  : Nat
  log2   : Nat
  format : Nat
  deriving DecidableEq, Repr

/-- A fact of the placer's demand input (R176): a template was READY and not running, or started a wave, from `start` to `stop`. -/
structure Demand where
  slot     : Nat
  template : Nat
  start    : Nat
  stop     : Nat
  deriving DecidableEq, Repr

/-- The scheduler core's and dispatchers' tables. -/
structure Work where
  programs  : Tab Program := []
  cache     : List CacheRow := []
  ready     : List Ready := []
  tasks     : Tab Task := []
  nextTask  : Nat := 1
  journal   : Tab Nat := []              -- ring slot to Task_Id of the record it holds
  journalNext : Nat := 0
  heldJournal : List (Nat × Nat) := []   -- die and task of records that die dispatchers hold while the scheduler core restarts (R480)
  epochs    : Tab Epoch := []
  lastEpoch : Nat := 0
  shadows   : List Shadow := []
  placed    : List Placed := []
  kvPages   : Tab KvPage := []           -- the allocator's KV pages by their base (R290)
  readyTimes : List Demand := []         -- times that templates were READY and not running, of the last 10 ms (R176)
  waveTimes : List Demand := []          -- starts of their waves (R176)
  colls     : List Coll := []
  groups    : Tab (List Nat) := []
  firingOrder : List Nat := []
  deriving DecidableEq, Repr

/-! ### Clusters: routers, dispatchers, domains, control cores (09, 13, 14) -/

/-- Domain states, R508. -/
inductive DState where
  | off | waitBudget | rampUp | on | rampDown | fenced
  deriving DecidableEq, Repr

/-- A clock setting: a division, or one cycle in `n` skipped (R493, R513). -/
inductive Clk where
  | full | skip (n : Nat) | div (n : Nat) | stopped
  deriving DecidableEq, Repr

/-- A cluster with its silk router (R357), dispatcher, voltage domain (R519) and control core. -/
structure Cluster where
  fenced     : Bool := false
  inReset    : Bool := true
  linkFailed : BitVec 4 := 0
  linkSpare  : BitVec 4 := 0             -- links that run on their spare wires (R344)
  replays    : Nat := 0
  resettingAnswers : Nat := 0
  fencedAnswers : Nat := 0
  streak     : Tab Nat := []             -- consecutive resends by direction
  delivered  : Nat := 0                  -- requests delivered before the reset and unanswered (R341)
  wave       : Option (Nat × Nat) := none
  heartbeat  : Nat := 0
  dom        : DState := .off
  domPending : Bool := false
  gateOpen   : Bool := false
  gateByCmd  : Bool := false             -- closed by DOMAIN (R496)
  gateClosing : Bool := false
  gatePending : Bool := false
  f          : Nat := 20
  phases     : BitVec 6 := 0x3F
  setPoint   : Nat := 0                  -- mV
  target     : Nat := 0                  -- set point from the voltage-frequency table, mV
  droopEvents : Nat := 0
  droopBad   : Tab Nat := []             -- consecutive out-of-range samples by sensor
  droopDropped : List Nat := []
  ramp       : Nat := 0
  preRaise   : Nat := 0
  clk        : Clk := .full
  goal       : Clk := .full              -- the setting the divider ramp runs toward
  fwBitmap   : List Nat := []            -- broadcast chunks accepted
  fwRounds   : Nat := 0
  fwRunning  : Bool := false
  restarts   : List Nat := []
  restarting : Bool := false
  deriving DecidableEq, Repr

/-! ### Channels (09) -/

/-- A word waiting in a channel, R347. -/
structure CWord where
  kind : WordKind
  data : List Byte
  poison : Bool
  deriving DecidableEq, Repr

/-- A channel with its register block of R356. -/
structure Channel where
  highMark  : Nat := 0
  lowMark   : Nat := 0
  maxPacket : Nat := 1
  log2Depth : Nat := 4
  enable    : Bool := false
  words     : List CWord := []
  opens     : List Nat := []             -- producers of waiting open requests, oldest first
  openBy    : Option Nat := none         -- producer of the open packet
  openLeft  : Nat := 0                   -- words of the reservation of the open packet (R349) not yet received
  reading   : Bool := false              -- the consumer has begun a packet
  pressure  : Bool := false
  draining  : Option Nat := none         -- producer of the packet being discarded (R353)
  resetSeen : Bool := true
  wordsFlushed : Nat := 0
  packetsAborted : Nat := 0
  pressureEvents : Nat := 0
  deriving DecidableEq, Repr

/-! ### Lysdel (10) -/

/-- Link training states, R368, in the numbering of the register. -/
inductive LState where
  | disabled | down | detect | equalise | deskew | identify | up | retrain | quarantine | draining | mismatch
  deriving DecidableEq, Repr

/-- The part of a packet received so far: its bytes, the mark of each, and the flits that brought them (R362, R363). -/
structure RxPart where
  bytes : List Byte := []
  marks : List Bool := []
  flits : Nat := 0
  deriving DecidableEq, Repr

/-- A Lysdel link with its registers (R395), replay, credits, training and quarantine state. -/
structure LinkSt where
  state     : LState := .down
  partnerId : Nat := 0
  partnerKnown : Bool := false
  partnerLink : Nat := 0
  width     : Nat := 0
  lanesUsed : Byte := 0
  reversed  : Bool := false
  polarity  : Byte := 0
  pendingOn : Bool := false
  widthMax  : Nat := 8
  retrainBit : Bool := false
  enable    : Bool := true
  fecCorrected : Nat := 0
  fecUncorrectable : Nat := 0
  crcErrors : Nat := 0
  replays   : Nat := 0
  malformed : Nat := 0
  quarantines : Nat := 0
  retrains  : Nat := 0
  agedOut   : Nat := 0
  noRoute   : Nat := 0
  failures  : Nat := 0                   -- consecutive failed attempts
  lanesSeen : Nat := 0
  txSeq     : Nat := 0                   -- next Seq to send
  txBuffer  : List Flit := []            -- unacknowledged flits, oldest first
  txWait    : List Flit := []            -- flits that wait for a credit or for room in the replay buffer
  rxSeq     : Nat := 0                   -- next Seq expected
  rxDropping : Bool := false             -- dropping until the expected flit arrives
  rxPart    : Tab RxPart := []           -- partly received packet by VL × 2 + class
  rxSkip    : List Nat := []             -- VL × 2 + class whose packet is being dropped
  txCredits : Tab Nat := []              -- credits spent by VL × 2 + class since UP
  rxTotals  : Tab Nat := []              -- partner's credit totals seen
  rxDone    : List (LPacket × Nat) := []   -- whole packets received and not yet delivered, with their flits
  rxUsed    : Tab Nat := []              -- receive buffers in use by VL × 2 + class
  rxReturned : Tab Nat := []             -- credits returned to the partner
  badFrames : List Nat := []             -- times of uncorrectable frames
  violations : List Nat := []
  lastGood  : Nat := 0
  backoffMs : Nat := 10
  upSince   : Nat := 0
  offered   : Bool := false
  deriving DecidableEq, Repr

/-- A remote request tracked by a die, R381, R384. -/
structure Remote where
  die   : Nat
  tag   : Nat
  core  : Nat
  engine : Engine
  pkt   : LPacket
  alt   : Bool := false
  dest  : Nat := 0                       -- scratchpad address that the data of a read goes to
  seq   : Nat := 0                       -- the instruction, by its place in program order
  entry   : Option Nat := none           -- the page-table entry that a READ fetches for a GPAGE (R123)
  held  : Option Nat := none            -- status of a NAK that waits for its reissue
  deriving DecidableEq, Repr

/-- An export window, R382. -/
structure Export where
  base : Nat
  size : Nat
  rd : Bool
  wr : Bool
  deriving DecidableEq, Repr

/-- The Lysdel attachment of the module. -/
structure Lysdel where
  links   : Tab LinkSt := []
  systemId : Word := 0
  deviceId : Nat := 0
  torus   : Bool := false
  routes  : Tab Byte := []               -- Dest to route entry, invalid (0) not listed
  exports : Tab Export := []
  remotes : List Remote := []
  restTags : List (Nat × Nat × Nat) := []   -- die, tag, time it ended
  nextTag : Nat := 0
  deriving DecidableEq, Repr

/-! ### Ethernet and RDMA (11) -/

/-- Whose RDMA WRITE it is: a store of Kind 2, a run of stream entries, or the mailbox engine's. -/
inductive OutWork where
  | store (core : Nat) (e : Engine) (seq : Nat)
  | stream (request : Nat) (num count : Nat)
  | mailbox
  deriving DecidableEq, Repr

/-- A device-originated RDMA WRITE, kept until its acknowledgement. -/
structure OutWrite where
  work : OutWork
  va   : Nat
  imm  : Option Nat := none
  data : List Byte
  deriving DecidableEq, Repr

/-- A device-originated RDMA READ of one row of a Kind 2 load: the instruction, the host address, the length and the
scratchpad address its data goes to. -/
structure OutRead where
  core : Nat
  engine : Engine
  seq  : Nat
  va   : Nat
  len  : Nat
  dest : Nat
  entry : Option Nat := none             -- the page-table entry that it fetches for a GPAGE (R123)
  deriving DecidableEq, Repr

/-- Port states, R397. -/
inductive PState where
  | disabled | down | up | draining
  deriving DecidableEq, Repr

/-- Address states of R405 and R406. -/
inductive AddrState where
  | none | probing (left : Nat) | ok | withdrawn
  deriving DecidableEq, Repr

/-- DHCP client states, R406. -/
inductive Dhcp where
  | off | selecting | bound | renewing | rebinding
  deriving DecidableEq, Repr

/-- An installed MACsec association: direction, AN, SCI, SSCI, next packet number, who installed it (R578). -/
structure MacsecSa where
  tx : Bool
  an : Nat
  sci : Dword
  ssci : Word
  pn : Nat
  byTenant : Bool
  deriving DecidableEq, Repr

/-- An Ethernet port with its register block of R421. -/
structure PortSt where
  state     : PState := .down
  pendingOn : Bool := false
  enable    : Bool := true
  modeSel   : Nat := 1
  ipv4Source : Nat := 2
  ipv6Source : Nat := 2
  pathMtuMax : Nat := 2
  macsecEnable : Bool := false
  replayWindow : Nat := 64
  vlanId    : Nat := 0
  pfcMask   : Byte := 0x08
  pcpData   : Nat := 3
  pcpCnp    : Nat := 6
  pcpCtl    : Nat := 0
  dscpData  : Nat := 26
  dscpCnp   : Nat := 48
  localFault : Bool := false
  remoteFault : Bool := false
  linkLocalOk : Bool := false
  ipv4      : Word := 0
  ipv4Len   : Nat := 0
  ipv4Router : Word := 0
  ipv4State : AddrState := .none
  ipv6      : BitVec 128 := 0
  ipv6Len   : Nat := 0
  ipv6Router : BitVec 128 := 0
  ipv6State : AddrState := .none
  dhcp4     : Dhcp := .off
  dhcp6     : Dhcp := .off
  clockOffered : Bool := false
  fecCorrected : Nat := 0
  fecUncorrected : Nat := 0
  fcsErrors : Nat := 0
  dropSize  : Nat := 0
  dropFiltered : Nat := 0
  dropFull  : Nat := 0
  dropIcrcPkey : Nat := 0
  icvFail   : Nat := 0
  replayDrop : Nat := 0
  untaggedDrop : Nat := 0
  txAn      : Nat := 0
  cnpRx     : Nat := 0
  cnpTx     : Nat := 0
  rnrNakTx  : Nat := 0
  qpErrors  : Nat := 0
  rclAdd    : Nat := 2
  rclMin    : Nat := 1
  rclHold   : Nat := 10
  rclStep   : Nat := 5
  rclRec    : Nat := 3
  rclCut    : Nat := 2
  occupancy : Tab Nat := []              -- bytes held by PFC priority; key 8 for the shared part
  pfcSending : List Nat := []            -- priorities held paused by this port
  paused    : Tab Nat := []              -- priorities the partner holds paused, with the time it began
  ignoring  : List Nat := []             -- priorities whose pause is ignored (R402)
  sas       : List MacsecSa := []
  pnExhausted : Bool := false
  neighbours : List (BitVec 128 × BitVec 48) := []
  echoTimes : List Nat := []
  readBytes : Nat := 0                   -- RDMA READ response data outstanding (R419)
  readWait  : List (Nat × OutRead) := [] -- reads that wait for room under that limit, with their queue pair
  deriving DecidableEq, Repr

/-- Queue-pair kinds of R410. -/
inductive QKind where
  | mgmt | service (set : Nat) | window (w : Nat)
  deriving DecidableEq, Repr

/-- Queue-pair states of R410. -/
inductive QState where
  | reset | init | rtr | rts | error
  deriving DecidableEq, Repr

/-- An inbound request that is held, or waits behind one (R415): 0 READ, 1 WRITE, 2 SEND. `resetting` says that the first one was
answered TARGET_RESETTING. -/
structure Held where
  op    : Nat
  rkey  : Word := 0
  va    : Nat := 0
  len   : Nat
  data  : List Byte := []
  resetting : Bool := false
  deriving DecidableEq, Repr

/-- A queue pair. Rate is in units of 1/1024 Gbit/s (R417). -/
structure Qp where
  kind    : QKind
  port    : Nat
  gidIndex : Nat := 0
  state   : QState := .init
  domain  : Nat := 0
  mtu     : Nat := 4096
  remoteQpn : Nat := 0
  remoteGid : BitVec 128 := 0
  timeouts : Nat := 0
  rtuTries : Nat := 0
  reqTries : Nat := 0
  rate    : Nat := 409600
  lastCut : Nat := 0
  lastCnp : Option Nat := none
  held    : List Held := []              -- the held request and those behind it, oldest first
  outstanding : List OutWrite := []      -- RDMA WRITEs the device has sent and not seen acknowledged, oldest first
  reads   : List OutRead := []           -- RDMA READs the device has sent and not seen answered, oldest first
  deriving DecidableEq, Repr

/-- A memory region, R413. -/
structure Region where
  registered : Bool := false
  base : Nat := 0
  len : Nat := 0
  rd : Bool := false
  wr : Bool := false
  domain : Nat := 0
  tag : Nat := 0
  deriving DecidableEq, Repr

/-- The Ethernet and RDMA attachment. -/
structure Net where
  ports   : Tab PortSt := []
  qps     : Tab Qp := []
  resting : List (Nat × Nat) := []       -- freed queue-pair index, time (R412)
  regions : Tab Region := []
  rxFree  : Nat := 4096                  -- free receive buffers (R411)
  deriving DecidableEq, Repr

/-! ### The on-device service (08) -/

/-- State of a registered model (R298, R430). -/
inductive MState where
  | loading | ready | loadFailed | removing
  deriving DecidableEq, Repr

/-- A registered model. -/
structure Model where
  rec_   : ModelRec
  cls    : Nat
  weight : Nat
  state  : MState := .loading
  served : List Nat := []                -- times sequences were served
  passTimes : List Nat := []             -- times of its passes
  lastServed : Nat := 0
  lastMove : Nat := 0                    -- time of the last promotion or demotion
  outrankSince : Option Nat := none
  image  : List (Nat × Nat) := []        -- the image in outer memory: addresses and bytes of its pieces, in order (R301)
  passesRun : Nat := 0
  tokensOut : Nat := 0
  deriving DecidableEq, Repr

/-- One parameter of an adapter in training: FP32 master weight and moments m and v (R326). -/
structure AdamElem where
  w : Word
  m : Word
  v : Word
  deriving DecidableEq, Repr

/-- A registered adapter. -/
structure Adapter where
  rec_ : AdapterRec
  removing : Bool := false
  staged : Bool := false
  image : List (Nat × Nat) := []         -- its image in outer memory (R301)
  slices : List (Nat × Nat) := []        -- where it is staged (R324)
  lastUsed : Nat := 0
  step : Nat := 0
  elems : List AdamElem := []            -- master weights and moments, once a step has been committed (R326)
  deriving DecidableEq, Repr

/-- A tokeniser image, R316. -/
structure Tokeniser where
  splitMode : Nat
  vocab  : List (List Byte)
  merges : List (Nat × Nat)
  deriving DecidableEq, Repr

/-- An open request (R308 to R315). -/
structure Request where
  qp      : Nat
  rec_    : ReqRec
  assembling : Bool := false
  context : Nat
  tokens  : List Nat := []               -- input tokens once tokenised
  tokenising : Bool := false             -- a place of R317 is held
  tokImage : Option Tokeniser := none    -- the image it finishes on, when its slot got another one
  waitingTok : Bool := false
  waitingModel : Bool := false
  chunked : Nat := 0                     -- input tokens already prefilled
  produced : List Nat := []
  entries : List (Nat × List Byte) := [] -- stream entries queued (not yet written), with their numbers
  nextEntry : Nat := 0                   -- number of the next entry
  written : Nat := 0
  credits : Nat := 0
  creditSince : Option Nat := none
  inPass  : Bool := false
  readySince : Option Nat := none
  cancelled : Bool := false
  ended   : Bool := false
  deriving DecidableEq, Repr

/-- A page table of a sequence, R287: the pool (tensor and shard of a program) whose pages it names, the base of each committed entry, the
pages of its shadow entry (R292), and the entries whose pages lie on a host window with what the pages hold (R182). -/
structure KvTable where
  slot   : Nat
  pool   : Nat
  shard  : Nat
  bases  : List Nat := []
  shadow : List Nat := []
  saved  : Tab (KvPage × List Byte) := []
  deriving DecidableEq, Repr

/-- A context, R310, R314. -/
structure Context where
  model : Nat
  length : Nat := 0
  kept  : Bool := false
  open_ : Bool := true
  lastUse : Nat := 0
  spilled : Bool := false
  prefixId : Option Nat := none
  pages : List (Nat × Nat) := []          -- page plan of its tables: Log2_Size, Tokens (R287, R289)
  tables : List KvTable := []            -- its K and V tables, which follow that plan (R287)
  prefixPages : Nat := 0                 -- entries that reference a shared prefix (R300)
  shadow : Option (Nat × Nat) := none    -- epoch and tokens of the shadow entry (R292)
  deriving DecidableEq, Repr

/-- A registered shared prefix, R300: its tokens, page plan and the pages that hold it. -/
structure Prefix where
  model : Nat
  id    : Nat
  tokens : List Nat
  plan  : List (Nat × Nat) := []
  tables : List KvTable := []
  deriving DecidableEq, Repr

/-- A pass in flight (R318, R319). -/
structure Pass where
  model : Nat
  seqs  : List (Nat × Nat)                -- queue pair, Request_Id
  epoch : Nat
  retried : Bool := false
  adapters : List Nat := []
  index : List Word := []                 -- adapter slot of each row, or −1: the INT32 index tensor of R324
  working : Tab (List Byte) := []         -- working copies of its adapters as captured at its admission (R327)
  ops   : List (Nat × Nat) := []          -- weight matrices of a cool model and the proboscis operations still to issue for each (R305)
  deriving DecidableEq, Repr

/-- A fine-tuning job, R326, R327. -/
structure Ft where
  job : FtJob
  step : Nat := 0
  retried : Bool := false
  stopped : Bool := false
  deriving DecidableEq, Repr

/-- A service set, R441, R352. -/
structure SvcSet where
  service : Dword
  port : Nat
  pfx : BitVec 128
  pfxLen : Nat
  qpMax : Nat
  deriving DecidableEq, Repr

/-- The service engine's tables and telemetry counters (R297 to R327, R430). -/
structure Service where
  models   : Tab Model := []
  adapters : Tab Adapter := []
  prefixes : List Prefix := []
  tokenisers : Tab Tokeniser := []
  requests : List Request := []
  contexts : Tab Context := []
  nextContext : Nat := 0
  passes   : Tab Pass := []
  nextPass : Nat := 0
  fts      : Tab Ft := []
  sets     : Tab SvcSet := []
  dropped  : Nat := 0
  emptyRows : Nat := 0
  nanLogits : Nat := 0
  creditsIgnored : Nat := 0
  deriving DecidableEq, Repr

/-! ### Control space and mailboxes (12) -/

/-- A fetched command (R431): where it came from, opcode, Seq, Wall_Time, fetch time. -/
structure Cmd where
  hdr   : CmdHdr
  op    : Nat
  wall  : Dword
  time  : Nat
  discard : Bool := false                -- its response is discarded (R435)
  started : Bool := false                -- it has started (R434)
  hostOwned : Bool := false              -- Own of its buffer read another value than DEVICE at the fetch (R445)
  deriving DecidableEq, Repr

/-- A completed response that waits to be written (R432). -/
structure Resp where
  hdr    : CmdHdr
  op     : Nat
  status : Nat
  effect : Bool
  detail : Word
  results : List Byte
  endTime : Nat
  deriving DecidableEq, Repr

/-- A command whose data goes to a buffer in host memory by RDMA WRITE and that waits for the acknowledgement before it hands
the buffer back and is answered (R447). -/
structure Back where
  qp      : Nat
  hdr     : CmdHdr
  op      : Nat
  window  : Nat
  buffer  : Nat
  done    : Nat
  status  : Nat
  effect  : Bool
  detail  : Word
  results : List Byte
  closes  : Bool := false                -- the window ends with the answer (R583)
  deriving DecidableEq, Repr

/-- A RETIRE command in progress: its tier, the slice or package, the pages that have not left, whether it retires a bank. -/
structure Retiring where
  hdr   : CmdHdr
  tier  : Nat
  unit  : Nat
  pages : List Nat
  bank  : Bool
  deriving DecidableEq, Repr

/-- A window-table entry, R444. -/
structure Win where
  state : Nat := 0                       -- 0 CLOSED, 1 OPENING, 2 UP, 3 DOWN
  qp    : Nat := 0
  port  : Nat := 0
  gidIndex : Nat := 0
  hostGid : BitVec 128 := 0
  va    : Dword := 0
  len   : Dword := 0
  rkey  : Word := 0
  deriving DecidableEq, Repr

/-- The registers of the DCS that only firmware rewrites, as the hub front end holds them (R422): DEV_STATUS, DEV_HUB_TIME, the alerts,
ERR_LOG_STATE and the window table. -/
structure DcsImage where
  status : Nat
  hubTime : Nat
  alerts : Nat
  mask : Nat
  errors : Nat
  windows : Tab Win
  deriving DecidableEq, Repr

/-- The Device Control Space and the rings. -/
structure Ctl where
  alertPending : Dword := 0
  alertMask : Dword := 8
  cmdTail : Nat := 0
  cmdHead : Nat := 0
  rspTail : Nat := 0
  rspHead : Nat := 0
  holder  : Option Nat := none           -- queue-pair index of the ring holder
  refused : Nat := 0
  resetting : Bool := false              -- RING_CTL Reset reads 1
  inProgress : List Cmd := []
  completed : List Resp := []
  windows : Tab Win := []
  i2cGo   : Bool := false
  i2cDone : Bool := false
  i2cPage : Nat := 0
  i2cCmd  : List Byte := List.replicate 256 0
  i2cRsp  : List Byte := List.replicate 256 0
  i2cBuf  : Tab Byte := []               -- I²C object buffer, zero not listed
  i2cLatch : List Byte := []             -- bytes of the last read
  wallLast : Dword := 0
  wallTime : Nat := 0
  telGen  : Nat := 0
  telTime : Nat := 0
  telemetry : List (Nat × List Byte) := []   -- sections at the last rewrite
  backs   : List Back := []
  opening : Tab CmdHdr := []             -- window to the WINDOW command that waits for its connection
  ownOdd  : Nat := 0                     -- descriptors met with another value of Own (R445)
  image   : Option DcsImage := none      -- what the hub front end last saw written before a restart of the scheduler core (R439)
  recorded : List (Bool × Nat) := []     -- writes of ALERT_MASK (true) and ALERT_PENDING that wait for the scheduler core (R422)
  retires : List Retiring := []          -- RETIRE commands in progress (R212, R213)
  serial  : Dword := 0
  mac     : BitVec 48 := 0
  stepping : Byte := 0
  deriving DecidableEq, Repr

/-! ### Firmware and boot (13) -/

/-- An error record, R551. -/
structure ErrRec where
  index : Nat
  time  : Nat
  wall  : Dword := 0
  event : Nat
  cls   : Nat
  status : Nat := 0
  unitType : Nat := 0
  unitIndex : Nat := 0
  task  : Nat := 0
  count : Nat := 1
  offset : Nat := 0xFFFF
  partner : Nat := 0
  address : Nat := 0
  detail : Nat := 0
  deriving DecidableEq, Repr

/-- A critical-state record, R518: what its fields hold; feeds are (A, B, OR node) in mV. -/
structure GaspRec where
  before  : Nat := 0
  holdupLow : Bool := false
  trip    : Bool := false
  time    : Nat := 0
  wall    : Dword := 0
  wallTime : Nat := 0
  atSag   : Nat × Nat × Nat := (0, 0, 0)
  atEnd   : Nat × Nat × Nat := (0, 0, 0)
  powerMw : Nat := 0
  capLevel : Nat := 0
  journalNext : Nat := 0
  errNext : Nat := 0
  digestLo : Nat := 0
  temps   : List (Int × Int) := []       -- per stack: hottest logic diode, hottest layer
  errors  : List ErrRec := []            -- newest first, at most 251
  deriving DecidableEq, Repr

/-- Device states, R18. -/
inductive DevState where
  | off | powering | rom | training | filling | selftest | eclosion | ready | computeReset | cocoon | saving | tripped
  deriving DecidableEq, Repr

/-- Slot states, R459. -/
inductive SlotState where
  | erased | staging | staged | active | failed
  deriving DecidableEq, Repr

/-- A flash slot and the bundle it holds. -/
structure Slot where
  state : SlotState := .erased
  seq   : Option Nat := none
  bundle : Option BundleInfo := none
  deriving DecidableEq, Repr

/-- The image that ROM last booted. -/
inductive Image where
  | none | slotA | slotB | recovery
  deriving DecidableEq, Repr

/-- An activation, R474, R475. -/
inductive Activation where
  | idle | deferred (digest : BitVec 512) | switching (left : List Proc) | paused (left : List Proc)
  deriving DecidableEq, Repr

/-- The parts of a retirement table entry, R215, R249, R345, R506. -/
inductive Retired where
  | sliceRemap (c page spare : Nat) | slicePage (c page : Nat) | sliceBank (c bank : Nat)
  | outerRemap (m page spare : Nat) | outerPage (m page : Nat)
  | fence (cd : Nat) | package (m : Nat) | phase (cd k : Nat)
  deriving DecidableEq, Repr

/-- The firmware state: boot, flash, fuses, processors, activation, resets, profile. -/
structure Fw where
  bootCode : Nat := 0
  coldBoot : Bool := true                -- the present bring-up began with a cold start
  stopped  : Bool := false               -- a fatal boot code holds the device (R463)
  strapsLatched : Bool := false
  diePos   : List Nat := []
  guestDie : Option Nat := none
  guestPop : Bool := false
  image    : Image := .none
  excluded : List Image := []
  slotA    : Slot := {}
  slotB    : Slot := {}
  /-- The recovery image, written at manufacture (R451, R452); its fields are the model's (DESIGN CHOICE, log entry 24). -/
  recovery : Option BundleInfo := some {
    major := 0, minor := 0, build := 0, secVersion := 0, keyIndex := 0, advanceSvn := false, revokeKey0 := false, size := 65536
    headerOk := true, keyHash := 0, signatureOk := true, componentsOk := true, digest := 0 }
  erasing  : Option Bool := none         -- background erase of slot A (true) or B (false)
  kh0      : Option (BitVec 512) := some 0   -- the key of the recovery image (DESIGN CHOICE, log entry 24)
  kh1      : Option (BitVec 512) := none
  kh0Revoked : Bool := false
  svn      : Nat := 0
  profDev  : List (Nat × List Byte) := []     -- device-profile entries written, by key
  profNet  : List (Nat × List Byte) := []     -- network-profile entries written
  profDevBoot : List (Nat × List Byte) := []  -- as read at the last entry into ROM
  profNetBoot : List (Nat × List Byte) := []
  profSeq  : Nat := 0
  retired  : List Retired := []          -- the flash retirement table
  toRetire : List Retired := []          -- changes not yet written to it
  lastGasp : Tab GaspRec := []           -- written last-gasp slots
  lastGaspCopied : List Nat := []
  secUp    : Bool := false
  powUp    : Bool := false
  schUp    : Bool := false
  secRestart : Bool := false
  powRestart : Bool := false
  schRestart : Bool := false
  secTimes : List Nat := []
  powTimes : List Nat := []
  schTimes : List Nat := []
  activation : Activation := .idle
  fwDeferred : Bool := false
  switchedAt : Tab Nat := []             -- processor code to the time it switched
  switchedRestarts : Tab Nat := []       -- restarts within 60 s of the switch, by processor code (R476)
  switchFails : Nat := 0                 -- control cores whose new image failed R471 (R476)
  activatedAt : Option Nat := none       -- completion of the last activation
  newBundle : Bool := false              -- first READY period on a newly activated bundle
  resetSwitch : Bool := false            -- an activation by reset is under way (R477)
  chunks   : Nat := 0
  chunkNext : Nat := 0
  broadcasting : Bool := false
  resetting : List Nat := []             -- clusters of the compute reset in progress
  resetAll : Bool := false
  lostTable : Option Nat := none         -- readiness table lost by R560: die 0 to 3, 4 the hub's
  resetStep : Nat := 0                   -- step of R484 reached
  resetCmd : Option CmdHdr := none
  devErrTimes : List Nat := []
  resetDelay : Bool := false             -- a device reset follows in 10 ms
  rstHeld  : Bool := false
  preReadyResets : Nat := 0
  coldStarts : Nat := 0
  checkerDone : Bool := false
  selftestDone : Bool := false
  slicesFilled : Bool := false           -- Fill_Done of every slice (R206)
  checkFailed : List Nat := []           -- cores whose slice controller failed R207
  deriving DecidableEq, Repr

/-! ### Power and clocks (01, 14) -/

/-- A feed (R32 to R34). -/
structure Feed where
  ok      : Bool := false
  connected : Bool := true
  mated   : Bool := true
  mv      : Nat := 0
  deriving DecidableEq, Repr

/-- Clocks, feeds and power (R489 to R519). -/
structure Pwr where
  feedA   : Feed := {}
  feedB   : Feed := {}
  conducting : Nat := 0                  -- 0 none, 1 A, 2 B, 3 both
  rowJ    : Bool := false                -- row J outputs driven (R41)
  firstStage : Bool := false
  vpkg    : Bool := false
  vom     : Bool := false                -- the rail of the outer packages (R498)
  vpkgA   : Nat := 0
  powerMw : Nat := 0
  mean1   : Nat := 0                     -- 1 ms mean, W
  mean10  : Nat := 0                     -- 10 ms mean, W
  holdupUf : Nat := 0
  holdupLow : Bool := false
  capW    : Nat := 3600
  capLevel : Nat := 0
  capRaised : Nat := 0                   -- control periods since the last rise
  capFell : Nat := 0                     -- control periods since the last fall
  fastLimit : Bool := false
  sustained : Bool := false
  capUnmet : Bool := false
  capBelow : Nat := 0                    -- control periods with the mean below the cap (R514)
  switchOvers : Nat := 0
  lastPhaseFail : Nat := 0
  phaseEmergency : Nat := 0              -- phase failures whose second has not passed (R506)
  switches : Nat := 0
  offered : List Nat := []               -- candidates offered: 1 E0, 2 + m Lm
  source  : Nat := 0                     -- 0 crystal, 1 E0, 2 to 9 L0 to L7
  holdover : Bool := false
  srcCfg  : Nat := 0
  guestOn : Bool := false
  guestFenced : Bool := false
  thermtrip : Bool := false              -- THERMTRIP_N low
  rstLow  : Bool := false
  recorded : Bool := false               -- the critical-state record is complete
  sagRec : Option GaspRec := none        -- the record being written in SAVING
  inboxPins : BitVec 4 := 0
  deriving DecidableEq, Repr

/-! ### Heat (15) -/

/-- A sensor channel, THM_CHn, with its last raw readings (newest first). -/
structure Chan where
  raw   : Int := 0
  open_ : Bool := false
  short : Bool := false
  dropped : Bool := false
  flagged : Bool := false
  hist  : List Int := []                 -- the last five raw readings, newest first
  deriving DecidableEq, Repr

/-- A zone, THM_ZONEn. -/
structure Zone where
  reading : Int := 0
  level   : Nat := 0
  interval : Nat := 0
  hard    : Bool := false
  pairLost : Bool := false
  fastRise : Bool := false
  upWait : Nat := 0                      -- µs until the level may rise again (R530)
  belowUs : Nat := 0                     -- µs below 95 °C since the level last fell
  quietA : Nat := 100000                 -- µs since a channel was within 2 °C of the condition of 1 ms (R524)
  quietB : Nat := 100000                 -- the same of the condition of 125 µs
  riseHold : Nat := 0                    -- µs that a 2 °C step still holds the interval of 125 µs
  deriving DecidableEq, Repr

/-- Thermal-resistance trend of a stack, R540 to R542. -/
structure Rth where
  count : Nat := 0
  sinceReset : Nat := 0
  baseline : Nat := 0
  lifeMin : Nat := 0
  lifeMax : Nat := 0
  hours : Nat := 0
  inlet : Int := 0
  stepW : Nat := 0
  history : List Nat := []
  firsts : List Nat := []                -- first values since the last reset, up to five
  deriving DecidableEq, Repr

/-- Coolant states, R534. -/
inductive Coolant where
  | normal | lowFlow | stopped | absent
  deriving DecidableEq, Repr

/-- The thermal state. -/
structure Heat where
  chans : Tab Chan := []
  zones : Tab Zone := []
  disagree : Tab Nat := []               -- pair (lower channel) to consecutive disagreeing samples
  coolantLimit : Option Nat := none
  flow  : Nat := 0                       -- mL/min
  tach  : Nat := 0                       -- Qt, mL/min
  sensorsDropped : Nat := 0
  stacksStopped : BitVec 4 := 0
  flowSensorFailed : Bool := false
  inletHigh : Bool := false
  coolant : Coolant := .normal
  tripChannel : Nat := 0xFF
  probing : Bool := false
  flowOk : Nat := 0                      -- flow computations in a row with Q (or Qe while probing) at 4 L/min or more
  steps : Tab LayerSteps := []           -- stack × 16 + quadrant × 4 + layer
  rth   : Tab Rth := []
  cycles : Tab Int := []                 -- stack to lowest reading since the last counted cycle
  deriving DecidableEq, Repr

/-! ### Errors, identity, service life (16, 17) -/

/-- The error log: ring slot to record, next index, CORRECTED events being coalesced (R554). -/
structure Log where
  ring    : Tab ErrRec := []
  next    : Nat := 0
  records : Nat := 0
  open_   : List ErrRec := []
  deriving DecidableEq, Repr

/-- A tenant slot, R574. -/
structure Tenant where
  key : BitVec 512
  groups : Nat
  deriving DecidableEq, Repr

/-- A bound session, R575, R576. -/
structure Session where
  owner : Bool
  slot  : Nat
  endTime : Option Nat
  deriving DecidableEq, Repr

/-- A guest firewall window, R580. -/
structure GuestWin where
  base : Nat
  size : Nat
  mask : Nat
  rate : Nat
  tokens : Nat := 65536
  since : Nat := 0                       -- time up to which the bucket has been filled
  deriving DecidableEq, Repr

/-- Identity and tenancy (R568 to R585). -/
structure Ident where
  owner   : Option (BitVec 512) := none
  clean   : Bool := false
  cocoonPending : Bool := false
  counters : List (BitVec 512 × Nat) := []
  tenants : Tab Tenant := []
  sessRing : Option Session := none
  sessI2c : Option Session := none
  signed  : Nat := 0
  wipeCert : Option (List Byte) := none
  guestWins : Tab GuestWin := []
  cocoonStep : Nat := 0
  cocoonCmd : Option (CmdHdr × BufRef) := none
  cocoonStart : Nat := 0
  cocoonWall : Dword := 0
  wipeDone : Bool := false
  flashDone : Bool := false
  slicesUnwiped : Nat := 0
  packagesUnwiped : Half := 0
  verifyFailures : Nat := 0
  removedTenants : Tab (BitVec 512) := []
  deriving DecidableEq, Repr

/-- The counters of R587 kept while powered, and the state of the counter log. -/
structure Life where
  seq : Nat := 0
  poweredS : Nat := 0                    -- up to the last cold start; the hub counter gives the rest
  energy : Nat := 0                      -- at the module input, in 0.1 µJ
  bands : Tab Nat := []                  -- stack × 5 + band, in 100 ms
  cycles : Tab Nat := []
  switchovers : Nat := 0
  trips : Nat := 0
  fencedClusters : Nat := 0
  linkErrors : Tab (Nat × Nat) := []
  slicePagesRetired : Nat := 0
  slicePagesLost : Nat := 0
  sliceBanksRetired : Nat := 0
  failedPhases : Nat := 0
  outerPagesRetired : Nat := 0
  failedPackages : Half := 0
  degradedPackages : Half := 0
  activations : Nat := 0
  cocoons : Nat := 0
  ownerChanges : Nat := 0
  serviceResets : Nat := 0
  energyAtReset : Nat := 0               -- energy at the last service reset
  svcCycles : Tab Nat := []
  svcTrips : Nat := 0
  svcSwitchovers : Nat := 0
  resetAtS : Nat := 0
  written : List Byte := []              -- the last counter block in the journal
  copies : List ErrRec := []             -- records copied by R555, newest first
  sags : List GaspRec := []              -- critical-state records copied by R455, newest first
  toCopy : List Nat := []                -- indexes still to copy
  repairedRows : Nat := 0
  deriving DecidableEq, Repr

/-! ### What the device sends -/

/-- A message the device has sent: an answer to an agent with a status (R17), a Lysdel packet, a flit resend, a
frame or management datagram on a port, an RDMA answer. The model's own record of outputs, newest last. -/
inductive Sent where
  | answer (dst : Agent) (status : Nat)
  | ack (ep : Nat) (producer : Nat) (status : Nat)
  | token (task wave node : Nat) (tok : Token)
  | packet (link : Option Nat) (p : LPacket)
  | flit (link : Nat) (f : Flit)
  | linkNak (link : Nat) (reason seq : Nat)
  | linkId (link : Nat)
  | pfc (port prio quanta : Nat)
  | frame (port : Nat) (what : Nat) (tag : Option (Nat × Nat)) (dscp : Nat)
  | rdmaAck (qp : Nat)
  | rdmaRead (qp : Nat) (va : Nat) (len : Nat)
  | rdmaNak (qp : Nat) (code : Nat)
  | rdmaData (qp : Nat) (data : List Byte)
  | rdmaWrite (qp : Nat) (va : Nat) (imm : Option Nat) (data : List Byte)
  | cm (port : Nat) (qp : Option Nat) (msg : Nat)
  | loadNotice (cd : Nat) (cls : Nat)
  | loadFailed (core kernel : Nat)
  | i2c (data : List Byte)
  | data (dst : Agent) (bytes : List Byte) (marks : List Bool)
  deriving DecidableEq, Repr

/-! ### The whole state -/

/-- The state of the block. `free` counts the free values drawn so far (the model's own field, no register). -/
structure State where
  pending : List Instr := []
  free    : Nat := 0
  now     : Nat := 0                     -- hub counter, ns (DEV_HUB_TIME)
  dev     : DevState := .off
  mem     : Mem := {}
  cores   : Tab Core := []
  slices  : Tab Slice := []
  outers  : Tab Outer := []
  clusters : Tab Cluster := []
  deadDies : List Nat := []              -- dies out of service (R345)
  work    : Work := {}
  channels : Tab Channel := []
  lys     : Lysdel := {}
  net     : Net := {}
  svc     : Service := {}
  ctl     : Ctl := {}
  fw      : Fw := {}
  pwr     : Pwr := {}
  heat    : Heat := {}
  log     : Log := {}
  ident   : Ident := {}
  life    : Life := {}
  sent    : List Sent := []
  reqNo   : Nat := 0                     -- number of the next memory request
  deriving DecidableEq, Repr

/-- Reasons a step could fault. Nothing in the model raises one: every event the spec describes has a next state
(safe). The constructor names the one case that cannot be built: an address wider than the device's. -/
inductive Fault where
  /-- Raised by nothing; kept so that a later repair has a name for a machine stop. Safe. -/
  | halted
  deriving DecidableEq, Repr

/-- Reasons a step could be refused. -/
inductive Refusal where
  /-- A row of the table without a meaning. Raised by refused arms of `exec` only. Safe. -/
  | notModelled (mnemonic : String)
  deriving DecidableEq, Repr

/-- The module right after reset: OFF, no feed in range. -/
def State.reset : State := {}

end Sys2Proof.Machine
end

