-- ==== Sys2Proof/Machine/Ops.lean ====
section
/-!
DEFINITION. The named operations over the state that the meanings share: tables in rising key order, the bytes and
marks of memory in canonical form, the address map (R12, R13), units and their updates, the error log and the alerts
(R427, R546 to R554), free values, and what a command or an answer leaves.
-/

namespace Sys2Proof.Machine

/-! ### Tables -/

/-- The entry of a key. -/
def look {α : Type} : Tab α → Nat → Option α
  | [], _ => none
  | (k, v) :: t, i => if i = k then some v else look t i

/-- The entry of a key, or the value an absent key stands for. -/
def lookD {α : Type} (t : Tab α) (i : Nat) (d : α) : α := (look t i).getD d

/-- Write an entry, keeping keys strictly rising. -/
def put {α : Type} : Tab α → Nat → α → Tab α
  | [], i, v => [(i, v)]
  | (k, w) :: t, i, v => if i < k then (i, v) :: (k, w) :: t else if i = k then (i, v) :: t else (k, w) :: put t i v

/-- Remove an entry. -/
def del {α : Type} : Tab α → Nat → Tab α
  | [], _ => []
  | (k, w) :: t, i => if i = k then t else (k, w) :: del t i

/-- Write an entry, or remove it when it equals what an absent key reads as. -/
def putD {α : Type} [DecidableEq α] (t : Tab α) (i : Nat) (v d : α) : Tab α := if v = d then del t i else put t i v

/-- Apply a function to every entry. -/
def mapTab {α β : Type} (t : Tab α) (f : Nat → α → β) : Tab β := t.map fun p => (p.1, f p.1 p.2)

/-- The keys of a table. -/
def keys {α : Type} (t : Tab α) : List Nat := t.map (·.1)

/-- The lowest number below `n` that is no key, searching up from `i`. -/
def lowestFree (used : List Nat) (n : Nat) : Option Nat := (List.range n).find? (fun i => !used.contains i)

/-- Insert into a list kept in rising order without repeats. -/
def insertSet : List Nat → Nat → List Nat
  | [], i => [i]
  | k :: t, i => if i < k then i :: k :: t else if i = k then k :: t else k :: insertSet t i

/-- Add to a saturating counter of `w` bits (R430: counters saturate). -/
def satAdd (w v n : Nat) : Nat := min (v + n) (2 ^ w - 1)

/-! ### Bytes -/

/-- The bytes of a number, least significant first. -/
def leBytes (n v : Nat) : List Byte := (List.range n).map (fun i => BitVec.ofNat 8 (v / 256 ^ i))

/-- The number that bytes spell, least significant first. -/
def leNat : List Byte → Nat
  | [] => 0
  | b :: t => b.toNat + 256 * leNat t

/-- A register put together from fields (value, lowest bit). -/
def pack (fs : List (Nat × Nat)) : Nat := fs.foldl (fun a f => a + f.1 * 2 ^ f.2) 0

def bitOf (b : Bool) : Nat := if b then 1 else 0

def inRange (v lo hi : Nat) : Bool := decide (lo ≤ v) && decide (v ≤ hi)

/-- A field of bytes at an offset, as a number. -/
def field (bs : List Byte) (off size : Nat) : Nat := leNat ((bs.drop off).take size)

/-- A field of bytes at an offset, most significant first (network byte order). -/
def beField (bs : List Byte) (off size : Nat) : Nat := leNat ((bs.drop off).take size).reverse

/-- Bits [hi:lo] of a number. -/
def bits (v hi lo : Nat) : Nat := v / 2 ^ lo % 2 ^ (hi + 1 - lo)

/-- A number read as two's complement of `w` bits. -/
def asInt (w v : Nat) : Int := if 2 * (v % 2 ^ w) < 2 ^ w then (v % 2 ^ w : Int) else (v % 2 ^ w : Int) - 2 ^ w

/-- An integer as two's complement of `w` bits. -/
def ofInt (w : Nat) (v : Int) : Nat := (v % (2 ^ w : Int)).toNat

/-- The number of ones in the low `n` bits. -/
def onesIn (v : Nat) : Nat → Nat
  | 0 => 0
  | n + 1 => onesIn (v / 2) n + v % 2

/-! ### The address map, R12 -/

def sliceStride : Nat := 0x1000000
def slicePopulated : Nat := 0xC00000
def outerBase : Nat := 0x010000000000
def outerSize : Nat := 0x2000000000
def scratchBase : Nat := 0x040000000000
def scratchSize : Nat := 0x10000
def dcsBase : Nat := 0x050000000000
def mailboxBase : Nat := 0x050000010000
def objectBuffer : Nat := 0x050000030000
def bufTables : Nat := 0x050000100000

/-- A place of the address map: a core's slice, an outer package, a core's scratchpad, the DCS, the mailbox region,
each with the offset in it. -/
inductive Place where
  | slice (c off : Nat) | outer (m off : Nat) | scratch (c off : Nat) | dcs (off : Nat) | mailbox (off : Nat) | none
  deriving DecidableEq, Repr

/-- The region an address lies in, R12. -/
def place (a : Nat) : Place :=
  if a < 32768 * sliceStride then .slice (a / sliceStride) (a % sliceStride)
  else if outerBase ≤ a ∧ a < outerBase + 12 * outerSize then .outer ((a - outerBase) / outerSize) ((a - outerBase) % outerSize)
  else if scratchBase ≤ a ∧ a < scratchBase + 32768 * scratchSize then
    .scratch ((a - scratchBase) / scratchSize) ((a - scratchBase) % scratchSize)
  else if dcsBase ≤ a ∧ a < mailboxBase then .dcs (a - dcsBase)
  else if mailboxBase ≤ a ∧ a < 0x050100000000 then .mailbox (a - mailboxBase)
  else .none

/-- First address of a core's slice. -/
def sliceAddr (c : Nat) : Nat := c * sliceStride
/-- First address of a package. -/
def outerAddr (m : Nat) : Nat := outerBase + m * outerSize
/-- First address of a core's scratchpad window. -/
def scratchAddr (c : Nat) : Nat := scratchBase + c * scratchSize

/-- The cluster domain of a core, R8, R9. -/
def cdOf (c : Nat) : Nat := c / 64
/-- The compute die of a cluster domain, R9. -/
def dieOf (cd : Nat) : Nat := cd / 128
/-- Page size of the tier an address lies in: slice pages of 64 KiB (R188), outer pages of 2 MiB (R228). -/
def pageSize (a : Nat) : Nat := if a < outerBase then 0x10000 else 0x200000
/-- The page base of an address. -/
def pageBase (a : Nat) : Nat := a / pageSize a * pageSize a
/-- The bytes that carry one poison mark at an address: a 32-byte row or slice codeword, a 64-byte outer codeword
(R547). -/
def unitSize (a : Nat) : Nat := if outerBase ≤ a ∧ a < scratchBase then 64 else 32
/-- First address of the unit of an address. -/
def unitBase (a : Nat) : Nat := a / unitSize a * unitSize a

/-- The stack zone of a cluster, R221, R522. -/
def zoneOf (cd : Nat) : Nat := 4 * dieOf cd + (2 * (cd / 16 % 8 / 4) + cd % 16 / 8)

/-- The first addresses of the units that a range meets. -/
def unitsOf (a len : Nat) : List Nat :=
  if len = 0 then [] else
    let u := unitSize a
    (List.range ((a + len - 1) / u - a / u + 1)).map (fun i => (a / u + i) * u)

/-! ### Memory -/

/-- The byte at an address; an address nothing has written reads zero (R206, R244; log entry 6). -/
def Mem.byte (m : Mem) (a : Nat) : Byte := lookD m.cells a 0

/-- `n` bytes from an address. -/
def Mem.read (m : Mem) (a n : Nat) : List Byte := (List.range n).map (fun i => m.byte (a + i))

/-- Store one byte, keeping the canonical form: a zero is not listed. -/
def Mem.setByte (m : Mem) (a : Nat) (b : Byte) : Mem := { m with cells := putD m.cells a b 0 }

/-- Store bytes from an address up. -/
def Mem.write (m : Mem) (a : Nat) : List Byte → Mem
  | [] => m
  | b :: t => (m.setByte a b).write (a + 1) t

/-- A unit carries a poison mark. -/
def Mem.marked (m : Mem) (unit : Nat) : Bool := m.poison.contains unit

/-- Set or clear the mark of a unit. -/
def Mem.setMark (m : Mem) (unit : Nat) (on : Bool) : Mem :=
  { m with poison := if on then insertSet m.poison unit else m.poison.filter (· != unit) }

/-- Some unit that a range meets is marked. -/
def Mem.poisoned (m : Mem) (a len : Nat) : Bool := (unitsOf a len).any m.marked

/-- Set or clear the marks of all units that a range meets. -/
def Mem.setMarks (m : Mem) (a len : Nat) (on : Bool) : Mem :=
  (unitsOf a len).foldl (fun m u => m.setMark u on) m

/-- The instar of the page of an address (R216, R253). -/
def Mem.instar (m : Mem) (a : Nat) : Word := lookD m.instars (pageBase a) 0

/-- Advance the instar of the page of an address by one, wrapping. -/
def Mem.bumpInstar (m : Mem) (a : Nat) : Mem :=
  { m with instars := putD m.instars (pageBase a) (m.instar a + 1) 0 }

/-- Remove all that memory holds of addresses `lo ≤ a < hi`: bytes, marks and injected symbol errors. -/
def Mem.clear (m : Mem) (lo hi : Nat) : Mem :=
  { m with
    cells := m.cells.filter (fun p => p.1 < lo || hi ≤ p.1)
    poison := m.poison.filter (fun u => u < lo || hi ≤ u)
    flips := m.flips.filter (fun p => p.1 / 128 < lo || hi ≤ p.1 / 128) }

/-- The canonical form of memory: addresses strictly rising and no listed zero. -/
def cellsWf : List Host.Cell → Bool
  | [] => true
  | [p] => p.2 != 0
  | p :: q :: t => p.2 != 0 && decide (p.1 < q.1) && cellsWf (q :: t)

/-- Memory is in canonical form. -/
def Mem.wf (m : Mem) : Bool := cellsWf m.cells

/-! ### Units of the state -/

/-- A core; cores not listed are as after reset (R60). -/
def State.core (s : State) (c : Nat) : Core := lookD s.cores c {}
/-- Update a core. -/
def State.modCore (s : State) (c : Nat) (f : Core → Core) : State := { s with cores := put s.cores c (f (s.core c)) }
def State.slice (s : State) (c : Nat) : Slice := lookD s.slices c {}
def State.modSlice (s : State) (c : Nat) (f : Slice → Slice) : State := { s with slices := put s.slices c (f (s.slice c)) }
def State.outer (s : State) (m : Nat) : Outer := lookD s.outers m {}
def State.modOuter (s : State) (m : Nat) (f : Outer → Outer) : State := { s with outers := put s.outers m (f (s.outer m)) }
def State.cluster (s : State) (cd : Nat) : Cluster := lookD s.clusters cd {}
def State.modCluster (s : State) (cd : Nat) (f : Cluster → Cluster) : State :=
  { s with clusters := put s.clusters cd (f (s.cluster cd)) }
def State.linkSt (s : State) (l : Nat) : LinkSt := lookD s.lys.links l {}
def State.modLink (s : State) (l : Nat) (f : LinkSt → LinkSt) : State :=
  { s with lys := { s.lys with links := put s.lys.links l (f (s.linkSt l)) } }
def State.portSt (s : State) (p : Nat) : PortSt := lookD s.net.ports p {}
def State.modPort (s : State) (p : Nat) (f : PortSt → PortSt) : State :=
  { s with net := { s.net with ports := put s.net.ports p (f (s.portSt p)) } }
def State.modQp (s : State) (q : Nat) (f : Qp → Qp) : State :=
  match look s.net.qps q with
  | none => s
  | some x => { s with net := { s.net with qps := put s.net.qps q (f x) } }
def State.channel (s : State) (ep i : Nat) : Channel := lookD s.channels (ep * 64 + i) {}
def State.modChannel (s : State) (ep i : Nat) (f : Channel → Channel) : State :=
  { s with channels := put s.channels (ep * 64 + i) (f (s.channel ep i)) }
def State.modTask (s : State) (id : Nat) (f : Task → Task) : State :=
  match look s.work.tasks id with
  | none => s
  | some t => { s with work := { s.work with tasks := put s.work.tasks id (f t) } }
def State.onWork (s : State) (f : Work → Work) : State := { s with work := f s.work }
def State.onMem (s : State) (f : Mem → Mem) : State := { s with mem := f s.mem }
def State.onCtl (s : State) (f : Ctl → Ctl) : State := { s with ctl := f s.ctl }
def State.onFw (s : State) (f : Fw → Fw) : State := { s with fw := f s.fw }
def State.onPwr (s : State) (f : Pwr → Pwr) : State := { s with pwr := f s.pwr }
def State.onHeat (s : State) (f : Heat → Heat) : State := { s with heat := f s.heat }
def State.onLife (s : State) (f : Life → Life) : State := { s with life := f s.life }
def State.onIdent (s : State) (f : Ident → Ident) : State := { s with ident := f s.ident }
def State.onSvc (s : State) (f : Service → Service) : State := { s with svc := f s.svc }
def State.onNet (s : State) (f : Net → Net) : State := { s with net := f s.net }
def State.onLys (s : State) (f : Lysdel → Lysdel) : State := { s with lys := f s.lys }

/-- Record a message the device sends. -/
def State.emit (s : State) (m : Sent) : State := { s with sent := s.sent ++ [m] }

/-- Draw a free value: the state with the count advanced. The value itself is a `Config` constant applied to the
count before. -/
def State.draw (s : State) : State := { s with free := s.free + 1 }

/-- A cluster of the numbering is fenced. -/
def State.fenced (s : State) (cd : Nat) : Bool := (s.cluster cd).fenced

/-- The fenced clusters. -/
def State.fencedList (s : State) : List Nat := (List.range 512).filter s.fenced

/-- Enabled clusters (R4, R5). -/
def State.enabledClusters (s : State) : Nat := 512 - (s.clusters.filter (fun p => p.1 < 512 && p.2.fenced)).length

/-- Outer packages unusable (R245, R345, R559). -/
def State.failedPackages (s : State) : Nat := (s.outers.filter (fun p => p.1 < 12 && p.2.failed)).length

/-! ### Accesses that fault, R13 -/

/-- A range lies wholly in one core's slice stride, one scratchpad window or one package, at populated places of
units that are not fenced, in no retired page, and not in the DCS or the mailbox region (R13). -/
def State.accessOk (s : State) (a len : Nat) : Bool :=
  match place a with
  | .slice c off =>
    decide (off + len ≤ slicePopulated) && !s.fenced (cdOf c) &&
      ((s.slice c).retired.all fun p => !(decide (p * 0x10000 < off + len) && decide (off < (p + 1) * 0x10000)))
  | .scratch c off => decide (off + len ≤ scratchSize) && !s.fenced (cdOf c)
  | .outer m off =>
    decide (off + len ≤ outerSize) &&
      ((s.outer m).retired.all fun p => !(decide (p * 0x200000 < off + len) && decide (off < (p + 1) * 0x200000)))
  | _ => false

/-! ### Status codes, R17 -/

def stOk : Nat := 0x00
def stBusy : Nat := 0x01
def stRetry : Nat := 0x02
def stDenied : Nat := 0x03
def stBadArg : Nat := 0x04
def stNotReady : Nat := 0x05
def stTimeout : Nat := 0x06
def stPartial : Nat := 0x07
def stDeferred : Nat := 0x08
def stFlushed : Nat := 0x09
def stLoadBusy : Nat := 0x0A
def stGateBusy : Nat := 0x0B
def stChainHazard : Nat := 0x0C
def stIndexRange : Nat := 0x0D
def stResetting : Nat := 0x0E
def stPendingOn : Nat := 0x0F

/-! ### Events and the error log, R546 to R554 -/

/-- The events of R553. -/
inductive Ev where
  | sliceCe | sliceStuck | sliceUe | sliceAddr | scrubAge
  | outerCeDie | outerCeBus | outerUe | outerBusParity | outerTimeout | outerDegraded | outerScrubAge | outerRetrain
  | packageFailed
  | taskTimeout | indexRange | chainHazard | accMode | addrFault | taskBadArg | poisonControl | poisonExport
  | taskPoisoned | taskEnded | scratchUe
  | dispatchLost | clusterFwFail | checkerFail | selftestFail | ctrlRestartLimit | ctrlRestart | clusterDataLost
  | sliceFail | domainFail
  | silkReplay | silkLinkFail | chnCfgBad
  | linkTrainFail | linkDegraded | linkMismatch | lysIdBusy | linkUnreachable | linkProtocolRx | linkQuarantine
  | ethCfgBad | ethPfcStorm | macsecPnNear | macsecPnExhausted | ethAddrDup | rdmaQpError | rdmaPoisonRead
  | ringBadTail | lckWrite | modelDigest | modelUnpinned
  | bootEvent | procRestart | fwActivated | fwActivateFailed
  | holdupLow | phaseFail | droopSensor | powerCapUnmet | feedLost | sag | lastGaspFull
  | sensorFail | sensorDisagree | sensorPairLost | coolantLow | coolantStop | coolantAbsent | flowSensor | inletHigh
  | thermHard | rthSkipped | rthHigh | thermalTrip
  | guestAbsent | guestViolation | hubArrayUe | readyTableUe
  | ownershipChanged | serviceReset
  deriving DecidableEq, Repr

/-- The Event field of R553: group and number. -/
def Ev.code : Ev → Nat
  | .sliceCe => 0x0101 | .sliceStuck => 0x0102 | .sliceUe => 0x0103 | .sliceAddr => 0x0104 | .scrubAge => 0x0105
  | .outerCeDie => 0x0201 | .outerCeBus => 0x0202 | .outerUe => 0x0203 | .outerBusParity => 0x0204
  | .outerTimeout => 0x0205 | .outerDegraded => 0x0206 | .outerScrubAge => 0x0207 | .outerRetrain => 0x0208
  | .packageFailed => 0x0209
  | .taskTimeout => 0x0301 | .indexRange => 0x0302 | .chainHazard => 0x0303 | .accMode => 0x0304 | .addrFault => 0x0305
  | .taskBadArg => 0x0306 | .poisonControl => 0x0307 | .poisonExport => 0x0308 | .taskPoisoned => 0x0309
  | .taskEnded => 0x030A | .scratchUe => 0x030B
  | .dispatchLost => 0x0401 | .clusterFwFail => 0x0402 | .checkerFail => 0x0403 | .selftestFail => 0x0404
  | .ctrlRestartLimit => 0x0405 | .ctrlRestart => 0x0406 | .clusterDataLost => 0x0407 | .sliceFail => 0x0408
  | .domainFail => 0x0409
  | .silkReplay => 0x0501 | .silkLinkFail => 0x0502 | .chnCfgBad => 0x0503
  | .linkTrainFail => 0x0601 | .linkDegraded => 0x0602 | .linkMismatch => 0x0603 | .lysIdBusy => 0x0604
  | .linkUnreachable => 0x0605 | .linkProtocolRx => 0x0606 | .linkQuarantine => 0x0607
  | .ethCfgBad => 0x0701 | .ethPfcStorm => 0x0702 | .macsecPnNear => 0x0703 | .macsecPnExhausted => 0x0704
  | .ethAddrDup => 0x0705 | .rdmaQpError => 0x0706 | .rdmaPoisonRead => 0x0707
  | .ringBadTail => 0x0801 | .lckWrite => 0x0802 | .modelDigest => 0x0803 | .modelUnpinned => 0x0804
  | .bootEvent => 0x0901 | .procRestart => 0x0902 | .fwActivated => 0x0903 | .fwActivateFailed => 0x0904
  | .holdupLow => 0x0A01 | .phaseFail => 0x0A02 | .droopSensor => 0x0A03 | .powerCapUnmet => 0x0A04
  | .feedLost => 0x0A05 | .sag => 0x0A06 | .lastGaspFull => 0x0A07
  | .sensorFail => 0x0B01 | .sensorDisagree => 0x0B02 | .sensorPairLost => 0x0B03 | .coolantLow => 0x0B04
  | .coolantStop => 0x0B05 | .coolantAbsent => 0x0B06 | .flowSensor => 0x0B07 | .inletHigh => 0x0B08
  | .thermHard => 0x0B09 | .rthSkipped => 0x0B0A | .rthHigh => 0x0B0B | .thermalTrip => 0x0B0C
  | .guestAbsent => 0x0C01 | .guestViolation => 0x0C02 | .hubArrayUe => 0x0C03 | .readyTableUe => 0x0C04
  | .ownershipChanged => 0x0D01 | .serviceReset => 0x0D02

/-- The class of an event: 0 CORRECTED, 1 DEFERRED, 2 TASK, 3 CLUSTER, 4 DEVICE (R546, R553, and the chapters that
name the event). BOOT_EVENT is CORRECTED below Boot_Code 0x10; `logBoot` raises it otherwise. -/
def Ev.cls : Ev → Nat
  | .sliceUe | .sliceAddr | .outerUe | .outerTimeout | .packageFailed | .taskPoisoned | .scratchUe | .clusterDataLost
  | .rdmaPoisonRead | .modelDigest => 1
  | .taskTimeout | .indexRange | .chainHazard | .accMode | .addrFault | .taskBadArg | .poisonControl | .poisonExport
  | .taskEnded | .linkUnreachable => 2
  | .dispatchLost | .clusterFwFail | .checkerFail | .selftestFail | .ctrlRestartLimit | .sliceFail | .domainFail => 3
  | .silkLinkFail | .sag | .thermalTrip | .hubArrayUe | .readyTableUe => 4
  | .sliceCe | .sliceStuck | .scrubAge | .outerCeDie | .outerCeBus | .outerBusParity | .outerDegraded | .outerScrubAge
  | .outerRetrain | .ctrlRestart | .silkReplay | .chnCfgBad | .linkTrainFail | .linkDegraded | .linkMismatch
  | .lysIdBusy | .linkProtocolRx | .linkQuarantine | .ethCfgBad | .ethPfcStorm | .macsecPnNear | .macsecPnExhausted
  | .ethAddrDup | .rdmaQpError | .ringBadTail | .lckWrite | .modelUnpinned | .bootEvent | .procRestart | .fwActivated
  | .fwActivateFailed | .holdupLow | .phaseFail | .droopSensor | .powerCapUnmet | .feedLost | .lastGaspFull
  | .sensorFail | .sensorDisagree | .sensorPairLost | .coolantLow | .coolantStop | .coolantAbsent | .flowSensor
  | .inletHigh | .thermHard | .rthSkipped | .rthHigh | .guestAbsent | .guestViolation | .ownershipChanged
  | .serviceReset => 0

/-- Events whose records are copied into the service-life journal though their class does not ask for it (R555), and the lifetime
events of chapter 17, which it also holds (R586). -/
def Ev.copied : Ev → Bool
  | .phaseFail | .sliceUe | .sliceStuck | .sliceAddr | .outerUe | .packageFailed | .ownershipChanged | .serviceReset => true
  | _ => false

/-- Events of chapter 15, which also set the Thermal alert (R543): those of group 0x0B. -/
def Ev.thermal (e : Ev) : Bool := e.code / 256 == 0x0B

/-- Unit types of R552. -/
def utCore : Nat := 1
def utCluster : Nat := 2
def utSlice : Nat := 3
def utOuter : Nat := 4
def utRouter : Nat := 5
def utLink : Nat := 6
def utPort : Nat := 7
def utProc : Nat := 8
def utPhase : Nat := 9
def utSensor : Nat := 10
def utGuest : Nat := 11
def utFlash : Nat := 12
def utQp : Nat := 13
def utFeed : Nat := 14

/-! ### Alerts, R427, R428 -/

def alError : Nat := 0
def alThermal : Nat := 1
def alPower : Nat := 2
def alResponse : Nat := 3
def alLink : Nat := 4
def alScrub : Nat := 5
def alMacsec : Nat := 6
def alFw : Nat := 7
def alFence : Nat := 8
def alRing : Nat := 9
def alConfig : Nat := 10

/-- Set a bit of ALERT_PENDING. -/
def State.alert (s : State) (b : Nat) : State :=
  s.onCtl fun c => { c with alertPending := c.alertPending ||| (1#64 <<< b) }

/-- The level of the ALERT_N pin: low while an alert is pending and not masked (R428), or while ROM holds the device
for a strap fault (R30). -/
def State.alertN (s : State) : Bool :=
  !(decide (s.ctl.alertPending &&& ~~~s.ctl.alertMask ≠ 0) || s.fw.stopped)

/-- Append a record to the ring of R550; class DEFERRED and above raises Error_Logged (R554). -/
def State.writeRecord (s : State) (r : ErrRec) : State :=
  let i := s.log.next
  let s1 := { s with log := { s.log with
    ring := put s.log.ring (i % 65536) { r with index := i }
    next := i + 1
    records := satAdd 32 s.log.records 1 } }
  if r.cls ≥ 1 then s1.alert alError else s1

/-- The event of R554 for a CORRECTED event: counted with the second that its first occurrence began. -/
def countOpen : List ErrRec → ErrRec → List ErrRec
  | [], r => [r]
  | o :: t, r =>
    if o.event = r.event ∧ o.unitType = r.unitType ∧ o.unitIndex = r.unitIndex
    then { o with count := satAdd 32 o.count r.count } :: t else o :: countOpen t r

/-- Log an occurrence: a CORRECTED event joins the second of its event and unit and its record is written by
ERROR_RECORD_WRITE; any other event has its own record at once (R554). -/
def State.logRec (s : State) (r : ErrRec) : State :=
  if r.cls = 0 then { s with log := { s.log with open_ := countOpen s.log.open_ r } } else s.writeRecord r

/-- What an event's record names beside the event. -/
structure EvInfo where
  ut : Nat := 0
  ui : Nat := 0
  status : Nat := 0
  task : Nat := 0
  offset : Nat := 0xFFFF
  partner : Nat := 0
  address : Nat := 0
  detail : Nat := 0
  wall : Dword := 0
  /-- Occurrences that it stands for. -/
  count : Nat := 1
  /-- Hub counter at the occurrence, where that is not the present time. -/
  time : Option Nat := none
  deriving DecidableEq, Repr

/-- The record of an event, at the present hub time unless it names its own (R551). -/
def State.recordOf (s : State) (e : Ev) (i : EvInfo) : ErrRec :=
  { index := 0, time := i.time.getD s.now, wall := i.wall, event := e.code, cls := e.cls, status := i.status,
    unitType := i.ut, unitIndex := i.ui, task := i.task, count := i.count, offset := i.offset, partner := i.partner,
    address := i.address, detail := i.detail }

/-- The events of a write that was turned away, which raise Config_Bad (R427). -/
def Ev.configBad : Ev → Bool
  | .chnCfgBad | .ethCfgBad | .lysIdBusy | .lckWrite => true
  | _ => false

/-- Log an event (R554); queue its copy into the service-life journal (R555); set the Thermal alert for an event of
chapter 15 (R543) and Config_Bad for a write turned away (R427). -/
def State.logEvent (s : State) (e : Ev) (i : EvInfo) : State :=
  let idx := s.log.next
  let s1 := s.logRec (s.recordOf e i)
  let s2 := if e.cls ≥ 3 ∨ (e.copied ∧ e.cls ≥ 1) then s1.onLife fun l => { l with toCopy := l.toCopy ++ [idx] } else s1
  if e.thermal then s2.alert alThermal else if e.configBad then s2.alert alConfig else s2

/-! ### Answers to commands, R432, R437 -/

/-- A ring reset ends when no ring command is in progress: the response counts take the value of CMD_HEAD and Held clears
(R435). -/
def Ctl.settleReset (k : Ctl) : Ctl :=
  if k.resetting && !k.inProgress.any (fun c => c.hdr.path == .ring) then
    { k with rspHead := k.cmdHead, rspTail := k.cmdHead, holder := none, resetting := false }
  else k

/-- A session on the ring lasts as long as its holder (R438). -/
def State.settleSession (s : State) : State :=
  if s.ctl.holder.isNone then s.onIdent fun i => { i with sessRing := none } else s

/-- Complete a command in progress: its response waits to be written, unless a ring reset discards it (R435). -/
def State.respond (s : State) (h : CmdHdr) (op status : Nat) (effect : Bool) (detail : Word) (results : List Byte) :
    State :=
  match s.ctl.inProgress.find? (fun c => c.hdr = h && c.op == op) with
  | none => s
  | some c =>
    let rest := s.ctl.inProgress.erase c
    if c.discard then (s.onCtl fun k => ({ k with inProgress := rest } : Ctl).settleReset).settleSession
    else s.onCtl fun k => { k with
      inProgress := rest
      completed := k.completed ++ [{ hdr := h, op := op, status := status, effect := effect, detail := detail,
                                     results := results, endTime := s.now }] }

/-! ### Emergencies -/

/-- Working regulator phases; fewer than two working droop sensors count as 3 phases (R503, R505). -/
def Cluster.working (k : Cluster) : Nat :=
  let n := ((List.range 6).filter fun i => k.phases.getLsbD i).length
  if 3 ≤ k.droopDropped.length then min 3 n else n

/-- A power condition of R475: one feed in range, module power over 4,000 W, a phase failure or the fence of R505. -/
def State.emergencyPower (s : State) : Bool :=
  s.pwr.feedA.ok != s.pwr.feedB.ok || decide (4000 < s.pwr.mean10) || decide (s.pwr.phaseEmergency ≠ 0) ||
    s.clusters.any fun p => decide (p.2.working ≤ 3) && p.2.fenced && p.2.dom != .fenced

/-- An emergency is in force, R475. -/
def State.emergency (s : State) : Bool :=
  s.emergencyPower || s.heat.zones.any (fun z => z.2.hard || z.2.pairLost) || s.heat.coolant != .normal || s.heat.probing

end Sys2Proof.Machine
end

