-- ==== Sys2Proof/Machine/Access.lean ====
section
/-!
DEFINITION. Reads and writes of memory as the controllers carry them out: the Reed–Solomon codes of R200 to R204 and R240
to R242, poison, read-modify-write, instars, claims, and what an access is answered (R13, R196 to R199, R229, R245,
R263).
-/

namespace Sys2Proof.Machine

/-! ### GF(2^8) with x^8 + x^4 + x^3 + x^2 + 1 -/

/-- Multiply by α = 0x02. -/
def gfDouble (a : Byte) : Byte := if a.getLsbD 7 then (a <<< 1) ^^^ 0x1D#8 else a <<< 1

/-- The product, over the bits of `b` from the lowest; `fuel` bits. -/
def gfMulN : Nat → Byte → Byte → Byte
  | 0, _, _ => 0
  | n + 1, a, b => (if b.getLsbD 0 then a else 0) ^^^ gfMulN n (gfDouble a) (b >>> 1)

def gfMul (a b : Byte) : Byte := gfMulN 8 a b

/-- α^n. -/
def gfPow : Nat → Byte
  | 0 => 1
  | n + 1 => gfDouble (gfPow n)

/-- Syndrome j of an error pattern: the pattern's polynomial at α^j. -/
def syndrome (errs : List (Nat × Byte)) (j : Nat) : Byte :=
  errs.foldl (fun acc e => acc ^^^ gfMul e.2 (gfPow (e.1 * j % 255))) 0

/-- What a decoding finds: nothing, corrections (position, value), or more than it corrects. -/
inductive Dec where
  | clean | fix (c : List (Nat × Byte)) | fail
  deriving DecidableEq, Repr

/-- The positions and values that explain `n` syndromes as one error among `len` positions. -/
def fixOne (errs : List (Nat × Byte)) (n len : Nat) : Option (Nat × Byte) :=
  let s0 := syndrome errs 0
  ((List.range len).find? fun p => (List.range n).all fun j =>
    syndrome errs j == gfMul s0 (gfPow (p * j % 255))).map fun p => (p, s0)

/-- A decoding that corrects one symbol: clean, one error at a position below `len`, or failure. -/
def decodeOne (errs : List (Nat × Byte)) (n len : Nat) : Dec :=
  if (List.range n).all (fun j => syndrome errs j == 0) then .clean
  else match fixOne errs n len with
    | some e => .fix [e]
    | none => .fail

/-- The inverse a^254. -/
def gfInv (a : Byte) : Byte :=
  let a2 := gfMul a a; let a4 := gfMul a2 a2; let a8 := gfMul a4 a4; let a16 := gfMul a8 a8
  let a32 := gfMul a16 a16; let a64 := gfMul a32 a32; let a128 := gfMul a64 a64
  gfMul a128 (gfMul a64 (gfMul a32 (gfMul a16 (gfMul a8 (gfMul a4 a2)))))

/-- The generator (x − 1)(x − α) … (x − α^(n−1)), coefficients from x^0 up. -/
def rsGen : Nat → List Byte
  | 0 => [1]
  | n + 1 => List.zipWith (· ^^^ ·) (0 :: rsGen n) ((rsGen n).map (gfMul (gfPow n)) ++ [0])

/-- One step of the division by a generator: the remainder `r`, times x, with the next coefficient of the dividend. -/
def rsStep (g r : List Byte) (d : Byte) : List Byte :=
  List.zipWith (fun a b => a ^^^ gfMul (d ^^^ r.getLastD 0) b) (0 :: r.dropLast) g

/-- The check symbols c_0 up of a message whose symbol i is the coefficient of x^(i + n): the remainder of m(x) by the generator of n
roots. -/
def rsCheck (n : Nat) (msg : List Byte) : List Byte := msg.reverse.foldl (rsStep (rsGen n)) (List.replicate n 0)

/-- A decoding that corrects up to two symbols: the two values at positions p < q solve the first two syndromes, and all
`n` must then agree. -/
def decodeTwo (errs : List (Nat × Byte)) (n len : Nat) : Dec :=
  match decodeOne errs n len with
  | .clean => .clean
  | .fix c => .fix c
  | .fail =>
    let s0 := syndrome errs 0
    let s1 := syndrome errs 1
    let sy := (List.range n).map (syndrome errs)
    let pairs := (List.range len).flatMap fun p => (List.range (len - p - 1)).map fun d => (p, p + 1 + d)
    let sol (p q : Nat) : Byte × Byte :=
      let y := gfMul (s1 ^^^ gfMul s0 (gfPow p)) (gfInv (gfPow p ^^^ gfPow q))
      (s0 ^^^ y, y)
    match pairs.find? fun pq =>
      let (x, y) := sol pq.1 pq.2
      (sy.zipIdx).all fun t => t.1 == gfMul x (gfPow (pq.1 * t.2 % 255)) ^^^ gfMul y (gfPow (pq.2 * t.2 % 255)) with
    | some pq => let (x, y) := sol pq.1 pq.2; .fix [(pq.1, x), (pq.2, y)]
    | none => .fail

/-- The outcome of reading a codeword, R202, R242. -/
inductive RdOut where
  | ok | ce (c : List (Nat × Byte)) | poisoned (c : List (Nat × Byte)) | ue | address
  deriving DecidableEq, Repr

/-- Pattern P of R201 on check symbols c0 to c3. -/
def patP : List (Nat × Byte) := [(0, 0x53), (1, 0x49), (2, 0x4F), (3, 0x50)]
/-- Pattern Q of R241 on check symbols c0 to c7. -/
def patQ : List (Nat × Byte) :=
  [(0, 0x4E), (1, 0x53), (2, 0x50), (3, 0x52), (4, 0x45), (5, 0x54), (6, 0x55), (7, 0x4F)]

/-- The virtual symbols v0 to v2 of the burst at a logical offset of a slice (R200). -/
def addressSyms (off : Nat) : List Byte := (leBytes 3 (off / 32 % 2 ^ 19))

/-- Check symbols XORed with a poison pattern. -/
def withPattern (pat : List (Nat × Byte)) (poison : Bool) (cs : List Byte) : List Byte :=
  if poison then cs.zipIdx.map fun c => pat.foldl (fun x e => if e.1 = c.2 then x ^^^ e.2 else x) c.1 else cs

/-- The check symbols c0 to c3 stored with 32 bytes at a logical offset of a slice (R200, R201). -/
def sliceCheck (bs : List Byte) (off : Nat) (poison : Bool) : List Byte := withPattern patP poison (rsCheck 4 (bs ++ addressSyms off))

/-- The check symbols c0 to c7 that travel with 64 bytes on the outer bus (R240, R241). -/
def busCheck (bs : List Byte) (poison : Bool) : List Byte := withPattern patQ poison (rsCheck 8 bs)

/-- A correction in a virtual position of the slice code (x^36 to x^38, R200). -/
def virtualFix (c : List (Nat × Byte)) : Bool := c.any fun e => decide (36 ≤ e.1)

/-- The slice decoder, R202, on the error polynomial of the word read: first the word, then the word XOR P. -/
def sliceDecode (errs : List (Nat × Byte)) (poison : Bool) : RdOut :=
  let e := if poison then errs ++ patP else errs
  match decodeOne e 4 39 with
  | .clean => .ok
  | .fix c => if virtualFix c then .address else .ce c
  | .fail =>
    match decodeOne (e ++ patP) 4 39 with
    | .clean => .poisoned []
    | .fix c => if virtualFix c then .address else .poisoned c
    | .fail => .ue

/-- The bus decoder, R241, R242: positions 0 to 7 check, 8 to 71 data. -/
def busDecode (errs : List (Nat × Byte)) (poison : Bool) : RdOut :=
  let e := if poison then errs ++ patQ else errs
  match decodeTwo e 8 72 with
  | .clean => .ok
  | .fix c => .ce c
  | .fail =>
    match decodeTwo (e ++ patQ) 8 72 with
    | .clean => .poisoned []
    | .fix c => .poisoned c
    | .fail => .ue

/-! ### Slice codewords -/

/-- The symbol errors of a slice codeword: symbols 0 to 31 data at x^4 up, 32 to 35 check at x^0 up; 36 to 38 are the virtual address
symbols, wrong where a read comes from another burst (R200, R202). -/
def Mem.errsOf (m : Mem) (unit : Nat) : List (Nat × Byte) :=
  (m.flips.filter fun p => p.1 / 128 == unit).map fun p =>
    let i := p.1 % 128
    (if i < 32 then i + 4 else if i < 36 then i - 32 else i, p.2)

/-- The distinct units of a range that hold symbol errors. -/
def Mem.flipUnits (m : Mem) (a n : Nat) : List Nat :=
  ((m.flips.map fun p => p.1 / 128).filter fun u => decide (unitBase a ≤ u) && decide (u < a + n)).foldl insertSet []

/-- Bytes XORed with the data symbols of a list of symbol values, data symbol i at x^(i + base). -/
def applySyms (base : Nat) (bs : List Byte) (es : List (Nat × Byte)) : List Byte :=
  bs.mapIdx fun i b => es.foldl (fun b e => if e.1 = i + base then b ^^^ e.2 else b) b

/-- Remove the injected errors of a codeword. -/
def Mem.clearFlips (m : Mem) (unit : Nat) : Mem := { m with flips := m.flips.filter fun p => p.1 / 128 != unit }

/-- The effect of a read outcome at a slice: counters, events and the pending write-back (R203 to R205). A CE on the first
read after the codeword's write-back within 1 s is SLICE_STUCK. -/
def State.sliceOutcome (s : State) (c unit : Nat) (o : RdOut) : State :=
  let sl := s.slice c
  let back := look sl.recentCe unit
  let info : EvInfo := { ut := utSlice, ui := c, address := unit }
  let s0 := if back.isSome then s.modSlice c fun sl => { sl with recentCe := del sl.recentCe unit } else s
  match o with
  | .ok => s0
  | .poisoned _ => s0
  | .ce _ =>
    let s1 := (s0.modSlice c fun sl =>
      { sl with corrected := satAdd 32 sl.corrected 1, writeBacks := insertSet sl.writeBacks unit }).logEvent .sliceCe info
    match back with
    | some t => if s.now - t ≤ 1000000000 then s1.logEvent .sliceStuck info else s1
    | none => s1
  | .ue => (s0.modSlice c fun sl => { sl with uncorrectable := satAdd 16 sl.uncorrectable 1 }).logEvent .sliceUe info
  | .address => (s0.modSlice c fun sl => { sl with addressErr := satAdd 16 sl.addressErr 1 }).logEvent .sliceAddr info

/-- Read one slice codeword: state after, its 32 bytes as returned, and whether they carry a poison mark. -/
def State.readCodeword (s : State) (c unit : Nat) : State × List Byte × Bool :=
  let errs := s.mem.errsOf unit
  let data := s.mem.read unit 32
  let o := if errs.isEmpty then (if s.mem.marked unit then .poisoned [] else .ok) else sliceDecode errs (s.mem.marked unit)
  let raw := applySyms 4 data errs
  let s1 := s.sliceOutcome c unit o
  match o with
  | .ok => (s1, raw, false)
  | .ce fix => (s1, applySyms 4 raw fix, false)
  | .poisoned fix => (s1, applySyms 4 raw fix, true)
  | .ue => (s1, raw, true)
  | .address => (s1, raw, true)

/-- Read codewords from a list, gathering bytes and the marks of each byte. -/
def State.readCodewords (s : State) (c : Nat) : List Nat → State × List Byte × List Bool
  | [] => (s, [], [])
  | u :: t =>
    let (s1, b, p) := s.readCodeword c u
    let (s2, bs, ps) := s1.readCodewords c t
    (s2, b ++ bs, List.replicate 32 p ++ ps)

/-! ### Outer codewords at rest, R239 -/

/-- Bank of a block, R228: channel, bank group, bank. -/
def bankOf (a : Nat) : Nat := bits a 16 8
def bankGroupOf (a : Nat) : Nat := bits a 14 13
/-- The channel-bank key with the row (page) that a request opens. -/
def pageOf (a : Nat) : Nat := (a - outerBase) % outerSize / 0x200000

/-- Log an error of a package. -/
def State.outerEvent (s : State) (m : Nat) (e : Ev) (a : Nat) (count : Nat := 1) : State :=
  s.logEvent e { ut := utOuter, ui := m, address := a, count := count, status := if e = .outerTimeout then stTimeout else 0 }

/-- Report the words that a die has corrected in a bank since the last report (R239). -/
def State.reportDie (s : State) (m bank a n : Nat) : State :=
  (s.modOuter m fun o => { o with
    dieCeTime := put o.dieCeTime bank s.now, dieCeCount := del o.dieCeCount bank }).outerEvent m .outerCeDie a n

/-- The wrong bits of word `w` of an outer codeword: in its 8 data bytes and in its check byte, symbol 64 + w (R239). -/
def Mem.dieBits (m : Mem) (unit w : Nat) : Nat :=
  (m.flips.filter fun p => p.1 / 128 == unit && (p.1 % 128 / 8 == w || p.1 % 128 == 64 + w)).foldl
    (fun n p => n + onesIn p.2.toNat 8) 0

/-- The die reports a word of the codeword as uncorrectable: two wrong bits, or more where its code sees them. -/
def Mem.dieBad (m : Mem) (unit : Nat) : Bool :=
  (List.range 8).any fun w => m.dieBits unit w == 2 || (decide (3 ≤ m.dieBits unit w) && Config.dieSees unit w)

/-- The bytes that the die gives: words with one wrong bit corrected, the others as they are stored. -/
def Mem.dieData (m : Mem) (unit : Nat) : List Byte :=
  (m.read unit 64).mapIdx fun i b => if m.dieBits unit (i / 8) ≤ 1 then b else b ^^^ lookD m.flips (128 * unit + i) 0

/-- The words of a codeword that the die corrects. -/
def Mem.dieCes (m : Mem) (unit : Nat) : Nat := ((List.range 8).filter fun w => m.dieBits unit w == 1).length

/-- Remove the errors of the words with one wrong bit: the corrected codeword is written back. -/
def Mem.dieFix (m : Mem) (unit : Nat) : Mem :=
  { m with flips := m.flips.filter fun p => !(p.1 / 128 == unit &&
      m.dieBits unit (if p.1 % 128 < 64 then p.1 % 128 / 8 else p.1 % 128 - 64) == 1) }

/-- The dies have corrected `n` words of a codeword: counted, written back in time, and reported at most once a second for each bank
(R239, R243). -/
def State.countDie (s : State) (m unit n : Nat) : State :=
  if n = 0 then s
  else
    let bank := bankOf unit
    let sum := lookD (s.outer m).dieCeCount bank 0 + n
    let s1 := s.modOuter m fun o => { o with
      dieCorrected := satAdd 32 o.dieCorrected n, writeBacks := insertSet o.writeBacks (unitBase unit)
      dieCeCount := put o.dieCeCount bank sum }
    match look (s.outer m).dieCeTime bank with
    | some t => if s.now < t + 1000000000 then s1 else s1.reportDie m bank unit sum
    | none => s1.reportDie m bank unit sum

/-- A codeword of a package is uncorrectable: counted and logged (R243). -/
def State.countOuterUe (s : State) (m unit : Nat) : State :=
  (s.modOuter m fun o => { o with uncorrectable := satAdd 16 o.uncorrectable 1 }).outerEvent m .outerUe unit

/-- Read one outer codeword from its dies: state after, its 64 bytes as they leave, and whether they carry a poison mark (R239, R241). -/
def State.readOuterUnit (s : State) (m unit : Nat) : State × List Byte × Bool :=
  let s1 := s.countDie m unit (s.mem.dieCes unit)
  (if s.mem.dieBad unit then s1.countOuterUe m unit else s1, s.mem.dieData unit, s.mem.marked unit || s.mem.dieBad unit)

/-- Read outer codewords from a list, gathering bytes and the marks of each byte. -/
def State.readOuterUnits (s : State) (m : Nat) : List Nat → State × List Byte × List Bool
  | [] => (s, [], [])
  | u :: t =>
    let (s1, b, p) := s.readOuterUnit m u
    let (s2, bs, ps) := s1.readOuterUnits m t
    (s2, b ++ bs, List.replicate 64 p ++ ps)

/-- Read every unit of a range that holds errors, for its corrections and events alone: what the reader of a whole range meets. -/
def State.visit (s : State) (a n : Nat) : State :=
  (s.mem.flipUnits a n).foldl (fun s u =>
    match place u with
    | .slice c _ => (s.readCodeword c u).1
    | .outer m _ => (s.readOuterUnit m u).1
    | _ => s) s

/-- Read a range of memory: bytes and the mark of each. Slices decode (R202 to R204); outer packages correct at the dies (R239), where
a range without errors reads as it is stored; scratchpads give their stored marks (R63). -/
def State.readRange (s : State) (a len : Nat) : State × List Byte × List Bool :=
  match place a with
  | .slice c _ =>
    let us := unitsOf a len
    let (s1, bs, ps) := s.readCodewords c us
    let skip := a - unitBase a
    (s1, (bs.drop skip).take len, (ps.drop skip).take len)
  | .outer m _ =>
    if (s.mem.flipUnits a len).isEmpty then (s, s.mem.read a len, (List.range len).map fun i => s.mem.marked (unitBase (a + i)))
    else
      let (s1, bs, ps) := s.readOuterUnits m (unitsOf a len)
      let skip := a - unitBase a
      (s1, (bs.drop skip).take len, (ps.drop skip).take len)
  | _ => (s, s.mem.read a len, (List.range len).map fun i => s.mem.marked (unitBase (a + i)))

/-! ### Writes -/

/-- A codeword of a package is written: the writes that were sent before it no longer stand there (R235). -/
def Outer.overwrite (o : Outer) (unit : Nat) : Outer :=
  { o with sentReqs := o.sentReqs.map fun r =>
      if unitBase r.addr ≤ unit ∧ unit < r.addr + r.len ∧ !r.rewrote.contains unit then { r with rewrote := unit :: r.rewrote } else r }

/-- Note it, where requests are under way. -/
def State.overwrite (s : State) (m unit : Nat) : State :=
  if (s.outer m).sentReqs.isEmpty then s else s.modOuter m fun o => o.overwrite unit

/-- Store `bs` at `a` inside one unit with mark `p`. A store of part of the unit keeps an earlier mark (R198, R547), and a
slice codeword read as uncorrectable is written with the poison pattern (R198). -/
def State.writeUnit (s : State) (a : Nat) (bs : List Byte) (p : Bool) : State :=
  let u := unitBase a
  let whole := decide (bs.length = unitSize a)
  match place a with
  | .slice c _ =>
    if whole then
      let s1 := s.onMem fun m => (((m.write a bs).setMark u p).clearFlips u).bumpInstar a
      s1.modSlice c fun sl => { sl with writeBacks := sl.writeBacks.filter (· != u), recentCe := del sl.recentCe u }
    else
      let (s1, old, bad) := s.readCodeword c u
      let s2 := s1.onMem fun m => ((((m.write u old).write a bs).setMark u (p || bad)).clearFlips u).bumpInstar a
      s2.modSlice c fun sl => { sl with writeBacks := sl.writeBacks.filter (· != u) }
  | .outer m _ =>
    if whole ∨ (s.mem.flipUnits u 64).isEmpty then
      (s.overwrite m u).onMem fun m => (((m.write a bs).setMark u (p || (!whole && m.marked u))).clearFlips u).bumpInstar a
    else
      let (s1, old, bad) := s.readOuterUnit m u
      (s1.overwrite m u).onMem fun m => ((((m.write u old).write a bs).setMark u (p || bad)).clearFlips u).bumpInstar a
  | _ => s.onMem fun m => (m.write a bs).setMark u (p || (!whole && m.marked u))

/-- Store bytes with the mark of each, unit by unit; `fuel` bounds the units. -/
def State.writeUnits (s : State) : Nat → Nat → List Byte → List Bool → State
  | 0, _, _, _ => s
  | fuel + 1, a, bs, ps =>
    if bs.isEmpty then s
    else
      let n := unitBase a + unitSize a - a
      (s.writeUnit a (bs.take n) ((ps.take n).any id)).writeUnits fuel (a + n) (bs.drop n) (ps.drop n)

/-- Store a range. -/
def State.writeRange (s : State) (a : Nat) (bs : List Byte) (ps : List Bool) : State :=
  s.writeUnits (bs.length / 32 + 2) a bs ps

/-! ### What an access is answered -/

/-- The answer to an access before it is carried out: fault by R13, a status, or that it goes ahead. -/
inductive Ans where
  | go | fault | status (st : Nat)
  deriving DecidableEq, Repr

/-- The pages under read and write claims of a package (R263). -/
def Outer.readClaims (o : Outer) : List Nat := o.running.flatMap (·.readPages)
def Outer.writeClaims (o : Outer) : List Nat := o.running.flatMap (·.writePages)

/-- A range of a package meets one of these 2 MiB pages. -/
def meets (pages : List Nat) (off len : Nat) : Bool :=
  pages.any fun p => decide (p * 0x200000 < off + len) && decide (off < (p + 1) * 0x200000)

/-- The bank in which a slice page lies: page modulo 8, or the bank of its spare, banks 1, 3, 5 and 7 holding spares 0 to 3 (R189). -/
def Slice.bankOfPage (sl : Slice) (page : Nat) : Nat :=
  match sl.spares.findIdx? (· == some page) with
  | some i => 2 * i + 1
  | none => page % 8

/-- A range lies under a claim of a running operation (R263). -/
def State.claimed (s : State) (a n : Nat) : Bool :=
  match place a with
  | .outer m off => meets ((s.outer m).readClaims ++ (s.outer m).writeClaims) off n
  | _ => false

/-- Write the completion records that wait and whose pages no operation claims any more (R259, R263). -/
def State.flushRecords (s : State) : State :=
  (List.range 12).foldl (fun s m => (s.outer m).lateRecords.foldl (fun s r =>
    if s.claimed r.1 r.2.length then s
    else (s.modOuter m fun o => { o with lateRecords := o.lateRecords.erase r }).writeRange r.1 r.2
      (List.replicate r.2.length false)) s) s

/-- External requests outstanding at one bank of a slice. -/
def Slice.bankLoad (sl : Slice) (owner : Nat) (bank : Nat) : Nat :=
  (sl.queue.filter fun r =>
    decide (sl.bankOfPage (r.addr % sliceStride / 0x10000) = bank) && (match r.agent with | .core c _ => decide (c ≠ owner) | _ => true)).length

/-- An agent is external to a slice: every one but the owning core (R196). -/
def external (g : Agent) (owner : Nat) : Bool :=
  match g with
  | .core c _ => decide (c ≠ owner)
  | _ => true

/-- The answer to an access by an agent: R13; TARGET_RESETTING from a cluster in reset (R199, R341); RETRY from a full bank
queue (R196); BAD_ARG from an unusable package (R245) and from the control page (R229); BUSY under a claim (R263). The
scratchpad of a core on a die whose cluster is in reset answers alike. -/
def State.answer (s : State) (g : Agent) (a len : Nat) (write : Bool) : Ans :=
  if !s.accessOk a len then .fault
  else match place a with
  | .slice c off =>
    if external g c && (s.cluster (cdOf c)).inReset then .status stResetting
    else if external g c && decide (4 ≤ (s.slice c).bankLoad c ((s.slice c).bankOfPage (off / 0x10000))) then .status stRetry
    else .go
  | .scratch c _ => if external g c && (s.cluster (cdOf c)).inReset then .status stResetting else .go
  | .outer m off =>
    let o := s.outer m
    if o.failed then .status stBadArg
    else if meets [65535] off len then .status stBadArg
    else if meets o.writeClaims off len || (write && meets o.readClaims off len) then .status stBusy
    else .go
  | _ => .fault

/-- The answers that units count: BUSY in Busy_Responses (R264), TARGET_RESETTING and the BAD_ARG of a fenced cluster in the
cluster's router (R341, R343, R357). -/
def State.countBusy (s : State) (a : Nat) (x : Ans) : State :=
  match x, place a with
  | .status 0x01, .outer m _ => s.modOuter m fun o => { o with busyResponses := satAdd 16 o.busyResponses 1 }
  | .status 0x0E, .slice c _ | .status 0x0E, .scratch c _ =>
    s.modCluster (cdOf c) fun k => { k with resettingAnswers := satAdd 16 k.resettingAnswers 1 }
  | .fault, .slice c _ | .fault, .scratch c _ =>
    if s.fenced (cdOf c) then s.modCluster (cdOf c) fun k => { k with fencedAnswers := satAdd 16 k.fencedAnswers 1 } else s
  | _, _ => s

/-! ### Answers to a request over a link -/

/-- The mark of each data byte of a packet (R362). -/
def bytesMarked (p : LPacket) : List Bool := (List.range p.data.length).map fun i => p.poison.getD i false
/-- Marks as a packet carries them: none are listed where no byte is marked. -/
def packetMarks (ms : List Bool) : List Bool := if ms.any id then ms else []

/-- The answer to a request, on the response lane (R381). -/
def answerTo (p : LPacket) (own op status instar : Nat) (data : List Byte) (ms : List Bool) : LPacket :=
  { src := own, dest := p.src, vl := 1, cls := 0, poison := packetMarks ms, op := op, status := status, tag := p.tag, age := 0,
    alt := false, turned := false, address := p.address, length := data.length, instar := instar, rank := 0, step := 0,
    group := 0, data := data }

/-- A NAK that leaves for the source of a request. -/
def State.nakSource (s : State) (p : LPacket) (status : Nat) : State :=
  s.emit (.packet none (answerTo p s.lys.deviceId 0x1F status 0 [] []))

end Sys2Proof.Machine
end

