-- ==== Sys2Proof/Machine/Channels.lean ====
section
/-!
DEFINITION. Silk channels (R346 to R356): open requests and grants, words, reads, pressure, flush, aborts, configuration;
and the silk events of a router (R341, R344).
-/

namespace Sys2Proof.Machine

/-- The endpoint of a hub port, R346. -/
def hubEp (p : Nat) : Nat := 4 * 32768 + p
/-- The service inbox, hub port 0x03, which holds the inbound service channels (R352). -/
def inboxEp : Nat := hubEp 3

/-- The cluster that an endpoint number names: ports 0x00 to 0x41 of a compute die (R346). -/
def epCluster (ep : Nat) : Option Nat :=
  if ep / 32768 < 4 ∧ ep % 256 ≤ 0x41 then some (ep / 32768 * 128 + ep / 256 % 128) else none

/-- The privileged channels, R354. -/
def privileged (ep i : Nat) : Bool := (ep == hubEp 0 && decide (i ≤ 1)) || (ep == hubEp 2 && i == 0)

def Channel.depth (c : Channel) : Nat := 2 ^ c.log2Depth
/-- Words that may still be taken: one is always kept free for the marker (R348). -/
def Channel.free (c : Channel) : Nat := c.depth - 1 - c.words.length
/-- Packets of R350: END and FLUSHED words not yet read. -/
def Channel.packets (c : Channel) : Nat := (c.words.filter fun w => w.kind != .data).length
/-- Marker_Unread. -/
def Channel.marker (c : Channel) : Bool := c.words.any fun w => w.kind == .flushed

def flushedWord : CWord := { kind := .flushed, data := [], poison := false }

/-- Pressure sets at High_Mark and clears at Low_Mark (R351). -/
def Channel.marks (c : Channel) : Channel :=
  if !c.pressure && decide (c.highMark ≤ c.words.length) && decide (0 < c.highMark) then
    { c with pressure := true, pressureEvents := satAdd 16 c.pressureEvents 1 }
  else if c.pressure && decide (c.words.length ≤ c.lowMark) then { c with pressure := false }
  else c

/-- Add a marker unless one waits unread. -/
def Channel.mark (c : Channel) : Channel := if c.marker then c else { c with words := c.words ++ [flushedWord] }

/-- The words of the open packet, those after the last END or FLUSHED word. -/
def Channel.openWords (c : Channel) : List CWord := (c.words.reverse.takeWhile fun w => w.kind == .data).reverse
/-- The words before the open packet. -/
def Channel.wholeWords (c : Channel) : List CWord := (c.words.reverse.dropWhile fun w => w.kind == .data).reverse

/-- Flush of an ordinary channel, R353: a marker that waits unread stays. -/
def Channel.flush (c : Channel) : Channel :=
  let gone := (c.words.filter fun w => w.kind != .flushed).length
  { c with
    words := [flushedWord], reading := false, wordsFlushed := satAdd 32 c.wordsFlushed gone
    draining := match c.openBy with | some p => some p | none => c.draining
    openBy := none, openLeft := 0 }.marks

/-- Flush of a privileged channel, R354: only whole packets that the consumer has not begun are discarded; the marker
stands after the packet being read and before the open packet. -/
def Channel.flushPrivileged (c : Channel) : Channel :=
  let whole := c.wholeWords
  let cur := if c.reading then (whole.takeWhile fun w => w.kind == .data).length + 1 else 0
  let kept := whole.take cur
  let gone := ((whole.drop cur).filter fun w => w.kind != .flushed).length
  if c.reading ∧ whole.isEmpty then c
  else { c with
    words := kept ++ [flushedWord] ++ c.openWords, wordsFlushed := satAdd 32 c.wordsFlushed gone }.marks

/-- The open packet of a producer is aborted by its router, R355. -/
def Channel.abort (c : Channel) (producer : Nat) : Channel :=
  if c.openBy = some producer then
    { c with
      words := c.wholeWords, openBy := none, openLeft := 0, packetsAborted := satAdd 16 c.packetsAborted 1
      reading := c.reading && !c.wholeWords.isEmpty }.mark.marks
  else if c.draining = some producer then { c with draining := none, packetsAborted := satAdd 16 c.packetsAborted 1 }.mark.marks
  else c

/-- INBOX_PRESSURE: a pin is high while any inbound service channel of its port has Pressure set (R352). -/
def State.inboxUpdate (s : State) : State :=
  let high (p : Nat) : Bool := s.svc.sets.any fun x => x.2.port == p && (s.channel inboxEp x.1).pressure
  let pins := (List.range 4).foldl (fun (v : BitVec 4) p => if high p then v ||| (1#4 <<< p) else v) 0
  s.onPwr fun w => { w with inboxPins := pins }

/-- Update a channel and the pins. -/
def State.onChannel (s : State) (ep i : Nat) (f : Channel → Channel) : State := (s.modChannel ep i f).inboxUpdate

/-- Abort every open packet whose producer is an endpoint of a cluster (R355, R562). -/
def State.abortPackets (s : State) (cd : Nat) : State :=
  ({ s with channels := mapTab s.channels fun _ c =>
    match c.openBy, c.draining with
    | some p, _ => if epCluster p = some cd then c.abort p else c
    | none, some p => if epCluster p = some cd then c.abort p else c
    | none, none => c } : State).inboxUpdate

/-- A consumer that enters reset loses its channels (R355): empty, unconfigured, Reset_Seen. -/
def State.loseChannels (s : State) (cd : Nat) : State :=
  { s with channels := s.channels.filter fun p => epCluster (p.1 / 64) != some cd }
def State.loseHubChannels (s : State) (ep : Nat) : State := { s with channels := s.channels.filter fun p => p.1 / 64 != ep }

/-- A router answers TARGET_RESETTING for its cluster (R341, R357). -/
def State.countResetting (s : State) (cd : Nat) : State :=
  s.modCluster cd fun k => { k with resettingAnswers := satAdd 16 k.resettingAnswers 1 }
/-- A router answers BAD_ARG for its fenced cluster (R343, R357). -/
def State.countFenced (s : State) (cd : Nat) : State :=
  s.modCluster cd fun k => { k with fencedAnswers := satAdd 16 k.fencedAnswers 1 }

/-- A hub processor, the consumer of hub ports 0x00 to 0x02, is being restarted (R346, R479). -/
def State.procDown (s : State) (ep : Nat) : Bool :=
  (ep == hubEp 0 && s.fw.secRestart) || (ep == hubEp 1 && s.fw.powRestart) || (ep == hubEp 2 && s.fw.schRestart)

/-- What is answered in a consumer's place, if anything, with the cluster whose router answers: BAD_ARG for a fenced cluster,
TARGET_RESETTING for a consumer in reset (R341, R343, R355). -/
def State.epRefusal (s : State) (ep : Nat) : Option (Option Nat × Nat) :=
  match epCluster ep with
  | none => if s.procDown ep then some (none, stResetting) else none
  | some cd =>
    if s.fenced cd then some (some cd, stBadArg) else if (s.cluster cd).inReset then some (some cd, stResetting) else none

/-- Words of 32 bytes in the channel store of an endpoint, R348; 0 for an endpoint that consumes no channel. -/
def storeWords (ep : Nat) : Nat :=
  let p := ep % 256
  if ep / 32768 < 4 then
    if p = 0x40 then 2048 else if p = 0x41 then 1024 else if p = 0x59 ∧ ep / 256 % 128 = 0 then 8192 else 0
  else if ep / 32768 = 4 ∧ ep / 256 % 128 = 0 then (if p ≤ 2 then 32768 else if p = 3 then 131072 else 0)
  else 0

/-- The depths of an endpoint's channels other than `i` that are configured. -/
def State.storeUsed (s : State) (ep i : Nat) : Nat :=
  ((s.channels.filter fun x => x.1 / 64 == ep && x.1 % 64 != i && x.2.highMark != 0).map (·.2.depth)).sum

/-- The hub processor or cluster that reads the channels of an endpoint, as an error unit (R552). -/
def epUnit (ep : Nat) : Nat × Nat :=
  match epCluster ep with
  | some cd => (utCluster, cd)
  | none => (utProc, ep % 256)

/-- CHANNEL_OPEN_REQUEST, R349, R341, R343, R356. -/
def execChannelOpenRequest (ep i producer : Nat) (s : State) : Host.Outcome State Fault Refusal :=
  match s.epRefusal ep with
  | some (cd, st) =>
    let s1 := match cd with
      | some cd => if st = stBadArg then s.countFenced cd else s.countResetting cd
      | none => s
    .next (s1.emit (.ack ep producer st))
  | none =>
    let c := s.channel ep i
    if !c.enable then .next (s.emit (.ack ep producer stNotReady))
    else if 64 ≤ c.opens.length then .next (s.emit (.ack ep producer stRetry))
    else .next (s.onChannel ep i fun c => { c with opens := c.opens ++ [producer] })

/-- CHANNEL_GRANT, R349: the oldest open request, when no packet is open, Pressure is clear and Max_Packet words are free. -/
def execChannelGrant (ep i : Nat) (s : State) : Host.Outcome State Fault Refusal :=
  let c := s.channel ep i
  match c.opens with
  | [] => .next s
  | p :: rest =>
    if c.openBy.isSome || c.draining.isSome || c.pressure || decide (c.free < c.maxPacket) then .next s
    else .next ((s.onChannel ep i fun c => { c with opens := rest, openBy := some p, openLeft := c.maxPacket }).emit (.ack ep p stOk))

/-- CHANNEL_WORD, R347, R349, R353. The last word of the reservation has Kind END (R347). -/
def execChannelWord (ep i producer : Nat) (data : List Byte) (kind : WordKind) (poison : Bool) (s : State) :
    Host.Outcome State Fault Refusal :=
  let c := s.channel ep i
  if kind = .flushed then .next s
  else if c.draining = some producer then
    let s1 := s.onChannel ep i fun c => { c with
      wordsFlushed := satAdd 32 c.wordsFlushed 1, draining := if kind = .endK then none else c.draining }
    .next (if kind = .endK then s1.emit (.ack ep producer stFlushed) else s1)
  else if c.openBy = some producer ∧ (kind = .endK ∨ 2 ≤ c.openLeft) then
    .next (s.onChannel ep i fun c =>
      ({ c with
        words := c.words ++ [{ kind := kind, data := data.take 32, poison := poison }]
        openBy := if kind = .endK then none else c.openBy
        openLeft := if kind = .endK then 0 else c.openLeft - 1 } : Channel).marks)
  else .next s

/-- The words left after a packet is discarded by its reader: those past its END. -/
def afterPacket (ws : List CWord) : List CWord := (ws.dropWhile fun w => w.kind == .data).drop 1

/-- CHANNEL_WORD_READ, R350, R548: the oldest word is read. A poisoned word makes the reader discard its packet and log
POISON_CONTROL against its own unit. -/
def execChannelWordRead (ep i : Nat) (s : State) : Host.Outcome State Fault Refusal :=
  let c := s.channel ep i
  match c.words with
  | [] => .next s
  | w :: rest =>
    if w.poison ∧ w.kind ≠ .flushed then
      let u := epUnit ep
      .next ((s.onChannel ep i fun c => ({ c with words := afterPacket c.words, reading := false } : Channel).marks).logEvent
        .poisonControl { ut := u.1, ui := u.2, status := stBadArg })
    else .next (s.onChannel ep i fun c => ({ c with words := rest, reading := w.kind == .data } : Channel).marks)

/-- FLUSH, R353, R354. -/
def execFlush (ep i : Nat) (s : State) : Host.Outcome State Fault Refusal :=
  .next (s.onChannel ep i fun c => if privileged ep i then c.flushPrivileged else c.flush)

/-- PACKET_ABORT, R355. -/
def execPacketAbort (ep i producer : Nat) (s : State) : Host.Outcome State Fault Refusal :=
  .next (s.onChannel ep i fun c => c.abort producer)

/-- The configuration of R351 holds. -/
def Channel.cfgOk (c : Channel) : Bool :=
  decide (1 ≤ c.maxPacket) && decide (c.maxPacket ≤ 64) && decide (4 ≤ c.log2Depth) && decide (c.log2Depth ≤ 15) &&
    decide (c.lowMark < c.highMark) && decide (c.highMark + 1 + c.maxPacket ≤ c.depth)

/-- CHN_CFG_WRITE, R348, R351, R356: a configuration that breaks R351 leaves the register unchanged and logs CHN_CFG_BAD, and so does one
whose depth does not fit in the endpoint's channel store (DESIGN CHOICE, log entry 183). The depth is writable only while the channel is
disabled. -/
def execChnCfgWrite (ep i : Nat) (value : Dword) (s : State) : Host.Outcome State Fault Refusal :=
  let v := value.toNat
  let c := s.channel ep i
  let c1 := { c with
    highMark := bits v 47 32, lowMark := bits v 31 16, maxPacket := bits v 15 9
    log2Depth := if c.enable then c.log2Depth else bits v 8 5
    enable := bits v 0 0 == 1 }
  let u := epUnit ep
  if c1.cfgOk ∧ i < 64 ∧ s.storeUsed ep i + c1.depth ≤ storeWords ep then .next (s.onChannel ep i fun _ => c1.marks)
  else .next (s.logEvent .chnCfgBad { ut := u.1, ui := u.2 })

/-! ### Events of a router -/

/-- FLIT_CRC_REPLAY, R344: the flit is resent and counted; the sixteenth resend in a row fails the link, with
SILK_LINK_FAIL of class DEVICE, whose compute reset DEVICE_ERROR_RESET carries out. A streak ends with a flit that passes,
which is no event here: the sixteen are those presented one after another for the direction. Directions: 3 north, 2 east,
1 south, 0 west. -/
def execFlitCrcReplay (cd dir : Nat) (s : State) : Host.Outcome State Fault Refusal :=
  let n := lookD (s.cluster cd).streak dir 0 + 1
  let s1 := (s.modCluster cd fun k => { k with
    replays := satAdd 32 k.replays 1
    streak := if n = 16 then del k.streak dir else put k.streak dir n
    linkFailed := if n = 16 then k.linkFailed ||| (1#4 <<< (dir % 4)) else k.linkFailed }).logEvent .silkReplay
      { ut := utRouter, ui := cd }
  .next (if n = 16 then s1.logEvent .silkLinkFail { ut := utRouter, ui := cd } else s1)

/-- CLUSTER_RELEASE, R341: the cluster reports release, and its router delivers again. A fenced cluster is never released. -/
def execClusterRelease (cd : Nat) (s : State) : Host.Outcome State Fault Refusal :=
  if s.fenced cd then .next s
  else .next (s.modCluster cd fun k => { k with inReset := false, delivered := 0 })

end Sys2Proof.Machine
end

