-- ==== Sys2Proof/Machine/Flags.lean ====
section
/-!
DEFINITION. Number formats, rounding and the flags it sets (R67, R68, R86 to R92), the Philox generator (R89), and the
arithmetic of accumulator entries with their flags (R80 to R87, R90).
-/

namespace Sys2Proof.Machine

/-! ### Values -/

/-- A value of a number format: NaN, an infinity, or (−1)^neg × m × 2^e. -/
inductive Val where
  | nan | inf (neg : Bool) | fin (neg : Bool) (m : Nat) (e : Int)
  deriving DecidableEq, Repr

/-- A floating-point format: exponent and mantissa bits, bias, encoding of the largest finite magnitude, of infinity
and of the NaN the device produces (R67). -/
structure FFmt where
  eb : Nat
  mb : Nat
  bias : Nat
  maxMag : Nat
  inf : Option Nat
  nan : Option Nat
  deriving DecidableEq, Repr

def fE4M3 : FFmt := ⟨4, 3, 7, 0x7E, none, some 0x7F⟩
def fE5M2 : FFmt := ⟨5, 2, 15, 0x7B, some 0x7C, some 0x7E⟩
def fE2M3 : FFmt := ⟨2, 3, 1, 0x1F, none, none⟩
def fE3M2 : FFmt := ⟨3, 2, 3, 0x1F, none, none⟩
def fE2M1 : FFmt := ⟨2, 1, 1, 0x7, none, none⟩
def fBF16 : FFmt := ⟨8, 7, 127, 0x7F7F, some 0x7F80, some 0x7FC0⟩
def fFP16 : FFmt := ⟨5, 10, 15, 0x7BFF, some 0x7C00, some 0x7E00⟩
def fFP32 : FFmt := ⟨8, 23, 127, 0x7F7FFFFF, some 0x7F800000, some 0x7FC00000⟩

/-- Format codes of R68. -/
def fmtInt8 : Nat := 0x00
def fmtInt4 : Nat := 0x01
def fmtFb4 : Nat := 0x07
def fmtFP32 : Nat := 0x0A
def fmtAcc : Nat := 0x0C
def fmtInt32 : Nat := 0x0D

/-- The floating-point format of a code, block-scaled codes giving their element format. -/
def ffmt : Nat → Option FFmt
  | 0x02 | 0x12 => some fE4M3 | 0x03 | 0x13 => some fE5M2 | 0x04 | 0x14 => some fE2M3 | 0x05 | 0x15 => some fE3M2
  | 0x06 | 0x07 | 0x16 => some fE2M1 | 0x08 => some fBF16 | 0x09 => some fFP16 | 0x0A => some fFP32
  | _ => none

/-- Element bits of a format code, R68; 0 for a reserved code. -/
def elemBits : Nat → Nat
  | 0x00 | 0x02 | 0x03 | 0x0B | 0x0E | 0x10 | 0x12 | 0x13 => 8
  | 0x01 | 0x06 | 0x07 | 0x16 => 4
  | 0x04 | 0x05 | 0x14 | 0x15 => 6
  | 0x08 | 0x09 => 16
  | 0x0A | 0x0D => 32
  | 0x0C => 128
  | _ => 0

/-- Block size of a block-scaled code, R68; 0 for the others. -/
def blockSize : Nat → Nat
  | 0x07 => 16
  | 0x10 | 0x12 | 0x13 | 0x14 | 0x15 | 0x16 => 32
  | _ => 0

/-- The value an encoding of a floating-point format stands for, R67. Every encoding above the largest finite one that
is not the infinity is a NaN. -/
def FFmt.decode (f : FFmt) (raw : Nat) : Val :=
  let w := f.eb + f.mb
  let neg := raw / 2 ^ w % 2 == 1
  let mag := raw % 2 ^ w
  if mag > f.maxMag then (if f.inf = some mag then .inf neg else .nan)
  else
    let ex := mag / 2 ^ f.mb
    let mant := mag % 2 ^ f.mb
    if ex = 0 then .fin neg mant (1 - (f.bias : Int) - f.mb)
    else .fin neg (mant + 2 ^ f.mb) ((ex : Int) - f.bias - f.mb)

/-- A scale of type UE4M4, R67: unsigned, 4 exponent and 4 mantissa bits, bias 7, 0xFF the NaN. -/
def decodeUE4M4 (raw : Nat) : Val :=
  if raw % 256 = 0xFF then .nan
  else if raw % 256 / 16 = 0 then .fin false (raw % 16) (-10)
  else .fin false (raw % 16 + 16) ((raw % 256 / 16 : Int) - 11)

/-- A scale of type E8M0, R67: 2^(k − 127), 0xFF the NaN. -/
def decodeE8M0 (raw : Nat) : Val := if raw % 256 = 0xFF then .nan else .fin false 1 ((raw % 256 : Int) - 127)

/-- An integer as a value. -/
def ofZ (i : Int) : Val := .fin (i < 0) i.natAbs 0

/-- The value of an element, its block scale left out. -/
def decodeElem (fmt raw : Nat) : Val :=
  match ffmt fmt with
  | some f => f.decode raw
  | none =>
    if fmt = 0x0B then decodeE8M0 raw
    else if fmt = 0x0E then decodeUE4M4 raw
    else ofZ (asInt (elemBits fmt) raw)

/-! ### Rounding -/

/-- Rounding modes of R88; stochastic rounding carries its random 24 bits (R89). -/
inductive RMode where
  | rne | rtz | sr (r : Nat)
  deriving DecidableEq, Repr

/-- Does the magnitude `q + rem / 2^k` of the output's last place round up (R88, R89)? -/
def roundUp (md : RMode) (q rem k : Nat) : Bool :=
  match md with
  | .rtz => false
  | .rne => decide (2 ^ k < 2 * rem) || (decide (2 * rem = 2 ^ k) && decide (0 < k) && q % 2 == 1)
  | .sr r => decide (2 ^ 24 ≤ rem * 2 ^ 24 / 2 ^ k + r)

/-- The NaN of a format, R67; formats without one give the largest finite magnitude (no rule converts to them). -/
def FFmt.nanBits (f : FFmt) : Nat := f.nan.getD f.maxMag

/-- A signed encoding. -/
def FFmt.signed (f : FFmt) (neg : Bool) (mag : Nat) : Nat := (if neg then 2 ^ (f.eb + f.mb) else 0) + mag

/-- An infinite value in a format: its infinity, or the NaN where the format has none (R88). -/
def FFmt.infBits (f : FFmt) (neg : Bool) : Nat :=
  match f.inf with
  | some i => f.signed neg i
  | none => f.nanBits

/-- A finite overflow, R88: infinity of the sign in RNE, the largest finite value in RTZ, SR, SATFIN and in formats
without an infinity. -/
def FFmt.overflow (f : FFmt) (md : RMode) (satfin neg : Bool) : Nat :=
  match md, f.inf with
  | .rne, some i => if satfin then f.signed neg f.maxMag else f.signed neg i
  | _, _ => f.signed neg f.maxMag

/-- Round (−1)^neg × m × 2^e to a format once (R88). The second component says that it overflowed. -/
def FFmt.roundFin (f : FFmt) (md : RMode) (satfin neg : Bool) (m : Nat) (e : Int) : Nat × Bool :=
  if m = 0 then (f.signed neg 0, false)
  else
    let qmin : Int := 1 - (f.bias : Int) - f.mb
    let q : Int := max ((Nat.log2 m : Int) + e - f.mb) qmin
    let mag0 :=
      if q ≤ e then m * 2 ^ (e - q).toNat
      else
        let k := (q - e).toNat
        let hi := m / 2 ^ k
        if roundUp md hi (m % 2 ^ k) k then hi + 1 else hi
    let mag := (q - qmin).toNat * 2 ^ f.mb + mag0
    if f.maxMag < mag then (f.overflow md satfin neg, true) else (f.signed neg mag, false)

/-- Round a value to a format (R88). -/
def FFmt.round (f : FFmt) (md : RMode) (satfin : Bool) : Val → Nat × Bool
  | .nan => (f.nanBits, false)
  | .inf neg => (f.infBits neg, false)
  | .fin neg m e => f.roundFin md satfin neg m e

/-- Round to FP32 with RNE. -/
def toF32 (v : Val) : Word := BitVec.ofNat 32 (fFP32.round .rne false v).1
/-- The value of an FP32 word. -/
def ofF32 (w : Word) : Val := fFP32.decode w.toNat

/-- Round a value to INT32 (R117): NaN gives 0, results outside the range give its ends. -/
def toInt32 (md : RMode) : Val → Nat
  | .nan => 0
  | .inf neg => if neg then 0x80000000 else 0x7FFFFFFF
  | .fin neg m e =>
    let mag :=
      if 0 ≤ e then m * 2 ^ e.toNat
      else
        let k := (-e).toNat
        let hi := m / 2 ^ k
        if roundUp md hi (m % 2 ^ k) k then hi + 1 else hi
    if neg then (if 0x80000000 < mag then 0x80000000 else ofInt 32 (-(mag : Int)))
    else if 0x7FFFFFFF < mag then 0x7FFFFFFF else mag

/-! ### Exact arithmetic on values -/

def Val.neg : Val → Val
  | .nan => .nan
  | .inf n => .inf (!n)
  | .fin n m e => .fin (!n) m e

def Val.mul : Val → Val → Val
  | .nan, _ => .nan
  | _, .nan => .nan
  | .inf a, .inf b => .inf (a != b)
  | .inf a, .fin b m _ => if m = 0 then .nan else .inf (a != b)
  | .fin a m _, .inf b => if m = 0 then .nan else .inf (a != b)
  | .fin a m e, .fin b n f => .fin (a != b) (m * n) (e + f)

/-- The integer of (−1)^neg × m × 2^e in units of 2^u, for u ≤ e. -/
def scaled (neg : Bool) (m : Nat) (e u : Int) : Int :=
  let x : Int := (m * 2 ^ (e - u).toNat : Nat)
  if neg then -x else x

/-- Exact sum; a sum of opposite values is +0 and −0 + −0 is −0 (IEEE 754, R90). -/
def Val.add : Val → Val → Val
  | .nan, _ => .nan
  | _, .nan => .nan
  | .inf a, .inf b => if a = b then .inf a else .nan
  | .inf a, .fin _ _ _ => .inf a
  | .fin _ _ _, .inf b => .inf b
  | .fin a m e, .fin b n f =>
    let u := min e f
    let s := scaled a m e u + scaled b n f u
    if s = 0 then .fin (a && b && decide (m = 0) && decide (n = 0)) 0 u else .fin (s < 0) s.natAbs u

/-- `a < b` on values that are no NaN, −0 and +0 being equal. -/
def Val.lt : Val → Val → Bool
  | .nan, _ => false
  | _, .nan => false
  | .inf a, .inf b => a && !b
  | .inf a, .fin _ _ _ => a
  | .fin _ _ _, .inf b => !b
  | .fin a m e, .fin b n f => let u := min e f; decide (scaled a m e u < scaled b n f u)

def Val.isZero : Val → Bool
  | .fin _ m _ => m == 0
  | _ => false

def Val.isNan : Val → Bool
  | .nan => true
  | _ => false

def Val.isNeg : Val → Bool
  | .nan => false
  | .inf n => n
  | .fin n _ _ => n

/-- The larger value, +0 above −0 (R95, R117); NaN when either is. -/
def Val.max2 (a b : Val) : Val :=
  if a.isNan || b.isNan then .nan
  else if a.isZero && b.isZero then (if a.isNeg then b else a)
  else if a.lt b then b else a

/-- The smaller value, −0 below +0. -/
def Val.min2 (a b : Val) : Val :=
  if a.isNan || b.isNan then .nan
  else if a.isZero && b.isZero then (if a.isNeg then a else b)
  else if b.lt a then b else a

/-- FP32 addition with RNE. -/
def addF32 (a b : Word) : Word := toF32 ((ofF32 a).add (ofF32 b))
/-- FP32 multiplication with RNE. -/
def mulF32 (a b : Word) : Word := toF32 ((ofF32 a).mul (ofF32 b))

/-- The pairwise sum `tree_sum` of R95: the left part takes the largest power of two below n elements. `fuel` bounds
the depth (log2 of the length and one suffice). -/
def treeSum : Nat → List Word → Word
  | _, [] => 0
  | _, [x] => x
  | 0, x :: _ => x
  | fuel + 1, xs =>
    let m := 2 ^ Nat.log2 (xs.length - 1)
    addF32 (treeSum fuel (xs.take m)) (treeSum fuel (xs.drop m))

/-! ### Philox4x32-10, R89 -/

/-- One round: multipliers 0xD2511F53 and 0xCD9E8D57 of the published generator (PRESUMED, log entry 7). -/
def philoxRound (k0 k1 : Word) (x : Word × Word × Word × Word) : Word × Word × Word × Word :=
  let (c0, c1, c2, c3) := x
  let p0 := 0xD2511F53 * c0.toNat
  let p1 := 0xCD9E8D57 * c2.toNat
  (BitVec.ofNat 32 (p1 / 2 ^ 32) ^^^ c1 ^^^ k0, BitVec.ofNat 32 p1, BitVec.ofNat 32 (p0 / 2 ^ 32) ^^^ c3 ^^^ k1,
    BitVec.ofNat 32 p0)

/-- Rounds with the key raised by the Weyl constants between them. -/
def philoxRounds : Nat → Word → Word → Word × Word × Word × Word → Word × Word × Word × Word
  | 0, _, _, x => x
  | n + 1, k0, k1, x => philoxRounds n (k0 + 0x9E3779B9#32) (k1 + 0xBB67AE85#32) (philoxRound k0 k1 x)

/-- The Philox4x32-10 block of a 64-bit key, bits [31:0] as key word 0 (R89). -/
def philox (key : Dword) (c : Word × Word × Word × Word) : Word × Word × Word × Word :=
  philoxRounds 10 (key.truncate 32) ((key >>> 32).truncate 32) c

/-- The 24 random bits of an element under stochastic rounding, R89. -/
def srBits (seed : Dword) (row col salt : Word) : Nat := (philox seed (col, row, salt, 0x53520000#32)).1.toNat % 2 ^ 24

/-! ### Accumulator entries -/

def flNan : Nat := 0
def flPosInf : Nat := 1
def flNegInf : Nat := 2
def flPosSat : Nat := 3
def flNegSat : Nat := 4
def flInexact : Nat := 5
def flKLimit : Nat := 6

def AccEntry.flag (a : AccEntry) (b : Nat) : Bool := a.flags.getLsbD b
def AccEntry.setFlag (a : AccEntry) (b : Nat) : AccEntry := { a with flags := a.flags ||| (1#7 <<< b) }

/-- The count rises by `n`, saturating at 2^25 − 1; above 2^24 K_LIMIT is set (R82, R85). -/
def AccEntry.addCount (a : AccEntry) (n : Nat) : AccEntry :=
  let c := min (a.count + n) (2 ^ 25 - 1)
  let a1 := { a with count := c }
  if 2 ^ 24 < c then a1.setFlag flKLimit else a1

/-- The window of R82 on one product of sign `neg` and magnitude m × 2^e, under anchor X: rules 3 and 4. -/
def AccEntry.addProduct (a : AccEntry) (x : Int) (neg : Bool) (m : Nat) (e : Int) : AccEntry :=
  if m = 0 then a
  else if x + 35 ≤ (Nat.log2 m : Int) + e then a.setFlag (if neg then flNegSat else flPosSat)
  else
    let d := e - (x - 36)
    if 0 ≤ d then
      let t : Int := (m * 2 ^ d.toNat : Nat)
      { a with acc := a.acc + BitVec.ofInt 96 (if neg then -t else t) }
    else
      let k := (-d).toNat
      let t : Int := if neg then -(m : Int) else m
      let a1 := { a with acc := a.acc + BitVec.ofInt 96 (t / (2 ^ k : Int)) }
      if m % 2 ^ k = 0 then a1 else a1.setFlag flInexact

/-- One product of R82: `va`, `vb` the elements with FB4 scales included, `sc` the sum of the MX exponents, none when a
block scale is NaN. -/
def AccEntry.mac (a : AccEntry) (x : Int) (va vb : Val) (sc : Option Int) (poison : Bool) : AccEntry :=
  let a1 :=
    match sc with
    | none => a.setFlag flNan
    | some k =>
      match va.mul vb with
      | .nan => a.setFlag flNan
      | .inf neg => a.setFlag (if neg then flNegInf else flPosInf)
      | .fin neg m e => a.addProduct x neg m (e + k)
  let a2 := a1.addCount 1
  { a2 with poison := a2.poison || poison }

/-- The combination of ACC96 records and entries, R85. -/
def AccEntry.combine (a b : AccEntry) : AccEntry :=
  let c := ({ a with acc := a.acc + b.acc, flags := a.flags ||| b.flags, poison := a.poison || b.poison }).addCount b.count
  c

/-- The ACC96 record of an entry, R84. -/
def AccEntry.record (a : AccEntry) : Nat := a.acc.toNat + (a.count % 2 ^ 25) * 2 ^ 96 + a.flags.toNat * 2 ^ 121

/-- The entry of an ACC96 record, R84. -/
def AccEntry.ofRecord (r : Nat) (poison : Bool) : AccEntry :=
  { acc := BitVec.ofNat 96 r, count := bits r 120 96, flags := BitVec.ofNat 7 (bits r 127 121), poison := poison }

/-- What CCVT takes from an EXACT entry before the scale factors, R87. -/
inductive Taken where
  | nan | inf (neg : Bool) | sat (neg : Bool) | exact (v : Val)
  deriving DecidableEq, Repr

/-- The rules of R87 in order. -/
def AccEntry.taken (a : AccEntry) (x : Int) : Taken :=
  if a.flag flNan || a.flag flKLimit || (a.flag flPosInf && a.flag flNegInf) then .nan
  else if a.flag flPosInf || a.flag flNegInf then .inf (a.flag flNegInf)
  else if a.flag flPosSat && a.flag flNegSat then .nan
  else if a.flag flPosSat || a.flag flNegSat then .sat (a.flag flNegSat)
  else .exact (.fin (a.acc.toInt < 0) a.acc.toInt.natAbs (x - 36))

def Val.isInf : Val → Bool
  | .inf _ => true
  | _ => false

/-- v × g1 × g2 of R86: a factor that is NaN gives NaN, and an infinite one gives infinity, whatever the other factor is, or NaN when
v is zero. -/
def Val.scale (v g1 g2 : Val) : Val :=
  if v.isNan || g1.isNan || g2.isNan then .nan
  else if g1.isInf || g2.isInf then (if v.isZero then .nan else .inf (v.isNeg != (g1.isNeg != g2.isNeg)))
  else (v.mul g1).mul g2

/-- The scale factors of R86 applied to a value; an exact zero gives +0. -/
def applyScale (v g1 g2 : Val) : Val :=
  match v.scale g1 g2 with
  | .fin n m e => if m = 0 then .fin false 0 e else .fin n m e
  | r => r

/-- The result of CCVT on what an EXACT entry gives: output bits and whether it overflowed (R87, R88). -/
def Taken.convert (t : Taken) (f : FFmt) (md : RMode) (satfin : Bool) (g1 g2 : Val) : Nat × Bool :=
  match t with
  | .nan => (f.nanBits, false)
  | .exact v => f.round md satfin (applyScale v g1 g2)
  | .inf neg =>
    if g1.isNan || g2.isNan || g1.isZero || g2.isZero then (f.nanBits, false)
    else (f.infBits (neg != (g1.isNeg != g2.isNeg)), false)
  | .sat neg =>
    if g1.isNan || g2.isNan || g1.isZero || g2.isZero then (f.nanBits, false)
    else
      let n := neg != (g1.isNeg != g2.isNeg)
      match f.inf with
      | some i => (f.signed n i, false)
      | none => (f.signed n f.maxMag, false)

/-- The result of CCVT on an F32 entry, R91: the exact product keeps its sign when it is zero (log entry 8). -/
def convertF32 (w : Word) (f : FFmt) (md : RMode) (satfin : Bool) (g1 g2 : Val) : Nat × Bool :=
  f.round md satfin ((ofF32 w).scale g1 g2)

/-- The CUBE_FLAGS bits that an EXACT entry ORs in: Acc_Poison, Nan, Pos_Inf, Neg_Inf, Pos_Sat, Neg_Sat, Inexact_Lo,
K_Limit in bits 0 to 7 (02). -/
def AccEntry.cubeFlags (a : AccEntry) : BitVec 9 :=
  (if a.poison then 1#9 else 0#9) ||| ((a.flags.zeroExtend 9) <<< 1)

/-- The CUBE_FLAGS bits of an F32 entry, R91. -/
def f32CubeFlags (w : Word) (poison : Bool) : BitVec 9 :=
  (if poison then 1#9 else 0#9) |||
    (match ofF32 w with
     | .nan => 2#9
     | .inf false => 4#9
     | .inf true => 8#9
     | _ => 0#9)

end Sys2Proof.Machine
end

