-- ==== Sys2Proof/Machine/Operands.lean ====
section
/-!
DEFINITION. Operand fields of instructions (R102, R103), their rows in the scratchpad with poison (R63) and block scales
(R69 to R72), loop terms (R105, R107), footprints (R64), and tensor descriptors (R119).
-/

namespace Sys2Proof.Machine

/-- A scratchpad operand, R102. -/
structure Opnd where
  addr : Nat
  rows : Nat
  cols : Nat
  stride : Nat
  fmt : Nat
  deriving DecidableEq, Repr

/-- A size field of which the value 0 encodes `n`. -/
def sizeField (v n : Nat) : Nat := if v = 0 then n else v

/-- The operand field of R102. -/
def opnd (f : Dword) : Opnd :=
  let v := f.toNat
  { addr := bits v 15 0, rows := sizeField (bits v 25 16) 1024, cols := sizeField (bits v 35 26) 1024,
    stride := bits v 51 36, fmt := bits v 56 52 }

/-- The first accumulator entry of an accumulator operand, R103. -/
def Opnd.accBase (o : Opnd) : Nat := o.addr % 256
/-- Entries of an accumulator operand. -/
def Opnd.entries (o : Opnd) : Nat := o.rows * o.cols

/-- Row length L in bytes, R102. -/
def Opnd.rowLen (o : Opnd) : Nat := (o.cols * elemBits o.fmt + 7) / 8

/-- Bytes of scales per row, R70: one per block, rounded up to a multiple of 32. -/
def Opnd.scaleStride (o : Opnd) : Nat :=
  if blockSize o.fmt = 0 then 0 else ((o.cols + blockSize o.fmt - 1) / blockSize o.fmt + 31) / 32 * 32

/-- Scratchpad address of row r. -/
def Opnd.rowAddr (o : Opnd) (r : Nat) : Nat := o.addr + r * o.stride
/-- Scratchpad address of the scales of row r, R70. -/
def Opnd.scaleAddr (o : Opnd) (r : Nat) : Nat := o.addr + o.rows * o.stride + r * o.scaleStride

/-- One past the last byte of the footprint, R102. -/
def Opnd.foot (o : Opnd) : Nat :=
  if blockSize o.fmt = 0 then o.rowAddr (o.rows - 1) + o.rowLen
  else o.scaleAddr (o.rows - 1) + (o.cols + blockSize o.fmt - 1) / blockSize o.fmt

/-- The granules of the footprint, R64. -/
def Opnd.granules (o : Opnd) : List Nat :=
  let lo := o.addr / 256
  let hi := (o.foot - 1) / 256
  (List.range (hi + 1 - lo)).map (· + lo)

/-- The scoreboard units of accumulator tiles, numbered 256 to 259 (R129), of an accumulator operand. -/
def Opnd.tiles (o : Opnd) : List Nat :=
  let lo := o.accBase / 64
  let hi := (o.accBase + o.entries - 1) / 64
  ((List.range (hi + 1 - lo)).map (· + lo + 256))

/-! ### Rows in the scratchpad -/

/-- The device address of a scratchpad address of a core. -/
def spad (c a : Nat) : Nat := scratchAddr c + a % 65536

/-- `n` bytes of a core's scratchpad. -/
def State.spRead (s : State) (c a n : Nat) : List Byte := (List.range n).map (fun i => s.mem.byte (spad c (a + i)))

/-- The 32-byte row of a scratchpad address carries a poison mark. -/
def State.spMarked (s : State) (c a : Nat) : Bool := s.mem.marked (unitBase (spad c a))

/-- Some row of a range is marked. -/
def State.spPoisoned (s : State) (c a n : Nat) : Bool :=
  decide (0 < n) && (List.range ((a + n - 1) / 32 + 1 - a / 32)).any (fun i => s.spMarked c ((a / 32 + i) * 32))

/-- Store bytes that begin at an aligned row, each with the mark its value carries, 32 bytes at a time: a row is marked
when any byte stored in it carries a mark, or when it was marked and is stored only in part (R63, R547). `fuel` counts
the rows. -/
def Mem.storeRows (m : Mem) (a : Nat) : Nat → List Byte → List Bool → Mem
  | 0, _, _ => m
  | fuel + 1, bs, ps =>
    if bs.isEmpty then m
    else
      let chunk := bs.take 32
      let mark := (ps.take 32).any id || (m.marked (unitBase a) && decide (chunk.length < 32))
      ((m.write a chunk).setMark (unitBase a) mark).storeRows (a + 32) fuel (bs.drop 32) (ps.drop 32)

/-- Store a row of an operand at an aligned scratchpad address of a core. -/
def State.spStore (s : State) (c a : Nat) (bs : List Byte) (ps : List Bool) : State :=
  let bs1 := bs.take (65536 - a % 65536)
  s.onMem fun m => m.storeRows (spad c a) ((bs1.length + 31) / 32) bs1 ps

/-! ### Elements -/

/-- The raw bits of element i of a row of bytes, R69. -/
def rawElem (row : Nat) (b i : Nat) : Nat := row / 2 ^ (b * i) % 2 ^ b

/-- Raw elements of row r of an operand, each with its mark. -/
def State.rawRow (s : State) (c : Nat) (o : Opnd) (r : Nat) : List (Nat × Bool) :=
  let a := o.rowAddr r
  let v := leNat (s.spRead c a o.rowLen)
  let b := elemBits o.fmt
  (List.range o.cols).map fun i =>
    (rawElem v b i, s.spMarked c (a + b * i / 8) || s.spMarked c (a + (b * i + b - 1) / 8))

/-- Bytes of a row of raw elements, R69. -/
def packRow (b : Nat) (xs : List Nat) : List Byte :=
  leBytes ((xs.length * b + 7) / 8) ((xs.mapIdx fun i x => x % 2 ^ b * 2 ^ (b * i)).foldl (· + ·) 0)

/-- The mark of each byte of a row of elements: a byte carries the marks of the elements with bits in it. -/
def packMarks (b : Nat) (ps : List Bool) : List Bool :=
  (List.range ((ps.length * b + 7) / 8)).map fun j => (List.range ps.length).any fun i =>
    (ps.getD i false) && decide (b * i < 8 * (j + 1)) && decide (8 * j < b * (i + 1))

/-- Store raw elements as row r of an operand. -/
def State.storeElems (s : State) (c : Nat) (o : Opnd) (r : Nat) (xs : List (Nat × Bool)) : State :=
  let b := elemBits o.fmt
  let marks := if xs.all (fun x => !x.2) then List.replicate ((xs.length * b + 7) / 8) false else packMarks b (xs.map (·.2))
  s.spStore c (o.rowAddr r) (packRow b (xs.map (·.1))) marks

/-- The block scale of element i of row r, with the mark of its row: the UE4M4 value of FB4 (R71) and the exponent of an
MX scale, none when the scale is NaN (R72). -/
def State.scaleOf (s : State) (c : Nat) (o : Opnd) (r i : Nat) : Val × Option Int × Bool :=
  let one : Val := .fin false 1 0
  if blockSize o.fmt = 0 then (one, some 0, false)
  else
    let a := o.scaleAddr r + i / blockSize o.fmt
    let raw := (s.mem.byte (spad c a)).toNat
    let p := s.spMarked c a
    if o.fmt = fmtFb4 then (decodeUE4M4 raw, some 0, p)
    else if raw = 0xFF then (one, none, p)
    else (one, some ((raw : Int) - 127), p)

/-- A cube source element: its value with FB4 scale, the exponent of its MX scale or none for a NaN scale, its mark. -/
structure CElem where
  v : Val
  k : Option Int
  p : Bool
  deriving DecidableEq, Repr

/-- The elements of row r of a cube operand (R71, R72, R73). -/
def State.cubeRow (s : State) (c : Nat) (o : Opnd) (r : Nat) : List CElem :=
  (s.rawRow c o r).mapIdx fun i x =>
    let (sc, k, p) := s.scaleOf c o r i
    { v := (decodeElem o.fmt x.1).mul sc, k := k, p := x.2 || p }

/-! ### Loop terms, R105, R107 -/

/-- The term of one loop for an operand: step field `f`, iteration index `i`. -/
def loopTerm (f : Dword) (i : Nat) : Int :=
  let step := asInt 16 f.toNat
  let wrap := bits f.toNat 31 16
  step * (if wrap = 0 then (i : Int) else (i % wrap : Nat))

/-- Add a term to the address field of an operand. -/
def stepAddr (f : Dword) (t : Int) : Dword :=
  let a := ofInt 16 ((bits f.toNat 15 0 : Int) + t)
  BitVec.ofNat 64 (f.toNat / 65536 * 65536 + a)

/-- Add a term, in rows, to the origin of a MOVE (R105, R107): Row_Org is bits [39:0]. -/
def stepOrigin (f : Dword) (t : Int) : Dword :=
  let a := ofInt 40 ((bits f.toNat 39 0 : Int) + t)
  BitVec.ofNat 64 (f.toNat / 2 ^ 40 * 2 ^ 40 + a)

/-- The sum of the terms over the enclosing loops for one operand field. -/
def loopSum (iters : List (Nat × IFields)) (g : IFields → Dword) : Int :=
  (iters.map fun x => loopTerm (g x.2) x.1).foldl (· + ·) 0

/-- MLOAD and MSTORE carry an origin in Src_B. -/
def isMove (op : Nat) : Bool := op == 0x80 || op == 0x81

/-- An operand field that is an accumulator operand: Step_Mask never applies to it (R103). -/
def isAccField (op : Nat) (which : Nat) : Bool :=
  match op, which with
  | 0x21, 0 => true | 0x22, 1 => true | 0x23, 1 => true | 0x24, 0 => true | _, _ => false

/-- An engine instruction with the loop terms added, as the sequencer forms them at dispatch (R107). -/
def addTerms (op : Nat) (w : IFields) (iters : List (Nat × IFields)) : IFields :=
  let m := w.mods.toNat
  { w with
    dest := if bits m 15 15 = 1 ∧ !isAccField op 0 then stepAddr w.dest (loopSum iters (·.dest)) else w.dest
    srcA := if bits m 14 14 = 1 ∧ !isAccField op 1 then stepAddr w.srcA (loopSum iters (·.srcA)) else w.srcA
    srcB := if bits m 13 13 = 1 then
        (if isMove op then stepOrigin w.srcB (loopSum iters (·.srcB)) else stepAddr w.srcB (loopSum iters (·.srcB)))
      else w.srcB }

/-! ### Tensor descriptors, R119 -/

/-- A tensor descriptor. -/
structure Desc where
  raw : Nat
  deriving DecidableEq, Repr

def Desc.base (d : Desc) : Nat := bits d.raw 63 0
def Desc.idxSlot (d : Desc) : Nat := bits d.raw 95 84
def Desc.rank (d : Desc) : Nat := bits d.raw 99 98 + 1
def Desc.fmt (d : Desc) : Nat := bits d.raw 104 100
def Desc.window (d : Desc) : Nat := bits d.raw 110 105
def Desc.deviceId (d : Desc) : Nat := bits d.raw 125 111
def Desc.kind (d : Desc) : Nat := bits d.raw 127 126
def Desc.idxBound (d : Desc) : Nat := bits d.raw 415 384
/-- Size of dimension n; 0 encodes 2^24. -/
def Desc.size (d : Desc) (n : Nat) : Nat := sizeField (bits d.raw (191 + 64 * n) (168 + 64 * n)) (2 ^ 24)
/-- Stride of dimension n in bytes, two's complement; dimension 0 is contiguous. -/
def Desc.stride (d : Desc) (n : Nat) : Int := asInt 40 (bits d.raw (167 + 64 * n) (128 + 64 * n))

/-- Flattened rows of the tensor. -/
def Desc.flatRows (d : Desc) : Nat := d.size 1 * d.size 2 * d.size 3

/-- The address of element `col` of flattened row `f`, R120. -/
def Desc.elemAddr (d : Desc) (f col : Nat) : Int :=
  let s1 := d.size 1
  let s2 := d.size 2
  (d.base : Int) + ((col * elemBits d.fmt / 8 : Nat) : Int) + (f % s1 : Nat) * d.stride 1
    + (f / s1 % s2 : Nat) * d.stride 2 + (f / (s1 * s2) : Nat) * d.stride 3

/-- The device address of descriptor slot s of a core's task, R119. -/
def State.descAddr (s : State) (c slot : Nat) : Nat := (s.core c).descBase + 64 * slot

/-! ### What an instruction reads and writes: scoreboard units, R64, R65 -/

/-- Units read and units written by an engine instruction (granules 0 to 255, tiles 256 to 259). -/
def unitsRW (op : Nat) (w : IFields) : List Nat × List Nat :=
  let d := opnd w.dest
  let a := opnd w.srcA
  let b := opnd w.srcB
  let hasB : List Nat := if w.srcB = 0 then [] else b.granules
  match op with
  | 0x20 => ([], ((List.range 4).filter fun t => w.mods.getLsbD t).map (· + 256))
  | 0x21 => (a.granules ++ b.granules ++ d.tiles, d.tiles)
  | 0x22 => (a.tiles ++ (if w.mods.getLsbD 3 then b.granules else []), d.granules)
  | 0x23 => (a.tiles, d.granules)
  | 0x24 => (a.granules ++ d.tiles, d.tiles)
  | 0x43 => (a.granules ++ b.granules ++ d.granules, d.granules)
  | 0x46 | 0x47 | 0x50 | 0x51 | 0x52 | 0x53 | 0x54 | 0x55 | 0x58 | 0x59 | 0x5A => (a.granules, d.granules)
  | 0x69 => ([], d.granules)
  | 0x80 => ([], d.granules)
  | 0x81 => (a.granules, [])
  | 0xA0 => (a.granules, d.granules)
  | 0xA1 => (a.granules ++ b.granules, [])
  | 0xA2 => ([], d.granules ++ hasB)
  | _ => (a.granules ++ b.granules, d.granules)

/-- A later instruction must wait for an earlier one, R65: it reads a unit the earlier one writes, or writes a unit the
earlier one reads or writes. -/
def conflicts (earlier later : List Nat × List Nat) : Bool :=
  later.1.any (fun u => earlier.2.contains u) || later.2.any (fun u => earlier.1.contains u || earlier.2.contains u)

/-- The engine of an opcode, R106; none for the sequencer's and the reserved ones. -/
def engineOf (op : Nat) : Option Engine :=
  if 0x20 ≤ op ∧ op ≤ 0x24 then some .cube
  else if (0x40 ≤ op ∧ op ≤ 0x48) ∨ (0x50 ≤ op ∧ op ≤ 0x55) ∨ (0x58 ≤ op ∧ op ≤ 0x5A) ∨ (0x60 ≤ op ∧ op ≤ 0x64)
      ∨ op = 0x68 ∨ op = 0x69 then some .vec
  else if op = 0x80 ∨ op = 0x81 then some .move
  else if 0xA0 ≤ op ∧ op ≤ 0xA2 then some .gather
  else none

/-- The number of an engine, R108. -/
def Engine.num : Engine → Nat
  | .cube => 0 | .vec => 1 | .move => 2 | .gather => 3

/-- The engine of a number, R108. -/
def engineNum (n : Nat) : Engine :=
  match n % 4 with
  | 0 => .cube | 1 => .vec | 2 => .move | _ => .gather

end Sys2Proof.Machine
end

