-- ==== Sys2Proof/Machine/Cube.lean ====
section
/-!
DEFINITION. What the cube engine computes: tile clearing, multiply-accumulate in the shapes of R74, conversion, raw stores
and loads of accumulator entries (R74 to R91, R113 to R116).
-/

namespace Sys2Proof.Machine

/-- What an engine instruction comes to: the next state, or an error that ends its task with an event and a status. -/
inductive XRes where
  | ok (s : State)
  | err (s : State) (ev : Ev) (status : Nat) (address : Nat)
  deriving DecidableEq

/-- A format class of R74. -/
inductive FClass where
  | four | eight | sixteen
  deriving DecidableEq, Repr

/-- The class of a format: FP4 E2M1, MXFP4 and FB4; BF16 and FP16; every other. -/
def classOf (fmt : Nat) : FClass :=
  match fmt with
  | 0x06 | 0x07 | 0x16 => .four
  | 0x08 | 0x09 => .sixteen
  | _ => .eight

/-- The class a CMMA runs in, R75. -/
def classOfPair (fa fb : Nat) : FClass :=
  if classOf fa = .sixteen then .sixteen
  else if classOf fa = .four ∧ classOf fb = .four then .four else .eight

/-- M, K and N of one step, R74. -/
def shapeOf (shape : Nat) (cl : FClass) : Nat × Nat × Nat :=
  match shape, cl with
  | 0, .eight => (8, 4, 8) | 0, .four => (8, 8, 8) | 0, .sixteen => (8, 4, 4)
  | 1, .eight => (2, 8, 16) | 1, .four => (2, 16, 16) | 1, .sixteen => (2, 8, 8)
  | _, .eight => (1, 16, 16) | _, .four => (1, 32, 16) | _, .sixteen => (1, 16, 8)

def Core.tile (k : Core) (t : Nat) : Tile := lookD k.tiles t {}
def Core.acc (k : Core) (i : Nat) : AccEntry := lookD k.accs i {}

/-- Update an accumulator entry. -/
def Core.setAcc (k : Core) (i : Nat) (a : AccEntry) : Core := { k with accs := put k.accs i a }

/-- Some tile that the entries [base, base + n) meet has the mode `f32`. -/
def Core.anyMode (k : Core) (base n : Nat) (f32 : Bool) : Bool :=
  (List.range n).any fun i => (k.tile ((base + i) / 64)).f32Mode == f32

/-- ACLR, R114: clears the tiles of Modifiers [3:0] and sets their mode and anchor. -/
def State.aclr (s : State) (c : Nat) (w : IFields) : State :=
  let f32 := w.mods.getLsbD 4
  let x : Int := asInt 8 (bits w.aux.toNat 7 0)
  s.modCore c fun k =>
    (List.range 4).foldl (fun k t =>
      if w.mods.getLsbD t then
        { k with
          tiles := put k.tiles t { f32Mode := f32, anchor := if f32 then 0 else x }
          accs := k.accs.filter fun p => p.1 / 64 != t }
      else k) k

/-- The products of one step for one F32 entry: each in FP32, summed by a pairwise tree over K (R90). -/
def stepSum (as bs : List CElem) : Word :=
  treeSum 8 ((as.zip bs).map fun x => toF32 (x.1.v.mul x.2.v))

/-- The steps of a row pair for an F32 entry in rising K. `fuel` counts steps. -/
def f32Steps (k : Nat) : Nat → Word → List CElem → List CElem → Word
  | 0, v, _, _ => v
  | n + 1, v, as, bs => f32Steps k n (addF32 v (stepSum (as.take k) (bs.take k))) (as.drop k) (bs.drop k)

/-- One entry of a CMMA. -/
def cmmaEntry (cl : FClass) (k : Nat) (x : Int) (as bs : List CElem) (e : AccEntry) : AccEntry :=
  match cl with
  | .sixteen =>
    { e with
      f32 := f32Steps k (as.length / k) e.f32 as bs
      poison := e.poison || as.any (·.p) || bs.any (·.p) }
  | _ =>
    (as.zip bs).foldl (fun e ab =>
      e.mac x ab.1.v ab.2.v (match ab.1.k, ab.2.k with | some i, some j => some (i + j) | _, _ => none)
        (ab.1.p || ab.2.p)) e

/-- CMMA, R76, R82, R90. -/
def State.cmma (s : State) (c : Nat) (w : IFields) : XRes :=
  let od := opnd w.dest
  let oa := opnd w.srcA
  let ob := opnd w.srcB
  let cl := classOfPair oa.fmt ob.fmt
  let (_, k, _) := shapeOf (bits w.mods.toNat 1 0) cl
  if (s.core c).anyMode od.accBase od.entries (cl != .sixteen) then .err s .accMode stBadArg 0
  else
    let ra := (List.range od.rows).map (s.cubeRow c oa)
    let rb := (List.range od.cols).map (s.cubeRow c ob)
    .ok (s.modCore c fun core =>
      (ra.zipIdx).foldl (fun core x =>
        (rb.zipIdx).foldl (fun core y =>
          let i := od.accBase + x.2 * od.cols + y.2
          core.setAcc i (cmmaEntry cl k (core.tile (i / 64)).anchor x.1 y.1 (core.acc i))) core) core)

/-- The scale factors of CCVT, R115: a 1 × 1 or 1 × 2 FP32 operand, with its mark. -/
def State.scaleFactors (s : State) (c : Nat) (w : IFields) : Val × Val × Bool :=
  let one : Val := .fin false 1 0
  if w.mods.getLsbD 3 then
    let xs := s.rawRow c (opnd w.srcB) 0
    (fFP32.decode (xs.getD 0 (0x3F800000, false)).1, fFP32.decode (xs.getD 1 (0x3F800000, false)).1, xs.any (·.2))
  else (one, one, false)

/-- CUBE_FLAGS bit 8, Out_Ovf. -/
def outOvf : BitVec 9 := 0x100#9

/-- CCVT, R86 to R89, R91, R115. -/
def State.ccvt (s : State) (c : Nat) (w : IFields) : State :=
  let od := opnd w.dest
  let oa := opnd w.srcA
  let k := s.core c
  let (g1, g2, gp) := s.scaleFactors c w
  let salt : Word := w.aux.truncate 32
  let satfin := w.mods.getLsbD 2
  let f := (ffmt od.fmt).getD fFP32
  let res := (List.range oa.rows).map fun i => (List.range oa.cols).map fun j =>
    let n := oa.accBase + i * oa.cols + j
    let e := k.acc n
    let t := k.tile (n / 64)
    let md : RMode := match bits w.mods.toNat 1 0 with
      | 0 => .rne
      | 1 => .rtz
      | _ => .sr (srBits k.seed (k.tileRow + BitVec.ofNat 32 i) (k.tileCol + BitVec.ofNat 32 j) salt)
    let (r, ovf) := if t.f32Mode then convertF32 e.f32 f md satfin g1 g2 else (e.taken t.anchor).convert f md satfin g1 g2
    let fl := (if t.f32Mode then f32CubeFlags e.f32 e.poison else e.cubeFlags) ||| (if ovf then outOvf else 0#9)
    ((r, e.poison || gp), fl)
  let flags := (res.flatten.map (·.2)).foldl (· ||| ·) (0#9)
  let s1 := (res.zipIdx).foldl (fun s x => s.storeElems c od x.2 (x.1.map (·.1))) s
  s1.modCore c fun k => { k with cubeFlags := k.cubeFlags ||| flags }

/-- ACCST, R84, R116. -/
def State.accst (s : State) (c : Nat) (w : IFields) : XRes :=
  let od := opnd w.dest
  let oa := opnd w.srcA
  let k := s.core c
  if k.anyMode oa.accBase oa.entries true then .err s .accMode stBadArg 0
  else .ok ((List.range oa.rows).foldl (fun s i =>
    s.storeElems c od i ((List.range oa.cols).map fun j =>
      let e := k.acc (oa.accBase + i * oa.cols + j)
      (e.record, e.poison))) s)

/-- ACCLD, R85, R116. -/
def State.accld (s : State) (c : Nat) (w : IFields) : XRes :=
  let od := opnd w.dest
  let oa := opnd w.srcA
  if (s.core c).anyMode od.accBase od.entries true then .err s .accMode stBadArg 0
  else
    let recs := ((List.range od.rows).map fun i => s.rawRow c { oa with cols := od.cols, fmt := fmtAcc } i).flatten
    .ok (s.modCore c fun k =>
      (recs.zipIdx).foldl (fun k x =>
        let i := od.accBase + x.2
        k.setAcc i ((k.acc i).combine (AccEntry.ofRecord x.1.1 x.1.2))) k)

/-- What a CUBE instruction does, by opcode (R106). -/
def State.cubeOp (s : State) (c op : Nat) (w : IFields) : XRes :=
  match op with
  | 0x20 => .ok (s.aclr c w)
  | 0x21 => s.cmma c w
  | 0x22 => .ok (s.ccvt c w)
  | 0x23 => s.accst c w
  | 0x24 => s.accld c w
  | _ => .ok s

end Sys2Proof.Machine
end

