-- ==== Sys2Proof/Machine/Special.lean ====
section
/-!
DEFINITION. The special functions of R93: exp, log, reciprocal, rsqrt, tanh and erf, each the exact value rounded once to
FP32. Reciprocal and rsqrt are computed exactly. The others are bracketed in fixed point with 320 fraction bits by power
series, and the two ends of the bracket round alike, since none of the four functions has a rational value at a rational
argument but at the ones the edge table fixes.
-/

namespace Sys2Proof.Machine

/-- Fraction bits of the fixed-point series. -/
def fxBits : Nat := 320
/-- One in fixed point. -/
def fxOne : Nat := 2 ^ fxBits
/-- Terms of a series: enough for every term beyond to vanish below the last fraction bit. -/
def fxTerms : Nat := 240

/-- The sum of `(−1)^k z^(2k+1)/(2k+1)` in fixed point, or of the terms without signs: arctangent or inverse hyperbolic
tangent of z ≤ 1/3, as (positive, negative) parts. `p` is the power z^(2k+1), `z2` is z². -/
def oddSeries : Nat → Nat → Nat → Nat → Nat × Nat
  | 0, _, _, _ => (0, 0)
  | n + 1, k, p, z2 =>
    let (a, b) := oddSeries n (k + 1) (p * z2 / fxOne) z2
    let t := p / (2 * k + 1)
    if k % 2 = 0 then (a + t, b) else (a, b + t)

/-- atanh z in fixed point, for z in fixed point at most 1/3, below the exact value by less than 2^9 units. -/
def fxAtanh (z : Nat) : Nat := let (a, b) := oddSeries fxTerms 0 z (z * z / fxOne); a + b
/-- atan (1/n) in fixed point. -/
def fxAtanInv (n : Nat) : Nat := let (a, b) := oddSeries fxTerms 0 (fxOne / n) (fxOne / (n * n)); a - b
/-- ln 2 = 2 atanh (1/3). -/
def fxLn2 : Nat := 2 * fxAtanh (fxOne / 3)
/-- π = 16 atan (1/5) − 4 atan (1/239). -/
def fxPi : Nat := 16 * fxAtanInv 5 - 4 * fxAtanInv 239

/-- Integer square root by bits from the highest down: `fuel` bits are tried on top of `r`. -/
def isqrtFrom (n : Nat) : Nat → Nat → Nat
  | 0, r => r
  | k + 1, r => let c := r + 2 ^ k; isqrtFrom n k (if c * c ≤ n then c else r)

/-- ⌊√n⌋. -/
def isqrt (n : Nat) : Nat := isqrtFrom n (Nat.log2 n / 2 + 1) 0

/-- The exponential series of r in fixed point, 0 ≤ r < 1: terms from `t` = r^k/k!. -/
def expSeries : Nat → Nat → Nat → Nat → Nat
  | 0, _, _, _ => 0
  | n + 1, k, t, r => t + expSeries n (k + 1) (t * r / fxOne / (k + 1)) r

/-- Units of the last fraction bit that a series with its constants can be off. -/
def fxErr : Nat := 2 ^ 40

/-- Round a bracket `lo ≤ value ≤ hi`, both m × 2^e of one sign: the rounding of the lower end, which the upper end
shares. -/
def roundBracket (neg : Bool) (lo hi : Nat) (e : Int) : Word :=
  let a := toF32 (.fin neg lo e)
  let b := toF32 (.fin neg hi e)
  if a = b then a else toF32 (.fin neg ((lo + hi) / 2) e)

/-- The fixed-point magnitude of m × 2^e, rounded down. -/
def toFx (m : Nat) (e : Int) : Nat :=
  if 0 ≤ e + fxBits then m * 2 ^ (e + fxBits).toNat else m / 2 ^ (-(e + fxBits)).toNat

/-- e^x for |x| in fixed point below 2^9: mantissa in fixed point and a power of two. -/
def fxExp (neg : Bool) (x : Nat) : Nat × Int :=
  let k := x / fxLn2
  let r := x % fxLn2
  if neg then
    -- e^(−x) = 2^(−k−1) × e^(ln 2 − r)
    (expSeries fxTerms 0 fxOne (fxLn2 - r), -(k : Int) - 1)
  else (expSeries fxTerms 0 fxOne r, k)

def f32PosInf : Word := 0x7F800000#32
def f32Nan : Word := 0x7FC00000#32
def f32One : Word := 0x3F800000#32

/-- exp, R93: beyond |x| = 128 the result overflows or rounds to zero. -/
def spExp : Val → Word
  | .nan => f32Nan
  | .inf neg => if neg then 0 else f32PosInf
  | .fin neg m e =>
    if m = 0 then f32One
    else if 7 ≤ (Nat.log2 m : Int) + e then (if neg then 0 else f32PosInf)
    else
      let (v, k) := fxExp neg (toFx m e)
      roundBracket false (v - fxErr) (v + fxErr) (k - fxBits)

/-- log, R93. -/
def spLog : Val → Word
  | .nan => f32Nan
  | .inf neg => if neg then f32Nan else f32PosInf
  | .fin neg m e =>
    if m = 0 then 0xFF800000#32
    else if neg then f32Nan
    else
      let l := Nat.log2 m
      let k : Int := l + e
      -- m/2^l = 1 + d/2^l, z = d / (2 × 2^l + d)
      let d := m - 2 ^ l
      let lm := 2 * fxAtanh (d * fxOne / (2 ^ (l + 1) + d))
      let t : Int := k * fxLn2 + lm
      if d = 0 ∧ k = 0 then 0
      else if d = 0 then roundBracket (k < 0) (k.natAbs * fxLn2 - fxErr) (k.natAbs * fxLn2 + fxErr) (-(fxBits : Int))
      else roundBracket (t < 0) (t.natAbs - fxErr) (t.natAbs + fxErr) (-(fxBits : Int))

/-- Reciprocal, R93: the quotient to 64 bits below its leading one, with a sticky bit, rounds as the exact value. -/
def spRcp : Val → Word
  | .nan => f32Nan
  | .inf neg => if neg then 0x80000000#32 else 0
  | .fin neg m e =>
    if m = 0 then (if neg then 0xFF800000#32 else f32PosInf)
    else
      let n := 2 ^ (Nat.log2 m + 200)
      let q := n / m
      toF32 (.fin neg (2 * q + (if n % m = 0 then 0 else 1)) (-(Nat.log2 m : Int) - 201 - e))

/-- Reciprocal square root, R93: ⌊√(2^(2j)/x)⌋ with a sticky bit. -/
def spRsqrt : Val → Word
  | .nan => f32Nan
  | .inf neg => if neg then f32Nan else 0
  | .fin neg m e =>
    if m = 0 then (if neg then 0xFF800000#32 else f32PosInf)
    else if neg then f32Nan
    else
      -- make the exponent even
      let (m2, e2) : Nat × Int := if e % 2 = 0 then (m, e) else (2 * m, e - 1)
      let n := 2 ^ 400 / m2
      let r := isqrt n
      let exact := decide (2 ^ 400 % m2 = 0) && decide (r * r = n)
      toF32 (.fin false (2 * r + (if exact then 0 else 1)) (-201 - e2 / 2))

/-- tanh, R93. Below 2^(−12) the exact value lies within a third of a last place of x and rounds to x. -/
def spTanh : Val → Word
  | .nan => f32Nan
  | .inf neg => if neg then 0xBF800000#32 else f32One
  | .fin neg m e =>
    if m = 0 then toF32 (.fin neg 0 0)
    else if (Nat.log2 m : Int) + e < -12 then toF32 (.fin neg m e)
    else if 5 ≤ (Nat.log2 m : Int) + e then (if neg then 0xBF800000#32 else f32One)
    else
      -- tanh |x| = (1 − y) / (1 + y), y = e^(−2|x|)
      let (v, k) := fxExp true (2 * toFx m e)
      let y := v / 2 ^ (-k).toNat
      let t := (fxOne - y) * fxOne / (fxOne + y)
      roundBracket neg (t - fxErr) (t + fxErr) (-(fxBits : Int))

/-- The terms (−1)^k w^k / (k! (2k+1)) of erf(x)/x × √π/2, w = x², as positive and negative sums. `t` = w^k/k!. -/
def erfSeries : Nat → Nat → Nat → Nat → Nat × Nat
  | 0, _, _, _ => (0, 0)
  | n + 1, k, t, w =>
    let (a, b) := erfSeries n (k + 1) (t * w / fxOne / (k + 1)) w
    let u := t / (2 * k + 1)
    if k % 2 = 0 then (a + u, b) else (a, b + u)

/-- erf, R93. From |x| = 8 upward the result rounds to ±1. -/
def spErf : Val → Word
  | .nan => f32Nan
  | .inf neg => if neg then 0xBF800000#32 else f32One
  | .fin neg m e =>
    if m = 0 then toF32 (.fin neg 0 0)
    else if 3 ≤ (Nat.log2 m : Int) + e then (if neg then 0xBF800000#32 else f32One)
    else
      let w := toFx (m * m) (2 * e)
      let (a, b) := erfSeries (2 * fxTerms) 0 fxOne w
      -- 2/√π in fixed point
      let c := 2 * fxOne * fxOne / isqrt (fxPi * fxOne)
      let t := (a - b) * c / fxOne
      roundBracket neg ((t - 2 ^ 160) * m) ((t + 2 ^ 160) * m) (e - fxBits)

end Sys2Proof.Machine
end

