-- ==== Sys2Proof/Machine/Attention.lean ====
section
/-!
DEFINITION. The arithmetic that chapter 07 and R326 define for the supplied kernels: the attention parameter record, stored
keys and values, visibility, the forward and backward definitions, the status record, the page descriptor (R270 to R287),
and the optimiser of fine-tuning (R326). Kernels run on cores by their instructions; a kernel of the Nimbor set leaves what
these definitions give (R269), and the service engine uses the optimiser and the descriptor.
-/

namespace Sys2Proof.Machine

/-! ### FP32 helpers of the procedures -/

def fmaF32 (a b c : Word) : Word := toF32 (((ofF32 a).mul (ofF32 b)).add (ofF32 c))
def subF32 (a b : Word) : Word := toF32 ((ofF32 a).add (ofF32 b).neg)
def f32NegInf : Word := 0xFF800000#32
def f32Eq (a b : Word) : Bool :=
  !(ofF32 a).isNan && !(ofF32 b).isNan && !(ofF32 a).lt (ofF32 b) && !(ofF32 b).lt (ofF32 a)
def maxF32 (a b : Word) : Word := toF32 ((ofF32 a).max2 (ofF32 b))
/-- Round to BF16 with RNE. -/
def toBf16 (v : Val) : Val := fBF16.decode (fBF16.round .rne false v).1
/-- A plain cube element. -/
def plainElem (v : Val) : CElem := { v := v, k := some 0, p := false }
/-- A dot product on the 16-bit path in SHEET shape, K = 16 per step, from +0 (R74, R90). -/
def sheet16 (as bs : List Val) : Word :=
  f32Steps 16 ((as.length + 15) / 16) 0 (as.map plainElem) (bs.map plainElem)

/-! ### The attention parameter record, R270, R271, R281 -/

/-- The 64-byte record. -/
structure Apr where
  bs : List Byte
  deriving DecidableEq, Repr

def Apr.kind (a : Apr) : Nat := field a.bs 0 1
def Apr.headDim (a : Apr) : Nat := field a.bs 1 1
def Apr.qFmt (a : Apr) : Nat := field a.bs 2 1
def Apr.kvFmt (a : Apr) : Nat := field a.bs 3 1
def Apr.oFmt (a : Apr) : Nat := field a.bs 4 1
def Apr.mask (a : Apr) : Nat := field a.bs 5 1
def Apr.group (a : Apr) : Nat := field a.bs 6 1
def Apr.mode (a : Apr) : Nat := field a.bs 7 1
def Apr.sigma (a : Apr) : Word := BitVec.ofNat 32 (field a.bs 8 4)
def Apr.window (a : Apr) : Nat := field a.bs 12 4
def Apr.qPos (a : Apr) : Nat := field a.bs 0x10 4
def Apr.qRows (a : Apr) : Nat := field a.bs 0x14 4
def Apr.kExp (a : Apr) : Nat := field a.bs 0x18 1
def Apr.vExp (a : Apr) : Nat := field a.bs 0x19 1
def Apr.causal (a : Apr) : Bool := a.mask % 2 == 1
def Apr.windowed (a : Apr) : Bool := a.mask / 2 % 2 == 1
def Apr.keyMask (a : Apr) : Bool := a.mask / 4 % 2 == 1
/-- The head dimension d. -/
def Apr.dim (a : Apr) : Nat := 2 ^ a.headDim

/-- K_Len of R281: keys past it are not visible. -/
def Apr.kLen (a : Apr) : Nat := a.qPos + a.qRows

/-- Q_Rows and Q_Pos lie within the limits of R281. -/
def Apr.rowsOk (a : Apr) : Bool :=
  (match a.kind with
   | 1 => inRange a.qRows 1 65536 && a.qPos == 0
   | 2 | 5 => inRange a.qRows 1 65536
   | 3 => a.qRows == 1
   | 4 => inRange a.qRows 1 16
   | _ => false) && decide (a.kLen ≤ 2 ^ 20)

/-- The record is legal: R270, R271 and the limits of R281. An illegal one gives zeros and BAD_ARG in the status record. -/
def Apr.legal (a : Apr) : Bool :=
  inRange a.headDim 6 8 && (a.qFmt == 0x02 || a.qFmt == 0x08) && [0x02, 0x03, 0x06, 0x07, 0x08].contains a.kvFmt &&
    [0x02, 0x08, 0x0A].contains a.oFmt && decide (a.mask < 8) && inRange a.group 1 16 && decide (a.mode < 4) &&
    (match ofF32 a.sigma with | .fin _ m _ => m != 0 | _ => false) &&
    (if a.windowed then inRange a.window 1 (2 ^ 20) else a.window == 0) &&
    inRange a.kExp 95 159 && inRange a.vExp 95 159 && (a.bs.drop 0x1A).all (· == 0) &&
    ((a.qFmt == 0x08) == (a.kvFmt == 0x08)) && a.rowsOk

/-- Rows that a kernel appends before it reads any key (R281, R282). -/
def Apr.appends (a : Apr) : Nat := if a.kind = 5 then 0 else a.qRows

/-! ### Stored keys and values, R272, R273 -/

/-- The value of an E8M0 page scale. -/
def pageScale (scale : Nat) : Val := .fin false 1 ((scale : Int) - 127)

/-- An element of a dequantized row: stored value times page scale, in BF16 (R272). -/
def dequant (scale : Nat) (v : Val) : Val := toBf16 (v.mul (pageScale scale))

/-- x × 2^(127 − Scale). -/
def unscale (scale : Nat) (v : Val) : Val := v.mul (.fin false 1 (127 - (scale : Int)))

/-- Round to a format with RNE, saturating to the largest finite value of the sign, an infinity too (R273). -/
def saturate (f : FFmt) : Val → Nat
  | .nan => f.nan.getD 0
  | .inf n => f.signed n f.maxMag
  | .fin n m e => (f.roundFin .rne true n m e).1

/-- The scale code of an FB4 block: the smallest UE4M4 value c with 6c at least the largest magnitude, 480 above 2,880. -/
def fb4Scale (xs : List Val) : Nat :=
  let big (c : Nat) : Bool := xs.all fun x => match x with
    | .nan => true
    | .inf _ => false
    | .fin _ m e => !((Val.mul (decodeUE4M4 c) (.fin false 6 0)).lt (.fin false m e))
  ((List.range 0xFF).find? big).getD 0xFE

/-- An element of an FB4 block: x / c rounded to E2M1 with RNE, saturating at 6; 0 for NaN and under c = 0 (R273). -/
def fb4Elem (c : Nat) (x : Val) : Nat :=
  match x, decodeUE4M4 c with
  | .nan, _ => 0
  | .inf n, .fin _ cm _ => if cm = 0 then 0 else fE2M1.signed n fE2M1.maxMag
  | .fin n m e, .fin _ cm ce =>
    if cm = 0 then 0
    else
      -- the quotient to 64 bits with a sticky bit rounds as the exact one
      let q := m * 2 ^ 64 / cm
      (fE2M1.roundFin .rne true n (2 * q + (if m * 2 ^ 64 % cm = 0 then 0 else 1)) (e - ce - 65)).1
  | _, _ => 0

/-- Elements in groups of 16. `fuel` bounds the groups. -/
def blocks16 : Nat → List Val → List (List Val)
  | 0, _ => []
  | n + 1, xs => if xs.isEmpty then [] else xs.take 16 :: blocks16 n (xs.drop 16)

/-- A row as appended: element codes, and the block scales for FB4 (R273). -/
def storeRow (fmt scale : Nat) (xs : List Val) : List Nat × List Nat :=
  let ys := xs.map (unscale scale)
  if fmt = fmtFb4 then
    let bl := blocks16 ys.length ys
    let cs := bl.map fb4Scale
    ((bl.zip cs).flatMap fun x => x.1.map (fb4Elem x.2), cs)
  else if fmt = 0x08 then (ys.map fun y => (fBF16.round .rne false y).1, [])
  else
    let f := (ffmt fmt).getD fE4M3
    (ys.map fun y => if fmt = 0x06 ∧ y.isNan then 0 else saturate f y, [])

/-- The values of a stored row, FB4 block scales included. -/
def rowValues (fmt : Nat) (row : List Nat × List Nat) : List Val :=
  row.1.mapIdx fun i e =>
    let v := decodeElem fmt e
    if fmt = fmtFb4 then v.mul (decodeUE4M4 (row.2.getD (i / 16) 0)) else v

/-! ### Visibility and scores, R274 to R276 -/

/-- A stored key and value: the values of the rows, and the scales of their pages. -/
structure KvRow where
  k : List Val
  v : List Val
  kScale : Nat
  vScale : Nat
  deriving DecidableEq, Repr

/-- Key j is visible to a query row at position p (R274). -/
def Apr.visible (a : Apr) (keyMask : Nat → Nat) (p j : Nat) : Bool :=
  decide (j < a.kLen) && (!a.causal || decide (j ≤ p)) && (!a.windowed || decide (p < j + a.window)) &&
    (!a.keyMask || keyMask j != 0)

/-- δ of R276 and the CUBE_FLAGS it raises: an EXACT entry under anchor 0, or the 16-bit path for BF16 keys. -/
def Apr.delta (a : Apr) (q k : List Val) : Word × BitVec 9 :=
  if a.kvFmt = 0x08 then
    let w := sheet16 q k
    (w, f32CubeFlags w false)
  else
    let one : Val := .fin false 1 0
    let e := (q.zip k).foldl (fun (e : AccEntry) x => e.mac 0 x.1 x.2 (some 0) false) {}
    (BitVec.ofNat 32 ((e.taken 0).convert fFP32 .rne false one one).1, e.cubeFlags)

/-- The score of a query row at position p against key j, with the flags of its product; a key that is not visible is not read (R276,
R280). -/
def Apr.score (a : Apr) (keyMask : Nat → Nat) (keys : List KvRow) (q : List Val) (p j : Nat) : Word × BitVec 9 :=
  match keys[j]? with
  | none => (f32NegInf, 0)
  | some r =>
    if !a.visible keyMask p j then (f32NegInf, 0)
    else
      let x := a.delta q r.k
      (mulF32 x.1 (mulF32 a.sigma (toF32 (pageScale r.kScale))), x.2)

/-! ### The forward definition, R277 to R279 -/

/-- scale(x, y) of R277, for x ≤ y. -/
def attnScale (x y : Word) : Word :=
  if f32Eq x y then f32One else if x = f32NegInf then 0 else spExp (ofF32 (subF32 x y))

/-- The state of a segment or of the fold, with the CUBE_FLAGS raised on the way. -/
structure AttnState where
  m : Word := f32NegInf
  l : Word := 0
  o : List Word
  flags : BitVec 9 := 0
  deriving DecidableEq, Repr

/-- The p of a block: +0 for a key that is not visible or absent. -/
def attnWeights (mb : Word) (ss : List Word) : List Word :=
  ss.map fun s => if s = f32NegInf then 0 else spExp (ofF32 (subF32 s mb))

/-- One block of R277: 128 scores and the value rows of its keys (v̂, an absent key giving zeros). -/
def attnBlock (st : AttnState) (ss : List Word) (vs : List (List Val)) : AttnState :=
  let mb := ss.foldl maxF32 st.m
  let a := attnScale st.m mb
  let p := attnWeights mb ss
  let pb := p.map fun x => toBf16 (ofF32 x)
  let us := (List.range st.o.length).map fun c => sheet16 pb (vs.map fun v => v.getD c (.fin false 0 0))
  { m := mb
    l := fmaF32 st.l a (treeSum 16 p)
    o := (st.o.zip us).map fun x => fmaF32 x.1 a x.2
    flags := us.foldl (fun f u => f ||| f32CubeFlags u false) st.flags }

/-- The value row of key j in BF16 (R272). -/
def vHat (keys : List KvRow) (j : Nat) : List Val :=
  match keys[j]? with
  | some r => r.v.map (dequant r.vScale)
  | none => []

/-- The keys of block b, and whether one of them is visible to a query row (R275). -/
def blockKeys (b : Nat) : List Nat := (List.range 128).map (b * 128 + ·)
def Apr.seesBlock (a : Apr) (keyMask : Nat → Nat) (p b : Nat) : Bool := (blockKeys b).any (a.visible keyMask p)

/-- The state of segment g of a query row: those of its 32 blocks of 128 keys that hold a visible key. A key that is not visible enters
the products as an absent one, for a row depends on the stored rows visible to it alone (R275, R277, R280; log entry 181). -/
def Apr.segment (a : Apr) (keyMask : Nat → Nat) (keys : List KvRow) (q : List Val) (p g : Nat) : AttnState :=
  (((List.range 32).map (32 * g + ·)).filter (a.seesBlock keyMask p)).foldl (fun st b =>
    let js := blockKeys b
    let ss := js.map (a.score keyMask keys q p)
    attnBlock { st with flags := ss.foldl (fun f x => f ||| x.2) st.flags } (ss.map (·.1))
      (js.map fun j => if a.visible keyMask p j then vHat keys j else []))
    { o := List.replicate a.dim 0 }

/-- Fold a segment onto the state so far (R278). -/
def attnFold (x y : AttnState) : AttnState :=
  let n := maxF32 x.m y.m
  let a := attnScale x.m n
  let b := attnScale y.m n
  { m := n, l := fmaF32 x.l a (mulF32 y.l b)
    o := (x.o.zip y.o).map fun z => fmaF32 z.1 a (mulF32 z.2 b)
    flags := x.flags ||| y.flags }

/-- M, L and O of a query row: its segments that hold a visible key folded in rising order onto segment 0 (R278, R280). -/
def Apr.rowState (a : Apr) (keyMask : Nat → Nat) (keys : List KvRow) (q : List Val) (p : Nat) : AttnState :=
  let n := (a.kLen + 4095) / 4096
  (((List.range (n - 1)).map (· + 1)).filter fun g => (List.range 32).any fun b => a.seesBlock keyMask p (32 * g + b)).foldl (fun st g => attnFold st (a.segment keyMask keys q p g))
    (a.segment keyMask keys q p 0)

/-- The output row in O_Format and the log-sum-exp (R279). -/
def attnOutput (oFmt : Nat) (st : AttnState) : List Nat × Word :=
  if st.m = f32NegInf then (st.o.map fun _ => 0, f32NegInf)
  else
    let f := (ffmt oFmt).getD fFP32
    let r := spRcp (ofF32 st.l)
    (st.o.map fun x => (f.round .rne false (ofF32 (mulF32 x r))).1, addF32 st.m (spLog (ofF32 st.l)))

/-- The status record of R283. -/
def attnStatus (status flags rows empty nan keysRead : Nat) : List Byte :=
  leBytes 1 status ++ [0] ++ leBytes 2 flags ++ leBytes 4 rows ++ leBytes 4 empty ++ leBytes 4 nan ++ leBytes 4 keysRead ++
    List.replicate 12 0

/-! ### Backward, R284, R285 -/

/-- A query row of the backward: its position, q, the forward output, its gradient, M and L, and the scores that STORE kept. -/
structure BwdRow where
  pos : Nat
  q : List Val
  o : List Val
  dO : List Val
  m : Word
  l : Word
  scores : Option (List Word) := none
  deriving DecidableEq, Repr

/-- s_ij: as the forward wrote it, or recomputed. -/
def Apr.bwdScore (a : Apr) (keyMask : Nat → Nat) (keys : List KvRow) (r : BwdRow) (j : Nat) : Word :=
  match r.scores with
  | some ss => ss.getD j f32NegInf
  | none => (a.score keyMask keys r.q r.pos j).1

/-- A row and a key that take part in the sums: the key is visible and the row is not fully masked (R284). -/
def Apr.pairs (a : Apr) (keyMask : Nat → Nat) (r : BwdRow) (j : Nat) : Bool := a.visible keyMask r.pos j && r.m != f32NegInf

/-- A factor of a sum, zero where the pair takes no part. -/
def factorOf (on : Bool) (v : Val) : Val := if on then v else .fin false 0 0

/-- p_ij. -/
def Apr.bwdP (a : Apr) (keyMask : Nat → Nat) (keys : List KvRow) (r : BwdRow) (j : Nat) : Word :=
  if !a.pairs keyMask r j then 0
  else mulF32 (spExp (ofF32 (subF32 (a.bwdScore keyMask keys r j) r.m))) (spRcp (ofF32 r.l))

/-- D_i: rowsum of the rounded products. -/
def bwdD (r : BwdRow) : Word := treeSum 16 ((r.dO.zip r.o).map fun x => toF32 (x.1.mul x.2))

/-- dS_ij. -/
def Apr.bwdDS (a : Apr) (keyMask : Nat → Nat) (keys : List KvRow) (r : BwdRow) (j : Nat) : Word :=
  mulF32 (a.bwdP keyMask keys r j) (subF32 (sheet16 r.dO (vHat keys j)) (bwdD r))

/-- A sum on the 16-bit path within blocks of 128 of its summed index, the block results folded in rising order. Index `i` of
the list lies at position `base + i`. `fuel` bounds the blocks. -/
def blockSum : Nat → Nat → List (Val × Val) → Option Word → Word
  | 0, _, _, acc => acc.getD 0
  | n + 1, base, xs, acc =>
    if xs.isEmpty then acc.getD 0
    else
      let k := 128 - base % 128
      let b := sheet16 ((xs.take k).map (·.1)) ((xs.take k).map (·.2))
      blockSum n (base + k) (xs.drop k) (some (match acc with | none => b | some x => addF32 x b))

/-- A sum over the query rows of the heads of a KV head: each head's rows in rising position, the heads' results added in rising order
(R284; the order of the heads is a DESIGN CHOICE, log entry 155). -/
def Apr.sumRows (a : Apr) (heads : List (List BwdRow)) (x : BwdRow → Val × Val) : Word :=
  ((heads.map fun rows => blockSum (rows.length + 1) a.qPos (rows.map x) none).foldl
    (fun (acc : Option Word) w => some (match acc with | none => w | some v => addF32 v w)) none).getD 0

/-- dV_j and dK_j of a KV head over the query rows of its heads, and dQ_i of a row over the keys (R284). -/
def Apr.bwdDV (a : Apr) (keyMask : Nat → Nat) (keys : List KvRow) (heads : List (List BwdRow)) (j c : Nat) : Word :=
  a.sumRows heads fun r => (toBf16 (ofF32 (a.bwdP keyMask keys r j)), factorOf (a.pairs keyMask r j) (r.dO.getD c (.fin false 0 0)))

def Apr.bwdDK (a : Apr) (keyMask : Nat → Nat) (keys : List KvRow) (heads : List (List BwdRow)) (j c : Nat) : Word :=
  mulF32 a.sigma (a.sumRows heads fun r => (factorOf (a.pairs keyMask r j) (toBf16 (ofF32 (a.bwdDS keyMask keys r j))),
    factorOf (a.pairs keyMask r j) (toBf16 (r.q.getD c (.fin false 0 0)))))

/-- The key row of key j in BF16 (R272). -/
def kHat (keys : List KvRow) (j : Nat) : List Val :=
  match keys[j]? with
  | some r => r.k.map (dequant r.kScale)
  | none => []

def Apr.bwdDQ (a : Apr) (keyMask : Nat → Nat) (keys : List KvRow) (r : BwdRow) (c : Nat) : Word :=
  mulF32 a.sigma (blockSum (keys.length + 1) 0 (((List.range keys.length).map fun j =>
    (factorOf (a.pairs keyMask r j) (toBf16 (ofF32 (a.bwdDS keyMask keys r j))),
      factorOf (a.pairs keyMask r j) ((kHat keys j).getD c (.fin false 0 0))))) none)

/-! ### What an invocation leaves, R271, R279, R283 -/

/-- What an invocation takes: for each query head of its KV head the rows in rising position, the stored keys and values after its appends
(R282), and the key mask. -/
structure AttnIn where
  heads : List (List BwdRow)
  keys : List KvRow
  keyMask : List Nat
  deriving DecidableEq, Repr

/-- The outputs of an invocation; those that its Kind or Mode does not give are empty. -/
structure AttnOut where
  rows : List (List (List Nat)) := []     -- element codes of the output rows in O_Format, per head
  lse : List (List Word) := []            -- log-sum-exp
  ml : List (List (Word × Word)) := []    -- M and L under Train
  scores : List (List (List Word)) := []  -- scores under Train and Store
  dQ : List (List (List Word)) := []
  dK : List (List Word) := []
  dV : List (List Word) := []
  status : List Byte := []
  deriving DecidableEq, Repr

/-- The outputs of an illegal record: every output zero, BAD_ARG in the status record (R271). -/
def AttnIn.refused (x : AttnIn) (a : Apr) : AttnOut :=
  let perRow {α : Type} (f : BwdRow → α) : List (List α) := x.heads.map fun h => h.map f
  let back := a.kind == 5
  let train := !back && a.mode % 2 == 1
  let perKey := if back then x.keys.map fun k => k.k.map fun _ => (0 : Word) else []
  { rows := if back then [] else perRow fun r => r.q.map fun _ => 0
    lse := if back then [] else perRow fun _ => 0
    ml := if train then perRow fun _ => (0, 0) else []
    scores := if train && a.mode / 2 % 2 == 1 then perRow fun _ => x.keys.map fun _ => 0 else []
    dQ := if back then perRow fun r => r.q.map fun _ => 0 else []
    dK := perKey, dV := perKey
    status := attnStatus stBadArg 0 0 0 0 0 }

/-- An output row holds a NaN. -/
def nanRow (oFmt : Nat) (row : List Nat) : Bool := row.any fun c => (((ffmt oFmt).getD fFP32).decode c).isNan

/-- A forward invocation on a legal record (R276 to R279, R283). -/
def Apr.forward (a : Apr) (x : AttnIn) : AttnOut :=
  let mask (j : Nat) : Nat := x.keyMask.getD j 0
  let states := x.heads.map fun h => h.map fun r => a.rowState mask x.keys r.q r.pos
  let outs := states.map fun h => h.map (attnOutput a.oFmt)
  let flags := states.flatten.foldl (fun f st => f ||| st.flags) (0 : BitVec 9)
  let train := a.mode % 2 == 1
  { rows := outs.map fun h => h.map (·.1)
    lse := outs.map fun h => h.map (·.2)
    ml := if train then states.map fun h => h.map fun st => (st.m, st.l) else []
    scores := if train && a.mode / 2 % 2 == 1 then
        x.heads.map fun h => h.map fun r => (List.range a.kLen).map fun j => (a.score mask x.keys r.q r.pos j).1
      else []
    status := attnStatus stOk flags.toNat states.flatten.length ((states.flatten.filter (·.m == f32NegInf)).length)
      ((outs.flatten.filter fun o => nanRow a.oFmt o.1).length) (min a.kLen x.keys.length) }

/-- A backward invocation on a legal record (R283, R284). No output row is written, so none counts as NaN; the flags are those of the
scores that it recomputes. -/
def Apr.backward (a : Apr) (x : AttnIn) : AttnOut :=
  let mask (j : Nat) : Nat := x.keyMask.getD j 0
  let cols := List.range a.dim
  let rows := x.heads.flatten
  let flags := rows.foldl (fun f r => if r.scores.isSome then f else
    (List.range a.kLen).foldl (fun f j => f ||| (a.score mask x.keys r.q r.pos j).2) f) (0 : BitVec 9)
  { dQ := x.heads.map fun h => h.map fun r => cols.map (a.bwdDQ mask x.keys r)
    dK := (List.range x.keys.length).map fun j => cols.map (a.bwdDK mask x.keys x.heads j)
    dV := (List.range x.keys.length).map fun j => cols.map (a.bwdDV mask x.keys x.heads j)
    status := attnStatus stOk flags.toNat rows.length ((rows.filter (·.m == f32NegInf)).length) 0 (min a.kLen x.keys.length) }

/-- What an invocation leaves (R270, R271). -/
def Apr.invoke (a : Apr) (x : AttnIn) : AttnOut :=
  if !a.legal then x.refused a else if a.kind = 5 then a.backward x else a.forward x

/-- The stored keys and values after an invocation's appends: each row in its stored form under the Scale of the pages that take it, K and
V (R272, R273, R282). -/
def Apr.append (a : Apr) (keys : List KvRow) (rows : List (List Val × List Val)) (kScale vScale : Nat) : List KvRow :=
  keys ++ (rows.take a.appends).map fun r =>
    { k := rowValues a.kvFmt (storeRow a.kvFmt kScale r.1), v := rowValues a.kvFmt (storeRow a.kvFmt vScale r.2)
      kScale := kScale, vScale := vScale }

/-- Bytes that the forward keeps for the backward, of H heads with T tiles of visible pairs and n query rows (R285). -/
def keptBytes (store : Bool) (heads tiles rows : Nat) : Nat :=
  (if store then 65536 * heads * tiles else 0) + 8 * heads * rows

/-! ### Page descriptors, R286, R287 -/

/-- The 16-byte page descriptor. -/
def pageDesc (instar scale fmt log2 tokens : Nat) (shared : Bool) (base : Nat) : Nat :=
  pack [(instar, 96), (scale, 88), (fmt, 83), (log2, 79), (tokens, 65), (bitOf shared, 64), (base, 0)]

/-! ### The optimiser of fine-tuning, R326 -/

/-- b to the power t by repeated rounded products. -/
def powF32 (b : Word) : Nat → Word
  | 0 => f32One
  | 1 => b
  | t + 1 => mulF32 (powF32 b t) b

/-- Step t of one element under gradient g (R326). -/
def adamw (lr b1 b2 eps lam : Word) (t : Nat) (x : AdamElem) (g : Word) : AdamElem :=
  let a1 := subF32 f32One b1
  let a2 := subF32 f32One b2
  let m := fmaF32 b1 x.m (mulF32 a1 g)
  let v := fmaF32 b2 x.v (mulF32 a2 (mulF32 g g))
  let mh := mulF32 m (spRcp (ofF32 (subF32 f32One (powF32 b1 t))))
  let vh := mulF32 v (spRcp (ofF32 (subF32 f32One (powF32 b2 t))))
  let r := if (ofF32 vh).isZero then 0 else mulF32 vh (spRsqrt (ofF32 vh))
  { m := m, v := v
    w := subF32 x.w (mulF32 lr (fmaF32 lam x.w (mulF32 mh (spRcp (ofF32 (addF32 r eps)))))) }

end Sys2Proof.Machine
end

