-- ==== Sys2Proof/Machine/KvPages.lean ====
section
/-!
DEFINITION. Copies of the placer and the allocator (R169, R179, R216), where the shards of a tensor lie (R147, R148, R160), and the
allocator of KV pages with the page tables of the sequences (R286 to R294).
-/

namespace Sys2Proof.Machine

/-! ### Copies -/

/-- A codeword with errors that reads as poisoned or uncorrectable: by the slice decoder (R202), or by the dies of a package (R239). -/
def Mem.readsBad (m : Mem) (u : Nat) : Bool :=
  match place u with
  | .outer _ _ => m.dieBad u
  | _ =>
    match sliceDecode (m.errsOf u) (m.marked u) with
    | .ok => false
    | .ce _ => false
    | _ => true

/-- The units of a range that read with a mark. -/
def Mem.badUnits (m : Mem) (a n : Nat) : List Nat :=
  (m.poison ++ ((m.flips.map fun p => p.1 / 128).eraseDups.filter m.readsBad)).filter fun u => decide (a ≤ u) && decide (u < a + n)

/-- Copy `n` bytes with their marks. -/
def Mem.copy (m : Mem) (src dst n : Nat) : Mem :=
  let m1 := m.clear dst (dst + n)
  let cs := m.cells.filter fun p => decide (src ≤ p.1) && decide (p.1 < src + n)
  let m2 := cs.foldl (fun m p => m.setByte (p.1 - src + dst) p.2) m1
  (m.badUnits src n).foldl (fun m u => m.setMarks (u - src + dst) (unitSize src) true) m2

/-- Raise the instars of the pages that a write of a range meets, by one for each codeword (R216, R253) and by `more`. -/
def Mem.raiseInstars (m : Mem) (a n more : Nat) : Mem :=
  if n = 0 then m
  else
    let u := pageSize a
    (List.range ((a + n - 1) / u + 1 - a / u)).foldl (fun m i =>
      let b := (a / u + i) * u
      let k := (min (a + n) (b + u) - 1) / unitSize a - max a b / unitSize a + 1 + more
      { m with instars := putD m.instars b (m.instar b + BitVec.ofNat 32 k) 0 }) m

/-- Copy traffic: codeword writes, which the instars count, raised by `more` besides. -/
def Mem.copyTo (m : Mem) (src dst n : Nat) (more : Nat := 0) : Mem := (m.copy src dst n).raiseInstars dst n more

/-- Copy a range: its codewords are read, with their corrections and events (R203 to R205, R239, R243), and written at the destination. -/
def State.copyData (s : State) (src dst n more : Nat) : State := (s.visit src n).onMem fun m => m.copyTo src dst n more

/-! ### Shards -/

/-- Two ranges, each an address and a length, share a byte. -/
def overlaps (x y : Nat × Nat) : Bool := decide (x.1 < y.1 + y.2) && decide (y.1 < x.1 + x.2)

/-- Shards of a tensor under a split (R148). -/
def shardCount (split rows cols : Nat) : Nat :=
  match split with | 1 => rows | 2 => cols | 3 => rows * cols | _ => 1

/-- The split of a tensor and the grid that divides it, that of the shape plan's template (R147, R148). -/
def Program.splitOf (pr : Program) (tensor : Nat) : Nat × Nat × Nat :=
  match pr.plan.find? (·.tensor == tensor) with
  | none => (0, 1, 1)
  | some e =>
    match pr.templates.find? (·.id == e.template) with
    | none => (e.split, 1, 1)
    | some t => (e.split, t.gridRows, t.gridCols)

/-- The shard that partition `p` of a grid of `cols` columns uses, of a tensor divided by a grid of `planCols` (R148). -/
def shardOf (split planCols cols p : Nat) : Nat :=
  match split with
  | 1 => p / max 1 cols
  | 2 => p % max 1 cols
  | 3 => p / max 1 cols * planCols + p % max 1 cols
  | _ => 0

/-- How speculation treats the outputs of a tensor (R169): KV pools, their page tables and token rings are append outputs. A page table is
an index tensor of a KV pool, and a token ring one of weights (DESIGN CHOICE, log entry 171). -/
inductive AppendKind where
  | no | pool | table | ring
  deriving DecidableEq, Repr

def Program.appendKind (pr : Program) (id : Nat) : AppendKind :=
  match pr.tensors.find? (·.id == id) with
  | none => .no
  | some t =>
    if t.cls = 2 then .pool
    else if t.cls ≠ 3 then .no
    else match pr.tensors.find? (·.id == t.indexes) with
      | some x => if x.cls = 2 then .table else if x.cls = 0 then .ring else .no
      | none => .no

def State.appendKind (s : State) (h : Handle) : AppendKind :=
  match look s.work.programs h.slot with
  | some p => p.appendKind h.tensor
  | none => .no

/-- A KV pool, whose outputs append rows to sequences. -/
def State.isAppend (s : State) (h : Handle) : Bool := s.appendKind h == .pool

/-- The instance whose shards an instance uses: every instance of a KV pool names a sequence, and their pages lie in one pool (R125, R290;
log entry 17). -/
def State.placedAs (s : State) (h : Handle) : Handle := if s.isAppend h then { h with inst := 0 } else h

/-- An address lies in a slice of a cluster. -/
def inClusterSlice (a cd : Nat) : Bool :=
  match place a with
  | .slice c _ => cdOf c == cd
  | _ => false

/-- The address of a shard of an instance for a task: its shadow page for an output of its own epoch (R160, R169), else its placed address,
where there are replicas that in the slices of the cluster `near`. -/
def State.shardAddr (s : State) (epoch : Nat) (h0 : Handle) (shard : Nat) (near : Option Nat := none) : Nat :=
  let h := s.placedAs h0
  let mine (p : Placed) : Bool := decide (p.handle = h) && p.shard == shard
  match (s.work.placed.find? fun p => mine p && near.any (inClusterSlice p.addr)).or (s.work.placed.find? mine) with
  | none => 0
  | some p =>
    match s.work.shadows.find? fun x => epoch != 0 && x.epoch == epoch && x.handle = h &&
        decide (x.home ≤ p.addr) && decide (p.addr < x.home + x.size) with
    | some x => x.page + (p.addr - x.home)
    | none => p.addr

/-- The offset of a descriptor table in a core's slice: the last 256 KiB of the populated part (DESIGN CHOICE: R119 leaves
the place to the dispatcher; log entry 10). -/
def descOffset : Nat := 0xBC0000

/-- The journal mirrors of R184 lie in the first 16 MiB of OM0 and OM6 (DESIGN CHOICE, log entry 11). -/
def journalMirror (m off : Nat) : Bool := (m == 0 || m == 6) && decide (off < 0x1000000)

/-! ### Contexts and their tables, R287 -/

def State.modContext (s : State) (id : Nat) (f : Context → Context) : State :=
  match look s.svc.contexts id with
  | none => s
  | some k => s.onSvc fun v => { v with contexts := put v.contexts id (f k) }

/-- The program slots of a model and of its draft model, whose KV rows a sequence holds too (R168, R320). -/
def State.kvSlots (s : State) (model : Nat) : List Nat :=
  match look s.svc.models model with
  | none => []
  | some m => m.rec_.slot :: (match look s.svc.models m.rec_.draft with | some d => [d.rec_.slot] | none => [])

/-- The contexts that an instance number names in a program: those with that number modulo 65,536 (log entry 17). -/
def State.contextsOf (s : State) (h : Handle) : List Nat :=
  (s.svc.contexts.filter fun p => p.1 % 65536 == h.inst && (s.kvSlots p.2.model).contains h.slot).map (·.1)

/-- The contexts that the KV pools among some handles name, each once: the tables of a sequence follow one page plan (R287). -/
def State.appendContexts (s : State) (hs : List Handle) : List Nat :=
  ((hs.filter s.isAppend).flatMap s.contextsOf).eraseDups

/-- The empty tables of a sequence of a model: one for each shard of each KV pool, that is for each layer and KV head (R287). -/
def State.newTables (s : State) (model : Nat) : List KvTable :=
  (s.kvSlots model).flatMap fun slot =>
    match look s.work.programs slot with
    | none => []
    | some p => (p.tensors.filter (·.cls == 2)).flatMap fun td =>
        let (split, rows, cols) := p.splitOf td.id
        (List.range (shardCount split rows cols)).map fun i => { slot := slot, pool := td.id, shard := i }

/-- A context holds a page. -/
def Context.holds (k : Context) (a : Nat) : Bool := k.tables.any fun t => (t.bases ++ t.shadow).contains a

/-- The pages that a context holds, those of its shadow entry included. -/
def Context.held (k : Context) : List Nat := (k.tables.flatMap fun t => t.bases ++ t.shadow).filter (· != 0)

/-- Rows that a page plan holds. -/
def planRowCount (ps : List (Nat × Nat)) : Nat := ps.foldl (fun a p => a + p.2) 0

/-- The plan entries of `n` speculative rows: 16-token pages, the last one with what is left (R292, R293). -/
def shadowPlan (n : Nat) : List (Nat × Nat) := List.replicate (n / 16) (4, 16) ++ (if n % 16 = 0 then [] else [(4, n % 16)])

/-! ### Page tables in memory, R286 -/

/-- The page descriptor of a page with some tokens in use. -/
def KvPage.desc (p : KvPage) (base tokens : Nat) : List Byte :=
  leBytes 16 (base + (if 1 < p.count then 2 ^ 64 else 0) + tokens * 2 ^ 65 + p.log2 * 2 ^ 79 + p.format * 2 ^ 83 + p.scale * 2 ^ 88 +
    p.instar * 2 ^ 96)

/-- Where the page table of a sequence lies: the shard of each index tensor of the pool, with its bytes. -/
def State.tableAddrs (s : State) (ctx : Nat) (t : KvTable) : List (Nat × Nat) :=
  match look s.work.programs t.slot with
  | none => []
  | some p => (p.tensors.filter fun x => x.cls == 3 && x.indexes == t.pool).filterMap fun x =>
      (s.work.placed.find? fun q => decide (q.handle = { slot := t.slot, tensor := x.id, inst := ctx % 65536 }) &&
        q.shard == t.shard).map fun q => (q.addr, q.bytes)

/-- Write one entry of a page table where it differs. The Tokens are `tok`, or, with none, those that stand there for the same page, which
the kernels count (R295's example), and else those of the page plan. -/
def State.writeEntry (s : State) (a e base plan : Nat) (tok : Option Nat) : State :=
  let old := leNat (s.mem.read (a + 16 * e) 16)
  let kept := if bits old 43 0 = base ∧ base ≠ 0 then bits old 78 65 else plan
  let p := lookD s.work.kvPages base {
    bytes := 0, instar := bits old 127 96 + 1, scale := bits old 95 88, log2 := bits old 82 79, format := bits old 87 83 }
  let bs := p.desc base (tok.getD kept)
  if s.mem.read (a + 16 * e) 16 = bs ∨ (base = 0 ∧ bits old 43 0 = 0) then s else s.writeRange (a + 16 * e) bs (List.replicate 16 false)

/-- Bring the page tables of a sequence up to date: its committed entries, then its shadow entries. `tok` gives the Tokens of entries whose
count the allocator sets. -/
def State.syncTables (s : State) (ctx : Nat) (tok : Nat → Option Nat) : State :=
  match look s.svc.contexts ctx with
  | none => s
  | some k =>
    let plan := k.pages ++ shadowPlan (match k.shadow with | some x => x.2 | none => 0)
    k.tables.foldl (fun s t => (s.tableAddrs ctx t).foldl (fun s a =>
      ((t.bases ++ t.shadow).zip plan).zipIdx.foldl (fun s x =>
        if 16 * x.2 + 16 ≤ a.2 then s.writeEntry a.1 x.2 x.1.1 x.1.2.2 (tok x.2) else s) s) s) s

/-- The entries of every sequence that name a page are written again. -/
def State.syncPage (s : State) (a : Nat) : State :=
  (s.svc.contexts.filter fun p => p.2.holds a).foldl (fun s p => s.syncTables p.1 fun _ => none) s

/-! ### The allocator, R290, R294 -/

/-- Final states, R164. -/
def TState.final : TState → Bool
  | .done | .committed | .discarded | .partialEnd | .failed | .cancelled => true
  | _ => false

/-- An admitted task has captured a page. -/
def Work.captured (w : Work) (a : Nat) : Bool := w.tasks.any fun t => !t.2.state.final && t.2.kvHeld.contains a

/-- A page is freed when its count is 0 and no admitted task has captured it (R290). -/
def Work.sweep (w : Work) : Work := { w with kvPages := w.kvPages.filter fun p => decide (0 < p.2.count) || w.captured p.1 }

/-- The Instar in the descriptors of a KV page increases by 1 (R294). -/
def State.bumpPage (s : State) (a : Nat) : State :=
  match look s.work.kvPages a with
  | none => s
  | some p => (s.onWork fun w => { w with kvPages := put w.kvPages a { p with instar := (p.instar + 1) % 2 ^ 32 } }).syncPage a

/-- Raise the count of a page; Shared follows it (R290). -/
def State.holdPage (s : State) (a : Nat) : State :=
  match look s.work.kvPages a with
  | none => s
  | some p => (s.onWork fun w => { w with kvPages := put w.kvPages a { p with count := min (p.count + 1) 65535 } }).syncPage a

/-- Drop one reference of a page; Shared follows, and a page of count 0 that no admitted task has captured is freed (R290). -/
def State.dropPage (s : State) (a : Nat) : State :=
  match look s.work.kvPages a with
  | none => s
  | some p => (s.onWork fun w => ({ w with kvPages := put w.kvPages a { p with count := p.count - 1 } } : Work).sweep).syncPage a

/-- A KV pool shard in memory: bytes of a row, Format, first address and size. -/
def State.poolOf (s : State) (t : KvTable) : Option (Nat × Nat × Nat × Nat) :=
  match look s.work.programs t.slot with
  | none => none
  | some pr =>
    match pr.tensors.find? (·.id == t.pool),
        s.work.placed.find? (fun q => decide (q.handle = { slot := t.slot, tensor := t.pool, inst := 0 }) && q.shard == t.shard) with
    | some td, some q =>
      let (split, _, cols) := pr.splitOf t.pool
      let elems := td.dims.getD 0 1 / (if split = 2 ∨ split = 3 then max 1 cols else 1)
      some ((elems * elemBits td.format + 7) / 8, td.format, q.addr, q.bytes)
    | _, _ => none

/-- A range meets a page that has left its unit or is leaving it, or lies in a unit out of service (R211 to R213, R248). -/
def State.leaving (s : State) (a n : Nat) : Bool :=
  match place a with
  | .slice c off => s.fenced (cdOf c) || ((s.slice c).retired ++ (s.slice c).retiring).any fun p =>
      decide (p * 0x10000 < off + n) && decide (off < (p + 1) * 0x10000)
  | .outer m off => (s.outer m).failed || meets ((s.outer m).retired ++ (s.outer m).retiring) off n
  | _ => true

/-- The first free place for `n` bytes in a range, at its start or at the end of something that stands in it. -/
def firstFit (used : List (Nat × Nat)) (lo hi n : Nat) (bad : Nat → Bool) : Option Nat :=
  ((lo :: used.map fun x => x.1 + x.2).filter fun c =>
      decide (lo ≤ c) && decide (c + n ≤ hi) && !bad c && !used.any (overlaps (c, n))).foldl
    (fun m c => some (match m with | some x => min x c | none => c)) none

/-- Allocate a page of 2^log2 rows in a pool, on a row boundary (R125). Its first Instar, and its Scale where the task's attention record
gives none, are free (DESIGN CHOICE, log entry 172). -/
def State.allocKv (s : State) (t : KvTable) (log2 : Nat) (scale : Option Nat) : Option (State × Nat) :=
  match s.poolOf t with
  | none => none
  | some (row, fmt, lo, size) =>
    let w := s.work.sweep
    let n := 2 ^ log2 * row
    let used := (w.kvPages.map fun p => (p.1, p.2.bytes)).filter (overlaps (lo, size))
    (firstFit used lo (lo + size) n fun c => s.leaving c n).map fun a =>
      ({ s with
        free := s.free + 2
        work := { w with kvPages := put w.kvPages a {
          bytes := n, instar := Config.freeNat s.free % 2 ^ 32, scale := scale.getD (95 + Config.freeNat (s.free + 1) % 65)
          log2 := log2, format := fmt } } }, a)

/-- Give a table pages for further entries of the plan, after its committed ones or, in the shadow entry, after its shadow pages. -/
def State.growTable (s : State) (t : KvTable) (shadow : Bool) (scale : Option Nat) (new : List (Nat × Nat)) : Option (State × KvTable) :=
  new.foldl (fun o p => o.bind fun x =>
    (x.1.allocKv x.2 p.1 scale).map fun y =>
      (y.1, if shadow then { x.2 with shadow := x.2.shadow ++ [y.2] } else { x.2 with bases := x.2.bases ++ [y.2] })) (some (s, t))

/-! ### Appending to a sequence, R289, R291 -/

/-- Log2 of the tokens of private page k, R289. -/
def privateLog2 (k : Nat) : Nat := if k ≤ 1 then 4 else min 10 (k + 3)

/-- Append rows to a page plan with `base` entries of a prefix: the last page takes what it has room for, then new private pages (R289,
R291). `fuel` bounds the pages. -/
def appendRows (base : Nat) : Nat → List (Nat × Nat) → Nat → List (Nat × Nat)
  | 0, ps, _ => ps
  | f + 1, ps, n =>
    if n = 0 then ps
    else
      let l1 := privateLog2 (ps.length - base)
      match ps.getLast? with
      | some (l, t) =>
        if t < 2 ^ l then
          let m := min n (2 ^ l - t)
          appendRows base f (ps.dropLast ++ [(l, t + m)]) (n - m)
        else appendRows base f (ps ++ [(l1, min n (2 ^ l1))]) (n - min n (2 ^ l1))
      | none => appendRows base f [(l1, min n (2 ^ l1))] (n - min n (2 ^ l1))

/-- The last page of a table that has room, if its last entry has. -/
def Context.lastRoom (k : Context) (t : KvTable) : Option Nat :=
  match k.pages.getLast?, t.bases.getLast? with
  | some (l, n), some b => if n < 2 ^ l ∧ t.bases.length = k.pages.length then some b else none
  | _, _ => none

/-- The last page of a table, in which an append would go, lies under a proboscis claim: the append is answered BUSY (R291, R264). -/
def State.appendBusy (s : State) (k : Context) : Bool :=
  k.tables.any fun t => match k.lastRoom t with
    | some b => (look s.work.kvPages b).any fun p => s.claimed b p.bytes
    | none => false

/-- An append to a sequence waits for something other than room: its table has no entry left, a page is on a host window or under a claim
(R264, R287, R288, R291). -/
def State.appendWaits (s : State) (id n : Nat) : Bool :=
  match look s.svc.contexts id with
  | none => false
  | some k => decide (1024 < (appendRows k.prefixPages (n + 1) k.pages n).length) || k.spilled || s.appendBusy k

/-- Prepare the last page of a table (R291): one with room and a count above 1 is copied into a new private page of the same size; its
Instar increases from the old one (R294). -/
def State.prepareLast (s : State) (k : Context) (t : KvTable) : Option (State × KvTable) :=
  match k.lastRoom t with
  | none => some (s, t)
  | some b =>
    match look s.work.kvPages b with
    | none => some (s, t)
    | some p =>
      if p.count ≤ 1 then some (s, t)
      else (s.allocKv t p.log2 (some p.scale)).map fun x =>
        (((x.1.copyData b x.2 p.bytes 0).onWork fun w => { w with kvPages := put w.kvPages x.2 { p with
            count := 1, instar := (p.instar + 1) % 2 ^ 32 } }).dropPage b, { t with bases := t.bases.dropLast ++ [x.2] })

/-- Prepare the tables of a sequence for `n` committed rows (R289, R291). None while a pool has no room, the table has no entry left, a
page is under a claim, or pages are on a host window. -/
def State.appendCtx (s : State) (id n : Nat) (scale : Option Nat := none) : Option State :=
  match look s.svc.contexts id with
  | none => some s
  | some k =>
    let plan := appendRows k.prefixPages (n + 1) k.pages n
    if n = 0 then some s
    else if s.appendWaits id n then none
    else
      let s0 := s.syncTables id fun _ => none
      let r := k.tables.foldl (fun (o : Option (State × List KvTable)) t => o.bind fun x =>
        ((x.1.prepareLast k t).bind fun y => y.1.growTable y.2 false scale (plan.drop k.pages.length)).map fun z =>
          (z.1, x.2 ++ [z.2])) (some (s0, []))
      r.map fun x =>
        let moved := decide (x.2.map (fun t => t.bases.take k.pages.length) ≠ k.tables.map (·.bases))
        (x.1.modContext id fun k => { k with
          pages := plan, tables := x.2
          prefixPages := if moved then min k.prefixPages (k.pages.length - 1) else k.prefixPages }).syncTables id fun e =>
            if e < k.pages.length then none else some 0

/-- Prepare the tables of a sequence for `n` speculative rows of an epoch (R292): the first allocates a fresh private page of 16 tokens,
and a further one follows when it is full. The sequence has one shadow entry at a time: another epoch waits for it
(DESIGN CHOICE, log entry 173). -/
def State.shadowAppend (s : State) (id epoch n : Nat) (scale : Option Nat := none) : Option State :=
  match look s.svc.contexts id with
  | none => some s
  | some k =>
    let old := match k.shadow with | some x => x.2 | none => 0
    let want := (old + n + 15) / 16
    if n = 0 then some s
    else if (k.shadow.any fun x => x.1 != epoch) ∨ 1024 < k.pages.length + want ∨ k.spilled then none
    else
      let r := k.tables.foldl (fun (o : Option (State × List KvTable)) t => o.bind fun x =>
        (x.1.growTable t true scale (List.replicate (want - t.shadow.length) (4, 16))).map fun z => (z.1, x.2 ++ [z.2])) (some (s, []))
      r.map fun x =>
        (x.1.modContext id fun k => { k with tables := x.2, shadow := some (epoch, old + n) }).syncTables id fun e =>
          if e < k.pages.length + (old + 15) / 16 then none else some 0

/-- The shadow entry of an epoch ends (R293): its first `a` rows become committed entries with Tokens counted, and the rest of its pages
are freed; with a = 0 nothing of it is left. -/
def State.endShadow (s : State) (id epoch a : Nat) : State :=
  match look s.svc.contexts id with
  | none => s
  | some k =>
    match k.shadow with
    | none => s
    | some (e, n) =>
      if e ≠ epoch then s
      else
        let m := min a n
        let new := shadowPlan m
        let s1 := s.modContext id fun k => { k with
          shadow := none, pages := k.pages ++ new
          tables := k.tables.map fun t => { t with bases := t.bases ++ t.shadow.take new.length, shadow := [] } }
        let gone := k.tables.flatMap fun t => t.shadow.drop new.length
        let kept := k.tables.flatMap fun t => t.shadow.take new.length
        let s2 := kept.foldl State.bumpPage (gone.foldl State.dropPage s1)
        s2.syncTables id fun i => if i < k.pages.length then none else some ((new.getD (i - k.pages.length) (0, 0)).2)

/-- The sequences that a task's rows are still to be prepared in (R291): one more attempt. A speculative task's rows go to the shadow
entry of its epoch, a committed task's into the tables. -/
def State.prepareTask (s : State) (id : Nat) : State :=
  match look s.work.tasks id with
  | none => s
  | some t =>
    t.appends.foldl (fun s x =>
      match (if t.desc.epoch = 0 then (s.appendCtx x.1 x.2 t.kvScale).map fun s => s.modContext x.1 fun k => { k with length := k.length + x.2 }
             else s.shadowAppend x.1 t.desc.epoch x.2 t.kvScale) with
      | none => s
      | some s1 => s1.modTask id fun t => { t with
          appends := t.appends.erase x
          kvHeld := (t.kvHeld ++ (match look s1.svc.contexts x.1 with | some k => k.held | none => [])).eraseDups }) s

/-- A store of a task that meets a page with a count above 1, which no task writes (R175, R290). -/
def State.sharedPage (s : State) (a n : Nat) : Bool :=
  s.work.kvPages.any fun p => decide (1 < p.2.count) && overlaps (p.1, p.2.bytes) (a, n)

end Sys2Proof.Machine
end

