-- ==== Sys2Proof/Machine/Tasks.lean ====
section
/-!
DEFINITION. Tasks, readiness, waves and epochs: the operations that the commands of chapter 04 and the end of work on a
core share (R145 to R175, R184, R185, R558).
-/

namespace Sys2Proof.Machine

/-! ### Readiness entries, R150 to R153 -/

/-- The entry of an instance; one never named is free, in the hub table. -/
def Work.entry (w : Work) (h : Handle) : Ready := (w.ready.find? (·.handle = h)).getD { handle := h }

/-- Write an entry. -/
def Work.setEntry (w : Work) (r : Ready) : Work :=
  { w with ready := if w.ready.any (·.handle = r.handle) then w.ready.map fun x => if x.handle = r.handle then r else x
                    else w.ready ++ [r] }

def Work.modEntry (w : Work) (h : Handle) (f : Ready → Ready) : Work := w.setEntry (f (w.entry h))

/-- The facts of one generation; a generation no producer has made is free. -/
def Ready.genSt (r : Ready) (g : Nat) : GenSt := lookD r.gens g { state := .free }

/-- Update one generation. -/
def Ready.modGen (r : Ready) (g : Nat) (f : GenSt → GenSt) : Ready := { r with gens := put r.gens g (f (r.genSt g)) }

/-- Update one speculative generation. -/
def Ready.modSpec (r : Ready) (e n : Nat) (f : GenSt → GenSt) : Ready :=
  { r with specs := r.specs.map fun x => if x.epoch = e ∧ x.num = n then { x with st := f x.st } else x }

/-- The State field of the entry: that of its latest generation. -/
def Ready.state (r : Ready) : RState := (r.genSt r.gen).state

/-- The value of a task state, R163. -/
def TState.code : TState → Nat
  | .admitted => 0 | .waiting => 1 | .ready => 2 | .running => 3 | .done => 4 | .specDone => 5 | .committed => 6
  | .discarded => 7 | .partialEnd => 8 | .failed => 9 | .cancelled => 10

/-- Tasks in rising Task_Id, that is in admission order. -/
def State.tasksL (s : State) : List Task := s.work.tasks.map (·.2)
def State.task? (s : State) (id : Nat) : Option Task := look s.work.tasks id

/-- Admitted tasks that have captured generation `g` of an instance and not yet completed: Readers of R150. -/
def State.readers (s : State) (h : Handle) (g : Nat) : Nat :=
  (s.tasksL.filter fun t =>
    !t.state.final && t.state != .specDone && t.inputs.any fun i => i.handle = h && i.gen == g && !i.spec).length

/-- Readers of generations earlier than `g`, task `own` left out (log entry 133). -/
def State.readersBelow (s : State) (own : Option Nat) (h : Handle) (g : Nat) : Nat :=
  (s.tasksL.filter fun t =>
    some t.id != own && !t.state.final && t.state != .specDone && t.inputs.any fun i => i.handle = h && decide (i.gen < g) && !i.spec).length

/-- An input is ready for its consumer (R152, R155). -/
def State.inputReady (s : State) (t : Task) (i : InCap) : Bool :=
  let r := s.work.entry i.handle
  if i.spec then
    match r.specs.find? (fun x => x.epoch == t.desc.epoch && x.num == i.gen) with
    | some x => x.st.state == .specReady
    | none => false
  else (r.genSt i.gen).state == .ready

/-- An input is BROKEN for its consumer (R153). -/
def State.inputBroken (s : State) (i : InCap) : Bool :=
  !i.spec && ((s.work.entry i.handle).genSt i.gen).state == .broken

/-- The shadow pages of a speculative task are allocated and filled (R155, R169). -/
def State.shadowsReady (s : State) (t : Task) : Bool :=
  t.desc.epoch == 0 ||
    s.work.shadows.all fun x => !(x.epoch == t.desc.epoch && t.outputs.any (·.handle = x.handle)) || x.copied

/-- A shadow page still copies its home page at a generation earlier than `g` (R169). -/
def State.copiesBelow (s : State) (h : Handle) (g : Nat) : Bool :=
  s.work.shadows.any fun x => !x.copied && decide (x.handle = h) && decide (x.gen < g)

/-- A task that gathers a sequence with a page on a host window stays WAITING (R288). -/
def State.spilledFor (s : State) (t : Task) : Bool :=
  (t.inputs.map (·.handle) ++ t.outputs.map (·.handle)).any fun h => s.isAppend h &&
    (s.contextsOf h).any fun c => match look s.svc.contexts c with | some k => k.spilled | none => false

/-- No reader of an earlier generation of an output is left (R152, R155). A committed producer waits for the readers of the earlier
committed generations. A speculative one waits for the readers of committed generations that were admitted before it, and for those of its
epoch's earlier generations, which share its shadow pages; a reader admitted later, perhaps after the COMMIT of its epoch, never holds it
back (log entry 174). -/
def State.outputFree (s : State) (t : Task) (o : OutCap) : Bool :=
  if t.desc.epoch = 0 then decide (s.readersBelow (some t.id) o.handle o.gen = 0) && !s.copiesBelow o.handle o.gen
  else !(s.tasksL.any fun x => decide (x.id < t.id) && !x.state.final && x.state != .specDone &&
    x.inputs.any fun i => i.handle = o.handle && (!i.spec || (x.desc.epoch == t.desc.epoch && decide (i.gen < o.gen))))

/-- The conditions of R155 other than free clusters and budget, with the preparation of the tables that it appends to (R291, R292). -/
def State.mayFire (s : State) (t : Task) : Bool :=
  t.inputs.all (s.inputReady t) && t.outputs.all (s.outputFree t) && s.shadowsReady t && t.appends.isEmpty && !s.spilledFor t &&
    !(lookD s.work.epochs t.desc.epoch {}).doomed

/-- The neighbourhood of a domain, R510: the clusters at mesh distance 1 on its die in x, in y or diagonally, and itself. -/
def neighbourhood (cd : Nat) : List Nat :=
  let x := cd % 16
  let y := cd / 16 % 8
  (List.range 3).flatMap fun i => (List.range 3).filterMap fun j =>
    if 1 ≤ x + i ∧ x + i ≤ 16 ∧ 1 ≤ y + j ∧ y + j ≤ 8 then some (dieOf cd * 128 + (y + j - 1) * 16 + (x + i - 1)) else none

/-- A domain of the neighbourhood is in RAMP_UP. -/
def State.rampNear (s : State) (cd : Nat) : Bool := (neighbourhood cd).any fun n => (s.cluster n).dom == .rampUp

/-- A control core waits for its new image during a live switch (R474). -/
def State.switchWaits (s : State) (cd : Nat) : Bool :=
  match s.fw.activation with
  | .switching left => left.contains (.cluster cd)
  | .paused left => left.contains (.cluster cd)
  | _ => false

/-- A cluster that can take a wave: it runs none, is enabled, its control core is not switching (R474), no gate is closed by
DOMAIN (R496), no compute reset concerns it (R484), and its grant is given (R511): domain ON, no neighbour ramping up, no fast limit, no restart of the power core
(R479), and its die dispatcher can still hold a journal record (R480). -/
def State.takesWave (s : State) (cd : Nat) : Bool :=
  let k := s.cluster cd
  k.wave.isNone && !k.fenced && !k.inReset && k.dom == .on && !k.gateByCmd && !s.rampNear cd && !s.pwr.fastLimit &&
    decide ((s.work.heldJournal.filter fun x => x.1 == dieOf cd).length < 4096) && !s.fw.powRestart && !s.switchWaits cd && !s.fw.resetting.contains cd

/-- Free clusters of a task: those placed that can take a wave (R155). -/
def State.freeClusters (s : State) (t : Task) : List Nat := t.cds.filter s.takesWave

/-! ### The journal, R184 -/

/-- Parts_Done of R184: the leading run of completed partitions from Part_First. -/
def leadingRun : Nat → List (Nat × Nat) → Nat → Nat
  | 0, _, p => p
  | n + 1, rs, p =>
    match rs.find? fun r => decide (r.1 ≤ p) && decide (p < r.2) with
    | some r => leadingRun n rs r.2
    | none => p

/-- Parts_Done; for a speculative task Parts_Total or 0 (R186). -/
def Task.partsDone (t : Task) : Nat :=
  if t.desc.epoch ≠ 0 then (if t.state == .specDone || t.state == .committed then t.parts else 0)
  else leadingRun (t.doneRanges.length + 1) t.doneRanges t.desc.partFirst

/-- The journal record of a task, R184. -/
def Task.journalBytes (t : Task) : List Byte :=
  leBytes 8 t.id ++ leBytes 2 t.desc.slot ++ leBytes 2 t.desc.template ++ leBytes 1 t.state.code ++ leBytes 1 t.status ++
    leBytes 2 t.desc.epoch ++ leBytes 4 t.parts ++ leBytes 4 t.partsDone ++ leBytes 4 t.partsFailed ++
    leBytes 4 t.lastMark ++ leBytes 4 t.wavesDone ++ leBytes 4 t.firstFailed ++ leBytes 4 t.errorRef ++
    leBytes 2 t.width ++ leBytes 2 t.fenced ++ leBytes 8 t.admitTime ++ leBytes 8 t.endTime

/-- The state of a task has changed: its journal record is written to the mirrors in OM0 and OM6 (R184). -/
def State.storeJournal (s : State) (id : Nat) : State :=
  match s.task? id, s.work.journal.find? (·.2 == id) with
  | some t, some x => [0, 6].foldl (fun s m =>
      if (s.outer m).failed then s else s.writeRange (outerAddr m + 64 * x.1) t.journalBytes (List.replicate 64 false)) s
  | _, _ => s

/-- Write a task's record, or leave it with the die dispatcher while the scheduler core restarts (R480). -/
def State.writeJournal (s : State) (id : Nat) : State :=
  if s.fw.schRestart then s.onWork fun w => { w with
    heldJournal := w.heldJournal ++ [(match s.task? id with | some t => dieOf (t.cds.headD 0) | none => 0, id)] }
  else s.storeJournal id

/-- The records that the dispatchers held reach the journal (R480). -/
def State.flushJournal (s : State) : State :=
  ((s.work.heldJournal.map (·.2)).foldl State.storeJournal s).onWork fun w => { w with heldJournal := [] }

/-! ### Ending tasks -/

/-- Set the state of an output generation at a task's end (R151, R153, R170). -/
def State.setOutputs (s : State) (t : Task) (st : RState) : State :=
  t.outputs.foldl (fun s o => s.onWork fun w => w.modEntry o.handle fun r =>
    if t.desc.epoch = 0 then r.modGen o.gen fun g => { g with state := st, poison := g.poison || t.poison }
    else r.modSpec t.desc.epoch o.gen fun g => { g with state := st, poison := g.poison || t.poison }) s

/-- 10 ms in ns, the window of the placer's demand (R176). -/
def demandWindow : Nat := 10000000

/-- A task leaves READY: the time it was so counts for the demand of its template (R176). -/
def State.leaveReady (s : State) (t : Task) : State :=
  match t.readyFrom with
  | none => s
  | some a => (s.onWork fun w => { w with readyTimes :=
      { slot := t.desc.slot, template := t.desc.template, start := a, stop := s.now } ::
        (w.readyTimes.filter (fun d => decide (s.now ≤ d.stop + demandWindow))) }).modTask t.id fun t => { t with readyFrom := none }

/-- The instance number of a workspace tensor that only one task uses (log entry 175). -/
def workInst (id : Nat) : Nat := 65536 + id

/-- Enter a final state: outputs READY after DONE and BROKEN after a failure, the journal's End_Time (R163, R164, R184); the workspace that
was its own and the KV pages that only it had captured are free (R290). -/
def State.finishTask (s : State) (id : Nat) (st : TState) (status : Nat) : State :=
  match s.task? id with
  | none => s
  | some t =>
    let s1 := (((s.leaveReady t).modTask id fun t => { t with state := st, status := status, endTime := s.now, waves := [], appends := [] }).onWork
      fun w => ({ w with placed := w.placed.filter fun p => p.handle.inst != workInst id } : Work).sweep).writeJournal id
    match st with
    | .done => s1.setOutputs t .ready
    | .partialEnd | .failed | .cancelled => if t.desc.epoch = 0 then s1.setOutputs t .broken else s1
    | _ => s1

/-- One task in admission order: a task that waits on a BROKEN input ends CANCELLED with NOT_READY and breaks its own outputs (R153); a
speculative one, which R164 lets end in no such state, stays WAITING until its epoch ends (DESIGN CHOICE, log entry 176). Otherwise the
tables that it appends to are prepared, and it is WAITING or READY by the conditions of R155. -/
def State.settleTask (s : State) (id : Nat) : State :=
  match s.task? id with
  | none => s
  | some t0 =>
    match t0.state with
    | .admitted | .waiting | .ready =>
      if t0.desc.epoch = 0 ∧ t0.inputs.any s.inputBroken then s.finishTask id .cancelled stNotReady
      else
        let s1 := s.prepareTask id
        match s1.task? id with
        | none => s1
        | some t =>
          let st : TState := if s1.mayFire t then .ready else .waiting
          let s2 := if st = .ready then s1.modTask id fun t => { t with state := st, readyFrom := some (t.readyFrom.getD s.now) }
            else (s1.leaveReady t).modTask id fun t => { t with state := st }
          if t.state = st then s2 else s2.writeJournal id
    | _ => s

/-- Bring every waiting task up to date after a change of readiness. Producers are admitted before their consumers, so
one pass in admission order carries a BROKEN instance through. -/
def State.settle (s : State) : State := (keys s.work.tasks).foldl State.settleTask s

/-- TASK_POISONED for a task that completed with a poisoned output (R547). -/
def State.logPoisoned (s : State) (t : Task) : State :=
  if t.poison then s.logEvent .taskPoisoned { task := t.id } else s

/-- A task with no running wave and nothing left to start ends (R163, R164, R558). -/
def State.endIfDone (s : State) (id : Nat) : State :=
  match s.task? id with
  | none => s
  | some t =>
    let all := decide (t.parts ≤ t.nextPart)
    if t.state != .running || !t.waves.isEmpty || !(all || t.stopping || t.cancelled || t.timedOut) then s
    else if all ∧ t.partsFailed = 0 ∧ !t.timedOut then
      if t.desc.epoch = 0 then ((s.finishTask id .done stOk).logPoisoned t).settle
      else ((((s.modTask id fun t => { t with state := .specDone }).writeJournal id).setOutputs t .specReady).logPoisoned t).settle
    else if t.desc.epoch = 0 then
      let status := if t.timedOut then stTimeout else if t.partsFailed = 0 then stPartial else t.firstStatus
      (s.finishTask id (if 0 < t.doneCount ∨ (t.cancelled ∧ t.partsFailed = 0 ∧ !t.timedOut) then .partialEnd else .failed)
        status).settle
    else s

/-! ### Waves on clusters and completion tokens -/

/-- The cores that a wave uses on a cluster with their partitions, R159. -/
def waveCores (w : Wave) (cd : Nat) : List (Nat × Nat) :=
  match w.cds.findIdx? (· == cd) with
  | none => []
  | some i => (List.range (min w.nc (w.count - i * w.nc))).map fun k => (cd * 64 + k, w.first + i * w.nc + k)

/-- Clusters that a wave of `count` partitions needs, at `nc` cores each. -/
def clustersFor (count nc : Nat) : Nat := (count + nc - 1) / nc

/-- The token of one partition's end. -/
def Core.endToken (k : Core) : Token :=
  match k.failed with
  | none => { done := 1, failed := 0, poison := k.wrotePoison, clusters := 0 }
  | some st =>
    { done := 0, failed := 1, firstFailed := k.part, firstStatus := st, clusters := 0,
      minMark := match k.mark with | some m => m.toNat | none => 0xFFFFFFFF }

/-- Merge two tokens, R166. -/
def Token.merge (a b : Token) : Token :=
  { done := a.done + b.done, failed := a.failed + b.failed, minMark := min a.minMark b.minMark,
    firstFailed := min a.firstFailed b.firstFailed,
    firstStatus := if a.firstFailed ≤ b.firstFailed then a.firstStatus else b.firstStatus,
    clusters := a.clusters + b.clusters, poison := a.poison || b.poison }

/-- The 32-byte channel word of a token, R165: Task_Seq is the low half of the Task_Id and Wave counts modulo 65,536. -/
def Token.word (k : Token) (task wave : Nat) : BitVec 256 :=
  BitVec.ofNat 256 (task % 2 ^ 32 * 2 ^ 224 + wave % 65536 * 2 ^ 208 + k.done % 2 ^ 24 * 2 ^ 184 + k.failed % 2 ^ 24 * 2 ^ 160 +
    k.minMark % 2 ^ 32 * 2 ^ 128 + k.firstFailed % 2 ^ 24 * 2 ^ 104 + k.firstStatus % 256 * 2 ^ 96 + k.clusters % 65536 * 2 ^ 80 +
    (if k.poison then 2 ^ 79 else 0))

/-- The token a dispatcher emits for its cores, R165. -/
def State.clusterToken (s : State) (cores : List (Nat × Nat)) : Token :=
  (cores.map fun c => (s.core c.1).endToken).foldl Token.merge { done := 0, failed := 0, clusters := 1 }

/-- When every core of the wave on a cluster has ended, the dispatcher emits the completion token and the cluster is free
(R157, R165). -/
def State.clusterDone (s : State) (cd : Nat) : State :=
  match (s.cluster cd).wave with
  | none => s
  | some (id, num) =>
    match (s.task? id).bind fun t => t.waves.find? (·.num == num) with
    | none => s
    | some w =>
      let cs := waveCores w cd
      if cs.all fun c => (s.core c.1).ended then
        let s1 := s.modCluster cd fun k => { k with wave := none }
        let s2 := s1.modTask id fun t => { t with
          waves := t.waves.map fun x => if x.num = num then { x with finished := insertSet x.finished cd } else x }
        s2.emit (.token id num cd (s.clusterToken cs))
      else s

/-- The next router of a token's path: along the mesh row to the collector's column, then along that column (R166). -/
def nextHop (root cd : Nat) : Nat :=
  let x := cd % 16
  let xc := root % 16
  if x < xc then cd + 1 else if xc < x then cd - 1
  else if cd < root then cd + 16 else if root < cd then cd - 16 else cd

/-- The routers from a cluster to its collector, both included. `fuel` bounds the path: at most 23 routers. -/
def pathTo (root : Nat) : Nat → Nat → List Nat
  | 0, cd => [cd]
  | n + 1, cd => if cd = root then [cd] else cd :: pathTo root n (nextHop root cd)

/-- The collector of a cluster's die: the first cluster of the wave's order on that die. -/
def collectorOf (cds : List Nat) (cd : Nat) : Nat := (cds.find? fun x => dieOf x == dieOf cd).getD cd

/-- The node number of the hub in a completion tree. -/
def hubNode : Nat := 512

/-- The clusters of a task span dies (R166). -/
def spansDies (cds : List Nat) : Bool := decide (1 < ((cds.map dieOf).foldl insertSet []).length)

/-- The nodes of a wave's completion tree with the tokens each expects; the collectors report to the hub when the task spans dies (R166,
R167). -/
def waveTree (cds : List Nat) (spans : Bool) : List (Nat × Nat × List Token) :=
  let nodes := (cds.flatMap fun cd => pathTo (collectorOf cds cd) 24 cd).foldl insertSet []
  let per := nodes.map fun n =>
    let root := collectorOf cds n
    let own := if cds.contains n then 1 else 0
    let kids := (nodes.filter fun k => k != n && dieOf k == dieOf n && nextHop root k == n && k != root).length
    (n, own + kids, ([] : List Token))
  if spans then per ++ [(hubNode, ((cds.map dieOf).foldl insertSet []).length, [])] else per

/-- A range of partitions without another. -/
def cutRange (r x : Nat × Nat) : List (Nat × Nat) :=
  [(r.1, min r.2 x.1), (max r.1 x.2, r.2)].filter fun y => decide (y.1 < y.2)

/-- A range of partitions without those that moved away. -/
def cutRanges (r : Nat × Nat) (xs : List (Nat × Nat)) : List (Nat × Nat) :=
  xs.foldl (fun rs x => rs.flatMap fun r => cutRange r x) ([r].filter fun y => decide (y.1 < y.2))

/-- A wave has ended: its token's counts enter the task and the readiness of its outputs (R151, R185). -/
def State.waveEnd (s : State) (id : Nat) (w : Wave) (tok : Token) : State :=
  match s.task? id with
  | none => s
  | some t =>
    let last := if tok.failed = 0 then w.first + w.count else min (w.first + w.count) tok.firstFailed
    let s1 := s.modTask id fun t => { t with
      waves := t.waves.filter (·.num != w.num)
      doneCount := t.doneCount + tok.done
      doneRanges := t.doneRanges ++ cutRanges (w.first, last) w.moved
      partsFailed := t.partsFailed + tok.failed
      lastMark := min t.lastMark tok.minMark
      wavesDone := if tok.failed = 0 then t.wavesDone + 1 else t.wavesDone
      firstFailed := if tok.failed = 0 then t.firstFailed else min t.firstFailed tok.firstFailed
      firstStatus := if tok.failed ≠ 0 ∧ tok.firstFailed < t.firstFailed then tok.firstStatus else t.firstStatus
      stopping := t.stopping || decide (tok.failed ≠ 0)
      poison := t.poison || tok.poison }
    let s2 := t.outputs.foldl (fun s o => s.onWork fun k => k.modEntry o.handle fun r =>
      let f (g : GenSt) : GenSt := { g with done := g.done + tok.done, poison := g.poison || tok.poison }
      if t.desc.epoch = 0 then r.modGen o.gen f else r.modSpec t.desc.epoch o.gen f) s1
    s2.endIfDone id

/-- A token reaches a router, a collector or the hub (R166). -/
def State.tokenArrive (s : State) (id num node : Nat) (tok : Token) : State :=
  match (s.task? id).bind fun t => t.waves.find? (·.num == num) with
  | none => s
  | some w =>
    match w.nodes.find? (·.1 == node) with
    | none => s
    | some (_, expected, held) =>
      let held1 := held ++ [tok]
      if held1.length < expected then
        s.modTask id fun t => { t with waves := t.waves.map fun x => if x.num = num then
          { x with nodes := x.nodes.map fun n => if n.1 = node then (node, expected, held1) else n } else x }
      else
        let m := held1.foldl Token.merge { done := 0, failed := 0, clusters := 0 }
        let w1 := { w with nodes := w.nodes.filter (·.1 != node) }
        let s1 := s.modTask id fun t => { t with waves := t.waves.map fun x => if x.num = num then w1 else x }
        let multi := w.nodes.any (·.1 == hubNode)
        if node = hubNode then s1.waveEnd id w1 m
        else if node = collectorOf w.cds node then
          (if multi then s1.emit (.token id num hubNode m) else s1.waveEnd id w1 m)
        else s1.emit (.token id num (nextHop (collectorOf w.cds node) node) m)

/-! ### The engine queues of a core -/

/-- The queue of an engine. -/
def Core.queue (k : Core) : Engine → List QItem
  | .cube => k.qCube | .vec => k.qVec | .move => k.qMove | .gather => k.qGather

/-- Replace the queue of an engine. -/
def Core.setQueue (k : Core) (e : Engine) (q : List QItem) : Core :=
  match e with
  | .cube => { k with qCube := q } | .vec => { k with qVec := q }
  | .move => { k with qMove := q } | .gather => { k with qGather := q }

/-- Update one queued instruction, named by its place in program order. -/
def Core.modItem (k : Core) (e : Engine) (seq : Nat) (f : QItem → QItem) : Core :=
  k.setQueue e ((k.queue e).map fun q => if q.seq = seq then f q else q)

def State.modItem (s : State) (c : Nat) (e : Engine) (seq : Nat) (f : QItem → QItem) : State :=
  s.modCore c fun k => k.modItem e seq f

/-- The queued instruction of a place. -/
def Core.item? (k : Core) (e : Engine) (seq : Nat) : Option QItem := (k.queue e).find? (·.seq == seq)

/-- All queued instructions. -/
def Core.items (k : Core) : List QItem := k.qCube ++ k.qVec ++ k.qMove ++ k.qGather

/-- All four engines have drained. -/
def Core.idle (k : Core) : Bool := k.items.isEmpty

/-- The first instruction of a queue with a status. -/
def Core.firstWith (k : Core) (e : Engine) (st : QStatus) : Option QItem := (k.queue e).find? (·.status == st)

/-- An instruction executes: it has started and not transferred its last byte (R126). A member of a chain executes once the
chain has started. -/
def Core.executes (k : Core) (q : QItem) : Bool :=
  match q.status with
  | .scoreboard | .done => false
  | .chain => match k.chains.head? with
    | some ch => ch.started && ch.members.any fun m => m.1 == q.off
    | none => false
  | _ => true

/-- The offset that an error of an engine's access carries: that of the oldest instruction it executes. -/
def Core.execOff (k : Core) (e : Engine) : Nat :=
  match (k.queue e).find? k.executes with
  | some q => q.off
  | none => 0xFFFF

/-! ### Cores that stop -/

/-- What every end of a kernel on a core clears: the sequencer, the queues, the chain and the watch table (R218 at END). -/
def Core.halt (k : Core) : Core :=
  { k with fetching := false, ended := true, stream := [], hold := .none, qCube := [], qVec := [], qMove := [], qGather := [],
           baraWait := [], chains := [], watch := [] }

/-- A kernel boundary: an armed inactive bank becomes active (R133). -/
def Core.boundary (k : Core) : Core :=
  if k.armed then
    { k with activeBank := !k.activeBank, armed := false, kernActive := k.kernInactive, kernInactive := k.kernActive }
  else k

/-- Stop the cores of a task's wave on a cluster that have not ended; their partitions end with a status (R164, R174). -/
def State.stopCluster (s : State) (cd status : Nat) : State :=
  match (s.cluster cd).wave with
  | none => s
  | some (id, num) =>
    match (s.task? id).bind fun t => t.waves.find? (·.num == num) with
    | none => s
    | some w =>
      let s1 := (waveCores w cd).foldl (fun s c =>
        if (s.core c.1).ended then s
        else s.modCore c.1 fun k => { k.halt.boundary with failed := some status }) s
      s1.clusterDone cd

/-- Clusters on which a task has a wave running. -/
def State.runningOn (s : State) (id : Nat) : List Nat :=
  (s.clusters.filter fun p => match p.2.wave with | some (t, _) => t == id | none => false).map (·.1)

/-- The shares of a task's waves that no cluster has begun end with a status: each cluster reports its share as failed (R164). -/
def State.failShares (s : State) (id status : Nat) : State :=
  match s.task? id with
  | none => s
  | some t => t.waves.foldl (fun s w => (w.cds.filter fun cd => !w.started.contains cd).foldl (fun s cd =>
      let cs := waveCores w cd
      (s.modTask id fun t => { t with waves := t.waves.map fun x => if x.num = w.num then
          { x with started := insertSet x.started cd, finished := insertSet x.finished cd } else x }).emit
        (.token id w.num cd {
          done := 0, failed := cs.length, firstFailed := (cs.map (·.2)).headD 0xFFFFFF, firstStatus := status, clusters := 1 })) s) s

/-- Stop every running wave of a task. -/
def State.stopTask (s : State) (id status : Nat) : State :=
  ((s.runningOn id).foldl (fun s cd => s.stopCluster cd status) s).failShares id status

/-! ### Epochs -/

/-- Tasks of an epoch that have not ended. -/
def State.epochTasks (s : State) (e : Nat) : List Task :=
  s.tasksL.filter fun t => t.desc.epoch == e && !t.state.final

/-- Doom an epoch (R174): no further task of it fires and running waves are stopped. -/
def State.doom (s : State) (e : Nat) : State :=
  match look s.work.epochs e with
  | none => s
  | some x =>
    let s1 := s.onWork fun w => { w with epochs := put w.epochs e { x with doomed := true } }
    (s1.epochTasks e).foldl (fun s t => (s.modTask t.id fun t => { t with stopping := true }).stopTask t.id stPartial) s1

/-- End the waves of an epoch's task without any token: its clusters are free again (R173). -/
def State.dropWaves (s : State) (id : Nat) : State :=
  let s1 := (s.runningOn id).foldl (fun s cd =>
    match (s.cluster cd).wave.bind fun x => (s.task? x.1).bind fun t => t.waves.find? (·.num == x.2) with
    | none => s.modCluster cd fun k => { k with wave := none }
    | some w =>
      ((waveCores w cd).foldl (fun s c =>
        if (s.core c.1).ended then s else s.modCore c.1 fun k => k.halt.boundary) s).modCluster cd
          fun k => { k with wave := none }) s
  s1.modTask id fun t => { t with waves := [] }

/-- Close an epoch without effect (R173): waves stop, proboscis operations on its shadow pages release their claims
unpublished (R267), shadow pages are freed, instances return to their previous committed generation, its tasks are
DISCARDED, and a COMMIT that waits is answered. -/
def State.discardEpoch (s : State) (e status : Nat) : State :=
  match look s.work.epochs e with
  | none => s
  | some x =>
    -- the stores that wait for its operations are answered FLUSHED, and their slots are free (R267, R593)
    let stores := s.outers.flatMap fun p => (p.2.ops ++ p.2.running).filterMap fun o => if o.epoch = e then o.core else none
    let s0 := stores.foldl (fun s c =>
      (s.modCore c fun k => { k with outerSlots := k.outerSlots.drop 1 }).emit (.answer (.core c .move) stFlushed)) s
    let s1 := (s0.epochTasks e).foldl (fun s t =>
      (s.dropWaves t.id).finishTask t.id .discarded stOk) s0
    let s2 := { s1 with outers := mapTab s1.outers fun _ o => { o with
      ops := o.ops.filter (·.epoch != e), running := o.running.filter (·.epoch != e) } }
    let s3 := s2.onWork fun w => { w with
      shadows := w.shadows.filter (·.epoch != e)
      epochs := del w.epochs e
      ready := w.ready.map fun r => { r with specs := r.specs.filter (·.epoch != e) } }
    -- shadow entries of append outputs go too (R293)
    let s3 := (keys s3.svc.contexts).foldl (fun s c => s.endShadow c e 0) s3
    -- a waiting COMMIT's generations go back to the ones before
    let s4 := x.commitGens.foldl (fun s o =>
      s.onWork fun w => { (w.modEntry o.handle fun r =>
          { r with gens := del r.gens o.gen, gen := if r.gen = o.gen then o.gen - 1 else r.gen }) with
        tasks := mapTab w.tasks fun _ t => { t with inputs := t.inputs.map fun i =>
          if i.handle = o.handle ∧ i.gen = o.gen ∧ !i.spec then { i with gen := o.gen - 1 } else i } }) s3
    let s5 := match x.commit with
      | some (_, h) => s4.respond h 0x0505 status false 0 []
      | none => s4
    s5.flushRecords.settle

/-! ### Errors of a core's task -/

/-- A TASK-class error on a core (R546, R558): logged with Task_Id and offset, the partition counts as failed, no further
wave of a committed task starts, and a speculative task dooms its epoch (R174). -/
def State.taskError (s : State) (c : Nat) (ev : Ev) (status offset address : Nat) (partner : Nat := 0) : State :=
  let k := s.core c
  let idx := s.log.next
  let s1 := s.logEvent ev { ut := utCore, ui := c, status := status, task := k.task, offset := offset, partner := partner, address := address }
  let s2 := s1.modCore c fun k => { k.halt.boundary with failed := some status, failOff := offset }
  let s3 := s2.modTask k.task fun t => { t with
    stopping := true, errorRef := if t.errorRef = 0xFFFFFFFF then idx else t.errorRef }
  let s4 := s3.clusterDone (cdOf c)
  match s4.task? k.task with
  | some t => if t.desc.epoch = 0 then s4 else s4.doom t.desc.epoch
  | none => s4

/-! ### Waves start, R158 to R161 -/

/-- Cores a wave uses per cluster, R158. -/
def coresPer (farBudget : Nat) : Nat := min 64 (1024 / max 1 farBudget)

/-- Load notice in mV by Load_Class, R161. -/
def preRaiseOf (cl : Nat) : Nat := 10 * cl

/-- Open the next wave of a task, placed on the clusters `all`, on its clusters in order, as many as its partitions need (R159). -/
def Task.openWave (t : Task) (all : List Nat) : Task :=
  let nc := coresPer t.farBudget
  let count := min (nc * t.cds.length) (t.parts - t.nextPart)
  let cds := t.cds.take (clustersFor count nc)
  { t with
    waves := t.waves ++ [{ num := t.nextWave, first := t.nextPart, count := count, nc := nc, cds := cds
                           nodes := waveTree cds (spansDies all) }]
    nextWave := t.nextWave + 1
    nextPart := t.nextPart + count
    width := cds.length }

/-- The shards of class 0 that a task's waves read: only these are replicated (R180). -/
def State.weightShards (s : State) (t : Task) : List (Handle × Nat) :=
  let weights (h : Handle) : Bool := match (look s.work.programs h.slot).bind fun p => p.tensors.find? (·.id == h.tensor) with
    | some d => d.cls == 0
    | none => false
  ((s.work.placed.filter fun p => t.inputs.any (fun i => i.handle = p.handle) && weights p.handle).map fun p => (p.handle, p.shard)).eraseDups

/-- A cluster holds a copy of a shard. -/
def State.copyAt (s : State) (x : Handle × Nat) (cd : Nat) : Bool :=
  s.work.placed.any fun p => decide (p.handle = x.1) && p.shard == x.2 && inClusterSlice p.addr cd

/-- Two clusters are equal for a task: both hold a copy of every shard that its waves read and that is replicated at all, shards of class
0 (R180, R181; log entry 135). -/
def State.equalFor (s : State) (t : Task) (a b : Nat) : Bool :=
  let xs := s.weightShards t
  !xs.isEmpty && xs.all fun x => s.copyAt x a && s.copyAt x b

/-- The zone diode of a cluster reads 89 °C or more (R181). -/
def State.hotCluster (s : State) (cd : Nat) : Bool :=
  decide (89 * 16 ≤ (lookD s.heat.zones (zoneOf cd) {}).reading)

/-- Open the next wave of a task with migration (R181): among equal clusters the order turns by one replica set from wave to
wave, and a hot cluster is left out while an equal one that is not hot is free (log entry 135). -/
def State.openWave (s : State) (t : Task) : Task :=
  let sets := (t.cds.filter (s.equalFor t (t.cds.headD 0))).length
  if sets < 2 then t.openWave t.cds
  else
    let order := if t.nextWave = 0 then t.cds else t.cds.rotateLeft (t.cds.length / sets)
    let used := order.filter fun cd =>
      !(s.hotCluster cd && order.any fun x => s.equalFor t cd x && !s.hotCluster x && s.takesWave x)
    { ({ t with cds := used }).openWave t.cds with cds := order }

/-- The start of a wave counts for the demand of its template (R176). -/
def State.noteWave (s : State) (t : Task) : State :=
  s.onWork fun w => { w with waveTimes :=
    { slot := t.desc.slot, template := t.desc.template, start := s.now, stop := s.now } ::
      (w.waveTimes.filter (fun d => decide (s.now ≤ d.stop + demandWindow))) }

/-- The entries of a KV pool's page tables that a task may reach: the committed ones, and for a task of the epoch its shadow entry (R292).
None for a tensor that is no pool of a sequence. -/
def State.idxBoundOf (s : State) (t : Task) (h : Handle) : Option Nat :=
  if !s.isAppend h then none
  else (s.contextsOf h).head?.bind fun c => (look s.svc.contexts c).map fun k =>
    k.pages.length + (match k.shadow with
      | some (e, n) => if e = t.desc.epoch then (shadowPlan n).length else 0
      | none => 0)

/-- A tensor of class 5. -/
def Program.isWorkspace (pr : Program) (id : Nat) : Bool :=
  match pr.tensors.find? (·.id == id) with
  | some t => t.cls == 5
  | none => false

/-- The instance that a task uses of a tensor: as its descriptor names it for an input or output of the template. A page table that the
template does not list goes with its pool, a workspace is the task's own, and of any other tensor it is instance 0 (log entry 175). -/
def Program.instOf (pr : Program) (m : Template) (d : TaskDesc) (id tid : Nat) : Nat :=
  let listed (x : Nat) : Option Nat :=
    match m.inputs.findIdx? (· == x) with
    | some i => some (d.inInst.getD i 0)
    | none => (m.outputs.findIdx? (· == x)).map fun i => d.outInst.getD i 0
  match listed tid with
  | some i => i
  | none =>
    if pr.isWorkspace tid then workInst id
    else if pr.appendKind tid = .table then
      ((pr.tensors.find? (·.id == tid)).bind fun t => listed t.indexes).getD 0
    else 0

/-- Write the descriptors of a kernel into a core's slice (R138, R160): a Kind 0 template's Base is Tensor_Id and offset, replaced by the
shard's address plus the offset, and a paged tensor's Idx_Bound counts the entries of its sequence (R292); other Kinds are copied
unchanged. -/
def State.writeDescs (s : State) (c : Nat) (t : Task) (p : Nat) : State :=
  match look s.work.programs t.desc.slot with
  | none => s
  | some pr =>
    match pr.kernels.find? (·.id == t.kernel) with
    | none => s
    | some k =>
      let tmpl := pr.templates.find? (·.id == t.desc.template)
      let base := sliceAddr c + descOffset
      let s1 := s.modCore c fun x => { x with descBase := base }
      ((pr.descs.drop k.descFirst).take k.descCount).zipIdx.foldl (fun s d =>
        let raw := d.1.toNat
        let raw1 :=
          if bits raw 127 126 ≠ 0 then raw
          else
            let tid := bits raw 63 32
            let off := bits raw 31 0
            let inst := match tmpl with
              | none => 0
              | some m => pr.instOf m t.desc t.id tid
            let (split, _, planCols) := pr.splitOf tid
            let h : Handle := { slot := t.desc.slot, tensor := tid, inst := inst }
            let raw0 := match (if bits raw 415 384 = 0 then none else s.idxBoundOf t h) with
              | some n => raw - bits raw 415 384 * 2 ^ 384 + n * 2 ^ 384
              | none => raw
            raw0 / 2 ^ 64 * 2 ^ 64 + (s.shardAddr t.desc.epoch h (shardOf split planCols t.gridCols p) (some (cdOf c)) + off)
        s.writeRange (base + 64 * d.2) (leBytes 64 raw1) (List.replicate 64 false)) s1

/-- Start a core on a partition: the kernel's bank, the registers of R60, the cursors (R124) and the descriptors (R160). -/
def State.startCore (s : State) (c : Nat) (t : Task) (num p : Nat) : State :=
  let code := match (look s.work.programs t.desc.slot).bind fun pr => pr.kernels.find? (·.id == t.kernel) with
    | some k => k.code
    | none => []
  let s1 := s.modCore c fun k =>
    -- the active bank holds this very code, or the other is loaded with it, armed and becomes active at once
    let k1 :=
      if k.kernActive = t.kernel ∧ (if k.activeBank then k.valid1 && k.bank1 == code else k.valid0 && k.bank0 == code) then k
      else
        let k2 := if k.activeBank then { k with bank0 := code, valid0 := true } else { k with bank1 := code, valid1 := true }
        { k2 with kernInactive := t.kernel, armed := true }.boundary
    { k1 with
      fetching := true, task := t.id, wave := num, part := p
      tileRow := BitVec.ofNat 32 (p / max 1 t.gridCols * t.tileRows)
      tileCol := BitVec.ofNat 32 (p % max 1 t.gridCols * t.tileCols)
      seed := t.desc.seed, cubeFlags := 0, nextOff := 0, stream := [], hold := .none, arrived := [], released := []
      baraWait := [], mark := none, ended := false, failed := none, failOff := 0xFFFF, wrotePoison := false
      cursors := [], chains := [], watch := [] }
  s1.writeDescs c t p

/-- Start a cluster's share of a wave (R157, R160, R161): the pre-raise of the load notice, then each core. -/
def State.startOn (s : State) (t : Task) (w : Wave) (cd : Nat) : State :=
  let s1 := (s.emit (.loadNotice cd t.loadClass)).modCluster cd fun k =>
    { k with wave := some (t.id, w.num), preRaise := preRaiseOf t.loadClass, heartbeat := s.now, gateOpen := true }
  let s2 := s1.modTask t.id fun t => { t with
    waves := t.waves.map fun x => if x.num = w.num then { x with started := insertSet x.started cd } else x }
  (waveCores w cd).foldl (fun s x => s.startCore x.1 t w.num x.2) s2

end Sys2Proof.Machine
end

