-- ==== Sys2Proof/Machine/Placement.lean ====
section
/-!
DEFINITION. Placement (R148, R176 to R183, R211 to R213, R248, R301 to R303): where shards, shadow pages and replicas go, how they move, and
how the placer frees space when a tier lacks room. Where the placer is free to choose (R177) the model takes a fixed first fit (log
entry 16).
-/

namespace Sys2Proof.Machine

/-! ### Free ranges -/

/-- The images of models and adapters in outer memory, and adapters staged in slices (R301, R324). -/
def State.imageRanges (s : State) : List (Nat × Nat) :=
  s.svc.models.flatMap (·.2.image) ++ s.svc.adapters.flatMap fun p => p.2.image ++ p.2.slices

/-- What the placer has placed: shards and replicas, shadow pages, images (R213). The counted KV pages lie in their pools. -/
def State.placedRanges (s : State) : List (Nat × Nat) :=
  s.work.placed.map (fun p => (p.addr, p.bytes)) ++
    (s.work.shadows.filter (fun x => x.size != 0)).map (fun x => (x.page, x.size)) ++ s.imageRanges

/-- All ranges that are not free: those placed and the memory under enabled guest windows (R580). -/
def State.allocs (s : State) : List (Nat × Nat) :=
  s.placedRanges ++ (s.ident.guestWins.filter (fun w => w.2.size != 0)).map (fun w => (w.2.base, w.2.size))

/-- The whole pages of an allocation. -/
def wholePages (x : Nat × Nat) : Nat × Nat :=
  if x.2 = 0 then x else (pageBase x.1, pageBase (x.1 + x.2 - 1) + pageSize x.1 - pageBase x.1)

/-- The first free page-aligned place for `n` bytes in a range of one unit: past allocations and pages that have left or are leaving
(R211, R248). -/
def State.bump (s : State) (lo hi n : Nat) (gone : List (Nat × Nat)) : Option Nat :=
  firstFit (((s.allocs.filter fun x => decide (lo ≤ x.1) && decide (x.1 < hi)).map wholePages) ++ gone) lo hi n fun _ => false

/-- Room in a core's slice, below the descriptor table. -/
def State.allocSlice (s : State) (c n : Nat) : Option Nat :=
  if s.fenced (cdOf c) then none
  else s.bump (sliceAddr c) (sliceAddr c + descOffset) n (((s.slice c).retired ++ (s.slice c).retiring).map fun p =>
    (sliceAddr c + p * 0x10000, 0x10000))

/-- Room in an outer package, past the journal mirror's 16 MiB and short of the control page. -/
def State.allocOuter (s : State) (m n : Nat) : Option Nat :=
  if (s.outer m).failed then none
  else s.bump (outerAddr m + 0x1000000) (outerAddr m + 65535 * 0x200000) n (((s.outer m).retired ++ (s.outer m).retiring).map fun p =>
    (outerAddr m + p * 0x200000, 0x200000))

/-- Room in outer memory: the packages in rising order. -/
def State.allocAny (s : State) (n : Nat) : Option Nat := (List.range 12).findSome? fun m => s.allocOuter m n

/-- A range is free and placeable: below a slice's descriptor table, or in a package outside the journal mirror and the control page, and
in no page that has left or is leaving (R184, R211, R229, R248). -/
def State.freePlace (s : State) (a n : Nat) : Bool :=
  s.accessOk a n && !s.leaving a n && !(s.allocs.any (overlaps (a, n))) &&
    (match place a with
     | .slice _ off => decide (off + n ≤ descOffset)
     | .outer m off => !journalMirror m off && decide (off + n ≤ 65535 * 0x200000)
     | _ => false)

/-! ### Images in outer memory, R301 -/

/-- Room for an image of `n` bytes: one piece of whole blocks in each package that works, at rising addresses (R301; the size of the pieces
is a DESIGN CHOICE, log entry 182). -/
def State.allocImage (s : State) (n : Nat) : Option (List (Nat × Nat)) :=
  let ms := (List.range 12).filter fun m => !(s.outer m).failed
  let per := ((n + ms.length - 1) / max 1 ms.length + 255) / 256 * 256
  if n ≠ 0 ∧ ms.isEmpty then none
  else (ms.zipIdx.map fun x => (x.1, min per (n - per * x.2))).foldl (fun (o : Option (List (Nat × Nat))) x => o.bind fun l =>
    if x.2 = 0 then some l else (s.allocOuter x.1 x.2).map fun a => l ++ [(a, x.2)]) (some [])

/-- Write bytes into the pieces of an image in order. -/
def State.writeImage (s : State) (im : List (Nat × Nat)) (bs : List Byte) : State :=
  (im.foldl (fun (x : State × List Byte) p =>
    (x.1.writeRange p.1 (x.2.take p.2) (List.replicate p.2 false), x.2.drop p.2)) (s, bs)).1

/-- The bytes of an image. -/
def State.imageBytes (s : State) (im : List (Nat × Nat)) : List Byte := im.flatMap fun p => s.mem.read p.1 p.2

/-- Where a part of an image lies: from offset `off`, `n` bytes. -/
def imagePart : List (Nat × Nat) → Nat → Nat → List (Nat × Nat)
  | [], _, _ => []
  | (a, len) :: t, off, n =>
    if n = 0 then []
    else if len ≤ off then imagePart t (off - len) n
    else (a + off, min n (len - off)) :: imagePart t 0 (n - min n (len - off))

/-- Where a shard of a weight tensor lies in its model's image: the weights hold the class 0 tensors of the program in the order of its
table, each shard after shard (DESIGN CHOICE, log entry 182). -/
def State.weightPart (s : State) (pr : Program) (h : Handle) (shard bytes : Nat) : List (Nat × Nat) :=
  match s.svc.models.find? (fun m => m.2.rec_.slot == h.slot), pr.tensors.find? (·.id == h.tensor) with
  | some m, some td =>
    if td.cls ≠ 0 then []
    else
      let before := (pr.tensors.filter (·.cls == 0)).takeWhile (·.id != h.tensor)
      let part := imagePart m.2.image ((before.map (·.sizeBytes)).sum + shard * bytes) bytes
      if (part.map (·.2)).sum = bytes then part else []
  | _, _ => []

/-- Copy the parts of an image one after another to an address. -/
def State.copyParts (s : State) (parts : List (Nat × Nat)) (dst : Nat) : State :=
  (parts.foldl (fun (x : State × Nat) p => (x.1.copyData p.1 x.2 p.2 0, x.2 + p.2)) (s, dst)).1

/-- An address lies in a model's image. -/
def State.inImage (s : State) (a : Nat) : Bool := s.svc.models.any fun m => m.2.image.any fun p => decide (p.1 ≤ a) && decide (a < p.1 + p.2)

/-! ### Moving what is placed, R179 -/

/-- A page of a moved pool: its new base. -/
def shifted (p : Placed) (addr a : Nat) : Nat := if p.addr ≤ a ∧ a < p.addr + p.bytes then a - p.addr + addr else a

/-- The tables of a pool follow it: their bases move. -/
def KvTable.shift (t : KvTable) (p : Placed) (addr : Nat) : KvTable :=
  { t with bases := t.bases.map (shifted p addr), shadow := t.shadow.map (shifted p addr) }

/-- Move a placed shard: copied, the new pages' instars raised once more, the old place, unless it is a model's image, cleared and freed
(R179, R216, R253). The pages of a KV pool move with it, and the Instar of each increases (R294). -/
def State.relocate (s : State) (p : Placed) (addr : Nat) : State :=
  let s1 := (s.copyData p.addr addr p.bytes 1).onMem fun m => if s.inImage p.addr then m else m.clear p.addr (p.addr + p.bytes)
  let s2 := s1.onWork fun w => { w with placed := w.placed.map fun q => if q = p then { q with addr := addr } else q }
  let mine := (keys s.work.kvPages).filter fun a => decide (p.addr ≤ a) && decide (a < p.addr + p.bytes)
  if mine.isEmpty then s2
  else
    let s3 := s2.onWork fun w => { w with
      kvPages := w.kvPages.foldl (fun t x => put t (shifted p addr x.1) x.2) []
      tasks := mapTab w.tasks fun _ t => { t with kvHeld := t.kvHeld.map (shifted p addr) } }
    let s4 := s3.onSvc fun v => { v with
      contexts := mapTab v.contexts fun _ k => { k with tables := k.tables.map fun t => t.shift p addr }
      prefixes := v.prefixes.map fun x => { x with tables := x.tables.map fun t => t.shift p addr } }
    (mine.map (shifted p addr)).foldl State.bumpPage s4

/-! ### Shards and shadow pages -/

/-- The clusters given to a template: the first unfenced ones, as many as its partitions fill, between Width_Min and
Width_Max (R177; log entry 16). -/
def State.chooseClusters (s : State) (t : Template) (nc : Nat) : List Nat :=
  let want := max t.widthMin (min t.widthMax (clustersFor (t.gridRows * t.gridCols) nc))
  ((List.range 512).filter fun cd => !s.fenced cd).take want

/-- The class of the model that a program computes, if it computes one. -/
def State.modelClass (s : State) (slot : Nat) : Option Nat := (s.svc.models.find? fun m => m.2.rec_.slot == slot).map (·.2.cls)

/-- A shard of a tensor is to lie in the slice of the core that runs its partition: by its Tier_Hint, by an Affinity_Group that its
template shares (R148), or as weights of a pinned or warm model; the weights of a cool model never do (R301). -/
def State.wantsSlice (s : State) (pr : Program) (h : Handle) (affinity : Nat) : Bool :=
  let e := pr.plan.find? (·.tensor == h.tensor)
  let tier := match e with | some x => x.tier | none => 0
  let group := match e with | some x => x.affinity | none => 0
  let weights := match pr.tensors.find? (·.id == h.tensor) with | some t => t.cls == 0 | none => false
  let cls := if weights then s.modelClass h.slot else none
  match cls with
  | some 2 | some 3 => false
  | some _ => tier ≤ 1
  | none => tier == 1 || (tier == 0 && group != 0 && group == affinity)

/-- Place the shards of an instance that has no place, shard i in the slice of the core that runs partition i where it is to lie there and
there is room, else in outer memory; the weights of a model come from its image, or stay there (R147, R148, R301). None when no room is
left. -/
def State.placeTensor (s : State) (pr : Program) (h0 : Handle) (nc : Nat) (cds : List Nat) (affinity : Nat := 0) : Option State :=
  let h := s.placedAs h0
  if s.work.placed.any (·.handle = h) then some s
  else match pr.tensors.find? (·.id == h.tensor) with
  | none => some s
  | some td =>
    let (split, rows, cols) := pr.splitOf h.tensor
    let n := shardCount split rows cols
    let bytes := td.sizeBytes / max 1 n
    (List.range n).foldl (fun (o : Option State) i => o.bind fun s =>
      let core := match cds[i / max 1 nc % max 1 cds.length]? with
        | some cd => cd * 64 + i % max 1 nc
        | none => 0
      let part := s.weightPart pr h i bytes
      let low : Option Nat := match part with | [x] => some x.1 | _ => s.allocAny bytes
      let a := if s.wantsSlice pr h affinity then (s.allocSlice core bytes).orElse fun _ => low else low
      a.map fun a =>
        let s1 := if part.isEmpty ∨ part.map (·.1) = [a] then s else s.copyParts part a
        s1.onWork fun w => { w with
          placed := w.placed ++ [{ handle := h, shard := i, replica := 0, addr := a, bytes := bytes }] }) (some s)

/-- Place the KV pools of a model's sequences (R287). -/
def State.placePools (s : State) (model : Nat) : Option State :=
  (s.kvSlots model).foldl (fun (o : Option State) slot => o.bind fun s =>
    match look s.work.programs slot with
    | none => some s
    | some pr => ((pr.tensors.filter (·.cls == 2)).map (·.id)).foldl (fun (o : Option State) id => o.bind fun s =>
        s.placeTensor pr { slot := slot, tensor := id, inst := 0 } 64 ((List.range 512).filter fun cd => !s.fenced cd)) (some s)) (some s)

/-- The home pages that an instance occupies: base and size. -/
def State.homePages (s : State) (h : Handle) : List (Nat × Nat) :=
  let ps := (s.work.placed.filter fun p => p.handle = h && p.bytes != 0).flatMap fun p =>
    let u := pageSize p.addr
    (List.range ((p.addr + p.bytes - 1) / u + 1 - p.addr / u)).map fun i => (p.addr / u + i) * u
  (ps.foldl insertSet []).map fun a => (a, pageSize a)

/-- A page of the same tier in the same slice or package (R169). -/
def State.allocShadow (s : State) (home : Nat) : Option Nat :=
  match place home with
  | .slice c _ => s.allocSlice c 0x10000
  | .outer m _ => s.allocOuter m 0x200000
  | _ => none

/-- A shadow page for each home page of a speculative output; a page that finds no room has size 0, and its task waits. -/
def State.makeShadows (s : State) (epoch : Nat) (h : Handle) : State :=
  (s.homePages h).foldl (fun s p =>
    if s.work.shadows.any fun x => x.epoch == epoch && x.home == p.1 then s
    else
      let g := (s.work.entry h).gen
      let x : Shadow := match s.allocShadow p.1 with
        | some a => { epoch := epoch, handle := h, home := p.1, page := a, size := p.2, gen := g }
        | none => { epoch := epoch, handle := h, home := p.1, page := 0, size := 0, gen := g }
      s.onWork fun w => { w with shadows := w.shadows ++ [x] }) s

/-! ### Freeing space, R182 -/

def State.modModel (s : State) (i : Nat) (f : Model → Model) : State :=
  match look s.svc.models i with
  | none => s
  | some m => s.onSvc fun v => { v with models := put v.models i (f m) }

/-- A model may move: 100 ms since its last move (R303). -/
def State.mayMove (s : State) (m : Model) : Bool := m.lastMove == 0 || decide (m.lastMove + 100000000 ≤ s.now)

/-- The score of a model, R303; Weight 0 counts as 1 (R297). -/
def State.score (s : State) (i : Nat) (m : Model) : Nat :=
  let waiting := (s.svc.requests.filter fun r => !r.ended && !r.inPass && r.rec_.model == i).length
  max 1 m.weight * (1 + (m.served.filter fun t => decide (s.now < t + 1000000000)).length + waiting)

/-- Waves of tasks that read or write an instance are in flight (R178, R179), or an epoch has shadow pages of it (R169). -/
def State.inUse (s : State) (h : Handle) : Bool :=
  (s.tasksL.any fun t => !t.waves.isEmpty && (t.inputs.any (fun i => s.placedAs i.handle = h) || t.outputs.any fun o => s.placedAs o.handle = h)) ||
    s.work.shadows.any (·.handle = h)

/-- An admitted task reads or writes an instance: it is never spilled (R182). -/
def State.taken (s : State) (h : Handle) : Bool :=
  s.tasksL.any fun t => !t.state.final && (t.inputs.any (fun i => s.placedAs i.handle = h) || t.outputs.any fun o => s.placedAs o.handle = h)

/-- The placed shards of the weights of a program, in slices or in outer memory. -/
def State.weightsIn (s : State) (slot : Nat) (slices : Bool) : List Placed :=
  s.work.placed.filter fun p => p.handle.slot == slot && (match place p.addr with | .slice _ _ => slices | _ => !slices) &&
    (match (look s.work.programs slot).bind fun pr => pr.tensors.find? (·.id == p.handle.tensor) with | some t => t.cls == 0 | none => false)

/-- Demote a warm model to cool: its slice shards are dropped, but for those that waves in flight read, and its weights are read from the
image in outer memory (R179, R301, R303). -/
def State.demote (s : State) (i : Nat) : State :=
  match look s.svc.models i with
  | none => s
  | some m =>
    let s1 := (s.weightsIn m.rec_.slot true).foldl (fun s p =>
      if s.inUse p.handle then s
      else match (look s.work.programs m.rec_.slot).map fun pr => s.weightPart pr p.handle p.shard p.bytes with
      | some [x] => (s.onMem fun m => m.clear p.addr (p.addr + p.bytes)).onWork fun w =>
          { w with placed := w.placed.map fun q => if q = p then { q with addr := x.1 } else q }
      | _ => match s.allocAny p.bytes with
        | some a => s.relocate p a
        | none => s) s
    s1.modModel i fun m => { m with cls := 2, lastMove := s.now, outrankSince := none }

/-- Promote a cool model to warm: its shards are copied from the outer image into slices that have room (R301, R303). -/
def State.promote (s : State) (i : Nat) : State :=
  match look s.svc.models i with
  | none => s
  | some m =>
    let cds := (List.range 512).filter fun cd => !s.fenced cd
    let s1 := (s.weightsIn m.rec_.slot false).foldl (fun s p =>
      match (cds[p.shard / 64 % max 1 cds.length]?).bind fun cd => s.allocSlice (cd * 64 + p.shard % 64) p.bytes with
      | some a => if s.inUse p.handle then s else s.relocate p a
      | none => s) s
    s1.modModel i fun m => { m with cls := 1, lastMove := s.now, outrankSince := none }

/-- A sequence that no pass uses. -/
def State.idleContext (s : State) (ctx : Nat) : Bool :=
  !(s.svc.requests.any fun r => !r.ended && r.context == ctx && r.inPass)

/-- The oldest of some sequences by last use. -/
def oldestOf (l : List (Nat × Context)) : Option Nat :=
  (l.foldl (fun (o : Option (Nat × Context)) p => match o with
    | none => some p
    | some q => if p.2.lastUse < q.2.lastUse then some p else some q) none).map (·.1)

/-- A replica beyond the first that no wave in flight reads (R182 step 1). -/
def State.freeReplica (s : State) : Option Placed :=
  (s.work.placed.filter fun p => decide (0 < p.replica) && !s.inUse p.handle).getLast?

/-- The warm model that goes first: the lowest operator weight among those that no admitted task reads (R182 step 2). -/
def State.freeWarm (s : State) : Option Nat :=
  let warm := s.svc.models.filter fun p => p.2.cls == 1 && s.mayMove p.2 && !((s.weightsIn p.2.rec_.slot true).any fun q => s.taken q.handle)
  (warm.foldl (fun (o : Option (Nat × Model)) p => match o with
    | none => some p
    | some q => if max 1 p.2.weight < max 1 q.2.weight then some p else some q) none).map (·.1)

/-- The pool shards in slices in which a sequence has pages and which move with it: every sequence with pages there is idle, and no
admitted task uses them (DESIGN CHOICE: a pool's pages lie in one place, by R125, so the pages of idle sequences move to outer memory with
their pool; log entry 177). -/
def State.slicePools (s : State) (k : Context) : List Placed :=
  s.work.placed.filter fun p => (match place p.addr with | .slice _ _ => true | _ => false) &&
    (k.tables.any fun t => t.slot == p.handle.slot && t.pool == p.handle.tensor && t.shard == p.shard) && !s.taken p.handle &&
    s.svc.contexts.all fun c => s.idleContext c.1 || !(c.2.held.any fun a => decide (p.addr ≤ a) && decide (a < p.addr + p.bytes))

/-- The idle sequence with pages in slices that was used least recently (R182 step 3). -/
def State.freeIdle (s : State) : Option Nat :=
  oldestOf (s.svc.contexts.filter fun p => s.idleContext p.1 && !(s.slicePools p.2).isEmpty)

/-- The private pages of a sequence in outer memory that can go to a host window: counted once, unmarked, captured by no task and under no
claim. -/
def State.spillable (s : State) (k : Context) : List Nat :=
  k.held.filter fun a => match look s.work.kvPages a, place a with
    | some p, .outer _ _ => decide (p.count = 1) && (s.mem.badUnits a p.bytes).isEmpty && !s.work.captured a && !s.claimed a p.bytes
    | _, _ => false

/-- A sequence is marked spillable: it is kept, or its request says so. -/
def State.marked (s : State) (ctx : Nat) (k : Context) : Bool := k.kept || s.svc.requests.any fun r => r.context == ctx && r.rec_.spillable

/-- The spillable sequence with pages in outer memory that was used least recently (R182 step 4). -/
def State.freeSpill (s : State) : Option Nat :=
  oldestOf (s.svc.contexts.filter fun p => s.marked p.1 p.2 && s.idleContext p.1 && p.2.shadow.isNone && !(s.spillable p.2).isEmpty)

/-- Move the pool shards of a sequence from slices to outer memory (R182 step 3). -/
def State.lowerPools (s : State) (ctx : Nat) : State :=
  match look s.svc.contexts ctx with
  | none => s
  | some k => (s.slicePools k).foldl (fun s p =>
      match s.allocAny p.bytes with
      | some a => s.relocate p a
      | none => s) s

/-- Move pages of a sequence to host windows (R182 step 4): what they hold is kept there, and their places are free. -/
def State.spillCtx (s : State) (ctx : Nat) : State :=
  match look s.svc.contexts ctx with
  | none => s
  | some k =>
    let go := s.spillable k
    let save (t : KvTable) : KvTable := { t with
      saved := t.bases.zipIdx.foldl (fun m x => if go.contains x.1 then
        match look s.work.kvPages x.1 with
        | some p => put m x.2 ({ p with instar := (p.instar + 1) % 2 ^ 32 }, s.mem.read x.1 p.bytes)
        | none => m else m) t.saved
      bases := t.bases.map fun a => if go.contains a then 0 else a }
    let s1 := (s.modContext ctx fun k => { k with spilled := true, tables := k.tables.map save }).onWork fun w =>
      { w with kvPages := w.kvPages.filter fun p => !go.contains p.1 }
    s1.syncTables ctx fun _ => none

/-- Bring the pages of a table back from a host window into its pool. -/
def State.restoreTable (s : State) (t : KvTable) : Option (State × KvTable) :=
  t.saved.foldl (fun o x => o.bind fun y =>
    (y.1.allocKv y.2 x.2.1.log2 (some x.2.1.scale)).map fun z =>
      ((z.1.onWork fun w => { w with kvPages := put w.kvPages z.2 { x.2.1 with instar := (x.2.1.instar + 1) % 2 ^ 32 } }).writeRange z.2 x.2.2
          (List.replicate x.2.2.length false),
       { y.2 with bases := y.2.bases.set x.1 z.2, saved := del y.2.saved x.1 })) (some (s, t))

/-- Restore the pages of a sequence (R288), and bring the tasks that wait for it up to date. -/
def State.restoreCtx (s : State) (ctx : Nat) : State :=
  match look s.svc.contexts ctx with
  | none => s
  | some k =>
    if !k.spilled then s
    else
      match k.tables.foldl (fun (o : Option (State × List KvTable)) t => o.bind fun x =>
          (x.1.restoreTable t).map fun z => (z.1, x.2 ++ [z.2])) (some (s, [])) with
      | none => s
      | some x => ((x.1.modContext ctx fun k => { k with spilled := false, tables := x.2 }).syncTables ctx fun _ => none).settle

/-- The cool model that goes to cold when outer memory is needed: idle for 60 s, the lowest score first (R303). -/
def State.freeCool (s : State) : Option Nat :=
  let cool := s.svc.models.filter fun p => p.2.cls == 2 && p.2.state == .ready && decide (p.2.lastServed + 60000000000 ≤ s.now) &&
    !((s.weightsIn p.2.rec_.slot false).any fun q => s.taken q.handle)
  (cool.foldl (fun (o : Option (Nat × Model)) p => match o with
    | none => some p
    | some q => if s.score p.1 p.2 < s.score q.1 q.2 then some p else some q) none).map (·.1)

/-- The weights of a model leave outer memory and slices, its image with them. -/
def State.dropWeights (s : State) (m : Model) : State :=
  let gone := s.weightsIn m.rec_.slot false ++ s.weightsIn m.rec_.slot true
  s.onWork fun w => { w with placed := w.placed.filter fun p => !gone.contains p }

/-- A cool model goes cold: its image in outer memory is dropped (R301, R303). -/
def State.dropImage (s : State) (i : Nat) : State :=
  match look s.svc.models i with
  | none => s
  | some m => (s.dropWeights m).modModel i fun m => { m with cls := 3, image := [], lastMove := s.now }

/-- One step of the order of R182, or none when no room can be freed: replicas beyond the first, warm models, idle sequences from slices to
outer memory, spillable ones to host windows; and, for outer memory, cool models to cold (R303). -/
def State.freeOnce (s : State) : Option State :=
  match s.freeReplica with
  | some p => some (s.onWork fun w => { w with placed := w.placed.filter (· != p) })
  | none =>
    match s.freeWarm with
    | some i => some (s.demote i)
    | none =>
      match s.freeIdle with
      | some c => some (s.lowerPools c)
      | none =>
        match s.freeSpill with
        | some c => some (s.spillCtx c)
        | none => s.freeCool.map s.dropImage

end Sys2Proof.Machine
end

