-- ==== Sys2Proof/Machine/Proboscis.lean ====
section
/-!
DEFINITION. Proboscis operations of an outer package: the record of R256, the controller's judgement (R255, R257), claims
(R263), the computation of R258, publication (R265, R266), the completion record (R259), the rotation of compute (R260),
and the commands about them.
-/

namespace Sys2Proof.Machine

/-! ### Answers to an agent's access -/

/-- Answer an agent. -/
def State.reply (s : State) (g : Agent) (status : Nat) : State := s.emit (.answer g status)

/-- The core that an agent is. -/
def coreOf : Agent → Option Nat
  | .core c _ => some c
  | _ => none

/-- The task of a core's engine ends with a TASK-class error at the instruction that the engine executes, if the core runs one. -/
def State.engineError (s : State) (c : Nat) (e : Engine) (ev : Ev) (status a : Nat) : State :=
  let k := s.core c
  if k.fetching ∧ !k.ended then s.taskError c ev status (k.execOff e) a else s

/-- A core's task ends at an access that faults by R13 or is refused by R229; every agent is answered. -/
def State.accessFault (s : State) (g : Agent) (a : Nat) (ev : Ev := .addrFault) : State :=
  let s1 := s.reply g stBadArg
  match g with
  | .core c e => s1.engineError c e ev stBadArg a
  | _ => s1

/-! ### Slots of a core, R194, R593 -/

/-- A core has a slot free for a request to an address: an outer slot for a package, a slice slot for a slice or a peer's scratchpad. -/
def Core.slotFree (k : Core) (a : Nat) : Bool :=
  match place a with
  | .outer _ _ => (lowestFree k.outerSlots 16).isSome
  | _ => (lowestFree k.sliceSlots 16).isSome

/-- Take an outer slot. -/
def Core.takeOuter (k : Core) : Core :=
  match lowestFree k.outerSlots 16 with
  | some i => { k with outerSlots := insertSet k.outerSlots i }
  | none => k

/-- Release an outer slot. -/
def Core.dropOuter (k : Core) : Core := { k with outerSlots := k.outerSlots.drop 1 }

/-! ### Operations -/

/-- The operation record of R256. -/
structure ProbRec where
  bs : List Byte
  deriving DecidableEq, Repr

def ProbRec.op (r : ProbRec) : Nat := field r.bs 0 1
def ProbRec.wfmt (r : ProbRec) : Nat := field r.bs 1 1
def ProbRec.xfmt (r : ProbRec) : Nat := field r.bs 2 1
def ProbRec.vectors (r : ProbRec) : Nat := field r.bs 3 1
def ProbRec.anchor (r : ProbRec) : Int := asInt 8 (field r.bs 4 1)
def ProbRec.outFmt (r : ProbRec) : Nat := field r.bs 5 1
def ProbRec.roundB (r : ProbRec) : Nat := field r.bs 6 1
def ProbRec.rows (r : ProbRec) : Nat := field r.bs 8 4
def ProbRec.cols (r : ProbRec) : Nat := field r.bs 12 4
def ProbRec.wBase (r : ProbRec) : Nat := field r.bs 0x10 8
def ProbRec.sBase (r : ProbRec) : Nat := field r.bs 0x18 8
def ProbRec.xBase (r : ProbRec) : Nat := field r.bs 0x20 8
def ProbRec.yBase (r : ProbRec) : Nat := field r.bs 0x28 8
def ProbRec.yStride (r : ProbRec) : Nat := field r.bs 0x30 4
def ProbRec.g1 (r : ProbRec) : Nat := field r.bs 0x34 4
def ProbRec.statusAddr (r : ProbRec) : Nat := field r.bs 0x38 8
/-- Op is PZERO. -/
def ProbRec.zero (r : ProbRec) : Bool := r.op == 4
/-- Bytes of a row of weights. -/
def ProbRec.wRow (r : ProbRec) : Nat := r.cols * elemBits r.wfmt / 8
/-- Bytes of scales per row, R70. -/
def ProbRec.scaleRow (r : ProbRec) : Nat :=
  if blockSize r.wfmt = 0 then 0 else ((r.cols + blockSize r.wfmt - 1) / blockSize r.wfmt + 31) / 32 * 32
/-- XS: K bytes rounded up to 256. -/
def ProbRec.xStride (r : ProbRec) : Nat := (r.cols + 255) / 256 * 256
/-- Bytes of one result. -/
def ProbRec.outBytes (r : ProbRec) : Nat := elemBits r.outFmt / 8

/-- The ranges of W, S and X, those of no bytes left out. -/
def ProbRec.sources (r : ProbRec) : List (Nat × Nat) :=
  if r.zero then [] else
    [(r.wBase, r.rows * r.wRow), (r.sBase, r.rows * r.scaleRow), (r.xBase, (r.vectors - 1) * r.xStride + r.cols)].filter
      (fun x => x.2 != 0)

/-- The range of Y. -/
def ProbRec.result (r : ProbRec) : Nat × Nat :=
  (r.yBase, if r.zero then r.vectors * r.yStride else (r.vectors - 1) * r.yStride + r.rows * r.outBytes)

/-- A range lies wholly in the placeable part of a package: no control page, no journal mirror, no retired page (R229,
R184, R248). -/
def State.placeable (s : State) (m : Nat) (x : Nat × Nat) : Bool :=
  match place x.1 with
  | .outer n off =>
    n == m && decide (off + x.2 ≤ 65535 * 0x200000) && !journalMirror m off && s.accessOk x.1 x.2
  | _ => false

/-- The 2 MiB pages of a package that a range covers. -/
def outerPages (m : Nat) (x : Nat × Nat) : List Nat :=
  let lo := (x.1 - outerAddr m) / 0x200000
  let hi := (x.1 + x.2 - 1 - outerAddr m) / 0x200000
  if x.2 = 0 then [] else (List.range (hi + 1 - lo)).map (· + lo)

/-- A field of the record breaks R256. -/
def ProbRec.malformed (r : ProbRec) : Bool :=
  !(decide (1 ≤ r.op) && decide (r.op ≤ 4)) || !(decide (1 ≤ r.vectors) && decide (r.vectors ≤ 4)) ||
    !(decide (1 ≤ r.rows) && decide (r.rows ≤ 32768)) || r.yBase % 64 != 0 || r.yStride % 64 != 0 ||
    field r.bs 7 1 != 0 || r.statusAddr % 32 != 0 ||
    (if r.zero then
      r.wfmt != 0 || r.xfmt != 0 || field r.bs 4 1 != 0 || r.outFmt != 0 || r.roundB != 0 || r.cols != 0 ||
        r.wBase != 0 || r.sBase != 0 || r.xBase != 0 || r.g1 != 0 || r.statusAddr != 0
    else
      ! [0x02, 0x03, 0x06, 0x07, 0x12, 0x13, 0x16].contains r.wfmt || ! [0x02, 0x03].contains r.xfmt ||
        (if r.op = 1 then ! [0x02, 0x03, 0x08, 0x09, 0x0A].contains r.outFmt else r.outFmt != 0x0C) ||
        decide (2 ≤ r.roundB % 4) || decide (16 ≤ r.roundB) ||
        r.cols == 0 || r.cols * elemBits r.wfmt % 2048 != 0 ||
        r.wBase % 256 != 0 || r.xBase % 256 != 0 || r.sBase % 32 != 0 ||
        (blockSize r.wfmt == 0 && r.sBase != 0) || decide (r.yStride < r.rows * r.outBytes))

/-- Status_Addr is zero or lies in a slice or outer page that can be written. -/
def State.statusAddrOk (s : State) (r : ProbRec) : Bool :=
  r.statusAddr == 0 || (r.statusAddr % 32 == 0 && s.accessOk r.statusAddr 32 &&
    (match place r.statusAddr with | .slice _ _ => true | .outer _ off => decide (off < 65535 * 0x200000) | _ => false))

/-- The controller rejects the operation, R257. -/
def State.probBad (s : State) (m : Nat) (r : ProbRec) (epoch : Nat) : Bool :=
  let y := r.result
  let shadows := s.work.shadows
  let inOwn (p : Nat) : Bool := shadows.any fun x => epoch != 0 && x.epoch == epoch &&
    decide (x.page ≤ outerAddr m + p * 0x200000) && decide (outerAddr m + (p + 1) * 0x200000 ≤ x.page + x.size)
  let inOther : Bool := shadows.any fun x => x.epoch != epoch && overlaps (x.page, x.size) y
  r.malformed || decide (32768 < r.vectors * r.rows) || !s.statusAddrOk r ||
    !((r.sources ++ [y]).all (s.placeable m)) ||
    r.sources.any (overlaps y) ||
    s.sharedPage y.1 y.2 ||
    inOther || (epoch != 0 && !((outerPages m y).all inOwn))

/-- The completion record of R259; a clean write of a whole codeword or half of one. While another operation claims its page, the record
waits (R263). -/
def State.probRecord (s : State) (m addr status port : Nat) (flags : BitVec 9) : State :=
  if addr = 0 then s
  else
    let bs := leBytes 1 status ++ [0] ++ leBytes 2 flags.toNat ++ leBytes 2 port ++ [0, 0] ++ leBytes 8 s.now ++
      List.replicate 16 (0 : Byte)
    if s.claimed addr 32 then s.modOuter m fun o => { o with lateRecords := o.lateRecords ++ [(addr, bs)] }
    else s.writeRange addr bs (List.replicate 32 false)

/-- What a store to a port comes to. -/
inductive ProbAns where
  | taken | status (st : Nat) | poison
  deriving DecidableEq, Repr

/-- A task of a pass of a cool model has issued an operation over the weight matrix in which `w` lies (R305). -/
def State.passOp (s : State) (epoch w : Nat) : State :=
  s.onSvc fun v => { v with passes := mapTab v.passes fun _ p =>
    if epoch = 0 ∨ p.epoch ≠ epoch then p
    else { p with ops := p.ops.map fun x =>
      if s.work.placed.any fun q => q.handle.tensor == x.1 && decide (q.addr ≤ w) && decide (w < q.addr + q.bytes) then (x.1, x.2 - 1) else x } }

/-- A store of a record to a port of a package, judged in the order of R255: busy port, full queue, then the record. -/
def State.probSubmit (s : State) (m port : Nat) (core : Option Nat) (epoch : Nat) (record : List Byte) (poison : Bool)
    (reply : Option LPacket := none) : State × ProbAns :=
  let o := s.outer m
  let r : ProbRec := ⟨record⟩
  if o.failed then (s, .status stBadArg)
  else if (o.ops ++ o.running).any (·.port == port) then
    (s.modOuter m fun o => { o with busyResponses := satAdd 16 o.busyResponses 1 }, .status stBusy)
  else if 256 ≤ o.ops.length + o.running.length then (s, .status stRetry)
  else if poison then (s, .poison)
  else if s.probBad m r epoch then
    -- a Status_Addr that a PZERO gives is itself refused, and no record is written (R256, R259)
    (if s.statusAddrOk r && !r.zero then s.probRecord m r.statusAddr stBadArg port 0 else s, .status stBadArg)
  else
    let s1 := s.modOuter m fun o => { o with
      ops := o.ops ++ [{ port := port, core := core, epoch := epoch, record := record, reply := reply }] }
    -- the store of a core of this module holds an outer slot until it is acknowledged (R593)
    ((match core with | some c => s1.modCore c Core.takeOuter | none => s1).passOp epoch r.wBase, .taken)

/-! ### The computation of R258 -/

/-- The elements of a row of weights or of an activation vector. -/
def State.probElems (s : State) (fmt base n scaleBase : Nat) : List CElem :=
  let b := elemBits fmt
  let v := leNat (s.mem.read base (n * b / 8))
  (List.range n).map fun i =>
    let raw := v / 2 ^ (b * i) % 2 ^ b
    let u := unitBase (base + b * i / 8)
    let p := s.mem.marked u || s.mem.dieBad u
    if blockSize fmt = 0 then { v := decodeElem fmt raw, k := some 0, p := p }
    else
      let a := scaleBase + i / blockSize fmt
      let sc := (s.mem.byte a).toNat
      let ps := p || s.mem.marked (unitBase a) || s.mem.dieBad (unitBase a)
      if fmt = fmtFb4 then { v := (decodeElem fmt raw).mul (decodeUE4M4 sc), k := some 0, p := ps }
      else { v := decodeElem fmt raw, k := if sc = 0xFF then none else some ((sc : Int) - 127), p := ps }

/-- Entry (v, r) of an operation. -/
def State.probEntry (s : State) (r : ProbRec) (v row : Nat) : AccEntry :=
  cmmaEntry .eight 4 r.anchor
    (s.probElems r.xfmt (r.xBase + v * r.xStride) r.cols 0)
    (s.probElems r.wfmt (r.wBase + row * r.wRow) r.cols (r.sBase + row * r.scaleRow)) {}

/-- The result bytes of an entry, its mark and its flags: converted for PMV, the record for PMV_RAW, the sum with the
record in place for PMV_ADD. -/
def State.probResult (s : State) (r : ProbRec) (v row : Nat) : List Byte × Bool × BitVec 9 :=
  let e := s.probEntry r v row
  let a := r.yBase + v * r.yStride + row * r.outBytes
  match r.op with
  | 1 =>
    let md : RMode := if r.roundB % 4 = 1 then .rtz else .rne
    let g1 : Val := if r.roundB / 8 % 2 = 1 then fFP32.decode r.g1 else .fin false 1 0
    let (x, ovf) := (e.taken r.anchor).convert ((ffmt r.outFmt).getD fFP32) md (r.roundB / 4 % 2 == 1) g1 (.fin false 1 0)
    (leBytes r.outBytes x, e.poison, e.cubeFlags ||| (if ovf then outOvf else 0#9))
  | 3 =>
    let old := AccEntry.ofRecord (leNat (s.mem.read a 16)) (s.mem.marked (unitBase a) || s.mem.dieBad (unitBase a))
    let e1 := old.combine e
    (leBytes 16 e1.record, e1.poison, e1.cubeFlags)
  | _ => (leBytes 16 e.record, e.poison, e.cubeFlags)

/-- Acc_Poison of CUBE_FLAGS as a flag of the completion record. -/
def accPoisonFlag : BitVec 9 := 1#9

/-- The result of an entry of an operation that ran out of time (R259): which entries were complete is open, and an entry not
complete is written poisoned with bytes that are open. `i` numbers the entries of the operation. -/
def State.lateResult (s : State) (r : ProbRec) (i : Nat) (x : List Byte × Bool × BitVec 9) : List Byte × Bool × BitVec 9 :=
  let at_ := s.free + i * (r.outBytes + 1)
  if Config.freeChoice at_ then x
  else ((List.range r.outBytes).map fun k => Config.freeByte (at_ + 1 + k), true, accPoisonFlag)

/-- Store the results of one vector, all of them computed from the state before, codeword by codeword. -/
def State.probStore (s : State) (r : ProbRec) (late : Bool) : State × BitVec 9 :=
  if r.zero then
    let n := r.vectors * r.yStride
    (s.writeRange r.yBase (List.replicate n 0) (List.replicate n false), 0)
  else
    let res := (List.range r.vectors).map fun v => (List.range r.rows).map fun row =>
      let x := s.probResult r v row
      if late then s.lateResult r (v * r.rows + row) x else x
    let s0 : State := if late then { s with free := s.free + r.vectors * r.rows * (r.outBytes + 1) } else s
    let flags := (res.flatten.map (·.2.2)).foldl (· ||| ·) (0#9)
    ((res.zipIdx).foldl (fun s x =>
      s.writeRange (r.yBase + x.2 * r.yStride) (x.1.flatMap (·.1))
        (x.1.flatMap fun y => List.replicate r.outBytes y.2.1)) s0, flags)

/-- The submitting store is acknowledged: its instruction has transferred, and its outer slot is free (R266, R593). `port` numbers
the ports of all packages: 1,024 × package + port. A store whose task has ended is not there any more: its acknowledgement is discarded
(R267). -/
def Core.storeAck (k : Core) (port : Nat) : Core :=
  { k.dropOuter with qMove := k.qMove.map fun q =>
      if q.op = 0x81 ∧ q.status = .store ∧ q.row = port then { q with status := .done } else q }

/-- The acknowledgement of the store that submitted an operation to a package: to its core, or over the link it came by (R255). -/
def State.probAck (s : State) (m : Nat) (o : ProbOp) : State :=
  let s1 := match o.core with
    | some c => (s.modCore c fun k => k.storeAck (1024 * m + o.port)).reply (.core c .move) stOk
    | none => s
  match o.reply with
  | some p => s1.emit (.packet none (answerTo p s1.lys.deviceId 0x11 stOk (s1.mem.instar p.address).toNat [] []))
  | none => s1

/-- An operation ends: what the dies meet in its sources is corrected and logged (R239, R243), its results are stored, the instar of each Y
page rises by one (R253, R266), its claims go, its store is acknowledged and the completion record is written. One that ran out of time
logs OUTER_TIMEOUT; Timeouts counts requests only (R259, R268). -/
def State.probPublish (s : State) (m : Nat) (o : ProbOp) (timeout : Bool) : State :=
  let r : ProbRec := ⟨o.record⟩
  let s0 := (r.sources ++ (if r.op = 3 then [r.result] else [])).foldl (fun s x => s.visit x.1 x.2) s
  let (s1, flags) := s0.probStore r timeout
  let s2 := (outerPages m r.result).foldl (fun s p => s.onMem fun mm => mm.bumpInstar (outerAddr m + p * 0x200000)) s1
  let s3 := s2.modOuter m fun x => { x with
    running := x.running.filter (·.port != o.port), opsDone := (x.opsDone + 1) % 2 ^ 24 }
  let s4 := if timeout then
      s3.logEvent .outerTimeout { ut := utOuter, ui := m, status := stTimeout, address := r.yBase }
    else s3
  ((s4.probAck m o).probRecord m r.statusAddr (if timeout then stTimeout else stOk) o.port flags).flushRecords

/-! ### Commands -/

/-- First address of the ports of a package (R229), and the address of one. -/
def portBase : Nat := 0x1FFFFF0000
def portAddr (m port : Nat) : Nat := outerAddr m + portBase + 64 * port

/-- Active_Max in force, R261. -/
def Outer.activeNow (o : Outer) : Nat := if o.derated then min o.activeMax 8 else o.activeMax

/-- PROBOSCIS_SUBMIT, R255 to R257: a store of a record reaches a port. The submitting core, if any, is named: without a free outer
slot its store stays in its engine (R593), and taken in it waits for the end of the operation. -/
def execProboscisSubmit (m port : Nat) (record : List Byte) (poison : Bool) (c : Option Nat) (s : State) :
    Host.Outcome State Fault Refusal :=
  if 12 ≤ m ∨ 1024 ≤ port ∨ record.length ≠ 64 then .next s
  else
    let epoch := match c.bind fun c => s.task? (s.core c).task with
      | some t => t.desc.epoch
      | none => 0
    let a := portAddr m port
    if c.any fun c => !(s.core c).slotFree a then .next s
    else match s.probSubmit m port c epoch record poison with
    | (s1, .taken) => .next s1
    | (s1, .status st) =>
      match c with
      | some c => .next (if st = stBadArg then s1.engineError c .move .taskBadArg stBadArg a else s1.reply (.core c .move) st)
      | none => .next (s1.reply (.link 0) st)
    | (s1, .poison) =>
      match c with
      | some c => .next (s1.engineError c .move .poisonControl stBadArg a)
      | none => .next (s1.reply (.link 0) stBadArg)

/-- PROBOSCIS_START, R262, R263: the oldest accepted operation takes its claims in one step and starts, unless they
conflict with claims held. -/
def execProboscisStart (m : Nat) (s : State) : Host.Outcome State Fault Refusal :=
  let o := s.outer m
  match o.ops with
  | [] => .next s
  | p :: rest =>
    let r : ProbRec := ⟨p.record⟩
    let rd := (r.sources.flatMap (outerPages m)).foldl insertSet []
    let wr := (outerPages m r.result).foldl insertSet []
    if rd.any o.writeClaims.contains || wr.any (fun x => o.writeClaims.contains x || o.readClaims.contains x) then .next s
    else .next (s.modOuter m fun o => { o with
      ops := rest, running := o.running ++ [{ p with readPages := rd, writePages := wr }] })

/-- The channels that hold blocks of a range (R228). -/
def channelsOf (x : Nat × Nat) : List Nat :=
  if x.2 = 0 then [] else
    let blocks := (x.1 + x.2 - 1) / 256 + 1 - x.1 / 256
    (List.range (min 32 blocks)).map fun i => (x.1 / 256 + i) % 32

/-- The rotation groups whose channels hold data that an operation reads (R260). -/
def ProbOp.groups (o : ProbOp) : List Nat :=
  ((((⟨o.record⟩ : ProbRec).sources.flatMap channelsOf).map (· / 4)).foldl insertSet [])

/-- The rotation groups with pending work, in the order of the grant from its first group on. -/
def Outer.workGroups (o : Outer) : List Nat :=
  let all := (o.running.flatMap ProbOp.groups).foldl insertSet []
  (all.filter fun g => decide (o.grant ≤ g)) ++ all.filter fun g => decide (g < o.grant)

/-- The groups to which compute is granted: Active_Max / 4 of those with pending work (R260). -/
def Outer.granted (o : Outer) : List Nat := o.workGroups.take (o.activeNow / 4)

/-- ROTATION_WINDOW, R260: the grant passes to the next groups in rising order, wrapping from 7 to 0 and skipping those with no pending
work. -/
def execRotationWindow (m : Nat) (s : State) : Host.Outcome State Fault Refusal :=
  .next (s.modOuter m fun o =>
    let w := o.workGroups
    { o with grant := (w ++ w).getD o.granted.length o.grant })

/-- PROBOSCIS_PUBLISH, R258, R266. -/
def execProboscisPublish (m port : Nat) (s : State) : Host.Outcome State Fault Refusal :=
  match (s.outer m).running.find? (·.port == port) with
  | none => .next s
  | some o => .next (s.probPublish m o false)

/-- PROBOSCIS_TIMEOUT, R259: the operation publishes with its incomplete entries poisoned. -/
def execProboscisTimeout (m port : Nat) (s : State) : Host.Outcome State Fault Refusal :=
  match (s.outer m).running.find? (·.port == port) with
  | none => .next s
  | some o => .next (s.probPublish m o true)

end Sys2Proof.Machine
end

