-- ==== Sys2Proof/Machine/Vector.lean ====
section
/-!
DEFINITION. What the vector engine computes: elementwise arithmetic, comparison and conversion, special functions, row
reductions, integer operations, record addition and random words (R92 to R96, R117, R118). Each takes a core and an
instruction word with its loop terms added, reads the scratchpad, and stores the result with its marks.
-/

namespace Sys2Proof.Machine

/-- The element of Src_B for element (i, j) by Modifiers [3:2], R118. -/
def bAt {α : Type} (rows : List (List α)) (shape i j : Nat) (d : α) : α :=
  match shape with
  | 0 => (rows.getD i []).getD j d
  | 1 => (rows.getD 0 []).getD j d
  | 2 => (rows.getD 0 []).getD i d
  | _ => (rows.getD 0 []).getD 0 d

/-- All rows of an operand, raw elements with marks. -/
def State.rawRows (s : State) (c : Nat) (o : Opnd) : List (List (Nat × Bool)) :=
  (List.range o.rows).map (s.rawRow c o)

/-- Store rows of raw elements from row 0 of an operand. -/
def State.storeRowsAt (s : State) (c : Nat) (o : Opnd) (rows : List (List (Nat × Bool))) : State :=
  (rows.zipIdx).foldl (fun s x => s.storeElems c o x.2 x.1) s

/-- The elements `f i j a b` over the rows of Src_A with Src_B shaped by R118; marks are joined (R63). -/
def State.zipAB (s : State) (c : Nat) (w : IFields) (f : Nat → Nat → Nat → Nat → Nat) : List (List (Nat × Bool)) :=
  let oa := opnd w.srcA
  let ob := opnd w.srcB
  let rb := s.rawRows c ob
  let sh := bits w.mods.toNat 3 2
  (s.rawRows c oa).mapIdx fun i row => row.mapIdx fun j x =>
    let y := bAt rb sh i j (0, false)
    (f i j x.1 y.1, x.2 || y.2)

/-- Rounding mode RNE, or RTZ by Modifiers [0] (R117). -/
def rtzMode (w : IFields) : RMode := if w.mods.getLsbD 0 then .rtz else .rne

/-- Round to the format of a destination code; INT32 and INT8 do not occur here. An overflow in VEC sets no bit of CUBE_FLAGS: R88 says
that every overflow sets Out_Ovf, and the register counts conversions of the cube (DESIGN CHOICE, log entry 164). -/
def roundTo (fmt : Nat) (md : RMode) (v : Val) : Nat :=
  match ffmt fmt with
  | some f => (f.round md false v).1
  | none => 0

/-- An elementwise floating-point instruction of two sources, rounded once to the Dest format (R92). -/
def State.vBinary (s : State) (c : Nat) (w : IFields) (f : Val → Val → Val) : State :=
  let od := opnd w.dest
  let fa := (opnd w.srcA).fmt
  let fb := (opnd w.srcB).fmt
  s.storeRowsAt c od (s.zipAB c w fun _ _ x y => roundTo od.fmt (rtzMode w) (f (decodeElem fa x) (decodeElem fb y)))

/-- VFMA: A × B + Dest with one rounding. -/
def State.vFma (s : State) (c : Nat) (w : IFields) : State :=
  let od := opnd w.dest
  let fa := (opnd w.srcA).fmt
  let fb := (opnd w.srcB).fmt
  let rd := s.rawRows c od
  let rows := (s.zipAB c w fun i j x y =>
    roundTo od.fmt (rtzMode w)
      (((decodeElem fa x).mul (decodeElem fb y)).add (decodeElem od.fmt ((rd.getD i []).getD j (0, false)).1))).mapIdx
    fun i row => row.mapIdx fun j x => (x.1, x.2 || ((rd.getD i []).getD j (0, false)).2)
  s.storeRowsAt c od rows

/-- VCMPGT: 1 where neither source is NaN and A > B (R117). -/
def State.vCmpGt (s : State) (c : Nat) (w : IFields) : State :=
  let fa := (opnd w.srcA).fmt
  let fb := (opnd w.srcB).fmt
  s.storeRowsAt c (opnd w.dest)
    (s.zipAB c w fun _ _ x y => if (decodeElem fb y).lt (decodeElem fa x) then 1 else 0)

/-- An instruction of one source, elementwise. -/
def State.vUnary (s : State) (c : Nat) (w : IFields) (f : Nat → Nat → Nat → Nat) : State :=
  s.storeRowsAt c (opnd w.dest)
    ((s.rawRows c (opnd w.srcA)).mapIdx fun i row => row.mapIdx fun j x => (f i j x.1, x.2))

/-- VCVT: mode by Modifiers [1:0], SR with the salt of Aux (R89, R117). -/
def State.vCvt (s : State) (c : Nat) (w : IFields) : State :=
  let od := opnd w.dest
  let fa := (opnd w.srcA).fmt
  let k := s.core c
  let salt : Word := w.aux.truncate 32
  s.vUnary c w fun i j x =>
    let md : RMode := match bits w.mods.toNat 1 0 with
      | 0 => .rne
      | 1 => .rtz
      | _ => .sr (srBits k.seed (k.tileRow + BitVec.ofNat 32 i) (k.tileCol + BitVec.ofNat 32 j) salt)
    if od.fmt = fmtInt32 then toInt32 md (decodeElem fa x) else roundTo od.fmt md (decodeElem fa x)

/-- VCOPY: the same bits (R117). -/
def State.vCopy (s : State) (c : Nat) (w : IFields) : State := s.vUnary c w fun _ _ x => x

/-- A special function of R93: correctly rounded to FP32, then once to the Dest format by R92. -/
def State.vSpecial (s : State) (c : Nat) (w : IFields) (f : Val → Word) : State :=
  let od := opnd w.dest
  let fa := (opnd w.srcA).fmt
  s.vUnary c w fun _ _ x =>
    let r := f (decodeElem fa x)
    if od.fmt = fmtFP32 then r.toNat else roundTo od.fmt (rtzMode w) (ofF32 r)

/-- A row reduction: element r of the 1 × Rows result from row r, marked when any element of the row is (R95, R118). -/
def State.vReduce (s : State) (c : Nat) (w : IFields) (f : List Val → Val) : State :=
  let od := opnd w.dest
  let fa := (opnd w.srcA).fmt
  let row := (s.rawRows c (opnd w.srcA)).map fun r =>
    (roundTo od.fmt (rtzMode w) (f (r.map fun x => decodeElem fa x.1)), r.any (·.2))
  s.storeElems c od 0 row

/-- ROWMAX: NaN if any element is NaN, else the largest, +0 above −0. -/
def rowMax : List Val → Val
  | [] => .nan
  | x :: xs => xs.foldl Val.max2 x

/-- ROWSUM: exact conversion to FP32, then the tree of R95. -/
def rowSum (xs : List Val) : Val := ofF32 (treeSum 16 (xs.map toF32))

/-- ROWSUMSQ: squares with RNE, then the tree. -/
def rowSumSq (xs : List Val) : Val := ofF32 (treeSum 16 (xs.map fun x => toF32 (x.mul x)))

/-- An integer instruction on INT32 (R106, R117). -/
def State.vInt (s : State) (c : Nat) (w : IFields) (f : Word → Word → Word) : State :=
  s.storeRowsAt c (opnd w.dest)
    (s.zipAB c w fun _ _ x y => (f (BitVec.ofNat 32 x) (BitVec.ofNat 32 y)).toNat)

/-- ACCADD: records combined by R85. -/
def State.vAccAdd (s : State) (c : Nat) (w : IFields) : State :=
  s.storeRowsAt c (opnd w.dest)
    (s.zipAB c { w with mods := 0 } fun _ _ x y =>
      ((AccEntry.ofRecord x false).combine (AccEntry.ofRecord y false)).record)

/-- The random word of an element: one word of the Philox block keyed by TASK_SEED (R89, R96). R96 takes the counter from the
instruction and from TILE_ORIGIN and gives no layout, so the counter, and which word of the block it is, are free values of these
inputs (log entry 9). -/
def vrandWord (seed : Dword) (w : IFields) (tileRow tileCol : Word) (i j : Nat) : Word :=
  let x := philox seed (Config.vrandCounter w tileRow tileCol i j)
  match (Config.vrandPick w tileRow tileCol i j).val with
  | 0 => x.1
  | 1 => x.2.1
  | 2 => x.2.2.1
  | _ => x.2.2.2

/-- VRAND: random words of the generator keyed by TASK_SEED. -/
def State.vRand (s : State) (c : Nat) (w : IFields) : State :=
  let od := opnd w.dest
  let k := s.core c
  s.storeRowsAt c od ((List.range od.rows).map fun i => (List.range od.cols).map fun j =>
    ((vrandWord k.seed w k.tileRow k.tileCol i j).toNat, false))

/-- What a VEC instruction does, by opcode (R106). -/
def State.vecOp (s : State) (c op : Nat) (w : IFields) : State :=
  match op with
  | 0x40 => s.vBinary c w Val.add
  | 0x41 => s.vBinary c w fun a b => a.add b.neg
  | 0x42 => s.vBinary c w Val.mul
  | 0x43 => s.vFma c w
  | 0x44 => s.vBinary c w Val.max2
  | 0x45 => s.vBinary c w Val.min2
  | 0x46 => s.vCvt c w
  | 0x47 => s.vCopy c w
  | 0x48 => s.vCmpGt c w
  | 0x50 => s.vSpecial c w spExp
  | 0x51 => s.vSpecial c w spLog
  | 0x52 => s.vSpecial c w spRcp
  | 0x53 => s.vSpecial c w spRsqrt
  | 0x54 => s.vSpecial c w spTanh
  | 0x55 => s.vSpecial c w spErf
  | 0x58 => s.vReduce c w rowMax
  | 0x59 => s.vReduce c w rowSum
  | 0x5A => s.vReduce c w rowSumSq
  | 0x60 => s.vInt c w fun a b => a + b
  | 0x61 => s.vInt c w fun a b => a * b
  | 0x62 => s.vInt c w fun a b => a.sshiftRight (b.toNat % 32)
  | 0x63 => s.vInt c w fun a b => a &&& b
  | 0x64 => s.vInt c w fun a b => if a.slt b then a else b
  | 0x68 => s.vAccAdd c w
  | 0x69 => s.vRand c w
  | _ => s

end Sys2Proof.Machine
end

