-- ==== Sys2Proof/Machine/MoveGather.lean ====
section
/-!
DEFINITION. What the MOVE and GATHER engines do: the rows of an instruction (R119 to R125), their transfer to and from
local memory, remote modules and host windows (R121, R381, R384, R444), the watch table (R217 to R220, R254), and what
happens to a static chain under an external write (R131).
-/

namespace Sys2Proof.Machine

/-- The instruction loads the scratchpad: MLOAD, GLOAD, GPAGE. -/
def isLoad (op : Nat) : Bool := op == 0x80 || op == 0xA0 || op == 0xA2

/-- The scratchpad operand of a long-running instruction. -/
def QItem.scratch (q : QItem) : Opnd :=
  match q.op with
  | 0x81 => opnd q.w.srcA
  | 0xA1 => opnd q.w.srcB
  | _ => opnd q.w.dest

/-- The descriptor slot of a long-running instruction, Aux [11:0]. -/
def QItem.slot (q : QItem) : Nat := bits q.w.aux.toNat 11 0

/-! ### The rows of an instruction -/

/-- The indices of GLOAD or GSCAT with their marks: a 1 × Rows or Rows × 1 operand of INT32 (R122). -/
def State.indices (s : State) (c : Nat) (w : IFields) (n : Nat) : List (Int × Bool) :=
  let o := opnd w.srcA
  let xs := if o.rows = 1 then s.rawRow c o 0 else ((List.range o.rows).map fun r => (s.rawRow c o r).take 1).flatten
  (xs.take n).map fun x => (asInt 32 x.1, x.2)

/-- A page descriptor, R286. -/
structure PageDesc where
  raw : BitVec 128
  deriving DecidableEq, Repr

def PageDesc.base (p : PageDesc) : Nat := bits p.raw.toNat 43 0
def PageDesc.tokens (p : PageDesc) : Nat := bits p.raw.toNat 78 65
def PageDesc.log2 (p : PageDesc) : Nat := bits p.raw.toNat 82 79
def PageDesc.fmt (p : PageDesc) : Nat := bits p.raw.toNat 87 83
def PageDesc.scale (p : PageDesc) : Nat := bits p.raw.toNat 95 88

/-- A page descriptor is valid for a data descriptor, R125. -/
def PageDesc.valid (p : PageDesc) (d : Desc) : Bool :=
  let st := d.stride 1
  let off : Int := (p.base : Int) - d.base
  decide (4 ≤ p.log2) && decide (p.log2 ≤ 13) && decide (p.tokens ≤ 2 ^ p.log2) && p.fmt == d.fmt &&
    decide (0 ≤ off) && decide (off + (2 ^ p.log2 : Nat) * st ≤ d.size 1 * st) && decide (off % st = 0)

/-- A page-table entry in use: its number, its first token P, its descriptor. -/
structure PageEnt where
  num  : Nat
  p    : Nat
  desc : PageDesc
  deriving DecidableEq, Repr

/-- What reading a page-table entry gives: its bits with their mark, that it is still to be fetched, or an access that is not answered
with data. -/
inductive EntRead where
  | got (raw : BitVec 128) (p : Bool) | need | ans (x : Ans) (a : Nat)
  deriving DecidableEq, Repr

/-- Read entry `e` of the page table of a GPAGE: from this module's memory, or from what has been fetched of a table of Kind 1 or 2. -/
def State.readEntry (s : State) (g : Agent) (q : QItem) (e : Nat) : State × EntRead :=
  let pt : Desc := ⟨q.tdesc⟩
  if pt.kind = 0 then
    let a := pt.base + 16 * e
    match s.answer g a 16 false with
    | .go =>
      let (s1, bs, ps) := s.readRange a 16
      (s1, .got (BitVec.ofNat 128 (leNat bs)) (ps.any id))
    | x => (s, .ans x a)
  else match look q.tab e with
    | some x => (s, .got x.1 x.2)
    | none => (s, .need)

/-- How a walk ends: with the entries it needs, at an invalid descriptor, at a poisoned one, at one still to be fetched, or at an access
that is not answered with data. -/
inductive WalkEnd where
  | ok | invalid | poisoned | need (e : Nat) | ans (x : Ans) (a : Nat)
  deriving DecidableEq, Repr

/-- Walk a page table in rising entry order (R123, R124) until the bound or until token `last` is covered; `fuel` bounds the entries. -/
def State.walk (s : State) (g : Agent) (q : QItem) (last : Nat) : Nat → Nat → Nat → State × List PageEnt × WalkEnd
  | 0, _, _ => (s, [], .ok)
  | fuel + 1, e, p =>
    let d : Desc := ⟨q.desc⟩
    if d.idxBound ≤ e ∨ last < p then (s, [], .ok)
    else match s.readEntry g q e with
      | (s1, .need) => (s1, [], .need e)
      | (s1, .ans x a) => (s1, [], .ans x a)
      | (s1, .got raw true) => (s1, [{ num := e, p := p, desc := ⟨raw⟩ }], .poisoned)
      | (s1, .got raw false) =>
        let pd : PageDesc := ⟨raw⟩
        if pd.valid d then
          let (s2, rest, r) := s1.walk g q last fuel (e + 1) (p + pd.tokens)
          (s2, { num := e, p := p, desc := pd } :: rest, r)
        else (s1, [], .invalid)

/-- What the planning of an instruction's rows comes to: the rows with the table pages read and their instars, a page descriptor to be
fetched, a wait, or the end of the task. -/
inductive Plan where
  | ok (s : State) (rows : List (Option Int)) (fails : Bool) (tables : Tab Word)
  | ask (s : State) (entry : Nat)
  | hold (s : State) (st : QStatus)
  | err (s : State) (ev : Ev) (status address : Nat)
  deriving DecidableEq

/-- The queue status that an answer other than data leaves an instruction in; none ends its task. -/
def waitOf (st : Nat) : Option QStatus :=
  if st = stBusy then some .busy else if st = stRetry then some .retry else if st = stResetting then some .resetting else none

/-- An access answered otherwise than with data: a fault by R13 or a refusal ends the task, a passing condition holds the
instruction for its reissue (R196, R229, R264, R342). -/
def State.refusedAs (s : State) (x : Ans) (a : Nat) : Plan :=
  match x with
  | .status st =>
    match waitOf st with
    | some w => .hold (s.countBusy a x) w
    | none => .err s .taskBadArg stBadArg a
  | _ => .err (s.countBusy a x) .addrFault stBadArg a

/-- The key of a page of this module. -/
def ownPage (a : Nat) : Nat := 2 ^ 63 + pageBase a

/-- An address lies in a slice or an outer package, whose pages carry instars. -/
def watched (a : Nat) : Bool :=
  match place a with
  | .slice _ _ | .outer _ _ => true
  | _ => false

/-- The page keys of a range on a module (none for this module). -/
def pageKeys (dev : Option Nat) (a len : Nat) : List Nat :=
  if watched a ∧ len ≠ 0 then
    let key (x : Nat) := match dev with | some i => i * 2 ^ 48 + pageBase x | none => ownPage x
    if pageBase a = pageBase (a + len - 1) then [key a] else [key a, key (a + len - 1)]
  else []

/-- Read a descriptor slot as the engines do, from the core's own slice (R119, R202 to R205): the state after, the descriptor, and whether
it carries a poison mark. -/
def State.fetchDesc (s : State) (c slot : Nat) : State × Desc × Bool :=
  let (s1, bs, ps) := s.readRange (s.descAddr c slot) 64
  (s1, ⟨leNat bs⟩, ps.any id)

/-- Read the descriptors of an instruction, once, at its start: the data descriptor, and the page-table descriptor of a GPAGE. -/
def State.readDescs (s : State) (c : Nat) (q : QItem) : State × QItem × Bool :=
  let (s1, d, p) := s.fetchDesc c q.slot
  if q.op = 0xA2 ∧ !p then
    let (s2, pt, p2) := s1.fetchDesc c d.idxSlot
    (s2, { q with desc := d.raw, tdesc := pt.raw }, p2)
  else (s1, { q with desc := d.raw }, p)

/-- The rows of a GPAGE, R123 to R125. The rows before an invalid descriptor may have been written: how many is free
(log entry 12). A data descriptor of Kind 2 ends the task: pages on host windows cannot be gathered (R288). A data descriptor of another
rank than 2 is read by its Dim0 and Dim1 alone, and a page table by its Base and entry number alone, whatever its sizes
(DESIGN CHOICE, log entry 167). -/
def State.planGPage (s : State) (c : Nat) (q : QItem) : Plan :=
  let d : Desc := ⟨q.desc⟩
  let pt : Desc := ⟨q.tdesc⟩
  let o := opnd q.w.dest
  let t0 := bits q.w.aux.toNat 39 12 + q.tok
  let cur := bits q.w.mods.toNat 1 0
  if d.kind = 2 ∨ pt.kind = 3 then .err s .taskBadArg stBadArg 0
  else
    let start : List PageEnt := match look (s.core c).cursors cur with
      | some x => if x.slot = q.slot ∧ x.p ≤ t0 then [{ num := x.entry, p := x.p, desc := ⟨x.desc⟩ }] else []
      | none => []
    let (e0, p0) := match start with
      | x :: _ => (x.num + 1, x.p + x.desc.tokens)
      | [] => (0, 0)
    let (s0, more, res) := s.walk (.core c .gather) q (t0 + o.rows - 1) (d.idxBound + 1) e0 p0
    let ents := start ++ more
    let s1 := s0.modCore c fun k => { k with cursors :=
      match ents.getLast? with
      | some x => put k.cursors cur { slot := q.slot, entry := x.num, p := x.p, desc := x.desc.raw }
      | none => del k.cursors cur }
    match res with
    | .need e => .ask s0 e
    | .poisoned => .err s0 .poisonControl stBadArg 0
    | .ans x a => s1.refusedAs x a
    | _ =>
      let covered := match ents.getLast? with | some x => x.p + x.desc.tokens | none => 0
      let rows := (List.range o.rows).map fun r =>
        (ents.find? fun x => decide (x.p ≤ t0 + r) && decide (t0 + r < x.p + x.desc.tokens)).map fun x =>
          ((x.desc.base : Int) + ((t0 + r - x.p : Nat) : Int) * d.stride 1, x.desc.scale)
      let good := if res = .invalid then covered - t0 else o.rows
      let n := if res = .invalid then Config.freeNat s1.free % (min good o.rows + 1) else o.rows
      let s2 := if res = .invalid then s1.draw else s1
      let rows1 := rows.take n
      let s3 := if q.w.srcB = 0 then s2 else
        s2.storeElems c (opnd q.w.srcB) 0 (rows1.map fun x =>
          match x with
          | some (_, sc) => ((toF32 (decodeE8M0 sc)).toNat, false)
          | none => (0, false))
      let tables : Tab Word := if pt.kind = 0 then
          (more.flatMap fun x => pageKeys none (pt.base + 16 * x.num) 16).foldl
            (fun t k => put t k (s0.mem.instar (k - 2 ^ 63))) []
        else q.tpages
      .ok s3 (rows1.map fun x => x.map (·.1)) (res == .invalid) tables

/-- The rows of a long-running instruction: the address of each, none for a row that is written zero or skipped (R120,
R122, R123), with the checks made before any row moves. -/
def State.planRows (s : State) (c : Nat) (q : QItem) : Plan :=
  let d : Desc := ⟨q.desc⟩
  let o := q.scratch
  let n := d.flatRows
  if d.kind = 3 then .err s .taskBadArg stBadArg 0
  else match q.op with
  | 0xA0 | 0xA1 =>
    let idx := s.indices c q.w o.rows
    let col := bits q.w.aux.toNat 39 12
    if idx.any (·.2) then .err s .poisonControl stBadArg 0
    else match idx.findIdx? fun x => !(x.1 == -1 || (decide (0 ≤ x.1) && decide (x.1 < (n : Int)))) with
    | some r => .err s .indexRange stIndexRange r
    | none => .ok s (idx.map fun x => if x.1 = -1 then none else some (d.elemAddr x.1.toNat col)) false []
  | 0xA2 => s.planGPage c q
  | _ =>
    let row := bits q.w.srcB.toNat 39 0
    let col := bits q.w.srcB.toNat 63 40
    .ok s ((List.range o.rows).map fun r => some (d.elemAddr (row + r) col)) false []

/-! ### Watches, R217 to R220, R254 -/

/-- The distinct source pages of a load. -/
def sourcePages (dev : Option Nat) (len : Nat) (rows : List (Option Int)) : List Nat :=
  (rows.flatMap fun x => match x with | some a => pageKeys dev a.toNat len | none => []).foldl insertSet []

/-- Record the instar that came with the first burst read from a page by an instruction. -/
def State.noteInstar (s : State) (c : Nat) (e : Engine) (seq page : Nat) (i : Word) : State :=
  s.modCore c fun k =>
    { k.modItem e seq fun q => { q with
        pages := q.pages.map fun p => if p.1 = page ∧ p.2.isNone then (page, some i) else p
        lasts := if q.pages.any (·.1 == page) then put q.lasts page i else q.lasts } with
      watch := k.watch.map fun w =>
        if w.load.seq = seq ∧ w.page = page ∧ w.instar.isNone then { w with instar := some i, time := s.now } else w }

/-- The granules of a footprint have been overwritten: a load all of whose granules are, frees its entries (R218). -/
def Core.overwrite (k : Core) (seq : Nat) (units : List Nat) : Core :=
  { k with watch := (k.watch.map fun w =>
      if w.load.seq = seq then w else { w with left := w.left.filter (fun g => !units.contains g) }).filter (!·.left.isEmpty) }

/-- A store carries the entries of its page forward when nobody else wrote it meanwhile (R219). -/
def Core.carry (k : Core) (page : Nat) (before after : Word) : Core :=
  { k with watch := k.watch.map fun w => if w.page = page ∧ w.instar = some before then { w with instar := some after } else w }

/-- An entry is fresh: its instar is unchanged and it is no older than 1,024 ms. A remote page is judged by the answer to
its query. -/
def State.entryFresh (s : State) (w : WatchEntry) : Bool :=
  decide (s.now - w.time ≤ 1024000000) &&
    (if w.page < 2 ^ 63 then w.instar == w.answer else w.instar == some (s.mem.instar (w.page - 2 ^ 63)))

/-- The place in program order at which an instruction is put back in its queue. -/
def insertItem (q : QItem) : List QItem → List QItem
  | [] => [q]
  | x :: t => if q.seq < x.seq then q :: x :: t else x :: insertItem q t

/-- The instar query of a remote page, R385. -/
def instarQuery (src page : Nat) : LPacket :=
  { src := src, dest := page / 2 ^ 48, vl := 0, cls := 0, poison := [], op := 0x03, status := 0, tag := 0, age := 0,
    alt := false, turned := false, address := page % 2 ^ 48, length := 0, instar := 0, rank := 0, step := 0, group := 0,
    data := [] }

/-- A tag of a die that no request of it holds or held within the last 2 ms (R381); `fuel` tags are tried. -/
def Lysdel.freeTag (y : Lysdel) (die now : Nat) : Nat → Nat → Nat
  | 0, t => t
  | n + 1, t =>
    if y.remotes.any (fun r => r.die == die && r.tag == t && r.held.isNone) ||
        y.restTags.any (fun r => r.1 == die && r.2.1 == t && decide (now - r.2.2 < 2000000)) then
      y.freeTag die now n ((t + 1) % 65536)
    else t

/-- Send a remote request for an instruction: tracked by its die, which holds at most 8,192 (R381); one more waits to be
reissued. -/
def State.sendRemote (s : State) (c : Nat) (e : Engine) (seq dest : Nat) (p : LPacket) (entry : Option Nat := none) : State :=
  let die := dieOf (cdOf c)
  let r : Remote := { die := die, tag := 0, core := c, engine := e, pkt := p, dest := dest, seq := seq, entry := entry }
  if 8192 ≤ (s.lys.remotes.filter fun x => x.die == die && x.held.isNone).length then
    s.onLys fun y => { y with remotes := y.remotes ++ [{ r with held := some stRetry }] }
  else
    let t := s.lys.freeTag die s.now 65536 s.lys.nextTag
    (s.onLys fun y => { y with
      nextTag := (t + 1) % 65536, remotes := y.remotes ++ [{ r with tag := t, pkt := { p with tag := t } }] }).emit
        (.packet none { p with tag := t })

/-- Put a load back for a reissue in full (R218, R220). -/
def State.reissue (s : State) (c : Nat) (q : QItem) : State :=
  match engineOf q.op with
  | none => s
  | some e =>
    let q1 := { q with status := .scoreboard, row := 0, plan := [], fails := false, pages := [], lasts := [], tab := [], tpages := [] }
    (s.modCore c fun k =>
      { k.setQueue e (insertItem q1 ((k.queue e).filter (·.seq != q.seq))) with
        watch := k.watch.filter (·.load.seq != q.seq) }).modSlice c fun sl => { sl with refetches := satAdd 32 sl.refetches 1 }

/-- Judge the loads linked to the granules that an instruction is about to read (R218): the state after, and whether the
reader may go on. A load that passes frees its entries; one that fails is put back; queries of remote pages are sent and
waited for. -/
def State.judge (s : State) (c : Nat) (seq : Nat) (reads : List Nat) : State × Bool :=
  let linked := (s.core c).watch.filter fun w => w.load.seq != seq && w.granules.any reads.contains
  let loads := (linked.map (·.load.seq)).foldl insertSet []
  loads.foldl (fun (sb : State × Bool) l =>
    let es := (sb.1.core c).watch.filter (·.load.seq == l)
    let remote := es.filter fun w => decide (w.page < 2 ^ 63)
    if remote.any (·.answer.isNone) then
      let s1 := (remote.filter (!·.asked)).foldl (fun s w =>
        s.sendRemote c .move w.load.seq 0 (instarQuery s.lys.deviceId w.page)) sb.1
      (s1.modCore c fun k => { k with watch := k.watch.map fun w =>
        if w.load.seq = l ∧ w.page < 2 ^ 63 then { w with asked := true } else w }, false)
    else if es.all sb.1.entryFresh then
      (sb.1.modCore c fun k => { k with watch := k.watch.filter (·.load.seq != l) }, sb.2)
    else match es.head? with
      | some w => (sb.1.reissue c w.load, false)
      | none => sb) (s, true)

/-! ### Chains under an external write, R131 -/

/-- Run a CUBE or VEC instruction: the next state, in which an error has ended the task. -/
def State.runXV (s : State) (c op : Nat) (w : IFields) (off seq : Nat) : State :=
  let after (s : State) : State := s.modCore c fun k => k.overwrite seq (unitsRW op w).2
  match engineOf op with
  | some .cube =>
    match s.cubeOp c op w with
    | .ok s1 => after s1
    | .err s1 ev st a => s1.taskError c ev st off a
  | _ => after (s.vecOp c op w)

/-- Run the first `n` members of a chain, in program order, and take them from the queues. -/
def State.runMembers (s : State) (c : Nat) : List (Nat × Nat × IFields × Nat) → State
  | [] => s
  | (off, op, w, _) :: t =>
    if (s.core c).ended then s
    else
      let s1 := s.modCore c fun k => match engineOf op with
        | some e => k.setQueue e ((k.queue e).eraseP fun q => q.status == .chain && q.off == off)
        | none => k
      (s1.runXV c op w off (s1.core c).seqNo).runMembers c t

/-- The first member of a running chain that reads or writes one of these units, an external write having landed on them:
the members before it run, and the task ends with CHAIN_HAZARD at it. -/
def State.hitChain (s : State) (c : Nat) (units : List Nat) : State :=
  match (s.core c).chains with
  | [] => s
  | ch :: _ =>
    if !ch.started then s
    else match ch.members.findIdx? fun m => let rw := unitsRW m.2.1 m.2.2.1; (rw.1 ++ rw.2).any units.contains with
      | none => s
      | some i =>
        let s1 := s.runMembers c (ch.members.take i)
        if (s1.core c).ended then s1
        else match ch.members[i]? with
          | some m => s1.taskError c .chainHazard stChainHazard m.1 0
          | none => s1

/-- Scoreboard units of a range of a scratchpad. -/
def granulesOf (off len : Nat) : List Nat :=
  if len = 0 then [] else (List.range ((off + len - 1) / 256 + 1 - off / 256)).map (· + off / 256)

/-- A write through a scratchpad window has landed: the granules it overwrites leave the watched loads (R218), and a running chain
that meets them ends (R66, R131). -/
def State.landed (s : State) (a len : Nat) : State :=
  match place a with
  | .scratch c off => (s.modCore c fun k => k.overwrite k.seqNo (granulesOf off len)).hitChain c (granulesOf off len)
  | _ => s

/-! ### Transfers -/

/-- What a transfer comes to: all rows moved, a wait at a row, or the end of the task. -/
inductive Xfer where
  | done (s : State)
  | hold (s : State) (row : Nat) (st : QStatus)
  | err (s : State) (ev : Ev) (status address : Nat)
  deriving DecidableEq

/-- The scratchpad bytes of row r of an operand with the mark of each. -/
def State.rowBytes (s : State) (c : Nat) (o : Opnd) (r : Nat) : List Byte × List Bool :=
  (s.spRead c (o.rowAddr r) o.rowLen, (List.range o.rowLen).map fun i => s.spMarked c (o.rowAddr r + i))

/-- One row of a Kind 0 load. -/
def State.loadRow (s : State) (c : Nat) (e : Engine) (q : QItem) (r a : Nat) : State :=
  let o := q.scratch
  let (s1, bs, ps) := s.readRange a o.rowLen
  ((pageKeys none a o.rowLen).foldl (fun s p => s.noteInstar c e q.seq p (s.mem.instar (p - 2 ^ 63))) s1).spStore c (o.rowAddr r) bs ps

/-- One row of a Kind 0 store: the bytes, the carry of watch entries (R219), the mark of the partition (R165), and a
chain that the write lands on. -/
def State.storeRow (s : State) (c : Nat) (q : QItem) (r a : Nat) : State :=
  let o := q.scratch
  let (bs, ps) := s.rowBytes c o r
  let before := s.mem
  let s1 := s.writeRange a bs ps
  let s2 := s1.modCore c fun k =>
    { (pageKeys none a o.rowLen).foldl (fun k p => k.carry p (before.instar (p - 2 ^ 63)) (s1.mem.instar (p - 2 ^ 63))) k with
      wrotePoison := k.wrotePoison || ps.any id }
  s2.landed a o.rowLen

/-- The port that an MSTORE of one record addresses, R229, R255: Format INT8 and a box of 1 × 64. -/
def portOf (q : QItem) (a : Nat) : Option (Nat × Nat) :=
  match place a with
  | .outer m off =>
    if q.op = 0x81 ∧ q.scratch.fmt = fmtInt8 ∧ q.scratch.rows = 1 ∧ q.scratch.cols = 64 ∧ portBase ≤ off ∧ off % 64 = 0 then
      some (m, (off - portBase) / 64) else none
  | _ => none

/-- Insert a row by a key, after those whose key is not larger. -/
def insertRow (key : Nat) (x : Nat × Option Int) : List (Nat × Nat × Option Int) → List (Nat × Nat × Option Int)
  | [] => [(key, x)]
  | y :: t => if key < y.1 then (key, x) :: y :: t else y :: insertRow key x t

/-- The key of a row of a GATHER instruction in outer memory: its package and page, then its bank (R236). -/
def rowKey (x : Option Int) : Nat :=
  match x with
  | some a => (match place a.toNat with
    | .outer m _ => (m * 65536 + pageOf a.toNat + 1) * 512 + bankOf a.toNat
    | _ => 0)
  | none => 0

/-- The rows of an instruction in the order of their requests: GLOAD, GSCAT and GPAGE sort those in outer memory by page and then by bank,
and rows of the same page and bank keep the order of rising r (R236; the key is that of a row's first block, DESIGN CHOICE, log
entry 168). MOVE takes them in order. -/
def QItem.order (q : QItem) : List (Nat × Option Int) :=
  let rows := q.plan.zipIdx.map fun x => (x.2, x.1)
  if 0xA0 ≤ q.op then ((rows.foldl (fun l x => insertRow (rowKey x.2) x l) []).map (·.2)) else rows

/-- The rows of a Kind 0 transfer that are left, `n` being done. A row needs a free slot of its core (R194, R593). -/
def State.moveRows (s : State) (c : Nat) (e : Engine) (q : QItem) : Nat → List (Nat × Option Int) → Xfer
  | _, [] => .done s
  | n, (r, none) :: t =>
    (if isLoad q.op then s.spStore c (q.scratch.rowAddr r) (List.replicate q.scratch.rowLen 0)
        (List.replicate q.scratch.rowLen false) else s).moveRows c e q (n + 1) t
  | n, (r, some a) :: t =>
    if a < 0 then .err s .addrFault stBadArg 0
    else if !(s.core c).slotFree a.toNat then .hold s n .slots
    else match portOf q a.toNat with
    | some (m, prt) =>
      let (bs, ps) := s.rowBytes c q.scratch r
      let epoch := match s.task? (s.core c).task with | some x => x.desc.epoch | none => 0
      (match s.probSubmit m prt (some c) epoch bs (ps.any id) with
      | (s1, .taken) => .hold s1 (1024 * m + prt) .store
      | (s1, .status st) => match waitOf st with
        | some w => .hold s1 n w
        | none => .err s1 .taskBadArg stBadArg a.toNat
      | (s1, .poison) => .err s1 .poisonControl stBadArg a.toNat)
    | none =>
      match s.answer (.core c e) a.toNat q.scratch.rowLen (!isLoad q.op) with
      | .go =>
        -- no task writes a page whose count exceeds 1 (R290): such a store is refused (DESIGN CHOICE, log entry 178)
        if !isLoad q.op ∧ s.sharedPage a.toNat q.scratch.rowLen then .err s .taskBadArg stBadArg a.toNat
        else (if isLoad q.op then s.loadRow c e q r a.toNat else s.storeRow c q r a.toNat).moveRows c e q (n + 1) t
      | .fault => .err (s.countBusy a.toNat .fault) .addrFault stBadArg a.toNat
      | .status st => match waitOf st with
        | some w => .hold (s.countBusy a.toNat (.status st)) n w
        | none => .err s .taskBadArg stBadArg a.toNat

/-- The packets of a range: at most 2,048 bytes each, within one page (R381); `fuel` bounds them. -/
def chunks : Nat → Nat → Nat → List (Nat × Nat)
  | 0, _, _ => []
  | f + 1, a, n =>
    if n = 0 then [] else
      let m := min (min 2048 n) (pageBase a + pageSize a - a)
      (a, m) :: chunks f (a + m) (n - m)

/-- A READ or WRITE packet for a remote module. -/
def reqPacket (src dest op a len : Nat) (ms : List Bool) (data : List Byte) : LPacket :=
  { src := src, dest := dest, vl := 0, cls := 0, poison := if ms.any id then ms else [], op := op, status := 0, tag := 0, age := 0, alt := false,
    turned := false, address := a, length := len, instar := 0, rank := 0, step := 0, group := 0, data := data }

/-- A row lies wholly in one slice, one scratchpad window or one package of the address map, at places that exist in every module; the DCS
and the mailbox region fault (R13). -/
def wholeRow (a len : Nat) : Bool :=
  match place a with
  | .slice _ off => decide (off + len ≤ slicePopulated)
  | .scratch _ off => decide (off + len ≤ scratchSize)
  | .outer _ off => decide (off + len ≤ outerSize)
  | _ => false

/-- Send the requests of a Kind 1 transfer; zero rows of a load are written at once. A row that is not whole faults as a whole (R13). -/
def State.sendRows (s : State) (c : Nat) (e : Engine) (q : QItem) (dev : Nat) : Nat → List (Option Int) → Xfer
  | r, [] => .hold s r .remote
  | r, none :: t =>
    (if isLoad q.op then s.spStore c (q.scratch.rowAddr r) (List.replicate q.scratch.rowLen 0)
        (List.replicate q.scratch.rowLen false) else s).sendRows c e q dev (r + 1) t
  | r, some a :: t =>
    let o := q.scratch
    let (bs, ps) := s.rowBytes c o r
    if a < 0 ∨ !wholeRow a.toNat o.rowLen then .err s .addrFault stBadArg a.toNat
    else
      let s1 := (chunks (o.rowLen / 32 + 2) a.toNat o.rowLen).foldl (fun s x =>
        let off := x.1 - a.toNat
        if isLoad q.op then
          s.sendRemote c e q.seq (o.rowAddr r + off) (reqPacket s.lys.deviceId dev 0x01 x.1 x.2 [] [])
        else
          s.sendRemote c e q.seq 0 (reqPacket s.lys.deviceId dev 0x02 x.1 x.2 ((ps.drop off).take x.2)
            ((bs.drop off).take x.2))) s
      let s2 := if isLoad q.op then s1 else s1.modCore c fun k => { k with wrotePoison := k.wrotePoison || ps.any id }
      s2.sendRows c e q dev (r + 1) t

/-- A window in state UP. -/
def Ctl.upWindow (k : Ctl) (w : Nat) : Option Win := (look k.windows w).filter (·.state == 2)

/-- Send an RDMA READ, or let it wait for room under R419 and under the 16 reads of a queue pair (R408). -/
def State.issueRead (s : State) (qp : Nat) (r : OutRead) : State :=
  match look s.net.qps qp with
  | none => s
  | some x =>
    let p := s.portSt x.port
    if p.readBytes + r.len ≤ 1048576 ∧ x.reads.length < 16 then
      ((s.modPort x.port fun p => { p with readBytes := p.readBytes + r.len }).modQp qp fun x =>
        { x with reads := x.reads ++ [r] }).emit (.rdmaRead qp r.va r.len)
    else s.modPort x.port fun p => { p with readWait := p.readWait ++ [(qp, r)] }

/-- Send an RDMA WRITE and keep it until it is acknowledged. -/
def State.sendWrite (s : State) (qp : Nat) (w : OutWrite) : State :=
  (s.modQp qp fun x => { x with outstanding := x.outstanding ++ [w] }).emit (.rdmaWrite qp w.va w.imm w.data)

/-- The next READ of a Kind 2 load, from row `r` on: zero rows are written, and past the last row the transfer is done. -/
def State.hostLoad (s : State) (c : Nat) (e : Engine) (q : QItem) (win : Win) : Nat → List (Option Int) → Xfer
  | _, [] => .done s
  | r, none :: t =>
    (s.spStore c (q.scratch.rowAddr r) (List.replicate q.scratch.rowLen 0)
      (List.replicate q.scratch.rowLen false)).hostLoad c e q win (r + 1) t
  | r, some a :: _ =>
    let rd : OutRead :=
      { core := c, engine := e, seq := q.seq, va := win.va.toNat + a.toNat, len := q.scratch.rowLen,
        dest := q.scratch.rowAddr r }
    .hold (s.issueRead win.qp rd) (r + 1) .host

/-- The WRITEs of a Kind 2 store: it stops before its first poisoned row (R549). -/
def State.hostStore (s : State) (c : Nat) (e : Engine) (q : QItem) (win : Win) : Nat → List (Option Int) → Xfer
  | r, [] => .hold s r .host
  | r, none :: t => s.hostStore c e q win (r + 1) t
  | r, some a :: t =>
    let (bs, ps) := s.rowBytes c q.scratch r
    if ps.any id then .err s .poisonExport stBadArg a.toNat
    else (s.sendWrite win.qp { work := .store c e q.seq, va := win.va.toNat + a.toNat, data := bs }).hostStore c e q win (r + 1) t

/-- The transfer of an instruction whose rows are planned, from its row on. -/
def State.transfer (s : State) (c : Nat) (e : Engine) (q : QItem) : Xfer :=
  let d : Desc := ⟨q.desc⟩
  match d.kind with
  | 0 => s.moveRows c e q q.row (q.order.drop q.row)
  | 1 => s.sendRows c e q d.deviceId 0 q.plan
  | _ =>
    match s.ctl.upWindow d.window with
    | none => .hold s q.row .host
    | some win =>
      -- an access past the window's Length ends the task before any part of it reaches the host (R138)
      if q.plan.any fun x => match x with
          | some a => decide (a < 0) || decide ((win.len.toNat : Int) < a + q.scratch.rowLen)
          | none => false then .err s .taskBadArg stBadArg 0
      else if isLoad q.op then s.hostLoad c e q win q.row (q.plan.drop q.row)
      else s.hostStore c e q win q.row (q.plan.drop q.row)

/-- A transfer has moved its last byte: the instruction waits for its release, or, where a GPAGE has met an invalid page descriptor, its
task ends after the rows before it (R125). -/
def State.moved (s : State) (c : Nat) (e : Engine) (seq : Nat) : State :=
  match (s.core c).item? e seq with
  | none => s
  | some q =>
    if q.fails then s.taskError c .indexRange stIndexRange q.off 0
    else s.modItem c e seq fun q => { q with status := .done, row := q.plan.length }

/-- Carry on with the transfer of a queued instruction and note what it comes to. -/
def State.continueItem (s : State) (c : Nat) (e : Engine) (seq : Nat) : State :=
  match (s.core c).item? e seq with
  | none => s
  | some q =>
    match s.transfer c e q with
    | .done s1 => s1.moved c e seq
    | .hold s1 r st =>
      if st = .remote ∧ !(s1.lys.remotes.any fun x => x.core == c && x.engine == e && x.seq == seq) then s1.moved c e seq
      else if st = .host ∧ isLoad q.op = false ∧ r = q.plan.length ∧ q.plan.all (·.isNone) then s1.moved c e seq
      else s1.modItem c e seq fun q => { q with status := st, row := r }
    | .err s1 ev st a => s1.taskError c ev st q.off a

/-- Fetch entry `n` of a page table of Kind 1 or 2: a READ over the link or from the host window; the instruction starts again with its
answer. -/
def State.askEntry (s : State) (c : Nat) (e : Engine) (q : QItem) (n : Nat) : State :=
  let pt : Desc := ⟨q.tdesc⟩
  let a := pt.base + 16 * n
  let wait (st : QStatus) (s : State) : State := s.modItem c e q.seq fun x => { x with status := st, plan := [], row := 0 }
  if pt.kind = 1 then
    if !wholeRow a 16 then s.taskError c .addrFault stBadArg q.off a
    else (wait .remote s).sendRemote c e q.seq 0 (reqPacket s.lys.deviceId pt.deviceId 0x01 a 16 [] []) (some n)
  else match s.ctl.upWindow pt.window with
    | none => wait .host s
    | some win =>
      if win.len.toNat < a + 16 then s.taskError c .taskBadArg stBadArg q.off 0
      else (wait .host s).issueRead win.qp
        { core := c, engine := e, seq := q.seq, va := win.va.toNat + a, len := 16, dest := 0, entry := some n }

/-- Start a long-running instruction: read its descriptors, plan its rows, take its watch entries or wait for them (R217, R220), and
move. -/
def State.startLong (s : State) (c : Nat) (e : Engine) (seq : Nat) : State :=
  match (s.core c).item? e seq with
  | none => s
  | some q0 =>
    match s.readDescs c q0 with
    | (s0, _, true) => s0.taskError c .poisonControl stBadArg q0.off 0
    | (s0, q, false) =>
      match s0.planRows c q with
      | .err s1 ev st a => s1.taskError c ev st q.off a
      | .ask s1 n => s1.askEntry c e q n
      | .hold s1 st => s1.modItem c e seq fun q => { q with status := st, plan := [], row := 0 }
      | .ok s1 rows fails tables =>
        let d : Desc := ⟨q.desc⟩
        let dev := if d.kind = 1 then some d.deviceId else none
        let pages := if isLoad q.op ∧ d.kind ≠ 2 then
            (sourcePages dev q.scratch.rowLen rows ++ keys tables).foldl insertSet [] else []
        let k := s1.core c
        let grans := (unitsRW q.op q.w).2
        if pages.length ≤ 32 ∧ 32 < k.watch.length + pages.length then
          s1.modItem c e seq fun q => { q with status := .watch, plan := [] }
        else
          let closing := decide (32 < pages.length)
          let q1 := { q with
            plan := rows, row := 0, fails := fails
            pages := if closing then pages.map fun p => (p, look tables p) else []
            lasts := if closing then tables else [] }
          let entries : List WatchEntry := if closing then [] else pages.map fun p =>
            { page := p, time := s1.now, granules := grans, left := grans, load := q, instar := look tables p }
          ((s1.modItem c e seq fun _ => q1).modCore c fun k =>
            { k.overwrite seq grans with watch := (k.overwrite seq grans).watch ++ entries }).continueItem c e seq

/-- A slot of a core has become free: the instructions that wait for one carry on (R194, R593), MOVE first. -/
def State.wakeSlots (s : State) (c : Nat) : State :=
  [Engine.move, .gather].foldl (fun s e =>
    match (s.core c).firstWith e .slots with
    | some q => s.continueItem c e q.seq
    | none => s) s

end Sys2Proof.Machine
end

