-- ==== Sys2Proof/Machine/Shake.lean ====
section
/-!
DEFINITION. SHAKE256 with a 512-bit output, the digest of kernels, images, bundles and weights (R132, R134, R136, R569).
The function is the one of FIPS 202 (PRESUMED: the spec names it and does not restate it; log entry 13).
-/

namespace Sys2Proof.Machine

/-- The state of the permutation as five planes of equal y, each with its five lanes in the order of x. -/
abbrev Planes := List (List Dword)

/-- Planes added lane by lane. -/
def addPlane (a b : List Dword) : List Dword := List.zipWith (· ^^^ ·) a b

/-- Step θ: each lane takes the parity of the column before it and of the one after it, the latter rotated by one. -/
def stepTheta (s : Planes) : Planes :=
  let parity := s.foldl addPlane (List.replicate 5 0)
  let effect := addPlane (parity.rotateLeft 4) ((parity.rotateLeft 1).map fun v => v.rotateLeft 1)
  s.map (addPlane effect)

/-- The walk of step ρ from lane (1, 0): the places visited, each with its rotation, the triangular numbers mod 64. -/
def rhoWalk : Nat → Nat → Nat → Nat → List ((Nat × Nat) × Nat)
  | 0, _, _, _ => []
  | n + 1, t, x, y => ((x, y), (t + 1) * (t + 2) / 2 % 64) :: rhoWalk n (t + 1) y ((2 * x + 3 * y) % 5)

/-- The rotation of lane (x, y); lane (0, 0) is not on the walk and stays. -/
def rhoOf (x y : Nat) : Nat := ((rhoWalk 24 0 1 0).lookup (x, y)).getD 0

/-- Steps ρ and π: the lane that comes to (x, y) stood at (x + 3y, x). -/
def stepRhoPi (s : Planes) : Planes :=
  (List.range 5).map fun y => (List.range 5).map fun x =>
    let x0 := (x + 3 * y) % 5
    ((s.getD x []).getD x0 0).rotateLeft (rhoOf x0 x)

/-- Step χ, on one plane. -/
def stepChi (p : List Dword) : List Dword :=
  addPlane p (List.zipWith (fun a b => ~~~a &&& b) (p.rotateLeft 1) (p.rotateLeft 2))

/-- The shift register of step ι, x^8 + x^6 + x^5 + x^4 + 1, after t steps from 1. -/
def iotaReg : Nat → Byte
  | 0 => 1
  | t + 1 => let r := iotaReg t; if r.getLsbD 7 then (r <<< 1) ^^^ 0x71#8 else r <<< 1

/-- The constant of round i: bit 2^j − 1 is the register's lowest bit after 7i + j steps. -/
def iotaConst (i : Nat) : Dword :=
  (List.range 7).foldl (fun v j => if (iotaReg (7 * i + j)).getLsbD 0 then v ||| (1#64 <<< (2 ^ j - 1)) else v) 0

/-- Round i. -/
def keccakRound (s : Planes) (i : Nat) : Planes :=
  match (stepRhoPi (stepTheta s)).map stepChi with
  | (v :: p) :: ps => ((v ^^^ iotaConst i) :: p) :: ps
  | r => r

/-- The permutation of 24 rounds on 1,600 bits. -/
def keccakPerm (s : Planes) : Planes := (List.range 24).foldl keccakRound s

/-- Rows of five lanes, of which the last may be short. -/
def planesOf : Nat → List Dword → Planes
  | 0, _ => []
  | n + 1, l => (l.take 5 ++ List.replicate (5 - l.length) 0) :: planesOf n (l.drop 5)

/-- Take in one block of 136 bytes, 17 lanes. -/
def takeBlock (s : Planes) (block : List Byte) : Planes :=
  let l := (List.range 17).map fun i => BitVec.ofNat 64 (leNat ((block.drop (8 * i)).take 8))
  keccakPerm (List.zipWith addPlane s (planesOf 5 l))

/-- Take in the blocks of a padded message; `fuel` bounds them. -/
def takeBlocks : Nat → Planes → List Byte → Planes
  | 0, s, _ => s
  | n + 1, s, bs => if bs.isEmpty then s else takeBlocks n (takeBlock s (bs.take 136)) (bs.drop 136)

/-- The padding of SHAKE: 1F, zeros, 80 in the block's last byte. -/
def shakePad (bs : List Byte) : List Byte :=
  let n := 136 - bs.length % 136
  bs ++ (if n = 1 then [0x9F] else [0x1F] ++ List.replicate (n - 2) (0 : Byte) ++ [0x80])

/-- The 512-bit SHAKE256 of a byte string, byte i of the output at bits [8i + 7 : 8i]. -/
def shake256 (bs : List Byte) : BitVec 512 :=
  let p := shakePad bs
  let out := (takeBlocks (p.length / 136 + 1) (List.replicate 5 (List.replicate 5 0)) p).flatten.take 8
  out.foldr (fun v acc => (acc <<< 64) ||| v.setWidth 512) 0

/-- The bytes of a kernel's instructions, R101. -/
def instrBytes (code : List (BitVec 256)) : List Byte := code.flatMap fun w => leBytes 32 w.toNat

end Sys2Proof.Machine
end

