-- ==== Sys2Proof/Machine/Sequencer.lean ====
section
/-!
DEFINITION. The sequencer of a core: dispatch in program order into the engine queues (R57, R58), the scoreboard (R65),
loops, waits and barriers (R107 to R112), static chains (R127, R128, R131), and the meanings of every core instruction and
core event. An instruction command is the fetch of that instruction by its core (log entry 14).
-/

namespace Sys2Proof.Machine

/-! ### The scoreboard and the engines -/

/-- An instruction must wait for an earlier one still queued (R65). Members of a chain never wait (R128). -/
def Core.blocked (k : Core) (q : QItem) : Bool :=
  k.items.any fun x => decide (x.seq < q.seq) && conflicts (unitsRW x.op x.w) (unitsRW q.op q.w)

/-- Start what can start in an engine's queue, in order: CUBE and VEC run one at a time, MOVE and GATHER up to four
(R121). `fuel` bounds the instructions. -/
def State.startQueue (s : State) (c : Nat) (e : Engine) : Nat → State
  | 0 => s
  | n + 1 =>
    let k := s.core c
    if k.ended then s
    else match (k.queue e).findIdx? (·.status == .scoreboard) with
    | none => s
    | some i =>
      match (k.queue e)[i]? with
      | none => s
      | some q =>
        let room := match e with | .cube | .vec => decide (i = 0) | _ => decide (i < 4)
        if !room || k.blocked q || ((k.queue e).take i).any (·.status == .watch) then s
        else
          let (s1, go) := s.judge c q.seq (unitsRW q.op q.w).1
          if !go then s1
          else match e with
            | .cube | .vec =>
              let s2 := s1.modCore c fun k => k.setQueue e ((k.queue e).filter (·.seq != q.seq))
              (s2.runXV c q.op q.w q.off q.seq).startQueue c e n
            | _ =>
              -- an instruction that waits for watch entries keeps later ones of its engine back
              (s1.startLong c e q.seq).startQueue c e n

/-- Put an engine instruction at the tail of its queue and start what can start. -/
def State.enqueue (s : State) (c : Nat) (e : Engine) (it : SItem) : State :=
  let k := s.core c
  let w := addTerms it.op it.w it.iters
  let tok := if it.op = 0xA2 ∧ it.w.mods.getLsbD 2 then
      (match it.iters.head? with | some x => x.1 | none => 0) * (opnd it.w.dest).rows else 0
  let q : QItem := { op := it.op, w := w, off := it.off, status := .scoreboard, seq := k.seqNo, tok := tok }
  (s.modCore c fun k => { k.setQueue e (k.queue e ++ [q]) with
    seqNo := k.seqNo + 1, gatesClosed := k.gatesClosed.filter (· != e) }).startQueue c e 1

/-! ### Barriers, ends -/

/-- Record the arrivals of BARA whose earlier instructions have all completed (R110). -/
def Core.arrive (k : Core) : Core :=
  let ok (b : Nat × Bool × Nat) : Bool := k.items.all fun q => decide (b.2.2 ≤ q.seq)
  { k with
    arrived := k.arrived ++ (k.baraWait.filter ok).map (fun b => (b.1, b.2.1))
    baraWait := k.baraWait.filter (fun b => !ok b) }

/-- END completes: a kernel boundary (R133), and the report to the cluster dispatcher (R109). -/
def State.endKernel (s : State) (c : Nat) : State :=
  (s.modCore c fun k => k.halt.boundary).clusterDone (cdOf c)

/-- Cycles pass up to the read of CYCLE_CNT: how many is free (R59, R112; log entry 4). -/
def State.tickCore (s : State) (c : Nat) : State :=
  (s.modCore c fun k => { k with cycles := (k.cycles + (Config.freeCycles s.free).toNat) % 2 ^ 64 }).draw

/-- The value of a core register, R111. -/
def State.coreReg (s : State) (c off : Nat) : Nat :=
  let k := s.core c
  match off with
  | 0x000 => c
  | 0x008 => k.tileCol.toNat + k.tileRow.toNat * 2 ^ 32
  | 0x010 => k.seed.toNat
  | 0x018 => k.cubeFlags.toNat
  | 0x020 => k.cycles
  | 0x028 => k.qCube.length + k.qVec.length * 2 ^ 8 + k.qMove.length * 2 ^ 16 + k.qGather.length * 2 ^ 24
  | 0x030 =>
    (if k.activeBank then 1 else 0) + (if k.fetching then 2 else 0) + (if k.valid0 then 4 else 0) +
      (if k.valid1 then 8 else 0) + (if k.loading.isSome then 16 else 0) + (if k.armed then 32 else 0) +
      k.kernActive * 2 ^ 6 + k.kernInactive * 2 ^ 22
  | _ => 0

/-- The cores of a task that take part in a barrier: those of the waves in flight that have not ended, of one cluster or
of all (R110). -/
def State.participants (s : State) (id cd : Nat) (all : Bool) : List Nat :=
  match s.task? id with
  | none => []
  | some t =>
    t.waves.flatMap fun w => (w.cds.filter fun x => all || x == cd).flatMap fun x =>
      ((waveCores w x).filter fun p => !(w.started.contains x && (s.core p.1).ended)).map (·.1)

/-! ### Loops -/

/-- An upper bound of the dispatches that a stream leads to: the fuel of the pump. -/
def streamCost : Nat → List SItem → Nat
  | 0, _ => 1
  | _ + 1, [] => 1
  | n + 1, it :: rest =>
    if it.op = 0x02 then
      let body := bits it.w.aux.toNat 24 16
      let count := bits it.w.aux.toNat 15 0
      (count + 1) * (streamCost n (rest.take body) + 1) + streamCost n (rest.drop body)
    else 1 + streamCost n rest

/-- The count of a LOOP: its Count, or with Dyn the INT32 clamped to 0 to Count (R107). -/
def State.loopCount (s : State) (c : Nat) (w : IFields) : Nat :=
  let v := w.aux.toNat
  let n := bits v 15 0
  if bits v 25 25 = 0 then n
  else
    let i := asInt 32 (leNat (s.spRead c (4 * bits v 39 26) 4))
    if i < 0 then 0 else min n i.toNat

/-! ### Dispatch -/

/-- The schedule of a CHAIN: member m issues in cycle bits [12m + 11 : 12m] of Src_B, Src_A, Dest (R127). -/
def issueCycle (w : IFields) (m : Nat) : Nat :=
  bits (w.dest.toNat + w.srcA.toNat * 2 ^ 64 + w.srcB.toNat * 2 ^ 128) (12 * m + 11) (12 * m)

/-- What the sequencer does with the instruction at the head of its stream: the state after, and whether it goes on. -/
def State.dispatchHead (s : State) (c : Nat) (it : SItem) (rest : List SItem) : State × Bool :=
  let k := s.core c
  let v := it.w.aux.toNat
  let pop (s : State) : State := s.modCore c fun k => { k with stream := rest, hold := .none }
  let stay (h : Hold) : State × Bool := (s.modCore c fun k => { k with hold := h }, false)
  match it.op with
  | 0x00 => (pop s, true)
  | 0x01 => if k.idle then ((pop s).endKernel c, false) else stay .endDrain
  | 0x02 =>
    let body := bits v 24 16
    let dyn := bits v 25 25 = 1
    let a := 4 * bits v 39 26
    if rest.length < body then (s, false)
    else if it.count.isNone ∧ dyn ∧ k.items.any (fun q => (unitsRW q.op q.w).2.contains (a / 256)) then stay .units
    else if it.count.isNone ∧ dyn ∧ s.spPoisoned c a 4 then (s.taskError c .poisonControl stBadArg it.off 0, false)
    else
      let n := match it.count with | some n => n | none => s.loopCount c it.w
      let stream := if it.k < n then
          (rest.take body).map (fun x => { x with iters := (it.k, it.w) :: x.iters }) ++
            { it with k := it.k + 1, count := some n } :: rest
        else rest.drop body
      (s.modCore c fun k => { k with stream := stream, hold := .none }, true)
  | 0x03 =>
    let e := engineNum (bits v 1 0)
    let depth := bits v 7 2
    if (k.queue e).length ≤ depth then (pop s, true)
    else ((pop s).modCore c fun k => { k with hold := .waitq e depth }, false)
  | 0x04 =>
    let mask := bits v 3 0
    if [Engine.cube, .vec, .move, .gather].all fun e => !mask.testBit (Engine.num e) || (k.queue e).isEmpty then (pop s, true)
    else ((pop s).modCore c fun k => { k with hold := .drain mask }, false)
  | 0x05 =>
    ((pop s).modCore c fun k =>
      { k with baraWait := k.baraWait ++ [(bits v 3 0, bits v 4 4 == 1, k.seqNo)] }.arrive, true)
  | 0x06 =>
    let id := bits v 3 0
    let scope := bits v 4 4 == 1
    if k.released.contains (id, scope) then
      ((pop s).modCore c fun k => { k with released := k.released.erase (id, scope) }, true)
    else ((pop s).modCore c fun k => { k with hold := .barw id scope }, false)
  | 0x07 =>
    let o := opnd (addTerms it.op it.w it.iters).dest
    if k.items.any (fun q => conflicts (unitsRW q.op q.w) ([], o.granules)) then stay .units
    else
      let off := bits v 11 0
      let s1 := if off = 0x020 then s.tickCore c else s
      let x := s1.coreReg c off
      let s2 := (pop s1).storeElems c o 0 [(x % 2 ^ 32, false), (x / 2 ^ 32, false)]
      (s2.modCore c fun k => k.overwrite k.seqNo o.granules, true)
  | 0x08 =>
    if k.qMove.isEmpty ∧ k.qGather.isEmpty then
      ((pop s).modCore c fun k => { k with mark := some (BitVec.ofNat 32 (bits v 31 0)) }, true)
    else stay .pmark
  | 0x09 =>
    let n := bits v 12 8 + 1
    if rest.length < n then (s, false)
    else
      let ms := rest.take n
      let room (e : Engine) : Bool :=
        decide ((k.queue e).length + (ms.filter fun m => engineOf m.op == some e).length ≤ 32)
      if !room .cube then stay (.stall .cube)
      else if !room .vec then stay (.stall .vec)
      else
        let s1 := s.modCore c fun k => { k with stream := rest.drop n, hold := .none }
        let s2 := ms.foldl (fun s m =>
          match engineOf m.op with
          | some e => s.modCore c fun k =>
              { k.setQueue e (k.queue e ++ [{ op := m.op, w := addTerms m.op m.w m.iters, off := m.off, status := .chain,
                                               seq := k.seqNo }]) with seqNo := k.seqNo + 1 }
          | none => s) s1
        (s2.modCore c fun k => { k with chains := k.chains ++ [{
          tag := bits v 7 0, off := it.off
          members := ms.mapIdx fun i m => (m.off, m.op, addTerms m.op m.w m.iters, issueCycle it.w i) }] }, true)
  | op =>
    match engineOf op with
    | none => (pop s, true)
    | some e =>
      if 32 ≤ (k.queue e).length then stay (.stall e)
      else ((pop s).enqueue c e it, true)

/-- Dispatch until something holds; `fuel` bounds the dispatches. Waits on a queue, a drain, a full queue and a barrier
end by their own events. -/
def State.pumpN : Nat → State → Nat → State
  | 0, s, _ => s
  | n + 1, s, c =>
    let k := s.core c
    if k.ended || !k.fetching then s
    else match k.hold with
    | .stall _ | .waitq _ _ | .drain _ | .barw _ _ => s
    | _ =>
      match k.stream with
      | [] => s
      | it :: rest =>
        match s.dispatchHead c it rest with
        | (s1, true) => State.pumpN n s1 c
        | (s1, false) => s1

def State.pump (s : State) (c : Nat) : State :=
  let l := (s.core c).stream
  State.pumpN (streamCost l.length l + 1) s c

/-- After an instruction has completed: arrivals that waited for it, and dispatch that did. -/
def State.completed (s : State) (c : Nat) : State := (s.modCore c Core.arrive).pump c

/-- An instruction is fetched by its core's sequencer: it takes the next offset, and dispatch goes on. A core that runs no
kernel fetches nothing. -/
def State.fetch (s : State) (c op : Nat) (w : IFields) : Host.Outcome State Fault Refusal :=
  let k := s.core c
  if k.ended || !k.fetching then .next s
  else .next ((s.modCore c fun k =>
    { k with stream := k.stream ++ [{ op := op, w := w, off := k.nextOff }], nextOff := k.nextOff + 1 }).pump c |>.completed c)

/-! ### Sequencer instructions -/

/-- NOP, R106. -/
def execNop (c : Nat) (w : IFields) (s : State) : Host.Outcome State Fault Refusal := s.fetch c 0x00 w
/-- END, R109. -/
def execEndKernel (c : Nat) (w : IFields) (s : State) : Host.Outcome State Fault Refusal := s.fetch c 0x01 w
/-- LOOP, R107. -/
def execLoop (c : Nat) (w : IFields) (s : State) : Host.Outcome State Fault Refusal := s.fetch c 0x02 w
/-- WAITQ, R108. -/
def execWaitq (c : Nat) (w : IFields) (s : State) : Host.Outcome State Fault Refusal := s.fetch c 0x03 w
/-- DRAIN, R109. -/
def execDrain (c : Nat) (w : IFields) (s : State) : Host.Outcome State Fault Refusal := s.fetch c 0x04 w
/-- BARA, R110. -/
def execBara (c : Nat) (w : IFields) (s : State) : Host.Outcome State Fault Refusal := s.fetch c 0x05 w
/-- BARW, R110. -/
def execBarw (c : Nat) (w : IFields) (s : State) : Host.Outcome State Fault Refusal := s.fetch c 0x06 w
/-- RDREG, R111. -/
def execRdreg (c : Nat) (w : IFields) (s : State) : Host.Outcome State Fault Refusal := s.fetch c 0x07 w
/-- PMARK, R112. -/
def execPmark (c : Nat) (w : IFields) (s : State) : Host.Outcome State Fault Refusal := s.fetch c 0x08 w
/-- CHAIN, R127. -/
def execChain (c : Nat) (w : IFields) (s : State) : Host.Outcome State Fault Refusal := s.fetch c 0x09 w

/-- End a hold, and dispatch on. -/
def State.resume (s : State) (c : Nat) : State := (s.modCore c fun k => { k with hold := .none }).completed c

/-- WAITQ_RELEASE, R108. -/
def execWaitqRelease (c : Nat) (s : State) : Host.Outcome State Fault Refusal :=
  match (s.core c).hold with
  | .waitq e d => if ((s.core c).queue e).length ≤ d then .next (s.resume c) else .next s
  | _ => .next s

/-- DRAIN_RELEASE, R109. -/
def execDrainRelease (c : Nat) (s : State) : Host.Outcome State Fault Refusal :=
  match (s.core c).hold with
  | .drain m =>
    if [Engine.cube, .vec, .move, .gather].all fun e => !m.testBit (Engine.num e) || ((s.core c).queue e).isEmpty then
      .next (s.resume c)
    else .next s
  | _ => .next s

/-- SEQUENCER_STALL_RELEASE, R57. -/
def execSequencerStallRelease (c : Nat) (s : State) : Host.Outcome State Fault Refusal :=
  match (s.core c).hold with
  | .stall e => if ((s.core c).queue e).length < 32 then .next (s.resume c) else .next s
  | _ => .next s

/-- BARRIER_RELEASE, R110: the last arrival is merged, and every participant's BARW lets dispatch resume. A core that has
ended has passed its barriers. -/
def execBarrierRelease (task cd id : Nat) (scope : Bool) (s : State) : Host.Outcome State Fault Refusal :=
  let ps := s.participants task cd scope
  if ps.isEmpty || !(ps.all fun c => (s.core c).arrived.contains (id, scope)) then .next s
  else .next (ps.foldl (fun s c =>
    let s1 := s.modCore c fun k => { k with arrived := k.arrived.erase (id, scope) }
    if (s1.core c).hold = .barw id scope then s1.resume c
    else s1.modCore c fun k => { k with released := k.released ++ [(id, scope)] }) s)

/-- CHAIN_CYCLE_ZERO, R128, R131: every member of the oldest chain is queued, no older CUBE or VEC instruction remains, and the chain
starts. A member access that would fall in another cycle than its scheduled one is named by its member: the members before it
run, and the task ends with CHAIN_HAZARD. -/
def execChainCycleZero (c : Nat) (offSchedule : Option Nat) (s : State) : Host.Outcome State Fault Refusal :=
  let k := s.core c
  match k.chains with
  | [] => .next s
  | ch :: later =>
    let both := k.qCube ++ k.qVec
    let older := both.any fun q => q.status != .chain && both.all fun m => m.status != .chain || decide (q.seq < m.seq)
    if ch.started ∨ older then .next s
    else
      let reads := ch.members.flatMap fun m => (unitsRW m.2.1 m.2.2.1).1
      let (s1, go) := s.judge c k.seqNo reads
      if !go then .next s1
      else
        let s2 := s1.modCore c fun k => { k with chains := { ch with started := true } :: later }
        match offSchedule.bind fun m => ch.members[m]?.map fun x => (m, x) with
        | none => .next s2
        | some (m, x) =>
          let s3 := s2.runMembers c (ch.members.take m)
          if (s3.core c).ended then .next s3 else .next (s3.taskError c .chainHazard stChainHazard x.1 0)

/-! ### CUBE instructions -/

/-- ACLR, R114. -/
def execAclr (c : Nat) (w : IFields) (s : State) : Host.Outcome State Fault Refusal := s.fetch c 0x20 w
/-- CMMA, R76 to R82, R90, R113. -/
def execCmma (c : Nat) (w : IFields) (s : State) : Host.Outcome State Fault Refusal := s.fetch c 0x21 w
/-- CCVT, R86 to R91, R115. -/
def execCcvt (c : Nat) (w : IFields) (s : State) : Host.Outcome State Fault Refusal := s.fetch c 0x22 w
/-- ACCST, R84, R116. -/
def execAccst (c : Nat) (w : IFields) (s : State) : Host.Outcome State Fault Refusal := s.fetch c 0x23 w
/-- ACCLD, R85, R116. -/
def execAccld (c : Nat) (w : IFields) (s : State) : Host.Outcome State Fault Refusal := s.fetch c 0x24 w

/-! ### VEC instructions -/

/-- VADD, R92, R117, R118. -/
def execVadd (c : Nat) (w : IFields) (s : State) : Host.Outcome State Fault Refusal := s.fetch c 0x40 w
/-- VSUB, R92. -/
def execVsub (c : Nat) (w : IFields) (s : State) : Host.Outcome State Fault Refusal := s.fetch c 0x41 w
/-- VMUL, R92. -/
def execVmul (c : Nat) (w : IFields) (s : State) : Host.Outcome State Fault Refusal := s.fetch c 0x42 w
/-- VFMA, R92. -/
def execVfma (c : Nat) (w : IFields) (s : State) : Host.Outcome State Fault Refusal := s.fetch c 0x43 w
/-- VMAX, R117. -/
def execVmax (c : Nat) (w : IFields) (s : State) : Host.Outcome State Fault Refusal := s.fetch c 0x44 w
/-- VMIN, R117. -/
def execVmin (c : Nat) (w : IFields) (s : State) : Host.Outcome State Fault Refusal := s.fetch c 0x45 w
/-- VCVT, R117. -/
def execVcvt (c : Nat) (w : IFields) (s : State) : Host.Outcome State Fault Refusal := s.fetch c 0x46 w
/-- VCOPY, R117. -/
def execVcopy (c : Nat) (w : IFields) (s : State) : Host.Outcome State Fault Refusal := s.fetch c 0x47 w
/-- VCMPGT, R117. -/
def execVcmpgt (c : Nat) (w : IFields) (s : State) : Host.Outcome State Fault Refusal := s.fetch c 0x48 w
/-- VEXP, R93, R94. -/
def execVexp (c : Nat) (w : IFields) (s : State) : Host.Outcome State Fault Refusal := s.fetch c 0x50 w
/-- VLOG, R93, R94. -/
def execVlog (c : Nat) (w : IFields) (s : State) : Host.Outcome State Fault Refusal := s.fetch c 0x51 w
/-- VRCP, R93, R94. -/
def execVrcp (c : Nat) (w : IFields) (s : State) : Host.Outcome State Fault Refusal := s.fetch c 0x52 w
/-- VRSQRT, R93, R94. -/
def execVrsqrt (c : Nat) (w : IFields) (s : State) : Host.Outcome State Fault Refusal := s.fetch c 0x53 w
/-- VTANH, R93, R94. -/
def execVtanh (c : Nat) (w : IFields) (s : State) : Host.Outcome State Fault Refusal := s.fetch c 0x54 w
/-- VERF, R93, R94. -/
def execVerf (c : Nat) (w : IFields) (s : State) : Host.Outcome State Fault Refusal := s.fetch c 0x55 w
/-- ROWMAX, R95. -/
def execRowmax (c : Nat) (w : IFields) (s : State) : Host.Outcome State Fault Refusal := s.fetch c 0x58 w
/-- ROWSUM, R95. -/
def execRowsum (c : Nat) (w : IFields) (s : State) : Host.Outcome State Fault Refusal := s.fetch c 0x59 w
/-- ROWSUMSQ, R95. -/
def execRowsumsq (c : Nat) (w : IFields) (s : State) : Host.Outcome State Fault Refusal := s.fetch c 0x5A w
/-- VIADD, R106. -/
def execViadd (c : Nat) (w : IFields) (s : State) : Host.Outcome State Fault Refusal := s.fetch c 0x60 w
/-- VIMUL, R106. -/
def execVimul (c : Nat) (w : IFields) (s : State) : Host.Outcome State Fault Refusal := s.fetch c 0x61 w
/-- VISHR, R106. -/
def execVishr (c : Nat) (w : IFields) (s : State) : Host.Outcome State Fault Refusal := s.fetch c 0x62 w
/-- VIAND, R106. -/
def execViand (c : Nat) (w : IFields) (s : State) : Host.Outcome State Fault Refusal := s.fetch c 0x63 w
/-- VIMIN, R106. -/
def execVimin (c : Nat) (w : IFields) (s : State) : Host.Outcome State Fault Refusal := s.fetch c 0x64 w
/-- ACCADD, R85, R96. -/
def execAccadd (c : Nat) (w : IFields) (s : State) : Host.Outcome State Fault Refusal := s.fetch c 0x68 w
/-- VRAND, R96. -/
def execVrand (c : Nat) (w : IFields) (s : State) : Host.Outcome State Fault Refusal := s.fetch c 0x69 w

/-! ### MOVE and GATHER instructions -/

/-- MLOAD, R120. -/
def execMload (c : Nat) (w : IFields) (s : State) : Host.Outcome State Fault Refusal := s.fetch c 0x80 w
/-- MSTORE, R120, R255. -/
def execMstore (c : Nat) (w : IFields) (s : State) : Host.Outcome State Fault Refusal := s.fetch c 0x81 w
/-- GLOAD, R122. -/
def execGload (c : Nat) (w : IFields) (s : State) : Host.Outcome State Fault Refusal := s.fetch c 0xA0 w
/-- GSCAT, R122. -/
def execGscat (c : Nat) (w : IFields) (s : State) : Host.Outcome State Fault Refusal := s.fetch c 0xA1 w
/-- GPAGE, R123 to R125. -/
def execGpage (c : Nat) (w : IFields) (s : State) : Host.Outcome State Fault Refusal := s.fetch c 0xA2 w

/-! ### Events of a core -/

/-- SCOREBOARD_RELEASE, R65, R218: the first instruction that waits in an engine starts if nothing earlier conflicts with
it and the loads it reads pass judgement. -/
def execScoreboardRelease (c : Nat) (e : Engine) (s : State) : Host.Outcome State Fault Refusal :=
  .next ((s.startQueue c e 32).completed c)

/-- WATCH_ENTRY_FREE, R220. -/
def execWatchEntryFree (c : Nat) (e : Engine) (s : State) : Host.Outcome State Fault Refusal :=
  match (s.core c).firstWith e .watch with
  | none => .next s
  | some q => .next ((s.startLong c e q.seq).completed c)

/-- Send the held requests of an instruction again, or carry its transfer on (R196, R264, R342). -/
def State.reissueItem (s : State) (c : Nat) (e : Engine) (q : QItem) : State :=
  let mine (r : Remote) : Bool := r.core == c && r.engine == e && r.seq == q.seq && r.held.isSome
  if s.lys.remotes.any mine then
    let held := s.lys.remotes.filter mine
    let s1 := s.onLys fun y => { y with remotes := y.remotes.filter fun r => !mine r }
    let s2 := held.foldl (fun s r => s.sendRemote c e r.seq r.dest r.pkt r.entry) s1
    s2.modItem c e q.seq fun q => { q with status := .remote }
  else if q.plan.isEmpty then s.startLong c e q.seq
  else s.continueItem c e q.seq

/-- Every instruction of an engine that waits for the same reissue sends again, in program order: none waits behind another's
answer. -/
def State.reissueHeld (s : State) (c : Nat) (e : Engine) (st : QStatus) : State :=
  (((s.core c).queue e).filter (·.status == st)).foldl (fun s q => s.reissueItem c e q) s

/-- RETRY_REISSUE, R196. -/
def execRetryReissue (c : Nat) (e : Engine) (s : State) : Host.Outcome State Fault Refusal :=
  .next ((s.reissueHeld c e .retry).completed c)

/-- BUSY_REISSUE, R264. -/
def execBusyReissue (c : Nat) (e : Engine) (s : State) : Host.Outcome State Fault Refusal :=
  .next ((s.reissueHeld c e .busy).completed c)

/-- RESETTING_REISSUE, R342. -/
def execResettingReissue (c : Nat) (e : Engine) (s : State) : Host.Outcome State Fault Refusal :=
  .next ((s.reissueHeld c e .resetting).completed c)

/-- A load of more than 32 pages is judged at its completion: every page's instar equals the one of the first burst, a page of this
module as it is now, one of another module as it came with the last burst read from it (R220). -/
def State.closingOk (s : State) (q : QItem) : Bool :=
  q.pages.all fun p => p.2 == if p.1 < 2 ^ 63 then look q.lasts p.1 else some (s.mem.instar (p.1 - 2 ^ 63))

/-- ENGINE_INSTR_COMPLETE, R65, R121, R128, R220: the oldest long-running instruction of an engine has moved its last byte
and releases; or the next member of a running chain completes on its engine. -/
def execEngineInstrComplete (c : Nat) (e : Engine) (s : State) : Host.Outcome State Fault Refusal :=
  let k := s.core c
  match e with
  | .cube | .vec =>
    (match k.chains with
    | [] => .next s
    | ch :: later =>
      match ch.members with
      | [] => .next s
      | m :: rest =>
        if !ch.started || engineOf m.2.1 != some e then .next s
        else
          let s1 := s.runMembers c [m]
          .next ((s1.modCore c fun k => if k.ended then k else
            { k with chains := if rest.isEmpty then later else { ch with members := rest } :: later }).completed c))
  | _ =>
    match k.queue e with
    | [] => .next s
    | q :: rest =>
      if q.status != .done then .next s
      else if !s.closingOk q then .next (((s.reissue c q).startQueue c e 1).completed c)
      else
        let s1 := s.modCore c fun k => k.setQueue e rest
        let s2 := if q.pages.isEmpty then s1
          else s1.modSlice c fun sl => { sl with closingJudged := satAdd 16 sl.closingJudged 1 }
        .next ((s2.startQueue c e 1).completed c)

/-- INSTR_TIME_LIMIT, R126: one of the instructions that an engine executes reaches its limit, the one numbered from the oldest. -/
def execInstrTimeLimit (c : Nat) (x : EngineItem) (s : State) : Host.Outcome State Fault Refusal :=
  match (((s.core c).queue x.engine).filter (s.core c).executes)[x.nth]? with
  | none => .next s
  | some q => .next (s.taskError c .taskTimeout stTimeout q.off 0)

/-- EXTERNAL_SCRATCH_ACCESS, R62, R63, R66, R131: an access through the scratchpad window of R12. -/
def execExternalScratchAccess (from_ : Agent) (addr len : Nat) (acc : Access) (s : State) :
    Host.Outcome State Fault Refusal :=
  match place addr with
  | .scratch _ _ =>
    let write := match acc with | .read => false | .write _ _ => true
    match s.answer from_ addr len write with
    | .fault => .next ((s.countBusy addr .fault).accessFault from_ addr)
    | .status st => .next ((s.countBusy addr (.status st)).reply from_ st)
    | .go =>
      match acc with
      | .read =>
        let (s1, bs, ps) := s.readRange addr len
        .next ((s1.emit (.data from_ bs ps)).emit (.answer from_ stOk))
      | .write bs p =>
        .next (((s.writeRange addr (bs.take len) (List.replicate (bs.take len).length p)).landed addr len).emit
          (.answer from_ stOk))
  | _ => .next s

/-! ### Instruction memory, R132, R133 -/

/-- IMEM_LOAD, R132: LOAD_BUSY for the active bank, BUSY while a load or an armed switch stands, else the load begins and
the bank's Valid bit reads 0. -/
def execImemLoad (c bank kernel : Nat) (code : List (BitVec 256)) (digest : BitVec 512) (s : State) :
    Host.Outcome State Fault Refusal :=
  let k := s.core c
  let target := bank % 2 == 1
  if target = k.activeBank then .next (s.emit (.answer (.core c .cube) stLoadBusy))
  else if k.loading.isSome ∨ k.armed then .next (s.emit (.answer (.core c .cube) stBusy))
  else .next (s.modCore c fun k => { k with
    loading := some { kernel := kernel, code := code.take 512, digest := digest }
    valid0 := if target then k.valid0 else false
    valid1 := if target then false else k.valid1
    kernInactive := 0xFFFF })

/-- IMEM_LOAD_DONE, R132: the digest of the content decides whether the bank is valid; a load that fails is reported. R553 names no
event for a failed load: the number of the CORRECTED-class event is free (log entry 15). -/
def execImemLoadDone (c : Nat) (s : State) : Host.Outcome State Fault Refusal :=
  let k := s.core c
  match k.loading with
  | none => .next s
  | some l =>
    let target := !k.activeBank
    let ok := shake256 (instrBytes l.code) == l.digest
    let s1 := s.modCore c fun k => { k with
      loading := none
      bank0 := if target then k.bank0 else l.code
      bank1 := if target then l.code else k.bank1
      valid0 := if target then k.valid0 else ok
      valid1 := if target then ok else k.valid1
      kernInactive := if ok then l.kernel else 0xFFFF }
    if ok then .next s1
    else
      let r : ErrRec := { index := 0, time := s.now, event := Config.freeNat s.free % 65536, cls := 0, unitType := utCore, unitIndex := c }
      .next ((s1.emit (.loadFailed c l.kernel)).logRec r).draw

/-- IMEM_ARM, R133. -/
def execImemArm (c : Nat) (s : State) : Host.Outcome State Fault Refusal :=
  let k := s.core c
  let valid := if k.activeBank then k.valid0 else k.valid1
  if !valid || k.loading.isSome then .next s
  else .next (s.modCore c fun k =>
    let k1 := { k with armed := true }
    if k.fetching then k1 else k1.boundary)

/-- IMEM_DISARM, R133. -/
def execImemDisarm (c : Nat) (s : State) : Host.Outcome State Fault Refusal :=
  .next (s.modCore c fun k => { k with armed := false })

end Sys2Proof.Machine
end

