-- ==== Sys2Proof/Machine/Admission.lean ====
section
/-!
DEFINITION. Admission and placement of tasks (R148 to R154, R168 to R172, R176 to R183, R290 to R293), and the commands of
chapter 04. Where the placer is free to choose (R177) the model takes a fixed first fit (log entry 16).
-/

namespace Sys2Proof.Machine

/-! ### Admission, R154 -/

/-- Split checks of R148 for one tensor that a template of `rows` × `cols` partitions uses: the split sizes divide by the grid
of the shape plan, every partition has a shard, and no output is shared between partitions (log entry 136). -/
def splitOk (td : TensorDecl) (plan : Nat × Nat × Nat) (rows cols : Nat) (isOut : Bool) : Bool :=
  let (split, pr, pc) := plan
  let flat := (td.dims.getD 1 1) * (td.dims.getD 2 1) * (td.dims.getD 3 1)
  let byRows := flat % max 1 pr == 0 && decide (rows ≤ pr)
  let byCols := (td.dims.getD 0 1) % max 1 pc == 0 && decide (cols ≤ pc)
  (match split with
   | 1 => byRows && !(isOut && decide (1 < cols))
   | 2 => byCols && !(isOut && decide (1 < rows))
   | 3 => byRows && byCols
   | _ => !(isOut && decide (1 < rows * cols)))

/-- R148 over the tensors of a template. -/
def placementOk (pr : Program) (t : Template) : Bool :=
  let chk (isOut : Bool) (id : Nat) : Bool :=
    match pr.tensors.find? (·.id == id) with
    | none => true
    | some td => splitOk td (pr.splitOf id) t.gridRows t.gridCols isOut
  t.inputs.all (chk false) && t.outputs.all (chk true)

/-- A kernel stores through a descriptor of Kind 1 or 2 (R154). -/
def storesAway (pr : Program) (k : Kernel) : Bool :=
  k.code.any fun w =>
    let op := w.toNat % 256
    (op == 0x81 || op == 0xA1) &&
      (match pr.descs[k.descFirst + bits w.toNat 227 216]? with
       | some d => let kd := bits d.toNat 127 126; kd == 1 || kd == 2
       | none => false)

/-- The status that admission answers, R154, R566: OK when all checks hold. With fewer enabled clusters than Width_Min there is no room for
the task, and the answer is RETRY (R177, R182). -/
def State.admitStatus (s : State) (d : TaskDesc) : Nat :=
  match look s.work.programs d.slot with
  | none => stBadArg
  | some pr =>
    match pr.templates.find? (·.id == d.template) with
    | none => stBadArg
    | some t =>
      match pr.kernels.find? (·.id == t.kernel) with
      | none => stBadArg
      | some k =>
        let parts := t.gridRows * t.gridCols
        let cds := s.chooseClusters t (coresPer k.farBudget)
        let live := s.tasksL.filter fun x => !x.state.final
        let perDie (die : Nat) : Nat := (live.filter fun x => x.cds.any fun cd => dieOf cd == die).length
        if !d.reservedZero then stBadArg
        else if d.epoch ≠ 0 ∧ ((look s.work.epochs d.epoch).isNone ∨ !t.specCapable) then stBadArg
        else if d.epoch ≠ 0 ∧ storesAway pr k then stBadArg
        else if (d.resume ∧ !t.restartable) ∨ (!d.resume ∧ d.partFirst ≠ 0) ∨ parts ≤ d.partFirst then stBadArg
        else if !placementOk pr t then stBadArg
        else if 4096 ≤ live.length ∨ cds.length < t.widthMin ∨ cds.any fun cd => decide (1024 ≤ perDie (dieOf cd)) then stRetry
        else if s.dev ≠ .ready then stNotReady
        else if d.resume ∧ (t.outputs.zip d.outInst).any fun x =>
            (s.work.entry { slot := d.slot, tensor := x.1, inst := x.2 }).dataLost then stNotReady
        else stOk

/-- Entries of a die's readiness table and of the hub's device table (R150). -/
def tableSize (n : Nat) : Nat := if n = 4 then 16384 else 65536

/-- Entries in use in a table. -/
def State.tableUse (s : State) (n : Nat) : Nat := (s.work.ready.filter fun r => r.table == n).length

/-- The readiness table of a handle (R150): a die's when the tasks that write and read it, and the task now placed on `cds`, lie on that
die, else the hub's; a handle written from outside lives in the hub's, and so does one for which its die's table is full (DESIGN CHOICE,
log entry 179). -/
def State.tableFor (s : State) (h : Handle) (cds : List Nat) : Nat :=
  let r := s.work.entry h
  let users := (s.tasksL.filter fun t => !t.state.final &&
    (t.inputs.any (·.handle = h) || t.outputs.any (·.handle = h))).flatMap (·.cds)
  let here := s.work.ready.any (·.handle = h)
  let dies := ((users ++ cds).map dieOf ++ (if here && decide (r.gen ≠ 0) && decide (r.table < 4) then [r.table] else [])).foldl insertSet []
  match dies with
  | [d] =>
    if r.outside ∨ (here ∧ r.table = 4 ∧ users.isEmpty ∧ r.gen ≠ 0) then 4
    else if (here ∧ r.table = d) ∨ s.tableUse d < tableSize d then d
    else 4
  | _ => 4

/-- The handle of a consumer moves to the hub's table when the consumer lies on another die (R150). -/
def State.moveEntry (s : State) (cds : List Nat) (h : Handle) : State :=
  if s.work.ready.any (·.handle = h) then s.onWork fun w => w.modEntry h fun r => { r with table := s.tableFor h cds } else s

/-- Capture an input, R152, R168. -/
def State.capture (s : State) (epoch : Nat) (h : Handle) : InCap :=
  let r := s.work.entry h
  match (if epoch = 0 then none else (r.specs.filter (·.epoch == epoch)).getLast?) with
  | some x => { handle := h, gen := x.num, spec := true }
  | none => { handle := h, gen := r.gen }

/-- The attention parameter record among a task's inputs: an input tensor of class 1 of 64 bytes that holds a legal record (R270). -/
def State.aprOf (s : State) (pr : Program) (epoch : Nat) (ins : List Handle) : Option Apr :=
  (ins.filterMap fun h =>
    match pr.tensors.find? (·.id == h.tensor) with
    | some td =>
      let a := s.shardAddr epoch h 0
      let r : Apr := ⟨s.mem.read a 64⟩
      if td.cls = 1 ∧ td.sizeBytes = 64 ∧ a ≠ 0 ∧ r.legal then some r else none
    | none => none).head?

/-- The rows that a task appends to each sequence of its KV outputs and the Scale of the pages it allocates: by its attention record
(R270, R281), else one row and a free Scale (DESIGN CHOICE, log entry 172). -/
def State.rowsFor (s : State) (pr : Program) (epoch : Nat) (ins : List Handle) : Nat × Option Nat :=
  match s.aprOf pr epoch ins with
  | some a => (a.appends, if a.kExp = a.vExp then some a.kExp else none)
  | none => (1, none)

/-- The other instances that a kernel's descriptors name, neither inputs nor outputs of its template (R138, R160). -/
def otherHandles (pr : Program) (k : Kernel) (t : Template) (d : TaskDesc) (id : Nat) : List Handle :=
  ((((pr.descs.drop k.descFirst).take k.descCount).filter fun x => bits x.toNat 127 126 == 0).map fun x => bits x.toNat 63 32).eraseDups.filterMap
    fun x => if t.inputs.contains x ∨ t.outputs.contains x then none
      else some { slot := d.slot, tensor := x, inst := pr.instOf t d id x }

/-- Find room for a task: its shards are placed, and a committed task's rows fit into the pools of its sequences, where nothing but room is
wanting (R182, R291). -/
def State.placeAll (s : State) (pr : Program) (t : Template) (nc : Nat) (cds : List Nat) (hs : List Handle) (ctxs : List Nat) (rows : Nat)
    (committed : Bool) : Option State :=
  let placed := hs.foldl (fun (o : Option State) h => o.bind fun s => s.placeTensor pr h nc cds t.affinity) (some s)
  placed.bind fun s => if ctxs.all fun c => !committed || s.appendWaits c rows || (s.appendCtx c rows none).isSome then some s else none

/-- Admit a task (R151, R152, R154, R160, R169, R184): the state after and its Task_Id, or the status that refuses it. -/
def State.admitTask (s : State) (d : TaskDesc) : State × Nat × Nat :=
  let st := s.admitStatus d
  if st ≠ stOk then (s, st, 0)
  else match (look s.work.programs d.slot).bind fun pr => (pr.templates.find? (·.id == d.template)).map fun t => (pr, t) with
  | none => (s, stBadArg, 0)
  | some (pr, t) =>
    let k := pr.kernels.find? (·.id == t.kernel)
    let far := match k with | some k => k.farBudget | none => 1
    let nc := coresPer far
    let cds := s.chooseClusters t nc
    let ins := (t.inputs.zip d.inInst).map fun x => ({ slot := d.slot, tensor := x.1, inst := x.2 } : Handle)
    let outs := (t.outputs.zip d.outInst).map fun x => ({ slot := d.slot, tensor := x.1, inst := x.2 } : Handle)
    let id := s.work.nextTask
    let others := match k with | some k => otherHandles pr k t d id | none => []
    let (rows, scale) := if d.resume then (0, none) else s.rowsFor pr d.epoch ins
    let ctxs := s.appendContexts outs
    -- with no room the placer frees space in the order of R182, and without success the answer is RETRY
    let place (s : State) : Option State := s.placeAll pr t nc cds (ins ++ outs ++ others) ctxs rows (d.epoch == 0)
    let freed := (List.range (s.work.placed.length + s.svc.models.length + 2 * s.svc.contexts.length)).foldl (fun s _ =>
      if (place s).isSome then s else (s.freeOnce).getD s) s
    match place freed with
    | none => (s, stRetry, 0)
    | some s0 =>
      -- page tables that have got a place are written
      let s1 := (s0.appendContexts (ins ++ outs)).foldl (fun s c => s.syncTables c fun _ => none) s0
      let caps := ins.map (s1.capture d.epoch)
      let parts := t.gridRows * t.gridCols
      let fresh : GenSt := { done := d.partFirst, expected := parts, state := .pending }
      let s2 := outs.foldl (fun s h => s.onWork fun w => w.modEntry h fun r =>
        let r1 := { r with table := s1.tableFor h cds }
        if d.epoch = 0 then { r1 with gen := r.gen + 1, gens := put r.gens (r.gen + 1) fresh, dataLost := false, outside := false }
        else { r1 with specs := r.specs ++ [{ epoch := d.epoch, num := (r.specs.filter (·.epoch == d.epoch)).length + 1, st := fresh }] })
        (ins.foldl (fun s h => s.moveEntry cds h) s1)
      let oc := outs.map fun h =>
        let r := s2.work.entry h
        ({ handle := h, gen := if d.epoch = 0 then r.gen else (r.specs.filter (·.epoch == d.epoch)).length } : OutCap)
      let task : Task := {
        id := id, desc := d, parts := parts, gridCols := t.gridCols, tileRows := t.tileRows, tileCols := t.tileCols
        inputs := caps, outputs := oc, cds := cds, farBudget := far, kernel := t.kernel, loadClass := t.loadClass
        limitMs := if d.limitMs ≠ 0 then d.limitMs else if t.limitMs ≠ 0 then t.limitMs else 2000
        restartable := t.restartable, nextPart := d.partFirst, doneCount := d.partFirst, admitTime := s.now
        kvHeld := (s2.appendContexts (ins ++ outs)).flatMap fun c => match look s2.svc.contexts c with | some k => k.held | none => []
        appends := if rows = 0 then [] else ctxs.map fun c => (c, rows), kvScale := scale }
      if tableSize 4 < s2.tableUse 4 then (s, stRetry, 0)
      else
        let s3 := (s2.onWork fun w => { w with
          tasks := put w.tasks id task, nextTask := id + 1
          journal := put w.journal (w.journalNext % 262144) id, journalNext := w.journalNext + 1 }).writeJournal id
        let s4 := if d.epoch = 0 then s3
          else outs.foldl (fun s h => match s.appendKind h with
            | .pool => s
            | .table => s
            | _ => s.makeShadows d.epoch h) s3
        (s4.settle, stOk, id)

/-! ### Commit, R171, R172, R293 -/

/-- The outputs of an epoch's tasks. -/
def State.epochOutputs (s : State) (e : Nat) : List Handle :=
  ((s.epochTasks e).flatMap fun t => t.outputs.map (·.handle)).eraseDups

/-- A home page of an epoch is under a proboscis claim. -/
def State.homeClaimed (s : State) (e : Nat) : Bool :=
  s.work.shadows.any fun x => x.epoch == e &&
    (match place x.home with
     | .outer m off => let o := s.outer m; meets (o.readClaims ++ o.writeClaims) off x.size
     | _ => false)

/-- The conditions of R171. -/
def State.commitReady (s : State) (e : Nat) (gens : List OutCap) : Bool :=
  (s.epochTasks e).all (·.state == .specDone) &&
    gens.all (fun o => decide (s.readersBelow none o.handle o.gen = 0)) && !s.homeClaimed e

/-- Accept of an append output: its own entry, else the default entry, else all (R172). -/
def acceptOf (entries : List CommitEntry) (h : Handle) (all : Nat) : Nat :=
  match entries.find? (·.handle = h) with
  | some e => e.accept
  | none => match entries.find? (fun e => e.handle.tensor == 0xFFFFFFFF) with
    | some e => e.accept
    | none => all

/-- COMMIT with Accept a on a sequence: the shadow entry's first rows become committed (R293) and lengthen it. -/
def State.acceptShadow (s : State) (id e a : Nat) : State :=
  match (look s.svc.contexts id).bind (·.shadow) with
  | some (e1, n) => if e1 = e then (s.endShadow id e a).modContext id fun k => { k with length := k.length + min a n } else s
  | none => s

/-- Bytes of one token in a token ring: an element of a one-row tensor, else a row. -/
def State.ringRow (s : State) (h : Handle) : Nat :=
  match (look s.work.programs h.slot).bind fun p => p.tensors.find? (·.id == h.tensor) with
  | some t => max 1 ((if (t.dims.getD 1 1) * (t.dims.getD 2 1) * (t.dims.getD 3 1) ≤ 1 then elemBits t.format else t.dims.getD 0 1 * elemBits t.format) / 8)
  | none => 4

/-- COMMIT with Accept a on a token ring (R169, R172): of the rows that the epoch wrote, in rising order, the first `a` are published, and the
others keep the home content. A row counts as written where it differs from its home (DESIGN CHOICE, log entry 171). -/
def State.commitRing (s : State) (e : Nat) (h : Handle) (a : Nat) : State :=
  let row := s.ringRow h
  let pages := s.work.shadows.filter fun x => x.epoch == e && decide (x.handle = h) && x.size != 0
  let wrote := pages.flatMap fun x => ((List.range (x.size / row)).filter fun i =>
    s.mem.read (x.page + i * row) row != s.mem.read (x.home + i * row) row).map fun i => (x.page + i * row, x.home + i * row)
  let s1 := s.onMem fun m => (wrote.take a).foldl (fun m p => m.copy p.1 p.2 row) m
  pages.foldl (fun s x => s.onMem fun m => (m.bumpInstar x.home).clear x.page (x.page + x.size)) s1

/-- The commit step, whole (R171): home pages become their shadow pages, instars rise by one, former homes are free, append
outputs take their accepted rows, instances are READY at the new generation, tasks COMMITTED, the epoch closed. The model
keeps a home page's address and moves the shadow page's content there (log entry 18). -/
def State.commitAct (s : State) (e : Nat) (entries : List CommitEntry) (gens : List OutCap) : State :=
  let s1 := (s.work.shadows.filter fun x => x.epoch == e && x.size != 0).foldl (fun s x =>
    if s.appendKind x.handle = .ring then s
    else s.onMem fun m => ((m.copy x.page x.home x.size).bumpInstar x.home).clear x.page (x.page + x.size)) s
  let hs := gens.map (·.handle)
  let s1 := (hs.filter fun h => s1.appendKind h == .ring).foldl (fun s h => s.commitRing e h (acceptOf entries h (2 ^ 20))) s1
  let s2 := (s1.appendContexts hs).foldl (fun s c =>
    match hs.find? fun h => s.isAppend h && (s.contextsOf h).contains c with
    | some h => s.acceptShadow c e (acceptOf entries h (2 ^ 20))
    | none => s) s1
  let poison (h : Handle) : Bool := (s.work.entry h).specs.any fun x => x.epoch == e && x.st.poison
  let s3 := gens.foldl (fun s o => s.onWork fun w => w.modEntry o.handle fun r =>
    { r.modGen o.gen fun g => { g with state := .ready, poison := g.poison || poison o.handle } with
      specs := r.specs.filter (·.epoch != e), dataLost := false }) s2
  let s4 := (s3.epochTasks e).foldl (fun s t => s.finishTask t.id .committed stOk) s3
  (s4.onWork fun w => { w with shadows := w.shadows.filter (·.epoch != e), epochs := del w.epochs e }).settle

/-- Admit a COMMIT: the generations of every output instance of the epoch rise (R171). -/
def State.commitAdmit (s : State) (e : Nat) : State × List OutCap :=
  (s.epochOutputs e).foldl (fun (sg : State × List OutCap) h =>
    let s1 := sg.1.onWork fun w => w.modEntry h fun r =>
      { r with gen := r.gen + 1, gens := put r.gens (r.gen + 1) { state := .pending } }
    (s1, sg.2 ++ [{ handle := h, gen := (s1.work.entry h).gen }])) (s, [])

/-- Open an epoch for a pass or a step: the next number that is not open, while fewer than 1,024 are (R168). -/
def State.openEpoch (s : State) (service : Bool) : Option (State × Nat) :=
  if 1024 ≤ s.work.epochs.length then none
  else
    let used := keys s.work.epochs
    let next := (List.range 65535).map (fun i => (s.work.lastEpoch + i) % 65535 + 1)
    match next.find? fun e => !used.contains e with
    | none => none
    | some e => some (s.onWork fun w => { w with epochs := put w.epochs e { service := service }, lastEpoch := e }, e)

/-! ### Commands of chapter 04 -/

/-- An earlier ready task that waits for a cluster has been passed 64 times: it takes the cluster next (R156). -/
def State.keptFor (s : State) (t : Task) (cd : Nat) : Bool :=
  s.tasksL.any fun x => decide (x.id < t.id) && x.state == .ready && decide (64 ≤ x.passed) && x.cds.contains cd

/-- A die's dispatcher has an earlier ready task whose clusters on the die are free: it fires that one first (R156). -/
def State.firesBefore (s : State) (t : Task) (die : Nat) : Bool :=
  s.tasksL.any fun x => decide (x.id < t.id) && x.state == .ready && (s.freeClusters x).any fun cd => dieOf cd == die

/-- The free clusters of a task that its dies' dispatchers may give it now (R156). -/
def State.takable (s : State) (t : Task) : List Nat :=
  (s.freeClusters t).filter fun cd => !s.keptFor t cd && !s.firesBefore t (dieOf cd)

/-- Firing of a task of waves, R155, R156, R163: a READY task with a free, powered cluster fires its first wave; the earlier
READY tasks whose clusters are busy have been passed once more. -/
def State.fireWaves (s : State) (t : Task) : State :=
  if t.state ≠ .ready ∨ t.coll ∨ !s.mayFire t ∨ (s.takable t).isEmpty then s
  else
    let s1 := s.onWork fun w => { w with
      tasks := mapTab w.tasks fun _ x => if x.id < t.id ∧ x.state = .ready then { x with passed := x.passed + 1 } else x
      firingOrder := w.firingOrder ++ [t.id] }
    (((s1.leaveReady t).modTask t.id fun t => { s.openWave t with state := .running, readyFrom := none }).noteWave t).writeJournal t.id

/-- WAVE_START, R157 to R161: the share of the oldest wave of a task that a cluster has not begun, or of the next wave once
the cluster has finished the one before (R159). -/
def execWaveStart (task cd : Nat) (s : State) : Host.Outcome State Fault Refusal :=
  match s.task? task with
  | none => .next s
  | some t =>
    if t.state ≠ .running ∨ !s.takesWave cd ∨ !t.cds.contains cd ∨ s.keptFor t cd then .next s
    else match t.waves.find? fun w => w.cds.contains cd && !w.started.contains cd with
      | some w => .next (s.startOn t w cd)
      | none =>
        if t.stopping ∨ t.cancelled ∨ t.timedOut ∨ t.parts ≤ t.nextPart then .next s
        else
          let t1 := s.openWave t
          match t1.waves.getLast? with
          | some w =>
            if w.cds.contains cd then .next (((s.modTask task fun _ => t1).noteWave t1).startOn t1 w cd) else .next s
          | none => .next s

/-- LOAD_RAISE_WITHDRAW, R161, R504: the raise goes once no wave runs. -/
def execLoadRaiseWithdraw (cd : Nat) (s : State) : Host.Outcome State Fault Refusal :=
  if (s.cluster cd).wave.isSome then .next s else .next (s.modCluster cd fun k => { k with preRaise := 0 })

/-- COMPLETION_TOKEN, R151, R166: a token that was sent reaches its router, collector or the hub. -/
def execCompletionToken (task wave node : Nat) (tok : Token) (s : State) : Host.Outcome State Fault Refusal :=
  let m : Sent := .token task wave node tok
  if !s.sent.contains m then .next s
  else .next (({ s with sent := s.sent.erase m } : State).tokenArrive task wave node tok)

/-- DISPATCHER_HEARTBEAT, R562. -/
def execDispatcherHeartbeat (cd : Nat) (s : State) : Host.Outcome State Fault Refusal :=
  if (s.cluster cd).wave.isNone then .next s else .next (s.modCluster cd fun k => { k with heartbeat := s.now })

/-- TASK_TIME_LIMIT, R164, R557, R558: no further wave starts, running waves are stopped, the task ends with TIMEOUT; a
speculative task dooms its epoch (R174). -/
def execTaskTimeLimit (task : Nat) (s : State) : Host.Outcome State Fault Refusal :=
  match s.task? task with
  | none => .next s
  | some t =>
    if t.state ≠ .running then .next s
    else
      let idx := s.log.next
      let s1 := s.logEvent .taskTimeout { status := stTimeout, task := task }
      let s2 := s1.modTask task fun t => { t with
        stopping := true, timedOut := true, errorRef := if t.errorRef = 0xFFFFFFFF then idx else t.errorRef }
      let s3 := s2.stopTask task stTimeout
      .next (if t.desc.epoch = 0 then s3.endIfDone task else s3.doom t.desc.epoch)

/-- The generation that a shadow page copies still waits for its producer (R169). -/
def State.homePending (s : State) (x : Shadow) : Bool :=
  (s.work.entry x.handle).gens.any fun g => decide (g.1 ≤ x.gen) && g.2.state == .pending

/-- SHADOW_COPY_DONE, R155, R169: the home pages have been copied into a task's shadow pages; a page that had found no room
is allocated now if there is room, and one whose home content has not been produced goes on waiting. -/
def execShadowCopyDone (task : Nat) (s : State) : Host.Outcome State Fault Refusal :=
  match s.task? task with
  | none => .next s
  | some t =>
    if t.desc.epoch = 0 then .next s
    else
      let mine (x : Shadow) : Bool := x.epoch == t.desc.epoch && t.outputs.any (·.handle = x.handle) && !x.copied
      let s1 := (s.work.shadows.filter fun x => mine x && x.size == 0).foldl (fun s x =>
        match s.allocShadow x.home with
        | none => s
        | some a => s.onWork fun w => { w with shadows := w.shadows.map fun y =>
            if y = x then { y with page := a, size := pageSize x.home } else y }) s
      let s2 := (s1.work.shadows.filter fun x => mine x && x.size != 0 && !s1.homePending x).foldl (fun s x =>
        (s.copyData x.home x.page x.size 0).onWork fun w => { w with shadows := w.shadows.map fun y =>
          if y = x then { y with copied := true } else y }) s1
      .next s2.settle

/-- COMMIT_ACT, R171 to R174: a COMMIT that waits acts in one step once its conditions hold; of a doomed epoch it performs
DISCARD and completes with DENIED. -/
def execCommitAct (epoch : Nat) (s : State) : Host.Outcome State Fault Refusal :=
  match look s.work.epochs epoch with
  | none => .next s
  | some x =>
    match x.commit with
    | none => .next s
    | some (entries, h) =>
      if x.doomed then .next (s.discardEpoch epoch stDenied)
      else if !s.commitReady epoch x.commitGens then .next s
      else .next ((s.commitAct epoch entries x.commitGens).respond h 0x0505 stOk true 0 [])

/-- SHARD_MOVE, R179, R216, R253, R267: between waves the shard is copied, the new page's instar rises, later waves use the
new place, and the old one is freed. A claimed page never moves. -/
def execShardMove (h : Handle) (shard addr : Nat) (s : State) : Host.Outcome State Fault Refusal :=
  match s.work.placed.find? fun p => p.handle = s.placedAs h && p.shard == shard with
  | none => .next s
  | some p =>
    if s.inUse (s.placedAs h) ∨ s.claimed p.addr p.bytes ∨ !s.freePlace addr p.bytes then .next s
    else .next (s.relocate p addr)

/-- Slice bytes in all, and those that are not free. -/
def State.sliceUse (s : State) : Nat × Nat :=
  let pages := s.slices.foldl (fun a p => a + p.2.pagesUsable) ((32768 - s.slices.length) * 192)
  let used := s.allocs.foldl (fun a x => match place x.1 with | .slice _ _ => a + x.2 | _ => a) 0
  (pages * 0x10000, used)

/-- Free slice capacity exceeds the size of a replica by at least 5 % of all slice capacity (R180). -/
def State.replicaFits (s : State) (n : Nat) : Bool :=
  let (total, used) := s.sliceUse
  decide (total * 5 ≤ (total - used - n) * 100)

/-- Length of the union of some intervals. -/
def coverTime (l : List (Nat × Nat)) : Nat :=
  let sorted := l.foldl (fun l x =>
    let (a, b) := l.span fun y => decide (y.1 ≤ x.1)
    a ++ [x] ++ b) ([] : List (Nat × Nat))
  (sorted.foldl (fun (m : Nat × Nat) x => (max m.1 x.2, m.2 + (x.2 - max m.1 x.1))) (0, 0)).2

/-- How long in the last 10 ms a template that reads a tensor was READY and not running (R176, R180). -/
def State.readyTime (s : State) (slot tensor : Nat) : Nat :=
  let reads (sl tm : Nat) : Bool := sl == slot && (match look s.work.programs slot with
    | some p => p.templates.any fun t => t.id == tm && t.inputs.contains tensor
    | none => false)
  let from_ := s.now - demandWindow
  let past := (s.work.readyTimes.filter fun d => reads d.slot d.template && decide (from_ < d.stop)).map fun d => (max from_ d.start, d.stop)
  let now := s.tasksL.filterMap fun t => if reads t.desc.slot t.desc.template then t.readyFrom.map fun a => (max from_ a, s.now) else none
  coverTime (past ++ now)

/-- REPLICA_CREATE, R180: a copy of a class 0 shard, while the templates that read it have been READY and not running for more than 25 % of
the last 10 ms and there is room. -/
def execReplicaCreate (h : Handle) (shard addr : Nat) (s : State) : Host.Outcome State Fault Refusal :=
  let pr := look s.work.programs h.slot
  let weights := match pr.bind fun p => p.tensors.find? (·.id == h.tensor) with | some t => t.cls == 0 | none => false
  let never := match pr.bind fun p => p.plan.find? (·.tensor == h.tensor) with | some e => e.replicate == 1 | none => false
  match s.work.placed.find? fun p => p.handle = h && p.shard == shard with
  | none => .next s
  | some p =>
    if !weights || never || !s.replicaFits p.bytes || !s.freePlace addr p.bytes ||
        decide (4 * s.readyTime h.slot h.tensor ≤ demandWindow) then .next s
    else
      let n := (s.work.placed.filter fun q => q.handle = h && q.shard == shard).length
      .next ((s.copyData p.addr addr p.bytes 0).onWork fun w => { w with
        placed := w.placed ++ [{ p with replica := n, addr := addr }] })

end Sys2Proof.Machine
end

