-- ==== Sys2Proof/Machine/Profile.lean ====
section
/-!
DEFINITION. The configuration profile (R454, R486 to R488): the entries of R487 with their sizes, ranges and defaults, and
the value of an entry that applies at once or that was read at the last entry into ROM.
-/

namespace Sys2Proof.Machine

/-- The port of a key 0x81pp_000n. -/
def keyPort (k : Nat) : Nat := k / 0x10000 % 256
/-- A key of the Ethernet group for a port that exists, and its item. -/
def portItem (k : Nat) : Option Nat :=
  if k / 0x1000000 = 0x81 ∧ keyPort k < 4 ∧ k % 0x10000 ≤ 7 ∧ 1 ≤ k % 0x10000 then some (k % 0x10000) else none

/-- The default of an entry, R487; none for an unknown key. -/
def profDefault (k : Nat) : Option (List Byte) :=
  match portItem k with
  | some 1 => some (leBytes 1 1)
  | some 2 => some (leBytes 2 0)
  | some 3 => some (leBytes 1 0x08)
  | some 4 => some ([3, 6, 0, 26, 48, 0, 0, 0])
  | some 5 => some (leBytes 4 (64 * 65536))
  | some 6 => some (leBytes 16 2)
  | some 7 => some (leBytes 32 2)
  | _ =>
    if k = 0x01000001 then some (leBytes 1 0x5C)
    else if k = 0x01000002 then some (leBytes 4 450)
    else if k = 0x01000003 then some (leBytes 1 0)
    else if k = 0x01000004 then some (leBytes 4 0)
    else if k = 0x02000001 then some (leBytes 2 4096)
    else if k = 0x02000002 then some (leBytes 2 250)
    else if k = 0x02000003 then some (leBytes 2 10 ++ leBytes 2 768 ++ leBytes 2 256 ++ leBytes 2 0)
    else if k = 0x02000004 then some (leBytes 4 3600)
    else if k = 0x02000005 then some (leBytes 4 8192)
    else if k = 0x03000001 then some (leBytes 4 86400)
    else if k = 0x04000001 then some (leBytes 2 3600)
    else if k = 0x04000002 then some (leBytes 1 16)
    else if k = 0x81000008 then some (List.replicate 136 0)
    else if k = 0x82000001 then some (List.replicate 8 0)
    else none

/-- The size of an entry; 0 for an unknown key. -/
def profSize (k : Nat) : Nat := match profDefault k with | some d => d.length | none => 0

/-- Bytes [lo, hi) of a value are zero. -/
def zeroAt (v : List Byte) (lo hi : Nat) : Bool := ((v.drop lo).take (hi - lo)).all (· == 0)
/-- A value of an entry is in range, R487 with the ranges of R42, R101, R351, R401, R404, R490 and R512 that it names. -/
def profOk (k : Nat) (v : List Byte) : Bool :=
  let n := leNat v
  match portItem k with
  | some 1 => inRange n 1 3
  | some 2 => inRange n 0 4094
  | some 3 => decide (onesIn n 8 ≤ 2)
  | some 4 => inRange (field v 0 1) 0 7 && inRange (field v 1 1) 0 7 && inRange (field v 2 1) 0 7 &&
      inRange (field v 3 1) 0 63 && inRange (field v 4 1) 0 63 && zeroAt v 5 8
  | some 5 => inRange (field v 0 1) 0 1 && zeroAt v 1 2
  | some 6 => inRange (field v 0 1) 0 2 && zeroAt v 1 4 && inRange (field v 8 1) 0 32 && zeroAt v 9 12 &&
      (field v 0 1 == 1 || zeroAt v 4 8)
  | some 7 => inRange (field v 0 1) 0 2 && zeroAt v 1 8 && inRange (field v 24 1) 0 128 && zeroAt v 25 32 &&
      (field v 0 1 == 1 || zeroAt v 8 24)
  | _ =>
    if k = 0x01000001 then inRange n 0x08 0x77
    else if k = 0x01000002 then inRange n 1 100000
    else if k = 0x01000003 then inRange n 0 3 || inRange n 0x10 0x17
    else if k = 0x02000001 then inRange n 256 16384
    else if k = 0x02000002 then inRange n 10 10000
    else if k = 0x02000003 then
      inRange (field v 0 1) 4 15 && zeroAt v 1 2 && zeroAt v 6 8 && decide (field v 4 2 < field v 2 2) &&
        decide (field v 2 2 + 2 ≤ 2 ^ field v 0 1)
    else if k = 0x02000004 then inRange n 1 604800
    else if k = 0x02000005 then inRange n 256 65536
    else if k = 0x03000001 then inRange n 3600 2592000
    else if k = 0x04000001 then inRange n 1500 4000
    else if k = 0x04000002 then inRange n 8 24
    else if k = 0x81000008 then
      (List.range 8).all fun i =>
        zeroAt v (17 * i) (17 * i + 17) || inRange (field v (17 * i + 16) 1) 1 128
    else if k = 0x82000001 then inRange (field v 4 2) 0 0x7FFF && inRange (field v 6 1) 0 1 && zeroAt v 7 8
    else true

/-- The value of an entry in a list of written ones. -/
def profIn (l : List (Nat × List Byte)) (k : Nat) : List Byte :=
  match l.find? (·.1 == k) with
  | some e => e.2
  | none => (profDefault k).getD []

/-- The stored value of an entry, for entries that apply at once. -/
def State.profNow (s : State) (k : Nat) : List Byte :=
  profIn (if k / 2 ^ 31 = 0 then s.fw.profDev else s.fw.profNet) k

/-- The value read at the last entry into ROM. -/
def State.profBoot (s : State) (k : Nat) : List Byte :=
  profIn (if k / 2 ^ 31 = 0 then s.fw.profDevBoot else s.fw.profNetBoot) k

end Sys2Proof.Machine
end

