-- ==== Sys2Proof/Machine/Service.lean ====
section
/-!
DEFINITION. The on-device service (chapter 08): records, admission of requests, tokenisation, passes, sampling, stream
entries, residency, adapters and fine-tuning; and the placer's own steps that touch them (R176 to R183).
-/

namespace Sys2Proof.Machine

/-! ### Requests and their stream -/

/-- The open request of a queue pair with an identifier. -/
def State.req? (s : State) (qp id : Nat) : Option Request :=
  s.svc.requests.find? fun r => r.qp == qp && r.rec_.request == id && !r.ended

/-- Update the open request of a queue pair with an identifier. -/
def State.modReq (s : State) (qp id : Nat) (f : Request → Request) : State :=
  s.onSvc fun v => { v with requests := v.requests.map fun r =>
    if r.qp == qp && r.rec_.request == id && !r.ended then f r else r }

/-- Kinds of a stream entry, R312. -/
def kindToken : Nat := 0
def kindBytes : Nat := 1
def kindEnd : Nat := 2
def kindError : Nat := 3

/-- The 32 bytes of a stream entry, R312. -/
def streamEntry (tok pos ctx kind status count reason : Nat) (bs : List Byte) : List Byte :=
  leBytes 4 tok ++ leBytes 4 pos ++ leBytes 4 ctx ++ leBytes 1 kind ++ leBytes 1 status ++ leBytes 1 count ++
    leBytes 1 reason ++ (bs.take 16 ++ List.replicate (16 - bs.length) 0)

/-- Queue an entry with the next number. -/
def Request.push (r : Request) (e : List Byte) : Request :=
  { r with entries := r.entries ++ [(r.nextEntry, e)], nextEntry := r.nextEntry + 1 }

/-- Entry n may be written when the client has consumed n + 1 − 2^Ring_Log2 entries (R313). -/
def Request.creditFor (r : Request) (n : Nat) : Bool := decide (n + 1 ≤ r.credits + 2 ^ r.rec_.ringLog2)

/-- Length of a context. -/
def State.ctxLength (s : State) (c : Nat) : Nat := (lookD s.svc.contexts c { model := 0 }).length

/-- Close a context: its pages lose a reference (R290, R314). -/
def State.closeContext (s : State) (id : Nat) : State :=
  match look s.svc.contexts id with
  | none => s
  | some k =>
    let s1 := k.held.foldl State.dropPage s
    s1.onSvc fun v => { v with contexts := del v.contexts id }

/-- The pages that some tables name. -/
def tablePages (ts : List KvTable) : List Nat := (ts.flatMap (·.bases)).filter (· != 0)

/-- A model that REMOVE_MODEL named goes when its last open request has ended (R441), and its contexts and prefixes with it. -/
def State.dropModel (s : State) (i : Nat) : State :=
  match look s.svc.models i with
  | none => s
  | some m =>
    if m.state ≠ .removing ∨ s.svc.requests.any (fun r => !r.ended && r.rec_.model == i) then s
    else
      let s1 := (s.svc.contexts.filter fun k => k.2.model == i).foldl (fun s k => s.closeContext k.1) s
      let s2 := (s1.svc.prefixes.filter fun p => p.model == i).foldl (fun s p => (tablePages p.tables).foldl State.dropPage s) s1
      (s2.dropWeights m).onSvc fun v => { v with models := del v.models i, prefixes := v.prefixes.filter fun p => p.model != i }

/-- An adapter that REMOVE_ADAPTER named gives up its image and its slices when no open request names it (R325). -/
def State.dropAdapter (s : State) (i : Nat) : State :=
  match look s.svc.adapters i with
  | none => s
  | some a =>
    if !a.removing ∨ s.svc.requests.any (fun r => !r.ended && r.rec_.adapter == i) then s
    else s.onSvc fun v => { v with adapters := put v.adapters i { a with staged := false, image := [], slices := [] } }

/-- A request ends with an entry: its context closes, or is kept (R314). -/
def State.endRequest (s : State) (r : Request) (entry : List Byte) : State :=
  let s1 := s.modReq r.qp r.rec_.request fun r =>
    { r.push entry with ended := true, inPass := false, readySince := none, creditSince := none }
  let s2 := if r.assembling then s1
    else if r.rec_.keep then s1.modContext r.context fun k => { k with kept := true, lastUse := s.now }
    else s1.closeContext r.context
  (s2.dropModel r.rec_.model).dropAdapter r.rec_.adapter

/-- End with END: status and End_Reason. -/
def State.endWith (s : State) (qp id status reason : Nat) : State :=
  match s.req? qp id with
  | none => s
  | some r => s.endRequest r (streamEntry 0xFFFFFFFF (s.ctxLength r.context) r.context kindEnd status 0 reason [])

/-- End with ERROR. -/
def State.failWith (s : State) (qp id status : Nat) : State :=
  match s.req? qp id with
  | none => s
  | some r => s.endRequest r (streamEntry 0xFFFFFFFF (s.ctxLength r.context) r.context kindError status 0 0 [])

/-- An ERROR entry into an open request's ring that does not end it (R307). -/
def State.errorEntry (s : State) (qp id status : Nat) : State :=
  s.modReq qp id fun r => r.push (streamEntry 0xFFFFFFFF (s.ctxLength r.context) r.context kindError status 0 0 [])

/-- The service set of a queue pair. -/
def State.setOf (s : State) (qp : Nat) : Option Nat :=
  match look s.net.qps qp with
  | some q => match q.kind with | .service i => some i | _ => none
  | none => none

/-- Consume the record at the head of the inbound service channel, when it is a queue pair's: its word leaves the channel and
its receive buffer returns to the pool (R352, R411). The word names the queue pair in its first four bytes. -/
def State.takeRecord (s : State) (qp : Nat) : Option State :=
  match s.setOf qp with
  | none => none
  | some i =>
    match (s.channel inboxEp i).words with
    | w :: rest =>
      if leNat (w.data.take 4) = qp then
        some ((s.onChannel inboxEp i fun c => ({ c with words := rest } : Channel).marks).onNet fun n =>
          { n with rxFree := n.rxFree + 1 })
      else none
    | [] => none

/-- Count a dropped record, R307. -/
def State.countDrop (s : State) : State := s.onSvc fun v => { v with dropped := satAdd 64 v.dropped 1 }

/-! ### Admission of a request, R308, R310 -/

/-- FP32 bits of zero or a positive finite number. -/
def f32NonNeg (w : Word) : Bool := w == 0x80000000#32 || decide (w.toNat < 0x7F800000)

/-- The sampling fields and the ring of a record are in range, R308. -/
def recFieldsOk (r : ReqRec) : Bool :=
  inRange r.maxNew 1 (2 ^ 20) && f32NonNeg r.temperature &&
    (decide (0 < r.topP.toNat) && decide (r.topP.toNat ≤ 0x3F800000)) &&
    (r.minP == 0x80000000#32 || decide (r.minP.toNat < 0x3F800000)) &&
    decide (r.topK ≤ 1024) && decide (r.stopCount ≤ 8) && inRange r.ringLog2 6 20 && r.ringVa % 32 == 0

/-- The status that admission gives a request, R310, R325; OK when none of the conditions holds. -/
def State.requestStatus (s : State) (r : ReqRec) : Nat :=
  match look s.svc.models r.model with
  | none => stBadArg
  | some m =>
    let ad := look s.svc.adapters r.adapter
    let adBad := r.adapter ≠ 0xFFFF ∧ (match ad with | none => true | some a => a.rec_.base != r.model) = true
    let preBad := r.prefixId ≠ 0xFFFF ∧ !(s.svc.prefixes.any fun p => p.model == r.model && p.id == r.prefixId)
    let ctxBad := r.context ≠ 0xFFFFFFFF ∧
      (match look s.svc.contexts r.context with | none => true | some k => k.model != r.model || !k.open_) = true
    if adBad ∨ preBad ∨ ctxBad then stBadArg
    else if !recFieldsOk r ∨ (!r.bytesIn ∧ r.input.any fun t => decide (m.rec_.vocab ≤ t)) then stBadArg
    else if r.bytesIn ∧ (look s.svc.tokenisers m.rec_.tokeniser).isNone then stBadArg
    else if m.state = .removing ∨ (match ad with | some a => a.removing | none => false) = true then stDenied
    else if r.context = 0xFFFFFFFF ∧ 65536 ≤ s.svc.contexts.length then stRetry
    else if r.context ≠ 0xFFFFFFFF ∧ s.svc.requests.any (fun x => !x.ended && !x.assembling && x.context == r.context) then stBusy
    else stOk

/-- Requests that hold a tokeniser place. -/
def State.tokenising (s : State) : Nat := (s.svc.requests.filter fun r => r.tokenising && !r.ended).length

/-- The model serves passes: registered, fetched and not cold (R301). -/
def Model.serves (m : Model) : Bool := m.state != .loading && m.state != .loadFailed && decide (m.cls ≠ 3)

/-- Bring a request to the passes when nothing holds it back: tokenised, its model served, credit for its next entry. -/
def State.makeReady (s : State) (qp id : Nat) : State :=
  match s.req? qp id with
  | none => s
  | some r =>
    let ok := match look s.svc.models r.rec_.model with | some m => m.serves | none => false
    if r.assembling || r.tokenising || r.waitingTok || r.inPass then s
    else if !ok then s.modReq qp id fun r => { r with waitingModel := true, readySince := none }
    else if r.creditFor r.nextEntry then s.modReq qp id fun r =>
      { r with waitingModel := false, readySince := some (r.readySince.getD s.now), creditSince := none }
    else s.modReq qp id fun r =>
      { r with waitingModel := false, readySince := none, creditSince := some (r.creditSince.getD s.now) }

/-- Admit an assembled request: its context is opened, with the pages of its prefix (R300), or continued; bytes take a
tokeniser place or wait for one (R317). A refused request gets one ERROR entry (R310). -/
def State.admitRequest (s : State) (qp id : Nat) : State :=
  match s.req? qp id with
  | none => s
  | some r =>
    let st := s.requestStatus r.rec_
    if st ≠ stOk then
      s.modReq qp id fun r =>
        { r.push (streamEntry 0xFFFFFFFF 0 r.rec_.context kindError st 0 0 []) with ended := true, assembling := false }
    else
      let fresh := r.rec_.context == 0xFFFFFFFF
      let ctx := if fresh then s.svc.nextContext else r.rec_.context
      let pre := if r.rec_.prefixId = 0xFFFF then none else
        s.svc.prefixes.find? fun p => p.model == r.rec_.model && p.id == r.rec_.prefixId
      let s1 :=
        if !fresh then s.modContext ctx fun k => { k with kept := false, lastUse := s.now }
        else
          let k : Context := match pre with
            | some p => { model := r.rec_.model, length := p.tokens.length, pages := p.plan, tables := p.tables,
                          prefixPages := p.plan.length, prefixId := some p.id, lastUse := s.now }
            | none => { model := r.rec_.model, tables := s.newTables r.rec_.model, lastUse := s.now }
          let s0 := k.held.foldl State.holdPage s
          s0.onSvc fun v => { v with contexts := put v.contexts ctx k, nextContext := (ctx + 1) % 0xFFFFFFFF }
      let place := decide (s1.tokenising < 64)
      let s2 := s1.modReq qp id fun r => { r with
        assembling := false, context := ctx
        tokens := if r.rec_.bytesIn then [] else r.rec_.input
        tokenising := r.rec_.bytesIn && place, waitingTok := r.rec_.bytesIn && !place }
      s2.makeReady qp id

/-- A record with the Request_Id of a request that is being assembled continues its input (R309). -/
def State.continueRequest (s : State) (qp : Nat) (r : ReqRec) : State :=
  match s.req? qp r.request with
  | none => s.countDrop
  | some q =>
    if !q.assembling then s.countDrop.errorEntry qp r.request stBadArg
    else
      let s1 := s.modReq qp r.request fun q =>
        { q with rec_ := { q.rec_ with input := q.rec_.input ++ r.input, more := r.more } }
      if r.more then s1 else s1.admitRequest qp r.request

/-- REQUEST, R307 to R310: the next record of a queue pair is a REQUEST with a new Request_Id. One whose Request_Id an
open request of the queue pair already has does not fit, is dropped and counted, and that request's ring is told. -/
def execRequest (qp : Nat) (r : ReqRec) (s : State) : Host.Outcome State Fault Refusal :=
  match s.takeRecord qp with
  | none => .next s
  | some s1 =>
    if (s1.req? qp r.request).any fun q => q.assembling then .next (s1.continueRequest qp r)
    else if (s1.req? qp r.request).isSome then .next (s1.countDrop.errorEntry qp r.request stBadArg)
    else
      let q : Request := { qp := qp, rec_ := r, assembling := true, context := r.context }
      let s2 := s1.onSvc fun v => { v with requests := v.requests ++ [q] }
      .next (if r.more then s2 else s2.admitRequest qp r.request)

/-- REQUEST_CONTINUATION, R309: only the input is read, and it is appended; one that names no request being assembled is
dropped and counted. -/
def execRequestContinuation (qp : Nat) (r : ReqRec) (s : State) : Host.Outcome State Fault Refusal :=
  match s.takeRecord qp with
  | none => .next s
  | some s1 => .next (s1.continueRequest qp r)

/-- CANCEL, R311, R315: at once, or when the pass of the sequence ends. -/
def execCancel (qp request : Nat) (s : State) : Host.Outcome State Fault Refusal :=
  match s.takeRecord qp with
  | none => .next s
  | some s1 =>
    match s1.req? qp request with
    | none => .next s1
    | some r =>
      if r.inPass then .next (s1.modReq qp request fun r => { r with cancelled := true })
      else .next (s1.endWith qp request stOk 3)

/-- The request that holds a queue pair's identifier last, ended or not: CREDIT reaches it until its stream is written. -/
def State.streamOf (s : State) (qp id : Nat) : Option Request :=
  s.svc.requests.find? fun r => r.qp == qp && r.rec_.request == id

/-- Update that request. -/
def State.modStream (s : State) (qp id : Nat) (f : Request → Request) : State :=
  match s.streamOf qp id with
  | none => s
  | some r => s.onSvc fun v => { v with requests := v.requests.map fun x => if x = r then f r else x }

/-- CREDIT, R311, R313: a report below an earlier one or above what was written is ignored and counted; a sequence that
waited for credit returns to the passes. -/
def execCredit (qp request value : Nat) (s : State) : Host.Outcome State Fault Refusal :=
  match s.takeRecord qp with
  | none => .next s
  | some s1 =>
    match s1.streamOf qp request with
    | none => .next s1
    | some r =>
      if value < r.credits ∨ r.written < value then
        .next (s1.onSvc fun v => { v with creditsIgnored := satAdd 32 v.creditsIgnored 1 })
      else .next ((s1.modStream qp request fun r => { r with credits := value }).makeReady qp request)

/-- CLOSE, R311, R314: a kept context that no open request names. -/
def execClose (qp context : Nat) (s : State) : Host.Outcome State Fault Refusal :=
  match s.takeRecord qp with
  | none => .next s
  | some s1 =>
    match look s1.svc.contexts context with
    | none => .next s1
    | some k =>
      if k.kept ∧ !(s1.svc.requests.any fun r => !r.ended && r.context == context) then .next (s1.closeContext context)
      else .next s1

/-- UNKNOWN_RECORD, R307. -/
def execUnknownRecord (qp : Nat) (request : Option Nat) (s : State) : Host.Outcome State Fault Refusal :=
  match s.takeRecord qp with
  | none => .next s
  | some s1 =>
    match request with
    | none => .next s1.countDrop
    | some id => .next (s1.countDrop.errorEntry qp id stBadArg)

/-! ### Tokenisation, R316, R317 -/

/-- The class of a byte under Split_Mode 2: letter, digit, space, other. -/
def byteClass (b : Byte) : Nat :=
  let v := b.toNat
  if (0x41 ≤ v ∧ v ≤ 0x5A) ∨ (0x61 ≤ v ∧ v ≤ 0x7A) ∨ 0x80 ≤ v then 0
  else if 0x30 ≤ v ∧ v ≤ 0x39 then 1
  else if v = 0x09 ∨ v = 0x0A ∨ v = 0x0D ∨ v = 0x20 then 2
  else 3

/-- A piece starts between two neighbouring bytes. -/
def splitsAt (mode : Nat) (a b : Byte) : Bool :=
  match mode with
  | 1 => b == 0x20
  | 2 => byteClass a != byteClass b
  | _ => false

/-- Divide bytes into pieces. -/
def pieces (mode : Nat) : List Byte → List (List Byte)
  | [] => []
  | b :: t =>
    match t, pieces mode t with
    | c :: _, p :: ps => if splitsAt mode b c then [b] :: p :: ps else (b :: p) :: ps
    | _, ps => [b] :: ps

/-- The rank of a pair of tokens. -/
def rankOf (t : Tokeniser) (a b : Nat) : Option Nat := t.merges.findIdx? (· == (a, b))

/-- The number of a byte string in the vocabulary. The spec gives no number to one that is not in it: it is a free value of the
vocabulary and the string alone, so that equal inputs give equal tokens (R6). -/
def tokenOf (t : Tokeniser) (bs : List Byte) : Nat :=
  (t.vocab.findIdx? (· == bs)).getD (Config.unknownToken t.vocab bs % max 1 t.vocab.length)

/-- The lowest rank of the neighbouring pairs, with the leftmost place that has it. -/
def bestPair (t : Tokeniser) : Nat → List Nat → Option (Nat × Nat)
  | i, a :: b :: r =>
    match rankOf t a b, bestPair t (i + 1) (b :: r) with
    | some k, some (k', j) => if k ≤ k' then some (k, i) else some (k', j)
    | some k, none => some (k, i)
    | none, o => o
  | _, _ => none

/-- Merge until no pair has a rank; every merge makes the list shorter, so `fuel` is its length. -/
def mergeAll (t : Tokeniser) : Nat → List Nat → List Nat
  | 0, xs => xs
  | f + 1, xs =>
    match bestPair t 0 xs with
    | none => xs
    | some (_, i) =>
      let bytesOf (n : Nat) : List Byte := t.vocab.getD n []
      let m := tokenOf t (bytesOf (xs.getD i 0) ++ bytesOf (xs.getD (i + 1) 0))
      mergeAll t f (xs.take i ++ [m] ++ xs.drop (i + 2))

/-- Byte-level BPE of R316. -/
def tokenise (t : Tokeniser) (bs : List Byte) : List Nat :=
  (pieces t.splitMode bs).flatMap fun p => mergeAll t p.length (p.map fun b => tokenOf t [b])

/-- TOKENISE, R316, R317: a request that holds a place is tokenised, and the next waiting request takes the place. -/
def execTokenise (qp request : Nat) (s : State) : Host.Outcome State Fault Refusal :=
  match s.req? qp request with
  | none => .next s
  | some r =>
    match (look s.svc.models r.rec_.model).bind fun m =>
        (r.tokImage.orElse fun _ => look s.svc.tokenisers m.rec_.tokeniser).map fun t => (m, t) with
    | none => .next s
    | some (m, t) =>
      if !r.tokenising then .next s
      else
        let toks := tokenise t (r.rec_.input.map fun n => BitVec.ofNat 8 n)
        let s1 := s.modReq qp request fun r => { r with tokenising := false, tokens := toks }
        let s2 := match s1.svc.requests.find? fun x => x.waitingTok && !x.ended with
          | some x => s1.modReq x.qp x.rec_.request fun x => { x with waitingTok := false, tokenising := true }
          | none => s1
        if toks.any fun k => decide (m.rec_.vocab ≤ k) then .next (s2.failWith qp request stBadArg)
        else .next (s2.makeReady qp request)

/-! ### Sampling, R321 -/

/-- Indices of the `k` largest logits, by value descending and index ascending on ties. -/
def insertTop (z : Nat → Val) (i : Nat) : List Nat → List Nat
  | [] => [i]
  | j :: t => if (z j).lt (z i) then i :: j :: t else j :: insertTop z i t

/-- Order all indices. -/
def orderDesc (z : Nat → Val) (n : Nat) : List Nat := (List.range n).foldl (fun l i => insertTop z i l) []

/-- Running FP32 sums of a list. -/
def runningSums : Word → List Word → List Word
  | _, [] => []
  | a, p :: t => let b := addF32 a p; b :: runningSums b t

/-- sample of R321: the index of the sampled token. R321 gives none when no candidate is kept, or when the sums are NaN: it is a free
value then (log entry 160). -/
def sampleTok (r : ReqRec) (z0 : List Word) (pos w1 : Nat) : Nat :=
  let zs := z0.map fun w => match ofF32 w with | .nan => Val.inf true | v => v
  let z (i : Nat) : Val := zs.getD i (.inf true)
  let ord := orderDesc z zs.length
  let best := ord.headD 0
  if (ofF32 r.temperature).isZero ∨ r.topK = 1 ∨ z best = .inf true then best
  else
    let c := ord.take (if r.topK = 0 then 1024 else r.topK)
    let t := spRcp (ofF32 r.temperature)
    let y := c.map fun i => mulF32 (toF32 (z i)) t
    let y0 := y.headD 0
    let p := y.map fun v => if ofF32 v = .inf true then (0#32) else spExp (ofF32 (toF32 ((ofF32 v).add (ofF32 y0).neg)))
    let kept := (c.zip p).filter fun x => !((ofF32 x.2).lt (ofF32 r.minP))
    let ps := kept.map (·.2)
    let sums := match ps with | [] => [] | a :: rest => a :: runningSums a rest
    let cut := mulF32 r.topP (sums.getLastD 0)
    let n := (sums.findIdx fun v => !((ofF32 v).lt (ofF32 cut))) + 1
    let kept2 := kept.take n
    let sums2 := sums.take n
    let h := (philox r.seed (BitVec.ofNat 32 pos, BitVec.ofNat 32 w1, 0, 0x53414D50#32)).1.toNat / 256
    let target := toF32 ((Val.fin false h (-24)).mul (ofF32 (sums2.getLastD 0)))
    if ps.isEmpty ∨ (ofF32 (sums.getLastD 0)).isNan then Config.sampleIndex r z0 pos w1 % max 1 zs.length
    else match (kept2.zip sums2).find? fun x => (ofF32 target).lt (ofF32 x.2) with
    | some x => x.1.1
    | none => (kept2.getLastD (best, 0)).1

/-! ### The bytes of an adapter -/

/-- Parameters of an adapter: its bytes in its format. -/
def Adapter.params (a : Adapter) : Nat := if a.rec_.format = 0x02 then a.rec_.bytes else a.rec_.bytes / 2

/-- The working copy of an adapter in training: each master weight in its format, with RNE (R326). -/
def Adapter.working (a : Adapter) : List Byte :=
  a.elems.flatMap fun x =>
    leBytes (if a.rec_.format = 0x02 then 1 else 2) (((ffmt a.rec_.format).getD fBF16).round .rne false (ofF32 x.w)).1

/-- The bytes of an adapter: its working copy, or its image before its first committed step. -/
def State.adapterBytes (s : State) (a : Adapter) : List Byte := if a.elems.isEmpty then s.imageBytes a.image else a.working

/-- The master weights and moments of an adapter: before the first step each weight is its image's, exactly, and the moments are zero
(DESIGN CHOICE, log entry 138). -/
def State.elemsOf (s : State) (a : Adapter) : List AdamElem :=
  if a.elems.isEmpty then
    let bs := s.imageBytes a.image
    let w := if a.rec_.format = 0x02 then 1 else 2
    (List.range a.params).map fun i => { w := toF32 (decodeElem a.rec_.format (field bs (w * i) w)), m := 0, v := 0 }
  else a.elems

/-! ### Passes, R318 to R320 -/

/-- What the next pass does for a sequence: a prefill chunk of n tokens, a speculative step of k, or a decode step. -/
inductive SeqWork where
  | chunk (n : Nat) | spec (k : Nat) | decode
  deriving DecidableEq, Repr

/-- The work of a request in its next pass, R318, R320. -/
def State.workOf (s : State) (m : Model) (r : Request) : SeqWork :=
  let len := s.ctxLength r.context
  if r.chunked < r.tokens.length then .chunk (min m.rec_.chunk (r.tokens.length - r.chunked))
  else if m.rec_.draft ≠ 0xFFFF ∧ !r.rec_.noSpec ∧ r.produced.length + m.rec_.specK < r.rec_.maxNew ∧
      len + m.rec_.specK < m.rec_.maxContext then .spec m.rec_.specK
  else .decode

/-- The ready sequences of a model, oldest first. -/
def State.readySeqs (s : State) (model : Nat) : List Request :=
  let rs := s.svc.requests.filter fun r =>
    !r.ended && !r.inPass && r.rec_.model == model && r.readySince.isSome && !r.cancelled &&
      !(lookD s.svc.contexts r.context { model := 0 }).spilled
  rs.foldl (fun l r =>
    let (a, b) := l.span fun x => decide (x.readySince.getD 0 ≤ r.readySince.getD 0)
    a ++ [r] ++ b) []

/-- Choose sequences oldest first: at most Pass_Max, 4 chunks and 8 adapters. -/
def pickSeqs (chunk : Request → Bool) : Nat → List Request → List Request → List Request
  | _, acc, [] => acc
  | lim, acc, r :: t =>
    let ads := ((acc ++ [r]).filterMap fun x => if x.rec_.adapter = 0xFFFF then none else some x.rec_.adapter).eraseDups
    if lim ≤ acc.length then acc
    else if (chunk r ∧ 4 ≤ (acc.filter chunk).length) ∨ 8 < ads.length then pickSeqs chunk lim acc t
    else pickSeqs chunk lim (acc ++ [r]) t

/-- Rows that a sequence's tables lack of its first `len` tokens. -/
def State.rowsLacking (s : State) (ctx len : Nat) : Nat :=
  match look s.svc.contexts ctx with
  | none => 0
  | some k => len - planRowCount k.pages

/-- The pools of a model's sequences have a place. -/
def State.withPools (s : State) (model : Nat) : State := (s.placePools model).getD s

/-- The speculative rows of a sequence in a pass: of a decode step its newest token's, of a speculative step also its candidates' but the
last. The rows of a prefill chunk are committed rows (R281), which the commit appends (log entry 173). -/
def State.specRows (s : State) (m : Model) (r : Request) : Nat :=
  let len := s.ctxLength r.context
  match s.workOf m r with
  | .chunk _ => 0
  | .decode => s.rowsLacking r.context len
  | .spec k => s.rowsLacking r.context (len + k - 1)

/-- A sequence of a pass has its shadow entry. -/
def State.hasShadow (s : State) (ctx epoch : Nat) : Bool :=
  match (look s.svc.contexts ctx).bind (·.shadow) with
  | some x => x.1 == epoch
  | none => false

/-- Allocate the shadow entries of a pass's sequences that lack them (R292). None while one finds no room or waits for another epoch. -/
def State.passShadows (s : State) (m : Model) (p : Pass) : Option State :=
  (p.seqs.filterMap fun x => s.req? x.1 x.2).foldl (fun (o : Option State) r => o.bind fun s =>
    if s.hasShadow r.context p.epoch then some s else s.shadowAppend r.context p.epoch (s.specRows m r)) (some s)

/-- The weight formats that proboscis units compute with (R256, R305). -/
def probFormats : List Nat := [0x02, 0x03, 0x06, 0x07, 0x12, 0x13, 0x16]

/-- The proboscis operations that a pass of `b` sequences of a cool model issues: ceil(b / 4) for each weight matrix of those formats; other
matrices are read from outer memory by the cores (R305). -/
def State.matrixOps (s : State) (m : Model) (b : Nat) : List (Nat × Nat) :=
  if m.cls ≠ 2 then []
  else match look s.work.programs m.rec_.slot with
    | none => []
    | some p => (p.tensors.filter fun t => t.cls == 0 && decide (2 ≤ t.rank) && probFormats.contains t.format).map fun t => (t.id, (b + 3) / 4)

/-- Rows that a sequence has in a pass. -/
def SeqWork.rowCount : SeqWork → Nat
  | .chunk n => n
  | .spec k => k
  | .decode => 1

/-- The adapters of some sequences, each once: an adapter's slot in the pass is its place in this list (R318, R324; log entry 182). -/
def adaptersOf (seqs : List Request) : List Nat :=
  (seqs.filterMap fun r => if r.rec_.adapter = 0xFFFF then none else some r.rec_.adapter).eraseDups

/-- The index tensor of a pass: for each row the slot of its adapter, or −1 (R324). -/
def State.indexTensor (s : State) (m : Model) (seqs : List Request) : List Word :=
  seqs.flatMap fun r => List.replicate (s.workOf m r).rowCount
    (if r.rec_.adapter = 0xFFFF then 0xFFFFFFFF#32 else BitVec.ofNat 32 ((adaptersOf seqs).findIdx (· == r.rec_.adapter)))

/-- The working copies of some adapters (R327). -/
def State.workingOf (s : State) (ads : List Nat) : Tab (List Byte) :=
  ads.filterMap fun i => (look s.svc.adapters i).map fun a => (i, s.adapterBytes a)

/-- Form a pass of a model from its ready sequences, in an epoch of its own (R318, R319). -/
def State.formPass (s : State) (model : Nat) : State :=
  match look s.svc.models model with
  | none => s
  | some m =>
    let isChunk (r : Request) : Bool := match s.workOf m r with | .chunk _ => true | _ => false
    let seqs := pickSeqs isChunk m.rec_.passMax [] (s.readySeqs model)
    if !m.serves ∨ seqs.isEmpty ∨ 16 ≤ s.svc.passes.length then s
    else
      match s.openEpoch true with
      | none => s
      | some (s1, e) =>
        let p : Pass := {
          model := model, seqs := seqs.map fun r => (r.qp, r.rec_.request), epoch := e, ops := s.matrixOps m seqs.length
          adapters := adaptersOf seqs, index := s.indexTensor m seqs, working := s.workingOf (adaptersOf seqs) }
        let s2 := s1.onSvc fun v => { v with passes := put v.passes v.nextPass p, nextPass := v.nextPass + 1 }
        let s3 := s2.withPools model
        seqs.foldl (fun s r => s.modReq r.qp r.rec_.request fun r => { r with inPass := true, readySince := none })
          ((s3.passShadows m p).getD s3)

/-- PASS_FORM, R318: Pass_Max sequences of the model are ready. -/
def execPassForm (model : Nat) (s : State) : Host.Outcome State Fault Refusal :=
  match look s.svc.models model with
  | none => .next s
  | some m => if (s.readySeqs model).length < m.rec_.passMax then .next s else .next (s.formPass model)

/-- FILL_WAIT_EXPIRY, R318: the oldest ready sequence has waited Fill_Wait_Us. -/
def execFillWaitExpiry (model : Nat) (s : State) : Host.Outcome State Fault Refusal := .next (s.formPass model)

/-- Bytes of a token with Detok set (R312, R316). -/
def State.tokenBytes (s : State) (m : Model) (r : Request) (tok : Nat) : List Byte :=
  if r.rec_.detok then
    match look s.svc.tokenisers m.rec_.tokeniser with
    | some t => t.vocab.getD tok []
    | none => []
  else []

/-- The entries of one token: TOKEN, and BYTES for the bytes past the sixteenth. -/
def tokenEntries (ctx tok pos : Nat) (bs : List Byte) : List (List Byte) :=
  let part (i : Nat) : List Byte := (bs.drop (16 * i)).take 16
  streamEntry tok pos ctx kindToken stOk (part 0).length 0 (part 0) ::
    (List.range ((bs.length + 15) / 16 - 1)).map fun i =>
      streamEntry tok pos ctx kindBytes stOk (part (i + 1)).length 0 (part (i + 1))

/-- A token ends its request by R314: the stop tokens, then End_Token, then Max_New_Tokens and Max_Context. -/
def stopReason (m : Model) (r : Request) (tok len : Nat) : Option Nat :=
  if (r.rec_.stops.take r.rec_.stopCount).contains tok then some 0
  else if m.rec_.endToken ≠ 0xFFFFFFFF ∧ tok = m.rec_.endToken then some 4
  else if r.rec_.maxNew ≤ r.produced.length then some 1
  else if m.rec_.maxContext ≤ len then some 2
  else none

/-- Stream kept tokens one by one, up to the first that ends the request. -/
def State.keepTokens (s : State) (m : Model) (qp id : Nat) : List Nat → State
  | [] => s
  | tok :: t =>
    match s.req? qp id with
    | none => s
    | some r =>
      let pos := s.ctxLength r.context
      let s1 := (s.modReq qp id fun r =>
        { (tokenEntries r.context tok pos (s.tokenBytes m r tok)).foldl Request.push r with produced := r.produced ++ [tok] }).modContext
          r.context fun k => { k with length := k.length + 1 }
      match s1.req? qp id with
      | none => s1
      | some r1 =>
        match stopReason m r1 tok (pos + 1) with
        | some w => s1.endWith qp id stOk w
        | none => s1.keepTokens m qp id t

/-- The tokens that a speculative step keeps: those before the first candidate that differs, and the one after them (R320). -/
def keptOf : List Nat → List Nat → List Nat
  | s :: ss, t :: ts => if s = t then s :: keptOf ss ts else [s]
  | s :: _, [] => [s]
  | [], _ => []

/-- Cut at the first stop token, which is kept. -/
def cutAtStop (stop : Nat → Bool) : List Nat → List Nat
  | [] => []
  | t :: ts => if stop t then [t] else t :: cutAtStop stop ts

/-- The tokens that a speculative step of `k` candidates at length `len` keeps: the draft model's candidates are sampled with word 1 set
to 1, the target's tokens with word 0 (R320). -/
def stepTokens (m : Model) (r : Request) (x : SeqLogits) (len k : Nat) : List Nat :=
  let ts := (List.range k).map fun j => sampleTok r.rec_ (x.draft.getD j []) (len + j) 1
  let ss := (List.range k).map fun j => sampleTok r.rec_ (x.rows.getD j []) (len + j) 0
  let stop (t : Nat) : Bool := (r.rec_.stops.take r.rec_.stopCount).contains t ||
    (m.rec_.endToken != 0xFFFFFFFF && t == m.rec_.endToken)
  cutAtStop stop (keptOf ss ts)

/-- The rows of a sequence that the commit of its pass publishes: those of the tokens it keeps (R319); none of a poisoned or discarded
step (R315). -/
def State.acceptRows (s : State) (m : Model) (r : Request) (x : SeqLogits) : Nat :=
  let len := s.ctxLength r.context
  if x.poisoned then 0
  else match s.workOf m r with
    | .chunk _ => 0
    | .decode => s.specRows m r
    | .spec k => if r.cancelled then 0 else s.rowsLacking r.context (len + (stepTokens m r x len k).length - 1)

/-- The rows of a pass in the tables of its sequences (R281, R293, R319): the chunks' rows are appended, and of each shadow entry the accepted
rows are. None while an append waits. -/
def State.passRows (s : State) (m : Model) (p : Pass) (results : List SeqLogits) : Option State :=
  (p.seqs.filterMap fun x => (s.req? x.1 x.2).bind fun r => (results.find? fun y => y.qp == x.1 && y.request == x.2).map fun y => (r, y)).foldl
    (fun (o : Option State) x => o.bind fun s =>
      let len := s.ctxLength x.1.context
      match (if x.2.poisoned then none else some (s.workOf m x.1)) with
      | some (.chunk n) => s.appendCtx x.1.context (s.rowsLacking x.1.context (len + min n (m.rec_.maxContext - len)))
      | _ => some (s.endShadow x.1.context p.epoch (s.acceptRows m x.1 x.2))) (some s)

/-- What a committed pass does for one sequence (R314, R315, R318 to R320, R549). -/
def State.passSeq (s : State) (m : Model) (x : SeqLogits) (qp : Nat) : State :=
  match s.req? qp x.request with
  | none => s
  | some r =>
    let len := s.ctxLength r.context
    let sampled := match s.workOf m r with
      | .chunk n => if r.chunked + n < r.tokens.length then [] else x.rows
      | .decode => x.rows
      | .spec _ => x.draft ++ x.rows
    let nans := sampled.foldl (fun a row => a + (row.filter fun w => (ofF32 w).isNan).length) 0
    let s0 := s.onSvc fun v => { v with nanLogits := satAdd 64 v.nanLogits nans }
    let leave (s : State) : State :=
      match s.req? qp x.request with
      | none => s
      | some r1 =>
        let s1 := s.modReq qp x.request fun r => { r with inPass := false }
        if r1.cancelled then s1.endWith qp x.request stOk 3 else s1.makeReady qp x.request
    if x.poisoned then s.failWith qp x.request stPartial
    else match s.workOf m r with
    | .chunk n0 =>
      let n := min n0 (m.rec_.maxContext - len)
      let s1 := (s0.modContext r.context fun k => { k with length := k.length + n }).modReq qp
        x.request fun r => { r with chunked := r.chunked + n }
      if m.rec_.maxContext ≤ len + n then s1.endWith qp x.request stOk 2
      else if r.chunked + n < r.tokens.length then leave s1
      else leave (s1.keepTokens m qp x.request [sampleTok r.rec_ (x.rows.getD 0 []) (len + n) 0])
    | .decode =>
      leave (s0.keepTokens m qp x.request [sampleTok r.rec_ (x.rows.getD 0 []) len 0])
    | .spec k =>
      if r.cancelled then leave s
      else
        leave (s0.keepTokens m qp x.request (stepTokens m r x len k))

/-- Rows that a sequence's result must hold. -/
def rowsNeeded : SeqWork → Nat
  | .spec k => k
  | _ => 1

/-- Rows of the draft model that it must hold. -/
def draftNeeded : SeqWork → Nat
  | .spec k => k
  | _ => 0

/-- Close the epoch of a pass that failed; R319: it is formed again once with the same sequences, and a second failure ends
each of them with the status of the failed task's journal record. -/
def State.passFailed (s : State) (id : Nat) (p : Pass) : State :=
  let st := match s.tasksL.find? fun t => t.desc.epoch == p.epoch && t.firstStatus != 0 with
    | some t => t.firstStatus
    | none => stPartial
  let s1 := s.discardEpoch p.epoch stPartial
  let s2 := s1.onSvc fun v => { v with passes := del v.passes id }
  if p.retried then
    p.seqs.foldl (fun s x => s.failWith x.1 x.2 st) s2
  else match s2.openEpoch true with
    | some (s3, e) =>
      let p1 : Pass := { p with
        epoch := e, retried := true, ops := match look s3.svc.models p.model with | some m => s3.matrixOps m p.seqs.length | none => [] }
      let s4 := s3.onSvc fun v => { v with passes := put v.passes id p1 }
      match look s4.svc.models p.model with
      | some m => (s4.passShadows m p1).getD s4
      | none => s4
    | none => p.seqs.foldl (fun s x => s.failWith x.1 x.2 st) s2

/-- The results hold what every open sequence of a pass needs: the rows of its work, each of the vocabulary's length, or a poisoned row. -/
def State.passFits (s : State) (m : Model) (p : Pass) (results : List SeqLogits) : Bool :=
  (p.seqs.filterMap fun x => s.req? x.1 x.2).all fun r => results.any fun x => x.qp == r.qp && x.request == r.rec_.request &&
    (x.poisoned || (x.rows.length == rowsNeeded (s.workOf m r) && x.draft.length == draftNeeded (s.workOf m r) &&
      x.rows.all fun row => row.length == m.rec_.vocab))

/-- The tables of a pass's sequences as its commit leaves them; none while they wait. -/
def State.passTables (s : State) (m : Model) (p : Pass) (results : List SeqLogits) : Option State :=
  ((s.withPools p.model).passShadows m p).bind fun s => s.passRows m p results

/-- Each sequence of a pass takes its result. -/
def State.passSeqs (s : State) (m : Model) (p : Pass) (results : List SeqLogits) : State :=
  p.seqs.foldl (fun s x => match results.find? fun y => y.qp == x.1 && y.request == x.2 with
    | some y => s.passSeq m y x.1
    | none => s) s

/-- PASS_COMMIT, R319: the pass's sampling task is SPEC_DONE with these results, its adapters have been staged (R324), the proboscis
operations of a cool model's matrices have been issued (R305), its empty rows count (R283), and the stop conditions and the commit
follow; or its epoch was doomed or discarded. -/
def execPassCommit (pass : Nat) (results : List SeqLogits) (s : State) : Host.Outcome State Fault Refusal :=
  match look s.svc.passes pass with
  | none => .next s
  | some p =>
    match look s.work.epochs p.epoch, look s.svc.models p.model with
    | none, _ => .next (s.passFailed pass p)
    | some _, none => .next (s.passFailed pass p)
    | some e, some m =>
      if e.doomed then .next (s.passFailed pass p)
      else
        let staged := p.adapters.all fun a => match look s.svc.adapters a with | some x => x.staged | none => false
        let issued := p.ops.all (·.2 == 0)
        match s.passTables m p results with
        | none => .next s
        | some s0 =>
        let (s1, gens) := s0.commitAdmit p.epoch
        if !s.passFits m p results ∨ !staged ∨ !issued ∨ !s1.commitReady p.epoch gens then .next s
        else
          let s2 := s1.commitAct p.epoch [] gens
          let s3 := s2.passSeqs m p results
          .next (s3.onSvc fun v => { v with
            passes := del v.passes pass
            emptyRows := satAdd 64 v.emptyRows ((results.filter fun x => p.seqs.contains (x.qp, x.request)).map (·.emptyRows)).sum
            adapters := mapTab v.adapters fun i a => if p.adapters.contains i then { a with lastUsed := s.now } else a
            models := mapTab v.models fun i m => if i ≠ p.model then m else { m with
              passesRun := satAdd 64 m.passesRun 1, lastServed := s.now
              passTimes := (m.passTimes.filter fun t => decide (s.now < t + 1000000000)) ++ [s.now]
              served := (m.served.filter fun t => decide (s.now < t + 1000000000)) ++ List.replicate p.seqs.length s.now } })

/-- Write entries of a stream, R312, R313: 1 to 255 entries in order, with credit for each and none past the ring's end, in one
RDMA WRITE with immediate. -/
def State.writeStream (s : State) (qp request count : Nat) : State :=
  match s.streamOf qp request, look s.net.qps qp with
  | some r, some q =>
    let n0 := r.written
    let size := 2 ^ r.rec_.ringLog2
    let batch := r.entries.take count
    if count = 0 ∨ 255 < count ∨ r.entries.length < count ∨ size < n0 % size + count ∨
        !r.creditFor (n0 + count - 1) ∨ q.state ≠ .rts then s
    else
      let toks := (batch.filter fun e => field e.2 12 1 == kindToken).length
      let w : OutWrite := {
        work := .stream request n0 count, va := r.rec_.ringVa + 32 * (n0 % size)
        imm := some (count * 2 ^ 24 + n0 % 2 ^ 24), data := batch.flatMap (·.2) }
      let s1 := s.sendWrite qp w
      let s2 := s1.modStream qp request fun r => { r with entries := r.entries.drop count, written := r.written + count }
      let s3 := s2.onSvc fun v => match look v.models r.rec_.model with
        | some m => { v with models := put v.models r.rec_.model { m with tokensOut := satAdd 64 m.tokensOut toks } }
        | none => v
      s3.onSvc fun v => { v with requests := v.requests.filter fun x =>
        !(x.qp == qp && x.rec_.request == request && x.ended && x.entries.isEmpty) }
  | _, _ => s

/-- STREAM_WRITE. -/
def execStreamWrite (qp request count : Nat) (s : State) : Host.Outcome State Fault Refusal := .next (s.writeStream qp request count)

/-- End the open requests of some queue pairs with END, End_Reason 3 and DENIED; their streams are written as far as credits reach,
and no request of the queue pairs remains (R441, R583). -/
def State.endStreams (s : State) (qps : List Nat) : State :=
  let mine := s.svc.requests.filter fun r => qps.contains r.qp
  let s1 := (mine.filter fun r => !r.ended).foldl (fun s r => s.endWith r.qp r.rec_.request stDenied 3) s
  let s2 := mine.foldl (fun s r =>
    (List.range (r.entries.length + 1)).foldl (fun s _ => s.writeStream r.qp r.rec_.request 1) s) s1
  s2.onSvc fun v => { v with requests := v.requests.filter fun r => !qps.contains r.qp }

/-- CREDIT_TIMEOUT, R313: 10 s without credit for the next entry. -/
def execCreditTimeout (qp request : Nat) (s : State) : Host.Outcome State Fault Refusal :=
  match s.req? qp request with
  | none => .next s
  | some r => if r.creditSince.isNone ∨ r.inPass then .next s else .next (s.endWith qp request stTimeout 3)

/-- CONTEXT_IDLE_TIMEOUT, R314: a kept context unused for the idle time of the profile. -/
def execContextIdleTimeout (context : Nat) (s : State) : Host.Outcome State Fault Refusal :=
  match look s.svc.contexts context with
  | none => .next s
  | some k =>
    if k.kept ∧ !(s.svc.requests.any fun r => !r.ended && r.context == context) then .next (s.closeContext context)
    else .next s

/-! ### Models and residency -/

/-- Every request that waits for a model goes on, or ends with ERROR (R298, R304). -/
def State.modelReady (s : State) (model : Nat) (ok : Bool) : State :=
  (s.svc.requests.filter fun r => !r.ended && r.rec_.model == model && r.waitingModel).foldl (fun s r =>
    if ok then s.makeReady r.qp r.rec_.request else s.failWith r.qp r.rec_.request stBadArg) s

/-- Free space by R182 until an image of `n` bytes has room. -/
def State.roomForImage (s : State) (n : Nat) : State :=
  (List.range (s.work.placed.length + s.svc.models.length + 2 * s.svc.contexts.length)).foldl (fun s _ =>
    if (s.allocImage n).isSome then s else s.freeOnce.getD s) s

/-- MODEL_FETCH, R298, R301, R304: the weights of a model being loaded, or of a cold one that a request waits for, are fetched from its
window and digested, and become its image in outer memory; the fetch waits while no room can be made. -/
def execModelFetch (model : Nat) (weights : List Byte) (s : State) : Host.Outcome State Fault Refusal :=
  match look s.svc.models model with
  | none => .next s
  | some m =>
    let waits := s.svc.requests.any fun r => !r.ended && r.rec_.model == model && r.waitingModel
    if m.state = .removing ∨ (m.state = .ready ∧ (m.cls ≠ 3 ∨ !m.image.isEmpty ∨ !waits)) ∨ weights.length ≠ m.rec_.bytes then .next s
    else if shake256 weights ≠ m.rec_.digest then
      .next (((s.modModel model fun m => { m with state := .loadFailed }).logEvent .modelDigest { detail := model }).modelReady model false)
    else
      let s1 := s.roomForImage m.rec_.bytes
      match s1.allocImage m.rec_.bytes with
      | none => .next s
      | some im =>
        .next (((s1.modModel model fun m => { m with state := .ready, image := im }).writeImage im weights).modelReady model true)

/-- MODEL_STAGE, R304: a cold model that a request waits for, whose image has been fetched, becomes cool and serves it. -/
def execModelStage (model : Nat) (s : State) : Host.Outcome State Fault Refusal :=
  match look s.svc.models model with
  | none => .next s
  | some m =>
    let waits := s.svc.requests.any fun r => !r.ended && r.rec_.model == model && r.waitingModel
    if m.cls ≠ 3 ∨ m.state ≠ .ready ∨ !waits ∨ (m.image.isEmpty ∧ m.rec_.bytes ≠ 0) then .next s
    else .next ((s.modModel model fun m => { m with cls := 2, lastMove := s.now, lastServed := s.now }).modelReady model true)

/-- Bytes of usable slice capacity: the usable pages of enabled clusters (R302). -/
def State.sliceCapacity (s : State) : Nat :=
  let lost := (s.slices.filter fun p => p.1 < 32768 && !s.fenced (cdOf p.1)).foldl (fun a p => a + (192 - p.2.pagesUsable)) 0
  (s.enabledClusters * 64 * 192 - lost) * 0x10000

/-- Slice bytes that the models of some classes hold. -/
def State.modelBytes (s : State) (cls : Nat → Bool) : Nat :=
  (s.svc.models.filter fun p => cls p.2.cls).foldl (fun a p => a + p.2.rec_.bytes) 0

/-- The pinned models fit in 75 % of the usable capacity (R302). -/
def State.pinnedFits (s : State) (extra : Nat) : Bool := decide (4 * (s.modelBytes (· == 0) + extra) ≤ 3 * s.sliceCapacity)

/-- Pinned models that no longer fit become warm, lowest Weight first; each change is logged (R302). `fuel` bounds the models. -/
def State.unpin : Nat → State → State
  | 0, s => s
  | f + 1, s =>
    if s.pinnedFits 0 then s
    else
      let pins := s.svc.models.filter fun p => p.2.cls == 0
      let low := pins.foldl (fun (o : Option (Nat × Model)) p => match o with
        | none => some p
        | some q => if p.2.weight < q.2.weight then some p else some q) none
      match low with
      | none => s
      | some p => State.unpin f ((s.modModel p.1 fun m => { m with cls := 1 }).logEvent .modelUnpinned { detail := p.1 })

/-- Slice room left by pinned and warm models. -/
def State.sliceRoom (s : State) : Nat := s.sliceCapacity - s.modelBytes (fun c => c == 0 || c == 1)

/-- One cool model at its turn in the ranking: promoted into free room, or in place of a warm model that it has outranked for
100 ms (R303). -/
def State.rankOne (s : State) (i : Nat) : State :=
  match look s.svc.models i with
  | none => s
  | some m =>
    if m.cls ≠ 2 ∨ m.state ≠ .ready then s
    else if !s.mayMove m then s
    else if m.rec_.bytes ≤ s.sliceRoom then s.promote i
    else
      let sc := s.score i m
      let below := s.svc.models.filter fun p => p.2.cls == 1 &&
        (decide (s.score p.1 p.2 < sc) || (s.score p.1 p.2 == sc && decide (i < p.1))) &&
        decide (m.rec_.bytes ≤ s.sliceRoom + p.2.rec_.bytes)
      match below.foldl (fun (o : Option (Nat × Model)) p => match o with
          | none => some p
          | some q => if s.score p.1 p.2 < s.score q.1 q.2 then some p else some q) none with
      | none => s.modModel i fun m => { m with outrankSince := none }
      | some w =>
        match m.outrankSince with
        | none => s.modModel i fun m => { m with outrankSince := some s.now }
        | some t =>
          if s.now < t + 100000000 ∨ !s.mayMove w.2 then s
          else (s.demote w.1).promote i

/-- RESIDENCY_RANK, R303: the cool models in falling order of score, the lower Model_Id first on ties. -/
def execResidencyRank (s : State) : Host.Outcome State Fault Refusal :=
  let cool := s.svc.models.filter fun p => p.2.cls == 2
  let ord := cool.foldl (fun l p =>
    let (a, b) := l.span fun q => decide (s.score p.1 p.2 ≤ s.score q.1 q.2)
    a ++ [p] ++ b) ([] : List (Nat × Model))
  .next (ord.foldl (fun s p => s.rankOne p.1) s)

/-! ### Adapters and fine-tuning -/

/-- Drop staged adapters from slices, least recently used first and none that a pass in flight uses, until a budget holds. `fuel` bounds
the adapters. -/
def Service.trimAdapters (budget : Nat) : Nat → Service → Service
  | 0, v => v
  | f + 1, v =>
    let st := v.adapters.filter fun p => p.2.staged
    if st.foldl (fun a p => a + p.2.rec_.bytes) 0 ≤ budget then v
    else
      let idle := st.filter fun p => !(v.passes.any fun q => q.2.adapters.contains p.1)
      match idle.foldl (fun (o : Option (Nat × Adapter)) p => match o with
          | none => some p
          | some q => if p.2.lastUsed < q.2.lastUsed then some p else some q) none with
      | none => v
      | some p => Service.trimAdapters budget f { v with adapters := put v.adapters p.1 { p.2 with staged := false, slices := [] } }

/-- Room for `n` bytes in the first slice that has it. -/
def State.anySlice (s : State) (n : Nat) : Option Nat := (List.range 32768).findSome? fun c => s.allocSlice c n

/-- Give an adapter `n` bytes in slices. None when no slice has room. -/
def State.stagePart (s : State) (adapter n : Nat) : Option State :=
  match s.anySlice n, look s.svc.adapters adapter with
  | some a, some x => some (s.onSvc fun v => { v with adapters := put v.adapters adapter { x with slices := x.slices ++ [(a, n)] } })
  | _, _ => none

/-- Give an adapter `n` bytes in slices, in parts of at most 1 MiB. -/
def State.stageSlices (s : State) (adapter n : Nat) : Option State :=
  (List.range ((n + 0xFFFFF) / 0x100000)).foldl (fun (o : Option State) i => o.bind fun s =>
    s.stagePart adapter (min 0x100000 (n - 0x100000 * i))) (some s)

/-- An adapter counts as staged and used now; others leave slices until the budget of the profile holds. -/
def State.touchAdapter (s : State) (adapter : Nat) (a : Adapter) : State :=
  s.onSvc fun v => ({ v with adapters := put v.adapters adapter { a with staged := true, lastUsed := s.now } } : Service).trimAdapters
    (leNat (s.profNow 0x02000005) * 2 ^ 20) v.adapters.length

/-- ADAPTER_STAGE, R324: an adapter that a pass uses is staged from its image, or as its working copy, into slices, within the budget of the
profile; while no slice has room it waits. -/
def execAdapterStage (pass adapter : Nat) (s : State) : Host.Outcome State Fault Refusal :=
  match look s.svc.passes pass, look s.svc.adapters adapter with
  | some p, some a =>
    if !p.adapters.contains adapter then .next s
    else
      let s1 := s.touchAdapter adapter a
      if a.staged then .next s1
      else match s1.stageSlices adapter a.rec_.bytes with
      | none => .next s
      | some s2 => .next (s2.writeImage (match look s2.svc.adapters adapter with | some x => x.slices | none => []) (s.adapterBytes a))
  | _, _ => .next s

/-- A committed optimiser step t of an adapter: master weights and moments by R326, published together with the working copy. -/
def Adapter.optimise (a : Adapter) (j : FtJob) (t : Nat) (old : List AdamElem) (grads : List Word) : Adapter :=
  { a with
    step := a.step + 1
    elems := (old.zip grads).map fun x => adamw j.lr j.beta1 j.beta2 j.eps j.lambda t x.1 x.2 }

/-- FINETUNE_STEP, R326, R327: while fewer than 8 passes are in flight a step runs in an epoch of its own, which is committed
with the optimiser's results when the step succeeds. A failed step is retried once; then the job stops at its last committed
step. The gradients, one FP32 word for each parameter, are what the backward pass of the model's program left. -/
def execFinetuneStep (adapter : Nat) (ok : Bool) (grads : List Word) (s : State) : Host.Outcome State Fault Refusal :=
  match look s.svc.fts adapter, look s.svc.adapters adapter with
  | some j, some a =>
    if j.stopped ∨ j.job.steps ≤ j.step ∨ 8 ≤ s.svc.passes.length ∨ (ok ∧ grads.length ≠ a.params) then .next s
    else
      match s.openEpoch true with
      | none => .next s
      | some (s1, e) =>
        if ok then
          let s2 := s1.commitAct e [] []
          .next (s2.onSvc fun v => { v with
            fts := put v.fts adapter { j with
              step := j.step + 1, retried := false, stopped := decide (j.job.steps ≤ j.step + 1) }
            adapters := put v.adapters adapter (a.optimise j.job (j.step + 1) (s.elemsOf a) grads) })
        else
          .next ((s1.discardEpoch e stPartial).onSvc fun v => { v with
            fts := put v.fts adapter (if j.retried then { j with stopped := true } else { j with retried := true }) })
  | _, _ => .next s

/-! ### The placer's own steps -/

/-- The smallest page size that holds n tokens, R289. -/
def pageLog2 (n : Nat) : Nat := ((List.range 10).map (· + 4)).find? (fun l => decide (n ≤ 2 ^ l)) |>.getD 13

/-- Merge `count` entries of a table from `at_` on into a page of `total` tokens: the rows move in order, and a move raises the instar
(R179, R294). None without room, or where the pages differ in Scale, whose rows no one page can hold as they are (DESIGN CHOICE, log
entry 180). -/
def State.mergeTable (s : State) (t : KvTable) (at_ count log2 : Nat) (run : List (Nat × Nat)) : Option (State × KvTable) :=
  let old := (t.bases.drop at_).take count
  let infos := old.filterMap (look s.work.kvPages)
  let scale := (infos.map (·.scale)).headD 0
  let top := (infos.map (·.instar)).foldl max 0
  if infos.length ≠ count ∨ infos.any (·.scale != scale) then none
  else (s.allocKv t log2 (some scale)).map fun x =>
    let row := match s.poolOf t with | some p => p.1 | none => 0
    let s1 := ((old.zip (run.map (·.2))).foldl (fun (a : State × Nat) p =>
      (a.1.copyData p.1 a.2 (p.2 * row) 0, a.2 + p.2 * row)) (x.1, x.2)).1
    let s2 := (s1.onMem fun m => m.raiseInstars x.2 1 0).onWork fun w => { w with
      kvPages := mapTab w.kvPages fun a p => if a = x.2 then { p with instar := (top + 1) % 2 ^ 32 } else p }
    (old.foldl State.dropPage s2, { t with bases := t.bases.take at_ ++ [x.2] ++ t.bases.drop (at_ + count) })

/-- Waves of tasks that read or write a sequence's pools are in flight. -/
def State.kvBusy (s : State) (k : Context) : Bool :=
  k.tables.any fun t => s.inUse { slot := t.slot, tensor := t.pool, inst := 0 }

/-- Merge consecutive private entries of a plan between waves, R179, R289: eight full pages of 1,024 when the table would pass 1,024
entries, or pages that are not full when more than four stand in the table. -/
def State.mergePages (s : State) (ctx at_ count log2 : Nat) : State :=
  match look s.svc.contexts ctx with
  | none => s
  | some k =>
    let run := (k.pages.drop at_).take count
    let total := planRowCount run
    let notFull := (k.pages.drop k.prefixPages).filter fun p => decide (p.2 < 2 ^ p.1)
    let eight := decide (count = 8) && run.all (fun p => p.1 == 10 && p.2 == 1024) && decide (log2 = 13) &&
      decide (1024 ≤ k.pages.length)
    let small := decide (2 ≤ count) && run.all (fun p => decide (p.2 < 2 ^ p.1)) && decide (4 < notFull.length) &&
      decide (total ≤ 8192) && decide (log2 = pageLog2 total)
    if run.length ≠ count ∨ at_ < k.prefixPages ∨ (!eight && !small) ∨ k.spilled ∨ s.kvBusy k then s
    else
      let r := k.tables.foldl (fun (o : Option (State × List KvTable)) t => o.bind fun x =>
        (x.1.mergeTable t at_ count log2 run).map fun z => (z.1, x.2 ++ [z.2])) (some (s, []))
      match r with
      | none => s
      | some x => (x.1.modContext ctx fun k => { k with
          pages := k.pages.take at_ ++ [(log2, total)] ++ k.pages.drop (at_ + count), tables := x.2 }).syncTables ctx fun e =>
            if e = at_ then some total else none

/-- The template of a task. -/
def State.templateOf (s : State) (t : Task) : Option Template :=
  (look s.work.programs t.desc.slot).bind fun p => p.templates.find? (·.id == t.desc.template)

/-- The clusters chosen for a task are enabled, distinct, and from Width_Min to Width_Max (R177). -/
def State.clustersOk (s : State) (t : Task) (cds : List Nat) : Bool :=
  !cds.isEmpty && cds.all (fun cd => decide (cd < 512) && !s.fenced cd) && decide cds.Nodup &&
    (match s.templateOf t with
     | some m => decide (m.widthMin ≤ cds.length) && decide (cds.length ≤ m.widthMax)
     | none => true)

/-- One decision of the placer, R177 to R183, R289; one that breaks a rule changes nothing. Space is freed in the order of R182: a step
is taken only where no earlier one is left. -/
def State.placerAct (s : State) : PlacerAct → State
  | .setClusters task cds => s.modTask task fun t => if s.clustersOk t cds then { t with cds := cds, width := cds.length } else t
  | .dropReplica h shard =>
    match (s.work.placed.filter fun p => p.handle = h && p.shard == shard && decide (0 < p.replica)).getLast? with
    | none => s
    | some p => if s.inUse p.handle then s else s.onWork fun w => { w with placed := w.placed.filter (· != p) }
  | .demote model =>
    if s.freeReplica.isNone ∧ s.freeWarm = some model then s.demote model
    else if s.freeReplica.isNone ∧ s.freeWarm.isNone ∧ s.freeCool = some model then s.dropImage model
    else s
  | .spill ctx toHost =>
    if s.freeReplica.isSome ∨ s.freeWarm.isSome then s
    else if toHost then (if s.freeIdle.isNone ∧ s.freeSpill = some ctx then s.spillCtx ctx else s)
    else if s.freeIdle = some ctx then s.lowerPools ctx
    else s
  | .restore ctx => s.restoreCtx ctx
  | .rotate task n => s.modTask task fun t =>
      let sets := (t.cds.filter (s.equalFor t (t.cds.headD 0))).length
      if sets < 2 ∨ n ≠ t.cds.length / sets then t else { t with cds := t.cds.rotateLeft n }
  | .mergePages ctx a n l => s.mergePages ctx a n l

/-- The remaining waves of running tasks leave fenced clusters (R183). -/
def State.leaveFenced (s : State) : State :=
  s.onWork fun w => { w with tasks := mapTab w.tasks fun _ t =>
    if t.state.final then t
    else
      let live := t.cds.filter fun cd => !s.fenced cd
      let want := t.cds.length
      let more := (List.range 512).filter fun cd => !s.fenced cd && !t.cds.contains cd
      if live.length = want then t else { t with cds := (live ++ more).take want } }

/-- PLACER_RECOMPUTE, R183: the remaining waves of running tasks leave fenced clusters, then the placer's decisions. -/
def execPlacerRecompute (acts : List PlacerAct) (s : State) : Host.Outcome State Fault Refusal :=
  .next (acts.foldl State.placerAct s.leaveFenced).settle

end Sys2Proof.Machine
end

