-- ==== Sys2Proof/Machine/Fence.lean ====
section
/-!
DEFINITION. Fencing a cluster (R562 to R564, R162, R345, R590) and making a package unusable (R245, R559), the two ways that
a part of the module leaves service for good.
-/

namespace Sys2Proof.Machine

/-! ### Data lost, R563, R559 -/

/-- A placed shard lies in a region given by a predicate on its first address. -/
def State.placedIn (s : State) (lost : Nat → Bool) : List Placed := s.work.placed.filter fun p => lost p.addr

/-- The tensor is of class 0, weights. -/
def State.isWeights (s : State) (h : Handle) : Bool :=
  match (look s.work.programs h.slot).bind fun p => p.tensors.find? (·.id == h.tensor) with
  | some t => t.cls == 0
  | none => false

/-- Set the latest generation of an instance BROKEN with its data lost, and end its consumers (R153, R566). -/
def State.breakInstance (s : State) (h : Handle) : State :=
  (s.onWork fun w => w.modEntry h fun r =>
    { r.modGen r.gen fun g => { g with state := .broken } with dataLost := true }).settle

/-- What a lost weight shard can be placed again from: a copy that survives, otherwise its part of the model's image in outer memory
(R301, R563). -/
def State.sourceOf (s : State) (p : Placed) (lost : Nat → Bool) : List (Nat × Nat) :=
  match s.work.placed.find? fun q => q.handle = p.handle && q.shard == p.shard && !lost q.addr with
  | some q => [(q.addr, q.bytes)]
  | none =>
    match look s.work.programs p.handle.slot with
    | some pr => (s.weightPart pr p.handle p.shard p.bytes).filter fun x => !lost x.1
    | none => []

/-- Place a lost weight shard again from its source, where there is one and room for it. -/
def State.replace (s : State) (p : Placed) (lost : Nat → Bool) : State :=
  let part := s.sourceOf p lost
  match if (part.map (·.2)).sum = p.bytes ∧ !part.isEmpty then s.allocAny p.bytes else none with
  | none => s
  | some a => (s.copyParts part a).onWork fun w => { w with
      placed := w.placed.map fun q => if q = p then { q with addr := a } else q }

/-- Number the replicas of each shard from 0 in their order. -/
def renumber (ps : List Placed) : List Placed :=
  ps.zipIdx.map fun p => { p.1 with
    replica := ((ps.take p.2).filter fun q => decide (q.handle = p.1.handle) && q.shard == p.1.shard).length }

/-- Lose the contents of a region: weights with a replica or an image are placed again (`rescue`: R563; R559 sets every instance with
data in a failed package BROKEN), every other instance is BROKEN, contexts with a page there end with NOT_READY, and epochs with a shadow
page there are discarded. Answers the instances made BROKEN and whether anything was lost. -/
def State.loseRegion (s : State) (rescue : Bool) (lost : Nat → Bool) : State × Nat × Bool :=
  let s1 := if rescue then ((s.placedIn lost).filter fun p => p.replica == 0 && s.isWeights p.handle).foldl
    (fun s p => s.replace p lost) s else s
  let safe (p : Placed) : Bool := rescue && s1.isWeights p.handle &&
    s1.work.placed.any fun q => q.handle = p.handle && q.shard == p.shard && !lost q.addr
  let broken := (((s1.placedIn lost).filter fun p => !safe p).map (·.handle)).eraseDups
  let s2 := broken.foldl State.breakInstance s1
  let ctxs := (s2.svc.contexts.filter fun k => k.2.held.any lost).map (·.1)
  let s3 := ctxs.foldl (fun s c =>
    ((s.svc.requests.filter fun r => !r.ended && r.context == c).foldl
      (fun s r => s.failWith r.qp r.rec_.request stNotReady) s).closeContext c) s2
  let epochs := ((s3.work.shadows.filter fun x => lost x.page).map (·.epoch)).eraseDups
  let s4 := epochs.foldl (fun s e => s.discardEpoch e stDenied) s3
  let s5 := s4.onWork fun w => { w with placed := renumber (w.placed.filter fun p => !lost p.addr) }
  (s5, broken.length, decide (broken.length + ctxs.length + epochs.length ≠ 0))

/-! ### Packages, R245, R559 -/

/-- Package m becomes unusable: PACKAGE_FAILED, the retirement table, its instances BROKEN, and models with an image in it are
staged again from their windows, a cold one when a request next waits for it (R559, R304). -/
def State.failPackage (s : State) (m : Nat) : State :=
  if (s.outer m).failed then s
  else
    let s1 := s.modOuter m fun o => { o with failed := true, trained := false, ops := [], running := [] }
    let s2 := s1.logEvent .packageFailed { ut := utOuter, ui := m }
    let s3 := (s2.onFw fun f => { f with toRetire := f.toRetire ++ [.package m] }).onLife fun l =>
      { l with failedPackages := l.failedPackages ||| (1#16 <<< m) }
    let lost (a : Nat) : Bool := match place a with | .outer k _ => k == m | _ => false
    let (s4, _, _) := s3.loseRegion false lost
    s4.onSvc fun v => { v with models := mapTab v.models fun _ x =>
      if (x.image.any fun p => lost p.1) then
        { x with image := [], state := if x.state = .ready ∧ x.cls ≠ 3 then .loading else x.state }
      else x }

/-! ### Clusters, R562 -/

/-- The credits that a cluster's router holds of a package: 1 at cold start (R338). -/
def Outer.heldBy (o : Outer) (h start : Nat) : Nat := lookD o.holders h start

/-- A cluster's credits of every package return to the pools (R338). -/
def State.returnCredits (s : State) (cd : Nat) : State :=
  (List.range 12).foldl (fun s m => s.modOuter m fun o =>
    { o with pool := o.pool + o.heldBy cd 1, holders := put o.holders cd 0 }) s

/-- The wave running on a cluster ends with the cluster (R562 step 2): by its dispatcher's report, or all of the share as
failed when the dispatcher no longer answers. -/
def State.fenceWave (s : State) (cd status : Nat) (answers : Bool) : State :=
  match (s.cluster cd).wave with
  | none => s
  | some (id, num) =>
    let s0 := s.modTask id fun t => { t with stopping := true }
    if answers then s0.stopCluster cd status
    else
      match (s0.task? id).bind fun t => t.waves.find? (·.num == num) with
      | none => s0.modCluster cd fun k => { k with wave := none }
      | some w =>
        let cs := waveCores w cd
        let s1 := cs.foldl (fun s c => s.modCore c.1 fun k => k.halt) s0
        let s2 := (s1.modCluster cd fun k => { k with wave := none }).modTask id fun t => { t with
          waves := t.waves.map fun x => if x.num = num then { x with finished := insertSet x.finished cd } else x }
        s2.emit (.token id num cd {
          done := 0, failed := cs.length, firstFailed := (cs.map (·.2)).headD 0xFFFFFF, firstStatus := status, clusters := 1 })

/-- The clusters left to a task without one: when none of its own is left, the placer gives it another that is enabled (R177, R183). -/
def State.leftFor (s : State) (t : Task) (cd : Nat) : List Nat :=
  let l := t.cds.filter (· != cd)
  if l.isEmpty then ((List.range 512).find? fun x => !s.fenced x).toList else l

/-- Shares that waves have not yet begun on a cluster move to a later wave (R183, R564): an empty token stands for the share
in its wave, and its partitions start as a wave of their own on the clusters that remain. With no enabled cluster on the module
they fail with NOT_READY. -/
def State.moveShares (s : State) (cd : Nat) : State :=
  s.tasksL.foldl (fun s t =>
    let s1 := t.waves.foldl (fun s w =>
      if !w.cds.contains cd || w.started.contains cd then s
      else
        let cs := waveCores w cd
        let lo := (cs.map (·.2)).headD 0
        let n := max 1 w.nc
        let use := (s.leftFor t cd).take (clustersFor cs.length n)
        let none_ := cs.isEmpty || use.isEmpty
        let s1 := s.modTask t.id fun t => { t with
          waves := (t.waves.map fun x => if x.num = w.num then
              { x with started := insertSet x.started cd, finished := insertSet x.finished cd,
                       moved := if use.isEmpty then x.moved else x.moved ++ [(lo, lo + cs.length)] } else x) ++
            (if none_ then [] else
              [({ num := t.nextWave, first := lo, count := cs.length, nc := n, cds := use,
                  nodes := waveTree use (spansDies t.cds) } : Wave)])
          nextWave := if none_ then t.nextWave else t.nextWave + 1 }
        s1.emit (.token t.id w.num cd (if use.isEmpty then
            { done := 0, failed := cs.length, firstFailed := lo, firstStatus := stNotReady, clusters := 1 }
          else { done := 0, failed := 0, clusters := 1 }))) s
    s1.modTask t.id fun t => if t.state.final ∨ !t.cds.contains cd then t else { t with cds := s1.leftFor t cd }) s

/-- The condition grade, R590: 0 A, 1 B, 2 C, 3 D. -/
def State.pagesLost (s : State) : Nat :=
  (s.slices.filter fun p => p.1 < 32768 && !s.fenced (cdOf p.1)).foldl (fun a p => a + (192 - p.2.pagesUsable)) 0
def State.grade (s : State) : Nat :=
  let n := s.enabledClusters
  let g := if n = 512 then 0 else if 504 ≤ n then 1 else if 480 ≤ n then 2 else 3
  let worse := s.outers.any (fun p => p.1 < 12 && p.2.degraded) || decide (4096 ≤ s.pagesLost)
  if s.failedPackages ≠ 0 then 3 else min 3 (if worse then g + 1 else g)

/-- Fence a cluster for a CLUSTER-class event, R562 to R564, R174. A fenced cluster stays as it is. -/
def State.fenceCluster (s : State) (cd : Nat) (ev : Ev) (answers : Bool) : State :=
  if s.fenced cd then s
  else
    let status := if ev = .dispatchLost then stTimeout else stPartial
    let idx := s.log.next
    let wave := (s.cluster cd).wave
    let s1 := s.modCluster cd fun k => { k with
      fenced := true, clk := .stopped, goal := .stopped, restarting := false, gateOpen := false, gateClosing := false
      gatePending := false
      dom := if k.dom = .on ∨ k.dom = .rampUp ∨ k.dom = .rampDown then .rampDown else .fenced
      domPending := false, ramp := if k.dom = .on then 16 else k.ramp }
    let s2 := s1.logEvent ev {
      ut := utCluster, ui := cd, status := if ev = .dispatchLost then stTimeout else 0, detail := s1.enabledClusters
      task := match wave with | some (id, _) => id | none => 0 }
    let s3 := match wave with
      | some (id, _) => s2.modTask id fun t => { t with errorRef := if t.errorRef = 0xFFFFFFFF then idx else t.errorRef }
      | none => s2
    -- Fenced counts the clusters of a task that are fenced while it runs (R184)
    let s3 := s3.onWork fun w => { w with tasks := mapTab w.tasks fun _ t =>
      if t.state = .running ∧ t.cds.contains cd then { t with fenced := t.fenced + 1 } else t }
    let s4 := (s3.fenceWave cd status answers).moveShares cd
    let s5 := match wave.bind fun x => s4.task? x.1 with
      | some t => if t.desc.epoch = 0 then s4 else s4.discardEpoch t.desc.epoch stDenied
      | none => s4
    let s6 := ((s5.abortPackets cd).returnCredits cd).alert alFence
    let s7 := (s6.onLife fun l => { l with fencedClusters := satAdd 16 l.fencedClusters 1 }).onFw fun f =>
      { f with toRetire := f.toRetire ++ [.fence cd] }
    let lost (a : Nat) : Bool := match place a with | .slice c _ => cdOf c == cd | _ => false
    let (s8, n, any) := s7.loseRegion true lost
    let s9 := if any then s8.logEvent .clusterDataLost { ut := utCluster, ui := cd, detail := n } else s8
    s9.unpin s9.svc.models.length

/-- The CLUSTER-class events of R553. -/
def clusterEvent (code : Nat) : Option Ev :=
  [Ev.dispatchLost, .clusterFwFail, .checkerFail, .selftestFail, .ctrlRestartLimit, .sliceFail, .domainFail].find? fun e =>
    e.code == code

/-- CLUSTER_FENCE, R562. -/
def execClusterFence (cd event : Nat) (dispatcherAnswers : Bool) (s : State) : Host.Outcome State Fault Refusal :=
  match clusterEvent event with
  | none => .next s
  | some e => .next (s.fenceCluster cd e dispatcherAnswers)

/-- HEARTBEAT_TIMEOUT, R162, R562: 50 ms without a token or heartbeat from a dispatcher that holds a wave. -/
def execHeartbeatTimeout (cd : Nat) (s : State) : Host.Outcome State Fault Refusal :=
  if (s.cluster cd).wave.isNone then .next s else .next (s.fenceCluster cd .dispatchLost false)

end Sys2Proof.Machine
end

