-- ==== Sys2Proof/Machine/Slices.lean ====
section
/-!
DEFINITION. Private slices (chapter 05): burst requests and slots, write-back, refresh, fill, self-test, scrubbing and
retirement (R194 to R215, R222, R223).
-/

namespace Sys2Proof.Machine

/-! ### Burst requests, R194 to R199 -/

/-- Carry out a read or a write of memory for an agent and answer it. -/
def State.serve (s : State) (g : Agent) (a len : Nat) (acc : Access) : State :=
  match acc with
  | .read =>
    let (s1, bs, ps) := s.readRange a len
    (s1.emit (.data g bs ps)).reply g stOk
  | .write bs p => (s.writeRange a (bs.take len) (List.replicate (min len bs.length) p)).reply g stOk

/-- Length of a request: that of its data when it writes. -/
def accLen (len : Nat) : Access → Nat
  | .read => len
  | .write bs _ => bs.length

def isWrite : Access → Bool
  | .read => false
  | .write _ _ => true

/-- Record a request in the queue of the slice it goes to (R196). -/
def State.queueBurst (s : State) (r : SReq) : State :=
  match place r.addr with
  | .slice o _ => s.modSlice o fun sl => { sl with queue := sl.queue ++ [r] }
  | _ => s

/-- SLICE_BURST_REQUEST, R194, R196 to R198, R200 to R205: a core's request takes one of its 16 slots, and without a free one
it stays in its engine. Requests to a slice are carried out in the order in which they come; each stays in the slice's queue until it
completes, and those of external agents fill the queue of their bank. -/
def execSliceBurstRequest (from_ : Agent) (addr len : Nat) (acc : Access) (s : State) : Host.Outcome State Fault Refusal :=
  let n := accLen len acc
  let slot := match from_ with | .core c _ => lowestFree (s.core c).sliceSlots 16 | _ => some s.reqNo
  match slot with
  | none => .next s
  | some k =>
    let ans := s.answer from_ addr n (isWrite acc)
    let s1 := s.countBusy addr ans
    match ans with
    | .fault => .next (s1.accessFault from_ addr)
    | .status st => .next (s1.reply from_ st)
    | .go =>
      let s2 := match from_ with
        | .core c _ => s1.modCore c fun x => { x with sliceSlots := insertSet x.sliceSlots k }
        | _ => { s1 with reqNo := s1.reqNo + 1 }
      .next ((s2.queueBurst { id := k, agent := from_, addr := addr, len := n, write := isWrite acc }).serve from_ addr n acc)

/-- Take requests out of the queues of all slices. -/
def State.dropBursts (s : State) (p : SReq → Bool) : State :=
  { s with slices := mapTab s.slices fun _ sl => ({ sl with queue := sl.queue.filter fun r => !p r } : Slice) }

/-- The agents of the late requests get RESETTING; the slot that a core held for its request is free again. -/
def State.answerLate (s : State) : List SReq → State
  | [] => s
  | r :: late =>
    ((match coreOf r.agent with
      | some c => s.modCore c fun x => { x with sliceSlots := x.sliceSlots.filter (· != r.id) }
      | none => s).reply r.agent stResetting).answerLate late

/-- RESETTING_ANSWER_TIMEOUT, R341: the requests delivered before the reset and still unanswered, 256 of them at most, are answered
TARGET_RESETTING, and their slots are free. -/
def execResettingAnswerTimeout (cd : Nat) (s : State) : Host.Outcome State Fault Refusal :=
  if !(s.cluster cd).inReset then .next s
  else
    let late := ((s.slices.filter fun p => cdOf p.1 == cd).flatMap (·.2.queue)).take (s.cluster cd).delivered
    let s1 := (s.modCluster cd fun k => { k with
      resettingAnswers := satAdd 16 k.resettingAnswers late.length, delivered := 0 }).dropBursts late.contains
    .next (s1.answerLate late)

/-- SLICE_BURST_COMPLETE, R194: the data is usable 20 cycles, or the write is acknowledged, and the slot is released: an instruction of
the core that waits for one carries on. A request of another agent leaves the queue of slice `c`. -/
def execSliceBurstComplete (c : Nat) (r : BurstRef) (s : State) : Host.Outcome State Fault Refusal :=
  match r with
  | .slot k =>
    if !(s.core c).sliceSlots.contains k then .next s
    else
      let s1 := s.modCore c fun x => { x with sliceSlots := x.sliceSlots.filter (· != k) }
      .next (((s1.dropBursts fun r => r.id == k && coreOf r.agent == some c).wakeSlots c).completed c)
  | .entry k => .next (s.modSlice c fun sl => { sl with queue := sl.queue.filter fun r => !(r.id == k && coreOf r.agent == none) })

/-- CORRECTED_WRITE_BACK, R203: the codeword, if it is still one that the decoder corrects, is stored corrected; the instar does not change
(R216). -/
def execCorrectedWriteBack (c codeword : Nat) (s : State) : Host.Outcome State Fault Refusal :=
  if !(s.slice c).writeBacks.contains codeword then .next s
  else
    let s1 := match sliceDecode (s.mem.errsOf codeword) (s.mem.marked codeword) with
      | .ce _ => s.onMem fun m => m.clearFlips codeword
      | _ => s
    .next (s1.modSlice c fun sl => { sl with
      writeBacks := sl.writeBacks.filter (· != codeword), recentCe := put sl.recentCe codeword s.now })

/-! ### Refresh, fill, self-test -/

/-- Key of a layer of a quadrant of a stack in the table of steps. -/
def layerKey (stack quadrant layer : Nat) : Nat := stack * 16 + quadrant * 4 + layer

/-- SLICE_REFRESH, R222, R223: both banks of the layer are refreshed in every slice of the quadrant. -/
def execSliceRefresh (stack quadrant layer : Nat) (s : State) : Host.Outcome State Fault Refusal :=
  let k := layerKey stack quadrant layer
  .next (s.onHeat fun h =>
    let x : LayerSteps := lookD h.steps k {}
    { h with steps := put h.steps k { x with refreshes := x.refreshes + 1 } })

/-- SLICE_FILL, R206, R216: every slice reads zero, without marks, and every instar is zero. -/
def execSliceFill (s : State) : Host.Outcome State Fault Refusal :=
  if s.dev ≠ .filling then .next s
  else
    let s1 := s.onMem fun m => { m.clear 0 outerBase with instars := m.instars.filter fun p => decide (outerBase ≤ p.1) }
    let s2 : State := { s1 with slices := mapTab s1.slices fun _ sl =>
      ({ sl with writeBacks := [], recentCe := [], queue := [], scrubbed := [], scrubFrom := s.now } : Slice) }
    .next (s2.onFw fun f => { f with slicesFilled := true })

/-- The outcome that the table of R207 expects of a slice's decoder at pattern `n`: 2 data patterns, the 288 single bits and the 36 whole
symbols, each corrected at its symbol, 8 pairs and 4 triples of symbols, the poison pattern, and the 3 changes of an address symbol. -/
def sliceExpected (n : Nat) (o : CheckOut) : Bool :=
  if n < 2 then o == .data
  else if n < 290 then o == .corrected ((n - 2) / 8)
  else if n < 326 then o == .corrected (n - 290)
  else if n < 334 then o == .detected
  else if n < 338 then o == .detected || o == .poisoned
  else if n < 339 then o == .poisoned
  else o == .address

/-- The outcome that the table of R245 expects of a bus decoder at pattern `n`: 2 data patterns, the 576 single bits corrected at their
symbol, 16 pairs corrected, 16 sets of three to six symbols detected, pattern Q, and a command with bad parity. -/
def busExpected (n : Nat) (o : CheckOut) : Bool :=
  if n < 2 then o == .data
  else if n < 578 then o == .corrected ((n - 2) / 8)
  else if n < 594 then (match o with | .corrected _ => true | _ => false)
  else if n < 610 then o == .detected
  else if n < 611 then o == .poisoned
  else o == .nak

/-- The units that show another outcome than the expected one. -/
def checkFailures (expected : Nat → CheckOut → Bool) (seen : List CheckSeen) : List Nat :=
  ((seen.filter fun x => !expected x.pattern x.out).map (·.unit)).foldl insertSet []

/-- CHECKER_SELFTEST, R207, R208, R245: a controller that gives any other outcome than the expected one counts as a failed core, and its
cluster is fenced; a package whose controller or buffer does becomes unusable. The outcomes of the 342 and 612 patterns come with the
command; a unit and pattern it does not list shows what is expected. -/
def execCheckerSelftest (slices packages : List CheckSeen) (s : State) : Host.Outcome State Fault Refusal :=
  if s.dev ≠ .selftest ∨ s.fw.checkerDone then .next s
  else
    let failedSlices := checkFailures sliceExpected slices
    let failedPackages := checkFailures busExpected packages
    let s1 := s.onFw fun f => { f with checkerDone := true, checkFailed := failedSlices }
    let s2 := failedSlices.foldl (fun s c => s.fenceCluster (cdOf c) .checkerFail true) s1
    let s3 := (failedPackages.filter (· < 12)).foldl State.failPackage s2
    .next { s3 with outers := (List.range 12).foldl (fun t m =>
      if failedPackages.contains m then t else put t m { lookD t m {} with checkPass := true }) s3.outers }

/-! ### Scrubbing, R209, R210 -/

/-- The logical page that a place of the scrubber's walk holds: a populated page, or the one remapped to a spare. -/
def Slice.scrubPage (sl : Slice) (place : Nat) : Option Nat :=
  let p := if place < 192 then some place else sl.spares.getD (place - 192) none
  p.filter fun p => !sl.retired.contains p

/-- SCRUB_BURST, R209, R210: one burst of the walk over the populated pages and the spares, in a cycle in which the slice has no work.
A page counts as scrubbed with its last burst. -/
def execScrubBurst (c : Nat) (s : State) : Host.Outcome State Fault Refusal :=
  let sl := s.slice c
  if !sl.scrubEnable ∨ !sl.queue.isEmpty ∨ !sl.writeBacks.isEmpty ∨ !sl.copying.isEmpty ∨ s.fenced (cdOf c) then .next s
  else
    let pos := sl.scrubPos
    let page := sl.scrubPage (pos / 1024)
    let s1 := match page with
      | some p =>
        let a := sliceAddr c + p * 0x10000 + pos % 1024 * 64
        ((s.readCodeword c a).1.readCodeword c (a + 32)).1
      | none => s
    .next (s1.modSlice c fun sl =>
      let sl := if pos = 0 then { sl with lapStart := s.now } else sl
      let sl := match page with
        | some p => if pos % 1024 = 1023 then { sl with scrubbed := put sl.scrubbed p s.now } else sl
        | none => sl
      if pos + 1 < 196 * 1024 then { sl with scrubPos := pos + 1 }
      else { sl with
        scrubPos := 0, laps := (sl.laps + 1) % 65536, lastLapMs := min ((s.now - sl.lapStart) / 1000000) (2 ^ 24 - 1) })

/-- Seconds since the least recently scrubbed of `n` pages was scrubbed, saturating at 24 bits (R210, R226). -/
def scrubAgeOf (scrubbed : Tab Nat) (start n now : Nat) : Nat :=
  let oldest := if scrubbed.length < n then start else (scrubbed.map (·.2)).foldl min now
  min ((now - oldest) / 1000000000) (2 ^ 24 - 1)

/-- Oldest_Age of a slice, R210. -/
def Slice.oldestAge (sl : Slice) (now : Nat) : Nat :=
  scrubAgeOf (sl.scrubbed.filter fun p => !sl.retired.contains p.1) sl.scrubFrom (192 - sl.retired.length) now

/-- Oldest_Age of a package, R246. -/
def Outer.oldestAge (o : Outer) (now : Nat) : Nat :=
  scrubAgeOf (o.scrubbed.filter fun p => !o.retired.contains p.1) o.scrubFrom (65536 - o.retired.length) now

/-- SCRUB_AGE, R210, R246: Oldest_Age has passed the threshold of the profile. -/
def execScrubAge (u : RegUnit) (_due : Unit) (s : State) : Host.Outcome State Fault Refusal :=
  let limit := leNat (s.profNow 0x03000001)
  match u with
  | .slice c =>
    .next (if limit < (s.slice c).oldestAge s.now then (s.logEvent .scrubAge { ut := utSlice, ui := c }).alert alScrub else s)
  | .outer m =>
    .next (if limit < (s.outer m).oldestAge s.now then (s.logEvent .outerScrubAge { ut := utOuter, ui := m }).alert alScrub else s)
  | _ => .next s

/-! ### Retirement, R211 to R215, R247 to R249 -/

/-- An allocation covers part of a range: the placer's, a core's descriptor table, a journal mirror, the control page or a guest window
(R213). -/
def State.allocated (s : State) (a n : Nat) : Bool :=
  s.allocs.any (overlaps (a, n)) ||
    (match place a with
     | .outer m off => journalMirror m off || decide (65535 * 0x200000 < off + n)
     | .slice _ off => decide (descOffset < off + n)
     | _ => false) ||
    s.ident.guestWins.any fun w => overlaps (a, n) (w.2.base, w.2.size)

/-- Usable pages and free spares of a slice. -/
def Slice.recount (sl : Slice) : Slice :=
  { sl with
    pagesUsable := 192 - sl.retired.length
    sparesFree := ((List.range 4).filter fun i =>
      (sl.spares.getD i none).isNone && !sl.sparesLost.contains i && !(sl.copying.any fun x => x.2 == i)).length }

/-- The lowest-numbered free spare of a slice. -/
def Slice.freeSpare (sl : Slice) : Option Nat :=
  (List.range 4).find? fun i =>
    (sl.spares.getD i none).isNone && !sl.sparesLost.contains i && !(sl.copying.any fun x => x.2 == i)

/-- First address of a slice page. -/
def slicePageAddr (c page : Nat) : Nat := sliceAddr c + page * 0x10000

/-- A slice page leaves the populated part, R213. -/
def State.dropSlicePage (s : State) (c page : Nat) : State :=
  ((s.modSlice c fun sl =>
    { sl with retiring := sl.retiring.filter (· != page), retired := insertSet sl.retired page }.recount).onFw fun f =>
      { f with toRetire := f.toRetire ++ [.slicePage c page] }).onLife fun l =>
        { l with slicePagesRetired := satAdd 32 l.slicePagesRetired 1, slicePagesLost := satAdd 32 l.slicePagesLost 1 }

/-- A slice page enters Retiring, or leaves at once when it is empty (R213). -/
def State.retireEmptySlice (s : State) (c page : Nat) : State :=
  if (s.slice c).retired.contains page then s
  else if s.allocated (slicePageAddr c page) 0x10000 then s.modSlice c fun sl => { sl with retiring := insertSet sl.retiring page }
  else s.dropSlicePage c page

/-- Retire a slice page, R212, R213. -/
def State.retireSlicePage (s : State) (c page : Nat) : State :=
  match (s.slice c).freeSpare with
  | some i => s.modSlice c fun sl => { sl with copying := sl.copying ++ [(page, i)] }.recount
  | none => s.retireEmptySlice c page

/-- The pages whose rows lie physically in a bank, R214. -/
def Slice.bankPages (sl : Slice) (bank : Nat) : List Nat :=
  let own := (List.range 24).map fun k => 8 * k + bank
  let here := own.filter fun p => !(sl.spares.any fun x => x == some p) && !sl.retired.contains p
  match (if bank % 2 = 1 then sl.spares.getD (bank / 2) none else none) with
  | some q => insertSet here q
  | none => here

/-- Retire a bank, R214. A copy in flight to the bank's spare ends with it, and its page is retired anew; a page of the bank that is being
copied to another spare goes on leaving the bank. -/
def State.retireBank (s : State) (c bank : Nat) : State :=
  let sl := s.slice c
  let lost := if bank % 2 = 1 then [bank / 2] else []
  let halted := (sl.copying.filter fun x => lost.contains x.2).map (·.1)
  let leaving := (sl.copying.filter fun x => !lost.contains x.2).map (·.1)
  let pages := (sl.bankPages bank).filter fun p => !leaving.contains p
  let s1 := s.modSlice c fun sl => { sl with
    bankRetired := sl.bankRetired ||| (1#8 <<< bank)
    copying := sl.copying.filter fun x => !lost.contains x.2
    sparesLost := lost.foldl insertSet sl.sparesLost }.recount
  let s2 := (s1.onFw fun f => { f with toRetire := f.toRetire ++ [.sliceBank c bank] }).onLife fun l =>
    { l with sliceBanksRetired := satAdd 32 l.sliceBanksRetired 1 }
  let s3 := (halted.filter fun p => !pages.contains p).foldl (fun s p => s.retireSlicePage c p) s2
  let s4 := pages.foldl (fun s p => s.retireEmptySlice c p) s3
  if 3 ≤ onesIn (s4.slice c).bankRetired.toNat 8 then s4.fenceCluster (cdOf c) .sliceFail true else s4

/-- Usable pages of a package: the lowest free spare. -/
def Outer.freeSpare (o : Outer) : Option Nat :=
  (List.range 16).find? fun i => (o.spares.getD i none).isNone && !(o.copying.any fun x => x.2 == i)

/-- At 1,024 retired pages the package is Degraded (R248). -/
def State.checkDegraded (s : State) (m : Nat) : State :=
  if 1024 ≤ (s.outer m).pagesRetired ∧ !(s.outer m).degraded then
    ((s.modOuter m fun o => { o with degraded := true }).logEvent .outerDegraded { ut := utOuter, ui := m }).onLife fun l =>
      { l with degradedPackages := l.degradedPackages ||| (1#16 <<< m) }
  else s

/-- An outer page leaves the placeable capacity (R248). -/
def State.dropOuterPage (s : State) (m page : Nat) : State :=
  let s1 := ((s.modOuter m fun o =>
    { o with retiring := o.retiring.filter (· != page), retired := insertSet o.retired page, pagesRetired := o.pagesRetired + 1 }).onFw
      fun f => { f with toRetire := f.toRetire ++ [.outerPage m page] }).onLife fun l =>
        { l with outerPagesRetired := satAdd 32 l.outerPagesRetired 1 }
  s1.checkDegraded m

/-- Retire an outer page, R247, R248. -/
def State.retireOuterPage (s : State) (m page : Nat) : State :=
  match (s.outer m).freeSpare with
  | some i => s.modOuter m fun o => { o with copying := o.copying ++ [(page, i)] }
  | none =>
    if s.allocated (outerAddr m + page * 0x200000) 0x200000 then s.modOuter m fun o => { o with retiring := insertSet o.retiring page }
    else s.dropOuterPage m page

/-- A page of a RETIRE is done: no copy of it runs and it is not in Retiring. -/
def State.pageDone (s : State) (tier unit page : Nat) : Bool :=
  if tier = 0 then !((s.slice unit).copying.any fun x => x.1 == page) && !(s.slice unit).retiring.contains page
  else !((s.outer unit).copying.any fun x => x.1 == page) && !(s.outer unit).retiring.contains page

/-- Complete the RETIRE commands whose pages are done (R213). -/
def State.retireDone (s : State) : State :=
  let done := s.ctl.retires.filter fun r => r.pages.all (s.pageDone r.tier r.unit)
  let s1 := done.foldl (fun s r => s.respond r.hdr 0x0603 stOk true 0 []) s
  s1.onCtl fun k => { k with retires := k.retires.filter fun r => !done.contains r }

/-- Copy a page to its spare: corrected codewords corrected, uncorrectable ones with the poison pattern (R212, R247). The logical
address stays, so only errors and marks change. -/
def State.healRange (s : State) (a n : Nat) : State :=
  (s.mem.flipUnits a n).foldl (fun s u =>
    match place u with
    | .slice c _ =>
      let (s1, bs, bad) := s.readCodeword c u
      s1.onMem fun m => ((m.write u bs).setMark u bad).clearFlips u
    | .outer m _ =>
      let (s1, bs, bad) := s.readOuterUnit m u
      s1.onMem fun m => ((m.write u bs).setMark u bad).clearFlips u
    | _ => s) s

/-- SPARE_COPY_DONE, R212: the remap entry is switched, and the instar stays. -/
def execSpareCopyDone (c page : Nat) (s : State) : Host.Outcome State Fault Refusal :=
  match (s.slice c).copying.find? fun x => x.1 == page with
  | none => .next s
  | some x =>
    let s1 := (s.healRange (slicePageAddr c page) 0x10000).modSlice c fun sl =>
      let old := sl.spares.findIdx? (· == some page)
      { sl with
        copying := sl.copying.filter (· != x)
        spares := (match old with | some i => sl.spares.set i none | none => sl.spares).set x.2 (some page)
        sparesLost := match old with | some i => insertSet sl.sparesLost i | none => sl.sparesLost
        writeBacks := sl.writeBacks.filter fun u => u / 0x10000 != slicePageAddr c page / 0x10000 }.recount
    .next ((s1.onFw fun f => { f with toRetire := f.toRetire ++ [.sliceRemap c page x.2] }).onLife fun l =>
      { l with slicePagesRetired := satAdd 32 l.slicePagesRetired 1 }).retireDone

/-- PAGE_EMPTIED, R213, R248: the placer has emptied a page in Retiring (tier 0 a slice page, 1 an outer page). -/
def execPageEmptied (tier unit page : Nat) (s : State) : Host.Outcome State Fault Refusal :=
  if tier = 0 then
    if (s.slice unit).retiring.contains page ∧ !s.allocated (slicePageAddr unit page) 0x10000 then
      .next (s.dropSlicePage unit page).retireDone
    else .next s
  else
    if (s.outer unit).retiring.contains page ∧ !s.allocated (outerAddr unit + page * 0x200000) 0x200000 then
      .next (s.dropOuterPage unit page).retireDone
    else .next s

/-- RETIREMENT_TABLE_WRITE, R215, R249, R345, R506, R562: the changes not yet written go to the table in flash. -/
def execRetirementTableWrite (s : State) : Host.Outcome State Fault Refusal :=
  .next (s.onFw fun f => { f with retired := (f.retired ++ f.toRetire).eraseDups, toRetire := [] })

end Sys2Proof.Machine
end

