-- ==== Sys2Proof/Machine/Reset.lean ====
section
/-!
DEFINITION. What survives a loss of power and a device reset (R16, R44, R464, R465, R550, R586, R588), the retirement table
applied to the units (R215, R249, R506), and the module with everything below the hub off (R517, R539).
-/

namespace Sys2Proof.Machine

/-- The table entries that name one page of a slice or bank, applied to the slice (R212 to R214). -/
def Slice.applyRetired (sl : Slice) : Retired → Slice
  | .sliceRemap _ page spare =>
    let old := sl.spares.findIdx? (· == some page)
    { sl with
      spares := (match old with | some i => sl.spares.set i none | none => sl.spares).set spare (some page)
      sparesLost := match old with | some i => insertSet sl.sparesLost i | none => sl.sparesLost }.recount
  | .slicePage _ page => { sl with retired := insertSet sl.retired page }.recount
  | .sliceBank _ bank =>
    { sl with
      bankRetired := sl.bankRetired ||| (1#8 <<< bank)
      sparesLost := if bank % 2 = 1 then insertSet sl.sparesLost (bank / 2) else sl.sparesLost }.recount
  | _ => sl

/-- A cluster fenced by the table, R506, R562: its domain is never powered. -/
def Cluster.applyFence (k : Cluster) : Cluster :=
  { k with fenced := true, dom := .fenced, clk := .stopped, goal := .stopped }

/-- One entry of the retirement table, applied to a module after a cold start. -/
def State.applyEntry (s : State) (r : Retired) : State :=
  match r with
  | .sliceRemap c _ _ => s.modSlice c fun sl => sl.applyRetired r
  | .slicePage c _ => s.modSlice c fun sl => sl.applyRetired r
  | .sliceBank c _ => s.modSlice c fun sl => sl.applyRetired r
  | .outerRemap m page i => s.modOuter m fun o =>
      -- a page that had a spare gives it up, and counts once
      let old := o.spares.findIdx? (· == some page)
      { o with
        spares := (match old with | some k => o.spares.set k none | none => o.spares).set i (some page)
        pagesRetired := if old.isSome then o.pagesRetired else o.pagesRetired + 1 }
  | .outerPage m page => s.modOuter m fun o =>
      { o with retired := insertSet o.retired page, pagesRetired := o.pagesRetired + 1, degraded := decide (1024 ≤ o.pagesRetired + 1) }
  | .fence cd => s.modCluster cd Cluster.applyFence
  | .package m => s.modOuter m fun o => { o with failed := true }
  | .phase cd k => s.modCluster cd fun x =>
      let y := { x with phases := x.phases &&& ~~~(1#6 <<< k) }
      if y.working ≤ 3 then y.applyFence else { y with f := if y.working = 4 then 17 else y.f }

/-- The retirement table, in the order of its entries. -/
def State.applyRetired (s : State) (rs : List Retired) : State := rs.foldl State.applyEntry s

/-- The counters at a power-on: those of the last block written, with the time, energy, bands and link errors that it holds
(R588); the rest is written within 100 ms of its change. -/
def Life.fromJournal (l : Life) : Life :=
  let w := l.written
  { l with
    poweredS := field w 0x008 8
    energy := field w 0x010 8 * 10000000000
    bands := (List.range 20).foldl (fun t i => putD t i (field w (0x018 + 4 * i) 4 * 10) 0) []
    linkErrors := (List.range 8).foldl (fun t m =>
      putD t m (field w (0x080 + 16 * m) 8, field w (0x088 + 16 * m) 8) (0, 0)) []
    toCopy := [] }

/-- What flash and fuses keep of the firmware state. -/
def Fw.kept (f : Fw) : Fw :=
  { slotA := f.slotA, slotB := f.slotB, recovery := f.recovery, kh0 := f.kh0, kh1 := f.kh1, kh0Revoked := f.kh0Revoked
    svn := f.svn, profDev := f.profDev, profNet := f.profNet, profSeq := f.profSeq, profDevBoot := f.profDev
    profNetBoot := f.profNet, retired := f.retired, lastGasp := f.lastGasp, lastGaspCopied := f.lastGaspCopied
    coldStarts := f.coldStarts, newBundle := f.newBundle, resetSwitch := f.resetSwitch, image := f.image }

/-- What the flash keeps of ownership and tenancy (R572 to R574, R585). -/
def Ident.kept (i : Ident) : Ident :=
  { owner := i.owner, clean := i.clean, cocoonPending := i.cocoonPending, counters := i.counters, tenants := i.tenants
    cocoonStart := i.cocoonStart, cocoonWall := i.cocoonWall, wipeCert := i.wipeCert }

/-- The lowest readings of R588 do not outlive the power; the values of R541 are in the journal. -/
def Heat.kept (h : Heat) : Heat := { rth := h.rth }

/-- Key of an entry of a port. -/
def portKey (p item : Nat) : Nat := 0x81000000 + p * 0x10000 + item

/-- The settings of a port at an entry into ROM. -/
def State.portProfile (s : State) (p : Nat) : PortSt :=
  let v (i : Nat) : List Byte := s.profBoot (portKey p i)
  { modeSel := leNat (v 1), vlanId := leNat (v 2), pfcMask := BitVec.ofNat 8 (leNat (v 3))
    pcpData := field (v 4) 0 1, pcpCnp := field (v 4) 1 1, pcpCtl := field (v 4) 2 1
    dscpData := field (v 4) 3 1, dscpCnp := field (v 4) 4 1
    macsecEnable := field (v 5) 0 1 == 1, replayWindow := field (v 5) 2 2
    ipv4Source := field (v 6) 0 1, ipv6Source := field (v 7) 0 1 }

/-- The entries of the profile that apply at an entry into ROM (R487): the cap, the clock order, Active_Max, the receive pool,
the identity on Lysdel and the settings of the ports. -/
def State.profiled (s : State) : State :=
  let am := leNat (s.profBoot 0x04000002) / 4 * 4
  let id := s.profBoot 0x82000001
  { s with
    pwr := { s.pwr with capW := leNat (s.profBoot 0x04000001), srcCfg := leNat (s.profBoot 0x01000003) }
    lys := { s.lys with
      systemId := BitVec.ofNat 32 (field id 0 4), deviceId := field id 4 2 % 0x8000, torus := field id 6 1 == 1 }
    net := { s.net with
      rxFree := leNat (s.profBoot 0x02000001)
      ports := (List.range 4).foldl (fun t p => putD t p (s.portProfile p) {}) s.net.ports }
    outers := if am = 16 then s.outers else
      (List.range 12).foldl (fun t m => put t m { lookD t m {} with activeMax := max 8 (min 24 am) }) s.outers }

/-- The module when power has gone and come back: only flash, fuses, the pins and the model's own fields survive (R16). -/
def State.cold (s : State) (d : DevState) : State :=
  let s1 : State := {
    pending := s.pending, free := s.free, sent := s.sent, reqNo := s.reqNo, dev := d
    fw := s.fw.kept, ident := s.ident.kept, life := s.life.fromJournal, heat := s.heat.kept
    ctl := { serial := s.ctl.serial, mac := s.ctl.mac, stepping := s.ctl.stepping }
    pwr := {
      feedA := s.pwr.feedA, feedB := s.pwr.feedB, conducting := s.pwr.conducting, rowJ := s.pwr.rowJ
      rstLow := s.pwr.rstLow } }
  (s1.applyRetired s1.fw.retired).profiled

/-- Errors of each link over its life (R587): those up to the last loss of its counters, and its counters. -/
def State.linkErrorsNow (s : State) : Tab (Nat × Nat) :=
  (List.range 8).foldl (fun t l =>
    let e := lookD t l (0, 0)
    let k := s.linkSt l
    putD t l (e.1 + k.fecCorrected, e.2 + k.fecUncorrectable) (0, 0)) s.life.linkErrors

/-- Links and Ethernet down and everything that the compute dies and the hub's engines hold lost. A Task_Id is never used again before a cold
start (R149). -/
def State.lost (s : State) : State :=
  { s with
    life := { s.life with linkErrors := s.linkErrorsNow }
    mem := {}, cores := [], slices := [], outers := [], clusters := [], deadDies := [], work := { nextTask := s.work.nextTask }, channels := [], lys := {}
    net := {}, svc := {} }

/-- A device reset, R44, R464, R481: ROM is entered with the first stage and VPKG on. The hub counter, the straps, Boot_Code,
the sensors dropped or flagged until the next cold start and the power measurements stay; the error log is emptied (R550). -/
def State.deviceReset (s : State) : State :=
  let f := s.fw
  let rs := (f.retired ++ f.toRetire).eraseDups
  let s1 : State := { s.lost with
    dev := .rom
    ctl := { serial := s.ctl.serial, mac := s.ctl.mac, stepping := s.ctl.stepping }
    fw := { f.kept with
      bootCode := f.bootCode, strapsLatched := f.strapsLatched, diePos := f.diePos, guestDie := f.guestDie, guestPop := f.guestPop, excluded := f.excluded
      toRetire := f.toRetire, rstHeld := s.pwr.rstLow, preReadyResets := f.preReadyResets, activatedAt := f.activatedAt, coldBoot := false }
    pwr := { s.pwr with
      capLevel := 0, capRaised := 0, capFell := 0, capBelow := 0, fastLimit := false, sustained := false, capUnmet := false
      offered := [], source := 0, holdover := false
      switches := if s.pwr.source = 0 then s.pwr.switches else satAdd 16 s.pwr.switches 1
      guestOn := false, guestFenced := false, inboxPins := 0 }
    heat := { s.heat with coolant := .normal, coolantLimit := none, stacksStopped := 0, probing := false, steps := [] }
    log := { s.log with ring := [], open_ := [] }
    ident := { s.ident.kept with signed := s.ident.signed } }
  (s1.applyRetired rs).profiled

/-- Compute stopped with every cluster, stack, PHY and guest domain and VOM off and the links and Ethernet down (R517 steps
3 and 4, R539). The hub keeps its own registers and log. -/
def State.powerDown (s : State) : State :=
  let s1 : State := { s.lost with
    pwr := { s.pwr with vom := false, guestOn := false, offered := [], source := 0, holdover := false, inboxPins := 0 }
    clusters := (List.range 512).foldl (fun t cd =>
      put t cd { clk := .stopped, goal := .stopped, fenced := s.fenced cd, phases := (s.cluster cd).phases,
                 dom := if s.fenced cd then .fenced else .off }) []
    ctl := { s.ctl with inProgress := [], completed := [], windows := [], holder := none, backs := [], opening := [], retires := [] } }
  s1

end Sys2Proof.Machine
end

