-- ==== Sys2Proof/Machine/Power.lean ====
section
/-!
DEFINITION. Clock sources and settings, the gating tree, domains and their budget, the cap, and phase failure (R489 to R516).
-/

namespace Sys2Proof.Machine

/-! ### Settings of a cluster clock, R493, R513, R514 -/

/-- Relative rate of a setting, as a fraction. -/
def Clk.rate : Clk → Nat × Nat
  | .full => (1, 1)
  | .skip n => (n - 1, n)
  | .div n => (1, n)
  | .stopped => (0, 1)

/-- The setting is a division. -/
def Clk.isDiv : Clk → Bool
  | .div _ => true
  | _ => false

/-- Setting `a` has a lower rate than `b`, or the same rate by division (R514). -/
def Clk.slower (a b : Clk) : Bool :=
  let x := a.rate.1 * b.rate.2
  let y := b.rate.1 * a.rate.2
  decide (x < y) || (decide (x = y) && a.isDiv && !b.isDiv)

/-- The setting that a cluster under several runs, R514. -/
def slowest (l : List Clk) : Clk := l.foldl (fun a b => if b.slower a then b else a) .full

/-- The ladder of R513, for cap levels and thermal levels. -/
def levelClk : Nat → Clk
  | 0 => .full
  | 1 => .skip 16
  | 2 => .skip 8
  | 3 => .skip 6
  | 4 => .skip 4
  | 5 => .skip 3
  | 6 => .div 2
  | 7 => .div 4
  | _ => .div 8

/-- The setting that all the rules together give a cluster: a stop by R505, R535 or a fence, ÷16 in holdover (R492), ÷4 while the
power core restarts (R479), ÷2 while memory fills (R206), the cap level and the zone's thermal level (R514). -/
def State.wantClk (s : State) (cd : Nat) : Clk :=
  let k := s.cluster cd
  let z : Zone := lookD s.heat.zones (zoneOf cd) {}
  if k.fenced ∨ k.working ≤ 3 ∨ s.heat.stacksStopped.getLsbD (dieOf cd) then .stopped
  else slowest [levelClk s.pwr.capLevel, levelClk z.level, if s.pwr.holdover then .div 16 else .full,
    if s.fw.powRestart then .div 4 else .full, if s.dev = .filling then .div 2 else .full]

/-- Bring a clock to a setting: a slower one at once, a faster one by the ramp, which starts from ÷16 after a stop (R493,
R536). -/
def Cluster.retune (k : Cluster) (want : Clk) : Cluster :=
  if want = k.goal then k
  else if want.slower k.clk ∨ want = k.clk then { k with clk := want, goal := want }
  else { k with clk := if k.clk = .stopped then .div 16 else k.clk, goal := want }

/-- Bring every cluster clock to its setting. -/
def State.retune (s : State) : State :=
  { s with clusters := (List.range 512).foldl (fun t cd =>
      let k := lookD t cd {}
      let k1 := k.retune (s.wantClk cd)
      if k1 = k then t else put t cd k1) s.clusters }

/-- The step of the ramp, R493. -/
def Clk.step : Clk → Clk
  | .full => .full
  | .skip n => if 16 < 2 * n then .full else .skip (2 * n)
  | .div n => if n ≤ 2 then .full else .div (n / 2)
  | .stopped => .div 16

/-- DIVIDER_RAMP_STEP, R493: every 2 µs a ramping clock steps once, and ends at its setting. -/
def execDividerRampStep (cd : Nat) (s : State) : Host.Outcome State Fault Refusal :=
  let k := s.cluster cd
  if k.clk = k.goal then .next s
  else .next (s.modCluster cd fun k => { k with clk := if k.goal.slower k.clk.step then k.goal else k.clk.step })

/-! ### Clock sources, R489 to R492 -/

/-- The candidates in the order of the value of R490, without the crystal at its end. -/
def sourceOrder (cfg : Nat) : List Nat :=
  if cfg = 1 then [1]
  else if cfg = 2 then [2, 3, 4, 5, 6, 7, 8, 9]
  else if cfg = 3 then [1, 2, 3, 4, 5, 6, 7, 8, 9]
  else if 0x10 ≤ cfg ∧ cfg ≤ 0x17 then [2 + (cfg - 0x10)]
  else []

/-- Run another candidate: counted, holdover, every cluster clock at ÷16 (R491, R492). -/
def State.useSource (s : State) (n : Nat) : State :=
  if s.pwr.source = n then s
  else (s.onPwr fun p => { p with source := n, switches := satAdd 16 p.switches 1, holdover := true }).retune

/-- CLOCK_OFFER, R420, R489: E0 or a link in UP offers its receive clock. -/
def execClockOffer (candidate : Nat) (s : State) : Host.Outcome State Fault Refusal :=
  let up := if candidate = 1 then (s.portSt 0).state == .up
    else decide (2 ≤ candidate) && decide (candidate ≤ 9) && (s.linkSt (candidate - 2)).state == .up
  if !up then .next s
  else
    let s1 := s.onPwr fun p => { p with offered := insertSet p.offered candidate }
    .next (if candidate = 1 then s1.modPort 0 fun k => { k with clockOffered := true }
      else s1.modLink (candidate - 2) fun k => { k with offered := true })

/-- CLOCK_WITHDRAW, R489, R491: when the running candidate withdraws, the next offered one in the order runs. -/
def execClockWithdraw (candidate : Nat) (s : State) : Host.Outcome State Fault Refusal :=
  if !s.pwr.offered.contains candidate then .next s
  else
    let s1 := s.onPwr fun p => { p with offered := p.offered.filter (· != candidate) }
    let s2 := if candidate = 1 then s1.modPort 0 fun k => { k with clockOffered := false }
      else s1.modLink (candidate - 2) fun k => { k with offered := false }
    if s.pwr.source ≠ candidate then .next s2
    else
      let later := ((sourceOrder s.pwr.srcCfg).dropWhile (· != candidate)).drop 1
      .next (s2.useSource ((later.find? fun c => s2.pwr.offered.contains c).getD 0))

/-- CANDIDATE_STABLE, R491: a candidate earlier in the order has been offered for 1 s without a break. -/
def execCandidateStable (candidate : Nat) (s : State) : Host.Outcome State Fault Refusal :=
  let earlier := (sourceOrder s.pwr.srcCfg).takeWhile (· != s.pwr.source)
  if s.pwr.offered.contains candidate ∧ earlier.contains candidate then .next (s.useSource candidate) else .next s

/-- PLL_LOCK, R492: the clocks return by the ramp. -/
def execPllLock (s : State) : Host.Outcome State Fault Refusal :=
  .next ((s.onPwr fun p => { p with holdover := false }).retune)

/-- A new order takes effect at once (R487): a running candidate that it no longer names gives way to the first offered one. -/
def State.setSrcCfg (s : State) (v : Nat) : State :=
  let s1 := s.onPwr fun p => { p with srcCfg := v }
  let o := sourceOrder v
  if s.pwr.source = 0 ∨ o.contains s.pwr.source then s1
  else s1.useSource ((o.find? fun c => s.pwr.offered.contains c).getD 0)

/-! ### Gates, R496 -/

/-- ENGINE_GATE_CLOSE: an engine idle for 256 cycles; a dispatch into its queue opens it. -/
def execEngineGateClose (c : Nat) (e : Engine) (s : State) : Host.Outcome State Fault Refusal :=
  let k := s.core c
  if (k.queue e).isEmpty ∧ !k.gatesClosed.contains e then
    .next (s.modCore c fun k => { k with gatesClosed := k.gatesClosed ++ [e] })
  else .next s

/-- CLUSTER_GATE_IDLE: firmware closes the gate of a cluster that has held no wave for 10 ms; a dispatch opens it. A gate that DOMAIN
has begun to close is closed by then, and an enable latched meanwhile is applied (R442). -/
def execClusterGateIdle (cd : Nat) (s : State) : Host.Outcome State Fault Refusal :=
  if (s.cluster cd).wave.isSome ∨ !(s.cluster cd).gateOpen then .next s
  else .next (s.modCluster cd fun k => { k with
    gateOpen := k.gatePending, gateByCmd := k.gateByCmd && !k.gatePending, gateClosing := false, gatePending := false })

/-! ### Domains, R502 to R510 -/

/-- The set point that a cluster's table gives at its F: measured at cold start, from 0.55 V to 0.90 V (R502), a free value. -/
def State.newTarget (s : State) (cd : Nat) : State :=
  (s.modCluster cd fun k =>
    let v := 550 + Config.freeNat s.free % 351
    { k with target := v, setPoint := if k.dom = .on then v else k.setPoint }).draw

/-- The rule of R505 for the working phases of a domain. While the power core restarts, the clock is stopped and the fence
waits for it (R507). -/
def State.phaseRule (s : State) (cd : Nat) : State :=
  let k := s.cluster cd
  if k.fenced ∨ 5 ≤ k.working then s
  else if k.working = 4 then
    if k.f ≤ 17 then s else (s.modCluster cd fun k => { k with f := 17 }).newTarget cd
  else
    let s1 := s.modCluster cd fun k => { k with clk := .stopped, goal := .stopped }
    if s.fw.powRestart ∨ !s.fw.powUp then s1 else s1.fenceCluster cd .domainFail true

/-- PHASE_FAIL, R505, R506. A retired phase fails no more. -/
def execPhaseFail (cd phase : Nat) (s : State) : Host.Outcome State Fault Refusal :=
  if 6 ≤ phase ∨ 512 ≤ cd ∨ !(s.cluster cd).phases.getLsbD phase then .next s
  else
    let s1 := (s.modCluster cd fun k => { k with phases := k.phases &&& ~~~(1#6 <<< phase) }).logEvent .phaseFail
      { ut := utPhase, ui := cd * 8 + phase }
    let s2 := (s1.onFw fun f => { f with toRetire := f.toRetire ++ [.phase cd phase] }).onLife fun l =>
      { l with failedPhases := satAdd 16 l.failedPhases 1 }
    let s3 := s2.onPwr fun p => { p with lastPhaseFail := s.now, phaseEmergency := p.phaseEmergency + 1 }
    .next (s3.phaseRule cd)

/-- PHASE_EMERGENCY_END, R506: 1 s after a phase failure. -/
def execPhaseEmergencyEnd (s : State) : Host.Outcome State Fault Refusal :=
  .next (s.onPwr fun p => { p with phaseEmergency := p.phaseEmergency - 1 })

/-- Set point with the pre-raise of a wave, clamped to 0.90 V (R504). -/
def Cluster.raised (k : Cluster) : Nat := if k.preRaise = 0 then k.setPoint else min 900 (k.setPoint + k.preRaise)

/-- DROOP, R503: a sample of a droop sensor. -/
def execDroop (cd sensor mv : Nat) (s : State) : Host.Outcome State Fault Refusal :=
  let k := s.cluster cd
  if 4 ≤ sensor ∨ k.droopDropped.contains sensor then .next s
  else
    let s1 := if mv + 60 < k.raised then s.modCluster cd fun k => { k with droopEvents := satAdd 8 k.droopEvents 1 } else s
    if 400 ≤ mv ∧ mv ≤ 1000 then .next (s1.modCluster cd fun k => { k with droopBad := del k.droopBad sensor })
    else
      let n := lookD k.droopBad sensor 0 + 1
      if n < 10 then .next (s1.modCluster cd fun k => { k with droopBad := put k.droopBad sensor n })
      else
        let s2 := (s1.modCluster cd fun k => { k with
          droopBad := del k.droopBad sensor, droopDropped := insertSet k.droopDropped sensor }).logEvent .droopSensor
            { ut := utCluster, ui := cd, detail := sensor }
        .next (s2.phaseRule cd)

/-- The round of a domain at cold start, R510. -/
def rampRound (cd : Nat) : Nat := cd % 2 + 2 * (cd / 16 % 2)

/-- A waiting domain that starts before domain `cd`: of an earlier round in TRAINING, of a lower number on its die later. -/
def State.waitsBefore (s : State) (cd : Nat) : Bool :=
  (List.range 512).any fun n => (s.cluster n).dom == .waitBudget &&
    (if s.dev = .training then decide (rampRound n < rampRound cd) else dieOf n == dieOf cd && decide (n < cd))

/-- DOMAIN_BUDGET_GRANT, R510, with the measured current of the neighbourhood and of VPKG; R479: power-on waits for the power
core; R537: with coolant ABSENT only the flow probe ramps. -/
def execDomainBudgetGrant (cd neighbourMa vpkgMa : Nat) (s : State) : Host.Outcome State Fault Refusal :=
  let ramping := (s.clusters.filter fun p => p.2.dom == .rampUp).length
  if (s.cluster cd).dom ≠ .waitBudget ∨ s.fw.powRestart ∨ s.rampNear cd ∨ s.waitsBefore cd ∨ 90000 < neighbourMa + 4000 ∨
      1250000 < vpkgMa + 4000 * (ramping + 1) ∨ (s.heat.coolant = .absent ∧ !s.heat.probing) then .next s
  else .next (s.modCluster cd fun k => { k with dom := .rampUp, ramp := 0, setPoint := 0 })

/-- RAMP_STEP, R508, R509: one sixteenth of the target; 16 steps up reach ON, 16 down OFF or FENCED, where a latched enable is
applied (R442). -/
def execRampStep (cd : Nat) (s : State) : Host.Outcome State Fault Refusal :=
  let k := s.cluster cd
  match k.dom with
  | .rampUp =>
    let n := k.ramp + 1
    .next (s.modCluster cd fun k => { k with
      ramp := n, setPoint := k.target * n / 16
      dom := if 16 ≤ n then .on else .rampUp, gateOpen := if 16 ≤ n then !k.gateByCmd else k.gateOpen })
  | .rampDown =>
    let n := k.ramp - 1
    .next (s.modCluster cd fun k => { k with
      ramp := n, setPoint := k.target * n / 16
      dom := if n ≠ 0 then .rampDown else if k.fenced then .fenced else if k.domPending then .waitBudget else .off
      domPending := if n = 0 then false else k.domPending })
  | _ => .next s

/-! ### The cap, R513 to R515 -/

/-- The cap that the loop of R513 and R514 runs against: with a coolant limit, the lower of the two (R534). The rules beside the
loop (R515, R516) take the cap in force, which is the value set (R512). -/
def State.capNow (s : State) : Nat :=
  match s.heat.coolantLimit with
  | some l => min s.pwr.capW l
  | none => s.pwr.capW

/-- At level 8 with the mean over the cap every package's Active_Max is lowered to 8, and restored once the mean has been
below the cap for 10 ms (R514). -/
def State.capUnmet (s : State) (cap : Nat) : State :=
  let p := s.pwr
  if cap < p.mean10 ∧ p.capLevel = 8 ∧ !p.capUnmet then
    let s1 : State := { s with
      outers := (List.range 12).foldl (fun t m =>
        let o := lookD t m {}
        put t m { o with activeSaved := some o.activeMax, activeMax := min o.activeMax 8 }) s.outers
      pwr := { p with capUnmet := true, capBelow := 0 } }
    s1.logEvent .powerCapUnmet {}
  else if p.capUnmet then
    let n := if p.mean10 < cap then p.capBelow + 1 else 0
    if n < 100 then s.onPwr fun p => { p with capBelow := n }
    else { s with
      outers := mapTab s.outers fun _ o =>
        ({ o with activeMax := o.activeSaved.getD o.activeMax, activeSaved := none } : Outer)
      pwr := { p with capUnmet := false, capBelow := 0 } }
  else s

/-- CAP_CONTROL_PERIOD, R513 to R515: a rise every 200 µs, a fall every 2 ms, never below what the fast limiter or the
sustained limit holds. -/
def execCapControlPeriod (mean1ms mean10ms : Nat) (s : State) : Host.Outcome State Fault Refusal :=
  if s.fw.powRestart ∨ !s.fw.powUp then .next s
  else
    let cap := s.capNow
    let p := s.pwr
    let sustained := p.sustained && decide (p.capW < mean10ms)
    let floor := max (if p.fastLimit then 6 else 0) (if sustained then 4 else 0)
    let up := decide (cap < mean1ms) && decide (1 ≤ p.capRaised)
    let down := decide (100 * mean10ms < 97 * cap) && decide (19 ≤ p.capFell)
    let level := if up then min 8 (p.capLevel + 1) else p.capLevel
    let level2 := if down then level - 1 else level
    let s1 := s.onPwr fun p => { p with
      mean1 := mean1ms, mean10 := mean10ms, sustained := sustained
      capLevel := if s.heat.probing then p.capLevel else max floor level2
      capRaised := if up then 0 else min 2 (p.capRaised + 1), capFell := if down then 0 else min 20 (p.capFell + 1) }
    .next (s1.capUnmet cap).retune

/-- FAST_LIMIT, R515: a 10 µs window over 4,400 W. -/
def execFastLimit (windowW : Nat) (s : State) : Host.Outcome State Fault Refusal :=
  if windowW ≤ 4400 then .next s
  else .next (s.onPwr fun p => { p with fastLimit := true, capLevel := max 6 p.capLevel }).retune

/-- FAST_LIMIT_RELEASE, R515: after at least 1 ms, a 1 ms window below the cap. The level then falls by R513. -/
def execFastLimitRelease (windowW : Nat) (s : State) : Host.Outcome State Fault Refusal :=
  if windowW < s.pwr.capW then .next (s.onPwr fun p => { p with fastLimit := false }) else .next s

/-- SUSTAINED_OVER, R515: the 1 ms mean has exceeded 4,000 W for 20 ms. -/
def execSustainedOver (mean1ms : Nat) (s : State) : Host.Outcome State Fault Refusal :=
  if mean1ms ≤ 4000 ∨ s.fw.powRestart ∨ !s.fw.powUp then .next s
  else .next (s.onPwr fun p => { p with mean1 := mean1ms, sustained := true, capLevel := max 4 p.capLevel }).retune

end Sys2Proof.Machine
end

