-- ==== Sys2Proof/Machine/Heat.lean ====
section
/-!
DEFINITION. Heat (chapter 15): sensor channels and used readings, zone levels and intervals, refresh and cap steps, coolant,
trips and thermal resistance (R521 to R542), and the thermal cycles of R588. Temperatures are in 1/16 °C.
-/

namespace Sys2Proof.Machine

/-! ### Channels, R521, R522 -/

/-- What a channel reads. -/
inductive ChanKind where
  | logic (q k : Nat) | layer (l q : Nat) | package (i side : Nat) | thermistor (t : Nat)
  deriving DecidableEq, Repr

/-- The kind of a channel, R521. -/
def chanKind (ch : Nat) : ChanKind :=
  let r := ch % 40
  if r < 16 then .logic (r / 4) (r % 4)
  else if r < 32 then .layer ((r - 16) / 4) ((r - 16) % 4)
  else if r < 38 then .package ((r - 32) / 2) (r % 2)
  else .thermistor (2 * (ch / 40) + (r - 38))

/-- The zone of a channel, R522. -/
def chanZone (ch : Nat) : Nat :=
  match chanKind ch with
  | .logic q _ => 4 * (ch / 40) + q
  | .layer _ q => 4 * (ch / 40) + q
  | .package i _ => 16 + 3 * (ch / 40) + i
  | .thermistor _ => 28

/-- The stack that a channel belongs to or whose package it reads; none for a thermistor. -/
def chanStack (ch : Nat) : Option Nat :=
  match chanKind ch with
  | .thermistor _ => none
  | _ => some (ch / 40)

/-- The other sensor of a pair, R522. -/
def chanPartner (ch : Nat) : Option Nat :=
  match chanKind ch with
  | .logic _ _ => some (if ch % 2 = 0 then ch + 1 else ch - 1)
  | .package _ _ => some (if ch % 2 = 0 then ch + 1 else ch - 1)
  | _ => none

/-- The channels of a zone, in rising order. -/
def zoneChans (z : Nat) : List Nat := (List.range 160).filter fun ch => chanZone ch == z

/-- Channel of compute-die diode k of quadrant q of stack n, and of layer l. -/
def logicChan (n q k : Nat) : Nat := 40 * n + 4 * q + k
def layerChan (n q l : Nat) : Nat := 40 * n + 16 + 4 * l + q
/-- Coolant inlet and outlet, thermistors 0 and 1. -/
def inletChan : Nat := 38
def outletChan : Nat := 39

def Heat.chan (h : Heat) (ch : Nat) : Chan := lookD h.chans ch {}
def Heat.zone (h : Heat) (z : Nat) : Zone := lookD h.zones z {}

/-! ### Used readings, R526 to R528 -/

/-- The used reading of a pair, given the reading of a lost one. -/
def Heat.pairReading (h : Heat) (a b : Nat) (lost : Int) : Int :=
  let x := h.chan a
  let y := h.chan b
  if x.dropped ∧ y.dropped then lost
  else if x.dropped then y.raw
  else if y.dropped then x.raw
  else if x.flagged ∨ y.flagged ∨ (x.raw - y.raw).natAbs > 96 then max x.raw y.raw
  else (x.raw + y.raw) / 2

/-- The used reading of the compute die in a quadrant, the highest of its four diodes; a lost pair counts as the first
operand. -/
def Heat.dieReading (h : Heat) (n q : Nat) (lost : Int) : Int :=
  max (h.pairReading (logicChan n q 0) (logicChan n q 1) lost) (h.pairReading (logicChan n q 2) (logicChan n q 3) lost)

/-- The used reading of layer l, or that of the die beneath when its diode is dropped (R527). -/
def Heat.layerReading (h : Heat) (n q : Nat) : Nat → Int
  | 0 => let c := h.chan (layerChan n q 0); if c.dropped then h.dieReading n q (109 * 16) else c.raw
  | l + 1 => let c := h.chan (layerChan n q (l + 1)); if c.dropped then h.layerReading n q l else c.raw

/-- The used reading of a channel. -/
def Heat.used (h : Heat) (ch : Nat) : Int :=
  match chanKind ch with
  | .logic _ _ => h.pairReading (ch / 2 * 2) (ch / 2 * 2 + 1) (114 * 16)
  | .package _ _ => h.pairReading (ch / 2 * 2) (ch / 2 * 2 + 1) (104 * 16)
  | .layer l q => h.layerReading (ch / 40) q l
  | .thermistor _ => (h.chan ch).raw

/-- The greatest of some readings, 0 for none. -/
def maxReading : List Int → Int
  | [] => 0
  | [x] => x
  | x :: t => max x (maxReading t)

/-- The zone reading, R528, R544. -/
def Heat.zoneReading (h : Heat) (z : Nat) : Int :=
  if z < 16 then h.dieReading (z / 4) (z % 4) (114 * 16)
  else maxReading (((zoneChans z).filter fun ch => z != 28 || !(h.chan ch).dropped).map h.used)

/-- The hottest zone reading of a stack. -/
def Heat.stackMax (h : Heat) (n : Nat) : Int := maxReading ((List.range 4).map fun q => (h.zone (4 * n + q)).reading)

/-- The hottest logic diode and the hottest layer of a stack (R430, R518). -/
def Heat.stackTemps (h : Heat) (n : Nat) : Int × Int :=
  (maxReading ((List.range 4).map fun q => h.dieReading n q (114 * 16)),
   maxReading ((List.range 16).map fun i => h.layerReading n (i % 4) (i / 4)))

/-- The reading of the package: its hotter diode. -/
def Heat.packageReading (h : Heat) (m : Nat) : Int := h.used (40 * (m / 3) + 32 + 2 * (m % 3))

/-- Protective threshold, R524. -/
def protective (ch : Nat) : Int :=
  match chanKind ch with
  | .logic _ _ => 97 * 16
  | .layer _ _ => 95 * 16
  | _ => 85 * 16

/-- Trip threshold, R529; none for a thermistor. -/
def tripAt (ch : Nat) : Option Int :=
  match chanKind ch with
  | .logic _ _ => some (115 * 16)
  | .layer _ _ => some (110 * 16)
  | .package _ _ => some (105 * 16)
  | .thermistor _ => none

/-! ### Samples, R524 to R526 -/

/-- Take one sample of a channel: a reading outside −20 °C to 140 °C, an open or a short drops the sensor (R525), and the
second of a pair loses the pair (R526). -/
def State.takeSample (s : State) (x : Sample) : State :=
  let c := s.heat.chan x.channel
  let bad := x.open_ || x.short || decide (x.raw < -320) || decide (2240 < x.raw)
  let s1 := s.onHeat fun h => { h with
    chans := put h.chans x.channel { c with
      raw := x.raw, open_ := x.open_, short := x.short, dropped := c.dropped || bad, hist := (x.raw :: c.hist).take 5 } }
  if !bad ∨ c.dropped then s1
  else
    let s2 := (s1.onHeat fun h => { h with sensorsDropped := satAdd 8 h.sensorsDropped 1 }).logEvent .sensorFail
      { ut := utSensor, ui := x.channel }
    match chanPartner x.channel with
    | none => s2
    | some p =>
      if (s2.heat.chan p).dropped then
        (s2.onHeat fun h => { h with
          zones := put h.zones (chanZone x.channel) { h.zone (chanZone x.channel) with pairLost := true } }).logEvent .sensorPairLost
            { ut := utSensor, ui := x.channel }
      else s2

/-- The agreement of one pair after a sample: 8 in a row more than 6 °C apart flag the lower sensor (R526). -/
def State.agree (s : State) (a : Nat) : State :=
  let x := s.heat.chan a
  let y := s.heat.chan (a + 1)
  if x.dropped ∨ y.dropped then s
  else if (x.raw - y.raw).natAbs ≤ 96 then s.onHeat fun h => { h with disagree := del h.disagree a }
  else
    let n := lookD s.heat.disagree a 0 + 1
    let s1 := s.onHeat fun h => { h with disagree := put h.disagree a n }
    if n ≠ 8 ∨ x.flagged ∨ y.flagged then s1
    else
      let low := if x.raw < y.raw then a else a + 1
      (s1.onHeat fun h => { h with chans := put h.chans low { h.chan low with flagged := true } }).logEvent .sensorDisagree
        { ut := utSensor, ui := low }

/-- µs between samples of a zone, R524. -/
def intervalUs : Nat → Nat
  | 0 => 8000
  | 1 => 1000
  | _ => 125

/-- The interval of a zone after a sample, R524. -/
def Heat.sampleInterval (h : Heat) (z : Nat) (k : Zone) : Zone :=
  if z = 28 then k
  else
    let us := intervalUs k.interval
    let chs := zoneChans z
    let within (d : Int) : Bool := chs.any fun ch => decide (protective ch - d * 16 ≤ h.used ch)
    let near (d : Int) : Bool := chs.any fun ch => decide (protective ch - d * 16 - 32 < h.used ch)
    let rise := chs.any fun ch =>
      match (h.chan ch).hist with
      | a :: b :: _ => !(h.chan ch).dropped && decide (b + 32 ≤ a)
      | _ => false
    let qa := if near 8 then 0 else k.quietA + us
    let qb := if near 3 then 0 else k.quietB + us
    let hold := if rise then 10000 else k.riseHold - us
    let iv := if within 3 ∨ rise then 2
      else if k.interval = 2 ∧ (qb < 100000 ∨ hold ≠ 0) then 2
      else if within 8 ∨ (k.interval ≠ 0 ∧ qa < 100000) then 1
      else 0
    { k with quietA := min qa 100000, quietB := min qb 100000, riseHold := hold, interval := iv }

/-- The level of a stack zone after a sample with reading `t`, R530, R531; `held` while the power core restarts (R532). -/
def Zone.throttle (k : Zone) (t : Int) (held : Bool) : Zone :=
  let us := intervalUs k.interval
  let wait := k.upWait - us
  let hard := decide (105 * 16 ≤ t) || (k.hard && decide (103 * 16 ≤ t))
  let k1 := { k with upWait := wait, hard := hard }
  if 110 * 16 ≤ t then { k1 with level := 8, belowUs := 0 }
  else if 105 * 16 ≤ t then { k1 with level := max 7 k.level, belowUs := 0 }
  else if hard ∨ held then k1
  else if t < 95 * 16 then
    let b := k.belowUs + us
    if 10000 ≤ b then { k1 with level := k.level - 1, belowUs := 0 } else { k1 with belowUs := b }
  else if t < 97 * 16 then { k1 with belowUs := 0 }
  else if wait = 0 ∧ k.level < 8 ∧ (101 * 16 ≤ t ∨ k.reading < t) then
    { k1 with level := k.level + 1, upWait := 1000, belowUs := 0 }
  else { k1 with belowUs := 0 }

/-- A step set by thresholds: it rises to the highest whose condition holds and falls at 2 °C below a step's lower bound
(R222, R224, R250). -/
def stepFor (above : Int → Bool) (lower : List Int) (t : Int) (cur : Nat) : Nat :=
  let up := (lower.filter above).length
  let stay := (lower.zipIdx.filter fun p => decide (p.2 < cur) && decide (p.1 - 32 < t)).length
  max up stay

/-- Refresh and cap steps of the layers of a stack zone, R222, R224. -/
def State.layerUpdate (s : State) (z : Nat) : State :=
  let n := z / 4
  let q := z % 4
  s.onHeat fun h => { h with
    steps := (List.range 4).foldl (fun t l =>
      let own := h.layerReading n q l
      let beneath := match l with
        | 0 => h.dieReading n q (114 * 16)
        | l + 1 => h.layerReading n q l
      let x : LayerSteps := lookD t (layerKey n q l) {}
      putD t (layerKey n q l) { x with
        refresh := stepFor (fun b => decide (b < own)) [85 * 16, 95 * 16] own x.refresh
        cap := stepFor (fun b => decide (b ≤ beneath)) [95 * 16, 99 * 16, 103 * 16, 107 * 16] beneath x.cap } {}) h.steps }

/-- Refresh step and Derated of a package, R250, R261. -/
def State.packageUpdate (s : State) (m : Nat) : State :=
  let t := s.heat.packageReading m
  s.modOuter m fun o => { o with
    refreshStep := if 85 * 16 < t then 1 else if t ≤ 83 * 16 then 0 else o.refreshStep
    derated := if 95 * 16 < t then true else if t ≤ 93 * 16 then false else o.derated }

/-- Thermal cycles of a stack, R588, once all its zones have been sampled. -/
def State.cycleUpdate (s : State) (n : Nat) : State :=
  if !((List.range 4).all fun q => (look s.heat.zones (4 * n + q)).isSome) then s
  else
    let t := s.heat.stackMax n
    match look s.heat.cycles n with
    | none => s.onHeat fun h => { h with cycles := put h.cycles n t }
    | some low =>
      if low + 40 * 16 < t then
        (s.onHeat fun h => { h with cycles := put h.cycles n t }).onLife fun l => { l with
          cycles := put l.cycles n (satAdd 32 (lookD l.cycles n 0) 1)
          svcCycles := put l.svcCycles n (satAdd 32 (lookD l.svcCycles n 0) 1) }
      else s.onHeat fun h => { h with cycles := put h.cycles n (min low t) }

/-- Inlet_High, R534. -/
def State.inletUpdate (s : State) : State :=
  let high := !(s.heat.chan inletChan).dropped && decide (40 * 16 < (s.heat.chan inletChan).raw)
  let s1 := s.onHeat fun h => { h with inletHigh := high }
  if high ∧ !s.heat.inletHigh then s1.logEvent .inletHigh { ut := utSensor, ui := inletChan } else s1

/-- Readings taken at another interval do not count for the detector of R535: a zone that quickens to 125 µs begins anew. -/
def Heat.quicken (h : Heat) (z : Nat) : Heat :=
  { h with chans := mapTab h.chans fun ch c => if chanZone ch = z then ({ c with hist := c.hist.take 1 } : Chan) else c }

/-- THERMAL_ZONE_SAMPLE, R524 to R531: one sample of the channels of a zone. -/
def execThermalZoneSample (zone : Nat) (samples : List Sample) (s : State) : Host.Outcome State Fault Refusal :=
  if 29 ≤ zone then .next s
  else
    let s1 := (samples.filter fun x => decide (x.channel < 160) && chanZone x.channel == zone).foldl State.takeSample s
    let pairs := (zoneChans zone).filter fun ch => ch % 2 == 0 && (chanPartner ch).isSome
    let s2 := pairs.foldl State.agree s1
    let t := s2.heat.zoneReading zone
    let k := s2.heat.zone zone
    let k1 := if zone < 16 then k.throttle t (s.fw.powRestart || !s.fw.powUp) else k
    let k2 := { s2.heat.sampleInterval zone k1 with reading := t }
    let s3 := s2.onHeat fun h =>
      { (if k2.interval = 2 ∧ k.interval ≠ 2 then h.quicken zone else h) with zones := put h.zones zone k2 }
    let s4 := if k2.hard ∧ !k.hard then s3.logEvent .thermHard { ut := utSensor, ui := (zoneChans zone).headD 0, detail := zone } else s3
    let s5 := if k2.level = k.level then s4 else (s4.alert alThermal).retune
    if zone < 16 then .next ((s5.layerUpdate zone).cycleUpdate (zone / 4))
    else if zone < 28 then .next (s5.packageUpdate (zone - 16))
    else .next s5.inletUpdate

/-! ### Coolant, R533 to R538 -/

/-- Seconds with a feed in range, R587. -/
def State.poweredS (s : State) : Nat := s.life.poweredS + s.now / 1000000000

/-- Qe of R533 in mL/min, when it is valid. -/
def State.flowByHeat (s : State) (powerW : Nat) : Option Nat :=
  let i := s.heat.chan inletChan
  let o := s.heat.chan outletChan
  let dt := (o.raw - i.raw).toNat
  if i.dropped ∨ o.dropped ∨ powerW < 1000 ∨ o.raw - i.raw < 32 then none
  else some (960000 * (powerW - 100) / (3978 * dt))

/-- Qt of R533 in mL/min; a rate below 2 Hz reads as zero flow (R43). A rate above 1,000 Hz, for which R43 gives no rule, counts in
proportion like those below it (DESIGN CHOICE, log entry 161). -/
def State.flowByTach (s : State) (tachHz16 : Nat) : Nat :=
  if tachHz16 < 32 then 0 else tachHz16 * 60000 / (16 * leNat (s.profNow 0x01000002))

/-- Seconds by temperature band of each stack (R587), in periods of 100 ms. -/
def State.bandUpdate (s : State) : State :=
  s.onLife fun l => { l with
    bands := (List.range 4).foldl (fun t n =>
      let r := s.heat.stackMax n
      let b := if r < 70 * 16 then 0 else if r < 85 * 16 then 1 else if r < 97 * 16 then 2 else if r < 105 * 16 then 3 else 4
      put t (5 * n + b) (lookD t (5 * n + b) 0 + 1)) l.bands }

/-- Enter LOW_FLOW, R534. -/
def State.lowFlow (s : State) : State :=
  (s.onHeat fun h => { h with coolant := .lowFlow, coolantLimit := some h.flow }).logEvent .coolantLow {}

/-- FLOW_COMPUTE, R533, R534, R537, R538: every 100 ms. Where the spec gives no Q (the sensor failed and Qe not valid) it is a
free value. -/
def execFlowCompute (tachHz16 powerW : Nat) (s : State) : Host.Outcome State Fault Refusal :=
  if s.fw.powRestart ∨ !s.fw.powUp then .next s
  else
    let qt := s.flowByTach tachHz16
    let qe := s.flowByHeat powerW
    let thermLost := (s.heat.chan inletChan).dropped || (s.heat.chan outletChan).dropped
    let judged := !s.heat.flowSensorFailed && decide (qt < 2000) && decide (4000 ≤ qe.getD 0)
    let failed := s.heat.flowSensorFailed || judged
    let open_ := failed && !thermLost && qe.isNone
    let q := if thermLost then qt
      else if failed then qe.getD (Config.freeNat s.free)
      else match qe with
        | some e => min qt e
        | none => qt
    let s0 := if open_ then s.draw else s
    let good := if s.heat.probing then decide (4000 ≤ qe.getD 0) else decide (4000 ≤ q)
    let s1 := s0.onHeat fun h => { h with
      flow := q, tach := qt, flowSensorFailed := failed, flowOk := if good then min 10 (h.flowOk + 1) else 0
      coolantLimit := h.coolantLimit.map fun l => if q < l then q else min q (l + 10) }
    let s2 := (if judged then s1.logEvent .flowSensor {} else s1).bandUpdate
    match s2.heat.coolant with
    | .normal => .next (if q < 4000 then s2.lowFlow else s2)
    | .absent =>
      if s2.heat.probing then
        .next (if powerW < 1200 then (s2.onPwr fun p => { p with capLevel := p.capLevel - 1 }).retune else s2)
      else if 10 ≤ s2.heat.flowOk then .next (s2.onHeat fun h => { h with coolant := .normal })
      else .next s2
    | _ => .next s2

/-- LOW_FLOW_LEAVE, R534: Q has been 4.2 L/min or more for 10 s. -/
def execLowFlowLeave (s : State) : Host.Outcome State Fault Refusal :=
  if s.heat.coolant = .lowFlow ∧ 4200 ≤ s.heat.flow then
    .next (s.onHeat fun h => { h with coolant := .normal, coolantLimit := none })
  else .next s

/-- COOLANT_ABSENT, R537: Q reads below 2 L/min at the entry into TRAINING. -/
def execCoolantAbsent (s : State) : Host.Outcome State Fault Refusal :=
  if s.dev = .training ∧ s.heat.flow < 2000 ∧ s.heat.coolant ≠ .absent then
    .next ((s.onHeat fun h => { h with coolant := .absent, flowOk := 0 }).logEvent .coolantAbsent {})
  else .next s

/-- The detector of R535 trips on a channel: four rising steps and more than 1.5 °C in all, at 125 µs. -/
def Heat.risesFast (h : Heat) (ch : Nat) : Bool :=
  match (h.chan ch).hist with
  | a :: b :: c :: d :: e :: _ => (h.zone (chanZone ch)).interval == 2 && decide (e + 24 < a) &&
      decide (b < a) && decide (c < b) && decide (d < c) && decide (e < d)
  | _ => false

/-- FAST_RISE, R535: the clocks of the stack stop. During a flow probe the device stays ABSENT (R538). -/
def execFastRise (channel : Nat) (s : State) : Host.Outcome State Fault Refusal :=
  match chanStack channel with
  | none => .next s
  | some n =>
    if !s.heat.risesFast channel ∨ (s.heat.chan channel).dropped then .next s
    else
      let s1 := s.onHeat fun h => { h with
        coolant := if h.coolant = .absent then .absent else .stopped
        stacksStopped := h.stacksStopped ||| (1#4 <<< n)
        zones := put h.zones (chanZone channel) { h.zone (chanZone channel) with fastRise := true } }
      .next ((s1.logEvent .coolantStop { ut := utSensor, ui := channel }).retune)

/-- STACK_RESTART, R536: Qt has been 4 L/min or more for 1 s and the stack is at 90 °C or less. -/
def execStackRestart (stack : Nat) (s : State) : Host.Outcome State Fault Refusal :=
  if !s.heat.stacksStopped.getLsbD stack ∨ s.heat.tach < 4000 ∨ 90 * 16 < s.heat.stackMax stack then .next s
  else
    let left := s.heat.stacksStopped &&& ~~~(1#4 <<< stack)
    let s1 := (s.onHeat fun h => { h with stacksStopped := left }).retune
    if left ≠ 0 ∨ s.heat.coolant ≠ .stopped then .next s1
    else if s.heat.coolantLimit.isSome then .next (s1.onHeat fun h => { h with coolant := .lowFlow })
    else if s.heat.flow < 4000 then .next s1.lowFlow
    else .next (s1.onHeat fun h => { h with coolant := .normal })

/-- FLOW_PROBE, R538. -/
def execFlowProbe (ev : ProbeEvent) (s : State) : Host.Outcome State Fault Refusal :=
  match ev with
  | .start =>
    if s.heat.coolant ≠ .absent ∨ s.heat.probing ∨ (s.heat.chan inletChan).dropped ∨ (s.heat.chan outletChan).dropped then .next s
    else .next (((s.onHeat fun h => { h with probing := true, flowOk := 0 }).onPwr fun p =>
      { p with capLevel := 6 }).retune)
  | .flowFound =>
    if !s.heat.probing ∨ s.heat.flowOk < 10 then .next s
    else .next ((s.onHeat fun h => { h with
      probing := false, flowSensorFailed := true, coolant := .normal, flowOk := 0 }).logEvent .flowSensor {})
  | .stopped =>
    if !s.heat.probing then .next s
    else
      let s1 := (s.onHeat fun h => { h with probing := false, flowOk := 0 }).onPwr fun p => { p with capLevel := 0 }
      let s2 : State := { s1 with clusters := mapTab s1.clusters fun _ k =>
        if k.dom = .on ∨ k.dom = .rampUp then
          ({ k with dom := .rampDown, ramp := if k.dom = .on then 16 else k.ramp, gateOpen := false, gateClosing := false
                    gatePending := false, domPending := true } : Cluster)
        else k }
      .next s2.retune

/-! ### Trip, R539 -/

/-- THERMAL_TRIP, R517, R539: a used reading has reached its trip threshold. During SAVING the record is still written. -/
def execThermalTrip (channel : Nat) (s : State) : Host.Outcome State Fault Refusal :=
  match tripAt channel with
  | none => .next s
  | some t =>
    if s.heat.used channel < t ∨ s.dev = .off ∨ s.dev = .tripped then .next s
    else
      let s1 := ((s.onHeat fun h => { h with tripChannel := channel }).onPwr fun p => { p with
        thermtrip := true, sagRec := p.sagRec.map fun r => { r with trip := true } }).onLife fun l =>
          { l with trips := satAdd 16 l.trips 1, svcTrips := satAdd 16 l.svcTrips 1 }
      let s2 := s1.logEvent .thermalTrip { ut := utSensor, ui := channel }
      if s.dev = .saving then .next s2 else .next { s2.powerDown with dev := .tripped }

/-! ### Thermal resistance, R540 to R542 -/

/-- Insert into a rising list with repeats. -/
def insertUp (v : Nat) : List Nat → List Nat
  | [] => [v]
  | x :: t => if v ≤ x then v :: x :: t else x :: insertUp v t

/-- The median of five values. -/
def median5 (l : List Nat) : Nat := (l.foldl (fun a v => insertUp v a) []).getD 2 0

/-- Store a value of a stack, R541. -/
def Rth.store (r : Rth) (v hours : Nat) (inlet : Int) (stepW : Nat) : Rth :=
  let firsts := if r.firsts.length < 5 then r.firsts ++ [v] else r.firsts
  let five := decide (r.firsts.length = 4)
  { r with
    count := satAdd 16 r.count 1, sinceReset := satAdd 16 r.sinceReset 1
    lifeMin := if r.count = 0 then v else min r.lifeMin v, lifeMax := max r.lifeMax v, inlet := inlet, stepW := stepW
    history := (v :: r.history).take 64, firsts := firsts
    baseline := if five then median5 firsts else r.baseline, hours := if five then hours else r.hours }

/-- Median5 of GET_RTH: 0 until five values exist. -/
def Rth.median (r : Rth) : Nat := if r.history.length < 5 then 0 else median5 (r.history.take 5)

/-- RTH_MEASURE, R540, R541: the mean readings and powers of the two phases. -/
def execRthMeasure (stack : Nat) (tj0 tc0 : Int) (p0 : Nat) (tj1 tc1 : Int) (p1 : Nat) (s : State) :
    Host.Outcome State Fault Refusal :=
  if s.dev ≠ .selftest ∨ 4 ≤ stack then .next s
  else
    let i := s.heat.chan inletChan
    let lost := (List.range 4).any fun q => (s.heat.zone (4 * stack + q)).pairLost
    if i.raw < 15 * 16 ∨ 40 * 16 < i.raw ∨ s.heat.flow < 4000 ∨ p1 < p0 + 200 ∨ lost then
      .next (s.logEvent .rthSkipped { detail := stack })
    else
      let v := (((tj1 - tc1) - (tj0 - tc0)) * 10000 / (16 * ((p1 : Int) - p0))).toNat
      let r : Rth := (lookD s.heat.rth stack {}).store v (s.poweredS / 3600) i.raw (p1 - p0)
      let s1 := s.onHeat fun h => { h with rth := put h.rth stack r }
      let m := r.median
      .next (if 5 ≤ r.history.length ∧ (850 ≤ m ∨ (r.baseline ≠ 0 ∧ 12 * r.baseline ≤ 10 * m)) then
        s1.logEvent .rthHigh { detail := stack } else s1)

end Sys2Proof.Machine
end

