-- ==== Sys2Proof/Machine/OuterMem.lean ====
section
/-!
DEFINITION. Outer controllers and their buses (chapter 06): credits, issue queue, slots, reorder window, HOLD, reads and writes
of blocks, timeouts, refresh, scrubbing, fill and retraining (R230 to R251, R338, R559, R593).
-/

namespace Sys2Proof.Machine

/-- The holder of an agent's credits (R338): a cluster router, the hub port bridge (512), a link controller (513 + l), a
reduction engine (521 + d). -/
def holderOf : Agent → Nat
  | .core c _ => cdOf c
  | .link l => 513 + l
  | .reduction d => 521 + d
  | .placer | .rdma _ | .service | .guest => 512

/-- Credits of a holder at cold start. -/
def startCredits (h : Nat) : Nat := if h < 512 then 1 else 16

/-- Slotted requests. -/
def Outer.slotted (o : Outer) : List OReq := o.window ++ o.sentReqs

/-- Slots that a bank holds, R234. -/
def Outer.bankSlots (o : Outer) (b : Nat) : Nat := (o.slotted.filter fun r => bankOf r.addr == b).length

def OReq.isRead (r : OReq) : Bool := match r.acc with | .read => true | .write _ _ => false

/-- A request concerns one block of 256 bytes (R233). -/
def oneBlock (a n : Nat) : Bool := decide (0 < n) && a / 256 == (a + n - 1) / 256

/-- OUTER_BLOCK_REQUEST, R229, R233, R234, R245, R263, R338, R593: a request for one block, with a credit, reaches the controller. A
core's request takes one of its 16 outer slots; without a credit or a slot, or with the issue queue full, it stays with its
sender. -/
def execOuterBlockRequest (from_ : Agent) (addr len : Nat) (acc : Access) (waiting : Bool) (s : State) :
    Host.Outcome State Fault Refusal :=
  match place addr with
  | .outer m _ =>
    let n := accLen len acc
    let o := s.outer m
    let h := holderOf from_
    let held := o.heldBy h (startCredits h)
    let slotFree := match coreOf from_ with
      | some c => (s.core c).slotFree addr
      | none => true
    if held = 0 ∨ 1024 ≤ o.issue.length ∨ !slotFree ∨ !oneBlock addr n then .next s
    else
      let ans := s.answer from_ addr n (isWrite acc)
      let s1 := s.countBusy addr ans
      match ans with
      | .fault => .next (s1.accessFault from_ addr)
      | .status st =>
        -- BAD_ARG from the control page or an unusable package ends a core's task (R229, R245)
        if st = stBadArg then .next (s1.accessFault from_ addr .taskBadArg) else .next (s1.reply from_ st)
      | .go =>
        let r : OReq := { id := s1.reqNo, agent := from_, addr := addr, len := n, acc := acc, waiting := waiting }
        let s2 := { s1 with reqNo := s1.reqNo + 1 }
        let s3 := s2.modOuter m fun o => { o with issue := o.issue ++ [r], holders := put o.holders h (held - 1) }
        .next (match coreOf from_ with
          | some c => s3.modCore c Core.takeOuter
          | none => s3)
  | _ => .next (s.accessFault from_ addr)

/-- CREDIT_RETURN, R234, R338: the oldest request of the issue queue whose bank may hold another slot takes one of the 4,096
slots, and its credit returns to its holder up to the cold-start number, beyond it to the pool. -/
def execCreditReturn (m req : Nat) (s : State) : Host.Outcome State Fault Refusal :=
  let o := s.outer m
  match o.issue.find? fun r => decide (o.bankSlots (bankOf r.addr) < 512) with
  | none => .next s
  | some r =>
    if r.id ≠ req ∨ 4096 ≤ o.slotted.length then .next s
    else
      let h := holderOf r.agent
      let held := o.heldBy h (startCredits h)
      .next (s.modOuter m fun o => { o with
        issue := o.issue.filter (·.id != req), window := o.window ++ [r]
        holders := if held < startCredits h then put o.holders h (held + 1) else o.holders
        pool := if held < startCredits h then o.pool else o.pool + 1 })

/-! ### The reorder window, R235 -/

/-- An earlier request of the window holds this one back: a read behind a write of one of its codewords, a write behind any request of
one. -/
def blockedBy (earlier : List OReq) (r : OReq) : Bool :=
  earlier.any fun e => (unitsOf e.addr e.len).any (unitsOf r.addr r.len).contains && !(e.isRead && r.isRead)

/-- The requests that may be sent, each with its place: the 512 oldest not held back. -/
def sendable : List OReq → List OReq → List OReq
  | _, [] => []
  | seen, r :: t => (if blockedBy seen r then [] else [r]) ++ sendable (seen ++ [r]) t

def Outer.candidates (o : Outer) : List OReq := sendable [] (o.window.take 512)

/-- The bus direction that the controller takes before a request (R230): writes when 256 are pending or no read is, reads after
64 writes or when no write is. -/
def Outer.turn (o : Outer) : Outer :=
  let reads := (o.window.filter (·.isRead)).length
  let writes := o.window.length - reads
  if !o.writing ∧ (256 ≤ writes ∨ (reads = 0 ∧ 0 < writes)) then { o with writing := true, runWrites := 0 }
  else if o.writing ∧ 0 < reads ∧ (64 ≤ o.runWrites ∨ writes = 0) then { o with writing := false, runWrites := 0 }
  else o

/-- The next request in the controller's order: an open row, another bank group, the oldest. -/
def Outer.choose (o : Outer) : Option OReq :=
  let cs := o.candidates.filter fun r => r.isRead == !o.writing
  match cs.find? fun r => look o.openRows (bankOf r.addr) == some (pageOf r.addr) with
  | some r => some r
  | none =>
    match cs.find? fun r => bankGroupOf r.addr != o.lastGroup with
    | some r => some r
    | none => cs.head?

/-- First address of the block of an address. -/
def blockBase (a : Nat) : Nat := a / 256 * 256

/-- Send one request: the buffer carries it out in order, so what its codewords held is kept with it, for a read those of its whole block.
-/
def State.sendReq (s : State) (m : Nat) (r : OReq) : State :=
  let (s1, bs, ps) := if r.isRead then s.readRange (blockBase r.addr) 256 else (s, s.mem.read r.addr r.len, (List.range r.len).map fun i =>
    s.mem.marked (unitBase (r.addr + i)))
  let s2 := match r.acc with
    | .read => s1
    | .write w p => s1.writeRange r.addr w (List.replicate w.length p)
  s2.modOuter m fun o => { o with
    window := o.window.filter (·.id != r.id), sentReqs := o.sentReqs ++ [{ r with data := bs, marks := ps }]
    lastGroup := bankGroupOf r.addr, openRows := put o.openRows (bankOf r.addr) (pageOf r.addr)
    runWrites := if r.isRead then o.runWrites else o.runWrites + 1 }

/-- Send a request, and with a read every other read of the same block that may be sent: they are one read, and its data serves them all
(R235). -/
def State.sendWith (s : State) (m : Nat) (r : OReq) : State :=
  let more := if r.isRead then (s.outer m).candidates.filter fun x =>
    x.isRead && x.id != r.id && x.addr / 256 == r.addr / 256 else []
  (s.sendReq m r).modOuter m fun o => { o with
    window := o.window.filter fun x => !more.any (·.id == x.id)
    sentReqs := o.sentReqs ++ more.map fun x => { x with twin := some r.id } }

/-- The entries of the buffer's FIFO: what has been sent and not answered (log entry 169). -/
def Outer.fifo (o : Outer) : Nat := (o.sentReqs.filter (·.twin.isNone)).length

/-- Commands may leave: HOLD is not asserted, the package is in use, and no more than the 32 blocks of 8 ns have left since the FIFO
reached 448 (R232, R559). -/
def Outer.busFree (o : Outer) : Bool := !o.hold && !o.failed && decide (o.fifo < 480)

/-- OUTER_SEND, R230, R235. -/
def execOuterSend (m : Nat) (s : State) : Host.Outcome State Fault Refusal :=
  let s1 := s.modOuter m Outer.turn
  let o := s1.outer m
  match (if o.busFree then o.choose else none) with
  | none => .next s
  | some r => .next (s1.sendWith m r)

/-- OUTER_WINDOW_AGE, R235: a request that has waited 2 µs in the window is sent next. -/
def execOuterWindowAge (m req : Nat) (s : State) : Host.Outcome State Fault Refusal :=
  let o := s.outer m
  match o.candidates.find? (·.id == req) with
  | none => .next s
  | some r => if o.busFree then .next (s.sendWith m r) else .next s

/-- HOLD_ASSERT, R232: the buffer's FIFO holds 448 requests or more. -/
def execHoldAssert (m : Nat) (s : State) : Host.Outcome State Fault Refusal :=
  if (s.outer m).fifo < 448 then .next s else .next (s.modOuter m fun o => { o with hold := true })

/-- HOLD_RELEASE, R232: the FIFO has fallen to 320 or fewer. -/
def execHoldRelease (m : Nat) (s : State) : Host.Outcome State Fault Refusal :=
  if 320 < (s.outer m).fifo then .next s else .next (s.modOuter m fun o => { o with hold := false })

/-! ### The end of a request -/

/-- A request leaves its slot: the requester's own slot is free, for an instruction that waits for one (R593), and a request that carried Waiting is granted 4
credits, while the pool has them and the holder keeps at most 16 (R338). -/
def State.releaseReq (s : State) (m : Nat) (r : OReq) : State :=
  let s1 := s.modOuter m fun o =>
    let h := holderOf r.agent
    let held := o.heldBy h (startCredits h)
    let o1 := { o with window := o.window.filter (·.id != r.id), sentReqs := o.sentReqs.filter (·.id != r.id) }
    let grant := min 4 (16 - held)
    if r.waiting ∧ 4 ≤ o.pool ∧ 0 < grant then { o1 with pool := o.pool - grant, holders := put o.holders h (held + grant) } else o1
  match coreOf r.agent with
  | some c => ((s1.modCore c Core.dropOuter).wakeSlots c).completed c
  | none => s1

/-- Note a timeout or parity event for the threshold of R559. -/
def State.noteFault (s : State) (m : Nat) : State := s.modOuter m fun o =>
  { o with faultTimes := (o.faultTimes.filter fun t => decide (s.now < t + 100000000)) ++ [s.now] }

/-- Each codeword of an expired write holds its old or its new content (R237): which one is open. A codeword written since then holds
that later content. -/
def State.settleWrite (s : State) (r : OReq) (sent : Bool) : State :=
  match r.acc with
  | .read => s
  | .write w p =>
    let us := unitsOf r.addr r.len
    let s1 := us.foldl (fun s u =>
      let lo := max u r.addr - r.addr
      let n := min (u + 64) (r.addr + r.len) - max u r.addr
      let a := r.addr + lo
      let s2 := s.draw
      if Config.freeChoice s.free = sent ∨ r.rewrote.contains u then s2
      else if sent then s2.onMem fun m => (m.write a ((r.data.drop lo).take n)).setMark u ((r.marks.drop lo).headD false)
      else s2.onMem fun m => (m.write a ((w.drop lo).take n)).setMark u (p || (m.marked u && decide (n ≠ 64)))) s
    -- the instar rises as if the whole write had landed; one that was sent has raised it already
    if sent then s1 else us.foldl (fun s _ => s.onMem fun m => m.bumpInstar r.addr) s1

/-- End a request as expired, R237, R243. -/
def State.expireReq (s : State) (m : Nat) (r : OReq) : State :=
  let sent := (s.outer m).sentReqs.any (·.id == r.id)
  let s1 := ((s.settleWrite r sent).releaseReq m r).emit (.answer r.agent stTimeout)
  let s2 := if r.isRead then s1.emit (.data r.agent (List.replicate r.len 0) (List.replicate r.len true)) else s1
  match r.agent with
  | .core c e => s2.engineError c e .taskTimeout stTimeout r.addr
  | _ => s2

/-- OUTER_REQUEST_TIMEOUT, R237, R243: a request has held its slot for 100 µs. -/
def execOuterRequestTimeout (m req : Nat) (s : State) : Host.Outcome State Fault Refusal :=
  match (s.outer m).slotted.find? (·.id == req) with
  | none => .next s
  | some r =>
    let s1 := ((s.modOuter m fun o => { o with timeouts := satAdd 16 o.timeouts 1 }).noteFault m).outerEvent m .outerTimeout r.addr
    .next (s1.expireReq m r)

/-- OUTER_PARITY_NAK, R231, R243: reissued up to three times; the third NAK logs OUTER_BUS_PARITY and ends the request. -/
def execOuterParityNak (m req : Nat) (s : State) : Host.Outcome State Fault Refusal :=
  match (s.outer m).sentReqs.find? (·.id == req) with
  | none => .next s
  | some r =>
    if r.naks < 2 then .next (s.modOuter m fun o => { o with
      sentReqs := o.sentReqs.map fun x => if x.id = req then { x with naks := x.naks + 1 } else x })
    else .next (((s.noteFault m).outerEvent m .outerBusParity r.addr).expireReq m r)

/-- The codeword at `beat` of the data read: its errors on the bus, from symbols numbered 72 × beat + symbol. -/
def beatErrors (errs : List (Nat × Byte)) (beat : Nat) : List (Nat × Byte) :=
  (errs.filter fun e => e.1 / 72 == beat).map fun e => (e.1 % 72, e.2)

/-- Decode a codeword from the bus: outcome, with errors beyond two symbols read once more (R242). -/
def decodeBeat (poison : Bool) (errs again : List (Nat × Byte)) : RdOut × Bool :=
  match busDecode errs poison with
  | .ue => (busDecode again poison, true)
  | o => (o, false)

/-- The events of a codeword decoded from the bus (R242, R243). -/
def State.busOutcome (s : State) (m unit : Nat) (o : RdOut) : State :=
  match o with
  | .ce _ => (s.modOuter m fun o => { o with busCorrected := satAdd 16 o.busCorrected 1 }).outerEvent m .outerCeBus unit
  | .ue => (s.modOuter m fun o => { o with uncorrectable := satAdd 16 o.uncorrectable 1 }).outerEvent m .outerUe unit
  | _ => s

/-- Hand the data of a block to one of the reads that it serves: delivery and the requester's acknowledgement are one step (log entry 169).
-/
def State.deliver (s : State) (m : Nat) (bytes : List Byte) (marks : List Bool) (r : OReq) : State :=
  let k := r.addr - blockBase r.addr
  ((s.releaseReq m r).emit (.data r.agent ((bytes.drop k).take r.len) ((marks.drop k).take r.len))).reply r.agent stOk

/-- OUTER_READ_DATA, R233, R235, R239 to R243: the block's data with what the dies and the bus did to it. `dieCorrected` words were
corrected, and the codewords numbered in `dieUe` held a word that the dies report uncorrectable: both beside the errors that the
memory holds. -/
def execOuterReadData (m req dieCorrected : Nat) (dieUe : List Nat) (busErrors reread : List (Nat × Byte)) (s : State) :
    Host.Outcome State Fault Refusal :=
  match (s.outer m).sentReqs.find? fun r => r.id == req && r.isRead && r.twin.isNone with
  | none => .next s
  | some r =>
    let base := blockBase r.addr
    let us := unitsOf base 256
    -- the dies
    let s1 := s.countDie m base dieCorrected
    let s2 := (us.zipIdx.filter fun u => dieUe.contains u.2).foldl (fun s u => s.countOuterUe m u.1) s1
    -- the bus, codeword by codeword
    let outs := us.zipIdx.map fun u =>
      let stored := (r.marks.getD (u.1 - base) false) || dieUe.contains u.2
      (u.1, decodeBeat stored (beatErrors busErrors u.2) (beatErrors reread u.2))
    let s3 := outs.foldl (fun s x => s.busOutcome m x.1 x.2.1) s2
    let bad (a : Nat) : Bool := outs.any fun x => x.1 == unitBase a &&
      (match x.2.1 with | .poisoned _ => true | .ue => true | _ => false)
    -- an uncorrectable codeword delivers what came over the bus at the second read
    let bytes := (List.range 256).map fun i =>
      let a := base + i
      let b := r.data.getD i 0
      match outs.findIdx? fun x => x.1 == unitBase a && x.2.1 == .ue with
      | some k => (beatErrors reread k).foldl (fun b e => if e.1 = a % 64 + 8 then b ^^^ e.2 else b) b
      | none => b
    let marks := (List.range 256).map fun i => bad (base + i)
    let served := r :: (s.outer m).sentReqs.filter fun x => x.twin == some req
    .next (served.foldl (fun s x => s.deliver m bytes marks x) s3)

/-- A codeword that the buffer has stored poisoned: its mark stands, and reads sent after the write and before another one see it. -/
def State.poisonSent (s : State) (m id unit : Nat) : State :=
  let note (x : OReq) : OReq :=
    if x.isRead ∧ id < x.id ∧ blockBase x.addr = blockBase unit ∧ !x.rewrote.contains unit then
      { x with marks := x.marks.mapIdx fun i b => b || decide (unit ≤ blockBase x.addr + i ∧ blockBase x.addr + i < unit + 64) }
    else x
  (s.onMem fun mm => mm.setMark unit true).modOuter m fun o => { o with sentReqs := o.sentReqs.map note }

/-- OUTER_WRITE_ACKNOWLEDGE, R233, R241, R242: the buffer acknowledges a write; a codeword that it could not correct is stored
with its poison bit set and reported as OUTER_UE (log entry 137), unless a later write has replaced it. -/
def execOuterWriteAcknowledge (m req : Nat) (busErrors : List (Nat × Byte)) (s : State) : Host.Outcome State Fault Refusal :=
  match (s.outer m).sentReqs.find? fun r => r.id == req && !r.isRead with
  | none => .next s
  | some r =>
    let poison := match r.acc with | .write _ p => p | .read => false
    let s1 := (unitsOf r.addr r.len).zipIdx.foldl (fun s u =>
      let o := busDecode (beatErrors busErrors u.2) poison
      let s1 := s.busOutcome m u.1 o
      if o = .ue ∧ !r.rewrote.contains u.1 then s1.poisonSent m req u.1 else s1) s
    .next ((s1.releaseReq m r).reply r.agent stOk)

/-- DIE_WRITE_BACK, R239: a corrected codeword is written back to its bank; its content and instar do not change. -/
def execDieWriteBack (m codeword : Nat) (s : State) : Host.Outcome State Fault Refusal :=
  if !(s.outer m).writeBacks.contains codeword then .next s
  else .next ((s.onMem fun mm => mm.dieFix codeword).modOuter m fun o => { o with writeBacks := o.writeBacks.filter (· != codeword) })

/-! ### Refresh, scrubbing, fill, retraining -/

/-- The key of a bank of a channel. -/
def chanBank (channel bank : Nat) : Nat := channel * 16 + bank

/-- OUTER_REFRESH, R250, R251: a refresh falls due; a proboscis burst on the bank postpones it, up to 4. -/
def execOuterRefresh (m channel bank : Nat) (burst : Bool) (s : State) : Host.Outcome State Fault Refusal :=
  .next (s.modOuter m fun o =>
    let n := lookD o.postponed (chanBank channel bank) 0
    if burst ∧ n < 4 then { o with postponed := put o.postponed (chanBank channel bank) (n + 1) }
    else { o with refreshes := o.refreshes + 1 })

/-- POSTPONED_REFRESH, R251: the postponed refreshes of a bank are sent back to back. -/
def execPostponedRefresh (m channel bank : Nat) (s : State) : Host.Outcome State Fault Refusal :=
  .next (s.modOuter m fun o =>
    let n := lookD o.postponed (chanBank channel bank) 0
    { o with postponed := del o.postponed (chanBank channel bank), refreshes := o.refreshes + n })

/-- The codewords with errors in the row segment of a page in a channel-bank (R228). -/
def Mem.segmentUnits (m : Mem) (pageAddr bank : Nat) : List Nat :=
  (m.flipUnits pageAddr 0x200000).filter fun u => bankOf u == bank

/-- The channel-bank of step `i` of the walk within a page: channels, in them bank groups, in them banks (R246). -/
def walkBank (i : Nat) : Nat := i / 16 + 32 * (i / 4 % 4) + 128 * (i % 4)

/-- OUTER_SCRUB, R246: one row segment of the walk over pages, channels, bank groups and banks, in cycles in which no request, write-back
or proboscis burst uses its bank. Codewords are corrected and written back by R239; a page counts as scrubbed with its last segment. -/
def execOuterScrub (m : Nat) (s : State) : Host.Outcome State Fault Refusal :=
  let o := s.outer m
  let page := o.scrubPos / 512
  let bank := walkBank (o.scrubPos % 512)
  let busy := o.slotted.any (fun r => bankOf r.addr == bank) || o.writeBacks.any (fun u => bankOf u == bank) ||
    o.granted.contains (bank % 32 / 4)
  if !o.scrubEnable ∨ o.failed ∨ busy then .next s
  else
    let s1 := if o.retired.contains page then s
      else (s.mem.segmentUnits (outerAddr m + page * 0x200000) bank).foldl (fun s u => (s.readOuterUnit m u).1) s
    .next (s1.modOuter m fun o =>
      let o := if o.scrubPos = 0 then { o with lapStart := s.now } else o
      let o := if o.scrubPos % 512 = 511 ∧ !o.retired.contains page then { o with scrubbed := put o.scrubbed page s.now } else o
      if o.scrubPos + 1 < 65536 * 512 then { o with scrubPos := o.scrubPos + 1 }
      else { o with
        scrubPos := 0, laps := (o.laps + 1) % 65536, lastLapMs := min ((s.now - o.lapStart) / 1000000) (2 ^ 24 - 1) })

/-- OUTER_FILL, R244, R253: every package in use reads zero without marks, and every outer instar is zero. -/
def execOuterFill (s : State) : Host.Outcome State Fault Refusal :=
  if s.dev ≠ .filling then .next s
  else
    let s1 := s.onMem fun m => { m.clear outerBase scratchBase with instars := m.instars.filter fun p =>
      !(decide (outerBase ≤ p.1) && decide (p.1 < scratchBase)) }
    .next { s1 with outers := (List.range 12).foldl (fun t m =>
      let o := lookD t m {}
      if o.failed then t else put t m { o with fillDone := true, writeBacks := [], scrubbed := [], scrubFrom := s.now }) s1.outers }

/-- OUTER_SPARE_COPY_DONE, R247: corrected words are copied corrected, uncorrectable ones with their poison bits set, and the remap entry
switches. -/
def execOuterSpareCopyDone (m page : Nat) (s : State) : Host.Outcome State Fault Refusal :=
  match (s.outer m).copying.find? fun x => x.1 == page with
  | none => .next s
  | some x =>
    let s1 := (s.healRange (outerAddr m + page * 0x200000) 0x200000).modOuter m fun o =>
      let old := o.spares.findIdx? (· == some page)
      { o with
        copying := o.copying.filter (· != x)
        -- a spare that is itself replaced is lost: it stays taken by a page past the package's
        spares := (match old with | some i => o.spares.set i (some 65536) | none => o.spares).set x.2 (some page)
        pagesRetired := if old.isSome then o.pagesRetired else o.pagesRetired + 1 }
    .next (((s1.checkDegraded m).onFw fun f => { f with toRetire := f.toRetire ++ [.outerRemap m page x.2] }).onLife fun l =>
      { l with outerPagesRetired := satAdd 32 l.outerPagesRetired 1 }).retireDone

/-- OUTER_BUS_RETRAIN, R559: after 16 timeouts or parity events within 100 ms the requests in slots end by R237 and the bus is
retrained; a failed retrain, or the third within 600 s, makes the package unusable. -/
def execOuterBusRetrain (m : Nat) (ok : Bool) (s : State) : Host.Outcome State Fault Refusal :=
  let o := s.outer m
  let recent := o.faultTimes.filter fun t => decide (s.now < t + 100000000)
  if recent.length < 16 ∨ o.failed then .next s
  else
    let s1 := o.slotted.foldl (fun s r => s.expireReq m r) s
    let runs := (o.retrains.filter fun t => decide (s.now < t + 600000000000)) ++ [s.now]
    let s2 := (s1.modOuter m fun o => { o with faultTimes := [], retrains := runs, trained := ok }).outerEvent m .outerRetrain 0
    .next (if !ok ∨ 3 ≤ runs.length then s2.failPackage m else s2)

end Sys2Proof.Machine
end

