-- ==== Sys2Proof/Machine/Links.lean ====
section
/-!
DEFINITION. Lysdel links (chapter 10): frames and the frame control block, flits and their CRC, replay, credits, training,
leaving UP, quarantine (R359 to R373, R392, R393).
-/

namespace Sys2Proof.Machine

/-! ### CRC-32C, R364 -/

/-- One bit of the reflected polynomial 0x82F63B78. -/
def crcBit (c : Word) : Word := if c.getLsbD 0 then (c >>> 1) ^^^ 0x82F63B78#32 else c >>> 1
def crcBits : Nat → Word → Word
  | 0, c => c
  | n + 1, c => crcBits n (crcBit c)
/-- CRC-32C of bytes. -/
def crc32c (bs : List Byte) : Word := ~~~(bs.foldl (fun c b => crcBits 8 (c ^^^ b.zeroExtend 32)) 0xFFFFFFFF#32)

/-- The header of a flit, R362. -/
def flitHeader (f : Flit) : Nat :=
  f.seq % 4096 * 2 ^ 52 + f.vl % 4 * 2 ^ 50 + f.cls % 2 * 2 ^ 49 + f.pos % 4 * 2 ^ 47 + f.dest % 32768 * 2 ^ 32 +
    f.src % 32768 * 2 ^ 17 + f.length % 256 * 2 ^ 9 + (if f.poison then 2 ^ 8 else 0) + f.reserved % 256

/-- The CRC of a flit over its bytes 0 to 251. -/
def flitCrc (f : Flit) : Word :=
  crc32c (leBytes 8 (flitHeader f) ++ f.payload.take 244 ++ List.replicate (244 - f.payload.length) 0)

/-! ### Frames, R358 to R361 -/

/-- The frame control block without its CRC: bytes 0x00 to 0x4B (R361). -/
def fcbBody (f : Fcb) : List Byte :=
  leBytes 2 (f.slotValid % 32) ++ leBytes 2 ((if f.ackValid then 0x8000 else 0) + f.ackSeq % 4096) ++
    leBytes 2 (f.nakReason % 4 * 0x1000 + f.nakSeq % 4096) ++ leBytes 2 0 ++
    (List.range 8).flatMap (fun i => leBytes 2 (f.credits.getD i 0 % 65536)) ++ leBytes 4 f.heartbeat ++ List.replicate 48 0

/-- The 80 bytes of a frame control block, with Fcb_Crc at 0x4C. -/
def fcbBytes (f : Fcb) : List Byte := fcbBody f ++ leBytes 4 (crc32c (fcbBody f)).toNat

/-- The 256 bytes of a flit (R362, R364). -/
def flitBytes (f : Flit) : List Byte :=
  leBytes 8 (flitHeader f) ++ f.payload.take 244 ++ List.replicate (244 - f.payload.length) 0 ++ leBytes 4 (flitCrc f).toNat

/-- The message of a frame: five slots, empty ones zero, then the control block (R359). -/
def frameMessage (slots : List (Option Flit)) (fcb : Fcb) : List Byte :=
  (List.range 5).flatMap (fun i => match (slots[i]?).join with
    | some f => flitBytes f
    | none => List.replicate 256 0) ++ fcbBytes fcb

/-- The product in GF(2^10) with x^10 + x^3 + 1. -/
def gf10Mul (a b : BitVec 10) : BitVec 10 :=
  (List.range 10).reverse.foldl (fun r i =>
    let r2 := if r.getLsbD 9 then (r <<< 1) ^^^ 0x009#10 else r <<< 1
    if b.getLsbD i then r2 ^^^ a else r2) 0

/-- α^n, and the generator (x − 1)(x − α) … (x − α^(n−1)), coefficients from x^0 up. -/
def gf10Pow : Nat → BitVec 10
  | 0 => 1
  | n + 1 => gf10Mul 2 (gf10Pow n)
def fecGen : Nat → List (BitVec 10)
  | 0 => [1]
  | n + 1 => List.zipWith (fun a b => a ^^^ gf10Mul (gf10Pow n) b) (0 :: fecGen n) (fecGen n ++ [0])

/-- The 16 check symbols of the 272 message symbols of a codeword, from x^0 up; message symbol i is the coefficient of x^(i + 16), as in
the codes of R200 and R240 (log entry 184). -/
def fecCheck (msg : List (BitVec 10)) : List (BitVec 10) :=
  msg.reverse.foldl (fun r d =>
    let q := d ^^^ r.getLastD 0
    List.zipWith (fun a b => a ^^^ gf10Mul q b) (0 :: r.dropLast) (fecGen 16)) (List.replicate 16 0)

/-- The 1,088 symbols of a message, from the least significant bit of byte 0 upward. -/
def frameSymbols (msg : List Byte) : List (BitVec 10) := (List.range 1088).map fun i => BitVec.ofNat 10 (leNat (msg.drop (10 * i / 8)) / 2 ^ (10 * i % 8))

/-- The symbols of a frame as sent: message symbol i belongs to codeword i mod 4, and the 64 check symbols follow interleaved alike.
Symbol j goes on used lane j mod w (R359). -/
def frameSent (slots : List (Option Flit)) (fcb : Fcb) : List (BitVec 10) :=
  let ms := frameSymbols (frameMessage slots fcb)
  let checks := (List.range 4).map fun c =>
    fecCheck ((List.range 272).map fun i => ms.getD (4 * i + c) 0)
  ms ++ (List.range 64).map fun j => (checks.getD (j % 4) []).getD (j / 4) 0

/-- The control block that a link sends: what it has received good, the credits it has returned, and the reason and number of a NAK
(R361). -/
def LinkSt.fcb (k : LinkSt) (slotValid nakReason nakSeq heartbeat : Nat) : Fcb :=
  { slotValid := slotValid, ackValid := true, ackSeq := (k.rxSeq + 4095) % 4096, nakReason := nakReason, nakSeq := nakSeq,
    credits := (List.range 8).map fun i => lookD k.rxReturned i 0, heartbeat := heartbeat, crcOk := true }

/-! ### Credits, R366 -/

/-- VL × 2 + class. -/
def vlc (vl cls : Nat) : Nat := vl * 2 + cls % 2
/-- Flit buffers of a receiver for a VL and class. -/
def allotment (vl : Nat) : Nat := match vl with | 0 => 384 | 1 => 384 | 2 => 224 | _ => 32

/-! ### Sending -/

/-- Send waiting flits in order while the replay buffer of 512 has room and the head's VL and class has a credit. `fuel` bounds
the flits. -/
def State.drainTx (l : Nat) : Nat → State → State
  | 0, s => s
  | n + 1, s =>
    let k := s.linkSt l
    match k.txWait with
    | [] => s
    | f :: rest =>
      let i := vlc f.vl f.cls
      let spent := lookD k.txCredits i 0
      if 512 ≤ k.txBuffer.length ∨ allotment f.vl + lookD k.rxTotals i 0 ≤ spent ∨ k.state ≠ .up then s
      else
        let f0 := { f with seq := k.txSeq }
        let f1 := { f0 with crc := flitCrc f0 }
        State.drainTx l n ((s.modLink l fun k => { k with
          txWait := rest, txBuffer := k.txBuffer ++ [f1], txSeq := (k.txSeq + 1) % 4096
          txCredits := put k.txCredits i (spent + 1) }).emit (.flit l f1))

def State.drain (s : State) (l : Nat) : State := State.drainTx l (s.linkSt l).txWait.length s

/-- The packet header of R380. -/
def packetHeader (p : LPacket) : List Byte :=
  leBytes 1 p.op ++ leBytes 1 p.status ++ leBytes 2 p.tag ++ leBytes 2 p.length ++
    leBytes 2 (p.age % 1024 + (if p.alt then 1024 else 0) + (if p.turned then 2048 else 0)) ++ leBytes 8 p.address ++
    leBytes 4 p.instar ++ leBytes 2 p.rank ++ leBytes 2 p.step ++ leBytes 2 p.group ++ List.replicate 6 0

/-- The flits of a packet, R362, R363: Poison covers the elements that the flit carries. -/
def flitsOf (p : LPacket) : List Flit :=
  let bs := packetHeader p ++ p.data
  let ms := List.replicate 32 false ++ bytesMarked p
  let n := (bs.length + 243) / 244
  (List.range n).map fun i =>
    let part := (bs.drop (244 * i)).take 244
    { seq := 0, vl := p.vl, cls := p.cls, pos := if n = 1 then 0 else if i = 0 then 1 else if i + 1 = n then 3 else 2,
      dest := p.dest, src := p.src, length := part.length, poison := ((ms.drop (244 * i)).take 244).any id, reserved := 0, payload := part, crc := 0 }

/-- Send a packet on a link. -/
def State.sendOn (s : State) (l : Nat) (p : LPacket) : State :=
  ((s.modLink l fun k => { k with txWait := k.txWait ++ flitsOf p }).emit (.packet (some l) p)).drain l

/-- Resend unacknowledged flits from one on, R365. -/
def State.resend (s : State) (l : Nat) (fs : List Flit) : State :=
  fs.foldl (fun s f => s.emit (.flit l f)) (s.modLink l fun k => { k with replays := satAdd 32 k.replays fs.length })

/-! ### Violations, R392, R393 -/

/-- Count violations within 10 ms. -/
def State.violate (s : State) (l n : Nat) : State := s.modLink l fun k =>
  { k with violations := (k.violations.filter fun t => decide (s.now < t + 10000000)) ++ List.replicate n s.now }

/-- A malformed flit: counted, reported with Nak Reason PROTOCOL. -/
def State.malformedFlit (s : State) (l seq n : Nat) : State :=
  ((s.modLink l fun k => { k with malformed := satAdd 16 k.malformed 1 }).violate l n).emit (.linkNak l 2 seq)

/-- A CRC error: every flit is dropped until the expected one comes (R365). -/
def State.crcError (s : State) (l : Nat) : State :=
  (s.modLink l fun k => { k with crcErrors := satAdd 16 k.crcErrors 1, rxDropping := true }).emit
    (.linkNak l 1 (s.linkSt l).rxSeq)

/-! ### Receiving -/

/-- The operations of R381, and those that are requests. -/
def opKnown (op : Nat) : Bool := [0x01, 0x02, 0x03, 0x10, 0x11, 0x12, 0x1F, 0x20, 0x21, 0x22, 0x30, 0x31].contains op
def opRequest (op : Nat) : Bool := op == 1 || op == 2 || op == 3
/-- The virtual lane of an operation, R381. -/
def opVl (op : Nat) : Nat := if op < 0x10 then 0 else if op < 0x20 then 1 else if op < 0x30 then 2 else 3

/-- The packet that received payload spells, with the header of its flits; `ms` marks the bytes. -/
def parsePacket (f : Flit) (bs : List Byte) (ms : List Bool) : LPacket :=
  let r := field bs 6 2
  { src := f.src, dest := f.dest, vl := f.vl, cls := f.cls, poison := packetMarks (ms.drop 32), op := field bs 0 1, status := field bs 1 1,
    tag := field bs 2 2, age := r % 1024, alt := r / 1024 % 2 == 1, turned := r / 2048 % 2 == 1, address := field bs 8 8,
    length := field bs 4 2, instar := field bs 16 4, rank := field bs 20 2, step := field bs 22 2, group := field bs 24 2,
    data := bs.drop 32 }

/-- A packet header agrees with its flits: the operation is known, on its lane, with as many data bytes as Length says; a READ
carries none and asks for Length bytes (R381). -/
def packetOk (p : LPacket) (bs : List Byte) : Bool :=
  opKnown p.op && p.vl == opVl p.op && decide (32 ≤ bs.length) &&
    (if p.op = 1 then p.data.isEmpty else p.length == p.data.length) && decide (p.length ≤ 2048) &&
    p.length % 32 == 0

/-- Credits go back to the partner (R367). -/
def State.returnRx (s : State) (l i n : Nat) : State := s.modLink l fun k =>
  { k with rxReturned := put k.rxReturned i ((lookD k.rxReturned i 0 + n) % 65536) }

/-- The buffers of received flits free, and their credits go back. -/
def State.freeRx (s : State) (l i n : Nat) : State :=
  (s.modLink l fun k => { k with rxUsed := putD k.rxUsed i (lookD k.rxUsed i 0 - n) 0 }).returnRx l i n

/-- A whole packet has been delivered: its buffers free. -/
def State.delivered (s : State) (l : Nat) (p : LPacket) : State :=
  match (s.linkSt l).rxDone.find? (·.1 = p) with
  | none => s
  | some x => (s.modLink l fun k => { k with rxDone := k.rxDone.erase x }).freeRx l (vlc p.vl p.cls) x.2

/-- Frames travel on the link: it is UP, or it drains after UP (R373). -/
def LinkSt.carries (k : LinkSt) : Bool := k.state == .up || (k.state == .draining && k.width != 0)

/-- A flit with the expected Seq and a good CRC, R362, R363, R367, R392. A flit that is dropped frees its buffer at once (log
entry 139). -/
def State.acceptFlit (s : State) (l : Nat) (f : Flit) : State :=
  let s1 := s.modLink l fun k => { k with rxSeq := (k.rxSeq + 1) % 4096, rxDropping := false }
  let k := s1.linkSt l
  let i := vlc f.vl f.cls
  let used := lookD k.rxUsed i 0
  let part := look k.rxPart i
  let held := part.getD {}
  if allotment f.vl ≤ used then s1.malformedFlit l f.seq 16
  else if f.reserved ≠ 0 ∨ 3 < f.vl ∨ f.length = 0 ∨ 244 < f.length then (s1.returnRx l i 1).malformedFlit l f.seq 1
  else if k.rxSkip.contains i ∧ (f.pos = 2 ∨ f.pos = 3) then
    -- the rest of a packet that is being dropped
    (s1.returnRx l i 1).modLink l fun k => { k with rxSkip := if f.pos = 3 then k.rxSkip.filter (· != i) else k.rxSkip }
  else if (part.isSome ∧ (f.pos = 0 ∨ f.pos = 1)) ∨ (part.isNone ∧ (f.pos = 2 ∨ f.pos = 3)) then
    (((s1.modLink l fun k => { k with
      rxPart := del k.rxPart i
      rxSkip := if f.pos = 1 ∨ f.pos = 2 then insertSet k.rxSkip i else k.rxSkip.filter (· != i) }).freeRx l i held.flits).returnRx
        l i 1).malformedFlit l f.seq 1
  else
    let bs := held.bytes ++ f.payload.take f.length
    let ms := held.marks ++ List.replicate (f.payload.take f.length).length f.poison
    let s2 := s1.modLink l fun k => { k with rxUsed := put k.rxUsed i (used + 1), rxSkip := k.rxSkip.filter (· != i) }
    if f.pos = 1 ∨ f.pos = 2 then
      s2.modLink l fun k => { k with rxPart := put k.rxPart i { bytes := bs, marks := ms, flits := held.flits + 1 } }
    else
      let s3 := s2.modLink l fun k => { k with rxPart := del k.rxPart i }
      let p := parsePacket f bs ms
      if packetOk p bs then s3.modLink l fun k => { k with rxDone := k.rxDone ++ [(p, held.flits + 1)] }
      else
        let s4 := (s3.freeRx l i (held.flits + 1)).malformedFlit l f.seq 1
        if opRequest p.op then s4.nakSource p stBadArg else s4

/-- A flit arrives, R364, R365, R392. -/
def State.recvFlit (s : State) (l : Nat) (f : Flit) : State :=
  let k := s.linkSt l
  if !k.carries then s
  else if f.crc ≠ flitCrc f then s.crcError l
  else
    let ahead := (f.seq + 4096 - k.rxSeq) % 4096
    if ahead = 0 then s.acceptFlit l f
    else if 512 < ahead then ((s.modLink l fun k => { k with malformed := satAdd 16 k.malformed 1 }).crcError l).violate l 1
    else if k.rxDropping then s
    else s.crcError l

/-- The sequence numbers that an acknowledgement covers. -/
def ackedBy (ack : Nat) (f : Flit) : Bool := decide ((ack + 4096 - f.seq) % 4096 < 2048)

/-- A CRC NAK: resend from Nak_Seq on (R365). -/
def State.crcNak (s : State) (l seq : Nat) : State :=
  s.resend l ((s.linkSt l).txBuffer.dropWhile fun f => f.seq != seq)

/-- Waiting flits of a VL and class without those up to the end of the packet begun (R363). -/
def dropPacket (vl cls : Nat) : List Flit → List Flit
  | [] => []
  | x :: t =>
    if x.vl = vl ∧ x.cls = cls then (if x.pos = 3 then t else if x.pos = 2 then dropPacket vl cls t else x :: t)
    else x :: dropPacket vl cls t

/-- A PROTOCOL NAK: the packet of the flit is discarded and not resent (R392). -/
def State.protocolNak (s : State) (l seq : Nat) : State :=
  let buf := (s.linkSt l).txBuffer
  match buf.find? (·.seq == seq) with
  | none => s
  | some f =>
    let same (x : Flit) : Bool := x.vl == f.vl && x.cls == f.cls
    let before := (buf.takeWhile fun x => x.seq != seq).filter same
    let after := ((buf.dropWhile fun x => x.seq != seq).drop 1).filter same
    -- back to the first flit of the packet and on to its last
    let head := if f.pos = 0 ∨ f.pos = 1 then [] else
      let r := before.reverse
      r.takeWhile (·.pos == 2) ++ ((r.dropWhile (·.pos == 2)).take 1)
    let tail := if f.pos = 0 ∨ f.pos = 3 then [] else
      after.takeWhile (·.pos == 2) ++ ((after.dropWhile (·.pos == 2)).take 1)
    let gone := f :: head ++ tail
    let k := s.linkSt l
    -- the flits of the packet that still wait
    let cut := f.pos != 0 && !gone.any (·.pos == 3)
    (s.modLink l fun k => { k with
      txBuffer := k.txBuffer.filter fun x => !gone.contains x
      txWait := if cut then dropPacket f.vl f.cls k.txWait else k.txWait }).logEvent .linkProtocolRx
      { ut := utLink, ui := l, partner := if k.partnerKnown then 0x8000 + k.partnerId else 0 }

/-- A frame control block arrives, R361, R365, R367, R392. -/
def State.recvFcb (s : State) (l : Nat) (f : Fcb) : State :=
  if !f.crcOk ∨ !(s.linkSt l).carries then s
  else
    let s1 := s.modLink l fun k => { k with
      lastGood := s.now, txBuffer := if f.ackValid then k.txBuffer.filter fun x => !ackedBy f.ackSeq x else k.txBuffer }
    let s2 := (List.range 8).foldl (fun s i =>
      let k := s.linkSt l
      let old := lookD k.rxTotals i 0
      -- totals count modulo 65,536 upward from the last one seen
      let new := old + (f.credits.getD i 0 + 65536 - old % 65536) % 65536
      let spent := lookD k.txCredits i 0
      if spent < new then (s.modLink l fun k => { k with
          rxTotals := put k.rxTotals i spent, malformed := satAdd 16 k.malformed 1 }).violate l 16
      else s.modLink l fun k => { k with rxTotals := put k.rxTotals i new }) s1
    let s3 := if f.nakReason = 1 then s2.crcNak l f.nakSeq else if f.nakReason = 2 then s2.protocolNak l f.nakSeq else s2
    s3.drain l

/-- LINK_FRAME_RX, R359, R360: the symbols in error of its four codewords decide; an uncorrectable frame's flits are CRC
errors and its FCB is ignored. -/
def execLinkFrameRx (l : Nat) (codewordErrors : List Nat) (flits : List Flit) (fcb : Fcb) (s : State) :
    Host.Outcome State Fault Refusal :=
  if !(s.linkSt l).carries then .next s
  else if codewordErrors.any fun n => decide (8 < n) then
    let s1 := s.modLink l fun k => { k with
      fecUncorrectable := satAdd 16 k.fecUncorrectable 1
      badFrames := (k.badFrames.filter fun t => decide (s.now < t + 1000000)) ++ [s.now] }
    .next (flits.foldl (fun s _ => s.crcError l) s1)
  else
    let s1 := s.modLink l fun k => { k with fecCorrected := satAdd 32 k.fecCorrected codewordErrors.sum }
    .next ((flits.foldl (fun s f => s.recvFlit l f) s1).recvFcb l fcb)

/-- FCB_RX, R361. -/
def execFcbRx (l : Nat) (fcb : Fcb) (s : State) : Host.Outcome State Fault Refusal := .next (s.recvFcb l fcb)

/-- FLIT_RX, R362, R364, R365, R392. -/
def execFlitRx (l : Nat) (flit : Flit) (s : State) : Host.Outcome State Fault Refusal := .next (s.recvFlit l flit)

/-- CRC_NAK, R365. -/
def execCrcNak (l seq : Nat) (s : State) : Host.Outcome State Fault Refusal := .next (s.crcNak l seq)

/-- PROTOCOL_NAK, R392. -/
def execProtocolNak (l seq : Nat) (s : State) : Host.Outcome State Fault Refusal := .next (s.protocolNak l seq)

/-- REPLAY_TIMEOUT, R365: Ack_Seq has not advanced for 4 µs while flits are outstanding. -/
def execReplayTimeout (l : Nat) (s : State) : Host.Outcome State Fault Refusal := .next (s.resend l (s.linkSt l).txBuffer)

/-! ### Training, R368 to R373 -/

/-- What a link forgets when it leaves UP, R372. -/
def LinkSt.clear (k : LinkSt) : LinkSt :=
  { k with
    txSeq := 0, txBuffer := [], txWait := [], rxSeq := 0, rxDropping := false, rxPart := [], rxSkip := [], rxDone := []
    txCredits := [], rxTotals := [], rxUsed := [], rxReturned := [], badFrames := [], width := 0 }

/-- A state other than UP, with Link_Event when UP is left. -/
def State.linkTo (s : State) (l : Nat) (st : LState) : State :=
  let was := (s.linkSt l).state
  let s1 := s.modLink l fun k => { (if was = .up then k.clear else k) with state := st }
  if was = .up ∨ st = .mismatch ∨ st = .quarantine then s1.alert alLink else s1

/-- Leave UP for RETRAIN, R372. -/
def State.leaveUp (s : State) (l : Nat) : State :=
  (s.linkTo l .retrain).modLink l fun k => { k with retrains := satAdd 8 k.retrains 1, retrainBit := false }

/-- Step 1 of R369. -/
def State.startAttempt (s : State) (l : Nat) : State :=
  s.modLink l fun k => { k with state := .detect, lanesSeen := 0, lanesUsed := 0, width := 0 }

/-- An attempt ends without success, R369. -/
def State.attemptFailed (s : State) (l : Nat) : State :=
  (s.modLink l fun k => { k with state := .down, failures := k.failures + 1, width := 0, lanesUsed := 0 }).logEvent .linkTrainFail
    { ut := utLink, ui := l }

/-- LINK_ATTEMPT_START, R369: entry into TRAINING, a retry, or an enable. -/
def execLinkAttemptStart (l : Nat) (s : State) : Host.Outcome State Fault Refusal :=
  if (s.linkSt l).state = .down then .next (s.startAttempt l) else .next s

/-- PARTNER_DETECTED, R369: on at least one lane. -/
def execPartnerDetected (l lanes : Nat) (s : State) : Host.Outcome State Fault Refusal :=
  if (s.linkSt l).state ≠ .detect ∨ lanes % 256 = 0 then .next s
  else .next (s.modLink l fun k => { k with state := .equalise, lanesSeen := lanes % 256 })

/-- The lanes of the aligned groups of a width, as masks, lowest first (R370). -/
def laneGroups (w : Nat) : List Nat :=
  match w with
  | 8 => [0xFF]
  | 4 => [0x0F, 0xF0]
  | 2 => [0x03, 0x0C, 0x30, 0xC0]
  | _ => [1, 2, 4, 8, 16, 32, 64, 128]

/-- The widths allowed by Width_Max, largest first; other values act as 8. -/
def allowedWidths (wmax : Nat) : List Nat :=
  let m := if wmax = 1 ∨ wmax = 2 ∨ wmax = 4 then wmax else 8
  [8, 4, 2, 1].filter (· ≤ m)

/-- The width and lanes that R370 chooses from the lanes good in both directions. -/
def chooseWidth (wmax good : Nat) : Option (Nat × Nat) :=
  (allowedWidths wmax).findSome? fun w => ((laneGroups w).find? fun g => good &&& g == g).map fun g => (w, g)

/-- EQUALISE_DONE, R369, R370. -/
def execEqualiseDone (l goodRx goodTx : Nat) (s : State) : Host.Outcome State Fault Refusal :=
  let k := s.linkSt l
  if k.state ≠ .equalise ∧ k.state ≠ .retrain then .next s
  else match chooseWidth k.widthMax (goodRx &&& goodTx) with
  | none => .next (s.attemptFailed l)
  | some (w, g) => .next (s.modLink l fun k => { k with state := .deskew, width := w, lanesUsed := BitVec.ofNat 8 g })

/-- DESKEW_DONE, R368, R369: frames are locked and lanes aligned; MGMT_ID is sent. -/
def execDeskewDone (l : Nat) (reversed : Bool) (polarity : Byte) (s : State) : Host.Outcome State Fault Refusal :=
  if (s.linkSt l).state ≠ .deskew then .next s
  else .next ((s.modLink l fun k => { k with state := .identify, reversed := reversed, polarity := polarity }).emit (.linkId l))

/-- Coordinate k of a node of the torus, R375. -/
def coord (dev k : Nat) : Nat := dev / 32 ^ k % 32

/-- The neighbour that R375 requires on a link, with its link: none on L6 and L7. -/
def torusNeighbour (dev l : Nat) : Option (Nat × Nat) :=
  if l < 6 then
    let k := l / 2
    let a := coord dev k
    let b := if l % 2 = 0 then (a + 1) % 32 else (a + 31) % 32
    some (dev % 32768 - a * 32 ^ k + b * 32 ^ k, if l % 2 = 0 then l + 1 else l - 1)
  else none

/-- The partner is refused, R371. -/
def State.refusesPartner (s : State) (l : Nat) (system : Word) (device link version : Nat) (torus : Bool) : Bool :=
  system != s.lys.systemId || device == s.lys.deviceId || version != 1 ||
    (s.lys.torus && torus && (match torusNeighbour s.lys.deviceId l with
      | some n => !(n == (device, link))
      | none => false))

/-- MGMT_ID, R368, R369, R371: the partner is refused, or the link enters UP. -/
def execMgmtId (l : Nat) (system : Word) (device link version : Nat) (torus : Bool) (s : State) :
    Host.Outcome State Fault Refusal :=
  if (s.linkSt l).state ≠ .identify then .next s
  else
    let s1 := s.modLink l fun k => { k with partnerId := device % 32768, partnerKnown := true, partnerLink := link % 8 }
    if s.refusesPartner l system device link version torus then
      .next (((s1.linkTo l .mismatch).modLink l fun k => { k with width := 0 }).logEvent .linkMismatch
        { ut := utLink, ui := l, partner := 0x8000 + device % 32768 })
    else
      let w := (s.linkSt l).width
      let s2 := s1.modLink l fun k =>
        { k.clear with state := .up, width := w, failures := 0, upSince := s.now, lastGood := s.now }
      .next (if w < 8 then s2.logEvent .linkDegraded { ut := utLink, ui := l } else s2)

/-- States between the start of an attempt and UP. -/
def LState.attempting : LState → Bool
  | .detect | .equalise | .deskew | .identify | .retrain => true
  | _ => false

/-- ATTEMPT_TIMEOUT, R369: a step has not happened by its latest time. -/
def execAttemptTimeout (l : Nat) (s : State) : Host.Outcome State Fault Refusal :=
  if (s.linkSt l).state.attempting then .next (s.attemptFailed l) else .next s

/-- ATTEMPT_RETRY_TIMER, R369: 100 ms after a failed attempt, or 1 s once three in a row have failed. -/
def execAttemptRetryTimer (l : Nat) (s : State) : Host.Outcome State Fault Refusal :=
  if (s.linkSt l).state = .down ∧ (s.linkSt l).failures ≠ 0 then .next (s.startAttempt l) else .next s

/-- MISMATCH_RETRY, R368: every 10 s. -/
def execMismatchRetry (l : Nat) (s : State) : Host.Outcome State Fault Refusal :=
  if (s.linkSt l).state = .mismatch then .next (s.startAttempt l) else .next s

/-- LINK_LEAVE_UP, R372: more than 16 uncorrectable frames within 1 ms, or no good FCB for 10 µs. -/
def execLinkLeaveUp (l : Nat) (s : State) : Host.Outcome State Fault Refusal :=
  if (s.linkSt l).state = .up then .next (s.leaveUp l) else .next s

/-- LINK_RETRAIN, R372, R395: the Retrain bit, or the LINK command, moves an UP link to RETRAIN. -/
def execLinkRetrain (l : Nat) (s : State) : Host.Outcome State Fault Refusal :=
  if (s.linkSt l).state = .up then .next (s.leaveUp l) else .next s

/-- Disable a link, R373: DRAINING; a second disable cancels a latched enable. -/
def State.disableLink (s : State) (l : Nat) : State :=
  let k := s.linkSt l
  match k.state with
  | .disabled => s.modLink l fun k => { k with enable := false }
  | .draining => s.modLink l fun k => { k with enable := false, pendingOn := false }
  | .up => (s.alert alLink).modLink l fun k => { k with enable := false, state := .draining }
  | _ => s.modLink l fun k => { k with enable := false, state := .draining, width := 0 }

/-- Enable a link, R373. -/
def State.enableLink (s : State) (l : Nat) : State :=
  let k := s.linkSt l
  match k.state with
  | .disabled => s.modLink l fun k => { k with enable := true, state := .down, failures := 0 }
  | .draining => s.modLink l fun k => { k with enable := true, pendingOn := true }
  | _ => s

/-- LINK_DISABLE, R373. -/
def execLinkDisable (l : Nat) (s : State) : Host.Outcome State Fault Refusal := .next (s.disableLink l)

/-- LINK_ENABLE, R373. -/
def execLinkEnable (l : Nat) (s : State) : Host.Outcome State Fault Refusal := .next (s.enableLink l)

/-- LINK_DRAIN_END, R373: no flit is unacknowledged, or 1 ms has passed; a latched enable is applied. -/
def execLinkDrainEnd (l : Nat) (s : State) : Host.Outcome State Fault Refusal :=
  if (s.linkSt l).state ≠ .draining then .next s
  else .next (s.modLink l fun k =>
    let on := k.pendingOn
    { k.clear with state := if on then .down else .disabled, pendingOn := false, enable := on, lanesUsed := 0 })

/-- LINK_QUARANTINE, R393: 16 violations within 10 ms; each further quarantine doubles the back-off, up to 10.24 s. -/
def execLinkQuarantine (l : Nat) (s : State) : Host.Outcome State Fault Refusal :=
  let k := s.linkSt l
  let recent := k.violations.filter fun t => decide (s.now < t + 10000000)
  if k.state ≠ .up ∨ recent.length < 16 then .next s
  else
    let s1 := (s.linkTo l .quarantine).modLink l fun k => { k with
      quarantines := satAdd 8 k.quarantines 1, violations := [], backoffMs := min 10240 (2 * k.backoffMs) }
    .next (s1.logEvent .linkQuarantine { ut := utLink, ui := l, partner := if k.partnerKnown then 0x8000 + k.partnerId else 0 })

/-- BACKOFF_END, R393: the link starts an attempt at step 1 of R369. -/
def execBackoffEnd (l : Nat) (s : State) : Host.Outcome State Fault Refusal :=
  if (s.linkSt l).state = .quarantine then .next (s.startAttempt l) else .next s

/-- BACKOFF_RELAX, R393: UP for 60 s without a violation. -/
def execBackoffRelax (l : Nat) (s : State) : Host.Outcome State Fault Refusal :=
  if (s.linkSt l).state = .up then .next (s.modLink l fun k => { k with backoffMs := 10 }) else .next s

end Sys2Proof.Machine
end

