-- ==== Sys2Proof/Machine/Feeds.lean ====
section
/-!
DEFINITION. Feeds, the first stage, RST_N and the sag sequence (R32 to R45, R498, R499, R517, R518, and the transitions of R464
that they cause).
-/

namespace Sys2Proof.Machine

/-- Feed A is 0, feed B is 1. -/
def Pwr.feed (p : Pwr) (f : Nat) : Feed := if f = 0 then p.feedA else p.feedB
def Pwr.modFeed (p : Pwr) (f : Nat) (g : Feed → Feed) : Pwr :=
  if f = 0 then { p with feedA := g p.feedA } else { p with feedB := g p.feedB }
/-- The value of Conducting for one feed. -/
def conductingOf (f : Nat) : Nat := f + 1

/-- The bundle that runs: that of the slot ROM last booted, or the recovery image (R451). -/
def State.activeBundle (s : State) : Option BundleInfo :=
  match s.fw.image with
  | .none => none
  | .slotA => s.fw.slotA.bundle
  | .slotB => s.fw.slotB.bundle
  | .recovery => s.fw.recovery

/-- A cold start into POWERING, R464, R465. -/
def State.powerUp (s : State) : State :=
  (s.cold .powering).onFw fun f => { f with coldStarts := satAdd 32 f.coldStarts 1 }

/-- SAVING is left for POWERING once the record is complete and a feed is in range (R464); after a trip during SAVING it is left
for TRIPPED (R517, R539). -/
def State.leaveSaving (s : State) : State :=
  if s.dev ≠ .saving ∨ !s.pwr.recorded then s
  else if s.pwr.thermtrip then { s with dev := .tripped }
  else if s.pwr.feedA.ok ∨ s.pwr.feedB.ok then s.powerUp
  else s

/-- The feeds that conduct change to `c` (0 none, 1 A, 2 B, 3 both). It is a switch-over when a feed that conducted does so no
longer and the other carries the load (R33); a feed that joins the conducting one is none. -/
def State.conduct (s : State) (c : Nat) : State :=
  let was := s.pwr.conducting
  let s1 := s.onPwr fun p => { p with conducting := c }
  if (c = 1 ∧ (was = 2 ∨ was = 3)) ∨ (c = 2 ∧ (was = 1 ∨ was = 3)) then
    (s1.onPwr fun p => { p with switchOvers := satAdd 32 p.switchOvers 1 }).onLife fun l =>
      { l with switchovers := satAdd 32 l.switchovers 1, svcSwitchovers := satAdd 32 l.svcSwitchovers 1 }
  else s1

/-- The load leaves feed `f`: the other feed takes it if it is in range and connected, and without it nothing moves (R33). -/
def State.moveLoad (s : State) (f : Nat) : State :=
  let o := s.pwr.feed (1 - f)
  if s.pwr.conducting ≠ conductingOf f ∧ s.pwr.conducting ≠ 3 then s
  else if o.ok ∧ o.connected ∧ o.mated then s.conduct (conductingOf (1 - f))
  else s

/-- A feed's OK pin is asserted, R34; the load is taken when no feed carries it. The feed counts as mated and connected again: the
table has no row for FEED_MATE_N closing, and a feed that has been in range at the connector for 10 ms is mated and below the
voltage of a reconnection (DESIGN CHOICE, log entry 161). -/
def State.feedOk (s : State) (f : Nat) : State :=
  s.onPwr fun p => { p.modFeed f fun x => { x with ok := true, mated := true, connected := true } with
    conducting := if p.conducting = 0 then conductingOf f else p.conducting }

/-- FEED_IN_RANGE, R34, R464. -/
def execFeedInRange (f : Nat) (s : State) : Host.Outcome State Fault Refusal :=
  if 2 ≤ f then .next s
  else
    let s1 := s.feedOk f
    .next (if s.dev = .off then s1.powerUp else s1.leaveSaving)

/-- FEED_RETURN, R464: after the record. -/
def execFeedReturn (f : Nat) (s : State) : Host.Outcome State Fault Refusal :=
  if 2 ≤ f ∨ s.dev ≠ .saving then .next s else .next (s.feedOk f).leaveSaving

/-- A feed's OK pin is deasserted: FEED_LOST and the Power alert (R427, R553). -/
def State.feedLost (s : State) (f : Nat) : State :=
  if !(s.pwr.feed f).ok then s
  else
    let s1 := s.onPwr fun p => p.modFeed f fun x => { x with ok := false }
    if s.dev = .off then s1 else (s1.logEvent .feedLost { ut := utFeed, ui := f }).alert alPower

/-- FEED_OUT_OF_RANGE, R34. -/
def execFeedOutOfRange (f : Nat) (s : State) : Host.Outcome State Fault Refusal :=
  if 2 ≤ f then .next s else .next (s.feedLost f)

/-- A feed that its switch has disconnected carries nothing: without the other feed none conducts. -/
def State.dropFeed (s : State) (f : Nat) : State :=
  if s.pwr.conducting = conductingOf f then s.onPwr fun p => { p with conducting := 0 }
  else if s.pwr.conducting = 3 then s.conduct (conductingOf (1 - f)) else s

/-- FEED_OVERVOLTAGE, R33, R34: above 61.0 V the switch disconnects the feed. -/
def execFeedOvervoltage (f : Nat) (s : State) : Host.Outcome State Fault Refusal :=
  if 2 ≤ f then .next s
  else .next ((((s.onPwr fun p => p.modFeed f fun x => { x with connected := false }).feedLost f).moveLoad f).dropFeed f)

/-- FEED_RECONNECT, R33: at or below 60.0 V for 10 ms. -/
def execFeedReconnect (f : Nat) (s : State) : Host.Outcome State Fault Refusal :=
  if 2 ≤ f then .next s else .next (s.onPwr fun p => p.modFeed f fun x => { x with connected := true })

/-- FEED_MATE_OPEN, R33, R34. -/
def execFeedMateOpen (f : Nat) (s : State) : Host.Outcome State Fault Refusal :=
  if 2 ≤ f then .next s
  else .next (((s.onPwr fun p => p.modFeed f fun x => { x with mated := false }).feedLost f).moveLoad f)

/-- FEED_SWITCHOVER, R33: the conducting feed falls and the other carries the load; the switch-over is counted. -/
def execFeedSwitchover (s : State) : Host.Outcome State Fault Refusal :=
  if s.pwr.conducting = 1 then .next (s.moveLoad 0)
  else if s.pwr.conducting = 2 then .next (s.moveLoad 1)
  else .next s

/-- HOUSEKEEPING_SUPPLY_UP, R41: row J is driven. -/
def execHousekeepingSupplyUp (s : State) : Host.Outcome State Fault Refusal :=
  .next (s.onPwr fun p => { p with rowJ := true })

/-- FIRST_STAGE_STOP, R498: below 38.0 V at the OR node. -/
def execFirstStageStop (s : State) : Host.Outcome State Fault Refusal :=
  .next (s.onPwr fun p => { p with firstStage := false, vpkg := false, vom := false, vpkgA := 0 })

/-- FIRST_STAGE_START, R498: above 43.0 V at the OR node, while the device has power. In SAVING and TRIPPED VOM stays off (R517,
R539). -/
def execFirstStageStart (s : State) : Host.Outcome State Fault Refusal :=
  if s.dev = .off then .next s
  else .next (s.onPwr fun p => { p with firstStage := true, vpkg := true, vom := s.dev != .saving && s.dev != .tripped })

/-- OR_NODE_LOW, R41, R45, R464: below 20 V everything is unpowered, and THERMTRIP_N is released. -/
def execOrNodeLow (s : State) : Host.Outcome State Fault Refusal :=
  if s.dev ≠ .saving ∧ s.dev ≠ .tripped ∧ s.dev ≠ .off then .next s
  else
    let s1 := s.cold .off
    .next (s1.onPwr fun p => { p with
      rowJ := false, conducting := 0, feedA := { p.feedA with ok := false }, feedB := { p.feedB with ok := false } })

/-- POWER_MEASURE, R33, R499, R587: feed voltages, module power and VPKG current; feeds within 0.2 V of each other share the
load. -/
def execPowerMeasure (aMv bMv powerMw vpkgA : Nat) (s : State) : Host.Outcome State Fault Refusal :=
  if s.dev = .off then .next s
  else
    let usable (x : Feed) : Bool := x.connected && x.mated && x.ok
    let a := usable s.pwr.feedA
    let b := usable s.pwr.feedB
    let cond := if a ∧ b then
        (if aMv < bMv + 200 ∧ bMv < aMv + 200 then 3 else if bMv < aMv then 1 else 2)
      else if a then 1 else if b then 2 else s.pwr.conducting
    .next (((s.onPwr fun p => { p with
      feedA := { p.feedA with mv := aMv }, feedB := { p.feedB with mv := bMv }, powerMw := powerMw, vpkgA := vpkgA }).conduct
      cond).onLife fun l => { l with energy := l.energy + powerMw })

/-! ### RST_N, R44 -/

/-- RST_N_ASSERT, R44: ten low samples make a device reset, held at the start of ROM; not in SAVING, OFF and TRIPPED. -/
def execRstNAssert (s : State) : Host.Outcome State Fault Refusal :=
  let s1 := s.onPwr fun p => { p with rstLow := true }
  if s.dev = .off ∨ s.dev = .saving ∨ s.dev = .tripped then .next s1 else .next s1.deviceReset

/-- RST_N_RELEASE, R44. -/
def execRstNRelease (s : State) : Host.Outcome State Fault Refusal :=
  .next ((s.onPwr fun p => { p with rstLow := false }).onFw fun f => { f with rstHeld := false })

/-! ### Sag, R517, R518 -/

/-- The device state in DEV_STATUS, R18. -/
def DevState.code : DevState → Nat
  | .off => 0 | .powering => 1 | .rom => 2 | .training => 3 | .filling => 4 | .selftest => 5 | .eclosion => 6 | .ready => 7
  | .computeReset => 8 | .cocoon => 9 | .saving => 0xA | .tripped => 0xB

/-- The newest `n` records of the error log, newest first. -/
def Log.newest (l : Log) (n : Nat) : List ErrRec :=
  (List.range (min n l.next)).filterMap fun i =>
    let k := l.next - 1 - i
    (look l.ring (k % 65536)).bind fun r => if r.index = k then some r else none

/-- The record of R518 at step 1. -/
def State.gaspOf (s : State) (orMv : Nat) : GaspRec :=
  { before := s.dev.code, holdupLow := s.pwr.holdupLow, time := s.now, wall := s.ctl.wallLast, wallTime := s.ctl.wallTime
    atSag := (s.pwr.feedA.mv, s.pwr.feedB.mv, orMv), powerMw := s.pwr.mean10 * 1000, capLevel := s.pwr.capLevel
    journalNext := s.work.journalNext, errNext := s.log.next
    digestLo := match s.activeBundle with | some b => b.digest.toNat % 2 ^ 64 | none => 0
    temps := (List.range 4).map s.heat.stackTemps, errors := s.log.newest 251 }

/-- SAG, R517 steps 1 to 4: both feeds are below 44.0 V. -/
def execSag (orMv : Nat) (s : State) : Host.Outcome State Fault Refusal :=
  if s.dev = .off ∨ s.dev = .tripped ∨ s.dev = .saving then .next s
  else
    let r := s.gaspOf orMv
    let s1 := s.powerDown
    .next { s1 with
      dev := .saving
      pwr := { s1.pwr with
        feedA := { s1.pwr.feedA with ok := false }, feedB := { s1.pwr.feedB with ok := false }, sagRec := some r
        recorded := false } }

/-- SAG_RECORD_DONE, R455, R517 step 5: the record goes to the lowest erased slot; without one nothing is written. -/
def execSagRecordDone (orMv : Nat) (s : State) : Host.Outcome State Fault Refusal :=
  match s.dev, s.pwr.sagRec with
  | .saving, some r =>
    let r1 := { r with atEnd := (s.pwr.feedA.mv, s.pwr.feedB.mv, orMv) }
    let s1 := s.onPwr fun p => { p with sagRec := none, recorded := true }
    let s2 := match lowestFree (keys s.fw.lastGasp) 64 with
      | none => s1
      | some i => s1.onFw fun f => { f with lastGasp := put f.lastGasp i r1 }
    .next s2.leaveSaving
  | _, _ => .next s

end Sys2Proof.Machine
end

