-- ==== Sys2Proof/Machine/Boot.lean ====
section
/-!
DEFINITION. Cold bring-up (R29 to R31, R35, R451 to R472): straps, the choice of an image, training, self-test, the broadcast of
cluster firmware, eclosion, and the copies of the last-gasp region (R455).
-/

namespace Sys2Proof.Machine

/-! ### Images and slots, R451, R459 to R462 -/

/-- Slot A (true) or slot B. -/
def Fw.slot (f : Fw) (a : Bool) : Slot := if a then f.slotA else f.slotB
def State.modSlot (s : State) (a : Bool) (g : Slot → Slot) : State :=
  s.onFw fun f => if a then { f with slotA := g f.slotA } else { f with slotB := g f.slotB }

/-- The slot that staging writes: the one ROM did not boot, or for the recovery image the one of R462. True is slot A. -/
def Fw.chrysalis (f : Fw) : Bool :=
  match f.image with
  | .slotA => false
  | .slotB => true
  | _ =>
    if f.slotA.state ≠ .active then true
    else if f.slotB.state ≠ .active then false
    else decide (f.slotA.seq.getD 0 < f.slotB.seq.getD 0)

/-- Bytes [off, off + n) of a byte string. -/
def cut (bs : List Byte) (off n : Nat) : List Byte := (bs.drop off).take n

/-- The five component entries of a bundle, R456, R457. -/
def bundleEntries (bs : List Byte) : List (List Byte) := (List.range 5).map fun i => cut bs (0x80 + 96 * i) 96

/-- Most bytes of a component of each type, R457. -/
def componentMax : Nat → Nat
  | 1 => 0x100000 | 2 => 0x80000 | 3 => 0x1000000 | 4 => 0x200000 | 5 => 0x400000 | _ => 0

/-- The header checks of R461 step 4 on Magic, Format, Component_Count, Bundle_Size and the reserved fields. -/
def bundleHeaderOk (bs : List Byte) : Bool :=
  field bs 0 4 == 0x4257434E && field bs 4 2 == 1 && decide (field bs 6 2 < 4) && decide (field bs 0x10 1 ≤ 64) &&
    decide (field bs 0x11 1 < 2) && field bs 0x12 2 == 5 && decide (field bs 0x14 4 ≤ 2 ^ 25) && decide (field bs 0x14 4 ≤ bs.length) &&
    zeroAt bs 0x18 0x20 && zeroAt bs 0x60 0x80 && zeroAt bs 0x260 0x1000 &&
    (bundleEntries bs).all fun e => zeroAt e 2 4 && zeroAt e 0x0C 0x20

/-- The component entries of R457: each type once, its size, its place in the bundle from 0x1_0000. -/
def bundlePlaced (bs : List Byte) : Bool :=
  ([1, 2, 3, 4, 5].all fun t => (bundleEntries bs).any fun e => field e 0 2 == t) &&
    (bundleEntries bs).all fun e =>
      let off := field e 4 4
      let n := field e 8 4
      decide (n ≤ componentMax (field e 0 2)) && (field e 0 2 != 4 || n % 4096 == 0) && off % 65536 == 0 && decide (65536 ≤ off) &&
        decide (off + n ≤ field bs 0x14 4)

/-- Every component has the digest of its entry (R457). -/
def bundleDigests (bs : List Byte) : Bool :=
  (bundleEntries bs).all fun e => cut e 0x20 64 == leBytes 64 (shake256 (cut bs (field e 4 4) (field e 8 4))).toNat

/-- A bundle as its bytes give it, R456 to R458; the outcome of verifying its signature is stated. -/
def bundleOf (bs : List Byte) (signatureOk : Bool) : BundleInfo :=
  { major := field bs 8 2, minor := field bs 0xA 2, build := field bs 0xC 4, secVersion := field bs 0x10 1, keyIndex := field bs 0x11 1
    advanceSvn := bits (field bs 6 2) 0 0 == 1, revokeKey0 := bits (field bs 6 2) 1 1 == 1, size := field bs 0x14 4
    headerOk := bundleHeaderOk bs, keyHash := shake256 (cut bs 0x20 64), signatureOk := signatureOk
    componentsOk := bundlePlaced bs && bundleDigests bs, digest := shake256 (cut bs 0 0x260) }

/-- A bundle passes the key check, R460. -/
def Fw.keyOk (f : Fw) (b : BundleInfo) : Bool :=
  if b.keyIndex = 0 then !f.kh0Revoked && f.kh0 == some b.keyHash else f.kh1 == some b.keyHash

/-- A bundle passes the rollback check, R460. -/
def Fw.rollbackOk (f : Fw) (b : BundleInfo) : Bool := decide (f.svn ≤ b.secVersion)

/-- Raise a boot code: the highest since the cold start stands, each is logged, and a fatal one holds the device (R463). -/
def State.raiseBoot (s : State) (code : Nat) : State :=
  let s1 := s.onFw fun f => { f with bootCode := max f.bootCode code, stopped := f.stopped || decide (0x10 ≤ code) }
  let r := s.recordOf .bootEvent { detail := code }
  if code < 0x10 then s1.logRec r
  else (s1.logRec { r with cls := 4 }).onLife fun l => { l with toCopy := l.toCopy ++ [s.log.next] }

/-- CLUSTERS_FENCED, when some cluster was fenced during bring-up. -/
def State.raiseFenced (s : State) (before : Nat) : State :=
  if s.enabledClusters < before then s.raiseBoot 0x06 else s

/-! ### POWERING and ROM -/

/-- POWERING_DONE, R35, R464, R465: regulators in regulation and the hold-up store measured. -/
def execPoweringDone (holdupUf : Nat) (s : State) : Host.Outcome State Fault Refusal :=
  if s.dev ≠ .powering then .next s
  else
    let low := decide (holdupUf < 4700)
    let s1 : State := { s with
      dev := .rom
      pwr := { s.pwr with firstStage := true, vpkg := true, vom := true, holdupUf := holdupUf, holdupLow := low }
      fw := { s.fw with rstHeld := s.pwr.rstLow } }
    .next (if low then (s1.logEvent .holdupLow {}).alert alPower else s1)

/-- The straps of R30 are in order: one die at each of the positions 0 to 4, no unused value of a compute die or the hub, and no
value twice among all dies, the guest die `g` included. -/
def strapsOk (ps : List Nat) (g : Option Nat) : Bool :=
  let l := ps ++ g.toList
  ((List.range 5).all l.contains) && ps.all (· ≤ 5) && decide (l.eraseDups.length = l.length)

/-- The slots that ROM tries, newest first (R462). -/
def Fw.candidates (f : Fw) : List Bool :=
  let ok := [true, false].filter fun a =>
    (f.slot a).state == .active && !f.excluded.contains (if a then .slotA else .slotB)
  match ok with
  | [a, b] => if ((f.slot a).seq.getD 0) < ((f.slot b).seq.getD 0) then [b, a] else [a, b]
  | l => l

/-- A slot passes the checks of R461 steps 4 and 5. -/
def State.slotPasses (s : State) (i : RomInput) (a : Bool) : Bool :=
  (if a then i.slotAPass else i.slotBPass) &&
    match (s.fw.slot a).bundle with
    | some b => s.fw.keyOk b && s.fw.rollbackOk b
    | none => false

/-- The newly activated bundle did not boot: an activation by reset has come to nothing. -/
def State.notBooted (s : State) : State := s.onFw fun f => { f with newBundle := false, resetSwitch := false }

/-- ROM takes an image and releases the security core. -/
def State.takeImage (s : State) (im : Image) : State :=
  s.onFw fun f => { f with
    image := im, secUp := true, preReadyResets := if im = f.image then f.preReadyResets else 0 }

/-- ROM takes the recovery image, or stops with NO_IMAGE. -/
def State.takeRecovery (s : State) (i : RomInput) (code : Nat) : State :=
  match s.fw.recovery with
  | some b => if i.recoveryPass ∧ s.fw.keyOk b ∧ !s.fw.excluded.contains .recovery
      then (s.raiseBoot code).notBooted.takeImage .recovery else s.raiseBoot 0x13
  | none => s.raiseBoot 0x13

/-- The choice of R462: each failing slot becomes FAILED. -/
def State.chooseImage (s : State) (i : RomInput) : List Bool → Bool → State
  | [], _ => s.takeRecovery i 0x04
  | a :: t, fell =>
    if s.slotPasses i a then
      (if fell then (s.raiseBoot 0x02).notBooted else s).takeImage (if a then .slotA else .slotB)
    else (s.modSlot a fun x => { x with state := .failed }).chooseImage i t true

/-- The profile as ROM finds it: without a valid copy its entries take their defaults (R488). -/
def State.readProfile (s : State) (i : RomInput) : State :=
  let s1 := if i.deviceProfileOk then s else s.onFw fun f => { f with profDev := [], profDevBoot := [] }
  let s2 := if i.networkProfileOk then s1 else s1.onFw fun f => { f with profNet := [], profNetBoot := [] }
  if i.deviceProfileOk ∧ i.networkProfileOk then s else (s2.raiseBoot 0x01).profiled

/-- ROM_ENTRY, R29, R30, R461 to R463, R487, R488; R2, R31: the guest domain follows GUEST_POP. -/
def execRomEntry (i : RomInput) (s : State) : Host.Outcome State Fault Refusal :=
  if s.dev ≠ .rom ∨ s.fw.rstHeld ∨ s.fw.secUp ∨ s.fw.stopped then .next s
  else
    let s1 := if s.fw.strapsLatched then s
      else s.onFw fun f => { f with strapsLatched := true, diePos := i.diePos, guestDie := i.guestDie, guestPop := i.guestPop }
    if !strapsOk s1.fw.diePos s1.fw.guestDie then .next (s1.raiseBoot 0x10)
    else if !i.hubOk then .next (s1.raiseBoot 0x14)
    else if !i.flashOk then .next (s1.raiseBoot 0x11)
    else if s1.fw.kh1.isNone ∧ (s1.fw.kh0.isNone ∨ s1.fw.kh0Revoked) then .next (s1.raiseBoot 0x12)
    else
      let s2 := if i.recovLow then s1.takeRecovery i 0x03
        else s1.chooseImage i s1.fw.candidates (s1.fw.excluded.any fun x => x != .recovery)
      if !s2.fw.secUp then .next s2
      else
        let s3 := (s2.readProfile i).onPwr fun p => { p with guestOn := s2.fw.guestPop }
        .next (if s3.fw.coldBoot ∧ (keys s3.fw.lastGasp).length = 64 then s3.logEvent .lastGaspFull { ut := utFlash } else s3)

/-- What a cocoon cut off by a loss of power still has to erase (R584). -/
def State.finishCocoon (s : State) : State :=
  if !(s.ident.cocoonPending && s.fw.coldBoot) then s
  else ({ s with
    fw := { s.fw with profNet := [] }
    ident := { s.ident with tenants := [], cocoonPending := false } } : State).alert alFw

/-- The starts of TRAINING, R466: every domain waits for its budget (R508) unless its phases have it
fenced (R505), and every enabled link begins an attempt. -/
def State.startTraining (s : State) : State :=
  let s1 := (List.range 512).foldl (fun s cd =>
    if s.fenced cd then s
    else if (s.cluster cd).working ≤ 3 then s.phaseRule cd
    else (s.modCluster cd fun k => { k with dom := .waitBudget }).newTarget cd) s
  (List.range 8).foldl (fun s l => if (s.linkSt l).enable ∧ (s.linkSt l).state = .down then s.startAttempt l else s) s1

/-- BUNDLE_HASH, R215, R461, R464, R466, R508, R584: a component whose digest differs fails its image and ROM runs again without
it; otherwise the power and scheduler cores start and TRAINING is entered. -/
def execBundleHash (componentsOk : Bool) (s : State) : Host.Outcome State Fault Refusal :=
  if s.dev ≠ .rom ∨ !s.fw.secUp ∨ s.fw.stopped ∨ s.fw.powUp then .next s
  else if !componentsOk then
    let s1 := s.onFw fun f => { f with secUp := false, excluded := f.excluded ++ [f.image] }
    .next (match s.fw.image with
      | .slotA => s1.modSlot true fun x => { x with state := .failed }
      | .slotB => s1.modSlot false fun x => { x with state := .failed }
      | _ => s1)
  else
    let s1 : State := { s with dev := .training, fw := { s.fw with powUp := true, schUp := true } }
    .next s1.finishCocoon.startTraining

/-- GUEST_ABSENT, R31: the guest die does not answer at position 5 within 10 ms. -/
def execGuestAbsent (s : State) : Host.Outcome State Fault Refusal :=
  if !s.pwr.guestOn then .next s
  else .next ((s.onPwr fun p => { p with guestOn := false, guestFenced := true }).logEvent .guestAbsent
    { ut := utGuest })

/-! ### Training, filling, self-test -/

/-- TRAINING_DONE, R28, R245, R464, R466: packages whose bus did not train are unusable, and slices that did not calibrate fail
their core. Every domain is ON or fenced. -/
def execTrainingDone (failedPackages failedCores : List Nat) (s : State) : Host.Outcome State Fault Refusal :=
  let ready := (List.range 512).all fun cd => s.fenced cd || (s.cluster cd).dom == .on || (failedCores.any fun c => cdOf c == cd)
  if s.dev ≠ .training ∨ !ready then .next s
  else
    let before := s.enabledClusters
    let s1 := failedCores.foldl (fun s c => s.fenceCluster (cdOf c) .selftestFail true) s
    let s2 := (failedPackages.filter (· < 12)).foldl State.failPackage s1
    let s3 := if (failedPackages.filter (· < 12)).isEmpty then s2 else s2.raiseBoot 0x05
    let s4 := s3.raiseFenced before
    let s5 : State := { s4 with
      dev := .filling
      outers := (List.range 12).foldl (fun t m =>
        let o := lookD t m {}
        put t m { o with trained := !o.failed }) s4.outers }
    .next s5.retune

/-- FILL_DONE, R206, R244, R464. -/
def execFillDone (s : State) : Host.Outcome State Fault Refusal :=
  let outerDone := (List.range 12).all fun m => (s.outer m).failed || (s.outer m).fillDone
  if s.dev ≠ .filling ∨ !s.fw.slicesFilled ∨ !outerDone then .next s
  else .next ({ s with dev := .selftest } : State).retune

/-- CORE_SELFTEST, R28, R463, R467, R502: failed units fence their clusters; the voltage tables are measured; with no cluster
left NO_CLUSTERS holds the device in SELFTEST. -/
def execCoreSelftest (failedClusters : List Nat) (repairedRows : Nat) (s : State) : Host.Outcome State Fault Refusal :=
  if s.dev ≠ .selftest ∨ !s.fw.checkerDone ∨ s.fw.selftestDone then .next s
  else
    let s1 := (failedClusters.filter (· < 512)).foldl (fun s cd => s.fenceCluster cd .selftestFail true) s
    let s2 := (s1.onFw fun f => { f with selftestDone := true }).onLife fun l => { l with repairedRows := repairedRows }
    let s3 := (List.range 512).foldl (fun s cd => if s.fenced cd then s else s.newTarget cd) s2
    let s4 := s3.raiseFenced (if s.fw.checkFailed.isEmpty then s.enabledClusters else 513)
    .next (if s4.enabledClusters = 0 then s4.raiseBoot 0x15 else s4)

/-! ### The broadcast of cluster firmware, R469 to R472 -/

/-- The clusters whose turn it is in a live switch: not switched yet, and without a wave (R474). -/
def State.switchLoads (s : State) : List Nat :=
  match s.fw.activation with
  | .switching left => (List.range 512).filter fun cd => left.contains (.cluster cd) && !s.fenced cd && (s.cluster cd).wave.isNone
  | _ => []

/-- The image is loaded beside one that runs: in a live switch (R474). -/
def State.switchLoad (s : State) : Bool := s.dev != .selftest && s.fw.resetStep == 0

/-- The clusters that load firmware: all at a cold start, those of a compute reset, or those of a live switch. -/
def State.loading (s : State) : List Nat :=
  if s.dev = .selftest then (List.range 512).filter fun cd => !s.fenced cd
  else if s.switchLoad then s.switchLoads
  else s.fw.resetting.filter fun cd => !s.fenced cd

/-- A control core has the whole image of the broadcast. -/
def State.loaded (s : State) (cd : Nat) : Bool :=
  (s.cluster cd).fwRunning && (!s.switchLoad || (s.cluster cd).fwBitmap.length == s.fw.chunks)

/-- BROADCAST_START, R469, R474: after the self-tests, or for the control cores that a live switch has not reached. -/
def execBroadcastStart (chunks : Nat) (s : State) : Host.Outcome State Fault Refusal :=
  let due := (s.dev == .selftest && s.fw.selftestDone) || s.fw.resetStep == 4 || (s.switchLoad && !s.switchLoads.isEmpty)
  if !due ∨ s.fw.stopped ∨ chunks = 0 ∨ 512 < chunks then .next s
  else
    let s1 := s.loading.foldl (fun s cd => s.modCluster cd fun k =>
      { k with fwBitmap := [], fwRounds := 0, fwRunning := k.fwRunning && s.switchLoad }) s
    .next (s1.onFw fun f => { f with chunks := chunks, chunkNext := 0, broadcasting := true })

/-- A control core with every chunk digests the image; it starts it when the digest matches (R471). -/
def Cluster.complete (k : Cluster) (chunks : Nat) : Cluster :=
  if k.fwBitmap.length = chunks then { k with fwRunning := true } else k

/-- CHUNK_WRITE, R470: the control cores of a die that do not miss the chunk accept it. -/
def execChunkWrite (die chunk : Nat) (missed : List Nat) (s : State) : Host.Outcome State Fault Refusal :=
  if !s.fw.broadcasting ∨ s.fw.chunks ≤ chunk then .next s
  else
    let s1 := (s.loading.filter fun cd => dieOf cd == die && !missed.contains cd).foldl (fun s cd => s.modCluster cd fun k =>
      if k.fwRunning && !s.switchLoad then k else { k with fwBitmap := insertSet k.fwBitmap chunk }.complete s.fw.chunks) s
    .next (s1.onFw fun f => { f with chunkNext := max f.chunkNext (chunk + 1) })

/-- A repair round fails: the third fences the cluster (R471, R472), and during a switch it counts for R476. -/
def State.roundFailed (s : State) (cd : Nat) : State :=
  let n := (s.cluster cd).fwRounds + 1
  let s1 := s.modCluster cd fun k => { k with fwRounds := n }
  if n < 3 then s1
  else
    let switching := match s.fw.activation with | .switching _ => true | .paused _ => true | _ => false
    let s2 := (if switching then s1.onFw fun f => { f with switchFails := f.switchFails + 1 } else s1).fenceCluster cd .clusterFwFail true
    if s.dev = .selftest then s2.raiseBoot 0x06 else s2

/-- REPAIR_REQUEST, R471: the missing chunks go to one control core, which then digests the whole image; a core that missed none only
digests it. -/
def execRepairRequest (cd : Nat) (digestOk : Bool) (s : State) : Host.Outcome State Fault Refusal :=
  if !s.fw.broadcasting ∨ !s.loading.contains cd ∨ s.fw.chunkNext < s.fw.chunks then .next s
  else if !digestOk then .next ((s.modCluster cd fun k => { k with fwBitmap := [], fwRunning := k.fwRunning && s.switchLoad }).roundFailed cd)
  else if s.loaded cd then .next s
  else .next (s.modCluster cd fun k => { k with fwBitmap := List.range s.fw.chunks, fwRunning := true })

/-- REPAIR_ROUND_TIMEOUT, R471, R472: bits are still clear 1 ms after the request. -/
def execRepairRoundTimeout (cd : Nat) (s : State) : Host.Outcome State Fault Refusal :=
  if !s.fw.broadcasting ∨ !s.loading.contains cd ∨ s.loaded cd ∨ s.fw.chunkNext < s.fw.chunks then .next s
  else .next (s.roundFailed cd)

/-! ### Eclosion, R468 -/

/-- The dispatchers of some clusters release their cores, both instruction banks invalid (R468 step 4). -/
def State.release (s : State) (cds : List Nat) : State :=
  let s1 := cds.foldl (fun s cd => s.modCluster cd fun k => { k with inReset := false, delivered := 0, restarting := false }) s
  { s1 with cores := s1.cores.filter fun p => !cds.contains (cdOf p.1) }

/-- The 64-byte bitmap of a list of clusters by CD number, bit cd mod 8 of byte cd / 8 (R441). -/
def cdBitmap (cds : List Nat) : List Byte := leBytes 64 ((List.range 512).foldl (fun n cd => if cds.contains cd then n + 2 ^ cd else n) 0)

/-- An activation by reset is complete once the device runs the new bundle (R474, R477). -/
def State.finishSwitch (s : State) : State :=
  if !s.fw.resetSwitch then s
  else
    (((s.onFw fun f => { f with resetSwitch := false, activatedAt := some s.now }).logEvent .fwActivated {}).alert alFw).onLife fun l =>
      { l with activations := satAdd 32 l.activations 1 }

/-- The clusters that a compute reset gave the new image during a live switch count as switched (R485). -/
def Fw.countReset (f : Fw) (now : Nat) : Fw :=
  let on := match f.activation with | .switching _ | .paused _ => true | _ => false
  if on then { f with switchedAt := f.resetting.foldl (fun t cd => put t (3 + cd) now) f.switchedAt } else f

/-- ECLOSION, R464, R468, R484 steps 6 and 7: every cluster concerned runs the CLUSTER image; the cores are released, admission
opens, and a COMPUTE_RESET is answered. Without an enabled cluster NO_CLUSTERS is raised instead. -/
def execEclosion (s : State) : Host.Outcome State Fault Refusal :=
  let cds := s.loading
  let cold := s.dev == .selftest && s.fw.selftestDone
  let due := (cold || s.fw.resetStep == 4) && s.fw.broadcasting && (cds.all fun cd => (s.cluster cd).fwRunning) &&
    s.fw.secUp && s.fw.powUp && !s.fw.secRestart && !s.fw.powRestart && !s.fw.stopped
  if !due then .next s
  else if cold ∧ s.enabledClusters = 0 then .next (s.raiseBoot 0x15)
  else
    let s1 := (s.release cds).onFw fun f => { f.countReset s.now with
      broadcasting := false, resetting := [], resetAll := false, resetStep := 0, resetCmd := none }
    let s2 : State := if cold then ({ s1 with dev := .ready } : State).finishSwitch
      else if s.fw.resetAll then { s1 with dev := .ready } else s1
    .next (match s.fw.resetCmd with
      | some h => s2.respond h 0x0102 stOk true 0 (cdBitmap (s.fw.resetting.filter fun cd => !s.fenced cd))
      | none => s2)

/-! ### The last-gasp region, R455 -/

/-- LAST_GASP_COPY: a written slot goes to the journal, with SAG logged from its record (R553); a sector whose written slots
have all been copied is erased. -/
def execLastGaspCopy (slot : Nat) (s : State) : Host.Outcome State Fault Refusal :=
  match look s.fw.lastGasp slot with
  | none => .next s
  | some r =>
    if !s.fw.secUp ∨ s.fw.lastGaspCopied.contains slot then .next s
    else
      let s1 := (s.onLife fun l => { l with sags := (r :: l.sags).take 192 }).logEvent .sag { time := some r.time, detail := r.before }
      let copied := insertSet s.fw.lastGaspCopied slot
      let sector := (keys s.fw.lastGasp).filter fun i => i / 4 == slot / 4
      .next (if sector.all copied.contains then
        s1.onFw fun f => { f with
          lastGasp := f.lastGasp.filter fun p => p.1 / 4 != slot / 4, lastGaspCopied := copied.filter fun i => i / 4 != slot / 4 }
        else s1.onFw fun f => { f with lastGaspCopied := copied })

end Sys2Proof.Machine
end

