-- ==== Sys2Proof/Machine/Remote.lean ====
section
/-!
DEFINITION. Lysdel packets between modules: routing, age and turns (R375 to R379), remote access at the target and at the
requester (R381 to R385).
-/

namespace Sys2Proof.Machine

/-! ### Routing, R376 to R378 -/

/-- The direction and class in which a packet travels a ring: the ring's dimension, whether it moves in the + direction, its
class on the link of departure, and whether it has turned. -/
structure Hop where
  link : Nat
  cls : Nat
  turned : Bool
  deriving DecidableEq, Repr

/-- The first dimension in which two nodes differ. -/
def firstDim (own dest : Nat) : Option Nat := [0, 1, 2].find? fun k => coord own k != coord dest k

/-- The direction chosen on entry to a dimension: + for a distance of 16 or less, the other one with Alt. -/
def entryPlus (own dest k : Nat) (alt : Bool) : Bool :=
  let d := (coord dest k + 32 - coord own k) % 32
  xor (decide (d ≤ 16)) alt

/-- The link of a direction of a dimension, R375. -/
def ringLink (k : Nat) (plus : Bool) : Nat := 2 * k + (if plus then 0 else 1)

/-- The link from this coordinate in a direction is the dateline of its ring. -/
def crossesDateline (own k : Nat) (plus : Bool) : Bool := coord own k == (if plus then 31 else 0)

/-- The hop of torus routing, R376, R378. A packet that arrives on a link of the dimension it still travels goes on in its
direction; one that arrives otherwise enters the dimension in class 0. One that should move in the + direction on a link that
is not UP turns to −, once. None: no usable link. -/
def torusHop (own : Nat) (up : Nat → Bool) (arrival : Option Nat) (p : LPacket) : Option Hop :=
  match firstDim own p.dest with
  | none => none
  | some k =>
    let inside := match arrival with | some l => decide (l < 6) && decide (l / 2 = k) | none => false
    -- a packet that arrives on the − link travels in the + direction, and the other way about
    let plus := if inside then (match arrival with | some l => decide (l % 2 = 1) | none => true)
      else entryPlus own p.dest k p.alt
    let turned := inside && p.turned
    let cls0 := if inside then p.cls else 0
    let cls (plus : Bool) (c : Nat) : Nat := if crossesDateline own k plus then 1 else c
    if up (ringLink k plus) then some { link := ringLink k plus, cls := cls plus cls0, turned := turned }
    else if plus ∧ !turned ∧ up (ringLink k false) then
      some { link := ringLink k false, cls := cls false 0, turned := true }
    else none

/-- The hop of table routing, R377, R378: Alt_Link for a packet with Alt set, or when Link is not UP. -/
def tableHop (entry : Byte) (up : Nat → Bool) (p : LPacket) : Option Hop :=
  let e := entry.toNat
  let main := e % 8
  let alt := bits e 5 3
  let altOk := bits e 6 6 == 1
  if bits e 7 7 ≠ 1 then none
  else
    let l := if altOk && (p.alt || !up main) then alt else main
    if up l then some { link := l, cls := 0, turned := p.turned } else none

/-- The hop of a packet at this module. -/
def State.hop (s : State) (arrival : Option Nat) (p : LPacket) : Option Hop :=
  let up (l : Nat) : Bool := (s.linkSt l).state == .up
  if s.lys.torus then torusHop s.lys.deviceId up arrival p else tableHop (lookD s.lys.routes p.dest 0) up p

/-- The age that a forwarding module adds, R379: its dwell time in whole µs, rounded up, plus 1. -/
def dwellAge (dwellNs : Nat) : Nat := (dwellNs + 999) / 1000 + 1

/-- A packet that has no usable link, R378: counted; a request's source is answered NOT_READY. -/
def State.noRoute (s : State) (l : Nat) (p : LPacket) : State :=
  let s1 := s.modLink l fun k => { k with noRoute := satAdd 16 k.noRoute 1 }
  if opRequest p.op then s1.nakSource p stNotReady else s1

/-- The link in whose register a discarded packet counts: the link of arrival, or that of departure for a packet of this
module's own. -/
def State.countLink (s : State) (arrival : Option Nat) (p : LPacket) : Nat :=
  match arrival with
  | some l => l
  | none =>
    if s.lys.torus then (match firstDim s.lys.deviceId p.dest with
      | some k => ringLink k (entryPlus s.lys.deviceId p.dest k p.alt)
      | none => 0)
    else (lookD s.lys.routes p.dest 0).toNat % 8

/-- PACKET_FORWARD, R376 to R379, R394: a packet that leaves this module, or passes through it after `dwell` ns, goes out on its
link of departure; one for this module is delivered by its own row. -/
def execPacketForward (arrival : Option Nat) (p : LPacket) (dwell : Nat) (s : State) : Host.Outcome State Fault Refusal :=
  let own : Sent := .packet none p
  match arrival with
  | none =>
    if !s.sent.contains own then .next s
    else
      let s1 : State := { s with sent := s.sent.erase own }
      if p.dest = s.lys.deviceId then .next s1
      else match s1.hop none p with
        | some h => .next (s1.sendOn h.link { p with cls := h.cls, turned := h.turned })
        | none => .next (s1.noRoute (s1.countLink none p) p)
  | some l =>
    if p.dest = s.lys.deviceId then .next s
    else
      let s1 := s.delivered l p
      let age := p.age + dwellAge dwell
      if 900 ≤ age then .next (s1.modLink l fun k => { k with agedOut := satAdd 16 k.agedOut 1 })
      else match s1.hop (some l) p with
        | some h => .next (s1.sendOn h.link { p with cls := h.cls, turned := h.turned, age := age })
        | none => .next (s1.noRoute l p)

/-! ### At the target, R381 to R383 -/

/-- A range lies inside an export window with the permission, R382. -/
def State.exported (s : State) (a n : Nat) (write : Bool) : Bool :=
  s.lys.exports.any fun x =>
    (if write then x.2.wr else x.2.rd) && decide (x.2.base ≤ a) && decide (a + n ≤ x.2.base + x.2.size)

/-- A request lies within one page of a slice or an outer package, R381. -/
def onePage (a n : Nat) : Bool := watched a && (n == 0 || pageBase a == pageBase (a + n - 1))

/-- Send a packet of this module. -/
def State.sendOut (s : State) (p : LPacket) : State := s.emit (.packet none p)

/-- The answer to a remote request, R382, R383; `go` performs it. -/
def State.remoteServe (s : State) (l : Nat) (p : LPacket) (n : Nat) (write : Bool) (go : State → State) : State :=
  if p.dest ≠ s.lys.deviceId then s
  else
    let s1 := s.delivered l p
    if !onePage p.address n || !s1.exported p.address n write then s1.nakSource p stBadArg
    else if s1.dev = .cocoon then s1.nakSource p stBusy
    else match s1.answer (.link l) p.address n write with
      | .go => go s1
      | .fault => (s1.countBusy p.address .fault).nakSource p stBadArg
      | .status st => (s1.countBusy p.address (.status st)).nakSource p st

/-- READ, R383, R385: data with the page's instar; a poisoned codeword sets Poison in the flits of its data. -/
def execRead (l : Nat) (p : LPacket) (s : State) : Host.Outcome State Fault Refusal :=
  .next (s.remoteServe l p p.length false fun s =>
    let (s1, bs, ps) := s.readRange p.address p.length
    s1.sendOut (answerTo p s.lys.deviceId 0x10 stOk (s1.mem.instar p.address).toNat bs ps))

/-- The port that a WRITE of one record addresses (R229, R255). -/
def remotePort (p : LPacket) : Option (Nat × Nat) :=
  match place p.address with
  | .outer m off => if p.data.length = 64 ∧ portBase ≤ off ∧ off % 64 = 0 then some (m, (off - portBase) / 64) else none
  | _ => none

/-- A WRITE of an operation record to a port, R255: it is acknowledged when the operation ends, or refused as the store of a core is. The
packet carries no epoch: the operation belongs to none (log entry 170). -/
def State.remoteSubmit (s : State) (l : Nat) (p : LPacket) (m port : Nat) : State :=
  let s1 := s.delivered l p
  if !s1.exported p.address 64 true then s1.nakSource p stBadArg
  else if s1.dev = .cocoon then s1.nakSource p stBusy
  else match s1.probSubmit m port none 0 p.data ((bytesMarked p).any id) (some p) with
    | (s2, .taken) => s2
    | (s2, .status st) => s2.nakSource p st
    | (s2, .poison) => s2.nakSource p stBadArg

/-- WRITE, R255, R383: flits that carry Poison store the poison pattern; a record for a proboscis port is submitted. -/
def execWrite (l : Nat) (p : LPacket) (s : State) : Host.Outcome State Fault Refusal :=
  match (if p.dest = s.lys.deviceId then remotePort p else none) with
  | some (m, port) => .next (s.remoteSubmit l p m port)
  | none => .next (s.remoteServe l p p.data.length true fun s =>
    let s1 := s.writeRange p.address p.data (bytesMarked p)
    s1.sendOut (answerTo p s.lys.deviceId 0x11 stOk (s1.mem.instar p.address).toNat [] []))

/-- INSTAR_Q, R385: a READ with no data. -/
def execInstarQ (l : Nat) (p : LPacket) (s : State) : Host.Outcome State Fault Refusal :=
  .next (s.remoteServe l p 0 false fun s =>
    s.sendOut (answerTo p s.lys.deviceId 0x12 stOk (s.mem.instar p.address).toNat [] []))

/-! ### At the requester, R381, R384, R385 -/

/-- The request that an answer belongs to, by its tag and its target. -/
def State.remoteOf (s : State) (p : LPacket) (op : Nat) : Option Remote :=
  s.lys.remotes.find? fun r => r.tag == p.tag && r.held.isNone && r.pkt.dest == p.src && r.pkt.op == op

/-- The request ends: its tag rests for 2 ms. -/
def State.endRemote (s : State) (r : Remote) : State :=
  s.onLys fun y => { y with
    remotes := y.remotes.erase r
    restTags := (y.restTags.filter fun t => decide (s.now < t.2.2 + 2000000)) ++ [(r.die, r.tag, s.now)] }

/-- An instruction none of whose requests is left has moved its last byte. -/
def State.remoteDone (s : State) (c : Nat) (e : Engine) (seq : Nat) : State :=
  if s.lys.remotes.any fun x => x.core == c && x.engine == e && x.seq == seq then s
  else match (s.core c).item? e seq with
    | some q => if q.status = .remote then s.moved c e seq else s
    | none => s

/-- A fetched page descriptor goes to its instruction, with the instar of its page, and the instruction starts again (R123, R217). -/
def State.gotEntry (s : State) (c : Nat) (e : Engine) (seq n : Nat) (bs : List Byte) (marked : Bool) (page : Option (Nat × Word)) : State :=
  (s.modItem c e seq fun q => { q with
    tab := put q.tab n (BitVec.ofNat 128 (leNat bs), marked)
    tpages := match page with
      | some x => if (look q.tpages x.1).isSome then q.tpages else put q.tpages x.1 x.2
      | none => q.tpages }).startLong c e seq

/-- The instruction of a request is still queued. -/
def State.remoteLive (s : State) (r : Remote) : Bool := ((s.core r.core).item? r.engine r.seq).isSome

/-- READ_DATA, R381, R385: the data goes to the scratchpad, and the instar is the one recorded for the remote page. -/
def execReadData (l : Nat) (p : LPacket) (s : State) : Host.Outcome State Fault Refusal :=
  if p.dest ≠ s.lys.deviceId then .next s
  else
    let s0 := s.delivered l p
    match s0.remoteOf p 0x01 with
    | none => .next s0
    | some r =>
      let s1 := s0.endRemote r
      if !s1.remoteLive r then .next s1
      else
        let bs := p.data.take r.pkt.length
        let page := r.pkt.dest * 2 ^ 48 + pageBase r.pkt.address
        if let some n := r.entry then
          .next ((s1.gotEntry r.core r.engine r.seq n bs ((bytesMarked p).any id)
            (if watched r.pkt.address then some (page, BitVec.ofNat 32 p.instar) else none)).completed r.core)
        else
        let s2 := (s1.spStore r.core r.dest bs (bytesMarked p)).noteInstar r.core r.engine r.seq
          page (BitVec.ofNat 32 p.instar)
        .next ((s2.remoteDone r.core r.engine r.seq).completed r.core)

/-- WRITE_ACK, R219, R381: the page's new instar; entries of the page whose instar is the one before the write, that is one
step less for each codeword written, are carried forward. -/
def execWriteAck (l : Nat) (p : LPacket) (s : State) : Host.Outcome State Fault Refusal :=
  if p.dest ≠ s.lys.deviceId then .next s
  else
    let s0 := s.delivered l p
    match s0.remoteOf p 0x02 with
    | none => .next s0
    | some r =>
      let s1 := s0.endRemote r
      let after := BitVec.ofNat 32 p.instar
      let n := (unitsOf r.pkt.address r.pkt.data.length).length
      let s2 := s1.modCore r.core fun k =>
        k.carry (r.pkt.dest * 2 ^ 48 + pageBase r.pkt.address) (after - BitVec.ofNat 32 n) after
      .next ((s2.remoteDone r.core r.engine r.seq).completed r.core)

/-- INSTAR_A, R218, R385: the answer to the query of a watch entry's page. -/
def execInstarA (l : Nat) (p : LPacket) (s : State) : Host.Outcome State Fault Refusal :=
  if p.dest ≠ s.lys.deviceId then .next s
  else
    let s0 := s.delivered l p
    match s0.remoteOf p 0x03 with
    | none => .next s0
    | some r =>
      let page := r.pkt.dest * 2 ^ 48 + r.pkt.address
      .next ((s0.endRemote r).modCore r.core fun k => { k with watch := k.watch.map fun w =>
        if w.load.seq = r.seq ∧ w.page = page then { w with answer := some (BitVec.ofNat 32 p.instar) } else w })

/-- The task of a request's instruction ends, if the instruction is queued; a query of an instar ends the task that waits
for it, if it still runs. -/
def State.remoteError (s : State) (r : Remote) (ev : Ev) (status partner : Nat) : State :=
  match (s.core r.core).item? r.engine r.seq with
  | some q => s.taskError r.core ev status q.off r.pkt.address partner
  | none =>
    match (s.core r.core).watch.find? fun w => r.pkt.op == 0x03 && w.load.seq == r.seq with
    | some w => s.taskError r.core ev status w.load.off r.pkt.address partner
    | none => s

/-- An attempt has failed, R384: one reissue with Alt set, then the end of the task with TIMEOUT. -/
def State.attemptLost (s : State) (r : Remote) : State :=
  if r.alt then (s.endRemote r).remoteError r .linkUnreachable stTimeout (0x8000 + r.pkt.dest)
  else
    let p := { r.pkt with alt := true }
    (s.onLys fun y => { y with remotes := y.remotes.map fun x => if x = r then { r with alt := true, pkt := p } else x }).sendOut p

/-- NAK, R383, R384: BUSY, RETRY and TARGET_RESETTING hold the request for its reissue, NOT_READY is a failed attempt, any
other status ends the task. A query that is held is asked anew with the next judgement. -/
def execNak (l : Nat) (p : LPacket) (s : State) : Host.Outcome State Fault Refusal :=
  if p.dest ≠ s.lys.deviceId then .next s
  else
    let s0 := s.delivered l p
    match s0.lys.remotes.find? fun r => r.tag == p.tag && r.held.isNone with
    | none => .next s0
    | some r =>
      if p.status = stNotReady then .next (s0.attemptLost r)
      else match waitOf p.status with
        | some st =>
          if r.pkt.op = 0x03 then
            .next ((s0.endRemote r).modCore r.core fun k => { k with watch := k.watch.map fun w =>
              if w.load.seq = r.seq ∧ w.page = r.pkt.dest * 2 ^ 48 + r.pkt.address then { w with asked := false } else w })
          else
            let s1 := (s0.endRemote r).onLys fun y => { y with
              remotes := y.remotes ++ [{ r with held := some p.status, alt := false, pkt := { r.pkt with alt := false } }] }
            .next (s1.modItem r.core r.engine r.seq fun q => { q with status := st })
        | none => .next ((s0.endRemote r).remoteError r .taskBadArg stBadArg 0)

/-- REMOTE_ATTEMPT_TIMEOUT, R384: an attempt is unanswered after 1 ms. -/
def execRemoteAttemptTimeout (die tag : Nat) (s : State) : Host.Outcome State Fault Refusal :=
  match s.lys.remotes.find? fun r => r.die == die && r.tag == tag && r.held.isNone with
  | none => .next s
  | some r => .next (s.attemptLost r)

/-- MGMT_ROUTE, R381: a link state notice from the partner. R378 routes by the state of the module's own links; the spec gives
the notice no further effect, so it leaves only its buffers (log entry 21). -/
def execMgmtRoute (l : Nat) (p : LPacket) (s : State) : Host.Outcome State Fault Refusal := .next (s.delivered l p)

end Sys2Proof.Machine
end

