-- ==== Sys2Proof/Machine/Collectives.lean ====
section
/-!
DEFINITION. Collectives (R386 to R391) and the firing of tasks (R155), of which a collective is one. R389 leaves the algorithm
of an exact reduction to the engine and makes every result independent of it: the model exchanges inputs directly between all
members and combines them in rank order at the end (log entry 22).
-/

namespace Sys2Proof.Machine

/-! ### The bytes of an instance -/

/-- Rows and columns of the grid over which an instance is split (R148), from its shards. -/
def State.shardGrid (s : State) (h : Handle) : Nat × Nat :=
  let n := (s.work.placed.filter fun p => p.handle = h && p.replica == 0).length
  match look s.work.programs h.slot with
  | none => (1, 1)
  | some pr =>
    match (match pr.plan.find? (·.tensor == h.tensor) with | some e => e.split | none => 0) with
    | 1 => (n, 1)
    | 2 => (1, n)
    | 3 =>
      (match pr.templates.find? fun t => (t.inputs ++ t.outputs).contains h.tensor && t.gridRows * t.gridCols == n with
      | some t => (t.gridRows, t.gridCols)
      | none => (n, 1))
    | _ => (1, 1)

/-- The address ranges that hold `n` bytes of an instance from byte `off` on; `fuel` bounds them. -/
def State.instSegs (s : State) (h : Handle) (rowLen size : Nat) : Nat → Nat → Nat → List (Nat × Nat)
  | 0, _, _ => []
  | fuel + 1, off, n =>
    if n = 0 then []
    else
      let (rows, cols) := s.shardGrid h
      let blockRows := max 1 (size / max 1 rowLen / max 1 rows)
      let w := max 1 (rowLen / max 1 cols)
      let row := off / max 1 rowLen
      let col := off % max 1 rowLen
      let (shard, at_, len) :=
        if cols ≤ 1 then (off / (blockRows * max 1 rowLen), off % (blockRows * max 1 rowLen), blockRows * rowLen - off % (blockRows * max 1 rowLen))
        else (row / blockRows * cols + col / w, row % blockRows * w + col % w, w - col % w)
      let m := max 1 (min n len)
      (s.shardAddr 0 h shard + at_, m) :: s.instSegs h rowLen size fuel (off + m) (n - m)

/-- The declaration of a handle's tensor. -/
def State.declOf (s : State) (h : Handle) : Option TensorDecl :=
  (look s.work.programs h.slot).bind fun p => p.tensors.find? (·.id == h.tensor)

/-- The ranges of bytes [off, off + n) of an instance. -/
def State.instRanges (s : State) (h : Handle) (off n : Nat) : List (Nat × Nat) :=
  match s.declOf h with
  | none => []
  | some d => s.instSegs h ((d.dims.getD 0 1 * elemBits d.format + 7) / 8) d.sizeBytes (n + 1) off n

/-- The answer to an engine's access to ranges: the first that is not carried out decides. -/
def State.answerAll (s : State) (g : Agent) (rs : List (Nat × Nat)) (write : Bool) : Ans :=
  ((rs.map fun r => s.answer g r.1 r.2 write).find? (· != .go)).getD .go

/-- Read ranges: bytes and the mark of each. -/
def State.readAll (s : State) : List (Nat × Nat) → State × List Byte × List Bool
  | [] => (s, [], [])
  | r :: t =>
    let (s1, b, p) := s.readRange r.1 r.2
    let (s2, bs, ps) := s1.readAll t
    (s2, b ++ bs, p ++ ps)

/-- Write ranges. -/
def State.writeAll (s : State) : List (Nat × Nat) → List Byte → List Bool → State
  | [], _, _ => s
  | r :: t, bs, ps => (s.writeRange r.1 (bs.take r.2) (ps.take r.2)).writeAll t (bs.drop r.2) (ps.drop r.2)

/-! ### The descriptor, R387 -/

/-- Elements of a byte count. -/
def chunkBytes (d : CollDesc) : Nat := d.count * elemBits d.dtype / 8

/-- The types whose exact sum travels as 64-bit words, R388. -/
def isSumType (dt : Nat) : Bool := [0x00, 0x02, 0x03, 0x04, 0x05, 0x06].contains dt

/-- A reduction. -/
def isReduce (op : Nat) : Bool := op == 1 || op == 2

/-- The output formats that R388 allows for an operation and an input. -/
def outAllowed (op dt out : Nat) : Bool :=
  if !isReduce op then out == dt && elemBits dt != 0 && blockSize dt == 0
  else if isSumType dt then [0x02, 0x03, 0x08, 0x0A].contains out
  else if dt == fmtAcc then [0x0C, 0x02, 0x03, 0x08, 0x09, 0x0A].contains out
  else if dt == fmtInt32 then out == fmtInt32
  else if dt == fmtFP32 then out == fmtFP32 || out == 0x08
  else if dt == 0x08 then out == 0x08 || out == fmtFP32
  else false

/-- Elements of input and output of a member among n, R388. -/
def collElems (d : CollDesc) (n : Nat) : Nat × Nat :=
  match d.op with
  | 1 => (d.count, d.count)
  | 2 => (n * d.count, d.count)
  | 3 => (d.count, n * d.count)
  | _ => (n * d.count, n * d.count)

def collIn (d : CollDesc) : Handle := { slot := d.slot, tensor := d.inTensor, inst := d.inInst }
def collOut (d : CollDesc) : Handle := { slot := d.slot, tensor := d.outTensor, inst := d.outInst }

/-- The descriptor as step 0 carries it: less the tensor and instance fields (R391). -/
def collWire (d : CollDesc) : List Byte :=
  leBytes 8 d.seq ++ leBytes 2 d.group ++ leBytes 1 d.op ++ leBytes 1 d.dtype ++ leBytes 1 d.outFormat ++ leBytes 1 d.anchor ++
    leBytes 1 d.round ++ leBytes 1 0 ++ leBytes 8 d.count ++ leBytes 2 d.slot ++ List.replicate 14 0 ++ leBytes 4 d.limitMs ++
    List.replicate 20 0

/-- The die of the reduction engine: the die of a torus dimension along which the group lies, else CS0 (R390). -/
def reductionDie (members : List Nat) : Nat :=
  let same (k : Nat) : Bool := (members.map fun m => coord m k).eraseDups.length ≤ 1
  match [0, 1, 2].find? fun k => [0, 1, 2].all fun j => j == k || same j with
  | some k => k
  | none => 0

/-! ### Partials and results, R388 -/

/-- The element as it travels: a 64-bit word for the exact sums, else its own encoding. -/
def wireBits (d : CollDesc) : Nat := if isReduce d.op && isSumType d.dtype then 64 else elemBits d.dtype

/-- The exponent of an input's smallest subnormal. -/
def unitExp (dt : Nat) : Int := match ffmt dt with | some f => 1 - (f.bias : Int) - f.mb | none => 0

/-- The partial of one element: [63] NAN, [62] POS_INF, [61] NEG_INF, [60:0] the sum. -/
def partialOf (dt raw : Nat) : Nat :=
  match decodeElem dt raw with
  | .nan => 2 ^ 63
  | .inf neg => if neg then 2 ^ 61 else 2 ^ 62
  | .fin neg m e => ofInt 61 (scaled neg m e (unitExp dt))

/-- The sum of partials: flags OR, sums add. -/
def addPartial (a b : Nat) : Nat :=
  (bits a 63 61 ||| bits b 63 61) * 2 ^ 61 + ofInt 61 (asInt 61 a + asInt 61 b)

def roundMode (d : CollDesc) : RMode := if d.round = 1 then .rtz else .rne

/-- The value of one. -/
def valOne : Val := .fin false 1 0

/-- Round what an exact sum gives to a format (R87 rules 1, 2 and 5, R88). -/
def sumResult (d : CollDesc) (w : Nat) : Nat :=
  let t : Taken :=
    if bits w 63 63 = 1 ∨ (bits w 62 62 = 1 ∧ bits w 61 61 = 1) then .nan
    else if bits w 62 62 = 1 then .inf false
    else if bits w 61 61 = 1 then .inf true
    else .exact (.fin (asInt 61 w < 0) (asInt 61 w).natAbs (unitExp d.dtype))
  match ffmt d.outFormat with
  | some f => (t.convert f (roundMode d) false valOne valOne).1
  | none => 0

/-- The reduction of one element over the ranks, as travelled, in rank order. -/
def reduceElem (d : CollDesc) (xs : List Nat) : Nat :=
  if isSumType d.dtype then sumResult d (xs.foldl addPartial 0)
  else if d.dtype = fmtAcc then
    let e := match xs.map fun x => AccEntry.ofRecord x false with
      | [] => ({} : AccEntry)
      | a :: t => t.foldl AccEntry.combine a
    if d.outFormat = fmtAcc then e.record
    else match ffmt d.outFormat with
      | some f => ((e.taken (asInt 8 d.anchor)).convert f (roundMode d) false valOne valOne).1
      | none => 0
  else if d.dtype = fmtInt32 then (xs.foldl (· + ·) 0) % 2 ^ 32
  else
    let ws := xs.map fun x => if d.dtype = fmtFP32 then BitVec.ofNat 32 x else BitVec.ofNat 32 (x * 65536)
    let sum := treeSum 16 ws
    if d.outFormat = fmtFP32 then sum.toNat else (fBF16.round (roundMode d) false (ofF32 sum)).1

/-- Elements of packed bytes with their marks. -/
def unpack (b n : Nat) (bs : List Byte) (ps : List Bool) : List (Nat × Bool) :=
  (List.range n).map fun i =>
    let lo := i * b / 8
    let hi := (i * b + b + 7) / 8
    (leNat ((bs.drop lo).take (hi - lo)) / 2 ^ (i * b % 8) % 2 ^ b, ((ps.drop lo).take (hi - lo)).any id)

/-- The outgoing form of a chunk: 64-bit partials of a summing reduction, else the bytes themselves. -/
def toWire (d : CollDesc) (bs : List Byte) (ps : List Bool) : List Byte × List Bool :=
  if isReduce d.op && isSumType d.dtype then
    let xs := unpack (elemBits d.dtype) d.count bs ps
    (xs.flatMap fun x => leBytes 8 (partialOf d.dtype x.1), xs.flatMap fun x => List.replicate 8 x.2)
  else (bs, ps)

/-- Output bytes and marks from every rank's chunk as travelled, in rank order. -/
def collOutput (d : CollDesc) (parts : List (List Byte × List Bool)) : List Byte × List Bool :=
  if isReduce d.op then
    let els := parts.map fun p => unpack (wireBits d) d.count p.1 p.2
    let ob := elemBits d.outFormat
    let res := (List.range d.count).map fun i =>
      let xs := els.map fun l => l.getD i (0, false)
      (reduceElem d (xs.map (·.1)), xs.any (·.2))
    (packRow ob (res.map (·.1)), packMarks ob (res.map (·.2)))
  else (parts.flatMap (·.1), parts.flatMap (·.2))

/-! ### Messages -/

def State.modColl (s : State) (task : Nat) (f : Coll → Coll) : State :=
  s.onWork fun w => { w with colls := w.colls.map fun c => if c.task = task then f c else c }

/-- The collective of a group and sequence number that a packet names: the latest one admitted. -/
def State.collOf (s : State) (p : LPacket) : Option Coll :=
  s.work.colls.reverse.find? fun c => c.desc.group == p.group && c.desc.seq == p.address

/-- The member's task has not ended. -/
def State.collOpen (s : State) (c : Coll) : Bool := match s.task? c.task with | some t => !t.state.final | none => false

/-- The number of a chunk packet: Step, with Tag above its 16 bits (log entry 22). -/
def chunkNo (p : LPacket) : Nat := p.tag * 65536 + p.step

/-- A collective packet to a rank. -/
def collPacket (c : Coll) (own rank op vl status step : Nat) (ms : List Bool) (data : List Byte) : LPacket :=
  { src := own, dest := c.members.getD rank 0, vl := vl, cls := 0, poison := packetMarks ms, op := op, status := status, tag := step / 65536,
    age := 0, alt := false, turned := false, address := c.desc.seq, length := data.length, instar := 0, rank := c.rank,
    step := step % 65536, group := c.desc.group, data := data }

def Coll.next (c : Coll) : Nat := (c.rank + 1) % max 1 c.members.length
def Coll.prev (c : Coll) : Nat := (c.rank + c.members.length - 1) % max 1 c.members.length
/-- The die whose reduction engine runs a collective: another die when its own is out of service (R345). -/
def State.collDie (s : State) (c : Coll) : Nat :=
  let d := reductionDie c.members
  if s.deadDies.contains d then (([0, 1, 2, 3].find? fun x => !s.deadDies.contains x).getD d) else d

/-- Bytes of a chunk as it travels, and packets of 2,048 bytes that carry them. -/
def Coll.wireBytes (c : Coll) : Nat := c.desc.count * wireBits c.desc / 8
def Coll.packets (c : Coll) : Nat := (c.wireBytes + 2047) / 2048

/-- Where the chunk for a rank lies in the input: the whole input, or chunk `rank` (R388). -/
def Coll.chunkOff (c : Coll) (rank : Nat) : Nat :=
  if c.desc.op = 2 ∨ c.desc.op = 4 then rank * chunkBytes c.desc else 0

/-- The ranges of the input that make the chunk for a rank. -/
def State.chunkRanges (s : State) (c : Coll) (rank : Nat) : List (Nat × Nat) :=
  s.instRanges (collIn c.desc) (c.chunkOff rank) (chunkBytes c.desc)

/-- The chunk for a rank as it travels. -/
def State.chunkFor (s : State) (c : Coll) (rank : Nat) : State × List Byte × List Bool :=
  let (s1, bs, ps) := s.readAll (s.chunkRanges c rank)
  let (ws, ms) := toWire c.desc bs ps
  (s1, ws, ms)

/-- Send one chunk packet: step 0 the descriptor, step i + 1 packet i of the data. -/
def State.sendChunk (s : State) (c : Coll) (rank step : Nat) (alt : Bool) : State :=
  let (s1, ws, ms) := if step = 0 then (s, (collWire c.desc), []) else s.chunkFor c rank
  let off := 2048 * (step - 1)
  let data := if step = 0 then ws else (ws.drop off).take 2048
  let p := collPacket c s.lys.deviceId rank 0x20 2 0 step ((ms.drop off).take 2048) data
  s1.sendOut { p with alt := alt }

/-- End a collective otherwise than DONE. -/
def State.failColl (s : State) (task status : Nat) : State :=
  ((s.modColl task fun c => { c with aborted := true, sentUnacked := [], early := [], received := [] }).finishTask task .failed
    status).settle

/-- Send COLL_ABORT to a rank. -/
def State.sendAbort (s : State) (c : Coll) (rank status : Nat) : State :=
  if rank = c.rank then s else s.sendOut (collPacket c s.lys.deviceId rank 0x22 2 status 0 [] [])

/-- The bytes received from a rank, in packet order, with the marks. -/
def Coll.from_ (c : Coll) (rank : Nat) : List Byte × List Bool :=
  ((List.range c.packets).map fun i =>
    match c.received.find? fun x => x.1 == i + 1 && x.2.1 == rank with
    | some (_, _, d, ms) => (d, ms)
    | none => ([], [])).foldl (fun a x => (a.1 ++ x.1, a.2 ++ x.2)) ([], [])

/-- Every chunk has come and every chunk sent is acknowledged. -/
def Coll.complete (c : Coll) : Bool :=
  c.fired && (c.matched || decide (c.members.length ≤ 1)) && c.sentUnacked.isEmpty && c.early.isEmpty &&
    (List.range c.members.length).all fun r => r == c.rank ||
      (List.range c.packets).all fun i => c.received.any fun x => x.1 == i + 1 && x.2.1 == r

/-- End DONE once complete: the output is formed and written. An access that is held back leaves the collective as it is, to be
tried again; one that faults ends it with BAD_ARG. -/
def State.tryColl (s : State) (task : Nat) : State :=
  match s.work.colls.find? (·.task == task) with
  | none => s
  | some c =>
    if !s.collOpen c || !c.complete then s
    else
      let g : Agent := .reduction (s.collDie c)
      let n := c.members.length
      let outBytes := (collElems c.desc n).2 * elemBits c.desc.outFormat / 8
      let outs := s.instRanges (collOut c.desc) 0 outBytes
      match s.answerAll g (s.chunkRanges c c.rank) false, s.answerAll g outs true with
      | .go, .go =>
        let (s1, own) := s.chunkFor c c.rank
        let (bs, ps) := collOutput c.desc ((List.range n).map fun r => if r = c.rank then own else c.from_ r)
        let s2 := (s1.writeAll outs bs ps).modTask task fun t => { t with
          doneCount := t.parts, doneRanges := [(0, t.parts)], poison := t.poison || ps.any id }
        let s3 := (s2.modColl task fun c => { c with received := [] }).onWork fun w => w.modEntry (collOut c.desc) fun r =>
          r.modGen r.gen fun x => { x with done := x.expected, poison := x.poison || ps.any id }
        (match s3.task? task with
         | some t => ((s3.finishTask task .done stOk).logPoisoned t).settle
         | none => s3)
      | .fault, _ | _, .fault => (s.logEvent .addrFault { status := stBadArg, task := task }).failColl task stBadArg
      | _, _ => s

/-- Fire a collective, R386, R391: step 0 goes to the successor and its chunk to every other rank. -/
def State.fireColl (s : State) (t : Task) (c : Coll) : State :=
  let others := (List.range c.members.length).filter (· != c.rank)
  if t.state ≠ .ready ∨ !s.mayFire t ∨ others.any fun r => s.answerAll (.reduction (s.collDie c)) (s.chunkRanges c r) false != .go then s
  else
    let sends : List (Nat × Nat) := (if others.isEmpty then [] else [(0, c.next)]) ++
      others.flatMap fun r => (List.range c.packets).map fun i => (i + 1, r)
    let s1 := ((s.modTask t.id fun t => { t with state := .running, readyFrom := none }).onWork fun w => { w with
      firingOrder := w.firingOrder ++ [t.id] }).writeJournal t.id
    let s2 := sends.foldl (fun s x => s.sendChunk c x.2 x.1 false) s1
    (s2.modColl t.id fun c => { c with fired := true, sentUnacked := sends }).tryColl t.id

/-- TASK_FIRE, R155, R156, R163, R386: a task of waves fires its first wave, a collective its exchange. On a collective that
waits for a cluster in reset it is the retry of R391. -/
def execTaskFire (task : Nat) (s : State) : Host.Outcome State Fault Refusal :=
  match s.task? task with
  | none => .next s
  | some t =>
    if !t.coll then .next (s.fireWaves t)
    else match s.work.colls.find? (·.task == task) with
      | none => .next s
      | some c => .next (if c.fired then s.tryColl task else s.fireColl t c)

/-! ### Admission, R386 -/

/-- The status that admission answers for a collective descriptor, R154, R386 to R388. -/
def State.collStatus (s : State) (d : CollDesc) : Nat :=
  match look s.work.groups d.group, s.declOf (collIn d), s.declOf (collOut d) with
  | some members, some i, some o =>
    let n := members.length
    let (ni, no) := collElems d n
    if !d.reservedZero || !members.contains s.lys.deviceId || !decide (1 ≤ d.op) || !decide (d.op ≤ 4) || !decide (d.round ≤ 1) ||
        !outAllowed d.op d.dtype d.outFormat || i.format != d.dtype || o.format != d.outFormat ||
        chunkBytes d % 32 != 0 || d.count * elemBits d.dtype % 8 != 0 || d.count == 0 ||
        decide (i.sizeBytes * 8 < ni * elemBits d.dtype) || decide (o.sizeBytes * 8 < no * elemBits d.outFormat) then stBadArg
    else if s.work.colls.any fun c => c.desc.group == d.group && c.desc.seq == d.seq && s.collOpen c then stBadArg
    else if 4096 ≤ (s.tasksL.filter fun x => !x.state.final).length then stRetry
    else if s.dev ≠ .ready then stNotReady
    else stOk
  | _, _, _ => stBadArg

/-- Admit a collective like a task (R386): Template_Id 0xFFFF, Parts_Total the member count. -/
def State.admitColl (s : State) (d : CollDesc) : State × Nat × Nat :=
  let st := s.collStatus d
  if st ≠ stOk then (s, st, 0)
  else match look s.work.groups d.group, look s.work.programs d.slot with
  | some members, some pr =>
    (match (s.placeTensor pr (collIn d) 64 []).bind fun s => s.placeTensor pr (collOut d) 64 [] with
    | none => (s, stRetry, 0)
    | some s1 =>
      let id := s1.work.nextTask
      let n := members.length
      let cap := s1.capture 0 (collIn d)
      let s2 := s1.onWork fun w => w.modEntry (collOut d) fun r => { r with
        table := 4, outside := true, gen := r.gen + 1
        gens := put r.gens (r.gen + 1) { done := 0, expected := n, state := .pending }, dataLost := false }
      let desc : TaskDesc := { slot := d.slot, template := 0xFFFF, epoch := 0, resume := false, seed := 0, partFirst := 0,
                               limitMs := d.limitMs, inInst := [d.inInst], outInst := [d.outInst] }
      let task : Task := {
        id := id, desc := desc, parts := n, inputs := [cap], cds := [], coll := true
        outputs := [{ handle := (collOut d), gen := (s2.work.entry (collOut d)).gen }]
        limitMs := if d.limitMs = 0 then 2000 else d.limitMs, nextPart := n, admitTime := s.now }
      let c : Coll := { task := id, desc := d, members := members, rank := (members.idxOf? s.lys.deviceId).getD 0 }
      let s3 := s2.onWork fun w => { w with
        tasks := put w.tasks id task, nextTask := id + 1
        journal := put w.journal (w.journalNext % 262144) id, journalNext := w.journalNext + 1
        colls := (w.colls.filter fun x => !(x.desc.group == d.group && x.desc.seq == d.seq)) ++ [c] }
      ((s3.writeJournal id).settle, stOk, id))
  | _, _ => (s, stBadArg, 0)

/-! ### Packets, R391 -/

/-- Acknowledge a chunk. -/
def State.collAck (s : State) (p : LPacket) (own status : Nat) : State :=
  s.sendOut { src := s.lys.deviceId, dest := p.src, vl := 2, cls := 0, poison := [], op := 0x21, status := status, tag := p.tag,
              age := 0, alt := false, turned := false, address := p.address, length := 0, instar := 0, rank := own, step := p.step,
              group := p.group, data := [] }

/-- COLL_DATA, R391: RETRY for a Coll_Seq not yet admitted; a descriptor that differs from the member's own ends the collective
with BAD_ARG; a chunk is kept once and acknowledged. -/
def execCollData (l : Nat) (p : LPacket) (s : State) : Host.Outcome State Fault Refusal :=
  if p.dest ≠ s.lys.deviceId then .next s
  else
    let s0 := s.delivered l p
    match s0.collOf p with
    | none => .next (s0.collAck p 0 stRetry)
    | some c =>
      let s1 := s0.collAck p c.rank stOk
      if !s.collOpen c then .next s1
      else if chunkNo p = 0 then
        if p.rank ≠ c.prev then .next s1
        else if p.data = (collWire c.desc) then .next ((s1.modColl c.task fun c => { c with matched := true }).tryColl c.task)
        else .next ((s1.sendAbort c c.next stBadArg).failColl c.task stBadArg)
      else if c.members.length ≤ p.rank ∨ p.rank = c.rank ∨ c.packets < chunkNo p ∨
          c.received.any fun x => x.1 == chunkNo p && x.2.1 == p.rank then .next s1
      else .next ((s1.modColl c.task fun c => { c with received := c.received ++ [(chunkNo p, p.rank, p.data, (bytesMarked p))] }).tryColl c.task)

/-- COLL_ACK, R391: the chunk is received, or refused as early and resent after 100 µs. -/
def execCollAck (l : Nat) (p : LPacket) (s : State) : Host.Outcome State Fault Refusal :=
  if p.dest ≠ s.lys.deviceId then .next s
  else
    let s0 := s.delivered l p
    match s0.collOf p with
    | none => .next s0
    | some c =>
      -- a member that has not admitted the collective cannot name its own rank: the source tells it
      match c.members.idxOf? p.src with
      | none => .next s0
      | some r =>
        let key := (chunkNo p, r)
        if !c.sentUnacked.contains key then .next s0
        else if p.status = stRetry then
          .next (s0.modColl c.task fun c => { c with sentUnacked := c.sentUnacked.erase key, early := c.early ++ [key] })
        else .next ((s0.modColl c.task fun c => { c with sentUnacked := c.sentUnacked.erase key }).tryColl c.task)

/-- COLL_ABORT, R391: the collective ends with the status carried, and the abort goes once to the successor. -/
def execCollAbort (l : Nat) (p : LPacket) (s : State) : Host.Outcome State Fault Refusal :=
  if p.dest ≠ s.lys.deviceId then .next s
  else
    let s0 := s.delivered l p
    match s0.collOf p with
    | none => .next s0
    | some c =>
      if c.aborted ∨ !s0.collOpen c then .next s0
      else .next ((s0.sendAbort c c.next p.status).failColl c.task p.status)

/-- COLL_CHUNK_TIMEOUT, R391: a chunk unacknowledged after 1 ms is resent with Alt set. -/
def execCollChunkTimeout (task step rank : Nat) (s : State) : Host.Outcome State Fault Refusal :=
  match s.work.colls.find? (·.task == task) with
  | none => .next s
  | some c => if !s.collOpen c || !c.sentUnacked.contains (step, rank) then .next s else .next (s.sendChunk c rank step true)

/-- EARLY_CHUNK_RESEND, R391: 100 µs after a refusal as early. -/
def execEarlyChunkResend (task step rank : Nat) (s : State) : Host.Outcome State Fault Refusal :=
  match s.work.colls.find? (·.task == task) with
  | none => .next s
  | some c =>
    if !s.collOpen c || !c.early.contains (step, rank) then .next s
    else .next ((s.sendChunk c rank step false).modColl task fun c => { c with
      early := c.early.erase (step, rank), sentUnacked := c.sentUnacked ++ [(step, rank)] })

/-- COLL_TIME_LIMIT, R391, R557: the member ends the collective with TIMEOUT and sends COLL_ABORT to every member. -/
def execCollTimeLimit (task : Nat) (s : State) : Host.Outcome State Fault Refusal :=
  match s.work.colls.find? (·.task == task) with
  | none => .next s
  | some c =>
    if !s.collOpen c || !c.fired then .next s
    else
      let s1 := s.logEvent .taskTimeout { status := stTimeout, task := task }
      let s2 := (List.range c.members.length).foldl (fun s r => s.sendAbort c r stTimeout) s1
      .next (s2.failColl task stTimeout)

end Sys2Proof.Machine
end

