-- ==== Sys2Proof/Machine/Ethernet.lean ====
section
/-!
DEFINITION. Ethernet ports (chapter 11): states, frames, priority flow control, MACsec, addresses and the small protocols
(R396 to R407, R421).
-/

namespace Sys2Proof.Machine

/-! ### Queue pairs that fail, R410, R448 -/

/-- The path of the ring holder is free: its session ends with it (R433, R438). -/
def State.dropHolder (s : State) : State :=
  (s.onCtl fun k => { k with holder := none }).onIdent fun i => { i with sessRing := none }

/-- A window goes DOWN: commands that wait on its buffers, or for its connection, end NOT_READY, and their descriptors are returned
HOST with Status FLUSHED (R448). -/
def State.windowDown (s : State) (w state : Nat) : State :=
  let s0 := match look s.ctl.opening w with
    | some h => (s.onCtl fun k => { k with opening := del k.opening w }).respond h 0x0601 stNotReady false 0 []
    | none => s
  let s1 := s0.onCtl fun k => { k with windows := put k.windows w { (lookD k.windows w {}) with state := state } }
  let gone := s1.ctl.backs.filter (·.window == w)
  let s2 := gone.foldl (fun s b =>
    let a := bufTables + w * 0x10000 + 64 * b.buffer
    (s.onMem fun m => ((m.write (a + 0x20) [BitVec.ofNat 8 stFlushed]).write a (leBytes 8 0x54534F48))).respond b.hdr b.op
      stNotReady false 0 []) s1
  s2.onCtl fun k => { k with backs := k.backs.filter (·.window != w) }

/-- A queue pair enters ERROR: its outstanding work ends, RDMA_QP_ERROR is logged, a window goes DOWN, and the ring holder is the
holder no longer. -/
def State.qpError (s : State) (q : Nat) : State :=
  match look s.net.qps q with
  | none => s
  | some x =>
    if x.state = .error then s
    else
      let freed := x.reads.foldl (fun n r => n + r.len) 0
      let s1 := s.modQp q fun x => { x with state := .error, outstanding := [], reads := [], held := [] }
      let s2 := s1.modPort x.port fun p => { p with
        qpErrors := satAdd 16 p.qpErrors 1, readBytes := p.readBytes - freed, readWait := p.readWait.filter (·.1 != q) }
      let s3 := s2.logEvent .rdmaQpError { ut := utQp, ui := 0x100000 + q }
      let s4 := match x.kind with
        | .window w => if (lookD s3.ctl.windows w ({} : Win)).qp = q then s3.windowDown w 3 else s3
        | _ => s3
      if s4.ctl.holder = some q then s4.dropHolder else s4

/-- Every queue pair bound to an address of a port enters ERROR (R405). -/
def State.qpsOfGid (s : State) (p gid : Nat) : List Nat :=
  (s.net.qps.filter fun x => x.2.port == p && x.2.gidIndex == gid).map (·.1)

/-! ### Port states, R397, R398 -/

/-- PORT_ENABLE: DISABLED to DOWN, or latched in DRAINING. -/
def State.enablePort (s : State) (p : Nat) : State :=
  match (s.portSt p).state with
  | .disabled => s.modPort p fun k => { k with enable := true, state := .down }
  | .draining => s.modPort p fun k => { k with enable := true, pendingOn := true }
  | _ => s

/-- Clear Enable: DRAINING, or a latched enable is cancelled. -/
def State.disablePort (s : State) (p : Nat) : State :=
  match (s.portSt p).state with
  | .disabled => s.modPort p fun k => { k with enable := false }
  | .draining => s.modPort p fun k => { k with enable := false, pendingOn := false }
  | .up => (s.alert alLink).modPort p fun k => { k with enable := false, state := .draining }
  | .down => s.modPort p fun k => { k with enable := false, state := .draining }

/-- PORT_ENABLE, R397. -/
def execPortEnable (p : Nat) (s : State) : Host.Outcome State Fault Refusal := .next (s.enablePort p)

/-- PORT_DISABLE, R397. -/
def execPortDisable (p : Nat) (s : State) : Host.Outcome State Fault Refusal := .next (s.disablePort p)

/-- PORT_DRAIN_END, R397: frames in transmission have gone, or 1 ms has passed. -/
def execPortDrainEnd (p : Nat) (s : State) : Host.Outcome State Fault Refusal :=
  if (s.portSt p).state ≠ .draining then .next s
  else .next (s.modPort p fun k =>
    { k with state := if k.pendingOn then .down else .disabled, enable := k.pendingOn, pendingOn := false })

/-- Write Mode_Sel, R397. -/
def State.writeMode (s : State) (p v : Nat) : State :=
  if (s.portSt p).state = .disabled then s.modPort p fun k => { k with modeSel := v % 4 }
  else s.logEvent .ethCfgBad { ut := utPort, ui := p }

/-- The lanes whose transmitters are on: none in DISABLED (R397), lanes 0 and 1 in the mode 200GAUI-2, else all four (R38, R396). -/
def PortSt.transmitters (k : PortSt) : BitVec 4 :=
  if k.state = .disabled then 0 else if k.modeSel = 3 then 0x3 else 0xF

/-- The legs of a lane are swapped, R38, R487: bit 8p + n of the profile's mask for transmit legs, 8p + 4 + n for receive legs. -/
def State.legsSwapped (s : State) (p lane : Nat) (receive : Bool) : Bool :=
  bits (leNat (s.profBoot 0x01000004)) (8 * p + (if receive then 4 else 0) + lane) (8 * p + (if receive then 4 else 0) + lane) == 1

/-- MODE_SEL_WRITE, R397. -/
def execModeSelWrite (p v : Nat) (s : State) : Host.Outcome State Fault Refusal := .next (s.writeMode p v)

/-! ### Priority flow control, R401, R402 -/

/-- 1.25 MiB, 0.75 MiB and 2 MiB. -/
def xoffLevel : Nat := 1310720
def xonLevel : Nat := 786432
def bufLevel : Nat := 2097152

/-- A priority runs PFC on a port. -/
def PortSt.pfc (k : PortSt) (prio : Nat) : Bool := decide (prio < 8) && k.pfcMask.getLsbD prio

/-- The buffer of a priority: its own, or the shared one under key 8. -/
def PortSt.bufKey (k : PortSt) (prio : Nat) : Nat := if k.pfc prio then prio else 8

/-- Send XOFF once a priority's occupancy has reached the threshold. -/
def State.xoff (s : State) (p prio : Nat) : State :=
  let k := s.portSt p
  if k.pfc prio ∧ xoffLevel ≤ lookD k.occupancy prio 0 ∧ !k.pfcSending.contains prio then
    (s.modPort p fun k => { k with pfcSending := insertSet k.pfcSending prio }).emit (.pfc p prio 0xFFFF)
  else s

/-- Write Pfc_Mask: at most two bits. A priority that no longer runs PFC releases its partner and its bytes count in the shared
part. -/
def State.writePfcMask (s : State) (p : Nat) (v : Byte) : State :=
  if 2 < onesIn v.toNat 8 then s.logEvent .ethCfgBad { ut := utPort, ui := p }
  else
    let k := s.portSt p
    let gone := (List.range 8).filter fun i => k.pfc i && !v.getLsbD i
    let s1 := (gone.filter fun i => k.pfcSending.contains i).foldl (fun s i => s.emit (.pfc p i 0)) s
    s1.modPort p fun k => { k with
      pfcMask := v
      pfcSending := k.pfcSending.filter fun i => !gone.contains i
      paused := k.paused.filter fun x => !gone.contains x.1
      occupancy := putD (gone.foldl del k.occupancy) 8
        (gone.foldl (fun n i => n + lookD k.occupancy i 0) (lookD k.occupancy 8 0)) 0 }

/-- PFC_MASK_WRITE, R401. -/
def execPfcMaskWrite (p : Nat) (v : Byte) (s : State) : Host.Outcome State Fault Refusal := .next (s.writePfcMask p v)

/-- PFC_REPEAT, R401: every 40 µs while occupancy exceeds 0.75 MiB. -/
def execPfcRepeat (p prio : Nat) (s : State) : Host.Outcome State Fault Refusal :=
  let k := s.portSt p
  if k.pfcSending.contains prio ∧ xonLevel < lookD k.occupancy prio 0 then .next (s.emit (.pfc p prio 0xFFFF)) else .next s

/-- PFC_XON, R401: the bytes held for a priority have fallen to `occupancy`; at 0.75 MiB or less the partner is released. For a
priority without PFC it is the shared part that has fallen. -/
def execPfcXon (p prio occupancy : Nat) (s : State) : Host.Outcome State Fault Refusal :=
  let k := s.portSt p
  let key := k.bufKey prio
  if lookD k.occupancy key 0 < occupancy then .next s
  else
    let s1 := s.modPort p fun k => { k with occupancy := putD k.occupancy key occupancy 0 }
    if k.pfcSending.contains prio ∧ occupancy ≤ xonLevel then
      .next ((s1.modPort p fun k => { k with pfcSending := k.pfcSending.filter (· != prio) }).emit (.pfc p prio 0))
    else .next s1

/-- A received PFC frame, R401: quanta 0 resumes; pause is not honoured while it is ignored (R402). -/
def State.pfcRx (s : State) (p prio quanta : Nat) : State :=
  let k := s.portSt p
  if k.state ≠ .up ∨ !k.pfc prio ∨ k.ignoring.contains prio then s
  else s.modPort p fun k => { k with
    paused := if quanta = 0 then del k.paused prio else put k.paused prio (lookD k.paused prio s.now) }

/-- PFC_FRAME_RX, R401. -/
def execPfcFrameRx (p prio quanta : Nat) (s : State) : Host.Outcome State Fault Refusal := .next (s.pfcRx p prio quanta)

/-- PAUSE_TIME_EXPIRY, R401. -/
def execPauseTimeExpiry (p prio : Nat) (s : State) : Host.Outcome State Fault Refusal :=
  .next (s.modPort p fun k => { k with paused := del k.paused prio })

/-- ETH_PFC_STORM, R402: paused continuously for 100 ms. -/
def execEthPfcStorm (p prio : Nat) (s : State) : Host.Outcome State Fault Refusal :=
  if (look (s.portSt p).paused prio).isNone then .next s
  else .next ((s.modPort p fun k => { k with paused := del k.paused prio, ignoring := insertSet k.ignoring prio }).logEvent
    .ethPfcStorm { ut := utPort, ui := p })

/-- STORM_IGNORE_END, R402. -/
def execStormIgnoreEnd (p prio : Nat) (s : State) : Host.Outcome State Fault Refusal :=
  .next (s.modPort p fun k => { k with ignoring := k.ignoring.filter (· != prio) })

/-! ### Addresses, R404 to R406 -/

/-- The MAC of a port, R404. -/
def State.portMac (s : State) (p : Nat) : BitVec 48 := s.ctl.mac + BitVec.ofNat 48 p

/-- The IPv6 link-local address of a port: modified EUI-64 of its MAC. -/
def State.linkLocal (s : State) (p : Nat) : BitVec 128 :=
  let m := (s.portMac p).toNat
  let eui := (m / 2 ^ 24 ^^^ 0x020000) * 2 ^ 40 + 0xFFFE * 2 ^ 24 + m % 2 ^ 24
  BitVec.ofNat 128 (0xFE80 * 2 ^ 112 + eui)

/-- The IPv4-mapped form of an IPv4 address. -/
def mapped (a : Word) : BitVec 128 := BitVec.ofNat 128 (0xFFFF * 2 ^ 32 + a.toNat)

/-- Kinds of frames that the port itself sends. -/
def frArpReply : Nat := 1
def frNeighbour : Nat := 2
def frEcho : Nat := 3
def frProbe : Nat := 4
def frDhcp : Nat := 5
def frCnp : Nat := 6
def frOther : Nat := 7

/-- Vlan_Id in force: 4,095 acts as 0. -/
def PortSt.vlan (k : PortSt) : Nat := if k.vlanId = 4095 then 0 else k.vlanId

/-- The VLAN tag of a sent frame as (PCP, VID), R400: the port's Vlan_Id, or VID 0 while PFC runs on some priority. -/
def PortSt.sentTag (k : PortSt) (pcp : Nat) : Option (Nat × Nat) :=
  if k.vlan ≠ 0 ∨ k.pfcMask ≠ 0 then some (pcp, k.vlan) else none

/-- The DSCP of a sent frame by its PCP, R400: frames of control traffic carry 0. -/
def PortSt.sentDscp (k : PortSt) (pcp : Nat) : Nat :=
  if pcp = k.pcpData then k.dscpData else if pcp = k.pcpCnp then k.dscpCnp else 0

/-- A frame of the port itself with the PCP and DSCP of its traffic, R400: a CNP, or control traffic. -/
def State.frameOf (s : State) (p what : Nat) : Sent :=
  let k := s.portSt p
  if what = frCnp then .frame p what (k.sentTag k.pcpCnp) k.dscpCnp else .frame p what (k.sentTag k.pcpCtl) 0
def State.sendFrame (s : State) (p what : Nat) : State := s.emit (s.frameOf p what)

/-- Start the duplicate check of an address. -/
def State.probe (s : State) (p : Nat) (v6 : Bool) : State :=
  (s.modPort p fun k => if v6 then { k with ipv6State := .probing 1 } else { k with ipv4State := .probing 3 }).sendFrame p frProbe

/-- Withdraw an address: the queue pairs bound to it enter ERROR. -/
def State.withdraw (s : State) (p : Nat) (v6 : Bool) : State :=
  let s1 := s.modPort p fun k => if v6 then { k with ipv6State := .withdrawn } else { k with ipv4State := .withdrawn }
  (s1.qpsOfGid p (if v6 then 2 else 1)).foldl State.qpError s1

/-- A duplicate is found, R405: an address under check is left, one in use withdrawn. -/
def State.duplicate (s : State) (p : Nat) (v6 : Bool) : State :=
  let k := s.portSt p
  match (if v6 then k.ipv6State else k.ipv4State) with
  | .probing _ =>
    (s.modPort p fun k => if v6 then { k with ipv6State := .none } else { k with ipv4State := .none }).logEvent .ethAddrDup
      { ut := utPort, ui := p }
  | .ok => (s.withdraw p v6).logEvent .ethAddrDup { ut := utPort, ui := p }
  | _ => s

/-- ADDRESS_PROBE, R405: one probe or solicitation of the check has had its wait; a duplicate was seen or not. -/
def execAddressProbe (p : Nat) (v6 duplicate : Bool) (s : State) : Host.Outcome State Fault Refusal :=
  let k := s.portSt p
  match (if v6 then k.ipv6State else k.ipv4State) with
  | .probing n =>
    if duplicate then .next (s.duplicate p v6)
    else if n ≤ 1 then
      .next (s.modPort p fun k => if v6 then { k with ipv6State := .ok } else { k with ipv4State := .ok })
    else .next ((s.modPort p fun k => if v6 then { k with ipv6State := .probing (n - 1) } else
      { k with ipv4State := .probing (n - 1) }).sendFrame p frProbe)
  | _ => .next s

/-- The static address and DHCP start of a port that enters UP, R404 to R406: an address already in use stays. -/
def State.startAddr (s : State) (p : Nat) (v6 : Bool) : State :=
  let k := s.portSt p
  if v6 then
    if k.ipv6State = .ok then s
    else if k.ipv6Source = 1 then
      let v := s.profBoot (0x81000007 + p * 0x10000)
      (s.modPort p fun k => { k with ipv6 := BitVec.ofNat 128 (beField v 8 16), ipv6Len := field v 24 1 }).probe p true
    else if k.ipv6Source = 2 then (s.modPort p fun k => { k with dhcp6 := .selecting }).sendFrame p frDhcp
    else s
  else if k.ipv4State = .ok then s
  else if k.ipv4Source = 1 then
    let v := s.profBoot (0x81000006 + p * 0x10000)
    (s.modPort p fun k => { k with
      ipv4 := BitVec.ofNat 32 (beField v 4 4), ipv4Len := field v 8 1, ipv4Router := BitVec.ofNat 32 (beField v 12 4) }).probe p false
  else if k.ipv4Source = 2 then (s.modPort p fun k => { k with dhcp4 := .selecting }).sendFrame p frDhcp
  else s

/-- PORT_UP, R397, R398, R404, R406: PCS aligned and no fault for 10 ms. -/
def execPortUp (p : Nat) (s : State) : Host.Outcome State Fault Refusal :=
  if (s.portSt p).state ≠ .down then .next s
  else
    let s1 := s.modPort p fun k => { k with state := .up, localFault := false, remoteFault := false, linkLocalOk := true }
    .next (((s1.startAddr p false).startAddr p true).sendFrame p frOther)

/-- PORT_FAULT, R397: alignment is lost or a fault is seen. -/
def execPortFault (p : Nat) (loc remote : Bool) (s : State) : Host.Outcome State Fault Refusal :=
  let was := (s.portSt p).state
  let s1 := s.modPort p fun k => { k with localFault := loc, remoteFault := remote, state := if was = .up then .down else was }
  .next (if was = .up then s1.alert alLink else s1)

/-- DHCP_RENEW, R406: at T1. -/
def execDhcpRenew (p : Nat) (v6 : Bool) (s : State) : Host.Outcome State Fault Refusal :=
  let k := s.portSt p
  if (if v6 then k.dhcp6 else k.dhcp4) ≠ .bound then .next s
  else .next ((s.modPort p fun k => if v6 then { k with dhcp6 := .renewing } else { k with dhcp4 := .renewing }).sendFrame p frDhcp)

/-- DHCP_REBIND, R406: at T2. -/
def execDhcpRebind (p : Nat) (v6 : Bool) (s : State) : Host.Outcome State Fault Refusal :=
  let k := s.portSt p
  if (if v6 then k.dhcp6 else k.dhcp4) ≠ .renewing then .next s
  else .next ((s.modPort p fun k => if v6 then { k with dhcp6 := .rebinding } else { k with dhcp4 := .rebinding }).sendFrame
    p frDhcp)

/-- DHCP_REPLY, R404, R406: the client takes, renews or rebinds its address; a new address is used after its check. -/
def execDhcpReply (p : Nat) (v6 : Bool) (addr : BitVec 128) (prefixLen : Nat) (router : Word) (s : State) :
    Host.Outcome State Fault Refusal :=
  let k := s.portSt p
  let st := if v6 then k.dhcp6 else k.dhcp4
  if st = .off ∨ st = .bound then .next s
  else if v6 then
    let s1 := s.modPort p fun k => { k with dhcp6 := .bound }
    if k.ipv6State = .ok ∧ k.ipv6 = addr then .next s1
    else .next (((if k.ipv6State = .ok then s1.withdraw p true else s1).modPort p fun k =>
      { k with ipv6 := addr, ipv6Len := prefixLen }).probe p true)
  else
    let a := BitVec.ofNat 32 addr.toNat
    -- a router of the profile stands; without one the router is that of option 3 (R487)
    let own := BitVec.ofNat 32 (beField (s.profBoot (0x81000006 + p * 0x10000)) 12 4)
    let s1 := s.modPort p fun k => { k with
      dhcp4 := .bound, ipv4Router := if own ≠ 0 then own else if router = 0 then k.ipv4Router else router }
    if k.ipv4State = .ok ∧ k.ipv4 = a then .next s1
    else .next (((if k.ipv4State = .ok then s1.withdraw p false else s1).modPort p fun k =>
      { k with ipv4 := a, ipv4Len := prefixLen }).probe p false)

/-- LEASE_EXPIRY, R406: the address is withdrawn and the client starts again. -/
def execLeaseExpiry (p : Nat) (v6 : Bool) (s : State) : Host.Outcome State Fault Refusal :=
  let k := s.portSt p
  let st := if v6 then k.dhcp6 else k.dhcp4
  if st = .off ∨ st = .selecting then .next s
  else .next (((s.withdraw p v6).modPort p fun k =>
    if v6 then { k with dhcp6 := .selecting } else { k with dhcp4 := .selecting }).sendFrame p frDhcp)

/-! ### ARP, neighbour discovery, echo, R407 -/

/-- Enter a neighbour in the cache of 1,024 entries; the oldest entry gives way. -/
def PortSt.learn (k : PortSt) (ip : BitVec 128) (mac : BitVec 48) : PortSt :=
  let rest := k.neighbours.filter (·.1 != ip)
  { k with neighbours := (if 1024 ≤ rest.length then rest.drop 1 else rest) ++ [(ip, mac)] }

/-- A claim of the port's own IPv4 address by another station (R405). -/
def State.claims4 (s : State) (p : Nat) (ip : Word) (mac : BitVec 48) : Bool :=
  let k := s.portSt p
  ip == k.ipv4 && mac != s.portMac p && (match k.ipv4State with | .probing _ | .ok => true | _ => false)

/-- ARP, R405, R407: a request for the port's address is answered; a conflicting sender shows a duplicate. -/
def execArp (p : Nat) (target sender : Word) (senderMac : BitVec 48) (s : State) : Host.Outcome State Fault Refusal :=
  let k := s.portSt p
  if k.state ≠ .up then .next s
  else if s.claims4 p sender senderMac then .next (s.duplicate p false)
  else if target = k.ipv4 ∧ k.ipv4State = .ok then .next (s.sendFrame p frArpReply)
  else .next s

/-- ARP_REPLY, R405, R407. -/
def execArpReply (p : Nat) (ip : Word) (mac : BitVec 48) (s : State) : Host.Outcome State Fault Refusal :=
  if (s.portSt p).state ≠ .up then .next s
  else if s.claims4 p ip mac then .next (s.duplicate p false)
  else .next (s.modPort p fun k => k.learn (mapped ip) mac)

/-- NEIGHBOUR_SOLICITATION, R407. -/
def execNeighbourSolicitation (p : Nat) (target : BitVec 128) (s : State) : Host.Outcome State Fault Refusal :=
  let k := s.portSt p
  if k.state = .up ∧ ((k.linkLocalOk ∧ target = s.linkLocal p) ∨ (k.ipv6State = .ok ∧ target = k.ipv6)) then
    .next (s.sendFrame p frNeighbour)
  else .next s

/-- NEIGHBOUR_ADVERTISEMENT, R405, R407: of the port's own address it shows a duplicate. -/
def execNeighbourAdvertisement (p : Nat) (ip : BitVec 128) (s : State) : Host.Outcome State Fault Refusal :=
  let k := s.portSt p
  if k.state ≠ .up then .next s
  else if ip = k.ipv6 then .next (s.duplicate p true)
  -- the neighbour has answered: its cache entry is the newest
  else .next (s.modPort p fun k => match k.neighbours.find? (·.1 == ip) with
    | some n => k.learn n.1 n.2
    | none => k)

/-- ROUTER_ADVERTISEMENT, R404, R407: read for the default router only. -/
def execRouterAdvertisement (p : Nat) (router : BitVec 128) (s : State) : Host.Outcome State Fault Refusal :=
  if (s.portSt p).state ≠ .up then .next s else .next (s.modPort p fun k => { k with ipv6Router := router })

/-- ECHO, R407: a payload up to 1,472 bytes, at most 100 answers within a second. -/
def execEcho (p : Nat) (v6 : Bool) (payload : Nat) (s : State) : Host.Outcome State Fault Refusal :=
  let k := s.portSt p
  let recent := k.echoTimes.filter fun t => decide (s.now < t + 1000000000)
  let usable := if v6 then k.linkLocalOk || k.ipv6State == .ok else k.ipv4State == .ok
  if k.state ≠ .up ∨ !usable ∨ 1472 < payload ∨ 100 ≤ recent.length then .next s
  else .next ((s.modPort p fun k => { k with echoTimes := recent ++ [s.now] }).sendFrame p frEcho)

/-! ### Frames, R399, R400, R403 -/

/-- Low 24 bits of an address, which name its solicited-node group. -/
def solicited (a : BitVec 128) : BitVec 48 := BitVec.ofNat 48 (0x3333FF * 2 ^ 24 + a.toNat % 2 ^ 24)

/-- A destination MAC that the port accepts, R399; PFC frames carry the reserved group address (PRESUMED, IEEE 802.1Q; log
entry 23). -/
def State.dstOk (s : State) (p : Nat) (f : EthFrame) : Bool :=
  let k := s.portSt p
  f.dst == s.portMac p || f.dst == 0xFFFFFFFFFFFF#48 || f.dst == 0x333300000001#48 || f.dst == solicited (s.linkLocal p) ||
    (k.ipv6State != .none && f.dst == solicited k.ipv6) || (f.etype == 0x8808#16 && f.dst == 0x0180C2000001#48)

/-- The EtherTypes of R399; 0x8808 for PFC only. -/
def etypeOk (f : EthFrame) : Bool :=
  [0x0800#16, 0x86DD#16, 0x0806#16, 0x8100#16, 0x88E5#16].contains f.etype || (f.etype == 0x8808#16 && f.body == .pfc)

/-- The VLAN filter of R400; PFC frames carry no tag. -/
def PortSt.tagsOk (k : PortSt) (f : EthFrame) : Bool :=
  match f.tags with
  | [] => k.vlan == 0 || f.body == .pfc
  | [(_, vid)] => vid == k.vlan
  | _ => false

/-- Protocols that the port accepts, R407: ICMP, ICMPv6, RoCE v2, and DHCP to its client ports; no fragments, options or
extension headers. -/
def bodyOk : FrameBody → Bool
  | .arp | .pfc => true
  | .ip frag up _ _ => !frag && [1, 58, 256 + 4791, 256 + 68, 256 + 546].contains up
  | .other => false

/-- The partition key and ICRC of a RoCE packet, R408. -/
def roceOk : FrameBody → Bool
  | .ip _ up icrc pkey => up != 256 + 4791 || (icrc && pkey == 0xFFFF)
  | _ => true

/-- What MACsec makes of a received frame, R403. -/
inductive SecRes where
  | ok (k : PortSt) | untagged | icv | replay
  deriving DecidableEq

/-- Validate a frame under MACsec: strict validation, the replay window behind the next packet number expected. -/
def PortSt.secCheck (k : PortSt) (f : EthFrame) : SecRes :=
  if !k.macsecEnable || f.body == .pfc then .ok k
  else match f.sec with
  | none => .untagged
  | some t =>
    match k.sas.find? fun a => !a.tx && a.sci == t.sci && a.an == t.an with
    | none => .untagged
    | some a =>
      if !t.icvOk then .icv
      else if t.pn + k.replayWindow < a.pn then .replay
      else .ok { k with sas := k.sas.map fun x => if x = a then { a with pn := max a.pn (t.pn + 1) } else x }

/-- The codewords of a frame in ETH_PCS_ERR, R421. -/
def State.fecSeen (s : State) (p : Nat) (f : EthFrame) : State :=
  s.modPort p fun k => { k with
    fecCorrected := satAdd 32 k.fecCorrected f.fecFixed, fecUncorrected := satAdd 16 k.fecUncorrected f.fecBad }

/-- ETH_FRAME_RX, R396, R399 to R403, R407, R408: a frame with a codeword that the FEC could not correct is dropped; the checks in order, then the buffer of the frame's priority. A protected frame on a
port without MACsec carries no protocol that the port uses (R407; log entry 140). -/
def execEthFrameRx (p : Nat) (f : EthFrame) (s0 : State) : Host.Outcome State Fault Refusal :=
  let s := s0.fecSeen p f
  let k := s.portSt p
  let filtered : State := s.modPort p fun k => { k with dropFiltered := satAdd 16 k.dropFiltered 1 }
  if (s0.portSt p).state ≠ .up then .next s0
  else if f.fecBad ≠ 0 then .next s
  else if f.size < 64 ∨ 4352 < f.size then .next (s.modPort p fun k => { k with dropSize := satAdd 16 k.dropSize 1 })
  else if !f.fcsOk then .next (s.modPort p fun k => { k with fcsErrors := satAdd 16 k.fcsErrors 1 })
  else if !s.dstOk p f || !etypeOk f then .next filtered
  else if !k.macsecEnable && f.sec.isSome then .next filtered
  else match k.secCheck f with
  | .untagged => .next (s.modPort p fun k => { k with untaggedDrop := satAdd 16 k.untaggedDrop 1 })
  | .icv => .next (s.modPort p fun k => { k with icvFail := satAdd 16 k.icvFail 1 })
  | .replay => .next (s.modPort p fun k => { k with replayDrop := satAdd 16 k.replayDrop 1 })
  | .ok k1 =>
    let s1 := s.modPort p fun _ => k1
    if !k.tagsOk f || !bodyOk f.body then .next (s1.modPort p fun k => { k with dropFiltered := satAdd 16 k.dropFiltered 1 })
    else if f.body = .pfc then .next s1
    else if !roceOk f.body then .next (s1.modPort p fun k => { k with dropIcrcPkey := satAdd 16 k.dropIcrcPkey 1 })
    else
      let prio := match f.tags with | (pcp, _) :: _ => pcp % 8 | [] => 0
      let key := k.bufKey prio
      let held := lookD k.occupancy key 0
      if bufLevel < held + f.size then
        .next (if key = 8 then s1.modPort p fun k => { k with dropFull := satAdd 16 k.dropFull 1 } else s1)
      else .next ((s1.modPort p fun k => { k with occupancy := put k.occupancy key (held + f.size) }).xoff p prio)

/-- The transmit association in use. -/
def PortSt.txSa (k : PortSt) : Option MacsecSa := k.sas.find? fun a => a.tx && a.an == k.txAn

/-- FRAME_TX, R401, R403: a frame of a priority leaves unless the port is not UP, the priority is paused, or no protected frame
may be sent; the packet number advances with its warnings. -/
def execFrameTx (p prio size : Nat) (s : State) : Host.Outcome State Fault Refusal :=
  let k := s.portSt p
  if k.state ≠ .up ∨ (look k.paused prio).isSome ∨ size < 64 ∨ 4352 < size then .next s
  else if !k.macsecEnable then .next (s.emit (.frame p frOther (k.sentTag prio) (k.sentDscp prio)))
  else match k.txSa with
  | none => .next s
  | some a =>
    if 2 ^ 64 ≤ a.pn then .next s
    else
      let s1 := (s.modPort p fun k => { k with
        sas := k.sas.map fun x => if x = a then { a with pn := a.pn + 1 } else x
        pnExhausted := k.pnExhausted || decide (a.pn + 1 = 2 ^ 64) }).emit (.frame p frOther (k.sentTag prio) (k.sentDscp prio))
      let s2 := if a.pn + 1 = 0xC000000000000000 then (s1.alert alMacsec).logEvent .macsecPnNear { ut := utPort, ui := p } else s1
      .next (if a.pn + 1 = 2 ^ 64 then s2.logEvent .macsecPnExhausted { ut := utPort, ui := p } else s2)

end Sys2Proof.Machine
end

