-- ==== Sys2Proof/Machine/Recovery.lean ====
section
/-!
DEFINITION. Restarts of firmware processors (R450, R479 to R482, R507), compute resets (R483 to R485, R560, R345), firmware
activation (R473 to R478), and the records that follow an error (R554, R555).
-/

namespace Sys2Proof.Machine

/-! ### Compute reset, R483 to R485 -/

/-- A compute reset begins: admission to the clusters stops, and with all of them the state is set (step 1). -/
def State.beginReset (s : State) (cds : List Nat) (all : Bool) (cmd : Option CmdHdr) : State :=
  let l := cds.filter fun cd => !s.fenced cd
  let s1 := s.onFw fun f => { f with
    resetting := l, resetAll := all, resetStep := 1, resetCmd := cmd, broadcasting := false
    activation := match f.activation with
      | .switching left => .switching (left.filter fun p => match p with | .cluster cd => !l.contains cd | _ => true)
      | .paused left => .paused (left.filter fun p => match p with | .cluster cd => !l.contains cd | _ => true)
      | a => a }
  let s2 := l.foldl (fun s cd => s.modCluster cd fun k => { k with fwRunning := false }) s1
  if all then { s2 with dev := .computeReset } else s2

/-- The running wave of a cluster is stopped; its task ends PARTIAL or FAILED (R164, R485) and its epoch is discarded (R174). -/
def State.stopForReset (s : State) (cd : Nat) : State :=
  match (s.cluster cd).wave with
  | none => s
  | some (id, _) =>
    let s1 := (s.modTask id fun t => { t with stopping := true }).stopCluster cd stPartial
    match s1.task? id with
    | some t => if t.desc.epoch = 0 then s1 else s1.discardEpoch t.desc.epoch stDenied
    | none => s1

/-- The fields of type RW of a slice return to their At reset values (R16, R226). -/
def Slice.resetRw (sl : Slice) : Slice := { sl with scrubEnable := true, scrubShift := 10 }
/-- The fields of type RW of an outer controller return to their At reset values (R16, R268). While R514 holds Active_Max down, the
value that it gives back is the one at reset. -/
def Outer.resetRw (o : Outer) : Outer :=
  { o with scrubEnable := true, scrubRate := 3
           activeMax := if o.activeSaved.isSome then o.activeMax else 16, activeSaved := o.activeSaved.map fun _ => 16 }

/-- A cluster is held in reset: cores as after reset, registers of its slices of type RW as at reset, channels lost, packets it
produced aborted (R16, R60, R199, R341, R355). -/
def State.enterReset (s : State) (cd : Nat) : State :=
  let s1 := (s.abortPackets cd).loseChannels cd
  let s2 : State := { s1 with
    cores := s1.cores.filter fun p => cdOf p.1 != cd
    slices := mapTab s1.slices fun c sl => if cdOf c = cd then sl.resetRw else sl }
  s2.modCluster cd fun k => { k with
    inReset := true, wave := none, fwRunning := false, fwBitmap := [], fwRounds := 0, preRaise := 0
    delivered := if k.inReset then k.delivered else
      min 256 (((s.slices.filter fun p => cdOf p.1 == cd).map fun p => p.2.queue.length).sum) }

/-- Every entry of a readiness table is lost: its instances are BROKEN (R560). -/
def State.loseTable (s : State) (n : Nat) : State :=
  ((s.work.ready.filter fun r => r.table == n).map (·.handle)).foldl State.breakInstance s

/-- A readiness table is lost: every admitted task and epoch ends too, a running task PARTIAL or FAILED (R485, R560). The tasks of an
epoch end with it, DISCARDED (R164). -/
def State.loseReadiness (s : State) (n : Nat) : State :=
  let s1 := s.tasksL.foldl (fun s t =>
    if t.state.final then s
    else if t.state = .running then
      ((s.modTask t.id fun t => { t with stopping := true }).stopTask t.id stPartial).endIfDone t.id
    else if t.desc.epoch = 0 then s.finishTask t.id .cancelled stNotReady
    else s) s
  let s2 := (keys s1.work.epochs).foldl (fun s e => s.discardEpoch e stDenied) s1
  s2.loseTable n

/-- A die is taken out of service, R345. -/
def State.loseDie (s : State) (d : Nat) : State :=
  if s.deadDies.contains d then s
  else
    let s1 : State := { s with deadDies := insertSet s.deadDies d }
    let s2 := (List.range 128).foldl (fun s i => s.fenceCluster (d * 128 + i) .domainFail true) s1
    let s3 := (List.range 3).foldl (fun s i => s.failPackage (3 * d + i)) s2
    let s4 := (List.range 2).foldl (fun s i => s.disableLink (2 * d + i)) s3
    s4.loseReadiness d

/-- Failed silk links: one that runs on its spare wires already makes its die unusable; another is retrained with them (R344). -/
def State.retrainSilk (s : State) : State :=
  let dead := ((s.clusters.filter fun p => p.2.linkFailed &&& p.2.linkSpare ≠ 0).map fun p => dieOf p.1).eraseDups
  let s1 := dead.foldl State.loseDie s
  { s1 with clusters := mapTab s1.clusters fun _ k =>
    if k.linkFailed &&& ~~~k.linkSpare = 0 then k
    else ({ k with linkSpare := k.linkSpare ||| k.linkFailed, linkFailed := k.linkFailed &&& k.linkSpare } : Cluster) }

/-- WAVES_STOPPED, R345, R484 steps 2 and 3, R560. A reset of every cluster discards the epochs of the passes in flight (R174,
R319). -/
def execWavesStopped (s : State) : Host.Outcome State Fault Refusal :=
  if s.fw.resetStep ≠ 1 then .next s
  else
    let cds := s.fw.resetting
    let s0 := if s.fw.resetAll then
        ((s.work.epochs.filter fun p => p.2.service).map (·.1)).foldl (fun s e => s.discardEpoch e stDenied) s
      else s
    let s1 := cds.foldl State.stopForReset s0
    let s2 := match s.fw.lostTable with
      | some n => s1.loseReadiness n
      | none => s1
    let s3 := cds.foldl State.enterReset s2
    let s4 := if s.fw.resetAll then { s3.retrainSilk with outers := mapTab s3.retrainSilk.outers fun _ o => o.resetRw } else s3
    .next (s4.onFw fun f => { f with resetStep := 3, lostTable := none, resetting := f.resetting.filter fun cd => !s4.fenced cd })

/-- RESET_SELFTEST_DONE, R484 step 4, R485; on a stopped stack the clusters wait (R535). -/
def execResetSelftestDone (failedClusters : List Nat) (s : State) : Host.Outcome State Fault Refusal :=
  let held := s.fw.resetting.any fun cd => s.heat.stacksStopped.getLsbD (dieOf cd)
  if s.fw.resetStep ≠ 3 ∨ held then .next s
  else
    let bad := failedClusters.filter s.fw.resetting.contains
    let s1 := bad.foldl (fun s cd => s.fenceCluster cd .selftestFail true) s
    .next (s1.onFw fun f => { f with resetStep := 4, resetting := f.resetting.filter fun cd => !bad.contains cd })

/-- 600 s in ns. -/
def window600 : Nat := 600000000000
/-- Times of a list within `w` ns before now, and now. -/
def recent (l : List Nat) (now w : Nat) : List Nat := (l.filter fun t => decide (now ≤ t + w)) ++ [now]

/-- DEVICE_ERROR_RESET, R485, R546, R560: a DEVICE-class error in READY or during a compute reset; the third reset within 600 s
is a device reset. The event's bits [15:0] hold its code, and for READY_TABLE_UE the bits above hold the die of the table. -/
def execDeviceErrorReset (event : Nat) (s : State) : Host.Outcome State Fault Refusal :=
  let code := event % 65536
  let hub := Ev.code .hubArrayUe
  let tab := Ev.code .readyTableUe
  if s.dev ≠ .ready ∧ s.dev ≠ .computeReset then .next s
  else if code ≠ hub ∧ code ≠ tab ∧ code ≠ Ev.code .silkLinkFail then .next s
  else
    let s1 := if code = hub then s.logEvent .hubArrayUe {}
      else if code = tab then s.logEvent .readyTableUe { detail := event / 65536 } else s
    let times := recent s.fw.devErrTimes s.now window600
    let s2 := s1.onFw fun f => { f with
      devErrTimes := times
      lostTable := if code = hub then some 4 else if code = tab then some (event / 65536 % 4) else f.lostTable }
    if 3 ≤ times.length then .next (s2.deviceReset.onFw fun f => { f with devErrTimes := [] })
    else .next (s2.beginReset (List.range 512) true s.fw.resetCmd)

/-! ### Activation, R474 to R478 -/

/-- Codes of the processors in the tables of switches: 0 security, 1 power, 2 scheduler, 3 + CD number for a control core. -/
def procCode : Proc → Nat
  | .security => 0
  | .power => 1
  | .scheduler => 2
  | .cluster cd => 3 + cd

/-- The checks of R474 that are made again before a deferred activation, with the status of the first that fails. -/
def State.activationCheck (s : State) (digest : BitVec 512) : Option Nat :=
  let x := s.fw.slot s.fw.chrysalis
  match x.bundle with
  | none => some stNotReady
  | some b =>
    if x.state ≠ .staged then some stNotReady
    else if b.digest ≠ digest then some stBadArg
    else if !s.fw.rollbackOk b then some stDenied
    else none

/-- An activation is by reset when the Major differs or the recovery image runs (R477). -/
def State.byReset (s : State) : Bool :=
  match s.activeBundle, (s.fw.slot s.fw.chrysalis).bundle with
  | some a, some b => decide (a.major ≠ b.major) || s.fw.image == .recovery
  | _, _ => true

/-- The slot is written ACTIVE and the live switch starts, or the reset follows in 10 ms (R459, R474, R477); the verifier cache
empties (R144). -/
def State.startActivation (s : State) : State :=
  let a := s.fw.chrysalis
  let other := s.fw.slot !a
  let seq := match other.seq with | some n => n + 1 | none => 1
  let s1 := (s.modSlot a fun x => { x with state := .active, seq := some seq }).onWork fun w => { w with cache := [] }
  if s.byReset then s1.onFw fun f => { f with activation := .idle, resetDelay := true, resetSwitch := true, newBundle := true }
  else s1.onFw fun f => { f with
    image := if a then .slotA else .slotB, switchedAt := [], switchedRestarts := [], switchFails := 0
    activation := .switching ((((List.range 512).filter fun cd => !s.fenced cd).map .cluster) ++ [.scheduler, .security, .power]) }

/-- The processor may switch next: control cores first, each when its wave has ended and, once the image is broadcast, when it has the
whole of it, then scheduler, security, power (R474). -/
def State.mayReload (s : State) (left : List Proc) (p : Proc) : Bool :=
  let clusters := left.any fun q => match q with | .cluster cd => !s.fenced cd | _ => false
  left.contains p && match p with
    | .cluster cd => (s.cluster cd).wave.isNone && (!s.fw.broadcasting || s.loaded cd)
    | .scheduler => !clusters
    | .security => !clusters && !left.contains .scheduler
    | .power => !clusters && !left.contains .scheduler && !left.contains .security

/-- LIVE_SWITCH_STEP, R474, R475: during an emergency the activation pauses instead. Fw_Deferred clears with the last switch. The power core switches last, with every
cluster forced to ÷4 meanwhile. -/
def execLiveSwitchStep (p : Proc) (s : State) : Host.Outcome State Fault Refusal :=
  match s.fw.activation with
  | .switching left =>
    if s.emergency then .next (s.onFw fun f => { f with activation := .paused left })
    else if !s.mayReload left p then .next s
    else
      let rest := left.filter fun q => q != p && match q with | .cluster cd => !s.fenced cd | _ => true
      let s1 := s.onFw fun f => { f with
        activation := if p = .power then .idle else .switching rest, switchedAt := put f.switchedAt (procCode p) s.now }
      if p ≠ .power then .next s1
      else
        let s2 : State := { s1 with
          clusters := mapTab s1.clusters fun _ k => if (Clk.div 4).slower k.clk then ({ k with clk := .div 4 } : Cluster) else k }
        let s3 := (s2.logEvent .fwActivated {}).alert alFw
        .next ((s3.onFw fun f => { f with fwDeferred := false, activatedAt := some s.now, newBundle := true }).onLife fun l =>
          { l with activations := satAdd 32 l.activations 1 })
  | _ => .next s

/-- An activation fails: logged, with Fw_Event. -/
def State.activateFailed (s : State) : State :=
  ((s.onFw fun f => { f with activation := .idle, fwDeferred := false }).logEvent .fwActivateFailed {}).alert alFw

/-- EMERGENCY_CLEAR, R475: no emergency for 10 s. A deferred activation makes its checks again and begins, once the device is
READY; a paused one resumes. -/
def execEmergencyClear (s : State) : Host.Outcome State Fault Refusal :=
  if s.emergency then .next s
  else match s.fw.activation with
    | .paused left => .next (s.onFw fun f => { f with activation := .switching left })
    | .deferred d =>
      if s.dev ≠ .ready ∨ s.fw.secRestart then .next s
      else match s.activationCheck d with
        | some _ => .next s.activateFailed
        | none => .next s.startActivation
    | _ => .next s

/-- ROLLBACK, R476: a switched processor has restarted twice within 60 s of its switch, or a new image failed R471 on more than
8 clusters. -/
def execRollback (s : State) : Host.Outcome State Fault Refusal :=
  let due := (s.fw.switchedRestarts.any fun p => decide (2 ≤ p.2)) || decide (8 < s.fw.switchFails)
  let a := s.fw.image == .slotA
  if !due ∨ (s.fw.image ≠ .slotA ∧ s.fw.image ≠ .slotB) then .next s
  else
    let s1 := (s.modSlot a fun x => { x with state := .failed }).onFw fun f => { f with
      image := if a then .slotB else .slotA, switchedRestarts := [], switchFails := 0, switchedAt := [], newBundle := false, activatedAt := none }
    .next s1.activateFailed

/-- SVN_ADVANCE, R478: READY for 600 s on a newly activated bundle without a restart of a hub processor. -/
def execSvnAdvance (s : State) : Host.Outcome State Fault Refusal :=
  match s.activeBundle with
  | none => .next s
  | some b =>
    if s.dev ≠ .ready ∨ !s.fw.newBundle then .next s
    else .next (s.onFw fun f => { f with
      newBundle := false
      svn := if b.advanceSvn then max f.svn b.secVersion else f.svn
      kh0Revoked := f.kh0Revoked || (b.revokeKey0 && b.keyIndex == 1) })

/-- STAGING_ERASE_DONE, R473: the background erase of a slot ends. -/
def execStagingEraseDone (s : State) : Host.Outcome State Fault Refusal :=
  match s.fw.erasing with
  | none => .next s
  | some a => .next ((s.modSlot a fun _ => {}).onFw fun f => { f with erasing := none })

/-- RESET_DELAY_EXPIRY, R441, R477: 10 ms after the answer the device reset takes place. -/
def execResetDelayExpiry (s : State) : Host.Outcome State Fault Refusal :=
  if !s.fw.resetDelay ∨ s.dev = .off ∨ s.dev = .saving ∨ s.dev = .tripped then .next s else .next s.deviceReset

/-! ### Restarts, R479 to R482 -/

/-- READY has been reached: a restart is not one of bring-up (R482). -/
def DevState.up : DevState → Bool
  | .ready | .computeReset | .cocoon => true
  | _ => false

/-- Count a restart of a processor that has switched within the last 60 s (R476). -/
def State.countSwitched (s : State) (p : Proc) : State :=
  match look s.fw.switchedAt (procCode p) with
  | some t =>
    if s.now ≤ t + 60000000000 then
      s.onFw fun f => { f with switchedRestarts := put f.switchedRestarts (procCode p) (lookD f.switchedRestarts (procCode p) 0 + 1) }
    else s
  | none => s

/-- The slot of the image that runs becomes FAILED. -/
def State.failRunning (s : State) : State :=
  match s.fw.image with
  | .slotA => s.modSlot true fun x => { x with state := .failed }
  | .slotB => s.modSlot false fun x => { x with state := .failed }
  | _ => s

/-- A hub processor restarts before READY: a device reset, and the third on one slot fails the slot (R482). -/
def State.earlyRestart (s : State) : State :=
  let n := s.fw.preReadyResets + 1
  let s1 := if 3 ≤ n then s.failRunning else s
  s1.deviceReset.onFw fun f => { f with preReadyResets := if 3 ≤ n then 0 else n }

/-- The third restart of one hub processor within 600 s: a device reset, which fails the new slot when an activation completed
within 600 s (R481). -/
def State.thirdRestart (s : State) : State :=
  let new := match s.fw.activatedAt with
    | some t => decide (s.now ≤ t + window600)
    | none => false
  (if new then s.failRunning else s).deviceReset

/-- A control core restarts: its running wave ends and its cluster is reset alone; the third within 600 s fences it (R479,
R481). -/
def State.restartCluster (s : State) (cd : Nat) : State :=
  let k := s.cluster cd
  if k.fenced ∨ k.restarting ∨ !k.fwRunning then s
  else
    let s1 := (s.logEvent .ctrlRestart { ut := utCluster, ui := cd }).countSwitched (.cluster cd)
    let times := recent k.restarts s.now window600
    let s2 := s1.modCluster cd fun k => { k with restarts := times }
    if 3 ≤ times.length then s2.fenceCluster cd .ctrlRestartLimit true
    else ((s2.stopForReset cd).enterReset cd).modCluster cd fun k => { k with restarting := true }

/-! ### What the front end holds, R422, R427, R439 -/

/-- Enabled_Clusters and Grade take their values at eclosion (R468); before it they read zero. -/
def State.counted (s : State) : Bool :=
  match s.dev with
  | .ready | .computeReset | .cocoon | .saving | .tripped => true
  | _ => false

/-- A cluster runs slower than its clock. -/
def State.throttled (s : State) : Bool := s.clusters.any fun p => p.2.clk != .full

/-- DEV_STATUS. -/
def State.devStatus (s : State) : Nat :=
  let f := s.fw
  pack [(s.failedPackages, 40), (f.bootCode, 32), (bitOf s.throttled, 27), (bitOf (f.image == .recovery), 26), (bitOf f.fwDeferred, 25),
    (bitOf s.emergency, 24), (bitOf f.secRestart, 23), (bitOf f.powRestart, 22), (bitOf f.schRestart, 21),
    (bitOf s.pwr.guestFenced, 20), (bitOf f.guestPop, 19), (bitOf s.pwr.feedB.ok, 18), (bitOf s.pwr.feedA.ok, 17),
    (bitOf s.pwr.holdupLow, 16), (if s.counted then s.enabledClusters else 0, 6), (if s.counted then s.grade else 0, 4),
    (s.dev.code, 0)]

/-- ERR_LOG_STATE. -/
def State.errLogState (s : State) : Nat := pack [(s.log.next % 2 ^ 32, 32), (s.log.records, 0)]

/-- What the hub front end holds of the firmware's registers, R422, R439. -/
def State.dcsImage (s : State) : DcsImage :=
  { status := s.devStatus, hubTime := s.now % 2 ^ 64, alerts := s.ctl.alertPending.toNat, mask := s.ctl.alertMask.toNat, errors := s.errLogState,
    windows := s.ctl.windows }

/-- Write ALERT_PENDING (W1C) and ALERT_MASK, R427; while the scheduler core restarts the front end records the write (R422). -/
def State.clearAlerts (s : State) (v : Nat) : State :=
  s.onCtl fun k =>
    if s.fw.schRestart then { k with recorded := k.recorded ++ [(false, v)] }
    else { k with alertPending := k.alertPending &&& ~~~BitVec.ofNat 64 v }
def State.writeMask (s : State) (v : Nat) : State :=
  s.onCtl fun k =>
    if s.fw.schRestart then { k with recorded := k.recorded ++ [(true, v)] }
    else { k with alertMask := BitVec.ofNat 64 (v % 2048) }

/-- The scheduler core acts on the writes recorded in its absence, in arrival order (R422). -/
def State.settleWrites (s : State) : State :=
  s.ctl.recorded.foldl (fun s w => if w.1 then s.writeMask w.2 else s.clearAlerts w.2)
    (s.onCtl fun k => { k with recorded := [], image := none })

/-- A firmware processor alone is reset and restarted, R450, R479; its channels are lost (R355). -/
def State.restart (s : State) (p : Proc) : State :=
  match p with
  | .cluster cd => s.restartCluster cd
  | _ =>
    let f := s.fw
    let (running, already, times) := match p with
      | .security => (f.secUp, f.secRestart, f.secTimes)
      | .power => (f.powUp, f.powRestart, f.powTimes)
      | _ => (f.schUp, f.schRestart, f.schTimes)
    if !running ∨ already then s
    else
      let s1 := (s.logEvent .procRestart { ut := utProc, ui := (procCode p) }).countSwitched p
      let ts := recent times s.now window600
      let ep := hubEp (match p with | .security => 0 | .power => 1 | _ => 2)
      let s0 := if p = .scheduler then s1.onCtl fun k => { k with image := some s.dcsImage } else s1
      let s2 := (s0.loseHubChannels ep).onFw fun f => match p with
        | .security => { f with secRestart := true, secTimes := ts }
        | .power => { f with powRestart := true, powTimes := ts }
        | _ => { f with schRestart := true, schTimes := ts }
      if s.dev = .off ∨ s.dev = .saving ∨ s.dev = .tripped then s2
      else if !s.dev.up then s2.earlyRestart
      else if 3 ≤ ts.length then s2.thirdRestart
      else if p = .power then s2.retune else s2

/-- WATCHDOG_EXPIRY, R450, R479 to R482. -/
def execWatchdogExpiry (p : Proc) (s : State) : Host.Outcome State Fault Refusal := .next (s.restart p)

/-- REPORTED_FAULT, R479: a fault that the processor reports itself has the effects of a watchdog expiry. -/
def execReportedFault (p : Proc) (s : State) : Host.Outcome State Fault Refusal := .next (s.restart p)

/-- The commands that were in progress when the scheduler core crashed and had no effect are answered RETRY (R439). -/
def State.settleCommands (s : State) : State :=
  (s.ctl.inProgress.filter fun c => !c.started).foldl (fun s c => s.respond c.hdr c.op stRetry false 0 []) s

/-- The fences that waited for the power core, R507. -/
def State.settlePhases (s : State) : State :=
  ((s.clusters.filter fun p => p.1 < 512 && !p.2.fenced && decide (p.2.working ≤ 3)).map (·.1)).foldl
    (fun s cd => s.fenceCluster cd .domainFail true) s

/-- PROC_RESTART_DONE, R439, R479, R480, R482, R507: a power or scheduler core waits for a restarting security core. -/
def execProcRestartDone (p : Proc) (s : State) : Host.Outcome State Fault Refusal :=
  match p with
  | .security => .next (s.onFw fun f => { f with secRestart := false })
  | .power =>
    if s.fw.secRestart ∨ !s.fw.powRestart then .next s
    else .next ((s.onFw fun f => { f with powRestart := false }).settlePhases).retune
  | .scheduler =>
    if s.fw.secRestart ∨ !s.fw.schRestart then .next s
    else .next ((s.onFw fun f => { f with schRestart := false }).settleWrites.settleCommands.flushJournal)
  | .cluster cd =>
    if !(s.cluster cd).restarting ∨ s.fenced cd ∨ s.fw.schRestart then .next s
    else .next ((s.modCluster cd fun k => { k with fwRunning := true }).release [cd])

/-! ### Error records, R554, R555 -/

/-- ERROR_RECORD_WRITE, R550, R554: the second of a CORRECTED event ends and its record is written; PHASE_FAIL, SLICE_STUCK and
the other copied events are queued for the journal (R555, R586). -/
def execErrorRecordWrite (event unitType unitIndex : Nat) (s : State) : Host.Outcome State Fault Refusal :=
  match s.log.open_.find? fun r => r.event == event && r.unitType == unitType && r.unitIndex == unitIndex with
  | none => .next s
  | some r =>
    let copied := [Ev.phaseFail, .sliceUe, .sliceStuck, .sliceAddr, .outerUe, .packageFailed, .ownershipChanged, .serviceReset].any fun e => e.code == event
    let s1 : State := { s with log := { s.log with open_ := s.log.open_.filter fun x => x != r } }
    let s2 := s1.writeRecord r
    .next (if copied then s2.onLife fun l => { l with toCopy := l.toCopy ++ [s.log.next] } else s2)

/-- SERVICE_LIFE_COPY, R555, R586: a queued record goes into the ring of the service-life journal (65,536 records of 64 bytes). -/
def execServiceLifeCopy (index : Nat) (s : State) : Host.Outcome State Fault Refusal :=
  if !s.life.toCopy.contains index then .next s
  else
    let r := (look s.log.ring (index % 65536)).bind fun r => if r.index = index then some r else none
    .next (s.onLife fun l => { l with
      toCopy := l.toCopy.filter (· != index)
      copies := match r with | some r => (r :: l.copies).take 65536 | none => l.copies })

end Sys2Proof.Machine
end

