-- ==== Sys2Proof/Machine/Registers.lean ====
section
/-!
DEFINITION. The register blocks of the units, read and written by their offsets: slice R226, outer controller R268, channel
R356, router R357, link R395, port R421, core (02), clock and power R519, sensors R544. Writes act by the access types of R14;
no register map of the spec names a field of type LCK, so none is logged as LCK_WRITE.
-/

namespace Sys2Proof.Machine

/-! ### Reading -/

/-- Refresh and cap step of a layer at a core (R222, R224). -/
def State.layerOf (s : State) (c layer : Nat) : LayerSteps := lookD s.heat.steps (zoneOf (cdOf c) * 4 + layer) {}

/-- The slice block, R226. -/
def State.sliceReg (s : State) (c off : Nat) : Nat :=
  let k := s.slice c
  let spare (i : Nat) : Nat := match k.spares.getD i none with | some p => 0x8000 + p | none => 0
  match off with
  | 0x00 => pack ([(k.pagesUsable, 33), (k.sparesFree, 30), (bitOf (!s.fw.checkFailed.contains c && s.fw.checkerDone), 29),
      (bitOf s.fw.slicesFilled, 28), (k.bankRetired.toNat, 20)] ++
      (List.range 4).map (fun n => ((s.layerOf c n).cap, 3 * n + 8)) ++
      (List.range 4).map (fun n => ((s.layerOf c n).refresh, 2 * n)))
  | 0x08 => pack [(k.uncorrectable, 48), (k.addressErr, 32), (k.corrected, 0)]
  | 0x10 => pack [(k.oldestAge s.now, 40), (k.lastLapMs, 16), (k.laps, 0)]
  | 0x18 => pack [(k.refetches, 32), (k.closingJudged, 16), ((s.core c).watch.length, 0)]
  | 0x20 => pack [(bitOf k.scrubEnable, 4), (k.scrubShift, 0)]
  | 0x28 => pack [(spare 3, 48), (spare 2, 32), (spare 1, 16), (spare 0, 0)]
  | _ => 0

/-- Claimed page ranges of a package: those of the sources and of the result of each running operation (R263). -/
def Outer.claimsHeld (o : Outer) : Nat := o.running.foldl (fun n p => n + (⟨p.record⟩ : ProbRec).sources.length + 1) 0

/-- Units reading banks for operations: the four of each granted group (R260). -/
def Outer.unitsNow (o : Outer) : Nat := 4 * o.granted.length

/-- Spare pages that are free: neither in use, nor taken by a running copy (R247). -/
def Outer.sparesFree (o : Outer) : Nat :=
  ((List.range 16).filter fun i => (o.spares.getD i none).isNone && !(o.copying.any fun x => x.2 == i)).length

/-- The outer-controller block, R268. -/
def State.outerReg (s : State) (m off : Nat) : Nat :=
  let o := s.outer m
  let spare (i : Nat) : Nat := match o.spares.getD i none with | some p => if p < 65536 then 0x80000000 + p else 0 | none => 0
  match off with
  | 0x00 => pack [(o.pagesRetired, 32), (o.sparesFree, 27), (bitOf o.degraded, 26), (bitOf o.checkPass, 25), (bitOf o.fillDone, 24),
      (bitOf o.trained, 23), (bitOf o.hold, 22), (bitOf o.derated, 21), (o.refreshStep, 20), (o.unitsNow, 15)]
  | 0x08 => pack [(o.uncorrectable, 48), (o.busCorrected, 32), (o.dieCorrected, 0)]
  | 0x10 => pack [(o.slotted.length, 36), ((List.range 512).foldl (fun n b => max n (o.bankSlots b)) 0, 26),
      (min 512 o.window.length, 16), (o.timeouts, 0)]
  | 0x18 => pack [(o.oldestAge s.now, 40), (o.lastLapMs, 16), (o.laps, 0)]
  | 0x20 => pack [(o.activeMax, 4), (bitOf o.scrubEnable, 3), (o.scrubRate, 0)]
  | 0x28 => pack [(o.opsDone, 40), (o.busyResponses, 24), (o.ops.length + o.running.length, 15), (o.claimsHeld, 4)]
  | _ => if 0x30 ≤ off ∧ off < 0x70 ∧ off % 8 = 0 then pack [(spare ((off - 0x30) / 4 + 1), 32), (spare ((off - 0x30) / 4), 0)] else 0

/-- The channel block, R356. -/
def State.chnReg (s : State) (ep i off : Nat) : Nat :=
  let c := s.channel ep i
  match off with
  | 0x00 => pack [(c.highMark, 32), (c.lowMark, 16), (c.maxPacket, 9), (c.log2Depth, 5), (bitOf (privileged ep i), 4), (bitOf c.enable, 0)]
  | 0x08 => pack [(c.packets, 48), (c.words.length, 32), (c.opens.length, 24), (bitOf c.pressure, 7), (bitOf (c.openBy.isSome || c.draining.isSome), 6),
      (bitOf c.draining.isSome, 5), (bitOf c.marker, 4), (bitOf c.resetSeen, 3)]
  | 0x18 => pack [(c.wordsFlushed, 32), (c.packetsAborted, 16), (c.pressureEvents, 0)]
  | _ => 0

/-- The router block, R357. -/
def State.rtrReg (s : State) (cd off : Nat) : Nat :=
  let k := s.cluster cd
  match off with
  | 0x00 => pack [(k.linkFailed.toNat, 4), (if k.fenced then 2 else if k.inReset then 1 else 0, 2)]
  | 0x08 => pack [(k.replays, 32), (k.resettingAnswers, 16), (k.fencedAnswers, 0)]
  | _ => 0

/-- The numbers of the link states, R368. -/
def LState.code : LState → Nat
  | .disabled => 0 | .down => 1 | .detect => 2 | .equalise => 3 | .deskew => 4 | .identify => 5 | .up => 6 | .retrain => 7
  | .quarantine => 8 | .draining => 9 | .mismatch => 10

/-- The link block, R395. -/
def State.linkReg (s : State) (l off : Nat) : Nat :=
  let k := s.linkSt l
  match off with
  | 0x00 => pack [(k.partnerId, 33), (bitOf k.partnerKnown, 32), (k.partnerLink, 29), (k.state.code, 25),
      (if k.state = .up then k.width else 0, 21), (k.lanesUsed.toNat, 13), (bitOf k.reversed, 12), (k.polarity.toNat, 4),
      (bitOf k.pendingOn, 3)]
  | 0x08 => pack [(k.widthMax, 2), (bitOf k.retrainBit, 1), (bitOf k.enable, 0)]
  | 0x10 => pack [(k.fecCorrected, 32), (k.fecUncorrectable, 16), (k.crcErrors, 0)]
  | 0x18 => pack [(k.replays, 32), (k.malformed, 16), (k.quarantines, 8), (k.retrains, 0)]
  | 0x20 => pack [(k.agedOut, 48), (k.noRoute, 32)]
  | _ => 0

/-- LYS_ID, R395. -/
def State.lysId (s : State) : Nat := pack [(s.lys.systemId.toNat, 16), (bitOf s.lys.torus, 15), (s.lys.deviceId, 0)]

/-- The numbers of the port states, R397. -/
def PState.code : PState → Nat
  | .disabled => 0 | .down => 1 | .up => 2 | .draining => 3

/-- Mode_Sel as it acts: 0 acts as 1 (R421). -/
def PortSt.mode (k : PortSt) : Nat := if k.modeSel = 0 then 1 else k.modeSel

/-- A bit for each priority of Pfc_Mask, counted from bit 0, that `on` holds of. -/
def PortSt.nthBits (k : PortSt) (on : Nat → Bool) : Nat :=
  pack (((List.range 8).filter k.pfc).mapIdx fun i p => (bitOf (on p), i))

/-- Queue pairs bound to a port. -/
def State.qpsBound (s : State) (p : Nat) : Nat := (s.net.qps.filter fun x => x.2.port == p).length

/-- The port block, R421. -/
def State.portReg (s : State) (p off : Nat) : Nat :=
  let k := s.portSt p
  match off with
  | 0x00 => pack [(s.qpsBound p, 33), (bitOf k.clockOffered, 32), (bitOf (k.ipv6State == .ok), 31), (bitOf (k.ipv4State == .ok), 30),
      (bitOf k.linkLocalOk, 29), (bitOf (k.macsecEnable && k.txSa.isSome), 28), (k.nthBits fun i => (look k.paused i).isSome, 26),
      (k.nthBits k.pfcSending.contains, 24), (bitOf k.remoteFault, 21), (bitOf k.localFault, 20), (k.state.code, 16),
      (bitOf k.pendingOn, 15), (if k.state = .disabled then 0 else k.mode, 12)]
  | 0x08 => pack [(k.dscpCnp, 52), (k.dscpData, 46), (k.pcpCtl, 43), (k.pcpCnp, 40), (k.pcpData, 37), (k.pfcMask.toNat, 29),
      (k.vlanId, 17), (bitOf k.macsecEnable, 16), (k.pathMtuMax, 14), (k.ipv6Source, 12), (k.ipv4Source, 10), (k.modeSel, 8),
      (bitOf k.enable, 0)]
  | 0x10 => pack [(k.fecCorrected, 32), (k.fecUncorrected, 16), (k.fcsErrors, 0)]
  | 0x18 => pack [(k.dropSize, 48), (k.dropFiltered, 32), (k.dropFull, 16), (k.dropIcrcPkey, 0)]
  | 0x20 => pack [(k.icvFail, 48), (k.replayDrop, 32), (k.untaggedDrop, 16), (k.txAn, 0)]
  | 0x28 => pack [(k.cnpRx, 48), (k.cnpTx, 32), (k.rnrNakTx, 16), (k.qpErrors, 0)]
  | 0x30 => pack [(k.rclAdd, 32), (k.rclMin, 24), (k.rclHold, 16), (k.rclStep, 8), (k.rclRec, 4), (k.rclCut, 0)]
  | _ => 0

/-- The numbers of the domain states, R508. -/
def DState.code : DState → Nat
  | .off => 0 | .waitBudget => 1 | .rampUp => 2 | .on => 3 | .rampDown => 4 | .fenced => 5

/-- The clock and power space, R519. -/
def State.powerReg (s : State) (off : Nat) : Nat :=
  let p := s.pwr
  if off = 0 then
    pack ([(p.switches, 33), (p.source, 20), (bitOf p.holdover, 19),
      (bitOf (p.holdover || s.clusters.any fun x => x.2.clk != x.2.goal), 18), (p.srcCfg, 0)] ++
      p.offered.map fun n => (1, 24 + (n - 1)))
  else if off = 8 then
    pack [(p.capW, 40), (p.capLevel, 36), (bitOf p.fastLimit, 35), (bitOf p.capUnmet, 34), (bitOf s.emergencyPower, 33),
      (bitOf p.holdupLow, 32), (p.vpkgA, 16), (p.conducting, 14), (bitOf p.feedB.ok, 13), (bitOf p.feedA.ok, 12)]
  else if 0x1000 ≤ off ∧ off < 0x2000 ∧ off % 8 = 0 then
    let k := s.cluster ((off - 0x1000) / 8)
    pack [((k.setPoint - 500) / 2, 24), (k.droopEvents, 16), (k.phases.toNat, 10), (k.f, 5), (bitOf k.domPending, 4),
      (bitOf k.gateOpen, 3), (k.dom.code, 0)]
  else 0

/-- The numbers of the coolant states, R544. -/
def Coolant.code : Coolant → Nat
  | .normal => 0 | .lowFlow => 1 | .stopped => 2 | .absent => 3

/-- A layer channel whose reading the die beneath replaces, R527. -/
def substituted (h : Heat) (ch : Nat) : Bool :=
  match chanKind ch with
  | .layer _ _ => (h.chan ch).dropped
  | _ => false

/-- THM_CHn, R544. -/
def State.chanReg (s : State) (ch : Nat) : Nat :=
  let k := s.heat.chan ch
  pack [(ofInt 16 k.raw, 16), (bitOf k.open_, 13), (bitOf k.short, 12), (bitOf k.dropped, 11), (bitOf k.flagged, 10),
    (bitOf (substituted s.heat ch), 9), (bitOf (chanPartner ch).isSome, 8), ((chanPartner ch).getD 0xFF, 0)]

/-- The sensor space, R544. -/
def State.thermalReg (s : State) (off : Nat) : Nat :=
  let h := s.heat
  if off = 0 then
    pack [(h.coolantLimit.getD 0xFFFF, 48), (h.flow, 32), (h.sensorsDropped, 16), (h.stacksStopped.toNat, 12),
      (bitOf h.flowSensorFailed, 11), (bitOf h.inletHigh, 10), (h.coolant.code, 8), (h.tripChannel, 0)]
  else if 0x100 ≤ off ∧ off < 0x1E8 ∧ off % 8 = 0 then
    let z := (off - 0x100) / 8
    let k := h.zone z
    pack [(ofInt 16 k.reading, 16), (if z < 16 then k.level else 0, 12), (k.interval, 10), (bitOf k.hard, 9), (bitOf k.pairLost, 8),
      (bitOf k.fastRise, 7)]
  else if 0x400 ≤ off ∧ off < 0x900 ∧ off % 8 = 0 then s.chanReg ((off - 0x400) / 8)
  else 0

/-- The bytes of a unit's register block: the Results of UNIT_REGS. -/
def State.block (s : State) (u : RegUnit) : List Byte :=
  let regs (n : Nat) (f : Nat → Nat) : List Byte := (List.range n).flatMap fun i => leBytes 8 (f (8 * i))
  match u with
  | .slice c => regs 6 (s.sliceReg c)
  | .outer m => regs 14 (s.outerReg m)
  | .channel ep i => regs 4 (s.chnReg ep i)
  | .router cd => regs 2 (s.rtrReg cd)
  | .link l => regs 5 (s.linkReg l)
  | .port p => regs 7 (s.portReg p)
  | _ => []

/-! ### Writing -/

/-- A unit that the module has. -/
def unitExists : RegUnit → Bool
  | .slice c => decide (c < 32768)
  | .outer m => decide (m < 12)
  | .channel ep i => decide (ep < 5 * 32768) && decide (i < 64)
  | .router cd => decide (cd < 512)
  | .link l => decide (l < 8)
  | .port p => decide (p < 4)
  | .core c => decide (c < 32768)
  | .dcs | .lysId | .clockPower | .thermal => true

/-- Active_Max is rounded down to a multiple of 4 and clamped to 8 to 24 (R260). -/
def activeMaxOf (v : Nat) : Nat := max 8 (min 24 (v / 4 * 4))

/-- Write Active_Max; while R514 holds it at 8, the new value is the one restored later. -/
def State.writeActiveMax (s : State) (m v : Nat) : State :=
  s.modOuter m fun o => match o.activeSaved with
    | some _ => { o with activeSaved := some (activeMaxOf v), activeMax := min (activeMaxOf v) 8 }
    | none => { o with activeMax := activeMaxOf v }

/-- Write OMC_CTL, R268. -/
def State.writeOuterCtl (s : State) (m v : Nat) : State :=
  (s.writeActiveMax m (bits v 8 4)).modOuter m fun o => { o with scrubEnable := bits v 3 3 == 1, scrubRate := bits v 2 0 }

/-- Write the Enable bit of a link, R373; one that is enabled already is left. -/
def State.setLink (s : State) (l : Nat) (on : Bool) : State :=
  if on then s.enableLink l else s.disableLink l

/-- Write LNK_CFG, R395: Retrain moves an UP link to RETRAIN, which it has entered when the bit would read. -/
def State.writeLinkCfg (s : State) (l v : Nat) : State :=
  let s1 := s.modLink l fun k => { k with widthMax := bits v 5 2 }
  let s2 := if bits v 0 0 = bitOf (s.linkSt l).enable ∧ (s.linkSt l).state ≠ .draining then s1 else s1.setLink l (bits v 0 0 == 1)
  if bits v 1 1 = 1 ∧ (s2.linkSt l).state = .up then s2.leaveUp l else s2

/-- Write ETH_CFG, R421: each field by its own rule. -/
def State.writePortCfg (s : State) (p v : Nat) : State :=
  let k := s.portSt p
  let s1 := s.modPort p fun k => { k with
    dscpCnp := bits v 57 52, dscpData := bits v 51 46, pcpCtl := bits v 45 43, pcpCnp := bits v 42 40, pcpData := bits v 39 37
    vlanId := bits v 28 17, macsecEnable := bits v 16 16 == 1, pathMtuMax := bits v 15 14, ipv6Source := bits v 13 12
    ipv4Source := bits v 11 10 }
  let s2 := if bits v 36 29 = k.pfcMask.toNat then s1 else s1.writePfcMask p (BitVec.ofNat 8 (bits v 36 29))
  let s3 := if bits v 9 8 = k.modeSel then s2 else s2.writeMode p (bits v 9 8)
  if bits v 0 0 = bitOf k.enable ∧ k.state ≠ .draining then s3 else if bits v 0 0 = 1 then s3.enablePort p else s3.disablePort p

/-- Write RCL_CFG, R421. -/
def State.writeRcl (s : State) (p v : Nat) : State := s.modPort p fun k => { k with
  rclAdd := bits v 39 32, rclMin := bits v 31 24, rclHold := bits v 23 16, rclStep := bits v 15 8, rclRec := bits v 7 4
  rclCut := bits v 3 0 }

/-- Write CHN_CFG, R351, R356: a configuration that breaks R351 leaves the register unchanged and logs CHN_CFG_BAD. -/
def State.writeChnCfg (s : State) (ep i : Nat) (value : Dword) : State :=
  match execChnCfgWrite ep i value s with
  | .next t => t
  | _ => s

/-- LYS_ID, R374: written only while every link is DISABLED, DOWN or MISMATCH; any other write is ignored and logged. -/
def State.writeLysId (s : State) (v : Nat) : State :=
  let idle := (List.range 8).all fun l => [LState.disabled, .down, .mismatch].contains (s.linkSt l).state
  if idle then s.onLys fun y => { y with systemId := BitVec.ofNat 32 (bits v 47 16), torus := bits v 15 15 == 1, deviceId := bits v 14 0 }
  else s.logEvent .lysIdBusy {}

/-- Write a register of a unit by the access types of its fields (R14); the DCS is written by its own rows. -/
def State.writeReg (s : State) (u : RegUnit) (off : Nat) (value : Dword) : State :=
  let v := value.toNat
  if !unitExists u then s
  else match u with
  | .slice c => if off = 0x20 then s.modSlice c fun k => { k with scrubEnable := bits v 4 4 == 1, scrubShift := bits v 3 0 } else s
  | .outer m => if off = 0x20 then s.writeOuterCtl m v else s
  | .channel ep i =>
    if off = 0x00 then s.writeChnCfg ep i value
    else if off = 0x08 ∧ bits v 3 3 = 1 then s.modChannel ep i fun c => { c with resetSeen := false }
    else if off = 0x10 ∧ bits v 0 0 = 1 then s.onChannel ep i fun c => if privileged ep i then c.flushPrivileged else c.flush
    else s
  | .link l => if off = 0x08 then s.writeLinkCfg l v else s
  | .port p => if off = 0x08 then s.writePortCfg p v else if off = 0x30 then s.writeRcl p v else s
  | .core c => if off = 0x018 then s.modCore c fun k => { k with cubeFlags := k.cubeFlags &&& ~~~BitVec.ofNat 9 v } else s
  | .lysId => s.writeLysId v
  | .thermal =>
    if 0x100 ≤ off ∧ off < 0x1E8 ∧ off % 8 = 0 ∧ bits v 7 7 = 1 then
      let z := (off - 0x100) / 8
      s.onHeat fun h => { h with zones := put h.zones z { h.zone z with fastRise := false } }
    else s
  | .router _ | .dcs | .clockPower => s

/-- ACTIVE_MAX_WRITE, R260, R268. -/
def execActiveMaxWrite (m value : Nat) (s : State) : Host.Outcome State Fault Refusal :=
  .next (if m < 12 then s.writeActiveMax m value else s)

/-- LYS_ID_WRITE, R374. -/
def execLysIdWrite (value : Dword) (s : State) : Host.Outcome State Fault Refusal := .next (s.writeLysId value.toNat)

end Sys2Proof.Machine
end

