-- ==== Sys2Proof/Machine/Control.lean ====
section
/-!
DEFINITION. The control space and the mailboxes (chapter 12): the registers of R427, the rings and their commands (R431 to
R439), the I²C slot (R424, R440, R446), alerts, the telemetry mirror (R429, R430) and buffers (R445 to R447).
-/

namespace Sys2Proof.Machine

/-! ### Rings, R433 to R435 -/

/-- Difference of two 16-bit counts. -/
def cnt16 (a b : Nat) : Nat := (a + 65536 - b) % 65536

/-- The ring has room for a response. -/
def Ctl.rspRoom (k : Ctl) : Bool := decide (cnt16 k.rspTail k.rspHead < 256)

/-- Commands fetched and not answered, In_Progress. -/
def Ctl.ringBusy (k : Ctl) : Nat :=
  (k.inProgress.filter fun c => c.hdr.path == .ring).length + (k.completed.filter fun r => r.hdr.path == .ring).length

/-- Stalled_Rsp. -/
def Ctl.stalled (k : Ctl) : Bool := (k.completed.any fun r => r.hdr.path == .ring) && !k.rspRoom

/-- A write that R423 refuses is counted. -/
def State.refuseWrite (s : State) : State := s.onCtl fun k => { k with refused := satAdd 7 k.refused 1 }

/-- A queue pair is an MGMT one in RTS (R410, R433). -/
def State.mgmtQp (s : State) (q : Nat) : Bool :=
  match look s.net.qps q with
  | some x => x.kind == .mgmt && x.state == .rts
  | none => false

/-- A new tail: one behind CMD_HEAD or more than 256 ahead of it is ignored and logged (R433). -/
def State.writeTail (s : State) (v : Nat) : State :=
  if 256 < cnt16 v s.ctl.cmdHead then (s.logEvent .ringBadTail {}).alert alRing
  else s.onCtl fun k => { k with cmdTail := v }

/-- Set Reset, R435: unfetched commands are discarded, the responses of those in progress too; by I²C the ring loses its holder at
once and the I²C session ends (R433, R438, R576). -/
def State.ringReset (s : State) (byI2c : Bool) : State :=
  let s1 := s.onCtl fun k => ({ k with
    cmdHead := k.cmdTail, resetting := true
    inProgress := k.inProgress.map fun c => if c.hdr.path = .ring then { c with discard := true } else c
    completed := k.completed.filter fun r => r.hdr.path != .ring } : Ctl).settleReset
  let s2 := s1.settleSession
  if byI2c then s2.dropHolder.onIdent fun i => { i with sessI2c := none } else s2

/-- CMD_TAIL_WRITE, R433: the first MGMT queue pair to write while Held is 0 becomes the holder; any other's write is refused. -/
def execCmdTailWrite (qp : Nat) (value : Half) (s : State) : Host.Outcome State Fault Refusal :=
  if !s.mgmtQp qp then .next s
  else match s.ctl.holder with
  | none => .next ((s.onCtl fun k => { k with holder := some qp }).writeTail value.toNat)
  | some q => .next (if q = qp then s.writeTail value.toNat else s.refuseWrite)

/-- RSP_HEAD_WRITE, R423, R433. -/
def execRspHeadWrite (qp : Nat) (value : Half) (s : State) : Host.Outcome State Fault Refusal :=
  if !s.mgmtQp qp then .next s
  else if s.ctl.holder = some qp then .next (s.onCtl fun k => { k with rspHead := value.toNat })
  else .next s.refuseWrite

/-- RING_RESET, R423, R435: by the ring holder, or over I²C. -/
def execRingReset (byI2c : Bool) (qp : Nat) (s : State) : Host.Outcome State Fault Refusal :=
  if byI2c then .next (s.ringReset true)
  else if !s.mgmtQp qp then .next s
  else if s.ctl.holder = some qp then .next (s.ringReset false)
  else .next s.refuseWrite

/-! ### The command set, R441 -/

/-- Authority (0 none, 1 T, 2 O) and the mark S of a command, R441; none for a code that is not in the set. -/
def cmdInfo (op : Nat) : Option (Nat × Bool) :=
  if [0x0101, 0x0105, 0x0402, 0x0503, 0x0704, 0x0801, 0x0802, 0x0903, 0x0A05, 0x0B01].contains op then some (0, false)
  else if op = 0x0A01 then some (0, true)
  else if [0x0201, 0x0202, 0x0301, 0x0302, 0x0303, 0x0304, 0x0305, 0x0306, 0x0307, 0x0308, 0x0401, 0x0501, 0x0502, 0x0504, 0x0505,
      0x0506, 0x0507, 0x0508, 0x0601, 0x0602, 0x0A03].contains op then some (1, false)
  else if op = 0x0A07 then some (1, true)
  else if [0x0102, 0x0603, 0x0604, 0x0605, 0x0701, 0x0702, 0x0703, 0x0B02, 0x0C01, 0x0C02, 0x0C03, 0x0C04, 0x0C05].contains op
    then some (2, false)
  else if [0x0103, 0x0104, 0x0901, 0x0902, 0x0A02, 0x0A04, 0x0A06, 0x0A08].contains op then some (2, true)
  else none

/-- The commands that the recovery image runs, R462. -/
def recoveryCmds : List Nat := [0x0101, 0x0903, 0x0B01, 0x0104, 0x0105, 0x0901, 0x0902, 0x0103, 0x0C01, 0x0C05, 0x0C02]

/-- A command runs in the present device state, R436, R462. -/
def State.mayRun (s : State) (op : Nat) : Bool :=
  (match s.dev with
    | .training | .filling | .selftest | .eclosion => [0x0101, 0x0B01, 0x0105, 0x0C01, 0x0C02, 0x0C05].contains op
    | .ready => true
    | .computeReset => ! [0x0501, 0x0508, 0x0505, 0x0306, 0x0308].contains op
    | .cocoon => [0x0101, 0x0402, 0x0503, 0x0704, 0x0801, 0x0802, 0x0903, 0x0A03, 0x0A05, 0x0B01].contains op
    | _ => false) && (s.fw.image != .recovery || recoveryCmds.contains op)

/-- The session bound to a path. -/
def State.session (s : State) (p : Path) : Option Session :=
  match p with
  | .ring => s.ident.sessRing
  | .i2c => s.ident.sessI2c

/-- A path holds the authority of a command, R438, R576. -/
def State.authorised (s : State) (p : Path) (op : Nat) : Bool :=
  match cmdInfo op, s.session p with
  | some (0, _), _ => true
  | some (1, _), some x => x.owner || (match look s.ident.tenants x.slot with
      | some t => bits t.groups (op / 256) (op / 256) == 1
      | none => false)
  | some (_, _), some x => x.owner
  | _, _ => false

/-- The answer of a command that does not run: its state (R436), a restart of the security core (R439), its authority (R438). -/
def State.cmdRefusal (s : State) (p : Path) (op : Nat) : Option Nat :=
  if !s.mayRun op then some stNotReady
  else if (cmdInfo op).isNone then some stBadArg
  else if s.fw.secRestart && (op / 256 == 0x0A || op == 0x0105 || !s.authorised p op) then some stRetry
  else if !s.authorised p op then some stDenied
  else none

/-- The mark S of a command. -/
def cmdSerial (op : Nat) : Bool := match cmdInfo op with | some (_, b) => b | none => false

/-- It is a command's turn to start, R434: earlier commands of its path have started, and a command marked S starts alone. -/
def Ctl.turn (k : Ctl) (c : Cmd) : Bool :=
  let earlier := (k.inProgress.takeWhile (· != c)).filter fun d => d.hdr.path == c.hdr.path
  earlier.all (fun d => d.started && !cmdSerial d.op) && !(k.completed.any fun r => r.hdr.path == c.hdr.path && cmdSerial r.op) &&
    (!cmdSerial c.op || (earlier.isEmpty && !k.completed.any fun r => r.hdr.path == c.hdr.path))

/-- The records logged since index `n`, and the CORRECTED events opened since there were `m`, carry the command's Wall_Time (R431). -/
def State.stampWall (s : State) (n m : Nat) (w : Dword) : State :=
  { s with log := { s.log with
    ring := mapTab s.log.ring fun _ r => if n ≤ r.index then { r with wall := w } else r
    open_ := s.log.open_.mapIdx fun i r => if m ≤ i then { r with wall := w } else r } }

/-- Run a fetched command at its turn (R434 to R439): it starts, and is refused or has its effect; one whose buffer the host owned at
its fetch is answered BAD_ARG (R445). Before its turn, or while the
scheduler core restarts, nothing happens. -/
def State.command (s : State) (h : CmdHdr) (op : Nat) (body : State → State) : Host.Outcome State Fault Refusal :=
  match s.ctl.inProgress.find? fun c => c.hdr = h && c.op == op && !c.started with
  | none => .next s
  | some c =>
    if s.fw.schRestart || !s.ctl.turn c then .next s
    else
      let s1 := s.onCtl fun k => { k with inProgress := k.inProgress.replace c { c with started := true } }
      match s1.cmdRefusal h.path op with
      | some st => .next (s1.respond h op st false 0 [])
      | none => .next ((if c.hostOwned then s1.respond h op stBadArg false 0 [] else body s1).stampWall s.log.next s.log.open_.length c.wall)

/-- Answer OK with the effect applied. -/
def State.done (s : State) (h : CmdHdr) (op : Nat) (results : List Byte := []) (detail : Word := 0) : State :=
  s.respond h op stOk true detail results

/-- Answer a status with no effect. -/
def State.refuse (s : State) (h : CmdHdr) (op status : Nat) (detail : Word := 0) : State := s.respond h op status false detail []

/-- The sizes of a command's arguments in the order of R441, from its opcode and the bytes of its Args; none where the spec gives no
layout (the job parameters of FINETUNE). R441 gives some sizes; another field takes the least of 1, 2, 4 and 8 bytes that holds its range
(DESIGN CHOICE, log entry 162). The value of CONFIG counts in a write alone, and the entries of COMMIT by their Count. -/
def argSizes (op : Nat) (args : List Byte) : Option (List Nat) :=
  match op with
  | 0x0101 | 0x0103 | 0x0504 | 0x0704 | 0x0903 => some []
  | 0x0102 => some [1, 64]
  | 0x0104 => some ([1, 4] ++ if field args 0 1 = 0 then [] else [profSize (field args 4 4)])
  | 0x0105 | 0x0201 | 0x0901 | 0x0A01 | 0x0A04 | 0x0A05 | 0x0A06 | 0x0C03 => some [1, 2]
  | 0x0202 | 0x0302 | 0x0305 | 0x0506 | 0x0701 => some [2]
  | 0x0301 | 0x0304 => some [128]
  | 0x0303 => some [2, 1, 2]
  | 0x0306 => some [1, 2, 2, 1, 2]
  | 0x0307 | 0x0A02 => some [1, 1, 2]
  | 0x0401 => some [1, 1, 8, 1, 16, 1, 2]
  | 0x0402 | 0x0802 => some [1]
  | 0x0501 | 0x0508 | 0x0902 => some [64]
  | 0x0502 | 0x0503 | 0x0801 => some [8]
  | 0x0505 => some ([2, 2] ++ List.replicate (3 * field args 2 2) 4)
  | 0x0507 => some [2, 4, 2]
  | 0x0601 => some [1, 1, 1, 1, 16, 8, 8, 4]
  | 0x0602 => some [1, 2, 8, 8, 1, 2]
  | 0x0603 => some [1, 2, 2, 1]
  | 0x0604 => some [1, 1, 2, 2, 8]
  | 0x0605 => some [1, 8, 8, 1, 1]
  | 0x0702 => some [2, 1]
  | 0x0703 => some [2, 1, 1]
  | 0x0A03 => some [32, 1, 2]
  | 0x0A07 => some [1, 1, 1, 8, 4, 1, 2]
  | 0x0A08 => some [1, 8, 8, 2, 4]
  | 0x0B01 => some [4, 4, 1, 2]
  | 0x0B02 => some [1, 4, 1, 1]
  | 0x0C01 => some [1, 1, 1, 1]
  | 0x0C02 => some [4, 2, 1]
  | 0x0C04 => some [1, 2, 1, 2]
  | 0x0C05 => some [1, 1, 1]
  | _ => none

/-- The natural alignment of a field: the largest of 1, 2, 4 and 8 that divides its size. -/
def argAlign (n : Nat) : Nat := if n % 8 = 0 then 8 else if n % 4 = 0 then 4 else if n % 2 = 0 then 2 else 1

/-- The bytes of Args that no field covers are zero: fields from offset `o`, each at its natural alignment, then the rest (R431). -/
def padsZero (args : List Byte) (o : Nat) : List Nat → Bool
  | [] => (args.drop o).all (· == 0)
  | n :: l =>
    let a := (o + argAlign n - 1) / argAlign n * argAlign n
    ((args.drop o).take (a - o)).all (· == 0) && padsZero args (a + n) l

/-- The reserved fields of a command entry's header and the unused bytes of its arguments are zero (R15, R431). -/
def entryOk (entry : List Byte) : Bool :=
  let args := entry.drop 0x20
  field entry 2 2 == 0 && field entry 0x10 16 == 0 &&
    match argSizes (field entry 0 2) args with
    | some l => padsZero args 0 l
    | none => true

/-- Own of a buffer descriptor (R445). -/
def ownHost : Nat := 0x54534F48
def ownDevice : Nat := 0x0000454349564544

/-- Bytes of the I²C object buffer. -/
def Ctl.bufRead (k : Ctl) (a n : Nat) : List Byte := (List.range n).map fun i => lookD k.i2cBuf (a + i) 0
def bufWrite (t : Tab Byte) (a : Nat) : List Byte → Tab Byte
  | [] => t
  | b :: r => bufWrite (putD t a b 0) (a + 1) r

/-- Address of a buffer's descriptor in the mailbox region. -/
def descOf (b : BufRef) : Nat := if b.window = 255 then objectBuffer else bufTables + b.window * 0x10000 + 64 * b.buffer

/-- The 64 bytes of a buffer's descriptor. -/
def State.bufDesc (s : State) (p : Path) (b : BufRef) : List Byte :=
  if b.window = 255 ∧ p = .i2c then s.ctl.bufRead 0 64 else s.mem.read (descOf b) 64

/-- Where the Args of a command name its buffer: the offset of Window, and that of Buffer; both are the last two fields (R431, R441). -/
def bufArg (o : Nat) : List Nat → Nat × Nat
  | [] => (o, o)
  | [n] => let a := (o + argAlign n - 1) / argAlign n * argAlign n; (a, a)
  | n :: m :: l =>
    let a := (o + argAlign n - 1) / argAlign n * argAlign n
    let b := (a + n + argAlign m - 1) / argAlign m * argAlign m
    if l = [] then (a, b) else bufArg (a + n) (m :: l)

/-- Commands whose Args end with a buffer, R441. -/
def bufCmds : List Nat :=
  [0x0105, 0x0201, 0x0306, 0x0307, 0x0901, 0x0A01, 0x0A02, 0x0A03, 0x0A04, 0x0A05, 0x0A06, 0x0A07, 0x0B01, 0x0C03, 0x0C04]

/-- The buffer that a command names (R431, R441); none for the removal of a prefix or a group. -/
def bufNamed (op : Nat) (args : List Byte) : Option BufRef :=
  if !bufCmds.contains op || ((op == 0x0306 || op == 0x0C04) && field args 0 1 != 0) then none
  else (argSizes op args).map fun l => { window := field args (bufArg 0 l).1 1, buffer := field args (bufArg 0 l).2 2 }

/-- Another value of Own than HOST and DEVICE is counted (R445). -/
def State.countOwn (s : State) (p : Path) (b : BufRef) : State :=
  let o := field (s.bufDesc p b) 0 8
  if o = ownHost ∨ o = ownDevice then s else s.onCtl fun k => { k with ownOdd := k.ownOdd + 1 }

def State.countNamed (s : State) (p : Path) (b : Option BufRef) : State :=
  match b with
  | some b => s.countOwn p b
  | none => s

/-- A command names a buffer whose Own does not read DEVICE (R445). -/
def State.ownsNot (s : State) (p : Path) (op : Nat) (args : List Byte) : Bool :=
  match bufNamed op args with
  | some b => field (s.bufDesc p b) 0 8 != ownDevice
  | none => false

/-- A fetched command joins those in progress; one without a code of the set or with a reserved field that is not zero is answered
at once, and so is every one while the scheduler core restarts (R439). -/
def State.fetched (s : State) (p : Path) (entry : List Byte) : State :=
  let op := field entry 0 2
  let h : CmdHdr := { path := p, seq := BitVec.ofNat 32 (field entry 4 4) }
  let wall := BitVec.ofNat 64 (field entry 8 8)
  let s1 := (s.countNamed p (bufNamed op (entry.drop 0x20))).onCtl fun k => { k with
    inProgress := k.inProgress ++ [{ hdr := h, op := op, wall := wall, time := s.now, hostOwned := s.ownsNot p op (entry.drop 0x20) }]
    wallLast := if wall = 0 then k.wallLast else wall, wallTime := if wall = 0 then k.wallTime else s.now }
  if s.fw.schRestart then s1.refuse h op stRetry
  else if (cmdInfo op).isNone || !entryOk entry then s1.refuse h op (if s.mayRun op then stBadArg else stNotReady)
  else s1

/-- COMMAND_FETCH, R431, R434. -/
def execCommandFetch (s : State) : Host.Outcome State Fault Refusal :=
  let k := s.ctl
  if k.cmdHead = k.cmdTail ∨ 32 ≤ k.ringBusy ∨ k.stalled ∨ k.resetting then .next s
  else
    let e := s.mem.read (mailboxBase + 256 * (k.cmdHead % 256)) 256
    .next ((s.onCtl fun k => { k with cmdHead := (k.cmdHead + 1) % 65536 }).fetched .ring e)

/-- A response entry, R432; `count` is the number of the response in the ring. -/
def Resp.bytes (r : Resp) (count : Nat) : List Byte :=
  leBytes 2 r.op ++ leBytes 1 r.status ++ leBytes 1 (bits count 8 8 + 2 * bitOf r.effect) ++ leBytes 4 r.hdr.seq.toNat ++
    leBytes 8 r.endTime ++ leBytes 4 r.detail.toNat ++ List.replicate 12 0 ++
    (r.results.take 224 ++ List.replicate (224 - r.results.length) 0)

def rspRing : Nat := 0x050000020000

/-- RESPONSE_WRITE, R432 to R434, R440: the oldest completed command whose path has room is answered. -/
def execResponseWrite (s : State) : Host.Outcome State Fault Refusal :=
  match s.ctl.completed.find? fun r => r.hdr.path == .i2c || s.ctl.rspRoom with
  | none => .next s
  | some r =>
    let s1 := (s.onCtl fun k => { k with completed := k.completed.erase r }).alert alResponse
    match r.hdr.path with
    | .i2c => .next (s1.onCtl fun k => { k with i2cRsp := r.bytes 0, i2cGo := false, i2cDone := true })
    | .ring =>
      let n := s.ctl.rspTail
      .next ((s1.onMem fun m => m.write (rspRing + 256 * (n % 256)) (r.bytes n)).onCtl fun k =>
        { k with rspTail := (n + 1) % 65536 })

/-! ### Registers of the DCS, R427, R444 -/

/-- Version word and digest of a bundle; zero for none. -/
def versionOf : Option BundleInfo → Nat
  | some b => pack [(b.major % 65536, 48), (b.minor % 65536, 32), (b.build % 2 ^ 32, 0)]
  | none => 0
def digestOf : Option BundleInfo → Nat
  | some b => b.digest.toNat
  | none => 0

/-- The bundle in the chrysalis slot. -/
def State.stagedBundle (s : State) : Option BundleInfo := (s.fw.slot s.fw.chrysalis).bundle

/-- RING_CTL. -/
def State.ringCtl (s : State) : Nat :=
  let k := s.ctl
  pack [(bitOf k.holder.isSome, 48), (match k.holder with | some q => 0x100000 + q | none => 0, 24), (k.refused, 17),
    (bitOf k.stalled, 16), (k.ringBusy, 8), (bitOf k.resetting, 0)]

/-- A register of the window table, R444. -/
def Win.reg (w : Win) (off : Nat) : Nat :=
  if w.state = 0 then 0
  else match off with
  | 0x00 => pack [(0x100000 + w.qp, 16), (w.port, 12), (w.state, 0)]
  | 0x08 => w.va.toNat
  | 0x10 => w.len.toNat
  | _ => pack [(w.gidIndex, 32), (w.rkey.toNat, 0)]

/-- The register at an offset that is a multiple of 8, as the firmware keeps it; reserved offsets read zero (R426). -/
def State.dcsLive (s : State) (off : Nat) : Nat :=
  let k := s.ctl
  let word (d : Nat) : Nat := bits d (64 * (off / 8 % 8) + 63) (64 * (off / 8 % 8))
  let of (l : List Byte) (i : Nat) : Nat := field l i 8
  if off = 0x0000 then pack [(0x31534344, 32), (0x4752, 16), (1, 0)]
  else if off = 0x0008 then pack [(k.stepping.toNat, 8), (if s.fw.guestPop then 2 else 1, 0)]
  else if off = 0x0010 then k.serial.toNat
  else if off = 0x0018 then k.mac.toNat
  else if off = 0x0020 then versionOf s.activeBundle
  else if off = 0x0028 then versionOf s.stagedBundle
  else if 0x0040 ≤ off ∧ off < 0x0080 then word (digestOf s.activeBundle)
  else if 0x0080 ≤ off ∧ off < 0x00C0 then word (digestOf s.stagedBundle)
  else if off = 0x0100 then s.devStatus
  else if off = 0x0108 then s.now % 2 ^ 64
  else if off = 0x0110 then k.alertPending.toNat
  else if off = 0x0118 then k.alertMask.toNat
  else if off = 0x0120 then s.errLogState
  else if off = 0x0200 then mailboxBase
  else if off = 0x0208 then rspRing
  else if off = 0x0210 then k.cmdTail
  else if off = 0x0218 then k.cmdHead
  else if off = 0x0220 then k.rspTail
  else if off = 0x0228 then k.rspHead
  else if off = 0x0230 then s.ringCtl
  else if off = 0x0300 then pack [(bitOf k.i2cDone, 1), (bitOf k.i2cGo, 0)]
  else if off = 0x0308 then k.i2cPage
  else if 0x0400 ≤ off ∧ off < 0x0500 then of k.i2cCmd (off - 0x0400)
  else if 0x0500 ≤ off ∧ off < 0x0600 then of k.i2cRsp (off - 0x0500)
  else if 0x0800 ≤ off ∧ off < 0x1000 then (lookD k.windows ((off - 0x0800) / 32) ({} : Win)).reg (off % 32)
  else if 0x4000 ≤ off ∧ off < 0x9000 then
    match k.telemetry.find? fun t => decide (t.1 ≤ off) && decide (off < t.1 + t.2.length) with
    | some t => of t.2 (off - t.1)
    | none => 0
  else if 0x9000 ≤ off ∧ off < 0xA000 then
    leNat ((List.range 8).map fun i => lookD k.i2cBuf (4096 * k.i2cPage + off - 0x9000 + i) 0)
  else 0

/-- A register as a reader sees it: while the scheduler core restarts, the last image, with Sched_Restart set (R422, R439). -/
def State.dcsReg (s : State) (off : Nat) : Nat :=
  match if s.fw.schRestart then s.ctl.image else none with
  | none => s.dcsLive off
  | some i =>
    if off = 0x0100 then i.status ||| 2 ^ 21
    else if off = 0x0108 then i.hubTime
    else if off = 0x0110 then i.alerts
    else if off = 0x0118 then i.mask
    else if off = 0x0120 then i.errors
    else if 0x0800 ≤ off ∧ off < 0x1000 then (lookD i.windows ((off - 0x0800) / 32) ({} : Win)).reg (off % 32)
    else s.dcsLive off

/-! ### Writes over I²C, R424, R440, R446 -/

/-- Replace eight bytes of a list. -/
def setBytes (l : List Byte) (i v : Nat) : List Byte := l.take i ++ leBytes 8 v ++ l.drop (i + 8)

/-- Set Go: the command in I2C_CMD is fetched, one at a time (R440). -/
def State.i2cStart (s : State) : State :=
  if s.ctl.i2cGo then s else (s.onCtl fun k => { k with i2cGo := true }).fetched .i2c s.ctl.i2cCmd

/-- Write a register of the DCS with the rights of the ring holder; `i2c` also reaches the I²C slot. -/
def State.dcsWrite (s : State) (i2c : Bool) (off v : Nat) : State :=
  if off = 0x0110 then s.clearAlerts v
  else if off = 0x0118 then s.writeMask v
  else if off = 0x0210 then s.writeTail (v % 65536)
  else if off = 0x0228 then s.onCtl fun k => { k with rspHead := v % 65536 }
  else if off = 0x0230 then if v % 2 = 1 then s.ringReset i2c else s
  else if !i2c then s
  else if off = 0x0300 then
    let s1 := if bits v 1 1 = 1 then s.onCtl fun k => { k with i2cDone := false } else s
    if v % 2 = 1 then s1.i2cStart else s1
  else if off = 0x0308 then s.onCtl fun k => { k with i2cPage := v % 64 }
  else if 0x0400 ≤ off ∧ off < 0x0500 then s.onCtl fun k => { k with i2cCmd := setBytes k.i2cCmd (off - 0x0400) v }
  else if 0x0500 ≤ off ∧ off < 0x0600 then s.onCtl fun k => { k with i2cRsp := setBytes k.i2cRsp (off - 0x0500) v }
  else if 0x9000 ≤ off ∧ off < 0xA000 then
    if leNat (s.ctl.bufRead 0 8) = ownDevice then s
    else s.onCtl fun k => { k with i2cBuf := bufWrite k.i2cBuf (4096 * k.i2cPage + off - 0x9000) (leBytes 8 v) }
  else s

/-- The registers that data bytes from an offset complete: a register is written when its eighth byte arrives, all of them in the
transaction. -/
def i2cRegs : Nat → Nat → List Byte → List (Nat × Nat)
  | 0, _, _ => []
  | f + 1, off, bs =>
    if off % 8 ≠ 0 then i2cRegs f (off + (8 - off % 8)) (bs.drop (8 - off % 8))
    else if bs.length < 8 then []
    else (off % 65536, leNat (bs.take 8)) :: i2cRegs f (off + 8) (bs.drop 8)

/-- The I²C port answers a transfer to its address: 0x5C, or the one in the profile, in any state but OFF (R42, R487). -/
def State.i2cAnswers (s : State) (target : BitVec 7) : Bool :=
  s.dev != .off && target.toNat == leNat (s.profBoot 0x01000001) % 128

/-- I2C_WRITE_TRANSACTION, R424: the offset, high byte first, then data. -/
def execI2cWriteTransaction (x : I2cWrite) (s : State) : Host.Outcome State Fault Refusal :=
  if !s.i2cAnswers x.target ∨ x.bytes.length < 2 then .next s
  else
    let off := (x.bytes.getD 0 0).toNat * 256 + (x.bytes.getD 1 0).toNat
    .next ((i2cRegs x.bytes.length off (x.bytes.drop 2)).foldl (fun s r => s.dcsWrite true r.1 r.2) s)

/-- The bytes of a read, and the latch after it: a register is latched when its first byte is read. -/
def i2cBytes (reg : Nat → Nat) : Nat → Nat → List Byte → List Byte × List Byte
  | 0, _, latch => ([], latch)
  | n + 1, off, latch =>
    let l := if off % 8 = 0 then leBytes 8 (reg (off % 65536)) else latch
    let rest := i2cBytes reg n (off + 1) l
    (l.getD (off % 8) 0 :: rest.1, rest.2)

/-- I2C_READ_TRANSACTION, R424. -/
def execI2cReadTransaction (x : I2cAt) (count : Nat) (s : State) : Host.Outcome State Fault Refusal :=
  if !s.i2cAnswers x.target then .next s
  else
    let r := i2cBytes s.dcsReg count x.offset.toNat s.ctl.i2cLatch
    .next ((s.onCtl fun k => { k with i2cLatch := r.2 }).emit (.i2c r.1))

/-- I2C_GO, R440. -/
def execI2cGo (s : State) : Host.Outcome State Fault Refusal := if s.dev = .off then .next s else .next s.i2cStart

/-- ALERT_CLEAR, R427, R428. -/
def execAlertClear (mask : Dword) (s : State) : Host.Outcome State Fault Refusal := .next (s.clearAlerts mask.toNat)

/-- ALERT_MASK_WRITE, R427, R428. -/
def execAlertMaskWrite (value : Dword) (s : State) : Host.Outcome State Fault Refusal := .next (s.writeMask value.toNat)

/-- REGISTER_WRITE, R14: a write to a register of a unit, or of the DCS with the holder's rights. -/
def execRegisterWrite (u : RegUnit) (offset : Nat) (value : Dword) (s : State) : Host.Outcome State Fault Refusal :=
  match u with
  | .dcs => .next (s.dcsWrite false (offset / 8 * 8) value.toNat)
  | _ => .next (s.writeReg u offset value)

/-! ### The telemetry mirror, R429, R430 -/

/-- Throttle code of a clock setting; the spec gives none for a clock that is stopped, which reads as a free value. -/
def clkCode (free : Nat) : Clk → Nat
  | .full => 0
  | .div 2 => 1
  | .div 4 => 2
  | .div 8 => 3
  | .div _ => 4
  | .skip n => 0x10 + n
  | .stopped => (Config.freeByte free).toNat

/-- State of a cluster in telemetry. -/
def Cluster.telState (k : Cluster) : Nat :=
  if k.fenced then 2 else if k.dom = .off then 3 else if k.inReset then 1 else 0

/-- A temperature in a field of two bytes. -/
def tempBytes (t : Int) : List Byte := leBytes 2 (ofInt 16 t)

/-- The 16 bytes of a cluster domain. -/
def State.telCluster (s : State) (cd : Nat) : List Byte :=
  let k := s.cluster cd
  let sl := (List.range 64).map fun i => s.slice (64 * cd + i)
  leBytes 1 k.telState ++ leBytes 1 (clkCode s.free k.clk) ++
    leBytes 1 ((List.range 6).filter fun i => k.phases.getLsbD i).length ++
    leBytes 1 (bitOf k.domPending + 2 * bitOf k.gatePending) ++
    tempBytes (maxReading ((zoneChans (zoneOf cd)).map s.heat.used)) ++
    leBytes 2 (sl.foldl (fun a x => min a x.pagesUsable) 192) ++
    leBytes 4 (sl.foldl (fun a x => satAdd 32 a x.uncorrectable) 0) ++ leBytes 4 (sl.foldl (fun a x => max a (x.oldestAge s.now)) 0)

/-- The 32 bytes of a model. -/
def State.telModel (s : State) (i : Nat) : List Byte :=
  match look s.svc.models i with
  | none => List.replicate 32 0
  | some m =>
    let fresh (t : Nat) : Bool := decide (s.now < t + 1000000000)
    let n := (m.passTimes.filter fresh).length
    let mean := if n = 0 then 0 else (m.served.filter fresh).length * 256 / n
    let st := match m.state with | .loading => 1 | .ready => 2 | .loadFailed => 3 | .removing => 4
    let open_ := s.svc.requests.filter fun r => !r.ended && r.rec_.model == i
    leBytes 1 st ++ leBytes 1 m.cls ++ leBytes 2 (min 65535 mean) ++ leBytes 2 (min 65535 (mean * 65535 / 8192)) ++ leBytes 2 0 ++
      leBytes 8 m.passesRun ++ leBytes 4 (open_.filter fun r => !r.inPass).length ++ leBytes 4 open_.length ++ leBytes 8 m.tokensOut

/-- The 8 bytes of a stack; the spec gives the module no reading of a stack's power, which is a free value. -/
def State.telStack (s : State) (n : Nat) : List Byte :=
  let t := s.heat.stackTemps n
  let clk := slowest ((List.range 128).map fun i => (s.cluster (128 * n + i)).clk)
  let step := (List.range 16).foldl (fun a i => max a (lookD s.heat.steps (16 * n + i) {}).refresh) 0
  tempBytes t.1 ++ tempBytes t.2 ++ leBytes 2 (Config.freeNat (s.free + 1 + n)) ++ leBytes 1 (clkCode s.free clk) ++ leBytes 1 step

/-- The section of the module. -/
def State.telModule (s : State) : List Byte :=
  let p := s.pwr
  leBytes 4 (p.mean10 * 1000) ++ leBytes 2 p.feedA.mv ++ leBytes 2 p.feedB.mv ++ tempBytes (s.heat.used inletChan) ++
    tempBytes (s.heat.used outletChan) ++ leBytes 2 (min 65535 s.heat.tach) ++ leBytes 2 p.capW ++
    (List.range 4).flatMap s.telStack ++ (List.range 12).flatMap (fun m => tempBytes (s.heat.packageReading m))

/-- The section of the service. -/
def State.telService (s : State) : List Byte :=
  let v := s.svc
  leBytes 8 v.dropped ++ leBytes 8 v.emptyRows ++ leBytes 8 v.nanLogits ++ leBytes 4 v.creditsIgnored ++
    leBytes 4 (v.contexts.filter fun c => c.2.open_).length ++ leBytes 1 v.passes.length ++ leBytes 1 s.tokenising ++ leBytes 2 0 ++
    leBytes 4 (v.requests.filter fun r => r.waitingTok && !r.ended).length

/-- Registers of a block, padded to 64 bytes. -/
def regs64 (n : Nat) (f : Nat → Nat) : List Byte :=
  (List.range n).flatMap (fun i => leBytes 8 (f (8 * i))) ++ List.replicate (64 - 8 * n) 0

/-- The sections of the mirror. -/
def State.telSections (s : State) (gen : Nat) : List (Nat × List Byte) :=
  [(0x4000, leBytes 8 (gen % 2 ^ 32) ++ leBytes 8 s.now),
   (0x4040, s.telModule),
   (0x4200, (List.range 12).flatMap fun m => regs64 6 (s.outerReg m)),
   (0x4500, (List.range 8).flatMap fun l => regs64 5 (s.linkReg l)),
   (0x4700, (List.range 4).flatMap fun p => regs64 7 (s.portReg p)),
   (0x4800, s.telService ++ List.replicate 24 0),
   (0x5000, (List.range 256).flatMap s.telModel),
   (0x7000, (List.range 512).flatMap s.telCluster)]

/-- The firmware that rewrites the mirror runs: from TRAINING on, and not while the scheduler core restarts (R439). -/
def State.fwRuns (s : State) : Bool :=
  !s.fw.schRestart && !s.fw.stopped && (match s.dev with
    | .off | .powering | .rom | .saving | .tripped => false
    | _ => true)

/-- TELEMETRY_REWRITE, R429: TEL_GEN is odd while the sections are written and even after. -/
def execTelemetryRewrite (s : State) : Host.Outcome State Fault Refusal :=
  if !s.fwRuns then .next s
  else
    let g := s.ctl.telGen + 2
    .next { s with
      free := s.free + 5
      ctl := { s.ctl with telGen := g % 2 ^ 32, telTime := s.now, telemetry := s.telSections g } }

/-! ### Connections that the device ends, R412 -/

/-- The messages of R412 by the attribute numbers of the Communication Manager, and a REJ with its reason above bit 8 (PRESUMED, log
entry 25). -/
def cmReq : Nat := 0x10
def cmRep : Nat := 0x13
def cmRtu : Nat := 0x14
def cmDreq : Nat := 0x15
def cmDrep : Nat := 0x16
def cmRej (reason : Nat) : Nat := 0x12 + 256 * reason
def rejNoQp : Nat := 1
def rejResources : Nat := 3
def rejTimeout : Nat := 4
def rejService : Nat := 8
def rejTransport : Nat := 9
def rejConsumer : Nat := 28

/-- The device ends a connection: DREQ is sent and the queue pair leaves service until the DREP. -/
def State.closeQp (s : State) (q : Nat) : State :=
  match look s.net.qps q with
  | none => s
  | some x =>
    let freed := x.reads.foldl (fun n r => n + r.len) 0
    ((s.modQp q fun x => { x with state := .reset, outstanding := [], reads := [], held := [] }).modPort x.port fun p => { p with
      readBytes := p.readBytes - freed, readWait := p.readWait.filter (·.1 != q) }).emit (.cm x.port (some q) cmDreq)

/-! ### Buffers, R445 to R447 -/

/-- The capacity of a buffer. -/
def State.bufLen (s : State) (p : Path) (b : BufRef) : Nat := field (s.bufDesc p b) 0x10 8

/-- What forbids the use of a buffer in a direction (0 host to device, 1 device to host): BAD_ARG for one the host owns, one that
leaves its window or has another direction, NOT_READY for one whose window is not up. -/
def State.bufRefusal (s : State) (p : Path) (b : BufRef) (dir : Nat) : Option Nat :=
  let d := s.bufDesc p b
  let len := field d 0x10 8
  let bad := field d 0 8 != ownDevice || field d 0x18 4 != dir || len == 0 || decide (2 ^ 31 < len)
  if b.window = 255 then
    if b.buffer ≠ 0 ∨ bad ∨ field d 8 8 ≠ 0 ∨ 262080 < len then some stBadArg else none
  else if 64 ≤ b.window ∨ 1024 ≤ b.buffer then some stBadArg
  else match s.ctl.upWindow b.window with
  | none => some stNotReady
  | some w => if bad ∨ w.len.toNat < field d 8 8 + len then some stBadArg else none

/-- The data of a host-to-device buffer: bytes of the object buffer, or what the RDMA READ of the host window brought. -/
def State.bufIn (s : State) (p : Path) (b : BufRef) : List Byte :=
  let n := s.bufLen p b
  if b.window ≠ 255 then b.data.take n
  else if p = .i2c then s.ctl.bufRead 64 n else s.mem.read (objectBuffer + 64) n

/-- Hand a buffer back, R447: Done_Bytes and Status, then Own. -/
def State.handBack (s : State) (p : Path) (b : BufRef) (done status : Nat) : State :=
  let tail := leBytes 4 done ++ leBytes 1 status
  if b.window = 255 ∧ p = .i2c then
    s.onCtl fun k => { k with i2cBuf := bufWrite (bufWrite k.i2cBuf 0x1C tail) 0 (leBytes 8 ownHost) }
  else s.onMem fun m => (m.write (descOf b + 0x1C) tail).write (descOf b) (leBytes 8 ownHost)

/-- A command that reads a buffer: its refusals, then `go` with the bytes; the buffer is handed back with the status that `go`
answers by. -/
def State.withBuf (s : State) (h : CmdHdr) (op : Nat) (b : BufRef) (go : List Byte → State → State × Nat × Word × List Byte) :
    State :=
  match s.bufRefusal h.path b 0 with
  | some st => s.refuse h op st
  | none =>
    let bs := s.bufIn h.path b
    let (s1, st, detail, res) := go bs s
    (s1.handBack h.path b bs.length st).respond h op st (st == stOk) detail res

/-- A command that writes `bs` into a buffer: at once for an object buffer, by RDMA WRITE and its acknowledgement for a host window
(R447). A buffer too short answers BAD_ARG with the bytes needed in Detail (R579). -/
def State.outBuf (s : State) (h : CmdHdr) (op : Nat) (b : BufRef) (bs : List Byte) (detail : Word) (results : List Byte) : State :=
  match s.bufRefusal h.path b 1 with
  | some st => s.refuse h op st
  | none =>
    if s.bufLen h.path b < bs.length then
      (s.handBack h.path b 0 stBadArg).refuse h op stBadArg (BitVec.ofNat 32 bs.length)
    else if b.window = 255 then
      let s1 := if h.path = .i2c then s.onCtl fun k => { k with i2cBuf := bufWrite k.i2cBuf 64 bs }
        else s.onMem fun m => m.write (objectBuffer + 64) bs
      (s1.handBack h.path b bs.length stOk).respond h op stOk true detail results
    else match s.ctl.upWindow b.window with
    | none => s.refuse h op stNotReady
    | some w =>
      let va := w.va.toNat + field (s.bufDesc h.path b) 8 8
      (s.sendWrite w.qp { work := .mailbox, va := va, data := bs }).onCtl fun k => { k with
        backs := k.backs ++ [{ qp := w.qp, hdr := h, op := op, window := b.window, buffer := b.buffer, done := bs.length,
                               status := stOk, effect := true, detail := detail, results := results }] }

/-- A window is closed: CLOSED, its commands ended (R448), its queue pair ended by DREQ. -/
def State.closeWindow (s : State) (w : Nat) : State :=
  let x := lookD s.ctl.windows w {}
  let s1 := s.windowDown w 0
  let s2 := s1.onCtl fun k => { k with windows := del k.windows w }
  match look s2.net.qps x.qp with
  | some q => if q.kind = .window w then s2.closeQp x.qp else s2
  | none => s2

/-- The acknowledgement of the oldest mailbox write of a queue pair hands its buffer back and answers its command. -/
def State.backDone (s : State) (qp : Nat) : State :=
  match s.ctl.backs.find? (·.qp == qp) with
  | none => s
  | some k =>
    let b : BufRef := { window := k.window, buffer := k.buffer }
    let s1 := (((s.onCtl fun c => { c with backs := c.backs.erase k }).handBack k.hdr.path b k.done k.status)).respond k.hdr k.op
      k.status k.effect k.detail k.results
    if k.closes then s1.closeWindow k.window else s1

end Sys2Proof.Machine
end

