-- ==== Sys2Proof/Machine/Rdma.lean ====
section
/-!
DEFINITION. Queue pairs and RDMA (chapter 11): inbound SEND, WRITE and READ with regions and holds (R411 to R415), the management
region (R423), what the device sends (R408 to R410, R419), congestion (R416, R417), and connection management (R412).
-/

namespace Sys2Proof.Machine

/-! ### Negative acknowledgements -/

/-- The model's numbers of the NAKs of R408, R411, R413 and R415: RoCE's syndrome values, and 0x20 for an RNR NAK (PRESUMED, log
entry 25). -/
def nakInvalid : Nat := 1
def nakAccess : Nat := 2
def nakOperational : Nat := 3
def nakRnr : Nat := 0x20

/-- Answer with a NAK that puts the queue pair into ERROR. -/
def State.nakError (s : State) (q code : Nat) : State := (s.emit (.rdmaNak q code)).qpError q

/-! ### The headers of sent packets, R400, R408, R409 -/

/-- What every packet of a queue pair carries beside its payload. -/
structure RoceHdr where
  srcPort : Nat
  dstPort : Nat
  pkey : Nat
  ttl : Nat                -- TTL, or the hop limit of IPv6
  dontFragment : Bool
  flowLabel : Nat
  ecn : Nat
  tag : Option (Nat × Nat)
  dscp : Nat
  deriving DecidableEq, Repr

/-- The number of queue-pair index i, R409. -/
def qpnOf (i : Nat) : Nat := 0x100000 + i

/-- The header of a data packet of queue pair i: the source port keeps the packets of a queue pair on one network path; IPv4 has DF set
and no flow label, IPv6 (GID 0 and 2) the flow label QPN[19:0]. ECN is ECT(0). -/
def State.roceHdr (s : State) (i : Nat) (x : Qp) : RoceHdr :=
  let k := s.portSt x.port
  let v6 := x.gidIndex != 1
  { srcPort := 0xC000 + (bits (qpnOf i) 13 0 ^^^ bits (qpnOf i) 23 14), dstPort := 4791, pkey := 0xFFFF, ttl := 64,
    dontFragment := !v6, flowLabel := if v6 then qpnOf i % 2 ^ 20 else 0, ecn := 2, tag := k.sentTag k.pcpData, dscp := k.dscpData }

/-! ### Regions, R413 -/

/-- The region that a key names for a queue pair, when the key, the domain, the range and the right hold. -/
def State.regionOk (s : State) (x : Qp) (rkey : Word) (va len : Nat) (write : Bool) : Bool :=
  let k := rkey.toNat
  let r := lookD s.net.regions (bits k 19 8) {}
  k / 2 ^ 20 == 0 && bits k 19 8 != 0 && r.registered && r.tag == k % 256 && r.domain == x.domain &&
    decide (r.base ≤ va) && decide (va + len ≤ r.base + r.len) && (if write then r.wr else r.rd)

/-- The key of region 0. -/
def mgmtKey : Word := 0x4D#32

/-- A queue pair's protection domain holds a region: RDMA WRITE and READ are supported on it (R408). -/
def State.domainHolds (s : State) (x : Qp) : Bool :=
  x.domain == 255 || s.net.regions.any fun r => r.2.registered && r.2.domain == x.domain

/-! ### The management region, R423, R425, R447 -/

/-- Parts of region 0: first offset, end, and what they hold. -/
inductive Part where
  | dcs | slot | cmdRing | rspRing | object | tables
  deriving DecidableEq

def mgmtParts : List (Nat × Nat × Part) :=
  [(0x0000, 0x0300, .dcs), (0x0300, 0x0600, .slot), (0x0600, 0x9000, .dcs), (0xA000, 0x10000, .dcs), (0x10000, 0x20000, .cmdRing),
   (0x20000, 0x30000, .rspRing), (0x30000, 0x70000, .object), (0x100000, 0x500000, .tables)]

/-- The parts that a range meets, each with the piece of the range in it. -/
def piecesOf (off n : Nat) : List (Part × Nat × Nat) :=
  mgmtParts.filterMap fun p =>
    let lo := max off p.1
    let hi := min (off + n) p.2.1
    if lo < hi then some (p.2.2, lo, hi - lo) else none

/-- An access lies in the parts that answer, and is aligned to 8 bytes in the DCS. -/
def mgmtReach (off n : Nat) : Bool :=
  let ps := piecesOf off n
  decide (ps.foldl (fun a p => a + p.2.2) 0 = n) &&
    ps.all fun p => (p.1 != .dcs && p.1 != .slot) || (off % 8 == 0 && n % 8 == 0)

/-- Registers of the DCS with fields that can be written. -/
def dcsWritable (off : Nat) : Bool := [0x0110, 0x0118, 0x0210, 0x0228, 0x0230].contains off

/-- Write the registers of a piece of the DCS in rising offset order; CMD_TAIL without a holder makes this queue pair the holder. -/
def State.dcsWrites (s : State) (q : Nat) : Nat → Nat → List Byte → State
  | 0, _, _ => s
  | f + 1, off, bs =>
    if bs.length < 8 then s
    else
      let s0 := if off = 0x0210 ∧ s.ctl.holder.isNone then s.onCtl fun k => { k with holder := some q } else s
      let s1 := if s0.ctl.holder = some q then s0.dcsWrite false off (leNat (bs.take 8))
        else if dcsWritable off then s0.refuseWrite else s0
      s1.dcsWrites q f (off + 8) (bs.drop 8)

/-- Write bytes whose descriptor the device does not own. -/
def writeOwned (own : Nat → Bool) (m : Mem) (a : Nat) : List Byte → Mem
  | [] => m
  | b :: t => writeOwned own (if own a then m else m.setByte a b) (a + 1) t

/-- Write one piece of region 0. -/
def State.mgmtPiece (s : State) (q : Nat) (p : Part) (off : Nat) (bs : List Byte) : State :=
  let a := dcsBase + off
  let held := s.ctl.holder == some q
  let device (d : Nat) : Bool := leNat (s.mem.read d 8) == ownDevice
  match p with
  | .dcs => s.dcsWrites q bs.length off bs
  | .slot | .rspRing => s.refuseWrite
  | .cmdRing => if held then s.onMem fun m => m.write a bs else s.refuseWrite
  | .object => if held && !device objectBuffer then s.onMem fun m => m.write a bs else s.refuseWrite
  | .tables =>
    if !held then s.refuseWrite
    else
      let kept (x : Nat) : Bool := device (x / 64 * 64)
      let s1 := s.onMem fun m => writeOwned kept m a bs
      if (List.range bs.length).any fun i => kept (a + i) then s1.refuseWrite else s1

/-- Bytes of region 0. -/
def State.mgmtByte (s : State) (off : Nat) : Byte :=
  if off < 0x10000 then BitVec.ofNat 8 (s.dcsReg (off / 8 * 8) / 256 ^ (off % 8)) else s.mem.byte (dcsBase + off)

/-! ### Inbound requests, R411, R413 to R415 -/

/-- Packets of a READ response before the codeword at index `i` of the data. -/
def beforePoison (mtu a i : Nat) : Nat := (unitBase (a + i) - a) / max 1 mtu * mtu

/-- A record arrives, R411, R480: a receive buffer and a word of the set's channel, or an RNR NAK. -/
def State.inboundSend (s : State) (q set len : Nat) (port : Nat) : State :=
  let c := s.channel inboxEp set
  if 65536 < len ∨ len = 0 then s.nakError q nakInvalid
  else if s.fw.schRestart ∨ s.net.rxFree = 0 ∨ c.depth ≤ c.words.length + 1 then
    (s.modPort port fun p => { p with rnrNakTx := satAdd 16 p.rnrNakTx 1 }).emit (.rdmaNak q nakRnr)
  else
    let w : CWord := { kind := .endK, data := leBytes 4 q ++ leBytes 28 0, poison := false }
    (((s.onNet fun n => { n with rxFree := n.rxFree - 1 }).onChannel inboxEp set fun c =>
      ({ c with words := c.words ++ [w] } : Channel).marks)).emit (.rdmaAck q)

/-- The message sizes of R408: 1 byte to 2 GiB. -/
def sizeOk (len : Nat) : Bool := decide (1 ≤ len) && decide (len ≤ 2 ^ 31)

/-- Serve one inbound request: served, or answered BUSY, RETRY or TARGET_RESETTING, with the status. -/
def State.serveInbound (s : State) (q : Nat) (x : Qp) (r : Held) : State ⊕ Nat :=
  if r.op = 2 then
    match x.kind with
    | .service i => .inl (s.inboundSend q i r.len x.port)
    | _ => .inl (s.nakError q nakInvalid)
  else if !s.domainHolds x || !sizeOk r.len then .inl (s.nakError q nakInvalid)
  else if bits r.rkey.toNat 19 8 = 0 then
    let off := r.va - dcsBase
    if r.rkey ≠ mgmtKey ∨ x.kind ≠ .mgmt ∨ r.va < dcsBase ∨ !mgmtReach off r.len then .inl (s.nakError q nakAccess)
    else if r.op = 1 then
      .inl (((piecesOf off r.len).foldl (fun s p => s.mgmtPiece q p.1 p.2.1 ((r.data.drop (p.2.1 - off)).take p.2.2)) s).emit
        (.rdmaAck q))
    else if (piecesOf off r.len).any fun p => p.1 == .object && s.ctl.holder != some q then .inl (s.nakError q nakAccess)
    else .inl (s.emit (.rdmaData q ((List.range r.len).map fun i => s.mgmtByte (off + i))))
  else if x.kind = .mgmt ∨ !s.regionOk x r.rkey r.va r.len (r.op == 1) then .inl (s.nakError q nakAccess)
  else
    let ans := s.answer (.rdma q) r.va r.len (r.op == 1)
    let s1 := s.countBusy r.va ans
    match ans with
    | .fault => .inl (s1.nakError q nakAccess)
    | .status st => if st = stBadArg then .inl (s1.nakError q nakAccess) else .inr st
    | .go =>
      if r.op = 1 then .inl ((s.writeRange r.va r.data (List.replicate r.data.length false)).emit (.rdmaAck q))
      else
        let (s2, bs, ps) := s.readRange r.va r.len
        match ps.findIdx? id with
        | none => .inl (s2.emit (.rdmaData q bs))
        | some i =>
          let sent := bs.take (beforePoison x.mtu r.va i)
          let s3 := if sent.isEmpty then s2 else s2.emit (.rdmaData q sent)
          .inl ((s3.logEvent .rdmaPoisonRead { ut := utQp, ui := 0x100000 + q, address := unitBase (r.va + i) }).nakError q
            nakOperational)

/-- Serve the requests of a queue pair in order; one that is answered BUSY, RETRY or TARGET_RESETTING holds those behind it. -/
def State.serveHeld : Nat → State → Nat → State
  | 0, s, _ => s
  | f + 1, s, q =>
    match look s.net.qps q with
    | none => s
    | some x =>
      match x.held with
      | [] => s
      | r :: rest =>
        match s.serveInbound q x r with
        | .inl s1 => State.serveHeld f (s1.modQp q fun x => { x with held := if x.state = .error then [] else rest }) q
        | .inr st => s.modQp q fun x => { x with held := { r with resetting := st == stResetting } :: rest }

/-- An inbound request arrives on a queue pair that receives. A READ beyond the 16 outstanding ones of R408 is not supported. -/
def State.inbound (s : State) (q : Nat) (r : Held) : State :=
  match look s.net.qps q with
  | none => s
  | some x =>
    if x.state ≠ .rts ∧ x.state ≠ .rtr then s
    else if r.op = 0 ∧ 16 ≤ (x.held.filter fun h => h.op == 0).length then s.nakError q nakInvalid
    else
      let s1 := s.modQp q fun x => { x with held := x.held ++ [r] }
      if x.held.isEmpty then State.serveHeld 1 s1 q else s1

/-- SEND, R307, R411. -/
def execSend (qp length : Nat) (s : State) : Host.Outcome State Fault Refusal := .next (s.inbound qp { op := 2, len := length })

/-- RDMA_WRITE, R413 to R415, R423. -/
def execRdmaWrite (qp : Nat) (rkey : Word) (va : Nat) (data : List Byte) (s : State) : Host.Outcome State Fault Refusal :=
  .next (s.inbound qp { op := 1, rkey := rkey, va := va, len := data.length, data := data })

/-- RDMA_READ, R413 to R415, R423. -/
def execRdmaRead (qp : Nat) (rkey : Word) (va len : Nat) (s : State) : Host.Outcome State Fault Refusal :=
  .next (s.inbound qp { op := 0, rkey := rkey, va := va, len := len })

/-- HELD_REQUEST_RETRY, R415: the held access is repeated, and on success those behind it follow. -/
def execHeldRequestRetry (qp : Nat) (s : State) : Host.Outcome State Fault Refusal :=
  match look s.net.qps qp with
  | none => .next s
  | some x => .next (State.serveHeld x.held.length s qp)

/-- HOLD_LIMIT_EXPIRY, R415: a request has been held for Hold_Limit. -/
def execHoldLimitExpiry (qp : Nat) (s : State) : Host.Outcome State Fault Refusal :=
  match look s.net.qps qp with
  | none => .next s
  | some x => if x.held.isEmpty then .next s else .next (s.nakError qp nakOperational)

/-! ### What the device sends, R408, R410, R418, R419 -/

/-- The first read that waits on a port is sent when the limits of R408 and R419 leave room. -/
def State.nextRead (s : State) (port : Nat) : State :=
  match (s.portSt port).readWait with
  | [] => s
  | (q, r) :: rest => (s.modPort port fun p => { p with readWait := rest }).issueRead q r

/-- RDMA_READ_RESPONSE, R418, R419: the oldest read of the queue pair is answered; its row lands in the scratchpad, and the
instruction moves on. Host data carries no instar and no poison (R7). -/
def execRdmaReadResponse (qp : Nat) (data : List Byte) (s : State) : Host.Outcome State Fault Refusal :=
  match look s.net.qps qp with
  | none => .next s
  | some x =>
    match x.reads with
    | [] => .next s
    | r :: rest =>
      let s1 := (s.modQp qp fun x => { x with reads := rest, timeouts := 0 }).modPort x.port fun p =>
        { p with readBytes := p.readBytes - r.len }
      let s2 := s1.nextRead x.port
      if ((s2.core r.core).item? r.engine r.seq).isNone then .next s2
      else
        let bs := data.take r.len
        match r.entry with
        | some n => .next ((s2.gotEntry r.core r.engine r.seq n bs false none).completed r.core)
        | none =>
          let s3 := s2.spStore r.core r.dest bs (List.replicate bs.length false)
          .next ((s3.continueItem r.core r.engine r.seq).completed r.core)

/-- A WRITE of the device is acknowledged. -/
def State.writeAcked (s : State) (qp : Nat) (w : OutWrite) : State :=
  match w.work with
  | .mailbox => s.backDone qp
  | .stream _ _ _ => s
  | .store c e seq =>
    let more := s.net.qps.any fun x => x.2.outstanding.any fun o => o.work == .store c e seq
    let moved := match (s.core c).item? e seq with
      | some q => decide (q.row = q.plan.length)
      | none => false
    if more || !moved then s else (s.modItem c e seq fun q => { q with status := .done }).completed c

/-- RDMA_ACKNOWLEDGEMENT, R410, R447: of the oldest WRITE that the device has outstanding on the queue pair. -/
def execRdmaAcknowledgement (qp : Nat) (ok : Bool) (s : State) : Host.Outcome State Fault Refusal :=
  match look s.net.qps qp with
  | none => .next s
  | some x =>
    match x.outstanding with
    | [] => .next s
    | w :: rest =>
      if !ok then .next (s.qpError qp)
      else .next ((s.modQp qp fun x => { x with outstanding := rest, timeouts := 0 }).writeAcked qp w)

/-- Retries of a queue-pair kind, R410; MGMT queue pairs send no request of their own. -/
def retryCount : QKind → Nat
  | .window _ => 3
  | _ => 7

/-- ACK_TIMEOUT, R410: the outstanding requests are sent again, or the retries are spent. -/
def execAckTimeout (qp : Nat) (s : State) : Host.Outcome State Fault Refusal :=
  match look s.net.qps qp with
  | none => .next s
  | some x =>
    if x.state ≠ .rts ∨ (x.outstanding.isEmpty && x.reads.isEmpty) then .next s
    else if retryCount x.kind ≤ x.timeouts then .next (s.qpError qp)
    else
      let s1 := s.modQp qp fun x => { x with timeouts := x.timeouts + 1 }
      let s2 := x.outstanding.foldl (fun s w => s.emit (.rdmaWrite qp w.va w.imm w.data)) s1
      .next (x.reads.foldl (fun s r => s.emit (.rdmaRead qp r.va r.len)) s2)

/-! ### Congestion, R416, R417 -/

/-- Rates are kept in 1/1024 Gbit/s, a unit the spec does not give (DESIGN CHOICE, log entry 26). -/
def rateUnit : Nat := 1024

/-- Line rate of a port's mode, R396. -/
def PortSt.line (k : PortSt) : Nat := (if k.mode = 1 then 400 else 200) * rateUnit

/-- A field of RCL_CFG for which 0 acts as 1. -/
def atLeast1 (n : Nat) : Nat := max 1 n

/-- The cut shift: values but 1 to 4 act as 2. -/
def PortSt.cutShift (k : PortSt) : Nat := if 1 ≤ k.rclCut ∧ k.rclCut ≤ 4 then k.rclCut else 2

/-- CNP_SEND, R416: a packet with ECN CE has come; at most one CNP per queue pair every 50 µs. -/
def execCnpSend (qp : Nat) (s : State) : Host.Outcome State Fault Refusal :=
  match look s.net.qps qp with
  | none => .next s
  | some x =>
    let due := match x.lastCnp with | some t => decide (t + 50000 ≤ s.now) | none => true
    if !due then .next s
    else .next (((s.modQp qp fun x => { x with lastCnp := some s.now }).modPort x.port fun p =>
      { p with cnpTx := satAdd 16 p.cnpTx 1 }).sendFrame x.port frCnp)

/-- CNP, R417: the rate is cut, at most once every 50 µs. -/
def execCnp (qp : Nat) (s : State) : Host.Outcome State Fault Refusal :=
  match look s.net.qps qp with
  | none => .next s
  | some x =>
    let k := s.portSt x.port
    let s1 := s.modPort x.port fun p => { p with cnpRx := satAdd 16 p.cnpRx 1 }
    if s.now < x.lastCut + 50000 then .next s1
    else .next (s1.modQp qp fun x => { x with
      rate := max (atLeast1 k.rclMin * rateUnit) (x.rate - x.rate / 2 ^ k.cutShift), lastCut := s.now })

/-- RATE_RECOVERY_STEP, R417. -/
def execRateRecoveryStep (qp : Nat) (s : State) : Host.Outcome State Fault Refusal :=
  match look s.net.qps qp with
  | none => .next s
  | some x =>
    let k := s.portSt x.port
    if k.line ≤ x.rate ∨ s.now < x.lastCut + atLeast1 k.rclHold * 10000 then .next s
    else .next (s.modQp qp fun x => { x with
      rate := min k.line (x.rate + k.rclAdd * rateUnit + (k.line - x.rate) / 2 ^ k.rclRec) })

/-! ### Connection management, R412 -/

/-- Service_Id of the management connection. -/
def mgmtService : Dword := 0x4E430001#64

/-- The first `len` bits of two addresses agree. -/
def prefixMatch (a b : BitVec 128) (len : Nat) : Bool := a.toNat / 2 ^ (128 - len) == b.toNat / 2 ^ (128 - len)

/-- A source is in the management access list; an empty list admits every source (R487). -/
def State.mgmtAdmits (s : State) (src : BitVec 128) : Bool :=
  let v := s.profNow 0x81000008
  let used := (List.range 8).filter fun i => !zeroAt v (17 * i) (17 * i + 17)
  used.isEmpty || used.any fun i => prefixMatch (BitVec.ofNat 128 (beField v (17 * i) 16)) src (field v (17 * i + 16) 1)

/-- GID `i` of a port is usable, R404, R405. -/
def PortSt.gidOk (k : PortSt) (i : Nat) : Bool :=
  match i with
  | 0 => k.linkLocalOk
  | 1 => k.ipv4State == .ok
  | 2 => k.ipv6State == .ok
  | _ => false

/-- A queue-pair index that is free, not resting (R412), and named by no open request. -/
def State.freeQp (s : State) : Option Nat :=
  (List.range 16384).find? fun i =>
    (look s.net.qps i).isNone && !(s.net.resting.any fun r => r.1 == i && decide (s.now < r.2 + 100000000)) &&
      !s.svc.requests.any fun r => r.qp == i

/-- Path_Mtu_Max in bytes: 3 acts as 2 (R421). -/
def PortSt.mtuMax (k : PortSt) : Nat := match k.pathMtuMax with | 0 => 1024 | 1 => 2048 | _ => 4096

/-- The service set of a Service_Id on a port. -/
def State.setFor (s : State) (port : Nat) (id : Dword) : Option (Nat × SvcSet) :=
  s.svc.sets.find? fun x => x.2.service == id && x.2.port == port

/-- The source of a REQ is permitted: by the management access list, or within the prefix of the set (R412). -/
def State.sourceOk (s : State) (m : CmReq) (set : Option (Nat × SvcSet)) : Bool :=
  if m.service = mgmtService then s.mgmtAdmits m.srcGid
  else match set with
  | none => false
  | some x => prefixMatch x.2.pfx m.srcGid x.2.pfxLen

/-- The reason for which a REQ is refused, in the order of the list of R412 (log entry 90), or the kind of the queue pair that it
gets. -/
def State.judgeReq (s : State) (p : Nat) (m : CmReq) : Nat ⊕ QKind :=
  let k := s.portSt p
  let set : Option (Nat × SvcSet) := if m.service = mgmtService then none else s.setFor p m.service
  let full : Bool := match set with
    | some x => decide (x.2.qpMax ≤ (s.net.qps.filter fun (q : Nat × Qp) => q.2.kind == .service x.1).length)
    | none => false
  if m.service ≠ mgmtService ∧ set.isNone then .inl rejService
  else if !s.sourceOk m set then .inl rejConsumer
  else if !m.rc then .inl rejTransport
  else if m.mtu < 1024 ∨ !k.gidOk m.gidIndex then .inl rejConsumer
  else if full then .inl rejNoQp
  else if 256 ≤ (s.net.qps.filter fun (x : Nat × Qp) => x.2.port == p && x.2.state == .rtr).length then .inl rejResources
  else match set with
    | none => .inr .mgmt
    | some x => .inr (.service x.1)

/-- The protection domain of a new queue pair: 255 for MGMT; for the other kinds the spec does not say how it is given, and it is a
free value below 255 (log entry 27). -/
def newDomain (free : Nat) (kind : QKind) : Nat := if kind = .mgmt then 255 else Config.freeNat free % 255

/-- REQ, R412. -/
def execReq (p : Nat) (m : CmReq) (s : State) : Host.Outcome State Fault Refusal :=
  let k := s.portSt p
  if k.state ≠ .up then .next s
  else match s.judgeReq p m with
  | .inl reason => .next (s.emit (.cm p none (cmRej reason)))
  | .inr kind =>
    match s.freeQp with
    | none => .next (s.emit (.cm p none (cmRej rejNoQp)))
    | some i =>
      let x : Qp := { kind := kind, port := p, gidIndex := m.gidIndex, state := .rtr, domain := newDomain s.free kind
                      mtu := min m.mtu k.mtuMax, remoteQpn := m.remoteQpn, remoteGid := m.srcGid, rate := k.line }
      .next ((s.draw.onNet fun n => { n with qps := put n.qps i x }).emit (.cm p (some i) cmRep))

/-- Free a queue pair, whose index rests for 100 ms. -/
def State.freeQpIndex (s : State) (q : Nat) : State := s.onNet fun n => { n with
  qps := del n.qps q, resting := (n.resting.filter fun r => decide (s.now < r.2 + 100000000)) ++ [(q, s.now)] }

/-- RTU, R412: the connection is set up. -/
def execRtu (qp : Nat) (s : State) : Host.Outcome State Fault Refusal :=
  .next (s.modQp qp fun x => if x.state = .rtr then { x with state := .rts } else x)

/-- RTU_TIMEOUT, R412: the REP is sent again at most 3 times, then the connection is rejected. -/
def execRtuTimeout (qp : Nat) (s : State) : Host.Outcome State Fault Refusal :=
  match look s.net.qps qp with
  | none => .next s
  | some x =>
    if x.state ≠ .rtr then .next s
    else if x.rtuTries < 3 then
      .next ((s.modQp qp fun x => { x with rtuTries := x.rtuTries + 1 }).emit (.cm x.port (some qp) cmRep))
    else .next ((s.freeQpIndex qp).emit (.cm x.port (some qp) (cmRej rejTimeout)))

/-- The window of a queue pair that waits for its connection, with the command that opens it. -/
def State.openingOf (s : State) (x : Qp) : Option (Nat × CmdHdr) :=
  match x.kind with
  | .window w => (look s.ctl.opening w).map fun h => (w, h)
  | _ => none

/-- A window's connection has come to nothing: its command ends with a status and the window is CLOSED. -/
def State.openFailed (s : State) (qp : Nat) (status : Nat) : State :=
  match look s.net.qps qp with
  | none => s
  | some x =>
    match if x.state = .init then s.openingOf x else none with
    | none => s
    | some (w, h) =>
      ((s.freeQpIndex qp).onCtl fun k => { k with opening := del k.opening w, windows := del k.windows w }).respond h 0x0601 status
        false 0 []

/-- REP, R410, R412: a WINDOW queue pair connects; RTU is sent and the window is UP. -/
def execRep (p qp mtu remoteQpn : Nat) (s : State) : Host.Outcome State Fault Refusal :=
  match look s.net.qps qp with
  | none => .next s
  | some x =>
    if x.state ≠ .init ∨ x.port ≠ p then .next s
    else match s.openingOf x with
    | none => .next s
    | some (w, h) =>
      let s1 := (s.modQp qp fun x => { x with state := .rts, mtu := min x.mtu mtu, remoteQpn := remoteQpn }).emit (.cm p (some qp) cmRtu)
      .next ((s1.onCtl fun k => { k with
        opening := del k.opening w, windows := put k.windows w { (lookD k.windows w {}) with state := 2 } }).respond h 0x0601 stOk
          true 0 (leBytes 1 2))

/-- REJ, R412: the host refuses a device's REQ. The spec names no status for it; the command ends NOT_READY (log entry 28). -/
def execRej (qp : Nat) (s : State) : Host.Outcome State Fault Refusal := .next (s.openFailed qp stNotReady)

/-- DEVICE_REQ_TIMEOUT, R412: resent at most 3 times, then the window command ends with TIMEOUT. -/
def execDeviceReqTimeout (qp : Nat) (s : State) : Host.Outcome State Fault Refusal :=
  match look s.net.qps qp with
  | none => .next s
  | some x =>
    if x.state ≠ .init ∨ (s.openingOf x).isNone then .next s
    else if x.reqTries < 3 then
      .next ((s.modQp qp fun x => { x with reqTries := x.reqTries + 1 }).emit (.cm x.port (some qp) cmReq))
    else .next (s.openFailed qp stTimeout)

/-- DREQ, R412: DREP is sent; the queue pair enters ERROR and is freed. -/
def execDreq (qp : Nat) (s : State) : Host.Outcome State Fault Refusal :=
  match look s.net.qps qp with
  | none => .next s
  | some x => .next (((s.emit (.cm x.port (some qp) cmDrep)).qpError qp).freeQpIndex qp)

/-- DREP, R412: the queue pair of a device's DREQ is freed. -/
def execDrep (qp : Nat) (s : State) : Host.Outcome State Fault Refusal :=
  match look s.net.qps qp with
  | none => .next s
  | some x => if x.state = .reset then .next (s.freeQpIndex qp) else .next s

end Sys2Proof.Machine
end

