-- ==== Sys2Proof/Machine/Identity.lean ====
section
/-!
DEFINITION. Identity and tenancy (chapter 17): signed objects and their counters (R569 to R571), ownership and sessions (R572 to
R577), the guest firewall (R580 to R582), counter blocks and reports (R587, R591), and the end of a cocoon (R583 to R585).
-/

namespace Sys2Proof.Machine

/-! ### Keys and signed objects, R568 to R571 -/

def keyBytes (k : BitVec 512) : List Byte := leBytes 64 k.toNat
/-- The hash of a public key. -/
def hashOf (k : BitVec 512) : BitVec 512 := shake256 (keyBytes k)
/-- The digest of bytes as bytes. -/
def digestBytes (bs : List Byte) : List Byte := keyBytes (shake256 bs)

/-- The last Counter accepted from the key with a hash; 0 when the key was installed since. -/
def Ident.counter (i : Ident) (h : BitVec 512) : Nat := match i.counters.find? (·.1 == h) with | some c => c.2 | none => 0
def Ident.setCounter (i : Ident) (h : BitVec 512) (n : Nat) : Ident :=
  { i with counters := i.counters.filter (fun c => c.1 != h) ++ [(h, n)] }

/-- Why an object is not accepted, R570: malformed, or refused. `key` is the hash of the key that its Type requires. -/
def State.objRefusal (s : State) (o : SObj) (types : List Nat) (size : Nat) (key : BitVec 512) : Option Nat :=
  if !o.wellFormed ∨ !types.contains o.type ∨ o.body.length ≠ size then some stBadArg
  else if o.serial ≠ s.ctl.serial ∨ o.signer ≠ key ∨ !o.sigOk ∨ o.counter ≤ s.ident.counter key then some stDenied
  else none

/-- Bytes of a body read as a key. -/
def keyAt (body : List Byte) (off : Nat) : BitVec 512 := BitVec.ofNat 512 (field body off 64)

/-- The bytes of a device key or certificate signature. -/
def deviceBytes (which n : Nat) : List Byte := (List.range n).map (Config.deviceByte which)
def dikKey : List Byte := deviceBytes 0 64
def dakKey : List Byte := deviceBytes 1 64

/-- The envelope of R569 from offset 0 to the end of the body, for an object with `n` signatures. -/
def envelopeHead (type n alg : Nat) (serial : Dword) (counter : Nat) (signer body : List Byte) : List Byte :=
  leBytes 4 0x314F5347 ++ leBytes 2 type ++ leBytes 1 n ++ leBytes 1 alg ++ leBytes 8 serial.toNat ++ leBytes 8 counter ++
    leBytes 4 body.length ++ leBytes 4 0 ++ signer ++ List.replicate 32 0 ++ body

/-- The envelope of R569 with its signature. -/
def envelope (type alg : Nat) (serial : Dword) (counter : Nat) (signer body sig : List Byte) : List Byte :=
  envelopeHead type 1 alg serial counter signer body ++ sig

/-- Signatures of an object that the module takes: a transfer has two (R569). -/
def sigCount (type : Nat) : Nat := if type = 2 then 2 else 1

/-- The bytes of an object that the module takes, up to the end of its body: its keys sign with SLH-DSA-SHAKE-256s (R568, R569). -/
def objHead (o : SObj) : List Byte := envelopeHead o.type (sigCount o.type) 1 o.serial o.counter (keyBytes o.signer) o.body

/-- The bytes of a buffer spell an object, with room after it for its signatures of 29,792 bytes each (R569). -/
def objSpelled (o : SObj) (bs : List Byte) : Bool :=
  bs.take (objHead o).length == objHead o && decide ((objHead o).length + 29792 * sigCount o.type ≤ bs.length)

/-- The object that a command takes from the bytes of its buffer: what they do not spell is malformed (R569, R570). -/
def objIn (o : SObj) (bs : List Byte) : SObj := if objSpelled o bs then o else { o with wellFormed := false }

/-- Pad with zeros to a multiple of 64 bytes. -/
def pad64 (bs : List Byte) : List Byte := bs ++ List.replicate ((64 - bs.length % 64) % 64) 0

/-- An object that the module signs with the DAK, R571: its signature is a free value. -/
def State.signed (s : State) (type : Nat) (body : List Byte) : List Byte :=
  envelope type 2 s.ctl.serial (s.fw.coldStarts % 2 ^ 32 * 2 ^ 32 + s.ident.signed) (digestBytes dakKey) body
    ((List.range 49856).map (Config.freeSignature s.free))

/-- Count an object signed. -/
def State.countSigned (s : State) : State := s.draw.onIdent fun i => { i with signed := i.signed + 1 }

def partCode (s : State) : Nat := if s.fw.guestPop then 2 else 1

/-- The certificates written at manufacture, R571; their Counters are not stated and are zero there. -/
def State.deviceCert (s : State) : List Byte :=
  envelope 0x50 1 s.ctl.serial 0 (deviceBytes 5 64)
    (leBytes 8 s.ctl.serial.toNat ++ leBytes 1 (partCode s) ++ leBytes 1 s.ctl.stepping.toNat ++ leBytes 6 0 ++
      leBytes 8 s.ctl.mac.toNat ++ dikKey) (deviceBytes 3 29792)
def State.dakCert (s : State) : List Byte :=
  envelope 0x51 1 s.ctl.serial 0 (digestBytes dikKey)
    (leBytes 8 s.ctl.serial.toNat ++ leBytes 24 0 ++ dakKey ++ deviceBytes 2 1568) (deviceBytes 4 29792)

/-- The hash of the owner's key; zero when unowned. -/
def State.ownerHash (s : State) : List Byte := match s.ident.owner with | some k => keyBytes (hashOf k) | none => leBytes 64 0
def State.tenantHash (s : State) (slot : Nat) : List Byte :=
  match look s.ident.tenants slot with | some t => keyBytes (hashOf t.key) | none => leBytes 64 0

/-! ### The service-life record, R586 to R590 -/

/-- The first 4,032 bytes of a counter block, R587. -/
def State.counterBody (s : State) (seq : Nat) : List Byte :=
  let l := s.life
  let kJ (e : Nat) : Nat := e / 10000000000
  let le := s.linkErrorsNow
  let rth (n : Nat) : Rth := lookD s.heat.rth n {}
  leBytes 4 0x31524C53 ++ leBytes 4 seq ++ leBytes 8 s.poweredS ++ leBytes 8 (kJ l.energy) ++
    (List.range 20).flatMap (fun i => leBytes 4 (lookD l.bands i 0 / 10)) ++
    (List.range 4).flatMap (fun i => leBytes 4 (lookD l.cycles i 0)) ++
    leBytes 4 l.switchovers ++ leBytes 2 l.trips ++ leBytes 2 l.fencedClusters ++
    (List.range 8).flatMap (fun m => leBytes 8 (lookD le m (0, 0)).1 ++ leBytes 8 (lookD le m (0, 0)).2) ++
    leBytes 4 l.slicePagesRetired ++ leBytes 4 l.slicePagesLost ++ leBytes 2 l.sliceBanksRetired ++ leBytes 2 l.failedPhases ++
    leBytes 4 l.outerPagesRetired ++ leBytes 2 l.failedPackages.toNat ++ leBytes 2 l.degradedPackages.toNat ++
    leBytes 4 l.activations ++ leBytes 4 l.cocoons ++ leBytes 2 l.ownerChanges ++ leBytes 2 l.serviceResets ++
    leBytes 8 (s.poweredS - l.resetAtS) ++ leBytes 8 (kJ (l.energy - l.energyAtReset)) ++
    (List.range 4).flatMap (fun i => leBytes 4 (lookD l.svcCycles i 0)) ++ leBytes 2 l.svcTrips ++ leBytes 2 0 ++
    leBytes 4 l.svcSwitchovers ++ leBytes 8 l.resetAtS ++
    (List.range 4).flatMap (fun n => leBytes 2 (rth n).count ++ leBytes 2 (rth n).baseline ++ leBytes 2 (rth n).lifeMin ++
      leBytes 2 (rth n).lifeMax ++ leBytes 4 (rth n).hours ++ leBytes 2 (rth n).sinceReset ++ leBytes 2 0) ++
    (List.range 4).flatMap (fun n => (List.range 64).flatMap fun i => leBytes 2 ((rth n).history.getD i 0)) ++
    leBytes 4 s.fw.coldStarts ++ List.replicate 3116 0

/-- A counter block with its digest. -/
def State.counterBlock (s : State) (seq : Nat) : List Byte := s.counterBody seq ++ digestBytes (s.counterBody seq)

/-- Write a counter block into the counter log. -/
def State.writeBlock (s : State) : State :=
  s.onLife fun l => { l with seq := l.seq + 1, written := s.counterBlock (l.seq + 1) }

/-- COUNTER_BLOCK_WRITE, R588: by the security core. -/
def execCounterBlockWrite (s : State) : Host.Outcome State Fault Refusal :=
  if !s.fw.secUp ∨ s.fw.secRestart ∨ s.dev = .off then .next s else .next s.writeBlock

/-- The body of the condition report, R591. -/
def State.conditionBody (s : State) : List Byte :=
  let mask (f : Outer → Bool) : Nat := pack ((List.range 12).map fun m => (bitOf (f (s.outer m)), m))
  leBytes 8 s.ctl.serial.toNat ++ leBytes 1 (partCode s) ++ leBytes 1 s.grade ++ leBytes 2 s.enabledClusters ++
    leBytes 4 s.pagesLost ++ leBytes 2 (mask (·.degraded)) ++ leBytes 2 (mask (·.failed)) ++ leBytes 4 s.life.repairedRows ++
    leBytes 1 (bitOf s.ident.clean) ++ List.replicate 39 0 ++ leBytes 64 (digestOf s.activeBundle) ++ s.ownerHash ++
    (match s.ident.wipeCert with | some c => digestBytes c | none => leBytes 64 0) ++ s.counterBlock s.life.seq

/-- The body of a quote, R579. -/
def State.quoteBody (s : State) (nonce : BitVec 256) (role : Nat) : List Byte :=
  let f := s.fw
  let ps := s.work.programs
  leBytes 32 nonce.toNat ++ leBytes 64 (digestOf s.activeBundle) ++ leBytes 64 (digestOf s.stagedBundle) ++
    leBytes 64 (digestOf f.recovery) ++ leBytes 1 f.svn ++ leBytes 1 (bitOf f.kh0Revoked + 2 * bitOf f.kh1.isSome) ++
    leBytes 1 (match s.activeBundle with | some b => b.keyIndex | none => 0) ++ leBytes 1 s.dev.code ++ leBytes 1 role ++
    leBytes 1 s.ident.tenants.length ++ leBytes 2 ps.length ++ leBytes 8 s.now ++ List.replicate 16 0 ++ s.ownerHash ++
    (List.range 4).flatMap s.tenantHash ++ s.conditionBody ++
    ps.flatMap (fun p => leBytes 2 p.1 ++ leBytes 1 (bitOf p.2.nondet) ++ leBytes 5 0 ++ leBytes 64 p.2.digest.toNat)

/-! ### Sessions, R575, R576 -/

/-- End the sessions that a condition holds of. -/
def State.endSessions (s : State) (gone : Session → Bool) : State := s.onIdent fun i => { i with
  sessRing := i.sessRing.filter fun x => !gone x, sessI2c := i.sessI2c.filter fun x => !gone x }

/-- SESSION_LIFETIME_END, R575, R576. -/
def execSessionLifetimeEnd (path : Path) (s : State) : Host.Outcome State Fault Refusal :=
  let ended (x : Session) : Bool := x.endTime.isSome
  match path with
  | .ring => .next (s.onIdent fun i => { i with sessRing := i.sessRing.filter fun x => !ended x })
  | .i2c => .next (s.onIdent fun i => { i with sessI2c := i.sessI2c.filter fun x => !ended x })

/-! ### The guest die, R580 to R582 -/

/-- The window that holds a request wholly. -/
def State.guestWindow (s : State) (addr len : Nat) : Option (Nat × GuestWin) :=
  s.ident.guestWins.find? fun w => decide (w.2.size ≠ 0) && decide (w.2.base ≤ addr) && decide (addr + len ≤ w.2.base + w.2.size)

/-- Bytes in a window's bucket now: 64 KiB deep, filled at Rate MB/s. -/
def GuestWin.level (w : GuestWin) (now : Nat) : Nat := min 65536 (w.tokens + w.rate * (now - w.since) / 1000)

/-- A violation, R581: the guest port is fenced and its domain powered down. -/
def State.guestViolation (s : State) (addr : Nat) : State :=
  (s.onPwr fun p => { p with guestFenced := true, guestOn := false }).logEvent .guestViolation { ut := utGuest, ui := 0, address := addr }

/-- GUEST_REQUEST, R3, R580 to R582: op 0 reads, 1 writes. Requests above the rate wait at the firewall. -/
def execGuestRequest (op addr len : Nat) (malformed : Bool) (data : List Byte) (s : State) : Host.Outcome State Fault Refusal :=
  let n := if op = 1 then data.length else len
  if !s.fw.guestPop ∨ !s.pwr.guestOn ∨ s.pwr.guestFenced then .next s
  else if s.dev = .cocoon then .next (s.emit (.answer .guest stBusy))
  else match s.guestWindow addr n with
  | none => .next (s.guestViolation addr)
  | some (i, w) =>
    if malformed ∨ 1 < op ∨ bits w.mask op op = 0 then .next (s.guestViolation addr)
    else if w.level s.now < n then .next s
    else
      let s1 := s.onIdent fun d => { d with
        guestWins := put d.guestWins i { w with tokens := w.level s.now - n, since := s.now } }
      let acc : Access := if op = 1 then .write data false else .read
      let ans := s1.answer .guest addr n (op == 1)
      match ans with
      | .go => .next (s1.serve .guest addr n acc)
      | .status st => .next ((s1.countBusy addr ans).reply .guest st)
      | .fault => .next ((s1.countBusy addr ans).reply .guest stBadArg)

/-! ### Cocoon, R583 to R585 -/

/-- Step 5, once memory and flash are done: tenant keys and sessions, tenant associations and registrations go. -/
def State.cocoonErase (s : State) : State :=
  if s.dev ≠ .cocoon ∨ !s.ident.wipeDone ∨ !s.ident.flashDone ∨ s.ident.cocoonStep ≠ 2 then s
  else
    let s1 := s.endSessions fun x => !x.owner
    { s1 with
      ident := { s1.ident with
        cocoonStep := 5, tenants := []
        removedTenants := s1.ident.tenants.map fun t => (t.1, hashOf t.2.key)
        counters := s1.ident.counters.filter fun c => !(s1.ident.tenants.any fun t => hashOf t.2.key == c.1) }
      net := { s1.net with ports := mapTab s1.net.ports fun _ p => ({ p with sas := p.sas.filter fun a => !a.byTenant } : PortSt) }
      work := { s1.work with programs := [], cache := [], placed := [], shadows := [], kvPages := [] }
      svc := { s1.svc with models := [], adapters := [], prefixes := [], tokenisers := [], contexts := [], requests := [] } }

/-- COCOON_WIPE_DONE, R583 step 3: memory is zero with valid check bits, and scratchpads, accumulators, instruction memories,
channel stores, readiness tables and journal mirrors are cleared. -/
def execCocoonWipeDone (slicesUnwiped : Nat) (packagesUnwiped : Half) (verifyFailures : Nat) (s : State) :
    Host.Outcome State Fault Refusal :=
  if s.dev ≠ .cocoon ∨ s.ident.cocoonStep ≠ 2 ∨ s.ident.wipeDone then .next s
  else
    let s1 : State := { s with
      mem := { s.mem.clear 0 dcsBase with instars := [] }
      cores := []
      slices := mapTab s.slices fun _ k => ({ k with queue := [], writeBacks := [] } : Slice)
      channels := mapTab s.channels fun _ c =>
        ({ c with words := [], opens := [], openBy := none, openLeft := 0, reading := false, draining := none, pressure := false } : Channel)
      work := { s.work with ready := [], tasks := [], journal := [] }
      ident := { s.ident with
        wipeDone := true, slicesUnwiped := slicesUnwiped, packagesUnwiped := packagesUnwiped, verifyFailures := verifyFailures } }
    .next s1.inboxUpdate.cocoonErase

/-- COCOON_FLASH_DONE, R583 step 4: both network-profile copies, the tenant area and the tenant records; the addresses in use stay
until the next entry into ROM (R584). -/
def execCocoonFlashDone (s : State) : Host.Outcome State Fault Refusal :=
  if s.dev ≠ .cocoon ∨ s.ident.cocoonStep ≠ 2 ∨ s.ident.flashDone then .next s
  else
    let s1 : State := { s with fw := { s.fw with profNet := [] }, ident := { s.ident with flashDone := true } }
    .next s1.cocoonErase

/-- The body of the wipe certificate, R585. The bytes overwritten depend on how many physical cores the module has, which the spec
leaves open, and are free values. -/
def State.wipeBody (s : State) : List Byte :=
  let i := s.ident
  leBytes 8 (s.life.cocoons + 1) ++ leBytes 8 i.cocoonStart ++ leBytes 8 s.now ++ leBytes 8 i.cocoonWall.toNat ++ s.ownerHash ++
    (List.range 4).flatMap (fun t => keyBytes (lookD i.removedTenants t 0)) ++
    leBytes 8 (Config.freeNat s.free) ++ leBytes 8 (Config.freeNat (s.free + 1)) ++ leBytes 4 i.slicesUnwiped ++
    leBytes 2 i.packagesUnwiped.toNat ++ leBytes 2 0xF ++ leBytes 4 i.verifyFailures ++ leBytes 4 0 ++
    leBytes 64 (digestOf s.activeBundle) ++ digestBytes s.conditionBody

/-- WIPE_CERTIFICATE, R583 steps 6 and 7, R585: the certificate is signed and kept, Clean is set, the cocoon counted and READY
entered; the command's buffer takes the certificate, its response follows, and a window that it names ends. -/
def execWipeCertificate (s : State) : Host.Outcome State Fault Refusal :=
  if s.dev ≠ .cocoon ∨ s.ident.cocoonStep ≠ 5 ∨ s.fw.secRestart then .next s
  else
    let body := s.wipeBody
    let cert := s.draw.draw.signed 0x40 body
    let s1 := s.draw.draw.countSigned
    let s2 : State := { s1 with
      dev := .ready
      life := { s1.life with cocoons := satAdd 32 s1.life.cocoons 1 }
      ident := { s1.ident with
        clean := true, cocoonPending := false, wipeCert := some cert, cocoonStep := 0, cocoonCmd := none
        wipeDone := false, flashDone := false } }
    match s.ident.cocoonCmd with
    | none => .next s2
    | some (h, b) =>
      let s3 := s2.outBuf h 0x0A04 b cert (BitVec.ofNat 32 cert.length) []
      .next (s3.onCtl fun k => { k with backs := k.backs.map fun x => if x.hdr = h then { x with closes := true } else x })

end Sys2Proof.Machine
end

