-- ==== Sys2Proof/Machine/CmdDevice.lean ====
section
/-!
DEFINITION. The mailbox commands that act on the device, its units, ports, links and windows (R441, R442): the groups 0x01, 0x06,
0x07, 0x08, 0x0B and 0x0C. OPEN_SESSION stands with the security commands.
-/

namespace Sys2Proof.Machine

/-! ### Device, R441 -/

/-- GET_INFO. -/
def execGetInfo (h : CmdHdr) (s : State) : Host.Outcome State Fault Refusal :=
  s.command h 0x0101 fun s =>
    s.done h 0x0101 ((List.range 24).flatMap (fun i => leBytes 8 (s.dcsReg (8 * i))) ++ leBytes 8 (s.dcsReg 0x100) ++
      leBytes 8 (s.dcsReg 0x108))

/-- COMPUTE_RESET, R483, R484: answered at the clusters' eclosion. One that arrives while a reset runs is BUSY. -/
def execComputeReset (h : CmdHdr) (mode : Nat) (cds : List Nat) (s : State) : Host.Outcome State Fault Refusal :=
  s.command h 0x0102 fun s =>
    if 1 < mode ∨ cds.any (fun cd => decide (512 ≤ cd)) then s.refuse h 0x0102 stBadArg
    else if s.fw.resetStep ≠ 0 then s.refuse h 0x0102 stBusy
    else s.beginReset (if mode = 0 then List.range 512 else cds.eraseDups) (mode == 0) (some h)

/-- DEVICE_RESET: answered, then the reset of RESET_DELAY_EXPIRY. -/
def execDeviceReset (h : CmdHdr) (s : State) : Host.Outcome State Fault Refusal :=
  s.command h 0x0103 fun s => (s.onFw fun f => { f with resetDelay := true }).done h 0x0103

/-- Store a profile entry (R454); the clock source order applies at once, and the other entries of R487 that do are read from the
profile where they are used. -/
def State.storeProfile (s : State) (key : Nat) (v : List Byte) : State :=
  let set (l : List (Nat × List Byte)) : List (Nat × List Byte) := (l.filter fun e => e.1 != key) ++ [(key, v)]
  let s1 := s.onFw fun f => if key / 2 ^ 31 = 0 then { f with profDev := set f.profDev, profSeq := f.profSeq + 1 }
    else { f with profNet := set f.profNet, profSeq := f.profSeq + 1 }
  if key = 0x01000003 then s1.setSrcCfg (leNat v) else s1

/-- CONFIG, R486, R487. -/
def execConfig (h : CmdHdr) (op : Nat) (key : Word) (value : List Byte) (s : State) : Host.Outcome State Fault Refusal :=
  s.command h 0x0104 fun s =>
    let k := key.toNat
    let n := profSize k
    let v := value.take n ++ List.replicate (n - value.length) 0
    if n = 0 ∨ 1 < op then s.refuse h 0x0104 stBadArg
    else if op = 0 then s.done h 0x0104 (s.profNow k ++ List.replicate (192 - n) 0)
    else if (value.drop n).any (· != 0) ∨ 192 < value.length ∨ !profOk k v then s.refuse h 0x0104 stBadArg
    else (s.storeProfile k v).done h 0x0104 (v ++ List.replicate (192 - n) 0)

/-! ### Windows, regions and units, R441, R444 -/

/-- Begin to open a window: a WINDOW queue pair is made and its REQ sent (R412). -/
def State.openWindow (s : State) (h : CmdHdr) (w port gid : Nat) (hostGid : BitVec 128) (va len : Dword) (rkey : Word) (q : Nat) :
    State :=
  let x : Qp := { kind := .window w, port := port, gidIndex := gid, state := .init, domain := newDomain s.free (.window w)
                  mtu := (s.portSt port).mtuMax, remoteGid := hostGid, rate := (s.portSt port).line }
  let s1 := (s.draw.onNet fun n => { n with qps := put n.qps q x }).emit (.cm port (some q) cmReq)
  s1.onCtl fun k => { k with
    opening := put k.opening w h
    windows := put k.windows w
      { state := 1, qp := q, port := port, gidIndex := gid, hostGid := hostGid, va := va, len := len, rkey := rkey } }

/-- WINDOW, R441, R444, R448: an open is answered by the host's REP, its REJ or the time-out; a close at once. -/
def execWindow (h : CmdHdr) (op w port gidIndex : Nat) (hostGid : BitVec 128) (va len : Dword) (rkey : Word) (s : State) :
    Host.Outcome State Fault Refusal :=
  s.command h 0x0601 fun s =>
    let x := lookD s.ctl.windows w ({} : Win)
    if 1 < op ∨ 64 ≤ w then s.refuse h 0x0601 stBadArg
    else if op = 1 then
      let s1 := match look s.ctl.opening w with
        | some _ => s.openFailed x.qp stNotReady
        | none => s
      (if x.state = 0 then s1 else s1.closeWindow w).done h 0x0601 [0]
    else if 4 ≤ port ∨ 3 ≤ gidIndex then s.refuse h 0x0601 stBadArg
    else if x.state = 1 ∨ x.state = 2 then s.refuse h 0x0601 stBusy
    else if (s.portSt port).state ≠ .up ∨ !(s.portSt port).gidOk gidIndex then s.refuse h 0x0601 stNotReady
    else
      let s1 := if x.state = 3 then s.closeQp x.qp else s
      match s1.freeQp with
      | none => s.refuse h 0x0601 stRetry
      | some q => s1.openWindow h w port gidIndex hostGid va len rkey q

/-- A range lies wholly in the inner-slice region or in the outer-memory region. -/
def memoryRange (base len : Nat) : Bool :=
  decide (0 < len) && (decide (base + len ≤ 32768 * sliceStride) || (decide (outerBase ≤ base) && decide (base + len ≤ outerBase + 12 * outerSize)))

/-- The next Tag of a region, R413. -/
def nextTag (t : Nat) : Nat := let n := (t + 1) % 256; if n = 0x4D then 0x4E else n

/-- REGION, R413: index 0 is the management region. -/
def execRegion (h : CmdHdr) (op index base len : Nat) (rd wr : Bool) (domain : Nat) (s : State) : Host.Outcome State Fault Refusal :=
  s.command h 0x0602 fun s =>
    let x := lookD s.net.regions index ({} : Region)
    if 1 < op ∨ index = 0 ∨ 4096 ≤ index then s.refuse h 0x0602 stBadArg
    else if op = 1 then
      (s.onNet fun n => { n with regions := put n.regions index { x with registered := false } }).done h 0x0602
        (leBytes 4 (index * 256 + x.tag))
    else if 255 < domain ∨ !memoryRange base len then s.refuse h 0x0602 stBadArg
    else
      let t := nextTag x.tag
      (s.onNet fun n => { n with
        regions := put n.regions index { registered := true, base := base, len := len, rd := rd, wr := wr, domain := domain, tag := t } }).done h 0x0602
        (leBytes 4 (index * 256 + t))

/-- The placer can free a range: nothing but what it has placed lies in it, and there is room for it elsewhere (R213, R248). -/
def State.canFree (s : State) (a n : Nat) : Bool :=
  let fixed := (match place a with
    | .outer m off => journalMirror m off || decide (65535 * 0x200000 < off + n)
    | _ => false) || s.ident.guestWins.any fun w => overlaps (a, n) (w.2.base, w.2.size)
  !s.allocated a n || (!fixed && (s.allocAny n).isSome)

/-- The pages that a RETIRE must empty: none while a spare takes its place (R212, R247). -/
def State.retireRoom (s : State) (tier unit page : Nat) (bank : Bool) : Bool :=
  if bank then ((s.slice unit).bankPages (page % 8)).all fun p => s.canFree (slicePageAddr unit p) 0x10000
  else if tier = 0 then (s.slice unit).freeSpare.isSome || s.canFree (slicePageAddr unit page) 0x10000
  else (s.outer unit).freeSpare.isSome || s.canFree (outerAddr unit + page * 0x200000) 0x200000

/-- A page is retired already, or on its way. -/
def State.retiredPage (s : State) (tier unit page : Nat) : Bool :=
  if tier = 0 then (s.slice unit).retired.contains page || !s.pageDone 0 unit page
  else (s.outer unit).retired.contains page || !s.pageDone 1 unit page

/-- RETIRE, R212 to R214, R247, R248: answered when its pages have left or have their spares. -/
def execRetire (h : CmdHdr) (tier unit page : Nat) (bank : Bool) (s : State) : Host.Outcome State Fault Refusal :=
  s.command h 0x0603 fun s =>
    let bad := decide (1 < tier) || (bank && tier == 1) || (if tier = 0 then decide (32768 ≤ unit) || (!bank && decide (192 ≤ page))
      else decide (12 ≤ unit) || decide (65536 ≤ page))
    let old := if bank then (s.slice unit).bankRetired.getLsbD (page % 8) else s.retiredPage tier unit page
    let pages := if bank then (s.slice unit).bankPages (page % 8) else [page]
    if bad then s.refuse h 0x0603 stBadArg
    else if !old ∧ !s.retireRoom tier unit page bank then s.refuse h 0x0603 stRetry
    else
      let s1 := if old then s else if bank then s.retireBank unit (page % 8) else if tier = 0 then s.retireSlicePage unit page
        else s.retireOuterPage unit page
      (s1.onCtl fun k => { k with
        retires := k.retires ++ [{ hdr := h, tier := tier, unit := unit, pages := pages, bank := bank }] }).retireDone

/-- The units that UNIT_REGS reaches. -/
def unitRegsUnit : RegUnit → Bool
  | .slice _ | .outer _ | .channel _ _ | .router _ | .link _ | .port _ => true
  | _ => false

/-- UNIT_REGS, R441: a write reaches what R14 lets it reach; the results are the register block. -/
def execUnitRegs (h : CmdHdr) (op : Nat) (u : RegUnit) (offset : Nat) (value : Dword) (s : State) : Host.Outcome State Fault Refusal :=
  s.command h 0x0604 fun s =>
    if 1 < op ∨ !unitRegsUnit u ∨ !unitExists u ∨ offset % 8 ≠ 0 ∨ (s.block u).length ≤ offset then s.refuse h 0x0604 stBadArg
    else
      let s1 := if op = 1 then s.writeReg u offset value else s
      s1.done h 0x0604 (s1.block u)

/-- EXPORT_WINDOW, R382; a size of 0 removes the window. -/
def execExportWindow (h : CmdHdr) (index base size : Nat) (rd wr : Bool) (s : State) : Host.Outcome State Fault Refusal :=
  s.command h 0x0605 fun s =>
    if 16 ≤ index ∨ (size ≠ 0 ∧ !memoryRange base size) then s.refuse h 0x0605 stBadArg
    else (s.onLys fun y => { y with
      exports := if size = 0 then del y.exports index else put y.exports index { base := base, size := size, rd := rd, wr := wr } }).done
        h 0x0605

/-! ### Power and heat -/

/-- SET_POWER_CAP, R512. -/
def execSetPowerCap (h : CmdHdr) (watts : Nat) (s : State) : Host.Outcome State Fault Refusal :=
  s.command h 0x0701 fun s =>
    if watts < 1500 ∨ 4000 < watts then s.refuse h 0x0701 stBadArg
    else (s.onPwr fun p => { p with capW := watts }).done h 0x0701 (leBytes 2 watts)

/-- Compute units that a SET_PROBOSCIS adds over its packages, R516. -/
def State.addedUnits (s : State) (mask : Half) (v : Nat) : Nat :=
  (((List.range 12).filter fun m => mask.getLsbD m).map fun m => v - (s.outer m).activeMax).sum

/-- SET_PROBOSCIS, R260, R261, R516. -/
def execSetProboscis (h : CmdHdr) (mask : Half) (activeMax : Nat) (s : State) : Host.Outcome State Fault Refusal :=
  s.command h 0x0702 fun s =>
    let v := activeMaxOf activeMax
    let added := s.addedUnits mask v
    if mask.toNat / 4096 ≠ 0 then s.refuse h 0x0702 stBadArg
    else if 16 < v ∧ added ≠ 0 ∧ 10 * s.pwr.capW < 10 * s.pwr.mean10 + 500 + 9 * added then s.refuse h 0x0702 stDenied
    else (((List.range 12).filter fun m => mask.getLsbD m).foldl (fun s m => s.writeActiveMax m v) s).done h 0x0702

/-- The clock gate of a cluster, DOMAIN level 0 (R442, R496): a new state, a status, whether it took effect, and Detail. -/
def State.gateCmd (s : State) (cd : Nat) (on : Bool) : State × Nat × Bool × Word :=
  let k := s.cluster cd
  if on then
    if k.gateClosing then (s.modCluster cd fun k => { k with gatePending := true }, stPendingOn, !k.gatePending, 0)
    else (s.modCluster cd fun k => { k with gateByCmd := false, gateOpen := k.gateOpen || k.dom == .on }, stOk, true, 0)
  else if k.wave.isSome then (s, stGateBusy, false, 0)
  else if k.gatePending then (s.modCluster cd fun k => { k with gatePending := false }, stOk, true, 1)
  else (s.modCluster cd fun k => { k with gateByCmd := true, gateClosing := k.gateOpen }, stOk, true, 0)

/-- The power domain of a cluster, DOMAIN level 1 (R442, R508). -/
def State.domainCmd (s : State) (cd : Nat) (on : Bool) : State × Nat × Bool × Word :=
  let k := s.cluster cd
  if on then
    match k.dom with
    | .off => (s.modCluster cd fun k => { k with dom := .waitBudget }, stOk, true, 0)
    | .rampDown => (s.modCluster cd fun k => { k with domPending := true }, stPendingOn, !k.domPending, 0)
    | _ => (s, stOk, true, 0)
  else if k.wave.isSome then (s, stGateBusy, false, 0)
  else match k.dom with
    | .on | .rampUp => (s.modCluster cd fun k => { k with
        dom := .rampDown, ramp := if k.dom = .on then 16 else k.ramp, gateOpen := false, gateClosing := false, gatePending := false },
        stOk, true, 0)
    | .waitBudget => (s.modCluster cd fun k => { k with dom := .off }, stOk, true, 0)
    | .rampDown => (s.modCluster cd fun k => { k with domPending := false }, stOk, true, if k.domPending then 1 else 0)
    | _ => (s, stOk, true, 0)

/-- DOMAIN, R442, R496, R508: level 0 the clock gate, 1 power; on a FENCED domain DENIED. -/
def execDomain (h : CmdHdr) (cd level : Nat) (on : Bool) (s : State) : Host.Outcome State Fault Refusal :=
  s.command h 0x0703 fun s =>
    if 512 ≤ cd ∨ 1 < level then s.refuse h 0x0703 stBadArg
    else if (s.cluster cd).dom = .fenced ∨ (s.cluster cd).fenced then s.refuse h 0x0703 stDenied
    else
      let r := if level = 0 then s.gateCmd cd on else s.domainCmd cd on
      r.1.respond h 0x0703 r.2.1 r.2.2.1 r.2.2.2 (leBytes 1 (r.1.cluster cd).dom.code)

/-- GET_POWER, R520. The spec gives no reading of the VPKG voltage, which is a free value. -/
def execGetPower (h : CmdHdr) (s : State) : Host.Outcome State Fault Refusal :=
  s.command h 0x0704 fun s =>
    let p := s.pwr
    let ks := (List.range 512).map s.cluster
    let inState (n : Nat) : Nat := (ks.filter fun k => k.dom.code == n).length
    let phases (n : Nat) : Nat := (ks.filter fun k => k.dom != .fenced && k.working == n).length
    s.draw.done h 0x0704 (leBytes 4 (p.mean10 * 1000) ++ leBytes 2 p.feedA.mv ++ leBytes 2 p.feedB.mv ++
      leBytes 2 (Config.freeNat s.free) ++ leBytes 2 p.vpkgA ++ leBytes 4 p.holdupUf ++ leBytes 8 (s.powerReg 8) ++
      leBytes 8 (s.powerReg 0) ++ (List.range 6).flatMap (fun n => leBytes 2 (inState n)) ++
      [6, 5, 4].flatMap (fun n => leBytes 2 (phases n)) ++ leBytes 2 0 ++ leBytes 4 p.switchOvers ++ leBytes 8 p.lastPhaseFail ++
      List.replicate 160 0)

/-- Reorder the flags of THM_CHn: Substituted, Flagged, Dropped, Short, Open from bit 12 down (R545). -/
def thermalFlags (reg : Nat) : Nat :=
  pack [(bits reg 9 9, 4), (bits reg 10 10, 3), (bits reg 11 11, 2), (bits reg 12 12, 1), (bits reg 13 13, 0)]

/-- GET_THERMAL, R545. -/
def execGetThermal (h : CmdHdr) (mask : Word) (s : State) : Host.Outcome State Fault Refusal :=
  s.command h 0x0801 fun s =>
    let chs := ((List.range 160).filter fun ch => mask.getLsbD (chanZone ch)).take 56
    if bits mask.toNat 31 29 ≠ 0 then s.refuse h 0x0801 stBadArg
    else s.done h 0x0801 (chs.flatMap fun ch =>
      leBytes 4 (pack [(ofInt 16 (s.heat.used ch), 16), (thermalFlags (s.chanReg ch), 8), (ch, 0)])) (BitVec.ofNat 32 chs.length)

/-- GET_RTH, R542. -/
def execGetRth (h : CmdHdr) (stack : Nat) (s : State) : Host.Outcome State Fault Refusal :=
  s.command h 0x0802 fun s =>
    let r := lookD s.heat.rth stack {}
    if 4 ≤ stack then s.refuse h 0x0802 stBadArg
    else s.done h 0x0802 (leBytes 2 r.count ++ leBytes 2 (r.history.headD 0) ++ leBytes 2 r.baseline ++ leBytes 2 r.median ++
      leBytes 2 r.lifeMin ++ leBytes 2 r.lifeMax ++ leBytes 4 r.hours ++ leBytes 2 (ofInt 16 r.inlet) ++ leBytes 2 r.stepW ++
      List.replicate 12 0 ++ (List.range 64).flatMap fun i => leBytes 2 (r.history.getD i 0))

/-! ### Diagnosis -/

/-- The 64 bytes of an error record, R551. -/
def ErrRec.bytes (r : ErrRec) : List Byte :=
  let b := leBytes 8 r.index ++ leBytes 8 r.time ++ leBytes 8 r.wall.toNat ++ leBytes 2 r.event ++ leBytes 1 r.cls ++
    leBytes 1 r.status ++ leBytes 1 r.unitType ++ leBytes 3 r.unitIndex ++ leBytes 8 r.task ++ leBytes 4 r.count ++
    leBytes 2 r.offset ++ leBytes 2 r.partner ++ leBytes 8 r.address ++ leBytes 4 r.detail
  b ++ leBytes 4 (crc32c b).toNat

/-- The records of the log with indexes from `first` on, at most `count`. -/
def Log.from_ (l : Log) (first count : Nat) : List ErrRec :=
  (List.range (min count 65536)).filterMap fun i => (look l.ring ((first + i) % 65536)).filter fun r => r.index == first + i

/-- The oldest index that the ring holds; Next_Index for an empty ring. -/
def Log.oldest (l : Log) : Nat := l.ring.foldl (fun m e => min m e.2.index) l.next

/-- The index at which a reading from `first` starts, R556. -/
def Log.start (l : Log) (first : Nat) : Nat := min (max first l.oldest) l.next

/-- GET_ERROR_LOG, R441, R550, R551, R556: whole records from the start of the reading on, as many as the buffer holds; the results
count them and Detail gives the start. -/
def execGetErrorLog (h : CmdHdr) (first count : Nat) (b : BufRef) (s : State) : Host.Outcome State Fault Refusal :=
  s.command h 0x0B01 fun s =>
    let rs := (s.log.from_ (s.log.start first) count).take (s.bufLen h.path b / 64)
    s.outBuf h 0x0B01 b (rs.flatMap ErrRec.bytes) (BitVec.ofNat 32 (s.log.start first)) (leBytes 4 rs.length)

/-- One injected error, R441: in a core an error of a scratchpad row or, for an odd Kind, of an accumulator entry, which of them the spec
does not choose, corrected for Class 0 and otherwise a poison mark and SCRATCH_UE (R63); in a slice or a package, symbols of a codeword
that the spec does not choose (one symbol for Class 0, three for a class above it; for an odd Kind in a slice, address symbols of the
read, R202); on a router, link or port an error of its check. The spec gives Kind no values (DESIGN CHOICE, log entry 102). -/
def State.inject (s : State) (ut ui cls kind : Nat) : Option State :=
  let flip (first unit : Nat) (s : State) : State := s.onMem fun m => { m with
    flips := (List.range (if cls = 0 then 1 else 3)).foldl (fun t i => put t (128 * unit + first + i) 1#8) m.flips }
  if ut = utCore ∧ ui < 32768 ∧ kind % 2 = 1 then
    some (if cls = 0 then s.draw
      else (s.draw.modCore ui fun k => let i := Config.freeNat s.free % 256
        k.setAcc i { k.acc i with poison := true }).logEvent .scratchUe { ut := utCore, ui := ui })
  else if ut = utCore ∧ ui < 32768 then
    let row := scratchAddr ui + Config.freeNat s.free % (scratchSize / 32) * 32
    some (if cls = 0 then s.draw
      else (s.draw.onMem fun m => m.setMark row true).logEvent .scratchUe { ut := utCore, ui := ui, address := row })
  else if ut = utSlice ∧ ui < 32768 then
    some (flip (if kind % 2 = 1 then 36 else 0) (sliceAddr ui + Config.freeNat s.free % (slicePopulated / 32) * 32) s.draw)
  else if ut = utOuter ∧ ui < 12 then
    some (flip 0 (outerAddr ui + Config.freeNat s.free % (outerSize / 64) * 64) s.draw)
  else if ut = utRouter ∧ ui < 512 then
    some ((s.modCluster ui fun k => { k with replays := satAdd 32 k.replays 1 }).logEvent .silkReplay { ut := utRouter, ui := ui })
  else if ut = utLink ∧ ui < 8 then some (s.crcError ui)
  else if ut = utPort ∧ ui < 4 then some (s.modPort ui fun k => { k with fcsErrors := satAdd 16 k.fcsErrors 1 })
  else none

/-- INJECT_ERROR, R441: a unit without a check path that the model holds answers BAD_ARG. -/
def execInjectError (h : CmdHdr) (unitType index cls kind : Nat) (s : State) : Host.Outcome State Fault Refusal :=
  s.command h 0x0B02 fun s =>
    match if kind < 256 ∧ cls < 5 then s.inject unitType index cls kind else none with
    | none => s.refuse h 0x0B02 stBadArg
    | some t => t.done h 0x0B02

/-! ### Links and ports -/

/-- Answer an enable or disable by R442: `draining` says that the function shuts down, `pending` that an enable is latched. -/
def State.enableAnswer (s : State) (h : CmdHdr) (op : Nat) (enable draining pending : Bool) (code : Nat) : State :=
  if draining && enable then s.respond h op stPendingOn (!pending) 0 (leBytes 1 code)
  else s.respond h op stOk true (if draining && pending then 1 else 0) (leBytes 1 code)

/-- LINK, R373, R442: Width_Max, Enable and Retrain of one link; a Width_Max past its four bits is BAD_ARG. -/
def execLink (h : CmdHdr) (l : Nat) (enable : Bool) (widthMax : Nat) (retrain : Bool) (s : State) : Host.Outcome State Fault Refusal :=
  s.command h 0x0C01 fun s =>
    let k := s.linkSt l
    if 8 ≤ l ∨ 16 ≤ widthMax then s.refuse h 0x0C01 stBadArg
    else
      let s1 := (s.modLink l fun k => { k with widthMax := widthMax % 16 })
      let s2 := if enable = k.enable ∧ k.state ≠ .draining then s1 else s1.setLink l enable
      let s3 := if retrain ∧ (s2.linkSt l).state = .up then s2.leaveUp l else s2
      s3.enableAnswer h 0x0C01 enable (k.state == .draining) k.pendingOn (s3.linkSt l).state.code

/-- SET_LYS_ID, R374: BUSY, and logged, while a link is neither DISABLED, DOWN nor MISMATCH. -/
def execSetLysId (h : CmdHdr) (system : Word) (device : Nat) (torus : Bool) (s : State) : Host.Outcome State Fault Refusal :=
  s.command h 0x0C02 fun s =>
    let s1 := s.writeLysId (pack [(system.toNat, 16), (bitOf torus, 15), (device, 0)])
    let idle := (List.range 8).all fun l => [LState.disabled, .down, .mismatch].contains (s.linkSt l).state
    if 32768 ≤ device then s.refuse h 0x0C02 stBadArg
    else if idle then s1.done h 0x0C02 else s1.refuse h 0x0C02 stBusy

/-- WRITE_ROUTES, R375, R441: one byte for each Dest. -/
def execWriteRoutes (h : CmdHdr) (b : BufRef) (s : State) : Host.Outcome State Fault Refusal :=
  s.command h 0x0C03 fun s => s.withBuf h 0x0C03 b fun bs s =>
    if bs.length ≠ 32768 then (s, stBadArg, 0, [])
    else (s.onLys fun y => { y with routes := (bs.mapIdx fun i v => (i, v)).filter fun p => p.2 != 0 }, stOk, 0, [])

/-- GROUP, R387: 1 to 32,768 Device_Ids in rank order, two bytes each. -/
def execGroup (h : CmdHdr) (op id : Nat) (b : BufRef) (s : State) : Host.Outcome State Fault Refusal :=
  s.command h 0x0C04 fun s =>
    if s.work.colls.any fun c => c.desc.group == id && s.collOpen c then s.refuse h 0x0C04 stBusy
    else if op = 1 then
      if (look s.work.groups id).isNone then s.refuse h 0x0C04 stBadArg
      else (s.onWork fun w => { w with groups := del w.groups id }).done h 0x0C04
    else if op ≠ 0 then s.refuse h 0x0C04 stBadArg
    else s.withBuf h 0x0C04 b fun bs s =>
      let ids := (List.range (bs.length / 2)).map fun i => field bs (2 * i) 2
      if 256 ≤ id ∨ bs.length % 2 ≠ 0 ∨ ids = [] ∨ 32768 < ids.length ∨ ids.any (fun d => decide (32768 ≤ d)) then (s, stBadArg, 0, [])
      else (s.onWork fun w => { w with groups := put w.groups id ids }, stOk, 0, [])

/-- PORT, R397, R442: Enable and Mode_Sel of one port; 0 acts as 1 (R421). A Mode_Sel that R397 ignores leaves the rest of the
command (log entry 141). -/
def execPort (h : CmdHdr) (p : Nat) (enable : Bool) (modeSel : Nat) (s : State) : Host.Outcome State Fault Refusal :=
  s.command h 0x0C05 fun s =>
    let k := s.portSt p
    let want := max 1 modeSel
    if 4 ≤ p ∨ 3 < modeSel then s.refuse h 0x0C05 stBadArg
    else
      let s1 := if want = max 1 k.modeSel then s else s.writeMode p want
      let s2 := if enable = k.enable ∧ k.state ≠ .draining then s1 else if enable then s1.enablePort p else s1.disablePort p
      s2.enableAnswer h 0x0C05 enable (k.state == .draining) k.pendingOn (s2.portSt p).state.code

/-! ### Time-outs, R437 -/

/-- A RETIRE of one page that has not come to its end is undone; a bank stays retired. -/
def State.undoRetire (s : State) (r : Retiring) : State :=
  let s1 := s.onCtl fun k => { k with retires := k.retires.filter (· != r) }
  if r.bank then s1
  else if r.tier = 0 then s1.modSlice r.unit fun sl => { sl with
    copying := sl.copying.filter fun x => !r.pages.contains x.1, retiring := sl.retiring.filter fun p => !r.pages.contains p }.recount
  else s1.modOuter r.unit fun o => { o with
    copying := o.copying.filter fun x => !r.pages.contains x.1, retiring := o.retiring.filter fun p => !r.pages.contains p }

/-- End a command whose timeout has expired, with its whole effect taken back, and say whether its effect stands. -/
def State.timeOut (s : State) (c : Cmd) : State × Bool :=
  let h := c.hdr
  if !c.started then (s, false)
  else if c.op = 0x0505 then
    match s.work.epochs.find? fun e => match e.2.commit with | some x => x.2 = h | none => false with
    | some e => (s.discardEpoch e.1 stTimeout, false)
    | none => (s, false)
  else if c.op = 0x0601 then
    match s.ctl.opening.find? fun x => x.2 = h with
    | some x => (s.openFailed (lookD s.ctl.windows x.1 ({} : Win)).qp stTimeout, false)
    | none => (s, false)
  else if c.op = 0x0603 then
    match s.ctl.retires.find? fun r => r.hdr = h with
    | some r => (s.undoRetire r, r.bank)
    | none => (s, false)
  else if c.op = 0x0102 then (s.onFw fun f => { f with resetCmd := none }, true)
  else if c.op = 0x0A04 ∧ s.ident.cocoonCmd.any (fun x => decide (x.1 = h)) then (s.onIdent fun i => { i with cocoonCmd := none }, true)
  else match s.ctl.backs.find? fun b => b.hdr = h && b.op == c.op with
  | some b =>
    let s1 := (s.onCtl fun k => { k with backs := k.backs.erase b }).handBack h.path { window := b.window, buffer := b.buffer } 0 stTimeout
    (if b.closes then s1.closeWindow b.window else s1, b.closes)
  | none => (s, false)

/-- COMMAND_TIMEOUT, R437: the command is answered TIMEOUT with Effect_Applied as its effect stands. -/
def execCommandTimeout (h : CmdHdr) (applied : Bool) (s : State) : Host.Outcome State Fault Refusal :=
  match s.ctl.inProgress.find? fun c => c.hdr = h with
  | none => .next s
  | some c =>
    let r := s.timeOut c
    if r.2 ≠ applied then .next s else .next (r.1.respond h c.op stTimeout r.2 0 [])

end Sys2Proof.Machine
end

