-- ==== Sys2Proof/Machine/CmdSecurity.lean ====
section
/-!
DEFINITION. The mailbox commands of sessions, ownership, tenancy, attestation, cocoon, MACsec keys and the guest firewall (R568 to
R592), and those of firmware (R473 to R477).
-/

namespace Sys2Proof.Machine

/-! ### Sessions and ownership, R572 to R576 -/

/-- A signed object spends its Counter (R570). -/
def State.spend (s : State) (key : BitVec 512) (counter : Nat) : State := s.onIdent fun i => i.setCounter key counter

/-- A key is installed: its Counter restarts from 0 (R570). -/
def State.freshKey (s : State) (key : BitVec 512) : State := s.onIdent fun i => i.setCounter (hashOf key) 0

/-- The body of a session token is well formed, R575. -/
def tokenOk (b : List Byte) : Bool :=
  let role := field b 0 1
  (role == 1 || role == 2) && decide (field b 1 1 < 4) && (role == 2 || field b 1 1 == 0) && decide (field b 2 1 < 2) &&
    zeroAt b 3 4 && zeroAt b 0x18 0x20 && (field b 2 1 == 0 || zeroAt b 8 0x18)

/-- The key that a token's Role and slot name. -/
def State.roleKey (s : State) (b : List Byte) : Option (BitVec 512) :=
  if field b 0 1 = 1 then s.ident.owner else (look s.ident.tenants (field b 1 1)).map (·.key)

/-- The token names the path that carries its command: on the ring, the remote GID of the holder's queue pair (R575). -/
def State.bindOk (s : State) (p : Path) (b : List Byte) : Bool :=
  match p with
  | .i2c => field b 2 1 == 1
  | .ring => field b 2 1 == 0 && match s.ctl.holder.bind fun q => look s.net.qps q with
    | some x => x.remoteGid.toNat == beField b 8 16
    | none => false

/-- OPEN_SESSION, R575. -/
def execOpenSession (h : CmdHdr) (b : BufRef) (o : SObj) (s : State) : Host.Outcome State Fault Refusal :=
  s.command h 0x0105 fun s => s.withBuf h 0x0105 b fun bs s =>
    let o := objIn o bs
    if !o.wellFormed ∨ o.type ≠ 0x20 ∨ o.body.length ≠ 32 ∨ !tokenOk o.body then (s, stBadArg, 0, [])
    else match s.roleKey o.body with
    | none => (s, stDenied, 0, [])
    | some key =>
      match s.objRefusal o [0x20] 32 (hashOf key) with
      | some st => (s, st, 0, [])
      | none =>
        if !s.bindOk h.path o.body then (s, stDenied, 0, [])
        else
          let life := field o.body 4 4
          let x : Session := {
            owner := field o.body 0 1 == 1, slot := field o.body 1 1
            endTime := if life = 0 then none else some (s.now + life * 1000000000) }
          ((s.spend (hashOf key) o.counter).onIdent fun i => match h.path with
            | .ring => { i with sessRing := some x }
            | .i2c => { i with sessI2c := some x }, stOk, 0, [])

/-- The key and the acceptance of an ownership object, R572: a status where it is refused. -/
def State.ownershipRefusal (s : State) (p : Path) (o : SObj) : Option Nat :=
  let own := s.ident.owner
  let size := if o.type = 3 then 32 else 64
  let signer := match o.type, own with
    | 1, _ => hashOf (keyAt o.body 0)
    | _, some k => hashOf k
    | _, none => 0
  if !o.wellFormed ∨ ! [1, 2, 3].contains o.type ∨ o.body.length ≠ size ∨ (o.type = 3 ∧ !zeroAt o.body 0 32) then some stBadArg
  else if o.type = 1 ∧ (own.isSome ∨ p ≠ .i2c) then some stDenied
  else if o.type ≠ 1 ∧ (own.isNone ∨ !s.ident.clean) then some stDenied
  else if o.type = 2 ∧ o.signer2 ≠ hashOf (keyAt o.body 0) then some stDenied
  else s.objRefusal o [1, 2, 3] size signer

/-- TAKE_OWNERSHIP, R572, R573: every session ends. -/
def execTakeOwnership (h : CmdHdr) (b : BufRef) (o : SObj) (s : State) : Host.Outcome State Fault Refusal :=
  s.command h 0x0A01 fun s => s.withBuf h 0x0A01 b fun bs s =>
    let o := objIn o bs
    match s.ownershipRefusal h.path o with
    | some st => (s, st, 0, [])
    | none =>
      let key := keyAt o.body 0
      let s1 := s.spend o.signer o.counter
      let s2 := if o.type = 3 then s1.onIdent fun i => { i with owner := none }
        else (s1.onIdent fun i => { i with owner := some key }).freshKey key
      let s3 := (s2.endSessions fun _ => true).onLife fun l => { l with ownerChanges := satAdd 16 l.ownerChanges 1 }
      (s3.logEvent .ownershipChanged {}, stOk, 0, [])

/-- The body of a tenant record is well formed, R574. -/
def tenantOk (op : Nat) (b : List Byte) : Bool :=
  decide (field b 0 1 < 4) && (if op = 0 then zeroAt b 1 2 && zeroAt b 4 0x20 && field b 2 2 &&& 0xE003 == 0 else zeroAt b 1 0x20)

/-- TENANT, R573, R574: op 0 installs, 1 removes. -/
def execTenant (h : CmdHdr) (op : Nat) (b : BufRef) (o : SObj) (s : State) : Host.Outcome State Fault Refusal :=
  s.command h 0x0A02 fun s => s.withBuf h 0x0A02 b fun bs s =>
    let o := objIn o bs
    let size := if op = 0 then 0x60 else 0x20
    let slot := field o.body 0 1
    if 1 < op ∨ !tenantOk op o.body then (s, stBadArg, 0, [])
    else match s.ident.owner with
    | none => (s, stDenied, 0, [])
    | some k =>
      match s.objRefusal o [0x10 + op] size (hashOf k) with
      | some st => (s, st, 0, [])
      | none =>
        let s1 := (s.spend (hashOf k) o.counter).endSessions fun x => !x.owner && x.slot == slot
        if op = 1 then (s1.onIdent fun i => { i with tenants := del i.tenants slot }, stOk, 0, [])
        else
          let key := keyAt o.body 0x20
          ((s1.freshKey key).onIdent fun i => { i with
            clean := false, tenants := put i.tenants slot { key := key, groups := field o.body 2 2 } }, stOk, 0, [])

/-! ### Attestation and the service-life record -/

/-- Write objects of which the first is signed now: it counts as signed when the buffer takes it (R571). -/
def State.outSigned (s : State) (h : CmdHdr) (op : Nat) (b : BufRef) (bs : List Byte) : State :=
  let s1 := if (s.bufRefusal h.path b 1).isNone ∧ bs.length ≤ s.bufLen h.path b then s.countSigned else s
  s1.outBuf h op b bs (BitVec.ofNat 32 bs.length) []

/-- GET_QUOTE, R579. -/
def execGetQuote (h : CmdHdr) (nonce : BitVec 256) (b : BufRef) (s : State) : Host.Outcome State Fault Refusal :=
  s.command h 0x0A03 fun s =>
    let role := match s.session h.path with | some x => if x.owner then 1 else 2 | none => 0
    s.outSigned h 0x0A03 b (pad64 (s.signed 0x41 (s.quoteBody nonce role)) ++ pad64 s.dakCert ++ pad64 s.deviceCert)

/-- GET_CONDITION_REPORT, R591; it runs in READY, COMPUTE_RESET and COCOON. -/
def execGetConditionReport (h : CmdHdr) (b : BufRef) (s : State) : Host.Outcome State Fault Refusal :=
  s.command h 0x0A05 fun s =>
    let wipe := match s.ident.wipeCert with | some c => pad64 c | none => []
    s.outSigned h 0x0A05 b (pad64 (s.signed 0x42 s.conditionBody) ++ wipe ++ pad64 s.dakCert ++ pad64 s.deviceCert)

/-- RESET_SERVICE_COUNTERS, R589. -/
def execResetServiceCounters (h : CmdHdr) (b : BufRef) (o : SObj) (s : State) : Host.Outcome State Fault Refusal :=
  s.command h 0x0A06 fun s => s.withBuf h 0x0A06 b fun bs s =>
    let o := objIn o bs
    let reason := field o.body 0 1
    match s.ident.owner with
    | none => (s, stDenied, 0, [])
    | some k =>
      match if (reason = 1 ∨ reason = 2) ∧ zeroAt o.body 1 32 then s.objRefusal o [0x30] 64 (hashOf k) else some stBadArg with
      | some st => (s, st, 0, [])
      | none =>
        let t := s.poweredS
        let s1 := (s.spend (hashOf k) o.counter).onLife fun l => { l with
          energyAtReset := l.energy, svcCycles := [], svcTrips := 0, svcSwitchovers := 0, resetAtS := t
          serviceResets := satAdd 16 l.serviceResets 1 }
        let s2 := s1.onHeat fun x => { x with
          rth := mapTab x.rth fun _ r => ({ r with sinceReset := 0, baseline := 0, firsts := [] } : Rth) }
        (s2.writeBlock.logEvent .serviceReset { detail := reason }, stOk, 0, [])

/-! ### Cocoon, R583 -/

/-- Step 2: every task, request and epoch ends; collectives are aborted; service sets, windows but the one named, regions but region 0
and fine-tuning jobs end. The INBOX_PRESSURE pins keep their levels until COCOON_WIPE_DONE clears the channels: R40 and R583 say nothing
of the time between (DESIGN CHOICE, log entry 161). -/
def State.clearForCocoon (s : State) (keep : Nat) : State :=
  let s1 := (keys s.work.epochs).foldl (fun s e => s.discardEpoch e stDenied) s
  let s2 := s1.tasksL.foldl (fun s t =>
    if t.state.final then s else (s.dropWaves t.id).finishTask t.id .cancelled stDenied) s1
  let s3 := s2.work.colls.foldl (fun s c => if s2.collOpen c ∨ s1.collOpen c then
    (List.range c.members.length).foldl (fun s r => s.sendAbort c r stDenied) s else s) s2
  let s4 : State := { s3 with
    work := { s3.work with colls := [] }
    outers := mapTab s3.outers fun _ o => ({ o with ops := [], running := [] } : Outer) }
  let qps := (s4.net.qps.filter fun q => match q.2.kind with | .service _ => true | _ => false).map (·.1)
  let s5 := qps.foldl (fun s q => s.closeQp q) (s4.endStreams qps)
  let s6 := s5.onSvc fun v => { v with sets := [], fts := [], passes := [] }
  let s7 := ((keys s6.ctl.windows).filter (· != keep)).foldl (fun s w =>
    let s1 := if (look s.ctl.opening w).isSome then s.openFailed (lookD s.ctl.windows w ({} : Win)).qp stNotReady else s
    if (look s1.ctl.windows w).isSome then s1.closeWindow w else s1) s6
  s7.onNet fun n => { n with regions := mapTab n.regions fun i r =>
    if i = 0 then r else ({ r with registered := false } : Region) }

/-- Bytes of a wipe certificate: envelope, body and signature. -/
def wipeCertSize : Nat := 0x80 + 512 + 49856

/-- ENTER_COCOON, R583: it waits for a compute reset to end, and is answered when the cocoon is over. -/
def execEnterCocoon (h : CmdHdr) (b : BufRef) (s : State) : Host.Outcome State Fault Refusal :=
  if s.fw.resetStep ≠ 0 then .next s
  else s.command h 0x0A04 fun s =>
    let switching := match s.fw.activation with | .switching _ | .paused _ => true | _ => false
    let wall := match s.ctl.inProgress.find? fun c => c.hdr = h with | some c => c.wall | none => 0
    if switching then s.refuse h 0x0A04 stBusy
    else match s.bufRefusal h.path b 1 with
    | some st => s.refuse h 0x0A04 st
    | none =>
      if s.bufLen h.path b < wipeCertSize then s.refuse h 0x0A04 stBadArg (BitVec.ofNat 32 wipeCertSize)
      else
        let s1 : State := { s with
          dev := .cocoon
          ident := { s.ident with
            cocoonPending := true, cocoonStep := 2, cocoonCmd := some (h, b), cocoonStart := s.now, cocoonWall := wall
            wipeDone := false, flashDone := false } }
        s1.clearForCocoon b.window

/-! ### MACsec keys, R403, R578 -/

/-- There is room for a receive association: four secure channels, two associations each. -/
def PortSt.rxRoom (k : PortSt) (sci : Dword) (an : Nat) : Bool :=
  let rx := k.sas.filter fun a => !a.tx
  let mine := rx.filter fun a => a.sci == sci && a.an != an
  decide (mine.length < 2) && (rx.any (fun a => a.sci == sci) || decide ((rx.map (·.sci)).eraseDups.length < 4))

/-- MACSEC_KEY: a transmit association becomes the active one between frames. -/
def execMacsecKey (h : CmdHdr) (port : Nat) (tx : Bool) (an : Nat) (sci : Dword) (ssci : Word) (b : BufRef) (unwrapOk : Bool)
    (s : State) : Host.Outcome State Fault Refusal :=
  s.command h 0x0A07 fun s => s.withBuf h 0x0A07 b fun bs s =>
    let k := s.portSt port
    let tenant := match s.session h.path with | some x => !x.owner | none => false
    let sa : MacsecSa := { tx := tx, an := an, sci := sci, ssci := ssci, pn := 1, byTenant := tenant }
    if 4 ≤ port ∨ 4 ≤ an ∨ bs.length ≠ 1640 ∨ !unwrapOk ∨ (!tx ∧ !k.rxRoom sci an) then (s, stBadArg, 0, [])
    else if tx then
      (s.modPort port fun k => { k with
        sas := (k.sas.filter fun a => !(a.tx && (a.an == an || a.sci != sci))) ++ [sa], txAn := an, pnExhausted := false }, stOk, 0, [])
    else
      (s.modPort port fun k => { k with
        sas := (k.sas.filter fun a => !(!a.tx && a.an == an && a.sci == sci)) ++ [sa] }, stOk, 0, [])

/-! ### The guest firewall, R580 -/

/-- A window lies wholly where R580 lets it: in the inner-slice region or the placeable part of outer memory. -/
def State.guestRange (s : State) (base size : Nat) : Bool :=
  decide (base + size ≤ 32768 * sliceStride) || (List.range 12).any fun m => s.placeable m (base, size)

/-- The placer moves the shards that lie in a range elsewhere, as far as they are not in use and there is room (R179, R580). -/
def State.vacate (s : State) (r : Nat × Nat) : State :=
  (s.work.placed.filter fun p => overlaps (p.addr, p.bytes) r).foldl (fun s p =>
    if s.inUse p.handle ∨ s.claimed p.addr p.bytes then s
    else match s.allocAny p.bytes with
    | none => s
    | some a => s.relocate p a) s

/-- GUEST_FIREWALL, R3, R580: Size 0 disables a window; memory that cannot be vacated answers RETRY. -/
def execGuestFirewall (h : CmdHdr) (index base size mask rate : Nat) (s : State) : Host.Outcome State Fault Refusal :=
  s.command h 0x0A08 fun s =>
    let w : GuestWin := { base := base, size := size, mask := mask, rate := rate, since := s.now }
    if !s.fw.guestPop ∨ 8 ≤ index then s.refuse h 0x0A08 stBadArg
    else if size = 0 then (s.onIdent fun i => { i with guestWins := del i.guestWins index }).done h 0x0A08
    else if base % 65536 ≠ 0 ∨ size % 65536 ≠ 0 ∨ 4 ≤ mask ∨ rate = 0 ∨ 64000 < rate ∨ !s.guestRange base size then
      s.refuse h 0x0A08 stBadArg
    else
      let s1 := (s.onIdent fun i => { i with guestWins := put i.guestWins index w }).vacate (base, size)
      if s1.placedRanges.any (overlaps (base, size)) then s.refuse h 0x0A08 stRetry else s1.done h 0x0A08

/-! ### Firmware, R473 to R477 -/

/-- STAGE_FIRMWARE, R456 to R458, R473: the bundle is what the bytes of the buffer give; the operand states the outcome of verifying its
signature, and whether the flash reads back what was written. A bundle that does not read back leaves its slot to a background erase. Fw_Event tells
that a staging which wrote the slot has ended (R427). -/
def execStageFirmware (h : CmdHdr) (b : BufRef) (info : BundleInfo) (readBackOk : Bool) (s : State) :
    Host.Outcome State Fault Refusal :=
  s.command h 0x0901 fun s =>
    let a := s.fw.chrysalis
    if s.fw.activation ≠ .idle ∨ s.fw.erasing = some a then s.refuse h 0x0901 stBusy
    else s.withBuf h 0x0901 b fun bs s =>
      let info := bundleOf bs info.signatureOk
      if !info.headerOk ∨ !s.fw.keyOk info ∨ !info.signatureOk then (s, stBadArg, 0, [])
      else if !s.fw.rollbackOk info then (s, stDenied, 0, [])
      else if !readBackOk ∨ !info.componentsOk then
        (((s.modSlot a fun _ => { state := .staging }).onFw fun f => { f with erasing := some a }).alert alFw, stBadArg, 0, [])
      else ((s.modSlot a fun _ => { state := .staged, bundle := some info }).alert alFw, stOk, 0, keyBytes info.digest)

/-- ACTIVATE_FIRMWARE, R474, R475, R477. -/
def execActivateFirmware (h : CmdHdr) (digest : BitVec 512) (s : State) : Host.Outcome State Fault Refusal :=
  s.command h 0x0902 fun s =>
    match s.activationCheck digest with
    | some st => s.refuse h 0x0902 st
    | none =>
      if s.fw.activation ≠ .idle then s.refuse h 0x0902 stBusy
      else if s.emergency then
        ((s.onFw fun f => { f with activation := .deferred digest, fwDeferred := true }).alert alFw).respond h 0x0902 stDeferred true 0 []
      else s.startActivation.done h 0x0902

/-- GET_FIRMWARE: the versions of the active, chrysalis and recovery images, then their digests. -/
def execGetFirmware (h : CmdHdr) (s : State) : Host.Outcome State Fault Refusal :=
  s.command h 0x0903 fun s =>
    let bs := [s.activeBundle, s.stagedBundle, s.fw.recovery]
    s.done h 0x0903 (bs.flatMap (fun b => leBytes 8 (versionOf b)) ++ bs.flatMap fun b => leBytes 64 (digestOf b))

end Sys2Proof.Machine
end

