-- ==== Sys2Proof/Machine/Image.lean ====
section
/-!
DEFINITION. The Cewen program image (R134 to R138, R145, R147) and the verifier's checks of its sections (R140 codes 0x01 to 0x06,
R143). A check answers the first violation in the order of R143. Later checks are made only on images that passed the earlier ones.
-/

namespace Sys2Proof.Machine

/-- A violation as R143 reports it. -/
structure Viol where
  code    : Nat
  operand : Nat := 0
  kernel  : Nat := 0xFFFF
  offset  : Nat := 0xFFFF
  detail  : Nat := 0
  deriving DecidableEq, Repr

/-- The report of R143. -/
def Viol.report (v : Viol) : BitVec 128 :=
  BitVec.ofNat 128 (v.code + v.operand * 2 ^ 8 + v.kernel * 2 ^ 16 + v.offset * 2 ^ 32 + v.detail * 2 ^ 64)

/-- A violation outside every kernel: the section's Type and the entry's index; 0 and 0 for the header and the section table. -/
def outside (code type index : Nat) : Viol := { code := code, detail := type + index * 2 ^ 16 }
/-- A violation in a kernel record but in no instruction. -/
def inRecord (code kernel : Nat) : Viol := { code := code, kernel := kernel }

/-- The first violation of a list of checks. -/
def firstOf (l : List (Option Viol)) : Option Viol := l.findSome? id
/-- A violation unless a condition holds. -/
def need (ok : Bool) (v : Viol) : Option Viol := if ok then none else some v
/-- The first violation over the entries of a section, in rising index. -/
def overEntries {α : Type} (l : List α) (f : Nat → α → Option Viol) : Option Viol := firstOf (l.mapIdx f)

/-! ### Sections, R134, R135 -/

/-- An entry of the section table. -/
structure Sec where
  type  : Nat
  count : Nat
  off   : Nat
  size  : Nat
  deriving DecidableEq, Repr

/-- Bytes from `off` of a size are all zero. -/
def zeroIn (img : List Byte) (off size : Nat) : Bool := zeroAt img off (off + size)

def secEntry (img : List Byte) (i : Nat) : Sec :=
  let a := 128 + 16 * i
  { type := field img a 2, count := field img (a + 4) 4, off := field img (a + 8) 4, size := field img (a + 12) 4 }

/-- The section table; Section_Count is at most 8. -/
def secTable (img : List Byte) : List Sec := (List.range (min 8 (field img 0x0C 2))).map (secEntry img)

/-- A section by type; an absent one is empty. -/
def sec (img : List Byte) (type : Nat) : Sec :=
  ((secTable img).find? (·.type == type)).getD { type := type, count := 0, off := 0, size := 0 }

/-- The entries of a section of fixed-size entries. -/
def entries (img : List Byte) (type size : Nat) : List (List Byte) :=
  let x := sec img type
  (List.range x.count).map fun i => (img.drop (x.off + size * i)).take size

/-! ### Kernels, R136 -/

/-- A kernel record. -/
structure KRec where
  id        : Nat
  len       : Nat
  descCount : Nat
  far       : Nat
  zero      : Bool
  descFirst : Nat
  digest    : BitVec 512
  bytes     : List Byte
  deriving DecidableEq, Repr

/-- The records of the KERNELS section, each a header of 96 bytes and its instructions. -/
def kernelRecs (img : List Byte) : Nat → Nat → List KRec
  | 0, _ => []
  | n + 1, a =>
    let len := field img (a + 2) 2
    { id := field img a 2, len := len, descCount := field img (a + 4) 2, far := field img (a + 6) 1
      zero := zeroIn img (a + 7) 1 && zeroIn img (a + 0x0C) 20, descFirst := field img (a + 8) 4
      digest := BitVec.ofNat 512 (field img (a + 0x20) 64), bytes := (img.drop (a + 96)).take (32 * len) } ::
      kernelRecs img n (a + 96 + 32 * len)

/-- Insert by rising Kernel_Id. -/
def insertKernel (k : KRec) : List KRec → List KRec
  | [] => [k]
  | j :: r => if k.id < j.id then k :: j :: r else j :: insertKernel k r

def kernelsOf (img : List Byte) : List KRec := kernelRecs img (min 1024 (sec img 1).count) (sec img 1).off

/-- Kernels by rising Kernel_Id, the order of R143. -/
def kernelsById (img : List Byte) : List KRec := (kernelsOf img).foldl (fun l k => insertKernel k l) []

/-- Instruction `i` of a kernel: opcode and fields, R101. -/
def KRec.word (k : KRec) (i : Nat) : Nat := field k.bytes (32 * i) 32
def wordOp (w : Nat) : Nat := bits w 7 0
def wordFields (w : Nat) : IFields :=
  { mods := BitVec.ofNat 16 (bits w 23 8), dest := BitVec.ofNat 64 (bits w 87 24), srcA := BitVec.ofNat 64 (bits w 151 88)
    srcB := BitVec.ofNat 64 (bits w 215 152), aux := BitVec.ofNat 40 (bits w 255 216) }
def KRec.op (k : KRec) (i : Nat) : Nat := wordOp (k.word i)
def KRec.fields (k : KRec) (i : Nat) : IFields := wordFields (k.word i)

/-- Bytes that the records of a KERNELS section take. -/
def kernelBytes (ks : List KRec) : Nat := ks.foldl (fun n k => n + 96 + 32 * k.len) 0

/-! ### Tensors, templates, descriptors, plan -/

/-- A tensor declaration, R137; sizes above the rank are not used. -/
def tensorOf (b : List Byte) : TensorDecl :=
  { id := field b 0 4, rank := field b 4 1, format := field b 5 1, cls := field b 6 1
    dims := (List.range 4).map fun i => field b (8 + 4 * i) 4, sizeBytes := field b 0x18 8
    valueBound := field b 0x20 4, indexes := field b 0x24 4 }

def tensorsOf (img : List Byte) : List TensorDecl := (entries img 3 64).map tensorOf
def descsOf (img : List Byte) : List Desc := (entries img 4 64).map fun b => ⟨leNat b⟩
def findTensor (ts : List TensorDecl) (id : Nat) : Option TensorDecl := ts.find? (·.id == id)

/-- Size of dimension n of a tensor; 1 above its rank. -/
def TensorDecl.dim (t : TensorDecl) (n : Nat) : Nat := if n < t.rank then t.dims.getD n 1 else 1
/-- Flattened rows of a tensor. -/
def TensorDecl.flatRows (t : TensorDecl) : Nat := t.dim 1 * t.dim 2 * t.dim 3
/-- Bytes that a tensor's dimensions require, the scale rows of a block-scaled format included (R70; log entry 132). -/
def TensorDecl.needs (t : TensorDecl) : Nat :=
  let b := blockSize t.format
  ((t.dim 0 * elemBits t.format + 7) / 8 + (if b = 0 then 0 else ((t.dim 0 + b - 1) / b + 31) / 32 * 32)) * t.flatRows

/-- A task template, R145. -/
def templateOf (b : List Byte) : Template :=
  { id := field b 0 2, kernel := field b 2 2
    inputs := (List.range (min 8 (field b 4 1))).map fun i => field b (0x20 + 4 * i) 4
    outputs := (List.range (min 8 (field b 5 1))).map fun i => field b (0x40 + 4 * i) 4
    specCapable := bits (field b 6 2) 0 0 == 1, restartable := bits (field b 6 2) 1 1 == 1
    gridRows := field b 8 4, gridCols := field b 0x0C 4, tileRows := field b 0x10 4, tileCols := field b 0x14 4
    widthMin := field b 0x18 2, widthMax := field b 0x1A 2
    limitMs := if field b 0x1C 4 = 0 then 2000 else field b 0x1C 4, loadClass := field b 0x60 1, affinity := field b 0x61 1 }

/-- A shape-plan entry, R147. -/
def planOf (b : List Byte) : PlanEntry :=
  { tensor := field b 0 4, template := field b 4 2, split := field b 6 1, tier := field b 7 1, replicate := field b 8 1
    affinity := field b 9 1 }

/-! ### IMAGE_FORMAT, 0x01 -/

/-- Size of an entry of a section; kernel records have their own. -/
def entrySize (type : Nat) : Nat := match type with | 2 => 128 | 3 => 64 | 4 => 64 | 5 => 32 | _ => 0

/-- The header's fixed and reserved fields. -/
def headerOk (img : List Byte) : Bool :=
  field img 0 4 == 0x31495043 && field img 4 2 == 1 && decide (field img 6 2 < 2) && zeroIn img 0x0E 2 &&
    zeroIn img 0x50 48

/-- The section table: types 0x0001 to 0x0005, each once, reserved fields zero, and no section that overlaps another, the header or
the table, or extends past Image_Size; the entries lie within their sections. -/
def sectionsOk (img : List Byte) : Bool :=
  let n := min 8 (field img 0x0C 2)
  let t := secTable img
  (List.range n).all (fun i => zeroIn img (128 + 16 * i + 2) 2) &&
    t.all (fun x => decide (1 ≤ x.type) && decide (x.type ≤ 5) && (x.size == 0 || decide (128 + 16 * n ≤ x.off)) &&
      decide (x.off + x.size ≤ field img 8 4) && decide (x.count * entrySize x.type ≤ x.size)) &&
    decide ((t.map (·.type)).eraseDups.length = t.length) &&
    (List.range n).all (fun i => (List.range i).all fun j =>
      !overlapsSec ((t.getD i { type := 0, count := 0, off := 0, size := 0 })) (t.getD j { type := 0, count := 0, off := 0, size := 0 })) &&
    (sec img 1).off % 32 == 0 && decide (kernelBytes (kernelsOf img) ≤ (sec img 1).size)
where
  /-- Two sections share a byte. -/
  overlapsSec (x y : Sec) : Bool := decide (max x.off y.off < min (x.off + x.size) (y.off + y.size))

/-- A task template keeps R145. -/
def templateOk (img : List Byte) (i : Nat) (b : List Byte) : Bool :=
  let ids := (entries img 2 128).map fun x => field x 0 2
  let ts := tensorsOf img
  let names (off n : Nat) : Bool := (List.range 8).all fun j =>
    let v := field b (off + 4 * j) 4
    if j < n then (findTensor ts v).isSome else v == 0xFFFFFFFF
  let rows := field b 8 4
  let cols := field b 0x0C 4
  decide (field b 0 2 ≤ 4095) && !(ids.take i).contains (field b 0 2) && ((kernelsOf img).any fun k => k.id == field b 2 2) &&
    decide (field b 4 1 ≤ 8) && inRange (field b 5 1) 1 8 && decide (field b 6 2 < 4) && inRange rows 1 65535 && inRange cols 1 65535 &&
    decide (rows * cols < 2 ^ 24) && inRange (field b 0x18 2) 1 512 && inRange (field b 0x1A 2) (field b 0x18 2) 512 &&
    names 0x20 (field b 4 1) && names 0x40 (field b 5 1) && decide (field b 0x60 1 ≤ 3) && zeroIn b 0x62 30

/-- A shape-plan entry keeps R147. -/
def planOk (img : List Byte) (b : List Byte) : Bool :=
  decide (field b 6 1 ≤ 3) && decide (field b 7 1 ≤ 3) && decide (field b 8 1 ≤ 2) && zeroIn b 0x0A 22 &&
    (findTensor (tensorsOf img) (field b 0 4)).isSome && ((entries img 2 128).any fun x => field x 0 2 == field b 4 2)

/-- A kernel record's own fields: its number is in range and not that of an earlier record, Far_Budget is 1 to 32, reserved bytes are
zero. -/
def recordOk (ks : List KRec) (k : KRec) : Bool :=
  decide (k.id ≤ 1023) && decide ((ks.filter fun j => j.id == k.id).length = 1) && inRange k.far 1 32 && k.zero

def checkFormat (img : List Byte) : Option Viol :=
  firstOf [
    need (headerOk img && sectionsOk img) (outside 1 0 0),
    overEntries (entries img 2 128) (fun i b => need (templateOk img i b) (outside 1 2 i)),
    overEntries (entries img 5 32) (fun i b => need (planOk img b) (outside 1 5 i)),
    firstOf ((kernelsById img).map fun k => need (recordOk (kernelsOf img) k) (inRecord 1 k.id))]

/-! ### IMAGE_SIZE, 0x02, and DIGEST_MISMATCH, 0x03 -/

/-- Counts outside the ranges of R134 to R136 break their limits, those below 1 too (log entry 132). -/
def checkSize (img : List Byte) : Option Viol :=
  firstOf [
    need (decide (img.length ≤ 2 ^ 26) && field img 8 4 == img.length && inRange (field img 0x0C 2) 1 8 &&
      inRange (sec img 1).count 1 1024 && decide ((sec img 3).count ≤ 65536)) (outside 2 0 0),
    firstOf ((kernelsById img).map fun k => need (inRange k.len 1 512 && decide (k.descCount ≤ 4096)) (inRecord 2 k.id))]

/-- The digest computed on receipt: over the whole image with the Digest field zero (R134, R144). -/
def imageDigest (img : List Byte) : BitVec 512 := shake256 (img.take 0x10 ++ List.replicate 64 0 ++ img.drop 0x50)

def checkDigest (img : List Byte) : Option Viol :=
  firstOf [
    need (field img 0x10 64 == (imageDigest img).toNat) (outside 3 0 0),
    firstOf ((kernelsById img).map fun k => need (shake256 k.bytes == k.digest) (inRecord 3 k.id))]

/-! ### TENSOR_DECL, 0x04 -/

def checkTensors (img : List Byte) : Option Viol :=
  let ts := tensorsOf img
  overEntries (entries img 3 64) fun i b =>
    let t := tensorOf b
    need (!((ts.take i).any fun x => x.id == t.id) && inRange t.rank 1 4 && elemBits t.format != 0 && decide (t.cls ≤ 5) &&
      zeroIn b 7 1 && zeroIn b 0x28 24 && decide (t.needs ≤ t.sizeBytes) && (t.cls != 3 || (findTensor ts t.indexes).isSome))
      (outside 4 3 i)

/-! ### DESC_TEMPLATE, 0x05, and INDEX_BOUND, 0x06 -/

/-- How far the boxes of a descriptor reach below its Base and past it, in bytes. -/
def Desc.reach (d : Desc) : Int × Int :=
  let term (n : Nat) : Int := ((d.size n : Int) - 1) * d.stride n
  let ts := [term 1, term 2, term 3]
  (ts.foldl (fun a t => a + min t 0) 0, ts.foldl (fun a t => a + max t 0) 0 + ((d.size 0 * elemBits d.fmt + 7) / 8 : Nat))

/-- A descriptor template keeps R119 but for alignment. -/
def Desc.formOk (d : Desc) : Bool :=
  bits d.raw 511 416 == 0 && bits d.raw 97 96 == 0 && bits d.raw 83 64 == 0 && d.kind != 3 && elemBits d.fmt != 0 &&
    blockSize d.fmt == 0 && bits d.raw 167 128 == 0 && (List.range 4).all fun n => decide (n < d.rank) || d.size n == 1

/-- The tensor of a template of Kind 0, and its byte offset (R138). -/
def Desc.tensor (d : Desc) : Nat := bits d.raw 63 32
def Desc.tensorOff (d : Desc) : Nat := bits d.raw 31 0

def descOk (ts : List TensorDecl) (d : Desc) : Bool :=
  d.formOk && (d.kind != 0 || match findTensor ts d.tensor with
    | none => false
    | some t => t.format == d.fmt && decide (0 ≤ (d.tensorOff : Int) + d.reach.1) &&
        decide ((d.tensorOff : Int) + d.reach.2 ≤ t.sizeBytes))

/-- The opcodes of the instructions that name template `i` as their tensor by Aux [11:0], over every kernel. -/
def descUses (img : List Byte) (i : Nat) : List Nat :=
  (kernelsOf img).flatMap fun k =>
    if i < k.descFirst ∨ k.descFirst + k.descCount ≤ i then []
    else (List.range k.len).filterMap fun o =>
      let op := k.op o
      if (inRange op 0x80 0x81 || inRange op 0xA0 0xA2) && bits (k.fields o).aux.toNat 11 0 == i - k.descFirst then some op else none

/-- Idx_Bound is 0 for any use but that of a GPAGE's data descriptor (R119): a template with another value is named by a GPAGE, and by
no other instruction. -/
def idxUseOk (img : List Byte) (i : Nat) (d : Desc) : Bool :=
  d.idxBound == 0 || (!(descUses img i).isEmpty && (descUses img i).all (· == 0xA2))

def checkDescs (img : List Byte) : Option Viol :=
  let ts := tensorsOf img
  let n := (sec img 4).count
  firstOf [
    overEntries (descsOf img) (fun i d => need (descOk ts d && idxUseOk img i d) (outside 5 4 i)),
    firstOf ((kernelsById img).map fun k => need (decide (k.descFirst + k.descCount ≤ n)) (inRecord 5 k.id))]

/-- The descriptor templates of a kernel, by slot. -/
def KRec.descs (k : KRec) (ds : List Desc) : List Desc := (ds.drop k.descFirst).take k.descCount

/-- A template's Idx_Bound is within its page table's entries, for every kernel that uses it (R123). -/
def idxOk (img : List Byte) (ds : List Desc) (i : Nat) (d : Desc) : Bool :=
  d.idxBound == 0 || (kernelsOf img).all fun k =>
    decide (i < k.descFirst) || decide (k.descFirst + k.descCount ≤ i) || match (k.descs ds)[d.idxSlot]? with
      | some p => decide (d.idxBound ≤ p.size 0 / 4)
      | none => true

def checkIndex (img : List Byte) : Option Viol :=
  let ts := tensorsOf img
  let ds := descsOf img
  firstOf [
    overEntries ts (fun i t => need (t.cls != 3 || match findTensor ts t.indexes with
      | some x => decide (t.valueBound ≤ x.flatRows)
      | none => true) (outside 6 3 i)),
    overEntries ds (fun i d => need (idxOk img ds i d) (outside 6 4 i))]

end Sys2Proof.Machine
end

