-- ==== Sys2Proof/Machine/Verify.lean ====
section
/-!
DEFINITION. The verifier's checks of instructions (R140 codes 0x07 to 0x14, 0x1B and 0x1C; R102 to R123, R141, R142), made for every
iteration of the enclosing loops (R139). Each reports the lowest Kernel_Id, then the lowest offset (R143); within one instruction
Dest comes before Src_A, Src_B and Aux.
-/

namespace Sys2Proof.Machine

/-- A kernel under verification: its record, its instructions and its descriptor templates. -/
structure VK where
  k      : KRec
  code   : List (Nat × IFields)
  descs  : List Desc
  nondet : Bool
  deriving DecidableEq, Repr

/-- The instructions of a kernel record. -/
def KRec.code (k : KRec) : List (Nat × IFields) := (List.range k.len).map fun i => (k.op i, k.fields i)

/-- The Nondet flag of an image, R134. -/
def nondetOf (img : List Byte) : Bool := bits (field img 6 2) 0 0 == 1

def vksOf (img : List Byte) : List VK :=
  let ds := descsOf img
  (kernelsById img).map fun k => { k := k, code := k.code, descs := k.descs ds, nondet := nondetOf img }

/-- The first violation of a check over the instructions of kernels: `f` names the operand of R143 when an instruction breaks it. -/
def overCode (vs : List VK) (code : Nat) (f : VK → Nat → Nat → IFields → Option Nat) : Option Viol :=
  vs.findSome? fun v => firstOf (v.code.mapIdx fun o x =>
    (f v o x.1 x.2).map fun k => { code := code, operand := k, kernel := v.k.id, offset := o })

/-! ### What each opcode uses, R106 -/

/-- What an operand field of an opcode is. -/
inductive Role where
  | unused | spad | acc | step | sched | origin
  deriving DecidableEq, Repr

/-- Dest, Src_A and Src_B of an opcode (R106, R107, R115, R118, R127). -/
def roles (op : Nat) (w : IFields) : Role × Role × Role :=
  if op = 0x02 then (.step, .step, .step)
  else if op = 0x07 ∨ op = 0x69 then (.spad, .unused, .unused)
  else if op = 0x09 then (.sched, .sched, .sched)
  else if op = 0x21 then (.acc, .spad, .spad)
  else if op = 0x22 then (.spad, .acc, if w.mods.getLsbD 3 then .spad else .unused)
  else if op = 0x23 then (.spad, .acc, .unused)
  else if op = 0x24 then (.acc, .spad, .unused)
  else if 0x40 ≤ op ∧ op ≤ 0x45 ∨ op = 0x48 ∨ 0x60 ≤ op ∧ op ≤ 0x64 ∨ op = 0x68 then (.spad, .spad, .spad)
  else if 0x46 ≤ op ∧ op ≤ 0x5A then (.spad, .spad, .unused)
  else if op = 0x80 then (.spad, .unused, .origin)
  else if op = 0x81 then (.unused, .spad, .origin)
  else if op = 0xA0 then (.spad, .spad, .unused)
  else if op = 0xA1 then (.unused, .spad, .spad)
  else if op = 0xA2 then (.spad, .unused, if w.srcB = 0 then .unused else .spad)
  else (.unused, .unused, .unused)

/-- Role of operand k: 0 Dest, 1 Src_A, 2 Src_B. -/
def roleAt (op : Nat) (w : IFields) (k : Nat) : Role :=
  let r := roles op w
  match k with | 0 => r.1 | 1 => r.2.1 | _ => r.2.2

def opField (w : IFields) (k : Nat) : Dword := match k with | 0 => w.dest | 1 => w.srcA | _ => w.srcB

/-- An opcode of the table of R106. -/
def opDefined (op : Nat) : Bool :=
  op ≤ 0x09 || inRange op 0x20 0x24 || inRange op 0x40 0x48 || inRange op 0x50 0x55 || inRange op 0x58 0x5A || inRange op 0x60 0x64 ||
    inRange op 0x68 0x69 || inRange op 0x80 0x81 || inRange op 0xA0 0xA2

def checkOpcode (vs : List VK) : Option Viol :=
  overCode vs 0x07 fun _ _ op _ => if opDefined op || decide (0xE0 ≤ op) then none else some 0

def checkPrivileged (vs : List VK) : Option Viol := overCode vs 0x08 fun _ _ op _ => if 0xE0 ≤ op then some 0 else none

/-! ### FIELD_RESERVED, 0x09, R104 -/

/-- The Modifiers bits below Step_Mask that an opcode defines. -/
def modMask (op : Nat) : Nat :=
  if op = 0x20 then 0x1F
  else if op = 0x21 ∨ op = 0x46 then 3
  else if op = 0x22 then 0xF
  else if 0x40 ≤ op ∧ op ≤ 0x45 ∨ op = 0x48 then 0xD
  else if op = 0x47 ∨ 0x50 ≤ op ∧ op ≤ 0x5A then 1
  else if 0x60 ≤ op ∧ op ≤ 0x64 then 0xC
  else if op = 0xA2 then 7 else 0

/-- The Aux bits that an opcode defines. -/
def auxMask (op : Nat) : Nat :=
  if op = 0x02 ∨ op = 0xA0 ∨ op = 0xA1 ∨ op = 0xA2 then 2 ^ 40 - 1
  else if op = 0x03 ∨ op = 0x20 then 0xFF
  else if op = 0x04 then 0xF
  else if op = 0x05 ∨ op = 0x06 then 0x1F
  else if op = 0x07 ∨ op = 0x80 ∨ op = 0x81 then 0xFFF
  else if op = 0x08 ∨ op = 0x22 ∨ op = 0x46 ∨ op = 0x69 then 0xFFFFFFFF
  else if op = 0x09 then 0x1FFF else 0

/-- Members of a chain, R127. -/
def chainLen (w : IFields) : Nat := bits w.aux.toNat 12 8 + 1

/-- The schedule bits of absent members that stand in one operand field, R127. -/
def schedRest (w : IFields) (k : Nat) : Nat := (opField w k).toNat / 2 ^ (12 * chainLen w - 64 * k)

/-- An operand field's own reserved bits are zero. -/
def fieldOk (op : Nat) (w : IFields) (k : Nat) : Bool :=
  let v := (opField w k).toNat
  match roleAt op w k with
  | .unused => v == 0
  | .spad => bits v 63 57 == 0
  | .acc => bits v 63 57 == 0 && bits v 15 8 == 0 && bits v 51 36 == 0
  | .step => bits v 63 32 == 0
  | .sched => schedRest w k == 0
  | .origin => true

/-- Modifiers [1:0] = 3 is reserved in CMMA, CCVT and VCVT (R104). -/
def modesOk (op : Nat) (w : IFields) : Bool := !((op == 0x21 || op == 0x22 || op == 0x46) && bits w.mods.toNat 1 0 == 3)

/-- R104 for one instruction. A Step_Mask bit of an operand that the opcode does not use, or of an accumulator operand, is no undefined
bit: R105 defines the three bits for every opcode (DESIGN CHOICE, log entry 166). -/
def checkFields (vs : List VK) : Option Viol :=
  overCode vs 0x09 fun _ _ op w =>
    if !fieldOk op w 0 then some 1
    else if !fieldOk op w 1 then some 2
    else if !fieldOk op w 2 then some 3
    else if (w.aux &&& BitVec.ofNat 40 (auxMask op)) != w.aux then some 4
    else if (bits w.mods.toNat 12 0 &&& modMask op) != bits w.mods.toNat 12 0 || !modesOk op w then some 0
    else none

/-! ### Loops -/

/-- Count, Body and Dyn of a LOOP, R107. -/
def loopMax (w : IFields) : Nat := bits w.aux.toNat 15 0
def loopBody (w : IFields) : Nat := bits w.aux.toNat 24 16
def loopDyn (w : IFields) : Bool := w.aux.getLsbD 25

/-- Offsets of the loops whose body holds an offset, outermost first. -/
def enclosing (code : List (Nat × IFields)) (o : Nat) : List Nat :=
  (List.range o).filter fun l => match code[l]? with
    | some (op, w) => op == 0x02 && decide (o ≤ l + loopBody w)
    | none => false

/-- The counts and fields of the enclosing loops, outermost first. -/
def loopsAt (code : List (Nat × IFields)) (o : Nat) : List (Nat × IFields) :=
  (enclosing code o).filterMap fun l => (code[l]?).map fun x => (loopMax x.2, x.2)

/-- The first answer over all iterations of loops given outermost first; iterations are given innermost first, as `loopSum` takes them. -/
def overIters {α : Type} (f : List (Nat × IFields) → Option α) : List (Nat × IFields) → List (Nat × IFields) → Option α
  | [], iters => f iters
  | (n, w) :: ls, iters => (List.range n).findSome? fun i => overIters f ls ((i, w) :: iters)

/-- Some iteration breaks a condition. -/
def someIter (code : List (Nat × IFields)) (o : Nat) (bad : List (Nat × IFields) → Bool) : Bool :=
  (overIters (fun it => if bad it then some () else none) (loopsAt code o) []).isSome

/-- What the loops add to operand k in an iteration, R105, R107. -/
def termAt (w : IFields) (k : Nat) (iters : List (Nat × IFields)) : Int :=
  if w.mods.getLsbD (15 - k) then loopSum iters (fun x => opField x k) else 0

/-- The address of a scratchpad operand in an iteration, before it is held to 16 bits. -/
def posAt (w : IFields) (k : Nat) (iters : List (Nat × IFields)) : Int := ((opnd (opField w k)).addr : Int) + termAt w k iters

/-- A scratchpad operand in an iteration. -/
def opndAt (w : IFields) (k : Nat) (iters : List (Nat × IFields)) : Opnd :=
  { opnd (opField w k) with addr := (posAt w k iters).toNat }

/-- Operand k is a scratchpad operand. -/
def isSpad (op : Nat) (w : IFields) (k : Nat) : Bool := roleAt op w k == .spad
/-- Operand k is a scratchpad operand whose format has an element width. -/
def hasWidth (op : Nat) (w : IFields) (k : Nat) : Bool := isSpad op w k && elemBits (opnd (opField w k)).fmt != 0

/-- The lowest of the three operand fields that breaks a condition, as R143 numbers it. -/
def badOperand (bad : Nat → Bool) : Option Nat := ((List.range 3).find? bad).map (· + 1)

/-! ### ADDR_ALIGN, 0x0A -/

/-- The scratchpad operand that a MOVE or GATHER instruction moves rows of. -/
def movedOperand (op : Nat) : Nat := match op with | 0x81 => 1 | 0xA1 => 2 | _ => 0

def slotOf (w : IFields) : Nat := bits w.aux.toNat 11 0
def isMoveGather (op : Nat) : Bool := inRange op 0x80 0x81 || inRange op 0xA0 0xA2
def isGather (op : Nat) : Bool := inRange op 0xA0 0xA2

/-- Col_Org of a MOVE or GATHER instruction (R120, R122). -/
def colOrg (op : Nat) (w : IFields) : Nat :=
  if isMove op then bits w.srcB.toNat 63 40 else if op = 0xA2 then 0 else bits w.aux.toNat 39 12

/-- A descriptor template's Base, strides and Dim0 row are multiples of 32 bytes, R119. -/
def descAligned (d : Desc) : Bool :=
  (if d.kind = 0 then d.tensorOff else d.base) % 32 == 0 && (List.range 4).all (fun n => d.stride n % 32 == 0) &&
    d.size 0 * elemBits d.fmt % 256 == 0

def checkAlign (ds : List Desc) (vs : List VK) : Option Viol :=
  (overEntries ds fun i d => need (descAligned d) (outside 0x0A 4 i)) <|>
  overCode vs 0x0A fun v o op w =>
    let bad (k : Nat) : Bool := isSpad op w k &&
      (decide (1 < (opnd (opField w k)).rows) && (opnd (opField w k)).stride % 32 != 0 ||
        someIter v.code o fun it => posAt w k it % 32 != 0)
    let col := isMoveGather op && colOrg op w * elemBits (opnd (opField w (movedOperand op))).fmt % 256 != 0
    (badOperand fun k => bad k || (k == 2 && isMove op && col)) <|> (if isGather op && col then some 4 else none)

/-! ### ADDR_BOUND, 0x0B -/

/-- A scratchpad operand's footprint lies within the scratchpad in an iteration. -/
def inScratch (w : IFields) (k : Nat) (it : List (Nat × IFields)) : Bool :=
  decide (0 ≤ posAt w k it) && decide ((opndAt w k it).foot ≤ 65536)

/-- The box of a MOVE lies inside its tensor in an iteration, R120. -/
def boxOk (op : Nat) (w : IFields) (d : Desc) (it : List (Nat × IFields)) : Bool :=
  let o := opnd (opField w (movedOperand op))
  let row : Int := (bits w.srcB.toNat 39 0 : Int) + termAt w 2 it
  decide (colOrg op w + o.cols ≤ d.size 0) && decide (0 ≤ row) && decide (row + o.rows ≤ d.flatRows)

/-- The slots that a MOVE or GATHER instruction names are below Desc_Count; a gather's columns lie inside its rows. -/
def slotsOk (v : VK) (op : Nat) (w : IFields) : Bool :=
  match v.descs[slotOf w]? with
  | none => false
  | some d => (op != 0xA2 || decide (d.idxSlot < v.descs.length)) &&
      (!isGather op || decide (colOrg op w + (opnd (opField w (movedOperand op))).cols ≤ d.size 0))

def checkBound (vs : List VK) : Option Viol :=
  overCode vs 0x0B fun v o op w =>
    let bad (k : Nat) : Bool := match roleAt op w k with
      | .spad => hasWidth op w k && someIter v.code o fun it => !inScratch w k it
      | .acc => decide (256 < (opnd (opField w k)).accBase + (opnd (opField w k)).entries)
      | .origin => match v.descs[slotOf w]? with
          | some d => someIter v.code o fun it => !boxOk op w d it
          | none => false
      | _ => false
    (badOperand bad) <|> (if isMoveGather op && !slotsOk v op w then some 4 else none)

/-! ### STRIDE_OVERFLOW, 0x0C -/

/-- Operand k is written by its instruction. -/
def isDest (op k : Nat) : Bool := k == 0 && op != 0x81 && op != 0xA1 || op == 0xA2

/-- The stride rules of R102; the destination of ACCST has a Stride of at least 16 × Cols even with one row (R116). -/
def strideOk (o : Opnd) (dest : Bool) : Bool :=
  decide (o.rows * o.stride ≤ 65536) &&
    (if blockSize o.fmt != 0 then decide (o.rowLen ≤ o.stride)
     else decide (o.rows ≤ 1) || decide (o.rowLen ≤ o.stride) || (o.stride == 0 && !dest))

def checkStride (vs : List VK) : Option Viol :=
  overCode vs 0x0C fun _ _ op w => badOperand fun k => hasWidth op w k &&
    (!strideOk (opnd (opField w k)) (isDest op k) || (op == 0x23 && k == 0 && decide ((opnd w.dest).stride < 16 * (opnd w.dest).cols)))

/-! ### OPERAND_OVERLAP, 0x0D -/

/-- Two operands overlap other than by being identical. -/
def overlapBad (x y : Opnd) : Bool := decide (x.addr < y.foot) && decide (y.addr < x.foot) && x != y

def checkOverlap (vs : List VK) : Option Viol :=
  overCode vs 0x0D fun v o op w =>
    let bad (k : Nat) : Bool := hasWidth op w 0 && hasWidth op w k && !isDest op k &&
      someIter v.code o fun it => overlapBad (opndAt w 0 it) (opndAt w k it)
    if bad 1 || bad 2 then some 1 else none

/-! ### SHAPE, 0x0E -/

/-- Columns fill whole bytes and whole blocks, R69, R70. -/
def colsOk (o : Opnd) : Bool :=
  (elemBits o.fmt != 4 || o.cols % 2 == 0) && (elemBits o.fmt != 6 || o.cols % 4 == 0) &&
    (blockSize o.fmt == 0 || o.cols % blockSize o.fmt == 0)

/-- An operand has so many rows and columns. -/
def Opnd.is (o : Opnd) (r c : Nat) : Bool := o.rows == r && o.cols == c

/-- Rows and columns of Src_B by Modifiers [3:2], R118. -/
def bShape (w : IFields) (a : Opnd) : Nat × Nat :=
  match bits w.mods.toNat 3 2 with | 0 => (a.rows, a.cols) | 1 => (1, a.cols) | 2 => (1, a.rows) | _ => (1, 1)

/-- The rows and columns of operand k suit its opcode (R76, R111, R113, R115, R116, R118, R122, R123). -/
def shapeOk (op : Nat) (w : IFields) (k : Nat) : Bool :=
  let d := opnd w.dest
  let a := opnd w.srcA
  let b := opnd w.srcB
  let (m, kk, n) := shapeOf (bits w.mods.toNat 1 0) (classOfPair a.fmt b.fmt)
  if op = 0x07 then k != 0 || d.is 1 2
  else if op = 0x21 then
    match k with
    | 0 => d.is a.rows b.rows
    | 1 => a.rows % m == 0 && a.cols % kk == 0
    | _ => b.rows % n == 0 && b.cols == a.cols
  else if op = 0x22 then
    match k with
    | 0 => d.is a.rows a.cols
    | 1 => true
    | _ => roleAt op w 2 == .unused || b.is 1 1 || b.is 1 2
  else if op = 0x23 then k != 0 || d.is a.rows a.cols
  else if op = 0x24 then k != 1 || a.is d.rows d.cols
  else if 0x58 ≤ op ∧ op ≤ 0x5A then k != 0 || d.is 1 a.rows
  else if 0x40 ≤ op ∧ op ≤ 0x68 then
    match k with
    | 0 => d.is a.rows a.cols
    | 1 => true
    | _ => roleAt op w 2 == .unused || b.is (bShape w a).1 (bShape w a).2
  else if op = 0xA0 then k != 1 || a.is 1 d.rows || a.is d.rows 1
  else if op = 0xA1 then k != 1 || a.is 1 b.rows || a.is b.rows 1
  else if op = 0xA2 then k != 2 || roleAt op w 2 == .unused || b.is 1 d.rows
  else true

/-- The widths on which a shape rule of operand k rests are known. -/
def shapeKnown (op : Nat) (w : IFields) (k : Nat) : Bool := !isSpad op w k || hasWidth op w k

def checkShape (vs : List VK) : Option Viol :=
  overCode vs 0x0E fun _ _ op w => badOperand fun k =>
    shapeKnown op w k && (!shapeOk op w k || (isSpad op w k && !colsOk (opnd (opField w k))))

/-! ### FORMAT, 0x0F -/

/-- The floating-point formats of VEC (R117) and of CCVT's results (R86). -/
def vecFloat (f : Nat) : Bool := f == fmtFP32 || f == 0x08 || f == 0x09 || f == 0x02 || f == 0x03
/-- The formats that the cube multiplies, R74. -/
def cubeFmt (f : Nat) : Bool := elemBits f != 0 && f != fmtFP32 && f != 0x0B && f != fmtAcc && f != fmtInt32 && f != 0x0E

/-- The pairings of R75. -/
def pairOk (fa fb : Nat) : Bool := if classOf fa = .sixteen ∨ classOf fb = .sixteen then fa == fb else true

/-- The descriptor's format, of the slot that an instruction names. -/
def slotFmt (v : VK) (w : IFields) : Nat := match v.descs[slotOf w]? with | some d => d.fmt | none => 0x1F

/-- The format of operand k suits its opcode (R75, R86, R111, R116, R117, R120, R122, R123). -/
def formatOk (v : VK) (op : Nat) (w : IFields) (k : Nat) : Bool :=
  let f := (opnd (opField w k)).fmt
  let fa := (opnd w.srcA).fmt
  if isMoveGather op then
    if k = movedOperand op then f == slotFmt v w && blockSize f == 0
    else if op = 0xA2 then f == fmtFP32 else f == fmtInt32
  else if op = 0x21 then cubeFmt f && (k != 2 || pairOk fa f)
  else if op = 0x22 then if k = 0 then vecFloat f else f == fmtFP32
  else if op = 0x23 ∨ op = 0x24 ∨ op = 0x68 then f == fmtAcc
  else if op = 0x46 then
    if k = 1 then vecFloat f || f == fmtInt32
    else if fa = fmtInt32 then f == fmtFP32 else vecFloat f || (f == fmtInt32 && fa == fmtFP32)
  else if op = 0x47 then blockSize f == 0 && f == fa
  else if op = 0x48 then if k = 0 then f == fmtInt8 else vecFloat f
  else if 0x58 ≤ op ∧ op ≤ 0x5A then if k = 0 then f == fmtFP32 else vecFloat f
  else if 0x40 ≤ op ∧ op ≤ 0x55 then vecFloat f
  else f == fmtInt32

/-- The page-table descriptor of a GPAGE is of format INT32, R123. -/
def tableFmtOk (v : VK) (w : IFields) : Bool :=
  match v.descs[slotOf w]? with
  | some d => (match v.descs[d.idxSlot]? with | some t => t.fmt == fmtInt32 | none => false)
  | none => false

def checkFormats (vs : List VK) : Option Viol :=
  overCode vs 0x0F fun v _ op w =>
    (badOperand fun k => match roleAt op w k with
      | .spad => elemBits (opnd (opField w k)).fmt == 0 || !formatOk v op w k
      | .acc => (opnd (opField w k)).fmt != fmtAcc
      | _ => false) <|> (if op == 0xA2 && !tableFmtOk v w then some 4 else none)

/-! ### Following the loops -/

/-- What is followed along the paths of a kernel: a step at an instruction, in an iteration; a join of the paths that a dynamic count
leaves open; how many iterations of a loop are followed. -/
structure Flow (σ : Type) where
  step : Nat → Nat → IFields → List (Nat × IFields) → σ → σ
  join : σ → σ → σ
  cap  : Nat → Nat

/-- Follow the instructions at offsets `lo` to `hi - 1`. -/
def Flow.walk {σ : Type} (F : Flow σ) (code : List (Nat × IFields)) : Nat → Nat → Nat → List (Nat × IFields) → σ → σ
  | 0, _, _, _, x => x
  | fuel + 1, lo, hi, iters, x =>
    if hi ≤ lo then x
    else match code[lo]? with
      | none => x
      | some (op, w) =>
        let x1 := F.step lo op w iters x
        if op = 0x02 then
          let e := min hi (lo + 1 + loopBody w)
          let n := F.cap (loopMax w)
          let run (y : σ) (i : Nat) : σ := F.walk code fuel (lo + 1) e ((i, w) :: iters) y
          let x2 := if loopDyn w then
              ((List.range n).foldl (fun (p : σ × σ) i => (run p.1 i, F.join p.2 (run p.1 i))) (x1, x1)).2
            else (List.range n).foldl run x1
          F.walk code fuel e hi iters x2
        else F.walk code fuel (lo + 1) hi iters x1

/-- Follow a whole kernel. -/
def Flow.run {σ : Type} (F : Flow σ) (v : VK) (x : σ) : σ := F.walk v.code (v.code.length + 1) 0 v.code.length [] x

/-- Keep the lower of two offsets, each with an operand. -/
def lower (x y : Option (Nat × Nat)) : Option (Nat × Nat) :=
  match x, y with
  | some a, some b => if b.1 < a.1 then some b else some a
  | none, b => b
  | a, none => a

/-- A violation at the offset and operand that a flow recorded. -/
def recorded (v : VK) (code : Nat) (x : Option (Nat × Nat)) : Option Viol :=
  x.map fun p => { code := code, operand := p.2, kernel := v.k.id, offset := p.1 }

/-! ### ACC_MODE, 0x10 -/

/-- The tiles that an ACLR with EXACT and an ACLR with F32 reach, and the first mismatch. -/
structure Modes where
  exact : BitVec 4 := 0
  f32   : BitVec 4 := 0
  bad   : Option (Nat × Nat) := none
  deriving DecidableEq, Repr

/-- The tiles of an accumulator operand as a mask. -/
def tileMask (o : Opnd) : BitVec 4 :=
  BitVec.ofNat 4 (((List.range 4).filter fun t => o.tiles.contains (t + 256)).foldl (fun n t => n + 2 ^ t) 0)

/-- The tiles, the mode they need, and the operand that names them (R80). -/
def modeNeed (op : Nat) (w : IFields) : Option (BitVec 4 × Bool × Nat) :=
  if op = 0x21 then
    some (tileMask (opnd w.dest), classOfPair (opnd w.srcA).fmt (opnd w.srcB).fmt == .sixteen, 1)
  else if op = 0x23 then some (tileMask (opnd w.srcA), false, 2)
  else if op = 0x24 then some (tileMask (opnd w.dest), false, 1) else none

/-- Two iterations of a loop meet every ACLR that reaches an instruction. -/
def modeFlow : Flow Modes where
  step o op w _ x :=
    if op = 0x20 then
      let t := BitVec.ofNat 4 (bits w.mods.toNat 3 0)
      let f := w.mods.getLsbD 4
      { x with exact := if f then x.exact &&& ~~~t else x.exact ||| t, f32 := if f then x.f32 ||| t else x.f32 &&& ~~~t }
    else match modeNeed op w with
      | some (t, f, k) =>
        if (if f then x.exact else x.f32) &&& t != 0 then { x with bad := lower x.bad (some (o, k)) } else x
      | none => x
  join x y := { exact := x.exact ||| y.exact, f32 := x.f32 ||| y.f32, bad := lower x.bad y.bad }
  cap n := min 2 n

def checkModes (vs : List VK) : Option Viol := vs.findSome? fun v => recorded v 0x10 (modeFlow.run v {}).bad

/-! ### REG_NONDET, 0x11, LOOP_STRUCT, 0x12, END_MISSING, 0x1C -/

/-- The offsets that RDREG reads (R111): CORE_LID, CYCLE_CNT, QDEPTH and IMEM_CTL only in an image whose Nondet flag is set. -/
def regOk (nondet : Bool) (off : Nat) : Bool :=
  off == 0x008 || off == 0x010 || off == 0x018 || (nondet && (off == 0x000 || off == 0x020 || off == 0x028 || off == 0x030))

def checkRegs (vs : List VK) : Option Viol :=
  overCode vs 0x11 fun v _ op w => if op = 0x07 ∧ !regOk v.nondet (bits w.aux.toNat 11 0) then some 4 else none

/-- A LOOP keeps R107. -/
def loopOk (code : List (Nat × IFields)) (o : Nat) (w : IFields) : Bool :=
  let outer := enclosing code o
  loopMax w != 0 && loopBody w != 0 && decide (o + loopBody w < code.length) && decide (outer.length < 4) &&
    outer.all (fun l => match code[l]? with | some x => decide (o + loopBody w ≤ l + loopBody x.2) | none => false) &&
    ((code.drop (o + 1)).take (loopBody w)).all fun x => x.1 != 0x01

/-- A violation of LOOP_STRUCT names no operand: Operand 0, though Count stands in Aux (DESIGN CHOICE, log entry 166). -/
def checkLoops (vs : List VK) : Option Viol :=
  overCode vs 0x12 fun v o op w => if op = 0x02 ∧ !loopOk v.code o w then some 0 else none

/-- One END, at the last offset; a kernel without one is reported at its last offset. -/
def checkEnd (vs : List VK) : Option Viol :=
  overCode vs 0x1C fun v o op _ => if (op == 0x01) == (o + 1 == v.code.length) then none else some 0

/-! ### BARRIER_PAIR, 0x13, and CHAIN_STRUCT, 0x14 -/

/-- An offset is that of a member of a chain, R127. -/
def inChain (code : List (Nat × IFields)) (o : Nat) : Bool :=
  (List.range o).any fun c => match code[c]? with
    | some (op, w) => op == 0x09 && decide (o ≤ c + chainLen w)
    | none => false

def isBar (op : Nat) : Bool := op == 0x05 || op == 0x06
def barId (w : IFields) : Nat := bits w.aux.toNat 3 0
def barScope (w : IFields) : Bool := w.aux.getLsbD 4

/-- Barrier instructions of an id, with their offsets. -/
def barsOf (code : List (Nat × IFields)) (id : Nat) : List (Nat × Nat × IFields) :=
  (code.mapIdx fun o x => (o, x.1, x.2)).filter fun x => isBar x.2.1 && barId x.2.2 == id

/-- A pair that begins at BARA at `o` closes before END: a BARW of its id comes before any END. -/
def closesOk (code : List (Nat × IFields)) (all : List (Nat × Nat × IFields)) (o : Nat) : Bool :=
  all.any fun x => decide (o < x.1) && ((code.take x.1).drop (o + 1)).all fun y => y.1 != 0x01

/-- A barrier instruction keeps R141: no dynamic loop and no chain holds it; BARA follows none or a BARW and has a BARW after it before
END; BARW follows a BARA of its scope and loop body. Of a pair that differs in scope or loop body the BARW is reported, which completes
the pair (DESIGN CHOICE, log entry 166). -/
def barOk (code : List (Nat × IFields)) (o op : Nat) (w : IFields) : Bool :=
  let all := barsOf code (barId w)
  let prev := (all.filter fun x => decide (x.1 < o)).getLast?
  !((loopsAt code o).any fun x => loopDyn x.2) && !inChain code o &&
    (if op = 0x05 then (match prev with | some p => p.2.1 == 0x06 | none => true) && closesOk code all o
     else match prev with
       | some p => p.2.1 == 0x05 && barScope p.2.2 == barScope w && enclosing code p.1 == enclosing code o
       | none => false)

/-- A violation of R141 names no operand: Operand 0 (DESIGN CHOICE, log entry 166). -/
def checkBarriers (vs : List VK) : Option Viol :=
  overCode vs 0x13 fun v o op w => if isBar op && !barOk v.code o op w then some 0 else none

/-- CUBE and VEC opcodes. -/
def isCube (op : Nat) : Bool := inRange op 0x20 0x24
def isVec (op : Nat) : Bool := inRange op 0x40 0x69

/-- The members of a chain stand in the kernel and in the chain's own loop body. -/
def chainPlaced (code : List (Nat × IFields)) (o : Nat) (w : IFields) : Bool :=
  decide (o + chainLen w < code.length) && (List.range (chainLen w)).all fun m => enclosing code (o + 1 + m) == enclosing code o

/-- The offset and the place in its chain of the CHAIN that holds an offset. -/
def chainOf (code : List (Nat × IFields)) (o : Nat) : Option (Nat × Nat) :=
  (List.range o).findSome? fun c => match code[c]? with
    | some (op, w) => if op = 0x09 ∧ o ≤ c + chainLen w then some (c, o - c - 1) else none
    | none => none

/-- The scheduled cycle of member `m` of a chain, R127. -/
def issueOf (w : IFields) (m : Nat) : Nat :=
  bits (w.dest.toNat + w.srcA.toNat * 2 ^ 64 + w.srcB.toNat * 2 ^ 128) (12 * m + 11) (12 * m)

/-- Detail of CHAIN_STRUCT (R143): the scheduled cycle of the member and no unit; a chain that crosses a loop body names the first member
outside its body. The earliest cycle is 0, as no cycle is legal (DESIGN CHOICE, log entry 166). -/
def structDetail (code : List (Nat × IFields)) (o op : Nat) (w : IFields) : Nat :=
  if op = 0x09 ∧ !inChain code o then
    match (List.range (chainLen w)).find? fun m =>
        decide (code.length ≤ o + 1 + m) || enclosing code (o + 1 + m) != enclosing code o with
    | some m => issueOf w m * 2 ^ 32 + (o + 1 + m) * 2 ^ 48
    | none => 0
  else match chainOf code o with
    | some (c, m) => issueOf ((code.getD c (0, w)).2) m * 2 ^ 32
    | none => 0

def checkChainStruct (vs : List VK) : Option Viol :=
  vs.findSome? fun v => firstOf (v.code.mapIdx fun o x =>
    need (!((x.1 == 0x09 && !chainPlaced v.code o x.2) || (inChain v.code o && !isCube x.1 && !isVec x.1)))
      { code := 0x14, kernel := v.k.id, offset := o, detail := structDetail v.code o x.1 x.2 })

/-! ### QUEUE_BUDGET, 0x1B, R142 -/

/-- Far instructions in the MOVE and the GATHER queue, and the first excess. -/
structure FarCount where
  move   : Nat := 0
  gather : Nat := 0
  bad    : Option (Nat × Nat) := none
  deriving DecidableEq, Repr

/-- An instruction whose descriptor has Kind 1 or 2, R121. -/
def isFar (v : VK) (op : Nat) (w : IFields) : Bool :=
  isMoveGather op && match v.descs[slotOf w]? with | some d => d.kind == 1 || d.kind == 2 | none => false

/-- The counts after an instruction. -/
def FarCount.after (x : FarCount) (v : VK) (op : Nat) (w : IFields) : FarCount :=
  let a := w.aux
  if op = 0x04 then { x with move := if a.getLsbD 2 then 0 else x.move, gather := if a.getLsbD 3 then 0 else x.gather }
  else if op = 0x03 then
    match bits a.toNat 1 0 with
    | 2 => { x with move := min x.move (bits a.toNat 7 2) }
    | 3 => { x with gather := min x.gather (bits a.toNat 7 2) }
    | _ => x
  else if isFar v op w then
    if isGather op then { x with gather := min 32 (x.gather + 1) } else { x with move := min 32 (x.move + 1) }
  else x

/-- The counts settle within 33 iterations, so 64 meet every value. The excess is reported with Operand 0, as no operand alone breaks the
bound (DESIGN CHOICE, log entry 166). -/
def farFlow (v : VK) : Flow FarCount where
  step o op w _ x :=
    let y := x.after v op w
    if v.k.far < y.move + y.gather then { y with bad := lower y.bad (some (o, 0)) } else y
  join x y := { move := max x.move y.move, gather := max x.gather y.gather, bad := lower x.bad y.bad }
  cap n := min 64 n

def checkBudget (vs : List VK) : Option Viol :=
  vs.findSome? fun v =>
    let deep := (v.code.mapIdx fun o x => (o, x.1, x.2)).find? fun x => x.2.1 == 0x03 && decide (31 < bits x.2.2.aux.toNat 7 2)
    recorded v 0x1B (lower (deep.map fun x => (x.1, 4)) ((farFlow v).run v {}).bad)

end Sys2Proof.Machine
end

