-- ==== Sys2Proof/Machine/ChainCheck.lean ====
section
/-!
DEFINITION. The verifier's checks of static chains (R140 codes 0x15 to 0x1A) on the timing model of R129: the reader schedule of R79,
the issue and landing cycles of R74, R78, R95 and R106, and the rules of R130. Ends with the verifier as a whole (R139, R143).
-/

namespace Sys2Proof.Machine

/-- An access of a chain member: a chain cycle (of a read, or of a landing), the unit of R129, the 32-byte sector when it is one of the
scratchpad, and the operand of R143. -/
structure Hit where
  cycle   : Nat
  unit    : Nat
  sector  : Option Nat
  operand : Nat
  deriving DecidableEq, Repr

/-- A member of a chain in one iteration: its offset, its issue cycle and its D. -/
structure Member where
  off    : Nat
  op     : Nat
  w      : IFields
  issue  : Nat
  d      : Nat
  reads  : List Hit
  writes : List Hit
  deriving DecidableEq, Repr

def sectorHit (cycle operand sector : Nat) : Hit := { cycle := cycle, unit := sector / 8, sector := some sector, operand := operand }
def tileHit (cycle operand entry : Nat) : Hit := { cycle := cycle, unit := 256 + entry / 64, sector := none, operand := operand }

/-! ### Sectors -/

/-- Sectors from one byte address to another, both included. -/
def sectorsTo (a b : Nat) : List Nat := (List.range (b / 32 + 1 - a / 32)).map (· + a / 32)

/-- The sectors of the elements from column j0 to j1 - 1 of row r. -/
def rowSectors (o : Opnd) (r j0 j1 : Nat) : List Nat :=
  sectorsTo (o.rowAddr r + elemBits o.fmt * j0 / 8) (o.rowAddr r + (elemBits o.fmt * j1 - 1) / 8)

/-- The sectors of the scales of those elements, R70. -/
def scaleSectors (o : Opnd) (r j0 j1 : Nat) : List Nat :=
  if blockSize o.fmt = 0 then []
  else sectorsTo (o.scaleAddr r + j0 / blockSize o.fmt) (o.scaleAddr r + (j1 - 1) / blockSize o.fmt)

/-- The sectors of entries e0 to e1 - 1 of an operand, in rising entry order. -/
def entrySectors (o : Opnd) (e0 e1 : Nat) : List Nat :=
  ((List.range (e1 - e0)).flatMap fun i => rowSectors o ((e0 + i) / o.cols) ((e0 + i) % o.cols) ((e0 + i) % o.cols + 1)).eraseDups

def ceilDiv (a b : Nat) : Nat := (a + b - 1) / b
/-- The least k with n at most 2^k; sizes are at most 1,024. -/
def ceilLog2 (n : Nat) : Nat := ((List.range 11).find? fun k => decide (n ≤ 2 ^ k)).getD 11

/-! ### The reader of R79 -/

/-- A step that waits to issue: its member, the first cycle it may issue in, sectors still to be read, entries of its output tile. -/
structure RStep where
  member  : Nat
  start   : Nat
  sects   : List (Nat × Nat)
  entries : List Nat
  deriving DecidableEq, Repr

/-- Sectors that a step uses, each with its operand: A before B, rows in rising order, elements before scales. In SHEET the row of A is
listed at the first step of an output row. A sector that both operands use is listed, and read, once for each (DESIGN CHOICE, log
entry 119). -/
def stepSectors (a b : Opnd) (sheet : Bool) (m kk n ti tj tk : Nat) : List (Nat × Nat) :=
  let part (o : Opnd) (r j0 j1 op : Nat) : List (Nat × Nat) := (rowSectors o r j0 j1 ++ scaleSectors o r j0 j1).map fun x => (x, op)
  let pa := if sheet then (if tj = 0 ∧ tk = 0 then part a ti 0 a.cols 2 else [])
    else (List.range m).flatMap fun i => part a (ti * m + i) (tk * kk) ((tk + 1) * kk) 2
  (pa ++ (List.range n).flatMap fun j => part b (tj * n + j) (tk * kk) ((tk + 1) * kk) 3).eraseDups

/-- The steps of a CMMA in the order of R76; a sector that the step before it in its output tile used is not listed again. -/
def stepsOf (idx issue : Nat) (w : IFields) (d a b : Opnd) : List RStep :=
  let shape := bits w.mods.toNat 1 0
  let (m, kk, n) := shapeOf shape (classOfPair a.fmt b.fmt)
  (List.range (a.rows / m)).flatMap fun ti => (List.range (b.rows / n)).flatMap fun tj => (List.range (a.cols / kk)).map fun tk =>
    let use (t : Nat) := stepSectors a b (shape == 2) m kk n ti tj t
    { member := idx, start := issue, sects := if tk = 0 then use 0 else (use tk).filter fun x => !(use (tk - 1)).contains x
      entries := (List.range m).flatMap fun i => (List.range n).map fun j => d.accBase + (ti * m + i) * d.cols + tj * n + j }

/-- What the reader takes in one cycle from the steps in reach: it stops at the first sector whose bank it has read in this cycle. -/
def takeSectors : List RStep → List Nat → List RStep × List (Nat × Nat × Nat)
  | [], _ => ([], [])
  | x :: r, banks => match x.sects with
    | [] => let (r1, t) := takeSectors r banks; (x :: r1, t)
    | _ => go x r banks x.sects []
where
  /-- The sectors of one step, then the steps after it. -/
  go (x : RStep) (r : List RStep) (banks : List Nat) : List (Nat × Nat) → List (Nat × Nat × Nat) → List RStep × List (Nat × Nat × Nat)
    | [], t => let (r1, t1) := takeSectors r banks; ({ x with sects := [] } :: r1, t.reverse ++ t1)
    | y :: ys, t =>
      if banks.contains (y.1 % 8) then ({ x with sects := y :: ys } :: r, t.reverse)
      else go x r (y.1 % 8 :: banks) ys ((x.member, y) :: t)

/-- What the reader does from cycle `t` on: reads, as member, cycle, sector and operand, and issues, as member, cycle and entries. In a
cycle the first waiting step issues when its sectors were read in earlier cycles; the reader reaches eight steps from it. The depth of
two rows of the activation latch holds back no sector of a third row (DESIGN CHOICE, log entry 119). -/
def runReader : Nat → Nat → List RStep → List (Nat × Hit) × List (Nat × Nat × List Nat)
  | 0, _, _ => ([], [])
  | _, _, [] => ([], [])
  | fuel + 1, t, x :: r =>
    let issues := x.sects.isEmpty && decide (x.start ≤ t)
    let (win, took) := takeSectors ((x :: r).take 8) []
    let rest := win ++ (x :: r).drop 8
    let (rs, is) := runReader fuel (t + 1) (if issues then rest.drop 1 else rest)
    (took.map (fun y => (y.1, sectorHit t y.2.2 y.2.1)) ++ rs, if issues then (x.member, t, x.entries) :: is else is)

/-- Latency of a CMMA, R74. -/
def cmmaLatency (shape : Nat) (cl : FClass) : Nat :=
  match shape, cl with
  | 0, .eight => 16 | 0, .four => 16 | 0, .sixteen => 12
  | 1, .eight => 18 | 1, .four => 18 | 1, .sixteen => 10
  | _, .eight => 4 | _, .four => 5 | _, .sixteen => 6

/-- Shape and class of a CMMA. -/
def cmmaKind (w : IFields) : Nat × FClass := (bits w.mods.toNat 1 0, classOfPair (opnd w.srcA).fmt (opnd w.srcB).fmt)

/-- Operands of an instruction in an iteration; an accumulator operand does not step. -/
def opAt (op : Nat) (w : IFields) (it : List (Nat × IFields)) (k : Nat) : Opnd :=
  if isSpad op w k then opndAt w k it else opnd (opField w k)

/-- The CMMA members that end a list of CUBE members, newest first, and continue one reader sequence (R77, R79). -/
def sameRun (kind : Nat × FClass) : List (Nat × Nat × Nat × IFields) → List (Nat × Nat × Nat × IFields)
  | [] => []
  | x :: r => if x.2.2.1 = 0x21 ∧ cmmaKind x.2.2.2 = kind then x :: sameRun kind r else []

/-- A CMMA member, after the CUBE members before it (newest first: index, issue cycle, opcode, fields). -/
def cmmaMember (it : List (Nat × IFields)) (before : List (Nat × Nat × Nat × IFields)) (idx off issue : Nat) (w : IFields) : Member :=
  let run := ((idx, issue, 0x21, w) :: sameRun (cmmaKind w) before).reverse
  let steps := run.flatMap fun x => stepsOf x.1 x.2.1 x.2.2.2 (opAt 0x21 x.2.2.2 it 0) (opAt 0x21 x.2.2.2 it 1) (opAt 0x21 x.2.2.2 it 2)
  let t0 := match run with | x :: _ => x.2.1 | [] => issue
  let fuel := 4096 + steps.foldl (fun n x => n + 1 + x.sects.length) 0
  let (rs, is) := runReader fuel t0 steps
  let mine := is.filter fun x => x.1 == idx
  { off := off, op := 0x21, w := w, issue := issue
    d := (mine.foldl (fun n x => max n (x.2.1 + 1)) issue) - issue
    reads := (rs.filter fun x => x.1 == idx).map (·.2)
    writes := mine.flatMap fun x =>
      ((x.2.2.map (· / 64)).eraseDups).map fun t => tileHit (x.2.1 + cmmaLatency (cmmaKind w).1 (cmmaKind w).2) 1 (64 * t) }

/-! ### The other members -/

/-- Lanes of a VEC instruction, R106. -/
def lanesOf (op : Nat) (w : IFields) : Nat :=
  let fs := ((List.range 3).filter (isSpad op w)).map fun k => (opnd (opField w k)).fmt
  if fs.any (fun f => f == fmtFP32 || f == fmtInt32) then 16
  else if fs.foldl (fun n f => max n (elemBits f)) 0 = 16 then 32 else 64

/-- A row-major instruction: `lanes` elements of a row per cycle, each read in its cycle and landing `lat` later. -/
def laneMember (off op issue : Nat) (w : IFields) (lanes lat : Nat) (x : Nat → Opnd) : Member :=
  let d := x 0
  let per := ceilDiv d.cols lanes
  let at_ (i : Nat) : Nat × Nat × Nat := (i / per, i % per * lanes, min d.cols (i % per * lanes + lanes))
  let hits (t k : Nat) (l : List Nat) : List Hit := l.map (sectorHit t k)
  let shape := if op = 0x68 then 0 else bits w.mods.toNat 3 2
  let n := d.rows * per
  { off := off, op := op, w := w, issue := issue, d := n
    reads := (List.range n).flatMap fun i =>
      let (r, j0, j1) := at_ i
      let t := issue + i
      (if op = 0x43 then hits t 1 (rowSectors d r j0 j1) else []) ++
        (if isSpad op w 1 then hits t 2 (rowSectors (x 1) r j0 j1) else []) ++
        (if isSpad op w 2 then hits t 3 (match shape with
          | 0 => rowSectors (x 2) r j0 j1
          | 1 => rowSectors (x 2) 0 j0 j1
          | 2 => rowSectors (x 2) 0 r (r + 1)
          | _ => rowSectors (x 2) 0 0 1) else [])
    writes := (List.range n).flatMap fun i =>
      let (r, j0, j1) := at_ i
      hits (issue + i + lat) 1 (rowSectors d r j0 j1) }

/-- A row reduction, R95. -/
def reduceMember (off op issue : Nat) (w : IFields) (x : Nat → Opnd) : Member :=
  let a := x 1
  let per := ceilDiv a.cols 16
  { off := off, op := op, w := w, issue := issue, d := a.rows * per + 4 + ceilLog2 a.cols
    reads := (List.range (a.rows * per)).flatMap fun i =>
      (rowSectors a (i / per) (i % per * 16) (min a.cols (i % per * 16 + 16))).map (sectorHit (issue + i) 2)
    writes := (List.range a.rows).flatMap fun r =>
      (rowSectors (x 0) 0 r (r + 1)).map (sectorHit (issue + (r + 1) * per + 3 + ceilLog2 a.cols) 1) }

/-- An instruction over entries or records in rising order, `rate` per cycle: what it reads and writes of entries e0 to e1 - 1. -/
def entryMember (off op issue : Nat) (w : IFields) (n rate lat : Nat) (rd wr : Nat → Nat → Nat → List Hit) : Member :=
  let d := ceilDiv n rate
  { off := off, op := op, w := w, issue := issue, d := d
    reads := (List.range d).flatMap fun i => rd (issue + i) (i * rate) (min n (i * rate + rate))
    writes := (List.range d).flatMap fun i => wr (issue + i + lat) (i * rate) (min n (i * rate + rate)) }

/-- Hits on scratchpad entries of an operand, and on the tiles of accumulator entries. -/
def spadHits (o : Opnd) (k t e0 e1 : Nat) : List Hit := (entrySectors o e0 e1).map (sectorHit t k)
def accHits (o : Opnd) (k t e0 e1 : Nat) : List Hit :=
  (((List.range (e1 - e0)).map fun i => (o.accBase + e0 + i) / 64).eraseDups).map fun u => tileHit t k (64 * u)

/-- ACLR clears the tiles it names, one per cycle (R114). -/
def aclrMember (off issue : Nat) (w : IFields) : Member :=
  let ts := (List.range 4).filter fun t => w.mods.getLsbD t
  { off := off, op := 0x20, w := w, issue := issue, d := max 1 ts.length, reads := []
    writes := ts.mapIdx fun i t => tileHit (issue + i + 2) 1 (64 * t) }

/-- A member of a chain. CCVT reads its scale operand Src_B in its issue cycle: R129 gives the order of its entries alone (DESIGN CHOICE,
log entry 166). -/
def memberOf (it : List (Nat × IFields)) (before : List (Nat × Nat × Nat × IFields)) (idx off issue op : Nat) (w : IFields) : Member :=
  let x := opAt op w it
  if op = 0x20 then aclrMember off issue w
  else if op = 0x21 then cmmaMember it before idx off issue w
  else if op = 0x22 then
    let m := entryMember off op issue w (x 0).entries 16 6 (accHits (x 1) 2) (spadHits (x 0) 1)
    { m with reads := m.reads ++ if isSpad op w 2 then (rowSectors (x 2) 0 0 (x 2).cols).map (sectorHit issue 3) else [] }
  else if op = 0x23 then entryMember off op issue w (x 0).entries 8 4 (accHits (x 1) 2) (spadHits (x 0) 1)
  else if op = 0x24 then entryMember off op issue w (x 1).entries 8 4 (spadHits (x 1) 2) (accHits (x 0) 1)
  else if op = 0x68 then
    entryMember off op issue w (x 0).entries 4 4 (fun t e0 e1 => spadHits (x 1) 2 t e0 e1 ++ spadHits (x 2) 3 t e0 e1) (spadHits (x 0) 1)
  else if 0x58 ≤ op ∧ op ≤ 0x5A then reduceMember off op issue w x
  else if 0x50 ≤ op ∧ op ≤ 0x55 then laneMember off op issue w 4 14 x
  else laneMember off op issue w (lanesOf op w) 4 x

/-- Index, issue cycle, opcode and fields of the members of the chain at an offset. -/
def chainList (code : List (Nat × IFields)) (c : Nat) (w : IFields) : List (Nat × Nat × Nat × IFields) :=
  (List.range (chainLen w)).map fun m =>
    let x := code.getD (c + 1 + m) (0, w)
    (m, issueOf w m, x.1, x.2)

/-- The members of the chain at an offset, in an iteration. -/
def membersOf (code : List (Nat × IFields)) (c : Nat) (w : IFields) (it : List (Nat × IFields)) : List Member :=
  let l := chainList code c w
  l.map fun x =>
    memberOf it ((l.take x.1).filter fun y => isCube y.2.2.1).reverse x.1 (c + 1 + x.1) x.2.1 x.2.2.1 x.2.2.2

/-! ### The rules of R130 -/

/-- The report of a chain code (R143): the member, an operand, a unit, the earliest legal cycle and the other member. -/
def chainViol (code : Nat) (m : Member) (operand unit earliest other : Nat) : Viol :=
  { code := code, operand := operand, offset := m.off
    detail := unit + min earliest 0xFFFF * 2 ^ 16 + m.issue * 2 ^ 32 + other * 2 ^ 48 }

def lastHit (l : List Hit) : Nat := l.foldl (fun n x => max n x.cycle) 0

/-- CHAIN_ORDER: after the engine's member before it and, for a CMMA of another shape or class, after the CMMA before it has landed. -/
def orderRule (ms : List Member) (i : Nat) (m : Member) : Option Viol :=
  let before := (ms.take i).reverse
  let engine := (before.find? fun x => isCube x.op == isCube m.op).map fun x => (x.issue + x.d, x.off)
  let cmma := if m.op = 0x21 then
      (before.find? fun x => x.op == 0x21).bind fun x => if cmmaKind x.w = cmmaKind m.w then none else some (lastHit x.writes + 1, x.off)
    else none
  let late (p : Option (Nat × Nat)) : Nat := match p with | some q => q.1 | none => 0
  let top := if late cmma > late engine then cmma else engine
  top.bind fun p => if m.issue < p.1 then some (chainViol 0x15 m 0 0 p.1 p.2) else none

/-- The hits of a list on a unit. -/
def onUnit (l : List Hit) (u : Nat) : List Hit := l.filter (·.unit == u)
def firstHit (l : List Hit) : Nat := match l with | x :: r => r.foldl (fun n y => min n y.cycle) x.cycle | [] => 0

/-- The first breach over units in rising order and members in program order: the first of `mine` on a unit comes after the last of
`theirs` of every earlier member. -/
def afterRule (code operand : Nat) (ms : List Member) (i : Nat) (m : Member) (mine : List Hit) (theirs : Member → List Hit) : Option Viol :=
  (List.range 260).findSome? fun u =>
    let x := onUnit mine u
    if x.isEmpty then none
    else (ms.take i).findSome? fun e =>
      let y := onUnit (theirs e) u
      if !y.isEmpty && decide (firstHit x ≤ lastHit y) then
        some (chainViol code m operand u (m.issue + (lastHit y + 1 - firstHit x)) e.off)
      else none

/-- CHAIN_RAW: reads fall after the landings of earlier members. -/
def rawRule (ms : List Member) (i : Nat) (m : Member) : Option Viol :=
  ([1, 2, 3] : List Nat).findSome? fun k => afterRule 0x16 k ms i m (m.reads.filter (·.operand == k)) (·.writes)
/-- CHAIN_WAR: writes land after the last reads of earlier members. -/
def warRule (ms : List Member) (i : Nat) (m : Member) : Option Viol := afterRule 0x17 1 ms i m m.writes (·.reads)
/-- CHAIN_WAW: the first write lands after the last landings of earlier members. -/
def wawRule (ms : List Member) (i : Nat) (m : Member) : Option Viol := afterRule 0x18 1 ms i m m.writes (·.writes)

/-- The bank accesses of a member; a sector that it reads for two operands in one cycle is one access. -/
def Member.banks (m : Member) : List Hit :=
  let once := m.reads.foldl (fun l x => if l.any (fun y => y.cycle == x.cycle && y.sector == x.sector) then l else l ++ [x]) ([] : List Hit)
  (once ++ m.writes).filter (·.sector.isSome)

/-- Two accesses use one bank in one cycle, the first moved later. -/
def sameBank (d : Nat) (x y : Hit) : Bool := x.cycle + d == y.cycle && x.sector.getD 0 % 8 == y.sector.getD 0 % 8

/-- The earliest issue cycle at which two members share no bank; 0xFFFF when none does. -/
def freeCycle (m e : Member) : Nat :=
  match (List.range 4096).find? fun d => !(m.banks.any fun x => e.banks.any (sameBank d x)) with
  | some d => m.issue + d
  | none => 0xFFFF

/-- CHAIN_BANK: the access on the lowest unit that another access to its bank meets in its cycle, by an earlier member or by the member
itself. -/
def bankRule (ms : List Member) (i : Nat) (m : Member) : Option Viol :=
  let mine := m.banks
  (List.range 256).findSome? fun u => (onUnit mine u).findSome? fun x =>
    ((ms.take i).findSome? fun e =>
      if e.banks.any (sameBank 0 x) then some (chainViol 0x19 m x.operand u (freeCycle m e) e.off) else none) <|>
    (if 1 < (mine.filter (sameBank 0 x)).length then some (chainViol 0x19 m x.operand u 0xFFFF m.off) else none)

/-- A rule over the members of every chain, in every iteration. -/
def overChains (vs : List VK) (rule : List Member → Nat → Member → Option Viol) : Option Viol :=
  vs.findSome? fun v => firstOf (v.code.mapIdx fun c x =>
    if x.1 = 0x09 then
      (List.range (chainLen x.2)).findSome? fun i =>
        (overIters (fun it =>
          let ms := membersOf v.code c x.2 it
          (ms[i]?).bind (rule ms i)) (loopsAt v.code c) []).map fun y => { y with kernel := v.k.id }
    else none)

/-! ### CHAIN_INFLIGHT, 0x1A -/

/-- MOVE and GATHER instructions that may still execute, as offset, engine and granules; and the first breach. -/
structure Flight where
  open_ : List (Nat × Bool × List Nat) := []
  bad   : Option Viol := none
  deriving DecidableEq, Repr

/-- The granules of the scratchpad operands of an instruction in an iteration, with the operand. -/
def footOf (op : Nat) (w : IFields) (it : List (Nat × IFields)) : List (Nat × List Nat) :=
  ((List.range 3).filter (isSpad op w)).map fun k => (k + 1, (opndAt w k it).granules)

/-- The lowest granule of a member's operand that an executing instruction also has. -/
def flightHit (fl : List (Nat × Bool × List Nat)) (off issue op : Nat) (w : IFields) (it : List (Nat × IFields)) : Option Viol :=
  (footOf op w it).findSome? fun x => x.2.findSome? fun u => (fl.find? fun y => y.2.2.contains u).map fun y =>
    { code := 0x1A, operand := x.1, offset := off, detail := u + issue * 2 ^ 32 + y.1 * 2 ^ 48 }

def lowerViol (x y : Option Viol) : Option Viol :=
  match x, y with
  | some a, some b => if b.offset < a.offset then some b else some a
  | none, b => b
  | a, none => a

def flightFlow (v : VK) : Flow Flight where
  step o op w it x :=
    if op = 0x04 then
      { x with open_ := x.open_.filter fun y => !w.aux.getLsbD (if y.2.1 then 3 else 2) }
    else if isMoveGather op then
      let e := (o, isGather op, (footOf op w it).flatMap (·.2))
      { x with open_ := if x.open_.contains e then x.open_ else x.open_ ++ [e] }
    else if op = 0x09 then
      { x with bad := lowerViol x.bad ((chainList v.code o w).findSome? fun y => flightHit x.open_ (o + 1 + y.1) y.2.1 y.2.2.1 y.2.2.2 it) }
    else x
  join x y := { open_ := (x.open_ ++ y.open_).eraseDups, bad := lowerViol x.bad y.bad }
  cap n := n

def checkFlight (vs : List VK) : Option Viol :=
  vs.findSome? fun v => ((flightFlow v).run v {}).bad.map fun y => { y with kernel := v.k.id }

/-! ### The verifier -/

/-- The first violation of an image in the order of R140 and R143; none when it is accepted. -/
def verifyImage (img : List Byte) : Option Viol :=
  checkFormat img <|> checkSize img <|> checkDigest img <|> checkTensors img <|> checkDescs img <|> checkIndex img <|>
    let vs := vksOf img
    checkOpcode vs <|> checkPrivileged vs <|> checkFields vs <|> checkAlign (descsOf img) vs <|> checkBound vs <|> checkStride vs <|>
      checkOverlap vs <|> checkShape vs <|> checkFormats vs <|> checkModes vs <|> checkRegs vs <|> checkLoops vs <|>
      checkBarriers vs <|> checkChainStruct vs <|> overChains vs orderRule <|> overChains vs rawRule <|> overChains vs warRule <|>
      overChains vs wawRule <|> overChains vs bankRule <|> checkFlight vs <|> checkBudget vs <|> checkEnd vs

end Sys2Proof.Machine
end

