-- ==== Sys2Proof/Machine/CmdWork.lean ====
section
/-!
DEFINITION. The mailbox commands that act on programs, models, the service, tasks and epochs (R441): the groups 0x02 to 0x05.
-/

namespace Sys2Proof.Machine

/-! ### Programs, R139, R143, R144 -/

/-- The program that an accepted image registers. -/
def programOf (img : List Byte) (digest : BitVec 512) : Program :=
  { digest := digest, nondet := nondetOf img
    kernels := (kernelsOf img).map fun k =>
      { id := k.id, code := (List.range k.len).map fun i => BitVec.ofNat 256 (k.word i), descFirst := k.descFirst, descCount := k.descCount
        farBudget := k.far, digest := k.digest }
    tensors := tensorsOf img, templates := (entries img 2 128).map templateOf
    descs := (descsOf img).map fun d => BitVec.ofNat 512 d.raw, plan := (entries img 5 32).map planOf }

/-- The verdict on an image: the cached one when the key hits, else the verifier's; and the cache after it, the row used last in
front (R144). The digest computed on receipt leaves out the Digest field, so an image whose field differs from it meets no entry and makes
none: an altered image never hits another image's entry (DEDUCED, log entry 165). -/
def Work.verdict (w : Work) (img : List Byte) (bundle : BitVec 512) : Option (BitVec 128) × Work :=
  let key := imageDigest img
  if field img 0x10 64 ≠ key.toNat then ((verifyImage img).map Viol.report, w) else
  let hit (r : CacheRow) : Bool := r.image == key && r.bundle == bundle
  match w.cache.find? hit with
  | some r => (r.report, { w with cache := r :: w.cache.filter fun x => !hit x })
  | none =>
    let rep := (verifyImage img).map Viol.report
    (rep, { w with cache := ({ image := key, bundle := bundle, report := rep } :: w.cache).take 4096 })

/-- SUBMIT_PROGRAM: an accepted image takes the lowest free slot; a rejected one is answered BAD_ARG with its report. -/
def execSubmitProgram (h : CmdHdr) (b : BufRef) (s : State) : Host.Outcome State Fault Refusal :=
  s.command h 0x0201 fun s => s.withBuf h 0x0201 b fun img s =>
    let (rep, w) := s.work.verdict img (BitVec.ofNat 512 (digestOf s.activeBundle))
    let s1 := s.onWork fun _ => w
    match rep with
    | some r => (s1, stBadArg, 0, leBytes 2 0xFFFF ++ leBytes 16 r.toNat)
    | none =>
      match (List.range 0xFFFF).find? fun i => !(keys w.programs).contains i with
      | none => (s1, stRetry, 0, leBytes 2 0xFFFF ++ leBytes 16 0)
      | some i =>
        (s1.onWork fun w => { w with programs := put w.programs i (programOf img (imageDigest img)) }, stOk, 0,
          leBytes 2 i ++ leBytes 16 0)

/-- A model or an admitted task uses a program slot. -/
def State.slotUsed (s : State) (slot : Nat) : Bool :=
  (s.svc.models.any fun m => m.2.rec_.slot == slot) || s.tasksL.any fun t => !t.state.final && t.desc.slot == slot

/-- REMOVE_PROGRAM: its instances and their places go with it. -/
def execRemoveProgram (h : CmdHdr) (slot : Nat) (s : State) : Host.Outcome State Fault Refusal :=
  s.command h 0x0202 fun s =>
    if (look s.work.programs slot).isNone then s.refuse h 0x0202 stBadArg
    else if s.slotUsed slot then s.refuse h 0x0202 stBusy
    else (s.onWork fun w => { w with
      programs := del w.programs slot, placed := w.placed.filter fun p => p.handle.slot != slot
      ready := w.ready.filter fun r => r.handle.slot != slot }).done h 0x0202

/-! ### Models, R297, R298, R302 -/

/-- The fields of a model record are in range, R297. -/
def modelRecOk (r : ModelRec) : Bool :=
  decide (r.id ≤ 255) && decide (r.cls ≤ 3) && inRange r.passMax 1 64 && decide (r.weight ≤ 65535) &&
    (if r.draft = 0xFFFF then r.specK == 0 else decide (r.draft ≤ 255) && inRange r.specK 1 16) && decide (r.tokeniser ≤ 15) &&
    inRange r.vocab 2 262144 && inRange r.maxContext 16 (2 ^ 20) && decide (r.fillWait ≤ 1000) && inRange r.chunk 128 32768 &&
    r.chunk % 128 == 0 && decide (r.window ≤ 63) && r.reservedZero

/-- A kernel instruction that draws on TASK_SEED, R298: SR in CCVT or VCVT, VRAND, RDREG of TASK_SEED. -/
def usesSeed (w : BitVec 256) : Bool :=
  let op := wordOp w.toNat
  let f := wordFields w.toNat
  ((op == 0x22 || op == 0x46) && bits f.mods.toNat 1 0 == 2) || op == 0x69 || (op == 0x07 && bits f.aux.toNat 11 0 == 0x010)

/-- REGISTER_MODEL: a model that is not cold is loading until its weights have been fetched. -/
def execRegisterModel (h : CmdHdr) (r : ModelRec) (s : State) : Host.Outcome State Fault Refusal :=
  s.command h 0x0301 fun s =>
    match look s.work.programs r.slot with
    | none => s.refuse h 0x0301 stBadArg
    | some p =>
      if !modelRecOk r || p.kernels.any (fun k => k.code.any usesSeed) then s.refuse h 0x0301 stBadArg
      else if (look s.svc.models r.id).isSome || (r.cls == 0 && !s.pinnedFits r.bytes) then s.refuse h 0x0301 stDenied
      else
        let m : Model := { rec_ := r, cls := r.cls, weight := r.weight, state := if r.cls = 3 then .ready else .loading }
        (s.onSvc fun v => { v with models := put v.models r.id m }).done h 0x0301

/-- REMOVE_MODEL: new requests are denied; it goes when its open requests have ended. -/
def execRemoveModel (h : CmdHdr) (model : Nat) (s : State) : Host.Outcome State Fault Refusal :=
  s.command h 0x0302 fun s =>
    if (look s.svc.models model).isNone then s.refuse h 0x0302 stBadArg
    else ((s.modModel model fun m => { m with state := .removing }).dropModel model).done h 0x0302

/-- SET_RESIDENCY: DENIED when the pinned models would pass the limit of R302; a model that leaves the class cold loads its weights, one
that enters it loses them, and others move between slices and their image. -/
def execSetResidency (h : CmdHdr) (model : Nat) (cls : Nat) (weight : Nat) (s : State) : Host.Outcome State Fault Refusal :=
  s.command h 0x0303 fun s =>
    match look s.svc.models model with
    | none => s.refuse h 0x0303 stBadArg
    | some m =>
      if 3 < cls ∨ 65535 < weight ∨ m.state = .removing then s.refuse h 0x0303 stBadArg
      else if cls = 0 ∧ m.cls ≠ 0 ∧ !s.pinnedFits m.rec_.bytes then s.refuse h 0x0303 stDenied
      else
        -- the weights follow the class (R301)
        let s1 := if cls = 3 then s.dropWeights m
          else if cls = 2 ∧ m.cls ≤ 1 then s.demote model
          else if cls ≤ 1 ∧ m.cls = 2 then s.promote model
          else s
        (s1.modModel model fun _ => { m with
          cls := cls, weight := weight, lastMove := s.now, image := if cls = 3 then [] else m.image
          state := if m.cls = 3 ∧ cls ≠ 3 ∧ m.state = .ready then .loading else m.state }).done h 0x0303

/-! ### Adapters, R299, R325 -/

/-- The fields of an adapter record are in range, R299. -/
def adapterRecOk (r : AdapterRec) : Bool :=
  decide (r.id ≤ 1023) && inRange r.rank 4 256 && r.rank % 4 == 0 && (r.format == 0x02 || r.format == 0x08) && decide (r.window ≤ 63) &&
    r.reservedZero

/-- An open request names an adapter. -/
def State.adapterNamed (s : State) (a : Nat) : Bool := s.svc.requests.any fun r => !r.ended && r.rec_.adapter == a

/-- REGISTER_ADAPTER: an adapter that is being removed may be registered again once no open request names it. -/
def execRegisterAdapter (h : CmdHdr) (r : AdapterRec) (s : State) : Host.Outcome State Fault Refusal :=
  s.command h 0x0304 fun s =>
    let taken := match look s.svc.adapters r.id with
      | some a => !a.removing || s.adapterNamed r.id
      | none => false
    if !adapterRecOk r || (look s.svc.models r.base).isNone then s.refuse h 0x0304 stBadArg
    else if taken then s.refuse h 0x0304 stDenied
    else match s.allocImage r.bytes with
      | none => s.refuse h 0x0304 stRetry
      | some im =>
        -- the bytes come from the client's window: free values (log entry 138)
        ((({ s with free := s.free + r.bytes } : State).onSvc fun v => { v with
            adapters := put v.adapters r.id { rec_ := r, image := im } }).writeImage im
          ((List.range r.bytes).map fun i => Config.freeByte (s.free + i))).done h 0x0304

/-- REMOVE_ADAPTER, R325: requests that name it from now on are denied; its fine-tuning job stops. -/
def execRemoveAdapter (h : CmdHdr) (adapter : Nat) (s : State) : Host.Outcome State Fault Refusal :=
  s.command h 0x0305 fun s =>
    match look s.svc.adapters adapter with
    | none => s.refuse h 0x0305 stBadArg
    | some a =>
      if a.removing then s.refuse h 0x0305 stBadArg
      else ((s.onSvc fun v => { v with
        adapters := put v.adapters adapter { a with removing := true }, fts := del v.fts adapter }).dropAdapter adapter).done h 0x0305

/-! ### Prefixes, R289, R300, and tokenisers, R316 -/

/-- The pages of a shared prefix, R289: pages of 8,192 tokens, then decreasing powers of two down to 16, then the rest. -/
def prefixPlan (n : Nat) : List (Nat × Nat) :=
  List.replicate (n / 8192) (13, 8192) ++
    ((List.range 9).filterMap fun i => if bits n (12 - i) (12 - i) = 1 then some (12 - i, 2 ^ (12 - i)) else none) ++
    if n % 16 = 0 then [] else [(4, n % 16)]

/-- The tokens of a prefix in a buffer. -/
def tokensOf (bs : List Byte) : List Nat := (List.range (bs.length / 4)).map fun i => field bs (4 * i) 4

/-- PREFIX: register prefills the tokens into pages of a count of 1; remove drops that reference (R300). -/
def execPrefix (h : CmdHdr) (op : Nat) (model : Nat) (id : Nat) (b : BufRef) (s : State) : Host.Outcome State Fault Refusal :=
  s.command h 0x0306 fun s =>
    let same (p : Prefix) : Bool := p.model == model && p.id == id
    if op = 1 then
      match s.svc.prefixes.find? same with
      | none => s.refuse h 0x0306 stBadArg
      | some p =>
        (((tablePages p.tables).foldl State.dropPage s).onSvc fun v => { v with prefixes := v.prefixes.filter fun q => !same q }).done h 0x0306
    else match look s.svc.models model with
    | none => s.refuse h 0x0306 stBadArg
    | some m =>
      if op ≠ 0 ∨ 1023 < id then s.refuse h 0x0306 stBadArg
      else if m.state = .removing ∨ s.svc.prefixes.any same then s.refuse h 0x0306 stDenied
      else s.withBuf h 0x0306 b fun bs s =>
        let toks := tokensOf bs
        let plan := prefixPlan toks.length
        if bs.length % 4 ≠ 0 ∨ m.rec_.maxContext < toks.length ∨ toks.any (fun t => decide (m.rec_.vocab ≤ t)) then (s, stBadArg, 0, [])
        else
          -- one page of each plan entry in every table, with a count of 1
          let r := (s.newTables model).foldl (fun (o : Option (State × List KvTable)) t => o.bind fun x =>
            (x.1.growTable t false none plan).map fun z => (z.1, x.2 ++ [z.2])) ((s.placePools model).map fun s => (s, []))
          match r with
          | none => (s, stRetry, 0, [])
          | some x => (x.1.onSvc fun v => { v with
              prefixes := v.prefixes ++ [{ model := model, id := id, tokens := toks, plan := plan, tables := x.2 }] }, stOk, 0, [])

/-- A tokeniser image keeps R316. -/
def tokeniserOk (splitMode : Nat) (vocab : List (List Byte)) (merges : List (Nat × Nat)) : Bool :=
  decide (splitMode ≤ 2) && decide (vocab.length ≤ 262144) && vocab.all (fun t => inRange t.length 1 64) &&
    merges.all fun m => decide (m.1 < vocab.length) && decide (m.2 < vocab.length)

/-- REGISTER_TOKENISER: tokenisations in progress finish on the old image. -/
def execRegisterTokeniser (h : CmdHdr) (slot : Nat) (b : BufRef) (splitMode : Nat) (vocab : List (List Byte)) (merges : List (Nat × Nat))
    (s : State) : Host.Outcome State Fault Refusal :=
  s.command h 0x0307 fun s => s.withBuf h 0x0307 b fun _ s =>
    if slot = 0 ∨ 15 < slot ∨ !tokeniserOk splitMode vocab merges then (s, stBadArg, 0, [])
    else
      let old := look s.svc.tokenisers slot
      let onSlot (r : Request) : Bool := match look s.svc.models r.rec_.model with | some m => m.rec_.tokeniser == slot | none => false
      (s.onSvc fun v => { v with
        tokenisers := put v.tokenisers slot { splitMode := splitMode, vocab := vocab, merges := merges }
        requests := v.requests.map fun r =>
          if r.tokenising && onSlot r then { r with tokImage := r.tokImage.orElse fun _ => old } else r }, stOk, 0, [])

/-! ### Fine-tuning, R326, R327 -/

/-- The parameters of a job are in range. -/
def jobOk (j : FtJob) : Bool := decide (j.window ≤ 63) && inRange j.seqs 1 64 && decide (1 ≤ j.steps)

/-- FINETUNE: a command stands between two steps, so stop and checkpoint act at once. A checkpoint is the
working copy of the adapter; before its first step that is its image, whose bytes are free values. -/
def execFinetune (h : CmdHdr) (op : Nat) (adapter : Nat) (job : FtJob) (b : BufRef) (s : State) : Host.Outcome State Fault Refusal :=
  s.command h 0x0308 fun s =>
    match look s.svc.adapters adapter with
    | none => s.refuse h 0x0308 stBadArg
    | some a =>
      let res := leBytes 4 a.step
      let cur := look s.svc.fts adapter
      let running := match cur with | some j => !j.stopped | none => false
      if 3 < op ∨ a.removing then s.refuse h 0x0308 stBadArg
      else if op = 0 then
        if !a.rec_.trainable || !jobOk job then s.refuse h 0x0308 stBadArg
        else if running then s.refuse h 0x0308 stBusy
        else s.withBuf h 0x0308 b fun _ s => (s.onSvc fun v => { v with fts := put v.fts adapter { job := job } }, stOk, 0, res)
      else if op = 1 then
        match cur with
        | none => s.refuse h 0x0308 stBadArg
        | some j => (s.onSvc fun v => { v with fts := put v.fts adapter { j with stopped := true } }).done h 0x0308 res
      else if op = 2 then
        s.outBuf h 0x0308 b (s.adapterBytes a) 0 res
      else s.done h 0x0308 res

/-! ### Service sets, R352, R411, R441 -/

/-- Bytes that the channels of the service inbox take. -/
def State.inboxBytes (s : State) : Nat := s.svc.sets.foldl (fun n x => n + 32 * (s.channel inboxEp x.1).depth) 0

/-- Queue pairs of a service set that exist. -/
def State.qpsOf (s : State) (set : Nat) : List Nat :=
  (s.net.qps.filter fun q => q.2.kind == .service set && q.2.state != .reset).map (·.1)

/-- SERVICE_SET: create makes the set and its inbound channel; destroy ends its requests and its queue pairs. -/
def execServiceSet (h : CmdHdr) (op : Nat) (set : Nat) (service : Dword) (port : Nat) (pfx : BitVec 128) (pfxLen : Nat) (qps : Nat)
    (s : State) : Host.Outcome State Fault Refusal :=
  s.command h 0x0401 fun s =>
    let res := leBytes 8 service.toNat
    if 1 < op ∨ 63 < set then s.refuse h 0x0401 stBadArg
    else if op = 0 then
      let p := s.profNow 0x02000003
      let c : Channel := { log2Depth := field p 0 1, highMark := field p 2 2, lowMark := field p 4 2, maxPacket := 1, enable := true }
      if 3 < port ∨ 128 < pfxLen ∨ !inRange qps 1 4096 then s.refuse h 0x0401 stBadArg
      else if (look s.svc.sets set).isSome ∨ s.svc.sets.any (fun x => x.2.service == service && x.2.port == port) then
        s.refuse h 0x0401 stDenied
      else if 2 ^ 22 < s.inboxBytes + 32 * c.depth then s.refuse h 0x0401 stRetry
      else
        let x : SvcSet := { service := service, port := port, pfx := pfx, pfxLen := pfxLen, qpMax := qps }
        ((s.onSvc fun v => { v with sets := put v.sets set x }).onChannel inboxEp set fun _ => c).done h 0x0401 res
    else match look s.svc.sets set with
    | none => s.refuse h 0x0401 stBadArg
    | some x =>
      let mine := s.qpsOf set
      let s1 := mine.foldl (fun s q => s.closeQp q) (s.endStreams mine)
      let held := (s1.channel inboxEp set).words.length
      ((s1.onNet fun n => { n with rxFree := n.rxFree + held }).onChannel inboxEp set fun _ => {}).onSvc (fun v => { v with
        sets := del v.sets set }) |>.inboxUpdate |>.done h 0x0401 (leBytes 8 x.service.toNat)

/-- GET_SERVICE: queue pairs connected and open requests. -/
def execGetService (h : CmdHdr) (set : Nat) (s : State) : Host.Outcome State Fault Refusal :=
  s.command h 0x0402 fun s =>
    if (look s.svc.sets set).isNone then s.refuse h 0x0402 stBadArg
    else
      let mine := s.qpsOf set
      let up := (s.net.qps.filter fun q => q.2.kind == .service set && q.2.state == .rts).length
      let open_ := (s.svc.requests.filter fun r => !r.ended && mine.contains r.qp).length
      s.done h 0x0402 (leBytes 4 up ++ leBytes 4 open_)

/-! ### Tasks and epochs, R149 to R174 -/

/-- SUBMIT_TASK, R154. -/
def execSubmitTask (h : CmdHdr) (d : TaskDesc) (s : State) : Host.Outcome State Fault Refusal :=
  s.command h 0x0501 fun s =>
    let (s1, st, id) := s.admitTask d
    if st = stOk then s1.done h 0x0501 (leBytes 8 id) else s.refuse h 0x0501 st

/-- Cancel a task, R164: one that has not started is CANCELLED, one that runs stops at its next wave boundary. A speculative task is
cancelled with its epoch, which is doomed (R164, R174). -/
def State.cancelTask (s : State) (t : Task) : State :=
  if t.state.final then s
  else if t.desc.epoch ≠ 0 then (s.doom t.desc.epoch).settle
  else if t.state = .running then
    (if t.coll then s else (s.modTask t.id fun t => { t with cancelled := true }).endIfDone t.id).settle
  else (s.finishTask t.id .cancelled stOk).settle

/-- CANCEL_TASK: the result is the state at the cancel. -/
def execCancelTask (h : CmdHdr) (task : Nat) (s : State) : Host.Outcome State Fault Refusal :=
  s.command h 0x0502 fun s =>
    match s.task? task with
    | none => s.refuse h 0x0502 stBadArg
    | some t => (s.cancelTask t).respond h 0x0502 stOk (!t.state.final) 0 (leBytes 1 t.state.code)

/-- GET_TASK_STATE, R443: BAD_ARG for a record that the ring has overwritten. -/
def execGetTaskState (h : CmdHdr) (task : Nat) (s : State) : Host.Outcome State Fault Refusal :=
  s.command h 0x0503 fun s =>
    match (if s.work.journal.any (fun x => x.2 == task) then s.task? task else none) with
    | none => s.refuse h 0x0503 stBadArg
    | some t => s.done h 0x0503 (t.journalBytes ++ leBytes 8 s.log.next)

/-- OPEN_EPOCH, R168. -/
def execOpenEpoch (h : CmdHdr) (s : State) : Host.Outcome State Fault Refusal :=
  s.command h 0x0504 fun s =>
    match s.openEpoch false with
    | none => s.refuse h 0x0504 stRetry
    | some (s1, e) => s1.done h 0x0504 (leBytes 2 e)

/-- An epoch that a command opened. -/
def State.hostEpoch (s : State) (e : Nat) : Option Epoch := (look s.work.epochs e).filter fun x => !x.service

/-- COMMIT, R171 to R174: admitted here, answered by COMMIT_ACT. -/
def execCommit (h : CmdHdr) (epoch : Nat) (entries : List CommitEntry) (s : State) : Host.Outcome State Fault Refusal :=
  s.command h 0x0505 fun s =>
    match s.hostEpoch epoch with
    | none => s.refuse h 0x0505 stBadArg
    | some x =>
      if 18 < entries.length then s.refuse h 0x0505 stBadArg
      else if x.commit.isSome then s.refuse h 0x0505 stBusy
      else if x.doomed then (s.discardEpoch epoch stDenied).refuse h 0x0505 stDenied
      else
        let (s1, gens) := s.commitAdmit epoch
        (s1.onWork fun w => { w with epochs := put w.epochs epoch { x with commit := some (entries, h), commitGens := gens } }).settle

/-- DISCARD, R173. -/
def execDiscard (h : CmdHdr) (epoch : Nat) (s : State) : Host.Outcome State Fault Refusal :=
  s.command h 0x0506 fun s =>
    match s.hostEpoch epoch with
    | none => s.refuse h 0x0506 stBadArg
    | some _ => (s.discardEpoch epoch stDenied).done h 0x0506

/-- SET_READY, R151, R153: a host-written instance is READY at a new generation. -/
def execSetReady (h : CmdHdr) (t : Handle) (s : State) : Host.Outcome State Fault Refusal :=
  s.command h 0x0507 fun s =>
    let r := s.work.entry t
    let known := match look s.work.programs t.slot with | some p => p.tensors.any (·.id == t.tensor) | none => false
    if !known || decide (65536 ≤ t.inst) then s.refuse h 0x0507 stBadArg
    else if r.state = .pending then s.refuse h 0x0507 stBusy
    else
      let r1 : Ready := { r with
        table := 4, outside := true, gen := r.gen + 1, gens := put r.gens (r.gen + 1) { state := .ready }, dataLost := false }
      ((s.onWork fun w => w.setEntry r1).settle).done h 0x0507 (leBytes 2 ((r.gen + 1) % 65536))

/-- SUBMIT_COLLECTIVE, R386. -/
def execSubmitCollective (h : CmdHdr) (d : CollDesc) (s : State) : Host.Outcome State Fault Refusal :=
  s.command h 0x0508 fun s =>
    let (s1, st, id) := s.admitColl d
    if st = stOk then s1.done h 0x0508 (leBytes 8 id) else s.refuse h 0x0508 st

end Sys2Proof.Machine
end

