-- ==== Sys2Proof/Machine/Dispatch.lean ====
section
/-!
DEFINITION. The meaning of each command, one arm per row of the table: the command's effect on everything but the queue.
-/

namespace Sys2Proof.Machine

/-- The effect of a command on the state. -/
def exec (i : Instr) (s : State) : Host.Outcome State Fault Refusal :=
  match i with
  | .nop c w => Sys2Proof.Machine.execNop c w s
  | .endKernel c w => Sys2Proof.Machine.execEndKernel c w s
  | .loop c w => Sys2Proof.Machine.execLoop c w s
  | .waitq c w => Sys2Proof.Machine.execWaitq c w s
  | .waitqRelease c => Sys2Proof.Machine.execWaitqRelease c s
  | .drain c w => Sys2Proof.Machine.execDrain c w s
  | .drainRelease c => Sys2Proof.Machine.execDrainRelease c s
  | .bara c w => Sys2Proof.Machine.execBara c w s
  | .barw c w => Sys2Proof.Machine.execBarw c w s
  | .barrierRelease task cd id scope => Sys2Proof.Machine.execBarrierRelease task cd id scope s
  | .rdreg c w => Sys2Proof.Machine.execRdreg c w s
  | .pmark c w => Sys2Proof.Machine.execPmark c w s
  | .chain c w => Sys2Proof.Machine.execChain c w s
  | .chainCycleZero c offSchedule => Sys2Proof.Machine.execChainCycleZero c offSchedule s
  | .aclr c w => Sys2Proof.Machine.execAclr c w s
  | .cmma c w => Sys2Proof.Machine.execCmma c w s
  | .ccvt c w => Sys2Proof.Machine.execCcvt c w s
  | .accst c w => Sys2Proof.Machine.execAccst c w s
  | .accld c w => Sys2Proof.Machine.execAccld c w s
  | .vadd c w => Sys2Proof.Machine.execVadd c w s
  | .vsub c w => Sys2Proof.Machine.execVsub c w s
  | .vmul c w => Sys2Proof.Machine.execVmul c w s
  | .vfma c w => Sys2Proof.Machine.execVfma c w s
  | .vmax c w => Sys2Proof.Machine.execVmax c w s
  | .vmin c w => Sys2Proof.Machine.execVmin c w s
  | .vcvt c w => Sys2Proof.Machine.execVcvt c w s
  | .vcopy c w => Sys2Proof.Machine.execVcopy c w s
  | .vcmpgt c w => Sys2Proof.Machine.execVcmpgt c w s
  | .vexp c w => Sys2Proof.Machine.execVexp c w s
  | .vlog c w => Sys2Proof.Machine.execVlog c w s
  | .vrcp c w => Sys2Proof.Machine.execVrcp c w s
  | .vrsqrt c w => Sys2Proof.Machine.execVrsqrt c w s
  | .vtanh c w => Sys2Proof.Machine.execVtanh c w s
  | .verf c w => Sys2Proof.Machine.execVerf c w s
  | .rowmax c w => Sys2Proof.Machine.execRowmax c w s
  | .rowsum c w => Sys2Proof.Machine.execRowsum c w s
  | .rowsumsq c w => Sys2Proof.Machine.execRowsumsq c w s
  | .viadd c w => Sys2Proof.Machine.execViadd c w s
  | .vimul c w => Sys2Proof.Machine.execVimul c w s
  | .vishr c w => Sys2Proof.Machine.execVishr c w s
  | .viand c w => Sys2Proof.Machine.execViand c w s
  | .vimin c w => Sys2Proof.Machine.execVimin c w s
  | .accadd c w => Sys2Proof.Machine.execAccadd c w s
  | .vrand c w => Sys2Proof.Machine.execVrand c w s
  | .mload c w => Sys2Proof.Machine.execMload c w s
  | .mstore c w => Sys2Proof.Machine.execMstore c w s
  | .gload c w => Sys2Proof.Machine.execGload c w s
  | .gscat c w => Sys2Proof.Machine.execGscat c w s
  | .gpage c w => Sys2Proof.Machine.execGpage c w s
  | .sequencerStallRelease c => Sys2Proof.Machine.execSequencerStallRelease c s
  | .scoreboardRelease c e => Sys2Proof.Machine.execScoreboardRelease c e s
  | .watchEntryFree c e => Sys2Proof.Machine.execWatchEntryFree c e s
  | .engineInstrComplete c e => Sys2Proof.Machine.execEngineInstrComplete c e s
  | .instrTimeLimit c e => Sys2Proof.Machine.execInstrTimeLimit c e s
  | .externalScratchAccess from_ addr len acc => Sys2Proof.Machine.execExternalScratchAccess from_ addr len acc s
  | .imemLoad c bank kernel code digest => Sys2Proof.Machine.execImemLoad c bank kernel code digest s
  | .imemLoadDone c => Sys2Proof.Machine.execImemLoadDone c s
  | .imemArm c => Sys2Proof.Machine.execImemArm c s
  | .imemDisarm c => Sys2Proof.Machine.execImemDisarm c s
  | .taskFire task => Sys2Proof.Machine.execTaskFire task s
  | .waveStart task cd => Sys2Proof.Machine.execWaveStart task cd s
  | .loadRaiseWithdraw cd => Sys2Proof.Machine.execLoadRaiseWithdraw cd s
  | .completionToken task wave node tok => Sys2Proof.Machine.execCompletionToken task wave node tok s
  | .dispatcherHeartbeat cd => Sys2Proof.Machine.execDispatcherHeartbeat cd s
  | .heartbeatTimeout cd => Sys2Proof.Machine.execHeartbeatTimeout cd s
  | .taskTimeLimit task => Sys2Proof.Machine.execTaskTimeLimit task s
  | .shadowCopyDone task => Sys2Proof.Machine.execShadowCopyDone task s
  | .commitAct epoch => Sys2Proof.Machine.execCommitAct epoch s
  | .placerRecompute acts => Sys2Proof.Machine.execPlacerRecompute acts s
  | .shardMove h shard addr => Sys2Proof.Machine.execShardMove h shard addr s
  | .replicaCreate h shard addr => Sys2Proof.Machine.execReplicaCreate h shard addr s
  | .residencyRank => Sys2Proof.Machine.execResidencyRank s
  | .sliceBurstRequest from_ addr len acc => Sys2Proof.Machine.execSliceBurstRequest from_ addr len acc s
  | .retryReissue c e => Sys2Proof.Machine.execRetryReissue c e s
  | .correctedWriteBack c codeword => Sys2Proof.Machine.execCorrectedWriteBack c codeword s
  | .sliceRefresh stack quadrant layer => Sys2Proof.Machine.execSliceRefresh stack quadrant layer s
  | .scrubBurst c => Sys2Proof.Machine.execScrubBurst c s
  | .scrubAge u age => Sys2Proof.Machine.execScrubAge u age s
  | .sliceFill => Sys2Proof.Machine.execSliceFill s
  | .checkerSelftest failedSlices failedPackages => Sys2Proof.Machine.execCheckerSelftest failedSlices failedPackages s
  | .spareCopyDone c page => Sys2Proof.Machine.execSpareCopyDone c page s
  | .pageEmptied tier unit page => Sys2Proof.Machine.execPageEmptied tier unit page s
  | .retirementTableWrite => Sys2Proof.Machine.execRetirementTableWrite s
  | .outerBlockRequest from_ addr len acc waiting => Sys2Proof.Machine.execOuterBlockRequest from_ addr len acc waiting s
  | .creditReturn m req => Sys2Proof.Machine.execCreditReturn m req s
  | .outerSend m => Sys2Proof.Machine.execOuterSend m s
  | .outerWindowAge m req => Sys2Proof.Machine.execOuterWindowAge m req s
  | .outerParityNak m req => Sys2Proof.Machine.execOuterParityNak m req s
  | .holdAssert m => Sys2Proof.Machine.execHoldAssert m s
  | .holdRelease m => Sys2Proof.Machine.execHoldRelease m s
  | .outerReadData m req dieCorrected dieUe busErrors reread => Sys2Proof.Machine.execOuterReadData m req dieCorrected dieUe busErrors reread s
  | .outerRequestTimeout m req => Sys2Proof.Machine.execOuterRequestTimeout m req s
  | .dieWriteBack m codeword => Sys2Proof.Machine.execDieWriteBack m codeword s
  | .outerRefresh m channel bank burst => Sys2Proof.Machine.execOuterRefresh m channel bank burst s
  | .postponedRefresh m channel bank => Sys2Proof.Machine.execPostponedRefresh m channel bank s
  | .outerScrub m => Sys2Proof.Machine.execOuterScrub m s
  | .outerFill => Sys2Proof.Machine.execOuterFill s
  | .outerSpareCopyDone m page => Sys2Proof.Machine.execOuterSpareCopyDone m page s
  | .outerBusRetrain m ok => Sys2Proof.Machine.execOuterBusRetrain m ok s
  | .proboscisSubmit m prt record poison c => Sys2Proof.Machine.execProboscisSubmit m prt record poison c s
  | .proboscisStart m => Sys2Proof.Machine.execProboscisStart m s
  | .rotationWindow m => Sys2Proof.Machine.execRotationWindow m s
  | .proboscisPublish m prt => Sys2Proof.Machine.execProboscisPublish m prt s
  | .proboscisTimeout m prt => Sys2Proof.Machine.execProboscisTimeout m prt s
  | .busyReissue c e => Sys2Proof.Machine.execBusyReissue c e s
  | .resettingReissue c e => Sys2Proof.Machine.execResettingReissue c e s
  | .request qp r => Sys2Proof.Machine.execRequest qp r s
  | .requestContinuation qp r => Sys2Proof.Machine.execRequestContinuation qp r s
  | .cancel qp request => Sys2Proof.Machine.execCancel qp request s
  | .credit qp request value => Sys2Proof.Machine.execCredit qp request value s
  | .close qp context => Sys2Proof.Machine.execClose qp context s
  | .unknownRecord qp request => Sys2Proof.Machine.execUnknownRecord qp request s
  | .tokenise qp request => Sys2Proof.Machine.execTokenise qp request s
  | .passForm model => Sys2Proof.Machine.execPassForm model s
  | .fillWaitExpiry model => Sys2Proof.Machine.execFillWaitExpiry model s
  | .passCommit pass results => Sys2Proof.Machine.execPassCommit pass results s
  | .streamWrite qp request count => Sys2Proof.Machine.execStreamWrite qp request count s
  | .creditTimeout qp request => Sys2Proof.Machine.execCreditTimeout qp request s
  | .contextIdleTimeout context => Sys2Proof.Machine.execContextIdleTimeout context s
  | .modelFetch model digest => Sys2Proof.Machine.execModelFetch model digest s
  | .modelStage model => Sys2Proof.Machine.execModelStage model s
  | .adapterStage pass adapter => Sys2Proof.Machine.execAdapterStage pass adapter s
  | .finetuneStep adapter ok grads => Sys2Proof.Machine.execFinetuneStep adapter ok grads s
  | .flitCrcReplay cd dir => Sys2Proof.Machine.execFlitCrcReplay cd dir s
  | .resettingAnswerTimeout cd => Sys2Proof.Machine.execResettingAnswerTimeout cd s
  | .clusterRelease cd => Sys2Proof.Machine.execClusterRelease cd s
  | .channelOpenRequest ep idx producer => Sys2Proof.Machine.execChannelOpenRequest ep idx producer s
  | .channelGrant ep idx => Sys2Proof.Machine.execChannelGrant ep idx s
  | .channelWord ep idx producer data kind poison => Sys2Proof.Machine.execChannelWord ep idx producer data kind poison s
  | .channelWordRead ep idx => Sys2Proof.Machine.execChannelWordRead ep idx s
  | .flush ep idx => Sys2Proof.Machine.execFlush ep idx s
  | .packetAbort ep idx producer => Sys2Proof.Machine.execPacketAbort ep idx producer s
  | .chnCfgWrite ep idx value => Sys2Proof.Machine.execChnCfgWrite ep idx value s
  | .linkFrameRx l codewordErrors flits fcb => Sys2Proof.Machine.execLinkFrameRx l codewordErrors flits fcb s
  | .fcbRx l fcb => Sys2Proof.Machine.execFcbRx l fcb s
  | .flitRx l flit => Sys2Proof.Machine.execFlitRx l flit s
  | .crcNak l seq => Sys2Proof.Machine.execCrcNak l seq s
  | .protocolNak l seq => Sys2Proof.Machine.execProtocolNak l seq s
  | .replayTimeout l => Sys2Proof.Machine.execReplayTimeout l s
  | .linkAttemptStart l => Sys2Proof.Machine.execLinkAttemptStart l s
  | .partnerDetected l lanes => Sys2Proof.Machine.execPartnerDetected l lanes s
  | .equaliseDone l goodRx goodTx => Sys2Proof.Machine.execEqualiseDone l goodRx goodTx s
  | .deskewDone l reversed polarity => Sys2Proof.Machine.execDeskewDone l reversed polarity s
  | .mgmtId l system device lnk version torus => Sys2Proof.Machine.execMgmtId l system device lnk version torus s
  | .attemptTimeout l => Sys2Proof.Machine.execAttemptTimeout l s
  | .attemptRetryTimer l => Sys2Proof.Machine.execAttemptRetryTimer l s
  | .mismatchRetry l => Sys2Proof.Machine.execMismatchRetry l s
  | .linkLeaveUp l => Sys2Proof.Machine.execLinkLeaveUp l s
  | .linkRetrain l => Sys2Proof.Machine.execLinkRetrain l s
  | .linkDisable l => Sys2Proof.Machine.execLinkDisable l s
  | .linkEnable l => Sys2Proof.Machine.execLinkEnable l s
  | .linkDrainEnd l => Sys2Proof.Machine.execLinkDrainEnd l s
  | .linkQuarantine l => Sys2Proof.Machine.execLinkQuarantine l s
  | .backoffEnd l => Sys2Proof.Machine.execBackoffEnd l s
  | .backoffRelax l => Sys2Proof.Machine.execBackoffRelax l s
  | .read l p => Sys2Proof.Machine.execRead l p s
  | .write l p => Sys2Proof.Machine.execWrite l p s
  | .instarQ l p => Sys2Proof.Machine.execInstarQ l p s
  | .readData l p => Sys2Proof.Machine.execReadData l p s
  | .writeAck l p => Sys2Proof.Machine.execWriteAck l p s
  | .instarA l p => Sys2Proof.Machine.execInstarA l p s
  | .nak l p => Sys2Proof.Machine.execNak l p s
  | .collData l p => Sys2Proof.Machine.execCollData l p s
  | .collAck l p => Sys2Proof.Machine.execCollAck l p s
  | .collAbort l p => Sys2Proof.Machine.execCollAbort l p s
  | .mgmtRoute l p => Sys2Proof.Machine.execMgmtRoute l p s
  | .packetForward arrival p dwell => Sys2Proof.Machine.execPacketForward arrival p dwell s
  | .remoteAttemptTimeout die tag => Sys2Proof.Machine.execRemoteAttemptTimeout die tag s
  | .collChunkTimeout task step rank => Sys2Proof.Machine.execCollChunkTimeout task step rank s
  | .earlyChunkResend task step rank => Sys2Proof.Machine.execEarlyChunkResend task step rank s
  | .collTimeLimit task => Sys2Proof.Machine.execCollTimeLimit task s
  | .portEnable p => Sys2Proof.Machine.execPortEnable p s
  | .portDisable p => Sys2Proof.Machine.execPortDisable p s
  | .portDrainEnd p => Sys2Proof.Machine.execPortDrainEnd p s
  | .modeSelWrite p v => Sys2Proof.Machine.execModeSelWrite p v s
  | .pfcMaskWrite p v => Sys2Proof.Machine.execPfcMaskWrite p v s
  | .portUp p => Sys2Proof.Machine.execPortUp p s
  | .portFault p loc remote => Sys2Proof.Machine.execPortFault p loc remote s
  | .ethFrameRx p f => Sys2Proof.Machine.execEthFrameRx p f s
  | .pfcRepeat p prio => Sys2Proof.Machine.execPfcRepeat p prio s
  | .pfcXon p prio occupancy => Sys2Proof.Machine.execPfcXon p prio occupancy s
  | .pfcFrameRx p prio quanta => Sys2Proof.Machine.execPfcFrameRx p prio quanta s
  | .ethPfcStorm p prio => Sys2Proof.Machine.execEthPfcStorm p prio s
  | .frameTx p prio size => Sys2Proof.Machine.execFrameTx p prio size s
  | .addressProbe p v6 duplicate => Sys2Proof.Machine.execAddressProbe p v6 duplicate s
  | .dhcpRenew p v6 => Sys2Proof.Machine.execDhcpRenew p v6 s
  | .dhcpRebind p v6 => Sys2Proof.Machine.execDhcpRebind p v6 s
  | .leaseExpiry p v6 => Sys2Proof.Machine.execLeaseExpiry p v6 s
  | .arp p target sender senderMac => Sys2Proof.Machine.execArp p target sender senderMac s
  | .neighbourSolicitation p target => Sys2Proof.Machine.execNeighbourSolicitation p target s
  | .routerAdvertisement p router => Sys2Proof.Machine.execRouterAdvertisement p router s
  | .echo p v6 payload => Sys2Proof.Machine.execEcho p v6 payload s
  | .send qp length => Sys2Proof.Machine.execSend qp length s
  | .rdmaWrite qp rkey va data => Sys2Proof.Machine.execRdmaWrite qp rkey va data s
  | .rdmaRead qp rkey va len => Sys2Proof.Machine.execRdmaRead qp rkey va len s
  | .rdmaReadResponse qp data => Sys2Proof.Machine.execRdmaReadResponse qp data s
  | .ackTimeout qp => Sys2Proof.Machine.execAckTimeout qp s
  | .heldRequestRetry qp => Sys2Proof.Machine.execHeldRequestRetry qp s
  | .holdLimitExpiry qp => Sys2Proof.Machine.execHoldLimitExpiry qp s
  | .cnpSend qp => Sys2Proof.Machine.execCnpSend qp s
  | .cnp qp => Sys2Proof.Machine.execCnp qp s
  | .rateRecoveryStep qp => Sys2Proof.Machine.execRateRecoveryStep qp s
  | .req p m => Sys2Proof.Machine.execReq p m s
  | .rep p qp mtu remoteQpn => Sys2Proof.Machine.execRep p qp mtu remoteQpn s
  | .rtu qp => Sys2Proof.Machine.execRtu qp s
  | .dreq qp => Sys2Proof.Machine.execDreq qp s
  | .drep qp => Sys2Proof.Machine.execDrep qp s
  | .rej qp => Sys2Proof.Machine.execRej qp s
  | .rtuTimeout qp => Sys2Proof.Machine.execRtuTimeout qp s
  | .deviceReqTimeout qp => Sys2Proof.Machine.execDeviceReqTimeout qp s
  | .clockOffer candidate => Sys2Proof.Machine.execClockOffer candidate s
  | .clockWithdraw candidate => Sys2Proof.Machine.execClockWithdraw candidate s
  | .candidateStable candidate => Sys2Proof.Machine.execCandidateStable candidate s
  | .pllLock => Sys2Proof.Machine.execPllLock s
  | .dividerRampStep cd => Sys2Proof.Machine.execDividerRampStep cd s
  | .cmdTailWrite qp value => Sys2Proof.Machine.execCmdTailWrite qp value s
  | .commandFetch => Sys2Proof.Machine.execCommandFetch s
  | .responseWrite => Sys2Proof.Machine.execResponseWrite s
  | .rspHeadWrite qp value => Sys2Proof.Machine.execRspHeadWrite qp value s
  | .ringReset byI2c qp => Sys2Proof.Machine.execRingReset byI2c qp s
  | .i2cGo => Sys2Proof.Machine.execI2cGo s
  | .i2cWriteTransaction x => Sys2Proof.Machine.execI2cWriteTransaction x s
  | .i2cReadTransaction x count => Sys2Proof.Machine.execI2cReadTransaction x count s
  | .alertClear mask => Sys2Proof.Machine.execAlertClear mask s
  | .alertMaskWrite value => Sys2Proof.Machine.execAlertMaskWrite value s
  | .lysIdWrite value => Sys2Proof.Machine.execLysIdWrite value s
  | .activeMaxWrite m value => Sys2Proof.Machine.execActiveMaxWrite m value s
  | .registerWrite u offset value => Sys2Proof.Machine.execRegisterWrite u offset value s
  | .telemetryRewrite => Sys2Proof.Machine.execTelemetryRewrite s
  | .commandTimeout h applied => Sys2Proof.Machine.execCommandTimeout h applied s
  | .getInfo h => Sys2Proof.Machine.execGetInfo h s
  | .computeReset h mode cds => Sys2Proof.Machine.execComputeReset h mode cds s
  | .deviceReset h => Sys2Proof.Machine.execDeviceReset h s
  | .config h op key value => Sys2Proof.Machine.execConfig h op key value s
  | .openSession h b o => Sys2Proof.Machine.execOpenSession h b o s
  | .submitProgram h b => Sys2Proof.Machine.execSubmitProgram h b s
  | .removeProgram h slot => Sys2Proof.Machine.execRemoveProgram h slot s
  | .registerModel h r => Sys2Proof.Machine.execRegisterModel h r s
  | .removeModel h model => Sys2Proof.Machine.execRemoveModel h model s
  | .setResidency h model cls weight => Sys2Proof.Machine.execSetResidency h model cls weight s
  | .registerAdapter h r => Sys2Proof.Machine.execRegisterAdapter h r s
  | .removeAdapter h adapter => Sys2Proof.Machine.execRemoveAdapter h adapter s
  | .prefix_ h op model id b => Sys2Proof.Machine.execPrefix h op model id b s
  | .registerTokeniser h slot b splitMode vocab merges => Sys2Proof.Machine.execRegisterTokeniser h slot b splitMode vocab merges s
  | .finetune h op adapter job b => Sys2Proof.Machine.execFinetune h op adapter job b s
  | .serviceSet h op set service prt pfx pfxLen qps => Sys2Proof.Machine.execServiceSet h op set service prt pfx pfxLen qps s
  | .getService h set => Sys2Proof.Machine.execGetService h set s
  | .submitTask h d => Sys2Proof.Machine.execSubmitTask h d s
  | .cancelTask h task => Sys2Proof.Machine.execCancelTask h task s
  | .getTaskState h task => Sys2Proof.Machine.execGetTaskState h task s
  | .openEpoch h => Sys2Proof.Machine.execOpenEpoch h s
  | .commit h epoch entries => Sys2Proof.Machine.execCommit h epoch entries s
  | .discard h epoch => Sys2Proof.Machine.execDiscard h epoch s
  | .setReady h t => Sys2Proof.Machine.execSetReady h t s
  | .submitCollective h d => Sys2Proof.Machine.execSubmitCollective h d s
  | .window h op w prt gidIndex hostGid va len rkey => Sys2Proof.Machine.execWindow h op w prt gidIndex hostGid va len rkey s
  | .region h op index base len rd wr domain => Sys2Proof.Machine.execRegion h op index base len rd wr domain s
  | .retire h tier unit page bank => Sys2Proof.Machine.execRetire h tier unit page bank s
  | .unitRegs h op u offset value => Sys2Proof.Machine.execUnitRegs h op u offset value s
  | .exportWindow h index base size rd wr => Sys2Proof.Machine.execExportWindow h index base size rd wr s
  | .setPowerCap h watts => Sys2Proof.Machine.execSetPowerCap h watts s
  | .setProboscis h mask activeMax => Sys2Proof.Machine.execSetProboscis h mask activeMax s
  | .domain h cd level on => Sys2Proof.Machine.execDomain h cd level on s
  | .getPower h => Sys2Proof.Machine.execGetPower h s
  | .getThermal h mask => Sys2Proof.Machine.execGetThermal h mask s
  | .getRth h stack => Sys2Proof.Machine.execGetRth h stack s
  | .stageFirmware h b info readBackOk => Sys2Proof.Machine.execStageFirmware h b info readBackOk s
  | .stagingEraseDone => Sys2Proof.Machine.execStagingEraseDone s
  | .activateFirmware h digest => Sys2Proof.Machine.execActivateFirmware h digest s
  | .getFirmware h => Sys2Proof.Machine.execGetFirmware h s
  | .takeOwnership h b o => Sys2Proof.Machine.execTakeOwnership h b o s
  | .tenant h op b o => Sys2Proof.Machine.execTenant h op b o s
  | .getQuote h nonce b => Sys2Proof.Machine.execGetQuote h nonce b s
  | .enterCocoon h b => Sys2Proof.Machine.execEnterCocoon h b s
  | .getConditionReport h b => Sys2Proof.Machine.execGetConditionReport h b s
  | .resetServiceCounters h b o => Sys2Proof.Machine.execResetServiceCounters h b o s
  | .macsecKey h prt tx an sci ssci b unwrapOk => Sys2Proof.Machine.execMacsecKey h prt tx an sci ssci b unwrapOk s
  | .guestFirewall h index base size mask rate => Sys2Proof.Machine.execGuestFirewall h index base size mask rate s
  | .getErrorLog h first count b => Sys2Proof.Machine.execGetErrorLog h first count b s
  | .injectError h unitType index cls kind => Sys2Proof.Machine.execInjectError h unitType index cls kind s
  | .link h l enable widthMax retrain => Sys2Proof.Machine.execLink h l enable widthMax retrain s
  | .setLysId h system device torus => Sys2Proof.Machine.execSetLysId h system device torus s
  | .writeRoutes h b => Sys2Proof.Machine.execWriteRoutes h b s
  | .group h op id b => Sys2Proof.Machine.execGroup h op id b s
  | .port h p enable modeSel => Sys2Proof.Machine.execPort h p enable modeSel s
  | .feedInRange f => Sys2Proof.Machine.execFeedInRange f s
  | .feedOutOfRange f => Sys2Proof.Machine.execFeedOutOfRange f s
  | .feedOvervoltage f => Sys2Proof.Machine.execFeedOvervoltage f s
  | .feedReconnect f => Sys2Proof.Machine.execFeedReconnect f s
  | .feedMateOpen f => Sys2Proof.Machine.execFeedMateOpen f s
  | .feedSwitchover => Sys2Proof.Machine.execFeedSwitchover s
  | .rstNAssert => Sys2Proof.Machine.execRstNAssert s
  | .rstNRelease => Sys2Proof.Machine.execRstNRelease s
  | .sag orMv => Sys2Proof.Machine.execSag orMv s
  | .sagRecordDone orMv => Sys2Proof.Machine.execSagRecordDone orMv s
  | .feedReturn f => Sys2Proof.Machine.execFeedReturn f s
  | .orNodeLow => Sys2Proof.Machine.execOrNodeLow s
  | .firstStageStop => Sys2Proof.Machine.execFirstStageStop s
  | .firstStageStart => Sys2Proof.Machine.execFirstStageStart s
  | .powerMeasure aMv bMv powerMw vpkgA => Sys2Proof.Machine.execPowerMeasure aMv bMv powerMw vpkgA s
  | .capControlPeriod mean1ms mean10ms => Sys2Proof.Machine.execCapControlPeriod mean1ms mean10ms s
  | .fastLimit windowW => Sys2Proof.Machine.execFastLimit windowW s
  | .fastLimitRelease windowW => Sys2Proof.Machine.execFastLimitRelease windowW s
  | .sustainedOver mean1ms => Sys2Proof.Machine.execSustainedOver mean1ms s
  | .phaseFail cd phase => Sys2Proof.Machine.execPhaseFail cd phase s
  | .droop cd sensor mv => Sys2Proof.Machine.execDroop cd sensor mv s
  | .domainBudgetGrant cd neighbourMa vpkgMa => Sys2Proof.Machine.execDomainBudgetGrant cd neighbourMa vpkgMa s
  | .rampStep cd => Sys2Proof.Machine.execRampStep cd s
  | .engineGateClose c e => Sys2Proof.Machine.execEngineGateClose c e s
  | .clusterGateIdle cd => Sys2Proof.Machine.execClusterGateIdle cd s
  | .thermalZoneSample zone samples => Sys2Proof.Machine.execThermalZoneSample zone samples s
  | .fastRise channel => Sys2Proof.Machine.execFastRise channel s
  | .thermalTrip channel => Sys2Proof.Machine.execThermalTrip channel s
  | .flowCompute tachHz16 powerW => Sys2Proof.Machine.execFlowCompute tachHz16 powerW s
  | .lowFlowLeave => Sys2Proof.Machine.execLowFlowLeave s
  | .stackRestart stack => Sys2Proof.Machine.execStackRestart stack s
  | .coolantAbsent => Sys2Proof.Machine.execCoolantAbsent s
  | .flowProbe ev => Sys2Proof.Machine.execFlowProbe ev s
  | .rthMeasure stack tj0 tc0 p0 tj1 tc1 p1 => Sys2Proof.Machine.execRthMeasure stack tj0 tc0 p0 tj1 tc1 p1 s
  | .romEntry idx => Sys2Proof.Machine.execRomEntry idx s
  | .bundleHash componentsOk => Sys2Proof.Machine.execBundleHash componentsOk s
  | .poweringDone holdupUf => Sys2Proof.Machine.execPoweringDone holdupUf s
  | .guestAbsent => Sys2Proof.Machine.execGuestAbsent s
  | .trainingDone failedPackages failedCores => Sys2Proof.Machine.execTrainingDone failedPackages failedCores s
  | .fillDone => Sys2Proof.Machine.execFillDone s
  | .coreSelftest failedClusters repairedRows => Sys2Proof.Machine.execCoreSelftest failedClusters repairedRows s
  | .broadcastStart chunks => Sys2Proof.Machine.execBroadcastStart chunks s
  | .chunkWrite die chunk missed => Sys2Proof.Machine.execChunkWrite die chunk missed s
  | .repairRequest cd digestOk => Sys2Proof.Machine.execRepairRequest cd digestOk s
  | .repairRoundTimeout cd => Sys2Proof.Machine.execRepairRoundTimeout cd s
  | .eclosion => Sys2Proof.Machine.execEclosion s
  | .lastGaspCopy slot => Sys2Proof.Machine.execLastGaspCopy slot s
  | .watchdogExpiry p => Sys2Proof.Machine.execWatchdogExpiry p s
  | .procRestartDone p => Sys2Proof.Machine.execProcRestartDone p s
  | .liveSwitchStep p => Sys2Proof.Machine.execLiveSwitchStep p s
  | .emergencyClear => Sys2Proof.Machine.execEmergencyClear s
  | .rollback => Sys2Proof.Machine.execRollback s
  | .svnAdvance => Sys2Proof.Machine.execSvnAdvance s
  | .wavesStopped => Sys2Proof.Machine.execWavesStopped s
  | .resetSelftestDone failedClusters => Sys2Proof.Machine.execResetSelftestDone failedClusters s
  | .clusterFence cd event dispatcherAnswers => Sys2Proof.Machine.execClusterFence cd event dispatcherAnswers s
  | .deviceErrorReset event => Sys2Proof.Machine.execDeviceErrorReset event s
  | .errorRecordWrite event unitType unitIndex => Sys2Proof.Machine.execErrorRecordWrite event unitType unitIndex s
  | .serviceLifeCopy index => Sys2Proof.Machine.execServiceLifeCopy index s
  | .counterBlockWrite => Sys2Proof.Machine.execCounterBlockWrite s
  | .guestRequest op addr len malformed data => Sys2Proof.Machine.execGuestRequest op addr len malformed data s
  | .cocoonWipeDone slicesUnwiped packagesUnwiped verifyFailures => Sys2Proof.Machine.execCocoonWipeDone slicesUnwiped packagesUnwiped verifyFailures s
  | .cocoonFlashDone => Sys2Proof.Machine.execCocoonFlashDone s
  | .wipeCertificate => Sys2Proof.Machine.execWipeCertificate s
  | .pauseTimeExpiry p prio => Sys2Proof.Machine.execPauseTimeExpiry p prio s
  | .stormIgnoreEnd p prio => Sys2Proof.Machine.execStormIgnoreEnd p prio s
  | .dhcpReply p v6 addr prefixLen router => Sys2Proof.Machine.execDhcpReply p v6 addr prefixLen router s
  | .arpReply p ip mac => Sys2Proof.Machine.execArpReply p ip mac s
  | .neighbourAdvertisement p ip => Sys2Proof.Machine.execNeighbourAdvertisement p ip s
  | .rdmaAcknowledgement qp ok => Sys2Proof.Machine.execRdmaAcknowledgement qp ok s
  | .sessionLifetimeEnd path => Sys2Proof.Machine.execSessionLifetimeEnd path s
  | .resetDelayExpiry => Sys2Proof.Machine.execResetDelayExpiry s
  | .phaseEmergencyEnd => Sys2Proof.Machine.execPhaseEmergencyEnd s
  | .reportedFault p => Sys2Proof.Machine.execReportedFault p s
  | .housekeepingSupplyUp => Sys2Proof.Machine.execHousekeepingSupplyUp s
  | .outerWriteAcknowledge m req busErrors => Sys2Proof.Machine.execOuterWriteAcknowledge m req busErrors s
  | .sliceBurstComplete c slot => Sys2Proof.Machine.execSliceBurstComplete c slot s

end Sys2Proof.Machine
end

