-- ==== Sys2Proof/Safety.lean ====
section
/-!
DEFINITION. What a safe run of the block is, in the terms the claims use: a step answers a next state, and memory
stays in canonical form.
-/

namespace Sys2Proof.Machine

/-- The step answers a next state. -/
def Completes (s : State) : Prop := ∃ t, step s = .next t

/-- A core runs a kernel, and nothing of it is fetched, queued, held, watched or waiting: the next instruction it fetches
is dispatched at once. -/
def Core.quiet (k : Core) : Bool :=
  k.fetching && !k.ended && k.stream.isEmpty && k.hold == .none && k.items.isEmpty && k.chains.isEmpty && k.watch.isEmpty &&
    k.baraWait.isEmpty

/-- A core after the dispatch of one instruction to an engine: the next offset, the next place in program order, and the
engine's clock gate open (R57, R101, R496). -/
def Core.issued (k : Core) (e : Engine) : Core :=
  { k with nextOff := k.nextOff + 1, seqNo := k.seqNo + 1, gatesClosed := k.gatesClosed.filter (· != e) }

/-- A mailbox command's header and opcode (R441). -/
def cmdOf : Instr → Option (CmdHdr × Nat)
  | .getInfo h => some (h, 0x0101)
  | .computeReset h _ _ => some (h, 0x0102)
  | .deviceReset h => some (h, 0x0103)
  | .config h _ _ _ => some (h, 0x0104)
  | .openSession h _ _ => some (h, 0x0105)
  | .submitProgram h _ => some (h, 0x0201)
  | .removeProgram h _ => some (h, 0x0202)
  | .registerModel h _ => some (h, 0x0301)
  | .removeModel h _ => some (h, 0x0302)
  | .setResidency h _ _ _ => some (h, 0x0303)
  | .registerAdapter h _ => some (h, 0x0304)
  | .removeAdapter h _ => some (h, 0x0305)
  | .prefix_ h _ _ _ _ => some (h, 0x0306)
  | .registerTokeniser h _ _ _ _ _ => some (h, 0x0307)
  | .finetune h _ _ _ _ => some (h, 0x0308)
  | .serviceSet h _ _ _ _ _ _ _ => some (h, 0x0401)
  | .getService h _ => some (h, 0x0402)
  | .submitTask h _ => some (h, 0x0501)
  | .cancelTask h _ => some (h, 0x0502)
  | .getTaskState h _ => some (h, 0x0503)
  | .openEpoch h => some (h, 0x0504)
  | .commit h _ _ => some (h, 0x0505)
  | .discard h _ => some (h, 0x0506)
  | .setReady h _ => some (h, 0x0507)
  | .submitCollective h _ => some (h, 0x0508)
  | .window h _ _ _ _ _ _ _ _ => some (h, 0x0601)
  | .region h _ _ _ _ _ _ _ => some (h, 0x0602)
  | .retire h _ _ _ _ => some (h, 0x0603)
  | .unitRegs h _ _ _ _ => some (h, 0x0604)
  | .exportWindow h _ _ _ _ _ => some (h, 0x0605)
  | .setPowerCap h _ => some (h, 0x0701)
  | .setProboscis h _ _ => some (h, 0x0702)
  | .domain h _ _ _ => some (h, 0x0703)
  | .getPower h => some (h, 0x0704)
  | .getThermal h _ => some (h, 0x0801)
  | .getRth h _ => some (h, 0x0802)
  | .stageFirmware h _ _ _ => some (h, 0x0901)
  | .activateFirmware h _ => some (h, 0x0902)
  | .getFirmware h => some (h, 0x0903)
  | .takeOwnership h _ _ => some (h, 0x0A01)
  | .tenant h _ _ _ => some (h, 0x0A02)
  | .getQuote h _ _ => some (h, 0x0A03)
  | .enterCocoon h _ => some (h, 0x0A04)
  | .getConditionReport h _ => some (h, 0x0A05)
  | .resetServiceCounters h _ _ => some (h, 0x0A06)
  | .macsecKey h _ _ _ _ _ _ _ => some (h, 0x0A07)
  | .guestFirewall h _ _ _ _ _ => some (h, 0x0A08)
  | .getErrorLog h _ _ _ => some (h, 0x0B01)
  | .injectError h _ _ _ _ => some (h, 0x0B02)
  | .link h _ _ _ _ => some (h, 0x0C01)
  | .setLysId h _ _ _ => some (h, 0x0C02)
  | .writeRoutes h _ => some (h, 0x0C03)
  | .group h _ _ _ => some (h, 0x0C04)
  | .port h _ _ _ => some (h, 0x0C05)
  | _ => none

/-- A command is the only one in progress, it is its turn, and its path and the device's state let it run (R434 to R439). -/
def State.runs (s : State) (h : CmdHdr) (op : Nat) : Prop :=
  ∃ c, s.ctl.inProgress = [c] ∧ c.hdr = h ∧ c.op = op ∧ c.started = false ∧ c.discard = false ∧ c.hostOwned = false ∧ s.fw.schRestart = false ∧
    s.ctl.turn c = true ∧ s.cmdRefusal h.path op = none

/-- The command has been answered in `t`: nothing is in progress, and its response waits to be written (R432, R434). -/
def State.answered (s t : State) (h : CmdHdr) (op st : Nat) (effect : Bool) (detail : Word) (results : List Byte) : Prop :=
  t.ctl.inProgress = [] ∧ t.ctl.completed = s.ctl.completed ++
    [{ hdr := h, op := op, status := st, effect := effect, detail := detail, results := results, endTime := s.now }]

/-- The state in which the commands in progress have started (R434). -/
def State.begun (s : State) : State := s.onCtl fun k => { k with inProgress := k.inProgress.map fun c => { c with started := true } }

/-- A cluster clock is set to what all the rules together give it. -/
def State.tuned (s : State) : Prop := ∀ cd, cd < 512 → (s.cluster cd).goal = s.wantClk cd

/-- Memory is in canonical form: what every operation on it keeps. -/
def State.MemOk (s : State) : Prop := s.mem.wf = true

end Sys2Proof.Machine
end

