-- ==== Sys2Proof/Certificates/Slice0/Obligations.lean ====
section
/-! DEFINITION. The statements for the provers. -/

open Sys2Proof Sys2Proof.Machine

/-- A step with a command waiting is that command's effect on the state with the queue's rest; with none waiting the hub
counter advances by one nanosecond and nothing else changes (the model's choice, log entry 1). -/
def Obligations.StepRunsFrontCommand : Prop :=
  (∀ (s : State) (c : Instr) (rest : List Instr), step { s with pending := c :: rest } = exec c { s with pending := rest }) ∧
  ∀ s : State, s.pending = [] → step s = .next { s with now := s.now + 1 }

/-- Every command and every step keeps memory in canonical form: addresses strictly rising and no byte listed that an unlisted
address reads as. -/
def Obligations.StepKeepsMemoryCanonical : Prop :=
  (∀ (c : Instr) (s t : State), s.MemOk → exec c s = .next t → t.MemOk) ∧
  ∀ s t : State, s.MemOk → step s = .next t → t.MemOk

/-- The state after reset, by R427, R444, R268 and R395; that an unwritten byte reads zero is log entry 6. -/
def Obligations.ResetLeavesTheseValues : Prop :=
  State.reset.MemOk ∧ (∀ a : Nat, State.reset.mem.byte a = 0 ∧ State.reset.mem.marked a = false) ∧
    State.reset.pending = [] ∧ State.reset.dev = .off ∧ State.reset.dcsReg 0x0000 = 0x3153434447520001 ∧
    State.reset.dcsReg 0x0110 = 0 ∧ State.reset.dcsReg 0x0118 = 8 ∧ State.reset.dcsReg 0x0120 = 0 ∧
    State.reset.dcsReg 0x0200 = 0x050000010000 ∧ State.reset.dcsReg 0x0208 = 0x050000020000 ∧
    (∀ off ∈ [0x0210, 0x0218, 0x0220, 0x0228, 0x0230, 0x0300, 0x0308], State.reset.dcsReg off = 0) ∧
    (∀ w i, w < 64 → i < 4 → State.reset.dcsReg (0x0800 + 32 * w + 8 * i) = 0) ∧
    (∀ c, (State.reset.core c).cubeFlags = 0 ∧ ∀ e, (State.reset.core c).queue e = []) ∧
    (∀ m, (State.reset.outer m).activeMax = 16) ∧ (∀ l, (State.reset.linkSt l).state = .down ∧ (State.reset.linkSt l).enable = true) ∧
    (∀ cd, State.reset.fenced cd = false) ∧ State.reset.log.ring = []

/-- First in, first out: a command changes nothing of the queue, and after the front command has run, the next step runs the
command that stood behind it, with the rest behind that. -/
def Obligations.QueueDrainsInOrder : Prop :=
  (∀ (c : Instr) (s t : State), exec c s = .next t → t.pending = s.pending) ∧
  ∀ (c d : Instr) (rest : List Instr) (s t : State), step { s with pending := c :: d :: rest } = .next t →
    exec c { s with pending := d :: rest } = .next t ∧ t.pending = d :: rest ∧
      step t = exec d { t with pending := rest }

/-! ### Core instructions -/

/-- The state after a vector instruction on a quiet core has left memory as `m`. -/
def Sys2Proof.Machine.State.vecDone (s : State) (c : Nat) (m : Mem) : State :=
  { s with mem := m, cores := put s.cores c ((s.core c).issued .vec) }

/-- The value of raw bits `x` of operand field `f`. -/
def Sys2Proof.Machine.valOf (f : Dword) (x : Nat) : Val := decodeElem (opnd f).fmt x

/-- Each elementwise floating-point instruction of R106 completes on a quiet core: the rows of Dest hold the results, rounded
once (R92, R117), with Src_B shaped by R118, and nothing else changes but the core's place in its kernel. -/
def Obligations.VectorArithmeticStoresDest : Prop :=
  ∀ (c : Nat) (w : IFields) (s : State), (s.core c).quiet = true →
    let rnd := roundTo (opnd w.dest).fmt (rtzMode w)
    let stored (f : Nat → Nat → Nat → Nat → Nat) := s.vecDone c (s.storeRowsAt c (opnd w.dest) (s.zipAB c w f)).mem
    exec (.vadd c w) s = .next (stored fun _ _ a b => rnd ((valOf w.srcA a).add (valOf w.srcB b))) ∧
    exec (.vsub c w) s = .next (stored fun _ _ a b => rnd ((valOf w.srcA a).add (valOf w.srcB b).neg)) ∧
    exec (.vmul c w) s = .next (stored fun _ _ a b => rnd ((valOf w.srcA a).mul (valOf w.srcB b))) ∧
    exec (.vmax c w) s = .next (stored fun _ _ a b => rnd ((valOf w.srcA a).max2 (valOf w.srcB b))) ∧
    exec (.vmin c w) s = .next (stored fun _ _ a b => rnd ((valOf w.srcA a).min2 (valOf w.srcB b))) ∧
    exec (.vcmpgt c w) s = .next (stored fun _ _ a b => if (valOf w.srcB b).lt (valOf w.srcA a) then 1 else 0) ∧
    (let dst (i j : Nat) := ((s.rawRows c (opnd w.dest)).getD i []).getD j (0, false);
      exec (.vfma c w) s = .next (s.vecDone c (s.storeRowsAt c (opnd w.dest) ((s.zipAB c w fun i j a b =>
        rnd (((valOf w.srcA a).mul (valOf w.srcB b)).add (valOf w.dest (dst i j).1))).mapIdx fun i row =>
          row.mapIdx fun j x => (x.1, x.2 || (dst i j).2))).mem)) ∧
    (let mode (i j : Nat) : RMode := match bits w.mods.toNat 1 0 with
        | 0 => .rne
        | 1 => .rtz
        | _ => .sr (srBits (s.core c).seed ((s.core c).tileRow + BitVec.ofNat 32 i) ((s.core c).tileCol + BitVec.ofNat 32 j)
            (w.aux.truncate 32));
      exec (.vcvt c w) s = .next (s.vecDone c (s.storeRowsAt c (opnd w.dest)
        ((s.rawRows c (opnd w.srcA)).mapIdx fun i row => row.mapIdx fun j x =>
          (if (opnd w.dest).fmt = fmtInt32 then toInt32 (mode i j) (valOf w.srcA x.1)
           else roundTo (opnd w.dest).fmt (mode i j) (valOf w.srcA x.1), x.2))).mem)) ∧
    exec (.vcopy c w) s = .next (s.vecDone c (s.storeRowsAt c (opnd w.dest) (s.rawRows c (opnd w.srcA))).mem)

/-- The special functions of R93 and the reductions of R95 complete on a quiet core and store their results. -/
def Obligations.VectorSpecialAndReductions : Prop :=
  ∀ (c : Nat) (w : IFields) (s : State), (s.core c).quiet = true →
    let special (f : Val → Word) := s.vecDone c (s.storeRowsAt c (opnd w.dest)
      ((s.rawRows c (opnd w.srcA)).map fun row => row.map fun x =>
        (if (opnd w.dest).fmt = fmtFP32 then (f (valOf w.srcA x.1)).toNat
         else roundTo (opnd w.dest).fmt (rtzMode w) (ofF32 (f (valOf w.srcA x.1))), x.2))).mem
    let reduced (f : List Val → Val) := s.vecDone c (s.storeElems c (opnd w.dest) 0
      ((s.rawRows c (opnd w.srcA)).map fun row =>
        (roundTo (opnd w.dest).fmt (rtzMode w) (f (row.map fun x => valOf w.srcA x.1)), row.any (·.2)))).mem
    exec (.vexp c w) s = .next (special spExp) ∧ exec (.vlog c w) s = .next (special spLog) ∧
    exec (.vrcp c w) s = .next (special spRcp) ∧ exec (.vrsqrt c w) s = .next (special spRsqrt) ∧
    exec (.vtanh c w) s = .next (special spTanh) ∧ exec (.verf c w) s = .next (special spErf) ∧
    exec (.rowmax c w) s = .next (reduced rowMax) ∧ exec (.rowsum c w) s = .next (reduced rowSum) ∧
    exec (.rowsumsq c w) s = .next (reduced rowSumSq)

/-- The integer instructions of R106, ACCADD (R85) and VRAND (R96; the counters of its blocks are free values, log entry 9) complete on a quiet
core. -/
def Obligations.VectorIntegersAndRecords : Prop :=
  ∀ (c : Nat) (w : IFields) (s : State), (s.core c).quiet = true →
    let stored (f : Word → Word → Word) := s.vecDone c (s.storeRowsAt c (opnd w.dest)
      (s.zipAB c w fun _ _ a b => (f (BitVec.ofNat 32 a) (BitVec.ofNat 32 b)).toNat)).mem
    exec (.viadd c w) s = .next (stored (· + ·)) ∧ exec (.vimul c w) s = .next (stored (· * ·)) ∧
    exec (.vishr c w) s = .next (stored fun a b => a.sshiftRight (b.toNat % 32)) ∧
    exec (.viand c w) s = .next (stored (· &&& ·)) ∧
    exec (.vimin c w) s = .next (stored fun a b => if a.slt b then a else b) ∧
    exec (.accadd c w) s = .next (s.vecDone c (s.storeRowsAt c (opnd w.dest) (s.zipAB c { w with mods := 0 } fun _ _ a b =>
      ((AccEntry.ofRecord a false).combine (AccEntry.ofRecord b false)).record)).mem) ∧
    exec (.vrand c w) s = .next (s.vecDone c (s.storeRowsAt c (opnd w.dest)
      ((List.range (opnd w.dest).rows).map fun i => (List.range (opnd w.dest).cols).map fun j =>
        ((vrandWord (s.core c).seed w (s.core c).tileRow (s.core c).tileCol i j).toNat, false))).mem)

/-- One sum of VIADD seen through the scratchpad: the word at Dest is A + B mod 2^32 (R106), and every byte outside it reads as
before. -/
def Obligations.IntegerAddReadsBack : Prop :=
  ∀ (c : Nat) (w : IFields) (s : State), (s.core c).quiet = true → s.MemOk → w.mods = 0 →
    (∀ f, f = w.dest ∨ f = w.srcA ∨ f = w.srcB → (opnd f).rows = 1 ∧ (opnd f).cols = 1 ∧ (opnd f).fmt = fmtInt32 ∧ (opnd f).addr % 32 = 0) →
    ∃ t, exec (.viadd c w) s = .next t ∧
      leNat (t.spRead c (opnd w.dest).addr 4) =
        (leNat (s.spRead c (opnd w.srcA).addr 4) + leNat (s.spRead c (opnd w.srcB).addr 4)) % 2 ^ 32 ∧
      ∀ a, (a < spad c (opnd w.dest).addr ∨ spad c (opnd w.dest).addr + 4 ≤ a) → t.mem.byte a = s.mem.byte a

/-- ACLR on a quiet core (R81, R114): the tiles of Modifiers [3:0] are zeroed and take the mode and anchor; the others stay. -/
def Obligations.AclrSetsTiles : Prop :=
  ∀ (c : Nat) (w : IFields) (s : State), (s.core c).quiet = true →
    ∃ t, exec (.aclr c w) s = .next t ∧ t.mem = s.mem ∧ (t.core c).cubeFlags = (s.core c).cubeFlags ∧
      (∀ d, d ≠ c → t.core d = s.core d) ∧
      ∀ n, n < 4 →
        (w.mods.getLsbD n = true →
          (t.core c).tile n = { f32Mode := w.mods.getLsbD 4, anchor := if w.mods.getLsbD 4 then 0 else asInt 8 (bits w.aux.toNat 7 0) } ∧
          ∀ i, i / 64 = n → (t.core c).acc i = {}) ∧
        (w.mods.getLsbD n = false →
          (t.core c).tile n = (s.core c).tile n ∧ ∀ i, i / 64 = n → (t.core c).acc i = (s.core c).acc i)

/-- CMMA on a quiet core (R73, R76, R82, R90): D[i, j] += A[i, ·] × B[j, ·], and nothing else. -/
def Obligations.CmmaAccumulatesEntries : Prop :=
  ∀ (c : Nat) (w : IFields) (s : State), (s.core c).quiet = true →
    let cl := classOfPair (opnd w.srcA).fmt (opnd w.srcB).fmt
    let base := (opnd w.dest).accBase
    let n := (opnd w.dest).cols
    (s.core c).anyMode base (opnd w.dest).entries (cl != .sixteen) = false →
    ∃ t, exec (.cmma c w) s = .next t ∧ t.mem = s.mem ∧ (t.core c).tiles = (s.core c).tiles ∧
      (t.core c).cubeFlags = (s.core c).cubeFlags ∧
      (∀ i j, i < (opnd w.dest).rows → j < n →
        (t.core c).acc (base + i * n + j) =
          cmmaEntry cl (shapeOf (bits w.mods.toNat 1 0) cl).2.1 ((s.core c).tile ((base + i * n + j) / 64)).anchor
            (s.cubeRow c (opnd w.srcA) i) (s.cubeRow c (opnd w.srcB) j) ((s.core c).acc (base + i * n + j))) ∧
      ∀ x, (x < base ∨ base + (opnd w.dest).rows * n ≤ x) → (t.core c).acc x = (s.core c).acc x

/-- The mode rule of R80: the mismatch ends the task with BAD_ARG at the instruction's offset. -/
def Obligations.AccModeMismatchEndsTask : Prop :=
  ∀ (c : Nat) (w : IFields) (s : State), (s.core c).quiet = true →
    let ends (i : Instr) := ∃ t, exec i s = .next t ∧ t.mem = s.mem ∧ (t.core c).ended = true ∧ (t.core c).fetching = false ∧
      (t.core c).failed = some stBadArg ∧ (t.core c).failOff = (s.core c).nextOff
    ((s.core c).anyMode (opnd w.dest).accBase (opnd w.dest).entries
      (classOfPair (opnd w.srcA).fmt (opnd w.srcB).fmt != .sixteen) = true → ends (.cmma c w)) ∧
    ((s.core c).anyMode (opnd w.srcA).accBase (opnd w.srcA).entries true = true → ends (.accst c w)) ∧
    ((s.core c).anyMode (opnd w.dest).accBase (opnd w.dest).entries true = true → ends (.accld c w))

/-- ACCST and ACCLD on a quiet core (R84, R85, R116). -/
def Obligations.RecordsStoreAndLoad : Prop :=
  ∀ (c : Nat) (w : IFields) (s : State), (s.core c).quiet = true →
    let oa := opnd w.srcA
    let od := opnd w.dest
    ((s.core c).anyMode oa.accBase oa.entries true = false →
      exec (.accst c w) s = .next { s with
        cores := put s.cores c ((s.core c).issued .cube)
        mem := ((List.range oa.rows).foldl (fun x i => x.storeElems c od i ((List.range oa.cols).map fun j =>
          (((s.core c).acc (oa.accBase + i * oa.cols + j)).record, ((s.core c).acc (oa.accBase + i * oa.cols + j)).poison))) s).mem }) ∧
    ((s.core c).anyMode od.accBase od.entries true = false →
      ∃ t, exec (.accld c w) s = .next t ∧ t.mem = s.mem ∧ (t.core c).tiles = (s.core c).tiles ∧
        (∀ i j, i < od.rows → j < od.cols →
          (t.core c).acc (od.accBase + i * od.cols + j) = ((s.core c).acc (od.accBase + i * od.cols + j)).combine
            (let r := (s.rawRow c { oa with cols := od.cols, fmt := fmtAcc } i).getD j (0, false)
             AccEntry.ofRecord r.1 r.2)) ∧
        ∀ x, (x < od.accBase ∨ od.accBase + od.rows * od.cols ≤ x) → (t.core c).acc x = (s.core c).acc x)

/-- CCVT on a quiet core (R86 to R89, R91, R115). -/
def Obligations.CcvtConvertsEntries : Prop :=
  ∀ (c : Nat) (w : IFields) (s : State), (s.core c).quiet = true →
    let oa := opnd w.srcA
    let od := opnd w.dest
    let k := s.core c
    let g := s.scaleFactors c w
    let mode (i j : Nat) : RMode := match bits w.mods.toNat 1 0 with
      | 0 => .rne
      | 1 => .rtz
      | _ => .sr (srBits k.seed (k.tileRow + BitVec.ofNat 32 i) (k.tileCol + BitVec.ofNat 32 j) (w.aux.truncate 32))
    let entry (i j : Nat) := k.acc (oa.accBase + i * oa.cols + j)
    let tile (i j : Nat) := k.tile ((oa.accBase + i * oa.cols + j) / 64)
    let conv (i j : Nat) : Nat × Bool :=
      if (tile i j).f32Mode then convertF32 (entry i j).f32 ((ffmt od.fmt).getD fFP32) (mode i j) (w.mods.getLsbD 2) g.1 g.2.1
      else ((entry i j).taken (tile i j).anchor).convert ((ffmt od.fmt).getD fFP32) (mode i j) (w.mods.getLsbD 2) g.1 g.2.1
    let flags (i j : Nat) : BitVec 9 :=
      (if (tile i j).f32Mode then f32CubeFlags (entry i j).f32 (entry i j).poison else (entry i j).cubeFlags) |||
        (if (conv i j).2 then outOvf else 0#9)
    exec (.ccvt c w) s = .next { s with
      mem := ((List.range oa.rows).foldl (fun x i => x.storeElems c od i
        ((List.range oa.cols).map fun j => ((conv i j).1, (entry i j).poison || g.2.2))) s).mem
      cores := put s.cores c { k.issued .cube with
        cubeFlags := k.cubeFlags ||| ((List.range oa.rows).flatMap fun i => (List.range oa.cols).map (flags i)).foldl (· ||| ·) 0#9 } }

/-- R82 and R98: the content of an EXACT entry is fixed by the multiset of its products, whatever their order. -/
def Obligations.ExactAccumulationOrderFree : Prop :=
  ∀ (x : Int) (e : AccEntry) (l1 l2 : List (Val × Val × Option Int × Bool)), l1.Perm l2 →
    l1.foldl (fun a p => a.mac x p.1 p.2.1 p.2.2.1 p.2.2.2) e = l2.foldl (fun a p => a.mac x p.1 p.2.1 p.2.2.1 p.2.2.2) e

/-- The combination of R85. -/
def Obligations.RecordCombination : Prop :=
  (∀ a b : AccEntry,
    (a.combine b).acc = a.acc + b.acc ∧ (a.combine b).count = min (a.count + b.count) (2 ^ 25 - 1) ∧
    (a.combine b).flags = a.flags ||| b.flags ||| (if 2 ^ 24 < a.count + b.count then 1#7 <<< flKLimit else 0#7) ∧
    (a.combine b).poison = (a.poison || b.poison) ∧
    (a.combine b).acc = (b.combine a).acc ∧ (a.combine b).count = (b.combine a).count ∧
    (a.combine b).flags = (b.combine a).flags ∧ (a.combine b).poison = (b.combine a).poison) ∧
  ∀ a b c : AccEntry, (a.combine b).combine c = a.combine (b.combine c)

/-- The sequencer instructions of R106 to R112 and R127, and the start of those of R120, R122 and R123 (R57, R58, R121), on a core
with nothing queued. -/
def Obligations.SequencerInstructionsAct : Prop :=
  ∀ (c : Nat) (w : IFields) (s : State), (s.core c).quiet = true →
    let v := w.aux.toNat
    let taken (f : Core → Core) : State := s.modCore c fun k => f { k with nextOff := k.nextOff + 1 }
    exec (.nop c w) s = .next (taken id) ∧
    exec (.endKernel c w) s = .next ((taken fun k => k.halt.boundary).clusterDone (cdOf c)) ∧
    exec (.waitq c w) s = .next (taken id) ∧
    exec (.drain c w) s = .next (taken id) ∧
    exec (.bara c w) s = .next (taken fun k => { k with arrived := k.arrived ++ [(bits v 3 0, bits v 4 4 == 1)] }) ∧
    exec (.barw c w) s = .next (taken fun k =>
      if k.released.contains (bits v 3 0, bits v 4 4 == 1) then { k with released := k.released.erase (bits v 3 0, bits v 4 4 == 1) }
      else { k with hold := .barw (bits v 3 0) (bits v 4 4 == 1) }) ∧
    exec (.rdreg c w) s = .next (
      let s1 := if bits v 11 0 = 0x020 then s.tickCore c else s
      let x := s1.coreReg c (bits v 11 0)
      { s1.modCore c fun k => { k with nextOff := k.nextOff + 1 } with
        mem := (s.storeElems c (opnd w.dest) 0 [(x % 2 ^ 32, false), (x / 2 ^ 32, false)]).mem }) ∧
    exec (.pmark c w) s = .next (taken fun k => { k with mark := some (BitVec.ofNat 32 (bits v 31 0)) }) ∧
    (0 < bits v 24 16 → exec (.loop c w) s = .next (taken fun k =>
      { k with stream := [{ op := 0x02, w := w, off := (s.core c).nextOff }] })) ∧
    exec (.chain c w) s = .next (taken fun k => { k with stream := [{ op := 0x09, w := w, off := (s.core c).nextOff }] }) ∧
    (let started (op : Nat) (e : Engine) : State := (s.modCore c fun k => (k.issued e).setQueue e
        [{ op := op, w := w, off := k.nextOff, status := .scoreboard, seq := k.seqNo }]).startLong c e (s.core c).seqNo |>.modCore c Core.arrive;
      exec (.mload c w) s = .next (started 0x80 .move) ∧ exec (.mstore c w) s = .next (started 0x81 .move) ∧
      exec (.gload c w) s = .next (started 0xA0 .gather) ∧ exec (.gscat c w) s = .next (started 0xA1 .gather) ∧
      exec (.gpage c w) s = .next (started 0xA2 .gather))

/-- R107 with a body of one instruction: Count iterations, each with its own loop terms; none when Count is 0. -/
def Obligations.LoopRunsBodyCountTimes : Prop :=
  ∀ (c : Nat) (l w : IFields) (s s1 : State), (s.core c).quiet = true →
    bits l.aux.toNat 24 16 = 1 → bits l.aux.toNat 25 25 = 0 →
    exec (.loop c l) s = .next s1 →
    ∃ t, exec (.viadd c w) s1 = .next t ∧
      t.mem = ((List.range (bits l.aux.toNat 15 0)).foldl (fun x k => x.vecOp c 0x60 (addTerms 0x60 w [(k, l)])) s).mem ∧
      (t.core c).seqNo = (s.core c).seqNo + bits l.aux.toNat 15 0 ∧
      (t.core c).nextOff = (s.core c).nextOff + 2 ∧ (t.core c).quiet = true ∧
      ∀ d, d ≠ c → t.core d = s.core d

/-- R120 for a box of one row in an outer package, seen through memory. -/
def Obligations.MoveCopiesRow : Prop :=
  ∀ (c : Nat) (w : IFields) (s : State), (s.core c).quiet = true → s.MemOk →
    ∀ d : Desc, s.fetchDesc c (bits w.aux.toNat 11 0) = (s, d, false) → d.kind = 0 →
    let row := d.elemAddr (bits w.srcB.toNat 39 0) (bits w.srcB.toNat 63 40)
    let src := opnd w.srcA
    let dst := opnd w.dest
    let fits (o : Opnd) : Prop := o.rows = 1 ∧ 0 < o.rowLen ∧ o.addr + o.rowLen ≤ 65536 ∧
      (outerBase : Int) ≤ row ∧ row + o.rowLen ≤ ((outerBase + 12 * outerSize : Nat) : Int)
    let kept (m : Mem) (a n : Nat) : Prop := ∀ x, (x < a ∨ a + n ≤ x) → m.byte x = s.mem.byte x
    (s.core c).slotFree row.toNat = true →
    (fits dst → s.mem.flipUnits row.toNat dst.rowLen = [] → s.answer (.core c .move) row.toNat dst.rowLen false = .go →
      ∃ t, exec (.mload c w) s = .next t ∧ (t.core c).qMove.map (fun q => (q.op, q.status)) = [(0x80, .done)] ∧
        t.spRead c dst.addr dst.rowLen = s.mem.read row.toNat dst.rowLen ∧ kept t.mem (spad c dst.addr) dst.rowLen) ∧
    (fits src → s.answer (.core c .move) row.toNat src.rowLen true = .go →
      ∃ t, exec (.mstore c w) s = .next t ∧ (t.core c).qMove.map (fun q => (q.op, q.status)) = [(0x81, .done)] ∧
        t.mem.read row.toNat src.rowLen = s.spRead c src.addr src.rowLen ∧ kept t.mem row.toNat src.rowLen)

/-- The releases of R57, R108, R109 and R110. -/
def Obligations.HeldDispatchResumes : Prop :=
  ∀ (c : Nat) (s : State),
    (∀ e d, (s.core c).hold = .waitq e d →
      exec (.waitqRelease c) s = .next (if ((s.core c).queue e).length ≤ d then s.resume c else s)) ∧
    (∀ m, (s.core c).hold = .drain m →
      exec (.drainRelease c) s = .next (if ∀ e ∈ [Engine.cube, .vec, .move, .gather], m.testBit (Engine.num e) = true → (s.core c).queue e = [] then s.resume c else s)) ∧
    (∀ e, (s.core c).hold = .stall e →
      exec (.sequencerStallRelease c) s = .next (if ((s.core c).queue e).length < 32 then s.resume c else s)) ∧
    (∀ task cd id scope, s.participants task cd scope ≠ [] →
      exec (.barrierRelease task cd id scope) s = .next
        (if ∀ p ∈ s.participants task cd scope, (id, scope) ∈ (s.core p).arrived then
          (s.participants task cd scope).foldl (fun s p =>
            let s1 := s.modCore p fun k => { k with arrived := k.arrived.erase (id, scope) }
            if (s1.core p).hold = .barw id scope then s1.resume p
            else s1.modCore p fun k => { k with released := k.released ++ [(id, scope)] }) s
        else s)) ∧
    ((s.core c).stream = [] → (s.core c).baraWait = [] → s.resume c = s.modCore c fun k => { k with hold := .none })

/-- R65, R121, R126, R196, R218, R220, R264 and R342 for a queued instruction. -/
def Obligations.QueuedInstructionsGoOn : Prop :=
  ∀ (c : Nat) (e : Engine) (q : QItem) (s : State), (s.core c).stream = [] → (s.core c).baraWait = [] →
    ((e = .cube ∨ e = .vec) → (s.core c).ended = false → (s.core c).queue e = [q] → q.status = .scoreboard →
      (s.core c).blocked q = false → (s.core c).watch = [] →
      exec (.scoreboardRelease c e) s = .next
        (((s.modCore c fun k => k.setQueue e []).runXV c q.op q.w q.off q.seq).modCore c Core.arrive)) ∧
    ((s.core c).firstWith e .watch = some q →
      exec (.watchEntryFree c e) s = .next ((s.startLong c e q.seq).modCore c Core.arrive)) ∧
    (let again := (if q.plan.isEmpty then s.startLong c e q.seq else s.continueItem c e q.seq).modCore c Core.arrive;
      let only (st : QStatus) : Prop := ((s.core c).queue e).filter (·.status == st) = [q];
      (∀ r ∈ s.lys.remotes, r.held = none) →
      (only .retry → exec (.retryReissue c e) s = .next again) ∧ (only .busy → exec (.busyReissue c e) s = .next again) ∧
      (only .resetting → exec (.resettingReissue c e) s = .next again)) ∧
    ((∀ x ∈ (s.core c).queue e, x.status = .scoreboard) → ∀ t, t = s.modCore c Core.arrive →
      exec (.retryReissue c e) s = .next t ∧ exec (.busyReissue c e) s = .next t ∧ exec (.resettingReissue c e) s = .next t) ∧
    ((e = .move ∨ e = .gather) → q.status = .done →
      ((s.core c).queue e = [q] → s.closingOk q = true → exec (.engineInstrComplete c e) s = .next
        ((if q.pages.isEmpty then s.modCore c fun k => k.setQueue e [] else
          (s.modCore c fun k => k.setQueue e []).modSlice c fun sl => { sl with closingJudged := satAdd 16 sl.closingJudged 1 }).modCore c Core.arrive)) ∧
      (((s.core c).queue e).head? = some q → s.closingOk q = false →
        exec (.engineInstrComplete c e) s = .next (((s.reissue c q).startQueue c e 1).completed c))) ∧
    ∀ n, (((s.core c).queue e).filter (s.core c).executes)[n]? = some q →
      exec (.instrTimeLimit c { engine := e, nth := n }) s = .next (s.taskError c .taskTimeout stTimeout q.off 0)

/-- R127, R128 and R131. -/
def Obligations.ChainsRunInOrder : Prop :=
  (∀ (c : Nat) (ch : ChainState) (later : List ChainState) (s : State), (s.core c).chains = ch :: later → ch.started = false → (s.core c).watch = [] →
    (∀ q ∈ (s.core c).qCube ++ (s.core c).qVec, q.status = .chain) →
    let go := s.modCore c fun k => { k with chains := { ch with started := true } :: later }
    exec (.chainCycleZero c none) s = .next go ∧
    ∀ m x, ch.members[m]? = some x → ((go.runMembers c (ch.members.take m)).core c).ended = false →
      exec (.chainCycleZero c (some m)) s =
        .next ((go.runMembers c (ch.members.take m)).taskError c .chainHazard stChainHazard x.1 0)) ∧
  (∀ (c : Nat) (e : Engine) (ch : ChainState) (m : Nat × Nat × IFields × Nat) (rest : List (Nat × Nat × IFields × Nat)) (later : List ChainState) (s : State),
    (s.core c).chains = ch :: later → ch.started = true → ch.members = m :: rest → engineOf m.2.1 = some e → (e = .cube ∨ e = .vec) →
    exec (.engineInstrComplete c e) s = .next (((s.runMembers c [m]).modCore c fun k => if k.ended then k else
      { k with chains := if rest.isEmpty then later else { ch with members := rest } :: later }).completed c)) ∧
  ∀ (c : Nat) (l w : IFields) (s s1 s2 s3 : State), (s.core c).quiet = true → bits l.aux.toNat 12 8 = 0 →
    exec (.chain c l) s = .next s1 → exec (.viadd c w) s1 = .next s2 → exec (.chainCycleZero c none) s2 = .next s3 →
    ∃ t, exec (.engineInstrComplete c .vec) s3 = .next t ∧ t.mem = (s.vecOp c 0x60 w).mem ∧ (t.core c).quiet = true ∧
      (t.core c).nextOff = (s.core c).nextOff + 2

/-- R62, R66, R132 and R133. -/
def Obligations.ScratchWindowAndInstructionMemory : Prop :=
  (∀ (g : Agent) (a len c off : Nat) (bs : List Byte) (p : Bool) (s : State), place a = .scratch c off →
    (s.answer g a len false = .go → exec (.externalScratchAccess g a len .read) s = .next { s with
      sent := s.sent ++ [.data g (s.mem.read a len) ((List.range len).map fun i => s.mem.marked (unitBase (a + i))), .answer g stOk] }) ∧
    (s.answer g a len true = .go → exec (.externalScratchAccess g a len (.write bs p)) s =
      .next (((s.writeRange a (bs.take len) (List.replicate (bs.take len).length p)).landed a len).emit (.answer g stOk))) ∧
    (∀ acc st, s.answer g a len (acc != .read) = .status st → exec (.externalScratchAccess g a len acc) s =
      .next ((s.countBusy a (.status st)).reply g st)) ∧
    (∀ acc, s.answer g a len (acc != .read) = .fault → exec (.externalScratchAccess g a len acc) s =
      .next ((s.countBusy a .fault).accessFault g a))) ∧
  (∀ (g : Agent) (a len : Nat) (acc : Access) (s : State), (∀ c off, place a ≠ .scratch c off) →
    exec (.externalScratchAccess g a len acc) s = .next s) ∧
  ∀ (c bank kernel : Nat) (code : List (BitVec 256)) (dig : BitVec 512) (s : State),
    let k := s.core c
    let inactive := if k.activeBank then k.valid0 else k.valid1
    ((bank % 2 == 1) = k.activeBank → exec (.imemLoad c bank kernel code dig) s = .next (s.emit (.answer (.core c .cube) stLoadBusy))) ∧
    ((bank % 2 == 1) ≠ k.activeBank → (k.loading.isSome = true ∨ k.armed = true) →
      exec (.imemLoad c bank kernel code dig) s = .next (s.emit (.answer (.core c .cube) stBusy))) ∧
    ((bank % 2 == 1) ≠ k.activeBank → k.loading = none → k.armed = false →
      exec (.imemLoad c bank kernel code dig) s = .next (s.modCore c fun k => { k with
        loading := some { kernel := kernel, code := code.take 512, digest := dig }
        valid0 := k.valid0 && k.activeBank = false, valid1 := k.valid1 && k.activeBank = true, kernInactive := 0xFFFF })) ∧
    (∀ l, k.loading = some l →
      ∃ t, exec (.imemLoadDone c) s = .next t ∧ (t.core c).loading = none ∧
        (if k.activeBank then (t.core c).bank0 else (t.core c).bank1) = l.code ∧
        ((if k.activeBank then (t.core c).valid0 else (t.core c).valid1) = true ↔ shake256 (instrBytes l.code) = l.digest) ∧
        (shake256 (instrBytes l.code) ≠ l.digest → Sent.loadFailed c l.kernel ∈ t.sent) ∧
        (if k.activeBank then (t.core c).valid1 = k.valid1 ∧ (t.core c).bank1 = k.bank1
          else (t.core c).valid0 = k.valid0 ∧ (t.core c).bank0 = k.bank0)) ∧
    (k.loading = none → exec (.imemLoadDone c) s = .next s) ∧
    (inactive = true → k.loading = none → exec (.imemArm c) s = .next (s.modCore c fun k =>
      if k.fetching then { k with armed := true } else
        { k with activeBank := !k.activeBank, armed := false, kernActive := k.kernInactive, kernInactive := k.kernActive })) ∧
    ((inactive = false ∨ k.loading.isSome = true) → exec (.imemArm c) s = .next s) ∧
    exec (.imemDisarm c) s = .next (s.modCore c fun k => { k with armed := false })

/-! ### Tasks, waves, epochs, collectives -/

/-- Firing by R155, R156 and R163. -/
def Obligations.TaskFiresFirstWave : Prop :=
  ∀ (id : Nat) (t : Task) (s : State), s.task? id = some t → t.id = id → t.coll = false → t.state = .ready →
    s.mayFire t = true → s.takable t ≠ [] →
    ∃ u, exec (.taskFire id) s = .next u ∧ u.task? id = some { s.openWave t with state := .running, readyFrom := none } ∧
      u.work.firingOrder = s.work.firingOrder ++ [id] ∧ u.cores = s.cores ∧ u.clusters = s.clusters ∧
      (∀ a, (∀ m x, m = 0 ∨ m = 6 → x ∈ s.work.journal → x.2 = id →
          a < outerAddr m + 64 * x.1 ∨ outerAddr m + 64 * x.1 + 64 ≤ a) → u.mem.byte a = s.mem.byte a) ∧
      ∀ j x, j ≠ id → s.task? j = some x →
        u.task? j = some (if x.id < id ∧ x.state = .ready then { x with passed := x.passed + 1 } else x)

/-- R60, R124 and R157 to R161. -/
def Obligations.WaveStartSetsCores : Prop :=
  ∀ (id cd : Nat) (t t1 : Task) (w : Wave) (s : State), s.task? id = some t → t.id = id → t.state = .running →
    s.takesWave cd = true → cd ∈ t.cds → s.keptFor t cd = false →
    (let open_ := t.waves.find? fun w => w.cds.contains cd && !w.started.contains cd
     (open_ = some w ∧ t1 = t) ∨
     (open_ = none ∧ t.stopping = false ∧ t.cancelled = false ∧ t.timedOut = false ∧ t.nextPart < t.parts ∧
       t1 = s.openWave t ∧ t1.waves.getLast? = some w ∧ cd ∈ w.cds)) →
    ∃ u, exec (.waveStart id cd) s = .next u ∧ (u.cluster cd).wave = some (id, w.num) ∧
      (u.cluster cd).preRaise = 10 * t.loadClass ∧ u.sent = s.sent ++ [.loadNotice cd t.loadClass] ∧
      (∀ x p, (x, p) ∈ waveCores w cd →
        let k := u.core x
        k.fetching = true ∧ k.ended = false ∧ k.task = id ∧ k.wave = w.num ∧ k.part = p ∧ k.seed = t.desc.seed ∧
        k.cubeFlags = 0 ∧ k.tileRow = BitVec.ofNat 32 (p / max 1 t.gridCols * t.tileRows) ∧
        k.tileCol = BitVec.ofNat 32 (p % max 1 t.gridCols * t.tileCols) ∧ k.cursors = [] ∧ k.stream = [] ∧ k.nextOff = 0) ∧
      ∀ x, x ∉ (waveCores w cd).map (·.1) → u.core x = s.core x

/-- R161, R162, R166 and R562. -/
def Obligations.ClusterReportsAndFences : Prop :=
  ∀ (cd : Nat) (s : State),
    exec (.dispatcherHeartbeat cd) s = .next (if (s.cluster cd).wave.isSome then s.modCluster cd fun k => { k with heartbeat := s.now } else s) ∧
    exec (.loadRaiseWithdraw cd) s = .next (if (s.cluster cd).wave.isSome then s else s.modCluster cd fun k => { k with preRaise := 0 }) ∧
    exec (.heartbeatTimeout cd) s = .next (if (s.cluster cd).wave.isSome then s.fenceCluster cd .dispatchLost false else s) ∧
    (∀ ev e answers, clusterEvent ev = some e → exec (.clusterFence cd ev answers) s = .next (s.fenceCluster cd e answers)) ∧
    (s.fenced cd = true → ∀ ev answers, exec (.clusterFence cd ev answers) s = .next s) ∧
    ∀ task wave node tok, exec (.completionToken task wave node tok) s = .next
      (if .token task wave node tok ∈ s.sent then
        ({ s with sent := s.sent.erase (.token task wave node tok) } : State).tokenArrive task wave node tok else s)

/-- R166, and R167's order freedom: partitions of different clusters are different, so two tokens never name one failed
partition with two statuses. -/
def Obligations.TokenMergeOrderFree : Prop :=
  (∀ a b c : Token, Token.merge (Token.merge a b) c = Token.merge a (Token.merge b c)) ∧
  ∀ a b : Token,
    let m := Token.merge a b
    m.done = a.done + b.done ∧ m.failed = a.failed + b.failed ∧ m.clusters = a.clusters + b.clusters ∧
    m.minMark = min a.minMark b.minMark ∧ m.firstFailed = min a.firstFailed b.firstFailed ∧ m.poison = (a.poison || b.poison) ∧
    ((a.firstFailed = b.firstFailed → a.firstStatus = b.firstStatus) → m = Token.merge b a)

/-- R155, R164, R169, R171 to R174, R179 and R180. -/
def Obligations.TaskLimitsAndEpochs : Prop :=
  (∀ (id : Nat) (t : Task) (s : State), s.task? id = some t → t.id = id → t.state = .running → t.desc.epoch = 0 → t.waves = [] →
    ∃ u t', exec (.taskTimeLimit id) s = .next u ∧ u.task? id = some t' ∧ t'.timedOut = true ∧ t'.stopping = true ∧
      t'.status = stTimeout ∧ t'.state = (if 0 < t.doneCount then .partialEnd else .failed)) ∧
  (∀ (id : Nat) (t : Task) (s : State), s.task? id = some t → t.desc.epoch ≠ 0 →
    (∀ x ∈ s.work.shadows, x.size ≠ 0 ∧ s.homePending x = false) →
    let mine (x : Shadow) : Bool := x.epoch == t.desc.epoch && t.outputs.any (·.handle = x.handle) && !x.copied
    exec (.shadowCopyDone id) s = .next (((s.work.shadows.filter mine).foldl (fun s x =>
      (s.copyData x.home x.page x.size 0).onWork fun w => { w with shadows := w.shadows.map fun y =>
        if y = x then { y with copied := true } else y }) s).settle)) ∧
  (∀ (e : Nat) (x : Epoch) (entries : List CommitEntry) (h : CmdHdr) (s : State), look s.work.epochs e = some x →
    x.commit = some (entries, h) →
    exec (.commitAct e) s = .next (if x.doomed then s.discardEpoch e stDenied
      else if s.commitReady e x.commitGens then (s.commitAct e entries x.commitGens).respond h 0x0505 stOk true 0 [] else s)) ∧
  ∀ (h : Handle) (shard a : Nat) (p : Placed) (s : State), s.freePlace a p.bytes = true →
    ((s.work.placed.find? fun q => q.handle = s.placedAs h && q.shard == shard) = some p →
      s.inUse (s.placedAs h) = false → s.claimed p.addr p.bytes = false →
      ∃ u, exec (.shardMove h shard a) s = .next u ∧ u = s.relocate p a ∧
        (s.MemOk → (keys s.mem.instars).Pairwise (· < ·) → s.inImage p.addr = false → s.mem.flipUnits p.addr p.bytes = [] →
          (∀ x ∈ s.work.kvPages, x.1 < p.addr ∨ p.addr + p.bytes ≤ x.1) → (p.addr + p.bytes ≤ a ∨ a + p.bytes ≤ p.addr) →
          (∀ i, i < p.bytes → u.mem.byte (a + i) = s.mem.byte (p.addr + i) ∧ u.mem.byte (p.addr + i) = 0) ∧
          (p.bytes ≠ 0 → u.mem.instar a = s.mem.instar a + BitVec.ofNat 32
            ((min (a + p.bytes) (pageBase a + pageSize a) - 1) / unitSize a - a / unitSize a + 2)) ∧
          u.work.placed = s.work.placed.map fun q => if q = p then { q with addr := a } else q)) ∧
    ((s.work.placed.find? fun p => p.handle = h && p.shard == shard) = some p → s.isWeights h = true → s.replicaFits p.bytes = true →
      demandWindow < 4 * s.readyTime h.slot h.tensor →
      (∀ pr e, look s.work.programs h.slot = some pr → pr.plan.find? (·.tensor == h.tensor) = some e → e.replicate ≠ 1) →
      exec (.replicaCreate h shard a) s = .next ((s.copyData p.addr a p.bytes 0).onWork fun w => { w with
        placed := w.placed ++ [{ p with replica := (s.work.placed.filter fun q => q.handle = h && q.shard == shard).length, addr := a }] }))

/-- The collective protocol of R386 and R391. -/
def Obligations.CollectivesExchangeOnce : Prop :=
  (∀ (id : Nat) (t : Task) (c : Coll) (s : State), s.task? id = some t → t.id = id → t.coll = true →
    (s.work.colls.find? (·.task == id)) = some c → c.fired = false → t.state = .ready → s.mayFire t = true →
    let others := (List.range c.members.length).filter (· != c.rank)
    let sends : List (Nat × Nat) := (if others.isEmpty then [] else [(0, c.next)]) ++
      others.flatMap fun r => (List.range c.packets).map fun i => (i + 1, r)
    (∀ r ∈ others, s.answerAll (.reduction (s.collDie c)) (s.chunkRanges c r) false = .go) →
    exec (.taskFire id) s = .next (((sends.foldl (fun s x => s.sendChunk c x.2 x.1 false)
        (((s.modTask id fun t => { t with state := .running, readyFrom := none }).onWork fun w => { w with
          firingOrder := w.firingOrder ++ [id] }).writeJournal id)).modColl id
          fun c => { c with fired := true, sentUnacked := sends }).tryColl id)) ∧
  (∀ (l : Nat) (p : LPacket) (s : State), p.dest = s.lys.deviceId →
    let s0 := s.delivered l p
    (s0.collOf p = none → exec (.collData l p) s = .next (s0.collAck p 0 stRetry) ∧ exec (.collAck l p) s = .next s0 ∧
      exec (.collAbort l p) s = .next s0) ∧
    ∀ c, s0.collOf p = some c → s.collOpen c = true →
      let s1 := s0.collAck p c.rank stOk
      (chunkNo p = 0 → p.rank = c.prev →
        exec (.collData l p) s = .next (if p.data = collWire c.desc then (s1.modColl c.task fun c => { c with matched := true }).tryColl c.task
          else (s1.sendAbort c c.next stBadArg).failColl c.task stBadArg)) ∧
      (chunkNo p ≠ 0 → chunkNo p ≤ c.packets → p.rank < c.members.length → p.rank ≠ c.rank →
        exec (.collData l p) s = .next (if c.received.any (fun x => x.1 == chunkNo p && x.2.1 == p.rank) then s1 else
          (s1.modColl c.task fun c => { c with received := c.received ++ [(chunkNo p, p.rank, p.data, (bytesMarked p))] }).tryColl c.task)) ∧
      (∀ r, c.members.idxOf? p.src = some r → (chunkNo p, r) ∈ c.sentUnacked →
        exec (.collAck l p) s = .next (if p.status = stRetry then
          s0.modColl c.task fun c => { c with sentUnacked := c.sentUnacked.erase (chunkNo p, r), early := c.early ++ [(chunkNo p, r)] }
          else (s0.modColl c.task fun c => { c with sentUnacked := c.sentUnacked.erase (chunkNo p, r) }).tryColl c.task)) ∧
      (c.aborted = false → s0.collOpen c = true →
        exec (.collAbort l p) s = .next ((s0.sendAbort c c.next p.status).failColl c.task p.status))) ∧
  ∀ (id step rank : Nat) (c : Coll) (s : State), (s.work.colls.find? (·.task == id)) = some c → s.collOpen c = true →
    ((step, rank) ∈ c.sentUnacked → exec (.collChunkTimeout id step rank) s = .next (s.sendChunk c rank step true)) ∧
    ((step, rank) ∈ c.early → exec (.earlyChunkResend id step rank) s = .next ((s.sendChunk c rank step false).modColl id fun c =>
      { c with early := c.early.erase (step, rank), sentUnacked := c.sentUnacked ++ [(step, rank)] })) ∧
    (c.fired = true → exec (.collTimeLimit id) s = .next (((List.range c.members.length).foldl (fun s r => s.sendAbort c r stTimeout)
      (s.logEvent .taskTimeout { status := stTimeout, task := id })).failColl id stTimeout))

/-! ### Slices, outer packages, proboscis units -/

/-- R194 to R199 and R216 for the bursts of a core to its own slice and to its peers'. -/
def Obligations.SliceBurstsCarryData : Prop :=
  ∀ (c d off a : Nat) (e : Engine) (bs : List Byte) (p : Bool) (s : State), place a = .slice d off → a % 32 = 0 → bs.length = 32 →
    let g : Agent := .core c e
    let slot (k : Nat) (t : State) : Prop := (t.core c).sliceSlots = insertSet (s.core c).sliceSlots k
    (∀ k, lowestFree (s.core c).sliceSlots 16 = some k →
      (s.answer g a 32 true = .go → s.MemOk → (keys s.mem.instars).Pairwise (· < ·) →
        ∃ t, exec (.sliceBurstRequest g a 32 (.write bs p)) s = .next t ∧ t.mem.read a 32 = bs ∧ t.mem.marked a = p ∧
          t.mem.instar a = s.mem.instar a + 1 ∧ (∀ x, (x < a ∨ a + 32 ≤ x) → t.mem.byte x = s.mem.byte x) ∧
          t.sent = s.sent ++ [.answer g stOk] ∧ slot k t) ∧
      (s.answer g a 32 false = .go → s.mem.errsOf a = [] →
        ∃ t, exec (.sliceBurstRequest g a 32 .read) s = .next t ∧ t.mem = s.mem ∧ slot k t ∧
          t.sent = s.sent ++ [.data g (s.mem.read a 32) (List.replicate 32 (s.mem.marked a)), .answer g stOk]) ∧
      (∀ st, s.answer g a 32 false = .status st → exec (.sliceBurstRequest g a 32 .read) s =
        .next ((s.countBusy a (.status st)).reply g st)) ∧
      (s.answer g a 32 false = .fault → exec (.sliceBurstRequest g a 32 .read) s = .next ((s.countBusy a .fault).accessFault g a))) ∧
    (lowestFree (s.core c).sliceSlots 16 = none → exec (.sliceBurstRequest g a 32 .read) s = .next s) ∧
    (∀ k, (k ∉ (s.core c).sliceSlots → exec (.sliceBurstComplete c (.slot k)) s = .next s) ∧
      exec (.sliceBurstComplete d (.entry k)) s = .next (s.modSlice d fun sl =>
        { sl with queue := sl.queue.filter fun r => !(r.id == k && coreOf r.agent == none) })) ∧
    ∀ k, k ∈ (s.core c).sliceSlots → (s.core c).stream = [] → (s.core c).baraWait = [] →
      (s.core c).firstWith .move .slots = none → (s.core c).firstWith .gather .slots = none →
      ∃ t, exec (.sliceBurstComplete c (.slot k)) s = .next t ∧ (t.core c).sliceSlots = (s.core c).sliceSlots.filter (· != k) ∧
        (∀ r ∈ (t.slice d).queue, ¬ (r.id = k ∧ coreOf r.agent = some c)) ∧ t.mem = s.mem

/-- R206, R216, R244 and R253. -/
def Obligations.FillsLeaveZero : Prop :=
  ∀ s : State,
    let cleared (lo hi : Nat) (t : State) : Prop :=
      (∀ a, lo ≤ a → a < hi → t.mem.byte a = 0 ∧ t.mem.marked a = false) ∧
      (∀ a, (a < lo ∨ hi ≤ a) → t.mem.byte a = s.mem.byte a ∧ t.mem.marked a = s.mem.marked a)
    (s.dev = .filling →
      (∃ t, exec .sliceFill s = .next t ∧ cleared 0 outerBase t ∧ (∀ a, a < outerBase → t.mem.instar a = 0) ∧ t.fw.slicesFilled = true) ∧
      (∃ t, exec .outerFill s = .next t ∧ cleared outerBase scratchBase t ∧
        (∀ a, outerBase ≤ a → a < scratchBase → t.mem.instar a = 0) ∧
        ∀ m, m < 12 → (s.outer m).failed = false → (t.outer m).fillDone = true)) ∧
    (s.dev ≠ .filling → exec .sliceFill s = .next s ∧ exec .outerFill s = .next s)

/-- R203, R207 to R210, R222, R239, R246, R250 and R251. -/
def Obligations.ControllersKeepMemory : Prop :=
  (∀ (c a : Nat) (s : State), a ∈ (s.slice c).writeBacks →
    let done (t : State) : State := t.modSlice c fun sl =>
      { sl with writeBacks := sl.writeBacks.filter (· != a), recentCe := put sl.recentCe a s.now }
    let seen := sliceDecode (s.mem.errsOf a) (s.mem.marked a)
    (∀ k, seen = .ce k → exec (.correctedWriteBack c a) s = .next (done (s.onMem fun m => m.clearFlips a))) ∧
    ((∀ k, seen ≠ .ce k) → exec (.correctedWriteBack c a) s = .next (done s))) ∧
  (∀ (stack quadrant layer : Nat) (s : State), ∃ t, exec (.sliceRefresh stack quadrant layer) s = .next t ∧ t.mem = s.mem ∧
    (lookD t.heat.steps (layerKey stack quadrant layer) {}).refreshes = (lookD s.heat.steps (layerKey stack quadrant layer) {}).refreshes + 1) ∧
  (∀ (c : Nat) (s : State), let sl := s.slice c
    sl.scrubEnable = true → sl.queue = [] → sl.writeBacks = [] → sl.copying = [] → s.fenced (cdOf c) = false →
    let read := match sl.scrubPage (sl.scrubPos / 1024) with
      | some p => let a := sliceAddr c + p * 0x10000 + sl.scrubPos % 1024 * 64
        ((s.readCodeword c a).1.readCodeword c (a + 32)).1
      | none => s
    ∃ t, exec (.scrubBurst c) s = .next t ∧ t.mem = s.mem ∧ t.log = read.log ∧
      (t.slice c).scrubPos = (if sl.scrubPos + 1 < 196 * 1024 then sl.scrubPos + 1 else 0) ∧
      (t.slice c).corrected = (read.slice c).corrected ∧ (t.slice c).uncorrectable = (read.slice c).uncorrectable) ∧
  (∀ (c m : Nat) (s : State), let limit := leNat (s.profNow 0x03000001)
    (limit < (s.slice c).oldestAge s.now →
      exec (.scrubAge (.slice c) ()) s = .next ((s.logEvent .scrubAge { ut := utSlice, ui := c }).alert alScrub)) ∧
    (limit < (s.outer m).oldestAge s.now →
      exec (.scrubAge (.outer m) ()) s = .next ((s.logEvent .outerScrubAge { ut := utOuter, ui := m }).alert alScrub)) ∧
    ((s.slice c).oldestAge s.now ≤ limit → exec (.scrubAge (.slice c) ()) s = .next s)) ∧
  (∀ (m a : Nat) (s : State), a ∈ (s.outer m).writeBacks → ∃ t, exec (.dieWriteBack m a) s = .next t ∧
    (t.outer m).writeBacks = (s.outer m).writeBacks.filter (· != a) ∧ (∀ x, t.mem.byte x = s.mem.byte x) ∧
    (∀ x, t.mem.instar x = s.mem.instar x) ∧ ∀ x, x ∈ t.mem.flips → x ∈ s.mem.flips) ∧
  (∀ (m channel bank : Nat) (s : State), let n := lookD (s.outer m).postponed (chanBank channel bank) 0
    exec (.outerRefresh m channel bank true) s = .next (s.modOuter m fun o =>
      if n < 4 then { o with postponed := put o.postponed (chanBank channel bank) (n + 1) } else { o with refreshes := o.refreshes + 1 }) ∧
    exec (.outerRefresh m channel bank false) s = .next (s.modOuter m fun o => { o with refreshes := o.refreshes + 1 }) ∧
    exec (.postponedRefresh m channel bank) s = .next (s.modOuter m fun o =>
      { o with postponed := del o.postponed (chanBank channel bank), refreshes := o.refreshes + n })) ∧
  (∀ (m : Nat) (s : State), (s.outer m).scrubEnable = true → (s.outer m).failed = false →
    (∀ r ∈ (s.outer m).slotted, bankOf r.addr ≠ walkBank ((s.outer m).scrubPos % 512)) →
    (∀ u ∈ (s.outer m).writeBacks, bankOf u ≠ walkBank ((s.outer m).scrubPos % 512)) → (s.outer m).running = [] →
    ∃ t, exec (.outerScrub m) s = .next t ∧ t.mem = s.mem ∧ (t.outer m).scrubPos = (if (s.outer m).scrubPos + 1 < 65536 * 512 then (s.outer m).scrubPos + 1 else 0)) ∧
  ∀ (seenSlices seenPackages : List CheckSeen) (s : State), s.dev = .selftest → s.fw.checkerDone = false →
    exec (.checkerSelftest seenSlices seenPackages) s = .next
      (let cores := checkFailures sliceExpected seenSlices
       let packages := checkFailures busExpected seenPackages
       let t := (packages.filter (· < 12)).foldl State.failPackage (cores.foldl (fun s c => s.fenceCluster (cdOf c) .checkerFail true)
        (s.onFw fun f => { f with checkerDone := true, checkFailed := cores }))
       { t with outers := (List.range 12).foldl (fun x m =>
          if packages.contains m then x else put x m { lookD x m {} with checkPass := true }) t.outers })

/-- R212, R213, R215, R247 and R248, with no RETIRE command waiting. -/
def Obligations.PagesRetire : Prop :=
  ∀ (u page i : Nat) (s : State), s.ctl.retires = [] →
    ((s.slice u).copying.find? (fun x => x.1 == page) = some (page, i) → i < (s.slice u).spares.length →
      (∀ y ∈ (s.slice u).spares, y ≠ some page) →
      ∃ t, exec (.spareCopyDone u page) s = .next t ∧ (t.slice u).spares = (s.slice u).spares.set i (some page) ∧
        (t.slice u).copying = (s.slice u).copying.filter (· != (page, i)) ∧
        t.fw.toRetire = s.fw.toRetire ++ [.sliceRemap u page i] ∧ ∀ a, t.mem.instar a = s.mem.instar a) ∧
    ((s.outer u).copying.find? (fun x => x.1 == page) = some (page, i) → (∀ y ∈ (s.outer u).spares, y ≠ some page) →
      ∃ t, exec (.outerSpareCopyDone u page) s = .next t ∧ (t.outer u).spares = (s.outer u).spares.set i (some page) ∧
        (t.outer u).pagesRetired = (s.outer u).pagesRetired + 1 ∧
        t.fw.toRetire = s.fw.toRetire ++ [.outerRemap u page i] ∧ (∀ a, t.mem.instar a = s.mem.instar a) ∧
        (s.mem.flipUnits (outerAddr u + page * 0x200000) 0x200000 = [] → t.mem = s.mem)) ∧
    (page ∈ (s.slice u).retiring → s.allocated (slicePageAddr u page) 0x10000 = false →
      ∃ t, exec (.pageEmptied 0 u page) s = .next t ∧ page ∈ (t.slice u).retired ∧ page ∉ (t.slice u).retiring ∧
        (t.slice u).pagesUsable = 192 - (t.slice u).retired.length ∧ t.fw.toRetire = s.fw.toRetire ++ [.slicePage u page] ∧ t.mem = s.mem) ∧
    (page ∈ (s.outer u).retiring → s.allocated (outerAddr u + page * 0x200000) 0x200000 = false →
      ∃ t, exec (.pageEmptied 1 u page) s = .next t ∧ page ∈ (t.outer u).retired ∧ page ∉ (t.outer u).retiring ∧
        t.fw.toRetire = s.fw.toRetire ++ [.outerPage u page] ∧ t.mem = s.mem) ∧
    (s.allocated (slicePageAddr u page) 0x10000 = true → exec (.pageEmptied 0 u page) s = .next s) ∧
    exec .retirementTableWrite s = .next (s.onFw fun f => { f with retired := (f.retired ++ f.toRetire).eraseDups, toRetire := [] })

/-- R230 to R237, R243, R338 and R593. -/
def Obligations.OuterRequestsPass : Prop :=
  (∀ (c m off a len : Nat) (e : Engine) (w : Bool) (s : State), place a = .outer m off →
    let g : Agent := .core c e
    let o := s.outer m
    let held := o.heldBy (cdOf c) (startCredits (cdOf c))
    ((held = 0 ∨ 1024 ≤ o.issue.length ∨ lowestFree (s.core c).outerSlots 16 = none ∨ oneBlock a len = false) →
      exec (.outerBlockRequest g a len .read w) s = .next s) ∧
    (∀ k, held ≠ 0 → o.issue.length < 1024 → lowestFree (s.core c).outerSlots 16 = some k → oneBlock a len = true → s.answer g a len false = .go →
      exec (.outerBlockRequest g a len .read w) s = .next { s with
        reqNo := s.reqNo + 1
        outers := put s.outers m { o with
          issue := o.issue ++ [{ id := s.reqNo, agent := g, addr := a, len := len, acc := .read, waiting := w }]
          holders := put o.holders (cdOf c) (held - 1) }
        cores := put s.cores c { s.core c with outerSlots := insertSet (s.core c).outerSlots k } })) ∧
  (∀ (m : Nat) (r : OReq) (s : State), let o := s.outer m
    ((o.issue.find? fun r => decide (o.bankSlots (bankOf r.addr) < 512)) = some r → o.slotted.length < 4096 →
      let h := holderOf r.agent
      let held := o.heldBy h (startCredits h)
      exec (.creditReturn m r.id) s = .next (s.modOuter m fun o => { o with
        issue := o.issue.filter (·.id != r.id), window := o.window ++ [r]
        holders := if held < startCredits h then put o.holders h (held + 1) else o.holders
        pool := if held < startCredits h then o.pool else o.pool + 1 })) ∧
    (o.turn.busFree = true → o.turn.choose = some r → exec (.outerSend m) s = .next ((s.modOuter m Outer.turn).sendWith m r)) ∧
    (o.busFree = false → exec (.outerSend m) s = .next s ∧ exec (.outerWindowAge m r.id) s = .next s) ∧
    (o.busFree = true → o.candidates.find? (·.id == r.id) = some r → exec (.outerWindowAge m r.id) s = .next (s.sendWith m r)) ∧
    exec (.holdAssert m) s = .next (if 448 ≤ o.fifo then s.modOuter m fun o => { o with hold := true } else s) ∧
    exec (.holdRelease m) s = .next (if o.fifo ≤ 320 then s.modOuter m fun o => { o with hold := false } else s) ∧
    (o.sentReqs.find? (fun x => x.id == r.id && !x.isRead) = some r →
      exec (.outerWriteAcknowledge m r.id []) s = .next ((s.releaseReq m r).reply r.agent stOk)) ∧
    (o.sentReqs.find? (fun x => x.id == r.id && x.isRead && x.twin.isNone) = some r → oneBlock r.addr r.len = true →
      (∀ x ∈ o.sentReqs, x.twin ≠ some r.id) →
      ((∀ c, coreOf r.agent = some c → (s.core c).stream = [] ∧ (s.core c).baraWait = [] ∧
          (s.core c).firstWith .move .slots = none ∧ (s.core c).firstWith .gather .slots = none) →
        ∀ fixed ue errs again, ∃ t bytes marks, exec (.outerReadData m r.id fixed ue errs again) s = .next t ∧ t.mem = s.mem ∧
          bytes.length = r.len ∧ marks.length = r.len ∧ t.sent = s.sent ++ [.data r.agent bytes marks, .answer r.agent stOk]) ∧
      (r.data.length = 256 → (∀ x ∈ r.marks, x = false) → exec (.outerReadData m r.id 0 [] [] []) s =
        .next (((s.releaseReq m r).emit (.data r.agent ((r.data.drop (r.addr % 256)).take r.len)
          (List.replicate r.len false))).reply r.agent stOk))) ∧
    (o.slotted.find? (fun x => x.id == r.id) = some r → exec (.outerRequestTimeout m r.id) s = .next
      ((((s.modOuter m fun o => { o with timeouts := satAdd 16 o.timeouts 1 }).noteFault m).outerEvent m .outerTimeout r.addr).expireReq m r)) ∧
    (o.sentReqs.find? (fun x => x.id == r.id) = some r → exec (.outerParityNak m r.id) s = .next
      (if r.naks < 2 then s.modOuter m fun o => { o with
          sentReqs := o.sentReqs.map fun x => if x.id = r.id then { x with naks := x.naks + 1 } else x }
        else ((s.noteFault m).outerEvent m .outerBusParity r.addr).expireReq m r))) ∧
  ∀ (m : Nat) (ok : Bool) (s : State), let o := s.outer m
    let runs := (o.retrains.filter fun t => decide (s.now < t + 600000000000)) ++ [s.now]
    16 ≤ (o.faultTimes.filter fun t => decide (s.now < t + 100000000)).length → o.failed = false →
    exec (.outerBusRetrain m ok) s = .next
      (let t := ((o.slotted.foldl (fun s r => s.expireReq m r) s).modOuter m fun o =>
          { o with faultTimes := [], retrains := runs, trained := ok }).outerEvent m .outerRetrain 0
       if ok = false ∨ 3 ≤ runs.length then t.failPackage m else t)

/-- R255 to R263 and R266. -/
def Obligations.ProboscisOperationsRun : Prop :=
  ∀ (m port : Nat) (rec : List Byte) (s : State), let o := s.outer m
    (m < 12 → port < 1024 → rec.length = 64 → o.failed = true →
      exec (.proboscisSubmit m port rec false none) s = .next (s.emit (.answer (.link 0) stBadArg))) ∧
    (m < 12 → port < 1024 → rec.length = 64 → o.failed = false →
      ((∃ x ∈ o.ops ++ o.running, x.port = port) → exec (.proboscisSubmit m port rec false none) s = .next
        ((s.modOuter m fun o => { o with busyResponses := satAdd 16 o.busyResponses 1 }).emit (.answer (.link 0) stBusy))) ∧
      ((∀ x ∈ o.ops ++ o.running, x.port ≠ port) →
        (256 ≤ o.ops.length + o.running.length → exec (.proboscisSubmit m port rec false none) s = .next (s.emit (.answer (.link 0) stRetry))) ∧
        (o.ops.length + o.running.length < 256 → s.probBad m ⟨rec⟩ 0 = false → exec (.proboscisSubmit m port rec false none) s =
          .next (s.modOuter m fun o => { o with ops := o.ops ++ [{ port := port, core := none, epoch := 0, record := rec }] })))) ∧
    (∀ p rest, o.ops = p :: rest →
      let rd := (((⟨p.record⟩ : ProbRec).sources).flatMap (outerPages m)).foldl insertSet []
      let wr := (outerPages m (⟨p.record⟩ : ProbRec).result).foldl insertSet []
      exec (.proboscisStart m) s = .next (if (∃ x ∈ rd, x ∈ o.writeClaims) ∨ (∃ x ∈ wr, x ∈ o.writeClaims ∨ x ∈ o.readClaims) then s
        else s.modOuter m fun o => { o with ops := rest, running := o.running ++ [{ p with readPages := rd, writePages := wr }] })) ∧
    (o.running ≠ [] → exec (.rotationWindow m) s = .next (s.modOuter m fun o => { o with grant := (o.workGroups ++ o.workGroups).getD o.granted.length o.grant })) ∧
    ∀ x, o.running.find? (·.port == port) = some x →
      exec (.proboscisPublish m port) s = .next (s.probPublish m x false) ∧
      exec (.proboscisTimeout m port) s = .next (s.probPublish m x true) ∧
      (∀ late, ((s.probPublish m x late).outer m).running = o.running.filter (·.port != port) ∧
        ((s.probPublish m x late).outer m).opsDone = (o.opsDone + 1) % 2 ^ 24)

/-! ### Silk channels, Lysdel links, remote access -/

/-- R341, R344, R347 to R356 and R548. -/
def Obligations.ChannelsCarryPackets : Prop :=
  (∀ (ep i producer : Nat) (s : State), let c := s.channel ep i
    (s.epRefusal ep = none →
      (c.enable = false → exec (.channelOpenRequest ep i producer) s = .next (s.emit (.ack ep producer stNotReady))) ∧
      (c.enable = true → 64 ≤ c.opens.length → exec (.channelOpenRequest ep i producer) s = .next (s.emit (.ack ep producer stRetry))) ∧
      (c.enable = true → c.opens.length < 64 →
        exec (.channelOpenRequest ep i producer) s = .next (s.onChannel ep i fun c => { c with opens := c.opens ++ [producer] }))) ∧
    (∀ cd, epCluster ep = some cd → s.fenced cd = true →
      exec (.channelOpenRequest ep i producer) s = .next ((s.countFenced cd).emit (.ack ep producer stBadArg))) ∧
    (∀ rest, c.opens = producer :: rest → c.openBy = none → c.draining = none → c.pressure = false → c.maxPacket ≤ c.free →
      exec (.channelGrant ep i) s = .next ((s.onChannel ep i fun c =>
        { c with opens := rest, openBy := some producer, openLeft := c.maxPacket }).emit (.ack ep producer stOk))) ∧
    ((c.openBy.isSome = true ∨ c.draining.isSome = true ∨ c.pressure = true ∨ c.free < c.maxPacket) →
      exec (.channelGrant ep i) s = .next s) ∧
    (∀ data poison, c.draining ≠ some producer → c.openBy = some producer →
      (2 ≤ c.openLeft → exec (.channelWord ep i producer data .data poison) s = .next (s.onChannel ep i fun c => Channel.marks
        { c with words := c.words ++ [{ kind := .data, data := data.take 32, poison := poison }], openLeft := c.openLeft - 1 })) ∧
      exec (.channelWord ep i producer data .endK poison) s = .next (s.onChannel ep i fun c => Channel.marks
        { c with words := c.words ++ [{ kind := .endK, data := data.take 32, poison := poison }], openBy := none, openLeft := 0 })) ∧
    (∀ data poison, c.draining = some producer →
      exec (.channelWord ep i producer data .data poison) s = .next (s.onChannel ep i fun c =>
        { c with wordsFlushed := satAdd 32 c.wordsFlushed 1 }) ∧
      exec (.channelWord ep i producer data .endK poison) s = .next ((s.onChannel ep i fun c =>
        { c with wordsFlushed := satAdd 32 c.wordsFlushed 1, draining := none }).emit (.ack ep producer stFlushed))) ∧
    (∀ w rest, c.words = w :: rest →
      (w.poison = false → exec (.channelWordRead ep i) s = .next (s.onChannel ep i fun c => Channel.marks
        { c with words := rest, reading := w.kind == .data })) ∧
      (w.poison = true → w.kind ≠ .flushed → exec (.channelWordRead ep i) s = .next ((s.onChannel ep i fun c => Channel.marks
        { c with words := afterPacket c.words, reading := false }).logEvent .poisonControl
          { ut := (epUnit ep).1, ui := (epUnit ep).2, status := stBadArg }))) ∧
    exec (.flush ep i) s = .next (s.onChannel ep i fun c => if privileged ep i then c.flushPrivileged else c.flush) ∧
    (privileged ep i = false → ∃ t, exec (.flush ep i) s = .next t ∧ (t.channel ep i).words = [flushedWord] ∧
      (t.channel ep i).openBy = none ∧ (t.channel ep i).reading = false) ∧
    exec (.packetAbort ep i producer) s = .next (s.onChannel ep i fun c => c.abort producer) ∧
    ∀ v : Dword, let c1 : Channel := { c with
        highMark := bits v.toNat 47 32, lowMark := bits v.toNat 31 16, maxPacket := bits v.toNat 15 9
        log2Depth := if c.enable then c.log2Depth else bits v.toNat 8 5, enable := bits v.toNat 0 0 == 1 }
      exec (.chnCfgWrite ep i v) s = .next (if c1.cfgOk = true ∧ i < 64 ∧ s.storeUsed ep i + c1.depth ≤ storeWords ep then s.onChannel ep i fun _ => c1.marks
        else s.logEvent .chnCfgBad { ut := (epUnit ep).1, ui := (epUnit ep).2 })) ∧
  ∀ (cd dir : Nat) (s : State), let n := lookD (s.cluster cd).streak dir 0 + 1
    (n ≠ 16 → exec (.flitCrcReplay cd dir) s = .next ((s.modCluster cd fun k =>
      { k with replays := satAdd 32 k.replays 1, streak := put k.streak dir n }).logEvent .silkReplay { ut := utRouter, ui := cd })) ∧
    (n = 16 → exec (.flitCrcReplay cd dir) s = .next (((s.modCluster cd fun k => { k with
      replays := satAdd 32 k.replays 1, streak := del k.streak dir, linkFailed := k.linkFailed ||| (1#4 <<< (dir % 4)) }).logEvent .silkReplay
        { ut := utRouter, ui := cd }).logEvent .silkLinkFail { ut := utRouter, ui := cd })) ∧
    exec (.resettingAnswerTimeout cd) s = .next (if (s.cluster cd).inReset then
      (let late := ((s.slices.filter fun p => cdOf p.1 == cd).flatMap (·.2.queue)).take (s.cluster cd).delivered
      ((s.modCluster cd fun k => { k with resettingAnswers := satAdd 16 k.resettingAnswers late.length, delivered := 0 }).dropBursts
        late.contains).answerLate late) else s) ∧
    exec (.clusterRelease cd) s = .next (if s.fenced cd then s else s.modCluster cd fun k => { k with inReset := false, delivered := 0 })

/-- R368 to R373 and R393. -/
def Obligations.LinksTrainAndLeave : Prop :=
  ∀ (l : Nat) (s : State), let k := s.linkSt l
    let attempt := s.modLink l fun k => { k with state := .detect, lanesSeen := 0, lanesUsed := 0, width := 0 }
    let failed := (s.modLink l fun k => { k with state := .down, failures := k.failures + 1, width := 0, lanesUsed := 0 }).logEvent
      .linkTrainFail { ut := utLink, ui := l }
    exec (.linkAttemptStart l) s = .next (if k.state = .down then attempt else s) ∧
    exec (.attemptRetryTimer l) s = .next (if k.state = .down ∧ k.failures ≠ 0 then attempt else s) ∧
    exec (.mismatchRetry l) s = .next (if k.state = .mismatch then attempt else s) ∧
    exec (.backoffEnd l) s = .next (if k.state = .quarantine then attempt else s) ∧
    exec (.attemptTimeout l) s = .next (if k.state ∈ [.detect, .equalise, .deskew, .identify, .retrain] then failed else s) ∧
    (∀ lanes, exec (.partnerDetected l lanes) s = .next (if k.state = .detect ∧ lanes % 256 ≠ 0 then
      s.modLink l fun k => { k with state := .equalise, lanesSeen := lanes % 256 } else s)) ∧
    (∀ rx tx, (k.state = .equalise ∨ k.state = .retrain) →
      (chooseWidth k.widthMax (rx &&& tx) = none → exec (.equaliseDone l rx tx) s = .next failed) ∧
      ∀ w g, chooseWidth k.widthMax (rx &&& tx) = some (w, g) → exec (.equaliseDone l rx tx) s =
        .next (s.modLink l fun k => { k with state := .deskew, width := w, lanesUsed := BitVec.ofNat 8 g })) ∧
    (∀ rev pol, exec (.deskewDone l rev pol) s = .next (if k.state = .deskew then
      (s.modLink l fun k => { k with state := .identify, reversed := rev, polarity := pol }).emit (.linkId l) else s)) ∧
    (∀ system device link version torus, k.state = .identify →
      ∃ t, exec (.mgmtId l system device link version torus) s = .next t ∧ (t.linkSt l).partnerId = device % 32768 ∧
        (t.linkSt l).partnerKnown = true ∧ (t.linkSt l).partnerLink = link % 8 ∧
        (t.linkSt l).state = (if s.refusesPartner l system device link version torus then .mismatch else .up) ∧
        (s.refusesPartner l system device link version torus = false → (t.linkSt l).width = k.width ∧ (t.linkSt l).failures = 0 ∧
          (t.linkSt l).txSeq = 0 ∧ (t.linkSt l).rxSeq = 0 ∧ (t.linkSt l).upSince = s.now)) ∧
    (k.state ≠ .up → exec (.linkLeaveUp l) s = .next s ∧ exec (.linkRetrain l) s = .next s) ∧
    (k.state = .up → ∃ t, exec (.linkLeaveUp l) s = .next t ∧ exec (.linkRetrain l) s = .next t ∧
      t.linkSt l = { k.clear with state := .retrain, retrains := satAdd 8 k.retrains 1, retrainBit := false }) ∧
    (∃ t, exec (.linkDisable l) s = .next t ∧ (t.linkSt l).enable = false ∧
      (t.linkSt l).state = (if k.state = .disabled then .disabled else .draining) ∧ (k.state = .draining → (t.linkSt l).pendingOn = false)) ∧
    (k.state = .disabled → exec (.linkEnable l) s = .next (s.modLink l fun k => { k with enable := true, state := .down, failures := 0 })) ∧
    (k.state = .draining → exec (.linkEnable l) s = .next (s.modLink l fun k => { k with enable := true, pendingOn := true })) ∧
    (k.state = .draining → exec (.linkDrainEnd l) s = .next (s.modLink l fun k => { k.clear with
      state := if k.pendingOn then .down else .disabled, pendingOn := false, enable := k.pendingOn, lanesUsed := 0 })) ∧
    (k.state = .up → 16 ≤ (k.violations.filter fun t => decide (s.now < t + 10000000)).length →
      ∃ t, exec (.linkQuarantine l) s = .next t ∧ t.linkSt l = { k.clear with
        state := .quarantine, quarantines := satAdd 8 k.quarantines 1, violations := [], backoffMs := min 10240 (2 * k.backoffMs) }) ∧
    exec (.backoffRelax l) s = .next (if k.state = .up then s.modLink l fun k => { k with backoffMs := 10 } else s)

/-- R359 to R365, R367 and R392. -/
def Obligations.FlitsAreTakenInOrder : Prop :=
  ∀ (l : Nat) (f : Flit) (s : State), let k := s.linkSt l
    (k.state = .up → f.crc ≠ flitCrc f →
      ∃ t, exec (.flitRx l f) s = .next t ∧ t.linkSt l = { k with crcErrors := satAdd 16 k.crcErrors 1, rxDropping := true } ∧
        t.sent = s.sent ++ [.linkNak l 1 k.rxSeq]) ∧
    (k.state = .up → f.crc = flitCrc f → f.seq = k.rxSeq → f.pos = 0 → f.reserved = 0 → f.vl ≤ 3 → 0 < f.length → f.length ≤ 244 →
      f.seq < 4096 → lookD k.rxUsed (vlc f.vl f.cls) 0 < allotment f.vl → look k.rxPart (vlc f.vl f.cls) = none →
      let bs := f.payload.take f.length
      packetOk (parsePacket f bs (List.replicate bs.length f.poison)) bs = true →
      ∃ t, exec (.flitRx l f) s = .next t ∧ (t.linkSt l).rxSeq = (k.rxSeq + 1) % 4096 ∧
        (t.linkSt l).rxDone = k.rxDone ++ [(parsePacket f bs (List.replicate bs.length f.poison), 1)] ∧
        lookD (t.linkSt l).rxUsed (vlc f.vl f.cls) 0 = lookD k.rxUsed (vlc f.vl f.cls) 0 + 1 ∧ t.sent = s.sent) ∧
    (k.state ≠ .up → k.state ≠ .draining → exec (.flitRx l f) s = .next s) ∧
    (∀ (cw : List Nat) (flits : List Flit) (fcb : Fcb), k.state = .up → (∃ n ∈ cw, 8 < n) →
      ∃ t, exec (.linkFrameRx l cw flits fcb) s = .next t ∧ (t.linkSt l).rxSeq = k.rxSeq ∧ (t.linkSt l).rxDone = k.rxDone ∧
        (t.linkSt l).fecUncorrectable = satAdd 16 k.fecUncorrectable 1 ∧ (t.linkSt l).txBuffer = k.txBuffer) ∧
    (∀ (cw : List Nat) (fcb : Fcb), k.state = .up → (∀ n ∈ cw, n ≤ 8) → fcb.crcOk = false →
      exec (.linkFrameRx l cw [] fcb) s = .next (s.modLink l fun k => { k with fecCorrected := satAdd 32 k.fecCorrected cw.sum }) ∧
      exec (.fcbRx l fcb) s = .next s) ∧
    (∀ seq, ∃ t, exec (.crcNak l seq) s = .next t ∧
      t.sent = s.sent ++ (k.txBuffer.dropWhile fun f => f.seq != seq).map (.flit l) ∧
      (t.linkSt l).replays = satAdd 32 k.replays (k.txBuffer.dropWhile fun f => f.seq != seq).length ∧ (t.linkSt l).txBuffer = k.txBuffer) ∧
    (∃ t, exec (.replayTimeout l) s = .next t ∧ t.sent = s.sent ++ k.txBuffer.map (.flit l) ∧ (t.linkSt l).txBuffer = k.txBuffer) ∧
    (∀ seq x, k.txBuffer.find? (·.seq == seq) = some x → x.pos = 0 →
      ∃ t, exec (.protocolNak l seq) s = .next t ∧ (t.linkSt l).txBuffer = k.txBuffer.filter (· != x) ∧ t.sent = s.sent)

/-- R376 to R385. -/
def Obligations.RemoteRequestsAreServed : Prop :=
  (∀ (l : Nat) (p : LPacket) (s : State), p.dest = s.lys.deviceId →
    let s0 := s.delivered l p
    let write := p.data.length
    let ask (n : Nat) (w : Bool) : Prop := onePage p.address n = true ∧ s.exported p.address n w = true ∧ s.dev ≠ .cocoon ∧
      s0.answer (.link l) p.address n w = .go
    (ask p.length false → exec (.read l p) s = .next (let r := s0.readRange p.address p.length
      r.1.emit (.packet none (answerTo p s.lys.deviceId 0x10 stOk (r.1.mem.instar p.address).toNat r.2.1 r.2.2)))) ∧
    (ask write true → exec (.write l p) s = .next (let t := s0.writeRange p.address p.data (bytesMarked p)
      t.emit (.packet none (answerTo p s.lys.deviceId 0x11 stOk (t.mem.instar p.address).toNat [] [])))) ∧
    (ask 0 false → exec (.instarQ l p) s =
      .next (s0.emit (.packet none (answerTo p s.lys.deviceId 0x12 stOk (s.mem.instar p.address).toNat [] [])))) ∧
    ((onePage p.address p.length = false ∨ s.exported p.address p.length false = false) →
      exec (.read l p) s = .next (s0.nakSource p stBadArg)) ∧
    ((onePage p.address write = false ∨ s.exported p.address write true = false) →
      exec (.write l p) s = .next (s0.nakSource p stBadArg)) ∧
    exec (.mgmtRoute l p) s = .next s0 ∧
    (∀ r, s0.remoteOf p 0x01 = some r → (s0.endRemote r).remoteLive r = true →
      let bs := p.data.take r.pkt.length
      let page := r.pkt.dest * 2 ^ 48 + pageBase r.pkt.address
      (r.entry = none → exec (.readData l p) s = .next (((((s0.endRemote r).spStore r.core r.dest bs (bytesMarked p)).noteInstar r.core
        r.engine r.seq page (BitVec.ofNat 32 p.instar)).remoteDone r.core r.engine r.seq).completed r.core)) ∧
      ∀ n, r.entry = some n → exec (.readData l p) s = .next (((s0.endRemote r).gotEntry r.core r.engine r.seq n bs
        ((bytesMarked p).any id) (if watched r.pkt.address then some (page, BitVec.ofNat 32 p.instar) else none)).completed r.core)) ∧
    (∀ r, s0.remoteOf p 0x02 = some r →
      let after := BitVec.ofNat 32 p.instar
      let n := (unitsOf r.pkt.address r.pkt.data.length).length
      exec (.writeAck l p) s = .next ((((s0.endRemote r).modCore r.core fun k =>
        k.carry (r.pkt.dest * 2 ^ 48 + pageBase r.pkt.address) (after - BitVec.ofNat 32 n) after).remoteDone r.core r.engine r.seq).completed r.core)) ∧
    (∀ r, s0.remoteOf p 0x03 = some r → exec (.instarA l p) s = .next ((s0.endRemote r).modCore r.core fun k => { k with
      watch := k.watch.map fun w => if w.load.seq = r.seq ∧ w.page = r.pkt.dest * 2 ^ 48 + r.pkt.address then
        { w with answer := some (BitVec.ofNat 32 p.instar) } else w })) ∧
    (∀ r, s0.lys.remotes.find? (fun r => r.tag == p.tag && r.held.isNone) = some r →
      (p.status = stNotReady → exec (.nak l p) s = .next (s0.attemptLost r)) ∧
      (p.status ≠ stNotReady → waitOf p.status = none → exec (.nak l p) s = .next ((s0.endRemote r).remoteError r .taskBadArg stBadArg 0)) ∧
      (∀ st, p.status ≠ stNotReady → waitOf p.status = some st → r.pkt.op ≠ 0x03 →
        ∃ t, exec (.nak l p) s = .next t ∧ t.lys.remotes = s0.lys.remotes.erase r ++
          [{ r with held := some p.status, alt := false, pkt := { r.pkt with alt := false } }]))) ∧
  (∀ (l dwell : Nat) (p : LPacket) (s : State), p.dest ≠ s.lys.deviceId →
    let s0 := s.delivered l p
    let age := p.age + dwellAge dwell
    (900 ≤ age → exec (.packetForward (some l) p dwell) s = .next (s0.modLink l fun k => { k with agedOut := satAdd 16 k.agedOut 1 })) ∧
    (age < 900 → s0.hop (some l) p = none → exec (.packetForward (some l) p dwell) s = .next (s0.noRoute l p)) ∧
    (∀ h, age < 900 → s0.hop (some l) p = some h → exec (.packetForward (some l) p dwell) s =
      .next (s0.sendOn h.link { p with cls := h.cls, turned := h.turned, age := age })) ∧
    (.packet none p ∈ s.sent → ∀ h, s.hop none p = some h → exec (.packetForward none p dwell) s =
      .next (({ s with sent := s.sent.erase (.packet none p) } : State).sendOn h.link { p with cls := h.cls, turned := h.turned }))) ∧
  ∀ (die tag : Nat) (r : Remote) (s : State), s.lys.remotes.find? (fun r => r.die == die && r.tag == tag && r.held.isNone) = some r →
    (r.alt = false → exec (.remoteAttemptTimeout die tag) s = .next ((s.onLys fun y => { y with remotes := y.remotes.map fun x =>
      if x = r then { r with alt := true, pkt := { r.pkt with alt := true } } else x }).emit (.packet none { r.pkt with alt := true }))) ∧
    (r.alt = true → exec (.remoteAttemptTimeout die tag) s =
      .next ((s.endRemote r).remoteError r .linkUnreachable stTimeout (0x8000 + r.pkt.dest)))

/-! ### The service -/

/-- R307 to R315 and R317. -/
def Obligations.RequestsAreAdmitted : Prop :=
  (∀ (qp id v : Nat) (r : ReqRec) (s : State), s.takeRecord qp = none →
    exec (.request qp r) s = .next s ∧ exec (.requestContinuation qp r) s = .next s ∧ exec (.cancel qp id) s = .next s ∧
    exec (.credit qp id v) s = .next s ∧ exec (.close qp id) s = .next s ∧ exec (.unknownRecord qp (some id)) s = .next s) ∧
  (∀ (qp : Nat) (s s1 : State), s.takeRecord qp = some s1 →
    (∀ r : ReqRec, s1.req? qp r.request = none →
      let st := s1.requestStatus r
      (r.more = true → exec (.request qp r) s = .next (s1.onSvc fun v =>
        { v with requests := v.requests ++ [{ qp := qp, rec_ := r, assembling := true, context := r.context }] })) ∧
      (r.more = false → st ≠ stOk → ∃ t q, exec (.request qp r) s = .next t ∧ t.svc.requests = s1.svc.requests ++ [q] ∧ q.qp = qp ∧
        q.rec_ = r ∧ q.ended = true ∧ q.entries = [(0, streamEntry 0xFFFFFFFF 0 r.context kindError st 0 0 [])] ∧
        t.svc.contexts = s1.svc.contexts) ∧
      (r.more = false → st = stOk → r.bytesIn = false → r.context = 0xFFFFFFFF → r.prefixId = 0xFFFF →
        (look s1.svc.models r.model).any Model.serves = true →
        ∃ t q, exec (.request qp r) s = .next t ∧ t.req? qp r.request = some q ∧ q.rec_ = r ∧ q.context = s1.svc.nextContext ∧
          q.tokens = r.input ∧ q.readySince = some s1.now ∧ q.entries = [] ∧
          look t.svc.contexts q.context = some { model := r.model, tables := s1.newTables r.model, lastUse := s1.now }) ∧
      (∃ t, exec (.requestContinuation qp r) s = .next t ∧ t.svc.dropped = satAdd 64 s1.svc.dropped 1 ∧
        t.svc.requests = s1.svc.requests)) ∧
    (∀ (r : ReqRec) (q : Request), s1.req? qp r.request = some q →
      let refused (t : State) : Prop := t.svc.dropped = satAdd 64 s1.svc.dropped 1 ∧
        t.req? qp r.request = some (q.push (streamEntry 0xFFFFFFFF (s1.ctxLength q.context) q.context kindError stBadArg 0 0 []))
      let joined := s1.modReq qp r.request fun q => { q with rec_ := { q.rec_ with input := q.rec_.input ++ r.input, more := r.more } }
      (q.assembling = false → ∃ t, exec (.request qp r) s = .next t ∧ refused t) ∧
      (∃ t, exec (.unknownRecord qp (some r.request)) s = .next t ∧ refused t) ∧
      (q.assembling = false → ∃ t, exec (.requestContinuation qp r) s = .next t ∧ refused t) ∧
      (q.assembling = true → exec (.requestContinuation qp r) s =
          .next (if r.more then joined else joined.admitRequest qp r.request) ∧
        exec (.request qp r) s = exec (.requestContinuation qp r) s) ∧
      (q.inPass = true → exec (.cancel qp r.request) s = .next (s1.modReq qp r.request fun r => { r with cancelled := true })) ∧
      (q.inPass = false → ∃ t q', exec (.cancel qp r.request) s = .next t ∧ t.req? qp r.request = none ∧ q' ∈ t.svc.requests ∧
        q'.ended = true ∧ q'.entries = q.entries ++
          [(q.nextEntry, streamEntry 0xFFFFFFFF (s1.ctxLength q.context) q.context kindEnd stOk 0 3 [])])) ∧
    (∀ (id v : Nat) (r : Request), s1.streamOf qp id = some r →
      ((v < r.credits ∨ r.written < v) → exec (.credit qp id v) s =
        .next (s1.onSvc fun x => { x with creditsIgnored := satAdd 32 x.creditsIgnored 1 })) ∧
      (r.credits ≤ v → v ≤ r.written → exec (.credit qp id v) s =
        .next ((s1.modStream qp id fun r => { r with credits := v }).makeReady qp id))) ∧
    ∀ (ctx : Nat) (k : Context), look s1.svc.contexts ctx = some k →
      exec (.close qp ctx) s = .next (if k.kept ∧ (s1.svc.requests.any fun r => !r.ended && r.context == ctx) = false
        then s1.closeContext ctx else s1)) ∧
  ∀ (qp id : Nat) (r : Request) (m : Model) (k : Tokeniser) (s : State), s.req? qp id = some r → r.tokenising = true → r.tokImage = none →
    look s.svc.models r.rec_.model = some m → look s.svc.tokenisers m.rec_.tokeniser = some k →
    (∀ x ∈ s.svc.requests, x.waitingTok = true → x.ended = false → ¬ (x.qp = qp ∧ x.rec_.request = id)) →
    let toks := tokenise k (r.rec_.input.map fun n => BitVec.ofNat 8 n)
    toks.any (fun n => decide (m.rec_.vocab ≤ n)) = false →
    ∃ t q, exec (.tokenise qp id) s = .next t ∧ t.req? qp id = some q ∧ q.tokens = toks ∧ q.tokenising = false ∧
      (m.serves = true → r.creditFor r.nextEntry = true → r.assembling = false → r.inPass = false →
        q.readySince = some (r.readySince.getD s.now)) ∧
      ∀ w, s.svc.requests.find? (fun x => x.waitingTok && !x.ended) = some w →
        ∃ w', t.req? w.qp w.rec_.request = some w' ∧ w'.tokenising = true

/-- R312 to R314. -/
def Obligations.StreamsAreWrittenWithCredit : Prop :=
  (∀ (qp id n : Nat) (r : Request) (q : Qp) (s : State), s.streamOf qp id = some r → look s.net.qps qp = some q → q.state = .rts →
    let size := 2 ^ r.rec_.ringLog2
    let fits := 0 < n ∧ n ≤ 255 ∧ n ≤ r.entries.length ∧ r.written % size + n ≤ size ∧ r.written + n ≤ r.credits + size
    (fits → ∃ t, exec (.streamWrite qp id n) s = .next t ∧
      t.sent = s.sent ++ [.rdmaWrite qp (r.rec_.ringVa + 32 * (r.written % size)) (some (n * 2 ^ 24 + r.written % 2 ^ 24))
        ((r.entries.take n).flatMap (·.2))] ∧
      (n < r.entries.length → { r with entries := r.entries.drop n, written := r.written + n } ∈ t.svc.requests) ∧
      t.mem = s.mem ∧ t.svc.contexts = s.svc.contexts) ∧
    (¬ fits → exec (.streamWrite qp id n) s = .next s)) ∧
  (∀ (qp id : Nat) (r : Request) (s : State), s.req? qp id = some r →
    (r.creditSince = none ∨ r.inPass = true → exec (.creditTimeout qp id) s = .next s) ∧
    (r.creditSince ≠ none → r.inPass = false → ∃ t q, exec (.creditTimeout qp id) s = .next t ∧ t.req? qp id = none ∧
      q ∈ t.svc.requests ∧ q.ended = true ∧ q.entries = r.entries ++
        [(r.nextEntry, streamEntry 0xFFFFFFFF (s.ctxLength r.context) r.context kindEnd stTimeout 0 3 [])])) ∧
  ∀ (ctx : Nat) (k : Context) (s : State), look s.svc.contexts ctx = some k →
    exec (.contextIdleTimeout ctx) s = .next (if k.kept ∧ (s.svc.requests.any fun r => !r.ended && r.context == ctx) = false
      then s.closeContext ctx else s)

/-- R168, R171, R314, R318, R319, R321 and R327. -/
def Obligations.PassesAreFormedAndCommitted : Prop :=
  (∀ (i e : Nat) (m : Model) (s s1 : State), look s.svc.models i = some m → m.serves = true → 0 < m.rec_.passMax →
    s.readySeqs i ≠ [] → s.svc.passes.length < 16 → s.openEpoch true = some (s1, e) →
    ∃ t picks p, exec (.fillWaitExpiry i) s = .next t ∧ look t.svc.passes s.svc.nextPass = some p ∧ p.model = i ∧ p.epoch = e ∧
      p.retried = false ∧ p.seqs = picks.map (fun r => (r.qp, r.rec_.request)) ∧ picks ≠ [] ∧ picks.length ≤ m.rec_.passMax ∧
      (∀ r ∈ picks, r ∈ s.readySeqs i) ∧ p.adapters.length ≤ 8 ∧
      (picks.filter fun r => decide (r.chunked < r.tokens.length)).length ≤ 4 ∧
      t.work.tasks = s1.work.tasks ∧ t.work.epochs = s1.work.epochs ∧ t.work.ready = s1.work.ready ∧ t.cores = s.cores) ∧
  (∀ (i : Nat) (m : Model) (s : State), look s.svc.models i = some m → ∃ t, exec (.fillWaitExpiry i) s = .next t ∧
    exec (.passForm i) s = .next (if (s.readySeqs i).length < m.rec_.passMax then s else t)) ∧
  (∀ (n : Nat) (p : Pass) (e : Epoch) (m : Model) (results : List SeqLogits) (s : State), look s.svc.passes n = some p →
    look s.work.epochs p.epoch = some e → look s.svc.models p.model = some m →
    (∀ s0, e.doomed = false → s.passFits m p results = true → s.passTables m p results = some s0 →
      (∀ a ∈ p.adapters, ∃ x, look s.svc.adapters a = some x ∧ x.staged = true) → (∀ o ∈ p.ops, o.2 = 0) →
      let gens := (s0.commitAdmit p.epoch).2
      let u := ((s0.commitAdmit p.epoch).1.commitAct p.epoch [] gens).passSeqs m p results
      (s0.commitAdmit p.epoch).1.commitReady p.epoch gens = true →
      ∃ t, exec (.passCommit n results) s = .next t ∧ t.mem = u.mem ∧ t.work = u.work ∧ t.svc.requests = u.svc.requests ∧
        t.svc.contexts = u.svc.contexts ∧
        t.svc.emptyRows = satAdd 64 u.svc.emptyRows ((results.filter fun x => p.seqs.contains (x.qp, x.request)).map (·.emptyRows)).sum ∧
        ∀ k, look u.svc.models p.model = some k →
          ∃ k', look t.svc.models p.model = some k' ∧ k'.passesRun = satAdd 64 k.passesRun 1 ∧ k'.lastServed = s.now) ∧
    (e.doomed = true → p.retried = false → ∀ (s2 : State) (e2 : Nat),
      ((s.discardEpoch p.epoch stPartial).onSvc fun v => { v with passes := del v.passes n }).openEpoch true = some (s2, e2) →
      ∃ t, exec (.passCommit n results) s = .next t ∧ look t.svc.passes n = some { p with
        epoch := e2, retried := true, ops := s2.matrixOps m p.seqs.length } ∧
        t.work.tasks = s2.work.tasks ∧ t.work.epochs = s2.work.epochs ∧ t.work.ready = s2.work.ready)) ∧
  (∀ (m : Model) (x : SeqLogits) (qp : Nat) (r : Request) (s : State), s.req? qp x.request = some r → x.poisoned = false →
    s.workOf m r = .decode → r.cancelled = false →
    let len := s.ctxLength r.context
    let tok := sampleTok r.rec_ (x.rows.getD 0 []) len 0
    stopReason m { r with produced := r.produced ++ [tok] } tok (len + 1) = none →
    ∃ q, (s.passSeq m x qp).req? qp x.request = some q ∧ q.produced = r.produced ++ [tok] ∧ q.inPass = false ∧ q.ended = false) ∧
  ∀ (a e : Nat) (j : Ft) (x : Adapter) (s s1 : State), look s.svc.fts a = some j → look s.svc.adapters a = some x →
    j.stopped = false → j.step < j.job.steps → s.svc.passes.length < 8 → s.openEpoch true = some (s1, e) →
    (∀ grads : List Word, grads.length = x.params →
      let opt (y : AdamElem × Word) : AdamElem :=
        adamw j.job.lr j.job.beta1 j.job.beta2 j.job.eps j.job.lambda (j.step + 1) y.1 y.2
      ∃ t, exec (.finetuneStep a true grads) s = .next t ∧ t.mem = (s1.commitAct e [] []).mem ∧
      look t.svc.adapters a = some { x with step := x.step + 1, elems := ((s.elemsOf x).zip grads).map opt } ∧
      look t.svc.fts a = some { j with step := j.step + 1, retried := false, stopped := decide (j.job.steps ≤ j.step + 1) }) ∧
    ∀ grads, ∃ t, exec (.finetuneStep a false grads) s = .next t ∧
      look t.svc.fts a = some (if j.retried then { j with stopped := true } else { j with retried := true })

/-- R183, R298, R303, R304 and R324. -/
def Obligations.ModelsFetchRankAndStage : Prop :=
  (∀ (i : Nat) (m : Model) (ws : List Byte) (s : State), look s.svc.models i = some m → m.state = .loading → ws.length = m.rec_.bytes →
    (shake256 ws = m.rec_.digest → s.MemOk → ∀ im, (s.roomForImage ws.length).allocImage ws.length = some im →
      ∃ t k, exec (.modelFetch i ws) s = .next t ∧ look t.svc.models i = some k ∧ k.state = .ready ∧ k.image = im ∧ k.rec_ = m.rec_ ∧
        t.imageBytes im = ws) ∧
    (shake256 ws ≠ m.rec_.digest → ∃ t, exec (.modelFetch i ws) s = .next t ∧ look t.svc.models i = some { m with state := .loadFailed } ∧
      ∀ r ∈ s.svc.requests, r.rec_.model = i → r.waitingModel = true → r.ended = false → t.req? r.qp r.rec_.request = none)) ∧
  (∀ (i : Nat) (m : Model) (s : State), look s.svc.models i = some m → m.cls = 3 → m.state = .ready → m.image ≠ [] →
    (s.svc.requests.any fun r => !r.ended && r.rec_.model == i && r.waitingModel) = true →
    ∃ t, exec (.modelStage i) s = .next t ∧ look t.svc.models i = some { m with cls := 2, lastMove := s.now, lastServed := s.now }) ∧
  (∀ s : State, (keys s.svc.models).Pairwise (· < ·) → ∃ ord : List (Nat × Model), exec .residencyRank s = .next (ord.foldl (fun s p => s.rankOne p.1) s) ∧
    ord.Perm (s.svc.models.filter fun p => p.2.cls == 2) ∧
    ord.Pairwise fun a b => s.score b.1 b.2 < s.score a.1 a.2 ∨ (s.score b.1 b.2 = s.score a.1 a.2 ∧ a.1 < b.1)) ∧
  (∀ (n a : Nat) (p : Pass) (x : Adapter) (s : State), look s.svc.passes n = some p → look s.svc.adapters a = some x → a ∈ p.adapters →
    (keys s.svc.adapters).Pairwise (· < ·) →
    ∃ t, exec (.adapterStage n a) s = .next t ∧ t.svc.passes = s.svc.passes ∧
      let st := t.svc.adapters.filter fun p => p.2.staged
      let within := st.foldl (fun a p => a + p.2.rec_.bytes) 0 ≤ leNat (s.profNow 0x02000005) * 2 ^ 20 ∨
        ∀ y ∈ st, ∃ q ∈ s.svc.passes, y.1 ∈ q.2.adapters
      (t = s ∨ ((look t.svc.adapters a).any (·.staged) = true ∧ within)) ∧ (x.staged = true ∨ x.rec_.bytes = 0 → within)) ∧
  ∀ s : State, (∀ acts, exec (.placerRecompute acts) s = .next (acts.foldl State.placerAct s.leaveFenced).settle) ∧
    s.leaveFenced.mem = s.mem ∧ s.leaveFenced.cores = s.cores ∧
    ∀ id x, s.task? id = some x →
      (x.state.final = true → s.leaveFenced.task? id = some x) ∧
      (x.state.final = false → x.cds.length ≤ ((List.range 512).filter fun cd => !s.fenced cd).length →
        ∃ y, s.leaveFenced.task? id = some y ∧ y.cds.length = x.cds.length ∧ ∀ cd ∈ y.cds, s.fenced cd = false)

/-! ### Ethernet ports -/

/-- R397 and R401 to R403. -/
def Obligations.PortsChangeStateAndPause : Prop :=
  ∀ (p prio : Nat) (s : State), let k := s.portSt p
    (∃ t, exec (.portEnable p) s = .next t ∧ t.portSt p = (match k.state with
      | .disabled => { k with enable := true, state := .down }
      | .draining => { k with enable := true, pendingOn := true }
      | _ => k)) ∧
    (∃ t, exec (.portDisable p) s = .next t ∧ t.portSt p = (match k.state with
      | .disabled => { k with enable := false }
      | .draining => { k with enable := false, pendingOn := false }
      | _ => { k with enable := false, state := .draining })) ∧
    (k.state = .draining → ∃ t, exec (.portDrainEnd p) s = .next t ∧
      t.portSt p = { k with state := if k.pendingOn then .down else .disabled, enable := k.pendingOn, pendingOn := false }) ∧
    (∀ v, ∃ t, exec (.modeSelWrite p v) s = .next t ∧
      t.portSt p = (if k.state = .disabled then { k with modeSel := v % 4 } else k) ∧ (k.state ≠ .disabled → t.log = (s.logEvent .ethCfgBad { ut := utPort, ui := p }).log)) ∧
    (∀ v : Byte, ∃ t, exec (.pfcMaskWrite p v) s = .next t ∧ (2 < onesIn v.toNat 8 → t.portSt p = k ∧ t.log = (s.logEvent .ethCfgBad { ut := utPort, ui := p }).log) ∧
      (onesIn v.toNat 8 ≤ 2 → (t.portSt p).pfcMask = v ∧
        ∀ i, i < 8 → k.pfc i = true → v.getLsbD i = false → i ∉ (t.portSt p).pfcSending ∧ look (t.portSt p).paused i = none ∧
          (i ∈ k.pfcSending → .pfc p i 0 ∈ t.sent))) ∧
    (k.state = .down → ∃ t, exec (.portUp p) s = .next t ∧ (t.portSt p).state = .up ∧ (t.portSt p).linkLocalOk = true) ∧
    (k.state ≠ .down → exec (.portUp p) s = .next s) ∧
    (∀ l r, ∃ t, exec (.portFault p l r) s = .next t ∧
      t.portSt p = { k with localFault := l, remoteFault := r, state := if k.state = .up then .down else k.state }) ∧
    exec (.pfcRepeat p prio) s = .next (if prio ∈ k.pfcSending ∧ 786432 < lookD k.occupancy prio 0
      then s.emit (.pfc p prio 0xFFFF) else s) ∧
    (∀ n, n ≤ 786432 → k.pfc prio = true → prio ∈ k.pfcSending → n ≤ lookD k.occupancy prio 0 →
      ∃ t, exec (.pfcXon p prio n) s = .next t ∧ prio ∉ (t.portSt p).pfcSending ∧ (0 < n → lookD (t.portSt p).occupancy prio 0 = n) ∧
        t.sent = s.sent ++ [.pfc p prio 0]) ∧
    (∀ q size, q ≠ 0 → k.state = .up → k.pfc prio = true → prio ∉ k.ignoring →
      ∃ t, exec (.pfcFrameRx p prio q) s = .next t ∧ look (t.portSt p).paused prio = some (lookD k.paused prio s.now) ∧
        exec (.frameTx p prio size) t = .next t) ∧
    (∀ at_, look k.paused prio = some at_ → ∃ t, exec (.ethPfcStorm p prio) s = .next t ∧ prio ∈ (t.portSt p).ignoring ∧
      t.log = (s.logEvent .ethPfcStorm { ut := utPort, ui := p }).log ∧
      (∀ q, exec (.pfcFrameRx p prio q) t = .next t) ∧
      ∃ u, exec (.stormIgnoreEnd p prio) t = .next u ∧ u.portSt p = { t.portSt p with ignoring := k.ignoring.filter (· != prio) }) ∧
    (exec (.pauseTimeExpiry p prio) s = .next (s.modPort p fun k => { k with paused := del k.paused prio })) ∧
    ∀ size, k.state = .up → look k.paused prio = none → 64 ≤ size → size ≤ 4352 →
      (k.macsecEnable = false → exec (.frameTx p prio size) s = .next (s.emit (.frame p frOther (k.sentTag prio) (k.sentDscp prio)))) ∧
      ∀ a, k.macsecEnable = true → k.txSa = some a →
        (2 ^ 64 ≤ a.pn → exec (.frameTx p prio size) s = .next s) ∧
        (a.pn < 2 ^ 64 → ∃ t, exec (.frameTx p prio size) s = .next t ∧ t.sent = s.sent ++ [.frame p frOther (k.sentTag prio) (k.sentDscp prio)] ∧
          (t.portSt p).sas = k.sas.map (fun x => if x = a then { a with pn := a.pn + 1 } else x) ∧
          (a.pn + 1 = 0xC000000000000000 → t.ctl.alertPending.getLsbD alMacsec = true))

/-- R399 to R401 and R404 to R407. -/
def Obligations.FramesAreFilteredAndAddressesChecked : Prop :=
  ∀ (p : Nat) (s : State), let k := s.portSt p
    (k.state ≠ .up → (∀ f, exec (.ethFrameRx p f) s = .next s) ∧ (∀ a b m, exec (.arp p a b m) s = .next s) ∧
      (∀ a m, exec (.arpReply p a m) s = .next s) ∧ ∀ v6 n, exec (.echo p v6 n) s = .next s) ∧
    (k.state = .up →
      (∀ f : EthFrame, let s1 := s.modPort p fun k => { k with
          fecCorrected := satAdd 32 k.fecCorrected f.fecFixed, fecUncorrected := satAdd 16 k.fecUncorrected f.fecBad }
        (f.fecBad ≠ 0 → exec (.ethFrameRx p f) s = .next s1) ∧
        (f.fecBad = 0 → (f.size < 64 ∨ 4352 < f.size) → exec (.ethFrameRx p f) s =
          .next (s1.modPort p fun k => { k with dropSize := satAdd 16 k.dropSize 1 }))) ∧
      (∀ f : EthFrame, f.fecBad = 0 → 64 ≤ f.size → f.size ≤ 4352 → let s1 := s.modPort p fun k => { k with
          fecCorrected := satAdd 32 k.fecCorrected f.fecFixed, fecUncorrected := satAdd 16 k.fecUncorrected f.fecBad }
        (f.fcsOk = false → exec (.ethFrameRx p f) s = .next (s1.modPort p fun k => { k with fcsErrors := satAdd 16 k.fcsErrors 1 })) ∧
        (f.fcsOk = true → (s.dstOk p f && etypeOk f) = false → exec (.ethFrameRx p f) s =
          .next (s1.modPort p fun k => { k with dropFiltered := satAdd 16 k.dropFiltered 1 })) ∧
        (f.fcsOk = true → s.dstOk p f = true → etypeOk f = true → k.macsecEnable = false → f.sec = none → k.tagsOk f = true → bodyOk f.body = true →
          f.body ≠ .pfc → roceOk f.body = true →
          let prio := match f.tags with | (pcp, _) :: _ => pcp % 8 | [] => 0
          let held := lookD k.occupancy (k.bufKey prio) 0
          (held + f.size ≤ 2097152 → ∃ t, exec (.ethFrameRx p f) s = .next t ∧
            lookD (t.portSt p).occupancy (k.bufKey prio) 0 = held + f.size ∧
            t.sent = s.sent ++ (if k.pfc prio = true ∧ 1310720 ≤ held + f.size ∧ prio ∉ k.pfcSending then [.pfc p prio 0xFFFF] else [])) ∧
          (2097152 < held + f.size → k.pfc prio = false → ∃ t, exec (.ethFrameRx p f) s = .next t ∧
            (t.portSt p).dropFull = satAdd 16 k.dropFull 1 ∧ t.sent = s.sent))) ∧
      (∀ a b m, s.claims4 p b m = false → exec (.arp p a b m) s = .next
        (if a = k.ipv4 ∧ k.ipv4State = .ok then s.sendFrame p frArpReply else s)) ∧
      (∀ a b m, s.claims4 p b m = true → k.ipv4State = .ok → ∃ t, exec (.arp p a b m) s = .next t ∧
        t.log = ((s.withdraw p false).logEvent .ethAddrDup { ut := utPort, ui := p }).log ∧
        (t.portSt p).ipv4State = .withdrawn ∧
        ∀ q x, look s.net.qps q = some x → x.port = p → x.gidIndex = 1 → (look t.net.qps q).map (·.state) = some .error) ∧
      (∀ a m, s.claims4 p a m = false → ∃ t, exec (.arpReply p a m) s = .next t ∧ (mapped a, m) ∈ (t.portSt p).neighbours) ∧
      (∀ a, exec (.neighbourSolicitation p a) s = .next (if (k.linkLocalOk ∧ a = s.linkLocal p) ∨ (k.ipv6State = .ok ∧ a = k.ipv6)
        then s.sendFrame p frNeighbour else s)) ∧
      (exec (.neighbourAdvertisement p k.ipv6) s = .next (s.duplicate p true)) ∧
      (∀ a, a ≠ k.ipv6 → ∃ t, exec (.neighbourAdvertisement p a) s = .next t ∧ t.sent = s.sent ∧ t.net.qps = s.net.qps) ∧
      (∀ a, ∃ t, exec (.routerAdvertisement p a) s = .next t ∧ t.portSt p = { k with ipv6Router := a }) ∧
      ∀ v6 n, n ≤ 1472 → (if v6 then k.linkLocalOk = true ∨ k.ipv6State = .ok else k.ipv4State = .ok) →
        let recent := k.echoTimes.filter fun t => decide (s.now < t + 1000000000)
        ∃ t, exec (.echo p v6 n) s = .next t ∧
          t.sent = s.sent ++ (if recent.length < 100 then [s.frameOf p frEcho] else []) ∧
          (recent.length < 100 → (t.portSt p).echoTimes = recent ++ [s.now])) ∧
    ∀ v6 : Bool,
      let use (x : PortSt) : AddrState := if v6 then x.ipv6State else x.ipv4State
      let dhcp (x : PortSt) : Dhcp := if v6 then x.dhcp6 else x.dhcp4
      (∀ n, use k = .probing n →
        (∃ t, exec (.addressProbe p v6 true) s = .next t ∧ use (t.portSt p) = .none ∧
          t.log = (s.logEvent .ethAddrDup { ut := utPort, ui := p }).log) ∧
        ∃ t, exec (.addressProbe p v6 false) s = .next t ∧ use (t.portSt p) = (if n ≤ 1 then .ok else .probing (n - 1)) ∧
          t.sent = s.sent ++ (if n ≤ 1 then [] else [s.frameOf p frProbe])) ∧
      (dhcp k = .bound → ∃ t, exec (.dhcpRenew p v6) s = .next t ∧ dhcp (t.portSt p) = .renewing ∧ t.sent = s.sent ++ [s.frameOf p frDhcp]) ∧
      (dhcp k = .renewing → ∃ t, exec (.dhcpRebind p v6) s = .next t ∧ dhcp (t.portSt p) = .rebinding ∧
        t.sent = s.sent ++ [s.frameOf p frDhcp]) ∧
      (dhcp k = .renewing ∨ dhcp k = .rebinding → ∃ t, exec (.leaseExpiry p v6) s = .next t ∧ dhcp (t.portSt p) = .selecting ∧
        use (t.portSt p) = .withdrawn ∧
        ∀ q x, look s.net.qps q = some x → x.port = p → x.gidIndex = (if v6 then 2 else 1) →
          (look t.net.qps q).map (·.state) = some .error) ∧
      ∀ a n r, dhcp k = .selecting → use k = .none → ∃ t, exec (.dhcpReply p v6 a n r) s = .next t ∧
        dhcp (t.portSt p) = .bound ∧ (if v6 then (t.portSt p).ipv6 = a else (t.portSt p).ipv4 = BitVec.ofNat 32 a.toNat) ∧
        use (t.portSt p) = .probing (if v6 then 1 else 3) ∧ t.sent = s.sent ++ [s.frameOf p frProbe]

/-! ### Queue pairs and RDMA -/

/-- R408, R411 and R413 to R415. -/
def Obligations.InboundRequestsAreServed : Prop :=
  ∀ (q : Nat) (x : Qp) (s : State), look s.net.qps q = some x → x.state = .rts →
    let failed (code : Nat) (t : State) : Prop := .rdmaNak q code ∈ t.sent ∧ (look t.net.qps q).map (·.state) = some .error ∧
      (look t.net.qps q).map (·.held) = some [] ∧ ((∀ w, x.kind ≠ .window w) → t.mem = s.mem)
    (x.held = [] →
      (∀ set len, x.kind = .service set → 0 < len → len ≤ 65536 →
        let c := s.channel inboxEp set
        let full := s.fw.schRestart = true ∨ s.net.rxFree = 0 ∨ c.depth ≤ c.words.length + 1
        (¬ full → ∃ t, exec (.send q len) s = .next t ∧ t.net.rxFree = s.net.rxFree - 1 ∧
          (t.channel inboxEp set).words.length = c.words.length + 1 ∧ t.sent = s.sent ++ [.rdmaAck q]) ∧
        (full → ∃ t, exec (.send q len) s = .next t ∧ (t.portSt x.port).rnrNakTx = satAdd 16 (s.portSt x.port).rnrNakTx 1 ∧
          t.sent = s.sent ++ [.rdmaNak q nakRnr] ∧ t.channels = s.channels)) ∧
      (∀ len, (∀ set, x.kind ≠ .service set) → ∃ t, exec (.send q len) s = .next t ∧ failed nakInvalid t) ∧
      (∀ rkey va len, s.domainHolds x = false → ∃ t, exec (.rdmaRead q rkey va len) s = .next t ∧ failed nakInvalid t) ∧
      (∀ rkey va, ∀ bs : List Byte, sizeOk bs.length = true → s.domainHolds x = true → bits rkey.toNat 19 8 ≠ 0 → s.regionOk x rkey va bs.length true = false →
        ∃ t, exec (.rdmaWrite q rkey va bs) s = .next t ∧ failed nakAccess t) ∧
      (∀ rkey va, ∀ bs : List Byte, sizeOk bs.length = true → x.kind ≠ .mgmt → s.regionOk x rkey va bs.length true = true →
        (s.answer (.rdma q) va bs.length true = .go → s.MemOk → (∀ u, s.mem.errsOf u = []) →
          ∃ t, exec (.rdmaWrite q rkey va bs) s = .next t ∧ t.mem.read va bs.length = bs ∧
            (∀ a, (a < va ∨ va + bs.length ≤ a) → t.mem.byte a = s.mem.byte a) ∧ t.sent = s.sent ++ [.rdmaAck q]) ∧
        (∀ st, s.answer (.rdma q) va bs.length true = .status st → st ≠ stBadArg →
          ∃ t, exec (.rdmaWrite q rkey va bs) s = .next t ∧ t.mem = s.mem ∧ t.sent = s.sent ∧
            (look t.net.qps q).map (·.held) = some [{ op := 1, rkey := rkey, va := va, len := bs.length, data := bs, resetting := st == stResetting }]) ∧
        ((s.answer (.rdma q) va bs.length true = .fault ∨ s.answer (.rdma q) va bs.length true = .status stBadArg) →
          ∃ t, exec (.rdmaWrite q rkey va bs) s = .next t ∧ failed nakAccess t)) ∧
      (∀ rkey va len m off, sizeOk len = true → x.kind ≠ .mgmt → s.regionOk x rkey va len false = true → s.answer (.rdma q) va len false = .go →
        place va = .outer m off → s.mem.flipUnits va len = [] → (∀ i, i < len → s.mem.marked (unitBase (va + i)) = false) →
        ∃ t, exec (.rdmaRead q rkey va len) s = .next t ∧ t.mem = s.mem ∧ t.sent = s.sent ++ [.rdmaData q (s.mem.read va len)])) ∧
    ∀ r rest, x.held = r :: rest →
      (∀ rkey va, ∀ bs : List Byte, exec (.rdmaWrite q rkey va bs) s =
        .next (s.modQp q fun x => { x with held := x.held ++ [{ op := 1, rkey := rkey, va := va, len := bs.length, data := bs }] })) ∧
      (∀ st, s.serveInbound q x r = .inr st → exec (.heldRequestRetry q) s =
        .next (s.modQp q fun x => { x with held := { r with resetting := st == stResetting } :: rest })) ∧
      (∀ t, rest = [] → s.serveInbound q x r = .inl t → ∃ u, exec (.heldRequestRetry q) s = .next u ∧ u.sent = t.sent ∧ u.mem = t.mem ∧
        ∀ y, look t.net.qps q = some y → (look u.net.qps q).map (·.held) = some []) ∧
      ∃ t, exec (.holdLimitExpiry q) s = .next t ∧ failed nakOperational t

/-- R408, R410, R412 and R416 to R419. -/
def Obligations.ConnectionsAndRates : Prop :=
  (∀ (p : Nat) (m : CmReq) (s : State), (s.portSt p).state = .up →
    (∀ reason, s.judgeReq p m = .inl reason → exec (.req p m) s = .next (s.emit (.cm p none (cmRej reason)))) ∧
    (∀ kind i, s.judgeReq p m = .inr kind → s.freeQp = some i → ∃ t x, exec (.req p m) s = .next t ∧ look t.net.qps i = some x ∧
      x.kind = kind ∧ x.port = p ∧ x.state = .rtr ∧ x.mtu = min m.mtu (s.portSt p).mtuMax ∧ x.rate = (s.portSt p).line ∧
      x.remoteQpn = m.remoteQpn ∧ (kind = .mgmt ↔ x.domain = 255) ∧ t.sent = s.sent ++ [.cm p (some i) cmRep]) ∧
    (∀ kind, s.judgeReq p m = .inr kind → s.freeQp = none → exec (.req p m) s = .next (s.emit (.cm p none (cmRej rejNoQp))))) ∧
  ∀ (q : Nat) (x : Qp) (s : State), look s.net.qps q = some x →
    let k := s.portSt x.port
    (x.state = .rtr → ∃ t, exec (.rtu q) s = .next t ∧ look t.net.qps q = some { x with state := .rts }) ∧
    (x.state = .rtr → x.rtuTries < 3 → ∃ t, exec (.rtuTimeout q) s = .next t ∧
      look t.net.qps q = some { x with rtuTries := x.rtuTries + 1 } ∧ t.sent = s.sent ++ [.cm x.port (some q) cmRep]) ∧
    (x.state = .rtr → 3 ≤ x.rtuTries → ∃ t, exec (.rtuTimeout q) s = .next t ∧ (q, s.now) ∈ t.net.resting ∧
      t.net.qps = del s.net.qps q ∧ t.sent = s.sent ++ [.cm x.port (some q) (cmRej rejTimeout)]) ∧
    (∀ w h, x.kind = .window w → x.state = .init → look s.ctl.opening w = some h →
      (∀ mtu n, ∃ t, exec (.rep x.port q mtu n) s = .next t ∧
        look t.net.qps q = some { x with state := .rts, mtu := min x.mtu mtu, remoteQpn := n } ∧
        (lookD t.ctl.windows w {}).state = 2 ∧ t.sent = s.sent ++ [.cm x.port (some q) cmRtu]) ∧
      (∃ t, exec (.rej q) s = .next t ∧ t.net.qps = del s.net.qps q ∧ t.ctl.windows = del s.ctl.windows w ∧
        ∀ c, s.ctl.inProgress = [c] → c.hdr = h → c.op = 0x0601 → c.discard = false →
          t.ctl.completed.map (·.status) = s.ctl.completed.map (·.status) ++ [stNotReady]) ∧
      (x.reqTries < 3 → ∃ t, exec (.deviceReqTimeout q) s = .next t ∧ look t.net.qps q = some { x with reqTries := x.reqTries + 1 } ∧
        t.sent = s.sent ++ [.cm x.port (some q) cmReq]) ∧
      (3 ≤ x.reqTries → ∃ t, exec (.deviceReqTimeout q) s = .next t ∧ t.net.qps = del s.net.qps q ∧
        ∀ c, s.ctl.inProgress = [c] → c.hdr = h → c.op = 0x0601 → c.discard = false →
          t.ctl.completed.map (·.status) = s.ctl.completed.map (·.status) ++ [stTimeout])) ∧
    (∃ t, exec (.dreq q) s = .next t ∧ (q, s.now) ∈ t.net.resting ∧ .cm x.port (some q) cmDrep ∈ t.sent) ∧
    exec (.drep q) s = .next (if x.state = .reset then s.freeQpIndex q else s) ∧
    (∀ at_, x.lastCnp = some at_ → s.now < at_ + 50000 → exec (.cnpSend q) s = .next s) ∧
    (x.lastCnp = none ∨ (∃ at_, x.lastCnp = some at_ ∧ at_ + 50000 ≤ s.now) → ∃ t, exec (.cnpSend q) s = .next t ∧
      t.sent = s.sent ++ [s.frameOf x.port frCnp] ∧ look t.net.qps q = some { x with lastCnp := some s.now }) ∧
    (∃ t, exec (.cnp q) s = .next t ∧ look t.net.qps q = some (if s.now < x.lastCut + 50000 then x else
      { x with rate := max (max 1 k.rclMin * 1024) (x.rate - x.rate / 2 ^ k.cutShift), lastCut := s.now })) ∧
    (x.lastCut + max 1 k.rclHold * 10000 ≤ s.now → ∃ t, exec (.rateRecoveryStep q) s = .next t ∧
      look t.net.qps q = some (if k.line ≤ x.rate then x else
        { x with rate := min k.line (x.rate + k.rclAdd * 1024 + (k.line - x.rate) / 2 ^ k.rclRec) })) ∧
    (∀ w rest, x.outstanding = w :: rest →
      exec (.rdmaAcknowledgement q true) s =
        .next ((s.modQp q fun x => { x with outstanding := rest, timeouts := 0 }).writeAcked q w) ∧
      (∃ t, exec (.rdmaAcknowledgement q false) s = .next t ∧ (look t.net.qps q).map (·.state) = some .error)) ∧
    (x.state = .rts → (x.outstanding ≠ [] ∨ x.reads ≠ []) →
      (x.timeouts < retryCount x.kind → ∃ t, exec (.ackTimeout q) s = .next t ∧
        look t.net.qps q = some { x with timeouts := x.timeouts + 1 } ∧
        t.sent = s.sent ++ x.outstanding.map (fun w => .rdmaWrite q w.va w.imm w.data) ++ x.reads.map fun r => .rdmaRead q r.va r.len) ∧
      (retryCount x.kind ≤ x.timeouts → ∃ t, exec (.ackTimeout q) s = .next t ∧ (look t.net.qps q).map (·.state) = some .error)) ∧
    ∀ r rest, ∀ bs : List Byte, x.reads = r :: rest → k.readWait = [] →
      let t0 := (s.modQp q fun x => { x with reads := rest, timeouts := 0 }).modPort x.port fun p => { p with readBytes := p.readBytes - r.len }
      exec (.rdmaReadResponse q bs) s = .next (if ((s.core r.core).item? r.engine r.seq).isNone then t0 else match r.entry with
        | some n => (t0.gotEntry r.core r.engine r.seq n (bs.take r.len) false none).completed r.core
        | none => (((t0.spStore r.core r.dest (bs.take r.len) (List.replicate (bs.take r.len).length false)).continueItem r.core r.engine r.seq).completed
          r.core))

/-! ### Power, feeds, heat -/

/-- R489 to R493, R496, R503 to R510 and R513 to R515. -/
def Obligations.ClocksDomainsAndTheCap : Prop :=
  ∀ s : State,
    (∀ cd, let k := s.cluster cd
      (k.clk = k.goal → exec (.dividerRampStep cd) s = .next s) ∧
      (k.clk ≠ k.goal → ∃ t, exec (.dividerRampStep cd) s = .next t ∧
        t.cluster cd = { k with clk := if k.goal.slower k.clk.step then k.goal else k.clk.step })) ∧
    (∀ l, l < 8 → ((s.linkSt l).state = .up → ∃ t, exec (.clockOffer (2 + l)) s = .next t ∧ 2 + l ∈ t.pwr.offered ∧ (t.linkSt l).offered = true) ∧
      ((s.linkSt l).state ≠ .up → exec (.clockOffer (2 + l)) s = .next s)) ∧
    (∀ n, n ≠ 0 → s.pwr.offered.contains n = true → s.pwr.source = n → ∃ t, exec (.clockWithdraw n) s = .next t ∧ n ∉ t.pwr.offered ∧
      t.pwr.source ≠ n ∧ t.pwr.holdover = true ∧ t.pwr.switches = satAdd 16 s.pwr.switches 1 ∧ t.tuned) ∧
    (∀ n, s.pwr.offered.contains n = true → s.pwr.source ≠ n → ∃ t, exec (.clockWithdraw n) s = .next t ∧ n ∉ t.pwr.offered ∧
      t.pwr.source = s.pwr.source) ∧
    (∀ n, s.pwr.offered.contains n = true → n ∈ (sourceOrder s.pwr.srcCfg).takeWhile (· != s.pwr.source) →
      ∃ t, exec (.candidateStable n) s = .next t ∧ t.pwr.source = n ∧ t.pwr.holdover = true ∧ t.tuned) ∧
    (∃ t, exec .pllLock s = .next t ∧ t.pwr = { s.pwr with holdover := false } ∧ t.tuned) ∧
    (∀ c e, ((s.core c).queue e).isEmpty = true → e ∉ (s.core c).gatesClosed → ∃ t, exec (.engineGateClose c e) s = .next t ∧
      t.core c = { s.core c with gatesClosed := (s.core c).gatesClosed ++ [e] }) ∧
    (∀ cd, (s.cluster cd).wave = none → (s.cluster cd).gateOpen = true → ∃ t, exec (.clusterGateIdle cd) s = .next t ∧
      (t.cluster cd).gateOpen = (s.cluster cd).gatePending ∧ (t.cluster cd).gateClosing = false ∧ (t.cluster cd).gatePending = false) ∧
    (∀ cd p, cd < 512 → p < 6 → (s.cluster cd).phases.getLsbD p = true →
      let k := { s.cluster cd with phases := (s.cluster cd).phases &&& ~~~(1#6 <<< p) }
      ∃ t, exec (.phaseFail cd p) s = .next t ∧ (t.cluster cd).phases = k.phases ∧ .phase cd p ∈ t.fw.toRetire ∧
        t.pwr.lastPhaseFail = s.now ∧ t.pwr.phaseEmergency = s.pwr.phaseEmergency + 1 ∧
        (k.working = 4 → k.fenced = false → (t.cluster cd).f ≤ 17) ∧
        (k.working ≤ 3 → k.fenced = false → (t.cluster cd).clk = .stopped ∧
          (t.cluster cd).fenced = (s.fw.powUp && !s.fw.powRestart))) ∧
    exec .phaseEmergencyEnd s = .next (s.onPwr fun p => { p with phaseEmergency := p.phaseEmergency - 1 }) ∧
    (∀ cd i mv, i < 4 → i ∉ (s.cluster cd).droopDropped → ∃ t, exec (.droop cd i mv) s = .next t ∧
      (t.cluster cd).droopEvents = (if mv + 60 < (s.cluster cd).raised then satAdd 8 (s.cluster cd).droopEvents 1 else (s.cluster cd).droopEvents) ∧
      ((mv < 400 ∨ 1000 < mv) → lookD (s.cluster cd).droopBad i 0 = 9 → i ∈ (t.cluster cd).droopDropped)) ∧
    (∀ cd near vpkg, (s.cluster cd).dom = .waitBudget →
      (s.fw.powRestart = false → s.rampNear cd = false → s.waitsBefore cd = false → near + 4000 ≤ 90000 →
        vpkg + 4000 * ((s.clusters.filter fun p => p.2.dom == .rampUp).length + 1) ≤ 1250000 → s.heat.coolant ≠ .absent →
        ∃ t, exec (.domainBudgetGrant cd near vpkg) s = .next t ∧ t.cluster cd = { s.cluster cd with dom := .rampUp, ramp := 0, setPoint := 0 }) ∧
      ((s.rampNear cd = true ∨ s.waitsBefore cd = true ∨ 90000 < near + 4000) → exec (.domainBudgetGrant cd near vpkg) s = .next s)) ∧
    (∀ cd, let k := s.cluster cd
      (k.dom = .rampUp → ∃ t, exec (.rampStep cd) s = .next t ∧ (t.cluster cd).ramp = k.ramp + 1 ∧
        (t.cluster cd).setPoint = k.target * (k.ramp + 1) / 16 ∧ (t.cluster cd).dom = (if 15 ≤ k.ramp then .on else .rampUp)) ∧
      (k.dom = .rampDown → k.domPending = false → ∃ t, exec (.rampStep cd) s = .next t ∧ (t.cluster cd).ramp = k.ramp - 1 ∧
        (t.cluster cd).setPoint = k.target * (k.ramp - 1) / 16 ∧
        (t.cluster cd).dom = (if 1 < k.ramp then .rampDown else if k.fenced then .fenced else .off)) ∧
      (k.dom ≠ .rampUp → k.dom ≠ .rampDown → exec (.rampStep cd) s = .next s)) ∧
    (s.fw.powUp = true → s.fw.powRestart = false →
      (∀ a b, s.heat.probing = false → s.pwr.capLevel ≤ 8 → ∃ t, exec (.capControlPeriod a b) s = .next t ∧ t.tuned ∧ t.pwr.capLevel ≤ 8 ∧
        (t.pwr.capLevel ≤ s.pwr.capLevel + 1 ∨ t.pwr.capLevel ≤ 6) ∧ (s.pwr.fastLimit = true → 6 ≤ t.pwr.capLevel) ∧
        (s.pwr.sustained = true → s.pwr.capW < b → 4 ≤ t.pwr.capLevel) ∧ t.pwr.mean1 = a ∧ t.pwr.mean10 = b) ∧
      (∀ a, 4000 < a → ∃ t, exec (.sustainedOver a) s = .next t ∧ t.pwr.sustained = true ∧ 4 ≤ t.pwr.capLevel ∧ t.tuned)) ∧
    (∀ w, 4400 < w → ∃ t, exec (.fastLimit w) s = .next t ∧ t.pwr.fastLimit = true ∧ 6 ≤ t.pwr.capLevel ∧ t.tuned) ∧
    ∀ w, exec (.fastLimitRelease w) s = .next (if w < s.pwr.capW then s.onPwr fun p => { p with fastLimit := false } else s)

/-- R32 to R34, R41, R44, R45, R464, R498, R499, R517 and R518. -/
def Obligations.FeedsResetAndSag : Prop :=
  ∀ s : State,
    (∀ f, f < 2 →
      (s.dev = .off → ∃ t, exec (.feedInRange f) s = .next t ∧ t.dev = .powering ∧ (t.pwr.feed f).ok = true ∧ t.mem = {} ∧ t.cores = [] ∧
        t.fw.coldStarts = satAdd 32 s.fw.coldStarts 1) ∧
      (s.dev ≠ .off → s.dev ≠ .saving → exec (.feedInRange f) s = .next (s.feedOk f) ∧ ((s.feedOk f).pwr.feed f).ok = true) ∧
      (s.dev = .saving → s.pwr.recorded = true → s.pwr.thermtrip = false → ∃ t, exec (.feedReturn f) s = .next t ∧ t.dev = .powering) ∧
      ((s.pwr.feed f).ok = true → s.dev ≠ .off → ∃ t, exec (.feedOutOfRange f) s = .next t ∧ (t.pwr.feed f).ok = false ∧
        (t.ctl.alertPending.getLsbD alPower) = true ∧ t.pwr.conducting = s.pwr.conducting) ∧
      (let o := s.pwr.feed (1 - f);
        s.pwr.conducting = conductingOf f → o.ok = true → o.connected = true → o.mated = true →
        (∃ t, exec (.feedOvervoltage f) s = .next t ∧ (t.pwr.feed f).connected = false ∧ (t.pwr.feed f).ok = false ∧
          t.pwr.conducting = conductingOf (1 - f) ∧ t.pwr.switchOvers = satAdd 32 s.pwr.switchOvers 1) ∧
        (∃ t, exec (.feedMateOpen f) s = .next t ∧ (t.pwr.feed f).mated = false ∧ (t.pwr.feed f).ok = false ∧
          t.pwr.conducting = conductingOf (1 - f) ∧ t.pwr.switchOvers = satAdd 32 s.pwr.switchOvers 1) ∧
        (∃ t, exec .feedSwitchover s = .next t ∧ t.pwr.conducting = conductingOf (1 - f) ∧
          t.pwr.switchOvers = satAdd 32 s.pwr.switchOvers 1 ∧ t.life.switchovers = satAdd 32 s.life.switchovers 1)) ∧
      (∃ t, exec (.feedReconnect f) s = .next t ∧ t.pwr.feed f = { s.pwr.feed f with connected := true })) ∧
    exec .housekeepingSupplyUp s = .next (s.onPwr fun p => { p with rowJ := true }) ∧
    exec .firstStageStop s = .next (s.onPwr fun p => { p with firstStage := false, vpkg := false, vom := false, vpkgA := 0 }) ∧
    (s.dev ≠ .off → exec .firstStageStart s = .next (s.onPwr fun p => { p with firstStage := true, vpkg := true, vom := s.dev != .saving && s.dev != .tripped })) ∧
    ((s.dev = .saving ∨ s.dev = .tripped ∨ s.dev = .off) → ∃ t, exec .orNodeLow s = .next t ∧ t.dev = .off ∧ t.pwr.rowJ = false ∧
      t.pwr.conducting = 0 ∧ t.pwr.feedA.ok = false ∧ t.pwr.feedB.ok = false ∧ t.pwr.thermtrip = false ∧ t.mem = {}) ∧
    (s.dev ≠ .off → s.dev ≠ .saving → s.dev ≠ .tripped →
      (∃ t, exec .rstNAssert s = .next t ∧ t.dev = .rom ∧ t.pwr.rstLow = true ∧ t.fw.rstHeld = true ∧ t.mem = {} ∧ t.now = s.now ∧
        t.log.ring = [] ∧ ∃ u, exec .rstNRelease t = .next u ∧ u.pwr.rstLow = false ∧ u.fw.rstHeld = false) ∧
      ∀ mv, ∃ t r, exec (.sag mv) s = .next t ∧ t.dev = .saving ∧ t.pwr.sagRec = some r ∧ r.before = s.dev.code ∧
        r.journalNext = s.work.journalNext ∧ r.errNext = s.log.next ∧ t.pwr.recorded = false ∧ t.pwr.feedA.ok = false ∧
        t.pwr.feedB.ok = false ∧ t.mem = {} ∧ t.log = s.log) ∧
    (∀ mv r, s.dev = .saving → s.pwr.sagRec = some r → ∃ t, exec (.sagRecordDone mv) s = .next t ∧
      (∀ i, lowestFree (keys s.fw.lastGasp) 64 = some i → look t.fw.lastGasp i = some { r with atEnd := (s.pwr.feedA.mv, s.pwr.feedB.mv, mv) }) ∧
      t.dev = (if s.pwr.thermtrip then .tripped else if s.pwr.feedA.ok ∨ s.pwr.feedB.ok then .powering else .saving)) ∧
    ∀ a b w v, s.dev ≠ .off → (let u (x : Feed) : Bool := x.connected && x.mated && x.ok;
      u s.pwr.feedA = true → u s.pwr.feedB = true →
      ∃ t, exec (.powerMeasure a b w v) s = .next t ∧ t.pwr.feedA.mv = a ∧ t.pwr.feedB.mv = b ∧ t.pwr.powerMw = w ∧ t.pwr.vpkgA = v ∧
        t.pwr.conducting = (if a < b + 200 ∧ b < a + 200 then 3 else if b < a then 1 else 2))

/-- R524, R530, R531, R533 to R541, R250 and R261. -/
def Obligations.HeatThrottlesStopsAndTrips : Prop :=
  ∀ s : State,
    (∀ z xs, (29 ≤ z → exec (.thermalZoneSample z xs) s = .next s) ∧
      (z < 16 → ∃ t, exec (.thermalZoneSample z xs) s = .next t ∧
        let r := (t.heat.zone z).reading
        (1760 ≤ r → (t.heat.zone z).level = 8) ∧ (1680 ≤ r → 7 ≤ (t.heat.zone z).level ∧ (t.heat.zone z).hard = true) ∧
        (r < 1680 → (t.heat.zone z).level ≤ (s.heat.zone z).level + 1) ∧
        ((t.heat.zone z).level ≠ (s.heat.zone z).level → t.ctl.alertPending.getLsbD alThermal = true ∧ t.tuned)) ∧
      (16 ≤ z → z < 28 → ∃ t, exec (.thermalZoneSample z xs) s = .next t ∧
        let u := t.heat.packageReading (z - 16)
        (1360 < u → (t.outer (z - 16)).refreshStep = 1) ∧ (1520 < u → (t.outer (z - 16)).derated = true) ∧
        (u ≤ 1488 → (t.outer (z - 16)).derated = false)) ∧
      (z = 28 → ∃ t, exec (.thermalZoneSample z xs) s = .next t ∧
        t.heat.inletHigh = (!(t.heat.chan inletChan).dropped && decide (640 < (t.heat.chan inletChan).raw)))) ∧
    (∀ ch n, chanStack ch = some n → n < 4 → (s.heat.chan ch).dropped = false → s.heat.risesFast ch = true →
      ∃ t, exec (.fastRise ch) s = .next t ∧ t.heat.stacksStopped.getLsbD n = true ∧
        t.heat.coolant = (if s.heat.coolant = .absent then .absent else .stopped) ∧
        ∀ cd, cd < 512 → dieOf cd = n → (t.cluster cd).goal = .stopped) ∧
    (∀ n, n < 4 → s.heat.stacksStopped.getLsbD n = true → 4000 ≤ s.heat.tach → s.heat.stackMax n ≤ 1440 →
      ∃ t, exec (.stackRestart n) s = .next t ∧ t.heat.stacksStopped = s.heat.stacksStopped &&& ~~~(1#4 <<< n) ∧ t.tuned) ∧
    (s.fw.powUp = true → s.fw.powRestart = false → ∀ hz w, ∃ t, exec (.flowCompute hz w) s = .next t ∧ t.heat.tach = s.flowByTach hz ∧
      (s.heat.coolant = .normal → (t.heat.flow < 4000 → t.heat.coolant = .lowFlow ∧ t.heat.coolantLimit = some t.heat.flow) ∧
        (4000 ≤ t.heat.flow → t.heat.coolant = .normal)) ∧
      (s.heat.flowSensorFailed = false → (∀ q, s.flowByHeat w = some q → ¬ (s.flowByTach hz < 2000 ∧ 4000 ≤ q)) →
        t.heat.flow = (match s.flowByHeat w with | some q => min (s.flowByTach hz) q | none => s.flowByTach hz))) ∧
    (s.heat.coolant = .lowFlow → 4200 ≤ s.heat.flow → exec .lowFlowLeave s = .next (s.onHeat fun h => { h with coolant := .normal, coolantLimit := none })) ∧
    (s.dev = .training → s.heat.flow < 2000 → ∃ t, exec .coolantAbsent s = .next t ∧ t.heat.coolant = .absent) ∧
    (s.heat.coolant = .absent → s.heat.probing = false → (s.heat.chan inletChan).dropped = false → (s.heat.chan outletChan).dropped = false →
      ∃ t, exec (.flowProbe .start) s = .next t ∧ t.heat.probing = true ∧ t.pwr.capLevel = 6 ∧ t.tuned) ∧
    (s.heat.probing = true → (10 ≤ s.heat.flowOk → ∃ t, exec (.flowProbe .flowFound) s = .next t ∧ t.heat.probing = false ∧ t.heat.coolant = .normal) ∧
      ∃ t, exec (.flowProbe .stopped) s = .next t ∧ t.heat.probing = false ∧ t.pwr.capLevel = 0 ∧ t.heat.coolant = s.heat.coolant ∧
        ∀ cd k, look s.clusters cd = some k → k.dom = .on ∨ k.dom = .rampUp → (t.cluster cd).dom = .rampDown) ∧
    (∀ ch v, tripAt ch = some v → v ≤ s.heat.used ch → s.dev ≠ .off → s.dev ≠ .tripped → ∃ t, exec (.thermalTrip ch) s = .next t ∧
      t.pwr.thermtrip = true ∧ t.heat.tripChannel = ch ∧ t.life.trips = satAdd 16 s.life.trips 1 ∧
      (s.dev = .saving → t.dev = .saving) ∧ (s.dev ≠ .saving → t.dev = .tripped ∧ t.mem = {} ∧ t.ctl.inProgress = [])) ∧
    ∀ n a0 c0 p0 a1 c1 p1, s.dev = .selftest → n < 4 →
      let lost := (List.range 4).any fun q => (s.heat.zone (4 * n + q)).pairLost
      let i := (s.heat.chan inletChan).raw
      (240 ≤ i → i ≤ 640 → 4000 ≤ s.heat.flow → p0 + 200 ≤ p1 → lost = false →
        ∃ t, exec (.rthMeasure n a0 c0 p0 a1 c1 p1) s = .next t ∧
          (lookD t.heat.rth n {}).history.head? = some (((a1 - c1) - (a0 - c0)) * 10000 / (16 * ((p1 : Int) - p0))).toNat ∧
          (lookD t.heat.rth n {}).count = satAdd 16 (lookD s.heat.rth n {}).count 1) ∧
      (s.heat.flow < 4000 ∨ p1 < p0 + 200 ∨ lost = true ∨ i < 240 ∨ 640 < i →
        exec (.rthMeasure n a0 c0 p0 a1 c1 p1) s = .next (s.logEvent .rthSkipped { detail := n }))

/-! ### Mailbox commands -/

/-- R434, R436, R438 and R439 for all 54 commands of R441. -/
def Obligations.CommandsWaitForTheirTurn : Prop :=
  ∀ (i : Instr) (h : CmdHdr) (op : Nat) (s : State), cmdOf i = some (h, op) →
    ((∀ c ∈ s.ctl.inProgress, ¬ (c.hdr = h ∧ c.op = op ∧ c.started = false)) → exec i s = .next s) ∧
    (∀ c, (s.ctl.inProgress.find? fun c => c.hdr = h && c.op == op && !c.started) = some c →
      (s.fw.schRestart = true ∨ s.ctl.turn c = false) → exec i s = .next s) ∧
    (∀ c st, s.ctl.inProgress = [c] → c.hdr = h → c.op = op → c.started = false → c.discard = false → s.fw.schRestart = false →
      s.ctl.turn c = true → s.cmdRefusal h.path op = some st → (op = 0x0A04 → s.fw.resetStep = 0) →
      ∃ t, exec i s = .next t ∧ s.answered t h op st false 0 [] ∧ t.mem = s.mem ∧ t.work = s.work ∧ t.svc = s.svc ∧ t.net = s.net ∧
        t.lys = s.lys ∧ t.pwr = s.pwr ∧ t.fw = s.fw ∧ t.ident = s.ident ∧ t.cores = s.cores ∧ t.clusters = s.clusters ∧ t.dev = s.dev) ∧
    ∀ c, s.ctl.inProgress = [c] → c.hdr = h → c.op = op → c.started = false → c.discard = false → s.fw.schRestart = false →
      s.ctl.turn c = true → s.cmdRefusal h.path op = none → c.hostOwned = true → (op = 0x0A04 → s.fw.resetStep = 0) →
      ∃ t, exec i s = .next t ∧ s.answered t h op stBadArg false 0 [] ∧ t.mem = s.mem ∧ t.work = s.work ∧ t.svc = s.svc ∧ t.fw = s.fw

/-- R437, R441, R442 and R444. -/
def Obligations.DeviceCommandsAct : Prop :=
  ∀ (h : CmdHdr) (s : State),
    (s.runs h 0x0101 → ∃ t, exec (.getInfo h) s = .next t ∧ t.mem = s.mem ∧ s.answered t h 0x0101 stOk true 0
      ((List.range 24).flatMap (fun i => leBytes 8 (s.dcsReg (8 * i))) ++ leBytes 8 (s.dcsReg 0x100) ++ leBytes 8 (s.dcsReg 0x108))) ∧
    (s.runs h 0x0102 → ∀ mode cds, (∀ cd ∈ cds, cd < 512) →
      (mode ≤ 1 → s.fw.resetStep ≠ 0 → ∃ t, exec (.computeReset h mode cds) s = .next t ∧ s.answered t h 0x0102 stBusy false 0 []) ∧
      (1 < mode → ∃ t, exec (.computeReset h mode cds) s = .next t ∧ s.answered t h 0x0102 stBadArg false 0 []) ∧
      (mode ≤ 1 → s.fw.resetStep = 0 → ∃ t, exec (.computeReset h mode cds) s = .next t ∧ t.ctl.completed = s.ctl.completed ∧
        t.fw.resetStep = 1 ∧ t.fw.resetCmd = some h ∧ t.dev = (if mode = 0 then .computeReset else s.dev) ∧
        t.fw.resetting = (if mode = 0 then List.range 512 else cds.eraseDups).filter fun cd => !s.fenced cd)) ∧
    (s.runs h 0x0103 → ∃ t, exec (.deviceReset h) s = .next t ∧ t.fw.resetDelay = true ∧ s.answered t h 0x0103 stOk true 0 []) ∧
    (s.runs h 0x0104 → ∀ (key : Word) (v : List Byte), profSize key.toNat ≠ 0 →
      let pad (l : List Byte) : List Byte := l ++ List.replicate (192 - profSize key.toNat) 0
      (∃ t, exec (.config h 0 key v) s = .next t ∧ s.answered t h 0x0104 stOk true 0 (pad (s.profNow key.toNat))) ∧
      (v.length = profSize key.toNat → v.length ≤ 192 → profOk key.toNat v = true → ∃ t, exec (.config h 1 key v) s = .next t ∧
        s.answered t h 0x0104 stOk true 0 (pad v) ∧
        (key.toNat, v) ∈ (if key.toNat / 2 ^ 31 = 0 then t.fw.profDev else t.fw.profNet) ∧ t.fw.profSeq = s.fw.profSeq + 1)) ∧
    (s.runs h 0x0601 → ∀ w p g a va len rk, w < 64 → p < 4 → g < 3 →
      let x := lookD s.ctl.windows w ({} : Win)
      (x.state = 1 ∨ x.state = 2 → ∃ t, exec (.window h 0 w p g a va len rk) s = .next t ∧ s.answered t h 0x0601 stBusy false 0 []) ∧
      (∀ q, x.state = 0 → (s.portSt p).state = .up → (s.portSt p).gidOk g = true → s.freeQp = some q →
        ∃ t k, exec (.window h 0 w p g a va len rk) s = .next t ∧ t.sent = s.sent ++ [.cm p (some q) cmReq] ∧
          look t.ctl.opening w = some h ∧ look t.ctl.windows w = some { state := 1, qp := q, port := p, gidIndex := g, hostGid := a, va := va, len := len, rkey := rk } ∧
          look t.net.qps q = some k ∧ k.kind = .window w ∧ k.state = .init ∧ k.port = p ∧ t.ctl.completed = s.ctl.completed) ∧
      (x.state = 0 → look s.ctl.opening w = none → ∃ t, exec (.window h 1 w p g a va len rk) s = .next t ∧
        s.answered t h 0x0601 stOk true 0 [0])) ∧
    (s.runs h 0x0602 → ∀ i base len rd wr d, i ≠ 0 → i < 4096 →
      let x := lookD s.net.regions i ({} : Region)
      (d ≤ 255 → memoryRange base len = true → ∃ t, exec (.region h 0 i base len rd wr d) s = .next t ∧
        lookD t.net.regions i {} = { registered := true, base := base, len := len, rd := rd, wr := wr, domain := d, tag := nextTag x.tag } ∧
        s.answered t h 0x0602 stOk true 0 (leBytes 4 (i * 256 + nextTag x.tag))) ∧
      (∃ t, exec (.region h 1 i base len rd wr d) s = .next t ∧ lookD t.net.regions i {} = { x with registered := false } ∧
        s.answered t h 0x0602 stOk true 0 (leBytes 4 (i * 256 + x.tag)))) ∧
    (s.runs h 0x0603 → s.ctl.retires = [] →
      (∀ c page i, c < 32768 → page < 192 → s.retiredPage 0 c page = false → (s.slice c).freeSpare = some i →
        ∃ t, exec (.retire h 0 c page false) s = .next t ∧ (page, i) ∈ (t.slice c).copying ∧ t.ctl.retires.map (·.hdr) = [h] ∧
          t.ctl.completed = s.ctl.completed ∧ t.mem = s.mem) ∧
      (∀ m page i, m < 12 → page < 65536 → s.retiredPage 1 m page = false → (s.outer m).freeSpare = some i →
        ∃ t, exec (.retire h 1 m page false) s = .next t ∧ (page, i) ∈ (t.outer m).copying ∧ t.ctl.retires.map (·.hdr) = [h] ∧
          t.ctl.completed = s.ctl.completed ∧ t.mem = s.mem) ∧
      ∀ tier u page bank, 1 < tier → ∃ t, exec (.retire h tier u page bank) s = .next t ∧ s.answered t h 0x0603 stBadArg false 0 []) ∧
    (s.runs h 0x0604 → ∀ u off v, unitRegsUnit u = true → unitExists u = true → off % 8 = 0 → off < (s.block u).length →
      ∃ t, exec (.unitRegs h 0 u off v) s = .next t ∧ s.answered t h 0x0604 stOk true 0 (s.block u)) ∧
    (s.runs h 0x0605 → ∀ i base size rd wr, i < 16 → size ≠ 0 → memoryRange base size = true → ∃ t, exec (.exportWindow h i base size rd wr) s = .next t ∧
      look t.lys.exports i = some { base := base, size := size, rd := rd, wr := wr } ∧ s.answered t h 0x0605 stOk true 0 []) ∧
    (s.runs h 0x0701 → ∀ w, ∃ t, exec (.setPowerCap h w) s = .next t ∧
      (1500 ≤ w → w ≤ 4000 → t.pwr.capW = w ∧ s.answered t h 0x0701 stOk true 0 (leBytes 2 w)) ∧
      ((w < 1500 ∨ 4000 < w) → t.pwr = s.pwr ∧ s.answered t h 0x0701 stBadArg false 0 [])) ∧
    (s.runs h 0x0702 → ∀ (mask : Half) v, mask.toNat < 4096 → v < 20 → ∃ t, exec (.setProboscis h mask v) s = .next t ∧
      s.answered t h 0x0702 stOk true 0 [] ∧ ∀ m, m < 12 → mask.getLsbD m = true → (s.outer m).activeSaved = none →
        (t.outer m).activeMax = activeMaxOf v) ∧
    (s.runs h 0x0703 → ∀ cd level on, cd < 512 → level ≤ 1 → let k := s.cluster cd
      (k.fenced = true → ∃ t, exec (.domain h cd level on) s = .next t ∧ s.answered t h 0x0703 stDenied false 0 []) ∧
      (k.fenced = false → k.dom ≠ .fenced → k.wave.isSome = true → on = false →
        ∃ t, exec (.domain h cd level on) s = .next t ∧ t.clusters = s.clusters ∧ s.answered t h 0x0703 stGateBusy false 0 (leBytes 1 k.dom.code)) ∧
      (k.fenced = false → k.dom = .off → level = 1 → on = true → ∃ t, exec (.domain h cd level on) s = .next t ∧
        (t.cluster cd).dom = .waitBudget ∧ s.answered t h 0x0703 stOk true 0 (leBytes 1 (t.cluster cd).dom.code))) ∧
    (s.runs h 0x0704 → ∃ t r, exec (.getPower h) s = .next t ∧ s.answered t h 0x0704 stOk true 0 r ∧ r.take 4 = leBytes 4 (s.pwr.mean10 * 1000) ∧
      r.length = 224) ∧
    (s.runs h 0x0801 → ∀ mask : Word, bits mask.toNat 31 29 = 0 →
      let chs := ((List.range 160).filter fun ch => mask.getLsbD (chanZone ch)).take 56
      ∃ t r, exec (.getThermal h mask) s = .next t ∧ s.answered t h 0x0801 stOk true (BitVec.ofNat 32 chs.length) r ∧ r.length = 4 * chs.length) ∧
    (s.runs h 0x0802 → ∀ n, (4 ≤ n → ∃ t, exec (.getRth h n) s = .next t ∧ s.answered t h 0x0802 stBadArg false 0 []) ∧
      (n < 4 → ∃ t r, exec (.getRth h n) s = .next t ∧ s.answered t h 0x0802 stOk true 0 r ∧
        r.take 4 = leBytes 2 (lookD s.heat.rth n {}).count ++ leBytes 2 ((lookD s.heat.rth n {}).history.headD 0))) ∧
    (s.runs h 0x0B01 → h.path = .ring → ∀ first count d, let b : BufRef := { window := 255, buffer := 0, data := d }
      s.bufRefusal h.path b 1 = none → s.MemOk →
      let start := min (max first (s.log.ring.foldl (fun m e => min m e.2.index) s.log.next)) s.log.next
      let rs := (s.log.from_ start count).take (s.bufLen h.path b / 64)
      ∃ t, exec (.getErrorLog h first count b) s = .next t ∧ t.mem.read (objectBuffer + 64) (64 * rs.length) = rs.flatMap ErrRec.bytes ∧
        s.answered t h 0x0B01 stOk true (BitVec.ofNat 32 start) (leBytes 4 rs.length)) ∧
    (s.runs h 0x0B02 → (∀ c k cls, c < 32768 → k < 256 → cls < 5 → ∃ t a, exec (.injectError h utSlice c cls k) s = .next t ∧
        s.answered t h 0x0B02 stOk true 0 [] ∧ (∃ off, place a = .slice c off) ∧ a % 32 = 0 ∧ t.mem.errsOf a ≠ [] ∧ t.mem.cells = s.mem.cells) ∧
      (∀ c k cls, c < 32768 → k < 256 → k % 2 = 1 → 0 < cls → cls < 5 → ∃ t i, exec (.injectError h utCore c cls k) s = .next t ∧
        s.answered t h 0x0B02 stOk true 0 [] ∧ i < 256 ∧ ((t.core c).acc i).poison = true ∧ t.mem = s.mem) ∧
      (∀ c k cls, c < 32768 → k < 256 → k % 2 = 0 → 0 < cls → cls < 5 → ∃ t row, exec (.injectError h utCore c cls k) s = .next t ∧
        s.answered t h 0x0B02 stOk true 0 [] ∧ place row = .scratch c (row - scratchAddr c) ∧ row % 32 = 0 ∧ t.mem.marked row = true ∧
        t.mem.cells = s.mem.cells) ∧
      ∀ ut ui k cls, (256 ≤ k ∨ 5 ≤ cls) → ∃ t, exec (.injectError h ut ui cls k) s = .next t ∧ s.answered t h 0x0B02 stBadArg false 0 []) ∧
    (s.runs h 0x0C01 → ∀ l w, l < 8 → w < 16 → let k := s.linkSt l
      (k.state ≠ .draining → ∃ t, exec (.link h l k.enable w false) s = .next t ∧ t.linkSt l = { k with widthMax := w } ∧
        s.answered t h 0x0C01 stOk true 0 (leBytes 1 k.state.code)) ∧
      (k.state = .up → k.enable = true → ∃ t, exec (.link h l false w false) s = .next t ∧ (t.linkSt l).state = .draining ∧
        s.answered t h 0x0C01 stOk true 0 (leBytes 1 LState.draining.code))) ∧
    (s.runs h 0x0C02 → ∀ sys d torus, d < 32768 →
      let idle := (List.range 8).all fun l => [LState.disabled, .down, .mismatch].contains (s.linkSt l).state
      (idle = true → ∃ t, exec (.setLysId h sys d torus) s = .next t ∧ t.lys.systemId = sys ∧ t.lys.deviceId = d ∧ t.lys.torus = torus ∧
        s.answered t h 0x0C02 stOk true 0 []) ∧
      (idle = false → ∃ t, exec (.setLysId h sys d torus) s = .next t ∧ t.lys = s.lys ∧ s.answered t h 0x0C02 stBusy false 0 [])) ∧
    (s.runs h 0x0C03 → ∀ b, s.bufRefusal h.path b 0 = none → (s.bufIn h.path b).length = 32768 → ∃ t, exec (.writeRoutes h b) s = .next t ∧
      s.answered t h 0x0C03 stOk true 0 [] ∧ ∀ i, i < 32768 → (look t.lys.routes i).getD 0 = (s.bufIn h.path b).getD i 0) ∧
    (s.runs h 0x0C04 → ∀ id b, (s.work.colls.any fun c => c.desc.group == id && s.collOpen c) = false →
      (id < 256 → s.bufRefusal h.path b 0 = none → (s.bufIn h.path b).length = 2 → field (s.bufIn h.path b) 0 2 < 32768 →
        ∃ t, exec (.group h 0 id b) s = .next t ∧ look t.work.groups id = some [field (s.bufIn h.path b) 0 2] ∧
          s.answered t h 0x0C04 stOk true 0 []) ∧
      ((look s.work.groups id).isSome = true → ∃ t, exec (.group h 1 id b) s = .next t ∧ t.work.groups = del s.work.groups id ∧
        s.answered t h 0x0C04 stOk true 0 [])) ∧
    (s.runs h 0x0C05 → ∀ p, p < 4 → let k := s.portSt p
      (k.state ≠ .draining → 1 ≤ k.modeSel → k.modeSel ≤ 3 → ∃ t, exec (.port h p k.enable k.modeSel) s = .next t ∧ t.net = s.net ∧
        s.answered t h 0x0C05 stOk true 0 (leBytes 1 k.state.code)) ∧
      (k.state = .draining → k.pendingOn = false → 1 ≤ k.modeSel → k.modeSel ≤ 3 → ∃ t, exec (.port h p true k.modeSel) s = .next t ∧
        (t.portSt p).pendingOn = true ∧ s.answered t h 0x0C05 stPendingOn true 0 (leBytes 1 k.state.code))) ∧
    ∀ c, s.ctl.inProgress = [c] → c.hdr = h → c.discard = false →
      (c.started = false → ∃ t, exec (.commandTimeout h false) s = .next t ∧ s.answered t h c.op stTimeout false 0 []) ∧
      (c.started = true → c.op = 0x0102 → ∃ t, exec (.commandTimeout h true) s = .next t ∧ t.fw.resetCmd = none ∧
        s.answered t h c.op stTimeout true 0 [])

/-- R3, R403, R473 to R475, R570 to R591. -/
def Obligations.SecurityCommandsAct : Prop :=
  ∀ (h : CmdHdr) (b : BufRef) (o : SObj) (s : State),
    (s.runs h 0x0105 → s.bufRefusal h.path b 0 = none → objSpelled o (s.bufIn h.path b) = true → o.wellFormed = true → o.type = 0x20 → o.body.length = 32 → tokenOk o.body = true →
      ∀ key, s.roleKey o.body = some key →
      (s.objRefusal o [0x20] 32 (hashOf key) = none → s.bindOk h.path o.body = true → ∃ t x, exec (.openSession h b o) s = .next t ∧
        t.session h.path = some x ∧ x.owner = (field o.body 0 1 == 1) ∧ x.slot = field o.body 1 1 ∧
        t.ident.counter (hashOf key) = o.counter ∧ s.answered t h 0x0105 stOk true 0 []) ∧
      (∀ st, s.objRefusal o [0x20] 32 (hashOf key) = some st → ∃ t, exec (.openSession h b o) s = .next t ∧ t.ident = s.ident ∧
        s.answered t h 0x0105 st false 0 [])) ∧
    (s.runs h 0x0A01 → s.bufRefusal h.path b 0 = none → objSpelled o (s.bufIn h.path b) = true →
      (s.ownershipRefusal h.path o = none → ∃ t, exec (.takeOwnership h b o) s = .next t ∧
        t.ident.owner = (if o.type = 3 then none else some (keyAt o.body 0)) ∧ t.ident.sessRing = none ∧ t.ident.sessI2c = none ∧
        t.life.ownerChanges = satAdd 16 s.life.ownerChanges 1 ∧ s.answered t h 0x0A01 stOk true 0 []) ∧
      (∀ st, s.ownershipRefusal h.path o = some st → ∃ t, exec (.takeOwnership h b o) s = .next t ∧ t.ident = s.ident ∧
        s.answered t h 0x0A01 st false 0 [])) ∧
    (s.runs h 0x0A02 → s.bufRefusal h.path b 0 = none → objSpelled o (s.bufIn h.path b) = true → ∀ k, s.ident.owner = some k →
      (tenantOk 0 o.body = true → s.objRefusal o [0x10] 0x60 (hashOf k) = none → ∃ t, exec (.tenant h 0 b o) s = .next t ∧
        look t.ident.tenants (field o.body 0 1) = some { key := keyAt o.body 0x20, groups := field o.body 2 2 } ∧ t.ident.clean = false ∧
        s.answered t h 0x0A02 stOk true 0 []) ∧
      (tenantOk 1 o.body = true → s.objRefusal o [0x11] 0x20 (hashOf k) = none → ∃ t, exec (.tenant h 1 b o) s = .next t ∧
        t.ident.tenants = del s.ident.tenants (field o.body 0 1) ∧
        (∀ x, t.ident.sessRing = some x ∨ t.ident.sessI2c = some x → x.owner = true ∨ x.slot ≠ field o.body 0 1) ∧
        s.answered t h 0x0A02 stOk true 0 [])) ∧
    (b.window = 255 → s.bufRefusal h.path b 1 = none → (s.runs h 0x0A03 → ∀ nonce, ∃ t n, exec (.getQuote h nonce b) s = .next t ∧
        (n ≤ s.bufLen h.path b → t.ident.signed = s.ident.signed + 1 ∧ s.answered t h 0x0A03 stOk true (BitVec.ofNat 32 n) []) ∧
        (s.bufLen h.path b < n → t.ident = s.ident ∧ s.answered t h 0x0A03 stBadArg false (BitVec.ofNat 32 n) [])) ∧
      (s.runs h 0x0A05 → ∃ t n, exec (.getConditionReport h b) s = .next t ∧
        (n ≤ s.bufLen h.path b → t.ident.signed = s.ident.signed + 1 ∧ s.answered t h 0x0A05 stOk true (BitVec.ofNat 32 n) []) ∧
        (s.bufLen h.path b < n → t.ident = s.ident ∧ s.answered t h 0x0A05 stBadArg false (BitVec.ofNat 32 n) []))) ∧
    (s.runs h 0x0A06 → s.bufRefusal h.path b 0 = none → objSpelled o (s.bufIn h.path b) = true → ∀ k, s.ident.owner = some k → (field o.body 0 1 = 1 ∨ field o.body 0 1 = 2) →
      zeroAt o.body 1 32 = true → s.objRefusal o [0x30] 64 (hashOf k) = none → ∃ t, exec (.resetServiceCounters h b o) s = .next t ∧
        t.life.svcTrips = 0 ∧ t.life.svcSwitchovers = 0 ∧ t.life.svcCycles = [] ∧ t.life.resetAtS = s.poweredS ∧ t.life.seq = s.life.seq + 1 ∧
        t.life.serviceResets = satAdd 16 s.life.serviceResets 1 ∧ s.answered t h 0x0A06 stOk true 0 []) ∧
    (s.fw.resetStep = 0 → s.runs h 0x0A04 → s.fw.activation = .idle → s.bufRefusal h.path b 1 = none →
      (wipeCertSize ≤ s.bufLen h.path b → ∃ t, exec (.enterCocoon h b) s = .next t ∧ t.dev = .cocoon ∧ t.ident.cocoonStep = 2 ∧
        t.ident.cocoonPending = true ∧ t.ident.cocoonCmd = some (h, b) ∧ t.svc.sets = [] ∧ t.work.colls = []) ∧
      (s.bufLen h.path b < wipeCertSize → ∃ t, exec (.enterCocoon h b) s = .next t ∧ t.dev = s.dev ∧
        s.answered t h 0x0A04 stBadArg false (BitVec.ofNat 32 wipeCertSize) [])) ∧
    (s.dev = .cocoon → s.ident.cocoonStep = 2 →
      (∀ n p v, s.ident.wipeDone = false → ∃ t, exec (.cocoonWipeDone n p v) s = .next t ∧ t.cores = [] ∧ t.ident.wipeDone = true ∧
        (∀ a, a < dcsBase → t.mem.byte a = 0 ∧ t.mem.marked a = false) ∧
        t.ident.cocoonStep = (if s.ident.flashDone then 5 else 2) ∧ (s.ident.flashDone = true → t.ident.tenants = [])) ∧
      (s.ident.flashDone = false → ∃ t, exec .cocoonFlashDone s = .next t ∧ t.fw.profNet = [] ∧ t.ident.flashDone = true ∧
        t.ident.cocoonStep = (if s.ident.wipeDone then 5 else 2) ∧ (s.ident.wipeDone = true → t.ident.tenants = []))) ∧
    (s.dev = .cocoon → s.ident.cocoonStep = 5 → s.fw.secRestart = false → ∃ t, exec .wipeCertificate s = .next t ∧ t.dev = .ready ∧
      t.ident.clean = true ∧ t.ident.cocoonPending = false ∧ t.ident.cocoonStep = 0 ∧ t.ident.wipeCert.isSome = true ∧
      t.life.cocoons = satAdd 32 s.life.cocoons 1) ∧
    (s.runs h 0x0A07 → s.bufRefusal h.path b 0 = none → ∀ p an sci ssci, p < 4 → an < 4 → (s.bufIn h.path b).length = 1640 →
      (∃ t a, exec (.macsecKey h p true an sci ssci b true) s = .next t ∧ (t.portSt p).txSa = some a ∧ a.sci = sci ∧ a.pn = 1 ∧
        (t.portSt p).txAn = an ∧ (t.portSt p).pnExhausted = false ∧ s.answered t h 0x0A07 stOk true 0 []) ∧
      (∃ t, exec (.macsecKey h p true an sci ssci b false) s = .next t ∧ t.net = s.net ∧ s.answered t h 0x0A07 stBadArg false 0 [])) ∧
    (s.runs h 0x0A08 → ∀ i base size mask rate,
      (s.fw.guestPop = false → ∃ t, exec (.guestFirewall h i base size mask rate) s = .next t ∧ t.ident = s.ident ∧
        s.answered t h 0x0A08 stBadArg false 0 []) ∧
      (s.fw.guestPop = true → i < 8 → size = 0 → ∃ t, exec (.guestFirewall h i base size mask rate) s = .next t ∧
        t.ident.guestWins = del s.ident.guestWins i ∧ s.answered t h 0x0A08 stOk true 0 []) ∧
      (s.fw.guestPop = true → i < 8 → size ≠ 0 → base % 65536 = 0 → size % 65536 = 0 → mask < 4 → 0 < rate → rate ≤ 64000 →
        s.guestRange base size = true → s.placedRanges.any (overlaps (base, size)) = false →
        ∃ t, exec (.guestFirewall h i base size mask rate) s = .next t ∧
          look t.ident.guestWins i = some { base := base, size := size, mask := mask, rate := rate, since := s.now } ∧
          s.answered t h 0x0A08 stOk true 0 [])) ∧
    (s.fw.guestPop = true → s.pwr.guestOn = true → s.pwr.guestFenced = false → s.dev ≠ .cocoon → ∀ a len bad bs,
      (s.guestWindow a len = none → ∃ t, exec (.guestRequest 0 a len bad bs) s = .next t ∧ t.pwr.guestFenced = true ∧ t.pwr.guestOn = false ∧ t.mem = s.mem) ∧
      ∀ i w, s.guestWindow a len = some (i, w) → bits w.mask 0 0 = 1 → bad = false →
        (w.level s.now < len → exec (.guestRequest 0 a len bad bs) s = .next s) ∧
        (len ≤ w.level s.now → ∃ t, exec (.guestRequest 0 a len bad bs) s = .next t ∧
          look t.ident.guestWins i = some { w with tokens := w.level s.now - len, since := s.now })) ∧
    (s.runs h 0x0901 → s.fw.activation = .idle → s.fw.erasing ≠ some s.fw.chrysalis → s.bufRefusal h.path b 0 = none → ∀ i : BundleInfo,
      let info := bundleOf (s.bufIn h.path b) i.signatureOk
      info.headerOk = true → s.fw.keyOk info = true → info.signatureOk = true → s.fw.rollbackOk info = true →
      (info.componentsOk = true → ∃ t, exec (.stageFirmware h b i true) s = .next t ∧
        t.fw.slot s.fw.chrysalis = { state := .staged, bundle := some info } ∧
        t.ctl.alertPending.getLsbD alFw = true ∧ s.answered t h 0x0901 stOk true 0 (keyBytes info.digest)) ∧
      (∃ t, exec (.stageFirmware h b i false) s = .next t ∧ t.fw.erasing = some s.fw.chrysalis ∧ s.answered t h 0x0901 stBadArg false 0 [])) ∧
    (s.runs h 0x0902 → ∀ d, s.activationCheck d = none → s.fw.activation = .idle →
      (s.emergency = true → ∃ t, exec (.activateFirmware h d) s = .next t ∧ t.fw.activation = .deferred d ∧ t.fw.fwDeferred = true ∧
        s.answered t h 0x0902 stDeferred true 0 []) ∧
      (s.emergency = false → ∃ t, exec (.activateFirmware h d) s = .next t ∧ (t.fw.slot s.fw.chrysalis).state = .active ∧
        t.work.cache = [] ∧ t.fw.resetDelay = (s.fw.resetDelay || s.byReset) ∧ s.answered t h 0x0902 stOk true 0 [])) ∧
    (s.runs h 0x0903 → let bs := [s.activeBundle, s.stagedBundle, s.fw.recovery]
      ∃ t, exec (.getFirmware h) s = .next t ∧ s.answered t h 0x0903 stOk true 0
        (bs.flatMap (fun b => leBytes 8 (versionOf b)) ++ bs.flatMap fun b => leBytes 64 (digestOf b))) ∧
    (∀ x, s.ident.sessRing = some x → x.endTime.isSome = true → ∃ t, exec (.sessionLifetimeEnd .ring) s = .next t ∧ t.ident.sessRing = none ∧
      t.ident.sessI2c = s.ident.sessI2c) ∧
    (s.fw.secUp = true → s.fw.secRestart = false → s.dev ≠ .off → ∃ t, exec .counterBlockWrite s = .next t ∧ t.life.seq = s.life.seq + 1 ∧
      t.life.written = s.counterBlock (s.life.seq + 1))

/-- R139, R143, R144, R149 to R174, R297 to R302, R316, R325 to R327, R386 and R441. -/
def Obligations.WorkCommandsAct : Prop :=
  ∀ (h : CmdHdr) (b : BufRef) (s : State),
    (s.runs h 0x0201 → s.bufRefusal h.path b 0 = none →
      let v := s.work.verdict (s.bufIn h.path b) (BitVec.ofNat 512 (digestOf s.activeBundle))
      (∀ r, v.1 = some r → ∃ t, exec (.submitProgram h b) s = .next t ∧ t.work.programs = s.work.programs ∧
        s.answered t h 0x0201 stBadArg false 0 (leBytes 2 0xFFFF ++ leBytes 16 r.toNat)) ∧
      (∀ i, v.1 = none → (List.range 0xFFFF).find? (fun i => !(keys s.work.programs).contains i) = some i →
        ∃ t p, exec (.submitProgram h b) s = .next t ∧ look t.work.programs i = some p ∧ p.digest = imageDigest (s.bufIn h.path b) ∧
          s.answered t h 0x0201 stOk true 0 (leBytes 2 i ++ leBytes 16 0))) ∧
    (s.runs h 0x0202 → ∀ i p, look s.work.programs i = some p →
      (s.slotUsed i = true → ∃ t, exec (.removeProgram h i) s = .next t ∧ t.work = s.work ∧ s.answered t h 0x0202 stBusy false 0 []) ∧
      (s.slotUsed i = false → ∃ t, exec (.removeProgram h i) s = .next t ∧ t.work.programs = del s.work.programs i ∧
        s.answered t h 0x0202 stOk true 0 [])) ∧
    (s.runs h 0x0301 → ∀ (r : ModelRec) p, look s.work.programs r.slot = some p → modelRecOk r = true →
      (p.kernels.any fun k => k.code.any usesSeed) = false →
      ((look s.svc.models r.id).isSome = true → ∃ t, exec (.registerModel h r) s = .next t ∧ t.svc = s.svc ∧ s.answered t h 0x0301 stDenied false 0 []) ∧
      (look s.svc.models r.id = none → (r.cls = 0 → s.pinnedFits r.bytes = true) → ∃ t, exec (.registerModel h r) s = .next t ∧
        look t.svc.models r.id = some { rec_ := r, cls := r.cls, weight := r.weight, state := if r.cls = 3 then .ready else .loading } ∧
        s.answered t h 0x0301 stOk true 0 [])) ∧
    (∀ i m, look s.svc.models i = some m →
      (s.runs h 0x0302 → (s.svc.requests.any fun r => !r.ended && r.rec_.model == i) = true → ∃ t, exec (.removeModel h i) s = .next t ∧
        look t.svc.models i = some { m with state := .removing } ∧ s.answered t h 0x0302 stOk true 0 []) ∧
      (s.runs h 0x0303 → m.state = .ready → ∀ c w, c ≤ 3 → w ≤ 65535 → (c = 0 → m.cls ≠ 0 → s.pinnedFits m.rec_.bytes = true) →
        ∃ t, exec (.setResidency h i c w) s = .next t ∧ look t.svc.models i = some { m with
          cls := c, weight := w, lastMove := s.now, image := if c = 3 then [] else m.image
          state := if m.cls = 3 ∧ c ≠ 3 then .loading else .ready } ∧
          s.answered t h 0x0303 stOk true 0 []) ∧
      (s.runs h 0x0304 → ∀ r : AdapterRec, r.base = i → adapterRecOk r = true → look s.svc.adapters r.id = none →
        ∀ im, s.allocImage r.bytes = some im →
        ∃ t, exec (.registerAdapter h r) s = .next t ∧ look t.svc.adapters r.id = some { rec_ := r, image := im } ∧ s.answered t h 0x0304 stOk true 0 []) ∧
      (s.runs h 0x0306 → m.state ≠ .removing → s.bufRefusal h.path b 0 = none → ∀ id, id ≤ 1023 →
        let toks := tokensOf (s.bufIn h.path b)
        ((s.svc.prefixes.any fun p => p.model == i && p.id == id) = true → ∃ t, exec (.prefix_ h 0 i id b) s = .next t ∧ t.svc = s.svc ∧
          s.answered t h 0x0306 stDenied false 0 []) ∧
        ((s.svc.prefixes.any fun p => p.model == i && p.id == id) = false → (∀ sl ∈ s.kvSlots i, ∀ pr, look s.work.programs sl = some pr → pr.tensors.all (·.cls != 2) = true) → (s.bufIn h.path b).length % 4 = 0 →
          toks.length ≤ m.rec_.maxContext → (∀ k ∈ toks, k < m.rec_.vocab) → ∃ t p, exec (.prefix_ h 0 i id b) s = .next t ∧
          p ∈ t.svc.prefixes ∧ p.model = i ∧ p.id = id ∧ p.tokens = toks ∧ p.plan = prefixPlan toks.length ∧ s.answered t h 0x0306 stOk true 0 []))) ∧
    (∀ a x, look s.svc.adapters a = some x → x.removing = false →
      (s.runs h 0x0305 → ∃ t, exec (.removeAdapter h a) s = .next t ∧ (∃ y, look t.svc.adapters a = some y ∧ y.rec_ = x.rec_ ∧ y.removing = true ∧
          (s.adapterNamed a = false → y.image = [] ∧ y.slices = [] ∧ y.staged = false)) ∧
        s.answered t h 0x0305 stOk true 0 []) ∧
      (s.runs h 0x0308 → (∀ job, x.rec_.trainable = true → jobOk job = true → look s.svc.fts a = none → s.bufRefusal h.path b 0 = none →
          ∃ t, exec (.finetune h 0 a job b) s = .next t ∧ look t.svc.fts a = some { job := job } ∧ s.answered t h 0x0308 stOk true 0 (leBytes 4 x.step)) ∧
        (∀ job j, look s.svc.fts a = some j → ∃ t, exec (.finetune h 1 a job b) s = .next t ∧ look t.svc.fts a = some { j with stopped := true } ∧
          s.answered t h 0x0308 stOk true 0 (leBytes 4 x.step)) ∧
        ∀ job, ∃ t, exec (.finetune h 3 a job b) s = .next t ∧ t.svc = s.svc ∧ s.answered t h 0x0308 stOk true 0 (leBytes 4 x.step))) ∧
    (s.runs h 0x0307 → s.bufRefusal h.path b 0 = none → ∀ i mode vocab merges, i ≠ 0 → i ≤ 15 → tokeniserOk mode vocab merges = true →
      ∃ t, exec (.registerTokeniser h i b mode vocab merges) s = .next t ∧
        look t.svc.tokenisers i = some { splitMode := mode, vocab := vocab, merges := merges } ∧ s.answered t h 0x0307 stOk true 0 []) ∧
    (s.runs h 0x0401 → ∀ i (id : Dword) p pfx n q, i ≤ 63 → p ≤ 3 → n ≤ 128 → 1 ≤ q → q ≤ 4096 → look s.svc.sets i = none →
      (s.svc.sets.any fun x => x.2.service == id && x.2.port == p) = false →
      s.inboxBytes + 32 * 2 ^ field (s.profNow 0x02000003) 0 1 ≤ 2 ^ 22 →
      ∃ t, exec (.serviceSet h 0 i id p pfx n q) s = .next t ∧
        look t.svc.sets i = some { service := id, port := p, pfx := pfx, pfxLen := n, qpMax := q } ∧ (t.channel inboxEp i).enable = true ∧
        (t.channel inboxEp i).words = [] ∧ s.answered t h 0x0401 stOk true 0 (leBytes 8 id.toNat)) ∧
    (s.runs h 0x0402 → ∀ i x, look s.svc.sets i = some x → ∃ t, exec (.getService h i) s = .next t ∧ s.answered t h 0x0402 stOk true 0
      (leBytes 4 (s.net.qps.filter fun q => q.2.kind == .service i && q.2.state == .rts).length ++
        leBytes 4 (s.svc.requests.filter fun r => !r.ended && (s.qpsOf i).contains r.qp).length)) ∧
    (s.runs h 0x0501 → ∀ d, ((s.admitStatus d ≠ stOk) → ∃ t, exec (.submitTask h d) s = .next t ∧ t.work = s.work ∧
        s.answered t h 0x0501 (s.admitStatus d) false 0 []) ∧
      ∀ u id, s.begun.admitTask d = (u, stOk, id) → ∃ t, exec (.submitTask h d) s = .next t ∧ t.work = u.work ∧ t.mem = u.mem ∧
        t.ctl = (u.respond h 0x0501 stOk true 0 (leBytes 8 id)).ctl) ∧
    (s.runs h 0x0502 → ∀ id t, s.task? id = some t → t.id = id →
      (t.state.final = true → ∃ u, exec (.cancelTask h id) s = .next u ∧ u.work = s.work ∧
        s.answered u h 0x0502 stOk false 0 (leBytes 1 t.state.code)) ∧
      (t.state.final = false → t.state ≠ .running → t.desc.epoch = 0 → (∃ t', (s.finishTask id .cancelled stOk).task? id = some t' ∧
          t'.state = .cancelled) ∧ ∃ u, exec (.cancelTask h id) s = .next u ∧ u.work = ((s.begun.finishTask id .cancelled stOk).settle).work)) ∧
    (s.runs h 0x0503 → ∀ id t, s.task? id = some t → (s.work.journal.any fun x => x.2 == id) = true → ∃ u, exec (.getTaskState h id) s = .next u ∧
      u.work = s.work ∧ s.answered u h 0x0503 stOk true 0 (t.journalBytes ++ leBytes 8 s.log.next)) ∧
    (s.runs h 0x0504 → (s.openEpoch false = none → ∃ t, exec (.openEpoch h) s = .next t ∧ s.answered t h 0x0504 stRetry false 0 []) ∧
      ∀ u e, s.begun.openEpoch false = some (u, e) → ∃ t, exec (.openEpoch h) s = .next t ∧ t.work = u.work ∧ look t.work.epochs e = some {} ∧
        s.answered t h 0x0504 stOk true 0 (leBytes 2 e)) ∧
    (∀ e x, s.hostEpoch e = some x →
      (s.runs h 0x0505 → ∀ entries, entries.length ≤ 18 →
        (x.commit.isSome = true → ∃ t, exec (.commit h e entries) s = .next t ∧ t.work = s.work ∧ s.answered t h 0x0505 stBusy false 0 []) ∧
        (x.commit = none → x.doomed = true → ∃ t, exec (.commit h e entries) s = .next t ∧ t.work = (s.begun.discardEpoch e stDenied).work) ∧
        (x.commit = none → x.doomed = false → ∃ t, exec (.commit h e entries) s = .next t ∧
          t.work = (let y := s.begun.commitAdmit e;
            (y.1.onWork fun w => { w with epochs := put w.epochs e { x with commit := some (entries, h), commitGens := y.2 } }).settle.work))) ∧
      (s.runs h 0x0506 → ∃ t, exec (.discard h e) s = .next t ∧ t.work = (s.begun.discardEpoch e stDenied).work)) ∧
    (s.runs h 0x0507 → ∀ (x : Handle) p, look s.work.programs x.slot = some p → (p.tensors.any fun y => y.id == x.tensor) = true → x.inst < 65536 →
      let r := s.work.entry x
      (r.state = .pending → ∃ t, exec (.setReady h x) s = .next t ∧ t.work = s.work ∧ s.answered t h 0x0507 stBusy false 0 []) ∧
      (r.state ≠ .pending → ∃ t, exec (.setReady h x) s = .next t ∧ t.work = ((s.begun.onWork fun w => w.setEntry { r with
        table := 4, outside := true, gen := r.gen + 1, gens := put r.gens (r.gen + 1) { state := .ready }, dataLost := false }).settle).work)) ∧
    (s.runs h 0x0508 → ∀ d, (s.collStatus d ≠ stOk → ∃ t, exec (.submitCollective h d) s = .next t ∧ t.work = s.work ∧
        s.answered t h 0x0508 (s.collStatus d) false 0 []) ∧
      ∀ u id, s.begun.admitColl d = (u, stOk, id) → ∃ t, exec (.submitCollective h d) s = .next t ∧ t.work = u.work ∧ t.mem = u.mem)

/-! ### Cold bring-up -/

/-- R30, R31, R35, R455 and R460 to R472. -/
def Obligations.BringUpReachesReady : Prop :=
  ∀ s : State,
    (∀ uf, (s.dev = .powering → ∃ t, exec (.poweringDone uf) s = .next t ∧ t.dev = .rom ∧ t.pwr.holdupUf = uf ∧
        t.pwr.holdupLow = decide (uf < 4700) ∧ (uf < 4700 → t.ctl.alertPending.getLsbD alPower = true)) ∧
      (s.dev ≠ .powering → exec (.poweringDone uf) s = .next s)) ∧
    (s.dev = .rom → s.fw.rstHeld = false → s.fw.secUp = false → s.fw.stopped = false → ∀ i : RomInput,
      let stops (code : Nat) : Prop := ∃ t, exec (.romEntry i) s = .next t ∧ t.fw.stopped = true ∧ t.fw.bootCode = max s.fw.bootCode code ∧
        t.fw.secUp = false ∧ t.dev = .rom ∧ t.alertN = false
      (s.fw.strapsLatched = false → strapsOk i.diePos i.guestDie = false → stops 0x10) ∧
      (s.fw.strapsLatched = false → strapsOk i.diePos i.guestDie = true →
        (i.hubOk = false → stops 0x14) ∧
        (i.hubOk = true → i.flashOk = false → stops 0x11) ∧
        (i.hubOk = true → i.flashOk = true →
          (s.fw.kh1 = none → s.fw.kh0Revoked = true → stops 0x12) ∧
          (s.fw.kh1.isSome = true →
            (∀ a l, i.recovLow = false → s.fw.candidates = a :: l → s.slotPasses i a = true → ∃ t, exec (.romEntry i) s = .next t ∧
              t.fw.image = (if a then .slotA else .slotB) ∧ t.fw.secUp = true ∧ t.fw.diePos = i.diePos ∧ t.fw.guestDie = i.guestDie ∧ t.fw.guestPop = i.guestPop ∧
              t.pwr.guestOn = i.guestPop ∧ t.dev = .rom) ∧
            (∀ a l, i.recovLow = false → s.fw.candidates = a :: l → s.slotPasses i a = false → ∃ t, exec (.romEntry i) s = .next t ∧
              (t.fw.slot a).state = .failed) ∧
            (∀ b, s.fw.recovery = some b → i.recoveryPass = true → s.fw.keyOk b = true → Image.recovery ∉ s.fw.excluded →
              (i.recovLow = true ∨ s.fw.candidates = []) → ∃ t, exec (.romEntry i) s = .next t ∧ t.fw.image = .recovery ∧
              t.fw.secUp = true ∧ (if i.recovLow then 3 else 4) ≤ t.fw.bootCode) ∧
            (i.recoveryPass = false → (i.recovLow = true ∨ s.fw.candidates = []) → stops 0x13))))) ∧
    (s.dev = .rom → s.fw.secUp = true → s.fw.stopped = false → s.fw.powUp = false →
      (∃ t, exec (.bundleHash true) s = .next t ∧ t.dev = .training ∧ t.fw.powUp = true ∧ t.fw.schUp = true ∧
        (∀ cd, cd < 512 → s.fenced cd = false → 3 < (s.cluster cd).working → (t.cluster cd).dom = .waitBudget) ∧
        (s.fw.powRestart = false → ∀ cd, cd < 512 → (s.cluster cd).working ≤ 3 → t.fenced cd = true) ∧
        ∀ l, l < 8 → (s.linkSt l).enable = true → (s.linkSt l).state = .down → (t.linkSt l).state = .detect) ∧
      ∃ t, exec (.bundleHash false) s = .next t ∧ t.dev = .rom ∧ t.fw.secUp = false ∧ s.fw.image ∈ t.fw.excluded ∧
        (s.fw.image = .slotA → t.fw.slotA.state = .failed) ∧ (s.fw.image = .slotB → t.fw.slotB.state = .failed)) ∧
    (s.pwr.guestOn = true → ∃ t, exec .guestAbsent s = .next t ∧ t.pwr = { s.pwr with guestOn := false, guestFenced := true }) ∧
    (s.dev = .training → ∀ fp fc, ((∀ cd, cd < 512 → s.fenced cd = true ∨ (s.cluster cd).dom = .on) →
        ∃ t, exec (.trainingDone fp fc) s = .next t ∧ t.dev = .filling ∧ (∀ c ∈ fc, t.fenced (cdOf c) = true) ∧
          (∀ m ∈ fp, m < 12 → (t.outer m).failed = true) ∧ ∀ m, m < 12 → (t.outer m).trained = !(t.outer m).failed) ∧
      (∀ cd, cd < 512 → s.fenced cd = false → (s.cluster cd).dom ≠ .on → exec (.trainingDone fp []) s = .next s)) ∧
    (s.dev = .filling → (s.fw.slicesFilled = true → (∀ m, m < 12 → (s.outer m).failed = true ∨ (s.outer m).fillDone = true) →
        ∃ t, exec .fillDone s = .next t ∧ t.dev = .selftest ∧ t.mem = s.mem) ∧
      (s.fw.slicesFilled = false → exec .fillDone s = .next s)) ∧
    (s.dev = .selftest → s.fw.checkerDone = true → s.fw.selftestDone = false → ∀ bad n, ∃ t, exec (.coreSelftest bad n) s = .next t ∧
      t.dev = .selftest ∧ t.fw.selftestDone = true ∧ t.life.repairedRows = n ∧ (∀ cd ∈ bad, cd < 512 → t.fenced cd = true) ∧
      (t.enabledClusters = 0 → t.fw.stopped = true ∧ 0x15 ≤ t.fw.bootCode)) ∧
    (∀ n, (s.dev = .selftest ∧ s.fw.selftestDone = true ∨ s.fw.resetStep = 4) → s.fw.stopped = false → 0 < n → n ≤ 512 →
      ∃ t, exec (.broadcastStart n) s = .next t ∧ t.fw = { s.fw with chunks := n, chunkNext := 0, broadcasting := true } ∧
        ∀ cd ∈ s.loading, t.cluster cd = { s.cluster cd with fwBitmap := [], fwRounds := 0, fwRunning := false }) ∧
    (s.fw.broadcasting = true → s.loading.Nodup →
      (∀ die chunk missed, chunk < s.fw.chunks → ∃ t, exec (.chunkWrite die chunk missed) s = .next t ∧
        t.fw = { s.fw with chunkNext := max s.fw.chunkNext (chunk + 1) } ∧
        (∀ cd ∈ s.loading, dieOf cd = die → cd ∉ missed → (s.cluster cd).fwRunning = false →
          (t.cluster cd).fwBitmap = insertSet (s.cluster cd).fwBitmap chunk ∧
          (t.cluster cd).fwRunning = decide ((insertSet (s.cluster cd).fwBitmap chunk).length = s.fw.chunks)) ∧
        ∀ cd, (dieOf cd ≠ die ∨ cd ∈ missed) → t.cluster cd = s.cluster cd) ∧
      (s.fw.chunks ≤ s.fw.chunkNext → ∀ cd ∈ s.loading, (s.cluster cd).fwRunning = false →
        (∃ t, exec (.repairRequest cd true) s = .next t ∧
          t.cluster cd = { s.cluster cd with fwBitmap := List.range s.fw.chunks, fwRunning := true }) ∧
        ((s.cluster cd).fwRounds < 2 →
          (∃ t, exec (.repairRequest cd false) s = .next t ∧
            t.cluster cd = { s.cluster cd with fwBitmap := [], fwRounds := (s.cluster cd).fwRounds + 1 }) ∧
          ∃ t, exec (.repairRoundTimeout cd) s = .next t ∧
            t.cluster cd = { s.cluster cd with fwRounds := (s.cluster cd).fwRounds + 1 }) ∧
        (2 ≤ (s.cluster cd).fwRounds → ∃ t, exec (.repairRoundTimeout cd) s = .next t ∧ t.fenced cd = true ∧
          (s.dev = .selftest → 0x06 ≤ t.fw.bootCode)))) ∧
    (s.fw.broadcasting = true → s.fw.secUp = true → s.fw.powUp = true → s.fw.secRestart = false → s.fw.powRestart = false →
      s.fw.stopped = false →
      (∀ cd ∈ s.loading, (s.cluster cd).fwRunning = false → exec .eclosion s = .next s) ∧
      ((∀ cd ∈ s.loading, (s.cluster cd).fwRunning = true) →
        (s.dev = .selftest → s.fw.selftestDone = true → 0 < s.enabledClusters → ∃ t, exec .eclosion s = .next t ∧ t.dev = .ready ∧
          t.fw.resetSwitch = false ∧ t.fw.broadcasting = false ∧ (∀ c, cdOf c ∈ s.loading → t.core c = {}) ∧
          ∀ cd ∈ s.loading, (t.cluster cd).inReset = false ∧ (t.cluster cd).delivered = 0) ∧
        (s.dev = .selftest → s.fw.selftestDone = true → s.enabledClusters = 0 → ∃ t, exec .eclosion s = .next t ∧
          t.dev = .selftest ∧ t.fw.stopped = true ∧ 0x15 ≤ t.fw.bootCode) ∧
        (s.dev ≠ .selftest → s.fw.resetStep = 4 → ∃ t, exec .eclosion s = .next t ∧ t.dev = (if s.fw.resetAll then .ready else s.dev) ∧
          t.fw.resetStep = 0 ∧ t.fw.resetCmd = none ∧ (∀ cd ∈ s.loading, (t.cluster cd).inReset = false) ∧
          ∀ h c, s.fw.resetCmd = some h → s.ctl.inProgress = [c] → c.hdr = h → c.op = 0x0102 → c.discard = false →
            s.answered t h 0x0102 stOk true 0 (cdBitmap s.loading)))) ∧
    ∀ i r, look s.fw.lastGasp i = some r → s.fw.secUp = true → i ∉ s.fw.lastGaspCopied → ∃ t, exec (.lastGaspCopy i) s = .next t ∧
      t.life.sags = (r :: s.life.sags).take 192 ∧
      ((∀ j ∈ keys s.fw.lastGasp, j / 4 = i / 4 → j = i ∨ j ∈ s.fw.lastGaspCopied) → ∀ j, j / 4 = i / 4 → look t.fw.lastGasp j = none) ∧
      (∀ j ∈ keys s.fw.lastGasp, j / 4 = i / 4 → j ≠ i → j ∉ s.fw.lastGaspCopied → t.fw.lastGasp = s.fw.lastGasp ∧
        exec (.lastGaspCopy i) t = .next t)

/-! ### Restarts, compute resets, activation and records -/

/-- R439, R450, R479 to R482 and R507. -/
def Obligations.ProcessorsRestart : Prop :=
  ∀ s : State,
    let runs (p : Proc) : Bool := match p with
      | .security => s.fw.secUp && !s.fw.secRestart
      | .power => s.fw.powUp && !s.fw.powRestart
      | .scheduler => s.fw.schUp && !s.fw.schRestart
      | .cluster _ => false
    let times (p : Proc) : List Nat := match p with
      | .security => s.fw.secTimes
      | .power => s.fw.powTimes
      | _ => s.fw.schTimes
    let restarts (t : State) (p : Proc) : Bool := match p with
      | .security => t.fw.secRestart
      | .power => t.fw.powRestart
      | _ => t.fw.schRestart
    (∀ p, exec (.reportedFault p) s = exec (.watchdogExpiry p) s) ∧
    (∀ p ∈ [Proc.security, .power, .scheduler],
      (runs p = false → exec (.reportedFault p) s = .next s ∧ exec (.watchdogExpiry p) s = .next s) ∧
      (runs p = true → s.dev.up = true → (recent (times p) s.now window600).length < 3 →
        ∃ t, exec (.watchdogExpiry p) s = .next t ∧ exec (.reportedFault p) s = .next t ∧ restarts t p = true ∧ t.dev = s.dev ∧
          t.mem = s.mem ∧ t.ctl.inProgress = s.ctl.inProgress ∧ (p = .power → t.tuned)) ∧
      (runs p = true → s.dev.up = true → 3 ≤ (recent (times p) s.now window600).length →
        ∃ t, exec (.watchdogExpiry p) s = .next t ∧ t.dev = .rom ∧ t.mem = {} ∧ t.fw.secUp = false) ∧
      (runs p = true → s.dev.up = false → s.dev ≠ .off → s.dev ≠ .saving → s.dev ≠ .tripped →
        ∃ t, exec (.watchdogExpiry p) s = .next t ∧ t.dev = .rom ∧ t.mem = {} ∧ t.fw.secUp = false ∧
          t.fw.preReadyResets = (if 2 ≤ s.fw.preReadyResets then 0 else s.fw.preReadyResets + 1))) ∧
    (∀ cd, let k := s.cluster cd
      (k.fwRunning = false → exec (.watchdogExpiry (.cluster cd)) s = .next s) ∧
      (k.fenced = false → k.restarting = false → k.fwRunning = true →
        ((recent k.restarts s.now window600).length < 3 → ∃ t, exec (.watchdogExpiry (.cluster cd)) s = .next t ∧
          (t.cluster cd).restarting = true ∧ (t.cluster cd).inReset = true ∧ (t.cluster cd).fwRunning = false ∧ (t.cluster cd).wave = none ∧
          ∀ c, cdOf c = cd → t.core c = {}) ∧
        (3 ≤ (recent k.restarts s.now window600).length → ∃ t, exec (.watchdogExpiry (.cluster cd)) s = .next t ∧ t.fenced cd = true)) ∧
      (k.restarting = true → k.fenced = false → s.fw.schRestart = false → ∃ t, exec (.procRestartDone (.cluster cd)) s = .next t ∧
        t.cluster cd = { k with fwRunning := true, inReset := false, delivered := 0, restarting := false })) ∧
    exec (.procRestartDone .security) s = .next (s.onFw fun f => { f with secRestart := false }) ∧
    (s.fw.secRestart = true → exec (.procRestartDone .power) s = .next s ∧ exec (.procRestartDone .scheduler) s = .next s) ∧
    (s.fw.secRestart = false → s.fw.powRestart = true → ∃ t, exec (.procRestartDone .power) s = .next t ∧ t.fw.powRestart = false ∧ t.tuned ∧
      ∀ cd k, look s.clusters cd = some k → cd < 512 → k.working ≤ 3 → t.fenced cd = true) ∧
    (s.fw.secRestart = false → s.fw.schRestart = true →
      ∃ t, exec (.procRestartDone .scheduler) s = .next t ∧ t.fw.schRestart = false ∧ t.work.heldJournal = [] ∧ t.ctl.recorded = [] ∧
        (s.work.heldJournal = [] → t.mem = s.mem ∧ t.work = s.work) ∧
        ∀ c, s.ctl.inProgress = [c] → c.started = false → c.discard = false → s.answered t c.hdr c.op stRetry false 0 [])

/-- R459, R473 to R478, R481, R483 to R485, R554, R555 and R560. -/
def Obligations.ResetsActivationAndRecords : Prop :=
  ∀ s : State,
    (∀ ev, (ev % 65536 = Ev.code .hubArrayUe ∨ ev % 65536 = Ev.code .readyTableUe ∨ ev % 65536 = Ev.code .silkLinkFail) →
      (s.dev = .ready ∨ s.dev = .computeReset) →
      ((recent s.fw.devErrTimes s.now window600).length < 3 → ∃ t, exec (.deviceErrorReset ev) s = .next t ∧ t.dev = .computeReset ∧
        t.fw.resetStep = 1 ∧ t.fw.resetAll = true ∧ t.fw.resetting = (List.range 512).filter (fun cd => !s.fenced cd) ∧ t.mem = s.mem ∧
        t.fw.lostTable = (if ev % 65536 = Ev.code .hubArrayUe then some 4
          else if ev % 65536 = Ev.code .readyTableUe then some (ev / 65536 % 4) else s.fw.lostTable)) ∧
      (3 ≤ (recent s.fw.devErrTimes s.now window600).length → ∃ t, exec (.deviceErrorReset ev) s = .next t ∧ t.dev = .rom ∧ t.mem = {})) ∧
    (s.fw.resetStep = 1 → s.fw.resetAll = false → ∃ t, exec .wavesStopped s = .next t ∧ t.fw.resetStep = 3 ∧
      ∀ cd ∈ s.fw.resetting, (t.cluster cd).inReset = true ∧ (t.cluster cd).wave = none ∧ (t.cluster cd).fwRunning = false ∧
        ∀ c, cdOf c = cd → t.core c = {}) ∧
    (s.fw.resetStep = 3 → ∀ bad,
      ((∀ cd ∈ s.fw.resetting, s.heat.stacksStopped.getLsbD (dieOf cd) = false) → ∃ t, exec (.resetSelftestDone bad) s = .next t ∧
        t.fw.resetStep = 4 ∧ (∀ cd ∈ bad, cd ∈ s.fw.resetting → t.fenced cd = true) ∧
        t.fw.resetting = s.fw.resetting.filter fun cd => !(bad.contains cd)) ∧
      (∀ cd ∈ s.fw.resetting, s.heat.stacksStopped.getLsbD (dieOf cd) = true → exec (.resetSelftestDone bad) s = .next s)) ∧
    ((s.fw.resetDelay = true → s.dev ≠ .off → s.dev ≠ .saving → s.dev ≠ .tripped → ∃ t, exec .resetDelayExpiry s = .next t ∧
        t.dev = .rom ∧ t.mem = {} ∧ t.now = s.now ∧ t.fw.resetDelay = false) ∧
      (s.fw.resetDelay = false → exec .resetDelayExpiry s = .next s)) ∧
    (∀ left, s.fw.activation = .switching left →
      (s.emergency = true → ∀ p, exec (.liveSwitchStep p) s = .next (s.onFw fun f => { f with activation := .paused left })) ∧
      (s.emergency = false →
        (∀ cd p, .cluster cd ∈ left → s.fenced cd = false → (∀ e, p ≠ .cluster e) → exec (.liveSwitchStep p) s = .next s) ∧
        (∀ p, p ≠ .power → s.mayReload left p = true → ∃ t, exec (.liveSwitchStep p) s = .next t ∧ t.clusters = s.clusters ∧
          look t.fw.switchedAt (procCode p) = some s.now ∧ ∃ rest, t.fw.activation = .switching rest ∧ p ∉ rest ∧ ∀ q ∈ rest, q ∈ left) ∧
        (s.mayReload left .power = true → ∃ t, exec (.liveSwitchStep .power) s = .next t ∧ t.fw.activation = .idle ∧
          t.fw.newBundle = true ∧ t.fw.fwDeferred = false ∧ t.fw.activatedAt = some s.now ∧ t.life.activations = satAdd 32 s.life.activations 1 ∧
          t.ctl.alertPending.getLsbD alFw = true ∧
          ∀ cd k, look s.clusters cd = some k → (t.cluster cd).clk = (if (Clk.div 4).slower k.clk then .div 4 else k.clk)))) ∧
    ((s.emergency = true → exec .emergencyClear s = .next s) ∧
      (s.emergency = false →
        (∀ left, s.fw.activation = .paused left → exec .emergencyClear s = .next (s.onFw fun f => { f with activation := .switching left })) ∧
        ∀ d, s.fw.activation = .deferred d → s.dev = .ready → s.fw.secRestart = false →
          (s.activationCheck d ≠ none → ∃ t, exec .emergencyClear s = .next t ∧ t.fw.activation = .idle ∧ t.fw.slotA = s.fw.slotA ∧
            t.fw.slotB = s.fw.slotB ∧ t.ctl.alertPending.getLsbD alFw = true) ∧
          (s.activationCheck d = none → ∃ t, exec .emergencyClear s = .next t ∧
            (t.fw.slot s.fw.chrysalis).state = .active ∧ t.work.cache = [] ∧
            (s.byReset = true → t.fw.activation = .idle ∧ t.fw.resetDelay = true) ∧
            (s.byReset = false → t.fw.image = (if s.fw.chrysalis then .slotA else .slotB) ∧ t.fw.activation =
              .switching ((((List.range 512).filter fun cd => !s.fenced cd).map .cluster) ++ [.scheduler, .security, .power]))))) ∧
    (((∃ p ∈ s.fw.switchedRestarts, 2 ≤ p.2) ∨ 8 < s.fw.switchFails →
        (s.fw.image = .slotA → ∃ t, exec .rollback s = .next t ∧ t.fw.slotA.state = .failed ∧ t.fw.image = .slotB ∧
          t.fw.activation = .idle ∧ t.fw.slotB = s.fw.slotB) ∧
        (s.fw.image = .slotB → ∃ t, exec .rollback s = .next t ∧ t.fw.slotB.state = .failed ∧ t.fw.image = .slotA ∧
          t.fw.activation = .idle ∧ t.fw.slotA = s.fw.slotA)) ∧
      ((∀ p ∈ s.fw.switchedRestarts, p.2 < 2) → s.fw.switchFails ≤ 8 → exec .rollback s = .next s)) ∧
    (∀ b, s.activeBundle = some b → s.dev = .ready →
      (s.fw.newBundle = true → ∃ t, exec .svnAdvance s = .next t ∧ t.fw.newBundle = false ∧
        t.fw.svn = (if b.advanceSvn then max s.fw.svn b.secVersion else s.fw.svn) ∧
        (t.fw.kh0Revoked = true ↔ s.fw.kh0Revoked = true ∨ b.revokeKey0 = true ∧ b.keyIndex = 1) ∧ exec .svnAdvance t = .next t) ∧
      (s.fw.newBundle = false → exec .svnAdvance s = .next s)) ∧
    ((∀ a, s.fw.erasing = some a → ∃ t, exec .stagingEraseDone s = .next t ∧ t.fw.slot a = {} ∧ t.fw.erasing = none ∧
        t.fw.slot (!a) = s.fw.slot (!a)) ∧
      (s.fw.erasing = none → exec .stagingEraseDone s = .next s)) ∧
    (∀ e u i, let f := s.log.open_.find? fun r => r.event == e && r.unitType == u && r.unitIndex == i
      (f = none → exec (.errorRecordWrite e u i) s = .next s) ∧
      ∀ r, f = some r → ∃ t, exec (.errorRecordWrite e u i) s = .next t ∧ r ∉ t.log.open_ ∧ t.log.next = s.log.next + 1 ∧
        look t.log.ring (s.log.next % 65536) = some { r with index := s.log.next } ∧
        ((∃ v ∈ [Ev.phaseFail, .sliceUe, .sliceStuck, .sliceAddr, .outerUe, .packageFailed, .ownershipChanged, .serviceReset], v.code = e) → s.log.next ∈ t.life.toCopy)) ∧
    ∀ n, (n ∉ s.life.toCopy → exec (.serviceLifeCopy n) s = .next s) ∧
      ∀ r, n ∈ s.life.toCopy → look s.log.ring (n % 65536) = some r → r.index = n → ∃ t, exec (.serviceLifeCopy n) s = .next t ∧
        n ∉ t.life.toCopy ∧ t.life.copies = (r :: s.life.copies).take 65536

/-! ### The control space and its mailbox rings -/

/-- R423, R424, R427 to R429, R431 to R434, R440, R260 and R225. -/
def Obligations.RingsAndRegistersAnswer : Prop :=
  ∀ s : State,
    (∀ q v, (s.mgmtQp q = false → exec (.cmdTailWrite q v) s = .next s ∧ exec (.rspHeadWrite q v) s = .next s) ∧
      (s.mgmtQp q = true →
        ((s.ctl.holder = none ∨ s.ctl.holder = some q) →
          (cnt16 v.toNat s.ctl.cmdHead ≤ 256 → exec (.cmdTailWrite q v) s = .next (s.onCtl fun k => { k with holder := some q, cmdTail := v.toNat })) ∧
          (256 < cnt16 v.toNat s.ctl.cmdHead → ∃ t, exec (.cmdTailWrite q v) s = .next t ∧ t.ctl.holder = some q ∧
            t.ctl.cmdTail = s.ctl.cmdTail ∧ t.ctl.alertPending.getLsbD alRing = true)) ∧
        (s.ctl.holder = some q → exec (.rspHeadWrite q v) s = .next (s.onCtl fun k => { k with rspHead := v.toNat })) ∧
        (∀ p, s.ctl.holder = some p → p ≠ q → exec (.cmdTailWrite q v) s = .next (s.onCtl fun k => { k with refused := satAdd 7 k.refused 1 }) ∧
          exec (.rspHeadWrite q v) s = .next (s.onCtl fun k => { k with refused := satAdd 7 k.refused 1 })))) ∧
    ((s.ctl.cmdHead = s.ctl.cmdTail ∨ 32 ≤ s.ctl.ringBusy ∨ s.ctl.stalled = true ∨ s.ctl.resetting = true) → exec .commandFetch s = .next s) ∧
    (s.ctl.cmdHead ≠ s.ctl.cmdTail → s.ctl.ringBusy < 32 → s.ctl.stalled = false → s.ctl.resetting = false → s.fw.schRestart = false →
      let e := s.mem.read (mailboxBase + 256 * (s.ctl.cmdHead % 256)) 256
      (cmdInfo (field e 0 2)).isSome = true → entryOk e = true → ∃ t, exec .commandFetch s = .next t ∧ t.mem = s.mem ∧
        t.ctl.cmdHead = (s.ctl.cmdHead + 1) % 65536 ∧ t.ctl.inProgress = s.ctl.inProgress ++
          [{ hdr := { path := .ring, seq := BitVec.ofNat 32 (field e 4 4) }, op := field e 0 2, wall := BitVec.ofNat 64 (field e 8 8), time := s.now,
             hostOwned := s.ownsNot .ring (field e 0 2) (e.drop 0x20) }]) ∧
    (s.dev ≠ .off → (s.ctl.i2cGo = true → exec .i2cGo s = .next s) ∧
      (s.ctl.i2cGo = false → s.fw.schRestart = false → (cmdInfo (field s.ctl.i2cCmd 0 2)).isSome = true → entryOk s.ctl.i2cCmd = true →
        ∃ t, exec .i2cGo s = .next t ∧ t.ctl.i2cGo = true ∧ t.mem = s.mem ∧ t.ctl.inProgress = s.ctl.inProgress ++
          [{ hdr := { path := .i2c, seq := BitVec.ofNat 32 (field s.ctl.i2cCmd 4 4) }, op := field s.ctl.i2cCmd 0 2,
             wall := BitVec.ofNat 64 (field s.ctl.i2cCmd 8 8), time := s.now,
             hostOwned := s.ownsNot .i2c (field s.ctl.i2cCmd 0 2) (s.ctl.i2cCmd.drop 0x20) }])) ∧
    ((s.ctl.completed.all fun r => r.hdr.path == .ring && !s.ctl.rspRoom) = true → exec .responseWrite s = .next s) ∧
    (∀ r rest, s.ctl.completed = r :: rest →
      (r.hdr.path = .ring → s.ctl.rspRoom = true → ∃ t, exec .responseWrite s = .next t ∧ t.ctl.completed = rest ∧
        t.mem = s.mem.write (rspRing + 256 * (s.ctl.rspTail % 256)) (r.bytes s.ctl.rspTail) ∧
        t.ctl.rspTail = (s.ctl.rspTail + 1) % 65536 ∧ t.ctl.alertPending.getLsbD alResponse = true) ∧
      (r.hdr.path = .i2c → ∃ t, exec .responseWrite s = .next t ∧ t.ctl.completed = rest ∧ t.mem = s.mem ∧ t.ctl.i2cRsp = r.bytes 0 ∧
        t.ctl.i2cGo = false ∧ t.ctl.i2cDone = true ∧ t.ctl.alertPending.getLsbD alResponse = true)) ∧
    (∀ d, s.i2cAnswers d = true → ∀ (a b : Byte) (l : List Byte),
      (l.length = 8 → (a.toNat * 256 + b.toNat) % 8 = 0 →
        exec (.i2cWriteTransaction ⟨d, a :: b :: l⟩) s = .next (s.dcsWrite true (a.toNat * 256 + b.toNat) (leNat l))) ∧
      (l.length < 8 → exec (.i2cWriteTransaction ⟨d, a :: b :: l⟩) s = .next s)) ∧
    (∀ d, s.i2cAnswers d = true → ∀ off : Half, off.toNat % 8 = 0 → ∃ t, exec (.i2cReadTransaction ⟨d, off⟩ 8) s = .next t ∧
      t = { s with sent := t.sent, ctl := { s.ctl with i2cLatch := t.ctl.i2cLatch } } ∧
      t.sent = s.sent ++ [.i2c (leBytes 8 (s.dcsReg off.toNat))]) ∧
    (∀ d, s.i2cAnswers d = false → ∀ l off n, exec (.i2cWriteTransaction ⟨d, l⟩) s = .next s ∧ exec (.i2cReadTransaction ⟨d, off⟩ n) s = .next s) ∧
    (s.dev = .off → exec .i2cGo s = .next s ∧ ∀ d, s.i2cAnswers d = false) ∧
    (s.dev ≠ .off → s.fw.profDevBoot = [] → ∀ d, (s.i2cAnswers d = true ↔ d = 0x5C#7)) ∧
    (∀ m, exec (.alertClear m) s = .next (s.onCtl fun k => if s.fw.schRestart then { k with recorded := k.recorded ++ [(false, m.toNat)] }
      else { k with alertPending := k.alertPending &&& ~~~m })) ∧
    (∀ v, exec (.alertMaskWrite v) s = .next (s.onCtl fun k => if s.fw.schRestart then { k with recorded := k.recorded ++ [(true, v.toNat)] }
      else { k with alertMask := v &&& 0x7FF })) ∧
    (∀ m v, (12 ≤ m → exec (.activeMaxWrite m v) s = .next s) ∧ (m < 12 → ∃ t, exec (.activeMaxWrite m v) s = .next t ∧
      (∀ j, j ≠ m → t.outer j = s.outer j) ∧
      ((s.outer m).activeSaved = none → t.outer m = { s.outer m with activeMax := activeMaxOf v } ∧ 8 ≤ (t.outer m).activeMax ∧
        (t.outer m).activeMax ≤ 24 ∧ (t.outer m).activeMax % 4 = 0) ∧
      ((s.outer m).activeSaved.isSome = true → (t.outer m).activeSaved = some (activeMaxOf v) ∧ (t.outer m).activeMax = 8))) ∧
    (∀ c off v, c < 32768 →
      exec (.registerWrite (.slice c) 0x20 v) s = .next (s.modSlice c fun k => { k with scrubEnable := v.getLsbD 4, scrubShift := (v &&& 0xF).toNat }) ∧
      (off ≠ 0x20 → exec (.registerWrite (.slice c) off v) s = .next s) ∧ exec (.registerWrite (.router c) off v) s = .next s ∧
      exec (.registerWrite .dcs 0x0118 v) s = exec (.alertMaskWrite v) s ∧ exec (.registerWrite .dcs 0x0110 v) s = exec (.alertClear v) s ∧
      exec (.registerWrite .dcs 0x0100 v) s = .next s) ∧
    (s.fwRuns = false → exec .telemetryRewrite s = .next s) ∧
    (s.fwRuns = true → ∃ t, exec .telemetryRewrite s = .next t ∧
      t = { s with free := t.free, ctl := { s.ctl with telGen := t.ctl.telGen, telTime := t.ctl.telTime, telemetry := t.ctl.telemetry } } ∧
      t.ctl.telGen = (s.ctl.telGen + 2) % 2 ^ 32 ∧ t.dcsReg 0x4000 = (s.ctl.telGen + 2) % 2 ^ 32 ∧ t.dcsReg 0x4008 = s.now % 2 ^ 64)

/-- R435: what setting Reset does, and how the reset ends. -/
def Obligations.RingResetDiscards : Prop :=
  ∀ (s : State) (byI2c : Bool) (q : Nat), (byI2c = true ∨ s.mgmtQp q = true ∧ s.ctl.holder = some q) →
    ∃ t, exec (.ringReset byI2c q) s = .next t ∧ t.mem = s.mem ∧ t.work = s.work ∧ t.ctl.cmdTail = s.ctl.cmdTail ∧
      t.ctl.cmdHead = s.ctl.cmdTail ∧
      t.ctl.inProgress = s.ctl.inProgress.map (fun c => if c.hdr.path = .ring then { c with discard := true } else c) ∧
      t.ctl.completed = s.ctl.completed.filter (fun r => r.hdr.path != .ring) ∧
      ((∃ c ∈ s.ctl.inProgress, c.hdr.path = .ring) → t.ctl.resetting = true ∧ t.ctl.rspHead = s.ctl.rspHead ∧ t.ctl.rspTail = s.ctl.rspTail ∧
        (byI2c = false → t.ctl.holder = some q) ∧
        ∀ c st eff d res, t.ctl.inProgress = [c] → let u := t.respond c.hdr c.op st eff d res
          u.ctl.completed = t.ctl.completed ∧ u.ctl.inProgress = [] ∧ u.ctl.cmdHead = t.ctl.cmdHead ∧ u.ctl.rspHead = t.ctl.cmdHead ∧
            u.ctl.rspTail = t.ctl.cmdHead ∧ u.ctl.holder = none ∧ u.ctl.resetting = false) ∧
      ((∀ c ∈ s.ctl.inProgress, c.hdr.path ≠ .ring) → t.ctl.resetting = false ∧ t.ctl.rspHead = s.ctl.cmdTail ∧
        t.ctl.rspTail = s.ctl.cmdTail ∧ t.ctl.holder = none)

/-- R374. -/
def Obligations.LysIdIsWrittenWhenIdle : Prop :=
  Ev.cls .lysIdBusy = 0 ∧
  ∀ s : State,
    let idle : Prop := ∀ l, l < 8 → (s.linkSt l).state = .disabled ∨ (s.linkSt l).state = .down ∨ (s.linkSt l).state = .mismatch
    let prof := s.deviceReset.profBoot 0x82000001
    (s.deviceReset.dev = .rom ∧ s.deviceReset.lys.systemId = BitVec.ofNat 32 (field prof 0 4) ∧
      s.deviceReset.lys.deviceId = field prof 4 2 % 0x8000 ∧ s.deviceReset.lys.torus = (field prof 6 1 == 1)) ∧
    (idle → (∀ v : Dword, exec (.lysIdWrite v) s = .next { s with lys := { s.lys with
        systemId := v.extractLsb' 16 32, torus := v.getLsbD 15, deviceId := (v &&& 0x7FFF).toNat } }) ∧
      ∀ h sys d torus, s.runs h 0x0C02 → d < 32768 → ∃ t, exec (.setLysId h sys d torus) s = .next t ∧
        t.lys = { s.lys with systemId := sys, torus := torus, deviceId := d }) ∧
    (¬ idle → (∀ v : Dword, exec (.lysIdWrite v) s = .next (s.logEvent .lysIdBusy {})) ∧
      ∀ h sys d torus, s.runs h 0x0C02 → d < 32768 → ∃ t, exec (.setLysId h sys d torus) s = .next t ∧ t.lys = s.lys ∧
        (t.log.open_.map (·.event)) = ((s.logEvent .lysIdBusy {}).log.open_.map (·.event)))

/-- R9, with the core's cluster read from the fields of R8. -/
def Obligations.ClusterDomainsAreNumbered : Prop :=
  ∀ (d x y k : Nat), d < 4 → x < 16 → y < 8 → k < 64 →
    cdOf (d * 2 ^ 13 + y * 2 ^ 10 + x * 2 ^ 6 + k) = 128 * d + 16 * y + x ∧ dieOf (128 * d + 16 * y + x) = d
end

