-- ==== Sys2Proof/Laws/Attention.lean ====
section
/-!
SUPPORT. What a row of the attention definitions depends on (R280): two stores of keys that agree on the keys visible to the
row give it the same scores, state and output.
-/

namespace Sys2Proof.Machine

theorem Apr.score_visible {a : Apr} {mask : Nat → Nat} {ks ks' : List KvRow} {q : List Val} {p j : Nat}
    (h : a.visible mask p j = true → ks[j]? = ks'[j]?) : a.score mask ks q p j = a.score mask ks' q p j := by
  unfold Apr.score
  cases hv : a.visible mask p j
  · cases ks[j]? <;> cases ks'[j]? <;> simp
  · rw [h hv]

theorem Apr.segment_visible {a : Apr} {mask : Nat → Nat} {ks ks' : List KvRow} {p : Nat}
    (h : ∀ j, a.visible mask p j = true → ks[j]? = ks'[j]?) (q : List Val) (g : Nat) :
    a.segment mask ks q p g = a.segment mask ks' q p g := by
  have hs : a.score mask ks q p = a.score mask ks' q p := funext fun j => a.score_visible (h j)
  have hv : (fun j => if a.visible mask p j = true then vHat ks j else []) =
      fun j => if a.visible mask p j = true then vHat ks' j else [] := by
    funext j
    split
    · next hj => simp only [vHat, h j hj]
    · rfl
  simp only [Apr.segment, hs, hv]

/-- The state of a row depends on the stored rows visible to it alone (R280). -/
theorem Apr.rowState_visible {a : Apr} {mask : Nat → Nat} {ks ks' : List KvRow} {p : Nat}
    (h : ∀ j, a.visible mask p j = true → ks[j]? = ks'[j]?) (q : List Val) : a.rowState mask ks q p = a.rowState mask ks' q p := by
  have hs : a.segment mask ks q p = a.segment mask ks' q p := funext fun g => a.segment_visible h q g
  simp only [Apr.rowState, hs]

end Sys2Proof.Machine
end

