-- ==== Sys2Proof/Laws/Mem.lean ====
section
/-!
SUPPORT. Laws of tables and of memory: read after write, reads elsewhere, and that every operation on memory keeps the
canonical form.
-/

namespace Sys2Proof.Machine

/-! ### Tables -/

theorem look_put_same {α : Type} (t : Tab α) (i : Nat) (v : α) : look (put t i v) i = some v := by
  induction t with
  | nil => simp [put, look]
  | cons p t ih =>
    obtain ⟨k, w⟩ := p
    simp only [put]
    split
    · simp [look]
    · split
      · simp [look]
      · simp [look, *]

theorem look_put_ne {α : Type} (t : Tab α) {i j : Nat} (v : α) (h : j ≠ i) : look (put t i v) j = look t j := by
  induction t with
  | nil => simp [put, look, h]
  | cons p t ih =>
    obtain ⟨k, w⟩ := p
    simp only [put]
    split
    · simp [look, h]
    · split
      · rename_i h2; simp [look, ← h2, h]
      · simp [look, ih]

@[simp] theorem lookD_put_same {α : Type} (t : Tab α) (i : Nat) (v d : α) : lookD (put t i v) i d = v := by
  simp [lookD, look_put_same]

theorem lookD_put_ne {α : Type} (t : Tab α) {i j : Nat} (v d : α) (h : j ≠ i) : lookD (put t i v) j d = lookD t j d := by
  simp [lookD, look_put_ne _ _ h]

theorem look_del_ne {α : Type} (t : Tab α) {i j : Nat} (h : j ≠ i) : look (del t i) j = look t j := by
  induction t with
  | nil => rfl
  | cons p t ih =>
    obtain ⟨k, w⟩ := p
    simp only [del]
    split
    · rename_i h2; simp [look, ← h2, h]
    · simp [look, ih]

/-! ### The canonical form -/

/-- Every listed address is above a bound. -/
def above (k : Nat) (l : List Host.Cell) : Prop := ∀ p ∈ l, k < p.1

theorem cellsWf_cons {p : Host.Cell} {t : List Host.Cell} :
    cellsWf (p :: t) = true ↔ p.2 ≠ 0 ∧ above p.1 t ∧ cellsWf t = true := by
  induction t generalizing p with
  | nil => simp [cellsWf, above]
  | cons q t ih =>
    simp only [cellsWf, Bool.and_eq_true, bne_iff_ne, ne_eq, decide_eq_true_eq, ih, above, List.mem_cons, forall_eq_or_imp]
    constructor
    · rintro ⟨⟨h1, h2⟩, h3, h4, h5⟩
      exact ⟨h1, ⟨h2, fun x hx => Nat.lt_trans h2 (h4 x hx)⟩, h3, h4, h5⟩
    · rintro ⟨h1, ⟨h2, _⟩, h3, h4, h5⟩
      exact ⟨⟨h1, h2⟩, h3, h4, h5⟩

theorem above_put {k i : Nat} {v : Byte} {l : List Host.Cell} (h : above k l) (hi : k < i) : above k (put l i v) := by
  induction l with
  | nil => intro p hp; simp [put] at hp; simpa [hp] using hi
  | cons q t ih =>
    obtain ⟨j, w⟩ := q
    have ht : above k t := fun p hp => h p (List.mem_cons_of_mem _ hp)
    have hj : k < j := h (j, w) (List.mem_cons_self ..)
    simp only [put]
    split
    · intro p hp
      simp only [List.mem_cons] at hp
      rcases hp with rfl | rfl | hp
      · exact hi
      · exact hj
      · exact ht p hp
    · split
      · intro p hp
        simp only [List.mem_cons] at hp
        rcases hp with rfl | hp
        · exact hi
        · exact ht p hp
      · intro p hp
        simp only [List.mem_cons] at hp
        rcases hp with rfl | hp
        · exact hj
        · exact ih ht p hp

theorem above_del {k i : Nat} {l : List Host.Cell} (h : above k l) : above k (del l i) := by
  induction l with
  | nil => exact h
  | cons q t ih =>
    obtain ⟨j, w⟩ := q
    have ht : above k t := fun p hp => h p (List.mem_cons_of_mem _ hp)
    simp only [del]
    split
    · exact ht
    · intro p hp
      simp only [List.mem_cons] at hp
      rcases hp with rfl | hp
      · exact h _ (List.mem_cons_self ..)
      · exact ih ht p hp

theorem cellsWf_put {l : List Host.Cell} {i : Nat} {v : Byte} (h : cellsWf l = true) (hv : v ≠ 0) : cellsWf (put l i v) = true := by
  induction l with
  | nil => simpa [put, cellsWf] using hv
  | cons q t ih =>
    obtain ⟨j, w⟩ := q
    have ⟨h1, h2, h3⟩ := cellsWf_cons.1 h
    simp only [put]
    split
    · rename_i hij
      refine cellsWf_cons.2 ⟨hv, ?_, h⟩
      intro p hp
      simp only [List.mem_cons] at hp
      rcases hp with rfl | hp
      · exact hij
      · exact Nat.lt_trans hij (h2 p hp)
    · split
      · rename_i _ hij
        subst hij
        exact cellsWf_cons.2 ⟨hv, h2, h3⟩
      · rename_i hij1 hij2
        exact cellsWf_cons.2 ⟨h1, above_put h2 (by show j < i; omega), ih h3⟩

theorem cellsWf_del {l : List Host.Cell} {i : Nat} (h : cellsWf l = true) : cellsWf (del l i) = true := by
  induction l with
  | nil => rfl
  | cons q t ih =>
    obtain ⟨j, w⟩ := q
    have ⟨h1, h2, h3⟩ := cellsWf_cons.1 h
    simp only [del]
    split
    · exact h3
    · exact cellsWf_cons.2 ⟨h1, above_del h2, ih h3⟩

theorem cellsWf_filter {l : List Host.Cell} (f : Host.Cell → Bool) (h : cellsWf l = true) : cellsWf (l.filter f) = true := by
  induction l with
  | nil => rfl
  | cons q t ih =>
    have ⟨h1, h2, h3⟩ := cellsWf_cons.1 h
    simp only [List.filter_cons]
    split
    · exact cellsWf_cons.2 ⟨h1, fun p hp => h2 p (List.mem_filter.1 hp).1, ih h3⟩
    · exact ih h3

/-! ### Every operation keeps it -/

theorem Mem.setByte_wf {m : Mem} (h : m.wf = true) (a : Nat) (b : Byte) : (m.setByte a b).wf = true := by
  simp only [Mem.wf, Mem.setByte, putD]
  split
  · exact cellsWf_del h
  · exact cellsWf_put h (by assumption)

theorem Mem.write_wf {m : Mem} (h : m.wf = true) (a : Nat) (bs : List Byte) : (m.write a bs).wf = true := by
  induction bs generalizing m a with
  | nil => exact h
  | cons b t ih => exact ih (Mem.setByte_wf h a b) (a + 1)

theorem Mem.setMark_wf {m : Mem} (h : m.wf = true) (u : Nat) (on : Bool) : (m.setMark u on).wf = true := h

theorem Mem.setMarks_wf {m : Mem} (h : m.wf = true) (a len : Nat) (on : Bool) : (m.setMarks a len on).wf = true := by
  simp only [Mem.setMarks]
  generalize unitsOf a len = l
  induction l generalizing m with
  | nil => exact h
  | cons u t ih => exact ih (Mem.setMark_wf h u on)

theorem Mem.bumpInstar_wf {m : Mem} (h : m.wf = true) (a : Nat) : (m.bumpInstar a).wf = true := h
theorem Mem.dieFix_wf {m : Mem} (h : m.wf = true) (u : Nat) : (m.dieFix u).wf = true := h
theorem Mem.clearFlips_wf {m : Mem} (h : m.wf = true) (u : Nat) : (m.clearFlips u).wf = true := h

theorem Mem.clear_wf {m : Mem} (h : m.wf = true) (lo hi : Nat) : (m.clear lo hi).wf = true := cellsWf_filter _ h

theorem Mem.setBytes_wf {m : Mem} (h : m.wf = true) (l : List Host.Cell) (g : Nat → Nat) :
    (l.foldl (fun m p => m.setByte (g p.1) p.2) m).wf = true := by
  induction l generalizing m with
  | nil => exact h
  | cons p t ih => exact ih (Mem.setByte_wf h _ _)

theorem Mem.marks_wf {m : Mem} (h : m.wf = true) (l : List Nat) (g : Nat → Nat) (k : Nat) :
    (l.foldl (fun m u => m.setMarks (g u) k true) m).wf = true := by
  induction l generalizing m with
  | nil => exact h
  | cons p t ih => exact ih (Mem.setMarks_wf h _ _ _)

theorem Mem.copy_wf {m : Mem} (h : m.wf = true) (src dst n : Nat) : (m.copy src dst n).wf = true :=
  Mem.marks_wf (Mem.setBytes_wf (Mem.clear_wf h _ _) _ fun a => a - src + dst) _ (fun u => u - src + dst) _

theorem Mem.raiseInstars_wf {m : Mem} (h : m.wf = true) (a n k : Nat) : (m.raiseInstars a n k).wf = true := by
  simp only [Mem.raiseInstars]
  split
  · exact h
  · generalize List.range _ = l
    induction l generalizing m with
    | nil => exact h
    | cons p t ih => exact ih (m := _) h

theorem Mem.copyTo_wf {m : Mem} (h : m.wf = true) (src dst n more : Nat) : (m.copyTo src dst n more).wf = true :=
  Mem.raiseInstars_wf (Mem.copy_wf h src dst n) dst n more

theorem Mem.storeRows_wf {m : Mem} (h : m.wf = true) (a fuel : Nat) (bs : List Byte) (ps : List Bool) :
    (m.storeRows a fuel bs ps).wf = true := by
  induction fuel generalizing m a bs ps with
  | zero => exact h
  | succ n ih =>
    simp only [Mem.storeRows]
    split
    · exact h
    · exact ih (Mem.setMark_wf (Mem.write_wf h _ _) _ _) _ _ _

theorem writeOwned_wf {m : Mem} (h : m.wf = true) (own : Nat → Bool) (a : Nat) (bs : List Byte) :
    (writeOwned own m a bs).wf = true := by
  induction bs generalizing m a with
  | nil => exact h
  | cons b t ih =>
    simp only [writeOwned]
    split
    · exact ih h _
    · exact ih (Mem.setByte_wf h _ _) _

/-! ### Reads -/

theorem look_none_of_above {l : List Host.Cell} {a : Nat} (h : above a l) : look l a = none := by
  induction l with
  | nil => rfl
  | cons p t ih =>
    obtain ⟨k, w⟩ := p
    have h1 : a < k := h (k, w) (List.mem_cons_self ..)
    have h2 : a ≠ k := by omega
    simp only [look, h2, if_false]
    exact ih fun q hq => h q (List.mem_cons_of_mem _ hq)

theorem look_del_same {l : List Host.Cell} (h : cellsWf l = true) (a : Nat) : look (del l a) a = none := by
  induction l with
  | nil => rfl
  | cons p t ih =>
    obtain ⟨k, w⟩ := p
    have ⟨_, h2, h3⟩ := cellsWf_cons.1 h
    simp only [del]
    split
    · rename_i hk; subst hk; exact look_none_of_above h2
    · rename_i hk; simp [look, hk, ih h3]

/-- A byte just stored reads back. -/
theorem Mem.byte_setByte_same {m : Mem} (h : m.wf = true) (a : Nat) (b : Byte) : (m.setByte a b).byte a = b := by
  simp only [Mem.byte, Mem.setByte, putD]
  split
  · rename_i hb; simp [lookD, look_del_same h, hb]
  · simp

/-- A store leaves every other byte alone. -/
theorem Mem.byte_setByte_ne (m : Mem) {a x : Nat} (b : Byte) (h : x ≠ a) : (m.setByte a b).byte x = m.byte x := by
  simp only [Mem.byte, Mem.setByte, putD]
  split
  · simp [lookD, look_del_ne _ h]
  · exact lookD_put_ne _ _ _ h

/-- Bytes outside a stored range read as before. -/
theorem Mem.byte_write_ne (m : Mem) (a : Nat) (bs : List Byte) {x : Nat} (h : x < a ∨ a + bs.length ≤ x) :
    (m.write a bs).byte x = m.byte x := by
  induction bs generalizing m a with
  | nil => rfl
  | cons b t ih =>
    simp only [Mem.write, List.length_cons] at *
    rw [ih _ _ (by omega), Mem.byte_setByte_ne _ _ (by omega)]

/-- Bytes inside a stored range read what was stored. -/
theorem Mem.byte_write_in {m : Mem} (hw : m.wf = true) (a : Nat) (bs : List Byte) (i : Nat) (h : i < bs.length) :
    (m.write a bs).byte (a + i) = bs[i] := by
  induction bs generalizing m a i with
  | nil => simp at h
  | cons b t ih =>
    simp only [Mem.write]
    cases i with
    | zero =>
      rw [Mem.byte_write_ne _ _ _ (by omega)]
      simpa using Mem.byte_setByte_same hw a b
    | succ j =>
      have := ih (Mem.setByte_wf hw a b) (a + 1) j (by simpa using h)
      simpa [Nat.add_assoc, Nat.add_comm 1 j] using this

@[simp] theorem Mem.byte_setMark (m : Mem) (u x : Nat) (on : Bool) : (m.setMark u on).byte x = m.byte x := rfl
@[simp] theorem Mem.byte_bumpInstar (m : Mem) (a x : Nat) : (m.bumpInstar a).byte x = m.byte x := rfl
@[simp] theorem Mem.byte_clearFlips (m : Mem) (u x : Nat) : (m.clearFlips u).byte x = m.byte x := rfl

end Sys2Proof.Machine
end

