-- ==== Sys2Proof/Laws/State.lean ====
section
/-!
SUPPORT. For each update of the state, what it leaves in every field, and what reading the updated unit gives. True by
`rfl`; no later proof unfolds an update.
-/

namespace Sys2Proof.Machine

@[simp] theorem State.modCore_pending (s : State) (c : Nat) (f : Core → Core) : (s.modCore c f).pending = s.pending := rfl
@[simp] theorem State.modCore_free (s : State) (c : Nat) (f : Core → Core) : (s.modCore c f).free = s.free := rfl
@[simp] theorem State.modCore_now (s : State) (c : Nat) (f : Core → Core) : (s.modCore c f).now = s.now := rfl
@[simp] theorem State.modCore_dev (s : State) (c : Nat) (f : Core → Core) : (s.modCore c f).dev = s.dev := rfl
@[simp] theorem State.modCore_mem (s : State) (c : Nat) (f : Core → Core) : (s.modCore c f).mem = s.mem := rfl
@[simp] theorem State.modCore_cores (s : State) (c : Nat) (f : Core → Core) : (s.modCore c f).cores = put s.cores c (f (s.core c)) := rfl
@[simp] theorem State.modCore_slices (s : State) (c : Nat) (f : Core → Core) : (s.modCore c f).slices = s.slices := rfl
@[simp] theorem State.modCore_outers (s : State) (c : Nat) (f : Core → Core) : (s.modCore c f).outers = s.outers := rfl
@[simp] theorem State.modCore_clusters (s : State) (c : Nat) (f : Core → Core) : (s.modCore c f).clusters = s.clusters := rfl
@[simp] theorem State.modCore_deadDies (s : State) (c : Nat) (f : Core → Core) : (s.modCore c f).deadDies = s.deadDies := rfl
@[simp] theorem State.modCore_work (s : State) (c : Nat) (f : Core → Core) : (s.modCore c f).work = s.work := rfl
@[simp] theorem State.modCore_channels (s : State) (c : Nat) (f : Core → Core) : (s.modCore c f).channels = s.channels := rfl
@[simp] theorem State.modCore_lys (s : State) (c : Nat) (f : Core → Core) : (s.modCore c f).lys = s.lys := rfl
@[simp] theorem State.modCore_net (s : State) (c : Nat) (f : Core → Core) : (s.modCore c f).net = s.net := rfl
@[simp] theorem State.modCore_svc (s : State) (c : Nat) (f : Core → Core) : (s.modCore c f).svc = s.svc := rfl
@[simp] theorem State.modCore_ctl (s : State) (c : Nat) (f : Core → Core) : (s.modCore c f).ctl = s.ctl := rfl
@[simp] theorem State.modCore_fw (s : State) (c : Nat) (f : Core → Core) : (s.modCore c f).fw = s.fw := rfl
@[simp] theorem State.modCore_pwr (s : State) (c : Nat) (f : Core → Core) : (s.modCore c f).pwr = s.pwr := rfl
@[simp] theorem State.modCore_heat (s : State) (c : Nat) (f : Core → Core) : (s.modCore c f).heat = s.heat := rfl
@[simp] theorem State.modCore_log (s : State) (c : Nat) (f : Core → Core) : (s.modCore c f).log = s.log := rfl
@[simp] theorem State.modCore_ident (s : State) (c : Nat) (f : Core → Core) : (s.modCore c f).ident = s.ident := rfl
@[simp] theorem State.modCore_life (s : State) (c : Nat) (f : Core → Core) : (s.modCore c f).life = s.life := rfl
@[simp] theorem State.modCore_sent (s : State) (c : Nat) (f : Core → Core) : (s.modCore c f).sent = s.sent := rfl
@[simp] theorem State.modCore_reqNo (s : State) (c : Nat) (f : Core → Core) : (s.modCore c f).reqNo = s.reqNo := rfl

@[simp] theorem State.modSlice_pending (s : State) (c : Nat) (f : Slice → Slice) : (s.modSlice c f).pending = s.pending := rfl
@[simp] theorem State.modSlice_free (s : State) (c : Nat) (f : Slice → Slice) : (s.modSlice c f).free = s.free := rfl
@[simp] theorem State.modSlice_now (s : State) (c : Nat) (f : Slice → Slice) : (s.modSlice c f).now = s.now := rfl
@[simp] theorem State.modSlice_dev (s : State) (c : Nat) (f : Slice → Slice) : (s.modSlice c f).dev = s.dev := rfl
@[simp] theorem State.modSlice_mem (s : State) (c : Nat) (f : Slice → Slice) : (s.modSlice c f).mem = s.mem := rfl
@[simp] theorem State.modSlice_cores (s : State) (c : Nat) (f : Slice → Slice) : (s.modSlice c f).cores = s.cores := rfl
@[simp] theorem State.modSlice_slices (s : State) (c : Nat) (f : Slice → Slice) : (s.modSlice c f).slices = put s.slices c (f (s.slice c)) := rfl
@[simp] theorem State.modSlice_outers (s : State) (c : Nat) (f : Slice → Slice) : (s.modSlice c f).outers = s.outers := rfl
@[simp] theorem State.modSlice_clusters (s : State) (c : Nat) (f : Slice → Slice) : (s.modSlice c f).clusters = s.clusters := rfl
@[simp] theorem State.modSlice_deadDies (s : State) (c : Nat) (f : Slice → Slice) : (s.modSlice c f).deadDies = s.deadDies := rfl
@[simp] theorem State.modSlice_work (s : State) (c : Nat) (f : Slice → Slice) : (s.modSlice c f).work = s.work := rfl
@[simp] theorem State.modSlice_channels (s : State) (c : Nat) (f : Slice → Slice) : (s.modSlice c f).channels = s.channels := rfl
@[simp] theorem State.modSlice_lys (s : State) (c : Nat) (f : Slice → Slice) : (s.modSlice c f).lys = s.lys := rfl
@[simp] theorem State.modSlice_net (s : State) (c : Nat) (f : Slice → Slice) : (s.modSlice c f).net = s.net := rfl
@[simp] theorem State.modSlice_svc (s : State) (c : Nat) (f : Slice → Slice) : (s.modSlice c f).svc = s.svc := rfl
@[simp] theorem State.modSlice_ctl (s : State) (c : Nat) (f : Slice → Slice) : (s.modSlice c f).ctl = s.ctl := rfl
@[simp] theorem State.modSlice_fw (s : State) (c : Nat) (f : Slice → Slice) : (s.modSlice c f).fw = s.fw := rfl
@[simp] theorem State.modSlice_pwr (s : State) (c : Nat) (f : Slice → Slice) : (s.modSlice c f).pwr = s.pwr := rfl
@[simp] theorem State.modSlice_heat (s : State) (c : Nat) (f : Slice → Slice) : (s.modSlice c f).heat = s.heat := rfl
@[simp] theorem State.modSlice_log (s : State) (c : Nat) (f : Slice → Slice) : (s.modSlice c f).log = s.log := rfl
@[simp] theorem State.modSlice_ident (s : State) (c : Nat) (f : Slice → Slice) : (s.modSlice c f).ident = s.ident := rfl
@[simp] theorem State.modSlice_life (s : State) (c : Nat) (f : Slice → Slice) : (s.modSlice c f).life = s.life := rfl
@[simp] theorem State.modSlice_sent (s : State) (c : Nat) (f : Slice → Slice) : (s.modSlice c f).sent = s.sent := rfl
@[simp] theorem State.modSlice_reqNo (s : State) (c : Nat) (f : Slice → Slice) : (s.modSlice c f).reqNo = s.reqNo := rfl

@[simp] theorem State.modOuter_pending (s : State) (m : Nat) (f : Outer → Outer) : (s.modOuter m f).pending = s.pending := rfl
@[simp] theorem State.modOuter_free (s : State) (m : Nat) (f : Outer → Outer) : (s.modOuter m f).free = s.free := rfl
@[simp] theorem State.modOuter_now (s : State) (m : Nat) (f : Outer → Outer) : (s.modOuter m f).now = s.now := rfl
@[simp] theorem State.modOuter_dev (s : State) (m : Nat) (f : Outer → Outer) : (s.modOuter m f).dev = s.dev := rfl
@[simp] theorem State.modOuter_mem (s : State) (m : Nat) (f : Outer → Outer) : (s.modOuter m f).mem = s.mem := rfl
@[simp] theorem State.modOuter_cores (s : State) (m : Nat) (f : Outer → Outer) : (s.modOuter m f).cores = s.cores := rfl
@[simp] theorem State.modOuter_slices (s : State) (m : Nat) (f : Outer → Outer) : (s.modOuter m f).slices = s.slices := rfl
@[simp] theorem State.modOuter_outers (s : State) (m : Nat) (f : Outer → Outer) : (s.modOuter m f).outers = put s.outers m (f (s.outer m)) := rfl
@[simp] theorem State.modOuter_clusters (s : State) (m : Nat) (f : Outer → Outer) : (s.modOuter m f).clusters = s.clusters := rfl
@[simp] theorem State.modOuter_deadDies (s : State) (m : Nat) (f : Outer → Outer) : (s.modOuter m f).deadDies = s.deadDies := rfl
@[simp] theorem State.modOuter_work (s : State) (m : Nat) (f : Outer → Outer) : (s.modOuter m f).work = s.work := rfl
@[simp] theorem State.modOuter_channels (s : State) (m : Nat) (f : Outer → Outer) : (s.modOuter m f).channels = s.channels := rfl
@[simp] theorem State.modOuter_lys (s : State) (m : Nat) (f : Outer → Outer) : (s.modOuter m f).lys = s.lys := rfl
@[simp] theorem State.modOuter_net (s : State) (m : Nat) (f : Outer → Outer) : (s.modOuter m f).net = s.net := rfl
@[simp] theorem State.modOuter_svc (s : State) (m : Nat) (f : Outer → Outer) : (s.modOuter m f).svc = s.svc := rfl
@[simp] theorem State.modOuter_ctl (s : State) (m : Nat) (f : Outer → Outer) : (s.modOuter m f).ctl = s.ctl := rfl
@[simp] theorem State.modOuter_fw (s : State) (m : Nat) (f : Outer → Outer) : (s.modOuter m f).fw = s.fw := rfl
@[simp] theorem State.modOuter_pwr (s : State) (m : Nat) (f : Outer → Outer) : (s.modOuter m f).pwr = s.pwr := rfl
@[simp] theorem State.modOuter_heat (s : State) (m : Nat) (f : Outer → Outer) : (s.modOuter m f).heat = s.heat := rfl
@[simp] theorem State.modOuter_log (s : State) (m : Nat) (f : Outer → Outer) : (s.modOuter m f).log = s.log := rfl
@[simp] theorem State.modOuter_ident (s : State) (m : Nat) (f : Outer → Outer) : (s.modOuter m f).ident = s.ident := rfl
@[simp] theorem State.modOuter_life (s : State) (m : Nat) (f : Outer → Outer) : (s.modOuter m f).life = s.life := rfl
@[simp] theorem State.modOuter_sent (s : State) (m : Nat) (f : Outer → Outer) : (s.modOuter m f).sent = s.sent := rfl
@[simp] theorem State.modOuter_reqNo (s : State) (m : Nat) (f : Outer → Outer) : (s.modOuter m f).reqNo = s.reqNo := rfl

@[simp] theorem State.modCluster_pending (s : State) (cd : Nat) (f : Cluster → Cluster) : (s.modCluster cd f).pending = s.pending := rfl
@[simp] theorem State.modCluster_free (s : State) (cd : Nat) (f : Cluster → Cluster) : (s.modCluster cd f).free = s.free := rfl
@[simp] theorem State.modCluster_now (s : State) (cd : Nat) (f : Cluster → Cluster) : (s.modCluster cd f).now = s.now := rfl
@[simp] theorem State.modCluster_dev (s : State) (cd : Nat) (f : Cluster → Cluster) : (s.modCluster cd f).dev = s.dev := rfl
@[simp] theorem State.modCluster_mem (s : State) (cd : Nat) (f : Cluster → Cluster) : (s.modCluster cd f).mem = s.mem := rfl
@[simp] theorem State.modCluster_cores (s : State) (cd : Nat) (f : Cluster → Cluster) : (s.modCluster cd f).cores = s.cores := rfl
@[simp] theorem State.modCluster_slices (s : State) (cd : Nat) (f : Cluster → Cluster) : (s.modCluster cd f).slices = s.slices := rfl
@[simp] theorem State.modCluster_outers (s : State) (cd : Nat) (f : Cluster → Cluster) : (s.modCluster cd f).outers = s.outers := rfl
@[simp] theorem State.modCluster_clusters (s : State) (cd : Nat) (f : Cluster → Cluster) : (s.modCluster cd f).clusters = put s.clusters cd (f (s.cluster cd)) := rfl
@[simp] theorem State.modCluster_deadDies (s : State) (cd : Nat) (f : Cluster → Cluster) : (s.modCluster cd f).deadDies = s.deadDies := rfl
@[simp] theorem State.modCluster_work (s : State) (cd : Nat) (f : Cluster → Cluster) : (s.modCluster cd f).work = s.work := rfl
@[simp] theorem State.modCluster_channels (s : State) (cd : Nat) (f : Cluster → Cluster) : (s.modCluster cd f).channels = s.channels := rfl
@[simp] theorem State.modCluster_lys (s : State) (cd : Nat) (f : Cluster → Cluster) : (s.modCluster cd f).lys = s.lys := rfl
@[simp] theorem State.modCluster_net (s : State) (cd : Nat) (f : Cluster → Cluster) : (s.modCluster cd f).net = s.net := rfl
@[simp] theorem State.modCluster_svc (s : State) (cd : Nat) (f : Cluster → Cluster) : (s.modCluster cd f).svc = s.svc := rfl
@[simp] theorem State.modCluster_ctl (s : State) (cd : Nat) (f : Cluster → Cluster) : (s.modCluster cd f).ctl = s.ctl := rfl
@[simp] theorem State.modCluster_fw (s : State) (cd : Nat) (f : Cluster → Cluster) : (s.modCluster cd f).fw = s.fw := rfl
@[simp] theorem State.modCluster_pwr (s : State) (cd : Nat) (f : Cluster → Cluster) : (s.modCluster cd f).pwr = s.pwr := rfl
@[simp] theorem State.modCluster_heat (s : State) (cd : Nat) (f : Cluster → Cluster) : (s.modCluster cd f).heat = s.heat := rfl
@[simp] theorem State.modCluster_log (s : State) (cd : Nat) (f : Cluster → Cluster) : (s.modCluster cd f).log = s.log := rfl
@[simp] theorem State.modCluster_ident (s : State) (cd : Nat) (f : Cluster → Cluster) : (s.modCluster cd f).ident = s.ident := rfl
@[simp] theorem State.modCluster_life (s : State) (cd : Nat) (f : Cluster → Cluster) : (s.modCluster cd f).life = s.life := rfl
@[simp] theorem State.modCluster_sent (s : State) (cd : Nat) (f : Cluster → Cluster) : (s.modCluster cd f).sent = s.sent := rfl
@[simp] theorem State.modCluster_reqNo (s : State) (cd : Nat) (f : Cluster → Cluster) : (s.modCluster cd f).reqNo = s.reqNo := rfl

@[simp] theorem State.modLink_pending (s : State) (l : Nat) (f : LinkSt → LinkSt) : (s.modLink l f).pending = s.pending := rfl
@[simp] theorem State.modLink_free (s : State) (l : Nat) (f : LinkSt → LinkSt) : (s.modLink l f).free = s.free := rfl
@[simp] theorem State.modLink_now (s : State) (l : Nat) (f : LinkSt → LinkSt) : (s.modLink l f).now = s.now := rfl
@[simp] theorem State.modLink_dev (s : State) (l : Nat) (f : LinkSt → LinkSt) : (s.modLink l f).dev = s.dev := rfl
@[simp] theorem State.modLink_mem (s : State) (l : Nat) (f : LinkSt → LinkSt) : (s.modLink l f).mem = s.mem := rfl
@[simp] theorem State.modLink_cores (s : State) (l : Nat) (f : LinkSt → LinkSt) : (s.modLink l f).cores = s.cores := rfl
@[simp] theorem State.modLink_slices (s : State) (l : Nat) (f : LinkSt → LinkSt) : (s.modLink l f).slices = s.slices := rfl
@[simp] theorem State.modLink_outers (s : State) (l : Nat) (f : LinkSt → LinkSt) : (s.modLink l f).outers = s.outers := rfl
@[simp] theorem State.modLink_clusters (s : State) (l : Nat) (f : LinkSt → LinkSt) : (s.modLink l f).clusters = s.clusters := rfl
@[simp] theorem State.modLink_deadDies (s : State) (l : Nat) (f : LinkSt → LinkSt) : (s.modLink l f).deadDies = s.deadDies := rfl
@[simp] theorem State.modLink_work (s : State) (l : Nat) (f : LinkSt → LinkSt) : (s.modLink l f).work = s.work := rfl
@[simp] theorem State.modLink_channels (s : State) (l : Nat) (f : LinkSt → LinkSt) : (s.modLink l f).channels = s.channels := rfl
@[simp] theorem State.modLink_lys (s : State) (l : Nat) (f : LinkSt → LinkSt) : (s.modLink l f).lys = { s.lys with links := put s.lys.links l (f (s.linkSt l)) } := rfl
@[simp] theorem State.modLink_net (s : State) (l : Nat) (f : LinkSt → LinkSt) : (s.modLink l f).net = s.net := rfl
@[simp] theorem State.modLink_svc (s : State) (l : Nat) (f : LinkSt → LinkSt) : (s.modLink l f).svc = s.svc := rfl
@[simp] theorem State.modLink_ctl (s : State) (l : Nat) (f : LinkSt → LinkSt) : (s.modLink l f).ctl = s.ctl := rfl
@[simp] theorem State.modLink_fw (s : State) (l : Nat) (f : LinkSt → LinkSt) : (s.modLink l f).fw = s.fw := rfl
@[simp] theorem State.modLink_pwr (s : State) (l : Nat) (f : LinkSt → LinkSt) : (s.modLink l f).pwr = s.pwr := rfl
@[simp] theorem State.modLink_heat (s : State) (l : Nat) (f : LinkSt → LinkSt) : (s.modLink l f).heat = s.heat := rfl
@[simp] theorem State.modLink_log (s : State) (l : Nat) (f : LinkSt → LinkSt) : (s.modLink l f).log = s.log := rfl
@[simp] theorem State.modLink_ident (s : State) (l : Nat) (f : LinkSt → LinkSt) : (s.modLink l f).ident = s.ident := rfl
@[simp] theorem State.modLink_life (s : State) (l : Nat) (f : LinkSt → LinkSt) : (s.modLink l f).life = s.life := rfl
@[simp] theorem State.modLink_sent (s : State) (l : Nat) (f : LinkSt → LinkSt) : (s.modLink l f).sent = s.sent := rfl
@[simp] theorem State.modLink_reqNo (s : State) (l : Nat) (f : LinkSt → LinkSt) : (s.modLink l f).reqNo = s.reqNo := rfl

@[simp] theorem State.modPort_pending (s : State) (p : Nat) (f : PortSt → PortSt) : (s.modPort p f).pending = s.pending := rfl
@[simp] theorem State.modPort_free (s : State) (p : Nat) (f : PortSt → PortSt) : (s.modPort p f).free = s.free := rfl
@[simp] theorem State.modPort_now (s : State) (p : Nat) (f : PortSt → PortSt) : (s.modPort p f).now = s.now := rfl
@[simp] theorem State.modPort_dev (s : State) (p : Nat) (f : PortSt → PortSt) : (s.modPort p f).dev = s.dev := rfl
@[simp] theorem State.modPort_mem (s : State) (p : Nat) (f : PortSt → PortSt) : (s.modPort p f).mem = s.mem := rfl
@[simp] theorem State.modPort_cores (s : State) (p : Nat) (f : PortSt → PortSt) : (s.modPort p f).cores = s.cores := rfl
@[simp] theorem State.modPort_slices (s : State) (p : Nat) (f : PortSt → PortSt) : (s.modPort p f).slices = s.slices := rfl
@[simp] theorem State.modPort_outers (s : State) (p : Nat) (f : PortSt → PortSt) : (s.modPort p f).outers = s.outers := rfl
@[simp] theorem State.modPort_clusters (s : State) (p : Nat) (f : PortSt → PortSt) : (s.modPort p f).clusters = s.clusters := rfl
@[simp] theorem State.modPort_deadDies (s : State) (p : Nat) (f : PortSt → PortSt) : (s.modPort p f).deadDies = s.deadDies := rfl
@[simp] theorem State.modPort_work (s : State) (p : Nat) (f : PortSt → PortSt) : (s.modPort p f).work = s.work := rfl
@[simp] theorem State.modPort_channels (s : State) (p : Nat) (f : PortSt → PortSt) : (s.modPort p f).channels = s.channels := rfl
@[simp] theorem State.modPort_lys (s : State) (p : Nat) (f : PortSt → PortSt) : (s.modPort p f).lys = s.lys := rfl
@[simp] theorem State.modPort_net (s : State) (p : Nat) (f : PortSt → PortSt) : (s.modPort p f).net = { s.net with ports := put s.net.ports p (f (s.portSt p)) } := rfl
@[simp] theorem State.modPort_svc (s : State) (p : Nat) (f : PortSt → PortSt) : (s.modPort p f).svc = s.svc := rfl
@[simp] theorem State.modPort_ctl (s : State) (p : Nat) (f : PortSt → PortSt) : (s.modPort p f).ctl = s.ctl := rfl
@[simp] theorem State.modPort_fw (s : State) (p : Nat) (f : PortSt → PortSt) : (s.modPort p f).fw = s.fw := rfl
@[simp] theorem State.modPort_pwr (s : State) (p : Nat) (f : PortSt → PortSt) : (s.modPort p f).pwr = s.pwr := rfl
@[simp] theorem State.modPort_heat (s : State) (p : Nat) (f : PortSt → PortSt) : (s.modPort p f).heat = s.heat := rfl
@[simp] theorem State.modPort_log (s : State) (p : Nat) (f : PortSt → PortSt) : (s.modPort p f).log = s.log := rfl
@[simp] theorem State.modPort_ident (s : State) (p : Nat) (f : PortSt → PortSt) : (s.modPort p f).ident = s.ident := rfl
@[simp] theorem State.modPort_life (s : State) (p : Nat) (f : PortSt → PortSt) : (s.modPort p f).life = s.life := rfl
@[simp] theorem State.modPort_sent (s : State) (p : Nat) (f : PortSt → PortSt) : (s.modPort p f).sent = s.sent := rfl
@[simp] theorem State.modPort_reqNo (s : State) (p : Nat) (f : PortSt → PortSt) : (s.modPort p f).reqNo = s.reqNo := rfl

@[simp] theorem State.modChannel_pending (s : State) (ep i : Nat) (f : Channel → Channel) : (s.modChannel ep i f).pending = s.pending := rfl
@[simp] theorem State.modChannel_free (s : State) (ep i : Nat) (f : Channel → Channel) : (s.modChannel ep i f).free = s.free := rfl
@[simp] theorem State.modChannel_now (s : State) (ep i : Nat) (f : Channel → Channel) : (s.modChannel ep i f).now = s.now := rfl
@[simp] theorem State.modChannel_dev (s : State) (ep i : Nat) (f : Channel → Channel) : (s.modChannel ep i f).dev = s.dev := rfl
@[simp] theorem State.modChannel_mem (s : State) (ep i : Nat) (f : Channel → Channel) : (s.modChannel ep i f).mem = s.mem := rfl
@[simp] theorem State.modChannel_cores (s : State) (ep i : Nat) (f : Channel → Channel) : (s.modChannel ep i f).cores = s.cores := rfl
@[simp] theorem State.modChannel_slices (s : State) (ep i : Nat) (f : Channel → Channel) : (s.modChannel ep i f).slices = s.slices := rfl
@[simp] theorem State.modChannel_outers (s : State) (ep i : Nat) (f : Channel → Channel) : (s.modChannel ep i f).outers = s.outers := rfl
@[simp] theorem State.modChannel_clusters (s : State) (ep i : Nat) (f : Channel → Channel) : (s.modChannel ep i f).clusters = s.clusters := rfl
@[simp] theorem State.modChannel_deadDies (s : State) (ep i : Nat) (f : Channel → Channel) : (s.modChannel ep i f).deadDies = s.deadDies := rfl
@[simp] theorem State.modChannel_work (s : State) (ep i : Nat) (f : Channel → Channel) : (s.modChannel ep i f).work = s.work := rfl
@[simp] theorem State.modChannel_channels (s : State) (ep i : Nat) (f : Channel → Channel) : (s.modChannel ep i f).channels = put s.channels (ep * 64 + i) (f (s.channel ep i)) := rfl
@[simp] theorem State.modChannel_lys (s : State) (ep i : Nat) (f : Channel → Channel) : (s.modChannel ep i f).lys = s.lys := rfl
@[simp] theorem State.modChannel_net (s : State) (ep i : Nat) (f : Channel → Channel) : (s.modChannel ep i f).net = s.net := rfl
@[simp] theorem State.modChannel_svc (s : State) (ep i : Nat) (f : Channel → Channel) : (s.modChannel ep i f).svc = s.svc := rfl
@[simp] theorem State.modChannel_ctl (s : State) (ep i : Nat) (f : Channel → Channel) : (s.modChannel ep i f).ctl = s.ctl := rfl
@[simp] theorem State.modChannel_fw (s : State) (ep i : Nat) (f : Channel → Channel) : (s.modChannel ep i f).fw = s.fw := rfl
@[simp] theorem State.modChannel_pwr (s : State) (ep i : Nat) (f : Channel → Channel) : (s.modChannel ep i f).pwr = s.pwr := rfl
@[simp] theorem State.modChannel_heat (s : State) (ep i : Nat) (f : Channel → Channel) : (s.modChannel ep i f).heat = s.heat := rfl
@[simp] theorem State.modChannel_log (s : State) (ep i : Nat) (f : Channel → Channel) : (s.modChannel ep i f).log = s.log := rfl
@[simp] theorem State.modChannel_ident (s : State) (ep i : Nat) (f : Channel → Channel) : (s.modChannel ep i f).ident = s.ident := rfl
@[simp] theorem State.modChannel_life (s : State) (ep i : Nat) (f : Channel → Channel) : (s.modChannel ep i f).life = s.life := rfl
@[simp] theorem State.modChannel_sent (s : State) (ep i : Nat) (f : Channel → Channel) : (s.modChannel ep i f).sent = s.sent := rfl
@[simp] theorem State.modChannel_reqNo (s : State) (ep i : Nat) (f : Channel → Channel) : (s.modChannel ep i f).reqNo = s.reqNo := rfl

@[simp] theorem State.onWork_pending (s : State) (f : Work → Work) : (s.onWork f).pending = s.pending := rfl
@[simp] theorem State.onWork_free (s : State) (f : Work → Work) : (s.onWork f).free = s.free := rfl
@[simp] theorem State.onWork_now (s : State) (f : Work → Work) : (s.onWork f).now = s.now := rfl
@[simp] theorem State.onWork_dev (s : State) (f : Work → Work) : (s.onWork f).dev = s.dev := rfl
@[simp] theorem State.onWork_mem (s : State) (f : Work → Work) : (s.onWork f).mem = s.mem := rfl
@[simp] theorem State.onWork_cores (s : State) (f : Work → Work) : (s.onWork f).cores = s.cores := rfl
@[simp] theorem State.onWork_slices (s : State) (f : Work → Work) : (s.onWork f).slices = s.slices := rfl
@[simp] theorem State.onWork_outers (s : State) (f : Work → Work) : (s.onWork f).outers = s.outers := rfl
@[simp] theorem State.onWork_clusters (s : State) (f : Work → Work) : (s.onWork f).clusters = s.clusters := rfl
@[simp] theorem State.onWork_deadDies (s : State) (f : Work → Work) : (s.onWork f).deadDies = s.deadDies := rfl
@[simp] theorem State.onWork_work (s : State) (f : Work → Work) : (s.onWork f).work = f s.work := rfl
@[simp] theorem State.onWork_channels (s : State) (f : Work → Work) : (s.onWork f).channels = s.channels := rfl
@[simp] theorem State.onWork_lys (s : State) (f : Work → Work) : (s.onWork f).lys = s.lys := rfl
@[simp] theorem State.onWork_net (s : State) (f : Work → Work) : (s.onWork f).net = s.net := rfl
@[simp] theorem State.onWork_svc (s : State) (f : Work → Work) : (s.onWork f).svc = s.svc := rfl
@[simp] theorem State.onWork_ctl (s : State) (f : Work → Work) : (s.onWork f).ctl = s.ctl := rfl
@[simp] theorem State.onWork_fw (s : State) (f : Work → Work) : (s.onWork f).fw = s.fw := rfl
@[simp] theorem State.onWork_pwr (s : State) (f : Work → Work) : (s.onWork f).pwr = s.pwr := rfl
@[simp] theorem State.onWork_heat (s : State) (f : Work → Work) : (s.onWork f).heat = s.heat := rfl
@[simp] theorem State.onWork_log (s : State) (f : Work → Work) : (s.onWork f).log = s.log := rfl
@[simp] theorem State.onWork_ident (s : State) (f : Work → Work) : (s.onWork f).ident = s.ident := rfl
@[simp] theorem State.onWork_life (s : State) (f : Work → Work) : (s.onWork f).life = s.life := rfl
@[simp] theorem State.onWork_sent (s : State) (f : Work → Work) : (s.onWork f).sent = s.sent := rfl
@[simp] theorem State.onWork_reqNo (s : State) (f : Work → Work) : (s.onWork f).reqNo = s.reqNo := rfl

@[simp] theorem State.onMem_pending (s : State) (f : Mem → Mem) : (s.onMem f).pending = s.pending := rfl
@[simp] theorem State.onMem_free (s : State) (f : Mem → Mem) : (s.onMem f).free = s.free := rfl
@[simp] theorem State.onMem_now (s : State) (f : Mem → Mem) : (s.onMem f).now = s.now := rfl
@[simp] theorem State.onMem_dev (s : State) (f : Mem → Mem) : (s.onMem f).dev = s.dev := rfl
@[simp] theorem State.onMem_mem (s : State) (f : Mem → Mem) : (s.onMem f).mem = f s.mem := rfl
@[simp] theorem State.onMem_cores (s : State) (f : Mem → Mem) : (s.onMem f).cores = s.cores := rfl
@[simp] theorem State.onMem_slices (s : State) (f : Mem → Mem) : (s.onMem f).slices = s.slices := rfl
@[simp] theorem State.onMem_outers (s : State) (f : Mem → Mem) : (s.onMem f).outers = s.outers := rfl
@[simp] theorem State.onMem_clusters (s : State) (f : Mem → Mem) : (s.onMem f).clusters = s.clusters := rfl
@[simp] theorem State.onMem_deadDies (s : State) (f : Mem → Mem) : (s.onMem f).deadDies = s.deadDies := rfl
@[simp] theorem State.onMem_work (s : State) (f : Mem → Mem) : (s.onMem f).work = s.work := rfl
@[simp] theorem State.onMem_channels (s : State) (f : Mem → Mem) : (s.onMem f).channels = s.channels := rfl
@[simp] theorem State.onMem_lys (s : State) (f : Mem → Mem) : (s.onMem f).lys = s.lys := rfl
@[simp] theorem State.onMem_net (s : State) (f : Mem → Mem) : (s.onMem f).net = s.net := rfl
@[simp] theorem State.onMem_svc (s : State) (f : Mem → Mem) : (s.onMem f).svc = s.svc := rfl
@[simp] theorem State.onMem_ctl (s : State) (f : Mem → Mem) : (s.onMem f).ctl = s.ctl := rfl
@[simp] theorem State.onMem_fw (s : State) (f : Mem → Mem) : (s.onMem f).fw = s.fw := rfl
@[simp] theorem State.onMem_pwr (s : State) (f : Mem → Mem) : (s.onMem f).pwr = s.pwr := rfl
@[simp] theorem State.onMem_heat (s : State) (f : Mem → Mem) : (s.onMem f).heat = s.heat := rfl
@[simp] theorem State.onMem_log (s : State) (f : Mem → Mem) : (s.onMem f).log = s.log := rfl
@[simp] theorem State.onMem_ident (s : State) (f : Mem → Mem) : (s.onMem f).ident = s.ident := rfl
@[simp] theorem State.onMem_life (s : State) (f : Mem → Mem) : (s.onMem f).life = s.life := rfl
@[simp] theorem State.onMem_sent (s : State) (f : Mem → Mem) : (s.onMem f).sent = s.sent := rfl
@[simp] theorem State.onMem_reqNo (s : State) (f : Mem → Mem) : (s.onMem f).reqNo = s.reqNo := rfl

@[simp] theorem State.onCtl_pending (s : State) (f : Ctl → Ctl) : (s.onCtl f).pending = s.pending := rfl
@[simp] theorem State.onCtl_free (s : State) (f : Ctl → Ctl) : (s.onCtl f).free = s.free := rfl
@[simp] theorem State.onCtl_now (s : State) (f : Ctl → Ctl) : (s.onCtl f).now = s.now := rfl
@[simp] theorem State.onCtl_dev (s : State) (f : Ctl → Ctl) : (s.onCtl f).dev = s.dev := rfl
@[simp] theorem State.onCtl_mem (s : State) (f : Ctl → Ctl) : (s.onCtl f).mem = s.mem := rfl
@[simp] theorem State.onCtl_cores (s : State) (f : Ctl → Ctl) : (s.onCtl f).cores = s.cores := rfl
@[simp] theorem State.onCtl_slices (s : State) (f : Ctl → Ctl) : (s.onCtl f).slices = s.slices := rfl
@[simp] theorem State.onCtl_outers (s : State) (f : Ctl → Ctl) : (s.onCtl f).outers = s.outers := rfl
@[simp] theorem State.onCtl_clusters (s : State) (f : Ctl → Ctl) : (s.onCtl f).clusters = s.clusters := rfl
@[simp] theorem State.onCtl_deadDies (s : State) (f : Ctl → Ctl) : (s.onCtl f).deadDies = s.deadDies := rfl
@[simp] theorem State.onCtl_work (s : State) (f : Ctl → Ctl) : (s.onCtl f).work = s.work := rfl
@[simp] theorem State.onCtl_channels (s : State) (f : Ctl → Ctl) : (s.onCtl f).channels = s.channels := rfl
@[simp] theorem State.onCtl_lys (s : State) (f : Ctl → Ctl) : (s.onCtl f).lys = s.lys := rfl
@[simp] theorem State.onCtl_net (s : State) (f : Ctl → Ctl) : (s.onCtl f).net = s.net := rfl
@[simp] theorem State.onCtl_svc (s : State) (f : Ctl → Ctl) : (s.onCtl f).svc = s.svc := rfl
@[simp] theorem State.onCtl_ctl (s : State) (f : Ctl → Ctl) : (s.onCtl f).ctl = f s.ctl := rfl
@[simp] theorem State.onCtl_fw (s : State) (f : Ctl → Ctl) : (s.onCtl f).fw = s.fw := rfl
@[simp] theorem State.onCtl_pwr (s : State) (f : Ctl → Ctl) : (s.onCtl f).pwr = s.pwr := rfl
@[simp] theorem State.onCtl_heat (s : State) (f : Ctl → Ctl) : (s.onCtl f).heat = s.heat := rfl
@[simp] theorem State.onCtl_log (s : State) (f : Ctl → Ctl) : (s.onCtl f).log = s.log := rfl
@[simp] theorem State.onCtl_ident (s : State) (f : Ctl → Ctl) : (s.onCtl f).ident = s.ident := rfl
@[simp] theorem State.onCtl_life (s : State) (f : Ctl → Ctl) : (s.onCtl f).life = s.life := rfl
@[simp] theorem State.onCtl_sent (s : State) (f : Ctl → Ctl) : (s.onCtl f).sent = s.sent := rfl
@[simp] theorem State.onCtl_reqNo (s : State) (f : Ctl → Ctl) : (s.onCtl f).reqNo = s.reqNo := rfl

@[simp] theorem State.onFw_pending (s : State) (f : Fw → Fw) : (s.onFw f).pending = s.pending := rfl
@[simp] theorem State.onFw_free (s : State) (f : Fw → Fw) : (s.onFw f).free = s.free := rfl
@[simp] theorem State.onFw_now (s : State) (f : Fw → Fw) : (s.onFw f).now = s.now := rfl
@[simp] theorem State.onFw_dev (s : State) (f : Fw → Fw) : (s.onFw f).dev = s.dev := rfl
@[simp] theorem State.onFw_mem (s : State) (f : Fw → Fw) : (s.onFw f).mem = s.mem := rfl
@[simp] theorem State.onFw_cores (s : State) (f : Fw → Fw) : (s.onFw f).cores = s.cores := rfl
@[simp] theorem State.onFw_slices (s : State) (f : Fw → Fw) : (s.onFw f).slices = s.slices := rfl
@[simp] theorem State.onFw_outers (s : State) (f : Fw → Fw) : (s.onFw f).outers = s.outers := rfl
@[simp] theorem State.onFw_clusters (s : State) (f : Fw → Fw) : (s.onFw f).clusters = s.clusters := rfl
@[simp] theorem State.onFw_deadDies (s : State) (f : Fw → Fw) : (s.onFw f).deadDies = s.deadDies := rfl
@[simp] theorem State.onFw_work (s : State) (f : Fw → Fw) : (s.onFw f).work = s.work := rfl
@[simp] theorem State.onFw_channels (s : State) (f : Fw → Fw) : (s.onFw f).channels = s.channels := rfl
@[simp] theorem State.onFw_lys (s : State) (f : Fw → Fw) : (s.onFw f).lys = s.lys := rfl
@[simp] theorem State.onFw_net (s : State) (f : Fw → Fw) : (s.onFw f).net = s.net := rfl
@[simp] theorem State.onFw_svc (s : State) (f : Fw → Fw) : (s.onFw f).svc = s.svc := rfl
@[simp] theorem State.onFw_ctl (s : State) (f : Fw → Fw) : (s.onFw f).ctl = s.ctl := rfl
@[simp] theorem State.onFw_fw (s : State) (f : Fw → Fw) : (s.onFw f).fw = f s.fw := rfl
@[simp] theorem State.onFw_pwr (s : State) (f : Fw → Fw) : (s.onFw f).pwr = s.pwr := rfl
@[simp] theorem State.onFw_heat (s : State) (f : Fw → Fw) : (s.onFw f).heat = s.heat := rfl
@[simp] theorem State.onFw_log (s : State) (f : Fw → Fw) : (s.onFw f).log = s.log := rfl
@[simp] theorem State.onFw_ident (s : State) (f : Fw → Fw) : (s.onFw f).ident = s.ident := rfl
@[simp] theorem State.onFw_life (s : State) (f : Fw → Fw) : (s.onFw f).life = s.life := rfl
@[simp] theorem State.onFw_sent (s : State) (f : Fw → Fw) : (s.onFw f).sent = s.sent := rfl
@[simp] theorem State.onFw_reqNo (s : State) (f : Fw → Fw) : (s.onFw f).reqNo = s.reqNo := rfl

@[simp] theorem State.onPwr_pending (s : State) (f : Pwr → Pwr) : (s.onPwr f).pending = s.pending := rfl
@[simp] theorem State.onPwr_free (s : State) (f : Pwr → Pwr) : (s.onPwr f).free = s.free := rfl
@[simp] theorem State.onPwr_now (s : State) (f : Pwr → Pwr) : (s.onPwr f).now = s.now := rfl
@[simp] theorem State.onPwr_dev (s : State) (f : Pwr → Pwr) : (s.onPwr f).dev = s.dev := rfl
@[simp] theorem State.onPwr_mem (s : State) (f : Pwr → Pwr) : (s.onPwr f).mem = s.mem := rfl
@[simp] theorem State.onPwr_cores (s : State) (f : Pwr → Pwr) : (s.onPwr f).cores = s.cores := rfl
@[simp] theorem State.onPwr_slices (s : State) (f : Pwr → Pwr) : (s.onPwr f).slices = s.slices := rfl
@[simp] theorem State.onPwr_outers (s : State) (f : Pwr → Pwr) : (s.onPwr f).outers = s.outers := rfl
@[simp] theorem State.onPwr_clusters (s : State) (f : Pwr → Pwr) : (s.onPwr f).clusters = s.clusters := rfl
@[simp] theorem State.onPwr_deadDies (s : State) (f : Pwr → Pwr) : (s.onPwr f).deadDies = s.deadDies := rfl
@[simp] theorem State.onPwr_work (s : State) (f : Pwr → Pwr) : (s.onPwr f).work = s.work := rfl
@[simp] theorem State.onPwr_channels (s : State) (f : Pwr → Pwr) : (s.onPwr f).channels = s.channels := rfl
@[simp] theorem State.onPwr_lys (s : State) (f : Pwr → Pwr) : (s.onPwr f).lys = s.lys := rfl
@[simp] theorem State.onPwr_net (s : State) (f : Pwr → Pwr) : (s.onPwr f).net = s.net := rfl
@[simp] theorem State.onPwr_svc (s : State) (f : Pwr → Pwr) : (s.onPwr f).svc = s.svc := rfl
@[simp] theorem State.onPwr_ctl (s : State) (f : Pwr → Pwr) : (s.onPwr f).ctl = s.ctl := rfl
@[simp] theorem State.onPwr_fw (s : State) (f : Pwr → Pwr) : (s.onPwr f).fw = s.fw := rfl
@[simp] theorem State.onPwr_pwr (s : State) (f : Pwr → Pwr) : (s.onPwr f).pwr = f s.pwr := rfl
@[simp] theorem State.onPwr_heat (s : State) (f : Pwr → Pwr) : (s.onPwr f).heat = s.heat := rfl
@[simp] theorem State.onPwr_log (s : State) (f : Pwr → Pwr) : (s.onPwr f).log = s.log := rfl
@[simp] theorem State.onPwr_ident (s : State) (f : Pwr → Pwr) : (s.onPwr f).ident = s.ident := rfl
@[simp] theorem State.onPwr_life (s : State) (f : Pwr → Pwr) : (s.onPwr f).life = s.life := rfl
@[simp] theorem State.onPwr_sent (s : State) (f : Pwr → Pwr) : (s.onPwr f).sent = s.sent := rfl
@[simp] theorem State.onPwr_reqNo (s : State) (f : Pwr → Pwr) : (s.onPwr f).reqNo = s.reqNo := rfl

@[simp] theorem State.onHeat_pending (s : State) (f : Heat → Heat) : (s.onHeat f).pending = s.pending := rfl
@[simp] theorem State.onHeat_free (s : State) (f : Heat → Heat) : (s.onHeat f).free = s.free := rfl
@[simp] theorem State.onHeat_now (s : State) (f : Heat → Heat) : (s.onHeat f).now = s.now := rfl
@[simp] theorem State.onHeat_dev (s : State) (f : Heat → Heat) : (s.onHeat f).dev = s.dev := rfl
@[simp] theorem State.onHeat_mem (s : State) (f : Heat → Heat) : (s.onHeat f).mem = s.mem := rfl
@[simp] theorem State.onHeat_cores (s : State) (f : Heat → Heat) : (s.onHeat f).cores = s.cores := rfl
@[simp] theorem State.onHeat_slices (s : State) (f : Heat → Heat) : (s.onHeat f).slices = s.slices := rfl
@[simp] theorem State.onHeat_outers (s : State) (f : Heat → Heat) : (s.onHeat f).outers = s.outers := rfl
@[simp] theorem State.onHeat_clusters (s : State) (f : Heat → Heat) : (s.onHeat f).clusters = s.clusters := rfl
@[simp] theorem State.onHeat_deadDies (s : State) (f : Heat → Heat) : (s.onHeat f).deadDies = s.deadDies := rfl
@[simp] theorem State.onHeat_work (s : State) (f : Heat → Heat) : (s.onHeat f).work = s.work := rfl
@[simp] theorem State.onHeat_channels (s : State) (f : Heat → Heat) : (s.onHeat f).channels = s.channels := rfl
@[simp] theorem State.onHeat_lys (s : State) (f : Heat → Heat) : (s.onHeat f).lys = s.lys := rfl
@[simp] theorem State.onHeat_net (s : State) (f : Heat → Heat) : (s.onHeat f).net = s.net := rfl
@[simp] theorem State.onHeat_svc (s : State) (f : Heat → Heat) : (s.onHeat f).svc = s.svc := rfl
@[simp] theorem State.onHeat_ctl (s : State) (f : Heat → Heat) : (s.onHeat f).ctl = s.ctl := rfl
@[simp] theorem State.onHeat_fw (s : State) (f : Heat → Heat) : (s.onHeat f).fw = s.fw := rfl
@[simp] theorem State.onHeat_pwr (s : State) (f : Heat → Heat) : (s.onHeat f).pwr = s.pwr := rfl
@[simp] theorem State.onHeat_heat (s : State) (f : Heat → Heat) : (s.onHeat f).heat = f s.heat := rfl
@[simp] theorem State.onHeat_log (s : State) (f : Heat → Heat) : (s.onHeat f).log = s.log := rfl
@[simp] theorem State.onHeat_ident (s : State) (f : Heat → Heat) : (s.onHeat f).ident = s.ident := rfl
@[simp] theorem State.onHeat_life (s : State) (f : Heat → Heat) : (s.onHeat f).life = s.life := rfl
@[simp] theorem State.onHeat_sent (s : State) (f : Heat → Heat) : (s.onHeat f).sent = s.sent := rfl
@[simp] theorem State.onHeat_reqNo (s : State) (f : Heat → Heat) : (s.onHeat f).reqNo = s.reqNo := rfl

@[simp] theorem State.onLife_pending (s : State) (f : Life → Life) : (s.onLife f).pending = s.pending := rfl
@[simp] theorem State.onLife_free (s : State) (f : Life → Life) : (s.onLife f).free = s.free := rfl
@[simp] theorem State.onLife_now (s : State) (f : Life → Life) : (s.onLife f).now = s.now := rfl
@[simp] theorem State.onLife_dev (s : State) (f : Life → Life) : (s.onLife f).dev = s.dev := rfl
@[simp] theorem State.onLife_mem (s : State) (f : Life → Life) : (s.onLife f).mem = s.mem := rfl
@[simp] theorem State.onLife_cores (s : State) (f : Life → Life) : (s.onLife f).cores = s.cores := rfl
@[simp] theorem State.onLife_slices (s : State) (f : Life → Life) : (s.onLife f).slices = s.slices := rfl
@[simp] theorem State.onLife_outers (s : State) (f : Life → Life) : (s.onLife f).outers = s.outers := rfl
@[simp] theorem State.onLife_clusters (s : State) (f : Life → Life) : (s.onLife f).clusters = s.clusters := rfl
@[simp] theorem State.onLife_deadDies (s : State) (f : Life → Life) : (s.onLife f).deadDies = s.deadDies := rfl
@[simp] theorem State.onLife_work (s : State) (f : Life → Life) : (s.onLife f).work = s.work := rfl
@[simp] theorem State.onLife_channels (s : State) (f : Life → Life) : (s.onLife f).channels = s.channels := rfl
@[simp] theorem State.onLife_lys (s : State) (f : Life → Life) : (s.onLife f).lys = s.lys := rfl
@[simp] theorem State.onLife_net (s : State) (f : Life → Life) : (s.onLife f).net = s.net := rfl
@[simp] theorem State.onLife_svc (s : State) (f : Life → Life) : (s.onLife f).svc = s.svc := rfl
@[simp] theorem State.onLife_ctl (s : State) (f : Life → Life) : (s.onLife f).ctl = s.ctl := rfl
@[simp] theorem State.onLife_fw (s : State) (f : Life → Life) : (s.onLife f).fw = s.fw := rfl
@[simp] theorem State.onLife_pwr (s : State) (f : Life → Life) : (s.onLife f).pwr = s.pwr := rfl
@[simp] theorem State.onLife_heat (s : State) (f : Life → Life) : (s.onLife f).heat = s.heat := rfl
@[simp] theorem State.onLife_log (s : State) (f : Life → Life) : (s.onLife f).log = s.log := rfl
@[simp] theorem State.onLife_ident (s : State) (f : Life → Life) : (s.onLife f).ident = s.ident := rfl
@[simp] theorem State.onLife_life (s : State) (f : Life → Life) : (s.onLife f).life = f s.life := rfl
@[simp] theorem State.onLife_sent (s : State) (f : Life → Life) : (s.onLife f).sent = s.sent := rfl
@[simp] theorem State.onLife_reqNo (s : State) (f : Life → Life) : (s.onLife f).reqNo = s.reqNo := rfl

@[simp] theorem State.onIdent_pending (s : State) (f : Ident → Ident) : (s.onIdent f).pending = s.pending := rfl
@[simp] theorem State.onIdent_free (s : State) (f : Ident → Ident) : (s.onIdent f).free = s.free := rfl
@[simp] theorem State.onIdent_now (s : State) (f : Ident → Ident) : (s.onIdent f).now = s.now := rfl
@[simp] theorem State.onIdent_dev (s : State) (f : Ident → Ident) : (s.onIdent f).dev = s.dev := rfl
@[simp] theorem State.onIdent_mem (s : State) (f : Ident → Ident) : (s.onIdent f).mem = s.mem := rfl
@[simp] theorem State.onIdent_cores (s : State) (f : Ident → Ident) : (s.onIdent f).cores = s.cores := rfl
@[simp] theorem State.onIdent_slices (s : State) (f : Ident → Ident) : (s.onIdent f).slices = s.slices := rfl
@[simp] theorem State.onIdent_outers (s : State) (f : Ident → Ident) : (s.onIdent f).outers = s.outers := rfl
@[simp] theorem State.onIdent_clusters (s : State) (f : Ident → Ident) : (s.onIdent f).clusters = s.clusters := rfl
@[simp] theorem State.onIdent_deadDies (s : State) (f : Ident → Ident) : (s.onIdent f).deadDies = s.deadDies := rfl
@[simp] theorem State.onIdent_work (s : State) (f : Ident → Ident) : (s.onIdent f).work = s.work := rfl
@[simp] theorem State.onIdent_channels (s : State) (f : Ident → Ident) : (s.onIdent f).channels = s.channels := rfl
@[simp] theorem State.onIdent_lys (s : State) (f : Ident → Ident) : (s.onIdent f).lys = s.lys := rfl
@[simp] theorem State.onIdent_net (s : State) (f : Ident → Ident) : (s.onIdent f).net = s.net := rfl
@[simp] theorem State.onIdent_svc (s : State) (f : Ident → Ident) : (s.onIdent f).svc = s.svc := rfl
@[simp] theorem State.onIdent_ctl (s : State) (f : Ident → Ident) : (s.onIdent f).ctl = s.ctl := rfl
@[simp] theorem State.onIdent_fw (s : State) (f : Ident → Ident) : (s.onIdent f).fw = s.fw := rfl
@[simp] theorem State.onIdent_pwr (s : State) (f : Ident → Ident) : (s.onIdent f).pwr = s.pwr := rfl
@[simp] theorem State.onIdent_heat (s : State) (f : Ident → Ident) : (s.onIdent f).heat = s.heat := rfl
@[simp] theorem State.onIdent_log (s : State) (f : Ident → Ident) : (s.onIdent f).log = s.log := rfl
@[simp] theorem State.onIdent_ident (s : State) (f : Ident → Ident) : (s.onIdent f).ident = f s.ident := rfl
@[simp] theorem State.onIdent_life (s : State) (f : Ident → Ident) : (s.onIdent f).life = s.life := rfl
@[simp] theorem State.onIdent_sent (s : State) (f : Ident → Ident) : (s.onIdent f).sent = s.sent := rfl
@[simp] theorem State.onIdent_reqNo (s : State) (f : Ident → Ident) : (s.onIdent f).reqNo = s.reqNo := rfl

@[simp] theorem State.onSvc_pending (s : State) (f : Service → Service) : (s.onSvc f).pending = s.pending := rfl
@[simp] theorem State.onSvc_free (s : State) (f : Service → Service) : (s.onSvc f).free = s.free := rfl
@[simp] theorem State.onSvc_now (s : State) (f : Service → Service) : (s.onSvc f).now = s.now := rfl
@[simp] theorem State.onSvc_dev (s : State) (f : Service → Service) : (s.onSvc f).dev = s.dev := rfl
@[simp] theorem State.onSvc_mem (s : State) (f : Service → Service) : (s.onSvc f).mem = s.mem := rfl
@[simp] theorem State.onSvc_cores (s : State) (f : Service → Service) : (s.onSvc f).cores = s.cores := rfl
@[simp] theorem State.onSvc_slices (s : State) (f : Service → Service) : (s.onSvc f).slices = s.slices := rfl
@[simp] theorem State.onSvc_outers (s : State) (f : Service → Service) : (s.onSvc f).outers = s.outers := rfl
@[simp] theorem State.onSvc_clusters (s : State) (f : Service → Service) : (s.onSvc f).clusters = s.clusters := rfl
@[simp] theorem State.onSvc_deadDies (s : State) (f : Service → Service) : (s.onSvc f).deadDies = s.deadDies := rfl
@[simp] theorem State.onSvc_work (s : State) (f : Service → Service) : (s.onSvc f).work = s.work := rfl
@[simp] theorem State.onSvc_channels (s : State) (f : Service → Service) : (s.onSvc f).channels = s.channels := rfl
@[simp] theorem State.onSvc_lys (s : State) (f : Service → Service) : (s.onSvc f).lys = s.lys := rfl
@[simp] theorem State.onSvc_net (s : State) (f : Service → Service) : (s.onSvc f).net = s.net := rfl
@[simp] theorem State.onSvc_svc (s : State) (f : Service → Service) : (s.onSvc f).svc = f s.svc := rfl
@[simp] theorem State.onSvc_ctl (s : State) (f : Service → Service) : (s.onSvc f).ctl = s.ctl := rfl
@[simp] theorem State.onSvc_fw (s : State) (f : Service → Service) : (s.onSvc f).fw = s.fw := rfl
@[simp] theorem State.onSvc_pwr (s : State) (f : Service → Service) : (s.onSvc f).pwr = s.pwr := rfl
@[simp] theorem State.onSvc_heat (s : State) (f : Service → Service) : (s.onSvc f).heat = s.heat := rfl
@[simp] theorem State.onSvc_log (s : State) (f : Service → Service) : (s.onSvc f).log = s.log := rfl
@[simp] theorem State.onSvc_ident (s : State) (f : Service → Service) : (s.onSvc f).ident = s.ident := rfl
@[simp] theorem State.onSvc_life (s : State) (f : Service → Service) : (s.onSvc f).life = s.life := rfl
@[simp] theorem State.onSvc_sent (s : State) (f : Service → Service) : (s.onSvc f).sent = s.sent := rfl
@[simp] theorem State.onSvc_reqNo (s : State) (f : Service → Service) : (s.onSvc f).reqNo = s.reqNo := rfl

@[simp] theorem State.onNet_pending (s : State) (f : Net → Net) : (s.onNet f).pending = s.pending := rfl
@[simp] theorem State.onNet_free (s : State) (f : Net → Net) : (s.onNet f).free = s.free := rfl
@[simp] theorem State.onNet_now (s : State) (f : Net → Net) : (s.onNet f).now = s.now := rfl
@[simp] theorem State.onNet_dev (s : State) (f : Net → Net) : (s.onNet f).dev = s.dev := rfl
@[simp] theorem State.onNet_mem (s : State) (f : Net → Net) : (s.onNet f).mem = s.mem := rfl
@[simp] theorem State.onNet_cores (s : State) (f : Net → Net) : (s.onNet f).cores = s.cores := rfl
@[simp] theorem State.onNet_slices (s : State) (f : Net → Net) : (s.onNet f).slices = s.slices := rfl
@[simp] theorem State.onNet_outers (s : State) (f : Net → Net) : (s.onNet f).outers = s.outers := rfl
@[simp] theorem State.onNet_clusters (s : State) (f : Net → Net) : (s.onNet f).clusters = s.clusters := rfl
@[simp] theorem State.onNet_deadDies (s : State) (f : Net → Net) : (s.onNet f).deadDies = s.deadDies := rfl
@[simp] theorem State.onNet_work (s : State) (f : Net → Net) : (s.onNet f).work = s.work := rfl
@[simp] theorem State.onNet_channels (s : State) (f : Net → Net) : (s.onNet f).channels = s.channels := rfl
@[simp] theorem State.onNet_lys (s : State) (f : Net → Net) : (s.onNet f).lys = s.lys := rfl
@[simp] theorem State.onNet_net (s : State) (f : Net → Net) : (s.onNet f).net = f s.net := rfl
@[simp] theorem State.onNet_svc (s : State) (f : Net → Net) : (s.onNet f).svc = s.svc := rfl
@[simp] theorem State.onNet_ctl (s : State) (f : Net → Net) : (s.onNet f).ctl = s.ctl := rfl
@[simp] theorem State.onNet_fw (s : State) (f : Net → Net) : (s.onNet f).fw = s.fw := rfl
@[simp] theorem State.onNet_pwr (s : State) (f : Net → Net) : (s.onNet f).pwr = s.pwr := rfl
@[simp] theorem State.onNet_heat (s : State) (f : Net → Net) : (s.onNet f).heat = s.heat := rfl
@[simp] theorem State.onNet_log (s : State) (f : Net → Net) : (s.onNet f).log = s.log := rfl
@[simp] theorem State.onNet_ident (s : State) (f : Net → Net) : (s.onNet f).ident = s.ident := rfl
@[simp] theorem State.onNet_life (s : State) (f : Net → Net) : (s.onNet f).life = s.life := rfl
@[simp] theorem State.onNet_sent (s : State) (f : Net → Net) : (s.onNet f).sent = s.sent := rfl
@[simp] theorem State.onNet_reqNo (s : State) (f : Net → Net) : (s.onNet f).reqNo = s.reqNo := rfl

@[simp] theorem State.onLys_pending (s : State) (f : Lysdel → Lysdel) : (s.onLys f).pending = s.pending := rfl
@[simp] theorem State.onLys_free (s : State) (f : Lysdel → Lysdel) : (s.onLys f).free = s.free := rfl
@[simp] theorem State.onLys_now (s : State) (f : Lysdel → Lysdel) : (s.onLys f).now = s.now := rfl
@[simp] theorem State.onLys_dev (s : State) (f : Lysdel → Lysdel) : (s.onLys f).dev = s.dev := rfl
@[simp] theorem State.onLys_mem (s : State) (f : Lysdel → Lysdel) : (s.onLys f).mem = s.mem := rfl
@[simp] theorem State.onLys_cores (s : State) (f : Lysdel → Lysdel) : (s.onLys f).cores = s.cores := rfl
@[simp] theorem State.onLys_slices (s : State) (f : Lysdel → Lysdel) : (s.onLys f).slices = s.slices := rfl
@[simp] theorem State.onLys_outers (s : State) (f : Lysdel → Lysdel) : (s.onLys f).outers = s.outers := rfl
@[simp] theorem State.onLys_clusters (s : State) (f : Lysdel → Lysdel) : (s.onLys f).clusters = s.clusters := rfl
@[simp] theorem State.onLys_deadDies (s : State) (f : Lysdel → Lysdel) : (s.onLys f).deadDies = s.deadDies := rfl
@[simp] theorem State.onLys_work (s : State) (f : Lysdel → Lysdel) : (s.onLys f).work = s.work := rfl
@[simp] theorem State.onLys_channels (s : State) (f : Lysdel → Lysdel) : (s.onLys f).channels = s.channels := rfl
@[simp] theorem State.onLys_lys (s : State) (f : Lysdel → Lysdel) : (s.onLys f).lys = f s.lys := rfl
@[simp] theorem State.onLys_net (s : State) (f : Lysdel → Lysdel) : (s.onLys f).net = s.net := rfl
@[simp] theorem State.onLys_svc (s : State) (f : Lysdel → Lysdel) : (s.onLys f).svc = s.svc := rfl
@[simp] theorem State.onLys_ctl (s : State) (f : Lysdel → Lysdel) : (s.onLys f).ctl = s.ctl := rfl
@[simp] theorem State.onLys_fw (s : State) (f : Lysdel → Lysdel) : (s.onLys f).fw = s.fw := rfl
@[simp] theorem State.onLys_pwr (s : State) (f : Lysdel → Lysdel) : (s.onLys f).pwr = s.pwr := rfl
@[simp] theorem State.onLys_heat (s : State) (f : Lysdel → Lysdel) : (s.onLys f).heat = s.heat := rfl
@[simp] theorem State.onLys_log (s : State) (f : Lysdel → Lysdel) : (s.onLys f).log = s.log := rfl
@[simp] theorem State.onLys_ident (s : State) (f : Lysdel → Lysdel) : (s.onLys f).ident = s.ident := rfl
@[simp] theorem State.onLys_life (s : State) (f : Lysdel → Lysdel) : (s.onLys f).life = s.life := rfl
@[simp] theorem State.onLys_sent (s : State) (f : Lysdel → Lysdel) : (s.onLys f).sent = s.sent := rfl
@[simp] theorem State.onLys_reqNo (s : State) (f : Lysdel → Lysdel) : (s.onLys f).reqNo = s.reqNo := rfl

@[simp] theorem State.emit_pending (s : State) (m : Sent) : (s.emit m).pending = s.pending := rfl
@[simp] theorem State.emit_free (s : State) (m : Sent) : (s.emit m).free = s.free := rfl
@[simp] theorem State.emit_now (s : State) (m : Sent) : (s.emit m).now = s.now := rfl
@[simp] theorem State.emit_dev (s : State) (m : Sent) : (s.emit m).dev = s.dev := rfl
@[simp] theorem State.emit_mem (s : State) (m : Sent) : (s.emit m).mem = s.mem := rfl
@[simp] theorem State.emit_cores (s : State) (m : Sent) : (s.emit m).cores = s.cores := rfl
@[simp] theorem State.emit_slices (s : State) (m : Sent) : (s.emit m).slices = s.slices := rfl
@[simp] theorem State.emit_outers (s : State) (m : Sent) : (s.emit m).outers = s.outers := rfl
@[simp] theorem State.emit_clusters (s : State) (m : Sent) : (s.emit m).clusters = s.clusters := rfl
@[simp] theorem State.emit_deadDies (s : State) (m : Sent) : (s.emit m).deadDies = s.deadDies := rfl
@[simp] theorem State.emit_work (s : State) (m : Sent) : (s.emit m).work = s.work := rfl
@[simp] theorem State.emit_channels (s : State) (m : Sent) : (s.emit m).channels = s.channels := rfl
@[simp] theorem State.emit_lys (s : State) (m : Sent) : (s.emit m).lys = s.lys := rfl
@[simp] theorem State.emit_net (s : State) (m : Sent) : (s.emit m).net = s.net := rfl
@[simp] theorem State.emit_svc (s : State) (m : Sent) : (s.emit m).svc = s.svc := rfl
@[simp] theorem State.emit_ctl (s : State) (m : Sent) : (s.emit m).ctl = s.ctl := rfl
@[simp] theorem State.emit_fw (s : State) (m : Sent) : (s.emit m).fw = s.fw := rfl
@[simp] theorem State.emit_pwr (s : State) (m : Sent) : (s.emit m).pwr = s.pwr := rfl
@[simp] theorem State.emit_heat (s : State) (m : Sent) : (s.emit m).heat = s.heat := rfl
@[simp] theorem State.emit_log (s : State) (m : Sent) : (s.emit m).log = s.log := rfl
@[simp] theorem State.emit_ident (s : State) (m : Sent) : (s.emit m).ident = s.ident := rfl
@[simp] theorem State.emit_life (s : State) (m : Sent) : (s.emit m).life = s.life := rfl
@[simp] theorem State.emit_sent (s : State) (m : Sent) : (s.emit m).sent = s.sent ++ [m] := rfl
@[simp] theorem State.emit_reqNo (s : State) (m : Sent) : (s.emit m).reqNo = s.reqNo := rfl

@[simp] theorem State.draw_pending (s : State) : (s.draw).pending = s.pending := rfl
@[simp] theorem State.draw_free (s : State) : (s.draw).free = s.free + 1 := rfl
@[simp] theorem State.draw_now (s : State) : (s.draw).now = s.now := rfl
@[simp] theorem State.draw_dev (s : State) : (s.draw).dev = s.dev := rfl
@[simp] theorem State.draw_mem (s : State) : (s.draw).mem = s.mem := rfl
@[simp] theorem State.draw_cores (s : State) : (s.draw).cores = s.cores := rfl
@[simp] theorem State.draw_slices (s : State) : (s.draw).slices = s.slices := rfl
@[simp] theorem State.draw_outers (s : State) : (s.draw).outers = s.outers := rfl
@[simp] theorem State.draw_clusters (s : State) : (s.draw).clusters = s.clusters := rfl
@[simp] theorem State.draw_deadDies (s : State) : (s.draw).deadDies = s.deadDies := rfl
@[simp] theorem State.draw_work (s : State) : (s.draw).work = s.work := rfl
@[simp] theorem State.draw_channels (s : State) : (s.draw).channels = s.channels := rfl
@[simp] theorem State.draw_lys (s : State) : (s.draw).lys = s.lys := rfl
@[simp] theorem State.draw_net (s : State) : (s.draw).net = s.net := rfl
@[simp] theorem State.draw_svc (s : State) : (s.draw).svc = s.svc := rfl
@[simp] theorem State.draw_ctl (s : State) : (s.draw).ctl = s.ctl := rfl
@[simp] theorem State.draw_fw (s : State) : (s.draw).fw = s.fw := rfl
@[simp] theorem State.draw_pwr (s : State) : (s.draw).pwr = s.pwr := rfl
@[simp] theorem State.draw_heat (s : State) : (s.draw).heat = s.heat := rfl
@[simp] theorem State.draw_log (s : State) : (s.draw).log = s.log := rfl
@[simp] theorem State.draw_ident (s : State) : (s.draw).ident = s.ident := rfl
@[simp] theorem State.draw_life (s : State) : (s.draw).life = s.life := rfl
@[simp] theorem State.draw_sent (s : State) : (s.draw).sent = s.sent := rfl
@[simp] theorem State.draw_reqNo (s : State) : (s.draw).reqNo = s.reqNo := rfl

/-! ### Reading an updated unit -/

theorem lookD_put_self {α : Type} (t : Tab α) (i : Nat) (v d : α) : lookD (put t i v) i d = v := by
  simp [lookD, look_put_same]

theorem put_put {α : Type} (t : Tab α) (i : Nat) (v w : α) : put (put t i v) i w = put t i w := by
  induction t with
  | nil => simp [put]
  | cons p t ih =>
    obtain ⟨k, x⟩ := p
    unfold put
    by_cases h1 : i < k
    · simp [h1, put]
    · by_cases h2 : i = k
      · simp [h2, put]
      · simp [h1, h2, put, ih]

@[simp] theorem State.modCore_core (s : State) (c : Nat) (f : Core → Core) : (s.modCore c f).core c = f (s.core c) :=
  lookD_put_self _ _ _ _
theorem State.modCore_core_ne (s : State) {c x : Nat} (f : Core → Core) (h : x ≠ c) : (s.modCore c f).core x = s.core x :=
  lookD_put_ne _ _ _ h
@[simp] theorem State.modSlice_slice (s : State) (c : Nat) (f : Slice → Slice) : (s.modSlice c f).slice c = f (s.slice c) :=
  lookD_put_self _ _ _ _
theorem State.modSlice_slice_ne (s : State) {c x : Nat} (f : Slice → Slice) (h : x ≠ c) : (s.modSlice c f).slice x = s.slice x :=
  lookD_put_ne _ _ _ h
@[simp] theorem State.modOuter_outer (s : State) (m : Nat) (f : Outer → Outer) : (s.modOuter m f).outer m = f (s.outer m) :=
  lookD_put_self _ _ _ _
theorem State.modOuter_outer_ne (s : State) {m x : Nat} (f : Outer → Outer) (h : x ≠ m) : (s.modOuter m f).outer x = s.outer x :=
  lookD_put_ne _ _ _ h
@[simp] theorem State.modCluster_cluster (s : State) (cd : Nat) (f : Cluster → Cluster) : (s.modCluster cd f).cluster cd = f (s.cluster cd) :=
  lookD_put_self _ _ _ _
theorem State.modCluster_cluster_ne (s : State) {cd x : Nat} (f : Cluster → Cluster) (h : x ≠ cd) : (s.modCluster cd f).cluster x = s.cluster x :=
  lookD_put_ne _ _ _ h
@[simp] theorem State.modLink_linkSt (s : State) (l : Nat) (f : LinkSt → LinkSt) : (s.modLink l f).linkSt l = f (s.linkSt l) :=
  lookD_put_self _ _ _ _
theorem State.modLink_linkSt_ne (s : State) {l x : Nat} (f : LinkSt → LinkSt) (h : x ≠ l) : (s.modLink l f).linkSt x = s.linkSt x :=
  lookD_put_ne _ _ _ h
@[simp] theorem State.modPort_portSt (s : State) (p : Nat) (f : PortSt → PortSt) : (s.modPort p f).portSt p = f (s.portSt p) :=
  lookD_put_self _ _ _ _
theorem State.modPort_portSt_ne (s : State) {p x : Nat} (f : PortSt → PortSt) (h : x ≠ p) : (s.modPort p f).portSt x = s.portSt x :=
  lookD_put_ne _ _ _ h
@[simp] theorem State.modChannel_channel (s : State) (ep i : Nat) (f : Channel → Channel) :
    (s.modChannel ep i f).channel ep i = f (s.channel ep i) := lookD_put_self _ _ _ _
theorem State.modCore_modCore (s : State) (c : Nat) (f g : Core → Core) :
    (s.modCore c f).modCore c g = s.modCore c (fun k => g (f k)) := by
  simp [State.modCore, State.core, put_put]

/-! ### Events and alerts touch the log, the alerts and the life record only -/

@[simp] theorem State.alert_pending (s : State) (b : Nat) : (s.alert b).pending = s.pending := rfl
@[simp] theorem State.alert_free (s : State) (b : Nat) : (s.alert b).free = s.free := rfl
@[simp] theorem State.alert_now (s : State) (b : Nat) : (s.alert b).now = s.now := rfl
@[simp] theorem State.alert_dev (s : State) (b : Nat) : (s.alert b).dev = s.dev := rfl
@[simp] theorem State.alert_mem (s : State) (b : Nat) : (s.alert b).mem = s.mem := rfl
@[simp] theorem State.alert_cores (s : State) (b : Nat) : (s.alert b).cores = s.cores := rfl
@[simp] theorem State.alert_slices (s : State) (b : Nat) : (s.alert b).slices = s.slices := rfl
@[simp] theorem State.alert_outers (s : State) (b : Nat) : (s.alert b).outers = s.outers := rfl
@[simp] theorem State.alert_clusters (s : State) (b : Nat) : (s.alert b).clusters = s.clusters := rfl
@[simp] theorem State.alert_deadDies (s : State) (b : Nat) : (s.alert b).deadDies = s.deadDies := rfl
@[simp] theorem State.alert_work (s : State) (b : Nat) : (s.alert b).work = s.work := rfl
@[simp] theorem State.alert_channels (s : State) (b : Nat) : (s.alert b).channels = s.channels := rfl
@[simp] theorem State.alert_lys (s : State) (b : Nat) : (s.alert b).lys = s.lys := rfl
@[simp] theorem State.alert_net (s : State) (b : Nat) : (s.alert b).net = s.net := rfl
@[simp] theorem State.alert_svc (s : State) (b : Nat) : (s.alert b).svc = s.svc := rfl
@[simp] theorem State.alert_fw (s : State) (b : Nat) : (s.alert b).fw = s.fw := rfl
@[simp] theorem State.alert_pwr (s : State) (b : Nat) : (s.alert b).pwr = s.pwr := rfl
@[simp] theorem State.alert_heat (s : State) (b : Nat) : (s.alert b).heat = s.heat := rfl
@[simp] theorem State.alert_log (s : State) (b : Nat) : (s.alert b).log = s.log := rfl
@[simp] theorem State.alert_ident (s : State) (b : Nat) : (s.alert b).ident = s.ident := rfl
@[simp] theorem State.alert_life (s : State) (b : Nat) : (s.alert b).life = s.life := rfl
@[simp] theorem State.alert_sent (s : State) (b : Nat) : (s.alert b).sent = s.sent := rfl
@[simp] theorem State.alert_reqNo (s : State) (b : Nat) : (s.alert b).reqNo = s.reqNo := rfl
@[simp] theorem State.logRec_pending (s : State) (r : ErrRec) : (s.logRec r).pending = s.pending := by
  unfold State.logRec State.writeRecord; dsimp only; split <;> (try split) <;> rfl
@[simp] theorem State.logRec_free (s : State) (r : ErrRec) : (s.logRec r).free = s.free := by
  unfold State.logRec State.writeRecord; dsimp only; split <;> (try split) <;> rfl
@[simp] theorem State.logRec_now (s : State) (r : ErrRec) : (s.logRec r).now = s.now := by
  unfold State.logRec State.writeRecord; dsimp only; split <;> (try split) <;> rfl
@[simp] theorem State.logRec_dev (s : State) (r : ErrRec) : (s.logRec r).dev = s.dev := by
  unfold State.logRec State.writeRecord; dsimp only; split <;> (try split) <;> rfl
@[simp] theorem State.logRec_mem (s : State) (r : ErrRec) : (s.logRec r).mem = s.mem := by
  unfold State.logRec State.writeRecord; dsimp only; split <;> (try split) <;> rfl
@[simp] theorem State.logRec_cores (s : State) (r : ErrRec) : (s.logRec r).cores = s.cores := by
  unfold State.logRec State.writeRecord; dsimp only; split <;> (try split) <;> rfl
@[simp] theorem State.logRec_slices (s : State) (r : ErrRec) : (s.logRec r).slices = s.slices := by
  unfold State.logRec State.writeRecord; dsimp only; split <;> (try split) <;> rfl
@[simp] theorem State.logRec_outers (s : State) (r : ErrRec) : (s.logRec r).outers = s.outers := by
  unfold State.logRec State.writeRecord; dsimp only; split <;> (try split) <;> rfl
@[simp] theorem State.logRec_clusters (s : State) (r : ErrRec) : (s.logRec r).clusters = s.clusters := by
  unfold State.logRec State.writeRecord; dsimp only; split <;> (try split) <;> rfl
@[simp] theorem State.logRec_deadDies (s : State) (r : ErrRec) : (s.logRec r).deadDies = s.deadDies := by
  unfold State.logRec State.writeRecord; dsimp only; split <;> (try split) <;> rfl
@[simp] theorem State.logRec_work (s : State) (r : ErrRec) : (s.logRec r).work = s.work := by
  unfold State.logRec State.writeRecord; dsimp only; split <;> (try split) <;> rfl
@[simp] theorem State.logRec_channels (s : State) (r : ErrRec) : (s.logRec r).channels = s.channels := by
  unfold State.logRec State.writeRecord; dsimp only; split <;> (try split) <;> rfl
@[simp] theorem State.logRec_lys (s : State) (r : ErrRec) : (s.logRec r).lys = s.lys := by
  unfold State.logRec State.writeRecord; dsimp only; split <;> (try split) <;> rfl
@[simp] theorem State.logRec_net (s : State) (r : ErrRec) : (s.logRec r).net = s.net := by
  unfold State.logRec State.writeRecord; dsimp only; split <;> (try split) <;> rfl
@[simp] theorem State.logRec_svc (s : State) (r : ErrRec) : (s.logRec r).svc = s.svc := by
  unfold State.logRec State.writeRecord; dsimp only; split <;> (try split) <;> rfl
@[simp] theorem State.logRec_fw (s : State) (r : ErrRec) : (s.logRec r).fw = s.fw := by
  unfold State.logRec State.writeRecord; dsimp only; split <;> (try split) <;> rfl
@[simp] theorem State.logRec_pwr (s : State) (r : ErrRec) : (s.logRec r).pwr = s.pwr := by
  unfold State.logRec State.writeRecord; dsimp only; split <;> (try split) <;> rfl
@[simp] theorem State.logRec_heat (s : State) (r : ErrRec) : (s.logRec r).heat = s.heat := by
  unfold State.logRec State.writeRecord; dsimp only; split <;> (try split) <;> rfl
@[simp] theorem State.logRec_ident (s : State) (r : ErrRec) : (s.logRec r).ident = s.ident := by
  unfold State.logRec State.writeRecord; dsimp only; split <;> (try split) <;> rfl
@[simp] theorem State.logRec_life (s : State) (r : ErrRec) : (s.logRec r).life = s.life := by
  unfold State.logRec State.writeRecord; dsimp only; split <;> (try split) <;> rfl
@[simp] theorem State.logRec_sent (s : State) (r : ErrRec) : (s.logRec r).sent = s.sent := by
  unfold State.logRec State.writeRecord; dsimp only; split <;> (try split) <;> rfl
@[simp] theorem State.logRec_reqNo (s : State) (r : ErrRec) : (s.logRec r).reqNo = s.reqNo := by
  unfold State.logRec State.writeRecord; dsimp only; split <;> (try split) <;> rfl
@[simp] theorem State.logEvent_pending (s : State) (e : Ev) (i : EvInfo) : (s.logEvent e i).pending = s.pending := by
  unfold State.logEvent; dsimp only; repeat' split
  all_goals simp
@[simp] theorem State.logEvent_free (s : State) (e : Ev) (i : EvInfo) : (s.logEvent e i).free = s.free := by
  unfold State.logEvent; dsimp only; repeat' split
  all_goals simp
@[simp] theorem State.logEvent_now (s : State) (e : Ev) (i : EvInfo) : (s.logEvent e i).now = s.now := by
  unfold State.logEvent; dsimp only; repeat' split
  all_goals simp
@[simp] theorem State.logEvent_dev (s : State) (e : Ev) (i : EvInfo) : (s.logEvent e i).dev = s.dev := by
  unfold State.logEvent; dsimp only; repeat' split
  all_goals simp
@[simp] theorem State.logEvent_mem (s : State) (e : Ev) (i : EvInfo) : (s.logEvent e i).mem = s.mem := by
  unfold State.logEvent; dsimp only; repeat' split
  all_goals simp
@[simp] theorem State.logEvent_cores (s : State) (e : Ev) (i : EvInfo) : (s.logEvent e i).cores = s.cores := by
  unfold State.logEvent; dsimp only; repeat' split
  all_goals simp
@[simp] theorem State.logEvent_slices (s : State) (e : Ev) (i : EvInfo) : (s.logEvent e i).slices = s.slices := by
  unfold State.logEvent; dsimp only; repeat' split
  all_goals simp
@[simp] theorem State.logEvent_outers (s : State) (e : Ev) (i : EvInfo) : (s.logEvent e i).outers = s.outers := by
  unfold State.logEvent; dsimp only; repeat' split
  all_goals simp
@[simp] theorem State.logEvent_clusters (s : State) (e : Ev) (i : EvInfo) : (s.logEvent e i).clusters = s.clusters := by
  unfold State.logEvent; dsimp only; repeat' split
  all_goals simp
@[simp] theorem State.logEvent_deadDies (s : State) (e : Ev) (i : EvInfo) : (s.logEvent e i).deadDies = s.deadDies := by
  unfold State.logEvent; dsimp only; repeat' split
  all_goals simp
@[simp] theorem State.logEvent_work (s : State) (e : Ev) (i : EvInfo) : (s.logEvent e i).work = s.work := by
  unfold State.logEvent; dsimp only; repeat' split
  all_goals simp
@[simp] theorem State.logEvent_channels (s : State) (e : Ev) (i : EvInfo) : (s.logEvent e i).channels = s.channels := by
  unfold State.logEvent; dsimp only; repeat' split
  all_goals simp
@[simp] theorem State.logEvent_lys (s : State) (e : Ev) (i : EvInfo) : (s.logEvent e i).lys = s.lys := by
  unfold State.logEvent; dsimp only; repeat' split
  all_goals simp
@[simp] theorem State.logEvent_net (s : State) (e : Ev) (i : EvInfo) : (s.logEvent e i).net = s.net := by
  unfold State.logEvent; dsimp only; repeat' split
  all_goals simp
@[simp] theorem State.logEvent_svc (s : State) (e : Ev) (i : EvInfo) : (s.logEvent e i).svc = s.svc := by
  unfold State.logEvent; dsimp only; repeat' split
  all_goals simp
@[simp] theorem State.logEvent_fw (s : State) (e : Ev) (i : EvInfo) : (s.logEvent e i).fw = s.fw := by
  unfold State.logEvent; dsimp only; repeat' split
  all_goals simp
@[simp] theorem State.logEvent_pwr (s : State) (e : Ev) (i : EvInfo) : (s.logEvent e i).pwr = s.pwr := by
  unfold State.logEvent; dsimp only; repeat' split
  all_goals simp
@[simp] theorem State.logEvent_heat (s : State) (e : Ev) (i : EvInfo) : (s.logEvent e i).heat = s.heat := by
  unfold State.logEvent; dsimp only; repeat' split
  all_goals simp
@[simp] theorem State.logEvent_ident (s : State) (e : Ev) (i : EvInfo) : (s.logEvent e i).ident = s.ident := by
  unfold State.logEvent; dsimp only; repeat' split
  all_goals simp
@[simp] theorem State.logEvent_sent (s : State) (e : Ev) (i : EvInfo) : (s.logEvent e i).sent = s.sent := by
  unfold State.logEvent; dsimp only; repeat' split
  all_goals simp
@[simp] theorem State.logEvent_reqNo (s : State) (e : Ev) (i : EvInfo) : (s.logEvent e i).reqNo = s.reqNo := by
  unfold State.logEvent; dsimp only; repeat' split
  all_goals simp

end Sys2Proof.Machine
end

