-- ==== Sys2Proof/Laws/Cores.lean ====
section
/-!
SUPPORT. What fetching one instruction does on a quiet core.
-/

namespace Sys2Proof.Machine

theorem Core.quiet_iff (k : Core) : k.quiet = true ↔
    k.fetching = true ∧ k.ended = false ∧ k.stream = [] ∧ k.hold = .none ∧ (k.qCube = [] ∧ k.qVec = [] ∧ k.qMove = [] ∧
      k.qGather = []) ∧ k.chains = [] ∧ k.watch = [] ∧ k.baraWait = [] := by
  simp [Core.quiet, Core.items, and_assoc]

/-- Reading rows of an operand depends on memory only. -/
theorem State.rawRows_congr {s t : State} (h : t.mem = s.mem) (c : Nat) (o : Opnd) : t.rawRows c o = s.rawRows c o := by
  have hr : t.rawRow c o = s.rawRow c o := by
    funext r; simp only [State.rawRow, State.spRead, State.spMarked, h]
  rw [State.rawRows, hr, State.rawRows]

theorem State.storeRowsAt_eq (s : State) (c : Nat) (o : Opnd) (rows : List (List (Nat × Bool))) :
    s.storeRowsAt c o rows = { s with mem := (s.storeRowsAt c o rows).mem } := by
  unfold State.storeRowsAt
  generalize rows.zipIdx = l
  induction l generalizing s with
  | nil => rfl
  | cons x l ih =>
    simp only [List.foldl_cons]
    rw [ih]
    rfl

theorem State.storeRowsAt_congr {s t : State} (h : t.mem = s.mem) (c : Nat) (o : Opnd) (rows : List (List (Nat × Bool))) :
    (t.storeRowsAt c o rows).mem = (s.storeRowsAt c o rows).mem := by
  unfold State.storeRowsAt
  generalize rows.zipIdx = l
  induction l generalizing s t with
  | nil => exact h
  | cons x l ih =>
    simp only [List.foldl_cons]
    apply ih
    simp [State.storeElems, State.spStore, h]

theorem State.storeElems_eq (s : State) (c : Nat) (o : Opnd) (r : Nat) (xs : List (Nat × Bool)) :
    s.storeElems c o r xs = { s with mem := (s.storeElems c o r xs).mem } := rfl

theorem State.zipAB_congr {s t : State} (h : t.mem = s.mem) (c : Nat) (w : IFields) (f : Nat → Nat → Nat → Nat → Nat) :
    t.zipAB c w f = s.zipAB c w f := by
  unfold State.zipAB
  simp only [State.rawRows_congr h]

/-- A vector instruction changes memory only. -/
theorem State.vecOp_eq (s : State) (c op : Nat) (w : IFields) :
    s.vecOp c op w = { s with mem := (s.vecOp c op w).mem } := by
  unfold State.vecOp
  split <;>
    first
    | rfl
    | (simp only [State.vBinary, State.vFma, State.vCvt, State.vCopy, State.vCmpGt, State.vSpecial, State.vInt, State.vAccAdd,
        State.vRand, State.vUnary]; exact State.storeRowsAt_eq _ _ _ _)

/-- What a vector instruction stores depends on memory and on the core's seed and tile origin only. -/
theorem State.vecOp_congr {s t : State} (h : t.mem = s.mem) (c op : Nat) (w : IFields)
    (h1 : (t.core c).seed = (s.core c).seed) (h2 : (t.core c).tileRow = (s.core c).tileRow)
    (h3 : (t.core c).tileCol = (s.core c).tileCol) : (t.vecOp c op w).mem = (s.vecOp c op w).mem := by
  unfold State.vecOp
  split <;>
    first
    | exact h
    | (simp only [State.vBinary, State.vFma, State.vCvt, State.vCopy, State.vCmpGt, State.vSpecial, State.vInt, State.vAccAdd,
        State.vRand, State.vUnary, State.vReduce, State.zipAB_congr h, State.rawRows_congr h, h1, h2, h3]
       first
       | exact State.storeRowsAt_congr h _ _ _
       | simp [State.storeElems, State.spStore, h])

/-! ### Loop terms outside loops -/

theorem stepAddr_zero (f : Dword) : stepAddr f 0 = f := by
  apply BitVec.eq_of_toNat_eq
  have h := f.isLt
  simp only [stepAddr, ofInt, bits, BitVec.toNat_ofNat]
  omega

theorem stepOrigin_zero (f : Dword) : stepOrigin f 0 = f := by
  apply BitVec.eq_of_toNat_eq
  have h := f.isLt
  simp only [stepOrigin, ofInt, bits, BitVec.toNat_ofNat]
  omega

/-- Outside loops the operands stand as fetched. -/
theorem addTerms_nil (op : Nat) (w : IFields) : addTerms op w [] = w := by
  simp [addTerms, loopSum, stepAddr_zero, stepOrigin_zero]

/-! ### The fetch of one instruction on a quiet core -/

theorem State.modCore_congr {s : State} {c : Nat} {f g : Core → Core} (h : f (s.core c) = g (s.core c)) :
    s.modCore c f = s.modCore c g := by simp only [State.modCore, h]

theorem engineOf_ge {op : Nat} {e : Engine} (h : engineOf op = some e) : 0x20 ≤ op := by
  unfold engineOf at h
  repeat' split at h
  all_goals first | omega | simp at h

/-- The head of a stream that is an engine instruction goes to the tail of its queue while the queue has room (R57). -/
theorem State.dispatchHead_engine {s : State} {c : Nat} {it : SItem} {rest : List SItem} {e : Engine}
    (he : engineOf it.op = some e) (hl : ((s.core c).queue e).length < 32) :
    s.dispatchHead c it rest =
      ((s.modCore c fun k => { k with stream := rest, hold := .none }).enqueue c e it, true) := by
  have h := engineOf_ge he
  unfold State.dispatchHead
  split
  all_goals first | omega | skip
  rename_i hx
  simp only [he]
  rw [if_neg (by omega)]

/-- A quiet core runs an instruction of its cube or vector engine at once. -/
theorem State.enqueue_run {s : State} {c : Nat} {it : SItem} {e : Engine} (hx : e = .cube ∨ e = .vec)
    (hend : (s.core c).ended = false) (hi : (s.core c).items = []) (hw : (s.core c).watch = []) :
    s.enqueue c e it = (s.modCore c fun k => { k with seqNo := k.seqNo + 1, gatesClosed := k.gatesClosed.filter (· != e) }).runXV
      c it.op (addTerms it.op it.w it.iters) it.off (s.core c).seqNo := by
  have hq : (s.core c).qCube = [] ∧ (s.core c).qVec = [] ∧ (s.core c).qMove = [] ∧ (s.core c).qGather = [] := by
    simpa [Core.items, and_assoc] using hi
  obtain ⟨q1, q2, q3, q4⟩ := hq
  rcases hx with rfl | rfl <;>
    (simp [State.enqueue, State.startQueue, Core.queue, Core.setQueue, q1, q2, q3, q4, hend, hw, Core.blocked, Core.items,
      State.judge, State.modCore_modCore]
     congr 1
     exact State.modCore_congr (by simp [q1, q2]))

/-- A core whose stream is empty dispatches nothing. -/
theorem State.pumpN_nil {n : Nat} {s : State} {c : Nat} (h : (s.core c).stream = []) : State.pumpN n s c = s := by
  cases n with
  | zero => rfl
  | succ n =>
    unfold State.pumpN
    simp only [h]
    split
    · rfl
    · split <;> rfl

theorem State.pump_nil {s : State} {c : Nat} (h : (s.core c).stream = []) : s.pump c = s := State.pumpN_nil h

theorem Core.arrive_nil {k : Core} (h : k.baraWait = []) : k.arrive = k := by
  cases k
  simp only at h
  subst h
  simp [Core.arrive]

/-- Running one cube or vector instruction on a quiet core (R57, R58). -/
theorem State.fetch_run {s : State} {c op : Nat} {w : IFields} {e : Engine} (hq : (s.core c).quiet = true)
    (he : engineOf op = some e) (hx : e = .cube ∨ e = .vec)
    (hs : (((s.modCore c (·.issued e)).runXV c op w (s.core c).nextOff (s.core c).seqNo).core c).stream = []) :
    s.fetch c op w =
      .next (((s.modCore c (·.issued e)).runXV c op w (s.core c).nextOff (s.core c).seqNo).modCore c Core.arrive) := by
  obtain ⟨hf, hend, hst, hh, ⟨q1, q2, q3, q4⟩, hch, hw, hb⟩ := (Core.quiet_iff _).1 hq
  have hop := engineOf_ge he
  have hc : streamCost 1 [{ op := op, w := w, off := (s.core c).nextOff }] = 2 := by
    unfold streamCost
    rw [if_neg (by simp only; omega)]
    rfl
  unfold State.fetch
  simp only [hend, hf, Bool.not_true, Bool.or_self, Bool.false_eq_true, if_false]
  unfold State.pump State.completed
  simp only [State.modCore_core, hst, List.nil_append, List.length_singleton, hc]
  have hd : State.pumpN (2 + 1) (s.modCore c fun k =>
      { k with stream := k.stream ++ [{ op := op, w := w, off := k.nextOff }], nextOff := k.nextOff + 1 }) c =
      State.pumpN 2 ((s.modCore c (·.issued e)).runXV c op w (s.core c).nextOff (s.core c).seqNo) c := by
    rw [State.pumpN]
    simp only [State.modCore_core, hend, hf, hh, hst, List.nil_append, Bool.not_true, Bool.or_self, Bool.false_eq_true, if_false]
    rw [State.dispatchHead_engine he (by rcases hx with rfl | rfl <;> simp [Core.queue, q1, q2])]
    simp only
    rw [State.enqueue_run hx (by simp [hend]) (by simp [Core.items, q1, q2, q3, q4]) (by simp [hw])]
    simp only [State.modCore_modCore, State.modCore_core, addTerms_nil]
    rw [State.modCore_congr (g := (·.issued e)) (by cases hk : s.core c; simp_all [Core.issued])]
  rw [hd, State.pumpN_nil hs, State.pump_nil (by simp [Core.arrive, hs])]

/-- A vector instruction on a quiet core: what it stores, and the instruction counted as dispatched. -/
theorem State.fetch_vec {s : State} {c op : Nat} {w : IFields} (hq : (s.core c).quiet = true) (he : engineOf op = some .vec) :
    s.fetch c op w =
      .next { s with mem := (s.vecOp c op w).mem, cores := put s.cores c ((s.core c).issued .vec) } := by
  obtain ⟨hf, hend, hst, hh, ⟨q1, q2, q3, q4⟩, hch, hw, hb⟩ := (Core.quiet_iff _).1 hq
  have hr : (s.modCore c (·.issued .vec)).runXV c op w (s.core c).nextOff (s.core c).seqNo =
      { s with mem := (s.vecOp c op w).mem, cores := put s.cores c ((s.core c).issued .vec) } := by
    unfold State.runXV
    simp only [he]
    rw [State.vecOp_eq, State.vecOp_congr (s := s) (by simp) c op w (by simp [Core.issued]) (by simp [Core.issued])
      (by simp [Core.issued])]
    simp only [State.modCore, State.core, lookD_put_self, put_put]
    congr 2
    have hw' : (lookD s.cores c {}).watch = [] := hw
    cases hk : lookD s.cores c {}
    simp_all [Core.issued, Core.overwrite]
  rw [State.fetch_run hq he (.inr rfl) (by rw [hr]; simp [State.core, lookD_put_self, Core.issued]; exact hst), hr]
  simp only [State.modCore, State.core, lookD_put_self, put_put]
  rw [Core.arrive_nil (by simp only [Core.issued]; exact hb)]

/-- A cube instruction on a quiet core that ends no task. -/
theorem State.fetch_cube {s : State} {c op : Nat} {w : IFields} {t : State} (hq : (s.core c).quiet = true)
    (he : engineOf op = some .cube) (ht : (s.modCore c (·.issued .cube)).cubeOp c op w = .ok t)
    (hk : (t.core c).stream = [] ∧ (t.core c).watch = [] ∧ (t.core c).baraWait = []) {x : Tab Core}
    (hl : t.cores = put x c (t.core c)) :
    s.fetch c op w = .next t := by
  obtain ⟨h1, h2, h3⟩ := hk
  have ho : ∀ l n, (Core.overwrite (t.core c) n l) = t.core c := by
    intro l n
    cases hk : t.core c
    simp_all [Core.overwrite]
  have hself : ∀ f : Core → Core, f (t.core c) = t.core c → t.modCore c f = t := by
    intro f hf
    have hput : put t.cores c (t.core c) = t.cores := by
      generalize t.core c = k at hl
      rw [hl, put_put]
    simp only [State.modCore, hf, hput]
  have hr : (s.modCore c (·.issued .cube)).runXV c op w (s.core c).nextOff (s.core c).seqNo = t := by
    unfold State.runXV
    simp only [he, ht]
    exact hself _ (ho _ _)
  rw [State.fetch_run hq he (.inl rfl) (by rw [hr]; exact h1), hr, hself _ (Core.arrive_nil h3)]

end Sys2Proof.Machine
end

