-- ==== Sys2Proof/Laws/Calm.lean ====
section
/-!
SUPPORT. What the start of a long-running instruction keeps: a core that has nothing left to dispatch and no arrival that
waits stays so, whatever the transfer comes to.
-/

namespace Sys2Proof.Machine

/-- A core with no stream and no arrival that waits. -/
def Core.calm (k : Core) : Prop := k.stream = [] ∧ k.baraWait = []

/-- Core `cc` has nothing to dispatch and no arrival that waits. -/
structure Calm (cc : Nat) (s : State) : Prop where
  core : (s.core cc).calm

/-- `Calm` of the state that an optional state holds, if it holds one. -/
def CalmO (cc : Nat) (o : Option State) : Prop := ∀ t, o = some t → Calm cc t
/-- `Calm` of the state of an optional pair. -/
def CalmOP {α : Type} (cc : Nat) (o : Option (State × α)) : Prop := ∀ t x, o = some (t, x) → Calm cc t
/-- `Calm` of a state that stands on the left. -/
def CalmS {α : Type} (cc : Nat) (o : State ⊕ α) : Prop := ∀ t, o = .inl t → Calm cc t
/-- `Calm` of the next state of an outcome. -/
def CalmR (cc : Nat) (o : Host.Outcome State Fault Refusal) : Prop := ∀ t, o = .next t → Calm cc t

/-- `Calm` of the state of an execution's result. -/
def CalmX (cc : Nat) : XRes → Prop
  | .ok s | .err s _ _ _ => Calm cc s
theorem CalmX.ok {cc : Nat} {s : State} (h : Calm cc s) : CalmX cc (.ok s) := h
theorem CalmX.err {cc : Nat} {s : State} {e : Ev} {n a : Nat} (h : Calm cc s) : CalmX cc (.err s e n a) := h
/-- `Calm` of the state of a transfer's result. -/
def CalmF (cc : Nat) : Xfer → Prop
  | .done s | .hold s _ _ | .err s _ _ _ => Calm cc s
theorem CalmF.hold {cc : Nat} {s : State} {r : Nat} {x : QStatus} (h : Calm cc s) : CalmF cc (.hold s r x) := h
theorem CalmF.err {cc : Nat} {s : State} {e : Ev} {n a : Nat} (h : Calm cc s) : CalmF cc (.err s e n a) := h
/-- `Calm` of the state that the rows of a move come with. -/
def CalmW (cc : Nat) : Plan → Prop
  | .ok s _ _ _ | .ask s _ | .hold s _ | .err s _ _ _ => Calm cc s
theorem CalmW.ok {cc : Nat} {s : State} {r : List (Option Int)} {b : Bool} {t : Tab Word} (h : Calm cc s) : CalmW cc (.ok s r b t) := h
theorem CalmW.ask {cc : Nat} {s : State} {n : Nat} (h : Calm cc s) : CalmW cc (.ask s n) := h
theorem CalmW.hold {cc : Nat} {s : State} {x : QStatus} (h : Calm cc s) : CalmW cc (.hold s x) := h
theorem CalmW.err {cc : Nat} {s : State} {e : Ev} {n a : Nat} (h : Calm cc s) : CalmW cc (.err s e n a) := h
theorem Calm.ite {cc : Nat} {c : Prop} {d : Decidable c} {a b : State} (ha : Calm cc a) (hb : Calm cc b) :
    Calm cc (@ite _ c d a b) := by
  cases d <;> assumption
theorem CalmX.ite {cc : Nat} {c : Prop} {d : Decidable c} {a b : XRes} (ha : CalmX cc a) (hb : CalmX cc b) :
    CalmX cc (@ite _ c d a b) := by
  cases d <;> assumption
theorem CalmF.ite {cc : Nat} {c : Prop} {d : Decidable c} {a b : Xfer} (ha : CalmF cc a) (hb : CalmF cc b) :
    CalmF cc (@ite _ c d a b) := by
  cases d <;> assumption
theorem CalmW.ite {cc : Nat} {c : Prop} {d : Decidable c} {a b : Plan} (ha : CalmW cc a) (hb : CalmW cc b) :
    CalmW cc (@ite _ c d a b) := by
  cases d <;> assumption
theorem Calm.foldl {cc : Nat} {α : Type} {f : State → α → State} {s : State} {l : List α} (h : Calm cc s)
    (hf : ∀ x a, Calm cc x → Calm cc (f x a)) : Calm cc (l.foldl f s) := by
  induction l generalizing s with
  | nil => exact h
  | cons a l ih => exact ih (hf s a h)

theorem Calm.lit {cc : Nat} {s : State} {p a1 a2 a3 a4 a5 a6 a7 a8 a9 a10 a11 a12 a13 a14 a15 a16 a17 a18 a19 a20 a21 a22} :
    Calm cc ⟨p, a1, a2, a3, a4, s.cores, a5, a6, a7, a8, a9, a10, a11, a12, a13, a14, a15, a16, a17, a18, a19, a20, a21, a22⟩ ↔ Calm cc s :=
  ⟨fun h => ⟨h.core⟩, fun h => ⟨h.core⟩⟩

theorem State.modCore_calm {cc : Nat} {s : State} {c : Nat} {f : Core → Core} (h : Calm cc s) (hf : ∀ k : Core, k.calm → (f k).calm) :
    Calm cc (s.modCore c f) := by
  constructor
  by_cases hc : cc = c
  · subst hc; rw [State.modCore_core]; exact hf _ h.core
  · rw [State.modCore_core_ne _ _ hc]; exact h.core
theorem Core.halt_calm (k : Core) : k.halt.boundary.calm := by
  unfold Core.boundary; split <;> exact ⟨rfl, rfl⟩
theorem Core.setQueue_calm {k : Core} (e : Engine) (q : List QItem) (h : k.calm) : (k.setQueue e q).calm := by
  cases e <;> exact h
theorem Core.modItem_calm {k : Core} (e : Engine) (n : Nat) (f : QItem → QItem) (h : k.calm) : (k.modItem e n f).calm :=
  Core.setQueue_calm _ _ h
theorem Core.foldl_calm {α : Type} {f : Core → α → Core} {k : Core} {l : List α} (h : k.calm) (hf : ∀ x a, x.calm → (f x a).calm) :
    (l.foldl f k).calm := by
  induction l generalizing k with
  | nil => exact h
  | cons a l ih => exact ih (hf k a h)

/-! ### What each operation of a transfer keeps -/

theorem State.modOuter_calm {cc : Nat} {s : State} (m : Nat) (f : Outer → Outer) (h : Calm cc s) : Calm cc (State.modOuter s m f) := by
  unfold State.modOuter
  try dsimp only
  repeat' first
    | with_reducible assumption
    | simp only [Calm.lit]

theorem State.overwrite_calm {cc : Nat} {s : State} (m unit : Nat) (h : Calm cc s) : Calm cc (State.overwrite s m unit) := by
  unfold State.overwrite
  try dsimp only
  repeat' first
    | with_reducible assumption
    | with_reducible apply State.modOuter_calm
    | with_reducible apply Calm.ite
    | dsimp only
    | split

theorem State.modItem_calm {cc : Nat} {s : State} (c : Nat) (e0 : Engine) (seq : Nat) (f : QItem → QItem) (h : Calm cc s) : Calm cc (State.modItem s c e0 seq f) := by
  unfold State.modItem
  try dsimp only
  repeat' first
    | (intro k hk; first | exact hk | exact ⟨hk.1, hk.2⟩ | exact Core.halt_calm _ | (exact Core.modItem_calm _ _ _ hk) | (unfold Core.takeOuter; split <;> exact hk) | (unfold Core.halt Core.boundary; split <;> exact ⟨rfl, rfl⟩) | (simp only [Core.calm] at hk ⊢; exact hk))
    | with_reducible assumption
    | with_reducible apply State.modCore_calm

theorem State.modTask_calm {cc : Nat} {s : State} (id : Nat) (f : Task → Task) (h : Calm cc s) : Calm cc (State.modTask s id f) := by
  unfold State.modTask
  try dsimp only
  repeat' first
    | with_reducible assumption
    | simp only [Calm.lit]
    | split

theorem State.onLife_calm {cc : Nat} {s : State} (f : Life → Life) (h : Calm cc s) : Calm cc (State.onLife s f) := by
  unfold State.onLife
  try dsimp only
  repeat' first
    | with_reducible assumption
    | simp only [Calm.lit]

theorem State.onCtl_calm {cc : Nat} {s : State} (f : Ctl → Ctl) (h : Calm cc s) : Calm cc (State.onCtl s f) := by
  unfold State.onCtl
  try dsimp only
  repeat' first
    | with_reducible assumption
    | simp only [Calm.lit]

theorem State.alert_calm {cc : Nat} {s : State} (b : Nat) (h : Calm cc s) : Calm cc (State.alert s b) := by
  unfold State.alert
  try dsimp only
  repeat' first
    | with_reducible assumption
    | with_reducible apply State.onCtl_calm

theorem State.writeRecord_calm {cc : Nat} {s : State} (r : ErrRec) (h : Calm cc s) : Calm cc (State.writeRecord s r) := by
  unfold State.writeRecord
  try dsimp only
  repeat' first
    | with_reducible assumption
    | simp only [Calm.lit]
    | with_reducible apply State.alert_calm
    | with_reducible apply Calm.ite

theorem State.logRec_calm {cc : Nat} {s : State} (r : ErrRec) (h : Calm cc s) : Calm cc (State.logRec s r) := by
  unfold State.logRec
  try dsimp only
  repeat' first
    | with_reducible assumption
    | simp only [Calm.lit]
    | with_reducible apply State.writeRecord_calm
    | with_reducible apply Calm.ite

theorem State.logEvent_calm {cc : Nat} {s : State} (e0 : Ev) (i : EvInfo) (h : Calm cc s) : Calm cc (State.logEvent s e0 i) := by
  unfold State.logEvent
  try dsimp only
  repeat' first
    | with_reducible assumption
    | with_reducible apply State.onLife_calm
    | with_reducible apply State.alert_calm
    | with_reducible apply State.logRec_calm
    | with_reducible apply Calm.ite

theorem State.modCluster_calm {cc : Nat} {s : State} (cd : Nat) (f : Cluster → Cluster) (h : Calm cc s) : Calm cc (State.modCluster s cd f) := by
  unfold State.modCluster
  try dsimp only
  repeat' first
    | with_reducible assumption
    | simp only [Calm.lit]

theorem State.emit_calm {cc : Nat} {s : State} (m : Sent) (h : Calm cc s) : Calm cc (State.emit s m) := by
  unfold State.emit
  try dsimp only
  repeat' first
    | with_reducible assumption
    | simp only [Calm.lit]

theorem State.clusterDone_calm {cc : Nat} {s : State} (cd : Nat) (h : Calm cc s) : Calm cc (State.clusterDone s cd) := by
  unfold State.clusterDone
  try dsimp only
  repeat' first
    | with_reducible assumption
    | with_reducible apply State.modCluster_calm
    | with_reducible apply State.modTask_calm
    | with_reducible apply State.emit_calm
    | with_reducible apply Calm.ite
    | split

theorem State.onWork_calm {cc : Nat} {s : State} (f : Work → Work) (h : Calm cc s) : Calm cc (State.onWork s f) := by
  unfold State.onWork
  try dsimp only
  repeat' first
    | with_reducible assumption
    | simp only [Calm.lit]

theorem State.stopCluster_calm {cc : Nat} {s : State} (cd status : Nat) (h : Calm cc s) : Calm cc (State.stopCluster s cd status) := by
  unfold State.stopCluster
  try dsimp only
  repeat' first
    | (intro k hk; first | exact hk | exact ⟨hk.1, hk.2⟩ | exact Core.halt_calm _ | (exact Core.modItem_calm _ _ _ hk) | (unfold Core.takeOuter; split <;> exact hk) | (unfold Core.halt Core.boundary; split <;> exact ⟨rfl, rfl⟩) | (simp only [Core.calm] at hk ⊢; exact hk))
    | with_reducible assumption
    | with_reducible intro _
    | with_reducible apply State.modCore_calm
    | with_reducible apply State.clusterDone_calm
    | with_reducible apply Calm.foldl
    | with_reducible apply Calm.ite
    | split

theorem State.failShares_calm {cc : Nat} {s : State} (id status : Nat) (h : Calm cc s) : Calm cc (State.failShares s id status) := by
  unfold State.failShares
  repeat' first
    | with_reducible assumption
    | with_reducible intro _
    | with_reducible apply State.emit_calm
    | with_reducible apply State.modTask_calm
    | with_reducible apply Calm.foldl
    | split

theorem State.stopTask_calm {cc : Nat} {s : State} (id status : Nat) (h : Calm cc s) : Calm cc (State.stopTask s id status) := by
  unfold State.stopTask
  try dsimp only
  repeat' first
    | with_reducible assumption
    | with_reducible intro _
    | with_reducible apply State.failShares_calm
    | with_reducible apply State.stopCluster_calm
    | with_reducible apply Calm.foldl

theorem State.doom_calm {cc : Nat} {s : State} (e0 : Nat) (h : Calm cc s) : Calm cc (State.doom s e0) := by
  unfold State.doom
  try dsimp only
  repeat' first
    | with_reducible assumption
    | with_reducible intro _
    | with_reducible apply State.modTask_calm
    | with_reducible apply State.onWork_calm
    | with_reducible apply State.stopTask_calm
    | with_reducible apply Calm.foldl
    | split

theorem State.taskError_calm {cc : Nat} {s : State} (c : Nat) (ev : Ev) (status offset address : Nat) (partner : Nat) (h : Calm cc s) : Calm cc (State.taskError s c ev status offset address partner) := by
  unfold State.taskError
  try dsimp only
  repeat' first
    | (intro k hk; first | exact hk | exact ⟨hk.1, hk.2⟩ | exact Core.halt_calm _ | (exact Core.modItem_calm _ _ _ hk) | (unfold Core.takeOuter; split <;> exact hk) | (unfold Core.halt Core.boundary; split <;> exact ⟨rfl, rfl⟩) | (simp only [Core.calm] at hk ⊢; exact hk))
    | with_reducible assumption
    | with_reducible apply State.modCore_calm
    | with_reducible apply State.modTask_calm
    | with_reducible apply State.logEvent_calm
    | with_reducible apply State.clusterDone_calm
    | with_reducible apply State.doom_calm
    | with_reducible apply Calm.ite
    | split

theorem State.modSlice_calm {cc : Nat} {s : State} (c : Nat) (f : Slice → Slice) (h : Calm cc s) : Calm cc (State.modSlice s c f) := by
  unfold State.modSlice
  try dsimp only
  repeat' first
    | with_reducible assumption
    | simp only [Calm.lit]

theorem State.sliceOutcome_calm {cc : Nat} {s : State} (c unit : Nat) (o : RdOut) (h : Calm cc s) : Calm cc (State.sliceOutcome s c unit o) := by
  unfold State.sliceOutcome
  try dsimp only
  repeat' first
    | with_reducible assumption
    | with_reducible apply State.modSlice_calm
    | with_reducible apply State.logEvent_calm
    | with_reducible apply Calm.ite
    | split

theorem State.readCodeword_calm {cc : Nat} {s : State} (c unit : Nat) (h : Calm cc s) : Calm cc (State.readCodeword s c unit).1 := by
  unfold State.readCodeword
  try dsimp only
  repeat' first
    | with_reducible assumption
    | with_reducible apply State.sliceOutcome_calm
    | split
theorem State.readCodeword_eq_calm {cc : Nat} {s : State} {c unit : Nat} {x : _} {t : State} (h : Calm cc s) (e : State.readCodeword s c unit = (t, x)) : Calm cc t := by
  have h9 := State.readCodeword_calm c unit h
  rw [e] at h9; exact h9

theorem State.readCodewords_calm {cc : Nat} {s : State} (c : Nat) (us : List Nat) (h : Calm cc s) :
    Calm cc (State.readCodewords s c us).1 := by
  induction us generalizing s with
  | nil => exact h
  | cons u t ih => exact ih (State.readCodeword_calm c u h)

theorem State.outerEvent_calm {cc : Nat} {s : State} (m : Nat) (e0 : Ev) (a : Nat) (count : Nat) (h : Calm cc s) : Calm cc (State.outerEvent s m e0 a count) := by
  unfold State.outerEvent
  try dsimp only
  repeat' first
    | with_reducible assumption
    | with_reducible apply State.logEvent_calm

theorem State.reportDie_calm {cc : Nat} {s : State} (m bank a n : Nat) (h : Calm cc s) : Calm cc (State.reportDie s m bank a n) := by
  unfold State.reportDie
  repeat' first
    | with_reducible assumption
    | with_reducible intro _
    | with_reducible apply State.outerEvent_calm
    | with_reducible apply State.modOuter_calm

theorem State.countDie_calm {cc : Nat} {s : State} (m unit n : Nat) (h : Calm cc s) : Calm cc (State.countDie s m unit n) := by
  unfold State.countDie
  try dsimp only
  repeat' first
    | with_reducible assumption
    | simp only [Calm.lit]
    | with_reducible apply State.modOuter_calm
    | with_reducible apply State.reportDie_calm
    | with_reducible apply Calm.ite
    | dsimp only
    | split

theorem State.countOuterUe_calm {cc : Nat} {s : State} (m unit : Nat) (h : Calm cc s) : Calm cc (State.countOuterUe s m unit) := by
  unfold State.countOuterUe
  try dsimp only
  repeat' first
    | with_reducible assumption
    | simp only [Calm.lit]
    | with_reducible apply State.modOuter_calm
    | with_reducible apply State.outerEvent_calm
    | dsimp only
    | split

theorem State.readOuterUnit_calm {cc : Nat} {s : State} (m unit : Nat) (h : Calm cc s) : Calm cc (State.readOuterUnit s m unit).1 := by
  unfold State.readOuterUnit
  try extract_lets
  repeat' first
    | with_reducible assumption
    | with_reducible apply State.countDie_calm
    | with_reducible apply State.countOuterUe_calm
    | with_reducible apply Calm.ite
    | split
    | dsimp +zetaDelta only
theorem State.readOuterUnit_eq_calm {cc : Nat} {s : State} {m unit : Nat} {x : _} {t : State} (h : Calm cc s) (e : State.readOuterUnit s m unit = (t, x)) : Calm cc t := by
  have h9 := State.readOuterUnit_calm m unit h
  rw [e] at h9; exact h9

theorem State.readOuterUnits_calm {cc : Nat} {s : State} (m : Nat) (l : List Nat) (h : Calm cc s) :
    Calm cc (State.readOuterUnits s m l).1 := by
  induction l generalizing s with
  | nil => exact h
  | cons u l ih =>
    unfold State.readOuterUnits
    have h1 := State.readOuterUnit_calm m u h
    generalize s.readOuterUnit m u = x at h1 ⊢
    obtain ⟨s1, b, p⟩ := x
    have h2 := ih h1
    dsimp only at h2 ⊢
    generalize s1.readOuterUnits m l = y at h2 ⊢
    exact h2
theorem State.readOuterUnits_eq_calm {cc : Nat} {s : State} {m : Nat} {l : List Nat} {x : _} {t : State} (h : Calm cc s)
    (e : State.readOuterUnits s m l = (t, x)) : Calm cc t := by
  have h9 := State.readOuterUnits_calm m l h
  rw [e] at h9; exact h9

theorem State.readRange_calm {cc : Nat} {s : State} (a len : Nat) (h : Calm cc s) : Calm cc (State.readRange s a len).1 := by
  unfold State.readRange
  try extract_lets
  repeat' first
    | with_reducible assumption
    | with_reducible apply State.readCodewords_calm
    | with_reducible apply State.readOuterUnits_calm
    | with_reducible apply Calm.ite
    | split
    | dsimp +zetaDelta only
theorem State.readRange_eq_calm {cc : Nat} {s : State} {a len : Nat} {x : _} {t : State} (h : Calm cc s) (e : State.readRange s a len = (t, x)) : Calm cc t := by
  have h9 := State.readRange_calm a len h
  rw [e] at h9; exact h9

theorem State.fetchDesc_calm {cc : Nat} {s : State} (c slot : Nat) (h : Calm cc s) : Calm cc (State.fetchDesc s c slot).1 := by
  unfold State.fetchDesc
  try dsimp only
  repeat' first
    | with_reducible assumption
    | simp only [Calm.lit]
    | with_reducible apply State.readRange_calm
    | with_reducible refine State.readRange_eq_calm ?_ (by with_reducible assumption)
    | with_reducible apply Calm.ite
    | dsimp only
    | split
theorem State.fetchDesc_eq_calm {cc : Nat} {s : State} {c slot : Nat} {x : _} {t : State} (h : Calm cc s) (e : State.fetchDesc s c slot = (t, x)) : Calm cc t := by
  have h9 := State.fetchDesc_calm c slot h
  rw [e] at h9; exact h9

theorem State.readDescs_calm {cc : Nat} {s : State} (c : Nat) (q : QItem) (h : Calm cc s) : Calm cc (State.readDescs s c q).1 := by
  unfold State.readDescs
  try extract_lets
  repeat' first
    | with_reducible assumption
    | simp only [Calm.lit]
    | with_reducible apply State.fetchDesc_calm
    | with_reducible refine State.fetchDesc_eq_calm ?_ (by with_reducible assumption)
    | with_reducible apply Calm.ite
    | split
    | dsimp +zetaDelta only
theorem State.readDescs_eq_calm {cc : Nat} {s : State} {c : Nat} {q : QItem} {x : _} {t : State} (h : Calm cc s) (e : State.readDescs s c q = (t, x)) : Calm cc t := by
  have h9 := State.readDescs_calm c q h
  rw [e] at h9; exact h9

theorem State.draw_calm {cc : Nat} {s : State} (h : Calm cc s) : Calm cc (State.draw s) := by
  unfold State.draw
  try dsimp only
  repeat' first
    | with_reducible assumption
    | simp only [Calm.lit]

theorem State.onMem_calm {cc : Nat} {s : State} {f : Mem → Mem} (h : Calm cc s) : Calm cc (s.onMem f) := ⟨h.core⟩

theorem State.spStore_calm {cc : Nat} {s : State} (c a : Nat) (bs : List Byte) (ps : List Bool) (h : Calm cc s) : Calm cc (State.spStore s c a bs ps) := by
  unfold State.spStore
  try dsimp only
  repeat' first
    | with_reducible assumption
    | with_reducible intro _
    | with_reducible apply State.onMem_calm
    | with_reducible apply Mem.storeRows_wf

theorem State.storeElems_calm {cc : Nat} {s : State} (c : Nat) (o : Opnd) (r : Nat) (xs : List (Nat × Bool)) (h : Calm cc s) : Calm cc (State.storeElems s c o r xs) := by
  unfold State.storeElems
  try dsimp only
  repeat' first
    | with_reducible assumption
    | with_reducible apply State.spStore_calm

theorem State.readEntry_calm {cc : Nat} {s : State} (g : Agent) (q : QItem) (e0 : Nat) (h : Calm cc s) : Calm cc (State.readEntry s g q e0).1 := by
  unfold State.readEntry
  try dsimp only
  repeat' first
    | with_reducible assumption
    | simp only [Calm.lit]
    | with_reducible apply State.readRange_calm
    | with_reducible refine State.readRange_eq_calm ?_ (by with_reducible assumption)
    | with_reducible apply Calm.ite
    | dsimp only
    | split
theorem State.readEntry_eq_calm {cc : Nat} {s : State} {g : Agent} {q : QItem} {e0 : Nat} {x : _} {t : State} (h : Calm cc s) (e : State.readEntry s g q e0 = (t, x)) : Calm cc t := by
  have h9 := State.readEntry_calm g q e0 h
  rw [e] at h9; exact h9

theorem State.walk_calm {cc : Nat} {s : State} (g : Agent) (q : QItem) (last f e p : Nat) (h : Calm cc s) :
    Calm cc (State.walk s g q last f e p).1 := by
  induction f generalizing s e p with
  | zero => exact h
  | succ f ih =>
    unfold State.walk
    dsimp only
    split
    · exact h
    · split <;> rename_i he <;> have h1 := State.readEntry_eq_calm h he <;> try exact h1
      split
      · exact ih _ _ h1
      · exact h1
theorem State.walk_eq_calm {cc : Nat} {s : State} {g : Agent} {q : QItem} {last f e p : Nat} {x : _} {t : State} (h : Calm cc s)
    (e9 : State.walk s g q last f e p = (t, x)) : Calm cc t := by
  have h9 := State.walk_calm g q last f e p h
  rw [e9] at h9; exact h9

theorem State.countBusy_calm {cc : Nat} {s : State} (a : Nat) (x : Ans) (h : Calm cc s) : Calm cc (State.countBusy s a x) := by
  unfold State.countBusy
  try dsimp only
  repeat' first
    | with_reducible assumption
    | with_reducible apply State.modOuter_calm
    | with_reducible apply State.modCluster_calm
    | with_reducible apply Calm.ite
    | split

theorem State.refusedAs_calm {cc : Nat} {s : State} (x : Ans) (a : Nat) (h : Calm cc s) : CalmW cc (State.refusedAs s x a) := by
  unfold State.refusedAs
  try dsimp only
  repeat' first
    | with_reducible assumption
    | with_reducible apply State.countBusy_calm
    | with_reducible apply CalmW.ok
    | with_reducible apply CalmW.ask
    | with_reducible apply CalmW.hold
    | with_reducible apply CalmW.err
    | with_reducible apply CalmW.ite
    | with_reducible apply Calm.ite
    | dsimp only
    | split
theorem State.refusedAs_is_calm {cc : Nat} {s : State} {x : Ans} {a : Nat} {t a1 a2 a3} (h : Calm cc s) (e : State.refusedAs s x a = .ok t a1 a2 a3) : Calm cc t := by
  have h9 := State.refusedAs_calm x a h
  rw [e] at h9; exact h9
theorem State.refusedAs_is_ask_calm {cc : Nat} {s : State} {x : Ans} {a : Nat} {t a1} (h : Calm cc s) (e : State.refusedAs s x a = .ask t a1) : Calm cc t := by
  have h9 := State.refusedAs_calm x a h
  rw [e] at h9; exact h9
theorem State.refusedAs_is_hold_calm {cc : Nat} {s : State} {x : Ans} {a : Nat} {t a1} (h : Calm cc s) (e : State.refusedAs s x a = .hold t a1) : Calm cc t := by
  have h9 := State.refusedAs_calm x a h
  rw [e] at h9; exact h9
theorem State.refusedAs_is_err_calm {cc : Nat} {s : State} {x : Ans} {a : Nat} {t a1 a2 a3} (h : Calm cc s) (e : State.refusedAs s x a = .err t a1 a2 a3) : Calm cc t := by
  have h9 := State.refusedAs_calm x a h
  rw [e] at h9; exact h9

theorem State.planGPage_calm {cc : Nat} {s : State} (c : Nat) (q : QItem) (h : Calm cc s) : CalmW cc (State.planGPage s c q) := by
  unfold State.planGPage
  try extract_lets
  repeat' first
    | (intro k hk; first | exact hk | exact ⟨hk.1, hk.2⟩ | exact Core.halt_calm _ | (exact Core.modItem_calm _ _ _ hk) | (unfold Core.takeOuter; split <;> exact hk) | (unfold Core.halt Core.boundary; split <;> exact ⟨rfl, rfl⟩) | (simp only [Core.calm] at hk ⊢; exact hk))
    | with_reducible assumption
    | with_reducible intro _
    | simp only [Calm.lit]
    | with_reducible apply State.modCore_calm
    | with_reducible apply State.draw_calm
    | with_reducible apply State.storeElems_calm
    | with_reducible apply State.walk_calm
    | with_reducible apply State.refusedAs_calm
    | with_reducible apply CalmW.ok
    | with_reducible apply CalmW.ask
    | with_reducible apply CalmW.hold
    | with_reducible apply CalmW.err
    | with_reducible refine State.refusedAs_is_calm ?_ (by with_reducible assumption)
    | with_reducible refine State.refusedAs_is_ask_calm ?_ (by with_reducible assumption)
    | with_reducible refine State.refusedAs_is_hold_calm ?_ (by with_reducible assumption)
    | with_reducible refine State.refusedAs_is_err_calm ?_ (by with_reducible assumption)
    | with_reducible apply CalmO.map
    | with_reducible apply CalmO.foldlBind
    | with_reducible apply CalmO.bind
    | with_reducible apply CalmO.none
    | with_reducible apply CalmO.some
    | with_reducible apply Calm.foldl
    | with_reducible apply Calm.foldlP
    | with_reducible apply CalmW.ite
    | with_reducible apply Calm.ite
    | with_reducible refine CalmO.elim ?_ (by with_reducible assumption)
    | with_reducible refine CalmOP.elim ?_ (by with_reducible assumption)
    | with_reducible refine Calm.pairElim ?_ (by with_reducible assumption)
    | split
    | dsimp +zetaDelta only
theorem State.planGPage_is_calm {cc : Nat} {s : State} {c : Nat} {q : QItem} {t a1 a2 a3} (h : Calm cc s) (e : State.planGPage s c q = .ok t a1 a2 a3) : Calm cc t := by
  have h9 := State.planGPage_calm c q h
  rw [e] at h9; exact h9
theorem State.planGPage_is_ask_calm {cc : Nat} {s : State} {c : Nat} {q : QItem} {t a1} (h : Calm cc s) (e : State.planGPage s c q = .ask t a1) : Calm cc t := by
  have h9 := State.planGPage_calm c q h
  rw [e] at h9; exact h9
theorem State.planGPage_is_hold_calm {cc : Nat} {s : State} {c : Nat} {q : QItem} {t a1} (h : Calm cc s) (e : State.planGPage s c q = .hold t a1) : Calm cc t := by
  have h9 := State.planGPage_calm c q h
  rw [e] at h9; exact h9
theorem State.planGPage_is_err_calm {cc : Nat} {s : State} {c : Nat} {q : QItem} {t a1 a2 a3} (h : Calm cc s) (e : State.planGPage s c q = .err t a1 a2 a3) : Calm cc t := by
  have h9 := State.planGPage_calm c q h
  rw [e] at h9; exact h9

theorem State.planRows_calm {cc : Nat} {s : State} (c : Nat) (q : QItem) (h : Calm cc s) : CalmW cc (State.planRows s c q) := by
  unfold State.planRows
  try dsimp only
  repeat' first
    | with_reducible assumption
    | simp only [Calm.lit]
    | with_reducible apply State.planGPage_calm
    | with_reducible apply CalmW.ok
    | with_reducible apply CalmW.ask
    | with_reducible apply CalmW.hold
    | with_reducible apply CalmW.err
    | with_reducible refine State.planGPage_is_calm ?_ (by with_reducible assumption)
    | with_reducible refine State.planGPage_is_ask_calm ?_ (by with_reducible assumption)
    | with_reducible refine State.planGPage_is_hold_calm ?_ (by with_reducible assumption)
    | with_reducible refine State.planGPage_is_err_calm ?_ (by with_reducible assumption)
    | with_reducible apply CalmW.ite
    | with_reducible apply Calm.ite
    | dsimp only
    | split
theorem State.planRows_is_calm {cc : Nat} {s : State} {c : Nat} {q : QItem} {t a1 a2 a3} (h : Calm cc s) (e : State.planRows s c q = .ok t a1 a2 a3) : Calm cc t := by
  have h9 := State.planRows_calm c q h
  rw [e] at h9; exact h9
theorem State.planRows_is_ask_calm {cc : Nat} {s : State} {c : Nat} {q : QItem} {t a1} (h : Calm cc s) (e : State.planRows s c q = .ask t a1) : Calm cc t := by
  have h9 := State.planRows_calm c q h
  rw [e] at h9; exact h9
theorem State.planRows_is_hold_calm {cc : Nat} {s : State} {c : Nat} {q : QItem} {t a1} (h : Calm cc s) (e : State.planRows s c q = .hold t a1) : Calm cc t := by
  have h9 := State.planRows_calm c q h
  rw [e] at h9; exact h9
theorem State.planRows_is_err_calm {cc : Nat} {s : State} {c : Nat} {q : QItem} {t a1 a2 a3} (h : Calm cc s) (e : State.planRows s c q = .err t a1 a2 a3) : Calm cc t := by
  have h9 := State.planRows_calm c q h
  rw [e] at h9; exact h9

theorem State.writeUnit_calm {cc : Nat} {s : State} (a : Nat) (bs : List Byte) (p : Bool) (h : Calm cc s) : Calm cc (State.writeUnit s a bs p) := by
  unfold State.writeUnit
  try dsimp only
  repeat' first
    | with_reducible assumption
    | with_reducible intro _
    | simp only [Calm.lit]
    | with_reducible apply State.modSlice_calm
    | with_reducible apply State.onMem_calm
    | with_reducible apply State.readCodeword_calm
    | with_reducible apply State.readOuterUnit_calm
    | with_reducible apply State.overwrite_calm
    | with_reducible refine State.readCodeword_eq_calm ?_ (by with_reducible assumption)
    | with_reducible refine State.readOuterUnit_eq_calm ?_ (by with_reducible assumption)
    | with_reducible apply State.onMem_calm
    | (simp only [Calm.litM]; refine ⟨?_, ?_⟩)
    | with_reducible apply Mem.write_wf
    | with_reducible apply Mem.setMark_wf
    | with_reducible apply Mem.bumpInstar_wf
    | with_reducible apply Mem.clearFlips_wf
    | (simp only [Mem.lit_wf])
    | with_reducible exact Calm.wf (by with_reducible assumption)
    | with_reducible exact Calm.queue (by with_reducible assumption)
    | (exact (rfl : Mem.wf {} = true))
    | with_reducible apply Calm.ite
    | dsimp only
    | split

theorem State.writeUnits_calm {cc : Nat} {s : State} (n a : Nat) (bs : List Byte) (ps : List Bool) (h : Calm cc s) :
    Calm cc (State.writeUnits s n a bs ps) := by
  induction n generalizing s a bs ps with
  | zero => exact h
  | succ n ih =>
    unfold State.writeUnits
    split
    · exact h
    · exact ih _ _ _ (State.writeUnit_calm _ _ _ h)

theorem State.writeRange_calm {cc : Nat} {s : State} (a : Nat) (bs : List Byte) (ps : List Bool) (h : Calm cc s) : Calm cc (State.writeRange s a bs ps) := by
  unfold State.writeRange
  try dsimp only
  repeat' first
    | with_reducible assumption
    | with_reducible apply State.writeUnits_calm

theorem State.probRecord_calm {cc : Nat} {s : State} (m addr status port : Nat) (flags : BitVec 9) (h : Calm cc s) : Calm cc (State.probRecord s m addr status port flags) := by
  unfold State.probRecord
  try dsimp only
  repeat' first
    | with_reducible assumption
    | simp only [Calm.lit]
    | with_reducible apply State.modOuter_calm
    | with_reducible apply State.writeRange_calm
    | with_reducible apply Calm.ite
    | dsimp only
    | split

theorem State.onSvc_calm {cc : Nat} {s : State} (f : Service → Service) (h : Calm cc s) : Calm cc (State.onSvc s f) := by
  unfold State.onSvc
  try dsimp only
  repeat' first
    | with_reducible assumption
    | simp only [Calm.lit]

theorem State.passOp_calm {cc : Nat} {s : State} (epoch w : Nat) (h : Calm cc s) : Calm cc (State.passOp s epoch w) := by
  unfold State.passOp
  try dsimp only
  repeat' first
    | with_reducible assumption
    | simp only [Calm.lit]
    | with_reducible apply State.onSvc_calm
    | with_reducible apply Calm.ite
    | dsimp only
    | split

theorem State.probSubmit_calm {cc : Nat} {s : State} (m port : Nat) (core : Option Nat) (epoch : Nat) (record : List Byte) (poison : Bool) (reply : Option LPacket) (h : Calm cc s) : Calm cc (State.probSubmit s m port core epoch record poison reply).1 := by
  unfold State.probSubmit
  try dsimp only
  repeat' first
    | (intro k hk; first | exact hk | exact ⟨hk.1, hk.2⟩ | exact Core.halt_calm _ | (exact Core.modItem_calm _ _ _ hk) | (unfold Core.takeOuter; split <;> exact hk) | (unfold Core.halt Core.boundary; split <;> exact ⟨rfl, rfl⟩) | (simp only [Core.calm] at hk ⊢; exact hk))
    | with_reducible assumption
    | simp only [Calm.lit]
    | with_reducible apply State.modCore_calm
    | with_reducible apply State.modOuter_calm
    | with_reducible apply State.probRecord_calm
    | with_reducible apply State.passOp_calm
    | with_reducible apply Calm.ite
    | dsimp only
    | split
theorem State.probSubmit_eq_calm {cc : Nat} {s : State} {m port : Nat} {core : Option Nat} {epoch : Nat} {record : List Byte} {poison : Bool} {reply : Option LPacket} {x : _} {t : State} (h : Calm cc s) (e : State.probSubmit s m port core epoch record poison reply = (t, x)) : Calm cc t := by
  have h9 := State.probSubmit_calm m port core epoch record poison reply h
  rw [e] at h9; exact h9

theorem State.noteInstar_calm {cc : Nat} {s : State} (c : Nat) (e0 : Engine) (seq page : Nat) (i : Word) (h : Calm cc s) : Calm cc (State.noteInstar s c e0 seq page i) := by
  unfold State.noteInstar
  try dsimp only
  repeat' first
    | (intro k hk; first | exact hk | exact ⟨hk.1, hk.2⟩ | exact Core.halt_calm _ | (exact Core.modItem_calm _ _ _ hk) | (unfold Core.takeOuter; split <;> exact hk) | (unfold Core.halt Core.boundary; split <;> exact ⟨rfl, rfl⟩) | (simp only [Core.calm] at hk ⊢; exact hk))
    | with_reducible assumption
    | with_reducible apply State.modCore_calm

theorem State.loadRow_calm {cc : Nat} {s : State} (c : Nat) (e0 : Engine) (q : QItem) (r a : Nat) (h : Calm cc s) : Calm cc (State.loadRow s c e0 q r a) := by
  unfold State.loadRow
  try dsimp only
  repeat' first
    | with_reducible assumption
    | with_reducible intro _
    | with_reducible apply State.readRange_calm
    | with_reducible apply State.spStore_calm
    | with_reducible apply State.noteInstar_calm
    | with_reducible apply Calm.foldl

theorem State.storeRowsAt_calm {cc : Nat} {s : State} (c : Nat) (o : Opnd) (rows : List (List (Nat × Bool))) (h : Calm cc s) : Calm cc (State.storeRowsAt s c o rows) := by
  unfold State.storeRowsAt
  try dsimp only
  repeat' first
    | with_reducible assumption
    | with_reducible intro _
    | with_reducible apply State.storeElems_calm
    | with_reducible apply Calm.foldl

theorem State.vBinary_calm {cc : Nat} {s : State} (c : Nat) (w : IFields) (f : Val → Val → Val) (h : Calm cc s) : Calm cc (State.vBinary s c w f) := by
  unfold State.vBinary
  try dsimp only
  repeat' first
    | with_reducible assumption
    | with_reducible apply State.storeRowsAt_calm

theorem State.vFma_calm {cc : Nat} {s : State} (c : Nat) (w : IFields) (h : Calm cc s) : Calm cc (State.vFma s c w) := by
  unfold State.vFma
  try dsimp only
  repeat' first
    | with_reducible assumption
    | with_reducible apply State.storeRowsAt_calm

theorem State.vCmpGt_calm {cc : Nat} {s : State} (c : Nat) (w : IFields) (h : Calm cc s) : Calm cc (State.vCmpGt s c w) := by
  unfold State.vCmpGt
  try dsimp only
  repeat' first
    | with_reducible assumption
    | with_reducible apply State.storeRowsAt_calm

theorem State.vUnary_calm {cc : Nat} {s : State} (c : Nat) (w : IFields) (f : Nat → Nat → Nat → Nat) (h : Calm cc s) : Calm cc (State.vUnary s c w f) := by
  unfold State.vUnary
  try dsimp only
  repeat' first
    | with_reducible assumption
    | with_reducible apply State.storeRowsAt_calm

theorem State.vCvt_calm {cc : Nat} {s : State} (c : Nat) (w : IFields) (h : Calm cc s) : Calm cc (State.vCvt s c w) := by
  unfold State.vCvt
  try dsimp only
  repeat' first
    | with_reducible assumption
    | with_reducible apply State.vUnary_calm

theorem State.vCopy_calm {cc : Nat} {s : State} (c : Nat) (w : IFields) (h : Calm cc s) : Calm cc (State.vCopy s c w) := by
  unfold State.vCopy
  try dsimp only
  repeat' first
    | with_reducible assumption
    | with_reducible apply State.vUnary_calm

theorem State.vSpecial_calm {cc : Nat} {s : State} (c : Nat) (w : IFields) (f : Val → Word) (h : Calm cc s) : Calm cc (State.vSpecial s c w f) := by
  unfold State.vSpecial
  try dsimp only
  repeat' first
    | with_reducible assumption
    | with_reducible apply State.vUnary_calm

theorem State.vReduce_calm {cc : Nat} {s : State} (c : Nat) (w : IFields) (f : List Val → Val) (h : Calm cc s) : Calm cc (State.vReduce s c w f) := by
  unfold State.vReduce
  try dsimp only
  repeat' first
    | with_reducible assumption
    | with_reducible apply State.storeElems_calm

theorem State.vInt_calm {cc : Nat} {s : State} (c : Nat) (w : IFields) (f : Word → Word → Word) (h : Calm cc s) : Calm cc (State.vInt s c w f) := by
  unfold State.vInt
  try dsimp only
  repeat' first
    | with_reducible assumption
    | with_reducible apply State.storeRowsAt_calm

theorem State.vAccAdd_calm {cc : Nat} {s : State} (c : Nat) (w : IFields) (h : Calm cc s) : Calm cc (State.vAccAdd s c w) := by
  unfold State.vAccAdd
  try dsimp only
  repeat' first
    | with_reducible assumption
    | with_reducible apply State.storeRowsAt_calm

theorem State.vRand_calm {cc : Nat} {s : State} (c : Nat) (w : IFields) (h : Calm cc s) : Calm cc (State.vRand s c w) := by
  unfold State.vRand
  try dsimp only
  repeat' first
    | with_reducible assumption
    | with_reducible apply State.storeRowsAt_calm

theorem State.vecOp_calm {cc : Nat} {s : State} (c op : Nat) (w : IFields) (h : Calm cc s) : Calm cc (State.vecOp s c op w) := by
  unfold State.vecOp
  try dsimp only
  repeat' first
    | with_reducible assumption
    | with_reducible apply State.vBinary_calm
    | with_reducible apply State.vFma_calm
    | with_reducible apply State.vCmpGt_calm
    | with_reducible apply State.vCvt_calm
    | with_reducible apply State.vCopy_calm
    | with_reducible apply State.vSpecial_calm
    | with_reducible apply State.vReduce_calm
    | with_reducible apply State.vInt_calm
    | with_reducible apply State.vAccAdd_calm
    | with_reducible apply State.vRand_calm
    | split

theorem State.aclr_calm {cc : Nat} {s : State} (c : Nat) (w : IFields) (h : Calm cc s) : Calm cc (State.aclr s c w) :=
  State.modCore_calm h fun _ hk => Core.foldl_calm hk fun _ _ hx => by split <;> exact hx

theorem State.cmma_calm {cc : Nat} {s : State} (c : Nat) (w : IFields) (h : Calm cc s) : CalmX cc (State.cmma s c w) := by
  unfold State.cmma
  dsimp only
  split
  · exact h
  · exact State.modCore_calm h fun _ hk => Core.foldl_calm hk fun _ _ hx => Core.foldl_calm hx fun _ _ hy => hy

theorem State.ccvt_calm {cc : Nat} {s : State} (c : Nat) (w : IFields) (h : Calm cc s) : Calm cc (State.ccvt s c w) := by
  unfold State.ccvt
  try dsimp only
  repeat' first
    | (intro k hk; first | exact hk | exact ⟨hk.1, hk.2⟩ | exact Core.halt_calm _ | (exact Core.modItem_calm _ _ _ hk) | (unfold Core.takeOuter; split <;> exact hk) | (unfold Core.halt Core.boundary; split <;> exact ⟨rfl, rfl⟩) | (simp only [Core.calm] at hk ⊢; exact hk))
    | with_reducible assumption
    | with_reducible intro _
    | with_reducible apply State.modCore_calm
    | with_reducible apply State.storeElems_calm
    | with_reducible apply Calm.foldl

theorem State.accst_calm {cc : Nat} {s : State} (c : Nat) (w : IFields) (h : Calm cc s) : CalmX cc (State.accst s c w) := by
  unfold State.accst
  try dsimp only
  repeat' first
    | with_reducible assumption
    | with_reducible intro _
    | with_reducible apply State.storeElems_calm
    | with_reducible apply CalmX.ok
    | with_reducible apply CalmX.err
    | with_reducible apply Calm.foldl
    | with_reducible apply CalmX.ite
theorem State.accst_is_calm {cc : Nat} {s : State} {c : Nat} {w : IFields} {t} (h : Calm cc s) (e : State.accst s c w = .ok t) : Calm cc t := by
  have h9 := State.accst_calm c w h
  rw [e] at h9; exact h9
theorem State.accst_is_err_calm {cc : Nat} {s : State} {c : Nat} {w : IFields} {t a1 a2 a3} (h : Calm cc s) (e : State.accst s c w = .err t a1 a2 a3) : Calm cc t := by
  have h9 := State.accst_calm c w h
  rw [e] at h9; exact h9

theorem State.accld_calm {cc : Nat} {s : State} (c : Nat) (w : IFields) (h : Calm cc s) : CalmX cc (State.accld s c w) := by
  unfold State.accld
  dsimp only
  split
  · exact h
  · exact State.modCore_calm h fun _ hk => Core.foldl_calm hk fun _ _ hx => hx

theorem State.cubeOp_calm {cc : Nat} {s : State} (c op : Nat) (w : IFields) (h : Calm cc s) : CalmX cc (State.cubeOp s c op w) := by
  unfold State.cubeOp
  try dsimp only
  repeat' first
    | with_reducible assumption
    | with_reducible apply State.aclr_calm
    | with_reducible apply State.cmma_calm
    | with_reducible apply State.ccvt_calm
    | with_reducible apply State.accst_calm
    | with_reducible apply State.accld_calm
    | with_reducible apply CalmX.ok
    | split
theorem State.cubeOp_is_calm {cc : Nat} {s : State} {c op : Nat} {w : IFields} {t} (h : Calm cc s) (e : State.cubeOp s c op w = .ok t) : Calm cc t := by
  have h9 := State.cubeOp_calm c op w h
  rw [e] at h9; exact h9
theorem State.cubeOp_is_err_calm {cc : Nat} {s : State} {c op : Nat} {w : IFields} {t a1 a2 a3} (h : Calm cc s) (e : State.cubeOp s c op w = .err t a1 a2 a3) : Calm cc t := by
  have h9 := State.cubeOp_calm c op w h
  rw [e] at h9; exact h9

theorem State.runXV_calm {cc : Nat} {s : State} (c op : Nat) (w : IFields) (off seq : Nat) (h : Calm cc s) : Calm cc (State.runXV s c op w off seq) := by
  unfold State.runXV
  try dsimp only
  repeat' first
    | (intro k hk; first | exact hk | exact ⟨hk.1, hk.2⟩ | exact Core.halt_calm _ | (exact Core.modItem_calm _ _ _ hk) | (unfold Core.takeOuter; split <;> exact hk) | (unfold Core.halt Core.boundary; split <;> exact ⟨rfl, rfl⟩) | (simp only [Core.calm] at hk ⊢; exact hk))
    | with_reducible assumption
    | with_reducible apply State.modCore_calm
    | with_reducible apply State.vecOp_calm
    | with_reducible apply State.taskError_calm
    | with_reducible refine State.cubeOp_is_calm ?_ (by with_reducible assumption)
    | with_reducible refine State.cubeOp_is_err_calm ?_ (by with_reducible assumption)
    | split

theorem State.runMembers_calm {cc : Nat} {s : State} (c : Nat) (l : List (Nat × Nat × IFields × Nat)) (h : Calm cc s) :
    Calm cc (State.runMembers s c l) := by
  induction l generalizing s with
  | nil => exact h
  | cons u t ih =>
    unfold State.runMembers
    split
    · exact h
    · refine ih (State.runXV_calm _ _ _ _ _ (State.modCore_calm h fun k hk => ?_))
      split
      · exact Core.setQueue_calm _ _ hk
      · exact hk

theorem State.hitChain_calm {cc : Nat} {s : State} (c : Nat) (units : List Nat) (h : Calm cc s) : Calm cc (State.hitChain s c units) := by
  unfold State.hitChain
  try dsimp only
  repeat' first
    | with_reducible assumption
    | with_reducible apply State.taskError_calm
    | with_reducible apply State.runMembers_calm
    | with_reducible apply Calm.ite
    | split

theorem State.landed_calm {cc : Nat} {s : State} (a len : Nat) (h : Calm cc s) : Calm cc (State.landed s a len) := by
  unfold State.landed
  try dsimp only
  repeat' first
    | (intro k hk; first | exact hk | exact ⟨hk.1, hk.2⟩ | exact Core.halt_calm _ | (exact Core.modItem_calm _ _ _ hk) | (unfold Core.takeOuter; split <;> exact hk) | (unfold Core.halt Core.boundary; split <;> exact ⟨rfl, rfl⟩) | (simp only [Core.calm] at hk ⊢; exact hk))
    | with_reducible assumption
    | with_reducible apply State.modCore_calm
    | with_reducible apply State.overwrite_calm
    | with_reducible apply State.hitChain_calm
    | with_reducible apply Calm.ite
    | dsimp only
    | split

theorem State.storeRow_calm {cc : Nat} {s : State} (c : Nat) (q : QItem) (r a : Nat) (h : Calm cc s) : Calm cc (State.storeRow s c q r a) :=
  State.landed_calm _ _ (State.modCore_calm (State.writeRange_calm _ _ _ h) fun _ hk =>
    have h1 := Core.foldl_calm (f := fun k p => k.carry p _ _) hk fun _ _ hx => hx
    ⟨h1.1, h1.2⟩)

theorem State.moveRows_calm {cc : Nat} {s : State} (c : Nat) (e : Engine) (q : QItem) (r : Nat) (l : List (Nat × Option Int))
    (h : Calm cc s) : CalmF cc (State.moveRows s c e q r l) := by
  induction l generalizing s r with
  | nil => exact h
  | cons u t ih =>
    obtain ⟨i, u⟩ := u
    cases u <;> unfold State.moveRows <;> try dsimp only
    all_goals
      repeat' first
        | with_reducible assumption
        | with_reducible apply ih
        | with_reducible apply CalmF.hold
        | with_reducible apply CalmF.err
        | with_reducible apply State.spStore_calm
        | with_reducible apply State.loadRow_calm
        | with_reducible apply State.storeRow_calm
        | with_reducible apply State.countBusy_calm
        | with_reducible refine State.probSubmit_eq_calm ?_ (by with_reducible assumption)
        | split

theorem State.onLys_calm {cc : Nat} {s : State} (f : Lysdel → Lysdel) (h : Calm cc s) : Calm cc (State.onLys s f) := by
  unfold State.onLys
  try dsimp only
  repeat' first
    | with_reducible assumption
    | simp only [Calm.lit]

theorem State.sendRemote_calm {cc : Nat} {s : State} (c : Nat) (e0 : Engine) (seq dest : Nat) (p : LPacket) (entry : Option Nat) (h : Calm cc s) : Calm cc (State.sendRemote s c e0 seq dest p entry) := by
  unfold State.sendRemote
  try dsimp only
  repeat' first
    | with_reducible assumption
    | simp only [Calm.lit]
    | with_reducible apply State.onLys_calm
    | with_reducible apply State.emit_calm
    | with_reducible apply Calm.ite
    | dsimp only
    | split

theorem State.sendRows_calm {cc : Nat} {s : State} (c : Nat) (e : Engine) (q : QItem) (dev r : Nat) (l : List (Option Int))
    (h : Calm cc s) : CalmF cc (State.sendRows s c e q dev r l) := by
  induction l generalizing s r with
  | nil => exact h
  | cons u t ih =>
    cases u <;> unfold State.sendRows <;> try dsimp only
    all_goals
      repeat' first
    | (intro k hk; first | exact hk | exact ⟨hk.1, hk.2⟩ | exact Core.halt_calm _ | (exact Core.modItem_calm _ _ _ hk) | (unfold Core.takeOuter; split <;> exact hk) | (unfold Core.halt Core.boundary; split <;> exact ⟨rfl, rfl⟩) | (simp only [Core.calm] at hk ⊢; exact hk))
        | with_reducible assumption
        | with_reducible apply ih
        | with_reducible apply CalmF.err
        | with_reducible apply State.spStore_calm
        | with_reducible apply State.modCore_calm
        | with_reducible apply State.sendRemote_calm
        | with_reducible apply Calm.foldl
        | split
        | intro _

theorem State.modPort_calm {cc : Nat} {s : State} (p : Nat) (f : PortSt → PortSt) (h : Calm cc s) : Calm cc (State.modPort s p f) := by
  unfold State.modPort
  try dsimp only
  repeat' first
    | with_reducible assumption
    | simp only [Calm.lit]

theorem State.modQp_calm {cc : Nat} {s : State} (q : Nat) (f : Qp → Qp) (h : Calm cc s) : Calm cc (State.modQp s q f) := by
  unfold State.modQp
  try dsimp only
  repeat' first
    | with_reducible assumption
    | simp only [Calm.lit]
    | split

theorem State.issueRead_calm {cc : Nat} {s : State} (qp : Nat) (r : OutRead) (h : Calm cc s) : Calm cc (State.issueRead s qp r) := by
  unfold State.issueRead
  try dsimp only
  repeat' first
    | with_reducible assumption
    | with_reducible apply State.modPort_calm
    | with_reducible apply State.modQp_calm
    | with_reducible apply State.emit_calm
    | with_reducible apply Calm.ite
    | split

theorem State.hostLoad_calm {cc : Nat} {s : State} (c : Nat) (e : Engine) (q : QItem) (win : Win) (r : Nat) (l : List (Option Int))
    (h : Calm cc s) : CalmF cc (State.hostLoad s c e q win r l) := by
  induction l generalizing s r with
  | nil => exact h
  | cons u t ih =>
    cases u <;> unfold State.hostLoad <;> try dsimp only
    all_goals
      repeat' first
        | with_reducible assumption
        | with_reducible apply ih
        | with_reducible apply CalmF.hold
        | with_reducible apply State.spStore_calm
        | with_reducible apply State.issueRead_calm

theorem State.sendWrite_calm {cc : Nat} {s : State} (qp : Nat) (w : OutWrite) (h : Calm cc s) : Calm cc (State.sendWrite s qp w) := by
  unfold State.sendWrite
  try dsimp only
  repeat' first
    | with_reducible assumption
    | with_reducible apply State.modQp_calm
    | with_reducible apply State.emit_calm

theorem State.hostStore_calm {cc : Nat} {s : State} (c : Nat) (e : Engine) (q : QItem) (win : Win) (r : Nat) (l : List (Option Int))
    (h : Calm cc s) : CalmF cc (State.hostStore s c e q win r l) := by
  induction l generalizing s r with
  | nil => exact h
  | cons u t ih =>
    cases u <;> unfold State.hostStore <;> try dsimp only
    all_goals
      repeat' first
        | with_reducible assumption
        | with_reducible apply ih
        | with_reducible apply CalmF.err
        | with_reducible apply State.sendWrite_calm
        | split

theorem State.transfer_calm {cc : Nat} {s : State} (c : Nat) (e0 : Engine) (q : QItem) (h : Calm cc s) : CalmF cc (State.transfer s c e0 q) := by
  unfold State.transfer
  try extract_lets
  repeat' first
    | with_reducible assumption
    | simp only [Calm.lit]
    | with_reducible apply State.moveRows_calm
    | with_reducible apply State.sendRows_calm
    | with_reducible apply State.hostLoad_calm
    | with_reducible apply State.hostStore_calm
    | with_reducible apply CalmF.done
    | with_reducible apply CalmF.hold
    | with_reducible apply CalmF.err
    | with_reducible apply CalmF.ite
    | with_reducible apply Calm.ite
    | split
    | dsimp +zetaDelta only
theorem State.transfer_is_done_calm {cc : Nat} {s : State} {c : Nat} {e0 : Engine} {q : QItem} {t} (h : Calm cc s) (e : State.transfer s c e0 q = .done t) : Calm cc t := by
  have h9 := State.transfer_calm c e0 q h
  rw [e] at h9; exact h9
theorem State.transfer_is_hold_calm {cc : Nat} {s : State} {c : Nat} {e0 : Engine} {q : QItem} {t a1 a2} (h : Calm cc s) (e : State.transfer s c e0 q = .hold t a1 a2) : Calm cc t := by
  have h9 := State.transfer_calm c e0 q h
  rw [e] at h9; exact h9
theorem State.transfer_is_err_calm {cc : Nat} {s : State} {c : Nat} {e0 : Engine} {q : QItem} {t a1 a2 a3} (h : Calm cc s) (e : State.transfer s c e0 q = .err t a1 a2 a3) : Calm cc t := by
  have h9 := State.transfer_calm c e0 q h
  rw [e] at h9; exact h9

theorem State.moved_calm {cc : Nat} {s : State} (c : Nat) (e0 : Engine) (seq : Nat) (h : Calm cc s) : Calm cc (State.moved s c e0 seq) := by
  unfold State.moved
  try extract_lets
  repeat' first
    | with_reducible assumption
    | simp only [Calm.lit]
    | with_reducible apply State.modItem_calm
    | with_reducible apply State.taskError_calm
    | with_reducible apply State.done_calm
    | with_reducible apply Calm.ite
    | split
    | dsimp +zetaDelta only

theorem State.continueItem_calm {cc : Nat} {s : State} (c : Nat) (e0 : Engine) (seq : Nat) (h : Calm cc s) : Calm cc (State.continueItem s c e0 seq) := by
  unfold State.continueItem
  try dsimp only
  repeat' first
    | with_reducible assumption
    | simp only [Calm.lit]
    | with_reducible apply State.modItem_calm
    | with_reducible apply State.taskError_calm
    | with_reducible apply State.transfer_calm
    | with_reducible apply State.moved_calm
    | with_reducible apply State.done_calm
    | with_reducible refine State.transfer_is_done_calm ?_ (by with_reducible assumption)
    | with_reducible refine State.transfer_is_hold_calm ?_ (by with_reducible assumption)
    | with_reducible refine State.transfer_is_err_calm ?_ (by with_reducible assumption)
    | with_reducible apply Calm.ite
    | dsimp only
    | split

theorem State.askEntry_calm {cc : Nat} {s : State} (c : Nat) (e0 : Engine) (q : QItem) (n : Nat) (h : Calm cc s) : Calm cc (State.askEntry s c e0 q n) := by
  unfold State.askEntry
  try extract_lets
  repeat' first
    | with_reducible assumption
    | simp only [Calm.lit]
    | with_reducible apply State.modItem_calm
    | with_reducible apply State.taskError_calm
    | with_reducible apply State.sendRemote_calm
    | with_reducible apply State.issueRead_calm
    | with_reducible apply Calm.ite
    | split
    | dsimp +zetaDelta only

theorem State.startLong_calm {cc : Nat} {s : State} (c : Nat) (e0 : Engine) (seq : Nat) (h : Calm cc s) : Calm cc (State.startLong s c e0 seq) := by
  unfold State.startLong
  try extract_lets
  repeat' first
    | (intro k hk; first | exact hk | exact ⟨hk.1, hk.2⟩ | exact Core.halt_calm _ | (exact Core.modItem_calm _ _ _ hk) | (unfold Core.takeOuter; split <;> exact hk) | (unfold Core.halt Core.boundary; split <;> exact ⟨rfl, rfl⟩) | (simp only [Core.calm] at hk ⊢; exact hk))
    | with_reducible assumption
    | with_reducible intro _
    | simp only [Calm.lit]
    | with_reducible apply State.modCore_calm
    | with_reducible apply State.overwrite_calm
    | with_reducible apply State.modItem_calm
    | with_reducible apply State.taskError_calm
    | with_reducible apply State.readDescs_calm
    | with_reducible apply State.planRows_calm
    | with_reducible apply State.continueItem_calm
    | with_reducible apply State.askEntry_calm
    | with_reducible refine State.readDescs_eq_calm ?_ (by with_reducible assumption)
    | with_reducible refine State.planRows_is_calm ?_ (by with_reducible assumption)
    | with_reducible refine State.planRows_is_ask_calm ?_ (by with_reducible assumption)
    | with_reducible refine State.planRows_is_hold_calm ?_ (by with_reducible assumption)
    | with_reducible refine State.planRows_is_err_calm ?_ (by with_reducible assumption)
    | with_reducible apply CalmO.map
    | with_reducible apply CalmO.foldlBind
    | with_reducible apply CalmO.bind
    | with_reducible apply CalmO.none
    | with_reducible apply CalmO.some
    | with_reducible apply Calm.foldl
    | with_reducible apply Calm.foldlP
    | with_reducible apply Calm.ite
    | with_reducible refine CalmO.elim ?_ (by with_reducible assumption)
    | with_reducible refine CalmOP.elim ?_ (by with_reducible assumption)
    | with_reducible refine Calm.pairElim ?_ (by with_reducible assumption)
    | split
    | dsimp +zetaDelta only

/-- A long-running instruction is queued on a quiet core and starts. -/
theorem State.enqueue_long {s : State} {c : Nat} {it : SItem} {e : Engine} (hx : e = .move ∨ e = .gather)
    (hend : (s.core c).ended = false) (hi : (s.core c).items = []) (hw : (s.core c).watch = []) (hit : it.iters = []) :
    s.enqueue c e it = (s.modCore c fun k => { k.setQueue e
      [{ op := it.op, w := it.w, off := it.off, status := .scoreboard, seq := k.seqNo }] with seqNo := k.seqNo + 1, gatesClosed := k.gatesClosed.filter (· != e) }).startLong
      c e (s.core c).seqNo := by
  have hq : (s.core c).qCube = [] ∧ (s.core c).qVec = [] ∧ (s.core c).qMove = [] ∧ (s.core c).qGather = [] := by
    simpa [Core.items, and_assoc] using hi
  obtain ⟨q1, q2, q3, q4⟩ := hq
  rcases hx with rfl | rfl <;>
    (simp [State.enqueue, State.startQueue, Core.queue, Core.setQueue, q1, q2, q3, q4, hend, hw, Core.blocked, Core.items,
      State.judge, hit, addTerms_nil]
     congr 1
     exact State.modCore_congr (by simp [q3, q4]))

/-- A long-running instruction fetched by a quiet core is queued and starts at once (R57, R58, R121). -/
theorem State.fetch_long {s : State} {c op : Nat} {w : IFields} {e : Engine} (hq : (s.core c).quiet = true)
    (he : engineOf op = some e) (hx : e = .move ∨ e = .gather) :
    s.fetch c op w = .next ((s.modCore c fun k => (k.issued e).setQueue e
      [{ op := op, w := w, off := k.nextOff, status := .scoreboard, seq := k.seqNo }]).startLong c e (s.core c).seqNo |>.modCore c Core.arrive) := by
  obtain ⟨hf, hend, hst, hh, ⟨q1, q2, q3, q4⟩, hch, hw, hb⟩ := (Core.quiet_iff _).1 hq
  have hop := engineOf_ge he
  have hc : streamCost 1 [{ op := op, w := w, off := (s.core c).nextOff }] = 2 := by
    unfold streamCost
    rw [if_neg (by simp only; omega)]
    rfl
  have hcalm : Calm c ((s.modCore c fun k => (k.issued e).setQueue e
      [{ op := op, w := w, off := k.nextOff, status := .scoreboard, seq := k.seqNo }]).startLong c e (s.core c).seqNo) := by
    apply State.startLong_calm
    constructor
    rw [State.modCore_core]
    rcases hx with rfl | rfl <;> exact ⟨hst, hb⟩
  generalize hT : ((s.modCore c fun k => (k.issued e).setQueue e
      [{ op := op, w := w, off := k.nextOff, status := .scoreboard, seq := k.seqNo }]).startLong c e (s.core c).seqNo) = T at hcalm ⊢
  unfold State.fetch
  simp only [hend, hf, Bool.not_true, Bool.or_self, Bool.false_eq_true, if_false]
  unfold State.pump State.completed
  simp only [State.modCore_core, hst, List.nil_append, List.length_singleton, hc]
  have hd : State.pumpN (2 + 1) (s.modCore c fun k =>
      { k with stream := k.stream ++ [{ op := op, w := w, off := k.nextOff }], nextOff := k.nextOff + 1 }) c = T := by
    rw [State.pumpN]
    simp only [State.modCore_core, hend, hf, hh, hst, List.nil_append, Bool.not_true, Bool.or_self, Bool.false_eq_true, if_false]
    rw [State.dispatchHead_engine he (by rcases hx with rfl | rfl <;> simp [Core.queue, q3, q4])]
    simp only
    rw [State.enqueue_long hx (by simp [hend]) (by simp [Core.items, q1, q2, q3, q4]) (by simp [hw]) rfl]
    simp only [State.modCore_modCore, State.modCore_core]
    rw [State.modCore_congr (g := fun k => (k.issued e).setQueue e
      [{ op := op, w := w, off := k.nextOff, status := .scoreboard, seq := k.seqNo }]) (by rcases hx with rfl | rfl <;> (cases hk : s.core c; simp_all [Core.issued, Core.setQueue])), hT]
    exact State.pumpN_nil hcalm.core.1
  rw [hd]
  rw [State.pump_nil (by rw [State.modCore_core, Core.arrive_nil hcalm.core.2]; exact hcalm.core.1)]


end Sys2Proof.Machine
end

