-- ==== Sys2Proof/Laws/Keep.lean ====
section
/-!
SUPPORT. What every operation and every meaning keeps: the canonical form of memory and the queue of waiting commands.
`Ok ql s` says both of a state; the lemma named after an operation says that it keeps them.
-/

namespace Sys2Proof.Machine

/-- Memory is in canonical form and the queue of waiting commands is `ql`. -/
structure Ok (ql : List Instr) (s : State) : Prop where
  wf : s.mem.wf = true
  queue : s.pending = ql

/-- `Ok` of the state that an optional state holds, if it holds one. -/
def OkO (ql : List Instr) (o : Option State) : Prop := ∀ t, o = some t → Ok ql t
/-- `Ok` of the state of an optional pair. -/
def OkOP {α : Type} (ql : List Instr) (o : Option (State × α)) : Prop := ∀ t x, o = some (t, x) → Ok ql t
/-- `Ok` of a state that stands on the left. -/
def OkS {α : Type} (ql : List Instr) (o : State ⊕ α) : Prop := ∀ t, o = .inl t → Ok ql t
/-- `Ok` of the next state of an outcome. -/
def OkR (ql : List Instr) (o : Host.Outcome State Fault Refusal) : Prop := ∀ t, o = .next t → Ok ql t

/-- `Ok` of the state of an execution's result. -/
def OkX (ql : List Instr) : XRes → Prop
  | .ok s | .err s _ _ _ => Ok ql s
theorem OkX.ok {ql : List Instr} {s : State} (h : Ok ql s) : OkX ql (.ok s) := h
theorem OkX.err {ql : List Instr} {s : State} {e : Ev} {n a : Nat} (h : Ok ql s) : OkX ql (.err s e n a) := h
/-- `Ok` of the state of a transfer's result. -/
def OkF (ql : List Instr) : Xfer → Prop
  | .done s | .hold s _ _ | .err s _ _ _ => Ok ql s
theorem OkF.done {ql : List Instr} {s : State} (h : Ok ql s) : OkF ql (.done s) := h
theorem OkF.hold {ql : List Instr} {s : State} {r : Nat} {x : QStatus} (h : Ok ql s) : OkF ql (.hold s r x) := h
theorem OkF.err {ql : List Instr} {s : State} {e : Ev} {n a : Nat} (h : Ok ql s) : OkF ql (.err s e n a) := h
/-- `Ok` of the state that the rows of a move come with. -/
def OkW (ql : List Instr) : Plan → Prop
  | .ok s _ _ _ | .ask s _ | .hold s _ | .err s _ _ _ => Ok ql s
theorem OkW.ok {ql : List Instr} {s : State} {r : List (Option Int)} {b : Bool} {t : Tab Word} (h : Ok ql s) : OkW ql (.ok s r b t) := h
theorem OkW.ask {ql : List Instr} {s : State} {n : Nat} (h : Ok ql s) : OkW ql (.ask s n) := h
theorem OkW.hold {ql : List Instr} {s : State} {x : QStatus} (h : Ok ql s) : OkW ql (.hold s x) := h
theorem OkW.err {ql : List Instr} {s : State} {e : Ev} {n a : Nat} (h : Ok ql s) : OkW ql (.err s e n a) := h
theorem OkO.none {ql : List Instr} : OkO ql .none := fun _ e => absurd e (by simp)
theorem OkO.some {ql : List Instr} {s : State} (h : Ok ql s) : OkO ql (.some s) :=
  fun _ e => Option.some.inj e ▸ h
theorem Ok.ite {ql : List Instr} {c : Prop} {d : Decidable c} {a b : State} (ha : Ok ql a) (hb : Ok ql b) :
    Ok ql (@ite _ c d a b) := by
  cases d <;> assumption
theorem OkR.ite {ql : List Instr} {c : Prop} {d : Decidable c} {a b : Host.Outcome State Fault Refusal} (ha : OkR ql a) (hb : OkR ql b) :
    OkR ql (@ite _ c d a b) := by
  cases d <;> assumption
theorem OkO.ite {ql : List Instr} {c : Prop} {d : Decidable c} {a b : Option State} (ha : OkO ql a) (hb : OkO ql b) :
    OkO ql (@ite _ c d a b) := by
  cases d <;> assumption
theorem OkX.ite {ql : List Instr} {c : Prop} {d : Decidable c} {a b : XRes} (ha : OkX ql a) (hb : OkX ql b) :
    OkX ql (@ite _ c d a b) := by
  cases d <;> assumption
theorem OkF.ite {ql : List Instr} {c : Prop} {d : Decidable c} {a b : Xfer} (ha : OkF ql a) (hb : OkF ql b) :
    OkF ql (@ite _ c d a b) := by
  cases d <;> assumption
theorem OkW.ite {ql : List Instr} {c : Prop} {d : Decidable c} {a b : Plan} (ha : OkW ql a) (hb : OkW ql b) :
    OkW ql (@ite _ c d a b) := by
  cases d <;> assumption
theorem OkO.elim {ql : List Instr} {o : Option State} {t : State} (h : OkO ql o) (e : o = .some t) : Ok ql t := h t e
theorem OkOP.elim {ql : List Instr} {α : Type} {o : Option (State × α)} {t : State} {x : α} (h : OkOP ql o)
    (e : o = .some (t, x)) : Ok ql t := h t x e
theorem Ok.pairElim {ql : List Instr} {α : Type} {o : State × α} {t : State} {x : α} (h : Ok ql o.1) (e : o = (t, x)) :
    Ok ql t := by rw [e] at h; exact h
theorem OkR.elim {ql : List Instr} {o : Host.Outcome State Fault Refusal} {t : State} (h : OkR ql o) (e : o = .next t) : Ok ql t :=
  h t e
theorem OkO.map {ql : List Instr} {α : Type} {o : Option α} {f : α → State} (h : ∀ a, Ok ql (f a)) : OkO ql (o.map f) := by
  cases o with
  | none => exact OkO.none
  | some a => exact OkO.some (h a)
theorem OkO.bind {ql : List Instr} {o : Option State} {f : State → Option State} (h : OkO ql o)
    (hf : ∀ x, Ok ql x → OkO ql (f x)) : OkO ql (o.bind f) := by
  cases o with
  | none => exact OkO.none
  | some x => exact hf x (h x rfl)
theorem OkO.foldlBind {ql : List Instr} {α : Type} {f : State → α → Option State} {o : Option State} {l : List α} (h : OkO ql o)
    (hf : ∀ x a, Ok ql x → OkO ql (f x a)) : OkO ql (l.foldl (fun o i => o.bind fun s => f s i) o) := by
  induction l generalizing o with
  | nil => exact h
  | cons a l ih =>
    refine ih ?_
    cases o with
    | none => exact OkO.none
    | some x => exact hf x a (h x rfl)
theorem OkO.mapS {ql : List Instr} {o : Option State} {g : State → State} (h : OkO ql o) (hg : ∀ x, Ok ql x → Ok ql (g x)) :
    OkO ql (o.map g) := by
  cases o with
  | none => exact OkO.none
  | some x => exact OkO.some (hg x (h x rfl))
theorem OkO.mapP {ql : List Instr} {α : Type} {o : Option (State × α)} {g : State × α → State} (h : OkOP ql o)
    (hg : ∀ x, Ok ql x.1 → Ok ql (g x)) : OkO ql (o.map g) := by
  cases o with
  | none => exact OkO.none
  | some x => exact OkO.some (hg x (h x.1 x.2 rfl))
theorem OkOP.map {ql : List Instr} {α β : Type} {o : Option (State × α)} {g : State × α → State × β} (h : OkOP ql o)
    (hg : ∀ x, Ok ql x.1 → Ok ql (g x).1) : OkOP ql (o.map g) := by
  cases o with
  | none => exact fun _ _ e => absurd e (by simp)
  | some x => exact fun t y e => by have e : g x = (t, y) := Option.some.inj e; have := hg x (h x.1 x.2 rfl); rw [e] at this; exact this
theorem OkOP.mapS {ql : List Instr} {β : Type} {o : Option State} {g : State → State × β} (h : OkO ql o)
    (hg : ∀ x, Ok ql x → Ok ql (g x).1) : OkOP ql (o.map g) := by
  cases o with
  | none => exact fun _ _ e => absurd e (by simp)
  | some x => exact fun t y e => by have e : g x = (t, y) := Option.some.inj e; have := hg x (h x rfl); rw [e] at this; exact this
theorem OkOP.mapO {ql : List Instr} {α β : Type} {o : Option α} {g : α → State × β} (hg : ∀ x, Ok ql (g x).1) : OkOP ql (o.map g) := by
  cases o with
  | none => exact fun _ _ e => absurd e (by simp)
  | some x => exact fun t y e => by have e : g x = (t, y) := Option.some.inj e; have := hg x; rw [e] at this; exact this
theorem OkOP.bind {ql : List Instr} {α β : Type} {o : Option (State × α)} {g : State × α → Option (State × β)} (h : OkOP ql o)
    (hg : ∀ x, Ok ql x.1 → OkOP ql (g x)) : OkOP ql (o.bind g) := by
  cases o with
  | none => exact fun _ _ e => absurd e (by simp)
  | some x => exact hg x (h x.1 x.2 rfl)
theorem OkOP.foldlBind {ql : List Instr} {α β : Type} {f : State × α → β → Option (State × α)} {o : Option (State × α)} {l : List β}
    (h : OkOP ql o) (hf : ∀ x b, Ok ql x.1 → OkOP ql (f x b)) : OkOP ql (l.foldl (fun o i => o.bind fun x => f x i) o) := by
  induction l generalizing o with
  | nil => exact h
  | cons a l ih =>
    refine ih ?_
    cases o with
    | none => exact fun _ _ e => absurd e (by simp)
    | some x => exact hf x a (h x.1 x.2 rfl)
theorem OkOP.ite {ql : List Instr} {α : Type} {c : Prop} {d : Decidable c} {a b : Option (State × α)} (ha : OkOP ql a) (hb : OkOP ql b) :
    OkOP ql (@ite _ c d a b) := by
  cases d <;> assumption
theorem OkO.getD {ql : List Instr} {o : Option State} {s : State} (h : OkO ql o) (hs : Ok ql s) : Ok ql (o.getD s) := by
  cases o with
  | none => exact hs
  | some x => exact h x rfl
theorem OkOP.none {ql : List Instr} {α : Type} : OkOP (α := α) ql .none :=
  fun _ _ e => absurd e (by simp)
theorem OkOP.some {ql : List Instr} {α : Type} {s : State} {x : α} (h : Ok ql s) : OkOP ql (.some (s, x)) :=
  fun _ _ e => (Prod.mk.inj (Option.some.inj e)).1 ▸ h
theorem OkOP.pair {ql : List Instr} {α : Type} {p : State × α} (h : Ok ql p.1) : OkOP ql (.some p) :=
  fun t x e => by have e : p = (t, x) := Option.some.inj e; rw [e] at h; exact h
theorem OkS.inl {ql : List Instr} {α : Type} {s : State} (h : Ok ql s) : OkS (α := α) ql (.inl s) :=
  fun _ e => Sum.inl.inj e ▸ h
theorem OkS.inr {ql : List Instr} {α : Type} {x : α} : OkS ql (.inr x) :=
  fun _ e => absurd e (by simp)
theorem OkR.next {ql : List Instr} {s : State} (h : Ok ql s) : OkR ql (.next s) :=
  fun _ e => Host.Outcome.next.inj e ▸ h

theorem Ok.lit {ql : List Instr} {s : State} {a1 a2 a3 a4 a5 a6 a7 a8 a9 a10 a11 a12 a13 a14 a15 a16 a17 a18 a19 a20 a21 a22} :
    Ok ql ⟨s.pending, a1, a2, a3, s.mem, a4, a5, a6, a7, a8, a9, a10, a11, a12, a13, a14, a15, a16, a17, a18, a19, a20, a21, a22⟩ ↔ Ok ql s := ⟨fun h => ⟨h.wf, h.queue⟩, fun h => ⟨h.wf, h.queue⟩⟩

theorem Ok.litM {ql : List Instr} {s : State} {m : Mem} {a1 a2 a3 a4 a5 a6 a7 a8 a9 a10 a11 a12 a13 a14 a15 a16 a17 a18 a19 a20 a21 a22} :
    Ok ql ⟨s.pending, a1, a2, a3, m, a4, a5, a6, a7, a8, a9, a10, a11, a12, a13, a14, a15, a16, a17, a18, a19, a20, a21, a22⟩ ↔ m.wf = true ∧ s.pending = ql := ⟨fun h => ⟨h.wf, h.queue⟩, fun h => ⟨h.1, h.2⟩⟩

theorem Ok.foldl {ql : List Instr} {α : Type} {f : State → α → State} {s : State} {l : List α} (h : Ok ql s)
    (hf : ∀ x a, Ok ql x → Ok ql (f x a)) : Ok ql (l.foldl f s) := by
  induction l generalizing s with
  | nil => exact h
  | cons a l ih => exact ih (hf s a h)

theorem Ok.foldlP {ql : List Instr} {α β : Type} {f : State × β → α → State × β} {s : State × β} {l : List α} (h : Ok ql s.1)
    (hf : ∀ x a, Ok ql x.1 → Ok ql (f x a).1) : Ok ql (l.foldl f s).1 := by
  induction l generalizing s with
  | nil => exact h
  | cons a l ih => exact ih (hf s a h)

theorem Mem.lit_wf {m : Mem} {p f i} : (⟨m.cells, p, f, i⟩ : Mem).wf = m.wf := rfl

theorem Mem.foldl_wf {α : Type} {f : Mem → α → Mem} {m : Mem} {l : List α} (h : m.wf = true)
    (hf : ∀ x a, x.wf = true → (f x a).wf = true) : (l.foldl f m).wf = true := by
  induction l generalizing m with
  | nil => exact h
  | cons a l ih => exact ih (hf m a h)

theorem Ok.onMem {ql : List Instr} {s : State} {f : Mem → Mem} (h : Ok ql s) (hf : ∀ m, m.wf = true → (f m).wf = true) :
    Ok ql (s.onMem f) := ⟨hf _ h.wf, h.queue⟩

end Sys2Proof.Machine
end

