-- ==== Sys2Proof/Laws/KeepCores.lean ====
section
/-! SUPPORT. What the operations of the cores, channels, tasks and admission keep: the canonical form of
memory and the queue of waiting commands. -/

namespace Sys2Proof.Machine

/-! ### What Machine/Ops keeps -/

theorem State.modCore_ok {ql : List Instr} {s : State} (c : Nat) (f : Core → Core) (h : Ok ql s) : Ok ql (State.modCore s c f) := by
  unfold State.modCore
  try dsimp only
  repeat' first
    | with_reducible assumption
    | simp only [Ok.lit]

theorem State.modSlice_ok {ql : List Instr} {s : State} (c : Nat) (f : Slice → Slice) (h : Ok ql s) : Ok ql (State.modSlice s c f) := by
  unfold State.modSlice
  try dsimp only
  repeat' first
    | with_reducible assumption
    | simp only [Ok.lit]

theorem State.modOuter_ok {ql : List Instr} {s : State} (m : Nat) (f : Outer → Outer) (h : Ok ql s) : Ok ql (State.modOuter s m f) := by
  unfold State.modOuter
  try dsimp only
  repeat' first
    | with_reducible assumption
    | simp only [Ok.lit]

theorem State.modCluster_ok {ql : List Instr} {s : State} (cd : Nat) (f : Cluster → Cluster) (h : Ok ql s) : Ok ql (State.modCluster s cd f) := by
  unfold State.modCluster
  try dsimp only
  repeat' first
    | with_reducible assumption
    | simp only [Ok.lit]

theorem State.modLink_ok {ql : List Instr} {s : State} (l : Nat) (f : LinkSt → LinkSt) (h : Ok ql s) : Ok ql (State.modLink s l f) := by
  unfold State.modLink
  try dsimp only
  repeat' first
    | with_reducible assumption
    | simp only [Ok.lit]

theorem State.modPort_ok {ql : List Instr} {s : State} (p : Nat) (f : PortSt → PortSt) (h : Ok ql s) : Ok ql (State.modPort s p f) := by
  unfold State.modPort
  try dsimp only
  repeat' first
    | with_reducible assumption
    | simp only [Ok.lit]

theorem State.modQp_ok {ql : List Instr} {s : State} (q : Nat) (f : Qp → Qp) (h : Ok ql s) : Ok ql (State.modQp s q f) := by
  unfold State.modQp
  try dsimp only
  repeat' first
    | with_reducible assumption
    | simp only [Ok.lit]
    | split

theorem State.modChannel_ok {ql : List Instr} {s : State} (ep i : Nat) (f : Channel → Channel) (h : Ok ql s) : Ok ql (State.modChannel s ep i f) := by
  unfold State.modChannel
  try dsimp only
  repeat' first
    | with_reducible assumption
    | simp only [Ok.lit]

theorem State.modTask_ok {ql : List Instr} {s : State} (id : Nat) (f : Task → Task) (h : Ok ql s) : Ok ql (State.modTask s id f) := by
  unfold State.modTask
  try dsimp only
  repeat' first
    | with_reducible assumption
    | simp only [Ok.lit]
    | split

theorem State.onWork_ok {ql : List Instr} {s : State} (f : Work → Work) (h : Ok ql s) : Ok ql (State.onWork s f) := by
  unfold State.onWork
  try dsimp only
  repeat' first
    | with_reducible assumption
    | simp only [Ok.lit]

theorem State.onCtl_ok {ql : List Instr} {s : State} (f : Ctl → Ctl) (h : Ok ql s) : Ok ql (State.onCtl s f) := by
  unfold State.onCtl
  try dsimp only
  repeat' first
    | with_reducible assumption
    | simp only [Ok.lit]

theorem State.onFw_ok {ql : List Instr} {s : State} (f : Fw → Fw) (h : Ok ql s) : Ok ql (State.onFw s f) := by
  unfold State.onFw
  try dsimp only
  repeat' first
    | with_reducible assumption
    | simp only [Ok.lit]

theorem State.onPwr_ok {ql : List Instr} {s : State} (f : Pwr → Pwr) (h : Ok ql s) : Ok ql (State.onPwr s f) := by
  unfold State.onPwr
  try dsimp only
  repeat' first
    | with_reducible assumption
    | simp only [Ok.lit]

theorem State.onHeat_ok {ql : List Instr} {s : State} (f : Heat → Heat) (h : Ok ql s) : Ok ql (State.onHeat s f) := by
  unfold State.onHeat
  try dsimp only
  repeat' first
    | with_reducible assumption
    | simp only [Ok.lit]

theorem State.onLife_ok {ql : List Instr} {s : State} (f : Life → Life) (h : Ok ql s) : Ok ql (State.onLife s f) := by
  unfold State.onLife
  try dsimp only
  repeat' first
    | with_reducible assumption
    | simp only [Ok.lit]

theorem State.onIdent_ok {ql : List Instr} {s : State} (f : Ident → Ident) (h : Ok ql s) : Ok ql (State.onIdent s f) := by
  unfold State.onIdent
  try dsimp only
  repeat' first
    | with_reducible assumption
    | simp only [Ok.lit]

theorem State.onSvc_ok {ql : List Instr} {s : State} (f : Service → Service) (h : Ok ql s) : Ok ql (State.onSvc s f) := by
  unfold State.onSvc
  try dsimp only
  repeat' first
    | with_reducible assumption
    | simp only [Ok.lit]

theorem State.onNet_ok {ql : List Instr} {s : State} (f : Net → Net) (h : Ok ql s) : Ok ql (State.onNet s f) := by
  unfold State.onNet
  try dsimp only
  repeat' first
    | with_reducible assumption
    | simp only [Ok.lit]

theorem State.onLys_ok {ql : List Instr} {s : State} (f : Lysdel → Lysdel) (h : Ok ql s) : Ok ql (State.onLys s f) := by
  unfold State.onLys
  try dsimp only
  repeat' first
    | with_reducible assumption
    | simp only [Ok.lit]

theorem State.emit_ok {ql : List Instr} {s : State} (m : Sent) (h : Ok ql s) : Ok ql (State.emit s m) := by
  unfold State.emit
  try dsimp only
  repeat' first
    | with_reducible assumption
    | simp only [Ok.lit]

theorem State.draw_ok {ql : List Instr} {s : State} (h : Ok ql s) : Ok ql (State.draw s) := by
  unfold State.draw
  try dsimp only
  repeat' first
    | with_reducible assumption
    | simp only [Ok.lit]

theorem State.alert_ok {ql : List Instr} {s : State} (b : Nat) (h : Ok ql s) : Ok ql (State.alert s b) := by
  unfold State.alert
  try dsimp only
  repeat' first
    | with_reducible assumption
    | with_reducible apply State.onCtl_ok

theorem State.writeRecord_ok {ql : List Instr} {s : State} (r : ErrRec) (h : Ok ql s) : Ok ql (State.writeRecord s r) := by
  unfold State.writeRecord
  try dsimp only
  repeat' first
    | with_reducible assumption
    | simp only [Ok.lit]
    | with_reducible apply State.alert_ok
    | with_reducible apply Ok.ite

theorem State.logRec_ok {ql : List Instr} {s : State} (r : ErrRec) (h : Ok ql s) : Ok ql (State.logRec s r) := by
  unfold State.logRec
  try dsimp only
  repeat' first
    | with_reducible assumption
    | simp only [Ok.lit]
    | with_reducible apply State.writeRecord_ok
    | with_reducible apply Ok.ite

theorem State.logEvent_ok {ql : List Instr} {s : State} (e0 : Ev) (i : EvInfo) (h : Ok ql s) : Ok ql (State.logEvent s e0 i) := by
  unfold State.logEvent
  try dsimp only
  repeat' first
    | with_reducible assumption
    | with_reducible apply State.onLife_ok
    | with_reducible apply State.alert_ok
    | with_reducible apply State.logRec_ok
    | with_reducible apply Ok.ite

theorem State.settleSession_ok {ql : List Instr} {s : State} (h : Ok ql s) : Ok ql (State.settleSession s) := by
  unfold State.settleSession
  try dsimp only
  repeat' first
    | with_reducible assumption
    | with_reducible apply State.onIdent_ok
    | with_reducible apply Ok.ite

theorem State.respond_ok {ql : List Instr} {s : State} (h0 : CmdHdr) (op status : Nat) (effect : Bool) (detail : Word) (results : List Byte) (h : Ok ql s) : Ok ql (State.respond s h0 op status effect detail results) := by
  unfold State.respond
  try dsimp only
  repeat' first
    | with_reducible assumption
    | with_reducible apply State.onCtl_ok
    | with_reducible apply State.settleSession_ok
    | with_reducible apply Ok.ite
    | split

/-! ### What Machine/Access keeps -/

theorem State.sliceOutcome_ok {ql : List Instr} {s : State} (c unit : Nat) (o : RdOut) (h : Ok ql s) : Ok ql (State.sliceOutcome s c unit o) := by
  unfold State.sliceOutcome
  try dsimp only
  repeat' first
    | with_reducible assumption
    | with_reducible apply State.modSlice_ok
    | with_reducible apply State.logEvent_ok
    | with_reducible apply Ok.ite
    | split

theorem State.readCodeword_ok {ql : List Instr} {s : State} (c unit : Nat) (h : Ok ql s) : Ok ql (State.readCodeword s c unit).1 := by
  unfold State.readCodeword
  try dsimp only
  repeat' first
    | with_reducible assumption
    | with_reducible apply State.sliceOutcome_ok
    | split
theorem State.readCodeword_eq {ql : List Instr} {s : State} {c unit : Nat} {x : _} {t : State} (h : Ok ql s) (e : State.readCodeword s c unit = (t, x)) : Ok ql t := by
  have h9 := State.readCodeword_ok c unit h
  rw [e] at h9; exact h9

theorem State.readCodewords_ok {ql : List Instr} {s : State} (c : Nat) (us : List Nat) (h : Ok ql s) :
    Ok ql (State.readCodewords s c us).1 := by
  induction us generalizing s with
  | nil => exact h
  | cons u t ih => exact ih (State.readCodeword_ok c u h)

theorem State.outerEvent_ok {ql : List Instr} {s : State} (m : Nat) (e0 : Ev) (a : Nat) (count : Nat) (h : Ok ql s) : Ok ql (State.outerEvent s m e0 a count) := by
  unfold State.outerEvent
  try dsimp only
  repeat' first
    | with_reducible assumption
    | with_reducible apply State.logEvent_ok

theorem State.reportDie_ok {ql : List Instr} {s : State} (m bank a n : Nat) (h : Ok ql s) : Ok ql (State.reportDie s m bank a n) := by
  unfold State.reportDie
  repeat' first
    | with_reducible assumption
    | with_reducible intro _
    | with_reducible apply State.outerEvent_ok
    | with_reducible apply State.modOuter_ok

theorem State.countDie_ok {ql : List Instr} {s : State} (m unit n : Nat) (h : Ok ql s) : Ok ql (State.countDie s m unit n) := by
  unfold State.countDie
  try dsimp only
  repeat' first
    | with_reducible assumption
    | simp only [Ok.lit]
    | with_reducible apply State.modOuter_ok
    | with_reducible apply State.reportDie_ok
    | with_reducible apply Ok.ite
    | dsimp only
    | split

theorem State.countOuterUe_ok {ql : List Instr} {s : State} (m unit : Nat) (h : Ok ql s) : Ok ql (State.countOuterUe s m unit) := by
  unfold State.countOuterUe
  try dsimp only
  repeat' first
    | with_reducible assumption
    | simp only [Ok.lit]
    | with_reducible apply State.modOuter_ok
    | with_reducible apply State.outerEvent_ok
    | dsimp only
    | split

theorem State.readOuterUnit_ok {ql : List Instr} {s : State} (m unit : Nat) (h : Ok ql s) : Ok ql (State.readOuterUnit s m unit).1 := by
  unfold State.readOuterUnit
  try extract_lets
  repeat' first
    | with_reducible assumption
    | with_reducible apply State.countDie_ok
    | with_reducible apply State.countOuterUe_ok
    | with_reducible apply Ok.ite
    | split
    | dsimp +zetaDelta only
theorem State.readOuterUnit_eq {ql : List Instr} {s : State} {m unit : Nat} {x : _} {t : State} (h : Ok ql s) (e : State.readOuterUnit s m unit = (t, x)) : Ok ql t := by
  have h9 := State.readOuterUnit_ok m unit h
  rw [e] at h9; exact h9

theorem State.readOuterUnits_ok {ql : List Instr} {s : State} (m : Nat) (l : List Nat) (h : Ok ql s) :
    Ok ql (State.readOuterUnits s m l).1 := by
  induction l generalizing s with
  | nil => exact h
  | cons u l ih =>
    unfold State.readOuterUnits
    have h1 := State.readOuterUnit_ok m u h
    generalize s.readOuterUnit m u = x at h1 ⊢
    obtain ⟨s1, b, p⟩ := x
    have h2 := ih h1
    dsimp only at h2 ⊢
    generalize s1.readOuterUnits m l = y at h2 ⊢
    exact h2
theorem State.readOuterUnits_eq {ql : List Instr} {s : State} {m : Nat} {l : List Nat} {x : _} {t : State} (h : Ok ql s)
    (e : State.readOuterUnits s m l = (t, x)) : Ok ql t := by
  have h9 := State.readOuterUnits_ok m l h
  rw [e] at h9; exact h9

theorem State.visit_ok {ql : List Instr} {s : State} (a n : Nat) (h : Ok ql s) : Ok ql (State.visit s a n) := by
  unfold State.visit
  try dsimp only
  repeat' first
    | with_reducible assumption
    | with_reducible intro _
    | with_reducible apply State.readCodeword_ok
    | with_reducible apply State.readOuterUnit_ok
    | with_reducible refine State.readCodeword_eq ?_ (by with_reducible assumption)
    | with_reducible refine State.readOuterUnit_eq ?_ (by with_reducible assumption)
    | with_reducible apply OkO.map
    | with_reducible apply OkO.foldlBind
    | with_reducible apply OkO.bind
    | with_reducible apply OkO.none
    | with_reducible apply OkO.some
    | with_reducible apply Ok.foldl
    | with_reducible apply Ok.foldlP
    | with_reducible apply Ok.ite
    | with_reducible refine OkO.elim ?_ (by with_reducible assumption)
    | with_reducible refine OkOP.elim ?_ (by with_reducible assumption)
    | with_reducible refine Ok.pairElim ?_ (by with_reducible assumption)
    | dsimp only
    | split

theorem State.readRange_ok {ql : List Instr} {s : State} (a len : Nat) (h : Ok ql s) : Ok ql (State.readRange s a len).1 := by
  unfold State.readRange
  try extract_lets
  repeat' first
    | with_reducible assumption
    | with_reducible apply State.readCodewords_ok
    | with_reducible apply State.readOuterUnits_ok
    | with_reducible apply Ok.ite
    | split
    | dsimp +zetaDelta only
theorem State.readRange_eq {ql : List Instr} {s : State} {a len : Nat} {x : _} {t : State} (h : Ok ql s) (e : State.readRange s a len = (t, x)) : Ok ql t := by
  have h9 := State.readRange_ok a len h
  rw [e] at h9; exact h9

theorem State.overwrite_ok {ql : List Instr} {s : State} (m unit : Nat) (h : Ok ql s) : Ok ql (State.overwrite s m unit) := by
  unfold State.overwrite
  try dsimp only
  repeat' first
    | with_reducible assumption
    | with_reducible apply State.modOuter_ok
    | with_reducible apply Ok.ite
    | dsimp only
    | split

theorem State.writeUnit_ok {ql : List Instr} {s : State} (a : Nat) (bs : List Byte) (p : Bool) (h : Ok ql s) : Ok ql (State.writeUnit s a bs p) := by
  unfold State.writeUnit
  try dsimp only
  repeat' first
    | with_reducible assumption
    | with_reducible intro _
    | simp only [Ok.lit]
    | with_reducible apply State.modSlice_ok
    | with_reducible apply State.onMem_ok
    | with_reducible apply State.readCodeword_ok
    | with_reducible apply State.readOuterUnit_ok
    | with_reducible apply State.overwrite_ok
    | with_reducible refine State.readCodeword_eq ?_ (by with_reducible assumption)
    | with_reducible refine State.readOuterUnit_eq ?_ (by with_reducible assumption)
    | with_reducible apply Ok.onMem
    | (simp only [Ok.litM]; refine ⟨?_, ?_⟩)
    | with_reducible apply Mem.write_wf
    | with_reducible apply Mem.setMark_wf
    | with_reducible apply Mem.bumpInstar_wf
    | with_reducible apply Mem.clearFlips_wf
    | (simp only [Mem.lit_wf])
    | with_reducible exact Ok.wf (by with_reducible assumption)
    | with_reducible exact Ok.queue (by with_reducible assumption)
    | (exact (rfl : Mem.wf {} = true))
    | with_reducible apply Ok.ite
    | dsimp only
    | split

theorem State.writeUnits_ok {ql : List Instr} {s : State} (n a : Nat) (bs : List Byte) (ps : List Bool) (h : Ok ql s) :
    Ok ql (State.writeUnits s n a bs ps) := by
  induction n generalizing s a bs ps with
  | zero => exact h
  | succ n ih =>
    unfold State.writeUnits
    split
    · exact h
    · exact ih _ _ _ (State.writeUnit_ok _ _ _ h)

theorem State.writeRange_ok {ql : List Instr} {s : State} (a : Nat) (bs : List Byte) (ps : List Bool) (h : Ok ql s) : Ok ql (State.writeRange s a bs ps) := by
  unfold State.writeRange
  try dsimp only
  repeat' first
    | with_reducible assumption
    | with_reducible apply State.writeUnits_ok

theorem State.flushRecords_ok {ql : List Instr} {s : State} (h : Ok ql s) : Ok ql (State.flushRecords s) := by
  unfold State.flushRecords
  try dsimp only
  repeat' first
    | with_reducible assumption
    | with_reducible intro _
    | simp only [Ok.lit]
    | with_reducible apply State.modOuter_ok
    | with_reducible apply State.writeRange_ok
    | with_reducible apply OkO.map
    | with_reducible apply OkO.foldlBind
    | with_reducible apply OkO.bind
    | with_reducible apply OkO.none
    | with_reducible apply OkO.some
    | with_reducible apply Ok.foldl
    | with_reducible apply Ok.foldlP
    | with_reducible apply Ok.ite
    | with_reducible refine OkO.elim ?_ (by with_reducible assumption)
    | with_reducible refine OkOP.elim ?_ (by with_reducible assumption)
    | with_reducible refine Ok.pairElim ?_ (by with_reducible assumption)
    | dsimp only
    | split

theorem State.countBusy_ok {ql : List Instr} {s : State} (a : Nat) (x : Ans) (h : Ok ql s) : Ok ql (State.countBusy s a x) := by
  unfold State.countBusy
  try dsimp only
  repeat' first
    | with_reducible assumption
    | with_reducible apply State.modOuter_ok
    | with_reducible apply State.modCluster_ok
    | with_reducible apply Ok.ite
    | split

theorem State.nakSource_ok {ql : List Instr} {s : State} (p : LPacket) (status : Nat) (h : Ok ql s) : Ok ql (State.nakSource s p status) := by
  unfold State.nakSource
  try dsimp only
  repeat' first
    | with_reducible assumption
    | with_reducible apply State.emit_ok

/-! ### What Machine/Operands keeps -/

theorem State.spStore_ok {ql : List Instr} {s : State} (c a : Nat) (bs : List Byte) (ps : List Bool) (h : Ok ql s) : Ok ql (State.spStore s c a bs ps) := by
  unfold State.spStore
  try dsimp only
  repeat' first
    | with_reducible assumption
    | with_reducible intro _
    | with_reducible apply Ok.onMem
    | with_reducible apply Mem.storeRows_wf

theorem State.storeElems_ok {ql : List Instr} {s : State} (c : Nat) (o : Opnd) (r : Nat) (xs : List (Nat × Bool)) (h : Ok ql s) : Ok ql (State.storeElems s c o r xs) := by
  unfold State.storeElems
  try dsimp only
  repeat' first
    | with_reducible assumption
    | with_reducible apply State.spStore_ok

/-! ### What Machine/Vector keeps -/

theorem State.storeRowsAt_ok {ql : List Instr} {s : State} (c : Nat) (o : Opnd) (rows : List (List (Nat × Bool))) (h : Ok ql s) : Ok ql (State.storeRowsAt s c o rows) := by
  unfold State.storeRowsAt
  try dsimp only
  repeat' first
    | with_reducible assumption
    | with_reducible intro _
    | with_reducible apply State.storeElems_ok
    | with_reducible apply Ok.foldl

theorem State.vBinary_ok {ql : List Instr} {s : State} (c : Nat) (w : IFields) (f : Val → Val → Val) (h : Ok ql s) : Ok ql (State.vBinary s c w f) := by
  unfold State.vBinary
  try dsimp only
  repeat' first
    | with_reducible assumption
    | with_reducible apply State.storeRowsAt_ok

theorem State.vFma_ok {ql : List Instr} {s : State} (c : Nat) (w : IFields) (h : Ok ql s) : Ok ql (State.vFma s c w) := by
  unfold State.vFma
  try dsimp only
  repeat' first
    | with_reducible assumption
    | with_reducible apply State.storeRowsAt_ok

theorem State.vCmpGt_ok {ql : List Instr} {s : State} (c : Nat) (w : IFields) (h : Ok ql s) : Ok ql (State.vCmpGt s c w) := by
  unfold State.vCmpGt
  try dsimp only
  repeat' first
    | with_reducible assumption
    | with_reducible apply State.storeRowsAt_ok

theorem State.vUnary_ok {ql : List Instr} {s : State} (c : Nat) (w : IFields) (f : Nat → Nat → Nat → Nat) (h : Ok ql s) : Ok ql (State.vUnary s c w f) := by
  unfold State.vUnary
  try dsimp only
  repeat' first
    | with_reducible assumption
    | with_reducible apply State.storeRowsAt_ok

theorem State.vCvt_ok {ql : List Instr} {s : State} (c : Nat) (w : IFields) (h : Ok ql s) : Ok ql (State.vCvt s c w) := by
  unfold State.vCvt
  try dsimp only
  repeat' first
    | with_reducible assumption
    | with_reducible apply State.vUnary_ok

theorem State.vCopy_ok {ql : List Instr} {s : State} (c : Nat) (w : IFields) (h : Ok ql s) : Ok ql (State.vCopy s c w) := by
  unfold State.vCopy
  try dsimp only
  repeat' first
    | with_reducible assumption
    | with_reducible apply State.vUnary_ok

theorem State.vSpecial_ok {ql : List Instr} {s : State} (c : Nat) (w : IFields) (f : Val → Word) (h : Ok ql s) : Ok ql (State.vSpecial s c w f) := by
  unfold State.vSpecial
  try dsimp only
  repeat' first
    | with_reducible assumption
    | with_reducible apply State.vUnary_ok

theorem State.vReduce_ok {ql : List Instr} {s : State} (c : Nat) (w : IFields) (f : List Val → Val) (h : Ok ql s) : Ok ql (State.vReduce s c w f) := by
  unfold State.vReduce
  try dsimp only
  repeat' first
    | with_reducible assumption
    | with_reducible apply State.storeElems_ok

theorem State.vInt_ok {ql : List Instr} {s : State} (c : Nat) (w : IFields) (f : Word → Word → Word) (h : Ok ql s) : Ok ql (State.vInt s c w f) := by
  unfold State.vInt
  try dsimp only
  repeat' first
    | with_reducible assumption
    | with_reducible apply State.storeRowsAt_ok

theorem State.vAccAdd_ok {ql : List Instr} {s : State} (c : Nat) (w : IFields) (h : Ok ql s) : Ok ql (State.vAccAdd s c w) := by
  unfold State.vAccAdd
  try dsimp only
  repeat' first
    | with_reducible assumption
    | with_reducible apply State.storeRowsAt_ok

theorem State.vRand_ok {ql : List Instr} {s : State} (c : Nat) (w : IFields) (h : Ok ql s) : Ok ql (State.vRand s c w) := by
  unfold State.vRand
  try dsimp only
  repeat' first
    | with_reducible assumption
    | with_reducible apply State.storeRowsAt_ok

theorem State.vecOp_ok {ql : List Instr} {s : State} (c op : Nat) (w : IFields) (h : Ok ql s) : Ok ql (State.vecOp s c op w) := by
  unfold State.vecOp
  try dsimp only
  repeat' first
    | with_reducible assumption
    | with_reducible apply State.vBinary_ok
    | with_reducible apply State.vFma_ok
    | with_reducible apply State.vCmpGt_ok
    | with_reducible apply State.vCvt_ok
    | with_reducible apply State.vCopy_ok
    | with_reducible apply State.vSpecial_ok
    | with_reducible apply State.vReduce_ok
    | with_reducible apply State.vInt_ok
    | with_reducible apply State.vAccAdd_ok
    | with_reducible apply State.vRand_ok
    | split

/-! ### What Machine/Cube keeps -/

theorem State.aclr_ok {ql : List Instr} {s : State} (c : Nat) (w : IFields) (h : Ok ql s) : Ok ql (State.aclr s c w) := by
  unfold State.aclr
  try dsimp only
  repeat' first
    | with_reducible assumption
    | with_reducible apply State.modCore_ok

theorem State.cmma_ok {ql : List Instr} {s : State} (c : Nat) (w : IFields) (h : Ok ql s) : OkX ql (State.cmma s c w) := by
  unfold State.cmma
  try dsimp only
  repeat' first
    | with_reducible assumption
    | with_reducible apply State.modCore_ok
    | with_reducible apply OkX.ok
    | with_reducible apply OkX.err
    | with_reducible apply OkX.ite
theorem State.cmma_is_ok {ql : List Instr} {s : State} {c : Nat} {w : IFields} {t} (h : Ok ql s) (e : State.cmma s c w = .ok t) : Ok ql t := by
  have h9 := State.cmma_ok c w h
  rw [e] at h9; exact h9
theorem State.cmma_is_err {ql : List Instr} {s : State} {c : Nat} {w : IFields} {t a1 a2 a3} (h : Ok ql s) (e : State.cmma s c w = .err t a1 a2 a3) : Ok ql t := by
  have h9 := State.cmma_ok c w h
  rw [e] at h9; exact h9

theorem State.ccvt_ok {ql : List Instr} {s : State} (c : Nat) (w : IFields) (h : Ok ql s) : Ok ql (State.ccvt s c w) := by
  unfold State.ccvt
  try dsimp only
  repeat' first
    | with_reducible assumption
    | with_reducible intro _
    | with_reducible apply State.modCore_ok
    | with_reducible apply State.storeElems_ok
    | with_reducible apply Ok.foldl

theorem State.accst_ok {ql : List Instr} {s : State} (c : Nat) (w : IFields) (h : Ok ql s) : OkX ql (State.accst s c w) := by
  unfold State.accst
  try dsimp only
  repeat' first
    | with_reducible assumption
    | with_reducible intro _
    | with_reducible apply State.storeElems_ok
    | with_reducible apply OkX.ok
    | with_reducible apply OkX.err
    | with_reducible apply Ok.foldl
    | with_reducible apply OkX.ite
theorem State.accst_is_ok {ql : List Instr} {s : State} {c : Nat} {w : IFields} {t} (h : Ok ql s) (e : State.accst s c w = .ok t) : Ok ql t := by
  have h9 := State.accst_ok c w h
  rw [e] at h9; exact h9
theorem State.accst_is_err {ql : List Instr} {s : State} {c : Nat} {w : IFields} {t a1 a2 a3} (h : Ok ql s) (e : State.accst s c w = .err t a1 a2 a3) : Ok ql t := by
  have h9 := State.accst_ok c w h
  rw [e] at h9; exact h9

theorem State.accld_ok {ql : List Instr} {s : State} (c : Nat) (w : IFields) (h : Ok ql s) : OkX ql (State.accld s c w) := by
  unfold State.accld
  try dsimp only
  repeat' first
    | with_reducible assumption
    | with_reducible apply State.modCore_ok
    | with_reducible apply OkX.ok
    | with_reducible apply OkX.err
    | with_reducible apply OkX.ite
theorem State.accld_is_ok {ql : List Instr} {s : State} {c : Nat} {w : IFields} {t} (h : Ok ql s) (e : State.accld s c w = .ok t) : Ok ql t := by
  have h9 := State.accld_ok c w h
  rw [e] at h9; exact h9
theorem State.accld_is_err {ql : List Instr} {s : State} {c : Nat} {w : IFields} {t a1 a2 a3} (h : Ok ql s) (e : State.accld s c w = .err t a1 a2 a3) : Ok ql t := by
  have h9 := State.accld_ok c w h
  rw [e] at h9; exact h9

theorem State.cubeOp_ok {ql : List Instr} {s : State} (c op : Nat) (w : IFields) (h : Ok ql s) : OkX ql (State.cubeOp s c op w) := by
  unfold State.cubeOp
  try dsimp only
  repeat' first
    | with_reducible assumption
    | with_reducible apply State.aclr_ok
    | with_reducible apply State.cmma_ok
    | with_reducible apply State.ccvt_ok
    | with_reducible apply State.accst_ok
    | with_reducible apply State.accld_ok
    | with_reducible apply OkX.ok
    | split
theorem State.cubeOp_is_ok {ql : List Instr} {s : State} {c op : Nat} {w : IFields} {t} (h : Ok ql s) (e : State.cubeOp s c op w = .ok t) : Ok ql t := by
  have h9 := State.cubeOp_ok c op w h
  rw [e] at h9; exact h9
theorem State.cubeOp_is_err {ql : List Instr} {s : State} {c op : Nat} {w : IFields} {t a1 a2 a3} (h : Ok ql s) (e : State.cubeOp s c op w = .err t a1 a2 a3) : Ok ql t := by
  have h9 := State.cubeOp_ok c op w h
  rw [e] at h9; exact h9

/-! ### What Machine/Channels keeps -/

theorem State.inboxUpdate_ok {ql : List Instr} {s : State} (h : Ok ql s) : Ok ql (State.inboxUpdate s) := by
  unfold State.inboxUpdate
  try dsimp only
  repeat' first
    | with_reducible assumption
    | with_reducible apply State.onPwr_ok

theorem State.onChannel_ok {ql : List Instr} {s : State} (ep i : Nat) (f : Channel → Channel) (h : Ok ql s) : Ok ql (State.onChannel s ep i f) := by
  unfold State.onChannel
  try dsimp only
  repeat' first
    | with_reducible assumption
    | with_reducible apply State.modChannel_ok
    | with_reducible apply State.inboxUpdate_ok

theorem State.abortPackets_ok {ql : List Instr} {s : State} (cd : Nat) (h : Ok ql s) : Ok ql (State.abortPackets s cd) := by
  unfold State.abortPackets
  try dsimp only
  repeat' first
    | with_reducible assumption
    | simp only [Ok.lit]
    | with_reducible apply State.inboxUpdate_ok

theorem State.loseChannels_ok {ql : List Instr} {s : State} (cd : Nat) (h : Ok ql s) : Ok ql (State.loseChannels s cd) := by
  unfold State.loseChannels
  try dsimp only
  repeat' first
    | with_reducible assumption
    | simp only [Ok.lit]

theorem State.loseHubChannels_ok {ql : List Instr} {s : State} (ep : Nat) (h : Ok ql s) : Ok ql (State.loseHubChannels s ep) := by
  unfold State.loseHubChannels
  try dsimp only
  repeat' first
    | with_reducible assumption
    | simp only [Ok.lit]
    | dsimp only
    | split

theorem State.countResetting_ok {ql : List Instr} {s : State} (cd : Nat) (h : Ok ql s) : Ok ql (State.countResetting s cd) := by
  unfold State.countResetting
  try dsimp only
  repeat' first
    | with_reducible assumption
    | with_reducible apply State.modCluster_ok

theorem State.countFenced_ok {ql : List Instr} {s : State} (cd : Nat) (h : Ok ql s) : Ok ql (State.countFenced s cd) := by
  unfold State.countFenced
  try dsimp only
  repeat' first
    | with_reducible assumption
    | with_reducible apply State.modCluster_ok

theorem execChannelOpenRequest_ok {ql : List Instr} (ep i producer : Nat) {s : State} (h : Ok ql s) : OkR ql (execChannelOpenRequest ep i producer s) := by
  unfold execChannelOpenRequest
  try dsimp only
  repeat' first
    | with_reducible assumption
    | with_reducible apply State.emit_ok
    | with_reducible apply State.onChannel_ok
    | with_reducible apply State.countResetting_ok
    | with_reducible apply State.countFenced_ok
    | with_reducible apply OkR.next
    | with_reducible apply OkR.ite
    | with_reducible apply Ok.ite
    | split

theorem execChannelGrant_ok {ql : List Instr} (ep i : Nat) {s : State} (h : Ok ql s) : OkR ql (execChannelGrant ep i s) := by
  unfold execChannelGrant
  try dsimp only
  repeat' first
    | with_reducible assumption
    | with_reducible apply State.emit_ok
    | with_reducible apply State.onChannel_ok
    | with_reducible apply OkR.next
    | with_reducible apply OkR.ite
    | split

theorem execChannelWord_ok {ql : List Instr} (ep i producer : Nat) (data : List Byte) (kind : WordKind) (poison : Bool) {s : State} (h : Ok ql s) : OkR ql (execChannelWord ep i producer data kind poison s) := by
  unfold execChannelWord
  try dsimp only
  repeat' first
    | with_reducible assumption
    | with_reducible apply State.emit_ok
    | with_reducible apply State.onChannel_ok
    | with_reducible apply OkR.next
    | with_reducible apply OkR.ite
    | with_reducible apply Ok.ite

theorem execChannelWordRead_ok {ql : List Instr} (ep i : Nat) {s : State} (h : Ok ql s) : OkR ql (execChannelWordRead ep i s) := by
  unfold execChannelWordRead
  try dsimp only
  repeat' first
    | with_reducible assumption
    | with_reducible apply State.logEvent_ok
    | with_reducible apply State.onChannel_ok
    | with_reducible apply OkR.next
    | with_reducible apply OkR.ite
    | split

theorem execFlush_ok {ql : List Instr} (ep i : Nat) {s : State} (h : Ok ql s) : OkR ql (execFlush ep i s) := by
  unfold execFlush
  try dsimp only
  repeat' first
    | with_reducible assumption
    | with_reducible apply State.onChannel_ok
    | with_reducible apply OkR.next

theorem execPacketAbort_ok {ql : List Instr} (ep i producer : Nat) {s : State} (h : Ok ql s) : OkR ql (execPacketAbort ep i producer s) := by
  unfold execPacketAbort
  try dsimp only
  repeat' first
    | with_reducible assumption
    | with_reducible apply State.onChannel_ok
    | with_reducible apply OkR.next

theorem execChnCfgWrite_ok {ql : List Instr} (ep i : Nat) (value : Dword) {s : State} (h : Ok ql s) : OkR ql (execChnCfgWrite ep i value s) := by
  unfold execChnCfgWrite
  try dsimp only
  repeat' first
    | with_reducible assumption
    | with_reducible apply State.logEvent_ok
    | with_reducible apply State.onChannel_ok
    | with_reducible apply OkR.next
    | with_reducible apply OkR.ite

theorem execFlitCrcReplay_ok {ql : List Instr} (cd dir : Nat) {s : State} (h : Ok ql s) : OkR ql (execFlitCrcReplay cd dir s) := by
  unfold execFlitCrcReplay
  try dsimp only
  repeat' first
    | with_reducible assumption
    | with_reducible apply State.modCluster_ok
    | with_reducible apply State.logEvent_ok
    | with_reducible apply OkR.next
    | with_reducible apply Ok.ite

theorem execClusterRelease_ok {ql : List Instr} (cd : Nat) {s : State} (h : Ok ql s) : OkR ql (execClusterRelease cd s) := by
  unfold execClusterRelease
  try dsimp only
  repeat' first
    | with_reducible assumption
    | with_reducible apply State.modCluster_ok
    | with_reducible apply OkR.next
    | with_reducible apply OkR.ite

/-! ### What Machine/KvPages keeps -/

theorem State.copyData_ok {ql : List Instr} {s : State} (src dst n more : Nat) (h : Ok ql s) : Ok ql (State.copyData s src dst n more) := by
  unfold State.copyData
  try dsimp only
  repeat' first
    | with_reducible assumption
    | with_reducible intro _
    | with_reducible apply State.onMem_ok
    | with_reducible apply State.visit_ok
    | with_reducible apply Ok.onMem
    | (simp only [Ok.litM]; refine ⟨?_, ?_⟩)
    | with_reducible apply Mem.copyTo_wf
    | with_reducible apply Mem.copy_wf
    | (simp only [Mem.lit_wf])
    | with_reducible exact Ok.wf (by with_reducible assumption)
    | with_reducible exact Ok.queue (by with_reducible assumption)
    | (exact (rfl : Mem.wf {} = true))
    | dsimp only
    | split

theorem State.modContext_ok {ql : List Instr} {s : State} (id : Nat) (f : Context → Context) (h : Ok ql s) : Ok ql (State.modContext s id f) := by
  unfold State.modContext
  try dsimp only
  repeat' first
    | with_reducible assumption
    | with_reducible apply State.onSvc_ok
    | split

theorem State.writeEntry_ok {ql : List Instr} {s : State} (a e0 base plan : Nat) (tok : Option Nat) (h : Ok ql s) : Ok ql (State.writeEntry s a e0 base plan tok) := by
  unfold State.writeEntry
  try dsimp only
  repeat' first
    | with_reducible assumption
    | simp only [Ok.lit]
    | with_reducible apply State.writeRange_ok
    | with_reducible apply Ok.ite
    | dsimp only
    | split

theorem State.syncTables_ok {ql : List Instr} {s : State} (ctx : Nat) (tok : Nat → Option Nat) (h : Ok ql s) : Ok ql (State.syncTables s ctx tok) := by
  unfold State.syncTables
  try extract_lets
  repeat' first
    | with_reducible assumption
    | with_reducible intro _
    | with_reducible apply State.writeEntry_ok
    | with_reducible apply OkO.map
    | with_reducible apply OkO.foldlBind
    | with_reducible apply OkO.bind
    | with_reducible apply OkO.none
    | with_reducible apply OkO.some
    | with_reducible apply Ok.foldl
    | with_reducible apply Ok.foldlP
    | with_reducible apply Ok.ite
    | with_reducible refine OkO.elim ?_ (by with_reducible assumption)
    | with_reducible refine OkOP.elim ?_ (by with_reducible assumption)
    | with_reducible refine Ok.pairElim ?_ (by with_reducible assumption)
    | split
    | dsimp +zetaDelta only

theorem State.syncPage_ok {ql : List Instr} {s : State} (a : Nat) (h : Ok ql s) : Ok ql (State.syncPage s a) := by
  unfold State.syncPage
  try extract_lets
  repeat' first
    | with_reducible assumption
    | with_reducible intro _
    | with_reducible apply State.syncTables_ok
    | with_reducible apply OkO.map
    | with_reducible apply OkO.foldlBind
    | with_reducible apply OkO.bind
    | with_reducible apply OkO.none
    | with_reducible apply OkO.some
    | with_reducible apply Ok.foldl
    | with_reducible apply Ok.foldlP
    | with_reducible refine OkO.elim ?_ (by with_reducible assumption)
    | with_reducible refine OkOP.elim ?_ (by with_reducible assumption)
    | with_reducible refine Ok.pairElim ?_ (by with_reducible assumption)
    | split
    | dsimp +zetaDelta only

theorem State.bumpPage_ok {ql : List Instr} {s : State} (a : Nat) (h : Ok ql s) : Ok ql (State.bumpPage s a) := by
  unfold State.bumpPage
  try extract_lets
  repeat' first
    | with_reducible assumption
    | simp only [Ok.lit]
    | with_reducible apply State.onWork_ok
    | with_reducible apply State.syncPage_ok
    | with_reducible apply Ok.ite
    | split
    | dsimp +zetaDelta only

theorem State.holdPage_ok {ql : List Instr} {s : State} (a : Nat) (h : Ok ql s) : Ok ql (State.holdPage s a) := by
  unfold State.holdPage
  try extract_lets
  repeat' first
    | with_reducible assumption
    | simp only [Ok.lit]
    | with_reducible apply State.onWork_ok
    | with_reducible apply State.syncPage_ok
    | with_reducible apply Ok.ite
    | split
    | dsimp +zetaDelta only

theorem State.dropPage_ok {ql : List Instr} {s : State} (a : Nat) (h : Ok ql s) : Ok ql (State.dropPage s a) := by
  unfold State.dropPage
  try extract_lets
  repeat' first
    | with_reducible assumption
    | simp only [Ok.lit]
    | with_reducible apply State.onWork_ok
    | with_reducible apply State.syncPage_ok
    | with_reducible apply Ok.ite
    | split
    | dsimp +zetaDelta only

theorem State.allocKv_ok {ql : List Instr} {s : State} (t0 : KvTable) (log2 : Nat) (scale : Option Nat) (h : Ok ql s) : OkOP ql (State.allocKv s t0 log2 scale) := by
  unfold State.allocKv
  try dsimp only
  repeat' first
    | with_reducible assumption
    | with_reducible intro _
    | simp only [Ok.lit]
    | with_reducible exact OkOP.none
    | with_reducible apply OkOP.some
    | with_reducible apply OkOP.pair
    | with_reducible apply OkOP.foldlBind
    | with_reducible apply OkOP.bind
    | with_reducible apply OkOP.map
    | with_reducible apply OkOP.mapS
    | with_reducible apply OkOP.mapO
    | with_reducible apply OkOP.foldlBind
    | with_reducible apply OkOP.bind
    | with_reducible apply OkOP.map
    | with_reducible apply OkOP.mapS
    | with_reducible apply OkO.mapS
    | with_reducible apply OkO.mapP
    | with_reducible apply OkO.getD
    | with_reducible apply OkOP.some
    | with_reducible apply OkO.map
    | with_reducible apply OkOP.mapO
    | with_reducible apply OkO.foldlBind
    | with_reducible apply OkO.bind
    | with_reducible apply OkO.none
    | with_reducible apply OkO.some
    | with_reducible apply Ok.foldl
    | with_reducible apply Ok.foldlP
    | with_reducible apply OkOP.ite
    | with_reducible apply Ok.ite
    | with_reducible refine OkO.elim ?_ (by with_reducible assumption)
    | with_reducible refine OkOP.elim ?_ (by with_reducible assumption)
    | with_reducible refine Ok.pairElim ?_ (by with_reducible assumption)
    | dsimp only
    | split
theorem State.allocKv_eq {ql : List Instr} {s : State} {t0 : KvTable} {log2 : Nat} {scale : Option Nat} {x : _} {t : State} (h : Ok ql s) (e : State.allocKv s t0 log2 scale = some (t, x)) : Ok ql t :=
  State.allocKv_ok t0 log2 scale h _ _ e

theorem State.growTable_ok {ql : List Instr} {s : State} (t0 : KvTable) (shadow : Bool) (scale : Option Nat) (new : List (Nat × Nat)) (h : Ok ql s) : OkOP ql (State.growTable s t0 shadow scale new) := by
  unfold State.growTable
  try dsimp only
  repeat' first
    | with_reducible assumption
    | with_reducible intro _
    | simp only [Ok.lit]
    | with_reducible apply State.allocKv_ok
    | with_reducible exact OkOP.none
    | with_reducible apply OkOP.some
    | with_reducible apply OkOP.pair
    | with_reducible apply OkOP.foldlBind
    | with_reducible apply OkOP.bind
    | with_reducible apply OkOP.map
    | with_reducible apply OkOP.mapS
    | with_reducible apply OkOP.mapO
    | with_reducible refine State.allocKv_eq ?_ (by with_reducible assumption)
    | with_reducible apply OkOP.foldlBind
    | with_reducible apply OkOP.bind
    | with_reducible apply OkOP.map
    | with_reducible apply OkOP.mapS
    | with_reducible apply OkO.mapS
    | with_reducible apply OkO.mapP
    | with_reducible apply OkO.getD
    | with_reducible apply OkOP.some
    | with_reducible apply OkO.map
    | with_reducible apply OkOP.mapO
    | with_reducible apply OkO.foldlBind
    | with_reducible apply OkO.bind
    | with_reducible apply OkO.none
    | with_reducible apply OkO.some
    | with_reducible apply Ok.foldl
    | with_reducible apply Ok.foldlP
    | with_reducible apply OkOP.ite
    | with_reducible apply Ok.ite
    | with_reducible refine OkO.elim ?_ (by with_reducible assumption)
    | with_reducible refine OkOP.elim ?_ (by with_reducible assumption)
    | with_reducible refine Ok.pairElim ?_ (by with_reducible assumption)
    | dsimp only
    | split
theorem State.growTable_eq {ql : List Instr} {s : State} {t0 : KvTable} {shadow : Bool} {scale : Option Nat} {new : List (Nat × Nat)} {x : _} {t : State} (h : Ok ql s) (e : State.growTable s t0 shadow scale new = some (t, x)) : Ok ql t :=
  State.growTable_ok t0 shadow scale new h _ _ e

theorem State.prepareLast_ok {ql : List Instr} {s : State} (k : Context) (t0 : KvTable) (h : Ok ql s) : OkOP ql (State.prepareLast s k t0) := by
  unfold State.prepareLast
  try dsimp only
  repeat' first
    | with_reducible assumption
    | with_reducible intro _
    | simp only [Ok.lit]
    | with_reducible apply State.onWork_ok
    | with_reducible apply State.copyData_ok
    | with_reducible apply State.dropPage_ok
    | with_reducible apply State.allocKv_ok
    | with_reducible exact OkOP.none
    | with_reducible apply OkOP.some
    | with_reducible apply OkOP.pair
    | with_reducible apply OkOP.foldlBind
    | with_reducible apply OkOP.bind
    | with_reducible apply OkOP.map
    | with_reducible apply OkOP.mapS
    | with_reducible apply OkOP.mapO
    | with_reducible refine State.allocKv_eq ?_ (by with_reducible assumption)
    | with_reducible apply OkOP.foldlBind
    | with_reducible apply OkOP.bind
    | with_reducible apply OkOP.map
    | with_reducible apply OkOP.mapS
    | with_reducible apply OkO.mapS
    | with_reducible apply OkO.mapP
    | with_reducible apply OkO.getD
    | with_reducible apply OkOP.some
    | with_reducible apply OkO.map
    | with_reducible apply OkOP.mapO
    | with_reducible apply OkO.foldlBind
    | with_reducible apply OkO.bind
    | with_reducible apply OkO.none
    | with_reducible apply OkO.some
    | with_reducible apply Ok.foldl
    | with_reducible apply Ok.foldlP
    | with_reducible apply OkOP.ite
    | with_reducible apply Ok.ite
    | with_reducible refine OkO.elim ?_ (by with_reducible assumption)
    | with_reducible refine OkOP.elim ?_ (by with_reducible assumption)
    | with_reducible refine Ok.pairElim ?_ (by with_reducible assumption)
    | dsimp only
    | split
theorem State.prepareLast_eq {ql : List Instr} {s : State} {k : Context} {t0 : KvTable} {x : _} {t : State} (h : Ok ql s) (e : State.prepareLast s k t0 = some (t, x)) : Ok ql t :=
  State.prepareLast_ok k t0 h _ _ e

theorem State.appendCtx_ok {ql : List Instr} {s : State} (id n : Nat) (scale : Option Nat) (h : Ok ql s) : OkO ql (State.appendCtx s id n scale) := by
  unfold State.appendCtx
  try dsimp only
  repeat' first
    | with_reducible assumption
    | with_reducible intro _
    | simp only [Ok.lit]
    | with_reducible apply State.modContext_ok
    | with_reducible apply State.syncTables_ok
    | with_reducible apply State.growTable_ok
    | with_reducible apply State.prepareLast_ok
    | with_reducible exact OkO.none
    | with_reducible apply OkO.some
    | with_reducible apply OkO.mapS
    | with_reducible apply OkO.mapP
    | with_reducible apply OkO.map
    | with_reducible apply OkO.foldlBind
    | with_reducible refine State.growTable_eq ?_ (by with_reducible assumption)
    | with_reducible refine State.prepareLast_eq ?_ (by with_reducible assumption)
    | with_reducible apply OkOP.foldlBind
    | with_reducible apply OkOP.bind
    | with_reducible apply OkOP.map
    | with_reducible apply OkOP.mapS
    | with_reducible apply OkO.mapS
    | with_reducible apply OkO.mapP
    | with_reducible apply OkO.getD
    | with_reducible apply OkOP.some
    | with_reducible apply OkO.map
    | with_reducible apply OkOP.mapO
    | with_reducible apply OkO.foldlBind
    | with_reducible apply OkO.bind
    | with_reducible apply OkO.none
    | with_reducible apply OkO.some
    | with_reducible apply Ok.foldl
    | with_reducible apply Ok.foldlP
    | with_reducible apply OkO.ite
    | with_reducible apply Ok.ite
    | with_reducible refine OkO.elim ?_ (by with_reducible assumption)
    | with_reducible refine OkOP.elim ?_ (by with_reducible assumption)
    | with_reducible refine Ok.pairElim ?_ (by with_reducible assumption)
    | dsimp only
    | split
theorem State.appendCtx_eq {ql : List Instr} {s : State} {id n : Nat} {scale : Option Nat} {t : State} (h : Ok ql s) (e : State.appendCtx s id n scale = some t) : Ok ql t :=
  State.appendCtx_ok id n scale h _ e

theorem State.shadowAppend_ok {ql : List Instr} {s : State} (id epoch n : Nat) (scale : Option Nat) (h : Ok ql s) : OkO ql (State.shadowAppend s id epoch n scale) := by
  unfold State.shadowAppend
  try dsimp only
  repeat' first
    | with_reducible assumption
    | with_reducible intro _
    | simp only [Ok.lit]
    | with_reducible apply State.modContext_ok
    | with_reducible apply State.syncTables_ok
    | with_reducible apply State.growTable_ok
    | with_reducible exact OkO.none
    | with_reducible apply OkO.some
    | with_reducible apply OkO.mapS
    | with_reducible apply OkO.mapP
    | with_reducible apply OkO.map
    | with_reducible apply OkO.foldlBind
    | with_reducible refine State.growTable_eq ?_ (by with_reducible assumption)
    | with_reducible apply OkOP.foldlBind
    | with_reducible apply OkOP.bind
    | with_reducible apply OkOP.map
    | with_reducible apply OkOP.mapS
    | with_reducible apply OkO.mapS
    | with_reducible apply OkO.mapP
    | with_reducible apply OkO.getD
    | with_reducible apply OkOP.some
    | with_reducible apply OkO.map
    | with_reducible apply OkOP.mapO
    | with_reducible apply OkO.foldlBind
    | with_reducible apply OkO.bind
    | with_reducible apply OkO.none
    | with_reducible apply OkO.some
    | with_reducible apply Ok.foldl
    | with_reducible apply Ok.foldlP
    | with_reducible apply OkO.ite
    | with_reducible apply Ok.ite
    | with_reducible refine OkO.elim ?_ (by with_reducible assumption)
    | with_reducible refine OkOP.elim ?_ (by with_reducible assumption)
    | with_reducible refine Ok.pairElim ?_ (by with_reducible assumption)
    | dsimp only
    | split
theorem State.shadowAppend_eq {ql : List Instr} {s : State} {id epoch n : Nat} {scale : Option Nat} {t : State} (h : Ok ql s) (e : State.shadowAppend s id epoch n scale = some t) : Ok ql t :=
  State.shadowAppend_ok id epoch n scale h _ e

theorem State.endShadow_ok {ql : List Instr} {s : State} (id epoch a : Nat) (h : Ok ql s) : Ok ql (State.endShadow s id epoch a) := by
  unfold State.endShadow
  try extract_lets
  repeat' first
    | with_reducible assumption
    | with_reducible intro _
    | simp only [Ok.lit]
    | with_reducible apply State.modContext_ok
    | with_reducible apply State.syncTables_ok
    | with_reducible apply State.bumpPage_ok
    | with_reducible apply State.dropPage_ok
    | with_reducible apply OkO.map
    | with_reducible apply OkO.foldlBind
    | with_reducible apply OkO.bind
    | with_reducible apply OkO.none
    | with_reducible apply OkO.some
    | with_reducible apply Ok.foldl
    | with_reducible apply Ok.foldlP
    | with_reducible apply Ok.ite
    | with_reducible refine OkO.elim ?_ (by with_reducible assumption)
    | with_reducible refine OkOP.elim ?_ (by with_reducible assumption)
    | with_reducible refine Ok.pairElim ?_ (by with_reducible assumption)
    | split
    | dsimp +zetaDelta only

theorem State.prepareTask_ok {ql : List Instr} {s : State} (id : Nat) (h : Ok ql s) : Ok ql (State.prepareTask s id) := by
  unfold State.prepareTask
  try dsimp only
  repeat' first
    | with_reducible assumption
    | with_reducible intro _
    | simp only [Ok.lit]
    | with_reducible apply State.modTask_ok
    | with_reducible apply State.modContext_ok
    | with_reducible apply State.appendCtx_ok
    | with_reducible apply State.shadowAppend_ok
    | with_reducible refine State.appendCtx_eq ?_ (by with_reducible assumption)
    | with_reducible refine State.shadowAppend_eq ?_ (by with_reducible assumption)
    | with_reducible apply OkOP.foldlBind
    | with_reducible apply OkOP.bind
    | with_reducible apply OkOP.map
    | with_reducible apply OkOP.mapS
    | with_reducible apply OkO.mapS
    | with_reducible apply OkO.mapP
    | with_reducible apply OkO.getD
    | with_reducible apply OkOP.some
    | with_reducible apply OkO.map
    | with_reducible apply OkOP.mapO
    | with_reducible apply OkO.foldlBind
    | with_reducible apply OkO.bind
    | with_reducible apply OkO.none
    | with_reducible apply OkO.some
    | with_reducible apply Ok.foldl
    | with_reducible apply Ok.foldlP
    | with_reducible apply Ok.ite
    | with_reducible refine OkO.elim ?_ (by with_reducible assumption)
    | with_reducible refine OkOP.elim ?_ (by with_reducible assumption)
    | with_reducible refine Ok.pairElim ?_ (by with_reducible assumption)
    | dsimp only
    | split

/-! ### What Machine/Tasks keeps -/

theorem State.storeJournal_ok {ql : List Instr} {s : State} (id : Nat) (h : Ok ql s) : Ok ql (State.storeJournal s id) := by
  unfold State.storeJournal
  try dsimp only
  repeat' first
    | with_reducible assumption
    | with_reducible intro _
    | with_reducible apply State.writeRange_ok
    | with_reducible apply OkOP.foldlBind
    | with_reducible apply OkOP.bind
    | with_reducible apply OkOP.map
    | with_reducible apply OkOP.mapS
    | with_reducible apply OkO.mapS
    | with_reducible apply OkO.mapP
    | with_reducible apply OkO.getD
    | with_reducible apply OkOP.some
    | with_reducible apply OkO.map
    | with_reducible apply OkOP.mapO
    | with_reducible apply OkO.foldlBind
    | with_reducible apply OkO.bind
    | with_reducible apply OkO.none
    | with_reducible apply OkO.some
    | with_reducible apply Ok.foldl
    | with_reducible apply Ok.foldlP
    | with_reducible apply Ok.ite
    | with_reducible refine OkO.elim ?_ (by with_reducible assumption)
    | with_reducible refine OkOP.elim ?_ (by with_reducible assumption)
    | with_reducible refine Ok.pairElim ?_ (by with_reducible assumption)
    | dsimp only
    | split

theorem State.writeJournal_ok {ql : List Instr} {s : State} (id : Nat) (h : Ok ql s) : Ok ql (State.writeJournal s id) := by
  unfold State.writeJournal
  try dsimp only
  repeat' first
    | with_reducible assumption
    | simp only [Ok.lit]
    | with_reducible apply State.onWork_ok
    | with_reducible apply State.storeJournal_ok
    | with_reducible apply Ok.ite
    | dsimp only
    | split

theorem State.flushJournal_ok {ql : List Instr} {s : State} (h : Ok ql s) : Ok ql (State.flushJournal s) := by
  unfold State.flushJournal
  try dsimp only
  repeat' first
    | with_reducible assumption
    | with_reducible intro _
    | simp only [Ok.lit]
    | with_reducible apply State.onWork_ok
    | with_reducible apply State.storeJournal_ok
    | with_reducible apply OkOP.foldlBind
    | with_reducible apply OkOP.bind
    | with_reducible apply OkOP.map
    | with_reducible apply OkOP.mapS
    | with_reducible apply OkO.mapS
    | with_reducible apply OkO.mapP
    | with_reducible apply OkO.getD
    | with_reducible apply OkOP.some
    | with_reducible apply OkO.map
    | with_reducible apply OkOP.mapO
    | with_reducible apply OkO.foldlBind
    | with_reducible apply OkO.bind
    | with_reducible apply OkO.none
    | with_reducible apply OkO.some
    | with_reducible apply Ok.foldl
    | with_reducible apply Ok.foldlP
    | with_reducible refine OkO.elim ?_ (by with_reducible assumption)
    | with_reducible refine OkOP.elim ?_ (by with_reducible assumption)
    | with_reducible refine Ok.pairElim ?_ (by with_reducible assumption)
    | dsimp only
    | split

theorem State.setOutputs_ok {ql : List Instr} {s : State} (t0 : Task) (st : RState) (h : Ok ql s) : Ok ql (State.setOutputs s t0 st) := by
  unfold State.setOutputs
  try dsimp only
  repeat' first
    | with_reducible assumption
    | with_reducible intro _
    | with_reducible apply State.onWork_ok
    | with_reducible apply Ok.foldl

theorem State.leaveReady_ok {ql : List Instr} {s : State} (t0 : Task) (h : Ok ql s) : Ok ql (State.leaveReady s t0) := by
  unfold State.leaveReady
  try dsimp only
  repeat' first
    | with_reducible assumption
    | simp only [Ok.lit]
    | with_reducible apply State.modTask_ok
    | with_reducible apply State.onWork_ok
    | with_reducible apply Ok.ite
    | dsimp only
    | split

theorem State.finishTask_ok {ql : List Instr} {s : State} (id : Nat) (st : TState) (status : Nat) (h : Ok ql s) : Ok ql (State.finishTask s id st status) := by
  unfold State.finishTask
  try dsimp only
  repeat' first
    | with_reducible assumption
    | simp only [Ok.lit]
    | with_reducible apply State.modTask_ok
    | with_reducible apply State.onWork_ok
    | with_reducible apply State.writeJournal_ok
    | with_reducible apply State.setOutputs_ok
    | with_reducible apply State.leaveReady_ok
    | with_reducible apply State.done_ok
    | with_reducible apply Ok.ite
    | dsimp only
    | split

theorem State.settleTask_ok {ql : List Instr} {s : State} (id : Nat) (h : Ok ql s) : Ok ql (State.settleTask s id) := by
  unfold State.settleTask
  try extract_lets
  repeat' first
    | with_reducible assumption
    | simp only [Ok.lit]
    | with_reducible apply State.modTask_ok
    | with_reducible apply State.prepareTask_ok
    | with_reducible apply State.writeJournal_ok
    | with_reducible apply State.leaveReady_ok
    | with_reducible apply State.finishTask_ok
    | with_reducible apply Ok.ite
    | split
    | dsimp +zetaDelta only

theorem State.settle_ok {ql : List Instr} {s : State} (h : Ok ql s) : Ok ql (State.settle s) := by
  unfold State.settle
  try dsimp only
  repeat' first
    | with_reducible assumption
    | with_reducible intro _
    | with_reducible apply State.settleTask_ok
    | with_reducible apply Ok.foldl

theorem State.logPoisoned_ok {ql : List Instr} {s : State} (t0 : Task) (h : Ok ql s) : Ok ql (State.logPoisoned s t0) := by
  unfold State.logPoisoned
  try dsimp only
  repeat' first
    | with_reducible assumption
    | with_reducible apply State.logEvent_ok
    | with_reducible apply Ok.ite

theorem State.endIfDone_ok {ql : List Instr} {s : State} (id : Nat) (h : Ok ql s) : Ok ql (State.endIfDone s id) := by
  unfold State.endIfDone
  try dsimp only
  repeat' first
    | with_reducible assumption
    | simp only [Ok.lit]
    | with_reducible apply State.modTask_ok
    | with_reducible apply State.writeJournal_ok
    | with_reducible apply State.setOutputs_ok
    | with_reducible apply State.finishTask_ok
    | with_reducible apply State.settle_ok
    | with_reducible apply State.logPoisoned_ok
    | with_reducible apply State.done_ok
    | with_reducible apply Ok.ite
    | dsimp only
    | split

theorem State.clusterDone_ok {ql : List Instr} {s : State} (cd : Nat) (h : Ok ql s) : Ok ql (State.clusterDone s cd) := by
  unfold State.clusterDone
  try dsimp only
  repeat' first
    | with_reducible assumption
    | with_reducible apply State.modCluster_ok
    | with_reducible apply State.modTask_ok
    | with_reducible apply State.emit_ok
    | with_reducible apply Ok.ite
    | split

theorem State.waveEnd_ok {ql : List Instr} {s : State} (id : Nat) (w : Wave) (tok : Token) (h : Ok ql s) : Ok ql (State.waveEnd s id w tok) := by
  unfold State.waveEnd
  try dsimp only
  repeat' first
    | with_reducible assumption
    | with_reducible intro _
    | with_reducible apply State.modTask_ok
    | with_reducible apply State.onWork_ok
    | with_reducible apply State.endIfDone_ok
    | with_reducible apply Ok.foldl
    | split

theorem State.tokenArrive_ok {ql : List Instr} {s : State} (id num node : Nat) (tok : Token) (h : Ok ql s) : Ok ql (State.tokenArrive s id num node tok) := by
  unfold State.tokenArrive
  try dsimp only
  repeat' first
    | with_reducible assumption
    | with_reducible apply State.modTask_ok
    | with_reducible apply State.emit_ok
    | with_reducible apply State.waveEnd_ok
    | with_reducible apply Ok.ite
    | split

theorem State.modItem_ok {ql : List Instr} {s : State} (c : Nat) (e0 : Engine) (seq : Nat) (f : QItem → QItem) (h : Ok ql s) : Ok ql (State.modItem s c e0 seq f) := by
  unfold State.modItem
  try dsimp only
  repeat' first
    | with_reducible assumption
    | with_reducible apply State.modCore_ok

theorem State.stopCluster_ok {ql : List Instr} {s : State} (cd status : Nat) (h : Ok ql s) : Ok ql (State.stopCluster s cd status) := by
  unfold State.stopCluster
  try dsimp only
  repeat' first
    | with_reducible assumption
    | with_reducible intro _
    | with_reducible apply State.modCore_ok
    | with_reducible apply State.clusterDone_ok
    | with_reducible apply Ok.foldl
    | with_reducible apply Ok.ite
    | split

theorem State.failShares_ok {ql : List Instr} {s : State} (id status : Nat) (h : Ok ql s) : Ok ql (State.failShares s id status) := by
  unfold State.failShares
  repeat' first
    | with_reducible assumption
    | with_reducible intro _
    | with_reducible apply State.emit_ok
    | with_reducible apply State.modTask_ok
    | with_reducible apply Ok.foldl
    | split

theorem State.stopTask_ok {ql : List Instr} {s : State} (id status : Nat) (h : Ok ql s) : Ok ql (State.stopTask s id status) := by
  unfold State.stopTask
  try dsimp only
  repeat' first
    | with_reducible assumption
    | with_reducible intro _
    | with_reducible apply State.failShares_ok
    | with_reducible apply State.stopCluster_ok
    | with_reducible apply Ok.foldl

theorem State.doom_ok {ql : List Instr} {s : State} (e0 : Nat) (h : Ok ql s) : Ok ql (State.doom s e0) := by
  unfold State.doom
  try dsimp only
  repeat' first
    | with_reducible assumption
    | with_reducible intro _
    | with_reducible apply State.modTask_ok
    | with_reducible apply State.onWork_ok
    | with_reducible apply State.stopTask_ok
    | with_reducible apply Ok.foldl
    | split

theorem State.dropWaves_ok {ql : List Instr} {s : State} (id : Nat) (h : Ok ql s) : Ok ql (State.dropWaves s id) := by
  unfold State.dropWaves
  try dsimp only
  repeat' first
    | with_reducible assumption
    | with_reducible intro _
    | with_reducible apply State.modCore_ok
    | with_reducible apply State.modCluster_ok
    | with_reducible apply State.modTask_ok
    | with_reducible apply Ok.foldl
    | with_reducible apply Ok.ite
    | split

theorem State.discardEpoch_ok {ql : List Instr} {s : State} (e0 status : Nat) (h : Ok ql s) : Ok ql (State.discardEpoch s e0 status) := by
  unfold State.discardEpoch
  try extract_lets
  repeat' first
    | with_reducible assumption
    | with_reducible intro _
    | simp only [Ok.lit]
    | with_reducible apply State.modCore_ok
    | with_reducible apply State.onWork_ok
    | with_reducible apply State.emit_ok
    | with_reducible apply State.respond_ok
    | with_reducible apply State.flushRecords_ok
    | with_reducible apply State.endShadow_ok
    | with_reducible apply State.finishTask_ok
    | with_reducible apply State.settle_ok
    | with_reducible apply State.dropWaves_ok
    | with_reducible apply OkO.map
    | with_reducible apply OkO.foldlBind
    | with_reducible apply OkO.bind
    | with_reducible apply OkO.none
    | with_reducible apply OkO.some
    | with_reducible apply Ok.foldl
    | with_reducible apply Ok.foldlP
    | with_reducible apply Ok.ite
    | with_reducible refine OkO.elim ?_ (by with_reducible assumption)
    | with_reducible refine OkOP.elim ?_ (by with_reducible assumption)
    | with_reducible refine Ok.pairElim ?_ (by with_reducible assumption)
    | split
    | dsimp +zetaDelta only

theorem State.taskError_ok {ql : List Instr} {s : State} (c : Nat) (ev : Ev) (status offset address : Nat) (partner : Nat) (h : Ok ql s) : Ok ql (State.taskError s c ev status offset address partner) := by
  unfold State.taskError
  try dsimp only
  repeat' first
    | with_reducible assumption
    | with_reducible apply State.modCore_ok
    | with_reducible apply State.modTask_ok
    | with_reducible apply State.logEvent_ok
    | with_reducible apply State.clusterDone_ok
    | with_reducible apply State.doom_ok
    | with_reducible apply Ok.ite
    | split

theorem State.noteWave_ok {ql : List Instr} {s : State} (t0 : Task) (h : Ok ql s) : Ok ql (State.noteWave s t0) := by
  unfold State.noteWave
  try dsimp only
  repeat' first
    | with_reducible assumption
    | simp only [Ok.lit]
    | with_reducible apply State.onWork_ok
    | dsimp only
    | split

theorem State.writeDescs_ok {ql : List Instr} {s : State} (c : Nat) (t0 : Task) (p : Nat) (h : Ok ql s) : Ok ql (State.writeDescs s c t0 p) := by
  unfold State.writeDescs
  try dsimp only
  repeat' first
    | with_reducible assumption
    | with_reducible intro _
    | simp only [Ok.lit]
    | with_reducible apply State.modCore_ok
    | with_reducible apply State.writeRange_ok
    | with_reducible apply OkO.map
    | with_reducible apply OkO.foldlBind
    | with_reducible apply OkO.bind
    | with_reducible apply OkO.none
    | with_reducible apply OkO.some
    | with_reducible apply Ok.foldl
    | with_reducible apply Ok.foldlP
    | with_reducible apply Ok.ite
    | with_reducible refine OkO.elim ?_ (by with_reducible assumption)
    | with_reducible refine OkOP.elim ?_ (by with_reducible assumption)
    | with_reducible refine Ok.pairElim ?_ (by with_reducible assumption)
    | dsimp only
    | split

theorem State.startCore_ok {ql : List Instr} {s : State} (c : Nat) (t0 : Task) (num p : Nat) (h : Ok ql s) : Ok ql (State.startCore s c t0 num p) := by
  unfold State.startCore
  try dsimp only
  repeat' first
    | with_reducible assumption
    | with_reducible apply State.modCore_ok
    | with_reducible apply State.writeDescs_ok

theorem State.startOn_ok {ql : List Instr} {s : State} (t0 : Task) (w : Wave) (cd : Nat) (h : Ok ql s) : Ok ql (State.startOn s t0 w cd) := by
  unfold State.startOn
  try dsimp only
  repeat' first
    | with_reducible assumption
    | with_reducible intro _
    | with_reducible apply State.modCluster_ok
    | with_reducible apply State.modTask_ok
    | with_reducible apply State.emit_ok
    | with_reducible apply State.startCore_ok
    | with_reducible apply Ok.foldl

/-! ### What Machine/Placement keeps -/

theorem State.writeImage_ok {ql : List Instr} {s : State} (im : List (Nat × Nat)) (bs : List Byte) (h : Ok ql s) : Ok ql (State.writeImage s im bs) := by
  unfold State.writeImage
  try dsimp only
  repeat' first
    | with_reducible assumption
    | with_reducible intro _
    | with_reducible apply State.writeRange_ok
    | with_reducible apply OkOP.foldlBind
    | with_reducible apply OkOP.bind
    | with_reducible apply OkOP.map
    | with_reducible apply OkOP.mapS
    | with_reducible apply OkO.mapS
    | with_reducible apply OkO.mapP
    | with_reducible apply OkO.getD
    | with_reducible apply OkOP.some
    | with_reducible apply OkO.map
    | with_reducible apply OkOP.mapO
    | with_reducible apply OkO.foldlBind
    | with_reducible apply OkO.bind
    | with_reducible apply OkO.none
    | with_reducible apply OkO.some
    | with_reducible apply Ok.foldl
    | with_reducible apply Ok.foldlP
    | with_reducible refine OkO.elim ?_ (by with_reducible assumption)
    | with_reducible refine OkOP.elim ?_ (by with_reducible assumption)
    | with_reducible refine Ok.pairElim ?_ (by with_reducible assumption)
    | dsimp only
    | split

theorem State.copyParts_ok {ql : List Instr} {s : State} (parts : List (Nat × Nat)) (dst : Nat) (h : Ok ql s) : Ok ql (State.copyParts s parts dst) := by
  unfold State.copyParts
  try dsimp only
  repeat' first
    | with_reducible assumption
    | with_reducible intro _
    | with_reducible apply State.copyData_ok
    | with_reducible apply OkOP.foldlBind
    | with_reducible apply OkOP.bind
    | with_reducible apply OkOP.map
    | with_reducible apply OkOP.mapS
    | with_reducible apply OkO.mapS
    | with_reducible apply OkO.mapP
    | with_reducible apply OkO.getD
    | with_reducible apply OkOP.some
    | with_reducible apply OkO.map
    | with_reducible apply OkOP.mapO
    | with_reducible apply OkO.foldlBind
    | with_reducible apply OkO.bind
    | with_reducible apply OkO.none
    | with_reducible apply OkO.some
    | with_reducible apply Ok.foldl
    | with_reducible apply Ok.foldlP
    | with_reducible refine OkO.elim ?_ (by with_reducible assumption)
    | with_reducible refine OkOP.elim ?_ (by with_reducible assumption)
    | with_reducible refine Ok.pairElim ?_ (by with_reducible assumption)
    | dsimp only
    | split

theorem State.relocate_ok {ql : List Instr} {s : State} (p : Placed) (addr : Nat) (h : Ok ql s) : Ok ql (State.relocate s p addr) := by
  unfold State.relocate
  try dsimp only
  repeat' first
    | with_reducible assumption
    | with_reducible intro _
    | simp only [Ok.lit]
    | with_reducible apply State.onWork_ok
    | with_reducible apply State.onMem_ok
    | with_reducible apply State.onSvc_ok
    | with_reducible apply State.copyData_ok
    | with_reducible apply State.bumpPage_ok
    | with_reducible apply OkO.map
    | with_reducible apply OkO.foldlBind
    | with_reducible apply OkO.bind
    | with_reducible apply OkO.none
    | with_reducible apply OkO.some
    | with_reducible apply Ok.foldl
    | with_reducible apply Ok.foldlP
    | with_reducible apply Ok.onMem
    | (simp only [Ok.litM]; refine ⟨?_, ?_⟩)
    | with_reducible apply Mem.clear_wf
    | with_reducible apply Mem.copy_wf
    | with_reducible apply Mem.foldl_wf
    | (simp only [Mem.lit_wf])
    | with_reducible exact Ok.wf (by with_reducible assumption)
    | with_reducible exact Ok.queue (by with_reducible assumption)
    | (exact (rfl : Mem.wf {} = true))
    | with_reducible apply Ok.ite
    | with_reducible refine OkO.elim ?_ (by with_reducible assumption)
    | with_reducible refine OkOP.elim ?_ (by with_reducible assumption)
    | with_reducible refine Ok.pairElim ?_ (by with_reducible assumption)
    | dsimp only
    | split

theorem State.placeTensor_ok {ql : List Instr} {s : State} (pr : Program) (h0 : Handle) (nc : Nat) (cds : List Nat) (affinity : Nat) (h : Ok ql s) : OkO ql (State.placeTensor s pr h0 nc cds affinity) := by
  unfold State.placeTensor
  try dsimp only
  repeat' first
    | with_reducible assumption
    | with_reducible intro _
    | simp only [Ok.lit]
    | with_reducible apply State.onWork_ok
    | with_reducible apply State.copyParts_ok
    | with_reducible exact OkO.none
    | with_reducible apply OkO.some
    | with_reducible apply OkO.mapS
    | with_reducible apply OkO.mapP
    | with_reducible apply OkO.map
    | with_reducible apply OkO.foldlBind
    | with_reducible apply OkOP.foldlBind
    | with_reducible apply OkOP.bind
    | with_reducible apply OkOP.map
    | with_reducible apply OkOP.mapS
    | with_reducible apply OkO.mapS
    | with_reducible apply OkO.mapP
    | with_reducible apply OkO.getD
    | with_reducible apply OkOP.some
    | with_reducible apply OkO.map
    | with_reducible apply OkOP.mapO
    | with_reducible apply OkO.foldlBind
    | with_reducible apply OkO.bind
    | with_reducible apply OkO.none
    | with_reducible apply OkO.some
    | with_reducible apply Ok.foldl
    | with_reducible apply Ok.foldlP
    | with_reducible apply OkO.ite
    | with_reducible apply Ok.ite
    | with_reducible refine OkO.elim ?_ (by with_reducible assumption)
    | with_reducible refine OkOP.elim ?_ (by with_reducible assumption)
    | with_reducible refine Ok.pairElim ?_ (by with_reducible assumption)
    | dsimp only
    | split
theorem State.placeTensor_eq {ql : List Instr} {s : State} {pr : Program} {h0 : Handle} {nc : Nat} {cds : List Nat} {affinity : Nat} {t : State} (h : Ok ql s) (e : State.placeTensor s pr h0 nc cds affinity = some t) : Ok ql t :=
  State.placeTensor_ok pr h0 nc cds affinity h _ e

theorem State.placePools_ok {ql : List Instr} {s : State} (model : Nat) (h : Ok ql s) : OkO ql (State.placePools s model) := by
  unfold State.placePools
  try dsimp only
  repeat' first
    | with_reducible assumption
    | with_reducible intro _
    | simp only [Ok.lit]
    | with_reducible apply State.placeTensor_ok
    | with_reducible exact OkO.none
    | with_reducible apply OkO.some
    | with_reducible apply OkO.map
    | with_reducible apply OkO.foldlBind
    | with_reducible refine State.placeTensor_eq ?_ (by with_reducible assumption)
    | with_reducible apply OkO.map
    | with_reducible apply OkO.foldlBind
    | with_reducible apply OkO.bind
    | with_reducible apply OkO.none
    | with_reducible apply OkO.some
    | with_reducible apply Ok.foldl
    | with_reducible apply Ok.foldlP
    | with_reducible apply OkO.ite
    | with_reducible apply Ok.ite
    | with_reducible refine OkO.elim ?_ (by with_reducible assumption)
    | with_reducible refine OkOP.elim ?_ (by with_reducible assumption)
    | with_reducible refine Ok.pairElim ?_ (by with_reducible assumption)
    | dsimp only
    | split
theorem State.placePools_eq {ql : List Instr} {s : State} {model : Nat} {t : State} (h : Ok ql s) (e : State.placePools s model = some t) : Ok ql t :=
  State.placePools_ok model h _ e

theorem State.makeShadows_ok {ql : List Instr} {s : State} (epoch : Nat) (h0 : Handle) (h : Ok ql s) : Ok ql (State.makeShadows s epoch h0) := by
  unfold State.makeShadows
  try dsimp only
  repeat' first
    | with_reducible assumption
    | with_reducible intro _
    | with_reducible apply State.onWork_ok
    | with_reducible apply Ok.foldl
    | with_reducible apply Ok.ite

theorem State.modModel_ok {ql : List Instr} {s : State} (i : Nat) (f : Model → Model) (h : Ok ql s) : Ok ql (State.modModel s i f) := by
  unfold State.modModel
  try dsimp only
  repeat' first
    | with_reducible assumption
    | with_reducible apply State.onSvc_ok
    | split

theorem State.demote_ok {ql : List Instr} {s : State} (i : Nat) (h : Ok ql s) : Ok ql (State.demote s i) := by
  unfold State.demote
  try dsimp only
  repeat' first
    | with_reducible assumption
    | with_reducible intro _
    | simp only [Ok.lit]
    | with_reducible apply State.onWork_ok
    | with_reducible apply State.onMem_ok
    | with_reducible apply State.relocate_ok
    | with_reducible apply State.modModel_ok
    | with_reducible apply OkOP.foldlBind
    | with_reducible apply OkOP.bind
    | with_reducible apply OkOP.map
    | with_reducible apply OkOP.mapS
    | with_reducible apply OkO.mapS
    | with_reducible apply OkO.mapP
    | with_reducible apply OkO.getD
    | with_reducible apply OkOP.some
    | with_reducible apply OkO.map
    | with_reducible apply OkOP.mapO
    | with_reducible apply OkO.foldlBind
    | with_reducible apply OkO.bind
    | with_reducible apply OkO.none
    | with_reducible apply OkO.some
    | with_reducible apply Ok.foldl
    | with_reducible apply Ok.foldlP
    | with_reducible apply Ok.onMem
    | (simp only [Ok.litM]; refine ⟨?_, ?_⟩)
    | with_reducible apply Mem.clear_wf
    | with_reducible apply Mem.foldl_wf
    | (simp only [Mem.lit_wf])
    | with_reducible exact Ok.wf (by with_reducible assumption)
    | with_reducible exact Ok.queue (by with_reducible assumption)
    | (exact (rfl : Mem.wf {} = true))
    | with_reducible apply Ok.ite
    | with_reducible refine OkO.elim ?_ (by with_reducible assumption)
    | with_reducible refine OkOP.elim ?_ (by with_reducible assumption)
    | with_reducible refine Ok.pairElim ?_ (by with_reducible assumption)
    | dsimp only
    | split

theorem State.promote_ok {ql : List Instr} {s : State} (i : Nat) (h : Ok ql s) : Ok ql (State.promote s i) := by
  unfold State.promote
  try dsimp only
  repeat' first
    | with_reducible assumption
    | with_reducible intro _
    | simp only [Ok.lit]
    | with_reducible apply State.relocate_ok
    | with_reducible apply State.modModel_ok
    | with_reducible apply OkO.map
    | with_reducible apply OkO.foldlBind
    | with_reducible apply OkO.bind
    | with_reducible apply OkO.none
    | with_reducible apply OkO.some
    | with_reducible apply Ok.foldl
    | with_reducible apply Ok.foldlP
    | with_reducible apply Ok.ite
    | with_reducible refine OkO.elim ?_ (by with_reducible assumption)
    | with_reducible refine OkOP.elim ?_ (by with_reducible assumption)
    | with_reducible refine Ok.pairElim ?_ (by with_reducible assumption)
    | dsimp only
    | split

theorem State.lowerPools_ok {ql : List Instr} {s : State} (ctx : Nat) (h : Ok ql s) : Ok ql (State.lowerPools s ctx) := by
  unfold State.lowerPools
  try dsimp only
  repeat' first
    | with_reducible assumption
    | with_reducible intro _
    | with_reducible apply State.relocate_ok
    | with_reducible apply OkO.map
    | with_reducible apply OkO.foldlBind
    | with_reducible apply OkO.bind
    | with_reducible apply OkO.none
    | with_reducible apply OkO.some
    | with_reducible apply Ok.foldl
    | with_reducible apply Ok.foldlP
    | with_reducible apply Ok.ite
    | with_reducible refine OkO.elim ?_ (by with_reducible assumption)
    | with_reducible refine OkOP.elim ?_ (by with_reducible assumption)
    | with_reducible refine Ok.pairElim ?_ (by with_reducible assumption)
    | dsimp only
    | split

theorem State.spillCtx_ok {ql : List Instr} {s : State} (ctx : Nat) (h : Ok ql s) : Ok ql (State.spillCtx s ctx) := by
  unfold State.spillCtx
  try dsimp only
  repeat' first
    | with_reducible assumption
    | with_reducible intro _
    | simp only [Ok.lit]
    | with_reducible apply State.onWork_ok
    | with_reducible apply State.modContext_ok
    | with_reducible apply State.syncTables_ok
    | with_reducible apply OkO.map
    | with_reducible apply OkO.foldlBind
    | with_reducible apply OkO.bind
    | with_reducible apply OkO.none
    | with_reducible apply OkO.some
    | with_reducible apply Ok.foldl
    | with_reducible apply Ok.foldlP
    | with_reducible apply Ok.ite
    | with_reducible refine OkO.elim ?_ (by with_reducible assumption)
    | with_reducible refine OkOP.elim ?_ (by with_reducible assumption)
    | with_reducible refine Ok.pairElim ?_ (by with_reducible assumption)
    | dsimp only
    | split

theorem State.restoreTable_ok {ql : List Instr} {s : State} (t0 : KvTable) (h : Ok ql s) : OkOP ql (State.restoreTable s t0) := by
  unfold State.restoreTable
  try dsimp only
  repeat' first
    | with_reducible assumption
    | with_reducible intro _
    | simp only [Ok.lit]
    | with_reducible apply State.onWork_ok
    | with_reducible apply State.writeRange_ok
    | with_reducible apply State.allocKv_ok
    | with_reducible exact OkOP.none
    | with_reducible apply OkOP.some
    | with_reducible apply OkOP.pair
    | with_reducible apply OkOP.foldlBind
    | with_reducible apply OkOP.bind
    | with_reducible apply OkOP.map
    | with_reducible apply OkOP.mapS
    | with_reducible apply OkOP.mapO
    | with_reducible refine State.allocKv_eq ?_ (by with_reducible assumption)
    | with_reducible apply OkOP.foldlBind
    | with_reducible apply OkOP.bind
    | with_reducible apply OkOP.map
    | with_reducible apply OkOP.mapS
    | with_reducible apply OkO.mapS
    | with_reducible apply OkO.mapP
    | with_reducible apply OkO.getD
    | with_reducible apply OkOP.some
    | with_reducible apply OkO.map
    | with_reducible apply OkOP.mapO
    | with_reducible apply OkO.foldlBind
    | with_reducible apply OkO.bind
    | with_reducible apply OkO.none
    | with_reducible apply OkO.some
    | with_reducible apply Ok.foldl
    | with_reducible apply Ok.foldlP
    | with_reducible refine OkO.elim ?_ (by with_reducible assumption)
    | with_reducible refine OkOP.elim ?_ (by with_reducible assumption)
    | with_reducible refine Ok.pairElim ?_ (by with_reducible assumption)
    | dsimp only
    | split
theorem State.restoreTable_eq {ql : List Instr} {s : State} {t0 : KvTable} {x : _} {t : State} (h : Ok ql s) (e : State.restoreTable s t0 = some (t, x)) : Ok ql t :=
  State.restoreTable_ok t0 h _ _ e

theorem State.restoreCtx_ok {ql : List Instr} {s : State} (ctx : Nat) (h : Ok ql s) : Ok ql (State.restoreCtx s ctx) := by
  unfold State.restoreCtx
  try dsimp only
  repeat' first
    | with_reducible assumption
    | with_reducible intro _
    | simp only [Ok.lit]
    | with_reducible apply State.modContext_ok
    | with_reducible apply State.syncTables_ok
    | with_reducible apply State.settle_ok
    | with_reducible apply State.restoreTable_ok
    | with_reducible refine State.restoreTable_eq ?_ (by with_reducible assumption)
    | with_reducible apply OkOP.foldlBind
    | with_reducible apply OkOP.bind
    | with_reducible apply OkOP.map
    | with_reducible apply OkOP.mapS
    | with_reducible apply OkO.mapS
    | with_reducible apply OkO.mapP
    | with_reducible apply OkO.getD
    | with_reducible apply OkOP.some
    | with_reducible apply OkO.map
    | with_reducible apply OkOP.mapO
    | with_reducible apply OkO.foldlBind
    | with_reducible apply OkO.bind
    | with_reducible apply OkO.none
    | with_reducible apply OkO.some
    | with_reducible apply Ok.foldl
    | with_reducible apply Ok.foldlP
    | with_reducible apply Ok.ite
    | with_reducible refine OkO.elim ?_ (by with_reducible assumption)
    | with_reducible refine OkOP.elim ?_ (by with_reducible assumption)
    | with_reducible refine Ok.pairElim ?_ (by with_reducible assumption)
    | dsimp only
    | split

theorem State.dropWeights_ok {ql : List Instr} {s : State} (m : Model) (h : Ok ql s) : Ok ql (State.dropWeights s m) := by
  unfold State.dropWeights
  try dsimp only
  repeat' first
    | with_reducible assumption
    | simp only [Ok.lit]
    | with_reducible apply State.onWork_ok
    | dsimp only
    | split

theorem State.dropImage_ok {ql : List Instr} {s : State} (i : Nat) (h : Ok ql s) : Ok ql (State.dropImage s i) := by
  unfold State.dropImage
  try dsimp only
  repeat' first
    | with_reducible assumption
    | simp only [Ok.lit]
    | with_reducible apply State.modModel_ok
    | with_reducible apply State.dropWeights_ok
    | with_reducible apply Ok.ite
    | dsimp only
    | split

theorem State.freeOnce_ok {ql : List Instr} {s : State} (h : Ok ql s) : OkO ql (State.freeOnce s) := by
  unfold State.freeOnce
  try dsimp only
  repeat' first
    | with_reducible assumption
    | with_reducible intro _
    | simp only [Ok.lit]
    | with_reducible apply State.onWork_ok
    | with_reducible apply State.demote_ok
    | with_reducible apply State.lowerPools_ok
    | with_reducible apply State.spillCtx_ok
    | with_reducible apply State.dropImage_ok
    | with_reducible exact OkO.none
    | with_reducible apply OkO.some
    | with_reducible apply OkO.mapS
    | with_reducible apply OkO.mapP
    | with_reducible apply OkO.map
    | with_reducible apply OkO.foldlBind
    | with_reducible apply OkOP.foldlBind
    | with_reducible apply OkOP.bind
    | with_reducible apply OkOP.map
    | with_reducible apply OkOP.mapS
    | with_reducible apply OkO.mapS
    | with_reducible apply OkO.mapP
    | with_reducible apply OkO.getD
    | with_reducible apply OkOP.some
    | with_reducible apply OkO.map
    | with_reducible apply OkOP.mapO
    | with_reducible apply OkO.foldlBind
    | with_reducible apply OkO.bind
    | with_reducible apply OkO.none
    | with_reducible apply OkO.some
    | with_reducible apply Ok.foldl
    | with_reducible apply Ok.foldlP
    | with_reducible apply OkO.ite
    | with_reducible apply Ok.ite
    | with_reducible refine OkO.elim ?_ (by with_reducible assumption)
    | with_reducible refine OkOP.elim ?_ (by with_reducible assumption)
    | with_reducible refine Ok.pairElim ?_ (by with_reducible assumption)
    | dsimp only
    | split
theorem State.freeOnce_eq {ql : List Instr} {s : State} {t : State} (h : Ok ql s) (e : State.freeOnce s = some t) : Ok ql t :=
  State.freeOnce_ok  h _ e

/-! ### What Machine/Proboscis keeps -/

theorem State.reply_ok {ql : List Instr} {s : State} (g : Agent) (status : Nat) (h : Ok ql s) : Ok ql (State.reply s g status) := by
  unfold State.reply
  try dsimp only
  repeat' first
    | with_reducible assumption
    | with_reducible apply State.emit_ok

theorem State.engineError_ok {ql : List Instr} {s : State} (c : Nat) (e0 : Engine) (ev : Ev) (status a : Nat) (h : Ok ql s) : Ok ql (State.engineError s c e0 ev status a) := by
  unfold State.engineError
  try dsimp only
  repeat' first
    | with_reducible assumption
    | with_reducible apply State.taskError_ok
    | with_reducible apply Ok.ite
    | dsimp only
    | split

theorem State.accessFault_ok {ql : List Instr} {s : State} (g : Agent) (a : Nat) (ev : Ev) (h : Ok ql s) : Ok ql (State.accessFault s g a ev) := by
  unfold State.accessFault
  try dsimp only
  repeat' first
    | with_reducible assumption
    | with_reducible apply State.reply_ok
    | with_reducible apply State.engineError_ok
    | with_reducible apply Ok.ite
    | dsimp only
    | split

theorem State.probRecord_ok {ql : List Instr} {s : State} (m addr status port : Nat) (flags : BitVec 9) (h : Ok ql s) : Ok ql (State.probRecord s m addr status port flags) := by
  unfold State.probRecord
  try dsimp only
  repeat' first
    | with_reducible assumption
    | simp only [Ok.lit]
    | with_reducible apply State.modOuter_ok
    | with_reducible apply State.writeRange_ok
    | with_reducible apply Ok.ite
    | dsimp only
    | split

theorem State.passOp_ok {ql : List Instr} {s : State} (epoch w : Nat) (h : Ok ql s) : Ok ql (State.passOp s epoch w) := by
  unfold State.passOp
  try dsimp only
  repeat' first
    | with_reducible assumption
    | simp only [Ok.lit]
    | with_reducible apply State.onSvc_ok
    | with_reducible apply Ok.ite
    | dsimp only
    | split

theorem State.probSubmit_ok {ql : List Instr} {s : State} (m port : Nat) (core : Option Nat) (epoch : Nat) (record : List Byte) (poison : Bool) (reply : Option LPacket) (h : Ok ql s) : Ok ql (State.probSubmit s m port core epoch record poison reply).1 := by
  unfold State.probSubmit
  try dsimp only
  repeat' first
    | with_reducible assumption
    | simp only [Ok.lit]
    | with_reducible apply State.modCore_ok
    | with_reducible apply State.modOuter_ok
    | with_reducible apply State.probRecord_ok
    | with_reducible apply State.passOp_ok
    | with_reducible apply Ok.ite
    | dsimp only
    | split
theorem State.probSubmit_eq {ql : List Instr} {s : State} {m port : Nat} {core : Option Nat} {epoch : Nat} {record : List Byte} {poison : Bool} {reply : Option LPacket} {x : _} {t : State} (h : Ok ql s) (e : State.probSubmit s m port core epoch record poison reply = (t, x)) : Ok ql t := by
  have h9 := State.probSubmit_ok m port core epoch record poison reply h
  rw [e] at h9; exact h9

theorem State.probStore_ok {ql : List Instr} {s : State} (r : ProbRec) (poisonAll : Bool) (h : Ok ql s) : Ok ql (State.probStore s r poisonAll).1 := by
  unfold State.probStore
  try dsimp only
  repeat' first
    | with_reducible assumption
    | with_reducible intro _
    | with_reducible apply State.writeRange_ok
    | with_reducible apply Ok.foldl
    | simp only [Ok.lit]
    | split
theorem State.probStore_eq {ql : List Instr} {s : State} {r : ProbRec} {poisonAll : Bool} {x : _} {t : State} (h : Ok ql s) (e : State.probStore s r poisonAll = (t, x)) : Ok ql t := by
  have h9 := State.probStore_ok r poisonAll h
  rw [e] at h9; exact h9

theorem State.probAck_ok {ql : List Instr} {s : State} (m : Nat) (o : ProbOp) (h : Ok ql s) : Ok ql (State.probAck s m o) := by
  unfold State.probAck
  try extract_lets
  repeat' first
    | with_reducible assumption
    | with_reducible apply State.modCore_ok
    | with_reducible apply State.emit_ok
    | with_reducible apply State.reply_ok
    | with_reducible apply Ok.ite
    | split
    | dsimp +zetaDelta only

theorem State.probPublish_ok {ql : List Instr} {s : State} (m : Nat) (o : ProbOp) (timeout : Bool) (h : Ok ql s) : Ok ql (State.probPublish s m o timeout) := by
  unfold State.probPublish
  try dsimp only
  repeat' first
    | with_reducible assumption
    | with_reducible intro _
    | simp only [Ok.lit]
    | with_reducible apply State.modOuter_ok
    | with_reducible apply State.onMem_ok
    | with_reducible apply State.logEvent_ok
    | with_reducible apply State.visit_ok
    | with_reducible apply State.flushRecords_ok
    | with_reducible apply State.probRecord_ok
    | with_reducible apply State.probStore_ok
    | with_reducible apply State.probAck_ok
    | with_reducible refine State.probStore_eq ?_ (by with_reducible assumption)
    | with_reducible apply OkO.map
    | with_reducible apply OkO.foldlBind
    | with_reducible apply OkO.bind
    | with_reducible apply OkO.none
    | with_reducible apply OkO.some
    | with_reducible apply Ok.foldl
    | with_reducible apply Ok.foldlP
    | with_reducible apply Ok.onMem
    | (simp only [Ok.litM]; refine ⟨?_, ?_⟩)
    | with_reducible apply Mem.bumpInstar_wf
    | with_reducible apply Mem.foldl_wf
    | (simp only [Mem.lit_wf])
    | with_reducible exact Ok.wf (by with_reducible assumption)
    | with_reducible exact Ok.queue (by with_reducible assumption)
    | (exact (rfl : Mem.wf {} = true))
    | with_reducible apply Ok.ite
    | with_reducible refine OkO.elim ?_ (by with_reducible assumption)
    | with_reducible refine OkOP.elim ?_ (by with_reducible assumption)
    | with_reducible refine Ok.pairElim ?_ (by with_reducible assumption)
    | dsimp only
    | split

theorem execProboscisSubmit_ok {ql : List Instr} (m port : Nat) (record : List Byte) (poison : Bool) (c : Option Nat) {s : State} (h : Ok ql s) : OkR ql (execProboscisSubmit m port record poison c s) := by
  unfold execProboscisSubmit
  try extract_lets
  repeat' first
    | with_reducible assumption
    | with_reducible intro _
    | with_reducible apply State.reply_ok
    | with_reducible apply State.engineError_ok
    | with_reducible apply State.probSubmit_ok
    | with_reducible apply OkR.next
    | with_reducible refine State.probSubmit_eq ?_ (by with_reducible assumption)
    | with_reducible apply OkO.map
    | with_reducible apply OkO.foldlBind
    | with_reducible apply OkO.bind
    | with_reducible apply OkO.none
    | with_reducible apply OkO.some
    | with_reducible apply Ok.foldl
    | with_reducible apply Ok.foldlP
    | with_reducible apply OkR.ite
    | with_reducible apply Ok.ite
    | with_reducible refine OkO.elim ?_ (by with_reducible assumption)
    | with_reducible refine OkOP.elim ?_ (by with_reducible assumption)
    | with_reducible refine Ok.pairElim ?_ (by with_reducible assumption)
    | split
    | dsimp +zetaDelta only

theorem execProboscisStart_ok {ql : List Instr} (m : Nat) {s : State} (h : Ok ql s) : OkR ql (execProboscisStart m s) := by
  unfold execProboscisStart
  try dsimp only
  repeat' first
    | with_reducible assumption
    | with_reducible apply State.modOuter_ok
    | with_reducible apply OkR.next
    | with_reducible apply OkR.ite
    | split

theorem execRotationWindow_ok {ql : List Instr} (m : Nat) {s : State} (h : Ok ql s) : OkR ql (execRotationWindow m s) := by
  unfold execRotationWindow
  try dsimp only
  repeat' first
    | with_reducible assumption
    | with_reducible apply State.modOuter_ok
    | with_reducible apply OkR.next

theorem execProboscisPublish_ok {ql : List Instr} (m port : Nat) {s : State} (h : Ok ql s) : OkR ql (execProboscisPublish m port s) := by
  unfold execProboscisPublish
  try dsimp only
  repeat' first
    | with_reducible assumption
    | with_reducible apply State.probPublish_ok
    | with_reducible apply OkR.next
    | split

theorem execProboscisTimeout_ok {ql : List Instr} (m port : Nat) {s : State} (h : Ok ql s) : OkR ql (execProboscisTimeout m port s) := by
  unfold execProboscisTimeout
  try dsimp only
  repeat' first
    | with_reducible assumption
    | with_reducible apply State.probPublish_ok
    | with_reducible apply OkR.next
    | split

/-! ### What Machine/MoveGather keeps -/

theorem State.readEntry_ok {ql : List Instr} {s : State} (g : Agent) (q : QItem) (e0 : Nat) (h : Ok ql s) : Ok ql (State.readEntry s g q e0).1 := by
  unfold State.readEntry
  try dsimp only
  repeat' first
    | with_reducible assumption
    | simp only [Ok.lit]
    | with_reducible apply State.readRange_ok
    | with_reducible refine State.readRange_eq ?_ (by with_reducible assumption)
    | with_reducible apply Ok.ite
    | dsimp only
    | split
theorem State.readEntry_eq {ql : List Instr} {s : State} {g : Agent} {q : QItem} {e0 : Nat} {x : _} {t : State} (h : Ok ql s) (e : State.readEntry s g q e0 = (t, x)) : Ok ql t := by
  have h9 := State.readEntry_ok g q e0 h
  rw [e] at h9; exact h9

theorem State.walk_ok {ql : List Instr} {s : State} (g : Agent) (q : QItem) (last f e p : Nat) (h : Ok ql s) :
    Ok ql (State.walk s g q last f e p).1 := by
  induction f generalizing s e p with
  | zero => exact h
  | succ f ih =>
    unfold State.walk
    dsimp only
    split
    · exact h
    · split <;> rename_i he <;> have h1 := State.readEntry_eq h he <;> try exact h1
      split
      · exact ih _ _ h1
      · exact h1
theorem State.walk_eq {ql : List Instr} {s : State} {g : Agent} {q : QItem} {last f e p : Nat} {x : _} {t : State} (h : Ok ql s)
    (e9 : State.walk s g q last f e p = (t, x)) : Ok ql t := by
  have h9 := State.walk_ok g q last f e p h
  rw [e9] at h9; exact h9

theorem State.refusedAs_ok {ql : List Instr} {s : State} (x : Ans) (a : Nat) (h : Ok ql s) : OkW ql (State.refusedAs s x a) := by
  unfold State.refusedAs
  try dsimp only
  repeat' first
    | with_reducible assumption
    | with_reducible apply State.countBusy_ok
    | with_reducible apply OkW.ok
    | with_reducible apply OkW.ask
    | with_reducible apply OkW.hold
    | with_reducible apply OkW.err
    | with_reducible apply OkW.ite
    | with_reducible apply Ok.ite
    | dsimp only
    | split
theorem State.refusedAs_is_ok {ql : List Instr} {s : State} {x : Ans} {a : Nat} {t a1 a2 a3} (h : Ok ql s) (e : State.refusedAs s x a = .ok t a1 a2 a3) : Ok ql t := by
  have h9 := State.refusedAs_ok x a h
  rw [e] at h9; exact h9
theorem State.refusedAs_is_ask {ql : List Instr} {s : State} {x : Ans} {a : Nat} {t a1} (h : Ok ql s) (e : State.refusedAs s x a = .ask t a1) : Ok ql t := by
  have h9 := State.refusedAs_ok x a h
  rw [e] at h9; exact h9
theorem State.refusedAs_is_hold {ql : List Instr} {s : State} {x : Ans} {a : Nat} {t a1} (h : Ok ql s) (e : State.refusedAs s x a = .hold t a1) : Ok ql t := by
  have h9 := State.refusedAs_ok x a h
  rw [e] at h9; exact h9
theorem State.refusedAs_is_err {ql : List Instr} {s : State} {x : Ans} {a : Nat} {t a1 a2 a3} (h : Ok ql s) (e : State.refusedAs s x a = .err t a1 a2 a3) : Ok ql t := by
  have h9 := State.refusedAs_ok x a h
  rw [e] at h9; exact h9

theorem State.fetchDesc_ok {ql : List Instr} {s : State} (c slot : Nat) (h : Ok ql s) : Ok ql (State.fetchDesc s c slot).1 := by
  unfold State.fetchDesc
  try dsimp only
  repeat' first
    | with_reducible assumption
    | simp only [Ok.lit]
    | with_reducible apply State.readRange_ok
    | with_reducible refine State.readRange_eq ?_ (by with_reducible assumption)
    | with_reducible apply Ok.ite
    | dsimp only
    | split
theorem State.fetchDesc_eq {ql : List Instr} {s : State} {c slot : Nat} {x : _} {t : State} (h : Ok ql s) (e : State.fetchDesc s c slot = (t, x)) : Ok ql t := by
  have h9 := State.fetchDesc_ok c slot h
  rw [e] at h9; exact h9

theorem State.readDescs_ok {ql : List Instr} {s : State} (c : Nat) (q : QItem) (h : Ok ql s) : Ok ql (State.readDescs s c q).1 := by
  unfold State.readDescs
  try extract_lets
  repeat' first
    | with_reducible assumption
    | simp only [Ok.lit]
    | with_reducible apply State.fetchDesc_ok
    | with_reducible refine State.fetchDesc_eq ?_ (by with_reducible assumption)
    | with_reducible apply Ok.ite
    | split
    | dsimp +zetaDelta only
theorem State.readDescs_eq {ql : List Instr} {s : State} {c : Nat} {q : QItem} {x : _} {t : State} (h : Ok ql s) (e : State.readDescs s c q = (t, x)) : Ok ql t := by
  have h9 := State.readDescs_ok c q h
  rw [e] at h9; exact h9

theorem State.planGPage_ok {ql : List Instr} {s : State} (c : Nat) (q : QItem) (h : Ok ql s) : OkW ql (State.planGPage s c q) := by
  unfold State.planGPage
  try extract_lets
  repeat' first
    | with_reducible assumption
    | with_reducible intro _
    | simp only [Ok.lit]
    | with_reducible apply State.modCore_ok
    | with_reducible apply State.draw_ok
    | with_reducible apply State.storeElems_ok
    | with_reducible apply State.walk_ok
    | with_reducible apply State.refusedAs_ok
    | with_reducible apply OkW.ok
    | with_reducible apply OkW.ask
    | with_reducible apply OkW.hold
    | with_reducible apply OkW.err
    | with_reducible refine State.refusedAs_is_ok ?_ (by with_reducible assumption)
    | with_reducible refine State.refusedAs_is_ask ?_ (by with_reducible assumption)
    | with_reducible refine State.refusedAs_is_hold ?_ (by with_reducible assumption)
    | with_reducible refine State.refusedAs_is_err ?_ (by with_reducible assumption)
    | with_reducible apply OkO.map
    | with_reducible apply OkO.foldlBind
    | with_reducible apply OkO.bind
    | with_reducible apply OkO.none
    | with_reducible apply OkO.some
    | with_reducible apply Ok.foldl
    | with_reducible apply Ok.foldlP
    | with_reducible apply OkW.ite
    | with_reducible apply Ok.ite
    | with_reducible refine OkO.elim ?_ (by with_reducible assumption)
    | with_reducible refine OkOP.elim ?_ (by with_reducible assumption)
    | with_reducible refine Ok.pairElim ?_ (by with_reducible assumption)
    | split
    | dsimp +zetaDelta only
theorem State.planGPage_is_ok {ql : List Instr} {s : State} {c : Nat} {q : QItem} {t a1 a2 a3} (h : Ok ql s) (e : State.planGPage s c q = .ok t a1 a2 a3) : Ok ql t := by
  have h9 := State.planGPage_ok c q h
  rw [e] at h9; exact h9
theorem State.planGPage_is_ask {ql : List Instr} {s : State} {c : Nat} {q : QItem} {t a1} (h : Ok ql s) (e : State.planGPage s c q = .ask t a1) : Ok ql t := by
  have h9 := State.planGPage_ok c q h
  rw [e] at h9; exact h9
theorem State.planGPage_is_hold {ql : List Instr} {s : State} {c : Nat} {q : QItem} {t a1} (h : Ok ql s) (e : State.planGPage s c q = .hold t a1) : Ok ql t := by
  have h9 := State.planGPage_ok c q h
  rw [e] at h9; exact h9
theorem State.planGPage_is_err {ql : List Instr} {s : State} {c : Nat} {q : QItem} {t a1 a2 a3} (h : Ok ql s) (e : State.planGPage s c q = .err t a1 a2 a3) : Ok ql t := by
  have h9 := State.planGPage_ok c q h
  rw [e] at h9; exact h9

theorem State.planRows_ok {ql : List Instr} {s : State} (c : Nat) (q : QItem) (h : Ok ql s) : OkW ql (State.planRows s c q) := by
  unfold State.planRows
  try dsimp only
  repeat' first
    | with_reducible assumption
    | simp only [Ok.lit]
    | with_reducible apply State.planGPage_ok
    | with_reducible apply OkW.ok
    | with_reducible apply OkW.ask
    | with_reducible apply OkW.hold
    | with_reducible apply OkW.err
    | with_reducible refine State.planGPage_is_ok ?_ (by with_reducible assumption)
    | with_reducible refine State.planGPage_is_ask ?_ (by with_reducible assumption)
    | with_reducible refine State.planGPage_is_hold ?_ (by with_reducible assumption)
    | with_reducible refine State.planGPage_is_err ?_ (by with_reducible assumption)
    | with_reducible apply OkW.ite
    | with_reducible apply Ok.ite
    | dsimp only
    | split
theorem State.planRows_is_ok {ql : List Instr} {s : State} {c : Nat} {q : QItem} {t a1 a2 a3} (h : Ok ql s) (e : State.planRows s c q = .ok t a1 a2 a3) : Ok ql t := by
  have h9 := State.planRows_ok c q h
  rw [e] at h9; exact h9
theorem State.planRows_is_ask {ql : List Instr} {s : State} {c : Nat} {q : QItem} {t a1} (h : Ok ql s) (e : State.planRows s c q = .ask t a1) : Ok ql t := by
  have h9 := State.planRows_ok c q h
  rw [e] at h9; exact h9
theorem State.planRows_is_hold {ql : List Instr} {s : State} {c : Nat} {q : QItem} {t a1} (h : Ok ql s) (e : State.planRows s c q = .hold t a1) : Ok ql t := by
  have h9 := State.planRows_ok c q h
  rw [e] at h9; exact h9
theorem State.planRows_is_err {ql : List Instr} {s : State} {c : Nat} {q : QItem} {t a1 a2 a3} (h : Ok ql s) (e : State.planRows s c q = .err t a1 a2 a3) : Ok ql t := by
  have h9 := State.planRows_ok c q h
  rw [e] at h9; exact h9

theorem State.noteInstar_ok {ql : List Instr} {s : State} (c : Nat) (e0 : Engine) (seq page : Nat) (i : Word) (h : Ok ql s) : Ok ql (State.noteInstar s c e0 seq page i) := by
  unfold State.noteInstar
  try dsimp only
  repeat' first
    | with_reducible assumption
    | with_reducible apply State.modCore_ok

theorem State.sendRemote_ok {ql : List Instr} {s : State} (c : Nat) (e0 : Engine) (seq dest : Nat) (p : LPacket) (entry : Option Nat) (h : Ok ql s) : Ok ql (State.sendRemote s c e0 seq dest p entry) := by
  unfold State.sendRemote
  try dsimp only
  repeat' first
    | with_reducible assumption
    | simp only [Ok.lit]
    | with_reducible apply State.onLys_ok
    | with_reducible apply State.emit_ok
    | with_reducible apply Ok.ite
    | dsimp only
    | split

theorem State.reissue_ok {ql : List Instr} {s : State} (c : Nat) (q : QItem) (h : Ok ql s) : Ok ql (State.reissue s c q) := by
  unfold State.reissue
  try dsimp only
  repeat' first
    | with_reducible assumption
    | with_reducible apply State.modCore_ok
    | with_reducible apply State.modSlice_ok
    | split

theorem State.judge_ok {ql : List Instr} {s : State} (c : Nat) (seq : Nat) (reads : List Nat) (h : Ok ql s) : Ok ql (State.judge s c seq reads).1 := by
  unfold State.judge
  try dsimp only
  repeat' first
    | with_reducible assumption
    | with_reducible intro _
    | simp only [Ok.lit]
    | with_reducible apply State.modCore_ok
    | with_reducible apply State.sendRemote_ok
    | with_reducible apply State.reissue_ok
    | with_reducible apply Ok.foldl
    | with_reducible apply Ok.foldlP
    | split
theorem State.judge_eq {ql : List Instr} {s : State} {c : Nat} {seq : Nat} {reads : List Nat} {x : _} {t : State} (h : Ok ql s) (e : State.judge s c seq reads = (t, x)) : Ok ql t := by
  have h9 := State.judge_ok c seq reads h
  rw [e] at h9; exact h9

theorem State.runXV_ok {ql : List Instr} {s : State} (c op : Nat) (w : IFields) (off seq : Nat) (h : Ok ql s) : Ok ql (State.runXV s c op w off seq) := by
  unfold State.runXV
  try dsimp only
  repeat' first
    | with_reducible assumption
    | with_reducible apply State.modCore_ok
    | with_reducible apply State.vecOp_ok
    | with_reducible apply State.taskError_ok
    | with_reducible refine State.cubeOp_is_ok ?_ (by with_reducible assumption)
    | with_reducible refine State.cubeOp_is_err ?_ (by with_reducible assumption)
    | split

theorem State.runMembers_ok {ql : List Instr} {s : State} (c : Nat) (l : List (Nat × Nat × IFields × Nat)) (h : Ok ql s) :
    Ok ql (State.runMembers s c l) := by
  induction l generalizing s with
  | nil => exact h
  | cons u t ih =>
    unfold State.runMembers
    split
    · exact h
    · exact ih (State.runXV_ok _ _ _ _ _ (State.modCore_ok _ _ h))

theorem State.hitChain_ok {ql : List Instr} {s : State} (c : Nat) (units : List Nat) (h : Ok ql s) : Ok ql (State.hitChain s c units) := by
  unfold State.hitChain
  try dsimp only
  repeat' first
    | with_reducible assumption
    | with_reducible apply State.taskError_ok
    | with_reducible apply State.runMembers_ok
    | with_reducible apply Ok.ite
    | split

theorem State.landed_ok {ql : List Instr} {s : State} (a len : Nat) (h : Ok ql s) : Ok ql (State.landed s a len) := by
  unfold State.landed
  try dsimp only
  repeat' first
    | with_reducible assumption
    | with_reducible apply State.modCore_ok
    | with_reducible apply State.overwrite_ok
    | with_reducible apply State.hitChain_ok
    | with_reducible apply Ok.ite
    | dsimp only
    | split

theorem State.loadRow_ok {ql : List Instr} {s : State} (c : Nat) (e0 : Engine) (q : QItem) (r a : Nat) (h : Ok ql s) : Ok ql (State.loadRow s c e0 q r a) := by
  unfold State.loadRow
  try dsimp only
  repeat' first
    | with_reducible assumption
    | with_reducible intro _
    | with_reducible apply State.readRange_ok
    | with_reducible apply State.spStore_ok
    | with_reducible apply State.noteInstar_ok
    | with_reducible apply Ok.foldl

theorem State.storeRow_ok {ql : List Instr} {s : State} (c : Nat) (q : QItem) (r a : Nat) (h : Ok ql s) : Ok ql (State.storeRow s c q r a) := by
  unfold State.storeRow
  try dsimp only
  repeat' first
    | with_reducible assumption
    | with_reducible apply State.modCore_ok
    | with_reducible apply State.writeRange_ok
    | with_reducible apply State.landed_ok

theorem State.moveRows_ok {ql : List Instr} {s : State} (c : Nat) (e : Engine) (q : QItem) (r : Nat) (l : List (Nat × Option Int))
    (h : Ok ql s) : OkF ql (State.moveRows s c e q r l) := by
  induction l generalizing s r with
  | nil => exact h
  | cons u t ih =>
    obtain ⟨i, u⟩ := u
    cases u <;> unfold State.moveRows <;> try dsimp only
    all_goals
      repeat' first
        | with_reducible assumption
        | with_reducible apply ih
        | with_reducible apply OkF.hold
        | with_reducible apply OkF.err
        | with_reducible apply State.spStore_ok
        | with_reducible apply State.loadRow_ok
        | with_reducible apply State.storeRow_ok
        | with_reducible apply State.countBusy_ok
        | with_reducible refine State.probSubmit_eq ?_ (by with_reducible assumption)
        | split

theorem State.sendRows_ok {ql : List Instr} {s : State} (c : Nat) (e : Engine) (q : QItem) (dev r : Nat) (l : List (Option Int))
    (h : Ok ql s) : OkF ql (State.sendRows s c e q dev r l) := by
  induction l generalizing s r with
  | nil => exact h
  | cons u t ih =>
    cases u <;> unfold State.sendRows <;> try dsimp only
    all_goals
      repeat' first
        | with_reducible assumption
        | with_reducible apply ih
        | with_reducible apply OkF.err
        | with_reducible apply State.spStore_ok
        | with_reducible apply State.modCore_ok
        | with_reducible apply State.sendRemote_ok
        | with_reducible apply Ok.foldl
        | split
        | intro _

theorem State.issueRead_ok {ql : List Instr} {s : State} (qp : Nat) (r : OutRead) (h : Ok ql s) : Ok ql (State.issueRead s qp r) := by
  unfold State.issueRead
  try dsimp only
  repeat' first
    | with_reducible assumption
    | with_reducible apply State.modPort_ok
    | with_reducible apply State.modQp_ok
    | with_reducible apply State.emit_ok
    | with_reducible apply Ok.ite
    | split

theorem State.sendWrite_ok {ql : List Instr} {s : State} (qp : Nat) (w : OutWrite) (h : Ok ql s) : Ok ql (State.sendWrite s qp w) := by
  unfold State.sendWrite
  try dsimp only
  repeat' first
    | with_reducible assumption
    | with_reducible apply State.modQp_ok
    | with_reducible apply State.emit_ok

theorem State.hostLoad_ok {ql : List Instr} {s : State} (c : Nat) (e : Engine) (q : QItem) (win : Win) (r : Nat) (l : List (Option Int))
    (h : Ok ql s) : OkF ql (State.hostLoad s c e q win r l) := by
  induction l generalizing s r with
  | nil => exact h
  | cons u t ih =>
    cases u <;> unfold State.hostLoad <;> try dsimp only
    all_goals
      repeat' first
        | with_reducible assumption
        | with_reducible apply ih
        | with_reducible apply OkF.hold
        | with_reducible apply State.spStore_ok
        | with_reducible apply State.issueRead_ok

theorem State.hostStore_ok {ql : List Instr} {s : State} (c : Nat) (e : Engine) (q : QItem) (win : Win) (r : Nat) (l : List (Option Int))
    (h : Ok ql s) : OkF ql (State.hostStore s c e q win r l) := by
  induction l generalizing s r with
  | nil => exact h
  | cons u t ih =>
    cases u <;> unfold State.hostStore <;> try dsimp only
    all_goals
      repeat' first
        | with_reducible assumption
        | with_reducible apply ih
        | with_reducible apply OkF.err
        | with_reducible apply State.sendWrite_ok
        | split

theorem State.transfer_ok {ql : List Instr} {s : State} (c : Nat) (e0 : Engine) (q : QItem) (h : Ok ql s) : OkF ql (State.transfer s c e0 q) := by
  unfold State.transfer
  try extract_lets
  repeat' first
    | with_reducible assumption
    | simp only [Ok.lit]
    | with_reducible apply State.moveRows_ok
    | with_reducible apply State.sendRows_ok
    | with_reducible apply State.hostLoad_ok
    | with_reducible apply State.hostStore_ok
    | with_reducible apply OkF.done
    | with_reducible apply OkF.hold
    | with_reducible apply OkF.err
    | with_reducible apply OkF.ite
    | with_reducible apply Ok.ite
    | split
    | dsimp +zetaDelta only
theorem State.transfer_is_done {ql : List Instr} {s : State} {c : Nat} {e0 : Engine} {q : QItem} {t} (h : Ok ql s) (e : State.transfer s c e0 q = .done t) : Ok ql t := by
  have h9 := State.transfer_ok c e0 q h
  rw [e] at h9; exact h9
theorem State.transfer_is_hold {ql : List Instr} {s : State} {c : Nat} {e0 : Engine} {q : QItem} {t a1 a2} (h : Ok ql s) (e : State.transfer s c e0 q = .hold t a1 a2) : Ok ql t := by
  have h9 := State.transfer_ok c e0 q h
  rw [e] at h9; exact h9
theorem State.transfer_is_err {ql : List Instr} {s : State} {c : Nat} {e0 : Engine} {q : QItem} {t a1 a2 a3} (h : Ok ql s) (e : State.transfer s c e0 q = .err t a1 a2 a3) : Ok ql t := by
  have h9 := State.transfer_ok c e0 q h
  rw [e] at h9; exact h9

theorem State.moved_ok {ql : List Instr} {s : State} (c : Nat) (e0 : Engine) (seq : Nat) (h : Ok ql s) : Ok ql (State.moved s c e0 seq) := by
  unfold State.moved
  try extract_lets
  repeat' first
    | with_reducible assumption
    | simp only [Ok.lit]
    | with_reducible apply State.modItem_ok
    | with_reducible apply State.taskError_ok
    | with_reducible apply State.done_ok
    | with_reducible apply Ok.ite
    | split
    | dsimp +zetaDelta only

theorem State.continueItem_ok {ql : List Instr} {s : State} (c : Nat) (e0 : Engine) (seq : Nat) (h : Ok ql s) : Ok ql (State.continueItem s c e0 seq) := by
  unfold State.continueItem
  try dsimp only
  repeat' first
    | with_reducible assumption
    | simp only [Ok.lit]
    | with_reducible apply State.modItem_ok
    | with_reducible apply State.taskError_ok
    | with_reducible apply State.transfer_ok
    | with_reducible apply State.moved_ok
    | with_reducible apply State.done_ok
    | with_reducible refine State.transfer_is_done ?_ (by with_reducible assumption)
    | with_reducible refine State.transfer_is_hold ?_ (by with_reducible assumption)
    | with_reducible refine State.transfer_is_err ?_ (by with_reducible assumption)
    | with_reducible apply Ok.ite
    | dsimp only
    | split

theorem State.askEntry_ok {ql : List Instr} {s : State} (c : Nat) (e0 : Engine) (q : QItem) (n : Nat) (h : Ok ql s) : Ok ql (State.askEntry s c e0 q n) := by
  unfold State.askEntry
  try extract_lets
  repeat' first
    | with_reducible assumption
    | simp only [Ok.lit]
    | with_reducible apply State.modItem_ok
    | with_reducible apply State.taskError_ok
    | with_reducible apply State.sendRemote_ok
    | with_reducible apply State.issueRead_ok
    | with_reducible apply Ok.ite
    | split
    | dsimp +zetaDelta only

theorem State.startLong_ok {ql : List Instr} {s : State} (c : Nat) (e0 : Engine) (seq : Nat) (h : Ok ql s) : Ok ql (State.startLong s c e0 seq) := by
  unfold State.startLong
  try extract_lets
  repeat' first
    | with_reducible assumption
    | with_reducible intro _
    | simp only [Ok.lit]
    | with_reducible apply State.modCore_ok
    | with_reducible apply State.overwrite_ok
    | with_reducible apply State.modItem_ok
    | with_reducible apply State.taskError_ok
    | with_reducible apply State.readDescs_ok
    | with_reducible apply State.planRows_ok
    | with_reducible apply State.continueItem_ok
    | with_reducible apply State.askEntry_ok
    | with_reducible refine State.readDescs_eq ?_ (by with_reducible assumption)
    | with_reducible refine State.planRows_is_ok ?_ (by with_reducible assumption)
    | with_reducible refine State.planRows_is_ask ?_ (by with_reducible assumption)
    | with_reducible refine State.planRows_is_hold ?_ (by with_reducible assumption)
    | with_reducible refine State.planRows_is_err ?_ (by with_reducible assumption)
    | with_reducible apply OkO.map
    | with_reducible apply OkO.foldlBind
    | with_reducible apply OkO.bind
    | with_reducible apply OkO.none
    | with_reducible apply OkO.some
    | with_reducible apply Ok.foldl
    | with_reducible apply Ok.foldlP
    | with_reducible apply Ok.ite
    | with_reducible refine OkO.elim ?_ (by with_reducible assumption)
    | with_reducible refine OkOP.elim ?_ (by with_reducible assumption)
    | with_reducible refine Ok.pairElim ?_ (by with_reducible assumption)
    | split
    | dsimp +zetaDelta only

theorem State.wakeSlots_ok {ql : List Instr} {s : State} (c : Nat) (h : Ok ql s) : Ok ql (State.wakeSlots s c) := by
  unfold State.wakeSlots
  try dsimp only
  repeat' first
    | with_reducible assumption
    | with_reducible intro _
    | with_reducible apply State.continueItem_ok
    | with_reducible apply OkO.map
    | with_reducible apply OkO.foldlBind
    | with_reducible apply OkO.bind
    | with_reducible apply OkO.none
    | with_reducible apply OkO.some
    | with_reducible apply Ok.foldl
    | with_reducible apply Ok.foldlP
    | with_reducible apply Ok.ite
    | with_reducible refine OkO.elim ?_ (by with_reducible assumption)
    | with_reducible refine OkOP.elim ?_ (by with_reducible assumption)
    | with_reducible refine Ok.pairElim ?_ (by with_reducible assumption)
    | dsimp only
    | split

/-! ### What Machine/Sequencer keeps -/

theorem State.startQueue_ok {ql : List Instr} {s : State} (c : Nat) (e : Engine) (n : Nat) (h : Ok ql s) :
    Ok ql (State.startQueue s c e n) := by
  induction n generalizing s with
  | zero => exact h
  | succ n ih =>
    unfold State.startQueue
    dsimp only
    repeat' first
      | with_reducible assumption
      | with_reducible apply ih
      | with_reducible apply State.runXV_ok
      | with_reducible apply State.startLong_ok
      | with_reducible apply State.judge_ok
      | with_reducible apply State.modCore_ok
      | split

theorem State.enqueue_ok {ql : List Instr} {s : State} (c : Nat) (e0 : Engine) (it : SItem) (h : Ok ql s) : Ok ql (State.enqueue s c e0 it) := by
  unfold State.enqueue
  try dsimp only
  repeat' first
    | with_reducible assumption
    | with_reducible apply State.modCore_ok
    | with_reducible apply State.startQueue_ok

theorem State.endKernel_ok {ql : List Instr} {s : State} (c : Nat) (h : Ok ql s) : Ok ql (State.endKernel s c) := by
  unfold State.endKernel
  try dsimp only
  repeat' first
    | with_reducible assumption
    | with_reducible apply State.modCore_ok
    | with_reducible apply State.clusterDone_ok

theorem State.tickCore_ok {ql : List Instr} {s : State} (c : Nat) (h : Ok ql s) : Ok ql (State.tickCore s c) := by
  unfold State.tickCore
  try dsimp only
  repeat' first
    | with_reducible assumption
    | simp only [Ok.lit]
    | with_reducible apply State.modCore_ok
    | with_reducible apply State.draw_ok
    | dsimp only
    | split

theorem State.dispatchHead_ok {ql : List Instr} {s : State} (c : Nat) (it : SItem) (rest : List SItem) (h : Ok ql s) : Ok ql (State.dispatchHead s c it rest).1 := by
  unfold State.dispatchHead
  try dsimp only
  repeat' first
    | with_reducible assumption
    | with_reducible intro _
    | simp only [Ok.lit]
    | with_reducible apply State.modCore_ok
    | with_reducible apply State.overwrite_ok
    | with_reducible apply State.storeElems_ok
    | with_reducible apply State.taskError_ok
    | with_reducible apply State.enqueue_ok
    | with_reducible apply State.endKernel_ok
    | with_reducible apply State.tickCore_ok
    | with_reducible apply State.drain_ok
    | with_reducible apply OkO.map
    | with_reducible apply OkO.foldlBind
    | with_reducible apply OkO.bind
    | with_reducible apply OkO.none
    | with_reducible apply OkO.some
    | with_reducible apply Ok.foldl
    | with_reducible apply Ok.foldlP
    | with_reducible apply Ok.ite
    | with_reducible refine OkO.elim ?_ (by with_reducible assumption)
    | with_reducible refine OkOP.elim ?_ (by with_reducible assumption)
    | with_reducible refine Ok.pairElim ?_ (by with_reducible assumption)
    | dsimp only
    | split
theorem State.dispatchHead_eq {ql : List Instr} {s : State} {c : Nat} {it : SItem} {rest : List SItem} {x : _} {t : State} (h : Ok ql s) (e : State.dispatchHead s c it rest = (t, x)) : Ok ql t := by
  have h9 := State.dispatchHead_ok c it rest h
  rw [e] at h9; exact h9

theorem State.pumpN_ok {ql : List Instr} (n : Nat) {s : State} (c : Nat) (h : Ok ql s) : Ok ql (State.pumpN n s c) := by
  induction n generalizing s with
  | zero => exact h
  | succ n ih =>
    unfold State.pumpN
    dsimp only
    repeat' first
      | with_reducible assumption
      | with_reducible apply ih
      | with_reducible refine State.dispatchHead_eq ?_ (by with_reducible assumption)
      | split

theorem State.pump_ok {ql : List Instr} {s : State} (c : Nat) (h : Ok ql s) : Ok ql (State.pump s c) := by
  unfold State.pump
  try dsimp only
  repeat' first
    | with_reducible assumption
    | with_reducible apply State.pumpN_ok

theorem State.completed_ok {ql : List Instr} {s : State} (c : Nat) (h : Ok ql s) : Ok ql (State.completed s c) := by
  unfold State.completed
  try dsimp only
  repeat' first
    | with_reducible assumption
    | with_reducible apply State.modCore_ok
    | with_reducible apply State.pump_ok

theorem State.fetch_ok {ql : List Instr} {s : State} (c op : Nat) (w : IFields) (h : Ok ql s) : OkR ql (State.fetch s c op w) := by
  unfold State.fetch
  try dsimp only
  repeat' first
    | with_reducible assumption
    | with_reducible apply State.modCore_ok
    | with_reducible apply State.pump_ok
    | with_reducible apply State.completed_ok
    | with_reducible apply OkR.next
    | with_reducible apply OkR.ite

theorem execNop_ok {ql : List Instr} (c : Nat) (w : IFields) {s : State} (h : Ok ql s) : OkR ql (execNop c w s) := by
  unfold execNop
  try dsimp only
  repeat' first
    | with_reducible assumption
    | with_reducible apply State.fetch_ok

theorem execEndKernel_ok {ql : List Instr} (c : Nat) (w : IFields) {s : State} (h : Ok ql s) : OkR ql (execEndKernel c w s) := by
  unfold execEndKernel
  try dsimp only
  repeat' first
    | with_reducible assumption
    | with_reducible apply State.fetch_ok

theorem execLoop_ok {ql : List Instr} (c : Nat) (w : IFields) {s : State} (h : Ok ql s) : OkR ql (execLoop c w s) := by
  unfold execLoop
  try dsimp only
  repeat' first
    | with_reducible assumption
    | with_reducible apply State.fetch_ok

theorem execWaitq_ok {ql : List Instr} (c : Nat) (w : IFields) {s : State} (h : Ok ql s) : OkR ql (execWaitq c w s) := by
  unfold execWaitq
  try dsimp only
  repeat' first
    | with_reducible assumption
    | with_reducible apply State.fetch_ok

theorem execDrain_ok {ql : List Instr} (c : Nat) (w : IFields) {s : State} (h : Ok ql s) : OkR ql (execDrain c w s) := by
  unfold execDrain
  try dsimp only
  repeat' first
    | with_reducible assumption
    | with_reducible apply State.fetch_ok

theorem execBara_ok {ql : List Instr} (c : Nat) (w : IFields) {s : State} (h : Ok ql s) : OkR ql (execBara c w s) := by
  unfold execBara
  try dsimp only
  repeat' first
    | with_reducible assumption
    | with_reducible apply State.fetch_ok

theorem execBarw_ok {ql : List Instr} (c : Nat) (w : IFields) {s : State} (h : Ok ql s) : OkR ql (execBarw c w s) := by
  unfold execBarw
  try dsimp only
  repeat' first
    | with_reducible assumption
    | with_reducible apply State.fetch_ok

theorem execRdreg_ok {ql : List Instr} (c : Nat) (w : IFields) {s : State} (h : Ok ql s) : OkR ql (execRdreg c w s) := by
  unfold execRdreg
  try dsimp only
  repeat' first
    | with_reducible assumption
    | with_reducible apply State.fetch_ok

theorem execPmark_ok {ql : List Instr} (c : Nat) (w : IFields) {s : State} (h : Ok ql s) : OkR ql (execPmark c w s) := by
  unfold execPmark
  try dsimp only
  repeat' first
    | with_reducible assumption
    | with_reducible apply State.fetch_ok

theorem execChain_ok {ql : List Instr} (c : Nat) (w : IFields) {s : State} (h : Ok ql s) : OkR ql (execChain c w s) := by
  unfold execChain
  try dsimp only
  repeat' first
    | with_reducible assumption
    | with_reducible apply State.fetch_ok

theorem State.resume_ok {ql : List Instr} {s : State} (c : Nat) (h : Ok ql s) : Ok ql (State.resume s c) := by
  unfold State.resume
  try dsimp only
  repeat' first
    | with_reducible assumption
    | with_reducible apply State.modCore_ok
    | with_reducible apply State.completed_ok

theorem execWaitqRelease_ok {ql : List Instr} (c : Nat) {s : State} (h : Ok ql s) : OkR ql (execWaitqRelease c s) := by
  unfold execWaitqRelease
  try dsimp only
  repeat' first
    | with_reducible assumption
    | with_reducible apply State.resume_ok
    | with_reducible apply OkR.next
    | with_reducible apply OkR.ite
    | split

theorem execDrainRelease_ok {ql : List Instr} (c : Nat) {s : State} (h : Ok ql s) : OkR ql (execDrainRelease c s) := by
  unfold execDrainRelease
  try dsimp only
  repeat' first
    | with_reducible assumption
    | with_reducible apply State.resume_ok
    | with_reducible apply OkR.next
    | with_reducible apply OkR.ite
    | split

theorem execSequencerStallRelease_ok {ql : List Instr} (c : Nat) {s : State} (h : Ok ql s) : OkR ql (execSequencerStallRelease c s) := by
  unfold execSequencerStallRelease
  try dsimp only
  repeat' first
    | with_reducible assumption
    | with_reducible apply State.resume_ok
    | with_reducible apply OkR.next
    | with_reducible apply OkR.ite
    | split

theorem execBarrierRelease_ok {ql : List Instr} (task cd id : Nat) (scope : Bool) {s : State} (h : Ok ql s) : OkR ql (execBarrierRelease task cd id scope s) := by
  unfold execBarrierRelease
  try dsimp only
  repeat' first
    | with_reducible assumption
    | with_reducible intro _
    | with_reducible apply State.modCore_ok
    | with_reducible apply State.resume_ok
    | with_reducible apply OkR.next
    | with_reducible apply Ok.foldl
    | with_reducible apply OkR.ite
    | with_reducible apply Ok.ite

theorem execChainCycleZero_ok {ql : List Instr} (c : Nat) (offSchedule : Option Nat) {s : State} (h : Ok ql s) : OkR ql (execChainCycleZero c offSchedule s) := by
  unfold execChainCycleZero
  try dsimp only
  repeat' first
    | with_reducible assumption
    | with_reducible apply State.modCore_ok
    | with_reducible apply State.taskError_ok
    | with_reducible apply State.judge_ok
    | with_reducible apply State.runMembers_ok
    | with_reducible apply OkR.next
    | with_reducible apply OkR.ite
    | split

theorem execAclr_ok {ql : List Instr} (c : Nat) (w : IFields) {s : State} (h : Ok ql s) : OkR ql (execAclr c w s) := by
  unfold execAclr
  try dsimp only
  repeat' first
    | with_reducible assumption
    | with_reducible apply State.fetch_ok

theorem execCmma_ok {ql : List Instr} (c : Nat) (w : IFields) {s : State} (h : Ok ql s) : OkR ql (execCmma c w s) := by
  unfold execCmma
  try dsimp only
  repeat' first
    | with_reducible assumption
    | with_reducible apply State.fetch_ok

theorem execCcvt_ok {ql : List Instr} (c : Nat) (w : IFields) {s : State} (h : Ok ql s) : OkR ql (execCcvt c w s) := by
  unfold execCcvt
  try dsimp only
  repeat' first
    | with_reducible assumption
    | with_reducible apply State.fetch_ok

theorem execAccst_ok {ql : List Instr} (c : Nat) (w : IFields) {s : State} (h : Ok ql s) : OkR ql (execAccst c w s) := by
  unfold execAccst
  try dsimp only
  repeat' first
    | with_reducible assumption
    | with_reducible apply State.fetch_ok

theorem execAccld_ok {ql : List Instr} (c : Nat) (w : IFields) {s : State} (h : Ok ql s) : OkR ql (execAccld c w s) := by
  unfold execAccld
  try dsimp only
  repeat' first
    | with_reducible assumption
    | with_reducible apply State.fetch_ok

theorem execVadd_ok {ql : List Instr} (c : Nat) (w : IFields) {s : State} (h : Ok ql s) : OkR ql (execVadd c w s) := by
  unfold execVadd
  try dsimp only
  repeat' first
    | with_reducible assumption
    | with_reducible apply State.fetch_ok

theorem execVsub_ok {ql : List Instr} (c : Nat) (w : IFields) {s : State} (h : Ok ql s) : OkR ql (execVsub c w s) := by
  unfold execVsub
  try dsimp only
  repeat' first
    | with_reducible assumption
    | with_reducible apply State.fetch_ok

theorem execVmul_ok {ql : List Instr} (c : Nat) (w : IFields) {s : State} (h : Ok ql s) : OkR ql (execVmul c w s) := by
  unfold execVmul
  try dsimp only
  repeat' first
    | with_reducible assumption
    | with_reducible apply State.fetch_ok

theorem execVfma_ok {ql : List Instr} (c : Nat) (w : IFields) {s : State} (h : Ok ql s) : OkR ql (execVfma c w s) := by
  unfold execVfma
  try dsimp only
  repeat' first
    | with_reducible assumption
    | with_reducible apply State.fetch_ok

theorem execVmax_ok {ql : List Instr} (c : Nat) (w : IFields) {s : State} (h : Ok ql s) : OkR ql (execVmax c w s) := by
  unfold execVmax
  try dsimp only
  repeat' first
    | with_reducible assumption
    | with_reducible apply State.fetch_ok

theorem execVmin_ok {ql : List Instr} (c : Nat) (w : IFields) {s : State} (h : Ok ql s) : OkR ql (execVmin c w s) := by
  unfold execVmin
  try dsimp only
  repeat' first
    | with_reducible assumption
    | with_reducible apply State.fetch_ok

theorem execVcvt_ok {ql : List Instr} (c : Nat) (w : IFields) {s : State} (h : Ok ql s) : OkR ql (execVcvt c w s) := by
  unfold execVcvt
  try dsimp only
  repeat' first
    | with_reducible assumption
    | with_reducible apply State.fetch_ok

theorem execVcopy_ok {ql : List Instr} (c : Nat) (w : IFields) {s : State} (h : Ok ql s) : OkR ql (execVcopy c w s) := by
  unfold execVcopy
  try dsimp only
  repeat' first
    | with_reducible assumption
    | with_reducible apply State.fetch_ok

theorem execVcmpgt_ok {ql : List Instr} (c : Nat) (w : IFields) {s : State} (h : Ok ql s) : OkR ql (execVcmpgt c w s) := by
  unfold execVcmpgt
  try dsimp only
  repeat' first
    | with_reducible assumption
    | with_reducible apply State.fetch_ok

theorem execVexp_ok {ql : List Instr} (c : Nat) (w : IFields) {s : State} (h : Ok ql s) : OkR ql (execVexp c w s) := by
  unfold execVexp
  try dsimp only
  repeat' first
    | with_reducible assumption
    | with_reducible apply State.fetch_ok

theorem execVlog_ok {ql : List Instr} (c : Nat) (w : IFields) {s : State} (h : Ok ql s) : OkR ql (execVlog c w s) := by
  unfold execVlog
  try dsimp only
  repeat' first
    | with_reducible assumption
    | with_reducible apply State.fetch_ok

theorem execVrcp_ok {ql : List Instr} (c : Nat) (w : IFields) {s : State} (h : Ok ql s) : OkR ql (execVrcp c w s) := by
  unfold execVrcp
  try dsimp only
  repeat' first
    | with_reducible assumption
    | with_reducible apply State.fetch_ok

theorem execVrsqrt_ok {ql : List Instr} (c : Nat) (w : IFields) {s : State} (h : Ok ql s) : OkR ql (execVrsqrt c w s) := by
  unfold execVrsqrt
  try dsimp only
  repeat' first
    | with_reducible assumption
    | with_reducible apply State.fetch_ok

theorem execVtanh_ok {ql : List Instr} (c : Nat) (w : IFields) {s : State} (h : Ok ql s) : OkR ql (execVtanh c w s) := by
  unfold execVtanh
  try dsimp only
  repeat' first
    | with_reducible assumption
    | with_reducible apply State.fetch_ok

theorem execVerf_ok {ql : List Instr} (c : Nat) (w : IFields) {s : State} (h : Ok ql s) : OkR ql (execVerf c w s) := by
  unfold execVerf
  try dsimp only
  repeat' first
    | with_reducible assumption
    | with_reducible apply State.fetch_ok

theorem execRowmax_ok {ql : List Instr} (c : Nat) (w : IFields) {s : State} (h : Ok ql s) : OkR ql (execRowmax c w s) := by
  unfold execRowmax
  try dsimp only
  repeat' first
    | with_reducible assumption
    | with_reducible apply State.fetch_ok

theorem execRowsum_ok {ql : List Instr} (c : Nat) (w : IFields) {s : State} (h : Ok ql s) : OkR ql (execRowsum c w s) := by
  unfold execRowsum
  try dsimp only
  repeat' first
    | with_reducible assumption
    | with_reducible apply State.fetch_ok

theorem execRowsumsq_ok {ql : List Instr} (c : Nat) (w : IFields) {s : State} (h : Ok ql s) : OkR ql (execRowsumsq c w s) := by
  unfold execRowsumsq
  try dsimp only
  repeat' first
    | with_reducible assumption
    | with_reducible apply State.fetch_ok

theorem execViadd_ok {ql : List Instr} (c : Nat) (w : IFields) {s : State} (h : Ok ql s) : OkR ql (execViadd c w s) := by
  unfold execViadd
  try dsimp only
  repeat' first
    | with_reducible assumption
    | with_reducible apply State.fetch_ok

theorem execVimul_ok {ql : List Instr} (c : Nat) (w : IFields) {s : State} (h : Ok ql s) : OkR ql (execVimul c w s) := by
  unfold execVimul
  try dsimp only
  repeat' first
    | with_reducible assumption
    | with_reducible apply State.fetch_ok

theorem execVishr_ok {ql : List Instr} (c : Nat) (w : IFields) {s : State} (h : Ok ql s) : OkR ql (execVishr c w s) := by
  unfold execVishr
  try dsimp only
  repeat' first
    | with_reducible assumption
    | with_reducible apply State.fetch_ok

theorem execViand_ok {ql : List Instr} (c : Nat) (w : IFields) {s : State} (h : Ok ql s) : OkR ql (execViand c w s) := by
  unfold execViand
  try dsimp only
  repeat' first
    | with_reducible assumption
    | with_reducible apply State.fetch_ok

theorem execVimin_ok {ql : List Instr} (c : Nat) (w : IFields) {s : State} (h : Ok ql s) : OkR ql (execVimin c w s) := by
  unfold execVimin
  try dsimp only
  repeat' first
    | with_reducible assumption
    | with_reducible apply State.fetch_ok

theorem execAccadd_ok {ql : List Instr} (c : Nat) (w : IFields) {s : State} (h : Ok ql s) : OkR ql (execAccadd c w s) := by
  unfold execAccadd
  try dsimp only
  repeat' first
    | with_reducible assumption
    | with_reducible apply State.fetch_ok

theorem execVrand_ok {ql : List Instr} (c : Nat) (w : IFields) {s : State} (h : Ok ql s) : OkR ql (execVrand c w s) := by
  unfold execVrand
  try dsimp only
  repeat' first
    | with_reducible assumption
    | with_reducible apply State.fetch_ok

theorem execMload_ok {ql : List Instr} (c : Nat) (w : IFields) {s : State} (h : Ok ql s) : OkR ql (execMload c w s) := by
  unfold execMload
  try dsimp only
  repeat' first
    | with_reducible assumption
    | with_reducible apply State.fetch_ok

theorem execMstore_ok {ql : List Instr} (c : Nat) (w : IFields) {s : State} (h : Ok ql s) : OkR ql (execMstore c w s) := by
  unfold execMstore
  try dsimp only
  repeat' first
    | with_reducible assumption
    | with_reducible apply State.fetch_ok

theorem execGload_ok {ql : List Instr} (c : Nat) (w : IFields) {s : State} (h : Ok ql s) : OkR ql (execGload c w s) := by
  unfold execGload
  try dsimp only
  repeat' first
    | with_reducible assumption
    | with_reducible apply State.fetch_ok

theorem execGscat_ok {ql : List Instr} (c : Nat) (w : IFields) {s : State} (h : Ok ql s) : OkR ql (execGscat c w s) := by
  unfold execGscat
  try dsimp only
  repeat' first
    | with_reducible assumption
    | with_reducible apply State.fetch_ok

theorem execGpage_ok {ql : List Instr} (c : Nat) (w : IFields) {s : State} (h : Ok ql s) : OkR ql (execGpage c w s) := by
  unfold execGpage
  try dsimp only
  repeat' first
    | with_reducible assumption
    | with_reducible apply State.fetch_ok

theorem execScoreboardRelease_ok {ql : List Instr} (c : Nat) (e0 : Engine) {s : State} (h : Ok ql s) : OkR ql (execScoreboardRelease c e0 s) := by
  unfold execScoreboardRelease
  try dsimp only
  repeat' first
    | with_reducible assumption
    | with_reducible apply State.startQueue_ok
    | with_reducible apply State.completed_ok
    | with_reducible apply OkR.next

theorem execWatchEntryFree_ok {ql : List Instr} (c : Nat) (e0 : Engine) {s : State} (h : Ok ql s) : OkR ql (execWatchEntryFree c e0 s) := by
  unfold execWatchEntryFree
  try dsimp only
  repeat' first
    | with_reducible assumption
    | with_reducible apply State.startLong_ok
    | with_reducible apply State.completed_ok
    | with_reducible apply OkR.next
    | split

theorem State.reissueItem_ok {ql : List Instr} {s : State} (c : Nat) (e0 : Engine) (q : QItem) (h : Ok ql s) : Ok ql (State.reissueItem s c e0 q) := by
  unfold State.reissueItem
  try extract_lets
  repeat' first
    | with_reducible assumption
    | with_reducible intro _
    | simp only [Ok.lit]
    | with_reducible apply State.onLys_ok
    | with_reducible apply State.modItem_ok
    | with_reducible apply State.sendRemote_ok
    | with_reducible apply State.continueItem_ok
    | with_reducible apply State.startLong_ok
    | with_reducible apply OkO.map
    | with_reducible apply OkO.foldlBind
    | with_reducible apply OkO.bind
    | with_reducible apply OkO.none
    | with_reducible apply OkO.some
    | with_reducible apply Ok.foldl
    | with_reducible apply Ok.foldlP
    | with_reducible apply Ok.ite
    | with_reducible refine OkO.elim ?_ (by with_reducible assumption)
    | with_reducible refine OkOP.elim ?_ (by with_reducible assumption)
    | with_reducible refine Ok.pairElim ?_ (by with_reducible assumption)
    | split
    | dsimp +zetaDelta only

theorem State.reissueHeld_ok {ql : List Instr} {s : State} (c : Nat) (e0 : Engine) (st : QStatus) (h : Ok ql s) : Ok ql (State.reissueHeld s c e0 st) := by
  unfold State.reissueHeld
  try dsimp only
  repeat' first
    | with_reducible assumption
    | with_reducible intro _
    | with_reducible apply State.reissueItem_ok
    | with_reducible apply OkO.map
    | with_reducible apply OkO.foldlBind
    | with_reducible apply OkO.bind
    | with_reducible apply OkO.none
    | with_reducible apply OkO.some
    | with_reducible apply Ok.foldl
    | with_reducible apply Ok.foldlP
    | with_reducible refine OkO.elim ?_ (by with_reducible assumption)
    | with_reducible refine OkOP.elim ?_ (by with_reducible assumption)
    | with_reducible refine Ok.pairElim ?_ (by with_reducible assumption)
    | dsimp only
    | split

theorem execRetryReissue_ok {ql : List Instr} (c : Nat) (e0 : Engine) {s : State} (h : Ok ql s) : OkR ql (execRetryReissue c e0 s) := by
  unfold execRetryReissue
  try dsimp only
  repeat' first
    | with_reducible assumption
    | with_reducible apply State.completed_ok
    | with_reducible apply State.reissueHeld_ok
    | with_reducible apply OkR.next

theorem execBusyReissue_ok {ql : List Instr} (c : Nat) (e0 : Engine) {s : State} (h : Ok ql s) : OkR ql (execBusyReissue c e0 s) := by
  unfold execBusyReissue
  try dsimp only
  repeat' first
    | with_reducible assumption
    | with_reducible apply State.completed_ok
    | with_reducible apply State.reissueHeld_ok
    | with_reducible apply OkR.next

theorem execResettingReissue_ok {ql : List Instr} (c : Nat) (e0 : Engine) {s : State} (h : Ok ql s) : OkR ql (execResettingReissue c e0 s) := by
  unfold execResettingReissue
  try dsimp only
  repeat' first
    | with_reducible assumption
    | with_reducible apply State.completed_ok
    | with_reducible apply State.reissueHeld_ok
    | with_reducible apply OkR.next

theorem execEngineInstrComplete_ok {ql : List Instr} (c : Nat) (e0 : Engine) {s : State} (h : Ok ql s) : OkR ql (execEngineInstrComplete c e0 s) := by
  unfold execEngineInstrComplete
  try dsimp only
  repeat' first
    | with_reducible assumption
    | with_reducible apply State.modCore_ok
    | with_reducible apply State.modSlice_ok
    | with_reducible apply State.reissue_ok
    | with_reducible apply State.runMembers_ok
    | with_reducible apply State.startQueue_ok
    | with_reducible apply State.completed_ok
    | with_reducible apply OkR.next
    | with_reducible apply OkR.ite
    | with_reducible apply Ok.ite
    | split

theorem execInstrTimeLimit_ok {ql : List Instr} (c : Nat) (x : EngineItem) {s : State} (h : Ok ql s) : OkR ql (execInstrTimeLimit c x s) := by
  unfold execInstrTimeLimit
  try dsimp only
  repeat' first
    | with_reducible assumption
    | with_reducible apply State.taskError_ok
    | with_reducible apply OkR.next
    | with_reducible apply OkR.ite
    | with_reducible apply Ok.ite
    | dsimp only
    | split

theorem execExternalScratchAccess_ok {ql : List Instr} (from_ : Agent) (addr len : Nat) (acc : Access) {s : State} (h : Ok ql s) : OkR ql (execExternalScratchAccess from_ addr len acc s) := by
  unfold execExternalScratchAccess
  try extract_lets
  repeat' first
    | with_reducible assumption
    | with_reducible apply State.emit_ok
    | with_reducible apply State.readRange_ok
    | with_reducible apply State.writeRange_ok
    | with_reducible apply State.countBusy_ok
    | with_reducible apply State.reply_ok
    | with_reducible apply State.accessFault_ok
    | with_reducible apply State.landed_ok
    | with_reducible apply OkR.next
    | with_reducible refine State.readRange_eq ?_ (by with_reducible assumption)
    | with_reducible apply OkR.ite
    | with_reducible apply Ok.ite
    | split
    | dsimp +zetaDelta only

theorem execImemLoad_ok {ql : List Instr} (c bank kernel : Nat) (code : List (BitVec 256)) (digest : BitVec 512) {s : State} (h : Ok ql s) : OkR ql (execImemLoad c bank kernel code digest s) := by
  unfold execImemLoad
  try dsimp only
  repeat' first
    | with_reducible assumption
    | with_reducible apply State.modCore_ok
    | with_reducible apply State.emit_ok
    | with_reducible apply OkR.next
    | with_reducible apply OkR.ite

theorem execImemLoadDone_ok {ql : List Instr} (c : Nat) {s : State} (h : Ok ql s) : OkR ql (execImemLoadDone c s) := by
  unfold execImemLoadDone
  try dsimp only
  repeat' first
    | with_reducible assumption
    | simp only [Ok.lit]
    | with_reducible apply State.modCore_ok
    | with_reducible apply State.emit_ok
    | with_reducible apply State.draw_ok
    | with_reducible apply State.logRec_ok
    | with_reducible apply OkR.next
    | with_reducible apply OkR.ite
    | with_reducible apply Ok.ite
    | dsimp only
    | split

theorem execImemArm_ok {ql : List Instr} (c : Nat) {s : State} (h : Ok ql s) : OkR ql (execImemArm c s) := by
  unfold execImemArm
  try dsimp only
  repeat' first
    | with_reducible assumption
    | with_reducible apply State.modCore_ok
    | with_reducible apply OkR.next
    | with_reducible apply OkR.ite

theorem execImemDisarm_ok {ql : List Instr} (c : Nat) {s : State} (h : Ok ql s) : OkR ql (execImemDisarm c s) := by
  unfold execImemDisarm
  try dsimp only
  repeat' first
    | with_reducible assumption
    | with_reducible apply State.modCore_ok
    | with_reducible apply OkR.next

/-! ### What Machine/Admission keeps -/

theorem State.moveEntry_ok {ql : List Instr} {s : State} (cds : List Nat) (h0 : Handle) (h : Ok ql s) : Ok ql (State.moveEntry s cds h0) := by
  unfold State.moveEntry
  try dsimp only
  repeat' first
    | with_reducible assumption
    | simp only [Ok.lit]
    | with_reducible apply State.onWork_ok
    | with_reducible apply Ok.ite
    | dsimp only
    | split

theorem State.placeAll_ok {ql : List Instr} {s : State} (pr : Program) (t0 : Template) (nc : Nat) (cds : List Nat) (hs : List Handle) (ctxs : List Nat) (rows : Nat) (committed : Bool) (h : Ok ql s) : OkO ql (State.placeAll s pr t0 nc cds hs ctxs rows committed) := by
  unfold State.placeAll
  try dsimp only
  repeat' first
    | with_reducible assumption
    | with_reducible intro _
    | with_reducible apply State.appendCtx_ok
    | with_reducible apply State.placeTensor_ok
    | with_reducible exact OkO.none
    | with_reducible apply OkO.some
    | with_reducible apply OkO.mapS
    | with_reducible apply OkO.mapP
    | with_reducible apply OkO.map
    | with_reducible apply OkO.foldlBind
    | with_reducible refine State.appendCtx_eq ?_ (by with_reducible assumption)
    | with_reducible refine State.placeTensor_eq ?_ (by with_reducible assumption)
    | with_reducible apply OkOP.foldlBind
    | with_reducible apply OkOP.bind
    | with_reducible apply OkOP.map
    | with_reducible apply OkOP.mapS
    | with_reducible apply OkO.mapS
    | with_reducible apply OkO.mapP
    | with_reducible apply OkO.getD
    | with_reducible apply OkOP.some
    | with_reducible apply OkO.map
    | with_reducible apply OkOP.mapO
    | with_reducible apply OkO.foldlBind
    | with_reducible apply OkO.bind
    | with_reducible apply OkO.none
    | with_reducible apply OkO.some
    | with_reducible apply Ok.foldl
    | with_reducible apply Ok.foldlP
    | with_reducible apply OkO.ite
    | with_reducible apply Ok.ite
    | with_reducible refine OkO.elim ?_ (by with_reducible assumption)
    | with_reducible refine OkOP.elim ?_ (by with_reducible assumption)
    | with_reducible refine Ok.pairElim ?_ (by with_reducible assumption)
    | dsimp only
    | split
theorem State.placeAll_eq {ql : List Instr} {s : State} {pr : Program} {t0 : Template} {nc : Nat} {cds : List Nat} {hs : List Handle} {ctxs : List Nat} {rows : Nat} {committed : Bool} {t : State} (h : Ok ql s) (e : State.placeAll s pr t0 nc cds hs ctxs rows committed = some t) : Ok ql t :=
  State.placeAll_ok pr t0 nc cds hs ctxs rows committed h _ e

theorem State.admitTask_ok {ql : List Instr} {s : State} (d : TaskDesc) (h : Ok ql s) : Ok ql (State.admitTask s d).1 := by
  unfold State.admitTask
  try dsimp only
  repeat' first
    | with_reducible assumption
    | with_reducible intro _
    | simp only [Ok.lit]
    | with_reducible apply State.onWork_ok
    | with_reducible apply State.syncTables_ok
    | with_reducible apply State.writeJournal_ok
    | with_reducible apply State.settle_ok
    | with_reducible apply State.makeShadows_ok
    | with_reducible apply State.freeOnce_ok
    | with_reducible apply State.moveEntry_ok
    | with_reducible apply State.placeAll_ok
    | with_reducible apply State.resume_ok
    | with_reducible refine State.freeOnce_eq ?_ (by with_reducible assumption)
    | with_reducible refine State.placeAll_eq ?_ (by with_reducible assumption)
    | with_reducible apply OkOP.foldlBind
    | with_reducible apply OkOP.bind
    | with_reducible apply OkOP.map
    | with_reducible apply OkOP.mapS
    | with_reducible apply OkO.mapS
    | with_reducible apply OkO.mapP
    | with_reducible apply OkO.getD
    | with_reducible apply OkOP.some
    | with_reducible apply OkO.map
    | with_reducible apply OkOP.mapO
    | with_reducible apply OkO.foldlBind
    | with_reducible apply OkO.bind
    | with_reducible apply OkO.none
    | with_reducible apply OkO.some
    | with_reducible apply Ok.foldl
    | with_reducible apply Ok.foldlP
    | with_reducible apply Ok.ite
    | with_reducible refine OkO.elim ?_ (by with_reducible assumption)
    | with_reducible refine OkOP.elim ?_ (by with_reducible assumption)
    | with_reducible refine Ok.pairElim ?_ (by with_reducible assumption)
    | dsimp only
    | split
theorem State.admitTask_eq {ql : List Instr} {s : State} {d : TaskDesc} {x : _} {t : State} (h : Ok ql s) (e : State.admitTask s d = (t, x)) : Ok ql t := by
  have h9 := State.admitTask_ok d h
  rw [e] at h9; exact h9

theorem State.acceptShadow_ok {ql : List Instr} {s : State} (id e0 a : Nat) (h : Ok ql s) : Ok ql (State.acceptShadow s id e0 a) := by
  unfold State.acceptShadow
  try extract_lets
  repeat' first
    | with_reducible assumption
    | with_reducible intro _
    | simp only [Ok.lit]
    | with_reducible apply State.modContext_ok
    | with_reducible apply State.endShadow_ok
    | with_reducible apply OkO.map
    | with_reducible apply OkO.foldlBind
    | with_reducible apply OkO.bind
    | with_reducible apply OkO.none
    | with_reducible apply OkO.some
    | with_reducible apply Ok.foldl
    | with_reducible apply Ok.foldlP
    | with_reducible apply Ok.ite
    | with_reducible refine OkO.elim ?_ (by with_reducible assumption)
    | with_reducible refine OkOP.elim ?_ (by with_reducible assumption)
    | with_reducible refine Ok.pairElim ?_ (by with_reducible assumption)
    | split
    | dsimp +zetaDelta only

theorem State.commitRing_ok {ql : List Instr} {s : State} (e0 : Nat) (h0 : Handle) (a : Nat) (h : Ok ql s) : Ok ql (State.commitRing s e0 h0 a) := by
  unfold State.commitRing
  try dsimp only
  repeat' first
    | with_reducible assumption
    | with_reducible intro _
    | with_reducible apply State.onMem_ok
    | with_reducible apply OkO.map
    | with_reducible apply OkO.foldlBind
    | with_reducible apply OkO.bind
    | with_reducible apply OkO.none
    | with_reducible apply OkO.some
    | with_reducible apply Ok.foldl
    | with_reducible apply Ok.foldlP
    | with_reducible apply Ok.onMem
    | (simp only [Ok.litM]; refine ⟨?_, ?_⟩)
    | with_reducible apply Mem.bumpInstar_wf
    | with_reducible apply Mem.clear_wf
    | with_reducible apply Mem.copy_wf
    | with_reducible apply Mem.foldl_wf
    | (simp only [Mem.lit_wf])
    | with_reducible exact Ok.wf (by with_reducible assumption)
    | with_reducible exact Ok.queue (by with_reducible assumption)
    | (exact (rfl : Mem.wf {} = true))
    | with_reducible refine OkO.elim ?_ (by with_reducible assumption)
    | with_reducible refine OkOP.elim ?_ (by with_reducible assumption)
    | with_reducible refine Ok.pairElim ?_ (by with_reducible assumption)
    | dsimp only
    | split

theorem State.commitAct_ok {ql : List Instr} {s : State} (e0 : Nat) (entries : List CommitEntry) (gens : List OutCap) (h : Ok ql s) : Ok ql (State.commitAct s e0 entries gens) := by
  unfold State.commitAct
  try dsimp only
  repeat' first
    | with_reducible assumption
    | with_reducible intro _
    | simp only [Ok.lit]
    | with_reducible apply State.onWork_ok
    | with_reducible apply State.onMem_ok
    | with_reducible apply State.finishTask_ok
    | with_reducible apply State.settle_ok
    | with_reducible apply State.acceptShadow_ok
    | with_reducible apply State.commitRing_ok
    | with_reducible apply OkO.map
    | with_reducible apply OkO.foldlBind
    | with_reducible apply OkO.bind
    | with_reducible apply OkO.none
    | with_reducible apply OkO.some
    | with_reducible apply Ok.foldl
    | with_reducible apply Ok.foldlP
    | with_reducible apply Ok.onMem
    | (simp only [Ok.litM]; refine ⟨?_, ?_⟩)
    | with_reducible apply Mem.bumpInstar_wf
    | with_reducible apply Mem.clear_wf
    | with_reducible apply Mem.copy_wf
    | with_reducible apply Mem.foldl_wf
    | (simp only [Mem.lit_wf])
    | with_reducible exact Ok.wf (by with_reducible assumption)
    | with_reducible exact Ok.queue (by with_reducible assumption)
    | (exact (rfl : Mem.wf {} = true))
    | with_reducible apply Ok.ite
    | with_reducible refine OkO.elim ?_ (by with_reducible assumption)
    | with_reducible refine OkOP.elim ?_ (by with_reducible assumption)
    | with_reducible refine Ok.pairElim ?_ (by with_reducible assumption)
    | dsimp only
    | split

theorem State.commitAdmit_ok {ql : List Instr} {s : State} (e0 : Nat) (h : Ok ql s) : Ok ql (State.commitAdmit s e0).1 := by
  unfold State.commitAdmit
  try dsimp only
  repeat' first
    | with_reducible assumption
    | with_reducible intro _
    | simp only [Ok.lit]
    | with_reducible apply State.onWork_ok
    | with_reducible apply Ok.foldlP
theorem State.commitAdmit_eq {ql : List Instr} {s : State} {e0 : Nat} {x : _} {t : State} (h : Ok ql s) (e : State.commitAdmit s e0 = (t, x)) : Ok ql t := by
  have h9 := State.commitAdmit_ok e0 h
  rw [e] at h9; exact h9

theorem State.openEpoch_ok {ql : List Instr} {s : State} (service : Bool) (h : Ok ql s) : OkOP ql (State.openEpoch s service) := by
  unfold State.openEpoch
  try dsimp only
  repeat' first
    | with_reducible assumption
    | with_reducible apply State.onWork_ok
    | with_reducible exact OkOP.none
    | with_reducible apply OkOP.some
    | split
theorem State.openEpoch_eq {ql : List Instr} {s : State} {service : Bool} {x : _} {t : State} (h : Ok ql s) (e : State.openEpoch s service = some (t, x)) : Ok ql t :=
  State.openEpoch_ok service h _ _ e

theorem State.fireWaves_ok {ql : List Instr} {s : State} (t0 : Task) (h : Ok ql s) : Ok ql (State.fireWaves s t0) := by
  unfold State.fireWaves
  try dsimp only
  repeat' first
    | with_reducible assumption
    | simp only [Ok.lit]
    | with_reducible apply State.modTask_ok
    | with_reducible apply State.onWork_ok
    | with_reducible apply State.writeJournal_ok
    | with_reducible apply State.leaveReady_ok
    | with_reducible apply State.noteWave_ok
    | with_reducible apply Ok.ite
    | dsimp only
    | split

theorem execWaveStart_ok {ql : List Instr} (task cd : Nat) {s : State} (h : Ok ql s) : OkR ql (execWaveStart task cd s) := by
  unfold execWaveStart
  try dsimp only
  repeat' first
    | with_reducible assumption
    | with_reducible apply State.modTask_ok
    | with_reducible apply State.noteWave_ok
    | with_reducible apply State.startOn_ok
    | with_reducible apply OkR.next
    | with_reducible apply OkR.ite
    | with_reducible apply Ok.ite
    | dsimp only
    | split

theorem execLoadRaiseWithdraw_ok {ql : List Instr} (cd : Nat) {s : State} (h : Ok ql s) : OkR ql (execLoadRaiseWithdraw cd s) := by
  unfold execLoadRaiseWithdraw
  try dsimp only
  repeat' first
    | with_reducible assumption
    | with_reducible apply State.modCluster_ok
    | with_reducible apply OkR.next
    | with_reducible apply OkR.ite

theorem execCompletionToken_ok {ql : List Instr} (task wave node : Nat) (tok : Token) {s : State} (h : Ok ql s) : OkR ql (execCompletionToken task wave node tok s) := by
  unfold execCompletionToken
  try dsimp only
  repeat' first
    | with_reducible assumption
    | simp only [Ok.lit]
    | with_reducible apply State.tokenArrive_ok
    | with_reducible apply OkR.next
    | with_reducible apply OkR.ite

theorem execDispatcherHeartbeat_ok {ql : List Instr} (cd : Nat) {s : State} (h : Ok ql s) : OkR ql (execDispatcherHeartbeat cd s) := by
  unfold execDispatcherHeartbeat
  try dsimp only
  repeat' first
    | with_reducible assumption
    | with_reducible apply State.modCluster_ok
    | with_reducible apply OkR.next
    | with_reducible apply OkR.ite

theorem execTaskTimeLimit_ok {ql : List Instr} (task : Nat) {s : State} (h : Ok ql s) : OkR ql (execTaskTimeLimit task s) := by
  unfold execTaskTimeLimit
  try dsimp only
  repeat' first
    | with_reducible assumption
    | with_reducible apply State.modTask_ok
    | with_reducible apply State.logEvent_ok
    | with_reducible apply State.endIfDone_ok
    | with_reducible apply State.stopTask_ok
    | with_reducible apply State.doom_ok
    | with_reducible apply OkR.next
    | with_reducible apply OkR.ite
    | with_reducible apply Ok.ite
    | split

theorem execShadowCopyDone_ok {ql : List Instr} (task : Nat) {s : State} (h : Ok ql s) : OkR ql (execShadowCopyDone task s) := by
  unfold execShadowCopyDone
  try extract_lets
  repeat' first
    | with_reducible assumption
    | with_reducible intro _
    | simp only [Ok.lit]
    | with_reducible apply State.onWork_ok
    | with_reducible apply State.copyData_ok
    | with_reducible apply State.settle_ok
    | with_reducible apply OkR.next
    | with_reducible apply OkO.map
    | with_reducible apply OkO.foldlBind
    | with_reducible apply OkO.bind
    | with_reducible apply OkO.none
    | with_reducible apply OkO.some
    | with_reducible apply Ok.foldl
    | with_reducible apply Ok.foldlP
    | with_reducible apply OkR.ite
    | with_reducible apply Ok.ite
    | with_reducible refine OkO.elim ?_ (by with_reducible assumption)
    | with_reducible refine OkOP.elim ?_ (by with_reducible assumption)
    | with_reducible refine Ok.pairElim ?_ (by with_reducible assumption)
    | split
    | dsimp +zetaDelta only

theorem execCommitAct_ok {ql : List Instr} (epoch : Nat) {s : State} (h : Ok ql s) : OkR ql (execCommitAct epoch s) := by
  unfold execCommitAct
  try dsimp only
  repeat' first
    | with_reducible assumption
    | with_reducible apply State.respond_ok
    | with_reducible apply State.discardEpoch_ok
    | with_reducible apply State.commitAct_ok
    | with_reducible apply OkR.next
    | with_reducible apply OkR.ite
    | split

theorem execShardMove_ok {ql : List Instr} (h0 : Handle) (shard addr : Nat) {s : State} (h : Ok ql s) : OkR ql (execShardMove h0 shard addr s) := by
  unfold execShardMove
  try extract_lets
  repeat' first
    | with_reducible assumption
    | with_reducible apply State.relocate_ok
    | with_reducible apply OkR.next
    | with_reducible apply OkR.ite
    | with_reducible apply Ok.ite
    | split
    | dsimp +zetaDelta only

theorem execReplicaCreate_ok {ql : List Instr} (h0 : Handle) (shard addr : Nat) {s : State} (h : Ok ql s) : OkR ql (execReplicaCreate h0 shard addr s) := by
  unfold execReplicaCreate
  try extract_lets
  repeat' first
    | with_reducible assumption
    | with_reducible intro _
    | simp only [Ok.lit]
    | with_reducible apply State.onWork_ok
    | with_reducible apply State.copyData_ok
    | with_reducible apply OkR.next
    | with_reducible apply OkO.map
    | with_reducible apply OkO.foldlBind
    | with_reducible apply OkO.bind
    | with_reducible apply OkO.none
    | with_reducible apply OkO.some
    | with_reducible apply Ok.foldl
    | with_reducible apply Ok.foldlP
    | with_reducible apply OkR.ite
    | with_reducible apply Ok.ite
    | with_reducible refine OkO.elim ?_ (by with_reducible assumption)
    | with_reducible refine OkOP.elim ?_ (by with_reducible assumption)
    | with_reducible refine Ok.pairElim ?_ (by with_reducible assumption)
    | split
    | dsimp +zetaDelta only

end Sys2Proof.Machine
end

