-- ==== Sys2Proof/Laws/KeepMemory.lean ====
section
/-! SUPPORT. What the operations of the service, fencing and the memory tiers keep: the canonical form of
memory and the queue of waiting commands. -/

namespace Sys2Proof.Machine

/-! ### What Machine/Service keeps -/

theorem State.modReq_ok {ql : List Instr} {s : State} (qp id : Nat) (f : Request → Request) (h : Ok ql s) : Ok ql (State.modReq s qp id f) := by
  unfold State.modReq
  try dsimp only
  repeat' first
    | with_reducible assumption
    | with_reducible apply State.onSvc_ok

theorem State.closeContext_ok {ql : List Instr} {s : State} (id : Nat) (h : Ok ql s) : Ok ql (State.closeContext s id) := by
  unfold State.closeContext
  try dsimp only
  repeat' first
    | with_reducible assumption
    | with_reducible intro _
    | with_reducible apply State.onSvc_ok
    | with_reducible apply State.dropPage_ok
    | with_reducible apply Ok.foldl
    | split

theorem State.dropModel_ok {ql : List Instr} {s : State} (i : Nat) (h : Ok ql s) : Ok ql (State.dropModel s i) := by
  unfold State.dropModel
  try dsimp only
  repeat' first
    | with_reducible assumption
    | with_reducible intro _
    | simp only [Ok.lit]
    | with_reducible apply State.onSvc_ok
    | with_reducible apply State.dropPage_ok
    | with_reducible apply State.dropWeights_ok
    | with_reducible apply State.closeContext_ok
    | with_reducible apply OkOP.foldlBind
    | with_reducible apply OkOP.bind
    | with_reducible apply OkOP.map
    | with_reducible apply OkOP.mapS
    | with_reducible apply OkO.mapS
    | with_reducible apply OkO.mapP
    | with_reducible apply OkO.getD
    | with_reducible apply OkOP.some
    | with_reducible apply OkO.map
    | with_reducible apply OkOP.mapO
    | with_reducible apply OkO.foldlBind
    | with_reducible apply OkO.bind
    | with_reducible apply OkO.none
    | with_reducible apply OkO.some
    | with_reducible apply Ok.foldl
    | with_reducible apply Ok.foldlP
    | with_reducible apply Ok.ite
    | with_reducible refine OkO.elim ?_ (by with_reducible assumption)
    | with_reducible refine OkOP.elim ?_ (by with_reducible assumption)
    | with_reducible refine Ok.pairElim ?_ (by with_reducible assumption)
    | dsimp only
    | split

theorem State.dropAdapter_ok {ql : List Instr} {s : State} (i : Nat) (h : Ok ql s) : Ok ql (State.dropAdapter s i) := by
  unfold State.dropAdapter
  try dsimp only
  repeat' first
    | with_reducible assumption
    | simp only [Ok.lit]
    | with_reducible apply State.onSvc_ok
    | with_reducible apply Ok.ite
    | dsimp only
    | split

theorem State.endRequest_ok {ql : List Instr} {s : State} (r : Request) (entry : List Byte) (h : Ok ql s) : Ok ql (State.endRequest s r entry) := by
  unfold State.endRequest
  try dsimp only
  repeat' first
    | with_reducible assumption
    | simp only [Ok.lit]
    | with_reducible apply State.modContext_ok
    | with_reducible apply State.modReq_ok
    | with_reducible apply State.closeContext_ok
    | with_reducible apply State.dropModel_ok
    | with_reducible apply State.dropAdapter_ok
    | with_reducible apply Ok.ite
    | dsimp only
    | split

theorem State.endWith_ok {ql : List Instr} {s : State} (qp id status reason : Nat) (h : Ok ql s) : Ok ql (State.endWith s qp id status reason) := by
  unfold State.endWith
  try dsimp only
  repeat' first
    | with_reducible assumption
    | with_reducible apply State.endRequest_ok
    | split

theorem State.failWith_ok {ql : List Instr} {s : State} (qp id status : Nat) (h : Ok ql s) : Ok ql (State.failWith s qp id status) := by
  unfold State.failWith
  try dsimp only
  repeat' first
    | with_reducible assumption
    | with_reducible apply State.endRequest_ok
    | split

theorem State.errorEntry_ok {ql : List Instr} {s : State} (qp id status : Nat) (h : Ok ql s) : Ok ql (State.errorEntry s qp id status) := by
  unfold State.errorEntry
  try dsimp only
  repeat' first
    | with_reducible assumption
    | with_reducible apply State.modReq_ok

theorem State.takeRecord_ok {ql : List Instr} {s : State} (qp : Nat) (h : Ok ql s) : OkO ql (State.takeRecord s qp) := by
  unfold State.takeRecord
  try dsimp only
  repeat' first
    | with_reducible assumption
    | with_reducible apply State.onNet_ok
    | with_reducible apply State.onChannel_ok
    | with_reducible exact OkO.none
    | with_reducible apply OkO.some
    | with_reducible apply OkO.ite
    | split
theorem State.takeRecord_eq {ql : List Instr} {s : State} {qp : Nat} {t : State} (h : Ok ql s) (e : State.takeRecord s qp = some t) : Ok ql t :=
  State.takeRecord_ok qp h _ e

theorem State.countDrop_ok {ql : List Instr} {s : State} (h : Ok ql s) : Ok ql (State.countDrop s) := by
  unfold State.countDrop
  try dsimp only
  repeat' first
    | with_reducible assumption
    | with_reducible apply State.onSvc_ok

theorem State.makeReady_ok {ql : List Instr} {s : State} (qp id : Nat) (h : Ok ql s) : Ok ql (State.makeReady s qp id) := by
  unfold State.makeReady
  try dsimp only
  repeat' first
    | with_reducible assumption
    | with_reducible apply State.modReq_ok
    | with_reducible apply Ok.ite
    | split

theorem State.admitRequest_ok {ql : List Instr} {s : State} (qp id : Nat) (h : Ok ql s) : Ok ql (State.admitRequest s qp id) := by
  unfold State.admitRequest
  try dsimp only
  repeat' first
    | with_reducible assumption
    | with_reducible intro _
    | with_reducible apply State.onSvc_ok
    | with_reducible apply State.modContext_ok
    | with_reducible apply State.holdPage_ok
    | with_reducible apply State.modReq_ok
    | with_reducible apply State.makeReady_ok
    | with_reducible apply Ok.foldl
    | with_reducible apply Ok.ite
    | split

theorem State.continueRequest_ok {ql : List Instr} {s : State} (qp : Nat) (r : ReqRec) (h : Ok ql s) : Ok ql (State.continueRequest s qp r) := by
  unfold State.continueRequest
  try dsimp only
  repeat' first
    | with_reducible assumption
    | with_reducible apply State.modReq_ok
    | with_reducible apply State.errorEntry_ok
    | with_reducible apply State.countDrop_ok
    | with_reducible apply State.admitRequest_ok
    | with_reducible apply Ok.ite
    | split

theorem execRequest_ok {ql : List Instr} (qp : Nat) (r : ReqRec) {s : State} (h : Ok ql s) : OkR ql (execRequest qp r s) := by
  unfold execRequest
  try dsimp only
  repeat' first
    | with_reducible assumption
    | with_reducible apply State.onSvc_ok
    | with_reducible apply State.errorEntry_ok
    | with_reducible apply State.countDrop_ok
    | with_reducible apply State.admitRequest_ok
    | with_reducible apply State.continueRequest_ok
    | with_reducible apply OkR.next
    | with_reducible refine State.takeRecord_eq ?_ (by with_reducible assumption)
    | with_reducible apply OkR.ite
    | with_reducible apply Ok.ite
    | split

theorem execRequestContinuation_ok {ql : List Instr} (qp : Nat) (r : ReqRec) {s : State} (h : Ok ql s) : OkR ql (execRequestContinuation qp r s) := by
  unfold execRequestContinuation
  try dsimp only
  repeat' first
    | with_reducible assumption
    | with_reducible apply State.modReq_ok
    | with_reducible apply State.errorEntry_ok
    | with_reducible apply State.countDrop_ok
    | with_reducible apply State.admitRequest_ok
    | with_reducible apply State.continueRequest_ok
    | with_reducible apply OkR.next
    | with_reducible refine State.takeRecord_eq ?_ (by with_reducible assumption)
    | with_reducible apply OkR.ite
    | with_reducible apply Ok.ite
    | split

theorem execCancel_ok {ql : List Instr} (qp request : Nat) {s : State} (h : Ok ql s) : OkR ql (execCancel qp request s) := by
  unfold execCancel
  try dsimp only
  repeat' first
    | with_reducible assumption
    | with_reducible apply State.modReq_ok
    | with_reducible apply State.endWith_ok
    | with_reducible apply OkR.next
    | with_reducible refine State.takeRecord_eq ?_ (by with_reducible assumption)
    | with_reducible apply OkR.ite
    | split

theorem State.modStream_ok {ql : List Instr} {s : State} (qp id : Nat) (f : Request → Request) (h : Ok ql s) : Ok ql (State.modStream s qp id f) := by
  unfold State.modStream
  try dsimp only
  repeat' first
    | with_reducible assumption
    | with_reducible apply State.onSvc_ok
    | split

theorem execCredit_ok {ql : List Instr} (qp request value : Nat) {s : State} (h : Ok ql s) : OkR ql (execCredit qp request value s) := by
  unfold execCredit
  try dsimp only
  repeat' first
    | with_reducible assumption
    | with_reducible apply State.onSvc_ok
    | with_reducible apply State.makeReady_ok
    | with_reducible apply State.modStream_ok
    | with_reducible apply OkR.next
    | with_reducible refine State.takeRecord_eq ?_ (by with_reducible assumption)
    | with_reducible apply OkR.ite
    | split

theorem execClose_ok {ql : List Instr} (qp context : Nat) {s : State} (h : Ok ql s) : OkR ql (execClose qp context s) := by
  unfold execClose
  try dsimp only
  repeat' first
    | with_reducible assumption
    | with_reducible apply State.closeContext_ok
    | with_reducible apply OkR.next
    | with_reducible refine State.takeRecord_eq ?_ (by with_reducible assumption)
    | with_reducible apply OkR.ite
    | split

theorem execUnknownRecord_ok {ql : List Instr} (qp : Nat) (request : Option Nat) {s : State} (h : Ok ql s) : OkR ql (execUnknownRecord qp request s) := by
  unfold execUnknownRecord
  try dsimp only
  repeat' first
    | with_reducible assumption
    | with_reducible apply State.errorEntry_ok
    | with_reducible apply State.countDrop_ok
    | with_reducible apply OkR.next
    | with_reducible refine State.takeRecord_eq ?_ (by with_reducible assumption)
    | split

theorem execTokenise_ok {ql : List Instr} (qp request : Nat) {s : State} (h : Ok ql s) : OkR ql (execTokenise qp request s) := by
  unfold execTokenise
  try dsimp only
  repeat' first
    | with_reducible assumption
    | with_reducible apply State.draw_ok
    | with_reducible apply State.modReq_ok
    | with_reducible apply State.failWith_ok
    | with_reducible apply State.makeReady_ok
    | with_reducible apply OkR.next
    | with_reducible apply OkR.ite
    | split

theorem State.withPools_ok {ql : List Instr} {s : State} (model : Nat) (h : Ok ql s) : Ok ql (State.withPools s model) := by
  unfold State.withPools
  try dsimp only
  repeat' first
    | with_reducible assumption
    | with_reducible intro _
    | with_reducible apply State.placePools_ok
    | with_reducible refine State.placePools_eq ?_ (by with_reducible assumption)
    | with_reducible apply OkOP.foldlBind
    | with_reducible apply OkOP.bind
    | with_reducible apply OkOP.map
    | with_reducible apply OkOP.mapS
    | with_reducible apply OkO.mapS
    | with_reducible apply OkO.mapP
    | with_reducible apply OkO.getD
    | with_reducible apply OkOP.some
    | with_reducible apply OkO.map
    | with_reducible apply OkOP.mapO
    | with_reducible apply OkO.foldlBind
    | with_reducible apply OkO.bind
    | with_reducible apply OkO.none
    | with_reducible apply OkO.some
    | with_reducible apply Ok.foldl
    | with_reducible apply Ok.foldlP
    | with_reducible refine OkO.elim ?_ (by with_reducible assumption)
    | with_reducible refine OkOP.elim ?_ (by with_reducible assumption)
    | with_reducible refine Ok.pairElim ?_ (by with_reducible assumption)
    | dsimp only
    | split

theorem State.passShadows_ok {ql : List Instr} {s : State} (m : Model) (p : Pass) (h : Ok ql s) : OkO ql (State.passShadows s m p) := by
  unfold State.passShadows
  try dsimp only
  repeat' first
    | with_reducible assumption
    | with_reducible intro _
    | with_reducible apply State.shadowAppend_ok
    | with_reducible exact OkO.none
    | with_reducible apply OkO.some
    | with_reducible apply OkO.mapS
    | with_reducible apply OkO.mapP
    | with_reducible apply OkO.map
    | with_reducible apply OkO.foldlBind
    | with_reducible refine State.shadowAppend_eq ?_ (by with_reducible assumption)
    | with_reducible apply OkOP.foldlBind
    | with_reducible apply OkOP.bind
    | with_reducible apply OkOP.map
    | with_reducible apply OkOP.mapS
    | with_reducible apply OkO.mapS
    | with_reducible apply OkO.mapP
    | with_reducible apply OkO.getD
    | with_reducible apply OkOP.some
    | with_reducible apply OkO.map
    | with_reducible apply OkOP.mapO
    | with_reducible apply OkO.foldlBind
    | with_reducible apply OkO.bind
    | with_reducible apply OkO.none
    | with_reducible apply OkO.some
    | with_reducible apply Ok.foldl
    | with_reducible apply Ok.foldlP
    | with_reducible apply OkO.ite
    | with_reducible apply Ok.ite
    | with_reducible refine OkO.elim ?_ (by with_reducible assumption)
    | with_reducible refine OkOP.elim ?_ (by with_reducible assumption)
    | with_reducible refine Ok.pairElim ?_ (by with_reducible assumption)
    | dsimp only
    | split
theorem State.passShadows_eq {ql : List Instr} {s : State} {m : Model} {p : Pass} {t : State} (h : Ok ql s) (e : State.passShadows s m p = some t) : Ok ql t :=
  State.passShadows_ok m p h _ e

theorem State.formPass_ok {ql : List Instr} {s : State} (model : Nat) (h : Ok ql s) : Ok ql (State.formPass s model) := by
  unfold State.formPass
  try dsimp only
  repeat' first
    | with_reducible assumption
    | with_reducible intro _
    | simp only [Ok.lit]
    | with_reducible apply State.onSvc_ok
    | with_reducible apply State.openEpoch_ok
    | with_reducible apply State.modReq_ok
    | with_reducible apply State.withPools_ok
    | with_reducible apply State.passShadows_ok
    | with_reducible refine State.openEpoch_eq ?_ (by with_reducible assumption)
    | with_reducible refine State.passShadows_eq ?_ (by with_reducible assumption)
    | with_reducible apply OkOP.foldlBind
    | with_reducible apply OkOP.bind
    | with_reducible apply OkOP.map
    | with_reducible apply OkOP.mapS
    | with_reducible apply OkO.mapS
    | with_reducible apply OkO.mapP
    | with_reducible apply OkO.getD
    | with_reducible apply OkOP.some
    | with_reducible apply OkO.map
    | with_reducible apply OkOP.mapO
    | with_reducible apply OkO.foldlBind
    | with_reducible apply OkO.bind
    | with_reducible apply OkO.none
    | with_reducible apply OkO.some
    | with_reducible apply Ok.foldl
    | with_reducible apply Ok.foldlP
    | with_reducible apply Ok.ite
    | with_reducible refine OkO.elim ?_ (by with_reducible assumption)
    | with_reducible refine OkOP.elim ?_ (by with_reducible assumption)
    | with_reducible refine Ok.pairElim ?_ (by with_reducible assumption)
    | dsimp only
    | split

theorem execPassForm_ok {ql : List Instr} (model : Nat) {s : State} (h : Ok ql s) : OkR ql (execPassForm model s) := by
  unfold execPassForm
  try dsimp only
  repeat' first
    | with_reducible assumption
    | with_reducible apply State.formPass_ok
    | with_reducible apply OkR.next
    | with_reducible apply OkR.ite
    | split

theorem execFillWaitExpiry_ok {ql : List Instr} (model : Nat) {s : State} (h : Ok ql s) : OkR ql (execFillWaitExpiry model s) := by
  unfold execFillWaitExpiry
  try dsimp only
  repeat' first
    | with_reducible assumption
    | with_reducible apply State.formPass_ok
    | with_reducible apply OkR.next

theorem State.keepTokens_ok {ql : List Instr} {s : State} (m : Model) (qp id : Nat) (l : List Nat) (h : Ok ql s) :
    Ok ql (State.keepTokens s m qp id l) := by
  induction l generalizing s with
  | nil => exact h
  | cons u t ih =>
    unfold State.keepTokens
    dsimp only
    repeat' first
      | with_reducible assumption
      | with_reducible apply ih
      | with_reducible apply State.endWith_ok
      | with_reducible apply State.modContext_ok
      | with_reducible apply State.modReq_ok
      | split

theorem State.passRows_ok {ql : List Instr} {s : State} (m : Model) (p : Pass) (results : List SeqLogits) (h : Ok ql s) : OkO ql (State.passRows s m p results) := by
  unfold State.passRows
  try dsimp only
  repeat' first
    | with_reducible assumption
    | with_reducible intro _
    | with_reducible apply State.appendCtx_ok
    | with_reducible apply State.endShadow_ok
    | with_reducible exact OkO.none
    | with_reducible apply OkO.some
    | with_reducible apply OkO.mapS
    | with_reducible apply OkO.mapP
    | with_reducible apply OkO.map
    | with_reducible apply OkO.foldlBind
    | with_reducible refine State.appendCtx_eq ?_ (by with_reducible assumption)
    | with_reducible apply OkOP.foldlBind
    | with_reducible apply OkOP.bind
    | with_reducible apply OkOP.map
    | with_reducible apply OkOP.mapS
    | with_reducible apply OkO.mapS
    | with_reducible apply OkO.mapP
    | with_reducible apply OkO.getD
    | with_reducible apply OkOP.some
    | with_reducible apply OkO.map
    | with_reducible apply OkOP.mapO
    | with_reducible apply OkO.foldlBind
    | with_reducible apply OkO.bind
    | with_reducible apply OkO.none
    | with_reducible apply OkO.some
    | with_reducible apply Ok.foldl
    | with_reducible apply Ok.foldlP
    | with_reducible apply OkO.ite
    | with_reducible apply Ok.ite
    | with_reducible refine OkO.elim ?_ (by with_reducible assumption)
    | with_reducible refine OkOP.elim ?_ (by with_reducible assumption)
    | with_reducible refine Ok.pairElim ?_ (by with_reducible assumption)
    | dsimp only
    | split
theorem State.passRows_eq {ql : List Instr} {s : State} {m : Model} {p : Pass} {results : List SeqLogits} {t : State} (h : Ok ql s) (e : State.passRows s m p results = some t) : Ok ql t :=
  State.passRows_ok m p results h _ e

theorem State.passSeq_ok {ql : List Instr} {s : State} (m : Model) (x : SeqLogits) (qp : Nat) (h : Ok ql s) : Ok ql (State.passSeq s m x qp) := by
  unfold State.passSeq
  try dsimp only
  repeat' first
    | with_reducible assumption
    | simp only [Ok.lit]
    | with_reducible apply State.onSvc_ok
    | with_reducible apply State.modContext_ok
    | with_reducible apply State.modReq_ok
    | with_reducible apply State.endWith_ok
    | with_reducible apply State.failWith_ok
    | with_reducible apply State.makeReady_ok
    | with_reducible apply State.keepTokens_ok
    | with_reducible apply State.fillRows_ok
    | with_reducible apply Ok.ite
    | split

theorem State.passFailed_ok {ql : List Instr} {s : State} (id : Nat) (p : Pass) (h : Ok ql s) : Ok ql (State.passFailed s id p) := by
  unfold State.passFailed
  try dsimp only
  repeat' first
    | with_reducible assumption
    | with_reducible intro _
    | simp only [Ok.lit]
    | with_reducible apply State.onSvc_ok
    | with_reducible apply State.discardEpoch_ok
    | with_reducible apply State.openEpoch_ok
    | with_reducible apply State.failWith_ok
    | with_reducible apply State.passShadows_ok
    | with_reducible refine State.openEpoch_eq ?_ (by with_reducible assumption)
    | with_reducible refine State.passShadows_eq ?_ (by with_reducible assumption)
    | with_reducible apply OkOP.foldlBind
    | with_reducible apply OkOP.bind
    | with_reducible apply OkOP.map
    | with_reducible apply OkOP.mapS
    | with_reducible apply OkO.mapS
    | with_reducible apply OkO.mapP
    | with_reducible apply OkO.getD
    | with_reducible apply OkOP.some
    | with_reducible apply OkO.map
    | with_reducible apply OkOP.mapO
    | with_reducible apply OkO.foldlBind
    | with_reducible apply OkO.bind
    | with_reducible apply OkO.none
    | with_reducible apply OkO.some
    | with_reducible apply Ok.foldl
    | with_reducible apply Ok.foldlP
    | with_reducible apply Ok.ite
    | with_reducible refine OkO.elim ?_ (by with_reducible assumption)
    | with_reducible refine OkOP.elim ?_ (by with_reducible assumption)
    | with_reducible refine Ok.pairElim ?_ (by with_reducible assumption)
    | dsimp only
    | split

theorem State.passTables_ok {ql : List Instr} {s : State} (m : Model) (p : Pass) (results : List SeqLogits) (h : Ok ql s) : OkO ql (State.passTables s m p results) := by
  unfold State.passTables
  try dsimp only
  repeat' first
    | with_reducible assumption
    | with_reducible intro _
    | with_reducible apply State.withPools_ok
    | with_reducible apply State.passShadows_ok
    | with_reducible apply State.passRows_ok
    | with_reducible exact OkO.none
    | with_reducible apply OkO.some
    | with_reducible apply OkO.mapS
    | with_reducible apply OkO.mapP
    | with_reducible apply OkO.map
    | with_reducible apply OkO.foldlBind
    | with_reducible refine State.passShadows_eq ?_ (by with_reducible assumption)
    | with_reducible refine State.passRows_eq ?_ (by with_reducible assumption)
    | with_reducible apply OkOP.foldlBind
    | with_reducible apply OkOP.bind
    | with_reducible apply OkOP.map
    | with_reducible apply OkOP.mapS
    | with_reducible apply OkO.mapS
    | with_reducible apply OkO.mapP
    | with_reducible apply OkO.getD
    | with_reducible apply OkOP.some
    | with_reducible apply OkO.map
    | with_reducible apply OkOP.mapO
    | with_reducible apply OkO.foldlBind
    | with_reducible apply OkO.bind
    | with_reducible apply OkO.none
    | with_reducible apply OkO.some
    | with_reducible apply Ok.foldl
    | with_reducible apply Ok.foldlP
    | with_reducible refine OkO.elim ?_ (by with_reducible assumption)
    | with_reducible refine OkOP.elim ?_ (by with_reducible assumption)
    | with_reducible refine Ok.pairElim ?_ (by with_reducible assumption)
    | dsimp only
    | split
theorem State.passTables_eq {ql : List Instr} {s : State} {m : Model} {p : Pass} {results : List SeqLogits} {t : State} (h : Ok ql s) (e : State.passTables s m p results = some t) : Ok ql t :=
  State.passTables_ok m p results h _ e

theorem State.passSeqs_ok {ql : List Instr} {s : State} (m : Model) (p : Pass) (results : List SeqLogits) (h : Ok ql s) : Ok ql (State.passSeqs s m p results) := by
  unfold State.passSeqs
  try dsimp only
  repeat' first
    | with_reducible assumption
    | with_reducible intro _
    | with_reducible apply State.passSeq_ok
    | with_reducible apply OkOP.foldlBind
    | with_reducible apply OkOP.bind
    | with_reducible apply OkOP.map
    | with_reducible apply OkOP.mapS
    | with_reducible apply OkO.mapS
    | with_reducible apply OkO.mapP
    | with_reducible apply OkO.getD
    | with_reducible apply OkOP.some
    | with_reducible apply OkO.map
    | with_reducible apply OkOP.mapO
    | with_reducible apply OkO.foldlBind
    | with_reducible apply OkO.bind
    | with_reducible apply OkO.none
    | with_reducible apply OkO.some
    | with_reducible apply Ok.foldl
    | with_reducible apply Ok.foldlP
    | with_reducible apply Ok.ite
    | with_reducible refine OkO.elim ?_ (by with_reducible assumption)
    | with_reducible refine OkOP.elim ?_ (by with_reducible assumption)
    | with_reducible refine Ok.pairElim ?_ (by with_reducible assumption)
    | dsimp only
    | split

theorem execPassCommit_ok {ql : List Instr} (pass : Nat) (results : List SeqLogits) {s : State} (h : Ok ql s) : OkR ql (execPassCommit pass results s) := by
  unfold execPassCommit
  try dsimp only
  repeat' first
    | with_reducible assumption
    | simp only [Ok.lit]
    | with_reducible apply State.onSvc_ok
    | with_reducible apply State.commitAct_ok
    | with_reducible apply State.commitAdmit_ok
    | with_reducible apply State.passFailed_ok
    | with_reducible apply State.passTables_ok
    | with_reducible apply State.passSeqs_ok
    | with_reducible apply OkR.next
    | with_reducible refine State.commitAdmit_eq ?_ (by with_reducible assumption)
    | with_reducible refine State.passTables_eq ?_ (by with_reducible assumption)
    | with_reducible apply OkR.ite
    | with_reducible apply Ok.ite
    | dsimp only
    | split

theorem State.writeStream_ok {ql : List Instr} {s : State} (qp request count : Nat) (h : Ok ql s) : Ok ql (State.writeStream s qp request count) := by
  unfold State.writeStream
  try dsimp only
  repeat' first
    | with_reducible assumption
    | with_reducible apply State.onSvc_ok
    | with_reducible apply State.sendWrite_ok
    | with_reducible apply State.modStream_ok
    | with_reducible apply Ok.ite
    | split

theorem execStreamWrite_ok {ql : List Instr} (qp request count : Nat) {s : State} (h : Ok ql s) : OkR ql (execStreamWrite qp request count s) := by
  unfold execStreamWrite
  try dsimp only
  repeat' first
    | with_reducible assumption
    | with_reducible apply State.writeStream_ok
    | with_reducible apply OkR.next

theorem State.endStreams_ok {ql : List Instr} {s : State} (qps : List Nat) (h : Ok ql s) : Ok ql (State.endStreams s qps) := by
  unfold State.endStreams
  try dsimp only
  repeat' first
    | with_reducible assumption
    | with_reducible intro _
    | with_reducible apply State.onSvc_ok
    | with_reducible apply State.endWith_ok
    | with_reducible apply State.writeStream_ok
    | with_reducible apply Ok.foldl

theorem execCreditTimeout_ok {ql : List Instr} (qp request : Nat) {s : State} (h : Ok ql s) : OkR ql (execCreditTimeout qp request s) := by
  unfold execCreditTimeout
  try dsimp only
  repeat' first
    | with_reducible assumption
    | with_reducible apply State.endWith_ok
    | with_reducible apply OkR.next
    | with_reducible apply OkR.ite
    | split

theorem execContextIdleTimeout_ok {ql : List Instr} (context : Nat) {s : State} (h : Ok ql s) : OkR ql (execContextIdleTimeout context s) := by
  unfold execContextIdleTimeout
  try dsimp only
  repeat' first
    | with_reducible assumption
    | with_reducible apply State.closeContext_ok
    | with_reducible apply OkR.next
    | with_reducible apply OkR.ite
    | split

theorem State.modelReady_ok {ql : List Instr} {s : State} (model : Nat) (ok : Bool) (h : Ok ql s) : Ok ql (State.modelReady s model ok) := by
  unfold State.modelReady
  try dsimp only
  repeat' first
    | with_reducible assumption
    | with_reducible intro _
    | with_reducible apply State.failWith_ok
    | with_reducible apply State.makeReady_ok
    | with_reducible apply Ok.foldl
    | with_reducible apply Ok.ite

theorem State.roomForImage_ok {ql : List Instr} {s : State} (n : Nat) (h : Ok ql s) : Ok ql (State.roomForImage s n) := by
  unfold State.roomForImage
  try dsimp only
  repeat' first
    | with_reducible assumption
    | with_reducible intro _
    | with_reducible apply State.freeOnce_ok
    | with_reducible refine State.freeOnce_eq ?_ (by with_reducible assumption)
    | with_reducible apply OkOP.foldlBind
    | with_reducible apply OkOP.bind
    | with_reducible apply OkOP.map
    | with_reducible apply OkOP.mapS
    | with_reducible apply OkO.mapS
    | with_reducible apply OkO.mapP
    | with_reducible apply OkO.getD
    | with_reducible apply OkOP.some
    | with_reducible apply OkO.map
    | with_reducible apply OkOP.mapO
    | with_reducible apply OkO.foldlBind
    | with_reducible apply OkO.bind
    | with_reducible apply OkO.none
    | with_reducible apply OkO.some
    | with_reducible apply Ok.foldl
    | with_reducible apply Ok.foldlP
    | with_reducible apply Ok.ite
    | with_reducible refine OkO.elim ?_ (by with_reducible assumption)
    | with_reducible refine OkOP.elim ?_ (by with_reducible assumption)
    | with_reducible refine Ok.pairElim ?_ (by with_reducible assumption)
    | dsimp only
    | split

theorem execModelFetch_ok {ql : List Instr} (model : Nat) (weights : List Byte) {s : State} (h : Ok ql s) : OkR ql (execModelFetch model weights s) := by
  unfold execModelFetch
  try dsimp only
  repeat' first
    | with_reducible assumption
    | simp only [Ok.lit]
    | with_reducible apply State.logEvent_ok
    | with_reducible apply State.writeImage_ok
    | with_reducible apply State.modModel_ok
    | with_reducible apply State.modelReady_ok
    | with_reducible apply State.roomForImage_ok
    | with_reducible apply OkR.next
    | with_reducible apply OkR.ite
    | with_reducible apply Ok.ite
    | dsimp only
    | split

theorem execModelStage_ok {ql : List Instr} (model : Nat) {s : State} (h : Ok ql s) : OkR ql (execModelStage model s) := by
  unfold execModelStage
  try dsimp only
  repeat' first
    | with_reducible assumption
    | with_reducible apply State.modelReady_ok
    | with_reducible apply State.modModel_ok
    | with_reducible apply OkR.next
    | with_reducible apply OkR.ite
    | split

theorem State.unpin_ok {ql : List Instr} (n : Nat) {s : State} (h : Ok ql s) : Ok ql (State.unpin n s) := by
  induction n generalizing s with
  | zero => exact h
  | succ n ih =>
    unfold State.unpin
    dsimp only
    repeat' first
      | with_reducible assumption
      | with_reducible apply ih
      | with_reducible apply State.logEvent_ok
      | with_reducible apply State.modModel_ok
      | split

theorem State.rankOne_ok {ql : List Instr} {s : State} (i : Nat) (h : Ok ql s) : Ok ql (State.rankOne s i) := by
  unfold State.rankOne
  try dsimp only
  repeat' first
    | with_reducible assumption
    | with_reducible intro _
    | simp only [Ok.lit]
    | with_reducible apply State.modModel_ok
    | with_reducible apply State.demote_ok
    | with_reducible apply State.promote_ok
    | with_reducible apply OkOP.foldlBind
    | with_reducible apply OkOP.bind
    | with_reducible apply OkOP.map
    | with_reducible apply OkOP.mapS
    | with_reducible apply OkO.mapS
    | with_reducible apply OkO.mapP
    | with_reducible apply OkO.getD
    | with_reducible apply OkOP.some
    | with_reducible apply OkO.map
    | with_reducible apply OkOP.mapO
    | with_reducible apply OkO.foldlBind
    | with_reducible apply OkO.bind
    | with_reducible apply OkO.none
    | with_reducible apply OkO.some
    | with_reducible apply Ok.foldl
    | with_reducible apply Ok.foldlP
    | with_reducible apply Ok.ite
    | with_reducible refine OkO.elim ?_ (by with_reducible assumption)
    | with_reducible refine OkOP.elim ?_ (by with_reducible assumption)
    | with_reducible refine Ok.pairElim ?_ (by with_reducible assumption)
    | dsimp only
    | split

theorem execResidencyRank_ok {ql : List Instr} {s : State} (h : Ok ql s) : OkR ql (execResidencyRank s) := by
  unfold execResidencyRank
  try dsimp only
  repeat' first
    | with_reducible assumption
    | with_reducible intro _
    | with_reducible apply State.rankOne_ok
    | with_reducible apply OkR.next
    | with_reducible apply Ok.foldl

theorem State.stagePart_ok {ql : List Instr} {s : State} (adapter n : Nat) (h : Ok ql s) : OkO ql (State.stagePart s adapter n) := by
  unfold State.stagePart
  try dsimp only
  repeat' first
    | with_reducible assumption
    | simp only [Ok.lit]
    | with_reducible apply State.onSvc_ok
    | with_reducible exact OkO.none
    | with_reducible apply OkO.some
    | with_reducible apply OkO.mapS
    | with_reducible apply OkO.mapP
    | with_reducible apply OkO.map
    | with_reducible apply OkO.foldlBind
    | with_reducible apply OkO.ite
    | with_reducible apply Ok.ite
    | dsimp only
    | split
theorem State.stagePart_eq {ql : List Instr} {s : State} {adapter n : Nat} {t : State} (h : Ok ql s) (e : State.stagePart s adapter n = some t) : Ok ql t :=
  State.stagePart_ok adapter n h _ e

theorem State.stageSlices_ok {ql : List Instr} {s : State} (adapter n : Nat) (h : Ok ql s) : OkO ql (State.stageSlices s adapter n) := by
  unfold State.stageSlices
  try dsimp only
  repeat' first
    | with_reducible assumption
    | with_reducible intro _
    | with_reducible apply State.stagePart_ok
    | with_reducible exact OkO.none
    | with_reducible apply OkO.some
    | with_reducible apply OkO.mapS
    | with_reducible apply OkO.mapP
    | with_reducible apply OkO.map
    | with_reducible apply OkO.foldlBind
    | with_reducible refine State.stagePart_eq ?_ (by with_reducible assumption)
    | with_reducible apply OkOP.foldlBind
    | with_reducible apply OkOP.bind
    | with_reducible apply OkOP.map
    | with_reducible apply OkOP.mapS
    | with_reducible apply OkO.mapS
    | with_reducible apply OkO.mapP
    | with_reducible apply OkO.getD
    | with_reducible apply OkOP.some
    | with_reducible apply OkO.map
    | with_reducible apply OkOP.mapO
    | with_reducible apply OkO.foldlBind
    | with_reducible apply OkO.bind
    | with_reducible apply OkO.none
    | with_reducible apply OkO.some
    | with_reducible apply Ok.foldl
    | with_reducible apply Ok.foldlP
    | with_reducible refine OkO.elim ?_ (by with_reducible assumption)
    | with_reducible refine OkOP.elim ?_ (by with_reducible assumption)
    | with_reducible refine Ok.pairElim ?_ (by with_reducible assumption)
    | dsimp only
    | split
theorem State.stageSlices_eq {ql : List Instr} {s : State} {adapter n : Nat} {t : State} (h : Ok ql s) (e : State.stageSlices s adapter n = some t) : Ok ql t :=
  State.stageSlices_ok adapter n h _ e

theorem State.touchAdapter_ok {ql : List Instr} {s : State} (adapter : Nat) (a : Adapter) (h : Ok ql s) : Ok ql (State.touchAdapter s adapter a) := by
  unfold State.touchAdapter
  try dsimp only
  repeat' first
    | with_reducible assumption
    | simp only [Ok.lit]
    | with_reducible apply State.onSvc_ok
    | dsimp only
    | split

theorem execAdapterStage_ok {ql : List Instr} (pass adapter : Nat) {s : State} (h : Ok ql s) : OkR ql (execAdapterStage pass adapter s) := by
  unfold execAdapterStage
  try dsimp only
  repeat' first
    | with_reducible assumption
    | with_reducible apply State.writeImage_ok
    | with_reducible apply State.stageSlices_ok
    | with_reducible apply State.touchAdapter_ok
    | with_reducible apply OkR.next
    | with_reducible refine State.stageSlices_eq ?_ (by with_reducible assumption)
    | with_reducible apply OkR.ite
    | with_reducible apply Ok.ite
    | dsimp only
    | split

theorem execFinetuneStep_ok {ql : List Instr} (adapter : Nat) (ok : Bool) (grads : List Word) {s : State} (h : Ok ql s) : OkR ql (execFinetuneStep adapter ok grads s) := by
  unfold execFinetuneStep
  try dsimp only
  repeat' first
    | with_reducible assumption
    | with_reducible apply State.onSvc_ok
    | simp only [Ok.lit]
    | with_reducible apply State.discardEpoch_ok
    | with_reducible apply State.commitAct_ok
    | with_reducible apply OkR.next
    | with_reducible refine State.openEpoch_eq ?_ (by with_reducible assumption)
    | with_reducible apply OkR.ite
    | with_reducible apply Ok.ite
    | split

theorem State.mergeTable_ok {ql : List Instr} {s : State} (t0 : KvTable) (at_ count log2 : Nat) (run : List (Nat × Nat)) (h : Ok ql s) : OkOP ql (State.mergeTable s t0 at_ count log2 run) := by
  unfold State.mergeTable
  try dsimp only
  repeat' first
    | with_reducible assumption
    | with_reducible intro _
    | simp only [Ok.lit]
    | with_reducible apply State.onWork_ok
    | with_reducible apply State.onMem_ok
    | with_reducible apply State.copyData_ok
    | with_reducible apply State.dropPage_ok
    | with_reducible apply State.allocKv_ok
    | with_reducible exact OkOP.none
    | with_reducible apply OkOP.some
    | with_reducible apply OkOP.pair
    | with_reducible apply OkOP.foldlBind
    | with_reducible apply OkOP.bind
    | with_reducible apply OkOP.map
    | with_reducible apply OkOP.mapS
    | with_reducible apply OkOP.mapO
    | with_reducible refine State.allocKv_eq ?_ (by with_reducible assumption)
    | with_reducible apply OkOP.foldlBind
    | with_reducible apply OkOP.bind
    | with_reducible apply OkOP.map
    | with_reducible apply OkOP.mapS
    | with_reducible apply OkO.mapS
    | with_reducible apply OkO.mapP
    | with_reducible apply OkO.getD
    | with_reducible apply OkOP.some
    | with_reducible apply OkO.map
    | with_reducible apply OkOP.mapO
    | with_reducible apply OkO.foldlBind
    | with_reducible apply OkO.bind
    | with_reducible apply OkO.none
    | with_reducible apply OkO.some
    | with_reducible apply Ok.foldl
    | with_reducible apply Ok.foldlP
    | with_reducible apply Ok.onMem
    | (simp only [Ok.litM]; refine ⟨?_, ?_⟩)
    | with_reducible apply Mem.raiseInstars_wf
    | with_reducible apply Mem.copy_wf
    | with_reducible apply Mem.foldl_wf
    | (simp only [Mem.lit_wf])
    | with_reducible exact Ok.wf (by with_reducible assumption)
    | with_reducible exact Ok.queue (by with_reducible assumption)
    | (exact (rfl : Mem.wf {} = true))
    | with_reducible apply OkOP.ite
    | with_reducible apply Ok.ite
    | with_reducible refine OkO.elim ?_ (by with_reducible assumption)
    | with_reducible refine OkOP.elim ?_ (by with_reducible assumption)
    | with_reducible refine Ok.pairElim ?_ (by with_reducible assumption)
    | dsimp only
    | split
theorem State.mergeTable_eq {ql : List Instr} {s : State} {t0 : KvTable} {at_ count log2 : Nat} {run : List (Nat × Nat)} {x : _} {t : State} (h : Ok ql s) (e : State.mergeTable s t0 at_ count log2 run = some (t, x)) : Ok ql t :=
  State.mergeTable_ok t0 at_ count log2 run h _ _ e

theorem State.mergePages_ok {ql : List Instr} {s : State} (ctx at_ count log2 : Nat) (h : Ok ql s) : Ok ql (State.mergePages s ctx at_ count log2) := by
  unfold State.mergePages
  try dsimp only
  repeat' first
    | with_reducible assumption
    | with_reducible intro _
    | simp only [Ok.lit]
    | with_reducible apply State.modContext_ok
    | with_reducible apply State.syncTables_ok
    | with_reducible apply State.mergeTable_ok
    | with_reducible refine State.mergeTable_eq ?_ (by with_reducible assumption)
    | with_reducible apply OkOP.foldlBind
    | with_reducible apply OkOP.bind
    | with_reducible apply OkOP.map
    | with_reducible apply OkOP.mapS
    | with_reducible apply OkO.mapS
    | with_reducible apply OkO.mapP
    | with_reducible apply OkO.getD
    | with_reducible apply OkOP.some
    | with_reducible apply OkO.map
    | with_reducible apply OkOP.mapO
    | with_reducible apply OkO.foldlBind
    | with_reducible apply OkO.bind
    | with_reducible apply OkO.none
    | with_reducible apply OkO.some
    | with_reducible apply Ok.foldl
    | with_reducible apply Ok.foldlP
    | with_reducible apply Ok.ite
    | with_reducible refine OkO.elim ?_ (by with_reducible assumption)
    | with_reducible refine OkOP.elim ?_ (by with_reducible assumption)
    | with_reducible refine Ok.pairElim ?_ (by with_reducible assumption)
    | dsimp only
    | split

theorem State.placerAct_ok {ql : List Instr} {s : State} (a : PlacerAct) (h : Ok ql s) : Ok ql (State.placerAct s a) := by
  unfold State.placerAct
  repeat' first
    | with_reducible assumption
    | with_reducible apply State.onWork_ok
    | with_reducible apply State.demote_ok
    | with_reducible apply State.dropImage_ok
    | with_reducible apply State.spillCtx_ok
    | with_reducible apply State.lowerPools_ok
    | with_reducible apply State.restoreCtx_ok
    | with_reducible apply State.modTask_ok
    | with_reducible apply State.mergePages_ok
    | with_reducible intro _
    | with_reducible apply Ok.ite
    | split

theorem State.leaveFenced_ok {ql : List Instr} {s : State} (h : Ok ql s) : Ok ql (State.leaveFenced s) := by
  unfold State.leaveFenced
  try dsimp only
  repeat' first
    | with_reducible assumption
    | simp only [Ok.lit]
    | with_reducible apply State.onWork_ok
    | with_reducible apply Ok.ite
    | dsimp only
    | split

theorem execPlacerRecompute_ok {ql : List Instr} (acts : List PlacerAct) {s : State} (h : Ok ql s) : OkR ql (execPlacerRecompute acts s) := by
  unfold execPlacerRecompute
  try dsimp only
  repeat' first
    | with_reducible assumption
    | with_reducible intro _
    | with_reducible apply State.settle_ok
    | with_reducible apply State.placerAct_ok
    | with_reducible apply State.leaveFenced_ok
    | with_reducible apply OkR.next
    | with_reducible apply OkOP.foldlBind
    | with_reducible apply OkOP.bind
    | with_reducible apply OkOP.map
    | with_reducible apply OkOP.mapS
    | with_reducible apply OkO.mapS
    | with_reducible apply OkO.mapP
    | with_reducible apply OkO.getD
    | with_reducible apply OkOP.some
    | with_reducible apply OkO.map
    | with_reducible apply OkOP.mapO
    | with_reducible apply OkO.foldlBind
    | with_reducible apply OkO.bind
    | with_reducible apply OkO.none
    | with_reducible apply OkO.some
    | with_reducible apply Ok.foldl
    | with_reducible apply Ok.foldlP
    | with_reducible refine OkO.elim ?_ (by with_reducible assumption)
    | with_reducible refine OkOP.elim ?_ (by with_reducible assumption)
    | with_reducible refine Ok.pairElim ?_ (by with_reducible assumption)
    | dsimp only
    | split

/-! ### What Machine/Fence keeps -/

theorem State.breakInstance_ok {ql : List Instr} {s : State} (h0 : Handle) (h : Ok ql s) : Ok ql (State.breakInstance s h0) := by
  unfold State.breakInstance
  try dsimp only
  repeat' first
    | with_reducible assumption
    | with_reducible apply State.onWork_ok
    | with_reducible apply State.settle_ok

theorem State.replace_ok {ql : List Instr} {s : State} (p : Placed) (lost : Nat → Bool) (h : Ok ql s) : Ok ql (State.replace s p lost) := by
  unfold State.replace
  try dsimp only
  repeat' first
    | with_reducible assumption
    | simp only [Ok.lit]
    | with_reducible apply State.onWork_ok
    | with_reducible apply State.copyParts_ok
    | with_reducible apply Ok.ite
    | dsimp only
    | split

theorem State.loseRegion_ok {ql : List Instr} {s : State} (rescue : Bool) (lost : Nat → Bool) (h : Ok ql s) : Ok ql (State.loseRegion s rescue lost).1 := by
  unfold State.loseRegion
  try dsimp only
  repeat' first
    | with_reducible assumption
    | with_reducible intro _
    | simp only [Ok.lit]
    | with_reducible apply State.onWork_ok
    | with_reducible apply State.discardEpoch_ok
    | with_reducible apply State.closeContext_ok
    | with_reducible apply State.failWith_ok
    | with_reducible apply State.breakInstance_ok
    | with_reducible apply State.replace_ok
    | with_reducible apply OkOP.foldlBind
    | with_reducible apply OkOP.bind
    | with_reducible apply OkOP.map
    | with_reducible apply OkOP.mapS
    | with_reducible apply OkO.mapS
    | with_reducible apply OkO.mapP
    | with_reducible apply OkO.getD
    | with_reducible apply OkOP.some
    | with_reducible apply OkO.map
    | with_reducible apply OkOP.mapO
    | with_reducible apply OkO.foldlBind
    | with_reducible apply OkO.bind
    | with_reducible apply OkO.none
    | with_reducible apply OkO.some
    | with_reducible apply Ok.foldl
    | with_reducible apply Ok.foldlP
    | with_reducible apply Ok.ite
    | with_reducible refine OkO.elim ?_ (by with_reducible assumption)
    | with_reducible refine OkOP.elim ?_ (by with_reducible assumption)
    | with_reducible refine Ok.pairElim ?_ (by with_reducible assumption)
    | dsimp only
    | split
theorem State.loseRegion_eq {ql : List Instr} {s : State} {rescue : Bool} {lost : Nat → Bool} {x : _} {t : State} (h : Ok ql s) (e : State.loseRegion s rescue lost = (t, x)) : Ok ql t := by
  have h9 := State.loseRegion_ok rescue lost h
  rw [e] at h9; exact h9

theorem State.failPackage_ok {ql : List Instr} {s : State} (m : Nat) (h : Ok ql s) : Ok ql (State.failPackage s m) := by
  unfold State.failPackage
  try dsimp only
  repeat' first
    | with_reducible assumption
    | simp only [Ok.lit]
    | with_reducible apply State.modOuter_ok
    | with_reducible apply State.onFw_ok
    | with_reducible apply State.onLife_ok
    | with_reducible apply State.onSvc_ok
    | with_reducible apply State.logEvent_ok
    | with_reducible apply State.loseRegion_ok
    | with_reducible refine State.loseRegion_eq ?_ (by with_reducible assumption)
    | with_reducible apply Ok.ite
    | dsimp only
    | split

theorem State.returnCredits_ok {ql : List Instr} {s : State} (cd : Nat) (h : Ok ql s) : Ok ql (State.returnCredits s cd) := by
  unfold State.returnCredits
  try dsimp only
  repeat' first
    | with_reducible assumption
    | with_reducible intro _
    | with_reducible apply State.modOuter_ok
    | with_reducible apply Ok.foldl

theorem State.fenceWave_ok {ql : List Instr} {s : State} (cd status : Nat) (answers : Bool) (h : Ok ql s) : Ok ql (State.fenceWave s cd status answers) := by
  unfold State.fenceWave
  try dsimp only
  repeat' first
    | with_reducible assumption
    | with_reducible intro _
    | with_reducible apply State.modCore_ok
    | with_reducible apply State.modCluster_ok
    | with_reducible apply State.modTask_ok
    | with_reducible apply State.emit_ok
    | with_reducible apply State.stopCluster_ok
    | with_reducible apply Ok.foldl
    | with_reducible apply Ok.ite
    | split

theorem State.moveShares_ok {ql : List Instr} {s : State} (cd : Nat) (h : Ok ql s) : Ok ql (State.moveShares s cd) := by
  unfold State.moveShares
  try dsimp only
  repeat' first
    | with_reducible assumption
    | with_reducible intro _
    | with_reducible apply State.modTask_ok
    | with_reducible apply State.emit_ok
    | with_reducible apply Ok.foldl
    | with_reducible apply Ok.ite

theorem State.fenceCluster_ok {ql : List Instr} {s : State} (cd : Nat) (ev : Ev) (answers : Bool) (h : Ok ql s) : Ok ql (State.fenceCluster s cd ev answers) := by
  unfold State.fenceCluster
  try dsimp only
  repeat' first
    | with_reducible assumption
    | with_reducible intro _
    | simp only [Ok.lit]
    | with_reducible apply State.modCluster_ok
    | with_reducible apply State.modTask_ok
    | with_reducible apply State.onWork_ok
    | with_reducible apply State.onFw_ok
    | with_reducible apply State.onLife_ok
    | with_reducible apply State.alert_ok
    | with_reducible apply State.logEvent_ok
    | with_reducible apply State.abortPackets_ok
    | with_reducible apply State.discardEpoch_ok
    | with_reducible apply State.unpin_ok
    | with_reducible apply State.loseRegion_ok
    | with_reducible apply State.returnCredits_ok
    | with_reducible apply State.fenceWave_ok
    | with_reducible apply State.moveShares_ok
    | with_reducible refine State.loseRegion_eq ?_ (by with_reducible assumption)
    | with_reducible apply OkOP.foldlBind
    | with_reducible apply OkOP.bind
    | with_reducible apply OkOP.map
    | with_reducible apply OkOP.mapS
    | with_reducible apply OkO.mapS
    | with_reducible apply OkO.mapP
    | with_reducible apply OkO.getD
    | with_reducible apply OkOP.some
    | with_reducible apply OkO.map
    | with_reducible apply OkOP.mapO
    | with_reducible apply OkO.foldlBind
    | with_reducible apply OkO.bind
    | with_reducible apply OkO.none
    | with_reducible apply OkO.some
    | with_reducible apply Ok.foldl
    | with_reducible apply Ok.foldlP
    | with_reducible apply Ok.ite
    | with_reducible refine OkO.elim ?_ (by with_reducible assumption)
    | with_reducible refine OkOP.elim ?_ (by with_reducible assumption)
    | with_reducible refine Ok.pairElim ?_ (by with_reducible assumption)
    | dsimp only
    | split

theorem execClusterFence_ok {ql : List Instr} (cd event : Nat) (dispatcherAnswers : Bool) {s : State} (h : Ok ql s) : OkR ql (execClusterFence cd event dispatcherAnswers s) := by
  unfold execClusterFence
  try dsimp only
  repeat' first
    | with_reducible assumption
    | with_reducible apply State.fenceCluster_ok
    | with_reducible apply OkR.next
    | split

theorem execHeartbeatTimeout_ok {ql : List Instr} (cd : Nat) {s : State} (h : Ok ql s) : OkR ql (execHeartbeatTimeout cd s) := by
  unfold execHeartbeatTimeout
  try dsimp only
  repeat' first
    | with_reducible assumption
    | with_reducible apply State.fenceCluster_ok
    | with_reducible apply OkR.next
    | with_reducible apply OkR.ite

/-! ### What Machine/Slices keeps -/

theorem State.serve_ok {ql : List Instr} {s : State} (g : Agent) (a len : Nat) (acc : Access) (h : Ok ql s) : Ok ql (State.serve s g a len acc) := by
  unfold State.serve
  try dsimp only
  repeat' first
    | with_reducible assumption
    | with_reducible apply State.emit_ok
    | with_reducible apply State.readRange_ok
    | with_reducible apply State.writeRange_ok
    | with_reducible apply State.reply_ok
    | split

theorem State.queueBurst_ok {ql : List Instr} {s : State} (r : SReq) (h : Ok ql s) : Ok ql (State.queueBurst s r) := by
  unfold State.queueBurst
  try dsimp only
  repeat' first
    | with_reducible assumption
    | simp only [Ok.lit]
    | with_reducible apply State.modSlice_ok
    | with_reducible apply Ok.ite
    | dsimp only
    | split

theorem execSliceBurstRequest_ok {ql : List Instr} (from_ : Agent) (addr len : Nat) (acc : Access) {s : State} (h : Ok ql s) : OkR ql (execSliceBurstRequest from_ addr len acc s) := by
  unfold execSliceBurstRequest
  try dsimp only
  repeat' first
    | with_reducible assumption
    | simp only [Ok.lit]
    | with_reducible apply State.modCore_ok
    | with_reducible apply State.countBusy_ok
    | with_reducible apply State.reply_ok
    | with_reducible apply State.accessFault_ok
    | with_reducible apply State.serve_ok
    | with_reducible apply State.queueBurst_ok
    | with_reducible apply OkR.next
    | with_reducible apply OkR.ite
    | with_reducible apply Ok.ite
    | dsimp only
    | split

theorem State.dropBursts_ok {ql : List Instr} {s : State} (p : SReq → Bool) (h : Ok ql s) : Ok ql (State.dropBursts s p) := by
  unfold State.dropBursts
  try dsimp only
  repeat' first
    | with_reducible assumption
    | simp only [Ok.lit]
    | dsimp only
    | split

theorem State.answerLate_ok {ql : List Instr} (late : List SReq) {s : State} (h : Ok ql s) : Ok ql (State.answerLate s late) := by
  induction late generalizing s with
  | nil => exact h
  | cons r late ih =>
    unfold State.answerLate
    apply ih
    apply State.reply_ok
    cases coreOf r.agent with
    | none => exact h
    | some c => exact State.modCore_ok _ _ h

theorem execResettingAnswerTimeout_ok {ql : List Instr} (cd : Nat) {s : State} (h : Ok ql s) : OkR ql (execResettingAnswerTimeout cd s) := by
  unfold execResettingAnswerTimeout
  split
  · exact OkR.next h
  · exact OkR.next (State.answerLate_ok _ (State.dropBursts_ok _ (State.modCluster_ok _ _ h)))

theorem execSliceBurstComplete_ok {ql : List Instr} (c : Nat) (r : BurstRef) {s : State} (h : Ok ql s) : OkR ql (execSliceBurstComplete c r s) := by
  unfold execSliceBurstComplete
  try dsimp only
  repeat' first
    | with_reducible assumption
    | simp only [Ok.lit]
    | with_reducible apply State.modCore_ok
    | with_reducible apply State.modSlice_ok
    | with_reducible apply State.dropBursts_ok
    | with_reducible apply State.wakeSlots_ok
    | with_reducible apply State.completed_ok
    | with_reducible apply OkR.next
    | with_reducible apply OkR.ite
    | with_reducible apply Ok.ite
    | dsimp only
    | split

theorem execCorrectedWriteBack_ok {ql : List Instr} (c codeword : Nat) {s : State} (h : Ok ql s) : OkR ql (execCorrectedWriteBack c codeword s) := by
  unfold execCorrectedWriteBack
  try dsimp only
  repeat' first
    | with_reducible assumption
    | with_reducible intro _
    | simp only [Ok.lit]
    | with_reducible apply State.modSlice_ok
    | with_reducible apply State.onMem_ok
    | with_reducible apply OkR.next
    | with_reducible apply Ok.onMem
    | (simp only [Ok.litM]; refine ⟨?_, ?_⟩)
    | with_reducible apply Mem.write_wf
    | with_reducible apply Mem.clearFlips_wf
    | (simp only [Mem.lit_wf])
    | with_reducible exact Ok.wf (by with_reducible assumption)
    | with_reducible exact Ok.queue (by with_reducible assumption)
    | (exact (rfl : Mem.wf {} = true))
    | with_reducible apply OkR.ite
    | with_reducible apply Ok.ite
    | dsimp only
    | split

theorem execSliceRefresh_ok {ql : List Instr} (stack quadrant layer : Nat) {s : State} (h : Ok ql s) : OkR ql (execSliceRefresh stack quadrant layer s) := by
  unfold execSliceRefresh
  try dsimp only
  repeat' first
    | with_reducible assumption
    | with_reducible apply State.onHeat_ok
    | with_reducible apply OkR.next

theorem execSliceFill_ok {ql : List Instr} {s : State} (h : Ok ql s) : OkR ql (execSliceFill s) := by
  unfold execSliceFill
  try dsimp only
  repeat' first
    | with_reducible assumption
    | with_reducible intro _
    | simp only [Ok.lit]
    | with_reducible apply State.onFw_ok
    | with_reducible apply OkR.next
    | with_reducible apply Ok.onMem
    | with_reducible apply Mem.clear_wf
    | (simp only [Mem.lit_wf])
    | with_reducible apply OkR.ite

theorem execCheckerSelftest_ok {ql : List Instr} (slices packages : List CheckSeen) {s : State} (h : Ok ql s) : OkR ql (execCheckerSelftest slices packages s) := by
  unfold execCheckerSelftest
  try dsimp only
  repeat' first
    | with_reducible assumption
    | with_reducible intro _
    | simp only [Ok.lit]
    | with_reducible apply State.onFw_ok
    | with_reducible apply State.failPackage_ok
    | with_reducible apply State.fenceCluster_ok
    | with_reducible apply OkR.next
    | with_reducible apply OkO.map
    | with_reducible apply OkO.foldlBind
    | with_reducible apply OkO.bind
    | with_reducible apply OkO.none
    | with_reducible apply OkO.some
    | with_reducible apply Ok.foldl
    | with_reducible apply Ok.foldlP
    | with_reducible apply OkR.ite
    | with_reducible apply Ok.ite
    | with_reducible refine OkO.elim ?_ (by with_reducible assumption)
    | with_reducible refine OkOP.elim ?_ (by with_reducible assumption)
    | with_reducible refine Ok.pairElim ?_ (by with_reducible assumption)
    | dsimp only
    | split

theorem execScrubBurst_ok {ql : List Instr} (c : Nat) {s : State} (h : Ok ql s) : OkR ql (execScrubBurst c s) := by
  unfold execScrubBurst
  try dsimp only
  repeat' first
    | with_reducible assumption
    | simp only [Ok.lit]
    | with_reducible apply State.modSlice_ok
    | with_reducible apply State.readCodeword_ok
    | with_reducible apply OkR.next
    | with_reducible refine State.readCodeword_eq ?_ (by with_reducible assumption)
    | with_reducible apply OkR.ite
    | with_reducible apply Ok.ite
    | dsimp only
    | split

theorem execScrubAge_ok {ql : List Instr} (u : RegUnit) (_due : Unit) {s : State} (h : Ok ql s) : OkR ql (execScrubAge u _due s) := by
  unfold execScrubAge
  try extract_lets
  repeat' first
    | with_reducible assumption
    | simp only [Ok.lit]
    | with_reducible apply State.alert_ok
    | with_reducible apply State.logEvent_ok
    | with_reducible apply OkR.next
    | with_reducible apply OkR.ite
    | with_reducible apply Ok.ite
    | split
    | dsimp +zetaDelta only

theorem State.dropSlicePage_ok {ql : List Instr} {s : State} (c page : Nat) (h : Ok ql s) : Ok ql (State.dropSlicePage s c page) := by
  unfold State.dropSlicePage
  try dsimp only
  repeat' first
    | with_reducible assumption
    | with_reducible apply State.modSlice_ok
    | with_reducible apply State.onFw_ok
    | with_reducible apply State.onLife_ok

theorem State.retireEmptySlice_ok {ql : List Instr} {s : State} (c page : Nat) (h : Ok ql s) : Ok ql (State.retireEmptySlice s c page) := by
  unfold State.retireEmptySlice
  try dsimp only
  repeat' first
    | with_reducible assumption
    | with_reducible apply State.modSlice_ok
    | with_reducible apply State.dropSlicePage_ok
    | with_reducible apply Ok.ite

theorem State.retireSlicePage_ok {ql : List Instr} {s : State} (c page : Nat) (h : Ok ql s) : Ok ql (State.retireSlicePage s c page) := by
  unfold State.retireSlicePage
  try dsimp only
  repeat' first
    | with_reducible assumption
    | with_reducible apply State.modSlice_ok
    | with_reducible apply State.retireEmptySlice_ok
    | split

theorem State.retireBank_ok {ql : List Instr} {s : State} (c bank : Nat) (h : Ok ql s) : Ok ql (State.retireBank s c bank) := by
  unfold State.retireBank
  try dsimp only
  repeat' first
    | with_reducible assumption
    | with_reducible intro _
    | simp only [Ok.lit]
    | with_reducible apply State.modSlice_ok
    | with_reducible apply State.onFw_ok
    | with_reducible apply State.onLife_ok
    | with_reducible apply State.retireEmptySlice_ok
    | with_reducible apply State.retireSlicePage_ok
    | with_reducible apply State.fenceCluster_ok
    | with_reducible apply OkO.map
    | with_reducible apply OkO.foldlBind
    | with_reducible apply OkO.bind
    | with_reducible apply OkO.none
    | with_reducible apply OkO.some
    | with_reducible apply Ok.foldl
    | with_reducible apply Ok.foldlP
    | with_reducible apply Ok.ite
    | with_reducible refine OkO.elim ?_ (by with_reducible assumption)
    | with_reducible refine OkOP.elim ?_ (by with_reducible assumption)
    | with_reducible refine Ok.pairElim ?_ (by with_reducible assumption)
    | dsimp only
    | split

theorem State.checkDegraded_ok {ql : List Instr} {s : State} (m : Nat) (h : Ok ql s) : Ok ql (State.checkDegraded s m) := by
  unfold State.checkDegraded
  try dsimp only
  repeat' first
    | with_reducible assumption
    | with_reducible apply State.modOuter_ok
    | with_reducible apply State.onLife_ok
    | with_reducible apply State.logEvent_ok
    | with_reducible apply Ok.ite

theorem State.dropOuterPage_ok {ql : List Instr} {s : State} (m page : Nat) (h : Ok ql s) : Ok ql (State.dropOuterPage s m page) := by
  unfold State.dropOuterPage
  try dsimp only
  repeat' first
    | with_reducible assumption
    | with_reducible apply State.modOuter_ok
    | with_reducible apply State.onFw_ok
    | with_reducible apply State.onLife_ok
    | with_reducible apply State.checkDegraded_ok

theorem State.retireOuterPage_ok {ql : List Instr} {s : State} (m page : Nat) (h : Ok ql s) : Ok ql (State.retireOuterPage s m page) := by
  unfold State.retireOuterPage
  try dsimp only
  repeat' first
    | with_reducible assumption
    | with_reducible apply State.modOuter_ok
    | with_reducible apply State.dropOuterPage_ok
    | with_reducible apply Ok.ite
    | split

theorem State.retireDone_ok {ql : List Instr} {s : State} (h : Ok ql s) : Ok ql (State.retireDone s) := by
  unfold State.retireDone
  try dsimp only
  repeat' first
    | with_reducible assumption
    | with_reducible intro _
    | with_reducible apply State.onCtl_ok
    | with_reducible apply State.respond_ok
    | with_reducible apply Ok.foldl

theorem State.healRange_ok {ql : List Instr} {s : State} (a n : Nat) (h : Ok ql s) : Ok ql (State.healRange s a n) := by
  unfold State.healRange
  try dsimp only
  repeat' first
    | with_reducible assumption
    | with_reducible intro _
    | with_reducible apply State.onMem_ok
    | with_reducible apply State.readCodeword_ok
    | with_reducible apply State.readOuterUnit_ok
    | with_reducible refine State.readCodeword_eq ?_ (by with_reducible assumption)
    | with_reducible refine State.readOuterUnit_eq ?_ (by with_reducible assumption)
    | with_reducible apply OkO.map
    | with_reducible apply OkO.foldlBind
    | with_reducible apply OkO.bind
    | with_reducible apply OkO.none
    | with_reducible apply OkO.some
    | with_reducible apply Ok.foldl
    | with_reducible apply Ok.foldlP
    | with_reducible apply Ok.onMem
    | (simp only [Ok.litM]; refine ⟨?_, ?_⟩)
    | with_reducible apply Mem.write_wf
    | with_reducible apply Mem.setMark_wf
    | with_reducible apply Mem.clearFlips_wf
    | with_reducible apply Mem.foldl_wf
    | (simp only [Mem.lit_wf])
    | with_reducible exact Ok.wf (by with_reducible assumption)
    | with_reducible exact Ok.queue (by with_reducible assumption)
    | (exact (rfl : Mem.wf {} = true))
    | with_reducible apply Ok.ite
    | with_reducible refine OkO.elim ?_ (by with_reducible assumption)
    | with_reducible refine OkOP.elim ?_ (by with_reducible assumption)
    | with_reducible refine Ok.pairElim ?_ (by with_reducible assumption)
    | dsimp only
    | split

theorem execSpareCopyDone_ok {ql : List Instr} (c page : Nat) {s : State} (h : Ok ql s) : OkR ql (execSpareCopyDone c page s) := by
  unfold execSpareCopyDone
  try dsimp only
  repeat' first
    | with_reducible assumption
    | simp only [Ok.lit]
    | with_reducible apply State.modSlice_ok
    | with_reducible apply State.onFw_ok
    | with_reducible apply State.onLife_ok
    | with_reducible apply State.retireDone_ok
    | with_reducible apply State.healRange_ok
    | with_reducible apply OkR.next
    | with_reducible apply OkR.ite
    | with_reducible apply Ok.ite
    | dsimp only
    | split

theorem execPageEmptied_ok {ql : List Instr} (tier unit page : Nat) {s : State} (h : Ok ql s) : OkR ql (execPageEmptied tier unit page s) := by
  unfold execPageEmptied
  try dsimp only
  repeat' first
    | with_reducible assumption
    | with_reducible apply State.dropSlicePage_ok
    | with_reducible apply State.dropOuterPage_ok
    | with_reducible apply State.retireDone_ok
    | with_reducible apply OkR.next
    | with_reducible apply OkR.ite

theorem execRetirementTableWrite_ok {ql : List Instr} {s : State} (h : Ok ql s) : OkR ql (execRetirementTableWrite s) := by
  unfold execRetirementTableWrite
  try dsimp only
  repeat' first
    | with_reducible assumption
    | with_reducible apply State.onFw_ok
    | with_reducible apply OkR.next

/-! ### What Machine/OuterMem keeps -/

theorem execOuterBlockRequest_ok {ql : List Instr} (from_ : Agent) (addr len : Nat) (acc : Access) (waiting : Bool) {s : State} (h : Ok ql s) : OkR ql (execOuterBlockRequest from_ addr len acc waiting s) := by
  unfold execOuterBlockRequest
  try dsimp only
  repeat' first
    | with_reducible assumption
    | simp only [Ok.lit]
    | with_reducible apply State.modCore_ok
    | with_reducible apply State.modOuter_ok
    | with_reducible apply State.countBusy_ok
    | with_reducible apply State.reply_ok
    | with_reducible apply State.accessFault_ok
    | with_reducible apply OkR.next
    | with_reducible apply OkR.ite
    | split

theorem execCreditReturn_ok {ql : List Instr} (m req : Nat) {s : State} (h : Ok ql s) : OkR ql (execCreditReturn m req s) := by
  unfold execCreditReturn
  try dsimp only
  repeat' first
    | with_reducible assumption
    | with_reducible apply State.modOuter_ok
    | with_reducible apply OkR.next
    | with_reducible apply OkR.ite
    | split

theorem State.sendReq_ok {ql : List Instr} {s : State} (m : Nat) (r : OReq) (h : Ok ql s) : Ok ql (State.sendReq s m r) := by
  unfold State.sendReq
  try dsimp only
  repeat' first
    | with_reducible assumption
    | with_reducible apply State.modOuter_ok
    | with_reducible apply State.readRange_ok
    | with_reducible apply State.writeRange_ok
    | split

theorem State.sendWith_ok {ql : List Instr} {s : State} (m : Nat) (r : OReq) (h : Ok ql s) : Ok ql (State.sendWith s m r) := by
  unfold State.sendWith
  try dsimp only
  repeat' first
    | with_reducible assumption
    | simp only [Ok.lit]
    | with_reducible apply State.modOuter_ok
    | with_reducible apply State.sendReq_ok
    | with_reducible apply Ok.ite
    | dsimp only
    | split

theorem execOuterSend_ok {ql : List Instr} (m : Nat) {s : State} (h : Ok ql s) : OkR ql (execOuterSend m s) := by
  unfold execOuterSend
  try dsimp only
  repeat' first
    | with_reducible assumption
    | with_reducible apply State.modOuter_ok
    | with_reducible apply State.sendWith_ok
    | with_reducible apply OkR.next
    | split

theorem execOuterWindowAge_ok {ql : List Instr} (m req : Nat) {s : State} (h : Ok ql s) : OkR ql (execOuterWindowAge m req s) := by
  unfold execOuterWindowAge
  try dsimp only
  repeat' first
    | with_reducible assumption
    | with_reducible apply State.sendWith_ok
    | with_reducible apply OkR.next
    | with_reducible apply OkR.ite
    | split

theorem execHoldAssert_ok {ql : List Instr} (m : Nat) {s : State} (h : Ok ql s) : OkR ql (execHoldAssert m s) := by
  unfold execHoldAssert
  try dsimp only
  repeat' first
    | with_reducible assumption
    | with_reducible apply State.modOuter_ok
    | with_reducible apply OkR.next
    | with_reducible apply OkR.ite

theorem execHoldRelease_ok {ql : List Instr} (m : Nat) {s : State} (h : Ok ql s) : OkR ql (execHoldRelease m s) := by
  unfold execHoldRelease
  try dsimp only
  repeat' first
    | with_reducible assumption
    | with_reducible apply State.modOuter_ok
    | with_reducible apply OkR.next
    | with_reducible apply OkR.ite

theorem State.releaseReq_ok {ql : List Instr} {s : State} (m : Nat) (r : OReq) (h : Ok ql s) : Ok ql (State.releaseReq s m r) := by
  unfold State.releaseReq
  try dsimp only
  repeat' first
    | with_reducible assumption
    | simp only [Ok.lit]
    | with_reducible apply State.modCore_ok
    | with_reducible apply State.modOuter_ok
    | with_reducible apply State.wakeSlots_ok
    | with_reducible apply State.completed_ok
    | with_reducible apply Ok.ite
    | dsimp only
    | split

theorem State.noteFault_ok {ql : List Instr} {s : State} (m : Nat) (h : Ok ql s) : Ok ql (State.noteFault s m) := by
  unfold State.noteFault
  try dsimp only
  repeat' first
    | with_reducible assumption
    | with_reducible apply State.modOuter_ok

theorem State.settleWrite_ok {ql : List Instr} {s : State} (r : OReq) (sent : Bool) (h : Ok ql s) : Ok ql (State.settleWrite s r sent) := by
  unfold State.settleWrite
  try dsimp only
  repeat' first
    | with_reducible assumption
    | with_reducible intro _
    | with_reducible apply State.draw_ok
    | with_reducible apply Ok.foldl
    | with_reducible apply Ok.onMem
    | with_reducible apply Mem.write_wf
    | with_reducible apply Mem.setMark_wf
    | with_reducible apply Mem.bumpInstar_wf
    | with_reducible apply Ok.ite
    | split

theorem State.expireReq_ok {ql : List Instr} {s : State} (m : Nat) (r : OReq) (h : Ok ql s) : Ok ql (State.expireReq s m r) := by
  unfold State.expireReq
  try dsimp only
  repeat' first
    | with_reducible assumption
    | with_reducible apply State.emit_ok
    | with_reducible apply State.engineError_ok
    | with_reducible apply State.releaseReq_ok
    | with_reducible apply State.settleWrite_ok
    | with_reducible apply Ok.ite
    | dsimp only
    | split

theorem execOuterRequestTimeout_ok {ql : List Instr} (m req : Nat) {s : State} (h : Ok ql s) : OkR ql (execOuterRequestTimeout m req s) := by
  unfold execOuterRequestTimeout
  try dsimp only
  repeat' first
    | with_reducible assumption
    | with_reducible apply State.modOuter_ok
    | with_reducible apply State.outerEvent_ok
    | with_reducible apply State.noteFault_ok
    | with_reducible apply State.expireReq_ok
    | with_reducible apply OkR.next
    | split

theorem execOuterParityNak_ok {ql : List Instr} (m req : Nat) {s : State} (h : Ok ql s) : OkR ql (execOuterParityNak m req s) := by
  unfold execOuterParityNak
  try dsimp only
  repeat' first
    | with_reducible assumption
    | with_reducible apply State.modOuter_ok
    | with_reducible apply State.outerEvent_ok
    | with_reducible apply State.noteFault_ok
    | with_reducible apply State.expireReq_ok
    | with_reducible apply OkR.next
    | with_reducible apply OkR.ite
    | split

theorem State.busOutcome_ok {ql : List Instr} {s : State} (m unit : Nat) (o : RdOut) (h : Ok ql s) : Ok ql (State.busOutcome s m unit o) := by
  unfold State.busOutcome
  try dsimp only
  repeat' first
    | with_reducible assumption
    | with_reducible apply State.modOuter_ok
    | with_reducible apply State.outerEvent_ok
    | split

theorem State.deliver_ok {ql : List Instr} {s : State} (m : Nat) (bytes : List Byte) (marks : List Bool) (r : OReq) (h : Ok ql s) : Ok ql (State.deliver s m bytes marks r) := by
  unfold State.deliver
  try dsimp only
  repeat' first
    | with_reducible assumption
    | with_reducible apply State.emit_ok
    | with_reducible apply State.reply_ok
    | with_reducible apply State.releaseReq_ok
    | dsimp only
    | split

theorem execOuterReadData_ok {ql : List Instr} (m req dieCorrected : Nat) (dieUe : List Nat) (busErrors reread : List (Nat × Byte)) {s : State} (h : Ok ql s) : OkR ql (execOuterReadData m req dieCorrected dieUe busErrors reread s) := by
  unfold execOuterReadData
  try dsimp only
  repeat' first
    | with_reducible assumption
    | with_reducible intro _
    | with_reducible apply State.countDie_ok
    | with_reducible apply State.countOuterUe_ok
    | with_reducible apply State.busOutcome_ok
    | with_reducible apply State.deliver_ok
    | with_reducible apply OkR.next
    | with_reducible apply OkO.map
    | with_reducible apply OkO.foldlBind
    | with_reducible apply OkO.bind
    | with_reducible apply OkO.none
    | with_reducible apply OkO.some
    | with_reducible apply Ok.foldl
    | with_reducible apply Ok.foldlP
    | with_reducible apply OkR.ite
    | with_reducible apply Ok.ite
    | with_reducible refine OkO.elim ?_ (by with_reducible assumption)
    | with_reducible refine OkOP.elim ?_ (by with_reducible assumption)
    | with_reducible refine Ok.pairElim ?_ (by with_reducible assumption)
    | dsimp only
    | split

theorem State.poisonSent_ok {ql : List Instr} {s : State} (m id unit : Nat) (h : Ok ql s) : Ok ql (State.poisonSent s m id unit) := by
  unfold State.poisonSent
  try dsimp only
  repeat' first
    | with_reducible assumption
    | with_reducible intro _
    | simp only [Ok.lit]
    | with_reducible apply State.modOuter_ok
    | with_reducible apply State.onMem_ok
    | with_reducible apply Ok.onMem
    | (simp only [Ok.litM]; refine ⟨?_, ?_⟩)
    | with_reducible apply Mem.setMark_wf
    | with_reducible apply Mem.marks_wf
    | (simp only [Mem.lit_wf])
    | with_reducible exact Ok.wf (by with_reducible assumption)
    | with_reducible exact Ok.queue (by with_reducible assumption)
    | (exact (rfl : Mem.wf {} = true))
    | with_reducible apply Ok.ite
    | dsimp only
    | split

theorem execOuterWriteAcknowledge_ok {ql : List Instr} (m req : Nat) (busErrors : List (Nat × Byte)) {s : State} (h : Ok ql s) : OkR ql (execOuterWriteAcknowledge m req busErrors s) := by
  unfold execOuterWriteAcknowledge
  try dsimp only
  repeat' first
    | with_reducible assumption
    | with_reducible intro _
    | with_reducible apply State.reply_ok
    | with_reducible apply State.releaseReq_ok
    | with_reducible apply State.busOutcome_ok
    | with_reducible apply State.poisonSent_ok
    | with_reducible apply OkR.next
    | with_reducible apply OkO.map
    | with_reducible apply OkO.foldlBind
    | with_reducible apply OkO.bind
    | with_reducible apply OkO.none
    | with_reducible apply OkO.some
    | with_reducible apply Ok.foldl
    | with_reducible apply Ok.foldlP
    | with_reducible apply OkR.ite
    | with_reducible apply Ok.ite
    | with_reducible refine OkO.elim ?_ (by with_reducible assumption)
    | with_reducible refine OkOP.elim ?_ (by with_reducible assumption)
    | with_reducible refine Ok.pairElim ?_ (by with_reducible assumption)
    | dsimp only
    | split

theorem execDieWriteBack_ok {ql : List Instr} (m codeword : Nat) {s : State} (h : Ok ql s) : OkR ql (execDieWriteBack m codeword s) := by
  unfold execDieWriteBack
  try extract_lets
  repeat' first
    | with_reducible assumption
    | with_reducible intro _
    | simp only [Ok.lit]
    | with_reducible apply State.modOuter_ok
    | with_reducible apply State.onMem_ok
    | with_reducible apply OkR.next
    | with_reducible apply Ok.onMem
    | (simp only [Ok.litM]; refine ⟨?_, ?_⟩)
    | with_reducible apply Mem.write_wf
    | with_reducible apply Mem.dieFix_wf
    | (simp only [Mem.lit_wf])
    | with_reducible exact Ok.wf (by with_reducible assumption)
    | with_reducible exact Ok.queue (by with_reducible assumption)
    | (exact (rfl : Mem.wf {} = true))
    | with_reducible apply OkR.ite
    | with_reducible apply Ok.ite
    | split
    | dsimp +zetaDelta only

theorem execOuterRefresh_ok {ql : List Instr} (m channel bank : Nat) (burst : Bool) {s : State} (h : Ok ql s) : OkR ql (execOuterRefresh m channel bank burst s) := by
  unfold execOuterRefresh
  try dsimp only
  repeat' first
    | with_reducible assumption
    | with_reducible apply State.modOuter_ok
    | with_reducible apply OkR.next

theorem execPostponedRefresh_ok {ql : List Instr} (m channel bank : Nat) {s : State} (h : Ok ql s) : OkR ql (execPostponedRefresh m channel bank s) := by
  unfold execPostponedRefresh
  try dsimp only
  repeat' first
    | with_reducible assumption
    | with_reducible apply State.modOuter_ok
    | with_reducible apply OkR.next

theorem execOuterScrub_ok {ql : List Instr} (m : Nat) {s : State} (h : Ok ql s) : OkR ql (execOuterScrub m s) := by
  unfold execOuterScrub
  try dsimp only
  repeat' first
    | with_reducible assumption
    | with_reducible intro _
    | simp only [Ok.lit]
    | with_reducible apply State.modOuter_ok
    | with_reducible apply State.readOuterUnit_ok
    | with_reducible apply OkR.next
    | with_reducible refine State.readOuterUnit_eq ?_ (by with_reducible assumption)
    | with_reducible apply OkO.map
    | with_reducible apply OkO.foldlBind
    | with_reducible apply OkO.bind
    | with_reducible apply OkO.none
    | with_reducible apply OkO.some
    | with_reducible apply Ok.foldl
    | with_reducible apply Ok.foldlP
    | with_reducible apply OkR.ite
    | with_reducible apply Ok.ite
    | with_reducible refine OkO.elim ?_ (by with_reducible assumption)
    | with_reducible refine OkOP.elim ?_ (by with_reducible assumption)
    | with_reducible refine Ok.pairElim ?_ (by with_reducible assumption)
    | dsimp only
    | split

theorem execOuterFill_ok {ql : List Instr} {s : State} (h : Ok ql s) : OkR ql (execOuterFill s) := by
  unfold execOuterFill
  try dsimp only
  repeat' first
    | with_reducible assumption
    | with_reducible intro _
    | simp only [Ok.lit]
    | with_reducible apply OkR.next
    | with_reducible apply Ok.onMem
    | with_reducible apply Mem.clear_wf
    | (simp only [Mem.lit_wf])
    | with_reducible apply OkR.ite

theorem execOuterSpareCopyDone_ok {ql : List Instr} (m page : Nat) {s : State} (h : Ok ql s) : OkR ql (execOuterSpareCopyDone m page s) := by
  unfold execOuterSpareCopyDone
  try dsimp only
  repeat' first
    | with_reducible assumption
    | simp only [Ok.lit]
    | with_reducible apply State.modOuter_ok
    | with_reducible apply State.onFw_ok
    | with_reducible apply State.onLife_ok
    | with_reducible apply State.checkDegraded_ok
    | with_reducible apply State.retireDone_ok
    | with_reducible apply State.healRange_ok
    | with_reducible apply OkR.next
    | with_reducible apply OkR.ite
    | with_reducible apply Ok.ite
    | dsimp only
    | split

theorem execOuterBusRetrain_ok {ql : List Instr} (m : Nat) (ok : Bool) {s : State} (h : Ok ql s) : OkR ql (execOuterBusRetrain m ok s) := by
  unfold execOuterBusRetrain
  try dsimp only
  repeat' first
    | with_reducible assumption
    | with_reducible intro _
    | with_reducible apply State.modOuter_ok
    | with_reducible apply State.outerEvent_ok
    | with_reducible apply State.expireReq_ok
    | with_reducible apply State.failPackage_ok
    | with_reducible apply OkR.next
    | with_reducible apply Ok.foldl
    | with_reducible apply OkR.ite
    | with_reducible apply Ok.ite

end Sys2Proof.Machine
end

