-- ==== Sys2Proof/Laws/KeepNet.lean ====
section
/-! SUPPORT. What the operations of links, resets, power, heat, collectives and ports keep: the canonical form of
memory and the queue of waiting commands. -/

namespace Sys2Proof.Machine

/-! ### What Machine/Links keeps -/

theorem State.drainTx_ok {ql : List Instr} (l n : Nat) {s : State} (h : Ok ql s) : Ok ql (State.drainTx l n s) := by
  induction n generalizing s with
  | zero => exact h
  | succ n ih =>
    unfold State.drainTx
    dsimp only
    split
    · exact h
    · split
      · exact h
      · exact ih (State.emit_ok _ (State.modLink_ok _ _ h))

theorem State.drain_ok {ql : List Instr} {s : State} (l : Nat) (h : Ok ql s) : Ok ql (State.drain s l) := by
  unfold State.drain
  try dsimp only
  repeat' first
    | with_reducible assumption
    | with_reducible apply State.drainTx_ok

theorem State.sendOn_ok {ql : List Instr} {s : State} (l : Nat) (p : LPacket) (h : Ok ql s) : Ok ql (State.sendOn s l p) := by
  unfold State.sendOn
  try dsimp only
  repeat' first
    | with_reducible assumption
    | with_reducible apply State.modLink_ok
    | with_reducible apply State.emit_ok
    | with_reducible apply State.drain_ok

theorem State.resend_ok {ql : List Instr} {s : State} (l : Nat) (fs : List Flit) (h : Ok ql s) : Ok ql (State.resend s l fs) := by
  unfold State.resend
  try dsimp only
  repeat' first
    | with_reducible assumption
    | with_reducible intro _
    | with_reducible apply State.modLink_ok
    | with_reducible apply State.emit_ok
    | with_reducible apply Ok.foldl

theorem State.violate_ok {ql : List Instr} {s : State} (l n : Nat) (h : Ok ql s) : Ok ql (State.violate s l n) := by
  unfold State.violate
  try dsimp only
  repeat' first
    | with_reducible assumption
    | with_reducible apply State.modLink_ok

theorem State.malformedFlit_ok {ql : List Instr} {s : State} (l seq n : Nat) (h : Ok ql s) : Ok ql (State.malformedFlit s l seq n) := by
  unfold State.malformedFlit
  try dsimp only
  repeat' first
    | with_reducible assumption
    | with_reducible apply State.modLink_ok
    | with_reducible apply State.emit_ok
    | with_reducible apply State.violate_ok

theorem State.crcError_ok {ql : List Instr} {s : State} (l : Nat) (h : Ok ql s) : Ok ql (State.crcError s l) := by
  unfold State.crcError
  try dsimp only
  repeat' first
    | with_reducible assumption
    | with_reducible apply State.modLink_ok
    | with_reducible apply State.emit_ok

theorem State.returnRx_ok {ql : List Instr} {s : State} (l i n : Nat) (h : Ok ql s) : Ok ql (State.returnRx s l i n) := by
  unfold State.returnRx
  try dsimp only
  repeat' first
    | with_reducible assumption
    | with_reducible apply State.modLink_ok

theorem State.freeRx_ok {ql : List Instr} {s : State} (l i n : Nat) (h : Ok ql s) : Ok ql (State.freeRx s l i n) := by
  unfold State.freeRx
  try dsimp only
  repeat' first
    | with_reducible assumption
    | with_reducible apply State.returnRx_ok
    | with_reducible apply State.modLink_ok

theorem State.delivered_ok {ql : List Instr} {s : State} (l : Nat) (p : LPacket) (h : Ok ql s) : Ok ql (State.delivered s l p) := by
  unfold State.delivered
  try dsimp only
  repeat' first
    | with_reducible assumption
    | with_reducible apply State.modLink_ok
    | with_reducible apply State.freeRx_ok
    | split

theorem State.acceptFlit_ok {ql : List Instr} {s : State} (l : Nat) (f : Flit) (h : Ok ql s) : Ok ql (State.acceptFlit s l f) := by
  unfold State.acceptFlit
  try extract_lets
  repeat' first
    | with_reducible assumption
    | with_reducible apply State.modLink_ok
    | with_reducible apply State.malformedFlit_ok
    | with_reducible apply State.nakSource_ok
    | with_reducible apply State.freeRx_ok
    | with_reducible apply State.returnRx_ok
    | with_reducible apply Ok.ite

theorem State.recvFlit_ok {ql : List Instr} {s : State} (l : Nat) (f : Flit) (h : Ok ql s) : Ok ql (State.recvFlit s l f) := by
  unfold State.recvFlit
  try dsimp only
  repeat' first
    | with_reducible assumption
    | simp only [Ok.lit]
    | with_reducible apply State.modLink_ok
    | with_reducible apply State.violate_ok
    | with_reducible apply State.crcError_ok
    | with_reducible apply State.acceptFlit_ok
    | with_reducible apply Ok.ite
    | dsimp only
    | split

theorem State.crcNak_ok {ql : List Instr} {s : State} (l seq : Nat) (h : Ok ql s) : Ok ql (State.crcNak s l seq) := by
  unfold State.crcNak
  try dsimp only
  repeat' first
    | with_reducible assumption
    | with_reducible apply State.resend_ok

theorem State.protocolNak_ok {ql : List Instr} {s : State} (l seq : Nat) (h : Ok ql s) : Ok ql (State.protocolNak s l seq) := by
  unfold State.protocolNak
  try dsimp only
  repeat' first
    | with_reducible assumption
    | with_reducible apply State.modLink_ok
    | with_reducible apply State.logEvent_ok
    | split

theorem State.recvFcb_ok {ql : List Instr} {s : State} (l : Nat) (f : Fcb) (h : Ok ql s) : Ok ql (State.recvFcb s l f) := by
  unfold State.recvFcb
  try dsimp only
  repeat' first
    | with_reducible assumption
    | with_reducible intro _
    | with_reducible apply State.modLink_ok
    | with_reducible apply State.drain_ok
    | with_reducible apply State.violate_ok
    | with_reducible apply State.crcNak_ok
    | with_reducible apply State.protocolNak_ok
    | with_reducible apply Ok.foldl
    | with_reducible apply Ok.ite

theorem execLinkFrameRx_ok {ql : List Instr} (l : Nat) (codewordErrors : List Nat) (flits : List Flit) (fcb : Fcb) {s : State} (h : Ok ql s) : OkR ql (execLinkFrameRx l codewordErrors flits fcb s) := by
  unfold execLinkFrameRx
  try dsimp only
  repeat' first
    | with_reducible assumption
    | with_reducible intro _
    | with_reducible apply State.modLink_ok
    | with_reducible apply State.crcError_ok
    | with_reducible apply State.recvFlit_ok
    | with_reducible apply State.recvFcb_ok
    | with_reducible apply OkR.next
    | with_reducible apply Ok.foldl
    | with_reducible apply OkR.ite

theorem execFcbRx_ok {ql : List Instr} (l : Nat) (fcb : Fcb) {s : State} (h : Ok ql s) : OkR ql (execFcbRx l fcb s) := by
  unfold execFcbRx
  try dsimp only
  repeat' first
    | with_reducible assumption
    | with_reducible apply State.recvFcb_ok
    | with_reducible apply OkR.next

theorem execFlitRx_ok {ql : List Instr} (l : Nat) (flit : Flit) {s : State} (h : Ok ql s) : OkR ql (execFlitRx l flit s) := by
  unfold execFlitRx
  try dsimp only
  repeat' first
    | with_reducible assumption
    | with_reducible apply State.recvFlit_ok
    | with_reducible apply OkR.next

theorem execCrcNak_ok {ql : List Instr} (l seq : Nat) {s : State} (h : Ok ql s) : OkR ql (execCrcNak l seq s) := by
  unfold execCrcNak
  try dsimp only
  repeat' first
    | with_reducible assumption
    | with_reducible apply State.crcNak_ok
    | with_reducible apply OkR.next

theorem execProtocolNak_ok {ql : List Instr} (l seq : Nat) {s : State} (h : Ok ql s) : OkR ql (execProtocolNak l seq s) := by
  unfold execProtocolNak
  try dsimp only
  repeat' first
    | with_reducible assumption
    | with_reducible apply State.protocolNak_ok
    | with_reducible apply OkR.next

theorem execReplayTimeout_ok {ql : List Instr} (l : Nat) {s : State} (h : Ok ql s) : OkR ql (execReplayTimeout l s) := by
  unfold execReplayTimeout
  try dsimp only
  repeat' first
    | with_reducible assumption
    | with_reducible apply State.resend_ok
    | with_reducible apply OkR.next

theorem State.linkTo_ok {ql : List Instr} {s : State} (l : Nat) (st : LState) (h : Ok ql s) : Ok ql (State.linkTo s l st) := by
  unfold State.linkTo
  try dsimp only
  repeat' first
    | with_reducible assumption
    | with_reducible apply State.modLink_ok
    | with_reducible apply State.alert_ok
    | with_reducible apply Ok.ite

theorem State.leaveUp_ok {ql : List Instr} {s : State} (l : Nat) (h : Ok ql s) : Ok ql (State.leaveUp s l) := by
  unfold State.leaveUp
  try dsimp only
  repeat' first
    | with_reducible assumption
    | with_reducible apply State.modLink_ok
    | with_reducible apply State.linkTo_ok

theorem State.startAttempt_ok {ql : List Instr} {s : State} (l : Nat) (h : Ok ql s) : Ok ql (State.startAttempt s l) := by
  unfold State.startAttempt
  try dsimp only
  repeat' first
    | with_reducible assumption
    | with_reducible apply State.modLink_ok

theorem State.attemptFailed_ok {ql : List Instr} {s : State} (l : Nat) (h : Ok ql s) : Ok ql (State.attemptFailed s l) := by
  unfold State.attemptFailed
  try dsimp only
  repeat' first
    | with_reducible assumption
    | with_reducible apply State.modLink_ok
    | with_reducible apply State.logEvent_ok

theorem execLinkAttemptStart_ok {ql : List Instr} (l : Nat) {s : State} (h : Ok ql s) : OkR ql (execLinkAttemptStart l s) := by
  unfold execLinkAttemptStart
  try dsimp only
  repeat' first
    | with_reducible assumption
    | with_reducible apply State.startAttempt_ok
    | with_reducible apply OkR.next
    | with_reducible apply OkR.ite

theorem execPartnerDetected_ok {ql : List Instr} (l lanes : Nat) {s : State} (h : Ok ql s) : OkR ql (execPartnerDetected l lanes s) := by
  unfold execPartnerDetected
  try dsimp only
  repeat' first
    | with_reducible assumption
    | with_reducible apply State.modLink_ok
    | with_reducible apply OkR.next
    | with_reducible apply OkR.ite

theorem execEqualiseDone_ok {ql : List Instr} (l goodRx goodTx : Nat) {s : State} (h : Ok ql s) : OkR ql (execEqualiseDone l goodRx goodTx s) := by
  unfold execEqualiseDone
  try dsimp only
  repeat' first
    | with_reducible assumption
    | with_reducible apply State.modLink_ok
    | with_reducible apply State.attemptFailed_ok
    | with_reducible apply OkR.next
    | with_reducible apply OkR.ite
    | split

theorem execDeskewDone_ok {ql : List Instr} (l : Nat) (reversed : Bool) (polarity : Byte) {s : State} (h : Ok ql s) : OkR ql (execDeskewDone l reversed polarity s) := by
  unfold execDeskewDone
  try dsimp only
  repeat' first
    | with_reducible assumption
    | with_reducible apply State.modLink_ok
    | with_reducible apply State.emit_ok
    | with_reducible apply OkR.next
    | with_reducible apply OkR.ite

theorem execMgmtId_ok {ql : List Instr} (l : Nat) (system : Word) (device link version : Nat) (torus : Bool) {s : State} (h : Ok ql s) : OkR ql (execMgmtId l system device link version torus s) := by
  unfold execMgmtId
  try dsimp only
  repeat' first
    | with_reducible assumption
    | with_reducible apply State.modLink_ok
    | with_reducible apply State.logEvent_ok
    | with_reducible apply State.linkTo_ok
    | with_reducible apply OkR.next
    | with_reducible apply OkR.ite
    | with_reducible apply Ok.ite

theorem execAttemptTimeout_ok {ql : List Instr} (l : Nat) {s : State} (h : Ok ql s) : OkR ql (execAttemptTimeout l s) := by
  unfold execAttemptTimeout
  try dsimp only
  repeat' first
    | with_reducible assumption
    | with_reducible apply State.attemptFailed_ok
    | with_reducible apply OkR.next
    | with_reducible apply OkR.ite

theorem execAttemptRetryTimer_ok {ql : List Instr} (l : Nat) {s : State} (h : Ok ql s) : OkR ql (execAttemptRetryTimer l s) := by
  unfold execAttemptRetryTimer
  try dsimp only
  repeat' first
    | with_reducible assumption
    | with_reducible apply State.startAttempt_ok
    | with_reducible apply OkR.next
    | with_reducible apply OkR.ite

theorem execMismatchRetry_ok {ql : List Instr} (l : Nat) {s : State} (h : Ok ql s) : OkR ql (execMismatchRetry l s) := by
  unfold execMismatchRetry
  try dsimp only
  repeat' first
    | with_reducible assumption
    | with_reducible apply State.startAttempt_ok
    | with_reducible apply OkR.next
    | with_reducible apply OkR.ite

theorem execLinkLeaveUp_ok {ql : List Instr} (l : Nat) {s : State} (h : Ok ql s) : OkR ql (execLinkLeaveUp l s) := by
  unfold execLinkLeaveUp
  try dsimp only
  repeat' first
    | with_reducible assumption
    | with_reducible apply State.leaveUp_ok
    | with_reducible apply OkR.next
    | with_reducible apply OkR.ite

theorem execLinkRetrain_ok {ql : List Instr} (l : Nat) {s : State} (h : Ok ql s) : OkR ql (execLinkRetrain l s) := by
  unfold execLinkRetrain
  try dsimp only
  repeat' first
    | with_reducible assumption
    | with_reducible apply State.leaveUp_ok
    | with_reducible apply OkR.next
    | with_reducible apply OkR.ite

theorem State.disableLink_ok {ql : List Instr} {s : State} (l : Nat) (h : Ok ql s) : Ok ql (State.disableLink s l) := by
  unfold State.disableLink
  try dsimp only
  repeat' first
    | with_reducible assumption
    | with_reducible apply State.modLink_ok
    | with_reducible apply State.alert_ok
    | split

theorem State.enableLink_ok {ql : List Instr} {s : State} (l : Nat) (h : Ok ql s) : Ok ql (State.enableLink s l) := by
  unfold State.enableLink
  try dsimp only
  repeat' first
    | with_reducible assumption
    | with_reducible apply State.modLink_ok
    | split

theorem execLinkDisable_ok {ql : List Instr} (l : Nat) {s : State} (h : Ok ql s) : OkR ql (execLinkDisable l s) := by
  unfold execLinkDisable
  try dsimp only
  repeat' first
    | with_reducible assumption
    | with_reducible apply State.disableLink_ok
    | with_reducible apply OkR.next

theorem execLinkEnable_ok {ql : List Instr} (l : Nat) {s : State} (h : Ok ql s) : OkR ql (execLinkEnable l s) := by
  unfold execLinkEnable
  try dsimp only
  repeat' first
    | with_reducible assumption
    | with_reducible apply State.enableLink_ok
    | with_reducible apply OkR.next

theorem execLinkDrainEnd_ok {ql : List Instr} (l : Nat) {s : State} (h : Ok ql s) : OkR ql (execLinkDrainEnd l s) := by
  unfold execLinkDrainEnd
  try dsimp only
  repeat' first
    | with_reducible assumption
    | with_reducible apply State.modLink_ok
    | with_reducible apply OkR.next
    | with_reducible apply OkR.ite

theorem execLinkQuarantine_ok {ql : List Instr} (l : Nat) {s : State} (h : Ok ql s) : OkR ql (execLinkQuarantine l s) := by
  unfold execLinkQuarantine
  try dsimp only
  repeat' first
    | with_reducible assumption
    | with_reducible apply State.modLink_ok
    | with_reducible apply State.logEvent_ok
    | with_reducible apply State.linkTo_ok
    | with_reducible apply OkR.next
    | with_reducible apply OkR.ite

theorem execBackoffEnd_ok {ql : List Instr} (l : Nat) {s : State} (h : Ok ql s) : OkR ql (execBackoffEnd l s) := by
  unfold execBackoffEnd
  try dsimp only
  repeat' first
    | with_reducible assumption
    | with_reducible apply State.startAttempt_ok
    | with_reducible apply OkR.next
    | with_reducible apply OkR.ite

theorem execBackoffRelax_ok {ql : List Instr} (l : Nat) {s : State} (h : Ok ql s) : OkR ql (execBackoffRelax l s) := by
  unfold execBackoffRelax
  try dsimp only
  repeat' first
    | with_reducible assumption
    | with_reducible apply State.modLink_ok
    | with_reducible apply OkR.next
    | with_reducible apply OkR.ite

/-! ### What Machine/Remote keeps -/

theorem State.noRoute_ok {ql : List Instr} {s : State} (l : Nat) (p : LPacket) (h : Ok ql s) : Ok ql (State.noRoute s l p) := by
  unfold State.noRoute
  try dsimp only
  repeat' first
    | with_reducible assumption
    | with_reducible apply State.modLink_ok
    | with_reducible apply State.nakSource_ok
    | with_reducible apply Ok.ite

theorem execPacketForward_ok {ql : List Instr} (arrival : Option Nat) (p : LPacket) (dwell : Nat) {s : State} (h : Ok ql s) : OkR ql (execPacketForward arrival p dwell s) := by
  unfold execPacketForward
  try dsimp only
  repeat' first
    | with_reducible assumption
    | simp only [Ok.lit]
    | with_reducible apply State.modLink_ok
    | with_reducible apply State.sendOn_ok
    | with_reducible apply State.delivered_ok
    | with_reducible apply State.noRoute_ok
    | with_reducible apply OkR.next
    | with_reducible apply OkR.ite
    | split

theorem State.sendOut_ok {ql : List Instr} {s : State} (p : LPacket) (h : Ok ql s) : Ok ql (State.sendOut s p) := by
  unfold State.sendOut
  try dsimp only
  repeat' first
    | with_reducible assumption
    | with_reducible apply State.emit_ok

theorem State.remoteServe_ok {ql : List Instr} {s : State} (l : Nat) (p : LPacket) (n : Nat) (write : Bool) (go : State → State) (h : Ok ql s) (hgo : ∀ y0, Ok ql y0 → Ok ql (go y0)) : Ok ql (State.remoteServe s l p n write go) := by
  unfold State.remoteServe
  try dsimp only
  repeat' first
    | with_reducible assumption
    | with_reducible apply hgo
    | with_reducible apply State.countBusy_ok
    | with_reducible apply State.nakSource_ok
    | with_reducible apply State.delivered_ok
    | with_reducible apply Ok.ite
    | split

theorem execRead_ok {ql : List Instr} (l : Nat) (p : LPacket) {s : State} (h : Ok ql s) : OkR ql (execRead l p s) := by
  unfold execRead
  try dsimp only
  repeat' first
    | with_reducible assumption
    | with_reducible intro _
    | with_reducible apply State.readRange_ok
    | with_reducible apply State.sendOut_ok
    | with_reducible apply State.remoteServe_ok
    | with_reducible apply OkR.next

theorem State.remoteSubmit_ok {ql : List Instr} {s : State} (l : Nat) (p : LPacket) (m port : Nat) (h : Ok ql s) : Ok ql (State.remoteSubmit s l p m port) := by
  unfold State.remoteSubmit
  try dsimp only
  repeat' first
    | with_reducible assumption
    | with_reducible apply State.nakSource_ok
    | with_reducible apply State.probSubmit_ok
    | with_reducible apply State.delivered_ok
    | with_reducible refine State.probSubmit_eq ?_ (by with_reducible assumption)
    | with_reducible apply Ok.ite
    | dsimp only
    | split

theorem execWrite_ok {ql : List Instr} (l : Nat) (p : LPacket) {s : State} (h : Ok ql s) : OkR ql (execWrite l p s) := by
  unfold execWrite
  try dsimp only
  repeat' first
    | with_reducible assumption
    | with_reducible intro _
    | with_reducible apply State.writeRange_ok
    | with_reducible apply State.sendOut_ok
    | with_reducible apply State.remoteServe_ok
    | with_reducible apply State.remoteSubmit_ok
    | with_reducible apply OkR.next
    | with_reducible apply OkO.map
    | with_reducible apply OkO.foldlBind
    | with_reducible apply OkO.bind
    | with_reducible apply OkO.none
    | with_reducible apply OkO.some
    | with_reducible apply Ok.foldl
    | with_reducible apply Ok.foldlP
    | with_reducible apply OkR.ite
    | with_reducible apply Ok.ite
    | with_reducible refine OkO.elim ?_ (by with_reducible assumption)
    | with_reducible refine OkOP.elim ?_ (by with_reducible assumption)
    | with_reducible refine Ok.pairElim ?_ (by with_reducible assumption)
    | dsimp only
    | split

theorem execInstarQ_ok {ql : List Instr} (l : Nat) (p : LPacket) {s : State} (h : Ok ql s) : OkR ql (execInstarQ l p s) := by
  unfold execInstarQ
  try dsimp only
  repeat' first
    | with_reducible assumption
    | with_reducible intro _
    | with_reducible apply State.sendOut_ok
    | with_reducible apply State.remoteServe_ok
    | with_reducible apply OkR.next

theorem State.endRemote_ok {ql : List Instr} {s : State} (r : Remote) (h : Ok ql s) : Ok ql (State.endRemote s r) := by
  unfold State.endRemote
  try dsimp only
  repeat' first
    | with_reducible assumption
    | with_reducible apply State.onLys_ok

theorem State.remoteDone_ok {ql : List Instr} {s : State} (c : Nat) (e0 : Engine) (seq : Nat) (h : Ok ql s) : Ok ql (State.remoteDone s c e0 seq) := by
  unfold State.remoteDone
  try dsimp only
  repeat' first
    | with_reducible assumption
    | with_reducible apply State.moved_ok
    | with_reducible apply Ok.ite
    | dsimp only
    | split

theorem State.gotEntry_ok {ql : List Instr} {s : State} (c : Nat) (e0 : Engine) (seq n : Nat) (bs : List Byte) (marked : Bool) (page : Option (Nat × Word)) (h : Ok ql s) : Ok ql (State.gotEntry s c e0 seq n bs marked page) := by
  unfold State.gotEntry
  try dsimp only
  repeat' first
    | with_reducible assumption
    | simp only [Ok.lit]
    | with_reducible apply State.modItem_ok
    | with_reducible apply State.startLong_ok
    | with_reducible apply Ok.ite
    | dsimp only
    | split

theorem execReadData_ok {ql : List Instr} (l : Nat) (p : LPacket) {s : State} (h : Ok ql s) : OkR ql (execReadData l p s) := by
  unfold execReadData
  try dsimp only
  repeat' first
    | with_reducible assumption
    | with_reducible apply State.spStore_ok
    | with_reducible apply State.noteInstar_ok
    | with_reducible apply State.completed_ok
    | with_reducible apply State.delivered_ok
    | with_reducible apply State.endRemote_ok
    | with_reducible apply State.remoteDone_ok
    | with_reducible apply State.gotEntry_ok
    | with_reducible apply OkR.next
    | with_reducible apply OkR.ite
    | with_reducible apply Ok.ite
    | dsimp only
    | split

theorem execWriteAck_ok {ql : List Instr} (l : Nat) (p : LPacket) {s : State} (h : Ok ql s) : OkR ql (execWriteAck l p s) := by
  unfold execWriteAck
  try dsimp only
  repeat' first
    | with_reducible assumption
    | with_reducible apply State.modCore_ok
    | with_reducible apply State.completed_ok
    | with_reducible apply State.delivered_ok
    | with_reducible apply State.endRemote_ok
    | with_reducible apply State.remoteDone_ok
    | with_reducible apply OkR.next
    | with_reducible apply OkR.ite
    | split

theorem execInstarA_ok {ql : List Instr} (l : Nat) (p : LPacket) {s : State} (h : Ok ql s) : OkR ql (execInstarA l p s) := by
  unfold execInstarA
  try dsimp only
  repeat' first
    | with_reducible assumption
    | with_reducible apply State.modCore_ok
    | with_reducible apply State.delivered_ok
    | with_reducible apply State.endRemote_ok
    | with_reducible apply OkR.next
    | with_reducible apply OkR.ite
    | split

theorem State.remoteError_ok {ql : List Instr} {s : State} (r : Remote) (ev : Ev) (status partner : Nat) (h : Ok ql s) : Ok ql (State.remoteError s r ev status partner) := by
  unfold State.remoteError
  try dsimp only
  repeat' first
    | with_reducible assumption
    | with_reducible apply State.taskError_ok
    | split

theorem State.attemptLost_ok {ql : List Instr} {s : State} (r : Remote) (h : Ok ql s) : Ok ql (State.attemptLost s r) := by
  unfold State.attemptLost
  try dsimp only
  repeat' first
    | with_reducible assumption
    | with_reducible apply State.onLys_ok
    | with_reducible apply State.sendOut_ok
    | with_reducible apply State.endRemote_ok
    | with_reducible apply State.remoteError_ok
    | with_reducible apply Ok.ite

theorem execNak_ok {ql : List Instr} (l : Nat) (p : LPacket) {s : State} (h : Ok ql s) : OkR ql (execNak l p s) := by
  unfold execNak
  try dsimp only
  repeat' first
    | with_reducible assumption
    | with_reducible apply State.modCore_ok
    | with_reducible apply State.onLys_ok
    | with_reducible apply State.modItem_ok
    | with_reducible apply State.delivered_ok
    | with_reducible apply State.endRemote_ok
    | with_reducible apply State.remoteError_ok
    | with_reducible apply State.attemptLost_ok
    | with_reducible apply OkR.next
    | with_reducible apply OkR.ite
    | split

theorem execRemoteAttemptTimeout_ok {ql : List Instr} (die tag : Nat) {s : State} (h : Ok ql s) : OkR ql (execRemoteAttemptTimeout die tag s) := by
  unfold execRemoteAttemptTimeout
  try dsimp only
  repeat' first
    | with_reducible assumption
    | with_reducible apply State.attemptLost_ok
    | with_reducible apply OkR.next
    | split

theorem execMgmtRoute_ok {ql : List Instr} (l : Nat) (p : LPacket) {s : State} (h : Ok ql s) : OkR ql (execMgmtRoute l p s) := by
  unfold execMgmtRoute
  try dsimp only
  repeat' first
    | with_reducible assumption
    | with_reducible apply State.delivered_ok
    | with_reducible apply OkR.next

/-! ### What Machine/Reset keeps -/

theorem State.applyEntry_ok {ql : List Instr} {s : State} (r : Retired) (h : Ok ql s) : Ok ql (State.applyEntry s r) := by
  unfold State.applyEntry
  try dsimp only
  repeat' first
    | with_reducible assumption
    | with_reducible apply State.modSlice_ok
    | with_reducible apply State.modOuter_ok
    | with_reducible apply State.modCluster_ok
    | split

theorem State.applyRetired_ok {ql : List Instr} {s : State} (rs : List Retired) (h : Ok ql s) : Ok ql (State.applyRetired s rs) := by
  unfold State.applyRetired
  try dsimp only
  repeat' first
    | with_reducible assumption
    | with_reducible intro _
    | with_reducible apply State.applyEntry_ok
    | with_reducible apply Ok.foldl

theorem State.profiled_ok {ql : List Instr} {s : State} (h : Ok ql s) : Ok ql (State.profiled s) := by
  unfold State.profiled
  try dsimp only
  repeat' first
    | with_reducible assumption
    | simp only [Ok.lit]

theorem State.cold_ok {ql : List Instr} {s : State} (d : DevState) (h : Ok ql s) : Ok ql (State.cold s d) := by
  unfold State.cold
  exact State.profiled_ok (State.applyRetired_ok _ ⟨rfl, h.queue⟩)

theorem State.lost_ok {ql : List Instr} {s : State} (h : Ok ql s) : Ok ql (State.lost s) := by
  unfold State.lost
  try dsimp only
  repeat' first
    | (simp only [Ok.litM]; refine ⟨?_, ?_⟩)
    | with_reducible exact Ok.queue (by with_reducible assumption)
    | (exact (rfl : Mem.wf {} = true))

theorem State.deviceReset_ok {ql : List Instr} {s : State} (h : Ok ql s) : Ok ql (State.deviceReset s) := by
  unfold State.deviceReset
  try dsimp only
  repeat' first
    | with_reducible assumption
    | simp only [Ok.lit]
    | with_reducible apply State.applyRetired_ok
    | with_reducible apply State.profiled_ok
    | with_reducible apply State.lost_ok

theorem State.powerDown_ok {ql : List Instr} {s : State} (h : Ok ql s) : Ok ql (State.powerDown s) := by
  unfold State.powerDown
  try dsimp only
  repeat' first
    | with_reducible assumption
    | simp only [Ok.lit]
    | with_reducible apply State.lost_ok

/-! ### What Machine/Power keeps -/

theorem State.retune_ok {ql : List Instr} {s : State} (h : Ok ql s) : Ok ql (State.retune s) := by
  unfold State.retune
  try dsimp only
  repeat' first
    | with_reducible assumption
    | simp only [Ok.lit]

theorem execDividerRampStep_ok {ql : List Instr} (cd : Nat) {s : State} (h : Ok ql s) : OkR ql (execDividerRampStep cd s) := by
  unfold execDividerRampStep
  try dsimp only
  repeat' first
    | with_reducible assumption
    | with_reducible apply State.modCluster_ok
    | with_reducible apply OkR.next
    | with_reducible apply OkR.ite

theorem State.useSource_ok {ql : List Instr} {s : State} (n : Nat) (h : Ok ql s) : Ok ql (State.useSource s n) := by
  unfold State.useSource
  try dsimp only
  repeat' first
    | with_reducible assumption
    | with_reducible apply State.onPwr_ok
    | with_reducible apply State.retune_ok
    | with_reducible apply Ok.ite

theorem execClockOffer_ok {ql : List Instr} (candidate : Nat) {s : State} (h : Ok ql s) : OkR ql (execClockOffer candidate s) := by
  unfold execClockOffer
  try dsimp only
  repeat' first
    | with_reducible assumption
    | with_reducible apply State.modLink_ok
    | with_reducible apply State.modPort_ok
    | with_reducible apply State.onPwr_ok
    | with_reducible apply OkR.next
    | with_reducible apply OkR.ite
    | with_reducible apply Ok.ite

theorem execClockWithdraw_ok {ql : List Instr} (candidate : Nat) {s : State} (h : Ok ql s) : OkR ql (execClockWithdraw candidate s) := by
  unfold execClockWithdraw
  try dsimp only
  repeat' first
    | with_reducible assumption
    | with_reducible apply State.modLink_ok
    | with_reducible apply State.modPort_ok
    | with_reducible apply State.onPwr_ok
    | with_reducible apply State.useSource_ok
    | with_reducible apply OkR.next
    | with_reducible apply OkR.ite
    | with_reducible apply Ok.ite

theorem execCandidateStable_ok {ql : List Instr} (candidate : Nat) {s : State} (h : Ok ql s) : OkR ql (execCandidateStable candidate s) := by
  unfold execCandidateStable
  try dsimp only
  repeat' first
    | with_reducible assumption
    | with_reducible apply State.useSource_ok
    | with_reducible apply OkR.next
    | with_reducible apply OkR.ite

theorem execPllLock_ok {ql : List Instr} {s : State} (h : Ok ql s) : OkR ql (execPllLock s) := by
  unfold execPllLock
  try dsimp only
  repeat' first
    | with_reducible assumption
    | with_reducible apply State.onPwr_ok
    | with_reducible apply State.retune_ok
    | with_reducible apply OkR.next

theorem State.setSrcCfg_ok {ql : List Instr} {s : State} (v : Nat) (h : Ok ql s) : Ok ql (State.setSrcCfg s v) := by
  unfold State.setSrcCfg
  try dsimp only
  repeat' first
    | with_reducible assumption
    | with_reducible apply State.onPwr_ok
    | with_reducible apply State.useSource_ok
    | with_reducible apply Ok.ite

theorem execEngineGateClose_ok {ql : List Instr} (c : Nat) (e0 : Engine) {s : State} (h : Ok ql s) : OkR ql (execEngineGateClose c e0 s) := by
  unfold execEngineGateClose
  try dsimp only
  repeat' first
    | with_reducible assumption
    | with_reducible apply State.modCore_ok
    | with_reducible apply OkR.next
    | with_reducible apply OkR.ite

theorem execClusterGateIdle_ok {ql : List Instr} (cd : Nat) {s : State} (h : Ok ql s) : OkR ql (execClusterGateIdle cd s) := by
  unfold execClusterGateIdle
  try dsimp only
  repeat' first
    | with_reducible assumption
    | with_reducible apply State.modCluster_ok
    | with_reducible apply OkR.next
    | with_reducible apply OkR.ite

theorem State.newTarget_ok {ql : List Instr} {s : State} (cd : Nat) (h : Ok ql s) : Ok ql (State.newTarget s cd) := by
  unfold State.newTarget
  try dsimp only
  repeat' first
    | with_reducible assumption
    | with_reducible apply State.modCluster_ok
    | with_reducible apply State.draw_ok

theorem State.phaseRule_ok {ql : List Instr} {s : State} (cd : Nat) (h : Ok ql s) : Ok ql (State.phaseRule s cd) := by
  unfold State.phaseRule
  try dsimp only
  repeat' first
    | with_reducible assumption
    | with_reducible apply State.modCluster_ok
    | with_reducible apply State.fenceCluster_ok
    | with_reducible apply State.newTarget_ok
    | with_reducible apply Ok.ite

theorem execPhaseFail_ok {ql : List Instr} (cd phase : Nat) {s : State} (h : Ok ql s) : OkR ql (execPhaseFail cd phase s) := by
  unfold execPhaseFail
  try dsimp only
  repeat' first
    | with_reducible assumption
    | with_reducible apply State.modCluster_ok
    | with_reducible apply State.onFw_ok
    | with_reducible apply State.onPwr_ok
    | with_reducible apply State.onLife_ok
    | with_reducible apply State.logEvent_ok
    | with_reducible apply State.phaseRule_ok
    | with_reducible apply OkR.next
    | with_reducible apply OkR.ite

theorem execPhaseEmergencyEnd_ok {ql : List Instr} {s : State} (h : Ok ql s) : OkR ql (execPhaseEmergencyEnd s) := by
  unfold execPhaseEmergencyEnd
  try dsimp only
  repeat' first
    | with_reducible assumption
    | with_reducible apply State.onPwr_ok
    | with_reducible apply OkR.next

theorem execDroop_ok {ql : List Instr} (cd sensor mv : Nat) {s : State} (h : Ok ql s) : OkR ql (execDroop cd sensor mv s) := by
  unfold execDroop
  try dsimp only
  repeat' first
    | with_reducible assumption
    | with_reducible apply State.modCluster_ok
    | with_reducible apply State.logEvent_ok
    | with_reducible apply State.phaseRule_ok
    | with_reducible apply OkR.next
    | with_reducible apply OkR.ite
    | with_reducible apply Ok.ite

theorem execDomainBudgetGrant_ok {ql : List Instr} (cd neighbourMa vpkgMa : Nat) {s : State} (h : Ok ql s) : OkR ql (execDomainBudgetGrant cd neighbourMa vpkgMa s) := by
  unfold execDomainBudgetGrant
  try dsimp only
  repeat' first
    | with_reducible assumption
    | with_reducible apply State.modCluster_ok
    | with_reducible apply OkR.next
    | with_reducible apply OkR.ite

theorem execRampStep_ok {ql : List Instr} (cd : Nat) {s : State} (h : Ok ql s) : OkR ql (execRampStep cd s) := by
  unfold execRampStep
  try dsimp only
  repeat' first
    | with_reducible assumption
    | with_reducible apply State.modCluster_ok
    | with_reducible apply OkR.next
    | split

theorem State.capUnmet_ok {ql : List Instr} {s : State} (cap : Nat) (h : Ok ql s) : Ok ql (State.capUnmet s cap) := by
  unfold State.capUnmet
  try dsimp only
  repeat' first
    | with_reducible assumption
    | simp only [Ok.lit]
    | with_reducible apply State.onPwr_ok
    | with_reducible apply State.logEvent_ok
    | with_reducible apply Ok.ite

theorem execCapControlPeriod_ok {ql : List Instr} (mean1ms mean10ms : Nat) {s : State} (h : Ok ql s) : OkR ql (execCapControlPeriod mean1ms mean10ms s) := by
  unfold execCapControlPeriod
  try dsimp only
  repeat' first
    | with_reducible assumption
    | with_reducible apply State.onPwr_ok
    | with_reducible apply State.retune_ok
    | with_reducible apply State.capUnmet_ok
    | with_reducible apply OkR.next
    | with_reducible apply OkR.ite

theorem execFastLimit_ok {ql : List Instr} (windowW : Nat) {s : State} (h : Ok ql s) : OkR ql (execFastLimit windowW s) := by
  unfold execFastLimit
  try dsimp only
  repeat' first
    | with_reducible assumption
    | with_reducible apply State.onPwr_ok
    | with_reducible apply State.retune_ok
    | with_reducible apply OkR.next
    | with_reducible apply OkR.ite

theorem execFastLimitRelease_ok {ql : List Instr} (windowW : Nat) {s : State} (h : Ok ql s) : OkR ql (execFastLimitRelease windowW s) := by
  unfold execFastLimitRelease
  try dsimp only
  repeat' first
    | with_reducible assumption
    | with_reducible apply State.onPwr_ok
    | with_reducible apply OkR.next
    | with_reducible apply OkR.ite

theorem execSustainedOver_ok {ql : List Instr} (mean1ms : Nat) {s : State} (h : Ok ql s) : OkR ql (execSustainedOver mean1ms s) := by
  unfold execSustainedOver
  try dsimp only
  repeat' first
    | with_reducible assumption
    | with_reducible apply State.onPwr_ok
    | with_reducible apply State.retune_ok
    | with_reducible apply OkR.next
    | with_reducible apply OkR.ite

/-! ### What Machine/Heat keeps -/

theorem State.takeSample_ok {ql : List Instr} {s : State} (x : Sample) (h : Ok ql s) : Ok ql (State.takeSample s x) := by
  unfold State.takeSample
  try dsimp only
  repeat' first
    | with_reducible assumption
    | with_reducible apply State.onHeat_ok
    | with_reducible apply State.logEvent_ok
    | with_reducible apply Ok.ite
    | split

theorem State.agree_ok {ql : List Instr} {s : State} (a : Nat) (h : Ok ql s) : Ok ql (State.agree s a) := by
  unfold State.agree
  try dsimp only
  repeat' first
    | with_reducible assumption
    | with_reducible apply State.onHeat_ok
    | with_reducible apply State.logEvent_ok
    | with_reducible apply Ok.ite

theorem State.layerUpdate_ok {ql : List Instr} {s : State} (z : Nat) (h : Ok ql s) : Ok ql (State.layerUpdate s z) := by
  unfold State.layerUpdate
  try dsimp only
  repeat' first
    | with_reducible assumption
    | with_reducible apply State.onHeat_ok

theorem State.packageUpdate_ok {ql : List Instr} {s : State} (m : Nat) (h : Ok ql s) : Ok ql (State.packageUpdate s m) := by
  unfold State.packageUpdate
  try dsimp only
  repeat' first
    | with_reducible assumption
    | with_reducible apply State.modOuter_ok

theorem State.cycleUpdate_ok {ql : List Instr} {s : State} (n : Nat) (h : Ok ql s) : Ok ql (State.cycleUpdate s n) := by
  unfold State.cycleUpdate
  try dsimp only
  repeat' first
    | with_reducible assumption
    | with_reducible apply State.onHeat_ok
    | with_reducible apply State.onLife_ok
    | with_reducible apply Ok.ite
    | split

theorem State.inletUpdate_ok {ql : List Instr} {s : State} (h : Ok ql s) : Ok ql (State.inletUpdate s) := by
  unfold State.inletUpdate
  try dsimp only
  repeat' first
    | with_reducible assumption
    | with_reducible apply State.onHeat_ok
    | with_reducible apply State.logEvent_ok
    | with_reducible apply Ok.ite

theorem execThermalZoneSample_ok {ql : List Instr} (zone : Nat) (samples : List Sample) {s : State} (h : Ok ql s) : OkR ql (execThermalZoneSample zone samples s) := by
  unfold execThermalZoneSample
  try dsimp only
  repeat' first
    | with_reducible assumption
    | with_reducible intro _
    | with_reducible apply State.onHeat_ok
    | with_reducible apply State.alert_ok
    | with_reducible apply State.logEvent_ok
    | with_reducible apply State.retune_ok
    | with_reducible apply State.takeSample_ok
    | with_reducible apply State.agree_ok
    | with_reducible apply State.layerUpdate_ok
    | with_reducible apply State.packageUpdate_ok
    | with_reducible apply State.cycleUpdate_ok
    | with_reducible apply State.inletUpdate_ok
    | with_reducible apply OkR.next
    | with_reducible apply Ok.foldl
    | with_reducible apply OkR.ite
    | with_reducible apply Ok.ite

theorem State.bandUpdate_ok {ql : List Instr} {s : State} (h : Ok ql s) : Ok ql (State.bandUpdate s) := by
  unfold State.bandUpdate
  try dsimp only
  repeat' first
    | with_reducible assumption
    | with_reducible apply State.onLife_ok

theorem State.lowFlow_ok {ql : List Instr} {s : State} (h : Ok ql s) : Ok ql (State.lowFlow s) := by
  unfold State.lowFlow
  try dsimp only
  repeat' first
    | with_reducible assumption
    | with_reducible apply State.onHeat_ok
    | with_reducible apply State.logEvent_ok

theorem execFlowCompute_ok {ql : List Instr} (tachHz16 powerW : Nat) {s : State} (h : Ok ql s) : OkR ql (execFlowCompute tachHz16 powerW s) := by
  unfold execFlowCompute
  try extract_lets
  repeat' first
    | with_reducible assumption
    | with_reducible apply State.onPwr_ok
    | with_reducible apply State.onHeat_ok
    | with_reducible apply State.draw_ok
    | with_reducible apply State.logEvent_ok
    | with_reducible apply State.retune_ok
    | with_reducible apply State.bandUpdate_ok
    | with_reducible apply State.lowFlow_ok
    | with_reducible apply OkR.next
    | with_reducible apply OkR.ite
    | with_reducible apply Ok.ite
    | split

theorem execLowFlowLeave_ok {ql : List Instr} {s : State} (h : Ok ql s) : OkR ql (execLowFlowLeave s) := by
  unfold execLowFlowLeave
  try dsimp only
  repeat' first
    | with_reducible assumption
    | with_reducible apply State.onHeat_ok
    | with_reducible apply OkR.next
    | with_reducible apply OkR.ite

theorem execCoolantAbsent_ok {ql : List Instr} {s : State} (h : Ok ql s) : OkR ql (execCoolantAbsent s) := by
  unfold execCoolantAbsent
  try dsimp only
  repeat' first
    | with_reducible assumption
    | with_reducible apply State.onHeat_ok
    | with_reducible apply State.logEvent_ok
    | with_reducible apply OkR.next
    | with_reducible apply OkR.ite

theorem execFastRise_ok {ql : List Instr} (channel : Nat) {s : State} (h : Ok ql s) : OkR ql (execFastRise channel s) := by
  unfold execFastRise
  try dsimp only
  repeat' first
    | with_reducible assumption
    | with_reducible apply State.onHeat_ok
    | with_reducible apply State.logEvent_ok
    | with_reducible apply State.retune_ok
    | with_reducible apply OkR.next
    | with_reducible apply OkR.ite
    | split

theorem execStackRestart_ok {ql : List Instr} (stack : Nat) {s : State} (h : Ok ql s) : OkR ql (execStackRestart stack s) := by
  unfold execStackRestart
  try dsimp only
  repeat' first
    | with_reducible assumption
    | with_reducible apply State.onHeat_ok
    | with_reducible apply State.retune_ok
    | with_reducible apply State.lowFlow_ok
    | with_reducible apply OkR.next
    | with_reducible apply OkR.ite

theorem execFlowProbe_ok {ql : List Instr} (ev : ProbeEvent) {s : State} (h : Ok ql s) : OkR ql (execFlowProbe ev s) := by
  unfold execFlowProbe
  try dsimp only
  repeat' first
    | with_reducible assumption
    | simp only [Ok.lit]
    | with_reducible apply State.onPwr_ok
    | with_reducible apply State.onHeat_ok
    | with_reducible apply State.logEvent_ok
    | with_reducible apply State.retune_ok
    | with_reducible apply OkR.next
    | with_reducible apply OkR.ite
    | split

theorem execThermalTrip_ok {ql : List Instr} (channel : Nat) {s : State} (h : Ok ql s) : OkR ql (execThermalTrip channel s) := by
  unfold execThermalTrip
  try dsimp only
  repeat' first
    | with_reducible assumption
    | simp only [Ok.lit]
    | with_reducible apply State.onPwr_ok
    | with_reducible apply State.onHeat_ok
    | with_reducible apply State.onLife_ok
    | with_reducible apply State.logEvent_ok
    | with_reducible apply State.powerDown_ok
    | with_reducible apply OkR.next
    | with_reducible apply OkR.ite
    | split

theorem execRthMeasure_ok {ql : List Instr} (stack : Nat) (tj0 tc0 : Int) (p0 : Nat) (tj1 tc1 : Int) (p1 : Nat) {s : State} (h : Ok ql s) : OkR ql (execRthMeasure stack tj0 tc0 p0 tj1 tc1 p1 s) := by
  unfold execRthMeasure
  try dsimp only
  repeat' first
    | with_reducible assumption
    | with_reducible apply State.onHeat_ok
    | with_reducible apply State.logEvent_ok
    | with_reducible apply OkR.next
    | with_reducible apply OkR.ite
    | with_reducible apply Ok.ite

/-! ### What Machine/Feeds keeps -/

theorem State.powerUp_ok {ql : List Instr} {s : State} (h : Ok ql s) : Ok ql (State.powerUp s) := by
  unfold State.powerUp
  try dsimp only
  repeat' first
    | with_reducible assumption
    | with_reducible apply State.onFw_ok
    | with_reducible apply State.cold_ok

theorem State.leaveSaving_ok {ql : List Instr} {s : State} (h : Ok ql s) : Ok ql (State.leaveSaving s) := by
  unfold State.leaveSaving
  try dsimp only
  repeat' first
    | with_reducible assumption
    | simp only [Ok.lit]
    | with_reducible apply State.powerUp_ok
    | with_reducible apply Ok.ite

theorem State.conduct_ok {ql : List Instr} {s : State} (c : Nat) (h : Ok ql s) : Ok ql (State.conduct s c) := by
  unfold State.conduct
  try dsimp only
  repeat' first
    | with_reducible assumption
    | simp only [Ok.lit]
    | with_reducible apply State.onPwr_ok
    | with_reducible apply State.onLife_ok
    | with_reducible apply Ok.ite
    | dsimp only
    | split

theorem State.moveLoad_ok {ql : List Instr} {s : State} (f : Nat) (h : Ok ql s) : Ok ql (State.moveLoad s f) := by
  unfold State.moveLoad
  try dsimp only
  repeat' first
    | with_reducible assumption
    | with_reducible apply State.conduct_ok
    | with_reducible apply Ok.ite
    | dsimp only
    | split

theorem State.feedOk_ok {ql : List Instr} {s : State} (f : Nat) (h : Ok ql s) : Ok ql (State.feedOk s f) := by
  unfold State.feedOk
  try dsimp only
  repeat' first
    | with_reducible assumption
    | with_reducible apply State.onPwr_ok

theorem execFeedInRange_ok {ql : List Instr} (f : Nat) {s : State} (h : Ok ql s) : OkR ql (execFeedInRange f s) := by
  unfold execFeedInRange
  try dsimp only
  repeat' first
    | with_reducible assumption
    | with_reducible apply State.powerUp_ok
    | with_reducible apply State.leaveSaving_ok
    | with_reducible apply State.feedOk_ok
    | with_reducible apply OkR.next
    | with_reducible apply OkR.ite
    | with_reducible apply Ok.ite

theorem execFeedReturn_ok {ql : List Instr} (f : Nat) {s : State} (h : Ok ql s) : OkR ql (execFeedReturn f s) := by
  unfold execFeedReturn
  try dsimp only
  repeat' first
    | with_reducible assumption
    | with_reducible apply State.leaveSaving_ok
    | with_reducible apply State.feedOk_ok
    | with_reducible apply OkR.next
    | with_reducible apply OkR.ite

theorem State.feedLost_ok {ql : List Instr} {s : State} (f : Nat) (h : Ok ql s) : Ok ql (State.feedLost s f) := by
  unfold State.feedLost
  try dsimp only
  repeat' first
    | with_reducible assumption
    | with_reducible apply State.onPwr_ok
    | with_reducible apply State.alert_ok
    | with_reducible apply State.logEvent_ok
    | with_reducible apply Ok.ite

theorem execFeedOutOfRange_ok {ql : List Instr} (f : Nat) {s : State} (h : Ok ql s) : OkR ql (execFeedOutOfRange f s) := by
  unfold execFeedOutOfRange
  try dsimp only
  repeat' first
    | with_reducible assumption
    | with_reducible apply State.feedLost_ok
    | with_reducible apply OkR.next
    | with_reducible apply OkR.ite

theorem State.dropFeed_ok {ql : List Instr} {s : State} (f : Nat) (h : Ok ql s) : Ok ql (State.dropFeed s f) := by
  unfold State.dropFeed
  try dsimp only
  repeat' first
    | with_reducible assumption
    | simp only [Ok.lit]
    | with_reducible apply State.onPwr_ok
    | with_reducible apply State.conduct_ok
    | with_reducible apply Ok.ite
    | dsimp only
    | split

theorem execFeedOvervoltage_ok {ql : List Instr} (f : Nat) {s : State} (h : Ok ql s) : OkR ql (execFeedOvervoltage f s) := by
  unfold execFeedOvervoltage
  try dsimp only
  repeat' first
    | with_reducible assumption
    | simp only [Ok.lit]
    | with_reducible apply State.onPwr_ok
    | with_reducible apply State.moveLoad_ok
    | with_reducible apply State.feedLost_ok
    | with_reducible apply State.dropFeed_ok
    | with_reducible apply OkR.next
    | with_reducible apply OkR.ite
    | with_reducible apply Ok.ite
    | dsimp only
    | split

theorem execFeedReconnect_ok {ql : List Instr} (f : Nat) {s : State} (h : Ok ql s) : OkR ql (execFeedReconnect f s) := by
  unfold execFeedReconnect
  try dsimp only
  repeat' first
    | with_reducible assumption
    | with_reducible apply State.onPwr_ok
    | with_reducible apply OkR.next
    | with_reducible apply OkR.ite

theorem execFeedMateOpen_ok {ql : List Instr} (f : Nat) {s : State} (h : Ok ql s) : OkR ql (execFeedMateOpen f s) := by
  unfold execFeedMateOpen
  try dsimp only
  repeat' first
    | with_reducible assumption
    | with_reducible apply State.onPwr_ok
    | with_reducible apply State.moveLoad_ok
    | with_reducible apply State.feedLost_ok
    | with_reducible apply OkR.next
    | with_reducible apply OkR.ite

theorem execFeedSwitchover_ok {ql : List Instr} {s : State} (h : Ok ql s) : OkR ql (execFeedSwitchover s) := by
  unfold execFeedSwitchover
  try dsimp only
  repeat' first
    | with_reducible assumption
    | with_reducible apply State.moveLoad_ok
    | with_reducible apply OkR.next
    | with_reducible apply OkR.ite

theorem execHousekeepingSupplyUp_ok {ql : List Instr} {s : State} (h : Ok ql s) : OkR ql (execHousekeepingSupplyUp s) := by
  unfold execHousekeepingSupplyUp
  try dsimp only
  repeat' first
    | with_reducible assumption
    | with_reducible apply State.onPwr_ok
    | with_reducible apply OkR.next

theorem execFirstStageStop_ok {ql : List Instr} {s : State} (h : Ok ql s) : OkR ql (execFirstStageStop s) := by
  unfold execFirstStageStop
  try dsimp only
  repeat' first
    | with_reducible assumption
    | with_reducible apply State.onPwr_ok
    | with_reducible apply OkR.next

theorem execFirstStageStart_ok {ql : List Instr} {s : State} (h : Ok ql s) : OkR ql (execFirstStageStart s) := by
  unfold execFirstStageStart
  try dsimp only
  repeat' first
    | with_reducible assumption
    | with_reducible apply State.onPwr_ok
    | with_reducible apply OkR.next
    | with_reducible apply OkR.ite

theorem execOrNodeLow_ok {ql : List Instr} {s : State} (h : Ok ql s) : OkR ql (execOrNodeLow s) := by
  unfold execOrNodeLow
  try dsimp only
  repeat' first
    | with_reducible assumption
    | with_reducible apply State.onPwr_ok
    | with_reducible apply State.cold_ok
    | with_reducible apply OkR.next
    | with_reducible apply OkR.ite

theorem execPowerMeasure_ok {ql : List Instr} (aMv bMv powerMw vpkgA : Nat) {s : State} (h : Ok ql s) : OkR ql (execPowerMeasure aMv bMv powerMw vpkgA s) := by
  unfold execPowerMeasure
  try dsimp only
  repeat' first
    | with_reducible assumption
    | simp only [Ok.lit]
    | with_reducible apply State.onPwr_ok
    | with_reducible apply State.onLife_ok
    | with_reducible apply State.conduct_ok
    | with_reducible apply OkR.next
    | with_reducible apply OkR.ite
    | with_reducible apply Ok.ite
    | dsimp only
    | split

theorem execRstNAssert_ok {ql : List Instr} {s : State} (h : Ok ql s) : OkR ql (execRstNAssert s) := by
  unfold execRstNAssert
  try dsimp only
  repeat' first
    | with_reducible assumption
    | with_reducible apply State.onPwr_ok
    | with_reducible apply State.deviceReset_ok
    | with_reducible apply OkR.next
    | with_reducible apply OkR.ite

theorem execRstNRelease_ok {ql : List Instr} {s : State} (h : Ok ql s) : OkR ql (execRstNRelease s) := by
  unfold execRstNRelease
  try dsimp only
  repeat' first
    | with_reducible assumption
    | with_reducible apply State.onFw_ok
    | with_reducible apply State.onPwr_ok
    | with_reducible apply OkR.next

theorem execSag_ok {ql : List Instr} (orMv : Nat) {s : State} (h : Ok ql s) : OkR ql (execSag orMv s) := by
  unfold execSag
  try dsimp only
  repeat' first
    | with_reducible assumption
    | simp only [Ok.lit]
    | with_reducible apply State.powerDown_ok
    | with_reducible apply OkR.next
    | with_reducible apply OkR.ite

theorem execSagRecordDone_ok {ql : List Instr} (orMv : Nat) {s : State} (h : Ok ql s) : OkR ql (execSagRecordDone orMv s) := by
  unfold execSagRecordDone
  try dsimp only
  repeat' first
    | with_reducible assumption
    | with_reducible apply State.onFw_ok
    | with_reducible apply State.onPwr_ok
    | with_reducible apply State.leaveSaving_ok
    | with_reducible apply OkR.next
    | split

/-! ### What Machine/Collectives keeps -/

theorem State.readAll_ok {ql : List Instr} {s : State} (l : List (Nat × Nat)) (h : Ok ql s) : Ok ql (State.readAll s l).1 := by
  induction l generalizing s with
  | nil => exact h
  | cons u t ih => exact ih (State.readRange_ok _ _ h)

theorem State.writeAll_ok {ql : List Instr} {s : State} (l : List (Nat × Nat)) (bs : List Byte) (ps : List Bool) (h : Ok ql s) :
    Ok ql (State.writeAll s l bs ps) := by
  induction l generalizing s bs ps with
  | nil => exact h
  | cons u t ih => exact ih _ _ (State.writeRange_ok _ _ _ h)

theorem State.modColl_ok {ql : List Instr} {s : State} (task : Nat) (f : Coll → Coll) (h : Ok ql s) : Ok ql (State.modColl s task f) := by
  unfold State.modColl
  try dsimp only
  repeat' first
    | with_reducible assumption
    | with_reducible apply State.onWork_ok

theorem State.chunkFor_ok {ql : List Instr} {s : State} (c : Coll) (rank : Nat) (h : Ok ql s) : Ok ql (State.chunkFor s c rank).1 := by
  unfold State.chunkFor
  try dsimp only
  repeat' first
    | with_reducible assumption
    | with_reducible apply State.readAll_ok
theorem State.chunkFor_eq {ql : List Instr} {s : State} {c : Coll} {rank : Nat} {x : _} {t : State} (h : Ok ql s) (e : State.chunkFor s c rank = (t, x)) : Ok ql t := by
  have h9 := State.chunkFor_ok c rank h
  rw [e] at h9; exact h9

theorem State.sendChunk_ok {ql : List Instr} {s : State} (c : Coll) (rank step : Nat) (alt : Bool) (h : Ok ql s) : Ok ql (State.sendChunk s c rank step alt) := by
  unfold State.sendChunk
  try dsimp only
  repeat' first
    | with_reducible assumption
    | with_reducible apply State.sendOut_ok
    | with_reducible apply State.chunkFor_ok
    | split

theorem State.failColl_ok {ql : List Instr} {s : State} (task status : Nat) (h : Ok ql s) : Ok ql (State.failColl s task status) := by
  unfold State.failColl
  try dsimp only
  repeat' first
    | with_reducible assumption
    | with_reducible apply State.finishTask_ok
    | with_reducible apply State.settle_ok
    | with_reducible apply State.modColl_ok

theorem State.sendAbort_ok {ql : List Instr} {s : State} (c : Coll) (rank status : Nat) (h : Ok ql s) : Ok ql (State.sendAbort s c rank status) := by
  unfold State.sendAbort
  try dsimp only
  repeat' first
    | with_reducible assumption
    | with_reducible apply State.sendOut_ok
    | with_reducible apply Ok.ite

theorem State.tryColl_ok {ql : List Instr} {s : State} (task : Nat) (h : Ok ql s) : Ok ql (State.tryColl s task) := by
  unfold State.tryColl
  try dsimp only
  repeat' first
    | with_reducible assumption
    | with_reducible apply State.modTask_ok
    | with_reducible apply State.onWork_ok
    | with_reducible apply State.logEvent_ok
    | with_reducible apply State.finishTask_ok
    | with_reducible apply State.settle_ok
    | with_reducible apply State.logPoisoned_ok
    | with_reducible apply State.writeAll_ok
    | with_reducible apply State.modColl_ok
    | with_reducible apply State.chunkFor_ok
    | with_reducible apply State.failColl_ok
    | with_reducible apply Ok.ite
    | split

theorem State.fireColl_ok {ql : List Instr} {s : State} (t0 : Task) (c : Coll) (h : Ok ql s) : Ok ql (State.fireColl s t0 c) := by
  unfold State.fireColl
  try dsimp only
  repeat' first
    | with_reducible assumption
    | with_reducible intro _
    | simp only [Ok.lit]
    | with_reducible apply State.modTask_ok
    | with_reducible apply State.onWork_ok
    | with_reducible apply State.writeJournal_ok
    | with_reducible apply State.modColl_ok
    | with_reducible apply State.sendChunk_ok
    | with_reducible apply State.tryColl_ok
    | with_reducible apply OkOP.foldlBind
    | with_reducible apply OkOP.bind
    | with_reducible apply OkOP.map
    | with_reducible apply OkOP.mapS
    | with_reducible apply OkO.mapS
    | with_reducible apply OkO.mapP
    | with_reducible apply OkO.getD
    | with_reducible apply OkOP.some
    | with_reducible apply OkO.map
    | with_reducible apply OkOP.mapO
    | with_reducible apply OkO.foldlBind
    | with_reducible apply OkO.bind
    | with_reducible apply OkO.none
    | with_reducible apply OkO.some
    | with_reducible apply Ok.foldl
    | with_reducible apply Ok.foldlP
    | with_reducible apply Ok.ite
    | with_reducible refine OkO.elim ?_ (by with_reducible assumption)
    | with_reducible refine OkOP.elim ?_ (by with_reducible assumption)
    | with_reducible refine Ok.pairElim ?_ (by with_reducible assumption)
    | dsimp only
    | split

theorem execTaskFire_ok {ql : List Instr} (task : Nat) {s : State} (h : Ok ql s) : OkR ql (execTaskFire task s) := by
  unfold execTaskFire
  try dsimp only
  repeat' first
    | with_reducible assumption
    | with_reducible apply State.fireWaves_ok
    | with_reducible apply State.tryColl_ok
    | with_reducible apply State.fireColl_ok
    | with_reducible apply OkR.next
    | with_reducible apply OkR.ite
    | with_reducible apply Ok.ite
    | split

theorem State.admitColl_ok {ql : List Instr} {s : State} (d : CollDesc) (h : Ok ql s) : Ok ql (State.admitColl s d).1 := by
  unfold State.admitColl
  try dsimp only
  repeat' first
    | with_reducible assumption
    | with_reducible intro _
    | simp only [Ok.lit]
    | with_reducible apply State.onWork_ok
    | with_reducible apply State.writeJournal_ok
    | with_reducible apply State.settle_ok
    | with_reducible apply State.placeTensor_ok
    | with_reducible refine State.placeTensor_eq ?_ (by with_reducible assumption)
    | with_reducible apply OkOP.foldlBind
    | with_reducible apply OkOP.bind
    | with_reducible apply OkOP.map
    | with_reducible apply OkOP.mapS
    | with_reducible apply OkO.mapS
    | with_reducible apply OkO.mapP
    | with_reducible apply OkO.getD
    | with_reducible apply OkOP.some
    | with_reducible apply OkO.map
    | with_reducible apply OkOP.mapO
    | with_reducible apply OkO.foldlBind
    | with_reducible apply OkO.bind
    | with_reducible apply OkO.none
    | with_reducible apply OkO.some
    | with_reducible apply Ok.foldl
    | with_reducible apply Ok.foldlP
    | with_reducible apply Ok.ite
    | with_reducible refine OkO.elim ?_ (by with_reducible assumption)
    | with_reducible refine OkOP.elim ?_ (by with_reducible assumption)
    | with_reducible refine Ok.pairElim ?_ (by with_reducible assumption)
    | dsimp only
    | split
theorem State.admitColl_eq {ql : List Instr} {s : State} {d : CollDesc} {x : _} {t : State} (h : Ok ql s) (e : State.admitColl s d = (t, x)) : Ok ql t := by
  have h9 := State.admitColl_ok d h
  rw [e] at h9; exact h9

theorem State.collAck_ok {ql : List Instr} {s : State} (p : LPacket) (own status : Nat) (h : Ok ql s) : Ok ql (State.collAck s p own status) := by
  unfold State.collAck
  try dsimp only
  repeat' first
    | with_reducible assumption
    | with_reducible apply State.sendOut_ok

theorem execCollData_ok {ql : List Instr} (l : Nat) (p : LPacket) {s : State} (h : Ok ql s) : OkR ql (execCollData l p s) := by
  unfold execCollData
  try dsimp only
  repeat' first
    | with_reducible assumption
    | with_reducible apply State.delivered_ok
    | with_reducible apply State.modColl_ok
    | with_reducible apply State.failColl_ok
    | with_reducible apply State.sendAbort_ok
    | with_reducible apply State.tryColl_ok
    | with_reducible apply State.collAck_ok
    | with_reducible apply OkR.next
    | with_reducible apply OkR.ite
    | split

theorem execCollAck_ok {ql : List Instr} (l : Nat) (p : LPacket) {s : State} (h : Ok ql s) : OkR ql (execCollAck l p s) := by
  unfold execCollAck
  try dsimp only
  repeat' first
    | with_reducible assumption
    | with_reducible apply State.delivered_ok
    | with_reducible apply State.modColl_ok
    | with_reducible apply State.tryColl_ok
    | with_reducible apply OkR.next
    | with_reducible apply OkR.ite
    | split

theorem execCollAbort_ok {ql : List Instr} (l : Nat) (p : LPacket) {s : State} (h : Ok ql s) : OkR ql (execCollAbort l p s) := by
  unfold execCollAbort
  try dsimp only
  repeat' first
    | with_reducible assumption
    | with_reducible apply State.delivered_ok
    | with_reducible apply State.failColl_ok
    | with_reducible apply State.sendAbort_ok
    | with_reducible apply OkR.next
    | with_reducible apply OkR.ite
    | split

theorem execCollChunkTimeout_ok {ql : List Instr} (task step rank : Nat) {s : State} (h : Ok ql s) : OkR ql (execCollChunkTimeout task step rank s) := by
  unfold execCollChunkTimeout
  try dsimp only
  repeat' first
    | with_reducible assumption
    | with_reducible apply State.sendChunk_ok
    | with_reducible apply OkR.next
    | with_reducible apply OkR.ite
    | split

theorem execEarlyChunkResend_ok {ql : List Instr} (task step rank : Nat) {s : State} (h : Ok ql s) : OkR ql (execEarlyChunkResend task step rank s) := by
  unfold execEarlyChunkResend
  try dsimp only
  repeat' first
    | with_reducible assumption
    | with_reducible apply State.modColl_ok
    | with_reducible apply State.sendChunk_ok
    | with_reducible apply OkR.next
    | with_reducible apply OkR.ite
    | split

theorem execCollTimeLimit_ok {ql : List Instr} (task : Nat) {s : State} (h : Ok ql s) : OkR ql (execCollTimeLimit task s) := by
  unfold execCollTimeLimit
  try dsimp only
  repeat' first
    | with_reducible assumption
    | with_reducible intro _
    | with_reducible apply State.logEvent_ok
    | with_reducible apply State.failColl_ok
    | with_reducible apply State.sendAbort_ok
    | with_reducible apply OkR.next
    | with_reducible apply Ok.foldl
    | with_reducible apply OkR.ite
    | split

/-! ### What Machine/Ethernet keeps -/

theorem State.dropHolder_ok {ql : List Instr} {s : State} (h : Ok ql s) : Ok ql (State.dropHolder s) := by
  unfold State.dropHolder
  try dsimp only
  repeat' first
    | with_reducible assumption
    | with_reducible apply State.onCtl_ok
    | with_reducible apply State.onIdent_ok

theorem State.windowDown_ok {ql : List Instr} {s : State} (w state : Nat) (h : Ok ql s) : Ok ql (State.windowDown s w state) := by
  unfold State.windowDown
  try dsimp only
  repeat' first
    | with_reducible assumption
    | with_reducible intro _
    | with_reducible apply State.onCtl_ok
    | with_reducible apply State.respond_ok
    | with_reducible apply Ok.foldl
    | with_reducible apply Ok.onMem
    | with_reducible apply Mem.write_wf
    | split

theorem State.qpError_ok {ql : List Instr} {s : State} (q : Nat) (h : Ok ql s) : Ok ql (State.qpError s q) := by
  unfold State.qpError
  try dsimp only
  repeat' first
    | with_reducible assumption
    | with_reducible apply State.modPort_ok
    | with_reducible apply State.modQp_ok
    | with_reducible apply State.logEvent_ok
    | with_reducible apply State.dropHolder_ok
    | with_reducible apply State.windowDown_ok
    | with_reducible apply Ok.ite
    | split

theorem State.enablePort_ok {ql : List Instr} {s : State} (p : Nat) (h : Ok ql s) : Ok ql (State.enablePort s p) := by
  unfold State.enablePort
  try dsimp only
  repeat' first
    | with_reducible assumption
    | with_reducible apply State.modPort_ok
    | split

theorem State.disablePort_ok {ql : List Instr} {s : State} (p : Nat) (h : Ok ql s) : Ok ql (State.disablePort s p) := by
  unfold State.disablePort
  try dsimp only
  repeat' first
    | with_reducible assumption
    | with_reducible apply State.modPort_ok
    | with_reducible apply State.alert_ok
    | split

theorem execPortEnable_ok {ql : List Instr} (p : Nat) {s : State} (h : Ok ql s) : OkR ql (execPortEnable p s) := by
  unfold execPortEnable
  try dsimp only
  repeat' first
    | with_reducible assumption
    | with_reducible apply State.enablePort_ok
    | with_reducible apply OkR.next

theorem execPortDisable_ok {ql : List Instr} (p : Nat) {s : State} (h : Ok ql s) : OkR ql (execPortDisable p s) := by
  unfold execPortDisable
  try dsimp only
  repeat' first
    | with_reducible assumption
    | with_reducible apply State.disablePort_ok
    | with_reducible apply OkR.next

theorem execPortDrainEnd_ok {ql : List Instr} (p : Nat) {s : State} (h : Ok ql s) : OkR ql (execPortDrainEnd p s) := by
  unfold execPortDrainEnd
  try dsimp only
  repeat' first
    | with_reducible assumption
    | with_reducible apply State.modPort_ok
    | with_reducible apply OkR.next
    | with_reducible apply OkR.ite

theorem State.writeMode_ok {ql : List Instr} {s : State} (p v : Nat) (h : Ok ql s) : Ok ql (State.writeMode s p v) := by
  unfold State.writeMode
  try dsimp only
  repeat' first
    | with_reducible assumption
    | with_reducible apply State.modPort_ok
    | with_reducible apply State.logEvent_ok
    | with_reducible apply Ok.ite

theorem execModeSelWrite_ok {ql : List Instr} (p v : Nat) {s : State} (h : Ok ql s) : OkR ql (execModeSelWrite p v s) := by
  unfold execModeSelWrite
  try dsimp only
  repeat' first
    | with_reducible assumption
    | with_reducible apply State.writeMode_ok
    | with_reducible apply OkR.next

theorem State.xoff_ok {ql : List Instr} {s : State} (p prio : Nat) (h : Ok ql s) : Ok ql (State.xoff s p prio) := by
  unfold State.xoff
  try dsimp only
  repeat' first
    | with_reducible assumption
    | with_reducible apply State.modPort_ok
    | with_reducible apply State.emit_ok
    | with_reducible apply Ok.ite

theorem State.writePfcMask_ok {ql : List Instr} {s : State} (p : Nat) (v : Byte) (h : Ok ql s) : Ok ql (State.writePfcMask s p v) := by
  unfold State.writePfcMask
  try dsimp only
  repeat' first
    | with_reducible assumption
    | with_reducible intro _
    | with_reducible apply State.modPort_ok
    | with_reducible apply State.emit_ok
    | with_reducible apply State.logEvent_ok
    | with_reducible apply Ok.foldl
    | with_reducible apply Ok.ite

theorem execPfcMaskWrite_ok {ql : List Instr} (p : Nat) (v : Byte) {s : State} (h : Ok ql s) : OkR ql (execPfcMaskWrite p v s) := by
  unfold execPfcMaskWrite
  try dsimp only
  repeat' first
    | with_reducible assumption
    | with_reducible apply State.writePfcMask_ok
    | with_reducible apply OkR.next

theorem execPfcRepeat_ok {ql : List Instr} (p prio : Nat) {s : State} (h : Ok ql s) : OkR ql (execPfcRepeat p prio s) := by
  unfold execPfcRepeat
  try dsimp only
  repeat' first
    | with_reducible assumption
    | with_reducible apply State.emit_ok
    | with_reducible apply OkR.next
    | with_reducible apply OkR.ite

theorem execPfcXon_ok {ql : List Instr} (p prio occupancy : Nat) {s : State} (h : Ok ql s) : OkR ql (execPfcXon p prio occupancy s) := by
  unfold execPfcXon
  try dsimp only
  repeat' first
    | with_reducible assumption
    | with_reducible apply State.modPort_ok
    | with_reducible apply State.emit_ok
    | with_reducible apply OkR.next
    | with_reducible apply OkR.ite

theorem State.pfcRx_ok {ql : List Instr} {s : State} (p prio quanta : Nat) (h : Ok ql s) : Ok ql (State.pfcRx s p prio quanta) := by
  unfold State.pfcRx
  try dsimp only
  repeat' first
    | with_reducible assumption
    | with_reducible apply State.modPort_ok
    | with_reducible apply Ok.ite

theorem execPfcFrameRx_ok {ql : List Instr} (p prio quanta : Nat) {s : State} (h : Ok ql s) : OkR ql (execPfcFrameRx p prio quanta s) := by
  unfold execPfcFrameRx
  try dsimp only
  repeat' first
    | with_reducible assumption
    | with_reducible apply State.pfcRx_ok
    | with_reducible apply OkR.next

theorem execPauseTimeExpiry_ok {ql : List Instr} (p prio : Nat) {s : State} (h : Ok ql s) : OkR ql (execPauseTimeExpiry p prio s) := by
  unfold execPauseTimeExpiry
  try dsimp only
  repeat' first
    | with_reducible assumption
    | with_reducible apply State.modPort_ok
    | with_reducible apply OkR.next

theorem execEthPfcStorm_ok {ql : List Instr} (p prio : Nat) {s : State} (h : Ok ql s) : OkR ql (execEthPfcStorm p prio s) := by
  unfold execEthPfcStorm
  try dsimp only
  repeat' first
    | with_reducible assumption
    | with_reducible apply State.modPort_ok
    | with_reducible apply State.logEvent_ok
    | with_reducible apply OkR.next
    | with_reducible apply OkR.ite

theorem execStormIgnoreEnd_ok {ql : List Instr} (p prio : Nat) {s : State} (h : Ok ql s) : OkR ql (execStormIgnoreEnd p prio s) := by
  unfold execStormIgnoreEnd
  try dsimp only
  repeat' first
    | with_reducible assumption
    | with_reducible apply State.modPort_ok
    | with_reducible apply OkR.next

theorem State.sendFrame_ok {ql : List Instr} {s : State} (p what : Nat) (h : Ok ql s) : Ok ql (State.sendFrame s p what) := by
  unfold State.sendFrame
  try dsimp only
  repeat' first
    | with_reducible assumption
    | with_reducible apply State.emit_ok
    | dsimp only
    | split

theorem State.probe_ok {ql : List Instr} {s : State} (p : Nat) (v6 : Bool) (h : Ok ql s) : Ok ql (State.probe s p v6) := by
  unfold State.probe
  try dsimp only
  repeat' first
    | with_reducible assumption
    | simp only [Ok.lit]
    | with_reducible apply State.modPort_ok
    | with_reducible apply State.sendFrame_ok
    | with_reducible apply Ok.ite
    | dsimp only
    | split

theorem State.withdraw_ok {ql : List Instr} {s : State} (p : Nat) (v6 : Bool) (h : Ok ql s) : Ok ql (State.withdraw s p v6) := by
  unfold State.withdraw
  try dsimp only
  repeat' first
    | with_reducible assumption
    | with_reducible intro _
    | with_reducible apply State.modPort_ok
    | with_reducible apply State.qpError_ok
    | with_reducible apply Ok.foldl

theorem State.duplicate_ok {ql : List Instr} {s : State} (p : Nat) (v6 : Bool) (h : Ok ql s) : Ok ql (State.duplicate s p v6) := by
  unfold State.duplicate
  try dsimp only
  repeat' first
    | with_reducible assumption
    | with_reducible apply State.modPort_ok
    | with_reducible apply State.logEvent_ok
    | with_reducible apply State.withdraw_ok
    | split

theorem execAddressProbe_ok {ql : List Instr} (p : Nat) (v6 duplicate : Bool) {s : State} (h : Ok ql s) : OkR ql (execAddressProbe p v6 duplicate s) := by
  unfold execAddressProbe
  try dsimp only
  repeat' first
    | with_reducible assumption
    | simp only [Ok.lit]
    | with_reducible apply State.modPort_ok
    | with_reducible apply State.sendFrame_ok
    | with_reducible apply State.duplicate_ok
    | with_reducible apply OkR.next
    | with_reducible apply OkR.ite
    | with_reducible apply Ok.ite
    | dsimp only
    | split

theorem State.startAddr_ok {ql : List Instr} {s : State} (p : Nat) (v6 : Bool) (h : Ok ql s) : Ok ql (State.startAddr s p v6) := by
  unfold State.startAddr
  try dsimp only
  repeat' first
    | with_reducible assumption
    | simp only [Ok.lit]
    | with_reducible apply State.modPort_ok
    | with_reducible apply State.sendFrame_ok
    | with_reducible apply State.probe_ok
    | with_reducible apply Ok.ite
    | dsimp only
    | split

theorem execPortUp_ok {ql : List Instr} (p : Nat) {s : State} (h : Ok ql s) : OkR ql (execPortUp p s) := by
  unfold execPortUp
  try dsimp only
  repeat' first
    | with_reducible assumption
    | simp only [Ok.lit]
    | with_reducible apply State.modPort_ok
    | with_reducible apply State.sendFrame_ok
    | with_reducible apply State.startAddr_ok
    | with_reducible apply OkR.next
    | with_reducible apply OkR.ite
    | with_reducible apply Ok.ite
    | dsimp only
    | split

theorem execPortFault_ok {ql : List Instr} (p : Nat) (loc remote : Bool) {s : State} (h : Ok ql s) : OkR ql (execPortFault p loc remote s) := by
  unfold execPortFault
  try dsimp only
  repeat' first
    | with_reducible assumption
    | with_reducible apply State.modPort_ok
    | with_reducible apply State.alert_ok
    | with_reducible apply OkR.next
    | with_reducible apply Ok.ite

theorem execDhcpRenew_ok {ql : List Instr} (p : Nat) (v6 : Bool) {s : State} (h : Ok ql s) : OkR ql (execDhcpRenew p v6 s) := by
  unfold execDhcpRenew
  try dsimp only
  repeat' first
    | with_reducible assumption
    | simp only [Ok.lit]
    | with_reducible apply State.modPort_ok
    | with_reducible apply State.sendFrame_ok
    | with_reducible apply OkR.next
    | with_reducible apply OkR.ite
    | with_reducible apply Ok.ite
    | dsimp only
    | split

theorem execDhcpRebind_ok {ql : List Instr} (p : Nat) (v6 : Bool) {s : State} (h : Ok ql s) : OkR ql (execDhcpRebind p v6 s) := by
  unfold execDhcpRebind
  try dsimp only
  repeat' first
    | with_reducible assumption
    | simp only [Ok.lit]
    | with_reducible apply State.modPort_ok
    | with_reducible apply State.sendFrame_ok
    | with_reducible apply OkR.next
    | with_reducible apply OkR.ite
    | with_reducible apply Ok.ite
    | dsimp only
    | split

theorem execDhcpReply_ok {ql : List Instr} (p : Nat) (v6 : Bool) (addr : BitVec 128) (prefixLen : Nat) (router : Word) {s : State} (h : Ok ql s) : OkR ql (execDhcpReply p v6 addr prefixLen router s) := by
  unfold execDhcpReply
  try dsimp only
  repeat' first
    | with_reducible assumption
    | with_reducible apply State.modPort_ok
    | with_reducible apply State.probe_ok
    | with_reducible apply State.withdraw_ok
    | with_reducible apply OkR.next
    | with_reducible apply OkR.ite
    | with_reducible apply Ok.ite

theorem execLeaseExpiry_ok {ql : List Instr} (p : Nat) (v6 : Bool) {s : State} (h : Ok ql s) : OkR ql (execLeaseExpiry p v6 s) := by
  unfold execLeaseExpiry
  try dsimp only
  repeat' first
    | with_reducible assumption
    | simp only [Ok.lit]
    | with_reducible apply State.modPort_ok
    | with_reducible apply State.sendFrame_ok
    | with_reducible apply State.withdraw_ok
    | with_reducible apply OkR.next
    | with_reducible apply OkR.ite
    | with_reducible apply Ok.ite
    | dsimp only
    | split

theorem execArp_ok {ql : List Instr} (p : Nat) (target sender : Word) (senderMac : BitVec 48) {s : State} (h : Ok ql s) : OkR ql (execArp p target sender senderMac s) := by
  unfold execArp
  try dsimp only
  repeat' first
    | with_reducible assumption
    | with_reducible apply State.sendFrame_ok
    | with_reducible apply State.duplicate_ok
    | with_reducible apply OkR.next
    | with_reducible apply OkR.ite
    | with_reducible apply Ok.ite
    | dsimp only
    | split

theorem execArpReply_ok {ql : List Instr} (p : Nat) (ip : Word) (mac : BitVec 48) {s : State} (h : Ok ql s) : OkR ql (execArpReply p ip mac s) := by
  unfold execArpReply
  try dsimp only
  repeat' first
    | with_reducible assumption
    | with_reducible apply State.modPort_ok
    | with_reducible apply State.duplicate_ok
    | with_reducible apply OkR.next
    | with_reducible apply OkR.ite

theorem execNeighbourSolicitation_ok {ql : List Instr} (p : Nat) (target : BitVec 128) {s : State} (h : Ok ql s) : OkR ql (execNeighbourSolicitation p target s) := by
  unfold execNeighbourSolicitation
  try dsimp only
  repeat' first
    | with_reducible assumption
    | with_reducible apply State.sendFrame_ok
    | with_reducible apply OkR.next
    | with_reducible apply OkR.ite
    | with_reducible apply Ok.ite
    | dsimp only
    | split

theorem execNeighbourAdvertisement_ok {ql : List Instr} (p : Nat) (ip : BitVec 128) {s : State} (h : Ok ql s) : OkR ql (execNeighbourAdvertisement p ip s) := by
  unfold execNeighbourAdvertisement
  try dsimp only
  repeat' first
    | with_reducible assumption
    | with_reducible apply State.modPort_ok
    | with_reducible apply State.duplicate_ok
    | with_reducible apply OkR.next
    | with_reducible apply OkR.ite

theorem execRouterAdvertisement_ok {ql : List Instr} (p : Nat) (router : BitVec 128) {s : State} (h : Ok ql s) : OkR ql (execRouterAdvertisement p router s) := by
  unfold execRouterAdvertisement
  try dsimp only
  repeat' first
    | with_reducible assumption
    | with_reducible apply State.modPort_ok
    | with_reducible apply OkR.next
    | with_reducible apply OkR.ite

theorem execEcho_ok {ql : List Instr} (p : Nat) (v6 : Bool) (payload : Nat) {s : State} (h : Ok ql s) : OkR ql (execEcho p v6 payload s) := by
  unfold execEcho
  try dsimp only
  repeat' first
    | with_reducible assumption
    | simp only [Ok.lit]
    | with_reducible apply State.modPort_ok
    | with_reducible apply State.sendFrame_ok
    | with_reducible apply OkR.next
    | with_reducible apply OkR.ite
    | with_reducible apply Ok.ite
    | dsimp only
    | split

theorem State.fecSeen_ok {ql : List Instr} {s : State} (p : Nat) (f : EthFrame) (h : Ok ql s) : Ok ql (State.fecSeen s p f) := by
  unfold State.fecSeen
  try dsimp only
  repeat' first
    | with_reducible assumption
    | simp only [Ok.lit]
    | with_reducible apply State.modPort_ok
    | dsimp only
    | split

theorem execEthFrameRx_ok {ql : List Instr} (p : Nat) (f : EthFrame) {s : State} (h : Ok ql s) : OkR ql (execEthFrameRx p f s) := by
  unfold execEthFrameRx State.fecSeen
  try extract_lets
  repeat' first
    | with_reducible assumption
    | simp only [Ok.lit]
    | with_reducible apply State.modPort_ok
    | with_reducible apply State.xoff_ok
    | with_reducible apply OkR.next
    | with_reducible apply OkR.ite
    | with_reducible apply Ok.ite
    | split

theorem execFrameTx_ok {ql : List Instr} (p prio size : Nat) {s : State} (h : Ok ql s) : OkR ql (execFrameTx p prio size s) := by
  unfold execFrameTx
  try dsimp only
  repeat' first
    | with_reducible assumption
    | with_reducible apply State.modPort_ok
    | with_reducible apply State.emit_ok
    | with_reducible apply State.alert_ok
    | with_reducible apply State.logEvent_ok
    | with_reducible apply OkR.next
    | with_reducible apply OkR.ite
    | with_reducible apply Ok.ite
    | split

end Sys2Proof.Machine
end

