-- ==== Sys2Proof/Laws/KeepHost.lean ====
section
/-! SUPPORT. What the operations of boot, recovery, registers, the control space, RDMA and identity keep: the canonical form of
memory and the queue of waiting commands. -/

namespace Sys2Proof.Machine

/-! ### What Machine/Boot keeps -/

theorem State.modSlot_ok {ql : List Instr} {s : State} (a : Bool) (g : Slot → Slot) (h : Ok ql s) : Ok ql (State.modSlot s a g) := by
  unfold State.modSlot
  try dsimp only
  repeat' first
    | with_reducible assumption
    | with_reducible apply State.onFw_ok

theorem State.raiseBoot_ok {ql : List Instr} {s : State} (code : Nat) (h : Ok ql s) : Ok ql (State.raiseBoot s code) := by
  unfold State.raiseBoot
  try dsimp only
  repeat' first
    | with_reducible assumption
    | with_reducible apply State.onFw_ok
    | with_reducible apply State.onLife_ok
    | with_reducible apply State.logRec_ok
    | with_reducible apply Ok.ite

theorem State.raiseFenced_ok {ql : List Instr} {s : State} (before : Nat) (h : Ok ql s) : Ok ql (State.raiseFenced s before) := by
  unfold State.raiseFenced
  try dsimp only
  repeat' first
    | with_reducible assumption
    | with_reducible apply State.raiseBoot_ok
    | with_reducible apply Ok.ite

theorem execPoweringDone_ok {ql : List Instr} (holdupUf : Nat) {s : State} (h : Ok ql s) : OkR ql (execPoweringDone holdupUf s) := by
  unfold execPoweringDone
  try dsimp only
  repeat' first
    | with_reducible assumption
    | simp only [Ok.lit]
    | with_reducible apply State.alert_ok
    | with_reducible apply State.logEvent_ok
    | with_reducible apply OkR.next
    | with_reducible apply OkR.ite
    | with_reducible apply Ok.ite

theorem State.notBooted_ok {ql : List Instr} {s : State} (h : Ok ql s) : Ok ql (State.notBooted s) := by
  unfold State.notBooted
  repeat' first
    | with_reducible assumption
    | with_reducible apply State.onFw_ok

theorem State.takeImage_ok {ql : List Instr} {s : State} (im : Image) (h : Ok ql s) : Ok ql (State.takeImage s im) := by
  unfold State.takeImage
  try dsimp only
  repeat' first
    | with_reducible assumption
    | with_reducible apply State.onFw_ok

theorem State.takeRecovery_ok {ql : List Instr} {s : State} (i : RomInput) (code : Nat) (h : Ok ql s) : Ok ql (State.takeRecovery s i code) := by
  unfold State.takeRecovery
  try dsimp only
  repeat' first
    | with_reducible assumption
    | with_reducible apply State.raiseBoot_ok
    | with_reducible apply State.notBooted_ok
    | with_reducible apply State.takeImage_ok
    | with_reducible apply Ok.ite
    | split

theorem State.chooseImage_ok {ql : List Instr} {s : State} (i : RomInput) (l : List Bool) (fell : Bool) (h : Ok ql s) :
    Ok ql (State.chooseImage s i l fell) := by
  induction l generalizing s fell with
  | nil => exact State.takeRecovery_ok _ _ h
  | cons u t ih =>
    unfold State.chooseImage
    repeat' first
      | with_reducible assumption
      | with_reducible apply ih
      | with_reducible apply State.takeImage_ok
      | with_reducible apply State.notBooted_ok
      | with_reducible apply State.raiseBoot_ok
      | with_reducible apply State.modSlot_ok
      | split

theorem State.readProfile_ok {ql : List Instr} {s : State} (i : RomInput) (h : Ok ql s) : Ok ql (State.readProfile s i) := by
  unfold State.readProfile
  try dsimp only
  repeat' first
    | with_reducible assumption
    | with_reducible apply State.onFw_ok
    | with_reducible apply State.profiled_ok
    | with_reducible apply State.raiseBoot_ok
    | with_reducible apply Ok.ite

theorem execRomEntry_ok {ql : List Instr} (i : RomInput) {s : State} (h : Ok ql s) : OkR ql (execRomEntry i s) := by
  unfold execRomEntry
  try dsimp only
  repeat' first
    | with_reducible assumption
    | with_reducible apply State.onFw_ok
    | with_reducible apply State.onPwr_ok
    | with_reducible apply State.logEvent_ok
    | with_reducible apply State.raiseBoot_ok
    | with_reducible apply State.takeRecovery_ok
    | with_reducible apply State.chooseImage_ok
    | with_reducible apply State.readProfile_ok
    | with_reducible apply OkR.next
    | with_reducible apply OkR.ite
    | with_reducible apply Ok.ite

theorem State.finishCocoon_ok {ql : List Instr} {s : State} (h : Ok ql s) : Ok ql (State.finishCocoon s) := by
  unfold State.finishCocoon
  try dsimp only
  repeat' first
    | with_reducible assumption
    | simp only [Ok.lit]
    | with_reducible apply State.alert_ok
    | with_reducible apply Ok.ite

theorem State.startTraining_ok {ql : List Instr} {s : State} (h : Ok ql s) : Ok ql (State.startTraining s) := by
  unfold State.startTraining
  try extract_lets
  repeat' first
    | with_reducible assumption
    | with_reducible intro _
    | with_reducible apply State.modCluster_ok
    | with_reducible apply State.startAttempt_ok
    | with_reducible apply State.phaseRule_ok
    | with_reducible apply State.newTarget_ok
    | with_reducible apply Ok.foldl
    | with_reducible apply Ok.ite

theorem execBundleHash_ok {ql : List Instr} (componentsOk : Bool) {s : State} (h : Ok ql s) : OkR ql (execBundleHash componentsOk s) := by
  unfold execBundleHash
  try dsimp only
  repeat' first
    | with_reducible assumption
    | simp only [Ok.lit]
    | with_reducible apply State.onFw_ok
    | with_reducible apply State.modSlot_ok
    | with_reducible apply State.finishCocoon_ok
    | with_reducible apply State.startTraining_ok
    | with_reducible apply OkR.next
    | with_reducible apply OkR.ite
    | split

theorem execGuestAbsent_ok {ql : List Instr} {s : State} (h : Ok ql s) : OkR ql (execGuestAbsent s) := by
  unfold execGuestAbsent
  try dsimp only
  repeat' first
    | with_reducible assumption
    | with_reducible apply State.onPwr_ok
    | with_reducible apply State.logEvent_ok
    | with_reducible apply OkR.next
    | with_reducible apply OkR.ite

theorem execTrainingDone_ok {ql : List Instr} (failedPackages failedCores : List Nat) {s : State} (h : Ok ql s) : OkR ql (execTrainingDone failedPackages failedCores s) := by
  unfold execTrainingDone
  try dsimp only
  repeat' first
    | with_reducible assumption
    | with_reducible intro _
    | simp only [Ok.lit]
    | with_reducible apply State.failPackage_ok
    | with_reducible apply State.fenceCluster_ok
    | with_reducible apply State.retune_ok
    | with_reducible apply State.raiseBoot_ok
    | with_reducible apply State.raiseFenced_ok
    | with_reducible apply OkR.next
    | with_reducible apply Ok.foldl
    | with_reducible apply OkR.ite
    | with_reducible apply Ok.ite

theorem execFillDone_ok {ql : List Instr} {s : State} (h : Ok ql s) : OkR ql (execFillDone s) := by
  unfold execFillDone
  try dsimp only
  repeat' first
    | with_reducible assumption
    | simp only [Ok.lit]
    | with_reducible apply State.retune_ok
    | with_reducible apply OkR.next
    | with_reducible apply OkR.ite

theorem execCoreSelftest_ok {ql : List Instr} (failedClusters : List Nat) (repairedRows : Nat) {s : State} (h : Ok ql s) : OkR ql (execCoreSelftest failedClusters repairedRows s) := by
  unfold execCoreSelftest
  try dsimp only
  repeat' first
    | with_reducible assumption
    | with_reducible intro _
    | with_reducible apply State.onFw_ok
    | with_reducible apply State.onLife_ok
    | with_reducible apply State.fenceCluster_ok
    | with_reducible apply State.newTarget_ok
    | with_reducible apply State.raiseBoot_ok
    | with_reducible apply State.raiseFenced_ok
    | with_reducible apply OkR.next
    | with_reducible apply Ok.foldl
    | with_reducible apply OkR.ite
    | with_reducible apply Ok.ite

theorem execBroadcastStart_ok {ql : List Instr} (chunks : Nat) {s : State} (h : Ok ql s) : OkR ql (execBroadcastStart chunks s) := by
  unfold execBroadcastStart
  try dsimp only
  repeat' first
    | with_reducible assumption
    | with_reducible intro _
    | with_reducible apply State.modCluster_ok
    | with_reducible apply State.onFw_ok
    | with_reducible apply OkR.next
    | with_reducible apply Ok.foldl
    | with_reducible apply OkR.ite

theorem execChunkWrite_ok {ql : List Instr} (die chunk : Nat) (missed : List Nat) {s : State} (h : Ok ql s) : OkR ql (execChunkWrite die chunk missed s) := by
  unfold execChunkWrite
  try dsimp only
  repeat' first
    | with_reducible assumption
    | with_reducible intro _
    | with_reducible apply State.modCluster_ok
    | with_reducible apply State.onFw_ok
    | with_reducible apply OkR.next
    | with_reducible apply Ok.foldl
    | with_reducible apply OkR.ite

theorem State.roundFailed_ok {ql : List Instr} {s : State} (cd : Nat) (h : Ok ql s) : Ok ql (State.roundFailed s cd) := by
  unfold State.roundFailed
  try dsimp only
  repeat' first
    | with_reducible assumption
    | with_reducible apply State.modCluster_ok
    | with_reducible apply State.onFw_ok
    | with_reducible apply State.fenceCluster_ok
    | with_reducible apply State.raiseBoot_ok
    | with_reducible apply Ok.ite

theorem execRepairRequest_ok {ql : List Instr} (cd : Nat) (digestOk : Bool) {s : State} (h : Ok ql s) : OkR ql (execRepairRequest cd digestOk s) := by
  unfold execRepairRequest
  try dsimp only
  repeat' first
    | with_reducible assumption
    | with_reducible apply State.modCluster_ok
    | with_reducible apply State.roundFailed_ok
    | with_reducible apply OkR.next
    | with_reducible apply OkR.ite

theorem execRepairRoundTimeout_ok {ql : List Instr} (cd : Nat) {s : State} (h : Ok ql s) : OkR ql (execRepairRoundTimeout cd s) := by
  unfold execRepairRoundTimeout
  try dsimp only
  repeat' first
    | with_reducible assumption
    | with_reducible apply State.roundFailed_ok
    | with_reducible apply OkR.next
    | with_reducible apply OkR.ite

theorem State.release_ok {ql : List Instr} {s : State} (cds : List Nat) (h : Ok ql s) : Ok ql (State.release s cds) := by
  unfold State.release
  try dsimp only
  repeat' first
    | with_reducible assumption
    | with_reducible intro _
    | simp only [Ok.lit]
    | with_reducible apply State.modCluster_ok
    | with_reducible apply Ok.foldl

theorem State.finishSwitch_ok {ql : List Instr} {s : State} (h : Ok ql s) : Ok ql (State.finishSwitch s) := by
  unfold State.finishSwitch
  repeat' first
    | with_reducible assumption
    | with_reducible apply State.onLife_ok
    | with_reducible apply State.alert_ok
    | with_reducible apply State.logEvent_ok
    | with_reducible apply State.onFw_ok
    | with_reducible apply Ok.ite

theorem execEclosion_ok {ql : List Instr} {s : State} (h : Ok ql s) : OkR ql (execEclosion s) := by
  unfold execEclosion
  try dsimp only
  repeat' first
    | with_reducible assumption
    | simp only [Ok.lit]
    | with_reducible apply State.finishSwitch_ok
    | with_reducible apply State.onFw_ok
    | with_reducible apply State.respond_ok
    | with_reducible apply State.raiseBoot_ok
    | with_reducible apply State.release_ok
    | with_reducible apply OkR.next
    | with_reducible apply OkR.ite
    | with_reducible apply Ok.ite
    | split

theorem execLastGaspCopy_ok {ql : List Instr} (slot : Nat) {s : State} (h : Ok ql s) : OkR ql (execLastGaspCopy slot s) := by
  unfold execLastGaspCopy
  try dsimp only
  repeat' first
    | with_reducible assumption
    | with_reducible apply State.onFw_ok
    | with_reducible apply State.onLife_ok
    | with_reducible apply State.logEvent_ok
    | with_reducible apply OkR.next
    | with_reducible apply OkR.ite
    | with_reducible apply Ok.ite
    | split

/-! ### What Machine/Recovery keeps -/

theorem State.beginReset_ok {ql : List Instr} {s : State} (cds : List Nat) (all : Bool) (cmd : Option CmdHdr) (h : Ok ql s) : Ok ql (State.beginReset s cds all cmd) := by
  unfold State.beginReset
  try dsimp only
  repeat' first
    | with_reducible assumption
    | with_reducible intro _
    | simp only [Ok.lit]
    | with_reducible apply State.modCluster_ok
    | with_reducible apply State.onFw_ok
    | with_reducible apply Ok.foldl
    | with_reducible apply Ok.ite

theorem State.stopForReset_ok {ql : List Instr} {s : State} (cd : Nat) (h : Ok ql s) : Ok ql (State.stopForReset s cd) := by
  unfold State.stopForReset
  try dsimp only
  repeat' first
    | with_reducible assumption
    | with_reducible apply State.modTask_ok
    | with_reducible apply State.stopCluster_ok
    | with_reducible apply State.discardEpoch_ok
    | with_reducible apply Ok.ite
    | split

theorem State.enterReset_ok {ql : List Instr} {s : State} (cd : Nat) (h : Ok ql s) : Ok ql (State.enterReset s cd) := by
  unfold State.enterReset
  try dsimp only
  repeat' first
    | with_reducible assumption
    | simp only [Ok.lit]
    | with_reducible apply State.modCluster_ok
    | with_reducible apply State.abortPackets_ok
    | with_reducible apply State.loseChannels_ok

theorem State.loseTable_ok {ql : List Instr} {s : State} (n : Nat) (h : Ok ql s) : Ok ql (State.loseTable s n) := by
  unfold State.loseTable
  try dsimp only
  repeat' first
    | with_reducible assumption
    | with_reducible intro _
    | with_reducible apply State.breakInstance_ok
    | with_reducible apply Ok.foldl

theorem State.loseReadiness_ok {ql : List Instr} {s : State} (n : Nat) (h : Ok ql s) : Ok ql (State.loseReadiness s n) := by
  unfold State.loseReadiness
  try dsimp only
  repeat' first
    | with_reducible assumption
    | with_reducible intro _
    | with_reducible apply State.endIfDone_ok
    | with_reducible apply State.stopTask_ok
    | with_reducible apply State.modTask_ok
    | with_reducible apply State.finishTask_ok
    | with_reducible apply State.discardEpoch_ok
    | with_reducible apply State.loseTable_ok
    | with_reducible apply Ok.foldl
    | with_reducible apply Ok.ite

theorem State.loseDie_ok {ql : List Instr} {s : State} (d : Nat) (h : Ok ql s) : Ok ql (State.loseDie s d) := by
  unfold State.loseDie
  try dsimp only
  repeat' first
    | with_reducible assumption
    | with_reducible intro _
    | simp only [Ok.lit]
    | with_reducible apply State.disableLink_ok
    | with_reducible apply State.failPackage_ok
    | with_reducible apply State.fenceCluster_ok
    | with_reducible apply State.loseReadiness_ok
    | with_reducible apply OkOP.foldlBind
    | with_reducible apply OkOP.bind
    | with_reducible apply OkOP.map
    | with_reducible apply OkOP.mapS
    | with_reducible apply OkO.mapS
    | with_reducible apply OkO.mapP
    | with_reducible apply OkO.getD
    | with_reducible apply OkOP.some
    | with_reducible apply OkO.map
    | with_reducible apply OkOP.mapO
    | with_reducible apply OkO.foldlBind
    | with_reducible apply OkO.bind
    | with_reducible apply OkO.none
    | with_reducible apply OkO.some
    | with_reducible apply Ok.foldl
    | with_reducible apply Ok.foldlP
    | with_reducible apply Ok.ite
    | with_reducible refine OkO.elim ?_ (by with_reducible assumption)
    | with_reducible refine OkOP.elim ?_ (by with_reducible assumption)
    | with_reducible refine Ok.pairElim ?_ (by with_reducible assumption)
    | dsimp only
    | split

theorem State.retrainSilk_ok {ql : List Instr} {s : State} (h : Ok ql s) : Ok ql (State.retrainSilk s) := by
  unfold State.retrainSilk
  try dsimp only
  repeat' first
    | with_reducible assumption
    | with_reducible intro _
    | simp only [Ok.lit]
    | with_reducible apply State.loseDie_ok
    | with_reducible apply Ok.foldl

theorem execWavesStopped_ok {ql : List Instr} {s : State} (h : Ok ql s) : OkR ql (execWavesStopped s) := by
  unfold execWavesStopped
  try dsimp only
  repeat' first
    | with_reducible assumption
    | with_reducible intro _
    | simp only [Ok.lit]
    | with_reducible apply State.onFw_ok
    | with_reducible apply State.discardEpoch_ok
    | with_reducible apply State.stopForReset_ok
    | with_reducible apply State.enterReset_ok
    | with_reducible apply State.loseReadiness_ok
    | with_reducible apply State.retrainSilk_ok
    | with_reducible apply OkR.next
    | with_reducible apply OkO.map
    | with_reducible apply OkO.foldlBind
    | with_reducible apply OkO.bind
    | with_reducible apply OkO.none
    | with_reducible apply OkO.some
    | with_reducible apply Ok.foldl
    | with_reducible apply Ok.foldlP
    | with_reducible apply OkR.ite
    | with_reducible apply Ok.ite
    | with_reducible refine OkO.elim ?_ (by with_reducible assumption)
    | with_reducible refine OkOP.elim ?_ (by with_reducible assumption)
    | with_reducible refine Ok.pairElim ?_ (by with_reducible assumption)
    | dsimp only
    | split

theorem execResetSelftestDone_ok {ql : List Instr} (failedClusters : List Nat) {s : State} (h : Ok ql s) : OkR ql (execResetSelftestDone failedClusters s) := by
  unfold execResetSelftestDone
  try dsimp only
  repeat' first
    | with_reducible assumption
    | with_reducible intro _
    | with_reducible apply State.onFw_ok
    | with_reducible apply State.fenceCluster_ok
    | with_reducible apply OkR.next
    | with_reducible apply Ok.foldl
    | with_reducible apply OkR.ite

theorem execDeviceErrorReset_ok {ql : List Instr} (event : Nat) {s : State} (h : Ok ql s) : OkR ql (execDeviceErrorReset event s) := by
  unfold execDeviceErrorReset
  try dsimp only
  repeat' first
    | with_reducible assumption
    | with_reducible apply State.onFw_ok
    | with_reducible apply State.logEvent_ok
    | with_reducible apply State.deviceReset_ok
    | with_reducible apply State.beginReset_ok
    | with_reducible apply OkR.next
    | with_reducible apply OkR.ite
    | with_reducible apply Ok.ite

theorem State.startActivation_ok {ql : List Instr} {s : State} (h : Ok ql s) : Ok ql (State.startActivation s) := by
  unfold State.startActivation
  try dsimp only
  repeat' first
    | with_reducible assumption
    | with_reducible apply State.onWork_ok
    | with_reducible apply State.onFw_ok
    | with_reducible apply State.modSlot_ok
    | with_reducible apply Ok.ite

theorem execLiveSwitchStep_ok {ql : List Instr} (p : Proc) {s : State} (h : Ok ql s) : OkR ql (execLiveSwitchStep p s) := by
  unfold execLiveSwitchStep
  try dsimp only
  repeat' first
    | with_reducible assumption
    | simp only [Ok.lit]
    | with_reducible apply State.onFw_ok
    | with_reducible apply State.onLife_ok
    | with_reducible apply State.alert_ok
    | with_reducible apply State.logEvent_ok
    | with_reducible apply OkR.next
    | with_reducible apply OkR.ite
    | split

theorem State.activateFailed_ok {ql : List Instr} {s : State} (h : Ok ql s) : Ok ql (State.activateFailed s) := by
  unfold State.activateFailed
  try dsimp only
  repeat' first
    | with_reducible assumption
    | with_reducible apply State.onFw_ok
    | with_reducible apply State.alert_ok
    | with_reducible apply State.logEvent_ok

theorem execEmergencyClear_ok {ql : List Instr} {s : State} (h : Ok ql s) : OkR ql (execEmergencyClear s) := by
  unfold execEmergencyClear
  try dsimp only
  repeat' first
    | with_reducible assumption
    | with_reducible apply State.onFw_ok
    | with_reducible apply State.startActivation_ok
    | with_reducible apply State.activateFailed_ok
    | with_reducible apply OkR.next
    | with_reducible apply OkR.ite
    | split

theorem execRollback_ok {ql : List Instr} {s : State} (h : Ok ql s) : OkR ql (execRollback s) := by
  unfold execRollback
  try dsimp only
  repeat' first
    | with_reducible assumption
    | with_reducible apply State.onFw_ok
    | with_reducible apply State.modSlot_ok
    | with_reducible apply State.activateFailed_ok
    | with_reducible apply OkR.next
    | with_reducible apply OkR.ite

theorem execSvnAdvance_ok {ql : List Instr} {s : State} (h : Ok ql s) : OkR ql (execSvnAdvance s) := by
  unfold execSvnAdvance
  try dsimp only
  repeat' first
    | with_reducible assumption
    | with_reducible apply State.onFw_ok
    | with_reducible apply OkR.next
    | with_reducible apply OkR.ite
    | split

theorem execStagingEraseDone_ok {ql : List Instr} {s : State} (h : Ok ql s) : OkR ql (execStagingEraseDone s) := by
  unfold execStagingEraseDone
  try dsimp only
  repeat' first
    | with_reducible assumption
    | with_reducible apply State.onFw_ok
    | with_reducible apply State.modSlot_ok
    | with_reducible apply OkR.next
    | split

theorem execResetDelayExpiry_ok {ql : List Instr} {s : State} (h : Ok ql s) : OkR ql (execResetDelayExpiry s) := by
  unfold execResetDelayExpiry
  try dsimp only
  repeat' first
    | with_reducible assumption
    | with_reducible apply State.deviceReset_ok
    | with_reducible apply OkR.next
    | with_reducible apply OkR.ite

theorem State.countSwitched_ok {ql : List Instr} {s : State} (p : Proc) (h : Ok ql s) : Ok ql (State.countSwitched s p) := by
  unfold State.countSwitched
  try dsimp only
  repeat' first
    | with_reducible assumption
    | with_reducible apply State.onFw_ok
    | with_reducible apply Ok.ite
    | split

theorem State.failRunning_ok {ql : List Instr} {s : State} (h : Ok ql s) : Ok ql (State.failRunning s) := by
  unfold State.failRunning
  try dsimp only
  repeat' first
    | with_reducible assumption
    | with_reducible apply State.modSlot_ok
    | split

theorem State.earlyRestart_ok {ql : List Instr} {s : State} (h : Ok ql s) : Ok ql (State.earlyRestart s) := by
  unfold State.earlyRestart
  try dsimp only
  repeat' first
    | with_reducible assumption
    | with_reducible apply State.onFw_ok
    | with_reducible apply State.deviceReset_ok
    | with_reducible apply State.failRunning_ok
    | with_reducible apply Ok.ite

theorem State.thirdRestart_ok {ql : List Instr} {s : State} (h : Ok ql s) : Ok ql (State.thirdRestart s) := by
  unfold State.thirdRestart
  try dsimp only
  repeat' first
    | with_reducible assumption
    | with_reducible apply State.deviceReset_ok
    | with_reducible apply State.failRunning_ok
    | with_reducible apply Ok.ite

theorem State.restartCluster_ok {ql : List Instr} {s : State} (cd : Nat) (h : Ok ql s) : Ok ql (State.restartCluster s cd) := by
  unfold State.restartCluster
  try dsimp only
  repeat' first
    | with_reducible assumption
    | with_reducible apply State.modCluster_ok
    | with_reducible apply State.logEvent_ok
    | with_reducible apply State.fenceCluster_ok
    | with_reducible apply State.stopForReset_ok
    | with_reducible apply State.enterReset_ok
    | with_reducible apply State.countSwitched_ok
    | with_reducible apply Ok.ite

theorem State.clearAlerts_ok {ql : List Instr} {s : State} (v : Nat) (h : Ok ql s) : Ok ql (State.clearAlerts s v) := by
  unfold State.clearAlerts
  try dsimp only
  repeat' first
    | with_reducible assumption
    | with_reducible apply State.onCtl_ok

theorem State.writeMask_ok {ql : List Instr} {s : State} (v : Nat) (h : Ok ql s) : Ok ql (State.writeMask s v) := by
  unfold State.writeMask
  try dsimp only
  repeat' first
    | with_reducible assumption
    | with_reducible apply State.onCtl_ok

theorem State.settleWrites_ok {ql : List Instr} {s : State} (h : Ok ql s) : Ok ql (State.settleWrites s) := by
  unfold State.settleWrites
  try extract_lets
  repeat' first
    | with_reducible assumption
    | with_reducible intro _
    | simp only [Ok.lit]
    | with_reducible apply State.onCtl_ok
    | with_reducible apply State.clearAlerts_ok
    | with_reducible apply State.writeMask_ok
    | with_reducible apply OkOP.foldlBind
    | with_reducible apply OkOP.bind
    | with_reducible apply OkOP.map
    | with_reducible apply OkOP.mapS
    | with_reducible apply OkO.mapS
    | with_reducible apply OkO.mapP
    | with_reducible apply OkO.getD
    | with_reducible apply OkOP.some
    | with_reducible apply OkO.map
    | with_reducible apply OkOP.mapO
    | with_reducible apply OkO.foldlBind
    | with_reducible apply OkO.bind
    | with_reducible apply OkO.none
    | with_reducible apply OkO.some
    | with_reducible apply Ok.foldl
    | with_reducible apply Ok.foldlP
    | with_reducible apply Ok.ite
    | with_reducible refine OkO.elim ?_ (by with_reducible assumption)
    | with_reducible refine OkOP.elim ?_ (by with_reducible assumption)
    | with_reducible refine Ok.pairElim ?_ (by with_reducible assumption)
    | split
    | dsimp +zetaDelta only

theorem State.restart_ok {ql : List Instr} {s : State} (p : Proc) (h : Ok ql s) : Ok ql (State.restart s p) := by
  unfold State.restart
  try dsimp only
  repeat' first
    | with_reducible assumption
    | simp only [Ok.lit]
    | with_reducible apply State.onCtl_ok
    | with_reducible apply State.onFw_ok
    | with_reducible apply State.logEvent_ok
    | with_reducible apply State.loseHubChannels_ok
    | with_reducible apply State.retune_ok
    | with_reducible apply State.countSwitched_ok
    | with_reducible apply State.earlyRestart_ok
    | with_reducible apply State.thirdRestart_ok
    | with_reducible apply State.restartCluster_ok
    | with_reducible apply Ok.ite
    | dsimp only
    | split

theorem execWatchdogExpiry_ok {ql : List Instr} (p : Proc) {s : State} (h : Ok ql s) : OkR ql (execWatchdogExpiry p s) := by
  unfold execWatchdogExpiry
  try dsimp only
  repeat' first
    | with_reducible assumption
    | with_reducible apply State.restart_ok
    | with_reducible apply OkR.next

theorem execReportedFault_ok {ql : List Instr} (p : Proc) {s : State} (h : Ok ql s) : OkR ql (execReportedFault p s) := by
  unfold execReportedFault
  try dsimp only
  repeat' first
    | with_reducible assumption
    | with_reducible apply State.restart_ok
    | with_reducible apply OkR.next

theorem State.settleCommands_ok {ql : List Instr} {s : State} (h : Ok ql s) : Ok ql (State.settleCommands s) := by
  unfold State.settleCommands
  try dsimp only
  repeat' first
    | with_reducible assumption
    | with_reducible intro _
    | with_reducible apply State.respond_ok
    | with_reducible apply Ok.foldl

theorem State.settlePhases_ok {ql : List Instr} {s : State} (h : Ok ql s) : Ok ql (State.settlePhases s) := by
  unfold State.settlePhases
  try dsimp only
  repeat' first
    | with_reducible assumption
    | with_reducible intro _
    | with_reducible apply State.fenceCluster_ok
    | with_reducible apply Ok.foldl

theorem execProcRestartDone_ok {ql : List Instr} (p : Proc) {s : State} (h : Ok ql s) : OkR ql (execProcRestartDone p s) := by
  unfold execProcRestartDone
  try dsimp only
  repeat' first
    | with_reducible assumption
    | simp only [Ok.lit]
    | with_reducible apply State.modCluster_ok
    | with_reducible apply State.onFw_ok
    | with_reducible apply State.flushJournal_ok
    | with_reducible apply State.retune_ok
    | with_reducible apply State.release_ok
    | with_reducible apply State.settleWrites_ok
    | with_reducible apply State.settleCommands_ok
    | with_reducible apply State.settlePhases_ok
    | with_reducible apply OkR.next
    | with_reducible apply OkR.ite
    | with_reducible apply Ok.ite
    | dsimp only
    | split

theorem execErrorRecordWrite_ok {ql : List Instr} (event unitType unitIndex : Nat) {s : State} (h : Ok ql s) : OkR ql (execErrorRecordWrite event unitType unitIndex s) := by
  unfold execErrorRecordWrite
  try dsimp only
  repeat' first
    | with_reducible assumption
    | simp only [Ok.lit]
    | with_reducible apply State.onLife_ok
    | with_reducible apply State.writeRecord_ok
    | with_reducible apply OkR.next
    | with_reducible apply Ok.ite
    | split

theorem execServiceLifeCopy_ok {ql : List Instr} (index : Nat) {s : State} (h : Ok ql s) : OkR ql (execServiceLifeCopy index s) := by
  unfold execServiceLifeCopy
  try dsimp only
  repeat' first
    | with_reducible assumption
    | with_reducible apply State.onLife_ok
    | with_reducible apply OkR.next
    | with_reducible apply OkR.ite

/-! ### What Machine/Registers keeps -/

theorem State.writeActiveMax_ok {ql : List Instr} {s : State} (m v : Nat) (h : Ok ql s) : Ok ql (State.writeActiveMax s m v) := by
  unfold State.writeActiveMax
  try dsimp only
  repeat' first
    | with_reducible assumption
    | with_reducible apply State.modOuter_ok

theorem State.writeOuterCtl_ok {ql : List Instr} {s : State} (m v : Nat) (h : Ok ql s) : Ok ql (State.writeOuterCtl s m v) := by
  unfold State.writeOuterCtl
  try dsimp only
  repeat' first
    | with_reducible assumption
    | with_reducible apply State.modOuter_ok
    | with_reducible apply State.writeActiveMax_ok

theorem State.setLink_ok {ql : List Instr} {s : State} (l : Nat) (on : Bool) (h : Ok ql s) : Ok ql (State.setLink s l on) := by
  unfold State.setLink
  try dsimp only
  repeat' first
    | with_reducible assumption
    | with_reducible apply State.disableLink_ok
    | with_reducible apply State.enableLink_ok
    | with_reducible apply Ok.ite

theorem State.writeLinkCfg_ok {ql : List Instr} {s : State} (l v : Nat) (h : Ok ql s) : Ok ql (State.writeLinkCfg s l v) := by
  unfold State.writeLinkCfg
  try dsimp only
  repeat' first
    | with_reducible assumption
    | with_reducible apply State.modLink_ok
    | with_reducible apply State.leaveUp_ok
    | with_reducible apply State.setLink_ok
    | with_reducible apply Ok.ite

theorem State.writePortCfg_ok {ql : List Instr} {s : State} (p v : Nat) (h : Ok ql s) : Ok ql (State.writePortCfg s p v) := by
  unfold State.writePortCfg
  try dsimp only
  repeat' first
    | with_reducible assumption
    | with_reducible apply State.modPort_ok
    | with_reducible apply State.enablePort_ok
    | with_reducible apply State.disablePort_ok
    | with_reducible apply State.writeMode_ok
    | with_reducible apply State.writePfcMask_ok
    | with_reducible apply Ok.ite

theorem State.writeRcl_ok {ql : List Instr} {s : State} (p v : Nat) (h : Ok ql s) : Ok ql (State.writeRcl s p v) := by
  unfold State.writeRcl
  try dsimp only
  repeat' first
    | with_reducible assumption
    | with_reducible apply State.modPort_ok

theorem State.writeChnCfg_ok {ql : List Instr} {s : State} (ep i : Nat) (value : Dword) (h : Ok ql s) : Ok ql (State.writeChnCfg s ep i value) := by
  unfold State.writeChnCfg
  try extract_lets
  repeat' first
    | with_reducible assumption
    | with_reducible apply execChnCfgWrite_ok
    | with_reducible refine OkR.elim ?_ (by with_reducible assumption)
    | split

theorem State.writeLysId_ok {ql : List Instr} {s : State} (v : Nat) (h : Ok ql s) : Ok ql (State.writeLysId s v) := by
  unfold State.writeLysId
  try dsimp only
  repeat' first
    | with_reducible assumption
    | with_reducible apply State.onLys_ok
    | with_reducible apply State.logEvent_ok
    | with_reducible apply Ok.ite

theorem State.writeReg_ok {ql : List Instr} {s : State} (u : RegUnit) (off : Nat) (value : Dword) (h : Ok ql s) : Ok ql (State.writeReg s u off value) := by
  unfold State.writeReg
  try dsimp only
  repeat' first
    | with_reducible assumption
    | with_reducible apply State.modCore_ok
    | with_reducible apply State.modSlice_ok
    | with_reducible apply State.modChannel_ok
    | with_reducible apply State.onHeat_ok
    | with_reducible apply State.onChannel_ok
    | with_reducible apply State.writeOuterCtl_ok
    | with_reducible apply State.writeLinkCfg_ok
    | with_reducible apply State.writePortCfg_ok
    | with_reducible apply State.writeRcl_ok
    | with_reducible apply State.writeChnCfg_ok
    | with_reducible apply State.writeLysId_ok
    | with_reducible apply Ok.ite
    | split

theorem execActiveMaxWrite_ok {ql : List Instr} (m value : Nat) {s : State} (h : Ok ql s) : OkR ql (execActiveMaxWrite m value s) := by
  unfold execActiveMaxWrite
  try dsimp only
  repeat' first
    | with_reducible assumption
    | with_reducible apply State.writeActiveMax_ok
    | with_reducible apply OkR.next
    | with_reducible apply Ok.ite

theorem execLysIdWrite_ok {ql : List Instr} (value : Dword) {s : State} (h : Ok ql s) : OkR ql (execLysIdWrite value s) := by
  unfold execLysIdWrite
  try dsimp only
  repeat' first
    | with_reducible assumption
    | with_reducible apply State.writeLysId_ok
    | with_reducible apply OkR.next

/-! ### What Machine/Control keeps -/

theorem State.refuseWrite_ok {ql : List Instr} {s : State} (h : Ok ql s) : Ok ql (State.refuseWrite s) := by
  unfold State.refuseWrite
  try dsimp only
  repeat' first
    | with_reducible assumption
    | with_reducible apply State.onCtl_ok

theorem State.writeTail_ok {ql : List Instr} {s : State} (v : Nat) (h : Ok ql s) : Ok ql (State.writeTail s v) := by
  unfold State.writeTail
  try dsimp only
  repeat' first
    | with_reducible assumption
    | with_reducible apply State.onCtl_ok
    | with_reducible apply State.alert_ok
    | with_reducible apply State.logEvent_ok
    | with_reducible apply Ok.ite

theorem State.ringReset_ok {ql : List Instr} {s : State} (byI2c : Bool) (h : Ok ql s) : Ok ql (State.ringReset s byI2c) := by
  unfold State.ringReset
  try dsimp only
  repeat' first
    | with_reducible assumption
    | with_reducible apply State.onCtl_ok
    | with_reducible apply State.onIdent_ok
    | with_reducible apply State.settleSession_ok
    | with_reducible apply State.dropHolder_ok
    | with_reducible apply Ok.ite

theorem execCmdTailWrite_ok {ql : List Instr} (qp : Nat) (value : Half) {s : State} (h : Ok ql s) : OkR ql (execCmdTailWrite qp value s) := by
  unfold execCmdTailWrite
  try dsimp only
  repeat' first
    | with_reducible assumption
    | with_reducible apply State.onCtl_ok
    | with_reducible apply State.refuseWrite_ok
    | with_reducible apply State.writeTail_ok
    | with_reducible apply OkR.next
    | with_reducible apply OkR.ite
    | with_reducible apply Ok.ite
    | split

theorem execRspHeadWrite_ok {ql : List Instr} (qp : Nat) (value : Half) {s : State} (h : Ok ql s) : OkR ql (execRspHeadWrite qp value s) := by
  unfold execRspHeadWrite
  try dsimp only
  repeat' first
    | with_reducible assumption
    | with_reducible apply State.onCtl_ok
    | with_reducible apply State.refuseWrite_ok
    | with_reducible apply OkR.next
    | with_reducible apply OkR.ite

theorem execRingReset_ok {ql : List Instr} (byI2c : Bool) (qp : Nat) {s : State} (h : Ok ql s) : OkR ql (execRingReset byI2c qp s) := by
  unfold execRingReset
  try dsimp only
  repeat' first
    | with_reducible assumption
    | with_reducible apply State.refuseWrite_ok
    | with_reducible apply State.ringReset_ok
    | with_reducible apply OkR.next
    | with_reducible apply OkR.ite

theorem State.stampWall_ok {ql : List Instr} {s : State} (n m : Nat) (w : Dword) (h : Ok ql s) : Ok ql (State.stampWall s n m w) := by
  unfold State.stampWall
  try dsimp only
  repeat' first
    | with_reducible assumption
    | simp only [Ok.lit]

theorem State.command_ok {ql : List Instr} {s : State} (h0 : CmdHdr) (op : Nat) (body : State → State) (h : Ok ql s) (hbody : ∀ y0, Ok ql y0 → Ok ql (body y0)) : OkR ql (State.command s h0 op body) := by
  unfold State.command
  try dsimp only
  repeat' first
    | with_reducible assumption
    | with_reducible apply hbody
    | with_reducible apply State.onCtl_ok
    | with_reducible apply State.respond_ok
    | with_reducible apply State.stampWall_ok
    | with_reducible apply OkR.next
    | with_reducible apply OkR.ite
    | split

theorem State.done_ok {ql : List Instr} {s : State} (h0 : CmdHdr) (op : Nat) (results : List Byte) (detail : Word) (h : Ok ql s) : Ok ql (State.done s h0 op results detail) := by
  unfold State.done
  try dsimp only
  repeat' first
    | with_reducible assumption
    | with_reducible apply State.respond_ok

theorem State.refuse_ok {ql : List Instr} {s : State} (h0 : CmdHdr) (op status : Nat) (detail : Word) (h : Ok ql s) : Ok ql (State.refuse s h0 op status detail) := by
  unfold State.refuse
  try dsimp only
  repeat' first
    | with_reducible assumption
    | with_reducible apply State.respond_ok

theorem State.countOwn_ok {ql : List Instr} {s : State} (p : Path) (b : BufRef) (h : Ok ql s) : Ok ql (State.countOwn s p b) := by
  unfold State.countOwn
  try dsimp only
  repeat' first
    | with_reducible assumption
    | with_reducible apply State.onCtl_ok
    | with_reducible apply Ok.ite

theorem State.countNamed_ok {ql : List Instr} {s : State} (p : Path) (b : Option BufRef) (h : Ok ql s) : Ok ql (State.countNamed s p b) := by
  unfold State.countNamed
  try dsimp only
  repeat' first
    | with_reducible assumption
    | with_reducible apply State.countOwn_ok
    | with_reducible apply Ok.ite
    | dsimp only
    | split

theorem State.fetched_ok {ql : List Instr} {s : State} (p : Path) (entry : List Byte) (h : Ok ql s) : Ok ql (State.fetched s p entry) := by
  unfold State.fetched
  try extract_lets
  repeat' first
    | with_reducible assumption
    | simp only [Ok.lit]
    | with_reducible apply State.onCtl_ok
    | with_reducible apply State.refuse_ok
    | with_reducible apply State.countNamed_ok
    | with_reducible apply Ok.ite
    | split
    | dsimp +zetaDelta only

theorem execCommandFetch_ok {ql : List Instr} {s : State} (h : Ok ql s) : OkR ql (execCommandFetch s) := by
  unfold execCommandFetch
  try dsimp only
  repeat' first
    | with_reducible assumption
    | with_reducible apply State.onCtl_ok
    | with_reducible apply State.fetched_ok
    | with_reducible apply OkR.next
    | with_reducible apply OkR.ite

theorem execResponseWrite_ok {ql : List Instr} {s : State} (h : Ok ql s) : OkR ql (execResponseWrite s) := by
  unfold execResponseWrite
  try dsimp only
  repeat' first
    | with_reducible assumption
    | with_reducible intro _
    | with_reducible apply State.onCtl_ok
    | with_reducible apply State.alert_ok
    | with_reducible apply OkR.next
    | with_reducible apply Ok.onMem
    | with_reducible apply Mem.write_wf
    | split

theorem State.i2cStart_ok {ql : List Instr} {s : State} (h : Ok ql s) : Ok ql (State.i2cStart s) := by
  unfold State.i2cStart
  try dsimp only
  repeat' first
    | with_reducible assumption
    | with_reducible apply State.onCtl_ok
    | with_reducible apply State.fetched_ok
    | with_reducible apply Ok.ite

theorem State.dcsWrite_ok {ql : List Instr} {s : State} (i2c : Bool) (off v : Nat) (h : Ok ql s) : Ok ql (State.dcsWrite s i2c off v) := by
  unfold State.dcsWrite
  try dsimp only
  repeat' first
    | with_reducible assumption
    | with_reducible apply State.onCtl_ok
    | with_reducible apply State.writeTail_ok
    | with_reducible apply State.ringReset_ok
    | with_reducible apply State.i2cStart_ok
    | with_reducible apply State.clearAlerts_ok
    | with_reducible apply State.writeMask_ok
    | with_reducible apply Ok.ite

theorem execI2cWriteTransaction_ok {ql : List Instr} (x : I2cWrite) {s : State} (h : Ok ql s) : OkR ql (execI2cWriteTransaction x s) := by
  unfold execI2cWriteTransaction
  try dsimp only
  repeat' first
    | with_reducible assumption
    | with_reducible intro _
    | with_reducible apply State.dcsWrite_ok
    | with_reducible apply OkR.next
    | with_reducible apply OkO.map
    | with_reducible apply OkO.foldlBind
    | with_reducible apply OkO.bind
    | with_reducible apply OkO.none
    | with_reducible apply OkO.some
    | with_reducible apply Ok.foldl
    | with_reducible apply Ok.foldlP
    | with_reducible apply OkR.ite
    | with_reducible apply Ok.ite
    | with_reducible refine OkO.elim ?_ (by with_reducible assumption)
    | with_reducible refine OkOP.elim ?_ (by with_reducible assumption)
    | with_reducible refine Ok.pairElim ?_ (by with_reducible assumption)
    | dsimp only
    | split

theorem execI2cReadTransaction_ok {ql : List Instr} (x : I2cAt) (count : Nat) {s : State} (h : Ok ql s) : OkR ql (execI2cReadTransaction x count s) := by
  unfold execI2cReadTransaction
  try dsimp only
  repeat' first
    | with_reducible assumption
    | simp only [Ok.lit]
    | with_reducible apply State.onCtl_ok
    | with_reducible apply State.emit_ok
    | with_reducible apply OkR.next
    | with_reducible apply OkR.ite
    | with_reducible apply Ok.ite
    | dsimp only
    | split

theorem execI2cGo_ok {ql : List Instr} {s : State} (h : Ok ql s) : OkR ql (execI2cGo s) := by
  unfold execI2cGo
  try dsimp only
  repeat' first
    | with_reducible assumption
    | with_reducible apply State.i2cStart_ok
    | with_reducible apply OkR.next
    | with_reducible apply OkR.ite

theorem execAlertClear_ok {ql : List Instr} (mask : Dword) {s : State} (h : Ok ql s) : OkR ql (execAlertClear mask s) := by
  unfold execAlertClear
  try dsimp only
  repeat' first
    | with_reducible assumption
    | with_reducible apply State.clearAlerts_ok
    | with_reducible apply OkR.next

theorem execAlertMaskWrite_ok {ql : List Instr} (value : Dword) {s : State} (h : Ok ql s) : OkR ql (execAlertMaskWrite value s) := by
  unfold execAlertMaskWrite
  try dsimp only
  repeat' first
    | with_reducible assumption
    | with_reducible apply State.writeMask_ok
    | with_reducible apply OkR.next

theorem execRegisterWrite_ok {ql : List Instr} (u : RegUnit) (offset : Nat) (value : Dword) {s : State} (h : Ok ql s) : OkR ql (execRegisterWrite u offset value s) := by
  unfold execRegisterWrite
  try dsimp only
  repeat' first
    | with_reducible assumption
    | with_reducible apply State.writeReg_ok
    | with_reducible apply State.dcsWrite_ok
    | with_reducible apply OkR.next
    | split

theorem execTelemetryRewrite_ok {ql : List Instr} {s : State} (h : Ok ql s) : OkR ql (execTelemetryRewrite s) := by
  unfold execTelemetryRewrite
  try dsimp only
  repeat' first
    | with_reducible assumption
    | simp only [Ok.lit]
    | with_reducible apply OkR.next
    | with_reducible apply OkR.ite

theorem State.closeQp_ok {ql : List Instr} {s : State} (q : Nat) (h : Ok ql s) : Ok ql (State.closeQp s q) := by
  unfold State.closeQp
  try dsimp only
  repeat' first
    | with_reducible assumption
    | with_reducible apply State.modPort_ok
    | with_reducible apply State.modQp_ok
    | with_reducible apply State.emit_ok
    | split

theorem State.handBack_ok {ql : List Instr} {s : State} (p : Path) (b : BufRef) (done status : Nat) (h : Ok ql s) : Ok ql (State.handBack s p b done status) := by
  unfold State.handBack
  try dsimp only
  repeat' first
    | with_reducible assumption
    | with_reducible intro _
    | with_reducible apply State.onCtl_ok
    | with_reducible apply Ok.onMem
    | with_reducible apply Mem.write_wf
    | with_reducible apply Ok.ite

theorem State.withBuf_ok {ql : List Instr} {s : State} (h0 : CmdHdr) (op : Nat) (b : BufRef) (go : List Byte → State → State × Nat × Word × List Byte) (h : Ok ql s) (hgo : ∀ y0 y1, Ok ql y1 → Ok ql (go y0 y1).1) : Ok ql (State.withBuf s h0 op b go) := by
  unfold State.withBuf
  try dsimp only
  repeat' first
    | with_reducible assumption
    | with_reducible apply hgo
    | with_reducible apply State.respond_ok
    | with_reducible apply State.refuse_ok
    | with_reducible apply State.countOwn_ok
    | with_reducible apply State.handBack_ok
    | split

theorem State.outBuf_ok {ql : List Instr} {s : State} (h0 : CmdHdr) (op : Nat) (b : BufRef) (bs : List Byte) (detail : Word) (results : List Byte) (h : Ok ql s) : Ok ql (State.outBuf s h0 op b bs detail results) := by
  unfold State.outBuf
  try dsimp only
  repeat' first
    | with_reducible assumption
    | with_reducible intro _
    | with_reducible apply State.onCtl_ok
    | with_reducible apply State.respond_ok
    | with_reducible apply State.sendWrite_ok
    | with_reducible apply State.refuse_ok
    | with_reducible apply State.countOwn_ok
    | with_reducible apply State.handBack_ok
    | with_reducible apply Ok.onMem
    | with_reducible apply Mem.write_wf
    | with_reducible apply Ok.ite
    | split

theorem State.closeWindow_ok {ql : List Instr} {s : State} (w : Nat) (h : Ok ql s) : Ok ql (State.closeWindow s w) := by
  unfold State.closeWindow
  try dsimp only
  repeat' first
    | with_reducible assumption
    | with_reducible apply State.onCtl_ok
    | with_reducible apply State.windowDown_ok
    | with_reducible apply State.closeQp_ok
    | with_reducible apply Ok.ite
    | split

theorem State.backDone_ok {ql : List Instr} {s : State} (qp : Nat) (h : Ok ql s) : Ok ql (State.backDone s qp) := by
  unfold State.backDone
  try dsimp only
  repeat' first
    | with_reducible assumption
    | with_reducible apply State.onCtl_ok
    | with_reducible apply State.respond_ok
    | with_reducible apply State.handBack_ok
    | with_reducible apply State.closeWindow_ok
    | with_reducible apply Ok.ite
    | split

/-! ### What Machine/Rdma keeps -/

theorem State.nakError_ok {ql : List Instr} {s : State} (q code : Nat) (h : Ok ql s) : Ok ql (State.nakError s q code) := by
  unfold State.nakError
  try dsimp only
  repeat' first
    | with_reducible assumption
    | with_reducible apply State.emit_ok
    | with_reducible apply State.qpError_ok

theorem State.dcsWrites_ok {ql : List Instr} {s : State} (q n off : Nat) (bs : List Byte) (h : Ok ql s) :
    Ok ql (State.dcsWrites s q n off bs) := by
  induction n generalizing s off bs with
  | zero => exact h
  | succ n ih =>
    unfold State.dcsWrites
    try dsimp only
    repeat' first
      | with_reducible assumption
      | with_reducible apply ih
      | with_reducible apply State.dcsWrite_ok
      | with_reducible apply State.refuseWrite_ok
      | with_reducible apply State.onCtl_ok
      | split

theorem State.mgmtPiece_ok {ql : List Instr} {s : State} (q : Nat) (p : Part) (off : Nat) (bs : List Byte) (h : Ok ql s) : Ok ql (State.mgmtPiece s q p off bs) := by
  unfold State.mgmtPiece
  try dsimp only
  repeat' first
    | with_reducible assumption
    | with_reducible intro _
    | with_reducible apply State.refuseWrite_ok
    | with_reducible apply State.dcsWrites_ok
    | with_reducible apply Ok.onMem
    | with_reducible apply Mem.write_wf
    | with_reducible apply writeOwned_wf
    | with_reducible apply Ok.ite
    | split

theorem State.inboundSend_ok {ql : List Instr} {s : State} (q set len : Nat) (port : Nat) (h : Ok ql s) : Ok ql (State.inboundSend s q set len port) := by
  unfold State.inboundSend
  try dsimp only
  repeat' first
    | with_reducible assumption
    | with_reducible apply State.modPort_ok
    | with_reducible apply State.onNet_ok
    | with_reducible apply State.emit_ok
    | with_reducible apply State.onChannel_ok
    | with_reducible apply State.nakError_ok
    | with_reducible apply Ok.ite

theorem State.serveInbound_ok {ql : List Instr} {s : State} (q : Nat) (x : Qp) (r : Held) (h : Ok ql s) : OkS ql (State.serveInbound s q x r) := by
  unfold State.serveInbound
  try dsimp only
  repeat' first
    | with_reducible assumption
    | with_reducible intro _
    | with_reducible apply State.emit_ok
    | with_reducible apply State.logEvent_ok
    | with_reducible apply State.readRange_ok
    | with_reducible apply State.writeRange_ok
    | with_reducible apply State.countBusy_ok
    | with_reducible apply State.nakError_ok
    | with_reducible apply State.mgmtPiece_ok
    | with_reducible apply State.inboundSend_ok
    | with_reducible exact OkS.inr
    | with_reducible apply OkS.inl
    | with_reducible apply Ok.foldl
    | with_reducible apply Ok.ite
    | split
theorem State.serveInbound_eq {ql : List Instr} {s : State} {q : Nat} {x : Qp} {r : Held} {t : State} (h : Ok ql s) (e : State.serveInbound s q x r = .inl t) : Ok ql t :=
  State.serveInbound_ok q x r h _ e

theorem State.serveHeld_ok {ql : List Instr} (n : Nat) {s : State} (q : Nat) (h : Ok ql s) : Ok ql (State.serveHeld n s q) := by
  induction n generalizing s with
  | zero => exact h
  | succ n ih =>
    unfold State.serveHeld
    try dsimp only
    repeat' first
      | with_reducible assumption
      | with_reducible apply ih
      | with_reducible apply State.modQp_ok
      | with_reducible refine State.serveInbound_eq ?_ (by with_reducible assumption)
      | split

theorem State.inbound_ok {ql : List Instr} {s : State} (q : Nat) (r : Held) (h : Ok ql s) : Ok ql (State.inbound s q r) := by
  unfold State.inbound
  try dsimp only
  repeat' first
    | with_reducible assumption
    | with_reducible apply State.nakError_ok
    | with_reducible apply State.modQp_ok
    | with_reducible apply State.serveHeld_ok
    | with_reducible apply Ok.ite
    | split

theorem execSend_ok {ql : List Instr} (qp length : Nat) {s : State} (h : Ok ql s) : OkR ql (execSend qp length s) := by
  unfold execSend
  try dsimp only
  repeat' first
    | with_reducible assumption
    | with_reducible apply State.inbound_ok
    | with_reducible apply OkR.next

theorem execRdmaWrite_ok {ql : List Instr} (qp : Nat) (rkey : Word) (va : Nat) (data : List Byte) {s : State} (h : Ok ql s) : OkR ql (execRdmaWrite qp rkey va data s) := by
  unfold execRdmaWrite
  try dsimp only
  repeat' first
    | with_reducible assumption
    | with_reducible apply State.inbound_ok
    | with_reducible apply OkR.next

theorem execRdmaRead_ok {ql : List Instr} (qp : Nat) (rkey : Word) (va len : Nat) {s : State} (h : Ok ql s) : OkR ql (execRdmaRead qp rkey va len s) := by
  unfold execRdmaRead
  try dsimp only
  repeat' first
    | with_reducible assumption
    | with_reducible apply State.inbound_ok
    | with_reducible apply OkR.next

theorem execHeldRequestRetry_ok {ql : List Instr} (qp : Nat) {s : State} (h : Ok ql s) : OkR ql (execHeldRequestRetry qp s) := by
  unfold execHeldRequestRetry
  try dsimp only
  repeat' first
    | with_reducible assumption
    | with_reducible apply State.serveHeld_ok
    | with_reducible apply OkR.next
    | split

theorem execHoldLimitExpiry_ok {ql : List Instr} (qp : Nat) {s : State} (h : Ok ql s) : OkR ql (execHoldLimitExpiry qp s) := by
  unfold execHoldLimitExpiry
  try dsimp only
  repeat' first
    | with_reducible assumption
    | with_reducible apply State.nakError_ok
    | with_reducible apply OkR.next
    | with_reducible apply OkR.ite
    | split

theorem State.nextRead_ok {ql : List Instr} {s : State} (port : Nat) (h : Ok ql s) : Ok ql (State.nextRead s port) := by
  unfold State.nextRead
  try dsimp only
  repeat' first
    | with_reducible assumption
    | with_reducible apply State.modPort_ok
    | with_reducible apply State.issueRead_ok
    | split

theorem execRdmaReadResponse_ok {ql : List Instr} (qp : Nat) (data : List Byte) {s : State} (h : Ok ql s) : OkR ql (execRdmaReadResponse qp data s) := by
  unfold execRdmaReadResponse
  try dsimp only
  repeat' first
    | with_reducible assumption
    | simp only [Ok.lit]
    | with_reducible apply State.modPort_ok
    | with_reducible apply State.modQp_ok
    | with_reducible apply State.spStore_ok
    | with_reducible apply State.continueItem_ok
    | with_reducible apply State.completed_ok
    | with_reducible apply State.gotEntry_ok
    | with_reducible apply State.nextRead_ok
    | with_reducible apply OkR.next
    | with_reducible apply OkR.ite
    | with_reducible apply Ok.ite
    | dsimp only
    | split

theorem State.writeAcked_ok {ql : List Instr} {s : State} (qp : Nat) (w : OutWrite) (h : Ok ql s) : Ok ql (State.writeAcked s qp w) := by
  unfold State.writeAcked
  try dsimp only
  repeat' first
    | with_reducible assumption
    | with_reducible apply State.modItem_ok
    | with_reducible apply State.completed_ok
    | with_reducible apply State.backDone_ok
    | with_reducible apply Ok.ite
    | split

theorem execRdmaAcknowledgement_ok {ql : List Instr} (qp : Nat) (ok : Bool) {s : State} (h : Ok ql s) : OkR ql (execRdmaAcknowledgement qp ok s) := by
  unfold execRdmaAcknowledgement
  try dsimp only
  repeat' first
    | with_reducible assumption
    | with_reducible apply State.modQp_ok
    | with_reducible apply State.qpError_ok
    | with_reducible apply State.writeAcked_ok
    | with_reducible apply OkR.next
    | with_reducible apply OkR.ite
    | split

theorem execAckTimeout_ok {ql : List Instr} (qp : Nat) {s : State} (h : Ok ql s) : OkR ql (execAckTimeout qp s) := by
  unfold execAckTimeout
  try dsimp only
  repeat' first
    | with_reducible assumption
    | with_reducible intro _
    | with_reducible apply State.modQp_ok
    | with_reducible apply State.emit_ok
    | with_reducible apply State.qpError_ok
    | with_reducible apply OkR.next
    | with_reducible apply Ok.foldl
    | with_reducible apply OkR.ite
    | split

theorem execCnpSend_ok {ql : List Instr} (qp : Nat) {s : State} (h : Ok ql s) : OkR ql (execCnpSend qp s) := by
  unfold execCnpSend
  try dsimp only
  repeat' first
    | with_reducible assumption
    | simp only [Ok.lit]
    | with_reducible apply State.modPort_ok
    | with_reducible apply State.modQp_ok
    | with_reducible apply State.sendFrame_ok
    | with_reducible apply OkR.next
    | with_reducible apply OkR.ite
    | with_reducible apply Ok.ite
    | dsimp only
    | split

theorem execCnp_ok {ql : List Instr} (qp : Nat) {s : State} (h : Ok ql s) : OkR ql (execCnp qp s) := by
  unfold execCnp
  try dsimp only
  repeat' first
    | with_reducible assumption
    | with_reducible apply State.modPort_ok
    | with_reducible apply State.modQp_ok
    | with_reducible apply OkR.next
    | with_reducible apply OkR.ite
    | split

theorem execRateRecoveryStep_ok {ql : List Instr} (qp : Nat) {s : State} (h : Ok ql s) : OkR ql (execRateRecoveryStep qp s) := by
  unfold execRateRecoveryStep
  try dsimp only
  repeat' first
    | with_reducible assumption
    | with_reducible apply State.modQp_ok
    | with_reducible apply OkR.next
    | with_reducible apply OkR.ite
    | split

theorem execReq_ok {ql : List Instr} (p : Nat) (m : CmReq) {s : State} (h : Ok ql s) : OkR ql (execReq p m s) := by
  unfold execReq
  try dsimp only
  repeat' first
    | with_reducible assumption
    | with_reducible apply State.onNet_ok
    | with_reducible apply State.emit_ok
    | with_reducible apply State.draw_ok
    | with_reducible apply OkR.next
    | with_reducible apply OkR.ite
    | split

theorem State.freeQpIndex_ok {ql : List Instr} {s : State} (q : Nat) (h : Ok ql s) : Ok ql (State.freeQpIndex s q) := by
  unfold State.freeQpIndex
  try dsimp only
  repeat' first
    | with_reducible assumption
    | with_reducible apply State.onNet_ok

theorem execRtu_ok {ql : List Instr} (qp : Nat) {s : State} (h : Ok ql s) : OkR ql (execRtu qp s) := by
  unfold execRtu
  try dsimp only
  repeat' first
    | with_reducible assumption
    | with_reducible apply State.modQp_ok
    | with_reducible apply OkR.next

theorem execRtuTimeout_ok {ql : List Instr} (qp : Nat) {s : State} (h : Ok ql s) : OkR ql (execRtuTimeout qp s) := by
  unfold execRtuTimeout
  try dsimp only
  repeat' first
    | with_reducible assumption
    | with_reducible apply State.modQp_ok
    | with_reducible apply State.emit_ok
    | with_reducible apply State.freeQpIndex_ok
    | with_reducible apply OkR.next
    | with_reducible apply OkR.ite
    | split

theorem State.openFailed_ok {ql : List Instr} {s : State} (qp : Nat) (status : Nat) (h : Ok ql s) : Ok ql (State.openFailed s qp status) := by
  unfold State.openFailed
  try dsimp only
  repeat' first
    | with_reducible assumption
    | with_reducible apply State.onCtl_ok
    | with_reducible apply State.respond_ok
    | with_reducible apply State.freeQpIndex_ok
    | split

theorem execRep_ok {ql : List Instr} (p qp mtu remoteQpn : Nat) {s : State} (h : Ok ql s) : OkR ql (execRep p qp mtu remoteQpn s) := by
  unfold execRep
  try dsimp only
  repeat' first
    | with_reducible assumption
    | with_reducible apply State.modQp_ok
    | with_reducible apply State.onCtl_ok
    | with_reducible apply State.emit_ok
    | with_reducible apply State.respond_ok
    | with_reducible apply OkR.next
    | with_reducible apply OkR.ite
    | split

theorem execRej_ok {ql : List Instr} (qp : Nat) {s : State} (h : Ok ql s) : OkR ql (execRej qp s) := by
  unfold execRej
  try dsimp only
  repeat' first
    | with_reducible assumption
    | with_reducible apply State.openFailed_ok
    | with_reducible apply OkR.next

theorem execDeviceReqTimeout_ok {ql : List Instr} (qp : Nat) {s : State} (h : Ok ql s) : OkR ql (execDeviceReqTimeout qp s) := by
  unfold execDeviceReqTimeout
  try dsimp only
  repeat' first
    | with_reducible assumption
    | with_reducible apply State.modQp_ok
    | with_reducible apply State.emit_ok
    | with_reducible apply State.openFailed_ok
    | with_reducible apply OkR.next
    | with_reducible apply OkR.ite
    | split

theorem execDreq_ok {ql : List Instr} (qp : Nat) {s : State} (h : Ok ql s) : OkR ql (execDreq qp s) := by
  unfold execDreq
  try dsimp only
  repeat' first
    | with_reducible assumption
    | with_reducible apply State.emit_ok
    | with_reducible apply State.qpError_ok
    | with_reducible apply State.freeQpIndex_ok
    | with_reducible apply OkR.next
    | split

theorem execDrep_ok {ql : List Instr} (qp : Nat) {s : State} (h : Ok ql s) : OkR ql (execDrep qp s) := by
  unfold execDrep
  try dsimp only
  repeat' first
    | with_reducible assumption
    | with_reducible apply State.freeQpIndex_ok
    | with_reducible apply OkR.next
    | with_reducible apply OkR.ite
    | split

/-! ### What Machine/Identity keeps -/

theorem State.countSigned_ok {ql : List Instr} {s : State} (h : Ok ql s) : Ok ql (State.countSigned s) := by
  unfold State.countSigned
  try dsimp only
  repeat' first
    | with_reducible assumption
    | with_reducible apply State.onIdent_ok
    | with_reducible apply State.draw_ok

theorem State.writeBlock_ok {ql : List Instr} {s : State} (h : Ok ql s) : Ok ql (State.writeBlock s) := by
  unfold State.writeBlock
  try dsimp only
  repeat' first
    | with_reducible assumption
    | with_reducible apply State.onLife_ok

theorem execCounterBlockWrite_ok {ql : List Instr} {s : State} (h : Ok ql s) : OkR ql (execCounterBlockWrite s) := by
  unfold execCounterBlockWrite
  try dsimp only
  repeat' first
    | with_reducible assumption
    | with_reducible apply State.writeBlock_ok
    | with_reducible apply OkR.next
    | with_reducible apply OkR.ite

theorem State.endSessions_ok {ql : List Instr} {s : State} (gone : Session → Bool) (h : Ok ql s) : Ok ql (State.endSessions s gone) := by
  unfold State.endSessions
  try dsimp only
  repeat' first
    | with_reducible assumption
    | with_reducible apply State.onIdent_ok

theorem execSessionLifetimeEnd_ok {ql : List Instr} (path : Path) {s : State} (h : Ok ql s) : OkR ql (execSessionLifetimeEnd path s) := by
  unfold execSessionLifetimeEnd
  try dsimp only
  repeat' first
    | with_reducible assumption
    | with_reducible apply State.onIdent_ok
    | with_reducible apply OkR.next
    | split

theorem State.guestViolation_ok {ql : List Instr} {s : State} (addr : Nat) (h : Ok ql s) : Ok ql (State.guestViolation s addr) := by
  unfold State.guestViolation
  try dsimp only
  repeat' first
    | with_reducible assumption
    | with_reducible apply State.onPwr_ok
    | with_reducible apply State.logEvent_ok

theorem execGuestRequest_ok {ql : List Instr} (op addr len : Nat) (malformed : Bool) (data : List Byte) {s : State} (h : Ok ql s) : OkR ql (execGuestRequest op addr len malformed data s) := by
  unfold execGuestRequest
  try dsimp only
  repeat' first
    | with_reducible assumption
    | with_reducible apply State.onIdent_ok
    | with_reducible apply State.emit_ok
    | with_reducible apply State.countBusy_ok
    | with_reducible apply State.reply_ok
    | with_reducible apply State.serve_ok
    | with_reducible apply State.guestViolation_ok
    | with_reducible apply OkR.next
    | with_reducible apply OkR.ite
    | split

theorem State.cocoonErase_ok {ql : List Instr} {s : State} (h : Ok ql s) : Ok ql (State.cocoonErase s) := by
  unfold State.cocoonErase
  try dsimp only
  repeat' first
    | with_reducible assumption
    | simp only [Ok.lit]
    | with_reducible apply State.endSessions_ok
    | with_reducible apply Ok.ite

theorem execCocoonWipeDone_ok {ql : List Instr} (slicesUnwiped : Nat) (packagesUnwiped : Half) (verifyFailures : Nat) {s : State} (h : Ok ql s) : OkR ql (execCocoonWipeDone slicesUnwiped packagesUnwiped verifyFailures s) := by
  unfold execCocoonWipeDone
  try dsimp only
  repeat' first
    | with_reducible assumption
    | with_reducible apply State.inboxUpdate_ok
    | with_reducible apply State.cocoonErase_ok
    | with_reducible apply OkR.next
    | (simp only [Ok.litM]; refine ⟨?_, ?_⟩)
    | with_reducible apply Mem.clear_wf
    | (simp only [Mem.lit_wf])
    | with_reducible exact Ok.wf (by with_reducible assumption)
    | with_reducible exact Ok.queue (by with_reducible assumption)
    | with_reducible apply OkR.ite

theorem execCocoonFlashDone_ok {ql : List Instr} {s : State} (h : Ok ql s) : OkR ql (execCocoonFlashDone s) := by
  unfold execCocoonFlashDone
  try dsimp only
  repeat' first
    | with_reducible assumption
    | simp only [Ok.lit]
    | with_reducible apply State.cocoonErase_ok
    | with_reducible apply OkR.next
    | with_reducible apply OkR.ite

theorem execWipeCertificate_ok {ql : List Instr} {s : State} (h : Ok ql s) : OkR ql (execWipeCertificate s) := by
  unfold execWipeCertificate
  try dsimp only
  repeat' first
    | with_reducible assumption
    | simp only [Ok.lit]
    | with_reducible apply State.onCtl_ok
    | with_reducible apply State.draw_ok
    | with_reducible apply State.outBuf_ok
    | with_reducible apply State.countSigned_ok
    | with_reducible apply OkR.next
    | with_reducible apply OkR.ite
    | split

end Sys2Proof.Machine
end

