-- ==== Sys2Proof/Laws/KeepCommands.lean ====
section
/-! SUPPORT. What the operations of the mailbox commands keep: the canonical form of
memory and the queue of waiting commands. -/

namespace Sys2Proof.Machine

/-! ### What Machine/CmdDevice keeps -/

theorem execGetInfo_ok {ql : List Instr} (h0 : CmdHdr) {s : State} (h : Ok ql s) : OkR ql (execGetInfo h0 s) := by
  unfold execGetInfo
  try dsimp only
  repeat' first
    | with_reducible assumption
    | with_reducible intro _
    | with_reducible apply State.command_ok
    | with_reducible apply State.done_ok

theorem execComputeReset_ok {ql : List Instr} (h0 : CmdHdr) (mode : Nat) (cds : List Nat) {s : State} (h : Ok ql s) : OkR ql (execComputeReset h0 mode cds s) := by
  unfold execComputeReset
  try dsimp only
  repeat' first
    | with_reducible assumption
    | with_reducible intro _
    | with_reducible apply State.beginReset_ok
    | with_reducible apply State.command_ok
    | with_reducible apply State.refuse_ok
    | with_reducible apply Ok.ite

theorem execDeviceReset_ok {ql : List Instr} (h0 : CmdHdr) {s : State} (h : Ok ql s) : OkR ql (execDeviceReset h0 s) := by
  unfold execDeviceReset
  try dsimp only
  repeat' first
    | with_reducible assumption
    | with_reducible intro _
    | with_reducible apply State.onFw_ok
    | with_reducible apply State.command_ok
    | with_reducible apply State.done_ok

theorem State.storeProfile_ok {ql : List Instr} {s : State} (key : Nat) (v : List Byte) (h : Ok ql s) : Ok ql (State.storeProfile s key v) := by
  unfold State.storeProfile
  try dsimp only
  repeat' first
    | with_reducible assumption
    | with_reducible apply State.onFw_ok
    | with_reducible apply State.setSrcCfg_ok
    | with_reducible apply Ok.ite

theorem execConfig_ok {ql : List Instr} (h0 : CmdHdr) (op : Nat) (key : Word) (value : List Byte) {s : State} (h : Ok ql s) : OkR ql (execConfig h0 op key value s) := by
  unfold execConfig
  try dsimp only
  repeat' first
    | with_reducible assumption
    | with_reducible intro _
    | with_reducible apply State.command_ok
    | with_reducible apply State.done_ok
    | with_reducible apply State.refuse_ok
    | with_reducible apply State.storeProfile_ok
    | with_reducible apply Ok.ite

theorem State.openWindow_ok {ql : List Instr} {s : State} (h0 : CmdHdr) (w port gid : Nat) (hostGid : BitVec 128) (va len : Dword) (rkey : Word) (q : Nat) (h : Ok ql s) : Ok ql (State.openWindow s h0 w port gid hostGid va len rkey q) := by
  unfold State.openWindow
  try dsimp only
  repeat' first
    | with_reducible assumption
    | with_reducible apply State.onCtl_ok
    | with_reducible apply State.onNet_ok
    | with_reducible apply State.emit_ok
    | with_reducible apply State.draw_ok

theorem execWindow_ok {ql : List Instr} (h0 : CmdHdr) (op w port gidIndex : Nat) (hostGid : BitVec 128) (va len : Dword) (rkey : Word) {s : State} (h : Ok ql s) : OkR ql (execWindow h0 op w port gidIndex hostGid va len rkey s) := by
  unfold execWindow
  try dsimp only
  repeat' first
    | with_reducible assumption
    | with_reducible intro _
    | with_reducible apply State.command_ok
    | with_reducible apply State.done_ok
    | with_reducible apply State.refuse_ok
    | with_reducible apply State.closeQp_ok
    | with_reducible apply State.closeWindow_ok
    | with_reducible apply State.openFailed_ok
    | with_reducible apply State.openWindow_ok
    | with_reducible apply Ok.ite
    | split

theorem execRegion_ok {ql : List Instr} (h0 : CmdHdr) (op index base len : Nat) (rd wr : Bool) (domain : Nat) {s : State} (h : Ok ql s) : OkR ql (execRegion h0 op index base len rd wr domain s) := by
  unfold execRegion
  try dsimp only
  repeat' first
    | with_reducible assumption
    | with_reducible intro _
    | with_reducible apply State.onNet_ok
    | with_reducible apply State.command_ok
    | with_reducible apply State.done_ok
    | with_reducible apply State.refuse_ok
    | with_reducible apply Ok.ite

theorem execRetire_ok {ql : List Instr} (h0 : CmdHdr) (tier unit page : Nat) (bank : Bool) {s : State} (h : Ok ql s) : OkR ql (execRetire h0 tier unit page bank s) := by
  unfold execRetire
  try dsimp only
  repeat' first
    | with_reducible assumption
    | with_reducible intro _
    | with_reducible apply State.onCtl_ok
    | with_reducible apply State.retireSlicePage_ok
    | with_reducible apply State.retireBank_ok
    | with_reducible apply State.retireOuterPage_ok
    | with_reducible apply State.retireDone_ok
    | with_reducible apply State.command_ok
    | with_reducible apply State.refuse_ok
    | with_reducible apply Ok.ite

theorem execUnitRegs_ok {ql : List Instr} (h0 : CmdHdr) (op : Nat) (u : RegUnit) (offset : Nat) (value : Dword) {s : State} (h : Ok ql s) : OkR ql (execUnitRegs h0 op u offset value s) := by
  unfold execUnitRegs
  try dsimp only
  repeat' first
    | with_reducible assumption
    | with_reducible intro _
    | with_reducible apply State.writeReg_ok
    | with_reducible apply State.command_ok
    | with_reducible apply State.done_ok
    | with_reducible apply State.refuse_ok
    | with_reducible apply Ok.ite

theorem execExportWindow_ok {ql : List Instr} (h0 : CmdHdr) (index base size : Nat) (rd wr : Bool) {s : State} (h : Ok ql s) : OkR ql (execExportWindow h0 index base size rd wr s) := by
  unfold execExportWindow
  try dsimp only
  repeat' first
    | with_reducible assumption
    | with_reducible intro _
    | with_reducible apply State.onLys_ok
    | with_reducible apply State.command_ok
    | with_reducible apply State.done_ok
    | with_reducible apply State.refuse_ok
    | with_reducible apply Ok.ite

theorem execSetPowerCap_ok {ql : List Instr} (h0 : CmdHdr) (watts : Nat) {s : State} (h : Ok ql s) : OkR ql (execSetPowerCap h0 watts s) := by
  unfold execSetPowerCap
  try dsimp only
  repeat' first
    | with_reducible assumption
    | with_reducible intro _
    | with_reducible apply State.onPwr_ok
    | with_reducible apply State.command_ok
    | with_reducible apply State.done_ok
    | with_reducible apply State.refuse_ok
    | with_reducible apply Ok.ite

theorem execSetProboscis_ok {ql : List Instr} (h0 : CmdHdr) (mask : Half) (activeMax : Nat) {s : State} (h : Ok ql s) : OkR ql (execSetProboscis h0 mask activeMax s) := by
  unfold execSetProboscis
  try dsimp only
  repeat' first
    | with_reducible assumption
    | with_reducible intro _
    | with_reducible apply State.writeActiveMax_ok
    | with_reducible apply State.command_ok
    | with_reducible apply State.done_ok
    | with_reducible apply State.refuse_ok
    | with_reducible apply Ok.foldl
    | with_reducible apply Ok.ite

theorem State.gateCmd_ok {ql : List Instr} {s : State} (cd : Nat) (on : Bool) (h : Ok ql s) : Ok ql (State.gateCmd s cd on).1 := by
  unfold State.gateCmd
  try dsimp only
  repeat' first
    | with_reducible assumption
    | simp only [Ok.lit]
    | with_reducible apply State.modCluster_ok
    | split
theorem State.gateCmd_eq {ql : List Instr} {s : State} {cd : Nat} {on : Bool} {x : _} {t : State} (h : Ok ql s) (e : State.gateCmd s cd on = (t, x)) : Ok ql t := by
  have h9 := State.gateCmd_ok cd on h
  rw [e] at h9; exact h9

theorem State.domainCmd_ok {ql : List Instr} {s : State} (cd : Nat) (on : Bool) (h : Ok ql s) : Ok ql (State.domainCmd s cd on).1 := by
  unfold State.domainCmd
  try dsimp only
  repeat' first
    | with_reducible assumption
    | simp only [Ok.lit]
    | with_reducible apply State.modCluster_ok
    | split
theorem State.domainCmd_eq {ql : List Instr} {s : State} {cd : Nat} {on : Bool} {x : _} {t : State} (h : Ok ql s) (e : State.domainCmd s cd on = (t, x)) : Ok ql t := by
  have h9 := State.domainCmd_ok cd on h
  rw [e] at h9; exact h9

theorem execDomain_ok {ql : List Instr} (h0 : CmdHdr) (cd level : Nat) (on : Bool) {s : State} (h : Ok ql s) : OkR ql (execDomain h0 cd level on s) := by
  unfold execDomain
  try dsimp only
  repeat' first
    | with_reducible assumption
    | with_reducible intro _
    | with_reducible apply State.respond_ok
    | with_reducible apply State.command_ok
    | with_reducible apply State.refuse_ok
    | with_reducible apply State.gateCmd_ok
    | with_reducible apply State.domainCmd_ok
    | with_reducible apply Ok.ite
    | split

theorem execGetPower_ok {ql : List Instr} (h0 : CmdHdr) {s : State} (h : Ok ql s) : OkR ql (execGetPower h0 s) := by
  unfold execGetPower
  try dsimp only
  repeat' first
    | with_reducible assumption
    | with_reducible intro _
    | with_reducible apply State.draw_ok
    | with_reducible apply State.command_ok
    | with_reducible apply State.done_ok

theorem execGetThermal_ok {ql : List Instr} (h0 : CmdHdr) (mask : Word) {s : State} (h : Ok ql s) : OkR ql (execGetThermal h0 mask s) := by
  unfold execGetThermal
  try dsimp only
  repeat' first
    | with_reducible assumption
    | with_reducible intro _
    | with_reducible apply State.command_ok
    | with_reducible apply State.done_ok
    | with_reducible apply State.refuse_ok
    | with_reducible apply Ok.ite

theorem execGetRth_ok {ql : List Instr} (h0 : CmdHdr) (stack : Nat) {s : State} (h : Ok ql s) : OkR ql (execGetRth h0 stack s) := by
  unfold execGetRth
  try dsimp only
  repeat' first
    | with_reducible assumption
    | with_reducible intro _
    | with_reducible apply State.command_ok
    | with_reducible apply State.done_ok
    | with_reducible apply State.refuse_ok
    | with_reducible apply Ok.ite

theorem execGetErrorLog_ok {ql : List Instr} (h0 : CmdHdr) (first count : Nat) (b : BufRef) {s : State} (h : Ok ql s) : OkR ql (execGetErrorLog h0 first count b s) := by
  unfold execGetErrorLog
  try dsimp only
  repeat' first
    | with_reducible assumption
    | with_reducible intro _
    | with_reducible apply State.command_ok
    | with_reducible apply State.outBuf_ok

theorem State.inject_ok {ql : List Instr} {s : State} (ut ui cls kind : Nat) (h : Ok ql s) : OkO ql (State.inject s ut ui cls kind) := by
  unfold State.inject
  try dsimp only
  repeat' first
    | with_reducible assumption
    | with_reducible intro _
    | simp only [Ok.lit]
    | with_reducible apply State.modCore_ok
    | with_reducible apply State.modCluster_ok
    | with_reducible apply State.modPort_ok
    | with_reducible apply State.onMem_ok
    | with_reducible apply State.draw_ok
    | with_reducible apply State.logEvent_ok
    | with_reducible apply State.crcError_ok
    | with_reducible exact OkO.none
    | with_reducible apply OkO.some
    | with_reducible apply OkO.map
    | with_reducible apply OkO.foldlBind
    | with_reducible apply OkO.map
    | with_reducible apply OkO.foldlBind
    | with_reducible apply OkO.bind
    | with_reducible apply OkO.none
    | with_reducible apply OkO.some
    | with_reducible apply Ok.foldl
    | with_reducible apply Ok.foldlP
    | with_reducible apply Ok.onMem
    | (simp only [Ok.litM]; refine ⟨?_, ?_⟩)
    | with_reducible apply Mem.setMark_wf
    | with_reducible apply Mem.flips_wf
    | with_reducible apply Mem.foldl_wf
    | (simp only [Mem.lit_wf])
    | with_reducible exact Ok.wf (by with_reducible assumption)
    | with_reducible exact Ok.queue (by with_reducible assumption)
    | (exact (rfl : Mem.wf {} = true))
    | with_reducible apply OkO.ite
    | with_reducible apply Ok.ite
    | with_reducible refine OkO.elim ?_ (by with_reducible assumption)
    | with_reducible refine OkOP.elim ?_ (by with_reducible assumption)
    | with_reducible refine Ok.pairElim ?_ (by with_reducible assumption)
    | dsimp only
    | split
theorem State.inject_eq {ql : List Instr} {s : State} {ut ui cls kind : Nat} {t : State} (h : Ok ql s) (e : State.inject s ut ui cls kind = some t) : Ok ql t :=
  State.inject_ok ut ui cls kind h _ e

theorem execInjectError_ok {ql : List Instr} (h0 : CmdHdr) (unitType index cls kind : Nat) {s : State} (h : Ok ql s) : OkR ql (execInjectError h0 unitType index cls kind s) := by
  unfold execInjectError
  try dsimp only
  repeat' first
    | with_reducible assumption
    | with_reducible intro _
    | with_reducible apply State.command_ok
    | with_reducible apply State.done_ok
    | with_reducible apply State.refuse_ok
    | with_reducible apply State.inject_ok
    | with_reducible apply OkR.next
    | with_reducible refine State.inject_eq ?_ (by with_reducible assumption)
    | with_reducible apply OkO.map
    | with_reducible apply OkO.foldlBind
    | with_reducible apply OkO.bind
    | with_reducible apply OkO.none
    | with_reducible apply OkO.some
    | with_reducible apply Ok.foldl
    | with_reducible apply Ok.foldlP
    | with_reducible apply OkR.ite
    | with_reducible apply Ok.ite
    | with_reducible refine OkR.elim ?_ (by with_reducible assumption)
    | with_reducible refine OkO.elim ?_ (by with_reducible assumption)
    | with_reducible refine OkOP.elim ?_ (by with_reducible assumption)
    | with_reducible refine Ok.pairElim ?_ (by with_reducible assumption)
    | dsimp only
    | split

theorem State.enableAnswer_ok {ql : List Instr} {s : State} (h0 : CmdHdr) (op : Nat) (enable draining pending : Bool) (code : Nat) (h : Ok ql s) : Ok ql (State.enableAnswer s h0 op enable draining pending code) := by
  unfold State.enableAnswer
  try dsimp only
  repeat' first
    | with_reducible assumption
    | with_reducible apply State.respond_ok
    | with_reducible apply Ok.ite

theorem execLink_ok {ql : List Instr} (h0 : CmdHdr) (l : Nat) (enable : Bool) (widthMax : Nat) (retrain : Bool) {s : State} (h : Ok ql s) : OkR ql (execLink h0 l enable widthMax retrain s) := by
  unfold execLink
  try dsimp only
  repeat' first
    | with_reducible assumption
    | with_reducible intro _
    | with_reducible apply State.modLink_ok
    | with_reducible apply State.leaveUp_ok
    | with_reducible apply State.setLink_ok
    | with_reducible apply State.command_ok
    | with_reducible apply State.refuse_ok
    | with_reducible apply State.enableAnswer_ok
    | with_reducible apply Ok.ite

theorem execSetLysId_ok {ql : List Instr} (h0 : CmdHdr) (system : Word) (device : Nat) (torus : Bool) {s : State} (h : Ok ql s) : OkR ql (execSetLysId h0 system device torus s) := by
  unfold execSetLysId
  try dsimp only
  repeat' first
    | with_reducible assumption
    | with_reducible intro _
    | with_reducible apply State.writeLysId_ok
    | with_reducible apply State.command_ok
    | with_reducible apply State.done_ok
    | with_reducible apply State.refuse_ok
    | with_reducible apply Ok.ite

theorem execWriteRoutes_ok {ql : List Instr} (h0 : CmdHdr) (b : BufRef) {s : State} (h : Ok ql s) : OkR ql (execWriteRoutes h0 b s) := by
  unfold execWriteRoutes
  try dsimp only
  repeat' first
    | with_reducible assumption
    | with_reducible intro _
    | simp only [Ok.lit]
    | with_reducible apply State.onLys_ok
    | with_reducible apply State.command_ok
    | with_reducible apply State.withBuf_ok
    | split

theorem execGroup_ok {ql : List Instr} (h0 : CmdHdr) (op id : Nat) (b : BufRef) {s : State} (h : Ok ql s) : OkR ql (execGroup h0 op id b s) := by
  unfold execGroup
  try dsimp only
  repeat' first
    | with_reducible assumption
    | with_reducible intro _
    | simp only [Ok.lit]
    | with_reducible apply State.onWork_ok
    | with_reducible apply State.command_ok
    | with_reducible apply State.done_ok
    | with_reducible apply State.refuse_ok
    | with_reducible apply State.withBuf_ok
    | with_reducible apply Ok.ite
    | split

theorem execPort_ok {ql : List Instr} (h0 : CmdHdr) (p : Nat) (enable : Bool) (modeSel : Nat) {s : State} (h : Ok ql s) : OkR ql (execPort h0 p enable modeSel s) := by
  unfold execPort
  try dsimp only
  repeat' first
    | with_reducible assumption
    | with_reducible intro _
    | with_reducible apply State.enablePort_ok
    | with_reducible apply State.disablePort_ok
    | with_reducible apply State.writeMode_ok
    | with_reducible apply State.command_ok
    | with_reducible apply State.refuse_ok
    | with_reducible apply State.enableAnswer_ok
    | with_reducible apply Ok.ite

theorem State.undoRetire_ok {ql : List Instr} {s : State} (r : Retiring) (h : Ok ql s) : Ok ql (State.undoRetire s r) := by
  unfold State.undoRetire
  try dsimp only
  repeat' first
    | with_reducible assumption
    | with_reducible apply State.modSlice_ok
    | with_reducible apply State.modOuter_ok
    | with_reducible apply State.onCtl_ok
    | with_reducible apply Ok.ite

theorem State.timeOut_ok {ql : List Instr} {s : State} (c : Cmd) (h : Ok ql s) : Ok ql (State.timeOut s c).1 := by
  unfold State.timeOut
  try dsimp only
  repeat' first
    | with_reducible assumption
    | simp only [Ok.lit]
    | with_reducible apply State.onCtl_ok
    | with_reducible apply State.onFw_ok
    | with_reducible apply State.onIdent_ok
    | with_reducible apply State.discardEpoch_ok
    | with_reducible apply State.handBack_ok
    | with_reducible apply State.closeWindow_ok
    | with_reducible apply State.openFailed_ok
    | with_reducible apply State.undoRetire_ok
    | with_reducible apply Ok.ite
    | split
theorem State.timeOut_eq {ql : List Instr} {s : State} {c : Cmd} {x : _} {t : State} (h : Ok ql s) (e : State.timeOut s c = (t, x)) : Ok ql t := by
  have h9 := State.timeOut_ok c h
  rw [e] at h9; exact h9

theorem execCommandTimeout_ok {ql : List Instr} (h0 : CmdHdr) (applied : Bool) {s : State} (h : Ok ql s) : OkR ql (execCommandTimeout h0 applied s) := by
  unfold execCommandTimeout
  try dsimp only
  repeat' first
    | with_reducible assumption
    | with_reducible apply State.respond_ok
    | with_reducible apply State.timeOut_ok
    | with_reducible apply OkR.next
    | with_reducible apply OkR.ite
    | split

/-! ### What Machine/CmdSecurity keeps -/

theorem State.spend_ok {ql : List Instr} {s : State} (key : BitVec 512) (counter : Nat) (h : Ok ql s) : Ok ql (State.spend s key counter) := by
  unfold State.spend
  try dsimp only
  repeat' first
    | with_reducible assumption
    | with_reducible apply State.onIdent_ok

theorem State.freshKey_ok {ql : List Instr} {s : State} (key : BitVec 512) (h : Ok ql s) : Ok ql (State.freshKey s key) := by
  unfold State.freshKey
  try dsimp only
  repeat' first
    | with_reducible assumption
    | with_reducible apply State.onIdent_ok

theorem execOpenSession_ok {ql : List Instr} (h0 : CmdHdr) (b : BufRef) (o : SObj) {s : State} (h : Ok ql s) : OkR ql (execOpenSession h0 b o s) := by
  unfold execOpenSession
  try dsimp only
  repeat' first
    | with_reducible assumption
    | with_reducible intro _
    | simp only [Ok.lit]
    | with_reducible apply State.onIdent_ok
    | with_reducible apply State.command_ok
    | with_reducible apply State.withBuf_ok
    | with_reducible apply State.spend_ok
    | split

theorem execTakeOwnership_ok {ql : List Instr} (h0 : CmdHdr) (b : BufRef) (o : SObj) {s : State} (h : Ok ql s) : OkR ql (execTakeOwnership h0 b o s) := by
  unfold execTakeOwnership
  try dsimp only
  repeat' first
    | with_reducible assumption
    | with_reducible intro _
    | simp only [Ok.lit]
    | with_reducible apply State.onLife_ok
    | with_reducible apply State.onIdent_ok
    | with_reducible apply State.logEvent_ok
    | with_reducible apply State.command_ok
    | with_reducible apply State.withBuf_ok
    | with_reducible apply State.endSessions_ok
    | with_reducible apply State.spend_ok
    | with_reducible apply State.freshKey_ok
    | with_reducible apply Ok.ite
    | split

theorem execTenant_ok {ql : List Instr} (h0 : CmdHdr) (op : Nat) (b : BufRef) (o : SObj) {s : State} (h : Ok ql s) : OkR ql (execTenant h0 op b o s) := by
  unfold execTenant
  try dsimp only
  repeat' first
    | with_reducible assumption
    | with_reducible intro _
    | simp only [Ok.lit]
    | with_reducible apply State.onIdent_ok
    | with_reducible apply State.command_ok
    | with_reducible apply State.withBuf_ok
    | with_reducible apply State.endSessions_ok
    | with_reducible apply State.spend_ok
    | with_reducible apply State.freshKey_ok
    | split

theorem State.outSigned_ok {ql : List Instr} {s : State} (h0 : CmdHdr) (op : Nat) (b : BufRef) (bs : List Byte) (h : Ok ql s) : Ok ql (State.outSigned s h0 op b bs) := by
  unfold State.outSigned
  try dsimp only
  repeat' first
    | with_reducible assumption
    | with_reducible apply State.outBuf_ok
    | with_reducible apply State.countSigned_ok
    | with_reducible apply Ok.ite

theorem execGetQuote_ok {ql : List Instr} (h0 : CmdHdr) (nonce : BitVec 256) (b : BufRef) {s : State} (h : Ok ql s) : OkR ql (execGetQuote h0 nonce b s) := by
  unfold execGetQuote
  try dsimp only
  repeat' first
    | with_reducible assumption
    | with_reducible intro _
    | with_reducible apply State.command_ok
    | with_reducible apply State.outSigned_ok

theorem execGetConditionReport_ok {ql : List Instr} (h0 : CmdHdr) (b : BufRef) {s : State} (h : Ok ql s) : OkR ql (execGetConditionReport h0 b s) := by
  unfold execGetConditionReport
  try dsimp only
  repeat' first
    | with_reducible assumption
    | with_reducible intro _
    | with_reducible apply State.command_ok
    | with_reducible apply State.outSigned_ok

theorem execResetServiceCounters_ok {ql : List Instr} (h0 : CmdHdr) (b : BufRef) (o : SObj) {s : State} (h : Ok ql s) : OkR ql (execResetServiceCounters h0 b o s) := by
  unfold execResetServiceCounters
  try dsimp only
  repeat' first
    | with_reducible assumption
    | with_reducible intro _
    | simp only [Ok.lit]
    | with_reducible apply State.onHeat_ok
    | with_reducible apply State.onLife_ok
    | with_reducible apply State.logEvent_ok
    | with_reducible apply State.command_ok
    | with_reducible apply State.withBuf_ok
    | with_reducible apply State.writeBlock_ok
    | with_reducible apply State.spend_ok
    | split

theorem State.clearForCocoon_ok {ql : List Instr} {s : State} (keep : Nat) (h : Ok ql s) : Ok ql (State.clearForCocoon s keep) := by
  unfold State.clearForCocoon
  try dsimp only
  repeat' first
    | with_reducible assumption
    | with_reducible intro _
    | simp only [Ok.lit]
    | with_reducible apply State.onSvc_ok
    | with_reducible apply State.onNet_ok
    | with_reducible apply State.finishTask_ok
    | with_reducible apply State.dropWaves_ok
    | with_reducible apply State.discardEpoch_ok
    | with_reducible apply State.endStreams_ok
    | with_reducible apply State.sendAbort_ok
    | with_reducible apply State.closeQp_ok
    | with_reducible apply State.closeWindow_ok
    | with_reducible apply State.openFailed_ok
    | with_reducible apply Ok.foldl
    | with_reducible apply Ok.ite

theorem execEnterCocoon_ok {ql : List Instr} (h0 : CmdHdr) (b : BufRef) {s : State} (h : Ok ql s) : OkR ql (execEnterCocoon h0 b s) := by
  unfold execEnterCocoon
  try dsimp only
  repeat' first
    | with_reducible assumption
    | with_reducible intro _
    | simp only [Ok.lit]
    | with_reducible apply State.command_ok
    | with_reducible apply State.refuse_ok
    | with_reducible apply State.clearForCocoon_ok
    | with_reducible apply OkR.next
    | with_reducible apply OkR.ite
    | with_reducible apply Ok.ite
    | split

theorem execMacsecKey_ok {ql : List Instr} (h0 : CmdHdr) (port : Nat) (tx : Bool) (an : Nat) (sci : Dword) (ssci : Word) (b : BufRef) (unwrapOk : Bool) {s : State} (h : Ok ql s) : OkR ql (execMacsecKey h0 port tx an sci ssci b unwrapOk s) := by
  unfold execMacsecKey
  try dsimp only
  repeat' first
    | with_reducible assumption
    | with_reducible intro _
    | simp only [Ok.lit]
    | with_reducible apply State.modPort_ok
    | with_reducible apply State.command_ok
    | with_reducible apply State.withBuf_ok
    | split

theorem State.vacate_ok {ql : List Instr} {s : State} (r : Nat × Nat) (h : Ok ql s) : Ok ql (State.vacate s r) := by
  unfold State.vacate
  try dsimp only
  repeat' first
    | with_reducible assumption
    | with_reducible intro _
    | with_reducible apply State.relocate_ok
    | with_reducible apply OkOP.foldlBind
    | with_reducible apply OkOP.bind
    | with_reducible apply OkOP.map
    | with_reducible apply OkOP.mapS
    | with_reducible apply OkO.mapS
    | with_reducible apply OkO.mapP
    | with_reducible apply OkO.getD
    | with_reducible apply OkOP.some
    | with_reducible apply OkO.map
    | with_reducible apply OkOP.mapO
    | with_reducible apply OkO.foldlBind
    | with_reducible apply OkO.bind
    | with_reducible apply OkO.none
    | with_reducible apply OkO.some
    | with_reducible apply Ok.foldl
    | with_reducible apply Ok.foldlP
    | with_reducible apply Ok.ite
    | with_reducible refine OkO.elim ?_ (by with_reducible assumption)
    | with_reducible refine OkOP.elim ?_ (by with_reducible assumption)
    | with_reducible refine Ok.pairElim ?_ (by with_reducible assumption)
    | dsimp only
    | split

theorem execGuestFirewall_ok {ql : List Instr} (h0 : CmdHdr) (index base size mask rate : Nat) {s : State} (h : Ok ql s) : OkR ql (execGuestFirewall h0 index base size mask rate s) := by
  unfold execGuestFirewall
  try dsimp only
  repeat' first
    | with_reducible assumption
    | with_reducible intro _
    | simp only [Ok.lit]
    | with_reducible apply State.onIdent_ok
    | with_reducible apply State.command_ok
    | with_reducible apply State.done_ok
    | with_reducible apply State.refuse_ok
    | with_reducible apply State.vacate_ok
    | with_reducible apply OkR.next
    | with_reducible apply OkOP.foldlBind
    | with_reducible apply OkOP.bind
    | with_reducible apply OkOP.map
    | with_reducible apply OkOP.mapS
    | with_reducible apply OkO.mapS
    | with_reducible apply OkO.mapP
    | with_reducible apply OkO.getD
    | with_reducible apply OkOP.some
    | with_reducible apply OkO.map
    | with_reducible apply OkOP.mapO
    | with_reducible apply OkO.foldlBind
    | with_reducible apply OkO.bind
    | with_reducible apply OkO.none
    | with_reducible apply OkO.some
    | with_reducible apply Ok.foldl
    | with_reducible apply Ok.foldlP
    | with_reducible apply OkR.ite
    | with_reducible apply Ok.ite
    | with_reducible refine OkR.elim ?_ (by with_reducible assumption)
    | with_reducible refine OkO.elim ?_ (by with_reducible assumption)
    | with_reducible refine OkOP.elim ?_ (by with_reducible assumption)
    | with_reducible refine Ok.pairElim ?_ (by with_reducible assumption)
    | dsimp only
    | split

theorem execStageFirmware_ok {ql : List Instr} (h0 : CmdHdr) (b : BufRef) (info : BundleInfo) (readBackOk : Bool) {s : State} (h : Ok ql s) : OkR ql (execStageFirmware h0 b info readBackOk s) := by
  unfold execStageFirmware
  try dsimp only
  repeat' first
    | with_reducible assumption
    | with_reducible apply State.alert_ok
    | with_reducible intro _
    | simp only [Ok.lit]
    | with_reducible apply State.onFw_ok
    | with_reducible apply State.modSlot_ok
    | with_reducible apply State.command_ok
    | with_reducible apply State.refuse_ok
    | with_reducible apply State.withBuf_ok
    | with_reducible apply Ok.ite
    | split

theorem execActivateFirmware_ok {ql : List Instr} (h0 : CmdHdr) (digest : BitVec 512) {s : State} (h : Ok ql s) : OkR ql (execActivateFirmware h0 digest s) := by
  unfold execActivateFirmware
  try dsimp only
  repeat' first
    | with_reducible assumption
    | with_reducible intro _
    | with_reducible apply State.onFw_ok
    | with_reducible apply State.alert_ok
    | with_reducible apply State.respond_ok
    | with_reducible apply State.startActivation_ok
    | with_reducible apply State.command_ok
    | with_reducible apply State.done_ok
    | with_reducible apply State.refuse_ok
    | with_reducible apply Ok.ite
    | split

theorem execGetFirmware_ok {ql : List Instr} (h0 : CmdHdr) {s : State} (h : Ok ql s) : OkR ql (execGetFirmware h0 s) := by
  unfold execGetFirmware
  try dsimp only
  repeat' first
    | with_reducible assumption
    | with_reducible intro _
    | with_reducible apply State.command_ok
    | with_reducible apply State.done_ok

/-! ### What Machine/CmdWork keeps -/

theorem execSubmitProgram_ok {ql : List Instr} (h0 : CmdHdr) (b : BufRef) {s : State} (h : Ok ql s) : OkR ql (execSubmitProgram h0 b s) := by
  unfold execSubmitProgram
  try dsimp only
  repeat' first
    | with_reducible assumption
    | with_reducible intro _
    | simp only [Ok.lit]
    | with_reducible apply State.onWork_ok
    | with_reducible apply State.command_ok
    | with_reducible apply State.withBuf_ok
    | split

theorem execRemoveProgram_ok {ql : List Instr} (h0 : CmdHdr) (slot : Nat) {s : State} (h : Ok ql s) : OkR ql (execRemoveProgram h0 slot s) := by
  unfold execRemoveProgram
  try dsimp only
  repeat' first
    | with_reducible assumption
    | with_reducible intro _
    | with_reducible apply State.onWork_ok
    | with_reducible apply State.command_ok
    | with_reducible apply State.done_ok
    | with_reducible apply State.refuse_ok
    | with_reducible apply Ok.ite

theorem execRegisterModel_ok {ql : List Instr} (h0 : CmdHdr) (r : ModelRec) {s : State} (h : Ok ql s) : OkR ql (execRegisterModel h0 r s) := by
  unfold execRegisterModel
  try dsimp only
  repeat' first
    | with_reducible assumption
    | with_reducible intro _
    | with_reducible apply State.onSvc_ok
    | with_reducible apply State.command_ok
    | with_reducible apply State.done_ok
    | with_reducible apply State.refuse_ok
    | with_reducible apply Ok.ite
    | split

theorem execRemoveModel_ok {ql : List Instr} (h0 : CmdHdr) (model : Nat) {s : State} (h : Ok ql s) : OkR ql (execRemoveModel h0 model s) := by
  unfold execRemoveModel
  try dsimp only
  repeat' first
    | with_reducible assumption
    | with_reducible intro _
    | with_reducible apply State.dropModel_ok
    | with_reducible apply State.modModel_ok
    | with_reducible apply State.command_ok
    | with_reducible apply State.done_ok
    | with_reducible apply State.refuse_ok
    | with_reducible apply Ok.ite

theorem execSetResidency_ok {ql : List Instr} (h0 : CmdHdr) (model : Nat) (cls : Nat) (weight : Nat) {s : State} (h : Ok ql s) : OkR ql (execSetResidency h0 model cls weight s) := by
  unfold execSetResidency
  try dsimp only
  repeat' first
    | with_reducible assumption
    | with_reducible intro _
    | simp only [Ok.lit]
    | with_reducible apply State.modModel_ok
    | with_reducible apply State.demote_ok
    | with_reducible apply State.promote_ok
    | with_reducible apply State.dropWeights_ok
    | with_reducible apply State.command_ok
    | with_reducible apply State.done_ok
    | with_reducible apply State.refuse_ok
    | with_reducible apply OkR.next
    | with_reducible apply OkOP.foldlBind
    | with_reducible apply OkOP.bind
    | with_reducible apply OkOP.map
    | with_reducible apply OkOP.mapS
    | with_reducible apply OkO.mapS
    | with_reducible apply OkO.mapP
    | with_reducible apply OkO.getD
    | with_reducible apply OkOP.some
    | with_reducible apply OkO.map
    | with_reducible apply OkOP.mapO
    | with_reducible apply OkO.foldlBind
    | with_reducible apply OkO.bind
    | with_reducible apply OkO.none
    | with_reducible apply OkO.some
    | with_reducible apply Ok.foldl
    | with_reducible apply Ok.foldlP
    | with_reducible apply OkR.ite
    | with_reducible apply Ok.ite
    | with_reducible refine OkR.elim ?_ (by with_reducible assumption)
    | with_reducible refine OkO.elim ?_ (by with_reducible assumption)
    | with_reducible refine OkOP.elim ?_ (by with_reducible assumption)
    | with_reducible refine Ok.pairElim ?_ (by with_reducible assumption)
    | dsimp only
    | split

theorem execRegisterAdapter_ok {ql : List Instr} (h0 : CmdHdr) (r : AdapterRec) {s : State} (h : Ok ql s) : OkR ql (execRegisterAdapter h0 r s) := by
  unfold execRegisterAdapter
  try dsimp only
  repeat' first
    | with_reducible assumption
    | with_reducible intro _
    | simp only [Ok.lit]
    | with_reducible apply State.onSvc_ok
    | with_reducible apply State.writeImage_ok
    | with_reducible apply State.command_ok
    | with_reducible apply State.done_ok
    | with_reducible apply State.refuse_ok
    | with_reducible apply OkR.next
    | with_reducible apply OkOP.foldlBind
    | with_reducible apply OkOP.bind
    | with_reducible apply OkOP.map
    | with_reducible apply OkOP.mapS
    | with_reducible apply OkO.mapS
    | with_reducible apply OkO.mapP
    | with_reducible apply OkO.getD
    | with_reducible apply OkOP.some
    | with_reducible apply OkO.map
    | with_reducible apply OkOP.mapO
    | with_reducible apply OkO.foldlBind
    | with_reducible apply OkO.bind
    | with_reducible apply OkO.none
    | with_reducible apply OkO.some
    | with_reducible apply Ok.foldl
    | with_reducible apply Ok.foldlP
    | with_reducible apply OkR.ite
    | with_reducible apply Ok.ite
    | with_reducible refine OkR.elim ?_ (by with_reducible assumption)
    | with_reducible refine OkO.elim ?_ (by with_reducible assumption)
    | with_reducible refine OkOP.elim ?_ (by with_reducible assumption)
    | with_reducible refine Ok.pairElim ?_ (by with_reducible assumption)
    | dsimp only
    | split

theorem execRemoveAdapter_ok {ql : List Instr} (h0 : CmdHdr) (adapter : Nat) {s : State} (h : Ok ql s) : OkR ql (execRemoveAdapter h0 adapter s) := by
  unfold execRemoveAdapter
  try dsimp only
  repeat' first
    | with_reducible assumption
    | with_reducible intro _
    | simp only [Ok.lit]
    | with_reducible apply State.onSvc_ok
    | with_reducible apply State.dropAdapter_ok
    | with_reducible apply State.command_ok
    | with_reducible apply State.done_ok
    | with_reducible apply State.refuse_ok
    | with_reducible apply OkR.next
    | with_reducible apply OkOP.foldlBind
    | with_reducible apply OkOP.bind
    | with_reducible apply OkOP.map
    | with_reducible apply OkOP.mapS
    | with_reducible apply OkO.mapS
    | with_reducible apply OkO.mapP
    | with_reducible apply OkO.getD
    | with_reducible apply OkOP.some
    | with_reducible apply OkO.map
    | with_reducible apply OkOP.mapO
    | with_reducible apply OkO.foldlBind
    | with_reducible apply OkO.bind
    | with_reducible apply OkO.none
    | with_reducible apply OkO.some
    | with_reducible apply Ok.foldl
    | with_reducible apply Ok.foldlP
    | with_reducible apply OkR.ite
    | with_reducible apply Ok.ite
    | with_reducible refine OkR.elim ?_ (by with_reducible assumption)
    | with_reducible refine OkO.elim ?_ (by with_reducible assumption)
    | with_reducible refine OkOP.elim ?_ (by with_reducible assumption)
    | with_reducible refine Ok.pairElim ?_ (by with_reducible assumption)
    | dsimp only
    | split

theorem execPrefix_ok {ql : List Instr} (h0 : CmdHdr) (op : Nat) (model : Nat) (id : Nat) (b : BufRef) {s : State} (h : Ok ql s) : OkR ql (execPrefix h0 op model id b s) := by
  unfold execPrefix
  try dsimp only
  repeat' first
    | with_reducible assumption
    | with_reducible intro _
    | simp only [Ok.lit]
    | with_reducible apply State.onSvc_ok
    | with_reducible apply State.dropPage_ok
    | with_reducible apply State.growTable_ok
    | with_reducible apply State.placePools_ok
    | with_reducible apply State.command_ok
    | with_reducible apply State.done_ok
    | with_reducible apply State.refuse_ok
    | with_reducible apply State.withBuf_ok
    | with_reducible apply OkR.next
    | with_reducible refine State.growTable_eq ?_ (by with_reducible assumption)
    | with_reducible refine State.placePools_eq ?_ (by with_reducible assumption)
    | with_reducible apply OkOP.foldlBind
    | with_reducible apply OkOP.bind
    | with_reducible apply OkOP.map
    | with_reducible apply OkOP.mapS
    | with_reducible apply OkO.mapS
    | with_reducible apply OkO.mapP
    | with_reducible apply OkO.getD
    | with_reducible apply OkOP.some
    | with_reducible apply OkO.map
    | with_reducible apply OkOP.mapO
    | with_reducible apply OkO.foldlBind
    | with_reducible apply OkO.bind
    | with_reducible apply OkO.none
    | with_reducible apply OkO.some
    | with_reducible apply Ok.foldl
    | with_reducible apply Ok.foldlP
    | with_reducible apply OkR.ite
    | with_reducible apply Ok.ite
    | with_reducible refine OkR.elim ?_ (by with_reducible assumption)
    | with_reducible refine OkO.elim ?_ (by with_reducible assumption)
    | with_reducible refine OkOP.elim ?_ (by with_reducible assumption)
    | with_reducible refine Ok.pairElim ?_ (by with_reducible assumption)
    | dsimp only
    | split

theorem execRegisterTokeniser_ok {ql : List Instr} (h0 : CmdHdr) (slot : Nat) (b : BufRef) (splitMode : Nat) (vocab : List (List Byte)) (merges : List (Nat × Nat)) {s : State} (h : Ok ql s) : OkR ql (execRegisterTokeniser h0 slot b splitMode vocab merges s) := by
  unfold execRegisterTokeniser
  try dsimp only
  repeat' first
    | with_reducible assumption
    | with_reducible intro _
    | simp only [Ok.lit]
    | with_reducible apply State.onSvc_ok
    | with_reducible apply State.command_ok
    | with_reducible apply State.withBuf_ok
    | split

theorem execFinetune_ok {ql : List Instr} (h0 : CmdHdr) (op : Nat) (adapter : Nat) (job : FtJob) (b : BufRef) {s : State} (h : Ok ql s) : OkR ql (execFinetune h0 op adapter job b s) := by
  unfold execFinetune
  try dsimp only
  repeat' first
    | with_reducible assumption
    | with_reducible intro _
    | simp only [Ok.lit]
    | with_reducible apply State.onSvc_ok
    | with_reducible apply State.draw_ok
    | with_reducible apply State.command_ok
    | with_reducible apply State.done_ok
    | with_reducible apply State.refuse_ok
    | with_reducible apply State.withBuf_ok
    | with_reducible apply State.outBuf_ok
    | with_reducible apply Ok.ite
    | split

theorem execServiceSet_ok {ql : List Instr} (h0 : CmdHdr) (op : Nat) (set : Nat) (service : Dword) (port : Nat) (pfx : BitVec 128) (pfxLen : Nat) (qps : Nat) {s : State} (h : Ok ql s) : OkR ql (execServiceSet h0 op set service port pfx pfxLen qps s) := by
  unfold execServiceSet
  try dsimp only
  repeat' first
    | with_reducible assumption
    | with_reducible intro _
    | with_reducible apply State.onSvc_ok
    | with_reducible apply State.onNet_ok
    | with_reducible apply State.inboxUpdate_ok
    | with_reducible apply State.onChannel_ok
    | with_reducible apply State.endStreams_ok
    | with_reducible apply State.command_ok
    | with_reducible apply State.done_ok
    | with_reducible apply State.refuse_ok
    | with_reducible apply State.closeQp_ok
    | with_reducible apply Ok.foldl
    | with_reducible apply Ok.ite
    | split

theorem execGetService_ok {ql : List Instr} (h0 : CmdHdr) (set : Nat) {s : State} (h : Ok ql s) : OkR ql (execGetService h0 set s) := by
  unfold execGetService
  try dsimp only
  repeat' first
    | with_reducible assumption
    | with_reducible intro _
    | with_reducible apply State.command_ok
    | with_reducible apply State.done_ok
    | with_reducible apply State.refuse_ok
    | with_reducible apply Ok.ite

theorem execSubmitTask_ok {ql : List Instr} (h0 : CmdHdr) (d : TaskDesc) {s : State} (h : Ok ql s) : OkR ql (execSubmitTask h0 d s) := by
  unfold execSubmitTask
  try dsimp only
  repeat' first
    | with_reducible assumption
    | with_reducible intro _
    | with_reducible apply State.admitTask_ok
    | with_reducible apply State.command_ok
    | with_reducible apply State.done_ok
    | with_reducible apply State.refuse_ok
    | with_reducible apply Ok.ite

theorem State.cancelTask_ok {ql : List Instr} {s : State} (t0 : Task) (h : Ok ql s) : Ok ql (State.cancelTask s t0) := by
  unfold State.cancelTask
  try dsimp only
  repeat' first
    | with_reducible assumption
    | with_reducible apply State.modTask_ok
    | with_reducible apply State.finishTask_ok
    | with_reducible apply State.settle_ok
    | with_reducible apply State.endIfDone_ok
    | with_reducible apply State.doom_ok
    | with_reducible apply Ok.ite

theorem execCancelTask_ok {ql : List Instr} (h0 : CmdHdr) (task : Nat) {s : State} (h : Ok ql s) : OkR ql (execCancelTask h0 task s) := by
  unfold execCancelTask
  try dsimp only
  repeat' first
    | with_reducible assumption
    | with_reducible intro _
    | with_reducible apply State.respond_ok
    | with_reducible apply State.command_ok
    | with_reducible apply State.refuse_ok
    | with_reducible apply State.cancelTask_ok
    | split

theorem execGetTaskState_ok {ql : List Instr} (h0 : CmdHdr) (task : Nat) {s : State} (h : Ok ql s) : OkR ql (execGetTaskState h0 task s) := by
  unfold execGetTaskState
  try dsimp only
  repeat' first
    | with_reducible assumption
    | with_reducible intro _
    | with_reducible apply State.command_ok
    | with_reducible apply State.done_ok
    | with_reducible apply State.refuse_ok
    | split

theorem execOpenEpoch_ok {ql : List Instr} (h0 : CmdHdr) {s : State} (h : Ok ql s) : OkR ql (execOpenEpoch h0 s) := by
  unfold execOpenEpoch
  try dsimp only
  repeat' first
    | with_reducible assumption
    | with_reducible intro _
    | with_reducible apply State.command_ok
    | with_reducible apply State.done_ok
    | with_reducible apply State.refuse_ok
    | with_reducible refine State.openEpoch_eq ?_ (by with_reducible assumption)
    | split

theorem execCommit_ok {ql : List Instr} (h0 : CmdHdr) (epoch : Nat) (entries : List CommitEntry) {s : State} (h : Ok ql s) : OkR ql (execCommit h0 epoch entries s) := by
  unfold execCommit
  try dsimp only
  repeat' first
    | with_reducible assumption
    | with_reducible intro _
    | with_reducible apply State.onWork_ok
    | with_reducible apply State.settle_ok
    | with_reducible apply State.discardEpoch_ok
    | with_reducible apply State.commitAdmit_ok
    | with_reducible apply State.command_ok
    | with_reducible apply State.refuse_ok
    | with_reducible apply Ok.ite
    | split

theorem execDiscard_ok {ql : List Instr} (h0 : CmdHdr) (epoch : Nat) {s : State} (h : Ok ql s) : OkR ql (execDiscard h0 epoch s) := by
  unfold execDiscard
  try dsimp only
  repeat' first
    | with_reducible assumption
    | with_reducible intro _
    | with_reducible apply State.discardEpoch_ok
    | with_reducible apply State.command_ok
    | with_reducible apply State.done_ok
    | with_reducible apply State.refuse_ok
    | split

theorem execSetReady_ok {ql : List Instr} (h0 : CmdHdr) (t0 : Handle) {s : State} (h : Ok ql s) : OkR ql (execSetReady h0 t0 s) := by
  unfold execSetReady
  try dsimp only
  repeat' first
    | with_reducible assumption
    | with_reducible intro _
    | with_reducible apply State.onWork_ok
    | with_reducible apply State.settle_ok
    | with_reducible apply State.command_ok
    | with_reducible apply State.done_ok
    | with_reducible apply State.refuse_ok
    | with_reducible apply Ok.ite

theorem execSubmitCollective_ok {ql : List Instr} (h0 : CmdHdr) (d : CollDesc) {s : State} (h : Ok ql s) : OkR ql (execSubmitCollective h0 d s) := by
  unfold execSubmitCollective
  try dsimp only
  repeat' first
    | with_reducible assumption
    | with_reducible intro _
    | with_reducible apply State.admitColl_ok
    | with_reducible apply State.command_ok
    | with_reducible apply State.done_ok
    | with_reducible apply State.refuse_ok
    | with_reducible apply Ok.ite

end Sys2Proof.Machine
end

