-- ==== Sys2Proof/Machine/Silk.lean ====
section
/-!
DEFINITION. The silk network (R328, R331 to R333, R345): where units attach to the routers of a die, and the routers that a packet
passes. A router bears the number of its cluster; the hub is node 512.
-/

namespace Sys2Proof.Machine

/-- A router by its die and mesh position (R9, R328). -/
def routerAt (d x y : Nat) : Nat := 128 * d + 16 * y + x
def meshX (r : Nat) : Nat := r % 16
def meshY (r : Nat) : Nat := r / 16 % 8

/-- The column of the edge toward the die of the same row, and the row of the edge toward the hub (R24, R331). -/
def rowNeighbourX (d : Nat) : Nat := if d % 2 = 0 then 15 else 0
def hubFacingY (d : Nat) : Nat := if d < 2 then 7 else 0
/-- The dies across the east–west and the north–south port (R25). -/
def eastWestDie (d : Nat) : Nat := if d % 2 = 0 then d + 1 else d - 1
def northSouthDie (d : Nat) : Nat := (d + 2) % 4

/-- The sides of a die. -/
inductive Side where
  | north | east | south | west
  deriving DecidableEq, Repr

/-- The router at a position of a side: from the west end of a row edge, from the north end of a column edge. -/
def Side.router (e : Side) (d p : Nat) : Nat :=
  match e with
  | .north => routerAt d p 0
  | .south => routerAt d p 7
  | .west => routerAt d 0 p
  | .east => routerAt d 15 p

/-- A column edge. -/
def Side.column : Side → Bool
  | .east | .west => true
  | .north | .south => false

/-- An outer edge of a die with its packages, the one nearer the west or north end first, and its Lysdel link (R23, R24). -/
structure OuterEdge where
  die  : Nat
  side : Side
  oms  : List Nat
  link : Nat
  deriving DecidableEq, Repr

def outerEdges : List OuterEdge :=
  [⟨0, .west, [0], 0⟩, ⟨0, .north, [1, 2], 1⟩, ⟨1, .north, [3], 2⟩, ⟨1, .east, [4, 5], 3⟩,
   ⟨2, .south, [6], 4⟩, ⟨2, .west, [8, 7], 5⟩, ⟨3, .east, [9], 6⟩, ⟨3, .south, [11, 10], 7⟩]

/-- Positions of the controllers of an edge's packages, first and second, and of its link controller (R331). -/
def OuterEdge.omPositions (e : OuterEdge) (second : Bool) : List Nat :=
  if e.oms.length = 1 then (if e.side.column then [2, 3] else [4, 5])
  else if e.side.column then (if second then [5, 6] else [1, 2])
  else if second then [12, 13] else [2, 3]
def OuterEdge.linkPosition (e : OuterEdge) : Nat :=
  if e.oms.length = 1 then (if e.side.column then 6 else 11) else if e.side.column then 4 else 8

/-- Units that reach silk through an edge link or an extra port of a router (R331). -/
inductive SilkUnit where
  | eastWest (die : Nat) | northSouth (die : Nat) | hubPort (die : Nat) | outer (m : Nat) | link (l : Nat) | dispatcher (die : Nat)
  | reduction (die : Nat)
  deriving DecidableEq, Repr

/-- The routers at which a unit attaches (R331). -/
def SilkUnit.attach : SilkUnit → List Nat
  | .eastWest d => (List.range 8).map (routerAt d (rowNeighbourX d))
  | .hubPort d => [7, 8].map fun x => routerAt d x (hubFacingY d)
  | .northSouth d => [2, 5, 10, 13].map fun x => routerAt d x (hubFacingY d)
  | .outer m => match outerEdges.find? fun e => e.oms.contains m with
    | some e => (e.omPositions (e.oms.head? != some m)).map (e.side.router e.die)
    | none => []
  | .link l => match outerEdges.find? fun e => e.link == l with
    | some e => [e.side.router e.die e.linkPosition]
    | none => []
  | .dispatcher d => [routerAt d 7 3]
  | .reduction d => [routerAt d 8 4]

/-- The numbers from one coordinate to another, both included. -/
def steps (a b : Nat) : List Nat := if a ≤ b then (List.range (b - a + 1)).map (a + ·) else (List.range (a - b + 1)).map (a - ·)

/-- The routers between two on a die: along the row, then along the column (R332). -/
def onDie (a b : Nat) : List Nat :=
  let d := a / 128
  (steps (meshX a) (meshX b)).map (fun x => routerAt d x (meshY a)) ++
    ((steps (meshY a) (meshY b)).drop 1).map fun y => routerAt d (meshX b) y

/-- The attach column of the north–south port nearest a column, the lower on a tie (R333). -/
def nearestNS (x : Nat) : Nat :=
  [2, 5, 10, 13].foldl (fun b c => if (max c x - min c x) < (max b x - min b x) then c else b) 2

/-- From a router across the east–west port: the routers up to the port, and the one reached beyond (R333). -/
def crossEW (a : Nat) : List Nat × Nat :=
  let d := a / 128
  (onDie a (routerAt d (rowNeighbourX d) (meshY a)), routerAt (eastWestDie d) (rowNeighbourX (eastWestDie d)) (meshY a))
/-- From a router across the north–south port (R333). -/
def crossNS (a : Nat) : List Nat × Nat :=
  let d := a / 128
  let x := nearestNS (meshX a)
  (onDie a (routerAt d x (hubFacingY d)), routerAt (northSouthDie d) x (hubFacingY (northSouthDie d)))

/-- The routers that a packet passes from router `a` to router `b`, with the order of the two crossings between diagonally opposite dies
(R332, R333). -/
def silkRoute (nsFirst : Bool) (a b : Nat) : List Nat :=
  let d := a / 128
  let e := b / 128
  if d = e then onDie a b
  else if e = eastWestDie d then (crossEW a).1 ++ onDie (crossEW a).2 b
  else if e = northSouthDie d then (crossNS a).1 ++ onDie (crossNS a).2 b
  else
    let one := if nsFirst then crossNS a else crossEW a
    let two := if nsFirst then crossEW one.2 else crossNS one.2
    one.1 ++ two.1 ++ onDie two.2 b

/-- The attach column of the hub port for a column (R333). -/
def hubColumn (x : Nat) : Nat := if x ≤ 7 then 7 else 8
/-- The routers from a router to the hub, and from the hub to a router (R333). -/
def routeToHub (a : Nat) : List Nat := onDie a (routerAt (a / 128) (hubColumn (meshX a)) (hubFacingY (a / 128)))
def routeFromHub (b : Nat) : List Nat := onDie (routerAt (b / 128) (hubColumn (meshX b)) (hubFacingY (b / 128))) b

/-- The link bit of a router toward a neighbour of its die, in the order of R357: north 3, east 2, south 1, west 0. -/
def linkBit (a b : Nat) : Nat := if meshY b < meshY a then 3 else if meshX a < meshX b then 2 else if meshY a < meshY b then 1 else 0

/-- The bit of the edge link by which a route leaves die `d` for die `e`. -/
def edgeBit (d e : Nat) : Nat := if e = eastWestDie d then (if d % 2 = 0 then 2 else 0) else if d < 2 then 1 else 3

/-- A silk link of a route has failed, or the route crosses a die out of service (R333, R344, R345). -/
def State.routeBroken (s : State) (p : List Nat) : Bool :=
  p.any (fun r => s.deadDies.contains (r / 128)) ||
    (p.zip (p.drop 1)).any fun x =>
      let bit (a b : Nat) : Nat := if a / 128 = b / 128 then linkBit a b else edgeBit (a / 128) (b / 128)
      (s.cluster x.1).linkFailed.getLsbD (bit x.1 x.2) || (s.cluster x.2).linkFailed.getLsbD (bit x.2 x.1)

/-- The route of a packet: between diagonally opposite dies the other order where the first is broken (R333). -/
def State.route (s : State) (a b : Nat) : List Nat :=
  let p := silkRoute false a b
  if a / 128 + b / 128 = 3 ∧ s.routeBroken p then silkRoute true a b else p

end Sys2Proof.Machine
end

