-- ==== Sys2Proof/WellFormed.lean ====
section
/-!
DEFINITION. Which commands name units the device has: core IDs of 15 bits (R8), cluster domains CD0 to CD511 (R9), links,
ports, packages and the other units by the numbers of "Numbering" (00) and of their chapters. A mailbox command is
well-formed whatever its arguments: an argument out of range is answered BAD_ARG (R17).
-/

namespace Sys2Proof

/-- The command names units that exist. -/
def Instr.wf : Instr → Bool
  | .nop c _ | .endKernel c _ | .loop c _ | .waitq c _ | .waitqRelease c | .drain c _ | .drainRelease c
  | .bara c _ | .barw c _ | .rdreg c _ | .pmark c _ | .chain c _ | .chainCycleZero c _ | .aclr c _
  | .cmma c _ | .ccvt c _ | .accst c _ | .accld c _ | .vadd c _ | .vsub c _ | .vmul c _ | .vfma c _
  | .vmax c _ | .vmin c _ | .vcvt c _ | .vcopy c _ | .vcmpgt c _ | .vexp c _ | .vlog c _ | .vrcp c _
  | .vrsqrt c _ | .vtanh c _ | .verf c _ | .rowmax c _ | .rowsum c _ | .rowsumsq c _ | .viadd c _
  | .vimul c _ | .vishr c _ | .viand c _ | .vimin c _ | .accadd c _ | .vrand c _ | .mload c _ | .mstore c _
  | .gload c _ | .gscat c _ | .gpage c _ | .sequencerStallRelease c | .scoreboardRelease c _
  | .watchEntryFree c _ | .engineInstrComplete c _ | .instrTimeLimit c _ | .imemLoadDone c | .imemArm c
  | .imemDisarm c | .retryReissue c _ | .correctedWriteBack c _ | .scrubBurst c | .spareCopyDone c _
  | .busyReissue c _ | .resettingReissue c _ | .engineGateClose c _ | .sliceBurstComplete c _ => c < 32768
  | .barrierRelease _ cd _ _ | .waveStart _ cd | .loadRaiseWithdraw cd | .dispatcherHeartbeat cd
  | .heartbeatTimeout cd | .resettingAnswerTimeout cd | .clusterRelease cd | .dividerRampStep cd
  | .droop cd _ _ | .domainBudgetGrant cd _ _ | .rampStep cd | .clusterGateIdle cd | .repairRequest cd _
  | .repairRoundTimeout cd | .clusterFence cd _ _ => cd < 512
  | .externalScratchAccess _ _ _ _ | .taskFire _ | .completionToken _ _ _ _ | .taskTimeLimit _
  | .shadowCopyDone _ | .commitAct _ | .placerRecompute _ | .shardMove _ _ _ | .replicaCreate _ _ _
  | .residencyRank | .sliceBurstRequest _ _ _ _ | .scrubAge _ _ | .sliceFill | .checkerSelftest _ _
  | .pageEmptied _ _ _ | .retirementTableWrite | .outerBlockRequest _ _ _ _ _ | .outerFill | .passForm _
  | .fillWaitExpiry _ | .passCommit _ _ | .contextIdleTimeout _ | .modelFetch _ _ | .modelStage _
  | .adapterStage _ _ | .finetuneStep _ _ _ | .packetForward _ _ _ | .collChunkTimeout _ _ _
  | .earlyChunkResend _ _ _ | .collTimeLimit _ | .pllLock | .commandFetch | .responseWrite | .i2cGo
  | .i2cWriteTransaction _ | .i2cReadTransaction _ _ | .alertClear _ | .alertMaskWrite _ | .lysIdWrite _
  | .registerWrite _ _ _ | .telemetryRewrite | .commandTimeout _ _ | .stagingEraseDone | .feedSwitchover
  | .rstNAssert | .rstNRelease | .sag _ | .sagRecordDone _ | .orNodeLow | .firstStageStop | .firstStageStart
  | .powerMeasure _ _ _ _ | .capControlPeriod _ _ | .fastLimit _ | .fastLimitRelease _ | .sustainedOver _
  | .flowCompute _ _ | .lowFlowLeave | .coolantAbsent | .flowProbe _ | .romEntry _ | .bundleHash _
  | .poweringDone _ | .guestAbsent | .trainingDone _ _ | .fillDone | .coreSelftest _ _ | .broadcastStart _
  | .eclosion | .lastGaspCopy _ | .watchdogExpiry _ | .procRestartDone _ | .liveSwitchStep _
  | .emergencyClear | .rollback | .svnAdvance | .wavesStopped | .resetSelftestDone _ | .deviceErrorReset _
  | .errorRecordWrite _ _ _ | .serviceLifeCopy _ | .counterBlockWrite | .guestRequest _ _ _ _ _
  | .cocoonWipeDone _ _ _ | .cocoonFlashDone | .wipeCertificate | .sessionLifetimeEnd _ | .resetDelayExpiry
  | .phaseEmergencyEnd | .reportedFault _ | .housekeepingSupplyUp => true
  | .imemLoad c bank _ _ _ => c < 32768 && bank < 2
  | .sliceRefresh stack quadrant layer => stack < 4 && quadrant < 4 && layer < 4
  | .creditReturn m _ | .outerSend m | .outerWindowAge m _ | .outerParityNak m _ | .holdAssert m
  | .holdRelease m | .outerReadData m _ _ _ _ _ | .outerRequestTimeout m _ | .dieWriteBack m _
  | .outerRefresh m _ _ _ | .postponedRefresh m _ _ | .outerScrub m | .outerSpareCopyDone m _
  | .outerBusRetrain m _ | .proboscisStart m | .rotationWindow m | .activeMaxWrite m _
  | .outerWriteAcknowledge m _ _ => m < 12
  | .proboscisSubmit m prt _ _ _ | .proboscisPublish m prt | .proboscisTimeout m prt => m < 12 && prt < 1024
  | .request qp _ | .requestContinuation qp _ | .cancel qp _ | .credit qp _ _ | .close qp _
  | .unknownRecord qp _ | .tokenise qp _ | .streamWrite qp _ _ | .creditTimeout qp _ | .send qp _
  | .rdmaWrite qp _ _ _ | .rdmaRead qp _ _ _ | .rdmaReadResponse qp _ | .ackTimeout qp | .heldRequestRetry qp
  | .holdLimitExpiry qp | .cnpSend qp | .cnp qp | .rateRecoveryStep qp | .rtu qp | .dreq qp | .drep qp
  | .rej qp | .rtuTimeout qp | .deviceReqTimeout qp | .cmdTailWrite qp _ | .rspHeadWrite qp _
  | .ringReset _ qp | .rdmaAcknowledgement qp _ => qp < 16384
  | .flitCrcReplay cd dir => cd < 512 && dir < 4
  | .channelOpenRequest ep i _ | .channelGrant ep i | .channelWord ep i _ _ _ _ | .channelWordRead ep i
  | .flush ep i | .packetAbort ep i _ | .chnCfgWrite ep i _ => ep < 262144 && i < 64
  | .linkFrameRx l _ _ _ | .fcbRx l _ | .flitRx l _ | .crcNak l _ | .protocolNak l _ | .replayTimeout l
  | .linkAttemptStart l | .deskewDone l _ _ | .mgmtId l _ _ _ _ _ | .attemptTimeout l | .attemptRetryTimer l
  | .mismatchRetry l | .linkLeaveUp l | .linkRetrain l | .linkDisable l | .linkEnable l | .linkDrainEnd l
  | .linkQuarantine l | .backoffEnd l | .backoffRelax l | .read l _ | .write l _ | .instarQ l _
  | .readData l _ | .writeAck l _ | .instarA l _ | .nak l _ | .collData l _ | .collAck l _ | .collAbort l _
  | .mgmtRoute l _ => l < 8
  | .partnerDetected l lanes => l < 8 && lanes < 256
  | .equaliseDone l goodRx goodTx => l < 8 && goodRx < 256 && goodTx < 256
  | .remoteAttemptTimeout die _ | .chunkWrite die _ _ => die < 4
  | .portEnable p | .portDisable p | .portDrainEnd p | .modeSelWrite p _ | .pfcMaskWrite p _ | .portUp p
  | .portFault p _ _ | .ethFrameRx p _ | .addressProbe p _ _ | .dhcpRenew p _ | .dhcpRebind p _
  | .leaseExpiry p _ | .arp p _ _ _ | .neighbourSolicitation p _ | .routerAdvertisement p _ | .echo p _ _
  | .req p _ | .dhcpReply p _ _ _ _ | .arpReply p _ _ | .neighbourAdvertisement p _ => p < 4
  | .pfcRepeat p prio | .pfcXon p prio _ | .pfcFrameRx p prio _ | .ethPfcStorm p prio | .frameTx p prio _
  | .pauseTimeExpiry p prio | .stormIgnoreEnd p prio => p < 4 && prio < 8
  | .rep p qp _ _ => p < 4 && qp < 16384
  | .clockOffer candidate | .clockWithdraw candidate | .candidateStable candidate => (1 ≤ candidate && candidate ≤ 9)
  | .feedInRange f | .feedOutOfRange f | .feedOvervoltage f | .feedReconnect f | .feedMateOpen f
  | .feedReturn f => f < 2
  | .phaseFail cd phase => cd < 512 && phase < 6
  | .thermalZoneSample zone _ => zone < 29
  | .fastRise channel | .thermalTrip channel => channel < 160
  | .stackRestart stack | .rthMeasure stack _ _ _ _ _ _ => stack < 4
  | .getInfo _ | .computeReset _ _ _ | .deviceReset _ | .config _ _ _ _ | .openSession _ _ _
  | .submitProgram _ _ | .removeProgram _ _ | .registerModel _ _ | .removeModel _ _ | .setResidency _ _ _ _
  | .registerAdapter _ _ | .removeAdapter _ _ | .prefix_ _ _ _ _ _ | .registerTokeniser _ _ _ _ _ _
  | .finetune _ _ _ _ _ | .serviceSet _ _ _ _ _ _ _ _ | .getService _ _ | .submitTask _ _ | .cancelTask _ _
  | .getTaskState _ _ | .openEpoch _ | .commit _ _ _ | .discard _ _ | .setReady _ _ | .submitCollective _ _
  | .window _ _ _ _ _ _ _ _ _ | .region _ _ _ _ _ _ _ _ | .retire _ _ _ _ _ | .unitRegs _ _ _ _ _
  | .exportWindow _ _ _ _ _ _ | .setPowerCap _ _ | .setProboscis _ _ _ | .domain _ _ _ _ | .getPower _
  | .getThermal _ _ | .getRth _ _ | .stageFirmware _ _ _ _ | .activateFirmware _ _ | .getFirmware _
  | .takeOwnership _ _ _ | .tenant _ _ _ _ | .getQuote _ _ _ | .enterCocoon _ _ | .getConditionReport _ _
  | .resetServiceCounters _ _ _ | .macsecKey _ _ _ _ _ _ _ _ | .guestFirewall _ _ _ _ _ _
  | .getErrorLog _ _ _ _ | .injectError _ _ _ _ _ | .link _ _ _ _ _ | .setLysId _ _ _ _ | .writeRoutes _ _
  | .group _ _ _ _ | .port _ _ _ _ => true

end Sys2Proof
end

