-- ==== Sys2Proof/Tests/Slice0.lean ====
section
/-!
SUPPORT. The model's own tests. A theorem `test_<Statement>_hyps` shows, clause by clause, a concrete state and operands that
meet the hypotheses of that statement; the others check an ill-formed command or one step against a value the spec gives.
-/

namespace Sys2Proof.Tests
open Sys2Proof Sys2Proof.Machine

/-! ### Ill-formed commands -/

/-- A core number beyond 15 bits (R8). -/
theorem test_wf_core : (Instr.vadd 32768 {}).wf = false ∧ (Instr.vadd 32767 {}).wf = true := by decide
/-- A cluster domain past CD511 (R9). -/
theorem test_wf_domain : (Instr.dispatcherHeartbeat 512).wf = false ∧ (Instr.dispatcherHeartbeat 511).wf = true := by decide
/-- A third instruction-memory bank (R132). -/
theorem test_wf_bank : (Instr.imemLoad 0 2 0 [] 0).wf = false ∧ (Instr.imemLoad 0 1 0 [] 0).wf = true := by decide
/-- A fifth stack, quadrant or layer (R222). -/
theorem test_wf_refresh : (Instr.sliceRefresh 4 0 0).wf = false ∧ (Instr.sliceRefresh 0 4 0).wf = false ∧
    (Instr.sliceRefresh 0 0 4).wf = false ∧ (Instr.sliceRefresh 3 3 3).wf = true := by decide
/-- A thirteenth outer package (R229). -/
theorem test_wf_package : (Instr.outerSend 12).wf = false ∧ (Instr.outerSend 11).wf = true := by decide
/-- A proboscis port past 1,023 (R254). -/
theorem test_wf_proboscis : (Instr.proboscisPublish 0 1024).wf = false ∧ (Instr.proboscisPublish 12 0).wf = false ∧
    (Instr.proboscisPublish 0 1023).wf = true := by decide
/-- A queue pair past 16,383 (R410). -/
theorem test_wf_qp : (Instr.cnp 16384).wf = false ∧ (Instr.cnp 16383).wf = true := by decide
/-- A fifth direction of a router (R334). -/
theorem test_wf_direction : (Instr.flitCrcReplay 0 4).wf = false ∧ (Instr.flitCrcReplay 0 3).wf = true := by decide
/-- A channel outside its endpoint (R347). -/
theorem test_wf_channel : (Instr.flush 262144 0).wf = false ∧ (Instr.flush 0 64).wf = false ∧
    (Instr.flush 262143 63).wf = true := by decide
/-- A ninth link, or a ninth lane (R358). -/
theorem test_wf_link : (Instr.linkDisable 8).wf = false ∧ (Instr.linkDisable 7).wf = true ∧
    (Instr.partnerDetected 0 256).wf = false ∧ (Instr.equaliseDone 0 256 0).wf = false ∧ (Instr.equaliseDone 0 0 256).wf = false := by
  decide
/-- A fifth die (R381). -/
theorem test_wf_die : (Instr.remoteAttemptTimeout 4 0).wf = false ∧ (Instr.remoteAttemptTimeout 3 0).wf = true := by decide
/-- A fifth port, or a ninth priority (R396, R401). -/
theorem test_wf_port : (Instr.portEnable 4).wf = false ∧ (Instr.portEnable 3).wf = true ∧ (Instr.pfcRepeat 0 8).wf = false := by decide
/-- A clock candidate that there is not (R490). -/
theorem test_wf_candidate : (Instr.clockOffer 0).wf = false ∧ (Instr.clockOffer 10).wf = false ∧ (Instr.clockOffer 9).wf = true := by
  decide
/-- A third feed, a seventh phase, a thirtieth zone, a channel past 159 (R32, R505, R524, R521). -/
theorem test_wf_sensors : (Instr.feedInRange 2).wf = false ∧ (Instr.phaseFail 0 6).wf = false ∧
    (Instr.thermalZoneSample 29 []).wf = false ∧ (Instr.fastRise 160).wf = false ∧ (Instr.stackRestart 4).wf = false := by decide

/-! ### Small states -/

/-- The reset state with core 0 running a kernel, nothing queued. -/
def quietSt : State := { State.reset with cores := [(0, { fetching := true })] }
/-- The state after a command (the same state where it answers none). -/
def after (i : Instr) (s : State) : State := match exec i s with
  | .next t => t
  | _ => s
/-- A 1 × 1 INT32 operand at a scratchpad address. -/
def word (a : Nat) : Dword := BitVec.ofNat 64 (a + 2 ^ 16 + 2 ^ 26 + fmtInt32 * 2 ^ 52)

/-! ### Witnesses: core instructions -/

/-- A quiet core: the hypothesis of VectorArithmeticStoresDest, VectorSpecialAndReductions, VectorIntegersAndRecords and
CcvtConvertsEntries. -/
theorem test_VectorArithmeticStoresDest_hyps : (quietSt.core 0).quiet = true := by decide
theorem test_VectorSpecialAndReductions_hyps : (quietSt.core 0).quiet = true := by decide
theorem test_VectorIntegersAndRecords_hyps : (quietSt.core 0).quiet = true := by decide
theorem test_CcvtConvertsEntries_hyps : (quietSt.core 0).quiet = true := by decide
theorem test_IntegerAddReadsBack_hyps : (quietSt.core 0).quiet = true ∧ quietSt.mem.wf = true ∧
    ({ dest := word 0, srcA := word 32, srcB := word 65504 } : IFields).mods = 0 ∧
    let ok (f : Dword) : Prop := (opnd f).rows = 1 ∧ (opnd f).cols = 1 ∧ (opnd f).fmt = fmtInt32 ∧ (opnd f).addr % 32 = 0
    ok (word 0) ∧ ok (word 32) ∧ ok (word 65504) := by
  refine ⟨by decide, by decide, rfl, ?_, ?_, ?_⟩ <;> decide
theorem test_AclrSetsTiles_hyps : (quietSt.core 0).quiet = true ∧ ((0x0001 : Half).getLsbD 0 = true) ∧ ((0x0001 : Half).getLsbD 3 = false) := by
  decide
theorem test_CmmaAccumulatesEntries_hyps : (quietSt.core 0).quiet = true ∧
    let w : IFields := { dest := word 0, srcA := word 32, srcB := word 64 }
    (quietSt.core 0).anyMode (opnd w.dest).accBase (opnd w.dest).entries
      (classOfPair (opnd w.srcA).fmt (opnd w.srcB).fmt != .sixteen) = false := by decide
/-- Tile T0 is an F32 tile: ACCST and ACCLD meet the wrong mode, CMMA in the class that needs an EXACT tile too. -/
def f32St : State := { State.reset with cores := [(0, { fetching := true, tiles := [(0, { f32Mode := true })] })] }
theorem test_AccModeMismatchEndsTask_hyps : (f32St.core 0).quiet = true ∧
    (f32St.core 0).anyMode (opnd (word 0)).accBase (opnd (word 0)).entries true = true ∧
    ∃ a b : Dword, (f32St.core 0).anyMode (opnd (word 0)).accBase (opnd (word 0)).entries
      (classOfPair (opnd a).fmt (opnd b).fmt != .sixteen) = true := ⟨by decide, by decide, word 0, word 0, by decide⟩
theorem test_RecordsStoreAndLoad_hyps : (quietSt.core 0).quiet = true ∧
    (quietSt.core 0).anyMode (opnd (word 0)).accBase (opnd (word 0)).entries true = false := by decide
/-- Two products in the two orders. -/
theorem test_ExactAccumulationOrderFree_hyps :
    [((ofF32 0x3F800000, ofF32 0x40000000, none, false) : Val × Val × Option Int × Bool), (ofF32 0x40400000, ofF32 0x40400000, none, true)].Perm
      [(ofF32 0x40400000, ofF32 0x40400000, none, true), (ofF32 0x3F800000, ofF32 0x40000000, none, false)] := List.Perm.swap _ _ _

/-! ### Witnesses: the sequencer, queued instructions, chains -/

theorem test_SequencerInstructionsAct_hyps : (quietSt.core 0).quiet = true ∧
    0 < bits (BitVec.ofNat 40 (2 + 2 ^ 16)).toNat 24 16 := by decide
/-- LOOP with Count 2 and Body 1. -/
def loop2 : IFields := { aux := BitVec.ofNat 40 (2 + 2 ^ 16) }
theorem test_LoopRunsBodyCountTimes_hyps : (quietSt.core 0).quiet = true ∧ bits loop2.aux.toNat 24 16 = 1 ∧
    bits loop2.aux.toNat 25 25 = 0 ∧ exec (.loop 0 loop2) quietSt = .next (after (.loop 0 loop2) quietSt) := ⟨by decide, by decide, by decide, rfl⟩
/-- The descriptor in slot 0 names the first outer package; core 0 reads it at address 0. -/
def moveSt : State := { quietSt with mem := ({} : Mem).write 0 (leBytes 8 outerBase) }
set_option maxRecDepth 4096 in
theorem test_MoveCopiesRow_hyps :
    let o := opnd (word 65504)
    let d : Desc := ⟨outerBase⟩
    let row := d.elemAddr 0 0
    (moveSt.core 0).quiet = true ∧ moveSt.mem.wf = true ∧ moveSt.fetchDesc 0 0 = (moveSt, d, false) ∧ d.kind = 0 ∧
      (moveSt.core 0).slotFree row.toNat = true ∧ moveSt.mem.flipUnits row.toNat o.rowLen = [] ∧
      o.rows = 1 ∧ 0 < o.rowLen ∧ o.addr + o.rowLen ≤ 65536 ∧ (outerBase : Int) ≤ row ∧
      row + o.rowLen ≤ ((outerBase + 12 * outerSize : Nat) : Int) ∧
      moveSt.answer (.core 0 .move) row.toNat o.rowLen false = .go ∧ moveSt.answer (.core 0 .move) row.toNat o.rowLen true = .go := by decide
/-- Core 0 holds dispatch for a WAITQ, a DRAIN or a full VEC queue. -/
def heldSt (h : Hold) : State := { State.reset with cores := [(0, { fetching := true, hold := h })] }
theorem test_HeldDispatchResumes_hyps : ((heldSt (.waitq .vec 0)).core 0).hold = .waitq .vec 0 ∧
    ((heldSt (.drain 15)).core 0).hold = .drain 15 ∧ ((heldSt (.stall .vec)).core 0).hold = .stall .vec ∧
    ((heldSt .none).core 0).stream = [] ∧ ((heldSt .none).core 0).baraWait = [] := by decide
/-- An item in an engine queue of core 0 of a state whose stream is empty. -/
def queued (k : Core) : State := { State.reset with cores := [(0, { k with fetching := true })] }
def item (st : QStatus) : QItem := { op := 0x60, w := { dest := word 0, srcA := word 32, srcB := word 64 }, off := 3, status := st }
theorem test_QueuedInstructionsGoOn_hyps :
    (let s := queued { qVec := [item .scoreboard] }
     (s.core 0).stream = [] ∧ (s.core 0).baraWait = [] ∧ (s.core 0).ended = false ∧ (s.core 0).queue .vec = [item .scoreboard] ∧
      (s.core 0).blocked (item .scoreboard) = false ∧ (s.core 0).watch = []) ∧
    ((queued { qMove := [item .watch] }).core 0).firstWith .move .watch = some (item .watch) ∧
    (let only (st : QStatus) : Prop := (((queued { qMove := [item st] }).core 0).queue .move).filter (·.status == st) = [item st]
     only .retry ∧ only .busy ∧ only .resetting) ∧
    (∀ x ∈ ((queued { qMove := [item .scoreboard] }).core 0).queue .move, x.status = .scoreboard) ∧
    (queued { qMove := [item .resetting] }).lys.remotes = [] ∧
    (queued { qMove := [item .done] }).closingOk (item .done) = true ∧
    (let q := { item .done with pages := [(2 ^ 63, some 1)] }
     let s := queued { qGather := [q] }
     ((s.core 0).queue .gather).head? = some q ∧ s.closingOk q = false) ∧
    (let k := (queued { qMove := [item .done, item .busy] }).core 0
     ((k.queue .move).filter k.executes)[0]? = some (item .busy)) := by decide
def chain1 : ChainState := { tag := 0, off := 0, members := [(1, 0x60, { dest := word 0, srcA := word 32, srcB := word 64 }, 0)] }
theorem test_ChainsRunInOrder_hyps :
    (let s := queued { chains := [chain1] }
     (s.core 0).chains = [chain1] ∧ chain1.started = false ∧ (s.core 0).watch = [] ∧
      (∀ q ∈ (s.core 0).qCube ++ (s.core 0).qVec, q.status = .chain) ∧ chain1.members[0]? = some (1, 0x60, (item .done).w, 0) ∧
      (((s.modCore 0 fun k => { k with chains := [{ chain1 with started := true }] }).runMembers 0 (chain1.members.take 0)).core 0).ended = false) ∧
    (let ch := { chain1 with started := true }
     ((queued { chains := [ch] }).core 0).chains = [ch] ∧ engineOf 0x60 = some .vec) := by decide
/-- A static chain of one VIADD member, dispatched and started. -/
def chainW : IFields := { aux := 0 }
theorem test_ChainsRunInOrder_run : (quietSt.core 0).quiet = true ∧ bits chainW.aux.toNat 12 8 = 0 ∧
    let s1 := after (.chain 0 chainW) quietSt
    let s2 := after (.viadd 0 (item .done).w) s1
    exec (.chain 0 chainW) quietSt = .next s1 ∧ exec (.viadd 0 (item .done).w) s1 = .next s2 ∧
      exec (.chainCycleZero 0 none) s2 = .next (after (.chainCycleZero 0 none) s2) := ⟨by decide, by decide, rfl, rfl, rfl⟩
theorem test_ScratchWindowAndInstructionMemory_hyps :
    let a := scratchAddr 32767 + 65504
    place a = .scratch 32767 65504 ∧ State.reset.answer (.core 32767 .move) a 32 false = .go ∧
      State.reset.answer (.core 32767 .move) a 32 true = .go ∧ State.reset.answer (.rdma 0) a 32 false = .status stResetting ∧
      State.reset.answer (.rdma 0) a 33 false = .fault ∧
      ((0 % 2 == 1) = (State.reset.core 0).activeBank) ∧ ((1 % 2 == 1) ≠ (State.reset.core 0).activeBank) ∧
      (State.reset.core 0).loading = none ∧ (State.reset.core 0).armed = false ∧ (State.reset.core 0).valid1 = false ∧
      ((queued { armed := true }).core 0).armed = true ∧
      ((queued { loading := some { kernel := 0, code := [], digest := 0 } }).core 0).loading.isSome = true ∧
      ((queued { valid1 := true }).core 0).activeBank = false ∧ ((queued { valid1 := true }).core 0).valid1 = true := by decide

/-! ### Witnesses: tasks, epochs, collectives -/

/-- A READY task of 200 partitions on clusters 0 and 1, in epoch `e`. -/
def task1 (e : Nat) : Task :=
  { id := 1, parts := 200, cds := [0, 1], state := .ready
    desc := { slot := 0, template := 0, epoch := e, resume := false, seed := 5, partFirst := 0, limitMs := 0, inInst := [], outInst := [] } }
/-- Clusters 0 and 1 powered and out of reset, and one task. -/
def taskSt (t : Task) : State := { State.reset with
  clusters := [(0, { inReset := false, dom := .on }), (1, { inReset := false, dom := .on })]
  work := { tasks := [(1, t)] } }
theorem test_TaskFiresFirstWave_hyps : (taskSt (task1 0)).task? 1 = some (task1 0) ∧ (task1 0).coll = false ∧ (task1 0).state = .ready ∧
    (taskSt (task1 0)).mayFire (task1 0) = true ∧ (taskSt (task1 0)).takable (task1 0) ≠ [] := by decide
/-- The same task running: with a wave that cluster 1 has not begun, and with no wave left open. -/
def running1 (started : List Nat) : Task := { (task1 0).openWave [0, 1] with
  state := .running, waves := ((task1 0).openWave [0, 1]).waves.map fun w => { w with started := started } }
theorem test_WaveStartSetsCores_hyps :
    (let t := running1 [0]
     (taskSt t).task? 1 = some t ∧ t.state = .running ∧ (taskSt t).takesWave 1 = true ∧ 1 ∈ t.cds ∧ (taskSt t).keptFor t 1 = false ∧
      (t.waves.find? fun w => w.cds.contains 1 && !w.started.contains 1).isSome = true) ∧
    let t := running1 [0, 1]
    (taskSt t).task? 1 = some t ∧ (t.waves.find? fun w => w.cds.contains 0 && !w.started.contains 0) = none ∧
      t.stopping = false ∧ t.cancelled = false ∧ t.timedOut = false ∧ t.nextPart < t.parts ∧
      (((taskSt t).openWave t).waves.getLast?.any fun w => w.cds.contains 0) = true := by decide
theorem test_ClusterReportsAndFences_hyps : clusterEvent Ev.sliceFail.code = some .sliceFail ∧
    ({ State.reset with clusters := [(7, { fenced := true })] } : State).fenced 7 = true := by decide
theorem test_TokenMergeOrderFree_hyps : ∃ a b : Token, a.firstFailed = b.firstFailed ∧ a.firstStatus = b.firstStatus :=
  ⟨(Core.endToken {}), (Core.endToken {}), rfl, rfl⟩
/-- A weight shard of 64 bytes in slice 0, and a shadow with nothing to copy. -/
def hndl : Handle := { slot := 0, tensor := 0, inst := 0 }
def placedSt : State := { State.reset with now := 10000000, work := {
  placed := [{ handle := hndl, shard := 0, replica := 0, addr := 0, bytes := 64 }]
  readyTimes := [{ slot := 0, template := 0, start := 0, stop := 9000000 }]
  programs := [(0, { digest := 0, nondet := false, kernels := [], descs := [], plan := []
                     templates := [{ id := 0, kernel := 0, inputs := [0], outputs := [], specCapable := false, restartable := false
                                     gridRows := 1, gridCols := 1, tileRows := 1, tileCols := 1, widthMin := 1, widthMax := 1
                                     limitMs := 0, loadClass := 0, affinity := 0 }]
                     tensors := [{ id := 0, rank := 1, format := 1, cls := 0, dims := [64], sizeBytes := 64, valueBound := 0, indexes := 0 }] })] } }
theorem test_TaskLimitsAndEpochs_hyps :
    (let t := { task1 0 with state := .running }
     (taskSt t).task? 1 = some t ∧ t.state = .running ∧ t.desc.epoch = 0 ∧ t.waves = []) ∧
    ((taskSt (task1 2)).task? 1 = some (task1 2) ∧ (task1 2).desc.epoch ≠ 0 ∧ (taskSt (task1 2)).work.shadows = []) ∧
    (look ({ State.reset with work := { epochs := [(3, { commit := some ([], { path := .ring, seq := 0 }) })] } } : State).work.epochs 3 =
      some { commit := some ([], { path := .ring, seq := 0 }) }) ∧
    (let p : Placed := { handle := hndl, shard := 0, replica := 0, addr := 0, bytes := 64 }
     placedSt.freePlace 0x100000 64 = true ∧
      (placedSt.work.placed.find? fun p => p.handle = placedSt.placedAs hndl && p.shard == 0) = some p ∧
      placedSt.inUse (placedSt.placedAs hndl) = false ∧ placedSt.claimed p.addr p.bytes = false ∧ placedSt.mem.wf = true ∧
      placedSt.mem.instars = [] ∧ placedSt.inImage p.addr = false ∧ placedSt.mem.flipUnits p.addr p.bytes = [] ∧
      placedSt.work.kvPages = [] ∧ p.addr + p.bytes ≤ 0x100000 ∧ demandWindow < 4 * placedSt.readyTime 0 0 ∧
      (placedSt.work.placed.find? fun p => p.handle = hndl && p.shard == 0) = some p ∧ placedSt.isWeights hndl = true ∧ placedSt.replicaFits p.bytes = true ∧
      ((look placedSt.work.programs 0).any fun pr => pr.plan.isEmpty) = true) := by decide
/-- A READY collective of rank 0 of two members, nothing to read, on this module and module 1; `f` after its firing. -/
def coll1 (fired : Bool) : Coll :=
  { task := 1, members := [0, 1], rank := 0, fired := fired, sentUnacked := [(0, 1)], early := [(1, 1)]
    desc := { seq := 1, group := 0, op := 0, dtype := 0, outFormat := 0, anchor := 0, round := 0, count := 2048, slot := 0, inTensor := 0,
              inInst := 0, outInst := 0, outTensor := 0, limitMs := 0 } }
def collSt (fired : Bool) : State := { State.reset with work := {
  tasks := [(1, { task1 0 with coll := true })], colls := [coll1 fired] } }
/-- A collective packet of module 1 to this module (module 0). -/
def lpkt (op step : Nat) : LPacket :=
  { src := 1, dest := 0, vl := 0, cls := 0, poison := [], op := op, status := 0, tag := 0, age := 0, alt := false, turned := false,
    address := 1, length := 32, instar := 0, rank := 1, step := step, group := 0, data := [] }
theorem test_CollectivesExchangeOnce_hyps :
    (let s := collSt false
     let c := coll1 false
     (s.task? 1).map (fun t => (t.id, t.coll, t.state)) = some (1, true, .ready) ∧ (s.work.colls.find? (·.task == 1)) = some c ∧
      (s.task? 1).all s.mayFire = true ∧
      ((List.range c.members.length).filter (· != c.rank)).all (fun r => s.answerAll (.reduction (s.collDie c)) (s.chunkRanges c r) false == .go) = true) ∧
    (let p := lpkt 0x20 0
     p.dest = State.reset.lys.deviceId ∧ (State.reset.delivered 0 p).collOf p = none) ∧
    let s := collSt true
    let c := coll1 true
    ((s.delivered 0 (lpkt 0x20 0)).collOf (lpkt 0x20 0) = some c ∧ s.collOpen c = true ∧ (lpkt 0x20 0).rank = c.prev) ∧
    (chunkNo (lpkt 0x20 0) = 0 ∧ chunkNo (lpkt 0x20 1) ≠ 0 ∧ chunkNo (lpkt 0x20 1) ≤ c.packets ∧ (lpkt 0x20 1).rank < c.members.length ∧ (lpkt 0x20 1).rank ≠ c.rank) ∧
    (c.members.idxOf? (lpkt 0x21 0).src = some 1 ∧ (chunkNo (lpkt 0x21 0), 1) ∈ c.sentUnacked) ∧
    (c.aborted = false ∧ (s.delivered 0 (lpkt 0x22 0)).collOpen c = true) ∧
    (s.work.colls.find? (·.task == 1)) = some c ∧ (0, 1) ∈ c.sentUnacked ∧ (1, 1) ∈ c.early ∧ c.fired = true := by decide

/-! ### Witnesses: slices, outer packages, proboscis units -/

/-- Core 0 with every slice and outer slot in use. -/
def fullSt : State := { State.reset with cores := [(0, { sliceSlots := List.range 16, outerSlots := List.range 16 })] }
theorem test_SliceBurstsCarryData_hyps :
    let s := State.reset
    place 32 = .slice 0 32 ∧ 32 % 32 = 0 ∧ (List.replicate 32 (7 : Byte)).length = 32 ∧ lowestFree (s.core 0).sliceSlots 16 = some 0 ∧
      s.answer (.core 0 .move) 32 32 true = .go ∧ s.answer (.core 0 .move) 32 32 false = .go ∧ s.mem.errsOf 32 = [] ∧ s.mem.wf = true ∧
      lowestFree (fullSt.core 0).sliceSlots 16 = none ∧ 15 ∈ (fullSt.core 0).sliceSlots ∧ 16 ∉ (fullSt.core 0).sliceSlots ∧ (fullSt.core 0).stream = [] ∧ (fullSt.core 0).baraWait = [] ∧
      (fullSt.core 0).firstWith .move .slots = none ∧ (fullSt.core 0).firstWith .gather .slots = none ∧
      (place (sliceAddr 64) = .slice 64 0 ∧ s.answer (.core 0 .move) (sliceAddr 64) 32 false = .status stResetting) ∧
      (place (sliceAddr 0 + 196 * 65536) = .slice 0 (196 * 65536) ∧ s.answer (.core 0 .move) (sliceAddr 0 + 196 * 65536) 32 false = .fault) := by
  decide
theorem test_FillsLeaveZero_hyps : ({ State.reset with dev := .filling } : State).dev = .filling ∧ State.reset.dev ≠ .filling := by decide
/-- Slice 0 with a write-back pending; package 1 with writeback, requests and operations as given. -/
def sliceSt (sl : Slice) : State := { State.reset with slices := [(0, sl)] }
def outerSt (o : Outer) : State := { State.reset with outers := [(1, o)] }
theorem test_ControllersKeepMemory_hyps : 64 ∈ ((sliceSt { writeBacks := [64] }).slice 0).writeBacks ∧
    (match sliceDecode (({ flips := [(128 * 64 + 1, 3)] } : Mem).errsOf 64) false with | .ce _ => true | _ => false) = true ∧
    sliceDecode (State.reset.mem.errsOf 64) false = .ok ∧
    (let sl := State.reset.slice 0
     sl.scrubEnable = true ∧ sl.queue = [] ∧ sl.writeBacks = [] ∧ sl.copying = [] ∧ State.reset.fenced (cdOf 0) = false) ∧
    (let s : State := { State.reset with now := 10 ^ 16 }
     leNat (s.profNow 0x03000001) < (s.slice 0).oldestAge s.now ∧ leNat (s.profNow 0x03000001) < (s.outer 0).oldestAge s.now ∧
      (State.reset.slice 0).oldestAge 0 ≤ leNat (State.reset.profNow 0x03000001)) ∧
    64 ∈ ((outerSt { writeBacks := [64] }).outer 1).writeBacks ∧
    ((State.reset.outer 0).slotted = [] ∧ (State.reset.outer 0).writeBacks = [] ∧ (State.reset.outer 0).running = []) ∧
    ((State.reset.outer 0).scrubEnable = true ∧ (State.reset.outer 0).failed = false) ∧
    (({ State.reset with dev := .selftest } : State).dev = .selftest ∧ ({ State.reset with dev := .selftest } : State).fw.checkerDone = false) := by
  decide
theorem test_PagesRetire_hyps : State.reset.ctl.retires = [] ∧
    (let s := sliceSt { copying := [(5, 3)] }
     (s.slice 0).copying.find? (fun x => x.1 == 5) = some (5, 3) ∧ 3 < (s.slice 0).spares.length ∧ ∀ y ∈ (s.slice 0).spares, y ≠ some 5) ∧
    (let s := outerSt { copying := [(5, 15)] }
     (s.outer 1).copying.find? (fun x => x.1 == 5) = some (5, 15) ∧ ∀ y ∈ (s.outer 1).spares, y ≠ some 5) ∧
    (let s := sliceSt { retiring := [187] }
     187 ∈ (s.slice 0).retiring ∧ s.allocated (slicePageAddr 0 187) 0x10000 = false) ∧
    (let s := outerSt { retiring := [65534] }
     65534 ∈ (s.outer 1).retiring ∧ s.allocated (outerAddr 1 + 65534 * 0x200000) 0x200000 = false) ∧
    placedSt.allocated (slicePageAddr 0 0) 0x10000 = true := by decide
/-- A read and a write of one block of package 1. -/
def oread : OReq := { id := 7, agent := .core 0 .move, addr := outerAddr 1, len := 64, acc := .read, data := List.replicate 256 0 }
def owrite : OReq := { oread with acc := .write (List.replicate 64 1) false }
set_option maxRecDepth 4096 in
theorem test_OuterRequestsPass_hyps :
    (place (outerAddr 1) = .outer 1 0 ∧ (State.reset.outer 1).heldBy 0 (startCredits 0) ≠ 0 ∧ (State.reset.outer 1).issue.length < 1024 ∧
      lowestFree (State.reset.core 0).outerSlots 16 = some 0 ∧ oneBlock (outerAddr 1) 64 = true ∧ oneBlock (outerAddr 1) 257 = false ∧
      State.reset.answer (.core 0 .move) (outerAddr 1) 64 false = .go) ∧
    ((outerSt { holders := [(0, 0)] }).outer 1).heldBy 0 (startCredits 0) = 0 ∧ lowestFree (fullSt.core 0).outerSlots 16 = none ∧
    (let o := (outerSt { issue := [oread] }).outer 1
     (o.issue.find? fun r => decide (o.bankSlots (bankOf r.addr) < 512)) = some oread ∧ o.slotted.length < 4096) ∧
    (let o := (outerSt { window := [oread] }).outer 1
     o.turn.busFree = true ∧ o.turn.choose = some oread ∧ o.busFree = true ∧ o.candidates.find? (·.id == 7) = some oread) ∧
    ((outerSt { hold := true }).outer 1).busFree = false ∧
    (let o := (outerSt { sentReqs := [owrite] }).outer 1
     o.sentReqs.find? (fun x => x.id == 7 && !x.isRead) = some owrite) ∧
    (let o := (outerSt { sentReqs := [oread] }).outer 1
     o.sentReqs.find? (fun x => x.id == 7 && x.isRead && x.twin.isNone) = some oread ∧ oread.data.length = 256 ∧ (∀ x ∈ oread.marks, x = false) ∧
      oneBlock oread.addr oread.len = true ∧ (∀ x ∈ o.sentReqs, x.twin ≠ some 7) ∧ coreOf oread.agent = some 0 ∧
      (let k := (outerSt { sentReqs := [oread] }).core 0
       k.stream = [] ∧ k.baraWait = [] ∧ k.firstWith .move .slots = none ∧ k.firstWith .gather .slots = none) ∧
      o.slotted.find? (fun x => x.id == 7) = some oread) ∧
    (let o := (outerSt { faultTimes := List.replicate 16 0 }).outer 1
     16 ≤ (o.faultTimes.filter fun t => decide (0 < t + 100000000)).length ∧ o.failed = false) := by decide
/-- A PZERO of one vector of one row at the start of package 1 (R256). -/
def pzero : List Byte := [4, 0, 0, 1, 0, 0, 0, 0] ++ leBytes 4 1 ++ List.replicate 28 0 ++ leBytes 8 (outerAddr 1) ++ leBytes 4 64 ++
  List.replicate 12 0
def zeroOp : ProbOp := { port := 1023, core := none, epoch := 0, record := pzero }
theorem test_ProboscisOperationsRun_hyps : pzero.length = 64 ∧ ((outerSt { failed := true }).outer 1).failed = true ∧
    (State.reset.outer 1).failed = false ∧ (∃ x ∈ ((outerSt { ops := [zeroOp] }).outer 1).ops, x.port = 1023) ∧
    ((State.reset.outer 1).ops = [] ∧ (State.reset.outer 1).running = [] ∧ State.reset.probBad 1 ⟨pzero⟩ 0 = false) ∧
    ((outerSt { ops := [zeroOp] }).outer 1).ops = [zeroOp] ∧ ((outerSt { running := [zeroOp] }).outer 1).running ≠ [] ∧
    ((outerSt { running := [zeroOp] }).outer 1).running.find? (·.port == 1023) = some zeroOp := by decide
/-- The queue of package 1 is full with operations of another port. -/
theorem test_ProboscisOperationsRun_full :
    256 ≤ ((outerSt { ops := List.replicate 256 zeroOp }).outer 1).ops.length ∧
      ∀ x ∈ ((outerSt { ops := List.replicate 256 zeroOp }).outer 1).ops, x.port ≠ 0 := by
  have h (l : List ProbOp) : ((outerSt { ops := l }).outer 1).ops = l := rfl
  rw [h, List.length_replicate]
  refine ⟨Nat.le_refl 256, fun x hx => ?_⟩
  rw [List.eq_of_mem_replicate hx]
  decide

/-! ### Codes and words -/

/-- A codeword formed by R200 has no syndrome; read from a burst whose index differs in one address byte it gives ADDRESS, and with its
poison pattern ADDRESS too (R202). -/
theorem test_slice_code :
    let bs : List Byte := (List.range 32).map fun i => BitVec.ofNat 8 (37 * i + 11)
    let word (off : Nat) : List (Nat × Byte) := (sliceCheck bs off false ++ bs ++ addressSyms off).zipIdx.map fun x => (x.2, x.1)
    sliceDecode (word 0x123460) false = .ok ∧ sliceDecode (word 0x123460) true = .poisoned [] ∧
      sliceDecode [(36, 0x80)] false = .address ∧ sliceDecode [(36, 0x80)] true = .address := by
  decide +kernel
/-- Words of R101 written out by R106: MLOAD (opcode 0x80) with Dest 0x40 at bit 24, VADD (0x40) with Modifiers 1 at bit 8, an opcode
that R106 reserves. -/
theorem test_words : coreCommand 3 (BitVec.ofNat 256 (0x80 + 0x40 * 2 ^ 24)) = some (.mload 3 { dest := 0x40 }) ∧
    coreCommand 0 (BitVec.ofNat 256 (0x40 + 2 ^ 8 + 5 * 2 ^ 216)) = some (.vadd 0 { mods := 1, aux := 5 }) ∧
    coreCommand 0 (BitVec.ofNat 256 0x0A) = none := by
  set_option exponentiation.threshold 600 in decide

/-! ### Witnesses: channels, links, remote requests -/

/-- Channel 0 of the endpoint of the hub's service inbox. -/
def chanSt (c : Channel) : State := { State.reset with channels := [(inboxEp * 64, c)] }
theorem test_ChannelsCarryPackets_hyps :
    let c (x : Channel) : Channel := (chanSt x).channel inboxEp 0
    (chanSt {}).epRefusal inboxEp = none ∧ (c {}).enable = false ∧
    ((c { enable := true, opens := List.replicate 64 0 }).enable = true ∧ 64 ≤ (c { enable := true, opens := List.replicate 64 0 }).opens.length) ∧
    ((c { enable := true }).enable = true ∧ (c { enable := true }).opens.length < 64) ∧
    (epCluster 0 = some 0 ∧ ({ State.reset with clusters := [(0, { fenced := true })] } : State).fenced 0 = true) ∧
    (let x := c { opens := [5] }
     x.opens = [5] ∧ x.openBy = none ∧ x.draining = none ∧ x.pressure = false ∧ x.maxPacket ≤ x.free) ∧
    ((c { openBy := some 5 }).openBy.isSome = true ∧ (c { draining := some 5 }).draining.isSome = true ∧
      (c { pressure := true }).pressure = true ∧ (c { maxPacket := 16 }).free < 16) ∧
    ((c { openBy := some 5 }).draining ≠ some 5 ∧ (c { openBy := some 5 }).openBy = some 5 ∧ 2 ≤ (c { openBy := some 5, openLeft := 2 }).openLeft ∧
      (c { draining := some 5 }).draining = some 5) ∧
    ((c { words := [{ kind := .data, data := [], poison := false }] }).words.head?.any (!·.poison) = true ∧
      (c { words := [{ kind := .data, data := [], poison := true }] }).words.head?.any (fun w => w.poison && w.kind != .flushed) = true) ∧
    privileged inboxEp 0 = false ∧
    (lookD (State.reset.cluster 0).streak 3 0 + 1 ≠ 16 ∧
      lookD (({ State.reset with clusters := [(0, { streak := [(3, 15)] })] } : State).cluster 0).streak 3 0 + 1 = 16) := by decide
/-- Link 0 in a state. -/
def linkS (k : LinkSt) : State := { State.reset with lys := { links := [(0, k)] } }
theorem test_LinksTrainAndLeave_hyps :
    let k (x : LinkSt) : LinkSt := (linkS x).linkSt 0
    ((k { state := .equalise }).state = .equalise ∧ chooseWidth (k { state := .equalise }).widthMax (0 &&& 0xFF) = none ∧
      (chooseWidth (k { state := .equalise }).widthMax (0xFF &&& 0x01)).isSome = true ∧ (k { state := .retrain }).state = .retrain) ∧
    ((k { state := .identify }).state = .identify ∧ (linkS {}).refusesPartner 0 0 1 0 1 false = false ∧
      (linkS {}).refusesPartner 0 0 0 0 1 false = true) ∧
    (k { state := .up }).state = .up ∧ (k {}).state ≠ .up ∧ (k { state := .disabled }).state = .disabled ∧
    (k { state := .draining }).state = .draining ∧
    16 ≤ ((k { state := .up, violations := List.replicate 16 0 }).violations.filter fun t => decide (0 < t + 10000000)).length := by decide
/-- A READ of 32 bytes of module 1 in one flit with Seq 0 and its CRC, and the same flit with a CRC that is not its own. -/
def flit0 : Flit := { seq := 0, vl := 0, cls := 0, pos := 0, dest := 0, src := 1, length := 32, poison := false, reserved := 0, crc := 0
                      payload := [1, 0, 0, 0, 32, 0, 0, 0] ++ List.replicate 24 0 }
def flitOk : Flit := { flit0 with crc := flitCrc flit0 }
def flitBad : Flit := { flit0 with crc := flitCrc flit0 + 1 }
theorem flit_crc_alone (f : Flit) (w : Word) : flitCrc { f with crc := w } = flitCrc f := rfl
theorem word_succ_ne (x : Word) : x + 1 ≠ x := by bv_omega
theorem test_FlitsAreTakenInOrder_crc : flitOk.crc = flitCrc flitOk ∧ flitBad.crc ≠ flitCrc flitBad :=
  ⟨(flit_crc_alone flit0 (flitCrc flit0)).symm, fun h => word_succ_ne _ (h.trans (flit_crc_alone flit0 (flitCrc flit0 + 1)))⟩
theorem test_FlitsAreTakenInOrder_hyps : ((linkS { state := .up }).linkSt 0).state = .up ∧
    flitOk.seq = ((linkS { state := .up }).linkSt 0).rxSeq ∧ flitOk.pos = 0 ∧ flitOk.reserved = 0 ∧ flitOk.vl ≤ 3 ∧ 0 < flitOk.length ∧
    flitOk.length ≤ 244 ∧ flitOk.seq < 4096 ∧
    lookD ((linkS { state := .up }).linkSt 0).rxUsed (vlc 0 0) 0 < allotment 0 ∧
    look ((linkS { state := .up }).linkSt 0).rxPart (vlc 0 0) = none ∧
    packetOk (parsePacket flit0 (flit0.payload.take 32) (List.replicate 32 false)) (flit0.payload.take 32) = true ∧
    ((linkS {}).linkSt 0).state ≠ .up ∧ ((linkS {}).linkSt 0).state ≠ .draining ∧ (∃ n ∈ [0, 9], 8 < n) ∧ (∀ n ∈ [0, 8], n ≤ 8) ∧
    ((linkS { state := .up, txBuffer := [flit0] }).linkSt 0).txBuffer.find? (·.seq == 0) = some flit0 := by decide
/-- This module (module 0) exports its first 4 GiB; cluster 0 is out of reset. -/
def expSt : State := { State.reset with
  clusters := [(0, { inReset := false })], lys := { exports := [(0, { base := 0, size := 2 ^ 32, rd := true, wr := true })] } }
/-- A request of module 1 for address `a`, or an answer of module 1 to tag 0. -/
def rpkt (op a n status : Nat) (d : List Byte) : LPacket :=
  { src := 1, dest := 0, vl := 0, cls := 0, poison := [], op := op, status := status, tag := 0, age := 0, alt := false, turned := false,
    address := a, length := n, instar := 0, rank := 0, step := 0, group := 0, data := d }
/-- Core 0 waits for module 1 with tag 0. -/
def rem (op : Nat) (alt : Bool) : Remote :=
  { die := 0, tag := 0, core := 0, engine := .move, alt := alt, pkt := { rpkt op 0 32 0 [] with src := 0, dest := 1 } }
def remSt (op : Nat) (alt : Bool) : State := { State.reset with
  cores := [(0, { fetching := true, qMove := [{ op := 0x80, w := {}, off := 0, status := .remote }] })], lys := { remotes := [rem op alt] } }
theorem test_RemoteRequestsAreServed_hyps :
    (let p := rpkt 1 65504 32 0 []
     p.dest = expSt.lys.deviceId ∧ onePage p.address 32 = true ∧ expSt.exported p.address 32 false = true ∧ expSt.dev ≠ .cocoon ∧
      (expSt.delivered 0 p).answer (.link 0) p.address 32 false = .go ∧ onePage p.address 64 = false ∧
      State.reset.exported p.address 32 false = false ∧ expSt.exported p.address 32 true = true ∧
      (expSt.delivered 0 p).answer (.link 0) p.address 32 true = .go ∧ onePage p.address 0 = true ∧
      (expSt.delivered 0 p).answer (.link 0) p.address 0 false = .go) ∧
    (let s0 := (remSt 1 false).delivered 0 (rpkt 0x10 0 32 0 (List.replicate 32 1))
     s0.remoteOf (rpkt 0x10 0 32 0 (List.replicate 32 1)) 0x01 = some (rem 1 false) ∧ (s0.endRemote (rem 1 false)).remoteLive (rem 1 false) = true) ∧
    (rem 1 false).entry = none ∧ ({ rem 1 false with entry := some 3 } : Remote).entry = some 3 ∧
    ((remSt 2 false).delivered 0 (rpkt 0x11 0 0 0 [])).remoteOf (rpkt 0x11 0 0 0 []) 0x02 = some (rem 2 false) ∧
    ((remSt 3 false).delivered 0 (rpkt 0x12 0 0 0 [])).remoteOf (rpkt 0x12 0 0 0 []) 0x03 = some (rem 3 false) ∧
    (((remSt 1 false).delivered 0 (rpkt 0x13 0 0 stBusy [])).lys.remotes.find? (fun r => r.tag == 0 && r.held.isNone) = some (rem 1 false) ∧
      stBusy ≠ stNotReady ∧ (waitOf stBusy).isSome = true ∧ (rem 1 false).pkt.op ≠ 0x03 ∧ stBadArg ≠ stNotReady ∧ waitOf stBadArg = none) ∧
    ((remSt 1 true).lys.remotes.find? (fun r => r.die == 0 && r.tag == 0 && r.held.isNone) = some (rem 1 true) ∧ (rem 1 true).alt = true) := by decide
/-- A packet for module 2 with routes by link 1 in UP, and without. -/
def routeSt : State := { State.reset with lys := { links := [(1, { state := .up })], routes := [(2, 0x99)] } }
theorem test_RemoteRequestsAreServed_forward :
    let p : LPacket := { rpkt 1 0 32 0 [] with dest := 2 }
    p.dest ≠ routeSt.lys.deviceId ∧ 900 ≤ 898 + dwellAge 1000 ∧ p.age + dwellAge 1000 < 900 ∧
      (State.reset.delivered 0 p).hop (some 0) p = none ∧ ((routeSt.delivered 0 p).hop (some 0) p).isSome = true ∧
      (let s := { routeSt with sent := [.packet none p] }
       .packet none p ∈ s.sent ∧ (s.hop none p).isSome = true) := by decide
/-- The longest route on a die crosses 22 links (R332), and diagonal traffic crosses the east–west port first (R333). -/
theorem test_silk_routes : (onDie (routerAt 0 0 0) (routerAt 0 15 7)).length = 23 ∧ SilkUnit.attach (.outer 5) = [routerAt 1 15 5, routerAt 1 15 6] ∧
    silkRoute false (routerAt 0 14 7) (routerAt 3 1 0) =
      [routerAt 0 14 7, routerAt 0 15 7, routerAt 1 0 7, routerAt 1 1 7, routerAt 1 2 7, routerAt 3 2 0, routerAt 3 1 0] := by decide

/-! ### Witnesses: the service -/

theorem find_range_zero (n : Nat) (p : Nat → Bool) (h : p 0 = true) : (List.range (n + 1)).find? p = some 0 := by
  rw [List.range_succ_eq_map, List.find?_cons_of_pos h]
theorem find_map_zero (n : Nat) (f : Nat → Nat) (p : Nat → Bool) (h : p (f 0) = true) :
    ((List.range (n + 1)).map f).find? p = some (f 0) := by
  rw [List.range_succ_eq_map, List.map_cons, List.find?_cons_of_pos h]
/-- The first epoch opens while none is open. -/
theorem opens_first_epoch (s : State) (b : Bool) (h : s.work.epochs = []) (hl : s.work.lastEpoch = 0) :
    s.openEpoch b = some (s.onWork fun w => { w with epochs := put w.epochs 1 { service := b }, lastEpoch := 1 }, 1) := by
  have hf := find_map_zero 65534 (fun i => i % 65535 + 1) (fun e => !(keys ([] : Tab Epoch)).contains e) rfl
  simp only [State.openEpoch, h, hl, List.length_nil, Nat.zero_add]
  rw [show (65535 : Nat) = 65534 + 1 from rfl, hf]
  rfl
/-- A model, a request of two input tokens, and a service with both on queue pair 0. -/
def rec0 : ModelRec := { id := 0, slot := 0, cls := 1, passMax := 2, weight := 1, draft := 0xFFFF, specK := 0, tokeniser := 1, vocab := 10,
                         maxContext := 100, fillWait := 0, chunk := 16, endToken := 0xFFFFFFFF, window := 0, offset := 0, bytes := 0, digest := 0 }
def model0 : Model := { rec_ := rec0, cls := 1, weight := 1, state := .ready }
def req0 (more : Bool) (model : Nat) : ReqRec :=
  { model := model, adapter := 0xFFFF, prefixId := 0xFFFF, request := 7, seed := 0, context := 0xFFFFFFFF, bytesIn := false, detok := false,
    keep := false, spillable := false, noSpec := false, more := more, maxNew := 4, temperature := 0, topP := 0x3F800000, minP := 0, topK := 0,
    stopCount := 0, ringVa := 0, ringRkey := 0, ringLog2 := 6, stops := [], input := [1, 2] }
def open0 (assembling inPass : Bool) : Request :=
  { qp := 0, rec_ := req0 false 0, assembling := assembling, context := 0, tokens := [1, 2], chunked := 2, inPass := inPass, readySince := some 0 }
def svcSt (rs : List Request) : State := { State.reset with
  net := { qps := [(0, { kind := .service 0, port := 0, state := .rts })] }
  channels := [(inboxEp * 64, { enable := true, words := [{ kind := .endK, data := leBytes 4 0, poison := false }] })]
  svc := { models := [(0, model0)], requests := rs, contexts := [(0, { model := 0, kept := true })]
           sets := [(0, { service := 5, port := 0, pfx := 0, pfxLen := 0, qpMax := 4 })] } }
theorem test_RequestsAreAdmitted_hyps : State.reset.takeRecord 0 = none ∧ ((svcSt []).takeRecord 0).isSome = true ∧
    ((svcSt []).takeRecord 0).all (fun s1 =>
      (s1.req? 0 7).isNone && (req0 true 0).more && s1.requestStatus (req0 false 9) != stOk && s1.requestStatus (req0 false 0) == stOk &&
        (look s1.svc.models 0).any Model.serves && (look s1.svc.contexts 0).isSome) = true ∧
    ((svcSt [open0 true false]).takeRecord 0).all (fun s1 => s1.req? 0 7 == some (open0 true false)) = true ∧
    ((svcSt [open0 false true]).takeRecord 0).all (fun s1 => s1.req? 0 7 == some (open0 false true)) = true ∧
    (let r : Request := { open0 false false with written := 5, credits := 2 }
     ((svcSt [r]).takeRecord 0).all (fun s1 => s1.streamOf 0 7 == some r) = true ∧ 1 < r.credits ∧ r.written < 6 ∧ r.credits ≤ 5 ∧ 5 ≤ r.written) := by
  decide
/-- A byte-level tokeniser of ten one-byte tokens, a request that holds a place and one that waits. -/
def tokSt : State := { State.reset with svc := {
  models := [(0, model0)], tokenisers := [(1, { splitMode := 0, vocab := (List.range 10).map fun n => [BitVec.ofNat 8 n], merges := [] })]
  requests := [{ open0 false false with tokenising := true }, { open0 false false with qp := 1, waitingTok := true }] } }
theorem test_RequestsAreAdmitted_tokens : (tokSt.req? 0 7).any (fun r => r.tokenising && r.tokImage.isNone) = true ∧
    (look tokSt.svc.models 0).isSome = true ∧ (look tokSt.svc.tokenisers model0.rec_.tokeniser).any (fun k =>
      !((tokenise k ([1, 2].map fun n => BitVec.ofNat 8 n)).any fun n => decide (10 ≤ n))) = true ∧
    ∀ x ∈ tokSt.svc.requests, x.waitingTok = true → ¬ (x.qp = 0 ∧ x.rec_.request = 7) := by decide
theorem test_StreamsAreWrittenWithCredit_hyps :
    (let r : Request := { open0 false false with entries := [(0, []), (1, [])] }
     let size := 2 ^ r.rec_.ringLog2
     (svcSt [r]).streamOf 0 7 = some r ∧ (look (svcSt [r]).net.qps 0).any (·.state == .rts) = true ∧
      2 ≤ r.entries.length ∧ r.written % size + 2 ≤ size ∧ r.written + 2 ≤ r.credits + size ∧ ¬ 3 ≤ r.entries.length) ∧
    (let r : Request := { open0 false false with creditSince := some 0 }
     (svcSt [r]).req? 0 7 = some r ∧ r.creditSince ≠ none ∧ r.inPass = false) ∧
    ((svcSt [open0 false true]).req? 0 7 = some (open0 false true) ∧ (open0 false true).inPass = true) ∧
    (look (svcSt []).svc.contexts 0).isSome = true := by decide
theorem test_PassesAreFormedAndCommitted_hyps :
    (let s := svcSt [open0 false false]
     (look s.svc.models 0).any (fun m => m.serves && decide (0 < m.rec_.passMax)) = true ∧ s.readySeqs 0 ≠ [] ∧ s.svc.passes.length < 16) ∧
    (let s := svcSt [open0 false true]
     s.req? 0 7 = some (open0 false true) ∧ (match s.workOf model0 (open0 false true) with | .decode => true | _ => false) = true ∧
      (open0 false true).cancelled = false) ∧
    stopReason model0 { open0 false true with produced := [3] } 3 1 = none := by decide
theorem test_PassesAreFormedAndCommitted_epoch : ∃ s1 e, (svcSt [open0 false false]).openEpoch true = some (s1, e) :=
  ⟨_, _, opens_first_epoch _ true rfl rfl⟩
/-- A pass of the open request in epoch 1; its logits. -/
def passSt (doomed : Bool) : State :=
  let s := svcSt [open0 false true]
  { s with svc := { s.svc with passes := [(0, { model := 0, seqs := [(0, 7)], epoch := 1 })] }
           work := { epochs := [(1, { service := true, doomed := doomed })], lastEpoch := 1 } }
theorem test_PassesAreFormedAndCommitted_commit :
    let s := passSt false
    (look s.svc.passes 0).isSome = true ∧ (look s.work.epochs 1).any (!·.doomed) = true ∧
      (let rs : List SeqLogits := [{ request := 7, poisoned := false, rows := [List.replicate 10 0], draft := [] }]
       (look s.svc.passes 0).any (fun p => p.ops.isEmpty && s.passFits model0 p rs && (match s.passTables model0 p rs with
        | some s0 => (s0.commitAdmit 1).1.commitReady 1 (s0.commitAdmit 1).2
        | none => false)) = true) ∧ (look (passSt true).work.epochs 1).any (·.doomed) = true := by decide
def job0 : FtJob := { window := 0, seqs := 1, steps := 2, lr := 0, beta1 := 0, beta2 := 0, eps := 0, lambda := 0 }
def adRec : AdapterRec := { id := 4, base := 0, rank := 8, format := 2, trainable := true, alpha := 0, window := 0, offset := 0, bytes := 64, digest := 0 }
def ftSt : State := { State.reset with svc := { adapters := [(4, { rec_ := adRec, elems := [{ w := 0, m := 0, v := 0 }] })], fts := [(4, { job := job0 })] } }
theorem test_PassesAreFormedAndCommitted_step : look ftSt.svc.fts 4 = some { job := job0 } ∧ (0 : Nat) < job0.steps ∧ ftSt.svc.passes.length < 8 ∧
    (look ftSt.svc.adapters 4).any (fun x => x.params == (List.replicate 64 (0 : Word)).length) = true := by
  decide
set_option maxRecDepth 8192 in
theorem test_ModelsFetchRankAndStage_hyps :
    (let s : State := { State.reset with svc := { models := [(0, { model0 with state := .loading })] } }
     (look s.svc.models 0).any (fun m => m.state == .loading && m.rec_.bytes == 0) = true ∧ (s.roomForImage 0).allocImage 0 = some []) ∧
    (let s := svcSt [{ open0 false false with waitingModel := true }]
     let t := { s with svc := { s.svc with models := [(0, { model0 with cls := 3, image := [(outerBase, 256)] })] } }
     (look t.svc.models 0).any (fun m => decide (m.cls = 3) && m.state == .ready && !m.image.isEmpty) = true ∧
      (t.svc.requests.any fun r => !r.ended && r.rec_.model == 0 && r.waitingModel) = true) ∧
    (keys (svcSt []).svc.models).Pairwise (· < ·) ∧
    (let s := { ftSt with svc := { ftSt.svc with passes := [(0, { model := 0, seqs := [], epoch := 1, adapters := [4] })] } }
     (look s.svc.passes 0).any (fun p => p.adapters.contains 4) = true ∧ (look s.svc.adapters 4).isSome = true ∧
      (keys s.svc.adapters).Pairwise (· < ·)) := by decide
theorem test_ModelsFetchRankAndStage_digest (ws : List Byte) : (∃ m : Model, shake256 ws = m.rec_.digest) ∧
    ∃ m : Model, shake256 ws ≠ m.rec_.digest := by
  refine ⟨⟨{ model0 with rec_ := { rec0 with digest := shake256 ws } }, rfl⟩,
    ⟨{ model0 with rec_ := { rec0 with digest := ~~~shake256 ws } }, fun h => ?_⟩⟩
  have := congrArg (fun x => x.getLsbD 0) h
  simp at this
set_option maxRecDepth 8192 in
theorem test_ModelsFetchRankAndStage_waves : (taskSt (running1 [0])).task? 1 = some (running1 [0]) ∧ (running1 [0]).state.final = false ∧
    (running1 [0]).cds.length ≤ ((List.range 512).filter fun cd => !(taskSt (running1 [0])).fenced cd).length ∧
    ({ running1 [0] with state := .done } : Task).state.final = true := by decide

/-! ### Witnesses: Ethernet ports, queue pairs -/

/-- Port 0 in a state; the default PFC mask pauses priority 3. -/
def portS (k : PortSt) : State := { State.reset with net := { ports := [(0, k)] } }
def txSa0 (pn : Nat) : MacsecSa := { tx := true, an := 0, sci := 1, ssci := 1, pn := pn, byTenant := true }
theorem test_PortsChangeStateAndPause_hyps :
    let k (x : PortSt) : PortSt := (portS x).portSt 0
    (k { state := .draining }).state = .draining ∧ (k { state := .disabled }).state = .disabled ∧ (k {}).state = .down ∧
    (k { state := .up }).state ≠ .down ∧ 2 < onesIn (0x07 : Byte).toNat 8 ∧ onesIn (0x03 : Byte).toNat 8 ≤ 2 ∧
    ((k {}).pfc 3 = true ∧ (0x03 : Byte).getLsbD 3 = false) ∧
    (let x := k { pfcSending := [3], occupancy := [(3, 786432)] }
     786432 ≤ 786432 ∧ x.pfc 3 = true ∧ 3 ∈ x.pfcSending ∧ 786432 ≤ lookD x.occupancy 3 0) ∧
    (3 ∈ (k { pfcSending := [3], occupancy := [(3, 786433)] }).pfcSending ∧ 786432 < lookD (k { occupancy := [(3, 786433)] }).occupancy 3 0) ∧
    ((k { state := .up }).pfc 3 = true ∧ 3 ∉ (k { state := .up }).ignoring) ∧ look (k { paused := [(3, 9)] }).paused 3 = some 9 ∧
    (look (k { state := .up }).paused 3 = none ∧ (k { state := .up }).macsecEnable = false) ∧
    (let x := k { state := .up, macsecEnable := true, sas := [txSa0 0xBFFFFFFFFFFFFFFF] }
     x.macsecEnable = true ∧ x.txSa = some (txSa0 0xBFFFFFFFFFFFFFFF) ∧ (txSa0 0xBFFFFFFFFFFFFFFF).pn + 1 = 0xC000000000000000) ∧
    (k { state := .up, macsecEnable := true, sas := [txSa0 (2 ^ 64)] }).txSa = some (txSa0 (2 ^ 64)) := by decide
def arpFrame (size : Nat) : EthFrame :=
  { size := size, dst := 0xFFFFFFFFFFFF, etype := 0x0806, tags := [], fcsOk := true, sec := none, body := .arp }
theorem test_FramesAreFilteredAndAddressesChecked_hyps :
    let k (x : PortSt) : PortSt := (portS x).portSt 0
    let up := portS { state := .up }
    (portS {}).portSt 0 = {} ∧ (k {}).state ≠ .up ∧ (up.portSt 0).state = .up ∧ (63 < 64 ∧ 4352 < 4353) ∧
    (arpFrame 64).fecBad = 0 ∧ ({ arpFrame 64 with fecBad := 1 } : EthFrame).fecBad ≠ 0 ∧ ((arpFrame 64).fcsOk = true ∧ up.dstOk 0 (arpFrame 64) = true ∧ etypeOk (arpFrame 64) = true ∧ (up.portSt 0).macsecEnable = false ∧ (arpFrame 64).sec = none ∧
      (up.portSt 0).tagsOk (arpFrame 64) = true ∧ bodyOk (arpFrame 64).body = true ∧ (arpFrame 64).body ≠ .pfc ∧
      roceOk (arpFrame 64).body = true ∧ lookD (up.portSt 0).occupancy ((up.portSt 0).bufKey 0) 0 + 64 ≤ 2097152) ∧
    (2097152 < lookD (k { occupancy := [(8, 2097152)] }).occupancy ((k {}).bufKey 0) 0 + 64 ∧ (k {}).pfc 0 = false) ∧
    etypeOk { arpFrame 64 with etype := 0x1234 } = false ∧
    (up.claims4 0 5 1 = false ∧ (portS { state := .up, ipv4 := 5, ipv4State := .ok }).claims4 0 5 1 = true) ∧
    ((5 : BitVec 128) ≠ (up.portSt 0).ipv6) ∧ 1472 ≤ 1472 ∧ (k { linkLocalOk := true }).linkLocalOk = true ∧
    ((List.replicate 99 (0 : Nat)).filter fun t => decide (0 < t + 1000000000)).length < 100 ∧
    (k { ipv4State := .probing 3 }).ipv4State = .probing 3 ∧ (k { dhcp4 := .bound }).dhcp4 = .bound ∧ (k { dhcp4 := .renewing }).dhcp4 = .renewing ∧
    (k { dhcp4 := .rebinding }).dhcp4 = .rebinding ∧ (k { dhcp4 := .selecting }).dhcp4 = .selecting ∧ (k { dhcp4 := .selecting }).ipv4State = .none := by
  decide
/-- A queue pair, a registered region 1 with Tag 0 over the first two pages of package 1 in the same domain, cluster 0 out of reset. -/
def qpSt (x : Qp) : State := { State.reset with net := {
  ports := [(0, { state := .up, linkLocalOk := true })], qps := [(0, x)]
  regions := [(1, { registered := true, base := outerAddr 1, len := 65536, rd := true, wr := true, domain := x.domain, tag := 0 })] } }
def heldR : Held := { op := 1, rkey := 256, va := outerAddr 1, len := 64, data := List.replicate 64 1 }
theorem test_InboundRequestsAreServed_hyps :
    let x : Qp := { kind := .service 0, port := 0, state := .rts, domain := 1 }
    let s := qpSt x
    look s.net.qps 0 = some x ∧ x.state = .rts ∧ x.held = [] ∧
    (¬ (s.fw.schRestart = true ∨ s.net.rxFree = 0 ∨ (s.channel inboxEp 0).depth ≤ (s.channel inboxEp 0).words.length + 1)) ∧
    ({ s with net := { s.net with rxFree := 0 } } : State).net.rxFree = 0 ∧
    (svcSt []).domainHolds { x with domain := 9 } = false ∧
    sizeOk 64 = true ∧ (s.domainHolds x = true ∧ bits (257 : Word).toNat 19 8 ≠ 0 ∧ s.regionOk x 257 (outerAddr 1) 64 true = false) ∧
    (x.kind ≠ .mgmt ∧ s.regionOk x 256 (outerAddr 1) 65536 true = true ∧ s.regionOk x 256 (outerAddr 1) 64 false = true ∧
      s.answer (.rdma 0) (outerAddr 1) 64 true = .go ∧ s.mem.wf = true ∧ s.mem.flips = [] ∧
      s.answer (.rdma 0) (outerAddr 1) 64 false = .go ∧ place (outerAddr 1) = .outer 1 0 ∧ s.mem.poison = []) ∧
    (let u := { s with outers := [(1, { running := [{ zeroOp with writePages := [0] }] })] }
     u.answer (.rdma 0) (outerAddr 1) 64 true = .status stBusy ∧ stBusy ≠ stBadArg ∧
      (u.serveInbound 0 x heldR).isRight = true) ∧
    (let u := { s with outers := [(1, { failed := true })] }
     u.answer (.rdma 0) (outerAddr 1) 64 true = .status stBadArg) ∧
    ({ x with held := [heldR] } : Qp).held = [heldR] ∧ (s.serveInbound 0 { x with held := [heldR] } heldR).isLeft = true := by decide
/-- A REQ for the MGMT service from a known GID over the link-local address. -/
def cm0 (mtu : Nat) : CmReq := { service := mgmtService, rc := true, mtu := mtu, gidIndex := 0, srcGid := 0, remoteQpn := 1 }
theorem free_qp_zero (s : State) (h : s.net.qps = []) (hr : s.net.resting = []) (hq : s.svc.requests = []) : s.freeQp = some 0 := by
  unfold State.freeQp
  rw [show (16384 : Nat) = 16383 + 1 from rfl]
  exact find_range_zero _ _ (by rw [h, hr, hq]; rfl)
theorem test_ConnectionsAndRates_req : ∃ s : State, (s.portSt 0).state = .up ∧ (s.judgeReq 0 (cm0 1000)).isLeft = true ∧
    (s.judgeReq 0 (cm0 1024)).isRight = true ∧ s.freeQp = some 0 :=
  ⟨portS { state := .up, linkLocalOk := true }, by decide, by decide, by decide, free_qp_zero _ rfl rfl rfl⟩
def winCmd (w : Nat) : CmdHdr := { path := .ring, seq := BitVec.ofNat 32 w }
def outW : OutWrite := { work := .mailbox, va := 0, data := [] }
def outR : OutRead := { core := 0, engine := .move, seq := 0, va := 0, len := 32, dest := 0 }
theorem test_ConnectionsAndRates_hyps :
    let x : Qp := { kind := .window 3, port := 0, state := .init }
    let s : State := { qpSt x with ctl := { opening := [(3, winCmd 3)], inProgress := [{ hdr := winCmd 3, op := 0x0601, wall := 0, time := 0 }] } }
    look s.net.qps 0 = some x ∧ x.kind = .window 3 ∧ x.state = .init ∧ look s.ctl.opening 3 = some (winCmd 3) ∧ x.reqTries < 3 ∧
    s.ctl.inProgress.map (fun c => (c.hdr, c.op, c.discard)) = [(winCmd 3, 0x0601, false)] ∧
    ({ x with state := .rtr, rtuTries := 2 } : Qp).rtuTries < 3 ∧ 3 ≤ ({ x with state := .rtr, rtuTries := 3 } : Qp).rtuTries ∧
    (x.lastCnp = none ∧ ({ x with lastCnp := some 0 } : Qp).lastCnp = some 0 ∧ s.now < 0 + 50000) ∧
    x.lastCut + max 1 (s.portSt 0).rclHold * 10000 ≤ ({ s with now := 1000000 } : State).now ∧
    (let y : Qp := { x with state := .rts, outstanding := [outW], reads := [outR] }
     y.outstanding ≠ [] ∧ y.timeouts < retryCount y.kind ∧ retryCount y.kind ≤ ({ y with timeouts := 7 } : Qp).timeouts ∧
      (s.portSt 0).readWait = []) := by decide
/-- Every queue-pair index rests: a REQ finds none. -/
theorem test_ConnectionsAndRates_none :
    ({ State.reset with net := { resting := (List.range 16384).map fun i => (i, 0) } } : State).freeQp = none := by
  unfold State.freeQp
  refine List.find?_eq_none.mpr fun i hi h => ?_
  have hr : ((List.range 16384).map fun i => ((i, 0) : Nat × Nat)).any (fun r => r.1 == i && decide (State.reset.now < r.2 + 100000000)) = true :=
    List.any_eq_true.mpr ⟨(i, 0), List.mem_map.mpr ⟨i, hi, rfl⟩, (Bool.and_eq_true _ _).mpr ⟨beq_self_eq_true i, rfl⟩⟩
  simp only [Bool.and_eq_true, Bool.not_eq_true'] at h
  exact absurd hr (by rw [h.1.2]; decide)

/-! ### Witnesses: power, feeds, heat -/

def clusS (k : Cluster) : State := { State.reset with clusters := [(0, k)] }
def pwrS (d : DevState) (p : Pwr) : State := { State.reset with dev := d, pwr := p }
def heatS (h : Heat) : State := { State.reset with heat := h }
def powUp (s : State) : State := { s with fw := { s.fw with powUp := true } }
set_option maxRecDepth 8192 in
theorem test_ClocksDomainsAndTheCap_hyps :
    let k (x : Cluster) : Cluster := (clusS x).cluster 0
    (k {}).clk = (k {}).goal ∧ (k { clk := .div 16 }).clk ≠ (k { clk := .div 16 }).goal ∧
    ((linkS { state := .up }).linkSt 0).state = .up ∧
    ((pwrS .ready { offered := [1], source := 1 }).pwr.offered.contains 1 = true ∧ (pwrS .ready { offered := [1], source := 1 }).pwr.source = 1) ∧
    (let p := (pwrS .ready { offered := [1, 2], source := 2, srcCfg := 3 }).pwr
     p.offered.contains 1 = true ∧ p.source ≠ 1 ∧ 1 ∈ (sourceOrder p.srcCfg).takeWhile (· != p.source)) ∧
    (((State.reset.core 0).queue .vec).isEmpty = true ∧ Engine.vec ∉ (State.reset.core 0).gatesClosed) ∧
    ((k { gateOpen := true }).wave = none ∧ (k { gateOpen := true }).gateOpen = true) ∧
    ((k {}).phases.getLsbD 5 = true ∧ (let y := { k { phases := 0x1F } with phases := (k { phases := 0x1F }).phases &&& ~~~(1#6 <<< 4) }
      y.working = 4 ∧ y.fenced = false) ∧
      (let y := { k { phases := 0x0F } with phases := (k { phases := 0x0F }).phases &&& ~~~(1#6 <<< 0) }
       y.working ≤ 3 ∧ y.fenced = false)) ∧
    (3 ∉ (k {}).droopDropped ∧ 399 < 400 ∧ lookD (k { droopBad := [(3, 9)] }).droopBad 3 0 = 9) ∧
    (let s := clusS { dom := .waitBudget }
     (s.cluster 0).dom = .waitBudget ∧ s.fw.powRestart = false ∧ s.rampNear 0 = false ∧ s.waitsBefore 0 = false ∧ 86000 + 4000 ≤ 90000 ∧
      0 + 4000 * ((s.clusters.filter fun p => p.2.dom == .rampUp).length + 1) ≤ 1250000 ∧ s.heat.coolant ≠ .absent ∧ 90000 < 86001 + 4000) ∧
    ((k { dom := .rampUp }).dom = .rampUp ∧ ((k { dom := .rampDown }).dom = .rampDown ∧ (k { dom := .rampDown }).domPending = false) ∧
      (k {}).dom ≠ .rampUp ∧ (k {}).dom ≠ .rampDown) ∧
    (let s := powUp (pwrS .ready { fastLimit := true, sustained := true, capLevel := 8 })
     s.fw.powUp = true ∧ s.fw.powRestart = false ∧ s.heat.probing = false ∧ s.pwr.capLevel ≤ 8 ∧ s.pwr.fastLimit = true ∧
      s.pwr.sustained = true ∧ s.pwr.capW < 3601) := by decide
/-- The neighbour CD1 ramps, or CD0 waits before CD1. -/
theorem test_ClocksDomainsAndTheCap_waits :
    (let s : State := { State.reset with clusters := [(0, { dom := .waitBudget }), (1, { dom := .rampUp })] }
     (s.cluster 0).dom = .waitBudget ∧ s.rampNear 0 = true) ∧
    (let s : State := { State.reset with clusters := [(0, { dom := .waitBudget }), (1, { dom := .waitBudget })] }
     (s.cluster 1).dom = .waitBudget ∧ s.waitsBefore 1 = true) := by
  refine ⟨by decide, by decide, List.any_eq_true.mpr ⟨0, List.mem_range.mpr (by decide), by decide⟩⟩
theorem test_FeedsResetAndSag_hyps :
    State.reset.dev = .off ∧ (pwrS .ready {}).dev ≠ .off ∧ (pwrS .ready {}).dev ≠ .saving ∧
    ((pwrS .saving { recorded := true }).dev = .saving ∧ (pwrS .saving { recorded := true }).pwr.recorded = true ∧
      (pwrS .saving { recorded := true }).pwr.thermtrip = false) ∧
    ((pwrS .ready { feedB := { ok := true } }).pwr.feed 1).ok = true ∧
    (let s := pwrS .ready { feedA := { ok := true }, feedB := { ok := true }, conducting := 1 }
     s.pwr.conducting = conductingOf 0 ∧ (s.pwr.feed 1).ok = true ∧ (s.pwr.feed 1).connected = true ∧ (s.pwr.feed 1).mated = true ∧
      (let u (x : Feed) : Bool := x.connected && x.mated && x.ok; u s.pwr.feedA = true ∧ u s.pwr.feedB = true)) ∧
    (let s := pwrS .saving { sagRec := some {} }
     s.dev = .saving ∧ s.pwr.sagRec = some {} ∧ lowestFree (keys s.fw.lastGasp) 64 = some 0) := by decide
set_option maxRecDepth 8192 in
theorem test_HeatThrottlesStopsAndTrips_hyps :
    (29 ≤ 29 ∧ 15 < 16 ∧ (16 ≤ 27 ∧ 27 < 28)) ∧
    (let s := heatS { chans := [(0, { hist := [40, 30, 20, 10, 0] })], zones := [(chanZone 0, { interval := 2 })] }
     chanStack 0 = some 0 ∧ (s.heat.chan 0).dropped = false ∧ s.heat.risesFast 0 = true ∧ dieOf 127 = 0) ∧
    (let s := heatS { stacksStopped := 1, tach := 4000 }
     s.heat.stacksStopped.getLsbD 0 = true ∧ 4000 ≤ s.heat.tach ∧ s.heat.stackMax 0 ≤ 1440) ∧
    ((powUp State.reset).fw.powUp = true ∧ (powUp State.reset).fw.powRestart = false ∧ (powUp State.reset).heat.coolant = .normal ∧
      (powUp State.reset).heat.flowSensorFailed = false ∧ (powUp State.reset).flowByHeat 0 = none) ∧
    ((heatS { coolant := .lowFlow, flow := 4200 }).heat.coolant = .lowFlow ∧ 4200 ≤ (heatS { coolant := .lowFlow, flow := 4200 }).heat.flow) ∧
    (({ State.reset with dev := .training } : State).dev = .training ∧ State.reset.heat.flow < 2000) ∧
    (let s := heatS { coolant := .absent }
     s.heat.coolant = .absent ∧ s.heat.probing = false ∧ (s.heat.chan inletChan).dropped = false ∧ (s.heat.chan outletChan).dropped = false) ∧
    ((heatS { probing := true, flowOk := 10 }).heat.probing = true ∧ 10 ≤ (heatS { probing := true, flowOk := 10 }).heat.flowOk) ∧
    (let s := { heatS { chans := [(0, { raw := 1840 }), (1, { raw := 1840 })] } with dev := .ready }
     tripAt 0 = some 1840 ∧ 1840 ≤ s.heat.used 0 ∧ s.dev ≠ .off ∧ s.dev ≠ .tripped) ∧
    (let s := { heatS { chans := [(inletChan, { raw := 240 })], flow := 4000 } with dev := .selftest }
     s.dev = .selftest ∧ 240 ≤ (s.heat.chan inletChan).raw ∧ (s.heat.chan inletChan).raw ≤ 640 ∧ 4000 ≤ s.heat.flow ∧
      ((List.range 4).any fun q => (s.heat.zone q).pairLost) = false) := by decide

/-! ### Witnesses: bring-up, recovery, control -/

def fwS (d : DevState) (f : Fw) : State := { State.reset with dev := d, fw := f }
def rom0 (hub flash recov rec : Bool) : RomInput :=
  { diePos := [0, 1, 2, 3, 4], guestDie := some 5, guestPop := true, recovLow := recov, flashOk := flash, hubOk := hub, slotAPass := true, slotBPass := false
    recoveryPass := rec, deviceProfileOk := true, networkProfileOk := true }
def bun : BundleInfo := { major := 1, minor := 0, build := 0, secVersion := 0, keyIndex := 1, advanceSvn := true, revokeKey0 := true, size := 65536
                          headerOk := true, keyHash := 0, signatureOk := true, componentsOk := true, digest := 0 }
def slotS (st : SlotState) : Slot := { state := st, seq := some 1, bundle := some bun }
set_option exponentiation.threshold 1000 in
set_option maxRecDepth 8192 in
theorem test_BringUpReachesReady_hyps :
    (fwS .powering {}).dev = .powering ∧ State.reset.dev ≠ .powering ∧
    (let s := fwS .rom { kh1 := some 0, slotA := slotS .active }
     s.dev = .rom ∧ s.fw.rstHeld = false ∧ s.fw.secUp = false ∧ s.fw.stopped = false ∧ s.fw.strapsLatched = false ∧
      strapsOk [0, 1, 2, 3] none = false ∧ strapsOk (rom0 true true false true).diePos (some 5) = true ∧ s.fw.kh1.isSome = true ∧
      s.fw.candidates = [true] ∧ s.slotPasses (rom0 true true false true) true = true ∧
      s.slotPasses { rom0 true true false true with slotAPass := false } true = false) ∧
    (({ kh0Revoked := true } : Fw).kh1 = none ∧ ({ kh0Revoked := true } : Fw).kh0Revoked = true) ∧
    (let f : Fw := { kh1 := some 1 }
     f.recovery.any f.keyOk = true ∧ Image.recovery ∉ f.excluded ∧ f.candidates = [] ∧ f.kh1.isSome = true) := by decide
set_option maxRecDepth 8192 in
theorem test_BringUpReachesReady_later :
    (let s := fwS .rom { secUp := true, image := .slotA }
     s.fw.secUp = true ∧ s.fw.stopped = false ∧ s.fw.powUp = false ∧ s.fenced 0 = false ∧ (s.linkSt 0).enable = true ∧
      (s.linkSt 0).state = .down ∧ s.fw.image = .slotA ∧ 3 < (s.cluster 0).working ∧ s.fw.powRestart = false ∧
      ({ s with clusters := [(0, { phases := 7 })] }.cluster 0).working ≤ 3) ∧
    (pwrS .rom { guestOn := true }).pwr.guestOn = true ∧
    ((fwS .training {}).dev = .training ∧ (fwS .training {}).fenced 0 = false ∧ ((fwS .training {}).cluster 0).dom ≠ .on) ∧
    (let s : State := { fwS .filling { slicesFilled := true } with outers := (List.range 12).map fun m => (m, { fillDone := true }) }
     s.dev = .filling ∧ s.fw.slicesFilled = true ∧ ∀ m, m < 12 → (s.outer m).failed = true ∨ (s.outer m).fillDone = true) ∧
    ((fwS .selftest { checkerDone := true }).dev = .selftest ∧ (fwS .selftest { checkerDone := true }).fw.checkerDone = true ∧
      (fwS .selftest { checkerDone := true }).fw.selftestDone = false) ∧
    (let s := fwS .computeReset { resetStep := 4, resetting := [0], broadcasting := true, chunks := 2, chunkNext := 2 }
     s.fw.resetStep = 4 ∧ s.fw.stopped = false ∧ s.fw.broadcasting = true ∧ s.loading = [0] ∧ s.loading.Nodup ∧ dieOf 0 = 0 ∧
      (s.cluster 0).fwRunning = false ∧ (s.cluster 0).fwRounds < 2 ∧ s.fw.chunks ≤ s.fw.chunkNext) ∧
    (let s : State := { fwS .computeReset { resetStep := 4, resetting := [0], broadcasting := true, secUp := true, powUp := true
                                            resetCmd := some (winCmd 0) } with
       clusters := [(0, { fwRunning := true, fwRounds := 2 })]
       ctl := { inProgress := [{ hdr := winCmd 0, op := 0x0102, wall := 0, time := 0, started := true }] } }
     s.fw.secUp = true ∧ s.fw.powUp = true ∧ s.fw.secRestart = false ∧ s.fw.powRestart = false ∧ s.dev ≠ .selftest ∧
      (∀ cd ∈ s.loading, (s.cluster cd).fwRunning = true) ∧ s.fw.resetCmd = some (winCmd 0) ∧ 2 ≤ (s.cluster 0).fwRounds ∧
      s.ctl.inProgress.map (fun c => (c.hdr, c.op, c.discard)) = [(winCmd 0, 0x0102, false)]) ∧
    (let s := fwS .ready { secUp := true, lastGasp := [(5, {}), (6, {})] }
     (look s.fw.lastGasp 5).isSome = true ∧ 5 ∉ s.fw.lastGaspCopied ∧ 6 ∉ s.fw.lastGaspCopied ∧ 6 / 4 = 5 / 4) := by decide
/-- Every cluster ON, running its image, or fenced. -/
def allS (d : DevState) (k : Cluster) : State := { State.reset with
  dev := d, clusters := (List.range 512).map fun cd => (cd, k)
  fw := { broadcasting := true, secUp := true, powUp := true, selftestDone := true } }
theorem look_const {α : Type} (v : α) (i : Nat) : ∀ l : List Nat, i ∈ l → look (l.map fun x => (x, v)) i = some v
  | [], h => absurd h (List.not_mem_nil)
  | x :: l, h => by
    simp only [List.map_cons, look]
    split
    · rfl
    · rename_i hx
      exact look_const v i l ((List.mem_cons.mp h).resolve_left hx)
theorem allS_cluster (d : DevState) (k : Cluster) (cd : Nat) (h : cd < 512) : (allS d k).cluster cd = k := by
  simp only [allS, State.cluster, lookD, look_const k cd _ (List.mem_range.mpr h), Option.getD_some]
theorem test_BringUpReachesReady_all :
    (∀ cd, cd < 512 → ((allS .training { dom := .on }).cluster cd).dom = .on) ∧
    ∀ cd ∈ (allS .selftest { fwRunning := true }).loading, ((allS .selftest { fwRunning := true }).cluster cd).fwRunning = true := by
  refine ⟨fun cd h => by rw [allS_cluster _ _ cd h], fun cd h => ?_⟩
  have hl : cd ∈ (List.range 512).filter fun cd => !(allS .selftest { fwRunning := true }).fenced cd := by
    simpa only [State.loading, allS, if_true] using h
  rw [allS_cluster _ _ cd (List.mem_range.mp (List.mem_filter.mp hl).1)]
set_option maxRecDepth 20000 in
theorem test_BringUpReachesReady_enabled :
    0 < (allS .selftest { fwRunning := true }).enabledClusters ∧ (allS .selftest { fenced := true }).enabledClusters = 0 := by decide +kernel
theorem test_ProcessorsRestart_hyps :
    (let s := fwS .ready { secUp := true, powUp := true, schUp := true }
     s.dev.up = true ∧ (recent s.fw.secTimes s.now window600).length < 3 ∧ s.fw.powRestart = false ∧ s.fw.schRestart = false) ∧
    (let s := fwS .ready { secUp := true, secTimes := [0, 0] }
     s.dev.up = true ∧ 3 ≤ (recent s.fw.secTimes s.now window600).length) ∧
    ((fwS .training { secUp := true }).dev.up = false ∧ (fwS .training { secUp := true }).dev ≠ .off) ∧
    (let k := (clusS { fwRunning := true }).cluster 0
     k.fenced = false ∧ k.restarting = false ∧ k.fwRunning = true ∧ (recent k.restarts 0 window600).length < 3) ∧
    (3 ≤ (recent ((clusS { fwRunning := true, restarts := [0, 0] }).cluster 0).restarts 0 window600).length) ∧
    ((clusS { restarting := true }).cluster 0).restarting = true ∧ State.reset.fw.schRestart = false ∧
    (fwS .ready { secRestart := true }).fw.secRestart = true ∧
    (let s := { fwS .ready { powRestart := true } with clusters := [(0, { phases := 7 })] }
     s.fw.secRestart = false ∧ s.fw.powRestart = true ∧ (look s.clusters 0).any (fun k => decide (k.working ≤ 3)) = true) ∧
    (fwS .ready { schRestart := true }).fw.schRestart = true := by decide
set_option exponentiation.threshold 1000 in
set_option maxRecDepth 8192 in
theorem test_ResetsActivationAndRecords_hyps :
    ((Ev.code .hubArrayUe) % 65536 = Ev.code .hubArrayUe ∧ (fwS .ready {}).dev = .ready ∧
      (recent (fwS .ready {}).fw.devErrTimes 0 window600).length < 3 ∧
      3 ≤ (recent (fwS .ready { devErrTimes := [0, 0] }).fw.devErrTimes 0 window600).length) ∧
    ((fwS .ready { resetStep := 1 }).fw.resetStep = 1 ∧ (fwS .ready { resetStep := 1 }).fw.resetAll = false) ∧
    (let s := fwS .ready { resetStep := 3, resetting := [0] }
     s.fw.resetStep = 3 ∧ (∀ cd ∈ s.fw.resetting, s.heat.stacksStopped.getLsbD (dieOf cd) = false)) ∧
    (heatS { stacksStopped := 1 }).heat.stacksStopped.getLsbD (dieOf 0) = true ∧
    (fwS .ready { resetDelay := true }).fw.resetDelay = true ∧
    ((pwrS .ready { feedA := { ok := true } }).emergency = true ∧ State.reset.emergency = false) ∧
    (State.reset.fenced 3 = false ∧ State.reset.mayReload [.cluster 3, .power] (.cluster 3) = true ∧
      State.reset.mayReload [.scheduler, .security, .power] .scheduler = true ∧ State.reset.mayReload [.power] .power = true) ∧
    (let s := fwS .ready { activation := .deferred 0, image := .slotB, slotA := slotS .staged, slotB := slotS .active }
     s.dev = .ready ∧ s.fw.secRestart = false ∧ s.activationCheck 0 = none ∧ s.activationCheck 1 ≠ none ∧ s.byReset = false) ∧
    (fwS .ready { image := .recovery, slotA := slotS .staged }).byReset = true ∧
    (let s := fwS .ready { image := .slotA, slotA := slotS .active, switchedRestarts := [(0, 2)], newBundle := true }
     (∃ p ∈ s.fw.switchedRestarts, 2 ≤ p.2) ∧ s.fw.image = .slotA ∧ s.activeBundle.isSome = true ∧ s.fw.newBundle = true) ∧
    8 < (fwS .ready { image := .slotB, switchFails := 9 }).fw.switchFails ∧ (fwS .ready { erasing := some true }).fw.erasing = some true ∧
    (let s := State.reset.logEvent .sliceCe { ut := utSlice, ui := 0 }
     (s.log.open_.find? fun r => r.event == Ev.code .sliceCe && r.unitType == utSlice && r.unitIndex == 0).isSome = true) ∧
    (let s := ({ State.reset with life := { State.reset.life with toCopy := [0] } }).logEvent .sliceUe { ut := utSlice, ui := 0 }
     0 ∈ s.life.toCopy ∧ (look s.log.ring 0).any (fun r => decide (r.index = 0)) = true) := by decide
def ctlS (k : Ctl) : State := { State.reset with dev := .ready, ctl := k, net := { qps := [(0, { kind := .mgmt, port := 0, state := .rts })] } }
def resp0 (p : Path) : Resp := { hdr := { path := p, seq := 1 }, op := 0x0101, status := 0, effect := true, detail := 0, results := [], endTime := 0 }
/-- A GET_INFO entry of a command ring. -/
def infoEntry : List Byte := leBytes 4 0x0101 ++ leBytes 4 1 ++ leBytes 8 0
theorem test_RingsAndRegistersAnswer_hyps :
    ((ctlS {}).mgmtQp 0 = true ∧ (ctlS {}).mgmtQp 1 = false ∧ (ctlS {}).ctl.holder = none ∧ cnt16 256 (ctlS {}).ctl.cmdHead ≤ 256 ∧
      256 < cnt16 257 (ctlS {}).ctl.cmdHead ∧ (ctlS { holder := some 0 }).ctl.holder = some 0 ∧
      (ctlS { holder := some 1 }).ctl.holder = some 1) ∧
    (let s := { ctlS { cmdTail := 1 } with mem := ({} : Mem).write mailboxBase infoEntry }
     s.ctl.cmdHead ≠ s.ctl.cmdTail ∧ s.ctl.ringBusy < 32 ∧ s.ctl.stalled = false ∧ s.ctl.resetting = false ∧ s.fw.schRestart = false ∧
      (cmdInfo (field (s.mem.read (mailboxBase + 256 * (s.ctl.cmdHead % 256)) 256) 0 2)).isSome = true ∧
      entryOk (s.mem.read (mailboxBase + 256 * (s.ctl.cmdHead % 256)) 256) = true) ∧
    ((ctlS {}).ctl.cmdHead = (ctlS {}).ctl.cmdTail ∧ (ctlS { completed := [resp0 .ring], rspTail := 256 }).ctl.stalled = true ∧
      (ctlS { resetting := true }).ctl.resetting = true ∧
      32 ≤ (ctlS { completed := List.replicate 32 (resp0 .ring) }).ctl.ringBusy) ∧
    (let s := ctlS { i2cCmd := infoEntry }
     s.dev ≠ .off ∧ s.ctl.i2cGo = false ∧ s.fw.schRestart = false ∧ (cmdInfo (field s.ctl.i2cCmd 0 2)).isSome = true ∧ entryOk s.ctl.i2cCmd = true) ∧
    (ctlS { i2cGo := true }).ctl.i2cGo = true ∧
    ((ctlS {}).ctl.completed.all (fun r => r.hdr.path == .ring && !(ctlS {}).ctl.rspRoom) = true) ∧
    ((resp0 .ring).hdr.path = .ring ∧ (ctlS { completed := [resp0 .ring] }).ctl.rspRoom = true ∧ (resp0 .i2c).hdr.path = .i2c) ∧
    ((List.replicate 8 (0 : Byte)).length = 8 ∧ ((1 : Byte).toNat * 256 + (0x18 : Byte).toNat) % 8 = 0 ∧ (List.replicate 7 (0 : Byte)).length < 8 ∧
      (0x0110 : Half).toNat % 8 = 0 ∧ State.reset.dev = .off) ∧
    ((State.reset.outer 11).activeSaved = none ∧ ((outerSt { activeSaved := some 16 }).outer 1).activeSaved.isSome = true) ∧
    ((ctlS {}).i2cAnswers 0x5C#7 = true ∧ (ctlS {}).i2cAnswers 0x5D#7 = false ∧ (ctlS {}).fw.profDevBoot = []) ∧
    ((ctlS {}).fwRuns = true ∧ State.reset.fwRuns = false) := by decide
/-- While the scheduler core restarts, a reader sees the last image with Sched_Restart, and a write of the mask waits (R422, R439). -/
theorem test_dcs_image :
    (let s := after (.watchdogExpiry .scheduler) { ctlS {} with fw := { secUp := true, schUp := true } }
     s.fw.schRestart = true ∧ (s.dcsReg 0x0100).testBit 21 = true ∧ (after (.alertMaskWrite 1) s).dcsReg 0x0118 = 8 ∧
       (after (.procRestartDone .scheduler) (after (.alertMaskWrite 1) s)).dcsReg 0x0118 = 1) := by decide +kernel
/-- The buffer that an entry of GET_ERROR_LOG names (R431, R441). -/
theorem test_buffer_named : bufNamed 0x0B01 (leBytes 8 0 ++ leBytes 2 7 ++ leBytes 2 0x102 ++ leBytes 212 0) = some { window := 7, buffer := 0x102 } ∧
    bufNamed 0x0C04 (leBytes 224 1) = none := by decide
theorem test_RingResetDiscards_hyps :
    (let s := ctlS { holder := some 0, inProgress := [{ hdr := (resp0 .ring).hdr, op := 0x0101, wall := 0, time := 0 }] }
     s.mgmtQp 0 = true ∧ s.ctl.holder = some 0 ∧ ∃ c ∈ s.ctl.inProgress, c.hdr.path = .ring) ∧
    (∀ c ∈ (ctlS { holder := some 0 }).ctl.inProgress, c.hdr.path ≠ .ring) ∧
    (let t := after (.ringReset false 0) (ctlS { holder := some 0, inProgress := [{ hdr := (resp0 .ring).hdr, op := 0x0101, wall := 0, time := 0 }] })
     t.ctl.inProgress = [{ hdr := (resp0 .ring).hdr, op := 0x0101, wall := 0, time := 0, discard := true }]) := by decide

/-- An entry of CANCEL_TASK with a byte past its Task_Id is refused, one whose Args end there is not (R15, R431). -/
theorem test_unused_argument_bytes : entryOk (leBytes 0x20 0x0502 ++ leBytes 8 7 ++ leBytes 216 0) = true ∧
    entryOk (leBytes 0x20 0x0502 ++ leBytes 8 7 ++ leBytes 216 1) = false := by decide

/-! ### Witnesses: mailbox commands -/

def hdr0 : CmdHdr := { path := .ring, seq := 1 }
def cmd0 (op : Nat) : Cmd := { hdr := hdr0, op := op, wall := 0, time := 0 }
/-- READY with one command in progress, an owner session on the ring and nothing else. -/
def cmdSt (op : Nat) : State := { State.reset with
  dev := .ready, ctl := { inProgress := [cmd0 op] }, fw := { secUp := true, powUp := true, schUp := true }
  ident := { owner := some 0, sessRing := some { owner := true, slot := 0, endTime := some 9 } } }
theorem runs_intro {s : State} {op : Nat} (h1 : s.ctl.inProgress = [cmd0 op]) (h2 : s.fw.schRestart = false)
    (h3 : s.ctl.turn (cmd0 op) = true) (h4 : s.cmdRefusal .ring op = none) : s.runs hdr0 op :=
  ⟨cmd0 op, h1, rfl, rfl, rfl, rfl, rfl, h2, h3, h4⟩
def allOps : List Nat :=
  [0x0101, 0x0102, 0x0103, 0x0104, 0x0105, 0x0201, 0x0202, 0x0301, 0x0302, 0x0303, 0x0304, 0x0305, 0x0306, 0x0307, 0x0308, 0x0401, 0x0402,
   0x0501, 0x0502, 0x0503, 0x0504, 0x0505, 0x0506, 0x0507, 0x0508, 0x0601, 0x0602, 0x0603, 0x0604, 0x0605, 0x0701, 0x0702, 0x0703, 0x0704,
   0x0801, 0x0802, 0x0901, 0x0902, 0x0903, 0x0A01, 0x0A02, 0x0A03, 0x0A04, 0x0A05, 0x0A06, 0x0A07, 0x0A08, 0x0B01, 0x0B02, 0x0C01, 0x0C02,
   0x0C03, 0x0C04, 0x0C05]
/-- Every one of the 54 commands runs in some state. -/
theorem test_commands_run : allOps.length = 54 ∧ ∀ op ∈ allOps, (cmdSt op).runs hdr0 op := by
  refine ⟨rfl, fun op hop => ?_⟩
  have h : ∀ op ∈ allOps, (cmdSt op).ctl.turn (cmd0 op) = true ∧ (cmdSt op).cmdRefusal .ring op = none := by decide
  exact runs_intro rfl rfl (h op hop).1 (h op hop).2
theorem test_LysIdIsWrittenWhenIdle_hyps : (∀ l, l < 8 → ((cmdSt 0x0C02).linkSt l).state = .down) ∧ (cmdSt 0x0C02).runs hdr0 0x0C02 ∧
    ((linkS { state := .up }).linkSt 0).state = .up :=
  ⟨by decide, runs_intro rfl rfl (by decide) (by decide), by decide⟩
theorem test_CommandsWaitForTheirTurn_hyps :
    cmdOf (.getInfo hdr0) = some (hdr0, 0x0101) ∧ State.reset.ctl.inProgress = [] ∧
    ((cmdSt 0x0101).ctl.inProgress.find? fun c => c.hdr = hdr0 && c.op == 0x0101 && !c.started) = some (cmd0 0x0101) ∧
    (let s : State := { cmdSt 0x0101 with fw := { schRestart := true } }
     s.fw.schRestart = true) ∧
    (let s : State := { cmdSt 0x0101 with ctl := { inProgress := [cmd0 0x0103, cmd0 0x0101] } }
     s.ctl.turn (cmd0 0x0101) = false) ∧
    (let s : State := { cmdSt 0x0201 with ident := {} }
     s.ctl.inProgress = [cmd0 0x0201] ∧ s.ctl.turn (cmd0 0x0201) = true ∧ s.cmdRefusal .ring 0x0201 = some stDenied) ∧
    (let c : Cmd := { cmd0 0x0201 with hostOwned := true }
     let s : State := { cmdSt 0x0201 with ctl := { inProgress := [c] } }
     c.hdr = hdr0 ∧ c.op = 0x0201 ∧ s.ctl.turn c = true ∧ s.cmdRefusal .ring 0x0201 = none ∧ s.fw.schRestart = false ∧ s.fw.resetStep = 0) := by decide
theorem test_ClusterDomainsAreNumbered_hyps : 3 < 4 ∧ 15 < 16 ∧ 7 < 8 ∧ 63 < 64 ∧ cdOf (3 * 2 ^ 13 + 7 * 2 ^ 10 + 15 * 2 ^ 6 + 63) = 511 := by decide
/-- One command in progress and the object buffer handed to the device with `bs` (direction 0) or free for as many bytes (1). -/
def bufSt (op dir n : Nat) (bs : List Byte) : State := { cmdSt op with
  mem := (({} : Mem).write objectBuffer (leBytes 8 ownDevice ++ leBytes 8 0 ++ leBytes 8 n ++ leBytes 4 dir)).write (objectBuffer + 64) bs }
def buf0 : BufRef := { window := 255, buffer := 0 }
theorem test_buffers : (bufSt 0x0C04 0 2 [5, 1]).bufRefusal .ring buf0 0 = none ∧ (bufSt 0x0C04 0 2 [5, 1]).bufIn .ring buf0 = [5, 1] ∧
    (bufSt 0x0B01 1 64 []).bufRefusal .ring buf0 1 = none ∧ (bufSt 0x0B01 1 64 []).bufLen .ring buf0 = 64 ∧
    (bufSt 0x0C04 0 2 [5, 1]).runs hdr0 0x0C04 ∧ (bufSt 0x0B01 1 64 []).runs hdr0 0x0B01 :=
  ⟨by decide, by decide, by decide, by decide, runs_intro rfl rfl (by decide) (by decide), runs_intro rfl rfl (by decide) (by decide)⟩
set_option maxRecDepth 8192 in
theorem test_DeviceCommandsAct_hyps :
    ((cmdSt 0x0102).fw.resetStep = 0 ∧ (fwS .computeReset { resetStep := 1 }).fw.resetStep ≠ 0) ∧
    (profSize 0x01000002 ≠ 0 ∧ ∃ v ∈ [State.reset.profNow 0x01000002], v.length = profSize 0x01000002 ∧ v.length ≤ 192 ∧ profOk 0x01000002 v = true) ∧
    ((lookD (cmdSt 0x0601).ctl.windows 63 ({} : Win)).state = 0 ∧ look (cmdSt 0x0601).ctl.opening 63 = none ∧
      (lookD [((63, { state := 2 }) : Nat × Win)] 63 {}).state = 2) ∧
    (memoryRange 0 (2 ^ 20) = true ∧ memoryRange outerBase (2 ^ 40) = true ∧ 4095 < 4096 ∧ 255 ≤ 255) ∧
    ((cmdSt 0x0603).ctl.retires = [] ∧ (cmdSt 0x0603).retiredPage 0 32767 191 = false ∧ ((cmdSt 0x0603).slice 32767).freeSpare = some 0 ∧
      (cmdSt 0x0603).retiredPage 1 11 65535 = false ∧ ((cmdSt 0x0603).outer 11).freeSpare = some 0) ∧
    (unitRegsUnit (.router 511) = true ∧ unitExists (.router 511) = true ∧ 0 < ((cmdSt 0x0604).block (.router 511)).length) ∧
    (1500 ≤ 1500 ∧ 4000 ≤ 4000 ∧ 1499 < 1500 ∧ 4000 < 4001) ∧
    ((0xFFF : Half).toNat < 4096 ∧ (0xFFF : Half).getLsbD 11 = true ∧ ((cmdSt 0x0702).outer 11).activeSaved = none) ∧
    (((clusS { fenced := true }).cluster 0).fenced = true ∧
      (((clusS { wave := some (1, 0) }).cluster 0).wave.isSome = true ∧ ((clusS { wave := some (1, 0) }).cluster 0).dom ≠ .fenced) ∧
      ((cmdSt 0x0703).cluster 511).dom = .off) ∧
    bits (0x1FFFFFFF : Word).toNat 31 29 = 0 ∧ (bufSt 0x0B01 1 64 []).mem.wf = true ∧
    ((cmdSt 0x0C01).linkSt 7).state ≠ .draining ∧ ((linkS { state := .up }).linkSt 0).enable = true ∧
    (∀ l, l < 8 → ((cmdSt 0x0C02).linkSt l).state = .down) ∧
    ((cmdSt 0x0C04).work.colls = [] ∧ field ((bufSt 0x0C04 0 2 [5, 1]).bufIn .ring buf0) 0 2 < 32768 ∧
      (look [((255, [0]) : Nat × List Nat)] 255).isSome = true) ∧
    (((cmdSt 0x0C05).portSt 3).state ≠ .draining ∧ ((cmdSt 0x0C05).portSt 3).modeSel = 1 ∧
      ((portS { state := .draining }).portSt 0).pendingOn = false) ∧
    ((cmd0 0x0102).started = false ∧ ({ cmd0 0x0102 with started := true } : Cmd).started = true) := by decide
/-- The table of 32,768 routes in the buffer of window 0, as the command's data. -/
theorem test_DeviceCommandsAct_routes : (List.replicate 32768 (0x80 : Byte)).length = 32768 ∧
    let w : Win := { state := 2, len := 32768 }
    let s : State := { cmdSt 0x0C03 with
      mem := ({} : Mem).write bufTables (leBytes 8 ownDevice ++ leBytes 8 0 ++ leBytes 8 32768 ++ leBytes 4 0)
      ctl := { inProgress := [cmd0 0x0C03], windows := [(0, w)] } }
    s.bufRefusal .ring { window := 0, buffer := 0, data := List.replicate 32768 0x80 } 0 = none ∧ s.runs hdr0 0x0C03 :=
  ⟨List.length_replicate, by decide, runs_intro rfl rfl (by decide) (by decide)⟩
theorem test_DeviceCommandsAct_open : ∃ s : State, s.runs hdr0 0x0601 ∧ (s.portSt 0).state = .up ∧ (s.portSt 0).gidOk 0 = true ∧ s.freeQp = some 0 :=
  ⟨{ cmdSt 0x0601 with net := { ports := [(0, { state := .up, linkLocalOk := true })] } }, runs_intro rfl rfl (by decide) (by decide),
    by decide, by decide, free_qp_zero _ rfl rfl rfl⟩

/-- An object of one Type by one signer. -/
def obj (type : Nat) (signer : BitVec 512) (body : List Byte) : SObj :=
  { wellFormed := true, type := type, serial := 0, counter := 1, signer := signer, sigOk := true, body := body }
theorem obj_accepted (s : State) (t : Nat) (k : BitVec 512) (body : List Byte) (hs : s.ctl.serial = 0) (hc : s.ident.counters = []) :
    s.objRefusal (obj t k body) [t] body.length k = none := by
  simp [State.objRefusal, obj, hs, Ident.counter, hc]
theorem obj_unsigned (s : State) (t : Nat) (k : BitVec 512) (body : List Byte) :
    s.objRefusal { obj t k body with sigOk := false } [t] body.length k = some stDenied := by
  simp [State.objRefusal, obj]
theorem leBytes_len (n v : Nat) : (leBytes n v).length = n := by simp [leBytes]
theorem obj_head_len (o : SObj) : (objHead o).length = 128 + o.body.length := by
  simp [objHead, envelopeHead, keyBytes, leBytes_len]; omega
/-- A buffer of host window 0 that holds an object of one signature. -/
def sigBytes : List Byte := List.replicate 29792 0
theorem sigBytes_len : sigBytes.length = 29792 := List.length_replicate
def objBuf (o : SObj) : BufRef := { window := 0, buffer := 0, data := objHead o ++ sigBytes }
/-- A clean module with an owner, and window 0 open with a buffer of `n` bytes for the device. -/
def objSt (op n : Nat) : State := { cmdSt op with
  mem := ({} : Mem).write bufTables (leBytes 8 ownDevice ++ leBytes 8 0 ++ leBytes 8 n ++ leBytes 4 0)
  ctl := { inProgress := [cmd0 op], holder := some 0, windows := [(0, { state := 2, len := 100000 })] }
  net := { qps := [(0, { kind := .mgmt, port := 0, state := .rts })] }
  ident := { (cmdSt op).ident with clean := true } }
theorem obj_spelled (s : State) (o : SObj) (h1 : sigCount o.type = 1) (h2 : s.bufLen .ring (objBuf o) = 128 + o.body.length + 29792) :
    objSpelled o (s.bufIn .ring (objBuf o)) = true := by
  have w : (objBuf o).window ≠ 255 := show (0 : Nat) ≠ 255 by decide
  have l : (objHead o ++ sigBytes).length = 128 + o.body.length + 29792 := by rw [List.length_append, obj_head_len, sigBytes_len]
  have e : s.bufIn .ring (objBuf o) = objHead o ++ sigBytes := by
    unfold State.bufIn
    rw [if_pos w, h2, ← l]
    exact List.take_length
  unfold objSpelled
  rw [e, List.take_left, l, h1, obj_head_len]
  simp
/-- An owner token of the ring. -/
def token : List Byte := 1 :: List.replicate 31 0
def tokenObj : SObj := obj 0x20 (hashOf 0) token
def tokenSt : State := objSt 0x0105 29952
theorem obj_spelled_unsigned (o : SObj) (bs : List Byte) : objSpelled { o with sigOk := false } bs = objSpelled o bs := rfl
theorem tokenObj_spelled : objSpelled tokenObj (tokenSt.bufIn .ring (objBuf tokenObj)) = true := obj_spelled _ _ rfl (by decide)
theorem test_SecurityCommandsAct_session :
    tokenSt.runs hdr0 0x0105 ∧ tokenSt.bufRefusal .ring (objBuf tokenObj) 0 = none ∧
    objSpelled tokenObj (tokenSt.bufIn .ring (objBuf tokenObj)) = true ∧ tokenObj.body.length = 32 ∧
    tokenOk tokenObj.body = true ∧ tokenSt.roleKey tokenObj.body = some 0 ∧ tokenSt.bindOk .ring tokenObj.body = true ∧
    tokenSt.objRefusal tokenObj [0x20] 32 (hashOf 0) = none ∧
    objSpelled { tokenObj with sigOk := false } (tokenSt.bufIn .ring (objBuf tokenObj)) = true ∧
    tokenSt.objRefusal { tokenObj with sigOk := false } [0x20] 32 (hashOf 0) = some stDenied :=
  ⟨runs_intro rfl rfl (by decide) (by decide), by decide, tokenObj_spelled, rfl, by decide, rfl, by decide,
    obj_accepted _ 0x20 (hashOf 0) token rfl rfl, (obj_spelled_unsigned _ _).trans tokenObj_spelled, obj_unsigned _ 0x20 (hashOf 0) token⟩
def ownerBody : List Byte := List.replicate 64 0
theorem test_SecurityCommandsAct_owner : let o := obj 3 (hashOf 0) (List.replicate 32 0)
    let c := obj 1 0 ownerBody
    (objSt 0x0A01 29952).runs hdr0 0x0A01 ∧ (objSt 0x0A01 29952).bufRefusal .ring (objBuf o) 0 = none ∧
    objSpelled o ((objSt 0x0A01 29952).bufIn .ring (objBuf o)) = true ∧ (objSt 0x0A01 29952).ownershipRefusal .ring o = none ∧
    (objSt 0x0A01 29984).runs hdr0 0x0A01 ∧ (objSt 0x0A01 29984).bufRefusal .ring (objBuf c) 0 = none ∧
    objSpelled c ((objSt 0x0A01 29984).bufIn .ring (objBuf c)) = true ∧ (objSt 0x0A01 29984).ownershipRefusal .ring c = some stDenied :=
  ⟨runs_intro rfl rfl (by decide) (by decide), by decide, obj_spelled _ _ rfl (by decide),
    by
      simp [State.ownershipRefusal, State.objRefusal, objSt, cmdSt, obj, Ident.counter, State.reset]
      decide,
    runs_intro rfl rfl (by decide) (by decide), by decide, obj_spelled _ _ rfl (by decide),
    by simp [State.ownershipRefusal, objSt, cmdSt, obj, ownerBody, State.reset]⟩
theorem test_SecurityCommandsAct_tenant : let o := obj 0x10 (hashOf 0) (3 :: List.replicate 95 0)
    let r := obj 0x11 (hashOf 0) (3 :: List.replicate 31 0)
    (objSt 0x0A02 30016).runs hdr0 0x0A02 ∧ (objSt 0x0A02 30016).bufRefusal .ring (objBuf o) 0 = none ∧ (objSt 0x0A02 30016).ident.owner = some 0 ∧
    objSpelled o ((objSt 0x0A02 30016).bufIn .ring (objBuf o)) = true ∧
    tenantOk 0 o.body = true ∧ (objSt 0x0A02 30016).objRefusal o [0x10] 0x60 (hashOf 0) = none ∧
    (objSt 0x0A02 29952).runs hdr0 0x0A02 ∧ (objSt 0x0A02 29952).bufRefusal .ring (objBuf r) 0 = none ∧
    objSpelled r ((objSt 0x0A02 29952).bufIn .ring (objBuf r)) = true ∧
    tenantOk 1 r.body = true ∧ (objSt 0x0A02 29952).objRefusal r [0x11] 0x20 (hashOf 0) = none :=
  ⟨runs_intro rfl rfl (by decide) (by decide), by decide, rfl, obj_spelled _ _ rfl (by decide), by decide,
    obj_accepted _ 0x10 (hashOf 0) (3 :: List.replicate 95 0) rfl rfl,
    runs_intro rfl rfl (by decide) (by decide), by decide, obj_spelled _ _ rfl (by decide), by decide,
    obj_accepted _ 0x11 (hashOf 0) (3 :: List.replicate 31 0) rfl rfl⟩
theorem test_SecurityCommandsAct_counters : let o := obj 0x30 (hashOf 0) (2 :: List.replicate 63 0)
    (objSt 0x0A06 29984).runs hdr0 0x0A06 ∧ (objSt 0x0A06 29984).bufRefusal .ring (objBuf o) 0 = none ∧
    objSpelled o ((objSt 0x0A06 29984).bufIn .ring (objBuf o)) = true ∧ field o.body 0 1 = 2 ∧ zeroAt o.body 1 32 = true ∧
    (objSt 0x0A06 29984).objRefusal o [0x30] 64 (hashOf 0) = none :=
  ⟨runs_intro rfl rfl (by decide) (by decide), by decide, obj_spelled _ _ rfl (by decide), by decide, by decide,
    obj_accepted _ 0x30 (hashOf 0) (2 :: List.replicate 63 0) rfl rfl⟩
theorem test_SecurityCommandsAct_buffers : (bufSt 0x0A03 1 262080 []).runs hdr0 0x0A03 ∧ (bufSt 0x0A03 1 262080 []).bufRefusal .ring buf0 1 = none ∧
    (bufSt 0x0A05 1 1 []).runs hdr0 0x0A05 ∧ (bufSt 0x0A04 1 262080 []).runs hdr0 0x0A04 ∧
    wipeCertSize ≤ (bufSt 0x0A04 1 262080 []).bufLen .ring buf0 ∧ (bufSt 0x0A04 1 1 []).bufLen .ring buf0 < wipeCertSize ∧
    (bufSt 0x0A04 1 1 []).fw.resetStep = 0 ∧ (bufSt 0x0A04 1 1 []).fw.activation = .idle :=
  ⟨runs_intro rfl rfl (by decide) (by decide), by decide, runs_intro rfl rfl (by decide) (by decide), runs_intro rfl rfl (by decide) (by decide),
    by decide, by decide, rfl, rfl⟩
def cocoonSt (step : Nat) : State := { State.reset with dev := .cocoon, ident := { cocoonStep := step } }
def guestSt (ws : Tab GuestWin) : State := { State.reset with
  dev := .ready, fw := { guestPop := true }, pwr := { guestOn := true }, ident := { guestWins := ws } }
def gwin : GuestWin := { base := outerAddr 1, size := 65536, mask := 1, rate := 64000, since := 0, tokens := 100 }
theorem test_SecurityCommandsAct_rest :
    ((cocoonSt 2).dev = .cocoon ∧ (cocoonSt 2).ident.cocoonStep = 2 ∧ (cocoonSt 2).ident.wipeDone = false ∧ (cocoonSt 2).ident.flashDone = false ∧
      (cocoonSt 5).ident.cocoonStep = 5 ∧ (cocoonSt 5).fw.secRestart = false) ∧
    (State.reset.fw.guestPop = false ∧ (guestSt []).fw.guestPop = true ∧ outerAddr 1 % 65536 = 0 ∧
      (guestSt []).guestRange (outerAddr 1) 65536 = true ∧ (guestSt []).placedRanges.any (overlaps (outerAddr 1, 65536)) = false) ∧
    ((guestSt []).pwr.guestOn = true ∧ (guestSt []).pwr.guestFenced = false ∧ (guestSt []).guestWindow 0 64 = none ∧
      (guestSt [(7, gwin)]).guestWindow (outerAddr 1) 100 = some (7, gwin) ∧ bits gwin.mask 0 0 = 1 ∧ gwin.level 0 < 101 ∧ 100 ≤ gwin.level 0) ∧
    (({ State.reset with ident := { sessRing := some { owner := true, slot := 0, endTime := some 9 } } } : State).ident.sessRing =
      some { owner := true, slot := 0, endTime := some 9 }) ∧
    ((fwS .ready { secUp := true }).fw.secUp = true ∧ (fwS .ready { secUp := true }).fw.secRestart = false) := by decide
/-- A bundle of five empty components: its header, and zeros to 0x1_0000. -/
def entry0 (t : Nat) : List Byte := leBytes 2 t ++ leBytes 2 0 ++ leBytes 4 65536 ++ List.replicate 24 0 ++ leBytes 64 (shake256 []).toNat
def bundleHead : List Byte :=
  leBytes 4 0x4257434E ++ leBytes 2 1 ++ leBytes 2 3 ++ leBytes 2 1 ++ leBytes 2 0 ++ leBytes 4 0 ++ leBytes 1 0 ++ leBytes 1 1 ++ leBytes 2 5 ++
    leBytes 4 65536 ++ List.replicate 104 0 ++ ([1, 2, 3, 4, 5].flatMap entry0)
def bundlePad : List Byte := List.replicate 64928 0
@[irreducible] def bundleBytes : List Byte := bundleHead ++ bundlePad
def bundleBuf : BufRef := { window := 0, buffer := 0, data := bundleBytes }
def bundleSt : State := { objSt 0x0901 65536 with
  fw := { secUp := true, powUp := true, schUp := true, image := .slotA, kh1 := some (shake256 (cut bundleBytes 0x20 64)), slotB := slotS .staged } }
theorem bundleHead_len : bundleHead.length = 608 := by decide +kernel
theorem key_ok_intro (f : Fw) (b : BundleInfo) (h1 : b.keyIndex ≠ 0) (h2 : f.kh1 = some b.keyHash) : f.keyOk b = true := by
  simp [Fw.keyOk, h1, h2]
theorem bundle_index : (bundleOf bundleBytes true).keyIndex ≠ 0 := by decide +kernel
theorem bundle_key : bundleSt.fw.keyOk (bundleOf bundleBytes true) = true := key_ok_intro _ _ bundle_index rfl
theorem bundle_in : bundleSt.bufIn .ring bundleBuf = bundleBytes := by
  have w : bundleBuf.window ≠ 255 := show (0 : Nat) ≠ 255 by decide
  have l : bundleBytes.length = 65536 := by
    unfold bundleBytes
    rw [List.length_append, show bundlePad.length = 64928 from List.length_replicate, bundleHead_len]
  unfold State.bufIn
  rw [if_pos w, show bundleSt.bufLen .ring bundleBuf = 65536 from by decide, ← l]
  exact List.take_length
set_option exponentiation.threshold 1000 in
set_option maxRecDepth 8192 in
theorem test_SecurityCommandsAct_firmware :
    (let s : State := { bufSt 0x0902 0 2 [0, 0] with fw := { secUp := true, image := .slotA, kh1 := some 0, slotB := slotS .staged } }
     s.fw.activation = .idle ∧ s.activationCheck 0 = none ∧ s.emergency = false) ∧
    (let s : State := { pwrS .ready { feedA := { ok := true } } with fw := { image := .slotA, slotB := slotS .staged } }
     s.activationCheck 0 = none ∧ s.emergency = true) := by decide
set_option maxRecDepth 8192 in
theorem bundle_header : bundleHeaderOk bundleBytes = true := by decide +kernel
set_option maxRecDepth 8192 in
theorem bundle_placed : bundlePlaced bundleBytes = true := by decide +kernel
set_option maxRecDepth 100000 in
theorem bundle_entries : bundleEntries bundleBytes = [entry0 1, entry0 2, entry0 3, entry0 4, entry0 5] := by
  unfold bundleBytes
  rfl
theorem entry0_digest (t : Nat) : cut (entry0 t) 0x20 64 = leBytes 64 (shake256 []).toNat := by
  unfold cut entry0
  rw [List.drop_left' (by simp [leBytes_len])]
  exact List.take_of_length_le (by simp [leBytes_len])
theorem cut_zero (bs : List Byte) (off : Nat) : cut bs off 0 = [] := List.take_zero
theorem entry0_empty : [1, 2, 3, 4, 5].all (fun t => field (entry0 t) 8 4 == 0) = true := by decide +kernel
theorem bundle_digests : bundleDigests bundleBytes = true := by
  have e := entry0_empty
  unfold bundleDigests
  rw [bundle_entries]
  simp only [List.all_cons, List.all_nil, Bool.and_true, Bool.and_eq_true, beq_iff_eq] at e ⊢
  obtain ⟨h1, h2, h3, h4, h5⟩ := e
  simp only [entry0_digest, h1, h2, h3, h4, h5, cut_zero, and_self]
theorem bundle_runs : bundleSt.runs hdr0 0x0901 := runs_intro rfl rfl (by decide) (by decide)
theorem bundle_rollback : bundleSt.fw.rollbackOk (bundleOf bundleBytes true) = true := by decide +kernel
theorem bundle_components : (bundleOf bundleBytes true).componentsOk = true := by
  show (bundlePlaced bundleBytes && bundleDigests bundleBytes) = true
  rw [bundle_placed, bundle_digests]; rfl
theorem test_SecurityCommandsAct_bundle :
    bundleSt.runs hdr0 0x0901 ∧ bundleSt.fw.activation = .idle ∧ bundleSt.fw.erasing ≠ some bundleSt.fw.chrysalis ∧
    bundleSt.bufRefusal .ring bundleBuf 0 = none ∧ bundleSt.bufIn .ring bundleBuf = bundleBytes ∧
    (bundleOf bundleBytes true).headerOk = true ∧ bundleSt.fw.keyOk (bundleOf bundleBytes true) = true ∧
    (bundleOf bundleBytes true).signatureOk = true ∧ bundleSt.fw.rollbackOk (bundleOf bundleBytes true) = true ∧
    (bundleOf bundleBytes true).componentsOk = true :=
  ⟨bundle_runs, rfl, by decide, by decide, bundle_in, bundle_header, bundle_key, rfl, bundle_rollback, bundle_components⟩
/-- Programs and what they hold, with `bs` in the object buffer where a command takes one. -/
def ker0 : Kernel := { id := 0, code := [], descFirst := 0, descCount := 0, farBudget := 1, digest := 0 }
def tpl0 : Template := { id := 0, kernel := 0, inputs := [], outputs := [], specCapable := true, restartable := true, gridRows := 1, gridCols := 1,
                         tileRows := 1, tileCols := 1, widthMin := 1, widthMax := 1, limitMs := 0, loadClass := 0, affinity := 0 }
def ten0 (id : Nat) : TensorDecl := { id := id, rank := 1, format := fmtInt32, cls := 1, dims := [2048], sizeBytes := 8192, valueBound := 0, indexes := 0 }
def prog0 : Program := { digest := 0, nondet := false, kernels := [ker0], templates := [tpl0], descs := [], plan := [], tensors := [ten0 0, ten0 1] }
def workSt (op : Nat) (bs : List Byte) (w : Work) (v : Service) : State := { bufSt op 0 bs.length bs with work := w, svc := v }
def progs : Work := { programs := [(0, prog0)] }
theorem work_runs (op : Nat) (bs : List Byte) (w : Work) (v : Service) (h : (workSt op bs {} {}).ctl.turn (cmd0 op) = true)
    (hr : (workSt op bs w v).cmdRefusal .ring op = none) : (workSt op bs w v).runs hdr0 op :=
  runs_intro rfl rfl h hr
theorem leNat_append (a b : List Byte) : leNat (a ++ b) = leNat a + 256 ^ a.length * leNat b := by
  induction a with
  | nil => simp [leNat]
  | cons x t ih =>
    simp only [List.cons_append, leNat, ih, List.length_cons, Nat.pow_succ, Nat.mul_add, Nat.mul_comm, Nat.add_assoc, ← Nat.mul_assoc]
theorem leNat_leBytes (n v : Nat) : leNat (leBytes n v) = v % 256 ^ n := by
  induction n with
  | zero => simp [leBytes, leNat, Nat.mod_one]
  | succ n ih =>
    have : leBytes (n + 1) v = leBytes n v ++ [BitVec.ofNat 8 (v / 256 ^ n)] := by simp [leBytes, List.range_succ]
    rw [this, leNat_append, ih]
    rw [Nat.pow_succ (m := n), Nat.mod_mul]
    simp [leBytes, leNat]
/-- An image whose Digest field is the digest computed on receipt. -/
def img0 : List Byte := List.replicate 16 0 ++ leBytes 64 (shake256 (List.replicate 80 0)).toNat
set_option exponentiation.threshold 1000 in
theorem img0_digest : field img0 0x10 64 = (imageDigest img0).toNat := by
  have h : ∀ l : List Byte, (List.replicate 16 (0 : Byte) ++ l).drop 0x10 = l := fun l => rfl
  have hl : ∀ v, (leBytes 64 v).length = 64 := by intro v; simp [leBytes]
  have h2 : imageDigest img0 = shake256 (List.replicate 80 0) := by
    unfold imageDigest img0
    apply congrArg shake256
    rw [List.take_append_of_le_length (by simp), List.drop_eq_nil_of_le (by simp [hl])]
    rfl
  rw [h2, field, img0, h, List.take_of_length_le (by simp [hl]), leNat_leBytes]
  exact Nat.mod_eq_of_lt ((Nat.pow_mul 2 8 64) ▸ (shake256 (List.replicate 80 0)).isLt)
theorem test_WorkCommandsAct_rejected : (workSt 0x0201 [0] {} {}).runs hdr0 0x0201 ∧ (workSt 0x0201 [0] {} {}).bufRefusal .ring buf0 0 = none ∧
    (workSt 0x0201 [0] {} {}).bufIn .ring buf0 = [0] ∧ ∃ r, (({} : Work).verdict [0] 0).1 = some r := by
  refine ⟨work_runs _ _ _ _ (by decide) (by decide), by decide, by decide, ?_⟩
  have h : ((verifyImage [0]).map Viol.report).isSome = true := by decide
  obtain ⟨r, hr⟩ := Option.isSome_iff_exists.mp h
  refine ⟨r, ?_⟩
  simp only [Work.verdict]
  split <;> simpa using hr
/-- An image whose verification is cached as passed is accepted. -/
theorem test_WorkCommandsAct_accepted (d : BitVec 512) :
    (({ cache := [{ image := imageDigest img0, bundle := d, report := none }] } : Work).verdict img0 d).1 = none ∧
    (List.range 0xFFFF).find? (fun i => !(keys ({} : Work).programs).contains i) = some 0 :=
  ⟨by simp [Work.verdict, img0_digest], find_range_zero 65534 _ rfl⟩
/-- The same at one state of the machine. -/
theorem test_WorkCommandsAct_accepted_state :
    let s := workSt 0x0201 [0] { cache := [{ image := imageDigest [0], bundle := BitVec.ofNat 512 (digestOf none), report := none }] } {}
    s.runs hdr0 0x0201 ∧ s.bufRefusal .ring buf0 0 = none ∧ s.bufIn .ring buf0 = [0] ∧ s.activeBundle = none :=
  ⟨runs_intro rfl rfl (by decide) (by decide), by decide, by decide, rfl⟩
def rec1 : ModelRec := { rec0 with chunk := 128 }
def svc0 : Service := { models := [(0, { model0 with rec_ := rec1 })] }
def ad0 : AdapterRec := { adRec with format := 2 }
set_option exponentiation.threshold 1000 in
set_option maxRecDepth 8192 in
theorem test_WorkCommandsAct_models :
    (look (workSt 0x0202 [] progs {}).work.programs 0 = some prog0 ∧ (workSt 0x0202 [] progs svc0).slotUsed 0 = true ∧
      (workSt 0x0202 [] progs {}).slotUsed 0 = false) ∧
    (modelRecOk rec1 = true ∧ (prog0.kernels.any fun k => k.code.any usesSeed) = false ∧ (look svc0.models 0).isSome = true ∧
      look ({} : Service).models 0 = none ∧ (workSt 0x0301 [] progs {}).pinnedFits rec1.bytes = true) ∧
    ((svcSt [open0 false false]).svc.requests.any fun r => !r.ended && r.rec_.model == 0) = true ∧
    (adapterRecOk ad0 = true ∧ ad0.base = 0 ∧ look svc0.adapters ad0.id = none ∧
      ((workSt 0x0304 [] progs svc0).allocImage ad0.bytes).isSome = true) := by decide
theorem test_WorkCommandsAct_model_runs : (workSt 0x0202 [] progs {}).runs hdr0 0x0202 ∧ (workSt 0x0202 [] progs svc0).runs hdr0 0x0202 ∧
    (workSt 0x0301 [] progs {}).runs hdr0 0x0301 ∧ (workSt 0x0301 [] progs svc0).runs hdr0 0x0301 ∧
    (workSt 0x0302 [] progs { svc0 with requests := [open0 false false] }).runs hdr0 0x0302 ∧ (workSt 0x0303 [] progs svc0).runs hdr0 0x0303 ∧
    (workSt 0x0304 [] progs svc0).runs hdr0 0x0304 ∧ (workSt 0x0306 [1, 0, 0, 0] progs svc0).runs hdr0 0x0306 := by
  refine ⟨work_runs _ _ _ _ ?_ ?_, work_runs _ _ _ _ ?_ ?_, work_runs _ _ _ _ ?_ ?_, work_runs _ _ _ _ ?_ ?_, work_runs _ _ _ _ ?_ ?_,
    work_runs _ _ _ _ ?_ ?_, work_runs _ _ _ _ ?_ ?_, work_runs _ _ _ _ ?_ ?_⟩ <;> decide
def pfx0 (id : Nat) : Service := { svc0 with prefixes := [{ model := 0, id := id, tokens := [1], plan := [] }] }
theorem test_WorkCommandsAct_prefix : let s := workSt 0x0306 [1, 0, 0, 0] progs svc0
    s.bufRefusal .ring buf0 0 = none ∧ tokensOf (s.bufIn .ring buf0) = [1] ∧ (s.bufIn .ring buf0).length % 4 = 0 ∧
      (s.kvSlots 0 = [0] ∧ (look s.work.programs 0).all (fun pr => pr.tensors.all (·.cls != 2)) = true) ∧
      1 ≤ rec1.maxContext ∧ 1 < rec1.vocab ∧ (s.svc.prefixes.any fun p => p.model == 0 && p.id == 1023) = false ∧
      ((pfx0 1023).prefixes.any fun p => p.model == 0 && p.id == 1023) = true := by decide
def adSvc (fts : Tab Ft) : Service := { svc0 with adapters := [(4, { rec_ := ad0 })], fts := fts }
theorem test_WorkCommandsAct_adapters :
    ((workSt 0x0305 [] progs (adSvc [])).cmdRefusal .ring 0x0305 = none ∧ (workSt 0x0308 [1] progs (adSvc [])).cmdRefusal .ring 0x0308 = none ∧
      (workSt 0x0308 [1] progs (adSvc [])).bufRefusal .ring buf0 0 = none ∧ ad0.trainable = true ∧ jobOk job0 = true ∧
      look (adSvc []).fts 4 = none ∧ look (adSvc [(4, { job := job0 })]).fts 4 = some { job := job0 }) ∧
    ((workSt 0x0307 [1] {} {}).bufRefusal .ring buf0 0 = none ∧ tokeniserOk 2 [[0], [1]] [(1, 1)] = true ∧ 15 ≠ 0 ∧ 15 ≤ 15) ∧
    ((workSt 0x0401 [] {} {}).inboxBytes + 32 * 2 ^ field ((workSt 0x0401 [] {} {}).profNow 0x02000003) 0 1 ≤ 2 ^ 22 ∧
      look ({} : Service).sets 63 = none ∧ (([] : Tab SvcSet).any fun x => x.2.service == (5 : Dword) && x.2.port == 3) = false ∧
      (look (svcSt []).svc.sets 0).isSome = true) := by decide
theorem test_WorkCommandsAct_service_runs : (workSt 0x0305 [] progs (adSvc [])).runs hdr0 0x0305 ∧ (workSt 0x0308 [1] progs (adSvc [])).runs hdr0 0x0308 ∧
    (workSt 0x0307 [1] {} {}).runs hdr0 0x0307 ∧ (workSt 0x0401 [] {} {}).runs hdr0 0x0401 ∧ (workSt 0x0402 [] {} (svcSt []).svc).runs hdr0 0x0402 := by
  refine ⟨work_runs _ _ _ _ ?_ ?_, work_runs _ _ _ _ ?_ ?_, work_runs _ _ _ _ ?_ ?_, work_runs _ _ _ _ ?_ ?_, work_runs _ _ _ _ ?_ ?_⟩ <;> decide
/-- A task of the program's template, and a task of it admitted. -/
def desc0 (epoch : Nat) : TaskDesc := { (task1 epoch).desc with slot := 0 }
def liveSt (op : Nat) (t : Task) : State := workSt op [] { progs with tasks := [(1, t)], journal := [(0, 1)] } {}
set_option maxRecDepth 16384 in
theorem test_WorkCommandsAct_tasks :
    (workSt 0x0501 [] {} {}).admitStatus (desc0 0) ≠ stOk ∧ (workSt 0x0501 [] progs {}).admitStatus (desc0 0) = stOk ∧
    (let s := liveSt 0x0502 { task1 0 with state := .done }
     (s.task? 1).any (fun t => t.id == 1 && t.state.final) = true) ∧
    (let s := liveSt 0x0502 (task1 0)
     (s.task? 1).any (fun t => t.id == 1 && !t.state.final && t.state != .running && t.desc.epoch == 0) = true) ∧
    ((liveSt 0x0503 (task1 0)).work.journal.any fun x => x.2 == 1) = true := by decide
theorem test_WorkCommandsAct_task_runs : (workSt 0x0501 [] progs {}).runs hdr0 0x0501 ∧ (workSt 0x0501 [] {} {}).runs hdr0 0x0501 ∧
    (liveSt 0x0502 (task1 0)).runs hdr0 0x0502 ∧ (liveSt 0x0503 (task1 0)).runs hdr0 0x0503 := by
  refine ⟨work_runs _ _ _ _ ?_ ?_, work_runs _ _ _ _ ?_ ?_, work_runs _ _ _ _ ?_ ?_, work_runs _ _ _ _ ?_ ?_⟩ <;> decide
set_option maxRecDepth 16384 in
/-- The task is admitted. -/
theorem test_WorkCommandsAct_admitted : ∃ u id, (workSt 0x0501 [] progs {}).begun.admitTask (desc0 0) = (u, stOk, id) := by
  have h : ((workSt 0x0501 [] progs {}).begun.admitTask (desc0 0)).2.1 = stOk := by decide
  exact ⟨_, _, Prod.ext rfl (Prod.ext h rfl)⟩
/-- 1,024 epochs open; an epoch of the host, open, doomed or committing. -/
def epochSt (op : Nat) (x : Epoch) : State := workSt op [] { progs with epochs := [(3, x)] } {}
theorem no_epoch_of_1024 (s : State) (b : Bool) (h : s.work.epochs.length = 1024) : s.openEpoch b = none := by
  simp [State.openEpoch, h]
theorem test_WorkCommandsAct_epochs :
    (workSt 0x0504 [] {} {}).runs hdr0 0x0504 ∧ (∃ u e, (workSt 0x0504 [] {} {}).begun.openEpoch false = some (u, e)) ∧
    (workSt 0x0504 [] { epochs := List.replicate 1024 (3, {}) } {}).openEpoch false = none ∧
    (epochSt 0x0505 {}).runs hdr0 0x0505 ∧ (epochSt 0x0506 {}).runs hdr0 0x0506 ∧
    (∀ x ∈ [({} : Epoch), { doomed := true }, { commit := some ([], hdr0) }], (epochSt 0x0505 x).hostEpoch 3 = some x) := by
  refine ⟨work_runs _ _ _ _ (by decide) (by decide), ?_, no_epoch_of_1024 _ _ List.length_replicate, work_runs _ _ _ _ (by decide) (by decide),
    work_runs _ _ _ _ (by decide) (by decide), by decide⟩
  exact ⟨_, _, opens_first_epoch _ false rfl rfl⟩
def readyW (st : RState) : Work := { progs with ready := [{ handle := hndl, gens := [(1, { state := st })], gen := 1 }] }
theorem test_WorkCommandsAct_ready : (workSt 0x0507 [] progs {}).runs hdr0 0x0507 ∧
    (prog0.tensors.any fun y => y.id == hndl.tensor) = true ∧ hndl.inst < 65536 ∧ (progs.entry hndl).state ≠ .pending ∧
    ((readyW .pending).entry hndl).state = .pending :=
  ⟨work_runs _ _ _ _ (by decide) (by decide), by decide, by decide, by decide, by decide⟩
/-- An ALL_REDUCE descriptor of 2,048 elements on group 0. -/
def cdesc : CollDesc := { seq := 1, group := 0, op := 1, dtype := fmtInt32, outFormat := fmtInt32, anchor := 0, round := 0, count := 2048, slot := 0,
                          inTensor := 0, inInst := 0, outInst := 0, outTensor := 1, limitMs := 0 }
set_option maxRecDepth 16384 in
theorem test_WorkCommandsAct_collectives :
    (workSt 0x0508 [] progs {}).runs hdr0 0x0508 ∧ (workSt 0x0508 [] progs {}).collStatus cdesc ≠ stOk ∧
    ∃ u id, (workSt 0x0508 [] { progs with groups := [(0, [0, 1])] } {}).begun.admitColl cdesc = (u, stOk, id) := by
  refine ⟨work_runs _ _ _ _ (by decide) (by decide), by decide, ?_⟩
  have h : ((workSt 0x0508 [] { progs with groups := [(0, [0, 1])] } {}).begun.admitColl cdesc).2.1 = stOk := by decide
  exact ⟨_, _, Prod.ext rfl (Prod.ext h rfl)⟩

/-! ### Witnesses of the statements about steps -/

theorem test_StepRunsFrontCommand_hyps : State.reset.pending = [] ∧ State.reset.now = 0 := by decide
theorem test_StepKeepsMemoryCanonical_hyps : State.reset.MemOk ∧ ∃ t, step State.reset = .next t := ⟨by simp only [State.MemOk]; decide, _, rfl⟩
theorem test_QueueDrainsInOrder_hyps : ∃ t, step { State.reset with pending := [.wipeCertificate, .counterBlockWrite, .wipeCertificate] } = .next t :=
  ⟨_, rfl⟩

/-! ### Behaviour: expected values from the spec's own examples -/

/-- The example after R13: core (2, 5, 3, 17) is 0x4D51 in CD309, its slice begins at 0x004D_5100_0000 and its top 4 MiB fault. -/
theorem test_slice_example : 2 * 8192 + (16 * 3 + 5) * 64 + 17 = 0x4D51 ∧ cdOf 0x4D51 = 309 ∧ sliceAddr 0x4D51 = 0x4D51000000 ∧
    place 0x4D51BFFFFF = .slice 0x4D51 0xBFFFFF ∧ State.reset.accessOk 0x4D51BFFFE0 32 = true ∧
    State.reset.accessOk 0x4D51C00000 32 = false := by decide
/-- The four products of the GEMM example after R100, as the E4M3 codes of a and b, and the 252 products of zero. -/
def gemmEntry : AccEntry :=
  ([(0x7E, 0x7E), (0x3C, 0xC4), (0x81, 0x01), (0x30, 0x08)].foldl
    (fun (a : AccEntry) x => a.mac 0 (fE4M3.decode x.1) (fE4M3.decode x.2) (some 0) false) {}).addCount 252
/-- The record of the entry, and what BF16 in RNE and RTZ and FP32 in RNE give. -/
theorem test_gemm_example : gemmEntry.record = 0x00000100000000000030FFB81FFC0000 ∧ gemmEntry.flags = 0 ∧
    ((gemmEntry.taken 0).convert fBF16 .rne false (ofF32 0x3F800000) (ofF32 0x3F800000)).1 = 0x4844 ∧
    ((gemmEntry.taken 0).convert fBF16 .rtz false (ofF32 0x3F800000) (ofF32 0x3F800000)).1 = 0x4843 ∧
    ((gemmEntry.taken 0).convert fFP32 .rne false (ofF32 0x3F800000) (ofF32 0x3F800000)).1 = 0x4843FEE0 := by decide
/-- The channel of the example after R356, before Flush: packets A (2 words left), Z and the open packet B. -/
def chEx : Channel :=
  let w (k : WordKind) : CWord := { kind := k, data := [], poison := false }
  { log2Depth := 6, maxPacket := 8, highMark := 40, lowMark := 16, enable := true, reading := true
    words := [w .data, w .endK, w .data, w .endK, w .data, w .data], openBy := some 2, openLeft := 6, opens := [3] }
/-- Flush of the ordinary channel: one word, Draining; of the journal channel: five words, two packets, two words flushed. -/
theorem test_flush_example : chEx.words.length = 6 ∧ chEx.packets = 2 ∧ chEx.flush.words.map (·.kind) = [.flushed] ∧ chEx.flush.draining = some 2 ∧
    chEx.flush.wordsFlushed = 6 ∧ chEx.flushPrivileged.words.map (·.kind) = [.data, .endK, .flushed, .data, .data] ∧
    chEx.flushPrivileged.packets = 2 ∧ chEx.flushPrivileged.wordsFlushed = 2 := by decide
/-- The example after R167: a Far_Budget of 16 leaves all 64 cores, so 32 clusters carry 2,048 partitions a wave. -/
theorem test_grid_example : coresPer 16 = 64 ∧ clustersFor (64 * 64) 64 = 64 := by decide
/-- VIADD wraps (R118): 0x7FFF_FFFF + 1 is 0x8000_0000. -/
def addSt : State := { quietSt with mem := (({} : Mem).write (scratchAddr 0 + 32) [0xFF, 0xFF, 0xFF, 0x7F]).write (scratchAddr 0 + 64) [1] }
theorem test_viadd_wraps : (after (.viadd 0 { dest := word 0, srcA := word 32, srcB := word 64 }) addSt).mem.read (scratchAddr 0) 4 = [0, 0, 0, 0x80] := by
  decide
/-- OPEN_EPOCH gives the epoch after the last one, from 1 again after 65,535 (R168). -/
theorem test_epoch_wraps (s : State) (h : s.work.epochs = []) (hl : s.work.lastEpoch = 65535) : (s.openEpoch false).map (·.2) = some 1 := by
  have hf := find_map_zero 65534 (fun i => (65535 + i) % 65535 + 1) (fun e => !(keys ([] : Tab Epoch)).contains e) rfl
  simp only [State.openEpoch, h, hl, List.length_nil]
  rw [show List.range 65535 = List.range (65534 + 1) from rfl, hf]
  rfl
/-- An idle step lets one nanosecond pass (log entry 1). -/
theorem test_idle_step : step State.reset = .next { State.reset with now := 1 } := by rfl

/-! ### Attention (R273, R277, R279): one visible key with value 3 and score 1; a masked row; the block scale of FB4 -/

/-- A block whose first key alone is visible. -/
def oneKey : AttnState := attnBlock { o := [0] } (f32One :: List.replicate 127 f32NegInf) [[.fin false 3 0]]
theorem test_attention_one_key : attnOutput 0x0A oneKey = ([0x40400000], f32One) := by decide +kernel
theorem test_attention_masked_row :
    attnOutput 0x08 (attnBlock { o := [0, 0] } (List.replicate 128 f32NegInf) []) = ([0, 0], f32NegInf) := by decide +kernel
theorem test_fb4_scale : fb4Scale [.fin true 2881 0] = 0xFE ∧ fb4Scale [.fin false 0 0] = 0 ∧ fb4Elem 0xFE (.inf true) = 0xF := by
  decide +kernel

end Sys2Proof.Tests
end

