-- ==== Sys2Proof/Proofs/ClusterDomains.lean ====
section
/-!
The numbering of cluster domains. A core's logical ID is the number of its cluster domain followed by the 6 bits of Core (R8), and
that number is the die followed by the 7 bits of Mesh_Y and Mesh_X (R9), so `cdOf` and `dieOf` each drop the lowest field.
-/

namespace Sys2Proof.Machine

theorem cdOf_mul_add {k : Nat} (cd : Nat) (hk : k < 64) : cdOf (64 * cd + k) = cd := by
  rw [cdOf, Nat.mul_add_div (by decide), Nat.div_eq_of_lt hk, Nat.add_zero]

theorem dieOf_mul_add {n : Nat} (d : Nat) (hn : n < 128) : dieOf (128 * d + n) = d := by
  rw [dieOf, Nat.mul_add_div (by decide), Nat.div_eq_of_lt hn, Nat.add_zero]

/-- Settles O60: the fields of R8 above Core are the number of R9, and those of that number below the die stay under 128. -/
theorem clusterDomainsAreNumbered : Obligations.ClusterDomainsAreNumbered := by
  intro d x y k _ hx hy hk
  have hid : d * 2 ^ 13 + y * 2 ^ 10 + x * 2 ^ 6 + k = 64 * (128 * d + 16 * y + x) + k := by omega
  have hmesh : 16 * y + x < 128 := by omega
  constructor
  · rw [hid, cdOf_mul_add _ hk]
  · rw [Nat.add_assoc, dieOf_mul_add d hmesh]

end Sys2Proof.Machine
end

