-- ==== Sys2Proof/Proofs/CommandRun.lean ====
section
/-!
A command that runs (R434): `State.command` applies the command's effect to the state in which it has started, and then stamps the
Wall_Time on what was logged. An answer, the stamp and the start leave the links alone and name no other events.
-/

namespace Sys2Proof.Machine

@[simp] theorem State.begun_lys (s : State) : s.begun.lys = s.lys := rfl
@[simp] theorem State.begun_log (s : State) : s.begun.log = s.log := rfl
@[simp] theorem State.begun_recordOf (s : State) (e : Ev) (i : EvInfo) : s.begun.recordOf e i = s.recordOf e i := rfl

@[simp] theorem State.settleSession_lys (s : State) : s.settleSession.lys = s.lys := by
  unfold State.settleSession; split <;> rfl

@[simp] theorem State.settleSession_log (s : State) : s.settleSession.log = s.log := by
  unfold State.settleSession; split <;> rfl

@[simp] theorem State.respond_lys (s : State) (h : CmdHdr) (op st : Nat) (eff : Bool) (d : Word) (res : List Byte) :
    (s.respond h op st eff d res).lys = s.lys := by
  unfold State.respond
  split
  · rfl
  · split <;> simp

@[simp] theorem State.respond_log (s : State) (h : CmdHdr) (op st : Nat) (eff : Bool) (d : Word) (res : List Byte) :
    (s.respond h op st eff d res).log = s.log := by
  unfold State.respond
  split
  · rfl
  · split <;> simp

@[simp] theorem State.stampWall_lys (s : State) (n m : Nat) (w : Dword) : (s.stampWall n m w).lys = s.lys := rfl

@[simp] theorem State.stampWall_openEvents (s : State) (n m : Nat) (w : Dword) :
    (s.stampWall n m w).log.open_.map (·.event) = s.log.open_.map (·.event) := by
  apply List.ext_getElem
  · simp [State.stampWall]
  · intro i _ _
    simp only [State.stampWall, List.getElem_map, List.getElem_mapIdx]
    split <;> rfl

@[simp] theorem State.logEvent_log (s : State) (e : Ev) (i : EvInfo) : (s.logEvent e i).log = (s.logRec (s.recordOf e i)).log := by
  unfold State.logEvent; dsimp only; repeat' split
  all_goals simp

/-- A CORRECTED record joins the open ones (R554). -/
theorem State.logRec_open_of_corrected (s : State) {r : ErrRec} (hr : r.cls = 0) :
    (s.logRec r).log.open_ = countOpen s.log.open_ r := by
  rw [State.logRec, if_pos hr]

/-- A command that may run has its effect on the state in which it has started. -/
theorem State.command_of_runs {s : State} {h : CmdHdr} {op : Nat} (hr : s.runs h op) :
    ∃ w, ∀ body, s.command h op body = .next ((body s.begun).stampWall s.log.next s.log.open_.length w) := by
  obtain ⟨c, hip, rfl, rfl, hstarted, -, howned, hsch, hturn, href⟩ := hr
  have hfind : s.ctl.inProgress.find? (fun d => d.hdr = c.hdr && d.op == c.op && !d.started) = some c := by
    simp [hip, hstarted]
  have hbegun : (s.onCtl fun k => { k with inProgress := k.inProgress.replace c { c with started := true } }) = s.begun := by
    simp [State.onCtl, State.begun, hip]
  have hpass : s.begun.cmdRefusal c.hdr.path c.op = none := href
  refine ⟨c.wall, fun body => ?_⟩
  simp only [State.command, hfind, hsch, hturn, hbegun, hpass, Bool.not_true, Bool.or_false, Bool.false_eq_true, if_false]
  rw [if_neg (Bool.eq_false_iff.mp howned)]

end Sys2Proof.Machine
end

