-- ==== Sys2Proof/Proofs/LysIdentity.lean ====
section
/-!
LYS_ID (R374). The register and SET_LYS_ID both go through `State.writeLysId`: with every link idle it sets the three fields, and
otherwise it logs LYS_ID_BUSY. A device reset takes the fields from the network profile.
-/

namespace Sys2Proof.Machine

/-! ### The links are idle -/

/-- Every link is DISABLED, DOWN or MISMATCH. -/
def State.linksIdle (s : State) : Bool :=
  (List.range 8).all fun l => [LState.disabled, .down, .mismatch].contains (s.linkSt l).state

theorem State.linksIdle_iff (s : State) : s.linksIdle = true ↔
    ∀ l, l < 8 → (s.linkSt l).state = .disabled ∨ (s.linkSt l).state = .down ∨ (s.linkSt l).state = .mismatch := by
  simp [State.linksIdle]

/-! ### Writes -/

/-- LYS_ID with the fields of a register value (R395). -/
def Lysdel.withId (y : Lysdel) (v : Nat) : Lysdel :=
  { y with systemId := BitVec.ofNat 32 (bits v 47 16), torus := bits v 15 15 == 1, deviceId := bits v 14 0 }

theorem State.writeLysId_idle {s : State} (h : s.linksIdle = true) (v : Nat) : s.writeLysId v = s.onLys (·.withId v) := if_pos h

theorem State.writeLysId_busy {s : State} (h : s.linksIdle = false) (v : Nat) : s.writeLysId v = s.logEvent .lysIdBusy {} :=
  if_neg (Bool.eq_false_iff.mp h)

theorem Lysdel.withId_toNat (y : Lysdel) (v : Dword) : y.withId v.toNat =
    { y with systemId := v.extractLsb' 16 32, torus := v.getLsbD 15, deviceId := (v &&& 0x7FFF).toNat } := by
  have hsys : BitVec.ofNat 32 (bits v.toNat 47 16) = v.extractLsb' 16 32 := by
    apply BitVec.eq_of_toNat_eq
    simp [bits, Nat.shiftRight_eq_div_pow]
  have htorus : (bits v.toNat 15 15 == 1) = v.getLsbD 15 := by
    rw [Bool.eq_iff_iff]
    simp [bits, BitVec.getLsbD, Nat.testBit_eq_decide_div_mod_eq]
  have hdev : bits v.toNat 14 0 = (v &&& 0x7FFF).toNat := by
    have hmask : bits v.toNat 14 0 = v.toNat % 2 ^ 15 := by simp [bits]
    rw [hmask, BitVec.toNat_and]
    exact (Nat.and_two_pow_sub_one_eq_mod v.toNat 15).symm
  rw [Lysdel.withId, hsys, htorus, hdev]

theorem Lysdel.withId_pack (y : Lysdel) (sys : Word) (torus : Bool) {d : Nat} (hd : d < 32768) :
    y.withId (pack [(sys.toNat, 16), (bitOf torus, 15), (d, 0)]) = { y with systemId := sys, torus := torus, deviceId := d } := by
  have hs : sys.toNat < 2 ^ 32 := sys.isLt
  have hb : bitOf torus < 2 := by cases torus <;> decide
  have hpack : pack [(sys.toNat, 16), (bitOf torus, 15), (d, 0)] = sys.toNat * 65536 + bitOf torus * 32768 + d := by
    simp [pack]
  have hsys : bits (sys.toNat * 65536 + bitOf torus * 32768 + d) 47 16 = sys.toNat := by
    simp only [bits]; omega
  have htorus : bits (sys.toNat * 65536 + bitOf torus * 32768 + d) 15 15 = bitOf torus := by
    simp only [bits]; omega
  have hdev : bits (sys.toNat * 65536 + bitOf torus * 32768 + d) 14 0 = d := by
    simp only [bits]; omega
  have hbit : (bitOf torus == 1) = torus := by cases torus <;> rfl
  rw [hpack, Lysdel.withId, hsys, htorus, hdev, hbit, BitVec.ofNat_toNat, BitVec.setWidth_eq]

theorem exec_lysIdWrite (v : Dword) (s : State) : exec (.lysIdWrite v) s = .next (s.writeLysId v.toNat) := rfl

theorem exec_setLysId (h : CmdHdr) (sys : Word) (d : Nat) (torus : Bool) (s : State) :
    exec (.setLysId h sys d torus) s = execSetLysId h sys d torus s := rfl

/-- SET_LYS_ID that runs, up to its answer and the stamp of its Wall_Time. -/
theorem execSetLysId_of_runs {s : State} {h : CmdHdr} (hr : s.runs h 0x0C02) (sys : Word) (torus : Bool) {d : Nat} (hd : d < 32768) :
    ∃ w st eff, execSetLysId h sys d torus s =
      .next (((s.begun.writeLysId (pack [(sys.toNat, 16), (bitOf torus, 15), (d, 0)])).respond h 0x0C02 st eff 0 []).stampWall
        s.log.next s.log.open_.length w) := by
  obtain ⟨w, hw⟩ := State.command_of_runs hr
  unfold execSetLysId
  simp only [hw, Nat.not_le.mpr hd, if_false, State.done, State.refuse]
  split <;> exact ⟨_, _, _, rfl⟩

theorem execSetLysId_idle {s : State} {h : CmdHdr} (hi : s.linksIdle = true) (hr : s.runs h 0x0C02) (sys : Word) (torus : Bool) {d : Nat}
    (hd : d < 32768) : ∃ t, execSetLysId h sys d torus s = .next t ∧
      t.lys = { s.lys with systemId := sys, torus := torus, deviceId := d } := by
  obtain ⟨w, st, eff, heq⟩ := execSetLysId_of_runs hr sys torus hd
  have hib : s.begun.linksIdle = true := hi
  exact ⟨_, heq, by simp [State.writeLysId_idle hib, Lysdel.withId_pack _ _ _ hd]⟩

theorem execSetLysId_busy {s : State} {h : CmdHdr} (hi : s.linksIdle = false) (hr : s.runs h 0x0C02) (sys : Word) (torus : Bool) {d : Nat}
    (hd : d < 32768) : ∃ t, execSetLysId h sys d torus s = .next t ∧ t.lys = s.lys ∧
      t.log.open_.map (·.event) = (s.logEvent .lysIdBusy {}).log.open_.map (·.event) := by
  obtain ⟨w, st, eff, heq⟩ := execSetLysId_of_runs hr sys torus hd
  have hib : s.begun.linksIdle = false := hi
  refine ⟨_, heq, ?_, ?_⟩
  · simp [State.writeLysId_busy hib]
  · have hcls : (s.recordOf .lysIdBusy {}).cls = 0 := rfl
    simp only [State.writeLysId_busy hib, State.stampWall_openEvents, State.respond_log, State.logEvent_log, State.begun_recordOf,
      State.logRec_open_of_corrected _ hcls, State.begun_log]

/-! ### A device reset -/

theorem State.applyEntry_dev (s : State) (r : Retired) : (s.applyEntry r).dev = s.dev := by
  cases r <;> rfl

theorem State.applyRetired_dev (s : State) (rs : List Retired) : (s.applyRetired rs).dev = s.dev := by
  unfold State.applyRetired
  induction rs generalizing s with
  | nil => rfl
  | cons r rs ih => rw [List.foldl_cons, ih, State.applyEntry_dev]

theorem State.profiled_lysId (s : State) : let id := s.profiled.profBoot 0x82000001
    s.profiled.lys.systemId = BitVec.ofNat 32 (field id 0 4) ∧ s.profiled.lys.deviceId = field id 4 2 % 0x8000 ∧
      s.profiled.lys.torus = (field id 6 1 == 1) := ⟨rfl, rfl, rfl⟩

theorem State.deviceReset_dev (s : State) : s.deviceReset.dev = .rom := State.applyRetired_dev _ _

/-- Settles O59: register and command write through `State.writeLysId`, and a device reset ends with the profile's entries. -/
theorem lysIdIsWrittenWhenIdle : Obligations.LysIdIsWrittenWhenIdle := by
  refine ⟨rfl, fun s => ?_⟩
  simp only [← State.linksIdle_iff, Bool.not_eq_true]
  refine ⟨⟨s.deviceReset_dev, State.profiled_lysId _⟩, fun hi => ⟨fun v => ?_, fun h sys d torus hr hd => ?_⟩,
    fun hi => ⟨fun v => ?_, fun h sys d torus hr hd => ?_⟩⟩
  · rw [exec_lysIdWrite, State.writeLysId_idle hi, State.onLys, Lysdel.withId_toNat]
  · exact exec_setLysId .. ▸ execSetLysId_idle hi hr sys torus hd
  · rw [exec_lysIdWrite, State.writeLysId_busy hi]
  · exact exec_setLysId .. ▸ execSetLysId_busy hi hr sys torus hd

end Sys2Proof.Machine
end

