-- ==== Sys2Proof/Proofs/RingReset.lean ====
section
/-!
The ring reset (R435). Setting Reset marks every ring command in progress and drops what waits to be fetched or written. The reset ends
in `Ctl.settleReset`, as soon as no ring command is in progress: either at once, or with the answer to the last marked command.
-/

namespace Sys2Proof.Machine

/-! ### The end of a reset -/

/-- The rings at the end of a reset: the response counts at CMD_HEAD, no holder, Reset 0. -/
def Ctl.resetEnded (k : Ctl) : Ctl := { k with rspHead := k.cmdHead, rspTail := k.cmdHead, holder := none, resetting := false }

theorem Ctl.settleReset_of_no_ring {k : Ctl} (hr : k.resetting = true) (hn : ∀ c ∈ k.inProgress, c.hdr.path ≠ .ring) :
    k.settleReset = k.resetEnded := by
  have hnone : k.inProgress.any (fun c => c.hdr.path == .ring) = false :=
    List.any_eq_false.mpr fun c hm => mt eq_of_beq (hn c hm)
  rw [Ctl.settleReset, hr, hnone]
  rfl

theorem Ctl.settleReset_of_ring {k : Ctl} (hc : ∃ c ∈ k.inProgress, c.hdr.path = .ring) : k.settleReset = k := by
  obtain ⟨c, hm, hring⟩ := hc
  have hany : k.inProgress.any (fun c => c.hdr.path == .ring) = true := List.any_eq_true.mpr ⟨c, hm, beq_iff_eq.mpr hring⟩
  rw [Ctl.settleReset, hany, Bool.not_true, Bool.and_false, if_neg Bool.false_ne_true]

@[simp] theorem State.settleSession_ctl (s : State) : s.settleSession.ctl = s.ctl := by
  unfold State.settleSession; split <;> rfl

@[simp] theorem State.settleSession_mem (s : State) : s.settleSession.mem = s.mem := by
  unfold State.settleSession; split <;> rfl

@[simp] theorem State.settleSession_work (s : State) : s.settleSession.work = s.work := by
  unfold State.settleSession; split <;> rfl

/-- The answer to the last command in progress, its response discarded, ends the reset. -/
theorem State.respond_ctl_of_last_discarded {s : State} {c : Cmd} (hr : s.ctl.resetting = true) (hp : s.ctl.inProgress = [c])
    (hd : c.discard = true) (st : Nat) (eff : Bool) (d : Word) (res : List Byte) :
    (s.respond c.hdr c.op st eff d res).ctl = ({ s.ctl with inProgress := [] } : Ctl).resetEnded := by
  have hfind : s.ctl.inProgress.find? (fun c' => c'.hdr = c.hdr && c'.op == c.op) = some c := by
    simp only [hp, List.find?_cons, decide_true, BEq.rfl, Bool.and_self]
  have herase : s.ctl.inProgress.erase c = [] := by rw [hp, List.erase_cons_head]
  simp only [State.respond, hfind, hd, herase, if_true, State.settleSession_ctl, State.onCtl_ctl]
  exact Ctl.settleReset_of_no_ring hr fun _ hm => absurd hm List.not_mem_nil

/-! ### Setting Reset -/

/-- A command after Reset is set: a ring command's response is discarded. -/
def Cmd.discardOnRing (c : Cmd) : Cmd := if c.hdr.path = .ring then { c with discard := true } else c

@[simp] theorem Cmd.discardOnRing_hdr (c : Cmd) : c.discardOnRing.hdr = c.hdr := by
  unfold Cmd.discardOnRing; split <;> rfl

theorem Cmd.discardOnRing_discard {c : Cmd} (h : c.hdr.path = .ring) : c.discardOnRing.discard = true := by
  rw [Cmd.discardOnRing, if_pos h]

/-- The rings as Reset is set, before the reset can end. -/
def Ctl.resetBegun (k : Ctl) : Ctl :=
  { k with
    cmdHead := k.cmdTail, resetting := true
    inProgress := k.inProgress.map Cmd.discardOnRing
    completed := k.completed.filter fun r => r.hdr.path != .ring }

theorem Ctl.settleReset_resetBegun_of_ring {k : Ctl} (hc : ∃ c ∈ k.inProgress, c.hdr.path = .ring) :
    k.resetBegun.settleReset = k.resetBegun := by
  obtain ⟨c, hm, hring⟩ := hc
  exact Ctl.settleReset_of_ring ⟨c.discardOnRing, List.mem_map_of_mem hm, c.discardOnRing_hdr.symm ▸ hring⟩

theorem Ctl.settleReset_resetBegun_of_no_ring {k : Ctl} (hn : ∀ c ∈ k.inProgress, c.hdr.path ≠ .ring) :
    k.resetBegun.settleReset = k.resetBegun.resetEnded :=
  Ctl.settleReset_of_no_ring rfl (List.forall_mem_map.mpr fun c hm => c.discardOnRing_hdr.symm ▸ hn c hm)

/-- The only command in progress after Reset is set, where one was a ring command, is that one. -/
theorem Ctl.resetBegun_last_discard {k : Ctl} {c : Cmd} (hc : ∃ c ∈ k.inProgress, c.hdr.path = .ring)
    (hp : k.resetBegun.inProgress = [c]) : c.discard = true := by
  obtain ⟨c₀, hmem, hring⟩ := hc
  have hlast : c₀.discardOnRing ∈ [c] := hp ▸ List.mem_map_of_mem hmem
  exact List.mem_singleton.mp hlast ▸ Cmd.discardOnRing_discard hring

@[simp] theorem State.dropHolder_ctl (s : State) : s.dropHolder.ctl = { s.ctl with holder := none } := rfl
@[simp] theorem State.dropHolder_mem (s : State) : s.dropHolder.mem = s.mem := rfl
@[simp] theorem State.dropHolder_work (s : State) : s.dropHolder.work = s.work := rfl

theorem State.ringReset_by_holder (s : State) :
    s.ringReset false = (s.onCtl fun k => k.resetBegun.settleReset).settleSession := rfl

theorem State.ringReset_by_i2c (s : State) :
    s.ringReset true = (s.ringReset false).dropHolder.onIdent fun i => { i with sessI2c := none } := rfl

theorem State.ringReset_ctl (s : State) (byI2c : Bool) : (s.ringReset byI2c).ctl =
    if byI2c then { s.ctl.resetBegun.settleReset with holder := none } else s.ctl.resetBegun.settleReset := by
  have hset : (s.ringReset false).ctl = s.ctl.resetBegun.settleReset := by
    rw [State.ringReset_by_holder, State.settleSession_ctl, State.onCtl_ctl]
  cases byI2c with
  | false => exact hset
  | true => rw [State.ringReset_by_i2c, State.onIdent_ctl, State.dropHolder_ctl, hset, if_pos rfl]

theorem State.ringReset_ctl_of_ring {s : State} (byI2c : Bool) (hc : ∃ c ∈ s.ctl.inProgress, c.hdr.path = .ring) :
    (s.ringReset byI2c).ctl = { s.ctl.resetBegun with holder := if byI2c then none else s.ctl.holder } := by
  rw [State.ringReset_ctl, Ctl.settleReset_resetBegun_of_ring hc]
  cases byI2c <;> rfl

theorem State.ringReset_ctl_of_no_ring {s : State} (byI2c : Bool) (hn : ∀ c ∈ s.ctl.inProgress, c.hdr.path ≠ .ring) :
    (s.ringReset byI2c).ctl = s.ctl.resetBegun.resetEnded := by
  rw [State.ringReset_ctl, Ctl.settleReset_resetBegun_of_no_ring hn]
  cases byI2c <;> rfl

@[simp] theorem State.ringReset_mem (s : State) (byI2c : Bool) : (s.ringReset byI2c).mem = s.mem := by
  have hset : (s.ringReset false).mem = s.mem := by
    rw [State.ringReset_by_holder, State.settleSession_mem, State.onCtl_mem]
  cases byI2c with
  | false => exact hset
  | true => rw [State.ringReset_by_i2c, State.onIdent_mem, State.dropHolder_mem, hset]

@[simp] theorem State.ringReset_work (s : State) (byI2c : Bool) : (s.ringReset byI2c).work = s.work := by
  have hset : (s.ringReset false).work = s.work := by
    rw [State.ringReset_by_holder, State.settleSession_work, State.onCtl_work]
  cases byI2c with
  | false => exact hset
  | true => rw [State.ringReset_by_i2c, State.onIdent_work, State.dropHolder_work, hset]

/-- After Reset is set with a ring command in progress, the answer to the last command in progress ends the reset. -/
theorem State.respond_ctl_of_ringReset_last {s : State} {byI2c : Bool} {c : Cmd} (hc : ∃ c ∈ s.ctl.inProgress, c.hdr.path = .ring)
    (hp : (s.ringReset byI2c).ctl.inProgress = [c]) (st : Nat) (eff : Bool) (d : Word) (res : List Byte) :
    ((s.ringReset byI2c).respond c.hdr c.op st eff d res).ctl =
      ({ (s.ringReset byI2c).ctl with inProgress := [] } : Ctl).resetEnded := by
  have hctl := State.ringReset_ctl_of_ring byI2c hc
  have hresetting : (s.ringReset byI2c).ctl.resetting = true := by rw [hctl]; rfl
  have hdiscard : c.discard = true := Ctl.resetBegun_last_discard hc (by rwa [hctl] at hp)
  exact State.respond_ctl_of_last_discarded hresetting hp hdiscard st eff d res

theorem exec_ringReset_of_allowed {s : State} {byI2c : Bool} {q : Nat}
    (h : byI2c = true ∨ s.mgmtQp q = true ∧ s.ctl.holder = some q) : exec (.ringReset byI2c q) s = .next (s.ringReset byI2c) := by
  have harm : exec (.ringReset byI2c q) s = execRingReset byI2c q s := rfl
  rw [harm]
  cases byI2c with
  | true => rfl
  | false =>
    obtain ⟨hq, hh⟩ := h.resolve_left Bool.false_ne_true
    rw [execRingReset, if_neg Bool.false_ne_true, hq, Bool.not_true, if_neg Bool.false_ne_true, if_pos hh]

/-- Settles O58: with a ring command in progress the reset goes on until the answer to the last one, and else it ends at once. -/
theorem ringResetDiscards : Obligations.RingResetDiscards := by
  intro s byI2c q h
  refine ⟨s.ringReset byI2c, exec_ringReset_of_allowed h, s.ringReset_mem byI2c, s.ringReset_work byI2c, ?_⟩
  by_cases hring : ∃ c ∈ s.ctl.inProgress, c.hdr.path = .ring
  case pos =>
    have hctl := State.ringReset_ctl_of_ring byI2c hring
    have hholder : byI2c = false → (if byI2c then none else s.ctl.holder) = some q := by
      rintro rfl
      exact (h.resolve_left Bool.false_ne_true).2
    rw [hctl]
    refine ⟨rfl, rfl, rfl, rfl, fun _ => ⟨rfl, rfl, rfl, hholder, fun c st eff d res hp => ?_⟩,
      fun hn => hring.elim fun c hc => absurd hc.2 (hn c hc.1)⟩
    have hend := State.respond_ctl_of_ringReset_last hring (by rwa [hctl]) st eff d res
    rw [hctl] at hend
    simp only [hend]
    exact ⟨rfl, rfl, rfl, rfl, rfl, rfl, rfl⟩
  case neg =>
    have hnone : ∀ c ∈ s.ctl.inProgress, c.hdr.path ≠ .ring := fun c hm hp => hring ⟨c, hm, hp⟩
    rw [State.ringReset_ctl_of_no_ring byI2c hnone]
    exact ⟨rfl, rfl, rfl, rfl, fun hc => absurd hc hring, fun _ => ⟨rfl, rfl, rfl, rfl⟩⟩

end Sys2Proof.Machine
end

