-- ==== Sys2Proof/Proofs/StepKeeps.lean ====
section
/-!
The queue and the canonical form of memory along `exec` and `step` (00 R12). Every meaning keeps both (`Ok`, Laws/Keep); here the
lemmas of the meanings are put together, one arm of `exec` each.
-/

namespace Sys2Proof.Machine

/-- Every command keeps the canonical form of memory and the queue of waiting commands. -/
theorem exec_ok {ql : List Instr} (i : Instr) {s : State} (hok : Ok ql s) : OkR ql (exec i s) :=
  match i with
  | .nop c w => execNop_ok c w hok
  | .endKernel c w => execEndKernel_ok c w hok
  | .loop c w => execLoop_ok c w hok
  | .waitq c w => execWaitq_ok c w hok
  | .waitqRelease c => execWaitqRelease_ok c hok
  | .drain c w => execDrain_ok c w hok
  | .drainRelease c => execDrainRelease_ok c hok
  | .bara c w => execBara_ok c w hok
  | .barw c w => execBarw_ok c w hok
  | .barrierRelease task cd id scope => execBarrierRelease_ok task cd id scope hok
  | .rdreg c w => execRdreg_ok c w hok
  | .pmark c w => execPmark_ok c w hok
  | .chain c w => execChain_ok c w hok
  | .chainCycleZero c offSchedule => execChainCycleZero_ok c offSchedule hok
  | .aclr c w => execAclr_ok c w hok
  | .cmma c w => execCmma_ok c w hok
  | .ccvt c w => execCcvt_ok c w hok
  | .accst c w => execAccst_ok c w hok
  | .accld c w => execAccld_ok c w hok
  | .vadd c w => execVadd_ok c w hok
  | .vsub c w => execVsub_ok c w hok
  | .vmul c w => execVmul_ok c w hok
  | .vfma c w => execVfma_ok c w hok
  | .vmax c w => execVmax_ok c w hok
  | .vmin c w => execVmin_ok c w hok
  | .vcvt c w => execVcvt_ok c w hok
  | .vcopy c w => execVcopy_ok c w hok
  | .vcmpgt c w => execVcmpgt_ok c w hok
  | .vexp c w => execVexp_ok c w hok
  | .vlog c w => execVlog_ok c w hok
  | .vrcp c w => execVrcp_ok c w hok
  | .vrsqrt c w => execVrsqrt_ok c w hok
  | .vtanh c w => execVtanh_ok c w hok
  | .verf c w => execVerf_ok c w hok
  | .rowmax c w => execRowmax_ok c w hok
  | .rowsum c w => execRowsum_ok c w hok
  | .rowsumsq c w => execRowsumsq_ok c w hok
  | .viadd c w => execViadd_ok c w hok
  | .vimul c w => execVimul_ok c w hok
  | .vishr c w => execVishr_ok c w hok
  | .viand c w => execViand_ok c w hok
  | .vimin c w => execVimin_ok c w hok
  | .accadd c w => execAccadd_ok c w hok
  | .vrand c w => execVrand_ok c w hok
  | .mload c w => execMload_ok c w hok
  | .mstore c w => execMstore_ok c w hok
  | .gload c w => execGload_ok c w hok
  | .gscat c w => execGscat_ok c w hok
  | .gpage c w => execGpage_ok c w hok
  | .sequencerStallRelease c => execSequencerStallRelease_ok c hok
  | .scoreboardRelease c e => execScoreboardRelease_ok c e hok
  | .watchEntryFree c e => execWatchEntryFree_ok c e hok
  | .engineInstrComplete c e => execEngineInstrComplete_ok c e hok
  | .instrTimeLimit c e => execInstrTimeLimit_ok c e hok
  | .externalScratchAccess from_ addr len acc => execExternalScratchAccess_ok from_ addr len acc hok
  | .imemLoad c bank kernel code digest => execImemLoad_ok c bank kernel code digest hok
  | .imemLoadDone c => execImemLoadDone_ok c hok
  | .imemArm c => execImemArm_ok c hok
  | .imemDisarm c => execImemDisarm_ok c hok
  | .taskFire task => execTaskFire_ok task hok
  | .waveStart task cd => execWaveStart_ok task cd hok
  | .loadRaiseWithdraw cd => execLoadRaiseWithdraw_ok cd hok
  | .completionToken task wave node tok => execCompletionToken_ok task wave node tok hok
  | .dispatcherHeartbeat cd => execDispatcherHeartbeat_ok cd hok
  | .heartbeatTimeout cd => execHeartbeatTimeout_ok cd hok
  | .taskTimeLimit task => execTaskTimeLimit_ok task hok
  | .shadowCopyDone task => execShadowCopyDone_ok task hok
  | .commitAct epoch => execCommitAct_ok epoch hok
  | .placerRecompute acts => execPlacerRecompute_ok acts hok
  | .shardMove h shard addr => execShardMove_ok h shard addr hok
  | .replicaCreate h shard addr => execReplicaCreate_ok h shard addr hok
  | .residencyRank => execResidencyRank_ok hok
  | .sliceBurstRequest from_ addr len acc => execSliceBurstRequest_ok from_ addr len acc hok
  | .retryReissue c e => execRetryReissue_ok c e hok
  | .correctedWriteBack c codeword => execCorrectedWriteBack_ok c codeword hok
  | .sliceRefresh stack quadrant layer => execSliceRefresh_ok stack quadrant layer hok
  | .scrubBurst c => execScrubBurst_ok c hok
  | .scrubAge u age => execScrubAge_ok u age hok
  | .sliceFill => execSliceFill_ok hok
  | .checkerSelftest failedSlices failedPackages => execCheckerSelftest_ok failedSlices failedPackages hok
  | .spareCopyDone c page => execSpareCopyDone_ok c page hok
  | .pageEmptied tier unit page => execPageEmptied_ok tier unit page hok
  | .retirementTableWrite => execRetirementTableWrite_ok hok
  | .outerBlockRequest from_ addr len acc waiting => execOuterBlockRequest_ok from_ addr len acc waiting hok
  | .creditReturn m req => execCreditReturn_ok m req hok
  | .outerSend m => execOuterSend_ok m hok
  | .outerWindowAge m req => execOuterWindowAge_ok m req hok
  | .outerParityNak m req => execOuterParityNak_ok m req hok
  | .holdAssert m => execHoldAssert_ok m hok
  | .holdRelease m => execHoldRelease_ok m hok
  | .outerReadData m req dieCorrected dieUe busErrors reread => execOuterReadData_ok m req dieCorrected dieUe busErrors reread hok
  | .outerRequestTimeout m req => execOuterRequestTimeout_ok m req hok
  | .dieWriteBack m codeword => execDieWriteBack_ok m codeword hok
  | .outerRefresh m channel bank burst => execOuterRefresh_ok m channel bank burst hok
  | .postponedRefresh m channel bank => execPostponedRefresh_ok m channel bank hok
  | .outerScrub m => execOuterScrub_ok m hok
  | .outerFill => execOuterFill_ok hok
  | .outerSpareCopyDone m page => execOuterSpareCopyDone_ok m page hok
  | .outerBusRetrain m ok => execOuterBusRetrain_ok m ok hok
  | .proboscisSubmit m prt record poison c => execProboscisSubmit_ok m prt record poison c hok
  | .proboscisStart m => execProboscisStart_ok m hok
  | .rotationWindow m => execRotationWindow_ok m hok
  | .proboscisPublish m prt => execProboscisPublish_ok m prt hok
  | .proboscisTimeout m prt => execProboscisTimeout_ok m prt hok
  | .busyReissue c e => execBusyReissue_ok c e hok
  | .resettingReissue c e => execResettingReissue_ok c e hok
  | .request qp r => execRequest_ok qp r hok
  | .requestContinuation qp r => execRequestContinuation_ok qp r hok
  | .cancel qp request => execCancel_ok qp request hok
  | .credit qp request value => execCredit_ok qp request value hok
  | .close qp context => execClose_ok qp context hok
  | .unknownRecord qp request => execUnknownRecord_ok qp request hok
  | .tokenise qp request => execTokenise_ok qp request hok
  | .passForm model => execPassForm_ok model hok
  | .fillWaitExpiry model => execFillWaitExpiry_ok model hok
  | .passCommit pass results => execPassCommit_ok pass results hok
  | .streamWrite qp request count => execStreamWrite_ok qp request count hok
  | .creditTimeout qp request => execCreditTimeout_ok qp request hok
  | .contextIdleTimeout context => execContextIdleTimeout_ok context hok
  | .modelFetch model digest => execModelFetch_ok model digest hok
  | .modelStage model => execModelStage_ok model hok
  | .adapterStage pass adapter => execAdapterStage_ok pass adapter hok
  | .finetuneStep adapter ok grads => execFinetuneStep_ok adapter ok grads hok
  | .flitCrcReplay cd dir => execFlitCrcReplay_ok cd dir hok
  | .resettingAnswerTimeout cd => execResettingAnswerTimeout_ok cd hok
  | .clusterRelease cd => execClusterRelease_ok cd hok
  | .channelOpenRequest ep idx producer => execChannelOpenRequest_ok ep idx producer hok
  | .channelGrant ep idx => execChannelGrant_ok ep idx hok
  | .channelWord ep idx producer data kind poison => execChannelWord_ok ep idx producer data kind poison hok
  | .channelWordRead ep idx => execChannelWordRead_ok ep idx hok
  | .flush ep idx => execFlush_ok ep idx hok
  | .packetAbort ep idx producer => execPacketAbort_ok ep idx producer hok
  | .chnCfgWrite ep idx value => execChnCfgWrite_ok ep idx value hok
  | .linkFrameRx l codewordErrors flits fcb => execLinkFrameRx_ok l codewordErrors flits fcb hok
  | .fcbRx l fcb => execFcbRx_ok l fcb hok
  | .flitRx l flit => execFlitRx_ok l flit hok
  | .crcNak l seq => execCrcNak_ok l seq hok
  | .protocolNak l seq => execProtocolNak_ok l seq hok
  | .replayTimeout l => execReplayTimeout_ok l hok
  | .linkAttemptStart l => execLinkAttemptStart_ok l hok
  | .partnerDetected l lanes => execPartnerDetected_ok l lanes hok
  | .equaliseDone l goodRx goodTx => execEqualiseDone_ok l goodRx goodTx hok
  | .deskewDone l reversed polarity => execDeskewDone_ok l reversed polarity hok
  | .mgmtId l system device lnk version torus => execMgmtId_ok l system device lnk version torus hok
  | .attemptTimeout l => execAttemptTimeout_ok l hok
  | .attemptRetryTimer l => execAttemptRetryTimer_ok l hok
  | .mismatchRetry l => execMismatchRetry_ok l hok
  | .linkLeaveUp l => execLinkLeaveUp_ok l hok
  | .linkRetrain l => execLinkRetrain_ok l hok
  | .linkDisable l => execLinkDisable_ok l hok
  | .linkEnable l => execLinkEnable_ok l hok
  | .linkDrainEnd l => execLinkDrainEnd_ok l hok
  | .linkQuarantine l => execLinkQuarantine_ok l hok
  | .backoffEnd l => execBackoffEnd_ok l hok
  | .backoffRelax l => execBackoffRelax_ok l hok
  | .read l p => execRead_ok l p hok
  | .write l p => execWrite_ok l p hok
  | .instarQ l p => execInstarQ_ok l p hok
  | .readData l p => execReadData_ok l p hok
  | .writeAck l p => execWriteAck_ok l p hok
  | .instarA l p => execInstarA_ok l p hok
  | .nak l p => execNak_ok l p hok
  | .collData l p => execCollData_ok l p hok
  | .collAck l p => execCollAck_ok l p hok
  | .collAbort l p => execCollAbort_ok l p hok
  | .mgmtRoute l p => execMgmtRoute_ok l p hok
  | .packetForward arrival p dwell => execPacketForward_ok arrival p dwell hok
  | .remoteAttemptTimeout die tag => execRemoteAttemptTimeout_ok die tag hok
  | .collChunkTimeout task step rank => execCollChunkTimeout_ok task step rank hok
  | .earlyChunkResend task step rank => execEarlyChunkResend_ok task step rank hok
  | .collTimeLimit task => execCollTimeLimit_ok task hok
  | .portEnable p => execPortEnable_ok p hok
  | .portDisable p => execPortDisable_ok p hok
  | .portDrainEnd p => execPortDrainEnd_ok p hok
  | .modeSelWrite p v => execModeSelWrite_ok p v hok
  | .pfcMaskWrite p v => execPfcMaskWrite_ok p v hok
  | .portUp p => execPortUp_ok p hok
  | .portFault p loc remote => execPortFault_ok p loc remote hok
  | .ethFrameRx p f => execEthFrameRx_ok p f hok
  | .pfcRepeat p prio => execPfcRepeat_ok p prio hok
  | .pfcXon p prio occupancy => execPfcXon_ok p prio occupancy hok
  | .pfcFrameRx p prio quanta => execPfcFrameRx_ok p prio quanta hok
  | .ethPfcStorm p prio => execEthPfcStorm_ok p prio hok
  | .frameTx p prio size => execFrameTx_ok p prio size hok
  | .addressProbe p v6 duplicate => execAddressProbe_ok p v6 duplicate hok
  | .dhcpRenew p v6 => execDhcpRenew_ok p v6 hok
  | .dhcpRebind p v6 => execDhcpRebind_ok p v6 hok
  | .leaseExpiry p v6 => execLeaseExpiry_ok p v6 hok
  | .arp p target sender senderMac => execArp_ok p target sender senderMac hok
  | .neighbourSolicitation p target => execNeighbourSolicitation_ok p target hok
  | .routerAdvertisement p router => execRouterAdvertisement_ok p router hok
  | .echo p v6 payload => execEcho_ok p v6 payload hok
  | .send qp length => execSend_ok qp length hok
  | .rdmaWrite qp rkey va data => execRdmaWrite_ok qp rkey va data hok
  | .rdmaRead qp rkey va len => execRdmaRead_ok qp rkey va len hok
  | .rdmaReadResponse qp data => execRdmaReadResponse_ok qp data hok
  | .ackTimeout qp => execAckTimeout_ok qp hok
  | .heldRequestRetry qp => execHeldRequestRetry_ok qp hok
  | .holdLimitExpiry qp => execHoldLimitExpiry_ok qp hok
  | .cnpSend qp => execCnpSend_ok qp hok
  | .cnp qp => execCnp_ok qp hok
  | .rateRecoveryStep qp => execRateRecoveryStep_ok qp hok
  | .req p m => execReq_ok p m hok
  | .rep p qp mtu remoteQpn => execRep_ok p qp mtu remoteQpn hok
  | .rtu qp => execRtu_ok qp hok
  | .dreq qp => execDreq_ok qp hok
  | .drep qp => execDrep_ok qp hok
  | .rej qp => execRej_ok qp hok
  | .rtuTimeout qp => execRtuTimeout_ok qp hok
  | .deviceReqTimeout qp => execDeviceReqTimeout_ok qp hok
  | .clockOffer candidate => execClockOffer_ok candidate hok
  | .clockWithdraw candidate => execClockWithdraw_ok candidate hok
  | .candidateStable candidate => execCandidateStable_ok candidate hok
  | .pllLock => execPllLock_ok hok
  | .dividerRampStep cd => execDividerRampStep_ok cd hok
  | .cmdTailWrite qp value => execCmdTailWrite_ok qp value hok
  | .commandFetch => execCommandFetch_ok hok
  | .responseWrite => execResponseWrite_ok hok
  | .rspHeadWrite qp value => execRspHeadWrite_ok qp value hok
  | .ringReset byI2c qp => execRingReset_ok byI2c qp hok
  | .i2cGo => execI2cGo_ok hok
  | .i2cWriteTransaction x => execI2cWriteTransaction_ok x hok
  | .i2cReadTransaction x count => execI2cReadTransaction_ok x count hok
  | .alertClear mask => execAlertClear_ok mask hok
  | .alertMaskWrite value => execAlertMaskWrite_ok value hok
  | .lysIdWrite value => execLysIdWrite_ok value hok
  | .activeMaxWrite m value => execActiveMaxWrite_ok m value hok
  | .registerWrite u offset value => execRegisterWrite_ok u offset value hok
  | .telemetryRewrite => execTelemetryRewrite_ok hok
  | .commandTimeout h applied => execCommandTimeout_ok h applied hok
  | .getInfo h => execGetInfo_ok h hok
  | .computeReset h mode cds => execComputeReset_ok h mode cds hok
  | .deviceReset h => execDeviceReset_ok h hok
  | .config h op key value => execConfig_ok h op key value hok
  | .openSession h b o => execOpenSession_ok h b o hok
  | .submitProgram h b => execSubmitProgram_ok h b hok
  | .removeProgram h slot => execRemoveProgram_ok h slot hok
  | .registerModel h r => execRegisterModel_ok h r hok
  | .removeModel h model => execRemoveModel_ok h model hok
  | .setResidency h model cls weight => execSetResidency_ok h model cls weight hok
  | .registerAdapter h r => execRegisterAdapter_ok h r hok
  | .removeAdapter h adapter => execRemoveAdapter_ok h adapter hok
  | .prefix_ h op model id b => execPrefix_ok h op model id b hok
  | .registerTokeniser h slot b splitMode vocab merges => execRegisterTokeniser_ok h slot b splitMode vocab merges hok
  | .finetune h op adapter job b => execFinetune_ok h op adapter job b hok
  | .serviceSet h op set service prt pfx pfxLen qps => execServiceSet_ok h op set service prt pfx pfxLen qps hok
  | .getService h set => execGetService_ok h set hok
  | .submitTask h d => execSubmitTask_ok h d hok
  | .cancelTask h task => execCancelTask_ok h task hok
  | .getTaskState h task => execGetTaskState_ok h task hok
  | .openEpoch h => execOpenEpoch_ok h hok
  | .commit h epoch entries => execCommit_ok h epoch entries hok
  | .discard h epoch => execDiscard_ok h epoch hok
  | .setReady h t => execSetReady_ok h t hok
  | .submitCollective h d => execSubmitCollective_ok h d hok
  | .window h op w prt gidIndex hostGid va len rkey => execWindow_ok h op w prt gidIndex hostGid va len rkey hok
  | .region h op index base len rd wr domain => execRegion_ok h op index base len rd wr domain hok
  | .retire h tier unit page bank => execRetire_ok h tier unit page bank hok
  | .unitRegs h op u offset value => execUnitRegs_ok h op u offset value hok
  | .exportWindow h index base size rd wr => execExportWindow_ok h index base size rd wr hok
  | .setPowerCap h watts => execSetPowerCap_ok h watts hok
  | .setProboscis h mask activeMax => execSetProboscis_ok h mask activeMax hok
  | .domain h cd level on => execDomain_ok h cd level on hok
  | .getPower h => execGetPower_ok h hok
  | .getThermal h mask => execGetThermal_ok h mask hok
  | .getRth h stack => execGetRth_ok h stack hok
  | .stageFirmware h b info readBackOk => execStageFirmware_ok h b info readBackOk hok
  | .stagingEraseDone => execStagingEraseDone_ok hok
  | .activateFirmware h digest => execActivateFirmware_ok h digest hok
  | .getFirmware h => execGetFirmware_ok h hok
  | .takeOwnership h b o => execTakeOwnership_ok h b o hok
  | .tenant h op b o => execTenant_ok h op b o hok
  | .getQuote h nonce b => execGetQuote_ok h nonce b hok
  | .enterCocoon h b => execEnterCocoon_ok h b hok
  | .getConditionReport h b => execGetConditionReport_ok h b hok
  | .resetServiceCounters h b o => execResetServiceCounters_ok h b o hok
  | .macsecKey h prt tx an sci ssci b unwrapOk => execMacsecKey_ok h prt tx an sci ssci b unwrapOk hok
  | .guestFirewall h index base size mask rate => execGuestFirewall_ok h index base size mask rate hok
  | .getErrorLog h first count b => execGetErrorLog_ok h first count b hok
  | .injectError h unitType index cls kind => execInjectError_ok h unitType index cls kind hok
  | .link h l enable widthMax retrain => execLink_ok h l enable widthMax retrain hok
  | .setLysId h system device torus => execSetLysId_ok h system device torus hok
  | .writeRoutes h b => execWriteRoutes_ok h b hok
  | .group h op id b => execGroup_ok h op id b hok
  | .port h p enable modeSel => execPort_ok h p enable modeSel hok
  | .feedInRange f => execFeedInRange_ok f hok
  | .feedOutOfRange f => execFeedOutOfRange_ok f hok
  | .feedOvervoltage f => execFeedOvervoltage_ok f hok
  | .feedReconnect f => execFeedReconnect_ok f hok
  | .feedMateOpen f => execFeedMateOpen_ok f hok
  | .feedSwitchover => execFeedSwitchover_ok hok
  | .rstNAssert => execRstNAssert_ok hok
  | .rstNRelease => execRstNRelease_ok hok
  | .sag orMv => execSag_ok orMv hok
  | .sagRecordDone orMv => execSagRecordDone_ok orMv hok
  | .feedReturn f => execFeedReturn_ok f hok
  | .orNodeLow => execOrNodeLow_ok hok
  | .firstStageStop => execFirstStageStop_ok hok
  | .firstStageStart => execFirstStageStart_ok hok
  | .powerMeasure aMv bMv powerMw vpkgA => execPowerMeasure_ok aMv bMv powerMw vpkgA hok
  | .capControlPeriod mean1ms mean10ms => execCapControlPeriod_ok mean1ms mean10ms hok
  | .fastLimit windowW => execFastLimit_ok windowW hok
  | .fastLimitRelease windowW => execFastLimitRelease_ok windowW hok
  | .sustainedOver mean1ms => execSustainedOver_ok mean1ms hok
  | .phaseFail cd phase => execPhaseFail_ok cd phase hok
  | .droop cd sensor mv => execDroop_ok cd sensor mv hok
  | .domainBudgetGrant cd neighbourMa vpkgMa => execDomainBudgetGrant_ok cd neighbourMa vpkgMa hok
  | .rampStep cd => execRampStep_ok cd hok
  | .engineGateClose c e => execEngineGateClose_ok c e hok
  | .clusterGateIdle cd => execClusterGateIdle_ok cd hok
  | .thermalZoneSample zone samples => execThermalZoneSample_ok zone samples hok
  | .fastRise channel => execFastRise_ok channel hok
  | .thermalTrip channel => execThermalTrip_ok channel hok
  | .flowCompute tachHz16 powerW => execFlowCompute_ok tachHz16 powerW hok
  | .lowFlowLeave => execLowFlowLeave_ok hok
  | .stackRestart stack => execStackRestart_ok stack hok
  | .coolantAbsent => execCoolantAbsent_ok hok
  | .flowProbe ev => execFlowProbe_ok ev hok
  | .rthMeasure stack tj0 tc0 p0 tj1 tc1 p1 => execRthMeasure_ok stack tj0 tc0 p0 tj1 tc1 p1 hok
  | .romEntry idx => execRomEntry_ok idx hok
  | .bundleHash componentsOk => execBundleHash_ok componentsOk hok
  | .poweringDone holdupUf => execPoweringDone_ok holdupUf hok
  | .guestAbsent => execGuestAbsent_ok hok
  | .trainingDone failedPackages failedCores => execTrainingDone_ok failedPackages failedCores hok
  | .fillDone => execFillDone_ok hok
  | .coreSelftest failedClusters repairedRows => execCoreSelftest_ok failedClusters repairedRows hok
  | .broadcastStart chunks => execBroadcastStart_ok chunks hok
  | .chunkWrite die chunk missed => execChunkWrite_ok die chunk missed hok
  | .repairRequest cd digestOk => execRepairRequest_ok cd digestOk hok
  | .repairRoundTimeout cd => execRepairRoundTimeout_ok cd hok
  | .eclosion => execEclosion_ok hok
  | .lastGaspCopy slot => execLastGaspCopy_ok slot hok
  | .watchdogExpiry p => execWatchdogExpiry_ok p hok
  | .procRestartDone p => execProcRestartDone_ok p hok
  | .liveSwitchStep p => execLiveSwitchStep_ok p hok
  | .emergencyClear => execEmergencyClear_ok hok
  | .rollback => execRollback_ok hok
  | .svnAdvance => execSvnAdvance_ok hok
  | .wavesStopped => execWavesStopped_ok hok
  | .resetSelftestDone failedClusters => execResetSelftestDone_ok failedClusters hok
  | .clusterFence cd event dispatcherAnswers => execClusterFence_ok cd event dispatcherAnswers hok
  | .deviceErrorReset event => execDeviceErrorReset_ok event hok
  | .errorRecordWrite event unitType unitIndex => execErrorRecordWrite_ok event unitType unitIndex hok
  | .serviceLifeCopy index => execServiceLifeCopy_ok index hok
  | .counterBlockWrite => execCounterBlockWrite_ok hok
  | .guestRequest op addr len malformed data => execGuestRequest_ok op addr len malformed data hok
  | .cocoonWipeDone slicesUnwiped packagesUnwiped verifyFailures => execCocoonWipeDone_ok slicesUnwiped packagesUnwiped verifyFailures hok
  | .cocoonFlashDone => execCocoonFlashDone_ok hok
  | .wipeCertificate => execWipeCertificate_ok hok
  | .pauseTimeExpiry p prio => execPauseTimeExpiry_ok p prio hok
  | .stormIgnoreEnd p prio => execStormIgnoreEnd_ok p prio hok
  | .dhcpReply p v6 addr prefixLen router => execDhcpReply_ok p v6 addr prefixLen router hok
  | .arpReply p ip mac => execArpReply_ok p ip mac hok
  | .neighbourAdvertisement p ip => execNeighbourAdvertisement_ok p ip hok
  | .rdmaAcknowledgement qp ok => execRdmaAcknowledgement_ok qp ok hok
  | .sessionLifetimeEnd path => execSessionLifetimeEnd_ok path hok
  | .resetDelayExpiry => execResetDelayExpiry_ok hok
  | .phaseEmergencyEnd => execPhaseEmergencyEnd_ok hok
  | .reportedFault p => execReportedFault_ok p hok
  | .housekeepingSupplyUp => execHousekeepingSupplyUp_ok hok
  | .outerWriteAcknowledge m req busErrors => execOuterWriteAcknowledge_ok m req busErrors hok
  | .sliceBurstComplete c slot => execSliceBurstComplete_ok c slot hok

theorem exec_keeps_wf {i : Instr} {s t : State} (hm : s.mem.wf = true) (h : exec i s = .next t) : t.mem.wf = true :=
  (exec_ok i ⟨hm, rfl⟩ t h).wf

theorem step_nil {s : State} (h : s.pending = []) : step s = .next { s with now := s.now + 1 } := by
  rw [step, h]

theorem step_cons {s : State} {c : Instr} {rest : List Instr} (h : s.pending = c :: rest) :
    step s = exec c { s with pending := rest } := by
  rw [step, h]

/-- Settles O1: both clauses are the equations of `step`. -/
theorem stepRunsFrontCommand : Obligations.StepRunsFrontCommand :=
  ⟨fun _ _ _ => step_cons rfl, fun _ h => step_nil h⟩

/-- Settles O2: a step runs a command, which keeps the canonical form, or lets time pass, which touches no memory. -/
theorem stepKeepsMemoryCanonical : Obligations.StepKeepsMemoryCanonical := by
  refine ⟨fun c s t hm h => exec_keeps_wf hm h, fun s t hm h => ?_⟩
  cases hq : s.pending with
  | nil =>
    rw [step_nil hq] at h
    exact Host.Outcome.next.inj h ▸ hm
  | cons c rest =>
    rw [step_cons hq] at h
    exact exec_keeps_wf (s := { s with pending := rest }) hm h

end Sys2Proof.Machine
end

