-- ==== Sys2Proof/Proofs/AccumulatorEntries.lean ====
section
/-!
Accumulator entries (R82, R85). One product takes an entry to its combination with the entry of that product alone, and combining is
associative and, on the fields of EXACT, commutative; so the content of an EXACT entry does not depend on the order of its products
(R98).
-/

namespace Sys2Proof.Machine

/-! ### Combination -/

/-- The K_LIMIT flag of a count that has reached `n` (R82). -/
def kLimit (n : Nat) : BitVec 7 := if 2 ^ 24 < n then 1#7 <<< flKLimit else 0#7

theorem kLimit_pos {n : Nat} (h : 2 ^ 24 < n) : kLimit n = 1#7 <<< flKLimit := if_pos h
theorem kLimit_neg {n : Nat} (h : ¬ 2 ^ 24 < n) : kLimit n = 0#7 := if_neg h

/-- Saturation at 2^25 − 1 does not hide a count above 2^24. -/
theorem kLimit_min (n : Nat) : kLimit (min n (2 ^ 25 - 1)) = kLimit n := by
  by_cases h : 2 ^ 24 < n
  · rw [kLimit_pos h, kLimit_pos (by omega)]
  · rw [kLimit_neg h, kLimit_neg (by omega)]

/-- A count that has met the limit once keeps its K_LIMIT through a later sum, saturated or not. -/
theorem kLimit_or_kLimit (m n : Nat) : kLimit m ||| kLimit (min m (2 ^ 25 - 1) + n) = kLimit (m + n) := by
  by_cases hm : 2 ^ 24 < m
  · rw [kLimit_pos hm, kLimit_pos (n := min m (2 ^ 25 - 1) + n) (by omega), kLimit_pos (n := m + n) (by omega), BitVec.or_self]
  · rw [kLimit_neg hm, Nat.min_eq_left (by omega), BitVec.zero_or]

theorem AccEntry.addCount_eq (a : AccEntry) (n : Nat) :
    a.addCount n = { a with count := min (a.count + n) (2 ^ 25 - 1), flags := a.flags ||| kLimit (a.count + n) } := by
  unfold AccEntry.addCount
  rw [← kLimit_min]
  dsimp only
  split
  · next h => rw [kLimit_pos h]; rfl
  · next h => rw [kLimit_neg h, BitVec.or_zero]

theorem AccEntry.combine_eq (a b : AccEntry) : a.combine b =
    { a with
      acc := a.acc + b.acc, count := min (a.count + b.count) (2 ^ 25 - 1)
      flags := a.flags ||| b.flags ||| kLimit (a.count + b.count), poison := a.poison || b.poison } :=
  AccEntry.addCount_eq _ _

/-- Behind an entry, two others combine in either order. -/
theorem AccEntry.combine_combine_comm (a b c : AccEntry) : a.combine (b.combine c) = a.combine (c.combine b) := by
  simp only [AccEntry.combine_eq, BitVec.add_comm b.acc, Nat.add_comm b.count, BitVec.or_comm b.flags, Bool.or_comm b.poison]

theorem AccEntry.combine_assoc (a b c : AccEntry) : (a.combine b).combine c = a.combine (b.combine c) := by
  have hleft := kLimit_or_kLimit (a.count + b.count) c.count
  have hright := kLimit_or_kLimit (b.count + c.count) a.count
  rw [Nat.add_comm _ a.count, Nat.add_comm _ a.count, ← Nat.add_assoc] at hright
  have hcount : min (min (a.count + b.count) (2 ^ 25 - 1) + c.count) (2 ^ 25 - 1) =
      min (a.count + min (b.count + c.count) (2 ^ 25 - 1)) (2 ^ 25 - 1) := by omega
  have hflags : a.flags ||| b.flags ||| kLimit (a.count + b.count) ||| c.flags |||
      kLimit (min (a.count + b.count) (2 ^ 25 - 1) + c.count) =
      a.flags ||| (b.flags ||| c.flags ||| kLimit (b.count + c.count)) |||
        kLimit (a.count + min (b.count + c.count) (2 ^ 25 - 1)) := by
    calc
      _ = a.flags ||| b.flags ||| c.flags ||| (kLimit (a.count + b.count) |||
          kLimit (min (a.count + b.count) (2 ^ 25 - 1) + c.count)) := by ac_rfl
      _ = a.flags ||| b.flags ||| c.flags ||| (kLimit (b.count + c.count) |||
          kLimit (a.count + min (b.count + c.count) (2 ^ 25 - 1))) := by rw [hleft, hright]
      _ = _ := by ac_rfl
  simp only [AccEntry.combine_eq, hcount, hflags, BitVec.add_assoc, Bool.or_assoc]

theorem AccEntry.combine_right_comm (a b c : AccEntry) : (a.combine b).combine c = (a.combine c).combine b := by
  rw [AccEntry.combine_assoc, AccEntry.combine_combine_comm, ← AccEntry.combine_assoc]

/-- Settles O15: the four fields of a combination, and its two laws. -/
theorem recordCombination : Obligations.RecordCombination := by
  refine ⟨fun a b => ?_, AccEntry.combine_assoc⟩
  rw [AccEntry.combine_eq, AccEntry.combine_eq]
  exact ⟨rfl, rfl, rfl, rfl, BitVec.add_comm _ _, by simp only [Nat.add_comm b.count],
    by simp only [BitVec.or_comm b.flags, Nat.add_comm b.count], Bool.or_comm _ _⟩

/-! ### One product -/

theorem AccEntry.addProduct_eq (a : AccEntry) (x : Int) (neg : Bool) (m : Nat) (e : Int) :
    a.addProduct x neg m e =
      { a with
        acc := a.acc + (({} : AccEntry).addProduct x neg m e).acc
        flags := a.flags ||| (({} : AccEntry).addProduct x neg m e).flags } := by
  unfold AccEntry.addProduct
  split
  · simp
  · split
    · simp [AccEntry.setFlag]
    · dsimp only
      split
      · simp
      · split <;> simp [AccEntry.setFlag]

/-- The 96-bit integer and the flags that one product adds (R82), its count aside. -/
def productEntry (x : Int) (va vb : Val) (sc : Option Int) : AccEntry :=
  match sc with
  | none => ({} : AccEntry).setFlag flNan
  | some k =>
    match va.mul vb with
    | .nan => ({} : AccEntry).setFlag flNan
    | .inf neg => ({} : AccEntry).setFlag (if neg then flNegInf else flPosInf)
    | .fin neg m e => ({} : AccEntry).addProduct x neg m (e + k)

/-- One product leaves the combination of the entry before with an entry that depends on the product alone. -/
theorem AccEntry.mac_eq_combine (a : AccEntry) (x : Int) (va vb : Val) (sc : Option Int) (poison : Bool) :
    a.mac x va vb sc poison = a.combine { productEntry x va vb sc with count := 1, poison := poison } := by
  have hflag : ∀ n, a.setFlag n = { a with
      acc := a.acc + (({} : AccEntry).setFlag n).acc, flags := a.flags ||| (({} : AccEntry).setFlag n).flags } := by
    intro n; simp [AccEntry.setFlag]
  unfold AccEntry.mac productEntry
  rw [AccEntry.combine_eq]
  cases sc with
  | none => simp only [AccEntry.addCount_eq, hflag]
  | some k =>
    cases va.mul vb with
    | nan => simp only [AccEntry.addCount_eq, hflag]
    | inf neg => simp only [AccEntry.addCount_eq, hflag]
    | fin neg m e => simp only [AccEntry.addCount_eq, AccEntry.addProduct_eq a]

/-- Settles O14: products combine in any order. -/
theorem exactAccumulationOrderFree : Obligations.ExactAccumulationOrderFree := by
  intro x e l1 l2 hp
  refine hp.foldl_eq' (fun p _ q _ a => ?_) e
  simp only [AccEntry.mac_eq_combine]
  exact AccEntry.combine_right_comm _ _ _

end Sys2Proof.Machine
end

