-- ==== Sys2Proof/Proofs/CompletionTokens.lean ====
section
/-!
Merging completion tokens (R166, R167). Sums, minima and the poison bit merge in any order; the status is that of the lowest failed
partition.
-/

namespace Sys2Proof.Machine

theorem Token.merge_assoc (a b c : Token) : Token.merge (Token.merge a b) c = Token.merge a (Token.merge b c) := by
  have hstatus : (Token.merge (Token.merge a b) c).firstStatus = (Token.merge a (Token.merge b c)).firstStatus := by
    by_cases hab : a.firstFailed ≤ b.firstFailed
    · by_cases hbc : b.firstFailed ≤ c.firstFailed
      · simp [Token.merge, hab, hbc, Nat.le_trans hab hbc]
      · simp [Token.merge, hab, hbc, Nat.le_of_lt (Nat.lt_of_not_le hbc)]
    · have hmin : ¬ a.firstFailed ≤ min b.firstFailed c.firstFailed := fun h => hab (Nat.le_trans h (Nat.min_le_left ..))
      by_cases hbc : b.firstFailed ≤ c.firstFailed <;>
        simp only [Token.merge, hab, hbc, hmin, if_true, if_false, Nat.min_eq_right (Nat.le_of_lt (Nat.lt_of_not_le hab))]
  have hfields : ∀ {s t : Token}, s = { t with firstStatus := s.firstStatus } → s.firstStatus = t.firstStatus → s = t := by
    intro s t h e; rw [h, e]
  refine hfields ?_ hstatus
  simp only [Token.merge, Nat.add_assoc, Nat.min_assoc, Bool.or_assoc]

/-- The lower of two first failures gives the status; at a tie either does, where the two are one. -/
theorem Token.merge_comm {a b : Token} (h : a.firstFailed = b.firstFailed → a.firstStatus = b.firstStatus) :
    Token.merge a b = Token.merge b a := by
  have hst : (if a.firstFailed ≤ b.firstFailed then a.firstStatus else b.firstStatus) =
      if b.firstFailed ≤ a.firstFailed then b.firstStatus else a.firstStatus := by
    rcases Nat.lt_trichotomy a.firstFailed b.firstFailed with hlt | heq | hgt
    · rw [if_pos (Nat.le_of_lt hlt), if_neg (by omega)]
    · rw [if_pos (Nat.le_of_eq heq), if_pos (Nat.le_of_eq heq.symm), h heq]
    · rw [if_neg (by omega), if_pos (Nat.le_of_lt hgt)]
  simp only [Token.merge, Nat.add_comm a.done, Nat.add_comm a.failed, Nat.min_comm a.minMark, Nat.min_comm a.firstFailed,
    Nat.add_comm a.clusters, Bool.or_comm a.poison, hst]

/-- Settles O26: the fields of a merge, and its two laws. -/
theorem tokenMergeOrderFree : Obligations.TokenMergeOrderFree :=
  ⟨Token.merge_assoc, fun _ _ => ⟨rfl, rfl, rfl, rfl, rfl, rfl, Token.merge_comm⟩⟩

end Sys2Proof.Machine
end

