-- ==== Sys2Proof/Proofs/VectorInstructions.lean ====
section
/-!
The vector instructions on a quiet core (R92 to R96, R106). Each is fetched, dispatched and run at once (`State.fetch_vec`), so what is
left to say is what its rows hold.
-/

namespace Sys2Proof.Machine

/-! ### Rows, element by element -/

theorem mapIdx_ignore {α β : Type} (f : α → β) (l : List α) : (l.mapIdx fun _ x => f x) = l.map f := by
  apply List.ext_getElem <;> simp

theorem mapIdx_same {α : Type} (l : List α) : (l.mapIdx fun _ x => x) = l := by
  rw [mapIdx_ignore, List.map_id']

/-- An instruction of one source whose function does not use the place of its element. -/
theorem State.vUnary_eq (s : State) (c : Nat) (w : IFields) (f : Nat → Nat) :
    s.vUnary c w (fun _ _ x => f x) =
      s.storeRowsAt c (opnd w.dest) ((s.rawRows c (opnd w.srcA)).map fun row => row.map fun x => (f x.1, x.2)) := by
  simp only [State.vUnary, mapIdx_ignore]

theorem State.vCopy_eq (s : State) (c : Nat) (w : IFields) :
    s.vCopy c w = s.storeRowsAt c (opnd w.dest) (s.rawRows c (opnd w.srcA)) := by
  simp only [State.vCopy, State.vUnary_eq, Prod.eta, List.map_id']

/-- A vector instruction on a quiet core changes memory by its operation, and the core's place in its kernel. -/
theorem State.fetch_vecDone {s : State} {c op : Nat} {w : IFields} {m : Mem} (hq : (s.core c).quiet = true)
    (he : engineOf op = some .vec) (hm : (s.vecOp c op w).mem = m) : s.fetch c op w = .next (s.vecDone c m) := by
  rw [State.fetch_vec hq he, hm]; rfl

/-- Settles O5: each instruction by what its operation stores. -/
theorem vectorArithmeticStoresDest : Obligations.VectorArithmeticStoresDest := by
  intro c w s hq
  have hvec : ∀ {op : Nat} {m : Mem}, engineOf op = some .vec → (s.vecOp c op w).mem = m → s.fetch c op w = .next (s.vecDone c m) :=
    fun he hm => State.fetch_vecDone hq he hm
  refine ⟨hvec rfl rfl, hvec rfl rfl, hvec rfl rfl, hvec rfl rfl, hvec rfl rfl, hvec rfl rfl, hvec rfl rfl, hvec rfl rfl,
    hvec rfl ?_⟩
  exact congrArg State.mem (s.vCopy_eq c w)

/-- Settles O6: the special functions map elements, the reductions rows. -/
theorem vectorSpecialAndReductions : Obligations.VectorSpecialAndReductions := by
  intro c w s hq
  have hspecial : ∀ {op : Nat} (f : Val → Word), engineOf op = some .vec → s.vecOp c op w = s.vSpecial c w f →
      s.fetch c op w = .next (s.vecDone c (s.storeRowsAt c (opnd w.dest)
        ((s.rawRows c (opnd w.srcA)).map fun row => row.map fun x =>
          (if (opnd w.dest).fmt = fmtFP32 then (f (valOf w.srcA x.1)).toNat
           else roundTo (opnd w.dest).fmt (rtzMode w) (ofF32 (f (valOf w.srcA x.1))), x.2))).mem) := by
    intro op f he hop
    refine State.fetch_vecDone hq he ?_
    rw [hop]
    exact congrArg State.mem (s.vUnary_eq c w fun x => if (opnd w.dest).fmt = fmtFP32 then (f (valOf w.srcA x)).toNat
      else roundTo (opnd w.dest).fmt (rtzMode w) (ofF32 (f (valOf w.srcA x))))
  have hreduce : ∀ {op : Nat} {m : Mem}, engineOf op = some .vec → (s.vecOp c op w).mem = m →
      s.fetch c op w = .next (s.vecDone c m) := fun he hm => State.fetch_vecDone hq he hm
  exact ⟨hspecial _ rfl rfl, hspecial _ rfl rfl, hspecial _ rfl rfl, hspecial _ rfl rfl, hspecial _ rfl rfl, hspecial _ rfl rfl,
    hreduce rfl rfl, hreduce rfl rfl, hreduce rfl rfl⟩

/-- Settles O7: each instruction by what its operation stores. -/
theorem vectorIntegersAndRecords : Obligations.VectorIntegersAndRecords := by
  intro c w s hq
  have hvec : ∀ {op : Nat} {m : Mem}, engineOf op = some .vec → (s.vecOp c op w).mem = m → s.fetch c op w = .next (s.vecDone c m) :=
    fun he hm => State.fetch_vecDone hq he hm
  exact ⟨hvec rfl rfl, hvec rfl rfl, hvec rfl rfl, hvec rfl rfl, hvec rfl rfl, hvec rfl rfl, hvec rfl rfl⟩

/-! ### Bytes and the numbers they spell -/

@[simp] theorem leBytes_length (n v : Nat) : (leBytes n v).length = n := by simp [leBytes]

theorem leBytes_succ (n v : Nat) : leBytes (n + 1) v = BitVec.ofNat 8 v :: leBytes n (v / 256) := by
  simp only [leBytes, List.range_succ_eq_map, List.map_cons, List.map_map, Nat.pow_zero, Nat.div_one]
  congr 2
  funext i
  simp only [Function.comp, Nat.pow_succ', Nat.div_div_eq_div_mul]

/-- The bytes of a number spell it, modulo what they hold. -/
@[simp] theorem leNat_leBytes (n v : Nat) : leNat (leBytes n v) = v % 256 ^ n := by
  induction n generalizing v with
  | zero => simp [leBytes, leNat, Nat.mod_one]
  | succ n ih => rw [leBytes_succ, leNat, ih, Nat.pow_succ', Nat.mod_mul, BitVec.toNat_ofNat]

/-! ### One INT32 word -/

/-- The operand is one INT32 word at the start of a scratchpad row. -/
def Opnd.isWord (o : Opnd) : Prop := o.rows = 1 ∧ o.cols = 1 ∧ o.fmt = fmtInt32 ∧ o.addr % 32 = 0

/-- The bytes of a word at the start of a row do not wrap around the scratchpad. -/
theorem spad_word {a i : Nat} (c : Nat) (hrow : a % 32 = 0) (hi : i < 4) : spad c (a + i) = spad c a + i := by
  simp only [spad]; omega

theorem State.rawRow_word (s : State) (c : Nat) {o : Opnd} (h : o.isWord) :
    ∃ p, s.rawRow c o 0 = [(leNat (s.spRead c o.addr 4) % 2 ^ 32, p)] := by
  obtain ⟨-, hcols, hfmt, -⟩ := h
  have hbits : elemBits o.fmt = 32 := by rw [hfmt]; rfl
  have hlen : o.rowLen = 4 := by rw [Opnd.rowLen, hbits, hcols]
  apply Exists.intro
  simp only [State.rawRow, hcols, hbits, hlen, Opnd.rowAddr, Nat.zero_mul, Nat.add_zero, List.range_one, List.map_cons,
    List.map_nil, rawElem, Nat.mul_zero, Nat.pow_zero, Nat.div_one]
  rfl

/-- The store of one word. -/
theorem State.storeRowsAt_word (s : State) (c : Nat) {o : Opnd} (h : o.isWord) (x : Nat) (p : Bool) :
    ∃ mark, (s.storeRowsAt c o [[(x, p)]]).mem = (s.mem.write (spad c o.addr) (leBytes 4 (x % 2 ^ 32))).setMark
      (unitBase (spad c o.addr)) mark := by
  obtain ⟨-, -, hfmt, hrow⟩ := h
  have hbits : elemBits o.fmt = 32 := by rw [hfmt]; rfl
  have hpack : packRow 32 [x] = leBytes 4 (x % 2 ^ 32) := by simp [packRow]
  have hlen : (leBytes 4 (x % 2 ^ 32)).length = 4 := leBytes_length _ _
  have htake : (leBytes 4 (x % 2 ^ 32)).take (65536 - o.addr % 65536) = leBytes 4 (x % 2 ^ 32) :=
    List.take_of_length_le (by omega)
  have hchunk : (leBytes 4 (x % 2 ^ 32)).take 32 = leBytes 4 (x % 2 ^ 32) := List.take_of_length_le (by omega)
  have hne : (leBytes 4 (x % 2 ^ 32)).isEmpty = false := rfl
  apply Exists.intro
  simp only [State.storeRowsAt, List.zipIdx_cons, List.zipIdx_nil, List.foldl_cons, List.foldl_nil, State.storeElems, hbits,
    List.map_cons, List.map_nil, hpack, State.spStore, Opnd.rowAddr, Nat.zero_mul, Nat.add_zero, htake, hlen, State.onMem_mem,
    Nat.reduceAdd, Nat.reduceDiv, Mem.storeRows, hne, hchunk, Bool.false_eq_true, if_false]
  rfl

theorem State.spRead_write_word {s t : State} {c a v : Nat} {u : Nat} {mark : Bool} (hwf : s.mem.wf = true)
    (hrow : a % 32 = 0) (ht : t.mem = (s.mem.write (spad c a) (leBytes 4 v)).setMark u mark) : t.spRead c a 4 = leBytes 4 v := by
  have hlen : (leBytes 4 v).length = 4 := leBytes_length _ _
  apply List.ext_getElem
  · simp [State.spRead]
  · intro i hi _
    have hi4 : i < 4 := by simpa [State.spRead] using hi
    simp only [State.spRead, List.getElem_map, List.getElem_range, ht, Mem.byte_setMark, spad_word c hrow hi4]
    exact Mem.byte_write_in hwf _ _ _ (by omega)

/-- Settles O8: VIADD stores one word, which reads back as the sum of the two it read. -/
theorem integerAddReadsBack : Obligations.IntegerAddReadsBack := by
  intro c w s hq hwf hmods hopnd
  have hd : (opnd w.dest).isWord := hopnd _ (.inl rfl)
  have ha : (opnd w.srcA).isWord := hopnd _ (.inr (.inl rfl))
  have hb : (opnd w.srcB).isWord := hopnd _ (.inr (.inr rfl))
  obtain ⟨pa, hrawA⟩ := s.rawRow_word c ha
  obtain ⟨pb, hrawB⟩ := s.rawRow_word c hb
  have hrow : ∀ {o : Opnd}, o.isWord → s.rawRows c o = [s.rawRow c o 0] := by
    intro o h; rw [State.rawRows, h.1]; rfl
  generalize leNat (s.spRead c (opnd w.srcA).addr 4) = va at hrawA ⊢
  generalize leNat (s.spRead c (opnd w.srcB).addr 4) = vb at hrawB ⊢
  have hzip : s.zipAB c w (fun _ _ a b => (BitVec.ofNat 32 a + BitVec.ofNat 32 b).toNat) = [[((va + vb) % 2 ^ 32, pa || pb)]] := by
    simp only [State.zipAB, hrow ha, hrow hb, hrawA, hrawB, hmods]
    simp [bits, bAt]
  obtain ⟨mark, hmem⟩ := s.storeRowsAt_word c hd ((va + vb) % 2 ^ 32) (pa || pb)
  obtain ⟨hadd, -⟩ := vectorIntegersAndRecords c w s hq
  refine ⟨_, hadd, ?_, ?_⟩
  · rw [State.spRead_write_word hwf hd.2.2.2 (by exact (congrArg (fun r => (s.storeRowsAt c (opnd w.dest) r).mem) hzip).trans hmem),
      leNat_leBytes]
    omega
  · intro a hout
    show (s.storeRowsAt c (opnd w.dest) (s.zipAB c w fun _ _ a b => (BitVec.ofNat 32 a + BitVec.ofNat 32 b).toNat)).mem.byte a = _
    rw [hzip, hmem, Mem.byte_setMark, Mem.byte_write_ne _ _ _ (by simpa using hout)]

end Sys2Proof.Machine
end

