-- ==== Sys2Proof/Proofs/CubeInstructions.lean ====
section
/-!
The cube instructions on a quiet core (R76 to R91, R113 to R116). ACLR, CMMA and ACCLD change accumulator entries only; ACCST and CCVT
store rows of the scratchpad; a mode mismatch (R80) ends the task.
-/

namespace Sys2Proof.Machine

/-! ### Tables of entries and tiles -/

theorem look_filter {α : Type} (t : Tab α) (f : Nat → Bool) (i : Nat) :
    look (t.filter fun p => f p.1) i = if f i then look t i else none := by
  induction t with
  | nil => simp [look]
  | cons p t ih =>
    obtain ⟨k, w⟩ := p
    by_cases hk : f k = true
    · by_cases hik : i = k
      · subst hik; simp [hk, look]
      · simp [hk, look, hik, ih]
    · by_cases hik : i = k
      · subst hik; simp [hk, ih]
      · simp [hk, look, hik, ih]

theorem Core.acc_setAcc_same (k : Core) (i : Nat) (a : AccEntry) : (k.setAcc i a).acc i = a := lookD_put_same ..

theorem Core.acc_setAcc_ne (k : Core) {i j : Nat} (a : AccEntry) (h : j ≠ i) : (k.setAcc i a).acc j = k.acc j := lookD_put_ne _ _ _ h

/-- A core with other accumulator entries. -/
def Core.withAccs (k : Core) (a : Tab AccEntry) : Core := { k with accs := a }

/-! ### Rectangles of entries -/

/-- The places of an operand of `r` rows and `n` columns, row by row. -/
def places (r n : Nat) : List (Nat × Nat) := (List.range r).flatMap fun i => (List.range n).map (Prod.mk i)

/-- The entry of a place (R76). -/
def entryAt (base n : Nat) (p : Nat × Nat) : Nat := base + p.1 * n + p.2

theorem mem_places {r n : Nat} {p : Nat × Nat} : p ∈ places r n ↔ p.1 < r ∧ p.2 < n := by
  obtain ⟨i, j⟩ := p
  simp [places]

theorem entryAt_inj {base n : Nat} {p q : Nat × Nat} (hp : p.2 < n) (hq : q.2 < n) (h : entryAt base n p = entryAt base n q) : p = q := by
  have hn : 0 < n := by omega
  have heq : n * p.1 + p.2 = n * q.1 + q.2 := by simp only [entryAt, Nat.mul_comm _ n] at h; omega
  have h1 : p.1 = q.1 := by
    have := congrArg (· / n) heq
    simpa [Nat.mul_add_div hn, Nat.div_eq_of_lt hp, Nat.div_eq_of_lt hq] using this
  exact Prod.ext h1 (by rw [h1] at heq; omega)

theorem nodup_places (r n : Nat) : (places r n).Nodup := by
  refine List.pairwise_flatMap.mpr ⟨fun i _ => List.pairwise_map.mpr (List.nodup_range.imp fun h e => h (Prod.mk.inj e).2),
    List.nodup_range.imp fun h p hp q hq e => h ?_⟩
  obtain ⟨_, -, rfl⟩ := List.mem_map.mp hp
  obtain ⟨_, -, rfl⟩ := List.mem_map.mp hq
  exact (Prod.mk.inj e).1

theorem nodup_entryAt (base r n : Nat) : ((places r n).map (entryAt base n)).Nodup :=
  List.pairwise_map.mpr ((nodup_places r n).imp_of_mem fun hp hq hne h =>
    hne (entryAt_inj (mem_places.mp hp).2 (mem_places.mp hq).2 h))

theorem not_mem_entryAt {base r n x : Nat} (h : x < base ∨ base + r * n ≤ x) : x ∉ (places r n).map (entryAt base n) := by
  rintro hx
  obtain ⟨p, hp, rfl⟩ := List.mem_map.mp hx
  obtain ⟨hp1, hp2⟩ := mem_places.mp hp
  have : p.1 * n + n ≤ r * n := by
    rw [← Nat.succ_mul]; exact Nat.mul_le_mul_right n hp1
  simp only [entryAt] at h
  omega

theorem zipIdx_map_range {α : Type} (f : Nat → α) (n : Nat) : ((List.range n).map f).zipIdx = (List.range n).map fun i => (f i, i) := by
  apply List.ext_getElem <;> simp

theorem foldl_places {β : Type} (f : β → Nat × Nat → β) (b : β) (r n : Nat) :
    (places r n).foldl f b = (List.range r).foldl (fun b i => (List.range n).foldl (fun b j => f b (i, j)) b) b := by
  simp only [places, List.foldl_flatMap, List.foldl_map]

/-- The rows of a rectangle one behind the other, numbered. -/
theorem zipIdx_flatMap_range {α : Type} (f : Nat → Nat → α) (r n : Nat) :
    ((List.range r).flatMap fun i => (List.range n).map (f i)).zipIdx =
      (places r n).map fun p => (f p.1 p.2, p.1 * n + p.2) := by
  induction r with
  | zero => rfl
  | succ r ih =>
    have hlen : ((List.range r).flatMap fun i => (List.range n).map (f i)).length = r * n := by
      simp [List.length_flatMap, List.map_const', List.sum_replicate_nat]
    simp only [places, List.range_succ, List.flatMap_append, List.zipIdx_append, List.map_append] at ih ⊢
    rw [ih, hlen]
    congr 1
    apply List.ext_getElem <;> simp [Nat.add_comm]

/-! ### Setting the entries of a rectangle -/

/-- What setting an entry from itself, once for each of a list, makes of the accumulator file: each place named once holds
the value made from its own entry, every other entry stays. -/
theorem Core.foldl_setAcc {α : Type} (idx : α → Nat) (g : α → Tile → AccEntry → AccEntry) (l : List α) (hl : (l.map idx).Nodup)
    (k : Core) :
    let r := l.foldl (fun k x => k.setAcc (idx x) (g x (k.tile (idx x / 64)) (k.acc (idx x)))) k
    (∃ a, r = k.withAccs a) ∧ (∀ x ∈ l, r.acc (idx x) = g x (k.tile (idx x / 64)) (k.acc (idx x))) ∧
      ∀ i, i ∉ l.map idx → r.acc i = k.acc i := by
  induction l generalizing k with
  | nil => exact ⟨⟨k.accs, rfl⟩, by simp, fun _ _ => rfl⟩
  | cons y l ih =>
    obtain ⟨hy, hl⟩ := List.nodup_cons.mp hl
    obtain ⟨⟨a, ha⟩, hin, hout⟩ := ih hl (k.setAcc (idx y) (g y (k.tile (idx y / 64)) (k.acc (idx y))))
    refine ⟨⟨a, ha⟩, fun x hx => ?_, fun i hi => ?_⟩
    · rcases List.mem_cons.mp hx with rfl | hx
      · exact (hout _ hy).trans (Core.acc_setAcc_same ..)
      · have hne : idx x ≠ idx y := fun h => hy (h ▸ List.mem_map_of_mem hx)
        exact (hin x hx).trans (congrArg _ (Core.acc_setAcc_ne _ _ hne))
    · obtain ⟨hiy, hil⟩ := List.ne_and_not_mem_of_not_mem_cons hi
      exact (hout i hil).trans (Core.acc_setAcc_ne _ _ hiy)

/-- Set each entry of a rectangle from its own content and its tile. -/
def Core.setEntries (k : Core) (base r n : Nat) (g : Nat → Nat → Tile → AccEntry → AccEntry) : Core :=
  (places r n).foldl (fun k p => k.setAcc (entryAt base n p) (g p.1 p.2 (k.tile (entryAt base n p / 64)) (k.acc (entryAt base n p)))) k

theorem Core.setEntries_withAccs (k : Core) (base r n : Nat) (g : Nat → Nat → Tile → AccEntry → AccEntry) :
    ∃ a, k.setEntries base r n g = k.withAccs a :=
  (Core.foldl_setAcc _ (fun (p : Nat × Nat) => g p.1 p.2) _ (nodup_entryAt base r n) k).1

theorem Core.acc_setEntries_in (k : Core) {base r n i j : Nat} (g : Nat → Nat → Tile → AccEntry → AccEntry) (hi : i < r) (hj : j < n) :
    (k.setEntries base r n g).acc (base + i * n + j) = g i j (k.tile ((base + i * n + j) / 64)) (k.acc (base + i * n + j)) :=
  (Core.foldl_setAcc _ (fun (p : Nat × Nat) => g p.1 p.2) _ (nodup_entryAt base r n) k).2.1 (i, j) (mem_places.mpr ⟨hi, hj⟩)

theorem Core.acc_setEntries_out (k : Core) {base r n x : Nat} (g : Nat → Nat → Tile → AccEntry → AccEntry)
    (h : x < base ∨ base + r * n ≤ x) : (k.setEntries base r n g).acc x = k.acc x :=
  (Core.foldl_setAcc _ (fun (p : Nat × Nat) => g p.1 p.2) _ (nodup_entryAt base r n) k).2.2 x (not_mem_entryAt h)

/-! ### A cube instruction that completes -/

theorem State.cubeRow_congr {s t : State} (h : t.mem = s.mem) (c : Nat) (o : Opnd) (r : Nat) : t.cubeRow c o r = s.cubeRow c o r := by
  simp only [State.cubeRow, State.rawRow, State.scaleOf, State.spRead, State.spMarked, h]

/-- A cube instruction on a quiet core whose operation leaves a core that has nothing more to do. -/
theorem State.fetch_cube_core {s : State} {c op : Nat} {w : IFields} {k : Core} {m : Mem} (hq : (s.core c).quiet = true)
    (he : engineOf op = some .cube)
    (ht : (s.modCore c (·.issued .cube)).cubeOp c op w = .ok { s with mem := m, cores := put s.cores c k })
    (hk : k.stream = [] ∧ k.watch = [] ∧ k.baraWait = []) :
    s.fetch c op w = .next { s with mem := m, cores := put s.cores c k } := by
  have hcore : ({ s with mem := m, cores := put s.cores c k } : State).core c = k := lookD_put_self ..
  exact State.fetch_cube hq he ht (by rw [hcore]; exact hk) (x := s.cores) (by rw [hcore])

theorem Core.issued_of_quiet {k : Core} (hq : k.quiet = true) (e : Engine) :
    (k.issued e).stream = [] ∧ (k.issued e).watch = [] ∧ (k.issued e).baraWait = [] := by
  obtain ⟨-, -, hst, -, -, -, hw, hb⟩ := (Core.quiet_iff _).1 hq
  exact ⟨hst, hw, hb⟩

/-- A cube instruction that sets the entries of a rectangle, and nothing else. -/
theorem State.fetch_setEntries {s : State} {c op base r n : Nat} {w : IFields} {g : Nat → Nat → Tile → AccEntry → AccEntry}
    (hq : (s.core c).quiet = true) (he : engineOf op = some .cube)
    (hop : (s.modCore c (·.issued .cube)).cubeOp c op w =
      .ok ((s.modCore c (·.issued .cube)).modCore c fun k => k.setEntries base r n g)) :
    ∃ t, s.fetch c op w = .next t ∧ t.mem = s.mem ∧ (t.core c).tiles = (s.core c).tiles ∧
      (t.core c).cubeFlags = (s.core c).cubeFlags ∧
      (∀ i j, i < r → j < n → (t.core c).acc (base + i * n + j) =
        g i j ((s.core c).tile ((base + i * n + j) / 64)) ((s.core c).acc (base + i * n + j))) ∧
      ∀ x, (x < base ∨ base + r * n ≤ x) → (t.core c).acc x = (s.core c).acc x := by
  obtain ⟨k, hk⟩ : ∃ k, k = ((s.core c).issued .cube).setEntries base r n g := ⟨_, rfl⟩
  obtain ⟨a, ha⟩ := ((s.core c).issued .cube).setEntries_withAccs base r n g
  have hstate : (s.modCore c (·.issued .cube)).modCore c (fun k => k.setEntries base r n g) =
      { s with mem := s.mem, cores := put s.cores c k } := by rw [State.modCore_modCore, hk]; rfl
  have hidle : k.stream = [] ∧ k.watch = [] ∧ k.baraWait = [] := by
    rw [hk, ha]; exact Core.issued_of_quiet hq .cube
  have hcore : ({ s with mem := s.mem, cores := put s.cores c k } : State).core c = k := lookD_put_self ..
  refine ⟨_, State.fetch_cube_core hq he (hop.trans (congrArg _ hstate)) hidle, rfl, ?_, ?_, fun i j hi hj => ?_, fun x hx => ?_⟩
  all_goals rw [hcore, hk]
  · rw [ha]; rfl
  · rw [ha]; rfl
  · exact Core.acc_setEntries_in _ g hi hj
  · exact Core.acc_setEntries_out _ g hx

/-! ### CMMA and ACCLD -/

theorem State.cmma_mismatch {s : State} {c : Nat} {w : IFields} (h : (s.core c).anyMode (opnd w.dest).accBase (opnd w.dest).entries
    (classOfPair (opnd w.srcA).fmt (opnd w.srcB).fmt != .sixteen) = true) : s.cmma c w = .err s .accMode stBadArg 0 := by
  unfold State.cmma; exact if_pos h

theorem State.cmma_of_mode {s : State} {c : Nat} {w : IFields} (h : (s.core c).anyMode (opnd w.dest).accBase (opnd w.dest).entries
    (classOfPair (opnd w.srcA).fmt (opnd w.srcB).fmt != .sixteen) = false) :
    s.cmma c w = .ok (s.modCore c fun k => k.setEntries (opnd w.dest).accBase (opnd w.dest).rows (opnd w.dest).cols fun i j t e =>
      let cl := classOfPair (opnd w.srcA).fmt (opnd w.srcB).fmt
      cmmaEntry cl (shapeOf (bits w.mods.toNat 1 0) cl).2.1 t.anchor (s.cubeRow c (opnd w.srcA) i) (s.cubeRow c (opnd w.srcB) j) e) := by
  unfold State.cmma
  refine (if_neg (Bool.eq_false_iff.mp h)).trans ?_
  simp only [zipIdx_map_range, List.foldl_map, Core.setEntries, foldl_places]
  rfl

/-- Settles O10: CMMA sets each entry of the rectangle from its own content. -/
theorem cmmaAccumulatesEntries : Obligations.CmmaAccumulatesEntries := by
  intro c w s hq cl base n hmode
  refine State.fetch_setEntries (op := 0x21) (g := fun i j t e => cmmaEntry cl (shapeOf (bits w.mods.toNat 1 0) cl).2.1 t.anchor
    (s.cubeRow c (opnd w.srcA) i) (s.cubeRow c (opnd w.srcB) j) e) hq rfl
    ((State.cmma_of_mode (by rw [State.modCore_core]; exact hmode)).trans ?_)
  simp only [State.cubeRow_congr (State.modCore_mem s c (·.issued .cube))]
  rfl

theorem State.accst_mismatch {s : State} {c : Nat} {w : IFields}
    (h : (s.core c).anyMode (opnd w.srcA).accBase (opnd w.srcA).entries true = true) : s.accst c w = .err s .accMode stBadArg 0 :=
  if_pos h

theorem State.accst_of_mode {s : State} {c : Nat} {w : IFields}
    (h : (s.core c).anyMode (opnd w.srcA).accBase (opnd w.srcA).entries true = false) :
    s.accst c w = .ok (s.storeRowsAt c (opnd w.dest) ((List.range (opnd w.srcA).rows).map fun i =>
      (List.range (opnd w.srcA).cols).map fun j =>
        let e := (s.core c).acc ((opnd w.srcA).accBase + i * (opnd w.srcA).cols + j)
        (e.record, e.poison))) := by
  refine (if_neg (Bool.eq_false_iff.mp h)).trans ?_
  simp only [State.storeRowsAt, zipIdx_map_range, List.foldl_map]

theorem State.accld_mismatch {s : State} {c : Nat} {w : IFields}
    (h : (s.core c).anyMode (opnd w.dest).accBase (opnd w.dest).entries true = true) : s.accld c w = .err s .accMode stBadArg 0 :=
  if_pos h

/-- The rows of an operand one behind the other, element by element. -/
theorem State.flatten_rawRow (s : State) (c : Nat) (o : Opnd) (r : Nat) : ((List.range r).map fun i => s.rawRow c o i).flatten =
    (List.range r).flatMap fun i => (List.range o.cols).map fun j => (s.rawRow c o i).getD j (0, false) := by
  rw [← List.flatMap_def]
  congr 1
  funext i
  have hlen : (s.rawRow c o i).length = o.cols := by simp [State.rawRow]
  apply List.ext_getElem
  · simp [hlen]
  · intro j h _
    simp [List.getElem?_eq_getElem h]

theorem State.accld_of_mode {s : State} {c : Nat} {w : IFields}
    (h : (s.core c).anyMode (opnd w.dest).accBase (opnd w.dest).entries true = false) :
    s.accld c w = .ok (s.modCore c fun k => k.setEntries (opnd w.dest).accBase (opnd w.dest).rows (opnd w.dest).cols fun i j _ e =>
      e.combine (let r := (s.rawRow c { opnd w.srcA with cols := (opnd w.dest).cols, fmt := fmtAcc } i).getD j (0, false)
        AccEntry.ofRecord r.1 r.2)) := by
  refine (if_neg (Bool.eq_false_iff.mp h)).trans ?_
  rw [State.flatten_rawRow, zipIdx_flatMap_range]
  simp only [List.foldl_map, Core.setEntries, entryAt, Nat.add_assoc]

theorem State.rawRow_congr {s t : State} (h : t.mem = s.mem) (c : Nat) (o : Opnd) (r : Nat) : t.rawRow c o r = s.rawRow c o r := by
  simp only [State.rawRow, State.spRead, State.spMarked, h]

theorem State.foldl_storeElems (s : State) (c : Nat) (o : Opnd) (f : Nat → List (Nat × Bool)) (n : Nat) :
    (List.range n).foldl (fun s i => s.storeElems c o i (f i)) s = s.storeRowsAt c o ((List.range n).map f) := by
  simp only [State.storeRowsAt, zipIdx_map_range, List.foldl_map]

/-- What storing rows on a core that has issued leaves. -/
theorem State.storeRowsAt_issued (s : State) (c : Nat) (o : Opnd) (rows : List (List (Nat × Bool))) :
    (s.modCore c (·.issued .cube)).storeRowsAt c o rows =
      { s with mem := (s.storeRowsAt c o rows).mem, cores := put s.cores c ((s.core c).issued .cube) } := by
  rw [State.storeRowsAt_eq, State.storeRowsAt_congr (s := s) (State.modCore_mem ..)]
  rfl

/-- Settles O12: ACCST stores rows of records, ACCLD combines a record into each entry of the rectangle. -/
theorem recordsStoreAndLoad : Obligations.RecordsStoreAndLoad := by
  intro c w s hq oa od
  refine ⟨fun hmode => ?_, fun hmode => ?_⟩
  · rw [State.foldl_storeElems]
    refine State.fetch_cube_core (op := 0x23) hq rfl ((State.accst_of_mode (by rw [State.modCore_core]; exact hmode)).trans ?_)
      (Core.issued_of_quiet hq _)
    rw [State.modCore_core, State.storeRowsAt_issued]
    rfl
  · obtain ⟨t, hfetch, hmem, htiles, -, hin, hout⟩ := State.fetch_setEntries (op := 0x24) (base := od.accBase) (r := od.rows) (n := od.cols)
      (g := fun i j _ e => e.combine
        (let r := (s.rawRow c { oa with cols := od.cols, fmt := fmtAcc } i).getD j (0, false); AccEntry.ofRecord r.1 r.2)) hq rfl
      ((State.accld_of_mode (by rw [State.modCore_core]; exact hmode)).trans
        (by simp only [State.rawRow_congr (State.modCore_mem s c (·.issued .cube))]; rfl))
    exact ⟨t, hfetch, hmem, htiles, hin, hout⟩

/-! ### CCVT -/

theorem State.scaleFactors_congr {s t : State} (h : t.mem = s.mem) (c : Nat) (w : IFields) : t.scaleFactors c w = s.scaleFactors c w := by
  simp only [State.scaleFactors, State.rawRow_congr h]

/-- Settles O13: CCVT stores rows of converted entries, then ORs the flags of all of them in. -/
theorem ccvtConvertsEntries : Obligations.CcvtConvertsEntries := by
  intro c w s hq oa od k g mode entry tile conv flags
  rw [State.foldl_storeElems]
  refine State.fetch_cube_core (op := 0x22) (k := { k.issued .cube with cubeFlags := _ }) hq rfl ?_ (Core.issued_of_quiet hq .cube)
  show XRes.ok (State.ccvt _ c w) = _
  unfold State.ccvt
  simp only [zipIdx_map_range, List.foldl_map, State.scaleFactors_congr (State.modCore_mem s c (·.issued .cube)), State.modCore_core,
    State.foldl_storeElems, State.storeRowsAt_issued, ← List.flatMap_def, List.map_flatMap, List.map_map]
  simp only [State.modCore, State.core, lookD_put_self, put_put]
  rfl

/-! ### ACLR -/

/-- A tile zeroed, with a mode and an anchor (R81, R114). -/
def Core.zeroTile (k : Core) (tile : Tile) (t : Nat) : Core :=
  { k with tiles := put k.tiles t tile, accs := k.accs.filter fun p => p.1 / 64 != t }

theorem Core.acc_zeroTile (k : Core) (tile : Tile) (t i : Nat) : (k.zeroTile tile t).acc i = if i / 64 = t then {} else k.acc i := by
  unfold Core.acc Core.zeroTile lookD
  rw [look_filter k.accs fun i => i / 64 != t]
  by_cases h : i / 64 = t <;> simp [h]

theorem Core.tile_zeroTile (k : Core) (tile : Tile) (t n : Nat) : (k.zeroTile tile t).tile n = if n = t then tile else k.tile n := by
  split
  · next h => subst h; exact lookD_put_same ..
  · next h => exact lookD_put_ne _ _ _ h

/-- Zero those tiles of a list that `on` names. -/
def Core.zeroTiles (k : Core) (tile : Tile) (on : Nat → Bool) (l : List Nat) : Core :=
  l.foldl (fun k t => if on t then k.zeroTile tile t else k) k

theorem Core.zeroTiles_eq (k : Core) (tile : Tile) (on : Nat → Bool) (l : List Nat) :
    k.zeroTiles tile on l = { k with tiles := (k.zeroTiles tile on l).tiles, accs := (k.zeroTiles tile on l).accs } := by
  unfold Core.zeroTiles
  refine List.foldlRecOn (motive := fun (x : Core) => x = { k with tiles := x.tiles, accs := x.accs }) l _ rfl fun x hx t _ => ?_
  split
  · rw [hx]; rfl
  · exact hx

theorem Core.tile_zeroTiles (k : Core) (tile : Tile) (on : Nat → Bool) (l : List Nat) (n : Nat) :
    (k.zeroTiles tile on l).tile n = if on n ∧ n ∈ l then tile else k.tile n := by
  induction l generalizing k with
  | nil => simp [Core.zeroTiles]
  | cons t l ih =>
    refine (ih _).trans ?_
    by_cases ht : n = t
    · subst ht
      cases hon : on n <;> simp [Core.tile_zeroTile, hon]
    · cases hon : on t <;> simp [Core.tile_zeroTile, ht, hon]

theorem Core.acc_zeroTiles (k : Core) (tile : Tile) (on : Nat → Bool) (l : List Nat) (i : Nat) :
    (k.zeroTiles tile on l).acc i = if on (i / 64) ∧ i / 64 ∈ l then {} else k.acc i := by
  induction l generalizing k with
  | nil => simp [Core.zeroTiles]
  | cons t l ih =>
    refine (ih _).trans ?_
    by_cases ht : i / 64 = t
    · subst ht
      cases hon : on (i / 64) <;> simp [Core.acc_zeroTile, hon]
    · cases hon : on t <;> simp [Core.acc_zeroTile, ht, hon]

/-- Settles O9: ACLR zeroes the tiles of Modifiers [3:0], one after the other. -/
theorem aclrSetsTiles : Obligations.AclrSetsTiles := by
  intro c w s hq
  let tile : Tile := { f32Mode := w.mods.getLsbD 4, anchor := if w.mods.getLsbD 4 then 0 else asInt 8 (bits w.aux.toNat 7 0) }
  obtain ⟨k, hk⟩ : ∃ k, k = ((s.core c).issued .cube).zeroTiles tile w.mods.getLsbD (List.range 4) := ⟨_, rfl⟩
  have hcore : ({ s with mem := s.mem, cores := put s.cores c k } : State).core c = k := lookD_put_self ..
  refine ⟨_, State.fetch_cube_core (op := 0x20) (k := k) (m := s.mem) hq rfl ?_ ?_, rfl, ?_, fun d hd => ?_, fun n hn => ?_⟩
  · show XRes.ok (State.aclr _ c w) = _
    simp only [State.aclr, State.modCore_modCore, hk]
    rfl
  · rw [hk, Core.zeroTiles_eq]
    exact Core.issued_of_quiet hq .cube
  · rw [hcore, hk, Core.zeroTiles_eq]
    rfl
  · exact lookD_put_ne _ _ _ hd
  · rw [hcore, hk]
    refine ⟨fun hon => ⟨?_, fun i hi => ?_⟩, fun hoff => ⟨?_, fun i hi => ?_⟩⟩
    · rw [Core.tile_zeroTiles, if_pos ⟨hon, List.mem_range.mpr hn⟩]
    · rw [Core.acc_zeroTiles, hi, if_pos ⟨hon, List.mem_range.mpr hn⟩]
    · rw [Core.tile_zeroTiles, if_neg (by simp [hoff])]; rfl
    · rw [Core.acc_zeroTiles, hi, if_neg (by simp [hoff])]; rfl

/-! ### A mode mismatch -/

/-- Core `c` has ended as `k`, and memory is `m`: what the stop of a task's other cores keeps. -/
structure EndedAs (c : Nat) (k : Core) (m : Mem) (s : State) : Prop where
  core : s.core c = k
  mem : s.mem = m

section
variable {c : Nat} {k : Core} {m : Mem} {s : State}

theorem EndedAs.modTask (h : EndedAs c k m s) (id : Nat) (f : Task → Task) : EndedAs c k m (s.modTask id f) := by
  unfold State.modTask
  split
  · exact h
  · exact ⟨h.core, h.mem⟩

theorem EndedAs.emit (h : EndedAs c k m s) (x : Sent) : EndedAs c k m (s.emit x) := ⟨h.core, h.mem⟩

theorem EndedAs.foldl {α : Type} {f : State → α → State} (h : EndedAs c k m s) (l : List α)
    (hf : ∀ t a, EndedAs c k m t → EndedAs c k m (f t a)) : EndedAs c k m (l.foldl f s) :=
  List.foldlRecOn l f h fun t ht a _ => hf t a ht

theorem EndedAs.clusterDone (h : EndedAs c k m s) (cd : Nat) : EndedAs c k m (s.clusterDone cd) := by
  unfold State.clusterDone
  split
  · exact h
  · split
    · exact h
    · dsimp only
      split
      · exact (EndedAs.modTask (s := s.modCluster _ _) ⟨h.core, h.mem⟩ _ _).emit _
      · exact h

/-- Stopping the cores of a wave passes over a core that has ended. -/
theorem EndedAs.stopCluster (h : EndedAs c k m s) (hk : k.ended = true) (cd st : Nat) : EndedAs c k m (s.stopCluster cd st) := by
  unfold State.stopCluster
  split
  · exact h
  · split
    · exact h
    · refine EndedAs.clusterDone (EndedAs.foldl h _ fun t a ht => ?_) cd
      split
      · exact ht
      · next hne =>
        have hc : c ≠ a.1 := fun he => hne (he ▸ ht.core ▸ hk)
        exact ⟨(State.modCore_core_ne _ _ hc).trans ht.core, ht.mem⟩

theorem EndedAs.failShares (h : EndedAs c k m s) (id st : Nat) : EndedAs c k m (s.failShares id st) := by
  unfold State.failShares
  split
  · exact h
  · exact h.foldl _ fun t w ht => ht.foldl _ fun t cd ht => (ht.modTask _ _).emit _

theorem EndedAs.doom (h : EndedAs c k m s) (hk : k.ended = true) (e : Nat) : EndedAs c k m (s.doom e) := by
  unfold State.doom
  split
  · exact h
  · exact EndedAs.foldl (s := s.onWork _) ⟨h.core, h.mem⟩ _ fun t a ht =>
      ((ht.modTask _ _).foldl _ fun t cd ht => ht.stopCluster hk cd _).failShares _ _

end

/-- What an error leaves of the core that it ends (R546, R558). -/
def Core.failedAt (k : Core) (status off : Nat) : Core := { k.halt.boundary with failed := some status, failOff := off }

theorem Core.failedAt_eq (k : Core) (status off : Nat) : (k.failedAt status off).ended = true ∧ (k.failedAt status off).fetching = false ∧
    (k.failedAt status off).failed = some status ∧ (k.failedAt status off).failOff = off ∧ (k.failedAt status off).stream = [] ∧
      (k.failedAt status off).baraWait = [] := by
  unfold Core.failedAt Core.boundary Core.halt
  split <;> exact ⟨rfl, rfl, rfl, rfl, rfl, rfl⟩

/-- An error of a core's task ends the core and leaves memory alone. -/
theorem State.taskError_endedAs (s : State) (c : Nat) (ev : Ev) (status off address partner : Nat) :
    EndedAs c ((s.core c).failedAt status off) s.mem (s.taskError c ev status off address partner) := by
  have hended : ((s.core c).failedAt status off).ended = true := (Core.failedAt_eq _ _ _).1
  have hcore : ∀ i, (s.logEvent ev i).core c = s.core c := fun i => by rw [State.core, State.logEvent_cores]; rfl
  unfold State.taskError
  extract_lets k idx s1 s2 s3 s4
  have h2 : EndedAs c ((s.core c).failedAt status off) s.mem s2 :=
    ⟨by rw [State.modCore_core, hcore]; rfl, by rw [State.modCore_mem, State.logEvent_mem]⟩
  have h4 : EndedAs c ((s.core c).failedAt status off) s.mem s4 := (h2.modTask _ _).clusterDone _
  split
  · split
    · exact h4
    · exact h4.doom hended _
  · exact h4

/-- A cube instruction on a quiet core that meets a tile of the wrong mode. -/
theorem State.fetch_mismatch {s : State} {c op : Nat} {w : IFields} (hq : (s.core c).quiet = true) (he : engineOf op = some .cube)
    (hop : (s.modCore c (·.issued .cube)).cubeOp c op w = .err (s.modCore c (·.issued .cube)) .accMode stBadArg 0) :
    ∃ t, s.fetch c op w = .next t ∧ t.mem = s.mem ∧ (t.core c).ended = true ∧ (t.core c).fetching = false ∧
      (t.core c).failed = some stBadArg ∧ (t.core c).failOff = (s.core c).nextOff := by
  have hrun : (s.modCore c (·.issued .cube)).runXV c op w (s.core c).nextOff (s.core c).seqNo =
      (s.modCore c (·.issued .cube)).taskError c .accMode stBadArg (s.core c).nextOff 0 := by
    simp only [State.runXV, he, hop]
  obtain ⟨hcore, hmem⟩ := (s.modCore c (·.issued .cube)).taskError_endedAs c .accMode stBadArg (s.core c).nextOff 0 0
  obtain ⟨hended, hfetching, hfailed, hoff, hstream, hbara⟩ :=
    Core.failedAt_eq ((s.modCore c (·.issued .cube)).core c) stBadArg (s.core c).nextOff
  rw [← hcore] at hended hfetching hfailed hoff hstream hbara
  refine ⟨_, State.fetch_run hq he (.inl rfl) (hrun ▸ hstream), ?_⟩
  rw [hrun, State.modCore_mem, State.modCore_core, Core.arrive_nil hbara]
  exact ⟨hmem, hended, hfetching, hfailed, hoff⟩

/-- Settles O11: the three instructions that check the modes of tiles. -/
theorem accModeMismatchEndsTask : Obligations.AccModeMismatchEndsTask := by
  intro c w s hq
  refine ⟨fun h => ?_, fun h => ?_, fun h => ?_⟩
  · exact State.fetch_mismatch (op := 0x21) hq rfl (State.cmma_mismatch (by rw [State.modCore_core]; exact h))
  · exact State.fetch_mismatch (op := 0x23) hq rfl (State.accst_mismatch (by rw [State.modCore_core]; exact h))
  · exact State.fetch_mismatch (op := 0x24) hq rfl (State.accld_mismatch (by rw [State.modCore_core]; exact h))

end Sys2Proof.Machine
end

