-- ==== Sys2Proof/Proofs/Sequencer.lean ====
section
/-!
The sequencer (R106 to R112, R126, R127). A quiet core dispatches what it fetches at once; LOOP and CHAIN wait at the head of the stream
for the instructions they cover; a long-running instruction starts as its engine takes it.
-/

namespace Sys2Proof.Machine

/-! ### Fetch and dispatch on a quiet core -/

/-- A core with a fetched instruction alone in its stream. -/
def Core.push (k : Core) (op : Nat) (w : IFields) : Core :=
  { k with stream := [{ op := op, w := w, off := k.nextOff }], nextOff := k.nextOff + 1 }

/-- An instruction at the head of the stream of a core that had none. -/
def State.pushed (s : State) (c op : Nat) (w : IFields) : State := s.modCore c (·.push op w)

/-- One dispatch of the pump. -/
theorem State.pumpN_succ {s : State} {c n : Nat} {it : SItem} {rest : List SItem} (hf : (s.core c).fetching = true)
    (he : (s.core c).ended = false) (hh : (s.core c).hold = .none) (hst : (s.core c).stream = it :: rest) :
    State.pumpN (n + 1) s c =
      if (s.dispatchHead c it rest).2 then State.pumpN n (s.dispatchHead c it rest).1 c else (s.dispatchHead c it rest).1 := by
  rw [State.pumpN]
  simp only [hf, he, hh, hst, Bool.not_true, Bool.or_self, Bool.false_eq_true, if_false]
  rcases s.dispatchHead c it rest with ⟨t, b⟩
  cases b <;> rfl

theorem State.fetch_pushed {s : State} {c op : Nat} {w : IFields} (hq : (s.core c).quiet = true) :
    s.fetch c op w = .next (((s.pushed c op w).pump c).completed c) := by
  obtain ⟨hf, hend, hst, -⟩ := (Core.quiet_iff _).1 hq
  unfold State.fetch State.pushed
  simp only [hend, hf, Bool.not_true, Bool.or_self, Bool.false_eq_true, if_false]
  rw [State.modCore_congr (g := (·.push op w)) (by rw [hst, List.nil_append]; rfl)]

/-- What the sequencer makes of the instruction that a quiet core fetches, where it leaves nothing more to dispatch. -/
theorem State.fetch_dispatch {s t : State} {c op : Nat} {w : IFields} {b : Bool} (hq : (s.core c).quiet = true)
    (hd : (s.pushed c op w).dispatchHead c { op := op, w := w, off := (s.core c).nextOff } [] = (t, b))
    (ht : (t.core c).stream = []) : s.fetch c op w = .next (t.modCore c Core.arrive) := by
  obtain ⟨hf, hend, -, hh, -⟩ := (Core.quiet_iff _).1 hq
  have hpump : (s.pushed c op w).pump c = t := by
    unfold State.pump
    rw [State.pumpN_succ (by simp [State.pushed, Core.push, hf]) (by simp [State.pushed, Core.push, hend]) (by simp [State.pushed, Core.push, hh])
      (it := { op := op, w := w, off := (s.core c).nextOff }) (rest := []) (by simp [State.pushed, Core.push]), hd]
    cases b
    · rfl
    · exact State.pumpN_nil ht
  rw [State.fetch_pushed hq, hpump, State.completed, State.pump_nil (by simp [Core.arrive, ht])]

/-- The core with the offset of its next instruction taken. -/
def Core.took (k : Core) : Core := { k with nextOff := k.nextOff + 1 }

theorem State.pushed_pop {s : State} {c op : Nat} {w : IFields} (hq : (s.core c).quiet = true) (f : Core → Core) :
    (s.pushed c op w).modCore c (fun k => f { k with stream := [], hold := .none }) = s.modCore c fun k => f k.took := by
  obtain ⟨-, -, hst, hh, -⟩ := (Core.quiet_iff _).1 hq
  rw [State.pushed, State.modCore_modCore]
  refine State.modCore_congr (congrArg f ?_)
  cases hk : s.core c
  simp_all [Core.took, Core.push]

/-- An instruction that a quiet core has fetched leaves its stream again. -/
theorem State.pushed_popped {s : State} {c op : Nat} {w : IFields} (hq : (s.core c).quiet = true) :
    (s.pushed c op w).modCore c (fun k => { k with stream := [], hold := .none }) = s.modCore c Core.took := State.pushed_pop hq id

theorem Core.took_of_quiet {k : Core} (hq : k.quiet = true) : k.took.stream = [] ∧ k.took.baraWait = [] := by
  obtain ⟨-, -, hst, -, -, -, -, hb⟩ := (Core.quiet_iff _).1 hq
  exact ⟨hst, hb⟩

theorem State.modCore_arrive {s : State} {c : Nat} (f : Core → Core) (h : (f (s.core c)).baraWait = []) :
    (s.modCore c f).modCore c Core.arrive = s.modCore c f := by
  rw [State.modCore_modCore]
  exact State.modCore_congr (Core.arrive_nil h)

/-- An instruction that the sequencer completes at once, with an effect on its core alone. -/
theorem State.fetch_took {s : State} {c op : Nat} {w : IFields} {b : Bool} (f : Core → Core) (hq : (s.core c).quiet = true)
    (hd : (s.pushed c op w).dispatchHead c { op := op, w := w, off := (s.core c).nextOff } [] =
      ((s.pushed c op w).modCore c fun k => f { k with stream := [], hold := .none }, b))
    (hf : (f (s.core c).took).stream = [] ∧ (f (s.core c).took).baraWait = []) :
    s.fetch c op w = .next (s.modCore c fun k => f k.took) := by
  rw [State.pushed_pop hq] at hd
  rw [State.fetch_dispatch hq hd (by rw [State.modCore_core]; exact hf.1), State.modCore_arrive _ hf.2]

/-- An instruction that waits at the head of the stream. -/
theorem State.fetch_waits {s : State} {c op : Nat} {w : IFields} (hq : (s.core c).quiet = true)
    (hd : ∀ t : State, t.dispatchHead c { op := op, w := w, off := (s.core c).nextOff } [] = (t, false)) :
    s.fetch c op w = .next (s.pushed c op w) := by
  obtain ⟨hf, hend, -, hh, -, -, -, hb⟩ := (Core.quiet_iff _).1 hq
  have hpump : (s.pushed c op w).pump c = s.pushed c op w := by
    unfold State.pump
    rw [State.pumpN_succ (by simp [State.pushed, Core.push, hf]) (by simp [State.pushed, Core.push, hend]) (by simp [State.pushed, Core.push, hh])
      (it := { op := op, w := w, off := (s.core c).nextOff }) (rest := []) (by simp [State.pushed, Core.push]), hd]
    rfl
  have harrive : (s.pushed c op w).modCore c Core.arrive = s.pushed c op w := State.modCore_arrive _ hb
  rw [State.fetch_pushed hq, hpump, State.completed, harrive, hpump]

/-! ### What the sequencer does with each instruction, nothing else queued -/

section
variable {s : State} {c : Nat}

theorem State.pushed_queues (hq : (s.core c).quiet = true) (op : Nat) (w : IFields) : let k := (s.pushed c op w).core c
    k.qCube = [] ∧ k.qVec = [] ∧ k.qMove = [] ∧ k.qGather = [] ∧ k.watch = [] ∧ k.ended = false ∧ k.baraWait = [] := by
  obtain ⟨-, hend, -, -, ⟨q1, q2, q3, q4⟩, -, hw, hb⟩ := (Core.quiet_iff _).1 hq
  simp [State.pushed, Core.push, q1, q2, q3, q4, hw, hb, hend]

theorem State.pushed_queue (hq : (s.core c).quiet = true) (op : Nat) (w : IFields) (e : Engine) :
    ((s.pushed c op w).core c).queue e = [] := by
  obtain ⟨q1, q2, q3, q4, -⟩ := State.pushed_queues hq op w
  cases e with
  | cube => exact q1
  | vec => exact q2
  | move => exact q3
  | gather => exact q4

theorem State.pushed_items (hq : (s.core c).quiet = true) (op : Nat) (w : IFields) : ((s.pushed c op w).core c).items = [] := by
  obtain ⟨q1, q2, q3, q4, -⟩ := State.pushed_queues hq op w
  simp only [Core.items, q1, q2, q3, q4, List.append_nil]

end

theorem Core.arrive_idle {k : Core} (b : Nat × Bool × Nat) (hi : k.items = []) (hb : k.baraWait = []) :
    ({ k with baraWait := k.baraWait ++ [b] } : Core).arrive = { k with arrived := k.arrived ++ [(b.1, b.2.1)] } := by
  have hitems : ∀ l, ({ k with baraWait := l } : Core).items = [] := fun _ => hi
  simp [Core.arrive, hitems, hb]

theorem Core.overwrite_nil {k : Core} (h : k.watch = []) (n : Nat) (l : List Nat) : k.overwrite n l = k := by
  cases k
  simp only at h
  subst h
  rfl

/-! ### RDREG -/

theorem State.coreReg_pushed (s : State) (c op : Nat) (w : IFields) (off : Nat) : (s.pushed c op w).coreReg c off = s.coreReg c off := by
  simp only [State.coreReg, State.pushed, State.modCore_core]
  rfl

theorem State.pushed_tickCore (s : State) (c op : Nat) (w : IFields) : (s.pushed c op w).tickCore c = (s.tickCore c).pushed c op w := by
  have h : (s.pushed c op w).modCore c (fun k => { k with cycles := (k.cycles + (Config.freeCycles s.free).toNat) % 2 ^ 64 }) =
      (s.modCore c fun k => { k with cycles := (k.cycles + (Config.freeCycles s.free).toNat) % 2 ^ 64 }).pushed c op w := by
    simp only [State.pushed, State.modCore_modCore]
    rfl
  exact congrArg State.draw h

/-- RDREG reads the registers of a core as they stand, or of CYCLE_CNT after some cycles. -/
theorem State.fetch_rdreg {s s1 : State} {c : Nat} {w : IFields} (hq : (s.core c).quiet = true)
    (h1 : s1 = if bits w.aux.toNat 11 0 = 0x020 then s.tickCore c else s) :
    s.fetch c 0x07 w = .next { s1.modCore c Core.took with
      mem := (s.storeElems c (opnd w.dest) 0 [(s1.coreReg c (bits w.aux.toNat 11 0) % 2 ^ 32, false),
        (s1.coreReg c (bits w.aux.toNat 11 0) / 2 ^ 32, false)]).mem } := by
  have hmem : s1.mem = s.mem := by rw [h1]; split <;> rfl
  have hq1 : (s1.core c).quiet = true := by
    rw [h1]
    split
    · rw [State.tickCore, State.draw, State.core, State.modCore_cores, lookD_put_self]; exact hq
    · exact hq
  obtain ⟨-, -, -, -, -, -, hw, hb⟩ := (Core.quiet_iff _).1 hq1
  have htook := Core.took_of_quiet hq1
  generalize hx : s1.coreReg c (bits w.aux.toNat 11 0) = x
  have hpushed : (if bits w.aux.toNat 11 0 = 0x020 then (s.pushed c 0x07 w).tickCore c else s.pushed c 0x07 w) = s1.pushed c 0x07 w := by
    rw [h1]
    split
    · exact State.pushed_tickCore ..
    · rfl
  obtain ⟨t, ht⟩ : ∃ t, t = (s1.modCore c Core.took).storeElems c (opnd w.dest) 0 [(x % 2 ^ 32, false), (x / 2 ^ 32, false)] := ⟨_, rfl⟩
  have hcore : t.core c = (s1.core c).took := by rw [ht]; exact State.modCore_core ..
  have hself : ∀ f : Core → Core, f (t.core c) = t.core c → t.modCore c f = t := by
    intro f hf
    have hput : put t.cores c (t.core c) = t.cores := by rw [hcore, ht]; exact put_put ..
    simp only [State.modCore, hf, hput]
  have hd : (s.pushed c 0x07 w).dispatchHead c { op := 0x07, w := w, off := (s.core c).nextOff } [] = (t, true) := by
    have hnone : ((s.pushed c 0x07 w).core c).items.any (fun q => conflicts (unitsRW q.op q.w) ([], (opnd w.dest).granules)) = false := by
      rw [State.pushed_items hq]; rfl
    unfold State.dispatchHead
    simp only [addTerms_nil, hpushed]
    rw [if_neg (Bool.eq_false_iff.mp hnone)]
    simp only [State.coreReg_pushed, hx]
    rw [State.pushed_popped hq1, ← ht]
    exact congrArg (·, true) (hself _ (Core.overwrite_nil (by rw [hcore]; exact hw) _ _))
  rw [State.fetch_dispatch hq hd (by rw [hcore]; exact htook.1), hself _ (Core.arrive_nil (by rw [hcore]; exact htook.2)), ht]
  simp only [State.storeElems, State.spStore, State.onMem, State.modCore_mem, hmem]

/-! ### The obligation -/

@[simp] theorem State.modTask_cores (s : State) (id : Nat) (f : Task → Task) : (s.modTask id f).cores = s.cores := by
  unfold State.modTask; split <;> rfl

@[simp] theorem State.clusterDone_cores (s : State) (cd : Nat) : (s.clusterDone cd).cores = s.cores := by
  unfold State.clusterDone
  split
  · rfl
  · split
    · rfl
    · dsimp only
      split
      · rw [State.emit_cores, State.modTask_cores, State.modCluster_cores]
      · rfl

/-- END on a quiet core: a kernel boundary, and the report to the dispatcher (R109, R133). -/
theorem State.fetch_end {s : State} {c : Nat} {w : IFields} (hq : (s.core c).quiet = true) :
    s.fetch c 0x01 w = .next ((s.modCore c fun k => k.took.halt.boundary).clusterDone (cdOf c)) := by
  generalize ht : (s.modCore c fun k => k.took.halt.boundary).clusterDone (cdOf c) = t
  have hcores : t.cores = put s.cores c (s.core c).took.halt.boundary := by rw [← ht, State.clusterDone_cores]; rfl
  have hcore : t.core c = (s.core c).took.halt.boundary := by rw [State.core, hcores, lookD_put_self]
  have hcalm := Core.halt_calm (s.core c).took
  have hidle : ((s.pushed c 0x01 w).core c).idle = true := by rw [Core.idle, State.pushed_items hq]; rfl
  have hd : (s.pushed c 0x01 w).dispatchHead c { op := 0x01, w := w, off := (s.core c).nextOff } [] = (t, false) := by
    refine (if_pos hidle).trans ?_
    simp only [State.pushed_popped hq, State.endKernel, State.modCore_modCore, ← ht]
  rw [State.fetch_dispatch hq hd (by rw [hcore]; exact hcalm.1)]
  congr 1
  simp only [State.modCore, hcore, Core.arrive_nil hcalm.2, hcores, put_put]
  rw [← hcores]

/-- Settles O16: the sequencer's own instructions by their arm of the dispatch, the long-running ones by the start of their engine. -/
theorem sequencerInstructionsAct : Obligations.SequencerInstructionsAct := by
  intro c w s hq v taken
  have htook := Core.took_of_quiet hq
  have hqueue : ∀ op e, ((s.pushed c op w).core c).queue e = [] := fun op e => State.pushed_queue hq op w e
  have hitems : ∀ op, ((s.pushed c op w).core c).items = [] := fun op => State.pushed_items hq op w
  refine ⟨State.fetch_took (op := 0x00) id hq rfl htook, State.fetch_end hq, ?_, ?_, ?_, ?_, State.fetch_rdreg hq rfl, ?_, fun hbody => ?_,
    ?_, ?_⟩
  · refine State.fetch_took (op := 0x03) id hq (if_pos ?_) htook
    rw [hqueue]; exact Nat.zero_le _
  · refine State.fetch_took (op := 0x04) id hq (if_pos ?_) htook
    simp [hqueue]
  · refine State.fetch_took (op := 0x05) (fun k => { k with arrived := k.arrived ++ [(bits v 3 0, bits v 4 4 == 1)] }) hq (b := true) ?_ htook
    refine congrArg (·, true) ?_
    simp only [State.modCore_modCore]
    exact State.modCore_congr (Core.arrive_idle (k := { (s.pushed c 0x05 w).core c with stream := [], hold := .none })
      (bits v 3 0, bits v 4 4 == 1, _) (hitems _) (State.pushed_queues hq 0x05 w).2.2.2.2.2.2)
  · refine State.fetch_took (op := 0x06) (b := (s.core c).released.contains (bits v 3 0, bits v 4 4 == 1)) (fun k =>
      if k.released.contains (bits v 3 0, bits v 4 4 == 1) then { k with released := k.released.erase (bits v 3 0, bits v 4 4 == 1) }
      else { k with hold := .barw (bits v 3 0) (bits v 4 4 == 1) }) hq ?_ ?_
    · have hrel : ((s.pushed c 0x06 w).core c).released = (s.core c).released := by rw [State.pushed, State.modCore_core]; rfl
      cases hpassed : (s.core c).released.contains (bits v 3 0, bits v 4 4 == 1) with
      | true =>
        refine (if_pos (by rw [hrel]; exact hpassed)).trans (congrArg (·, true) ?_)
        rw [State.modCore_modCore]
        exact State.modCore_congr (by simp only [hrel, hpassed, if_true]; rfl)
      | false =>
        refine (if_neg (by rw [hrel]; exact Bool.eq_false_iff.mp hpassed)).trans (congrArg (·, false) ?_)
        rw [State.modCore_modCore]
        exact State.modCore_congr (by simp only [hrel, hpassed, Bool.false_eq_true, if_false]; rfl)
    · split <;> exact htook
  · refine State.fetch_took (op := 0x08) (fun k => { k with mark := some (BitVec.ofNat 32 (bits v 31 0)) }) hq (b := true)
      ((if_pos ?_).trans (congrArg (·, true) (State.modCore_modCore ..))) htook
    obtain ⟨-, -, q3, q4, -⟩ := State.pushed_queues hq 0x08 w
    simp [q3, q4]
  · exact State.fetch_waits (op := 0x02) hq fun t => if_pos (by exact hbody)
  · refine State.fetch_waits (op := 0x09) hq fun t => ?_
    unfold State.dispatchHead
    exact if_pos (Nat.succ_pos (bits v 12 8))
  · exact ⟨State.fetch_long hq rfl (.inl rfl), State.fetch_long hq rfl (.inl rfl), State.fetch_long hq rfl (.inr rfl),
      State.fetch_long hq rfl (.inr rfl), State.fetch_long hq rfl (.inr rfl)⟩

/-! ### Releases -/

theorem State.participants_isEmpty {s : State} {task cd : Nat} {scope : Bool} (h : s.participants task cd scope ≠ []) :
    (s.participants task cd scope).isEmpty = false := by
  simpa using h

/-- Settles O19: each release tests its condition and lets dispatch go on. -/
theorem heldDispatchResumes : Obligations.HeldDispatchResumes := by
  intro c s
  refine ⟨fun e d hh => ?_, fun m hh => ?_, fun e hh => ?_, fun task cd id scope hp => ?_, fun hst hb => ?_⟩
  · show execWaitqRelease c s = _
    simp only [execWaitqRelease, hh]
    split <;> rfl
  · show execDrainRelease c s = _
    simp only [execDrainRelease, hh]
    have hall : ([Engine.cube, .vec, .move, .gather].all fun e => !m.testBit (Engine.num e) || ((s.core c).queue e).isEmpty) = true ↔
        ∀ e ∈ [Engine.cube, .vec, .move, .gather], m.testBit (Engine.num e) = true → (s.core c).queue e = [] := by
      rw [List.all_eq_true]
      refine forall₂_congr fun e _ => ?_
      cases m.testBit (Engine.num e) <;> simp
    by_cases h : ∀ e ∈ [Engine.cube, .vec, .move, .gather], m.testBit (Engine.num e) = true → (s.core c).queue e = []
    · rw [if_pos (hall.mpr h), if_pos h]
    · rw [if_neg (mt hall.mp h), if_neg h]
  · show execSequencerStallRelease c s = _
    simp only [execSequencerStallRelease, hh]
    split <;> rfl
  · show execBarrierRelease task cd id scope s = _
    unfold execBarrierRelease
    simp only [State.participants_isEmpty hp, Bool.false_or]
    have hall : ((s.participants task cd scope).all fun c => (s.core c).arrived.contains (id, scope)) = true ↔
        ∀ p ∈ s.participants task cd scope, (id, scope) ∈ (s.core p).arrived := by
      simp [List.all_eq_true]
    by_cases h : ∀ p ∈ s.participants task cd scope, (id, scope) ∈ (s.core p).arrived
    · rw [if_neg (by rw [hall.mpr h]; exact Bool.false_ne_true), if_pos h]
    · rw [if_pos (by rw [Bool.eq_false_iff.mpr (mt hall.mp h)]; rfl), if_neg h]
  · have harrive : (s.modCore c fun k => { k with hold := .none }).modCore c Core.arrive = s.modCore c fun k => { k with hold := .none } :=
      State.modCore_arrive _ hb
    rw [State.resume, State.completed, harrive, State.pump_nil (by rw [State.modCore_core]; exact hst)]

end Sys2Proof.Machine
end

