-- ==== Sys2Proof/Proofs/InstructionMemory.lean ====
section
/-!
The scratchpad window (R62, R66) and instruction memory (R132, R133).
-/

namespace Sys2Proof.Machine

/-! ### The scratchpad window -/

theorem State.readRange_scratch {s : State} {a c off : Nat} (h : place a = .scratch c off) (len : Nat) :
    s.readRange a len = (s, s.mem.read a len, (List.range len).map fun i => s.mem.marked (unitBase (a + i))) := by
  simp only [State.readRange, h]

/-- An access through the window by what it is answered. -/
theorem execExternalScratchAccess_refused {a c off : Nat} (h : place a = .scratch c off) (g : Agent) (len : Nat) (acc : Access) (s : State) :
    (∀ st, s.answer g a len (acc != .read) = .status st →
      execExternalScratchAccess g a len acc s = .next ((s.countBusy a (.status st)).reply g st)) ∧
    (s.answer g a len (acc != .read) = .fault →
      execExternalScratchAccess g a len acc s = .next ((s.countBusy a .fault).accessFault g a)) := by
  unfold execExternalScratchAccess
  cases acc with
  | read =>
    refine ⟨fun st hst => ?_, fun hf => ?_⟩
    · have hst : s.answer g a len false = .status st := hst
      simp only [h, hst]
    · have hf : s.answer g a len false = .fault := hf
      simp only [h, hf]
  | write bs p =>
    refine ⟨fun st hst => ?_, fun hf => ?_⟩
    · have hst : s.answer g a len true = .status st := hst
      simp only [h, hst]
    · have hf : s.answer g a len true = .fault := hf
      simp only [h, hf]

theorem execExternalScratchAccess_read {a c off : Nat} (h : place a = .scratch c off) {g : Agent} {len : Nat} {s : State}
    (hgo : s.answer g a len false = .go) : execExternalScratchAccess g a len .read s = .next ((s.emit (.data g (s.mem.read a len)
      ((List.range len).map fun i => s.mem.marked (unitBase (a + i))))).emit (.answer g stOk)) := by
  unfold execExternalScratchAccess
  simp only [h, hgo, State.readRange_scratch h]

theorem execExternalScratchAccess_write {a c off : Nat} (h : place a = .scratch c off) {g : Agent} {len : Nat} {s : State}
    (bs : List Byte) (p : Bool) (hgo : s.answer g a len true = .go) : execExternalScratchAccess g a len (.write bs p) s =
      .next (((s.writeRange a (bs.take len) (List.replicate (bs.take len).length p)).landed a len).emit (.answer g stOk)) := by
  unfold execExternalScratchAccess
  simp only [h, hgo]

theorem execExternalScratchAccess_outside {a : Nat} (h : ∀ c off, place a ≠ .scratch c off) (g : Agent) (len : Nat) (acc : Access)
    (s : State) : execExternalScratchAccess g a len acc s = .next s := by
  unfold execExternalScratchAccess
  split
  · next c off hp => exact absurd hp (h c off)
  · rfl

/-! ### Instruction memory -/

/-- What a finished load leaves of its core: the inactive bank holds the code, and is valid when the digest agrees. -/
def Core.loaded (k : Core) (l : ImemLoad) (ok : Bool) : Core :=
  { k with
    loading := none
    bank0 := if k.activeBank then l.code else k.bank0
    bank1 := if k.activeBank then k.bank1 else l.code
    valid0 := if k.activeBank then ok else k.valid0
    valid1 := if k.activeBank then k.valid1 else ok
    kernInactive := if ok then l.kernel else 0xFFFF }

theorem execImemLoadDone_loading {c : Nat} {s : State} {l : ImemLoad} (h : (s.core c).loading = some l) :
    ∃ t, execImemLoadDone c s = .next t ∧ t.core c = (s.core c).loaded l (shake256 (instrBytes l.code) == l.digest) ∧
      ((shake256 (instrBytes l.code) == l.digest) = false → Sent.loadFailed c l.kernel ∈ t.sent) := by
  have hk : ∀ k : Core, k = s.core c → ({ k with
      loading := none
      bank0 := if !(s.core c).activeBank then k.bank0 else l.code
      bank1 := if !(s.core c).activeBank then l.code else k.bank1
      valid0 := if !(s.core c).activeBank then k.valid0 else shake256 (instrBytes l.code) == l.digest
      valid1 := if !(s.core c).activeBank then shake256 (instrBytes l.code) == l.digest else k.valid1
      kernInactive := if shake256 (instrBytes l.code) == l.digest then l.kernel else 0xFFFF } : Core) =
      k.loaded l (shake256 (instrBytes l.code) == l.digest) := by
    intro k hk
    rw [Core.loaded, hk]
    cases (s.core c).activeBank <;> rfl
  unfold execImemLoadDone
  simp only [h]
  by_cases hok : (shake256 (instrBytes l.code) == l.digest) = true
  · exact ⟨_, if_pos hok, (State.modCore_core ..).trans (hk _ rfl), fun hbad => absurd hok (Bool.eq_false_iff.mp hbad)⟩
  · refine ⟨_, if_neg hok, ?_, fun _ => ?_⟩
    · rw [State.draw, State.core, State.logRec_cores]
      refine (lookD_put_self ..).trans ?_
      exact hk _ rfl
    · rw [State.draw, State.logRec_sent]
      exact List.mem_append_right _ (List.mem_singleton_self _)

theorem execImemLoad_begins {c bank : Nat} {s : State} (hb : (bank % 2 == 1) ≠ (s.core c).activeBank) (hl : (s.core c).loading = none)
    (ha : (s.core c).armed = false) (kernel : Nat) (code : List (BitVec 256)) (dig : BitVec 512) :
    execImemLoad c bank kernel code dig s = .next (s.modCore c fun k => { k with
      loading := some { kernel := kernel, code := code.take 512, digest := dig }
      valid0 := k.valid0 && k.activeBank = false, valid1 := k.valid1 && k.activeBank = true, kernInactive := 0xFFFF }) := by
  have htarget : (bank % 2 == 1) = !(s.core c).activeBank := by
    cases h1 : (bank % 2 == 1) <;> cases h2 : (s.core c).activeBank <;> simp_all
  refine (if_neg hb).trans ((if_neg (by simp [hl, ha])).trans (congrArg _ (State.modCore_congr ?_)))
  simp only [htarget]
  cases (s.core c).activeBank <;> simp

/-- Settles O22: the window's accesses by their answer, instruction memory by the arms of its four commands. -/
theorem scratchWindowAndInstructionMemory : Obligations.ScratchWindowAndInstructionMemory := by
  refine ⟨?_, fun g a len acc s hp => execExternalScratchAccess_outside hp g len acc s, ?_⟩
  · intro g a len c off bs p s hp
    refine ⟨fun hgo => (execExternalScratchAccess_read hp hgo).trans ?_, execExternalScratchAccess_write hp bs p,
      fun acc => (execExternalScratchAccess_refused hp g len acc s).1, fun acc => (execExternalScratchAccess_refused hp g len acc s).2⟩
    simp only [State.emit, List.append_assoc, List.cons_append, List.nil_append]
  · intro c bank kernel code dig s k inactive
    refine ⟨fun hb => if_pos hb, fun hb hbusy => (if_neg hb).trans (if_pos hbusy), fun hb hl ha => execImemLoad_begins hb hl ha kernel code dig,
      fun l hl => ?_, fun hl => ?_, fun hi hl => ?_, fun hi => if_pos ?_, rfl⟩
    · obtain ⟨t, ht, hcore, hsent⟩ := execImemLoadDone_loading hl
      refine ⟨t, ht, ?_⟩
      rw [hcore]
      have hdig : (shake256 (instrBytes l.code) == l.digest) = true ↔ shake256 (instrBytes l.code) = l.digest := beq_iff_eq
      have hfailed : shake256 (instrBytes l.code) ≠ l.digest → Sent.loadFailed c l.kernel ∈ t.sent :=
        fun hne => hsent (beq_eq_false_iff_ne.mpr hne)
      unfold Core.loaded
      cases hact : (s.core c).activeBank <;> simp [k, hdig] <;> exact hfailed
    · show execImemLoadDone c s = _
      unfold execImemLoadDone
      simp only [show (s.core c).loading = none from hl]
    · refine (if_neg ?_).trans (congrArg _ (State.modCore_congr ?_))
      · have hvalid : (if (s.core c).activeBank then (s.core c).valid0 else (s.core c).valid1) = true := hi
        have hload : (s.core c).loading = none := hl
        simp [hvalid, hload]
      · show (if (s.core c).fetching then _ else _) = _
        simp only [Core.boundary, if_true]
    · rcases hi with hi | hi
      · have hvalid : (if (s.core c).activeBank then (s.core c).valid0 else (s.core c).valid1) = false := hi
        rw [hvalid]; rfl
      · have hload : (s.core c).loading.isSome = true := hi
        rw [hload, Bool.or_true]

end Sys2Proof.Machine
end

