-- ==== Sys2Proof/Proofs/Loops.lean ====
section
/-!
A LOOP over one instruction (R107). The sequencer dispatches the body once for each iteration, with the loop terms of that iteration
added, and goes on behind the body when the count is reached.
-/

namespace Sys2Proof.Machine

/-- The head of a stream at a LOOP that has begun `k` iterations of its body `b`. -/
def loopStream (l w : IFields) (o k : Nat) (count : Option Nat) : List SItem :=
  [{ op := 0x02, w := l, off := o, k := k, count := count }, { op := 0x60, w := w, off := o + 1 }]

/-- A core in the middle of a LOOP: nothing queued, held or watched. -/
structure Core.Looping (k : Core) (l w : IFields) (o i : Nat) (count : Option Nat) : Prop where
  fetching : k.fetching = true
  ended : k.ended = false
  hold : k.hold = .none
  stream : k.stream = loopStream l w o i count
  items : k.items = []
  watch : k.watch = []

/-- The iteration count of a LOOP without Dyn, known or not. -/
theorem dispatchHead_loop {s : State} {c o i n : Nat} {l w : IFields} {count : Option Nat} (hbody : bits l.aux.toNat 24 16 = 1)
    (hdyn : bits l.aux.toNat 25 25 = 0) (hn : n = bits l.aux.toNat 15 0) (hcount : count = none ∨ count = some n) :
    s.dispatchHead c { op := 0x02, w := l, off := o, k := i, count := count } [{ op := 0x60, w := w, off := o + 1 }] =
      (s.modCore c fun k => { k with
        stream := if i < n then { op := 0x60, w := w, off := o + 1, iters := [(i, l)] } :: loopStream l w o (i + 1) (some n) else []
        hold := .none }, true) := by
  have hloop : s.loopCount c l = n := by simp [State.loopCount, hdyn, hn]
  unfold State.dispatchHead
  rcases hcount with rfl | rfl <;>
    simp [hbody, hdyn, hloop, loopStream]

/-- The dispatch of the body of one iteration: its effect, and the LOOP at the head again. -/
theorem dispatchHead_body {s : State} {c o i : Nat} {l w : IFields} {rest : List SItem} (hend : (s.core c).ended = false)
    (hi : (s.core c).items = []) (hw : (s.core c).watch = []) :
    s.dispatchHead c { op := 0x60, w := w, off := o + 1, iters := [(i, l)] } rest =
      ({ s with
        mem := (s.vecOp c 0x60 (addTerms 0x60 w [(i, l)])).mem
        cores := put s.cores c { s.core c with
          stream := rest, hold := .none, seqNo := (s.core c).seqNo + 1
          gatesClosed := (s.core c).gatesClosed.filter (· != .vec) } }, true) := by
  have hq : (s.core c).qCube = [] ∧ (s.core c).qVec = [] ∧ (s.core c).qMove = [] ∧ (s.core c).qGather = [] := by
    simpa [Core.items, and_assoc] using hi
  obtain ⟨q1, q2, q3, q4⟩ := hq
  rw [State.dispatchHead_engine (e := .vec) rfl (by rw [Core.queue, q2]; exact Nat.zero_lt_succ _),
    State.enqueue_run (.inr rfl) (by simp [hend]) (by simp [Core.items, q1, q2, q3, q4]) (by simp [hw])]
  simp only [State.modCore_core, State.modCore_modCore]
  unfold State.runXV
  simp only [show engineOf 0x60 = some Engine.vec from rfl]
  rw [State.vecOp_eq, State.vecOp_congr (s := s) (by simp) c _ _ (by simp) (by simp) (by simp)]
  simp only [State.modCore, State.core, lookD_put_self, put_put]
  congr 3
  exact Core.overwrite_nil (by exact hw) _ _

/-- What the iterations `i` to `i + j - 1` leave. -/
structure LoopDone (c : Nat) (l w : IFields) (i j : Nat) (s t : State) : Prop where
  mem : t.mem = ((List.range' i j).foldl (fun x k => x.vecOp c 0x60 (addTerms 0x60 w [(k, l)])) s).mem
  cores : ∃ g, t.cores = put s.cores c { s.core c with
    stream := [], hold := .none, seqNo := (s.core c).seqNo + j, gatesClosed := g }

/-- What vector instructions leave in memory depends on memory and on the core's seed and tile origin only. -/
theorem foldl_vecOp_congr {α : Type} (f : α → IFields) (c op : Nat) (ks : List α) {s t : State} (h : t.mem = s.mem)
    (h1 : (t.core c).seed = (s.core c).seed) (h2 : (t.core c).tileRow = (s.core c).tileRow)
    (h3 : (t.core c).tileCol = (s.core c).tileCol) :
    (ks.foldl (fun x k => x.vecOp c op (f k)) t).mem = (ks.foldl (fun x k => x.vecOp c op (f k)) s).mem := by
  induction ks generalizing s t with
  | nil => exact h
  | cons k ks ih =>
    have hcore : ∀ x : State, (x.vecOp c op (f k)).core c = x.core c := fun x => by rw [State.vecOp_eq]; rfl
    exact ih (State.vecOp_congr h c op _ h1 h2 h3) (by rw [hcore, hcore, h1]) (by rw [hcore, hcore, h2]) (by rw [hcore, hcore, h3])

/-- The pump runs the iterations that are left. -/
theorem pumpN_looping {c o n : Nat} {l w : IFields} (hbody : bits l.aux.toNat 24 16 = 1) (hdyn : bits l.aux.toNat 25 25 = 0)
    (hn : n = bits l.aux.toNat 15 0) (j : Nat) : ∀ {i fuel : Nat} {s : State} {count : Option Nat},
      (s.core c).Looping l w o i count → (count = none ∨ count = some n) → i + j = n → 2 * j + 1 ≤ fuel →
        LoopDone c l w i j s (State.pumpN fuel s c) := by
  induction j with
  | zero =>
    intro i fuel s count hk hcount hij hfuel
    obtain ⟨m, rfl⟩ : ∃ m, fuel = m + 1 := ⟨fuel - 1, by omega⟩
    have hlast : ¬ i < n := by omega
    rw [State.pumpN_succ hk.fetching hk.ended hk.hold hk.stream, dispatchHead_loop hbody hdyn hn hcount, if_pos rfl, if_neg hlast,
      State.pumpN_nil (by rw [State.modCore_core])]
    exact ⟨rfl, (s.core c).gatesClosed, rfl⟩
  | succ j ih =>
    intro i fuel s count hk hcount hij hfuel
    obtain ⟨m, rfl⟩ : ∃ m, fuel = m + 2 := ⟨fuel - 2, by omega⟩
    have hnext : i < n := by omega
    rw [State.pumpN_succ hk.fetching hk.ended hk.hold hk.stream, dispatchHead_loop hbody hdyn hn hcount, if_pos rfl, if_pos hnext]
    generalize hs1 : (s.modCore c fun k => { k with
      stream := { op := 0x60, w := w, off := o + 1, iters := [(i, l)] } :: loopStream l w o (i + 1) (some n), hold := .none }) = s1
    have hc1 : s1.core c = { s.core c with
      stream := { op := 0x60, w := w, off := o + 1, iters := [(i, l)] } :: loopStream l w o (i + 1) (some n), hold := .none } := by
      rw [← hs1]; exact State.modCore_core ..
    have hitems : (s1.core c).items = [] := by rw [hc1]; exact hk.items
    rw [State.pumpN_succ (by rw [hc1]; exact hk.fetching) (by rw [hc1]; exact hk.ended) (by rw [hc1]) (by rw [hc1]),
      dispatchHead_body (by rw [hc1]; exact hk.ended) hitems (by rw [hc1]; exact hk.watch), if_pos rfl]
    generalize hs2 : ({ s1 with
      mem := (s1.vecOp c 0x60 (addTerms 0x60 w [(i, l)])).mem
      cores := put s1.cores c { s1.core c with
        stream := loopStream l w o (i + 1) (some n), hold := .none, seqNo := (s1.core c).seqNo + 1
        gatesClosed := (s1.core c).gatesClosed.filter (· != .vec) } } : State) = s2
    have hc2 : s2.core c = { s.core c with
        stream := loopStream l w o (i + 1) (some n), hold := .none, seqNo := (s.core c).seqNo + 1
        gatesClosed := (s.core c).gatesClosed.filter (· != .vec) } := by
      rw [← hs2]
      refine (lookD_put_self ..).trans ?_
      rw [hc1]
    have hloop : (s2.core c).Looping l w o (i + 1) (some n) := by
      rw [hc2]
      exact ⟨hk.fetching, hk.ended, rfl, rfl, hk.items, hk.watch⟩
    have hm2 : s2.mem = (s1.vecOp c 0x60 (addTerms 0x60 w [(i, l)])).mem := by rw [← hs2]
    have hm1 : s1.mem = s.mem := by rw [← hs1]; exact State.modCore_mem ..
    obtain ⟨hmem, g, hcores⟩ := ih hloop (.inr rfl) (by omega) (show 2 * j + 1 ≤ m by omega)
    have hvec : (s.vecOp c 0x60 (addTerms 0x60 w [(i, l)])).core c = s.core c := by rw [State.vecOp_eq]; rfl
    refine ⟨?_, g, ?_⟩
    · rw [hmem, List.range'_succ, List.foldl_cons]
      refine foldl_vecOp_congr _ c 0x60 _ (hm2.trans (State.vecOp_congr hm1 c _ _ ?_ ?_ ?_)) ?_ ?_ ?_
      all_goals first | rw [hc1] | rw [hc2, hvec]
    · rw [hcores, hc2]
      simp only [← hs2, ← hs1, State.modCore_cores, put_put, Nat.add_assoc, Nat.add_comm 1 j]

theorem streamCost_loop {l w : IFields} {o : Nat} (hbody : bits l.aux.toNat 24 16 = 1) :
    streamCost 2 (loopStream l w o 0 none) = 3 * (bits l.aux.toNat 15 0 + 1) + 1 := by
  simp [streamCost, loopStream, hbody, Nat.mul_comm]

/-- What VIADD does on a core that waits with a LOOP of one instruction at the head of its stream. -/
theorem fetch_body {c : Nat} {l w : IFields} {s : State} (hq : (s.core c).quiet = true) (hbody : bits l.aux.toNat 24 16 = 1)
    (hdyn : bits l.aux.toNat 25 25 = 0) :
    ∃ x t, (s.pushed c 0x02 l).fetch c 0x60 w = .next t ∧ x.mem = s.mem ∧
      x.core c = { (s.core c).took.took with stream := loopStream l w (s.core c).nextOff 0 none } ∧
      x.cores = put s.cores c (x.core c) ∧ LoopDone c l w 0 (bits l.aux.toNat 15 0) x t := by
  obtain ⟨hf, hend, hst, hh, hitems, hch, hw, hb⟩ := (Core.quiet_iff _).1 hq
  generalize hx : (s.modCore c fun k => { k.took.took with stream := loopStream l w (s.core c).nextOff 0 none }) = x
  have hxc : x.core c = { (s.core c).took.took with stream := loopStream l w (s.core c).nextOff 0 none } := by
    rw [← hx]; exact State.modCore_core ..
  have hpush : ((s.pushed c 0x02 l).modCore c fun k =>
      { k with stream := k.stream ++ [{ op := 0x60, w := w, off := k.nextOff }], nextOff := k.nextOff + 1 }) = x := by
    rw [State.pushed, State.modCore_modCore, ← hx]
    rfl
  have hloop : (x.core c).Looping l w (s.core c).nextOff 0 none := by
    rw [hxc]
    refine ⟨hf, hend, hh, rfl, ?_, hw⟩
    obtain ⟨q1, q2, q3, q4⟩ := hitems
    simp [Core.items, Core.took, q1, q2, q3, q4]
  have hdone := pumpN_looping hbody hdyn rfl (bits l.aux.toNat 15 0) hloop (.inl rfl) (Nat.zero_add _)
    (show _ ≤ streamCost 2 (loopStream l w (s.core c).nextOff 0 none) + 1 by rw [streamCost_loop hbody]; omega)
  have hpump : x.pump c = State.pumpN (streamCost 2 (loopStream l w (s.core c).nextOff 0 none) + 1) x c := by
    unfold State.pump
    rw [hxc]
    rfl
  rw [← hpump] at hdone
  obtain ⟨hmem, g, hcores⟩ := hdone
  have htc : (x.pump c).core c = { x.core c with
      stream := [], hold := .none, seqNo := (x.core c).seqNo + bits l.aux.toNat 15 0, gatesClosed := g } := by
    rw [State.core, hcores]; exact lookD_put_self ..
  have hcompleted : (x.pump c).completed c = x.pump c := by
    have harrive : ((x.pump c).core c).arrive = (x.pump c).core c := Core.arrive_nil (by rw [htc, hxc]; exact hb)
    have hself : (x.pump c).modCore c Core.arrive = x.pump c := by
      simp only [State.modCore, harrive]
      rw [show put (x.pump c).cores c ((x.pump c).core c) = (x.pump c).cores by rw [htc, hcores, put_put]]
    rw [State.completed, hself, State.pump_nil (by rw [htc])]
  refine ⟨x, x.pump c, ?_, by rw [← hx]; exact State.modCore_mem .., hxc, ?_, hmem, g, hcores⟩
  · have hlive : ((s.pushed c 0x02 l).core c).ended = false ∧ ((s.pushed c 0x02 l).core c).fetching = true := by
      rw [State.pushed, State.modCore_core]; exact ⟨hend, hf⟩
    unfold State.fetch
    simp only [hlive, Bool.not_true, Bool.or_self, Bool.false_eq_true, if_false, hpush, hcompleted]
  · rw [hxc, ← hx]; rfl

/-- Settles O17: the LOOP waits for its body, and the body's fetch runs all iterations. -/
theorem loopRunsBodyCountTimes : Obligations.LoopRunsBodyCountTimes := by
  intro c l w s s1 hq hbody hdyn h1
  obtain ⟨hf, hend, hst, hh, ⟨q1, q2, q3, q4⟩, hch, hw, hb⟩ := (Core.quiet_iff _).1 hq
  have hwaits : exec (.loop c l) s = .next (s.pushed c 0x02 l) :=
    State.fetch_waits (op := 0x02) hq fun t => if_pos (show 0 < bits l.aux.toNat 24 16 by omega)
  obtain rfl : s.pushed c 0x02 l = s1 := Host.Outcome.next.inj (hwaits.symm.trans h1)
  obtain ⟨x, t, hfetch, hxmem, hxc, hxcores, hmem, g, hcores⟩ := fetch_body (w := w) hq hbody hdyn
  have htc : t.core c = { x.core c with
      stream := [], hold := .none, seqNo := (x.core c).seqNo + bits l.aux.toNat 15 0, gatesClosed := g } := by
    rw [State.core, hcores]; exact lookD_put_self ..
  refine ⟨t, hfetch, ?_, ?_, ?_, ?_, fun d hd => ?_⟩
  · rw [hmem, List.range_eq_range']
    exact foldl_vecOp_congr _ c 0x60 _ hxmem (by rw [hxc]; rfl) (by rw [hxc]; rfl) (by rw [hxc]; rfl)
  · rw [htc, hxc]; rfl
  · rw [htc, hxc]; rfl
  · rw [htc, hxc]
    exact (Core.quiet_iff _).2 ⟨hf, hend, rfl, rfl, ⟨q1, q2, q3, q4⟩, hch, hw, hb⟩
  · rw [State.core, hcores, hxcores, put_put]
    exact lookD_put_ne _ _ _ hd

end Sys2Proof.Machine
end

