-- ==== Sys2Proof/Proofs/QueuedInstructions.lean ====
section
/-!
What becomes of a queued instruction (R65, R121, R126, R196, R218, R220). A core with nothing left to dispatch and no waiting arrival
stays so (`Calm`), so after each event only the arrivals are looked at again.
-/

namespace Sys2Proof.Machine

/-! ### Calm cores -/

theorem State.completed_of_calm {s : State} {c : Nat} (h : Calm c s) : s.completed c = s.modCore c Core.arrive := by
  rw [State.completed, State.pump_nil (by rw [State.modCore_core]; exact h.core.1)]

theorem calm_of_nil {s : State} {c : Nat} (hst : (s.core c).stream = []) (hb : (s.core c).baraWait = []) : Calm c s := ⟨hst, hb⟩

theorem Calm.setQueue {s : State} {c : Nat} (h : Calm c s) (e : Engine) (q : List QItem) : Calm c (s.modCore c fun k => k.setQueue e q) :=
  State.modCore_calm h fun _ hk => Core.setQueue_calm e q hk

@[simp] theorem Core.queue_setQueue (k : Core) (e : Engine) (q : List QItem) : (k.setQueue e q).queue e = q := by cases e <;> rfl

/-! ### Engine queues -/

/-- Nothing waits in the engine's queue. -/
theorem State.startQueue_idle {s : State} {c : Nat} {e : Engine} (n : Nat) (h : (s.core c).ended = true ∨ (s.core c).queue e = []) :
    s.startQueue c e n = s := by
  cases n with
  | zero => rfl
  | succ n =>
    unfold State.startQueue
    rcases h with h | h
    · simp only [h, if_true]
    · simp only [h, List.findIdx?_nil, ite_self]

theorem State.judge_unwatched {s : State} {c : Nat} (h : (s.core c).watch = []) (seq : Nat) (reads : List Nat) :
    s.judge c seq reads = (s, true) := by
  simp [State.judge, h]

theorem State.ccvt_core (s : State) (c : Nat) (w : IFields) : ∃ fl, (s.ccvt c w).core c = { s.core c with cubeFlags := fl } := by
  unfold State.ccvt
  apply Exists.intro
  refine (State.modCore_core ..).trans ?_
  simp only [zipIdx_map_range, List.foldl_map, State.foldl_storeElems]
  rw [State.storeRowsAt_eq]
  rfl

/-- What a cube operation that completes leaves of its core: other tiles, entries and flags. -/
theorem State.cubeOp_core {s t : State} {c op : Nat} {w : IFields} (h : s.cubeOp c op w = .ok t) :
    ∃ ts es fl, t.core c = { s.core c with tiles := ts, accs := es, cubeFlags := fl } := by
  have hentries : ∀ {base r n g}, t = s.modCore c (fun k => k.setEntries base r n g) →
      ∃ ts es fl, t.core c = { s.core c with tiles := ts, accs := es, cubeFlags := fl } := by
    rintro base r n g rfl
    obtain ⟨a, ha⟩ := (s.core c).setEntries_withAccs base r n g
    exact ⟨_, a, _, (State.modCore_core ..).trans ha⟩
  have hstored : ∀ {o rows}, t = s.storeRowsAt c o rows → ∃ ts es fl, t.core c = { s.core c with tiles := ts, accs := es, cubeFlags := fl } := by
    rintro o rows rfl
    rw [State.storeRowsAt_eq]
    exact ⟨_, _, _, rfl⟩
  unfold State.cubeOp at h
  split at h
  · obtain rfl := XRes.ok.inj h
    exact ⟨_, _, _, (State.modCore_core ..).trans ((s.core c).zeroTiles_eq _ w.mods.getLsbD (List.range 4))⟩
  · cases hm : (s.core c).anyMode (opnd w.dest).accBase (opnd w.dest).entries (classOfPair (opnd w.srcA).fmt (opnd w.srcB).fmt != .sixteen) with
    | true => rw [State.cmma_mismatch hm] at h; cases h
    | false => rw [State.cmma_of_mode hm] at h; exact hentries (XRes.ok.inj h).symm
  · obtain rfl := XRes.ok.inj h
    obtain ⟨fl, hfl⟩ := s.ccvt_core c w
    exact ⟨_, _, fl, hfl⟩
  · cases hm : (s.core c).anyMode (opnd w.srcA).accBase (opnd w.srcA).entries true with
    | true => rw [State.accst_mismatch hm] at h; cases h
    | false => rw [State.accst_of_mode hm] at h; exact hstored (XRes.ok.inj h).symm
  · cases hm : (s.core c).anyMode (opnd w.dest).accBase (opnd w.dest).entries true with
    | true => rw [State.accld_mismatch hm] at h; cases h
    | false => rw [State.accld_of_mode hm] at h; exact hentries (XRes.ok.inj h).symm
  · obtain rfl := XRes.ok.inj h
    exact ⟨_, _, _, rfl⟩

theorem State.cubeOp_queue {s t : State} {c op : Nat} {w : IFields} (h : s.cubeOp c op w = .ok t) (e : Engine) :
    (t.core c).queue e = (s.core c).queue e := by
  obtain ⟨ts, es, fl, hcore⟩ := State.cubeOp_core h
  rw [hcore]
  cases e <;> rfl

/-- A CUBE or VEC instruction leaves the queues of its core, or ends it. -/
theorem State.runXV_queue (s : State) (c op : Nat) (w : IFields) (off seq : Nat) (e : Engine) :
    ((s.runXV c op w off seq).core c).ended = true ∨ ((s.runXV c op w off seq).core c).queue e = (s.core c).queue e := by
  have hover : ∀ (k : Core) n l, (k.overwrite n l).queue e = k.queue e := by intro k n l; cases e <;> rfl
  unfold State.runXV
  split
  · split
    · next t ht => exact .inr (by rw [State.modCore_core, hover, State.cubeOp_queue ht])
    · next s1 ev st a hx =>
      obtain ⟨hcore, -⟩ := s1.taskError_endedAs c ev st off a 0
      exact .inl (hcore ▸ (Core.failedAt_eq _ _ _).1)
  · refine .inr ?_
    rw [State.modCore_core, hover, State.vecOp_eq]
    rfl

/-- The only instruction of an engine that runs one at a time, with nothing earlier in its way, runs. -/
theorem State.startQueue_run {s : State} {c n : Nat} {e : Engine} {q : QItem} (he : e = .cube ∨ e = .vec) (hend : (s.core c).ended = false)
    (hq : (s.core c).queue e = [q]) (hs : q.status = .scoreboard) (hb : (s.core c).blocked q = false) (hw : (s.core c).watch = []) :
    s.startQueue c e (n + 1) = (s.modCore c fun k => k.setQueue e []).runXV c q.op q.w q.off q.seq := by
  have hstart : s.startQueue c e (n + 1) =
      ((s.modCore c fun k => k.setQueue e []).runXV c q.op q.w q.off q.seq).startQueue c e n := by
    have hset : s.modCore c (fun k => k.setQueue e ((k.queue e).filter (·.seq != q.seq))) = s.modCore c fun k => k.setQueue e [] :=
      State.modCore_congr (by rw [hq]; simp)
    rcases he with rfl | rfl <;>
      simp [State.startQueue, hend, hq, hs, hb, State.judge_unwatched hw, hset]
  rw [hstart]
  refine State.startQueue_idle n ((State.runXV_queue _ c _ _ _ _ e).imp id fun h => h.trans ?_)
  rw [State.modCore_core, Core.queue_setQueue]

/-! ### Reissues -/

theorem State.reissueItem_alone {s : State} (h : ∀ r ∈ s.lys.remotes, r.held = none) (c : Nat) (e : Engine) (q : QItem) :
    s.reissueItem c e q = if q.plan.isEmpty then s.startLong c e q.seq else s.continueItem c e q.seq := by
  have hnone : (s.lys.remotes.any fun r => r.core == c && r.engine == e && r.seq == q.seq && r.held.isSome) = false := by
    rw [List.any_eq_false]
    intro r hr
    rw [h r hr]
    simp
  unfold State.reissueItem
  simp only [hnone, Bool.false_eq_true, if_false]

theorem State.reissueHeld_one {s : State} (h : ∀ r ∈ s.lys.remotes, r.held = none) {c : Nat} {e : Engine} {st : QStatus} {q : QItem}
    (hcalm : Calm c s) (hq : ((s.core c).queue e).filter (·.status == st) = [q]) :
    (s.reissueHeld c e st).completed c =
      (if q.plan.isEmpty then s.startLong c e q.seq else s.continueItem c e q.seq).modCore c Core.arrive := by
  have heq : s.reissueHeld c e st = if q.plan.isEmpty then s.startLong c e q.seq else s.continueItem c e q.seq := by
    rw [State.reissueHeld, hq]
    exact State.reissueItem_alone h c e q
  rw [heq]
  refine State.completed_of_calm (Calm.ite ?_ ?_)
  · exact State.startLong_calm c e _ hcalm
  · exact State.continueItem_calm c e _ hcalm

theorem State.reissueHeld_none {s : State} {c : Nat} {e : Engine} {st : QStatus} (hcalm : Calm c s)
    (h : ∀ x ∈ (s.core c).queue e, x.status = .scoreboard) (hst : st ≠ .scoreboard) :
    (s.reissueHeld c e st).completed c = s.modCore c Core.arrive := by
  have hnil : ((s.core c).queue e).filter (·.status == st) = [] := by
    rw [List.filter_eq_nil_iff]
    intro x hx
    rw [h x hx]
    simpa using hst.symm
  rw [State.reissueHeld, hnil, List.foldl_nil, State.completed_of_calm hcalm]

/-! ### The end of a long-running instruction -/

theorem execEngineInstrComplete_long {s : State} {c : Nat} {e : Engine} {q : QItem} {rest : List QItem} (he : e = .move ∨ e = .gather)
    (hq : (s.core c).queue e = q :: rest) (hs : q.status = .done) :
    execEngineInstrComplete c e s = .next (if s.closingOk q then
      ((if q.pages.isEmpty then s.modCore c fun k => k.setQueue e rest else
        (s.modCore c fun k => k.setQueue e rest).modSlice c fun sl =>
          { sl with closingJudged := satAdd 16 sl.closingJudged 1 }).startQueue c e 1).completed c
      else ((s.reissue c q).startQueue c e 1).completed c) := by
  unfold execEngineInstrComplete
  rcases he with rfl | rfl <;> cases hc : s.closingOk q <;> simp [hq, hs, hc]

/-- Settles O20: each event of a queued instruction, on a core that stays calm. -/
theorem queuedInstructionsGoOn : Obligations.QueuedInstructionsGoOn := by
  intro c e q s hst hb
  have hcalm : Calm c s := calm_of_nil hst hb
  refine ⟨fun he hend hq hs hblk hw => ?_, fun hq => ?_, ?_, fun hall t ht => ?_, fun he hdone => ⟨fun hq hok => ?_, fun hq hok => ?_⟩,
    fun n hn => ?_⟩
  · show Host.Outcome.next _ = _
    rw [State.startQueue_run he hend hq hs hblk hw, State.completed_of_calm (State.runXV_calm c _ _ _ _ (hcalm.setQueue e []))]
  · show execWatchEntryFree c e s = _
    simp only [execWatchEntryFree, hq]
    rw [State.completed_of_calm (State.startLong_calm c e _ hcalm)]
  · intro again only hheld
    exact ⟨fun ho => congrArg _ (State.reissueHeld_one hheld hcalm ho), fun ho => congrArg _ (State.reissueHeld_one hheld hcalm ho),
      fun ho => congrArg _ (State.reissueHeld_one hheld hcalm ho)⟩
  · subst ht
    exact ⟨congrArg _ (State.reissueHeld_none hcalm hall (by decide)), congrArg _ (State.reissueHeld_none hcalm hall (by decide)),
      congrArg _ (State.reissueHeld_none hcalm hall (by decide))⟩
  · refine (execEngineInstrComplete_long he hq hdone).trans ?_
    rw [if_pos hok]
    have hend : ∀ f : Slice → Slice, ((if q.pages.isEmpty then s.modCore c fun k => k.setQueue e [] else
        (s.modCore c fun k => k.setQueue e []).modSlice c f).startQueue c e 1).completed c =
        (if q.pages.isEmpty then s.modCore c fun k => k.setQueue e [] else
          (s.modCore c fun k => k.setQueue e []).modSlice c f).modCore c Core.arrive := by
      intro f
      have hset : ((s.modCore c fun k => k.setQueue e []).core c).queue e = [] := by rw [State.modCore_core, Core.queue_setQueue]
      rw [State.startQueue_idle 1 (.inr (by split <;> exact hset))]
      exact State.completed_of_calm (Calm.ite (hcalm.setQueue e []) ⟨(hcalm.setQueue e []).core⟩)
    exact congrArg _ (hend _)
  · obtain ⟨rest, hrest⟩ : ∃ rest, (s.core c).queue e = q :: rest := List.head?_eq_some_iff.mp hq
    refine (execEngineInstrComplete_long he hrest hdone).trans ?_
    rw [if_neg (Bool.eq_false_iff.mp hok)]
  · show execInstrTimeLimit c { engine := e, nth := n } s = _
    simp only [execInstrTimeLimit, hn]

end Sys2Proof.Machine
end

