-- ==== Sys2Proof/Proofs/Chains.lean ====
section
/-!
Static chains (R127, R128, R131). A chain waits with its members in the engine queues until chain cycle zero; then its members complete
one by one.
-/

namespace Sys2Proof.Machine

/-! ### Chain cycle zero and the completion of a member -/

/-- A chain with its first members run. -/
def State.chainStarted (s : State) (c : Nat) (ch : ChainState) (later : List ChainState) : State :=
  s.modCore c fun k => { k with chains := { ch with started := true } :: later }

theorem execChainCycleZero_starts {c : Nat} {ch : ChainState} {later : List ChainState} {s : State} (hch : (s.core c).chains = ch :: later)
    (hns : ch.started = false) (hw : (s.core c).watch = []) (hq : ∀ q ∈ (s.core c).qCube ++ (s.core c).qVec, q.status = .chain)
    (off : Option Nat) : execChainCycleZero c off s =
      match off.bind fun m => ch.members[m]?.map fun x => (m, x) with
      | none => .next (s.chainStarted c ch later)
      | some (m, x) =>
        if (((s.chainStarted c ch later).runMembers c (ch.members.take m)).core c).ended then
          .next ((s.chainStarted c ch later).runMembers c (ch.members.take m))
        else .next (((s.chainStarted c ch later).runMembers c (ch.members.take m)).taskError c .chainHazard stChainHazard x.1 0) := by
  have holder : (((s.core c).qCube ++ (s.core c).qVec).any fun q => q.status != .chain &&
      ((s.core c).qCube ++ (s.core c).qVec).all fun m => m.status != .chain || decide (q.seq < m.seq)) = false := by
    rw [List.any_eq_false]
    intro q hmem
    rw [hq q hmem]
    simp
  unfold execChainCycleZero
  simp only [hch, hns, holder, Bool.false_eq_true, or_self, if_false, State.judge_unwatched hw, Bool.not_true]
  rfl

theorem execEngineInstrComplete_member {c : Nat} {e : Engine} {ch : ChainState} {m : Nat × Nat × IFields × Nat}
    {rest : List (Nat × Nat × IFields × Nat)} {later : List ChainState} {s : State} (hch : (s.core c).chains = ch :: later)
    (hs : ch.started = true) (hm : ch.members = m :: rest) (he : engineOf m.2.1 = some e) (hx : e = .cube ∨ e = .vec) :
    execEngineInstrComplete c e s = .next (((s.runMembers c [m]).modCore c fun k => if k.ended then k else
      { k with chains := if rest.isEmpty then later else { ch with members := rest } :: later }).completed c) := by
  unfold execEngineInstrComplete
  rcases hx with rfl | rfl <;> simp [hch, hs, hm, he]

/-! ### A chain of one vector instruction -/

/-- The queue entry of the only member of a chain. -/
def Core.member (k : Core) (op : Nat) (w : IFields) : QItem :=
  { op := op, w := w, off := k.nextOff + 1, status := .chain, seq := k.seqNo }

/-- The chain of one instruction that a quiet core has dispatched. -/
def Core.soloChain (k : Core) (l w : IFields) : ChainState :=
  { tag := bits l.aux.toNat 7 0, off := k.nextOff, members := [(k.nextOff + 1, 0x60, w, issueCycle l 0)] }

/-- A quiet core with a chain of one VIADD dispatched. -/
def Core.chained (k : Core) (l w : IFields) : Core :=
  { k with nextOff := k.nextOff + 2, qVec := [k.member 0x60 w], seqNo := k.seqNo + 1, chains := [k.soloChain l w] }

/-- The member's fetch dispatches the chain that waits for it. -/
theorem fetch_member {s : State} {c : Nat} {l w : IFields} (hq : (s.core c).quiet = true) (hn : bits l.aux.toNat 12 8 = 0) :
    (s.pushed c 0x09 l).fetch c 0x60 w = .next (s.modCore c (·.chained l w)) := by
  obtain ⟨hf, hend, hst, hh, ⟨q1, q2, q3, q4⟩, hch, hw, hb⟩ := (Core.quiet_iff _).1 hq
  obtain ⟨x, hx⟩ : ∃ x, x = s.modCore c fun k => { k.took.took with stream :=
    [{ op := 0x09, w := l, off := k.nextOff }, { op := 0x60, w := w, off := k.nextOff + 1 }] } := ⟨_, rfl⟩
  have hxc : x.core c = { (s.core c).took.took with stream :=
    [{ op := 0x09, w := l, off := (s.core c).nextOff }, { op := 0x60, w := w, off := (s.core c).nextOff + 1 }] } := by
    rw [hx]; exact State.modCore_core ..
  have hpush : ((s.pushed c 0x09 l).modCore c fun k =>
      { k with stream := k.stream ++ [{ op := 0x60, w := w, off := k.nextOff }], nextOff := k.nextOff + 1 }) = x := by
    rw [State.pushed, State.modCore_modCore, hx]
    rfl
  have hdispatch : x.dispatchHead c { op := 0x09, w := l, off := (s.core c).nextOff }
      [{ op := 0x60, w := w, off := (s.core c).nextOff + 1 }] = (s.modCore c (·.chained l w), true) := by
    have hvec : engineOf 0x60 = some Engine.vec := rfl
    unfold State.dispatchHead
    simp [hn, hx, hvec, addTerms_nil, State.modCore_modCore, Core.queue, Core.setQueue, Core.took, q1, q2]
    refine State.modCore_congr ?_
    cases hk : s.core c
    simp_all [Core.chained, Core.member, Core.soloChain]
  have hcalm : Calm c (s.modCore c (·.chained l w)) := calm_of_nil (by rw [State.modCore_core]; exact hst) (by rw [State.modCore_core]; exact hb)
  have hpump : x.pump c = s.modCore c (·.chained l w) := by
    unfold State.pump
    rw [State.pumpN_succ (by rw [hxc]; exact hf) (by rw [hxc]; exact hend) (by rw [hxc]; exact hh) (by rw [hxc]), hdispatch, if_pos rfl,
      State.pumpN_nil hcalm.core.1]
  have hlive : ((s.pushed c 0x09 l).core c).ended = false ∧ ((s.pushed c 0x09 l).core c).fetching = true := by
    rw [State.pushed, State.modCore_core]; exact ⟨hend, hf⟩
  unfold State.fetch
  simp only [hlive, Bool.not_true, Bool.or_self, Bool.false_eq_true, if_false, hpush, hpump]
  rw [State.completed_of_calm hcalm, State.modCore_arrive _ hb]

/-- Settles O21: chain cycle zero, the completion of a member, and the life of a chain of one. -/
theorem chainsRunInOrder : Obligations.ChainsRunInOrder := by
  refine ⟨fun c ch later s hch hns hw hq => ?_, fun c e ch m rest later s hch hs hm he hx =>
    execEngineInstrComplete_member hch hs hm he hx, fun c l w s s1 s2 s3 hq hn h1 h2 h3 => ?_⟩
  · refine ⟨execChainCycleZero_starts hch hns hw hq none, fun m x hm hend => ?_⟩
    refine (execChainCycleZero_starts hch hns hw hq (some m)).trans ?_
    simp only [Option.bind_some, hm, Option.map_some]
    exact if_neg (Bool.eq_false_iff.mp hend)
  · obtain ⟨hf, hend, hst, hh, ⟨q1, q2, q3, q4⟩, hch, hw, hb⟩ := (Core.quiet_iff _).1 hq
    have hwaits : exec (.chain c l) s = .next (s.pushed c 0x09 l) := by
      refine State.fetch_waits (op := 0x09) hq fun t => ?_
      unfold State.dispatchHead
      exact if_pos (Nat.succ_pos (bits l.aux.toNat 12 8))
    obtain rfl : s.pushed c 0x09 l = s1 := Host.Outcome.next.inj (hwaits.symm.trans h1)
    obtain rfl : s.modCore c (·.chained l w) = s2 := Host.Outcome.next.inj ((fetch_member hq hn).symm.trans h2)
    have hc2 : (s.modCore c (·.chained l w)).core c = (s.core c).chained l w := State.modCore_core ..
    have hstart := execChainCycleZero_starts (s := s.modCore c (·.chained l w)) (later := []) (by rw [hc2]; rfl) rfl
      (by rw [hc2]; exact hw) (by
        rw [hc2]
        simp [Core.chained, Core.member, q1]) none
    obtain rfl := Host.Outcome.next.inj (hstart.symm.trans h3)
    generalize hg : (s.modCore c (·.chained l w)).chainStarted c ((s.core c).soloChain l w) [] = g
    have hgc : g.core c = { (s.core c).chained l w with chains := [{ (s.core c).soloChain l w with started := true }] } := by
      rw [← hg, State.chainStarted, State.modCore_core, hc2]
    have hrun : g.runMembers c [((s.core c).nextOff + 1, 0x60, w, issueCycle l 0)] = { s with
        mem := (s.vecOp c 0x60 w).mem
        cores := put s.cores c { (s.core c).chained l w with
          qVec := [], chains := [{ (s.core c).soloChain l w with started := true }] } } := by
      have hlive : (g.core c).ended = false := by rw [hgc]; exact hend
      have herase : ((g.core c).queue .vec).eraseP (fun q => q.status == .chain && q.off == (s.core c).nextOff + 1) = [] := by
        rw [hgc]
        simp [Core.chained, Core.member, Core.queue]
      have herased : g.modCore c (fun k => k.setQueue .vec ((k.queue .vec).eraseP fun q => q.status == .chain &&
          q.off == (s.core c).nextOff + 1)) = s.modCore c fun _ => { (s.core c).chained l w with
            qVec := [], chains := [{ (s.core c).soloChain l w with started := true }] } := by
        rw [State.modCore_congr (g := fun k => k.setQueue .vec []) (by rw [herase])]
        simp only [← hg, State.chainStarted, State.modCore_modCore]
        rfl
      unfold State.runMembers State.runMembers
      simp only [hlive, Bool.false_eq_true, if_false, show engineOf 0x60 = some Engine.vec from rfl, herased]
      unfold State.runXV
      simp only [show engineOf 0x60 = some Engine.vec from rfl]
      rw [State.vecOp_eq, State.vecOp_congr (s := s) (by rfl) c _ _ (by rw [State.modCore_core]; rfl)
        (by rw [State.modCore_core]; rfl) (by rw [State.modCore_core]; rfl)]
      simp only [State.modCore, State.core, lookD_put_self, put_put]
      congr 2
      exact Core.overwrite_nil (by exact hw) _ _
    refine ⟨_, execEngineInstrComplete_member (c := c) (e := .vec) (s := g) (later := []) (rest := [])
      (ch := { (s.core c).soloChain l w with started := true }) (by rw [hgc]) rfl rfl rfl (.inr rfl), ?_⟩
    rw [hrun]
    let k : Core := { (s.core c).chained l w with qVec := [], chains := [{ (s.core c).soloChain l w with started := true }] }
    let r : State := { s with mem := (s.vecOp c 0x60 w).mem, cores := put s.cores c k }
    have hend' : r.modCore c (fun k => if k.ended then k else { k with chains := if List.isEmpty ([] : List (Nat × Nat × IFields × Nat)) then []
        else { ({ (s.core c).soloChain l w with started := true } : ChainState) with members := [] } :: [] }) =
        r.modCore c fun _ => { k with chains := [] } := by
      refine State.modCore_congr ?_
      have hkend : k.ended = false := hend
      simp only [show r.core c = k from lookD_put_self .., hkend]
      rfl
    have hcalm : Calm c (r.modCore c fun _ => { k with chains := [] }) :=
      calm_of_nil (by rw [State.modCore_core]; exact hst) (by rw [State.modCore_core]; exact hb)
    rw [hend', State.completed_of_calm hcalm, State.modCore_arrive _ hb]
    refine ⟨rfl, ?_, ?_⟩
    · rw [State.modCore_core]
      exact (Core.quiet_iff _).2 ⟨hf, hend, hst, hh, ⟨q1, rfl, q3, q4⟩, rfl, hw, hb⟩
    · rw [State.modCore_core]; rfl

end Sys2Proof.Machine
end

