-- ==== Sys2Proof/Proofs/MoveCopies.lean ====
section
/-!
MSTORE to a page that no task writes: the store is refused, so the copy of `Obligations.MoveCopiesRow` fails.
-/

namespace Sys2Proof.Machine

/-- Core 0 runs a kernel; its descriptor slot 0 names the first outer package, whose first page is a KV page that two
sequences share. -/
def sharedPageState : State :=
  { State.reset with
    cores := [(0, { fetching := true })]
    mem := ({} : Mem).write 0 (leBytes 8 outerBase)
    work := { State.reset.work with
      kvPages := [(outerBase, { instar := 0, count := 2, log2 := 4, format := 0, scale := 0, bytes := 65536 })] } }

/-- An MSTORE of the 1 × 1 INT32 operand at scratchpad address 65504, by descriptor slot 0. -/
def storeWord : IFields := { srcA := BitVec.ofNat 64 (65504 + 2 ^ 16 + 2 ^ 26 + fmtInt32 * 2 ^ 52) }

set_option maxRecDepth 8192 in
/-- The access itself would go ahead. -/
theorem sharedPageState_answer :
    (sharedPageState.core 0).slotFree outerBase = true ∧
      sharedPageState.answer (.core 0 .move) outerBase (opnd storeWord.srcA).rowLen true = .go := by decide

set_option maxRecDepth 8192 in
/-- The descriptor reads without error or mark. -/
theorem sharedPageState_fetchDesc : sharedPageState.fetchDesc 0 0 = (sharedPageState, ⟨outerBase⟩, false) := by decide

set_option maxRecDepth 8192 in
/-- R290 refuses the store, and the task's end empties the core's queues. -/
theorem sharedPageState_mstore : ∃ t, exec (.mstore 0 storeWord) sharedPageState = .next t ∧ (t.core 0).qMove = [] :=
  ⟨_, rfl, by decide⟩

/-- Refutes O18: nothing in the statement keeps the tensor's row out of a page that two sequences share, and R290 lets no
task write such a page. -/
theorem not_moveCopiesRow : ¬ Obligations.MoveCopiesRow := by
  intro h
  obtain ⟨hslot, hgo⟩ := sharedPageState_answer
  have hfits : (opnd storeWord.srcA).rows = 1 ∧ 0 < (opnd storeWord.srcA).rowLen ∧
      (opnd storeWord.srcA).addr + (opnd storeWord.srcA).rowLen ≤ 65536 := by decide
  obtain ⟨t, ht, hq, -⟩ := (h 0 storeWord sharedPageState (by decide) (Mem.write_wf rfl _ _) ⟨outerBase⟩
    sharedPageState_fetchDesc (by decide) hslot).2
    ⟨hfits.1, hfits.2.1, hfits.2.2, by decide, by decide⟩ hgo
  obtain ⟨t', ht', hq'⟩ := sharedPageState_mstore
  cases ht.symm.trans ht'
  simp [hq'] at hq

end Sys2Proof.Machine
end

