-- ==== Sys2Proof/Proofs/ResetState.lean ====
section
/-!
The state that reset leaves.
-/

namespace Sys2Proof.Machine

theorem State.reset_registers : State.reset.dcsReg 0x0000 = 0x3153434447520001 ∧
    State.reset.dcsReg 0x0110 = 0 ∧ State.reset.dcsReg 0x0118 = 8 ∧ State.reset.dcsReg 0x0120 = 0 ∧
    State.reset.dcsReg 0x0200 = 0x050000010000 ∧ State.reset.dcsReg 0x0208 = 0x050000020000 ∧
    (∀ off ∈ [0x0210, 0x0218, 0x0220, 0x0228, 0x0230, 0x0300, 0x0308], State.reset.dcsReg off = 0) := by
  decide

/-- Every register of the window table reads zero: no window is open. -/
theorem State.reset_windowReg {off : Nat} (h₁ : 0x0800 ≤ off) (h₂ : off < 0x1000) : State.reset.dcsReg off = 0 := by
  have hd : State.reset.dcsReg off = State.reset.dcsLive off := rfl
  have hw : (lookD State.reset.ctl.windows ((off - 0x0800) / 32) ({} : Win)).reg (off % 32) = 0 := rfl
  rw [hd]
  unfold State.dcsLive
  simp only [hw]
  repeat rw [if_neg (by omega)]
  rw [if_pos ⟨h₁, h₂⟩]

/-- Settles O3: the reset state lists nothing, so every lookup gives the value of an unlisted entry. -/
theorem resetLeavesTheseValues : Obligations.ResetLeavesTheseValues := by
  obtain ⟨hid, hap, ham, hel, hcb, hrb, hzero⟩ := State.reset_registers
  refine ⟨rfl, fun _ => ⟨rfl, rfl⟩, rfl, rfl, hid, hap, ham, hel, hcb, hrb, hzero, ?_, ?_, fun _ => rfl,
    fun _ => ⟨rfl, rfl⟩, fun _ => rfl, rfl⟩
  · intro w i hw hi
    exact State.reset_windowReg (by omega) (by omega)
  · intro c
    refine ⟨rfl, fun e => ?_⟩
    cases e <;> rfl

end Sys2Proof.Machine
end

