-- ==== Sys2Proof/Proofs/MemoryAccess.lean ====
section
/-!
What reads and writes of memory leave unchanged: everything but memory, the counters of slices and packages, the error
log with its copy into the service-life journal, and the pending alerts.
-/

namespace Sys2Proof.Machine

/-- State `t` differs from `s` only where an access to memory may change it. -/
structure State.Accessed (s t : State) : Prop where
  eq : t = { s with
    mem := t.mem, slices := t.slices, outers := t.outers, log := t.log
    ctl := { s.ctl with alertPending := t.ctl.alertPending }, life := { s.life with toCopy := t.life.toCopy } }
  failed : ∀ m, (t.outer m).failed = (s.outer m).failed

namespace State.Accessed

variable {s t u : State}

theorem refl (s : State) : s.Accessed s := ⟨rfl, fun _ => rfl⟩

theorem trans (h₁ : s.Accessed t) (h₂ : t.Accessed u) : s.Accessed u := by
  refine ⟨?_, fun m => (h₂.failed m).trans (h₁.failed m)⟩
  rw [h₂.eq, h₁.eq]

theorem pending (h : s.Accessed t) : t.pending = s.pending := by rw [h.eq]
theorem free (h : s.Accessed t) : t.free = s.free := by rw [h.eq]
theorem now (h : s.Accessed t) : t.now = s.now := by rw [h.eq]
theorem dev (h : s.Accessed t) : t.dev = s.dev := by rw [h.eq]
theorem cores (h : s.Accessed t) : t.cores = s.cores := by rw [h.eq]
theorem clusters (h : s.Accessed t) : t.clusters = s.clusters := by rw [h.eq]
theorem work (h : s.Accessed t) : t.work = s.work := by rw [h.eq]
theorem channels (h : s.Accessed t) : t.channels = s.channels := by rw [h.eq]
theorem lys (h : s.Accessed t) : t.lys = s.lys := by rw [h.eq]
theorem net (h : s.Accessed t) : t.net = s.net := by rw [h.eq]
theorem svc (h : s.Accessed t) : t.svc = s.svc := by rw [h.eq]
theorem fw (h : s.Accessed t) : t.fw = s.fw := by rw [h.eq]
theorem ident (h : s.Accessed t) : t.ident = s.ident := by rw [h.eq]
theorem sent (h : s.Accessed t) : t.sent = s.sent := by rw [h.eq]
theorem core (h : s.Accessed t) (c : Nat) : t.core c = s.core c := by rw [State.core, h.cores]; rfl
theorem cluster (h : s.Accessed t) (c : Nat) : t.cluster c = s.cluster c := by rw [State.cluster, h.clusters]; rfl

theorem onMem (h : s.Accessed t) (f : Mem → Mem) : s.Accessed (t.onMem f) := h.trans ⟨rfl, fun _ => rfl⟩
theorem modSlice (h : s.Accessed t) (c : Nat) (f : Slice → Slice) : s.Accessed (t.modSlice c f) := h.trans ⟨rfl, fun _ => rfl⟩

theorem modOuter (h : s.Accessed t) (m : Nat) (f : Outer → Outer) (hf : ∀ o, (f o).failed = o.failed := by exact fun _ => rfl) :
    s.Accessed (t.modOuter m f) := by
  refine h.trans ⟨rfl, fun i => ?_⟩
  by_cases hi : i = m
  · rw [hi, State.modOuter_outer]
    exact hf _
  · rw [State.modOuter_outer_ne _ _ hi]

theorem alert (h : s.Accessed t) (b : Nat) : s.Accessed (t.alert b) := h.trans ⟨rfl, fun _ => rfl⟩

theorem ite {p : Prop} [Decidable p] (h₁ : s.Accessed t) (h₂ : s.Accessed u) : s.Accessed (if p then t else u) := by
  split <;> assumption

theorem logRec (h : s.Accessed t) (r : ErrRec) : s.Accessed (t.logRec r) := by
  unfold State.logRec State.writeRecord
  exact .ite (h.trans ⟨rfl, fun _ => rfl⟩) (.ite (h.trans ⟨rfl, fun _ => rfl⟩) (h.trans ⟨rfl, fun _ => rfl⟩))

theorem logEvent (h : s.Accessed t) (e : Ev) (i : EvInfo) : s.Accessed (t.logEvent e i) := by
  have hr := h.logRec (t.recordOf e i)
  have hc := Accessed.ite (p := e.cls ≥ 3 ∨ (e.copied ∧ e.cls ≥ 1)) (hr.trans
    (u := (t.logRec (t.recordOf e i)).onLife fun l => { l with toCopy := l.toCopy ++ [t.log.next] }) ⟨rfl, fun _ => rfl⟩) hr
  exact .ite (hc.alert _) (.ite (hc.alert _) hc)

end State.Accessed

/-! ### Reads -/

theorem State.sliceOutcome_accessed (s : State) (c unit : Nat) (o : RdOut) : s.Accessed (s.sliceOutcome c unit o) := by
  have h0 : s.Accessed (if (look (s.slice c).recentCe unit).isSome then
      s.modSlice c fun sl => { sl with recentCe := del sl.recentCe unit } else s) :=
    .ite (.modSlice (.refl s) _ _) (.refl s)
  unfold State.sliceOutcome
  cases o with
  | ok => exact h0
  | poisoned _ => exact h0
  | ce _ =>
    have h1 := (h0.modSlice c fun sl =>
      { sl with corrected := satAdd 32 sl.corrected 1, writeBacks := insertSet sl.writeBacks unit }).logEvent .sliceCe
        { ut := utSlice, ui := c, address := unit }
    dsimp only
    split
    · exact .ite (h1.logEvent _ _) h1
    · exact h1
  | ue => exact .logEvent (.modSlice h0 _ _) _ _
  | address => exact .logEvent (.modSlice h0 _ _) _ _

theorem State.readCodeword_accessed (s : State) (c unit : Nat) : s.Accessed (s.readCodeword c unit).1 := by
  have h := s.sliceOutcome_accessed c unit (if (s.mem.errsOf unit).isEmpty then (if s.mem.marked unit then .poisoned [] else .ok)
    else sliceDecode (s.mem.errsOf unit) (s.mem.marked unit))
  unfold State.readCodeword
  dsimp only
  split <;> simp_all only

theorem State.readCodewords_accessed (s : State) (c : Nat) (us : List Nat) : s.Accessed (s.readCodewords c us).1 := by
  induction us generalizing s with
  | nil => exact .refl s
  | cons u us ih => exact (s.readCodeword_accessed c u).trans (ih _)

theorem State.countDie_accessed (s : State) (m unit n : Nat) : s.Accessed (s.countDie m unit n) := by
  unfold State.countDie State.reportDie State.outerEvent
  refine .ite (.refl s) ?_
  have h := State.Accessed.modOuter (.refl s) m fun o => { o with
      dieCorrected := satAdd 32 o.dieCorrected n, writeBacks := insertSet o.writeBacks (unitBase unit)
      dieCeCount := put o.dieCeCount (bankOf unit) (lookD (s.outer m).dieCeCount (bankOf unit) 0 + n) }
  dsimp only
  split
  · exact .ite h (.logEvent (h.modOuter _ _) _ _)
  · exact .logEvent (h.modOuter _ _) _ _

theorem State.readOuterUnit_accessed (s : State) (m unit : Nat) : s.Accessed (s.readOuterUnit m unit).1 := by
  have h := s.countDie_accessed m unit (s.mem.dieCes unit)
  unfold State.readOuterUnit State.countOuterUe State.outerEvent
  exact .ite (.logEvent (h.modOuter _ _) _ _) h

theorem State.readOuterUnits_accessed (s : State) (m : Nat) (us : List Nat) : s.Accessed (s.readOuterUnits m us).1 := by
  induction us generalizing s with
  | nil => exact .refl s
  | cons u us ih =>
    unfold State.readOuterUnits
    exact (s.readOuterUnit_accessed m u).trans (ih _)

theorem State.readRange_accessed (s : State) (a len : Nat) : s.Accessed (s.readRange a len).1 := by
  unfold State.readRange
  split
  · exact s.readCodewords_accessed _ _
  · split
    · exact .refl s
    · exact s.readOuterUnits_accessed _ _
  · exact .refl s

/-! ### Writes -/

theorem State.overwrite_accessed (s : State) (m unit : Nat) : s.Accessed (s.overwrite m unit) :=
  .ite (.refl s) (.modOuter (.refl s) _ _)

theorem State.writeUnit_accessed (s : State) (a : Nat) (bs : List Byte) (p : Bool) : s.Accessed (s.writeUnit a bs p) := by
  unfold State.writeUnit
  dsimp only
  split
  · split
    · exact .modSlice (.onMem (.refl s) _) _ _
    · exact .modSlice (.onMem (s.readCodeword_accessed _ _) _) _ _
  · split
    · exact .onMem (s.overwrite_accessed _ _) _
    · exact .onMem ((s.readOuterUnit_accessed _ _).trans (State.overwrite_accessed _ _ _)) _
  · exact .onMem (.refl s) _

theorem State.writeUnits_accessed (s : State) (n a : Nat) (bs : List Byte) (ps : List Bool) :
    s.Accessed (s.writeUnits n a bs ps) := by
  induction n generalizing s a bs ps with
  | zero => exact .refl s
  | succ n ih => exact .ite (.refl s) ((s.writeUnit_accessed _ _ _).trans (ih _ _ _ _))

theorem State.writeRange_accessed (s : State) (a : Nat) (bs : List Byte) (ps : List Bool) : s.Accessed (s.writeRange a bs ps) :=
  s.writeUnits_accessed _ _ _ _

end Sys2Proof.Machine
end

