-- ==== Sys2Proof/Proofs/Waves.lean ====
section
/-!
The start of a wave on a cluster (R157 to R161), and the reports and fences of clusters (R162, R166, R562).
-/

namespace Sys2Proof.Machine

/-! ### Reports and fences -/

/-- Settles O25: each event is one guarded update of the cluster it names. -/
theorem clusterReportsAndFences : Obligations.ClusterReportsAndFences := by
  intro cd s
  refine ⟨?_, (apply_ite _ _ _ _).symm, ?_, ?_, ?_, ?_⟩
  · show execDispatcherHeartbeat cd s = _
    unfold execDispatcherHeartbeat
    cases (s.cluster cd).wave <;> rfl
  · show execHeartbeatTimeout cd s = _
    unfold execHeartbeatTimeout
    cases (s.cluster cd).wave <;> rfl
  · intro ev e answers h
    show execClusterFence cd ev answers s = _
    simp only [execClusterFence, h]
  · intro h ev answers
    show execClusterFence cd ev answers s = _
    unfold execClusterFence
    cases clusterEvent ev with
    | none => rfl
    | some e => simp only [State.fenceCluster, h, if_true]
  · intro task wave node tok
    show execCompletionToken task wave node tok s = _
    unfold execCompletionToken
    by_cases h : Sent.token task wave node tok ∈ s.sent <;> simp [h]

/-! ### The start of a wave -/

/-- Updating one task is an update of the table of tasks alone. -/
theorem State.modTask_eq (s : State) (id : Nat) (f : Task → Task) :
    s.modTask id f = s.onWork fun w => match look w.tasks id with
      | none => w
      | some t => { w with tasks := put w.tasks id (f t) } := by
  unfold State.modTask State.onWork
  dsimp only
  cases look s.work.tasks id <;> rfl

/-- The registers of a core at the start of partition `p` of wave `num` of a task (R60, R124, R157). -/
structure Core.Started (k : Core) (t : Task) (num p : Nat) : Prop where
  fetching : k.fetching = true
  ended : k.ended = false
  task : k.task = t.id
  wave : k.wave = num
  part : k.part = p
  seed : k.seed = t.desc.seed
  cubeFlags : k.cubeFlags = 0
  tileRow : k.tileRow = BitVec.ofNat 32 (p / max 1 t.gridCols * t.tileRows)
  tileCol : k.tileCol = BitVec.ofNat 32 (p % max 1 t.gridCols * t.tileCols)
  cursors : k.cursors = []
  stream : k.stream = []
  nextOff : k.nextOff = 0

/-- Writing a kernel's descriptors changes, outside memory, the core's base of descriptors at most. -/
theorem State.writeDescs_cases (s : State) (c : Nat) (t : Task) (p : Nat) :
    s.writeDescs c t p = s ∨ ∃ b, (s.modCore c fun k => { k with descBase := b }).Accessed (s.writeDescs c t p) := by
  unfold State.writeDescs
  split
  · exact .inl rfl
  split
  · exact .inl rfl
  refine .inr ⟨sliceAddr c + descOffset, ?_⟩
  dsimp only
  generalize List.zipIdx _ = l
  generalize (s.modCore c fun k => { k with descBase := sliceAddr c + descOffset }) = s0
  suffices H : ∀ u, s0.Accessed u → s0.Accessed (l.foldl _ u) from H _ (.refl _)
  induction l with
  | nil => exact fun _ h => h
  | cons d l ih => exact fun u h => ih _ (h.trans (u.writeRange_accessed _ _ _))

/-- Starting a core sets its registers and leaves every other core, the clusters and the messages as they are. -/
theorem State.startCore_spec (s : State) (c : Nat) (t : Task) (num p : Nat) :
    ((s.startCore c t num p).core c).Started t num p ∧ (∀ x, x ≠ c → (s.startCore c t num p).core x = s.core x) ∧
      (s.startCore c t num p).clusters = s.clusters ∧ (s.startCore c t num p).sent = s.sent := by
  unfold State.startCore
  dsimp only
  generalize hs : s.modCore c _ = s1
  have hc : (s1.core c).Started t num p := by
    subst hs
    rw [State.modCore_core]
    exact ⟨rfl, rfl, rfl, rfl, rfl, rfl, rfl, rfl, rfl, rfl, rfl, rfl⟩
  have hx : ∀ x, x ≠ c → s1.core x = s.core x := by
    subst hs
    exact fun x h => State.modCore_core_ne _ _ h
  have hcl : s1.clusters = s.clusters := by subst hs; rfl
  have hse : s1.sent = s.sent := by subst hs; rfl
  rcases s1.writeDescs_cases c t p with h | ⟨b, h⟩
  · rw [h]
    exact ⟨hc, hx, hcl, hse⟩
  · refine ⟨?_, fun x hxc => ?_, h.clusters.trans hcl, h.sent.trans hse⟩
    · rw [h.core, State.modCore_core]
      exact ⟨hc.fetching, hc.ended, hc.task, hc.wave, hc.part, hc.seed, hc.cubeFlags, hc.tileRow, hc.tileCol, hc.cursors,
        hc.stream, hc.nextOff⟩
    · rw [h.core, State.modCore_core_ne _ _ hxc, hx x hxc]

/-- The same for the cores of a list without repeats. -/
theorem State.startCores_spec (t : Task) (num : Nat) {l : List (Nat × Nat)} (hl : (l.map (·.1)).Nodup) (s : State) :
    let u := l.foldl (fun s x => s.startCore x.1 t num x.2) s
    (∀ x p, (x, p) ∈ l → (u.core x).Started t num p) ∧ (∀ x, x ∉ l.map (·.1) → u.core x = s.core x) ∧
      u.clusters = s.clusters ∧ u.sent = s.sent := by
  induction l generalizing s with
  | nil => exact ⟨fun _ _ h => absurd h List.not_mem_nil, fun _ _ => rfl, rfl, rfl⟩
  | cons y l ih =>
    obtain ⟨hy, hl⟩ := List.nodup_cons.1 hl
    obtain ⟨h1, h2, h3, h4⟩ := s.startCore_spec y.1 t num y.2
    obtain ⟨i1, i2, i3, i4⟩ := ih hl (s.startCore y.1 t num y.2)
    refine ⟨fun x p hx => ?_, fun x hx => ?_, i3.trans h3, i4.trans h4⟩
    · rcases List.mem_cons.1 hx with rfl | hx
      · have h := i2 x hy
        rw [List.foldl_cons, h]
        exact h1
      · exact i1 x p hx
    · rw [List.map_cons, List.mem_cons, not_or] at hx
      exact (i2 x hx.2).trans (h2 x hx.1)

theorem waveCores_nodup (w : Wave) (cd : Nat) : ((waveCores w cd).map (·.1)).Nodup := by
  unfold waveCores
  split
  · exact List.nodup_nil
  · rw [List.map_map]
    exact List.pairwise_map.mpr (List.nodup_range.imp fun hne h => hne (Nat.add_left_cancel h))

/-- A cluster's share of a wave starts: the cluster, the notice to the power core and the cores of the wave (R157, R160, R161). -/
theorem State.startOn_spec (s : State) (t : Task) (w : Wave) (cd : Nat) :
    ((s.startOn t w cd).cluster cd).wave = some (t.id, w.num) ∧
      ((s.startOn t w cd).cluster cd).preRaise = 10 * t.loadClass ∧
      (s.startOn t w cd).sent = s.sent ++ [.loadNotice cd t.loadClass] ∧
      (∀ x p, (x, p) ∈ waveCores w cd → ((s.startOn t w cd).core x).Started t w.num p) ∧
      ∀ x, x ∉ (waveCores w cd).map (·.1) → (s.startOn t w cd).core x = s.core x := by
  unfold State.startOn
  dsimp only
  generalize hs : State.modTask _ t.id _ = s2
  obtain ⟨h1, h2, h3, h4⟩ := State.startCores_spec t w.num (waveCores_nodup w cd) s2
  rw [State.modTask_eq] at hs
  have hcl : s2.cluster cd = { s.cluster cd with
      wave := some (t.id, w.num), preRaise := preRaiseOf t.loadClass, heartbeat := s.now, gateOpen := true } := by
    subst hs
    exact (s.emit (.loadNotice cd t.loadClass)).modCluster_cluster cd fun k =>
      { k with wave := some (t.id, w.num), preRaise := preRaiseOf t.loadClass, heartbeat := s.now, gateOpen := true }
  refine ⟨?_, ?_, ?_, h1, fun x hx => ?_⟩
  · rw [State.cluster, h3, ← State.cluster, hcl]
  · rw [State.cluster, h3, ← State.cluster, hcl]
    rfl
  · rw [h4, ← hs]
    rfl
  · rw [h2 x hx, ← hs]
    rfl

/-- What the start of a wave reads of its task does not change when the next wave opens. -/
theorem State.openWave_keeps (s : State) (t : Task) :
    (s.openWave t).id = t.id ∧ (s.openWave t).loadClass = t.loadClass ∧ (s.openWave t).desc = t.desc ∧
      (s.openWave t).gridCols = t.gridCols ∧ (s.openWave t).tileRows = t.tileRows ∧ (s.openWave t).tileCols = t.tileCols := by
  unfold State.openWave
  dsimp only
  split
  · exact ⟨rfl, rfl, rfl, rfl, rfl, rfl⟩
  · exact ⟨rfl, rfl, rfl, rfl, rfl, rfl⟩

/-- WAVE_START starts the share of the wave, the next wave being opened where none is left to begin. -/
theorem execWaveStart_starts {id cd : Nat} {t t1 : Task} {w : Wave} {s : State} (ht : s.task? id = some t)
    (hrun : t.state = .running) (htakes : s.takesWave cd = true) (hcd : cd ∈ t.cds) (hkept : s.keptFor t cd = false)
    (hw : (t.waves.find? (fun w => w.cds.contains cd && !w.started.contains cd) = some w ∧ t1 = t) ∨
      (t.waves.find? (fun w => w.cds.contains cd && !w.started.contains cd) = none ∧ t.stopping = false ∧
        t.cancelled = false ∧ t.timedOut = false ∧ t.nextPart < t.parts ∧ t1 = s.openWave t ∧
        t1.waves.getLast? = some w ∧ cd ∈ w.cds)) :
    ∃ s1 : State, execWaveStart id cd s = .next (s1.startOn t1 w cd) ∧ s1.cores = s.cores ∧ s1.sent = s.sent := by
  have hgo : ¬ (t.state ≠ .running ∨ !s.takesWave cd ∨ !t.cds.contains cd ∨ s.keptFor t cd) := by simp [hrun, htakes, hcd, hkept]
  unfold execWaveStart
  rw [ht]
  dsimp only
  rw [if_neg hgo]
  rcases hw with ⟨hf, rfl⟩ | ⟨hf, hstop, hcan, htime, hlt, rfl, hlast, hin⟩
  · rw [hf]
    exact ⟨s, rfl, rfl, rfl⟩
  · refine ⟨(s.modTask id fun _ => s.openWave t).noteWave (s.openWave t), ?_, ?_, ?_⟩
    · rw [hf]
      simp [hstop, hcan, htime, Nat.not_le.2 hlt, hlast, hin]
    · rw [State.modTask_eq]; rfl
    · rw [State.modTask_eq]; rfl

/-- Settles O24, from the effect of a cluster's start on the share of one wave. -/
theorem waveStartSetsCores : Obligations.WaveStartSetsCores := by
  intro id cd t t1 w s ht hid hrun htakes hcd hkept hw
  obtain ⟨s1, hexec, hcores, hsent⟩ := execWaveStart_starts ht hrun htakes hcd hkept hw
  have ht1 : t1.id = t.id ∧ t1.loadClass = t.loadClass ∧ t1.desc = t.desc ∧ t1.gridCols = t.gridCols ∧
      t1.tileRows = t.tileRows ∧ t1.tileCols = t.tileCols := by
    rcases hw with ⟨-, rfl⟩ | ⟨-, -, -, -, -, rfl, -⟩
    · exact ⟨rfl, rfl, rfl, rfl, rfl, rfl⟩
    · exact s.openWave_keeps t
  obtain ⟨e1, e2, e3, e4, e5, e6⟩ := ht1
  obtain ⟨hwave, hraise, hmsg, hcore, hother⟩ := s1.startOn_spec t1 w cd
  rw [e1, hid] at hwave
  rw [e2] at hraise
  rw [e2, hsent] at hmsg
  refine ⟨_, hexec, hwave, hraise, hmsg, fun x p hx => ?_, fun x hx => ?_⟩
  · have h := hcore x p hx
    exact ⟨h.fetching, h.ended, h.task.trans (e1.trans hid), h.wave, h.part, h.seed.trans (by rw [e3]), h.cubeFlags,
      h.tileRow.trans (by rw [e4, e5]), h.tileCol.trans (by rw [e4, e6]), h.cursors, h.stream, h.nextOff⟩
  · rw [hother x hx, State.core, hcores]
    rfl

end Sys2Proof.Machine
end

