-- ==== Sys2Proof/Proofs/Fills.lean ====
section
/-!
The fills of memory (R206, R216, R244, R253).
-/

namespace Sys2Proof.Machine

/-! ### Clearing a range -/

theorem Mem.byte_clear (m : Mem) (lo hi a : Nat) :
    (m.clear lo hi).byte a = if a < lo ∨ hi ≤ a then m.byte a else 0 := by
  unfold Mem.byte Mem.clear lookD
  dsimp only
  rw [look_filter m.cells fun i => decide (i < lo) || decide (hi ≤ i)]
  by_cases h : a < lo ∨ hi ≤ a <;> simp [h]

theorem Mem.marked_clear (m : Mem) (lo hi a : Nat) :
    (m.clear lo hi).marked a = if a < lo ∨ hi ≤ a then m.marked a else false := by
  unfold Mem.marked Mem.clear
  rw [Bool.eq_iff_iff]
  split <;> simp_all

theorem pageBase_le (a : Nat) : pageBase a ≤ a := Nat.div_mul_le_self _ _

theorem outerBase_le_pageBase {a : Nat} (h : outerBase ≤ a) : outerBase ≤ pageBase a := by
  have hs : pageSize a = 0x200000 := if_neg (Nat.not_lt.2 h)
  unfold pageBase
  rw [hs]
  unfold outerBase at *
  omega

/-- The instar of a page whose entry a filter drops is zero. -/
theorem Mem.instar_filter {m : Mem} {t : Tab Word} {f : Nat → Bool} {a : Nat} (hm : m.instars = t.filter fun p => f p.1)
    (h : f (pageBase a) = false) : m.instar a = 0 := by
  unfold Mem.instar lookD
  rw [hm, look_filter t f, h]
  rfl

/-! ### The packages filled -/

/-- A package in use after the outer fill. -/
def Outer.filled (o : Outer) (now : Nat) : Outer :=
  { o with fillDone := true, writeBacks := [], scrubbed := [], scrubFrom := now }

/-- Every package of a list that is in use is filled. -/
theorem fillOuters_done (now : Nat) (l : List Nat) (t : Tab Outer) {m : Nat} (hf : (lookD t m {}).failed = false)
    (hm : m ∈ l ∨ (lookD t m {}).fillDone = true) :
    (lookD (l.foldl (fun t m => if (lookD t m {}).failed then t else put t m ((lookD t m {}).filled now)) t) m {}).fillDone = true := by
  induction l generalizing t with
  | nil => exact hm.resolve_left List.not_mem_nil
  | cons x l ih =>
    rw [List.foldl_cons]
    by_cases hx : m = x
    · subst hx
      rw [if_neg (by rw [hf]; exact Bool.false_ne_true)]
      exact ih _ (by rw [lookD_put_same]; exact hf) (.inr (by rw [lookD_put_same]; rfl))
    · have hml : m ∈ l ∨ (lookD t m {}).fillDone = true := hm.imp_left fun h => (List.mem_cons.1 h).resolve_left hx
      split
      · exact ih t hf hml
      · exact ih _ (by rw [lookD_put_ne _ _ _ hx]; exact hf) (by rw [lookD_put_ne _ _ _ hx]; exact hml)

/-- The packages in use after the outer fill. -/
def State.filledOuters (s : State) : Tab Outer :=
  (List.range 12).foldl (fun t m => if (lookD t m {}).failed then t else put t m ((lookD t m {}).filled s.now)) s.outers

/-- Outer memory after the outer fill. -/
def Mem.outerFilled (m : Mem) : Mem :=
  { m.clear outerBase scratchBase with
    instars := m.instars.filter fun p => !(decide (outerBase ≤ p.1) && decide (p.1 < scratchBase)) }

theorem State.filledOuters_done {s : State} {m : Nat} (hm : m < 12) (hf : (s.outer m).failed = false) :
    (lookD s.filledOuters m {}).fillDone = true := by
  unfold State.filledOuters
  exact fillOuters_done s.now (List.range 12) s.outers hf (.inl (List.mem_range.2 hm))

theorem exec_outerFill {s : State} (hd : s.dev = .filling) :
    exec .outerFill s = .next { s with mem := s.mem.outerFilled, outers := s.filledOuters } :=
  if_neg (Classical.not_not.2 hd)

theorem Mem.instar_outerFilled (m : Mem) {a : Nat} (h₁ : outerBase ≤ a) (h₂ : a < scratchBase) :
    m.outerFilled.instar a = 0 := by
  have hm : m.outerFilled.instars = m.instars.filter fun p => !(decide (outerBase ≤ p.1) && decide (p.1 < scratchBase)) := rfl
  refine Mem.instar_filter (f := fun i => !(decide (outerBase ≤ i) && decide (i < scratchBase))) hm ?_
  simp [outerBase_le_pageBase h₁, Nat.lt_of_le_of_lt (pageBase_le a) h₂]

/-- Settles O30: each fill is one `Mem.clear` with the region's instars dropped. -/
theorem fillsLeaveZero : Obligations.FillsLeaveZero := by
  intro s cleared
  have hcleared : ∀ lo hi t, (∀ a, t.mem.byte a = (s.mem.clear lo hi).byte a) →
      (∀ a, t.mem.marked a = (s.mem.clear lo hi).marked a) → cleared lo hi t := by
    intro lo hi t hb hm
    simp only [cleared, hb, hm, Mem.byte_clear, Mem.marked_clear]
    refine ⟨fun a h1 h2 => ?_, fun a h => ?_⟩
    · rw [if_neg (by omega), if_neg (by omega)]
      exact ⟨rfl, rfl⟩
    · rw [if_pos h, if_pos h]
      exact ⟨rfl, rfl⟩
  refine ⟨fun hd => ⟨?_, ?_⟩, fun hd => ⟨if_pos hd, if_pos hd⟩⟩
  · refine ⟨_, if_neg (Classical.not_not.2 hd), hcleared _ _ _ (fun _ => rfl) (fun _ => rfl), fun a ha => ?_, rfl⟩
    exact Mem.instar_filter (f := fun i => decide (outerBase ≤ i)) rfl
      (decide_eq_false (Nat.not_le.2 (Nat.lt_of_le_of_lt (pageBase_le a) ha)))
  · refine ⟨_, exec_outerFill hd, hcleared _ _ _ (fun _ => rfl) (fun _ => rfl), fun a h1 h2 => ?_, fun m hm hf => ?_⟩
    · exact s.mem.instar_outerFilled h1 h2
    · unfold State.outer
      dsimp only
      exact State.filledOuters_done hm hf

end Sys2Proof.Machine
end

