-- ==== Sys2Proof/Proofs/SliceBursts.lean ====
section
/-!
The bursts of a core to slices (R194 to R199, R216).
-/

namespace Sys2Proof.Machine

/-! ### One codeword of a slice -/

theorem mem_insertSet (l : List Nat) (i x : Nat) : x ∈ insertSet l i ↔ x = i ∨ x ∈ l := by
  induction l with
  | nil => simp [insertSet]
  | cons k l ih =>
    unfold insertSet
    split
    · simp
    split
    · next h => subst h; simp
    · simp only [List.mem_cons, ih]
      exact or_left_comm

theorem Mem.marked_setMark (m : Mem) (u : Nat) (p : Bool) : (m.setMark u p).marked u = p := by
  cases p <;> simp [Mem.marked, Mem.setMark, mem_insertSet]

theorem look_eq_none_of_notMem {α : Type} {t : Tab α} {i : Nat} (h : i ∉ keys t) : look t i = none := by
  induction t with
  | nil => rfl
  | cons p t ih =>
    obtain ⟨k, v⟩ := p
    rw [keys, List.map_cons, List.mem_cons, not_or] at h
    exact (if_neg h.1).trans (ih h.2)

theorem look_del_of_nodup {α : Type} {t : Tab α} (h : (keys t).Nodup) (i : Nat) : look (del t i) i = none := by
  induction t with
  | nil => rfl
  | cons p t ih =>
    obtain ⟨k, v⟩ := p
    obtain ⟨hk, ht⟩ := List.nodup_cons.1 h
    unfold del
    split
    · next e => exact look_eq_none_of_notMem (e ▸ hk)
    · next e =>
      have hl : look ((k, v) :: del t i) i = look (del t i) i := if_neg e
      exact hl.trans (ih ht)

theorem lookD_putD_of_nodup {α : Type} [DecidableEq α] {t : Tab α} (h : (keys t).Nodup) (i : Nat) (v d : α) :
    lookD (putD t i v d) i d = v := by
  unfold putD
  split
  · next e => rw [lookD, look_del_of_nodup h, e]; rfl
  · exact lookD_put_same ..

theorem Mem.write_instars (m : Mem) (a : Nat) (bs : List Byte) : (m.write a bs).instars = m.instars := by
  induction bs generalizing m a with
  | nil => rfl
  | cons b bs ih => exact (ih _ _).trans rfl

theorem Mem.instar_bumpInstar {m : Mem} (h : (keys m.instars).Pairwise (· < ·)) (a : Nat) :
    (m.bumpInstar a).instar a = m.instar a + 1 :=
  lookD_putD_of_nodup (h.imp Nat.ne_of_lt) _ _ _

theorem Mem.read_write {m : Mem} (hm : m.wf = true) (a : Nat) (bs : List Byte) : (m.write a bs).read a bs.length = bs := by
  refine List.ext_getElem (by simp [Mem.read]) fun i h₁ h₂ => ?_
  simp only [Mem.read, List.getElem_map, List.getElem_range]
  rw [Mem.byte_write_in hm a bs i h₂]

/-- A slice lies below the outer packages, in units of 32 bytes. -/
theorem unitSize_slice {a d off : Nat} (h : place a = .slice d off) : unitSize a = 32 := by
  unfold place at h
  split at h
  · next hl => exact if_neg fun ho => by simp only [sliceStride, outerBase] at hl ho; omega
  · split at h
    · cases h
    split at h
    · cases h
    split at h
    · cases h
    split at h <;> cases h

theorem unitBase_slice {a d off : Nat} (h : place a = .slice d off) (ha : a % 32 = 0) : unitBase a = a := by
  rw [unitBase, unitSize_slice h]
  omega

theorem unitsOf_slice {a d off : Nat} (h : place a = .slice d off) (ha : a % 32 = 0) : unitsOf a 32 = [a] := by
  unfold unitsOf
  rw [unitSize_slice h, if_neg (by decide)]
  dsimp only
  have hu : (a + 32 - 1) / 32 - a / 32 + 1 = 1 := by omega
  rw [hu]
  simp only [List.range_one, List.map_cons, List.map_nil, Nat.add_zero]
  rw [Nat.div_mul_cancel (Nat.dvd_of_mod_eq_zero ha)]

/-- A store of a whole codeword of a slice. -/
theorem State.writeRange_codeword (s : State) {a d off : Nat} {bs : List Byte} (p : Bool) (h : place a = .slice d off)
    (ha : a % 32 = 0) (hb : bs.length = 32) :
    s.writeRange a bs (List.replicate 32 p) =
      (s.onMem fun m => (((m.write a bs).setMark a p).clearFlips a).bumpInstar a).modSlice d fun sl =>
        { sl with writeBacks := sl.writeBacks.filter (· != a), recentCe := del sl.recentCe a } := by
  have hu := unitBase_slice h ha
  have hs := unitSize_slice h
  have hne : bs.isEmpty = false := by cases bs <;> simp_all
  have ht : bs.take 32 = bs := List.take_of_length_le (Nat.le_of_eq hb)
  have hd : bs.drop 32 = [] := List.drop_of_length_le (Nat.le_of_eq hb)
  have hp : ((List.replicate 32 p).take 32).any id = p := by cases p <;> rfl
  rw [State.writeRange, hb]
  show State.writeUnits s 3 a bs _ = _
  rw [State.writeUnits, hne, if_neg Bool.false_ne_true]
  dsimp only
  rw [hu, hs, Nat.add_sub_cancel_left, ht, hd, hp, State.writeUnits]
  simp only [List.isEmpty_nil, if_true]
  unfold State.writeUnit
  simp only [h, hu, hs, hb, decide_true, if_true]

theorem applySyms_nil (base : Nat) (bs : List Byte) : applySyms base bs [] = bs := by
  refine List.ext_getElem (by simp [applySyms]) fun i _ _ => ?_
  simp [applySyms]

/-- A codeword without stored errors reads as it is stored, with its mark. -/
theorem State.readCodeword_clean (s : State) {c a : Nat} (h : s.mem.errsOf a = []) :
    (s.readCodeword c a).2 = (s.mem.read a 32, s.mem.marked a) ∧ (s.readCodeword c a).1.mem = s.mem := by
  unfold State.readCodeword
  simp only [h, List.isEmpty_nil, if_true, applySyms_nil]
  cases hm : s.mem.marked a with
  | false =>
    refine ⟨rfl, ?_⟩
    simp only [Bool.false_eq_true, if_false, State.sliceOutcome]
    split <;> rfl
  | true =>
    simp only [if_true, applySyms_nil, State.sliceOutcome]
    refine ⟨trivial, ?_⟩
    split <;> rfl

theorem State.readRange_codeword (s : State) {a d off : Nat} (hp : place a = .slice d off) (ha : a % 32 = 0)
    (h : s.mem.errsOf a = []) :
    (s.readRange a 32).2 = (s.mem.read a 32, List.replicate 32 (s.mem.marked a)) ∧ (s.readRange a 32).1.mem = s.mem := by
  obtain ⟨hd, hm⟩ := s.readCodeword_clean (c := d) h
  have hl : (s.mem.read a 32).length = 32 := by simp [Mem.read]
  unfold State.readRange
  simp only [hp, unitsOf_slice hp ha, unitBase_slice hp ha, State.readCodewords, hd, hm, Nat.sub_self, List.drop_zero,
    List.append_nil, List.take_replicate, Nat.min_self]
  exact ⟨by rw [List.take_of_length_le (Nat.le_of_eq hl)], trivial⟩

/-- A read of one codeword without stored errors answers its bytes and its mark. -/
theorem State.serve_read_codeword (s : State) {a d off : Nat} (g : Agent) (hp : place a = .slice d off) (ha : a % 32 = 0)
    (h : s.mem.errsOf a = []) :
    (s.serve g a 32 .read).mem = s.mem ∧ (∀ c, (s.serve g a 32 .read).core c = s.core c) ∧
      (s.serve g a 32 .read).sent =
        s.sent ++ [.data g (s.mem.read a 32) (List.replicate 32 (s.mem.marked a)), .answer g stOk] := by
  have hacc := s.readRange_accessed a 32
  obtain ⟨hd, hm⟩ := s.readRange_codeword hp ha h
  unfold State.serve
  generalize s.readRange a 32 = r at *
  obtain ⟨s1, bs, ps⟩ := r
  obtain ⟨rfl, rfl⟩ := Prod.mk.inj hd
  refine ⟨hm, hacc.core, ?_⟩
  show (s1.sent ++ [_]) ++ [_] = _
  rw [hacc.sent, List.append_assoc]
  rfl

/-! ### A burst of a core -/

/-- The request of a core holds its slot and stands in the queue of its slice. -/
def State.burstTaken (s : State) (c d k a n : Nat) (e : Engine) (write : Bool) : State :=
  (s.modCore c fun x => { x with sliceSlots := insertSet x.sliceSlots k }).modSlice d fun sl =>
    { sl with queue := sl.queue ++ [{ id := k, agent := .core c e, addr := a, len := n, write := write }] }

/-- A burst that goes ahead takes its slot and is carried out. -/
theorem execSliceBurstRequest_go {s : State} {c d off a n k : Nat} {e : Engine} {acc : Access} (hp : place a = .slice d off)
    (hk : lowestFree (s.core c).sliceSlots 16 = some k) (hgo : s.answer (.core c e) a (accLen n acc) (isWrite acc) = .go) :
    execSliceBurstRequest (.core c e) a n acc s =
      .next ((s.burstTaken c d k a (accLen n acc) e (isWrite acc)).serve (.core c e) a (accLen n acc) acc) := by
  simp only [execSliceBurstRequest, hk, hgo, State.countBusy, State.queueBurst, hp, State.burstTaken]

theorem State.burstTaken_slots (s : State) (c d k a n : Nat) (e : Engine) (write : Bool) :
    ((s.burstTaken c d k a n e write).core c).sliceSlots = insertSet (s.core c).sliceSlots k :=
  congrArg Core.sliceSlots (State.modCore_core s c fun x => { x with sliceSlots := insertSet x.sliceSlots k })

/-- A burst that does not go ahead is answered at once. -/
theorem execSliceBurstRequest_refused {s : State} {c a k : Nat} {e : Engine} (hk : lowestFree (s.core c).sliceSlots 16 = some k) :
    (∀ st, s.answer (.core c e) a 32 false = .status st →
      execSliceBurstRequest (.core c e) a 32 .read s = .next ((s.countBusy a (.status st)).reply (.core c e) st)) ∧
    (s.answer (.core c e) a 32 false = .fault →
      execSliceBurstRequest (.core c e) a 32 .read s = .next ((s.countBusy a .fault).accessFault (.core c e) a)) := by
  constructor
  · intro st h
    simp only [execSliceBurstRequest, hk, accLen, isWrite, h]
  · intro h
    simp only [execSliceBurstRequest, hk, accLen, isWrite, h]

theorem State.wakeSlots_idle {s : State} {c : Nat} (h₁ : (s.core c).firstWith .move .slots = none)
    (h₂ : (s.core c).firstWith .gather .slots = none) : s.wakeSlots c = s := by
  simp only [State.wakeSlots, List.foldl_cons, List.foldl_nil, h₁, h₂]

theorem look_mapTab {α β : Type} (t : Tab α) (f : Nat → α → β) (i : Nat) : look (mapTab t f) i = (look t i).map (f i) := by
  induction t with
  | nil => rfl
  | cons p t ih =>
    obtain ⟨k, v⟩ := p
    by_cases h : i = k
    · subst h; simp [look, mapTab]
    · simpa [look, mapTab, h] using ih

/-- No burst that was dropped stands in the queue of a slice. -/
theorem State.notMem_dropBursts (s : State) (p : SReq → Bool) (d : Nat) {r : SReq} (hr : r ∈ ((s.dropBursts p).slice d).queue) :
    p r = false := by
  have hq : ((s.dropBursts p).slice d).queue = (s.slice d).queue.filter fun r => !p r := by
    unfold State.dropBursts State.slice lookD
    dsimp only
    rw [look_mapTab]
    cases look s.slices d <;> rfl
  rw [hq, List.mem_filter] at hr
  simpa using hr.2

/-- The end of a core's burst releases its slot and its request, where nothing waits for a slot. -/
theorem execSliceBurstComplete_slot {s : State} {c k : Nat} (hk : k ∈ (s.core c).sliceSlots) (hst : (s.core c).stream = [])
    (hb : (s.core c).baraWait = []) (h₁ : (s.core c).firstWith .move .slots = none)
    (h₂ : (s.core c).firstWith .gather .slots = none) :
    execSliceBurstComplete c (.slot k) s = .next (((s.modCore c fun x =>
      { x with sliceSlots := x.sliceSlots.filter (· != k) }).dropBursts fun r => r.id == k && coreOf r.agent == some c).modCore c
        Core.arrive) := by
  have hc : ((s.modCore c fun x => { x with sliceSlots := x.sliceSlots.filter (· != k) }).dropBursts
      fun r => r.id == k && coreOf r.agent == some c).core c = { s.core c with
        sliceSlots := (s.core c).sliceSlots.filter (· != k) } :=
    State.modCore_core s c fun x => { x with sliceSlots := x.sliceSlots.filter (· != k) }
  unfold execSliceBurstComplete
  simp only [List.contains_iff_mem.2 hk, Bool.not_true, Bool.false_eq_true, if_false]
  rw [State.wakeSlots_idle (by rw [hc]; exact h₁) (by rw [hc]; exact h₂),
    State.completed_of_calm (calm_of_nil (by rw [hc]; exact hst) (by rw [hc]; exact hb))]

/-- Settles O29: a whole codeword is written, or read without errors, under the slot that the burst holds until it ends. -/
theorem sliceBurstsCarryData : Obligations.SliceBurstsCarryData := by
  intro c d off a e bs p s hp ha hbs g slot
  refine ⟨fun k hk => ⟨?_, ?_, (execSliceBurstRequest_refused hk).1, (execSliceBurstRequest_refused hk).2⟩, ?_, ?_, ?_⟩
  · intro hgo hm hi
    have hlen : accLen 32 (.write bs p) = 32 := hbs
    have hx := execSliceBurstRequest_go (n := 32) (acc := .write bs p) hp hk (by rw [hlen]; exact hgo)
    rw [hlen] at hx
    have hw : (s.burstTaken c d k a 32 e true).serve g a 32 (.write bs p) =
        ((s.burstTaken c d k a 32 e true).writeRange a bs (List.replicate 32 p)).reply g stOk := by
      simp only [State.serve, List.take_of_length_le (Nat.le_of_eq hbs), hbs, Nat.min_self]
    rw [State.writeRange_codeword _ p hp ha hbs] at hw
    refine ⟨_, hx, ?_⟩
    rw [show isWrite (.write bs p) = true from rfl, hw]
    refine ⟨?_, ?_, ?_, ?_, rfl, ?_⟩
    · exact (congrArg _ hbs.symm).trans (Mem.read_write hm a bs)
    · exact (s.mem.write a bs).marked_setMark a p
    · have hi' : (keys (((s.mem.write a bs).setMark a p).clearFlips a).instars).Pairwise (· < ·) := by
        exact (s.mem.write_instars a bs).symm ▸ hi
      have hs : (((s.mem.write a bs).setMark a p).clearFlips a).instar a = s.mem.instar a :=
        congrArg (fun t => lookD t (pageBase a) 0) (s.mem.write_instars a bs)
      exact (Mem.instar_bumpInstar hi' a).trans (by rw [hs])
    · exact fun x hx => Mem.byte_write_ne _ _ _ (by rw [hbs]; exact hx)
    · exact s.burstTaken_slots c d k a 32 e true
  · intro hgo herr
    refine ⟨_, execSliceBurstRequest_go (n := 32) (acc := .read) hp hk hgo, ?_⟩
    obtain ⟨hmem, hcore, hsent⟩ := (s.burstTaken c d k a 32 e false).serve_read_codeword g hp ha herr
    exact ⟨hmem, (congrArg Core.sliceSlots (hcore c)).trans (s.burstTaken_slots c d k a 32 e false), hsent⟩
  · intro hk
    show execSliceBurstRequest g a 32 .read s = _
    simp only [execSliceBurstRequest, g, hk]
  · intro k
    refine ⟨fun hk => ?_, rfl⟩
    show execSliceBurstComplete c (.slot k) s = _
    unfold execSliceBurstComplete
    simp [hk]
  · intro k hk hst hb h₁ h₂
    refine ⟨_, execSliceBurstComplete_slot hk hst hb h₁ h₂, ?_, fun r hr hrk => ?_, rfl⟩
    · rw [State.modCore_core, Core.arrive_nil ?_]
      · exact congrArg Core.sliceSlots (State.modCore_core s c fun x => { x with sliceSlots := x.sliceSlots.filter (· != k) })
      · exact (congrArg Core.baraWait (State.modCore_core s c fun x =>
          { x with sliceSlots := x.sliceSlots.filter (· != k) })).trans hb
    · have h := State.notMem_dropBursts _ _ d hr
      simp [hrk.1, hrk.2] at h

end Sys2Proof.Machine
end

