-- ==== Sys2Proof/Proofs/Controllers.lean ====
section
/-!
Write-backs, refreshes, scrubbing and the self-test of the memory controllers (R203, R207 to R210, R222, R239, R246, R250, R251).
-/

namespace Sys2Proof.Machine

/-! ### Reads change no content -/

@[simp] theorem State.sliceOutcome_mem (s : State) (c unit : Nat) (o : RdOut) : (s.sliceOutcome c unit o).mem = s.mem := by
  have h0 : (if (look (s.slice c).recentCe unit).isSome then
      s.modSlice c fun sl => { sl with recentCe := del sl.recentCe unit } else s).mem = s.mem := by split <;> rfl
  unfold State.sliceOutcome
  cases o with
  | ok => exact h0
  | poisoned _ => exact h0
  | ce _ =>
    dsimp only
    split
    · split <;> simp [h0]
    · simp [h0]
  | ue => simp [h0]
  | address => simp [h0]

@[simp] theorem State.readCodeword_mem (s : State) (c unit : Nat) : (s.readCodeword c unit).1.mem = s.mem := by
  unfold State.readCodeword
  dsimp only
  split <;> simp

@[simp] theorem State.countDie_mem (s : State) (m unit n : Nat) : (s.countDie m unit n).mem = s.mem := by
  unfold State.countDie State.reportDie State.outerEvent
  dsimp only
  split
  · rfl
  · split
    · split <;> simp
    · simp

@[simp] theorem State.readOuterUnit_mem (s : State) (m unit : Nat) : (s.readOuterUnit m unit).1.mem = s.mem := by
  unfold State.readOuterUnit State.countOuterUe State.outerEvent
  dsimp only
  split <;> simp

/-- Counting the corrections of the dies leaves the scrubber's place. -/
theorem State.countDie_scrubPos (s : State) (m unit n : Nat) : ((s.countDie m unit n).outer m).scrubPos = (s.outer m).scrubPos := by
  unfold State.countDie State.reportDie State.outerEvent
  dsimp only
  split
  · rfl
  · split
    · split <;> simp [State.outer]
    · simp [State.outer]

theorem State.readOuterUnit_scrubPos (s : State) (m unit : Nat) :
    ((s.readOuterUnit m unit).1.outer m).scrubPos = (s.outer m).scrubPos := by
  have h := s.countDie_scrubPos m unit (s.mem.dieCes unit)
  unfold State.readOuterUnit State.countOuterUe State.outerEvent
  dsimp only
  split
  · refine Eq.trans ?_ h
    rw [State.outer, State.logEvent_outers, State.modOuter_outers, lookD_put_same]
  · exact h

/-- Reading codewords of a package for their corrections leaves memory and the scrubber's place. -/
theorem State.readOuterList_spec (s : State) (m : Nat) (us : List Nat) :
    (us.foldl (fun s u => (s.readOuterUnit m u).1) s).mem = s.mem ∧
      ((us.foldl (fun s u => (s.readOuterUnit m u).1) s).outer m).scrubPos = (s.outer m).scrubPos := by
  induction us generalizing s with
  | nil => exact ⟨rfl, rfl⟩
  | cons u us ih =>
    obtain ⟨h₁, h₂⟩ := ih (s.readOuterUnit m u).1
    exact ⟨h₁.trans (s.readOuterUnit_mem m u), h₂.trans (s.readOuterUnit_scrubPos m u)⟩

/-! ### Scrubbing -/

/-- What one burst of a slice's scrubber reads. -/
def State.scrubRead (s : State) (c : Nat) : State :=
  match (s.slice c).scrubPage ((s.slice c).scrubPos / 1024) with
  | some p =>
    ((s.readCodeword c (sliceAddr c + p * 0x10000 + (s.slice c).scrubPos % 1024 * 64)).1.readCodeword c
      (sliceAddr c + p * 0x10000 + (s.slice c).scrubPos % 1024 * 64 + 32)).1
  | none => s

theorem State.scrubRead_mem (s : State) (c : Nat) : (s.scrubRead c).mem = s.mem := by
  unfold State.scrubRead
  split <;> simp

/-- The counters of a slice's scrubber after the burst at place `pos` of page `page` (R209, R210). -/
def Slice.afterScrub (sl : Slice) (page : Option Nat) (pos now : Nat) : Slice :=
  let sl := if pos = 0 then { sl with lapStart := now } else sl
  let sl := match page with
    | some p => if pos % 1024 = 1023 then { sl with scrubbed := put sl.scrubbed p now } else sl
    | none => sl
  if pos + 1 < 196 * 1024 then { sl with scrubPos := pos + 1 }
  else { sl with
    scrubPos := 0, laps := (sl.laps + 1) % 65536, lastLapMs := min ((now - sl.lapStart) / 1000000) (2 ^ 24 - 1) }

theorem Slice.afterScrub_fields (sl : Slice) (page : Option Nat) (pos now : Nat) :
    (sl.afterScrub page pos now).scrubPos = (if pos + 1 < 196 * 1024 then pos + 1 else 0) ∧
      (sl.afterScrub page pos now).corrected = sl.corrected ∧ (sl.afterScrub page pos now).uncorrectable = sl.uncorrectable := by
  unfold Slice.afterScrub
  cases page with
  | none =>
    dsimp only
    (repeat' split) <;> exact ⟨rfl, rfl, rfl⟩
  | some p =>
    dsimp only
    (repeat' split) <;> exact ⟨rfl, rfl, rfl⟩

theorem execScrubBurst_reads {s : State} {c : Nat} (h₁ : (s.slice c).scrubEnable = true) (h₂ : (s.slice c).queue = [])
    (h₃ : (s.slice c).writeBacks = []) (h₄ : (s.slice c).copying = []) (h₅ : s.fenced (cdOf c) = false) :
    execScrubBurst c s = .next ((s.scrubRead c).modSlice c fun sl =>
      sl.afterScrub ((s.slice c).scrubPage ((s.slice c).scrubPos / 1024)) (s.slice c).scrubPos s.now) := by
  unfold execScrubBurst
  simp only [h₁, h₂, h₃, h₄, h₅, List.isEmpty_nil, Bool.not_true, Bool.false_eq_true, or_self, if_false]
  rfl

/-- What one segment of a package's scrubber reads. -/
def State.outerScrubRead (s : State) (m : Nat) : State :=
  if (s.outer m).retired.contains ((s.outer m).scrubPos / 512) then s
  else (s.mem.segmentUnits (outerAddr m + (s.outer m).scrubPos / 512 * 0x200000) (walkBank ((s.outer m).scrubPos % 512))).foldl
    (fun s u => (s.readOuterUnit m u).1) s

theorem State.outerScrubRead_spec (s : State) (m : Nat) :
    (s.outerScrubRead m).mem = s.mem ∧ ((s.outerScrubRead m).outer m).scrubPos = (s.outer m).scrubPos := by
  unfold State.outerScrubRead
  split
  · exact ⟨rfl, rfl⟩
  · exact s.readOuterList_spec m _

/-- The counters of a package's scrubber after a segment of page `page` (R246). -/
def Outer.afterScrub (o : Outer) (page now : Nat) : Outer :=
  let o := if o.scrubPos = 0 then { o with lapStart := now } else o
  let o := if o.scrubPos % 512 = 511 ∧ !o.retired.contains page then { o with scrubbed := put o.scrubbed page now } else o
  if o.scrubPos + 1 < 65536 * 512 then { o with scrubPos := o.scrubPos + 1 }
  else { o with
    scrubPos := 0, laps := (o.laps + 1) % 65536, lastLapMs := min ((now - o.lapStart) / 1000000) (2 ^ 24 - 1) }

theorem Outer.afterScrub_scrubPos (o : Outer) (page now : Nat) :
    (o.afterScrub page now).scrubPos = if o.scrubPos + 1 < 65536 * 512 then o.scrubPos + 1 else 0 := by
  have h1 : (if o.scrubPos = 0 then { o with lapStart := now } else o).scrubPos = o.scrubPos := by split <;> rfl
  unfold Outer.afterScrub
  generalize (if o.scrubPos = 0 then { o with lapStart := now } else o) = o1 at h1
  dsimp only
  have h2 : (if o1.scrubPos % 512 = 511 ∧ !o1.retired.contains page then { o1 with scrubbed := put o1.scrubbed page now }
      else o1).scrubPos = o.scrubPos := by split <;> exact h1
  generalize (if o1.scrubPos % 512 = 511 ∧ !o1.retired.contains page then { o1 with scrubbed := put o1.scrubbed page now }
    else o1) = o2 at h2 ⊢
  rw [h2]
  split <;> rfl

theorem execOuterScrub_walks {s : State} {m : Nat} (h₁ : (s.outer m).scrubEnable = true) (h₂ : (s.outer m).failed = false)
    (h₃ : ∀ r ∈ (s.outer m).slotted, bankOf r.addr ≠ walkBank ((s.outer m).scrubPos % 512))
    (h₄ : ∀ u ∈ (s.outer m).writeBacks, bankOf u ≠ walkBank ((s.outer m).scrubPos % 512)) (h₅ : (s.outer m).running = []) :
    execOuterScrub m s = .next ((s.outerScrubRead m).modOuter m fun o => o.afterScrub ((s.outer m).scrubPos / 512) s.now) := by
  have hg : (s.outer m).granted = [] := by simp [Outer.granted, Outer.workGroups, h₅]
  have hr : (s.outer m).slotted.any (fun r => bankOf r.addr == walkBank ((s.outer m).scrubPos % 512)) = false := by simpa using h₃
  have hw : (s.outer m).writeBacks.any (fun u => bankOf u == walkBank ((s.outer m).scrubPos % 512)) = false := by simpa using h₄
  unfold execOuterScrub
  simp only [h₁, h₂, hr, hw, hg, List.contains_nil, Bool.or_self, Bool.not_true, Bool.false_eq_true, or_self, if_false]
  rfl

/-! ### Write-backs -/

/-- Store a slice codeword corrected, if it is still one that the decoder corrects (R203). -/
def State.correct (s : State) (a : Nat) : State :=
  match sliceDecode (s.mem.errsOf a) (s.mem.marked a) with
  | .ce _ => s.onMem fun m => m.clearFlips a
  | _ => s

theorem execCorrectedWriteBack_pending {s : State} {c a : Nat} (h : a ∈ (s.slice c).writeBacks) :
    execCorrectedWriteBack c a s = .next ((s.correct a).modSlice c fun sl =>
      { sl with writeBacks := sl.writeBacks.filter (· != a), recentCe := put sl.recentCe a s.now }) := by
  unfold execCorrectedWriteBack
  simp only [List.contains_iff_mem.2 h, Bool.not_true, Bool.false_eq_true, if_false]
  rfl

theorem State.correct_of_ce {s : State} {a : Nat} {k : List (Nat × Byte)}
    (h : sliceDecode (s.mem.errsOf a) (s.mem.marked a) = .ce k) : s.correct a = s.onMem fun m => m.clearFlips a := by
  simp only [State.correct, h]

theorem State.correct_of_ne {s : State} {a : Nat} (h : ∀ k, sliceDecode (s.mem.errsOf a) (s.mem.marked a) ≠ .ce k) :
    s.correct a = s := by
  unfold State.correct
  split
  · next k hk => exact absurd hk (h k)
  · rfl

theorem execDieWriteBack_pending {s : State} {m a : Nat} (h : a ∈ (s.outer m).writeBacks) :
    execDieWriteBack m a s = .next ((s.onMem fun mm => mm.dieFix a).modOuter m fun o =>
      { o with writeBacks := o.writeBacks.filter (· != a) }) := by
  unfold execDieWriteBack
  simp only [List.contains_iff_mem.2 h, Bool.not_true, Bool.false_eq_true, if_false]

/-- Settles O31. -/
theorem controllersKeepMemory : Obligations.ControllersKeepMemory := by
  refine ⟨?_, ?_, ?_, ?_, ?_, ?_, ?_, ?_⟩
  · intro c a s ha done seen
    have hx := execCorrectedWriteBack_pending ha
    exact ⟨fun k hk => hx.trans (by rw [State.correct_of_ce hk]), fun hk => hx.trans (by rw [State.correct_of_ne hk])⟩
  · intro stack quadrant layer s
    exact ⟨_, rfl, rfl, by simp [State.onHeat, lookD_put_same]⟩
  · intro c s sl h₁ h₂ h₃ h₄ h₅ read
    have hread : read = s.scrubRead c := rfl
    obtain ⟨hpos, hce, hue⟩ := ((s.scrubRead c).slice c).afterScrub_fields (sl.scrubPage (sl.scrubPos / 1024)) sl.scrubPos s.now
    refine ⟨_, execScrubBurst_reads h₁ h₂ h₃ h₄ h₅, s.scrubRead_mem c, rfl, ?_⟩
    rw [State.modSlice_slice, hread]
    exact ⟨hpos, hce, hue⟩
  · intro c m s limit
    refine ⟨fun h => ?_, fun h => ?_, fun h => ?_⟩
    · exact congrArg Host.Outcome.next (if_pos h)
    · exact congrArg Host.Outcome.next (if_pos h)
    · exact congrArg Host.Outcome.next (if_neg (Nat.not_lt.2 h))
  · intro m a s ha
    refine ⟨_, execDieWriteBack_pending ha, ?_, fun _ => rfl, fun _ => rfl, fun x hx => (List.mem_filter.1 hx).1⟩
    rw [State.modOuter_outer]
    rfl
  · intro m channel bank s n
    refine ⟨?_, ?_, rfl⟩
    · show Host.Outcome.next (s.modOuter m _) = _
      simp only [State.modOuter, n, true_and]
    · show Host.Outcome.next (s.modOuter m _) = _
      simp only [State.modOuter, Bool.false_eq_true, false_and, if_false]
  · intro m s h₁ h₂ h₃ h₄ h₅
    obtain ⟨hmem, hpos⟩ := s.outerScrubRead_spec m
    refine ⟨_, execOuterScrub_walks h₁ h₂ h₃ h₄ h₅, hmem, ?_⟩
    rw [State.modOuter_outer, Outer.afterScrub_scrubPos, hpos]
  · intro slices packages s hd hc
    show execCheckerSelftest slices packages s = _
    unfold execCheckerSelftest
    rw [if_neg (by simp [hd, hc])]

end Sys2Proof.Machine
end

