-- ==== Sys2Proof/Proofs/Links.lean ====
section
/-!
Lysdel links: training and leaving UP (R368 to R373, R393), and the reception of flits (R359 to R367, R392).
-/

namespace Sys2Proof.Machine

/-! ### The fields of a link -/

@[simp] theorem State.emit_linkSt (s : State) (m : Sent) (l : Nat) : (s.emit m).linkSt l = s.linkSt l := rfl
@[simp] theorem State.alert_linkSt (s : State) (b l : Nat) : (s.alert b).linkSt l = s.linkSt l := rfl
@[simp] theorem State.logEvent_linkSt (s : State) (e : Ev) (i : EvInfo) (l : Nat) : (s.logEvent e i).linkSt l = s.linkSt l := by
  rw [State.linkSt, State.logEvent_lys]
  rfl

theorem State.linkTo_linkSt (s : State) (l : Nat) (st : LState) :
    (s.linkTo l st).linkSt l = { (if (s.linkSt l).state = .up then (s.linkSt l).clear else s.linkSt l) with state := st } := by
  unfold State.linkTo
  dsimp only
  split
  · rw [State.alert_linkSt, State.modLink_linkSt]
  · rw [State.modLink_linkSt]

theorem State.leaveUp_linkSt {s : State} {l : Nat} (h : (s.linkSt l).state = .up) :
    (s.leaveUp l).linkSt l =
      { (s.linkSt l).clear with state := .retrain, retrains := satAdd 8 (s.linkSt l).retrains 1, retrainBit := false } := by
  rw [State.leaveUp, State.modLink_linkSt, State.linkTo_linkSt, if_pos h]
  rfl

/-! ### Training -/

/-- A partner's MGMT_ID on a link in IDENTIFY is recorded, and the link enters UP or MISMATCH (R368, R369, R371). -/
theorem execMgmtId_identify {s : State} {l device link version : Nat} {system : Word} {torus : Bool}
    (h : (s.linkSt l).state = .identify) :
    ∃ t, execMgmtId l system device link version torus s = .next t ∧ (t.linkSt l).partnerId = device % 32768 ∧
      (t.linkSt l).partnerKnown = true ∧ (t.linkSt l).partnerLink = link % 8 ∧
      (t.linkSt l).state = (if s.refusesPartner l system device link version torus then .mismatch else .up) ∧
      (s.refusesPartner l system device link version torus = false → (t.linkSt l).width = (s.linkSt l).width ∧
        (t.linkSt l).failures = 0 ∧ (t.linkSt l).txSeq = 0 ∧ (t.linkSt l).rxSeq = 0 ∧ (t.linkSt l).upSince = s.now) := by
  unfold execMgmtId
  rw [if_neg (Classical.not_not.2 h)]
  dsimp only
  split
  · next hr =>
    refine ⟨_, rfl, ?_⟩
    have hi : (s.linkSt l).state ≠ .up := by rw [h]; decide
    rw [State.logEvent_linkSt, State.modLink_linkSt, State.linkTo_linkSt, State.modLink_linkSt]
    dsimp only
    rw [if_neg hi]
    exact ⟨rfl, rfl, rfl, rfl, fun hf => absurd (hr.symm.trans hf) Bool.true_eq_false.mp⟩
  · refine ⟨_, rfl, ?_⟩
    have hu : ∀ u : State, ((if (s.linkSt l).width < 8 then u.logEvent .linkDegraded { ut := utLink, ui := l } else u).linkSt l) =
        u.linkSt l := fun u => by split <;> simp
    rw [hu, State.modLink_linkSt, State.modLink_linkSt]
    exact ⟨rfl, rfl, rfl, rfl, fun _ => ⟨rfl, rfl, rfl, rfl, rfl⟩⟩

/-- Disabling drains a link that is not disabled already, and cancels a latched enable (R373). -/
theorem State.disableLink_linkSt (s : State) (l : Nat) :
    ((s.disableLink l).linkSt l).enable = false ∧
      ((s.disableLink l).linkSt l).state = (if (s.linkSt l).state = .disabled then .disabled else .draining) ∧
      ((s.linkSt l).state = .draining → ((s.disableLink l).linkSt l).pendingOn = false) := by
  unfold State.disableLink
  cases h : (s.linkSt l).state <;> simp [h]

theorem execLinkQuarantine_violated {s : State} {l : Nat} (h : (s.linkSt l).state = .up)
    (hv : 16 ≤ ((s.linkSt l).violations.filter fun t => decide (s.now < t + 10000000)).length) :
    ∃ t, execLinkQuarantine l s = .next t ∧ t.linkSt l = { (s.linkSt l).clear with
      state := .quarantine, quarantines := satAdd 8 (s.linkSt l).quarantines 1, violations := []
      backoffMs := min 10240 (2 * (s.linkSt l).backoffMs) } := by
  unfold execLinkQuarantine
  dsimp only
  rw [if_neg (by simp only [h, ne_eq, not_true_eq_false, false_or]; omega)]
  refine ⟨_, rfl, ?_⟩
  rw [State.logEvent_linkSt, State.modLink_linkSt, State.linkTo_linkSt, if_pos h]
  rfl

/-- Settles O36: each event by the state of its link. -/
theorem linksTrainAndLeave : Obligations.LinksTrainAndLeave := by
  intro l s k attempt failed
  have hfail : s.attemptFailed l = failed := rfl
  refine ⟨?_, ?_, ?_, ?_, ?_, ?_, ?_, ?_, fun system device link version torus h => execMgmtId_identify h, ?_, ?_,
    ⟨_, rfl, s.disableLink_linkSt l⟩, ?_, ?_, ?_, execLinkQuarantine_violated, ?_⟩
  · exact (apply_ite _ _ _ _).symm
  · exact (apply_ite _ _ _ _).symm
  · exact (apply_ite _ _ _ _).symm
  · exact (apply_ite _ _ _ _).symm
  · show execAttemptTimeout l s = _
    unfold execAttemptTimeout
    rw [hfail]
    cases (s.linkSt l).state <;> simp [LState.attempting]
  · intro lanes
    show execPartnerDetected l lanes s = _
    unfold execPartnerDetected
    by_cases h : (s.linkSt l).state = .detect <;> by_cases h2 : lanes % 256 = 0 <;> simp [k, h, h2]
  · intro rx tx hk
    have hn : ¬ ((s.linkSt l).state ≠ .equalise ∧ (s.linkSt l).state ≠ .retrain) := fun hn => hk.elim hn.1 hn.2
    refine ⟨fun h => ?_, fun w g h => ?_⟩
    · show execEqualiseDone l rx tx s = _
      unfold execEqualiseDone
      simp only [if_neg hn, h, hfail, k]
    · show execEqualiseDone l rx tx s = _
      unfold execEqualiseDone
      simp only [if_neg hn, h, k]
  · intro rev pol
    show execDeskewDone l rev pol s = _
    unfold execDeskewDone
    by_cases h : (s.linkSt l).state = .deskew <;> simp [k, h]
  · intro h
    exact ⟨if_neg h, if_neg h⟩
  · intro h
    exact ⟨s.leaveUp l, if_pos h, if_pos h, State.leaveUp_linkSt h⟩
  · intro h
    show Host.Outcome.next (s.enableLink l) = _
    simp only [State.enableLink, show (s.linkSt l).state = .disabled from h]
  · intro h
    show Host.Outcome.next (s.enableLink l) = _
    simp only [State.enableLink, show (s.linkSt l).state = .draining from h]
  · intro h
    show execLinkDrainEnd l s = _
    unfold execLinkDrainEnd
    rw [if_neg (Classical.not_not.2 h)]
  · exact (apply_ite _ _ _ _).symm

/-! ### Reception -/

theorem LinkSt.carries_of_up {k : LinkSt} (h : k.state = .up) : k.carries = true := by simp [LinkSt.carries, h]

theorem State.crcError_linkSt (s : State) (l : Nat) :
    (s.crcError l).linkSt l =
      { s.linkSt l with crcErrors := satAdd 16 (s.linkSt l).crcErrors 1, rxDropping := true } := by
  rw [State.crcError, State.emit_linkSt, State.modLink_linkSt]

/-- A flit whose CRC fails is dropped, and the expected one asked for (R364, R365). -/
theorem State.recvFlit_bad {s : State} {l : Nat} {f : Flit} (h : (s.linkSt l).state = .up) (hc : f.crc ≠ flitCrc f) :
    s.recvFlit l f = s.crcError l := by
  unfold State.recvFlit
  simp only [LinkSt.carries_of_up h, Bool.not_true, Bool.false_eq_true, if_false, if_pos hc]

/-- The expected flit, with a good CRC, is accepted. -/
theorem State.recvFlit_expected {s : State} {l : Nat} {f : Flit} (h : (s.linkSt l).state = .up) (hc : f.crc = flitCrc f)
    (hq : f.seq = (s.linkSt l).rxSeq) : s.recvFlit l f = s.acceptFlit l f := by
  have ha : (f.seq + 4096 - (s.linkSt l).rxSeq) % 4096 = 0 := by omega
  unfold State.recvFlit
  simp only [LinkSt.carries_of_up h, Bool.not_true, Bool.false_eq_true, if_false, if_neg (Classical.not_not.2 hc), ha, if_true]

/-- A whole single-flit packet waits to be delivered (R362, R363, R367). -/
theorem State.acceptFlit_single {s : State} {l : Nat} {f : Flit} (hpos : f.pos = 0) (hres : f.reserved = 0) (hvl : f.vl ≤ 3)
    (hlen : 0 < f.length) (hlen2 : f.length ≤ 244) (hroom : lookD (s.linkSt l).rxUsed (vlc f.vl f.cls) 0 < allotment f.vl)
    (hpart : look (s.linkSt l).rxPart (vlc f.vl f.cls) = none)
    (hok : packetOk (parsePacket f (f.payload.take f.length) (List.replicate (f.payload.take f.length).length f.poison))
      (f.payload.take f.length) = true) :
    s.acceptFlit l f = (((s.modLink l fun k => { k with rxSeq := (k.rxSeq + 1) % 4096, rxDropping := false }).modLink l fun k =>
        { k with rxUsed := put k.rxUsed (vlc f.vl f.cls) (lookD (s.linkSt l).rxUsed (vlc f.vl f.cls) 0 + 1)
                 rxSkip := k.rxSkip.filter (· != vlc f.vl f.cls) }).modLink l fun k =>
        { k with rxPart := del k.rxPart (vlc f.vl f.cls) }).modLink l fun k =>
        { k with rxDone := k.rxDone ++ [(parsePacket f (f.payload.take f.length)
          (List.replicate (f.payload.take f.length).length f.poison), 1)] } := by
  have h1 : ((s.modLink l fun k => { k with rxSeq := (k.rxSeq + 1) % 4096, rxDropping := false }).linkSt l) =
      { s.linkSt l with rxSeq := ((s.linkSt l).rxSeq + 1) % 4096, rxDropping := false } :=
    State.modLink_linkSt s l fun k => { k with rxSeq := (k.rxSeq + 1) % 4096, rxDropping := false }
  unfold State.acceptFlit
  simp only [h1, hpart, Option.getD_none, List.nil_append, Nat.not_le.2 hroom, if_false, hpos, hres, Option.isSome_none,
    Bool.false_eq_true, hok, if_true]
  rw [if_neg (by simp only [ne_eq, not_true_eq_false, false_or]; omega), if_neg (by simp), if_neg (by simp), if_neg (by simp)]

/-- The flits of an uncorrectable frame are CRC errors: nothing of it is received. -/
theorem State.crcErrors_linkSt (s : State) (l : Nat) (fs : List Flit) :
    let t := fs.foldl (fun s _ => s.crcError l) s
    (t.linkSt l).rxSeq = (s.linkSt l).rxSeq ∧ (t.linkSt l).rxDone = (s.linkSt l).rxDone ∧
      (t.linkSt l).fecUncorrectable = (s.linkSt l).fecUncorrectable ∧ (t.linkSt l).txBuffer = (s.linkSt l).txBuffer := by
  induction fs generalizing s with
  | nil => exact ⟨rfl, rfl, rfl, rfl⟩
  | cons f fs ih =>
    have h := ih (s.crcError l)
    rw [State.crcError_linkSt] at h
    exact h

theorem State.emits_sent (s : State) (l : Nat) (fs : List Flit) :
    (fs.foldl (fun s f => s.emit (.flit l f)) s).sent = s.sent ++ fs.map (.flit l) ∧
      (fs.foldl (fun s f => s.emit (.flit l f)) s).linkSt l = s.linkSt l := by
  induction fs generalizing s with
  | nil => exact ⟨(List.append_nil _).symm, rfl⟩
  | cons f fs ih =>
    obtain ⟨h1, h2⟩ := ih (s.emit (.flit l f))
    exact ⟨h1.trans (List.append_assoc _ _ _), h2⟩

/-- Resent flits go out in order, each counted (R365). -/
theorem State.resend_spec (s : State) (l : Nat) (fs : List Flit) :
    (s.resend l fs).sent = s.sent ++ fs.map (.flit l) ∧
      ((s.resend l fs).linkSt l).replays = satAdd 32 (s.linkSt l).replays fs.length ∧
      ((s.resend l fs).linkSt l).txBuffer = (s.linkSt l).txBuffer := by
  obtain ⟨h1, h2⟩ := State.emits_sent (s.modLink l fun k => { k with replays := satAdd 32 k.replays fs.length }) l fs
  refine ⟨h1, ?_, ?_⟩
  · rw [State.resend, h2, State.modLink_linkSt]
  · rw [State.resend, h2, State.modLink_linkSt]

/-- A PROTOCOL NAK takes a single-flit packet from the replay buffer (R392). -/
theorem State.protocolNak_single {s : State} {l seq : Nat} {x : Flit} (hf : (s.linkSt l).txBuffer.find? (·.seq == seq) = some x)
    (hp : x.pos = 0) :
    ((s.protocolNak l seq).linkSt l).txBuffer = (s.linkSt l).txBuffer.filter (· != x) ∧ (s.protocolNak l seq).sent = s.sent := by
  unfold State.protocolNak
  simp only [hf, hp, true_or, if_true, List.append_nil]
  refine ⟨?_, by rw [State.logEvent_sent]; rfl⟩
  rw [State.logEvent_linkSt, State.modLink_linkSt]
  refine List.filter_congr fun y _ => ?_
  by_cases h : y = x <;> simp [h]

/-- Settles O37. -/
theorem flitsAreTakenInOrder : Obligations.FlitsAreTakenInOrder := by
  intro l f s k
  refine ⟨?_, ?_, ?_, ?_, ?_, ?_, ?_, ?_⟩
  · intro h hc
    exact ⟨_, congrArg Host.Outcome.next (State.recvFlit_bad h hc), by exact s.crcError_linkSt l, rfl⟩
  · intro h hc hq hpos hres hvl hlen hlen2 _ hroom hpart bs hok
    have hx := (State.recvFlit_expected h hc hq).trans (State.acceptFlit_single hpos hres hvl hlen hlen2 hroom hpart hok)
    refine ⟨_, congrArg Host.Outcome.next hx, ?_⟩
    simp only [State.modLink_linkSt, lookD_put_same]
    exact ⟨rfl, rfl, rfl, rfl⟩
  · intro h1 h2
    show Host.Outcome.next (s.recvFlit l f) = _
    have hn : (s.linkSt l).carries = false := by
      have h1' : (s.linkSt l).state ≠ .up := h1
      have h2' : (s.linkSt l).state ≠ .draining := h2
      simp [LinkSt.carries, h1', h2']
    simp only [State.recvFlit, hn, Bool.not_false, if_true]
  · intro cw flits fcb h hn
    have hc := LinkSt.carries_of_up (k := s.linkSt l) h
    have hany : (cw.any fun n => decide (8 < n)) = true := by simpa using hn
    show ∃ t, execLinkFrameRx l cw flits fcb s = .next t ∧ _
    unfold execLinkFrameRx
    simp only [hc, hany, Bool.not_true, Bool.false_eq_true, if_false, if_true]
    refine ⟨_, rfl, ?_⟩
    have he := State.crcErrors_linkSt (s.modLink l fun k => { k with
      fecUncorrectable := satAdd 16 k.fecUncorrectable 1
      badFrames := (k.badFrames.filter fun t => decide (s.now < t + 1000000)) ++ [s.now] }) l flits
    rw [State.modLink_linkSt] at he
    exact he
  · intro cw fcb h hn hfcb
    have hc := LinkSt.carries_of_up (k := s.linkSt l) h
    have hany : (cw.any fun n => decide (8 < n)) = false := by simpa using hn
    have hf : ∀ u : State, u.recvFcb l fcb = u := fun u => by simp [State.recvFcb, hfcb]
    refine ⟨?_, congrArg Host.Outcome.next (hf s)⟩
    show execLinkFrameRx l cw [] fcb s = _
    unfold execLinkFrameRx
    simp only [hc, hany, Bool.not_true, Bool.false_eq_true, if_false, List.foldl_nil, hf]
  · intro seq
    exact ⟨_, rfl, s.resend_spec l (k.txBuffer.dropWhile fun f => f.seq != seq)⟩
  · obtain ⟨h1, -, h2⟩ := s.resend_spec l k.txBuffer
    exact ⟨_, rfl, h1, h2⟩
  · intro seq x hf hp
    exact ⟨_, rfl, State.protocolNak_single hf hp⟩

end Sys2Proof.Machine
end

