-- ==== Sys2Proof/Proofs/ChannelPackets.lean ====
section
/-!
The commands of the channels, and the events of a router (R341, R344, R347 to R356, R548).
-/

namespace Sys2Proof.Machine

theorem State.onChannel_channel (s : State) (ep i : Nat) (f : Channel → Channel) :
    (s.onChannel ep i f).channel ep i = f (s.channel ep i) := s.modChannel_channel ep i f

/-- Pressure alone changes with the marks of R351. -/
theorem Channel.marks_fields (c : Channel) :
    c.marks.words = c.words ∧ c.marks.openBy = c.openBy ∧ c.marks.reading = c.reading := by
  unfold Channel.marks
  split
  · exact ⟨rfl, rfl, rfl⟩
  · split <;> exact ⟨rfl, rfl, rfl⟩

/-! ### Open requests and grants -/

theorem execChannelOpenRequest_served {s : State} {ep i producer : Nat} (h : s.epRefusal ep = none) :
    ((s.channel ep i).enable = false →
      execChannelOpenRequest ep i producer s = .next (s.emit (.ack ep producer stNotReady))) ∧
    ((s.channel ep i).enable = true → 64 ≤ (s.channel ep i).opens.length →
      execChannelOpenRequest ep i producer s = .next (s.emit (.ack ep producer stRetry))) ∧
    ((s.channel ep i).enable = true → (s.channel ep i).opens.length < 64 →
      execChannelOpenRequest ep i producer s = .next (s.onChannel ep i fun c => { c with opens := c.opens ++ [producer] })) := by
  unfold execChannelOpenRequest
  simp only [h]
  refine ⟨fun he => ?_, fun he hl => ?_, fun he hl => ?_⟩
  · simp only [he, Bool.not_false, if_true]
  · simp only [he, Bool.not_true, Bool.false_eq_true, if_false, if_pos hl]
  · simp only [he, Bool.not_true, Bool.false_eq_true, if_false, if_neg (Nat.not_le.2 hl)]

theorem execChannelOpenRequest_fenced {s : State} {ep i producer cd : Nat} (hep : epCluster ep = some cd) (hf : s.fenced cd = true) :
    execChannelOpenRequest ep i producer s = .next ((s.countFenced cd).emit (.ack ep producer stBadArg)) := by
  have h : s.epRefusal ep = some (some cd, stBadArg) := by simp only [State.epRefusal, hep, hf, if_true]
  simp only [execChannelOpenRequest, h, if_true]

theorem execChannelGrant_oldest {s : State} {ep i producer : Nat} {rest : List Nat} (hq : (s.channel ep i).opens = producer :: rest)
    (ho : (s.channel ep i).openBy = none) (hd : (s.channel ep i).draining = none) (hp : (s.channel ep i).pressure = false)
    (hr : (s.channel ep i).maxPacket ≤ (s.channel ep i).free) :
    execChannelGrant ep i s = .next ((s.onChannel ep i fun c =>
      { c with opens := rest, openBy := some producer, openLeft := c.maxPacket }).emit (.ack ep producer stOk)) := by
  unfold execChannelGrant
  simp only [hq, ho, hd, hp, Option.isSome_none, Bool.or_self, Bool.false_or, decide_eq_true_eq, if_neg (Nat.not_lt.2 hr)]

theorem execChannelGrant_waits {s : State} {ep i : Nat} (h : (s.channel ep i).openBy.isSome = true ∨
    (s.channel ep i).draining.isSome = true ∨ (s.channel ep i).pressure = true ∨ (s.channel ep i).free < (s.channel ep i).maxPacket) :
    execChannelGrant ep i s = .next s := by
  unfold execChannelGrant
  dsimp only
  split
  · rfl
  · exact if_pos (by simpa only [Bool.or_eq_true, decide_eq_true_eq, or_assoc] using h)

/-! ### Words -/

theorem execChannelWord_open {s : State} {ep i producer : Nat} {data : List Byte} {poison : Bool}
    (hd : (s.channel ep i).draining ≠ some producer) (ho : (s.channel ep i).openBy = some producer) :
    (2 ≤ (s.channel ep i).openLeft →
      execChannelWord ep i producer data .data poison s = .next (s.onChannel ep i fun c => Channel.marks
        { c with words := c.words ++ [{ kind := .data, data := data.take 32, poison := poison }], openLeft := c.openLeft - 1 })) ∧
    execChannelWord ep i producer data .endK poison s = .next (s.onChannel ep i fun c => Channel.marks
      { c with words := c.words ++ [{ kind := .endK, data := data.take 32, poison := poison }], openBy := none, openLeft := 0 }) := by
  constructor
  · intro hl
    unfold execChannelWord
    simp [hd, ho, hl]
  · unfold execChannelWord
    simp [hd, ho]

theorem execChannelWord_draining {s : State} {ep i producer : Nat} {data : List Byte} {poison : Bool}
    (hd : (s.channel ep i).draining = some producer) :
    execChannelWord ep i producer data .data poison s = .next (s.onChannel ep i fun c =>
      { c with wordsFlushed := satAdd 32 c.wordsFlushed 1 }) ∧
    execChannelWord ep i producer data .endK poison s = .next ((s.onChannel ep i fun c =>
      { c with wordsFlushed := satAdd 32 c.wordsFlushed 1, draining := none }).emit (.ack ep producer stFlushed)) := by
  constructor
  · unfold execChannelWord
    simp [hd]
  · unfold execChannelWord
    simp [hd]

theorem execChannelWordRead_oldest {s : State} {ep i : Nat} {w : CWord} {rest : List CWord}
    (hw : (s.channel ep i).words = w :: rest) :
    (w.poison = false → execChannelWordRead ep i s = .next (s.onChannel ep i fun c => Channel.marks
      { c with words := rest, reading := w.kind == .data })) ∧
    (w.poison = true → w.kind ≠ .flushed → execChannelWordRead ep i s = .next ((s.onChannel ep i fun c => Channel.marks
      { c with words := afterPacket c.words, reading := false }).logEvent .poisonControl
        { ut := (epUnit ep).1, ui := (epUnit ep).2, status := stBadArg })) := by
  unfold execChannelWordRead
  simp only [hw]
  refine ⟨fun hp => ?_, fun hp hk => ?_⟩
  · rw [if_neg (by simp [hp])]
  · rw [if_pos ⟨hp, hk⟩]

theorem Channel.flush_fields (c : Channel) : c.flush.words = [flushedWord] ∧ c.flush.openBy = none ∧ c.flush.reading = false :=
  Channel.marks_fields _

/-! ### Routers -/

theorem execFlitCrcReplay_replays (s : State) (cd dir : Nat) :
    (lookD (s.cluster cd).streak dir 0 + 1 ≠ 16 → execFlitCrcReplay cd dir s = .next ((s.modCluster cd fun k =>
      { k with replays := satAdd 32 k.replays 1, streak := put k.streak dir (lookD (s.cluster cd).streak dir 0 + 1) }).logEvent
        .silkReplay { ut := utRouter, ui := cd })) ∧
    (lookD (s.cluster cd).streak dir 0 + 1 = 16 → execFlitCrcReplay cd dir s = .next (((s.modCluster cd fun k => { k with
      replays := satAdd 32 k.replays 1, streak := del k.streak dir, linkFailed := k.linkFailed ||| (1#4 <<< (dir % 4)) }).logEvent
        .silkReplay { ut := utRouter, ui := cd }).logEvent .silkLinkFail { ut := utRouter, ui := cd })) := by
  unfold execFlitCrcReplay
  refine ⟨fun h => ?_, fun h => ?_⟩
  · simp only [if_neg h]
  · simp only [if_pos h]

/-- Settles O35. -/
theorem channelsCarryPackets : Obligations.ChannelsCarryPackets := by
  constructor
  · intro ep i producer s c
    refine ⟨execChannelOpenRequest_served, fun cd => execChannelOpenRequest_fenced, fun rest => execChannelGrant_oldest,
      execChannelGrant_waits, fun data poison => execChannelWord_open, fun data poison => execChannelWord_draining,
      fun w rest => execChannelWordRead_oldest, rfl, fun hp => ⟨_, rfl, ?_⟩, rfl, fun v => ?_⟩
    · rw [State.onChannel_channel, hp]
      exact (s.channel ep i).flush_fields
    · exact (apply_ite _ _ _ _).symm
  · intro cd dir s n
    refine ⟨(execFlitCrcReplay_replays s cd dir).1, (execFlitCrcReplay_replays s cd dir).2, ?_, (apply_ite _ _ _ _).symm⟩
    show execResettingAnswerTimeout cd s = _
    unfold execResettingAnswerTimeout
    cases (s.cluster cd).inReset <;> rfl

end Sys2Proof.Machine
end

