-- ==== Sys2Proof/Proofs/PageRetirement.lean ====
section
/-!
What accesses to memory leave of the packages and slices: everything but the counters of errors, the pending write-backs and
records, and the notes on requests under way.
-/

namespace Sys2Proof.Machine

/-- A package differs only where an access to memory may change it. -/
structure Outer.Touched (o o' : Outer) : Prop where
  eq : o' = { o with
    uncorrectable := o'.uncorrectable, dieCorrected := o'.dieCorrected, writeBacks := o'.writeBacks
    dieCeCount := o'.dieCeCount, dieCeTime := o'.dieCeTime, sentReqs := o'.sentReqs, lateRecords := o'.lateRecords }

/-- A slice differs only where an access to memory may change it. -/
structure Slice.Touched (o o' : Slice) : Prop where
  eq : o' = { o with
    uncorrectable := o'.uncorrectable, addressErr := o'.addressErr, corrected := o'.corrected
    writeBacks := o'.writeBacks, recentCe := o'.recentCe }

/-- Every package and every slice differs only where an access to memory may change it. -/
structure State.Touched (s t : State) : Prop where
  outer : ∀ m, (s.outer m).Touched (t.outer m)
  slice : ∀ c, (s.slice c).Touched (t.slice c)

theorem Outer.Touched.refl (o : Outer) : o.Touched o := ⟨rfl⟩
theorem Slice.Touched.refl (o : Slice) : o.Touched o := ⟨rfl⟩

theorem Outer.Touched.trans {o p q : Outer} (h₁ : o.Touched p) (h₂ : p.Touched q) : o.Touched q := by
  constructor
  rw [h₂.eq, h₁.eq]

theorem Slice.Touched.trans {o p q : Slice} (h₁ : o.Touched p) (h₂ : p.Touched q) : o.Touched q := by
  constructor
  rw [h₂.eq, h₁.eq]

theorem Outer.Touched.running {o p : Outer} (h : o.Touched p) : p.running = o.running := by rw [h.eq]
theorem Outer.Touched.opsDone {o p : Outer} (h : o.Touched p) : p.opsDone = o.opsDone := by rw [h.eq]
theorem Outer.Touched.spares {o p : Outer} (h : o.Touched p) : p.spares = o.spares := by rw [h.eq]
theorem Outer.Touched.pagesRetired {o p : Outer} (h : o.Touched p) : p.pagesRetired = o.pagesRetired := by rw [h.eq]
theorem Slice.Touched.spares {o p : Slice} (h : o.Touched p) : p.spares = o.spares := by rw [h.eq]
theorem Slice.Touched.copying {o p : Slice} (h : o.Touched p) : p.copying = o.copying := by rw [h.eq]

namespace State.Touched

variable {s t u : State}

theorem refl (s : State) : s.Touched s := ⟨fun _ => .refl _, fun _ => .refl _⟩

theorem trans (h₁ : s.Touched t) (h₂ : t.Touched u) : s.Touched u :=
  ⟨fun m => (h₁.outer m).trans (h₂.outer m), fun c => (h₁.slice c).trans (h₂.slice c)⟩

/-- A step that leaves the tables of packages and slices. -/
theorem keep (h : s.Touched t) (ho : u.outers = t.outers) (hs : u.slices = t.slices) : s.Touched u := by
  refine h.trans ⟨fun m => ?_, fun c => ?_⟩
  · rw [State.outer, State.outer, ho]; exact .refl _
  · rw [State.slice, State.slice, hs]; exact .refl _

theorem onMem (h : s.Touched t) (f : Mem → Mem) : s.Touched (t.onMem f) := h.keep rfl rfl
theorem logEvent (h : s.Touched t) (e : Ev) (i : EvInfo) : s.Touched (t.logEvent e i) :=
  h.keep (State.logEvent_outers ..) (State.logEvent_slices ..)

theorem modOuter (h : s.Touched t) {m : Nat} {f : Outer → Outer} (hf : ∀ o : Outer, Outer.Touched o (f o)) : s.Touched (t.modOuter m f) := by
  refine h.trans ⟨fun x => ?_, fun _ => .refl _⟩
  by_cases hx : x = m
  · subst hx
    rw [State.modOuter_outer]
    exact hf _
  · rw [State.modOuter_outer_ne _ _ hx]
    exact .refl _

theorem modSlice (h : s.Touched t) {c : Nat} {f : Slice → Slice} (hf : ∀ o : Slice, Slice.Touched o (f o)) : s.Touched (t.modSlice c f) := by
  refine h.trans ⟨fun _ => .refl _, fun x => ?_⟩
  by_cases hx : x = c
  · subst hx
    rw [State.modSlice_slice]
    exact hf _
  · rw [State.modSlice_slice_ne _ _ hx]
    exact .refl _

theorem ite {p : Prop} [Decidable p] (h₁ : s.Touched t) (h₂ : s.Touched u) : s.Touched (if p then t else u) := by
  split <;> assumption

theorem foldl {α : Type} {f : State → α → State} {l : List α} (hf : ∀ x a, s.Touched x → s.Touched (f x a)) (h : s.Touched t) :
    s.Touched (l.foldl f t) := by
  induction l generalizing t with
  | nil => exact h
  | cons a l ih => exact ih (hf t a h)

end State.Touched

/-! ### Reads -/

theorem State.sliceOutcome_touched (s : State) (c unit : Nat) (o : RdOut) : s.Touched (s.sliceOutcome c unit o) := by
  have h0 : s.Touched (if (look (s.slice c).recentCe unit).isSome then
      s.modSlice c fun sl => { sl with recentCe := del sl.recentCe unit } else s) :=
    .ite (.modSlice (.refl s) fun _ => ⟨rfl⟩) (.refl s)
  unfold State.sliceOutcome
  cases o with
  | ok => exact h0
  | poisoned _ => exact h0
  | ce _ =>
    have h1 := (h0.modSlice (c := c) (f := fun sl => { sl with
      corrected := satAdd 32 sl.corrected 1, writeBacks := insertSet sl.writeBacks unit }) fun _ => ⟨rfl⟩).logEvent .sliceCe
        { ut := utSlice, ui := c, address := unit }
    dsimp only
    split
    · exact .ite (h1.logEvent _ _) h1
    · exact h1
  | ue => exact .logEvent (.modSlice h0 fun _ => ⟨rfl⟩) _ _
  | address => exact .logEvent (.modSlice h0 fun _ => ⟨rfl⟩) _ _

theorem State.readCodeword_touched (s : State) (c unit : Nat) : s.Touched (s.readCodeword c unit).1 := by
  have h := s.sliceOutcome_touched c unit (if (s.mem.errsOf unit).isEmpty then (if s.mem.marked unit then .poisoned [] else .ok)
    else sliceDecode (s.mem.errsOf unit) (s.mem.marked unit))
  unfold State.readCodeword
  dsimp only
  split <;> simp_all only

theorem State.countDie_touched (s : State) (m unit n : Nat) : s.Touched (s.countDie m unit n) := by
  unfold State.countDie State.reportDie State.outerEvent
  refine .ite (.refl s) ?_
  have h := State.Touched.modOuter (.refl s) (m := m) (f := fun o => { o with
      dieCorrected := satAdd 32 o.dieCorrected n, writeBacks := insertSet o.writeBacks (unitBase unit)
      dieCeCount := put o.dieCeCount (bankOf unit) (lookD (s.outer m).dieCeCount (bankOf unit) 0 + n) }) fun _ => ⟨rfl⟩
  dsimp only
  split
  · exact .ite h (.logEvent (h.modOuter fun _ => ⟨rfl⟩) _ _)
  · exact .logEvent (h.modOuter fun _ => ⟨rfl⟩) _ _

theorem State.readOuterUnit_touched (s : State) (m unit : Nat) : s.Touched (s.readOuterUnit m unit).1 := by
  have h := s.countDie_touched m unit (s.mem.dieCes unit)
  unfold State.readOuterUnit State.countOuterUe State.outerEvent
  exact .ite (.logEvent (h.modOuter fun _ => ⟨rfl⟩) _ _) h

theorem State.visit_touched (s : State) (a n : Nat) : s.Touched (s.visit a n) := by
  unfold State.visit
  refine .foldl (fun x u h => ?_) (.refl s)
  split
  · exact h.trans (x.readCodeword_touched _ _)
  · exact h.trans (x.readOuterUnit_touched _ _)
  · exact h

/-! ### Writes -/

theorem State.overwrite_touched (s : State) (m unit : Nat) : s.Touched (s.overwrite m unit) :=
  .ite (.refl s) (.modOuter (.refl s) fun _ => ⟨rfl⟩)

theorem State.writeUnit_touched (s : State) (a : Nat) (bs : List Byte) (p : Bool) : s.Touched (s.writeUnit a bs p) := by
  unfold State.writeUnit
  dsimp only
  split
  · split
    · exact .modSlice (.onMem (.refl s) _) fun _ => ⟨rfl⟩
    · exact .modSlice (.onMem (s.readCodeword_touched _ _) _) fun _ => ⟨rfl⟩
  · split
    · exact .onMem (s.overwrite_touched _ _) _
    · exact .onMem ((s.readOuterUnit_touched _ _).trans (State.overwrite_touched _ _ _)) _
  · exact .onMem (.refl s) _

theorem State.writeUnits_touched (s : State) (n a : Nat) (bs : List Byte) (ps : List Bool) : s.Touched (s.writeUnits n a bs ps) := by
  induction n generalizing s a bs ps with
  | zero => exact .refl s
  | succ n ih => exact .ite (.refl s) ((s.writeUnit_touched _ _ _).trans (ih _ _ _ _))

theorem State.writeRange_touched (s : State) (a : Nat) (bs : List Byte) (ps : List Bool) : s.Touched (s.writeRange a bs ps) :=
  s.writeUnits_touched _ _ _ _

theorem State.flushRecords_touched (s : State) : s.Touched s.flushRecords := by
  refine .foldl (fun x m h => .foldl (fun y r h => .ite h ?_) h) (.refl s)
  exact (h.modOuter fun _ => ⟨rfl⟩).trans (State.writeRange_touched _ _ _ _)

theorem State.Accessed.foldl {α : Type} {s t : State} {f : State → α → State} {l : List α}
    (hf : ∀ x a, s.Accessed x → s.Accessed (f x a)) (h : s.Accessed t) : s.Accessed (l.foldl f t) := by
  induction l generalizing t with
  | nil => exact h
  | cons a l ih => exact ih (hf t a h)

theorem State.Accessed.retires {s t : State} (h : s.Accessed t) : t.ctl.retires = s.ctl.retires := by rw [h.eq]

/-- Store what was read of a codeword, corrected where it could be. -/
def State.heal (r : State × List Byte × Bool) (u : Nat) : State :=
  r.1.onMem fun m => ((m.write u r.2.1).setMark u r.2.2).clearFlips u

theorem State.heal_instars (r : State × List Byte × Bool) (u : Nat) : (State.heal r u).mem.instars = r.1.mem.instars :=
  Mem.write_instars _ _ _

/-- One codeword with errors of a page that is copied to its spare. -/
def State.healUnit (s : State) (u : Nat) : State :=
  match place u with
  | .slice c _ => State.heal (s.readCodeword c u) u
  | .outer m _ => State.heal (s.readOuterUnit m u) u
  | _ => s

theorem State.healRange_eq (s : State) (a n : Nat) : s.healRange a n = (s.mem.flipUnits a n).foldl State.healUnit s := by
  refine congrArg (fun f => List.foldl f s (s.mem.flipUnits a n)) (funext fun t => funext fun u => ?_)
  unfold State.healUnit
  cases place u with
  | slice c off =>
    dsimp only
    generalize t.readCodeword c u = r
    rfl
  | outer m off =>
    dsimp only
    generalize t.readOuterUnit m u = r
    rfl
  | _ => rfl

theorem State.healUnit_spec (s : State) (u : Nat) :
    s.Touched (s.healUnit u) ∧ s.Accessed (s.healUnit u) ∧ (s.healUnit u).mem.instars = s.mem.instars := by
  unfold State.healUnit
  split
  · exact ⟨.onMem (s.readCodeword_touched _ _) _, .onMem (s.readCodeword_accessed _ _) _, by
      rw [State.heal_instars, State.readCodeword_mem]⟩
  · exact ⟨.onMem (s.readOuterUnit_touched _ _) _, .onMem (s.readOuterUnit_accessed _ _) _, by
      rw [State.heal_instars, State.readOuterUnit_mem]⟩
  · exact ⟨.refl s, .refl s, rfl⟩

theorem State.healRange_touched (s : State) (a n : Nat) : s.Touched (s.healRange a n) := by
  rw [State.healRange_eq]
  exact .foldl (fun x u h => h.trans (x.healUnit_spec u).1) (.refl s)

theorem State.healRange_accessed (s : State) (a n : Nat) : s.Accessed (s.healRange a n) := by
  rw [State.healRange_eq]
  exact .foldl (fun x u h => h.trans (x.healUnit_spec u).2.1) (.refl s)

/-- Healing a range moves no content to another page: the instars stay. -/
theorem State.healRange_instars (s : State) (a n : Nat) : (s.healRange a n).mem.instars = s.mem.instars := by
  rw [State.healRange_eq]
  generalize s.mem.flipUnits a n = l
  induction l generalizing s with
  | nil => rfl
  | cons u l ih => exact (ih _).trans (s.healUnit_spec u).2.2

theorem Mem.instar_congr {m m' : Mem} (h : m.instars = m'.instars) (a : Nat) : m.instar a = m'.instar a := by
  rw [Mem.instar, Mem.instar, h]

/-! ### Spare pages and retirement (R212, R213, R215, R247, R248) -/

/-- With no RETIRE command waiting none completes. -/
theorem State.retireDone_idle {s : State} (h : s.ctl.retires = []) : s.retireDone = s := by
  have hc : { s.ctl with retires := [] } = s.ctl := by rw [← h]
  simp only [State.retireDone, h, List.filter_nil, List.foldl_nil, State.onCtl, hc]

/-- A package whose retired pages have reached the limit of R248. -/
def Outer.degrade (o : Outer) : Outer := { o with degraded := true }

theorem State.checkDegraded_fields (s : State) (m : Nat) :
    (s.checkDegraded m).mem = s.mem ∧ (s.checkDegraded m).fw = s.fw ∧ (s.checkDegraded m).ctl.retires = s.ctl.retires ∧
      ((s.checkDegraded m).outer m).spares = (s.outer m).spares ∧
      ((s.checkDegraded m).outer m).retired = (s.outer m).retired ∧
      ((s.checkDegraded m).outer m).retiring = (s.outer m).retiring ∧
      ((s.checkDegraded m).outer m).pagesRetired = (s.outer m).pagesRetired := by
  have hd : s.checkDegraded m = if 1024 ≤ (s.outer m).pagesRetired ∧ !(s.outer m).degraded then
      ((s.modOuter m Outer.degrade).logEvent .outerDegraded { ut := utOuter, ui := m }).onLife fun l =>
        { l with degradedPackages := l.degradedPackages ||| (1#16 <<< m) }
    else s := rfl
  rw [hd]
  split
  · have hr := ((State.Accessed.refl (s.modOuter m Outer.degrade)).logEvent .outerDegraded { ut := utOuter, ui := m }).retires
    have ho : (((s.modOuter m Outer.degrade).logEvent .outerDegraded { ut := utOuter, ui := m }).onLife fun l =>
        { l with degradedPackages := l.degradedPackages ||| (1#16 <<< m) }).outer m = (s.outer m).degrade := by
      rw [State.outer, State.onLife_outers, State.logEvent_outers]
      exact s.modOuter_outer m Outer.degrade
    rw [ho]
    exact ⟨State.logEvent_mem _ _ _, State.logEvent_fw _ _ _, hr, rfl, rfl, rfl, rfl⟩
  · exact ⟨rfl, rfl, rfl, rfl, rfl, rfl, rfl⟩

/-- A finished copy of a page switches the remap entry of its slice (R212). -/
def Slice.switchSpare (sl : Slice) (page a : Nat) (x : Nat × Nat) : Slice :=
  let old := sl.spares.findIdx? (· == some page)
  { sl with
    copying := sl.copying.filter (· != x)
    spares := (match old with | some i => sl.spares.set i none | none => sl.spares).set x.2 (some page)
    sparesLost := match old with | some i => insertSet sl.sparesLost i | none => sl.sparesLost
    writeBacks := sl.writeBacks.filter fun u => u / 0x10000 != a / 0x10000 }.recount

/-- The same for a page of a package (R247). -/
def Outer.switchSpare (o : Outer) (page : Nat) (x : Nat × Nat) : Outer :=
  let old := o.spares.findIdx? (· == some page)
  { o with
    copying := o.copying.filter (· != x)
    spares := (match old with | some i => o.spares.set i (some 65536) | none => o.spares).set x.2 (some page)
    pagesRetired := if old.isSome then o.pagesRetired else o.pagesRetired + 1 }

theorem Slice.switchSpare_new {sl : Slice} {page a : Nat} {x : Nat × Nat} (h : ∀ y ∈ sl.spares, y ≠ some page) :
    (sl.switchSpare page a x).spares = sl.spares.set x.2 (some page) ∧
      (sl.switchSpare page a x).copying = sl.copying.filter (· != x) := by
  have hold : sl.spares.findIdx? (· == some page) = none := by simpa using h
  simp only [Slice.switchSpare, Slice.recount, hold, and_self]

theorem Outer.switchSpare_new {o : Outer} {page : Nat} {x : Nat × Nat} (h : ∀ y ∈ o.spares, y ≠ some page) :
    (o.switchSpare page x).spares = o.spares.set x.2 (some page) ∧ (o.switchSpare page x).pagesRetired = o.pagesRetired + 1 := by
  have hold : o.spares.findIdx? (· == some page) = none := by simpa using h
  simp only [Outer.switchSpare, hold, Option.isSome_none, Bool.false_eq_true, if_false, and_self]

theorem execSpareCopyDone_switches {s : State} {c page i : Nat} (hr : s.ctl.retires = [])
    (hf : (s.slice c).copying.find? (fun x => x.1 == page) = some (page, i)) (hs : ∀ y ∈ (s.slice c).spares, y ≠ some page) :
    ∃ t, execSpareCopyDone c page s = .next t ∧ (t.slice c).spares = (s.slice c).spares.set i (some page) ∧
      (t.slice c).copying = (s.slice c).copying.filter (· != (page, i)) ∧
      t.fw.toRetire = s.fw.toRetire ++ [.sliceRemap c page i] ∧ ∀ a, t.mem.instar a = s.mem.instar a := by
  have hx : execSpareCopyDone c page s = .next (((((s.healRange (slicePageAddr c page) 0x10000).modSlice c fun sl =>
      sl.switchSpare page (slicePageAddr c page) (page, i)).onFw fun f =>
        { f with toRetire := f.toRetire ++ [.sliceRemap c page i] }).onLife fun l =>
          { l with slicePagesRetired := satAdd 32 l.slicePagesRetired 1 }).retireDone) := by
    simp only [execSpareCopyDone, hf]
    rfl
  have hacc := s.healRange_accessed (slicePageAddr c page) 0x10000
  have htch := (s.healRange_touched (slicePageAddr c page) 0x10000).slice c
  have hins := s.healRange_instars (slicePageAddr c page) 0x10000
  generalize s.healRange (slicePageAddr c page) 0x10000 = s1 at *
  rw [State.retireDone_idle (by exact hacc.retires.trans hr)] at hx
  obtain ⟨h1, h2⟩ := Slice.switchSpare_new (sl := s1.slice c) (page := page) (a := slicePageAddr c page) (x := (page, i))
    (by rw [htch.spares]; exact hs)
  have hsl := s1.modSlice_slice c fun sl => sl.switchSpare page (slicePageAddr c page) (page, i)
  refine ⟨_, hx, ?_, ?_, ?_, Mem.instar_congr hins⟩
  · exact (congrArg Slice.spares hsl).trans (h1.trans (by rw [htch.spares]))
  · exact (congrArg Slice.copying hsl).trans (h2.trans (by rw [htch.copying]))
  · exact congrArg (fun f : Fw => f.toRetire ++ [_]) hacc.fw

theorem execOuterSpareCopyDone_switches {s : State} {m page i : Nat} (hr : s.ctl.retires = [])
    (hf : (s.outer m).copying.find? (fun x => x.1 == page) = some (page, i)) (hs : ∀ y ∈ (s.outer m).spares, y ≠ some page) :
    ∃ t, execOuterSpareCopyDone m page s = .next t ∧ (t.outer m).spares = (s.outer m).spares.set i (some page) ∧
      (t.outer m).pagesRetired = (s.outer m).pagesRetired + 1 ∧
      t.fw.toRetire = s.fw.toRetire ++ [.outerRemap m page i] ∧ (∀ a, t.mem.instar a = s.mem.instar a) ∧
      (s.mem.flipUnits (outerAddr m + page * 0x200000) 0x200000 = [] → t.mem = s.mem) := by
  have hx : execOuterSpareCopyDone m page s = .next ((((((s.healRange (outerAddr m + page * 0x200000) 0x200000).modOuter m
      fun o => o.switchSpare page (page, i)).checkDegraded m).onFw fun f =>
        { f with toRetire := f.toRetire ++ [.outerRemap m page i] }).onLife fun l =>
          { l with outerPagesRetired := satAdd 32 l.outerPagesRetired 1 }).retireDone) := by
    simp only [execOuterSpareCopyDone, hf]
    rfl
  have hclean : s.mem.flipUnits (outerAddr m + page * 0x200000) 0x200000 = [] →
      s.healRange (outerAddr m + page * 0x200000) 0x200000 = s := fun hn => by rw [State.healRange_eq, hn]; rfl
  have hacc := s.healRange_accessed (outerAddr m + page * 0x200000) 0x200000
  have htch := (s.healRange_touched (outerAddr m + page * 0x200000) 0x200000).outer m
  have hins := s.healRange_instars (outerAddr m + page * 0x200000) 0x200000
  generalize s.healRange (outerAddr m + page * 0x200000) 0x200000 = s1 at *
  obtain ⟨hmem, hfw, hret, hsp, -, -, hpr⟩ := (s1.modOuter m fun o => o.switchSpare page (page, i)).checkDegraded_fields m
  rw [State.retireDone_idle (by exact hret.trans (hacc.retires.trans hr))] at hx
  obtain ⟨h1, h2⟩ := Outer.switchSpare_new (o := s1.outer m) (page := page) (x := (page, i)) (by rw [htch.spares]; exact hs)
  have ho := s1.modOuter_outer m fun o => o.switchSpare page (page, i)
  refine ⟨_, hx, ?_, ?_, ?_, fun a => ?_, fun hn => ?_⟩
  · refine hsp.trans ?_
    rw [ho, h1, htch.spares]
  · refine hpr.trans ?_
    rw [ho, h2, htch.pagesRetired]
  · exact congrArg (fun f : Fw => f.toRetire ++ [_]) (hfw.trans hacc.fw)
  · refine Mem.instar_congr ?_ a
    refine (congrArg Mem.instars hmem).trans ?_
    exact hins
  · refine hmem.trans ?_
    have h : s1.mem = s.mem := by rw [hclean hn]
    exact h

/-- A page of a slice leaves its populated part (R213). -/
def Slice.dropPage (sl : Slice) (page : Nat) : Slice :=
  { sl with retiring := sl.retiring.filter (· != page), retired := insertSet sl.retired page }.recount

theorem execPageEmptied_slice {s : State} {c page : Nat} (hr : s.ctl.retires = []) (hp : page ∈ (s.slice c).retiring)
    (ha : s.allocated (slicePageAddr c page) 0x10000 = false) :
    ∃ t, execPageEmptied 0 c page s = .next t ∧ page ∈ (t.slice c).retired ∧ page ∉ (t.slice c).retiring ∧
      (t.slice c).pagesUsable = 192 - (t.slice c).retired.length ∧ t.fw.toRetire = s.fw.toRetire ++ [.slicePage c page] ∧
      t.mem = s.mem := by
  have h1 : execPageEmptied 0 c page s = .next (s.dropSlicePage c page).retireDone := by
    unfold execPageEmptied
    simp [hp, ha]
  rw [State.retireDone_idle (by exact hr)] at h1
  have ho : (s.dropSlicePage c page).slice c = (s.slice c).dropPage page := s.modSlice_slice c fun sl => sl.dropPage page
  refine ⟨_, h1, ?_, ?_, ?_, rfl, rfl⟩
  · rw [ho]
    exact (mem_insertSet _ _ _).2 (.inl rfl)
  · rw [ho]
    simp [Slice.dropPage, Slice.recount]
  · rw [ho]
    rfl

/-- A page of a package leaves its placeable capacity (R248). -/
def Outer.dropPage (o : Outer) (page : Nat) : Outer :=
  { o with retiring := o.retiring.filter (· != page), retired := insertSet o.retired page, pagesRetired := o.pagesRetired + 1 }

theorem execPageEmptied_outer {s : State} {m page : Nat} (hr : s.ctl.retires = []) (hp : page ∈ (s.outer m).retiring)
    (ha : s.allocated (outerAddr m + page * 0x200000) 0x200000 = false) :
    ∃ t, execPageEmptied 1 m page s = .next t ∧ page ∈ (t.outer m).retired ∧ page ∉ (t.outer m).retiring ∧
      t.fw.toRetire = s.fw.toRetire ++ [.outerPage m page] ∧ t.mem = s.mem := by
  have h1 : execPageEmptied 1 m page s = .next (s.dropOuterPage m page).retireDone := by
    unfold execPageEmptied
    simp [hp, ha]
  have hd : s.dropOuterPage m page = (((s.modOuter m fun o => o.dropPage page).onFw fun f =>
      { f with toRetire := f.toRetire ++ [.outerPage m page] }).onLife fun l =>
        { l with outerPagesRetired := satAdd 32 l.outerPagesRetired 1 }).checkDegraded m := rfl
  obtain ⟨hmem, hfw, hret, -, hrd, hrg, -⟩ := State.checkDegraded_fields (((s.modOuter m fun o => o.dropPage page).onFw fun f =>
      { f with toRetire := f.toRetire ++ [.outerPage m page] }).onLife fun l =>
        { l with outerPagesRetired := satAdd 32 l.outerPagesRetired 1 }) m
  have ho := s.modOuter_outer m fun o => o.dropPage page
  rw [hd, State.retireDone_idle (by exact hret.trans hr)] at h1
  refine ⟨_, h1, ?_, ?_, congrArg Fw.toRetire hfw, hmem⟩
  · rw [hrd.trans (congrArg Outer.retired ho)]
    exact (mem_insertSet _ _ _).2 (.inl rfl)
  · rw [hrg.trans (congrArg Outer.retiring ho)]
    simp [Outer.dropPage]

/-- Settles O32. -/
theorem pagesRetire : Obligations.PagesRetire := by
  intro u page i s hr
  refine ⟨fun h _ => execSpareCopyDone_switches hr h, execOuterSpareCopyDone_switches hr, execPageEmptied_slice hr,
    execPageEmptied_outer hr, fun ha => ?_, rfl⟩
  show execPageEmptied 0 u page s = _
  unfold execPageEmptied
  simp [ha]

end Sys2Proof.Machine
end

