-- ==== Sys2Proof/Proofs/Proboscis.lean ====
section
/-!
The operations of the proboscis (R255 to R263, R266).
-/

namespace Sys2Proof.Machine

/-! ### Submission -/

theorem mapTab_self {α : Type} (t : Tab α) : mapTab t (fun _ x => x) = t := by
  unfold mapTab
  exact List.map_id' t

/-- Outside every epoch no pass counts the operation. -/
theorem State.passOp_zero (s : State) (w : Nat) : s.passOp 0 w = s := by
  unfold State.passOp State.onSvc
  simp only [true_or, if_true, mapTab_self]

/-- A submission over a link is judged by `probSubmit` and answered there. -/
theorem execProboscisSubmit_link {s s' : State} {m port : Nat} {rec : List Byte} (hm : m < 12) (hp : port < 1024)
    (hl : rec.length = 64) :
    (∀ st, s.probSubmit m port none 0 rec false = (s', .status st) →
      execProboscisSubmit m port rec false none s = .next (s'.emit (.answer (.link 0) st))) ∧
    (s.probSubmit m port none 0 rec false = (s', .taken) → execProboscisSubmit m port rec false none s = .next s') := by
  have hn : ¬ (12 ≤ m ∨ 1024 ≤ port ∨ rec.length ≠ 64) := by omega
  constructor
  · intro st h
    simp only [execProboscisSubmit, if_neg hn, Option.any_none, Bool.false_eq_true, if_false, Option.bind_none, h]
    rfl
  · intro h
    simp only [execProboscisSubmit, if_neg hn, Option.any_none, Bool.false_eq_true, if_false, Option.bind_none, h]

theorem State.probSubmit_failed {s : State} {m : Nat} (port : Nat) (rec : List Byte) (h : (s.outer m).failed = true) :
    s.probSubmit m port none 0 rec false = (s, .status stBadArg) := by
  simp only [State.probSubmit, h, if_true]

theorem State.probSubmit_busy {s : State} {m port : Nat} (rec : List Byte) (h : (s.outer m).failed = false)
    (hx : ∃ x ∈ (s.outer m).ops ++ (s.outer m).running, x.port = port) :
    s.probSubmit m port none 0 rec false =
      (s.modOuter m fun o => { o with busyResponses := satAdd 16 o.busyResponses 1 }, .status stBusy) := by
  have ha : ((s.outer m).ops ++ (s.outer m).running).any (·.port == port) = true := by
    rw [List.any_eq_true]
    simpa only [beq_iff_eq] using hx
  simp only [State.probSubmit, h, ha, Bool.false_eq_true, if_false, if_true]

theorem State.probSubmit_free {s : State} {m port : Nat} (rec : List Byte) (h : (s.outer m).failed = false)
    (hx : ∀ x ∈ (s.outer m).ops ++ (s.outer m).running, x.port ≠ port) :
    (256 ≤ (s.outer m).ops.length + (s.outer m).running.length →
      s.probSubmit m port none 0 rec false = (s, .status stRetry)) ∧
    ((s.outer m).ops.length + (s.outer m).running.length < 256 → s.probBad m ⟨rec⟩ 0 = false →
      s.probSubmit m port none 0 rec false =
        (s.modOuter m fun o => { o with ops := o.ops ++ [{ port := port, core := none, epoch := 0, record := rec }] }, .taken)) := by
  have ha : ((s.outer m).ops ++ (s.outer m).running).any (·.port == port) = false := by
    rw [List.any_eq_false]
    simpa only [beq_iff_eq] using hx
  refine ⟨fun hl => ?_, fun hl hb => ?_⟩
  · simp only [State.probSubmit, h, ha, Bool.false_eq_true, if_false, if_pos hl]
  · simp only [State.probSubmit, h, ha, hb, Bool.false_eq_true, if_false, if_neg (Nat.not_le.2 hl), State.passOp_zero]

/-! ### Publication -/

theorem State.probStore_touched (s : State) (r : ProbRec) (late : Bool) : s.Touched (s.probStore r late).1 := by
  unfold State.probStore
  split
  · exact s.writeRange_touched _ _ _
  · refine .foldl (fun x y h => h.trans (x.writeRange_touched _ _ _)) ?_
    exact .ite (.keep (.refl s) rfl rfl) (.refl s)

theorem State.probRecord_touched (s : State) (m addr status port : Nat) (flags : BitVec 9) :
    s.Touched (s.probRecord m addr status port flags) := by
  unfold State.probRecord
  refine .ite (.refl s) ?_
  exact .ite (.modOuter (.refl s) fun _ => ⟨rfl⟩) (s.writeRange_touched _ _ _)

theorem State.probAck_touched (s : State) (m : Nat) (o : ProbOp) : s.Touched (s.probAck m o) := by
  unfold State.probAck
  cases o.core with
  | none => cases o.reply <;> exact .keep (.refl s) rfl rfl
  | some c => cases o.reply <;> exact .keep (.refl s) rfl rfl

/-- A published operation no longer runs, and is counted. -/
def Outer.published (o : Outer) (port : Nat) : Outer :=
  { o with running := o.running.filter (·.port != port), opsDone := (o.opsDone + 1) % 2 ^ 24 }

/-- Publication touches packages as memory accesses do, but for the operation's own entry (R258, R259). -/
theorem State.probPublish_published (s : State) (m : Nat) (x : ProbOp) (late : Bool) :
    ∃ u, s.Touched u ∧ (u.modOuter m fun o => o.published x.port).Touched (s.probPublish m x late) := by
  unfold State.probPublish
  dsimp only
  generalize hs0 : List.foldl _ s _ = s0
  have h0 : s.Touched s0 := hs0 ▸ .foldl (fun y a h => h.trans (y.visit_touched _ _)) (.refl s)
  have h1 := s0.probStore_touched ⟨x.record⟩ late
  generalize s0.probStore ⟨x.record⟩ late = r at *
  obtain ⟨s1, flags⟩ := r
  dsimp only at h1 ⊢
  generalize hs2 : List.foldl _ s1 _ = s2
  have h2 : s1.Touched s2 := hs2 ▸ .foldl (fun y a h => h.onMem _) (.refl s1)
  refine ⟨s2, (h0.trans h1).trans h2, ?_⟩
  have h4 := State.Touched.ite (p := late = true) (.logEvent (.refl (s2.modOuter m fun o => o.published x.port)) .outerTimeout
    { ut := utOuter, ui := m, status := stTimeout, address := (⟨x.record⟩ : ProbRec).yBase })
    (.refl (s2.modOuter m fun o => o.published x.port))
  exact ((h4.trans (State.probAck_touched _ _ _)).trans (State.probRecord_touched _ _ _ _ _ _)).trans
    (State.flushRecords_touched _)

theorem State.probPublish_outer {s : State} {m port : Nat} {x : ProbOp}
    (hx : (s.outer m).running.find? (·.port == port) = some x) (late : Bool) :
    ((s.probPublish m x late).outer m).running = (s.outer m).running.filter (·.port != port) ∧
      ((s.probPublish m x late).outer m).opsDone = ((s.outer m).opsDone + 1) % 2 ^ 24 := by
  have hp : x.port = port := by simpa using List.find?_some hx
  obtain ⟨u, h1, h2⟩ := s.probPublish_published m x late
  have ho := u.modOuter_outer m fun o => o.published x.port
  rw [(h2.outer m).running, (h2.outer m).opsDone, ho]
  refine ⟨?_, ?_⟩
  · show (u.outer m).running.filter (·.port != x.port) = _
    rw [(h1.outer m).running, hp]
  · show ((u.outer m).opsDone + 1) % 2 ^ 24 = _
    rw [(h1.outer m).opsDone]

theorem ite_of_iff {α : Type} {p q : Prop} [Decidable p] [Decidable q] {a b : α} (h : p ↔ q) :
    (if p then a else b) = if q then a else b := ite_congr (propext h) (fun _ => rfl) fun _ => rfl

/-- Settles O34. -/
theorem proboscisOperationsRun : Obligations.ProboscisOperationsRun := by
  intro m port rec s o
  refine ⟨?_, ?_, ?_, fun _ => rfl, ?_⟩
  · intro hm hp hl hf
    exact (execProboscisSubmit_link hm hp hl).1 _ (State.probSubmit_failed port rec hf)
  · intro hm hp hl hf
    refine ⟨fun hx => (execProboscisSubmit_link hm hp hl).1 _ (State.probSubmit_busy rec hf hx), fun hx => ⟨fun h => ?_, fun h hb => ?_⟩⟩
    · exact (execProboscisSubmit_link hm hp hl).1 _ ((State.probSubmit_free rec hf hx).1 h)
    · exact (execProboscisSubmit_link hm hp hl).2 ((State.probSubmit_free rec hf hx).2 h hb)
  · intro p rest hops rd wr
    show execProboscisStart m s = _
    unfold execProboscisStart
    simp only [show (s.outer m).ops = p :: rest from hops]
    rw [← apply_ite]
    congr 1
    refine ite_of_iff ?_
    simp [rd, wr, o]
  · intro x hx
    refine ⟨?_, ?_, fun late => State.probPublish_outer hx late⟩
    · show execProboscisPublish m port s = _
      simp only [execProboscisPublish, show (s.outer m).running.find? (·.port == port) = some x from hx]
    · show execProboscisTimeout m port s = _
      simp only [execProboscisTimeout, show (s.outer m).running.find? (·.port == port) = some x from hx]

end Sys2Proof.Machine
end

