-- ==== Sys2Proof/Proofs/BusDecoder.lean ====
section
/-!
The poison pattern Q of the outer bus (R241, R242): the decoder takes it for no error of one or two symbols, and recovers it
as the pattern.
-/

namespace Sys2Proof.Machine

/-! ### Products with powers of α -/

theorem gfDouble_xor (a b : Byte) : gfDouble (a ^^^ b) = gfDouble a ^^^ gfDouble b := by
  unfold gfDouble
  rw [BitVec.getLsbD_xor, BitVec.shiftLeft_xor_distrib]
  generalize a <<< 1 = x
  generalize b <<< 1 = y
  cases a.getLsbD 7 <;> cases b.getLsbD 7
  · rfl
  · exact BitVec.xor_assoc ..
  · simp only [Bool.xor_false, if_true, Bool.false_eq_true, if_false]
    ac_rfl
  · simp only [Bool.xor_self, Bool.false_eq_true, if_false, if_true]
    rw [show (x ^^^ 29#8) ^^^ (y ^^^ 29#8) = (x ^^^ y) ^^^ (29#8 ^^^ 29#8) by ac_rfl, BitVec.xor_self, BitVec.xor_zero]

theorem gfDouble_zero : gfDouble 0 = 0 := by decide

theorem gfDouble_ite (p : Prop) [Decidable p] (a : Byte) : gfDouble (if p then a else 0) = if p then gfDouble a else 0 := by
  split
  · rfl
  · exact gfDouble_zero

/-- α is a root of the field's polynomial. -/
theorem gfDouble_eight : ∀ a : Byte, gfDouble (gfDouble (gfDouble (gfDouble (gfDouble (gfDouble (gfDouble (gfDouble a))))))) =
    a ^^^ gfDouble (gfDouble a) ^^^ gfDouble (gfDouble (gfDouble a)) ^^^ gfDouble (gfDouble (gfDouble (gfDouble a))) := by
  decide +kernel

/-- The bits of a doubled symbol: shifted, with the polynomial 0x1D where bit 7 was set. -/
theorem gfDouble_bit (b : Byte) : (gfDouble b).getLsbD 0 = b.getLsbD 7 ∧ (gfDouble b).getLsbD 1 = b.getLsbD 0 ∧
    (gfDouble b).getLsbD 2 = (b.getLsbD 1 ^^ b.getLsbD 7) ∧ (gfDouble b).getLsbD 3 = (b.getLsbD 2 ^^ b.getLsbD 7) ∧
    (gfDouble b).getLsbD 4 = (b.getLsbD 3 ^^ b.getLsbD 7) ∧ (gfDouble b).getLsbD 5 = b.getLsbD 4 ∧
    (gfDouble b).getLsbD 6 = b.getLsbD 5 ∧ (gfDouble b).getLsbD 7 = b.getLsbD 6 := by
  revert b
  decide +kernel

theorem ite_xor_bool (p q : Bool) (a : Byte) :
    (if (p ^^ q) = true then a else 0) = (if p = true then a else 0) ^^^ (if q = true then a else 0) := by
  cases p <;> cases q <;> simp

theorem gfMul_gfDouble (a b : Byte) : gfMul a (gfDouble b) = gfDouble (gfMul a b) := by
  obtain ⟨h0, h1, h2, h3, h4, h5, h6, h7⟩ := gfDouble_bit b
  unfold gfMul
  simp only [gfMulN, gfDouble_xor, gfDouble_ite, gfDouble_zero, gfDouble_eight, BitVec.getLsbD_ushiftRight, Nat.add_zero,
    h0, h1, h2, h3, h4, h5, h6, h7, ite_xor_bool, Nat.reduceAdd]
  cases b.getLsbD 7
  · simp
  · simp
    ac_rfl

/-- `n` doublings of a symbol: its product with α^n. -/
def gfShift : Nat → Byte → Byte
  | 0, a => a
  | n + 1, a => gfDouble (gfShift n a)

theorem gfShift_add (m n : Nat) (a : Byte) : gfShift (m + n) a = gfShift m (gfShift n a) := by
  induction m with
  | zero => rw [Nat.zero_add]; rfl
  | succ m ih => rw [Nat.succ_add, gfShift, ih]; rfl

theorem gfMul_gfPow (a : Byte) (n : Nat) : gfMul a (gfPow n) = gfShift n a := by
  induction n with
  | zero => exact (by decide +kernel : ∀ a : Byte, gfMul a 1 = a) a
  | succ n ih => rw [gfPow, gfMul_gfDouble, ih, gfShift]

theorem gfShift_xor (n : Nat) (a b : Byte) : gfShift n (a ^^^ b) = gfShift n a ^^^ gfShift n b := by
  induction n with
  | zero => rfl
  | succ n ih => rw [gfShift, ih, gfDouble_xor, gfShift, gfShift]

/-! ### Two errors -/

/-- Errors `x` and `y` at positions p and q: three syndromes in a row obey a recurrence with α^p + α^q and α^(p + q). -/
theorem syndromes_of_two (x y : Byte) (p q k : Nat) :
    gfShift (p * (k + 2)) x ^^^ gfShift (q * (k + 2)) y =
      gfShift p (gfShift (p * (k + 1)) x ^^^ gfShift (q * (k + 1)) y) ^^^
      gfShift q (gfShift (p * (k + 1)) x ^^^ gfShift (q * (k + 1)) y) ^^^
      gfShift (p + q) (gfShift (p * k) x ^^^ gfShift (q * k) y) := by
  simp only [gfShift_xor, ← gfShift_add]
  rw [show p + p * (k + 1) = p * (k + 2) by simp only [Nat.mul_add]; omega,
    show p + q * (k + 1) = p + q + q * k by simp only [Nat.mul_add]; omega,
    show q + p * (k + 1) = p + q + p * k by simp only [Nat.mul_add]; omega,
    show q + q * (k + 1) = q * (k + 2) by simp only [Nat.mul_add]; omega]
  generalize gfShift (p * (k + 2)) x = a
  generalize gfShift (q * (k + 2)) y = b
  generalize gfShift (p + q + q * k) y = c
  generalize gfShift (p + q + p * k) x = d
  rw [show a ^^^ c ^^^ (d ^^^ b) ^^^ (d ^^^ c) = a ^^^ b ^^^ (c ^^^ c) ^^^ (d ^^^ d) by ac_rfl]
  simp

theorem patQ_syndromes : (List.range 8).map (syndrome patQ) = [20#8, 217#8, 77#8, 237#8, 240#8, 65#8, 179#8, 232#8] := by
  decide +kernel

/-- The recurrence of two syndromes `a`, `b` gives the next one, `c`, at positions p and q. -/
def recurs (a b c : Byte) (p q : Nat) : Bool := c == gfShift p b ^^^ gfShift q b ^^^ gfShift (p + q) a

/-- No two positions obey the recurrences that the syndromes of Q would need. -/
theorem patQ_no_pair : ((List.range 72).all fun p => (List.range (72 - p - 1)).all fun d =>
    !(recurs 20#8 217#8 77#8 p (p + 1 + d) && recurs 217#8 77#8 237#8 p (p + 1 + d))) = true := by
  decide +kernel

theorem decodeOne_patQ : decodeOne patQ 8 72 = .fail := by decide +kernel

/-- The product that `decodeTwo` forms for an error at a position and a syndrome, without the reduction of the exponent. -/
theorem gfMul_gfPow_mod {a : Byte} {n : Nat} (h : n < 255) : gfMul a (gfPow (n % 255)) = gfShift n a := by
  rw [Nat.mod_eq_of_lt h, gfMul_gfPow]

/-- Two errors at positions p and q explain a list of syndromes. -/
def explained (sy : List Byte) (x y : Byte) (p q : Nat) : Bool :=
  sy.zipIdx.all fun t => t.1 == gfMul x (gfPow (p * t.2 % 255)) ^^^ gfMul y (gfPow (q * t.2 % 255))

/-- What one error does not explain and no two do is not corrected. -/
theorem decodeTwo_fail {errs : List (Nat × Byte)} {n len : Nat} (h₁ : decodeOne errs n len = .fail)
    (h₂ : ∀ p < len, ∀ d < len - p - 1, ∀ x y, explained ((List.range n).map (syndrome errs)) x y p (p + 1 + d) = false) :
    decodeTwo errs n len = .fail := by
  unfold decodeTwo
  rw [h₁]
  dsimp only
  rw [List.find?_eq_none.2]
  intro pq hpq hall
  simp only [List.mem_flatMap, List.mem_map, List.mem_range] at hpq
  obtain ⟨p, hp, d, hd, rfl⟩ := hpq
  exact Bool.false_ne_true ((h₂ p hp d hd _ _).symm.trans hall)

theorem patQ_unexplained {p d : Nat} (hp : p < 72) (hd : d < 72 - p - 1) (x y : Byte) :
    explained [20#8, 217#8, 77#8, 237#8, 240#8, 65#8, 179#8, 232#8] x y p (p + 1 + d) = false := by
  refine Bool.eq_false_iff.mpr fun h => ?_
  rw [explained] at h
  simp only [List.zipIdx_cons, List.all_cons, Bool.and_eq_true, beq_iff_eq, Nat.zero_add, Nat.reduceAdd] at h
  obtain ⟨h0, h1, h2, h3, -⟩ := h
  rw [gfMul_gfPow_mod (by omega), gfMul_gfPow_mod (by omega)] at h0 h1 h2 h3
  have hno := List.all_eq_true.1 (List.all_eq_true.1 patQ_no_pair p (List.mem_range.2 hp)) d (List.mem_range.2 hd)
  have hr0 : recurs 20#8 217#8 77#8 p (p + 1 + d) = true := by
    rw [recurs, beq_iff_eq, h0, h1, h2]
    exact syndromes_of_two x y p (p + 1 + d) 0
  have hr1 : recurs 217#8 77#8 237#8 p (p + 1 + d) = true := by
    rw [recurs, beq_iff_eq, h1, h2, h3]
    exact syndromes_of_two x y p (p + 1 + d) 1
  rw [hr0, hr1] at hno
  exact absurd hno (by decide)

theorem decodeTwo_patQ : decodeTwo patQ 8 72 = .fail := by
  refine decodeTwo_fail decodeOne_patQ fun p hp d hd x y => ?_
  rw [patQ_syndromes]
  exact patQ_unexplained hp hd x y

theorem decodeTwo_patQ_patQ : decodeTwo (patQ ++ patQ) 8 72 = .clean := by decide +kernel

/-- What fails as it stands and is clean with the pattern taken off again is a poisoned codeword (R241). -/
theorem busDecode_poisoned {errs : List (Nat × Byte)} {p : Bool} {e : List (Nat × Byte)}
    (he : (if p = true then errs ++ patQ else errs) = e) (h₁ : decodeTwo e 8 72 = .fail)
    (h₂ : decodeTwo (e ++ patQ) 8 72 = .clean) : busDecode errs p = .poisoned [] := by
  unfold busDecode
  simp only [he, h₁, h₂]

theorem busDecode_nil_false : busDecode [] false = .ok := by decide +kernel

/-- A codeword that nothing disturbs on the bus is read without error, or as the poisoned one that it is. -/
theorem busDecode_nil (p : Bool) : busDecode [] p = .ok ∨ busDecode [] p = .poisoned [] := by
  cases p with
  | false => exact .inl busDecode_nil_false
  | true => exact .inr (busDecode_poisoned rfl decodeTwo_patQ decodeTwo_patQ_patQ)

end Sys2Proof.Machine
end

