-- ==== Sys2Proof/Proofs/OuterRequests.lean ====
section
/-!
The requests to outer memory: credits, the issue queue, the window, the bus and the answers (R230 to R237, R242, R243, R338,
R559, R593).
-/

namespace Sys2Proof.Machine

/-! ### Into the issue queue -/

theorem Core.slotFree_outer {k : Core} {a m off : Nat} (h : place a = .outer m off) :
    k.slotFree a = (lowestFree k.outerSlots 16).isSome := by simp only [Core.slotFree, h]

/-- Without a credit, a slot or room, or for more than one block, a request stays with its sender (R233, R338, R593). -/
theorem execOuterBlockRequest_stays {s : State} {c m off a len : Nat} {e : Engine} (w : Bool) (hp : place a = .outer m off)
    (h : (s.outer m).heldBy (cdOf c) (startCredits (cdOf c)) = 0 ∨ 1024 ≤ (s.outer m).issue.length ∨
      lowestFree (s.core c).outerSlots 16 = none ∨ oneBlock a len = false) :
    execOuterBlockRequest (.core c e) a len .read w s = .next s := by
  have hcore : coreOf (.core c e) = some c := rfl
  simp only [execOuterBlockRequest, hp, hcore, Core.slotFree_outer hp, holderOf, accLen]
  refine if_pos ?_
  simpa using h

theorem execOuterBlockRequest_joins {s : State} {c m off a len k : Nat} {e : Engine} (w : Bool) (hp : place a = .outer m off)
    (hh : (s.outer m).heldBy (cdOf c) (startCredits (cdOf c)) ≠ 0) (hq : (s.outer m).issue.length < 1024)
    (hk : lowestFree (s.core c).outerSlots 16 = some k) (hb : oneBlock a len = true)
    (hgo : s.answer (.core c e) a len false = .go) :
    execOuterBlockRequest (.core c e) a len .read w s = .next { s with
      reqNo := s.reqNo + 1
      outers := put s.outers m { s.outer m with
        issue := (s.outer m).issue ++ [{ id := s.reqNo, agent := .core c e, addr := a, len := len, acc := .read, waiting := w }]
        holders := put (s.outer m).holders (cdOf c) ((s.outer m).heldBy (cdOf c) (startCredits (cdOf c)) - 1) }
      cores := put s.cores c { s.core c with outerSlots := insertSet (s.core c).outerSlots k } } := by
  have hcore : coreOf (.core c e) = some c := rfl
  have hn : ¬ ((s.outer m).heldBy (cdOf c) (startCredits (cdOf c)) = 0 ∨ 1024 ≤ (s.outer m).issue.length ∨
      (!(lowestFree (s.core c).outerSlots 16).isSome) = true ∨ (!oneBlock a len) = true) := by
    simp [hh, hk, hb, hq]
  have ht : (s.core c).takeOuter = { s.core c with outerSlots := insertSet (s.core c).outerSlots k } := by
    simp only [Core.takeOuter, hk]
  simp only [execOuterBlockRequest, hp, hcore, Core.slotFree_outer hp, holderOf, accLen, isWrite]
  rw [if_neg hn]
  simp only [hgo, State.countBusy]
  refine congrArg Host.Outcome.next ?_
  show { s with reqNo := _, outers := _, cores := put s.cores c (s.core c).takeOuter } = _
  rw [ht]
  rfl

/-! ### Onto the bus -/

/-- The direction of the bus changes nothing that decides whether commands may leave. -/
theorem Outer.turn_busFree (o : Outer) : o.turn.busFree = o.busFree := by
  unfold Outer.turn
  dsimp only
  split
  · rfl
  · split <;> rfl

theorem execOuterSend_sends {s : State} {m : Nat} {r : OReq} (hb : (s.outer m).turn.busFree = true)
    (hc : (s.outer m).turn.choose = some r) : execOuterSend m s = .next ((s.modOuter m Outer.turn).sendWith m r) := by
  simp only [execOuterSend, State.modOuter_outer, hb, if_true, hc]

theorem execOuterSend_held {s : State} {m : Nat} (h : (s.outer m).busFree = false) : execOuterSend m s = .next s := by
  simp only [execOuterSend, State.modOuter_outer, Outer.turn_busFree, h, Bool.false_eq_true, if_false]

theorem execOuterWindowAge_held {s : State} {m : Nat} (req : Nat) (h : (s.outer m).busFree = false) :
    execOuterWindowAge m req s = .next s := by
  unfold execOuterWindowAge
  dsimp only
  split
  · rfl
  · simp only [h, Bool.false_eq_true, if_false]

theorem execCreditReturn_oldest {s : State} {m : Nat} {r : OReq}
    (hf : ((s.outer m).issue.find? fun r => decide ((s.outer m).bankSlots (bankOf r.addr) < 512)) = some r)
    (hl : (s.outer m).slotted.length < 4096) :
    execCreditReturn m r.id s = .next (s.modOuter m fun o => { o with
      issue := o.issue.filter (·.id != r.id), window := o.window ++ [r]
      holders := if (s.outer m).heldBy (holderOf r.agent) (startCredits (holderOf r.agent)) < startCredits (holderOf r.agent) then
        put o.holders (holderOf r.agent) ((s.outer m).heldBy (holderOf r.agent) (startCredits (holderOf r.agent)) + 1) else o.holders
      pool := if (s.outer m).heldBy (holderOf r.agent) (startCredits (holderOf r.agent)) < startCredits (holderOf r.agent) then
        o.pool else o.pool + 1 }) := by
  unfold execCreditReturn
  simp only [hf]
  rw [if_neg (by simp only [ne_eq, not_true_eq_false, false_or]; omega)]

/-! ### Answers -/

/-- A codeword that nothing disturbs on the bus raises no event. -/
theorem State.busOutcome_nil (s : State) (m unit : Nat) (p : Bool) : s.busOutcome m unit (busDecode [] p) = s := by
  rcases busDecode_nil p with h | h <;> rw [h] <;> rfl

theorem execOuterWriteAcknowledge_clean {s : State} {m : Nat} {r : OReq}
    (hf : (s.outer m).sentReqs.find? (fun x => x.id == r.id && !x.isRead) = some r) :
    execOuterWriteAcknowledge m r.id [] s = .next ((s.releaseReq m r).reply r.agent stOk) := by
  have hue : ∀ p, busDecode [] p ≠ .ue := fun p => by rcases busDecode_nil p with h | h <;> rw [h] <;> simp
  have hb : ∀ n, beatErrors [] n = [] := fun _ => rfl
  unfold execOuterWriteAcknowledge
  simp only [hf, hb, State.busOutcome_nil, hue, false_and, if_false]
  generalize List.zipIdx _ = l
  have hl : l.foldl (fun (s : State) _ => s) s = s := by
    induction l with
    | nil => rfl
    | cons x l ih => exact ih
  rw [hl]

/-- A core with nothing queued behind a slot or dispatch takes the free slot without further effect. -/
def State.idleFor (s : State) (r : OReq) : Prop :=
  ∀ c, coreOf r.agent = some c → (s.core c).stream = [] ∧ (s.core c).baraWait = [] ∧
    (s.core c).firstWith .move .slots = none ∧ (s.core c).firstWith .gather .slots = none

theorem State.releaseReq_idle {s : State} {m : Nat} {r : OReq} (h : s.idleFor r) :
    (s.releaseReq m r).mem = s.mem ∧ (s.releaseReq m r).sent = s.sent := by
  unfold State.releaseReq
  generalize hs1 : State.modOuter s m _ = s1
  have hm : s1.mem = s.mem := by rw [← hs1]; rfl
  have hse : s1.sent = s.sent := by rw [← hs1]; rfl
  have hco : ∀ c, s1.core c = s.core c := by rw [← hs1]; exact fun _ => rfl
  cases hc : coreOf r.agent with
  | none => exact ⟨hm, hse⟩
  | some c =>
    obtain ⟨hst, hb, hmv, hg⟩ := h c hc
    have hd : (s1.modCore c Core.dropOuter).core c = (s.core c).dropOuter := by rw [State.modCore_core, hco]
    dsimp only
    rw [State.wakeSlots_idle (by rw [hd]; exact hmv) (by rw [hd]; exact hg),
      State.completed_of_calm (calm_of_nil (by rw [hd]; exact hst) (by rw [hd]; exact hb))]
    exact ⟨hm, hse⟩

/-- Events that count and log leave the content of memory and the cores. -/
structure State.Reported (s t : State) : Prop where
  accessed : s.Accessed t
  mem : t.mem = s.mem

theorem State.Reported.foldl {α : Type} {s t : State} {f : State → α → State} {l : List α}
    (hf : ∀ (x : State) a, x.Reported (f x a)) (h : s.Reported t) : s.Reported (l.foldl f t) := by
  induction l generalizing t with
  | nil => exact h
  | cons a l ih => exact ih ⟨h.accessed.trans (hf t a).accessed, (hf t a).mem.trans h.mem⟩

theorem State.countOuterUe_reported (s : State) (m u : Nat) : s.Reported (s.countOuterUe m u) := by
  unfold State.countOuterUe State.outerEvent
  exact ⟨.logEvent (.modOuter (.refl s) _ _) _ _, State.logEvent_mem _ _ _⟩

theorem State.busOutcome_reported (s : State) (m u : Nat) (o : RdOut) : s.Reported (s.busOutcome m u o) := by
  unfold State.busOutcome State.outerEvent
  cases o with
  | ce _ => exact ⟨.logEvent (.modOuter (.refl s) _ _) _ _, State.logEvent_mem _ _ _⟩
  | ue => exact ⟨.logEvent (.modOuter (.refl s) _ _) _ _, State.logEvent_mem _ _ _⟩
  | _ => exact ⟨.refl s, rfl⟩

/-- The data of a request of one block lies in the block read. -/
theorem oneBlock_fits {a n : Nat} (h : oneBlock a n = true) : a - blockBase a + n ≤ 256 := by
  simp only [oneBlock, Bool.and_eq_true, decide_eq_true_eq, beq_iff_eq] at h
  unfold blockBase
  omega

theorem length_take_drop {α : Type} {l : List α} {k n : Nat} (h : k + n ≤ l.length) : ((l.drop k).take n).length = n := by
  rw [List.length_take, List.length_drop]
  omega

/-- Delivering a block's data to an idle requester answers the part that it asked for. -/
theorem State.deliver_idle {s : State} {m : Nat} {bytes : List Byte} {marks : List Bool} {r : OReq} (h : s.idleFor r)
    (hb : oneBlock r.addr r.len = true) (h₁ : bytes.length = 256) (h₂ : marks.length = 256) :
    ∃ bs ms, (s.deliver m bytes marks r).mem = s.mem ∧ bs.length = r.len ∧ ms.length = r.len ∧
      (s.deliver m bytes marks r).sent = s.sent ++ [.data r.agent bs ms, .answer r.agent stOk] := by
  obtain ⟨hm, hs⟩ := State.releaseReq_idle (m := m) h
  have hfit := oneBlock_fits hb
  refine ⟨(bytes.drop (r.addr - blockBase r.addr)).take r.len, (marks.drop (r.addr - blockBase r.addr)).take r.len, hm,
    length_take_drop (by omega), length_take_drop (by omega), ?_⟩
  show ((s.releaseReq m r).sent ++ [_]) ++ [_] = _
  rw [hs, List.append_assoc]
  rfl

/-- Data read for one request alone: what the dies and the bus did is counted, and the data is delivered. -/
theorem execOuterReadData_single {s : State} {m : Nat} {r : OReq}
    (hf : (s.outer m).sentReqs.find? (fun x => x.id == r.id && x.isRead && x.twin.isNone) = some r)
    (ht : ∀ x ∈ (s.outer m).sentReqs, x.twin ≠ some r.id) (fixed : Nat) (ue : List Nat) (errs again : List (Nat × Byte)) :
    ∃ u bytes marks, execOuterReadData m r.id fixed ue errs again s = .next (u.deliver m bytes marks r) ∧ s.Reported u ∧
      bytes.length = 256 ∧ marks.length = 256 := by
  have hnone : (s.outer m).sentReqs.filter (fun x => x.twin == some r.id) = [] := by
    rw [List.filter_eq_nil_iff]
    simpa using ht
  unfold execOuterReadData
  simp only [hf, hnone, List.foldl_cons, List.foldl_nil]
  refine ⟨_, _, _, rfl, ?_, by simp, by simp⟩
  refine .foldl (fun x a => x.busOutcome_reported _ _ _) (.foldl (fun x a => x.countOuterUe_reported _ _) ?_)
  exact ⟨s.countDie_accessed _ _ _, s.countDie_mem _ _ _⟩

/-- Data that neither the dies nor the bus disturb is delivered as it was read. -/
theorem execOuterReadData_clean {s : State} {m : Nat} {r : OReq}
    (hf : (s.outer m).sentReqs.find? (fun x => x.id == r.id && x.isRead && x.twin.isNone) = some r)
    (ht : ∀ x ∈ (s.outer m).sentReqs, x.twin ≠ some r.id) (hd : r.data.length = 256) (hm : ∀ x ∈ r.marks, x = false) :
    execOuterReadData m r.id 0 [] [] [] s = .next (s.deliver m r.data (List.replicate 256 false) r) := by
  have hnone : (s.outer m).sentReqs.filter (fun x => x.twin == some r.id) = [] := by
    rw [List.filter_eq_nil_iff]
    simpa using ht
  have hmark : ∀ i, r.marks.getD i false = false := fun i => by
    rw [List.getD_eq_getElem?_getD]
    cases h : r.marks[i]? with
    | none => rfl
    | some x => exact hm x (List.mem_of_getElem? h)
  have hbeat : ∀ n, beatErrors [] n = [] := fun _ => rfl
  have hdec : decodeBeat false [] [] = (.ok, false) := by simp only [decodeBeat, busDecode_nil_false]
  have hdie : ∀ u, s.countDie m u 0 = s := fun _ => rfl
  have hnoBus : ∀ l : List (Nat × Nat), l.filter (fun _ => false) = [] := fun l => List.filter_eq_nil_iff.2 fun _ _ h => Bool.false_ne_true h
  have hok : ∀ (s : State) u, s.busOutcome m u .ok = s := fun _ _ => rfl
  have hbytes : (List.range 256).map (fun i => r.data.getD i 0) = r.data := by
    refine List.ext_getElem (by simp [hd]) fun i h₁ h₂ => ?_
    simp [List.getD_eq_getElem?_getD, List.getElem?_eq_getElem h₂]
  unfold execOuterReadData
  simp only [hf, hnone, List.foldl_cons, List.foldl_nil, hdie, List.contains_nil, hnoBus, Bool.or_false, hmark, hbeat, hdec]
  generalize (unitsOf (blockBase r.addr) 256).zipIdx = l
  have hfold : ∀ l : List (Nat × Nat), (l.map fun u => (u.1, (RdOut.ok, false))).foldl (fun (s : State) x => s.busOutcome m x.1 x.2.1) s = s := by
    intro l
    rw [List.foldl_map]
    induction l with
    | nil => rfl
    | cons u l ih => exact ih
  have hidx : ∀ a : Nat, (l.map fun u => (u.1, (RdOut.ok, false))).findIdx? (fun x => x.1 == unitBase a && x.2.1 == RdOut.ue) = none := by
    intro a
    simp
  simp only [hfold, hidx, hbytes]
  congr 3
  refine List.eq_replicate_iff.2 ⟨by simp, fun b hb => ?_⟩
  obtain ⟨i, -, rfl⟩ := List.mem_map.1 hb
  rw [List.any_eq_false]
  intro x hx
  obtain ⟨u, -, rfl⟩ := List.mem_map.1 hx
  simp

/-- The part of an unmarked block that a request of one block asked for. -/
theorem State.deliver_clean {s : State} {m : Nat} {r : OReq} {bytes : List Byte} (hb : oneBlock r.addr r.len = true) :
    s.deliver m bytes (List.replicate 256 false) r = ((s.releaseReq m r).emit (.data r.agent ((bytes.drop (r.addr % 256)).take r.len)
      (List.replicate r.len false))).reply r.agent stOk := by
  have hk : r.addr - blockBase r.addr = r.addr % 256 := by unfold blockBase; omega
  have hfit := oneBlock_fits hb
  unfold State.deliver
  simp only [hk, List.drop_replicate, List.take_replicate]
  rw [Nat.min_eq_left (by omega)]

/-- Settles O33. -/
theorem outerRequestsPass : Obligations.OuterRequestsPass := by
  refine ⟨?_, ?_, ?_⟩
  · intro c m off a len e w s hp
    exact ⟨execOuterBlockRequest_stays w hp, fun k hh hq hk hb hgo => execOuterBlockRequest_joins w hp hh hq hk hb hgo⟩
  · intro m r s o
    refine ⟨execCreditReturn_oldest, execOuterSend_sends, fun h => ⟨execOuterSend_held h, execOuterWindowAge_held _ h⟩, ?_, ?_, ?_,
      execOuterWriteAcknowledge_clean, ?_, ?_, ?_⟩
    · intro h hc
      show execOuterWindowAge m r.id s = _
      unfold execOuterWindowAge
      simp only [show (s.outer m).candidates.find? (·.id == r.id) = some r from hc, show (s.outer m).busFree = true from h, if_true]
    · show execHoldAssert m s = _
      unfold execHoldAssert
      by_cases h : 448 ≤ (s.outer m).fifo
      · rw [if_neg (Nat.not_lt.2 h), if_pos (show 448 ≤ o.fifo from h)]
      · rw [if_pos (Nat.not_le.1 h), if_neg (show ¬ 448 ≤ o.fifo from h)]
    · show execHoldRelease m s = _
      unfold execHoldRelease
      by_cases h : (s.outer m).fifo ≤ 320
      · rw [if_neg (Nat.not_lt.2 h), if_pos (show o.fifo ≤ 320 from h)]
      · rw [if_pos (Nat.not_le.1 h), if_neg (show ¬ o.fifo ≤ 320 from h)]
    · intro hf hb ht
      refine ⟨fun hidle fixed ue errs again => ?_, fun hlen hmarks => ?_⟩
      · obtain ⟨u, bytes, marks, hx, hrep, h1, h2⟩ := execOuterReadData_single hf ht fixed ue errs again
        have hi : u.idleFor r := fun c hc => by rw [hrep.accessed.core]; exact hidle c hc
        obtain ⟨bs, ms, hm, hb1, hb2, hs⟩ := State.deliver_idle (m := m) hi hb h1 h2
        exact ⟨_, bs, ms, hx, hm.trans hrep.mem, hb1, hb2, hs.trans (by rw [hrep.accessed.sent])⟩
      · refine (execOuterReadData_clean hf ht hlen hmarks).trans ?_
        rw [State.deliver_clean hb]
    · intro hf
      show execOuterRequestTimeout m r.id s = _
      unfold execOuterRequestTimeout
      simp only [show (s.outer m).slotted.find? (fun x => x.id == r.id) = some r from hf]
    · intro hf
      show execOuterParityNak m r.id s = _
      unfold execOuterParityNak
      simp only [show (s.outer m).sentReqs.find? (fun x => x.id == r.id) = some r from hf]
      exact (apply_ite _ _ _ _).symm
  · intro m ok s o runs hn hf
    show execOuterBusRetrain m ok s = _
    unfold execOuterBusRetrain
    dsimp only
    rw [if_neg (by rw [not_or, Nat.not_lt]; exact ⟨hn, by rw [show (s.outer m).failed = false from hf]; exact Bool.false_ne_true⟩)]
    simp only [Bool.not_eq_true', runs, o]

end Sys2Proof.Machine
end

