-- ==== Sys2Proof/Proofs/RingsAndRegisters.lean ====
section
/-!
The ring's registers, its fetches and responses, the I²C port, the registers of the units and the telemetry mirror.
-/

namespace Sys2Proof.Machine

/-! ### Pending alerts -/

theorem State.Accessed.cmdTail {s t : State} (h : s.Accessed t) : t.ctl.cmdTail = s.ctl.cmdTail := by rw [h.eq]
theorem State.Accessed.holder {s t : State} (h : s.Accessed t) : t.ctl.holder = s.ctl.holder := by rw [h.eq]

theorem BitVec64.getLsbD_or_shift (v : Dword) {b : Nat} (hb : b < 64) : (v ||| (1#64 <<< b)).getLsbD b = true := by
  simp [hb]

theorem State.alert_bit (s : State) {b : Nat} (hb : b < 64) : (s.alert b).ctl.alertPending.getLsbD b = true :=
  BitVec64.getLsbD_or_shift s.ctl.alertPending hb

/-! ### The ring -/

theorem State.writeTail_within (s : State) {v : Nat} (h : cnt16 v s.ctl.cmdHead ≤ 256) :
    s.writeTail v = s.onCtl fun k => { k with cmdTail := v } := if_neg (Nat.not_lt.mpr h)

theorem State.writeTail_beyond (s : State) {v : Nat} (h : 256 < cnt16 v s.ctl.cmdHead) :
    (s.writeTail v).ctl.holder = s.ctl.holder ∧ (s.writeTail v).ctl.cmdTail = s.ctl.cmdTail ∧
      (s.writeTail v).ctl.alertPending.getLsbD alRing = true := by
  have ha : s.Accessed (s.writeTail v) := by
    unfold State.writeTail
    rw [if_pos h]
    exact ((State.Accessed.refl s).logEvent _ _).alert _
  refine ⟨ha.holder, ha.cmdTail, ?_⟩
  unfold State.writeTail
  rw [if_pos h]
  exact (s.logEvent .ringBadTail {}).alert_bit (by decide)

/-- The ring held by queue pair `q`. -/
def State.heldBy (s : State) (q : Nat) : State := s.onCtl fun k => { k with holder := some q }

theorem State.tail_of_holder (s : State) {q : Nat} {v : Half} (hq : s.mgmtQp q = true)
    (h : s.ctl.holder = none ∨ s.ctl.holder = some q) :
    exec (.cmdTailWrite q v) s = .next ((s.heldBy q).writeTail v.toNat) := by
  show execCmdTailWrite q v s = _
  unfold execCmdTailWrite
  rw [hq, if_neg (by decide)]
  rcases h with h | h
  · rw [h]
    rfl
  · have hs : s.heldBy q = s := by
      have hc : { s.ctl with holder := some q } = s.ctl := by rw [← h]
      exact congrArg (fun c => { s with ctl := c }) hc
    rw [h, hs]
    exact congrArg Host.Outcome.next (if_pos rfl)

theorem State.ring_of_other (s : State) {q p : Nat} {v : Half} (hq : s.mgmtQp q = true) (h : s.ctl.holder = some p) (hp : p ≠ q) :
    exec (.cmdTailWrite q v) s = .next s.refuseWrite ∧ exec (.rspHeadWrite q v) s = .next s.refuseWrite := by
  constructor
  · show execCmdTailWrite q v s = _
    unfold execCmdTailWrite
    rw [hq, if_neg (by decide), h]
    exact congrArg Host.Outcome.next (if_neg hp)
  · show execRspHeadWrite q v s = _
    unfold execRspHeadWrite
    rw [hq, if_neg (by decide), h]
    exact if_neg fun e => hp (Option.some.inj e)

theorem State.rspHead_of_holder (s : State) {q : Nat} {v : Half} (hq : s.mgmtQp q = true) (h : s.ctl.holder = some q) :
    exec (.rspHeadWrite q v) s = .next (s.onCtl fun k => { k with rspHead := v.toNat }) := by
  show execRspHeadWrite q v s = _
  unfold execRspHeadWrite
  rw [hq, if_neg (by decide)]
  exact if_pos h

theorem State.ring_of_notMgmt (s : State) {q : Nat} {v : Half} (hq : s.mgmtQp q = false) :
    exec (.cmdTailWrite q v) s = .next s ∧ exec (.rspHeadWrite q v) s = .next s := by
  constructor
  · show execCmdTailWrite q v s = _
    unfold execCmdTailWrite
    rw [hq]
    exact if_pos rfl
  · show execRspHeadWrite q v s = _
    unfold execRspHeadWrite
    rw [hq]
    exact if_pos rfl

/-! ### Fetching a command -/

/-- A command of path `p` fetched from `e`, as it joins those in progress. -/
def State.cmdOfEntry (s : State) (p : Path) (e : List Byte) : Cmd :=
  { hdr := { path := p, seq := BitVec.ofNat 32 (field e 4 4) }, op := field e 0 2, wall := BitVec.ofNat 64 (field e 8 8)
    time := s.now, hostOwned := s.ownsNot p (field e 0 2) (e.drop 0x20) }

theorem State.countNamed_keeps (s : State) (p : Path) (b : Option BufRef) :
    s.countNamed p b = { s with ctl := { s.ctl with ownOdd := (s.countNamed p b).ctl.ownOdd } } := by
  cases b with
  | none => rfl
  | some b =>
    show s.countOwn p b = { s with ctl := { s.ctl with ownOdd := (s.countOwn p b).ctl.ownOdd } }
    unfold State.countOwn
    dsimp only
    split <;> rfl

/-- A well-formed command of the set joins those in progress and waits. -/
theorem State.fetched_joins (s : State) (p : Path) {e : List Byte} (hr : s.fw.schRestart = false)
    (hi : (cmdInfo (field e 0 2)).isSome = true) (he : entryOk e = true) :
    (s.fetched p e).mem = s.mem ∧ (s.fetched p e).ctl.cmdHead = s.ctl.cmdHead ∧ (s.fetched p e).ctl.i2cGo = s.ctl.i2cGo ∧
      (s.fetched p e).ctl.inProgress = s.ctl.inProgress ++ [s.cmdOfEntry p e] := by
  have hn : ((cmdInfo (field e 0 2)).isNone || !entryOk e) = false := by
    rw [he, Option.isNone_eq_false_iff.mpr hi]
    rfl
  unfold State.fetched
  rw [hr, if_neg (by decide), hn, if_neg (by decide), State.countNamed_keeps]
  exact ⟨rfl, rfl, rfl, rfl⟩

theorem State.fetch_idle (s : State)
    (h : s.ctl.cmdHead = s.ctl.cmdTail ∨ 32 ≤ s.ctl.ringBusy ∨ s.ctl.stalled = true ∨ s.ctl.resetting = true) :
    exec .commandFetch s = .next s := if_pos h

/-- The state with the entry at CMD_HEAD taken. -/
def State.headTaken (s : State) : State := s.onCtl fun k => { k with cmdHead := (k.cmdHead + 1) % 65536 }

theorem State.fetch_takes (s : State) (h0 : s.ctl.cmdHead ≠ s.ctl.cmdTail) (h1 : s.ctl.ringBusy < 32)
    (h2 : s.ctl.stalled = false) (h3 : s.ctl.resetting = false) :
    exec .commandFetch s =
      .next (s.headTaken.fetched .ring (s.mem.read (mailboxBase + 256 * (s.ctl.cmdHead % 256)) 256)) := by
  show execCommandFetch s = _
  unfold execCommandFetch
  rw [if_neg]
  · rfl
  · rw [h2, h3]
    rintro (h | h | h | h)
    · exact h0 h
    · omega
    · exact Bool.false_ne_true h
    · exact Bool.false_ne_true h

/-! ### Responses -/

theorem State.response_none (s : State) (h : (s.ctl.completed.all fun r => r.hdr.path == .ring && !s.ctl.rspRoom) = true) :
    exec .responseWrite s = .next s := by
  have hf : (s.ctl.completed.find? fun r => r.hdr.path == .i2c || s.ctl.rspRoom) = none := by
    rw [List.find?_eq_none]
    intro r hr
    have hr := List.all_eq_true.mp h r hr
    rw [Bool.and_eq_true, beq_iff_eq, Bool.not_eq_true'] at hr
    rw [hr.1, hr.2]
    decide
  show execResponseWrite s = _
  unfold execResponseWrite
  rw [hf]

theorem State.response_ring (s : State) {r : Resp} {rest : List Resp} (h : s.ctl.completed = r :: rest) (hp : r.hdr.path = .ring)
    (hr : s.ctl.rspRoom = true) :
    exec .responseWrite s = .next ((((s.onCtl fun k => { k with completed := rest }).alert alResponse).onMem fun m =>
      m.write (rspRing + 256 * (s.ctl.rspTail % 256)) (r.bytes s.ctl.rspTail)).onCtl fun k =>
        { k with rspTail := (s.ctl.rspTail + 1) % 65536 }) := by
  show execResponseWrite s = _
  unfold execResponseWrite
  rw [h, List.find?_cons_of_pos (by rw [hr, Bool.or_true])]
  dsimp only
  rw [hp]
  have he : (s.onCtl fun k => { k with completed := k.completed.erase r }) = s.onCtl fun k => { k with completed := rest } := by
    show ({ s with ctl := { s.ctl with completed := s.ctl.completed.erase r } } : State) = _
    rw [h, List.erase_cons_head]
    rfl
  rw [he]

theorem State.response_i2c (s : State) {r : Resp} {rest : List Resp} (h : s.ctl.completed = r :: rest) (hp : r.hdr.path = .i2c) :
    exec .responseWrite s = .next (((s.onCtl fun k => { k with completed := rest }).alert alResponse).onCtl fun k =>
      { k with i2cRsp := r.bytes 0, i2cGo := false, i2cDone := true }) := by
  show execResponseWrite s = _
  unfold execResponseWrite
  rw [h, List.find?_cons_of_pos (by rw [hp]; rfl)]
  dsimp only
  rw [hp]
  have he : (s.onCtl fun k => { k with completed := k.completed.erase r }) = s.onCtl fun k => { k with completed := rest } := by
    show ({ s with ctl := { s.ctl with completed := s.ctl.completed.erase r } } : State) = _
    rw [h, List.erase_cons_head]
    rfl
  rw [he]

/-! ### The I²C port -/

theorem State.i2cGo_on (s : State) (h : s.dev ≠ .off) : exec .i2cGo s = .next s.i2cStart := if_neg h

theorem i2cRegs_short (n off : Nat) {l : List Byte} (h : l.length < 8) : i2cRegs n off l = [] := by
  induction n generalizing off l with
  | zero => rfl
  | succ n ih =>
    unfold i2cRegs
    split
    · exact ih _ (by rw [List.length_drop]; omega)
    · rfl

theorem i2cRegs_one (n off : Nat) {l : List Byte} (hl : l.length = 8) (ho : off % 8 = 0) (hb : off < 65536) :
    i2cRegs (n + 1) off l = [(off, leNat l)] := by
  unfold i2cRegs
  rw [if_neg (by omega), if_neg (by omega), Nat.mod_eq_of_lt hb, List.take_of_length_le (by omega),
    i2cRegs_short _ _ (by rw [List.length_drop]; omega)]

theorem State.i2cWrite_regs (s : State) {d : BitVec 7} (hd : s.i2cAnswers d = true) (a b : Byte) (l : List Byte) :
    exec (.i2cWriteTransaction ⟨d, a :: b :: l⟩) s =
      .next ((i2cRegs (l.length + 1 + 1) (a.toNat * 256 + b.toNat) l).foldl (fun s r => s.dcsWrite true r.1 r.2) s) := by
  show execI2cWriteTransaction ⟨d, a :: b :: l⟩ s = _
  unfold execI2cWriteTransaction
  rw [if_neg]
  · rfl
  · rw [hd]
    simp

/-- From byte `i` of a latched register on, a read sends the rest of its bytes. -/
theorem i2cBytes_latched (reg : Nat → Nat) {off : Nat} (ho : off % 8 = 0) {l : List Byte} (hl : l.length = 8) (k : Nat) (hk : k < 8) :
    i2cBytes reg k (off + (8 - k)) l = (l.drop (8 - k), l) := by
  induction k with
  | zero => rw [Nat.sub_zero, List.drop_of_length_le (by omega)]; rfl
  | succ k ih =>
    unfold i2cBytes
    dsimp only
    rw [if_neg (by omega), show off + (8 - (k + 1)) + 1 = off + (8 - k) from by omega, ih (by omega),
      show (off + (8 - (k + 1))) % 8 = 7 - k from by omega, show 8 - (k + 1) = 7 - k from by omega,
      show 8 - k = 7 - k + 1 from by omega, ← List.getElem_eq_getD (h := (by omega : 7 - k < l.length)) 0,
      List.getElem_cons_drop]

theorem i2cBytes_register (reg : Nat → Nat) {off : Nat} (ho : off % 8 = 0) (hb : off < 65536) (latch : List Byte) :
    i2cBytes reg 8 off latch = (leBytes 8 (reg off), leBytes 8 (reg off)) := by
  have hl : (leBytes 8 (reg off)).length = 8 := leBytes_length 8 _
  unfold i2cBytes
  dsimp only
  rw [if_pos ho, Nat.mod_eq_of_lt hb, i2cBytes_latched reg ho hl 7 (by decide), ho,
    ← List.getElem_eq_getD (h := (by omega : 0 < (leBytes 8 (reg off)).length)) 0, List.getElem_cons_drop]
  rfl

theorem State.i2cAnswers_off (s : State) (h : s.dev = .off) (d : BitVec 7) : s.i2cAnswers d = false := by
  unfold State.i2cAnswers
  rw [h]
  rfl

theorem State.i2cAnswers_default (s : State) (h : s.dev ≠ .off) (hp : s.fw.profDevBoot = []) (d : BitVec 7) :
    s.i2cAnswers d = true ↔ d = 0x5C#7 := by
  have ha : leNat (s.profBoot 0x01000001) % 128 = 0x5C := by
    show leNat (profIn s.fw.profDevBoot 0x01000001) % 128 = 0x5C
    rw [hp]
    decide +kernel
  unfold State.i2cAnswers
  rw [ha, Bool.and_eq_true, bne_iff_ne, beq_iff_eq]
  constructor
  · exact fun hd => BitVec.eq_of_toNat_eq hd.2
  · exact fun hd => ⟨h, by rw [hd]; rfl⟩

theorem State.i2c_other (s : State) {d : BitVec 7} (hd : s.i2cAnswers d = false) (l : List Byte) (off : Half) (n : Nat) :
    exec (.i2cWriteTransaction ⟨d, l⟩) s = .next s ∧ exec (.i2cReadTransaction ⟨d, off⟩ n) s = .next s := by
  constructor
  · refine if_pos (Or.inl ?_)
    rw [hd]
    rfl
  · show execI2cReadTransaction ⟨d, off⟩ n s = _
    unfold execI2cReadTransaction
    rw [hd]
    exact if_pos rfl

/-! ### Alerts and unit registers -/

theorem State.clearAlerts_word (s : State) (m : Dword) :
    s.clearAlerts m.toNat = s.onCtl fun k => if s.fw.schRestart then { k with recorded := k.recorded ++ [(false, m.toNat)] }
      else { k with alertPending := k.alertPending &&& ~~~m } := by
  unfold State.clearAlerts
  rw [BitVec.ofNat_toNat, BitVec.setWidth_eq]

theorem maskBits_word (v : Dword) : BitVec.ofNat 64 (v.toNat % 2048) = v &&& 0x7FF := by
  apply BitVec.eq_of_toNat_eq
  rw [BitVec.toNat_ofNat, BitVec.toNat_and, show ((0x7FF : Dword)).toNat = 2 ^ 11 - 1 from rfl, Nat.and_two_pow_sub_one_eq_mod]
  omega

theorem State.writeMask_word (s : State) (v : Dword) :
    s.writeMask v.toNat = s.onCtl fun k => if s.fw.schRestart then { k with recorded := k.recorded ++ [(true, v.toNat)] }
      else { k with alertMask := v &&& 0x7FF } := by
  unfold State.writeMask
  rw [maskBits_word]

theorem activeMaxOf_range (v : Nat) : 8 ≤ activeMaxOf v ∧ activeMaxOf v ≤ 24 ∧ activeMaxOf v % 4 = 0 := by
  unfold activeMaxOf
  omega

/-- Active_Max as it becomes: at once, or kept for later while R514 holds it at 8. -/
def Outer.withActiveMax (o : Outer) (v : Nat) : Outer :=
  match o.activeSaved with
  | some _ => { o with activeSaved := some (activeMaxOf v), activeMax := min (activeMaxOf v) 8 }
  | none => { o with activeMax := activeMaxOf v }

theorem Outer.withActiveMax_free {o : Outer} (h : o.activeSaved = none) (v : Nat) :
    o.withActiveMax v = { o with activeMax := activeMaxOf v } := by
  unfold Outer.withActiveMax
  rw [h]

theorem Outer.withActiveMax_held {o : Outer} (h : o.activeSaved.isSome = true) (v : Nat) :
    o.withActiveMax v = { o with activeSaved := some (activeMaxOf v), activeMax := 8 } := by
  obtain ⟨x, hx⟩ := Option.isSome_iff_exists.mp h
  unfold Outer.withActiveMax
  rw [hx, Nat.min_eq_right (activeMaxOf_range v).1]

theorem State.writeActiveMax_outer (s : State) (m v : Nat) :
    (s.writeActiveMax m v).outer m = (s.outer m).withActiveMax v ∧ ∀ j, j ≠ m → (s.writeActiveMax m v).outer j = s.outer j := by
  refine ⟨s.modOuter_outer m fun o => o.withActiveMax v, fun j hj => s.modOuter_outer_ne (fun o => o.withActiveMax v) hj⟩

theorem State.sliceWrite_scrub (s : State) {c : Nat} (hc : c < 32768) (v : Dword) :
    exec (.registerWrite (.slice c) 0x20 v) s =
      .next (s.modSlice c fun k => { k with scrubEnable := v.getLsbD 4, scrubShift := (v &&& 0xF).toNat }) := by
  have he : (!unitExists (.slice c)) = false := by
    show (!decide (c < 32768)) = false
    rw [decide_eq_true hc]
    rfl
  have hb : (bits v.toNat 4 4 == 1) = v.getLsbD 4 := by
    rw [BitVec.getLsbD, Nat.testBit_eq_decide_div_mod_eq]
    rfl
  have hs : bits v.toNat 3 0 = (v &&& 0xF).toNat := by
    rw [BitVec.toNat_and, show ((0xF : Dword)).toNat = 2 ^ 4 - 1 from rfl, Nat.and_two_pow_sub_one_eq_mod]
    show v.toNat / 2 ^ 0 % 2 ^ 4 = _
    rw [Nat.pow_zero, Nat.div_one]
  show Host.Outcome.next (s.writeReg (.slice c) 0x20 v) = _
  unfold State.writeReg
  dsimp only
  rw [he, if_neg (by decide), if_pos rfl, hb, hs]

theorem State.sliceWrite_other (s : State) (c off : Nat) (v : Dword) (ho : off ≠ 0x20) :
    exec (.registerWrite (.slice c) off v) s = .next s := by
  show Host.Outcome.next (s.writeReg (.slice c) off v) = _
  unfold State.writeReg
  dsimp only
  rw [if_neg ho, ite_self]

theorem State.routerWrite (s : State) (c off : Nat) (v : Dword) : exec (.registerWrite (.router c) off v) s = .next s := by
  show Host.Outcome.next (s.writeReg (.router c) off v) = _
  unfold State.writeReg
  dsimp only
  rw [ite_self]

/-! ### The telemetry mirror -/

/-- The state with the mirror written again. -/
def State.mirrored (s : State) : State :=
  { s with
    free := s.free + 5
    ctl := { s.ctl with telGen := (s.ctl.telGen + 2) % 2 ^ 32, telTime := s.now, telemetry := s.telSections (s.ctl.telGen + 2) } }

theorem State.telemetryRewrite_runs (s : State) (h : s.fwRuns = true) : exec .telemetryRewrite s = .next s.mirrored := by
  show execTelemetryRewrite s = _
  unfold execTelemetryRewrite
  rw [h, if_neg (by decide)]
  rfl

/-- The mirror's head: TEL_GEN and the hub counter. -/
def telHead (gen now : Nat) : List Byte := leBytes 8 gen ++ leBytes 8 now

theorem field_telHead (gen now : Nat) :
    field (telHead gen now) 0 8 = gen % 2 ^ 64 ∧ field (telHead gen now) 8 8 = now % 2 ^ 64 := by
  have hg := leBytes_length 8 gen
  have hn := leBytes_length 8 now
  constructor
  · unfold field telHead
    rw [List.drop_zero, List.take_left' hg]
    exact leNat_leBytes 8 gen
  · unfold field telHead
    rw [List.drop_left' hg, List.take_of_length_le (by omega)]
    exact leNat_leBytes 8 now

theorem State.mirrored_head (s : State) :
    (s.mirrored.ctl.telemetry.find? fun t => decide (t.1 ≤ 0x4000) && decide (0x4000 < t.1 + t.2.length)) =
        some (0x4000, telHead ((s.ctl.telGen + 2) % 2 ^ 32) s.now) ∧
      (s.mirrored.ctl.telemetry.find? fun t => decide (t.1 ≤ 0x4008) && decide (0x4008 < t.1 + t.2.length)) =
        some (0x4000, telHead ((s.ctl.telGen + 2) % 2 ^ 32) s.now) := by
  have hl : (telHead ((s.ctl.telGen + 2) % 2 ^ 32) s.now).length = 16 := by
    unfold telHead
    rw [List.length_append, leBytes_length, leBytes_length]
  unfold State.mirrored State.telSections
  constructor
  · refine List.find?_cons_of_pos ?_
    show (decide (0x4000 ≤ 0x4000) && decide (0x4000 < 0x4000 + (telHead _ _).length)) = true
    rw [hl]
    rfl
  · refine List.find?_cons_of_pos ?_
    show (decide (0x4000 ≤ 0x4008) && decide (0x4008 < 0x4000 + (telHead _ _).length)) = true
    rw [hl]
    rfl

theorem State.mirrored_regs (s : State) (h : s.fw.schRestart = false) :
    s.mirrored.dcsReg 0x4000 = (s.ctl.telGen + 2) % 2 ^ 32 ∧ s.mirrored.dcsReg 0x4008 = s.now % 2 ^ 64 := by
  have hr : s.mirrored.fw.schRestart = false := h
  obtain ⟨h0, h8⟩ := s.mirrored_head
  obtain ⟨f0, f8⟩ := field_telHead ((s.ctl.telGen + 2) % 2 ^ 32) s.now
  have hm : (s.ctl.telGen + 2) % 2 ^ 32 % 2 ^ 64 = (s.ctl.telGen + 2) % 2 ^ 32 := by omega
  constructor
  · unfold State.dcsReg
    rw [hr]
    show s.mirrored.dcsLive 0x4000 = _
    unfold State.dcsLive
    simp only [Nat.reduceEqDiff, Nat.reduceLeDiff, Nat.reduceLT, if_false, if_true, and_false, false_and, and_self, h0]
    exact f0.trans hm
  · unfold State.dcsReg
    rw [hr]
    show s.mirrored.dcsLive 0x4008 = _
    unfold State.dcsLive
    simp only [Nat.reduceEqDiff, Nat.reduceLeDiff, Nat.reduceLT, if_false, if_true, and_false, false_and, and_self, h8]
    exact f8

/-- Settles O57: each register and port command is one of its cases, and the fetch, response and mirror rules above. -/
theorem ringsAndRegistersAnswer : Obligations.RingsAndRegistersAnswer := by
  intro s
  refine ⟨?_, s.fetch_idle, ?_, ?_, s.response_none, ?_, ?_, ?_, fun d hd l off n => s.i2c_other hd l off n, ?_,
    s.i2cAnswers_default, ?_, ?_, ?_, ?_, ?_, ?_⟩
  · intro q v
    refine ⟨s.ring_of_notMgmt, fun hq => ⟨fun hh => ⟨fun hc => ?_, fun hc => ?_⟩, s.rspHead_of_holder hq,
      fun p hp hpq => s.ring_of_other hq hp hpq⟩⟩
    · rw [s.tail_of_holder hq hh, (s.heldBy q).writeTail_within hc]
      rfl
    · exact ⟨_, s.tail_of_holder hq hh, (s.heldBy q).writeTail_beyond hc⟩
  · intro h0 h1 h2 h3 hr e hi he
    obtain ⟨hm, hh, -, hp⟩ := s.headTaken.fetched_joins .ring hr hi he
    exact ⟨_, s.fetch_takes h0 h1 h2 h3, hm, hh, hp⟩
  · intro hd
    refine ⟨fun hg => ?_, fun hg hr hi he => ?_⟩
    · rw [s.i2cGo_on hd, State.i2cStart, hg]
      rfl
    · obtain ⟨hm, -, hgo, hp⟩ := (s.onCtl fun k => { k with i2cGo := true }).fetched_joins .i2c hr hi he
      refine ⟨_, s.i2cGo_on hd, ?_⟩
      rw [State.i2cStart, hg, if_neg (by decide)]
      exact ⟨hgo, hm, hp⟩
  · intro r rest h
    refine ⟨fun hp hr => ⟨_, s.response_ring h hp hr, ?_, ?_, ?_, ?_⟩, fun hp => ⟨_, s.response_i2c h hp, ?_, ?_, ?_, ?_, ?_, ?_⟩⟩
    · rfl
    · simp only [State.onCtl_mem, State.onMem_mem, State.alert_mem]
    · rfl
    · exact State.alert_bit (s.onCtl fun k => { k with completed := rest }) (by decide)
    · rfl
    · rfl
    · rfl
    · rfl
    · rfl
    · exact State.alert_bit (s.onCtl fun k => { k with completed := rest }) (by decide)
  · intro d hd a b l
    refine ⟨fun hl ho => ?_, fun hl => ?_⟩
    · rw [s.i2cWrite_regs hd, i2cRegs_one _ _ hl ho (by omega)]
      rfl
    · rw [s.i2cWrite_regs hd, i2cRegs_short _ _ hl]
      rfl
  · intro d hd off ho
    refine ⟨_, if_neg (by rw [hd]; decide), ?_⟩
    rw [i2cBytes_register s.dcsReg ho off.isLt s.ctl.i2cLatch]
    exact ⟨rfl, rfl⟩
  · exact fun h => ⟨if_pos h, s.i2cAnswers_off h⟩
  · exact fun m => congrArg Host.Outcome.next (s.clearAlerts_word m)
  · exact fun v => congrArg Host.Outcome.next (s.writeMask_word v)
  · intro m v
    refine ⟨fun hm => congrArg Host.Outcome.next (if_neg (Nat.not_lt.mpr hm)), fun hm =>
      ⟨s.writeActiveMax m v, congrArg Host.Outcome.next (if_pos hm), ?_⟩⟩
    obtain ⟨ho, hj⟩ := s.writeActiveMax_outer m v
    obtain ⟨h8, h24, h4⟩ := activeMaxOf_range v
    refine ⟨hj, fun hn => ?_, fun hsome => ?_⟩
    · rw [ho, Outer.withActiveMax_free hn]
      exact ⟨rfl, h8, h24, h4⟩
    · rw [ho, Outer.withActiveMax_held hsome]
      exact ⟨rfl, rfl⟩
  · intro c off v hc
    exact ⟨s.sliceWrite_scrub hc v, s.sliceWrite_other c off v, s.routerWrite c off v, rfl, rfl, rfl⟩
  · intro h
    show execTelemetryRewrite s = _
    unfold execTelemetryRewrite
    rw [h]
    exact if_pos rfl
  · intro h
    have hr : s.fw.schRestart = false := by
      unfold State.fwRuns at h
      rw [Bool.and_eq_true, Bool.and_eq_true, Bool.not_eq_true', Bool.not_eq_true'] at h
      exact h.1.1
    exact ⟨s.mirrored, s.telemetryRewrite_runs h, rfl, rfl, s.mirrored_regs hr⟩

end Sys2Proof.Machine
end

