-- ==== Sys2Proof/Proofs/CommandTurns.lean ====
section
/-!
What every mailbox command has in common: when it waits for its turn, and how it is refused.
-/

namespace Sys2Proof.Machine

/-- Every mailbox command runs through `State.command`, ENTER_COCOON only where no compute reset goes on. -/
theorem exec_of_cmdOf {i : Instr} {h : CmdHdr} {op : Nat} (hi : cmdOf i = some (h, op)) (s : State) :
    (∃ body, exec i s = s.command h op body) ∨ (op = 0x0A04 ∧ s.fw.resetStep ≠ 0 ∧ exec i s = .next s) := by
  unfold cmdOf at hi
  split at hi
  case h_43 h' b =>
    cases hi
    by_cases hr : s.fw.resetStep = 0
    · exact Or.inl ⟨_, if_neg (Classical.not_not.mpr hr)⟩
    · exact Or.inr ⟨rfl, hr, if_pos hr⟩
  all_goals cases hi
  all_goals
    left
    simp only [exec,
      execGetInfo, execComputeReset, execDeviceReset, execConfig, execOpenSession, execSubmitProgram, execRemoveProgram,
      execRegisterModel, execRemoveModel, execSetResidency, execRegisterAdapter, execRemoveAdapter, execPrefix,
      execRegisterTokeniser, execFinetune, execServiceSet, execGetService, execSubmitTask, execCancelTask, execGetTaskState,
      execOpenEpoch, execCommit, execDiscard, execSetReady, execSubmitCollective, execWindow, execRegion, execRetire,
      execUnitRegs, execExportWindow, execSetPowerCap, execSetProboscis, execDomain, execGetPower, execGetThermal,
      execGetRth, execStageFirmware, execActivateFirmware, execGetFirmware, execTakeOwnership, execTenant, execGetQuote,
      execGetConditionReport, execResetServiceCounters, execMacsecKey, execGuestFirewall, execGetErrorLog, execInjectError,
      execLink, execSetLysId, execWriteRoutes, execGroup, execPort]
    exact ⟨_, rfl⟩

/-! ### Waiting -/

theorem State.command_absent (s : State) {h : CmdHdr} {op : Nat} (body : State → State)
    (hn : ∀ c ∈ s.ctl.inProgress, ¬ (c.hdr = h ∧ c.op = op ∧ c.started = false)) : s.command h op body = .next s := by
  have hf : (s.ctl.inProgress.find? fun c => c.hdr = h && c.op == op && !c.started) = none := by
    rw [List.find?_eq_none]
    intro c hc hp
    rw [Bool.and_eq_true, Bool.and_eq_true, decide_eq_true_eq, beq_iff_eq, Bool.not_eq_true'] at hp
    exact hn c hc ⟨hp.1.1, hp.1.2, hp.2⟩
  unfold State.command
  rw [hf]

theorem State.command_waits (s : State) {h : CmdHdr} {op : Nat} {c : Cmd} (body : State → State)
    (hf : (s.ctl.inProgress.find? fun c => c.hdr = h && c.op == op && !c.started) = some c)
    (hw : s.fw.schRestart = true ∨ s.ctl.turn c = false) : s.command h op body = .next s := by
  unfold State.command
  rw [hf]
  refine if_pos ?_
  rw [Bool.or_eq_true, Bool.not_eq_true']
  exact hw

/-! ### Refusal -/

/-- Command `c` alone is in progress, undiscarded, and it is its turn. -/
structure State.Turn (s : State) (c : Cmd) : Prop where
  alone : s.ctl.inProgress = [c]
  notStarted : c.started = false
  kept : c.discard = false
  runs : s.fw.schRestart = false
  turn : s.ctl.turn c = true

/-- A command that has started. -/
def Cmd.begun (c : Cmd) : Cmd := { c with started := true }

/-- The state with the one command started. -/
def State.startedWith (s : State) (c : Cmd) : State := s.onCtl fun k => { k with inProgress := [c.begun] }

/-- The state in which the one command `c` has been answered. -/
def State.answeredFor (s : State) (c : Cmd) (st : Nat) (eff : Bool) (d : Word) (res : List Byte) : State := s.onCtl fun k => { k with
  inProgress := []
  completed := k.completed ++ [{ hdr := c.hdr, op := c.op, status := st, effect := eff, detail := d, results := res, endTime := s.now }] }

/-- Answering the command that alone has started changes nothing but its place. -/
theorem State.respond_alone (s : State) {c : Cmd} (hd : c.discard = false) (st : Nat) (eff : Bool) (d : Word) (res : List Byte) :
    (s.startedWith c).respond c.hdr c.op st eff d res = s.answeredFor c st eff d res := by
  have hf : ((s.startedWith c).ctl.inProgress.find? fun x => x.hdr = c.hdr && x.op == c.op) = some c.begun :=
    List.find?_cons_of_pos (by rw [Bool.and_eq_true, decide_eq_true_eq, beq_iff_eq]; exact ⟨rfl, rfl⟩)
  unfold State.respond
  rw [hf]
  dsimp only
  rw [if_neg (by rw [show c.begun.discard = false from hd]; decide),
    show (s.startedWith c).ctl.inProgress.erase c.begun = [] from List.erase_cons_head ..]
  rfl

theorem State.Turn.begins {s : State} {c : Cmd} (ht : s.Turn c) :
    (s.ctl.inProgress.find? fun x => x.hdr = c.hdr && x.op == c.op && !x.started) = some c ∧
      (s.onCtl fun k => { k with inProgress := k.inProgress.replace c { c with started := true } }) = s.startedWith c := by
  constructor
  · rw [ht.alone]
    refine List.find?_cons_of_pos ?_
    rw [ht.notStarted, Bool.and_eq_true, Bool.and_eq_true, decide_eq_true_eq, beq_iff_eq]
    exact ⟨⟨rfl, rfl⟩, rfl⟩
  · show ({ s with ctl := { s.ctl with inProgress := s.ctl.inProgress.replace c { c with started := true } } } : State) = _
    rw [ht.alone, List.replace_cons_self]
    rfl

theorem State.Turn.refused {s : State} {c : Cmd} (ht : s.Turn c) {st : Nat} (hr : s.cmdRefusal c.hdr.path c.op = some st)
    (body : State → State) : s.command c.hdr c.op body = .next (s.answeredFor c st false 0 []) := by
  obtain ⟨hf, hs⟩ := ht.begins
  unfold State.command
  rw [hf]
  dsimp only
  rw [ht.runs, ht.turn, if_neg (by decide), hs, show (s.startedWith c).cmdRefusal c.hdr.path c.op = some st from hr]
  exact congrArg Host.Outcome.next (s.respond_alone ht.kept st false 0 [])

/-- A command whose buffer the host owned at its fetch is answered BAD_ARG. -/
theorem State.Turn.notOwned {s : State} {c : Cmd} (ht : s.Turn c) (hr : s.cmdRefusal c.hdr.path c.op = none)
    (ho : c.hostOwned = true) (body : State → State) :
    s.command c.hdr c.op body =
      .next ((s.answeredFor c stBadArg false 0 []).stampWall s.log.next s.log.open_.length c.wall) := by
  obtain ⟨hf, hs⟩ := ht.begins
  unfold State.command
  rw [hf]
  dsimp only
  rw [ht.runs, ht.turn, if_neg (by decide), hs, show (s.startedWith c).cmdRefusal c.hdr.path c.op = none from hr]
  dsimp only
  rw [ho, if_pos rfl, s.respond_alone ht.kept]

/-- Settles O50: every command of R441 runs through `State.command`, whose four ways not to run are the clauses. -/
theorem commandsWaitForTheirTurn : Obligations.CommandsWaitForTheirTurn := by
  intro i h op s hi
  rcases exec_of_cmdOf hi s with ⟨body, he⟩ | ⟨hop, hreset, he⟩
  · rw [he]
    refine ⟨s.command_absent body, fun c hf hw => s.command_waits body hf hw, ?_, ?_⟩
    · rintro c st ha rfl rfl hn hd hrun ht hr -
      exact ⟨_, State.Turn.refused ⟨ha, hn, hd, hrun, ht⟩ hr body, ⟨rfl, rfl⟩, rfl, rfl, rfl, rfl, rfl, rfl, rfl, rfl, rfl, rfl, rfl⟩
    · rintro c ha rfl rfl hn hd hrun ht hr ho -
      exact ⟨_, State.Turn.notOwned ⟨ha, hn, hd, hrun, ht⟩ hr ho body, ⟨rfl, rfl⟩, rfl, rfl, rfl, rfl⟩
  · exact ⟨fun _ => he, fun _ _ _ => he, fun _ _ _ _ _ _ _ _ _ _ h0 => absurd (h0 hop) hreset,
      fun _ _ _ _ _ _ _ _ _ _ h0 => absurd (h0 hop) hreset⟩

end Sys2Proof.Machine
end

