-- ==== Sys2Proof/Proofs/FeedsAndResets.lean ====
section
/-!
Cold starts and device resets, and the feeds, RST_N and the sag sequence that lead to them.
-/

namespace Sys2Proof.Machine

/-! ### What a cold start and a device reset leave -/

/-- State `t` differs from `s` only in what the retirement table and the profile set. -/
structure State.Prepared (s t : State) : Prop where
  eq : t = { s with
    slices := t.slices, outers := t.outers, clusters := t.clusters, lys := t.lys, net := t.net
    pwr := { s.pwr with capW := t.pwr.capW, srcCfg := t.pwr.srcCfg } }

namespace State.Prepared

variable {s t u : State}

theorem trans (h₁ : s.Prepared t) (h₂ : t.Prepared u) : s.Prepared u := by
  constructor
  rw [h₂.eq, h₁.eq]

theorem mem (h : s.Prepared t) : t.mem = s.mem := by rw [h.eq]
theorem cores (h : s.Prepared t) : t.cores = s.cores := by rw [h.eq]
theorem dev (h : s.Prepared t) : t.dev = s.dev := by rw [h.eq]
theorem fw (h : s.Prepared t) : t.fw = s.fw := by rw [h.eq]
theorem now (h : s.Prepared t) : t.now = s.now := by rw [h.eq]
theorem log (h : s.Prepared t) : t.log = s.log := by rw [h.eq]
theorem feedA (h : s.Prepared t) : t.pwr.feedA = s.pwr.feedA := by rw [h.eq]
theorem feedB (h : s.Prepared t) : t.pwr.feedB = s.pwr.feedB := by rw [h.eq]
theorem rstLow (h : s.Prepared t) : t.pwr.rstLow = s.pwr.rstLow := by rw [h.eq]
theorem thermtrip (h : s.Prepared t) : t.pwr.thermtrip = s.pwr.thermtrip := by rw [h.eq]

end State.Prepared

theorem State.applyEntry_prepared (s : State) (r : Retired) : s.Prepared (s.applyEntry r) := by
  constructor
  cases r <;> rfl

theorem State.applyRetired_prepared (s : State) (rs : List Retired) : s.Prepared (s.applyRetired rs) := by
  unfold State.applyRetired
  induction rs generalizing s with
  | nil => exact ⟨rfl⟩
  | cons r rs ih => exact (s.applyEntry_prepared r).trans (ih _)

theorem State.applied_profiled (s : State) (rs : List Retired) : s.Prepared (s.applyRetired rs).profiled :=
  (s.applyRetired_prepared rs).trans ⟨rfl⟩

/-- The state of a cold start before the retirement table and the profile are applied. -/
def State.coldBare (s : State) (d : DevState) : State :=
  { pending := s.pending, free := s.free, sent := s.sent, reqNo := s.reqNo, dev := d
    fw := s.fw.kept, ident := s.ident.kept, life := s.life.fromJournal, heat := s.heat.kept
    ctl := { serial := s.ctl.serial, mac := s.ctl.mac, stepping := s.ctl.stepping }
    pwr := {
      feedA := s.pwr.feedA, feedB := s.pwr.feedB, conducting := s.pwr.conducting, rowJ := s.pwr.rowJ
      rstLow := s.pwr.rstLow } }

theorem State.cold_prepared (s : State) (d : DevState) : (s.coldBare d).Prepared (s.cold d) :=
  (s.coldBare d).applied_profiled _

theorem State.powerUp_spec (s : State) :
    s.powerUp.dev = .powering ∧ s.powerUp.mem = {} ∧ s.powerUp.cores = [] ∧
      s.powerUp.fw = { s.fw.kept with coldStarts := satAdd 32 s.fw.coldStarts 1 } ∧
      s.powerUp.pwr.feedA = s.pwr.feedA ∧ s.powerUp.pwr.feedB = s.pwr.feedB := by
  have h := s.cold_prepared .powering
  refine ⟨h.dev, h.mem, h.cores, ?_, h.feedA, h.feedB⟩
  unfold State.powerUp
  rw [State.onFw_fw, h.fw]
  rfl

theorem State.deviceReset_spec (s : State) :
    s.deviceReset.dev = .rom ∧ s.deviceReset.mem = {} ∧ s.deviceReset.cores = [] ∧ s.deviceReset.now = s.now ∧
      s.deviceReset.log.ring = [] ∧ s.deviceReset.fw.rstHeld = s.pwr.rstLow ∧ s.deviceReset.pwr.rstLow = s.pwr.rstLow := by
  unfold State.deviceReset
  dsimp only
  generalize (s.fw.retired ++ s.fw.toRetire).eraseDups = rs
  refine ⟨(State.applied_profiled _ rs).dev, (State.applied_profiled _ rs).mem, (State.applied_profiled _ rs).cores,
    (State.applied_profiled _ rs).now, ?_, ?_, (State.applied_profiled _ rs).rstLow⟩
  · rw [(State.applied_profiled _ rs).log]
  · rw [(State.applied_profiled _ rs).fw]

/-! ### Feeds -/

theorem Pwr.feed_modFeed (p : Pwr) {f : Nat} (hf : f < 2) (g : Feed → Feed) : (p.modFeed f g).feed f = g (p.feed f) := by
  obtain rfl | rfl : f = 0 ∨ f = 1 := by omega
  · rfl
  · rfl

theorem Pwr.feed_modFeed_other (p : Pwr) {f : Nat} (hf : f < 2) (g : Feed → Feed) : (p.modFeed f g).feed (1 - f) = p.feed (1 - f) := by
  obtain rfl | rfl : f = 0 ∨ f = 1 := by omega
  · rfl
  · rfl

theorem Pwr.modFeed_keeps (p : Pwr) (f : Nat) (g : Feed → Feed) :
    (p.modFeed f g).conducting = p.conducting ∧ (p.modFeed f g).switchOvers = p.switchOvers := by
  unfold Pwr.modFeed
  split <;> exact ⟨rfl, rfl⟩

/-- Feeds `a` and `b` are what they are in `p`. -/
theorem Pwr.feed_congr {p q : Pwr} (ha : p.feedA = q.feedA) (hb : p.feedB = q.feedB) (f : Nat) : p.feed f = q.feed f := by
  unfold Pwr.feed
  rw [ha, hb]

theorem State.feedOk_feed (s : State) {f : Nat} (hf : f < 2) : ((s.feedOk f).pwr.feed f).ok = true := by
  obtain rfl | rfl : f = 0 ∨ f = 1 := by omega
  · rfl
  · rfl

theorem State.feedOk_someOk (s : State) {f : Nat} (hf : f < 2) : (s.feedOk f).pwr.feedA.ok = true ∨ (s.feedOk f).pwr.feedB.ok = true := by
  obtain rfl | rfl : f = 0 ∨ f = 1 := by omega
  · exact Or.inl rfl
  · exact Or.inr rfl

theorem State.feedOk_keeps (s : State) (f : Nat) :
    (s.feedOk f).pwr.recorded = s.pwr.recorded ∧ (s.feedOk f).pwr.thermtrip = s.pwr.thermtrip := by
  unfold State.feedOk Pwr.modFeed
  rw [State.onPwr_pwr]
  split <;> exact ⟨rfl, rfl⟩

theorem State.leaveSaving_other (s : State) (h : s.dev ≠ .saving) : s.leaveSaving = s := if_pos (Or.inl h)

theorem State.leaveSaving_up (s : State) (hd : s.dev = .saving) (hr : s.pwr.recorded = true) (ht : s.pwr.thermtrip = false)
    (ho : s.pwr.feedA.ok = true ∨ s.pwr.feedB.ok = true) : s.leaveSaving = s.powerUp := by
  unfold State.leaveSaving
  rw [hr, ht, if_neg (by simp [hd]), if_neg (by decide), if_pos ho]

theorem State.feedLost_spec (s : State) {f : Nat} (hf : f < 2) :
    ((s.feedLost f).pwr.feed f).ok = false ∧ (s.feedLost f).pwr.feed (1 - f) = s.pwr.feed (1 - f) ∧
      ((s.feedLost f).pwr.feed f).connected = (s.pwr.feed f).connected ∧ ((s.feedLost f).pwr.feed f).mated = (s.pwr.feed f).mated ∧
      (s.feedLost f).pwr.conducting = s.pwr.conducting ∧ (s.feedLost f).pwr.switchOvers = s.pwr.switchOvers ∧
      (s.feedLost f).life.switchovers = s.life.switchovers := by
  cases hok : (s.pwr.feed f).ok with
  | false =>
    have h : s.feedLost f = s := if_pos (by rw [hok]; rfl)
    rw [h]
    exact ⟨hok, rfl, rfl, rfl, rfl, rfl, rfl⟩
  | true =>
    obtain ⟨h1, h2⟩ := s.pwr.modFeed_keeps f fun x => { x with ok := false }
    have hp : (s.feedLost f).pwr = s.pwr.modFeed f fun x => { x with ok := false } := by
      unfold State.feedLost
      rw [hok, if_neg (by decide)]
      dsimp only
      split
      · rfl
      · rw [State.alert_pwr, State.logEvent_pwr, State.onPwr_pwr]
    have hl : (s.feedLost f).life.switchovers = s.life.switchovers := by
      unfold State.feedLost
      rw [hok, if_neg (by decide)]
      dsimp only
      split
      · rfl
      · rw [State.alert_life, ((State.Accessed.refl (s.onPwr _)).logEvent .feedLost _).eq]
        rfl
    rw [hp]
    refine ⟨?_, s.pwr.feed_modFeed_other hf _, ?_, ?_, h1, h2, hl⟩
    all_goals rw [s.pwr.feed_modFeed hf]

theorem State.feedLost_alerts (s : State) {f : Nat} (hok : (s.pwr.feed f).ok = true) (hd : s.dev ≠ .off) :
    (s.feedLost f).ctl.alertPending.getLsbD alPower = true := by
  unfold State.feedLost
  rw [hok, if_neg (by decide), if_neg hd]
  exact State.alert_bit _ (by decide)

theorem State.conduct_feeds (s : State) (c : Nat) :
    (s.conduct c).pwr.feedA = s.pwr.feedA ∧ (s.conduct c).pwr.feedB = s.pwr.feedB ∧ (s.conduct c).pwr.conducting = c ∧
      (s.conduct c).pwr.powerMw = s.pwr.powerMw ∧ (s.conduct c).pwr.vpkgA = s.pwr.vpkgA := by
  unfold State.conduct
  dsimp only
  split <;> exact ⟨rfl, rfl, rfl, rfl, rfl⟩

theorem State.conduct_over (s : State) {f : Nat} (hf : f < 2) (hc : s.pwr.conducting = conductingOf f) :
    (s.conduct (conductingOf (1 - f))).pwr.switchOvers = satAdd 32 s.pwr.switchOvers 1 ∧
      (s.conduct (conductingOf (1 - f))).life.switchovers = satAdd 32 s.life.switchovers 1 := by
  unfold State.conduct
  rw [hc, if_pos (by unfold conductingOf; omega)]
  exact ⟨rfl, rfl⟩

theorem State.moveLoad_moves (s : State) {f : Nat} (hc : s.pwr.conducting = conductingOf f) (ho : (s.pwr.feed (1 - f)).ok = true)
    (hn : (s.pwr.feed (1 - f)).connected = true) (hm : (s.pwr.feed (1 - f)).mated = true) :
    s.moveLoad f = s.conduct (conductingOf (1 - f)) := by
  unfold State.moveLoad
  dsimp only
  rw [if_neg (fun h => h.1 hc), if_pos ⟨ho, hn, hm⟩]

/-- The load leaves feed `f` and the other one, which is usable, takes it: a switch-over. -/
theorem State.moveLoad_spec (s : State) {f : Nat} (hf : f < 2) (hc : s.pwr.conducting = conductingOf f)
    (ho : (s.pwr.feed (1 - f)).ok = true) (hn : (s.pwr.feed (1 - f)).connected = true) (hm : (s.pwr.feed (1 - f)).mated = true) :
    (s.moveLoad f).pwr.feed f = s.pwr.feed f ∧ (s.moveLoad f).pwr.conducting = conductingOf (1 - f) ∧
      (s.moveLoad f).pwr.switchOvers = satAdd 32 s.pwr.switchOvers 1 ∧
      (s.moveLoad f).life.switchovers = satAdd 32 s.life.switchovers 1 := by
  obtain ⟨ha, hb, hcond, -⟩ := s.conduct_feeds (conductingOf (1 - f))
  obtain ⟨hs, hl⟩ := s.conduct_over hf hc
  rw [s.moveLoad_moves hc ho hn hm]
  exact ⟨Pwr.feed_congr ha hb f, hcond, hs, hl⟩

theorem State.dropFeed_taken (s : State) {f : Nat} (hf : f < 2) (hc : s.pwr.conducting = conductingOf (1 - f)) : s.dropFeed f = s := by
  unfold State.dropFeed
  rw [hc, if_neg (by unfold conductingOf; omega), if_neg (by unfold conductingOf; omega)]

/-- A feed whose connection is cut by `g` leaves the load to the other one. -/
theorem State.feedCut_spec (s : State) {f : Nat} (hf : f < 2) (g : Feed → Feed) (hc : s.pwr.conducting = conductingOf f)
    (ho : (s.pwr.feed (1 - f)).ok = true) (hn : (s.pwr.feed (1 - f)).connected = true) (hm : (s.pwr.feed (1 - f)).mated = true) :
    let t := (((s.onPwr fun p => p.modFeed f g).feedLost f).moveLoad f)
    (t.pwr.feed f).connected = (g (s.pwr.feed f)).connected ∧ (t.pwr.feed f).mated = (g (s.pwr.feed f)).mated ∧
      (t.pwr.feed f).ok = false ∧ t.pwr.conducting = conductingOf (1 - f) ∧ t.pwr.switchOvers = satAdd 32 s.pwr.switchOvers 1 := by
  intro t
  have hp : (s.onPwr fun p => p.modFeed f g).pwr = s.pwr.modFeed f g := rfl
  obtain ⟨m1, m2⟩ := s.pwr.modFeed_keeps f g
  obtain ⟨l1, l2, l3, l4, l5, l6, -⟩ := (s.onPwr fun p => p.modFeed f g).feedLost_spec hf
  rw [hp, s.pwr.feed_modFeed_other hf] at l2
  rw [hp, s.pwr.feed_modFeed hf] at l3 l4
  rw [hp, m1] at l5
  rw [hp, m2] at l6
  obtain ⟨k1, k2, k3, -⟩ := State.moveLoad_spec ((s.onPwr fun p => p.modFeed f g).feedLost f) hf (l5.trans hc) (by rw [l2]; exact ho)
    (by rw [l2]; exact hn) (by rw [l2]; exact hm)
  exact ⟨by rw [k1, l3], by rw [k1, l4], by rw [k1, l1], k2, by rw [k3, l6]⟩

theorem State.feedSwitchover_moves (s : State) {f : Nat} (hf : f < 2) (hc : s.pwr.conducting = conductingOf f) :
    exec .feedSwitchover s = .next (s.moveLoad f) := by
  show execFeedSwitchover s = _
  unfold execFeedSwitchover
  obtain rfl | rfl : f = 0 ∨ f = 1 := by omega
  · exact if_pos hc
  · rw [hc]
    rfl

/-! ### RST_N and the sag record -/

theorem State.rstNAssert_resets (s : State) (h0 : s.dev ≠ .off) (h1 : s.dev ≠ .saving) (h2 : s.dev ≠ .tripped) :
    exec .rstNAssert s = .next (s.onPwr fun p => { p with rstLow := true }).deviceReset := if_neg (by simp [h0, h1, h2])

theorem State.leaveSaving_spec (s : State) (hd : s.dev = .saving) (hr : s.pwr.recorded = true) :
    s.leaveSaving.fw.lastGasp = s.fw.lastGasp ∧
      s.leaveSaving.dev = if s.pwr.thermtrip then .tripped else if s.pwr.feedA.ok ∨ s.pwr.feedB.ok then .powering else .saving := by
  unfold State.leaveSaving
  rw [if_neg (by simp [hd, hr])]
  by_cases ht : s.pwr.thermtrip = true
  · rw [if_pos ht, if_pos ht]
    exact ⟨rfl, rfl⟩
  · rw [if_neg ht, if_neg ht]
    by_cases ho : s.pwr.feedA.ok = true ∨ s.pwr.feedB.ok = true
    · obtain ⟨hp, -, -, hf, -⟩ := s.powerUp_spec
      rw [if_pos ho, if_pos ho, hf]
      exact ⟨rfl, hp⟩
    · rw [if_neg ho, if_neg ho]
      exact ⟨rfl, hd⟩

/-- The record written into the lowest erased slot. -/
def State.gaspStored (s : State) (r : GaspRec) : State :=
  match lowestFree (keys s.fw.lastGasp) 64 with
  | none => s
  | some i => s.onFw fun f => { f with lastGasp := put f.lastGasp i r }

theorem State.gaspStored_spec (s : State) (r : GaspRec) :
    (s.gaspStored r).dev = s.dev ∧ (s.gaspStored r).pwr = s.pwr ∧
      ∀ i, lowestFree (keys s.fw.lastGasp) 64 = some i → look (s.gaspStored r).fw.lastGasp i = some r := by
  unfold State.gaspStored
  cases lowestFree (keys s.fw.lastGasp) 64 with
  | none => exact ⟨rfl, rfl, fun i hi => by cases hi⟩
  | some j =>
    refine ⟨rfl, rfl, fun i hi => ?_⟩
    cases hi
    exact look_put_same _ _ _

theorem State.sagRecordDone_stores (s : State) (mv : Nat) {r : GaspRec} (hd : s.dev = .saving) (hr : s.pwr.sagRec = some r) :
    exec (.sagRecordDone mv) s = .next (((s.onPwr fun p => { p with sagRec := none, recorded := true }).gaspStored
      { r with atEnd := (s.pwr.feedA.mv, s.pwr.feedB.mv, mv) }).leaveSaving) := by
  show execSagRecordDone mv s = _
  unfold execSagRecordDone
  rw [hd, hr]
  rfl

/-- The state with a power measurement stored. -/
def State.measured (s : State) (a b w v : Nat) : State := s.onPwr fun p => { p with
  feedA := { p.feedA with mv := a }, feedB := { p.feedB with mv := b }, powerMw := w, vpkgA := v }

/-- Settles O48: the feeds' commands by their helpers above, the starts and resets by what a cold start and a reset leave. -/
theorem feedsResetAndSag : Obligations.FeedsResetAndSag := by
  intro s
  refine ⟨fun f hf => ⟨?_, ?_, ?_, ?_, ?_, ?_⟩, rfl, rfl, fun h => if_neg h, ?_, ?_, ?_, ?_⟩
  · intro h
    obtain ⟨h1, h2, h3, h4, h5, h6⟩ := (s.feedOk f).powerUp_spec
    refine ⟨(s.feedOk f).powerUp, ?_, h1, ?_, h2, h3, ?_⟩
    · show execFeedInRange f s = _
      unfold execFeedInRange
      rw [if_neg (Nat.not_le.mpr hf), h]
      rfl
    · rw [Pwr.feed_congr h5 h6]
      exact s.feedOk_feed hf
    · rw [h4]
      rfl
  · intro h0 h1
    refine ⟨?_, s.feedOk_feed hf⟩
    show execFeedInRange f s = _
    unfold execFeedInRange
    rw [if_neg (Nat.not_le.mpr hf)]
    dsimp only
    rw [if_neg h0, (s.feedOk f).leaveSaving_other h1]
  · intro hd hr ht
    refine ⟨_, ?_, (s.feedOk f).powerUp_spec.1⟩
    rw [← (s.feedOk f).leaveSaving_up hd ((s.feedOk_keeps f).1.trans hr) ((s.feedOk_keeps f).2.trans ht) (s.feedOk_someOk hf)]
    exact if_neg (by simp [hd, hf])
  · intro hok hd
    obtain ⟨h1, -, -, -, h5, -⟩ := s.feedLost_spec hf
    exact ⟨_, if_neg (Nat.not_le.mpr hf), h1, s.feedLost_alerts hok hd, h5⟩
  · intro o hc ho hn hm
    refine ⟨?_, ?_, ?_⟩
    · obtain ⟨h1, -, h3, h4, h5⟩ := s.feedCut_spec hf (fun x => { x with connected := false }) hc ho hn hm
      refine ⟨_, ?_, h1, h3, h4, h5⟩
      show execFeedOvervoltage f s = _
      unfold execFeedOvervoltage
      rw [if_neg (Nat.not_le.mpr hf), State.dropFeed_taken _ hf h4]
    · obtain ⟨-, h2, h3, h4, h5⟩ := s.feedCut_spec hf (fun x => { x with mated := false }) hc ho hn hm
      exact ⟨_, if_neg (Nat.not_le.mpr hf), h2, h3, h4, h5⟩
    · obtain ⟨-, h2, h3, h4⟩ := s.moveLoad_spec hf hc ho hn hm
      exact ⟨_, s.feedSwitchover_moves hf hc, h2, h3, h4⟩
  · exact ⟨_, if_neg (Nat.not_le.mpr hf), s.pwr.feed_modFeed hf _⟩
  · intro h
    have hc := s.cold_prepared .off
    refine ⟨_, if_neg (by rcases h with h | h | h <;> simp [h]), hc.dev, rfl, rfl, rfl, rfl, hc.thermtrip, hc.mem⟩
  · intro h0 h1 h2
    refine ⟨?_, fun mv => ?_⟩
    · obtain ⟨r1, r2, -, r4, r5, r6, r7⟩ := (s.onPwr fun p => { p with rstLow := true }).deviceReset_spec
      exact ⟨_, s.rstNAssert_resets h0 h1 h2, r1, r7, r6, r2, r4, r5, _, rfl, rfl, rfl⟩
    · exact ⟨_, _, if_neg (by simp [h0, h1, h2]), rfl, rfl, rfl, rfl, rfl, rfl, rfl, rfl, rfl, rfl⟩
  · intro mv r hd hr
    obtain ⟨g1, g2, g3⟩ := (s.onPwr fun p => { p with sagRec := none, recorded := true }).gaspStored_spec
      { r with atEnd := (s.pwr.feedA.mv, s.pwr.feedB.mv, mv) }
    obtain ⟨l1, l2⟩ := State.leaveSaving_spec _ (g1.trans hd) (by rw [g2]; rfl)
    refine ⟨_, s.sagRecordDone_stores mv hd hr, fun i hi => ?_, ?_⟩
    · rw [l1]
      exact g3 i hi
    · rw [l2, g2]
      rfl
  · intro a b w v hd u hA hB
    obtain ⟨c1, c2, c3, c4, c5⟩ := (s.measured a b w v).conduct_feeds (if a < b + 200 ∧ b < a + 200 then 3 else if b < a then 1 else 2)
    refine ⟨((s.measured a b w v).conduct (if a < b + 200 ∧ b < a + 200 then 3 else if b < a then 1 else 2)).onLife fun l =>
      { l with energy := l.energy + w }, ?_, congrArg Feed.mv c1, congrArg Feed.mv c2, c4, c5, c3⟩
    show execPowerMeasure a b w v s = _
    unfold execPowerMeasure
    rw [if_neg hd]
    dsimp only
    rw [if_pos ⟨hA, hB⟩]
    rfl

end Sys2Proof.Machine
end

