-- ==== Sys2Proof/Proofs/EthernetPorts.lean ====
section
/-!
Ethernet ports: their states, priority flow control and the frames they send.
-/

namespace Sys2Proof.Machine

@[simp] theorem State.emit_portSt (s : State) (m : Sent) (p : Nat) : (s.emit m).portSt p = s.portSt p := rfl
@[simp] theorem State.alert_portSt (s : State) (b p : Nat) : (s.alert b).portSt p = s.portSt p := rfl

@[simp] theorem State.logEvent_portSt (s : State) (e : Ev) (i : EvInfo) (p : Nat) : (s.logEvent e i).portSt p = s.portSt p := by
  rw [State.portSt, State.logEvent_net]
  rfl

/-- What an event leaves in the log comes from the log and the hub time alone. -/
theorem State.logEvent_log_congr {s t : State} (hl : s.log = t.log) (hn : s.now = t.now) (e : Ev) (i : EvInfo) :
    (s.logEvent e i).log = (t.logEvent e i).log := by
  have hr : s.recordOf e i = t.recordOf e i := by rw [State.recordOf, State.recordOf, hn]
  rw [State.logEvent_log, State.logEvent_log, hr]
  unfold State.logRec State.writeRecord
  dsimp only
  rw [hl]
  split
  · rfl
  · split <;> rfl

/-- An alert that is pending stays so when an event is logged. -/
theorem State.alert_keeps {s : State} {b : Nat} (h : s.ctl.alertPending.getLsbD b = true) (c : Nat) :
    (s.alert c).ctl.alertPending.getLsbD b = true := by
  show (s.ctl.alertPending ||| (1#64 <<< c)).getLsbD b = true
  rw [BitVec.getLsbD_or, h, Bool.true_or]

theorem State.logEvent_keepsAlert {s : State} {b : Nat} (h : s.ctl.alertPending.getLsbD b = true) (e : Ev) (i : EvInfo) :
    (s.logEvent e i).ctl.alertPending.getLsbD b = true := by
  have hr : ∀ r, (s.logRec r).ctl.alertPending.getLsbD b = true := by
    intro r
    unfold State.logRec State.writeRecord
    split
    · exact h
    · dsimp only
      split
      · exact State.alert_keeps (s := { s with log := _ }) h alError
      · exact h
  unfold State.logEvent
  dsimp only
  have hc : ∀ u : State, u.ctl.alertPending.getLsbD b = true →
      (if e.thermal then u.alert alThermal else if e.configBad then u.alert alConfig else u).ctl.alertPending.getLsbD b = true := by
    intro u hu
    split
    · exact State.alert_keeps hu _
    · split
      · exact State.alert_keeps hu _
      · exact hu
  refine hc _ ?_
  split <;> exact hr _

theorem filter_insertSet (l : List Nat) (i : Nat) : (insertSet l i).filter (· != i) = l.filter (· != i) := by
  induction l with
  | nil => simp [insertSet]
  | cons k l ih =>
    unfold insertSet
    split
    · simp
    · split
      · rfl
      · rw [List.filter_cons, List.filter_cons, ih]

/-! ### States of a port -/

theorem State.enablePort_disabled (s : State) (p : Nat) (h : (s.portSt p).state = .disabled) :
    s.enablePort p = s.modPort p fun k => { k with enable := true, state := .down } := by
  unfold State.enablePort
  rw [h]

theorem State.enablePort_draining (s : State) (p : Nat) (h : (s.portSt p).state = .draining) :
    s.enablePort p = s.modPort p fun k => { k with enable := true, pendingOn := true } := by
  unfold State.enablePort
  rw [h]

theorem State.enablePort_enabled (s : State) (p : Nat) (h0 : (s.portSt p).state ≠ .disabled) (h1 : (s.portSt p).state ≠ .draining) :
    s.enablePort p = s := by
  unfold State.enablePort
  split
  · exact absurd (by assumption) h0
  · exact absurd (by assumption) h1
  · rfl

theorem State.disablePort_disabled (s : State) (p : Nat) (h : (s.portSt p).state = .disabled) :
    s.disablePort p = s.modPort p fun k => { k with enable := false } := by
  unfold State.disablePort
  rw [h]

theorem State.disablePort_draining (s : State) (p : Nat) (h : (s.portSt p).state = .draining) :
    s.disablePort p = s.modPort p fun k => { k with enable := false, pendingOn := false } := by
  unfold State.disablePort
  rw [h]

theorem State.disablePort_enabled (s : State) (p : Nat) (h0 : (s.portSt p).state ≠ .disabled) (h1 : (s.portSt p).state ≠ .draining) :
    (s.disablePort p).portSt p = { s.portSt p with enable := false, state := .draining } := by
  unfold State.disablePort
  split
  · exact absurd (by assumption) h0
  · exact absurd (by assumption) h1
  · exact (s.alert alLink).modPort_portSt p _
  · exact s.modPort_portSt p _

theorem State.probe_up (s : State) (p : Nat) (v6 : Bool) :
    ((s.probe p v6).portSt p).state = (s.portSt p).state ∧ ((s.probe p v6).portSt p).linkLocalOk = (s.portSt p).linkLocalOk := by
  unfold State.probe State.sendFrame
  rw [State.emit_portSt, State.modPort_portSt]
  cases v6 <;> exact ⟨rfl, rfl⟩

theorem State.startAddr_up (s : State) (p : Nat) (v6 : Bool) :
    ((s.startAddr p v6).portSt p).state = (s.portSt p).state ∧
      ((s.startAddr p v6).portSt p).linkLocalOk = (s.portSt p).linkLocalOk := by
  have hprobe : ∀ f : PortSt → PortSt, (f (s.portSt p)).state = (s.portSt p).state →
      (f (s.portSt p)).linkLocalOk = (s.portSt p).linkLocalOk →
      (((s.modPort p f).probe p v6).portSt p).state = (s.portSt p).state ∧
        (((s.modPort p f).probe p v6).portSt p).linkLocalOk = (s.portSt p).linkLocalOk := by
    intro f h1 h2
    obtain ⟨p1, p2⟩ := (s.modPort p f).probe_up p v6
    rw [p1, p2, State.modPort_portSt]
    exact ⟨h1, h2⟩
  have hdhcp : ∀ f : PortSt → PortSt, (f (s.portSt p)).state = (s.portSt p).state →
      (f (s.portSt p)).linkLocalOk = (s.portSt p).linkLocalOk →
      (((s.modPort p f).sendFrame p frDhcp).portSt p).state = (s.portSt p).state ∧
        (((s.modPort p f).sendFrame p frDhcp).portSt p).linkLocalOk = (s.portSt p).linkLocalOk := by
    intro f h1 h2
    rw [State.sendFrame, State.emit_portSt, State.modPort_portSt]
    exact ⟨h1, h2⟩
  unfold State.startAddr
  dsimp only
  cases v6 with
  | true =>
    rw [if_pos rfl]
    split
    · exact ⟨rfl, rfl⟩
    split
    · exact hprobe _ rfl rfl
    split
    · exact hdhcp _ rfl rfl
    · exact ⟨rfl, rfl⟩
  | false =>
    rw [if_neg Bool.false_ne_true]
    split
    · exact ⟨rfl, rfl⟩
    split
    · exact hprobe _ rfl rfl
    split
    · exact hdhcp _ rfl rfl
    · exact ⟨rfl, rfl⟩

/-- A port that enters UP, before its addresses start. -/
def PortSt.entered (k : PortSt) : PortSt := { k with state := .up, localFault := false, remoteFault := false, linkLocalOk := true }

theorem State.portUp_enters (s : State) {p : Nat} (h : (s.portSt p).state = .down) :
    ∃ t, exec (.portUp p) s = .next t ∧ (t.portSt p).state = .up ∧ (t.portSt p).linkLocalOk = true := by
  refine ⟨((((s.modPort p PortSt.entered).startAddr p false).startAddr p true).sendFrame p frOther), if_neg (Classical.not_not.mpr h), ?_⟩
  obtain ⟨a1, a2⟩ := (s.modPort p PortSt.entered).startAddr_up p false
  obtain ⟨b1, b2⟩ := ((s.modPort p PortSt.entered).startAddr p false).startAddr_up p true
  rw [State.sendFrame, State.emit_portSt, b1, b2, a1, a2, State.modPort_portSt]
  exact ⟨rfl, rfl⟩

theorem State.portFault_portSt (s : State) (p : Nat) (l r : Bool) : ∃ t, exec (.portFault p l r) s = .next t ∧
    t.portSt p = { s.portSt p with
      localFault := l, remoteFault := r, state := if (s.portSt p).state = .up then .down else (s.portSt p).state } := by
  refine ⟨_, rfl, ?_⟩
  dsimp only
  by_cases h : (s.portSt p).state = .up
  · rw [if_pos h, if_pos h, State.alert_portSt, State.modPort_portSt]
  · rw [if_neg h, if_neg h, State.modPort_portSt]

/-! ### Configuration -/

theorem State.writeMode_spec (s : State) (p v : Nat) :
    (s.writeMode p v).portSt p = (if (s.portSt p).state = .disabled then { s.portSt p with modeSel := v % 4 } else s.portSt p) ∧
      ((s.portSt p).state ≠ .disabled → (s.writeMode p v).log = (s.logEvent .ethCfgBad { ut := utPort, ui := p }).log) := by
  unfold State.writeMode
  by_cases h : (s.portSt p).state = .disabled
  · rw [if_pos h, if_pos h]
    exact ⟨s.modPort_portSt p _, fun hn => absurd h hn⟩
  · rw [if_neg h, if_neg h]
    exact ⟨s.logEvent_portSt _ _ p, fun _ => rfl⟩

theorem State.foldl_emit (s : State) (l : List Nat) (f : Nat → Sent) :
    (∀ p, (l.foldl (fun s i => s.emit (f i)) s).portSt p = s.portSt p) ∧
      (l.foldl (fun s i => s.emit (f i)) s).sent = s.sent ++ l.map f := by
  induction l generalizing s with
  | nil => exact ⟨fun _ => rfl, (List.append_nil _).symm⟩
  | cons i l ih =>
    obtain ⟨h1, h2⟩ := ih (s.emit (f i))
    refine ⟨fun p => h1 p, ?_⟩
    rw [List.foldl_cons, h2, State.emit_sent, List.map_cons, List.append_assoc]
    rfl

/-- The priorities that stop running PFC under mask `v`. -/
def PortSt.leaves (k : PortSt) (v : Byte) : List Nat := (List.range 8).filter fun i => k.pfc i && !v.getLsbD i

theorem PortSt.mem_leaves {k : PortSt} {v : Byte} {i : Nat} (hi : i < 8) (hk : k.pfc i = true) (hv : v.getLsbD i = false) :
    i ∈ k.leaves v := by
  unfold PortSt.leaves
  rw [List.mem_filter, List.mem_range, hk, hv]
  exact ⟨hi, rfl⟩

/-- The port with mask `v`. -/
def PortSt.masked (k : PortSt) (v : Byte) (old : PortSt) : PortSt := { k with
  pfcMask := v
  pfcSending := k.pfcSending.filter fun i => !(old.leaves v).contains i
  paused := k.paused.filter fun x => !(old.leaves v).contains x.1
  occupancy := putD ((old.leaves v).foldl del k.occupancy) 8
    ((old.leaves v).foldl (fun n i => n + lookD k.occupancy i 0) (lookD k.occupancy 8 0)) 0 }

theorem State.writePfcMask_taken (s : State) (p : Nat) (v : Byte) (h : onesIn v.toNat 8 ≤ 2) :
    (s.writePfcMask p v).portSt p = (s.portSt p).masked v (s.portSt p) ∧
      (s.writePfcMask p v).sent = s.sent ++ (((s.portSt p).leaves v).filter fun i => (s.portSt p).pfcSending.contains i).map fun i =>
        .pfc p i 0 := by
  obtain ⟨h1, h2⟩ := s.foldl_emit (((s.portSt p).leaves v).filter fun i => (s.portSt p).pfcSending.contains i) fun i => .pfc p i 0
  have hw : s.writePfcMask p v = ((((s.portSt p).leaves v).filter fun i => (s.portSt p).pfcSending.contains i).foldl
      (fun s i => s.emit (.pfc p i 0)) s).modPort p fun k => k.masked v (s.portSt p) := if_neg (Nat.not_lt.mpr h)
  rw [hw, State.modPort_portSt, h1, State.modPort_sent, h2]
  exact ⟨rfl, rfl⟩

theorem State.writePfcMask_leaves (s : State) (p : Nat) (v : Byte) (h : onesIn v.toNat 8 ≤ 2) {i : Nat} (hi : i < 8)
    (hk : (s.portSt p).pfc i = true) (hv : v.getLsbD i = false) :
    i ∉ ((s.writePfcMask p v).portSt p).pfcSending ∧ look ((s.writePfcMask p v).portSt p).paused i = none ∧
      (i ∈ (s.portSt p).pfcSending → .pfc p i 0 ∈ (s.writePfcMask p v).sent) := by
  obtain ⟨h1, h2⟩ := s.writePfcMask_taken p v h
  have hm := PortSt.mem_leaves hi hk hv
  have hc : ((s.portSt p).leaves v).contains i = true := List.contains_iff_mem.mpr hm
  rw [h1, h2]
  refine ⟨?_, ?_, fun hs => ?_⟩
  · intro hi
    have hn := (List.mem_filter.mp hi).2
    rw [hc] at hn
    exact Bool.false_ne_true hn
  · refine (look_filter (s.portSt p).paused (fun i => !((s.portSt p).leaves v).contains i) i).trans (if_neg ?_)
    rw [hc]
    exact Bool.false_ne_true
  · exact List.mem_append_right _ (List.mem_map.mpr ⟨i, List.mem_filter.mpr ⟨hm, List.contains_iff_mem.mpr hs⟩, rfl⟩)

/-! ### Flow control -/

theorem State.pfcXon_releases (s : State) {p prio n : Nat} (hn : n ≤ 786432) (hp : (s.portSt p).pfc prio = true)
    (hs : prio ∈ (s.portSt p).pfcSending) (ho : n ≤ lookD (s.portSt p).occupancy prio 0) :
    ∃ t, exec (.pfcXon p prio n) s = .next t ∧ prio ∉ (t.portSt p).pfcSending ∧
      (0 < n → lookD (t.portSt p).occupancy prio 0 = n) ∧ t.sent = s.sent ++ [.pfc p prio 0] := by
  have hkey : (s.portSt p).bufKey prio = prio := if_pos hp
  refine ⟨((s.modPort p fun k => { k with occupancy := putD k.occupancy prio n 0 }).modPort p fun k =>
    { k with pfcSending := k.pfcSending.filter (· != prio) }).emit (.pfc p prio 0), ?_, ?_, ?_, rfl⟩
  · show execPfcXon p prio n s = _
    unfold execPfcXon
    dsimp only
    rw [hkey, if_neg (Nat.not_lt.mpr ho), if_pos ⟨List.contains_iff_mem.mpr hs, hn⟩]
  · rw [State.emit_portSt, State.modPort_portSt]
    simp
  · intro h0
    rw [State.emit_portSt, State.modPort_portSt, State.modPort_portSt]
    show lookD (putD (s.portSt p).occupancy prio n 0) prio 0 = n
    rw [putD, if_neg (by omega), lookD_put_same]

theorem State.pfcRx_ignored (s : State) {p prio : Nat} (h : prio ∈ (s.portSt p).ignoring) (q : Nat) : s.pfcRx p prio q = s :=
  if_pos (Or.inr (Or.inr (List.contains_iff_mem.mpr h)))

theorem State.pfcRx_pauses (s : State) {p prio q : Nat} (hq : q ≠ 0) (hu : (s.portSt p).state = .up)
    (hp : (s.portSt p).pfc prio = true) (hi : prio ∉ (s.portSt p).ignoring) :
    s.pfcRx p prio q = s.modPort p fun k => { k with paused := put k.paused prio (lookD k.paused prio s.now) } := by
  have hn : ¬ ((s.portSt p).state ≠ .up ∨ (!(s.portSt p).pfc prio) = true ∨ (s.portSt p).ignoring.contains prio = true) := by
    rw [hp, List.contains_iff_mem]
    simp [hu, hi]
  unfold State.pfcRx
  dsimp only
  rw [if_neg hn]
  simp only [if_neg hq]

theorem State.frameTx_paused (s : State) {p prio : Nat} (h : (look (s.portSt p).paused prio).isSome = true) (size : Nat) :
    exec (.frameTx p prio size) s = .next s := if_pos (Or.inr (Or.inl h))

/-- A storm ends the pause of its priority, and pause is ignored from then on. -/
def PortSt.storms (k : PortSt) (prio : Nat) : PortSt :=
  { k with paused := del k.paused prio, ignoring := insertSet k.ignoring prio }

theorem State.storm_ignores (s : State) {p prio at_ : Nat} (h : look (s.portSt p).paused prio = some at_) :
    ∃ t, exec (.ethPfcStorm p prio) s = .next t ∧ t.portSt p = (s.portSt p).storms prio ∧
      t.log = (s.logEvent .ethPfcStorm { ut := utPort, ui := p }).log := by
  refine ⟨(s.modPort p fun k => k.storms prio).logEvent .ethPfcStorm { ut := utPort, ui := p }, if_neg (by rw [h]; exact Bool.false_ne_true), ?_, ?_⟩
  · rw [State.logEvent_portSt, State.modPort_portSt]
  · exact State.logEvent_log_congr rfl rfl _ _

/-! ### Frames sent -/

theorem State.frameTx_open (s : State) {p prio size : Nat} (hu : (s.portSt p).state = .up) (hp : look (s.portSt p).paused prio = none)
    (h0 : 64 ≤ size) (h1 : size ≤ 4352) (hm : (s.portSt p).macsecEnable = false) :
    exec (.frameTx p prio size) s = .next (s.emit (.frame p frOther ((s.portSt p).sentTag prio) ((s.portSt p).sentDscp prio))) := by
  show execFrameTx p prio size s = _
  unfold execFrameTx
  dsimp only
  rw [if_neg (by rw [hp]; simp [hu]; omega), if_pos (by rw [hm]; rfl)]

/-- The port with a protected frame sent under association `a`. -/
def PortSt.protects (k : PortSt) (a : MacsecSa) : PortSt := { k with
  sas := k.sas.map fun x => if x = a then { a with pn := a.pn + 1 } else x
  pnExhausted := k.pnExhausted || decide (a.pn + 1 = 2 ^ 64) }

/-- The warnings of a packet number that has become `pn`. -/
def State.warned (s : State) (p pn : Nat) : State :=
  let s2 := if pn = 0xC000000000000000 then (s.alert alMacsec).logEvent .macsecPnNear { ut := utPort, ui := p } else s
  if pn = 2 ^ 64 then s2.logEvent .macsecPnExhausted { ut := utPort, ui := p } else s2

theorem State.warned_spec (s : State) (p pn : Nat) :
    (s.warned p pn).sent = s.sent ∧ (s.warned p pn).portSt p = s.portSt p ∧
      (pn = 0xC000000000000000 → (s.warned p pn).ctl.alertPending.getLsbD alMacsec = true) := by
  unfold State.warned
  dsimp only
  refine ⟨?_, ?_, fun h => ?_⟩
  · split <;> split <;> simp
  · split <;> split <;> simp
  · rw [if_pos h]
    have hb := State.logEvent_keepsAlert (s.alert_bit (b := alMacsec) (by decide)) .macsecPnNear { ut := utPort, ui := p }
    split
    · exact State.logEvent_keepsAlert hb _ _
    · exact hb

theorem State.frameTx_protected (s : State) {p prio size : Nat} {a : MacsecSa} (hu : (s.portSt p).state = .up)
    (hp : look (s.portSt p).paused prio = none) (h0 : 64 ≤ size) (h1 : size ≤ 4352) (hm : (s.portSt p).macsecEnable = true)
    (ha : (s.portSt p).txSa = some a) :
    exec (.frameTx p prio size) s = if 2 ^ 64 ≤ a.pn then .next s else
      .next (((s.modPort p fun k => k.protects a).emit
        (.frame p frOther ((s.portSt p).sentTag prio) ((s.portSt p).sentDscp prio))).warned p (a.pn + 1)) := by
  show execFrameTx p prio size s = _
  unfold execFrameTx
  dsimp only
  rw [if_neg (by rw [hp]; simp [hu]; omega), if_neg (by rw [hm]; decide), ha]
  rfl

/-- Settles O43: each event by the helper of the port that it changes. -/
theorem portsChangeStateAndPause : Obligations.PortsChangeStateAndPause := by
  intro p prio s k
  refine ⟨⟨_, rfl, ?_⟩, ⟨_, rfl, ?_⟩, fun h => ⟨_, if_neg (Classical.not_not.mpr h), s.modPort_portSt p _⟩,
    fun v => ⟨_, rfl, s.writeMode_spec p v⟩, fun v => ⟨_, rfl, fun h => ?_, fun h => ⟨?_, fun i hi hk hv =>
      s.writePfcMask_leaves p v h hi hk hv⟩⟩, s.portUp_enters, fun h => if_pos h, s.portFault_portSt p, ?_,
    fun n hn hp hs ho => s.pfcXon_releases hn hp hs ho, ?_, ?_, rfl, ?_⟩
  · split
    next h => rw [s.enablePort_disabled p h]; exact s.modPort_portSt p _
    next h => rw [s.enablePort_draining p h]; exact s.modPort_portSt p _
    next h0 h1 => rw [s.enablePort_enabled p h0 h1]
  · split
    next h => rw [s.disablePort_disabled p h]; exact s.modPort_portSt p _
    next h => rw [s.disablePort_draining p h]; exact s.modPort_portSt p _
    next h0 h1 => exact s.disablePort_enabled p h0 h1
  · rw [show s.writePfcMask p v = s.logEvent .ethCfgBad { ut := utPort, ui := p } from if_pos h]
    exact ⟨s.logEvent_portSt _ _ p, rfl⟩
  · rw [(s.writePfcMask_taken p v h).1]
    rfl
  · show execPfcRepeat p prio s = _
    unfold execPfcRepeat
    dsimp only
    simp only [List.contains_iff_mem]
    exact (apply_ite Host.Outcome.next _ _ _).symm
  · intro q size hq hu hp hi
    have hput : look (put k.paused prio (lookD k.paused prio s.now)) prio = some (lookD k.paused prio s.now) := look_put_same _ _ _
    have hport : ((s.pfcRx p prio q).portSt p).paused = put k.paused prio (lookD k.paused prio s.now) := by
      rw [s.pfcRx_pauses hq hu hp hi, State.modPort_portSt]
    refine ⟨s.pfcRx p prio q, rfl, ?_, State.frameTx_paused _ ?_ size⟩
    · rw [hport, hput]
    · rw [hport, hput]
      rfl
  · intro at_ h
    obtain ⟨t, ht, hport, hlog⟩ := s.storm_ignores h
    have hmem : prio ∈ (t.portSt p).ignoring := by
      rw [hport]
      exact (mem_insertSet _ _ _).mpr (Or.inl rfl)
    refine ⟨t, ht, hmem, hlog, fun q => congrArg Host.Outcome.next (t.pfcRx_ignored hmem q), _, rfl, ?_⟩
    rw [State.modPort_portSt, hport, PortSt.storms, filter_insertSet]
  · intro size hu hp h0 h1
    refine ⟨s.frameTx_open hu hp h0 h1, fun a hm ha => ⟨fun hb => ?_, fun hb => ?_⟩⟩
    · rw [s.frameTx_protected hu hp h0 h1 hm ha, if_pos hb]
    · obtain ⟨w1, w2, w3⟩ := ((s.modPort p fun k => k.protects a).emit
        (.frame p frOther (k.sentTag prio) (k.sentDscp prio))).warned_spec p (a.pn + 1)
      refine ⟨_, (s.frameTx_protected hu hp h0 h1 hm ha).trans (if_neg (by omega)), w1, ?_, w3⟩
      rw [w2, State.emit_portSt, State.modPort_portSt]
      rfl

end Sys2Proof.Machine
end

