-- ==== Sys2Proof/Proofs/Background.lean ====
section
/-!
What the upkeep of tasks, contexts, page tables and models leaves unchanged, and what the end of waves and epochs and the
fence of a cluster do.
-/

namespace Sys2Proof.Machine

theorem State.visit_accessed (s : State) (a n : Nat) : s.Accessed (s.visit a n) := by
  refine .foldl (fun x u h => ?_) (.refl s)
  split
  · exact h.trans (x.readCodeword_accessed _ _)
  · exact h.trans (x.readOuterUnit_accessed _ _)
  · exact h

theorem State.flushRecords_accessed (s : State) : s.Accessed s.flushRecords := by
  refine .foldl (fun x m h => .foldl (fun y r h => .ite h ?_) h) (.refl s)
  exact (h.modOuter _ _).trans (State.writeRange_accessed _ _ _ _)

/-! ### Page tables and pools -/

/-- State `t` differs from `s` only where the upkeep of page tables may change it: of the tasks' bookkeeping the page counts alone. -/
structure State.Paged (s t : State) : Prop where
  eq : t = { s with
    free := t.free, mem := t.mem, slices := t.slices, outers := t.outers, work := { s.work with kvPages := t.work.kvPages }, log := t.log
    ctl := { s.ctl with alertPending := t.ctl.alertPending }, life := { s.life with toCopy := t.life.toCopy } }
  failed : ∀ m, (t.outer m).failed = (s.outer m).failed

namespace State.Paged

variable {s t u : State}

theorem refl (s : State) : s.Paged s := ⟨rfl, fun _ => rfl⟩

theorem trans (h₁ : s.Paged t) (h₂ : t.Paged u) : s.Paged u := by
  refine ⟨?_, fun m => (h₂.failed m).trans (h₁.failed m)⟩
  rw [h₂.eq, h₁.eq]

theorem ofAccessed (h : s.Accessed t) : s.Paged t := by
  refine ⟨?_, h.failed⟩
  rw [h.eq]

theorem accessed (h : s.Paged t) (ha : t.Accessed u) : s.Paged u := h.trans (.ofAccessed ha)
theorem pages (h : s.Paged t) (f : Work → Tab KvPage) : s.Paged (t.onWork fun w => { w with kvPages := f w }) := h.trans ⟨rfl, fun _ => rfl⟩
theorem onMem (h : s.Paged t) (f : Mem → Mem) : s.Paged (t.onMem f) := h.trans ⟨rfl, fun _ => rfl⟩
theorem svc (h : s.Paged t) : t.svc = s.svc := by rw [h.eq]
theorem tasks (h : s.Paged t) : t.work.tasks = s.work.tasks := by rw [h.eq]

theorem ite {p : Prop} [Decidable p] (h₁ : s.Paged t) (h₂ : s.Paged u) : s.Paged (if p then t else u) := by
  split <;> assumption

theorem foldl {α : Type} {f : State → α → State} {l : List α} (hf : ∀ x a, s.Paged x → s.Paged (f x a)) (h : s.Paged t) :
    s.Paged (l.foldl f t) := by
  induction l generalizing t with
  | nil => exact h
  | cons a l ih => exact ih (hf t a h)

theorem writeRange (h : s.Paged t) (a : Nat) (bs : List Byte) (ps : List Bool) : s.Paged (t.writeRange a bs ps) :=
  h.accessed (t.writeRange_accessed a bs ps)

theorem copyData (h : s.Paged t) (src dst n more : Nat) : s.Paged (t.copyData src dst n more) :=
  .onMem (h.accessed (t.visit_accessed src n)) _

theorem copyParts (h : s.Paged t) (parts : List (Nat × Nat)) (dst : Nat) : s.Paged (t.copyParts parts dst) := by
  unfold State.copyParts
  generalize dst = d
  induction parts generalizing t d with
  | nil => exact h
  | cons p l ih => exact ih (h.copyData _ _ _ _) _

theorem writeEntry (h : s.Paged t) (a e base plan : Nat) (tok : Option Nat) : s.Paged (t.writeEntry a e base plan tok) :=
  .ite h (h.writeRange _ _ _)

theorem syncTables (h : s.Paged t) (ctx : Nat) (tok : Nat → Option Nat) : s.Paged (t.syncTables ctx tok) := by
  unfold State.syncTables
  split
  · exact h
  · exact .foldl (fun x t hx => .foldl (fun x a hx => .foldl (fun x e hx => .ite (hx.writeEntry _ _ _ _ _) hx) hx) hx) h

theorem syncPage (h : s.Paged t) (a : Nat) : s.Paged (t.syncPage a) :=
  .foldl (fun _ _ hx => hx.syncTables _ _) h

theorem bumpPage (h : s.Paged t) (a : Nat) : s.Paged (t.bumpPage a) := by
  unfold State.bumpPage
  split
  · exact h
  · exact (h.pages _).syncPage a

theorem dropPage (h : s.Paged t) (a : Nat) : s.Paged (t.dropPage a) := by
  unfold State.dropPage
  split
  · exact h
  · exact (h.pages _).syncPage a

/-- Allocation of a KV page, of the pages of a table, and of its last page. -/
theorem allocKv (h : s.Paged t) {k : KvTable} {log2 : Nat} {scale : Option Nat} {x : State × Nat}
    (hx : t.allocKv k log2 scale = some x) : s.Paged x.1 := by
  unfold State.allocKv at hx
  split at hx
  · cases hx
  · obtain ⟨a, -, rfl⟩ := Option.map_eq_some_iff.mp hx
    exact h.trans ⟨rfl, fun _ => rfl⟩

theorem growFold {f : KvTable → Nat → KvTable} {scale : Option Nat} {new : List (Nat × Nat)} {o : Option (State × KvTable)}
    (ho : ∀ x, o = some x → s.Paged x.1) {y : State × KvTable}
    (hy : new.foldl (fun o p => o.bind fun x => (x.1.allocKv x.2 p.1 scale).map fun y => (y.1, f x.2 y.2)) o = some y) :
    s.Paged y.1 := by
  induction new generalizing o with
  | nil => exact ho y hy
  | cons p l ih =>
    refine ih (fun x hx => ?_) hy
    obtain ⟨z, hz, hx⟩ := Option.bind_eq_some_iff.mp hx
    obtain ⟨w, hw, rfl⟩ := Option.map_eq_some_iff.mp hx
    exact (ho z hz).allocKv hw

theorem growTable (h : s.Paged t) {k : KvTable} {shadow : Bool} {scale : Option Nat} {new : List (Nat × Nat)} {x : State × KvTable}
    (hx : t.growTable k shadow scale new = some x) : s.Paged x.1 :=
  growFold (f := fun t a => if shadow then { t with shadow := t.shadow ++ [a] } else { t with bases := t.bases ++ [a] })
    (fun y hy => by cases hy; exact h) hx

theorem prepareLast (h : s.Paged t) {k : Context} {b : KvTable} {x : State × KvTable} (hx : t.prepareLast k b = some x) :
    s.Paged x.1 := by
  unfold State.prepareLast at hx
  split at hx
  · cases hx
    exact h
  · split at hx
    · cases hx
      exact h
    · split at hx
      · cases hx
        exact h
      · obtain ⟨y, hy, rfl⟩ := Option.map_eq_some_iff.mp hx
        exact .dropPage (.pages (.copyData (h.allocKv hy) _ _ _ _) _) _

theorem ofSome {α : Type} {x : α} {z : State × α} (h : s.Paged t) (hz : some (t, x) = some z) : s.Paged z.1 := by
  cases hz
  exact h

/-- Tables one after another, each by a step that keeps the rest of the state. -/
theorem tablesFold {g : State → KvTable → Option (State × KvTable)}
    (hg : ∀ u k x, s.Paged u → g u k = some x → s.Paged x.1) {l : List KvTable} {o : Option (State × List KvTable)}
    (ho : ∀ x, o = some x → s.Paged x.1) {y : State × List KvTable}
    (hy : l.foldl (fun o t => o.bind fun x => (g x.1 t).map fun z => (z.1, x.2 ++ [z.2])) o = some y) : s.Paged y.1 := by
  induction l generalizing o with
  | nil => exact ho y hy
  | cons p l ih =>
    refine ih (fun x hx => ?_) hy
    obtain ⟨z, hz, hx⟩ := Option.bind_eq_some_iff.mp hx
    obtain ⟨w, hw, rfl⟩ := Option.map_eq_some_iff.mp hx
    exact hg z.1 p w (ho z hz) hw

end State.Paged

/-- The rows of a sequence prepared: its tables grown, then its entry changed, then the tables written. -/
theorem State.appendCtx_split {s : State} {id n : Nat} {scale : Option Nat} {x : State} (hx : s.appendCtx id n scale = some x) :
    x = s ∨ ∃ (y : State) (f : Context → Context), s.Paged y ∧ (y.modContext id f).Paged x := by
  unfold State.appendCtx at hx
  split at hx
  · cases hx
    exact .inl rfl
  · dsimp only at hx
    split at hx
    · cases hx
      exact .inl rfl
    split at hx
    · cases hx
    obtain ⟨y, hy, rfl⟩ := Option.map_eq_some_iff.mp hx
    refine .inr ⟨y.1, _, ?_, .syncTables (.refl _) _ _⟩
    refine State.Paged.tablesFold (g := fun u k => (u.prepareLast _ k).bind fun y => y.1.growTable y.2 false scale _)
      (fun u k z hu hz => ?_) (fun z hz => ?_) hy
    · obtain ⟨w, hw, hz⟩ := Option.bind_eq_some_iff.mp hz
      exact (hu.prepareLast hw).growTable hz
    · exact .ofSome (.syncTables (.refl s) id fun _ => none) hz

theorem State.shadowAppend_split {s : State} {id e n : Nat} {scale : Option Nat} {x : State} (hx : s.shadowAppend id e n scale = some x) :
    x = s ∨ ∃ (y : State) (f : Context → Context), s.Paged y ∧ (y.modContext id f).Paged x := by
  unfold State.shadowAppend at hx
  split at hx
  · cases hx
    exact .inl rfl
  · dsimp only at hx
    split at hx
    · cases hx
      exact .inl rfl
    split at hx
    all_goals
      split at hx
      · cases hx
      obtain ⟨y, hy, rfl⟩ := Option.map_eq_some_iff.mp hx
      refine .inr ⟨y.1, _, ?_, .syncTables (.refl _) _ _⟩
      refine State.Paged.tablesFold (g := fun u k => u.growTable k true scale (List.replicate (_ - k.shadow.length) (4, 16)))
        (fun u k z hu hz => hu.growTable hz) (fun z hz => ?_) hy
      exact .ofSome (.refl s) hz

/-! ### The upkeep of tasks and contexts -/

/-- State `t` differs from `s` only where the upkeep of tasks, contexts and page tables may change it. -/
structure State.Settled (s t : State) : Prop where
  eq : t = { s with
    free := t.free, mem := t.mem, slices := t.slices, outers := t.outers, work := t.work, svc := { s.svc with contexts := t.svc.contexts }, log := t.log
    ctl := { s.ctl with alertPending := t.ctl.alertPending }, life := { s.life with toCopy := t.life.toCopy } }
  failed : ∀ m, (t.outer m).failed = (s.outer m).failed

namespace State.Settled

variable {s t u : State}

theorem refl (s : State) : s.Settled s := ⟨rfl, fun _ => rfl⟩

theorem trans (h₁ : s.Settled t) (h₂ : t.Settled u) : s.Settled u := by
  refine ⟨?_, fun m => (h₂.failed m).trans (h₁.failed m)⟩
  rw [h₂.eq, h₁.eq]

theorem ofAccessed (h : s.Accessed t) : s.Settled t := by
  refine ⟨?_, h.failed⟩
  rw [h.eq]

theorem accessed (h : s.Settled t) (ha : t.Accessed u) : s.Settled u := h.trans (.ofAccessed ha)
theorem onWork (h : s.Settled t) (f : Work → Work) : s.Settled (t.onWork f) := h.trans ⟨rfl, fun _ => rfl⟩
theorem contexts (h : s.Settled t) (f : Service → Tab Context) : s.Settled (t.onSvc fun v => { v with contexts := f v }) :=
  h.trans ⟨rfl, fun _ => rfl⟩
theorem onMem (h : s.Settled t) (f : Mem → Mem) : s.Settled (t.onMem f) := h.trans ⟨rfl, fun _ => rfl⟩

theorem ite {p : Prop} [Decidable p] (h₁ : s.Settled t) (h₂ : s.Settled u) : s.Settled (if p then t else u) := by
  split <;> assumption

theorem foldl {α : Type} {f : State → α → State} {l : List α} (hf : ∀ x a, s.Settled x → s.Settled (f x a)) (h : s.Settled t) :
    s.Settled (l.foldl f t) := by
  induction l generalizing t with
  | nil => exact h
  | cons a l ih => exact ih (hf t a h)

theorem modTask (h : s.Settled t) (id : Nat) (f : Task → Task) : s.Settled (t.modTask id f) := by
  unfold State.modTask
  split
  · exact h
  · exact h.trans ⟨rfl, fun _ => rfl⟩

theorem modContext (h : s.Settled t) (id : Nat) (f : Context → Context) : s.Settled (t.modContext id f) := by
  unfold State.modContext
  split
  · exact h
  · exact h.contexts _

theorem logEvent (h : s.Settled t) (e : Ev) (i : EvInfo) : s.Settled (t.logEvent e i) := h.accessed (.logEvent (.refl t) e i)

theorem writeRange (h : s.Settled t) (a : Nat) (bs : List Byte) (ps : List Bool) : s.Settled (t.writeRange a bs ps) :=
  h.accessed (t.writeRange_accessed a bs ps)

end State.Settled

namespace State.Settled

variable {s t u : State}

theorem paged (h : s.Settled t) (hp : t.Paged u) : s.Settled u := by
  refine h.trans ⟨?_, hp.failed⟩
  rw [hp.eq]

theorem copyData (h : s.Settled t) (src dst n more : Nat) : s.Settled (t.copyData src dst n more) := h.paged (.copyData (.refl t) src dst n more)

theorem copyParts (h : s.Settled t) (parts : List (Nat × Nat)) (dst : Nat) : s.Settled (t.copyParts parts dst) := h.paged (.copyParts (.refl t) parts dst)

theorem writeEntry (h : s.Settled t) (a e base plan : Nat) (tok : Option Nat) : s.Settled (t.writeEntry a e base plan tok) := h.paged (.writeEntry (.refl t) a e base plan tok)

theorem syncTables (h : s.Settled t) (ctx : Nat) (tok : Nat → Option Nat) : s.Settled (t.syncTables ctx tok) := h.paged (.syncTables (.refl t) ctx tok)

theorem syncPage (h : s.Settled t) (a : Nat) : s.Settled (t.syncPage a) := h.paged (.syncPage (.refl t) a)

theorem bumpPage (h : s.Settled t) (a : Nat) : s.Settled (t.bumpPage a) := h.paged (.bumpPage (.refl t) a)

theorem dropPage (h : s.Settled t) (a : Nat) : s.Settled (t.dropPage a) := h.paged (.dropPage (.refl t) a)

theorem allocKv (h : s.Settled t) {k : KvTable} {log2 : Nat} {scale : Option Nat} {x : State × Nat}
    (hx : t.allocKv k log2 scale = some x) : s.Settled x.1 := h.paged (.allocKv (.refl t) hx)

theorem appendCtx (h : s.Settled t) {id n : Nat} {scale : Option Nat} {x : State} (hx : t.appendCtx id n scale = some x) :
    s.Settled x := by
  obtain rfl | ⟨y, f, h₁, h₂⟩ := State.appendCtx_split hx
  · exact h
  · exact ((h.paged h₁).modContext id f).paged h₂

theorem shadowAppend (h : s.Settled t) {id e n : Nat} {scale : Option Nat} {x : State} (hx : t.shadowAppend id e n scale = some x) :
    s.Settled x := by
  obtain rfl | ⟨y, f, h₁, h₂⟩ := State.shadowAppend_split hx
  · exact h
  · exact ((h.paged h₁).modContext id f).paged h₂

theorem endShadow (h : s.Settled t) (id e a : Nat) : s.Settled (t.endShadow id e a) := by
  unfold State.endShadow
  split
  · exact h
  split
  · exact h
  refine .ite h ?_
  exact .syncTables (.foldl (fun _ _ hx => hx.bumpPage _) (.foldl (fun _ _ hx => hx.dropPage _) (h.modContext _ _))) _ _

theorem prepareTask (h : s.Settled t) (id : Nat) : s.Settled (t.prepareTask id) := by
  unfold State.prepareTask
  split
  · exact h
  refine .foldl (fun x a hx => ?_) h
  split
  · exact hx
  · next y hy =>
    refine .modTask ?_ _ _
    split at hy
    · obtain ⟨z, hz, rfl⟩ := Option.map_eq_some_iff.mp hy
      exact (hx.appendCtx hz).modContext _ _
    · exact hx.shadowAppend hy

theorem storeJournal (h : s.Settled t) (id : Nat) : s.Settled (t.storeJournal id) := by
  unfold State.storeJournal
  split
  · exact .foldl (fun _ _ hx => .ite hx (hx.writeRange _ _ _)) h
  · exact h

theorem writeJournal (h : s.Settled t) (id : Nat) : s.Settled (t.writeJournal id) :=
  .ite (h.onWork _) (h.storeJournal id)

theorem setOutputs (h : s.Settled t) (k : Task) (st : RState) : s.Settled (t.setOutputs k st) :=
  .foldl (fun _ _ hx => hx.onWork _) h

theorem leaveReady (h : s.Settled t) (k : Task) : s.Settled (t.leaveReady k) := by
  unfold State.leaveReady
  split
  · exact h
  · exact (h.onWork _).modTask _ _

theorem finishTask (h : s.Settled t) (id : Nat) (st : TState) (status : Nat) : s.Settled (t.finishTask id st status) := by
  unfold State.finishTask
  split
  · exact h
  · next k _ =>
    have h1 : ∀ f g, s.Settled ((((t.leaveReady k).modTask id f).onWork g).writeJournal id) :=
      fun f g => (((h.leaveReady k).modTask id f).onWork g).writeJournal id
    dsimp only
    split
    · exact (h1 _ _).setOutputs _ _
    · exact .ite ((h1 _ _).setOutputs _ _) (h1 _ _)
    · exact .ite ((h1 _ _).setOutputs _ _) (h1 _ _)
    · exact .ite ((h1 _ _).setOutputs _ _) (h1 _ _)
    · exact h1 _ _

theorem settleTask (h : s.Settled t) (id : Nat) : s.Settled (t.settleTask id) := by
  have h1 := h.prepareTask id
  unfold State.settleTask
  split
  · exact h
  split
  case h_4 => exact h
  all_goals
    refine .ite (h.finishTask _ _ _) ?_
    dsimp only
    split
    · exact h1
    · exact .ite (.ite (h1.modTask _ _) ((h1.leaveReady _).modTask _ _))
        (.writeJournal (.ite (h1.modTask _ _) ((h1.leaveReady _).modTask _ _)) id)

theorem settle (h : s.Settled t) : s.Settled t.settle := .foldl (fun _ _ hx => hx.settleTask _) h

theorem closeContext (h : s.Settled t) (id : Nat) : s.Settled (t.closeContext id) := by
  unfold State.closeContext
  split
  · exact h
  · exact .contexts (.foldl (fun _ _ hx => hx.dropPage _) h) _

theorem dropWeights (h : s.Settled t) (m : Model) : s.Settled (t.dropWeights m) := by
  unfold State.dropWeights
  exact h.onWork _

theorem breakInstance (h : s.Settled t) (k : Handle) : s.Settled (t.breakInstance k) := (h.onWork _).settle

theorem replace (h : s.Settled t) (p : Placed) (lost : Nat → Bool) : s.Settled (t.replace p lost) := by
  unfold State.replace
  dsimp only
  split
  · exact h
  · exact (h.copyParts _ _).onWork _

end State.Settled

/-! ### The end of waves and epochs -/

/-- State `t` differs from `s` in tasks, contexts, cores, channels and what they are told, and its clusters in their waves. -/
structure State.Ran (s t : State) : Prop where
  eq : t = { s with
    free := t.free, mem := t.mem, cores := t.cores, slices := t.slices, outers := t.outers, clusters := t.clusters, work := t.work
    channels := t.channels, svc := { s.svc with contexts := t.svc.contexts }, ctl := t.ctl, log := t.log, life := t.life, sent := t.sent
    ident := { s.ident with sessRing := t.ident.sessRing }, pwr := { s.pwr with inboxPins := t.pwr.inboxPins } }
  cluster : ∀ cd, t.cluster cd = { s.cluster cd with wave := (t.cluster cd).wave }
  failed : ∀ m, (t.outer m).failed = (s.outer m).failed

namespace State.Ran

variable {s t u : State}

theorem refl (s : State) : s.Ran s := ⟨rfl, fun _ => rfl, fun _ => rfl⟩

theorem trans (h₁ : s.Ran t) (h₂ : t.Ran u) : s.Ran u := by
  constructor
  · rw [h₂.eq, h₁.eq]
  · intro cd
    rw [h₂.cluster cd, h₁.cluster cd]
  · exact fun m => (h₂.failed m).trans (h₁.failed m)

/-- A step that leaves the clusters alone. -/
theorem step (h : s.Ran t) (he : u = { t with
    free := u.free, mem := u.mem, cores := u.cores, slices := u.slices, outers := u.outers, work := u.work
    channels := u.channels, svc := { t.svc with contexts := u.svc.contexts }, ctl := u.ctl, log := u.log, life := u.life, sent := u.sent
    ident := { t.ident with sessRing := u.ident.sessRing }, pwr := { t.pwr with inboxPins := u.pwr.inboxPins } })
    (hf : ∀ m, (u.outer m).failed = (t.outer m).failed := by exact fun _ => rfl) : s.Ran u := by
  refine h.trans ⟨?_, fun cd => ?_, hf⟩
  · rw [he]
  · rw [State.cluster, State.cluster, he]

theorem settled (h : s.Ran t) (hs : t.Settled u) : s.Ran u := h.step (by rw [hs.eq]) hs.failed

theorem onWork (h : s.Ran t) (f : Work → Work) : s.Ran (t.onWork f) := h.step rfl
theorem onCtl (h : s.Ran t) (f : Ctl → Ctl) : s.Ran (t.onCtl f) := h.step rfl
theorem onLife (h : s.Ran t) (f : Life → Life) : s.Ran (t.onLife f) := h.step rfl
theorem emit (h : s.Ran t) (m : Sent) : s.Ran (t.emit m) := h.step rfl
theorem alert (h : s.Ran t) (b : Nat) : s.Ran (t.alert b) := h.step rfl
theorem modCore (h : s.Ran t) (c : Nat) (f : Core → Core) : s.Ran (t.modCore c f) := h.step rfl
theorem modOuter (h : s.Ran t) (m : Nat) (f : Outer → Outer) (hf : ∀ o, (f o).failed = o.failed := by exact fun _ => rfl) :
    s.Ran (t.modOuter m f) := by
  refine h.step rfl fun i => ?_
  by_cases hi : i = m
  · rw [hi, State.modOuter_outer]
    exact hf _
  · rw [State.modOuter_outer_ne _ _ hi]

theorem mapOuters (h : s.Ran t) (f : Nat → Outer → Outer) (hf : ∀ i o, (f i o).failed = o.failed := by exact fun _ _ => rfl) :
    s.Ran { t with outers := mapTab t.outers f } := by
  refine h.step rfl fun m => ?_
  unfold State.outer lookD
  rw [look_mapTab]
  cases look t.outers m with
  | none => rfl
  | some o => exact hf m o

theorem modTask (h : s.Ran t) (id : Nat) (f : Task → Task) : s.Ran (t.modTask id f) := h.settled (.modTask (.refl t) id f)
theorem logEvent (h : s.Ran t) (e : Ev) (i : EvInfo) : s.Ran (t.logEvent e i) := h.settled (.logEvent (.refl t) e i)

theorem ite {p : Prop} [Decidable p] (h₁ : s.Ran t) (h₂ : s.Ran u) : s.Ran (if p then t else u) := by
  split <;> assumption

theorem foldl {α : Type} {f : State → α → State} {l : List α} (hf : ∀ x a, s.Ran x → s.Ran (f x a)) (h : s.Ran t) :
    s.Ran (l.foldl f t) := by
  induction l generalizing t with
  | nil => exact h
  | cons a l ih => exact ih (hf t a h)

/-- The wave of a cluster ends. -/
theorem waveless (h : s.Ran t) (cd : Nat) : s.Ran (t.modCluster cd fun k => { k with wave := none }) := by
  refine h.trans ⟨rfl, fun x => ?_, fun _ => rfl⟩
  by_cases hx : x = cd
  · subst hx
    rw [State.modCluster_cluster]
  · rw [State.modCluster_cluster_ne _ _ hx]

theorem settleSession (h : s.Ran t) : s.Ran t.settleSession := .ite (h.step rfl) h

theorem respond (h : s.Ran t) (c : CmdHdr) (op st : Nat) (eff : Bool) (d : Word) (res : List Byte) :
    s.Ran (t.respond c op st eff d res) := by
  unfold State.respond
  split
  · exact h
  · exact .ite (h.onCtl _).settleSession (h.onCtl _)

theorem abortPackets (h : s.Ran t) (cd : Nat) : s.Ran (t.abortPackets cd) := h.step rfl

theorem clusterDone (h : s.Ran t) (cd : Nat) : s.Ran (t.clusterDone cd) := by
  unfold State.clusterDone
  split
  · exact h
  split
  · exact h
  exact .ite (.emit (.modTask (h.waveless cd) _ _) _) h

theorem stopCluster (h : s.Ran t) (cd status : Nat) : s.Ran (t.stopCluster cd status) := by
  unfold State.stopCluster
  split
  · exact h
  split
  · exact h
  exact .clusterDone (.foldl (fun _ _ hx => .ite hx (hx.modCore _ _)) h) _

theorem dropWaves (h : s.Ran t) (id : Nat) : s.Ran (t.dropWaves id) := by
  refine .modTask (.foldl (fun x cd hx => ?_) h) _ _
  split
  · exact hx.waveless _
  · exact .waveless (.foldl (fun _ _ hx => .ite hx (hx.modCore _ _)) hx) _

theorem discardEpoch (h : s.Ran t) (e status : Nat) : s.Ran (t.discardEpoch e status) := by
  unfold State.discardEpoch
  split
  · exact h
  dsimp only
  have hend : ∀ u : State, s.Ran u → s.Ran u.flushRecords.settle := fun u hu =>
    (hu.settled (.ofAccessed u.flushRecords_accessed)).settled (.settle (.refl _))
  refine hend _ ?_
  split
  case' h_1 => refine .respond ?_ _ _ _ _ _ _
  all_goals
    refine .foldl (fun _ _ hx => hx.onWork _) ?_
    refine .foldl (fun x _ hx => hx.settled (.endShadow (.refl x) _ _ _)) ?_
    refine .onWork (.mapOuters ?_ _) _
    refine .foldl (fun x k hx => ((hx.dropWaves _).settled (.finishTask (.refl _) _ _ _))) ?_
    exact .foldl (fun _ _ hx => (hx.modCore _ _).emit _) h

/-! ### The fence of a cluster -/

theorem returnCredits (h : s.Ran t) (cd : Nat) : s.Ran (t.returnCredits cd) := .foldl (fun _ _ hx => hx.modOuter _ _) h

theorem fenceWave (h : s.Ran t) (cd status : Nat) (answers : Bool) : s.Ran (t.fenceWave cd status answers) := by
  unfold State.fenceWave
  split
  · exact h
  · refine .ite ((h.modTask _ _).stopCluster _ _) ?_
    dsimp only
    split
    · exact (h.modTask _ _).waveless _
    · exact .emit (.modTask (.waveless (.foldl (fun _ _ hx => hx.modCore _ _) (h.modTask _ _)) _) _ _) _

theorem moveShares (h : s.Ran t) (cd : Nat) : s.Ran (t.moveShares cd) := by
  refine .foldl (fun x k hx => .modTask ?_ _ _) h
  exact .foldl (fun y w hy => .ite hy (.emit (hy.modTask _ _) _)) hx

end State.Ran

/-! ### What the loss of data ends -/

/-- State `t` differs from `s` in what a fence or the loss of a region ends: tasks, contexts, requests, cores, channels and what they are
told, and its clusters in their waves. -/
structure State.Worked (s t : State) : Prop where
  eq : t = { s with
    free := t.free, mem := t.mem, cores := t.cores, slices := t.slices, outers := t.outers, clusters := t.clusters, work := t.work
    channels := t.channels, svc := t.svc, ctl := t.ctl, log := t.log, life := t.life, sent := t.sent
    ident := { s.ident with sessRing := t.ident.sessRing }, pwr := { s.pwr with inboxPins := t.pwr.inboxPins } }
  cluster : ∀ cd, t.cluster cd = { s.cluster cd with wave := (t.cluster cd).wave }
  failed : ∀ m, (t.outer m).failed = (s.outer m).failed

theorem State.Ran.worked {s t : State} (h : s.Ran t) : s.Worked t := by
  refine ⟨?_, h.cluster, h.failed⟩
  rw [h.eq]

namespace State.Worked

variable {s t u : State}

theorem trans (h₁ : s.Worked t) (h₂ : t.Worked u) : s.Worked u := by
  constructor
  · rw [h₂.eq, h₁.eq]
  · intro cd
    rw [h₂.cluster cd, h₁.cluster cd]
  · exact fun m => (h₂.failed m).trans (h₁.failed m)

theorem refl (s : State) : s.Worked s := (State.Ran.refl s).worked
theorem ran (h : s.Worked t) (hr : t.Ran u) : s.Worked u := h.trans hr.worked
theorem settled (h : s.Worked t) (hs : t.Settled u) : s.Worked u := h.ran (.settled (.refl t) hs)
theorem onSvc (h : s.Worked t) (f : Service → Service) : s.Worked (t.onSvc f) := h.trans ⟨rfl, fun _ => rfl, fun _ => rfl⟩
theorem onLife (h : s.Worked t) (f : Life → Life) : s.Worked (t.onLife f) := h.ran (.onLife (.refl t) f)
theorem onWork (h : s.Worked t) (f : Work → Work) : s.Worked (t.onWork f) := h.ran (.onWork (.refl t) f)
theorem logEvent (h : s.Worked t) (e : Ev) (i : EvInfo) : s.Worked (t.logEvent e i) := h.ran (.logEvent (.refl t) e i)

theorem ite {p : Prop} [Decidable p] (h₁ : s.Worked t) (h₂ : s.Worked u) : s.Worked (if p then t else u) := by
  split <;> assumption

theorem foldl {α : Type} {f : State → α → State} {l : List α} (hf : ∀ x a, s.Worked x → s.Worked (f x a)) (h : s.Worked t) :
    s.Worked (l.foldl f t) := by
  induction l generalizing t with
  | nil => exact h
  | cons a l ih => exact ih (hf t a h)

theorem modModel (h : s.Worked t) (i : Nat) (f : Model → Model) : s.Worked (t.modModel i f) := by
  unfold State.modModel
  split
  · exact h
  · exact h.onSvc _

theorem dropModel (h : s.Worked t) (i : Nat) : s.Worked (t.dropModel i) := by
  unfold State.dropModel
  split
  · exact h
  · refine .ite h (.onSvc (.settled ?_ (.dropWeights (.refl _) _)) _)
    refine .settled h ?_
    exact .foldl (fun _ _ hx => .foldl (fun _ _ hx => hx.dropPage _) hx) (.foldl (fun _ _ hx => hx.closeContext _) (.refl t))

theorem dropAdapter (h : s.Worked t) (i : Nat) : s.Worked (t.dropAdapter i) := by
  unfold State.dropAdapter
  split
  · exact h
  · exact .ite h (h.onSvc _)

theorem endRequest (h : s.Worked t) (r : Request) (entry : List Byte) : s.Worked (t.endRequest r entry) :=
  .dropAdapter (.dropModel (.ite (h.onSvc _) (.ite ((h.onSvc _).settled (.modContext (.refl _) _ _)) ((h.onSvc _).settled (.closeContext (.refl _) _)))) _) _

theorem failWith (h : s.Worked t) (qp id status : Nat) : s.Worked (t.failWith qp id status) := by
  unfold State.failWith
  split
  · exact h
  · exact h.endRequest _ _

theorem unpin (n : Nat) (h : s.Worked t) : s.Worked (t.unpin n) := by
  induction n generalizing t with
  | zero => exact h
  | succ n ih =>
    refine .ite h ?_
    dsimp only
    split
    · exact h
    · exact ih ((h.modModel _ _).logEvent _ _)

theorem loseRegion (h : s.Worked t) (rescue : Bool) (lost : Nat → Bool) : s.Worked (t.loseRegion rescue lost).1 := by
  unfold State.loseRegion
  dsimp only
  refine .onWork (.foldl (fun x _ hx => hx.ran (.discardEpoch (.refl x) _ _)) ?_) _
  refine .foldl (fun x c hx => .settled (.foldl (fun _ _ hy => hy.failWith _ _ _) hx) (.closeContext (.refl _) _)) ?_
  refine .foldl (fun x _ hx => hx.settled (.breakInstance (.refl x) _)) ?_
  exact .ite (.foldl (fun x _ hx => hx.settled (.replace (.refl x) _ _)) h) h

theorem onFw (h : s.Worked t) (f : Fw → Fw) : (s.onFw f).Worked (t.onFw f) := by
  constructor
  · show ({ t with fw := f t.fw } : State) = { s with fw := f s.fw, free := t.free, mem := t.mem, cores := t.cores, slices := t.slices, outers := t.outers, clusters := t.clusters, work := t.work, channels := t.channels, svc := t.svc, ctl := t.ctl, log := t.log, life := t.life, sent := t.sent, ident := { s.ident with sessRing := t.ident.sessRing }, pwr := { s.pwr with inboxPins := t.pwr.inboxPins } }
    rw [h.eq]
  · exact h.cluster
  · exact h.failed

end State.Worked

/-- A cluster as its fence leaves it, but for its wave. -/
def Cluster.fencedNow (k : Cluster) : Cluster := { k with
  fenced := true, clk := .stopped, goal := .stopped, restarting := false, gateOpen := false, gateClosing := false
  gatePending := false
  dom := if k.dom = .on ∨ k.dom = .rampUp ∨ k.dom = .rampDown then .rampDown else .fenced
  domPending := false, ramp := if k.dom = .on then 16 else k.ramp }

/-- The state with cluster `cd` fenced and the fence among the changes to the retirement table. -/
def State.fencedAt (s : State) (cd : Nat) : State :=
  (s.modCluster cd Cluster.fencedNow).onFw fun f => { f with toRetire := f.toRetire ++ [.fence cd] }

/-- Fencing a cluster is, but for the work that it ends, setting the cluster and entering the fence. -/
theorem State.fenceCluster_worked (s : State) {cd : Nat} (hf : s.fenced cd = false) (ev : Ev) (answers : Bool) :
    (s.fencedAt cd).Worked (s.fenceCluster cd ev answers) := by
  unfold State.fenceCluster
  rw [hf, if_neg Bool.false_ne_true]
  dsimp only
  refine State.Worked.unpin _ ?_
  unfold State.fencedAt
  refine .ite (.logEvent (.loseRegion (.onFw ?_ _) _ _) _ _) (.loseRegion (.onFw ?_ _) _ _)
  all_goals
    refine State.Ran.worked ?_
    refine .onLife (.alert (.returnCredits (.abortPackets ?_ _) _) _) _
    split
    case' h_1 => refine .ite ?_ (.discardEpoch ?_ _ _)
    all_goals
      refine .moveShares (.fenceWave (.onWork ?_ _) _ _ _) _
      split
      · exact .modTask (.logEvent (.refl _) _ _) _ _
      · exact .logEvent (.refl _) _ _

end Sys2Proof.Machine
end

