-- ==== Sys2Proof/Proofs/ClocksAndPower.lean ====
section
/-!
Cluster clocks and their sources, gates, phases, domains and the power cap.
-/

namespace Sys2Proof.Machine

/-! ### What a fence leaves of a cluster -/

theorem State.fenceCluster_spec (s : State) {cd : Nat} (hf : s.fenced cd = false) (ev : Ev) (answers : Bool) :
    (s.fenceCluster cd ev answers).fw = { s.fw with toRetire := s.fw.toRetire ++ [.fence cd] } ∧
      (s.fenceCluster cd ev answers).pwr = { s.pwr with inboxPins := (s.fenceCluster cd ev answers).pwr.inboxPins } ∧
      (s.fenceCluster cd ev answers).cluster cd =
        { (s.cluster cd).fencedNow with wave := ((s.fenceCluster cd ev answers).cluster cd).wave } := by
  have h := s.fenceCluster_worked hf ev answers
  have hat : (s.fencedAt cd).cluster cd = (s.cluster cd).fencedNow := s.modCluster_cluster cd Cluster.fencedNow
  have hc := h.cluster cd
  rw [hat] at hc
  refine ⟨?_, ?_, hc⟩
  · rw [h.eq]
    rfl
  · rw [h.eq]
    rfl

/-! ### Bringing clocks to their settings -/

theorem Cluster.retune_goal (k : Cluster) (w : Clk) : (k.retune w).goal = w := by
  unfold Cluster.retune
  split
  · next h => exact h.symm
  · split <;> rfl

theorem Cluster.retune_keeps (k : Cluster) (w : Clk) : k.retune w = { k with clk := (k.retune w).clk, goal := (k.retune w).goal } := by
  unfold Cluster.retune
  split
  · rfl
  · split <;> rfl

/-- Steps that each update one key of a table update every key that they name once. -/
theorem lookD_foldl_own {α : Type} {g : Tab α → Nat → Tab α} {f : Nat → α → α} {d : α}
    (hown : ∀ t i, lookD (g t i) i d = f i (lookD t i d)) (hother : ∀ t i j, j ≠ i → lookD (g t i) j d = lookD t j d)
    {l : List Nat} (hl : l.Nodup) (t : Tab α) (j : Nat) :
    lookD (l.foldl g t) j d = if j ∈ l then f j (lookD t j d) else lookD t j d := by
  induction l generalizing t with
  | nil => rfl
  | cons i l ih =>
    obtain ⟨hi, hl⟩ := List.nodup_cons.mp hl
    rw [List.foldl_cons, ih hl]
    by_cases hj : j = i
    · subst hj
      rw [if_neg hi, if_pos List.mem_cons_self, hown]
    · rw [hother t i j hj]
      simp [hj]

/-- The clusters with the clocks of those in `l` brought to their settings. -/
def State.tunedClusters (s : State) (l : List Nat) : Tab Cluster :=
  l.foldl (fun t cd =>
    let k := lookD t cd {}
    let k1 := k.retune (s.wantClk cd)
    if k1 = k then t else put t cd k1) s.clusters

theorem State.retune_eq (s : State) : s.retune = { s with clusters := s.tunedClusters (List.range 512) } := by
  unfold State.retune State.tunedClusters
  rfl

theorem State.tunedClusters_cluster (s : State) {l : List Nat} (hl : l.Nodup) (cd : Nat) :
    ({ s with clusters := s.tunedClusters l } : State).cluster cd = if cd ∈ l then (s.cluster cd).retune (s.wantClk cd) else s.cluster cd := by
  refine lookD_foldl_own (f := fun i k => k.retune (s.wantClk i)) (fun t i => ?_) (fun t i j hj => ?_) hl s.clusters cd
  · dsimp only
    split
    · next h => exact h.symm
    · exact lookD_put_same ..
  · dsimp only
    split
    · rfl
    · exact lookD_put_ne _ _ _ hj

theorem State.retune_cluster (s : State) (cd : Nat) :
    s.retune.cluster cd = if cd < 512 then (s.cluster cd).retune (s.wantClk cd) else s.cluster cd :=
  (congrArg (fun u : State => u.cluster cd) s.retune_eq).trans
    ((s.tunedClusters_cluster List.nodup_range cd).trans (ite_of_iff List.mem_range))

theorem State.retune_wantClk (s : State) (cd : Nat) : s.retune.wantClk cd = s.wantClk cd := by
  have hc : (s.retune.cluster cd).fenced = (s.cluster cd).fenced ∧ (s.retune.cluster cd).working = (s.cluster cd).working := by
    rw [s.retune_cluster]
    split
    · rw [Cluster.retune_keeps]
      exact ⟨rfl, rfl⟩
    · exact ⟨rfl, rfl⟩
  unfold State.wantClk
  dsimp only
  rw [hc.1, hc.2, s.retune_eq]

theorem State.retune_tuned (s : State) : s.retune.tuned := by
  intro cd hcd
  rw [s.retune_wantClk, s.retune_cluster, if_pos hcd, Cluster.retune_goal]

theorem State.retune_pwr (s : State) : s.retune.pwr = s.pwr := by rw [s.retune_eq]

/-! ### Sources -/

theorem State.useSource_other (s : State) {n : Nat} (h : s.pwr.source ≠ n) :
    s.useSource n = (s.onPwr fun p => { p with source := n, switches := satAdd 16 p.switches 1, holdover := true }).retune := if_neg h

theorem State.clockOffer_up (s : State) {l : Nat} (hl : l < 8) (hu : (s.linkSt l).state = .up) :
    ∃ t, exec (.clockOffer (2 + l)) s = .next t ∧ 2 + l ∈ t.pwr.offered ∧ (t.linkSt l).offered = true := by
  refine ⟨(s.onPwr fun p => { p with offered := insertSet p.offered (2 + l) }).modLink l fun k => { k with offered := true }, ?_,
    (mem_insertSet _ _ _).mpr (Or.inl rfl), ?_⟩
  · show execClockOffer (2 + l) s = _
    unfold execClockOffer
    rw [Nat.add_sub_cancel_left, hu]
    dsimp only
    rw [if_neg (by omega : ¬ 2 + l = 1), if_neg (by omega : ¬ 2 + l = 1), decide_eq_true (by omega : 2 ≤ 2 + l),
      decide_eq_true (by omega : 2 + l ≤ 9)]
    rfl
  · rw [State.modLink_linkSt]

theorem State.clockOffer_down (s : State) (l : Nat) (hu : (s.linkSt l).state ≠ .up) : exec (.clockOffer (2 + l)) s = .next s := by
  have hb : ((s.linkSt l).state == .up) = false := beq_eq_false_iff_ne.mpr hu
  show execClockOffer (2 + l) s = _
  unfold execClockOffer
  rw [Nat.add_sub_cancel_left, hb, Bool.and_false]
  dsimp only
  rw [if_neg (by omega : ¬ 2 + l = 1)]
  rfl

/-- The state with candidate `n` off the offers and its receiver told. -/
def State.withdrawn (s : State) (n : Nat) : State :=
  let s1 := s.onPwr fun p => { p with offered := p.offered.filter (· != n) }
  if n = 1 then s1.modPort 0 fun k => { k with clockOffered := false } else s1.modLink (n - 2) fun k => { k with offered := false }

theorem State.withdrawn_pwr (s : State) (n : Nat) : (s.withdrawn n).pwr = { s.pwr with offered := s.pwr.offered.filter (· != n) } := by
  unfold State.withdrawn
  dsimp only
  split <;> rfl

theorem State.withdrawn_offered (s : State) (n : Nat) : n ∉ (s.withdrawn n).pwr.offered := by
  rw [s.withdrawn_pwr]
  simp

theorem State.clockWithdraw_running (s : State) {n : Nat} (hn : n ≠ 0) (ho : s.pwr.offered.contains n = true) (hs : s.pwr.source = n) :
    ∃ t, exec (.clockWithdraw n) s = .next t ∧ n ∉ t.pwr.offered ∧
      t.pwr.source ≠ n ∧ t.pwr.holdover = true ∧ t.pwr.switches = satAdd 16 s.pwr.switches 1 ∧ t.tuned := by
  have hne : ∀ l : List Nat, n ≠ (l.find? fun c => (s.withdrawn n).pwr.offered.contains c).getD 0 := by
    intro l
    cases hf : l.find? fun c => (s.withdrawn n).pwr.offered.contains c with
    | none => exact hn
    | some c =>
      rintro rfl
      exact s.withdrawn_offered _ (List.contains_iff_mem.mp (List.find?_some hf))
  have hsrc : (s.withdrawn n).pwr.source = n := by rw [s.withdrawn_pwr]; exact hs
  have hne := hne (((sourceOrder s.pwr.srcCfg).dropWhile (· != n)).drop 1)
  refine ⟨(s.withdrawn n).useSource (((((sourceOrder s.pwr.srcCfg).dropWhile (· != n)).drop 1).find? fun c =>
      (s.withdrawn n).pwr.offered.contains c).getD 0), ?_, ?_⟩
  · show execClockWithdraw n s = _
    unfold execClockWithdraw
    rw [ho, if_neg (by decide), if_neg (Classical.not_not.mpr hs)]
    rfl
  · rw [State.useSource_other _ (by rw [hsrc]; exact hne)]
    refine ⟨?_, ?_, ?_, ?_, State.retune_tuned _⟩
    all_goals rw [State.retune_pwr, State.onPwr_pwr]
    · exact s.withdrawn_offered n
    · exact hne.symm
    · show satAdd 16 (s.withdrawn n).pwr.switches 1 = _
      rw [s.withdrawn_pwr]

theorem State.clockWithdraw_other (s : State) {n : Nat} (ho : s.pwr.offered.contains n = true) (hs : s.pwr.source ≠ n) :
    exec (.clockWithdraw n) s = .next (s.withdrawn n) := by
  show execClockWithdraw n s = _
  unfold execClockWithdraw
  rw [ho, if_neg (by decide), if_pos hs]
  rfl

theorem State.candidateStable_runs (s : State) {n : Nat} (ho : s.pwr.offered.contains n = true)
    (he : n ∈ (sourceOrder s.pwr.srcCfg).takeWhile (· != s.pwr.source)) :
    ∃ t, exec (.candidateStable n) s = .next t ∧ t.pwr.source = n ∧ t.pwr.holdover = true ∧ t.tuned := by
  have hne : s.pwr.source ≠ n := fun h => by
    have := List.all_eq_true.mp List.all_takeWhile _ he
    rw [h, bne_self_eq_false] at this
    exact Bool.false_ne_true this
  refine ⟨s.useSource n, ?_, ?_⟩
  · exact (if_pos ⟨ho, List.contains_iff_mem.mpr he⟩ : execCandidateStable n s = _)
  · rw [s.useSource_other hne, State.retune_pwr]
    exact ⟨rfl, rfl, State.retune_tuned _⟩

/-! ### Phases and droop -/

/-- The rule of R505 for cluster `cd` changes nothing but its fields of clock, target, frequency and fence, and what a fence ends. -/
theorem State.phaseRule_spec (s : State) (cd : Nat) :
    ((s.phaseRule cd).cluster cd).phases = (s.cluster cd).phases ∧
      ((s.phaseRule cd).cluster cd).droopEvents = (s.cluster cd).droopEvents ∧
      ((s.phaseRule cd).cluster cd).droopDropped = (s.cluster cd).droopDropped ∧
      (∀ x ∈ s.fw.toRetire, x ∈ (s.phaseRule cd).fw.toRetire) ∧
      (s.phaseRule cd).pwr.lastPhaseFail = s.pwr.lastPhaseFail ∧ (s.phaseRule cd).pwr.phaseEmergency = s.pwr.phaseEmergency ∧
      ((s.cluster cd).working = 4 → (s.cluster cd).fenced = false → ((s.phaseRule cd).cluster cd).f ≤ 17) ∧
      ((s.cluster cd).working ≤ 3 → (s.cluster cd).fenced = false → ((s.phaseRule cd).cluster cd).clk = .stopped ∧
        ((s.phaseRule cd).cluster cd).fenced = (s.fw.powUp && !s.fw.powRestart)) := by
  by_cases h0 : (s.cluster cd).fenced = true ∨ 5 ≤ (s.cluster cd).working
  · rw [show s.phaseRule cd = s from if_pos h0]
    refine ⟨rfl, rfl, rfl, fun _ h => h, rfl, rfl, fun h4 hf => ?_, fun h3 hf => ?_⟩
    · rcases h0 with h | h
      · rw [hf] at h; exact absurd h Bool.false_ne_true
      · omega
    · rcases h0 with h | h
      · rw [hf] at h; exact absurd h Bool.false_ne_true
      · omega
  obtain ⟨hf, h5⟩ := not_or.mp h0
  have hf : (s.cluster cd).fenced = false := Bool.eq_false_iff.mpr hf
  by_cases h4 : (s.cluster cd).working = 4
  · by_cases h17 : (s.cluster cd).f ≤ 17
    · have hr : s.phaseRule cd = s := by
        unfold State.phaseRule
        dsimp only
        rw [if_neg h0, if_pos h4, if_pos h17]
      rw [hr]
      exact ⟨rfl, rfl, rfl, fun _ h => h, rfl, rfl, fun _ _ => h17, fun h3 => absurd h3 (by omega)⟩
    · have hr : s.phaseRule cd = (s.modCluster cd fun k => { k with f := 17 }).newTarget cd := by
        unfold State.phaseRule
        dsimp only
        rw [if_neg h0, if_pos h4, if_neg h17]
      have hc : ∃ v w, ((s.modCluster cd fun k => { k with f := 17 }).newTarget cd).cluster cd =
          { s.cluster cd with f := 17, target := v, setPoint := w } := by
        have hd : ∀ u : State, u.draw.cluster cd = u.cluster cd := fun _ => rfl
        unfold State.newTarget
        rw [hd, State.modCluster_cluster, State.modCluster_cluster]
        exact ⟨_, _, rfl⟩
      obtain ⟨v, w, hc⟩ := hc
      rw [hr, hc]
      exact ⟨rfl, rfl, rfl, fun _ h => h, rfl, rfl, fun _ _ => Nat.le_refl 17, fun h3 => absurd h3 (by omega)⟩
  · have hstop : (s.modCluster cd fun k => { k with clk := .stopped, goal := .stopped }).cluster cd =
        { s.cluster cd with clk := .stopped, goal := .stopped } := s.modCluster_cluster cd _
    by_cases hp : s.fw.powRestart = true ∨ (!s.fw.powUp) = true
    · have hr : s.phaseRule cd = s.modCluster cd fun k => { k with clk := .stopped, goal := .stopped } := by
        unfold State.phaseRule
        dsimp only
        rw [if_neg h0, if_neg h4, if_pos hp]
      rw [hr, hstop]
      refine ⟨rfl, rfl, rfl, fun _ h => h, rfl, rfl, fun h => absurd h h4, fun _ _ => ⟨rfl, ?_⟩⟩
      rw [hf]
      rcases hp with h | h
      · rw [h]; exact (Bool.and_false _).symm
      · rw [Bool.not_eq_true'] at h; rw [h]; rfl
    · have hr : s.phaseRule cd = (s.modCluster cd fun k => { k with clk := .stopped, goal := .stopped }).fenceCluster cd .domainFail true := by
        unfold State.phaseRule
        dsimp only
        rw [if_neg h0, if_neg h4, if_neg hp]
      have hf' : (s.modCluster cd fun k => { k with clk := .stopped, goal := .stopped }).fenced cd = false := by
        rw [State.fenced, hstop]
        exact hf
      obtain ⟨k1, k2, k3⟩ := State.fenceCluster_spec _ hf' .domainFail true
      rw [hr, k3, k2, k1, hstop]
      refine ⟨rfl, rfl, rfl, fun x h => List.mem_append_left _ h, rfl, rfl, fun h => absurd h h4, fun _ _ => ⟨rfl, ?_⟩⟩
      rw [not_or, Bool.not_eq_true, Bool.not_eq_true, Bool.not_eq_false'] at hp
      rw [hp.1, hp.2]
      rfl

/-- A cluster with a phase retired. -/
def Cluster.losePhase (k : Cluster) (p : Nat) : Cluster := { k with phases := k.phases &&& ~~~(1#6 <<< p) }

/-- The state with a phase failure of cluster `cd` logged, entered and timed. -/
def State.phaseLost (s : State) (cd p : Nat) : State :=
  ((((s.modCluster cd fun k => k.losePhase p).logEvent .phaseFail { ut := utPhase, ui := cd * 8 + p }).onFw fun f =>
    { f with toRetire := f.toRetire ++ [.phase cd p] }).onLife fun l => { l with failedPhases := satAdd 16 l.failedPhases 1 }).onPwr fun q =>
      { q with lastPhaseFail := s.now, phaseEmergency := q.phaseEmergency + 1 }

theorem State.phaseLost_spec (s : State) (cd p : Nat) :
    (s.phaseLost cd p).cluster cd = (s.cluster cd).losePhase p ∧ .phase cd p ∈ (s.phaseLost cd p).fw.toRetire ∧
      (s.phaseLost cd p).pwr = { s.pwr with lastPhaseFail := s.now, phaseEmergency := s.pwr.phaseEmergency + 1 } ∧
      (s.phaseLost cd p).fw.powUp = s.fw.powUp ∧ (s.phaseLost cd p).fw.powRestart = s.fw.powRestart := by
  have h := (State.Accessed.refl (s.modCluster cd fun k => k.losePhase p)).logEvent .phaseFail { ut := utPhase, ui := cd * 8 + p }
  refine ⟨?_, List.mem_append_right _ List.mem_cons_self, ?_, ?_, ?_⟩
  · exact (h.cluster cd).trans (s.modCluster_cluster cd _)
  · unfold State.phaseLost
    rw [State.onPwr_pwr, State.onLife_pwr, State.onFw_pwr, State.logEvent_pwr]
    rfl
  · unfold State.phaseLost
    rw [State.onPwr_fw, State.onLife_fw, State.onFw_fw, h.fw]
    rfl
  · unfold State.phaseLost
    rw [State.onPwr_fw, State.onLife_fw, State.onFw_fw, h.fw]
    rfl

theorem State.phaseFail_exec (s : State) {cd p : Nat} (hcd : cd < 512) (hp : p < 6) (hb : (s.cluster cd).phases.getLsbD p = true) :
    exec (.phaseFail cd p) s = .next ((s.phaseLost cd p).phaseRule cd) := by
  refine if_neg ?_
  rw [hb]
  simp [hcd, hp]

/-- A sample of droop sensor `i` far enough under the set point is counted. -/
def State.drooped (s : State) (cd mv : Nat) : State :=
  if mv + 60 < (s.cluster cd).raised then s.modCluster cd fun k => { k with droopEvents := satAdd 8 k.droopEvents 1 } else s

theorem State.drooped_cluster (s : State) (cd mv : Nat) : (s.drooped cd mv).cluster cd = { s.cluster cd with
    droopEvents := if mv + 60 < (s.cluster cd).raised then satAdd 8 (s.cluster cd).droopEvents 1 else (s.cluster cd).droopEvents } := by
  unfold State.drooped
  by_cases h : mv + 60 < (s.cluster cd).raised
  · rw [if_pos h, if_pos h, State.modCluster_cluster]
  · rw [if_neg h, if_neg h]

/-- A cluster without droop sensor `i`. -/
def Cluster.dropDroop (k : Cluster) (i : Nat) : Cluster :=
  { k with droopBad := del k.droopBad i, droopDropped := insertSet k.droopDropped i }

theorem State.droop_spec (s : State) {cd i : Nat} (mv : Nat) (hi : i < 4) (hd : i ∉ (s.cluster cd).droopDropped) :
    ∃ t, exec (.droop cd i mv) s = .next t ∧
      (t.cluster cd).droopEvents =
        (if mv + 60 < (s.cluster cd).raised then satAdd 8 (s.cluster cd).droopEvents 1 else (s.cluster cd).droopEvents) ∧
      ((mv < 400 ∨ 1000 < mv) → lookD (s.cluster cd).droopBad i 0 = 9 → i ∈ (t.cluster cd).droopDropped) := by
  have h0 : ¬ (4 ≤ i ∨ (s.cluster cd).droopDropped.contains i = true) := by
    rw [List.contains_iff_mem]
    exact not_or.mpr ⟨Nat.not_le.mpr hi, hd⟩
  have hc := s.drooped_cluster cd mv
  by_cases hgood : 400 ≤ mv ∧ mv ≤ 1000
  · refine ⟨(s.drooped cd mv).modCluster cd fun k => { k with droopBad := del k.droopBad i }, ?_, ?_, fun hbad => absurd hbad (by omega)⟩
    · show execDroop cd i mv s = _
      unfold execDroop
      dsimp only
      rw [if_neg h0, if_pos hgood]
      rfl
    · rw [State.modCluster_cluster, hc]
  · by_cases hn : lookD (s.cluster cd).droopBad i 0 + 1 < 10
    · refine ⟨(s.drooped cd mv).modCluster cd fun k => { k with droopBad := put k.droopBad i (lookD (s.cluster cd).droopBad i 0 + 1) },
        ?_, ?_, fun _ h9 => absurd hn (by omega)⟩
      · show execDroop cd i mv s = _
        unfold execDroop
        dsimp only
        rw [if_neg h0, if_neg hgood, if_pos hn]
        rfl
      · rw [State.modCluster_cluster, hc]
    · have ha := (State.Accessed.refl ((s.drooped cd mv).modCluster cd fun k => k.dropDroop i)).logEvent .droopSensor
        { ut := utCluster, ui := cd, detail := i }
      have hcl := (ha.cluster cd).trans ((s.drooped cd mv).modCluster_cluster cd _)
      rw [hc] at hcl
      obtain ⟨-, r2, r3, -⟩ := State.phaseRule_spec (((s.drooped cd mv).modCluster cd fun k => k.dropDroop i).logEvent .droopSensor
        { ut := utCluster, ui := cd, detail := i }) cd
      refine ⟨_, ?_, r2.trans ?_, fun _ _ => ?_⟩
      · show execDroop cd i mv s = _
        unfold execDroop
        dsimp only
        rw [if_neg h0, if_neg hgood, if_neg hn]
        rfl
      · rw [hcl]
        rfl
      · rw [r3, hcl]
        exact (mem_insertSet _ _ _).mpr (Or.inl rfl)

/-! ### Domains -/

theorem State.budget_granted (s : State) {cd near vpkg : Nat} (hw : (s.cluster cd).dom = .waitBudget) (hp : s.fw.powRestart = false)
    (hr : s.rampNear cd = false) (hb : s.waitsBefore cd = false) (hn : near + 4000 ≤ 90000)
    (hv : vpkg + 4000 * ((s.clusters.filter fun p => p.2.dom == .rampUp).length + 1) ≤ 1250000) (hc : s.heat.coolant ≠ .absent) :
    exec (.domainBudgetGrant cd near vpkg) s = .next (s.modCluster cd fun k => { k with dom := .rampUp, ramp := 0, setPoint := 0 }) := by
  refine if_neg ?_
  rw [hp, hr, hb]
  simp only [hw, hc, ne_eq, not_true_eq_false, Bool.false_eq_true, false_and, or_false, false_or, not_or, Nat.not_lt]
  exact ⟨hn, hv⟩

theorem State.budget_waits (s : State) {cd near vpkg : Nat} (h : s.rampNear cd = true ∨ s.waitsBefore cd = true ∨ 90000 < near + 4000) :
    exec (.domainBudgetGrant cd near vpkg) s = .next s := by
  refine if_pos ?_
  rcases h with h | h | h
  · exact Or.inr (Or.inr (Or.inl h))
  · exact Or.inr (Or.inr (Or.inr (Or.inl h)))
  · exact Or.inr (Or.inr (Or.inr (Or.inr (Or.inl h))))

theorem State.rampStep_up (s : State) {cd : Nat} (h : (s.cluster cd).dom = .rampUp) : ∃ t, exec (.rampStep cd) s = .next t ∧
    (t.cluster cd).ramp = (s.cluster cd).ramp + 1 ∧
    (t.cluster cd).setPoint = (s.cluster cd).target * ((s.cluster cd).ramp + 1) / 16 ∧
    (t.cluster cd).dom = (if 15 ≤ (s.cluster cd).ramp then .on else .rampUp) := by
  refine ⟨s.modCluster cd fun k => { k with
      ramp := (s.cluster cd).ramp + 1, setPoint := (s.cluster cd).target * ((s.cluster cd).ramp + 1) / 16
      dom := if 16 ≤ (s.cluster cd).ramp + 1 then .on else .rampUp
      gateOpen := if 16 ≤ (s.cluster cd).ramp + 1 then !k.gateByCmd else k.gateOpen }, ?_, ?_⟩
  · show execRampStep cd s = _
    unfold execRampStep
    dsimp only
    rw [h]
    rfl
  · rw [State.modCluster_cluster]
    exact ⟨rfl, rfl, ite_of_iff (by omega)⟩

theorem State.rampStep_down (s : State) {cd : Nat} (h : (s.cluster cd).dom = .rampDown) (hp : (s.cluster cd).domPending = false) :
    ∃ t, exec (.rampStep cd) s = .next t ∧ (t.cluster cd).ramp = (s.cluster cd).ramp - 1 ∧
    (t.cluster cd).setPoint = (s.cluster cd).target * ((s.cluster cd).ramp - 1) / 16 ∧
    (t.cluster cd).dom = (if 1 < (s.cluster cd).ramp then .rampDown else if (s.cluster cd).fenced then .fenced else .off) := by
  refine ⟨s.modCluster cd fun k => { k with
      ramp := (s.cluster cd).ramp - 1, setPoint := (s.cluster cd).target * ((s.cluster cd).ramp - 1) / 16
      dom := if (s.cluster cd).ramp - 1 ≠ 0 then .rampDown else if (s.cluster cd).fenced then .fenced
        else if (s.cluster cd).domPending then .waitBudget else .off
      domPending := if (s.cluster cd).ramp - 1 = 0 then false else (s.cluster cd).domPending }, ?_, ?_⟩
  · show execRampStep cd s = _
    unfold execRampStep
    dsimp only
    rw [h]
    rfl
  · rw [State.modCluster_cluster, hp]
    exact ⟨rfl, rfl, ite_of_iff (by omega)⟩

theorem State.rampStep_other (s : State) {cd : Nat} (h0 : (s.cluster cd).dom ≠ .rampUp) (h1 : (s.cluster cd).dom ≠ .rampDown) :
    exec (.rampStep cd) s = .next s := by
  show execRampStep cd s = _
  unfold execRampStep
  dsimp only
  split
  · exact absurd (by assumption) h0
  · exact absurd (by assumption) h1
  · rfl

/-! ### The cap -/

theorem State.capUnmet_pwr (s : State) (cap : Nat) :
    (s.capUnmet cap).pwr.capLevel = s.pwr.capLevel ∧ (s.capUnmet cap).pwr.mean1 = s.pwr.mean1 ∧
      (s.capUnmet cap).pwr.mean10 = s.pwr.mean10 := by
  unfold State.capUnmet
  dsimp only
  split
  · rw [State.logEvent_pwr]
    exact ⟨rfl, rfl, rfl⟩
  · split
    · split <;> split <;> exact ⟨rfl, rfl, rfl⟩
    · exact ⟨rfl, rfl, rfl⟩

/-- The cap level of the next period: what the means ask for, and at least what the limiters hold. -/
def State.nextLevel (s : State) (a b : Nat) : Nat :=
  let cap := s.capNow
  let up := decide (cap < a) && decide (1 ≤ s.pwr.capRaised)
  let down := decide (100 * b < 97 * cap) && decide (19 ≤ s.pwr.capFell)
  let level := if up then min 8 (s.pwr.capLevel + 1) else s.pwr.capLevel
  max (max (if s.pwr.fastLimit then 6 else 0) (if s.pwr.sustained && decide (s.pwr.capW < b) then 4 else 0)) (if down then level - 1 else level)

theorem State.nextLevel_range (s : State) (a b : Nat) (h8 : s.pwr.capLevel ≤ 8) :
    s.nextLevel a b ≤ 8 ∧ (s.nextLevel a b ≤ s.pwr.capLevel + 1 ∨ s.nextLevel a b ≤ 6) ∧
      (s.pwr.fastLimit = true → 6 ≤ s.nextLevel a b) ∧ (s.pwr.sustained = true → s.pwr.capW < b → 4 ≤ s.nextLevel a b) := by
  unfold State.nextLevel
  dsimp only
  refine ⟨?_, ?_, fun h => ?_, fun h hb => ?_⟩
  · split <;> split <;> split <;> split <;> omega
  · split <;> split <;> split <;> split <;> omega
  · rw [if_pos h]
    omega
  · rw [h, decide_eq_true hb, Bool.true_and, if_pos rfl]
    exact Nat.le_trans (Nat.le_max_right _ 4) (Nat.le_max_left _ _)

theorem State.capPeriod_exec (s : State) (a b : Nat) (hu : s.fw.powUp = true) (hr : s.fw.powRestart = false) (hp : s.heat.probing = false) :
    ∃ u : State, exec (.capControlPeriod a b) s = .next (u.capUnmet s.capNow).retune ∧ u.pwr.capLevel = s.nextLevel a b ∧ u.pwr.mean1 = a ∧
      u.pwr.mean10 = b := by
  refine ⟨_, if_neg (by rw [hu, hr]; decide), ?_, rfl, rfl⟩
  rw [State.onPwr_pwr]
  dsimp only
  rw [hp, if_neg Bool.false_ne_true]
  rfl

/-- Settles O47: each event by its helper, the clocks by what `State.retune` leaves. -/
theorem clocksDomainsAndTheCap : Obligations.ClocksDomainsAndTheCap := by
  intro s
  refine ⟨?_, fun l hl => ⟨s.clockOffer_up hl, s.clockOffer_down l⟩, fun n hn ho hs => s.clockWithdraw_running hn ho hs,
    fun n ho hs => ⟨_, s.clockWithdraw_other ho hs, s.withdrawn_offered n, by rw [s.withdrawn_pwr]⟩,
    fun n ho he => s.candidateStable_runs ho he, ⟨_, rfl, by rw [State.retune_pwr]; rfl, State.retune_tuned _⟩, ?_, ?_, ?_, rfl,
    fun cd i mv hi hd => s.droop_spec mv hi hd, ?_, ?_, ?_, ?_, ?_⟩
  · intro cd k
    exact ⟨fun h => if_pos h, fun h => ⟨_, if_neg h, s.modCluster_cluster cd _⟩⟩
  · intro c e hq hg
    have hg' : (s.core c).gatesClosed.contains e = false := Bool.eq_false_iff.mpr (mt List.contains_iff_mem.mp hg)
    refine ⟨_, if_pos ⟨hq, by rw [hg']; rfl⟩, ?_⟩
    rw [State.modCore_core]
  · intro cd hw hg
    refine ⟨_, if_neg (by rw [hw, hg]; decide), ?_⟩
    rw [State.modCluster_cluster]
    exact ⟨rfl, rfl, rfl⟩
  · intro cd p hcd hp hb k
    obtain ⟨l1, l2, l3, l4, l5⟩ := s.phaseLost_spec cd p
    obtain ⟨r1, -, -, r4, r5, r6, r7, r8⟩ := (s.phaseLost cd p).phaseRule_spec cd
    rw [l1] at r1 r7 r8
    rw [l3] at r5 r6
    rw [l4, l5] at r8
    exact ⟨_, s.phaseFail_exec hcd hp hb, r1, r4 _ l2, r5, r6, r7, r8⟩
  · intro cd near vpkg hw
    refine ⟨fun hp hr hb hn hv hc => ⟨_, s.budget_granted hw hp hr hb hn hv hc, s.modCluster_cluster cd _⟩, s.budget_waits⟩
  · intro cd k
    exact ⟨s.rampStep_up, s.rampStep_down, s.rampStep_other⟩
  · intro hu hr
    refine ⟨fun a b hp h8 => ?_, fun a ha => ?_⟩
    · obtain ⟨u, hx, u1, u2, u3⟩ := s.capPeriod_exec a b hu hr hp
      obtain ⟨c1, c2, c3⟩ := u.capUnmet_pwr s.capNow
      obtain ⟨n1, n2, n3, n4⟩ := s.nextLevel_range a b h8
      refine ⟨_, hx, State.retune_tuned _, ?_⟩
      rw [State.retune_pwr, c1, c2, c3, u1, u2, u3]
      exact ⟨n1, n2, n3, n4, rfl, rfl⟩
    · refine ⟨_, if_neg (by rw [hu, hr]; simp; omega), ?_⟩
      refine ⟨?_, ?_, State.retune_tuned _⟩
      · rw [State.retune_pwr]; rfl
      · rw [State.retune_pwr]; exact Nat.le_max_left 4 _
  · intro w hw
    refine ⟨_, if_neg (by omega), ?_, ?_, State.retune_tuned _⟩
    · rw [State.retune_pwr]; rfl
    · rw [State.retune_pwr]; exact Nat.le_max_left 6 _
  · exact fun w => (apply_ite Host.Outcome.next _ _ _).symm

end Sys2Proof.Machine
end

