-- ==== Sys2Proof/Proofs/Temperatures.lean ====
section
/-!
Temperatures: zone samples, coolant, trips and thermal resistance.
-/

namespace Sys2Proof.Machine

/-! ### Samples -/

/-- State `t` has the throttle levels of `s` in every zone. -/
def State.SameLevels (s t : State) : Prop := ∀ z, (t.heat.zone z).level = (s.heat.zone z).level

theorem Heat.zone_put (h : Heat) (i : Nat) (k : Zone) (z : Nat) :
    ({ h with zones := put h.zones i k } : Heat).zone z = if z = i then k else h.zone z := by
  by_cases hz : z = i
  · subst hz
    exact (lookD_put_same ..).trans (if_pos rfl).symm
  · exact (lookD_put_ne _ _ _ hz).trans (if_neg hz).symm

theorem State.takeSample_levels (s : State) (x : Sample) : s.SameLevels (s.takeSample x) := by
  intro z
  unfold State.takeSample
  dsimp only
  split
  · rfl
  · split
    · rw [State.logEvent_heat]
      rfl
    · split
      · rw [State.logEvent_heat, State.onHeat_heat, Heat.zone_put, State.logEvent_heat]
        by_cases hz : z = chanZone x.channel
        · subst hz
          rw [if_pos rfl]
          rfl
        · rw [if_neg hz]
          rfl
      · rw [State.logEvent_heat]
        rfl

theorem State.agree_levels (s : State) (a : Nat) : s.SameLevels (s.agree a) := by
  intro z
  unfold State.agree
  dsimp only
  split
  · rfl
  · split
    · rfl
    · split
      · rfl
      · rw [State.logEvent_heat]
        rfl

theorem State.SameLevels.foldl {α : Type} {s t : State} {f : State → α → State} {l : List α} (h : s.SameLevels t)
    (hf : ∀ (x : State) (a : α), x.SameLevels (f x a)) : s.SameLevels (l.foldl f t) := by
  induction l generalizing t with
  | nil => exact h
  | cons a l ih => exact ih fun z => (hf t a z).trans (h z)

/-- The state after the samples of a zone and the agreement of its pairs. -/
def State.sampled (s : State) (z : Nat) (xs : List Sample) : State :=
  ((zoneChans z).filter fun ch => ch % 2 == 0 && (chanPartner ch).isSome).foldl State.agree
    ((xs.filter fun x => decide (x.channel < 160) && chanZone x.channel == z).foldl State.takeSample s)

theorem State.sampled_levels (s : State) (z : Nat) (xs : List Sample) : s.SameLevels (s.sampled z xs) :=
  .foldl (.foldl (fun _ => rfl) State.takeSample_levels) State.agree_levels

theorem Heat.sampleInterval_keeps (h : Heat) (z : Nat) (k : Zone) :
    (h.sampleInterval z k).level = k.level ∧ (h.sampleInterval z k).hard = k.hard := by
  unfold Heat.sampleInterval
  dsimp only
  split <;> exact ⟨rfl, rfl⟩

theorem Zone.throttle_spec (k : Zone) (t : Int) (held : Bool) :
    (1760 ≤ t → (k.throttle t held).level = 8) ∧ (1680 ≤ t → 7 ≤ (k.throttle t held).level ∧ (k.throttle t held).hard = true) ∧
      (t < 1680 → (k.throttle t held).level ≤ k.level + 1) := by
  unfold Zone.throttle
  dsimp only
  refine ⟨fun h => ?_, fun h => ?_, fun h => ?_⟩
  · rw [if_pos (by omega)]
  · by_cases h8 : 110 * 16 ≤ t
    · rw [if_pos h8]
      exact ⟨Nat.le_succ 7, by rw [decide_eq_true (by omega)]; rfl⟩
    · rw [if_neg h8, if_pos (by omega)]
      exact ⟨Nat.le_max_left _ _, by rw [decide_eq_true (by omega)]; rfl⟩
  · rw [if_neg (by omega), if_neg (by omega)]
    split
    · exact Nat.le_succ _
    · split
      · split
        · exact Nat.le_trans (Nat.sub_le _ _) (Nat.le_succ _)
        · exact Nat.le_succ _
      · split
        · exact Nat.le_succ _
        · split
          · exact Nat.le_refl _
          · exact Nat.le_succ _

/-- The zone as a sample leaves it. -/
def State.zoneAfter (s : State) (z : Nat) (held : Bool) : Zone :=
  { s.heat.sampleInterval z (if z < 16 then (s.heat.zone z).throttle (s.heat.zoneReading z) held else s.heat.zone z) with
    reading := s.heat.zoneReading z }

/-- The state with the zone's new reading, level and interval. -/
def State.zoneTaken (s : State) (z : Nat) (held : Bool) : State :=
  s.onHeat fun h =>
    { (if (s.zoneAfter z held).interval = 2 ∧ (s.heat.zone z).interval ≠ 2 then h.quicken z else h) with
      zones := put h.zones z (s.zoneAfter z held) }

/-- The state with the zone's new level in force. -/
def State.zoneSet (s : State) (z : Nat) (held : Bool) : State :=
  let s4 := if (s.zoneAfter z held).hard ∧ !(s.heat.zone z).hard then
    (s.zoneTaken z held).logEvent .thermHard { ut := utSensor, ui := (zoneChans z).headD 0, detail := z } else s.zoneTaken z held
  if (s.zoneAfter z held).level = (s.heat.zone z).level then s4 else (s4.alert alThermal).retune

theorem State.zoneSample_exec (s : State) (z : Nat) (xs : List Sample) (hz : z < 29) :
    exec (.thermalZoneSample z xs) s =
      let s5 := (s.sampled z xs).zoneSet z (s.fw.powRestart || !s.fw.powUp)
      if z < 16 then .next ((s5.layerUpdate z).cycleUpdate (z / 4))
      else if z < 28 then .next (s5.packageUpdate (z - 16)) else .next s5.inletUpdate := by
  refine (if_neg (Nat.not_le.mpr hz)).trans ?_
  rfl

theorem State.withClusters_heat (s : State) (c : List (Nat × Cluster)) : ({ s with clusters := c } : State).heat = s.heat := rfl

theorem State.withClusters_ctl (s : State) (c : List (Nat × Cluster)) : ({ s with clusters := c } : State).ctl = s.ctl := rfl

theorem State.retune_heat (s : State) : s.retune.heat = s.heat :=
  (congrArg State.heat s.retune_eq).trans (s.withClusters_heat _)

theorem State.retune_ctl (s : State) : s.retune.ctl = s.ctl :=
  (congrArg State.ctl s.retune_eq).trans (s.withClusters_ctl _)

theorem State.zoneSet_heat (s : State) (z : Nat) (held : Bool) : (s.zoneSet z held).heat = (s.zoneTaken z held).heat := by
  unfold State.zoneSet
  dsimp only
  split <;> split <;> simp only [State.retune_heat, State.alert_heat, State.logEvent_heat]

theorem State.zoneSet_zone (s : State) (z : Nat) (held : Bool) : (s.zoneSet z held).heat.zone z = s.zoneAfter z held := by
  rw [s.zoneSet_heat]
  exact (Heat.zone_put _ z _ z).trans (if_pos rfl)

theorem State.zoneSet_changed (s : State) (z : Nat) (held : Bool) (h : (s.zoneAfter z held).level ≠ (s.heat.zone z).level) :
    (s.zoneSet z held).ctl.alertPending.getLsbD alThermal = true ∧ (s.zoneSet z held).tuned := by
  have hs : ∃ u : State, s.zoneSet z held = (u.alert alThermal).retune := by
    unfold State.zoneSet
    dsimp only
    exact ⟨_, if_neg h⟩
  obtain ⟨u, hu⟩ := hs
  rw [hu]
  refine ⟨?_, State.retune_tuned _⟩
  rw [State.retune_ctl]
  exact State.alert_bit _ (by decide)

theorem State.layerUpdate_eq (s : State) (z : Nat) : ∃ p, s.layerUpdate z = s.onHeat fun h => { h with steps := p } := ⟨_, rfl⟩

theorem State.cycleUpdate_eq (s : State) (n : Nat) :
    ∃ c l, s.cycleUpdate n = (s.onHeat fun h => { h with cycles := c }).onLife fun _ => l := by
  unfold State.cycleUpdate
  dsimp only
  split
  · exact ⟨s.heat.cycles, s.life, rfl⟩
  · split
    · exact ⟨put s.heat.cycles n (s.heat.stackMax n), s.life, rfl⟩
    next low hl =>
      split
      · exact ⟨_, _, rfl⟩
      · exact ⟨put s.heat.cycles n (min low (s.heat.stackMax n)), s.life, rfl⟩

theorem State.steps_tuned {s : State} (h : s.tuned) (p : List (Nat × LayerSteps)) (c : List (Nat × Int)) (l : Life) :
    (((s.onHeat fun h => { h with steps := p }).onHeat fun h => { h with cycles := c }).onLife fun _ => l).tuned := by
  intro cd hcd
  have hc := h cd hcd
  unfold State.wantClk at hc ⊢
  exact hc

/-- Layer steps and thermal cycles leave zones, clocks and alerts as they are. -/
theorem State.layersCycles_keep (s : State) (z n : Nat) :
    (∀ i, ((s.layerUpdate z).cycleUpdate n).heat.zone i = s.heat.zone i) ∧
      ((s.layerUpdate z).cycleUpdate n).ctl = s.ctl ∧ (s.tuned → ((s.layerUpdate z).cycleUpdate n).tuned) := by
  obtain ⟨c, l, hc⟩ := (s.layerUpdate z).cycleUpdate_eq n
  obtain ⟨p, hp⟩ := s.layerUpdate_eq z
  rw [hc, hp]
  exact ⟨fun _ => rfl, rfl, fun h => State.steps_tuned h p c l⟩

theorem State.inletUpdate_high (s : State) : s.inletUpdate.heat.inletHigh =
    (!(s.inletUpdate.heat.chan inletChan).dropped && decide (640 < (s.inletUpdate.heat.chan inletChan).raw)) := by
  unfold State.inletUpdate
  dsimp only
  split
  · rw [State.logEvent_heat]
    rfl
  · rfl

theorem State.packageUpdate_outer (s : State) (m : Nat) : (s.packageUpdate m).heat = s.heat ∧
    (1360 < s.heat.packageReading m → ((s.packageUpdate m).outer m).refreshStep = 1) ∧
    (1520 < s.heat.packageReading m → ((s.packageUpdate m).outer m).derated = true) ∧
    (s.heat.packageReading m ≤ 1488 → ((s.packageUpdate m).outer m).derated = false) := by
  unfold State.packageUpdate
  dsimp only
  rw [State.modOuter_outer]
  refine ⟨rfl, fun h => if_pos (by omega), fun h => if_pos (by omega), fun h => ?_⟩
  exact (if_neg (by omega)).trans (if_pos (by omega))

/-! ### Coolant -/

theorem stackBit_set (v : BitVec 4) {n : Nat} (hn : n < 4) : (v ||| (1#4 <<< n)).getLsbD n = true := by
  simp [hn]

/-- A detected rise, as it stands among the channels. -/
def Heat.stopsStack (h : Heat) (ch n : Nat) : Heat := { h with
  coolant := if h.coolant = .absent then .absent else .stopped
  stacksStopped := h.stacksStopped ||| (1#4 <<< n)
  zones := put h.zones (chanZone ch) { h.zone (chanZone ch) with fastRise := true } }

theorem State.wantClk_stopped (s : State) {cd : Nat} (h : s.heat.stacksStopped.getLsbD (dieOf cd) = true) : s.wantClk cd = .stopped := by
  unfold State.wantClk
  exact if_pos (Or.inr (Or.inr h))

/-- An event in the log, and what `f` makes of the coolant, leave every clock at its setting. -/
theorem State.logEvent_tuned {s : State} (h : s.tuned) (e : Ev) (i : EvInfo) : (s.logEvent e i).tuned := by
  intro cd hcd
  have hc := h cd hcd
  unfold State.wantClk State.cluster at hc ⊢
  simp only [State.logEvent_clusters, State.logEvent_heat, State.logEvent_pwr, State.logEvent_fw, State.logEvent_dev]
  exact hc

theorem State.lowFlow_heat (s : State) : s.lowFlow.heat = { s.heat with coolant := .lowFlow, coolantLimit := some s.heat.flow } :=
  State.logEvent_heat ..

theorem State.lowFlow_tuned {s : State} (h : s.tuned) : s.lowFlow.tuned :=
  State.logEvent_tuned (s := s.onHeat fun k => { k with coolant := .lowFlow, coolantLimit := some k.flow }) h _ _

theorem State.fastRise_stops (s : State) {ch n : Nat} (hs : chanStack ch = some n) (hn : n < 4) (hd : (s.heat.chan ch).dropped = false)
    (hr : s.heat.risesFast ch = true) :
    ∃ t, exec (.fastRise ch) s = .next t ∧ t.heat.stacksStopped.getLsbD n = true ∧
      t.heat.coolant = (if s.heat.coolant = .absent then .absent else .stopped) ∧
      ∀ cd, cd < 512 → dieOf cd = n → (t.cluster cd).goal = .stopped := by
  have hheat : (((s.onHeat fun h => h.stopsStack ch n).logEvent .coolantStop { ut := utSensor, ui := ch }).retune).heat =
      s.heat.stopsStack ch n := by
    rw [State.retune_heat, State.logEvent_heat, State.onHeat_heat]
  have hbit : (s.heat.stopsStack ch n).stacksStopped.getLsbD n = true := stackBit_set _ hn
  refine ⟨((s.onHeat fun h => h.stopsStack ch n).logEvent .coolantStop { ut := utSensor, ui := ch }).retune, ?_, ?_, ?_, fun cd hcd hc => ?_⟩
  · show execFastRise ch s = _
    unfold execFastRise
    rw [hs]
    dsimp only
    rw [hr, hd, if_neg (by decide)]
    rfl
  · rw [hheat]
    exact hbit
  · rw [hheat]
    rfl
  · rw [State.retune_tuned _ cd hcd]
    refine State.wantClk_stopped _ ?_
    rw [hheat, hc]
    exact hbit

theorem State.stackRestart_exec (s : State) {n : Nat} (hb : s.heat.stacksStopped.getLsbD n = true) (ht : 4000 ≤ s.heat.tach)
    (hm : s.heat.stackMax n ≤ 1440) :
    ∃ t, exec (.stackRestart n) s = .next t ∧ t.heat.stacksStopped = s.heat.stacksStopped &&& ~~~(1#4 <<< n) ∧ t.tuned := by
  have hgo : ¬ ((!s.heat.stacksStopped.getLsbD n) = true ∨ s.heat.tach < 4000 ∨ 90 * 16 < s.heat.stackMax n) := by
    rw [hb]
    simp only [Bool.not_true, Bool.false_eq_true, false_or, not_or, Nat.not_lt]
    exact ⟨ht, by omega⟩
  generalize hs1 : (s.onHeat fun h => { h with stacksStopped := s.heat.stacksStopped &&& ~~~(1#4 <<< n) }).retune = s1
  have h1 : s1.heat.stacksStopped = s.heat.stacksStopped &&& ~~~(1#4 <<< n) := by
    rw [← hs1, State.retune_heat]
    rfl
  have ht1 : s1.tuned := hs1 ▸ State.retune_tuned _
  have hlow : s1.lowFlow.heat.stacksStopped = s1.heat.stacksStopped ∧ s1.lowFlow.tuned :=
    ⟨by rw [s1.lowFlow_heat], State.lowFlow_tuned ht1⟩
  show ∃ t, execStackRestart n s = .next t ∧ _
  unfold execStackRestart
  rw [if_neg hgo]
  dsimp only
  rw [hs1]
  split
  · exact ⟨s1, rfl, h1, ht1⟩
  · split
    · exact ⟨_, rfl, h1, ht1⟩
    · split
      · exact ⟨_, rfl, hlow.1.trans h1, hlow.2⟩
      · exact ⟨_, rfl, h1, ht1⟩

/-! ### Flow -/

/-- The tachometer and the heat balance contradict each other, R533. -/
def State.flowJudged (s : State) (hz w : Nat) : Bool :=
  !s.heat.flowSensorFailed && decide (s.flowByTach hz < 2000) && decide (4000 ≤ (s.flowByHeat w).getD 0)

/-- The flow that a computation settles on, R533. -/
def State.flowNow (s : State) (hz w : Nat) : Nat :=
  if (s.heat.chan inletChan).dropped || (s.heat.chan outletChan).dropped then s.flowByTach hz
  else if s.heat.flowSensorFailed || s.flowJudged hz w then (s.flowByHeat w).getD (Config.freeNat s.free)
  else match s.flowByHeat w with
    | some e => min (s.flowByTach hz) e
    | none => s.flowByTach hz

/-- The state with the computed flow, before the coolant's state follows it. -/
def State.flowTaken (s : State) (hz w : Nat) : State :=
  let failed := s.heat.flowSensorFailed || s.flowJudged hz w
  let s0 := if failed && !((s.heat.chan inletChan).dropped || (s.heat.chan outletChan).dropped) && (s.flowByHeat w).isNone then
    s.draw else s
  let good := if s.heat.probing then decide (4000 ≤ (s.flowByHeat w).getD 0) else decide (4000 ≤ s.flowNow hz w)
  let s1 := s0.onHeat fun h => { h with
    flow := s.flowNow hz w, tach := s.flowByTach hz, flowSensorFailed := failed, flowOk := if good then min 10 (h.flowOk + 1) else 0
    coolantLimit := h.coolantLimit.map fun l => if s.flowNow hz w < l then s.flowNow hz w else min (s.flowNow hz w) (l + 10) }
  (if s.flowJudged hz w then s1.logEvent .flowSensor {} else s1).bandUpdate

/-- What becomes of the coolant's state, R534, R537, R538. -/
def State.coolantFollows (u : State) (q w : Nat) : State :=
  match u.heat.coolant with
  | .normal => if q < 4000 then u.lowFlow else u
  | .absent =>
    if u.heat.probing then if w < 1200 then (u.onPwr fun p => { p with capLevel := p.capLevel - 1 }).retune else u
    else if 10 ≤ u.heat.flowOk then u.onHeat fun h => { h with coolant := .normal }
    else u
  | _ => u

theorem State.flowCompute_exec (s : State) (hu : s.fw.powUp = true) (hr : s.fw.powRestart = false) (hz w : Nat) :
    exec (.flowCompute hz w) s = .next ((s.flowTaken hz w).coolantFollows (s.flowNow hz w) w) := by
  have he : exec (.flowCompute hz w) s = match (s.flowTaken hz w).heat.coolant with
      | .normal => .next (if s.flowNow hz w < 4000 then (s.flowTaken hz w).lowFlow else s.flowTaken hz w)
      | .absent =>
        if (s.flowTaken hz w).heat.probing then
          .next (if w < 1200 then ((s.flowTaken hz w).onPwr fun p => { p with capLevel := p.capLevel - 1 }).retune else s.flowTaken hz w)
        else if 10 ≤ (s.flowTaken hz w).heat.flowOk then .next ((s.flowTaken hz w).onHeat fun h => { h with coolant := .normal })
        else .next (s.flowTaken hz w)
      | _ => .next (s.flowTaken hz w) := by
    show execFlowCompute hz w s = _
    unfold execFlowCompute
    rw [hr, hu, if_neg (by decide)]
    rfl
  rw [he]
  unfold State.coolantFollows
  split
  · rfl
  · split
    · rfl
    · split <;> rfl
  · rfl

theorem State.flowTaken_heat (s : State) (hz w : Nat) : (s.flowTaken hz w).heat.tach = s.flowByTach hz ∧
    (s.flowTaken hz w).heat.flow = s.flowNow hz w ∧ (s.flowTaken hz w).heat.coolant = s.heat.coolant := by
  unfold State.flowTaken
  dsimp only [State.bandUpdate]
  rw [State.onLife_heat]
  split <;> split
  all_goals simp only [State.logEvent_heat, State.onHeat_heat, State.draw]
  all_goals exact ⟨trivial, trivial, trivial⟩

theorem State.coolantFollows_heat (u : State) (q w : Nat) : (u.coolantFollows q w).heat.tach = u.heat.tach ∧
    (u.coolantFollows q w).heat.flow = u.heat.flow ∧
    (u.heat.coolant = .normal → (q < 4000 → (u.coolantFollows q w).heat.coolant = .lowFlow ∧
      (u.coolantFollows q w).heat.coolantLimit = some u.heat.flow) ∧ (4000 ≤ q → (u.coolantFollows q w).heat.coolant = .normal)) := by
  unfold State.coolantFollows
  split
  next hc =>
    split
    next hq =>
      rw [u.lowFlow_heat]
      exact ⟨rfl, rfl, fun _ => ⟨fun _ => ⟨rfl, rfl⟩, fun h => absurd hq (by omega)⟩⟩
    next hq => exact ⟨rfl, rfl, fun _ => ⟨fun h => absurd h hq, fun _ => hc⟩⟩
  next hc =>
    refine ⟨?_, ?_, fun h => absurd (hc.symm.trans h) (by decide)⟩
    all_goals
      split
      · split
        · rw [State.retune_heat]
          rfl
        · rfl
      · split <;> rfl
  next hc _ => exact ⟨rfl, rfl, fun h => absurd h hc⟩

theorem State.flowNow_of_agree (s : State) {hz w : Nat} (hf : s.heat.flowSensorFailed = false)
    (ha : ∀ q, s.flowByHeat w = some q → ¬ (s.flowByTach hz < 2000 ∧ 4000 ≤ q)) :
    s.flowNow hz w = (match s.flowByHeat w with | some q => min (s.flowByTach hz) q | none => s.flowByTach hz) := by
  have hj : s.flowJudged hz w = false := by
    unfold State.flowJudged
    rw [hf]
    cases hq : s.flowByHeat w with
    | none => simp
    | some q => simpa using ha q hq
  unfold State.flowNow
  rw [hf, hj]
  by_cases hl : ((s.heat.chan inletChan).dropped || (s.heat.chan outletChan).dropped) = true
  · have hn : s.flowByHeat w = none := by
      unfold State.flowByHeat
      exact if_pos ((Bool.or_eq_true_iff.mp hl).elim .inl fun h => .inr (.inl h))
    rw [if_pos hl, hn]
  · rw [if_neg hl]
    rfl

/-! ### Coolant lost, probed and found again -/

theorem State.coolantAbsent_exec (s : State) (hd : s.dev = .training) (hf : s.heat.flow < 2000) :
    ∃ t, exec .coolantAbsent s = .next t ∧ t.heat.coolant = .absent := by
  show ∃ t, execCoolantAbsent s = .next t ∧ _
  unfold execCoolantAbsent
  by_cases hc : s.heat.coolant = .absent
  · exact ⟨s, if_neg fun h => h.2.2 hc, hc⟩
  · exact ⟨_, if_pos ⟨hd, hf, hc⟩, by rw [State.logEvent_heat]; rfl⟩

theorem State.flowProbe_starts (s : State) (hc : s.heat.coolant = .absent) (hp : s.heat.probing = false)
    (hi : (s.heat.chan inletChan).dropped = false) (ho : (s.heat.chan outletChan).dropped = false) :
    ∃ t, exec (.flowProbe .start) s = .next t ∧ t.heat.probing = true ∧ t.pwr.capLevel = 6 ∧ t.tuned := by
  refine ⟨_, if_neg ?_, ?_, ?_, State.retune_tuned _⟩
  · rw [hc, hp, hi, ho]
    decide
  · rw [State.retune_heat]
    rfl
  · rw [State.retune_pwr]
    rfl

theorem State.flowProbe_finds (s : State) (hp : s.heat.probing = true) (hf : 10 ≤ s.heat.flowOk) :
    ∃ t, exec (.flowProbe .flowFound) s = .next t ∧ t.heat.probing = false ∧ t.heat.coolant = .normal := by
  refine ⟨_, if_neg ?_, ?_, ?_⟩
  · rw [hp]
    simp only [Bool.not_true, Bool.false_eq_true, false_or, Nat.not_lt]
    exact hf
  all_goals
    rw [State.logEvent_heat]
    rfl

/-- A domain that is on, or on its way up, turned down; another as it is. -/
def Cluster.turnedDown (k : Cluster) : Cluster :=
  if k.dom = .on ∨ k.dom = .rampUp then
    { k with dom := .rampDown, ramp := if k.dom = .on then 16 else k.ramp, gateOpen := false, gateClosing := false
             gatePending := false, domPending := true }
  else k

/-- The state with the probe ended, every domain turned down. -/
def State.probeStopped (s : State) : State :=
  { ((s.onHeat fun h => { h with probing := false, flowOk := 0 }).onPwr fun p => { p with capLevel := 0 }) with
    clusters := mapTab s.clusters fun _ k => k.turnedDown }

theorem State.flowProbe_stops (s : State) (hp : s.heat.probing = true) : exec (.flowProbe .stopped) s = .next s.probeStopped.retune := by
  refine (if_neg ?_).trans rfl
  rw [hp]
  decide

theorem State.probeStopped_dom (s : State) {cd : Nat} {k : Cluster} (hk : look s.clusters cd = some k) (hd : k.dom = .on ∨ k.dom = .rampUp) :
    (s.probeStopped.retune.cluster cd).dom = .rampDown := by
  have hc : s.probeStopped.cluster cd = k.turnedDown := by
    have hl : look s.probeStopped.clusters cd = some k.turnedDown := by
      unfold State.probeStopped
      rw [look_mapTab, hk]
      rfl
    unfold State.cluster lookD
    rw [hl]
    rfl
  have ht : k.turnedDown.dom = .rampDown := by
    unfold Cluster.turnedDown
    rw [if_pos hd]
  rw [State.retune_cluster, hc]
  split
  · rw [Cluster.retune_keeps]
    exact ht
  · exact ht

/-! ### Trips and thermal resistance -/

theorem State.logEvent_trips (s : State) (e : Ev) (i : EvInfo) : (s.logEvent e i).life.trips = s.life.trips := by
  rw [((State.Accessed.refl s).logEvent e i).eq]

/-- The trip recorded and counted. -/
def State.tripMarked (s : State) (ch : Nat) : State :=
  (((s.onHeat fun h => { h with tripChannel := ch }).onPwr fun p => { p with
    thermtrip := true, sagRec := p.sagRec.map fun r => { r with trip := true } }).onLife fun l =>
      { l with trips := satAdd 16 l.trips 1, svcTrips := satAdd 16 l.svcTrips 1 }).logEvent .thermalTrip { ut := utSensor, ui := ch }

theorem State.tripMarked_spec (s : State) (ch : Nat) : (s.tripMarked ch).pwr.thermtrip = true ∧ (s.tripMarked ch).heat.tripChannel = ch ∧
    (s.tripMarked ch).life.trips = satAdd 16 s.life.trips 1 ∧ (s.tripMarked ch).dev = s.dev := by
  unfold State.tripMarked
  rw [State.logEvent_pwr, State.logEvent_heat, State.logEvent_dev]
  exact ⟨rfl, rfl, State.logEvent_trips .., rfl⟩

theorem State.thermalTrip_exec (s : State) {ch : Nat} {v : Int} (hv : tripAt ch = some v) (hu : v ≤ s.heat.used ch) (ho : s.dev ≠ .off)
    (ht : s.dev ≠ .tripped) :
    exec (.thermalTrip ch) s = if s.dev = .saving then .next (s.tripMarked ch) else .next { (s.tripMarked ch).powerDown with dev := .tripped } := by
  have hgo : ¬ (s.heat.used ch < v ∨ s.dev = .off ∨ s.dev = .tripped) := fun h => h.elim (fun h => absurd hu (Int.not_le.mpr h)) fun h => h.elim ho ht
  show execThermalTrip ch s = _
  unfold execThermalTrip
  rw [hv]
  dsimp only
  rw [if_neg hgo]
  rfl

theorem State.thermalTrip_spec (s : State) {ch : Nat} {v : Int} (hv : tripAt ch = some v) (hu : v ≤ s.heat.used ch) (ho : s.dev ≠ .off)
    (ht : s.dev ≠ .tripped) : ∃ t, exec (.thermalTrip ch) s = .next t ∧
      t.pwr.thermtrip = true ∧ t.heat.tripChannel = ch ∧ t.life.trips = satAdd 16 s.life.trips 1 ∧
      (s.dev = .saving → t.dev = .saving) ∧ (s.dev ≠ .saving → t.dev = .tripped ∧ t.mem = {} ∧ t.ctl.inProgress = []) := by
  obtain ⟨hp, hc, hl, hd⟩ := s.tripMarked_spec ch
  rw [s.thermalTrip_exec hv hu ho ht]
  by_cases hs : s.dev = .saving
  · rw [if_pos hs]
    exact ⟨_, rfl, hp, hc, hl, fun h => hd.trans h, fun h => absurd hs h⟩
  · rw [if_neg hs]
    exact ⟨_, rfl, hp, hc, hl, fun h => absurd h hs, fun _ => ⟨rfl, rfl, rfl⟩⟩

theorem Rth.store_history (r : Rth) (v hours : Nat) (inlet : Int) (stepW : Nat) :
    (r.store v hours inlet stepW).history.head? = some v ∧ (r.store v hours inlet stepW).count = satAdd 16 r.count 1 :=
  ⟨rfl, rfl⟩

theorem State.rthMeasure_stores (s : State) {n : Nat} (a0 c0 : Int) (p0 : Nat) (a1 c1 : Int) (p1 : Nat) (hd : s.dev = .selftest) (hn : n < 4)
    (hi : 240 ≤ (s.heat.chan inletChan).raw) (hi' : (s.heat.chan inletChan).raw ≤ 640) (hf : 4000 ≤ s.heat.flow) (hp : p0 + 200 ≤ p1)
    (hl : ((List.range 4).any fun q => (s.heat.zone (4 * n + q)).pairLost) = false) :
    ∃ t, exec (.rthMeasure n a0 c0 p0 a1 c1 p1) s = .next t ∧
      (lookD t.heat.rth n {}).history.head? = some (((a1 - c1) - (a0 - c0)) * 10000 / (16 * ((p1 : Int) - p0))).toNat ∧
      (lookD t.heat.rth n {}).count = satAdd 16 (lookD s.heat.rth n {}).count 1 := by
  have hgo : ¬ (s.dev ≠ .selftest ∨ 4 ≤ n) := fun h => h.elim (fun h => h hd) fun h => by omega
  have hin : ¬ ((s.heat.chan inletChan).raw < 15 * 16 ∨ 40 * 16 < (s.heat.chan inletChan).raw ∨ s.heat.flow < 4000 ∨ p1 < p0 + 200 ∨
      ((List.range 4).any fun q => (s.heat.zone (4 * n + q)).pairLost) = true) := by
    rw [hl]
    simp only [Bool.false_eq_true, or_false]
    omega
  show ∃ t, execRthMeasure n a0 c0 p0 a1 c1 p1 s = .next t ∧ _
  unfold execRthMeasure
  rw [if_neg hgo]
  dsimp only
  rw [if_neg hin]
  refine ⟨_, rfl, ?_⟩
  have hk (u : State) (r : Rth) (hu : u.heat.rth = put s.heat.rth n r) : lookD u.heat.rth n {} = r := by
    rw [hu]
    exact lookD_put_same ..
  split
  · rw [hk _ _ (by rw [State.logEvent_heat]; rfl)]
    exact Rth.store_history ..
  · rw [hk _ _ rfl]
    exact Rth.store_history ..

theorem State.rthMeasure_skips (s : State) {n : Nat} (a0 c0 : Int) (p0 : Nat) (a1 c1 : Int) (p1 : Nat) (hd : s.dev = .selftest) (hn : n < 4)
    (h : s.heat.flow < 4000 ∨ p1 < p0 + 200 ∨ ((List.range 4).any fun q => (s.heat.zone (4 * n + q)).pairLost) = true ∨
      (s.heat.chan inletChan).raw < 240 ∨ 640 < (s.heat.chan inletChan).raw) :
    exec (.rthMeasure n a0 c0 p0 a1 c1 p1) s = .next (s.logEvent .rthSkipped { detail := n }) := by
  have hgo : ¬ (s.dev ≠ .selftest ∨ 4 ≤ n) := fun h => h.elim (fun h => h hd) fun h => by omega
  show execRthMeasure n a0 c0 p0 a1 c1 p1 s = _
  unfold execRthMeasure
  rw [if_neg hgo]
  refine if_pos ?_
  rcases h with h | h | h | h | h
  · exact .inr (.inr (.inl h))
  · exact .inr (.inr (.inr (.inl h)))
  · exact .inr (.inr (.inr (.inr h)))
  · exact .inl h
  · exact .inr (.inl h)

/-! ### The obligation -/

theorem State.zoneSample_stack (s : State) (xs : List Sample) {z : Nat} (hz : z < 16) :
    ∃ t, exec (.thermalZoneSample z xs) s = .next t ∧
      (1760 ≤ (t.heat.zone z).reading → (t.heat.zone z).level = 8) ∧
      (1680 ≤ (t.heat.zone z).reading → 7 ≤ (t.heat.zone z).level ∧ (t.heat.zone z).hard = true) ∧
      ((t.heat.zone z).reading < 1680 → (t.heat.zone z).level ≤ (s.heat.zone z).level + 1) ∧
      ((t.heat.zone z).level ≠ (s.heat.zone z).level → t.ctl.alertPending.getLsbD alThermal = true ∧ t.tuned) := by
  rw [s.zoneSample_exec z xs (by omega)]
  dsimp only
  rw [if_pos hz]
  generalize hheld : (s.fw.powRestart || !s.fw.powUp) = held
  obtain ⟨hzone, hctl, htuned⟩ := ((s.sampled z xs).zoneSet z held).layersCycles_keep z (z / 4)
  refine ⟨_, rfl, ?_⟩
  rw [hzone z, hctl, State.zoneSet_zone, ← s.sampled_levels z xs z]
  obtain ⟨h8, h7, h1⟩ := ((s.sampled z xs).heat.zone z).throttle_spec ((s.sampled z xs).heat.zoneReading z) held
  obtain ⟨hl, hh⟩ := (s.sampled z xs).heat.sampleInterval_keeps z
    (((s.sampled z xs).heat.zone z).throttle ((s.sampled z xs).heat.zoneReading z) held)
  have ha : ((s.sampled z xs).zoneAfter z held).reading = (s.sampled z xs).heat.zoneReading z ∧
      ((s.sampled z xs).zoneAfter z held).level =
        (((s.sampled z xs).heat.zone z).throttle ((s.sampled z xs).heat.zoneReading z) held).level ∧
      ((s.sampled z xs).zoneAfter z held).hard =
        (((s.sampled z xs).heat.zone z).throttle ((s.sampled z xs).heat.zoneReading z) held).hard := by
    unfold State.zoneAfter
    rw [if_pos hz]
    exact ⟨rfl, hl, hh⟩
  obtain ⟨hr, hlev, hhard⟩ := ha
  refine ⟨?_, ?_, ?_, fun h => ?_⟩
  · rw [hr, hlev]
    exact h8
  · rw [hr, hlev, hhard]
    exact h7
  · rw [hr, hlev]
    exact h1
  · obtain ⟨hb, ht⟩ := State.zoneSet_changed _ _ _ h
    exact ⟨hb, htuned ht⟩

theorem State.zoneSample_package (s : State) (xs : List Sample) {z : Nat} (hz : 16 ≤ z) (hz' : z < 28) :
    ∃ t, exec (.thermalZoneSample z xs) s = .next t ∧
      (1360 < t.heat.packageReading (z - 16) → (t.outer (z - 16)).refreshStep = 1) ∧
      (1520 < t.heat.packageReading (z - 16) → (t.outer (z - 16)).derated = true) ∧
      (t.heat.packageReading (z - 16) ≤ 1488 → (t.outer (z - 16)).derated = false) := by
  rw [s.zoneSample_exec z xs (by omega)]
  dsimp only
  rw [if_neg (by omega), if_pos hz']
  obtain ⟨hh, hspec⟩ := State.packageUpdate_outer ((s.sampled z xs).zoneSet z (s.fw.powRestart || !s.fw.powUp)) (z - 16)
  refine ⟨_, rfl, ?_⟩
  rw [hh]
  exact hspec

theorem State.zoneSample_inlet (s : State) (xs : List Sample) :
    ∃ t, exec (.thermalZoneSample 28 xs) s = .next t ∧
      t.heat.inletHigh = (!(t.heat.chan inletChan).dropped && decide (640 < (t.heat.chan inletChan).raw)) := by
  rw [s.zoneSample_exec 28 xs (by decide)]
  exact ⟨_, rfl, State.inletUpdate_high _⟩

theorem State.flowCompute_spec (s : State) (hu : s.fw.powUp = true) (hr : s.fw.powRestart = false) (hz w : Nat) :
    ∃ t, exec (.flowCompute hz w) s = .next t ∧ t.heat.tach = s.flowByTach hz ∧
      (s.heat.coolant = .normal → (t.heat.flow < 4000 → t.heat.coolant = .lowFlow ∧ t.heat.coolantLimit = some t.heat.flow) ∧
        (4000 ≤ t.heat.flow → t.heat.coolant = .normal)) ∧ t.heat.flow = s.flowNow hz w := by
  obtain ⟨htach, hflow, hcool⟩ := s.flowTaken_heat hz w
  obtain ⟨ktach, kflow, kcool⟩ := (s.flowTaken hz w).coolantFollows_heat (s.flowNow hz w) w
  refine ⟨_, s.flowCompute_exec hu hr hz w, ktach.trans htach, fun hn => ?_, kflow.trans hflow⟩
  rw [kflow, hflow]
  rw [hflow] at kcool
  exact kcool (hcool.trans hn)

/-- Settles O49: samples by `State.zoneSample_exec`, each other event by its own lemma above. -/
theorem heatThrottlesStopsAndTrips : Obligations.HeatThrottlesStopsAndTrips := by
  unfold Obligations.HeatThrottlesStopsAndTrips
  intro s
  refine ⟨fun z xs => ⟨fun h => if_pos h, fun h => s.zoneSample_stack xs h, fun h h' => s.zoneSample_package xs h h', fun h => ?_⟩,
    fun ch n hs hn hd hr => s.fastRise_stops hs hn hd hr, fun n _ hb ht hm => s.stackRestart_exec hb ht hm,
    fun hu hr hz w => ?_, fun hc hf => if_pos ⟨hc, hf⟩, fun hd hf => s.coolantAbsent_exec hd hf,
    fun hc hp hi ho => s.flowProbe_starts hc hp hi ho, fun hp => ⟨s.flowProbe_finds hp, ?_⟩,
    fun ch v hv hu ho ht => s.thermalTrip_spec hv hu ho ht, fun n a0 c0 p0 a1 c1 p1 hd hn => ?_⟩
  · subst h
    exact s.zoneSample_inlet xs
  · obtain ⟨t, he, htach, hcool, hflow⟩ := s.flowCompute_spec hu hr hz w
    exact ⟨t, he, htach, hcool, fun hf ha => hflow.trans (s.flowNow_of_agree hf ha)⟩
  · refine ⟨_, s.flowProbe_stops hp, ?_, ?_, ?_, fun cd k hk hd => s.probeStopped_dom hk hd⟩
    · rw [State.retune_heat]
      rfl
    · rw [State.retune_pwr]
      rfl
    · rw [State.retune_heat]
      rfl
  · exact ⟨fun hi hi' hf hp hl => s.rthMeasure_stores a0 c0 p0 a1 c1 p1 hd hn hi hi' hf hp hl,
      fun h => s.rthMeasure_skips a0 c0 p0 a1 c1 p1 hd hn h⟩

end Sys2Proof.Machine
end

