-- ==== Sys2Proof/Proofs/Collectives.lean ====
section
/-!
Collectives: the exchange as it is fired, what a member makes of each packet, and its time limits.
-/

namespace Sys2Proof.Machine

/-- What step 0 and the chunks of a member go to. -/
def Coll.sends (c : Coll) : List (Nat × Nat) :=
  let others := (List.range c.members.length).filter (· != c.rank)
  (if others.isEmpty then [] else [(0, c.next)]) ++ others.flatMap fun r => (List.range c.packets).map fun i => (i + 1, r)

theorem State.fireColl_go (s : State) (t : Task) (c : Coll) (ht : t.state = .ready) (hm : s.mayFire t = true)
    (hgo : ∀ r ∈ (List.range c.members.length).filter (· != c.rank),
      s.answerAll (.reduction (s.collDie c)) (s.chunkRanges c r) false = .go) :
    s.fireColl t c = ((c.sends.foldl (fun s x => s.sendChunk c x.2 x.1 false)
        (((s.modTask t.id fun t => { t with state := .running, readyFrom := none }).onWork fun w => { w with
          firingOrder := w.firingOrder ++ [t.id] }).writeJournal t.id)).modColl t.id
          fun k => { k with fired := true, sentUnacked := c.sends }).tryColl t.id := by
  have hread : ((List.range c.members.length).filter (· != c.rank)).any
      (fun r => s.answerAll (.reduction (s.collDie c)) (s.chunkRanges c r) false != .go) = false := by
    rw [List.any_eq_false]
    intro r hr
    rw [hgo r hr]
    decide
  refine if_neg ?_
  rw [hread, ht, hm]
  decide

theorem State.taskFire_coll (s : State) {id : Nat} {t : Task} {c : Coll} (ht : s.task? id = some t) (hc : t.coll = true)
    (hf : (s.work.colls.find? (·.task == id)) = some c) (hn : c.fired = false) : exec (.taskFire id) s = .next (s.fireColl t c) := by
  show execTaskFire id s = _
  unfold execTaskFire
  rw [ht]
  dsimp only
  rw [hc, hf]
  dsimp only
  rw [hn]
  rfl

/-! ### Packets -/

section Packets

variable (s : State) (l : Nat) (p : LPacket)

theorem State.collPackets_unknown (hd : p.dest = s.lys.deviceId) (hn : (s.delivered l p).collOf p = none) :
    exec (.collData l p) s = .next ((s.delivered l p).collAck p 0 stRetry) ∧ exec (.collAck l p) s = .next (s.delivered l p) ∧
      exec (.collAbort l p) s = .next (s.delivered l p) := by
  refine ⟨(if_neg (Classical.not_not.mpr hd)).trans ?_, (if_neg (Classical.not_not.mpr hd)).trans ?_, (if_neg (Classical.not_not.mpr hd)).trans ?_⟩
  all_goals rw [hn]

variable {c : Coll}

/-- What a member that has admitted the collective makes of a chunk or of step 0. -/
theorem State.collData_of_open (hd : p.dest = s.lys.deviceId) (hc : (s.delivered l p).collOf p = some c) (ho : s.collOpen c = true) :
    exec (.collData l p) s =
      (let s1 := (s.delivered l p).collAck p c.rank stOk
      if chunkNo p = 0 then
        if p.rank ≠ c.prev then .next s1
        else if p.data = (collWire c.desc) then .next ((s1.modColl c.task fun c => { c with matched := true }).tryColl c.task)
        else .next ((s1.sendAbort c c.next stBadArg).failColl c.task stBadArg)
      else if c.members.length ≤ p.rank ∨ p.rank = c.rank ∨ c.packets < chunkNo p ∨
          c.received.any fun x => x.1 == chunkNo p && x.2.1 == p.rank then .next s1
      else .next ((s1.modColl c.task fun c => { c with received := c.received ++ [(chunkNo p, p.rank, p.data, (bytesMarked p))] }).tryColl c.task)) := by
  refine (if_neg (Classical.not_not.mpr hd)).trans ?_
  dsimp only
  rw [hc]
  dsimp only
  rw [ho]
  rfl

theorem State.collAck_of_unacked (hd : p.dest = s.lys.deviceId) (hc : (s.delivered l p).collOf p = some c) {r : Nat}
    (hr : c.members.idxOf? p.src = some r) (hu : (chunkNo p, r) ∈ c.sentUnacked) :
    exec (.collAck l p) s = .next (if p.status = stRetry then
      (s.delivered l p).modColl c.task fun c => { c with sentUnacked := c.sentUnacked.erase (chunkNo p, r), early := c.early ++ [(chunkNo p, r)] }
      else ((s.delivered l p).modColl c.task fun c => { c with sentUnacked := c.sentUnacked.erase (chunkNo p, r) }).tryColl c.task) := by
  refine (if_neg (Classical.not_not.mpr hd)).trans ?_
  dsimp only
  rw [hc]
  dsimp only
  rw [hr]
  dsimp only
  rw [if_neg (by rw [List.contains_iff_mem.mpr hu]; decide)]
  exact (apply_ite Host.Outcome.next _ _ _).symm

theorem State.collAbort_of_open (hd : p.dest = s.lys.deviceId) (hc : (s.delivered l p).collOf p = some c) (ha : c.aborted = false)
    (ho : (s.delivered l p).collOpen c = true) :
    exec (.collAbort l p) s = .next (((s.delivered l p).sendAbort c c.next p.status).failColl c.task p.status) := by
  refine (if_neg (Classical.not_not.mpr hd)).trans ?_
  rw [hc]
  dsimp only
  rw [ha, ho, if_neg (by decide)]

end Packets

/-! ### Time limits -/

section Timers

variable (s : State) {id : Nat} {c : Coll}

theorem State.collChunkTimeout_resends (hf : (s.work.colls.find? (·.task == id)) = some c) (ho : s.collOpen c = true) {step rank : Nat}
    (hu : (step, rank) ∈ c.sentUnacked) : exec (.collChunkTimeout id step rank) s = .next (s.sendChunk c rank step true) := by
  show execCollChunkTimeout id step rank s = _
  unfold execCollChunkTimeout
  rw [hf]
  dsimp only
  rw [ho, List.contains_iff_mem.mpr hu]
  rfl

theorem State.earlyChunk_resends (hf : (s.work.colls.find? (·.task == id)) = some c) (ho : s.collOpen c = true) {step rank : Nat}
    (hu : (step, rank) ∈ c.early) : exec (.earlyChunkResend id step rank) s = .next ((s.sendChunk c rank step false).modColl id fun c =>
      { c with early := c.early.erase (step, rank), sentUnacked := c.sentUnacked ++ [(step, rank)] }) := by
  show execEarlyChunkResend id step rank s = _
  unfold execEarlyChunkResend
  rw [hf]
  dsimp only
  rw [ho, List.contains_iff_mem.mpr hu]
  rfl

theorem State.collTimeLimit_ends (hf : (s.work.colls.find? (·.task == id)) = some c) (ho : s.collOpen c = true) (hr : c.fired = true) :
    exec (.collTimeLimit id) s = .next (((List.range c.members.length).foldl (fun s r => s.sendAbort c r stTimeout)
      (s.logEvent .taskTimeout { status := stTimeout, task := id })).failColl id stTimeout) := by
  show execCollTimeLimit id s = _
  unfold execCollTimeLimit
  rw [hf]
  dsimp only
  rw [ho, hr]
  rfl

end Timers

/-- Settles O28: firing, each packet and each timer by its own equation above. -/
theorem collectivesExchangeOnce : Obligations.CollectivesExchangeOnce := by
  unfold Obligations.CollectivesExchangeOnce
  refine ⟨fun id t c s ht hid hc hf hn hr hm => ?_, fun l p s hd => ⟨s.collPackets_unknown l p hd, fun c hc ho => ⟨fun h0 hp => ?_,
    fun h0 hn hr hr' => ?_, fun r hr hu => s.collAck_of_unacked l p hd hc hr hu, fun ha ho' => s.collAbort_of_open l p hd hc ha ho'⟩⟩,
    fun id step rank c s hf ho => ⟨s.collChunkTimeout_resends hf ho, s.earlyChunk_resends hf ho, s.collTimeLimit_ends hf ho⟩⟩
  · intro others sends hgo
    rw [s.taskFire_coll ht hc hf hn, s.fireColl_go t c hr hm hgo, hid]
    rfl
  · rw [s.collData_of_open l p hd hc ho]
    dsimp only
    rw [if_pos h0, if_neg (Classical.not_not.mpr hp)]
    exact (apply_ite Host.Outcome.next _ _ _).symm
  · rw [s.collData_of_open l p hd hc ho]
    dsimp only
    rw [if_neg h0]
    by_cases hk : (c.received.any fun x => x.1 == chunkNo p && x.2.1 == p.rank) = true
    · rw [if_pos (.inr (.inr (.inr hk))), if_pos hk]
    · rw [if_neg hk, if_neg]
      exact fun h => h.elim (by omega) fun h => h.elim hr' fun h => h.elim (by omega) hk

end Sys2Proof.Machine
end

