-- ==== Sys2Proof/Proofs/Firing.lean ====
section
/-!
The firing of a task of waves: what becomes of the tasks, and which bytes the journal's writes may change.
-/

namespace Sys2Proof.Machine

/-! ### Writes of whole outer codewords -/

/-- From the outer packages up, a store that does not leave part of an outer codeword writes its own bytes only. -/
theorem State.writeUnit_byte (s : State) {a : Nat} {bs : List Byte} (p : Bool) (ha : outerBase ≤ a)
    (hw : a < scratchBase → bs.length = unitSize a) {x : Nat} (hx : x < a ∨ a + bs.length ≤ x) :
    (s.writeUnit a bs p).mem.byte x = s.mem.byte x := by
  unfold State.writeUnit
  dsimp only
  split
  next hp =>
    unfold place at hp
    split at hp
    · next hl => simp only [sliceStride, outerBase] at hl ha; omega
    · split at hp
      · cases hp
      · split at hp
        · cases hp
        · split at hp
          · cases hp
          · split at hp <;> cases hp
  next m off hp =>
    have hlt : a < scratchBase := by
      refine Nat.lt_of_not_le fun hge => ?_
      unfold place at hp
      split at hp
      · cases hp
      · split at hp
        · next ho => simp only [outerBase, outerSize, scratchBase] at ho hge; omega
        · split at hp
          · cases hp
          · split at hp
            · cases hp
            · split at hp <;> cases hp
    rw [if_pos (.inl (decide_eq_true (hw hlt)))]
    have ho : (s.overwrite m (unitBase a)).mem = s.mem := by
      unfold State.overwrite
      split <;> rfl
    exact (Mem.byte_write_ne _ a bs hx).trans (congrArg (·.byte x) ho)
  · exact Mem.byte_write_ne _ a bs hx

theorem State.writeUnits_byte (fuel : Nat) : ∀ (s : State) (a : Nat) (bs : List Byte) (ps : List Bool), outerBase ≤ a → a % 32 = 0 →
    (a + bs.length) % 64 = 0 → (a < scratchBase → a % 64 = 0) → ∀ x, (x < a ∨ a + bs.length ≤ x) →
      (s.writeUnits fuel a bs ps).mem.byte x = s.mem.byte x := by
  induction fuel with
  | zero => exact fun _ _ _ _ _ _ _ _ _ _ => rfl
  | succ fuel ih =>
    intro s a bs ps ha h32 h64 hu x hx
    unfold State.writeUnits
    split
    · rfl
    next hne =>
      have hlen : 0 < bs.length := List.length_pos_iff.mpr fun h => hne (h ▸ rfl)
      have hb : unitBase a + unitSize a - a = unitSize a := by
        unfold unitBase unitSize
        split <;> omega
      have hsz : (a < scratchBase ∧ unitSize a = 64 ∧ 64 ≤ bs.length) ∨ (scratchBase ≤ a ∧ unitSize a = 32 ∧ 32 ≤ bs.length) := by
        unfold unitSize
        by_cases hs : a < scratchBase
        · have := hu hs
          exact .inl ⟨hs, if_pos ⟨ha, hs⟩, by omega⟩
        · exact .inr ⟨Nat.not_lt.mp hs, if_neg fun h => hs h.2, by omega⟩
      dsimp only
      rw [hb]
      have hlt : (bs.take (unitSize a)).length = unitSize a := by
        rw [List.length_take]
        omega
      have hld : (bs.drop (unitSize a)).length = bs.length - unitSize a := List.length_drop
      rw [ih _ _ _ _ (by omega) (by omega) (by omega) (fun h => by omega) x (by omega)]
      exact s.writeUnit_byte _ ha (fun _ => hlt) (by omega)

theorem State.writeRange_byte (s : State) {a : Nat} {bs : List Byte} (ps : List Bool) (ha : outerBase ≤ a) (ha' : a % 64 = 0)
    (hb : bs.length = 64) {x : Nat} (hx : x < a ∨ a + 64 ≤ x) : (s.writeRange a bs ps).mem.byte x = s.mem.byte x :=
  State.writeUnits_byte _ s a bs ps ha (by omega) (by omega) (fun _ => ha') x (by omega)

/-! ### The journal -/

theorem Task.journalBytes_length (t : Task) : t.journalBytes.length = 64 := by
  unfold Task.journalBytes
  simp only [List.length_append, leBytes_length]

/-- Address `a` is in no journal entry of task `id` in OM0 and OM6. -/
def State.OutsideEntry (s : State) (id a : Nat) : Prop :=
  ∀ m x, m = 0 ∨ m = 6 → x ∈ s.work.journal → x.2 = id → a < outerAddr m + 64 * x.1 ∨ outerAddr m + 64 * x.1 + 64 ≤ a

theorem State.storeJournal_byte (s : State) {id a : Nat} (h : s.OutsideEntry id a) : (s.storeJournal id).mem.byte a = s.mem.byte a := by
  unfold State.storeJournal
  split
  next t x ht hx =>
    have hin := List.mem_of_find?_eq_some hx
    have hid : x.2 = id := by simpa using List.find?_some hx
    have hone (u : State) (m : Nat) (hm : m = 0 ∨ m = 6) :
        (if (u.outer m).failed then u else u.writeRange (outerAddr m + 64 * x.1) t.journalBytes (List.replicate 64 false)).mem.byte a =
          u.mem.byte a := by
      split
      · rfl
      · refine u.writeRange_byte _ ?_ ?_ t.journalBytes_length (h m x hm hin hid)
        · unfold outerAddr
          omega
        · unfold outerAddr
          simp only [outerBase, outerSize]
          omega
    exact (hone _ 6 (.inr rfl)).trans (hone s 0 (.inl rfl))
  · rfl

theorem State.writeJournal_byte (s : State) {id a : Nat} (h : s.OutsideEntry id a) : (s.writeJournal id).mem.byte a = s.mem.byte a := by
  unfold State.writeJournal
  split
  · rfl
  · exact s.storeJournal_byte h

theorem State.storeJournal_accessed (s : State) (id : Nat) : s.Accessed (s.storeJournal id) := by
  unfold State.storeJournal
  split
  · refine List.foldlRecOn _ _ (State.Accessed.refl s) fun u hu m _ => ?_
    exact .ite hu (hu.trans (u.writeRange_accessed ..))
  · exact .refl s

theorem State.writeJournal_keeps (s : State) (id : Nat) : (s.writeJournal id).work.tasks = s.work.tasks ∧
    (s.writeJournal id).work.firingOrder = s.work.firingOrder ∧ (s.writeJournal id).cores = s.cores ∧
    (s.writeJournal id).clusters = s.clusters := by
  unfold State.writeJournal
  split
  · exact ⟨rfl, rfl, rfl, rfl⟩
  · have h := s.storeJournal_accessed id
    exact ⟨congrArg Work.tasks h.work, congrArg Work.firingOrder h.work, h.cores, h.clusters⟩

/-! ### Firing -/

/-- The task with its first wave opened under `s`. -/
def State.firedTask (s : State) (t : Task) : Task := { s.openWave t with state := .running, readyFrom := none }

theorem State.firedTask_readyFrom (s : State) (t : Task) (r : Option Nat) : s.firedTask { t with readyFrom := r } = s.firedTask t := by
  have he : s.equalFor { t with readyFrom := r } = s.equalFor t := rfl
  unfold State.firedTask State.openWave
  dsimp only
  rw [he]
  by_cases h : (t.cds.filter (s.equalFor t (t.cds.headD 0))).length < 2
  · rw [if_pos h, if_pos h]
    rfl
  · rw [if_neg h, if_neg h]
    rfl

/-- The table of tasks as a firing leaves it: the busy tasks before it passed once more. -/
def State.passedTasks (s : State) (t : Task) : Tab Task :=
  mapTab s.work.tasks fun _ x => if x.id < t.id ∧ x.state = .ready then { x with passed := x.passed + 1 } else x

/-- The state with the earlier tasks passed and the task last in the firing order. -/
def State.passedOver (s : State) (t : Task) : State :=
  s.onWork fun w => { w with tasks := s.passedTasks t, firingOrder := w.firingOrder ++ [t.id] }

/-- The firing before its journal record. -/
def State.firedUp (s : State) (t : Task) : State :=
  (((s.passedOver t).leaveReady t).modTask t.id fun k => s.firedTask k).noteWave t

theorem State.taskFire_wave (s : State) {id : Nat} {t : Task} (ht : s.task? id = some t) (hc : t.coll = false) (hr : t.state = .ready)
    (hm : s.mayFire t = true) (hn : s.takable t ≠ []) : exec (.taskFire id) s = .next ((s.firedUp t).writeJournal t.id) := by
  show execTaskFire id s = _
  unfold execTaskFire
  rw [ht]
  dsimp only
  rw [hc]
  refine congrArg Host.Outcome.next (if_neg ?_)
  rw [hc, hr, hm]
  simpa using hn

theorem State.leaveReady_tasks (s : State) (t : Task) : (s.leaveReady t).work.firingOrder = s.work.firingOrder ∧
    (s.leaveReady t).work.journal = s.work.journal ∧ (s.leaveReady t).mem = s.mem ∧ (s.leaveReady t).cores = s.cores ∧
    (s.leaveReady t).clusters = s.clusters ∧ (∀ j, j ≠ t.id → (s.leaveReady t).task? j = s.task? j) ∧
    ∀ k, s.task? t.id = some k → ∃ r, (s.leaveReady t).task? t.id = some { k with readyFrom := r } := by
  unfold State.leaveReady
  split
  · exact ⟨rfl, rfl, rfl, rfl, rfl, fun _ _ => rfl, fun k hk => ⟨k.readyFrom, hk⟩⟩
  · rw [State.modTask_eq]
    unfold State.task? State.onWork
    dsimp only
    split
    next hn => exact ⟨rfl, rfl, rfl, rfl, rfl, fun _ _ => rfl, fun k hk => absurd (hn.symm.trans hk) nofun⟩
    next k' hk' =>
      refine ⟨rfl, rfl, rfl, rfl, rfl, fun j hj => look_put_ne _ _ hj, fun k hk => ⟨none, ?_⟩⟩
      cases hk'.symm.trans hk
      exact look_put_same ..

theorem State.modTask_keeps (s : State) (id : Nat) (f : Task → Task) : (s.modTask id f).work.firingOrder = s.work.firingOrder ∧
    (s.modTask id f).work.journal = s.work.journal ∧ (s.modTask id f).mem = s.mem ∧ (s.modTask id f).cores = s.cores ∧
    (s.modTask id f).clusters = s.clusters ∧ (∀ j, j ≠ id → (s.modTask id f).task? j = s.task? j) ∧
    ∀ k, s.task? id = some k → (s.modTask id f).task? id = some (f k) := by
  unfold State.modTask State.task?
  split
  next hn => exact ⟨rfl, rfl, rfl, rfl, rfl, fun _ _ => rfl, fun k hk => absurd (hn.symm.trans hk) nofun⟩
  next k' hk' =>
    refine ⟨rfl, rfl, rfl, rfl, rfl, fun j hj => look_put_ne _ _ hj, fun k hk => ?_⟩
    cases hk'.symm.trans hk
    exact look_put_same ..

theorem State.firedUp_spec (s : State) {t : Task} (ht : s.task? t.id = some t) : (s.firedUp t).work.firingOrder = s.work.firingOrder ++ [t.id] ∧
    (s.firedUp t).work.journal = s.work.journal ∧ (s.firedUp t).mem = s.mem ∧ (s.firedUp t).cores = s.cores ∧
    (s.firedUp t).clusters = s.clusters ∧ (s.firedUp t).task? t.id = some (s.firedTask t) ∧
    ∀ j x, j ≠ t.id → s.task? j = some x →
      (s.firedUp t).task? j = some (if x.id < t.id ∧ x.state = .ready then { x with passed := x.passed + 1 } else x) := by
  have hpass (j : Nat) (x : Task) (hx : s.task? j = some x) :
      (s.passedOver t).task? j = some (if x.id < t.id ∧ x.state = .ready then { x with passed := x.passed + 1 } else x) := by
    show look (s.passedTasks t) j = _
    unfold State.passedTasks
    rw [look_mapTab, show look s.work.tasks j = some x from hx]
    rfl
  obtain ⟨l1, l2, l3, l4, l5, lother, lown⟩ := (s.passedOver t).leaveReady_tasks t
  obtain ⟨m1, m2, m3, m4, m5, mother, mown⟩ := ((s.passedOver t).leaveReady t).modTask_keeps t.id fun k => s.firedTask k
  have hown : (s.passedOver t).task? t.id = some t := (hpass t.id t ht).trans (congrArg some (if_neg fun h => Nat.lt_irrefl _ h.1))
  obtain ⟨r, hr⟩ := lown t hown
  refine ⟨m1.trans l1, m2.trans l2, m3.trans l3, m4.trans l4, m5.trans l5, ?_, fun j x hj hx => ?_⟩
  · exact (mown _ hr).trans (congrArg some (s.firedTask_readyFrom t r))
  · exact ((mother j hj).trans (lother j hj)).trans (hpass j x hx)

/-- Settles O23: the firing by `State.firedUp_spec`, then the journal's record. -/
theorem taskFiresFirstWave : Obligations.TaskFiresFirstWave := by
  unfold Obligations.TaskFiresFirstWave
  intro id t s ht hid hc hr hm hn
  subst hid
  obtain ⟨f1, f2, f3, f4, f5, fown, fother⟩ := s.firedUp_spec ht
  obtain ⟨j1, j2, j3, j4⟩ := (s.firedUp t).writeJournal_keeps t.id
  have htask (j : Nat) : ((s.firedUp t).writeJournal t.id).task? j = (s.firedUp t).task? j := congrArg (look · j) j1
  refine ⟨_, s.taskFire_wave ht hc hr hm hn, (htask _).trans fown, j2.trans f1, j3.trans f4, j4.trans f5, fun a ha => ?_, fun j x hj hx =>
    (htask j).trans (fother j x hj hx)⟩
  have hout : (s.firedUp t).OutsideEntry t.id a := by
    unfold State.OutsideEntry
    rw [f2]
    exact ha
  rw [State.writeJournal_byte _ hout, f3]

end Sys2Proof.Machine
end

