-- ==== Sys2Proof/Proofs/TasksAndShards.lean ====
section
/-!
The end of a task at its time limit, the act of a COMMIT, shadow copies, and shards that move or are copied.
-/

namespace Sys2Proof.Machine

/-! ### A task that ends, through the settling of the others -/

/-- Task `i` stands in `t` as in `s`, but for the time from which it was READY. -/
def State.KeepsTask (i : Nat) (s t : State) : Prop := ∀ k, s.task? i = some k → ∃ r, t.task? i = some { k with readyFrom := r }

namespace State.KeepsTask

variable {i : Nat} {s t u : State}

theorem refl (s : State) : s.KeepsTask i s := fun k hk => ⟨k.readyFrom, hk⟩

theorem trans (h₁ : s.KeepsTask i t) (h₂ : t.KeepsTask i u) : s.KeepsTask i u := fun k hk => by
  obtain ⟨_, hr⟩ := h₁ k hk
  obtain ⟨q, hq⟩ := h₂ _ hr
  exact ⟨q, hq⟩

theorem ofTasks (h : s.KeepsTask i t) (ht : u.work.tasks = t.work.tasks) : s.KeepsTask i u := fun k hk => by
  obtain ⟨r, hr⟩ := h k hk
  exact ⟨r, (congrArg (look · i) ht).trans hr⟩

theorem modOther (h : s.KeepsTask i t) {j : Nat} (hj : j ≠ i) (f : Task → Task) : s.KeepsTask i (t.modTask j f) := fun k hk => by
  obtain ⟨r, hr⟩ := h k hk
  obtain ⟨-, -, -, -, -, ho, -⟩ := t.modTask_keeps j f
  exact ⟨r, (ho i hj.symm).trans hr⟩

theorem unready (h : s.KeepsTask i t) (j : Nat) : s.KeepsTask i (t.modTask j fun k => { k with readyFrom := none }) := fun k hk => by
  obtain ⟨r, hr⟩ := h k hk
  obtain ⟨-, -, -, -, -, ho, hown⟩ := t.modTask_keeps j fun k => { k with readyFrom := none }
  by_cases hj : i = j
  · subst hj
    have ho := hown _ hr
    exact ⟨none, ho⟩
  · exact ⟨r, (ho i hj).trans hr⟩

theorem leaveReady (h : s.KeepsTask i t) (k : Task) : s.KeepsTask i (t.leaveReady k) := by
  unfold State.leaveReady
  split
  · exact h
  · refine .unready (t := t.onWork _) ?_ _
    exact h.ofTasks rfl

theorem ite {p : Prop} [Decidable p] (h₁ : s.KeepsTask i t) (h₂ : s.KeepsTask i u) : s.KeepsTask i (if p then t else u) := by
  split <;> assumption

theorem foldl {α : Type} {f : State → α → State} {l : List α} (hf : ∀ x a, s.KeepsTask i x → s.KeepsTask i (f x a)) (h : s.KeepsTask i t) :
    s.KeepsTask i (l.foldl f t) := by
  induction l generalizing t with
  | nil => exact h
  | cons a l ih => exact ih (hf t a h)

theorem writeJournal (h : s.KeepsTask i t) (j : Nat) : s.KeepsTask i (t.writeJournal j) := h.ofTasks (t.writeJournal_keeps j).1

theorem setOutputs (h : s.KeepsTask i t) (k : Task) (st : RState) : s.KeepsTask i (t.setOutputs k st) :=
  .foldl (fun _ _ hx => hx.ofTasks rfl) h

end State.KeepsTask

theorem State.modContext_tasks (s : State) (id : Nat) (f : Context → Context) : (s.modContext id f).work.tasks = s.work.tasks := by
  unfold State.modContext
  split <;> rfl

theorem State.appendCtx_tasks {s : State} {id n : Nat} {scale : Option Nat} {x : State} (hx : s.appendCtx id n scale = some x) :
    x.work.tasks = s.work.tasks := by
  obtain rfl | ⟨y, f, h₁, h₂⟩ := State.appendCtx_split hx
  · rfl
  · exact h₂.tasks.trans ((y.modContext_tasks id f).trans h₁.tasks)

theorem State.shadowAppend_tasks {s : State} {id e n : Nat} {scale : Option Nat} {x : State} (hx : s.shadowAppend id e n scale = some x) :
    x.work.tasks = s.work.tasks := by
  obtain rfl | ⟨y, f, h₁, h₂⟩ := State.shadowAppend_split hx
  · rfl
  · exact h₂.tasks.trans ((y.modContext_tasks id f).trans h₁.tasks)

/-- A task in its final state. -/
def Task.endedAs (t : Task) (st : TState) (status now : Nat) : Task :=
  { t with state := st, status := status, endTime := now, waves := [], appends := [] }

/-- The workspace of a task freed. -/
def Work.freed (w : Work) (id : Nat) : Work := ({ w with placed := w.placed.filter fun p => p.handle.inst != workInst id } : Work).sweep

theorem Work.freed_tasks (w : Work) (id : Nat) : (w.freed id).tasks = w.tasks := rfl

/-- The end of a task before its outputs follow: its entry, its workspace freed, its journal record. -/
def State.ended (s : State) (id : Nat) (t : Task) (st : TState) (status : Nat) : State :=
  (((s.leaveReady t).modTask id fun t => t.endedAs st status s.now).onWork fun w => w.freed id).writeJournal id

theorem State.ended_tasks (s : State) (id : Nat) (t : Task) (st : TState) (status : Nat) :
    (s.ended id t st status).work.tasks = ((s.leaveReady t).modTask id fun t => t.endedAs st status s.now).work.tasks :=
  (State.writeJournal_keeps _ id).1.trans (Work.freed_tasks _ id)

theorem State.finishTask_none {s : State} {id : Nat} (h : s.task? id = none) {st : TState} {status : Nat} : s.finishTask id st status = s := by
  unfold State.finishTask
  rw [h]

theorem State.finishTask_cases {s : State} {id : Nat} {t : Task} (h : s.task? id = some t) (st : TState) (status : Nat) :
    s.finishTask id st status = s.ended id t st status ∨ ∃ x, s.finishTask id st status = (s.ended id t st status).setOutputs t x := by
  have ho (st' : RState) {u : State} (hu : u = if t.desc.epoch = 0 then (s.ended id t st status).setOutputs t st' else s.ended id t st status) :
      u = s.ended id t st status ∨ ∃ x, u = (s.ended id t st status).setOutputs t x := by
    by_cases h0 : t.desc.epoch = 0
    · exact .inr ⟨st', hu.trans (if_pos h0)⟩
    · exact .inl (hu.trans (if_neg h0))
  unfold State.finishTask
  rw [h]
  cases st with
  | done => exact .inr ⟨.ready, rfl⟩
  | partialEnd => exact ho .broken rfl
  | failed => exact ho .broken rfl
  | cancelled => exact ho .broken rfl
  | _ => exact .inl rfl

namespace State.KeepsTask

variable {i j : Nat} {s t : State}

theorem prepareTask (h : s.KeepsTask i t) (hj : j ≠ i) : s.KeepsTask i (t.prepareTask j) := by
  unfold State.prepareTask
  split
  · exact h
  · refine .foldl (fun x a hx => ?_) h
    split
    · exact hx
    next y hy =>
      refine .modOther ?_ hj _
      split at hy
      · obtain ⟨z, hz, rfl⟩ := Option.map_eq_some_iff.mp hy
        exact hx.ofTasks ((z.modContext_tasks _ _).trans (State.appendCtx_tasks hz))
      · exact hx.ofTasks (State.shadowAppend_tasks hy)

theorem ended (h : s.KeepsTask i t) (hj : j ≠ i) (k : Task) (st : TState) (status : Nat) : s.KeepsTask i (t.ended j k st status) :=
  ((h.leaveReady k).modOther hj _).ofTasks (t.ended_tasks j k st status)

theorem finishTask (h : s.KeepsTask i t) (hj : j ≠ i) (st : TState) (status : Nat) : s.KeepsTask i (t.finishTask j st status) := by
  cases hk : t.task? j with
  | none =>
    rw [State.finishTask_none hk]
    exact h
  | some k =>
    obtain he | ⟨x, he⟩ := State.finishTask_cases hk st status
    · rw [he]
      exact h.ended hj k st status
    · rw [he]
      exact (h.ended hj k st status).setOutputs k x

theorem settleOther (h : s.KeepsTask i t) (hj : j ≠ i) : s.KeepsTask i (t.settleTask j) := by
  have h1 := h.prepareTask hj
  unfold State.settleTask
  split
  · exact h
  split
  case h_4 => exact h
  all_goals
    refine .ite (h.finishTask hj _ _) ?_
    dsimp only
    split
    · exact h1
    · exact .ite (.ite (h1.modOther hj _) ((h1.leaveReady _).modOther hj _))
        (.writeJournal (.ite (h1.modOther hj _) ((h1.leaveReady _).modOther hj _)) j)

end State.KeepsTask

theorem State.settleTask_final {s : State} {i : Nat} {k : Task} (hk : s.task? i = some k) (hf : k.state.final = true) : s.settleTask i = s := by
  unfold State.settleTask
  rw [hk]
  dsimp only
  split
  case h_4 => rfl
  all_goals
    next hs =>
      rw [hs] at hf
      exact absurd hf (by decide)

/-- Settling leaves a task that has ended as it is. -/
theorem State.settle_keepsFinal {s : State} {i : Nat} {k : Task} (hk : s.task? i = some k) (hf : k.state.final = true) : s.KeepsTask i s.settle := by
  unfold State.settle
  refine .foldl (fun x j hx => ?_) (.refl s)
  by_cases hj : j = i
  · subst hj
    obtain ⟨r, hr⟩ := hx k hk
    rw [State.settleTask_final hr hf]
    exact hx
  · exact hx.settleOther hj

theorem State.finishTask_task {s : State} {id : Nat} {t : Task} (ht : s.task? id = some t) (st : TState) (status : Nat) :
    ∃ r, (s.finishTask id st status).task? id =
      some { t.endedAs st status s.now with readyFrom := r } := by
  obtain ⟨r, hr⟩ := (State.KeepsTask.refl s).leaveReady (i := id) t t ht
  obtain ⟨-, -, -, -, -, -, hown⟩ := (s.leaveReady t).modTask_keeps id fun t => t.endedAs st status s.now
  have h2 : (s.ended id t st status).task? id = some { t.endedAs st status s.now with readyFrom := r } :=
    (congrArg (look · id) (s.ended_tasks id t st status)).trans (hown _ hr)
  obtain he | ⟨x, he⟩ := State.finishTask_cases ht st status
  · rw [he]
    exact ⟨r, h2⟩
  · rw [he]
    obtain ⟨q, hq⟩ := (State.KeepsTask.refl (s.ended id t st status)).setOutputs t x _ h2
    exact ⟨q, hq⟩

/-! ### The time limit -/

section Waveless

variable {s u : State} {i : Nat} {t : Task}

theorem State.KeepsTask.clusterDone (h : s.KeepsTask i u) (ht : s.task? i = some t) (hw : t.waves = []) (cd : Nat) :
    s.KeepsTask i (u.clusterDone cd) := by
  unfold State.clusterDone
  split
  · exact h
  next j num _ =>
    split
    · exact h
    next w hf =>
      have hj : j ≠ i := by
        rintro rfl
        obtain ⟨r, hr⟩ := h t ht
        rw [hr, Option.bind_some] at hf
        rw [hw] at hf
        cases hf
      refine .ite ?_ h
      exact .ofTasks (.modOther (t := u.modCluster cd _) (h.ofTasks rfl) hj _) rfl

theorem State.KeepsTask.stopCluster (h : s.KeepsTask i u) (ht : s.task? i = some t) (hw : t.waves = []) (cd status : Nat) :
    s.KeepsTask i (u.stopCluster cd status) := by
  unfold State.stopCluster
  split
  · exact h
  · split
    · exact h
    · refine .clusterDone (.foldl (fun x c hx => ?_) h) ht hw cd
      exact .ite hx (hx.ofTasks rfl)

/-- A task without a wave has nothing to stop. -/
theorem State.KeepsTask.stopTask (h : s.KeepsTask i u) (ht : s.task? i = some t) (hw : t.waves = []) (status : Nat) :
    s.KeepsTask i (u.stopTask i status) := by
  have h1 : s.KeepsTask i ((u.runningOn i).foldl (fun s cd => s.stopCluster cd status) u) :=
    .foldl (fun x cd hx => hx.stopCluster ht hw cd status) h
  obtain ⟨r, hr⟩ := h1 t ht
  unfold State.stopTask State.failShares
  rw [hr]
  dsimp only
  rw [hw]
  exact h1

end Waveless

/-- A timed-out task without a wave ends PARTIAL or FAILED with TIMEOUT. -/
theorem State.endIfDone_timedOut {s : State} {id : Nat} {t : Task} (ht : s.task? id = some t) (hr : t.state = .running) (he : t.desc.epoch = 0)
    (hw : t.waves = []) (ho : t.timedOut = true) (hs : t.stopping = true) :
    ∃ t', (s.endIfDone id).task? id = some t' ∧ t'.timedOut = true ∧ t'.stopping = true ∧ t'.status = stTimeout ∧
      t'.state = (if 0 < t.doneCount then .partialEnd else .failed) := by
  have hst : (if 0 < t.doneCount ∨ (t.cancelled = true ∧ t.partsFailed = 0 ∧ (!t.timedOut) = true) then TState.partialEnd else .failed) =
      if 0 < t.doneCount then .partialEnd else .failed := by
    rw [ho]
    simp
  have hend : s.endIfDone id = (s.finishTask id (if 0 < t.doneCount then .partialEnd else .failed) stTimeout).settle := by
    unfold State.endIfDone
    rw [ht]
    dsimp only
    rw [hst, hr, hw, ho, he]
    simp
  have hfin : (if 0 < t.doneCount then TState.partialEnd else .failed).final = true := by
    split <;> rfl
  obtain ⟨r, hk⟩ := State.finishTask_task ht (if 0 < t.doneCount then .partialEnd else .failed) stTimeout
  obtain ⟨q, hq⟩ := State.settle_keepsFinal hk hfin _ hk
  exact ⟨_, (congrArg (State.task? · id) hend).trans hq, ho, hs, rfl, rfl⟩

theorem State.taskTimeLimit_ends {s : State} {id : Nat} {t : Task} (ht : s.task? id = some t) (hr : t.state = .running)
    (he : t.desc.epoch = 0) (hw : t.waves = []) :
    ∃ u t', exec (.taskTimeLimit id) s = .next u ∧ u.task? id = some t' ∧ t'.timedOut = true ∧ t'.stopping = true ∧
      t'.status = stTimeout ∧ t'.state = (if 0 < t.doneCount then .partialEnd else .failed) := by
  generalize hu : (s.logEvent .taskTimeout { status := stTimeout, task := id }) = u
  have hut : u.task? id = some t := by
    rw [← hu]
    unfold State.task?
    rw [State.logEvent_work]
    exact ht
  obtain ⟨-, -, -, -, -, -, hown⟩ := u.modTask_keeps id fun t => { t with
    stopping := true, timedOut := true, errorRef := if t.errorRef = 0xFFFFFFFF then s.log.next else t.errorRef }
  have hv := hown t hut
  have hex : exec (.taskTimeLimit id) s = .next (((u.modTask id fun t => { t with
      stopping := true, timedOut := true, errorRef := if t.errorRef = 0xFFFFFFFF then s.log.next else t.errorRef }).stopTask id stTimeout).endIfDone
        id) := by
    show execTaskTimeLimit id s = _
    unfold execTaskTimeLimit
    rw [ht]
    dsimp only
    rw [if_neg (Classical.not_not.mpr hr), if_pos he, hu]
  generalize (u.modTask id fun t => { t with
    stopping := true, timedOut := true, errorRef := if t.errorRef = 0xFFFFFFFF then s.log.next else t.errorRef }) = v at hv hex
  obtain ⟨r, hk⟩ := (State.KeepsTask.refl v).stopTask hv hw stTimeout _ hv
  obtain ⟨t', ht', h1, h2, h3, h4⟩ := State.endIfDone_timedOut hk hr he hw rfl rfl
  exact ⟨_, t', hex, ht', h1, h2, h3, h4⟩

/-! ### Shadow copies and COMMIT -/

theorem State.shadowCopies {s : State} {id : Nat} {t : Task} (ht : s.task? id = some t) (he : t.desc.epoch ≠ 0)
    (hx : ∀ x ∈ s.work.shadows, x.size ≠ 0 ∧ s.homePending x = false) :
    exec (.shadowCopyDone id) s = .next (((s.work.shadows.filter fun x =>
      x.epoch == t.desc.epoch && t.outputs.any (·.handle = x.handle) && !x.copied).foldl (fun s x =>
      (s.copyData x.home x.page x.size 0).onWork fun w => { w with shadows := w.shadows.map fun y =>
        if y = x then { y with copied := true } else y }) s).settle) := by
  have hnone : (s.work.shadows.filter fun x =>
      (x.epoch == t.desc.epoch && t.outputs.any (·.handle = x.handle) && !x.copied) && x.size == 0) = [] := by
    refine List.filter_eq_nil_iff.mpr fun x hxs h => (hx x hxs).1 ?_
    simpa using (Bool.and_eq_true_iff.mp h).2
  have hall : (s.work.shadows.filter fun x =>
      (x.epoch == t.desc.epoch && t.outputs.any (·.handle = x.handle) && !x.copied) && x.size != 0 && !s.homePending x) =
      s.work.shadows.filter fun x => x.epoch == t.desc.epoch && t.outputs.any (·.handle = x.handle) && !x.copied := by
    refine List.filter_congr fun x hxs => ?_
    obtain ⟨h1, h2⟩ := hx x hxs
    rw [h2, bne_iff_ne.mpr h1, Bool.and_true, Bool.not_false, Bool.and_true]
  show execShadowCopyDone id s = _
  unfold execShadowCopyDone
  rw [ht]
  dsimp only
  rw [if_neg he, hnone]
  dsimp only [List.foldl_nil]
  rw [hall]

theorem State.commitAct_acts {s : State} {e : Nat} {x : Epoch} {entries : List CommitEntry} {h : CmdHdr} (hx : look s.work.epochs e = some x)
    (hc : x.commit = some (entries, h)) :
    exec (.commitAct e) s = .next (if x.doomed then s.discardEpoch e stDenied
      else if s.commitReady e x.commitGens then (s.commitAct e entries x.commitGens).respond h 0x0505 stOk true 0 [] else s) := by
  show execCommitAct e s = _
  unfold execCommitAct
  rw [hx]
  dsimp only
  rw [hc]
  dsimp only
  cases x.doomed with
  | true => rfl
  | false => cases s.commitReady e x.commitGens <;> rfl

/-! ### What a copy leaves in memory -/

theorem above_notMem {k : Nat} {l : List Host.Cell} (h : above k l) : k ∉ keys l := fun hk => by
  obtain ⟨p, hp, rfl⟩ := List.mem_map.mp hk
  exact Nat.lt_irrefl _ (h p hp)

/-- Bytes set one by one at moved addresses: each reads as its entry, and every other byte as before. -/
theorem Mem.byte_setMoved {m : Mem} (hm : m.wf = true) {src dst i : Nat} {cs : List Host.Cell} (hcs : cellsWf cs = true)
    (hlo : ∀ p ∈ cs, src ≤ p.1) :
    (cs.foldl (fun m p => m.setByte (p.1 - src + dst) p.2) m).byte (dst + i) = (look cs (src + i)).getD (m.byte (dst + i)) := by
  induction cs generalizing m with
  | nil => rfl
  | cons p cs ih =>
    obtain ⟨-, hab, hcs'⟩ := cellsWf_cons.mp hcs
    have hp := hlo p List.mem_cons_self
    have ht := ih (Mem.setByte_wf hm (p.1 - src + dst) p.2) hcs' fun q hq => hlo q (List.mem_cons_of_mem _ hq)
    refine ht.trans ?_
    by_cases hi : src + i = p.1
    · have hl : look (p :: cs) (src + i) = some p.2 := if_pos hi
      rw [hl, hi, look_eq_none_of_notMem (above_notMem hab), ← hi, Nat.add_sub_cancel_left, Nat.add_comm i dst]
      exact Mem.byte_setByte_same hm _ _
    · have hl : look (p :: cs) (src + i) = look cs (src + i) := if_neg hi
      rw [hl, Mem.byte_setByte_ne m p.2 (by omega)]

theorem Mem.setMarks_byte (m : Mem) (a len : Nat) (on : Bool) (x : Nat) : (m.setMarks a len on).byte x = m.byte x := by
  unfold Mem.setMarks
  generalize unitsOf a len = l
  induction l generalizing m with
  | nil => rfl
  | cons u l ih => exact ih _

theorem Mem.raiseInstars_byte (m : Mem) (a n k x : Nat) : (m.raiseInstars a n k).byte x = m.byte x := by
  unfold Mem.raiseInstars
  dsimp only
  split
  · rfl
  · generalize List.range _ = l
    induction l generalizing m with
    | nil => rfl
    | cons u l ih => exact (ih _).trans rfl

theorem Mem.copyTo_byte {m : Mem} (hm : m.wf = true) {src dst n i : Nat} (hi : i < n) (k : Nat) :
    (m.copyTo src dst n k).byte (dst + i) = m.byte (src + i) := by
  have hmarks (l : List Nat) (v : Mem) :
      (l.foldl (fun m u => m.setMarks (u - src + dst) (unitSize src) true) v).byte (dst + i) = v.byte (dst + i) := by
    induction l generalizing v with
    | nil => rfl
    | cons u l ih => exact (ih _).trans (v.setMarks_byte _ _ _ _)
  unfold Mem.copyTo Mem.copy
  dsimp only
  rw [Mem.raiseInstars_byte, hmarks, Mem.byte_setMoved (Mem.clear_wf hm _ _) (cellsWf_filter _ hm) (fun p hp => by
    have hf := (List.mem_filter.mp hp).2
    exact of_decide_eq_true (Bool.and_eq_true_iff.mp hf).1), Mem.byte_clear, if_neg (by omega),
    look_filter m.cells fun x => decide (src ≤ x) && decide (x < src + n)]
  rw [if_pos (by simp [hi])]
  rfl

theorem Mem.setMarks_instars (m : Mem) (a len : Nat) (on : Bool) : (m.setMarks a len on).instars = m.instars := by
  unfold Mem.setMarks
  generalize unitsOf a len = l
  induction l generalizing m with
  | nil => rfl
  | cons u l ih => exact (ih _).trans rfl

theorem Mem.copy_instars (m : Mem) (src dst n : Nat) : (m.copy src dst n).instars = m.instars := by
  have hmarks (l : List Nat) (v : Mem) : (l.foldl (fun m u => m.setMarks (u - src + dst) (unitSize src) true) v).instars = v.instars := by
    induction l generalizing v with
    | nil => rfl
    | cons u l ih => exact (ih _).trans (v.setMarks_instars _ _ _)
  have hbytes (cs : List Host.Cell) (v : Mem) : (cs.foldl (fun m p => m.setByte (p.1 - src + dst) p.2) v).instars = v.instars := by
    induction cs generalizing v with
    | nil => rfl
    | cons p cs ih => exact (ih _).trans rfl
  unfold Mem.copy
  dsimp only
  rw [hmarks, hbytes]
  rfl

theorem lookD_putD_ne {α : Type} [DecidableEq α] (t : Tab α) {i j : Nat} (v d : α) (h : j ≠ i) : lookD (putD t i v d) j d = lookD t j d := by
  unfold putD
  split
  · rw [lookD, look_del_ne t h]
    rfl
  · exact lookD_put_ne t v d h

theorem pageBase_pageBase (a : Nat) : pageBase (pageBase a) = pageBase a := by
  have hs : pageSize (pageBase a) = pageSize a := by
    unfold pageSize
    by_cases h : a < outerBase
    · rw [if_pos h, if_pos (Nat.lt_of_le_of_lt (pageBase_le a) h)]
    · rw [if_neg h, if_neg (Nat.not_lt.mpr (outerBase_le_pageBase (Nat.not_lt.mp h)))]
  show pageBase a / pageSize (pageBase a) * pageSize (pageBase a) = pageBase a
  rw [hs]
  exact Nat.div_mul_cancel (Nat.dvd_mul_left ..)

/-- The instar of page `b` raised by `k`. -/
def Mem.raised (m : Mem) (b k : Nat) : Mem := { m with instars := putD m.instars b (m.instar b + BitVec.ofNat 32 k) 0 }

theorem Mem.foldl_raised_other {a : Nat} {l : List Nat} {f g : Nat → Nat} (hf : ∀ i ∈ l, pageBase a ≠ f i) (m : Mem) :
    (l.foldl (fun m i => m.raised (f i) (g i)) m).instar a = m.instar a := by
  induction l generalizing m with
  | nil => rfl
  | cons i l ih =>
    refine (ih (fun j hj => hf j (List.mem_cons_of_mem _ hj)) _).trans ?_
    exact lookD_putD_ne _ _ _ (hf i List.mem_cons_self)

/-- The first page of a written range: its instar rises by its codewords, and by `k`. -/
theorem Mem.raiseInstars_first {m : Mem} (hm : (keys m.instars).Pairwise (· < ·)) {a n : Nat} (hn : n ≠ 0) (k : Nat) :
    (m.raiseInstars a n k).instar a = m.instar a + BitVec.ofNat 32
      ((min (a + n) (pageBase a + pageSize a) - 1) / unitSize a - a / unitSize a + 1 + k) := by
  have hu : 0 < pageSize a := by
    unfold pageSize
    split <;> decide
  have hcount : (a + n - 1) / pageSize a + 1 - a / pageSize a = (a + n - 1) / pageSize a - a / pageSize a + 1 := by
    have := Nat.div_le_div_right (c := pageSize a) (show a ≤ a + n - 1 by omega)
    omega
  have hfold (v : Mem) : v.raiseInstars a n k = (List.range ((a + n - 1) / pageSize a - a / pageSize a + 1)).foldl (fun m i =>
      m.raised ((a / pageSize a + i) * pageSize a) ((min (a + n) ((a / pageSize a + i) * pageSize a + pageSize a) - 1) / unitSize a -
        max a ((a / pageSize a + i) * pageSize a) / unitSize a + 1 + k)) v := by
    unfold Mem.raiseInstars
    dsimp only
    rw [if_neg hn, hcount]
    rfl
  rw [hfold, List.range_succ_eq_map, List.foldl_cons, Mem.foldl_raised_other fun i hi => ?_]
  · have hb : (a / pageSize a + 0) * pageSize a = pageBase a := rfl
    rw [hb, Nat.max_eq_left (pageBase_le a)]
    unfold Mem.raised Mem.instar
    dsimp only
    rw [pageBase_pageBase]
    exact lookD_putD_of_nodup (hm.imp Nat.ne_of_lt) _ _ _
  · obtain ⟨j, -, rfl⟩ := List.mem_map.mp hi
    have hlt : a / pageSize a * pageSize a < (a / pageSize a + j.succ) * pageSize a :=
      Nat.mul_lt_mul_of_pos_right (by omega) hu
    exact Nat.ne_of_lt hlt

/-! ### Shards that move, and replicas -/

theorem State.visit_clean {s : State} {a n : Nat} (h : s.mem.flipUnits a n = []) : s.visit a n = s := by
  unfold State.visit
  rw [h]
  rfl

theorem State.relocate_spec {s : State} {p : Placed} {a : Nat} (hm : s.MemOk) (hi : (keys s.mem.instars).Pairwise (· < ·))
    (him : s.inImage p.addr = false) (hf : s.mem.flipUnits p.addr p.bytes = [])
    (hkv : ∀ x ∈ s.work.kvPages, x.1 < p.addr ∨ p.addr + p.bytes ≤ x.1) (hd : p.addr + p.bytes ≤ a ∨ a + p.bytes ≤ p.addr) :
    (∀ i, i < p.bytes → (s.relocate p a).mem.byte (a + i) = s.mem.byte (p.addr + i) ∧ (s.relocate p a).mem.byte (p.addr + i) = 0) ∧
      (p.bytes ≠ 0 → (s.relocate p a).mem.instar a = s.mem.instar a + BitVec.ofNat 32
        ((min (a + p.bytes) (pageBase a + pageSize a) - 1) / unitSize a - a / unitSize a + 2)) ∧
      (s.relocate p a).work.placed = s.work.placed.map fun q => if q = p then { q with addr := a } else q := by
  have hmine : ((keys s.work.kvPages).filter fun a => decide (p.addr ≤ a) && decide (a < p.addr + p.bytes)) = [] := by
    refine List.filter_eq_nil_iff.mpr fun x hx h => ?_
    obtain ⟨y, hy, rfl⟩ := List.mem_map.mp hx
    obtain ⟨h1, h2⟩ := Bool.and_eq_true_iff.mp h
    have h1 := of_decide_eq_true h1
    have h2 := of_decide_eq_true h2
    have := hkv y hy
    omega
  have hr : s.relocate p a = (s.onMem fun m => (m.copyTo p.addr a p.bytes 1).clear p.addr (p.addr + p.bytes)).onWork fun w => { w with
      placed := w.placed.map fun q => if q = p then { q with addr := a } else q } := by
    unfold State.relocate State.copyData
    rw [State.visit_clean hf, him]
    dsimp only
    rw [hmine]
    rfl
  rw [hr]
  refine ⟨fun i hlt => ⟨?_, ?_⟩, fun hn => ?_, rfl⟩
  · refine (Mem.byte_clear ..).trans ?_
    rw [if_pos (by omega)]
    exact Mem.copyTo_byte hm hlt 1
  · refine (Mem.byte_clear ..).trans ?_
    rw [if_neg (by omega)]
  · have hc : keys (s.mem.copy p.addr a p.bytes).instars = keys s.mem.instars := congrArg keys (s.mem.copy_instars ..)
    refine (Mem.raiseInstars_first (hc ▸ hi) hn 1).trans ?_
    unfold Mem.instar
    rw [Mem.copy_instars]

theorem State.shardMove_goes {s : State} {h : Handle} {shard a : Nat} {p : Placed} (hfree : s.freePlace a p.bytes = true)
    (hp : (s.work.placed.find? fun q => q.handle = s.placedAs h && q.shard == shard) = some p) (hu : s.inUse (s.placedAs h) = false)
    (hc : s.claimed p.addr p.bytes = false) : exec (.shardMove h shard a) s = .next (s.relocate p a) := by
  show execShardMove h shard a s = _
  unfold execShardMove
  rw [hp]
  dsimp only
  rw [hu, hc, hfree, if_neg (by decide)]

theorem State.replicaCreate_goes {s : State} {h : Handle} {shard a : Nat} {p : Placed} (hfree : s.freePlace a p.bytes = true)
    (hp : (s.work.placed.find? fun p => p.handle = h && p.shard == shard) = some p) (hw : s.isWeights h = true)
    (hr : s.replicaFits p.bytes = true) (ht : demandWindow < 4 * s.readyTime h.slot h.tensor)
    (hn : ∀ pr e, look s.work.programs h.slot = some pr → pr.plan.find? (·.tensor == h.tensor) = some e → e.replicate ≠ 1) :
    exec (.replicaCreate h shard a) s = .next ((s.copyData p.addr a p.bytes 0).onWork fun w => { w with
      placed := w.placed ++ [{ p with replica := (s.work.placed.filter fun q => q.handle = h && q.shard == shard).length, addr := a }] }) := by
  obtain ⟨pr, hpr⟩ : ∃ pr, look s.work.programs h.slot = some pr := by
    cases hl : look s.work.programs h.slot with
    | some pr => exact ⟨pr, rfl⟩
    | none =>
      unfold State.isWeights at hw
      rw [hl] at hw
      cases hw
  unfold State.isWeights at hw
  rw [hpr, Option.bind_some] at hw
  have hnever : (match pr.plan.find? (·.tensor == h.tensor) with | some e => e.replicate == 1 | none => false) = false := by
    cases he : pr.plan.find? (·.tensor == h.tensor) with
    | none => rfl
    | some e => exact beq_false_of_ne (hn pr e hpr he)
  show execReplicaCreate h shard a s = _
  unfold execReplicaCreate
  rw [hpr, hp]
  dsimp only [Option.bind_some]
  rw [hr, hfree, decide_eq_false (Nat.not_le.mpr ht)]
  refine if_neg ?_
  simp only [Bool.not_true, Bool.or_false, Bool.or_eq_true, not_or]
  refine ⟨?_, ?_⟩
  · intro hb
    exact absurd ((congrArg (fun b => !b) hw).symm.trans hb) (by decide)
  · intro hb
    exact absurd (hnever.symm.trans hb) (by decide)

/-- Settles O27: the time limit by `State.taskTimeLimit_ends`, the other events by their equations above, the moved bytes by
`State.relocate_spec`. -/
theorem taskLimitsAndEpochs : Obligations.TaskLimitsAndEpochs := by
  unfold Obligations.TaskLimitsAndEpochs
  exact ⟨fun id t s ht _ hr he hw => State.taskTimeLimit_ends ht hr he hw, fun id t s ht he hx => State.shadowCopies ht he hx,
    fun e x entries h s hx hc => State.commitAct_acts hx hc, fun h shard a p s hfree => ⟨fun hp hu hc =>
      ⟨_, State.shardMove_goes hfree hp hu hc, rfl, fun hm hi him hf hkv hd => State.relocate_spec hm hi him hf hkv hd⟩,
      fun hp hw hr ht hn => State.replicaCreate_goes hfree hp hw hr ht hn⟩⟩

end Sys2Proof.Machine
end

