-- ==== Sys2Proof/Proofs/Streams.lean ====
section
/-!
Streams of requests: what the end of a request leaves of the others, stream writes, and the timers of streams and contexts.
-/

namespace Sys2Proof.Machine

/-! ### Requests through the end of one of them -/

/-- The requests that a fold of steps leaves as they are. -/
theorem State.foldl_requests {α : Type} {f : State → α → State} (hf : ∀ (s : State) a, (f s a).svc.requests = s.svc.requests) (l : List α)
    (s : State) : (l.foldl f s).svc.requests = s.svc.requests := by
  induction l generalizing s with
  | nil => rfl
  | cons a l ih => exact (ih _).trans (hf s a)

theorem State.dropPage_svc (s : State) (a : Nat) : (s.dropPage a).svc = s.svc := (State.Paged.dropPage (.refl s) a).svc

theorem State.closeContext_requests (s : State) (id : Nat) : (s.closeContext id).svc.requests = s.svc.requests := by
  unfold State.closeContext
  split
  · rfl
  · exact State.foldl_requests (fun s a => congrArg Service.requests (s.dropPage_svc a)) _ s

theorem State.modContext_requests (s : State) (id : Nat) (f : Context → Context) : (s.modContext id f).svc.requests = s.svc.requests := by
  unfold State.modContext
  split <;> rfl

theorem State.dropModel_requests (s : State) (i : Nat) : (s.dropModel i).svc.requests = s.svc.requests := by
  unfold State.dropModel
  split
  · rfl
  · split
    · rfl
    · refine (State.foldl_requests (fun s p => ?_) _ _).trans (State.foldl_requests (fun s (k : Nat × Context) => s.closeContext_requests k.1) _ s)
      exact State.foldl_requests (fun s a => congrArg Service.requests (s.dropPage_svc a)) _ s

theorem State.dropAdapter_requests (s : State) (i : Nat) : (s.dropAdapter i).svc.requests = s.svc.requests := by
  unfold State.dropAdapter
  split
  · rfl
  · split <;> rfl

/-- A request with its last entry queued. -/
def Request.endedWith (r : Request) (entry : List Byte) : Request :=
  { r.push entry with ended := true, inPass := false, readySince := none, creditSince := none }

/-- The requests when one has ended with an entry. -/
theorem State.endRequest_requests (s : State) (r : Request) (entry : List Byte) :
    (s.endRequest r entry).svc.requests = s.svc.requests.map fun x =>
      if x.qp == r.qp && x.rec_.request == r.rec_.request && !x.ended then x.endedWith entry else x := by
  unfold State.endRequest
  dsimp only
  rw [State.dropAdapter_requests, State.dropModel_requests]
  split
  · rfl
  · split
    · rw [State.modContext_requests]
      rfl
    · rw [State.closeContext_requests]
      rfl

section Ended

variable {s : State} {qp id : Nat} {r : Request} (hr : s.req? qp id = some r) (entry : List Byte)

include hr

theorem State.req?_named : r.qp = qp ∧ r.rec_.request = id ∧ r.ended = false := by
  have hp := List.find?_some hr
  simpa [and_assoc] using hp

theorem State.endRequest_req? : (s.endRequest r entry).req? qp id = none := by
  obtain ⟨hq, hi, -⟩ := State.req?_named hr
  unfold State.req?
  rw [State.endRequest_requests, hq, hi, List.find?_eq_none]
  intro x hx
  obtain ⟨y, -, rfl⟩ := List.mem_map.mp hx
  split
  · simp [Request.endedWith]
  next h => exact h

theorem State.endRequest_mem : r.endedWith entry ∈ (s.endRequest r entry).svc.requests := by
  rw [State.endRequest_requests]
  refine List.mem_map.mpr ⟨r, List.mem_of_find?_eq_some hr, if_pos ?_⟩
  obtain ⟨-, -, he⟩ := State.req?_named hr
  simp [he]

end Ended

/-! ### Writes of a stream -/

/-- The RDMA WRITE of `n` entries of a stream. -/
def Request.writeOf (r : Request) (id n : Nat) : OutWrite where
  work := .stream id r.written n
  va := r.rec_.ringVa + 32 * (r.written % 2 ^ r.rec_.ringLog2)
  imm := some (n * 2 ^ 24 + r.written % 2 ^ 24)
  data := (r.entries.take n).flatMap (·.2)

/-- The stream with `n` entries written. -/
def Request.advanced (r : Request) (n : Nat) : Request := { r with entries := r.entries.drop n, written := r.written + n }

/-- A model with `n` more tokens written. -/
def Service.counted (v : Service) (i n : Nat) : Service :=
  match look v.models i with
  | some m => { v with models := put v.models i { m with tokensOut := satAdd 64 m.tokensOut n } }
  | none => v

theorem Service.counted_keeps (v : Service) (i n : Nat) : (v.counted i n).requests = v.requests ∧ (v.counted i n).contexts = v.contexts := by
  unfold Service.counted
  split <;> exact ⟨rfl, rfl⟩

section Writes

variable {s : State} {qp id : Nat} {r : Request} {q : Qp} (hr : s.streamOf qp id = some r) (hq : look s.net.qps qp = some q) (hs : q.state = .rts)

include hr hq hs

omit hs in
/-- The stream write of a live queue pair, by whether its entries fit. -/
theorem State.writeStream_eq (n : Nat) : s.writeStream qp id n =
    if n = 0 ∨ 255 < n ∨ r.entries.length < n ∨ 2 ^ r.rec_.ringLog2 < r.written % 2 ^ r.rec_.ringLog2 + n ∨
        !r.creditFor (r.written + n - 1) ∨ q.state ≠ .rts then s
    else (((s.sendWrite qp (r.writeOf id n)).modStream qp id fun r => { r with entries := r.entries.drop n, written := r.written + n }).onSvc
      fun v => v.counted r.rec_.model ((r.entries.take n).filter fun e => field e.2 12 1 == kindToken).length).onSvc fun v => { v with requests := v.requests.filter fun x =>
          !(x.qp == qp && x.rec_.request == id && x.ended && x.entries.isEmpty) } := by
  unfold State.writeStream
  rw [hr, hq]
  rfl

theorem State.writeStream_fits {n : Nat} (h0 : 0 < n) (h255 : n ≤ 255) (hn : n ≤ r.entries.length)
    (hring : r.written % 2 ^ r.rec_.ringLog2 + n ≤ 2 ^ r.rec_.ringLog2) (hc : r.written + n ≤ r.credits + 2 ^ r.rec_.ringLog2) :
    (s.writeStream qp id n).sent = s.sent ++ [.rdmaWrite qp (r.writeOf id n).va (r.writeOf id n).imm (r.writeOf id n).data] ∧
      (n < r.entries.length → r.advanced n ∈ (s.writeStream qp id n).svc.requests) ∧
      (s.writeStream qp id n).mem = s.mem ∧ (s.writeStream qp id n).svc.contexts = s.svc.contexts := by
  have hgo : ¬ (n = 0 ∨ 255 < n ∨ r.entries.length < n ∨ 2 ^ r.rec_.ringLog2 < r.written % 2 ^ r.rec_.ringLog2 + n ∨
      (!r.creditFor (r.written + n - 1)) = true ∨ q.state ≠ .rts) := by
    have hcr : r.creditFor (r.written + n - 1) = true := decide_eq_true (by omega)
    rw [hcr]
    simp only [Bool.not_true, Bool.false_eq_true, false_or, not_or, Classical.not_not, Nat.not_lt]
    exact ⟨by omega, h255, hn, hring, hs⟩
  have hsend : s.sendWrite qp (r.writeOf id n) = ({ s with net := { s.net with qps := put s.net.qps qp { q with
      outstanding := q.outstanding ++ [r.writeOf id n] } } } : State).emit
        (.rdmaWrite qp (r.writeOf id n).va (r.writeOf id n).imm (r.writeOf id n).data) := by
    unfold State.sendWrite State.modQp
    rw [hq]
  have hstream : (s.sendWrite qp (r.writeOf id n)).streamOf qp id = some r := by
    rw [hsend]
    exact hr
  rw [State.writeStream_eq hr hq, if_neg hgo]
  generalize hu : s.sendWrite qp (r.writeOf id n) = u at hsend hstream
  unfold State.modStream
  rw [hstream]
  dsimp only [State.onSvc]
  refine ⟨?_, fun hlt => ?_, ?_, ?_⟩
  · rw [hsend]
    rfl
  · refine List.mem_filter.mpr ⟨?_, ?_⟩
    · rw [(Service.counted_keeps ..).1]
      exact List.mem_map.mpr ⟨r, List.mem_of_find?_eq_some hstream, if_pos rfl⟩
    · have hne : (r.entries.drop n).isEmpty = false := by
        rw [List.isEmpty_eq_false_iff, ne_eq, List.drop_eq_nil_iff]
        omega
      show (!(_ && (r.entries.drop n).isEmpty)) = true
      rw [hne, Bool.and_false]
      rfl
  · rw [hsend]
    rfl
  · rw [(Service.counted_keeps ..).2, hsend]
    rfl

omit hs in
theorem State.writeStream_unfit {n : Nat} (h : ¬ (0 < n ∧ n ≤ 255 ∧ n ≤ r.entries.length ∧
    r.written % 2 ^ r.rec_.ringLog2 + n ≤ 2 ^ r.rec_.ringLog2 ∧ r.written + n ≤ r.credits + 2 ^ r.rec_.ringLog2)) :
    s.writeStream qp id n = s := by
  rw [State.writeStream_eq hr hq]
  refine if_pos ?_
  refine Classical.byContradiction fun hn => ?_
  simp only [not_or, Classical.not_not, Nat.not_lt, Bool.not_eq_true', Bool.not_eq_false] at hn
  obtain ⟨h0, h255, hlen, hring, hc, -⟩ := hn
  have hc := of_decide_eq_true hc
  exact h ⟨by omega, h255, hlen, hring, by omega⟩

end Writes

theorem State.creditTimeout_spec {s : State} {qp id : Nat} {r : Request} (hr : s.req? qp id = some r) :
    exec (.creditTimeout qp id) s = if r.creditSince.isNone ∨ r.inPass then .next s
      else .next (s.endRequest r (streamEntry 0xFFFFFFFF (s.ctxLength r.context) r.context kindEnd stTimeout 0 3 [])) := by
  show execCreditTimeout qp id s = _
  unfold execCreditTimeout State.endWith
  rw [hr]

/-- Settles O40: stream writes by `State.writeStream_eq`, a time-out by what `State.endRequest` leaves. -/
theorem streamsAreWrittenWithCredit : Obligations.StreamsAreWrittenWithCredit := by
  unfold Obligations.StreamsAreWrittenWithCredit
  refine ⟨fun qp id n r q s hr hq hs => ?_, fun qp id r s hr => ⟨fun h => ?_, fun hc hp => ?_⟩, fun ctx k s hk => ?_⟩
  · intro size fits
    refine ⟨fun ⟨h0, h255, hn, hring, hc⟩ => ?_, fun h => congrArg Host.Outcome.next (State.writeStream_unfit hr hq h)⟩
    exact ⟨_, rfl, State.writeStream_fits hr hq hs h0 h255 hn hring hc⟩
  · rw [State.creditTimeout_spec hr]
    exact if_pos (h.imp_left Option.isNone_iff_eq_none.mpr)
  · refine ⟨_, r.endedWith _, (State.creditTimeout_spec hr).trans (if_neg ?_), State.endRequest_req? hr _, State.endRequest_mem hr _, rfl, rfl⟩
    rw [hp, Option.isNone_iff_eq_none]
    simpa using hc
  · show execContextIdleTimeout ctx s = _
    unfold execContextIdleTimeout
    rw [hk]
    dsimp only
    cases k.kept <;> cases (s.svc.requests.any fun r => !r.ended && r.context == ctx) <;> rfl

end Sys2Proof.Machine
end

