-- ==== Sys2Proof/Proofs/QueuePairs.lean ====
section
/-!
Queue pairs: how connections are set up and freed, rates cut and recovered, and requests of the device answered or sent again.
-/

namespace Sys2Proof.Machine

/-! ### Answers of commands -/

/-- State `t` differs from `s` only where the answer of a command, or the end of a window, may change it. -/
structure State.Answered (s t : State) : Prop where
  eq : t = { s with mem := t.mem, ctl := t.ctl, ident := { s.ident with sessRing := t.ident.sessRing } }

namespace State.Answered

variable {s t u : State}

theorem refl (s : State) : s.Answered s := ⟨rfl⟩

theorem trans (h₁ : s.Answered t) (h₂ : t.Answered u) : s.Answered u := by
  constructor
  rw [h₂.eq, h₁.eq]

theorem onCtl (h : s.Answered t) (f : Ctl → Ctl) : s.Answered (t.onCtl f) := h.trans ⟨rfl⟩
theorem onMem (h : s.Answered t) (f : Mem → Mem) : s.Answered (t.onMem f) := h.trans ⟨rfl⟩
theorem net (h : s.Answered t) : t.net = s.net := by rw [h.eq]
theorem sent (h : s.Answered t) : t.sent = s.sent := by rw [h.eq]
theorem now (h : s.Answered t) : t.now = s.now := by rw [h.eq]

theorem ite {p : Prop} [Decidable p] (h₁ : s.Answered t) (h₂ : s.Answered u) : s.Answered (if p then t else u) := by
  split <;> assumption

theorem foldl {α : Type} {f : State → α → State} {l : List α} (hf : ∀ x a, s.Answered x → s.Answered (f x a)) (h : s.Answered t) :
    s.Answered (l.foldl f t) := by
  induction l generalizing t with
  | nil => exact h
  | cons a l ih => exact ih (hf t a h)

theorem settleSession (h : s.Answered t) : s.Answered t.settleSession := .ite (h.trans ⟨rfl⟩) h

theorem respond (h : s.Answered t) (c : CmdHdr) (op st : Nat) (eff : Bool) (d : Word) (res : List Byte) :
    s.Answered (t.respond c op st eff d res) := by
  unfold State.respond
  split
  · exact h
  · exact .ite (h.onCtl _).settleSession (h.onCtl _)

theorem windowDown (h : s.Answered t) (w state : Nat) : s.Answered (t.windowDown w state) := by
  unfold State.windowDown
  refine .onCtl (.foldl (fun x b hx => .respond (.onMem hx _) _ _ _ _ _ _) (.onCtl ?_ _)) _
  split
  · exact .respond (h.onCtl _) _ _ _ _ _ _
  · exact h

theorem dropHolder (h : s.Answered t) : s.Answered t.dropHolder := (h.onCtl _).trans ⟨rfl⟩

end State.Answered

theorem Ctl.settleReset_windows (k : Ctl) : k.settleReset.windows = k.windows := by
  unfold Ctl.settleReset
  split <;> rfl

theorem State.respond_windows (s : State) (h : CmdHdr) (op st : Nat) (eff : Bool) (d : Word) (res : List Byte) :
    (s.respond h op st eff d res).ctl.windows = s.ctl.windows := by
  unfold State.respond
  split
  · rfl
  · dsimp only
    split
    · rw [State.settleSession_ctl]
      exact Ctl.settleReset_windows _
    · rfl

/-- The answer of the only command in progress joins the responses that wait. -/
theorem State.respond_only {s : State} {c : Cmd} {h : CmdHdr} {op : Nat} (hp : s.ctl.inProgress = [c]) (hh : c.hdr = h) (ho : c.op = op)
    (hd : c.discard = false) (st : Nat) (eff : Bool) (d : Word) (res : List Byte) :
    (s.respond h op st eff d res).ctl.completed.map (·.status) = s.ctl.completed.map (·.status) ++ [st] := by
  unfold State.respond
  rw [hp, List.find?_cons_of_pos (by simp [hh, ho])]
  dsimp only
  rw [hd]
  exact List.map_append ..

/-! ### A queue pair in ERROR -/

theorem State.modQp_eq {s : State} {q : Nat} {x : Qp} (h : look s.net.qps q = some x) (f : Qp → Qp) :
    s.modQp q f = { s with net := { s.net with qps := put s.net.qps q (f x) } } := by
  unfold State.modQp
  rw [h]

theorem State.modQp_qp {s : State} {q : Nat} {x : Qp} (h : look s.net.qps q = some x) (f : Qp → Qp) :
    look (s.modQp q f).net.qps q = some (f x) := by
  rw [State.modQp_eq h]
  exact look_put_same ..

/-- The queue pair and its port as the error leaves them, before the log and the window. -/
def State.qpStopped (s : State) (q : Nat) (x : Qp) : State :=
  (s.modQp q fun x => { x with state := .error, outstanding := [], reads := [], held := [] }).modPort x.port fun p => { p with
    qpErrors := satAdd 16 p.qpErrors 1, readBytes := p.readBytes - x.reads.foldl (fun n r => n + r.len) 0
    readWait := p.readWait.filter (·.1 != q) }

/-- The error of a queue pair: what has happened to it, the log, then its window and the ring. -/
theorem State.qpError_split {s : State} {q : Nat} {x : Qp} (h : look s.net.qps q = some x) (hs : x.state ≠ .error) :
    ((s.qpStopped q x).logEvent .rdmaQpError { ut := utQp, ui := 0x100000 + q }).Answered (s.qpError q) := by
  unfold State.qpError
  rw [h]
  dsimp only
  rw [if_neg hs]
  have hw : ((s.qpStopped q x).logEvent .rdmaQpError { ut := utQp, ui := 0x100000 + q }).Answered
      (match x.kind with
        | .window w => if (lookD ((s.qpStopped q x).logEvent .rdmaQpError { ut := utQp, ui := 0x100000 + q }).ctl.windows w ({} : Win)).qp = q
          then ((s.qpStopped q x).logEvent .rdmaQpError { ut := utQp, ui := 0x100000 + q }).windowDown w 3
          else (s.qpStopped q x).logEvent .rdmaQpError { ut := utQp, ui := 0x100000 + q }
        | _ => (s.qpStopped q x).logEvent .rdmaQpError { ut := utQp, ui := 0x100000 + q }) := by
    split
    · exact .ite (.windowDown (.refl _) _ _) (.refl _)
    · exact .refl _
  exact .ite hw.dropHolder hw

theorem State.qpError_net {s : State} {q : Nat} {x : Qp} (h : look s.net.qps q = some x) (hs : x.state ≠ .error) :
    (s.qpError q).net = (s.qpStopped q x).net := (State.qpError_split h hs).net.trans (State.logEvent_net ..)

theorem State.qpError_state {s : State} {q : Nat} {x : Qp} (h : look s.net.qps q = some x) :
    (look (s.qpError q).net.qps q).map (·.state) = some .error := by
  by_cases hs : x.state = .error
  · have he : s.qpError q = s := by
      unfold State.qpError
      rw [h]
      exact if_pos hs
    rw [he, h, Option.map_some, hs]
  · rw [State.qpError_net h hs]
    have hq := State.modQp_qp h fun x => { x with state := .error, outstanding := [], reads := [], held := [] }
    exact congrArg (Option.map (·.state)) hq

theorem State.qpError_sent (s : State) (q : Nat) : (s.qpError q).sent = s.sent ∧ (s.qpError q).now = s.now := by
  cases h : look s.net.qps q with
  | none =>
    unfold State.qpError
    rw [h]
    exact ⟨rfl, rfl⟩
  | some x =>
    by_cases hs : x.state = .error
    · unfold State.qpError
      rw [h]
      dsimp only
      rw [if_pos hs]
      exact ⟨rfl, rfl⟩
    · have ha := State.qpError_split h hs
      rw [ha.sent, ha.now, State.logEvent_sent, State.logEvent_now]
      unfold State.qpStopped
      rw [State.modQp_eq h]
      exact ⟨rfl, rfl⟩

/-! ### Connections -/

/-- The queue pair that a REQ gets. -/
def State.acceptedQp (s : State) (p : Nat) (m : CmReq) (kind : QKind) : Qp where
  kind := kind
  port := p
  gidIndex := m.gidIndex
  state := .rtr
  domain := newDomain s.free kind
  mtu := min m.mtu (s.portSt p).mtuMax
  remoteQpn := m.remoteQpn
  remoteGid := m.srcGid
  rate := (s.portSt p).line

theorem newDomain_mgmt (free : Nat) (kind : QKind) : kind = .mgmt ↔ newDomain free kind = 255 := by
  unfold newDomain
  split
  next h => simp [h]
  next h =>
    have := Nat.mod_lt (Config.freeNat free) (show 0 < 255 by decide)
    exact ⟨fun hk => absurd hk h, fun hk => by omega⟩

section Requests

variable {s : State} {p : Nat} {m : CmReq} (hu : (s.portSt p).state = .up)

include hu

theorem State.req_rejected {reason : Nat} (hj : s.judgeReq p m = .inl reason) : exec (.req p m) s = .next (s.emit (.cm p none (cmRej reason))) := by
  refine (if_neg (Classical.not_not.mpr hu)).trans ?_
  rw [hj]

theorem State.req_noIndex {kind : QKind} (hj : s.judgeReq p m = .inr kind) (hf : s.freeQp = none) :
    exec (.req p m) s = .next (s.emit (.cm p none (cmRej rejNoQp))) := by
  refine (if_neg (Classical.not_not.mpr hu)).trans ?_
  rw [hj, hf]

/-- The exchange for a REQ that is taken. -/
theorem State.req_accepted {kind : QKind} {i : Nat} (hj : s.judgeReq p m = .inr kind) (hf : s.freeQp = some i) :
    exec (.req p m) s = .next ((s.draw.onNet fun n => { n with qps := put n.qps i (s.acceptedQp p m kind) }).emit (.cm p (some i) cmRep)) := by
  refine (if_neg (Classical.not_not.mpr hu)).trans ?_
  rw [hj, hf]
  rfl

end Requests

section Pairs

variable {s : State} {q : Nat} {x : Qp} (hx : look s.net.qps q = some x)

include hx

theorem State.rtu_connects (hs : x.state = .rtr) : ∃ t, exec (.rtu q) s = .next t ∧ look t.net.qps q = some { x with state := .rts } :=
  ⟨_, rfl, (State.modQp_qp hx _).trans (congrArg some (if_pos hs))⟩

theorem State.rtuTimeout_again (hs : x.state = .rtr) (ht : x.rtuTries < 3) : exec (.rtuTimeout q) s =
    .next ((s.modQp q fun x => { x with rtuTries := x.rtuTries + 1 }).emit (.cm x.port (some q) cmRep)) := by
  show execRtuTimeout q s = _
  unfold execRtuTimeout
  rw [hx]
  dsimp only
  rw [if_neg (Classical.not_not.mpr hs), if_pos ht]

theorem State.rtuTimeout_frees (hs : x.state = .rtr) (ht : 3 ≤ x.rtuTries) : exec (.rtuTimeout q) s =
    .next ((s.freeQpIndex q).emit (.cm x.port (some q) (cmRej rejTimeout))) := by
  show execRtuTimeout q s = _
  unfold execRtuTimeout
  rw [hx]
  dsimp only
  rw [if_neg (Classical.not_not.mpr hs), if_neg (Nat.not_lt.mpr ht)]

omit hx in
theorem State.freeQpIndex_rests (s : State) (q : Nat) : (q, s.now) ∈ (s.freeQpIndex q).net.resting :=
  List.mem_append_right _ List.mem_cons_self

theorem State.dreq_spec : ∃ t, exec (.dreq q) s = .next t ∧ (q, s.now) ∈ t.net.resting ∧ .cm x.port (some q) cmDrep ∈ t.sent := by
  refine ⟨((s.emit (.cm x.port (some q) cmDrep)).qpError q).freeQpIndex q, ?_, ?_, ?_⟩
  · show execDreq q s = _
    unfold execDreq
    rw [hx]
  · have hn : ((s.emit (.cm x.port (some q) cmDrep)).qpError q).now = s.now := (State.qpError_sent _ q).2
    rw [← hn]
    exact State.freeQpIndex_rests _ q
  · show _ ∈ ((s.emit (.cm x.port (some q) cmDrep)).qpError q).sent
    rw [(State.qpError_sent _ q).1]
    exact List.mem_append_right _ List.mem_cons_self

theorem State.drep_spec : exec (.drep q) s = .next (if x.state = .reset then s.freeQpIndex q else s) := by
  show execDrep q s = _
  unfold execDrep
  rw [hx]
  exact (apply_ite Host.Outcome.next _ _ _).symm

/-! ### A window's connection -/

section Window

variable {w : Nat} {h : CmdHdr} (hk : x.kind = .window w) (hs : x.state = .init) (ho : look s.ctl.opening w = some h)

include hk hs ho

omit hx hs in
theorem State.openingOf_window : s.openingOf x = some (w, h) := by
  unfold State.openingOf
  rw [hk]
  dsimp only
  rw [ho]
  rfl

theorem State.rep_connects (mtu n : Nat) : ∃ t, exec (.rep x.port q mtu n) s = .next t ∧
    look t.net.qps q = some { x with state := .rts, mtu := min x.mtu mtu, remoteQpn := n } ∧
    (lookD t.ctl.windows w {}).state = 2 ∧ t.sent = s.sent ++ [.cm x.port (some q) cmRtu] := by
  generalize hu : (((s.modQp q fun x => { x with state := .rts, mtu := min x.mtu mtu, remoteQpn := n }).emit (.cm x.port (some q) cmRtu)).onCtl
    fun k => { k with opening := del k.opening w, windows := put k.windows w { (lookD k.windows w {}) with state := 2 } }) = u
  have ha : u.Answered (u.respond h 0x0601 stOk true 0 (leBytes 1 2)) := .respond (.refl u) ..
  refine ⟨u.respond h 0x0601 stOk true 0 (leBytes 1 2), ?_, ?_, ?_, ?_⟩
  · show execRep x.port q mtu n s = _
    unfold execRep
    rw [hx]
    dsimp only
    rw [if_neg (by simp [hs]), State.openingOf_window hk ho, ← hu]
  · rw [ha.net, ← hu]
    exact State.modQp_qp hx _
  · rw [State.respond_windows, ← hu]
    exact congrArg Win.state (lookD_put_same ..)
  · rw [ha.sent, ← hu, State.modQp_eq hx]
    rfl

/-- The connection has come to nothing: the queue pair is freed, the window closed and the command answered. -/
theorem State.openFailed_spec (st : Nat) : (s.openFailed q st).net.qps = del s.net.qps q ∧ (s.openFailed q st).ctl.windows = del s.ctl.windows w ∧
    ∀ c, s.ctl.inProgress = [c] → c.hdr = h → c.op = 0x0601 → c.discard = false →
      (s.openFailed q st).ctl.completed.map (·.status) = s.ctl.completed.map (·.status) ++ [st] := by
  generalize hu : ((s.freeQpIndex q).onCtl fun k => { k with opening := del k.opening w, windows := del k.windows w }) = u
  have hf : s.openFailed q st = u.respond h 0x0601 st false 0 [] := by
    unfold State.openFailed
    rw [hx]
    dsimp only
    rw [if_pos hs, State.openingOf_window hk ho, ← hu]
  have ha : u.Answered (u.respond h 0x0601 st false 0 []) := .respond (.refl u) ..
  rw [hf]
  refine ⟨?_, ?_, fun c hc hh hop hd => ?_⟩
  · rw [ha.net, ← hu]
    rfl
  · rw [State.respond_windows, ← hu]
    rfl
  · have hp : u.ctl.inProgress = [c] := hu ▸ hc
    rw [State.respond_only hp hh hop hd, ← hu]
    rfl

theorem State.deviceReq_again (ht : x.reqTries < 3) : exec (.deviceReqTimeout q) s =
    .next ((s.modQp q fun x => { x with reqTries := x.reqTries + 1 }).emit (.cm x.port (some q) cmReq)) := by
  show execDeviceReqTimeout q s = _
  unfold execDeviceReqTimeout
  rw [hx]
  dsimp only
  rw [State.openingOf_window hk ho, if_neg (by simp [hs]), if_pos ht]

theorem State.deviceReq_fails (ht : 3 ≤ x.reqTries) : exec (.deviceReqTimeout q) s = .next (s.openFailed q stTimeout) := by
  show execDeviceReqTimeout q s = _
  unfold execDeviceReqTimeout
  rw [hx]
  dsimp only
  rw [State.openingOf_window hk ho, if_neg (by simp [hs]), if_neg (Nat.not_lt.mpr ht)]

end Window

/-! ### Rates -/

theorem State.cnpSend_early {t : Nat} (hl : x.lastCnp = some t) (hn : s.now < t + 50000) : exec (.cnpSend q) s = .next s := by
  show execCnpSend q s = _
  unfold execCnpSend
  rw [hx]
  dsimp only
  rw [hl]
  refine if_pos ?_
  simpa using hn

theorem State.cnpSend_due (hl : x.lastCnp = none ∨ ∃ t, x.lastCnp = some t ∧ t + 50000 ≤ s.now) :
    ∃ t, exec (.cnpSend q) s = .next t ∧ t.sent = s.sent ++ [s.frameOf x.port frCnp] ∧
      look t.net.qps q = some { x with lastCnp := some s.now } := by
  generalize hu : ((s.modQp q fun x => { x with lastCnp := some s.now }).modPort x.port fun p => { p with cnpTx := satAdd 16 p.cnpTx 1 }) = u
  have hport : u.portSt x.port = { s.portSt x.port with cnpTx := satAdd 16 (s.portSt x.port).cnpTx 1 } := by
    rw [← hu, State.modPort_portSt, State.modQp_eq hx]
    rfl
  refine ⟨u.sendFrame x.port frCnp, ?_, ?_, ?_⟩
  · show execCnpSend q s = _
    unfold execCnpSend
    rw [hx]
    dsimp only
    rw [hu]
    obtain hl | ⟨t, hl, ht⟩ := hl
    · rw [hl]
      rfl
    · rw [hl]
      refine if_neg ?_
      simpa using ht
  · have hs : u.sent = s.sent := by
      rw [← hu, State.modQp_eq hx]
      rfl
    show u.sent ++ [u.frameOf x.port frCnp] = _
    rw [hs]
    unfold State.frameOf
    rw [hport]
    rfl
  · show look u.net.qps q = _
    rw [← hu]
    exact State.modQp_qp hx _

theorem State.cnp_cuts : ∃ t, exec (.cnp q) s = .next t ∧ look t.net.qps q = some (if s.now < x.lastCut + 50000 then x else
    { x with rate := max (max 1 (s.portSt x.port).rclMin * 1024) (x.rate - x.rate / 2 ^ (s.portSt x.port).cutShift), lastCut := s.now }) := by
  show ∃ t, execCnp q s = .next t ∧ _
  unfold execCnp
  rw [hx]
  dsimp only
  by_cases h : s.now < x.lastCut + 50000
  · rw [if_pos h, if_pos h]
    exact ⟨_, rfl, hx⟩
  · rw [if_neg h, if_neg h]
    refine ⟨_, rfl, State.modQp_qp (s := s.modPort x.port _) hx _⟩

theorem State.rateRecovery_spec (h : x.lastCut + max 1 (s.portSt x.port).rclHold * 10000 ≤ s.now) :
    ∃ t, exec (.rateRecoveryStep q) s = .next t ∧ look t.net.qps q = some (if (s.portSt x.port).line ≤ x.rate then x else
      let k := s.portSt x.port
      { x with rate := min k.line (x.rate + k.rclAdd * 1024 + (k.line - x.rate) / 2 ^ k.rclRec) }) := by
  show ∃ t, execRateRecoveryStep q s = .next t ∧ _
  unfold execRateRecoveryStep
  rw [hx]
  dsimp only
  by_cases hl : (s.portSt x.port).line ≤ x.rate
  · rw [if_pos (.inl hl), if_pos hl]
    exact ⟨_, rfl, hx⟩
  · rw [if_neg (fun h' => h'.elim hl (Nat.not_lt.mpr h)), if_neg hl]
    exact ⟨_, rfl, State.modQp_qp hx _⟩

/-! ### Requests of the device -/

theorem State.acknowledgement_ok {w : OutWrite} {rest : List OutWrite} (ho : x.outstanding = w :: rest) : exec (.rdmaAcknowledgement q true) s =
    .next ((s.modQp q fun x => { x with outstanding := rest, timeouts := 0 }).writeAcked q w) := by
  show execRdmaAcknowledgement q true s = _
  unfold execRdmaAcknowledgement
  rw [hx]
  dsimp only
  rw [ho]
  rfl

theorem State.acknowledgement_nak {w : OutWrite} {rest : List OutWrite} (ho : x.outstanding = w :: rest) :
    exec (.rdmaAcknowledgement q false) s = .next (s.qpError q) := by
  show execRdmaAcknowledgement q false s = _
  unfold execRdmaAcknowledgement
  rw [hx]
  dsimp only
  rw [ho]
  rfl

theorem State.ackTimeout_exec (hs : x.state = .rts) (ho : x.outstanding ≠ [] ∨ x.reads ≠ []) : exec (.ackTimeout q) s =
    if retryCount x.kind ≤ x.timeouts then .next (s.qpError q)
    else .next (x.reads.foldl (fun s r => s.emit (.rdmaRead q r.va r.len)) (x.outstanding.foldl (fun s w => s.emit (.rdmaWrite q w.va w.imm w.data))
      (s.modQp q fun x => { x with timeouts := x.timeouts + 1 }))) := by
  show execAckTimeout q s = _
  unfold execAckTimeout
  rw [hx]
  dsimp only
  rw [if_neg]
  rw [hs]
  simpa [List.isEmpty_iff, Decidable.imp_iff_not_or] using ho

omit hx in
theorem State.foldl_emit_eq {α : Type} (f : α → Sent) (l : List α) (s : State) :
    l.foldl (fun s i => s.emit (f i)) s = { s with sent := s.sent ++ l.map f } := by
  induction l generalizing s with
  | nil => exact congrArg (fun l => { s with sent := l }) (List.append_nil _).symm
  | cons i l ih => exact (ih _).trans (congrArg (fun l => { s with sent := l }) (List.append_assoc ..))

theorem State.ackTimeout_again (hs : x.state = .rts) (ho : x.outstanding ≠ [] ∨ x.reads ≠ []) (ht : x.timeouts < retryCount x.kind) :
    ∃ t, exec (.ackTimeout q) s = .next t ∧ look t.net.qps q = some { x with timeouts := x.timeouts + 1 } ∧
      t.sent = s.sent ++ x.outstanding.map (fun w => .rdmaWrite q w.va w.imm w.data) ++ x.reads.map fun r => .rdmaRead q r.va r.len := by
  refine ⟨_, (State.ackTimeout_exec hx hs ho).trans (if_neg (Nat.not_le.mpr ht)), ?_, ?_⟩
  · rw [State.foldl_emit_eq, State.foldl_emit_eq]
    exact State.modQp_qp hx _
  · rw [State.foldl_emit_eq, State.foldl_emit_eq, State.modQp_eq hx]

theorem State.readResponse_exec {r : OutRead} {rest : List OutRead} (bs : List Byte) (hr : x.reads = r :: rest) (hw : (s.portSt x.port).readWait = []) :
    let t0 := (s.modQp q fun x => { x with reads := rest, timeouts := 0 }).modPort x.port fun p => { p with readBytes := p.readBytes - r.len }
    exec (.rdmaReadResponse q bs) s = .next (if ((s.core r.core).item? r.engine r.seq).isNone then t0 else match r.entry with
      | some n => (t0.gotEntry r.core r.engine r.seq n (bs.take r.len) false none).completed r.core
      | none => (((t0.spStore r.core r.dest (bs.take r.len) (List.replicate (bs.take r.len).length false)).continueItem r.core r.engine r.seq).completed
        r.core)) := by
  intro t0
  have hn : t0.nextRead x.port = t0 := by
    have hp : (t0.portSt x.port).readWait = [] := by
      show (((s.modQp q _).modPort x.port _).portSt x.port).readWait = []
      rw [State.modPort_portSt, State.modQp_eq hx]
      exact hw
    unfold State.nextRead
    rw [hp]
  have hc : t0.core r.core = s.core r.core := by
    show ((s.modQp q _).modPort x.port _).core r.core = _
    rw [State.modQp_eq hx]
    rfl
  show execRdmaReadResponse q bs s = _
  unfold execRdmaReadResponse
  rw [hx]
  dsimp only
  rw [hr]
  dsimp only
  rw [hn, hc]
  split
  · rfl
  · cases r.entry <;> rfl

end Pairs

/-- Settles O46: connections, rates and the device's own requests, each by its lemma above. -/
theorem connectionsAndRates : Obligations.ConnectionsAndRates := by
  unfold Obligations.ConnectionsAndRates
  refine ⟨fun p m s hu => ⟨fun reason hj => State.req_rejected hu hj, fun kind i hj hf => ?_, fun kind hj hf => State.req_noIndex hu hj hf⟩,
    fun q x s hx => ⟨fun hs => State.rtu_connects hx hs, fun hs ht => ⟨_, State.rtuTimeout_again hx hs ht, State.modQp_qp hx _, ?_⟩,
      fun hs ht => ⟨_, State.rtuTimeout_frees hx hs ht, State.freeQpIndex_rests s q, rfl, rfl⟩, fun w h hk hs ho => ?_,
      State.dreq_spec hx, State.drep_spec hx, fun t hl hn => State.cnpSend_early hx hl hn, fun hl => State.cnpSend_due hx hl, State.cnp_cuts hx,
      fun h => State.rateRecovery_spec hx h, fun w rest ho => ⟨State.acknowledgement_ok hx ho, _, State.acknowledgement_nak hx ho,
        State.qpError_state hx⟩, fun hs ho => ⟨fun ht => State.ackTimeout_again hx hs ho ht, fun ht =>
        ⟨_, (State.ackTimeout_exec hx hs ho).trans (if_pos ht), State.qpError_state hx⟩⟩, fun r rest bs hr hw =>
        State.readResponse_exec hx bs hr hw⟩⟩
  · exact ⟨_, s.acceptedQp p m kind, State.req_accepted hu hj hf, look_put_same .., rfl, rfl, rfl, rfl, rfl, rfl, newDomain_mgmt _ _, rfl⟩
  · rw [State.modQp_eq hx]
    rfl
  · obtain ⟨r1, r2, r3⟩ := State.openFailed_spec hx hk hs ho stNotReady
    obtain ⟨o1, -, o3⟩ := State.openFailed_spec hx hk hs ho stTimeout
    refine ⟨fun mtu n => State.rep_connects hx hk hs ho mtu n, ⟨_, rfl, r1, r2, r3⟩, fun ht =>
      ⟨_, State.deviceReq_again hx hk hs ho ht, State.modQp_qp hx _, ?_⟩, fun ht => ⟨_, State.deviceReq_fails hx hk hs ho ht, o1, o3⟩⟩
    rw [State.modQp_eq hx]
    rfl

end Sys2Proof.Machine
end

