-- ==== Sys2Proof/Proofs/InboundRequests.lean ====
section
/-!
Stores of any range into memory without stored errors, and what becomes of the requests that arrive at a queue pair.
-/

namespace Sys2Proof.Machine

/-! ### Stores into memory without stored errors -/

/-- Memory `m'` is `m` with the bytes `bs` at `a`, free of stored errors. -/
structure Mem.Stored (m m' : Mem) (a : Nat) (bs : List Byte) : Prop where
  wf : m'.wf = true
  flips : m'.flips = []
  inside : ∀ i (h : i < bs.length), m'.byte (a + i) = bs[i]
  outside : ∀ x, x < a ∨ a + bs.length ≤ x → m'.byte x = m.byte x

theorem Mem.Stored.append {m m₁ m₂ : Mem} {a : Nat} {bs cs : List Byte} (h₁ : m.Stored m₁ a bs) (h₂ : m₁.Stored m₂ (a + bs.length) cs) :
    m.Stored m₂ a (bs ++ cs) := by
  refine ⟨h₂.wf, h₂.flips, fun i hi => ?_, fun x hx => ?_⟩
  · by_cases hb : i < bs.length
    · rw [List.getElem_append_left hb, h₂.outside _ (by omega), h₁.inside i hb]
    · have hi' : i - bs.length < cs.length := by
        rw [List.length_append] at hi
        omega
      have := h₂.inside (i - bs.length) hi'
      rw [List.getElem_append_right (by omega), ← this]
      congr 1
      omega
  · rw [List.length_append] at hx
    rw [h₂.outside x (by omega), h₁.outside x (by omega)]

theorem Mem.stored_nil {m : Mem} (hw : m.wf = true) (hf : m.flips = []) (a : Nat) : m.Stored m a [] :=
  ⟨hw, hf, fun _ h => absurd h (Nat.not_lt_zero _), fun _ _ => rfl⟩

theorem Mem.Stored.read {m m' : Mem} {a : Nat} {bs : List Byte} (h : m.Stored m' a bs) : m'.read a bs.length = bs := by
  refine List.ext_getElem (by simp [Mem.read]) fun i h₁ h₂ => ?_
  simp only [Mem.read, List.getElem_map, List.getElem_range]
  exact h.inside i h₂

theorem Mem.write_flips (m : Mem) (a : Nat) (bs : List Byte) : (m.write a bs).flips = m.flips := by
  induction bs generalizing m a with
  | nil => rfl
  | cons b bs ih => exact (ih _ _).trans rfl

/-- A store with its mark, its errors cleared and its instar counted. -/
theorem Mem.stored_unit {m : Mem} (hw : m.wf = true) (hf : m.flips = []) (a u : Nat) (p : Bool) (bs : List Byte) :
    m.Stored ((((m.write a bs).setMark u p).clearFlips u).bumpInstar a) a bs where
  wf := Mem.write_wf hw a bs
  flips := by
    show ((m.write a bs).flips.filter _) = []
    rw [Mem.write_flips, hf]
    rfl
  inside i h := Mem.byte_write_in hw a bs i h
  outside x h := Mem.byte_write_ne m a bs h

theorem Mem.byte_write_read {m : Mem} (hw : m.wf = true) (u n x : Nat) : (m.write u (m.read u n)).byte x = m.byte x := by
  have hl : (m.read u n).length = n := by simp [Mem.read]
  by_cases hx : x < u ∨ u + n ≤ x
  · exact Mem.byte_write_ne m u _ (by rwa [hl])
  · obtain ⟨i, rfl⟩ := Nat.exists_eq_add_of_le (show u ≤ x by omega)
    have hi : i < (m.read u n).length := by omega
    rw [Mem.byte_write_in hw u _ i hi]
    simp [Mem.read]

/-- The same over a codeword that was read first. -/
theorem Mem.stored_over {m : Mem} (hw : m.wf = true) (hf : m.flips = []) (a u v n : Nat) (p : Bool) (bs : List Byte) :
    m.Stored (((((m.write v (m.read v n)).write a bs).setMark u p).clearFlips u).bumpInstar a) a bs := by
  have h := Mem.stored_unit (m := m.write v (m.read v n)) (Mem.write_wf hw _ _) ((Mem.write_flips ..).trans hf) a u p bs
  exact ⟨h.wf, h.flips, h.inside, fun x hx => (h.outside x hx).trans (Mem.byte_write_read hw v n x)⟩

theorem Mem.errsOf_clean {m : Mem} (hf : m.flips = []) (u : Nat) : m.errsOf u = [] := by
  unfold Mem.errsOf
  rw [hf]
  rfl

theorem Mem.flips_of_clean {m : Mem} (h : ∀ u, m.errsOf u = []) : m.flips = [] := by
  refine List.eq_nil_iff_forall_not_mem.mpr fun p hp => ?_
  have hu := List.map_eq_nil_iff.mp (h (p.1 / 128))
  have hm := (List.mem_filter (p := fun q : Nat × Byte => q.1 / 128 == p.1 / 128)).mpr ⟨hp, beq_self_eq_true _⟩
  rw [hu] at hm
  exact absurd hm List.not_mem_nil

theorem State.writeUnit_stored (s : State) (hw : s.mem.wf = true) (hf : s.mem.flips = []) (a : Nat) (bs : List Byte) (p : Bool) :
    s.mem.Stored (s.writeUnit a bs p).mem a bs := by
  unfold State.writeUnit
  dsimp only
  split
  next c off _ =>
    split
    · exact Mem.stored_unit hw hf a _ _ bs
    · obtain ⟨hd, hm⟩ := s.readCodeword_clean (c := c) (Mem.errsOf_clean hf (unitBase a))
      generalize s.readCodeword c (unitBase a) = r at *
      obtain ⟨s1, old, bad⟩ := r
      obtain ⟨rfl, rfl⟩ := Prod.mk.inj hd
      have hm : s1.mem = s.mem := hm
      show s.mem.Stored (((((s1.mem.write _ _).write a bs).setMark _ _).clearFlips _).bumpInstar a) a bs
      rw [hm]
      exact Mem.stored_over hw hf a _ _ 32 _ bs
  next m off _ =>
    have hno : (s.mem.flipUnits (unitBase a) 64).isEmpty = true := by
      unfold Mem.flipUnits
      rw [hf]
      rfl
    have ho : (s.overwrite m (unitBase a)).mem = s.mem := by
      unfold State.overwrite
      split <;> rfl
    rw [if_pos (.inr hno)]
    show s.mem.Stored (((((s.overwrite m (unitBase a)).mem.write a bs).setMark _ _).clearFlips _).bumpInstar a) a bs
    rw [ho]
    exact Mem.stored_unit hw hf a _ _ bs
  · exact ⟨Mem.write_wf hw a bs, (Mem.write_flips ..).trans hf, Mem.byte_write_in hw a bs, fun x hx => Mem.byte_write_ne _ a bs hx⟩

theorem unitSize_cases (a : Nat) : (unitSize a = 64 ∧ outerBase ≤ a ∧ a < scratchBase) ∨ (unitSize a = 32 ∧ (a < outerBase ∨ scratchBase ≤ a)) := by
  unfold unitSize
  by_cases h : outerBase ≤ a ∧ a < scratchBase
  · exact .inl ⟨if_pos h, h⟩
  · refine .inr ⟨if_neg h, ?_⟩
    omega

/-- The address behind a unit begins a unit. -/
theorem unitBase_next (a : Nat) : unitBase (unitBase a + unitSize a) = unitBase a + unitSize a := by
  unfold unitBase
  rcases unitSize_cases a with ⟨h, h₁, h₂⟩ | ⟨h, h₁⟩ <;> rw [h] <;>
    rcases unitSize_cases (a / _ * _ + _) with ⟨h', h₃, h₄⟩ | ⟨h', -⟩ <;> rw [h'] <;> unfold outerBase scratchBase at * <;> omega

theorem unitBase_step (a : Nat) : unitBase a ≤ a ∧ a < unitBase a + unitSize a ∧ 32 ≤ unitSize a := by
  unfold unitBase
  rcases unitSize_cases a with ⟨h, -, -⟩ | ⟨h, -⟩ <;> rw [h] <;> omega

/-- One unit of a range stored, the rest to follow. -/
theorem State.writeUnits_step {s : State} {fuel a : Nat} {bs : List Byte} {ps : List Bool} (hw : s.mem.wf = true) (hf : s.mem.flips = [])
    (ih : ∀ t : State, t.mem.wf = true → t.mem.flips = [] →
      t.mem.Stored (t.writeUnits fuel (unitBase a + unitSize a) (bs.drop (unitBase a + unitSize a - a)) (ps.drop (unitBase a + unitSize a - a))).mem
        (unitBase a + unitSize a) (bs.drop (unitBase a + unitSize a - a))) :
    s.mem.Stored (s.writeUnits (fuel + 1) a bs ps).mem a bs := by
  obtain ⟨h1, h2, -⟩ := unitBase_step a
  have ha : a + (unitBase a + unitSize a - a) = unitBase a + unitSize a := by omega
  unfold State.writeUnits
  split
  next he =>
    rw [List.isEmpty_iff.mp he]
    exact Mem.stored_nil hw hf a
  next =>
    dsimp only
    rw [ha]
    generalize hn : unitBase a + unitSize a - a = n at *
    have hu := s.writeUnit_stored hw hf a (bs.take n) ((ps.take n).any id)
    have hr := ih _ hu.wf hu.flips
    by_cases hlen : bs.length ≤ n
    · have hdrop : bs.drop n = [] := List.drop_of_length_le hlen
      have hz : ∀ (t : State) (f b : Nat) (qs : List Bool), t.writeUnits f b [] qs = t := fun t f b qs => by
        cases f <;> rfl
      rw [hdrop, hz]
      rwa [List.take_of_length_le hlen] at hu ⊢
    · have hlt : (bs.take n).length = n := by
        rw [List.length_take]
        omega
      have happ := hu.append (m₂ := _) (cs := bs.drop n) (by rw [hlt, ha]; exact hr)
      rwa [List.take_append_drop] at happ

theorem State.writeUnits_stored (fuel : Nat) : ∀ (s : State) (a : Nat) (bs : List Byte) (ps : List Bool), s.mem.wf = true → s.mem.flips = [] →
    unitBase a = a → bs.length ≤ 32 * fuel → s.mem.Stored (s.writeUnits fuel a bs ps).mem a bs := by
  induction fuel with
  | zero =>
    intro s a bs ps hw hf _ hl
    rw [List.length_eq_zero_iff.mp (Nat.le_zero.mp hl)]
    exact Mem.stored_nil hw hf a
  | succ fuel ih =>
    intro s a bs ps hw hf ha hl
    obtain ⟨-, -, h3⟩ := unitBase_step a
    refine State.writeUnits_step hw hf fun t ht hft => ih t _ _ _ ht hft (unitBase_next a) ?_
    rw [List.length_drop, ha]
    omega

/-- A range stored into memory without stored errors. -/
theorem State.writeRange_stored (s : State) (hw : s.mem.wf = true) (hf : s.mem.flips = []) (a : Nat) (bs : List Byte) (ps : List Bool) :
    s.mem.Stored (s.writeRange a bs ps).mem a bs := by
  obtain ⟨h1, h2, -⟩ := unitBase_step a
  refine State.writeUnits_step (fuel := bs.length / 32 + 1) hw hf fun t ht hft => ?_
  refine State.writeUnits_stored _ t _ _ _ ht hft (unitBase_next a) ?_
  rw [List.length_drop]
  omega

/-! ### Negative acknowledgements -/

theorem State.qpError_mem {s : State} {q : Nat} {x : Qp} (h : look s.net.qps q = some x) (hk : ∀ w, x.kind ≠ .window w) :
    (s.qpError q).mem = s.mem := by
  unfold State.qpError
  rw [h]
  dsimp only
  by_cases hs : x.state = .error
  · rw [if_pos hs]
  · rw [if_neg hs]
    have hl : ((s.qpStopped q x).logEvent .rdmaQpError { ut := utQp, ui := 0x100000 + q }).mem = s.mem := by
      rw [State.logEvent_mem]
      unfold State.qpStopped
      rw [State.modQp_eq h]
      rfl
    cases hx : x.kind with
    | window w => exact absurd hx (hk w)
    | _ =>
      dsimp only
      split
      · exact hl
      · exact hl

/-- A queue pair stopped by an error: its NAK stands among what was sent, and nothing is held. -/
structure State.NakFailed (s t : State) (q : Nat) (x : Qp) (code : Nat) : Prop where
  sent : .rdmaNak q code ∈ t.sent
  state : (look t.net.qps q).map (·.state) = some .error
  held : (look t.net.qps q).map (·.held) = some []
  mem : (∀ w, x.kind ≠ .window w) → t.mem = s.mem

theorem State.nakError_fails {s : State} {q : Nat} {x : Qp} (h : look s.net.qps q = some x) (hs : x.state ≠ .error) (code : Nat) :
    s.NakFailed (s.nakError q code) q x code := by
  have hn : (s.nakError q code).net = ((s.emit (.rdmaNak q code)).qpStopped q x).net := State.qpError_net (s := s.emit (.rdmaNak q code)) h hs
  have hq : look (s.nakError q code).net.qps q = some { x with state := .error, outstanding := [], reads := [], held := [] } := by
    rw [hn]
    exact State.modQp_qp (s := s.emit (.rdmaNak q code)) h _
  refine ⟨?_, ?_, ?_, fun hk => ?_⟩
  · show _ ∈ ((s.emit (.rdmaNak q code)).qpError q).sent
    rw [(State.qpError_sent _ q).1]
    exact List.mem_append_right _ List.mem_cons_self
  · rw [hq]
    rfl
  · rw [hq]
    rfl
  · exact State.qpError_mem (s := s.emit (.rdmaNak q code)) h hk

/-! ### A request arrives -/

/-- The state with one request taken by a queue pair. -/
def State.qpTaken (s : State) (q : Nat) (x : Qp) (r : Held) : State := { s with net := { s.net with qps := put s.net.qps q { x with held := [r] } } }

section Arrivals

variable {s : State} {q : Nat} {x : Qp} (hx : look s.net.qps q = some x) (hs : x.state = .rts)

include hx

omit hx in
theorem State.qpTaken_qp (r : Held) : look (s.qpTaken q x r).net.qps q = some { x with held := [r] } := look_put_same ..

include hs

/-- A request on a queue pair with nothing held is served at once, or held. -/
theorem State.inbound_first (hh : x.held = []) (r : Held) : s.inbound q r = State.serveHeld 1 (s.qpTaken q x r) q := by
  unfold State.inbound
  rw [hx]
  dsimp only
  rw [if_neg (by rw [hs]; decide), hh, if_neg (by rw [List.filter_nil]; exact fun h => absurd h.2 (by decide))]
  show State.serveHeld 1 _ q = _
  rw [State.modQp_eq hx]
  dsimp only
  rw [hh]
  rfl

/-- What a served request leaves of the queue pair. -/
def Qp.unheld (x : Qp) (rest : List Held) : Qp := { x with held := if x.state = .error then [] else rest }

theorem State.inbound_served (hh : x.held = []) {r : Held} {t : State}
    (hi : (s.qpTaken q x r).serveInbound q { x with held := [r] } r = .inl t) : s.inbound q r = t.modQp q fun y => y.unheld [] := by
  rw [State.inbound_first hx hs hh]
  unfold State.serveHeld
  rw [State.qpTaken_qp]
  dsimp only
  rw [hi]
  rfl

theorem State.inbound_holds (hh : x.held = []) {r : Held} {st : Nat}
    (hi : (s.qpTaken q x r).serveInbound q { x with held := [r] } r = .inr st) :
    s.inbound q r = (s.qpTaken q x r).modQp q fun y => { y with held := [{ r with resetting := st == stResetting }] } := by
  rw [State.inbound_first hx hs hh]
  unfold State.serveHeld
  rw [State.qpTaken_qp]
  dsimp only
  rw [hi]

omit hx hs in
theorem State.modQp_keeps (s : State) (q : Nat) (f : Qp → Qp) : (s.modQp q f).mem = s.mem ∧ (s.modQp q f).sent = s.sent ∧
    (s.modQp q f).channels = s.channels ∧ (s.modQp q f).net.rxFree = s.net.rxFree ∧ (∀ p, (s.modQp q f).portSt p = s.portSt p) := by
  unfold State.modQp
  split <;> exact ⟨rfl, rfl, rfl, rfl, fun _ => rfl⟩

omit hx hs in
theorem State.NakFailed.unheld {t : State} {code : Nat} (h : s.NakFailed t q x code) : s.NakFailed (t.modQp q fun y => y.unheld []) q x code := by
  obtain ⟨k1, k2, -⟩ := t.modQp_keeps q fun y => y.unheld []
  obtain ⟨y, hy, hst⟩ := Option.map_eq_some_iff.mp h.state
  have hq := State.modQp_qp hy fun y => y.unheld []
  refine ⟨k2 ▸ h.sent, ?_, ?_, fun hk => k1.trans (h.mem hk)⟩
  · rw [hq]
    exact congrArg some hst
  · rw [hq]
    exact congrArg some (if_pos hst)

/-- A request that is refused with a NAK: the queue pair stands in ERROR. -/
theorem State.inbound_refused (hh : x.held = []) {r : Held} {u : State} {code : Nat} (hu : look u.net.qps q = some { x with held := [r] })
    (hm : u.mem = s.mem) (hi : (s.qpTaken q x r).serveInbound q { x with held := [r] } r = .inl (u.nakError q code)) :
    s.NakFailed (s.inbound q r) q x code := by
  rw [State.inbound_served hx hs hh hi]
  have hf := (State.nakError_fails hu (by rw [show ({ x with held := [r] } : Qp).state = .rts from hs]; decide) code).unheld
  exact ⟨hf.sent, hf.state, hf.held, fun hk => (hf.mem hk).trans hm⟩

end Arrivals

/-! ### Serving a request -/

/-- A WRITE or READ that its region allows, by the answer to its access. -/
def State.serveAccess (s : State) (q : Nat) (x : Qp) (r : Held) : State ⊕ Nat :=
  let s1 := s.countBusy r.va (s.answer (.rdma q) r.va r.len (r.op == 1))
  match s.answer (.rdma q) r.va r.len (r.op == 1) with
  | .fault => .inl (s1.nakError q nakAccess)
  | .status st => if st = stBadArg then .inl (s1.nakError q nakAccess) else .inr st
  | .go =>
    if r.op = 1 then .inl ((s.writeRange r.va r.data (List.replicate r.data.length false)).emit (.rdmaAck q))
    else
      let (s2, bs, ps) := s.readRange r.va r.len
      match ps.findIdx? id with
      | none => .inl (s2.emit (.rdmaData q bs))
      | some i =>
        let sent := bs.take (beforePoison x.mtu r.va i)
        let s3 := if sent.isEmpty then s2 else s2.emit (.rdmaData q sent)
        .inl ((s3.logEvent .rdmaPoisonRead { ut := utQp, ui := 0x100000 + q, address := unitBase (r.va + i) }).nakError q
          nakOperational)

section Serving

variable {s : State} {q : Nat} {x : Qp} {r : Held}

theorem mem_of_look {α : Type} {t : Tab α} {i : Nat} {v : α} (h : look t i = some v) : (i, v) ∈ t := by
  induction t with
  | nil => cases h
  | cons p t ih =>
    obtain ⟨k, w⟩ := p
    by_cases hk : i = k
    · have hv : w = v := Option.some.inj ((if_pos hk).symm.trans h)
      rw [hk, hv]
      exact List.mem_cons_self
    · exact List.mem_cons_of_mem _ (ih ((if_neg hk).symm.trans h))

theorem State.regionOk_bits {x : Qp} {rkey : Word} {va len : Nat} {w : Bool} (h : s.regionOk x rkey va len w = true) :
    bits rkey.toNat 19 8 ≠ 0 ∧ s.domainHolds x = true := by
  unfold State.regionOk at h
  simp only [Bool.and_eq_true, bne_iff_ne, ne_eq, beq_iff_eq] at h
  obtain ⟨⟨⟨⟨⟨⟨⟨-, hb⟩, hr⟩, -⟩, hd⟩, -⟩, -⟩, -⟩ := h
  refine ⟨hb, ?_⟩
  unfold State.domainHolds
  rw [Bool.or_eq_true, List.any_eq_true]
  refine .inr ?_
  cases hl : look s.net.regions (bits rkey.toNat 19 8) with
  | none =>
    unfold lookD at hr
    rw [hl] at hr
    cases hr
  | some g =>
    have hg : lookD s.net.regions (bits rkey.toNat 19 8) {} = g := by
      unfold lookD
      rw [hl]
      rfl
    rw [hg] at hr hd
    exact ⟨(_, g), mem_of_look hl, by rw [hr, hd]; exact beq_self_eq_true _⟩

theorem State.serveInbound_region (hop : r.op ≠ 2) (hz : sizeOk r.len = true) (hm : x.kind ≠ .mgmt)
    (hr : s.regionOk x r.rkey r.va r.len (r.op == 1) = true) : s.serveInbound q x r = s.serveAccess q x r := by
  obtain ⟨hb, hd⟩ := State.regionOk_bits hr
  unfold State.serveInbound
  rw [if_neg hop, hd, hz, if_neg (by decide), if_neg hb, hr, if_neg (fun h => h.elim hm (by decide))]
  rfl

theorem State.serveInbound_denied (hop : r.op ≠ 2) (hz : sizeOk r.len = true) (hd : s.domainHolds x = true) (hb : bits r.rkey.toNat 19 8 ≠ 0)
    (hr : s.regionOk x r.rkey r.va r.len (r.op == 1) = false) : s.serveInbound q x r = .inl (s.nakError q nakAccess) := by
  unfold State.serveInbound
  rw [if_neg hop, hd, hz, if_neg (by decide), if_neg hb, hr, if_pos (.inr rfl)]

theorem State.serveInbound_noRegion (hop : r.op ≠ 2) (hd : s.domainHolds x = false) : s.serveInbound q x r = .inl (s.nakError q nakInvalid) := by
  unfold State.serveInbound
  rw [if_neg hop, hd]
  rfl

theorem State.serveInbound_noService (hop : r.op = 2) (hk : ∀ set, x.kind ≠ .service set) :
    s.serveInbound q x r = .inl (s.nakError q nakInvalid) := by
  unfold State.serveInbound
  rw [if_pos hop]
  split
  next i hi => exact absurd hi (hk i)
  · rfl

theorem State.countBusy_keeps (s : State) (a : Nat) (v : Ans) : (s.countBusy a v).mem = s.mem ∧ (s.countBusy a v).net = s.net := by
  unfold State.countBusy
  split
  · exact ⟨rfl, rfl⟩
  · exact ⟨rfl, rfl⟩
  · exact ⟨rfl, rfl⟩
  · split <;> exact ⟨rfl, rfl⟩
  · split <;> exact ⟨rfl, rfl⟩
  · exact ⟨rfl, rfl⟩

/-- An access that faults, or meets a package out of service, is refused. -/
theorem State.serveAccess_refused
    (h : s.answer (.rdma q) r.va r.len (r.op == 1) = .fault ∨ s.answer (.rdma q) r.va r.len (r.op == 1) = .status stBadArg) :
    ∃ v, s.serveAccess q x r = .inl ((s.countBusy r.va v).nakError q nakAccess) := by
  unfold State.serveAccess
  rcases h with h | h
  · exact ⟨.fault, by rw [h]⟩
  · exact ⟨.status stBadArg, by rw [h]; rfl⟩

theorem State.serveAccess_held {st : Nat} (h : s.answer (.rdma q) r.va r.len (r.op == 1) = .status st) (hst : st ≠ stBadArg) :
    s.serveAccess q x r = .inr st := by
  unfold State.serveAccess
  rw [h]
  exact if_neg hst

theorem State.serveAccess_write (h : s.answer (.rdma q) r.va r.len (r.op == 1) = .go) (hop : r.op = 1) :
    s.serveAccess q x r = .inl ((s.writeRange r.va r.data (List.replicate r.data.length false)).emit (.rdmaAck q)) := by
  unfold State.serveAccess
  rw [h]
  exact if_pos hop

theorem State.serveAccess_read (h : s.answer (.rdma q) r.va r.len (r.op == 1) = .go) (hop : r.op = 0) {m off : Nat}
    (hp : place r.va = .outer m off) (hf : s.mem.flipUnits r.va r.len = [])
    (hm : ∀ i, i < r.len → s.mem.marked (unitBase (r.va + i)) = false) :
    s.serveAccess q x r = .inl (s.emit (.rdmaData q (s.mem.read r.va r.len))) := by
  have hr : s.readRange r.va r.len = (s, s.mem.read r.va r.len, (List.range r.len).map fun i => s.mem.marked (unitBase (r.va + i))) := by
    unfold State.readRange
    rw [hp, hf]
    rfl
  have hn : ((List.range r.len).map fun i => s.mem.marked (unitBase (r.va + i))).findIdx? id = none := by
    rw [List.findIdx?_eq_none_iff]
    intro b hb
    obtain ⟨i, hi, rfl⟩ := List.mem_map.mp hb
    exact hm i (List.mem_range.mp hi)
  unfold State.serveAccess
  rw [h, hr]
  dsimp only
  rw [if_neg (by rw [hop]; decide), hn]

end Serving

/-! ### Records that arrive -/

/-- A record that finds a buffer and a word of its channel. -/
def State.recordTaken (s : State) (q set : Nat) : State :=
  (((s.onNet fun n => { n with rxFree := n.rxFree - 1 }).onChannel inboxEp set fun c =>
    ({ c with words := c.words ++ [{ kind := .endK, data := leBytes 4 q ++ leBytes 28 0, poison := false }] } : Channel).marks)).emit (.rdmaAck q)

section Records

variable {s : State} {q set len port : Nat} (h0 : 0 < len) (h64 : len ≤ 65536)

include h0 h64

theorem State.inboundSend_taken (h : ¬ (s.fw.schRestart = true ∨ s.net.rxFree = 0 ∨
    (s.channel inboxEp set).depth ≤ (s.channel inboxEp set).words.length + 1)) : s.inboundSend q set len port = s.recordTaken q set := by
  unfold State.inboundSend
  dsimp only
  rw [if_neg (by omega), if_neg h]
  rfl

theorem State.inboundSend_full (h : s.fw.schRestart = true ∨ s.net.rxFree = 0 ∨
    (s.channel inboxEp set).depth ≤ (s.channel inboxEp set).words.length + 1) :
    s.inboundSend q set len port = (s.modPort port fun p => { p with rnrNakTx := satAdd 16 p.rnrNakTx 1 }).emit (.rdmaNak q nakRnr) := by
  unfold State.inboundSend
  dsimp only
  rw [if_neg (by omega), if_pos h]

end Records

theorem State.recordTaken_words (s : State) (q set : Nat) :
    ((s.recordTaken q set).channel inboxEp set).words.length = (s.channel inboxEp set).words.length + 1 := by
  have he (u : State) (m : Sent) : (u.emit m).channel inboxEp set = u.channel inboxEp set := rfl
  unfold State.recordTaken
  rw [he, State.onChannel_channel, (Channel.marks_fields _).1]
  exact List.length_append

/-! ### The obligation -/

theorem State.qpTaken_answer (s : State) (q : Nat) (x : Qp) (r : Held) (g : Agent) (a n : Nat) (w : Bool) :
    (s.qpTaken q x r).answer g a n w = s.answer g a n w := rfl

theorem State.qpTaken_regionOk (s : State) (q : Nat) (x : Qp) (r : Held) (h : List Held) (k : Word) (a n : Nat) (w : Bool) :
    (s.qpTaken q x r).regionOk { x with held := h } k a n w = s.regionOk x k a n w := rfl

/-- A WRITE on a queue pair. -/
def writeReq (rkey : Word) (va : Nat) (bs : List Byte) : Held := { op := 1, rkey := rkey, va := va, len := bs.length, data := bs }

/-- A READ on a queue pair. -/
def readReq (rkey : Word) (va len : Nat) : Held := { op := 0, rkey := rkey, va := va, len := len }

theorem State.serveTaken_write {s : State} {q : Nat} {x : Qp} {rkey : Word} {va : Nat} {bs : List Byte} (hz : sizeOk bs.length = true)
    (hm : x.kind ≠ .mgmt) (hr : s.regionOk x rkey va bs.length true = true) :
    (s.qpTaken q x (writeReq rkey va bs)).serveInbound q { x with held := [writeReq rkey va bs] } (writeReq rkey va bs) =
      (s.qpTaken q x (writeReq rkey va bs)).serveAccess q { x with held := [writeReq rkey va bs] } (writeReq rkey va bs) :=
  State.serveInbound_region (show (1 : Nat) ≠ 2 by decide) hz hm ((State.qpTaken_regionOk ..).trans hr)

theorem State.serveTaken_read {s : State} {q : Nat} {x : Qp} {rkey : Word} {va len : Nat} (hz : sizeOk len = true)
    (hm : x.kind ≠ .mgmt) (hr : s.regionOk x rkey va len false = true) :
    (s.qpTaken q x (readReq rkey va len)).serveInbound q { x with held := [readReq rkey va len] } (readReq rkey va len) =
      (s.qpTaken q x (readReq rkey va len)).serveAccess q { x with held := [readReq rkey va len] } (readReq rkey va len) :=
  State.serveInbound_region (show (0 : Nat) ≠ 2 by decide) hz hm ((State.qpTaken_regionOk ..).trans hr)

section Inbound

variable {s : State} {q : Nat} {x : Qp} (hx : look s.net.qps q = some x) (hs : x.state = .rts) (hh : x.held = [])

include hx hs hh

theorem State.send_spec {set len : Nat} (hk : x.kind = .service set) :
    exec (.send q len) s = .next (((s.qpTaken q x { op := 2, len := len }).inboundSend q set len x.port).modQp q fun y => y.unheld []) := by
  refine congrArg Host.Outcome.next (State.inbound_served hx hs hh ?_)
  unfold State.serveInbound
  rw [if_pos rfl]
  dsimp only
  rw [hk]

theorem State.send_taken {set len : Nat} (hk : x.kind = .service set) (h0 : 0 < len) (h64 : len ≤ 65536)
    (hf : ¬ (s.fw.schRestart = true ∨ s.net.rxFree = 0 ∨ (s.channel inboxEp set).depth ≤ (s.channel inboxEp set).words.length + 1)) :
    ∃ t, exec (.send q len) s = .next t ∧ t.net.rxFree = s.net.rxFree - 1 ∧
      (t.channel inboxEp set).words.length = (s.channel inboxEp set).words.length + 1 ∧ t.sent = s.sent ++ [.rdmaAck q] := by
  refine ⟨_, State.send_spec hx hs hh hk, ?_⟩
  rw [State.inboundSend_taken (s := s.qpTaken q x _) h0 h64 hf]
  obtain ⟨-, k2, k3, k4, -⟩ := ((s.qpTaken q x { op := 2, len := len }).recordTaken q set).modQp_keeps q fun y => y.unheld []
  refine ⟨k4, ?_, k2⟩
  rw [State.channel, k3]
  exact (s.qpTaken q x { op := 2, len := len }).recordTaken_words q set

theorem State.send_full {set len : Nat} (hk : x.kind = .service set) (h0 : 0 < len) (h64 : len ≤ 65536)
    (hf : s.fw.schRestart = true ∨ s.net.rxFree = 0 ∨ (s.channel inboxEp set).depth ≤ (s.channel inboxEp set).words.length + 1) :
    ∃ t, exec (.send q len) s = .next t ∧ (t.portSt x.port).rnrNakTx = satAdd 16 (s.portSt x.port).rnrNakTx 1 ∧
      t.sent = s.sent ++ [.rdmaNak q nakRnr] ∧ t.channels = s.channels := by
  refine ⟨_, State.send_spec hx hs hh hk, ?_⟩
  rw [State.inboundSend_full (s := s.qpTaken q x _) h0 h64 hf]
  obtain ⟨-, k2, k3, -, k5⟩ := (((s.qpTaken q x { op := 2, len := len }).modPort x.port fun p => { p with
    rnrNakTx := satAdd 16 p.rnrNakTx 1 }).emit (.rdmaNak q nakRnr)).modQp_keeps q fun y => y.unheld []
  refine ⟨?_, k2, k3⟩
  rw [k5, State.emit_portSt, State.modPort_portSt]
  rfl

theorem State.write_goes {rkey : Word} {va : Nat} {bs : List Byte} (hz : sizeOk bs.length = true) (hm : x.kind ≠ .mgmt)
    (hr : s.regionOk x rkey va bs.length true = true) (hgo : s.answer (.rdma q) va bs.length true = .go) (hw : s.MemOk)
    (he : ∀ u, s.mem.errsOf u = []) : ∃ t, exec (.rdmaWrite q rkey va bs) s = .next t ∧ t.mem.read va bs.length = bs ∧
      (∀ a, (a < va ∨ va + bs.length ≤ a) → t.mem.byte a = s.mem.byte a) ∧ t.sent = s.sent ++ [.rdmaAck q] := by
  have hu := (s.qpTaken q x (writeReq rkey va bs)).writeRange_stored hw (Mem.flips_of_clean he) va bs (List.replicate bs.length false)
  have hacc := (State.serveTaken_write (q := q) hz hm hr).trans (State.serveAccess_write ((State.qpTaken_answer ..).trans hgo) rfl)
  obtain ⟨k1, k2, -⟩ := (((s.qpTaken q x (writeReq rkey va bs)).writeRange va bs (List.replicate bs.length false)).emit
    (.rdmaAck q)).modQp_keeps q fun y => y.unheld []
  refine ⟨_, congrArg Host.Outcome.next (State.inbound_served hx hs hh hacc), ?_, fun a ha => ?_, k2.trans ?_⟩
  · exact (congrArg (fun m : Mem => m.read va bs.length) k1).trans hu.read
  · exact (congrArg (fun m : Mem => m.byte a) k1).trans (hu.outside a ha)
  · exact congrArg (· ++ [_]) ((s.qpTaken q x (writeReq rkey va bs)).writeRange_accessed va bs _).sent

theorem State.write_held {rkey : Word} {va st : Nat} {bs : List Byte} (hz : sizeOk bs.length = true) (hm : x.kind ≠ .mgmt)
    (hr : s.regionOk x rkey va bs.length true = true) (ha : s.answer (.rdma q) va bs.length true = .status st) (hst : st ≠ stBadArg) :
    ∃ t, exec (.rdmaWrite q rkey va bs) s = .next t ∧ t.mem = s.mem ∧ t.sent = s.sent ∧
      (look t.net.qps q).map (·.held) = some [{ op := 1, rkey := rkey, va := va, len := bs.length, data := bs, resetting := st == stResetting }] := by
  have hacc := (State.serveTaken_write (q := q) hz hm hr).trans (State.serveAccess_held ((State.qpTaken_answer ..).trans ha) hst)
  refine ⟨_, congrArg Host.Outcome.next (State.inbound_holds hx hs hh hacc), ?_, ?_, ?_⟩
  · exact (State.modQp_keeps _ q _).1
  · exact (State.modQp_keeps _ q _).2.1
  · rw [State.modQp_qp (State.qpTaken_qp _)]
    rfl

theorem State.write_refused {rkey : Word} {va : Nat} {bs : List Byte} (hz : sizeOk bs.length = true) (hm : x.kind ≠ .mgmt)
    (hr : s.regionOk x rkey va bs.length true = true)
    (ha : s.answer (.rdma q) va bs.length true = .fault ∨ s.answer (.rdma q) va bs.length true = .status stBadArg) :
    ∃ t, exec (.rdmaWrite q rkey va bs) s = .next t ∧ s.NakFailed t q x nakAccess := by
  obtain ⟨v, hv⟩ := State.serveAccess_refused (s := s.qpTaken q x (writeReq rkey va bs)) (q := q)
    (x := { x with held := [writeReq rkey va bs] }) (r := writeReq rkey va bs) (by rw [State.qpTaken_answer]; exact ha)
  obtain ⟨c1, c2⟩ := (s.qpTaken q x (writeReq rkey va bs)).countBusy_keeps va v
  exact ⟨_, rfl, State.inbound_refused hx hs hh (by rw [show State.net _ = _ from c2]; exact State.qpTaken_qp _) c1
    ((State.serveTaken_write hz hm hr).trans hv)⟩

theorem State.read_goes {rkey : Word} {va len m off : Nat} (hz : sizeOk len = true) (hm : x.kind ≠ .mgmt)
    (hr : s.regionOk x rkey va len false = true) (hgo : s.answer (.rdma q) va len false = .go) (hp : place va = .outer m off)
    (hf : s.mem.flipUnits va len = []) (hmk : ∀ i, i < len → s.mem.marked (unitBase (va + i)) = false) :
    ∃ t, exec (.rdmaRead q rkey va len) s = .next t ∧ t.mem = s.mem ∧ t.sent = s.sent ++ [.rdmaData q (s.mem.read va len)] := by
  have hacc := (State.serveTaken_read (q := q) hz hm hr).trans (State.serveAccess_read ((State.qpTaken_answer ..).trans hgo) rfl hp hf hmk)
  refine ⟨_, congrArg Host.Outcome.next (State.inbound_served hx hs hh hacc), ?_, ?_⟩
  · exact (State.modQp_keeps _ q _).1
  · exact (State.modQp_keeps _ q _).2.1

end Inbound

/-- A request behind held ones waits. -/
theorem State.inbound_behind {s : State} {q : Nat} {x : Qp} {r : Held} {rest : List Held} (hx : look s.net.qps q = some x) (hs : x.state = .rts)
    (hh : x.held = r :: rest) {n : Held} (hn : n.op ≠ 0) : s.inbound q n = s.modQp q fun x => { x with held := x.held ++ [n] } := by
  unfold State.inbound
  rw [hx]
  dsimp only
  rw [if_neg (by rw [hs]; decide), if_neg (fun h => hn h.1), hh]
  rfl

section Held

variable {s : State} {q : Nat} {x : Qp} {r : Held} {rest : List Held} (hx : look s.net.qps q = some x) (hh : x.held = r :: rest)

include hx hh

theorem State.heldRetry_waits {st : Nat} (hi : s.serveInbound q x r = .inr st) : exec (.heldRequestRetry q) s =
    .next (s.modQp q fun x => { x with held := { r with resetting := st == stResetting } :: rest }) := by
  show execHeldRequestRetry q s = _
  unfold execHeldRequestRetry
  rw [hx]
  dsimp only
  rw [hh, List.length_cons]
  unfold State.serveHeld
  rw [hx]
  dsimp only
  rw [hh]
  dsimp only
  rw [hi]

theorem State.heldRetry_last {t : State} (hr : rest = []) (hi : s.serveInbound q x r = .inl t) :
    exec (.heldRequestRetry q) s = .next (t.modQp q fun y => y.unheld []) := by
  subst hr
  show execHeldRequestRetry q s = _
  unfold execHeldRequestRetry
  rw [hx]
  dsimp only
  rw [hh]
  show Host.Outcome.next (State.serveHeld 1 s q) = _
  unfold State.serveHeld
  rw [hx]
  dsimp only
  rw [hh]
  dsimp only
  rw [hi]
  rfl

theorem State.holdLimit_fails : exec (.holdLimitExpiry q) s = .next (s.nakError q nakOperational) := by
  show execHoldLimitExpiry q s = _
  unfold execHoldLimitExpiry
  rw [hx]
  dsimp only
  rw [hh]
  rfl

end Held

/-- Settles O45: a request is served by `State.inbound_served`, refused by `State.inbound_refused`, or held by `State.inbound_holds`. -/
theorem inboundRequestsAreServed : Obligations.InboundRequestsAreServed := by
  unfold Obligations.InboundRequestsAreServed
  intro q x s hx hs failed
  have hfail {code : Nat} {t : State} (h : s.NakFailed t q x code) : failed code t := ⟨h.sent, h.state, h.held, h.mem⟩
  refine ⟨fun hh => ⟨fun set len hk h0 h64 => ?_, fun len hk => ?_, fun rkey va len hd => ?_, fun rkey va bs hz hd hb hr => ?_,
    fun rkey va bs hz hm hr => ⟨fun hgo hw he => State.write_goes hx hs hh hz hm hr hgo hw he,
      fun st ha hst => State.write_held hx hs hh hz hm hr ha hst, fun ha => ?_⟩,
    fun rkey va len m off hz hm hr hgo hp hf hmk => State.read_goes hx hs hh hz hm hr hgo hp hf hmk⟩, fun r rest hh => ⟨fun rkey va bs =>
      congrArg Host.Outcome.next (State.inbound_behind hx hs hh (show (1 : Nat) ≠ 0 by decide)), fun st hi => State.heldRetry_waits hx hh hi, fun t hr hi => ?_, ?_⟩⟩
  · exact ⟨fun hf => State.send_taken hx hs hh hk h0 h64 hf, fun hf => State.send_full hx hs hh hk h0 h64 hf⟩
  · exact ⟨_, rfl, hfail (State.inbound_refused hx hs hh (State.qpTaken_qp _) rfl (State.serveInbound_noService rfl hk))⟩
  · exact ⟨_, rfl, hfail (State.inbound_refused hx hs hh (State.qpTaken_qp _) rfl (State.serveInbound_noRegion (x := { x with held := _ }) (show (0 : Nat) ≠ 2 by decide) hd))⟩
  · exact ⟨_, rfl, hfail (State.inbound_refused hx hs hh (State.qpTaken_qp _) rfl
      (State.serveInbound_denied (x := { x with held := _ }) (show (1 : Nat) ≠ 2 by decide) hz hd hb hr))⟩
  · obtain ⟨t, he, hf⟩ := State.write_refused hx hs hh hz hm hr ha
    exact ⟨t, he, hfail hf⟩
  · obtain ⟨k1, k2, -⟩ := t.modQp_keeps q fun y => y.unheld []
    refine ⟨_, State.heldRetry_last hx hh hr hi, k2, k1, fun y hy => ?_⟩
    rw [State.modQp_qp hy]
    exact congrArg some (ite_self [])
  · exact ⟨_, State.holdLimit_fails hx hh, hfail (State.nakError_fails hx (by rw [hs]; decide) _)⟩

end Sys2Proof.Machine
end

