-- ==== Sys2Proof/Proofs/EthernetFrames.lean ====
section
/-!
Ethernet ports: received frames, the check of addresses, leases, and the small protocols.
-/

namespace Sys2Proof.Machine

/-! ### An address withdrawn -/

/-- Port `k'` is `k` but for what the error of a queue pair counts and frees there. -/
def PortSt.QpEnded (k k' : PortSt) : Prop := k' = { k with qpErrors := k'.qpErrors, readBytes := k'.readBytes, readWait := k'.readWait }

theorem PortSt.QpEnded.trans {k k₁ k₂ : PortSt} (h₁ : k.QpEnded k₁) (h₂ : k₁.QpEnded k₂) : k.QpEnded k₂ := by
  unfold PortSt.QpEnded at *
  rw [h₂, h₁]

theorem State.qpError_absent {s : State} {q : Nat} (h : look s.net.qps q = none) : s.qpError q = s := by
  unfold State.qpError
  rw [h]

theorem State.qpError_again {s : State} {q : Nat} {x : Qp} (h : look s.net.qps q = some x) (hs : x.state = .error) : s.qpError q = s := by
  unfold State.qpError
  rw [h]
  exact if_pos hs

theorem State.qpError_port (s : State) (q p : Nat) : (s.portSt p).QpEnded ((s.qpError q).portSt p) := by
  cases h : look s.net.qps q with
  | none =>
    rw [State.qpError_absent h]
    rfl
  | some x =>
    by_cases hs : x.state = .error
    · rw [State.qpError_again h hs]
      rfl
    · have hp : (s.qpError q).portSt p = (s.qpStopped q x).portSt p := by
        rw [State.portSt, State.qpError_net h hs]
        rfl
      rw [hp]
      unfold State.qpStopped
      have hm : (s.modQp q fun x => { x with state := .error, outstanding := [], reads := [], held := [] }).portSt p = s.portSt p :=
        (s.modQp_keeps q _).2.2.2.2 p
      by_cases hx : p = x.port
      · subst hx
        rw [State.modPort_portSt, hm]
        rfl
      · rw [State.modPort_portSt_ne _ _ hx, hm]
        rfl

theorem State.qpError_other (s : State) {q r : Nat} (hr : r ≠ q) : look (s.qpError q).net.qps r = look s.net.qps r := by
  cases h : look s.net.qps q with
  | none => rw [State.qpError_absent h]
  | some x =>
    by_cases hs : x.state = .error
    · rw [State.qpError_again h hs]
    · rw [State.qpError_net h hs]
      unfold State.qpStopped
      rw [State.modQp_eq h]
      exact look_put_ne _ _ hr

/-- Queue pairs put in ERROR one after another. -/
theorem State.foldl_qpError_port (l : List Nat) (s : State) (p : Nat) : (s.portSt p).QpEnded ((l.foldl State.qpError s).portSt p) := by
  induction l generalizing s with
  | nil => rfl
  | cons q l ih => exact (s.qpError_port q p).trans (ih (s.qpError q))

theorem State.foldl_qpError_state {l : List Nat} {q : Nat} (hq : q ∈ l) {s : State} {x : Qp} (hx : look s.net.qps q = some x) :
    (look (l.foldl State.qpError s).net.qps q).map (·.state) = some .error := by
  have hkeep (m : List Nat) : ∀ {u : State}, (look u.net.qps q).map (·.state) = some .error →
      (look (m.foldl State.qpError u).net.qps q).map (·.state) = some .error := by
    induction m with
    | nil => exact fun h => h
    | cons r m ih =>
      intro u hu
      refine ih ?_
      by_cases hr : q = r
      · obtain ⟨y, hy, -⟩ := Option.map_eq_some_iff.mp hu
        exact hr ▸ State.qpError_state hy
      · rw [u.qpError_other hr]
        exact hu
  induction l generalizing s x with
  | nil => cases hq
  | cons r l ih =>
    by_cases hr : q = r
    · exact hkeep l (hr ▸ State.qpError_state hx)
    · exact ih ((List.mem_cons.mp hq).resolve_left hr) ((s.qpError_other hr).trans hx)

/-- A port whose address of a family is withdrawn. -/
def PortSt.withdrawn (k : PortSt) (v6 : Bool) : PortSt := if v6 then { k with ipv6State := .withdrawn } else { k with ipv4State := .withdrawn }

/-- The state of an address of a family, and of its DHCP client. -/
def PortSt.use (k : PortSt) (v6 : Bool) : AddrState := if v6 then k.ipv6State else k.ipv4State

/-- The DHCP client of a family. -/
def PortSt.dhcp (k : PortSt) (v6 : Bool) : Dhcp := if v6 then k.dhcp6 else k.dhcp4

theorem PortSt.QpEnded.use {k k' : PortSt} (h : k.QpEnded k') (v6 : Bool) : k'.use v6 = k.use v6 := by
  rw [h]
  rfl

theorem State.withdraw_port (s : State) (p : Nat) (v6 : Bool) : ((s.portSt p).withdrawn v6).QpEnded ((s.withdraw p v6).portSt p) := by
  have h := State.foldl_qpError_port ((s.modPort p fun k => k.withdrawn v6).qpsOfGid p (if v6 then 2 else 1)) (s.modPort p fun k => k.withdrawn v6) p
  rw [State.modPort_portSt] at h
  exact h

theorem PortSt.withdrawn_use (k : PortSt) (v6 : Bool) : (k.withdrawn v6).use v6 = .withdrawn := by
  cases v6 <;> rfl

theorem State.withdraw_use (s : State) (p : Nat) (v6 : Bool) : ((s.withdraw p v6).portSt p).use v6 = .withdrawn :=
  ((s.withdraw_port p v6).use v6).trans (PortSt.withdrawn_use _ v6)

theorem State.withdraw_qps (s : State) (p : Nat) (v6 : Bool) {q : Nat} {x : Qp} (hx : look s.net.qps q = some x) (hp : x.port = p)
    (hg : x.gidIndex = if v6 then 2 else 1) : (look (s.withdraw p v6).net.qps q).map (·.state) = some .error := by
  refine State.foldl_qpError_state ?_ (s := s.modPort p fun k => k.withdrawn v6) hx
  refine List.mem_map.mpr ⟨(q, x), List.mem_filter.mpr ⟨mem_of_look hx, ?_⟩, rfl⟩
  rw [hp, hg]
  simp

/-! ### The check of an address -/

/-- A port whose address of a family has come into a state. -/
def PortSt.withUse (k : PortSt) (v6 : Bool) (a : AddrState) : PortSt := if v6 then { k with ipv6State := a } else { k with ipv4State := a }

theorem PortSt.withUse_use (k : PortSt) (v6 : Bool) (a : AddrState) : (k.withUse v6 a).use v6 = a := by
  cases v6 <;> rfl

/-- A port whose DHCP client of a family has come into a state. -/
def PortSt.withDhcp (k : PortSt) (v6 : Bool) (d : Dhcp) : PortSt := if v6 then { k with dhcp6 := d } else { k with dhcp4 := d }

theorem PortSt.withDhcp_dhcp (k : PortSt) (v6 : Bool) (d : Dhcp) : (k.withDhcp v6 d).dhcp v6 = d := by
  cases v6 <;> rfl

theorem PortSt.withDhcp_use (k : PortSt) (v6 : Bool) (d : Dhcp) : (k.withDhcp v6 d).use v6 = k.use v6 := by
  cases v6 <;> rfl

/-- The tags of the frames that a port sends for itself. -/
def PortSt.SameTags (k k' : PortSt) : Prop :=
  k'.sentTag k'.pcpCnp = k.sentTag k.pcpCnp ∧ k'.dscpCnp = k.dscpCnp ∧ k'.sentTag k'.pcpCtl = k.sentTag k.pcpCtl

theorem State.frameOf_congr {s t : State} {p : Nat} (h : (s.portSt p).SameTags (t.portSt p)) (what : Nat) : t.frameOf p what = s.frameOf p what := by
  obtain ⟨h1, h2, h3⟩ := h
  unfold State.frameOf
  dsimp only
  rw [h1, h2, h3]

theorem State.modPort_sendFrame (s : State) {p : Nat} {f : PortSt → PortSt} (h : (s.portSt p).SameTags (f (s.portSt p))) (what : Nat) :
    ((s.modPort p f).sendFrame p what).sent = s.sent ++ [s.frameOf p what] ∧
      ((s.modPort p f).sendFrame p what).portSt p = f (s.portSt p) := by
  refine ⟨congrArg (s.sent ++ [·]) (State.frameOf_congr ?_ what), s.modPort_portSt p f⟩
  rw [State.modPort_portSt]
  exact h

theorem PortSt.withUse_tags (k : PortSt) (v6 : Bool) (a : AddrState) : k.SameTags (k.withUse v6 a) := by
  cases v6 <;> exact ⟨rfl, rfl, rfl⟩

theorem PortSt.withDhcp_tags (k : PortSt) (v6 : Bool) (d : Dhcp) : k.SameTags (k.withDhcp v6 d) := by
  cases v6 <;> exact ⟨rfl, rfl, rfl⟩

section Checks

variable {s : State} {p : Nat} {v6 : Bool} {n : Nat} (h : (s.portSt p).use v6 = .probing n)

include h

theorem State.duplicate_probing : s.duplicate p v6 = (s.modPort p fun k => k.withUse v6 .none).logEvent .ethAddrDup { ut := utPort, ui := p } := by
  unfold State.duplicate
  unfold PortSt.use at h
  dsimp only
  rw [h]
  rfl

theorem State.addressProbe_duplicate : ∃ t, exec (.addressProbe p v6 true) s = .next t ∧ (t.portSt p).use v6 = .none ∧
    t.log = (s.logEvent .ethAddrDup { ut := utPort, ui := p }).log := by
  refine ⟨s.duplicate p v6, ?_, ?_, ?_⟩
  · show execAddressProbe p v6 true s = _
    unfold execAddressProbe
    unfold PortSt.use at h
    dsimp only
    rw [h]
    rfl
  · rw [State.duplicate_probing h, State.logEvent_portSt, State.modPort_portSt, PortSt.withUse_use]
  · rw [State.duplicate_probing h]
    exact State.logEvent_log_congr rfl rfl _ _

theorem State.addressProbe_passes : ∃ t, exec (.addressProbe p v6 false) s = .next t ∧
    (t.portSt p).use v6 = (if n ≤ 1 then .ok else .probing (n - 1)) ∧ t.sent = s.sent ++ (if n ≤ 1 then [] else [s.frameOf p frProbe]) := by
  have he : exec (.addressProbe p v6 false) s = if n ≤ 1 then .next (s.modPort p fun k => k.withUse v6 .ok)
      else .next ((s.modPort p fun k => k.withUse v6 (.probing (n - 1))).sendFrame p frProbe) := by
    show execAddressProbe p v6 false s = _
    unfold execAddressProbe
    unfold PortSt.use at h
    dsimp only
    rw [h]
    rfl
  rw [he]
  by_cases hn : n ≤ 1
  · rw [if_pos hn, if_pos hn, if_pos hn]
    refine ⟨_, rfl, ?_, (List.append_nil _).symm⟩
    rw [State.modPort_portSt, PortSt.withUse_use]
  · rw [if_neg hn, if_neg hn, if_neg hn]
    obtain ⟨h1, h2⟩ := s.modPort_sendFrame (f := fun k => k.withUse v6 (.probing (n - 1))) ((s.portSt p).withUse_tags ..) frProbe
    refine ⟨_, rfl, ?_, h1⟩
    rw [h2, PortSt.withUse_use]

end Checks

/-! ### Leases -/

section Leases

variable {s : State} {p : Nat} {v6 : Bool}

theorem State.dhcpRenew_asks (h : (s.portSt p).dhcp v6 = .bound) : ∃ t, exec (.dhcpRenew p v6) s = .next t ∧
    (t.portSt p).dhcp v6 = .renewing ∧ t.sent = s.sent ++ [s.frameOf p frDhcp] := by
  obtain ⟨h1, h2⟩ := s.modPort_sendFrame (f := fun k => k.withDhcp v6 .renewing) ((s.portSt p).withDhcp_tags ..) frDhcp
  refine ⟨_, (if_neg (Classical.not_not.mpr h)).trans rfl, ?_, h1⟩
  exact (congrArg (PortSt.dhcp · v6) h2).trans (PortSt.withDhcp_dhcp ..)

theorem State.dhcpRebind_asks (h : (s.portSt p).dhcp v6 = .renewing) : ∃ t, exec (.dhcpRebind p v6) s = .next t ∧
    (t.portSt p).dhcp v6 = .rebinding ∧ t.sent = s.sent ++ [s.frameOf p frDhcp] := by
  obtain ⟨h1, h2⟩ := s.modPort_sendFrame (f := fun k => k.withDhcp v6 .rebinding) ((s.portSt p).withDhcp_tags ..) frDhcp
  refine ⟨_, (if_neg (Classical.not_not.mpr h)).trans rfl, ?_, h1⟩
  exact (congrArg (PortSt.dhcp · v6) h2).trans (PortSt.withDhcp_dhcp ..)

theorem State.leaseExpiry_withdraws (h : (s.portSt p).dhcp v6 = .renewing ∨ (s.portSt p).dhcp v6 = .rebinding) :
    ∃ t, exec (.leaseExpiry p v6) s = .next t ∧ (t.portSt p).dhcp v6 = .selecting ∧ (t.portSt p).use v6 = .withdrawn ∧
      ∀ q x, look s.net.qps q = some x → x.port = p → x.gidIndex = (if v6 then 2 else 1) →
        (look t.net.qps q).map (·.state) = some .error := by
  have hgo : ¬ ((s.portSt p).dhcp v6 = .off ∨ (s.portSt p).dhcp v6 = .selecting) := by
    rcases h with h | h <;> rw [h] <;> decide
  have hp : ((((s.withdraw p v6).modPort p fun k => k.withDhcp v6 .selecting).sendFrame p frDhcp).portSt p) =
      ((s.withdraw p v6).portSt p).withDhcp v6 .selecting := (s.withdraw p v6).modPort_portSt p fun k => k.withDhcp v6 .selecting
  refine ⟨((s.withdraw p v6).modPort p fun k => k.withDhcp v6 .selecting).sendFrame p frDhcp, (if_neg hgo).trans rfl, ?_, ?_,
    fun q x hx hport hg => s.withdraw_qps p v6 hx hport hg⟩
  · rw [hp, PortSt.withDhcp_dhcp]
  · rw [hp, PortSt.withDhcp_use]
    exact s.withdraw_use p v6

/-- The check of an address begins. -/
theorem State.probe_begins (u : State) (p : Nat) (v6 : Bool) :
    (u.probe p v6).portSt p = (u.portSt p).withUse v6 (.probing (if v6 then 1 else 3)) ∧
      (u.probe p v6).sent = u.sent ++ [u.frameOf p frProbe] := by
  cases v6 with
  | true =>
    obtain ⟨h1, h2⟩ := u.modPort_sendFrame (f := fun k => k.withUse true (.probing 1)) ((u.portSt p).withUse_tags ..) frProbe
    exact ⟨h2, h1⟩
  | false =>
    obtain ⟨h1, h2⟩ := u.modPort_sendFrame (f := fun k => k.withUse false (.probing 3)) ((u.portSt p).withUse_tags ..) frProbe
    exact ⟨h2, h1⟩

/-- A port that takes over what a DHCP reply gives, its address to be checked. -/
def PortSt.leased (k : PortSt) (v6 : Bool) (a : BitVec 128) (n : Nat) (own r : Word) : PortSt :=
  if v6 then { k with dhcp6 := .bound, ipv6 := a, ipv6Len := n }
  else { k with dhcp4 := .bound, ipv4Router := if own ≠ 0 then own else if r = 0 then k.ipv4Router else r, ipv4 := BitVec.ofNat 32 a.toNat
                ipv4Len := n }

theorem PortSt.leased_tags (k : PortSt) (v6 : Bool) (a : BitVec 128) (n : Nat) (own r : Word) : k.SameTags (k.leased v6 a n own r) := by
  cases v6 <;> exact ⟨rfl, rfl, rfl⟩

/-- A new address is bound and its check begins. -/
theorem State.dhcpReply_exec {a : BitVec 128} {n : Nat} {r : Word} (hd : (s.portSt p).dhcp v6 = .selecting) (hu : (s.portSt p).use v6 = .none) :
    ∃ u own, exec (.dhcpReply p v6 a n r) s = .next (State.probe u p v6) ∧ u.portSt p = (s.portSt p).leased v6 a n own r ∧ u.sent = s.sent := by
  have hst : ¬ ((s.portSt p).dhcp v6 = .off ∨ (s.portSt p).dhcp v6 = .bound) := by
    rw [hd]
    decide
  obtain hv | hv : v6 = true ∨ v6 = false := by cases v6 <;> simp
  · subst hv
    have hu6 : (s.portSt p).ipv6State = .none := hu
    refine ⟨(s.modPort p fun k => { k with dhcp6 := .bound }).modPort p fun k => { k with ipv6 := a, ipv6Len := n }, 0, ?_, ?_, rfl⟩
    · refine (if_neg hst).trans ?_
      rw [hu6]
      rfl
    · rw [State.modPort_portSt, State.modPort_portSt]
      rfl
  · subst hv
    have hu4 : (s.portSt p).ipv4State = .none := hu
    generalize hown : BitVec.ofNat 32 (beField (s.profBoot (0x81000006 + p * 0x10000)) 12 4) = own
    refine ⟨(s.modPort p fun k => { k with
      dhcp4 := .bound, ipv4Router := if own ≠ 0 then own else if r = 0 then k.ipv4Router else r }).modPort p fun k =>
        { k with ipv4 := BitVec.ofNat 32 a.toNat, ipv4Len := n }, own, ?_, ?_, rfl⟩
    · refine (if_neg hst).trans ?_
      rw [hu4, ← hown]
      rfl
    · rw [State.modPort_portSt, State.modPort_portSt]
      rfl

theorem PortSt.leased_keeps (k : PortSt) (v6 : Bool) (a : BitVec 128) (n : Nat) (own r : Word) (x : AddrState) :
    ((k.leased v6 a n own r).withUse v6 x).dhcp v6 = .bound ∧
      (if v6 then ((k.leased v6 a n own r).withUse v6 x).ipv6 = a
        else ((k.leased v6 a n own r).withUse v6 x).ipv4 = BitVec.ofNat 32 a.toNat) := by
  cases v6
  · exact ⟨rfl, rfl⟩
  · exact ⟨rfl, rfl⟩

theorem State.dhcpReply_binds {a : BitVec 128} {n : Nat} {r : Word} (hd : (s.portSt p).dhcp v6 = .selecting) (hu : (s.portSt p).use v6 = .none) :
    ∃ t, exec (.dhcpReply p v6 a n r) s = .next t ∧ (t.portSt p).dhcp v6 = .bound ∧
      (if v6 then (t.portSt p).ipv6 = a else (t.portSt p).ipv4 = BitVec.ofNat 32 a.toNat) ∧
      (t.portSt p).use v6 = .probing (if v6 then 1 else 3) ∧ t.sent = s.sent ++ [s.frameOf p frProbe] := by
  obtain ⟨u, own, he, hp, hs⟩ := State.dhcpReply_exec (a := a) (n := n) (r := r) hd hu
  obtain ⟨h1, h2⟩ := u.probe_begins p v6
  rw [hp] at h1
  obtain ⟨k1, k2⟩ := (s.portSt p).leased_keeps v6 a n own r (.probing (if v6 then 1 else 3))
  refine ⟨_, he, ?_⟩
  rw [h1, h2, hs, State.frameOf_congr (s := s) (by rw [hp]; exact (s.portSt p).leased_tags ..)]
  exact ⟨k1, k2, PortSt.withUse_use .., rfl⟩

end Leases

/-! ### Received frames -/

/-- The priority of a frame. -/
def framePrio (f : EthFrame) : Nat := match f.tags with | (pcp, _) :: _ => pcp % 8 | [] => 0

/-- A port that has counted the codewords of a frame. -/
def PortSt.fecCounted (k : PortSt) (f : EthFrame) : PortSt :=
  { k with fecCorrected := satAdd 32 k.fecCorrected f.fecFixed, fecUncorrected := satAdd 16 k.fecUncorrected f.fecBad }

theorem State.fecSeen_portSt (s : State) (p : Nat) (f : EthFrame) : (s.fecSeen p f).portSt p = (s.portSt p).fecCounted f :=
  s.modPort_portSt p _

section Frames

variable {s : State} {p : Nat} {f : EthFrame} (hu : (s.portSt p).state = .up)

include hu

theorem State.frameRx_fecBad (hb : f.fecBad ≠ 0) : exec (.ethFrameRx p f) s = .next (s.fecSeen p f) :=
  (if_neg (Classical.not_not.mpr hu)).trans (if_pos hb)

theorem State.frameRx_size (hb : f.fecBad = 0) (hz : f.size < 64 ∨ 4352 < f.size) :
    exec (.ethFrameRx p f) s = .next ((s.fecSeen p f).modPort p fun k => { k with dropSize := satAdd 16 k.dropSize 1 }) :=
  (if_neg (Classical.not_not.mpr hu)).trans ((if_neg (Classical.not_not.mpr hb)).trans (if_pos hz))

section Whole

variable (hb : f.fecBad = 0) (hz : 64 ≤ f.size) (hz' : f.size ≤ 4352)

include hb hz hz'

theorem State.frameRx_fcs (hf : f.fcsOk = false) :
    exec (.ethFrameRx p f) s = .next ((s.fecSeen p f).modPort p fun k => { k with fcsErrors := satAdd 16 k.fcsErrors 1 }) := by
  refine (if_neg (Classical.not_not.mpr hu)).trans ((if_neg (Classical.not_not.mpr hb)).trans ((if_neg (by omega)).trans (if_pos ?_)))
  rw [hf]
  rfl

omit hu hb hz hz' in
theorem State.fecSeen_dstOk (s : State) (p : Nat) (f : EthFrame) : (s.fecSeen p f).dstOk p f = s.dstOk p f := by
  unfold State.dstOk
  rw [State.fecSeen_portSt]
  rfl

theorem State.frameRx_filtered (hf : f.fcsOk = true) (hd : (s.dstOk p f && etypeOk f) = false) :
    exec (.ethFrameRx p f) s = .next ((s.fecSeen p f).modPort p fun k => { k with dropFiltered := satAdd 16 k.dropFiltered 1 }) := by
  refine (if_neg (Classical.not_not.mpr hu)).trans ((if_neg (Classical.not_not.mpr hb)).trans ((if_neg (by omega)).trans ((if_neg ?_).trans (if_pos ?_))))
  · rw [hf]
    decide
  · rw [State.fecSeen_dstOk, ← Bool.not_and, hd]
    rfl

/-- A frame that passes every check, on a port without MACsec, by the room of its buffer. -/
theorem State.frameRx_buffered (hf : f.fcsOk = true) (hd : s.dstOk p f = true) (he : etypeOk f = true) (hm : (s.portSt p).macsecEnable = false)
    (hs : f.sec = none) (ht : (s.portSt p).tagsOk f = true) (hbody : bodyOk f.body = true) (hpfc : f.body ≠ .pfc) (hr : roceOk f.body = true) :
    exec (.ethFrameRx p f) s =
      (let k := (s.portSt p).fecCounted f
      let s1 := (s.fecSeen p f).modPort p fun _ => k
      let held := lookD k.occupancy (k.bufKey (framePrio f)) 0
      if bufLevel < held + f.size then
        .next (if k.bufKey (framePrio f) = 8 then s1.modPort p fun k => { k with dropFull := satAdd 16 k.dropFull 1 } else s1)
      else .next ((s1.modPort p fun x => { x with occupancy := put x.occupancy (k.bufKey (framePrio f)) (held + f.size) }).xoff p (framePrio f))) := by
  have hsec : ((s.portSt p).fecCounted f).secCheck f = .ok ((s.portSt p).fecCounted f) := by
    refine if_pos ?_
    show (!(s.portSt p).macsecEnable || _) = true
    rw [hm]
    rfl
  have htags : ((s.portSt p).fecCounted f).tagsOk f = true := ht
  show execEthFrameRx p f s = _
  unfold execEthFrameRx
  dsimp only
  rw [if_neg (Classical.not_not.mpr hu), if_neg (Classical.not_not.mpr hb), if_neg (by omega), hf, if_neg (by decide), State.fecSeen_dstOk, hd, he,
    if_neg (by decide), State.fecSeen_portSt, hs, if_neg (by rw [Option.isSome_none, Bool.and_false]; decide), hsec]
  dsimp only
  rw [htags, hbody, if_neg (by decide), if_neg hpfc, hr, if_neg (by decide)]
  rfl

end Whole

end Frames

theorem PortSt.bufKey_pfc {k : PortSt} {prio : Nat} (h : k.pfc prio = true) : k.bufKey prio = prio := if_pos h

theorem PortSt.bufKey_shared {k : PortSt} {prio : Nat} (h : k.pfc prio = false) : k.bufKey prio = 8 := by
  unfold PortSt.bufKey
  rw [h]
  rfl

/-- XOFF goes out once when the threshold is reached; the buffers stay as they are. -/
theorem State.xoff_spec (s : State) (p prio : Nat) : ((s.xoff p prio).portSt p).occupancy = (s.portSt p).occupancy ∧
    (s.xoff p prio).sent = s.sent ++ (if (s.portSt p).pfc prio = true ∧ 1310720 ≤ lookD (s.portSt p).occupancy prio 0 ∧
      prio ∉ (s.portSt p).pfcSending then [.pfc p prio 0xFFFF] else []) := by
  have hc : ((s.portSt p).pfc prio = true ∧ xoffLevel ≤ lookD (s.portSt p).occupancy prio 0 ∧ (!(s.portSt p).pfcSending.contains prio) = true) ↔
      ((s.portSt p).pfc prio = true ∧ 1310720 ≤ lookD (s.portSt p).occupancy prio 0 ∧ prio ∉ (s.portSt p).pfcSending) := by
    simp [xoffLevel]
  unfold State.xoff
  by_cases h : (s.portSt p).pfc prio = true ∧ 1310720 ≤ lookD (s.portSt p).occupancy prio 0 ∧ prio ∉ (s.portSt p).pfcSending
  · dsimp only
    rw [if_pos (hc.mpr h), if_pos h, State.emit_portSt, State.modPort_portSt]
    exact ⟨rfl, rfl⟩
  · dsimp only
    rw [if_neg (fun h' => h (hc.mp h')), if_neg h]
    exact ⟨rfl, (List.append_nil _).symm⟩

theorem State.bufferTaken_spec {s : State} {p : Nat} {f : EthFrame} {k : PortSt} {n : Nat} :
    let t := (((s.fecSeen p f).modPort p fun _ => k).modPort p fun x => { x with occupancy := put x.occupancy (k.bufKey (framePrio f)) n }).xoff p (framePrio f)
    lookD (t.portSt p).occupancy (k.bufKey (framePrio f)) 0 = n ∧ t.sent = s.sent ++
      (if k.pfc (framePrio f) = true ∧ 1310720 ≤ n ∧ (framePrio f) ∉ k.pfcSending then [.pfc p (framePrio f) 0xFFFF] else []) := by
  intro t
  obtain ⟨x1, x2⟩ := (((s.fecSeen p f).modPort p fun _ => k).modPort p fun x =>
    { x with occupancy := put x.occupancy (k.bufKey (framePrio f)) n }).xoff_spec p (framePrio f)
  rw [State.modPort_portSt, State.modPort_portSt] at x1 x2
  refine ⟨?_, x2.trans ?_⟩
  · rw [x1]
    exact lookD_put_same ..
  · by_cases hp : k.pfc (framePrio f) = true
    · have hl : lookD (put k.occupancy (k.bufKey (framePrio f)) n) (framePrio f) 0 = n := by
        rw [PortSt.bufKey_pfc hp]
        exact lookD_put_same ..
      dsimp only
      rw [hl]
      rfl
    · rw [if_neg (fun h => hp h.1), if_neg (fun h => hp h.1)]
      rfl

/-! ### The small protocols -/

section Protocols

variable {s : State} {p : Nat} (hu : (s.portSt p).state = .up)

include hu

theorem State.arp_unclaimed {a b : Word} {m : BitVec 48} (hc : s.claims4 p b m = false) : exec (.arp p a b m) s = .next
    (if a = (s.portSt p).ipv4 ∧ (s.portSt p).ipv4State = .ok then s.sendFrame p frArpReply else s) := by
  refine (if_neg (Classical.not_not.mpr hu)).trans ?_
  rw [hc, if_neg Bool.false_ne_true]
  exact (apply_ite Host.Outcome.next _ _ _).symm

theorem State.arp_claimed {a b : Word} {m : BitVec 48} (hc : s.claims4 p b m = true) (ho : (s.portSt p).ipv4State = .ok) :
    exec (.arp p a b m) s = .next ((s.withdraw p false).logEvent .ethAddrDup { ut := utPort, ui := p }) := by
  refine (if_neg (Classical.not_not.mpr hu)).trans ((if_pos hc).trans (congrArg Host.Outcome.next ?_))
  unfold State.duplicate
  dsimp only
  rw [show (if false = true then (s.portSt p).ipv6State else (s.portSt p).ipv4State) = .ok from ho]

omit hu in
theorem PortSt.mem_learn (k : PortSt) (a : BitVec 128) (m : BitVec 48) : (a, m) ∈ (k.learn a m).neighbours :=
  List.mem_append_right _ List.mem_cons_self

theorem State.arpReply_learns {a : Word} {m : BitVec 48} (hc : s.claims4 p a m = false) :
    ∃ t, exec (.arpReply p a m) s = .next t ∧ (mapped a, m) ∈ (t.portSt p).neighbours := by
  refine ⟨s.modPort p fun k => k.learn (mapped a) m, (if_neg (Classical.not_not.mpr hu)).trans ?_, ?_⟩
  · rw [hc, if_neg Bool.false_ne_true]
  · rw [State.modPort_portSt]
    exact PortSt.mem_learn ..

theorem State.solicitation_answered (a : BitVec 128) : exec (.neighbourSolicitation p a) s =
    .next (if ((s.portSt p).linkLocalOk = true ∧ a = s.linkLocal p) ∨ ((s.portSt p).ipv6State = .ok ∧ a = (s.portSt p).ipv6)
      then s.sendFrame p frNeighbour else s) := by
  show (if (s.portSt p).state = .up ∧ _ then _ else _) = _
  simp only [hu, true_and]
  exact (apply_ite Host.Outcome.next _ _ _).symm

theorem State.echo_answered {v6 : Bool} {n : Nat} (hn : n ≤ 1472)
    (hok : if v6 then (s.portSt p).linkLocalOk = true ∨ (s.portSt p).ipv6State = .ok else (s.portSt p).ipv4State = .ok) :
    let recent := (s.portSt p).echoTimes.filter fun t => decide (s.now < t + 1000000000)
    ∃ t, exec (.echo p v6 n) s = .next t ∧ t.sent = s.sent ++ (if recent.length < 100 then [s.frameOf p frEcho] else []) ∧
      (recent.length < 100 → (t.portSt p).echoTimes = recent ++ [s.now]) := by
  intro recent
  have husable : (if v6 then (s.portSt p).linkLocalOk || (s.portSt p).ipv6State == .ok else (s.portSt p).ipv4State == .ok) = true := by
    cases v6 with
    | true => simpa using hok
    | false => simpa using hok
  have hexec : exec (.echo p v6 n) s = if 100 ≤ recent.length then .next s
      else .next ((s.modPort p fun k => { k with echoTimes := recent ++ [s.now] }).sendFrame p frEcho) := by
    show (if (s.portSt p).state ≠ .up ∨ (!_) = true ∨ 1472 < n ∨ 100 ≤ recent.length then _ else _) = _
    rw [husable]
    have hc : ((s.portSt p).state ≠ .up ∨ (!true) = true ∨ 1472 < n ∨ 100 ≤ recent.length) ↔ 100 ≤ recent.length := by
      simp [hu, Nat.not_lt.mpr hn]
    rw [ite_of_iff hc]
  rw [hexec]
  by_cases hl : recent.length < 100
  · obtain ⟨h1, h2⟩ := s.modPort_sendFrame (f := fun k => { k with echoTimes := recent ++ [s.now] }) (p := p) ⟨rfl, rfl, rfl⟩ frEcho
    rw [if_neg (Nat.not_le.mpr hl), if_pos hl]
    exact ⟨_, rfl, h1, fun _ => congrArg PortSt.echoTimes h2⟩
  · rw [if_pos (Nat.not_lt.mp hl), if_neg hl]
    exact ⟨s, rfl, (List.append_nil _).symm, fun h => absurd h hl⟩

end Protocols

/-- Settles O44: frames by `State.frameRx_buffered` and the lemmas beside it, addresses by `State.withdraw` and the checks, the protocols each
by its own lemma. -/
theorem framesAreFilteredAndAddressesChecked : Obligations.FramesAreFilteredAndAddressesChecked := by
  unfold Obligations.FramesAreFilteredAndAddressesChecked
  intro p s k
  refine ⟨fun hu => ⟨fun f => if_pos hu, fun a b m => if_pos hu, fun a m => if_pos hu, fun v6 n => if_pos (.inl hu)⟩, fun hu => ⟨fun f =>
    ⟨fun hb => State.frameRx_fecBad hu hb, fun hb hz => State.frameRx_size hu hb hz⟩, fun f hb hz hz' =>
      ⟨fun hf => State.frameRx_fcs hu hb hz hz' hf, fun hf hd => State.frameRx_filtered hu hb hz hz' hf hd, fun hf hd he hm hs ht hbody hpfc hr => ?_⟩,
    fun a b m hc => State.arp_unclaimed hu hc, fun a b m hc ho => ?_, fun a m hc => State.arpReply_learns hu hc,
    State.solicitation_answered hu, ?_, fun a ha => ?_, fun a => ?_, fun v6 n hn hok => State.echo_answered hu hn hok⟩, fun v6 =>
    ⟨fun n hn => ⟨State.addressProbe_duplicate hn, State.addressProbe_passes hn⟩, State.dhcpRenew_asks, State.dhcpRebind_asks,
      State.leaseExpiry_withdraws, fun a n r hd hn => State.dhcpReply_binds hd hn⟩⟩
  · intro prio held
    have hex := State.frameRx_buffered hu hb hz hz' hf hd he hm hs ht hbody hpfc hr
    refine ⟨fun hroom => ?_, fun hfull hp => ?_⟩
    · obtain ⟨h1, h2⟩ := State.bufferTaken_spec (s := s) (p := p) (f := f) (k := (s.portSt p).fecCounted f) (n := held + f.size)
      exact ⟨_, hex.trans (if_neg (Nat.not_lt.mpr hroom)), h1, h2⟩
    · have hkey : ((s.portSt p).fecCounted f).bufKey (framePrio f) = 8 := PortSt.bufKey_shared hp
      refine ⟨_, hex.trans ((if_pos hfull).trans (congrArg Host.Outcome.next (if_pos hkey))), ?_, rfl⟩
      rw [State.modPort_portSt, State.modPort_portSt]
      rfl
  · refine ⟨_, State.arp_claimed hu hc ho, rfl, ?_, fun q x hx hp hg => ?_⟩
    · rw [State.logEvent_portSt]
      exact s.withdraw_use p false
    · rw [State.logEvent_net]
      exact s.withdraw_qps p false hx hp hg
  · exact (if_neg (Classical.not_not.mpr hu)).trans (if_pos rfl)
  · exact ⟨_, (if_neg (Classical.not_not.mpr hu)).trans (if_neg ha), rfl, rfl⟩
  · exact ⟨_, if_neg (Classical.not_not.mpr hu), s.modPort_portSt p _⟩

end Sys2Proof.Machine
end

