-- ==== Sys2Proof/Proofs/Restarts.lean ====
section
/-!
Restarts of firmware processors: a hub processor alone, the third of one, one before READY, and a control core.
-/

namespace Sys2Proof.Machine

/-! ### Hub processors -/

/-- A hub processor runs. -/
def State.procRuns (s : State) (p : Proc) : Bool := match p with
  | .security => s.fw.secUp && !s.fw.secRestart
  | .power => s.fw.powUp && !s.fw.powRestart
  | .scheduler => s.fw.schUp && !s.fw.schRestart
  | .cluster _ => false

/-- The times at which a hub processor restarted. -/
def State.procTimes (s : State) (p : Proc) : List Nat := match p with
  | .security => s.fw.secTimes
  | .power => s.fw.powTimes
  | _ => s.fw.schTimes

/-- A hub processor restarts. -/
def State.procRestarts (s : State) (p : Proc) : Bool := match p with
  | .security => s.fw.secRestart
  | .power => s.fw.powRestart
  | _ => s.fw.schRestart

/-- The firmware's entry of a restart. -/
def Fw.restarted (f : Fw) (p : Proc) (ts : List Nat) : Fw := match p with
  | .security => { f with secRestart := true, secTimes := ts }
  | .power => { f with powRestart := true, powTimes := ts }
  | _ => { f with schRestart := true, schTimes := ts }

/-- The endpoint of a hub processor. -/
def procEp (p : Proc) : Nat := hubEp (match p with | .security => 0 | .power => 1 | _ => 2)

/-- A restart as it begins: logged, counted, and the channels of the processor lost. -/
def State.restartBegun (s : State) (p : Proc) : State :=
  let s1 := (s.logEvent .procRestart { ut := utProc, ui := (procCode p) }).countSwitched p
  let s0 := if p = .scheduler then s1.onCtl fun k => { k with image := some s.dcsImage } else s1
  (s0.loseHubChannels (procEp p)).onFw fun f => f.restarted p (recent (s.procTimes p) s.now window600)

/-- What a restart of a hub processor comes to. -/
theorem State.restart_hub (s : State) {p : Proc} (hp : p ∈ [Proc.security, .power, .scheduler]) :
    s.restart p = if s.procRuns p = false then s
      else if s.dev = .off ∨ s.dev = .saving ∨ s.dev = .tripped then s.restartBegun p
      else if !s.dev.up then (s.restartBegun p).earlyRestart
      else if 3 ≤ (recent (s.procTimes p) s.now window600).length then (s.restartBegun p).thirdRestart
      else if p = .power then (s.restartBegun p).retune else s.restartBegun p := by
  have hc (a b : Bool) : ((!a) = true ∨ b = true) ↔ (a && !b) = false := by
    cases a <;> cases b <;> decide
  simp only [List.mem_cons, List.not_mem_nil, or_false] at hp
  rcases hp with rfl | rfl | rfl
  · exact ite_of_iff (hc _ _)
  · exact ite_of_iff (hc _ _)
  · exact ite_of_iff (hc _ _)

theorem State.countSwitched_fw (s : State) (p : Proc) : ∃ l, s.countSwitched p = s.onFw fun f => { f with switchedRestarts := l } := by
  unfold State.countSwitched
  split
  · split
    · exact ⟨_, rfl⟩
    · exact ⟨s.fw.switchedRestarts, rfl⟩
  · exact ⟨s.fw.switchedRestarts, rfl⟩

theorem Fw.restarted_preReadyResets (f : Fw) (p : Proc) (ts : List Nat) :
    (f.restarted p ts).preReadyResets = f.preReadyResets := by
  cases p <;> rfl

theorem State.procRestarts_restarted (v : State) (p : Proc) (ts : List Nat) :
    (v.onFw fun f => f.restarted p ts).procRestarts p = true := by
  cases p <;> rfl

theorem State.restartBegun_keeps (s : State) (p : Proc) : (s.restartBegun p).mem = s.mem ∧ (s.restartBegun p).dev = s.dev ∧
    (s.restartBegun p).ctl.inProgress = s.ctl.inProgress ∧ (s.restartBegun p).procRestarts p = true ∧
    (s.restartBegun p).fw.preReadyResets = s.fw.preReadyResets := by
  have hl := (State.Accessed.refl s).logEvent .procRestart { ut := utProc, ui := (procCode p) }
  have hm := State.logEvent_mem s .procRestart { ut := utProc, ui := (procCode p) }
  unfold State.restartBegun
  generalize (s.logEvent .procRestart { ut := utProc, ui := (procCode p) }) = u at *
  obtain ⟨l, hc⟩ := u.countSwitched_fw p
  have hi : u.ctl.inProgress = s.ctl.inProgress := by rw [hl.eq]
  have hf : u.fw.preReadyResets = s.fw.preReadyResets := by rw [hl.fw]
  dsimp only
  rw [hc]
  have hw : ∀ v : State, ∃ w, (if p = .scheduler then v.onCtl fun k => { k with image := some s.dcsImage } else v) =
      v.onCtl fun k => { k with image := w } := fun v => by
    split
    · exact ⟨_, rfl⟩
    · exact ⟨v.ctl.image, rfl⟩
  obtain ⟨w, hw⟩ := hw (u.onFw fun f => { f with switchedRestarts := l })
  rw [hw]
  exact ⟨hm, hl.dev, hi, State.procRestarts_restarted _ p _, (Fw.restarted_preReadyResets _ p _).trans hf⟩

theorem State.deviceReset_fw (s : State) : s.deviceReset.fw.secUp = false ∧ s.deviceReset.fw.preReadyResets = s.fw.preReadyResets := by
  unfold State.deviceReset
  dsimp only
  generalize (s.fw.retired ++ s.fw.toRetire).eraseDups = rs
  rw [(State.applied_profiled _ rs).fw]
  exact ⟨rfl, rfl⟩

theorem State.thirdRestart_resets (s : State) : s.thirdRestart.dev = .rom ∧ s.thirdRestart.mem = {} ∧ s.thirdRestart.fw.secUp = false := by
  obtain ⟨u, hu⟩ : ∃ u : State, s.thirdRestart = u.deviceReset := ⟨_, rfl⟩
  obtain ⟨h1, h2, -⟩ := u.deviceReset_spec
  rw [hu]
  exact ⟨h1, h2, u.deviceReset_fw.1⟩

theorem State.earlyRestart_resets (s : State) : s.earlyRestart.dev = .rom ∧ s.earlyRestart.mem = {} ∧ s.earlyRestart.fw.secUp = false ∧
    s.earlyRestart.fw.preReadyResets = (if 2 ≤ s.fw.preReadyResets then 0 else s.fw.preReadyResets + 1) := by
  obtain ⟨u, hu⟩ : ∃ u : State, s.earlyRestart = u.deviceReset.onFw fun f =>
    { f with preReadyResets := if 3 ≤ s.fw.preReadyResets + 1 then 0 else s.fw.preReadyResets + 1 } := ⟨_, rfl⟩
  obtain ⟨h1, h2, -⟩ := u.deviceReset_spec
  rw [hu]
  exact ⟨h1, h2, u.deviceReset_fw.1, ite_of_iff (by omega)⟩

section Hub

variable {s : State} {p : Proc} (hp : p ∈ [Proc.security, .power, .scheduler])

include hp

theorem State.restart_idle (hr : s.procRuns p = false) : s.restart p = s := (s.restart_hub hp).trans (if_pos hr)

omit hp in
theorem State.up_states {d : DevState} (h : d.up = true) : ¬ (d = .off ∨ d = .saving ∨ d = .tripped) := by
  rintro (rfl | rfl | rfl) <;> cases h

theorem State.restart_alone (hr : s.procRuns p = true) (hu : s.dev.up = true) (ht : (recent (s.procTimes p) s.now window600).length < 3) :
    (s.restart p).procRestarts p = true ∧ (s.restart p).dev = s.dev ∧ (s.restart p).mem = s.mem ∧
      (s.restart p).ctl.inProgress = s.ctl.inProgress ∧ (p = .power → (s.restart p).tuned) := by
  obtain ⟨hm, hd, hi, hrs, -⟩ := s.restartBegun_keeps p
  rw [s.restart_hub hp, hr, if_neg (by decide), if_neg (State.up_states hu), hu, if_neg (by decide), if_neg (Nat.not_le.mpr ht)]
  by_cases hpow : p = .power
  · rw [if_pos hpow]
    obtain ⟨cs, he⟩ : ∃ cs, (s.restartBegun p).retune = { s.restartBegun p with clusters := cs } := ⟨_, State.retune_eq _⟩
    refine ⟨?_, ?_, ?_, ?_, fun _ => State.retune_tuned _⟩
    · rw [he]
      exact hrs
    · rw [he]
      exact hd
    · rw [he]
      exact hm
    · rw [he]
      exact hi
  · rw [if_neg hpow]
    exact ⟨hrs, hd, hm, hi, fun h => absurd h hpow⟩

theorem State.restart_third (hr : s.procRuns p = true) (hu : s.dev.up = true) (ht : 3 ≤ (recent (s.procTimes p) s.now window600).length) :
    s.restart p = (s.restartBegun p).thirdRestart := by
  rw [s.restart_hub hp, hr, if_neg (by decide), if_neg (State.up_states hu), hu, if_neg (by decide), if_pos ht]

theorem State.restart_early (hr : s.procRuns p = true) (hu : s.dev.up = false) (h1 : s.dev ≠ .off) (h2 : s.dev ≠ .saving) (h3 : s.dev ≠ .tripped) :
    s.restart p = (s.restartBegun p).earlyRestart := by
  rw [s.restart_hub hp, hr, if_neg (by decide), if_neg (fun h => h.elim h1 fun h => h.elim h2 h3), hu, if_pos (by decide)]

end Hub

/-! ### Control cores -/

theorem State.enterReset_spec (s : State) (cd : Nat) : ((s.enterReset cd).cluster cd).inReset = true ∧ ((s.enterReset cd).cluster cd).wave = none ∧
    ((s.enterReset cd).cluster cd).fwRunning = false ∧ ∀ c, cdOf c = cd → (s.enterReset cd).core c = {} := by
  unfold State.enterReset
  dsimp only
  rw [State.modCluster_cluster]
  refine ⟨rfl, rfl, rfl, fun c hc => ?_⟩
  have hl (t : Tab Core) : lookD (t.filter fun p => cdOf p.1 != cd) c ({} : Core) = {} := by
    unfold lookD
    rw [look_filter t fun i => cdOf i != cd, if_neg (by simp [hc])]
    rfl
  exact hl _

theorem State.fenceCluster_fenced (s : State) (cd : Nat) (ev : Ev) (a : Bool) (i : Nat) :
    (s.fenceCluster cd ev a).fenced i = (decide (i = cd) || s.fenced i) := by
  by_cases hf : s.fenced cd = true
  · have he : s.fenceCluster cd ev a = s := if_pos hf
    rw [he]
    by_cases hi : i = cd
    · rw [hi, hf, Bool.or_true]
    · rw [decide_eq_false hi, Bool.false_or]
  · have hc := (s.fenceCluster_worked (Bool.eq_false_iff.mpr hf) ev a).cluster i
    have hfe : (s.fenceCluster cd ev a).fenced i = ((s.fencedAt cd).cluster i).fenced := by
      unfold State.fenced
      rw [hc]
    rw [hfe]
    by_cases hi : i = cd
    · rw [decide_eq_true hi, Bool.true_or, hi, show (s.fencedAt cd).cluster cd = _ from s.modCluster_cluster cd Cluster.fencedNow]
      rfl
    · rw [decide_eq_false hi, Bool.false_or, show (s.fencedAt cd).cluster i = _ from s.modCluster_cluster_ne Cluster.fencedNow hi]
      rfl

section Cores

variable {s : State} {cd : Nat}

theorem State.restartCluster_idle (hr : (s.cluster cd).fwRunning = false) : s.restartCluster cd = s := by
  unfold State.restartCluster
  dsimp only
  rw [hr]
  exact if_pos (.inr (.inr rfl))

/-- A restart of a control core as it is entered in its cluster. -/
def State.coreRestartNoted (s : State) (cd : Nat) : State :=
  ((s.logEvent .ctrlRestart { ut := utCluster, ui := cd }).countSwitched (.cluster cd)).modCluster cd fun k =>
    { k with restarts := recent (s.cluster cd).restarts s.now window600 }

theorem State.restartCluster_runs (hf : (s.cluster cd).fenced = false) (hs : (s.cluster cd).restarting = false)
    (hr : (s.cluster cd).fwRunning = true) :
    s.restartCluster cd = if 3 ≤ (recent (s.cluster cd).restarts s.now window600).length then
        (s.coreRestartNoted cd).fenceCluster cd .ctrlRestartLimit true
      else (((s.coreRestartNoted cd).stopForReset cd).enterReset cd).modCluster cd fun k => { k with restarting := true } := by
  unfold State.restartCluster
  dsimp only
  rw [hf, hs, hr]
  rfl

theorem State.restartCluster_resets (u : State) (cd : Nat) :
    let t := (u.enterReset cd).modCluster cd fun k => { k with restarting := true }
    (t.cluster cd).restarting = true ∧ (t.cluster cd).inReset = true ∧ (t.cluster cd).fwRunning = false ∧ (t.cluster cd).wave = none ∧
      ∀ c, cdOf c = cd → t.core c = {} := by
  intro t
  obtain ⟨h1, h2, h3, h4⟩ := u.enterReset_spec cd
  have hc : t.cluster cd = { (u.enterReset cd).cluster cd with restarting := true } := (u.enterReset cd).modCluster_cluster cd _
  rw [hc]
  exact ⟨rfl, h1, h3, h2, h4⟩

theorem State.coreRestartDone (hr : (s.cluster cd).restarting = true) (hf : (s.cluster cd).fenced = false) (hs : s.fw.schRestart = false) :
    ∃ t, exec (.procRestartDone (.cluster cd)) s = .next t ∧
      t.cluster cd = { s.cluster cd with fwRunning := true, inReset := false, delivered := 0, restarting := false } := by
  refine ⟨(s.modCluster cd fun k => { k with fwRunning := true }).release [cd], if_neg ?_, ?_⟩
  · rw [hr, hs, show s.fenced cd = false from hf]
    decide
  · have hc (u : State) : (u.release [cd]).cluster cd = { u.cluster cd with inReset := false, delivered := 0, restarting := false } :=
      u.modCluster_cluster cd fun k => { k with inReset := false, delivered := 0, restarting := false }
    rw [hc, State.modCluster_cluster]

end Cores

/-! ### The end of a restart -/

theorem State.settlePhases_spec (s : State) : s.settlePhases.fw.powRestart = s.fw.powRestart ∧
    ∀ cd k, look s.clusters cd = some k → cd < 512 → k.working ≤ 3 → s.settlePhases.fenced cd = true := by
  have hfw (l : List Nat) : ∀ u : State, (l.foldl (fun s cd => s.fenceCluster cd .domainFail true) u).fw.powRestart = u.fw.powRestart := by
    induction l with
    | nil => exact fun _ => rfl
    | cons cd l ih =>
      intro u
      refine (ih _).trans ?_
      by_cases hf : u.fenced cd = true
      · exact congrArg (·.fw.powRestart) (if_pos hf : u.fenceCluster cd .domainFail true = u)
      · rw [(u.fenceCluster_spec (Bool.eq_false_iff.mpr hf) .domainFail true).1]
  have hfence (l : List Nat) (i : Nat) : ∀ u : State, i ∈ l ∨ u.fenced i = true →
      (l.foldl (fun s cd => s.fenceCluster cd .domainFail true) u).fenced i = true := by
    induction l with
    | nil => exact fun u h => h.resolve_left List.not_mem_nil
    | cons cd l ih =>
      intro u h
      refine ih _ ?_
      rw [State.fenceCluster_fenced]
      rcases h with h | h
      · rcases List.mem_cons.mp h with rfl | h
        · exact .inr (by rw [decide_eq_true rfl, Bool.true_or])
        · exact .inl h
      · exact .inr (by rw [h, Bool.or_true])
  refine ⟨hfw _ s, fun cd k hk hcd hw => hfence _ cd s ?_⟩
  by_cases hf : s.fenced cd = true
  · exact .inr hf
  · have hkf : k.fenced = false := by
      have hc : s.cluster cd = k := by
        unfold State.cluster lookD
        rw [hk]
        rfl
      unfold State.fenced at hf
      rw [hc] at hf
      exact Bool.eq_false_iff.mpr hf
    refine .inl (List.mem_map.mpr ⟨(cd, k), List.mem_filter.mpr ⟨mem_of_look hk, ?_⟩, rfl⟩)
    simp [hcd, hkf, hw]

theorem State.powerRestartDone (s : State) (hs : s.fw.secRestart = false) (hp : s.fw.powRestart = true) :
    ∃ t, exec (.procRestartDone .power) s = .next t ∧ t.fw.powRestart = false ∧ t.tuned ∧
      ∀ cd k, look s.clusters cd = some k → cd < 512 → k.working ≤ 3 → t.fenced cd = true := by
  obtain ⟨h1, h2⟩ := (s.onFw fun f => { f with powRestart := false }).settlePhases_spec
  refine ⟨((s.onFw fun f => { f with powRestart := false }).settlePhases).retune, if_neg ?_, ?_, State.retune_tuned _, fun cd k hk hcd hw => ?_⟩
  · rw [hs, hp]
    decide
  · obtain ⟨cs, he⟩ : ∃ cs, ((s.onFw fun f => { f with powRestart := false }).settlePhases).retune =
      { (s.onFw fun f => { f with powRestart := false }).settlePhases with clusters := cs } := ⟨_, State.retune_eq _⟩
    rw [he]
    exact h1
  · unfold State.fenced
    rw [State.retune_cluster, if_pos hcd, Cluster.retune_keeps]
    exact h2 cd k hk hcd hw

/-- State `t` differs from `s` only where the writes held by the front end may change it. -/
theorem State.settleWrites_eq (s : State) (h : s.fw.schRestart = false) :
    ∃ a m, s.settleWrites = s.onCtl fun k => { k with recorded := [], image := none, alertPending := a, alertMask := m } := by
  have hfold (l : List (Bool × Nat)) : ∀ u : State, u.fw.schRestart = false → ∃ a m,
      l.foldl (fun s w => if w.1 then s.writeMask w.2 else s.clearAlerts w.2) u = u.onCtl fun k => { k with alertPending := a, alertMask := m } := by
    induction l with
    | nil => exact fun u _ => ⟨u.ctl.alertPending, u.ctl.alertMask, rfl⟩
    | cons w l ih =>
      intro u hu
      have hone : ∃ a m, (if w.1 then u.writeMask w.2 else u.clearAlerts w.2) = u.onCtl fun k => { k with alertPending := a, alertMask := m } := by
        split
        · refine ⟨u.ctl.alertPending, BitVec.ofNat 64 (w.2 % 2048), ?_⟩
          unfold State.writeMask
          rw [hu]
          rfl
        · refine ⟨u.ctl.alertPending &&& ~~~BitVec.ofNat 64 w.2, u.ctl.alertMask, ?_⟩
          unfold State.clearAlerts
          rw [hu]
          rfl
      obtain ⟨a, m, h1⟩ := hone
      rw [List.foldl_cons, h1]
      obtain ⟨a', m', h2⟩ := ih (u.onCtl fun k => { k with alertPending := a, alertMask := m }) hu
      exact ⟨a', m', h2⟩
  obtain ⟨a, m, hl⟩ := hfold s.ctl.recorded (s.onCtl fun k => { k with recorded := [], image := none }) h
  exact ⟨a, m, hl⟩

theorem State.settleCommands_answered (s : State) : s.Answered s.settleCommands ∧ s.settleCommands.mem = s.mem ∧
    s.settleCommands.ctl.recorded = s.ctl.recorded := by
  have hone (u : State) (h : CmdHdr) (op : Nat) : (u.respond h op stRetry false 0 []).mem = u.mem ∧
      (u.respond h op stRetry false 0 []).ctl.recorded = u.ctl.recorded := by
    unfold State.respond
    split
    · exact ⟨rfl, rfl⟩
    · dsimp only
      split
      · rw [State.settleSession_ctl, State.settleSession_mem]
        refine ⟨rfl, ?_⟩
        show (Ctl.settleReset _).recorded = _
        unfold Ctl.settleReset
        split <;> rfl
      · exact ⟨rfl, rfl⟩
  have hfold (l : List Cmd) : ∀ u : State, u.Answered (l.foldl (fun s c => s.respond c.hdr c.op stRetry false 0 []) u) ∧
      (l.foldl (fun s c => s.respond c.hdr c.op stRetry false 0 []) u).mem = u.mem ∧
      (l.foldl (fun s c => s.respond c.hdr c.op stRetry false 0 []) u).ctl.recorded = u.ctl.recorded := by
    induction l with
    | nil => exact fun u => ⟨.refl u, rfl, rfl⟩
    | cons c l ih =>
      intro u
      obtain ⟨h1, h2, h3⟩ := ih (u.respond c.hdr c.op stRetry false 0 [])
      obtain ⟨k2, k3⟩ := hone u c.hdr c.op
      exact ⟨(State.Answered.respond (.refl u) _ _ _ _ _ _).trans h1, h2.trans k2, h3.trans k3⟩
  exact hfold _ s

/-- The only command in progress is answered RETRY when it had no effect. -/
theorem State.settleCommands_only {s : State} {c : Cmd} (hp : s.ctl.inProgress = [c]) (hs : c.started = false) (hd : c.discard = false) :
    s.settleCommands.ctl.inProgress = [] ∧ s.settleCommands.ctl.completed = s.ctl.completed ++
      [{ hdr := c.hdr, op := c.op, status := stRetry, effect := false, detail := 0, results := [], endTime := s.now }] := by
  have he : s.settleCommands = s.respond c.hdr c.op stRetry false 0 [] := by
    unfold State.settleCommands
    rw [hp, List.filter_cons_of_pos (by simp [hs]), List.filter_nil]
    rfl
  rw [he]
  unfold State.respond
  rw [hp, List.find?_cons_of_pos (by simp)]
  dsimp only
  rw [hd]
  exact ⟨List.erase_cons_head .., rfl⟩

theorem State.flushJournal_spec (s : State) : s.Accessed { s.flushJournal with work := s.work } ∧ s.flushJournal.work.heldJournal = [] ∧
    (s.work.heldJournal = [] → s.flushJournal = s) := by
  have hfold (l : List Nat) : ∀ u : State, s.Accessed u → s.Accessed (l.foldl State.storeJournal u) := by
    induction l with
    | nil => exact fun _ h => h
    | cons i l ih => exact fun u h => ih _ (h.trans (u.storeJournal_accessed i))
  have hacc := hfold (s.work.heldJournal.map (·.2)) s (.refl s)
  refine ⟨⟨?_, hacc.failed⟩, rfl, fun h => ?_⟩
  · unfold State.flushJournal
    rw [hacc.eq]
    rfl
  · unfold State.flushJournal
    rw [h]
    show { s with work := { s.work with heldJournal := [] } } = s
    rw [← h]

/-- The scheduler core runs again. -/
theorem State.schedulerRestartDone (s : State) (hs : s.fw.secRestart = false) (hr : s.fw.schRestart = true) :
    ∃ t, exec (.procRestartDone .scheduler) s = .next t ∧ t.fw.schRestart = false ∧ t.work.heldJournal = [] ∧ t.ctl.recorded = [] ∧
      (s.work.heldJournal = [] → t.mem = s.mem ∧ t.work = s.work) ∧
      ∀ c, s.ctl.inProgress = [c] → c.started = false → c.discard = false → s.answered t c.hdr c.op stRetry false 0 [] := by
  obtain ⟨a, m, hw⟩ := (s.onFw fun f => { f with schRestart := false }).settleWrites_eq rfl
  have hex : exec (.procRestartDone .scheduler) s =
      .next (s.onFw fun f => { f with schRestart := false }).settleWrites.settleCommands.flushJournal := by
    refine if_neg ?_
    rw [hs, hr]
    decide
  generalize (s.onFw fun f => { f with schRestart := false }).settleWrites = u at hex hw
  obtain ⟨ha, hmem, hrec⟩ := u.settleCommands_answered
  obtain ⟨hacc, hheld, hnone⟩ := u.settleCommands.flushJournal_spec
  have hctl : u.settleCommands.flushJournal.ctl.inProgress = u.settleCommands.ctl.inProgress ∧
      u.settleCommands.flushJournal.ctl.completed = u.settleCommands.ctl.completed ∧
      u.settleCommands.flushJournal.ctl.recorded = u.settleCommands.ctl.recorded := by
    have he := congrArg State.ctl hacc.eq
    have he : u.settleCommands.flushJournal.ctl =
      { u.settleCommands.ctl with alertPending := u.settleCommands.flushJournal.ctl.alertPending } := he
    rw [he]
    exact ⟨rfl, rfl, rfl⟩
  have hfw : u.settleCommands.fw = u.fw := by rw [ha.eq]
  have hwork : u.settleCommands.work = u.work := by rw [ha.eq]
  refine ⟨_, hex, ?_, hheld, ?_, fun hn => ?_, fun c hc hst hd => ?_⟩
  · rw [show u.settleCommands.flushJournal.fw = u.settleCommands.fw from hacc.fw, hfw, hw]
    rfl
  · rw [hctl.2.2, hrec, hw]
    rfl
  · rw [hnone (by rw [hwork, hw]; exact hn), hmem, hwork, hw]
    exact ⟨rfl, rfl⟩
  · obtain ⟨h1, h2⟩ := State.settleCommands_only (s := u) (by rw [hw]; exact hc) hst hd
    refine ⟨hctl.1.trans h1, hctl.2.1.trans (h2.trans ?_)⟩
    rw [hw]
    rfl

/-- Settles O55: the restarts by `State.restart_hub` and `State.restartCluster_runs`, their ends by the lemmas above. -/
theorem processorsRestart : Obligations.ProcessorsRestart := by
  unfold Obligations.ProcessorsRestart
  intro s runs times restarts
  have hruns (p : Proc) : runs p = s.procRuns p := by cases p <;> rfl
  have htimes (p : Proc) : times p = s.procTimes p := by cases p <;> rfl
  have hrestarts (t : State) (p : Proc) : restarts t p = t.procRestarts p := by cases p <;> rfl
  refine ⟨fun p => rfl, fun p hp => ?_, fun cd => ⟨fun hr => congrArg Host.Outcome.next (State.restartCluster_idle hr),
    fun hf hs hr => ⟨fun hl => ?_, fun hl => ?_⟩, State.coreRestartDone⟩, rfl, fun hs => ⟨if_pos (.inl hs), if_pos (.inl hs)⟩,
    s.powerRestartDone, s.schedulerRestartDone⟩
  · rw [hruns p, htimes p]
    refine ⟨fun hr => ?_, fun hr hu ht => ?_, fun hr hu ht => ?_, fun hr hu h1 h2 h3 => ?_⟩
    · have he : exec (.watchdogExpiry p) s = .next s := congrArg Host.Outcome.next (State.restart_idle hp hr)
      exact ⟨he, he⟩
    · obtain ⟨h1, h2, h3, h4, h5⟩ := State.restart_alone hp hr hu ht
      exact ⟨s.restart p, rfl, rfl, (hrestarts _ p).trans h1, h2, h3, h4, h5⟩
    · obtain ⟨h1, h2, h3⟩ := (s.restartBegun p).thirdRestart_resets
      exact ⟨_, congrArg Host.Outcome.next (State.restart_third hp hr hu ht), h1, h2, h3⟩
    · obtain ⟨e1, e2, e3, e4⟩ := (s.restartBegun p).earlyRestart_resets
      obtain ⟨-, -, -, -, hpre⟩ := s.restartBegun_keeps p
      rw [hpre] at e4
      exact ⟨_, congrArg Host.Outcome.next (State.restart_early hp hr hu h1 h2 h3), e1, e2, e3, e4⟩
  · exact ⟨_, congrArg Host.Outcome.next ((State.restartCluster_runs hf hs hr).trans (if_neg (Nat.not_le.mpr hl))),
      State.restartCluster_resets _ cd⟩
  · refine ⟨_, congrArg Host.Outcome.next ((State.restartCluster_runs hf hs hr).trans (if_pos hl)), ?_⟩
    rw [State.fenceCluster_fenced, decide_eq_true rfl, Bool.true_or]

end Sys2Proof.Machine
end

