-- ==== Sys2Proof/Proofs/ResetsAndActivation.lean ====
section
/-!
Compute resets after errors, activation, rollback, the advance of SVN, and the writing of records.
-/

namespace Sys2Proof.Machine

/-! ### Compute resets -/

theorem State.foldl_modCluster_eq (f : Nat → Cluster → Cluster) (l : List Nat) : ∀ s : State, ∃ cs,
    l.foldl (fun s cd => s.modCluster cd (f cd)) s = { s with clusters := cs } := by
  induction l with
  | nil => exact fun s => ⟨s.clusters, rfl⟩
  | cons cd l ih =>
    intro s
    obtain ⟨cs, hc⟩ := ih (s.modCluster cd (f cd))
    exact ⟨cs, hc⟩

theorem State.beginReset_all (s : State) (cds : List Nat) (cmd : Option CmdHdr) :
    (s.beginReset cds true cmd).dev = .computeReset ∧ (s.beginReset cds true cmd).fw.resetStep = 1 ∧
      (s.beginReset cds true cmd).fw.resetAll = true ∧ (s.beginReset cds true cmd).fw.resetting = cds.filter (fun cd => !s.fenced cd) ∧
      (s.beginReset cds true cmd).mem = s.mem ∧ (s.beginReset cds true cmd).fw.lostTable = s.fw.lostTable := by
  unfold State.beginReset
  dsimp only
  generalize cds.filter (fun cd => !s.fenced cd) = l
  rw [if_pos rfl]
  generalize hg : s.onFw _ = u
  have hm : u.mem = s.mem := by rw [← hg]; rfl
  have hf : u.fw.resetStep = 1 ∧ u.fw.resetAll = true ∧ u.fw.resetting = l ∧ u.fw.lostTable = s.fw.lostTable := by
    rw [← hg]
    exact ⟨rfl, rfl, rfl, rfl⟩
  obtain ⟨cs, hc⟩ := State.foldl_modCluster_eq (fun _ k => { k with fwRunning := false }) l u
  obtain ⟨h1, h2, h3, h4⟩ := hf
  rw [hc]
  exact ⟨rfl, h1, h2, h3, hm, h4⟩

/-- A DEVICE-class error as it is entered: logged, counted, with the readiness table it loses. -/
def State.deviceErrorNoted (s : State) (ev : Nat) : State :=
  (if ev % 65536 = Ev.code .hubArrayUe then s.logEvent .hubArrayUe {}
    else if ev % 65536 = Ev.code .readyTableUe then s.logEvent .readyTableUe { detail := ev / 65536 } else s).onFw fun f => { f with
      devErrTimes := recent s.fw.devErrTimes s.now window600
      lostTable := if ev % 65536 = Ev.code .hubArrayUe then some 4
        else if ev % 65536 = Ev.code .readyTableUe then some (ev / 65536 % 4) else f.lostTable }

theorem State.deviceErrorNoted_keeps (s : State) (ev : Nat) : (s.deviceErrorNoted ev).mem = s.mem ∧
    (s.deviceErrorNoted ev).clusters = s.clusters ∧
    (s.deviceErrorNoted ev).fw.lostTable = (if ev % 65536 = Ev.code .hubArrayUe then some 4
      else if ev % 65536 = Ev.code .readyTableUe then some (ev / 65536 % 4) else s.fw.lostTable) := by
  unfold State.deviceErrorNoted
  generalize hu : (if ev % 65536 = Ev.code .hubArrayUe then _ else _ : State) = u
  have hl : u.mem = s.mem ∧ u.clusters = s.clusters ∧ u.fw = s.fw := by
    rw [← hu]
    split
    · exact ⟨State.logEvent_mem _ _ _, by rw [((State.Accessed.refl s).logEvent .hubArrayUe {}).eq],
        ((State.Accessed.refl s).logEvent .hubArrayUe {}).fw⟩
    · split
      · exact ⟨State.logEvent_mem _ _ _, by rw [((State.Accessed.refl s).logEvent .readyTableUe { detail := ev / 65536 }).eq],
          ((State.Accessed.refl s).logEvent .readyTableUe { detail := ev / 65536 }).fw⟩
      · exact ⟨rfl, rfl, rfl⟩
  obtain ⟨hm, hc, hf⟩ := hl
  refine ⟨hm, hc, ?_⟩
  show (if ev % 65536 = Ev.code .hubArrayUe then some 4
    else if ev % 65536 = Ev.code .readyTableUe then some (ev / 65536 % 4) else u.fw.lostTable) = _
  rw [hf]

theorem exec_deviceErrorReset {s : State} {ev : Nat}
    (he : ev % 65536 = Ev.code .hubArrayUe ∨ ev % 65536 = Ev.code .readyTableUe ∨ ev % 65536 = Ev.code .silkLinkFail)
    (hd : s.dev = .ready ∨ s.dev = .computeReset) :
    exec (.deviceErrorReset ev) s = if 3 ≤ (recent s.fw.devErrTimes s.now window600).length then
        .next ((s.deviceErrorNoted ev).deviceReset.onFw fun f => { f with devErrTimes := [] })
      else .next ((s.deviceErrorNoted ev).beginReset (List.range 512) true s.fw.resetCmd) := by
  show execDeviceErrorReset ev s = _
  unfold execDeviceErrorReset
  dsimp only
  rw [if_neg fun h => hd.elim h.1 h.2, if_neg fun h => he.elim h.1 fun he => he.elim h.2.1 h.2.2]
  rfl

theorem State.deviceErrorReset_spec {s : State} {ev : Nat}
    (he : ev % 65536 = Ev.code .hubArrayUe ∨ ev % 65536 = Ev.code .readyTableUe ∨ ev % 65536 = Ev.code .silkLinkFail)
    (hd : s.dev = .ready ∨ s.dev = .computeReset) :
    ((recent s.fw.devErrTimes s.now window600).length < 3 → ∃ t, exec (.deviceErrorReset ev) s = .next t ∧ t.dev = .computeReset ∧
      t.fw.resetStep = 1 ∧ t.fw.resetAll = true ∧ t.fw.resetting = (List.range 512).filter (fun cd => !s.fenced cd) ∧ t.mem = s.mem ∧
      t.fw.lostTable = (if ev % 65536 = Ev.code .hubArrayUe then some 4
        else if ev % 65536 = Ev.code .readyTableUe then some (ev / 65536 % 4) else s.fw.lostTable)) ∧
    (3 ≤ (recent s.fw.devErrTimes s.now window600).length → ∃ t, exec (.deviceErrorReset ev) s = .next t ∧ t.dev = .rom ∧ t.mem = {}) := by
  obtain ⟨hm, hc, hl⟩ := s.deviceErrorNoted_keeps ev
  have hx := exec_deviceErrorReset he hd
  refine ⟨fun h => ⟨_, hx.trans (if_neg (Nat.not_le.mpr h)), ?_⟩, fun h => ⟨_, hx.trans (if_pos h), ?_⟩⟩
  · obtain ⟨h1, h2, h3, h4, h5, h6⟩ := (s.deviceErrorNoted ev).beginReset_all (List.range 512) s.fw.resetCmd
    have hfen : (fun cd => !(s.deviceErrorNoted ev).fenced cd) = fun cd => !s.fenced cd := by
      funext cd
      unfold State.fenced State.cluster
      rw [hc]
    rw [hfen] at h4
    exact ⟨h1, h2, h3, h4, h5.trans hm, h6.trans hl⟩
  · obtain ⟨h1, h2, -⟩ := (s.deviceErrorNoted ev).deviceReset_spec
    exact ⟨h1, h2⟩

/-- A cluster is held in reset with its wave and its cores cleared. -/
def State.HeldInReset (s : State) (cd : Nat) : Prop :=
  (s.cluster cd).inReset = true ∧ (s.cluster cd).wave = none ∧ (s.cluster cd).fwRunning = false ∧ ∀ c, cdOf c = cd → s.core c = {}

theorem State.HeldInReset.enterReset {s : State} {cd : Nat} (h : s.HeldInReset cd) (i : Nat) : (s.enterReset i).HeldInReset cd := by
  obtain ⟨h1, h2, h3, h4⟩ := h
  by_cases hi : cd = i
  · rw [hi]
    exact s.enterReset_spec i
  · have hc : (s.enterReset i).cluster cd = s.cluster cd := State.modCluster_cluster_ne _ _ hi
    refine ⟨hc ▸ h1, hc ▸ h2, hc ▸ h3, fun c hcd => ?_⟩
    have hl : (s.enterReset i).core c = lookD (s.cores.filter fun p => cdOf p.1 != i) c {} := rfl
    refine (hl.trans ?_).trans (h4 c hcd)
    unfold State.core lookD
    rw [look_filter s.cores fun j => cdOf j != i, if_pos (bne_iff_ne.mpr (hcd ▸ hi))]

theorem State.foldl_enterReset_held (l : List Nat) : ∀ s : State, ∀ cd, cd ∈ l ∨ s.HeldInReset cd →
    (l.foldl State.enterReset s).HeldInReset cd := by
  induction l with
  | nil => exact fun s cd h => h.resolve_left List.not_mem_nil
  | cons i l ih =>
    intro s cd h
    refine ih _ cd ?_
    rcases h with h | h
    · rcases List.mem_cons.mp h with rfl | h
      · exact .inr (s.enterReset_spec cd)
      · exact .inl h
    · exact .inr (h.enterReset i)

theorem State.wavesStopped_spec (s : State) (h1 : s.fw.resetStep = 1) (ha : s.fw.resetAll = false) :
    ∃ t, exec .wavesStopped s = .next t ∧ t.fw.resetStep = 3 ∧ ∀ cd ∈ s.fw.resetting, t.HeldInReset cd := by
  have hx : ∃ u : State, ∃ F : Fw → Fw, (∀ f, (F f).resetStep = 3) ∧
      exec .wavesStopped s = .next ((s.fw.resetting.foldl State.enterReset u).onFw F) := by
    show ∃ u : State, ∃ F : Fw → Fw, (∀ f, (F f).resetStep = 3) ∧ execWavesStopped s = _
    unfold execWavesStopped
    dsimp only
    rw [if_neg (Classical.not_not.mpr h1), ha]
    exact ⟨_, _, fun _ => rfl, rfl⟩
  obtain ⟨u, F, hF, hx⟩ := hx
  exact ⟨_, hx, hF _, fun cd h => State.foldl_enterReset_held _ u cd (.inl h)⟩

theorem State.foldl_fence (ev : Ev) (l : List Nat) : ∀ s : State,
    (l.foldl (fun s cd => s.fenceCluster cd ev true) s).fw.resetting = s.fw.resetting ∧
    ∀ i, i ∈ l ∨ s.fenced i = true → (l.foldl (fun s cd => s.fenceCluster cd ev true) s).fenced i = true := by
  induction l with
  | nil => exact fun s => ⟨rfl, fun i h => h.resolve_left List.not_mem_nil⟩
  | cons cd l ih =>
    intro s
    obtain ⟨h1, h2⟩ := ih (s.fenceCluster cd ev true)
    refine ⟨h1.trans ?_, fun i h => h2 i ?_⟩
    · by_cases hf : s.fenced cd = true
      · exact congrArg (·.fw.resetting) (if_pos hf : s.fenceCluster cd ev true = s)
      · rw [(s.fenceCluster_spec (Bool.eq_false_iff.mpr hf) ev true).1]
    · rw [State.fenceCluster_fenced]
      rcases h with h | h
      · rcases List.mem_cons.mp h with rfl | h
        · exact .inr (by rw [decide_eq_true rfl, Bool.true_or])
        · exact .inl h
      · exact .inr (by rw [h, Bool.or_true])

theorem State.resetSelftestDone_spec (s : State) (h3 : s.fw.resetStep = 3) (bad : List Nat) :
    ((∀ cd ∈ s.fw.resetting, s.heat.stacksStopped.getLsbD (dieOf cd) = false) → ∃ t, exec (.resetSelftestDone bad) s = .next t ∧
      t.fw.resetStep = 4 ∧ (∀ cd ∈ bad, cd ∈ s.fw.resetting → t.fenced cd = true) ∧
      t.fw.resetting = s.fw.resetting.filter fun cd => !(bad.contains cd)) ∧
    (∀ cd ∈ s.fw.resetting, s.heat.stacksStopped.getLsbD (dieOf cd) = true → exec (.resetSelftestDone bad) s = .next s) := by
  refine ⟨fun hs => ?_, fun cd hr hs => if_pos (.inr (List.any_eq_true.mpr ⟨cd, hr, hs⟩))⟩
  have hx : ¬(s.fw.resetStep ≠ 3 ∨ (s.fw.resetting.any fun cd => s.heat.stacksStopped.getLsbD (dieOf cd)) = true) := by
    rintro (h | h)
    · exact h h3
    · obtain ⟨cd, hr, hc⟩ := List.any_eq_true.mp h
      exact Bool.false_ne_true ((hs cd hr).symm.trans hc)
  refine ⟨_, if_neg hx, rfl, fun cd hb hr => ?_, ?_⟩
  · exact (State.foldl_fence _ _ s).2 cd (.inl (List.mem_filter.mpr ⟨hb, List.contains_iff_mem.mpr hr⟩))
  · show ((bad.filter s.fw.resetting.contains).foldl (fun s cd => s.fenceCluster cd .selftestFail true) s).fw.resetting.filter _ = _
    rw [(State.foldl_fence _ _ s).1]
    refine List.filter_congr fun cd hr => congrArg Bool.not ?_
    rw [Bool.eq_iff_iff, List.contains_iff_mem, List.contains_iff_mem, List.mem_filter]
    exact ⟨And.left, fun hb => ⟨hb, List.contains_iff_mem.mpr hr⟩⟩

theorem State.resetDelayExpiry_spec (s : State) (hr : s.fw.resetDelay = true) (h1 : s.dev ≠ .off) (h2 : s.dev ≠ .saving) (h3 : s.dev ≠ .tripped) :
    ∃ t, exec .resetDelayExpiry s = .next t ∧ t.dev = .rom ∧ t.mem = {} ∧ t.now = s.now ∧ t.fw.resetDelay = false := by
  obtain ⟨e1, e2, -, e4, -⟩ := s.deviceReset_spec
  refine ⟨s.deviceReset, if_neg ?_, e1, e2, e4, ?_⟩
  · rintro (h | h | h | h)
    · rw [hr] at h
      exact absurd h (by decide)
    · exact h1 h
    · exact h2 h
    · exact h3 h
  · unfold State.deviceReset
    dsimp only
    generalize (s.fw.retired ++ s.fw.toRetire).eraseDups = rs
    rw [(State.applied_profiled _ rs).fw]
    rfl

/-! ### Activation -/

theorem State.liveSwitch_emergency {s : State} {left : List Proc} (ha : s.fw.activation = .switching left) (he : s.emergency = true) (p : Proc) :
    exec (.liveSwitchStep p) s = .next (s.onFw fun f => { f with activation := .paused left }) := by
  show execLiveSwitchStep p s = _
  unfold execLiveSwitchStep
  rw [ha]
  exact if_pos he

/-- The processors that have not switched yet, after one switched. -/
def State.leftAfter (s : State) (left : List Proc) (p : Proc) : List Proc :=
  left.filter fun q => q != p && match q with | .cluster cd => !s.fenced cd | _ => true

/-- A processor switched: entered with its time. -/
def State.switched (s : State) (left : List Proc) (p : Proc) : State :=
  s.onFw fun f => { f with
    activation := if p = .power then .idle else .switching (s.leftAfter left p), switchedAt := put f.switchedAt (procCode p) s.now }

/-- Every cluster's clock is no faster than a quarter. -/
def State.quartered (s : State) : State :=
  { s with clusters := mapTab s.clusters fun _ k => if (Clk.div 4).slower k.clk then ({ k with clk := .div 4 } : Cluster) else k }

/-- The last switch completes the activation. -/
def State.activated (s : State) : State :=
  (((s.quartered.logEvent .fwActivated {}).alert alFw).onFw fun f => { f with fwDeferred := false, activatedAt := some s.now, newBundle := true }).onLife
    fun l => { l with activations := satAdd 32 l.activations 1 }

theorem exec_liveSwitchStep {s : State} {left : List Proc} (ha : s.fw.activation = .switching left) (he : s.emergency = false) (p : Proc) :
    exec (.liveSwitchStep p) s = if s.mayReload left p = true then
      .next (if p = .power then (s.switched left p).activated else s.switched left p) else .next s := by
  have hn : (s.quartered.logEvent .fwActivated {}).now = s.now := by
    rw [((State.Accessed.refl s.quartered).logEvent .fwActivated {}).eq]
    rfl
  show execLiveSwitchStep p s = _
  unfold execLiveSwitchStep
  rw [ha]
  dsimp only
  rw [he, if_neg (by decide)]
  cases s.mayReload left p
  · rw [if_pos (by decide), if_neg (by decide)]
  · rw [if_neg (by decide), if_pos rfl]
    by_cases hp : p = .power
    · subst hp
      rfl
    · exact (if_pos hp).trans (congrArg Host.Outcome.next (if_neg hp).symm)

/-- A control core that is not fenced has not switched yet. -/
def State.clustersLeft (s : State) (left : List Proc) : Bool := left.any fun q => match q with | .cluster cd => !s.fenced cd | _ => false

theorem State.mayReload_cluster {s : State} {left : List Proc} {cd : Nat} {p : Proc} (hl : .cluster cd ∈ left) (hf : s.fenced cd = false)
    (hp : ∀ e, p ≠ .cluster e) : s.mayReload left p = false := by
  have hc : s.clustersLeft left = true := List.any_eq_true.mpr ⟨_, hl, show (!s.fenced cd) = true by rw [hf]; rfl⟩
  cases p with
  | cluster e => exact absurd rfl (hp e)
  | scheduler =>
    show (left.contains .scheduler && !s.clustersLeft left) = false
    rw [hc, Bool.not_true, Bool.and_false]
  | security =>
    show (left.contains .security && (!s.clustersLeft left && !left.contains .scheduler)) = false
    rw [hc, Bool.not_true, Bool.false_and, Bool.and_false]
  | power =>
    show (left.contains .power && (!s.clustersLeft left && !left.contains .scheduler && !left.contains .security)) = false
    rw [hc, Bool.not_true, Bool.false_and, Bool.false_and, Bool.and_false]

theorem State.activated_spec (s : State) : s.activated.fw.activation = s.fw.activation ∧ s.activated.fw.newBundle = true ∧
    s.activated.fw.fwDeferred = false ∧ s.activated.fw.activatedAt = some s.now ∧
    s.activated.life.activations = satAdd 32 s.life.activations 1 ∧ s.activated.ctl.alertPending.getLsbD alFw = true ∧
    ∀ cd k, look s.clusters cd = some k → (s.activated.cluster cd).clk = (if (Clk.div 4).slower k.clk then .div 4 else k.clk) := by
  have hl := (State.Accessed.refl s.quartered).logEvent .fwActivated {}
  have hal : (s.quartered.logEvent .fwActivated {}).life.activations = s.life.activations := by
    rw [hl.eq]
    rfl
  have hfw : (s.quartered.logEvent .fwActivated {}).fw = s.fw := hl.fw
  have hcl : (s.quartered.logEvent .fwActivated {}).clusters = s.quartered.clusters := by rw [hl.eq]
  refine ⟨congrArg (·.activation) hfw, rfl, rfl, rfl, congrArg (satAdd 32 · 1) hal, State.alert_bit _ (by decide), fun cd k hk => ?_⟩
  unfold State.cluster lookD
  rw [show s.activated.clusters = s.quartered.clusters from hcl]
  unfold State.quartered
  rw [look_mapTab, hk]
  exact apply_ite Cluster.clk _ _ _

theorem State.liveSwitch_spec {s : State} {left : List Proc} (ha : s.fw.activation = .switching left) (he : s.emergency = false) :
    (∀ cd p, .cluster cd ∈ left → s.fenced cd = false → (∀ e, p ≠ .cluster e) → exec (.liveSwitchStep p) s = .next s) ∧
    (∀ p, p ≠ .power → s.mayReload left p = true → ∃ t, exec (.liveSwitchStep p) s = .next t ∧ t.clusters = s.clusters ∧
      look t.fw.switchedAt (procCode p) = some s.now ∧ ∃ rest, t.fw.activation = .switching rest ∧ p ∉ rest ∧ ∀ q ∈ rest, q ∈ left) ∧
    (s.mayReload left .power = true → ∃ t, exec (.liveSwitchStep .power) s = .next t ∧ t.fw.activation = .idle ∧
      t.fw.newBundle = true ∧ t.fw.fwDeferred = false ∧ t.fw.activatedAt = some s.now ∧ t.life.activations = satAdd 32 s.life.activations 1 ∧
      t.ctl.alertPending.getLsbD alFw = true ∧
      ∀ cd k, look s.clusters cd = some k → (t.cluster cd).clk = (if (Clk.div 4).slower k.clk then .div 4 else k.clk)) := by
  refine ⟨fun cd p hl hf hp => ?_, fun p hp hm => ⟨s.switched left p, ?_, rfl, look_put_same _ _ _, s.leftAfter left p, if_neg hp, fun h => ?_,
    fun q h => (List.mem_filter.mp h).1⟩, fun hm => ⟨(s.switched left .power).activated, ?_, (s.switched left .power).activated_spec⟩⟩
  · rw [exec_liveSwitchStep ha he p, State.mayReload_cluster hl hf hp]
    rfl
  · rw [exec_liveSwitchStep ha he p, if_pos hm, if_neg hp]
  · have hb := (List.mem_filter.mp h).2
    rw [bne_self_eq_false, Bool.false_and] at hb
    exact Bool.false_ne_true hb
  · rw [exec_liveSwitchStep ha he .power, if_pos hm, if_pos rfl]

theorem State.emergencyClear_resumes {s : State} {left : List Proc} (he : s.emergency = false) (ha : s.fw.activation = .paused left) :
    exec .emergencyClear s = .next (s.onFw fun f => { f with activation := .switching left }) := by
  show execEmergencyClear s = _
  unfold execEmergencyClear
  rw [he, ha]
  rfl

theorem State.emergencyClear_deferred {s : State} {d : BitVec 512} (he : s.emergency = false) (ha : s.fw.activation = .deferred d)
    (hd : s.dev = .ready) (hs : s.fw.secRestart = false) :
    exec .emergencyClear s = .next (if s.activationCheck d = none then s.startActivation else s.activateFailed) := by
  show execEmergencyClear s = _
  unfold execEmergencyClear
  rw [he, ha]
  dsimp only
  rw [hs, hd, if_neg (by decide), if_neg (by decide)]
  cases s.activationCheck d <;> rfl

theorem State.activateFailed_spec (s : State) : s.activateFailed.fw = { s.fw with activation := .idle, fwDeferred := false } ∧
    s.activateFailed.ctl.alertPending.getLsbD alFw = true :=
  ⟨((State.Accessed.refl (s.onFw fun f => { f with activation := .idle, fwDeferred := false })).logEvent .fwActivateFailed {}).fw,
    State.alert_bit _ (by decide)⟩

theorem Fw.slot_modSlot (s : State) (a : Bool) (g : Slot → Slot) : (s.modSlot a g).fw.slot a = g (s.fw.slot a) := by
  cases a <;> rfl

theorem Fw.slot_modSlot_other (s : State) (a : Bool) (g : Slot → Slot) : (s.modSlot a g).fw.slot (!a) = s.fw.slot (!a) := by
  cases a <;> rfl

theorem State.startActivation_spec (s : State) : (s.startActivation.fw.slot s.fw.chrysalis).state = .active ∧ s.startActivation.work.cache = [] ∧
    (s.byReset = true → s.startActivation.fw.activation = .idle ∧ s.startActivation.fw.resetDelay = true) ∧
    (s.byReset = false → s.startActivation.fw.image = (if s.fw.chrysalis then .slotA else .slotB) ∧ s.startActivation.fw.activation =
      .switching ((((List.range 512).filter fun cd => !s.fenced cd).map .cluster) ++ [.scheduler, .security, .power])) := by
  unfold State.startActivation
  dsimp only
  generalize (((List.range 512).filter fun cd => !s.fenced cd).map Proc.cluster) = cls
  generalize s.fw.chrysalis = a
  split
  · next hb => exact ⟨by cases a <;> rfl, rfl, fun _ => ⟨rfl, rfl⟩, fun h => absurd (hb.symm.trans h) (by decide)⟩
  · next hb => exact ⟨by cases a <;> rfl, rfl, fun h => absurd h hb, fun _ => ⟨rfl, rfl⟩⟩

theorem State.emergencyClear_spec (s : State) :
    (s.emergency = true → exec .emergencyClear s = .next s) ∧
    (s.emergency = false →
      (∀ left, s.fw.activation = .paused left → exec .emergencyClear s = .next (s.onFw fun f => { f with activation := .switching left })) ∧
      ∀ d, s.fw.activation = .deferred d → s.dev = .ready → s.fw.secRestart = false →
        (s.activationCheck d ≠ none → ∃ t, exec .emergencyClear s = .next t ∧ t.fw.activation = .idle ∧ t.fw.slotA = s.fw.slotA ∧
          t.fw.slotB = s.fw.slotB ∧ t.ctl.alertPending.getLsbD alFw = true) ∧
        (s.activationCheck d = none → ∃ t, exec .emergencyClear s = .next t ∧
          (t.fw.slot s.fw.chrysalis).state = .active ∧ t.work.cache = [] ∧
          (s.byReset = true → t.fw.activation = .idle ∧ t.fw.resetDelay = true) ∧
          (s.byReset = false → t.fw.image = (if s.fw.chrysalis then .slotA else .slotB) ∧ t.fw.activation =
            .switching ((((List.range 512).filter fun cd => !s.fenced cd).map .cluster) ++ [.scheduler, .security, .power])))) := by
  refine ⟨fun he => if_pos he, fun he => ⟨fun left ha => State.emergencyClear_resumes he ha, fun d ha hd hs => ⟨fun hc => ?_, fun hc => ?_⟩⟩⟩
  · obtain ⟨hf, hal⟩ := s.activateFailed_spec
    refine ⟨_, (State.emergencyClear_deferred he ha hd hs).trans (congrArg Host.Outcome.next (if_neg hc)), ?_, ?_, ?_, hal⟩
    · rw [hf]
    · rw [hf]
    · rw [hf]
  · exact ⟨_, (State.emergencyClear_deferred he ha hd hs).trans (congrArg Host.Outcome.next (if_pos hc)), s.startActivation_spec⟩

/-! ### Rollback, SVN and the staging area -/

/-- A rollback from the slot that runs. -/
def State.rolledBack (s : State) (a : Bool) : State :=
  ((s.modSlot a fun x => { x with state := .failed }).onFw fun f => { f with
    image := if a then .slotB else .slotA, switchedRestarts := [], switchFails := 0, switchedAt := [], newBundle := false, activatedAt := none }).activateFailed

theorem State.rollback_due {s : State} (hd : (∃ p ∈ s.fw.switchedRestarts, 2 ≤ p.2) ∨ 8 < s.fw.switchFails) {a : Bool}
    (hi : s.fw.image = if a then .slotA else .slotB) : exec .rollback s = .next (s.rolledBack a) := by
  have hdue : ((s.fw.switchedRestarts.any fun p => decide (2 ≤ p.2)) || decide (8 < s.fw.switchFails)) = true := by
    rcases hd with ⟨p, hp, h2⟩ | h8
    · rw [List.any_eq_true.mpr ⟨p, hp, decide_eq_true h2⟩, Bool.true_or]
    · rw [decide_eq_true h8, Bool.or_true]
  show execRollback s = _
  unfold execRollback
  dsimp only
  rw [hdue, hi]
  cases a <;> rfl

theorem State.rollback_idle {s : State} (hr : ∀ p ∈ s.fw.switchedRestarts, p.2 < 2) (hf : s.fw.switchFails ≤ 8) : exec .rollback s = .next s := by
  have hdue : ((s.fw.switchedRestarts.any fun p => decide (2 ≤ p.2)) || decide (8 < s.fw.switchFails)) = false := by
    rw [decide_eq_false (Nat.not_lt.mpr hf), Bool.or_false, List.any_eq_false]
    exact fun p hp h => absurd (of_decide_eq_true h) (Nat.not_le.mpr (hr p hp))
  show execRollback s = _
  unfold execRollback
  dsimp only
  rw [hdue, if_pos (.inl rfl)]

theorem State.rollback_spec (s : State) :
    ((∃ p ∈ s.fw.switchedRestarts, 2 ≤ p.2) ∨ 8 < s.fw.switchFails →
      (s.fw.image = .slotA → ∃ t, exec .rollback s = .next t ∧ t.fw.slotA.state = .failed ∧ t.fw.image = .slotB ∧
        t.fw.activation = .idle ∧ t.fw.slotB = s.fw.slotB) ∧
      (s.fw.image = .slotB → ∃ t, exec .rollback s = .next t ∧ t.fw.slotB.state = .failed ∧ t.fw.image = .slotA ∧
        t.fw.activation = .idle ∧ t.fw.slotA = s.fw.slotA)) ∧
    ((∀ p ∈ s.fw.switchedRestarts, p.2 < 2) → s.fw.switchFails ≤ 8 → exec .rollback s = .next s) := by
  have hfw (a : Bool) : ∃ v : State, (s.rolledBack a).fw = { v.fw with activation := .idle, fwDeferred := false } ∧
      v = (s.modSlot a fun x => { x with state := .failed }).onFw fun f => { f with
        image := if a then .slotB else .slotA, switchedRestarts := [], switchFails := 0, switchedAt := [], newBundle := false, activatedAt := none } :=
    ⟨_, (State.activateFailed_spec _).1, rfl⟩
  refine ⟨fun hd => ⟨fun hi => ⟨_, State.rollback_due (a := true) hd hi, ?_⟩, fun hi => ⟨_, State.rollback_due (a := false) hd hi, ?_⟩⟩, State.rollback_idle⟩
  · obtain ⟨v, hv, rfl⟩ := hfw true
    rw [hv]
    exact ⟨rfl, rfl, rfl, rfl⟩
  · obtain ⟨v, hv, rfl⟩ := hfw false
    rw [hv]
    exact ⟨rfl, rfl, rfl, rfl⟩

/-- The advance of SVN that a bundle asks for. -/
def State.svnAdvanced (s : State) (b : BundleInfo) : State :=
  s.onFw fun f => { f with
    newBundle := false
    svn := if b.advanceSvn then max f.svn b.secVersion else f.svn
    kh0Revoked := f.kh0Revoked || (b.revokeKey0 && b.keyIndex == 1) }

theorem exec_svnAdvance {s : State} {b : BundleInfo} (hb : s.activeBundle = some b) (hd : s.dev = .ready) :
    exec .svnAdvance s = if s.fw.newBundle = true then .next (s.svnAdvanced b) else .next s := by
  show execSvnAdvance s = _
  unfold execSvnAdvance
  rw [hb]
  dsimp only
  rw [hd]
  cases s.fw.newBundle <;> rfl

theorem State.svnAdvance_spec (s : State) (b : BundleInfo) (hb : s.activeBundle = some b) (hd : s.dev = .ready) :
    (s.fw.newBundle = true → ∃ t, exec .svnAdvance s = .next t ∧ t.fw.newBundle = false ∧
      t.fw.svn = (if b.advanceSvn then max s.fw.svn b.secVersion else s.fw.svn) ∧
      (t.fw.kh0Revoked = true ↔ s.fw.kh0Revoked = true ∨ b.revokeKey0 = true ∧ b.keyIndex = 1) ∧ exec .svnAdvance t = .next t) ∧
    (s.fw.newBundle = false → exec .svnAdvance s = .next s) := by
  refine ⟨fun hn => ⟨_, (exec_svnAdvance hb hd).trans (if_pos hn), rfl, rfl, ?_, ?_⟩, fun hn => ?_⟩
  · show (s.fw.kh0Revoked || (b.revokeKey0 && b.keyIndex == 1)) = true ↔ _
    rw [Bool.or_eq_true, Bool.and_eq_true, beq_iff_eq]
  · exact (exec_svnAdvance (s := s.svnAdvanced b) hb hd).trans (if_neg Bool.false_ne_true)
  · rw [exec_svnAdvance hb hd, hn, if_neg Bool.false_ne_true]

theorem State.stagingEraseDone_spec (s : State) :
    (∀ a, s.fw.erasing = some a → ∃ t, exec .stagingEraseDone s = .next t ∧ t.fw.slot a = {} ∧ t.fw.erasing = none ∧
      t.fw.slot (!a) = s.fw.slot (!a)) ∧
    (s.fw.erasing = none → exec .stagingEraseDone s = .next s) := by
  refine ⟨fun a ha => ⟨(s.modSlot a fun _ => {}).onFw fun f => { f with erasing := none }, ?_, Fw.slot_modSlot s a _, rfl,
    Fw.slot_modSlot_other s a _⟩, fun ha => ?_⟩
  · show execStagingEraseDone s = _
    unfold execStagingEraseDone
    rw [ha]
  · show execStagingEraseDone s = _
    unfold execStagingEraseDone
    rw [ha]

/-! ### Error records -/

theorem State.writeRecord_log (s : State) (r : ErrRec) : (s.writeRecord r).log = { s.log with
    ring := put s.log.ring (s.log.next % 65536) { r with index := s.log.next }, next := s.log.next + 1, records := satAdd 32 s.log.records 1 } := by
  unfold State.writeRecord
  dsimp only
  split <;> rfl

theorem State.errorRecordWrite_spec (s : State) (e u i : Nat) :
    let f := s.log.open_.find? fun r => r.event == e && r.unitType == u && r.unitIndex == i
    (f = none → exec (.errorRecordWrite e u i) s = .next s) ∧
    ∀ r, f = some r → ∃ t, exec (.errorRecordWrite e u i) s = .next t ∧ r ∉ t.log.open_ ∧ t.log.next = s.log.next + 1 ∧
      look t.log.ring (s.log.next % 65536) = some { r with index := s.log.next } ∧
      ((∃ v ∈ [Ev.phaseFail, .sliceUe, .sliceStuck, .sliceAddr, .outerUe, .packageFailed, .ownershipChanged, .serviceReset], v.code = e) →
        s.log.next ∈ t.life.toCopy) := by
  intro f
  have hx : exec (.errorRecordWrite e u i) s = execErrorRecordWrite e u i s := rfl
  refine ⟨fun hf => ?_, fun r hf => ?_⟩
  · rw [hx]
    unfold execErrorRecordWrite
    rw [show (s.log.open_.find? fun r => r.event == e && r.unitType == u && r.unitIndex == i) = none from hf]
  · obtain ⟨w, hw⟩ : ∃ w : State, w = ({ s with log := { s.log with open_ := s.log.open_.filter fun x => x != r } } : State).writeRecord r := ⟨_, rfl⟩
    have hl := State.writeRecord_log { s with log := { s.log with open_ := s.log.open_.filter fun x => x != r } } r
    rw [← hw] at hl
    have hn : r ∉ w.log.open_ := by
      rw [hl]
      intro h
      have hb := (List.mem_filter.mp h).2
      rw [bne_self_eq_false] at hb
      exact Bool.false_ne_true hb
    have hnext : w.log.next = s.log.next + 1 := by rw [hl]
    have hring : look w.log.ring (s.log.next % 65536) = some { r with index := s.log.next } := by
      rw [hl]
      exact look_put_same _ _ _
    have he : exec (.errorRecordWrite e u i) s = .next
        (if ([Ev.phaseFail, .sliceUe, .sliceStuck, .sliceAddr, .outerUe, .packageFailed, .ownershipChanged, .serviceReset].any fun v => v.code == e) = true
          then w.onLife fun l => { l with toCopy := l.toCopy ++ [s.log.next] } else w) := by
      rw [hx, hw]
      unfold execErrorRecordWrite
      rw [show (s.log.open_.find? fun r => r.event == e && r.unitType == u && r.unitIndex == i) = some r from hf]
    rw [he]
    split
    · exact ⟨_, rfl, hn, hnext, hring, fun _ => List.mem_append_right _ (List.mem_singleton.mpr rfl)⟩
    · next hc => exact ⟨w, rfl, hn, hnext, hring, fun ⟨v, hv, hve⟩ => absurd ((List.any_eq_true (p := fun v : Ev => v.code == e)).mpr ⟨v, hv, beq_iff_eq.mpr hve⟩) hc⟩

theorem State.serviceLifeCopy_spec (s : State) (n : Nat) : (n ∉ s.life.toCopy → exec (.serviceLifeCopy n) s = .next s) ∧
    ∀ r, n ∈ s.life.toCopy → look s.log.ring (n % 65536) = some r → r.index = n → ∃ t, exec (.serviceLifeCopy n) s = .next t ∧
      n ∉ t.life.toCopy ∧ t.life.copies = (r :: s.life.copies).take 65536 := by
  refine ⟨fun h => if_pos (by simpa using h), fun r hm hl hr => ?_⟩
  refine ⟨s.onLife fun l => { l with toCopy := l.toCopy.filter (· != n), copies := (r :: l.copies).take 65536 }, ?_, ?_, rfl⟩
  · show execServiceLifeCopy n s = _
    unfold execServiceLifeCopy
    dsimp only
    rw [if_neg (by simpa using hm), hl, Option.bind_some, if_pos hr]
  · intro h
    have hb := (List.mem_filter.mp h).2
    rw [bne_self_eq_false] at hb
    exact Bool.false_ne_true hb

/-- Settles O56: a DEVICE-class error begins a compute reset or, the third within 600 s, is a device reset; the stopped clusters are held
in reset and self-tested; activation switches processor by processor; a rollback, the advance of SVN and the writing of records follow. -/
theorem resetsActivationAndRecords : Obligations.ResetsActivationAndRecords := by
  unfold Obligations.ResetsActivationAndRecords
  intro s
  exact ⟨fun ev he hd => State.deviceErrorReset_spec he hd, s.wavesStopped_spec, s.resetSelftestDone_spec,
    ⟨s.resetDelayExpiry_spec, fun h => if_pos (.inl (by rw [h]; rfl))⟩,
    fun left ha => ⟨State.liveSwitch_emergency ha, State.liveSwitch_spec ha⟩, s.emergencyClear_spec, s.rollback_spec, s.svnAdvance_spec,
    s.stagingEraseDone_spec, s.errorRecordWrite_spec, s.serviceLifeCopy_spec⟩

end Sys2Proof.Machine
end

