-- ==== Sys2Proof/Proofs/Rom.lean ====
section
/-!
Cold bring-up: ROM and its choice of an image, the entry into TRAINING, and the end of training.
-/

namespace Sys2Proof.Machine

/-! ### Boot codes -/

theorem State.Accessed.onLifeCopy {s t : State} (h : s.Accessed t) (n : Nat) :
    s.Accessed (t.onLife fun l => { l with toCopy := l.toCopy ++ [n] }) := h.trans ⟨rfl, fun _ => rfl⟩

/-- The firmware's entry of a boot code. -/
def Fw.raised (f : Fw) (code : Nat) : Fw := { f with bootCode := max f.bootCode code, stopped := f.stopped || decide (0x10 ≤ code) }

theorem State.raiseBoot_accessed (s : State) (code : Nat) : (s.onFw fun f => f.raised code).Accessed (s.raiseBoot code) :=
  .ite (.logRec (.refl _) _) (.onLifeCopy (.logRec (.refl _) _) _)

theorem State.raiseBoot_fw (s : State) (code : Nat) : (s.raiseBoot code).fw = s.fw.raised code := (s.raiseBoot_accessed code).fw

theorem State.raiseBoot_dev (s : State) (code : Nat) : (s.raiseBoot code).dev = s.dev := (s.raiseBoot_accessed code).dev

theorem State.raiseBoot_pwr (s : State) (code : Nat) : (s.raiseBoot code).pwr = s.pwr := by rw [(s.raiseBoot_accessed code).eq]; rfl

theorem State.raiseBoot_fenced (s : State) (code cd : Nat) : (s.raiseBoot code).fenced cd = s.fenced cd :=
  congrArg Cluster.fenced ((s.raiseBoot_accessed code).cluster cd)

theorem Fw.raised_low (f : Fw) {code : Nat} (h : code < 0x10) : f.raised code = { f with bootCode := max f.bootCode code } := by
  unfold Fw.raised
  rw [decide_eq_false (Nat.not_le.mpr h), Bool.or_false]

/-- The device is stopped in ROM with a boot code. -/
def State.StoppedWith (s t : State) (code : Nat) : Prop :=
  t.fw.stopped = true ∧ t.fw.bootCode = max s.fw.bootCode code ∧ t.fw.secUp = false ∧ t.dev = .rom ∧ t.alertN = false

theorem State.raiseBoot_stops {s u : State} {code : Nat} (hc : 0x10 ≤ code) (hb : u.fw.bootCode = s.fw.bootCode) (hs : u.fw.secUp = false)
    (hd : u.dev = .rom) : s.StoppedWith (u.raiseBoot code) code := by
  have hst : (u.raiseBoot code).fw.stopped = true := by
    rw [State.raiseBoot_fw]
    show (u.fw.stopped || decide (0x10 ≤ code)) = true
    rw [decide_eq_true hc, Bool.or_true]
  refine ⟨hst, ?_, ?_, (u.raiseBoot_dev code).trans hd, ?_⟩
  · rw [State.raiseBoot_fw, ← hb]
    rfl
  · rw [State.raiseBoot_fw]
    exact hs
  · unfold State.alertN
    rw [hst, Bool.or_true]
    rfl

/-! ### POWERING -/

theorem State.poweringDone_spec (s : State) (uf : Nat) (hd : s.dev = .powering) : ∃ t, exec (.poweringDone uf) s = .next t ∧ t.dev = .rom ∧
    t.pwr.holdupUf = uf ∧ t.pwr.holdupLow = decide (uf < 4700) ∧ (uf < 4700 → t.ctl.alertPending.getLsbD alPower = true) := by
  obtain ⟨u, hu⟩ : ∃ u : State, u = { s with
    dev := .rom
    pwr := { s.pwr with firstStage := true, vpkg := true, vom := true, holdupUf := uf, holdupLow := decide (uf < 4700) }
    fw := { s.fw with rstHeld := s.pwr.rstLow } } := ⟨_, rfl⟩
  have hx : exec (.poweringDone uf) s = .next (if decide (uf < 4700) = true then (u.logEvent .holdupLow {}).alert alPower else u) := by
    rw [hu]
    exact if_neg (Classical.not_not.mpr hd)
  refine ⟨_, hx, ?_⟩
  split
  · have hl := (State.Accessed.refl u).logEvent .holdupLow {}
    have hp : (u.logEvent .holdupLow {}).pwr = u.pwr := by rw [hl.eq]
    refine ⟨hl.dev.trans (by rw [hu]), ?_, ?_, fun _ => State.alert_bit _ (by decide)⟩
    · show (u.logEvent .holdupLow {}).pwr.holdupUf = uf
      rw [hp, hu]
    · show (u.logEvent .holdupLow {}).pwr.holdupLow = _
      rw [hp, hu]
  · next h =>
    rw [hu]
    exact ⟨rfl, rfl, rfl, fun hlt => absurd (decide_eq_true hlt) h⟩

/-! ### ROM -/

/-- The straps as ROM latches them. -/
def State.strapped (s : State) (i : RomInput) : State :=
  s.onFw fun f => { f with strapsLatched := true, diePos := i.diePos, guestDie := i.guestDie, guestPop := i.guestPop }

/-- ROM's choice of an image. -/
def State.chosen (s : State) (i : RomInput) : State :=
  if i.recovLow then s.takeRecovery i 0x03 else s.chooseImage i s.fw.candidates (s.fw.excluded.any fun x => x != .recovery)

/-- What ROM does once it has an image. -/
def State.leaveRom (s : State) (i : RomInput) : State :=
  let s3 := (s.readProfile i).onPwr fun p => { p with guestOn := s.fw.guestPop }
  if s3.fw.coldBoot ∧ (keys s3.fw.lastGasp).length = 64 then s3.logEvent .lastGaspFull { ut := utFlash } else s3

section Rom

variable {s : State} {i : RomInput}

theorem exec_romEntry (hd : s.dev = .rom) (hr : s.fw.rstHeld = false) (hs : s.fw.secUp = false) (hst : s.fw.stopped = false)
    (hl : s.fw.strapsLatched = false) :
    exec (.romEntry i) s = if strapsOk i.diePos i.guestDie = false then .next ((s.strapped i).raiseBoot 0x10)
      else if i.hubOk = false then .next ((s.strapped i).raiseBoot 0x14)
      else if i.flashOk = false then .next ((s.strapped i).raiseBoot 0x11)
      else if s.fw.kh1.isNone ∧ (s.fw.kh0.isNone ∨ s.fw.kh0Revoked) then .next ((s.strapped i).raiseBoot 0x12)
      else if ((s.strapped i).chosen i).fw.secUp = false then .next ((s.strapped i).chosen i)
      else .next (((s.strapped i).chosen i).leaveRom i) := by
  have hn (b : Bool) : ((!b) = true) = (b = false) := by cases b <;> simp
  show execRomEntry i s = _
  unfold execRomEntry
  dsimp only
  rw [hd, hr, hs, hst, hl, if_neg (by decide), if_neg Bool.false_ne_true]
  refine ite_congr (hn _) (fun _ => rfl) fun _ => ite_congr (hn _) (fun _ => rfl) fun _ =>
    ite_congr (hn _) (fun _ => rfl) fun _ => ite_congr rfl (fun _ => rfl) fun _ => ?_
  exact ite_congr (hn _) (fun _ => rfl) fun _ => rfl

theorem State.takeRecovery_stops (u : State) (code : Nat) (hp : i.recoveryPass = false) : u.takeRecovery i code = u.raiseBoot 0x13 := by
  unfold State.takeRecovery
  split
  · refine if_neg fun h => ?_
    rw [hp] at h
    exact Bool.false_ne_true h.1
  · rfl

theorem State.takeRecovery_takes (u : State) {b : BundleInfo} (code : Nat) (hb : u.fw.recovery = some b) (hp : i.recoveryPass = true)
    (hk : u.fw.keyOk b = true) (hx : Image.recovery ∉ u.fw.excluded) :
    u.takeRecovery i code = (u.raiseBoot code).notBooted.takeImage .recovery := by
  unfold State.takeRecovery
  rw [hb]
  refine if_pos ⟨hp, hk, ?_⟩
  simpa using hx

end Rom

/-- What ROM does to the firmware's record after it has an image: profile entries and boot codes alone. -/
structure Fw.LeftRom (f g : Fw) : Prop where
  image : g.image = f.image
  secUp : g.secUp = f.secUp
  diePos : g.diePos = f.diePos
  guestDie : g.guestDie = f.guestDie
  guestPop : g.guestPop = f.guestPop
  slotA : g.slotA = f.slotA
  slotB : g.slotB = f.slotB
  bootCode : f.bootCode ≤ g.bootCode

theorem State.readProfile_spec (s : State) (i : RomInput) : s.fw.LeftRom (s.readProfile i).fw ∧ (s.readProfile i).dev = s.dev := by
  have hf (u : State) : (u.profiled).fw = u.fw ∧ u.profiled.dev = u.dev := ⟨rfl, rfl⟩
  have hend (u : State) (h : s.fw.LeftRom u.fw) (hd : u.dev = s.dev) :
      s.fw.LeftRom (u.raiseBoot 0x01).profiled.fw ∧ (u.raiseBoot 0x01).profiled.dev = s.dev := by
    rw [(hf _).1, (hf _).2, State.raiseBoot_fw, Fw.raised_low _ (by decide), State.raiseBoot_dev]
    exact ⟨{ h with bootCode := Nat.le_trans h.bootCode (Nat.le_max_left _ _) }, hd⟩
  unfold State.readProfile
  dsimp only
  split
  · exact ⟨⟨rfl, rfl, rfl, rfl, rfl, rfl, rfl, Nat.le_refl _⟩, rfl⟩
  · refine hend _ ?_ ?_
    · split <;> split <;> exact ⟨rfl, rfl, rfl, rfl, rfl, rfl, rfl, Nat.le_refl _⟩
    · split <;> split <;> rfl

theorem State.leaveRom_spec (s : State) (i : RomInput) : s.fw.LeftRom (s.leaveRom i).fw ∧ (s.leaveRom i).dev = s.dev ∧
    (s.leaveRom i).pwr.guestOn = s.fw.guestPop := by
  obtain ⟨h1, h2⟩ := s.readProfile_spec i
  have ha : ((s.readProfile i).onPwr fun p => { p with guestOn := s.fw.guestPop }).Accessed (s.leaveRom i) :=
    .ite (.logEvent (.refl _) _ _) (.refl _)
  refine ⟨?_, ha.dev.trans h2, ?_⟩
  · rw [ha.fw]
    exact h1
  · rw [ha.eq]
    rfl

theorem State.takeRecovery_slots (s : State) (i : RomInput) (code : Nat) (a : Bool) :
    (s.takeRecovery i code).fw.slot a = s.fw.slot a := by
  have hr (c : Nat) : (s.raiseBoot c).fw.slot a = s.fw.slot a := by
    rw [State.raiseBoot_fw]
    rfl
  unfold State.takeRecovery
  split
  · split
    · exact hr code
    · exact hr _
  · exact hr _

/-- A slot that failed stays FAILED while ROM tries the others. -/
theorem State.chooseImage_failed (i : RomInput) (a : Bool) (l : List Bool) : ∀ (s : State) (fell : Bool), (s.fw.slot a).state = .failed →
    ((s.chooseImage i l fell).fw.slot a).state = .failed := by
  induction l with
  | nil =>
    intro s fell h
    show ((s.takeRecovery i 0x04).fw.slot a).state = _
    rw [State.takeRecovery_slots]
    exact h
  | cons b l ih =>
    intro s fell h
    unfold State.chooseImage
    split
    · split
      · show ((s.raiseBoot 0x02).fw.slot a).state = _
        rw [State.raiseBoot_fw]
        exact h
      · exact h
    · refine ih _ true ?_
      cases a <;> cases b
      · rfl
      · exact h
      · exact h
      · rfl

section Rom

variable {s : State} {i : RomInput} (hd : s.dev = .rom) (hr : s.fw.rstHeld = false) (hs : s.fw.secUp = false) (hst : s.fw.stopped = false)
  (hl : s.fw.strapsLatched = false)

include hd hr hs hst hl

theorem State.rom_badStraps (hok : strapsOk i.diePos i.guestDie = false) :
    ∃ t, exec (.romEntry i) s = .next t ∧ s.StoppedWith t 0x10 :=
  ⟨_, (exec_romEntry hd hr hs hst hl).trans (if_pos hok), State.raiseBoot_stops (by decide) rfl hs hd⟩

variable (hok : strapsOk i.diePos i.guestDie = true)

include hok

theorem State.rom_badHub (hh : i.hubOk = false) : ∃ t, exec (.romEntry i) s = .next t ∧ s.StoppedWith t 0x14 := by
  refine ⟨_, (exec_romEntry hd hr hs hst hl).trans ?_, State.raiseBoot_stops (u := s.strapped i) (by decide) rfl hs hd⟩
  rw [hok, if_neg (by decide), if_pos hh]

theorem State.rom_badFlash (hh : i.hubOk = true) (hf : i.flashOk = false) : ∃ t, exec (.romEntry i) s = .next t ∧ s.StoppedWith t 0x11 := by
  refine ⟨_, (exec_romEntry hd hr hs hst hl).trans ?_, State.raiseBoot_stops (u := s.strapped i) (by decide) rfl hs hd⟩
  rw [hok, if_neg (by decide), hh, if_neg (by decide), if_pos hf]

variable (hh : i.hubOk = true) (hf : i.flashOk = true)

include hh hf

theorem State.rom_noKey (hk : s.fw.kh1 = none) (hv : s.fw.kh0Revoked = true) : ∃ t, exec (.romEntry i) s = .next t ∧ s.StoppedWith t 0x12 := by
  refine ⟨_, (exec_romEntry hd hr hs hst hl).trans ?_, State.raiseBoot_stops (u := s.strapped i) (by decide) rfl hs hd⟩
  rw [hok, if_neg (by decide), hh, if_neg (by decide), hf, if_neg (by decide), if_pos ⟨by rw [hk]; rfl, .inr hv⟩]

variable (hk : s.fw.kh1.isSome = true)

include hk

/-- ROM takes the image that its choice ends in, or stops where it ends in none. -/
theorem State.rom_chosen {u : State} (hu : (s.strapped i).chosen i = u) :
    exec (.romEntry i) s = .next (if u.fw.secUp = false then u else u.leaveRom i) := by
  refine (exec_romEntry hd hr hs hst hl).trans ?_
  have hkn : ¬(s.fw.kh1.isNone = true ∧ (s.fw.kh0.isNone = true ∨ s.fw.kh0Revoked = true)) := fun h => by
    rw [Option.isNone_iff_eq_none] at h
    rw [h.1] at hk
    exact Bool.false_ne_true hk
  rw [hok, if_neg (by decide), hh, if_neg (by decide), hf, if_neg (by decide), if_neg hkn, hu]
  exact (apply_ite Host.Outcome.next _ _ _).symm

theorem State.rom_takesSlot {a : Bool} {l : List Bool} (hv : i.recovLow = false) (hc : s.fw.candidates = a :: l) (hp : s.slotPasses i a = true) :
    ∃ t, exec (.romEntry i) s = .next t ∧ t.fw.image = (if a then .slotA else .slotB) ∧ t.fw.secUp = true ∧ t.fw.diePos = i.diePos ∧
      t.fw.guestDie = i.guestDie ∧ t.fw.guestPop = i.guestPop ∧ t.pwr.guestOn = i.guestPop ∧ t.dev = .rom := by
  obtain ⟨v, hvf, hvd⟩ : ∃ v : State, (v.fw.diePos = i.diePos ∧ v.fw.guestDie = i.guestDie ∧ v.fw.guestPop = i.guestPop ∧ v.dev = .rom) ∧
      (s.strapped i).chosen i = v.takeImage (if a then .slotA else .slotB) := by
    have hch : (s.strapped i).chosen i = (if ((s.strapped i).fw.excluded.any fun x => x != .recovery) = true
        then ((s.strapped i).raiseBoot 0x02).notBooted else s.strapped i).takeImage (if a then .slotA else .slotB) := by
      unfold State.chosen
      rw [hv, if_neg Bool.false_ne_true, show (s.strapped i).fw.candidates = a :: l from hc]
      exact if_pos hp
    refine ⟨_, ?_, hch⟩
    split
    · show (((s.strapped i).raiseBoot 0x02).fw.diePos = _ ∧ ((s.strapped i).raiseBoot 0x02).fw.guestDie = _ ∧
        ((s.strapped i).raiseBoot 0x02).fw.guestPop = _ ∧ ((s.strapped i).raiseBoot 0x02).dev = _)
      rw [State.raiseBoot_fw, State.raiseBoot_dev]
      exact ⟨rfl, rfl, rfl, hd⟩
    · exact ⟨rfl, rfl, rfl, hd⟩
  obtain ⟨h1, h2, h3, h4⟩ := hvf
  obtain ⟨e, e2, e3⟩ := (v.takeImage (if a then .slotA else .slotB)).leaveRom_spec i
  refine ⟨_, (State.rom_chosen hd hr hs hst hl hok hh hf hk hvd).trans (congrArg Host.Outcome.next (if_neg fun h => Bool.false_ne_true (Eq.symm h))), e.image, e.secUp,
    e.diePos.trans h1, e.guestDie.trans h2, e.guestPop.trans h3, e3.trans h3, e2.trans h4⟩

theorem State.rom_failsSlot {a : Bool} {l : List Bool} (hv : i.recovLow = false) (hc : s.fw.candidates = a :: l) (hp : s.slotPasses i a = false) :
    ∃ t, exec (.romEntry i) s = .next t ∧ (t.fw.slot a).state = .failed := by
  obtain ⟨u, hu⟩ : ∃ u, (s.strapped i).chosen i = u := ⟨_, rfl⟩
  have huf : (u.fw.slot a).state = .failed := by
    have hch : u = ((s.strapped i).modSlot a fun x => { x with state := .failed }).chooseImage i l true := by
      rw [← hu]
      unfold State.chosen
      rw [hv, if_neg Bool.false_ne_true, show (s.strapped i).fw.candidates = a :: l from hc]
      refine if_neg ?_
      rw [show (s.strapped i).slotPasses i a = s.slotPasses i a from rfl, hp]
      decide
    rw [hch]
    refine State.chooseImage_failed i a l _ true ?_
    rw [Fw.slot_modSlot]
  refine ⟨_, State.rom_chosen hd hr hs hst hl hok hh hf hk hu, ?_⟩
  split
  · exact huf
  · obtain ⟨e, -⟩ := u.leaveRom_spec i
    have hslot : (u.leaveRom i).fw.slot a = u.fw.slot a := by
      unfold Fw.slot
      rw [e.slotA, e.slotB]
    rw [hslot]
    exact huf

omit hd hr hs hst hl hok hh hf hk in
/-- Without a slot to try, or with the recovery jumper, the recovery image is tried. -/
theorem State.chosen_recovery (hv : i.recovLow = true ∨ s.fw.candidates = []) :
    (s.strapped i).chosen i = (s.strapped i).takeRecovery i (if i.recovLow then 0x03 else 0x04) := by
  unfold State.chosen
  split
  · rfl
  · next hn =>
    rw [show (s.strapped i).fw.candidates = [] from hv.resolve_left hn]
    rfl

theorem State.rom_takesRecovery {b : BundleInfo} (hb : s.fw.recovery = some b) (hp : i.recoveryPass = true) (hko : s.fw.keyOk b = true)
    (hx : Image.recovery ∉ s.fw.excluded) (hv : i.recovLow = true ∨ s.fw.candidates = []) :
    ∃ t, exec (.romEntry i) s = .next t ∧ t.fw.image = .recovery ∧ t.fw.secUp = true ∧ (if i.recovLow then 3 else 4) ≤ t.fw.bootCode := by
  have hch := (State.chosen_recovery hv).trans
    (State.takeRecovery_takes (i := i) (s.strapped i) (if i.recovLow then 0x03 else 0x04) hb hp hko hx)
  obtain ⟨e, -⟩ := (State.takeImage (State.notBooted ((s.strapped i).raiseBoot (if i.recovLow then 0x03 else 0x04))) .recovery).leaveRom_spec i
  refine ⟨_, (State.rom_chosen hd hr hs hst hl hok hh hf hk hch).trans (congrArg Host.Outcome.next (if_neg fun h => Bool.false_ne_true (Eq.symm h))), e.image, e.secUp,
    Nat.le_trans ?_ e.bootCode⟩
  show _ ≤ ((s.strapped i).raiseBoot (if i.recovLow then 0x03 else 0x04)).fw.bootCode
  rw [State.raiseBoot_fw]
  exact Nat.le_max_right _ _

theorem State.rom_noImage (hp : i.recoveryPass = false) (hv : i.recovLow = true ∨ s.fw.candidates = []) :
    ∃ t, exec (.romEntry i) s = .next t ∧ s.StoppedWith t 0x13 := by
  have hch := (State.chosen_recovery hv).trans
    ((s.strapped i).takeRecovery_stops (i := i) (if i.recovLow then 0x03 else 0x04) hp)
  have hstop := State.raiseBoot_stops (s := s) (u := s.strapped i) (code := 0x13) (by decide) rfl hs hd
  exact ⟨_, (State.rom_chosen hd hr hs hst hl hok hh hf hk hch).trans (congrArg Host.Outcome.next (if_pos hstop.2.2.1)), hstop⟩

end Rom

end Sys2Proof.Machine
end

