-- ==== Sys2Proof/Proofs/Training.lean ====
section
/-!
Cold bring-up: the entry into TRAINING, and the end of training, of filling and of the self-test.
-/

namespace Sys2Proof.Machine

/-! ### The entry into TRAINING -/

/-- The start of training on one cluster. -/
def State.trainStep (s : State) (cd : Nat) : State :=
  if s.fenced cd then s
  else if (s.cluster cd).working ≤ 3 then s.phaseRule cd
  else (s.modCluster cd fun k => { k with dom := .waitBudget }).newTarget cd

/-- From `s` to `t` no cluster but `cd` changes its domain, its phases or its fence, and the power core's state stays. -/
structure State.TrainedOne (cd : Nat) (s t : State) : Prop where
  dev : t.dev = s.dev
  lys : t.lys = s.lys
  powUp : t.fw.powUp = s.fw.powUp
  powRestart : t.fw.powRestart = s.fw.powRestart
  schUp : t.fw.schUp = s.fw.schUp
  other : ∀ c, c ≠ cd → t.fenced c = s.fenced c ∧ (t.cluster c).working = (s.cluster c).working ∧ (t.cluster c).dom = (s.cluster c).dom

theorem State.TrainedOne.refl (cd : Nat) (s : State) : State.TrainedOne cd s s := ⟨rfl, rfl, rfl, rfl, rfl, fun _ _ => ⟨rfl, rfl, rfl⟩⟩

theorem State.TrainedOne.modCluster (s : State) (cd : Nat) (f : Cluster → Cluster) : State.TrainedOne cd s (s.modCluster cd f) :=
  ⟨rfl, rfl, rfl, rfl, rfl, fun c hc => by rw [State.fenced, State.fenced, State.modCluster_cluster_ne _ _ hc]; exact ⟨rfl, rfl, rfl⟩⟩

theorem State.TrainedOne.trans {cd : Nat} {s t u : State} (h₁ : State.TrainedOne cd s t) (h₂ : State.TrainedOne cd t u) :
    State.TrainedOne cd s u := by
  refine ⟨h₂.dev.trans h₁.dev, h₂.lys.trans h₁.lys, h₂.powUp.trans h₁.powUp, h₂.powRestart.trans h₁.powRestart, h₂.schUp.trans h₁.schUp,
    fun c hc => ?_⟩
  obtain ⟨a1, a2, a3⟩ := h₁.other c hc
  obtain ⟨b1, b2, b3⟩ := h₂.other c hc
  exact ⟨b1.trans a1, b2.trans a2, b3.trans a3⟩

theorem State.TrainedOne.newTarget (s : State) (cd : Nat) : State.TrainedOne cd s (s.newTarget cd) := by
  obtain ⟨f, hf⟩ : ∃ f, s.newTarget cd = (s.modCluster cd f).draw := ⟨_, rfl⟩
  rw [hf]
  exact (State.TrainedOne.modCluster s cd f).trans ⟨rfl, rfl, rfl, rfl, rfl, fun _ _ => ⟨rfl, rfl, rfl⟩⟩

theorem State.TrainedOne.fenceCluster (s : State) (cd : Nat) (ev : Ev) : State.TrainedOne cd s (s.fenceCluster cd ev true) := by
  cases hf : s.fenced cd with
  | true =>
    rw [show s.fenceCluster cd ev true = s from if_pos hf]
    exact .refl cd s
  | false =>
    have h := s.fenceCluster_worked hf ev true
    refine ⟨by rw [h.eq]; rfl, by rw [h.eq]; rfl, by rw [h.eq]; rfl, by rw [h.eq]; rfl, by rw [h.eq]; rfl, fun c hc => ?_⟩
    have hcl := h.cluster c
    rw [show (s.fencedAt cd).cluster c = s.cluster c from s.modCluster_cluster_ne Cluster.fencedNow hc] at hcl
    unfold State.fenced
    rw [hcl]
    exact ⟨rfl, rfl, rfl⟩

theorem State.trainStep_one (s : State) (cd : Nat) : State.TrainedOne cd s (s.trainStep cd) := by
  unfold State.trainStep State.phaseRule
  dsimp only
  split
  · exact .refl cd s
  split
  · split
    · exact .refl cd s
    split
    · split
      · exact .refl cd s
      · exact (State.TrainedOne.modCluster ..).trans (.newTarget _ _)
    · split
      · exact .modCluster ..
      · exact (State.TrainedOne.modCluster ..).trans (.fenceCluster _ _ _)
  · exact (State.TrainedOne.modCluster ..).trans (.newTarget _ _)

theorem State.newTarget_dom (s : State) (cd : Nat) : ((s.newTarget cd).cluster cd).dom = (s.cluster cd).dom := by
  obtain ⟨v, hv⟩ : ∃ v, v = 550 + Config.freeNat s.free % 351 := ⟨_, rfl⟩
  have hc : s.newTarget cd = (s.modCluster cd fun k => { k with target := v, setPoint := if k.dom = .on then v else k.setPoint }).draw := by
    rw [hv]
    rfl
  have hd (u : State) : u.draw.cluster cd = u.cluster cd := rfl
  rw [hc, hd, State.modCluster_cluster]

theorem State.trainStep_dom (s : State) {cd : Nat} (hf : s.fenced cd = false) (hw : 3 < (s.cluster cd).working) :
    ((s.trainStep cd).cluster cd).dom = .waitBudget := by
  unfold State.trainStep
  rw [hf, if_neg Bool.false_ne_true, if_neg (Nat.not_le.mpr hw), State.newTarget_dom, State.modCluster_cluster]

theorem State.trainStep_fenced (s : State) {cd : Nat} (hu : s.fw.powUp = true) (hr : s.fw.powRestart = false)
    (hw : (s.cluster cd).working ≤ 3) : (s.trainStep cd).fenced cd = true := by
  unfold State.trainStep
  cases hf : s.fenced cd with
  | true => rw [if_pos rfl, hf]
  | false =>
    rw [if_neg Bool.false_ne_true, if_pos hw]
    obtain ⟨-, -, -, -, -, -, -, hp⟩ := s.phaseRule_spec cd
    have h := (hp hw hf).2
    rw [hu, hr] at h
    exact h

/-- What the start of training leaves of every cluster that it comes to. -/
theorem State.foldl_trainStep (l : List Nat) (hl : l.Nodup) : ∀ s : State,
    let t := l.foldl State.trainStep s
    t.dev = s.dev ∧ t.lys = s.lys ∧ t.fw.powUp = s.fw.powUp ∧ t.fw.powRestart = s.fw.powRestart ∧ t.fw.schUp = s.fw.schUp ∧
      (∀ c, c ∉ l → t.fenced c = s.fenced c ∧ (t.cluster c).dom = (s.cluster c).dom) ∧
      ∀ cd ∈ l, (s.fenced cd = false → 3 < (s.cluster cd).working → (t.cluster cd).dom = .waitBudget) ∧
        (s.fw.powUp = true → s.fw.powRestart = false → (s.cluster cd).working ≤ 3 → t.fenced cd = true) := by
  induction l with
  | nil => exact fun s => ⟨rfl, rfl, rfl, rfl, rfl, fun _ _ => ⟨rfl, rfl⟩, fun _ h => absurd h List.not_mem_nil⟩
  | cons i l ih =>
    intro s t
    obtain ⟨hil, hnd⟩ := List.nodup_cons.mp hl
    have h := s.trainStep_one i
    obtain ⟨e1, e2, e3, e4, e5, e6, e7⟩ := ih hnd (s.trainStep i)
    refine ⟨e1.trans h.dev, e2.trans h.lys, e3.trans h.powUp, e4.trans h.powRestart, e5.trans h.schUp, fun c hc => ?_, fun cd hcd => ?_⟩
    · obtain ⟨hci, hcl⟩ := not_or.mp fun h => hc (List.mem_cons.mpr h)
      obtain ⟨a1, -, a3⟩ := h.other c hci
      exact ⟨(e6 c hcl).1.trans a1, (e6 c hcl).2.trans a3⟩
    · by_cases hci : cd = i
      · subst hci
        obtain ⟨a1, a2⟩ := e6 cd hil
        exact ⟨fun hf hw => a2.trans (s.trainStep_dom hf hw), fun hu hr hw => a1.trans (s.trainStep_fenced hu hr hw)⟩
      · obtain ⟨a1, a2, -⟩ := h.other cd hci
        obtain ⟨b1, b2⟩ := e7 cd ((List.mem_cons.mp hcd).resolve_left hci)
        rw [a1, a2] at b1
        rw [a2, h.powUp, h.powRestart] at b2
        exact ⟨b1, b2⟩

/-- The start of an attempt on an enabled link that is DOWN. -/
def State.startLink (s : State) (l : Nat) : State := if (s.linkSt l).enable ∧ (s.linkSt l).state = .down then s.startAttempt l else s

theorem State.foldl_startLink_eq (l : List Nat) : ∀ s : State, ∃ y, l.foldl State.startLink s = { s with lys := y } := by
  induction l with
  | nil => exact fun s => ⟨s.lys, rfl⟩
  | cons i l ih =>
    intro s
    obtain ⟨y, hy⟩ := ih (s.startLink i)
    obtain ⟨z, hz⟩ : ∃ z, s.startLink i = { s with lys := z } := by
      unfold State.startLink
      split
      · exact ⟨_, rfl⟩
      · exact ⟨s.lys, rfl⟩
    refine ⟨y, hy.trans ?_⟩
    rw [hz]

theorem State.foldl_startLink_detects (i : Nat) (l : List Nat) : ∀ s : State,
    i ∈ l ∧ (s.linkSt i).enable = true ∧ (s.linkSt i).state = .down ∨ (s.linkSt i).state = .detect →
      ((l.foldl State.startLink s).linkSt i).state = .detect := by
  induction l with
  | nil => exact fun s h => h.resolve_left fun h => List.not_mem_nil h.1
  | cons j l ih =>
    intro s h
    refine ih _ ?_
    unfold State.startLink
    by_cases hj : i = j
    · subst hj
      rcases h with ⟨-, he, hd⟩ | h
      · rw [if_pos ⟨he, hd⟩]
        refine .inr ?_
        unfold State.startAttempt
        rw [State.modLink_linkSt]
      · rw [if_neg fun hx => by rw [h] at hx; exact absurd hx.2 (by decide)]
        exact .inr h
    · have hs : ((if (s.linkSt j).enable ∧ (s.linkSt j).state = .down then s.startAttempt j else s).linkSt i) = s.linkSt i := by
        split
        · unfold State.startAttempt
          rw [State.modLink_linkSt_ne _ _ hj]
        · rfl
      rw [hs]
      exact h.imp_left fun h => ⟨(List.mem_cons.mp h.1).resolve_left hj, h.2⟩

theorem State.finishCocoon_keeps (s : State) : s.finishCocoon.dev = s.dev ∧ s.finishCocoon.clusters = s.clusters ∧ s.finishCocoon.lys = s.lys ∧
    s.finishCocoon.fw.powUp = s.fw.powUp ∧ s.finishCocoon.fw.powRestart = s.fw.powRestart ∧ s.finishCocoon.fw.schUp = s.fw.schUp := by
  unfold State.finishCocoon
  split <;> exact ⟨rfl, rfl, rfl, rfl, rfl, rfl⟩

section BundleHash

variable {s : State} (hd : s.dev = .rom) (hs : s.fw.secUp = true) (hst : s.fw.stopped = false) (hp : s.fw.powUp = false)

include hd hs hst hp

theorem exec_bundleHash (ok : Bool) : exec (.bundleHash ok) s = .next (if ok then
      ({ s with dev := .training, fw := { s.fw with powUp := true, schUp := true } } : State).finishCocoon.startTraining
    else match s.fw.image with
      | .slotA => (s.onFw fun f => { f with secUp := false, excluded := f.excluded ++ [f.image] }).modSlot true fun x => { x with state := .failed }
      | .slotB => (s.onFw fun f => { f with secUp := false, excluded := f.excluded ++ [f.image] }).modSlot false fun x => { x with state := .failed }
      | _ => s.onFw fun f => { f with secUp := false, excluded := f.excluded ++ [f.image] }) := by
  show execBundleHash ok s = _
  unfold execBundleHash
  rw [hd, hs, hst, hp, if_neg (by decide)]
  cases ok
  · cases s.fw.image <;> rfl
  · rfl

theorem State.bundleHash_trains : ∃ t, exec (.bundleHash true) s = .next t ∧ t.dev = .training ∧ t.fw.powUp = true ∧ t.fw.schUp = true ∧
    (∀ cd, cd < 512 → s.fenced cd = false → 3 < (s.cluster cd).working → (t.cluster cd).dom = .waitBudget) ∧
    (s.fw.powRestart = false → ∀ cd, cd < 512 → (s.cluster cd).working ≤ 3 → t.fenced cd = true) ∧
    ∀ l, l < 8 → (s.linkSt l).enable = true → (s.linkSt l).state = .down → (t.linkSt l).state = .detect := by
  obtain ⟨u, hu⟩ : ∃ u : State, u = ({ s with dev := .training, fw := { s.fw with powUp := true, schUp := true } } : State).finishCocoon := ⟨_, rfl⟩
  have hk := State.finishCocoon_keeps ({ s with dev := .training, fw := { s.fw with powUp := true, schUp := true } } : State)
  rw [← hu] at hk
  obtain ⟨k1, k2, k3, k4, k5, k6⟩ := hk
  have hx : exec (.bundleHash true) s = .next u.startTraining := by
    rw [exec_bundleHash hd hs hst hp, hu]
    rfl
  obtain ⟨v, hv⟩ : ∃ v, v = (List.range 512).foldl State.trainStep u := ⟨_, rfl⟩
  have ht : u.startTraining = (List.range 8).foldl State.startLink v := by
    rw [hv]
    rfl
  have hf := State.foldl_trainStep (List.range 512) List.nodup_range u
  rw [← hv] at hf
  obtain ⟨e1, e2, e3, -, e5, -, e7⟩ := hf
  obtain ⟨y, hy⟩ := State.foldl_startLink_eq (List.range 8) v
  have huc (c : Nat) : u.cluster c = s.cluster c := by
    unfold State.cluster
    rw [k2]
  refine ⟨_, hx, ?_⟩
  rw [ht]
  have hlink : ∀ l, l < 8 → (s.linkSt l).enable = true → (s.linkSt l).state = .down →
      (((List.range 8).foldl State.startLink v).linkSt l).state = .detect := fun l hl he hdn => by
    have hls : v.linkSt l = s.linkSt l := by
      unfold State.linkSt
      rw [e2, k3]
    refine State.foldl_startLink_detects l _ v (.inl ⟨List.mem_range.mpr hl, ?_⟩)
    rw [hls]
    exact ⟨he, hdn⟩
  rw [hy] at hlink ⊢
  refine ⟨e1.trans k1, e3.trans k4, e5.trans k6, fun cd hcd hfe hw => ?_, fun hr cd hcd hw => ?_, hlink⟩
  · exact (e7 cd (List.mem_range.mpr hcd)).1 (by rw [State.fenced, huc]; exact hfe) (by rw [huc]; exact hw)
  · exact (e7 cd (List.mem_range.mpr hcd)).2 k4 (k5.trans hr) (by rw [huc]; exact hw)

theorem State.bundleHash_fails : ∃ t, exec (.bundleHash false) s = .next t ∧ t.dev = .rom ∧ t.fw.secUp = false ∧
    s.fw.image ∈ t.fw.excluded ∧ (s.fw.image = .slotA → t.fw.slotA.state = .failed) ∧ (s.fw.image = .slotB → t.fw.slotB.state = .failed) := by
  have hin : s.fw.image ∈ s.fw.excluded ++ [s.fw.image] := List.mem_append_right _ (List.mem_singleton.mpr rfl)
  refine ⟨_, exec_bundleHash hd hs hst hp false, ?_⟩
  rw [if_neg Bool.false_ne_true]
  split
  · next hi => exact ⟨hd, rfl, hin, fun _ => rfl, fun h => by rw [hi] at h; exact absurd h (by decide)⟩
  · next hi => exact ⟨hd, rfl, hin, fun h => by rw [hi] at h; exact absurd h (by decide), fun _ => rfl⟩
  · next ha hb => exact ⟨hd, rfl, hin, fun h => absurd h ha, fun h => absurd h hb⟩

end BundleHash

/-! ### The end of training -/

/-- From `s` to `t` fences and failed packages only join, and the device state stays. -/
structure State.OnlyFails (s t : State) : Prop where
  dev : t.dev = s.dev
  fenced : ∀ cd, s.fenced cd = true → t.fenced cd = true
  failed : ∀ m, (s.outer m).failed = true → (t.outer m).failed = true

theorem State.OnlyFails.refl (s : State) : s.OnlyFails s := ⟨rfl, fun _ h => h, fun _ h => h⟩

theorem State.OnlyFails.trans {s t u : State} (h₁ : s.OnlyFails t) (h₂ : t.OnlyFails u) : s.OnlyFails u :=
  ⟨h₂.dev.trans h₁.dev, fun cd h => h₂.fenced cd (h₁.fenced cd h), fun m h => h₂.failed m (h₁.failed m h)⟩

theorem State.OnlyFails.fenceCluster (s : State) (cd : Nat) (ev : Ev) : s.OnlyFails (s.fenceCluster cd ev true) := by
  cases hf : s.fenced cd with
  | true =>
    rw [show s.fenceCluster cd ev true = s from if_pos hf]
    exact .refl s
  | false =>
    refine ⟨(State.TrainedOne.fenceCluster s cd ev).dev, fun c h => ?_, fun m h => ?_⟩
    · rw [State.fenceCluster_fenced, h, Bool.or_true]
    · rw [(s.fenceCluster_worked hf ev true).failed m]
      exact h

theorem State.OnlyFails.foldl {α : Type} {f : State → α → State} (hf : ∀ (s : State) a, s.OnlyFails (f s a)) (l : List α) (s : State) :
    s.OnlyFails (l.foldl f s) := by
  induction l generalizing s with
  | nil => exact .refl s
  | cons a l ih => exact (hf s a).trans (ih _)

theorem State.OnlyFails.raiseBoot (s : State) (code : Nat) : s.OnlyFails (s.raiseBoot code) :=
  ⟨s.raiseBoot_dev code, fun cd h => (s.raiseBoot_fenced code cd).trans h, fun m h => ((s.raiseBoot_accessed code).failed m).trans h⟩

theorem State.OnlyFails.ite {p : Prop} [Decidable p] {s t u : State} (h₁ : s.OnlyFails t) (h₂ : s.OnlyFails u) :
    s.OnlyFails (if p then t else u) := by
  split <;> assumption

/-- A package as it becomes unusable, with its entry in the retirement table. -/
def State.packageOut (s : State) (m : Nat) : State :=
  (s.modOuter m fun o => { o with failed := true, trained := false, ops := [], running := [] }).onFw fun f =>
    { f with toRetire := f.toRetire ++ [.package m] }

theorem State.failPackage_worked (s : State) {m : Nat} (hf : (s.outer m).failed = false) : (s.packageOut m).Worked (s.failPackage m) := by
  unfold State.failPackage
  rw [hf, if_neg Bool.false_ne_true]
  dsimp only
  refine State.Worked.onSvc ?_ _
  refine .loseRegion (.onLife ?_ _) _ _
  exact .onFw (.logEvent (.refl _) _ _) _

theorem State.failPackage_spec (s : State) (m : Nat) : s.OnlyFails (s.failPackage m) ∧ ((s.failPackage m).outer m).failed = true := by
  cases hf : (s.outer m).failed with
  | true =>
    rw [show s.failPackage m = s from if_pos hf]
    exact ⟨.refl s, hf⟩
  | false =>
    have h := s.failPackage_worked hf
    have hout : ((s.packageOut m).outer m).failed = true := congrArg Outer.failed (s.modOuter_outer m fun o => { o with failed := true, trained := false, ops := [], running := [] })
    refine ⟨⟨by rw [h.eq]; rfl, fun cd hc => ?_, fun i hi => ?_⟩, (h.failed m).trans hout⟩
    · unfold State.fenced
      rw [h.cluster cd]
      exact hc
    · rw [h.failed i]
      by_cases him : i = m
      · rw [him]
        exact hout
      · exact (congrArg Outer.failed (s.modOuter_outer_ne (fun o => { o with failed := true, trained := false, ops := [], running := [] }) him)).trans hi

theorem State.foldl_fails {α : Type} {f : State → α → State} {P : α → State → Prop} (hf : ∀ (s : State) a, s.OnlyFails (f s a)) (hp : ∀ s a, P a (f s a))
    (hm : ∀ a (s t : State), s.OnlyFails t → P a s → P a t) (l : List α) : ∀ s, ∀ a ∈ l, P a (l.foldl f s) := by
  induction l with
  | nil => exact fun s a h => absurd h List.not_mem_nil
  | cons b l ih =>
    intro s a h
    rcases List.mem_cons.mp h with rfl | h
    · exact hm a _ _ (State.OnlyFails.foldl hf l _) (hp s a)
    · exact ih _ a h

/-- The state that the units named leave at the end of training. -/
def State.unitsFailed (s : State) (fp fc : List Nat) : State :=
  let s2 := (fp.filter (· < 12)).foldl State.failPackage (fc.foldl (fun s c => s.fenceCluster (cdOf c) .selftestFail true) s)
  (if (fp.filter (· < 12)).isEmpty then s2 else s2.raiseBoot 0x05).raiseFenced s.enabledClusters

theorem State.unitsFailed_spec (s : State) (fp fc : List Nat) : s.OnlyFails (s.unitsFailed fp fc) ∧
    (∀ c ∈ fc, (s.unitsFailed fp fc).fenced (cdOf c) = true) ∧ ∀ m ∈ fp, m < 12 → ((s.unitsFailed fp fc).outer m).failed = true := by
  have h1 := State.OnlyFails.foldl (fun s (c : Nat) => .fenceCluster s (cdOf c) .selftestFail) fc s
  have hc := State.foldl_fails (P := fun c t => t.fenced (cdOf c) = true) (fun s c => .fenceCluster s (cdOf c) .selftestFail)
    (fun s c => by rw [State.fenceCluster_fenced, decide_eq_true rfl, Bool.true_or]) (fun c s t h => h.fenced _) fc s
  unfold State.unitsFailed
  dsimp only
  generalize fc.foldl (fun s c => s.fenceCluster (cdOf c) .selftestFail true) s = u at *
  have h2 := State.OnlyFails.foldl (fun s m => (s.failPackage_spec m).1) (fp.filter (· < 12)) u
  have hp := State.foldl_fails (P := fun m t => (t.outer m).failed = true) (fun s m => (s.failPackage_spec m).1)
    (fun s m => (s.failPackage_spec m).2) (fun m s t h => h.failed m) (fp.filter (· < 12)) u
  generalize (fp.filter (· < 12)).foldl State.failPackage u = v at *
  have h3 : v.OnlyFails ((if (fp.filter (· < 12)).isEmpty then v else v.raiseBoot 0x05).raiseFenced s.enabledClusters) :=
    (State.OnlyFails.ite (.refl v) (.raiseBoot v 0x05)).trans (.ite (.raiseBoot _ 0x06) (.refl _))
  exact ⟨(h1.trans h2).trans h3, fun c hcm => h3.fenced _ (h2.fenced _ (hc c hcm)),
    fun m hm h12 => h3.failed m (hp m (List.mem_filter.mpr ⟨hm, decide_eq_true h12⟩))⟩

/-- The table of packages with those that did not fail trained. -/
def trainedOuters (t : Tab Outer) : Tab Outer :=
  (List.range 12).foldl (fun t m =>
    let o := lookD t m {}
    put t m { o with trained := !o.failed }) t

theorem trainedOuters_look (t : Tab Outer) {m : Nat} (hm : m < 12) :
    lookD (trainedOuters t) m {} = { lookD t m {} with trained := !(lookD t m {}).failed } :=
  (lookD_foldl_own (f := fun _ (o : Outer) => { o with trained := !o.failed }) (fun _ _ => lookD_put_same ..)
    (fun _ _ _ h => lookD_put_ne _ _ _ h) List.nodup_range t m).trans (if_pos (List.mem_range.mpr hm))

theorem State.retune_fenced (s : State) (cd : Nat) : s.retune.fenced cd = s.fenced cd := by
  unfold State.fenced
  rw [State.retune_cluster]
  split
  · rw [Cluster.retune_keeps]
  · rfl

theorem State.trainingDone_spec {s : State} (hd : s.dev = .training) (fp fc : List Nat)
    (hr : ∀ cd, cd < 512 → s.fenced cd = true ∨ (s.cluster cd).dom = .on) :
    ∃ t, exec (.trainingDone fp fc) s = .next t ∧ t.dev = .filling ∧ (∀ c ∈ fc, t.fenced (cdOf c) = true) ∧
      (∀ m ∈ fp, m < 12 → (t.outer m).failed = true) ∧ ∀ m, m < 12 → (t.outer m).trained = !(t.outer m).failed := by
  obtain ⟨-, hc, hp⟩ := s.unitsFailed_spec fp fc
  obtain ⟨u, hu⟩ : ∃ u, u = s.unitsFailed fp fc := ⟨_, rfl⟩
  have hx : exec (.trainingDone fp fc) s = .next ({ u with dev := .filling, outers := trainedOuters u.outers } : State).retune := by
    have hn : ¬(s.dev ≠ .training ∨ (!((List.range 512).all fun cd =>
        s.fenced cd || (s.cluster cd).dom == .on || (fc.any fun c => cdOf c == cd))) = true) := by
      refine not_or.mpr ⟨Classical.not_not.mpr hd, ?_⟩
      rw [Bool.not_eq_true, Bool.not_eq_false', List.all_eq_true]
      intro cd hcd
      rcases hr cd (List.mem_range.mp hcd) with h | h
      · rw [h, Bool.true_or, Bool.true_or]
      · rw [h, show (DState.on == DState.on) = true from rfl, Bool.or_true, Bool.true_or]
    rw [hu]
    show execTrainingDone fp fc s = _
    unfold execTrainingDone State.unitsFailed trainedOuters
    dsimp only
    exact if_neg hn
  rw [← hu] at hc hp
  obtain ⟨cs, he⟩ : ∃ cs, ({ u with dev := .filling, outers := trainedOuters u.outers } : State).retune =
    { u with dev := .filling, outers := trainedOuters u.outers, clusters := cs } := ⟨_, State.retune_eq _⟩
  have ho (m : Nat) (hm : m < 12) : ({ u with dev := .filling, outers := trainedOuters u.outers, clusters := cs } : State).outer m =
      { u.outer m with trained := !(u.outer m).failed } := by
    have hl := trainedOuters_look u.outers hm
    generalize trainedOuters u.outers = os at hl ⊢
    exact hl
  refine ⟨_, hx, ?_, fun c h => (State.retune_fenced _ _).trans (hc c h), fun m hm h12 => ?_, fun m h12 => ?_⟩
  · rw [he]
  · rw [he, ho m h12]
    exact hp m hm h12
  · rw [he, ho m h12]

theorem State.trainingDone_waits {s : State} (fp : List Nat) {cd : Nat} (hcd : cd < 512) (hf : s.fenced cd = false)
    (hon : (s.cluster cd).dom ≠ .on) : exec (.trainingDone fp []) s = .next s := by
  refine if_pos (.inr ?_)
  rw [Bool.not_eq_true', List.all_eq_false]
  refine ⟨cd, List.mem_range.mpr hcd, ?_⟩
  rw [hf, beq_eq_false_iff_ne.mpr hon]
  exact Bool.false_ne_true

theorem State.fillDone_spec {s : State} (hd : s.dev = .filling) (hs : s.fw.slicesFilled = true)
    (ho : ∀ m, m < 12 → (s.outer m).failed = true ∨ (s.outer m).fillDone = true) :
    ∃ t, exec .fillDone s = .next t ∧ t.dev = .selftest ∧ t.mem = s.mem := by
  have hx : exec .fillDone s = .next ({ s with dev := .selftest } : State).retune := by
    refine if_neg (not_or.mpr ⟨Classical.not_not.mpr hd, not_or.mpr ⟨by rw [hs]; decide, ?_⟩⟩)
    rw [Bool.not_eq_true, Bool.not_eq_false', List.all_eq_true]
    intro m hm
    rcases ho m (List.mem_range.mp hm) with h | h
    · rw [h, Bool.true_or]
    · rw [h, Bool.or_true]
  obtain ⟨cs, he⟩ : ∃ cs, ({ s with dev := .selftest } : State).retune = { s with dev := .selftest, clusters := cs } := ⟨_, State.retune_eq _⟩
  rw [he] at hx
  exact ⟨_, hx, rfl, rfl⟩

/-! ### The self-test of the cores -/

theorem State.newTarget_fenced (s : State) (cd c : Nat) : (s.newTarget cd).fenced c = s.fenced c := by
  obtain ⟨v, hv⟩ : ∃ v, v = 550 + Config.freeNat s.free % 351 := ⟨_, rfl⟩
  have hn : s.newTarget cd = (s.modCluster cd fun k => { k with target := v, setPoint := if k.dom = .on then v else k.setPoint }).draw := by
    rw [hv]
    rfl
  have hd (u : State) : u.draw.cluster c = u.cluster c := rfl
  unfold State.fenced
  rw [hn, hd]
  by_cases hc : c = cd
  · rw [hc, State.modCluster_cluster]
  · rw [State.modCluster_cluster_ne _ _ hc]

/-- The voltage tables measured: nothing changes but the clusters, in no fence of them, and the count of free values. -/
theorem State.foldl_newTarget (l : List Nat) : ∀ s : State, ∃ cs n,
    l.foldl (fun s cd => if s.fenced cd then s else s.newTarget cd) s = { s with clusters := cs, free := n } ∧
      ∀ c, ({ s with clusters := cs, free := n } : State).fenced c = s.fenced c := by
  induction l with
  | nil => exact fun s => ⟨s.clusters, s.free, rfl, fun _ => rfl⟩
  | cons i l ih =>
    intro s
    obtain ⟨cs, n, h1, h2⟩ := ih (if s.fenced i then s else s.newTarget i)
    have he : ∃ ds k, (if s.fenced i = true then s else s.newTarget i) = { s with clusters := ds, free := k } := by
      split
      · exact ⟨s.clusters, s.free, rfl⟩
      · exact ⟨_, _, rfl⟩
    obtain ⟨ds, k, he⟩ := he
    refine ⟨cs, n, h1.trans ?_, fun c => ?_⟩
    · rw [he]
    · refine Eq.trans ?_ ((h2 c).trans ?_)
      · rfl
      · split
        · rfl
        · exact s.newTarget_fenced i c

theorem State.coreSelftest_spec {s : State} (hd : s.dev = .selftest) (hc : s.fw.checkerDone = true) (hs : s.fw.selftestDone = false)
    (bad : List Nat) (n : Nat) : ∃ t, exec (.coreSelftest bad n) s = .next t ∧ t.dev = .selftest ∧ t.fw.selftestDone = true ∧
      t.life.repairedRows = n ∧ (∀ cd ∈ bad, cd < 512 → t.fenced cd = true) ∧
      (t.enabledClusters = 0 → t.fw.stopped = true ∧ 0x15 ≤ t.fw.bootCode) := by
  have h1 := State.OnlyFails.foldl (fun s (cd : Nat) => .fenceCluster s cd .selftestFail) (bad.filter (· < 512)) s
  have hfen := (State.foldl_fence .selftestFail (bad.filter (· < 512)) s).2
  obtain ⟨u, hu⟩ : ∃ u, u = (bad.filter (· < 512)).foldl (fun s cd => s.fenceCluster cd .selftestFail true) s := ⟨_, rfl⟩
  rw [← hu] at h1 hfen
  obtain ⟨v, hv⟩ : ∃ v, v = (u.onFw fun f => { f with selftestDone := true }).onLife fun l => { l with repairedRows := n } := ⟨_, rfl⟩
  obtain ⟨cs, k, h2, h3⟩ := State.foldl_newTarget (List.range 512) v
  obtain ⟨w, hw⟩ : ∃ w : State, w = { v with clusters := cs, free := k } := ⟨_, rfl⟩
  rw [← hw] at h2 h3
  obtain ⟨b, hb⟩ : ∃ b, b = if s.fw.checkFailed.isEmpty then s.enabledClusters else 513 := ⟨_, rfl⟩
  obtain ⟨x, hxe⟩ : ∃ x, x = w.raiseFenced b := ⟨_, rfl⟩
  have hx : exec (.coreSelftest bad n) s = .next (if x.enabledClusters = 0 then x.raiseBoot 0x15 else x) := by
    rw [hxe, ← h2, hv, hu, hb]
    refine if_neg ?_
    rw [hd, hc, hs]
    decide
  have hwd : w.dev = .selftest ∧ w.fw.selftestDone = true ∧ w.life.repairedRows = n := by
    rw [hw, hv]
    exact ⟨h1.dev.trans hd, rfl, rfl⟩
  have hraise (y : State) (c : Nat) (hy : y.dev = .selftest ∧ y.fw.selftestDone = true ∧ y.life.repairedRows = n) :
      (y.raiseBoot c).dev = .selftest ∧ (y.raiseBoot c).fw.selftestDone = true ∧ (y.raiseBoot c).life.repairedRows = n := by
    rw [State.raiseBoot_fw, State.raiseBoot_dev, (y.raiseBoot_accessed c).eq]
    exact hy
  have hxd : x.dev = .selftest ∧ x.fw.selftestDone = true ∧ x.life.repairedRows = n := by
    rw [hxe]
    unfold State.raiseFenced
    split
    · exact hraise w _ hwd
    · exact hwd
  have hxf : ∀ cd ∈ bad, cd < 512 → x.fenced cd = true := fun cd hb h512 => by
    have hwf : w.fenced cd = true := by
      rw [h3, hv]
      exact hfen cd (.inl (List.mem_filter.mpr ⟨hb, decide_eq_true h512⟩))
    rw [hxe]
    unfold State.raiseFenced
    split
    · rw [State.raiseBoot_fenced]
      exact hwf
    · exact hwf
  refine ⟨_, hx, ?_⟩
  split
  · obtain ⟨a1, a2, a3⟩ := hraise x 0x15 hxd
    refine ⟨a1, a2, a3, fun cd hb h512 => (x.raiseBoot_fenced 0x15 cd).trans (hxf cd hb h512), fun _ => ?_⟩
    rw [State.raiseBoot_fw]
    exact ⟨Bool.or_true _, Nat.le_max_right _ _⟩
  · next hne => exact ⟨hxd.1, hxd.2.1, hxd.2.2, hxf, fun h => absurd h hne⟩

end Sys2Proof.Machine
end

