-- ==== Sys2Proof/Proofs/Eclosion.lean ====
section
/-!
Cold bring-up and compute resets: the broadcast of cluster firmware, its repair, eclosion, and the last-gasp region.
-/

namespace Sys2Proof.Machine

/-! ### Folds over clusters -/

/-- The table of clusters with one step taken on each of a list. -/
def stepClusters (g : Cluster → Cluster) (l : List Nat) (t : Tab Cluster) : Tab Cluster :=
  l.foldl (fun t cd => put t cd (g (lookD t cd {}))) t

/-- A fold of steps on single clusters, where the step reads nothing that it changes. -/
theorem State.foldl_stepClusters {G : State → Cluster → Cluster} (hG : ∀ s cs, G { s with clusters := cs } = G s) (l : List Nat) :
    ∀ s : State, l.foldl (fun s cd => s.modCluster cd (G s)) s = { s with clusters := stepClusters (G s) l s.clusters } := by
  induction l with
  | nil => exact fun _ => rfl
  | cons i l ih =>
    intro s
    have hi := ih (s.modCluster i (G s))
    rw [show G (s.modCluster i (G s)) = G s from hG s _] at hi
    exact hi

theorem stepClusters_notMem (g : Cluster → Cluster) (l : List Nat) : ∀ t : Tab Cluster, ∀ cd, cd ∉ l →
    lookD (stepClusters g l t) cd {} = lookD t cd {} := by
  induction l with
  | nil => exact fun _ _ _ => rfl
  | cons i l ih =>
    intro t cd h
    obtain ⟨hi, hl⟩ := not_or.mp fun hx => h (List.mem_cons.mpr hx)
    exact (ih _ cd hl).trans (lookD_put_ne _ _ _ hi)

theorem stepClusters_once (g : Cluster → Cluster) {l : List Nat} (hl : l.Nodup) (t : Tab Cluster) (cd : Nat) (h : cd ∈ l) :
    lookD (stepClusters g l t) cd {} = g (lookD t cd {}) :=
  (lookD_foldl_own (f := fun _ => g) (fun _ _ => lookD_put_same ..) (fun _ _ _ h => lookD_put_ne _ _ _ h) hl t cd).trans (if_pos h)

theorem stepClusters_idem {g : Cluster → Cluster} (hg : ∀ k, g (g k) = g k) (l : List Nat) : ∀ t : Tab Cluster, ∀ cd ∈ l,
    lookD (stepClusters g l t) cd {} = g (lookD t cd {}) := by
  induction l with
  | nil => exact fun _ _ h => absurd h List.not_mem_nil
  | cons i l ih =>
    intro t cd h
    by_cases hl : cd ∈ l
    · refine (ih _ cd hl).trans ?_
      by_cases hi : cd = i
      · rw [hi, lookD_put_same, hg]
      · rw [lookD_put_ne _ _ _ hi]
    · have hi : cd = i := (List.mem_cons.mp h).resolve_right hl
      exact (stepClusters_notMem g l _ cd hl).trans (by rw [hi, lookD_put_same])

/-! ### The broadcast -/

section Broadcast

variable {s : State}

/-- A control core as a broadcast begins. -/
def Cluster.beginLoad (k : Cluster) (beside : Bool) : Cluster := { k with fwBitmap := [], fwRounds := 0, fwRunning := k.fwRunning && beside }

theorem State.broadcastStart_spec {n : Nat} (hd : s.dev = .selftest ∧ s.fw.selftestDone = true ∨ s.fw.resetStep = 4)
    (hst : s.fw.stopped = false) (h0 : 0 < n) (h512 : n ≤ 512) :
    ∃ t, exec (.broadcastStart n) s = .next t ∧ t.fw = { s.fw with chunks := n, chunkNext := 0, broadcasting := true } ∧
      ∀ cd ∈ s.loading, t.cluster cd = { s.cluster cd with fwBitmap := [], fwRounds := 0, fwRunning := false } := by
  have hsw : s.switchLoad = false := by
    unfold State.switchLoad
    rcases hd with h | h
    · rw [h.1]; rfl
    · rw [h]; exact Bool.and_false _
  have hdue : ((s.dev == .selftest && s.fw.selftestDone) || s.fw.resetStep == 4 || (s.switchLoad && !s.switchLoads.isEmpty)) = true := by
    rcases hd with ⟨h1, h2⟩ | h
    · rw [h1, h2]; rfl
    · rw [h, show ((4 : Nat) == 4) = true from rfl, Bool.or_true, Bool.true_or]
  have hfold := State.foldl_stepClusters
    (G := fun u k => k.beginLoad u.switchLoad) (fun _ _ => rfl) s.loading s
  refine ⟨({ s with clusters := stepClusters (fun k => k.beginLoad s.switchLoad) s.loading s.clusters } : State).onFw fun f => { f with chunks := n, chunkNext := 0, broadcasting := true },
    (?_ : execBroadcastStart n s = _), rfl, fun cd hcd => ?_⟩
  · unfold execBroadcastStart
    dsimp only
    rw [hdue, hst, if_neg (by simp; omega)]
    exact congrArg (fun u : State => Host.Outcome.next (u.onFw fun f => { f with chunks := n, chunkNext := 0, broadcasting := true })) hfold
  · refine (stepClusters_idem (g := fun k => k.beginLoad s.switchLoad) (fun k => ?_) s.loading s.clusters cd hcd).trans ?_
    · unfold Cluster.beginLoad
      rw [hsw, Bool.and_false, Bool.and_false]
    · unfold Cluster.beginLoad
      rw [hsw, Bool.and_false]
      rfl

/-- What a chunk does to a control core that accepts it. -/
def Cluster.takeChunk (k : Cluster) (beside : Bool) (chunks chunk : Nat) : Cluster :=
  if k.fwRunning && !beside then k else { k with fwBitmap := insertSet k.fwBitmap chunk }.complete chunks

theorem Cluster.takeChunk_idle {k : Cluster} (hr : k.fwRunning = false) (b : Bool) (n c : Nat) :
    (k.takeChunk b n c).fwBitmap = insertSet k.fwBitmap c ∧ (k.takeChunk b n c).fwRunning = decide ((insertSet k.fwBitmap c).length = n) := by
  unfold Cluster.takeChunk Cluster.complete
  rw [hr, Bool.false_and, if_neg Bool.false_ne_true]
  dsimp only
  split
  · next h => exact ⟨rfl, (decide_eq_true h).symm⟩
  · next h => exact ⟨rfl, (decide_eq_false h).symm⟩

variable (hb : s.fw.broadcasting = true)

include hb

theorem State.chunkWrite_spec (hn : s.loading.Nodup) (die : Nat) {chunk : Nat} (missed : List Nat) (hc : chunk < s.fw.chunks) :
    ∃ t, exec (.chunkWrite die chunk missed) s = .next t ∧ t.fw = { s.fw with chunkNext := max s.fw.chunkNext (chunk + 1) } ∧
      (∀ cd ∈ s.loading, dieOf cd = die → cd ∉ missed → (s.cluster cd).fwRunning = false →
        (t.cluster cd).fwBitmap = insertSet (s.cluster cd).fwBitmap chunk ∧
        (t.cluster cd).fwRunning = decide ((insertSet (s.cluster cd).fwBitmap chunk).length = s.fw.chunks)) ∧
      ∀ cd, (dieOf cd ≠ die ∨ cd ∈ missed) → t.cluster cd = s.cluster cd := by
  obtain ⟨l, hl⟩ : ∃ l, l = s.loading.filter fun cd => dieOf cd == die && !missed.contains cd := ⟨_, rfl⟩
  have hmem (cd : Nat) : cd ∈ l ↔ cd ∈ s.loading ∧ dieOf cd = die ∧ cd ∉ missed := by
    rw [hl, List.mem_filter, Bool.and_eq_true, beq_iff_eq, Bool.not_eq_true', List.contains_eq_mem, decide_eq_false_iff_not]
  have hfold := State.foldl_stepClusters (G := fun u k => k.takeChunk u.switchLoad u.fw.chunks chunk) (fun _ _ => rfl) l s
  refine ⟨({ s with clusters := stepClusters (fun k => k.takeChunk s.switchLoad s.fw.chunks chunk) l s.clusters } : State).onFw fun f =>
    { f with chunkNext := max f.chunkNext (chunk + 1) }, (?_ : execChunkWrite die chunk missed s = _), rfl, fun cd hcd hdie hm hr => ?_,
    fun cd h => ?_⟩
  · unfold execChunkWrite
    rw [if_neg (not_or.mpr ⟨by rw [hb]; decide, Nat.not_le.mpr hc⟩), ← hl]
    exact congrArg (fun u : State => Host.Outcome.next (u.onFw fun f => { f with chunkNext := max f.chunkNext (chunk + 1) })) hfold
  · have hk := stepClusters_once (fun k => k.takeChunk s.switchLoad s.fw.chunks chunk) (hl ▸ hn.filter _) s.clusters cd
      ((hmem cd).mpr ⟨hcd, hdie, hm⟩)
    unfold State.cluster
    rw [State.onFw_clusters, hk]
    exact Cluster.takeChunk_idle hr ..
  · refine stepClusters_notMem (fun k => k.takeChunk s.switchLoad s.fw.chunks chunk) l s.clusters cd fun hx => ?_
    obtain ⟨-, h1, h2⟩ := (hmem cd).mp hx
    exact h.elim (fun h => h h1) h2

variable (hc : s.fw.chunks ≤ s.fw.chunkNext) {cd : Nat} (hcd : cd ∈ s.loading) (hr : (s.cluster cd).fwRunning = false)

include hc hcd hr

theorem State.repairRequest_eq (ok : Bool) : exec (.repairRequest cd ok) s = .next (if ok then
      s.modCluster cd fun k => { k with fwBitmap := List.range s.fw.chunks, fwRunning := true }
    else (s.modCluster cd fun k => { k with fwBitmap := [], fwRunning := k.fwRunning && s.switchLoad }).roundFailed cd) := by
  have hld : s.loaded cd = false := by
    unfold State.loaded
    rw [hr, Bool.false_and]
  show execRepairRequest cd ok s = _
  unfold execRepairRequest
  rw [hb, if_neg (by simpa using ⟨hcd, hc⟩), hld]
  cases ok <;> rfl

theorem State.repairRoundTimeout_eq : exec (.repairRoundTimeout cd) s = .next (s.roundFailed cd) := by
  have hld : s.loaded cd = false := by
    unfold State.loaded
    rw [hr, Bool.false_and]
  refine if_neg ?_
  rw [hb, hld]
  simpa using ⟨hcd, hc⟩

theorem State.repair_whole : ∃ t, exec (.repairRequest cd true) s = .next t ∧
    t.cluster cd = { s.cluster cd with fwBitmap := List.range s.fw.chunks, fwRunning := true } := by
  refine ⟨_, State.repairRequest_eq hb hc hcd hr true, ?_⟩
  rw [if_pos rfl, State.modCluster_cluster]

omit hb hc hcd hr in
theorem State.roundFailed_early (u : State) (h : (u.cluster cd).fwRounds < 2) :
    (u.roundFailed cd).cluster cd = { u.cluster cd with fwRounds := (u.cluster cd).fwRounds + 1 } := by
  have he : u.roundFailed cd = u.modCluster cd fun k => { k with fwRounds := (u.cluster cd).fwRounds + 1 } := if_pos (by omega)
  rw [he, State.modCluster_cluster]

omit hb hc hcd hr in
theorem State.roundFailed_last (u : State) (h : 2 ≤ (u.cluster cd).fwRounds) :
    (u.roundFailed cd).fenced cd = true ∧ (u.dev = .selftest → 0x06 ≤ (u.roundFailed cd).fw.bootCode) := by
  obtain ⟨v, hv⟩ : ∃ v : State, u.roundFailed cd = if u.dev = .selftest then (v.fenceCluster cd .clusterFwFail true).raiseBoot 0x06
    else v.fenceCluster cd .clusterFwFail true := ⟨_, if_neg (by omega)⟩
  rw [hv]
  have hf : (v.fenceCluster cd .clusterFwFail true).fenced cd = true := by
    rw [State.fenceCluster_fenced, decide_eq_true rfl, Bool.true_or]
  split
  · rw [State.raiseBoot_fenced, State.raiseBoot_fw]
    exact ⟨hf, fun _ => Nat.le_max_right _ _⟩
  · next hd => exact ⟨hf, fun h => absurd h hd⟩

theorem State.repair_fails (h : (s.cluster cd).fwRounds < 2) : ∃ t, exec (.repairRequest cd false) s = .next t ∧
    t.cluster cd = { s.cluster cd with fwBitmap := [], fwRounds := (s.cluster cd).fwRounds + 1 } := by
  refine ⟨_, State.repairRequest_eq hb hc hcd hr false, ?_⟩
  have hk : (s.modCluster cd fun k => { k with fwBitmap := [], fwRunning := k.fwRunning && s.switchLoad }).cluster cd =
      { s.cluster cd with fwBitmap := [] } := by
    rw [State.modCluster_cluster, hr, Bool.false_and, ← hr]
  rw [if_neg Bool.false_ne_true, State.roundFailed_early _ (by rw [hk]; exact h), hk]

theorem State.repair_spec :
    (∃ t, exec (.repairRequest cd true) s = .next t ∧
      t.cluster cd = { s.cluster cd with fwBitmap := List.range s.fw.chunks, fwRunning := true }) ∧
    ((s.cluster cd).fwRounds < 2 →
      (∃ t, exec (.repairRequest cd false) s = .next t ∧
        t.cluster cd = { s.cluster cd with fwBitmap := [], fwRounds := (s.cluster cd).fwRounds + 1 }) ∧
      ∃ t, exec (.repairRoundTimeout cd) s = .next t ∧
        t.cluster cd = { s.cluster cd with fwRounds := (s.cluster cd).fwRounds + 1 }) ∧
    (2 ≤ (s.cluster cd).fwRounds → ∃ t, exec (.repairRoundTimeout cd) s = .next t ∧ t.fenced cd = true ∧
      (s.dev = .selftest → 0x06 ≤ t.fw.bootCode)) :=
  have hx := State.repairRoundTimeout_eq hb hc hcd hr
  ⟨State.repair_whole hb hc hcd hr, fun h => ⟨State.repair_fails hb hc hcd hr h, _, hx, s.roundFailed_early h⟩,
    fun h => ⟨_, hx, s.roundFailed_last h⟩⟩

end Broadcast

/-! ### Eclosion -/

theorem State.respond_answered {s : State} {c : Cmd} {h : CmdHdr} {op : Nat} (hp : s.ctl.inProgress = [c]) (hh : c.hdr = h) (ho : c.op = op)
    (hd : c.discard = false) (st : Nat) (eff : Bool) (d : Word) (res : List Byte) :
    s.answered (s.respond h op st eff d res) h op st eff d res := by
  unfold State.respond
  rw [hp, List.find?_cons_of_pos (by simp [hh, ho])]
  dsimp only
  rw [hd, List.erase_cons_head]
  exact ⟨rfl, rfl⟩

theorem State.release_spec (s : State) (l : List Nat) : ∃ cs, s.release l = { s with
    clusters := cs, cores := s.cores.filter fun p => !l.contains (cdOf p.1) } ∧
    ∀ cd ∈ l, lookD cs cd {} = { s.cluster cd with inReset := false, delivered := 0, restarting := false } := by
  have hfold := State.foldl_stepClusters (G := fun _ k => { k with inReset := false, delivered := 0, restarting := false }) (fun _ _ => rfl) l s
  refine ⟨_, ?_, stepClusters_idem (g := fun k => { k with inReset := false, delivered := 0, restarting := false }) (fun _ => rfl) l s.clusters⟩
  unfold State.release
  rw [hfold]

/-- The release of the clusters that loaded, with the broadcast and the reset over. -/
def State.eclosed (s : State) : State :=
  (s.release s.loading).onFw fun f => { f.countReset s.now with
    broadcasting := false, resetting := [], resetAll := false, resetStep := 0, resetCmd := none }

/-- A cold start ends in READY; a compute reset of every cluster too. -/
def State.afterEclosion (s : State) : State :=
  if (s.dev == .selftest && s.fw.selftestDone) = true then ({ s.eclosed with dev := .ready } : State).finishSwitch
  else if s.fw.resetAll then { s.eclosed with dev := .ready } else s.eclosed

theorem State.finishSwitch_spec (s : State) : s.finishSwitch.dev = s.dev ∧ s.finishSwitch.clusters = s.clusters ∧
    s.finishSwitch.cores = s.cores ∧ s.finishSwitch.fw.resetSwitch = false ∧ s.finishSwitch.fw.broadcasting = s.fw.broadcasting := by
  unfold State.finishSwitch
  split
  · next h => exact ⟨rfl, rfl, rfl, by simpa using h, rfl⟩
  · have hl := (State.Accessed.refl (s.onFw fun f => { f with resetSwitch := false, activatedAt := some s.now })).logEvent .fwActivated {}
    generalize ((s.onFw fun f => { f with resetSwitch := false, activatedAt := some s.now }).logEvent .fwActivated {}) = u at hl ⊢
    exact ⟨hl.dev, hl.clusters, hl.cores, congrArg Fw.resetSwitch hl.fw, (congrArg Fw.broadcasting hl.fw :)⟩

section Eclosion

variable {s : State} (hb : s.fw.broadcasting = true) (hs : s.fw.secUp = true) (hp : s.fw.powUp = true) (hsr : s.fw.secRestart = false)
  (hpr : s.fw.powRestart = false) (hst : s.fw.stopped = false)

omit hb hs hp hsr hpr hst in
theorem State.eclosion_waits {cd : Nat} (hcd : cd ∈ s.loading) (hr : (s.cluster cd).fwRunning = false) : exec .eclosion s = .next s := by
  refine if_pos ?_
  rw [List.all_eq_false.mpr ⟨cd, hcd, by rw [hr]; decide⟩]
  simp only [Bool.and_false, Bool.false_and, Bool.not_false]

include hb hs hp hsr hpr hst

theorem exec_eclosion (hr : ∀ cd ∈ s.loading, (s.cluster cd).fwRunning = true)
    (hd : (s.dev == .selftest && s.fw.selftestDone) = true ∨ s.fw.resetStep = 4) :
    ∃ r : CmdHdr → State, (∀ h, r h = s.afterEclosion.respond h 0x0102 stOk true 0 (cdBitmap (s.fw.resetting.filter fun cd => !s.fenced cd))) ∧
      exec .eclosion s = if (s.dev == .selftest && s.fw.selftestDone) = true ∧ s.enabledClusters = 0 then .next (s.raiseBoot 0x15)
        else .next (match s.fw.resetCmd with | some h => r h | none => s.afterEclosion) := by
  refine ⟨fun h => s.afterEclosion.respond h 0x0102 stOk true 0 (cdBitmap (s.fw.resetting.filter fun cd => !s.fenced cd)), fun _ => rfl, ?_⟩
  have hdue : ((s.dev == .selftest && s.fw.selftestDone) || s.fw.resetStep == 4) = true := by
    rcases hd with h | h
    · rw [h, Bool.true_or]
    · rw [h]; exact Bool.or_true _
  show execEclosion s = _
  unfold execEclosion
  dsimp only
  rw [hdue, hb, hs, hp, hsr, hpr, hst, List.all_eq_true.mpr hr, if_neg (by decide)]
  rfl

/-- Eclosion leaves what it makes of the state, but for the answer to a COMPUTE_RESET. -/
theorem State.eclosion_answers (hr : ∀ cd ∈ s.loading, (s.cluster cd).fwRunning = true)
    (hd : (s.dev == .selftest && s.fw.selftestDone) = true ∨ s.fw.resetStep = 4)
    (he : (s.dev == .selftest && s.fw.selftestDone) = true → s.enabledClusters ≠ 0) :
    ∃ t, exec .eclosion s = .next t ∧ s.afterEclosion.Answered t ∧ ∀ h, s.fw.resetCmd = some h →
      t = s.afterEclosion.respond h 0x0102 stOk true 0 (cdBitmap (s.fw.resetting.filter fun cd => !s.fenced cd)) := by
  obtain ⟨r, hrr, hx⟩ := exec_eclosion hb hs hp hsr hpr hst hr hd
  refine ⟨_, hx.trans (if_neg fun h => he h.1 h.2), ?_, fun h hc => ?_⟩
  · split
    · rw [hrr]
      exact .respond (.refl _) _ _ _ _ _ _
    · exact .refl _
  · rw [hc]
    exact hrr h

omit hb hs hp hsr hpr hst in
theorem State.eclosed_released {u : State} (hc : u.clusters = s.eclosed.clusters) (ho : u.cores = s.eclosed.cores) :
    (∀ c, cdOf c ∈ s.loading → u.core c = {}) ∧
      ∀ cd ∈ s.loading, (u.cluster cd).inReset = false ∧ (u.cluster cd).delivered = 0 := by
  obtain ⟨cs, hrel, hcs⟩ := s.release_spec s.loading
  have h1 : s.eclosed.clusters = cs := congrArg State.clusters hrel
  have h2 : s.eclosed.cores = s.cores.filter fun p => !s.loading.contains (cdOf p.1) := congrArg State.cores hrel
  refine ⟨fun c hcl => ?_, fun cd hcd => ?_⟩
  · unfold State.core lookD
    rw [ho, h2, look_filter s.cores fun i => !s.loading.contains (cdOf i), if_neg (by simpa using hcl)]
    rfl
  · have hk : u.cluster cd = { s.cluster cd with inReset := false, delivered := 0, restarting := false } := by
      unfold State.cluster
      rw [hc, h1]
      exact hcs cd hcd
    rw [hk]
    exact ⟨rfl, rfl⟩

theorem State.eclosion_cold (hr : ∀ cd ∈ s.loading, (s.cluster cd).fwRunning = true) (hd : s.dev = .selftest) (hdone : s.fw.selftestDone = true)
    (he : 0 < s.enabledClusters) : ∃ t, exec .eclosion s = .next t ∧ t.dev = .ready ∧
      t.fw.resetSwitch = false ∧ t.fw.broadcasting = false ∧ (∀ c, cdOf c ∈ s.loading → t.core c = {}) ∧
      ∀ cd ∈ s.loading, (t.cluster cd).inReset = false ∧ (t.cluster cd).delivered = 0 := by
  have hcold : (s.dev == .selftest && s.fw.selftestDone) = true := by
    rw [hd, hdone]
    rfl
  obtain ⟨t, hx, ha, -⟩ := State.eclosion_answers hb hs hp hsr hpr hst hr (.inl hcold) (fun _ => by omega)
  obtain ⟨f1, f2, f3, f4, f5⟩ := State.finishSwitch_spec { s.eclosed with dev := .ready }
  have hu : s.afterEclosion = ({ s.eclosed with dev := .ready } : State).finishSwitch := if_pos hcold
  rw [← hu] at f1 f2 f3 f4 f5
  obtain ⟨g1, g2⟩ := State.eclosed_released (s := s) (u := t) (by rw [ha.eq]; exact f2) (by rw [ha.eq]; exact f3)
  exact ⟨t, hx, by rw [ha.eq]; exact f1, by rw [ha.eq]; exact f4, by rw [ha.eq]; exact f5, g1, g2⟩

theorem State.eclosion_none (hr : ∀ cd ∈ s.loading, (s.cluster cd).fwRunning = true) (hd : s.dev = .selftest) (hdone : s.fw.selftestDone = true)
    (he : s.enabledClusters = 0) : ∃ t, exec .eclosion s = .next t ∧ t.dev = .selftest ∧ t.fw.stopped = true ∧ 0x15 ≤ t.fw.bootCode := by
  have hcold : (s.dev == .selftest && s.fw.selftestDone) = true := by
    rw [hd, hdone]
    rfl
  obtain ⟨r, -, hx⟩ := exec_eclosion hb hs hp hsr hpr hst hr (.inl hcold)
  refine ⟨_, hx.trans (if_pos ⟨hcold, he⟩), (s.raiseBoot_dev 0x15).trans hd, ?_⟩
  rw [State.raiseBoot_fw]
  exact ⟨Bool.or_true _, Nat.le_max_right _ _⟩

theorem State.eclosion_reset (hr : ∀ cd ∈ s.loading, (s.cluster cd).fwRunning = true) (hd : s.dev ≠ .selftest) (h4 : s.fw.resetStep = 4) :
    ∃ t, exec .eclosion s = .next t ∧ t.dev = (if s.fw.resetAll then .ready else s.dev) ∧
      t.fw.resetStep = 0 ∧ t.fw.resetCmd = none ∧ (∀ cd ∈ s.loading, (t.cluster cd).inReset = false) ∧
      ∀ h c, s.fw.resetCmd = some h → s.ctl.inProgress = [c] → c.hdr = h → c.op = 0x0102 → c.discard = false →
        s.answered t h 0x0102 stOk true 0 (cdBitmap s.loading) := by
  have hcold : ¬(s.dev == .selftest && s.fw.selftestDone) = true := by
    rw [beq_eq_false_iff_ne.mpr hd]
    exact Bool.false_ne_true
  have hload : s.loading = s.fw.resetting.filter fun cd => !s.fenced cd := by
    unfold State.loading State.switchLoad
    rw [if_neg hd, h4, show ((4 : Nat) == 0) = false from rfl, Bool.and_false, if_neg Bool.false_ne_true]
  obtain ⟨cs, hrel, -⟩ := s.release_spec s.loading
  have hctl : s.eclosed.ctl = s.ctl ∧ s.eclosed.now = s.now ∧ s.eclosed.dev = s.dev := by
    unfold State.eclosed
    rw [hrel]
    exact ⟨rfl, rfl, rfl⟩
  obtain ⟨c1, c2, c3⟩ := hctl
  obtain ⟨t, hx, ha, hans⟩ := State.eclosion_answers hb hs hp hsr hpr hst hr (.inr h4) (fun h => absurd h hcold)
  have hu : s.afterEclosion = { s.eclosed with dev := if s.fw.resetAll then .ready else s.dev } := by
    unfold State.afterEclosion
    rw [if_neg hcold]
    split
    · rfl
    · rw [← c3]
  rw [hu] at ha hans
  obtain ⟨-, g2⟩ := State.eclosed_released (s := s) (u := t) (by rw [ha.eq]) (by rw [ha.eq])
  refine ⟨t, hx, by rw [ha.eq], by rw [ha.eq]; rfl, by rw [ha.eq]; rfl, fun cd hcd => (g2 cd hcd).1, fun h c hc hip hh ho hdis => ?_⟩
  rw [hans h hc, hload]
  obtain ⟨r1, r2⟩ := State.respond_answered (s := { s.eclosed with dev := if s.fw.resetAll then .ready else s.dev }) (c := c)
    ((congrArg Ctl.inProgress c1).trans hip) hh ho hdis stOk true 0 (cdBitmap (s.fw.resetting.filter fun cd => !s.fenced cd))
  refine ⟨r1, r2.trans ?_⟩
  show s.eclosed.ctl.completed ++ [{ hdr := h, op := 0x0102, status := stOk, effect := true, detail := 0, results := _, endTime := s.eclosed.now }] = _
  rw [c1, c2]

end Eclosion

/-! ### The last-gasp region -/

section LastGasp

variable {s : State} {i : Nat} {r : GaspRec} (hl : look s.fw.lastGasp i = some r) (hs : s.fw.secUp = true) (hn : i ∉ s.fw.lastGaspCopied)

/-- A slot copied to the journal and logged. -/
def State.slotCopied (s : State) (r : GaspRec) : State :=
  (s.onLife fun l => { l with sags := (r :: l.sags).take 192 }).logEvent .sag { time := some r.time, detail := r.before }

/-- Every written slot of the sector has been copied. -/
def State.sectorCopied (s : State) (i : Nat) : Bool :=
  ((keys s.fw.lastGasp).filter fun j => j / 4 == i / 4).all (insertSet s.fw.lastGaspCopied i).contains

include hl hs hn in
theorem exec_lastGaspCopy : exec (.lastGaspCopy i) s = .next (if s.sectorCopied i = true then (s.slotCopied r).onFw fun f => { f with
      lastGasp := f.lastGasp.filter fun p => p.1 / 4 != i / 4
      lastGaspCopied := (insertSet s.fw.lastGaspCopied i).filter fun j => j / 4 != i / 4 }
    else (s.slotCopied r).onFw fun f => { f with lastGaspCopied := insertSet s.fw.lastGaspCopied i }) := by
  show execLastGaspCopy i s = _
  unfold execLastGaspCopy
  rw [hl]
  dsimp only
  rw [if_neg (by simpa using ⟨hs, hn⟩)]
  rfl

theorem State.sectorCopied_iff (s : State) (i : Nat) : s.sectorCopied i = true ↔
    ∀ j ∈ keys s.fw.lastGasp, j / 4 = i / 4 → j = i ∨ j ∈ s.fw.lastGaspCopied := by
  unfold State.sectorCopied
  simp only [List.all_eq_true, List.mem_filter, beq_iff_eq, List.contains_iff_mem, mem_insertSet]
  exact ⟨fun h j hj hs => h j ⟨hj, hs⟩, fun h j hj => h j hj.1 hj.2⟩

include hl hs hn in
theorem State.lastGaspCopy_spec : ∃ t, exec (.lastGaspCopy i) s = .next t ∧ t.life.sags = (r :: s.life.sags).take 192 ∧
    ((∀ j ∈ keys s.fw.lastGasp, j / 4 = i / 4 → j = i ∨ j ∈ s.fw.lastGaspCopied) → ∀ j, j / 4 = i / 4 → look t.fw.lastGasp j = none) ∧
    (∀ j ∈ keys s.fw.lastGasp, j / 4 = i / 4 → j ≠ i → j ∉ s.fw.lastGaspCopied → t.fw.lastGasp = s.fw.lastGasp ∧
      exec (.lastGaspCopy i) t = .next t) := by
  have ha : (s.onLife fun l => { l with sags := (r :: l.sags).take 192 }).Accessed (s.slotCopied r) := .logEvent (.refl _) _ _
  have hsags : (s.slotCopied r).life.sags = (r :: s.life.sags).take 192 := by
    rw [ha.eq]
    rfl
  have hfw : (s.slotCopied r).fw = s.fw := ha.fw
  refine ⟨_, exec_lastGaspCopy hl hs hn, ?_⟩
  split
  · next hc =>
    refine ⟨hsags, fun _ j hj => ?_, fun j hj hsec hne hnc => ?_⟩
    · show look ((s.slotCopied r).fw.lastGasp.filter fun p => p.1 / 4 != i / 4) j = none
      rw [look_filter _ fun k => k / 4 != i / 4, if_neg (by simp [hj])]
    · exact absurd ((s.sectorCopied_iff i).mp hc j hj hsec) (not_or.mpr ⟨hne, hnc⟩)
  · next hc =>
    refine ⟨hsags, fun h => absurd ((s.sectorCopied_iff i).mpr h) hc, fun j hj hsec hne hnc => ⟨(congrArg Fw.lastGasp hfw :), ?_⟩⟩
    show execLastGaspCopy i _ = _
    unfold execLastGaspCopy
    rw [show look ((s.slotCopied r).onFw fun f => { f with lastGaspCopied := insertSet s.fw.lastGaspCopied i }).fw.lastGasp i = some r from
      (congrArg (fun f : Fw => look f.lastGasp i) hfw).trans hl]
    refine if_pos (.inr (List.contains_iff_mem.mpr ?_))
    exact (mem_insertSet _ _ _).mpr (.inl rfl)

end LastGasp

theorem State.guestAbsent_spec (s : State) (h : s.pwr.guestOn = true) :
    ∃ t, exec .guestAbsent s = .next t ∧ t.pwr = { s.pwr with guestOn := false, guestFenced := true } := by
  refine ⟨_, if_neg (by rw [h]; decide), ?_⟩
  rw [((State.Accessed.refl (s.onPwr fun p => { p with guestOn := false, guestFenced := true })).logEvent .guestAbsent { ut := utGuest }).eq]
  rfl

/-- Settles O54: cold bring-up from POWERING through ROM, TRAINING, FILLING and the self-test to READY, step by step, with the broadcast
of cluster firmware, its repair, the end of a compute reset and the copies of the last-gasp region. -/
theorem bringUpReachesReady : Obligations.BringUpReachesReady := by
  unfold Obligations.BringUpReachesReady
  intro s
  refine ⟨fun uf => ⟨s.poweringDone_spec uf, fun h => if_pos h⟩, fun hd hr hs hst i => ?_,
    fun hd hs hst hp => ⟨State.bundleHash_trains hd hs hst hp, State.bundleHash_fails hd hs hst hp⟩, s.guestAbsent_spec,
    fun hd fp fc => ⟨State.trainingDone_spec hd fp fc, fun cd => State.trainingDone_waits fp⟩,
    fun hd => ⟨State.fillDone_spec hd, fun h => if_pos (.inr (.inl (by rw [h]; rfl)))⟩, fun hd hc hs => State.coreSelftest_spec hd hc hs,
    fun n hd hst => State.broadcastStart_spec hd hst,
    fun hb hn => ⟨fun die chunk missed => State.chunkWrite_spec hb hn die missed, fun hc cd hcd hr => State.repair_spec hb hc hcd hr⟩,
    fun hb hs hp hsr hpr hst => ⟨fun cd => State.eclosion_waits, fun hr => ⟨State.eclosion_cold hb hs hp hsr hpr hst hr,
      State.eclosion_none hb hs hp hsr hpr hst hr, State.eclosion_reset hb hs hp hsr hpr hst hr⟩⟩,
    fun i r hl hs hn => State.lastGaspCopy_spec hl hs hn⟩
  intro stops
  refine ⟨fun hl hok => State.rom_badStraps hd hr hs hst hl hok, fun hl hok => ⟨State.rom_badHub hd hr hs hst hl hok,
    State.rom_badFlash hd hr hs hst hl hok, fun hh hf => ⟨State.rom_noKey hd hr hs hst hl hok hh hf, fun hk => ⟨fun a l => ?_, fun a l => ?_,
    fun b => ?_, ?_⟩⟩⟩⟩
  · exact State.rom_takesSlot hd hr hs hst hl hok hh hf hk
  · exact State.rom_failsSlot hd hr hs hst hl hok hh hf hk
  · exact State.rom_takesRecovery hd hr hs hst hl hok hh hf hk
  · exact State.rom_noImage hd hr hs hst hl hok hh hf hk

end Sys2Proof.Machine
end

