-- ==== Sys2Proof/Proofs/Requests.lean ====
section
/-!
Records of a client: requests are assembled, admitted or refused, continued, cancelled and credited, and their contexts closed.
-/

namespace Sys2Proof.Machine

/-! ### Open requests -/

/-- The open request of a queue pair with an identifier. -/
def Request.named (r : Request) (qp id : Nat) : Bool := r.qp == qp && r.rec_.request == id && !r.ended

theorem Request.named_iff {r : Request} {qp id : Nat} : r.named qp id = true ↔ r.qp = qp ∧ r.rec_.request = id ∧ r.ended = false := by
  unfold Request.named
  simp [and_assoc]

/-- A step keeps what names an open request. -/
def KeepsName (f : Request → Request) : Prop := ∀ (r : Request) (qp id : Nat), (f r).named qp id = r.named qp id

theorem State.req?_eq (s : State) (qp id : Nat) : s.req? qp id = s.svc.requests.find? fun r => r.named qp id := rfl

theorem State.modReq_eq (s : State) (qp id : Nat) (f : Request → Request) :
    s.modReq qp id f = s.onSvc fun v => { v with requests := v.requests.map fun r => if r.named qp id then f r else r } := rfl

section ModReq

variable {f : Request → Request} (hf : KeepsName f) (s : State) (qp id : Nat)

include hf

theorem KeepsName.ite (qp' id' : Nat) (r : Request) : (if r.named qp id = true then f r else r).named qp' id' = r.named qp' id' := by
  split
  · exact hf r qp' id'
  · rfl

theorem State.modReq_req? (qp' id' : Nat) : (s.modReq qp id f).req? qp' id' = (s.req? qp' id').map fun r => if r.named qp id then f r else r := by
  rw [State.modReq_eq, State.req?_eq, State.req?_eq]
  refine List.find?_map.trans ?_
  congr 2
  funext r
  exact hf.ite qp id qp' id' r

theorem State.modReq_own {r : Request} (hr : s.req? qp id = some r) : (s.modReq qp id f).req? qp id = some (f r) := by
  rw [State.modReq_req? hf, hr]
  exact congrArg some (if_pos (List.find?_some hr))

theorem State.modReq_other {qp' id' : Nat} (h : ¬(qp' = qp ∧ id' = id)) : (s.modReq qp id f).req? qp' id' = s.req? qp' id' := by
  rw [State.modReq_req? hf]
  cases hr : s.req? qp' id' with
  | none => rfl
  | some r =>
    obtain ⟨h1, h2, -⟩ := State.req?_named hr
    refine congrArg some (if_neg fun hn => ?_)
    obtain ⟨n1, n2, -⟩ := Request.named_iff.mp hn
    exact h ⟨h1.symm.trans n1, h2.symm.trans n2⟩

end ModReq

theorem State.modReq_id (s : State) (qp id : Nat) : (s.modReq qp id fun r => r) = s := by
  have hl (l : List Request) : (l.map fun r => if r.named qp id = true then r else r) = l := by simp
  rw [State.modReq_eq]
  unfold State.onSvc
  dsimp only
  rw [hl]

/-- A request as the passes take it or leave it waiting. -/
def Readied (f : Request → Request) : Prop := ∀ r, f r = { r with
  waitingModel := (f r).waitingModel, readySince := (f r).readySince, creditSince := (f r).creditSince }

theorem Readied.keepsName {f : Request → Request} (hf : Readied f) : KeepsName f := fun r _ _ => by
  rw [hf r]
  rfl

/-- The model of a request serves. -/
def State.served (s : State) (r : Request) : Bool := (look s.svc.models r.rec_.model).any Model.serves

/-- A request as the passes take it. -/
def Request.ready (r : Request) (now : Nat) : Request :=
  { r with waitingModel := false, readySince := some (r.readySince.getD now), creditSince := none }

theorem State.makeReady_eq {s : State} {qp id : Nat} {r : Request} (hr : s.req? qp id = some r) : s.makeReady qp id =
    if (r.assembling || r.tokenising || r.waitingTok || r.inPass) = true then s
    else if (!s.served r) = true then s.modReq qp id fun r => { r with waitingModel := true, readySince := none }
    else if r.creditFor r.nextEntry = true then s.modReq qp id fun r => r.ready s.now
    else s.modReq qp id fun r => { r with waitingModel := false, readySince := none, creditSince := some (r.creditSince.getD s.now) } := by
  unfold State.makeReady State.served
  rw [hr]
  dsimp only
  cases look s.svc.models r.rec_.model with
  | none => rfl
  | some m => rfl

theorem State.makeReady_readied (s : State) (qp id : Nat) : ∃ f, Readied f ∧ s.makeReady qp id = s.modReq qp id f := by
  cases hr : s.req? qp id with
  | none =>
    refine ⟨fun r => r, fun _ => rfl, Eq.trans ?_ (s.modReq_id qp id).symm⟩
    unfold State.makeReady
    rw [hr]
  | some r =>
  rw [State.makeReady_eq hr]
  split
  · exact ⟨fun r => r, fun _ => rfl, (s.modReq_id qp id).symm⟩
  split
  · exact ⟨_, fun _ => rfl, rfl⟩
  split <;> exact ⟨_, fun _ => rfl, rfl⟩

/-- A request that nothing holds back is ready. -/
theorem State.makeReady_ready {s : State} {qp id : Nat} {r : Request} (hr : s.req? qp id = some r) (ha : r.assembling = false)
    (ht : r.tokenising = false) (hw : r.waitingTok = false) (hp : r.inPass = false) (hm : s.served r = true)
    (hc : r.creditFor r.nextEntry = true) : s.makeReady qp id = s.modReq qp id fun r => r.ready s.now := by
  rw [State.makeReady_eq hr, ha, ht, hw, hp, hm, hc]
  rfl

/-! ### Records that do not fit -/

section Records

variable {qp : Nat} {s s1 : State} (h1 : s.takeRecord qp = some s1)

include h1

theorem exec_request (r : ReqRec) : exec (.request qp r) s = .next (
    if (s1.req? qp r.request).any (fun q => q.assembling) = true then s1.continueRequest qp r
    else if (s1.req? qp r.request).isSome = true then s1.countDrop.errorEntry qp r.request stBadArg
    else if r.more then s1.onSvc fun v => { v with requests := v.requests ++ [{ qp := qp, rec_ := r, assembling := true, context := r.context }] }
    else (s1.onSvc fun v => { v with requests := v.requests ++ [{ qp := qp, rec_ := r, assembling := true, context := r.context }] }).admitRequest
      qp r.request) := by
  show execRequest qp r s = _
  unfold execRequest
  rw [h1]
  dsimp only
  refine Eq.trans ?_ (apply_ite Host.Outcome.next _ _ _).symm
  exact ite_congr rfl (fun _ => rfl) fun _ => (apply_ite Host.Outcome.next _ _ _).symm

theorem exec_requestContinuation (r : ReqRec) : exec (.requestContinuation qp r) s = .next (s1.continueRequest qp r) := by
  show execRequestContinuation qp r s = _
  unfold execRequestContinuation
  rw [h1]

end Records

/-- A record that does not fit: counted, and an ERROR entry in the ring of the open request it names. -/
theorem State.errorEntry_spec {s : State} {qp id : Nat} {q : Request} (hq : s.req? qp id = some q) :
    (s.countDrop.errorEntry qp id stBadArg).svc.dropped = satAdd 64 s.svc.dropped 1 ∧
      (s.countDrop.errorEntry qp id stBadArg).req? qp id =
        some (q.push (streamEntry 0xFFFFFFFF (s.ctxLength q.context) q.context kindError stBadArg 0 0 [])) :=
  ⟨rfl, State.modReq_own (f := fun r => r.push (streamEntry 0xFFFFFFFF (s.ctxLength r.context) r.context kindError stBadArg 0 0 []))
    (fun _ _ _ => rfl) s.countDrop qp id hq⟩

theorem State.continueRequest_none {s : State} {qp : Nat} {r : ReqRec} (hq : s.req? qp r.request = none) : s.continueRequest qp r = s.countDrop := by
  unfold State.continueRequest
  rw [hq]

theorem State.continueRequest_some {s : State} {qp : Nat} {r : ReqRec} {q : Request} (hq : s.req? qp r.request = some q) :
    s.continueRequest qp r = if q.assembling = false then s.countDrop.errorEntry qp r.request stBadArg
      else if r.more then s.modReq qp r.request fun q => { q with rec_ := { q.rec_ with input := q.rec_.input ++ r.input, more := r.more } }
      else (s.modReq qp r.request fun q => { q with rec_ := { q.rec_ with input := q.rec_.input ++ r.input, more := r.more } }).admitRequest
        qp r.request := by
  unfold State.continueRequest
  rw [hq]
  dsimp only
  cases q.assembling <;> rfl

/-! ### New requests -/

/-- A request as its record begins it. -/
def Request.begun (qp : Nat) (r : ReqRec) : Request := { qp := qp, rec_ := r, assembling := true, context := r.context }

/-- The state with a request being assembled. -/
def State.withRequest (s : State) (q : Request) : State := s.onSvc fun v => { v with requests := v.requests ++ [q] }

section New

variable {s : State} {qp : Nat} {r : ReqRec} (hq : s.req? qp r.request = none)

include hq

theorem State.withRequest_req? : (s.withRequest (.begun qp r)).req? qp r.request = some (.begun qp r) := by
  refine (List.find?_append ..).trans ?_
  rw [show (s.svc.requests.find? fun x => x.qp == qp && x.rec_.request == r.request && !x.ended) = none from hq, Option.none_or]
  exact List.find?_cons_of_pos (Request.named_iff.mpr ⟨rfl, rfl, rfl⟩)

/-- A change of the request just begun leaves every other one. -/
theorem State.withRequest_modReq (f : Request → Request) : ((s.withRequest (.begun qp r)).modReq qp r.request f).svc.requests =
    s.svc.requests ++ [f (.begun qp r)] := by
  have hold : ∀ x ∈ s.svc.requests, ¬ x.named qp r.request = true := List.find?_eq_none.mp hq
  refine (List.map_append ..).trans (congr (congrArg _ ?_) ?_)
  · refine (List.map_congr_left fun x hx => ?_).trans (List.map_id _)
    exact if_neg (hold x hx)
  · exact congrArg (fun x => [x]) (if_pos (Request.named_iff.mpr ⟨rfl, rfl, rfl⟩))

omit hq in
/-- A request that is being assembled bars no other from its context. -/
theorem State.withRequest_status : (s.withRequest (.begun qp r)).requestStatus r = s.requestStatus r := by
  have hany : ((s.withRequest (.begun qp r)).svc.requests.any fun x => !x.ended && !x.assembling && x.context == r.context) =
      s.svc.requests.any fun x => !x.ended && !x.assembling && x.context == r.context := by
    show (s.svc.requests ++ [Request.begun qp r]).any _ = _
    rw [List.any_append]
    exact Bool.or_false _
  unfold State.requestStatus
  rw [hany]
  rfl

theorem State.admitRequest_refused (hst : s.requestStatus r ≠ stOk) : ∃ q,
    ((s.withRequest (.begun qp r)).admitRequest qp r.request).svc.requests = s.svc.requests ++ [q] ∧ q.qp = qp ∧ q.rec_ = r ∧ q.ended = true ∧
      q.entries = [(0, streamEntry 0xFFFFFFFF 0 r.context kindError (s.requestStatus r) 0 0 [])] ∧
      ((s.withRequest (.begun qp r)).admitRequest qp r.request).svc.contexts = s.svc.contexts := by
  have ha : (s.withRequest (.begun qp r)).admitRequest qp r.request = (s.withRequest (.begun qp r)).modReq qp r.request fun x =>
      { x.push (streamEntry 0xFFFFFFFF 0 x.rec_.context kindError (s.requestStatus r) 0 0 []) with ended := true, assembling := false } := by
    unfold State.admitRequest
    rw [State.withRequest_req? hq]
    dsimp only
    rw [show (Request.begun qp r).rec_ = r from rfl, State.withRequest_status, if_pos hst]
  rw [ha]
  exact ⟨_, State.withRequest_modReq hq _, rfl, rfl, rfl, rfl, rfl⟩

omit hq in
/-- A new sequence holds no page. -/
theorem State.newTables_held (m t : Nat) : ({ model := m, tables := s.newTables m, lastUse := t } : Context).held = [] := by
  have hn : ∀ k ∈ s.newTables m, k.bases = [] ∧ k.shadow = [] := by
    intro k hk
    unfold State.newTables at hk
    obtain ⟨slot, -, hk⟩ := List.mem_flatMap.mp hk
    split at hk
    · exact absurd hk List.not_mem_nil
    · obtain ⟨td, -, hk⟩ := List.mem_flatMap.mp hk
      obtain ⟨i, -, rfl⟩ := List.mem_map.mp hk
      exact ⟨rfl, rfl⟩
  unfold Context.held
  rw [List.flatMap_eq_nil_iff.mpr fun k hk => by rw [(hn k hk).1, (hn k hk).2]; rfl]
  rfl

/-- The request just admitted, with token input. -/
def Request.opened (q : Request) (ctx : Nat) : Request := { q with assembling := false, context := ctx, tokens := q.rec_.input }

theorem State.admitRequest_opens (hst : s.requestStatus r = stOk) (hb : r.bytesIn = false) (hc : r.context = 0xFFFFFFFF) (hp : r.prefixId = 0xFFFF)
    (hm : (look s.svc.models r.model).any Model.serves = true) :
    ∃ q, ((s.withRequest (.begun qp r)).admitRequest qp r.request).req? qp r.request = some q ∧ q.rec_ = r ∧ q.context = s.svc.nextContext ∧
      q.tokens = r.input ∧ q.readySince = some s.now ∧ q.entries = [] ∧
      look ((s.withRequest (.begun qp r)).admitRequest qp r.request).svc.contexts q.context =
        some { model := r.model, tables := s.newTables r.model, lastUse := s.now } := by
  obtain ⟨u, hu⟩ : ∃ u : State, u = (s.withRequest (.begun qp r)).onSvc fun v => { v with
    contexts := put v.contexts s.svc.nextContext { model := r.model, tables := s.newTables r.model, lastUse := s.now }
    nextContext := (s.svc.nextContext + 1) % 0xFFFFFFFF } := ⟨_, rfl⟩
  obtain ⟨f, hf⟩ : ∃ f : Request → Request, f = fun x => { x with
    assembling := false, context := s.svc.nextContext
    tokens := if x.rec_.bytesIn then [] else x.rec_.input
    tokenising := x.rec_.bytesIn && decide (u.tokenising < 64), waitingTok := x.rec_.bytesIn && !decide (u.tokenising < 64) } := ⟨_, rfl⟩
  have hfn : KeepsName f := by
    rw [hf]
    exact fun _ _ _ => rfl
  have hur : u.req? qp r.request = some (.begun qp r) := by
    rw [hu]
    exact State.withRequest_req? hq
  have hfq : f (.begun qp r) = (Request.begun qp r).opened s.svc.nextContext := by
    rw [hf]
    unfold Request.opened
    dsimp only
    rw [show (Request.begun qp r).rec_.bytesIn = false from hb, Bool.false_and, Bool.false_and, if_neg Bool.false_ne_true]
    rfl
  have hg := (State.modReq_own hfn u qp r.request hur).trans (congrArg some hfq)
  have ha : (s.withRequest (.begun qp r)).admitRequest qp r.request = (u.modReq qp r.request f).makeReady qp r.request := by
    have hheld := s.newTables_held r.model s.now
    rw [hf]
    unfold State.admitRequest
    rw [State.withRequest_req? hq]
    dsimp only
    rw [show (Request.begun qp r).rec_ = r from rfl, State.withRequest_status, if_neg (Classical.not_not.mpr hst), hc, hp, if_pos rfl,
      show ((0xFFFFFFFF : Nat) == 0xFFFFFFFF) = true from rfl, if_pos rfl]
    dsimp only
    rw [show (!true) = false from rfl, if_neg Bool.false_ne_true, show (s.withRequest (.begun qp r)).newTables r.model = s.newTables r.model from rfl,
      show (s.withRequest (.begun qp r)).now = s.now from rfl, hheld]
    rw [hu]
    rfl
  have hs : (u.modReq qp r.request f).served ((Request.begun qp r).opened s.svc.nextContext) = true := by
    rw [hu]
    exact hm
  have hn : (u.modReq qp r.request f).now = s.now := by
    rw [hu]
    rfl
  have hcr : ((Request.begun qp r).opened s.svc.nextContext).creditFor ((Request.begun qp r).opened s.svc.nextContext).nextEntry = true :=
    decide_eq_true (show 0 + 1 ≤ 0 + 2 ^ r.ringLog2 from by have := Nat.one_le_two_pow (n := r.ringLog2); omega)
  rw [ha, State.makeReady_ready hg rfl rfl rfl rfl hs hcr, hn]
  refine ⟨_, State.modReq_own (f := fun r => r.ready s.now) (fun _ _ _ => rfl) _ qp r.request hg, rfl, rfl, rfl, rfl, rfl, ?_⟩
  rw [hu]
  exact look_put_same ..

end New

/-! ### The end of a request, and its credit -/

section Ends

variable {qp : Nat} {s s1 : State} (h1 : s.takeRecord qp = some s1)

include h1

theorem exec_cancel {id : Nat} {q : Request} (hq : s1.req? qp id = some q) : exec (.cancel qp id) s = .next (
    if q.inPass then s1.modReq qp id fun r => { r with cancelled := true }
    else s1.endRequest q (streamEntry 0xFFFFFFFF (s1.ctxLength q.context) q.context kindEnd stOk 0 3 [])) := by
  show execCancel qp id s = _
  unfold execCancel State.endWith
  rw [h1]
  dsimp only
  rw [hq]
  exact (apply_ite Host.Outcome.next _ _ _).symm

theorem exec_credit {id v : Nat} {r : Request} (hr : s1.streamOf qp id = some r) : exec (.credit qp id v) s = .next (
    if v < r.credits ∨ r.written < v then s1.onSvc fun x => { x with creditsIgnored := satAdd 32 x.creditsIgnored 1 }
    else (s1.modStream qp id fun r => { r with credits := v }).makeReady qp id) := by
  show execCredit qp id v s = _
  unfold execCredit
  rw [h1]
  dsimp only
  rw [hr]
  exact (apply_ite Host.Outcome.next _ _ _).symm

theorem exec_close {ctx : Nat} {k : Context} (hk : look s1.svc.contexts ctx = some k) : exec (.close qp ctx) s = .next (
    if k.kept ∧ (s1.svc.requests.any fun r => !r.ended && r.context == ctx) = false then s1.closeContext ctx else s1) := by
  show execClose qp ctx s = _
  unfold execClose
  rw [h1]
  dsimp only
  rw [hk]
  dsimp only
  rw [apply_ite Host.Outcome.next]
  refine ite_of_iff (and_congr_right' ?_)
  rw [Bool.not_eq_true']

theorem exec_unknownRecord (id : Nat) : exec (.unknownRecord qp (some id)) s = .next (s1.countDrop.errorEntry qp id stBadArg) := by
  show execUnknownRecord qp (some id) s = _
  unfold execUnknownRecord
  rw [h1]

end Ends

/-! ### Tokenisation -/

section Tokenise

variable {qp id : Nat} {r : Request} {m : Model} {k : Tokeniser} {s : State} (hr : s.req? qp id = some r) (ht : r.tokenising = true)
  (hi : r.tokImage = none) (hm : look s.svc.models r.rec_.model = some m) (hk : look s.svc.tokenisers m.rec_.tokeniser = some k)

/-- The tokens of a request's input. -/
def Request.tokenised (r : Request) (k : Tokeniser) : List Nat := tokenise k (r.rec_.input.map fun n => BitVec.ofNat 8 n)

/-- A request tokenised. -/
def State.tokensSet (s : State) (qp id : Nat) (toks : List Nat) : State := s.modReq qp id fun r => { r with tokenising := false, tokens := toks }

/-- The first request that waits for a tokeniser place takes it. -/
def State.placeGiven (s : State) : State :=
  match s.svc.requests.find? fun x => x.waitingTok && !x.ended with
  | some x => s.modReq x.qp x.rec_.request fun x => { x with waitingTok := false, tokenising := true }
  | none => s

include hr ht hi hm hk in
theorem exec_tokenise (hv : (r.tokenised k).any (fun n => decide (m.rec_.vocab ≤ n)) = false) :
    exec (.tokenise qp id) s = .next ((s.tokensSet qp id (r.tokenised k)).placeGiven.makeReady qp id) := by
  show execTokenise qp id s = _
  unfold execTokenise
  rw [hr]
  dsimp only
  rw [hm, Option.bind_some, hi, show ((none : Option Tokeniser).orElse fun _ => look s.svc.tokenisers m.rec_.tokeniser) = some k from hk, Option.map_some]
  dsimp only
  rw [ht, if_neg (by decide), show (tokenise k (r.rec_.input.map fun n => BitVec.ofNat 8 n)).any (fun n => decide (m.rec_.vocab ≤ n)) = false from hv,
    if_neg Bool.false_ne_true]
  rfl

theorem State.placeGiven_some {w : Request} (h : s.svc.requests.find? (fun x => x.waitingTok && !x.ended) = some w) :
    s.placeGiven = s.modReq w.qp w.rec_.request fun x => { x with waitingTok := false, tokenising := true } := by
  unfold State.placeGiven
  rw [h]

theorem State.placeGiven_none (h : s.svc.requests.find? (fun x => x.waitingTok && !x.ended) = none) : s.placeGiven = s := by
  unfold State.placeGiven
  rw [h]

variable (hw : ∀ x ∈ s.svc.requests, x.waitingTok = true → x.ended = false → ¬ (x.qp = qp ∧ x.rec_.request = id))

theorem tokensSet_keepsName (toks : List Nat) : KeepsName fun r => { r with tokenising := false, tokens := toks } := fun _ _ _ => rfl

include hw in
/-- Tokenising one request leaves the first that waits. -/
theorem State.tokensSet_waiting (toks : List Nat) : ((s.tokensSet qp id toks).svc.requests.find? fun x => x.waitingTok && !x.ended) =
    s.svc.requests.find? fun x => x.waitingTok && !x.ended := by
  have hl : (s.tokensSet qp id toks).svc.requests =
      s.svc.requests.map fun x => if x.named qp id = true then { x with tokenising := false, tokens := toks } else x := rfl
  have hp : ((fun x : Request => x.waitingTok && !x.ended) ∘ fun x => if x.named qp id = true then { x with tokenising := false, tokens := toks } else x) =
      fun x => x.waitingTok && !x.ended := by
    funext x
    rw [Function.comp_apply]
    split <;> rfl
  rw [hl, List.find?_map, hp]
  cases hf : s.svc.requests.find? fun x => x.waitingTok && !x.ended with
  | none => rfl
  | some w =>
    have hwp := List.find?_some hf
    rw [Bool.and_eq_true, Bool.not_eq_true'] at hwp
    refine congrArg some (if_neg fun hn => ?_)
    obtain ⟨n1, n2, -⟩ := Request.named_iff.mp hn
    exact hw w (List.mem_of_find?_eq_some hf) hwp.1 hwp.2 ⟨n1, n2⟩

include hr hw in
theorem State.tokenise_spec (toks : List Nat) (hm : look s.svc.models r.rec_.model = some m) :
    ∃ q, ((s.tokensSet qp id toks).placeGiven.makeReady qp id).req? qp id = some q ∧ q.tokens = toks ∧ q.tokenising = false ∧
      (m.serves = true → r.creditFor r.nextEntry = true → r.assembling = false → r.inPass = false →
        q.readySince = some (r.readySince.getD s.now)) ∧
      ∀ w, s.svc.requests.find? (fun x => x.waitingTok && !x.ended) = some w →
        ∃ w', ((s.tokensSet qp id toks).placeGiven.makeReady qp id).req? w.qp w.rec_.request = some w' ∧ w'.tokenising = true := by
  have hgk : KeepsName fun x => { x with waitingTok := false, tokenising := true } := fun _ _ _ => rfl
  have h1 := State.modReq_own (tokensSet_keepsName toks) s qp id hr
  obtain ⟨u, hu⟩ : ∃ u, u = (s.tokensSet qp id toks).placeGiven := ⟨_, rfl⟩
  have hplace (w : Request) (hf : s.svc.requests.find? (fun x => x.waitingTok && !x.ended) = some w) :
      u = (s.tokensSet qp id toks).modReq w.qp w.rec_.request fun x => { x with waitingTok := false, tokenising := true } :=
    hu.trans (State.placeGiven_some ((State.tokensSet_waiting hw toks).trans hf))
  have hwait : ∀ w, s.svc.requests.find? (fun x => x.waitingTok && !x.ended) = some w →
      ¬(w.qp = qp ∧ w.rec_.request = id) ∧ w.ended = false := fun w hf => by
    have hwp := List.find?_some hf
    rw [Bool.and_eq_true, Bool.not_eq_true'] at hwp
    exact ⟨hw w (List.mem_of_find?_eq_some hf) hwp.1 hwp.2, hwp.2⟩
  have hown : u.req? qp id = some { r with tokenising := false, tokens := toks } ∧ u.svc.models = s.svc.models ∧ u.now = s.now := by
    cases hf : s.svc.requests.find? fun x => x.waitingTok && !x.ended with
    | none =>
      rw [hu, State.placeGiven_none ((State.tokensSet_waiting hw toks).trans hf)]
      exact ⟨h1, rfl, rfl⟩
    | some w =>
      rw [hplace w hf]
      exact ⟨(State.modReq_other hgk _ _ _ fun h => (hwait w hf).1 ⟨h.1.symm, h.2.symm⟩).trans h1, rfl, rfl⟩
  have hothers : ∀ w, s.svc.requests.find? (fun x => x.waitingTok && !x.ended) = some w →
      ∃ w', u.req? w.qp w.rec_.request = some w' ∧ w'.tokenising = true := fun w hf => by
    obtain ⟨hne, hwe⟩ := hwait w hf
    obtain ⟨x, hx⟩ : ∃ x, s.req? w.qp w.rec_.request = some x := by
      refine Option.isSome_iff_exists.mp (List.find?_isSome.mpr ⟨w, List.mem_of_find?_eq_some hf, ?_⟩)
      exact Request.named_iff.mpr ⟨rfl, rfl, hwe⟩
    have hx1 := (State.modReq_other (tokensSet_keepsName toks) s qp id hne).trans hx
    rw [hplace w hf]
    exact ⟨_, State.modReq_own hgk _ _ _ hx1, rfl⟩
  rw [← hu]
  obtain ⟨f, hfr, hft⟩ := u.makeReady_readied qp id
  rw [hft]
  obtain ⟨ho1, ho2, ho3⟩ := hown
  refine ⟨f { r with tokenising := false, tokens := toks }, ?_, ?_, ?_, fun hs hc ha hp => ?_, fun w hf => ?_⟩
  · exact State.modReq_own hfr.keepsName u qp id ho1
  · rw [hfr]
  · rw [hfr]
  · have hwt : r.waitingTok = false := by
      refine Classical.byContradiction fun hne => ?_
      obtain ⟨n1, n2, n3⟩ := State.req?_named hr
      exact hw r (List.mem_of_find?_eq_some hr) (Bool.not_eq_false _ ▸ hne) n3 ⟨n1, n2⟩
    have hsv : u.served { r with tokenising := false, tokens := toks } = true := by
      unfold State.served
      rw [ho2, show look s.svc.models _ = some m from hm]
      exact hs
    have hrd := State.makeReady_ready ho1 ha rfl hwt hp hsv hc
    have heq : (u.modReq qp id f).req? qp id = some
        (Request.ready { r with tokenising := false, tokens := toks } u.now) := by
      rw [← hft, hrd]
      exact State.modReq_own (f := fun r => r.ready u.now) (fun _ _ _ => rfl) u qp id ho1
    rw [State.modReq_own hfr.keepsName u qp id ho1] at heq
    rw [Option.some.inj heq, ho3]
    rfl
  · obtain ⟨w', hw', htk⟩ := hothers w hf
    rw [State.modReq_other hfr.keepsName u qp id (hwait w hf).1]
    exact ⟨w', hw', htk⟩

end Tokenise

/-- Settles O39: a record at the head of its channel is assembled, admitted, refused, continued, cancelled or credited as
`State.takeRecord` and the record's name decide; any other changes nothing. -/
theorem requestsAreAdmitted : Obligations.RequestsAreAdmitted := by
  unfold Obligations.RequestsAreAdmitted
  refine ⟨fun qp id v r s h => ?_, fun qp s s1 h1 => ⟨fun r hq => ?_, fun r q hq => ?_, fun id v r hr => ?_, fun ctx k hk => exec_close h1 hk⟩,
    fun qp id r m k s hr ht hi hm hk hw => ?_⟩
  · refine ⟨?_, ?_, ?_, ?_, ?_, ?_⟩
    · show execRequest qp r s = _
      unfold execRequest
      rw [h]
    · show execRequestContinuation qp r s = _
      unfold execRequestContinuation
      rw [h]
    · show execCancel qp id s = _
      unfold execCancel
      rw [h]
    · show execCredit qp id v s = _
      unfold execCredit
      rw [h]
    · show execClose qp id s = _
      unfold execClose
      rw [h]
    · show execUnknownRecord qp (some id) s = _
      unfold execUnknownRecord
      rw [h]
  · intro st
    have hx := exec_request h1 r
    rw [hq] at hx
    refine ⟨fun hmore => ?_, fun hmore hst => ?_, fun hmore hst hb hc hp hm => ?_, ⟨_, exec_requestContinuation h1 r, ?_⟩⟩
    · rw [hx, hmore]
      rfl
    · obtain ⟨q, e1, e2, e3, e4, e5, e6⟩ := State.admitRequest_refused hq hst
      rw [hmore] at hx
      exact ⟨_, q, hx, e1, e2, e3, e4, e5, e6⟩
    · obtain ⟨q, e⟩ := State.admitRequest_opens hq hst hb hc hp hm
      rw [hmore] at hx
      exact ⟨_, q, hx, e⟩
    · rw [State.continueRequest_none hq]
      exact ⟨rfl, rfl⟩
  · intro refused joined
    have herr := State.errorEntry_spec hq
    have hx := exec_request h1 r
    have hc := exec_requestContinuation h1 r
    have hs := State.continueRequest_some hq
    rw [hq] at hx
    refine ⟨fun ha => ⟨_, ?_, herr⟩, ⟨_, exec_unknownRecord h1 r.request, herr⟩, fun ha => ⟨_, ?_, herr⟩, fun ha => ⟨?_, ?_⟩, fun hp => ?_, fun hp => ?_⟩
    · rw [hx, show (some q).any (fun q => q.assembling) = false from ha]
      rfl
    · rw [hc, hs, if_pos ha]
    · rw [hc, hs, if_neg (by rw [ha]; decide)]
    · rw [hx, hc, show (some q).any (fun q => q.assembling) = true from ha, if_pos rfl]
    · rw [exec_cancel h1 hq, hp]
      rfl
    · refine ⟨_, q.endedWith (streamEntry 0xFFFFFFFF (s1.ctxLength q.context) q.context kindEnd stOk 0 3 []), ?_, State.endRequest_req? hq _,
        State.endRequest_mem hq _, rfl, rfl⟩
      rw [exec_cancel h1 hq, hp]
      rfl
  · refine ⟨fun h => ?_, fun hge hle => ?_⟩
    · rw [exec_credit h1 hr, if_pos h]
    · rw [exec_credit h1 hr, if_neg (not_or.mpr ⟨Nat.not_lt.mpr hge, Nat.not_lt.mpr hle⟩)]
  · intro toks hv
    obtain ⟨q, e⟩ := State.tokenise_spec hr hw toks hm
    exact ⟨_, q, exec_tokenise hr ht hi hm hk hv, e⟩

end Sys2Proof.Machine
end

