-- ==== Sys2Proof/Proofs/Passes.lean ====
section
/-!
Passes: their formation from ready sequences, their commit and their second formation, a decode step, and a step of fine-tuning.
-/

namespace Sys2Proof.Machine

/-! ### Places and pages of sequences -/

/-- State `t` differs from `s` in pages of sequences, the places of pools, contexts, memory and what its accesses log. -/
structure State.Pooled (s t : State) : Prop where
  eq : t = { s with
    free := t.free, mem := t.mem, slices := t.slices, outers := t.outers, log := t.log
    work := { s.work with kvPages := t.work.kvPages, placed := t.work.placed }
    svc := { s.svc with contexts := t.svc.contexts }
    ctl := { s.ctl with alertPending := t.ctl.alertPending }, life := { s.life with toCopy := t.life.toCopy } }

namespace State.Pooled

variable {s t u : State}

theorem refl (s : State) : s.Pooled s := ⟨rfl⟩

theorem trans (h₁ : s.Pooled t) (h₂ : t.Pooled u) : s.Pooled u := by
  constructor
  rw [h₂.eq, h₁.eq]

theorem paged (h : s.Pooled t) (hp : t.Paged u) : s.Pooled u := by
  refine h.trans ⟨?_⟩
  rw [hp.eq]

theorem modContext (h : s.Pooled t) (id : Nat) (f : Context → Context) : s.Pooled (t.modContext id f) := by
  unfold State.modContext
  split
  · exact h
  · exact h.trans ⟨rfl⟩

/-- A fold of steps that may find no room. -/
theorem bindFold {α : Type} {g : State → α → Option State} (hg : ∀ s a t, g s a = some t → s.Pooled t) (l : List α) :
    ∀ s t : State, l.foldl (fun (o : Option State) a => o.bind fun s => g s a) (some s) = some t → s.Pooled t := by
  have hnone : l.foldl (fun (o : Option State) a => o.bind fun s => g s a) none = none := by
    induction l with
    | nil => rfl
    | cons a l ih => exact ih
  induction l with
  | nil => exact fun s t h => Option.some.inj h ▸ refl s
  | cons a l ih =>
    intro s t h
    have ha : l.foldl (fun (o : Option State) a => o.bind fun s => g s a) (g s a) = some t := h
    cases hs : g s a with
    | none =>
      rw [hs, show l.foldl (fun (o : Option State) a => o.bind fun s => g s a) none = none from hnone] at ha
      cases ha
    | some x =>
      rw [hs] at ha
      exact (hg s a x hs).trans (ih hnone x t ha)

theorem placeTensor {pr : Program} {k : Handle} {nc : Nat} {cds : List Nat} {aff : Nat} (h : s.placeTensor pr k nc cds aff = some t) :
    s.Pooled t := by
  unfold State.placeTensor at h
  dsimp only at h
  split at h
  · exact Option.some.inj h ▸ refl s
  split at h
  · exact Option.some.inj h ▸ refl s
  refine bindFold (fun x i y hy => ?_) _ s t h
  obtain ⟨a, -, rfl⟩ := Option.map_eq_some_iff.mp hy
  refine trans (t := if _ then x else x.copyParts _ a) ?_ ⟨rfl⟩
  split
  · exact refl x
  · exact (refl x).paged (.copyParts (.refl x) _ a)

theorem withPools (s : State) (i : Nat) : s.Pooled (s.withPools i) := by
  unfold State.withPools
  cases h : s.placePools i with
  | none => exact refl s
  | some t =>
    refine bindFold (fun x slot y hy => ?_) _ s t h
    split at hy
    · exact Option.some.inj hy ▸ refl x
    · exact bindFold (fun _ _ _ hz => placeTensor hz) _ x y hy

theorem shadowAppend {id e n : Nat} {sc : Option Nat} (h : s.shadowAppend id e n sc = some t) : s.Pooled t := by
  obtain rfl | ⟨y, f, h₁, h₂⟩ := State.shadowAppend_split h
  · exact refl t
  · exact (((refl s).paged h₁).modContext id f).paged h₂

theorem passShadows (s : State) (m : Model) (p : Pass) : s.Pooled ((s.passShadows m p).getD s) := by
  cases h : s.passShadows m p with
  | none => exact refl s
  | some t =>
    refine bindFold (fun x r y hy => ?_) _ s t h
    split at hy
    · exact Option.some.inj hy ▸ refl x
    · exact shadowAppend hy

theorem passes (h : s.Pooled t) : t.svc.passes = s.svc.passes := by rw [h.eq]
theorem cores (h : s.Pooled t) : t.cores = s.cores := by rw [h.eq]
theorem work (h : s.Pooled t) : t.work.tasks = s.work.tasks ∧ t.work.epochs = s.work.epochs ∧ t.work.ready = s.work.ready := by
  rw [h.eq]
  exact ⟨rfl, rfl, rfl⟩

end State.Pooled

/-- An epoch opened changes the table of epochs alone. -/
theorem State.openEpoch_onWork {s t : State} {b : Bool} {e : Nat} (h : s.openEpoch b = some (t, e)) : ∃ f : Work → Work, t = s.onWork f ∧
    ∀ w, (f w).tasks = w.tasks ∧ (f w).ready = w.ready := by
  unfold State.openEpoch at h
  split at h
  · cases h
  dsimp only at h
  split at h
  · cases h
  · obtain ⟨rfl, rfl⟩ := Prod.mk.inj (Option.some.inj h)
    exact ⟨_, rfl, fun _ => ⟨rfl, rfl⟩⟩

/-! ### The choice of sequences -/

/-- A choice of sequences keeps to the limits of a pass. -/
structure WithinPass (chunk : Request → Bool) (lim : Nat) (l : List Request) : Prop where
  count : l.length ≤ lim
  chunks : (l.filter chunk).length ≤ 4
  adapters : (adaptersOf l).length ≤ 8

theorem pickSeqs_within {chunk : Request → Bool} {lim : Nat} (l : List Request) : ∀ acc, WithinPass chunk lim acc →
    WithinPass chunk lim (pickSeqs chunk lim acc l) := by
  induction l with
  | nil => exact fun _ h => h
  | cons r l ih =>
    intro acc h
    unfold pickSeqs
    dsimp only
    split
    · exact h
    next hlim =>
    split
    · exact ih acc h
    next hno =>
    obtain ⟨hc, ha⟩ := not_or.mp hno
    refine ih _ ⟨?_, ?_, Nat.not_lt.mp ha⟩
    · rw [List.length_append, List.length_singleton]
      omega
    · rw [List.filter_append, List.length_append]
      have h1 := h.chunks
      by_cases hr : chunk r = true
      · have := Nat.not_le.mp fun h4 => hc ⟨hr, h4⟩
        rw [List.filter_cons_of_pos hr]
        simp only [List.filter_nil, List.length_singleton]
        omega
      · rw [List.filter_cons_of_neg hr]
        simp only [List.filter_nil, List.length_nil]
        omega

theorem pickSeqs_mem {chunk : Request → Bool} {lim : Nat} (l : List Request) : ∀ acc, ∀ r ∈ pickSeqs chunk lim acc l, r ∈ acc ∨ r ∈ l := by
  induction l with
  | nil => exact fun _ _ h => .inl h
  | cons x l ih =>
    intro acc r h
    unfold pickSeqs at h
    dsimp only at h
    split at h
    · exact .inl h
    split at h
    · exact (ih acc r h).imp_right (List.mem_cons_of_mem _)
    · rcases ih _ r h with h | h
      · rcases List.mem_append.mp h with h | h
        · exact .inl h
        · exact .inr (List.mem_cons.mpr (.inl (List.mem_singleton.mp h)))
      · exact .inr (List.mem_cons_of_mem _ h)

theorem pickSeqs_keeps {chunk : Request → Bool} {lim : Nat} (l : List Request) : ∀ acc, acc ≠ [] → pickSeqs chunk lim acc l ≠ [] := by
  induction l with
  | nil => exact fun _ h => h
  | cons r l ih =>
    intro acc h
    unfold pickSeqs
    dsimp only
    split
    · exact h
    split
    · exact ih acc h
    · exact ih _ (List.append_ne_nil_of_left_ne_nil h _)

/-- The oldest ready sequence is always taken. -/
theorem pickSeqs_nonempty {chunk : Request → Bool} {lim : Nat} (h0 : 0 < lim) {l : List Request} (hl : l ≠ []) : pickSeqs chunk lim [] l ≠ [] := by
  cases l with
  | nil => exact absurd rfl hl
  | cons r l =>
    have hone : ¬((chunk r = true ∧ 4 ≤ (([] : List Request).filter chunk).length) ∨ 8 <
        ((([] ++ [r]).filterMap fun x : Request => if x.rec_.adapter = 0xFFFF then none else some x.rec_.adapter).eraseDups).length) := by
      rintro (h | h)
      · exact absurd h.2 (Nat.not_le.mpr (show 0 < 4 by decide))
      · simp only [List.nil_append, List.filterMap_cons, List.filterMap_nil] at h
        split at h
        · exact absurd h (show ¬ 8 < 0 by decide)
        · exact absurd h (show ¬ 8 < 1 by decide)
    unfold pickSeqs
    dsimp only
    rw [if_neg (show ¬ lim ≤ ([] : List Request).length from Nat.not_le.mpr h0), if_neg hone]
    exact pickSeqs_keeps l _ (List.append_ne_nil_of_right_ne_nil _ (List.cons_ne_nil _ _))

/-! ### The formation of a pass -/

/-- Only a sequence with input tokens left has a chunk. -/
theorem State.workOf_chunk {s : State} {m : Model} {r : Request} {k : Nat} (h : s.workOf m r = .chunk k) : r.chunked < r.tokens.length := by
  unfold State.workOf at h
  dsimp only at h
  split at h
  · assumption
  · split at h <;> cases h

/-- The pass of some sequences of a model, in an epoch. -/
def State.passOf (s : State) (i e : Nat) (m : Model) (seqs : List Request) : Pass where
  model := i
  seqs := seqs.map fun r => (r.qp, r.rec_.request)
  epoch := e
  ops := s.matrixOps m seqs.length
  adapters := adaptersOf seqs
  index := s.indexTensor m seqs
  working := s.workingOf (adaptersOf seqs)

/-- The state with a pass entered. -/
def State.entered (s : State) (p : Pass) : State := s.onSvc fun v => { v with passes := put v.passes v.nextPass p, nextPass := v.nextPass + 1 }

/-- Sequences join a pass. -/
def State.joinPass (s : State) (seqs : List Request) : State :=
  seqs.foldl (fun s r => s.modReq r.qp r.rec_.request fun r => { r with inPass := true, readySince := none }) s

theorem State.joinPass_keeps (l : List Request) : ∀ s : State, (s.joinPass l).svc.passes = s.svc.passes ∧ (s.joinPass l).work = s.work ∧
    (s.joinPass l).cores = s.cores := by
  induction l with
  | nil => exact fun _ => ⟨rfl, rfl, rfl⟩
  | cons r l ih => exact fun s => ih (s.modReq r.qp r.rec_.request fun r => { r with inPass := true, readySince := none })

section Form

variable {i e : Nat} {m : Model} {s s1 : State} (hm : look s.svc.models i = some m) (hs : m.serves = true)
  (hp : s.svc.passes.length < 16) (he : s.openEpoch true = some (s1, e))

include hm hs hp he

/-- The formation of a pass, where a sequence of a chunk is one with input tokens left. -/
theorem State.formPass_eq : ∃ chunk : Request → Bool, (∀ r, chunk r = decide (r.chunked < r.tokens.length)) ∧
    s.formPass i = if (pickSeqs chunk m.rec_.passMax [] (s.readySeqs i)).isEmpty = true then s
      else ((((s1.entered (s.passOf i e m (pickSeqs chunk m.rec_.passMax [] (s.readySeqs i)))).withPools i).passShadows m
        (s.passOf i e m (pickSeqs chunk m.rec_.passMax [] (s.readySeqs i)))).getD
          ((s1.entered (s.passOf i e m (pickSeqs chunk m.rec_.passMax [] (s.readySeqs i)))).withPools i)).joinPass
            (pickSeqs chunk m.rec_.passMax [] (s.readySeqs i)) := by
  have hif {c d : Prop} [Decidable c] [Decidable d] {x y : State} (h : c ↔ d) : (if c then x else y) = if d then x else y :=
    ite_of_iff h
  unfold State.formPass
  rw [hm]
  dsimp only
  rw [he]
  refine ⟨_, fun r => ?_, hif ?_⟩
  · split
    · next k hk => exact (decide_eq_true (State.workOf_chunk hk)).symm
    · next hk => exact (decide_eq_false fun hc => hk _ (if_pos hc)).symm
  · rw [hs]
    simp only [Bool.not_true, Bool.false_eq_true, false_or, Nat.not_le.mpr hp, or_false]

theorem State.formPass_spec (h0 : 0 < m.rec_.passMax) (hr : s.readySeqs i ≠ []) :
    ∃ picks p, look (s.formPass i).svc.passes s.svc.nextPass = some p ∧ p.model = i ∧ p.epoch = e ∧
      p.retried = false ∧ p.seqs = picks.map (fun r : Request => (r.qp, r.rec_.request)) ∧ picks ≠ [] ∧ picks.length ≤ m.rec_.passMax ∧
      (∀ r ∈ picks, r ∈ s.readySeqs i) ∧ p.adapters.length ≤ 8 ∧
      (picks.filter fun r => decide (r.chunked < r.tokens.length)).length ≤ 4 ∧
      (s.formPass i).work.tasks = s1.work.tasks ∧ (s.formPass i).work.epochs = s1.work.epochs ∧ (s.formPass i).work.ready = s1.work.ready ∧
      (s.formPass i).cores = s.cores := by
  obtain ⟨chunk, hc, hf⟩ := State.formPass_eq hm hs hp he
  have hne := pickSeqs_nonempty (chunk := chunk) h0 hr
  have hw := pickSeqs_within (chunk := chunk) (lim := m.rec_.passMax) (s.readySeqs i) [] ⟨Nat.zero_le _, Nat.zero_le _, Nat.zero_le _⟩
  have hmem := pickSeqs_mem (chunk := chunk) (lim := m.rec_.passMax) (s.readySeqs i) []
  generalize pickSeqs chunk m.rec_.passMax [] (s.readySeqs i) = picks at hf hne hw hmem
  rw [if_neg (by rw [List.isEmpty_iff]; exact hne)] at hf
  obtain ⟨g, hg, hgw⟩ := State.openEpoch_onWork he
  have hpool := (State.Pooled.withPools (s1.entered (s.passOf i e m picks)) i).trans
    (.passShadows ((s1.entered (s.passOf i e m picks)).withPools i) m (s.passOf i e m picks))
  generalize (((s1.entered (s.passOf i e m picks)).withPools i).passShadows m (s.passOf i e m picks)).getD
    ((s1.entered (s.passOf i e m picks)).withPools i) = u at hf hpool
  obtain ⟨j1, j2, j3⟩ := u.joinPass_keeps picks
  obtain ⟨w1, w2, w3⟩ := hpool.work
  have hchunks := hw.chunks
  rw [show chunk = fun r => decide (r.chunked < r.tokens.length) from funext hc] at hchunks
  rw [hf, j2]
  refine ⟨picks, s.passOf i e m picks, ?_, rfl, rfl, rfl, rfl, hne, hw.count, fun r h => (hmem r h).resolve_left List.not_mem_nil,
    hw.adapters, hchunks, w1, w2, w3, ?_⟩
  · rw [j1, hpool.passes]
    show look (put s1.svc.passes s1.svc.nextPass _) _ = _
    rw [hg]
    exact look_put_same ..
  · rw [j3, hpool.cores, hg]
    rfl

end Form

/-! ### The commit of a pass -/

section Commit

variable {n : Nat} {p : Pass} {e : Epoch} {m : Model} {results : List SeqLogits} {s : State} (hp : look s.svc.passes n = some p)
  (he : look s.work.epochs p.epoch = some e) (hm : look s.svc.models p.model = some m)

/-- A committed pass leaves the table of passes, and its model counts it. -/
def Service.passDone (v : Service) (n : Nat) (p : Pass) (results : List SeqLogits) (now : Nat) : Service :=
  { v with
    passes := del v.passes n
    emptyRows := satAdd 64 v.emptyRows ((results.filter fun x => p.seqs.contains (x.qp, x.request)).map (·.emptyRows)).sum
    adapters := mapTab v.adapters fun i a => if p.adapters.contains i then { a with lastUsed := now } else a
    models := mapTab v.models fun i m => if i ≠ p.model then m else { m with
      passesRun := satAdd 64 m.passesRun 1, lastServed := now
      passTimes := (m.passTimes.filter fun t => decide (now < t + 1000000000)) ++ [now]
      served := (m.served.filter fun t => decide (now < t + 1000000000)) ++ List.replicate p.seqs.length now } }

include hp he hm

theorem exec_passCommit {s0 : State} (hd : e.doomed = false) (hfit : s.passFits m p results = true) (htab : s.passTables m p results = some s0)
    (hst : ∀ a ∈ p.adapters, ∃ x, look s.svc.adapters a = some x ∧ x.staged = true) (hops : ∀ o ∈ p.ops, o.2 = 0)
    (hready : (s0.commitAdmit p.epoch).1.commitReady p.epoch (s0.commitAdmit p.epoch).2 = true) :
    exec (.passCommit n results) s = .next ((((s0.commitAdmit p.epoch).1.commitAct p.epoch [] (s0.commitAdmit p.epoch).2).passSeqs m p results).onSvc
      fun v => v.passDone n p results s.now) := by
  show execPassCommit n results s = _
  unfold execPassCommit
  rw [hp]
  dsimp only
  rw [he, hm]
  dsimp only
  rw [hd, if_neg Bool.false_ne_true, htab]
  dsimp only
  rw [hfit, hready, List.all_eq_true.mpr fun o ho => beq_iff_eq.mpr (hops o ho), List.all_eq_true.mpr fun a ha => ?_]
  · rfl
  · obtain ⟨x, hx, hxs⟩ := hst a ha
    rw [hx]
    exact hxs

theorem State.passCommit_spec {s0 : State} (hd : e.doomed = false) (hfit : s.passFits m p results = true) (htab : s.passTables m p results = some s0)
    (hst : ∀ a ∈ p.adapters, ∃ x, look s.svc.adapters a = some x ∧ x.staged = true) (hops : ∀ o ∈ p.ops, o.2 = 0) :
    let gens := (s0.commitAdmit p.epoch).2
    let u := ((s0.commitAdmit p.epoch).1.commitAct p.epoch [] gens).passSeqs m p results
    (s0.commitAdmit p.epoch).1.commitReady p.epoch gens = true →
    ∃ t, exec (.passCommit n results) s = .next t ∧ t.mem = u.mem ∧ t.work = u.work ∧ t.svc.requests = u.svc.requests ∧
      t.svc.contexts = u.svc.contexts ∧
      t.svc.emptyRows = satAdd 64 u.svc.emptyRows ((results.filter fun x => p.seqs.contains (x.qp, x.request)).map (·.emptyRows)).sum ∧
      ∀ k, look u.svc.models p.model = some k →
        ∃ k', look t.svc.models p.model = some k' ∧ k'.passesRun = satAdd 64 k.passesRun 1 ∧ k'.lastServed = s.now := by
  intro gens u hready
  refine ⟨_, exec_passCommit hp he hm hd hfit htab hst hops hready, rfl, rfl, rfl, rfl, rfl, fun k hk => ?_⟩
  have hl : look (u.svc.passDone n p results s.now).models p.model = some (if p.model ≠ p.model then k else { k with
      passesRun := satAdd 64 k.passesRun 1, lastServed := s.now
      passTimes := (k.passTimes.filter fun t => decide (s.now < t + 1000000000)) ++ [s.now]
      served := (k.served.filter fun t => decide (s.now < t + 1000000000)) ++ List.replicate p.seqs.length s.now }) := by
    unfold Service.passDone
    dsimp only
    rw [look_mapTab, hk]
    rfl
  rw [if_neg (Classical.not_not.mpr rfl)] at hl
  exact ⟨_, hl, rfl, rfl⟩

/-- A pass formed again. -/
def Pass.again (p : Pass) (e : Nat) (ops : List (Nat × Nat)) : Pass := { p with epoch := e, retried := true, ops := ops }

omit hp he in
theorem State.passFailed_again (hr : p.retried = false) {s2 : State} {e2 : Nat}
    (ho : ((s.discardEpoch p.epoch stPartial).onSvc fun v => { v with passes := del v.passes n }).openEpoch true = some (s2, e2)) :
    s.passFailed n p = ((s2.onSvc fun v => { v with passes := put v.passes n (p.again e2 (s2.matrixOps m p.seqs.length)) }).passShadows m
      (p.again e2 (s2.matrixOps m p.seqs.length))).getD
        (s2.onSvc fun v => { v with passes := put v.passes n (p.again e2 (s2.matrixOps m p.seqs.length)) }) := by
  have hmod : look s2.svc.models p.model = some m := by
    obtain ⟨f, hf, -⟩ := State.openEpoch_onWork ho
    rw [hf]
    show look (s.discardEpoch p.epoch stPartial).svc.models p.model = some m
    rw [(State.Ran.discardEpoch (.refl s) p.epoch stPartial).eq]
    exact hm
  unfold State.passFailed
  dsimp only
  rw [hr, if_neg Bool.false_ne_true, ho]
  dsimp only
  rw [hmod]
  split
  · next m' hm' =>
    obtain rfl := Option.some.inj (hmod.symm.trans hm')
    rfl
  · next hn => exact absurd (hmod.symm.trans hn) (Option.some_ne_none m)

theorem State.passCommit_doomed (hd : e.doomed = true) (hr : p.retried = false) (s2 : State) (e2 : Nat)
    (ho : ((s.discardEpoch p.epoch stPartial).onSvc fun v => { v with passes := del v.passes n }).openEpoch true = some (s2, e2)) :
    ∃ t, exec (.passCommit n results) s = .next t ∧ look t.svc.passes n = some { p with
      epoch := e2, retried := true, ops := s2.matrixOps m p.seqs.length } ∧
      t.work.tasks = s2.work.tasks ∧ t.work.epochs = s2.work.epochs ∧ t.work.ready = s2.work.ready := by
  have hx : exec (.passCommit n results) s = .next (s.passFailed n p) := by
    show execPassCommit n results s = _
    unfold execPassCommit
    rw [hp]
    dsimp only
    rw [he, hm]
    dsimp only
    rw [hd, if_pos rfl]
  have hpool := State.Pooled.passShadows (s2.onSvc fun v => { v with passes := put v.passes n (p.again e2 (s2.matrixOps m p.seqs.length)) }) m
    (p.again e2 (s2.matrixOps m p.seqs.length))
  refine ⟨_, hx, ?_⟩
  rw [State.passFailed_again hm hr ho]
  refine ⟨?_, hpool.work⟩
  rw [hpool.passes]
  exact look_put_same ..

end Commit

/-! ### A decode step -/

theorem State.modContext_svc (s : State) (id : Nat) (f : Context → Context) : (s.modContext id f).svc.requests = s.svc.requests ∧
    (s.modContext id f).svc.models = s.svc.models := by
  unfold State.modContext
  split <;> exact ⟨rfl, rfl⟩

theorem Request.foldl_push (es : List (List Byte)) : ∀ r : Request, ∃ l n, es.foldl Request.push r = { r with entries := l, nextEntry := n } := by
  induction es with
  | nil => exact fun r => ⟨r.entries, r.nextEntry, rfl⟩
  | cons e es ih =>
    intro r
    obtain ⟨l, n, h⟩ := ih (r.push e)
    exact ⟨l, n, h⟩

/-- A request with a token appended, streamed at a position. -/
def State.withToken (s : State) (m : Model) (tok pos : Nat) (r : Request) : Request :=
  { (tokenEntries r.context tok pos (s.tokenBytes m r tok)).foldl Request.push r with produced := r.produced ++ [tok] }

theorem State.withToken_eq (s : State) (m : Model) (tok pos : Nat) (r : Request) :
    ∃ l n, s.withToken m tok pos r = { r with entries := l, nextEntry := n, produced := r.produced ++ [tok] } := by
  obtain ⟨l, n, h⟩ := Request.foldl_push (tokenEntries r.context tok pos (s.tokenBytes m r tok)) r
  refine ⟨l, n, ?_⟩
  unfold State.withToken
  rw [h]

theorem State.keepTokens_cons {s u : State} {m : Model} {qp id tok : Nat} {r r1 : Request} (hr : s.req? qp id = some r)
    (hu : u = (s.modReq qp id (s.withToken m tok (s.ctxLength r.context))).modContext r.context fun k => { k with length := k.length + 1 })
    (h1 : u.req? qp id = some r1) (hs : stopReason m r1 tok (s.ctxLength r.context + 1) = none) (l : List Nat) :
    s.keepTokens m qp id (tok :: l) = u.keepTokens m qp id l := by
  subst hu
  rw [State.keepTokens, hr]
  dsimp only
  split
  · next hn => exact absurd (h1.symm.trans hn) (Option.some_ne_none r1)
  · next r2 h2 =>
    obtain rfl := Option.some.inj (h1.symm.trans h2)
    split
    · next w hw => exact absurd (hs.symm.trans hw) (Option.some_ne_none w).symm
    · rfl

section Decode

variable {m : Model} {x : SeqLogits} {qp : Nat} {r : Request} {s : State} (hr : s.req? qp x.request = some r)

include hr

/-- A token that does not end its request is appended to it. -/
theorem State.keepTokens_one {tok : Nat} (hs : stopReason m { r with produced := r.produced ++ [tok] } tok (s.ctxLength r.context + 1) = none) :
    ∃ q, (s.keepTokens m qp x.request [tok]).req? qp x.request = some q ∧ q.produced = r.produced ++ [tok] ∧ q.ended = r.ended ∧
      q.cancelled = r.cancelled := by
  obtain ⟨f, hf⟩ : ∃ f, f = s.withToken m tok (s.ctxLength r.context) := ⟨_, rfl⟩
  have hff (y : Request) : ∃ l k, f y = { y with entries := l, nextEntry := k, produced := y.produced ++ [tok] } := by
    rw [hf]
    exact s.withToken_eq m tok _ y
  have hname : KeepsName f := fun y a b => by
    obtain ⟨l, k, h⟩ := hff y
    rw [h]
    rfl
  obtain ⟨u, hu⟩ : ∃ u, u = (s.modReq qp x.request f).modContext r.context fun k => { k with length := k.length + 1 } := ⟨_, rfl⟩
  have hureq : u.req? qp x.request = some (f r) := by
    rw [State.req?_eq, hu, (State.modContext_svc _ _ _).1]
    exact State.modReq_own hname s qp x.request hr
  obtain ⟨l, k, hfr⟩ := hff r
  have hstop : stopReason m (f r) tok (s.ctxLength r.context + 1) = none := by
    rw [hfr]
    exact hs
  rw [State.keepTokens_cons hr (hf ▸ hu) hureq hstop []]
  refine ⟨f r, hureq, ?_⟩
  rw [hfr]
  exact ⟨rfl, rfl, rfl⟩

/-- A decode step keeps the token it samples, and the sequence leaves the pass. -/
theorem State.passSeq_decode (hp : x.poisoned = false) (hw : s.workOf m r = .decode) : ∃ n : Nat, ∀ u r1,
    u = (s.onSvc fun v => { v with nanLogits := satAdd 64 v.nanLogits n }).keepTokens m qp x.request
      [sampleTok r.rec_ (x.rows.getD 0 []) (s.ctxLength r.context) 0] →
    u.req? qp x.request = some r1 → r1.cancelled = false →
    s.passSeq m x qp = (u.modReq qp x.request fun r => { r with inPass := false }).makeReady qp x.request := by
  obtain ⟨n, hn⟩ : ∃ n, n = x.rows.foldl (fun a row => a + (row.filter fun w => (ofF32 w).isNan).length) 0 := ⟨_, rfl⟩
  refine ⟨n, fun u r1 hu h1 hc => ?_⟩
  unfold State.passSeq
  rw [hr]
  dsimp only
  rw [hp, if_neg Bool.false_ne_true, hw]
  dsimp only
  rw [← hn, ← hu, h1]
  dsimp only
  rw [hc, if_neg Bool.false_ne_true]

theorem State.passSeq_spec (hp : x.poisoned = false) (hw : s.workOf m r = .decode) (hc : r.cancelled = false) :
    let len := s.ctxLength r.context
    let tok := sampleTok r.rec_ (x.rows.getD 0 []) len 0
    stopReason m { r with produced := r.produced ++ [tok] } tok (len + 1) = none →
    ∃ q, (s.passSeq m x qp).req? qp x.request = some q ∧ q.produced = r.produced ++ [tok] ∧ q.inPass = false ∧ q.ended = false := by
  intro len tok hs
  obtain ⟨-, -, hend⟩ := State.req?_named hr
  obtain ⟨n, h⟩ := State.passSeq_decode hr hp hw
  obtain ⟨q, hq, q1, q2, q3⟩ := State.keepTokens_one (s := s.onSvc fun v => { v with nanLogits := satAdd 64 v.nanLogits n }) hr hs
  rw [h _ q rfl hq (q3.trans hc)]
  generalize (s.onSvc fun v => { v with nanLogits := satAdd 64 v.nanLogits n }).keepTokens m qp x.request [tok] = u at hq
  have hl := State.modReq_own (f := fun r => { r with inPass := false }) (fun _ _ _ => rfl) u qp x.request hq
  obtain ⟨f, hf, hm⟩ := (u.modReq qp x.request fun r => { r with inPass := false }).makeReady_readied qp x.request
  rw [hm]
  refine ⟨_, State.modReq_own hf.keepsName _ qp x.request hl, ?_⟩
  rw [hf]
  exact ⟨q1, rfl, q2.trans hend⟩

end Decode

/-! ### Fine-tuning -/

section Finetune

variable {a e : Nat} {j : Ft} {x : Adapter} {s s1 : State} (hj : look s.svc.fts a = some j) (hx : look s.svc.adapters a = some x)
  (hst : j.stopped = false) (hsteps : j.step < j.job.steps) (hp : s.svc.passes.length < 8) (he : s.openEpoch true = some (s1, e))

include hj hx hst hsteps hp he

theorem exec_finetuneStep {ok : Bool} {grads : List Word} (hg : ok = true → grads.length = x.params) : exec (.finetuneStep a ok grads) s = .next (
    if ok = true then (s1.commitAct e [] []).onSvc fun v => { v with
        fts := put v.fts a { j with step := j.step + 1, retried := false, stopped := decide (j.job.steps ≤ j.step + 1) }
        adapters := put v.adapters a (x.optimise j.job (j.step + 1) (s.elemsOf x) grads) }
    else (s1.discardEpoch e stPartial).onSvc fun v => { v with
        fts := put v.fts a (if j.retried then { j with stopped := true } else { j with retried := true }) }) := by
  have hgo : ¬(j.stopped = true ∨ j.job.steps ≤ j.step ∨ 8 ≤ s.svc.passes.length ∨ ok = true ∧ grads.length ≠ x.params) := by
    rintro (h | h | h | ⟨h1, h2⟩)
    · rw [hst] at h; exact Bool.false_ne_true h
    · exact absurd h (Nat.not_le.mpr hsteps)
    · exact absurd h (Nat.not_le.mpr hp)
    · exact h2 (hg h1)
  show execFinetuneStep a ok grads s = _
  unfold execFinetuneStep
  rw [hj, hx]
  dsimp only
  rw [if_neg hgo, he]
  exact (apply_ite Host.Outcome.next _ _ _).symm

theorem State.finetuneStep_spec :
    (∀ grads : List Word, grads.length = x.params →
      let opt (y : AdamElem × Word) : AdamElem :=
        adamw j.job.lr j.job.beta1 j.job.beta2 j.job.eps j.job.lambda (j.step + 1) y.1 y.2
      ∃ t, exec (.finetuneStep a true grads) s = .next t ∧ t.mem = (s1.commitAct e [] []).mem ∧
      look t.svc.adapters a = some { x with step := x.step + 1, elems := ((s.elemsOf x).zip grads).map opt } ∧
      look t.svc.fts a = some { j with step := j.step + 1, retried := false, stopped := decide (j.job.steps ≤ j.step + 1) }) ∧
    ∀ grads, ∃ t, exec (.finetuneStep a false grads) s = .next t ∧
      look t.svc.fts a = some (if j.retried then { j with stopped := true } else { j with retried := true }) := by
  refine ⟨fun grads hg => ?_, fun grads => ?_⟩
  · intro opt
    exact ⟨_, (exec_finetuneStep hj hx hst hsteps hp he fun _ => hg).trans (congrArg Host.Outcome.next (if_pos rfl)), rfl,
      look_put_same .., look_put_same ..⟩
  · exact ⟨_, (exec_finetuneStep hj hx hst hsteps hp he fun h => absurd h Bool.false_ne_true).trans
      (congrArg Host.Outcome.next (if_neg Bool.false_ne_true)), look_put_same ..⟩

end Finetune

/-- Settles O41: the choice of sequences keeps to its limits, a pass commits as its conditions allow or is formed again, a decode step
appends its token, and a step of fine-tuning counts or is retried. -/
theorem passesAreFormedAndCommitted : Obligations.PassesAreFormedAndCommitted := by
  unfold Obligations.PassesAreFormedAndCommitted
  refine ⟨fun i e m s s1 hm hs h0 hr hp he => ?_, fun i m s hm => ⟨s.formPass i, rfl, ?_⟩, fun n p e m results s hp he hm => ⟨fun s0 => ?_, ?_⟩,
    fun m x qp r s hr hp hw hc => State.passSeq_spec hr hp hw hc,
    fun a e j x s s1 hj hx hst hsteps hp he => State.finetuneStep_spec hj hx hst hsteps hp he⟩
  · obtain ⟨picks, p, h⟩ := State.formPass_spec hm hs hp he h0 hr
    exact ⟨s.formPass i, picks, p, rfl, h⟩
  · show execPassForm i s = _
    unfold execPassForm
    rw [hm]
    exact (apply_ite Host.Outcome.next _ _ _).symm
  · exact State.passCommit_spec hp he hm
  · exact State.passCommit_doomed hp he hm

end Sys2Proof.Machine
end

