-- ==== Sys2Proof/Proofs/Commands.lean ====
section
/-!
The mailbox commands on the device, its windows, regions and units (R441): each has its effect on the state in which it has started,
and its answer there is the one of `State.answered`.
-/

namespace Sys2Proof.Machine

/-! ### A command that runs -/

/-- `u` holds the commands and the answers of `s` with the commands in progress started. -/
structure State.InHand (s u : State) : Prop where
  inProgress : u.ctl.inProgress = s.begun.ctl.inProgress
  completed : u.ctl.completed = s.ctl.completed
  now : u.now = s.now

theorem State.InHand.begun (s : State) : s.InHand s.begun := ⟨rfl, rfl, rfl⟩

/-- The state in which the only command in progress has been answered. -/
def State.replied (u : State) (h : CmdHdr) (op st : Nat) (eff : Bool) (d : Word) (res : List Byte) : State := u.onCtl fun k => { k with
  inProgress := []
  completed := k.completed ++ [{ hdr := h, op := op, status := st, effect := eff, detail := d, results := res, endTime := u.now }] }

theorem State.respond_replied {u : State} {c : Cmd} (hp : u.ctl.inProgress = [c]) (hd : c.discard = false) (st : Nat) (eff : Bool)
    (d : Word) (res : List Byte) : u.respond c.hdr c.op st eff d res = u.replied c.hdr c.op st eff d res := by
  unfold State.respond
  rw [hp, List.find?_cons_of_pos (by simp)]
  dsimp only
  rw [hd, List.erase_cons_head]
  rfl

theorem State.InHand.respond {s u : State} {h : CmdHdr} {op : Nat} (hu : s.InHand u) (hr : s.runs h op) (st : Nat) (eff : Bool) (d : Word)
    (res : List Byte) : u.respond h op st eff d res = u.replied h op st eff d res := by
  obtain ⟨c, hip, rfl, rfl, -, hd, -, -, -, -⟩ := hr
  have hp : u.ctl.inProgress = [c.begun] := hu.inProgress.trans (by rw [State.begun]; exact congrArg (List.map _) hip)
  exact State.respond_replied hp hd st eff d res

/-- A command that runs and answers: the state after it is the one of its effect with the answer, its log records stamped. -/
theorem State.runs.replies {s u : State} {h : CmdHdr} {op st : Nat} {eff : Bool} {d : Word} {res : List Byte} {body : State → State}
    {x : Host.Outcome State Fault Refusal} (hr : s.runs h op) (he : x = s.command h op body) (hb : body s.begun = u.respond h op st eff d res)
    (hu : s.InHand u) :
    ∃ w, x = .next ((u.replied h op st eff d res).stampWall s.log.next s.log.open_.length w) ∧
      s.answered ((u.replied h op st eff d res).stampWall s.log.next s.log.open_.length w) h op st eff d res := by
  obtain ⟨w, hw⟩ := State.command_of_runs hr
  refine ⟨w, ?_, rfl, ?_⟩
  · rw [he, hw, hb, hu.respond hr]
  · show u.ctl.completed ++ [{ hdr := h, op := op, status := st, effect := eff, detail := d, results := res, endTime := u.now }] = _
    rw [hu.completed, hu.now]

/-- A command that runs and is answered OK. -/
theorem State.runs.does {s u : State} {h : CmdHdr} {op : Nat} {d : Word} {res : List Byte} {body : State → State}
    {x : Host.Outcome State Fault Refusal} (hr : s.runs h op) (he : x = s.command h op body) (hb : body s.begun = u.done h op res d)
    (hu : s.InHand u) :
    ∃ w, x = .next ((u.replied h op stOk true d res).stampWall s.log.next s.log.open_.length w) ∧
      s.answered ((u.replied h op stOk true d res).stampWall s.log.next s.log.open_.length w) h op stOk true d res :=
  hr.replies he hb hu

/-- A command that runs and waits: the state after it is the one of its effect, its log records stamped. -/
theorem State.runs.waits {s : State} {h : CmdHdr} {op : Nat} {body : State → State} {x : Host.Outcome State Fault Refusal}
    (hr : s.runs h op) (he : x = s.command h op body) : ∃ w, x = .next ((body s.begun).stampWall s.log.next s.log.open_.length w) := by
  obtain ⟨w, hw⟩ := State.command_of_runs hr
  exact ⟨w, he.trans (hw body)⟩

/-- A command that runs and is answered with no effect. -/
theorem State.runs.refuses {s : State} {h : CmdHdr} {op st : Nat} {d : Word} {body : State → State}
    {x : Host.Outcome State Fault Refusal} (hr : s.runs h op) (he : x = s.command h op body) (hb : body s.begun = s.begun.refuse h op st d) :
    ∃ t, x = .next t ∧ s.answered t h op st false d [] := by
  obtain ⟨w, hx, ha⟩ := hr.replies he hb (.begun s)
  exact ⟨_, hx, ha⟩

/-! ### The device, R441 -/

theorem State.begun_ringBusy (s : State) : s.begun.ctl.ringBusy = s.ctl.ringBusy := by
  unfold Ctl.ringBusy
  rw [show s.begun.ctl.inProgress = s.ctl.inProgress.map fun c => { c with started := true } from rfl, List.filter_map, List.length_map]
  rfl

/-- That a command has started shows in no register. -/
theorem State.begun_dcsReg (s : State) (off : Nat) : s.begun.dcsReg off = s.dcsReg off := by
  have hr : s.begun.ringCtl = s.ringCtl := by
    unfold State.ringCtl
    dsimp only
    rw [State.begun_ringBusy]
    rfl
  have hl : s.begun.dcsLive off = s.dcsLive off := by
    unfold State.dcsLive
    dsimp only
    rw [hr]
    rfl
  unfold State.dcsReg
  rw [hl]
  rfl

/-- The registers that GET_INFO answers, R441. -/
def State.info (s : State) : List Byte :=
  (List.range 24).flatMap (fun i => leBytes 8 (s.dcsReg (8 * i))) ++ leBytes 8 (s.dcsReg 0x100) ++ leBytes 8 (s.dcsReg 0x108)

theorem State.begun_info (s : State) : s.begun.info = s.info := by
  unfold State.info
  simp only [State.begun_dcsReg]

theorem exec_getInfo {s : State} {h : CmdHdr} (hr : s.runs h 0x0101) :
    ∃ t, exec (.getInfo h) s = .next t ∧ t.mem = s.mem ∧ s.answered t h 0x0101 stOk true 0 s.info := by
  have he : execGetInfo h s = s.command h 0x0101 fun s => s.done h 0x0101 s.info := rfl
  obtain ⟨w, hx, ha⟩ := hr.does he (congrArg (fun l => s.begun.done h 0x0101 l) s.begun_info) (.begun s)
  exact ⟨_, hx, rfl, ha⟩

/-- A compute reset that begins: the clusters that are not fenced are in it; nothing of the commands changes. -/
theorem State.beginReset_spec (s : State) (cds : List Nat) (all : Bool) (cmd : Option CmdHdr) :
    (s.beginReset cds all cmd).dev = (if all then .computeReset else s.dev) ∧ (s.beginReset cds all cmd).fw.resetStep = 1 ∧
      (s.beginReset cds all cmd).fw.resetCmd = cmd ∧
      (s.beginReset cds all cmd).fw.resetting = cds.filter (fun cd => !s.fenced cd) ∧ (s.beginReset cds all cmd).ctl = s.ctl := by
  unfold State.beginReset
  dsimp only
  generalize cds.filter (fun cd => !s.fenced cd) = l
  generalize hg : s.onFw _ = u
  have hf : u.fw.resetStep = 1 ∧ u.fw.resetCmd = cmd ∧ u.fw.resetting = l ∧ u.dev = s.dev ∧ u.ctl = s.ctl := by
    rw [← hg]
    exact ⟨rfl, rfl, rfl, rfl, rfl⟩
  obtain ⟨cs, hc⟩ := State.foldl_modCluster_eq (fun _ k => { k with fwRunning := false }) l u
  obtain ⟨h1, h2, h3, h4, h5⟩ := hf
  rw [hc]
  cases all
  · exact ⟨h4, h1, h2, h3, h5⟩
  · exact ⟨rfl, h1, h2, h3, h5⟩

theorem exec_computeReset {s : State} {h : CmdHdr} (hr : s.runs h 0x0102) (mode : Nat) (cds : List Nat) (hc : ∀ cd ∈ cds, cd < 512) :
    (mode ≤ 1 → s.fw.resetStep ≠ 0 → ∃ t, exec (.computeReset h mode cds) s = .next t ∧ s.answered t h 0x0102 stBusy false 0 []) ∧
    (1 < mode → ∃ t, exec (.computeReset h mode cds) s = .next t ∧ s.answered t h 0x0102 stBadArg false 0 []) ∧
    (mode ≤ 1 → s.fw.resetStep = 0 → ∃ t, exec (.computeReset h mode cds) s = .next t ∧ t.ctl.completed = s.ctl.completed ∧
      t.fw.resetStep = 1 ∧ t.fw.resetCmd = some h ∧ t.dev = (if mode = 0 then .computeReset else s.dev) ∧
      t.fw.resetting = (if mode = 0 then List.range 512 else cds.eraseDups).filter fun cd => !s.fenced cd) := by
  have hcds : ¬cds.any (fun cd => decide (512 ≤ cd)) = true := by
    rw [List.any_eq_true]
    rintro ⟨cd, hm, hcd⟩
    exact absurd (of_decide_eq_true hcd) (Nat.not_le.mpr (hc cd hm))
  refine ⟨fun hm hs => ?_, fun hm => ?_, fun hm hs => ?_⟩
  · exact hr.refuses (rfl : execComputeReset h mode cds s = s.command h _ _) ((if_neg (not_or.mpr ⟨Nat.not_lt.mpr hm, hcds⟩)).trans (if_pos hs))
  · exact hr.refuses (rfl : execComputeReset h mode cds s = s.command h _ _) (if_pos (Or.inl hm))
  · obtain ⟨w, hx⟩ := hr.waits (rfl : execComputeReset h mode cds s = s.command h _ _)
    rw [if_neg (not_or.mpr ⟨Nat.not_lt.mpr hm, hcds⟩), if_neg (show ¬s.begun.fw.resetStep ≠ 0 from Classical.not_not.mpr hs)] at hx
    generalize hg : (if mode = 0 then List.range 512 else cds.eraseDups) = l at hx ⊢
    obtain ⟨h1, h2, h3, h4, h5⟩ := s.begun.beginReset_spec l (mode == 0) (some h)
    refine ⟨_, hx, (congrArg Ctl.completed h5 :), h2, h3, h1.trans ?_, h4⟩
    by_cases h0 : mode = 0
    · rw [if_pos h0, h0]; rfl
    · rw [if_neg h0, if_neg (by simpa using h0)]; rfl

theorem exec_deviceReset {s : State} {h : CmdHdr} (hr : s.runs h 0x0103) :
    ∃ t, exec (.deviceReset h) s = .next t ∧ t.fw.resetDelay = true ∧ s.answered t h 0x0103 stOk true 0 [] := by
  obtain ⟨w, hx, ha⟩ := hr.does (u := s.begun.onFw fun f => { f with resetDelay := true })
    (rfl : execDeviceReset h s = s.command h _ _) rfl ⟨rfl, rfl, rfl⟩
  exact ⟨_, hx, rfl, ha⟩

end Sys2Proof.Machine
end

