-- ==== Sys2Proof/Proofs/Profile.lean ====
section
/-!
The mailbox commands on the profile, the windows, the regions, the pages and the units (R441, R444, R486, R413, R212).
-/

namespace Sys2Proof.Machine

/-! ### The profile, R454, R486 -/

theorem State.setSrcCfg_ctl (s : State) (v : Nat) : (s.setSrcCfg v).ctl = s.ctl ∧ (s.setSrcCfg v).fw = s.fw ∧ (s.setSrcCfg v).now = s.now := by
  unfold State.setSrcCfg
  dsimp only
  split
  · exact ⟨rfl, rfl, rfl⟩
  · unfold State.useSource
    split
    · exact ⟨rfl, rfl, rfl⟩
    · exact ⟨State.retune_ctl _, by rw [State.retune_eq]; rfl, by rw [State.retune_eq]; rfl⟩

/-- An entry of the profile as it is entered in its list. -/
def profPut (l : List (Nat × List Byte)) (key : Nat) (v : List Byte) : List (Nat × List Byte) := (l.filter fun e => e.1 != key) ++ [(key, v)]

/-- The firmware with an entry of the profile stored. -/
def Fw.withProfile (f : Fw) (key : Nat) (v : List Byte) : Fw :=
  if key / 2 ^ 31 = 0 then { f with profDev := profPut f.profDev key v, profSeq := f.profSeq + 1 }
  else { f with profNet := profPut f.profNet key v, profSeq := f.profSeq + 1 }

theorem Fw.withProfile_mem (f : Fw) (key : Nat) (v : List Byte) :
    ((key, v) ∈ if key / 2 ^ 31 = 0 then (f.withProfile key v).profDev else (f.withProfile key v).profNet) ∧
      (f.withProfile key v).profSeq = f.profSeq + 1 := by
  have hm (l : List (Nat × List Byte)) : (key, v) ∈ profPut l key v := List.mem_append_right _ (List.mem_singleton_self _)
  unfold Fw.withProfile
  split
  · exact ⟨hm _, rfl⟩
  · exact ⟨hm _, rfl⟩

theorem State.storeProfile_spec (s : State) (key : Nat) (v : List Byte) :
    (s.storeProfile key v).fw = s.fw.withProfile key v ∧ (s.storeProfile key v).ctl = s.ctl ∧ (s.storeProfile key v).now = s.now := by
  show ((if key = 0x01000003 then (s.onFw fun f => f.withProfile key v).setSrcCfg (leNat v) else s.onFw fun f => f.withProfile key v).fw = _ ∧
    (if key = 0x01000003 then (s.onFw fun f => f.withProfile key v).setSrcCfg (leNat v) else s.onFw fun f => f.withProfile key v).ctl = _ ∧
    (if key = 0x01000003 then (s.onFw fun f => f.withProfile key v).setSrcCfg (leNat v) else s.onFw fun f => f.withProfile key v).now = _)
  split
  · obtain ⟨h1, h2, h3⟩ := (s.onFw fun f => f.withProfile key v).setSrcCfg_ctl (leNat v)
    exact ⟨h2, h1, h3⟩
  · exact ⟨rfl, rfl, rfl⟩

theorem exec_config_read {s : State} {h : CmdHdr} (hr : s.runs h 0x0104) {key : Word} (hn : profSize key.toNat ≠ 0) (v : List Byte) :
    ∃ t, exec (.config h 0 key v) s = .next t ∧ s.answered t h 0x0104 stOk true 0
      (s.profNow key.toNat ++ List.replicate (192 - profSize key.toNat) 0) := by
  obtain ⟨w, hx, ha⟩ := hr.does (u := s.begun) (res := s.profNow key.toNat ++ List.replicate (192 - profSize key.toNat) 0) (d := 0)
    (rfl : execConfig h 0 key v s = s.command h _ _) ((if_neg (not_or.mpr ⟨hn, Nat.not_lt_zero _⟩)).trans (if_pos rfl)) (.begun s)
  exact ⟨_, hx, ha⟩

theorem exec_config_write {s : State} {h : CmdHdr} (hr : s.runs h 0x0104) {key : Word} (hn : profSize key.toNat ≠ 0) {v : List Byte}
    (hv : v.length = profSize key.toNat) (hl : v.length ≤ 192) (hok : profOk key.toNat v = true) :
    ∃ t, exec (.config h 1 key v) s = .next t ∧
      s.answered t h 0x0104 stOk true 0 (v ++ List.replicate (192 - profSize key.toNat) 0) ∧
      ((key.toNat, v) ∈ if key.toNat / 2 ^ 31 = 0 then t.fw.profDev else t.fw.profNet) ∧ t.fw.profSeq = s.fw.profSeq + 1 := by
  have hpad : v.take (profSize key.toNat) ++ List.replicate (profSize key.toNat - v.length) 0 = v := by
    rw [← hv, List.take_length, Nat.sub_self, List.replicate_zero, List.append_nil]
  have hgood : ¬((v.drop (profSize key.toNat)).any (· != 0) = true ∨ 192 < v.length ∨ (!profOk key.toNat v) = true) := by
    rw [← hv, List.drop_length, hok]
    exact not_or.mpr ⟨by decide, not_or.mpr ⟨Nat.not_lt.mpr hl, by decide⟩⟩
  obtain ⟨h1, h2, h3⟩ := s.begun.storeProfile_spec key.toNat v
  obtain ⟨h4, h5⟩ := s.fw.withProfile_mem key.toNat v
  rw [← show s.begun.fw = s.fw from rfl, ← h1] at h4 h5
  obtain ⟨w, hx, ha⟩ := hr.does (u := s.begun.storeProfile key.toNat v) (res := v ++ List.replicate (192 - profSize key.toNat) 0) (d := 0)
    (rfl : execConfig h 1 key v s = s.command h _ _) ((if_neg (not_or.mpr ⟨hn, by decide⟩)).trans ((if_neg (by decide)).trans (by
      rw [hpad]
      exact if_neg hgood))) ⟨(congrArg Ctl.inProgress h2 :), (congrArg Ctl.completed h2 :), h3⟩
  exact ⟨_, hx, ha, h4, h5⟩

/-! ### Windows, R441, R412 -/

/-- A window's queue pair as it is made. -/
def State.windowQp (s : State) (w p g : Nat) (a : BitVec 128) : Qp :=
  { kind := .window w, port := p, gidIndex := g, state := .init, domain := newDomain s.free (.window w)
    mtu := (s.portSt p).mtuMax, remoteGid := a, rate := (s.portSt p).line }

theorem exec_window_open {s : State} {h : CmdHdr} (hr : s.runs h 0x0601) {w p g q : Nat} (a : BitVec 128) (va len : Dword) (rk : Word)
    (hw : w < 64) (hp : p < 4) (hg : g < 3) (hx : (lookD s.ctl.windows w ({} : Win)).state = 0) (hup : (s.portSt p).state = .up)
    (hgid : (s.portSt p).gidOk g = true) (hq : s.freeQp = some q) :
    ∃ t k, exec (.window h 0 w p g a va len rk) s = .next t ∧ t.sent = s.sent ++ [.cm p (some q) cmReq] ∧
      look t.ctl.opening w = some h ∧
      look t.ctl.windows w = some { state := 1, qp := q, port := p, gidIndex := g, hostGid := a, va := va, len := len, rkey := rk } ∧
      look t.net.qps q = some k ∧ k.kind = .window w ∧ k.state = .init ∧ k.port = p ∧ t.ctl.completed = s.ctl.completed := by
  obtain ⟨y, he⟩ := hr.waits (rfl : execWindow h 0 w p g a va len rk s = s.command h _ _)
  rw [if_neg (not_or.mpr ⟨Nat.not_lt_zero _, Nat.not_le.mpr hw⟩), if_neg (by decide), if_neg (not_or.mpr ⟨Nat.not_le.mpr hp, Nat.not_le.mpr hg⟩),
    if_neg (by rw [show s.begun.ctl.windows = s.ctl.windows from rfl, hx]; decide),
    if_neg (by rw [show s.begun.portSt = s.portSt from rfl, hup, hgid]; decide),
    if_neg (by rw [show s.begun.ctl.windows = s.ctl.windows from rfl, hx]; decide)] at he
  dsimp only at he
  rw [show s.begun.freeQp = some q from hq] at he
  exact ⟨_, s.begun.windowQp w p g a, he, rfl, look_put_same .., look_put_same .., look_put_same .., rfl, rfl, rfl, rfl⟩

theorem exec_window {s : State} {h : CmdHdr} (hr : s.runs h 0x0601) {w p g : Nat} (a : BitVec 128) (va len : Dword) (rk : Word)
    (hw : w < 64) (hp : p < 4) (hg : g < 3) :
    ((lookD s.ctl.windows w ({} : Win)).state = 1 ∨ (lookD s.ctl.windows w ({} : Win)).state = 2 →
      ∃ t, exec (.window h 0 w p g a va len rk) s = .next t ∧ s.answered t h 0x0601 stBusy false 0 []) ∧
    ((lookD s.ctl.windows w ({} : Win)).state = 0 → look s.ctl.opening w = none →
      ∃ t, exec (.window h 1 w p g a va len rk) s = .next t ∧ s.answered t h 0x0601 stOk true 0 [0]) := by
  refine ⟨fun hx => ?_, fun hx ho => ?_⟩
  · exact hr.refuses (rfl : execWindow h 0 w p g a va len rk s = s.command h _ _)
      ((if_neg (not_or.mpr ⟨Nat.not_lt_zero _, Nat.not_le.mpr hw⟩)).trans ((if_neg (by decide)).trans
        ((if_neg (not_or.mpr ⟨Nat.not_le.mpr hp, Nat.not_le.mpr hg⟩)).trans (if_pos hx))))
  · obtain ⟨y, he, ha⟩ := hr.does (u := s.begun) (res := [0]) (d := 0) (rfl : execWindow h 1 w p g a va len rk s = s.command h _ _)
      ((if_neg (not_or.mpr ⟨by decide, Nat.not_le.mpr hw⟩)).trans ((if_pos rfl).trans (by
        rw [show look s.begun.ctl.opening w = none from ho]
        exact congrArg (fun u : State => u.done h 0x0601 [0]) (if_pos hx)))) (.begun s)
    exact ⟨_, he, ha⟩

/-! ### Regions, R413 -/

/-- A region is entered. -/
def State.withRegion (s : State) (i : Nat) (x : Region) : State := s.onNet fun n => { n with regions := put n.regions i x }

theorem exec_region {s : State} {h : CmdHdr} (hr : s.runs h 0x0602) {i : Nat} (base len : Nat) (rd wr : Bool) (d : Nat) (hi : i ≠ 0)
    (hi' : i < 4096) :
    (d ≤ 255 → memoryRange base len = true → ∃ t, exec (.region h 0 i base len rd wr d) s = .next t ∧
      lookD t.net.regions i {} = { registered := true, base := base, len := len, rd := rd, wr := wr, domain := d,
                                   tag := nextTag (lookD s.net.regions i ({} : Region)).tag } ∧
      s.answered t h 0x0602 stOk true 0 (leBytes 4 (i * 256 + nextTag (lookD s.net.regions i ({} : Region)).tag))) ∧
    (∃ t, exec (.region h 1 i base len rd wr d) s = .next t ∧
      lookD t.net.regions i {} = { (lookD s.net.regions i ({} : Region)) with registered := false } ∧
      s.answered t h 0x0602 stOk true 0 (leBytes 4 (i * 256 + (lookD s.net.regions i ({} : Region)).tag))) := by
  have hin (op : Nat) (ho : ¬1 < op) : ¬(1 < op ∨ i = 0 ∨ 4096 ≤ i) := not_or.mpr ⟨ho, not_or.mpr ⟨hi, Nat.not_le.mpr hi'⟩⟩
  constructor
  · intro hd hm
    obtain ⟨w, hx, ha⟩ := hr.does (d := 0) (u := s.begun.withRegion i
        { registered := true, base := base, len := len, rd := rd, wr := wr, domain := d
          tag := nextTag (lookD s.net.regions i ({} : Region)).tag })
      (res := leBytes 4 (i * 256 + nextTag (lookD s.net.regions i ({} : Region)).tag))
      (rfl : execRegion h 0 i base len rd wr d s = s.command h _ _)
      ((if_neg (hin 0 (by decide))).trans ((if_neg (by decide)).trans (if_neg (not_or.mpr ⟨Nat.not_lt.mpr hd, by rw [hm]; decide⟩))))
      ⟨rfl, rfl, rfl⟩
    exact ⟨_, hx, lookD_put_same .., ha⟩
  · obtain ⟨w, hx, ha⟩ := hr.does (d := 0) (u := s.begun.withRegion i { lookD s.net.regions i ({} : Region) with registered := false })
      (res := leBytes 4 (i * 256 + (lookD s.net.regions i ({} : Region)).tag))
      (rfl : execRegion h 1 i base len rd wr d s = s.command h _ _) ((if_neg (hin 1 (by decide))).trans (if_pos rfl)) ⟨rfl, rfl, rfl⟩
    exact ⟨_, hx, lookD_put_same .., ha⟩

/-! ### Register blocks and export windows, R441, R382 -/

theorem State.begun_block (s : State) (u : RegUnit) : s.begun.block u = s.block u := by
  cases u <;> rfl

theorem exec_unitRegs_read {s : State} {h : CmdHdr} (hr : s.runs h 0x0604) {u : RegUnit} {off : Nat} (v : Dword)
    (hu : unitRegsUnit u = true) (he : unitExists u = true) (h8 : off % 8 = 0) (hl : off < (s.block u).length) :
    ∃ t, exec (.unitRegs h 0 u off v) s = .next t ∧ s.answered t h 0x0604 stOk true 0 (s.block u) := by
  have hgood : ¬(1 < 0 ∨ (!unitRegsUnit u) = true ∨ (!unitExists u) = true ∨ off % 8 ≠ 0 ∨ (s.begun.block u).length ≤ off) := by
    rw [State.begun_block, hu, he, h8]
    simp [hl]
  obtain ⟨w, hx, ha⟩ := hr.does (d := 0) (u := s.begun) (res := s.block u) (rfl : execUnitRegs h 0 u off v s = s.command h _ _)
    ((if_neg hgood).trans (congrArg (fun l => s.begun.done h 0x0604 l) (s.begun_block u))) (.begun s)
  exact ⟨_, hx, ha⟩

theorem exec_exportWindow {s : State} {h : CmdHdr} (hr : s.runs h 0x0605) {i base size : Nat} (rd wr : Bool) (hi : i < 16) (hz : size ≠ 0)
    (hm : memoryRange base size = true) : ∃ t, exec (.exportWindow h i base size rd wr) s = .next t ∧
      look t.lys.exports i = some { base := base, size := size, rd := rd, wr := wr } ∧ s.answered t h 0x0605 stOk true 0 [] := by
  obtain ⟨w, hx, ha⟩ := hr.does (d := 0) (res := []) (u := s.begun.onLys fun y => { y with
      exports := if size = 0 then del y.exports i else put y.exports i { base := base, size := size, rd := rd, wr := wr } })
    (rfl : execExportWindow h i base size rd wr s = s.command h _ _)
    (if_neg (not_or.mpr ⟨Nat.not_le.mpr hi, by rw [hm]; simp⟩)) ⟨rfl, rfl, rfl⟩
  exact ⟨_, hx, (congrArg (fun l => look l i) (if_neg hz)).trans (look_put_same ..), ha⟩

end Sys2Proof.Machine
end

