-- ==== Sys2Proof/Proofs/Retirements.lean ====
section
/-!
RETIRE with a free spare: the copy begins and the command waits for its end (R212, R213, R247).
-/

namespace Sys2Proof.Machine

/-- While no page of a RETIRE is done, every RETIRE command waits. -/
theorem State.retireDone_waits {s : State} (h : ∀ r ∈ s.ctl.retires, (r.pages.all (s.pageDone r.tier r.unit)) = false) :
    s.retireDone = s := by
  have hf : (s.ctl.retires.filter fun r => r.pages.all (s.pageDone r.tier r.unit)) = [] :=
    List.filter_eq_nil_iff.mpr fun r hr => by rw [h r hr]; decide
  have hk : (s.ctl.retires.filter fun r => !([] : List Retiring).contains r) = s.ctl.retires :=
    List.filter_eq_self.mpr fun _ _ => rfl
  unfold State.retireDone
  rw [hf]
  show s.onCtl (fun k => { k with retires := k.retires.filter fun r => !([] : List Retiring).contains r }) = s
  show { s with ctl := { s.ctl with retires := s.ctl.retires.filter fun r => !([] : List Retiring).contains r } } = s
  rw [hk]

/-- A RETIRE of one page as it waits. -/
def retireOf (h : CmdHdr) (tier unit page : Nat) : Retiring := { hdr := h, tier := tier, unit := unit, pages := [page], bank := false }

/-- The state in which a RETIRE of one page waits. -/
def State.withRetire (s : State) (h : CmdHdr) (tier unit page : Nat) : State :=
  s.onCtl fun k => { k with retires := k.retires ++ [retireOf h tier unit page] }

/-- A RETIRE of a page that has been copied to no spare yet waits. -/
theorem State.withRetire_waits {s : State} {h : CmdHdr} {tier unit page : Nat} (hn : s.ctl.retires = [])
    (hp : s.pageDone tier unit page = false) : (s.withRetire h tier unit page).retireDone = s.withRetire h tier unit page ∧
      (s.withRetire h tier unit page).ctl.retires = [retireOf h tier unit page] := by
  have hl : (s.withRetire h tier unit page).ctl.retires = [retireOf h tier unit page] := congrArg (· ++ [_]) hn
  refine ⟨State.retireDone_waits fun r hr => ?_, hl⟩
  rw [hl, List.mem_singleton] at hr
  rw [hr]
  show (s.pageDone tier unit page && true) = false
  rw [hp]
  rfl

/-- The copy of a slice page to its spare begins. -/
def Slice.copyTo (sl : Slice) (page i : Nat) : Slice := { sl with copying := sl.copying ++ [(page, i)] }.recount

/-- The copy of an outer page to its spare begins. -/
def Outer.copyTo (o : Outer) (page i : Nat) : Outer := { o with copying := o.copying ++ [(page, i)] }

theorem State.retireSlicePage_spare {s : State} {c i : Nat} (hf : (s.slice c).freeSpare = some i) (page : Nat) :
    s.retireSlicePage c page = s.modSlice c fun sl => sl.copyTo page i := by
  unfold State.retireSlicePage
  rw [hf]
  rfl

theorem State.retireOuterPage_spare {s : State} {m i : Nat} (hf : (s.outer m).freeSpare = some i) (page : Nat) :
    s.retireOuterPage m page = s.modOuter m fun o => o.copyTo page i := by
  unfold State.retireOuterPage
  rw [hf]
  rfl

theorem copies_page {l : List (Nat × Nat)} {page i : Nat} (h : (page, i) ∈ l) : (l.any fun x => x.1 == page) = true :=
  List.any_eq_true.mpr ⟨_, h, beq_self_eq_true _⟩

theorem exec_retire_slice {s : State} {h : CmdHdr} (hr : s.runs h 0x0603) (hn : s.ctl.retires = []) {c page i : Nat} (hc : c < 32768)
    (hp : page < 192) (ho : s.retiredPage 0 c page = false) (hf : (s.slice c).freeSpare = some i) :
    ∃ t, exec (.retire h 0 c page false) s = .next t ∧ (page, i) ∈ (t.slice c).copying ∧ t.ctl.retires.map (·.hdr) = [h] ∧
      t.ctl.completed = s.ctl.completed ∧ t.mem = s.mem := by
  obtain ⟨w, hx⟩ := hr.waits (rfl : execRetire h 0 c page false s = s.command h _ _)
  have hroom : s.begun.retireRoom 0 c page false = true := by
    show ((s.slice c).freeSpare.isSome || _) = true
    rw [hf]
    rfl
  have hbad : (decide (1 < 0) || (false && 0 == 1) || (if 0 = 0 then decide (32768 ≤ c) || (!false && decide (192 ≤ page))
      else decide (12 ≤ c) || decide (65536 ≤ page))) = false := by
    simp [hc, hp]
  dsimp only at hx
  rw [hbad, if_neg (by decide), if_neg (by rw [hroom]; simp), if_neg (by rw [if_neg (by decide)]; exact Bool.eq_false_iff.mp ho),
    if_neg (by decide), if_pos rfl, if_neg (by decide), State.retireSlicePage_spare (s := s.begun) hf] at hx
  have hm : (page, i) ∈ ((s.begun.modSlice c fun sl => sl.copyTo page i).slice c).copying := by
    rw [State.modSlice_slice]
    exact List.mem_append_right _ (List.mem_singleton_self _)
  have hpd : (s.begun.modSlice c fun sl => sl.copyTo page i).pageDone 0 c page = false := by
    unfold State.pageDone
    rw [if_pos rfl, copies_page hm]
    rfl
  obtain ⟨h1, h2⟩ := State.withRetire_waits (s := s.begun.modSlice c fun sl => sl.copyTo page i) (h := h) hn hpd
  refine ⟨_, hx.trans (congrArg (fun u : State => Host.Outcome.next (u.stampWall s.log.next s.log.open_.length w)) h1), hm, ?_, rfl, rfl⟩
  exact congrArg (List.map _) h2

theorem exec_retire_outer {s : State} {h : CmdHdr} (hr : s.runs h 0x0603) (hn : s.ctl.retires = []) {m page i : Nat} (hc : m < 12)
    (hp : page < 65536) (ho : s.retiredPage 1 m page = false) (hf : (s.outer m).freeSpare = some i) :
    ∃ t, exec (.retire h 1 m page false) s = .next t ∧ (page, i) ∈ (t.outer m).copying ∧ t.ctl.retires.map (·.hdr) = [h] ∧
      t.ctl.completed = s.ctl.completed ∧ t.mem = s.mem := by
  obtain ⟨w, hx⟩ := hr.waits (rfl : execRetire h 1 m page false s = s.command h _ _)
  have hroom : s.begun.retireRoom 1 m page false = true := by
    show ((s.outer m).freeSpare.isSome || _) = true
    rw [hf]
    rfl
  have hbad : (decide (1 < 1) || (false && 1 == 1) || (if 1 = 0 then decide (32768 ≤ m) || (!false && decide (192 ≤ page))
      else decide (12 ≤ m) || decide (65536 ≤ page))) = false := by
    simp [hc, hp]
  dsimp only at hx
  rw [hbad, if_neg (by decide), if_neg (by rw [hroom]; simp), if_neg (by rw [if_neg (by decide)]; exact Bool.eq_false_iff.mp ho),
    if_neg (by decide), if_neg (by decide), if_neg (by decide), State.retireOuterPage_spare (s := s.begun) hf] at hx
  have hm : (page, i) ∈ ((s.begun.modOuter m fun o => o.copyTo page i).outer m).copying := by
    rw [State.modOuter_outer]
    exact List.mem_append_right _ (List.mem_singleton_self _)
  have hpd : (s.begun.modOuter m fun o => o.copyTo page i).pageDone 1 m page = false := by
    unfold State.pageDone
    rw [if_neg (by decide), copies_page hm]
    rfl
  obtain ⟨h1, h2⟩ := State.withRetire_waits (s := s.begun.modOuter m fun o => o.copyTo page i) (h := h) hn hpd
  refine ⟨_, hx.trans (congrArg (fun u : State => Host.Outcome.next (u.stampWall s.log.next s.log.open_.length w)) h1), hm, ?_, rfl, rfl⟩
  exact congrArg (List.map _) h2

theorem exec_retire_bad {s : State} {h : CmdHdr} (hr : s.runs h 0x0603) {tier : Nat} (ht : 1 < tier) (u page : Nat) (bank : Bool) :
    ∃ t, exec (.retire h tier u page bank) s = .next t ∧ s.answered t h 0x0603 stBadArg false 0 [] :=
  hr.refuses (rfl : execRetire h tier u page bank s = s.command h _ _) (if_pos (by simp [ht]))

end Sys2Proof.Machine
end

