-- ==== Sys2Proof/Proofs/PowerCommands.lean ====
section
/-!
The mailbox commands on power, heat and the error log (R512, R260, R442, R508, R520, R545, R542, R556).
-/

namespace Sys2Proof.Machine

/-! ### Power -/

theorem exec_setPowerCap {s : State} {h : CmdHdr} (hr : s.runs h 0x0701) (w : Nat) : ∃ t, exec (.setPowerCap h w) s = .next t ∧
    (1500 ≤ w → w ≤ 4000 → t.pwr.capW = w ∧ s.answered t h 0x0701 stOk true 0 (leBytes 2 w)) ∧
    ((w < 1500 ∨ 4000 < w) → t.pwr = s.pwr ∧ s.answered t h 0x0701 stBadArg false 0 []) := by
  by_cases hw : w < 1500 ∨ 4000 < w
  · obtain ⟨_, hx, ha⟩ := hr.replies (u := s.begun) (st := stBadArg) (eff := false) (d := 0) (res := [])
      (rfl : execSetPowerCap h w s = s.command h _ _) (if_pos hw) (.begun s)
    exact ⟨_, hx, fun h1 h2 => by omega, fun _ => ⟨rfl, ha⟩⟩
  · obtain ⟨_, hx, ha⟩ := hr.does (u := s.begun.onPwr fun p => { p with capW := w }) (d := 0) (res := leBytes 2 w)
      (rfl : execSetPowerCap h w s = s.command h _ _) (if_neg hw) ⟨rfl, rfl, rfl⟩
    exact ⟨_, hx, fun _ _ => ⟨rfl, ha⟩, fun hw' => absurd hw' hw⟩

theorem activeMaxOf_idem (v : Nat) : activeMaxOf (activeMaxOf v) = activeMaxOf v := by
  obtain ⟨h8, h24, h4⟩ := activeMaxOf_range v
  rw [activeMaxOf]
  omega

/-- Active_Max written to a list of packages is the one of each of them whose value nothing holds. -/
theorem State.foldl_writeActiveMax (v m : Nat) (l : List Nat) (s : State) (hs : (s.outer m).activeSaved = none)
    (hm : m ∈ l ∨ (s.outer m).activeMax = activeMaxOf v) :
    ((l.foldl (fun s j => s.writeActiveMax j v) s).outer m).activeMax = activeMaxOf v := by
  induction l generalizing s with
  | nil => exact hm.resolve_left List.not_mem_nil
  | cons j l ih =>
    obtain ⟨hsame, hother⟩ := s.writeActiveMax_outer j v
    by_cases hj : m = j
    · subst hj
      rw [Outer.withActiveMax_free hs] at hsame
      exact ih _ ((congrArg Outer.activeSaved hsame).trans hs) (.inr (congrArg Outer.activeMax hsame))
    · have ho := hother m hj
      exact ih _ ((congrArg Outer.activeSaved ho).trans hs)
        (hm.imp (fun h => (List.mem_cons.mp h).resolve_left hj) (fun h => (congrArg Outer.activeMax ho).trans h))

theorem State.foldl_writeActiveMax_keeps (v : Nat) (l : List Nat) (s : State) :
    (l.foldl (fun s j => s.writeActiveMax j v) s).ctl = s.ctl ∧ (l.foldl (fun s j => s.writeActiveMax j v) s).now = s.now := by
  induction l generalizing s with
  | nil => exact ⟨rfl, rfl⟩
  | cons j l ih => exact ih _

theorem exec_setProboscis {s : State} {h : CmdHdr} (hr : s.runs h 0x0702) {mask : Half} {v : Nat} (hm : mask.toNat < 4096) (hv : v < 20) :
    ∃ t, exec (.setProboscis h mask v) s = .next t ∧ s.answered t h 0x0702 stOk true 0 [] ∧
      ∀ m, m < 12 → mask.getLsbD m = true → (s.outer m).activeSaved = none → (t.outer m).activeMax = activeMaxOf v := by
  have h16 : ¬16 < activeMaxOf v := by
    rw [activeMaxOf]
    omega
  obtain ⟨h1, h2⟩ := s.begun.foldl_writeActiveMax_keeps (activeMaxOf v) ((List.range 12).filter fun m => mask.getLsbD m)
  obtain ⟨_, hx, ha⟩ := hr.does (d := 0) (res := [])
    (u := ((List.range 12).filter fun m => mask.getLsbD m).foldl (fun s m => s.writeActiveMax m (activeMaxOf v)) s.begun)
    (rfl : execSetProboscis h mask v s = s.command h _ _)
    ((if_neg (Classical.not_not.mpr (Nat.div_eq_of_lt hm))).trans (if_neg fun hc => h16 hc.1))
    ⟨congrArg Ctl.inProgress h1, (congrArg Ctl.completed h1 :), h2⟩
  refine ⟨_, hx, ha, fun m h12 hb hn => ?_⟩
  have hf := State.foldl_writeActiveMax (activeMaxOf v) m ((List.range 12).filter fun m => mask.getLsbD m) s.begun hn
    (.inl (List.mem_filter.mpr ⟨List.mem_range.mpr h12, hb⟩))
  rw [activeMaxOf_idem] at hf
  exact hf

theorem exec_domain {s : State} {h : CmdHdr} (hr : s.runs h 0x0703) {cd level : Nat} (on : Bool) (hc : cd < 512) (hl : level ≤ 1) :
    ((s.cluster cd).fenced = true → ∃ t, exec (.domain h cd level on) s = .next t ∧ s.answered t h 0x0703 stDenied false 0 []) ∧
    ((s.cluster cd).fenced = false → (s.cluster cd).dom ≠ .fenced → (s.cluster cd).wave.isSome = true → on = false →
      ∃ t, exec (.domain h cd level on) s = .next t ∧ t.clusters = s.clusters ∧
        s.answered t h 0x0703 stGateBusy false 0 (leBytes 1 (s.cluster cd).dom.code)) ∧
    ((s.cluster cd).fenced = false → (s.cluster cd).dom = .off → level = 1 → on = true → ∃ t, exec (.domain h cd level on) s = .next t ∧
      (t.cluster cd).dom = .waitBudget ∧ s.answered t h 0x0703 stOk true 0 (leBytes 1 (t.cluster cd).dom.code)) := by
  have hin : ¬(512 ≤ cd ∨ 1 < level) := not_or.mpr ⟨Nat.not_le.mpr hc, Nat.not_lt.mpr hl⟩
  refine ⟨fun hf => ?_, fun hf hd hw hon => ?_, fun hf hd h1 hon => ?_⟩
  · exact hr.refuses (rfl : execDomain h cd level on s = s.command h _ _) ((if_neg hin).trans (if_pos (Or.inr hf)))
  · have hbusy : (if level = 0 then s.begun.gateCmd cd on else s.begun.domainCmd cd on) = (s.begun, stGateBusy, false, 0) := by
      subst hon
      have hw' : (s.begun.cluster cd).wave.isSome = true := hw
      split
      · simp [State.gateCmd, hw']
      · simp [State.domainCmd, hw']
    obtain ⟨_, hx, ha⟩ := hr.replies (u := s.begun) (st := stGateBusy) (eff := false) (d := 0)
      (res := leBytes 1 (s.cluster cd).dom.code) (rfl : execDomain h cd level on s = s.command h _ _)
      ((if_neg hin).trans ((if_neg (not_or.mpr ⟨hd, by rw [show (s.begun.cluster cd).fenced = false from hf]; decide⟩)).trans (by
        rw [hbusy]
        rfl))) (.begun s)
    exact ⟨_, hx, rfl, ha⟩
  · subst h1 hon
    have hpow : s.begun.domainCmd cd true = (s.begun.modCluster cd fun k => { k with dom := .waitBudget }, stOk, true, 0) := by
      unfold State.domainCmd
      dsimp only
      rw [show (s.begun.cluster cd).dom = .off from hd]
      rfl
    have hdom : ((s.begun.modCluster cd fun k => { k with dom := .waitBudget }).cluster cd).dom = .waitBudget :=
      congrArg Cluster.dom (State.modCluster_cluster ..)
    obtain ⟨_, hx, ha⟩ := hr.replies (u := s.begun.modCluster cd fun k => { k with dom := .waitBudget }) (st := stOk) (eff := true) (d := 0)
      (res := leBytes 1 DState.waitBudget.code) (rfl : execDomain h cd 1 true s = s.command h _ _)
      ((if_neg hin).trans ((if_neg (not_or.mpr ⟨by rw [show (s.begun.cluster cd).dom = .off from hd]; decide,
        by rw [show (s.begun.cluster cd).fenced = false from hf]; decide⟩)).trans (by
        rw [if_neg (by decide), hpow]
        exact congrArg (fun d : DState => State.respond _ h 0x0703 stOk true 0 (leBytes 1 d.code)) hdom))) ⟨rfl, rfl, rfl⟩
    refine ⟨_, hx, hdom, ?_⟩
    exact (congrArg (fun d : DState => s.answered _ h 0x0703 stOk true 0 (leBytes 1 d.code)) hdom).mpr ha

/-- The results of GET_POWER, R520. -/
def State.powerBytes (s : State) : List Byte :=
  let ks := (List.range 512).map s.cluster
  leBytes 4 (s.pwr.mean10 * 1000) ++ leBytes 2 s.pwr.feedA.mv ++ leBytes 2 s.pwr.feedB.mv ++
    leBytes 2 (Config.freeNat s.free) ++ leBytes 2 s.pwr.vpkgA ++ leBytes 4 s.pwr.holdupUf ++ leBytes 8 (s.powerReg 8) ++
    leBytes 8 (s.powerReg 0) ++ (List.range 6).flatMap (fun n => leBytes 2 (ks.filter fun k => k.dom.code == n).length) ++
    [6, 5, 4].flatMap (fun n => leBytes 2 (ks.filter fun k => k.dom != .fenced && k.working == n).length) ++ leBytes 2 0 ++
    leBytes 4 s.pwr.switchOvers ++ leBytes 8 s.pwr.lastPhaseFail ++ List.replicate 160 0

theorem State.powerBytes_take (s : State) : s.powerBytes.take 4 = leBytes 4 (s.pwr.mean10 * 1000) := by
  unfold State.powerBytes
  simp only [List.append_assoc]
  exact List.take_left' (leBytes_length _ _)

theorem State.powerBytes_length (s : State) : s.powerBytes.length = 224 := by
  unfold State.powerBytes
  simp only [List.length_append, List.length_flatMap, leBytes_length, List.length_replicate, List.map_const', List.length_range,
    List.length_cons, List.length_nil, List.sum_replicate_nat]

theorem exec_getPower {s : State} {h : CmdHdr} (hr : s.runs h 0x0704) :
    ∃ t r, exec (.getPower h) s = .next t ∧ s.answered t h 0x0704 stOk true 0 r ∧ r.take 4 = leBytes 4 (s.pwr.mean10 * 1000) ∧
      r.length = 224 := by
  have he : execGetPower h s = s.command h 0x0704 fun s => s.draw.done h 0x0704 s.powerBytes := rfl
  obtain ⟨_, hx, ha⟩ := hr.does (u := s.begun.draw) (d := 0) (res := s.begun.powerBytes) he rfl ⟨rfl, rfl, rfl⟩
  exact ⟨_, _, hx, ha, s.begun.powerBytes_take, s.begun.powerBytes_length⟩

theorem exec_getThermal {s : State} {h : CmdHdr} (hr : s.runs h 0x0801) {mask : Word} (hm : bits mask.toNat 31 29 = 0) :
    ∃ t r, exec (.getThermal h mask) s = .next t ∧
      s.answered t h 0x0801 stOk true
        (BitVec.ofNat 32 (((List.range 160).filter fun ch => mask.getLsbD (chanZone ch)).take 56).length) r ∧
      r.length = 4 * (((List.range 160).filter fun ch => mask.getLsbD (chanZone ch)).take 56).length := by
  generalize hg : ((List.range 160).filter fun ch => mask.getLsbD (chanZone ch)).take 56 = chs
  obtain ⟨_, hx, ha⟩ := hr.does (u := s.begun) (d := BitVec.ofNat 32 chs.length) (res := chs.flatMap fun ch =>
      leBytes 4 (pack [(ofInt 16 (s.heat.used ch), 16), (thermalFlags (s.chanReg ch), 8), (ch, 0)]))
    (rfl : execGetThermal h mask s = s.command h _ _) ((if_neg (Classical.not_not.mpr hm)).trans (by rw [hg]; rfl)) (.begun s)
  refine ⟨_, _, hx, ha, ?_⟩
  simp only [List.length_flatMap, leBytes_length, List.map_const', List.sum_replicate_nat, Nat.mul_comm 4]

/-- The thermal resistance of a stack as GET_RTH answers it, R542. -/
def rthBytes (r : Rth) : List Byte :=
  leBytes 2 r.count ++ leBytes 2 (r.history.headD 0) ++ leBytes 2 r.baseline ++ leBytes 2 r.median ++
    leBytes 2 r.lifeMin ++ leBytes 2 r.lifeMax ++ leBytes 4 r.hours ++ leBytes 2 (ofInt 16 r.inlet) ++ leBytes 2 r.stepW ++
    List.replicate 12 0 ++ (List.range 64).flatMap fun i => leBytes 2 (r.history.getD i 0)

theorem rthBytes_take (r : Rth) : (rthBytes r).take 4 = leBytes 2 r.count ++ leBytes 2 (r.history.headD 0) := by
  have hl : (leBytes 2 r.count ++ leBytes 2 (r.history.headD 0)).length = 4 := by simp
  unfold rthBytes
  rw [List.append_assoc, List.append_assoc, List.append_assoc, List.append_assoc, List.append_assoc, List.append_assoc,
    List.append_assoc, List.append_assoc, List.append_assoc, ← List.append_assoc]
  exact List.take_left' hl

theorem exec_getRth {s : State} {h : CmdHdr} (hr : s.runs h 0x0802) (n : Nat) :
    (4 ≤ n → ∃ t, exec (.getRth h n) s = .next t ∧ s.answered t h 0x0802 stBadArg false 0 []) ∧
    (n < 4 → ∃ t r, exec (.getRth h n) s = .next t ∧ s.answered t h 0x0802 stOk true 0 r ∧
      r.take 4 = leBytes 2 (lookD s.heat.rth n {}).count ++ leBytes 2 ((lookD s.heat.rth n {}).history.headD 0)) := by
  refine ⟨fun hn => hr.refuses (rfl : execGetRth h n s = s.command h _ _) (if_pos hn), fun hn => ?_⟩
  have he : execGetRth h n s = s.command h 0x0802 fun s =>
    if 4 ≤ n then s.refuse h 0x0802 stBadArg else s.done h 0x0802 (rthBytes (lookD s.heat.rth n {})) := rfl
  obtain ⟨_, hx, ha⟩ := hr.does (u := s.begun) (d := 0) (res := rthBytes (lookD s.heat.rth n {})) he (if_neg (Nat.not_le.mpr hn)) (.begun s)
  exact ⟨_, _, hx, ha, rthBytes_take _⟩

end Sys2Proof.Machine
end

