-- ==== Sys2Proof/Proofs/Diagnosis.lean ====
section
/-!
The mailbox commands of diagnosis: the error log into the object buffer (R556), and injected errors (R441).
-/

namespace Sys2Proof.Machine

/-! ### The error log, R551, R556 -/

theorem ErrRec.bytes_length (r : ErrRec) : r.bytes.length = 64 := by
  unfold ErrRec.bytes
  simp only [List.length_append, leBytes_length]

theorem ErrRec.flatMap_bytes_length (l : List ErrRec) : (l.flatMap ErrRec.bytes).length = 64 * l.length := by
  simp only [List.length_flatMap, ErrRec.bytes_length, List.map_const', List.sum_replicate_nat, Nat.mul_comm 64]

theorem Mem.read_write_ne (m : Mem) {a b n : Nat} (bs : List Byte) (h : a + n ≤ b ∨ b + bs.length ≤ a) :
    (m.write b bs).read a n = m.read a n := by
  unfold Mem.read
  refine List.map_congr_left fun i hi => ?_
  have hin := List.mem_range.mp hi
  exact Mem.byte_write_ne m b bs (by omega)

/-- Bytes written to the object buffer, and the buffer handed back (R447). -/
def State.objectOut (s : State) (b : BufRef) (bs : List Byte) : State :=
  (s.onMem fun m => m.write (objectBuffer + 64) bs).onMem fun m =>
    (m.write (descOf b + 0x1C) (leBytes 4 bs.length ++ leBytes 1 stOk)).write (descOf b) (leBytes 8 ownHost)

theorem State.objectOut_read {s : State} (hw : s.MemOk) {b : BufRef} (hb : b.window = 255) (bs : List Byte) :
    (s.objectOut b bs).mem.read (objectBuffer + 64) bs.length = bs := by
  have hd : descOf b = objectBuffer := if_pos hb
  show (((s.mem.write (objectBuffer + 64) bs).write (descOf b + 0x1C) _).write (descOf b) _).read (objectBuffer + 64) bs.length = bs
  rw [hd, Mem.read_write_ne _ _ (.inr (by rw [leBytes_length]; omega)), Mem.read_write_ne _ _ (.inr (by
    rw [List.length_append, leBytes_length, leBytes_length]
    omega))]
  exact Mem.read_write hw _ _

theorem State.outBuf_object {s : State} {h : CmdHdr} {b : BufRef} {bs : List Byte} (hp : h.path = .ring) (hb : b.window = 255)
    (hok : s.bufRefusal h.path b 1 = none) (hl : bs.length ≤ s.bufLen h.path b) (op : Nat) (d : Word) (res : List Byte) :
    s.outBuf h op b bs d res = (s.objectOut b bs).respond h op stOk true d res := by
  unfold State.outBuf
  rw [hok]
  dsimp only
  rw [if_neg (Nat.not_lt.mpr hl), if_pos hb, hp, if_neg (by decide)]
  unfold State.handBack
  rw [if_neg fun hc => absurd hc.2 (by decide)]
  rfl

/-- The records that a reading of the log answers, R556. -/
def State.logRead (s : State) (h : CmdHdr) (b : BufRef) (first count : Nat) : List ErrRec :=
  (s.log.from_ (s.log.start first) count).take (s.bufLen h.path b / 64)

theorem exec_getErrorLog {s : State} {h : CmdHdr} (hr : s.runs h 0x0B01) (hp : h.path = .ring) (first count : Nat) {b : BufRef}
    (hb : b.window = 255) (hok : s.bufRefusal h.path b 1 = none) (hm : s.MemOk) :
    ∃ t, exec (.getErrorLog h first count b) s = .next t ∧
      t.mem.read (objectBuffer + 64) (64 * (s.logRead h b first count).length) = (s.logRead h b first count).flatMap ErrRec.bytes ∧
      s.answered t h 0x0B01 stOk true (BitVec.ofNat 32 (s.log.start first)) (leBytes 4 (s.logRead h b first count).length) := by
  have he : execGetErrorLog h first count b s = s.command h 0x0B01 fun s =>
    s.outBuf h 0x0B01 b ((s.logRead h b first count).flatMap ErrRec.bytes) (BitVec.ofNat 32 (s.log.start first))
      (leBytes 4 (s.logRead h b first count).length) := rfl
  have hrs : s.begun.logRead h b first count = s.logRead h b first count := rfl
  have hl : ((s.logRead h b first count).flatMap ErrRec.bytes).length ≤ s.bufLen h.path b := by
    rw [ErrRec.flatMap_bytes_length]
    have : (s.logRead h b first count).length ≤ s.bufLen h.path b / 64 := List.length_take_le ..
    omega
  rw [← ErrRec.flatMap_bytes_length]
  obtain ⟨rs, hg⟩ : ∃ rs, s.logRead h b first count = rs := ⟨_, rfl⟩
  rw [hg] at hrs hl ⊢
  obtain ⟨_, hx, ha⟩ := hr.replies (u := s.begun.objectOut b (rs.flatMap ErrRec.bytes)) he (by
    rw [hrs]
    exact State.outBuf_object (s := s.begun) hp hb hok hl _ _ _) ⟨rfl, rfl, rfl⟩
  refine ⟨_, hx, ?_, ha⟩
  have hread := State.objectOut_read (s := s.begun) hm hb (rs.flatMap ErrRec.bytes)
  generalize s.begun.objectOut b (rs.flatMap ErrRec.bytes) = u at hread ⊢
  exact hread

/-! ### Injected errors, R441 -/

theorem place_slice {c off : Nat} (hc : c < 32768) (ho : off < sliceStride) : place (sliceAddr c + off) = .slice c off := by
  have h1 : sliceAddr c + off < 32768 * sliceStride := by
    unfold sliceAddr sliceStride at *
    omega
  unfold place
  rw [if_pos h1]
  unfold sliceAddr sliceStride at *
  congr 1 <;> omega

theorem place_scratch {c off : Nat} (hc : c < 32768) (ho : off < scratchSize) : place (scratchAddr c + off) = .scratch c off := by
  unfold scratchSize at ho
  unfold place scratchAddr sliceStride outerBase outerSize scratchBase scratchSize
  rw [if_neg (by omega), if_neg (by omega), if_pos (by omega)]
  exact congr (congrArg Place.scratch (by omega)) (by omega)

/-- Symbol errors entered at a codeword, from a symbol on. -/
def Mem.withFlips (m : Mem) (unit first n : Nat) : Mem :=
  { m with flips := (List.range n).foldl (fun t i => put t (128 * unit + first + i) 1#8) m.flips }

theorem Mem.withFlips_errsOf (m : Mem) {unit first : Nat} (n : Nat) (hf : first + n < 128) :
    (m.withFlips unit first (n + 1)).errsOf unit ≠ [] := by
  have hmem : (128 * unit + first + n, 1#8) ∈ (m.withFlips unit first (n + 1)).flips := by
    unfold Mem.withFlips
    dsimp only
    rw [List.range_succ, List.foldl_append]
    exact mem_of_look (look_put_same ..)
  have hkeep : (128 * unit + first + n, 1#8) ∈ (m.withFlips unit first (n + 1)).flips.filter (fun p => p.1 / 128 == unit) :=
    List.mem_filter.mpr ⟨hmem, beq_iff_eq.mpr (by show (128 * unit + first + n) / 128 = unit; omega)⟩
  exact List.ne_nil_of_mem (List.mem_map_of_mem hkeep)

/-- INJECT_ERROR of a unit with a check path. -/
theorem exec_injectError {s t : State} {h : CmdHdr} (hr : s.runs h 0x0B02) {ut ui cls k : Nat} (hk : k < 256) (hc : cls < 5)
    (hi : s.begun.inject ut ui cls k = some t) (ht : s.InHand t) :
    ∃ w, exec (.injectError h ut ui cls k) s = .next ((t.replied h 0x0B02 stOk true 0 []).stampWall s.log.next s.log.open_.length w) ∧
      s.answered ((t.replied h 0x0B02 stOk true 0 []).stampWall s.log.next s.log.open_.length w) h 0x0B02 stOk true 0 [] := by
  refine hr.does (rfl : execInjectError h ut ui cls k s = s.command h _ _) ?_ ht
  rw [if_pos ⟨hk, hc⟩, hi]

theorem exec_injectError_bad {s : State} {h : CmdHdr} (hr : s.runs h 0x0B02) {k cls : Nat} (hb : 256 ≤ k ∨ 5 ≤ cls) (ut ui : Nat) :
    ∃ t, exec (.injectError h ut ui cls k) s = .next t ∧ s.answered t h 0x0B02 stBadArg false 0 [] := by
  refine hr.refuses (rfl : execInjectError h ut ui cls k s = s.command h _ _) ?_
  rw [if_neg fun hc => by omega]

theorem exec_injectError_slice {s : State} {h : CmdHdr} (hr : s.runs h 0x0B02) {c k cls : Nat} (hc : c < 32768) (hk : k < 256)
    (hcls : cls < 5) : ∃ t a, exec (.injectError h utSlice c cls k) s = .next t ∧ s.answered t h 0x0B02 stOk true 0 [] ∧
      (∃ off, place a = .slice c off) ∧ a % 32 = 0 ∧ t.mem.errsOf a ≠ [] ∧ t.mem.cells = s.mem.cells := by
  obtain ⟨a, ha⟩ : ∃ a, a = sliceAddr c + Config.freeNat s.free % (slicePopulated / 32) * 32 := ⟨_, rfl⟩
  have hoff : Config.freeNat s.free % (slicePopulated / 32) * 32 < sliceStride := by
    have := Nat.mod_lt (Config.freeNat s.free) (show slicePopulated / 32 > 0 by decide)
    unfold sliceStride slicePopulated at *
    omega
  obtain ⟨w, hx, hans⟩ := exec_injectError hr (ut := utSlice) (ui := c) hk hcls
    (t := s.begun.draw.onMem fun m => m.withFlips a (if k % 2 = 1 then 36 else 0) (if cls = 0 then 1 else 3)) (by
      unfold State.inject
      rw [if_neg fun h => absurd h.1 (by decide), if_neg fun h => absurd h.1 (by decide), if_pos ⟨rfl, hc⟩, ha]
      rfl) ⟨rfl, rfl, rfl⟩
  refine ⟨_, a, hx, hans, ⟨_, (congrArg place ha).trans (place_slice hc hoff)⟩, ?_, ?_, rfl⟩
  · rw [ha]
    unfold sliceAddr sliceStride
    omega
  · have hfirst : (if k % 2 = 1 then 36 else 0) ≤ 36 := by split <;> omega
    show (s.mem.withFlips a (if k % 2 = 1 then 36 else 0) (if cls = 0 then 1 else 3)).errsOf a ≠ []
    generalize (if k % 2 = 1 then 36 else 0) = first at hfirst ⊢
    split
    · exact s.mem.withFlips_errsOf (unit := a) (first := first) 0 (by omega)
    · exact s.mem.withFlips_errsOf (unit := a) (first := first) 2 (by omega)

/-- A logged event leaves the commands in hand as they are. -/
theorem State.InHand.logEvent {s u : State} (h : s.InHand u) (e : Ev) (i : EvInfo) : s.InHand (u.logEvent e i) := by
  have he := ((State.Accessed.refl u).logEvent e i).eq
  exact ⟨(congrArg (fun t : State => t.ctl.inProgress) he).trans h.inProgress,
    (congrArg (fun t : State => t.ctl.completed) he).trans h.completed, (congrArg State.now he).trans h.now⟩

/-- An odd kind marks an accumulator entry of a core. -/
theorem exec_injectError_acc {s : State} {h : CmdHdr} (hr : s.runs h 0x0B02) {c k cls : Nat} (hc : c < 32768) (hk : k < 256)
    (hodd : k % 2 = 1) (h0 : 0 < cls) (hcls : cls < 5) : ∃ t i, exec (.injectError h utCore c cls k) s = .next t ∧
      s.answered t h 0x0B02 stOk true 0 [] ∧ i < 256 ∧ ((t.core c).acc i).poison = true ∧ t.mem = s.mem := by
  have hdraw : s.InHand s.begun.draw := ⟨rfl, rfl, rfl⟩
  obtain ⟨i, hi⟩ : ∃ i, i = Config.freeNat s.free % 256 := ⟨_, rfl⟩
  obtain ⟨u, hu⟩ : ∃ u, u = s.begun.draw.modCore c fun k => k.setAcc i { k.acc i with poison := true } := ⟨_, rfl⟩
  have hcore : (u.core c).acc i = { (s.core c).acc i with poison := true } := by
    rw [hu, State.modCore_core]
    exact lookD_put_same ..
  have hin : s.InHand u := hu ▸ ⟨rfl, rfl, rfl⟩
  obtain ⟨w, hx, hans⟩ := exec_injectError hr (ut := utCore) (ui := c) hk hcls (t := u.logEvent .scratchUe { ut := utCore, ui := c }) (by
      unfold State.inject
      rw [if_pos ⟨rfl, hc, hodd⟩, if_neg (Nat.pos_iff_ne_zero.mp h0), hu, hi]
      rfl) (hin.logEvent ..)
  refine ⟨_, i, hx, hans, hi ▸ Nat.mod_lt _ (by decide), ?_, ?_⟩
  · show (((u.logEvent .scratchUe { ut := utCore, ui := c }).core c).acc i).poison = true
    rw [State.core, State.logEvent_cores]
    exact congrArg AccEntry.poison hcore
  · show (u.logEvent .scratchUe { ut := utCore, ui := c }).mem = s.mem
    rw [State.logEvent_mem, hu]
    rfl

/-- An even kind marks a row of a core's scratchpad. -/
theorem exec_injectError_row {s : State} {h : CmdHdr} (hr : s.runs h 0x0B02) {c k cls : Nat} (hc : c < 32768) (hk : k < 256)
    (heven : k % 2 = 0) (h0 : 0 < cls) (hcls : cls < 5) : ∃ t row, exec (.injectError h utCore c cls k) s = .next t ∧
      s.answered t h 0x0B02 stOk true 0 [] ∧ place row = .scratch c (row - scratchAddr c) ∧ row % 32 = 0 ∧ t.mem.marked row = true ∧
      t.mem.cells = s.mem.cells := by
  obtain ⟨off, ho⟩ : ∃ off, off = Config.freeNat s.free % (scratchSize / 32) * 32 := ⟨_, rfl⟩
  have hoff : off < scratchSize := by
    have := Nat.mod_lt (Config.freeNat s.free) (show scratchSize / 32 > 0 by decide)
    unfold scratchSize at *
    omega
  obtain ⟨u, hu⟩ : ∃ u, u = s.begun.draw.onMem fun m => m.setMark (scratchAddr c + off) true := ⟨_, rfl⟩
  have hin : s.InHand u := hu ▸ ⟨rfl, rfl, rfl⟩
  obtain ⟨w, hx, hans⟩ := exec_injectError hr (ut := utCore) (ui := c) hk hcls
    (t := u.logEvent .scratchUe { ut := utCore, ui := c, address := scratchAddr c + off }) (by
      unfold State.inject
      rw [if_neg fun h => absurd h.2.2 (by omega), if_pos ⟨rfl, hc⟩]
      dsimp only
      rw [if_neg (Nat.pos_iff_ne_zero.mp h0), hu, ho]
      rfl) (hin.logEvent ..)
  have hmem : (u.logEvent .scratchUe { ut := utCore, ui := c, address := scratchAddr c + off }).mem = s.mem.setMark (scratchAddr c + off) true := by
    rw [State.logEvent_mem, hu]
    rfl
  refine ⟨_, scratchAddr c + off, hx, hans, ?_, ?_, ?_, (congrArg Mem.cells hmem :)⟩
  · rw [place_scratch hc hoff, Nat.add_sub_cancel_left]
  · rw [ho]
    unfold scratchAddr scratchBase scratchSize
    omega
  · refine (congrArg (fun m : Mem => m.marked (scratchAddr c + off)) hmem).trans ?_
    exact List.contains_iff_mem.mpr ((mem_insertSet ..).mpr (.inl rfl))

end Sys2Proof.Machine
end

