-- ==== Sys2Proof/Proofs/DeviceCommands.lean ====
section
/-!
The mailbox commands on links, routes, groups and ports (R373, R374, R375, R387, R397), the time-out of a command (R437), and with them
the device commands.
-/

namespace Sys2Proof.Machine

/-! ### Links, R373, R374 -/

theorem exec_link_width {s : State} {h : CmdHdr} (hr : s.runs h 0x0C01) {l w : Nat} (hl : l < 8) (hw : w < 16)
    (hd : (s.linkSt l).state ≠ .draining) : ∃ t, exec (.link h l (s.linkSt l).enable w false) s = .next t ∧
      t.linkSt l = { (s.linkSt l) with widthMax := w } ∧ s.answered t h 0x0C01 stOk true 0 (leBytes 1 (s.linkSt l).state.code) := by
  have hlink : (s.begun.modLink l fun k => { k with widthMax := w % 16 }).linkSt l = { (s.linkSt l) with widthMax := w } := by
    rw [State.modLink_linkSt, Nat.mod_eq_of_lt hw]
    rfl
  obtain ⟨_, hx, ha⟩ := hr.replies (u := s.begun.modLink l fun k => { k with widthMax := w % 16 }) (st := stOk) (eff := true) (d := 0)
    (res := leBytes 1 (s.linkSt l).state.code) (rfl : execLink h l (s.linkSt l).enable w false s = s.command h _ _) (by
      rw [if_neg (not_or.mpr ⟨Nat.not_le.mpr hl, Nat.not_le.mpr hw⟩)]
      dsimp only
      rw [if_neg fun hc => absurd hc.1 (by decide), if_pos ⟨rfl, hd⟩]
      unfold State.enableAnswer
      rw [show ((s.begun.linkSt l).state == LState.draining) = false from beq_false_of_ne hd, Bool.false_and, Bool.false_and,
        if_neg Bool.false_ne_true, if_neg Bool.false_ne_true]
      rw [hlink]) ⟨rfl, rfl, rfl⟩
  exact ⟨_, hx, hlink, ha⟩

/-- Disabling an UP link drains it. -/
theorem State.setLink_drains {s : State} {l : Nat} (hu : (s.linkSt l).state = .up) :
    s.setLink l false = (s.alert alLink).modLink l fun k => { k with enable := false, state := .draining } := by
  show s.disableLink l = _
  unfold State.disableLink
  dsimp only
  rw [hu]

theorem exec_link_disable {s : State} {h : CmdHdr} (hr : s.runs h 0x0C01) {l w : Nat} (hl : l < 8) (hw : w < 16)
    (hu : (s.linkSt l).state = .up) (he : (s.linkSt l).enable = true) : ∃ t, exec (.link h l false w false) s = .next t ∧
      (t.linkSt l).state = .draining ∧ s.answered t h 0x0C01 stOk true 0 (leBytes 1 LState.draining.code) := by
  have hup : ((s.begun.modLink l fun k => { k with widthMax := w % 16 }).linkSt l).state = .up := by
    rw [State.modLink_linkSt]
    exact hu
  have hset := State.setLink_drains hup
  have hdrain : (((s.begun.modLink l fun k => { k with widthMax := w % 16 }).setLink l false).linkSt l).state = .draining := by
    rw [hset, State.modLink_linkSt]
  obtain ⟨_, hx, ha⟩ := hr.replies (u := (s.begun.modLink l fun k => { k with widthMax := w % 16 }).setLink l false) (st := stOk)
    (eff := true) (d := 0) (res := leBytes 1 LState.draining.code) (rfl : execLink h l false w false s = s.command h _ _) (by
      rw [if_neg (not_or.mpr ⟨Nat.not_le.mpr hl, Nat.not_le.mpr hw⟩)]
      dsimp only
      rw [if_neg fun hc => absurd hc.1 (by decide), if_neg fun hc => Bool.false_ne_true (hc.1.trans he)]
      unfold State.enableAnswer
      rw [show ((s.begun.linkSt l).state == LState.draining) = false from beq_false_of_ne fun hc => by
        cases hu.symm.trans hc]
      exact congrArg (fun k : LState => State.respond _ h 0x0C01 stOk true 0 (leBytes 1 k.code)) hdrain)
    (by rw [hset]; exact ⟨rfl, rfl, rfl⟩)
  exact ⟨_, hx, hdrain, ha⟩

theorem exec_setLysId_answers {s : State} {h : CmdHdr} (hr : s.runs h 0x0C02) (sys : Word) {d : Nat} (torus : Bool) (hd : d < 32768) :
    (s.linksIdle = true → ∃ t, exec (.setLysId h sys d torus) s = .next t ∧ t.lys.systemId = sys ∧ t.lys.deviceId = d ∧
      t.lys.torus = torus ∧ s.answered t h 0x0C02 stOk true 0 []) ∧
    (s.linksIdle = false → ∃ t, exec (.setLysId h sys d torus) s = .next t ∧ t.lys = s.lys ∧ s.answered t h 0x0C02 stBusy false 0 []) := by
  refine ⟨fun hi => ?_, fun hi => ?_⟩
  · have hw := State.writeLysId_idle (s := s.begun) hi (pack [(sys.toNat, 16), (bitOf torus, 15), (d, 0)])
    have hy := Lysdel.withId_pack s.lys sys torus hd
    obtain ⟨_, hx, ha⟩ := hr.does (u := s.begun.onLys (·.withId (pack [(sys.toNat, 16), (bitOf torus, 15), (d, 0)]))) (d := 0) (res := [])
      (rfl : execSetLysId h sys d torus s = s.command h _ _)
      ((if_neg (Nat.not_le.mpr hd)).trans ((if_pos hi).trans (congrArg (fun u : State => u.done h 0x0C02) hw))) ⟨rfl, rfl, rfl⟩
    exact ⟨_, hx, (congrArg Lysdel.systemId hy :), (congrArg Lysdel.deviceId hy :), (congrArg Lysdel.torus hy :), ha⟩
  · have hw := State.writeLysId_busy (s := s.begun) hi (pack [(sys.toNat, 16), (bitOf torus, 15), (d, 0)])
    obtain ⟨_, hx, ha⟩ := hr.replies (u := s.begun.logEvent .lysIdBusy {}) (st := stBusy) (eff := false) (d := 0) (res := [])
      (rfl : execSetLysId h sys d torus s = s.command h _ _)
      ((if_neg (Nat.not_le.mpr hd)).trans ((if_neg (Bool.eq_false_iff.mp hi)).trans
        (congrArg (fun u : State => u.refuse h 0x0C02 stBusy) hw))) ((State.InHand.begun s).logEvent ..)
    exact ⟨_, hx, s.begun.logEvent_lys .lysIdBusy {}, ha⟩

/-! ### Routes and groups, R375, R387 -/

/-- Handing a buffer back leaves the commands in hand as they are. -/
theorem State.handBack_inHand {s u : State} (hu : s.InHand u) (p : Path) (b : BufRef) (n st : Nat) :
    s.InHand (u.handBack p b n st) ∧ (u.handBack p b n st).lys = u.lys ∧ (u.handBack p b n st).work = u.work ∧
      (u.handBack p b n st).svc = u.svc := by
  unfold State.handBack
  dsimp only
  split
  · exact ⟨⟨hu.inProgress, hu.completed, hu.now⟩, rfl, rfl, rfl⟩
  · exact ⟨⟨hu.inProgress, hu.completed, hu.now⟩, rfl, rfl, rfl⟩

/-- A command that takes its buffer, with its effect `t` and the answer that goes with it. -/
theorem State.runs.takes {s t : State} {h : CmdHdr} {op st : Nat} {d : Word} {res : List Byte} {b : BufRef} {go : List Byte → State → State × Nat × Word × List Byte}
    {body : State → State} {x : Host.Outcome State Fault Refusal} (hr : s.runs h op) (he : x = s.command h op body)
    (hb : body s.begun = s.begun.withBuf h op b go) (hok : s.bufRefusal h.path b 0 = none)
    (hg : go (s.bufIn h.path b) s.begun = (t, st, d, res)) (ht : s.InHand t) :
    ∃ u, x = .next u ∧ u.lys = t.lys ∧ u.work = t.work ∧ u.svc = t.svc ∧ s.answered u h op st (st == stOk) d res := by
  obtain ⟨h1, h2, h3, h4⟩ := State.handBack_inHand ht h.path b (s.bufIn h.path b).length st
  obtain ⟨_, hx, ha⟩ := hr.replies (u := t.handBack h.path b (s.bufIn h.path b).length st) (st := st) (eff := st == stOk) (d := d)
    (res := res) he (hb.trans (by
      unfold State.withBuf
      rw [show s.begun.bufRefusal h.path b 0 = none from hok]
      dsimp only
      rw [show s.begun.bufIn h.path b = s.bufIn h.path b from rfl, hg])) h1
  exact ⟨_, hx, h2, h3, h4, ha⟩

/-- The routes of a list of ports, one byte for each Dest. -/
def routesOf (bs : List Byte) : Tab Byte := (bs.mapIdx fun i v => (i, v)).filter fun p => p.2 != 0

/-- The routes from a Dest on. -/
theorem look_routes_lt (bs : List Byte) {k i : Nat} (h : i < k) :
    look ((bs.mapIdx fun j v => (j + k, v)).filter fun p => p.2 != 0) i = none := by
  refine look_eq_none_of_notMem fun hm => ?_
  obtain ⟨p, hp, rfl⟩ := List.mem_map.mp hm
  obtain ⟨j, hj, rfl⟩ := List.mem_mapIdx.mp (List.mem_filter.mp hp).1
  dsimp only at h
  omega

theorem look_routes_from (bs : List Byte) (k i : Nat) :
    (look ((bs.mapIdx fun j v => (j + k, v)).filter fun p => p.2 != 0) (i + k)).getD 0 = bs.getD i 0 := by
  induction bs generalizing k i with
  | nil => rfl
  | cons v bs ih =>
    have hrest : ((v :: bs).mapIdx fun j v => (j + k, v)) = (k, v) :: bs.mapIdx fun j v => (j + (k + 1), v) := by
      rw [List.mapIdx_cons, Nat.zero_add]
      simp only [Nat.add_assoc, Nat.add_comm 1 k]
    rw [hrest, List.filter_cons]
    cases i with
    | zero =>
      rw [Nat.zero_add]
      by_cases hv : v = 0
      · rw [hv, if_neg (by simp), look_routes_lt bs (Nat.lt_succ_self k)]
        rfl
      · rw [if_pos (bne_iff_ne.mpr hv)]
        exact congrArg (Option.getD · 0) (if_pos rfl)
    | succ i =>
      have hi : i + 1 + k = i + (k + 1) := by omega
      have hskip : look (if ((k, v) : Nat × Byte).2 != 0 then (k, v) :: (bs.mapIdx fun j v => (j + (k + 1), v)).filter fun p => p.2 != 0
          else (bs.mapIdx fun j v => (j + (k + 1), v)).filter fun p => p.2 != 0) (i + (k + 1)) =
          look ((bs.mapIdx fun j v => (j + (k + 1), v)).filter fun p => p.2 != 0) (i + (k + 1)) := by
        split
        · exact if_neg (by omega)
        · rfl
      rw [hi, hskip]
      exact ih (k + 1) i

theorem look_routesOf (bs : List Byte) (i : Nat) : (look (routesOf bs) i).getD 0 = bs.getD i 0 := look_routes_from bs 0 i

theorem exec_writeRoutes {s : State} {h : CmdHdr} (hr : s.runs h 0x0C03) {b : BufRef} (hok : s.bufRefusal h.path b 0 = none)
    (hl : (s.bufIn h.path b).length = 32768) : ∃ t, exec (.writeRoutes h b) s = .next t ∧ s.answered t h 0x0C03 stOk true 0 [] ∧
      ∀ i, i < 32768 → (look t.lys.routes i).getD 0 = (s.bufIn h.path b).getD i 0 := by
  obtain ⟨u, hx, hy, -, -, ha⟩ := hr.takes (t := s.begun.onLys fun y => { y with routes := routesOf (s.bufIn h.path b) })
    (rfl : execWriteRoutes h b s = s.command h _ _) rfl hok (if_neg (Classical.not_not.mpr hl)) ⟨rfl, rfl, rfl⟩
  refine ⟨u, hx, ha, fun i _ => ?_⟩
  rw [hy]
  exact look_routesOf _ i

theorem exec_group {s : State} {h : CmdHdr} (hr : s.runs h 0x0C04) {id : Nat} (b : BufRef)
    (hf : (s.work.colls.any fun c => c.desc.group == id && s.collOpen c) = false) :
    (id < 256 → s.bufRefusal h.path b 0 = none → (s.bufIn h.path b).length = 2 → field (s.bufIn h.path b) 0 2 < 32768 →
      ∃ t, exec (.group h 0 id b) s = .next t ∧ look t.work.groups id = some [field (s.bufIn h.path b) 0 2] ∧
        s.answered t h 0x0C04 stOk true 0 []) ∧
    ((look s.work.groups id).isSome = true → ∃ t, exec (.group h 1 id b) s = .next t ∧ t.work.groups = del s.work.groups id ∧
      s.answered t h 0x0C04 stOk true 0 []) := by
  have hfree : ¬(s.begun.work.colls.any fun c => c.desc.group == id && s.begun.collOpen c) = true := Bool.eq_false_iff.mp hf
  refine ⟨fun hid hok hl hd => ?_, fun hg => ?_⟩
  · obtain ⟨u, hx, -, hw, -, ha⟩ := hr.takes
      (t := s.begun.onWork fun w => { w with groups := put w.groups id [field (s.bufIn h.path b) 0 2] })
      (rfl : execGroup h 0 id b s = s.command h _ _) ((if_neg hfree).trans ((if_neg (by decide)).trans (if_neg (by decide)))) hok (by
        have hids : ((List.range ((s.bufIn h.path b).length / 2)).map fun i => field (s.bufIn h.path b) (2 * i) 2) =
            [field (s.bufIn h.path b) 0 2] := by
          rw [hl]
          rfl
        dsimp only
        rw [hids, if_neg]
        simp [hl, hd, hid]) ⟨rfl, rfl, rfl⟩
    refine ⟨u, hx, ?_, ha⟩
    rw [hw]
    exact look_put_same ..
  · obtain ⟨_, hx, ha⟩ := hr.does (u := s.begun.onWork fun w => { w with groups := del w.groups id }) (d := 0) (res := [])
      (rfl : execGroup h 1 id b s = s.command h _ _) ((if_neg hfree).trans ((if_pos rfl).trans (if_neg (by
        rw [Option.isNone_iff_eq_none]
        exact Option.isSome_iff_ne_none.mp hg)))) ⟨rfl, rfl, rfl⟩
    exact ⟨_, hx, rfl, ha⟩

/-! ### Ports, R397 -/

theorem exec_port_same {s : State} {h : CmdHdr} (hr : s.runs h 0x0C05) {p : Nat} (hp : p < 4) (hd : (s.portSt p).state ≠ .draining)
    (h3 : (s.portSt p).modeSel ≤ 3) :
    ∃ t, exec (.port h p (s.portSt p).enable (s.portSt p).modeSel) s = .next t ∧ t.net = s.net ∧
      s.answered t h 0x0C05 stOk true 0 (leBytes 1 (s.portSt p).state.code) := by
  obtain ⟨_, hx, ha⟩ := hr.replies (u := s.begun) (st := stOk) (eff := true) (d := 0)
    (res := leBytes 1 (s.portSt p).state.code) (rfl : execPort h p (s.portSt p).enable (s.portSt p).modeSel s = s.command h _ _) (by
      rw [if_neg (not_or.mpr ⟨Nat.not_le.mpr hp, Nat.not_lt.mpr h3⟩)]
      dsimp only
      rw [if_pos ⟨rfl, hd⟩, if_pos (show max 1 (s.portSt p).modeSel = max 1 (s.begun.portSt p).modeSel from rfl)]
      unfold State.enableAnswer
      rw [show ((s.begun.portSt p).state == PState.draining) = false from beq_false_of_ne hd]
      rfl) (.begun s)
  exact ⟨_, hx, rfl, ha⟩

theorem exec_port_latch {s : State} {h : CmdHdr} (hr : s.runs h 0x0C05) {p : Nat} (hp : p < 4) (hd : (s.portSt p).state = .draining)
    (hn : (s.portSt p).pendingOn = false) (h3 : (s.portSt p).modeSel ≤ 3) :
    ∃ t, exec (.port h p true (s.portSt p).modeSel) s = .next t ∧ (t.portSt p).pendingOn = true ∧
      s.answered t h 0x0C05 stPendingOn true 0 (leBytes 1 (s.portSt p).state.code) := by
  have hen : s.begun.enablePort p = s.begun.modPort p fun k => { k with enable := true, pendingOn := true } := by
    unfold State.enablePort
    rw [show (s.begun.portSt p).state = .draining from hd]
  have hport : (s.begun.enablePort p).portSt p = { (s.portSt p) with enable := true, pendingOn := true } := by
    rw [hen, State.modPort_portSt]
    rfl
  obtain ⟨_, hx, ha⟩ := hr.replies (u := s.begun.enablePort p) (st := stPendingOn) (eff := true) (d := 0)
    (res := leBytes 1 (s.portSt p).state.code) (rfl : execPort h p true (s.portSt p).modeSel s = s.command h _ _) (by
      rw [if_neg (not_or.mpr ⟨Nat.not_le.mpr hp, Nat.not_lt.mpr h3⟩)]
      dsimp only
      rw [if_neg fun hc => hc.2 hd, if_pos (rfl : true = true),
        if_pos (show max 1 (s.portSt p).modeSel = max 1 (s.begun.portSt p).modeSel from rfl)]
      unfold State.enableAnswer
      rw [show ((s.begun.portSt p).state == PState.draining) = true from beq_iff_eq.mpr hd,
        show (s.begun.portSt p).pendingOn = false from hn, Bool.and_true, if_pos rfl, Bool.not_false]
      rw [hport])
    (by rw [hen]; exact ⟨rfl, rfl, rfl⟩)
  exact ⟨_, hx, congrArg PortSt.pendingOn hport, ha⟩

/-! ### Time-outs, R437 -/

theorem exec_commandTimeout {s : State} {h : CmdHdr} {c : Cmd} (hp : s.ctl.inProgress = [c]) (hh : c.hdr = h) (hd : c.discard = false) :
    (c.started = false → ∃ t, exec (.commandTimeout h false) s = .next t ∧ s.answered t h c.op stTimeout false 0 []) ∧
    (c.started = true → c.op = 0x0102 → ∃ t, exec (.commandTimeout h true) s = .next t ∧ t.fw.resetCmd = none ∧
      s.answered t h c.op stTimeout true 0 []) := by
  have hf : (s.ctl.inProgress.find? fun c => c.hdr = h) = some c := by
    rw [hp]
    exact List.find?_cons_of_pos (decide_eq_true hh)
  refine ⟨fun hs => ?_, fun hs ho => ?_⟩
  · refine ⟨s.respond h c.op stTimeout false 0 [], ?_, State.respond_answered hp hh rfl hd ..⟩
    show execCommandTimeout h false s = _
    have ht : s.timeOut c = (s, false) := by
      unfold State.timeOut
      dsimp only
      rw [hs]
      rfl
    unfold execCommandTimeout
    rw [hf]
    dsimp only
    rw [ht]
    rfl
  · have ht : s.timeOut c = (s.onFw fun f => { f with resetCmd := none }, true) := by
      unfold State.timeOut
      dsimp only
      rw [hs, ho]
      rfl
    have ha := State.respond_answered (s := s.onFw fun f => { f with resetCmd := none }) hp hh rfl hd stTimeout true 0 []
    refine ⟨(s.onFw fun f => { f with resetCmd := none }).respond h c.op stTimeout true 0 [], ?_, ?_, ha⟩
    · show execCommandTimeout h true s = _
      unfold execCommandTimeout
      rw [hf]
      dsimp only
      rw [ht]
      rfl
    · rw [← hh, State.respond_replied (u := s.onFw fun f => { f with resetCmd := none }) hp hd]
      rfl

/-- Settles O51: each command that runs has its effect on the state in which it has started, and is answered there. -/
theorem deviceCommandsAct : Obligations.DeviceCommandsAct := by
  intro h s
  refine ⟨exec_getInfo, exec_computeReset, exec_deviceReset, fun hr key v hn => ⟨exec_config_read hr hn v, exec_config_write hr hn⟩,
    fun hr w p g a va len rk hw hp hg => ?_, fun hr i base len rd wr d hi hi' => exec_region hr base len rd wr d hi hi',
    fun hr hn => ⟨fun c page i => exec_retire_slice hr hn, fun m page i => exec_retire_outer hr hn,
      fun tier u page bank ht => exec_retire_bad hr ht u page bank⟩,
    fun hr u off v => exec_unitRegs_read hr v, fun hr i base size rd wr => exec_exportWindow hr rd wr, exec_setPowerCap,
    fun hr mask v => exec_setProboscis hr, fun hr cd level on => exec_domain hr on, exec_getPower, fun hr mask => exec_getThermal hr,
    exec_getRth, fun hr hp first count d hok hm => exec_getErrorLog hr hp first count rfl hok hm,
    fun hr => ⟨fun c k cls => exec_injectError_slice hr, fun c k cls => exec_injectError_acc hr,
      fun c k cls => exec_injectError_row hr, fun ut ui k cls hb => exec_injectError_bad hr hb ut ui⟩,
    fun hr l w hl hw => ⟨exec_link_width hr hl hw, exec_link_disable hr hl hw⟩,
    fun hr sys d torus => exec_setLysId_answers hr sys torus, fun hr b => exec_writeRoutes hr, fun hr id b => exec_group hr b,
    fun hr p hp => ⟨fun hd _ => exec_port_same hr hp hd, fun hd hn _ => exec_port_latch hr hp hd hn⟩, fun c => exec_commandTimeout⟩
  obtain ⟨hbusy, hclose⟩ := exec_window hr a va len rk hw hp hg
  exact ⟨hbusy, fun q => exec_window_open hr a va len rk hw hp hg, hclose⟩

end Sys2Proof.Machine
end

