-- ==== Sys2Proof/Proofs/ModelCommands.lean ====
section
/-!
The mailbox commands on programs and models (R139, R143, R144, R297, R298, R301, R302).
-/

namespace Sys2Proof.Machine

/-! ### Programs, R139, R144 -/

theorem Work.verdict_programs (w : Work) (img : List Byte) (bundle : BitVec 512) : (w.verdict img bundle).2.programs = w.programs := by
  unfold Work.verdict
  dsimp only
  split
  · rfl
  · split <;> rfl

theorem exec_submitProgram {s : State} {h : CmdHdr} (hr : s.runs h 0x0201) {b : BufRef} (hok : s.bufRefusal h.path b 0 = none) :
    (∀ r, (s.work.verdict (s.bufIn h.path b) (BitVec.ofNat 512 (digestOf s.activeBundle))).1 = some r →
      ∃ t, exec (.submitProgram h b) s = .next t ∧ t.work.programs = s.work.programs ∧
        s.answered t h 0x0201 stBadArg false 0 (leBytes 2 0xFFFF ++ leBytes 16 r.toNat)) ∧
    (∀ i, (s.work.verdict (s.bufIn h.path b) (BitVec.ofNat 512 (digestOf s.activeBundle))).1 = none →
      (List.range 0xFFFF).find? (fun i => !(keys s.work.programs).contains i) = some i →
      ∃ t p, exec (.submitProgram h b) s = .next t ∧ look t.work.programs i = some p ∧ p.digest = imageDigest (s.bufIn h.path b) ∧
        s.answered t h 0x0201 stOk true 0 (leBytes 2 i ++ leBytes 16 0)) := by
  have hprog := s.work.verdict_programs (s.bufIn h.path b) (BitVec.ofNat 512 (digestOf s.activeBundle))
  obtain ⟨v, hv⟩ : ∃ v, s.work.verdict (s.bufIn h.path b) (BitVec.ofNat 512 (digestOf s.activeBundle)) = v := ⟨_, rfl⟩
  rw [hv] at hprog ⊢
  have hv' : s.begun.work.verdict (s.bufIn h.path b) (BitVec.ofNat 512 (digestOf s.begun.activeBundle)) = v := hv
  refine ⟨fun r hrep => ?_, fun i hrep hfree => ?_⟩
  · obtain ⟨u, hx, -, hw, -, ha⟩ := hr.takes (t := s.begun.onWork fun _ => v.2) (st := stBadArg) (d := 0)
      (res := leBytes 2 0xFFFF ++ leBytes 16 r.toNat) (rfl : execSubmitProgram h b s = s.command h _ _) rfl hok (by
        dsimp only
        rw [hv', hrep]) ⟨rfl, rfl, rfl⟩
    exact ⟨u, hx, (congrArg Work.programs hw).trans hprog, ha⟩
  · obtain ⟨u, hx, -, hw, -, ha⟩ := hr.takes (st := stOk) (d := 0) (res := leBytes 2 i ++ leBytes 16 0)
      (t := (s.begun.onWork fun _ => v.2).onWork fun w =>
        { w with programs := put w.programs i (programOf (s.bufIn h.path b) (imageDigest (s.bufIn h.path b))) })
      (rfl : execSubmitProgram h b s = s.command h _ _) rfl hok (by
        dsimp only
        rw [hv', hrep, hprog, hfree]) ⟨rfl, rfl, rfl⟩
    refine ⟨u, programOf (s.bufIn h.path b) (imageDigest (s.bufIn h.path b)), hx, ?_, rfl, ha⟩
    rw [hw]
    exact look_put_same ..

theorem exec_removeProgram {s : State} {h : CmdHdr} (hr : s.runs h 0x0202) {i : Nat} {p : Program} (hp : look s.work.programs i = some p) :
    (s.slotUsed i = true → ∃ t, exec (.removeProgram h i) s = .next t ∧ t.work = s.work ∧ s.answered t h 0x0202 stBusy false 0 []) ∧
    (s.slotUsed i = false → ∃ t, exec (.removeProgram h i) s = .next t ∧ t.work.programs = del s.work.programs i ∧
      s.answered t h 0x0202 stOk true 0 []) := by
  have hknown : ¬(look s.begun.work.programs i).isNone = true := by
    rw [show look s.begun.work.programs i = some p from hp]
    exact Bool.false_ne_true
  refine ⟨fun hu => ?_, fun hu => ?_⟩
  · obtain ⟨_, hx, ha⟩ := hr.replies (u := s.begun) (st := stBusy) (eff := false) (d := 0) (res := [])
      (rfl : execRemoveProgram h i s = s.command h _ _) ((if_neg hknown).trans (if_pos hu)) (.begun s)
    exact ⟨_, hx, rfl, ha⟩
  · obtain ⟨_, hx, ha⟩ := hr.does (d := 0) (res := []) (u := s.begun.onWork fun w => { w with
        programs := del w.programs i, placed := w.placed.filter fun p => p.handle.slot != i
        ready := w.ready.filter fun r => r.handle.slot != i })
      (rfl : execRemoveProgram h i s = s.command h _ _) ((if_neg hknown).trans (if_neg (Bool.eq_false_iff.mp hu))) ⟨rfl, rfl, rfl⟩
    exact ⟨_, hx, rfl, ha⟩

/-! ### Models, R297 -/

/-- A model as REGISTER_MODEL enters it. -/
def modelOf (r : ModelRec) : Model := { rec_ := r, cls := r.cls, weight := r.weight, state := if r.cls = 3 then .ready else .loading }

theorem exec_registerModel {s : State} {h : CmdHdr} (hr : s.runs h 0x0301) {r : ModelRec} {p : Program}
    (hp : look s.work.programs r.slot = some p) (hok : modelRecOk r = true) (hseed : (p.kernels.any fun k => k.code.any usesSeed) = false) :
    ((look s.svc.models r.id).isSome = true → ∃ t, exec (.registerModel h r) s = .next t ∧ t.svc = s.svc ∧
      s.answered t h 0x0301 stDenied false 0 []) ∧
    (look s.svc.models r.id = none → (r.cls = 0 → s.pinnedFits r.bytes = true) → ∃ t, exec (.registerModel h r) s = .next t ∧
      look t.svc.models r.id = some (modelOf r) ∧ s.answered t h 0x0301 stOk true 0 []) := by
  have hp' : look s.begun.work.programs r.slot = some p := hp
  have hgood : ¬(!modelRecOk r || p.kernels.any fun k => k.code.any usesSeed) = true := by
    rw [hok, hseed]
    decide
  refine ⟨fun hm => ?_, fun hm hfit => ?_⟩
  · obtain ⟨_, hx, ha⟩ := hr.replies (u := s.begun) (st := stDenied) (eff := false) (d := 0) (res := [])
      (rfl : execRegisterModel h r s = s.command h _ _) (by
        rw [hp']
        exact (if_neg hgood).trans (if_pos (Bool.or_eq_true_iff.mpr (.inl hm)))) (.begun s)
    exact ⟨_, hx, rfl, ha⟩
  · have hfree : ¬((look s.begun.svc.models r.id).isSome || (r.cls == 0 && !s.begun.pinnedFits r.bytes)) = true := by
      rw [show look s.begun.svc.models r.id = none from hm]
      intro hc
      obtain ⟨h0, h1⟩ := Bool.and_eq_true_iff.mp ((Bool.or_eq_true_iff.mp hc).resolve_left (by decide))
      rw [show s.begun.pinnedFits r.bytes = true from hfit (beq_iff_eq.mp h0)] at h1
      exact absurd h1 (by decide)
    obtain ⟨_, hx, ha⟩ := hr.does (u := s.begun.onSvc fun v => { v with models := put v.models r.id (modelOf r) }) (d := 0) (res := [])
      (rfl : execRegisterModel h r s = s.command h _ _) (by
        rw [hp']
        exact (if_neg hgood).trans (if_neg hfree)) ⟨rfl, rfl, rfl⟩
    exact ⟨_, hx, look_put_same .., ha⟩

theorem State.modModel_eq {s : State} {i : Nat} {m : Model} (hm : look s.svc.models i = some m) (f : Model → Model) :
    s.modModel i f = s.onSvc fun v => { v with models := put v.models i (f m) } := by
  unfold State.modModel
  rw [hm]

theorem exec_removeModel {s : State} {h : CmdHdr} (hr : s.runs h 0x0302) {i : Nat} {m : Model} (hm : look s.svc.models i = some m)
    (ho : (s.svc.requests.any fun r => !r.ended && r.rec_.model == i) = true) :
    ∃ t, exec (.removeModel h i) s = .next t ∧ look t.svc.models i = some { m with state := .removing } ∧
      s.answered t h 0x0302 stOk true 0 [] := by
  have hm' : look s.begun.svc.models i = some m := hm
  obtain ⟨u, hu⟩ : ∃ u, u = s.begun.onSvc fun v => { v with models := put v.models i { m with state := .removing } } := ⟨_, rfl⟩
  have hl : look u.svc.models i = some { m with state := .removing } := by
    rw [hu]
    exact look_put_same ..
  have hkeep : u.dropModel i = u := by
    unfold State.dropModel
    rw [hl]
    exact if_pos (.inr (by rw [hu]; exact ho))
  obtain ⟨_, hx, ha⟩ := hr.does (u := u) (d := 0) (res := []) (rfl : execRemoveModel h i s = s.command h _ _) (by
    rw [hm', if_neg (show ¬(some m).isNone = true from Bool.false_ne_true), State.modModel_eq hm', ← hu, hkeep]) (hu ▸ ⟨rfl, rfl, rfl⟩)
  exact ⟨_, hx, hl, ha⟩

/-! ### Residency, R301, R302 -/

/-- The commands in hand and the registered models of `t` are those of `s`. -/
structure State.KeepsModels (s t : State) : Prop where
  inProgress : t.ctl.inProgress = s.ctl.inProgress
  completed : t.ctl.completed = s.ctl.completed
  now : t.now = s.now
  models : t.svc.models = s.svc.models

namespace State.KeepsModels

variable {s t u : State}

theorem refl (s : State) : s.KeepsModels s := ⟨rfl, rfl, rfl, rfl⟩

theorem trans (h₁ : s.KeepsModels t) (h₂ : t.KeepsModels u) : s.KeepsModels u :=
  ⟨h₂.inProgress.trans h₁.inProgress, h₂.completed.trans h₁.completed, h₂.now.trans h₁.now, h₂.models.trans h₁.models⟩

theorem paged (h : s.KeepsModels t) (hp : t.Paged u) : s.KeepsModels u :=
  h.trans ⟨by rw [hp.eq], by rw [hp.eq], by rw [hp.eq], by rw [hp.eq]⟩

theorem foldl {α : Type} {f : State → α → State} {l : List α} (hf : ∀ x a, s.KeepsModels x → s.KeepsModels (f x a)) (h : s.KeepsModels t) :
    s.KeepsModels (l.foldl f t) := by
  induction l generalizing t with
  | nil => exact h
  | cons a l ih => exact ih (hf t a h)

theorem relocate (h : s.KeepsModels t) (p : Placed) (a : Nat) : s.KeepsModels (t.relocate p a) := by
  have hc : s.KeepsModels ((t.copyData p.addr a p.bytes 1).onMem fun m =>
      if (t.copyData p.addr a p.bytes 1).inImage p.addr then m else m.clear p.addr (p.addr + p.bytes)) :=
    h.paged (.onMem (.copyData (.refl t) ..) _)
  unfold State.relocate
  dsimp only
  split
  · exact hc.trans ⟨rfl, rfl, rfl, rfl⟩
  · exact .foldl (fun _ _ hx => hx.paged (.bumpPage (.refl _) _)) (hc.trans ⟨rfl, rfl, rfl, rfl⟩)

theorem dropWeights (h : s.KeepsModels t) (m : Model) : s.KeepsModels (t.dropWeights m) := h.trans ⟨rfl, rfl, rfl, rfl⟩

end State.KeepsModels

/-- State `t` keeps the commands in hand, and model `i` is registered in it. -/
def State.HoldsModel (s t : State) (i : Nat) : Prop := s.InHand t ∧ (look t.svc.models i).isSome = true

theorem State.KeepsModels.holds {s t : State} {i : Nat} {m : Model} (h : s.begun.KeepsModels t) (hm : look s.svc.models i = some m) :
    s.HoldsModel t i := by
  refine ⟨⟨h.inProgress, h.completed, h.now⟩, ?_⟩
  rw [h.models, show look s.begun.svc.models i = some m from hm]
  rfl

theorem State.HoldsModel.modModel {s t : State} {i : Nat} (h : s.HoldsModel t i) (f : Model → Model) : s.HoldsModel (t.modModel i f) i := by
  obtain ⟨⟨h1, h2, h3⟩, hs⟩ := h
  obtain ⟨m, hm⟩ := Option.isSome_iff_exists.mp hs
  rw [State.modModel_eq hm]
  exact ⟨⟨h1, h2, h3⟩, Option.isSome_iff_exists.mpr ⟨_, look_put_same ..⟩⟩

theorem State.HoldsModel.demote {s : State} {i : Nat} {m : Model} (hm : look s.svc.models i = some m) : s.HoldsModel (s.begun.demote i) i := by
  unfold State.demote
  rw [show look s.begun.svc.models i = some m from hm]
  refine .modModel (State.KeepsModels.holds (.foldl (fun x p hx => ?_) (.refl _)) hm) _
  split
  · exact hx
  · split
    · exact hx.trans ⟨rfl, rfl, rfl, rfl⟩
    · split
      · exact hx.relocate ..
      · exact hx

theorem State.HoldsModel.promote {s : State} {i : Nat} {m : Model} (hm : look s.svc.models i = some m) : s.HoldsModel (s.begun.promote i) i := by
  unfold State.promote
  rw [show look s.begun.svc.models i = some m from hm]
  refine .modModel (State.KeepsModels.holds (.foldl (fun x p hx => ?_) (.refl _)) hm) _
  split
  · split
    · exact hx
    · exact hx.relocate ..
  · exact hx

/-- The move of a model's weights that a change of its class makes, R301. -/
def State.reclass (s : State) (i c : Nat) (m : Model) : State :=
  if c = 3 then s.dropWeights m else if c = 2 ∧ m.cls ≤ 1 then s.demote i else if c ≤ 1 ∧ m.cls = 2 then s.promote i else s

theorem State.HoldsModel.reclass {s : State} {i : Nat} {m : Model} (hm : look s.svc.models i = some m) (c : Nat) :
    s.HoldsModel (s.begun.reclass i c m) i := by
  unfold State.reclass
  split
  · exact State.KeepsModels.holds (.dropWeights (.refl _) m) hm
  · split
    · exact .demote hm
    · split
      · exact .promote hm
      · exact State.KeepsModels.holds (.refl _) hm

/-- The model with its class and weight set, R302. -/
def Model.resided (m : Model) (c w now : Nat) : Model := { m with
  cls := c, weight := w, lastMove := now, image := if c = 3 then [] else m.image
  state := if m.cls = 3 ∧ c ≠ 3 then .loading else .ready }

theorem exec_setResidency {s : State} {h : CmdHdr} (hr : s.runs h 0x0303) {i : Nat} {m : Model} (hm : look s.svc.models i = some m)
    (hst : m.state = .ready) {c w : Nat} (hc : c ≤ 3) (hw : w ≤ 65535) (hfit : c = 0 → m.cls ≠ 0 → s.pinnedFits m.rec_.bytes = true) :
    ∃ t, exec (.setResidency h i c w) s = .next t ∧ look t.svc.models i = some (m.resided c w s.now) ∧
      s.answered t h 0x0303 stOk true 0 [] := by
  obtain ⟨hin, hsome⟩ := State.HoldsModel.reclass hm c
  obtain ⟨m', hm'⟩ := Option.isSome_iff_exists.mp hsome
  have hres : { m with
      cls := c, weight := w, lastMove := s.now, image := if c = 3 then [] else m.image
      state := if m.cls = 3 ∧ c ≠ 3 ∧ m.state = .ready then .loading else m.state } = m.resided c w s.now := by
    unfold Model.resided
    rw [hst]
    simp only [and_true]
  obtain ⟨_, hx, ha⟩ := hr.does (d := 0) (res := [])
    (u := (s.begun.reclass i c m).onSvc fun v => { v with models := put v.models i (m.resided c w s.now) })
    (rfl : execSetResidency h i c w s = s.command h _ _) (by
      rw [show look s.begun.svc.models i = some m from hm]
      dsimp only
      rw [if_neg (by rw [hst]; simp; omega), if_neg (fun hc' => by
        have hp : s.begun.pinnedFits m.rec_.bytes = true := hfit hc'.1 hc'.2.1
        rw [hp] at hc'
        exact absurd hc'.2.2 (by decide)), ← hres]
      exact congrArg (fun u : State => u.done h 0x0303) (State.modModel_eq hm' _)) ⟨hin.inProgress, hin.completed, hin.now⟩
  exact ⟨_, hx, look_put_same .., ha⟩

end Sys2Proof.Machine
end

