-- ==== Sys2Proof/Proofs/ServiceCommands.lean ====
section
/-!
The mailbox commands on adapters, prefixes, tokenisers and fine-tuning jobs (R299, R300, R316, R325 to R327).
-/

namespace Sys2Proof.Machine

/-! ### Adapters, R299, R325 -/

theorem State.writeImage_accessed (s : State) (im : List (Nat × Nat)) (bs : List Byte) : s.Accessed (s.writeImage im bs) := by
  suffices h : ∀ x : State × List Byte, s.Accessed x.1 → s.Accessed (im.foldl (fun (x : State × List Byte) p =>
      (x.1.writeRange p.1 (x.2.take p.2) (List.replicate p.2 false), x.2.drop p.2)) x).1 from h (s, bs) (.refl s)
  induction im with
  | nil => exact fun _ hx => hx
  | cons p im ih => exact fun x hx => ih _ (hx.trans (x.1.writeRange_accessed ..))

theorem State.InHand.accessed {s u v : State} (h : s.InHand u) (ha : u.Accessed v) : s.InHand v :=
  ⟨(congrArg (fun t : State => t.ctl.inProgress) ha.eq).trans h.inProgress,
    (congrArg (fun t : State => t.ctl.completed) ha.eq).trans h.completed, (congrArg State.now ha.eq).trans h.now⟩

theorem exec_registerAdapter {s : State} {h : CmdHdr} (hr : s.runs h 0x0304) {m : Model} {r : AdapterRec}
    (hm : look s.svc.models r.base = some m) (hok : adapterRecOk r = true) (hn : look s.svc.adapters r.id = none)
    {im : List (Nat × Nat)} (hi : s.allocImage r.bytes = some im) :
    ∃ t, exec (.registerAdapter h r) s = .next t ∧ look t.svc.adapters r.id = some { rec_ := r, image := im } ∧
      s.answered t h 0x0304 stOk true 0 [] := by
  obtain ⟨u, hu⟩ : ∃ u, u = ({ s.begun with free := s.begun.free + r.bytes } : State).onSvc fun v => { v with
    adapters := put v.adapters r.id { rec_ := r, image := im } } := ⟨_, rfl⟩
  have ha := u.writeImage_accessed im ((List.range r.bytes).map fun i => Config.freeByte (s.free + i))
  have hin : s.InHand u := hu ▸ ⟨rfl, rfl, rfl⟩
  have hl : look u.svc.adapters r.id = some { rec_ := r, image := im } := by
    rw [hu]
    exact look_put_same ..
  obtain ⟨_, hx, hans⟩ := hr.does (d := 0) (res := []) (u := u.writeImage im ((List.range r.bytes).map fun i => Config.freeByte (s.free + i)))
    (rfl : execRegisterAdapter h r s = s.command h _ _) (by
      dsimp only
      rw [show look s.begun.svc.adapters r.id = none from hn, hok, show look s.begun.svc.models r.base = some m from hm]
      dsimp only
      rw [if_neg (by simp), if_neg Bool.false_ne_true, show s.begun.allocImage r.bytes = some im from hi, hu]
      rfl) (hin.accessed ha)
  refine ⟨_, hx, ?_, hans⟩
  have hs : (u.writeImage im ((List.range r.bytes).map fun i => Config.freeByte (s.free + i))).svc = u.svc := by rw [ha.eq]
  exact (congrArg (fun v : Service => look v.adapters r.id) hs).trans hl

/-- An adapter being removed gives up its image when no open request names it, R325. -/
theorem State.dropAdapter_removing {s : State} {a : Nat} {x : Adapter} (hx : look s.svc.adapters a = some x) (hr : x.removing = true) :
    ∃ y l, s.dropAdapter a = s.onSvc (fun v => { v with adapters := l }) ∧ look l a = some y ∧ y.rec_ = x.rec_ ∧ y.removing = true ∧
      (s.adapterNamed a = false → y.image = [] ∧ y.slices = [] ∧ y.staged = false) := by
  unfold State.dropAdapter
  rw [hx]
  dsimp only
  split
  next hc =>
    have hn : s.adapterNamed a = true := hc.resolve_left (by rw [hr]; decide)
    exact ⟨x, s.svc.adapters, rfl, hx, rfl, hr, fun hf => absurd (hn.symm.trans hf) (by decide)⟩
  · exact ⟨_, _, rfl, look_put_same .., rfl, hr, fun _ => ⟨rfl, rfl, rfl⟩⟩

theorem exec_removeAdapter {s : State} {h : CmdHdr} (hr : s.runs h 0x0305) {a : Nat} {x : Adapter} (hx : look s.svc.adapters a = some x)
    (hn : x.removing = false) : ∃ t, exec (.removeAdapter h a) s = .next t ∧
      (∃ y, look t.svc.adapters a = some y ∧ y.rec_ = x.rec_ ∧ y.removing = true ∧
        (s.adapterNamed a = false → y.image = [] ∧ y.slices = [] ∧ y.staged = false)) ∧ s.answered t h 0x0305 stOk true 0 [] := by
  obtain ⟨u, hu⟩ : ∃ u, u = s.begun.onSvc fun v => { v with
    adapters := put v.adapters a { x with removing := true }, fts := del v.fts a } := ⟨_, rfl⟩
  have hl : look u.svc.adapters a = some { x with removing := true } := by
    rw [hu]
    exact look_put_same ..
  have hnamed : u.adapterNamed a = s.adapterNamed a := by rw [hu]; rfl
  obtain ⟨y, l, he, h1, h2, h3, h4⟩ := State.dropAdapter_removing hl rfl
  obtain ⟨_, hx', ha⟩ := hr.does (d := 0) (res := []) (u := u.onSvc fun v => { v with adapters := l })
    (rfl : execRemoveAdapter h a s = s.command h _ _) (by
      rw [show look s.begun.svc.adapters a = some x from hx]
      dsimp only
      rw [if_neg (by rw [hn]; decide), ← hu, he]) (hu ▸ ⟨rfl, rfl, rfl⟩)
  exact ⟨_, hx', ⟨y, h1, h2, h3, hnamed ▸ h4⟩, ha⟩

/-! ### Fine-tuning, R326 -/

theorem exec_finetune_start {s : State} {h : CmdHdr} (hr : s.runs h 0x0308) {a : Nat} {x : Adapter} (hx : look s.svc.adapters a = some x)
    (hn : x.removing = false) {job : FtJob} {b : BufRef} (ht : x.rec_.trainable = true) (hj : jobOk job = true)
    (hf : look s.svc.fts a = none) (hok : s.bufRefusal h.path b 0 = none) :
    ∃ t, exec (.finetune h 0 a job b) s = .next t ∧ look t.svc.fts a = some { job := job } ∧
      s.answered t h 0x0308 stOk true 0 (leBytes 4 x.step) := by
  obtain ⟨u, he, -, -, hv, ha⟩ := hr.takes (st := stOk) (d := 0) (res := leBytes 4 x.step)
    (t := s.begun.onSvc fun v => { v with fts := put v.fts a { job := job } }) (b := b)
    (go := fun _ s => (s.onSvc fun v => { v with fts := put v.fts a { job := job } }, stOk, 0, leBytes 4 x.step))
    (rfl : execFinetune h 0 a job b s = s.command h _ _) (by
      rw [show look s.begun.svc.adapters a = some x from hx]
      dsimp only
      rw [hn, ht, hj, show look s.begun.svc.fts a = none from hf]
      rfl) hok rfl ⟨rfl, rfl, rfl⟩
  refine ⟨u, he, ?_, ha⟩
  rw [hv]
  exact look_put_same ..

theorem exec_finetune {s : State} {h : CmdHdr} (hr : s.runs h 0x0308) {a : Nat} {x : Adapter} (hx : look s.svc.adapters a = some x)
    (hn : x.removing = false) (job : FtJob) (b : BufRef) :
    (∀ j, look s.svc.fts a = some j → ∃ t, exec (.finetune h 1 a job b) s = .next t ∧
      look t.svc.fts a = some { j with stopped := true } ∧ s.answered t h 0x0308 stOk true 0 (leBytes 4 x.step)) ∧
    (∃ t, exec (.finetune h 3 a job b) s = .next t ∧ t.svc = s.svc ∧ s.answered t h 0x0308 stOk true 0 (leBytes 4 x.step)) := by
  refine ⟨fun j hf => ?_, ?_⟩
  · obtain ⟨_, he, ha⟩ := hr.does (d := 0) (res := leBytes 4 x.step)
      (u := s.begun.onSvc fun v => { v with fts := put v.fts a { j with stopped := true } })
      (rfl : execFinetune h 1 a job b s = s.command h _ _) (by
        rw [show look s.begun.svc.adapters a = some x from hx]
        dsimp only
        rw [hn, show look s.begun.svc.fts a = some j from hf]
        rfl) ⟨rfl, rfl, rfl⟩
    exact ⟨_, he, look_put_same .., ha⟩
  · obtain ⟨_, he, ha⟩ := hr.does (d := 0) (res := leBytes 4 x.step) (u := s.begun)
      (rfl : execFinetune h 3 a job b s = s.command h _ _) (by
        rw [show look s.begun.svc.adapters a = some x from hx]
        dsimp only
        rw [hn]
        rfl) (.begun s)
    exact ⟨_, he, rfl, ha⟩

/-! ### Prefixes, R289, R300 -/

/-- Programs without KV tensors need neither pools nor tables (R287). -/
theorem State.noPools {s : State} {i : Nat} (hk : ∀ sl ∈ s.kvSlots i, ∀ pr, look s.work.programs sl = some pr →
    pr.tensors.all (·.cls != 2) = true) : s.placePools i = some s ∧ s.newTables i = [] := by
  have hf (pr : Program) (h : pr.tensors.all (·.cls != 2) = true) : pr.tensors.filter (·.cls == 2) = [] :=
    List.filter_eq_nil_iff.mpr fun t ht hc => by
      have := List.all_eq_true.mp h t ht
      rw [bne, hc] at this
      exact absurd this (by decide)
  constructor
  · unfold State.placePools
    generalize s.kvSlots i = l at hk
    induction l with
    | nil => rfl
    | cons sl l ih =>
      rw [List.foldl_cons]
      refine Eq.trans (congrArg (fun o => List.foldl _ o l) ?_) (ih fun sl' h' => hk sl' (List.mem_cons_of_mem _ h'))
      rw [Option.bind_some]
      split
      · rfl
      next pr hp =>
        rw [hf pr (hk sl List.mem_cons_self pr hp)]
        rfl
  · unfold State.newTables
    refine List.flatMap_eq_nil_iff.mpr fun sl hsl => ?_
    split
    · rfl
    next pr hp =>
      rw [hf pr (hk sl hsl pr hp)]
      rfl

/-- A prefix as PREFIX enters it when its model keeps no KV rows. -/
def prefixOf (i id : Nat) (toks : List Nat) : Prefix := { model := i, id := id, tokens := toks, plan := prefixPlan toks.length, tables := [] }

theorem exec_prefix {s : State} {h : CmdHdr} (hr : s.runs h 0x0306) {i id : Nat} {m : Model} (hm : look s.svc.models i = some m)
    (hst : m.state ≠ .removing) {b : BufRef} (hok : s.bufRefusal h.path b 0 = none) (hid : id ≤ 1023) :
    ((s.svc.prefixes.any fun p => p.model == i && p.id == id) = true → ∃ t, exec (.prefix_ h 0 i id b) s = .next t ∧ t.svc = s.svc ∧
      s.answered t h 0x0306 stDenied false 0 []) ∧
    ((s.svc.prefixes.any fun p => p.model == i && p.id == id) = false →
      (∀ sl ∈ s.kvSlots i, ∀ pr, look s.work.programs sl = some pr → pr.tensors.all (·.cls != 2) = true) →
      (s.bufIn h.path b).length % 4 = 0 → (tokensOf (s.bufIn h.path b)).length ≤ m.rec_.maxContext →
      (∀ k ∈ tokensOf (s.bufIn h.path b), k < m.rec_.vocab) → ∃ t p, exec (.prefix_ h 0 i id b) s = .next t ∧
      p ∈ t.svc.prefixes ∧ p.model = i ∧ p.id = id ∧ p.tokens = tokensOf (s.bufIn h.path b) ∧
      p.plan = prefixPlan (tokensOf (s.bufIn h.path b)).length ∧ s.answered t h 0x0306 stOk true 0 []) := by
  have hm' : look s.begun.svc.models i = some m := hm
  have hin : ¬(0 ≠ 0 ∨ 1023 < id) := not_or.mpr ⟨fun hc => hc rfl, Nat.not_lt.mpr hid⟩
  refine ⟨fun hp => ?_, fun hp hk h4 hlen hvoc => ?_⟩
  · obtain ⟨_, hx, ha⟩ := hr.replies (u := s.begun) (st := stDenied) (eff := false) (d := 0) (res := [])
      (rfl : execPrefix h 0 i id b s = s.command h _ _) (by
        dsimp only
        rw [if_neg (by decide), hm']
        exact (if_neg hin).trans (if_pos (.inr hp))) (.begun s)
    exact ⟨_, hx, rfl, ha⟩
  · generalize hg : tokensOf (s.bufIn h.path b) = toks at *
    obtain ⟨hpools, htabs⟩ := State.noPools (s := s.begun) hk
    have hgood : ¬((s.bufIn h.path b).length % 4 ≠ 0 ∨ m.rec_.maxContext < toks.length ∨ toks.any (fun t => decide (m.rec_.vocab ≤ t)) = true) := by
      refine not_or.mpr ⟨Classical.not_not.mpr h4, not_or.mpr ⟨Nat.not_lt.mpr hlen, fun hc => ?_⟩⟩
      obtain ⟨k, hk, hc⟩ := List.any_eq_true.mp hc
      exact absurd (of_decide_eq_true hc) (Nat.not_le.mpr (hvoc k hk))
    obtain ⟨u, hx, -, -, hv, ha⟩ := hr.takes (st := stOk) (d := 0) (res := []) (b := b)
      (t := s.begun.onSvc fun v => { v with prefixes := v.prefixes ++ [prefixOf i id toks] })
      (rfl : execPrefix h 0 i id b s = s.command h _ _) (by
        dsimp only
        rw [if_neg (by decide), hm']
        exact (if_neg hin).trans (if_neg (not_or.mpr ⟨hst, Bool.eq_false_iff.mp hp⟩))) hok (by
        rw [hg, if_neg hgood, hpools, htabs]
        rfl) ⟨rfl, rfl, rfl⟩
    refine ⟨u, prefixOf i id toks, hx, ?_, rfl, rfl, rfl, rfl, ha⟩
    rw [hv]
    exact List.mem_append_right _ (List.mem_singleton_self _)

/-! ### Tokenisers, R316 -/

theorem exec_registerTokeniser {s : State} {h : CmdHdr} (hr : s.runs h 0x0307) {b : BufRef} (hok : s.bufRefusal h.path b 0 = none)
    {i mode : Nat} {vocab : List (List Byte)} {merges : List (Nat × Nat)} (h0 : i ≠ 0) (h15 : i ≤ 15)
    (ht : tokeniserOk mode vocab merges = true) : ∃ t, exec (.registerTokeniser h i b mode vocab merges) s = .next t ∧
      look t.svc.tokenisers i = some { splitMode := mode, vocab := vocab, merges := merges } ∧ s.answered t h 0x0307 stOk true 0 [] := by
  have hgood : ¬(i = 0 ∨ 15 < i ∨ (!tokeniserOk mode vocab merges) = true) := by
    rw [ht]
    exact not_or.mpr ⟨h0, not_or.mpr ⟨Nat.not_lt.mpr h15, by decide⟩⟩
  obtain ⟨u, hx, -, -, hv, ha⟩ := hr.takes (st := stOk) (d := 0) (res := []) (b := b)
    (rfl : execRegisterTokeniser h i b mode vocab merges s = s.command h _ _) rfl hok (if_neg hgood) ⟨rfl, rfl, rfl⟩
  refine ⟨u, hx, ?_, ha⟩
  rw [hv]
  exact look_put_same ..

end Sys2Proof.Machine
end

