-- ==== Sys2Proof/Proofs/WorkCommands.lean ====
section
/-!
The mailbox commands on service sets, tasks, epochs, instances and collectives (R149 to R174, R352, R386, R411), and with them the
commands on the work of the device.
-/

namespace Sys2Proof.Machine

/-! ### Service sets, R352, R411 -/

/-- The inbound channel of a service set as it is made, from the profile's entry. -/
def inboundChannel (p : List Byte) : Channel :=
  { log2Depth := field p 0 1, highMark := field p 2 2, lowMark := field p 4 2, maxPacket := 1, enable := true }

theorem exec_serviceSet_create {s : State} {h : CmdHdr} (hr : s.runs h 0x0401) {i : Nat} {id : Dword} {p : Nat} (pfx : BitVec 128) {n q : Nat}
    (hi : i ≤ 63) (hp : p ≤ 3) (hn : n ≤ 128) (h1 : 1 ≤ q) (hq : q ≤ 4096) (hs : look s.svc.sets i = none)
    (hid : (s.svc.sets.any fun x => x.2.service == id && x.2.port == p) = false)
    (hroom : s.inboxBytes + 32 * 2 ^ field (s.profNow 0x02000003) 0 1 ≤ 2 ^ 22) :
    ∃ t, exec (.serviceSet h 0 i id p pfx n q) s = .next t ∧
      look t.svc.sets i = some { service := id, port := p, pfx := pfx, pfxLen := n, qpMax := q } ∧ (t.channel inboxEp i).enable = true ∧
      (t.channel inboxEp i).words = [] ∧ s.answered t h 0x0401 stOk true 0 (leBytes 8 id.toNat) := by
  obtain ⟨u, hu⟩ : ∃ u, u = s.begun.onSvc fun v => { v with
    sets := put v.sets i { service := id, port := p, pfx := pfx, pfxLen := n, qpMax := q } } := ⟨_, rfl⟩
  obtain ⟨c, hc⟩ : ∃ c, c = inboundChannel (s.profNow 0x02000003) := ⟨_, rfl⟩
  have hl : look u.svc.sets i = some { service := id, port := p, pfx := pfx, pfxLen := n, qpMax := q } := by
    rw [hu]
    exact look_put_same ..
  have hch : (u.onChannel inboxEp i fun _ => c).channel inboxEp i = c := State.onChannel_channel ..
  have hrange : ¬(3 < p ∨ 128 < n ∨ (!inRange q 1 4096) = true) := by
    simp [inRange]
    omega
  have hfree : ¬((look s.begun.svc.sets i).isSome = true ∨ (s.begun.svc.sets.any fun x => x.2.service == id && x.2.port == p) = true) := by
    rw [show look s.begun.svc.sets i = none from hs]
    exact not_or.mpr ⟨by decide, Bool.eq_false_iff.mp hid⟩
  obtain ⟨_, hx, ha⟩ := hr.does (d := 0) (res := leBytes 8 id.toNat) (u := u.onChannel inboxEp i fun _ => c)
    (rfl : execServiceSet h 0 i id p pfx n q s = s.command h _ _) (by
      rw [hu, hc]
      exact (if_neg (not_or.mpr ⟨by decide, Nat.not_lt.mpr hi⟩)).trans ((if_pos rfl).trans ((if_neg hrange).trans ((if_neg hfree).trans
        (if_neg (Nat.not_lt.mpr hroom)))))) (hu ▸ ⟨rfl, rfl, rfl⟩)
  refine ⟨_, hx, hl, ?_, ?_, ha⟩
  · exact (congrArg Channel.enable hch).trans (by rw [hc]; rfl)
  · exact (congrArg Channel.words hch).trans (by rw [hc]; rfl)

theorem exec_getService {s : State} {h : CmdHdr} (hr : s.runs h 0x0402) {i : Nat} {x : SvcSet} (hx : look s.svc.sets i = some x) :
    ∃ t, exec (.getService h i) s = .next t ∧ s.answered t h 0x0402 stOk true 0
      (leBytes 4 (s.net.qps.filter fun q => q.2.kind == .service i && q.2.state == .rts).length ++
        leBytes 4 (s.svc.requests.filter fun r => !r.ended && (s.qpsOf i).contains r.qp).length) := by
  obtain ⟨_, he, ha⟩ := hr.does (d := 0) (u := s.begun)
    (res := leBytes 4 (s.net.qps.filter fun q => q.2.kind == .service i && q.2.state == .rts).length ++
      leBytes 4 (s.svc.requests.filter fun r => !r.ended && (s.qpsOf i).contains r.qp).length)
    (rfl : execGetService h i s = s.command h _ _)
    (if_neg (by rw [show look s.begun.svc.sets i = some x from hx]; exact Bool.false_ne_true)) (.begun s)
  exact ⟨_, he, ha⟩

/-! ### What an answer leaves -/

theorem State.respond_work (s : State) (h : CmdHdr) (op st : Nat) (eff : Bool) (d : Word) (res : List Byte) :
    (s.respond h op st eff d res).work = s.work ∧ (s.respond h op st eff d res).mem = s.mem := by
  unfold State.respond
  split
  · exact ⟨rfl, rfl⟩
  · dsimp only
    split
    · exact ⟨State.settleSession_work _, State.settleSession_mem _⟩
    · exact ⟨rfl, rfl⟩

/-- A command whose effect on the tasks is that of `u`, whatever else it answers. -/
theorem State.runs.works {s u : State} {h : CmdHdr} {op op' st : Nat} {eff : Bool} {d : Word} {res : List Byte} {body : State → State}
    {x : Host.Outcome State Fault Refusal} (hr : s.runs h op) (he : x = s.command h op body)
    (hb : body s.begun = u.respond h op' st eff d res) :
    ∃ t, x = .next t ∧ t.work = u.work ∧ t.mem = u.mem ∧ t.ctl = (u.respond h op' st eff d res).ctl := by
  obtain ⟨w, hx⟩ := hr.waits he
  rw [hb] at hx
  obtain ⟨h1, h2⟩ := u.respond_work h op' st eff d res
  exact ⟨_, hx, h1, h2, rfl⟩

/-- A command that is refused leaves the work of the device as it is. -/
theorem State.runs.refusesWork {s : State} {h : CmdHdr} {op st : Nat} {d : Word} {body : State → State}
    {x : Host.Outcome State Fault Refusal} (hr : s.runs h op) (he : x = s.command h op body) (hb : body s.begun = s.begun.refuse h op st d) :
    ∃ t, x = .next t ∧ t.work = s.work ∧ s.answered t h op st false d [] := by
  obtain ⟨_, hx, ha⟩ := hr.replies he hb (.begun s)
  exact ⟨_, hx, rfl, ha⟩

/-! ### Tasks, R154, R164, R443 -/

theorem exec_submitTask {s : State} {h : CmdHdr} (hr : s.runs h 0x0501) (d : TaskDesc) :
    (s.admitStatus d ≠ stOk → ∃ t, exec (.submitTask h d) s = .next t ∧ t.work = s.work ∧
      s.answered t h 0x0501 (s.admitStatus d) false 0 []) ∧
    (∀ u id, s.begun.admitTask d = (u, stOk, id) → ∃ t, exec (.submitTask h d) s = .next t ∧ t.work = u.work ∧ t.mem = u.mem ∧
      t.ctl = (u.respond h 0x0501 stOk true 0 (leBytes 8 id)).ctl) := by
  refine ⟨fun hst => ?_, fun u id hu => ?_⟩
  · have hno : s.begun.admitTask d = (s.begun, s.admitStatus d, 0) := if_pos hst
    exact hr.refusesWork (rfl : execSubmitTask h d s = s.command h _ _) (by rw [hno]; exact if_neg hst)
  · exact hr.works (rfl : execSubmitTask h d s = s.command h _ _) (by rw [hu]; exact if_pos rfl)

theorem exec_cancelTask {s : State} {h : CmdHdr} (hr : s.runs h 0x0502) {id : Nat} {t : Task} (ht : s.task? id = some t) (hid : t.id = id) :
    (t.state.final = true → ∃ u, exec (.cancelTask h id) s = .next u ∧ u.work = s.work ∧
      s.answered u h 0x0502 stOk false 0 (leBytes 1 t.state.code)) ∧
    (t.state.final = false → t.state ≠ .running → t.desc.epoch = 0 →
      (∃ t', (s.finishTask id .cancelled stOk).task? id = some t' ∧ t'.state = .cancelled) ∧
      ∃ u, exec (.cancelTask h id) s = .next u ∧ u.work = ((s.begun.finishTask id .cancelled stOk).settle).work) := by
  have ht' : s.begun.task? id = some t := ht
  refine ⟨fun hf => ?_, fun hf hrun he => ⟨?_, ?_⟩⟩
  · have hc : s.begun.cancelTask t = s.begun := if_pos hf
    obtain ⟨_, hx, ha⟩ := hr.replies (u := s.begun) (st := stOk) (eff := false) (d := 0) (res := leBytes 1 t.state.code)
      (rfl : execCancelTask h id s = s.command h _ _) (by
        rw [ht']
        dsimp only
        rw [hc, hf]
        rfl) (.begun s)
    exact ⟨_, hx, rfl, ha⟩
  · obtain ⟨r, hr'⟩ := State.finishTask_task ht .cancelled stOk
    exact ⟨_, hr', rfl⟩
  · have hc : s.begun.cancelTask t = (s.begun.finishTask id .cancelled stOk).settle := by
      unfold State.cancelTask
      rw [if_neg (Bool.eq_false_iff.mp hf), if_neg (Classical.not_not.mpr he), if_neg hrun, hid]
    obtain ⟨u, hx, hw, -⟩ := hr.works (u := (s.begun.finishTask id .cancelled stOk).settle) (op' := 0x0502) (st := stOk)
      (eff := !t.state.final) (d := 0) (res := leBytes 1 t.state.code)
      (rfl : execCancelTask h id s = s.command h _ _) (by rw [ht', ← hc])
    exact ⟨u, hx, hw⟩

theorem exec_getTaskState {s : State} {h : CmdHdr} (hr : s.runs h 0x0503) {id : Nat} {t : Task} (ht : s.task? id = some t)
    (hj : (s.work.journal.any fun x => x.2 == id) = true) : ∃ u, exec (.getTaskState h id) s = .next u ∧
      u.work = s.work ∧ s.answered u h 0x0503 stOk true 0 (t.journalBytes ++ leBytes 8 s.log.next) := by
  have hfind : (if s.begun.work.journal.any (fun x => x.2 == id) then s.begun.task? id else none) = some t := (if_pos hj).trans ht
  obtain ⟨_, hx, ha⟩ := hr.does (d := 0) (u := s.begun) (res := t.journalBytes ++ leBytes 8 s.log.next)
    (rfl : execGetTaskState h id s = s.command h _ _) (by
      rw [hfind]
      rfl) (.begun s)
  exact ⟨_, hx, rfl, ha⟩

/-! ### Epochs, R168 to R174 -/

/-- An epoch opened changes the work of the device alone, and stands in it with nothing. -/
theorem State.openEpoch_spec {s u : State} {e : Nat} (h : s.openEpoch false = some (u, e)) :
    ∃ w, u = { s with work := w } ∧ look w.epochs e = some {} := by
  unfold State.openEpoch at h
  split at h
  · cases h
  · dsimp only at h
    split at h
    · cases h
    · obtain ⟨rfl, rfl⟩ := Prod.mk.inj (Option.some.inj h)
      exact ⟨_, rfl, look_put_same ..⟩

theorem State.begun_openEpoch_none {s : State} (h : s.openEpoch false = none) : s.begun.openEpoch false = none := by
  unfold State.openEpoch at h ⊢
  split at h
  next hc => exact if_pos hc
  next hc =>
    refine (if_neg hc).trans ?_
    dsimp only at h ⊢
    split at h
    next hf =>
      rw [show s.begun.work = s.work from rfl, hf]
    · cases h

theorem exec_openEpoch {s : State} {h : CmdHdr} (hr : s.runs h 0x0504) :
    (s.openEpoch false = none → ∃ t, exec (.openEpoch h) s = .next t ∧ s.answered t h 0x0504 stRetry false 0 []) ∧
    (∀ u e, s.begun.openEpoch false = some (u, e) → ∃ t, exec (.openEpoch h) s = .next t ∧ t.work = u.work ∧ look t.work.epochs e = some {} ∧
      s.answered t h 0x0504 stOk true 0 (leBytes 2 e)) := by
  refine ⟨fun hn => hr.refuses (rfl : execOpenEpoch h s = s.command h _ _) (by rw [State.begun_openEpoch_none hn]), fun u e hu => ?_⟩
  obtain ⟨w, hw, hl⟩ := State.openEpoch_spec hu
  obtain ⟨_, hx, ha⟩ := hr.does (d := 0) (u := u) (res := leBytes 2 e) (rfl : execOpenEpoch h s = s.command h _ _) (by rw [hu])
    (hw ▸ ⟨rfl, rfl, rfl⟩)
  exact ⟨_, hx, rfl, (congrArg (fun v : State => look v.work.epochs e) hw).trans hl, ha⟩

theorem exec_commit {s : State} {h : CmdHdr} (hr : s.runs h 0x0505) {e : Nat} {x : Epoch} (hx : s.hostEpoch e = some x)
    {entries : List CommitEntry} (hl : entries.length ≤ 18) :
    (x.commit.isSome = true → ∃ t, exec (.commit h e entries) s = .next t ∧ t.work = s.work ∧ s.answered t h 0x0505 stBusy false 0 []) ∧
    (x.commit = none → x.doomed = true → ∃ t, exec (.commit h e entries) s = .next t ∧ t.work = (s.begun.discardEpoch e stDenied).work) ∧
    (x.commit = none → x.doomed = false → ∃ t, exec (.commit h e entries) s = .next t ∧
      t.work = (let y := s.begun.commitAdmit e
        (y.1.onWork fun w => { w with epochs := put w.epochs e { x with commit := some (entries, h), commitGens := y.2 } }).settle.work)) := by
  have hx' : s.begun.hostEpoch e = some x := hx
  refine ⟨fun hc => ?_, fun hc hd => ?_, fun hc hd => ?_⟩
  · exact hr.refusesWork (rfl : execCommit h e entries s = s.command h _ _) (by
      rw [hx']
      exact (if_neg (Nat.not_lt.mpr hl)).trans (if_pos hc))
  · obtain ⟨t, ht, hw, -⟩ := hr.works (u := s.begun.discardEpoch e stDenied) (op' := 0x0505) (st := stDenied) (eff := false) (d := 0) (res := [])
      (rfl : execCommit h e entries s = s.command h _ _) (by
        rw [hx']
        exact (if_neg (Nat.not_lt.mpr hl)).trans ((if_neg (by rw [hc]; decide)).trans (if_pos hd)))
    exact ⟨t, ht, hw⟩
  · obtain ⟨w, ht⟩ := hr.waits (rfl : execCommit h e entries s = s.command h _ _)
    rw [hx'] at ht
    dsimp only at ht
    rw [if_neg (Nat.not_lt.mpr hl), if_neg (by rw [hc]; decide), if_neg (Bool.eq_false_iff.mp hd)] at ht
    exact ⟨_, ht, rfl⟩

theorem exec_discard {s : State} {h : CmdHdr} (hr : s.runs h 0x0506) {e : Nat} {x : Epoch} (hx : s.hostEpoch e = some x) :
    ∃ t, exec (.discard h e) s = .next t ∧ t.work = (s.begun.discardEpoch e stDenied).work := by
  obtain ⟨t, ht, hw, -⟩ := hr.works (u := s.begun.discardEpoch e stDenied) (op' := 0x0506) (st := stOk) (eff := true) (d := 0) (res := [])
    (rfl : execDiscard h e s = s.command h _ _) (by
      rw [show s.begun.hostEpoch e = some x from hx]
      rfl)
  exact ⟨t, ht, hw⟩

/-! ### Instances and collectives, R151, R153, R386 -/

/-- An instance that the host has written, at its next generation. -/
def Ready.hostWritten (r : Ready) : Ready := { r with
  table := 4, outside := true, gen := r.gen + 1, gens := put r.gens (r.gen + 1) { state := .ready }, dataLost := false }

theorem exec_setReady {s : State} {h : CmdHdr} (hr : s.runs h 0x0507) {x : Handle} {p : Program} (hp : look s.work.programs x.slot = some p)
    (ht : (p.tensors.any fun y => y.id == x.tensor) = true) (hi : x.inst < 65536) :
    ((s.work.entry x).state = .pending → ∃ t, exec (.setReady h x) s = .next t ∧ t.work = s.work ∧ s.answered t h 0x0507 stBusy false 0 []) ∧
    ((s.work.entry x).state ≠ .pending → ∃ t, exec (.setReady h x) s = .next t ∧
      t.work = ((s.begun.onWork fun w => w.setEntry (s.work.entry x).hostWritten).settle).work) := by
  have hp' : look s.begun.work.programs x.slot = some p := hp
  have hknown : ¬(!(p.tensors.any fun y => y.id == x.tensor) || decide (65536 ≤ x.inst)) = true := by
    rw [ht, decide_eq_false (Nat.not_le.mpr hi)]
    decide
  refine ⟨fun hs => ?_, fun hs => ?_⟩
  · exact hr.refusesWork (rfl : execSetReady h x s = s.command h _ _) (by
      rw [hp']
      exact (if_neg hknown).trans (if_pos hs))
  · obtain ⟨t, hx, hw, -⟩ := hr.works (op' := 0x0507) (st := stOk) (eff := true) (d := 0)
      (u := (s.begun.onWork fun w => w.setEntry (s.work.entry x).hostWritten).settle)
      (res := leBytes 2 (((s.work.entry x).gen + 1) % 65536)) (rfl : execSetReady h x s = s.command h _ _) (by
        rw [hp']
        exact (if_neg hknown).trans (if_neg hs))
    exact ⟨t, hx, hw⟩

theorem exec_submitCollective {s : State} {h : CmdHdr} (hr : s.runs h 0x0508) (d : CollDesc) :
    (s.collStatus d ≠ stOk → ∃ t, exec (.submitCollective h d) s = .next t ∧ t.work = s.work ∧
      s.answered t h 0x0508 (s.collStatus d) false 0 []) ∧
    (∀ u id, s.begun.admitColl d = (u, stOk, id) → ∃ t, exec (.submitCollective h d) s = .next t ∧ t.work = u.work ∧ t.mem = u.mem) := by
  refine ⟨fun hst => ?_, fun u id hu => ?_⟩
  · have hno : s.begun.admitColl d = (s.begun, s.collStatus d, 0) := if_pos hst
    exact hr.refusesWork (rfl : execSubmitCollective h d s = s.command h _ _) (by rw [hno]; exact if_neg hst)
  · obtain ⟨t, hx, hw, hm, -⟩ := hr.works (u := u) (op' := 0x0508) (st := stOk) (eff := true) (d := 0) (res := leBytes 8 id)
      (rfl : execSubmitCollective h d s = s.command h _ _) (by rw [hu]; exact if_pos rfl)
    exact ⟨t, hx, hw, hm⟩

/-- Settles O53: each command that runs has its effect on the state in which it has started, and is answered there. -/
theorem workCommandsAct : Obligations.WorkCommandsAct := by
  intro h b s
  refine ⟨fun hr hok => exec_submitProgram hr hok, fun hr i p hp => exec_removeProgram hr hp,
    fun hr r p hp hok hseed => exec_registerModel hr hp hok hseed, fun i m hm => ?_, fun a x hx hn => ?_,
    fun hr hok i mode vocab merges => exec_registerTokeniser hr hok,
    fun hr i id p pfx n q => exec_serviceSet_create hr pfx, fun hr i x hx => exec_getService hr hx, fun hr d => exec_submitTask hr d,
    fun hr id t ht hid => exec_cancelTask hr ht hid, fun hr id t ht hj => exec_getTaskState hr ht hj, exec_openEpoch,
    fun e x hx => ⟨fun hr entries hl => exec_commit hr hx hl, fun hr => exec_discard hr hx⟩,
    fun hr x p hp ht hi => exec_setReady hr hp ht hi, fun hr d => exec_submitCollective hr d⟩
  · refine ⟨fun hr ho => exec_removeModel hr hm ho, fun hr hst c w hc hw hfit => exec_setResidency hr hm hst hc hw hfit,
      fun hr r hb hok hn im hi => exec_registerAdapter hr (hb ▸ hm) hok hn hi, fun hr hst hok id hid => exec_prefix hr hm hst hok hid⟩
  · refine ⟨fun hr => exec_removeAdapter hr hx hn, fun hr => ⟨fun job => exec_finetune_start hr hx hn,
      fun job => (exec_finetune hr hx hn job b).1, fun job => (exec_finetune hr hx hn job b).2⟩⟩

end Sys2Proof.Machine
end

