-- ==== Sys2Proof/Proofs/QueuePredicates.lean ====
section
/-!
What the queue of waiting commands is after an operation: the predicates on the results that carry a state, and how the queue passes
through the folds of which the operations are made (00 R12). Memory may be in any form here, canonical or not.
-/

namespace Sys2Proof.Machine

/-- The queue of the next state of an outcome is `q`. -/
structure NextQueue (q : List Instr) (o : Host.Outcome State Fault Refusal) : Prop where
  eq : ∀ {t}, o = .next t → t.pending = q
/-- The queue of an optional state is `q`. -/
structure SomeQueue (q : List Instr) (o : Option State) : Prop where
  eq : ∀ {t}, o = some t → t.pending = q
/-- The queue of the state of an optional pair is `q`. -/
structure PairQueue {α : Type} (q : List Instr) (o : Option (State × α)) : Prop where
  eq : ∀ {x}, o = some x → x.1.pending = q
/-- The queue of a state that stands on the left is `q`. -/
structure LeftQueue {α : Type} (q : List Instr) (o : State ⊕ α) : Prop where
  eq : ∀ {t}, o = .inl t → t.pending = q
/-- The state of an execution's result. -/
def XRes.state : XRes → State
  | .ok s | .err s _ _ _ => s
/-- The state of a transfer's result. -/
def Xfer.state : Xfer → State
  | .done s | .hold s _ _ | .err s _ _ _ => s
/-- The state that the rows of a move come with. -/
def Plan.state : Plan → State
  | .ok s _ _ _ | .ask s _ | .hold s _ | .err s _ _ _ => s

@[simp] theorem XRes.state_ok (s : State) : (XRes.ok s).state = s := rfl
@[simp] theorem XRes.state_err (s : State) (e : Ev) (n a : Nat) : (XRes.err s e n a).state = s := rfl
@[simp] theorem Xfer.state_done (s : State) : (Xfer.done s).state = s := rfl
@[simp] theorem Xfer.state_hold (s : State) (r : Nat) (x : QStatus) : (Xfer.hold s r x).state = s := rfl
@[simp] theorem Xfer.state_err (s : State) (e : Ev) (n a : Nat) : (Xfer.err s e n a).state = s := rfl
@[simp] theorem Plan.state_ok (s : State) (r : List (Option Int)) (b : Bool) (t : Tab Word) : (Plan.ok s r b t).state = s := rfl
@[simp] theorem Plan.state_ask (s : State) (n : Nat) : (Plan.ask s n).state = s := rfl
@[simp] theorem Plan.state_hold (s : State) (x : QStatus) : (Plan.hold s x).state = s := rfl
@[simp] theorem Plan.state_err (s : State) (e : Ev) (n a : Nat) : (Plan.err s e n a).state = s := rfl

variable {q : List Instr} {s : State}

@[simp] theorem nextQueue_next : NextQueue q (.next s) ↔ s.pending = q := ⟨fun h => h.eq rfl, fun h => ⟨fun he => Host.Outcome.next.inj he ▸ h⟩⟩
@[simp] theorem someQueue_none : SomeQueue q none := ⟨fun he => nomatch he⟩
@[simp] theorem someQueue_some : SomeQueue q (some s) ↔ s.pending = q := ⟨fun h => h.eq rfl, fun h => ⟨fun he => Option.some.inj he ▸ h⟩⟩
@[simp] theorem pairQueue_none {α : Type} : PairQueue q (none : Option (State × α)) := ⟨fun he => nomatch he⟩
@[simp] theorem pairQueue_some {α : Type} {x : State × α} : PairQueue q (some x) ↔ x.1.pending = q :=
  ⟨fun h => h.eq rfl, fun h => ⟨fun he => Option.some.inj he ▸ h⟩⟩
@[simp] theorem leftQueue_inl {α : Type} : LeftQueue q (.inl s : State ⊕ α) ↔ s.pending = q :=
  ⟨fun h => h.eq rfl, fun h => ⟨fun he => Sum.inl.inj he ▸ h⟩⟩
@[simp] theorem leftQueue_inr {α : Type} (a : α) : LeftQueue q (.inr a) := ⟨fun he => nomatch he⟩

theorem nextQueue_ite {p : Prop} [Decidable p] {a b : Host.Outcome State Fault Refusal} (ha : NextQueue q a) (hb : NextQueue q b) :
    NextQueue q (if p then a else b) := by split <;> assumption

theorem someQueue_ite {p : Prop} [Decidable p] {a b : Option State} (ha : SomeQueue q a) (hb : SomeQueue q b) :
    SomeQueue q (if p then a else b) := by split <;> assumption

theorem leftQueue_ite {α : Type} {p : Prop} [Decidable p] {a b : State ⊕ α} (ha : LeftQueue q a) (hb : LeftQueue q b) :
    LeftQueue q (if p then a else b) := by split <;> assumption

/-- A choice whose two sides are the same. -/
theorem ite_of_both {α : Type} {p : Prop} [Decidable p] {a b c : α} (ha : a = c) (hb : b = c) : (if p then a else b) = c := by
  split <;> assumption

@[simp] theorem ite_pending {p : Prop} [Decidable p] (s t : State) : (if p then s else t).pending = if p then s.pending else t.pending :=
  apply_ite State.pending p s t

@[simp] theorem ite_fst_pending {α : Type} {p : Prop} [Decidable p] (x y : State × α) :
    (if p then x else y).1.pending = if p then x.1.pending else y.1.pending := apply_ite (fun x : State × α => x.1.pending) p x y

/-- Every step of a fold over states keeps the queue. -/
def KeepsQueue {α : Type} (f : State → α → State) : Prop := ∀ s a, (f s a).pending = s.pending
/-- Every step of a fold over states with a value keeps the queue. -/
def PairKeepsQueue {α β : Type} (f : State × β → α → State × β) : Prop := ∀ x a, (f x a).1.pending = x.1.pending

@[simp] theorem keepsQueue_iff {α : Type} (f : State → α → State) : KeepsQueue f ↔ ∀ s a, (f s a).pending = s.pending := Iff.rfl
@[simp] theorem pairKeepsQueue_iff {α β : Type} (f : State × β → α → State × β) :
    PairKeepsQueue f ↔ ∀ s b a, (f (s, b) a).1.pending = s.pending := ⟨fun h s b a => h (s, b) a, fun h x a => h x.1 x.2 a⟩

/-- A fold of steps that keep the queue keeps it. -/
@[simp] theorem foldl_pending {α : Type} {f : State → α → State} (hf : KeepsQueue f) (l : List α) (s : State) :
    (l.foldl f s).pending = s.pending := by
  induction l generalizing s with
  | nil => rfl
  | cons a l ih => exact (ih _).trans (hf s a)

@[simp] theorem foldl_fst_pending {α β : Type} {f : State × β → α → State × β} (hf : PairKeepsQueue f) (l : List α)
    (x : State × β) : (l.foldl f x).1.pending = x.1.pending := by
  induction l generalizing x with
  | nil => rfl
  | cons a l ih => exact (ih _).trans (hf x a)

theorem State.Paged.queue {t : State} (h : s.Paged t) : t.pending = s.pending := by rw [h.eq]
theorem State.Settled.queue {t : State} (h : s.Settled t) : t.pending = s.pending := by rw [h.eq]
theorem State.Pooled.queue {t : State} (h : s.Pooled t) : t.pending = s.pending := by rw [h.eq]
theorem State.Ran.queue {t : State} (h : s.Ran t) : t.pending = s.pending := by rw [h.eq]

theorem fst_pending {α : Type} {x : State × α} {a : α} (h : x = (s, a)) : s.pending = x.1.pending := by rw [h]

theorem SomeQueue.getD {o : Option State} (h : SomeQueue q o) (hs : s.pending = q) : (o.getD s).pending = q := by
  cases o with
  | none => exact hs
  | some t => exact h.eq rfl

theorem SomeQueue.bind {o : Option State} {g : State → Option State} (h : SomeQueue q o) (hg : ∀ t, t.pending = q → SomeQueue q (g t)) :
    SomeQueue q (o.bind g) := by
  cases o with
  | none => exact someQueue_none
  | some t => exact hg t (h.eq rfl)

theorem SomeQueue.foldlBind {α : Type} {f : State → α → Option State} {o : Option State} {l : List α} (h : SomeQueue q o)
    (hf : ∀ t a, t.pending = q → SomeQueue q (f t a)) : SomeQueue q (l.foldl (fun o i => o.bind fun s => f s i) o) := by
  induction l generalizing o with
  | nil => exact h
  | cons a l ih => exact ih (h.bind fun t ht => hf t a ht)

theorem SomeQueue.map {α : Type} {o : Option α} {g : α → State} (h : ∀ a, (g a).pending = q) : SomeQueue q (o.map g) := by
  cases o with
  | none => exact someQueue_none
  | some a => exact someQueue_some.mpr (h a)

theorem PairQueue.map {α β : Type} {o : Option (State × α)} {g : State × α → State × β} (h : PairQueue q o)
    (hg : ∀ x, (g x).1.pending = x.1.pending) : PairQueue q (o.map g) := by
  cases o with
  | none => exact pairQueue_none
  | some x => exact pairQueue_some.mpr ((hg x).trans (h.eq rfl))

theorem PairQueue.mapState {β : Type} {o : Option State} {g : State → State × β} (h : SomeQueue q o)
    (hg : ∀ t, (g t).1.pending = t.pending) : PairQueue q (o.map g) := by
  cases o with
  | none => exact pairQueue_none
  | some t => exact pairQueue_some.mpr ((hg t).trans (h.eq rfl))

theorem PairQueue.bind {α β : Type} {o : Option (State × α)} {g : State × α → Option (State × β)} (h : PairQueue q o)
    (hg : ∀ x, x.1.pending = q → PairQueue q (g x)) : PairQueue q (o.bind g) := by
  cases o with
  | none => exact pairQueue_none
  | some x => exact hg x (h.eq rfl)

theorem PairQueue.foldlBind {α β : Type} {f : State × α → β → Option (State × α)} {o : Option (State × α)} {l : List β}
    (h : PairQueue q o) (hf : ∀ x b, x.1.pending = q → PairQueue q (f x b)) :
    PairQueue q (l.foldl (fun o i => o.bind fun x => f x i) o) := by
  induction l generalizing o with
  | nil => exact h
  | cons a l ih => exact ih (h.bind fun x hx => hf x a hx)

end Sys2Proof.Machine
end

