-- ==== Sys2Proof/Proofs/QueueOfState.lean ====
section
/-!
The queue of waiting commands (00 R12), part 1 of 8: the state's parts, scratchpads, slices and outer memory, the channels, the tables and
a core's arithmetic leave it as it was. The lemmas stand in the order of the model.
-/

namespace Sys2Proof.Machine

@[simp] theorem State.modQp_pending (s : State) (q : Nat) (f : Qp → Qp) : (State.modQp s q f).pending = s.pending := by
  unfold State.modQp
  split <;> rfl

@[simp] theorem State.modTask_pending (s : State) (id : Nat) (f : Task → Task) : (State.modTask s id f).pending = s.pending := by
  unfold State.modTask
  split <;> rfl

@[simp] theorem State.writeRecord_pending (s : State) (r : ErrRec) : (State.writeRecord s r).pending = s.pending := by
  unfold State.writeRecord
  split <;> rfl

@[simp] theorem State.settleSession_pending (s : State) : (State.settleSession s).pending = s.pending := by
  unfold State.settleSession
  split <;> rfl

@[simp] theorem State.respond_pending (s : State) (h0 : CmdHdr) (op status : Nat) (effect : Bool) (detail : Word) (results : List Byte) :
    (State.respond s h0 op status effect detail results).pending = s.pending := by
  unfold State.respond
  split <;> simp

@[simp] theorem State.sliceOutcome_pending (s : State) (c unit : Nat) (o : RdOut) :
    (State.sliceOutcome s c unit o).pending = s.pending := by
  unfold State.sliceOutcome
  dsimp only
  (repeat' split) <;> simp

@[simp] theorem State.readCodeword_pending (s : State) (c unit : Nat) : (State.readCodeword s c unit).1.pending = s.pending := by
  unfold State.readCodeword
  dsimp only
  split <;> simp

@[simp] theorem State.readCodewords_pending (s : State) (c : Nat) (us : List Nat) : (s.readCodewords c us).1.pending = s.pending := by
  induction us generalizing s with
  | nil => rfl
  | cons u us ih => exact (ih _).trans (s.readCodeword_pending c u)

@[simp] theorem State.outerEvent_pending (s : State) (m : Nat) (e0 : Ev) (a : Nat) (count : Nat) :
    (State.outerEvent s m e0 a count).pending = s.pending := by simp [State.outerEvent]

@[simp] theorem State.reportDie_pending (s : State) (m bank a n : Nat) : (State.reportDie s m bank a n).pending = s.pending := rfl

@[simp] theorem State.countDie_pending (s : State) (m unit n : Nat) : (State.countDie s m unit n).pending = s.pending := by
  unfold State.countDie
  dsimp only
  (repeat' split) <;> simp

@[simp] theorem State.countOuterUe_pending (s : State) (m unit : Nat) : (State.countOuterUe s m unit).pending = s.pending := rfl

@[simp] theorem State.readOuterUnit_pending (s : State) (m unit : Nat) :
    (State.readOuterUnit s m unit).1.pending = s.pending := by simp [State.readOuterUnit]

@[simp] theorem State.readOuterUnits_pending (s : State) (m : Nat) (l : List Nat) : (s.readOuterUnits m l).1.pending = s.pending := by
  induction l generalizing s with
  | nil => rfl
  | cons u l ih =>
    unfold State.readOuterUnits
    have h := s.readOuterUnit_pending m u
    generalize s.readOuterUnit m u = x at h ⊢
    exact (ih x.1).trans h

@[simp] theorem State.visit_pending (s : State) (a n : Nat) : (State.visit s a n).pending = s.pending := by
  unfold State.visit
  refine (foldl_pending (fun s a => ?_) _ _).trans ?_
  · split <;> simp
  · simp

@[simp] theorem State.readRange_pending (s : State) (a len : Nat) : (State.readRange s a len).1.pending = s.pending := by
  unfold State.readRange
  split <;> simp

@[simp] theorem State.overwrite_pending (s : State) (m unit : Nat) : (State.overwrite s m unit).pending = s.pending := by
  unfold State.overwrite
  split <;> rfl

@[simp] theorem State.writeUnit_pending (s : State) (a : Nat) (bs : List Byte) (p : Bool) :
    (State.writeUnit s a bs p).pending = s.pending := by
  unfold State.writeUnit
  split <;> simp

@[simp] theorem State.writeUnits_pending (s : State) (n a : Nat) (bs : List Byte) (ps : List Bool) :
    (s.writeUnits n a bs ps).pending = s.pending := by
  induction n generalizing s a bs ps with
  | zero => rfl
  | succ n ih =>
    unfold State.writeUnits
    split
    · rfl
    · exact (ih ..).trans (s.writeUnit_pending ..)

@[simp] theorem State.writeRange_pending (s : State) (a : Nat) (bs : List Byte) (ps : List Bool) :
    (State.writeRange s a bs ps).pending = s.pending := by simp [State.writeRange]

@[simp] theorem State.flushRecords_pending (s : State) : (State.flushRecords s).pending = s.pending := by simp [State.flushRecords]

@[simp] theorem State.countBusy_pending (s : State) (a : Nat) (x : Ans) : (State.countBusy s a x).pending = s.pending := by
  unfold State.countBusy
  split <;> simp

@[simp] theorem State.nakSource_pending (s : State) (p : LPacket) (status : Nat) : (State.nakSource s p status).pending = s.pending := rfl

@[simp] theorem State.spStore_pending (s : State) (c a : Nat) (bs : List Byte) (ps : List Bool) :
    (State.spStore s c a bs ps).pending = s.pending := rfl

@[simp] theorem State.storeElems_pending (s : State) (c : Nat) (o : Opnd) (r : Nat) (xs : List (Nat × Bool)) :
    (State.storeElems s c o r xs).pending = s.pending := rfl

@[simp] theorem State.storeRowsAt_pending (s : State) (c : Nat) (o : Opnd) (rows : List (List (Nat × Bool))) :
    (s.storeRowsAt c o rows).pending = s.pending := by
  unfold State.storeRowsAt
  exact foldl_pending (fun s x => State.storeElems_pending ..) _ _

@[simp] theorem State.vBinary_pending (s : State) (c : Nat) (w : IFields) (f : Val → Val → Val) :
    (State.vBinary s c w f).pending = s.pending := by simp [State.vBinary]

@[simp] theorem State.vFma_pending (s : State) (c : Nat) (w : IFields) : (State.vFma s c w).pending = s.pending := by simp [State.vFma]

@[simp] theorem State.vCmpGt_pending (s : State) (c : Nat) (w : IFields) :
    (State.vCmpGt s c w).pending = s.pending := by simp [State.vCmpGt]

@[simp] theorem State.vUnary_pending (s : State) (c : Nat) (w : IFields) (f : Nat → Nat → Nat → Nat) :
    (State.vUnary s c w f).pending = s.pending := by simp [State.vUnary]

@[simp] theorem State.vCvt_pending (s : State) (c : Nat) (w : IFields) : (State.vCvt s c w).pending = s.pending := by simp [State.vCvt]

@[simp] theorem State.vCopy_pending (s : State) (c : Nat) (w : IFields) : (State.vCopy s c w).pending = s.pending := by simp [State.vCopy]

@[simp] theorem State.vSpecial_pending (s : State) (c : Nat) (w : IFields) (f : Val → Word) :
    (State.vSpecial s c w f).pending = s.pending := by simp [State.vSpecial]

@[simp] theorem State.vReduce_pending (s : State) (c : Nat) (w : IFields) (f : List Val → Val) :
    (State.vReduce s c w f).pending = s.pending := rfl

@[simp] theorem State.vInt_pending (s : State) (c : Nat) (w : IFields) (f : Word → Word → Word) :
    (State.vInt s c w f).pending = s.pending := by simp [State.vInt]

@[simp] theorem State.vAccAdd_pending (s : State) (c : Nat) (w : IFields) :
    (State.vAccAdd s c w).pending = s.pending := by simp [State.vAccAdd]

@[simp] theorem State.vRand_pending (s : State) (c : Nat) (w : IFields) : (State.vRand s c w).pending = s.pending := by simp [State.vRand]

@[simp] theorem State.vecOp_pending (s : State) (c op : Nat) (w : IFields) : (State.vecOp s c op w).pending = s.pending := by
  unfold State.vecOp
  split <;> simp

@[simp] theorem State.aclr_pending (s : State) (c : Nat) (w : IFields) : (State.aclr s c w).pending = s.pending := rfl

@[simp] theorem State.cmma_pending (s : State) (c : Nat) (w : IFields) : (State.cmma s c w).state.pending = s.pending := by
  unfold State.cmma
  dsimp only
  split <;> simp

@[simp] theorem State.ccvt_pending (s : State) (c : Nat) (w : IFields) : (State.ccvt s c w).pending = s.pending := by simp [State.ccvt]

@[simp] theorem State.accst_pending (s : State) (c : Nat) (w : IFields) : (s.accst c w).state.pending = s.pending := by
  unfold State.accst
  dsimp only
  split
  · rfl
  · exact foldl_pending (fun s i => s.storeElems_pending ..) _ _

@[simp] theorem State.accld_pending (s : State) (c : Nat) (w : IFields) : (State.accld s c w).state.pending = s.pending := by
  unfold State.accld
  dsimp only
  split <;> simp

@[simp] theorem State.cubeOp_pending (s : State) (c op : Nat) (w : IFields) : (State.cubeOp s c op w).state.pending = s.pending := by
  unfold State.cubeOp
  split <;> simp

@[simp] theorem State.inboxUpdate_pending (s : State) : (State.inboxUpdate s).pending = s.pending := rfl

@[simp] theorem State.onChannel_pending (s : State) (ep i : Nat) (f : Channel → Channel) :
    (State.onChannel s ep i f).pending = s.pending := rfl

@[simp] theorem State.abortPackets_pending (s : State) (cd : Nat) : (State.abortPackets s cd).pending = s.pending := rfl

@[simp] theorem State.loseChannels_pending (s : State) (cd : Nat) : (State.loseChannels s cd).pending = s.pending := rfl

@[simp] theorem State.loseHubChannels_pending (s : State) (ep : Nat) : (State.loseHubChannels s ep).pending = s.pending := rfl

@[simp] theorem State.countResetting_pending (s : State) (cd : Nat) : (State.countResetting s cd).pending = s.pending := rfl

@[simp] theorem State.countFenced_pending (s : State) (cd : Nat) : (State.countFenced s cd).pending = s.pending := rfl

@[simp] theorem execChannelOpenRequest_queue (s : State) (ep i producer : Nat) :
    NextQueue s.pending (execChannelOpenRequest ep i producer s) := by
  unfold execChannelOpenRequest
  dsimp only
  (repeat' split) <;> simp

@[simp] theorem execChannelGrant_queue (s : State) (ep i : Nat) : NextQueue s.pending (execChannelGrant ep i s) := by
  unfold execChannelGrant
  dsimp only
  (repeat' split) <;> simp

@[simp] theorem execChannelWord_queue (s : State) (ep i producer : Nat) (data : List Byte) (kind : WordKind) (poison : Bool) :
    NextQueue s.pending (execChannelWord ep i producer data kind poison s) := by
  unfold execChannelWord
  dsimp only
  (repeat' split) <;> simp

@[simp] theorem execChannelWordRead_queue (s : State) (ep i : Nat) : NextQueue s.pending (execChannelWordRead ep i s) := by
  unfold execChannelWordRead
  dsimp only
  (repeat' split) <;> simp

@[simp] theorem execFlush_queue (s : State) (ep i : Nat) : NextQueue s.pending (execFlush ep i s) := nextQueue_next.mpr rfl

@[simp] theorem execPacketAbort_queue (s : State) (ep i producer : Nat) :
    NextQueue s.pending (execPacketAbort ep i producer s) := nextQueue_next.mpr rfl

@[simp] theorem execChnCfgWrite_queue (s : State) (ep i : Nat) (value : Dword) : NextQueue s.pending (execChnCfgWrite ep i value s) := by
  unfold execChnCfgWrite
  dsimp only
  (repeat' split) <;> simp

@[simp] theorem execFlitCrcReplay_queue (s : State) (cd dir : Nat) :
    NextQueue s.pending (execFlitCrcReplay cd dir s) := by simp [execFlitCrcReplay]

@[simp] theorem execClusterRelease_queue (s : State) (cd : Nat) : NextQueue s.pending (execClusterRelease cd s) := by
  unfold execClusterRelease
  split <;> simp

@[simp] theorem State.copyData_pending (s : State) (src dst n more : Nat) :
    (State.copyData s src dst n more).pending = s.pending := by simp [State.copyData]

@[simp] theorem State.modContext_pending (s : State) (id : Nat) (f : Context → Context) :
    (State.modContext s id f).pending = s.pending := by
  unfold State.modContext
  split <;> rfl

@[simp] theorem State.syncTables_pending (s : State) (ctx : Nat) (tok : Nat → Option Nat) : (s.syncTables ctx tok).pending = s.pending :=
  (State.Paged.syncTables (.refl s) ctx tok).queue

@[simp] theorem State.syncPage_pending (s : State) (a : Nat) : (State.syncPage s a).pending = s.pending := by simp [State.syncPage]

@[simp] theorem State.bumpPage_pending (s : State) (a : Nat) : (State.bumpPage s a).pending = s.pending := by
  unfold State.bumpPage
  split <;> simp

@[simp] theorem State.holdPage_pending (s : State) (a : Nat) : (State.holdPage s a).pending = s.pending := by
  unfold State.holdPage
  split <;> simp

@[simp] theorem State.dropPage_pending (s : State) (a : Nat) : (State.dropPage s a).pending = s.pending := by
  unfold State.dropPage
  split <;> simp

theorem State.allocKv_queue (s : State) (k : KvTable) (log2 : Nat) (scale : Option Nat) : PairQueue s.pending (s.allocKv k log2 scale) :=
  ⟨fun hx => (State.Paged.allocKv (.refl s) hx).queue⟩

theorem State.growTable_queue (s : State) (k : KvTable) (shadow : Bool) (scale : Option Nat) (new : List (Nat × Nat)) :
    PairQueue s.pending (s.growTable k shadow scale new) := ⟨fun hx => (State.Paged.growTable (.refl s) hx).queue⟩

theorem State.appendCtx_queue (s : State) (id n : Nat) (scale : Option Nat) : SomeQueue s.pending (s.appendCtx id n scale) :=
  ⟨fun hx => (State.Settled.appendCtx (.refl s) hx).queue⟩

theorem State.shadowAppend_queue (s : State) (id epoch n : Nat) (scale : Option Nat) :
    SomeQueue s.pending (s.shadowAppend id epoch n scale) := ⟨fun hx => (State.Settled.shadowAppend (.refl s) hx).queue⟩

@[simp] theorem State.endShadow_pending (s : State) (id epoch a : Nat) : (State.endShadow s id epoch a).pending = s.pending := by
  unfold State.endShadow
  (repeat' split) <;> simp

@[simp] theorem State.prepareTask_pending (s : State) (id : Nat) : (s.prepareTask id).pending = s.pending :=
  (State.Settled.prepareTask (.refl s) id).queue

@[simp] theorem State.storeJournal_pending (s : State) (id : Nat) : (State.storeJournal s id).pending = s.pending := by
  unfold State.storeJournal
  split <;> simp

@[simp] theorem State.writeJournal_pending (s : State) (id : Nat) :
    (State.writeJournal s id).pending = s.pending := by simp [State.writeJournal]

@[simp] theorem State.flushJournal_pending (s : State) : (State.flushJournal s).pending = s.pending := by simp [State.flushJournal]

@[simp] theorem State.setOutputs_pending (s : State) (t0 : Task) (st : RState) :
    (State.setOutputs s t0 st).pending = s.pending := by simp [State.setOutputs]

@[simp] theorem State.leaveReady_pending (s : State) (t0 : Task) : (State.leaveReady s t0).pending = s.pending := by
  unfold State.leaveReady
  split <;> simp

@[simp] theorem State.finishTask_pending (s : State) (id : Nat) (st : TState) (status : Nat) :
    (State.finishTask s id st status).pending = s.pending := by
  unfold State.finishTask
  (repeat' split) <;> simp

@[simp] theorem State.settleTask_pending (s : State) (id : Nat) : (State.settleTask s id).pending = s.pending := by
  unfold State.settleTask
  dsimp only
  (repeat' split) <;> simp

@[simp] theorem State.settle_pending (s : State) : (State.settle s).pending = s.pending := by simp [State.settle]

@[simp] theorem State.logPoisoned_pending (s : State) (t0 : Task) : (State.logPoisoned s t0).pending = s.pending := by
  unfold State.logPoisoned
  split <;> rfl

@[simp] theorem State.endIfDone_pending (s : State) (id : Nat) : (State.endIfDone s id).pending = s.pending := by
  unfold State.endIfDone
  split <;> simp

@[simp] theorem State.clusterDone_pending (s : State) (cd : Nat) : (State.clusterDone s cd).pending = s.pending := by
  unfold State.clusterDone
  (repeat' split) <;> simp

@[simp] theorem State.waveEnd_pending (s : State) (id : Nat) (w : Wave) (tok : Token) : (s.waveEnd id w tok).pending = s.pending := by
  unfold State.waveEnd
  split
  · rfl
  · dsimp only
    rw [State.endIfDone_pending]
    refine (foldl_pending (fun s o => ?_) _ _).trans (State.modTask_pending ..)
    rfl

@[simp] theorem State.tokenArrive_pending (s : State) (id num node : Nat) (tok : Token) :
    (State.tokenArrive s id num node tok).pending = s.pending := by
  unfold State.tokenArrive
  (repeat' split) <;> simp

@[simp] theorem State.modItem_pending (s : State) (c : Nat) (e0 : Engine) (seq : Nat) (f : QItem → QItem) :
    (State.modItem s c e0 seq f).pending = s.pending := rfl

@[simp] theorem State.stopCluster_pending (s : State) (cd status : Nat) : (State.stopCluster s cd status).pending = s.pending := by
  unfold State.stopCluster
  (repeat' split) <;> simp

@[simp] theorem State.failShares_pending (s : State) (id status : Nat) : (State.failShares s id status).pending = s.pending := by
  unfold State.failShares
  split <;> simp

@[simp] theorem State.stopTask_pending (s : State) (id status : Nat) :
    (State.stopTask s id status).pending = s.pending := by simp [State.stopTask]

@[simp] theorem State.doom_pending (s : State) (e0 : Nat) : (State.doom s e0).pending = s.pending := by
  unfold State.doom
  split <;> simp

@[simp] theorem State.dropWaves_pending (s : State) (id : Nat) : (s.dropWaves id).pending = s.pending :=
  (State.Ran.dropWaves (.refl s) id).queue

@[simp] theorem State.discardEpoch_pending (s : State) (e status : Nat) : (s.discardEpoch e status).pending = s.pending :=
  (State.Ran.discardEpoch (.refl s) e status).queue

@[simp] theorem State.taskError_pending (s : State) (c : Nat) (ev : Ev) (status offset address : Nat) (partner : Nat) :
    (State.taskError s c ev status offset address partner).pending = s.pending := by
  unfold State.taskError
  dsimp only
  split <;> simp

@[simp] theorem State.noteWave_pending (s : State) (t0 : Task) : (State.noteWave s t0).pending = s.pending := rfl

@[simp] theorem State.writeDescs_pending (s : State) (c : Nat) (t0 : Task) (p : Nat) : (State.writeDescs s c t0 p).pending = s.pending := by
  unfold State.writeDescs
  (repeat' split) <;> simp

@[simp] theorem State.startCore_pending (s : State) (c : Nat) (t0 : Task) (num p : Nat) :
    (State.startCore s c t0 num p).pending = s.pending := by simp [State.startCore]

@[simp] theorem State.startOn_pending (s : State) (t0 : Task) (w : Wave) (cd : Nat) :
    (State.startOn s t0 w cd).pending = s.pending := by simp [State.startOn]

end Sys2Proof.Machine
end

