-- ==== Sys2Proof/Proofs/QueueOfEngines.lean ====
section
/-!
The queue of waiting commands (00 R12), part 2 of 8: images and weights, proboscis operations, the engines' queues, dispatch and the first
instructions leave it as it was. The lemmas stand in the order of the model.
-/

namespace Sys2Proof.Machine

@[simp] theorem State.writeImage_pending (s : State) (im : List (Nat × Nat)) (bs : List Byte) :
    (State.writeImage s im bs).pending = s.pending := by simp [State.writeImage]

@[simp] theorem State.copyParts_pending (s : State) (parts : List (Nat × Nat)) (dst : Nat) :
    (State.copyParts s parts dst).pending = s.pending := by simp [State.copyParts]

@[simp] theorem State.relocate_pending (s : State) (p : Placed) (addr : Nat) :
    (State.relocate s p addr).pending = s.pending := by simp [State.relocate]

@[simp] theorem State.placeTensor_queue (s : State) (pr : Program) (h0 : Handle) (nc : Nat) (cds : List Nat) (affinity : Nat) :
    SomeQueue s.pending (s.placeTensor pr h0 nc cds affinity) := ⟨fun ht => (State.Pooled.placeTensor ht).queue⟩

@[simp] theorem State.placePools_queue (s : State) (model : Nat) : SomeQueue s.pending (s.placePools model) := by
  unfold State.placePools
  refine SomeQueue.foldlBind (someQueue_some.mpr rfl) fun t sl ht => ?_
  split
  · exact someQueue_some.mpr ht
  · exact SomeQueue.foldlBind (someQueue_some.mpr ht) fun u id hu => hu ▸ u.placeTensor_queue _ _ _ _ _

@[simp] theorem State.makeShadows_pending (s : State) (epoch : Nat) (h0 : Handle) :
    (State.makeShadows s epoch h0).pending = s.pending := by simp [State.makeShadows]

@[simp] theorem State.modModel_pending (s : State) (i : Nat) (f : Model → Model) : (State.modModel s i f).pending = s.pending := by
  unfold State.modModel
  split <;> rfl

@[simp] theorem State.demote_pending (s : State) (i : Nat) : (s.demote i).pending = s.pending := by
  unfold State.demote
  split
  · rfl
  · dsimp only
    rw [State.modModel_pending]
    refine foldl_pending (fun s p => ?_) _ _
    (repeat' split) <;> simp

@[simp] theorem State.promote_pending (s : State) (i : Nat) : (s.promote i).pending = s.pending := by
  unfold State.promote
  split
  · rfl
  · dsimp only
    rw [State.modModel_pending]
    refine foldl_pending (fun s p => ?_) _ _
    split <;> simp

@[simp] theorem State.lowerPools_pending (s : State) (ctx : Nat) : (s.lowerPools ctx).pending = s.pending := by
  unfold State.lowerPools
  split
  · rfl
  · refine foldl_pending (fun s p => ?_) _ _
    split <;> simp

@[simp] theorem State.spillCtx_pending (s : State) (ctx : Nat) : (State.spillCtx s ctx).pending = s.pending := by
  unfold State.spillCtx
  split <;> simp

@[simp] theorem State.restoreTable_queue (s : State) (t : KvTable) : PairQueue s.pending (s.restoreTable t) :=
  PairQueue.foldlBind (pairQueue_some.mpr rfl) fun x b hx => PairQueue.map (hx ▸ x.1.allocKv_queue _ _ _) fun z => by simp

@[simp] theorem State.restoreCtx_pending (s : State) (ctx : Nat) : (s.restoreCtx ctx).pending = s.pending := by
  unfold State.restoreCtx
  split
  · rfl
  · split
    · rfl
    · split
      · rfl
      next x hx =>
        have h : x.1.pending = s.pending := (PairQueue.foldlBind
          (f := fun (y : State × List KvTable) t => (y.1.restoreTable t).map fun z => (z.1, y.2 ++ [z.2])) (pairQueue_some.mpr rfl)
          (fun y t hy => PairQueue.map (hy ▸ y.1.restoreTable_queue t) fun _ => rfl)).eq hx
        simp [h]

@[simp] theorem State.dropWeights_pending (s : State) (m : Model) : (State.dropWeights s m).pending = s.pending := rfl

@[simp] theorem State.dropImage_pending (s : State) (i : Nat) : (State.dropImage s i).pending = s.pending := by
  unfold State.dropImage
  split <;> simp

@[simp] theorem State.freeOnce_queue (s : State) : SomeQueue s.pending s.freeOnce := by
  unfold State.freeOnce
  repeat' split
  · simp
  · simp
  · simp
  · simp
  · exact SomeQueue.map fun a => s.dropImage_pending a

/-- Freeing space until something has room keeps the queue. -/
theorem State.freeUntil_pending {α : Type} (s : State) (room : State → Bool) (l : List α) :
    (l.foldl (fun s _ => if room s then s else s.freeOnce.getD s) s).pending = s.pending := by
  refine foldl_pending (fun s _ => ?_) l s
  split
  · rfl
  · exact s.freeOnce_queue.getD rfl

@[simp] theorem State.reply_pending (s : State) (g : Agent) (status : Nat) : (State.reply s g status).pending = s.pending := rfl

@[simp] theorem State.engineError_pending (s : State) (c : Nat) (e0 : Engine) (ev : Ev) (status a : Nat) :
    (State.engineError s c e0 ev status a).pending = s.pending := by simp [State.engineError]

@[simp] theorem State.accessFault_pending (s : State) (g : Agent) (a : Nat) (ev : Ev) :
    (State.accessFault s g a ev).pending = s.pending := by
  unfold State.accessFault
  split <;> simp

@[simp] theorem State.probRecord_pending (s : State) (m addr status port : Nat) (flags : BitVec 9) :
    (State.probRecord s m addr status port flags).pending = s.pending := by simp [State.probRecord]

@[simp] theorem State.passOp_pending (s : State) (epoch w : Nat) : (State.passOp s epoch w).pending = s.pending := rfl

@[simp] theorem State.probSubmit_pending (s : State) (m port : Nat) (core : Option Nat) (epoch : Nat) (record : List Byte) (poison : Bool) (reply : Option LPacket) :
    (State.probSubmit s m port core epoch record poison reply).1.pending = s.pending := by
  unfold State.probSubmit
  (repeat' split) <;> simp

@[simp] theorem State.probStore_pending (s : State) (r : ProbRec) (poisonAll : Bool) :
    (State.probStore s r poisonAll).1.pending = s.pending := by simp [State.probStore]

@[simp] theorem State.probAck_pending (s : State) (m : Nat) (o : ProbOp) : (State.probAck s m o).pending = s.pending := by
  unfold State.probAck
  (repeat' split) <;> simp

@[simp] theorem State.probPublish_pending (s : State) (m : Nat) (o : ProbOp) (timeout : Bool) :
    (s.probPublish m o timeout).pending = s.pending := by
  unfold State.probPublish
  dsimp only
  generalize hx : State.probStore _ _ timeout = x
  obtain ⟨s1, flags⟩ := x
  have h : s1.pending = s.pending := (fst_pending hx).trans (by simp)
  dsimp only
  split <;> simp [h]

theorem execProboscisSubmit_queue (s : State) (m port : Nat) (record : List Byte) (poison : Bool) (c : Option Nat) :
    NextQueue s.pending (execProboscisSubmit m port record poison c s) := by
  unfold execProboscisSubmit
  split
  · simp
  · dsimp only
    split
    · simp
    · split
      all_goals
        next hx =>
          have h := (fst_pending hx).trans (s.probSubmit_pending ..)
          (repeat' split) <;> simp [h]

@[simp] theorem execProboscisStart_queue (s : State) (m : Nat) : NextQueue s.pending (execProboscisStart m s) := by
  unfold execProboscisStart
  dsimp only
  (repeat' split) <;> simp

@[simp] theorem execRotationWindow_queue (s : State) (m : Nat) : NextQueue s.pending (execRotationWindow m s) := nextQueue_next.mpr rfl

@[simp] theorem execProboscisPublish_queue (s : State) (m port : Nat) : NextQueue s.pending (execProboscisPublish m port s) := by
  unfold execProboscisPublish
  split <;> simp

@[simp] theorem execProboscisTimeout_queue (s : State) (m port : Nat) : NextQueue s.pending (execProboscisTimeout m port s) := by
  unfold execProboscisTimeout
  split <;> simp

@[simp] theorem State.readEntry_pending (s : State) (g : Agent) (q : QItem) (e0 : Nat) :
    (State.readEntry s g q e0).1.pending = s.pending := by
  unfold State.readEntry
  dsimp only
  (repeat' split) <;> simp

@[simp] theorem State.walk_pending (s : State) (g : Agent) (q : QItem) (last f e p : Nat) :
    (s.walk g q last f e p).1.pending = s.pending := by
  induction f generalizing s e p with
  | zero => rfl
  | succ f ih =>
    unfold State.walk
    have h := s.readEntry_pending g q e
    dsimp only
    split
    · rfl
    · (repeat' split) <;> simp_all

@[simp] theorem State.refusedAs_pending (s : State) (x : Ans) (a : Nat) : (s.refusedAs x a).state.pending = s.pending := by
  unfold State.refusedAs
  split
  · split <;> simp
  · simp

@[simp] theorem State.fetchDesc_pending (s : State) (c slot : Nat) :
    (State.fetchDesc s c slot).1.pending = s.pending := by simp [State.fetchDesc]

@[simp] theorem State.readDescs_pending (s : State) (c : Nat) (q : QItem) :
    (State.readDescs s c q).1.pending = s.pending := by simp [State.readDescs]

@[simp] theorem State.planGPage_pending (s : State) (c : Nat) (q : QItem) : (s.planGPage c q).state.pending = s.pending := by
  unfold State.planGPage
  dsimp only
  split
  · rfl
  · generalize hx : s.walk _ q _ _ _ _ = x
    obtain ⟨s0, more, res⟩ := x
    have h := (fst_pending hx).trans (s.walk_pending ..)
    cases res <;> simp [h]

@[simp] theorem State.planRows_pending (s : State) (c : Nat) (q : QItem) : (s.planRows c q).state.pending = s.pending := by
  unfold State.planRows
  dsimp only
  (repeat' split) <;> simp

@[simp] theorem State.noteInstar_pending (s : State) (c : Nat) (e0 : Engine) (seq page : Nat) (i : Word) :
    (State.noteInstar s c e0 seq page i).pending = s.pending := rfl

@[simp] theorem State.sendRemote_pending (s : State) (c : Nat) (e0 : Engine) (seq dest : Nat) (p : LPacket) (entry : Option Nat) :
    (State.sendRemote s c e0 seq dest p entry).pending = s.pending := by simp [State.sendRemote]

@[simp] theorem State.reissue_pending (s : State) (c : Nat) (q : QItem) : (State.reissue s c q).pending = s.pending := by
  unfold State.reissue
  split <;> rfl

@[simp] theorem State.judge_pending (s : State) (c seq : Nat) (reads : List Nat) : (s.judge c seq reads).1.pending = s.pending := by
  refine foldl_fst_pending (fun x l => ?_) _ (s, true)
  dsimp only
  split
  · simp
  · split
    · rfl
    · split <;> simp

@[simp] theorem State.runXV_pending (s : State) (c op : Nat) (w : IFields) (off seq : Nat) :
    (s.runXV c op w off seq).pending = s.pending := by
  unfold State.runXV
  dsimp only
  split
  · have h := s.cubeOp_pending c op w
    split <;> simp_all
  · simp

@[simp] theorem State.runMembers_pending (s : State) (c : Nat) (l : List (Nat × Nat × IFields × Nat)) :
    (s.runMembers c l).pending = s.pending := by
  induction l generalizing s with
  | nil => rfl
  | cons m l ih =>
    unfold State.runMembers
    split
    · rfl
    · exact (ih _).trans (by simp)

@[simp] theorem State.hitChain_pending (s : State) (c : Nat) (units : List Nat) : (State.hitChain s c units).pending = s.pending := by
  unfold State.hitChain
  (repeat' split) <;> simp

@[simp] theorem State.landed_pending (s : State) (a len : Nat) : (State.landed s a len).pending = s.pending := by
  unfold State.landed
  split <;> simp

@[simp] theorem State.loadRow_pending (s : State) (c : Nat) (e0 : Engine) (q : QItem) (r a : Nat) :
    (State.loadRow s c e0 q r a).pending = s.pending := by simp [State.loadRow]

@[simp] theorem State.storeRow_pending (s : State) (c : Nat) (q : QItem) (r a : Nat) :
    (State.storeRow s c q r a).pending = s.pending := by simp [State.storeRow]

@[simp] theorem State.moveRows_pending (s : State) (c : Nat) (e : Engine) (q : QItem) (r : Nat) (l : List (Nat × Option Int)) :
    (s.moveRows c e q r l).state.pending = s.pending := by
  induction l generalizing s r with
  | nil => rfl
  | cons x l ih =>
    obtain ⟨i, a⟩ := x
    cases a with
    | none =>
      unfold State.moveRows
      rw [ih]
      split <;> simp
    | some a =>
      unfold State.moveRows
      split
      · rfl
      · split
        · rfl
        · split
          · dsimp only
            split
            all_goals
              next hx =>
                have h := (fst_pending hx).trans (s.probSubmit_pending ..)
                (repeat' split) <;> simp [h]
          · split
            · split
              · rfl
              · rw [ih]
                split <;> simp
            · simp
            · split <;> simp

@[simp] theorem State.sendRows_pending (s : State) (c : Nat) (e : Engine) (q : QItem) (dev r : Nat) (l : List (Option Int)) :
    (s.sendRows c e q dev r l).state.pending = s.pending := by
  induction l generalizing s r with
  | nil => rfl
  | cons a l ih =>
    cases a with
    | none =>
      unfold State.sendRows
      rw [ih]
      split <;> simp
    | some a =>
      unfold State.sendRows
      dsimp only
      split
      · rfl
      · rw [ih]
        split
        · refine foldl_pending (fun s x => ?_) _ _
          simp
        · refine (State.modCore_pending ..).trans (foldl_pending (fun s x => ?_) _ _)
          simp

@[simp] theorem State.issueRead_pending (s : State) (qp : Nat) (r : OutRead) : (State.issueRead s qp r).pending = s.pending := by
  unfold State.issueRead
  split <;> simp

@[simp] theorem State.sendWrite_pending (s : State) (qp : Nat) (w : OutWrite) :
    (State.sendWrite s qp w).pending = s.pending := by simp [State.sendWrite]

@[simp] theorem State.hostLoad_pending (s : State) (c : Nat) (e : Engine) (q : QItem) (win : Win) (r : Nat) (l : List (Option Int)) :
    (s.hostLoad c e q win r l).state.pending = s.pending := by
  induction l generalizing s r with
  | nil => rfl
  | cons a l ih =>
    cases a with
    | none => exact (ih _ _).trans (s.spStore_pending ..)
    | some a => exact s.issueRead_pending ..

@[simp] theorem State.hostStore_pending (s : State) (c : Nat) (e : Engine) (q : QItem) (win : Win) (r : Nat) (l : List (Option Int)) :
    (s.hostStore c e q win r l).state.pending = s.pending := by
  induction l generalizing s r with
  | nil => rfl
  | cons a l ih =>
    cases a with
    | none => exact ih _ _
    | some a =>
      unfold State.hostStore
      dsimp only
      split
      · rfl
      · exact (ih _ _).trans (s.sendWrite_pending ..)

@[simp] theorem State.transfer_pending (s : State) (c : Nat) (e0 : Engine) (q : QItem) :
    (State.transfer s c e0 q).state.pending = s.pending := by
  unfold State.transfer
  dsimp only
  (repeat' split) <;> simp

@[simp] theorem State.moved_pending (s : State) (c : Nat) (e0 : Engine) (seq : Nat) : (State.moved s c e0 seq).pending = s.pending := by
  unfold State.moved
  split <;> simp

@[simp] theorem State.continueItem_pending (s : State) (c : Nat) (e : Engine) (seq : Nat) :
    (s.continueItem c e seq).pending = s.pending := by
  unfold State.continueItem
  split
  · rfl
  next q _ =>
    have h := s.transfer_pending c e q
    split <;> simp_all

@[simp] theorem State.askEntry_pending (s : State) (c : Nat) (e0 : Engine) (q : QItem) (n : Nat) :
    (State.askEntry s c e0 q n).pending = s.pending := by
  unfold State.askEntry
  dsimp only
  (repeat' split) <;> simp

@[simp] theorem State.startLong_pending (s : State) (c : Nat) (e : Engine) (seq : Nat) : (s.startLong c e seq).pending = s.pending := by
  unfold State.startLong
  split
  · rfl
  · split
    next hx =>
      have h := (fst_pending hx).trans (s.readDescs_pending ..)
      simp [h]
    next s0 q hx =>
      have h := (fst_pending hx).trans (s.readDescs_pending ..)
      have hp := s0.planRows_pending c q
      (repeat' split) <;> simp_all

@[simp] theorem State.wakeSlots_pending (s : State) (c : Nat) : (State.wakeSlots s c).pending = s.pending := by
  unfold State.wakeSlots
  refine (foldl_pending (fun s a => ?_) _ _).trans ?_
  · split <;> simp
  · simp

@[simp] theorem State.startQueue_pending (s : State) (c : Nat) (e : Engine) (n : Nat) : (s.startQueue c e n).pending = s.pending := by
  induction n generalizing s with
  | zero => rfl
  | succ n ih =>
    unfold State.startQueue
    dsimp only
    (repeat' split) <;> simp [ih]

@[simp] theorem State.enqueue_pending (s : State) (c : Nat) (e0 : Engine) (it : SItem) :
    (State.enqueue s c e0 it).pending = s.pending := by simp [State.enqueue]

@[simp] theorem State.endKernel_pending (s : State) (c : Nat) : (State.endKernel s c).pending = s.pending := by simp [State.endKernel]

@[simp] theorem State.tickCore_pending (s : State) (c : Nat) : (State.tickCore s c).pending = s.pending := rfl

@[simp] theorem State.dispatchHead_pending (s : State) (c : Nat) (it : SItem) (rest : List SItem) :
    (s.dispatchHead c it rest).1.pending = s.pending := by
  unfold State.dispatchHead
  dsimp only
  split
  case h_10 =>
    (repeat' split) <;> try simp only [State.modCore_pending]
    refine (foldl_pending (fun s m => ?_) _ _).trans (State.modCore_pending ..)
    split <;> simp
  all_goals (repeat' split) <;> simp

@[simp] theorem State.pumpN_pending (s : State) (n c : Nat) : (State.pumpN n s c).pending = s.pending := by
  induction n generalizing s with
  | zero => rfl
  | succ n ih =>
    unfold State.pumpN
    dsimp only
    split
    · rfl
    · split
      · rfl
      · rfl
      · rfl
      · rfl
      · split
        · rfl
        · split
          next hx => exact (ih _).trans ((fst_pending hx).trans (s.dispatchHead_pending ..))
          next hx => exact (fst_pending hx).trans (s.dispatchHead_pending ..)

@[simp] theorem State.pump_pending (s : State) (c : Nat) : (State.pump s c).pending = s.pending := by simp [State.pump]

@[simp] theorem State.completed_pending (s : State) (c : Nat) : (State.completed s c).pending = s.pending := by simp [State.completed]

@[simp] theorem State.fetch_queue (s : State) (c op : Nat) (w : IFields) : NextQueue s.pending (State.fetch s c op w) := by
  unfold State.fetch
  dsimp only
  split <;> simp

@[simp] theorem execNop_queue (s : State) (c : Nat) (w : IFields) : NextQueue s.pending (execNop c w s) := by simp [execNop]

@[simp] theorem execEndKernel_queue (s : State) (c : Nat) (w : IFields) :
    NextQueue s.pending (execEndKernel c w s) := by simp [execEndKernel]

@[simp] theorem execLoop_queue (s : State) (c : Nat) (w : IFields) : NextQueue s.pending (execLoop c w s) := by simp [execLoop]

@[simp] theorem execWaitq_queue (s : State) (c : Nat) (w : IFields) : NextQueue s.pending (execWaitq c w s) := by simp [execWaitq]

@[simp] theorem execDrain_queue (s : State) (c : Nat) (w : IFields) : NextQueue s.pending (execDrain c w s) := by simp [execDrain]

@[simp] theorem execBara_queue (s : State) (c : Nat) (w : IFields) : NextQueue s.pending (execBara c w s) := by simp [execBara]

@[simp] theorem execBarw_queue (s : State) (c : Nat) (w : IFields) : NextQueue s.pending (execBarw c w s) := by simp [execBarw]

@[simp] theorem execRdreg_queue (s : State) (c : Nat) (w : IFields) : NextQueue s.pending (execRdreg c w s) := by simp [execRdreg]

@[simp] theorem execPmark_queue (s : State) (c : Nat) (w : IFields) : NextQueue s.pending (execPmark c w s) := by simp [execPmark]

@[simp] theorem execChain_queue (s : State) (c : Nat) (w : IFields) : NextQueue s.pending (execChain c w s) := by simp [execChain]

@[simp] theorem State.resume_pending (s : State) (c : Nat) : (State.resume s c).pending = s.pending := by simp [State.resume]

@[simp] theorem execWaitqRelease_queue (s : State) (c : Nat) : NextQueue s.pending (execWaitqRelease c s) := by
  unfold execWaitqRelease
  (repeat' split) <;> simp

@[simp] theorem execDrainRelease_queue (s : State) (c : Nat) : NextQueue s.pending (execDrainRelease c s) := by
  unfold execDrainRelease
  (repeat' split) <;> simp

@[simp] theorem execSequencerStallRelease_queue (s : State) (c : Nat) : NextQueue s.pending (execSequencerStallRelease c s) := by
  unfold execSequencerStallRelease
  (repeat' split) <;> simp

@[simp] theorem execBarrierRelease_queue (s : State) (task cd id : Nat) (scope : Bool) :
    NextQueue s.pending (execBarrierRelease task cd id scope s) := by
  unfold execBarrierRelease
  dsimp only
  split <;> simp

@[simp] theorem execChainCycleZero_queue (s : State) (c : Nat) (offSchedule : Option Nat) :
    NextQueue s.pending (execChainCycleZero c offSchedule s) := by
  unfold execChainCycleZero
  dsimp only
  (repeat' split) <;> simp

@[simp] theorem execAclr_queue (s : State) (c : Nat) (w : IFields) : NextQueue s.pending (execAclr c w s) := by simp [execAclr]

@[simp] theorem execCmma_queue (s : State) (c : Nat) (w : IFields) : NextQueue s.pending (execCmma c w s) := by simp [execCmma]

@[simp] theorem execCcvt_queue (s : State) (c : Nat) (w : IFields) : NextQueue s.pending (execCcvt c w s) := by simp [execCcvt]

@[simp] theorem execAccst_queue (s : State) (c : Nat) (w : IFields) : NextQueue s.pending (execAccst c w s) := by simp [execAccst]

@[simp] theorem execAccld_queue (s : State) (c : Nat) (w : IFields) : NextQueue s.pending (execAccld c w s) := by simp [execAccld]

@[simp] theorem execVadd_queue (s : State) (c : Nat) (w : IFields) : NextQueue s.pending (execVadd c w s) := by simp [execVadd]

@[simp] theorem execVsub_queue (s : State) (c : Nat) (w : IFields) : NextQueue s.pending (execVsub c w s) := by simp [execVsub]

@[simp] theorem execVmul_queue (s : State) (c : Nat) (w : IFields) : NextQueue s.pending (execVmul c w s) := by simp [execVmul]

@[simp] theorem execVfma_queue (s : State) (c : Nat) (w : IFields) : NextQueue s.pending (execVfma c w s) := by simp [execVfma]

@[simp] theorem execVmax_queue (s : State) (c : Nat) (w : IFields) : NextQueue s.pending (execVmax c w s) := by simp [execVmax]

@[simp] theorem execVmin_queue (s : State) (c : Nat) (w : IFields) : NextQueue s.pending (execVmin c w s) := by simp [execVmin]

@[simp] theorem execVcvt_queue (s : State) (c : Nat) (w : IFields) : NextQueue s.pending (execVcvt c w s) := by simp [execVcvt]

@[simp] theorem execVcopy_queue (s : State) (c : Nat) (w : IFields) : NextQueue s.pending (execVcopy c w s) := by simp [execVcopy]

@[simp] theorem execVcmpgt_queue (s : State) (c : Nat) (w : IFields) : NextQueue s.pending (execVcmpgt c w s) := by simp [execVcmpgt]

@[simp] theorem execVexp_queue (s : State) (c : Nat) (w : IFields) : NextQueue s.pending (execVexp c w s) := by simp [execVexp]

@[simp] theorem execVlog_queue (s : State) (c : Nat) (w : IFields) : NextQueue s.pending (execVlog c w s) := by simp [execVlog]

end Sys2Proof.Machine
end

