-- ==== Sys2Proof/Proofs/QueueOfTasks.lean ====
section
/-!
The queue of waiting commands (00 R12), part 3 of 8: the further instructions and the events of a core, clusters and tasks, and the
serving of requests and of passes leave it as it was. The lemmas stand in the order of the model.
-/

namespace Sys2Proof.Machine

@[simp] theorem execVrcp_queue (s : State) (c : Nat) (w : IFields) : NextQueue s.pending (execVrcp c w s) := by simp [execVrcp]

@[simp] theorem execVrsqrt_queue (s : State) (c : Nat) (w : IFields) : NextQueue s.pending (execVrsqrt c w s) := by simp [execVrsqrt]

@[simp] theorem execVtanh_queue (s : State) (c : Nat) (w : IFields) : NextQueue s.pending (execVtanh c w s) := by simp [execVtanh]

@[simp] theorem execVerf_queue (s : State) (c : Nat) (w : IFields) : NextQueue s.pending (execVerf c w s) := by simp [execVerf]

@[simp] theorem execRowmax_queue (s : State) (c : Nat) (w : IFields) : NextQueue s.pending (execRowmax c w s) := by simp [execRowmax]

@[simp] theorem execRowsum_queue (s : State) (c : Nat) (w : IFields) : NextQueue s.pending (execRowsum c w s) := by simp [execRowsum]

@[simp] theorem execRowsumsq_queue (s : State) (c : Nat) (w : IFields) : NextQueue s.pending (execRowsumsq c w s) := by simp [execRowsumsq]

@[simp] theorem execViadd_queue (s : State) (c : Nat) (w : IFields) : NextQueue s.pending (execViadd c w s) := by simp [execViadd]

@[simp] theorem execVimul_queue (s : State) (c : Nat) (w : IFields) : NextQueue s.pending (execVimul c w s) := by simp [execVimul]

@[simp] theorem execVishr_queue (s : State) (c : Nat) (w : IFields) : NextQueue s.pending (execVishr c w s) := by simp [execVishr]

@[simp] theorem execViand_queue (s : State) (c : Nat) (w : IFields) : NextQueue s.pending (execViand c w s) := by simp [execViand]

@[simp] theorem execVimin_queue (s : State) (c : Nat) (w : IFields) : NextQueue s.pending (execVimin c w s) := by simp [execVimin]

@[simp] theorem execAccadd_queue (s : State) (c : Nat) (w : IFields) : NextQueue s.pending (execAccadd c w s) := by simp [execAccadd]

@[simp] theorem execVrand_queue (s : State) (c : Nat) (w : IFields) : NextQueue s.pending (execVrand c w s) := by simp [execVrand]

@[simp] theorem execMload_queue (s : State) (c : Nat) (w : IFields) : NextQueue s.pending (execMload c w s) := by simp [execMload]

@[simp] theorem execMstore_queue (s : State) (c : Nat) (w : IFields) : NextQueue s.pending (execMstore c w s) := by simp [execMstore]

@[simp] theorem execGload_queue (s : State) (c : Nat) (w : IFields) : NextQueue s.pending (execGload c w s) := by simp [execGload]

@[simp] theorem execGscat_queue (s : State) (c : Nat) (w : IFields) : NextQueue s.pending (execGscat c w s) := by simp [execGscat]

@[simp] theorem execGpage_queue (s : State) (c : Nat) (w : IFields) : NextQueue s.pending (execGpage c w s) := by simp [execGpage]

@[simp] theorem execScoreboardRelease_queue (s : State) (c : Nat) (e0 : Engine) :
    NextQueue s.pending (execScoreboardRelease c e0 s) := by simp [execScoreboardRelease]

@[simp] theorem execWatchEntryFree_queue (s : State) (c : Nat) (e0 : Engine) : NextQueue s.pending (execWatchEntryFree c e0 s) := by
  unfold execWatchEntryFree
  split <;> simp

@[simp] theorem State.reissueItem_pending (s : State) (c : Nat) (e0 : Engine) (q : QItem) :
    (State.reissueItem s c e0 q).pending = s.pending := by simp [State.reissueItem]

@[simp] theorem State.reissueHeld_pending (s : State) (c : Nat) (e0 : Engine) (st : QStatus) :
    (State.reissueHeld s c e0 st).pending = s.pending := by simp [State.reissueHeld]

@[simp] theorem execRetryReissue_queue (s : State) (c : Nat) (e0 : Engine) :
    NextQueue s.pending (execRetryReissue c e0 s) := by simp [execRetryReissue]

@[simp] theorem execBusyReissue_queue (s : State) (c : Nat) (e0 : Engine) :
    NextQueue s.pending (execBusyReissue c e0 s) := by simp [execBusyReissue]

@[simp] theorem execResettingReissue_queue (s : State) (c : Nat) (e0 : Engine) :
    NextQueue s.pending (execResettingReissue c e0 s) := by simp [execResettingReissue]

@[simp] theorem execEngineInstrComplete_queue (s : State) (c : Nat) (e0 : Engine) :
    NextQueue s.pending (execEngineInstrComplete c e0 s) := by
  unfold execEngineInstrComplete
  dsimp only
  (repeat' split) <;> simp

@[simp] theorem execInstrTimeLimit_queue (s : State) (c : Nat) (x : EngineItem) : NextQueue s.pending (execInstrTimeLimit c x s) := by
  unfold execInstrTimeLimit
  split <;> simp

@[simp] theorem execExternalScratchAccess_queue (s : State) (from_ : Agent) (addr len : Nat) (acc : Access) :
    NextQueue s.pending (execExternalScratchAccess from_ addr len acc s) := by
  unfold execExternalScratchAccess
  dsimp only
  (repeat' split) <;> simp

@[simp] theorem execImemLoad_queue (s : State) (c bank kernel : Nat) (code : List (BitVec 256)) (digest : BitVec 512) :
    NextQueue s.pending (execImemLoad c bank kernel code digest s) := by
  unfold execImemLoad
  dsimp only
  (repeat' split) <;> simp

@[simp] theorem execImemLoadDone_queue (s : State) (c : Nat) : NextQueue s.pending (execImemLoadDone c s) := by
  unfold execImemLoadDone
  dsimp only
  (repeat' split) <;> simp

@[simp] theorem execImemArm_queue (s : State) (c : Nat) : NextQueue s.pending (execImemArm c s) := by
  unfold execImemArm
  dsimp only
  (repeat' split) <;> simp

@[simp] theorem execImemDisarm_queue (s : State) (c : Nat) : NextQueue s.pending (execImemDisarm c s) := nextQueue_next.mpr rfl

@[simp] theorem State.moveEntry_pending (s : State) (cds : List Nat) (h0 : Handle) : (State.moveEntry s cds h0).pending = s.pending := by
  unfold State.moveEntry
  split <;> rfl

@[simp] theorem State.placeAll_queue (s : State) (pr : Program) (t0 : Template) (nc : Nat) (cds : List Nat) (hs : List Handle) (ctxs : List Nat) (rows : Nat) (committed : Bool) :
    SomeQueue s.pending (State.placeAll s pr t0 nc cds hs ctxs rows committed) := by
  unfold State.placeAll
  refine SomeQueue.bind (SomeQueue.foldlBind (someQueue_some.mpr rfl) fun t h ht => ht ▸ t.placeTensor_queue ..) fun t ht => ?_
  split <;> simp [ht]

@[simp] theorem State.admitTask_pending (s : State) (d : TaskDesc) : (State.admitTask s d).1.pending = s.pending := by
  unfold State.admitTask
  dsimp only
  split
  · rfl
  · split
    · rfl
    · split
      · rfl
      next hx =>
        have h := ((State.placeAll_queue ..).eq hx).trans (State.freeUntil_pending ..)
        refine (ite_fst_pending ..).trans (ite_of_both rfl ?_)
        rw [State.settle_pending]
        refine (ite_pending ..).trans (ite_of_both ?_ ?_)
        · split <;> simp [h]
        · refine (foldl_pending (fun s x => ?_) _ _).trans ?_
          · split <;> simp
          · split <;> simp [h]

@[simp] theorem State.acceptShadow_pending (s : State) (id e0 a : Nat) : (State.acceptShadow s id e0 a).pending = s.pending := by
  unfold State.acceptShadow
  split <;> simp

@[simp] theorem State.commitRing_pending (s : State) (e0 : Nat) (h0 : Handle) (a : Nat) :
    (State.commitRing s e0 h0 a).pending = s.pending := by simp [State.commitRing]

@[simp] theorem State.commitAct_pending (s : State) (e0 : Nat) (entries : List CommitEntry) (gens : List OutCap) :
    (State.commitAct s e0 entries gens).pending = s.pending := by
  unfold State.commitAct
  dsimp only
  rw [State.settle_pending, State.onWork_pending]
  refine (foldl_pending (fun s t => s.finishTask_pending ..) _ _).trans ?_
  refine (foldl_pending (fun s o => State.onWork_pending ..) _ _).trans ?_
  refine (foldl_pending (fun s c => ?_) _ _).trans ?_
  · split <;> simp
  · refine (foldl_pending (fun s h => s.commitRing_pending ..) _ _).trans ?_
    simp

@[simp] theorem State.commitAdmit_pending (s : State) (e0 : Nat) :
    (State.commitAdmit s e0).1.pending = s.pending := by simp [State.commitAdmit]

@[simp] theorem State.openEpoch_queue (s : State) (service : Bool) : PairQueue s.pending (State.openEpoch s service) := by
  unfold State.openEpoch
  dsimp only
  (repeat' split) <;> simp

@[simp] theorem State.fireWaves_pending (s : State) (t0 : Task) : (State.fireWaves s t0).pending = s.pending := by simp [State.fireWaves]

@[simp] theorem execWaveStart_queue (s : State) (task cd : Nat) : NextQueue s.pending (execWaveStart task cd s) := by
  unfold execWaveStart
  dsimp only
  (repeat' split) <;> simp

@[simp] theorem execLoadRaiseWithdraw_queue (s : State) (cd : Nat) : NextQueue s.pending (execLoadRaiseWithdraw cd s) := by
  unfold execLoadRaiseWithdraw
  split <;> simp

@[simp] theorem execCompletionToken_queue (s : State) (task wave node : Nat) (tok : Token) :
    NextQueue s.pending (execCompletionToken task wave node tok s) := by
  unfold execCompletionToken
  dsimp only
  split <;> simp

@[simp] theorem execDispatcherHeartbeat_queue (s : State) (cd : Nat) : NextQueue s.pending (execDispatcherHeartbeat cd s) := by
  unfold execDispatcherHeartbeat
  split <;> simp

@[simp] theorem execTaskTimeLimit_queue (s : State) (task : Nat) : NextQueue s.pending (execTaskTimeLimit task s) := by
  unfold execTaskTimeLimit
  (repeat' split) <;> simp

@[simp] theorem execShadowCopyDone_queue (s : State) (task : Nat) : NextQueue s.pending (execShadowCopyDone task s) := by
  unfold execShadowCopyDone
  split
  · simp
  · split
    · simp
    · refine nextQueue_next.mpr ?_
      rw [State.settle_pending]
      refine (foldl_pending (fun s x => by simp) _ _).trans (foldl_pending (fun s x => ?_) _ _)
      split <;> simp

@[simp] theorem execCommitAct_queue (s : State) (epoch : Nat) : NextQueue s.pending (execCommitAct epoch s) := by
  unfold execCommitAct
  (repeat' split) <;> simp

@[simp] theorem execShardMove_queue (s : State) (h0 : Handle) (shard addr : Nat) : NextQueue s.pending (execShardMove h0 shard addr s) := by
  unfold execShardMove
  (repeat' split) <;> simp

@[simp] theorem execReplicaCreate_queue (s : State) (h0 : Handle) (shard addr : Nat) :
    NextQueue s.pending (execReplicaCreate h0 shard addr s) := by
  unfold execReplicaCreate
  dsimp only
  (repeat' split) <;> simp

@[simp] theorem State.modReq_pending (s : State) (qp id : Nat) (f : Request → Request) : (State.modReq s qp id f).pending = s.pending := rfl

@[simp] theorem State.closeContext_pending (s : State) (id : Nat) : (State.closeContext s id).pending = s.pending := by
  unfold State.closeContext
  split <;> simp

@[simp] theorem State.dropModel_pending (s : State) (i : Nat) : (State.dropModel s i).pending = s.pending := by
  unfold State.dropModel
  split <;> simp

@[simp] theorem State.dropAdapter_pending (s : State) (i : Nat) : (State.dropAdapter s i).pending = s.pending := by
  unfold State.dropAdapter
  split <;> simp

@[simp] theorem State.endRequest_pending (s : State) (r : Request) (entry : List Byte) :
    (State.endRequest s r entry).pending = s.pending := by simp [State.endRequest]

@[simp] theorem State.endWith_pending (s : State) (qp id status reason : Nat) :
    (State.endWith s qp id status reason).pending = s.pending := by
  unfold State.endWith
  split <;> simp

@[simp] theorem State.failWith_pending (s : State) (qp id status : Nat) : (State.failWith s qp id status).pending = s.pending := by
  unfold State.failWith
  split <;> simp

@[simp] theorem State.errorEntry_pending (s : State) (qp id status : Nat) : (State.errorEntry s qp id status).pending = s.pending := rfl

@[simp] theorem State.takeRecord_queue (s : State) (qp : Nat) : SomeQueue s.pending (State.takeRecord s qp) := by
  unfold State.takeRecord
  split
  · simp
  · split
    · split <;> simp
    · simp

@[simp] theorem State.countDrop_pending (s : State) : (State.countDrop s).pending = s.pending := rfl

@[simp] theorem State.makeReady_pending (s : State) (qp id : Nat) : (State.makeReady s qp id).pending = s.pending := by
  unfold State.makeReady
  split <;> simp

@[simp] theorem State.admitRequest_pending (s : State) (qp id : Nat) : (State.admitRequest s qp id).pending = s.pending := by
  unfold State.admitRequest
  split <;> simp

@[simp] theorem State.continueRequest_pending (s : State) (qp : Nat) (r : ReqRec) : (State.continueRequest s qp r).pending = s.pending := by
  unfold State.continueRequest
  split <;> simp

@[simp] theorem execRequest_queue (s : State) (qp : Nat) (r : ReqRec) : NextQueue s.pending (execRequest qp r s) := by
  unfold execRequest
  split
  · simp
  next hx =>
    have h := (s.takeRecord_queue qp).eq hx
    (repeat' split) <;> simp [h]

@[simp] theorem execRequestContinuation_queue (s : State) (qp : Nat) (r : ReqRec) :
    NextQueue s.pending (execRequestContinuation qp r s) := by
  unfold execRequestContinuation
  split
  · simp
  next hx =>
    have h := (s.takeRecord_queue qp).eq hx
    simp [h]

@[simp] theorem execCancel_queue (s : State) (qp request : Nat) : NextQueue s.pending (execCancel qp request s) := by
  unfold execCancel
  split
  · simp
  next hx =>
    have h := (s.takeRecord_queue qp).eq hx
    (repeat' split) <;> simp [h]

@[simp] theorem State.modStream_pending (s : State) (qp id : Nat) (f : Request → Request) :
    (State.modStream s qp id f).pending = s.pending := by
  unfold State.modStream
  split <;> rfl

@[simp] theorem execCredit_queue (s : State) (qp request value : Nat) : NextQueue s.pending (execCredit qp request value s) := by
  unfold execCredit
  split
  · simp
  next hx =>
    have h := (s.takeRecord_queue qp).eq hx
    (repeat' split) <;> simp [h]

@[simp] theorem execClose_queue (s : State) (qp context : Nat) : NextQueue s.pending (execClose qp context s) := by
  unfold execClose
  split
  · simp
  next hx =>
    have h := (s.takeRecord_queue qp).eq hx
    (repeat' split) <;> simp [h]

@[simp] theorem execUnknownRecord_queue (s : State) (qp : Nat) (request : Option Nat) :
    NextQueue s.pending (execUnknownRecord qp request s) := by
  unfold execUnknownRecord
  split
  · simp
  next hx =>
    have h := (s.takeRecord_queue qp).eq hx
    split <;> simp [h]

@[simp] theorem execTokenise_queue (s : State) (qp request : Nat) : NextQueue s.pending (execTokenise qp request s) := by
  unfold execTokenise
  dsimp only
  (repeat' split) <;> simp

@[simp] theorem State.withPools_pending (s : State) (model : Nat) :
    (State.withPools s model).pending = s.pending := (s.placePools_queue model).getD rfl

@[simp] theorem State.passShadows_queue (s : State) (m : Model) (p : Pass) :
    SomeQueue s.pending (State.passShadows s m p) := SomeQueue.foldlBind (someQueue_some.mpr rfl) fun t r ht => by
    split
    · exact someQueue_some.mpr ht
    · exact ht ▸ t.shadowAppend_queue ..

@[simp] theorem State.formPass_pending (s : State) (model : Nat) : (State.formPass s model).pending = s.pending := by
  unfold State.formPass
  split
  · rfl
  · dsimp only
    split
    · rfl
    · split
      · rfl
      next s1 e hx =>
        have h := (s.openEpoch_queue ..).eq hx
        refine (foldl_pending (fun s r => s.modReq_pending ..) _ _).trans ?_
        refine ((State.passShadows_queue ..).getD rfl).trans ?_
        simpa using h

@[simp] theorem execPassForm_queue (s : State) (model : Nat) : NextQueue s.pending (execPassForm model s) := by
  unfold execPassForm
  (repeat' split) <;> simp

@[simp] theorem execFillWaitExpiry_queue (s : State) (model : Nat) :
    NextQueue s.pending (execFillWaitExpiry model s) := by simp [execFillWaitExpiry]

@[simp] theorem State.keepTokens_pending (s : State) (m : Model) (qp id : Nat) (l : List Nat) :
    (State.keepTokens s m qp id l).pending = s.pending := by
  induction l generalizing s with
  | nil => rfl
  | cons tok t ih =>
    unfold State.keepTokens
    split
    · rfl
    · dsimp only
      split
      · simp
      · split <;> simp [ih]

@[simp] theorem State.passRows_queue (s : State) (m : Model) (p : Pass) (results : List SeqLogits) :
    SomeQueue s.pending (State.passRows s m p results) := SomeQueue.foldlBind (someQueue_some.mpr rfl) fun t x ht => by
    dsimp only
    split
    · exact ht ▸ t.appendCtx_queue ..
    · simp [ht]

@[simp] theorem State.passSeq_pending (s : State) (m : Model) (x : SeqLogits) (qp : Nat) :
    (State.passSeq s m x qp).pending = s.pending := by
  unfold State.passSeq
  dsimp only
  (repeat' split) <;> simp

@[simp] theorem State.passFailed_pending (s : State) (id : Nat) (p : Pass) : (State.passFailed s id p).pending = s.pending := by
  unfold State.passFailed
  dsimp only
  split
  · simp
  · split
    next s3 e hx =>
      have h := (State.openEpoch_queue ..).eq hx
      split
      · refine ((State.passShadows_queue ..).getD rfl).trans ?_
        simp_all
      · simp_all
    · simp

@[simp] theorem State.passTables_queue (s : State) (m : Model) (p : Pass) (results : List SeqLogits) :
    SomeQueue s.pending (State.passTables s m p results) := by
  unfold State.passTables
  have h : SomeQueue s.pending ((s.withPools p.model).passShadows m p) := s.withPools_pending p.model ▸ State.passShadows_queue ..
  exact h.bind fun t ht => ht ▸ t.passRows_queue ..

@[simp] theorem State.passSeqs_pending (s : State) (m : Model) (p : Pass) (results : List SeqLogits) :
    (State.passSeqs s m p results).pending = s.pending := by
  unfold State.passSeqs
  refine (foldl_pending (fun s a => ?_) _ _).trans ?_
  · split <;> simp
  · simp

@[simp] theorem execPassCommit_queue (s : State) (pass : Nat) (results : List SeqLogits) :
    NextQueue s.pending (execPassCommit pass results s) := by
  unfold execPassCommit
  split
  · simp
  · split
    · simp
    · simp
    · split
      · simp
      · dsimp only
        split
        · simp
        next hx =>
          have h := (s.passTables_queue ..).eq hx
          split <;> simp [h]

@[simp] theorem State.writeStream_pending (s : State) (qp request count : Nat) :
    (State.writeStream s qp request count).pending = s.pending := by
  unfold State.writeStream
  split <;> simp

@[simp] theorem execStreamWrite_queue (s : State) (qp request count : Nat) :
    NextQueue s.pending (execStreamWrite qp request count s) := by simp [execStreamWrite]

@[simp] theorem State.endStreams_pending (s : State) (qps : List Nat) :
    (State.endStreams s qps).pending = s.pending := by simp [State.endStreams]

@[simp] theorem execCreditTimeout_queue (s : State) (qp request : Nat) : NextQueue s.pending (execCreditTimeout qp request s) := by
  unfold execCreditTimeout
  (repeat' split) <;> simp

@[simp] theorem execContextIdleTimeout_queue (s : State) (context : Nat) : NextQueue s.pending (execContextIdleTimeout context s) := by
  unfold execContextIdleTimeout
  (repeat' split) <;> simp

@[simp] theorem State.modelReady_pending (s : State) (model : Nat) (ok : Bool) :
    (State.modelReady s model ok).pending = s.pending := by simp [State.modelReady]

@[simp] theorem State.roomForImage_pending (s : State) (n : Nat) :
    (State.roomForImage s n).pending = s.pending := s.freeUntil_pending (fun s => (s.allocImage n).isSome) _

@[simp] theorem execModelFetch_queue (s : State) (model : Nat) (weights : List Byte) :
    NextQueue s.pending (execModelFetch model weights s) := by
  unfold execModelFetch
  dsimp only
  (repeat' split) <;> simp

@[simp] theorem execModelStage_queue (s : State) (model : Nat) : NextQueue s.pending (execModelStage model s) := by
  unfold execModelStage
  dsimp only
  (repeat' split) <;> simp

@[simp] theorem State.unpin_pending (s : State) (n : Nat) : (State.unpin n s).pending = s.pending := by
  induction n generalizing s with
  | zero => rfl
  | succ n ih =>
    unfold State.unpin
    split
    · rfl
    · dsimp only
      split
      · rfl
      · exact (ih _).trans (by simp)

@[simp] theorem State.rankOne_pending (s : State) (i : Nat) : (State.rankOne s i).pending = s.pending := by
  unfold State.rankOne
  dsimp only
  (repeat' split) <;> simp

@[simp] theorem execResidencyRank_queue (s : State) : NextQueue s.pending (execResidencyRank s) := by simp [execResidencyRank]

@[simp] theorem State.stagePart_queue (s : State) (adapter n : Nat) : SomeQueue s.pending (State.stagePart s adapter n) := by
  unfold State.stagePart
  split <;> simp

@[simp] theorem State.stageSlices_queue (s : State) (adapter n : Nat) :
    SomeQueue s.pending (State.stageSlices s adapter n) :=
  SomeQueue.foldlBind (someQueue_some.mpr rfl) fun t _ ht => ht ▸ t.stagePart_queue ..

@[simp] theorem State.touchAdapter_pending (s : State) (adapter : Nat) (a : Adapter) :
    (State.touchAdapter s adapter a).pending = s.pending := rfl

@[simp] theorem execAdapterStage_queue (s : State) (pass adapter : Nat) : NextQueue s.pending (execAdapterStage pass adapter s) := by
  unfold execAdapterStage
  split
  · split
    · simp
    · dsimp only
      split
      · simp
      · split
        · simp
        next hx =>
          have h := (State.stageSlices_queue ..).eq hx
          simp_all
  · simp

end Sys2Proof.Machine
end

