-- ==== Sys2Proof/Proofs/QueueOfControllers.lean ====
section
/-!
The queue of waiting commands (00 R12), part 4 of 8: fine-tuning and placement, the fencing of clusters, the memory controllers, and the
flits and states of links leave it as it was. The lemmas stand in the order of the model.
-/

namespace Sys2Proof.Machine

@[simp] theorem execFinetuneStep_queue (s : State) (adapter : Nat) (ok : Bool) (grads : List Word) :
    NextQueue s.pending (execFinetuneStep adapter ok grads s) := by
  unfold execFinetuneStep
  split
  · split
    · simp
    · split
      · simp
      next hx =>
        have h := (s.openEpoch_queue ..).eq hx
        split <;> simp_all
  · simp

@[simp] theorem State.mergeTable_queue (s : State) (t0 : KvTable) (at_ count log2 : Nat) (run : List (Nat × Nat)) :
    PairQueue s.pending (State.mergeTable s t0 at_ count log2 run) := by
  unfold State.mergeTable
  dsimp only
  split
  · simp
  · exact PairQueue.map (State.allocKv_queue ..) fun x => by simp

@[simp] theorem State.mergePages_pending (s : State) (ctx at_ count log2 : Nat) :
    (State.mergePages s ctx at_ count log2).pending = s.pending := by
  unfold State.mergePages
  split
  · rfl
  · dsimp only
    split
    · rfl
    · split
      · rfl
      next x hx =>
        have h : x.1.pending = s.pending := (PairQueue.foldlBind
          (f := fun (y : State × List KvTable) t => (y.1.mergeTable t at_ count log2 _).map fun z => (z.1, y.2 ++ [z.2]))
          (pairQueue_some.mpr rfl) (fun y t hy => PairQueue.map (hy ▸ y.1.mergeTable_queue ..) fun _ => rfl)).eq hx
        simp [h]

@[simp] theorem State.placerAct_pending (s : State) (a : PlacerAct) : (State.placerAct s a).pending = s.pending := by
  unfold State.placerAct
  (repeat' split) <;> simp

@[simp] theorem State.leaveFenced_pending (s : State) : (State.leaveFenced s).pending = s.pending := rfl

@[simp] theorem execPlacerRecompute_queue (s : State) (acts : List PlacerAct) :
    NextQueue s.pending (execPlacerRecompute acts s) := by simp [execPlacerRecompute]

@[simp] theorem State.breakInstance_pending (s : State) (h0 : Handle) :
    (State.breakInstance s h0).pending = s.pending := by simp [State.breakInstance]

@[simp] theorem State.replace_pending (s : State) (p : Placed) (lost : Nat → Bool) : (State.replace s p lost).pending = s.pending := by
  unfold State.replace
  dsimp only
  split <;> simp

@[simp] theorem State.loseRegion_pending (s : State) (rescue : Bool) (lost : Nat → Bool) :
    (State.loseRegion s rescue lost).1.pending = s.pending := by simp [State.loseRegion]

@[simp] theorem State.failPackage_pending (s : State) (m : Nat) : (State.failPackage s m).pending = s.pending := by simp [State.failPackage]

@[simp] theorem State.returnCredits_pending (s : State) (cd : Nat) :
    (State.returnCredits s cd).pending = s.pending := by simp [State.returnCredits]

@[simp] theorem State.fenceWave_pending (s : State) (cd status : Nat) (answers : Bool) :
    (State.fenceWave s cd status answers).pending = s.pending := by
  unfold State.fenceWave
  dsimp only
  (repeat' split) <;> simp

@[simp] theorem State.moveShares_pending (s : State) (cd : Nat) : (State.moveShares s cd).pending = s.pending := by simp [State.moveShares]

@[simp] theorem State.fenceCluster_pending (s : State) (cd : Nat) (ev : Ev) (answers : Bool) :
    (State.fenceCluster s cd ev answers).pending = s.pending := by
  unfold State.fenceCluster
  dsimp only
  (repeat' split) <;> simp

@[simp] theorem execClusterFence_queue (s : State) (cd event : Nat) (dispatcherAnswers : Bool) :
    NextQueue s.pending (execClusterFence cd event dispatcherAnswers s) := by
  unfold execClusterFence
  split <;> simp

@[simp] theorem execHeartbeatTimeout_queue (s : State) (cd : Nat) : NextQueue s.pending (execHeartbeatTimeout cd s) := by
  unfold execHeartbeatTimeout
  split <;> simp

@[simp] theorem State.serve_pending (s : State) (g : Agent) (a len : Nat) (acc : Access) :
    (State.serve s g a len acc).pending = s.pending := by
  unfold State.serve
  split <;> simp

@[simp] theorem State.queueBurst_pending (s : State) (r : SReq) : (State.queueBurst s r).pending = s.pending := by
  unfold State.queueBurst
  split <;> rfl

@[simp] theorem execSliceBurstRequest_queue (s : State) (from_ : Agent) (addr len : Nat) (acc : Access) :
    NextQueue s.pending (execSliceBurstRequest from_ addr len acc s) := by
  unfold execSliceBurstRequest
  dsimp only
  (repeat' split) <;> simp

@[simp] theorem State.dropBursts_pending (s : State) (p : SReq → Bool) : (State.dropBursts s p).pending = s.pending := rfl

@[simp] theorem State.answerLate_pending (s : State) (late : List SReq) : (State.answerLate s late).pending = s.pending := by
  induction late generalizing s with
  | nil => rfl
  | cons r late ih => exact (ih _).trans (by split <;> simp)

@[simp] theorem execResettingAnswerTimeout_queue (s : State) (cd : Nat) : NextQueue s.pending (execResettingAnswerTimeout cd s) := by
  unfold execResettingAnswerTimeout
  split <;> simp

@[simp] theorem execSliceBurstComplete_queue (s : State) (c : Nat) (r : BurstRef) : NextQueue s.pending (execSliceBurstComplete c r s) := by
  unfold execSliceBurstComplete
  (repeat' split) <;> simp

@[simp] theorem execCorrectedWriteBack_queue (s : State) (c codeword : Nat) :
    NextQueue s.pending (execCorrectedWriteBack c codeword s) := by
  unfold execCorrectedWriteBack
  (repeat' split) <;> simp

@[simp] theorem execSliceRefresh_queue (s : State) (stack quadrant layer : Nat) :
    NextQueue s.pending (execSliceRefresh stack quadrant layer s) := nextQueue_next.mpr rfl

@[simp] theorem execSliceFill_queue (s : State) : NextQueue s.pending (execSliceFill s) := by
  unfold execSliceFill
  split <;> simp

@[simp] theorem execCheckerSelftest_queue (s : State) (slices packages : List CheckSeen) :
    NextQueue s.pending (execCheckerSelftest slices packages s) := by
  unfold execCheckerSelftest
  split <;> simp

@[simp] theorem execScrubBurst_queue (s : State) (c : Nat) : NextQueue s.pending (execScrubBurst c s) := by
  unfold execScrubBurst
  dsimp only
  (repeat' split) <;> simp

@[simp] theorem execScrubAge_queue (s : State) (u : RegUnit) (_due : Unit) : NextQueue s.pending (execScrubAge u _due s) := by
  unfold execScrubAge
  split <;> simp

@[simp] theorem State.dropSlicePage_pending (s : State) (c page : Nat) : (State.dropSlicePage s c page).pending = s.pending := rfl

@[simp] theorem State.retireEmptySlice_pending (s : State) (c page : Nat) :
    (State.retireEmptySlice s c page).pending = s.pending := by simp [State.retireEmptySlice]

@[simp] theorem State.retireSlicePage_pending (s : State) (c page : Nat) : (State.retireSlicePage s c page).pending = s.pending := by
  unfold State.retireSlicePage
  split <;> simp

@[simp] theorem State.retireBank_pending (s : State) (c bank : Nat) :
    (State.retireBank s c bank).pending = s.pending := by simp [State.retireBank]

@[simp] theorem State.checkDegraded_pending (s : State) (m : Nat) : (State.checkDegraded s m).pending = s.pending := by
  unfold State.checkDegraded
  split <;> rfl

@[simp] theorem State.dropOuterPage_pending (s : State) (m page : Nat) :
    (State.dropOuterPage s m page).pending = s.pending := by simp [State.dropOuterPage]

@[simp] theorem State.retireOuterPage_pending (s : State) (m page : Nat) : (State.retireOuterPage s m page).pending = s.pending := by
  unfold State.retireOuterPage
  split <;> simp

@[simp] theorem State.retireDone_pending (s : State) : (State.retireDone s).pending = s.pending := by simp [State.retireDone]

@[simp] theorem State.healRange_pending (s : State) (a n : Nat) : (State.healRange s a n).pending = s.pending := by
  unfold State.healRange
  refine (foldl_pending (fun s a => ?_) _ _).trans ?_
  · split <;> simp
  · simp

@[simp] theorem execSpareCopyDone_queue (s : State) (c page : Nat) : NextQueue s.pending (execSpareCopyDone c page s) := by
  unfold execSpareCopyDone
  split <;> simp

@[simp] theorem execPageEmptied_queue (s : State) (tier unit page : Nat) : NextQueue s.pending (execPageEmptied tier unit page s) := by
  unfold execPageEmptied
  (repeat' split) <;> simp

@[simp] theorem execRetirementTableWrite_queue (s : State) : NextQueue s.pending (execRetirementTableWrite s) := nextQueue_next.mpr rfl

@[simp] theorem execOuterBlockRequest_queue (s : State) (from_ : Agent) (addr len : Nat) (acc : Access) (waiting : Bool) :
    NextQueue s.pending (execOuterBlockRequest from_ addr len acc waiting s) := by
  unfold execOuterBlockRequest
  dsimp only
  (repeat' split) <;> simp

@[simp] theorem execCreditReturn_queue (s : State) (m req : Nat) : NextQueue s.pending (execCreditReturn m req s) := by
  unfold execCreditReturn
  dsimp only
  (repeat' split) <;> simp

@[simp] theorem State.sendReq_pending (s : State) (m : Nat) (r : OReq) : (State.sendReq s m r).pending = s.pending := by
  unfold State.sendReq
  dsimp only
  split <;> simp

@[simp] theorem State.sendWith_pending (s : State) (m : Nat) (r : OReq) :
    (State.sendWith s m r).pending = s.pending := by simp [State.sendWith]

@[simp] theorem execOuterSend_queue (s : State) (m : Nat) : NextQueue s.pending (execOuterSend m s) := by
  unfold execOuterSend
  dsimp only
  split <;> simp

@[simp] theorem execOuterWindowAge_queue (s : State) (m req : Nat) : NextQueue s.pending (execOuterWindowAge m req s) := by
  unfold execOuterWindowAge
  dsimp only
  (repeat' split) <;> simp

@[simp] theorem execHoldAssert_queue (s : State) (m : Nat) : NextQueue s.pending (execHoldAssert m s) := by
  unfold execHoldAssert
  split <;> simp

@[simp] theorem execHoldRelease_queue (s : State) (m : Nat) : NextQueue s.pending (execHoldRelease m s) := by
  unfold execHoldRelease
  split <;> simp

@[simp] theorem State.releaseReq_pending (s : State) (m : Nat) (r : OReq) : (State.releaseReq s m r).pending = s.pending := by
  unfold State.releaseReq
  split <;> simp

@[simp] theorem State.noteFault_pending (s : State) (m : Nat) : (State.noteFault s m).pending = s.pending := rfl

@[simp] theorem State.settleWrite_pending (s : State) (r : OReq) (sent : Bool) : (State.settleWrite s r sent).pending = s.pending := by
  unfold State.settleWrite
  split <;> simp

@[simp] theorem State.expireReq_pending (s : State) (m : Nat) (r : OReq) : (State.expireReq s m r).pending = s.pending := by
  unfold State.expireReq
  dsimp only
  split <;> simp

@[simp] theorem execOuterRequestTimeout_queue (s : State) (m req : Nat) : NextQueue s.pending (execOuterRequestTimeout m req s) := by
  unfold execOuterRequestTimeout
  split <;> simp

@[simp] theorem execOuterParityNak_queue (s : State) (m req : Nat) : NextQueue s.pending (execOuterParityNak m req s) := by
  unfold execOuterParityNak
  (repeat' split) <;> simp

@[simp] theorem State.busOutcome_pending (s : State) (m unit : Nat) (o : RdOut) : (State.busOutcome s m unit o).pending = s.pending := by
  unfold State.busOutcome
  split <;> rfl

@[simp] theorem State.deliver_pending (s : State) (m : Nat) (bytes : List Byte) (marks : List Bool) (r : OReq) :
    (State.deliver s m bytes marks r).pending = s.pending := by simp [State.deliver]

@[simp] theorem execOuterReadData_queue (s : State) (m req dieCorrected : Nat) (dieUe : List Nat) (busErrors reread : List (Nat × Byte)) :
    NextQueue s.pending (execOuterReadData m req dieCorrected dieUe busErrors reread s) := by
  unfold execOuterReadData
  split <;> simp

@[simp] theorem State.poisonSent_pending (s : State) (m id unit : Nat) : (State.poisonSent s m id unit).pending = s.pending := rfl

@[simp] theorem execOuterWriteAcknowledge_queue (s : State) (m req : Nat) (busErrors : List (Nat × Byte)) :
    NextQueue s.pending (execOuterWriteAcknowledge m req busErrors s) := by
  unfold execOuterWriteAcknowledge
  split <;> simp

@[simp] theorem execDieWriteBack_queue (s : State) (m codeword : Nat) : NextQueue s.pending (execDieWriteBack m codeword s) := by
  unfold execDieWriteBack
  split <;> simp

@[simp] theorem execOuterRefresh_queue (s : State) (m channel bank : Nat) (burst : Bool) :
    NextQueue s.pending (execOuterRefresh m channel bank burst s) := nextQueue_next.mpr rfl

@[simp] theorem execPostponedRefresh_queue (s : State) (m channel bank : Nat) :
    NextQueue s.pending (execPostponedRefresh m channel bank s) := nextQueue_next.mpr rfl

@[simp] theorem execOuterScrub_queue (s : State) (m : Nat) : NextQueue s.pending (execOuterScrub m s) := by
  unfold execOuterScrub
  dsimp only
  split <;> simp

@[simp] theorem execOuterFill_queue (s : State) : NextQueue s.pending (execOuterFill s) := by
  unfold execOuterFill
  split <;> simp

@[simp] theorem execOuterSpareCopyDone_queue (s : State) (m page : Nat) : NextQueue s.pending (execOuterSpareCopyDone m page s) := by
  unfold execOuterSpareCopyDone
  split <;> simp

@[simp] theorem execOuterBusRetrain_queue (s : State) (m : Nat) (ok : Bool) : NextQueue s.pending (execOuterBusRetrain m ok s) := by
  unfold execOuterBusRetrain
  dsimp only
  split <;> simp

@[simp] theorem State.drainTx_pending (s : State) (l n : Nat) : (State.drainTx l n s).pending = s.pending := by
  induction n generalizing s with
  | zero => rfl
  | succ n ih =>
    unfold State.drainTx
    dsimp only
    (repeat' split) <;> simp [ih]

@[simp] theorem State.drain_pending (s : State) (l : Nat) : (State.drain s l).pending = s.pending := by simp [State.drain]

@[simp] theorem State.sendOn_pending (s : State) (l : Nat) (p : LPacket) :
    (State.sendOn s l p).pending = s.pending := by simp [State.sendOn]

@[simp] theorem State.resend_pending (s : State) (l : Nat) (fs : List Flit) :
    (State.resend s l fs).pending = s.pending := by simp [State.resend]

@[simp] theorem State.violate_pending (s : State) (l n : Nat) : (State.violate s l n).pending = s.pending := rfl

@[simp] theorem State.malformedFlit_pending (s : State) (l seq n : Nat) : (State.malformedFlit s l seq n).pending = s.pending := rfl

@[simp] theorem State.crcError_pending (s : State) (l : Nat) : (State.crcError s l).pending = s.pending := rfl

@[simp] theorem State.returnRx_pending (s : State) (l i n : Nat) : (State.returnRx s l i n).pending = s.pending := rfl

@[simp] theorem State.freeRx_pending (s : State) (l i n : Nat) : (State.freeRx s l i n).pending = s.pending := rfl

@[simp] theorem State.delivered_pending (s : State) (l : Nat) (p : LPacket) : (State.delivered s l p).pending = s.pending := by
  unfold State.delivered
  split <;> rfl

@[simp] theorem State.acceptFlit_pending (s : State) (l : Nat) (f : Flit) :
    (State.acceptFlit s l f).pending = s.pending := by simp [State.acceptFlit]

@[simp] theorem State.recvFlit_pending (s : State) (l : Nat) (f : Flit) :
    (State.recvFlit s l f).pending = s.pending := by simp [State.recvFlit]

@[simp] theorem State.crcNak_pending (s : State) (l seq : Nat) : (State.crcNak s l seq).pending = s.pending := by simp [State.crcNak]

@[simp] theorem State.protocolNak_pending (s : State) (l seq : Nat) : (State.protocolNak s l seq).pending = s.pending := by
  unfold State.protocolNak
  dsimp only
  split <;> simp

@[simp] theorem State.recvFcb_pending (s : State) (l : Nat) (f : Fcb) : (State.recvFcb s l f).pending = s.pending := by simp [State.recvFcb]

@[simp] theorem execLinkFrameRx_queue (s : State) (l : Nat) (codewordErrors : List Nat) (flits : List Flit) (fcb : Fcb) :
    NextQueue s.pending (execLinkFrameRx l codewordErrors flits fcb s) := by
  unfold execLinkFrameRx
  (repeat' split) <;> simp

@[simp] theorem execFcbRx_queue (s : State) (l : Nat) (fcb : Fcb) : NextQueue s.pending (execFcbRx l fcb s) := by simp [execFcbRx]

@[simp] theorem execFlitRx_queue (s : State) (l : Nat) (flit : Flit) : NextQueue s.pending (execFlitRx l flit s) := by simp [execFlitRx]

@[simp] theorem execCrcNak_queue (s : State) (l seq : Nat) : NextQueue s.pending (execCrcNak l seq s) := by simp [execCrcNak]

@[simp] theorem execProtocolNak_queue (s : State) (l seq : Nat) : NextQueue s.pending (execProtocolNak l seq s) := by simp [execProtocolNak]

@[simp] theorem execReplayTimeout_queue (s : State) (l : Nat) : NextQueue s.pending (execReplayTimeout l s) := by simp [execReplayTimeout]

@[simp] theorem State.linkTo_pending (s : State) (l : Nat) (st : LState) :
    (State.linkTo s l st).pending = s.pending := by simp [State.linkTo]

@[simp] theorem State.leaveUp_pending (s : State) (l : Nat) : (State.leaveUp s l).pending = s.pending := by simp [State.leaveUp]

@[simp] theorem State.startAttempt_pending (s : State) (l : Nat) : (State.startAttempt s l).pending = s.pending := rfl

@[simp] theorem State.attemptFailed_pending (s : State) (l : Nat) : (State.attemptFailed s l).pending = s.pending := rfl

@[simp] theorem execLinkAttemptStart_queue (s : State) (l : Nat) : NextQueue s.pending (execLinkAttemptStart l s) := by
  unfold execLinkAttemptStart
  split <;> simp

@[simp] theorem execPartnerDetected_queue (s : State) (l lanes : Nat) : NextQueue s.pending (execPartnerDetected l lanes s) := by
  unfold execPartnerDetected
  split <;> simp

@[simp] theorem execEqualiseDone_queue (s : State) (l goodRx goodTx : Nat) : NextQueue s.pending (execEqualiseDone l goodRx goodTx s) := by
  unfold execEqualiseDone
  dsimp only
  (repeat' split) <;> simp

@[simp] theorem execDeskewDone_queue (s : State) (l : Nat) (reversed : Bool) (polarity : Byte) :
    NextQueue s.pending (execDeskewDone l reversed polarity s) := by
  unfold execDeskewDone
  split <;> simp

@[simp] theorem execMgmtId_queue (s : State) (l : Nat) (system : Word) (device link version : Nat) (torus : Bool) :
    NextQueue s.pending (execMgmtId l system device link version torus s) := by
  unfold execMgmtId
  (repeat' split) <;> simp

@[simp] theorem execAttemptTimeout_queue (s : State) (l : Nat) : NextQueue s.pending (execAttemptTimeout l s) := by
  unfold execAttemptTimeout
  split <;> simp

@[simp] theorem execAttemptRetryTimer_queue (s : State) (l : Nat) : NextQueue s.pending (execAttemptRetryTimer l s) := by
  unfold execAttemptRetryTimer
  split <;> simp

@[simp] theorem execMismatchRetry_queue (s : State) (l : Nat) : NextQueue s.pending (execMismatchRetry l s) := by
  unfold execMismatchRetry
  split <;> simp

end Sys2Proof.Machine
end

