-- ==== Sys2Proof/Proofs/QueueOfLinksAndPower.lean ====
section
/-!
The queue of waiting commands (00 R12), part 5 of 8: links, their packets and what they ask of memory, and clocks, feeds, power and heat
leave it as it was. The lemmas stand in the order of the model.
-/

namespace Sys2Proof.Machine

@[simp] theorem execLinkLeaveUp_queue (s : State) (l : Nat) : NextQueue s.pending (execLinkLeaveUp l s) := by
  unfold execLinkLeaveUp
  split <;> simp

@[simp] theorem execLinkRetrain_queue (s : State) (l : Nat) : NextQueue s.pending (execLinkRetrain l s) := by
  unfold execLinkRetrain
  split <;> simp

@[simp] theorem State.disableLink_pending (s : State) (l : Nat) : (State.disableLink s l).pending = s.pending := by
  unfold State.disableLink
  dsimp only
  split <;> simp

@[simp] theorem State.enableLink_pending (s : State) (l : Nat) : (State.enableLink s l).pending = s.pending := by
  unfold State.enableLink
  dsimp only
  split <;> simp

@[simp] theorem execLinkDisable_queue (s : State) (l : Nat) : NextQueue s.pending (execLinkDisable l s) := by simp [execLinkDisable]

@[simp] theorem execLinkEnable_queue (s : State) (l : Nat) : NextQueue s.pending (execLinkEnable l s) := by simp [execLinkEnable]

@[simp] theorem execLinkDrainEnd_queue (s : State) (l : Nat) : NextQueue s.pending (execLinkDrainEnd l s) := by
  unfold execLinkDrainEnd
  split <;> simp

@[simp] theorem execLinkQuarantine_queue (s : State) (l : Nat) : NextQueue s.pending (execLinkQuarantine l s) := by
  unfold execLinkQuarantine
  dsimp only
  split <;> simp

@[simp] theorem execBackoffEnd_queue (s : State) (l : Nat) : NextQueue s.pending (execBackoffEnd l s) := by
  unfold execBackoffEnd
  split <;> simp

@[simp] theorem execBackoffRelax_queue (s : State) (l : Nat) : NextQueue s.pending (execBackoffRelax l s) := by
  unfold execBackoffRelax
  split <;> simp

@[simp] theorem State.noRoute_pending (s : State) (l : Nat) (p : LPacket) : (State.noRoute s l p).pending = s.pending := by
  unfold State.noRoute
  split <;> rfl

@[simp] theorem execPacketForward_queue (s : State) (arrival : Option Nat) (p : LPacket) (dwell : Nat) :
    NextQueue s.pending (execPacketForward arrival p dwell s) := by
  unfold execPacketForward
  dsimp only
  (repeat' split) <;> simp

@[simp] theorem State.sendOut_pending (s : State) (p : LPacket) : (State.sendOut s p).pending = s.pending := rfl

@[simp] theorem State.remoteServe_pending (s : State) (l : Nat) (p : LPacket) (n : Nat) (write : Bool) (go : State → State)
    (hg : ∀ y, (go y).pending = y.pending) : (s.remoteServe l p n write go).pending = s.pending := by
  unfold State.remoteServe
  dsimp only
  (repeat' split) <;> simp [hg]

@[simp] theorem execRead_queue (s : State) (l : Nat) (p : LPacket) : NextQueue s.pending (execRead l p s) := by simp [execRead]

@[simp] theorem State.remoteSubmit_pending (s : State) (l : Nat) (p : LPacket) (m port : Nat) :
    (State.remoteSubmit s l p m port).pending = s.pending := by
  unfold State.remoteSubmit
  dsimp only
  split
  · simp
  · split
    · simp
    · split
      all_goals
        next hx =>
          have h := (fst_pending hx).trans (State.probSubmit_pending ..)
          simp_all

@[simp] theorem execWrite_queue (s : State) (l : Nat) (p : LPacket) : NextQueue s.pending (execWrite l p s) := by
  unfold execWrite
  split <;> simp

@[simp] theorem execInstarQ_queue (s : State) (l : Nat) (p : LPacket) : NextQueue s.pending (execInstarQ l p s) := by
  refine nextQueue_next.mpr (State.remoteServe_pending (hg := fun y => ?_) ..)
  simp

@[simp] theorem State.endRemote_pending (s : State) (r : Remote) : (State.endRemote s r).pending = s.pending := rfl

@[simp] theorem State.remoteDone_pending (s : State) (c : Nat) (e0 : Engine) (seq : Nat) :
    (State.remoteDone s c e0 seq).pending = s.pending := by
  unfold State.remoteDone
  (repeat' split) <;> simp

@[simp] theorem State.gotEntry_pending (s : State) (c : Nat) (e0 : Engine) (seq n : Nat) (bs : List Byte) (marked : Bool) (page : Option (Nat × Word)) :
    (State.gotEntry s c e0 seq n bs marked page).pending = s.pending := by simp [State.gotEntry]

@[simp] theorem execReadData_queue (s : State) (l : Nat) (p : LPacket) : NextQueue s.pending (execReadData l p s) := by
  unfold execReadData
  dsimp only
  (repeat' split) <;> simp

@[simp] theorem execWriteAck_queue (s : State) (l : Nat) (p : LPacket) : NextQueue s.pending (execWriteAck l p s) := by
  unfold execWriteAck
  dsimp only
  (repeat' split) <;> simp

@[simp] theorem execInstarA_queue (s : State) (l : Nat) (p : LPacket) : NextQueue s.pending (execInstarA l p s) := by
  unfold execInstarA
  dsimp only
  (repeat' split) <;> simp

@[simp] theorem State.remoteError_pending (s : State) (r : Remote) (ev : Ev) (status partner : Nat) :
    (State.remoteError s r ev status partner).pending = s.pending := by
  unfold State.remoteError
  (repeat' split) <;> simp

@[simp] theorem State.attemptLost_pending (s : State) (r : Remote) :
    (State.attemptLost s r).pending = s.pending := by simp [State.attemptLost]

@[simp] theorem execNak_queue (s : State) (l : Nat) (p : LPacket) : NextQueue s.pending (execNak l p s) := by
  unfold execNak
  dsimp only
  (repeat' split) <;> simp

@[simp] theorem execRemoteAttemptTimeout_queue (s : State) (die tag : Nat) : NextQueue s.pending (execRemoteAttemptTimeout die tag s) := by
  unfold execRemoteAttemptTimeout
  split <;> simp

@[simp] theorem execMgmtRoute_queue (s : State) (l : Nat) (p : LPacket) :
    NextQueue s.pending (execMgmtRoute l p s) := by simp [execMgmtRoute]

@[simp] theorem State.applyEntry_pending (s : State) (r : Retired) : (State.applyEntry s r).pending = s.pending := by
  unfold State.applyEntry
  split <;> rfl

@[simp] theorem State.applyRetired_pending (s : State) (rs : List Retired) :
    (State.applyRetired s rs).pending = s.pending := by simp [State.applyRetired]

@[simp] theorem State.profiled_pending (s : State) : (State.profiled s).pending = s.pending := rfl

@[simp] theorem State.cold_pending (s : State) (d : DevState) : (State.cold s d).pending = s.pending := by
  unfold State.cold
  dsimp only
  refine (foldl_pending (fun s a => ?_) _ _).trans ?_
  · simp
  · simp

@[simp] theorem State.lost_pending (s : State) : (State.lost s).pending = s.pending := rfl

@[simp] theorem State.deviceReset_pending (s : State) : (State.deviceReset s).pending = s.pending := by
  unfold State.deviceReset
  dsimp only
  refine (foldl_pending (fun s a => ?_) _ _).trans ?_
  · simp
  · simp

@[simp] theorem State.powerDown_pending (s : State) : (State.powerDown s).pending = s.pending := rfl

@[simp] theorem State.retune_pending (s : State) : (State.retune s).pending = s.pending := by simp [State.retune]

@[simp] theorem execDividerRampStep_queue (s : State) (cd : Nat) : NextQueue s.pending (execDividerRampStep cd s) := by
  unfold execDividerRampStep
  dsimp only
  split <;> simp

@[simp] theorem State.useSource_pending (s : State) (n : Nat) : (State.useSource s n).pending = s.pending := by simp [State.useSource]

@[simp] theorem execClockOffer_queue (s : State) (candidate : Nat) : NextQueue s.pending (execClockOffer candidate s) := by
  unfold execClockOffer
  dsimp only
  (repeat' split) <;> simp

@[simp] theorem execClockWithdraw_queue (s : State) (candidate : Nat) : NextQueue s.pending (execClockWithdraw candidate s) := by
  unfold execClockWithdraw
  (repeat' split) <;> simp

@[simp] theorem execCandidateStable_queue (s : State) (candidate : Nat) : NextQueue s.pending (execCandidateStable candidate s) := by
  unfold execCandidateStable
  dsimp only
  split <;> simp

@[simp] theorem execPllLock_queue (s : State) : NextQueue s.pending (execPllLock s) := by simp [execPllLock]

@[simp] theorem State.setSrcCfg_pending (s : State) (v : Nat) : (State.setSrcCfg s v).pending = s.pending := by simp [State.setSrcCfg]

@[simp] theorem execEngineGateClose_queue (s : State) (c : Nat) (e0 : Engine) : NextQueue s.pending (execEngineGateClose c e0 s) := by
  unfold execEngineGateClose
  dsimp only
  split <;> simp

@[simp] theorem execClusterGateIdle_queue (s : State) (cd : Nat) : NextQueue s.pending (execClusterGateIdle cd s) := by
  unfold execClusterGateIdle
  split <;> simp

@[simp] theorem State.newTarget_pending (s : State) (cd : Nat) : (State.newTarget s cd).pending = s.pending := rfl

@[simp] theorem State.phaseRule_pending (s : State) (cd : Nat) : (State.phaseRule s cd).pending = s.pending := by simp [State.phaseRule]

@[simp] theorem execPhaseFail_queue (s : State) (cd phase : Nat) : NextQueue s.pending (execPhaseFail cd phase s) := by
  unfold execPhaseFail
  split <;> simp

@[simp] theorem execPhaseEmergencyEnd_queue (s : State) : NextQueue s.pending (execPhaseEmergencyEnd s) := nextQueue_next.mpr rfl

@[simp] theorem execDroop_queue (s : State) (cd sensor mv : Nat) : NextQueue s.pending (execDroop cd sensor mv s) := by
  unfold execDroop
  dsimp only
  (repeat' split) <;> simp

@[simp] theorem execDomainBudgetGrant_queue (s : State) (cd neighbourMa vpkgMa : Nat) :
    NextQueue s.pending (execDomainBudgetGrant cd neighbourMa vpkgMa s) := by
  unfold execDomainBudgetGrant
  dsimp only
  split <;> simp

@[simp] theorem execRampStep_queue (s : State) (cd : Nat) : NextQueue s.pending (execRampStep cd s) := by
  unfold execRampStep
  dsimp only
  split <;> simp

@[simp] theorem State.capUnmet_pending (s : State) (cap : Nat) : (State.capUnmet s cap).pending = s.pending := by simp [State.capUnmet]

@[simp] theorem execCapControlPeriod_queue (s : State) (mean1ms mean10ms : Nat) :
    NextQueue s.pending (execCapControlPeriod mean1ms mean10ms s) := by
  unfold execCapControlPeriod
  split <;> simp

@[simp] theorem execFastLimit_queue (s : State) (windowW : Nat) : NextQueue s.pending (execFastLimit windowW s) := by
  unfold execFastLimit
  split <;> simp

@[simp] theorem execFastLimitRelease_queue (s : State) (windowW : Nat) : NextQueue s.pending (execFastLimitRelease windowW s) := by
  unfold execFastLimitRelease
  split <;> simp

@[simp] theorem execSustainedOver_queue (s : State) (mean1ms : Nat) : NextQueue s.pending (execSustainedOver mean1ms s) := by
  unfold execSustainedOver
  split <;> simp

@[simp] theorem State.takeSample_pending (s : State) (x : Sample) : (State.takeSample s x).pending = s.pending := by
  unfold State.takeSample
  split <;> simp

@[simp] theorem State.agree_pending (s : State) (a : Nat) : (State.agree s a).pending = s.pending := by simp [State.agree]

@[simp] theorem State.layerUpdate_pending (s : State) (z : Nat) : (State.layerUpdate s z).pending = s.pending := rfl

@[simp] theorem State.packageUpdate_pending (s : State) (m : Nat) : (State.packageUpdate s m).pending = s.pending := rfl

@[simp] theorem State.cycleUpdate_pending (s : State) (n : Nat) : (State.cycleUpdate s n).pending = s.pending := by
  unfold State.cycleUpdate
  (repeat' split) <;> simp

@[simp] theorem State.inletUpdate_pending (s : State) : (State.inletUpdate s).pending = s.pending := by simp [State.inletUpdate]

@[simp] theorem execThermalZoneSample_queue (s : State) (zone : Nat) (samples : List Sample) :
    NextQueue s.pending (execThermalZoneSample zone samples s) := by
  unfold execThermalZoneSample
  (repeat' split) <;> simp

@[simp] theorem State.bandUpdate_pending (s : State) : (State.bandUpdate s).pending = s.pending := rfl

@[simp] theorem State.lowFlow_pending (s : State) : (State.lowFlow s).pending = s.pending := rfl

@[simp] theorem execFlowCompute_queue (s : State) (tachHz16 powerW : Nat) : NextQueue s.pending (execFlowCompute tachHz16 powerW s) := by
  unfold execFlowCompute
  split
  · simp
  · extract_lets qt qe thermLost judged failed open_ q s0 good s1 s2
    have h0 : s0.pending = s.pending := by simp only [s0, ite_pending, State.draw_pending, ite_self]
    have h1 : s1.pending = s.pending := (State.onHeat_pending ..).trans h0
    have h2 : s2.pending = s.pending := (State.bandUpdate_pending _).trans <| by
      rw [ite_pending, State.logEvent_pending, ite_self, h1]
    clear_value s2
    (repeat' split) <;> simp [h2]

@[simp] theorem execLowFlowLeave_queue (s : State) : NextQueue s.pending (execLowFlowLeave s) := by
  unfold execLowFlowLeave
  split <;> simp

@[simp] theorem execCoolantAbsent_queue (s : State) : NextQueue s.pending (execCoolantAbsent s) := by
  unfold execCoolantAbsent
  split <;> simp

@[simp] theorem execFastRise_queue (s : State) (channel : Nat) : NextQueue s.pending (execFastRise channel s) := by
  unfold execFastRise
  (repeat' split) <;> simp

@[simp] theorem execStackRestart_queue (s : State) (stack : Nat) : NextQueue s.pending (execStackRestart stack s) := by
  unfold execStackRestart
  dsimp only
  (repeat' split) <;> simp

@[simp] theorem execFlowProbe_queue (s : State) (ev : ProbeEvent) : NextQueue s.pending (execFlowProbe ev s) := by
  unfold execFlowProbe
  (repeat' split) <;> simp

@[simp] theorem execThermalTrip_queue (s : State) (channel : Nat) : NextQueue s.pending (execThermalTrip channel s) := by
  unfold execThermalTrip
  (repeat' split) <;> simp

@[simp] theorem execRthMeasure_queue (s : State) (stack : Nat) (tj0 tc0 : Int) (p0 : Nat) (tj1 tc1 : Int) (p1 : Nat) :
    NextQueue s.pending (execRthMeasure stack tj0 tc0 p0 tj1 tc1 p1 s) := by
  unfold execRthMeasure
  dsimp only
  (repeat' split) <;> simp

@[simp] theorem State.powerUp_pending (s : State) : (State.powerUp s).pending = s.pending := by simp [State.powerUp]

@[simp] theorem State.leaveSaving_pending (s : State) : (State.leaveSaving s).pending = s.pending := by simp [State.leaveSaving]

@[simp] theorem State.conduct_pending (s : State) (c : Nat) : (State.conduct s c).pending = s.pending := by simp [State.conduct]

@[simp] theorem State.moveLoad_pending (s : State) (f : Nat) : (State.moveLoad s f).pending = s.pending := by simp [State.moveLoad]

@[simp] theorem State.feedOk_pending (s : State) (f : Nat) : (State.feedOk s f).pending = s.pending := rfl

@[simp] theorem execFeedInRange_queue (s : State) (f : Nat) : NextQueue s.pending (execFeedInRange f s) := by
  unfold execFeedInRange
  split <;> simp

@[simp] theorem execFeedReturn_queue (s : State) (f : Nat) : NextQueue s.pending (execFeedReturn f s) := by
  unfold execFeedReturn
  split <;> simp

@[simp] theorem State.feedLost_pending (s : State) (f : Nat) : (State.feedLost s f).pending = s.pending := by simp [State.feedLost]

@[simp] theorem execFeedOutOfRange_queue (s : State) (f : Nat) : NextQueue s.pending (execFeedOutOfRange f s) := by
  unfold execFeedOutOfRange
  split <;> simp

@[simp] theorem State.dropFeed_pending (s : State) (f : Nat) : (State.dropFeed s f).pending = s.pending := by simp [State.dropFeed]

@[simp] theorem execFeedOvervoltage_queue (s : State) (f : Nat) : NextQueue s.pending (execFeedOvervoltage f s) := by
  unfold execFeedOvervoltage
  split <;> simp

@[simp] theorem execFeedReconnect_queue (s : State) (f : Nat) : NextQueue s.pending (execFeedReconnect f s) := by
  unfold execFeedReconnect
  split <;> simp

@[simp] theorem execFeedMateOpen_queue (s : State) (f : Nat) : NextQueue s.pending (execFeedMateOpen f s) := by
  unfold execFeedMateOpen
  split <;> simp

@[simp] theorem execFeedSwitchover_queue (s : State) : NextQueue s.pending (execFeedSwitchover s) := by
  unfold execFeedSwitchover
  (repeat' split) <;> simp

@[simp] theorem execHousekeepingSupplyUp_queue (s : State) : NextQueue s.pending (execHousekeepingSupplyUp s) := nextQueue_next.mpr rfl

@[simp] theorem execFirstStageStop_queue (s : State) : NextQueue s.pending (execFirstStageStop s) := nextQueue_next.mpr rfl

@[simp] theorem execFirstStageStart_queue (s : State) : NextQueue s.pending (execFirstStageStart s) := by
  unfold execFirstStageStart
  split <;> simp

@[simp] theorem execOrNodeLow_queue (s : State) : NextQueue s.pending (execOrNodeLow s) := by
  unfold execOrNodeLow
  split <;> simp

@[simp] theorem execPowerMeasure_queue (s : State) (aMv bMv powerMw vpkgA : Nat) :
    NextQueue s.pending (execPowerMeasure aMv bMv powerMw vpkgA s) := by
  unfold execPowerMeasure
  split <;> simp

@[simp] theorem execRstNAssert_queue (s : State) : NextQueue s.pending (execRstNAssert s) := by
  unfold execRstNAssert
  split <;> simp

@[simp] theorem execRstNRelease_queue (s : State) : NextQueue s.pending (execRstNRelease s) := nextQueue_next.mpr rfl

@[simp] theorem execSag_queue (s : State) (orMv : Nat) : NextQueue s.pending (execSag orMv s) := by
  unfold execSag
  split <;> simp

@[simp] theorem execSagRecordDone_queue (s : State) (orMv : Nat) : NextQueue s.pending (execSagRecordDone orMv s) := by
  unfold execSagRecordDone
  (repeat' split) <;> simp

@[simp] theorem State.readAll_pending (s : State) (l : List (Nat × Nat)) : (State.readAll s l).1.pending = s.pending := by
  induction l generalizing s with
  | nil => rfl
  | cons r t ih =>
    unfold State.readAll
    exact (ih _).trans (s.readRange_pending ..)

@[simp] theorem State.writeAll_pending (s : State) (l : List (Nat × Nat)) (bs : List Byte) (ps : List Bool) :
    (State.writeAll s l bs ps).pending = s.pending := by
  induction l generalizing s bs ps with
  | nil => rfl
  | cons r t ih => exact (ih ..).trans (s.writeRange_pending ..)

end Sys2Proof.Machine
end

