-- ==== Sys2Proof/Proofs/QueueOfNetworkAndBoot.lean ====
section
/-!
The queue of waiting commands (00 R12), part 6 of 8: the firing of tasks and of collectives, the Ethernet ports and their protocols,
bring-up and resets leave it as it was. The lemmas stand in the order of the model.
-/

namespace Sys2Proof.Machine

@[simp] theorem State.modColl_pending (s : State) (task : Nat) (f : Coll → Coll) : (State.modColl s task f).pending = s.pending := rfl

@[simp] theorem State.chunkFor_pending (s : State) (c : Coll) (rank : Nat) :
    (State.chunkFor s c rank).1.pending = s.pending := by simp [State.chunkFor]

@[simp] theorem State.sendChunk_pending (s : State) (c : Coll) (rank step : Nat) (alt : Bool) :
    (State.sendChunk s c rank step alt).pending = s.pending := by simp [State.sendChunk]

@[simp] theorem State.failColl_pending (s : State) (task status : Nat) :
    (State.failColl s task status).pending = s.pending := by simp [State.failColl]

@[simp] theorem State.sendAbort_pending (s : State) (c : Coll) (rank status : Nat) :
    (State.sendAbort s c rank status).pending = s.pending := by
  unfold State.sendAbort
  split <;> rfl

@[simp] theorem State.tryColl_pending (s : State) (task : Nat) : (State.tryColl s task).pending = s.pending := by
  unfold State.tryColl
  dsimp only
  (repeat' split) <;> simp

@[simp] theorem State.fireColl_pending (s : State) (t0 : Task) (c : Coll) :
    (State.fireColl s t0 c).pending = s.pending := by simp [State.fireColl]

@[simp] theorem execTaskFire_queue (s : State) (task : Nat) : NextQueue s.pending (execTaskFire task s) := by
  unfold execTaskFire
  (repeat' split) <;> simp

@[simp] theorem State.admitColl_pending (s : State) (d : CollDesc) : (State.admitColl s d).1.pending = s.pending := by
  unfold State.admitColl
  dsimp only
  split
  · rfl
  · split
    · split
      · rfl
      next pr _ _ s1 hx =>
        have h : s1.pending = s.pending := (SomeQueue.bind (s.placeTensor_queue ..) fun t ht => ht ▸ t.placeTensor_queue ..).eq hx
        simp [h]
    · rfl

@[simp] theorem State.collAck_pending (s : State) (p : LPacket) (own status : Nat) :
    (State.collAck s p own status).pending = s.pending := rfl

@[simp] theorem execCollData_queue (s : State) (l : Nat) (p : LPacket) : NextQueue s.pending (execCollData l p s) := by
  unfold execCollData
  dsimp only
  (repeat' split) <;> simp

@[simp] theorem execCollAck_queue (s : State) (l : Nat) (p : LPacket) : NextQueue s.pending (execCollAck l p s) := by
  unfold execCollAck
  dsimp only
  (repeat' split) <;> simp

@[simp] theorem execCollAbort_queue (s : State) (l : Nat) (p : LPacket) : NextQueue s.pending (execCollAbort l p s) := by
  unfold execCollAbort
  dsimp only
  (repeat' split) <;> simp

@[simp] theorem execCollChunkTimeout_queue (s : State) (task step rank : Nat) :
    NextQueue s.pending (execCollChunkTimeout task step rank s) := by
  unfold execCollChunkTimeout
  (repeat' split) <;> simp

@[simp] theorem execEarlyChunkResend_queue (s : State) (task step rank : Nat) :
    NextQueue s.pending (execEarlyChunkResend task step rank s) := by
  unfold execEarlyChunkResend
  (repeat' split) <;> simp

@[simp] theorem execCollTimeLimit_queue (s : State) (task : Nat) : NextQueue s.pending (execCollTimeLimit task s) := by
  unfold execCollTimeLimit
  (repeat' split) <;> simp

@[simp] theorem State.dropHolder_pending (s : State) : (State.dropHolder s).pending = s.pending := rfl

@[simp] theorem State.windowDown_pending (s : State) (w state : Nat) : (State.windowDown s w state).pending = s.pending := by
  unfold State.windowDown
  split <;> simp

@[simp] theorem State.qpError_pending (s : State) (q : Nat) : (State.qpError s q).pending = s.pending := by
  unfold State.qpError
  dsimp only
  (repeat' split) <;> simp

@[simp] theorem State.enablePort_pending (s : State) (p : Nat) : (State.enablePort s p).pending = s.pending := by
  unfold State.enablePort
  split <;> rfl

@[simp] theorem State.disablePort_pending (s : State) (p : Nat) : (State.disablePort s p).pending = s.pending := by
  unfold State.disablePort
  split <;> rfl

@[simp] theorem execPortEnable_queue (s : State) (p : Nat) : NextQueue s.pending (execPortEnable p s) := by simp [execPortEnable]

@[simp] theorem execPortDisable_queue (s : State) (p : Nat) : NextQueue s.pending (execPortDisable p s) := by simp [execPortDisable]

@[simp] theorem execPortDrainEnd_queue (s : State) (p : Nat) : NextQueue s.pending (execPortDrainEnd p s) := by
  unfold execPortDrainEnd
  split <;> simp

@[simp] theorem State.writeMode_pending (s : State) (p v : Nat) : (State.writeMode s p v).pending = s.pending := by
  unfold State.writeMode
  split <;> rfl

@[simp] theorem execModeSelWrite_queue (s : State) (p v : Nat) : NextQueue s.pending (execModeSelWrite p v s) := by simp [execModeSelWrite]

@[simp] theorem State.xoff_pending (s : State) (p prio : Nat) : (State.xoff s p prio).pending = s.pending := by simp [State.xoff]

@[simp] theorem State.writePfcMask_pending (s : State) (p : Nat) (v : Byte) :
    (State.writePfcMask s p v).pending = s.pending := by simp [State.writePfcMask]

@[simp] theorem execPfcMaskWrite_queue (s : State) (p : Nat) (v : Byte) :
    NextQueue s.pending (execPfcMaskWrite p v s) := by simp [execPfcMaskWrite]

@[simp] theorem execPfcRepeat_queue (s : State) (p prio : Nat) : NextQueue s.pending (execPfcRepeat p prio s) := by
  unfold execPfcRepeat
  dsimp only
  split <;> simp

@[simp] theorem execPfcXon_queue (s : State) (p prio occupancy : Nat) : NextQueue s.pending (execPfcXon p prio occupancy s) := by
  unfold execPfcXon
  dsimp only
  (repeat' split) <;> simp

@[simp] theorem State.pfcRx_pending (s : State) (p prio quanta : Nat) :
    (State.pfcRx s p prio quanta).pending = s.pending := by simp [State.pfcRx]

@[simp] theorem execPfcFrameRx_queue (s : State) (p prio quanta : Nat) :
    NextQueue s.pending (execPfcFrameRx p prio quanta s) := by simp [execPfcFrameRx]

@[simp] theorem execPauseTimeExpiry_queue (s : State) (p prio : Nat) :
    NextQueue s.pending (execPauseTimeExpiry p prio s) := nextQueue_next.mpr rfl

@[simp] theorem execEthPfcStorm_queue (s : State) (p prio : Nat) : NextQueue s.pending (execEthPfcStorm p prio s) := by
  unfold execEthPfcStorm
  split <;> simp

@[simp] theorem execStormIgnoreEnd_queue (s : State) (p prio : Nat) :
    NextQueue s.pending (execStormIgnoreEnd p prio s) := nextQueue_next.mpr rfl

@[simp] theorem State.sendFrame_pending (s : State) (p what : Nat) : (State.sendFrame s p what).pending = s.pending := rfl

@[simp] theorem State.probe_pending (s : State) (p : Nat) (v6 : Bool) : (State.probe s p v6).pending = s.pending := rfl

@[simp] theorem State.withdraw_pending (s : State) (p : Nat) (v6 : Bool) : (State.withdraw s p v6).pending = s.pending := by
  unfold State.withdraw
  split <;> simp

@[simp] theorem State.duplicate_pending (s : State) (p : Nat) (v6 : Bool) : (State.duplicate s p v6).pending = s.pending := by
  unfold State.duplicate
  dsimp only
  split <;> simp

@[simp] theorem execAddressProbe_queue (s : State) (p : Nat) (v6 duplicate : Bool) :
    NextQueue s.pending (execAddressProbe p v6 duplicate s) := by
  unfold execAddressProbe
  dsimp only
  (repeat' split) <;> simp

@[simp] theorem State.startAddr_pending (s : State) (p : Nat) (v6 : Bool) :
    (State.startAddr s p v6).pending = s.pending := by simp [State.startAddr]

@[simp] theorem execPortUp_queue (s : State) (p : Nat) : NextQueue s.pending (execPortUp p s) := by
  unfold execPortUp
  split <;> simp

@[simp] theorem execPortFault_queue (s : State) (p : Nat) (loc remote : Bool) :
    NextQueue s.pending (execPortFault p loc remote s) := by simp [execPortFault]

@[simp] theorem execDhcpRenew_queue (s : State) (p : Nat) (v6 : Bool) : NextQueue s.pending (execDhcpRenew p v6 s) := by
  unfold execDhcpRenew
  dsimp only
  (repeat' split) <;> simp

@[simp] theorem execDhcpRebind_queue (s : State) (p : Nat) (v6 : Bool) : NextQueue s.pending (execDhcpRebind p v6 s) := by
  unfold execDhcpRebind
  dsimp only
  (repeat' split) <;> simp

@[simp] theorem execDhcpReply_queue (s : State) (p : Nat) (v6 : Bool) (addr : BitVec 128) (prefixLen : Nat) (router : Word) :
    NextQueue s.pending (execDhcpReply p v6 addr prefixLen router s) := by
  unfold execDhcpReply
  dsimp only
  (repeat' split) <;> simp

@[simp] theorem execLeaseExpiry_queue (s : State) (p : Nat) (v6 : Bool) : NextQueue s.pending (execLeaseExpiry p v6 s) := by
  unfold execLeaseExpiry
  dsimp only
  (repeat' split) <;> simp

@[simp] theorem execArp_queue (s : State) (p : Nat) (target sender : Word) (senderMac : BitVec 48) :
    NextQueue s.pending (execArp p target sender senderMac s) := by
  unfold execArp
  dsimp only
  (repeat' split) <;> simp

@[simp] theorem execArpReply_queue (s : State) (p : Nat) (ip : Word) (mac : BitVec 48) : NextQueue s.pending (execArpReply p ip mac s) := by
  unfold execArpReply
  (repeat' split) <;> simp

@[simp] theorem execNeighbourSolicitation_queue (s : State) (p : Nat) (target : BitVec 128) :
    NextQueue s.pending (execNeighbourSolicitation p target s) := by
  unfold execNeighbourSolicitation
  dsimp only
  split <;> simp

@[simp] theorem execNeighbourAdvertisement_queue (s : State) (p : Nat) (ip : BitVec 128) :
    NextQueue s.pending (execNeighbourAdvertisement p ip s) := by
  unfold execNeighbourAdvertisement
  dsimp only
  (repeat' split) <;> simp

@[simp] theorem execRouterAdvertisement_queue (s : State) (p : Nat) (router : BitVec 128) :
    NextQueue s.pending (execRouterAdvertisement p router s) := by
  unfold execRouterAdvertisement
  split <;> simp

@[simp] theorem execEcho_queue (s : State) (p : Nat) (v6 : Bool) (payload : Nat) : NextQueue s.pending (execEcho p v6 payload s) := by
  unfold execEcho
  dsimp only
  (repeat' split) <;> simp

@[simp] theorem State.fecSeen_pending (s : State) (p : Nat) (f : EthFrame) : (State.fecSeen s p f).pending = s.pending := rfl

@[simp] theorem execEthFrameRx_queue (s : State) (p : Nat) (f : EthFrame) : NextQueue s.pending (execEthFrameRx p f s) := by
  unfold execEthFrameRx
  dsimp only
  refine nextQueue_ite ?_ (nextQueue_ite ?_ (nextQueue_ite ?_ (nextQueue_ite ?_ (nextQueue_ite ?_ (nextQueue_ite ?_ ?_)))))
  all_goals try simp
  split
  · simp
  · simp
  · simp
  · (repeat' split) <;> simp

@[simp] theorem execFrameTx_queue (s : State) (p prio size : Nat) : NextQueue s.pending (execFrameTx p prio size s) := by
  unfold execFrameTx
  dsimp only
  (repeat' split) <;> simp

@[simp] theorem State.modSlot_pending (s : State) (a : Bool) (g : Slot → Slot) : (State.modSlot s a g).pending = s.pending := rfl

@[simp] theorem State.raiseBoot_pending (s : State) (code : Nat) : (State.raiseBoot s code).pending = s.pending := by
  unfold State.raiseBoot
  split <;> rfl

@[simp] theorem State.raiseFenced_pending (s : State) (before : Nat) : (State.raiseFenced s before).pending = s.pending := by
  unfold State.raiseFenced
  split <;> rfl

@[simp] theorem execPoweringDone_queue (s : State) (holdupUf : Nat) : NextQueue s.pending (execPoweringDone holdupUf s) := by
  unfold execPoweringDone
  split <;> simp

@[simp] theorem State.notBooted_pending (s : State) : (State.notBooted s).pending = s.pending := rfl

@[simp] theorem State.takeImage_pending (s : State) (im : Image) : (State.takeImage s im).pending = s.pending := rfl

@[simp] theorem State.takeRecovery_pending (s : State) (i : RomInput) (code : Nat) : (State.takeRecovery s i code).pending = s.pending := by
  unfold State.takeRecovery
  split <;> simp

@[simp] theorem State.chooseImage_pending (s : State) (i : RomInput) (l : List Bool) (fell : Bool) :
    (State.chooseImage s i l fell).pending = s.pending := by
  induction l generalizing s fell with
  | nil => exact s.takeRecovery_pending ..
  | cons a t ih =>
    unfold State.chooseImage
    split
    · split <;> simp
    · exact (ih ..).trans (s.modSlot_pending ..)

@[simp] theorem State.readProfile_pending (s : State) (i : RomInput) :
    (State.readProfile s i).pending = s.pending := by simp [State.readProfile]

@[simp] theorem execRomEntry_queue (s : State) (i : RomInput) : NextQueue s.pending (execRomEntry i s) := by
  unfold execRomEntry
  split
  · simp
  · extract_lets s1 s2 s3
    have h1 : s1.pending = s.pending := by simp only [s1, ite_pending, State.onFw_pending, ite_self]
    refine nextQueue_ite (by simp [h1]) (nextQueue_ite (by simp [h1]) (nextQueue_ite (by simp [h1]) (nextQueue_ite (by simp [h1]) ?_)))
    have h2 : s2.pending = s.pending := by simp only [s2, ite_pending, State.takeRecovery_pending, State.chooseImage_pending, ite_self, h1]
    have h3 : s3.pending = s.pending := (State.onPwr_pending ..).trans ((State.readProfile_pending ..).trans h2)
    clear_value s2 s3
    refine nextQueue_ite (by simp [h2]) (nextQueue_next.mpr ?_)
    simp [h3]

@[simp] theorem State.finishCocoon_pending (s : State) : (State.finishCocoon s).pending = s.pending := by
  unfold State.finishCocoon
  split <;> rfl

@[simp] theorem State.startTraining_pending (s : State) : (State.startTraining s).pending = s.pending := by simp [State.startTraining]

@[simp] theorem execBundleHash_queue (s : State) (componentsOk : Bool) : NextQueue s.pending (execBundleHash componentsOk s) := by
  unfold execBundleHash
  (repeat' split) <;> simp

@[simp] theorem execGuestAbsent_queue (s : State) : NextQueue s.pending (execGuestAbsent s) := by
  unfold execGuestAbsent
  split <;> simp

@[simp] theorem execTrainingDone_queue (s : State) (failedPackages failedCores : List Nat) :
    NextQueue s.pending (execTrainingDone failedPackages failedCores s) := by
  unfold execTrainingDone
  dsimp only
  split <;> simp

@[simp] theorem execFillDone_queue (s : State) : NextQueue s.pending (execFillDone s) := by
  unfold execFillDone
  dsimp only
  split <;> simp

@[simp] theorem execCoreSelftest_queue (s : State) (failedClusters : List Nat) (repairedRows : Nat) :
    NextQueue s.pending (execCoreSelftest failedClusters repairedRows s) := by
  unfold execCoreSelftest
  split <;> simp

@[simp] theorem execBroadcastStart_queue (s : State) (chunks : Nat) : NextQueue s.pending (execBroadcastStart chunks s) := by
  unfold execBroadcastStart
  dsimp only
  split <;> simp

@[simp] theorem execChunkWrite_queue (s : State) (die chunk : Nat) (missed : List Nat) :
    NextQueue s.pending (execChunkWrite die chunk missed s) := by
  unfold execChunkWrite
  split <;> simp

@[simp] theorem State.roundFailed_pending (s : State) (cd : Nat) :
    (State.roundFailed s cd).pending = s.pending := by simp [State.roundFailed]

@[simp] theorem execRepairRequest_queue (s : State) (cd : Nat) (digestOk : Bool) :
    NextQueue s.pending (execRepairRequest cd digestOk s) := by
  unfold execRepairRequest
  (repeat' split) <;> simp

@[simp] theorem execRepairRoundTimeout_queue (s : State) (cd : Nat) : NextQueue s.pending (execRepairRoundTimeout cd s) := by
  unfold execRepairRoundTimeout
  split <;> simp

@[simp] theorem State.release_pending (s : State) (cds : List Nat) : (State.release s cds).pending = s.pending := by simp [State.release]

@[simp] theorem State.finishSwitch_pending (s : State) : (State.finishSwitch s).pending = s.pending := by
  unfold State.finishSwitch
  split <;> rfl

@[simp] theorem execEclosion_queue (s : State) : NextQueue s.pending (execEclosion s) := by
  unfold execEclosion
  dsimp only
  (repeat' split) <;> simp

@[simp] theorem execLastGaspCopy_queue (s : State) (slot : Nat) : NextQueue s.pending (execLastGaspCopy slot s) := by
  unfold execLastGaspCopy
  (repeat' split) <;> simp

@[simp] theorem State.beginReset_pending (s : State) (cds : List Nat) (all : Bool) (cmd : Option CmdHdr) :
    (State.beginReset s cds all cmd).pending = s.pending := by simp [State.beginReset]

@[simp] theorem State.stopForReset_pending (s : State) (cd : Nat) : (State.stopForReset s cd).pending = s.pending := by
  unfold State.stopForReset
  dsimp only
  (repeat' split) <;> simp

@[simp] theorem State.enterReset_pending (s : State) (cd : Nat) : (State.enterReset s cd).pending = s.pending := rfl

@[simp] theorem State.loseTable_pending (s : State) (n : Nat) : (State.loseTable s n).pending = s.pending := by simp [State.loseTable]

@[simp] theorem State.loseReadiness_pending (s : State) (n : Nat) :
    (State.loseReadiness s n).pending = s.pending := by simp [State.loseReadiness]

@[simp] theorem State.loseDie_pending (s : State) (d : Nat) : (State.loseDie s d).pending = s.pending := by simp [State.loseDie]

@[simp] theorem State.retrainSilk_pending (s : State) : (State.retrainSilk s).pending = s.pending := by simp [State.retrainSilk]

@[simp] theorem execWavesStopped_queue (s : State) : NextQueue s.pending (execWavesStopped s) := by
  unfold execWavesStopped
  (repeat' split) <;> simp

@[simp] theorem execResetSelftestDone_queue (s : State) (failedClusters : List Nat) :
    NextQueue s.pending (execResetSelftestDone failedClusters s) := by
  unfold execResetSelftestDone
  dsimp only
  split <;> simp

@[simp] theorem execDeviceErrorReset_queue (s : State) (event : Nat) : NextQueue s.pending (execDeviceErrorReset event s) := by
  unfold execDeviceErrorReset
  dsimp only
  (repeat' split) <;> simp

@[simp] theorem State.startActivation_pending (s : State) : (State.startActivation s).pending = s.pending := by
  unfold State.startActivation
  split <;> rfl

@[simp] theorem execLiveSwitchStep_queue (s : State) (p : Proc) : NextQueue s.pending (execLiveSwitchStep p s) := by
  unfold execLiveSwitchStep
  (repeat' split) <;> simp

@[simp] theorem State.activateFailed_pending (s : State) : (State.activateFailed s).pending = s.pending := rfl

@[simp] theorem execEmergencyClear_queue (s : State) : NextQueue s.pending (execEmergencyClear s) := by
  unfold execEmergencyClear
  (repeat' split) <;> simp

@[simp] theorem execRollback_queue (s : State) : NextQueue s.pending (execRollback s) := by
  unfold execRollback
  dsimp only
  split <;> simp

@[simp] theorem execSvnAdvance_queue (s : State) : NextQueue s.pending (execSvnAdvance s) := by
  unfold execSvnAdvance
  (repeat' split) <;> simp

@[simp] theorem execStagingEraseDone_queue (s : State) : NextQueue s.pending (execStagingEraseDone s) := by
  unfold execStagingEraseDone
  split <;> simp

end Sys2Proof.Machine
end

