-- ==== Sys2Proof/Proofs/QueueOfRegisters.lean ====
section
/-!
The queue of waiting commands (00 R12), part 7 of 8: the restarts of processors, the registers and the ring, queue pairs, ownership and
the answers to commands leave it as it was. The lemmas stand in the order of the model.
-/

namespace Sys2Proof.Machine

@[simp] theorem execResetDelayExpiry_queue (s : State) : NextQueue s.pending (execResetDelayExpiry s) := by
  unfold execResetDelayExpiry
  split <;> simp

@[simp] theorem State.countSwitched_pending (s : State) (p : Proc) : (State.countSwitched s p).pending = s.pending := by
  unfold State.countSwitched
  split <;> simp

@[simp] theorem State.failRunning_pending (s : State) : (State.failRunning s).pending = s.pending := by
  unfold State.failRunning
  split <;> rfl

@[simp] theorem State.earlyRestart_pending (s : State) : (State.earlyRestart s).pending = s.pending := by simp [State.earlyRestart]

@[simp] theorem State.thirdRestart_pending (s : State) : (State.thirdRestart s).pending = s.pending := by simp [State.thirdRestart]

@[simp] theorem State.restartCluster_pending (s : State) (cd : Nat) :
    (State.restartCluster s cd).pending = s.pending := by simp [State.restartCluster]

@[simp] theorem State.clearAlerts_pending (s : State) (v : Nat) : (State.clearAlerts s v).pending = s.pending := rfl

@[simp] theorem State.writeMask_pending (s : State) (v : Nat) : (State.writeMask s v).pending = s.pending := rfl

@[simp] theorem State.settleWrites_pending (s : State) : (State.settleWrites s).pending = s.pending := by simp [State.settleWrites]

@[simp] theorem State.restart_pending (s : State) (p : Proc) : (State.restart s p).pending = s.pending := by
  unfold State.restart
  split <;> simp

@[simp] theorem execWatchdogExpiry_queue (s : State) (p : Proc) :
    NextQueue s.pending (execWatchdogExpiry p s) := by simp [execWatchdogExpiry]

@[simp] theorem execReportedFault_queue (s : State) (p : Proc) : NextQueue s.pending (execReportedFault p s) := by simp [execReportedFault]

@[simp] theorem State.settleCommands_pending (s : State) : (State.settleCommands s).pending = s.pending := by simp [State.settleCommands]

@[simp] theorem State.settlePhases_pending (s : State) : (State.settlePhases s).pending = s.pending := by simp [State.settlePhases]

@[simp] theorem execProcRestartDone_queue (s : State) (p : Proc) : NextQueue s.pending (execProcRestartDone p s) := by
  unfold execProcRestartDone
  (repeat' split) <;> simp

@[simp] theorem execErrorRecordWrite_queue (s : State) (event unitType unitIndex : Nat) :
    NextQueue s.pending (execErrorRecordWrite event unitType unitIndex s) := by
  unfold execErrorRecordWrite
  split <;> simp

@[simp] theorem execServiceLifeCopy_queue (s : State) (index : Nat) : NextQueue s.pending (execServiceLifeCopy index s) := by
  unfold execServiceLifeCopy
  split <;> simp

@[simp] theorem State.writeActiveMax_pending (s : State) (m v : Nat) : (State.writeActiveMax s m v).pending = s.pending := rfl

@[simp] theorem State.writeOuterCtl_pending (s : State) (m v : Nat) : (State.writeOuterCtl s m v).pending = s.pending := rfl

@[simp] theorem State.setLink_pending (s : State) (l : Nat) (on : Bool) :
    (State.setLink s l on).pending = s.pending := by simp [State.setLink]

@[simp] theorem State.writeLinkCfg_pending (s : State) (l v : Nat) :
    (State.writeLinkCfg s l v).pending = s.pending := by simp [State.writeLinkCfg]

@[simp] theorem State.writePortCfg_pending (s : State) (p v : Nat) :
    (State.writePortCfg s p v).pending = s.pending := by simp [State.writePortCfg]

@[simp] theorem State.writeRcl_pending (s : State) (p v : Nat) : (State.writeRcl s p v).pending = s.pending := rfl

@[simp] theorem State.writeChnCfg_pending (s : State) (ep i : Nat) (value : Dword) :
    (State.writeChnCfg s ep i value).pending = s.pending := by
  have h := execChnCfgWrite_queue s ep i value
  unfold State.writeChnCfg
  split
  next hx => exact h.eq hx
  · rfl

@[simp] theorem State.writeLysId_pending (s : State) (v : Nat) : (State.writeLysId s v).pending = s.pending := by simp [State.writeLysId]

@[simp] theorem State.writeReg_pending (s : State) (u : RegUnit) (off : Nat) (value : Dword) :
    (State.writeReg s u off value).pending = s.pending := by
  unfold State.writeReg
  (repeat' split) <;> simp

@[simp] theorem execActiveMaxWrite_queue (s : State) (m value : Nat) :
    NextQueue s.pending (execActiveMaxWrite m value s) := by simp [execActiveMaxWrite]

@[simp] theorem execLysIdWrite_queue (s : State) (value : Dword) : NextQueue s.pending (execLysIdWrite value s) := by simp [execLysIdWrite]

@[simp] theorem State.refuseWrite_pending (s : State) : (State.refuseWrite s).pending = s.pending := rfl

@[simp] theorem State.writeTail_pending (s : State) (v : Nat) : (State.writeTail s v).pending = s.pending := by
  unfold State.writeTail
  split <;> rfl

@[simp] theorem State.ringReset_pending (s : State) (byI2c : Bool) :
    (State.ringReset s byI2c).pending = s.pending := by simp [State.ringReset]

@[simp] theorem execCmdTailWrite_queue (s : State) (qp : Nat) (value : Half) : NextQueue s.pending (execCmdTailWrite qp value s) := by
  unfold execCmdTailWrite
  (repeat' split) <;> simp

@[simp] theorem execRspHeadWrite_queue (s : State) (qp : Nat) (value : Half) : NextQueue s.pending (execRspHeadWrite qp value s) := by
  unfold execRspHeadWrite
  (repeat' split) <;> simp

@[simp] theorem execRingReset_queue (s : State) (byI2c : Bool) (qp : Nat) : NextQueue s.pending (execRingReset byI2c qp s) := by
  unfold execRingReset
  (repeat' split) <;> simp

@[simp] theorem State.stampWall_pending (s : State) (n m : Nat) (w : Dword) : (State.stampWall s n m w).pending = s.pending := rfl

/-- A command whose effect keeps the queue keeps it. -/
theorem State.command_queue (s : State) (h : CmdHdr) (op : Nat) (body : State → State) (hb : ∀ y, (body y).pending = y.pending) :
    NextQueue s.pending (s.command h op body) := by
  unfold State.command
  split
  · simp
  · dsimp only
    split
    · simp
    · split <;> simp [hb]

@[simp] theorem State.done_pending (s : State) (h0 : CmdHdr) (op : Nat) (results : List Byte) (detail : Word) :
    (State.done s h0 op results detail).pending = s.pending := by simp [State.done]

@[simp] theorem State.refuse_pending (s : State) (h0 : CmdHdr) (op status : Nat) (detail : Word) :
    (State.refuse s h0 op status detail).pending = s.pending := by simp [State.refuse]

@[simp] theorem State.countOwn_pending (s : State) (p : Path) (b : BufRef) :
    (State.countOwn s p b).pending = s.pending := by simp [State.countOwn]

@[simp] theorem State.countNamed_pending (s : State) (p : Path) (b : Option BufRef) : (State.countNamed s p b).pending = s.pending := by
  unfold State.countNamed
  split <;> simp

@[simp] theorem State.fetched_pending (s : State) (p : Path) (entry : List Byte) :
    (State.fetched s p entry).pending = s.pending := by simp [State.fetched]

@[simp] theorem execCommandFetch_queue (s : State) : NextQueue s.pending (execCommandFetch s) := by
  unfold execCommandFetch
  dsimp only
  split <;> simp

@[simp] theorem execResponseWrite_queue (s : State) : NextQueue s.pending (execResponseWrite s) := by
  unfold execResponseWrite
  (repeat' split) <;> simp

@[simp] theorem State.i2cStart_pending (s : State) : (State.i2cStart s).pending = s.pending := by simp [State.i2cStart]

@[simp] theorem State.dcsWrite_pending (s : State) (i2c : Bool) (off v : Nat) :
    (State.dcsWrite s i2c off v).pending = s.pending := by simp [State.dcsWrite]

@[simp] theorem execI2cWriteTransaction_queue (s : State) (x : I2cWrite) : NextQueue s.pending (execI2cWriteTransaction x s) := by
  unfold execI2cWriteTransaction
  split <;> simp

@[simp] theorem execI2cReadTransaction_queue (s : State) (x : I2cAt) (count : Nat) :
    NextQueue s.pending (execI2cReadTransaction x count s) := by
  unfold execI2cReadTransaction
  split <;> simp

@[simp] theorem execI2cGo_queue (s : State) : NextQueue s.pending (execI2cGo s) := by
  unfold execI2cGo
  split <;> simp

@[simp] theorem execAlertClear_queue (s : State) (mask : Dword) : NextQueue s.pending (execAlertClear mask s) := nextQueue_next.mpr rfl

@[simp] theorem execAlertMaskWrite_queue (s : State) (value : Dword) :
    NextQueue s.pending (execAlertMaskWrite value s) := nextQueue_next.mpr rfl

@[simp] theorem execRegisterWrite_queue (s : State) (u : RegUnit) (offset : Nat) (value : Dword) :
    NextQueue s.pending (execRegisterWrite u offset value s) := by
  unfold execRegisterWrite
  split <;> simp

@[simp] theorem execTelemetryRewrite_queue (s : State) : NextQueue s.pending (execTelemetryRewrite s) := by
  unfold execTelemetryRewrite
  split <;> simp

@[simp] theorem State.closeQp_pending (s : State) (q : Nat) : (State.closeQp s q).pending = s.pending := by
  unfold State.closeQp
  split <;> simp

@[simp] theorem State.handBack_pending (s : State) (p : Path) (b : BufRef) (done status : Nat) :
    (State.handBack s p b done status).pending = s.pending := by
  unfold State.handBack
  split <;> rfl

@[simp] theorem State.withBuf_pending (s : State) (h : CmdHdr) (op : Nat) (b : BufRef)
    (go : List Byte → State → State × Nat × Word × List Byte) (hg : KeepsQueue fun y bs => (go bs y).1) :
    (s.withBuf h op b go).pending = s.pending := by
  unfold State.withBuf
  split
  · simp
  · exact (by simp : _ = _).trans (hg s (s.bufIn h.path b))

@[simp] theorem State.outBuf_pending (s : State) (h0 : CmdHdr) (op : Nat) (b : BufRef) (bs : List Byte) (detail : Word) (results : List Byte) :
    (State.outBuf s h0 op b bs detail results).pending = s.pending := by
  unfold State.outBuf
  (repeat' split) <;> simp

@[simp] theorem State.closeWindow_pending (s : State) (w : Nat) : (State.closeWindow s w).pending = s.pending := by
  unfold State.closeWindow
  dsimp only
  split <;> simp

@[simp] theorem State.backDone_pending (s : State) (qp : Nat) : (State.backDone s qp).pending = s.pending := by
  unfold State.backDone
  split <;> simp

@[simp] theorem State.nakError_pending (s : State) (q code : Nat) :
    (State.nakError s q code).pending = s.pending := by simp [State.nakError]

@[simp] theorem State.dcsWrites_pending (s : State) (q n off : Nat) (bs : List Byte) :
    (State.dcsWrites s q n off bs).pending = s.pending := by
  induction n generalizing s off bs with
  | zero => rfl
  | succ n ih =>
    unfold State.dcsWrites
    split
    · rfl
    · dsimp only
      rw [ih]
      (repeat' split) <;> simp

@[simp] theorem State.mgmtPiece_pending (s : State) (q : Nat) (p : Part) (off : Nat) (bs : List Byte) :
    (State.mgmtPiece s q p off bs).pending = s.pending := by
  unfold State.mgmtPiece
  split <;> simp

@[simp] theorem State.inboundSend_pending (s : State) (q set len : Nat) (port : Nat) :
    (State.inboundSend s q set len port).pending = s.pending := by simp [State.inboundSend]

@[simp] theorem State.serveInbound_queue (s : State) (q : Nat) (x : Qp) (r : Held) : LeftQueue s.pending (State.serveInbound s q x r) := by
  unfold State.serveInbound
  refine leftQueue_ite ?_ (leftQueue_ite (by simp) (leftQueue_ite ?_ (leftQueue_ite (by simp) ?_)))
  · split <;> simp
  · refine leftQueue_ite (by simp) (leftQueue_ite ?_ (leftQueue_ite (by simp) (by simp)))
    exact leftQueue_inl.mpr ((State.emit_pending ..).trans (foldl_pending (fun s p => s.mgmtPiece_pending ..) _ _))
  · dsimp only
    split
    · simp
    · split <;> simp
    · refine leftQueue_ite (by simp) ?_
      split <;> simp [apply_ite]

@[simp] theorem State.serveHeld_pending (s : State) (n : Nat) (q : Nat) : (State.serveHeld n s q).pending = s.pending := by
  induction n generalizing s with
  | zero => rfl
  | succ n ih =>
    unfold State.serveHeld
    split
    · rfl
    · split
      · rfl
      · split
        next hx => simp [ih, (s.serveInbound_queue ..).eq hx]
        · simp

@[simp] theorem State.inbound_pending (s : State) (q : Nat) (r : Held) : (State.inbound s q r).pending = s.pending := by
  unfold State.inbound
  split <;> simp

@[simp] theorem execSend_queue (s : State) (qp length : Nat) : NextQueue s.pending (execSend qp length s) := by simp [execSend]

@[simp] theorem execRdmaWrite_queue (s : State) (qp : Nat) (rkey : Word) (va : Nat) (data : List Byte) :
    NextQueue s.pending (execRdmaWrite qp rkey va data s) := by simp [execRdmaWrite]

@[simp] theorem execRdmaRead_queue (s : State) (qp : Nat) (rkey : Word) (va len : Nat) :
    NextQueue s.pending (execRdmaRead qp rkey va len s) := by simp [execRdmaRead]

@[simp] theorem execHeldRequestRetry_queue (s : State) (qp : Nat) : NextQueue s.pending (execHeldRequestRetry qp s) := by
  unfold execHeldRequestRetry
  split <;> simp

@[simp] theorem execHoldLimitExpiry_queue (s : State) (qp : Nat) : NextQueue s.pending (execHoldLimitExpiry qp s) := by
  unfold execHoldLimitExpiry
  (repeat' split) <;> simp

@[simp] theorem State.nextRead_pending (s : State) (port : Nat) : (State.nextRead s port).pending = s.pending := by
  unfold State.nextRead
  split <;> simp

@[simp] theorem execRdmaReadResponse_queue (s : State) (qp : Nat) (data : List Byte) :
    NextQueue s.pending (execRdmaReadResponse qp data s) := by
  unfold execRdmaReadResponse
  dsimp only
  (repeat' split) <;> simp

@[simp] theorem State.writeAcked_pending (s : State) (qp : Nat) (w : OutWrite) : (State.writeAcked s qp w).pending = s.pending := by
  unfold State.writeAcked
  split <;> simp

@[simp] theorem execRdmaAcknowledgement_queue (s : State) (qp : Nat) (ok : Bool) :
    NextQueue s.pending (execRdmaAcknowledgement qp ok s) := by
  unfold execRdmaAcknowledgement
  (repeat' split) <;> simp

@[simp] theorem execAckTimeout_queue (s : State) (qp : Nat) : NextQueue s.pending (execAckTimeout qp s) := by
  unfold execAckTimeout
  (repeat' split) <;> simp

@[simp] theorem execCnpSend_queue (s : State) (qp : Nat) : NextQueue s.pending (execCnpSend qp s) := by
  unfold execCnpSend
  dsimp only
  (repeat' split) <;> simp

@[simp] theorem execCnp_queue (s : State) (qp : Nat) : NextQueue s.pending (execCnp qp s) := by
  unfold execCnp
  (repeat' split) <;> simp

@[simp] theorem execRateRecoveryStep_queue (s : State) (qp : Nat) : NextQueue s.pending (execRateRecoveryStep qp s) := by
  unfold execRateRecoveryStep
  dsimp only
  (repeat' split) <;> simp

@[simp] theorem execReq_queue (s : State) (p : Nat) (m : CmReq) : NextQueue s.pending (execReq p m s) := by
  unfold execReq
  dsimp only
  (repeat' split) <;> simp

@[simp] theorem State.freeQpIndex_pending (s : State) (q : Nat) : (State.freeQpIndex s q).pending = s.pending := rfl

@[simp] theorem execRtu_queue (s : State) (qp : Nat) : NextQueue s.pending (execRtu qp s) := by simp [execRtu]

@[simp] theorem execRtuTimeout_queue (s : State) (qp : Nat) : NextQueue s.pending (execRtuTimeout qp s) := by
  unfold execRtuTimeout
  (repeat' split) <;> simp

@[simp] theorem State.openFailed_pending (s : State) (qp : Nat) (status : Nat) : (State.openFailed s qp status).pending = s.pending := by
  unfold State.openFailed
  (repeat' split) <;> simp

@[simp] theorem execRep_queue (s : State) (p qp mtu remoteQpn : Nat) : NextQueue s.pending (execRep p qp mtu remoteQpn s) := by
  unfold execRep
  (repeat' split) <;> simp

@[simp] theorem execRej_queue (s : State) (qp : Nat) : NextQueue s.pending (execRej qp s) := by simp [execRej]

@[simp] theorem execDeviceReqTimeout_queue (s : State) (qp : Nat) : NextQueue s.pending (execDeviceReqTimeout qp s) := by
  unfold execDeviceReqTimeout
  (repeat' split) <;> simp

@[simp] theorem execDreq_queue (s : State) (qp : Nat) : NextQueue s.pending (execDreq qp s) := by
  unfold execDreq
  split <;> simp

@[simp] theorem execDrep_queue (s : State) (qp : Nat) : NextQueue s.pending (execDrep qp s) := by
  unfold execDrep
  (repeat' split) <;> simp

@[simp] theorem State.countSigned_pending (s : State) : (State.countSigned s).pending = s.pending := rfl

@[simp] theorem State.writeBlock_pending (s : State) : (State.writeBlock s).pending = s.pending := rfl

@[simp] theorem execCounterBlockWrite_queue (s : State) : NextQueue s.pending (execCounterBlockWrite s) := by
  unfold execCounterBlockWrite
  split <;> simp

@[simp] theorem State.endSessions_pending (s : State) (gone : Session → Bool) : (State.endSessions s gone).pending = s.pending := rfl

@[simp] theorem execSessionLifetimeEnd_queue (s : State) (path : Path) : NextQueue s.pending (execSessionLifetimeEnd path s) := by
  unfold execSessionLifetimeEnd
  split <;> simp

@[simp] theorem State.guestViolation_pending (s : State) (addr : Nat) : (State.guestViolation s addr).pending = s.pending := rfl

@[simp] theorem execGuestRequest_queue (s : State) (op addr len : Nat) (malformed : Bool) (data : List Byte) :
    NextQueue s.pending (execGuestRequest op addr len malformed data s) := by
  unfold execGuestRequest
  dsimp only
  (repeat' split) <;> simp

@[simp] theorem State.cocoonErase_pending (s : State) : (State.cocoonErase s).pending = s.pending := by
  unfold State.cocoonErase
  split <;> rfl

@[simp] theorem execCocoonWipeDone_queue (s : State) (slicesUnwiped : Nat) (packagesUnwiped : Half) (verifyFailures : Nat) :
    NextQueue s.pending (execCocoonWipeDone slicesUnwiped packagesUnwiped verifyFailures s) := by
  unfold execCocoonWipeDone
  split <;> simp

@[simp] theorem execCocoonFlashDone_queue (s : State) : NextQueue s.pending (execCocoonFlashDone s) := by
  unfold execCocoonFlashDone
  split <;> simp

@[simp] theorem execWipeCertificate_queue (s : State) : NextQueue s.pending (execWipeCertificate s) := by
  unfold execWipeCertificate
  (repeat' split) <;> simp

@[simp] theorem execGetInfo_queue (s : State) (h0 : CmdHdr) :
    NextQueue s.pending (execGetInfo h0 s) := State.command_queue _ _ _ _ fun s => s.done_pending ..

end Sys2Proof.Machine
end

