-- ==== Sys2Proof/Proofs/QueueOfMailbox.lean ====
section
/-!
The queue of waiting commands (00 R12), part 8 of 8: the mailbox commands leave it as it was. The lemmas stand in the order of the model.
-/

namespace Sys2Proof.Machine

@[simp] theorem execComputeReset_queue (s : State) (h0 : CmdHdr) (mode : Nat) (cds : List Nat) :
    NextQueue s.pending (execComputeReset h0 mode cds s) := State.command_queue _ _ _ _ fun s => by simp

@[simp] theorem execDeviceReset_queue (s : State) (h0 : CmdHdr) :
    NextQueue s.pending (execDeviceReset h0 s) := State.command_queue _ _ _ _ fun s => by simp

@[simp] theorem State.storeProfile_pending (s : State) (key : Nat) (v : List Byte) :
    (State.storeProfile s key v).pending = s.pending := by simp [State.storeProfile]

@[simp] theorem execConfig_queue (s : State) (h0 : CmdHdr) (op : Nat) (key : Word) (value : List Byte) :
    NextQueue s.pending (execConfig h0 op key value s) := State.command_queue _ _ _ _ fun s => by simp

@[simp] theorem State.openWindow_pending (s : State) (h0 : CmdHdr) (w port gid : Nat) (hostGid : BitVec 128) (va len : Dword) (rkey : Word) (q : Nat) :
    (State.openWindow s h0 w port gid hostGid va len rkey q).pending = s.pending := rfl

@[simp] theorem execWindow_queue (s : State) (h0 : CmdHdr) (op w port gidIndex : Nat) (hostGid : BitVec 128) (va len : Dword) (rkey : Word) :
    NextQueue s.pending (execWindow h0 op w port gidIndex hostGid va len rkey s) := State.command_queue _ _ _ _ fun s => by
  dsimp only
  (repeat' split) <;> simp

@[simp] theorem execRegion_queue (s : State) (h0 : CmdHdr) (op index base len : Nat) (rd wr : Bool) (domain : Nat) :
    NextQueue s.pending (execRegion h0 op index base len rd wr domain s) := State.command_queue _ _ _ _ fun s => by simp

@[simp] theorem execRetire_queue (s : State) (h0 : CmdHdr) (tier unit page : Nat) (bank : Bool) :
    NextQueue s.pending (execRetire h0 tier unit page bank s) := State.command_queue _ _ _ _ fun s => by simp

@[simp] theorem execUnitRegs_queue (s : State) (h0 : CmdHdr) (op : Nat) (u : RegUnit) (offset : Nat) (value : Dword) :
    NextQueue s.pending (execUnitRegs h0 op u offset value s) := State.command_queue _ _ _ _ fun s => by simp

@[simp] theorem execExportWindow_queue (s : State) (h0 : CmdHdr) (index base size : Nat) (rd wr : Bool) :
    NextQueue s.pending (execExportWindow h0 index base size rd wr s) := State.command_queue _ _ _ _ fun s => by simp

@[simp] theorem execSetPowerCap_queue (s : State) (h0 : CmdHdr) (watts : Nat) :
    NextQueue s.pending (execSetPowerCap h0 watts s) := State.command_queue _ _ _ _ fun s => by simp

@[simp] theorem execSetProboscis_queue (s : State) (h0 : CmdHdr) (mask : Half) (activeMax : Nat) :
    NextQueue s.pending (execSetProboscis h0 mask activeMax s) := State.command_queue _ _ _ _ fun s => by simp

@[simp] theorem State.gateCmd_pending (s : State) (cd : Nat) (on : Bool) :
    (State.gateCmd s cd on).1.pending = s.pending := by simp [State.gateCmd]

@[simp] theorem State.domainCmd_pending (s : State) (cd : Nat) (on : Bool) : (State.domainCmd s cd on).1.pending = s.pending := by
  unfold State.domainCmd
  dsimp only
  (repeat' split) <;> simp

@[simp] theorem execDomain_queue (s : State) (h0 : CmdHdr) (cd level : Nat) (on : Bool) :
    NextQueue s.pending (execDomain h0 cd level on s) := State.command_queue _ _ _ _ fun s => by simp

@[simp] theorem execGetPower_queue (s : State) (h0 : CmdHdr) :
    NextQueue s.pending (execGetPower h0 s) := State.command_queue _ _ _ _ fun s => by simp

@[simp] theorem execGetThermal_queue (s : State) (h0 : CmdHdr) (mask : Word) :
    NextQueue s.pending (execGetThermal h0 mask s) := State.command_queue _ _ _ _ fun s => by simp

@[simp] theorem execGetRth_queue (s : State) (h0 : CmdHdr) (stack : Nat) :
    NextQueue s.pending (execGetRth h0 stack s) := State.command_queue _ _ _ _ fun s => by simp

@[simp] theorem execGetErrorLog_queue (s : State) (h0 : CmdHdr) (first count : Nat) (b : BufRef) :
    NextQueue s.pending (execGetErrorLog h0 first count b s) := State.command_queue _ _ _ _ fun s => by simp

@[simp] theorem State.inject_queue (s : State) (ut ui cls kind : Nat) : SomeQueue s.pending (State.inject s ut ui cls kind) := by
  unfold State.inject
  refine someQueue_ite (someQueue_some.mpr ?_) (someQueue_ite (someQueue_some.mpr ?_) (someQueue_ite (someQueue_some.mpr rfl)
    (someQueue_ite (someQueue_some.mpr rfl) (someQueue_ite (someQueue_some.mpr (State.logEvent_pending ..))
    (someQueue_ite (someQueue_some.mpr (s.crcError_pending ui)) (someQueue_ite (someQueue_some.mpr (s.modPort_pending ..)) someQueue_none))))))
  · exact (ite_pending ..).trans (ite_of_both rfl (State.logEvent_pending ..))
  · exact (ite_pending ..).trans (ite_of_both rfl (State.logEvent_pending ..))

@[simp] theorem execInjectError_queue (s : State) (h0 : CmdHdr) (unitType index cls kind : Nat) :
    NextQueue s.pending (execInjectError h0 unitType index cls kind s) := by
  refine State.command_queue _ _ _ _ fun s => ?_
  split
  · simp
  next t ht =>
    have h : SomeQueue s.pending (if kind < 256 ∧ cls < 5 then s.inject unitType index cls kind else none) := by split <;> simp
    simp [h.eq ht]

@[simp] theorem State.enableAnswer_pending (s : State) (h0 : CmdHdr) (op : Nat) (enable draining pending : Bool) (code : Nat) :
    (State.enableAnswer s h0 op enable draining pending code).pending = s.pending := by simp [State.enableAnswer]

@[simp] theorem execLink_queue (s : State) (h0 : CmdHdr) (l : Nat) (enable : Bool) (widthMax : Nat) (retrain : Bool) :
    NextQueue s.pending (execLink h0 l enable widthMax retrain s) := State.command_queue _ _ _ _ fun s => by simp

@[simp] theorem execSetLysId_queue (s : State) (h0 : CmdHdr) (system : Word) (device : Nat) (torus : Bool) :
    NextQueue s.pending (execSetLysId h0 system device torus s) := State.command_queue _ _ _ _ fun s => by simp

@[simp] theorem execWriteRoutes_queue (s : State) (h0 : CmdHdr) (b : BufRef) :
    NextQueue s.pending (execWriteRoutes h0 b s) := State.command_queue _ _ _ _ fun s => by simp

@[simp] theorem execGroup_queue (s : State) (h0 : CmdHdr) (op id : Nat) (b : BufRef) :
    NextQueue s.pending (execGroup h0 op id b s) := State.command_queue _ _ _ _ fun s => by simp

@[simp] theorem execPort_queue (s : State) (h0 : CmdHdr) (p : Nat) (enable : Bool) (modeSel : Nat) :
    NextQueue s.pending (execPort h0 p enable modeSel s) := State.command_queue _ _ _ _ fun s => by simp

@[simp] theorem State.undoRetire_pending (s : State) (r : Retiring) :
    (State.undoRetire s r).pending = s.pending := by simp [State.undoRetire]

@[simp] theorem State.timeOut_pending (s : State) (c : Cmd) : (State.timeOut s c).1.pending = s.pending := by
  unfold State.timeOut
  dsimp only
  (repeat' split) <;> simp

@[simp] theorem execCommandTimeout_queue (s : State) (h0 : CmdHdr) (applied : Bool) :
    NextQueue s.pending (execCommandTimeout h0 applied s) := by
  unfold execCommandTimeout
  dsimp only
  (repeat' split) <;> simp

@[simp] theorem State.spend_pending (s : State) (key : BitVec 512) (counter : Nat) : (State.spend s key counter).pending = s.pending := rfl

@[simp] theorem State.freshKey_pending (s : State) (key : BitVec 512) : (State.freshKey s key).pending = s.pending := rfl

@[simp] theorem execOpenSession_queue (s : State) (h0 : CmdHdr) (b : BufRef) (o : SObj) :
    NextQueue s.pending (execOpenSession h0 b o s) := by
  refine State.command_queue _ _ _ _ fun s => State.withBuf_pending _ _ _ _ _ fun s bs => ?_
  dsimp only
  (repeat' split) <;> simp

@[simp] theorem execTakeOwnership_queue (s : State) (h0 : CmdHdr) (b : BufRef) (o : SObj) :
    NextQueue s.pending (execTakeOwnership h0 b o s) := by
  refine State.command_queue _ _ _ _ fun s => State.withBuf_pending _ _ _ _ _ fun s bs => ?_
  dsimp only
  (repeat' split) <;> simp

@[simp] theorem execTenant_queue (s : State) (h0 : CmdHdr) (op : Nat) (b : BufRef) (o : SObj) :
    NextQueue s.pending (execTenant h0 op b o s) := by
  refine State.command_queue _ _ _ _ fun s => State.withBuf_pending _ _ _ _ _ fun s bs => ?_
  dsimp only
  (repeat' split) <;> simp

@[simp] theorem State.outSigned_pending (s : State) (h0 : CmdHdr) (op : Nat) (b : BufRef) (bs : List Byte) :
    (State.outSigned s h0 op b bs).pending = s.pending := by simp [State.outSigned]

@[simp] theorem execGetQuote_queue (s : State) (h0 : CmdHdr) (nonce : BitVec 256) (b : BufRef) :
    NextQueue s.pending (execGetQuote h0 nonce b s) := State.command_queue _ _ _ _ fun s => by simp

@[simp] theorem execGetConditionReport_queue (s : State) (h0 : CmdHdr) (b : BufRef) :
    NextQueue s.pending (execGetConditionReport h0 b s) := State.command_queue _ _ _ _ fun s => by simp

@[simp] theorem execResetServiceCounters_queue (s : State) (h0 : CmdHdr) (b : BufRef) (o : SObj) :
    NextQueue s.pending (execResetServiceCounters h0 b o s) := by
  refine State.command_queue _ _ _ _ fun s => State.withBuf_pending _ _ _ _ _ fun s bs => ?_
  dsimp only
  (repeat' split) <;> simp

@[simp] theorem State.clearForCocoon_pending (s : State) (keep : Nat) :
    (State.clearForCocoon s keep).pending = s.pending := by simp [State.clearForCocoon]

@[simp] theorem execEnterCocoon_queue (s : State) (h0 : CmdHdr) (b : BufRef) : NextQueue s.pending (execEnterCocoon h0 b s) := by
  unfold execEnterCocoon
  refine nextQueue_ite (by simp) (State.command_queue _ _ _ _ fun s => ?_)
  dsimp only
  refine (ite_pending ..).trans (ite_of_both (by simp) ?_)
  split
  · simp
  · split <;> simp

@[simp] theorem execMacsecKey_queue (s : State) (h0 : CmdHdr) (port : Nat) (tx : Bool) (an : Nat) (sci : Dword) (ssci : Word) (b : BufRef) (unwrapOk : Bool) :
    NextQueue s.pending (execMacsecKey h0 port tx an sci ssci b unwrapOk s) := State.command_queue _ _ _ _ fun s => by simp

@[simp] theorem State.vacate_pending (s : State) (r : Nat × Nat) :
    (State.vacate s r).pending = s.pending := foldl_pending (fun s p => by (repeat' split) <;> simp) _ s

@[simp] theorem execGuestFirewall_queue (s : State) (h0 : CmdHdr) (index base size mask rate : Nat) :
    NextQueue s.pending (execGuestFirewall h0 index base size mask rate s) := State.command_queue _ _ _ _ fun s => by simp

@[simp] theorem execStageFirmware_queue (s : State) (h0 : CmdHdr) (b : BufRef) (info : BundleInfo) (readBackOk : Bool) :
    NextQueue s.pending (execStageFirmware h0 b info readBackOk s) := State.command_queue _ _ _ _ fun s => by simp

@[simp] theorem execActivateFirmware_queue (s : State) (h0 : CmdHdr) (digest : BitVec 512) :
    NextQueue s.pending (execActivateFirmware h0 digest s) := State.command_queue _ _ _ _ fun s => by
  split <;> simp

@[simp] theorem execGetFirmware_queue (s : State) (h0 : CmdHdr) :
    NextQueue s.pending (execGetFirmware h0 s) := State.command_queue _ _ _ _ fun s => by simp

@[simp] theorem execSubmitProgram_queue (s : State) (h0 : CmdHdr) (b : BufRef) : NextQueue s.pending (execSubmitProgram h0 b s) := by
  refine State.command_queue _ _ _ _ fun s => State.withBuf_pending _ _ _ _ _ fun s bs => ?_
  dsimp only
  (repeat' split) <;> simp

@[simp] theorem execRemoveProgram_queue (s : State) (h0 : CmdHdr) (slot : Nat) :
    NextQueue s.pending (execRemoveProgram h0 slot s) := State.command_queue _ _ _ _ fun s => by simp

@[simp] theorem execRegisterModel_queue (s : State) (h0 : CmdHdr) (r : ModelRec) :
    NextQueue s.pending (execRegisterModel h0 r s) := State.command_queue _ _ _ _ fun s => by
  split <;> simp

@[simp] theorem execRemoveModel_queue (s : State) (h0 : CmdHdr) (model : Nat) :
    NextQueue s.pending (execRemoveModel h0 model s) := State.command_queue _ _ _ _ fun s => by simp

@[simp] theorem execSetResidency_queue (s : State) (h0 : CmdHdr) (model : Nat) (cls : Nat) (weight : Nat) :
    NextQueue s.pending (execSetResidency h0 model cls weight s) := State.command_queue _ _ _ _ fun s => by
  split <;> simp

@[simp] theorem execRegisterAdapter_queue (s : State) (h0 : CmdHdr) (r : AdapterRec) :
    NextQueue s.pending (execRegisterAdapter h0 r s) := State.command_queue _ _ _ _ fun s => by
  (repeat' split) <;> simp

@[simp] theorem execRemoveAdapter_queue (s : State) (h0 : CmdHdr) (adapter : Nat) :
    NextQueue s.pending (execRemoveAdapter h0 adapter s) := State.command_queue _ _ _ _ fun s => by
  split <;> simp

@[simp] theorem execPrefix_queue (s : State) (h0 : CmdHdr) (op : Nat) (model : Nat) (id : Nat) (b : BufRef) :
    NextQueue s.pending (execPrefix h0 op model id b s) := by
  refine State.command_queue _ _ _ _ fun s => ?_
  dsimp only
  split
  · split <;> simp
  · split
    · simp
    · split
      · simp
      · split
        · simp
        · refine State.withBuf_pending _ _ _ _ _ fun s bs => ?_
          dsimp only
          split
          · rfl
          · split
            · rfl
            next x hx =>
              have h : x.1.pending = s.pending := (PairQueue.foldlBind
                (f := fun (y : State × List KvTable) t => (y.1.growTable t false none _).map fun z => (z.1, y.2 ++ [z.2]))
                (PairQueue.mapState (s.placePools_queue model) fun _ => rfl)
                (fun y t hy => PairQueue.map (hy ▸ y.1.growTable_queue ..) fun _ => rfl)).eq hx
              simp [h]

@[simp] theorem execRegisterTokeniser_queue (s : State) (h0 : CmdHdr) (slot : Nat) (b : BufRef) (splitMode : Nat) (vocab : List (List Byte)) (merges : List (Nat × Nat)) :
    NextQueue s.pending (execRegisterTokeniser h0 slot b splitMode vocab merges s) := State.command_queue _ _ _ _ fun s => by simp

@[simp] theorem execFinetune_queue (s : State) (h0 : CmdHdr) (op : Nat) (adapter : Nat) (job : FtJob) (b : BufRef) :
    NextQueue s.pending (execFinetune h0 op adapter job b s) := by
  refine State.command_queue _ _ _ _ fun s => ?_
  dsimp only
  split
  · simp
  · (repeat' split) <;> simp

@[simp] theorem execServiceSet_queue (s : State) (h0 : CmdHdr) (op : Nat) (set : Nat) (service : Dword) (port : Nat) (pfx : BitVec 128) (pfxLen : Nat) (qps : Nat) :
    NextQueue s.pending (execServiceSet h0 op set service port pfx pfxLen qps s) := State.command_queue _ _ _ _ fun s => by
  (repeat' split) <;> simp

@[simp] theorem execGetService_queue (s : State) (h0 : CmdHdr) (set : Nat) :
    NextQueue s.pending (execGetService h0 set s) := State.command_queue _ _ _ _ fun s => by simp

@[simp] theorem execSubmitTask_queue (s : State) (h0 : CmdHdr) (d : TaskDesc) :
    NextQueue s.pending (execSubmitTask h0 d s) := State.command_queue _ _ _ _ fun s => by simp

@[simp] theorem State.cancelTask_pending (s : State) (t0 : Task) : (State.cancelTask s t0).pending = s.pending := by simp [State.cancelTask]

@[simp] theorem execCancelTask_queue (s : State) (h0 : CmdHdr) (task : Nat) :
    NextQueue s.pending (execCancelTask h0 task s) := State.command_queue _ _ _ _ fun s => by
  split <;> simp

@[simp] theorem execGetTaskState_queue (s : State) (h0 : CmdHdr) (task : Nat) :
    NextQueue s.pending (execGetTaskState h0 task s) := State.command_queue _ _ _ _ fun s => by
  split <;> simp

@[simp] theorem execOpenEpoch_queue (s : State) (h0 : CmdHdr) : NextQueue s.pending (execOpenEpoch h0 s) := by
  refine State.command_queue _ _ _ _ fun s => ?_
  split
  · simp
  next s1 e hx =>
    have h : s1.pending = s.pending := (s.openEpoch_queue ..).eq hx
    simp [h]

@[simp] theorem execCommit_queue (s : State) (h0 : CmdHdr) (epoch : Nat) (entries : List CommitEntry) :
    NextQueue s.pending (execCommit h0 epoch entries s) := State.command_queue _ _ _ _ fun s => by
  split <;> simp

@[simp] theorem execDiscard_queue (s : State) (h0 : CmdHdr) (epoch : Nat) :
    NextQueue s.pending (execDiscard h0 epoch s) := State.command_queue _ _ _ _ fun s => by
  split <;> simp

@[simp] theorem execSetReady_queue (s : State) (h0 : CmdHdr) (t0 : Handle) :
    NextQueue s.pending (execSetReady h0 t0 s) := State.command_queue _ _ _ _ fun s => by simp

@[simp] theorem execSubmitCollective_queue (s : State) (h0 : CmdHdr) (d : CollDesc) :
    NextQueue s.pending (execSubmitCollective h0 d s) := State.command_queue _ _ _ _ fun s => by simp

end Sys2Proof.Machine
end

