-- ==== Sys2Proof/Proofs/QueueDrains.lean ====
section
/-!
The waiting commands: no command touches the queue (00 R12), so that they run one by one in the order in which they came.
-/

namespace Sys2Proof.Machine

/-- Every command leaves the queue as it was. -/
theorem exec_queue (i : Instr) (s : State) : NextQueue s.pending (exec i s) :=
  match i with
  | .nop c w => execNop_queue s c w
  | .endKernel c w => execEndKernel_queue s c w
  | .loop c w => execLoop_queue s c w
  | .waitq c w => execWaitq_queue s c w
  | .waitqRelease c => execWaitqRelease_queue s c
  | .drain c w => execDrain_queue s c w
  | .drainRelease c => execDrainRelease_queue s c
  | .bara c w => execBara_queue s c w
  | .barw c w => execBarw_queue s c w
  | .barrierRelease task cd id scope => execBarrierRelease_queue s task cd id scope
  | .rdreg c w => execRdreg_queue s c w
  | .pmark c w => execPmark_queue s c w
  | .chain c w => execChain_queue s c w
  | .chainCycleZero c offSchedule => execChainCycleZero_queue s c offSchedule
  | .aclr c w => execAclr_queue s c w
  | .cmma c w => execCmma_queue s c w
  | .ccvt c w => execCcvt_queue s c w
  | .accst c w => execAccst_queue s c w
  | .accld c w => execAccld_queue s c w
  | .vadd c w => execVadd_queue s c w
  | .vsub c w => execVsub_queue s c w
  | .vmul c w => execVmul_queue s c w
  | .vfma c w => execVfma_queue s c w
  | .vmax c w => execVmax_queue s c w
  | .vmin c w => execVmin_queue s c w
  | .vcvt c w => execVcvt_queue s c w
  | .vcopy c w => execVcopy_queue s c w
  | .vcmpgt c w => execVcmpgt_queue s c w
  | .vexp c w => execVexp_queue s c w
  | .vlog c w => execVlog_queue s c w
  | .vrcp c w => execVrcp_queue s c w
  | .vrsqrt c w => execVrsqrt_queue s c w
  | .vtanh c w => execVtanh_queue s c w
  | .verf c w => execVerf_queue s c w
  | .rowmax c w => execRowmax_queue s c w
  | .rowsum c w => execRowsum_queue s c w
  | .rowsumsq c w => execRowsumsq_queue s c w
  | .viadd c w => execViadd_queue s c w
  | .vimul c w => execVimul_queue s c w
  | .vishr c w => execVishr_queue s c w
  | .viand c w => execViand_queue s c w
  | .vimin c w => execVimin_queue s c w
  | .accadd c w => execAccadd_queue s c w
  | .vrand c w => execVrand_queue s c w
  | .mload c w => execMload_queue s c w
  | .mstore c w => execMstore_queue s c w
  | .gload c w => execGload_queue s c w
  | .gscat c w => execGscat_queue s c w
  | .gpage c w => execGpage_queue s c w
  | .sequencerStallRelease c => execSequencerStallRelease_queue s c
  | .scoreboardRelease c e => execScoreboardRelease_queue s c e
  | .watchEntryFree c e => execWatchEntryFree_queue s c e
  | .engineInstrComplete c e => execEngineInstrComplete_queue s c e
  | .instrTimeLimit c e => execInstrTimeLimit_queue s c e
  | .externalScratchAccess from_ addr len acc => execExternalScratchAccess_queue s from_ addr len acc
  | .imemLoad c bank kernel code digest => execImemLoad_queue s c bank kernel code digest
  | .imemLoadDone c => execImemLoadDone_queue s c
  | .imemArm c => execImemArm_queue s c
  | .imemDisarm c => execImemDisarm_queue s c
  | .taskFire task => execTaskFire_queue s task
  | .waveStart task cd => execWaveStart_queue s task cd
  | .loadRaiseWithdraw cd => execLoadRaiseWithdraw_queue s cd
  | .completionToken task wave node tok => execCompletionToken_queue s task wave node tok
  | .dispatcherHeartbeat cd => execDispatcherHeartbeat_queue s cd
  | .heartbeatTimeout cd => execHeartbeatTimeout_queue s cd
  | .taskTimeLimit task => execTaskTimeLimit_queue s task
  | .shadowCopyDone task => execShadowCopyDone_queue s task
  | .commitAct epoch => execCommitAct_queue s epoch
  | .placerRecompute acts => execPlacerRecompute_queue s acts
  | .shardMove h shard addr => execShardMove_queue s h shard addr
  | .replicaCreate h shard addr => execReplicaCreate_queue s h shard addr
  | .residencyRank => execResidencyRank_queue s
  | .sliceBurstRequest from_ addr len acc => execSliceBurstRequest_queue s from_ addr len acc
  | .retryReissue c e => execRetryReissue_queue s c e
  | .correctedWriteBack c codeword => execCorrectedWriteBack_queue s c codeword
  | .sliceRefresh stack quadrant layer => execSliceRefresh_queue s stack quadrant layer
  | .scrubBurst c => execScrubBurst_queue s c
  | .scrubAge u age => execScrubAge_queue s u age
  | .sliceFill => execSliceFill_queue s
  | .checkerSelftest failedSlices failedPackages => execCheckerSelftest_queue s failedSlices failedPackages
  | .spareCopyDone c page => execSpareCopyDone_queue s c page
  | .pageEmptied tier unit page => execPageEmptied_queue s tier unit page
  | .retirementTableWrite => execRetirementTableWrite_queue s
  | .outerBlockRequest from_ addr len acc waiting => execOuterBlockRequest_queue s from_ addr len acc waiting
  | .creditReturn m req => execCreditReturn_queue s m req
  | .outerSend m => execOuterSend_queue s m
  | .outerWindowAge m req => execOuterWindowAge_queue s m req
  | .outerParityNak m req => execOuterParityNak_queue s m req
  | .holdAssert m => execHoldAssert_queue s m
  | .holdRelease m => execHoldRelease_queue s m
  | .outerReadData m req dieCorrected dieUe busErrors reread => execOuterReadData_queue s m req dieCorrected dieUe busErrors reread
  | .outerRequestTimeout m req => execOuterRequestTimeout_queue s m req
  | .dieWriteBack m codeword => execDieWriteBack_queue s m codeword
  | .outerRefresh m channel bank burst => execOuterRefresh_queue s m channel bank burst
  | .postponedRefresh m channel bank => execPostponedRefresh_queue s m channel bank
  | .outerScrub m => execOuterScrub_queue s m
  | .outerFill => execOuterFill_queue s
  | .outerSpareCopyDone m page => execOuterSpareCopyDone_queue s m page
  | .outerBusRetrain m ok => execOuterBusRetrain_queue s m ok
  | .proboscisSubmit m prt record poison c => execProboscisSubmit_queue s m prt record poison c
  | .proboscisStart m => execProboscisStart_queue s m
  | .rotationWindow m => execRotationWindow_queue s m
  | .proboscisPublish m prt => execProboscisPublish_queue s m prt
  | .proboscisTimeout m prt => execProboscisTimeout_queue s m prt
  | .busyReissue c e => execBusyReissue_queue s c e
  | .resettingReissue c e => execResettingReissue_queue s c e
  | .request qp r => execRequest_queue s qp r
  | .requestContinuation qp r => execRequestContinuation_queue s qp r
  | .cancel qp request => execCancel_queue s qp request
  | .credit qp request value => execCredit_queue s qp request value
  | .close qp context => execClose_queue s qp context
  | .unknownRecord qp request => execUnknownRecord_queue s qp request
  | .tokenise qp request => execTokenise_queue s qp request
  | .passForm model => execPassForm_queue s model
  | .fillWaitExpiry model => execFillWaitExpiry_queue s model
  | .passCommit pass results => execPassCommit_queue s pass results
  | .streamWrite qp request count => execStreamWrite_queue s qp request count
  | .creditTimeout qp request => execCreditTimeout_queue s qp request
  | .contextIdleTimeout context => execContextIdleTimeout_queue s context
  | .modelFetch model digest => execModelFetch_queue s model digest
  | .modelStage model => execModelStage_queue s model
  | .adapterStage pass adapter => execAdapterStage_queue s pass adapter
  | .finetuneStep adapter ok grads => execFinetuneStep_queue s adapter ok grads
  | .flitCrcReplay cd dir => execFlitCrcReplay_queue s cd dir
  | .resettingAnswerTimeout cd => execResettingAnswerTimeout_queue s cd
  | .clusterRelease cd => execClusterRelease_queue s cd
  | .channelOpenRequest ep idx producer => execChannelOpenRequest_queue s ep idx producer
  | .channelGrant ep idx => execChannelGrant_queue s ep idx
  | .channelWord ep idx producer data kind poison => execChannelWord_queue s ep idx producer data kind poison
  | .channelWordRead ep idx => execChannelWordRead_queue s ep idx
  | .flush ep idx => execFlush_queue s ep idx
  | .packetAbort ep idx producer => execPacketAbort_queue s ep idx producer
  | .chnCfgWrite ep idx value => execChnCfgWrite_queue s ep idx value
  | .linkFrameRx l codewordErrors flits fcb => execLinkFrameRx_queue s l codewordErrors flits fcb
  | .fcbRx l fcb => execFcbRx_queue s l fcb
  | .flitRx l flit => execFlitRx_queue s l flit
  | .crcNak l seq => execCrcNak_queue s l seq
  | .protocolNak l seq => execProtocolNak_queue s l seq
  | .replayTimeout l => execReplayTimeout_queue s l
  | .linkAttemptStart l => execLinkAttemptStart_queue s l
  | .partnerDetected l lanes => execPartnerDetected_queue s l lanes
  | .equaliseDone l goodRx goodTx => execEqualiseDone_queue s l goodRx goodTx
  | .deskewDone l reversed polarity => execDeskewDone_queue s l reversed polarity
  | .mgmtId l system device lnk version torus => execMgmtId_queue s l system device lnk version torus
  | .attemptTimeout l => execAttemptTimeout_queue s l
  | .attemptRetryTimer l => execAttemptRetryTimer_queue s l
  | .mismatchRetry l => execMismatchRetry_queue s l
  | .linkLeaveUp l => execLinkLeaveUp_queue s l
  | .linkRetrain l => execLinkRetrain_queue s l
  | .linkDisable l => execLinkDisable_queue s l
  | .linkEnable l => execLinkEnable_queue s l
  | .linkDrainEnd l => execLinkDrainEnd_queue s l
  | .linkQuarantine l => execLinkQuarantine_queue s l
  | .backoffEnd l => execBackoffEnd_queue s l
  | .backoffRelax l => execBackoffRelax_queue s l
  | .read l p => execRead_queue s l p
  | .write l p => execWrite_queue s l p
  | .instarQ l p => execInstarQ_queue s l p
  | .readData l p => execReadData_queue s l p
  | .writeAck l p => execWriteAck_queue s l p
  | .instarA l p => execInstarA_queue s l p
  | .nak l p => execNak_queue s l p
  | .collData l p => execCollData_queue s l p
  | .collAck l p => execCollAck_queue s l p
  | .collAbort l p => execCollAbort_queue s l p
  | .mgmtRoute l p => execMgmtRoute_queue s l p
  | .packetForward arrival p dwell => execPacketForward_queue s arrival p dwell
  | .remoteAttemptTimeout die tag => execRemoteAttemptTimeout_queue s die tag
  | .collChunkTimeout task step rank => execCollChunkTimeout_queue s task step rank
  | .earlyChunkResend task step rank => execEarlyChunkResend_queue s task step rank
  | .collTimeLimit task => execCollTimeLimit_queue s task
  | .portEnable p => execPortEnable_queue s p
  | .portDisable p => execPortDisable_queue s p
  | .portDrainEnd p => execPortDrainEnd_queue s p
  | .modeSelWrite p v => execModeSelWrite_queue s p v
  | .pfcMaskWrite p v => execPfcMaskWrite_queue s p v
  | .portUp p => execPortUp_queue s p
  | .portFault p loc remote => execPortFault_queue s p loc remote
  | .ethFrameRx p f => execEthFrameRx_queue s p f
  | .pfcRepeat p prio => execPfcRepeat_queue s p prio
  | .pfcXon p prio occupancy => execPfcXon_queue s p prio occupancy
  | .pfcFrameRx p prio quanta => execPfcFrameRx_queue s p prio quanta
  | .ethPfcStorm p prio => execEthPfcStorm_queue s p prio
  | .frameTx p prio size => execFrameTx_queue s p prio size
  | .addressProbe p v6 duplicate => execAddressProbe_queue s p v6 duplicate
  | .dhcpRenew p v6 => execDhcpRenew_queue s p v6
  | .dhcpRebind p v6 => execDhcpRebind_queue s p v6
  | .leaseExpiry p v6 => execLeaseExpiry_queue s p v6
  | .arp p target sender senderMac => execArp_queue s p target sender senderMac
  | .neighbourSolicitation p target => execNeighbourSolicitation_queue s p target
  | .routerAdvertisement p router => execRouterAdvertisement_queue s p router
  | .echo p v6 payload => execEcho_queue s p v6 payload
  | .send qp length => execSend_queue s qp length
  | .rdmaWrite qp rkey va data => execRdmaWrite_queue s qp rkey va data
  | .rdmaRead qp rkey va len => execRdmaRead_queue s qp rkey va len
  | .rdmaReadResponse qp data => execRdmaReadResponse_queue s qp data
  | .ackTimeout qp => execAckTimeout_queue s qp
  | .heldRequestRetry qp => execHeldRequestRetry_queue s qp
  | .holdLimitExpiry qp => execHoldLimitExpiry_queue s qp
  | .cnpSend qp => execCnpSend_queue s qp
  | .cnp qp => execCnp_queue s qp
  | .rateRecoveryStep qp => execRateRecoveryStep_queue s qp
  | .req p m => execReq_queue s p m
  | .rep p qp mtu remoteQpn => execRep_queue s p qp mtu remoteQpn
  | .rtu qp => execRtu_queue s qp
  | .dreq qp => execDreq_queue s qp
  | .drep qp => execDrep_queue s qp
  | .rej qp => execRej_queue s qp
  | .rtuTimeout qp => execRtuTimeout_queue s qp
  | .deviceReqTimeout qp => execDeviceReqTimeout_queue s qp
  | .clockOffer candidate => execClockOffer_queue s candidate
  | .clockWithdraw candidate => execClockWithdraw_queue s candidate
  | .candidateStable candidate => execCandidateStable_queue s candidate
  | .pllLock => execPllLock_queue s
  | .dividerRampStep cd => execDividerRampStep_queue s cd
  | .cmdTailWrite qp value => execCmdTailWrite_queue s qp value
  | .commandFetch => execCommandFetch_queue s
  | .responseWrite => execResponseWrite_queue s
  | .rspHeadWrite qp value => execRspHeadWrite_queue s qp value
  | .ringReset byI2c qp => execRingReset_queue s byI2c qp
  | .i2cGo => execI2cGo_queue s
  | .i2cWriteTransaction x => execI2cWriteTransaction_queue s x
  | .i2cReadTransaction x count => execI2cReadTransaction_queue s x count
  | .alertClear mask => execAlertClear_queue s mask
  | .alertMaskWrite value => execAlertMaskWrite_queue s value
  | .lysIdWrite value => execLysIdWrite_queue s value
  | .activeMaxWrite m value => execActiveMaxWrite_queue s m value
  | .registerWrite u offset value => execRegisterWrite_queue s u offset value
  | .telemetryRewrite => execTelemetryRewrite_queue s
  | .commandTimeout h applied => execCommandTimeout_queue s h applied
  | .getInfo h => execGetInfo_queue s h
  | .computeReset h mode cds => execComputeReset_queue s h mode cds
  | .deviceReset h => execDeviceReset_queue s h
  | .config h op key value => execConfig_queue s h op key value
  | .openSession h b o => execOpenSession_queue s h b o
  | .submitProgram h b => execSubmitProgram_queue s h b
  | .removeProgram h slot => execRemoveProgram_queue s h slot
  | .registerModel h r => execRegisterModel_queue s h r
  | .removeModel h model => execRemoveModel_queue s h model
  | .setResidency h model cls weight => execSetResidency_queue s h model cls weight
  | .registerAdapter h r => execRegisterAdapter_queue s h r
  | .removeAdapter h adapter => execRemoveAdapter_queue s h adapter
  | .prefix_ h op model id b => execPrefix_queue s h op model id b
  | .registerTokeniser h slot b splitMode vocab merges => execRegisterTokeniser_queue s h slot b splitMode vocab merges
  | .finetune h op adapter job b => execFinetune_queue s h op adapter job b
  | .serviceSet h op set service prt pfx pfxLen qps => execServiceSet_queue s h op set service prt pfx pfxLen qps
  | .getService h set => execGetService_queue s h set
  | .submitTask h d => execSubmitTask_queue s h d
  | .cancelTask h task => execCancelTask_queue s h task
  | .getTaskState h task => execGetTaskState_queue s h task
  | .openEpoch h => execOpenEpoch_queue s h
  | .commit h epoch entries => execCommit_queue s h epoch entries
  | .discard h epoch => execDiscard_queue s h epoch
  | .setReady h t => execSetReady_queue s h t
  | .submitCollective h d => execSubmitCollective_queue s h d
  | .window h op w prt gidIndex hostGid va len rkey => execWindow_queue s h op w prt gidIndex hostGid va len rkey
  | .region h op index base len rd wr domain => execRegion_queue s h op index base len rd wr domain
  | .retire h tier unit page bank => execRetire_queue s h tier unit page bank
  | .unitRegs h op u offset value => execUnitRegs_queue s h op u offset value
  | .exportWindow h index base size rd wr => execExportWindow_queue s h index base size rd wr
  | .setPowerCap h watts => execSetPowerCap_queue s h watts
  | .setProboscis h mask activeMax => execSetProboscis_queue s h mask activeMax
  | .domain h cd level on => execDomain_queue s h cd level on
  | .getPower h => execGetPower_queue s h
  | .getThermal h mask => execGetThermal_queue s h mask
  | .getRth h stack => execGetRth_queue s h stack
  | .stageFirmware h b info readBackOk => execStageFirmware_queue s h b info readBackOk
  | .stagingEraseDone => execStagingEraseDone_queue s
  | .activateFirmware h digest => execActivateFirmware_queue s h digest
  | .getFirmware h => execGetFirmware_queue s h
  | .takeOwnership h b o => execTakeOwnership_queue s h b o
  | .tenant h op b o => execTenant_queue s h op b o
  | .getQuote h nonce b => execGetQuote_queue s h nonce b
  | .enterCocoon h b => execEnterCocoon_queue s h b
  | .getConditionReport h b => execGetConditionReport_queue s h b
  | .resetServiceCounters h b o => execResetServiceCounters_queue s h b o
  | .macsecKey h prt tx an sci ssci b unwrapOk => execMacsecKey_queue s h prt tx an sci ssci b unwrapOk
  | .guestFirewall h index base size mask rate => execGuestFirewall_queue s h index base size mask rate
  | .getErrorLog h first count b => execGetErrorLog_queue s h first count b
  | .injectError h unitType index cls kind => execInjectError_queue s h unitType index cls kind
  | .link h l enable widthMax retrain => execLink_queue s h l enable widthMax retrain
  | .setLysId h system device torus => execSetLysId_queue s h system device torus
  | .writeRoutes h b => execWriteRoutes_queue s h b
  | .group h op id b => execGroup_queue s h op id b
  | .port h p enable modeSel => execPort_queue s h p enable modeSel
  | .feedInRange f => execFeedInRange_queue s f
  | .feedOutOfRange f => execFeedOutOfRange_queue s f
  | .feedOvervoltage f => execFeedOvervoltage_queue s f
  | .feedReconnect f => execFeedReconnect_queue s f
  | .feedMateOpen f => execFeedMateOpen_queue s f
  | .feedSwitchover => execFeedSwitchover_queue s
  | .rstNAssert => execRstNAssert_queue s
  | .rstNRelease => execRstNRelease_queue s
  | .sag orMv => execSag_queue s orMv
  | .sagRecordDone orMv => execSagRecordDone_queue s orMv
  | .feedReturn f => execFeedReturn_queue s f
  | .orNodeLow => execOrNodeLow_queue s
  | .firstStageStop => execFirstStageStop_queue s
  | .firstStageStart => execFirstStageStart_queue s
  | .powerMeasure aMv bMv powerMw vpkgA => execPowerMeasure_queue s aMv bMv powerMw vpkgA
  | .capControlPeriod mean1ms mean10ms => execCapControlPeriod_queue s mean1ms mean10ms
  | .fastLimit windowW => execFastLimit_queue s windowW
  | .fastLimitRelease windowW => execFastLimitRelease_queue s windowW
  | .sustainedOver mean1ms => execSustainedOver_queue s mean1ms
  | .phaseFail cd phase => execPhaseFail_queue s cd phase
  | .droop cd sensor mv => execDroop_queue s cd sensor mv
  | .domainBudgetGrant cd neighbourMa vpkgMa => execDomainBudgetGrant_queue s cd neighbourMa vpkgMa
  | .rampStep cd => execRampStep_queue s cd
  | .engineGateClose c e => execEngineGateClose_queue s c e
  | .clusterGateIdle cd => execClusterGateIdle_queue s cd
  | .thermalZoneSample zone samples => execThermalZoneSample_queue s zone samples
  | .fastRise channel => execFastRise_queue s channel
  | .thermalTrip channel => execThermalTrip_queue s channel
  | .flowCompute tachHz16 powerW => execFlowCompute_queue s tachHz16 powerW
  | .lowFlowLeave => execLowFlowLeave_queue s
  | .stackRestart stack => execStackRestart_queue s stack
  | .coolantAbsent => execCoolantAbsent_queue s
  | .flowProbe ev => execFlowProbe_queue s ev
  | .rthMeasure stack tj0 tc0 p0 tj1 tc1 p1 => execRthMeasure_queue s stack tj0 tc0 p0 tj1 tc1 p1
  | .romEntry idx => execRomEntry_queue s idx
  | .bundleHash componentsOk => execBundleHash_queue s componentsOk
  | .poweringDone holdupUf => execPoweringDone_queue s holdupUf
  | .guestAbsent => execGuestAbsent_queue s
  | .trainingDone failedPackages failedCores => execTrainingDone_queue s failedPackages failedCores
  | .fillDone => execFillDone_queue s
  | .coreSelftest failedClusters repairedRows => execCoreSelftest_queue s failedClusters repairedRows
  | .broadcastStart chunks => execBroadcastStart_queue s chunks
  | .chunkWrite die chunk missed => execChunkWrite_queue s die chunk missed
  | .repairRequest cd digestOk => execRepairRequest_queue s cd digestOk
  | .repairRoundTimeout cd => execRepairRoundTimeout_queue s cd
  | .eclosion => execEclosion_queue s
  | .lastGaspCopy slot => execLastGaspCopy_queue s slot
  | .watchdogExpiry p => execWatchdogExpiry_queue s p
  | .procRestartDone p => execProcRestartDone_queue s p
  | .liveSwitchStep p => execLiveSwitchStep_queue s p
  | .emergencyClear => execEmergencyClear_queue s
  | .rollback => execRollback_queue s
  | .svnAdvance => execSvnAdvance_queue s
  | .wavesStopped => execWavesStopped_queue s
  | .resetSelftestDone failedClusters => execResetSelftestDone_queue s failedClusters
  | .clusterFence cd event dispatcherAnswers => execClusterFence_queue s cd event dispatcherAnswers
  | .deviceErrorReset event => execDeviceErrorReset_queue s event
  | .errorRecordWrite event unitType unitIndex => execErrorRecordWrite_queue s event unitType unitIndex
  | .serviceLifeCopy index => execServiceLifeCopy_queue s index
  | .counterBlockWrite => execCounterBlockWrite_queue s
  | .guestRequest op addr len malformed data => execGuestRequest_queue s op addr len malformed data
  | .cocoonWipeDone slicesUnwiped packagesUnwiped verifyFailures => execCocoonWipeDone_queue s slicesUnwiped packagesUnwiped verifyFailures
  | .cocoonFlashDone => execCocoonFlashDone_queue s
  | .wipeCertificate => execWipeCertificate_queue s
  | .pauseTimeExpiry p prio => execPauseTimeExpiry_queue s p prio
  | .stormIgnoreEnd p prio => execStormIgnoreEnd_queue s p prio
  | .dhcpReply p v6 addr prefixLen router => execDhcpReply_queue s p v6 addr prefixLen router
  | .arpReply p ip mac => execArpReply_queue s p ip mac
  | .neighbourAdvertisement p ip => execNeighbourAdvertisement_queue s p ip
  | .rdmaAcknowledgement qp ok => execRdmaAcknowledgement_queue s qp ok
  | .sessionLifetimeEnd path => execSessionLifetimeEnd_queue s path
  | .resetDelayExpiry => execResetDelayExpiry_queue s
  | .phaseEmergencyEnd => execPhaseEmergencyEnd_queue s
  | .reportedFault p => execReportedFault_queue s p
  | .housekeepingSupplyUp => execHousekeepingSupplyUp_queue s
  | .outerWriteAcknowledge m req busErrors => execOuterWriteAcknowledge_queue s m req busErrors
  | .sliceBurstComplete c slot => execSliceBurstComplete_queue s c slot

/-- Settles O4: the front command leaves the commands behind it as they are, and the next step runs the first of them. -/
theorem queueDrainsInOrder : Obligations.QueueDrainsInOrder := by
  unfold Obligations.QueueDrainsInOrder
  refine ⟨fun c s t h => (exec_queue c s).eq h, fun c d rest s t h => ?_⟩
  have hc : exec c { s with pending := d :: rest } = .next t := h
  have ht : t.pending = d :: rest := (exec_queue c _).eq hc
  exact ⟨hc, ht, step_cons ht⟩

end Sys2Proof.Machine
end
